-- ==== Sys2Proof/Word.lean ====
section
/-!
DEFINITION. The words of the module: bytes, 64-byte lines and their byte masks (R84, R146), and little-endian
byte strings (R9).
-/
namespace Sys2Proof

/-- One byte of a dictionary value, a message or a record. -/
abbrev Byte := BitVec 8

/-- A byte string, byte 0 first (R9). -/
abbrev Bytes := List Byte

/-- The 64 data bytes of one line; byte `i` is bits `8 i + 7 .. 8 i` (R84). -/
abbrev Line := BitVec 512

/-- The byte enables of one line, bit `i` for byte `i` (R146). -/
abbrev Mask := BitVec 64

/-- The value of a byte string read little-endian (R9). -/
def leNat : Bytes → Nat
  | [] => 0
  | b :: bs => b.toNat + 256 * leNat bs

/-- The `n` low bytes of a value, little-endian (R9). -/
def natLe : Nat → Nat → Bytes
  | 0, _ => []
  | n + 1, v => BitVec.ofNat 8 v :: natLe n (v / 256)

/-- Bits `hi .. lo` of a natural number (R8). -/
def bits (v hi lo : Nat) : Nat := (v / 2 ^ lo) % 2 ^ (hi + 1 - lo)

end Sys2Proof
end

