-- ==== Sys2Proof/Syntax.lean ====
section
/-!
DEFINITION. The commands of the block: one constructor of Instr per row of spec/opcode_table.json, with the operands
each row needs. The table gives no operand fields; an operand names what arrives with the event (a request, a message,
a reading) or a physical outcome the module cannot decide (whether a codeword decodes), log entry 2.
-/
namespace Sys2Proof

/-- The five routes of the dictionary and of the mailbox commands (R459, R66). -/
inductive Route where
  | field | fabric | primary | page | yoke
deriving DecidableEq, Repr

/-- The five dictionary roles (R14). -/
inductive Role where
  | operator | fabric | partner | peer | debug
deriving DecidableEq, Repr

/-- Who sends a dictionary or mailbox command: the route and, on the mailbox routes, the requester key (R53, R74); `intr` is the
mailbox interrupt control set with the command: bit 0 asks for vector 0 at its completion, bit 1 at the end of the background command
it starts (R80, log entry 37). -/
structure Who where
  route : Route
  key : Nat
  intr : Nat := 0
deriving DecidableEq, Repr

/-- How one decode step of a codeword ended (R125, R126). -/
inductive Decode where
  | good | crcFail | noConverge
deriving DecidableEq, Repr

/-- What a check of cache or DRAM finds during an access (R31, R362, R380, R392): parity of a front-cache line or tag, the line
CRC of a front-cache line, bursts of the tier and its tags, of the tables, the journal and a group's spilled shadow parity, and the
uncorrectable SRAM words that are read again: a tag-cache entry, a map-cache entry, the slice's overlay filter, a cached key
(R397); `tierCrc` is a burst of a tier line that the code corrects in a virtual position, which makes its line CRC fail (R391). -/
inductive CacheFault where
  | none | fcLine | fcTag | fcCrc | tierLine | tierCrc | tagOne | tagBoth | tables | journal | tagEntry | mapEntry | overlayBits
  | keyEntry (id : Nat)
  | shadow (group : Nat)
  | corrected (device : Nat)
  | sram (kind : Nat)
deriving DecidableEq, Repr

/-- One soft decode of an internal read (R125, R253): the channel of the page decoded, the codeword's own or a peer's, whether it was made
at step 4, and the 15 offsets of its sample. -/
structure SoftSample where
  ch : Nat
  deep : Bool
  offsets : List Int
deriving DecidableEq, Repr

/-- What an internal read of one codeword comes to (R125, R163, R241, R258): its hard decode converges with some bits corrected; a later
step of R125 recovers it, with the bits corrected at last; or every step fails. Of a failed codeword whose last attempt converged,
`slots` are the line slots whose CRC failed; it is empty where that attempt did not converge. -/
inductive Finding where
  | converged (corrected : Nat)
  | soft (step corrected : Nat) (samples : List SoftSample)
  | failed (slots : List Nat) (samples : List SoftSample)
deriving DecidableEq, Repr

/-- One codeword that an activity of the module reads and that does not converge at once: its page, its number there and what its read
comes to. -/
structure WordRead where
  ppa : Nat
  word : Nat
  found : Finding
deriving DecidableEq, Repr

/-- What the capacitance measurement finds (R159, R554). -/
inductive BankFault where
  | none | stringOpen (s : Nat) | stringShort (s : Nat) | pathOpen | pathShort | unmeasurable
deriving DecidableEq, Repr

/-- The checks of a firmware image that need the keeper's hash engine (R414). -/
structure FwVerdict where
  magicOk : Bool
  keyOk : Bool
  sigOk : Bool
  digestOk : Bool
deriving DecidableEq, Repr

/-- How an import blob unwraps (R406). -/
structure ImportVerdict where
  stale : Bool
  unwraps : Bool
  material : BitVec 512
deriving DecidableEq, Repr

/-- A parameter-memory record whose copies a power-up finds lost (R488), or in conflict: one Sequence and different payloads (R487). -/
inductive TwinLoss where
  | config (index sub : Nat)
  | range (r : Nat)
  | partner (n : Nat)
  | key (id : Nat)
  | cell (pkg cls band : Nat)
  | counter (which : Nat)
  | securityCounter
  | membership
  | commitMarker
  | lapRoot
  | pageGeneration
  | dose (pkg : Nat)
  | criticalLatch
  | dramTraining
  | password (area kind : Nat)
  | firkin (position : Nat)
  | conflict (area rec : Nat)
deriving DecidableEq, Repr

/-- The membership payload of Heartbeat, Hello, StandDown and Pulse (R328). -/
structure Membership where
  pairId : Nat
  serial : Nat
  pairEpoch : Nat
  baseEpoch : Nat
  state : Nat
  staleSelf : Bool
  brine : Bool
  positionB : Bool
  senior : Bool
  serving : Bool
  deviceId : Nat
  compat : Nat
  lastRole : Nat
  sequence : Nat
deriving DecidableEq, Repr

/-- One staged record of a CommitPrepare segment (R320). -/
structure StageRec where
  index : Nat
  sub : Nat
  value : Bytes
deriving DecidableEq, Repr

/-- What a handshake learns of the peer beside its payload (R307, R308, R312, R350): its position configuration, its
SeniorPosition, whether it holds mapped grains, how many of its bitmap's bits are set, whether Join was commanded there, whether
this module is its recorded peer; and, for the module that receives, the peer's committed tables as Packed values and the
commands the peer recorded while Sole, as notice code, key ID, base and length. -/
structure HelloInfo where
  position : Nat
  seniorPosition : Nat
  holdsMapped : Bool
  divergentCount : Nat
  joinGiven : Bool
  knowsUs : Bool
  prevailGiven : Bool
  tables : List StageRec
  recorded : List (Nat × Nat × Nat × Nat)
deriving DecidableEq, Repr

/-- A write carried over the yoke (R318): Forward, Mirror. `lineOk`: the line matches the line CRC in Aux (R392). -/
structure YokeWrite where
  tag : Nat
  line : Nat
  data : Line
  mask : Mask
  full : Bool
  poisoned : Bool
  conditional : Bool
  cls : Nat
  entry : Nat
  lineOk : Bool
deriving DecidableEq, Repr

/-- Why a module stands down (R330). -/
inductive StandDownCause where
  | controllerReset | warmReset | coldReset | dump | critical | withdraw | fence
deriving DecidableEq, Repr

/-- The four front-cache maintenance commands (R363). -/
inductive MaintKind where
  | clean | invalidate | lock | zero
deriving DecidableEq, Repr

/-- The commands the block takes, one per row of spec/opcode_table.json, in the table's order. -/
inductive Instr where
  -- power-up, dump and resets
  | powerUp (main aux : Bool) (lost : List TwinLoss)
  | firmwareVerifyDone (v : FwVerdict) (trainFail : BitVec 8) (badPages : List (Nat × Nat))
  | dumpReplayDone (badLines : List Nat)
  | memoryActiveSet
  | imageRetire
  | retiredImageReset (number : Nat)
  | powerLossConfirmed
  | overvoltageTrip
  | pwrdisAssert
  | pwrdisDeassert
  | dumpWindowsEnded (fcBad dramBad : List Nat)
  | dumpSealed
  | bankExhausted
  | mainReturnDuringDump
  | warmReset (perst : Bool)
  | functionLevelReset
  | resetErrorDetected (source : Nat) (fcBad : List Nat) (swept : List (Nat × CacheFault))
  | firmwareWatchdogExpire (fcBad : List Nat) (swept : List (Nat × CacheFault))
  | mapUnitPageIn (unitType unit : Nat)
  | mapResident
  | linkTrainingDone (speed width failed : Nat)
  | fabricBind (endpoint : Nat)
  | fabricUnbind
  -- the host port and the slices
  | hostReadRequest (key addr tag : Nat)
  | hostWriteRequest (key addr tag : Nat) (data : Line) (be : Mask) (poison : Bool)
  | ingressDispatch (slice : Nat)
  | sliceLookup (slice : Nat) (fault : CacheFault) (bank row : Nat) (queued : Bool)
  | missSlotFreed (slice set : Nat) (fault : CacheFault)
  | missTableEntryFreed (slice : Nat) (fault : CacheFault)
  | sliceMissSideSleep (slice : Nat)
  | channelClockStop (ch : Nat)
  | programSuspendForRead (pos ch : Nat)
  | deferredDirectRead (miss : Nat)
  | codewordDecoded (miss ch : Nat) (r : Decode) (corrected : Nat) (offsets : List Int)
  | stripeCombineDone (miss : Nat) (r : Decode)
  | prefetchDone (pf : Nat) (r : Decode)
  | tierFillDone (sector : Nat)
  | mergeBaseArrived (line : Nat) (dramBad : Bool)
  | writeAdmit
  | writesHeld
  | frontCacheEvict (slice set : Nat) (fault : CacheFault)
  | tierSectorFreed (slice set : Nat)
  -- writeback and media
  | writebackStart (reads : List WordRead)
  | dirtyAgeExpired
  | leaveGrant
  | windowTokenGrant (pos : Nat)
  | windowEnd (pos : Nat)
  | programPassDone (pass : Nat) (failed : Bool) (damaged lostPages : List Nat) (reads : List WordRead)
  | pageVerify (ppa corrected : Nat) (converged : Bool) (damaged lostPages : List Nat)
  | closeVerifyDone (group : Nat) (failed weak lostPages : List Nat)
  | blockResetDone (group : Nat) (failedCols : List Nat)
  | dieFailed (pos ch : Nat) (lostPages : List Nat)
  | rebuildPhaseDone
  | lapStart
  | lapComplete
  -- media care
  | skimVictimSelect
  | idleSkimStart
  | copySetSwitch (victim : Nat) (bad : Option Nat)
  | repourStart
  | ripeningCellUpdate (pkg cls band : Nat)
  | strainerLapEnd
  | strainerFinding (ppa codeword : Nat) (f : Finding)
  | brineDropReport
  -- the keeper: round, thermal, power
  | housekeepingRound (readings : List Nat)
  | throttleLeave (zone : Nat)
  | sensorRestored (ch : Nat)
  | railFault (ch : Nat)
  | chargeVoltageRaise
  | capacitanceMeasure (capA capB : Nat) (fault : BankFault)
  | criticalRecheck (ch reading : Nat)
  | baseDrawMeasure (inputMw : Nat)
  | pacingStep
  | deliverableRecompute
  | latencyMissReport (cls : Nat)
  | boundConditionClear (bit : Nat)
  | gillLeak (domain : Nat)
  | pailReset (kind inst : Nat)
  | dramPageCloseTimeout (subchannel bank : Nat)
  | refreshPeriodEnd
  | dramRetrainStep
  | retrain (w : Who) (mask : BitVec 8)
  -- atomics
  | reservedRead (key addr tag : Nat) (fault : CacheFault)
  | reservationTableRoom (slice : Nat) (fault : CacheFault)
  | conditionalWrite (key addr tag : Nat) (data : Line) (be : Mask) (poison : Bool)
  -- the yoke
  | yokeTrainingDone (speed width : Nat) (credits : List Nat)
  | yokeFrameReceive (frame : Bytes)
  | yokeRetransmit
  | forward (m : YokeWrite)
  | mirror (m : YokeWrite)
  | ordered (tag outcome : Nat)
  | mirrorAck (tag : Nat)
  | readForward (tag line : Nat)
  | readData (tag line : Nat) (data : Line) (poisoned lineOk : Bool)
  | resyncGrainRead (reads : List WordRead)
  | resyncSector (grain sector st : Nat) (data : List Line) (poison crcBad : BitVec 32)
  | resyncAck (grain : Nat)
  | resyncClear (grain : Nat)
  | bitmapUnit (unit : Nat) (set : List Nat)
  | heartbeatSend
  | heartbeat (m : Membership)
  | hello (m : Membership) (x : HelloInfo)
  | standDown (m : Membership)
  | moduleStandDown (cause : StandDownCause)
  | yokeDictionary (msg : Bytes)
  | commitPrepare (batch seg : Nat) (last : Bool) (recs : List StageRec)
  | commitVote (batch code : Nat)
  | commitApply (batch : Nat)
  | commitDone (batch : Nat)
  | notice (code keyId base length : Nat)
  | grainChange (grain st : Nat)
  | grainChangeAck (grain : Nat)
  | yokeSilent
  | aliveWireState (serving : Bool)
  | aliveWireSilent
  | pulseSend
  | pulse (m : Membership)
  | pulseSilent
  | suspectDecision
  | juniorFenceDelay
  | seniorFenceWait
  | takeoverSilence
  | join (w : Who)
  | prevail (w : Who)
  | forceSole (w : Who)
  | withdraw (w : Who)
  | leave (w : Who)
  -- the memory-device commands
  | getEventRecords (w : Who) (log : Nat)
  | clearEventRecords (w : Who) (log : Nat) (all : Bool) (handles : List Nat)
  | getEventInterruptPolicy (w : Who)
  | setEventInterruptPolicy (w : Who) (enables : BitVec 4)
  | getFwInfo (w : Who)
  | transferFw (w : Who) (offset : Nat) (data : Bytes)
  | activateFw (w : Who)
  | getTimestamp (w : Who)
  | setTimestamp (w : Who) (t : Nat)
  | getSupportedLogs (w : Who)
  | getLog (w : Who) (log : Nat)
  | identifyMemoryDevice (w : Who)
  | getPartitionInfo (w : Who)
  | getHealthInfo (w : Who)
  | getAlertConfiguration (w : Who)
  | setAlertConfiguration (w : Who) (life temperature volatileErr persistentErr : Nat)
  | getShutdownState (w : Who)
  | setShutdownState (w : Who) (st : Nat)
  | getPoisonList (w : Who) (base length : Nat)
  | clearPoison (w : Who) (addr : Nat) (data : Line)
  | scanMediaCapabilities (w : Who) (base length : Nat)
  | scanMedia (w : Who) (base length flags : Nat)
  | getScanMediaResults (w : Who)
  | sanitize (w : Who)
  | secureErase (w : Who)
  | backgroundCommandDone
  | dictionaryTransfer (w : Who) (payload : Bytes)
  | unsupportedCommand (w : Who) (opcode : Nat)
  -- notifications and the field network
  | notifySend (cond : Nat)
  | notifyResend (cond : Nat)
  | notifyAck (cond seq : Nat)
  | i3cAddressAssigned (addr : Nat)
  | setEndpointId (route : Route) (eid : Nat)
  | smbrstAssert
  -- the dictionary
  | dtpRead (w : Who) (tid index sub : Nat)
  | dtpWrite (w : Who) (tid index sub : Nat) (data : Bytes)
  | dtpReadInitiate (w : Who) (tid index sub : Nat)
  | dtpReadSegment (w : Who) (tid : Nat) (toggle : Bool)
  | dtpWriteInitiate (w : Who) (tid index sub total : Nat)
  | dtpWriteSegment (w : Who) (tid : Nat) (toggle last : Bool) (data : Bytes)
  | dtpAbort (w : Who) (tid code : Nat)
  | segmentTimeout (route : Route)
  | dictionaryWrite (w : Who) (index sub : Nat) (data : Bytes)
  | commitBatch (w : Who) (logFault : Bool)
  | discardBatch (w : Who)
  | passwordPresent (w : Who) (area kind : Nat) (pw : Bytes)
  | passwordLock (w : Who)
  | presentationTimeout (role : Role)
  | passwordLockoutEnd (role : Role)
  | setPassword (w : Who) (area kind : Nat) (pw : Bytes)
  | restoreDefaults (w : Who)
  | areaDataWrite (w : Who) (data : Bytes)
  -- the command entries
  | zeroRangeStart (w : Who)
  | zeroRangeDone
  | discardStart (w : Who)
  | secureDiscardStart (w : Who)
  | secureDiscardDone
  | cryptoDiscardStart (w : Who)
  | cryptoDiscardDone
  | cryptoDiscardSweep
  | scrubStart (w : Who)
  | scrubCancel (w : Who)
  | scrubPassDone (errors : List (Nat × CacheFault))
  | brineRelease (w : Who)
  | rekey (w : Who)
  | prepareShutdownStart (w : Who)
  | prepareShutdownCancel (w : Who)
  | shutdownPrepared
  | identifyStart (w : Who)
  | identifyStop (w : Who)
  | identifyExpire
  | keyGenerate (w : Who)
  | keyImport (w : Who) (v : ImportVerdict)
  | keyRegenerate (w : Who)
  | attestSign (w : Who)
  | attestSignDone
  | frontCacheDisable (w : Who)
  | frontCacheDrained
  | frontCacheEnable (w : Who)
  | rangeClean (w : Who) (found : List (Nat × CacheFault))
  | rangeInvalidate (w : Who) (found : List (Nat × CacheFault))
  | lineLock (w : Who) (found : List (Nat × CacheFault))
  | lineZero (w : Who)
  | maintenanceDone (k : MaintKind)
  | fwBegin (w : Who)
  | fwChunk (w : Who) (data : Bytes)
  | fwVerify (w : Who)
  | fwActivate (w : Who)
  | fwCancel (w : Who)
  | fwOperationDone (v : FwVerdict)
  | testStateEnter (w : Who)
  | testStateLeave (w : Who)
  | selfTestStart (w : Who)
  | selfTestCancel (w : Who)
  | selfTestDone (errors first : Nat) (badBlocks : List Nat)
  | readBackData (w : Who)
  -- counters, the Firkin and the event pail
  | counterSnapshot (w : Who)
  | counterSnapshotClear (w : Who)
  | counterWrap (block n addr partner : Nat)
  | overflowClear (w : Who) (block : Nat) (mask : BitVec 8)
  | firkinPeriodClose
  | firkinFreeze (w : Who)
  | firkinThaw (w : Who)
  | firkinAutoThaw
  | eventPailRead (w : Who)
  | eventPailDropRemainder (w : Who)
  | overrunRead (w : Who)
  | powerBudgetWrite (w : Who) (mw : Nat)
  -- supplies, sideband and the remaining events
  | perstDeassert
  | auxPowerLoss
  | auxPowerArrive
  | criticalLatchClear
  | smbrstDeassert
  | i3cDynamicAddressReset
  | counterSnapshotReady
  | discardDone
  | strainerDramLapEnd (errors : List (Nat × CacheFault))
  | keyUnwrapDone (id : Nat)
  | boundaryScanInstruction (opcode : BitVec 8)
deriving DecidableEq, Repr

end Sys2Proof
end

