-- ==== Sys2Proof/Decode.lean ====
section
/-!
DEFINITION. The decoder of the opcode table's bits. The table gives no row any bits (every `match` and `mask` is 0 and
every width 0: a block's commands arrive as events, not as words), so no word spells a command.
-/
namespace Sys2Proof

/-- The command an instruction word spells: none, since no row of the table gives bits. -/
def decodeTableWord (_nbits _w : Nat) : Option Instr := none

end Sys2Proof
end

