-- ==== Sys2Proof/Config.lean ====
section
/-!
DEFINITION. What an implementation fixes and what the spec leaves open. The figures of the three variants (R1, R165,
R187, R234, R370 and the rules that own each) are functions of Variant; the free values are opaque constants, so no
proof can see what they are (log entry 4).
-/
namespace Sys2Proof

/-- The three modules of the lineup (R1). -/
inductive Variant where
  | sn32 | sn64 | sn128
deriving DecidableEq, Repr

namespace Variant

/-- One figure per variant. -/
def pick {α : Type} (v : Variant) (a b c : α) : α :=
  match v with
  | .sn32 => a
  | .sn64 => b
  | .sn128 => c

/-- User capacity C in bytes (R1). -/
def capacity (v : Variant) : Nat := v.pick (2 ^ 45) (2 ^ 46) (2 ^ 47)
/-- Logical lines (R84). -/
def lines (v : Variant) : Nat := v.capacity / 64
/-- Grains of user capacity (R187). -/
def grains (v : Variant) : Nat := v.capacity / 16384
/-- Die positions, which are the die rows (R128, R187). -/
def positions (v : Variant) : Nat := v.pick 12 24 48
/-- Media dies (R1). -/
def dies (v : Variant) : Nat := 16 * v.positions
/-- Media packages (R186). -/
def packages (v : Variant) : Nat := v.pick 24 48 96
/-- Block groups (R187). -/
def groups (v : Variant) : Nat := v.positions * 4096
/-- Block groups in the two dump slots (R187). -/
def slotGroups (v : Variant) : Nat := v.pick 50 94 180
/-- Reserve at delivery, in sixteenths of a group (R234). -/
def reserve (v : Variant) : Nat := v.pick 15728 31456 62912
/-- Largest dirty budget, MiB (R1, R156). -/
def maxBudget (v : Variant) : Nat := v.pick 4096 8192 16384
/-- Largest module power, mW (R1). -/
def maxPower (v : Variant) : Nat := v.pick 40000 50000 70000
/-- DumpPower, mW (R156). -/
def dumpPower (v : Variant) : Nat := v.pick 37000 38000 40000
/-- PCI device ID (R43). -/
def deviceId (v : Variant) : Nat := v.pick 0x5A20 0x5A40 0x5A80
/-- Tier sets per slice, S (R370). -/
def tierSets (v : Variant) : Nat := v.pick 99312 202657 409347
/-- DRAM data capacity in bytes (R1). -/
def dramBytes (v : Variant) : Nat := v.pick (2 ^ 36) (2 ^ 37) (2 ^ 38)
/-- Overlay-index bucket count exponent b (R214). -/
def overlayBits (v : Variant) : Nat := v.pick 25 26 27
/-- Dump slot capacity in bytes (R165). -/
def slotBytes (v : Variant) : Nat := v.pick 6710886400 12616466432 24159191040
/-- Round channels (R443). -/
def channels (v : Variant) : Nat := v.pick 96 120 168
/-- Full-load base draw of R434, mW. -/
def fullLoadBase (v : Variant) : Nat := v.pick 20000 26000 36000
/-- Mailbox capacity units of 256 MiB (R67). -/
def capUnits (v : Variant) : Nat := v.pick 131072 262144 524288
/-- The part number (R490). -/
def partNumber (v : Variant) : String := v.pick "GKS-SN32-E3L" "GKS-SN64-E3L" "GKS-SN128-E3L"

end Variant

/-- The features the table of R42 names. -/
inductive PortFeature where
  | pam4Fec | flitMode | nonFlitMode | widthsX16X8X4 | laneReversal | widthsX2X1 | l0p | aspm | d0D3cold | d3hot | laneMargining
  | twoRetimers | msix | msiIntx | aer | functionLevelReset | sriovAtsPriPasid | doe | spdmCmaIdeTdisp | cxlIo | cxlMem | cxlCache
  | flit256 | flit68 | type3HdmH | hdmDBackInvalidate | multiLogical | portBasedRouting | sourceAccessTable | poisonOnRead | viral
  | cxlReset | linkEncryption | mailboxMctp | eventRecords
deriving DecidableEq, Repr
/-- What a feature is used for (R42): supported, required for CXL, for one use only, or not supported. -/
inductive Support where
  | yes | requiredForCxl | pcieOnlyAt16 | cdatOnly | no
deriving DecidableEq, Repr
/-- The table of R42. -/
def PortFeature.support : PortFeature → Support
  | .flitMode => .requiredForCxl
  | .nonFlitMode => .pcieOnlyAt16
  | .doe => .cdatOnly
  | .widthsX2X1 => .no
  | .l0p => .no
  | .aspm => .no
  | .d3hot => .no
  | .msiIntx => .no
  | .sriovAtsPriPasid => .no
  | .spdmCmaIdeTdisp => .no
  | .cxlCache => .no
  | .flit68 => .no
  | .hdmDBackInvalidate => .no
  | .multiLogical => .no
  | .sourceAccessTable => .no
  | .viral => .no
  | .cxlReset => .no
  | .linkEncryption => .no
  | _ => .yes

/-- What the port presents in configuration space, registers and CDAT (R43): bandwidths in GB/s, latencies in ns, sizes in bytes, the
timeout in seconds. -/
structure PortCaps where
  classCode : Nat
  deviceId : Nat
  memCapable : Bool
  cacheCapable : Bool
  ioCapable : Bool
  viralCapable : Bool
  hdmDecoders : Nat
  interleaveWays : List Nat
  granularityMin : Nat
  granularityMax : Nat
  memoryActiveTimeout : Nat
  mailboxPayload : Nat
  msixVectors : Nat
  cdatNonVolatile : Bool
  cdatReadLatency : Nat
  cdatWriteLatency : Nat
  cdatReadBandwidth : Nat
  cdatWriteBandwidth : Nat
deriving DecidableEq, Repr
/-- The values of R43. -/
def Variant.portCaps (v : Variant) : PortCaps :=
  { classCode := 0x050210
    deviceId := v.deviceId
    memCapable := true
    cacheCapable := false
    ioCapable := true
    viralCapable := false
    hdmDecoders := 2
    interleaveWays := [1, 2, 4, 8]
    granularityMin := 256
    granularityMax := 16384
    memoryActiveTimeout := 64
    mailboxPayload := 4096
    msixVectors := 8
    cdatNonVolatile := true
    cdatReadLatency := 230
    cdatWriteLatency := 150
    cdatReadBandwidth := 100
    cdatWriteBandwidth := 90 }
/-- The block ID, under Galkeyr's vendor ID, of the vendor-specific register block that the Register Locator DVSEC lists (R298). -/
def registerBlockId : Nat := 0x0001
/-- Bytes of that register block (R298). -/
def registerBlockBytes : Nat := 4096

namespace Config

/-- Key material the generator makes: one fresh 512-bit value per draw (R406); a free value. -/
opaque freshKey : Nat → BitVec 512
/-- KeyCheck of key material: 4 bytes of an AES-256 encryption (R407); a free value. -/
opaque keyCheck : BitVec 512 → BitVec 32
/-- The AES-256-XTS ciphertext of a line under a key and a tweak (R402); a free value. -/
opaque cipher : BitVec 512 → Nat → BitVec 512 → BitVec 512
/-- The LDPC check bits over a codeword's other bytes (R190); a free value. -/
opaque ldpc : Nat → BitVec 832
/-- SHA-256 over a byte string given as its value and length (R171, R416, R479); a free value. -/
opaque sha256 : Nat → Nat → BitVec 256
/-- The key material an import blob unwraps to under the import key of a generation, none when it fails (R406); a free value. -/
opaque unwrap : Nat → Nat → Option (BitVec 512)
/-- The generation of the import key a blob was made for (R406); a free value. -/
opaque blobGen : Nat → Nat
/-- The SLH-DSA signature over an attestation object (R417); a free value. -/
opaque signature : Nat → BitVec 62848
/-- The import encapsulation key of each generation (R406, R422); a free value. -/
opaque encapsulationKey : Nat → BitVec 12544
/-- Galkeyr's assigned PCI vendor ID (R43, R490); the spec gives no number. -/
opaque vendorId : BitVec 16
/-- Galkeyr's JEDEC manufacturer identity (R541); the spec gives no number. -/
opaque jedecId : BitVec 11
/-- The factory ripening offset of a class, band and boundary (R252); the spec gives no numbers. -/
opaque factoryOffset : Nat → Nat → Nat → Int
/-- The factory read reference of a die at a level boundary (R124); the spec gives no numbers. -/
opaque baseRef : Nat → Nat → Int
/-- The offset of a twin record's copy A in its parameter-memory area, by area and record (R487, R488): the spec places
only the Firkin's. -/
opaque twinOffset : Nat → Nat → Nat
/-- The Sequence a twin record's copy in force starts from, by area and record (R486); the spec gives none. -/
opaque twinSeq : Nat → Nat → Nat
/-- Which copy of a twin record its first write goes to, by area and record (R487): true for copy B; the spec gives
neither. -/
opaque twinFirst : Nat → Nat → Bool
/-- Stored bytes whose content the spec does not lay out, by place (a parameter-memory area, a die page), offset and
moment (R484, R545). -/
opaque rawByte : Nat → Nat → Nat → BitVec 8
/-- The digest of measurement register 0, the keeper boot code (R416). -/
opaque bootDigest : BitVec 256
/-- The CRC-16 of a page's spare header (R190); the spec gives no polynomial. -/
opaque headerCrc : Nat → BitVec 16
/-- Whether a grain's four hashes meet only bits that the grains entered in an overlay filter have set (R216); the spec gives no hash
functions. -/
opaque bloomHit : List Nat → Nat → Bool
/-- CRC-64 of the first 240 bytes of a yoke frame: R316 names no polynomial (log entry 155). -/
opaque crc64 : Bytes → BitVec 64
/-- The six FEC bytes of a yoke frame over the 248 before them, which R316 takes from PCIe 6.0 flit mode (log entry 155). -/
opaque frameFec : Bytes → BitVec 48
/-- Flits the link layer has replayed while a request, by its number since the cold reset, came (R48): errors on the wire are outside the
model; a free value. -/
opaque flitReplays : Nat → Nat
/-- The progress a running background command reports, in percent, by the moment it is asked (R70); a free value. -/
opaque bgProgress : Nat → Nat
/-- A value the spec leaves open, one per draw of the free-value counter. -/
opaque freeNat : Nat → Nat

end Config
end Sys2Proof
end

