-- ==== Sys2Proof/Machine/Entries.lean ====
section
/-!
DEFINITION. The object dictionary's entry tables (R12 to R17 and the entry rule of each chapter): for every index that
exists on a variant its subentries, each with type, access code per role, default, commit class and the values its
check 8 of R468 accepts. Read values are computed in Values.lean.
-/
namespace Sys2Proof.Machine

/-- Entry value types (R13). -/
inductive Ty where
  | bool | u8 | u16 | u32 | u64
  | str (n : Nat)
  | dom (n : Nat)
  | domUpTo (n : Nat)
deriving DecidableEq, Repr

/-- The size a write must have, `none` for a DOMAIN of variable length (R13). -/
def Ty.size : Ty → Option Nat
  | .bool => some 1
  | .u8 => some 1
  | .u16 => some 2
  | .u32 => some 4
  | .u64 => some 8
  | .str n => some n
  | .dom n => some n
  | .domUpTo _ => none

/-- The longest value of the type. -/
def Ty.most : Ty → Nat
  | .bool => 1
  | .u8 => 1
  | .u16 => 2
  | .u32 => 4
  | .u64 => 8
  | .str n => n
  | .dom n => n
  | .domUpTo n => n

/-- Access codes (R15). -/
inductive Code where
  | ro | rw | wo | rws | cmd | rwp | no
deriving DecidableEq, Repr

/-- The access code of each role (R15, R16). -/
structure Access where
  o : Code
  f : Code
  p : Code
  y : Code
  d : Code
deriving DecidableEq, Repr

/-- The code one role has. -/
def Access.of (a : Access) : Role → Code
  | .operator => a.o
  | .fabric => a.f
  | .partner => a.p
  | .peer => a.y
  | .debug => a.d

/-- The Commit column (R17). -/
inductive Commit where
  | none | immediate | batch | powerUp
deriving DecidableEq, Repr

/-- One subentry. `lo`, `hi`, `step` bound the value (03030000h); `top` is the highest encoding in use and `resv` the
mask of reserved bits (03040000h); `perRole` marks values held separately for each role. -/
structure Row where
  sub : Nat
  ty : Ty
  acc : Access
  dflt : Nat := 0
  commit : Commit := .none
  lo : Nat := 0
  hi : Option Nat := none
  step : Nat := 1
  top : Option Nat := none
  resv : Nat := 0
  perRole : Bool := false
deriving DecidableEq, Repr

namespace AccessCodes
/-- RO for every role. -/
def ro : Access := ⟨.ro, .ro, .ro, .ro, .ro⟩
/-- RO; Y: —. -/
def roY : Access := ⟨.ro, .ro, .ro, .no, .ro⟩
/-- RO; P: —; Y: —. -/
def roPY : Access := ⟨.ro, .ro, .no, .no, .ro⟩
/-- RO; Y: —; D: —. -/
def roYD : Access := ⟨.ro, .ro, .ro, .no, .no⟩
/-- RO; P: —; Y: —; D: —. -/
def roPYD : Access := ⟨.ro, .ro, .no, .no, .no⟩
/-- RWS; P: RO; Y: RO; D: RO. -/
def rws : Access := ⟨.rws, .rws, .ro, .ro, .ro⟩
/-- RW; P: RO; Y: RO; D: RO. -/
def rwT : Access := ⟨.rw, .rw, .ro, .ro, .ro⟩
/-- RW; P: RO; Y: —; D: RO. -/
def rwPd : Access := ⟨.rw, .rw, .ro, .no, .ro⟩
/-- RW; Y: —. -/
def rwY : Access := ⟨.rw, .rw, .rw, .no, .rw⟩
/-- RW; P: —; Y: —. -/
def rwPY : Access := ⟨.rw, .rw, .no, .no, .rw⟩
/-- RW; P: —; Y: —; D: —. -/
def rwPYD : Access := ⟨.rw, .rw, .no, .no, .no⟩
/-- RW; P: —; Y: —; D: RO. -/
def rwPYd : Access := ⟨.rw, .rw, .no, .no, .ro⟩
/-- RWP; P: —; Y: —; D: —. -/
def rwpPYD : Access := ⟨.rwp, .rwp, .no, .no, .no⟩
/-- WO; P: —; Y: —; D: —. -/
def woPYD : Access := ⟨.wo, .wo, .no, .no, .no⟩
/-- WO; Y: —. -/
def woY : Access := ⟨.wo, .wo, .wo, .no, .wo⟩
/-- CMD; Y: —. -/
def cmdY : Access := ⟨.cmd, .cmd, .cmd, .no, .cmd⟩
/-- CMD; P: —; Y: —. -/
def cmdPY : Access := ⟨.cmd, .cmd, .no, .no, .cmd⟩
/-- CMD; P: —; Y: —; D: —. -/
def cmdPYD : Access := ⟨.cmd, .cmd, .no, .no, .no⟩
/-- CMD; P: —; Y: —; D: RO. -/
def cmdPYd : Access := ⟨.cmd, .cmd, .no, .no, .ro⟩
/-- CMD; P: —; D: — (9060h.01). -/
def cmdPD : Access := ⟨.cmd, .cmd, .no, .cmd, .no⟩
/-- CMD; F: —; P: —; Y: —; D: —. -/
def cmdO : Access := ⟨.cmd, .no, .no, .no, .no⟩
end AccessCodes

open AccessCodes

/-- A read-only subentry. -/
def rO (sub : Nat) (ty : Ty) (a : Access) : Row := { sub := sub, ty := ty, acc := a }
/-- HighestSub, subindex 00h of a RECORD (R13). -/
def hS (n : Nat) (a : Access := ro) : Row := { sub := 0, ty := .u8, acc := a, dflt := n }
/-- A writable subentry with Commit Immediate. -/
def rI (sub : Nat) (ty : Ty) (a : Access) (dflt lo : Nat) (hi : Option Nat) : Row :=
  { sub := sub, ty := ty, acc := a, dflt := dflt, commit := .immediate, lo := lo, hi := hi }
/-- A subentry with Commit Batch. -/
def rB (sub : Nat) (ty : Ty) (dflt lo : Nat) (hi : Option Nat) : Row :=
  { sub := sub, ty := ty, acc := rws, dflt := dflt, commit := .batch, lo := lo, hi := hi }
/-- A subentry with Commit Power-up. -/
def rP (sub : Nat) (ty : Ty) (a : Access) (dflt lo : Nat) (hi : Option Nat) : Row :=
  { sub := sub, ty := ty, acc := a, dflt := dflt, commit := .powerUp, lo := lo, hi := hi }
/-- A class subentry with Commit Batch, which the Peer role does not reach (R454). -/
def rK (sub : Nat) (ty : Ty) (dflt lo : Nat) (hi : Option Nat) : Row :=
  { rB sub ty dflt lo hi with acc := ⟨.rws, .rws, .ro, .no, .ro⟩ }
/-- A CMD subentry; values above `top` are reserved encodings. -/
def rC (sub : Nat) (a : Access) (top : Nat) : Row :=
  { sub := sub, ty := .u8, acc := a, commit := .immediate, top := some top }

/-- The rows of a range entry (R91); range 0 covers the whole space at delivery. -/
def rangeRows (v : Variant) (r : Nat) : List Row :=
  [ hS 0x0A,
    rB 1 .u64 0 0 none, rB 2 .u64 (if r = 0 then v.capacity else 0) 0 none,
    rB 3 .u8 0 0 none, rB 4 .u8 0 0 (some 15), { rB 5 .u8 0 0 none with top := some 2 },
    rB 6 .u16 0 0 (some 4095), { rB 7 .u8 0 0 none with top := some 1 },
    rB 8 .u8 1 0 (some 3), rO 9 .u8 ro, rB 10 (.dom 32) 0 0 none ]

/-- The rows of a partner entry (R106). Valid, RequesterKey and Capabilities of entry 4095 are read-only. -/
def partnerRows (n : Nat) : List Row :=
  if n = 4095 then
    [ hS 8, rO 1 .bool ro, rO 2 .u16 ro, rO 3 .u8 ro, { rB 4 .u8 0 0 none with resv := 0xF8 }, rB 5 (.dom 32) 0 0 none,
      rB 6 (.dom 32) 0 0 none, rO 7 (.dom 16) ro, rB 8 (.dom 96) 0 0 none ]
  else
    [ hS 8, rB 1 .bool (if n = 0 then 1 else 0) 0 none, { rB 2 .u16 0 0 none with resv := 0xF000 },
      { rB 3 .u8 (if n = 0 then 7 else 0) 0 none with resv := 0xF8 }, { rB 4 .u8 0 0 none with resv := 0xF8 },
      rB 5 (.dom 32) (if n = 0 then 1 else 0) 0 none, rB 6 (.dom 32) (if n = 0 then 1 else 0) 0 none,
      rO 7 (.dom 16) ro, rB 8 (.dom 96) 0 0 none ]

/-- The rows of a counter block (R509). -/
def counterRows : List Row :=
  [ hS 0x27, rO 1 .u64 roPY, rI 2 .u8 rwPYd 0 0 none, rO 3 (.dom 24) roPY ]
  ++ (List.range 8).map (fun n => { rI (0x10 + n) .u32 rwPYd 0 0 none with resv := 0xFFFCFF00 })
  ++ (List.range 8).map (fun n => { rI (0x18 + n) .u64 rwPYd 0 0 none with resv := 0xFFFF000000000000 })
  ++ (List.range 8).map (fun n => { rI (0x20 + n) .u64 rwPYd 0 0 none with resv := 0xFFFF000000000000 })

/-- Base and Length of a span command (R110, R266, R384); the span is checked when its command starts. -/
def spanRows (a : Access) : List Row := [ rI 1 .u64 a 0 0 none, rI 2 .u64 a 0 0 none ]

/-- Identity and communication entries, 1000h to 12FFh (R490 to R497). -/
def rowsId (v : Variant) (i : Nat) : Option (List Row) :=
  if i = 0x1000 then some [ hS 0x0C, rO 1 .u16 ro, rO 2 .u16 ro, rO 3 (.str 16) ro, rO 4 .u64 ro, rO 5 (.str 16) ro,
    rO 6 (.str 4) ro, rO 7 .u64 ro, rO 8 .u64 ro, rO 9 .u16 ro, rO 10 .u64 ro, rO 11 (.dom 8) ro, rO 12 .u16 ro ]
  else if i = 0x1001 then some [ hS 3, rO 1 (.dom 32) ro, rO 2 (.domUpTo 12288) ro, rO 3 (.domUpTo 24576) ro ]
  else if i = 0x1100 then some [ hS 5, rO 1 .u8 ro, rO 2 .u8 ro, rO 3 .u8 ro, rP 4 .u8 rwPd 0x3A 8 (some 0x77),
    rO 5 .u32 roY ]
  else if i = 0x1101 then some [ hS 4, rO 1 .u8 ro, rI 2 .u8 rwPYD 0 0 none, rO 3 .u8 roY, rO 4 .u32 roY ]
  else if 0x1110 ≤ i ∧ i ≤ 0x1117 then some [ hS 3, rI 1 (.domUpTo 16) woPYD 0 0 none, rI 2 (.domUpTo 16) woPYD 0 0 none,
    rO 3 .u8 ro ]
  else if i = 0x1120 then some [ hS 3, rI 1 (.domUpTo 18) woY 0 0 none, rO 2 .u16 roY, { rC 3 cmdY 1 with lo := 1 } ]
  else if i = 0x1200 then some [ hS 7, { rC 1 cmdPYD 2 with lo := 1 }, rO 2 .u16 roY, rO 3 .u32 roY, rO 4 .u32 ro,
    rO 5 .u32 roY, rO 6 .u32 roY, rO 7 (.domUpTo 16384) roY ]
  else if i = 0x1201 then some [ hS 1, { rC 1 cmdO 1 with lo := 1 } ]
  else (fun _ => none) v

/-- Module configuration, caches, media management and regulation, 2000h to 23FFh (R272 to R277, R382 to R385, R451 to
R454). -/
def rowsCfg (v : Variant) (i : Nat) : Option (List Row) :=
  if i = 0x2000 then some [ hS 2, { rI 1 .u32 rwPd v.maxPower 25000 (some v.maxPower) with step := 250 },
    rI 2 .u32 rwPd 2000 500 (some 8000) ]
  else if i = 0x2010 then some [ hS 5, { rI 1 .u32 rwPd v.maxBudget 0 (some v.maxBudget) with step := 256 },
    rI 2 .u8 rwPd 40 20 (some 60), rI 3 .u8 rwPd 50 10 (some 89), rI 4 .u8 rwPd 90 50 (some 99),
    rI 5 .u32 rwPd 60 1 (some 3600) ]
  else if i = 0x2020 then some [ hS 10, rI 1 .u8 rwPd 70 50 (some 70), rI 2 .u8 rwPd 78 55 (some 78), rO 3 .u8 ro,
    rI 4 .u8 rwPd 95 75 (some 95), rI 5 .u8 rwPd 105 80 (some 105), rO 6 .u8 ro, rO 7 .u8 ro, rO 8 .u8 ro, rO 9 .u8 ro,
    rI 10 .u8 rwPd 3 1 (some 10) ]
  else if i = 0x2100 then some [ hS 2, rI 1 .bool rwPd 1 0 none, rI 2 .u8 rwPd 4 0 (some 8) ]
  else if i = 0x2110 then some [ hS 3, rO 1 .u32 ro, rO 2 .u64 ro, rO 3 .u32 ro ]
  else if 0x2120 ≤ i ∧ i ≤ 0x2123 then some ([ hS 7 ] ++ spanRows rwY ++
    [ { rI 3 .u8 rwY 0 0 none with resv := if i = 0x2121 then 0xFC else if i = 0x2122 then 0xFE else 0xFF },
      { rC 4 cmdY 1 with lo := 1 }, rO 5 .u64 ro, rO 6 .u64 ro, rO 7 .u64 ro ])
  else if i = 0x2130 then some [ hS 6, { rI 1 .u8 rwPd 0 0 none with top := some 2 }, rI 2 .u16 rwPd 2048 256 (some 8192),
    rI 3 .u8 rwPd 2 1 (some 4), rI 4 .u8 rwPd 15 0 (some 40), rP 5 .bool rwPd 1 0 none, rC 6 cmdPYD 255 ]
  else if i = 0x2200 then some [ hS 11, rB 1 .u16 224 0 none, rB 2 .u16 16 0 none, rB 3 .u16 16 0 none,
    rB 4 .u8 97 50 (some 100), rB 5 .u16 256 0 none, rB 6 .u16 2048 0 none, rB 7 .u8 3 1 (some 20), rB 8 .u8 1 0 none,
    rB 9 .u8 4 0 none, rB 10 .u16 16 1 (some 256), rB 11 .u8 25 0 (some 50) ]
  else if i = 0x2210 then some [ hS 9, rB 1 .u8 20 12 (some 23), rB 2 .u16 8 1 none, rB 3 .u32 100 1 (some 1000000),
    rB 4 .u16 700 300 (some 1500),
    rB 5 (.dom 28) (24 + 168 * 2 ^ 32 + 720 * 2 ^ 64 + 2160 * 2 ^ 96 + 4380 * 2 ^ 128 + 8760 * 2 ^ 160 + 17520 * 2 ^ 192)
      0 none,
    rI 6 .bool rwT 1 0 none, rB 7 .u16 32 8 (some 4096), rB 8 .u8 64 1 none, rB 9 .u16 96 16 (some 512) ]
  else if i = 0x2212 then some [ hS 6, { rI 1 .u8 rwY 0 0 (some (v.packages - 1)) with perRole := true },
    { rI 2 .u8 rwY 0 0 (some 23) with perRole := true }, { rI 3 .u8 rwY 0 0 (some 7) with perRole := true },
    rO 4 (.dom 30) roY, rO 5 .u32 roY, rO 6 .u64 roY ]
  else if i = 0x2220 then some [ hS 3, rO 1 .u32 ro, rB 2 .u32 20000 10000 (some 20000), rB 3 .u8 3 1 (some 15) ]
  else if i = 0x2230 then some [ hS 3, rB 1 .u16 64 1 (some 256), rB 2 .u8 90 50 (some 95), rB 3 .u8 4 0 (some 4) ]
  else if i = 0x2240 ∧ v ≠ .sn128 then some [ hS 8, rI 1 .bool rwT 1 0 none, rI 2 .u32 rwT 2000 100 (some 4000),
    rI 3 .u8 rwT 48 41 (some 64), rO 4 .u32 roY, rO 5 .u32 roY, rO 6 .u8 roY, rO 7 .u32 roY, rO 8 .u32 roY ]
  else if 0x2300 ≤ i ∧ i ≤ 0x230F then some [ hS 9,
    rK 1 .u32 (if i = 0x2300 then 8000 else 0) 0 (some 45000), rK 2 .u32 (if i = 0x2300 then 1000 else 0) 0 (some 20000),
    rK 3 .u32 (if i = 0x2300 then 9000 else 100000) 200 (some 1000000), rK 4 .u8 50 0 (some 99),
    rK 5 .u16 (if i = 0x2300 then 256 else 64) 1 (some 1024), rI 6 .bool rwPd (if i = 0x2300 then 1 else 0) 0 none,
    rO 7 .u64 roY, rO 8 .u64 roY, rO 9 .u64 roY ]
  else none

/-- Range, group, partner, key and yoke entries, 2400h to 4FFFh (R91, R100, R106, R354, R355, R420 to R424). DESIGN CHOICE: a value
above 01h of 4100h.03 SeniorPosition, as of 7001h.01 Area, is a reserved encoding, 03040000h: the tables list 00h and 01h with neither a
range nor other values reserved (log entry 162). -/
def rowsTab (v : Variant) (i : Nat) : Option (List Row) :=
  if 0x2400 ≤ i ∧ i ≤ 0x27FF then some (rangeRows v (i - 0x2400))
  else if 0x2800 ≤ i ∧ i ≤ 0x28FF then some [ hS 4, rB 1 .u64 0 0 none,
    rI 2 (.str 16) rwT 0 0 none, rO 3 .u16 ro, rO 4 .u16 ro ]
  else if 0x3000 ≤ i ∧ i ≤ 0x3FFF then some (partnerRows (i - 0x3000))
  else if i = 0x4000 then some [ hS 3, rI 1 .u32 rwPYD 1000 100 (some 16000), rO 2 .u16 roYD, rO 3 .u16 roYD ]
  else if i = 0x4001 then some [ { rI 1 .u16 rwPYD 0 0 (some 4095) with perRole := true } ]
  else if i = 0x4002 then some [ hS 7 roPYD, rO 1 .u8 roPYD, rO 2 .u64 roPYD, rO 3 .u64 roPYD, rO 4 .u16 roPYD,
    { rC 5 cmdPYD 2 with lo := 1 }, rO 6 .bool roPYD, rO 7 .u32 roPYD ]
  else if i = 0x4010 then some [ hS 2, rO 1 (.dom 1568) roY, { rC 2 cmdPYD 1 with lo := 1 } ]
  else if i = 0x4011 then some [ rI 1 (.dom 1640) woPYD 0 0 none ]
  else if i = 0x4020 then some [ hS 4 roY, { rI 1 (.dom 32) rwY 0 0 none with perRole := true },
    { rC 2 cmdY 1 with lo := 1 }, rO 3 (.dom 8304) roY, rO 4 (.dom 256) roY ]
  else if i = 0x4030 then some [ hS 4, rO 1 .u8 ro, rO 2 .u8 ro, rO 3 (.dom 20) ro, rO 4 .u32 ro ]
  else if i = 0x4100 then some [ hS 7, rP 1 .bool rwT 1 0 none, { rP 2 .u8 rwT 2 0 none with top := some 2 },
    { rB 3 .u8 0 0 none with top := some 1 }, rP 4 .u64 rwT 0 0 none, rI 5 .u8 rwPd 0 0 none, rI 6 .u32 rwT 0 0 none,
    { rC 7 cmdPYD 5 with lo := 1 } ]
  else if i = 0x4101 then some ([ hS 7 ] ++ (List.range 7).map (fun n => rO (n + 1) .u32 ro))
  else none

/-- Status entries, 5000h to 5FFFh (R48, R137, R182, R229, R230, R278, R279, R306, R356, R386, R387, R425, R426, R455 to
R457, R561). -/
def rowsStat (i : Nat) : Option (List Row) :=
  if i = 0x5020 then some [ hS 8, rO 1 .u8 ro, rO 2 .u8 ro, rO 3 .u8 ro, rO 4 .u32 ro, rO 5 .u32 ro, rO 6 .u32 ro,
    rO 7 .u32 ro, rO 8 .u32 ro ]
  else if i = 0x5040 then some ([ hS 14 ] ++ (List.range 12).map (fun n => rO (n + 1) .u64 roY)
    ++ [ rO 13 .u32 roY, rO 14 .u8 roY ])
  else if i = 0x5050 then some [ hS 18, rO 1 .u8 roY, rO 2 .u32 roY, rO 3 .u32 roY, rO 4 .u32 roY, rO 5 .u64 roY,
    rO 6 .u32 roY, rO 7 .u32 roY, rO 8 .u32 roY, rO 9 .u32 roY, rO 10 .u32 roY, rO 11 .u64 roY, rO 12 .u32 roY,
    rO 13 .u32 roY, rO 14 .u64 roY, rO 15 .u64 roY, rO 16 .u64 roY, rO 17 .u64 roY, rO 18 .u64 roY ]
  else if i = 0x5060 then some [ hS 18, rO 1 .u32 roY, rO 2 .u32 roY, rO 3 .u32 roY, rO 4 .u32 roY, rO 5 .u32 roY,
    rO 6 .u32 roY, rO 7 .u32 roY, rO 8 .u8 roY, rO 9 .u64 roY, rO 10 .u64 roY, rO 11 .u64 roY, rO 12 .u32 roY,
    rO 13 .u32 roY, rO 14 .u32 roY, rO 15 .u8 roY, rO 16 .u32 roY, rO 17 .u64 roY, rO 18 .u64 roY ]
  else if i = 0x5061 then some [ hS 1, rO 1 (.dom 768) roY ]
  else if i = 0x5070 then some [ hS 21, rO 1 .u32 roY, rO 2 .u32 roY, rO 3 .u8 roY, rO 4 .u8 ro, rO 5 .u64 roY,
    rO 6 .u8 roY, rO 7 .u32 roY, rO 8 .u64 roY, rO 9 .u64 roY, rO 10 .u64 roY, rO 11 .u64 roY, rO 12 .u32 roY,
    rO 13 .u32 roY, rO 14 .u32 roY, rO 15 .u32 roY, rO 16 .u32 roY, rO 17 .u64 roY, rO 18 .u64 roY, rO 19 .u64 roY,
    rO 20 .u64 roY, rO 21 .u64 roY ]
  else if i = 0x5071 then some [ hS 2, rO 1 (.dom 768) roY, rO 2 (.dom 12) roY ]
  else if i = 0x5080 then some ([ hS 8 ] ++ (List.range 7).map (fun n => rO (n + 1) .u64 roY) ++ [ rO 8 .u32 roY ])
  else if i = 0x5090 then some [ hS 16, rO 1 .u8 ro, rO 2 .bool ro, rO 3 .u8 ro, rO 4 .u64 roY, rO 5 .u8 roY,
    rO 6 .u8 roY, rO 7 .u8 roY, rO 8 .u8 roY, rO 9 .u32 ro, rO 10 .u32 ro, rO 11 .u8 ro, rO 12 .u8 roY, rO 13 .u64 ro,
    rO 14 .u64 roY, rO 15 .u32 roY, rO 16 .u64 roY ]
  else if i = 0x50A0 then some ([ hS 13, rO 1 .u32 roY, rO 2 .u32 roY ]
    ++ (List.range 11).map (fun n => rO (n + 3) .u64 roY))
  else if i = 0x50A1 then some [ hS 8, rO 1 (.dom 8) roY, rO 2 (.dom 64) roY, rO 3 .u64 roY, rO 4 .u8 roY, rO 5 .u64 roY,
    rO 6 .u32 roY, rO 7 .u8 roY, rO 8 .u32 roY ]
  else if i = 0x50B0 then some [ hS 6, rI 1 .u32 rwPd 256 16 (some 65535), rI 2 .u32 rwPd 10000 100 (some 3600000),
    rI 3 .u32 rwPd 4096 16 (some 1048575), rI 4 .u32 rwPd 100 10 (some 3600000), rI 5 .u32 rwPd 64 4 (some 65535),
    rI 6 .u32 rwPd 60000 1000 (some 3600000) ]
  else if i = 0x50B1 then some [ hS 3 roY, rO 1 (.dom 440) roY, rO 2 (.dom 880) roY, rO 3 (.dom 440) roY ]
  else if i = 0x50C0 then some [ hS 7, rO 1 .bool roY, rO 2 .u32 roY, rO 3 .u32 roY, rO 4 .u32 roY, rO 5 .u32 roY,
    rO 6 .u16 roY, rO 7 .u16 roY ]
  else if i = 0x50C1 then some [ hS 9, rO 1 .u32 roY, rO 2 .u32 roY, rO 3 .u16 roY, rO 4 .u16 roY, rO 5 .u32 roY,
    rO 6 .u16 roY, rO 7 .u32 roY, rO 8 .u8 roY, rO 9 .u64 roY ]
  else if i = 0x50C2 then some [ hS 4 roY, rO 1 (.dom 336) roY, rO 2 (.dom 21) roY, rO 3 (.dom 105) roY, rO 4 .bool roY ]
  else if i = 0x50D0 then some [ hS 8, rO 1 (.dom 8) roY, rO 2 (.dom 2) roY, rO 3 .u16 roY, rO 4 .u16 roY, rO 5 .u8 roY,
    rO 6 .bool ro, rO 7 .u8 roY, rO 8 .u64 roY ]
  else none

/-- Counters, Firkin, event pail and parameter-memory areas, 6000h to 80FFh (R485, R509, R510, R517, R518, R523, R524). -/
def rowsObs (i : Nat) : Option (List Row) :=
  if 0x6000 ≤ i ∧ i ≤ 0x603C then some counterRows
  else if i = 0x6FF0 then some [ hS 3, { rC 1 cmdPYd 2 with lo := 1 }, rO 2 .u64 roPY, rO 3 (.dom 4880) roPY ]
  else if i = 0x7000 then some [ hS 7, rI 1 .u32 rwPYd 3600 300 (some 43200), rC 2 cmdPYD 1, rO 3 .u32 roPY, rO 4 .u32 roPY,
    rO 5 .u16 roPY, rO 6 (.dom 7) roPY, rO 7 (.dom 840) roPY ]
  else if i = 0x7001 then some [ hS 4, { rI 1 .u8 rwPY 0 0 none with top := some 1, perRole := true },
    { rI 2 .u16 rwPY 0 0 (some 511) with perRole := true }, { rI 3 .u8 rwPY 1 1 (some 128) with perRole := true },
    rO 4 (.domUpTo 16384) roPY ]
  else if i = 0x7100 then some [ hS 7, rO 1 .u16 roY, rI 2 .u16 rwPd 1024 1 (some 4096), rO 3 .bool roPY,
    { rI 4 .u8 rwPd 0 0 none with top := some 2 }, { rC 5 cmdPY 1 with lo := 1 }, rO 6 .u32 roY, rO 7 .u32 roY ]
  else if i = 0x7101 then some [ hS 3, { rI 1 .u16 rwY 256 1 (some 2048) with perRole := true },
    rO 2 (.domUpTo 65536) roPY, rO 3 (.domUpTo 2048) roY ]
  else if 0x8000 ≤ i ∧ i ≤ 0x8007 then some [ hS 5, rO 1 (.str 16) ro, rO 2 .u32 ro,
    { rI 3 .u32 rwPYD 0 0 none with perRole := true }, { rI 4 .u32 rwPYD 0 0 (some 65536) with perRole := true },
    rI 5 (.domUpTo 65536) rwpPYD 0 0 none ]
  else none

/-- Command and diagnostics entries, 9000h to AFFFh (R110, R179, R259, R265, R266, R269, R412, R536, R539, R543, R545,
R560). -/
def rowsCmd (v : Variant) (i : Nat) : Option (List Row) :=
  if i = 0x9000 then some ([ hS 4 ] ++ spanRows rwY ++ [ { rC 3 cmdY 1 with lo := 1 }, rO 4 .u64 ro ])
  else if i = 0x9010 then some ([ hS 6 ] ++ spanRows rwY ++ [ { rC 3 cmdY 1 with lo := 1 }, rO 4 .u64 ro,
    rO 5 .u8 ro, rO 6 .u32 ro ])
  else if i = 0x9018 then some [ hS 5, { rI 1 .u16 rwPYD 0 0 none with resv := 0xF000 },
    { rI 2 .u8 rwPYD 0 0 none with resv := 0xFE }, { rC 3 cmdPYD 1 with lo := 1 }, rO 4 .u64 ro, rO 5 .u32 ro ]
  else if i = 0x9020 ∧ v = .sn128 then some ([ hS 6 ] ++ spanRows rwPY ++
    [ { rI 3 .u8 rwPY 0 0 none with resv := 0xFE }, rC 4 cmdPY 1, rO 5 .u64 ro, rO 6 (.dom 64) ro ])
  else if i = 0x9028 then some [ hS 1, { rC 1 cmdPYD 1 with lo := 1 } ]
  else if i = 0x9030 then some ([ hS 4 ] ++ spanRows rwY ++ [ { rC 3 cmdY 1 with lo := 1 }, rO 4 .u64 ro ])
  else if i = 0x9040 then some [ hS 3, rI 1 .u16 rwPYD 0 0 (some 1023), { rC 2 cmdPYD 1 with lo := 1 }, rO 3 .u64 ro ]
  else if i = 0x9050 then some [ hS 6, { rI 1 .u32 rwPYD 0 0 (some (2 ^ 23 - 1)) with step := 4096 },
    rI 2 (.domUpTo 65536) woPYD 0 0 none, rC 3 cmdPYD 3, rO 4 .u32 roY, rO 5 .u8 roY, rO 6 .u8 roY ]
  else if i = 0x9060 then some [ hS 2, rC 1 cmdPD 1, rO 2 .u64 ro ]
  else if i = 0x9070 then some [ hS 2, rI 1 .u16 rwY 60 0 (some 3600), rC 2 cmdY 1 ]
  else if i = 0xA000 then some [ hS 1, rC 1 cmdPYD 1 ]
  else if i = 0xA010 then some [ hS 7, { rI 1 .u8 rwPYd 1 1 none with top := some 4, perRole := true },
    { rI 2 .u32 rwPYd 1 0 (some 64) with perRole := true }, rC 3 cmdPYD 1, rO 4 .u8 roY, rO 5 .u32 roY, rO 6 .u64 roY,
    rO 7 .u32 roY ]
  else if i = 0xA040 then some [ hS 3, { rI 1 .u8 rwPY 0 0 none with top := some 3, perRole := true },
    { rI 2 .u64 rwPY 0 0 none with perRole := true }, rO 3 (.domUpTo 2304) roPY ]
  else none

/-- The rows of an index; none when the index does not exist on the variant (R12, R468). -/
def rowsOf (v : Variant) (i : Nat) : Option (List Row) :=
  match rowsId v i with
  | some r => some r
  | none =>
    match rowsCfg v i with
    | some r => some r
    | none =>
      match rowsTab v i with
      | some r => some r
      | none =>
        match rowsStat i with
        | some r => some r
        | none =>
          match rowsObs i with
          | some r => some r
          | none => rowsCmd v i

/-- One subentry; none when it does not exist (R468). -/
def rowOf (v : Variant) (i sub : Nat) : Option Row :=
  match rowsOf v i with
  | some rows => rows.find? (fun r => r.sub = sub)
  | none => none

/-- The default of an entry (R16), 0 when there is none. -/
def defaultOf (v : Variant) (i sub : Nat) : Nat :=
  match rowOf v i sub with
  | some r => r.dflt
  | none => 0

/-- The parameter-memory areas whose write password guards a write of an entry (R480, R482, R484): the area that holds its
value, and for a password the area it protects. Counter registers are not kept in parameter memory (R508). -/
def guards (c : Code) (i : Nat) : List Nat :=
  if 0x1110 ≤ i ∧ i ≤ 0x1117 then [4, i - 0x1110]
  else if c = .rwp then [i - 0x8000]
  else if (c = .rw ∨ c = .rws) ∧ !(0x6000 ≤ i ∧ i ≤ 0x603C) then [1]
  else []

end Sys2Proof.Machine
end

