-- ==== Sys2Proof/Machine/Table.lean ====
section
/-!
DEFINITION. Sparse tables: a list of key and value pairs in one canonical form, keys strictly rising and no value
equal to the default an unlisted key reads as. Every table of the state (cached lines, sectors, map entries, pages,
dictionary values) has this shape, so equal tables are equal data.
-/
namespace Sys2Proof.Machine

/-- A sparse table; an unlisted key reads as the default its reader names. -/
abbrev Tab (α : Type) := List (Nat × α)

/-- The entry at a key, `none` when unlisted. -/
def Tab.look {α : Type} : Tab α → Nat → Option α
  | [], _ => none
  | (k, v) :: t, n => if k = n then some v else Tab.look t n

/-- The value at a key, the default `d` when unlisted. -/
def Tab.get {α : Type} (d : α) (t : Tab α) (n : Nat) : α :=
  match Tab.look t n with
  | some v => v
  | none => d

/-- Remove a key. -/
def Tab.erase {α : Type} : Tab α → Nat → Tab α
  | [], _ => []
  | (k, v) :: t, n => if k = n then Tab.erase t n else (k, v) :: Tab.erase t n

/-- Put a value at a key of a sorted table, replacing what stood there. -/
def Tab.put {α : Type} : Tab α → Nat → α → Tab α
  | [], n, x => [(n, x)]
  | (k, v) :: t, n, x =>
    if n < k then (n, x) :: (k, v) :: t
    else if n = k then (n, x) :: t
    else (k, v) :: Tab.put t n x

/-- Write a value; writing the default removes the entry, which keeps the canonical form. -/
def Tab.set {α : Type} [DecidableEq α] (d : α) (t : Tab α) (n : Nat) (x : α) : Tab α :=
  if x = d then Tab.erase t n else Tab.put t n x

/-- Keep the entries a test accepts. -/
def Tab.filterKV {α : Type} (p : Nat → α → Bool) (t : Tab α) : Tab α :=
  List.filter (fun kv => p kv.1 kv.2) t

/-- Every key of the table exceeds `n`. -/
def Tab.above {α : Type} (n : Nat) (t : Tab α) : Bool := List.all t (fun kv => decide (n < kv.1))

/-- The keys rise strictly. -/
def Tab.sorted {α : Type} : Tab α → Bool
  | [] => true
  | (k, _) :: t => Tab.above k t && Tab.sorted t

/-- The canonical form: keys strictly rising, no value equal to the default. -/
def Tab.wf {α : Type} [DecidableEq α] (d : α) (t : Tab α) : Bool :=
  Tab.sorted t && List.all t (fun kv => decide (kv.2 ≠ d))

/-- Change the value at every listed key; entries that become the default are removed. -/
def Tab.mapV {α : Type} [DecidableEq α] (d : α) (f : Nat → α → α) (t : Tab α) : Tab α :=
  Tab.filterKV (fun _ v => decide (v ≠ d)) (List.map (fun kv => (kv.1, f kv.1 kv.2)) t)

end Sys2Proof.Machine
end

