-- ==== Sys2Proof/Machine/State.lean ====
section
/-!
DEFINITION. The state of one module: every register, queue, buffer, table, mode and pin the spec gives it, as plain
data, in groups; the queue of waiting commands; and the state after reset. A field's default is its value at reset;
INVENTORY.md lists each with its rule and its mark.
-/
namespace Sys2Proof.Machine

/-- No command of the model stops: every fault the spec names is an effect on the state (an event, a poison, a reset).
The one constructor stands for a stop nobody raises; it is safe. -/
inductive Fault where
  /-- raised by no meaning; safe -/
  | unspecified
deriving DecidableEq, Repr

/-- Why the model has no meaning for a command. -/
inductive Refusal where
  /-- a command whose arm has no meaning yet; raised by Dispatch only; safe -/
  | notModelled (mnemonic : String)
deriving DecidableEq, Repr

/-! ## Power, resets and time -/

/-- How far the power-up has come (R531). -/
inductive Boot where
  /-- no keeper supply, or keeper alone on aux (R29) -/
  | off
  /-- CriticalLatch set, or a sensor too hot: held at the 5 ms row (R535, R449) -/
  | held
  /-- the keeper verifies slot `slot`; `second` when the other slot has already failed (R414) -/
  | verifying (slot : Nat) (second : Bool)
  /-- neither slot accepted (R414) -/
  | recovery
  /-- the fast domains run -/
  | running
deriving DecidableEq, Repr

/-- Identity entries (R490, R491) and the variant (R1). -/
structure Ident where
  variant : Variant := .sn128
  serial : Nat := 0
  serialText : Bytes := []
  manufactureTime : Nat := 0
  publicKey : BitVec 256 := 0
  certificate : Bytes := []
  certificateChain : Bytes := []
deriving DecidableEq, Repr

/-- The two times of R565 and the model's own clock, in ns. -/
structure Clk where
  now : Nat := 0
  stamp : Nat := 0
  ripe : Nat := 0
  stored : Nat := 0
  stampSet : Bool := false
  unpowered : Nat := 0
  free : Nat := 0
deriving DecidableEq, Repr

/-- Supplies, sideband pins, boot phase and the dump state (R33, R173, R449, R529, R539, R546). -/
structure Pwr where
  main : Bool := false
  aux : Bool := false
  pwrdis : Bool := false
  perst : Bool := true
  smbrst : Bool := false
  boot : Boot := .off
  controllerStart : Bool := false
  memoryActive : Bool := false
  arm : Nat := 0
  armed : Bool := false
  dumped : Bool := false
  holdUp : Bool := false
  mainReturned : Bool := false
  selfRefresh : Bool := false
  critLatch : Bool := false
  critZone : Option Nat := none
  rechecks : Tab Nat := []
  test : Nat := 0
  mainLostAt : Option Nat := none
  pwrdisAt : Option Nat := none
  upAt : Nat := 0
  mainAt : Nat := 0
  activeAt : Nat := 0
  dirtyShutdowns : Nat := 0
  shutdownState : Nat := 0
  restored : Bool := false
  rebuilt : Bool := false
  lapLost : Bool := false
  ovp : Bool := false
  own : List (Nat × Nat) := []
  dramTrained : Bool := false
deriving DecidableEq, Repr

/-! ## Host port and requests -/

/-- A response on the link (R58, R63): data, poison, or a completion. -/
inductive RespKind where
  | data (d : Line)
  | poison
  | complete
deriving DecidableEq, Repr

/-- One S2M response. -/
structure Resp where
  key : Nat
  tag : Nat
  kind : RespKind
deriving DecidableEq, Repr

/-- Link state, refusal counters, credits and pacing (R44 to R51, R57, R61, R442); `flits` counts the requests that came over the link
since the cold reset (R48, log entry 113). -/
structure Port where
  speed : Nat := 0
  width : Nat := 0
  attach : Nat := 0
  bound : Bool := false
  boundEid : Nat := 0
  degraded : Nat := 0
  unknown : Nat := 0
  rights : Nat := 0
  peak : Nat := 0
  creditsReq : Nat := 1024
  creditsData : Nat := 1024
  lastRefusal : Tab Nat := []
  pacePct : Nat := 100
  pacing : Bool := false
  paceAt : Nat := 0
  lastHostReq : Nat := 0
  flits : Nat := 0
  out : List Resp := []
deriving DecidableEq, Repr

/-- What a CXL.mem request asks. -/
inductive ReqKind where
  | read | write | resRead | condWrite
deriving DecidableEq, Repr

/-- Where a request the module holds waits. -/
inductive Stage where
  /-- in the ingress buffer, its slice's pail full (R62) -/
  | ingress
  /-- in its slice's request pail (R20) -/
  | pail
  /-- waits for its set's miss slot (R117) -/
  | missSlot
  /-- waits for a miss-table entry (R118) -/
  | missTable
  /-- attached to a miss-table entry (R118) -/
  | attached
  /-- a write that waits for the dirty budget (R153) -/
  | budget
  /-- a write that waits for a Clean tier sector (R374) -/
  | sector
  /-- program-acknowledged mode: waits for its line's page (R158) -/
  | program
  /-- waits for the peer: MirrorAck, Ordered or the home's decision (R323) -/
  | peer
  /-- a read forwarded to the feeder (R136) -/
  | forwarded
  /-- a read of a pending or Merging line (R289, R147) -/
  | line
  /-- a reserved read that found the table full (R293) -/
  | reservation
  /-- held in Suspect (R332) -/
  | suspect
deriving DecidableEq, Repr

/-- What a line held before a write that is applied and not yet complete: its content, its poison, and whether it was dirty
(R181). -/
structure Before where
  data : Line
  poison : Bool
  dirty : Bool
deriving DecidableEq, Repr

/-- One request the module holds, with the entry, class and policy in force when it passed its checks (R56, R90); of a write
applied and not yet complete, the number it was applied under and what its line held before. -/
structure Req where
  id : Nat
  kind : ReqKind
  key : Nat
  entry : Nat
  tag : Nat
  addr : Nat
  cls : Nat
  policy : Nat
  data : Line
  be : Mask
  poison : Bool
  arrival : Nat
  stage : Stage
  stored : Bool
  applied : Nat := 0
  before : Option Before := none
deriving DecidableEq, Repr

/-- The requests held, in order of arrival (R20, R62). -/
structure Reqs where
  next : Nat := 0
  list : List Req := []
deriving DecidableEq, Repr

/-! ## Caches -/

/-- States of a front-cache line that is held (R359). -/
inductive FcSt where
  | unmodified | modified | merging
deriving DecidableEq, Repr

/-- One valid front-cache line (R359): its way, state, data and byte mask while Merging; locked (R366); waiting for a tier
sector (R361); written under policy 01h or 02h while Merging (R360). -/
structure FcLine where
  way : Nat
  st : FcSt
  data : Line
  mask : Mask
  locked : Bool
  waiting : Bool
  through : Bool
deriving DecidableEq, Repr

/-- The front cache: valid lines by line index, tree bits by slice and set, miss slots held (R117, R358, R369). -/
structure Fc where
  enabled : Bool := true
  disabling : Bool := false
  drainWritten : Nat := 0
  lines : Tab FcLine := []
  plru : Tab (BitVec 15) := []
  slots : Tab Nat := []
  hits : Nat := 0
  misses : Nat := 0
  parityClean : Nat := 0
deriving DecidableEq, Repr

/-- State of a line in the tier (R372). -/
inductive TSt where
  | clean | dirty | merging | writing
deriving DecidableEq, Repr

/-- One valid tier sector (R372, R373). Lines not present are those a fill is still bringing. -/
structure Sector where
  way : Nat
  age : Nat
  prefetched : Bool
  filling : Bool
  present : BitVec 32
  data : Tab Line
  st : Tab TSt
  masks : Tab Mask
deriving DecidableEq, Repr

/-- The DRAM tier: valid sectors by sector number (logical address / 2 KiB), and its counters (R370 to R374, R386). -/
structure Tier where
  sectors : Tab Sector := []
  tagCache : Tab Nat := []
  hits : Nat := 0
  missCount : Nat := 0
  tagCacheHits : Nat := 0
  fillsSkipped : Nat := 0
  refetches : Nat := 0
  tagRepairs : Nat := 0
deriving DecidableEq, Repr

/-- Why a codeword is fetched from below the tier (R118, R122, R361, R366, R373): a demand read, the fill of a Filling
sector, a line to lock, the merge base of a front-cache line, or a codeword that only a read's tier fill needs. -/
inductive MissKind where
  | demand | fill | lock | merge | side
deriving DecidableEq, Repr

/-- The direct read of a hedged pair (R132, R134); `failed` when it did not decode before its reconstruction ended. -/
inductive Direct where
  | none | deferred | inFlight | failed
deriving DecidableEq, Repr

/-- How one codeword stands at its decode step. -/
inductive CwSt where
  | reading | good | failed
deriving DecidableEq, Repr

/-- A peer codeword of a reconstruction (R125, R132): its channel, its decode step (1, 2 or 4), how it stands, and the
ripening cell and references chosen at its issue and the time of it (R124). -/
structure Peer where
  ch : Nat
  step : Nat
  st : CwSt
  cell : Nat
  refs : List Int
  since : Nat
deriving DecidableEq, Repr

/-- One fetch of a line from below the tier: a miss-table entry, or a codeword its tier fill needs beside it (R118, R122, R125, R132).
`ppa` and `slot` are the place looked up (R210), `tgt` how its codeword stands, `recon` whether its peers are read, `since` when its
codeword's read was issued, `pastShare` whether it was admitted over share (R429), `written` the lines of its sector written since its
issue (R119), `parts` the side codewords its tier fill still waits for, `gathering` a fetch already answered whose tier fill waits,
`parent` the fetch a side codeword belongs to, `ended` the end of a fill or merge base that its own row then delivers. -/
structure Miss where
  id : Nat
  line : Nat
  kind : MissKind
  cls : Nat
  ppa : Nat
  slot : Nat
  logged : Bool
  step : Nat
  tgt : CwSt
  recon : Bool
  direct : Direct
  hedged : Bool
  keyWait : Option Nat
  pageIn : Bool
  policy : Nat
  fillTier : Bool
  soft : Bool
  decodeRecon : Bool
  lastCrc : Bool
  cell : Nat
  refs : List Int
  since : Nat
  pastShare : Bool
  peers : List Peer
  written : BitVec 32
  parts : List Nat
  gathering : Bool
  parent : Option Nat
  ended : CwSt
deriving DecidableEq, Repr

/-- A prefetch (R123): its sector, the page whose buffer it uses, and whether a line of the sector was written since. -/
structure Prefetch where
  sector : Nat
  ppa : Nat
  written : Bool
deriving DecidableEq, Repr

/-- Slices: sleep, when each pail became empty, fetches, prefetches (R34, R118, R123); the blocks of map entries the slices' pieces
of the map cache hold, keyed slice × 2^40 + block, with the time of their last use (R22, log entry 137). -/
structure Slices where
  asleep : List Nat := []
  lastWork : Tab Nat := []
  next : Nat := 0
  misses : List Miss := []
  prefetches : Tab Prefetch := []
  mapCache : Tab Nat := []
deriving DecidableEq, Repr

/-! ## Durability -/

/-- A running writeback of one grain (R161, R162). -/
structure Wb where
  grain : Nat
  prio : Nat
  taken : List Nat
deriving DecidableEq, Repr

/-- The dirty budget and the durability counters (R152 to R160, R182). -/
structure Budget where
  charged : Tab Nat := []
  derived : Nat := 0
  reference : Option Nat := none
  energy : Nat := 0
  ePerGib : Nat := 0
  uncovered : Nat := 0
  uncoveredLines : List Nat := []
  running : List Wb := []
  queued : Tab Nat := []
  heldLogged : List Nat := []
  dumps : Nat := 0
  incomplete : Nat := 0
  lastBytes : Nat := 0
  lastDuration : Nat := 0
  lastDrop : Nat := 0
  rewrites : Nat := 0
  appended : Nat := 0
  merges : Nat := 0
  mergesPoisoned : Nat := 0
  ackWrites : Nat := 0
deriving DecidableEq, Repr

/-! ## Media, map, journal -/

/-- States of a block group (R202). -/
inductive GSt where
  | free | opened | closing | closed | stale | resetting | slot | retired
deriving DecidableEq, Repr

/-- What a group's pages hold (R191, R201). -/
inductive GKind where
  | grain | log | checkpoint | directory
deriving DecidableEq, Repr

/-- One block group (R187, R196, R199, R246, R254). `cursor` is the page index of the stripe being filled, `copy` marks a
copy-set target, `checked` a close verify that waits for its relocations, `dose` the package accumulators as its blocks' first pages were
programmed, `lost` the pages lost in it since it opened (R200), `worse` the columns that failed after its first absent one (R248). -/
structure Group where
  st : GSt := .free
  kind : GKind := .grain
  cursor : Nat := 0
  copy : Option Nat := none
  checked : Bool := false
  absentCol : Option Nat := none
  absentFrom : Nat := 0
  second : Bool := false
  shadow : Bool := false
  erase : Nat := 0
  strikes : Tab Nat := []
  retireCols : List Nat := []
  programTime : Nat := 0
  dose : Tab Nat := []
  reads : Nat := 0
  softs : Nat := 0
  deep : Bool := false
  taken : Nat := 0
  lost : List Nat := []
  worse : List Nat := []
deriving DecidableEq, Repr

/-- One slot of a line-log page (R212); `dead` when its grain changed before the page verified. -/
structure LogSlot where
  line : Nat
  keyId : Nat
  data : Line
  dead : Bool
deriving DecidableEq, Repr

/-- One programmed page (R189 to R193). Grain pages hold `lines`, log pages hold `slots`. -/
structure Page where
  gen : Nat
  kind : Nat
  owner : Nat
  keyId : Nat
  lines : Tab Line
  slots : Tab LogSlot
  poison : Tab Bool
  verified : Bool
deriving DecidableEq, Repr

/-- Which activity a program belongs to (R232, R438); `clearing` is a relocation out of a group that takes no more programs, or of a
stripe without its XOR page (R196, R199). -/
inductive Act where
  | retrain | softBurst | rebuild | relocation | clearing | lap | writeback | folding | skimming | repour | eraser | rekey
  | resync | scrub | restore | selfTest
deriving DecidableEq, Repr

/-- The program of one page, under way or waiting for its verify; the pages of one multi-plane pass share its die operation `op`
(R184, R201). `src` is the page a move takes its content from; writes applied before
`upTo` are carried by the page. -/
structure Pass where
  id : Nat
  ppa : Nat
  act : Act
  prio : Nat
  started : Bool
  programmed : Bool
  src : Option Nat
  upTo : Nat
  op : Nat
deriving DecidableEq, Repr

/-- A die operation that can be suspended (R131): `serving` lists the fetches it is suspended for, `loaded` says that its pages'
data has crossed the die bus, `host` that it is one of a rebuild's phase 1 (R431); `passes` counts the one-bit passes the die still
has to make for a dump, with the one that runs (R165, R184), and is 0 for every other operation. -/
structure DieOp where
  die : Nat
  isReset : Bool
  host : Bool
  loaded : Bool
  inWindow : Bool
  windows : Nat
  suspends : Nat
  suspendedNs : Nat
  serving : List Nat
  passes : Nat
deriving DecidableEq, Repr

/-- Die-bus time of a channel in one window of 100 µs, ns: of host reads, and of internal reads and program transfers (R431). -/
structure BusUse where
  window : Nat := 0
  host : Nat := 0
  inner : Nat := 0
deriving DecidableEq, Repr

/-- The media side: groups, pages, dies, window tokens, passes, relocation queue, rebuild (R184 to R207). -/
structure Media where
  groups : Tab Group := []
  pages : Tab Page := []
  dieSt : Tab Nat := []
  ops : Tab DieOp := []
  tokens : Tab Nat := []
  tokenQueue : List Nat := []
  asleep : List Nat := []
  lastOp : Tab Nat := []
  bus : Tab BusUse := []
  passes : List Pass := []
  nextPass : Nat := 0
  gen : Nat := 1
  genStored : Nat := 0
  rebuildPhase : Nat := 0
  rebuildDie : Nat := 0
  rebuildMoved : Nat := 0
  relocQueue : List (Nat × Act × Nat) := []
  relocations : Nat := 0
  retiredBlocks : Tab Nat := []
deriving DecidableEq, Repr

/-- State of a grain (R85, R208). -/
inductive GrainSt where
  | unwritten | mapped | zero | discarded
deriving DecidableEq, Repr

/-- A grain map entry (R208). -/
structure MapEntry where
  st : GrainSt := .unwritten
  logged : Bool := false
  page : Nat := 0
deriving DecidableEq, Repr

/-- An overlay-index slot: where the current copy of a logged line lies (R214). -/
structure OvSlot where
  line : Nat
  page : Nat
  slot : Nat
deriving DecidableEq, Repr

/-- A journal record (R218). -/
inductive JRec where
  | mapSet (grain : Nat) (e : MapEntry)
  | logPage (ppa : Nat)
  | groupState (g : Nat) (st : GSt) (absent : Option Nat) (from' : Nat)
  | linePoison (line : Nat) (on : Bool)
  | grainSpan (first count : Nat) (st : GrainSt)
  | divergence (first count : Nat) (on : Bool)
  | lapStart (n : Nat)
  | lapEnd (n root : Nat)
deriving DecidableEq, Repr

/-- The checkpoint pages of one lap (R220 to R223): `count` pages, the places of those placed so far in order; the map, overlay and
divergence units they copy, every divergence unit when `allDiv`, the block-metadata units and the directory. -/
structure Extent where
  lap : Nat
  count : Nat
  pages : List Nat
  units : List (Nat × Nat)
  allDiv : Bool
deriving DecidableEq, Repr

/-- What a completed lap holds on media (R220 to R223): the map, overlay, divergence and block metadata as they stood,
the allocation queue as quads (1,024 of four groups each), the page-generation high-water, S0 as `seq`, and the Sequence of the last
record applied to each unit, keyed type × 2^32 + number. -/
structure Ckpt where
  lap : Nat := 0
  started : Nat := 0
  entries : Tab MapEntry := []
  overlay : Tab OvSlot := []
  poison : Tab Bool := []
  divAll : Bool := false
  div : Tab Bool := []
  groups : Tab Group := []
  queue : List Nat := List.range 1024
  opened : List Nat := []
  genHigh : Nat := 1
  root : Nat := 0
  seq : Nat := 0
  seqs : Tab Nat := []
  extents : List Extent := []
deriving DecidableEq, Repr

/-- The grain map, overlay index, journal and laps (R208 to R227); `journalCut` says that the circular journal has overwritten records of
the running lap (R217); `unitsZeroed` lists the 4 KiB units a pair-wide grain
change has changed in this copy while the map entry waits for the rest (R567). -/
structure MapG where
  entries : Tab MapEntry := []
  overlay : Tab OvSlot := []
  poison : Tab Bool := []
  divAll : Bool := false
  div : Tab Bool := []
  filterOnes : List Nat := []
  filter : Tab Bool := []
  resident : Bool := false
  paged : Tab Bool := []
  journal : List JRec := []
  seq : Nat := 0
  ckpt : Ckpt := {}
  lapRunning : Bool := false
  lapNext : Ckpt := {}
  lapStarted : Nat := 0
  lapDue : Bool := false
  queue : List Nat := List.range 1024
  journalHigh : Bool := false
  journalCut : Bool := false
  limitLogged : Nat := 0
  unitsZeroed : List Nat := []
deriving DecidableEq, Repr

/-- A copy set in the making: one victim's copies as source and target pages, its re-appended lines as line, source page
and target page, and its priority (R243). -/
structure CopySet where
  victim : Nat
  act : Act
  prio : Nat
  pages : List (Nat × Nat)
  logs : List (Nat × Nat × Nat)
deriving DecidableEq, Repr

/-- A ripening cell that has left its factory offsets (R252, R253). -/
structure Cell where
  offsets : List Int := []
  gathered : List (List Int) := []
  samples : Nat := 0
  lastUpdate : Nat := 0
  lastNow : Option Nat := none
deriving DecidableEq, Repr

/-- Media care: reserve, Brine, skimming, wear, doses, ripening, strainer (R232 to R280). -/
structure Care where
  reserveTaken : Nat := 0
  warned : List Nat := []
  exhausted : Bool := false
  brine : Nat := 0
  brineDropped : Nat := 0
  brineSecond : Nat := 0
  lastBrineReport : Nat := 0
  skim : Nat := 0
  copySets : List CopySet := []
  skimmed : Nat := 0
  skimBytes : Nat := 0
  folded : Nat := 0
  repoured : Nat := 0
  redone : Nat := 0
  mediaBytes : Nat := 0
  hostBytes : Nat := 0
  waHist : List (Nat × Nat × Nat) := []
  wearOut : Bool := false
  doses : Tab Nat := []
  cells : Tab Cell := []
  lapNumber : Nat := 0
  lapTime : Nat := 0
  lapStart : Nat := 0
  lapPage : Nat := 0
  dramLaps : Nat := 0
  dramLapTime : Nat := 0
  dramLapStart : Nat := 0
deriving DecidableEq, Repr

/-! ## Yoke and atomics -/

/-- The membership record kept in parameter memory (R311). -/
structure MemberRec where
  pairEpoch : Nat := 0
  baseEpoch : Nat := 0
  lastRole : Nat := 0
  staleSelf : Bool := false
  peerSerial : Nat := 0
deriving DecidableEq, Repr

/-- A yoke message sent to the peer or held here (R318, R319); `conflict` marks a held conditional Forward that was sent before its
sender had applied a write to the line ordered here (R296). -/
structure YokeMsg where
  ty : Nat
  tag : Nat := 0
  aux : Nat := 0
  num : Nat := 0
  full : Bool := false
  conditional : Bool := false
  poisoned : Bool := false
  cls : Nat := 0
  entry : Nat := 0
  data : Line := 0
  mask : Mask := 0
  body : Bytes := []
  conflict : Bool := false
deriving DecidableEq, Repr

/-- A yoke frame this module sends (R316): its sequence, the last frame received good, the credits of a class it returns, and the
part of the message stream it carries. -/
structure YokeFrame where
  seq : Nat
  ack : Nat
  cls : Nat
  credits : Nat
  stream : Bytes
deriving DecidableEq, Repr

/-- A write in flight across the yoke at this module: a Mirror awaiting its MirrorAck (home), or a Forward awaiting
Ordered (entry), or a pending line (home, entered at the peer) (R323), with what the line held before it. -/
structure Flight where
  tag : Nat
  line : Nat
  req : Option Nat
  isForward : Bool
  pending : Bool
  data : Line
  mask : Mask
  conditional : Bool
  before : Option Before
deriving DecidableEq, Repr

/-- Membership, liveness, frames, messages and resync (R307 to R357). -/
structure Yoke where
  speed : Nat := 0
  width : Nat := 0
  member : Nat := 0
  prev : Nat := 0
  suspectAt : Nat := 0
  silentAt : Nat := 0
  suspectStamp : Nat := 0
  position : Nat := 255
  record : MemberRec := {}
  peer : Option Membership := none
  joinBlock : Nat := 0
  joinGiven : Bool := false
  prevailGiven : Bool := false
  split : Bool := false
  silent : Bool := true
  wire : Nat := 0
  route : Nat := 0
  lastYoke : Nat := 0
  lastWire : Nat := 0
  lastPulse : Nat := 0
  txSeq : Nat := 0
  rxSeq : Nat := 0
  unacked : List YokeFrame := []
  sent : List YokeFrame := []
  ackAt : Nat := 0
  credits : Tab Nat := []
  outWait : List YokeMsg := []
  owed : Tab Nat := []
  rxPart : Bytes := []
  peerMarked : Nat := 0
  hbSeq : Nat := 0
  pulseSeq : Nat := 0
  nextTag : Nat := 0
  flights : List Flight := []
  held : List YokeMsg := []
  sectors : Tab (Tab Line) := []
  sectorPoison : Tab Nat := []
  sectorGot : Tab Nat := []
  resyncSent : List Nat := []
  copied : Nat := 0
  frameReplays : Nat := 0
  mirrored : Nat := 0
  cable : Bool := false
  recorded : List (Nat × Nat × Nat × Nat) := []
  clearWait : List Nat := []
  ackWait : List (Nat × Nat × YokeMsg) := []
  readWait : List (Nat × Nat) := []
  copyNext : List Nat := []
  resyncAt : Nat := 0
  out : List YokeMsg := []
deriving DecidableEq, Repr

/-- A reservation (R292, R293). -/
structure Resv where
  slice : Nat
  entry : Nat
  line : Nat
  made : Nat
deriving DecidableEq, Repr

/-- Reservations; the outcomes that wait for a partner's next conditional write to a line whose reservation ended, keyed by
entry × 2^41 + line; status words and counters (R292 to R306). -/
structure Atom where
  res : List Resv := []
  ended : Tab Nat := []
  status : Tab Nat := []
  reads : Nat := 0
  writes : Nat := 0
  stored : Nat := 0
  intervened : Nat := 0
  conflict : Nat := 0
  lost : Nat := 0
  other : Nat := 0
deriving DecidableEq, Repr

/-! ## Keys -/

/-- One key ID's record (R404, R407). -/
structure KeyRec where
  st : Nat := 0
  imported : Bool := false
  base : Nat := 0
  material : BitVec 512 := 0
  lost : Bool := false
deriving DecidableEq, Repr

/-- Key store, key cache, import keys, dump keys, attestation (R403 to R423). -/
structure Keys where
  recs : Tab KeyRec := [(0, { st := 1 })]
  cache : List Nat := []
  encapGen : Nat := 0
  blob : Bytes := []
  cmd : Nat := 0
  discarded : Nat := 0
  dumpKeyGen : Tab Nat := []
  metaKeyGen : Nat := 0
  changes : Tab Nat := []
  signing : Option Role := none
  attest : Nat := 0
  objects : Tab Nat := []
deriving DecidableEq, Repr

/-! ## Regulation, thermal, bank, DRAM, gills -/

/-- Leave held or waited for at the peck arbiter (R437, R438). Costs are in quarter-pecks. -/
structure Leave where
  id : Nat
  act : Act
  prio : Nat
  cost : Nat
  arrival : Nat
deriving DecidableEq, Repr

/-- Regulation and the peck arbiter (R429 to R442, R454 to R456). -/
structure Reg where
  readTok : Tab Nat := []
  writeTok : Tab Nat := []
  refill : Nat := 0
  deficit : Tab Nat := []
  lastClass : Tab Nat := []
  oversub : Bool := false
  deliverRead : Nat := 0
  deliverWrite : Nat := 0
  sums : Nat × Nat × Nat × Nat := (0, 0, 0, 0)
  readScale : Nat := 1024
  writeScale : Nat := 1024
  missCount : Tab Nat := []
  missSecond : Tab Nat := []
  admitted : Tab Nat := []
  overShare : Tab Nat := []
  inputPower : Nat := 0
  baseDraw : Nat := 0
  recent : List Nat := []
  peakPower : Nat := 0
  baseAt : Nat := 0
  deliverAt : Nat := 0
  granted : List Leave := []
  waiting : List Leave := []
  delayed : Nat := 0
deriving DecidableEq, Repr

/-- The housekeeping round and the thermal zones (R443 to R449, R457). -/
structure Therm where
  readings : Tab Nat := []
  faults : Tab Nat := []
  steps : Tab Nat := []
  below : Tab Nat := []
  railBad : Tab Nat := []
  raw : Tab Nat := []
  rounds : Nat := 0
  lastAt : Nat := 0
deriving DecidableEq, Repr

/-- The hold-up bank (R552 to R554, R561). Capacitances are in µF, voltages in mV. -/
structure Bank where
  capA : Nat := 47500
  capB : Nat := 47500
  stA : Nat := 0
  stB : Nat := 0
  charge : Nat := 34000
  volts : Nat := 0
  charger : Nat := 3
  cool : Nat := 0
  measured : Bool := false
  measuredAt : Nat := 0
  faulty : Bool := false
deriving DecidableEq, Repr

/-- The activate-count table of one bank (R377). -/
structure ActTab where
  rows : Tab Nat := []
  spill : Nat := 0
deriving DecidableEq, Repr

/-- The DRAM controller (R375 to R380, R387). Banks are numbered subchannel × 32 + bank. -/
structure Dram where
  hist : Tab Nat := []
  lastRow : Tab Nat := []
  openRow : Tab Nat := []
  acts : Tab ActTab := []
  lastExcess : Option Nat := none
  retrainMask : BitVec 8 := 0
  retrainSteps : Nat := 0
  trainTemp : Tab Nat := []
  corrected : Tab Nat := []
  uncorrectable : Nat := 0
  refreshes : Nat := 0
  rowHits : Nat := 0
  rowAccesses : Nat := 0
  rowPct : Nat := 0
  trainMs : Nat := 0
  trainSource : BitVec 8 := 0
  retrainings : Nat := 0
  retrainAt : Nat := 0
  refreshAt : Nat := 0
  traced : Tab (List Nat) := []
  suspects : List Nat := []
  rowHist : List (Nat × Nat) := []
deriving DecidableEq, Repr

/-- A gill's settings in force and the end of its last leak interval (R395, R425). -/
structure GillSet where
  cap : Nat
  every : Nat
  at_ : Nat
deriving DecidableEq, Repr

/-- The 110 gills (R394, R395). -/
structure Gills where
  level : Tab Nat := []
  sets : Tab GillSet := []
  inputs : Tab Nat := []
  overflows : Tab Nat := []
  spilled : List Nat := []
  roundInputs : Nat := 0
deriving DecidableEq, Repr

/-! ## Tables and dictionary -/

/-- A range entry (R91). The default is a disabled range. -/
structure Range where
  base : Nat := 0
  size : Nat := 0
  group : Nat := 0
  cls : Nat := 0
  policy : Nat := 0
  keyId : Nat := 0
  kind : Nat := 0
  rank : Nat := 1
deriving DecidableEq, Repr

/-- A partner entry (R106). -/
structure Partner where
  valid : Bool := false
  key : Nat := 0
  caps : Nat := 0
  scope : Nat := 0
  reads : BitVec 256 := 0
  writes : BitVec 256 := 0
deriving DecidableEq, Repr

/-- Range table, range groups, partner table (R91, R100, R101), the ranges a re-key skim runs on and the times of its
pages of the last 10 s (R411). -/
structure Tabs where
  ranges : Tab Range := [(0, { size := 2 ^ 47 })]
  targets : Tab Nat := []
  partners : Tab Partner := [(0, { valid := true, caps := 7, reads := 1, writes := 1 })]
  rekeying : List Nat := []
  rekeyed : List Nat := []
deriving DecidableEq, Repr

/-- A DTP request (R462): sender, specifier, flags (bit 0 Toggle, bit 1 Last), TransferId, index, subindex and data. `malformed` says
that the message fails the length checks of R468's check 1, `whole` that the request stands for a segmented write whose segments have
all arrived. -/
structure DtpReq where
  who : Who
  spec : Nat
  flags : Nat
  tid : Nat
  index : Nat
  sub : Nat
  data : Bytes
  malformed : Bool := false
  whole : Bool := false
deriving DecidableEq, Repr

/-- A DTP response (R463). -/
structure DtpResp where
  route : Route
  spec : Nat
  flags : Nat
  tid : Nat
  sub : Nat
  index : Nat
  abort : Nat
  data : Bytes
deriving DecidableEq, Repr

/-- A running segmented transfer (R466). -/
structure Transfer where
  isWrite : Bool
  tid : Nat
  role : Role
  key : Nat
  index : Nat
  sub : Nat
  total : Nat
  data : Bytes
  sent : Nat
  toggle : Bool
  fresh : Bool
  lastResp : Bytes
  lastCode : Nat
  ended : Nat
  touched : Nat
deriving DecidableEq, Repr

/-- A commit carried out with the peer (R347): its batch, the request it answers, whether CommitApply has been sent; at the
peer, the segments so far and whether one was missing (R320). -/
structure PairCommit where
  role : Role
  route : Route
  tid : Nat
  spec : Nat
  flags : Nat := 0
  batch : Nat := 0
  applied : Bool := false
  bad : Bool := false
  nextSeg : Nat := 0
  recs : List StageRec := []
deriving DecidableEq, Repr

/-- The object dictionary: stored values, in-force copies, selectors per role, batches, transfers, passwords, parameter
memory area 7 (R459 to R499). Values are little-endian numbers keyed by index × 256 + subindex. -/
structure Dict where
  cfg : Tab Nat := []
  inForce : Tab Nat := []
  sel : Tab Nat := []
  batches : List (Role × StageRec) := []
  commitSt : Tab Nat := []
  abortCode : Tab Nat := []
  abortEntry : Tab Nat := []
  lastBatch : Nat := 0
  logged : Option (Nat × List StageRec) := none
  pair : Option PairCommit := none
  theirs : Option PairCommit := none
  commitWait : List PairCommit := []
  waiting : List DtpReq := []
  transfers : Tab Transfer := []
  passwords : Tab (BitVec 256) := []
  presented : Tab Bool := []
  lastReq : Tab Nat := []
  dead : List Nat := []
  wrong : Tab Nat := []
  lockout : Tab Nat := []
  i3c : Nat := 0
  eids : Tab Nat := []
  served : Nat := 0
  user : Tab Byte := []
  restored : Nat := 0
  out : List DtpResp := []
deriving DecidableEq, Repr

/-- A mailbox response (R66, R75): return code and payload value with its length. -/
structure MboxResp where
  who : Who
  opcode : Nat
  code : Nat
  payload : Bytes
deriving DecidableEq, Repr

/-- The memory-device command interface (R66 to R75). `bgLast` is the opcode and return code of the background command that ended last
(R70), `bgIntr` whether the one that runs asks for vector 0 at its end (R80), `dictWait` the Dictionary Transfers whose response waits for
a pair commit, by sender and TransferId (R74). -/
structure Mbox where
  out : List MboxResp := []
  doorbell : List Nat := []
  pages : Tab Line := []
  background : Nat := 0
  bgPeer : Bool := false
  bgLast : Nat × Nat := (0, 0)
  bgIntr : Bool := false
  alertLife : Nat := 0
  alertTemp : Nat := 0
  alertVolatile : Nat := 0
  alertPersistent : Nat := 0
  alertCrossed : BitVec 4 := 0
  scanResults : List Nat := []
  clearing : List (Nat × Who) := []
  dictWait : List (Who × Nat) := []
deriving DecidableEq, Repr

/-! ## Observability -/

/-- An event-pail entry (R519). -/
structure Event where
  code : Nat
  severity : Nat
  entry : Nat
  seq : Nat
  stamp : Nat
  param : Nat
deriving DecidableEq, Repr

/-- A CXL event record (R77): 0 General Media, 1 DRAM, 2 Memory Module, 3 vendor-specific; `place` is the die of a General Media
Event, the subchannel of a DRAM Event, none where the line has no copy there; `trans` the transaction type of the standard. -/
structure CxlRec where
  kind : Nat
  code : Nat
  param : Nat
  place : Option Nat
  trans : Nat
  stamp : Nat
  handle : Nat
deriving DecidableEq, Repr

/-- One of the four CXL event logs (R76). -/
structure CxlLog where
  recs : List CxlRec := []
  overflow : Nat := 0
  firstDrop : Nat := 0
  lastDrop : Nat := 0
deriving DecidableEq, Repr

/-- The Notify of one condition (R477, R478). `seq` is the last Notify's sequence; `count` and `first` are the occurrences
since it and the stamp of the first of them; `pending` says it waits for its acknowledgement, with the `sentCount` and
`sentFirst` it carries and the time it was last sent. -/
structure Note where
  seq : Nat := 0
  count : Nat := 0
  first : Nat := 0
  pending : Bool := false
  sentCount : Nat := 0
  sentFirst : Nat := 0
  sentAt : Nat := 0
deriving DecidableEq, Repr

/-- A Notify message (R477): the endpoint it goes to and its payload's fields. -/
structure NotifyMsg where
  dest : Nat
  cond : Nat
  seq : Nat
  count : Nat
  first : Nat
deriving DecidableEq, Repr

/-- Event pail, keeper-held events, CXL logs, interrupts and notifications (R76 to R81, R477, R519 to R527). -/
structure Obs where
  pail : List Event := []
  held : List Event := []
  heldLost : Nat := 0
  overrun : Bool := false
  lost : Nat := 0
  lostPending : Nat := 0
  nextSeq : Nat := 0
  packet : Option Nat := none
  logs : Tab CxlLog := []
  nextHandle : Nat := 1
  policy : BitVec 4 := 0
  msixTable : Tab (BitVec 128) := []
  msix : List Nat := []
  lastSix : Option Nat := none
  notes : Tab Note := []
  notifyOut : List NotifyMsg := []
  resends : Nat := 0
deriving DecidableEq, Repr

/-- A performance sample (R506). -/
structure Sample where
  addr : Nat := 0
  entry : Nat := 0
  counter : Nat := 0
  count : Nat := 0
  stamp : Nat := 0
deriving DecidableEq, Repr

/-- The 61 counter blocks and the snapshot (R500 to R510). Counters are keyed block × 8 + n. -/
structure Perf where
  cycles : Tab Nat := []
  overflow : Tab Nat := []
  select : Tab Nat := []
  value : Tab Nat := []
  reload : Tab Nat := []
  samples : Tab Sample := []
  lastLevel : Tab Nat := []
  snapSt : Nat := 0
  snapStamp : Nat := 0
  latched : Bytes := []
  gathered : Bytes := []
deriving DecidableEq, Repr

/-- A Firkin record's payload (R513). -/
structure FirkRec where
  kind : Nat := 0
  flags : Nat := 0
  duration : Nat := 0
  period : Nat := 0
  start : Nat := 0
  bins : Tab Nat := []
  minimum : Nat := 0xFFFFFFFF
  maximum : Nat := 0
  writes : Nat := 0
deriving DecidableEq, Repr

/-- The Firkin (R511 to R518). `opened` holds the seven open records by kind. -/
structure Firkin where
  running : Bool := false
  startNow : Nat := 0
  startStamp : Nat := 0
  period : Nat := 0
  opened : Tab FirkRec := []
  area : Tab FirkRec := []
  older : Tab FirkRec := []
  roundNext : Nat := 0
  keep : Tab Nat := []
  frozen : Bool := false
  frozenAt : Nat := 0
  thawAt : Nat := 0
deriving DecidableEq, Repr

/-- The read-path status counters and the class-0 bound (R137 to R139). -/
structure ReadStats where
  mediaReads : Nat := 0
  suspends : Nat := 0
  busyRecon : Nat := 0
  decodeRecon : Nat := 0
  soft1 : Nat := 0
  soft2 : Nat := 0
  poisoned : Nat := 0
  hedgeRecon : Nat := 0
  hedgeDirect : Nat := 0
  pfIssued : Nat := 0
  pfDropped : Nat := 0
  overBound : Nat := 0
  softShare : Nat := 0
  class0Reads : Nat := 0
  class0Soft : Nat := 0
  class0Hist : List (Nat × Nat) := []
  failing : BitVec 8 := 0
  bits : BitVec 8 := 0
  endedAt : Tab Nat := []
deriving DecidableEq, Repr

/-! ## Firmware, dump, commands, test -/

/-- A firmware image in a slot of the boot store, by chunk offset (R413, R536). -/
structure FwSlot where
  chunks : Tab Bytes := []
  version : Nat := 0
  security : Nat := 0
  compat : Nat := 0
deriving DecidableEq, Repr

/-- Firmware slots, security counter and the update in progress (R413 to R415, R536, R537). -/
structure Fw where
  slot0 : FwSlot := {}
  slot1 : FwSlot := {}
  active : Nat := 0
  pending : Nat := 0
  current : Nat := 0
  counter : Nat := 0
  verifyMs : Nat := 0
  begun : Bool := false
  ctl : Nat := 0
  op : Nat := 0
  received : Nat := 0
  result : Nat := 0
  passed : Bool := false
deriving DecidableEq, Repr

/-- A line record of a dump image (R168, R170). -/
structure DRec where
  data : Line
  mask : Mask
  pending : Bool
  poisoned : Bool
  cause : Nat
deriving DecidableEq, Repr

/-- A dump image: its number, its place (0, 1 the slots, 2 floor groups) and the groups it lies in, the timestamp and bank energy at
its start, the generation of its first page, its journal, and its lines in the order they were written (R165 to R178); `good` counts
its journal and line-record pages that read good or can be rebuilt. -/
structure Image where
  number : Nat
  place : Nat
  groups : List Nat
  started : Nat
  energy : Nat
  gen : Nat
  sealed : Bool
  journal : List JRec
  seq : Nat
  lines : List (Nat × DRec)
  uncovered : Nat
  retired : Bool
  counted : Bool
  short : Bool
  good : Nat
deriving DecidableEq, Repr

/-- The dump area and the running dump (R165 to R178): `moved` gives the group that has taken a place of a slot from the one it had
first (R202, log entry 17). -/
structure Dump where
  busy0 : Bool := false
  busy1 : Bool := false
  floorBusy : Bool := false
  moved : Tab Nat := []
  images : List Image := []
  next : Nat := 1
  startedAt : Nat := 0
  bankAtStart : Nat := 0
  onMain : Bool := false
  writing : Option Image := none
  place : Nat := 0
deriving DecidableEq, Repr

/-- One running command over a span, and what it still waits for (R111, R268, R567); `waits` lists the lines of a LineLock that
wait for a miss-table entry (R118). -/
structure Job where
  base : Nat := 0
  length : Nat := 0
  flags : Nat := 0
  gen : Nat := 0
  st : Nat := 0
  acks : List Nat := []
  marked : List Nat := []
  notice : Bool := false
  count : Nat := 0
  keyId : Nat := 0
  since : Nat := 0
  held : Bool := false
  waits : List Nat := []
deriving DecidableEq, Repr

/-- Control codes, progress values and running jobs of the command entries, keyed by index (9000h to A010h, 2120h to
2123h, 4100h.07 and others), and progress keyed by index × 256 + subindex. -/
structure Cmds where
  ctl : Tab Nat := []
  val : Tab Nat := []
  jobs : Tab Job := []
  sweep : List Nat := []
  identUntil : Nat := 0
deriving DecidableEq, Repr

/-- The test access port (R540 to R542): its instruction register, at IDCODE while the port is in reset, as IEEE 1149.1
gives for a port with an identification register (log entry 43). -/
structure Tap where
  instr : BitVec 8 := 0x01
deriving DecidableEq, Repr

/-! ## The machine -/

/-- The whole state of the module and the commands that wait, first in, first out. -/
structure State where
  ident : Ident := {}
  clk : Clk := {}
  pwr : Pwr := {}
  port : Port := {}
  reqs : Reqs := {}
  fc : Fc := {}
  tier : Tier := {}
  slices : Slices := {}
  budget : Budget := {}
  media : Media := {}
  map : MapG := {}
  care : Care := {}
  yoke : Yoke := {}
  atom : Atom := {}
  keys : Keys := {}
  reg : Reg := {}
  therm : Therm := {}
  bank : Bank := {}
  dram : Dram := {}
  gills : Gills := {}
  tabs : Tabs := {}
  dict : Dict := {}
  mbox : Mbox := {}
  obs : Obs := {}
  perf : Perf := {}
  firkin : Firkin := {}
  rstats : ReadStats := {}
  fw : Fw := {}
  dump : Dump := {}
  cmds : Cmds := {}
  tap : Tap := {}
  pending : List Instr := []
deriving DecidableEq, Repr

/-- The module as delivered, before any supply arrives: range 0 over the whole space and partner entry 0 (R109), key ID
0 Active (R406), lap 0 complete over unwritten grains (R227), everything else at its default. -/
def State.reset : State := {}

end Sys2Proof.Machine
end

