-- ==== Sys2Proof/Machine/Frame.lean ====
section
/-!
DEFINITION. One setter per group of the state, and the frame vocabulary: `s.keepsBut ps t` says that t agrees with s on
every group not named in ps. Effects are compositions of these setters.
-/
namespace Sys2Proof.Machine

/-- Change the group `ident`. -/
def State.upIdent (s : State) (f : Ident → Ident) : State := { s with ident := f s.ident }

/-- Change the group `clk`. -/
def State.upClk (s : State) (f : Clk → Clk) : State := { s with clk := f s.clk }

/-- Change the group `pwr`. -/
def State.upPwr (s : State) (f : Pwr → Pwr) : State := { s with pwr := f s.pwr }

/-- Change the group `port`. -/
def State.upPort (s : State) (f : Port → Port) : State := { s with port := f s.port }

/-- Change the group `reqs`. -/
def State.upReqs (s : State) (f : Reqs → Reqs) : State := { s with reqs := f s.reqs }

/-- Change the group `fc`. -/
def State.upFc (s : State) (f : Fc → Fc) : State := { s with fc := f s.fc }

/-- Change the group `tier`. -/
def State.upTier (s : State) (f : Tier → Tier) : State := { s with tier := f s.tier }

/-- Change the group `slices`. -/
def State.upSlices (s : State) (f : Slices → Slices) : State := { s with slices := f s.slices }

/-- Change the group `budget`. -/
def State.upBudget (s : State) (f : Budget → Budget) : State := { s with budget := f s.budget }

/-- Change the group `media`. -/
def State.upMedia (s : State) (f : Media → Media) : State := { s with media := f s.media }

/-- Change the group `map`. -/
def State.upMap (s : State) (f : MapG → MapG) : State := { s with map := f s.map }

/-- Change the group `care`. -/
def State.upCare (s : State) (f : Care → Care) : State := { s with care := f s.care }

/-- Change the group `yoke`. -/
def State.upYoke (s : State) (f : Yoke → Yoke) : State := { s with yoke := f s.yoke }

/-- Change the group `atom`. -/
def State.upAtom (s : State) (f : Atom → Atom) : State := { s with atom := f s.atom }

/-- Change the group `keys`. -/
def State.upKeys (s : State) (f : Keys → Keys) : State := { s with keys := f s.keys }

/-- Change the group `reg`. -/
def State.upReg (s : State) (f : Reg → Reg) : State := { s with reg := f s.reg }

/-- Change the group `therm`. -/
def State.upTherm (s : State) (f : Therm → Therm) : State := { s with therm := f s.therm }

/-- Change the group `bank`. -/
def State.upBank (s : State) (f : Bank → Bank) : State := { s with bank := f s.bank }

/-- Change the group `dram`. -/
def State.upDram (s : State) (f : Dram → Dram) : State := { s with dram := f s.dram }

/-- Change the group `gills`. -/
def State.upGills (s : State) (f : Gills → Gills) : State := { s with gills := f s.gills }

/-- Change the group `tabs`. -/
def State.upTabs (s : State) (f : Tabs → Tabs) : State := { s with tabs := f s.tabs }

/-- Change the group `dict`. -/
def State.upDict (s : State) (f : Dict → Dict) : State := { s with dict := f s.dict }

/-- Change the group `mbox`. -/
def State.upMbox (s : State) (f : Mbox → Mbox) : State := { s with mbox := f s.mbox }

/-- Change the group `obs`. -/
def State.upObs (s : State) (f : Obs → Obs) : State := { s with obs := f s.obs }

/-- Change the group `perf`. -/
def State.upPerf (s : State) (f : Perf → Perf) : State := { s with perf := f s.perf }

/-- Change the group `firkin`. -/
def State.upFirkin (s : State) (f : Firkin → Firkin) : State := { s with firkin := f s.firkin }

/-- Change the group `rstats`. -/
def State.upRstats (s : State) (f : ReadStats → ReadStats) : State := { s with rstats := f s.rstats }

/-- Change the group `fw`. -/
def State.upFw (s : State) (f : Fw → Fw) : State := { s with fw := f s.fw }

/-- Change the group `dump`. -/
def State.upDump (s : State) (f : Dump → Dump) : State := { s with dump := f s.dump }

/-- Change the group `cmds`. -/
def State.upCmds (s : State) (f : Cmds → Cmds) : State := { s with cmds := f s.cmds }

/-- Change the group `tap`. -/
def State.upTap (s : State) (f : Tap → Tap) : State := { s with tap := f s.tap }

/-- Change the group `pending`. -/
def State.upPending (s : State) (f : List Instr → List Instr) : State := { s with pending := f s.pending }

/-- The groups of the state, by name. -/
inductive Part where
  | ident | clk | pwr | port | reqs | fc | tier | slices | budget | media | map | care | yoke | atom | keys | reg | therm | bank | dram | gills | tabs | dict | mbox | obs | perf | firkin | rstats | fw | dump | cmds | tap | pending
deriving DecidableEq, Repr

/-- Two states agree on one group. -/
def Part.same (p : Part) (s t : State) : Prop :=
  match p with
  | .ident => t.ident = s.ident
  | .clk => t.clk = s.clk
  | .pwr => t.pwr = s.pwr
  | .port => t.port = s.port
  | .reqs => t.reqs = s.reqs
  | .fc => t.fc = s.fc
  | .tier => t.tier = s.tier
  | .slices => t.slices = s.slices
  | .budget => t.budget = s.budget
  | .media => t.media = s.media
  | .map => t.map = s.map
  | .care => t.care = s.care
  | .yoke => t.yoke = s.yoke
  | .atom => t.atom = s.atom
  | .keys => t.keys = s.keys
  | .reg => t.reg = s.reg
  | .therm => t.therm = s.therm
  | .bank => t.bank = s.bank
  | .dram => t.dram = s.dram
  | .gills => t.gills = s.gills
  | .tabs => t.tabs = s.tabs
  | .dict => t.dict = s.dict
  | .mbox => t.mbox = s.mbox
  | .obs => t.obs = s.obs
  | .perf => t.perf = s.perf
  | .firkin => t.firkin = s.firkin
  | .rstats => t.rstats = s.rstats
  | .fw => t.fw = s.fw
  | .dump => t.dump = s.dump
  | .cmds => t.cmds = s.cmds
  | .tap => t.tap = s.tap
  | .pending => t.pending = s.pending

/-- t agrees with s on every group not named in ps: what a command leaves unchanged. -/
def State.keepsBut (ps : List Part) (s t : State) : Prop := ∀ p : Part, p ∉ ps → Part.same p s t

/-- Every group but the identity and the queue of waiting commands. -/
def Part.most : List Part :=
  [.clk, .pwr, .port, .reqs, .fc, .tier, .slices, .budget, .media, .map, .care, .yoke, .atom, .keys, .reg, .therm, .bank,
    .dram, .gills, .tabs, .dict, .mbox, .obs, .perf, .firkin, .rstats, .fw, .dump, .cmds, .tap]

end Sys2Proof.Machine
end

