-- ==== Sys2Proof/Machine/Operands.lean ====
section
/-!
DEFINITION. How a command's operands name things: slices, cache sets, sectors, grains, physical pages and the fields of
addresses (R19, R188, R189, R358, R371); the dictionary values in force; requester keys, partner entries, roles and
the rights of an access (R53, R54, R74, R98, R102).
-/
namespace Sys2Proof.Machine

/-! ## Addresses -/

/-- Exclusive or of two numbers below 32. -/
def xor5 (a b : Nat) : Nat := ((BitVec.ofNat 5 a) ^^^ (BitVec.ofNat 5 b)).toNat

/-- The slice of a logical address: a[16:12] XOR a[21:17] (R19). -/
def sliceOf (a : Nat) : Nat := xor5 (bits a 16 12) (bits a 21 17)
/-- The slice of a line. -/
def sliceOfLine (l : Nat) : Nat := sliceOf (l * 64)
/-- The front-cache set of a line in its slice (R358). -/
def fcSetOf (l : Nat) : Nat := xor5 (bits (l * 64) 21 17) (bits (l * 64) 26 22) * 64 + l % 64
/-- The set's number over all slices. -/
def fcSetKey (l : Nat) : Nat := sliceOfLine l * 2048 + fcSetOf l
/-- The sector of a line: 32 lines each (R370). -/
def sectorOf (l : Nat) : Nat := l / 32
/-- The tier set and tag of a sector (R371). -/
def tierPlace (v : Variant) (sec : Nat) : Nat × Nat :=
  let a := sec * 2048
  let q := bits a 46 17 * 2 + bits a 11 11
  (q % v.tierSets, q / v.tierSets)
/-- g of R371: the tier set's number over all slices. -/
def tierSetKey (v : Variant) (sec : Nat) : Nat := sliceOf (sec * 2048) * v.tierSets + (tierPlace v sec).1
/-- The grain of a line. -/
def grainOf (l : Nat) : Nat := l / 256
/-- The map segment of a grain (R209). -/
def segmentOf (g : Nat) : Nat := g / 256

/-- DiePosition of a PPA (R188). -/
def ppaPos (p : Nat) : Nat := bits p 33 28
/-- Channel of a PPA (R188). -/
def ppaCh (p : Nat) : Nat := bits p 27 24
/-- Plane of a PPA (R188). -/
def ppaPlane (p : Nat) : Nat := bits p 23 22
/-- Block of a PPA (R188). -/
def ppaBlock (p : Nat) : Nat := bits p 21 12
/-- Page of a PPA (R188). -/
def ppaPage (p : Nat) : Nat := bits p 11 0
/-- A PPA from its fields (R188). -/
def mkPpa (pos ch plane block page : Nat) : Nat :=
  pos * 2 ^ 28 + ch * 2 ^ 24 + plane * 2 ^ 22 + block * 2 ^ 12 + page
/-- The block group of a PPA (R187). -/
def ppaGroup (p : Nat) : Nat := ppaPos p * 4096 + ppaPlane p * 1024 + ppaBlock p
/-- The die of a PPA: position × 16 + channel (R230). -/
def ppaDie (p : Nat) : Nat := ppaPos p * 16 + ppaCh p
/-- The PPA at a channel and page of a group (R187). -/
def groupPpa (g ch page : Nat) : Nat := mkPpa (g / 4096) ch (g / 1024 % 4) (g % 1024) page
/-- The media package of a die (R186). -/
def packageOf (die : Nat) : Nat := die / 16 / 4 * 8 + die % 16 / 2
/-- The quad of a group: its die position and block number (R201). -/
def quadOf (g : Nat) : Nat := g / 4096 * 1024 + g % 1024

/-- A column of a group is absent at a page (R196). -/
def Group.absentAt (g : Group) (c page : Nat) : Bool := decide (g.absentCol = some c) && decide (g.absentFrom ≤ page)

/-- The channel of the stripe's XOR page (R194). -/
def xorChannel (grp : Group) (g page : Nat) : Nat :=
  let c := (page + g % 1024 + 4 * (g / 1024 % 4) + g / 4096) % 16
  if grp.absentAt c page then (c + 1) % 16 else c

/-- The channels that hold data pages of a stripe (R194, R196). -/
def dataChannels (grp : Group) (g page : Nat) : List Nat :=
  (List.range 16).filter (fun c => !grp.absentAt c page && decide (c ≠ xorChannel grp g page))

/-- The byte enables as a mask of data bits. -/
def byteMask (m : Mask) : Line :=
  (List.range 64).foldl (fun acc i => if m.getLsbD i then acc ||| ((255 : Line) <<< (8 * i)) else acc) 0
/-- Replace the enabled bytes of a line (R146). -/
def mergeBytes (old new : Line) (m : Mask) : Line := (old &&& ~~~ (byteMask m)) ||| (new &&& byteMask m)
/-- All 64 byte enables. -/
def fullMask : Mask := BitVec.allOnes 64

/-! ## Check codes -/

/-- One bit of a reflected CRC over a polynomial. -/
def crcBit (poly c : BitVec 32) : BitVec 32 := if c.getLsbD 0 then (c >>> 1) ^^^ poly else c >>> 1
/-- One byte of a reflected CRC. -/
def crcByte (poly c : BitVec 32) (b : Byte) : BitVec 32 :=
  (List.range 8).foldl (fun x _ => crcBit poly x) (c ^^^ b.setWidth 32)
/-- The CRC-32 of IEEE 802.3 (R486). -/
def crc32 (bs : Bytes) : BitVec 32 := ~~~ (bs.foldl (crcByte 0xEDB88320) 0xFFFFFFFF)
/-- CRC-32C over the 64 bytes of a line (R390). -/
def lineCrc (d : Line) : BitVec 32 := ~~~ ((natLe 64 d.toNat).foldl (crcByte 0x82F63B78) 0xFFFFFFFF)

/-! ## Dictionary values -/

/-- The committed value of an entry; its default when nothing is stored (R15, R16). -/
def State.entry (s : State) (i sub : Nat) : Nat :=
  match Tab.look s.dict.cfg (i * 256 + sub) with
  | some v => v
  | none => defaultOf s.ident.variant i sub

/-- The value in force of an entry with Commit Power-up (R17). -/
def State.entryInForce (s : State) (i sub : Nat) : Nat :=
  match Tab.look s.dict.inForce (i * 256 + sub) with
  | some v => v
  | none => defaultOf s.ident.variant i sub

/-- A number for each role. -/
def roleNum : Role → Nat
  | .operator => 0
  | .fabric => 1
  | .partner => 2
  | .peer => 3
  | .debug => 4

/-- The role's letter in ASCII (R14, R499). -/
def roleLetter : Role → Nat
  | .operator => 0x4F
  | .fabric => 0x46
  | .partner => 0x50
  | .peer => 0x59
  | .debug => 0x44

/-- A number for each route (R459). -/
def routeNum : Route → Nat
  | .field => 0
  | .fabric => 1
  | .primary => 2
  | .page => 3
  | .yoke => 4

/-- A value held separately for each role. -/
def State.selector (s : State) (r : Role) (i sub : Nat) : Nat :=
  match Tab.look s.dict.sel (roleNum r * 2 ^ 24 + i * 256 + sub) with
  | some v => v
  | none => defaultOf s.ident.variant i sub

/-! ## Where a line lies -/

/-- The map entry of a grain (R208). -/
def State.mapEntry (s : State) (g : Nat) : MapEntry := Tab.get {} s.map.entries g
/-- A grain's hash h (R214). -/
def ovHash (g : Nat) : Nat := g * 0x9E3779B97F4A7C15 % 2 ^ 64
/-- The first bucket of a grain's logged lines: the top b bits of h (R214). -/
def ovBucket (v : Variant) (g : Nat) : Nat := ovHash g / 2 ^ (64 - v.overlayBits)
/-- A grain's GrainTag: the 13 bits of h below them (R214). -/
def ovTag (v : Variant) (g : Nat) : Nat := ovHash g / 2 ^ (51 - v.overlayBits) % 2 ^ 13
/-- A slot lies in a grain's bucket or the 15 that follow (R214). -/
def ovNear (v : Variant) (g k : Nat) : Bool := decide ((k / 8 + 2 ^ v.overlayBits - ovBucket v g) % 2 ^ v.overlayBits < 16)
/-- A slot's GrainTag and LineInGrain are a line's (R214). -/
def OvSlot.like (v : Variant) (o : OvSlot) (line : Nat) : Bool :=
  decide (ovTag v (grainOf o.line) = ovTag v (grainOf line)) && decide (o.line % 256 = line % 256)
/-- The overlay-index slot that names a line's current copy (R213, R214): of the slots near its bucket that match its tag and line in
grain, the one the directory of its codeword confirms. -/
def State.overlayOf (s : State) (line : Nat) : Option OvSlot :=
  let v := s.ident.variant
  match (s.map.overlay.filter (fun kv => ovNear v (grainOf line) kv.1 && kv.2.like v line)).find? (fun kv =>
      decide (kv.2.line = line)) with
  | some (_, o) => some o
  | none => none
/-- Where a line's current media copy lies: PPA and slot, none for a grain that is not mapped (R210, R213) or a unit
already changed to zeros (R567). -/
def State.copyAt (s : State) (line : Nat) : Option (Nat × Nat) :=
  let e := s.mapEntry (grainOf line)
  if e.st = .mapped && !s.map.unitsZeroed.contains (line / 64) then
    match s.overlayOf line with
    | some o => some (o.page, o.slot)
    | none => some (e.page, line % 256)
  else none
/-- The two subchannels that hold the copies of a sector's tag block (R371). -/
def tagSubs (v : Variant) (sec : Nat) : Nat × Nat := (tierSetKey v sec % 16, (tierSetKey v sec + 8) % 16)
/-- The subchannel that holds a tier sector's data (R371). -/
def State.tierSub (s : State) (sec way : Nat) : Nat := (tierSetKey s.ident.variant sec + way) % 16
/-- Where a CXL record of a line says it failed (R77): the die of its media copy, the subchannel of its tier sector. -/
def State.recordPlace (s : State) (kind line : Nat) : Option Nat :=
  if kind = 0 then (s.copyAt line).map (fun p => ppaDie p.1)
  else if kind = 1 then (Tab.look s.tier.sectors (sectorOf line)).map (fun x => s.tierSub (sectorOf line) x.way)
  else none

/-! ## Ranges, partners, roles -/

/-- A range entry. -/
def State.range (s : State) (r : Nat) : Range := Tab.get {} s.tabs.ranges r
/-- A partner entry; entry 4095 is the internal masters', always valid, its key and capabilities fixed at 0 (R101, R106). -/
def State.partner (s : State) (n : Nat) : Partner :=
  let p := Tab.get ({} : Partner) s.tabs.partners n
  if n = 4095 then { p with
    valid := true
    key := 0
    caps := 0 }
  else p
/-- TargetBase of a range group (R100). -/
def State.targetBase (s : State) (g : Nat) : Nat := Tab.get 0 s.tabs.targets g

/-- The range covers a logical address (R88). -/
def Range.covers (r : Range) (a : Nat) : Bool := decide (r.base ≤ a) && decide (a < r.base + r.size)

/-- The enabled range that covers a logical address, with its index (R88). -/
def State.rangeAt (s : State) (a : Nat) : Option (Nat × Range) := s.tabs.ranges.find? (fun kr => kr.2.covers a)

/-- The partner entry a requester key selects among entries 0 to 4094 (R54). -/
def State.selectEntry (s : State) (key : Nat) : Option Nat :=
  match s.tabs.partners.find? (fun kp => kp.2.valid && decide (kp.2.key = key) && decide (kp.1 < 4095)) with
  | some (n, _) => some n
  | none => none

/-- The requester key of a CXL.mem request (R53). -/
def State.keyOf (s : State) (spid : Nat) : Nat := if s.port.attach = 2 then spid % 4096 else 0

/-- The entry's grants apply: entry 4094 only with DebugScope [0] (R104). -/
def State.grantsApply (s : State) (n : Nat) : Bool :=
  decide (n ≠ 4094) || decide (bits (s.partner n).scope 0 0 = 1)
/-- The read grant of an entry for a group (R102). -/
def State.mayRead (s : State) (n g : Nat) : Bool := s.grantsApply n && (s.partner n).reads.getLsbD g
/-- The write grant of an entry for a group (R102). -/
def State.mayWrite (s : State) (n g : Nat) : Bool := s.grantsApply n && (s.partner n).writes.getLsbD g
/-- A capability bit of an entry (R103). -/
def State.hasCap (s : State) (n b : Nat) : Bool := decide (bits (s.partner n).caps b b = 1)

/-- The partner entry a dictionary or mailbox sender works under, none for the other routes (R55, R72). -/
def State.whoEntry (s : State) (w : Who) : Option Nat :=
  match w.route with
  | .primary => s.selectEntry (s.keyOf w.key)
  | .page => s.selectEntry (s.keyOf w.key)
  | _ => none

/-- The role of a sender by its route (R14, R74). -/
def State.role (s : State) (w : Who) : Role :=
  match w.route with
  | .field => .operator
  | .fabric => .fabric
  | .yoke => .peer
  | _ => if s.whoEntry w = some 4094 then .debug else .partner

/-- Where an address of a CXL.mem access leads (R50, R72, R88, R97). -/
inductive Target where
  | notDecoded
  | page (n off : Nat)
  | ordinary (r : Range)
  | window (win : Range) (target : Nat)
  deriving DecidableEq, Repr

/-- Decode a DPA (R50, R88, R97). -/
def State.decodeDpa (s : State) (dpa : Nat) : Target :=
  if dpa < s.ident.variant.capacity then
    match s.rangeAt dpa with
    | none => .notDecoded
    | some (_, r) =>
      if r.kind = 1 then .window r (s.targetBase r.group + (dpa - r.base)) else .ordinary r
  else if s.port.attach = 2 ∧ 0x800000000000 ≤ dpa ∧ dpa ≤ 0x800001FFFFFF then
    .page ((dpa - 0x800000000000) / 8192) ((dpa - 0x800000000000) % 8192)
  else .notDecoded

/-- The target range of a window access, when it is an enabled ordinary range of the window's group (R98). -/
def State.windowTarget (s : State) (g target : Nat) : Option Range :=
  match s.rangeAt target with
  | some (_, r) => if r.kind = 0 ∧ r.group = g ∧ target < s.ident.variant.capacity then some r else none
  | none => none

/-- A grain lies under an enabled window range (R111). -/
def State.underWindow (s : State) (g : Nat) : Bool :=
  match s.rangeAt (g * 16384) with
  | some (_, r) => decide (r.kind = 1)
  | none => false

/-- The enabled ranges a span touches. -/
def State.rangesOver (s : State) (base len : Nat) : List Range :=
  (s.tabs.ranges.filter (fun kr => decide (kr.2.base < base + len) && decide (base < kr.2.base + kr.2.size)
    && decide (kr.2.size ≠ 0))).map (fun kr => kr.2)

/-- The span touches no address outside every enabled range: the overlaps sum to its length (ranges are disjoint,
R88). -/
def State.coveredSpan (s : State) (base len : Nat) : Bool :=
  decide (((s.rangesOver base len).map (fun r => min (base + len) (r.base + r.size) - max base r.base)).foldl (· + ·) 0
    = len)

/-- The groups of a quad (R201). -/
def quadGroups (q : Nat) : List Nat := (List.range 4).map (fun p => q / 1024 * 4096 + p * 1024 + q % 1024)

/-- A Bool as a bit. -/
def bit (b : Bool) : Nat := if b then 1 else 0

end Sys2Proof.Machine
end

