-- ==== Sys2Proof/Machine/Events.lean ====
section
/-!
DEFINITION. Logging an event: the event pail, the events the keeper holds while the fast domains are off, the four CXL
logs, the MSI-X vectors and the pending Notify of each condition (R76 to R81, R477, R519, R520, R525, R526).
-/
namespace Sys2Proof.Machine

/-- The fast domains run (R33). -/
def State.fastOn (s : State) : Bool := decide (s.pwr.boot = .running)
/-- 12 V main reaches the module: the supply is there and the main switch closed (R547, R548). -/
def State.mainOn (s : State) : Bool := s.pwr.main && !s.pwr.pwrdis && !s.pwr.ovp
/-- The keeper has power: aux, main, or the bank (R33). -/
def State.keeperOn (s : State) : Bool := s.pwr.aux || s.mainOn || s.pwr.holdUp

/-- The field-network endpoint runs: on aux, or on main where aux is absent, and SMBRST# is high (R29, R460, R531, R546, R549). -/
def State.fieldUp (s : State) : Bool := (s.pwr.aux || s.mainOn) && !s.pwr.smbrst

/-- Severity of an event code: 0 Informational, 1 Warning, 2 Failure, 3 Fatal (the event tables, R525). -/
def severityOf (c : Nat) : Nat :=
  if c ∈ [0x5031, 0x222C, 0x4105, 0x4109, 0x4032, 0x5004, 0x2027] then 3
  else if c ∈ [0x2002, 0x2004, 0x2214, 0x2216, 0x2219, 0x222B, 0x4106, 0x410C, 0x2109, 0x4003, 0x5003, 0x2028, 0x8002,
      0x8003, 0x2101, 0x2201, 0x2202, 0x5002] then 2
  else if c ∈ [0x2001, 0x2005, 0x5030, 0x2210, 0x2211, 0x2213, 0x2217, 0x221B, 0x2220, 0x2221, 0x2223, 0x2229, 0x222A,
      0x222D, 0x4102, 0x4103, 0x4104, 0x410A, 0x410D, 0x410E, 0x2106, 0x2107, 0x2108, 0x3006, 0x4005, 0x4031, 0x5005,
      0x50B3, 0x2022, 0x2023, 0x2025, 0x2301, 0x2302, 0x1101, 0x1102, 0x1202, 0x1204, 0x8001, 0x3001, 0x3002, 0x3003,
      0x3004, 0x5001, 0x5010, 0x7101] then 1
  else 0

/-- The CXL records that carry an event (R77): 0 General Media, 1 DRAM, 2 Memory Module, 3 vendor-specific. -/
def recordKinds (c : Nat) : List Nat :=
  if c ∈ [0x2201, 0x2202, 0x2109, 0x5005] then [0]
  else if c = 0x2101 then [1]
  else if c ∈ [0x2023, 0x2024, 0x2027, 0x222A, 0x222B, 0x222C, 0x222E] then [3, 2]
  else [3]

/-- The transaction type of a record whose request does not say it (R77), as the standard numbers them: a host write for the poison it
brings, unknown for a line lost to the keeper, internal media management for the rest (log entry 39). -/
def transOf (c : Nat) : Nat := if c = 0x5005 then 2 else if c = 0x2109 then 0 else 6

/-- One of the eight conditions occurs: its MSI-X vector is raised in direct attachment (R80), it counts for the next Notify in
fabric attachment (R81, R477). -/
def Obs.ring (n attach stamp : Nat) (o : Obs) : Obs :=
  let b := Tab.get {} o.notes n
  if attach = 1 then { o with msix := o.msix ++ [n] }
  else if attach = 2 then { o with
    notes := Tab.put o.notes n { b with
      count := b.count + 1
      first := if b.count = 0 then stamp else b.first } }
  else o
/-- Raise one of the eight conditions. -/
def State.raise (n : Nat) (s : State) : State := s.upObs (Obs.ring n s.port.attach s.clk.stamp)

/-- A draw of the free-value counter: a value the spec leaves open (log entry 4). -/
def State.draw (s : State) : Nat × State :=
  (Config.freeNat s.clk.free, s.upClk (fun c => { c with free := c.free + 1 }))
/-- A mailbox command completes, or a background command (R80): condition 0 occurs when the mailbox interrupt control set with the
command selects it. -/
def State.raiseWhen (on : Bool) (s : State) : State := if on then s.raise 0 else s

/-- Put one record into a CXL log, or count it in the log's overflow when the log is full (R76); a stored record raises
the log's vector when the policy enables it (R80). -/
def State.cxlRecord (stamp log kind code param trans : Nat) (s : State) : State :=
  let g := Tab.get {} s.obs.logs log
  if 256 ≤ g.recs.length then
    let full : CxlLog := { g with
      overflow := g.overflow + 1
      firstDrop := if g.overflow = 0 then stamp else g.firstDrop
      lastDrop := stamp }
    s.upObs (fun o => { o with logs := Tab.put o.logs log full })
  else
    let t := s.upObs (fun o => { o with
      logs := Tab.put o.logs log { g with recs := g.recs ++ [⟨kind, code, param, s.recordPlace kind (param / 64), trans, stamp, o.nextHandle⟩] }
      nextHandle := o.nextHandle + 1 })
    if s.port.attach = 2 || s.obs.policy.getLsbD log then t.raise (log + 1) else t

/-- The CXL records of one event, in the log of its severity (R78). -/
def State.cxlRecords (stamp trans code param : Nat) (s : State) : State :=
  (recordKinds code).foldl (fun t k => t.cxlRecord stamp (severityOf code) k code param trans) s

/-- Store an event in the pail, or count it lost at a full pail (R520). -/
def State.pailStore (e : Event) (s : State) : State :=
  if 4096 ≤ s.obs.pail.length then
    (s.upObs (fun o => { o with
      overrun := true
      lost := min (o.lost + 1) 0xFFFFFFFF
      lostPending := o.lostPending + 1 })).raise 5
  else
    let t := s.upObs (fun o => { o with pail := o.pail ++ [e] })
    if t.obs.pail.length = s.entry 0x7100 2 then t.raise 5 else t

/-- Log one event in a running controller: number it, store it and write its CXL records. -/
def State.emitAt (stamp trans entry code param : Nat) (s : State) : State :=
  let e : Event := ⟨code, severityOf code, entry, s.obs.nextSeq, stamp, param⟩
  ((s.upObs (fun o => { o with nextSeq := (o.nextSeq + 1) % 2 ^ 32 })).pailStore e).cxlRecords stamp trans code param

/-- Log one event that happens now. -/
def State.emit (entry code param : Nat) (s : State) : State := s.emitAt s.clk.stamp (transOf code) entry code param

/-- Before a later entry, place 7101h with the events lost since the last one when there is room (R520). -/
def State.settleOverrun (s : State) : State :=
  if s.obs.lostPending ≠ 0 ∧ s.obs.pail.length < 4096 then
    let n := s.obs.lostPending
    (s.upObs (fun o => { o with lostPending := 0 })).emit 0xFFFF 0x7101 n
  else s

/-- Log an event of a transaction type with the partner entry whose request caused it (R77, R519). While the fast domains are off the
keeper holds up to 64 events and counts the others. -/
def State.logBy (trans entry code param : Nat) (s : State) : State :=
  if s.fastOn then s.settleOverrun.emitAt s.clk.stamp trans entry code param
  else if s.obs.held.length < 64 then
    s.upObs (fun o => { o with held := o.held ++ [⟨code, severityOf code, entry, 0, s.clk.stamp, param⟩] })
  else s.upObs (fun o => { o with heldLost := o.heldLost + 1 })

/-- Log an event with its partner entry. -/
def State.logFor (entry code param : Nat) (s : State) : State := s.logBy (transOf code) entry code param

/-- Log an event no request caused. -/
def State.log (code param : Nat) (s : State) : State := s.logFor 0xFFFF code param

/-- Log a list of events in order. -/
def State.logAll (es : List (Nat × Nat)) (s : State) : State := es.foldl (fun t e => t.log e.1 e.2) s

/-- When the fast domains start: the reset's own events first, then the held events in order and with the time each was
held at (DEDUCED, log entry 44), then 7101h for those the keeper could not hold (R519). -/
def State.startPail (own : List (Nat × Nat)) (s : State) : State :=
  let held := s.obs.held
  let n := s.obs.heldLost
  let s1 := s.upObs (fun o => { o with held := [], heldLost := 0 })
  let s2 := own.foldl (fun t e => t.emit 0xFFFF e.1 e.2) s1
  let s3 := held.foldl (fun t e => t.emitAt e.stamp (transOf e.code) e.entry e.code e.param) s2
  if n = 0 then s3
  else (s3.upObs (fun o => { o with
    lost := min (o.lost + n) 0xFFFFFFFF
    overrun := true
    nextSeq := (o.nextSeq + n) % 2 ^ 32 })).emit 0xFFFF 0x7101 n

end Sys2Proof.Machine
end

