-- ==== Sys2Proof/Machine/Ops.lean ====
section
/-!
DEFINITION. The named operations every family shares: time, performance counters, the journal and poison, the dirty
charge, gills, leave at the peck arbiter, responses, reservations and membership tests.
-/
namespace Sys2Proof.Machine

/-! ## Time (log entry 3) -/

/-- Nanoseconds per keeper cycle: the step of an idle block. -/
def keeperCycle : Nat := 40

/-- Cycles of a block's clock in one keeper cycle (R33, R500): 60 at 1.5 GHz, 64 at 1.6 GHz, 40 at 1.0 GHz, 1. -/
def blockRate (b : Nat) : Nat := if b < 32 then 60 else if b < 56 then 64 else if b < 58 then 40 else if b < 60 then 60 else 1

/-- A dump runs: the hold-up domains alone are clocked (R33). -/
def State.dumping (s : State) : Bool := decide (s.pwr.arm = 5)

/-- A block's clock runs (R33, R34, R36, R38): sleeping miss sides and channels stop; a dump stops the slices, the host port, the
yoke port and the skim engine; the keeper runs while powered. -/
def State.blockRuns (s : State) (b : Nat) : Bool :=
  if b = 60 then s.keeperOn
  else s.fastOn && !(s.dumping && (b < 32 || b = 56 || b = 57 || b = 58)) && (if b < 32 then !s.slices.asleep.contains b
    else if b < 48 then !s.media.asleep.contains (b - 32) else true)

/-- Internal masters start work: the fast domains run, no dump does, and the module is not in Test state (R33, R539). -/
def State.mastersRun (s : State) : Bool := s.fastOn && !s.dumping && decide (s.pwr.test = 0)

/-- The Prepared state, in which no copy set or relocation switches, no lap starts and no group changes state (R533). -/
def State.still (s : State) : Bool := decide (s.pwr.arm = 3)

/-- One second in ns. -/
def sec : Nat := 1000000000

/-! ## Performance counters (R501 to R506) -/

/-- A counter's value after `n` more: past 2^48 − 1 it goes on from 0 or, with its Interrupt bit, from Reload (R501, R505). -/
def wrapValue (intr : Bool) (reload total : Nat) : Nat :=
  if total < 2 ^ 48 then total
  else if intr then reload + (total - 2 ^ 48) % (2 ^ 48 - reload % 2 ^ 48)
  else total % 2 ^ 48
/-- A counter of a block passes its maximum by a total: it wraps, its Overflow bit is set and vector 6 is raised, at most once in any
100 µs; with Interrupt a sample is recorded (R80, R501, R505, R506). R505 speaks of the vector for a counter with Interrupt, R80 for
every overflow (log entry 126). -/
def State.wrap (block n total addr partner : Nat) (s : State) : State :=
  let k := block * 8 + n
  let intr : Bool := decide (bits (Tab.get 0 s.perf.select k) 17 17 = 1)
  let ov := Tab.get 0 s.perf.overflow block
  let s1 := s.upPerf (fun p => { p with
    value := Tab.set 0 p.value k (wrapValue intr (Tab.get 0 p.reload k) total)
    overflow := Tab.set 0 p.overflow block (if ov / 2 ^ n % 2 = 1 then ov else ov + 2 ^ n) })
  let old := Tab.get {} s.perf.samples block
  let handles := block < 32 || (48 > block && 31 < block) || block = 56 || block = 57
  let smp : Sample :=
    { addr := if handles then addr else 0xFFFFFFFFFFFFFFFF, entry := if handles then partner else 0xFFFF,
      counter := n, count := (old.count + 1) % 2 ^ 32, stamp := s.clk.stamp }
  let s2 := if intr then s1.upPerf (fun p => { p with samples := Tab.put p.samples block smp }) else s1
  let soon := match s.obs.lastSix with
    | some t => decide (s.clk.now < t + 100000)
    | none => false
  if soon then s2 else (s2.upObs (fun o => { o with lastSix := some s.clk.now })).raise 6
/-- A counter adds a number (R501). -/
def State.bump (block c n addr partner : Nat) (s : State) : State :=
  let v := Tab.get 0 s.perf.value (block * 8 + c) + n
  if v < 2 ^ 48 then s.upPerf (fun p => { p with value := Tab.set 0 p.value (block * 8 + c) v })
  else s.wrap block c v addr partner

/-- Occurrences of an event at a block: every counter that selects the event adds them (R502, R503). -/
def State.countAt (block ev n addr partner : Nat) (s : State) : State :=
  (List.range 8).foldl (fun t c =>
    if bits (Tab.get 0 t.perf.select (block * 8 + c)) 7 0 = ev ∧ ev ≠ 0 then t.bump block c n addr partner else t) s

/-- Occurrences no request causes. -/
def State.count (block ev n : Nat) (s : State) : State := s.countAt block ev n 0xFFFFFFFFFFFFFFFF 0xFFFF

/-- A twin record of n payload bytes is written: one copy, with its Sequence and CRC, in 16-byte units (R486, R487,
R504; payload sizes the spec does not lay out are taken as the sum of the values kept, log entry 21). -/
def State.save (n : Nat) (s : State) : State := s.count 60 6 ((n + 23) / 16)

/-! ## Measurement registers (R416, R417) -/

/-- What a measurement register measures has changed: its ChangeCount since cold reset rises (R416, R417). -/
def State.measure (reg : Nat) (s : State) : State :=
  s.upKeys (fun k => { k with changes := Tab.set 0 k.changes reg ((Tab.get 0 k.changes reg + 1) % 2 ^ 32) })

/-! ## Membership tests -/

/-- Serving states (R309). -/
def servingSt (m : Nat) : Bool := m = 0 || m = 2 || m = 3 || m = 4 || m = 6 || m = 7
/-- Every write needs the peer: Paired, Feeding, Receiving (R309, R323). -/
def State.paired (s : State) : Bool := s.yoke.member = 2 || s.yoke.member = 6 || s.yoke.member = 7
/-- The module runs alone and marks what it changes (R341). -/
def State.sole (s : State) : Bool := decide (s.yoke.member = 4)
/-- Answers as a fenced junior (R58, R334, R338). -/
def State.fenced (s : State) : Bool := s.yoke.member = 5 || s.yoke.member = 8
/-- A grain is marked divergent (R341); after marking the whole space the table lists the grains cleared. -/
def State.marked (s : State) (g : Nat) : Bool := s.map.divAll != Tab.get false s.map.div g
/-- Bits set in the divergence bitmap (5090h.0D). -/
def State.divergentCount (s : State) : Nat :=
  if s.map.divAll then s.ident.variant.grains - s.map.div.length else s.map.div.length
/-- This module's position (R308): the one it is fixed at, or for an automatic one the one the last handshake gave it; FFh before. -/
def State.position (s : State) : Nat := if s.entryInForce 0x4100 2 < 2 then s.entryInForce 0x4100 2 else s.yoke.position
/-- What the management route shows, as 5090h.08 codes it; permanently silent while no peer endpoint is set (R327). -/
def State.routeSeen (s : State) : Nat := if s.entry 0x4100 5 = 0 then 0 else s.yoke.route
/-- This module is the senior (R308). -/
def State.senior (s : State) : Bool := decide (s.position = s.entry 0x4100 3)
/-- This module is the home of a line (R322). -/
def State.home (s : State) (line : Nat) : Bool :=
  if s.paired || s.yoke.member = 3 then
    if s.marked (grainOf line) then !(decide (s.yoke.member = 7) || decide (s.yoke.member = 3) && decide (s.yoke.prev = 7))
    else decide (bits (line * 64) 12 12 = s.position)
  else true
/-- The credit class of a message type (R321). -/
def creditClass (ty : Nat) : Nat := if ty ∈ [1, 2, 3, 4, 0x14, 0x15] then 0 else if ty ∈ [5, 6, 7, 0x0A] then 1 else 2
/-- Heartbeat and StandDown always have their credits (R321). -/
def creditFree (ty : Nat) : Bool := decide (ty = 0x0B) || decide (ty = 0x0D)
/-- The payload of a message (R318): a line, with its byte enables when it is partial, or the message's own bytes, filled to 16. -/
def YokeMsg.payload (m : YokeMsg) : Bytes :=
  let line := natLe 64 m.data.toNat
  if m.ty = 6 then line
  else if m.ty = 1 ∨ m.ty = 2 then if m.full then line else natLe 8 m.mask.toNat ++ natLe 8 0 ++ line
  else m.body ++ natLe ((16 - m.body.length % 16) % 16) 0
/-- The bytes of a message: the 16-byte header, then the payload (R318). -/
def YokeMsg.bytes (m : YokeMsg) : Bytes :=
  natLe 1 m.ty ++ natLe 1 (m.payload.length / 16) ++ natLe 2 m.tag ++ natLe 4 m.aux
    ++ natLe 8 (m.num % 2 ^ 41 + m.entry % 2 ^ 12 * 2 ^ 41 + m.cls % 16 * 2 ^ 56 + bit m.full * 2 ^ 60 + bit m.conditional * 2 ^ 61
      + bit m.poisoned * 2 ^ 62) ++ m.payload
/-- The parts of the message stream a message fills, 236 bytes to a frame (R316; a message starts a frame, log entry 33). -/
def YokeMsg.streams (m : YokeMsg) : List Bytes :=
  (List.range ((m.bytes.length + 235) / 236)).map (fun i => (m.bytes.drop (236 * i)).take 236)
/-- The 256 bytes of a frame (R316): its header, the message stream with idle bytes 00h, CRC-64, FEC and the reserved bytes. -/
def YokeFrame.bytes (f : YokeFrame) : Bytes :=
  let front := natLe 4 (f.seq % 4096 * 2 ^ 20 + f.ack % 4096 * 2 ^ 8 + f.cls % 4 * 2 ^ 6 + f.credits % 64) ++ f.stream
    ++ natLe (236 - f.stream.length) 0
  let covered := front ++ natLe 8 (Config.crc64 front).toNat
  covered ++ natLe 6 (Config.frameFec covered).toNat ++ natLe 2 0
/-- A frame leaves (R316, R317, R321): it acknowledges the last frame received good, returns up to 63 credits of the lowest class that
has any (log entry 34), and is kept until it is acknowledged. -/
def Yoke.sendFrame (now : Nat) (y : Yoke) (stream : Bytes) : Yoke :=
  let cls := if Tab.get 0 y.owed 0 ≠ 0 then 0 else if Tab.get 0 y.owed 1 ≠ 0 then 1 else 2
  let n := min 63 (Tab.get 0 y.owed cls)
  let f := YokeFrame.mk ((y.txSeq + 1) % 4096) y.rxSeq cls n stream
  { y with
    txSeq := f.seq
    owed := Tab.set 0 y.owed cls (Tab.get 0 y.owed cls - n)
    ackAt := if y.unacked.isEmpty then now else y.ackAt
    unacked := y.unacked ++ [f]
    sent := y.sent ++ [f] }
/-- A message may leave (R321): its class has a credit and no earlier message of the class waits for one. -/
def State.mayPass (s : State) (ty : Nat) : Bool :=
  creditFree ty || decide (Tab.get 0 s.yoke.credits (creditClass ty) ≠ 0) &&
    !(s.yoke.outWait.any (fun w => decide (creditClass w.ty = creditClass ty)))
/-- A message leaves on the yoke, in frames of its own, with a credit of its class (R316, R321). -/
def State.transmit (m : YokeMsg) (s : State) : State :=
  let c := creditClass m.ty
  (s.upYoke (fun y => m.streams.foldl (fun z b => z.sendFrame s.clk.now b) { y with
    out := y.out ++ [m]
    credits := if creditFree m.ty then y.credits else Tab.set 0 y.credits c (Tab.get 0 y.credits c - 1) })).count 57 1 m.streams.length
/-- Send a message to the peer (R317, R318, R321): a message that carries a line has its line CRC in Aux; it waits while its class has
no credit. Types from 100h up do not travel on the yoke. -/
def State.send (m : YokeMsg) (s : State) : State :=
  let x := if m.ty = 1 ∨ m.ty = 2 ∨ m.ty = 6 then { m with aux := (lineCrc m.data).toNat } else m
  if 0x100 ≤ m.ty then s.upYoke (fun y => { y with out := y.out ++ [x] })
  else if s.mayPass m.ty then s.transmit x
  else s.upYoke (fun y => { y with outWait := y.outWait ++ [x] })
/-- Credits have come back: the messages that waited for them leave, in their order (R321). -/
def State.sendWaiting (s : State) : State :=
  s.yoke.outWait.foldl (fun t m => t.send m) (s.upYoke (fun y => { y with outWait := [] }))
/-- A message leaves its pail: a credit of its class goes back with the frames that follow (R321). -/
def State.owe (ty : Nat) (s : State) : State :=
  s.upYoke (fun y => { y with owed := Tab.set 0 y.owed (creditClass ty) (Tab.get 0 y.owed (creditClass ty) + 1) })

/-! ## The journal, poison and divergence (R217 to R219, R341) -/

/-- Journal bytes in use (R219). -/
def State.journalBytes (s : State) : Nat := 16 * s.map.journal.length

/-- The module is armed when DerivedBudget and a slot allow; it keeps what it was in between (R158). -/
def State.armCode (s : State) : Nat := if s.pwr.armed then 1 else 0

/-- Control of a command entry. -/
def State.ctl (s : State) (i : Nat) : Nat := Tab.get 0 s.cmds.ctl i
/-- Set Control of a command entry. -/
def State.setCtl (i v : Nat) (s : State) : State := s.upCmds (fun c => { c with ctl := Tab.set 0 c.ctl i v })
/-- A progress or result value of a command entry. -/
def State.val (s : State) (i sub : Nat) : Nat := Tab.get 0 s.cmds.val (i * 256 + sub)
/-- Set a progress or result value of a command entry. -/
def State.setVal (i sub v : Nat) (s : State) : State :=
  s.upCmds (fun c => { c with val := Tab.set 0 c.val (i * 256 + sub) v })

/-- A pair-wide change of the grain waits for its GrainChangeAck (R567). -/
def State.changing (s : State) (g : Nat) : Bool := s.cmds.jobs.any (fun kj => kj.2.acks.contains g)

/-- A change leaves the Prepared state: Control of 9060h and ArmState return (R180). -/
def State.leavePrepared (s : State) : State :=
  if s.pwr.arm = 3 then (s.upPwr (fun p => { p with arm := s.armCode })).setCtl 0x9060 0 else s

/-- The journal is past 486 MiB: no map change is made until a lap completes (R219). -/
def State.journalFull (s : State) : Bool := decide (509607936 ≤ s.journalBytes)
/-- Write a journal record (R217, R218): the area is circular and holds 32 Mi records, so one more takes the place of the oldest. It ends
the Prepared state (R180), and at 384 MiB event 221Bh is logged (R219). -/
def State.journal (r : JRec) (s : State) : State :=
  let s1 := s.leavePrepared.upMap (fun m =>
    let full := decide (33554432 ≤ m.journal.length)
    { m with
      journal := (if full then m.journal.drop 1 else m.journal) ++ [r]
      journalCut := m.journalCut || full
      seq := (m.seq + 1) % 2 ^ 32 })
  if s1.journalBytes ≥ 402653184 ∧ s1.map.journalHigh = false then
    (s1.upMap (fun m => { m with journalHigh := true })).log 0x221B s1.journalBytes
  else s1

/-- Set a divergence bit with its journal record (R341). -/
def State.mark (g : Nat) (s : State) : State :=
  if s.marked g then s
  else (s.upMap (fun m => { m with div := Tab.set false m.div g (!m.divAll) })).journal (.divergence g 1 true)
/-- Clear a divergence bit with its journal record (R343). -/
def State.unmark (g : Nat) (s : State) : State :=
  if s.marked g then (s.upMap (fun m => { m with div := Tab.set false m.div g m.divAll })).journal (.divergence g 1 false)
  else s
/-- Mark every grain of the logical space (R178, R227). -/
def State.markAll (s : State) : State :=
  (s.upMap (fun m => { m with divAll := true, div := [] })).journal (.divergence 0 s.ident.variant.grains true)
/-- A Sole module marks a grain before its first change completes (R341). -/
def State.markSole (g : Nat) (s : State) : State := if s.sole then s.mark g else s

/-- The line is poisoned (R58, R148). -/
def State.poisoned (s : State) (line : Nat) : Bool := Tab.get false s.map.poison line
/-- Poison a line, with its LinePoison record (R218). -/
def State.poison (line : Nat) (s : State) : State :=
  if s.poisoned line then s
  else ((s.upMap (fun m => { m with poison := Tab.set false m.poison line true })).journal (.linePoison line true)).markSole
    (grainOf line)
/-- Clear a line's poison, with its LinePoison record (R146, R218). -/
def State.unpoison (line : Nat) (s : State) : State :=
  if s.poisoned line then
    ((s.upMap (fun m => { m with poison := Tab.set false m.poison line false })).journal (.linePoison line false)).markSole
      (grainOf line)
  else s
/-- Poison several lines. -/
def State.poisonAll (ls : List Nat) (s : State) : State := ls.foldl (fun t l => t.poison l) s

/-! ## The dirty charge (R151, R152) -/

/-- DirtyBytes: 64 for every charged line (R152). -/
def State.dirtyBytes (s : State) : Nat := 64 * s.budget.charged.length
/-- DerivedBudget in bytes. -/
def State.budgetBytes (s : State) : Nat := s.budget.derived * 1048576
/-- The line is charged. -/
def State.isCharged (s : State) (line : Nat) : Bool := (Tab.look s.budget.charged line).isSome
/-- Charge a line: it becomes Dirty now (R151); in program-acknowledged mode nothing is charged (R158). A charge ends the
Prepared state (R180). -/
def State.charge (line : Nat) (s : State) : State :=
  if !s.pwr.armed then s
  else if s.isCharged line then s
  else s.leavePrepared.upBudget (fun b => { b with charged := Tab.put b.charged line s.clk.now })
/-- Return a line's charge; releasing the last uncovered line clears the marker of R159. -/
def State.release (line : Nat) (s : State) : State :=
  let left := s.budget.uncoveredLines.filter (fun l => l ≠ line)
  s.upBudget (fun b => { b with
    charged := Tab.erase b.charged line
    uncoveredLines := left
    uncovered := if left = [] then 0 else b.uncovered })
/-- Return the charges of several lines. -/
def State.releaseAll (ls : List Nat) (s : State) : State := ls.foldl (fun t l => t.release l) s

/-! ## Responses and requests -/

/-- Send a response (R63); the host port counts it, and a poison response as one (R504). -/
def State.respond (key tag : Nat) (k : RespKind) (s : State) : State :=
  let t := (s.upPort (fun p => { p with out := p.out ++ [⟨key, tag, k⟩] })).count 56 3 1
  if k = .poison then t.count 56 4 1 else t
/-- Take a request out of the list. -/
def State.dropReq (id : Nat) (s : State) : State := s.upReqs (fun q => { q with list := q.list.filter (fun r => r.id ≠ id) })
/-- Move a request to another stage. -/
def State.stageReq (id : Nat) (st : Stage) (s : State) : State :=
  s.upReqs (fun q => { q with list := q.list.map (fun r => if r.id = id then { r with stage := st } else r) })
/-- The slice a request belongs to. -/
def Req.slice (r : Req) : Nat := sliceOf r.addr
/-- The line a request names. -/
def Req.line (r : Req) : Nat := r.addr / 64
/-- The partner entry of the internal masters (R101). -/
def internal : Nat := 4095
/-- The request is a read that the peer has forwarded (R136), carried out here as an internal one under the message's tag. -/
def Req.fromPeer (r : Req) : Bool := decide (r.entry = internal) && decide (r.tag = 0x0106)
/-- The request occupies a request-pail entry of its slice (R20, R143); those of internal masters have pails of their own
(R64). -/
def Req.inPail (r : Req) : Bool := decide (r.stage ≠ .ingress) && decide (r.entry ≠ internal)
/-- Entries held in a slice's request pail. -/
def State.pailCount (s : State) (slice : Nat) : Nat :=
  (s.reqs.list.filter (fun r => r.inPail && decide (r.slice = slice))).length

/-! ## The Firkin's samples (R511) -/

/-- The exponent bin of kinds 01h and 02h. -/
def latencyBin (ns : Nat) : Nat := if ns < 128 then 0 else min 15 (Nat.log2 ns - 6)
/-- The bin of a sample (R511). Temperatures come in 0.01 K; kelvin × 100 less 27,315 is °C × 100. -/
def firkinBin (kind v : Nat) : Nat :=
  if kind ≤ 2 then latencyBin v
  else if kind = 3 then (if v < 27315 + 3500 then 0 else min 15 ((v - 27315 - 3000) / 500))
  else if kind = 4 then (if v < 27315 + 4500 then 0 else min 15 ((v - 27315 - 4000) / 500))
  else if kind = 5 then min 15 (v / 5000)
  else if kind = 6 then min 15 (v / 64)
  else if v = 0 then 0 else min 15 (Nat.log2 v + 1)
/-- Record one sample of a kind in its open record; the Firkin runs while the fast domains run (R512). -/
def State.sample (kind v : Nat) (s : State) : State :=
  if s.firkin.running then
    s.upFirkin (fun f =>
      let r := Tab.get {} f.opened kind
      let r2 : FirkRec := { r with
        bins := Tab.set 0 r.bins (firkinBin kind v) (Tab.get 0 r.bins (firkinBin kind v) + 1)
        minimum := min r.minimum v
        maximum := max r.maximum v }
      { f with opened := Tab.put f.opened kind r2 })
  else s

/-- Bytes a mask enables. -/
def maskCount (m : Mask) : Nat := ((List.range 64).filter (fun i => m.getLsbD i)).length

/-- A U32 counter that saturates. -/
def sat32 (n : Nat) : Nat := min (n + 1) 0xFFFFFFFF

/-- A request of class c is answered after its time at the port: the latency miss of R433, the class-0 over-bound count
of R137, and the Firkin sample of R511. -/
def State.timed (r : Req) (s : State) : State :=
  let dt := s.clk.now - r.arrival
  let isRead := r.kind = .read || r.kind = .resRead
  let s1 := if dt > s.entry (0x2300 + r.cls) 3 then
      s.upReg (fun g => { g with
        missCount := Tab.set 0 g.missCount r.cls (Tab.get 0 g.missCount r.cls + 1)
        missSecond := Tab.set 0 g.missSecond (s.clk.now / sec * 16 + r.cls)
          (Tab.get 0 g.missSecond (s.clk.now / sec * 16 + r.cls) + 1) })
    else s
  let s2 := if isRead && decide (r.cls = 0) then
      s1.upRstats (fun t => { t with
        class0Reads := t.class0Reads + 1
        overBound := if dt > 9000 then t.overBound + 1 else t.overBound })
    else s1
  if isRead then (if r.cls = 0 then s2.sample 1 dt else s2)
  else (s2.upCare (fun c => { c with hostBytes := c.hostBytes + maskCount r.be })).sample 2 dt

/-- A mailbox command completes (R73, R80): its response leaves; on a partner page its registers and payload area are set and its
doorbell cleared (log entry 14), elsewhere condition 0 occurs when the command's interrupt control selects it. -/
def State.mboxRespond (w : Who) (opcode code : Nat) (payload : Bytes) (s : State) : State :=
  let t := s.upMbox (fun m => { m with out := m.out ++ [⟨w, opcode, code, payload⟩] })
  if w.route ≠ .page then t.raiseWhen (decide (w.intr % 2 = 1))
  else
    match t.whoEntry w with
    | none => t
    | some n =>
      let regs : Line := (BitVec.ofNat 512 (opcode + payload.length * 65536) <<< 64) ||| (BitVec.ofNat 512 code <<< 160)
      let area := (List.range ((payload.length + 63) / 64)).foldl (fun p k =>
        Tab.set 0 p (n * 128 + 64 + k) (BitVec.ofNat 512 (leNat ((payload.drop (64 * k)).take 64)))) t.mbox.pages
      t.upMbox (fun m => { m with
        pages := Tab.set 0 area (n * 128) ((Tab.get 0 area (n * 128) &&& ~~~ (BitVec.ofNat 512 (2 ^ 128 - 1) <<< 64)) ||| regs)
        doorbell := m.doorbell.filter (fun x => decide (x ≠ n)) })
/-- The data of a response; poison and completions carry none. -/
def RespKind.bytes : RespKind → Line
  | .data d => d
  | .poison => 0
  | .complete => 0
/-- DRAM enters self-refresh in a warm reset, once every write that finishes over it has completed (R37, R181). -/
def State.refreshSelf (s : State) : State :=
  if s.fastOn && !s.dumping && decide (s.port.speed = 0) && !(s.reqs.list.any (fun r => decide (r.entry = internal) && decide (r.tag = 0x0181)))
  then s.upPwr (fun p => { p with selfRefresh := true }) else s
/-- Answer a request and release it. A line a command zeroes is an internal write (R111, R363): no response leaves, and the
progress of its command, named by the tag, advances; the write of a Clear Poison completes its mailbox command (R66); a write
that a warm reset lets finish is answered to nobody (R181); a read the peer forwarded is answered by ReadData (R136). -/
def State.answer (r : Req) (k : RespKind) (s : State) : State :=
  if r.entry = internal then
    let t := s.dropReq r.id
    if r.tag = 0x9030 then t.setVal 0x9030 4 (t.val 0x9030 4 + 64)
    else if r.tag = 0x4302 then
      match t.mbox.clearing.find? (fun x => decide (x.1 = r.id)) with
      | some x => (t.upMbox (fun m => { m with clearing := m.clearing.erase x })).mboxRespond x.2 0x4302 0 []
      | none => t
    else if r.tag = 0x0181 then t.refreshSelf
    else if r.fromPeer then t.send
      { ty := 6
        tag := r.key
        num := r.line
        full := true
        data := k.bytes
        poisoned := decide (k = .poison) }
    else t.setVal r.tag 6 (t.val r.tag 6 + 1)
  else (((s.timed r).respond r.key r.tag k).dropReq r.id).upSlices (fun q => { q with
    lastWork := Tab.put q.lastWork r.slice s.clk.now })

/-- The response of a read: poison when the line is poisoned, else its data (R58, R60). -/
def State.readResp (s : State) (line : Nat) (d : Line) : RespKind := if s.poisoned line then .poison else .data d

/-! ## Responses of the dictionary (R463) -/

/-- A response as bytes (R463). -/
def DtpResp.bytes (r : DtpResp) : Bytes :=
  natLe 1 r.spec ++ natLe 1 r.flags ++ natLe 1 r.tid ++ natLe 1 r.sub ++ natLe 2 r.index ++ natLe 2 r.data.length ++ natLe 4 r.abort
  ++ r.data
/-- Send a DTP response: the request's specifier + 80h, its flags and its abort code, with data on success only (R463); the
field network's responses are counted (R492). The response of a Dictionary Transfer that waited for it is that command's output
(R74). -/
def State.reply (route : Route) (spec flags tid index sub code : Nat) (data : Bytes) (s : State) : State :=
  let r : DtpResp := ⟨route, (spec + 128) % 256, flags, tid, sub, index, code, if code = 0 then data else []⟩
  match s.mbox.dictWait.find? (fun x => decide (x.1.route = route) && decide (x.2 = tid)) with
  | some x => (s.upMbox (fun m => { m with dictWait := m.dictWait.erase x })).mboxRespond x.1 0xC000 0 r.bytes
  | none => s.upDict (fun d => { d with
      out := d.out ++ [r]
      served := if route = .field then sat32 d.served else d.served })
/-- The sender lacks the Mailbox capability its route's commands need (R103). -/
def State.lacksMailbox (s : State) (w : Who) : Bool :=
  decide (w.route = .primary ∨ w.route = .page) && !((s.whoEntry w).map (fun n => s.hasCap n 0)).getD false

/-! ## Leave (R437, R438) -/

/-- Cost in quarter-pecks of an operation kind's own leave (R437). -/
def actCost : Act → Nat
  | .retrain => 16
  | .softBurst => 2
  | .scrub => 4
  | .writeback => 3
  | .restore => 3
  | .lap => 3
  | .selfTest => 3
  | _ => 3
/-- Order of kinds within a priority (R438). -/
def actRank : Act → Nat
  | .retrain => 0
  | .softBurst => 1
  | .rebuild => 2
  | .relocation => 3
  | .clearing => 3
  | .lap => 4
  | .writeback => 5
  | .restore => 5
  | .folding => 6
  | .skimming => 7
  | .repour => 8
  | .eraser => 9
  | .rekey => 10
  | .resync => 11
  | .scrub => 12
  | .selfTest => 13
/-- Ask the arbiter for leave: id names the operation, priority 0 highest, 1 normal, 2 lowest (R438). -/
def State.askLeave (id : Nat) (act : Act) (prio cost : Nat) (s : State) : State :=
  s.upReg (fun g => { g with waiting := g.waiting ++ [⟨id, act, prio, cost, s.clk.now⟩] })
/-- Give back the leave an operation holds, or withdraw its request. -/
def State.giveLeave (id : Nat) (s : State) : State :=
  s.upReg (fun g => { g with
    granted := g.granted.filter (fun l => l.id ≠ id)
    waiting := g.waiting.filter (fun l => l.id ≠ id) })

/-! ## The strainer and the scrub pass (R256, R259, R437) -/

/-- The strainer is enabled and may run (R256). -/
def State.strains (s : State) : Bool :=
  s.mastersRun && decide (s.ident.variant ≠ .sn128) && decide (s.entry 0x2240 1 = 1)
/-- A scrub pass is under way (R259, R260). -/
def State.scrubs (s : State) : Bool := decide (s.ctl 0x9020 = 1)
/-- A field of the running summary (R261). -/
def State.tally (k : Nat) (f : Nat → Nat) (s : State) : State := s.setVal 0x9020 (0x40 + k) (f (s.val 0x9020 (0x40 + k)))
/-- The leave number of the running strainer or scrub pass (R437). -/
def strainId : Nat := 2 ^ 45
/-- The strainer or a scrub pass asks for the leave it runs under (R437), once the map is resident, at the lowest priority (R232); a pass
that falls below 2 GB/s takes the normal one (R260). -/
def State.askStrain (s : State) : State :=
  if !(s.strains || s.scrubs) || !s.map.resident || (s.reg.granted ++ s.reg.waiting).any (fun l => decide (l.id = strainId)) then s
  else s.askLeave strainId .scrub 2 (actCost .scrub)
/-- The strainer or the scrub pass runs: it has its leave, and the map is resident (R232, R437). -/
def State.checks (s : State) : Bool :=
  (s.strains || (s.scrubs && s.mastersRun)) && s.map.resident && s.reg.granted.any (fun l => decide (l.id = strainId))

/-- A leave is a copy stream's. -/
def Leave.isStream (l : Leave) : Bool := decide (2 ^ 42 ≤ l.id) && decide (l.id < 2 ^ 43)

/-! ## Gills (R394, R395) -/

/-- The configured capacity and leak interval (ms) of a gill domain's kind (R425). -/
def State.gillConf (s : State) (d : Nat) : Nat × Nat :=
  if d < 8 then (s.entry 0x50B0 1, s.entry 0x50B0 2)
  else if d < 104 then (s.entry 0x50B0 3, s.entry 0x50B0 4)
  else (s.entry 0x50B0 5, s.entry 0x50B0 6)
/-- The settings of a gill in force: new ones wait for the next leak interval (R425). -/
def State.gillSet (s : State) (d : Nat) : GillSet :=
  match Tab.look s.gills.sets d with
  | some x => x
  | none => ⟨(s.gillConf d).1, (s.gillConf d).2, 0⟩
/-- Every gill starts a leak interval with the settings as they stand (R395). -/
def State.startGills (s : State) : State :=
  s.upGills (fun g => { g with
    sets := (List.range 110).map (fun d => (d, ⟨(s.gillConf d).1, (s.gillConf d).2, s.clk.now⟩)) })
/-- A retraining's leave. -/
def retrainId : Nat := 2 ^ 44
/-- Channels are to be retrained (R379): the retraining waits for its leave (R437). -/
def State.needRetrain (mask : BitVec 8) (s : State) : State :=
  let s1 := s.upDram (fun d => { d with retrainMask := d.retrainMask ||| mask })
  if s1.dram.retrainMask = 0 ∨ s1.reg.granted.any (fun l => decide (l.id = retrainId)) ∨
      s1.reg.waiting.any (fun l => decide (l.id = retrainId)) then s1
  else s1.askLeave retrainId .retrain 1 (actCost .retrain)
/-- A correctable error of a weight into a domain. An addition above the capacity overflows the gill, at most once per
leak interval: the level is halved capacity, the overflow counts, event 50B3h is logged, and a DRAM channel is retrained
(R395). -/
def State.gill (d weight : Nat) (s : State) : State :=
  let lv := Tab.get 0 s.gills.level d + weight
  let cap := (s.gillSet d).cap
  let s1 := s.upGills (fun g => { g with
    inputs := Tab.set 0 g.inputs d (Tab.get 0 g.inputs d + 1)
    roundInputs := g.roundInputs + 1 })
  if lv ≤ cap ∨ s.gills.spilled.contains d then s1.upGills (fun g => { g with level := Tab.set 0 g.level d (min lv cap) })
  else
    let s2 := (s1.upGills (fun g => { g with
      level := Tab.set 0 g.level d (cap / 2)
      overflows := Tab.set 0 g.overflows d (Tab.get 0 g.overflows d + 1)
      spilled := g.spilled ++ [d] })).log 0x50B3 d
    if d < 8 then s2.needRetrain ((1 : BitVec 8) <<< d) else s2

/-! ## Leave in force -/

/-- Quarter-pecks granted: the channels' standing leave and the leave held (R436, R437). -/
def State.grantedQ (s : State) : Nat :=
  if s.fastOn then 16 * 8 + (s.reg.granted.map (fun l => l.cost)).foldl (· + ·) 0 else 0

/-! ## Reservations (R297) -/

/-- End the reservations a test picks, remembering the line and the outcome the partner's next conditional write to it
receives (R297, R300). -/
def State.endRes (p : Resv → Bool) (why : Nat) (s : State) : State :=
  let gone := s.atom.res.filter p
  s.upAtom (fun a => { a with
    res := a.res.filter (fun r => !p r)
    ended := gone.foldl (fun t r => Tab.put t (r.entry * 2 ^ 41 + r.line) why) a.ended })
/-- End the partner's reservation in the line's slice after its conditional write to the line, of which no earlier ending is
remembered; a reservation of another line that had ended before keeps its outcome (R294, R297). -/
def State.spendRes (entry line : Nat) (s : State) : State :=
  s.upAtom (fun a => { a with
    res := a.res.filter (fun x => !(decide (x.slice = sliceOfLine line) && decide (x.entry = entry)))
    ended := Tab.erase a.ended (entry * 2 ^ 41 + line) })
/-- A partner's status word in a slice (R299). -/
def State.statusWord (s : State) (n slice : Nat) : Nat := Tab.get 0 s.atom.status (n * 32 + slice)
/-- Set a partner's status word in a slice after a conditional write (R299): Attempt advances, with the outcome and the
target's line. -/
def State.setStatus (n slice outcome line : Nat) (s : State) : State :=
  let attempt := (bits (s.statusWord n slice) 63 48 + 1) % 65536
  s.upAtom (fun a => { a with status := Tab.put a.status (n * 32 + slice) (attempt * 2 ^ 48 + outcome * 2 ^ 44 + line) })
/-- Count a decided conditional write by its outcome (R306). -/
def State.countOutcome (outcome : Nat) (s : State) : State :=
  s.upAtom (fun a => { a with
    writes := a.writes + 1
    stored := a.stored + (if outcome = 1 then 1 else 0)
    intervened := a.intervened + (if outcome = 4 then 1 else 0)
    conflict := a.conflict + (if outcome = 7 then 1 else 0)
    lost := a.lost + (if outcome = 5 ∨ outcome = 6 then 1 else 0)
    other := a.other + (if outcome ∈ [2, 3, 8, 9, 10] then 1 else 0) })
/-- A write to a line by an entry is applied at this module: other partners' reservations on it, and the writer's own
outside the window, end as Intervened (R297). -/
def State.intervene (line : Nat) (s : State) : State := s.endRes (fun r => decide (r.line = line)) 4

/-! ## The codewords being read (R118, R123, R130, R132) -/

/-- The target codeword is queued at its die, sensed or moved, or waits for the end of its die's window (R125, R132). -/
def Miss.readsTarget (m : Miss) : Bool :=
  !m.pageIn && decide (m.ended = .reading) && !m.gathering &&
    (!m.recon || decide (m.direct = .deferred) || decide (m.direct = .inFlight) ||
      (decide (m.step = 4) && decide (m.tgt = .reading)))
/-- A peer codeword is read on a channel (R132). -/
def Miss.readsPeer (m : Miss) (ch : Nat) : Bool := m.recon && m.peers.any (fun p => decide (p.ch = ch) && decide (p.st = .reading))
/-- The fetch reads a die. -/
def Miss.reads (m : Miss) (die : Nat) : Bool :=
  (decide (ppaDie m.ppa = die) && m.readsTarget) || (decide (ppaPos m.ppa = die / 16) && m.readsPeer (die % 16))
/-- The dies a fetch reads. -/
def Miss.dies (m : Miss) : List Nat := ((List.range 16).map (fun c => ppaPos m.ppa * 16 + c)).filter m.reads
/-- A host read is queued for a die (R130). -/
def State.readQueued (s : State) (die : Nat) : Bool := s.slices.misses.any (fun m => m.reads die)
/-- Codeword reads a channel's command queue holds, prefetches among them (R123). -/
def State.channelReads (s : State) (ch : Nat) : Nat :=
  (s.slices.misses.filter (fun m => m.reads (ppaPos m.ppa * 16 + ch))).length +
    (s.slices.prefetches.filter (fun kv => decide (ppaCh kv.2.ppa = ch))).length
/-- Entries a slice's miss table holds, one per line being fetched (R118). -/
def State.missCount (s : State) (slice : Nat) : Nat :=
  (s.slices.misses.filter (fun x => decide (sliceOfLine x.line = slice) && decide (x.kind ≠ .side) && !x.gathering)).length

/-! ## The clock (R36, R38, R501, R502, R565) -/

/-- The state event a block presents now (R504), none when the event is no state event. -/
def State.level (s : State) (block ev : Nat) : Option Nat :=
  let ms := s.slices.misses
  if block < 32 then
    if ev = 8 then some (s.pailCount block)
    else if ev = 9 then some (s.missCount block)
    else if ev = 13 then some (if s.slices.asleep.contains block then 1 else 0)
    else none
  else if block < 48 then
    let c := block - 32
    let held := s.channelReads c +
      (s.media.passes.filter (fun p => p.started && !p.programmed && decide (ppaCh p.ppa = c))).length
    if ev = 8 then some (if held = 0 then 0 else 1)
    else if ev = 9 then some held
    else if ev = 10 then some (s.media.ops.filter (fun kv => kv.2.inWindow && decide (kv.2.die % 16 = c))).length
    else none
  else if block < 56 then
    if ev = 8 then some (s.dram.openRow.filter (fun kv => decide (kv.1 / 64 = block - 48))).length else none
  else if block = 56 then
    if ev = 7 then some (s.reqs.list.filter (fun r => decide (r.stage = .ingress))).length
    else if ev = 8 then some (if s.port.pacing then 1 else 0)
    else none
  else if block = 57 then
    if ev = 6 then some s.yoke.held.length
    else if ev = 7 then some (if s.yoke.speed = 0 then 1 else 0)
    else none
  else if block = 58 then (if ev = 3 then some (s.reg.granted.filter Leave.isStream).length else none)
  else if block = 59 then (if ev = 4 then some (ms.filter (fun m => m.keyWait.isSome)).length else none)
  else
    if ev = 3 then some s.reg.waiting.length
    else if ev = 4 then some s.grantedQ
    else none
/-- Cycles of a block's counting clock in some keeper cycles: a slice counts on its hit side, which does not sleep (R500). -/
def State.countCycles (s : State) (block ticks : Nat) : Nat :=
  if (if block < 32 then s.fastOn && !s.dumping else s.blockRuns block) then ticks * blockRate block else 0
/-- One counter over some keeper cycles (R502): level mode adds the state presented on each, edge mode 1 when it has left 0. -/
def State.countLevel (ticks : Nat) (k sel : Nat) (s : State) : State :=
  let n := s.countCycles (k / 8) ticks
  match s.level (k / 8) (bits sel 7 0) with
  | none => s
  | some v =>
    if n = 0 then s
    else
      let add := if bits sel 16 16 = 1 then v * n else if v ≠ 0 ∧ Tab.get 0 s.perf.lastLevel k = 0 then 1 else 0
      (s.bump (k / 8) (k % 8) add 0xFFFFFFFFFFFFFFFF 0xFFFF).upPerf (fun p => { p with
        lastLevel := Tab.set 0 p.lastLevel k v })
/-- Move the clock on by `dt` ns: the times advance while the keeper is powered (R565), and the cycle counters and state
events of running blocks count the keeper cycles that pass (R501, R502). -/
def State.elapse (dt : Nat) (s : State) : State :=
  let on := s.keeperOn
  let ticks := (s.clk.now + dt) / keeperCycle - s.clk.now / keeperCycle
  let cyc := (List.range 61).foldl (fun t b =>
    if s.blockRuns b then Tab.set 0 t b ((Tab.get 0 t b + ticks * blockRate b) % 2 ^ 64) else t) s.perf.cycles
  let s1 := (s.upClk (fun c => { c with
    now := c.now + dt
    stamp := if on then c.stamp + dt else c.stamp
    ripe := if on then c.ripe + dt else c.ripe })).upPerf (fun p => { p with cycles := cyc })
  s.perf.select.foldl (fun t ks => t.countLevel ticks ks.1 ks.2) s1

/-- Move the clock on to a deadline; one that has passed moves it by nothing. -/
def State.elapseTo (t : Nat) (s : State) : State := s.elapse (t - s.clk.now)

end Sys2Proof.Machine
end

