-- ==== Sys2Proof/Machine/Content.lean ====
section
/-!
DEFINITION. What a line holds: the content of the map, the pages and the line log, under the rules of the key IDs (R85,
R86, R189, R213, R270, R407), and the current content over the caches (R116, R122).
-/
namespace Sys2Proof.Machine

/-- The grain is mapped (R85). -/
def State.isMapped (s : State) (g : Nat) : Bool := decide ((s.mapEntry g).st = .mapped)
/-- The page programmed at a PPA. -/
def State.page? (s : State) (ppa : Nat) : Option Page := Tab.look s.media.pages ppa
/-- A key ID's record (R404). -/
def State.keyRec (s : State) (id : Nat) : KeyRec := Tab.get {} s.keys.recs id
/-- The logged lines of a grain. -/
def State.loggedLines (s : State) (g : Nat) : List OvSlot :=
  (s.map.overlay.filter (fun kv => decide (grainOf kv.2.line = g))).map (fun kv => kv.2)
/-- The grains entered in a slice's overlay filter; `filter` holds each as the 4 KiB unit of it that lies in the slice (R216). -/
def State.filterOf (s : State) (slice : Nat) : List Nat :=
  (s.map.filter.filter (fun kv => decide (sliceOfLine (kv.1 * 64) = slice))).map (fun kv => kv.1 / 4)
/-- A line's slice finds its grain in the overlay filter (R121, R216): every bit is set, the grain has been entered, or the bits of
others that have been happen to cover it. -/
def State.filterSays (s : State) (line : Nat) : Bool :=
  s.map.filterOnes.contains (sliceOfLine line) || Tab.get false s.map.filter (line / 64) ||
    (!(s.filterOf (sliceOfLine line)).isEmpty && Config.bloomHit (s.filterOf (sliceOfLine line)) (grainOf line))
/-- A grain's Logged bit is set: it enters the filters of its slices (R216). -/
def State.enterFilter (g : Nat) (s : State) : State :=
  s.upMap (fun m => { m with filter := (List.range 4).foldl (fun t i => Tab.put t (g * 4 + i) true) m.filter })
/-- A grain has been folded: a filter of its slices of which a quarter is stale by now is rebuilt from the Logged bits (R216; the
quarter is counted in grains entered, log entry 121). -/
def State.trimFilter (g : Nat) (s : State) : State :=
  let old := fun (u : Nat) => !(Tab.get ({} : MapEntry) s.map.entries (u / 4)).logged
  let due := ((List.range 4).map (fun i => sliceOfLine ((g * 4 + i) * 64))).filter (fun sl =>
    let mine := s.map.filter.filter (fun kv => decide (sliceOfLine (kv.1 * 64) = sl))
    !mine.isEmpty && decide (mine.length ≤ 4 * (mine.filter (fun kv => old kv.1)).length))
  if due.isEmpty then s
  else s.upMap (fun m => { m with
    filter := Tab.filterKV (fun u _ => !(due.contains (sliceOfLine (u * 64)) && old u)) m.filter })
/-- A slice's overlay filter bits are lost: set all to ones, and rebuilt from the Logged bits once the map is resident (R216,
R397). -/
def State.remakeFilter (slice : Nat) (s : State) : State :=
  s.upMap (fun m =>
    if m.resident then { m with
      filter := Tab.filterKV (fun u _ => decide (sliceOfLine (u * 64) ≠ slice) ||
        (Tab.get ({} : MapEntry) m.entries (u / 4)).logged) m.filter }
    else { m with filterOnes := if m.filterOnes.contains slice then m.filterOnes else m.filterOnes ++ [slice] })
/-- Live logged lines (5060h.0A). -/
def State.liveLogged (s : State) : Nat := s.map.overlay.length

/-- Stored data under a key ID and page generation: zeros when the ID's base generation is above the page's (R270). -/
def State.keyView (s : State) (id gen : Nat) (d : Line) : Line := if gen < (s.keyRec id).base then 0 else d
/-- The stored copy cannot be decrypted: the key record is lost and the page not below its base (R407). -/
def State.keyLostFor (s : State) (id gen : Nat) : Bool := (s.keyRec id).lost && decide ((s.keyRec id).base ≤ gen)

/-- The slots of a log page whose grains have not changed since they were appended. -/
def Page.liveSlots (p : Page) : Tab LogSlot := p.slots.filter (fun kv => !kv.2.dead)
/-- A line of a page: a slot of a grain page, or a slot of a log page (R189, R211). -/
def Page.slotData (p : Page) (k : Nat) : Line :=
  match Tab.look p.slots k with
  | some l => l.data
  | none => Tab.get 0 p.lines k
/-- The key ID of a slot (R190, R212). -/
def Page.slotKey (p : Page) (k : Nat) : Nat :=
  match Tab.look p.slots k with
  | some l => l.keyId
  | none => p.keyId

/-- The content of a line below the caches (R85, R86, R122). -/
def State.stored (s : State) (line : Nat) : Line :=
  match s.copyAt line with
  | none => 0
  | some (ppa, k) =>
    match s.page? ppa with
    | none => 0
    | some p => s.keyView (p.slotKey k) p.gen (p.slotData k)

/-- The key ID a line's media copy needs, none for a grain that is not mapped. -/
def State.storedKey (s : State) (line : Nat) : Option Nat :=
  match s.copyAt line with
  | none => none
  | some (ppa, k) =>
    match s.page? ppa with
    | none => none
    | some p => some (p.slotKey k)

/-- Reading the line's media copy gives poison because its key is lost (R407). -/
def State.storedLost (s : State) (line : Nat) : Bool :=
  match s.copyAt line with
  | none => false
  | some (ppa, k) =>
    match s.page? ppa with
    | none => false
    | some p => s.keyLostFor (p.slotKey k) p.gen

/-- A valid front-cache line. -/
def State.fcLine? (s : State) (line : Nat) : Option FcLine := Tab.look s.fc.lines line
/-- A valid tier sector. -/
def State.sector? (s : State) (sec : Nat) : Option Sector := Tab.look s.tier.sectors sec
/-- The R151 state a sector holds for its line j. -/
def Sector.lineSt (x : Sector) (j : Nat) : TSt := Tab.get .clean x.st j
/-- The sector holds line j's content: present, and not Merging. -/
def Sector.holds (x : Sector) (j : Nat) : Bool := x.present.getLsbD j && decide (x.lineSt j ≠ .merging)
/-- The tier holds the line's content. -/
def State.tierLine? (s : State) (line : Nat) : Option Line :=
  match s.sector? (sectorOf line) with
  | some x => if x.holds (line % 32) then some (Tab.get 0 x.data (line % 32)) else none
  | none => none
/-- Content below the front cache: the tier, then below (R122). -/
def State.below (s : State) (line : Nat) : Line :=
  match s.tierLine? line with
  | some d => d
  | none =>
    match s.sector? (sectorOf line) with
    | some x =>
      if x.lineSt (line % 32) = .merging then
        mergeBytes (s.stored line) (Tab.get 0 x.data (line % 32)) (Tab.get 0 x.masks (line % 32))
      else s.stored line
    | none => s.stored line
/-- The current content of a line (R116, R147): the front cache, the tier, the line log or page. -/
def State.current (s : State) (line : Nat) : Line :=
  match s.fcLine? line with
  | some x => if x.st = .merging then mergeBytes (s.below line) x.data x.mask else x.data
  | none => s.below line

/-- The line is in the Merging state in one of the caches (R147). -/
def State.isMerging (s : State) (line : Nat) : Bool :=
  (match s.fcLine? line with
   | some x => decide (x.st = .merging)
   | none => false) ||
  (match s.sector? (sectorOf line) with
   | some x => decide (x.lineSt (line % 32) = .merging)
   | none => false)

/-- The line's R151 state is Dirty, Merging or Writing in a cache. -/
def State.isDirty (s : State) (line : Nat) : Bool :=
  (match s.fcLine? line with
   | some x => decide (x.st ≠ .unmodified)
   | none => false) ||
  (match s.sector? (sectorOf line) with
   | some x => decide (x.lineSt (line % 32) ≠ .clean)
   | none => false)

/-- Lines of a grain that a cache holds Dirty or Merging (R161). -/
def State.dirtyLines (s : State) (g : Nat) : List Nat :=
  ((List.range 256).map (fun j => g * 256 + j)).filter (fun l =>
    (match s.fcLine? l with
     | some x => decide (x.st ≠ .unmodified)
     | none => false) ||
    (match s.sector? (sectorOf l) with
     | some x => decide (x.lineSt (l % 32) = .dirty) || decide (x.lineSt (l % 32) = .merging)
     | none => false))

end Sys2Proof.Machine
end

