-- ==== Sys2Proof/Machine/Checkpoint.lean ====
section
/-!
DEFINITION. What a checkpoint holds (R208, R214, R218, R220 to R224): the words of map entries and overlay slots, the units of a
checkpoint with their Sequences, the pages of a lap, and which of them are in force.
-/
namespace Sys2Proof.Machine

/-! ## Words (R208, R214) -/

/-- Code of a grain's state (R208). -/
def grainCode : GrainSt → Nat
  | .unwritten => 0
  | .mapped => 1
  | .zero => 2
  | .discarded => 3
/-- A grain map entry's 40 bits (R208). -/
def MapEntry.word (e : MapEntry) : Nat := grainCode e.st * 2 ^ 38 + bit e.logged * 2 ^ 37 + (if e.st = .mapped then e.page else 0)
/-- An overlay-index slot's 64 bits (R214): GrainTag, line in the grain, page, codeword, slot, Valid. -/
def OvSlot.word (v : Variant) (o : OvSlot) : Nat :=
  ovTag v (grainOf o.line) * 2 ^ 51 + o.line % 256 * 2 ^ 43 + o.page * 2 ^ 9 + o.slot / 28 * 2 ^ 6 + o.slot % 28 * 2 + 1
/-! ## Units (R209, R222) -/

/-- Units of each type: map segments, overlay-index units, divergence units, block-metadata units (R222). -/
def mapUnits (v : Variant) : Nat := v.grains / 256
/-- Overlay-index units of 20 buckets. -/
def overlayUnits (v : Variant) : Nat := (2 ^ v.overlayBits + 19) / 20
/-- Divergence units of 10,240 bits. -/
def divUnits (v : Variant) : Nat := (v.grains + 10239) / 10240
/-- Block-metadata units of 40 blocks. -/
def metaUnits (v : Variant) : Nat := (v.groups * 16 + 39) / 40
/-- Directory units of 160 entries, one entry for each unit of the other types. -/
def dirUnits (v : Variant) : Nat := (mapUnits v + overlayUnits v + divUnits v + metaUnits v + 159) / 160

/-- The keys at which two tables differ. -/
def changedKeys {α : Type} [DecidableEq α] (d : α) (a b : Tab α) : List Nat :=
  (((a ++ b).map (fun kv => kv.1)).eraseDups).filter (fun k => decide (Tab.get d a k ≠ Tab.get d b k))
/-- Insert a unit in ascending order of type and number. -/
def insertUnit (u : Nat × Nat) : List (Nat × Nat) → List (Nat × Nat)
  | [] => [u]
  | x :: t => if u.1 < x.1 ∨ (u.1 = x.1 ∧ u.2 < x.2) then u :: x :: t else if u = x then x :: t else x :: insertUnit u t
/-- The map, overlay and divergence units changed since their last copy, in ascending order (R220, R221). -/
def State.changedUnits (s : State) : List (Nat × Nat) :=
  let c := s.map.ckpt
  let segs := (changedKeys {} c.entries s.map.entries).map (fun g => (1, segmentOf g))
  let slots := ((((c.overlay ++ s.map.overlay).map (fun kv => kv.1)).eraseDups).filter (fun k =>
    decide (Tab.look c.overlay k ≠ Tab.look s.map.overlay k))).map (fun k => (2, k / 8 / 20))
  let divs := if c.divAll = s.map.divAll then (changedKeys false c.div s.map.div).map (fun g => (3, g / 10240)) else []
  (segs ++ slots ++ divs).foldr insertUnit []
/-- Units a lap copies, block metadata among them (R220). -/
def Extent.copies (v : Variant) (e : Extent) : Nat :=
  e.units.length + (if e.allDiv then divUnits v else 0) + metaUnits v
/-- Unit i of a lap's copies as type and number; then the directory's units in order (R221, R223). -/
def Extent.unitAt (v : Variant) (e : Extent) (i : Nat) : Nat × Nat :=
  match e.units[i]? with
  | some u => u
  | none =>
    let k := i - e.units.length
    let d := if e.allDiv then divUnits v else 0
    if k < d then (3, k) else (4, k - d)
/-- Pages of a lap's copies (R222). -/
def Extent.copyPages (v : Variant) (e : Extent) : Nat := (e.copies v + 11) / 12
/-- A unit's copy is in a lap's pages: its index there. -/
def Extent.indexOf (v : Variant) (e : Extent) (u : Nat × Nat) : Option Nat :=
  match e.units.findIdx? (fun x => decide (x = u)) with
  | some i => some i
  | none =>
    let d := if e.allDiv then divUnits v else 0
    if u.1 = 3 ∧ e.allDiv then some (e.units.length + u.2)
    else if u.1 = 4 then some (e.units.length + d + u.2)
    else none
/-- The units whose copies a lap's page n holds; none of a directory page (R222). -/
def Extent.pageUnits (v : Variant) (e : Extent) (n : Nat) : List (Nat × Nat) :=
  ((List.range 12).filter (fun k => decide (12 * n + k < e.copies v))).map (fun k => e.unitAt v (12 * n + k))
/-- A place holds copies in force, of laps the newest last: the last copy of some unit, or a part of the last directory (R220, R223). -/
def liveIn (v : Variant) (ppa : Nat) : List Extent → Bool
  | [] => false
  | e :: later =>
    (match e.pages.findIdx? (fun q => decide (q = ppa)) with
     | some n => if n < e.copyPages v then
         (e.pageUnits v n).any (fun u => !(later.any (fun x => (x.indexOf v u).isSome)))
       else later.isEmpty
     | none => false) || liveIn v ppa later
/-- The laps of which some copy is still in force, the newest last. -/
def liveExtents (v : Variant) (l : List Extent) : List Extent :=
  l.foldr (fun e acc =>
    if acc.isEmpty || e.units.any (fun u => !(acc.any (fun x => (x.indexOf v u).isSome))) ||
        (e.allDiv && !(acc.any (fun x => x.allDiv))) then e :: acc else acc) []
/-- A checkpoint page holds copies of a completed lap in force, or of the lap that runs (R220, R224). -/
def State.lapPageValid (s : State) (ppa : Nat) : Bool :=
  s.map.lapNext.extents.any (fun e => e.pages.contains ppa) || liveIn s.ident.variant ppa s.map.ckpt.extents
/-- A checkpoint page has moved: the laps name its new place (R206, log entry 139). -/
def Extent.replace (old ppa : Nat) (e : Extent) : Extent := { e with pages := e.pages.map (fun q => if q = old then ppa else q) }

/-! ## The Sequence of a unit (R218, R221) -/

/-- A journal record changes a unit: its map segment, its part of the overlay index or of the divergence bitmap, its blocks' metadata
(R218). A LogPage record changes the slots that index its page and the segments of their grains; a LinePoison record changes no unit. -/
def State.touches (s : State) (u : Nat × Nat) (r : JRec) : Bool :=
  match r with
  | .mapSet g _ => decide (u = (1, segmentOf g))
  | .logPage ppa => s.map.overlay.any (fun kv => decide (kv.2.page = ppa) &&
      (decide (u = (2, kv.1 / 160)) || decide (u = (1, segmentOf (grainOf kv.2.line)))))
  | .groupState g _ _ _ => decide (u.1 = 4) && decide (g * 16 / 40 ≤ u.2) && decide (u.2 ≤ (g * 16 + 15) / 40)
  | .linePoison _ _ => false
  | .grainSpan f n _ => decide (u.1 = 1) && decide (n ≠ 0) && decide (segmentOf f ≤ u.2) && decide (u.2 ≤ segmentOf (f + n - 1))
  | .divergence f n _ => decide (u.1 = 3) && decide (n ≠ 0) && decide (f / 10240 ≤ u.2) && decide (u.2 ≤ (f + n - 1) / 10240)
  | .lapStart _ => false
  | .lapEnd _ _ => false
/-- The journal records before the LapStart of a lap, with their Sequences: the journal's last record has Sequence seq − 1. -/
def State.recordsBefore (s : State) (lap : Nat) : List (JRec × Nat) :=
  (s.map.journal.zipIdx.map (fun x => (x.1, (s.map.seq + 2 ^ 32 - s.map.journal.length + x.2) % 2 ^ 32))).takeWhile (fun x =>
    decide (x.1 ≠ .lapStart lap))
/-- The Sequence of the last record applied to a unit before a lap began (R221); 0 before its first. -/
def State.unitSeq (s : State) (lap : Nat) (u : Nat × Nat) : Nat :=
  match ((s.recordsBefore lap).filter (fun x => s.touches u x.1)).getLast? with
  | some x => x.2
  | none => Tab.get 0 s.map.ckpt.seqs (u.1 * 2 ^ 32 + u.2)
/-- The Sequences a completed lap leaves for the units it copied that a record has changed. -/
def State.lapSeqs (s : State) (c : Ckpt) : Tab Nat :=
  let metas : List (Nat × Nat) := ((s.recordsBefore c.lap).filterMap (fun x => match x.1 with
    | .groupState g _ _ _ => some [(4, g * 16 / 40), (4, (g * 16 + 15) / 40)]
    | _ => none)).foldl (· ++ ·) []
  (((c.extents.map (fun (e : Extent) => e.units)).foldl (· ++ ·) []) ++ metas).eraseDups.foldl (fun (t : Tab Nat) (u : Nat × Nat) =>
    Tab.set 0 t (u.1 * 2 ^ 32 + u.2) (s.unitSeq c.lap u)) s.map.ckpt.seqs

/-! ## Checkpoint pages (R222, R223) -/

/-- A unit of a checkpoint (R222). Block metadata has no layout in the spec: its bytes are open. -/
def State.unitBytes (s : State) (c : Ckpt) (u : Nat × Nat) : Bytes :=
  let v := s.ident.variant
  if u.1 = 1 then ((List.range 256).map (fun i => natLe 5 (Tab.get ({} : MapEntry) c.entries (u.2 * 256 + i)).word)).foldl (· ++ ·) []
  else if u.1 = 2 then ((List.range 160).map (fun i => natLe 8 (match Tab.look c.overlay (u.2 * 160 + i) with
    | some o => o.word v
    | none => 0))).foldl (· ++ ·) []
  else if u.1 = 3 then (List.range 1280).map (fun i => BitVec.ofNat 8 ((List.range 8).foldl (fun n b =>
    n + (if c.divAll != Tab.get false c.div (u.2 * 10240 + i * 8 + b) then 2 ^ b else 0)) 0))
  else (List.range 1280).map (fun i => Config.rawByte (2 ^ 42 + u.2) i c.lap)
/-- Unit d of a directory, of every type in turn (R223). -/
def dirUnit (v : Variant) (d : Nat) : Nat × Nat :=
  if d < mapUnits v then (1, d)
  else if d < mapUnits v + overlayUnits v then (2, d - mapUnits v)
  else if d < mapUnits v + overlayUnits v + divUnits v then (3, d - mapUnits v - overlayUnits v)
  else (4, d - mapUnits v - overlayUnits v - divUnits v)
/-- A directory entry (R223): the place of the unit's last copy, the running lap's among them; a unit no lap of the model has copied
since manufacture has an open entry. -/
def State.dirEntry (s : State) (c : Ckpt) (d : Nat) : Nat :=
  let v := s.ident.variant
  match (s.map.ckpt.extents ++ c.extents).reverse.findSome? (fun e => (e.indexOf v (dirUnit v d)).map (fun i => (e, i))) with
  | some (e, i) => e.pages.getD (i / 12) 0 + i % 12 * 2 ^ 34
  | none => Config.freeNat (2 ^ 80 + d) % 2 ^ 38
/-- The 16 KiB payload of a lap's page n in clear (R222). -/
def State.lapPayload (s : State) (c : Ckpt) (e : Extent) (n : Nat) : Bytes :=
  let v := s.ident.variant
  let copies := e.copyPages v
  let us : List (Nat × Nat) :=
    if n < copies then e.pageUnits v n
    else ((List.range 12).filter (fun k => decide (12 * (n - copies) + k < dirUnits v))).map (fun k => (5, 12 * (n - copies) + k))
  let desc := (us.map (fun u => natLe 1 u.1 ++ natLe 3 0 ++ natLe 4 u.2 ++
    natLe 4 (if u.1 = 5 then c.seq else s.unitSeq c.lap u))).foldl (· ++ ·) []
  let body := (us.map (fun u => if u.1 = 5 then ((List.range 160).map (fun k => natLe 8 (s.dirEntry c (160 * u.2 + k)))).foldl (· ++ ·) []
    else s.unitBytes c u)).foldl (· ++ ·) []
  (natLe 4 e.lap ++ natLe 1 us.length ++ natLe 3 0 ++ desc ++ natLe (1016 - 12 * us.length) 0 ++ body ++
    natLe (15360 - 1280 * us.length) 0)
/-- The payload of a lap's root page (R223): the lap number and S0, the directory's page count and groups, the page-generation
high-water, the groups Open at S0 and the allocation queue as quads of four groups. The spec gives the fields and no offsets: their
order and widths are a DESIGN CHOICE (log entry 140). -/
def State.rootPayload (s : State) (c : Ckpt) : Bytes :=
  let v := s.ident.variant
  let dir := (c.extents.map (fun e => e.pages.drop (e.copyPages v))).foldl (· ++ ·) []
  let gs := (dir.map ppaGroup).eraseDups
  let open' := c.opened.take 3000
  let b := natLe 4 c.lap ++ natLe 4 c.seq ++ natLe 4 dir.length ++ ((List.range 4).map (fun k => natLe 4 (gs.getD k 0xFFFFFFFF))).foldl (· ++ ·) []
    ++ natLe 8 c.genHigh ++ natLe 2 c.queue.length ++ natLe 2 open'.length ++ (c.queue.map (natLe 4)).foldl (· ++ ·) []
    ++ (open'.map (natLe 4)).foldl (· ++ ·) []
  b ++ natLe (16384 - b.length) 0
/-- A page's payload as its 256 lines. -/
def payloadLines (b : Bytes) : Tab Line :=
  (List.range 256).foldl (fun t j => Tab.set 0 t j (BitVec.ofNat 512 (leNat ((b.drop (64 * j)).take 64)))) []
/-- A checkpoint or root page with a payload (R191, R192, R222, R223): its Owner is the lap's number, that of a root page too (DESIGN
CHOICE, log entry 140). -/
def lapPage (kind lap gen : Nat) (payload : Bytes) : Page :=
  { gen := gen
    kind := kind
    owner := lap
    keyId := 0
    lines := payloadLines payload
    slots := []
    poison := []
    verified := false }

end Sys2Proof.Machine
end

