-- ==== Sys2Proof/Machine/Ripening.lean ====
section
/-!
DEFINITION. Ripeness classes, thermal doses and bands, the ripening table and what a soft decode adds to it (R124, R125,
R250 to R254); the DRAM controller's page policy and activate counting (R376, R377).
-/
namespace Sys2Proof.Machine

/-! ## Ripening -/

/-- Ripeness class of a program time (R124). -/
def State.ripeClass (s : State) (programTime : Nat) : Nat :=
  min 23 (Nat.log2 ((s.clk.ripe - programTime) / (60 * sec) + 1))
/-- A bound of `2210h.05 DoseBandBounds`, in hours. -/
def State.doseBound (s : State) (k : Nat) : Nat := bits (s.entry 0x2210 5) (32 * k + 31) (32 * k)
/-- The dose of a block in equivalent hours: its package's accumulator now less the value recorded (R250). -/
def State.doseHours (s : State) (pkg dose : Nat) : Nat := (Tab.get 0 s.care.doses pkg - dose) / 3600000
/-- Dose band (R251). -/
def State.doseBand (s : State) (pkg dose : Nat) : Nat :=
  ((List.range 7).filter (fun k => decide (s.doseBound k ≤ s.doseHours pkg dose))).length
/-- The key of a ripening cell. -/
def cellKey (pkg cls band : Nat) : Nat := (pkg * 24 + cls) * 8 + band
/-- The cell a page is read with (R124). -/
def State.cellOf (s : State) (ppa : Nat) : Nat :=
  let g := Tab.get {} s.media.groups (ppaGroup ppa)
  let pkg := packageOf (ppaDie ppa)
  cellKey pkg (s.ripeClass g.programTime) (s.doseBand pkg (Tab.get 0 g.dose pkg))
/-- The factory offsets of a cell (R252). -/
def factoryOffsets (key : Nat) : List Int := (List.range 15).map (fun k => Config.factoryOffset (key / 8 % 24) (key % 8) k)
/-- The offsets of a cell. -/
def State.offsetsOf (s : State) (key : Nat) : List Int :=
  match Tab.look s.care.cells key with
  | some c => if c.offsets = [] then factoryOffsets key else c.offsets
  | none => factoryOffsets key

/-- The references a die is read with under a cell's offsets: base_ref[k] + offset[k] for k from 1 to 15 (R124). -/
def State.refsOf (s : State) (die key : Nat) : List Int :=
  (s.offsetsOf key).mapIdx (fun k o => Config.baseRef die (k + 1) + o)

/-- A step-2 or step-4 soft decode of a page read with a cell's references: one learning sample for the cell, counted and
discarded while LearnEnable is 00h; the block's soft decodes count toward repour, a step-4 one at once (R253, R254). -/
def State.softDecoded (key ppa : Nat) (deep : Bool) (offsets : List Int) (s : State) : State :=
  let g := ppaGroup ppa
  let s1 := s.upCare (fun c => { c with
    cells :=
      let cell := Tab.get {} c.cells key
      Tab.put c.cells key { cell with
        samples := cell.samples + 1
        gathered := if s.entry 0x2210 6 = 0 then cell.gathered else cell.gathered ++ [offsets] } })
  s1.upMedia (fun m => { m with
    groups :=
      let grp := Tab.get {} m.groups g
      Tab.set {} m.groups g { grp with
        softs := grp.softs + 1
        deep := grp.deep || deep } })
/-- A codeword read of a page counts for its group (R254). -/
def State.codewordRead (ppa : Nat) (s : State) : State :=
  s.upMedia (fun m => { m with
    groups :=
      let grp := Tab.get {} m.groups (ppaGroup ppa)
      Tab.set {} m.groups (ppaGroup ppa) { grp with reads := grp.reads + 1 } })

/-- The gill domain of a media package (R394). -/
def gillOfPage (ppa : Nat) : Nat := 8 + packageOf (ppaDie ppa)

/-! ## Page policy and activate counting -/

/-- Count an activate of a row (R377): the tracked count, the neighbour refresh at each multiple of the threshold, and
2107h at eight thresholds, at most once per second. -/
def State.activate (sub bank row : Nat) (s : State) : State :=
  let k := sub * 32 + bank
  let t := Tab.get {} s.dram.acts k
  let thr := s.entry 0x2130 2
  let put := fun (rows : Tab Nat) (u : State) => u.upDram (fun d => { d with acts := Tab.put d.acts k { t with rows := rows } })
  let hit := fun (fresh : Bool) (n : Nat) (u : State) =>
    let u1 := if n % thr = 0 then (u.upDram (fun d => { d with refreshes := d.refreshes + 1 })).count (48 + sub / 2) 6 1 else u
    let recent := match u.dram.lastExcess with
      | some x => decide (u.clk.now < x + sec)
      | none => false
    if (n = 8 * thr ∨ (fresh ∧ 8 * thr ≤ n)) ∧ !recent then
      (u1.upDram (fun d => { d with lastExcess := some u.clk.now })).log 0x2107 (sub * 2 ^ 24 + bank * 2 ^ 18 + row)
    else u1
  let s1 := s.count (48 + sub / 2) 3 1
  match Tab.look t.rows row with
  | some n => hit false (n + 1) (put (Tab.put t.rows row (n + 1)) s1)
  | none =>
    if t.rows.length < 32 then hit true (t.spill + 1) (put (Tab.put t.rows row (t.spill + 1)) s1)
    else
      match t.rows.find? (fun kv => decide (kv.2 ≤ t.spill)) with
      | some (old, _) => hit true (t.spill + 1) (put (Tab.put (Tab.erase t.rows old) row (t.spill + 1)) s1)
      | none => s1.upDram (fun d => { d with acts := Tab.put d.acts k { t with spill := t.spill + 1 } })

/-- One access to a row of a bank (R376): a row that is not open is activated; the history moves, and the row stays open where another
access queued targets it or the page policy keeps it. Open rows are held as row + 1. -/
def State.dramAccess (sub bank row : Nat) (queued : Bool) (s : State) : State :=
  let k := sub * 32 + bank
  let hitRow := decide (Tab.get 0 s.dram.openRow k = row + 1)
  let s1 := (if hitRow then s.count (48 + sub / 2) 4 1 else s.activate sub bank row).upDram (fun d => { d with
    rowAccesses := d.rowAccesses + 1
    rowHits := if hitRow then d.rowHits + 1 else d.rowHits })
  let h := Tab.get 0 s.dram.hist k
  let h1 := if Tab.look s.dram.lastRow k = some row then min (h + 1) 3 else h - 1
  let policy := s.entry 0x2130 1
  let keep := queued || (decide (2 ≤ h1) && decide (policy = 0)) || decide (policy = 1)
  s1.upDram (fun d => { d with
    hist := Tab.set 0 d.hist k h1
    lastRow := Tab.put d.lastRow k row
    openRow := Tab.set 0 d.openRow k (if keep then row + 1 else 0) })

end Sys2Proof.Machine
end

