-- ==== Sys2Proof/Machine/Fetch.lean ====
section
/-!
DEFINITION. Fetches from below the tier: the state of the dies they read, the references chosen at the issue, direct reads,
hedged pairs and reconstructions, and the codewords one fetch needs (R118, R122, R124, R126, R129 to R133, R210, R226, R403).
-/
namespace Sys2Proof.Machine

/-! ## Dies (R129 to R133, R205) -/

/-- A die is failed and the rebuild of its pages has not moved them all (R133, R205, R206). -/
def State.dieFailed? (s : State) (die : Nat) : Bool :=
  decide (Tab.get 0 s.media.dieSt die = 1) || decide (Tab.get 0 s.media.dieSt die = 2)
/-- The row of a die has a failed die. -/
def State.rowFailed (s : State) (pos : Nat) : Bool := (List.range 16).any (fun c => s.dieFailed? (pos * 16 + c))
/-- The operation running on a die. -/
def State.opOn (s : State) (die : Nat) : Option (Nat × DieOp) := s.media.ops.find? (fun kv => decide (kv.2.die = die))
/-- A die is in a non-suspendable window (R129). -/
def State.inWindow (s : State) (die : Nat) : Bool :=
  match s.opOn die with
  | some (_, o) => o.inWindow
  | none => false
/-- A pass has reached its suspend limit: 8 suspensions or 100 µs (R131). -/
def DieOp.overLimit (o : DieOp) : Bool := decide (8 ≤ o.suspends) || decide (100000 ≤ o.suspendedNs)
/-- Windows of an operation (R184). -/
def DieOp.mostWindows (o : DieOp) : Nat := if o.passes ≠ 0 then 1 else if o.isReset then 8 else 4
/-- Another die of the row is unavailable: failed or in a window. -/
def State.rowBusy (s : State) (pos ch : Nat) : Bool :=
  (List.range 16).any (fun c => decide (c ≠ ch) && (s.dieFailed? (pos * 16 + c) || s.inWindow (pos * 16 + c)))

/-! ## The die bus of a channel (R184, R185, R428 to R431) -/

/-- Time from the issue of a read to its codeword in the die's buffer, ns (R184). -/
def senseNs : Nat := 3650
/-- Time a codeword holds the die bus, ns (R185). -/
def wordNs : Nat := 320
/-- Time a page's data holds the die bus on its way into a die, ns: eight codewords (R185). -/
def pageNs : Nat := 2560

/-- The leave number of a fetch's soft-decode burst on a channel (R127). -/
def burstId (miss ch : Nat) : Nat := (2 ^ 46 + miss) * 16 + ch
/-- A die lets a fetch's sensed codeword out: it is in no window, and its operation, if any, is suspended for the fetch
(R129, R131 to R133). -/
def State.dieServes (s : State) (id die : Nat) : Bool :=
  match s.opOn die with
  | some (_, o) => !o.inWindow && o.serving.contains id
  | none => true
/-- A codeword of a fetch on a channel may end its decode now: its soft burst, if it needs one, holds leave, and its die serves
it. -/
def State.channelServes (s : State) (m : Miss) (ch : Nat) : Bool :=
  s.dieServes m.id (ppaPos m.ppa * 16 + ch) && !(s.reg.waiting.any (fun l => decide (l.id = burstId m.id ch)))
/-- The target codeword may end its decode now: it is read, its direct half is no longer deferred, and its key is there. -/
def State.decodable (s : State) (m : Miss) : Bool :=
  m.readsTarget && m.keyWait.isNone && decide (m.direct ≠ .deferred) && s.channelServes m (ppaCh m.ppa)
/-- A fetch of a host read; its peers' codewords count with it (R431). -/
def Miss.host (m : Miss) : Bool := decide (m.kind ∈ [MissKind.demand, .side])
/-- A codeword of the fetch is sensed and waits for the die bus of a channel. -/
def State.sensedOn (s : State) (ch : Nat) (m : Miss) : Bool :=
  (decide (ppaCh m.ppa = ch) && s.decodable m && decide (m.since + senseNs ≤ s.clk.now)) ||
    (m.readsPeer ch && s.channelServes m ch &&
      m.peers.any (fun p => decide (p.ch = ch) && decide (p.st = .reading) && decide (p.since + senseNs ≤ s.clk.now)))
/-- The host reads whose codeword waits for a channel's die bus. -/
def State.hostWaits (s : State) (ch : Nat) : List Miss := s.slices.misses.filter (fun m => m.host && s.sensedOn ch m)
/-- An internal read or a program's data waits for a channel's die bus. -/
def State.innerWaits (s : State) (ch : Nat) : Bool :=
  s.slices.misses.any (fun m => !m.host && s.sensedOn ch m) ||
    s.media.ops.any (fun kv => decide (kv.2.die % 16 = ch) && !kv.2.loaded && !kv.2.host)
/-- Die-bus time of a channel in the present 100 µs. -/
def State.busNow (s : State) (ch : Nat) : BusUse :=
  let b := Tab.get {} s.media.bus ch
  if b.window = s.clk.now / 100000 then b else { window := s.clk.now / 100000 }
/-- Host reads have used their three quarters of the present 100 µs, and internal work has not had its quarter (R431). -/
def State.innerShare (s : State) (ch : Nat) : Bool :=
  decide (75000 ≤ (s.busNow ch).host) && decide ((s.busNow ch).inner < 25000)
/-- A host read may take the die bus: it goes ahead of internal work, but of the quarter that is due to it (R431). -/
def State.hostTurn (s : State) (ch : Nat) : Bool := !(s.innerWaits ch && s.innerShare ch)
/-- An internal read or a program's data may take the die bus (R431). -/
def State.innerTurn (s : State) (ch : Nat) : Bool := (s.hostWaits ch).isEmpty || s.innerShare ch
/-- The die bus of a channel is used for a time. -/
def State.useBus (ch : Nat) (host : Bool) (ns : Nat) (s : State) : State :=
  let b := s.busNow ch
  s.upMedia (fun m => { m with
    bus := Tab.put m.bus ch (if host then { b with host := b.host + ns } else { b with inner := b.inner + ns }) })
/-- The programs of a channel that have leave take their pages' data over the die bus when it is their turn. -/
def State.loadChannel (ch : Nat) (s : State) : State :=
  (s.media.ops.filter (fun kv => decide (kv.2.die % 16 = ch) && !kv.2.loaded)).foldl (fun t kv =>
    if kv.2.host || t.innerTurn ch then
      (t.upMedia (fun m => { m with ops := Tab.put m.ops kv.1 { kv.2 with loaded := true } })).useBus ch kv.2.host
        (pageNs * (t.media.passes.filter (fun p => p.started && decide (p.op = kv.1))).length)
    else t) s

/-- Urgency of a request of a class that arrived at a time (R430). -/
def State.urgencyOf (s : State) (c arrival : Nat) : Nat :=
  let age := s.clk.now - arrival
  let target := s.entry (0x2300 + c) 3
  let start := target * s.entry (0x2300 + c) 4 / 100
  if age ≤ start then 0 else if target ≤ age then 256 else 256 * (age - start) / (target - start)
/-- The class the deficit round robin of a point serves next among the classes waiting there, and the deficits after (R430, R432): a
class whose turn comes is served Weight requests. The points are the 32 slices, the 16 channels (32 to 47) and writeback (48). DESIGN
CHOICE: what one unit of Weight is and where the round robin starts are not given (log entry 159). -/
def State.nextClass (point : Nat) (s : State) (cs : List Nat) : Nat × State :=
  let c0 := Tab.get 15 s.reg.lastClass point
  let k := point * 16
  if cs.contains c0 && decide (0 < Tab.get 0 s.reg.deficit (k + c0)) then
    (c0, s.upReg (fun g => { g with deficit := Tab.set 0 g.deficit (k + c0) (Tab.get 0 g.deficit (k + c0) - 1) }))
  else
    match ((List.range 16).map (fun i => (c0 + 1 + i) % 16)).find? (fun c => cs.contains c) with
    | some c => (c, s.upReg (fun g => { g with
        lastClass := Tab.set 15 g.lastClass point c
        deficit := Tab.set 0 g.deficit (k + c) (s.entry (0x2300 + c) 5 - 1) }))
    | none => (c0, s)
/-- When the first request a fetch serves arrived at the port. -/
def State.missArrival (s : State) (m : Miss) : Nat :=
  ((s.reqs.list.filter (fun r => decide (r.line = m.line) && decide (r.stage = .attached))).map (fun r => r.arrival)).foldl min m.since
/-- m goes before q on a channel by urgency, then by class when asked, then by arrival (R430). -/
def State.missBefore (s : State) (byClass : Bool) (m q : Miss) : Bool :=
  let um := s.urgencyOf m.cls (s.missArrival m)
  let uq := s.urgencyOf q.cls (s.missArrival q)
  if um ≠ uq then decide (uq < um)
  else if byClass && decide (m.cls ≠ q.cls) then decide (m.cls < q.cls)
  else decide (s.missArrival m ≤ s.missArrival q)
/-- A host read takes the die bus of a channel next (R428, R430): no other that waits is before it: among the reads within share by
urgency, class and arrival, else in the class of the deficit round robin. None when it is not its turn. -/
def State.takesBus (m : Miss) (ch : Nat) (s : State) : Option State :=
  let others := (s.hostWaits ch).filter (fun q => decide (q.id ≠ m.id))
  if !s.hostTurn ch then none
  else if others.isEmpty then some s
  else if !m.pastShare then if (others.filter (fun q => !q.pastShare)).all (fun q => s.missBefore true m q) then some s else none
  else if others.any (fun q => !q.pastShare) then none
  else
    let (c, s1) := s.nextClass (32 + ch) (m.cls :: others.map (fun q => q.cls))
    if c = m.cls ∧ (others.filter (fun q => decide (q.cls = c))).all (fun q => s.missBefore false m q) then some s1 else none
/-- The codeword of a fetch on a channel takes the die bus, when it is its turn (R428, R430, R431). -/
def State.takeWord (m : Miss) (ch : Nat) (s : State) : Option State :=
  if m.host then (s.takesBus m ch).map (fun t => t.useBus ch true wordNs)
  else if s.innerTurn ch then some (s.useBus ch false wordNs)
  else none

/-- Wake a media channel (R36). -/
def State.wakeChannel (ch : Nat) (s : State) : State :=
  s.upMedia (fun m => { m with
    asleep := m.asleep.filter (fun c => c ≠ ch)
    lastOp := Tab.put m.lastOp ch s.clk.now })

/-! ## Reads at a die -/

/-- A read is queued for a die (R36, R130): its channel wakes, and its operation no longer requests the window token. -/
def State.queueRead (die : Nat) (s : State) : State :=
  (s.wakeChannel (die % 16)).upMedia (fun m => { m with
    tokenQueue := m.tokenQueue.filter (fun k => match Tab.look m.ops k with
      | some o => decide (o.die ≠ die)
      | none => true) })
/-- A die has served a fetch's read, or the read was given up: an operation suspended for it resumes once the reads it was
suspended for are served, and requests its token again when no read is queued for the die (R36, R130, R131). -/
def State.serveDie (id die : Nat) (s : State) : State :=
  let s1 := s.upMedia (fun m => { m with
    lastOp := Tab.put m.lastOp (die % 16) s.clk.now
    ops := m.ops.map (fun kv => if kv.2.die = die then
      (kv.1, { kv.2 with serving := kv.2.serving.filter (fun x => decide (x ≠ id)) }) else kv) })
  let s2 := match s1.opOn die with
    | some (k, o) =>
      if s1.readQueued die || o.inWindow || decide (o.mostWindows ≤ o.windows) || s1.media.tokenQueue.contains k then s1
      else s1.upMedia (fun m => { m with tokenQueue := m.tokenQueue ++ [k] })
    | none => s1
  s2.loadChannel (die % 16)
/-- The same of several dies. -/
def State.serveDies (id : Nat) (ds : List Nat) (s : State) : State := ds.foldl (fun t d => t.serveDie id d) s

/-! ## The miss table (R118, R373) -/

/-- Put an entry in place of the one with its id. -/
def State.setMiss (m : Miss) (s : State) : State :=
  s.upSlices (fun q => { q with misses := q.misses.map (fun x => if x.id = m.id then m else x) })
/-- An entry by its id. -/
def State.missById (s : State) (id : Nat) : Option Miss := s.slices.misses.find? (fun x => decide (x.id = id))
/-- What a fetch still reads is given up: its dies go on, and its bursts' leave ends (R127, R134). -/
def State.stopReads (m : Miss) (s : State) : State :=
  (s.upReg (fun g => { g with
    granted := g.granted.filter (fun l => decide (l.id / 16 ≠ 2 ^ 46 + m.id))
    waiting := g.waiting.filter (fun l => decide (l.id / 16 ≠ 2 ^ 46 + m.id)) })).serveDies m.id m.dies
/-- A fetch leaves (R118, R134). -/
def State.dropMiss (m : Miss) (s : State) : State :=
  (s.upSlices (fun q => { q with misses := q.misses.filter (fun x => x.id ≠ m.id) })).stopReads m
/-- The entry of a line, or the fill of its sector (R118, R373). -/
def State.missOf (s : State) (line : Nat) : Option Miss :=
  s.slices.misses.find? (fun x =>
    (decide (x.line = line) && decide (x.kind ∈ [MissKind.demand, .lock]) && !x.gathering) ||
    (decide (x.kind = .fill) && decide (sectorOf x.line = sectorOf line)))
/-- The entry that tracks a line's merge base (R361). -/
def State.baseOf (s : State) (line : Nat) : Option Miss :=
  s.slices.misses.find? (fun x => decide (x.kind = .merge) && decide (x.line = line))
/-- The fetch that fills a Filling sector (R373). -/
def State.fillOf (s : State) (sec : Nat) : Option Miss :=
  s.slices.misses.find? (fun x => decide (x.kind = .fill) && decide (sectorOf x.line = sec))
/-- The slice's miss table takes another entry (R118). -/
def State.missRoom (s : State) (line : Nat) : Bool := decide (s.missCount (sliceOfLine line) < 512)

/-- A line of a sector is written, or its grain changes: what is being fetched for it is older (R119, R123). -/
def State.overwritten (line : Nat) (s : State) : State :=
  s.upSlices (fun q => { q with
    misses := q.misses.map (fun m => if sectorOf m.line = sectorOf line then
      { m with written := m.written ||| ((1 : BitVec 32) <<< (line % 32)) } else m)
    prefetches := q.prefetches.map (fun kv => if kv.2.sector = sectorOf line then (kv.1, { kv.2 with written := true }) else kv) })
/-- The same of every line of a grain. -/
def State.overwrittenGrain (g : Nat) (s : State) : State :=
  s.upSlices (fun q => { q with
    misses := q.misses.map (fun m => if grainOf m.line = g then { m with written := BitVec.allOnes 32 } else m)
    prefetches := q.prefetches.map (fun kv => if kv.2.sector / 8 = g then (kv.1, { kv.2 with written := true }) else kv) })
/-- The fetch's line was written since its issue (R119). -/
def Miss.stale (m : Miss) : Bool := m.written.getLsbD (m.line % 32)

/-! ## Issue (R124, R126, R131 to R133) -/

/-- A fresh fetch: first decode step, nothing rebuilt, no hedge (R118, R125). -/
def newMiss (id line : Nat) (kind : MissKind) (cls ppa slot : Nat) : Miss :=
  { id := id
    line := line
    kind := kind
    cls := cls
    ppa := ppa
    slot := slot
    logged := false
    step := 1
    tgt := .reading
    recon := false
    direct := .none
    hedged := false
    keyWait := none
    pageIn := false
    policy := 0
    fillTier := true
    soft := false
    decodeRecon := false
    lastCrc := false
    cell := 0
    refs := []
    since := 0
    pastShare := false
    peers := []
    written := 0
    parts := []
    gathering := false
    parent := none
    ended := .reading }

/-- The channels that hold the other pages of a page's stripe, its XOR page among them (R132, R194, R196). -/
def State.stripePeers (s : State) (ppa : Nat) : List Nat :=
  (List.range 16).filter (fun c => decide (c ≠ ppaCh ppa) && (s.page? (groupPpa (ppaGroup ppa) c (ppaPage ppa))).isSome)
/-- The peers of a reconstruction at its issue: each on its own channel, at step 1, with its own references (R124, R125);
a failed die gives none. -/
def State.peersFor (s : State) (ppa : Nat) : List Peer :=
  (s.stripePeers ppa).map (fun c =>
    let q := groupPpa (ppaGroup ppa) c (ppaPage ppa)
    { ch := c
      step := 1
      st := if s.dieFailed? (ppaDie q) then .failed else .reading
      cell := s.cellOf q
      refs := s.refsOf (ppaDie q) (s.cellOf q)
      since := s.clk.now })
/-- A fetch with the references and the time of its issue (R124). -/
def State.withRefs (s : State) (m : Miss) : Miss :=
  { m with
    since := s.clk.now
    cell := s.cellOf m.ppa
    refs := s.refsOf (ppaDie m.ppa) (s.cellOf m.ppa) }
/-- A direct read of the target is issued: counted for a demand read, not for a codeword only its tier fill needs (R137, R504),
queued at its die. -/
def State.countDirect (m : Miss) (s : State) : State :=
  let t := s.queueRead (ppaDie m.ppa)
  if m.kind = .demand then
    (t.upRstats (fun r => { r with mediaReads := r.mediaReads + 1 })).count (32 + ppaCh m.ppa) 1 1
  else t
/-- The peers of a reconstruction are read, each on its own channel (R132, R504). -/
def State.countPeers (m : Miss) (s : State) : State :=
  (m.peers.filter (fun p => decide (p.st = .reading))).foldl (fun t p =>
    (t.queueRead (ppaPos m.ppa * 16 + p.ch)).count (32 + p.ch) 6 1) s
/-- Reconstruction starts for a die that is in its window, over its suspend limit, or failed (R137). -/
def State.busyRecon (m : Miss) (s : State) : State :=
  (s.upRstats (fun r => { r with busyRecon := r.busyRecon + 1 })).countPeers m

/-- Issue the read of a fetch's codeword (R124, R126, R131 to R133): by reconstruction from step 3 when its die has failed;
by reconstruction when the operation on the die is over its suspend limit and no other die of the row is unavailable; as
a hedged pair when the die is in its window, unless the row holds a failed die; else directly. -/
def State.issueRead (m0 : Miss) (s : State) : Miss × State :=
  let m := s.withRefs { m0 with pageIn := false }
  let pos := ppaPos m.ppa
  let ch := ppaCh m.ppa
  let die := ppaDie m.ppa
  let worn : Bool := match s.opOn die with
    | some (_, o) => !o.inWindow && o.overLimit && !s.rowBusy pos ch
    | none => false
  if s.dieFailed? die then
    let m1 := { m with
      recon := true
      step := 3
      tgt := .failed
      peers := s.peersFor m.ppa }
    (m1, s.busyRecon m1)
  else if worn then
    let m1 := { m with
      recon := true
      peers := s.peersFor m.ppa }
    (m1, s.busyRecon m1)
  else if s.inWindow die && !s.rowFailed pos then
    let m1 := { m with
      recon := true
      direct := .deferred
      hedged := true
      peers := s.peersFor m.ppa }
    (m1, (s.queueRead die).busyRecon m1)
  else (m, s.countDirect m)

/-! ## Where the codewords lie (R122, R210, R213) -/

/-- The map unit of a grain's segment is in DRAM (R226). -/
def State.unitResident (s : State) (unitType unit : Nat) : Bool :=
  s.map.resident || Tab.get false s.map.paged (unitType * 2 ^ 32 + unit)
/-- The overlay-index units that hold a grain's bucket and the 15 that follow, 20 buckets each (R214, R222). -/
def overlayUnitsOf (v : Variant) (g : Nat) : List Nat :=
  [ovBucket v g / 20, (ovBucket v g + 15) % 2 ^ v.overlayBits / 20]
/-- A line can be looked up now (R226): its map segment is in DRAM, and where its slice's filter sends it to the overlay index, the units
of its buckets are too. -/
def State.mapReady (s : State) (line : Nat) : Bool :=
  s.unitResident 1 (segmentOf (grainOf line)) && (!s.filterSays line ||
    (overlayUnitsOf s.ident.variant (grainOf line)).all (fun u => s.unitResident 2 u))

/-- The codeword of a page a slot lies in: 28 slots each in a line-log page, 32 in a grain page (R189, R211). -/
def State.codewordOf (s : State) (ppa slot : Nat) : Nat :=
  match s.page? ppa with
  | some p => ppa * 8 + (if p.kind = 2 then slot / 28 else slot / 32)
  | none => ppa * 8
/-- The distinct codewords among places, each by its first place. -/
def State.distinctWords (s : State) (l : List (Nat × Nat)) : List (Nat × Nat) :=
  l.foldl (fun acc w => if acc.any (fun x => decide (s.codewordOf x.1 x.2 = s.codewordOf w.1 w.2)) then acc else acc ++ [w]) []
/-- The log codewords that hold the sector's logged lines (R122). -/
def State.logWords (s : State) (sec : Nat) : List (Nat × Nat) :=
  s.distinctWords ((s.map.overlay.filter (fun kv => decide (sectorOf kv.2.line = sec))).map (fun kv => (kv.2.page, kv.2.slot)))
/-- Every codeword a whole sector of a mapped grain needs: its grain's and the log's (R122, R373). -/
def State.sectorWords (s : State) (sec : Nat) : List (Nat × Nat) :=
  s.distinctWords (((s.mapEntry (sec / 8)).page, sec % 8 * 32) :: s.logWords sec)
/-- The place a fetch looks up: a fill begins with its grain's codeword (R210, R373). -/
def State.placeOf (s : State) (kind : MissKind) (line : Nat) : Nat × Nat :=
  if kind = .fill then ((s.mapEntry (grainOf line)).page, line % 256)
  else
    match s.copyAt line with
    | some w => w
    | none => (0, 0)
/-- The key ID a page's slot was written under, for a page that is there. -/
def State.slotKeyAt (s : State) (ppa slot : Nat) : Nat :=
  match s.page? ppa with
  | some p => p.slotKey slot
  | none => 0
/-- The key a fetch's line waits for, when it is not in the key cache (R30, R403). -/
def State.keyWaitAt (s : State) (ppa slot : Nat) : Option Nat :=
  let k := s.slotKeyAt ppa slot
  if s.keys.cache.contains k then none else some k
/-- What a place on media holds under its key (R270). -/
def State.viewAt (s : State) (ppa slot : Nat) : Line :=
  match s.page? ppa with
  | none => 0
  | some p => s.keyView (p.slotKey slot) p.gen (p.slotData slot)
/-- A place whose key record is lost (R407). -/
def State.lostAt (s : State) (ppa slot : Nat) : Bool :=
  match s.page? ppa with
  | none => false
  | some p => s.keyLostFor (p.slotKey slot) p.gen

/-! ## The map cache (R22) -/

/-- The 64-byte block of map entries that a line's map lookup reads, in its slice's piece of the map cache: an entry has 40 bits
(R208, log entry 137). -/
def mapBlock (line : Nat) : Nat := sliceOfLine line * 2 ^ 40 + grainOf line * 5 / 64
/-- Blocks a slice's piece of the map cache holds: 192 KiB beside the 64 KiB of its overlay filter (R22, R216, log entry 137). -/
def mapBlocks : Nat := 3072
/-- The entry of a table used longest ago. -/
def oldestUse (t : Tab Nat) : Option (Nat × Nat) :=
  t.foldl (fun (b : Option (Nat × Nat)) kv =>
    match b with
    | none => some kv
    | some x => if kv.2 < x.2 then some kv else b) none
/-- A line's map entry is looked up: in the slice's piece of the map cache, else in DRAM, which brings its block into the piece, in
place of the one used longest ago when the piece is full (R22, R116, log entry 137). -/
def State.mapTouch (line : Nat) (s : State) : State :=
  let key := mapBlock line
  let mine := s.slices.mapCache.filter (fun kv => decide (kv.1 / 2 ^ 40 = sliceOfLine line))
  s.upSlices (fun q => { q with
    mapCache := Tab.put (if (Tab.look q.mapCache key).isSome then q.mapCache
      else match oldestUse mine with
        | some o => if mapBlocks ≤ mine.length then Tab.erase q.mapCache o.1 else q.mapCache
        | none => q.mapCache) key s.clk.now })

/-! ## Starting a fetch -/

/-- Add an entry and issue its read. -/
def State.sendWord (m : Miss) (s : State) : State :=
  let s1 := if m.keyWait.isSome then s.count 59 3 1 else s
  let (m1, s2) := s1.issueRead m
  s2.setMiss m1
/-- Add an entry under the next id. -/
def State.addMiss (m : Miss) (s : State) : State :=
  s.upSlices (fun q => { q with
    next := q.next + 1
    misses := q.misses ++ [{ m with id := q.next }] })
/-- Read one more codeword that a fetch's sector needs, in parallel (R122, R373). -/
def State.addPart (m : Miss) (w : Nat × Nat) (s : State) : State :=
  let id := s.slices.next
  let x := { newMiss id m.line .side m.cls w.1 w.2 with
    keyWait := s.keyWaitAt w.1 w.2
    pastShare := m.pastShare
    parent := some m.id }
  (s.addMiss x).sendWord x
/-- The other codewords a fetch reads: a fill every one its sector has; a demand read those of its sector's fill, unless
the logged lines lie in more than 4 log codewords (R122, R373). -/
def State.partsFor (s : State) (m : Miss) : List (Nat × Nat) :=
  if m.kind = .fill ∨ (m.kind = .demand ∧ m.fillTier) then
    (s.sectorWords (sectorOf m.line)).filter (fun w => decide (s.codewordOf w.1 w.2 ≠ s.codewordOf m.ppa m.slot))
  else []
/-- The map entry of a fetch's line is looked up, and its codewords are read (R118, R122, R210). -/
def State.lookUp (m : Miss) (s0 : State) : State :=
  let s := s0.mapTouch m.line
  let w := s.placeOf m.kind m.line
  let m1 := { m with
    ppa := w.1
    slot := w.2
    logged := decide (m.kind ≠ .fill) && (s.overlayOf m.line).isSome
    keyWait := s.keyWaitAt w.1 w.2
    pageIn := false
    fillTier := decide ((s.logWords (sectorOf m.line)).length ≤ 4) }
  let ps := s.partsFor m1
  let m2 := { m1 with parts := (List.range ps.length).map (fun i => s.slices.next + i) }
  ps.foldl (fun t p => t.addPart m2 p) (s.sendWord m2)
/-- Start the fetch of a line from below the tier (R118, R226): it waits for its map unit when that is not in DRAM. -/
def State.startFetch (line : Nat) (kind : MissKind) (cls policy : Nat) (pastShare : Bool) (s : State) : State :=
  let m := { newMiss s.slices.next line kind cls 0 0 with
    policy := policy
    pastShare := pastShare
    pageIn := !s.mapReady line }
  let s1 := s.addMiss m
  if s.mapReady line then s1.lookUp m else s1

end Sys2Proof.Machine
end

