-- ==== Sys2Proof/Machine/Cache.lean ====
section
/-!
DEFINITION. The front cache and the DRAM tier: replacement, moves to the tier, fills, the paths of full and partial
writes by cache policy, and merges (R119, R147, R148, R358 to R361, R370 to R374).
-/
namespace Sys2Proof.Machine

/-! ## Front-cache replacement (R358, R361) -/

/-- The tree bits after an access to a way: every node on its path points away from it. -/
def plruTouch (b : BitVec 15) (w : Nat) : BitVec 15 :=
  let step := fun (acc : BitVec 15 × Nat) (k : Nat) =>
    let right := w / 2 ^ k % 2 = 1
    (if right then acc.1 &&& ~~~ ((1 : BitVec 15) <<< acc.2) else acc.1 ||| ((1 : BitVec 15) <<< acc.2),
     2 * acc.2 + (if right then 2 else 1))
  ((step (step (step (step (b, 0) 3) 2) 1) 0)).1

/-- One node of the walk: follow the pointer unless its half holds no eligible way (R358). -/
def plruStep (b : BitVec 15) (elig : Nat → Bool) (acc : Nat × Nat) (half : Nat) : Nat × Nat :=
  let lo := acc.1
  let node := acc.2
  let inHalf := fun (start : Nat) => (List.range half).any (fun i => elig (start + i))
  let want := b.getLsbD node
  let right := if want then inHalf (lo + half) else !inHalf lo
  if right then (lo + half, 2 * node + 2) else (lo, 2 * node + 1)

/-- The victim way of a set (R358). -/
def plruWalk (b : BitVec 15) (elig : Nat → Bool) : Nat :=
  (plruStep b elig (plruStep b elig (plruStep b elig (plruStep b elig (0, 0) 8) 4) 2) 1).1

/-- The valid lines of a front-cache set. -/
def State.fcMembers (s : State) (key : Nat) : List (Nat × FcLine) :=
  s.fc.lines.filter (fun kx => decide (fcSetKey kx.1 = key))
/-- Mark a line most recent in its set. -/
def State.fcTouch (line : Nat) (s : State) : State :=
  match s.fcLine? line with
  | some x => s.upFc (fun c => { c with
      plru := Tab.set 0 c.plru (fcSetKey line) (plruTouch (Tab.get 0 c.plru (fcSetKey line)) x.way) })
  | none => s
/-- Invalidate a front-cache line. -/
def State.fcDrop (line : Nat) (s : State) : State := s.upFc (fun c => { c with lines := Tab.erase c.lines line })
/-- Write a front-cache line that is held. -/
def State.fcPut (line : Nat) (x : FcLine) (s : State) : State := s.upFc (fun c => { c with lines := Tab.put c.lines line x })

/-- A way free for allocation: an invalid way first, else the replacement victim among the eligible ways, with the line
it holds (R358, log entry 8). -/
def State.fcWay (s : State) (key : Nat) : Option (Nat × Option Nat) :=
  let ms := s.fcMembers key
  match (List.range 16).find? (fun w => ms.all (fun kx => decide (kx.2.way ≠ w))) with
  | some w => some (w, none)
  | none =>
    let ok := fun (w : Nat) => ms.any (fun kx => decide (kx.2.way = w) && !kx.2.locked && !kx.2.waiting)
    if (List.range 16).any ok then
      let w := plruWalk (Tab.get 0 s.fc.plru key) ok
      match ms.find? (fun kx => decide (kx.2.way = w)) with
      | some (l, _) => some (w, some l)
      | none => none
    else none

/-! ## The tier (R370 to R374) -/

/-- Every line of the sector is Clean. -/
def Sector.allClean (x : Sector) : Bool := decide (x.st = []) && !x.filling
/-- The code of a tier line's state in a tag entry (R372). -/
def TSt.code : TSt → Nat
  | .clean => 0
  | .dirty => 1
  | .merging => 2
  | .writing => 3
/-- The 128 bits of a sector's tag entry (R372). -/
def State.tagEntry (s : State) (sec : Nat) (x : Sector) : Nat :=
  let js := List.range 32
  (tierPlace s.ident.variant sec).2 * 2 ^ 114 + 2 ^ 113 + x.age % 8 * 2 ^ 110 + bit x.prefetched * 2 ^ 109 + bit x.filling * 2 ^ 108
    + (js.map (fun j => bit (Tab.get false s.map.poison (sec * 32 + j)) * 2 ^ j)).foldl (· + ·) 0 * 2 ^ 64
    + (js.map (fun j => (x.lineSt j).code * 2 ^ (2 * j))).foldl (· + ·) 0
/-- The valid sectors of a tier set. -/
def State.tierMembers (s : State) (key : Nat) : List (Nat × Sector) :=
  s.tier.sectors.filter (fun kx => decide (tierSetKey s.ident.variant kx.1 = key))
/-- Make a sector the most recent of its set (R372). -/
def State.tierTouch (sec : Nat) (s : State) : State :=
  match s.sector? sec with
  | none => s
  | some x =>
    let key := tierSetKey s.ident.variant sec
    s.upTier (fun t => { t with sectors := t.sectors.map (fun kx =>
      if kx.1 = sec then (kx.1, { kx.2 with age := 0 })
      else if tierSetKey s.ident.variant kx.1 = key ∧ kx.2.age < x.age then (kx.1, { kx.2 with age := kx.2.age + 1 })
      else kx) })
/-- Write a sector that is valid. -/
def State.putSector (sec : Nat) (x : Sector) (s : State) : State :=
  s.upTier (fun t => { t with sectors := Tab.put t.sectors sec x })
/-- Invalidate a sector. -/
def State.dropSector (sec : Nat) (s : State) : State := s.upTier (fun t => { t with sectors := Tab.erase t.sectors sec })

/-- A way of the sector's set that may take it: a free way, or the least recent sector whose lines are all Clean (R373). -/
def State.tierRoom (s : State) (sec : Nat) : Option (Nat × Option Nat) :=
  let ms := s.tierMembers (tierSetKey s.ident.variant sec)
  match (List.range 8).find? (fun w => ms.all (fun kx => decide (kx.2.way ≠ w))) with
  | some w => some (w, none)
  | none =>
    let clean := ms.filter (fun kx => kx.2.allClean)
    match clean.foldl (fun (best : Option (Nat × Sector)) kx =>
        match best with
        | none => some kx
        | some b => if b.2.age < kx.2.age then some kx else best) none with
    | some (l, x) => some (x.way, some l)
    | none => none

/-- Allocate a way for a sector that is absent; none when the set has no room (R373, R374). -/
def State.tierAlloc (sec : Nat) (x : Sector) (s : State) : Option State :=
  match s.tierRoom sec with
  | none => none
  | some (w, out) =>
    let s1 := match out with
      | some o => s.dropSector o
      | none => s
    some ((s1.putSector sec { x with way := w, age := 8 }).tierTouch sec)

/-- Queue a grain for writeback at a priority, keeping a higher one (R154). -/
def State.queueWb (g prio : Nat) (s : State) : State :=
  s.upBudget (fun b => { b with
    queued := match Tab.look b.queued g with
      | some p => Tab.put b.queued g (min p prio)
      | none => Tab.put b.queued g prio })

/-- A set with no sector whose lines are all Clean: start a writeback of a grain whose sector in it holds Dirty or Merging
lines (R154, R374). -/
def State.pressSet (sec : Nat) (s : State) : State :=
  match (s.tierMembers (tierSetKey s.ident.variant sec)).find? (fun kx =>
      kx.2.st.any (fun e => decide (e.2 = TSt.dirty) || decide (e.2 = TSt.merging))) with
  | some (k, _) => s.queueWb (k / 8) 1
  | none => s

/-- A merge of a Merging line is finished (R148, R182), its base good or lost. -/
def State.countMerge (lost : Bool) (s : State) : State :=
  s.upBudget (fun b => { b with
    merges := b.merges + 1
    mergesPoisoned := if lost then b.mergesPoisoned + 1 else b.mergesPoisoned })
/-- The bytes a merge takes below the enabled ones: 0 where the line is poisoned in memory (R148). -/
def State.baseBytes (s : State) (line : Nat) (d : Line) : Line := if s.poisoned line then 0 else d

/-- The content of a sector from below, for the lines not yet present (R119, R373): lines already written keep what
they hold, Merging lines are merged. -/
def State.completeSector (sec : Nat) (x : Sector) (s : State) : Sector :=
  let js := List.range 32
  { x with
    filling := false
    present := BitVec.allOnes 32
    data := js.foldl (fun t j =>
      if x.present.getLsbD j then
        if x.lineSt j = .merging then
          Tab.set 0 t j (mergeBytes (s.baseBytes (sec * 32 + j) (s.stored (sec * 32 + j))) (Tab.get 0 x.data j)
            (Tab.get 0 x.masks j))
        else t
      else Tab.set 0 t j (s.stored (sec * 32 + j))) x.data
    st := js.foldl (fun t j => if x.lineSt j = .merging then Tab.set .clean t j .dirty else t) x.st
    masks := [] }
/-- The Merging lines of a sector. -/
def Sector.mergingLines (x : Sector) (sec : Nat) : List Nat :=
  ((List.range 32).filter (fun j => decide (x.lineSt j = .merging))).map (fun j => sec * 32 + j)
/-- Reads that waited for a line return to the pail (R147, R289). -/
def State.wakeLine (line : Nat) (s : State) : State :=
  s.upReqs (fun q => { q with
    list := q.list.map (fun r => if r.line = line ∧ r.stage = .line then { r with stage := .pail } else r) })
/-- Reads attached to a sector's fill return to the pail. -/
def State.wakeSector (sec : Nat) (s : State) : State :=
  s.upReqs (fun q => { q with
    list := q.list.map (fun r => if sectorOf r.line = sec ∧ (r.stage = .line ∨ r.stage = .attached) then
      { r with stage := .pail } else r) })
/-- A Filling sector becomes whole: its Merging lines are merged and its readers go on (R119, R148, R373). -/
def State.fillSector (sec : Nat) (s : State) : State :=
  match s.sector? sec with
  | none => s.wakeSector sec
  | some x =>
    ((x.mergingLines sec).foldl (fun t l => t.countMerge (s.poisoned l)) (s.putSector sec (s.completeSector sec x))).wakeSector sec

/-- Issue the fill of a Filling sector (R373): a miss-table entry, which also brings the merge bases its lines still wait
for; a grain that is not mapped fills with zeros at once (R85); a full miss table lets it wait (R118). -/
def State.issueFill (sec : Nat) (s : State) : State :=
  if (s.sector? sec).isNone || (s.fillOf sec).isSome then s
  else if s.mapReady (sec * 32) && (s.copyAt (sec * 32)).isNone then s.fillSector sec
  else
    let s1 := (s.slices.misses.filter (fun m => decide (m.kind = .merge) && decide (sectorOf m.line = sec))).foldl
      (fun t m => t.dropMiss m) s
    if s1.missRoom (sec * 32) then s1.startFetch (sec * 32) .fill 15 0 false else s1
/-- Fetch the merge base of a Merging front-cache line (R118, R147, R361): not one the tier holds or its sector's fill
brings, nor that of a grain that is not mapped; a full miss table lets it wait. -/
def State.startBase (line : Nat) (s : State) : State :=
  if (s.sector? (sectorOf line)).isSome || (s.baseOf line).isSome || (s.mapReady line && (s.copyAt line).isNone) ||
      !s.missRoom line then s
  else s.startFetch line .merge 15 0 false

/-- Lines written to a sector's subchannel (R371, R504). -/
def State.dramWrote (sec n : Nat) (s : State) : State :=
  match s.sector? sec with
  | some x => s.count (48 + s.tierSub sec x.way / 2) 2 n
  | none => s
/-- Put a line into the tier in a state, with its bytes and mask; an absent sector is allocated Filling (R373). None
when the set has no room (R374). -/
def State.tierWrite (line : Nat) (d : Line) (st : TSt) (m : Mask) (s : State) : Option State :=
  let sec := sectorOf line
  let j := line % 32
  match s.sector? sec with
  | some x =>
    some (((s.putSector sec { x with
      present := x.present ||| ((1 : BitVec 32) <<< j)
      data := Tab.set 0 x.data j d
      st := Tab.set .clean x.st j st
      masks := Tab.set 0 x.masks j (if st = .merging then m else 0) }).tierTouch sec).dramWrote sec 1)
  | none =>
    let x : Sector :=
      { way := 0
        age := 0
        prefetched := false
        filling := true
        present := (1 : BitVec 32) <<< j
        data := Tab.set 0 [] j d
        st := Tab.set .clean [] j st
        masks := Tab.set 0 [] j (if st = .merging then m else 0) }
    match s.tierAlloc sec x with
    | some t => some ((t.issueFill sec).dramWrote sec 1)
    | none => none

/-- Move a Modified or Merging front-cache line to the tier (R361); the line leaves the front cache. None when it must
wait for a sector. -/
def State.moveToTier (line : Nat) (x : FcLine) (s : State) : Option State :=
  match x.st with
  | .unmodified => some (s.fcDrop line)
  | .modified =>
    match s.tierWrite line x.data .dirty 0 with
    | some t => some (t.fcDrop line)
    | none => none
  | .merging =>
    match s.tierLine? line with
    | some base =>
      match s.tierWrite line (mergeBytes (s.baseBytes line base) x.data x.mask) .dirty 0 with
      | some t => some (((t.countMerge (s.poisoned line)).fcDrop line).wakeLine line)
      | none => none
    | none =>
      match s.tierWrite line x.data .merging x.mask with
      | some t => some (t.fcDrop line)
      | none => none

/-- Find a way for a front-cache line (R358, R361), up to a number of tries: a line chosen that cannot move waits in its way, which is
eligible no longer, and the next is chosen. -/
def State.fcTry (line : Nat) (st : FcSt) (d : Line) (m : Mask) : Nat → State → Bool × State
  | 0, s => (false, s)
  | n + 1, s =>
    match s.fcWay (fcSetKey line) with
    | none => (false, s)
    | some (w, out) =>
      let put := fun (t : State) => (t.fcPut line ⟨w, st, d, m, false, false, false⟩).fcTouch line
      match out with
      | none => (true, put s)
      | some o =>
        match s.fcLine? o with
        | none => (false, s)
        | some x =>
          match s.moveToTier o x with
          | some t => (true, put t)
          | none => State.fcTry line st d m n ((s.fcPut o { x with waiting := true }).pressSet (sectorOf o))
/-- Allocate a front-cache line in its set, replacing an eligible line (R358, R361). The flag is false when the set takes
no new allocation. -/
def State.fcAlloc (line : Nat) (st : FcSt) (d : Line) (m : Mask) (s : State) : Bool × State := State.fcTry line st d m 16 s

/-- Update a front-cache copy that is held, keeping its state (R360). -/
def State.fcUpdate (line : Nat) (d : Line) (s : State) : State :=
  match s.fcLine? line with
  | some x => s.fcPut line { x with data := d }
  | none => s

/-- The front cache takes allocations: enabled and not draining (R369). -/
def State.fcOpen (s : State) : Bool := s.fc.enabled && !s.fc.disabling

/-- The policy an access is carried out under: policy 02h while the front cache is disabled or drains (R369). -/
def State.policyNow (s : State) (p : Nat) : Nat := if s.fcOpen then p else 2

/-! ## Writes (R146, R147, R360) -/

/-- A front-cache line takes a write while the tier holds a copy in flight: that copy is stale and the line is Dirty
(R151). -/
def State.staleCopy (line : Nat) (s : State) : State :=
  match s.sector? (sectorOf line) with
  | some x =>
    if x.lineSt (line % 32) = .writing then
      s.putSector (sectorOf line) { x with st := Tab.set .clean x.st (line % 32) .dirty }
    else s
  | none => s
/-- A full line in the front cache cancels the line's merge in the tier (R147, R151). -/
def State.cancelMerge (line : Nat) (d : Line) (s : State) : State :=
  match s.sector? (sectorOf line) with
  | some x =>
    if x.lineSt (line % 32) = .merging then
      s.putSector (sectorOf line) { x with
        data := Tab.set 0 x.data (line % 32) d
        st := Tab.set .clean x.st (line % 32) .dirty
        masks := Tab.set 0 x.masks (line % 32) 0 }
    else s
  | none => s
/-- A line Merging in the tier that is now Merging in the front cache: its pending bytes and mask move up, under the newer
bytes, and the tier's fill brings its base (R147, R151). -/
def State.pullMerge (line : Nat) (s : State) : State :=
  match s.sector? (sectorOf line), s.fcLine? line with
  | some x, some y =>
    if x.lineSt (line % 32) = .merging then
      (s.fcPut line { y with
        data := mergeBytes (Tab.get 0 x.data (line % 32)) y.data y.mask
        mask := y.mask ||| Tab.get 0 x.masks (line % 32) }).putSector (sectorOf line) { x with
          present := x.present &&& ~~~ ((1 : BitVec 32) <<< (line % 32))
          data := Tab.set 0 x.data (line % 32) 0
          st := Tab.set .clean x.st (line % 32) .clean
          masks := Tab.set 0 x.masks (line % 32) 0 }
    else s
  | _, _ => s

/-- A full-line write through the tier: Dirty there, and the front-cache copy updated or, under policy 01h, allocated as
Unmodified. None when the tier has no room. -/
def State.writeThrough (line : Nat) (d : Line) (p : Nat) (s : State) : Option State :=
  match s.tierWrite line d .dirty 0 with
  | none => none
  | some t =>
    match t.fcLine? line with
    | some x => some (t.fcPut line { x with st := .unmodified, data := d, mask := 0, through := false, waiting := false })
    | none => if p = 1 then some (t.fcAlloc line .unmodified d 0).2 else some t

/-- A partial write under policy 01h or 02h (R147, R360): merged at once when the tier or front cache holds the line,
otherwise Merging in the tier. A line still Modified is merged and written through; one still Merging overlays. -/
def State.partialThrough (line : Nat) (d : Line) (m : Mask) (p : Nat) (s : State) : Option State :=
  match s.fcLine? line with
  | some x =>
    match x.st with
    | .merging => some (s.fcPut line { x with
        data := mergeBytes x.data d m
        mask := x.mask ||| m
        through := true })
    | _ => s.writeThrough line (mergeBytes (s.baseBytes line x.data) d m) p
  | none =>
    match s.tierLine? line with
    | some old => s.tierWrite line (mergeBytes (s.baseBytes line old) d m) .dirty 0
    | none =>
      match s.sector? (sectorOf line) with
      | some x =>
        if x.lineSt (line % 32) = .merging then
          s.tierWrite line (mergeBytes (Tab.get 0 x.data (line % 32)) d m) .merging (Tab.get 0 x.masks (line % 32) ||| m)
        else s.tierWrite line d .merging m
      | none => s.tierWrite line d .merging m

/-- A full-line write by policy (R360): a set that takes no allocation is written as under policy 01h (R361). -/
def State.writeFull (line : Nat) (d : Line) (policy : Nat) (s : State) : Option State :=
  let own := fun (t : State) => (t.staleCopy line).cancelMerge line d
  if s.policyNow policy = 0 then
    match s.fcLine? line with
    | some x => some (own ((s.fcPut line { x with st := .modified, data := d, mask := 0, through := false }).fcTouch line))
    | none =>
      match s.fcAlloc line .modified d 0 with
      | (true, t) => some (own t)
      | (false, t) => t.writeThrough line d 1
  else s.writeThrough line d (s.policyNow policy)

/-- A partial write by policy (R147, R360): a line that becomes Merging in the front cache takes over what is pending in the
tier, and its base is fetched. -/
def State.writePartial (line : Nat) (d : Line) (m : Mask) (policy : Nat) (s : State) : Option State :=
  if s.policyNow policy = 0 then
    match s.fcLine? line with
    | some x =>
      match x.st with
      | .merging => some ((s.fcPut line { x with data := mergeBytes x.data d m, mask := x.mask ||| m }).fcTouch line)
      | _ => some (((s.fcPut line { x with st := .modified, data := mergeBytes (s.baseBytes line x.data) d m }).fcTouch
          line).staleCopy line)
    | none =>
      match s.fcAlloc line .merging d m with
      | (true, t) => some (((t.pullMerge line).staleCopy line).startBase line)
      | (false, t) => t.partialThrough line d m 1
  else s.partialThrough line d m (s.policyNow policy)

/-- Apply a write to its line (R146, R287): its bytes land by policy, and what is being fetched for the line is older
(R119); a full line clears poison and cancels a merge, a poisoned write poisons the line (R397), and reservations on the line
end (R297). None when the line must wait for a tier sector. -/
def State.applyWrite (line : Nat) (d : Line) (m : Mask) (poison : Bool) (policy : Nat) (s : State) : Option State :=
  let r := if m = fullMask then s.writeFull line d policy else s.writePartial line d m policy
  match r with
  | none => none
  | some t =>
    let t0 := t.overwritten line
    let t1 := if m = fullMask then (t0.unpoison line).wakeLine line else t0
    let t2 := if poison then t1.poison line else t1
    some ((t2.markSole (grainOf line)).intervene line)

/-- A write is charged when it takes its line out of the Invalid or Clean state; a line that is Dirty, Merging or Writing
needs no charge (R152, R153). -/
def State.chargeFor (line : Nat) (s : State) : State := if s.isDirty line then s else s.charge line

/-! ## Reads and merges -/

/-- Fill the front cache with a line taken from the tier or below, as Unmodified, when its policy and the cache allow
(R119, R120, R359). -/
def State.fcFill (line : Nat) (d : Line) (policy : Nat) (s : State) : State :=
  if s.policyNow policy = 2 then s
  else
    match s.fcLine? line with
    | some _ => s
    | none => (s.fcAlloc line .unmodified d 0).2

/-- Fill the tier with a sector read from below (R119, R122): a valid sector keeps what was written. A set without room
skips the fill (R374). -/
def State.tierFill (sec : Nat) (pf : Bool) (s : State) : State :=
  match s.sector? sec with
  | some x => if x.filling then (s.fillSector sec).dramWrote sec 32 else s
  | none =>
    let empty : Sector := ⟨0, 0, pf, false, 0, [], [], []⟩
    match s.tierAlloc sec { s.completeSector sec empty with prefetched := pf } with
    | some t => t.dramWrote sec 32
    | none => s.upTier (fun t => { t with fillsSkipped := t.fillsSkipped + 1 })

/-- The merged content of a Merging front-cache line: the line is Modified, or, after a write under policy 01h or 02h, it is
written to the tier and Unmodified, waiting for a sector where the tier has none (R360). -/
def State.fcMerged (line : Nat) (x : FcLine) (base : Line) (s : State) : State :=
  let d := mergeBytes base x.data x.mask
  let y := { x with
    data := d
    mask := 0
    through := false }
  if x.through then
    match s.tierWrite line d .dirty 0 with
    | some t => t.fcPut line { y with st := .unmodified }
    | none => (s.fcPut line { y with
        st := .modified
        waiting := true }).pressSet (sectorOf line)
  else s.fcPut line { y with st := .modified }
/-- Finish a merge with its base (R148), counted once for each cache that held the line Merging; the line's readers go on. -/
def State.mergeWith (line : Nat) (base : Line) (s : State) : State :=
  let bad := s.poisoned line
  let s1 := match s.fcLine? line with
    | some x => if x.st = FcSt.merging then (s.fcMerged line x base).countMerge bad else s
    | none => s
  let s2 := match s1.sector? (sectorOf line) with
    | some x =>
      if x.lineSt (line % 32) = TSt.merging then
        (s1.putSector (sectorOf line) { x with
          data := Tab.set 0 x.data (line % 32) (mergeBytes base (Tab.get 0 x.data (line % 32)) (Tab.get 0 x.masks (line % 32)))
          st := Tab.set .clean x.st (line % 32) .dirty
          masks := Tab.set 0 x.masks (line % 32) 0 }).countMerge bad
      else s1
    | none => s1
  s2.wakeLine line
/-- A line is poisoned, with its event unless it was poisoned before (R58, R125), its record of a transaction type (R77). -/
def State.poisonBy (trans line code : Nat) (s : State) : State :=
  if s.poisoned line then s else (s.poison line).logBy trans 0xFFFF code (line * 64)
/-- The same where no request is served. -/
def State.poisonNow (line code : Nat) (s : State) : State := s.poisonBy (transOf code) line code
/-- A merge whose base is lost (R148): its bytes are kept, the others are 0, the line is poisoned, and the event names it. -/
def State.mergeLost (line code : Nat) (s : State) : State := (s.poisonNow line code).mergeWith line 0
/-- A Merging line takes its base from media: no cache holds it, and it has a copy there (R148). -/
def State.needsBase (s : State) (line : Nat) : Bool := s.isMerging line && (s.tierLine? line).isNone && (s.copyAt line).isSome
/-- Merge a line now, its base read from the tier or media (R148, R161, R163, R168): a base on media that failed every step stands in
`lost` with its event (R125). -/
def State.mergeNow (lost : List (Nat × Nat)) (line : Nat) (s : State) : State :=
  if !s.isMerging line then s
  else
    match (lost.find? (fun x => decide (x.1 = line))).filter (fun _ => s.needsBase line) with
    | some (_, code) => s.mergeLost line code
    | none => s.mergeWith line (s.baseBytes line (match s.tierLine? line with
      | some d => d
      | none => s.stored line))

/-- A line's front-cache copy goes, and its tier copy, when its sector is there, becomes Clean with a content; its charge is returned,
and what is being fetched for it is older (R119, R151). -/
def State.settleLine (line : Nat) (d : Line) (s : State) : State :=
  let s1 := (((s.fcDrop line).release line).overwritten line).wakeLine line
  match s1.sector? (sectorOf line) with
  | some x => s1.putSector (sectorOf line) { x with
      data := Tab.set 0 x.data (line % 32) d
      st := Tab.set .clean x.st (line % 32) .clean
      masks := Tab.set 0 x.masks (line % 32) 0 }
  | none => s1

/-- Drop what the caches hold of a line beyond media: it is again what its media copy holds (R111, R164, R267). -/
def State.dropLine (line : Nat) (s : State) : State := s.settleLine line (s.stored line)

/-- Drop every cached line and sector of a grain, with charges returned (R111, R267). -/
def State.dropGrain (g : Nat) (s : State) : State :=
  let ls := s.fc.lines.filter (fun kx => decide (grainOf kx.1 = g))
  let cs := s.budget.charged.filter (fun kx => decide (grainOf kx.1 = g))
  let s1 := (((s.upFc (fun c => { c with lines := Tab.filterKV (fun k _ => decide (grainOf k ≠ g)) c.lines })).upTier
    (fun t => { t with sectors := Tab.filterKV (fun k _ => decide (k / 8 ≠ g)) t.sectors })).releaseAll
      (ls.map (fun kx => kx.1))).releaseAll (cs.map (fun kx => kx.1))
  (s1.overwrittenGrain g).upReqs (fun q => { q with
    list := q.list.map (fun r => if grainOf r.line = g ∧ r.stage = .line then { r with stage := .pail } else r) })

/-- A line of a writeback can enter the Writing state now: its tier sector is there, or its set has room (R161, R374). -/
def State.takable (s : State) (line : Nat) : Bool :=
  (s.sector? (sectorOf line)).isSome || (s.tierRoom (sectorOf line)).isSome
/-- Take a line of a writeback into the Writing state (R151, R161): a Merging line is merged first, a front-cache line is
written to the tier, where the copy in flight is tracked. -/
def State.takeLine (lost : List (Nat × Nat)) (line : Nat) (s : State) : State :=
  let s1 := s.mergeNow lost line
  let d := s1.current line
  match s1.tierWrite line d .writing 0 with
  | some t =>
    match t.fcLine? line with
    | some x => t.fcPut line { x with
        st := .unmodified
        waiting := false }
    | none => t
  | none => s1

/-- A Writing line whose page passed verify becomes Clean and its charge is returned (R151). -/
def State.releaseLine (line : Nat) (s : State) : State :=
  match s.sector? (sectorOf line) with
  | some x =>
    if x.lineSt (line % 32) = .writing then
      (s.putSector (sectorOf line) { x with st := Tab.set .clean x.st (line % 32) .clean }).release line
    else s
  | none => s

/-- A Writing line whose program failed returns to Dirty and keeps its charge (R151, R164). -/
def State.returnLine (line : Nat) (s : State) : State :=
  match s.sector? (sectorOf line) with
  | some x =>
    if x.lineSt (line % 32) = .writing then
      s.putSector (sectorOf line) { x with st := Tab.set .clean x.st (line % 32) .dirty }
    else s
  | none => s

/-- The request is a write that was admitted and waits to be applied: for a tier sector, or its set's miss slot. -/
def Req.admitted (r : Req) : Bool :=
  decide (r.stage = .sector) || (decide (r.stage = .missSlot) && decide (r.kind ∈ [ReqKind.write, .condWrite]))
/-- A write discarded while it waits to be applied gives back the charge it was admitted with, unless its line is dirty
from an earlier write (R151, R181). -/
def State.uncharge (r : Req) (s : State) : State := if r.admitted && !s.isDirty r.line then s.release r.line else s

/-! ## Completion (R143, R158, R181) -/

/-- A write has been applied: the order it was applied in. -/
def State.noteApplied (id : Nat) (s : State) : State :=
  s.upReqs (fun q => { q with
    next := q.next + 1
    list := q.list.map (fun r => if r.id = id then { r with applied := q.next } else r) })
/-- Complete a write at its completion point: at once, or in program-acknowledged mode once its line's page has verified,
with its grain taken into writeback at the highest priority (R154, R158). A completion there ends the Prepared state. -/
def State.completeWrite (r : Req) (s : State) : State :=
  if !s.pwr.armed ∧ s.isDirty r.line then ((s.queueWb (grainOf r.line) 0).noteApplied r.id).stageReq r.id .program
  else s.answer r .complete
/-- What a line holds before a write. -/
def State.lineBefore (s : State) (line : Nat) : Before := ⟨s.current line, s.poisoned line, s.isDirty line⟩
/-- Keep with a write that is not yet complete what its line held before it (R181). -/
def State.keepBefore (id : Nat) (b : Before) (s : State) : State :=
  s.upReqs (fun q => { q with list := q.list.map (fun r => if r.id = id then { r with before := some b } else r) })
/-- A line is again what it was before a write, in the cache that holds it, or with media current (R39, R181). -/
def State.undoLine (line : Nat) (b : Before) (s : State) : State :=
  let s1 := if !b.dirty then s.settleLine line b.data
    else
      match s.fcLine? line with
      | some x => (s.fcPut line { x with
          st := .modified
          data := b.data
          mask := 0
          through := false }).cancelMerge line b.data
      | none =>
        match s.sector? (sectorOf line) with
        | some x => s.putSector (sectorOf line) { x with
            data := Tab.set 0 x.data (line % 32) b.data
            st := Tab.set .clean x.st (line % 32) .dirty
            masks := Tab.set 0 x.masks (line % 32) 0 }
        | none => s
  if b.poison then s1.poison line else s1.unpoison line
/-- Discard a write that was applied and never completed (R39, R181). -/
def State.undoWrite (r : Req) (s : State) : State :=
  match r.before with
  | none => s
  | some b => s.undoLine r.line b
/-- The request a flight carries. -/
def State.flightReq (s : State) (f : Flight) : Option Req :=
  match f.req with
  | some id => s.reqs.list.find? (fun r => decide (r.id = id))
  | none => none
/-- Discard the writes in flight across the yoke that this module has applied as their home, the latest first: those it mirrored, and
those whose lines are pending (R181, R332). -/
def State.undoFlights (s : State) : State :=
  s.yoke.flights.foldr (fun f t =>
    match f.before, s.flightReq f with
    | some b, _ => t.undoLine f.line b
    | none, some r => t.undoWrite r
    | none, none => t) s
/-- The writes applied and not complete are discarded at a controller reset, the latest first (R39, R181). -/
def State.undoAll (s : State) : State := s.reqs.list.foldr (fun r t => t.undoWrite r) s.undoFlights

end Sys2Proof.Machine
end

