-- ==== Sys2Proof/Machine/Membership.lean ====
section
/-!
DEFINITION. Membership of a yoked pair: the payload every liveness message carries, entry to a state, standing down, and
how the work held in Suspect ends (R309 to R314, R328 to R334).
-/
namespace Sys2Proof.Machine

/-! ## Messages -/

/-- Firmware compatibility level of the slot in force (R413). -/
def State.compat (s : State) : Nat := if s.fw.current = 0 then s.fw.slot0.compat else s.fw.slot1.compat

/-- The membership payload this module would send with a sequence number (R328). -/
def State.payload (s : State) (sequence : Nat) : Membership :=
  { pairId := s.entryInForce 0x4100 4
    serial := s.ident.serial
    pairEpoch := s.yoke.record.pairEpoch
    baseEpoch := s.yoke.record.baseEpoch
    state := s.yoke.member
    staleSelf := s.yoke.record.staleSelf
    brine := decide (s.care.brine = 3)
    positionB := decide (s.position = 1)
    senior := s.senior
    serving := servingSt s.yoke.member
    deviceId := s.ident.variant.deviceId
    compat := s.compat
    lastRole := s.yoke.record.lastRole
    sequence := sequence }

/-- The 32 bytes of a membership payload (R328). -/
def membershipBytes (m : Membership) : Bytes :=
  natLe 8 m.pairId ++ natLe 8 m.serial ++ natLe 4 m.pairEpoch ++ natLe 4 m.baseEpoch ++ natLe 1 m.state
  ++ natLe 1 (16 * bit m.staleSelf + 8 * bit m.brine + 4 * bit m.positionB + 2 * bit m.senior + bit m.serving)
  ++ natLe 2 m.deviceId ++ natLe 2 m.compat ++ natLe 1 m.lastRole ++ natLe 1 m.sequence

/-- The yoke link is up: trained and not silent. -/
def State.yokeUp (s : State) : Bool := decide (s.yoke.speed ≠ 0) && !s.yoke.silent

/-- Send a message that carries the membership payload on the yoke: Heartbeat 0Bh, Hello 0Ch, StandDown 0Dh (R319). -/
def State.sendMember (ty : Nat) (s : State) : State :=
  (s.send { ty := ty, body := membershipBytes (s.payload s.yoke.hbSeq) }).upYoke (fun y => { y with hbSeq := (y.hbSeq + 1) % 256 })

/-- The frequency at which this module drives the alive wire, in Hz (R325, R329): 1 kHz while it serves, 125 Hz otherwise, nothing
while its keeper has no power (R326). -/
def State.wireHz (s : State) : Nat := if !s.keeperOn then 0 else if servingSt s.yoke.member then 1000 else 125

/-- The MCTP vendor-defined message of a Pulse (R327): Galkeyr's PCI vendor ID, message code 10h, the membership payload. PRESUMED: the
message type byte 7Eh, and the ID with its high byte first, are MCTP's own (log entry 158). -/
def pulseMessage (body : Bytes) : Bytes := natLe 1 0x7E ++ (natLe 2 Config.vendorId.toNat).reverse ++ natLe 1 0x10 ++ body

/-- The message number the model gives a Pulse, which travels on the management route and has no yoke type (R327). -/
def pulseTy : Nat := 0x100

/-- Send a Pulse over the management route, when it has an endpoint (R327). -/
def State.sendPulse (s : State) : State :=
  if s.entry 0x4100 5 = 0 then s
  else (s.send { ty := pulseTy, aux := s.entry 0x4100 5, body := membershipBytes (s.payload s.yoke.pulseSeq) }).upYoke (fun y =>
    { y with pulseSeq := (y.pulseSeq + 1) % 256 })

/-- Write the membership record into parameter memory (R311). -/
def State.writeRecord (f : MemberRec → MemberRec) (s : State) : State :=
  ((s.upYoke (fun y => { y with record := f y.record })).save 18).measure 7

/-- Enter a membership state; a change of state sends a Pulse at once (R325). -/
def State.setMember (m : Nat) (s : State) : State :=
  if s.yoke.member = m then s
  else (s.upYoke (fun y => { y with member := m, prev := y.member })).sendPulse

/-- Forget the writes in flight, the writes held and the resync copies under way. -/
def Yoke.dropWork (y : Yoke) : Yoke :=
  { y with
    flights := []
    owed := y.held.foldl (fun t m => Tab.set 0 t (creditClass m.ty) (Tab.get 0 t (creditClass m.ty) + 1)) y.owed
    held := []
    outWait := []
    sectors := []
    sectorPoison := []
    sectorGot := []
    readWait := []
    resyncSent := []
    clearWait := [] }

/-- The same at this module, with the reads the peer has forwarded (R136). -/
def State.dropWork (s : State) : State :=
  (s.upYoke Yoke.dropWork).upReqs (fun q => { q with list := q.list.filter (fun r => !r.fromPeer) })

/-! ## Ending the work in flight (R297, R332, R333) -/

/-- Clear every reservation (R297): the next conditional write receives Cleared. -/
def State.clearReservations (s : State) : State := s.endRes (fun _ => true) 8

/-- Mark the grains of every write in flight across the yoke, sent and not acknowledged or received and not yet carried out,
and of a grain change received and not yet carried out (R333). -/
def State.markFlights (s : State) : State :=
  let t := s.yoke.flights.foldl (fun t f => t.mark (grainOf f.line)) s
  s.yoke.held.foldl (fun u m =>
    if m.ty = 1 ∨ m.ty = 2 then u.mark (grainOf m.num) else if m.ty = 0x14 then u.mark m.num else u) t

/-- One held request when the module becomes Sole (R332): a write already applied here is completed, a write not yet
applied is ordered here, a read is served; a forwarded read of a grain that is stale here is answered with poison. A conditional write
whose order was awaited fails with Cleared (R353). -/
def State.heldToSole (r : Req) (s : State) : State :=
  if r.stage = .suspect ∨ r.stage = .line then s.stageReq r.id .pail
  else if r.stage = .forwarded then
    if s.yoke.record.staleSelf && s.marked (grainOf r.line) then s.answer r .poison else s.stageReq r.id .pail
  else if r.stage = .peer then
    if (s.yoke.flights.any (fun f => decide (f.req = some r.id) && f.isForward)) then
      if r.kind = .condWrite then ((s.setStatus r.entry r.slice 8 r.line).countOutcome 8).answer r .complete
      else s.stageReq r.id .pail
    else s.completeWrite r
  else s

/-- A request leaves the ingress buffer: its credit returns (R61). -/
def State.returnCredit (r : Req) (s : State) : State :=
  if r.stage ≠ .ingress then s
  else s.upPort (fun p =>
    if r.kind = .read ∨ r.kind = .resRead then { p with creditsReq := p.creditsReq + 1 }
    else { p with creditsData := p.creditsData + 1 })
/-- One held request when the module fences (R332): writes are completed and discarded, reads answered with poison. -/
def State.heldToFenced (r : Req) (s : State) : State :=
  if r.fromPeer then s.dropReq r.id
  else if r.kind = .read ∨ r.kind = .resRead then (s.returnCredit r).answer r .poison
  else ((s.uncharge r).returnCredit r).answer r .complete
/-- The work held when a module stops serving (R332): what it applied as a home and what is pending is dropped, and every request
ends. -/
def State.dropHeld (s : State) : State :=
  let t := s.undoFlights
  t.reqs.list.foldl (fun u r => u.heldToFenced r) t

/-- Running commands that wait for the peer are abandoned, their Control reading 03h (R567). -/
def State.abandonJobs (s : State) : State :=
  let gone := s.cmds.jobs.filter (fun kj => !kj.2.acks.isEmpty || kj.2.notice || kj.2.held)
  (s.upMap (fun m => { m with unitsZeroed := [] })).upCmds (fun c => { c with
    ctl := gone.foldl (fun t kj => Tab.set 0 t kj.1 3) c.ctl
    jobs := c.jobs.filter (fun kj => !(gone.any (fun x => decide (x.1 = kj.1)))) })

/-- Become Sole (R311, R332, R333): the record is written first, the grains in flight are marked, held work ends, and
4106h is logged with its cause. -/
def State.enterSole (cause : Nat) (s : State) : State :=
  let s1 := s.writeRecord (fun r => { r with pairEpoch := (r.pairEpoch + 1) % 2 ^ 32, lastRole := 1 })
  let s2 := (s1.setMember 4).markFlights
  let s3 := s2.reqs.list.foldl (fun t r => t.heldToSole r) s2
  let s4 := s3.dropWork
  s4.clearReservations.log 0x4106 cause

/-- Become Fenced (R330, R332, R334): LastRole Fenced, held requests end, reservations clear, StandDown and Pulse go out,
the interrupt policy returns to its default (R80, R82), and 4105h is logged with the timestamp of the entry to Suspect. -/
def State.enterFenced (s : State) : State :=
  let s1 := s.writeRecord (fun r => { r with lastRole := 3 })
  let s2 := s1.setMember 5
  let s3 := s2.dropHeld
  let s4 := s3.abandonJobs.dropWork
  let s5 := if s4.yokeUp then s4.sendMember 0x0D else s4
  (s5.clearReservations.upObs (fun o => { o with policy := 0 })).log 0x4105 s.yoke.suspectStamp

/-- Return from Suspect to the state before it: held work proceeds (R310, R332). -/
def State.leaveSuspect (s : State) : State :=
  let s1 := s.setMember s.yoke.prev
  s1.upReqs (fun q => { q with list := q.list.map (fun r => if r.stage = .suspect then { r with stage := .pail } else r) })

/-- Enter Suspect (R310, R331): the moment and its timestamp are kept. -/
def State.enterSuspect (s : State) : State :=
  (s.setMember 3).upYoke (fun y => { y with suspectAt := s.clk.now, suspectStamp := s.clk.stamp })

/-! ## Standing down (R330) -/

/-- Stand down: LastRole StoodDown, except that a Sole module keeps LastRole Sole (R314, R538, log entry 12); StandDown on
the yoke if it runs, and a Pulse; the module restarts in Joining (R310). A Single module is in no pair. -/
def State.standDown (s : State) : State :=
  if s.yoke.member = 0 ∨ !servingSt s.yoke.member then s
  else
    let s1 := s.abandonJobs.writeRecord (fun r => { r with lastRole := if s.yoke.member = 4 then 1 else 2 })
    let s2 := s1.upYoke (fun y => { y with member := 1, prev := y.member })
    let s3 := if s2.yokeUp then s2.sendMember 0x0D else s2
    s3.sendPulse.dropWork

/-- Membership after a restart (R310, R314): Sole resumes as Sole with 4106h parameter 5; a module whose record names a
peer waits in Joining; any other module is Single. `cold` applies PairEnable. -/
def State.restartMember (cold : Bool) (s : State) : State :=
  if cold ∧ s.entryInForce 0x4100 1 = 0 then s.setMember 0
  else if s.yoke.record.peerSerial = 0 then
    if cold then s.setMember 0 else s
  else if s.yoke.record.lastRole = 1 then (s.setMember 4).log 0x4106 5
  else if s.yoke.member = 5 ∧ !cold then s
  else if s.yoke.member = 8 ∧ !cold then s
  else s.setMember 1

/-! ## The divergence bitmap and resync (R342) -/

/-- The grains whose divergence bit is set. -/
def State.markedGrains (s : State) : List Nat :=
  if s.map.divAll then (List.range s.ident.variant.grains).filter s.marked
  else (s.map.div.filter (fun kv => kv.2)).map (fun kv => kv.1)
/-- The 1,280 bytes of a bitmap unit (R222). -/
def State.bitmapBytes (s : State) (unit : Nat) : Bytes :=
  (List.range 1280).map (fun k => BitVec.ofNat 8 (((List.range 8).map (fun b =>
    if s.marked (unit * 10240 + k * 8 + b) then 2 ^ b else 0)).foldl (· + ·) 0))
/-- Send every bitmap unit in which this module has bits set (R342). -/
def State.sendBitmap (s : State) : State :=
  (s.markedGrains.map (fun g => g / 10240)).eraseDups.foldl (fun t u => t.send
    { ty := 0x0A
      num := u
      body := s.bitmapBytes u }) s
/-- Resync starts at this module as Feeding or Receiving (R310, R342): the record, LastRole Paired (log entry 28), then the
state, this module's bitmap units, and 4107h with the grains marked here (log entry 31). -/
def State.startResync (member serial : Nat) (s : State) : State :=
  let s1 := (s.writeRecord (fun r => { r with
    lastRole := 0
    peerSerial := serial })).setMember member
  let s2 := s1.upYoke (fun y => { y with
    copied := 0
    resyncSent := []
    copyNext := []
    sectors := []
    sectorPoison := []
    sectorGot := []
    clearWait := [] })
  s2.sendBitmap.log 0x4107 s2.divergentCount
/-- A damaged own copy (R178, R200, R227, R311): StaleSelf is set. -/
def State.damaged (s : State) : State := s.writeRecord (fun r => { r with staleSelf := true })
/-- A Paired module whose grains have been marked for a damaged copy becomes the receiver (R310). -/
def State.receiveDamaged (s : State) : State :=
  if s.yoke.member = 2 then s.startResync 7 s.yoke.record.peerSerial else s

end Sys2Proof.Machine
end

