-- ==== Sys2Proof/Machine/Resets.lean ====
section
/-!
DEFINITION. What each kind of reset keeps, clears and restores (R39, R40, R181, R225, R227, R398, R534): the shared parts
of warm, controller and cold resets, and the replay of the journal.
-/
namespace Sys2Proof.Machine

/-! ## The overlay index (R214) -/

/-- A free slot for a line of the grain in its bucket and the 15 that follow. -/
def State.ovFree (s : State) (g : Nat) : Option Nat :=
  let b := ovBucket s.ident.variant g
  (List.range 128).findSome? (fun i =>
    let k := (b + i / 8) % 2 ^ s.ident.variant.overlayBits * 8 + i % 8
    if (Tab.look s.map.overlay k).isNone then some k else none)
/-- Remove a line's slot. -/
def State.ovRemove (line : Nat) (s : State) : State :=
  s.upMap (fun m => { m with overlay := m.overlay.filter (fun kv => kv.2.line ≠ line) })
/-- Remove every slot of a grain. -/
def State.ovRemoveGrain (g : Nat) (s : State) : State :=
  s.upMap (fun m => { m with overlay := m.overlay.filter (fun kv => grainOf kv.2.line ≠ g) })
/-- Enter a line's log copy; the line's earlier slot is replaced. -/
def State.ovInsert (line page slot : Nat) (s : State) : State :=
  let t := s.ovRemove line
  match t.ovFree (grainOf line) with
  | some k => t.upMap (fun m => { m with overlay := Tab.put m.overlay k ⟨line, page, slot⟩ })
  | none => t

/-! ## Replay (R175, R218, R225) -/

/-- A run of grains set to one entry. -/
def setSpan (t : Tab MapEntry) (first count : Nat) (st : GrainSt) : Tab MapEntry :=
  let base := t.filter (fun kv => decide (kv.1 < first) || decide (first + count ≤ kv.1))
  if st = .unwritten then base
  else (List.range count).foldl (fun u i => Tab.put u (first + i) { st := st }) base

/-- A key lets a page's content be applied (R227). -/
def State.keyApplies (s : State) (id gen : Nat) : Bool :=
  decide ((s.keyRec id).st ≠ 0) && decide ((s.keyRec id).base ≤ gen)
/-- A page's generation, 0 where it is not there. -/
def State.genAt (s : State) (ppa : Nat) : Nat :=
  match s.page? ppa with
  | some p => p.gen
  | none => 0
/-- A slot of a line-log page is entered for its line, when it is newer than the line's current copy and its key applies (R213, R227). -/
def State.enterSlot (ppa : Nat) (p : Page) (k : Nat) (x : LogSlot) (s : State) : State :=
  match s.copyAt x.line with
  | none => s
  | some (q, _) =>
    if s.genAt q < p.gen ∧ s.keyApplies x.keyId p.gen then
      (s.ovInsert x.line ppa k).upMap (fun m => { m with
        entries := Tab.set {} m.entries (grainOf x.line) { Tab.get {} m.entries (grainOf x.line) with logged := true } })
    else s
/-- Apply one journal record to the map (R218): a grain's new page supersedes the logged copies older than it (R213). -/
def State.applyRec (r : JRec) (s : State) : State :=
  match r with
  | .mapSet g e =>
    s.upMap (fun m => { m with
      entries := Tab.set {} m.entries g e
      overlay := m.overlay.filter (fun kv => decide (grainOf kv.2.line ≠ g) ||
        (e.logged && decide (s.genAt e.page < s.genAt kv.2.page))) })
  | .logPage ppa =>
    match s.page? ppa with
    | none => s
    | some p => p.liveSlots.foldl (fun t kv => t.enterSlot ppa p kv.1 kv.2) s
  | .groupState g st c n => s.upMedia (fun m => { m with
      groups := Tab.set {} m.groups g { Tab.get {} m.groups g with
        st := st
        absentCol := c
        absentFrom := n } })
  | .linePoison l on => s.upMap (fun m => { m with poison := Tab.set false m.poison l on })
  | .grainSpan f n st => s.upMap (fun m => { m with
      entries := setSpan m.entries f n st
      overlay := m.overlay.filter (fun kv => decide (grainOf kv.2.line < f) || decide (f + n ≤ grainOf kv.2.line))
      poison := m.poison.filter (fun kv => decide (grainOf kv.1 < f) || decide (f + n ≤ grainOf kv.1)) })
  | .divergence f n on =>
    if n = s.ident.variant.grains then s.upMap (fun m => { m with divAll := on, div := [] })
    else s.upMap (fun m => { m with div := (List.range n).foldl (fun t i => Tab.set false t (f + i) (on != m.divAll)) m.div })
  | .lapStart _ => s
  | .lapEnd _ _ => s

/-- The block metadata as a lap holds it: each group's state and absent column as they stood; the wear counts, further failed columns, of
which a GroupState record holds none, and what the group has met since it opened are kept (R39, R218, R222, log entry 153). -/
def groupsFrom (old now : Tab Group) : Tab Group :=
  ((old ++ now).map (fun kg => kg.1)).eraseDups.foldl (fun t g =>
    let a := Tab.get ({} : Group) old g
    Tab.set {} t g { Tab.get ({} : Group) now g with
      st := a.st
      absentCol := a.absentCol
      absentFrom := a.absentFrom }) []
/-- The map as the last completed lap holds it (R221). -/
def State.fromCkpt (s : State) : State :=
  let c := s.map.ckpt
  (s.upMap (fun m => { m with
    entries := c.entries
    overlay := c.overlay
    poison := c.poison
    divAll := c.divAll
    div := c.div
    queue := c.queue })).upMedia (fun m => { m with groups := groupsFrom c.groups m.groups })

/-- Restore the map from the last completed lap and the journal records kept (R225). -/
def State.replayJournal (recs : List JRec) (s : State) : State := recs.foldl (fun t r => t.applyRec r) s.fromCkpt

/-- A die position has a failed die whose rebuild has not ended (R206, R207). -/
def State.posFailed (s : State) (pos : Nat) : Bool :=
  (List.range 16).any (fun c => decide (Tab.get 0 s.media.dieSt (pos * 16 + c) = 1) ||
    decide (Tab.get 0 s.media.dieSt (pos * 16 + c) = 2))
/-- The hottest throttle step of the packages at a die position (R447). -/
def State.posStep (s : State) (pos : Nat) : Nat :=
  ((List.range 8).map (fun i => Tab.get 0 s.therm.steps (pos / 4 * 8 + i))).foldl max 0
/-- The first page of a group has been programmed. -/
def State.begun (s : State) (g : Nat) : Bool :=
  s.media.pages.any (fun kp => decide (ppaGroup kp.1 = g) && decide (ppaPage kp.1 = 0))
/-- The groups a rebuild scans (R227): those Open at S0, and those of the allocation queue in order, quad by quad, up to the first that
reads as reset. A quad that placement passes over, at a failed position or on a hot package (R247, R447), ends nothing (DEDUCED, log
entry 149). -/
def State.scanGroups (s : State) : List Nat :=
  let c := s.map.ckpt
  c.opened ++ ((c.queue.takeWhile (fun q => (quadGroups q).any s.begun || s.posFailed (q / 1024) ||
    decide (s.posStep (q / 1024) ≠ 0))).map quadGroups).foldl (· ++ ·) []
/-- The poison marks a page's header gives some of its lines, where they differ from the marks now (R190, R228). -/
def State.poisonRecs (s : State) (ls : List (Nat × Bool)) : List JRec :=
  (ls.filter (fun x => decide (s.poisoned x.1 ≠ x.2))).map (fun x => .linePoison x.1 x.2)
/-- What a page found by the scan puts into the map (R227): a grain page by its Owner, a line-log page by its directory; what lies under
a key ID that is Free or was discarded since is ignored. -/
def State.pageRecs (s : State) (ppa : Nat) (p : Page) : List JRec :=
  if p.kind = 1 then
    if s.keyApplies p.keyId p.gen then
      .mapSet p.owner { st := .mapped, logged := false, page := ppa } ::
        s.poisonRecs ((List.range 256).map (fun j => (p.owner * 256 + j, Tab.get false p.poison j)))
    else []
  else if p.kind = 2 then
    .logPage ppa :: s.poisonRecs ((p.liveSlots.filter (fun kv => s.keyApplies kv.2.keyId p.gen)).map (fun kv =>
      (kv.2.line, Tab.get false p.poison kv.1)))
  else []

/-- Insert by rising page generation. -/
def insertGen (p : Nat × Page) : List (Nat × Page) → List (Nat × Page)
  | [] => [p]
  | q :: t => if p.2.gen ≤ q.2.gen then p :: q :: t else q :: insertGen p t

/-- Rebuild the map from the last completed lap and the headers of the pages programmed since (R227): 2219h with the
lap's number, and in a pair every grain marked divergent. What the scan finds is recorded in a new journal, so that a reset before the
next lap does not lose it (R228; DEDUCED, log entry 149). The event waits for the fast domains. -/
def State.rebuildMap (s : State) : State :=
  let s1 := s.fromCkpt
  let groups := s.scanGroups
  let newer := (s.media.pages.filter (fun kp => kp.2.verified && decide (s.map.ckpt.genHigh ≤ kp.2.gen) &&
    groups.contains (ppaGroup kp.1))).foldr insertGen []
  let (recs, s2) := newer.foldl (fun (acc : List JRec × State) kp =>
    let rs := acc.2.pageRecs kp.1 kp.2
    (acc.1 ++ rs, rs.foldl (fun t r => t.applyRec r) acc.2)) (([] : List JRec), s1)
  let s3 := (s2.upMap (fun m => { m with
    journal := recs
    seq := (m.seq + recs.length) % 2 ^ 32
    journalHigh := false
    journalCut := false })).upPwr (fun p => { p with
    own := p.own ++ [(0x2219, s.map.ckpt.lap)] })
  if s.yoke.record.peerSerial = 0 then s3 else s3.damaged.markAll

/-! ## Groups (R187, R196, R206, R218) -/

/-- The group that has place k of the dump slots first: the highest blocks of the four highest die positions, four planes each, so
that a dump programs 64 dies at once (R165, log entry 17). -/
def slotHome (v : Variant) (k : Nat) : Nat := (v.positions - 1 - k / 4 % 4) * 4096 + k % 4 * 1024 + (1023 - k / 16)
/-- The place a group has first in the dump slots. -/
def homePlace (v : Variant) (g : Nat) : Option Nat :=
  let k := (1023 - g % 1024) * 16 + (v.positions - 1 - g / 4096) * 4 + g % 4096 / 1024
  if v.positions ≤ g / 4096 + 4 ∧ g / 4096 < v.positions ∧ k < v.slotGroups then some k else none
/-- The group that has place k of the dump slots now (R165, R202). -/
def State.slotAt (s : State) (k : Nat) : Nat := (Tab.look s.dump.moved k).getD (slotHome s.ident.variant k)
/-- A group belongs to a dump slot (R165). -/
def State.slotGroup (s : State) (g : Nat) : Bool :=
  s.dump.moved.any (fun kv => decide (kv.2 = g)) || (match homePlace s.ident.variant g with
    | some k => (Tab.look s.dump.moved k).isNone
    | none => false)
/-- A group of the floor holds a dump image that has not been reset (R166, R177). -/
def State.floorGroup (s : State) (g : Nat) : Bool := s.dump.images.any (fun i => decide (i.place = 2) && i.groups.contains g)
/-- The rebuilt failed column of a position (R206). -/
def State.deadColumn (s : State) (pos : Nat) : Option Nat :=
  (List.range 16).find? (fun c => decide (Tab.get 0 s.media.dieSt (pos * 16 + c) = 3))
/-- A group's record; a rebuilt failed die leaves its column absent in every group of its position, a second one where another is
absent already (R196, R206). -/
def State.grp (s : State) (g : Nat) : Group :=
  let b := Tab.get {} s.media.groups g
  if s.slotGroup g || s.floorGroup g then { b with st := .slot }
  else
    match s.deadColumn (g / 4096) with
    | some c =>
      if b.absentCol = none then { b with
        absentCol := some c
        taken := b.taken + 1 }
      else if b.absentCol = some c then b else { b with second := true }
    | none => b
/-- Write a group's record, with a GroupState record when its state or its absent column changes (R218). -/
def State.setGroup (g : Nat) (x : Group) (s : State) : State :=
  let old := Tab.get {} s.media.groups g
  let t := s.upMedia (fun m => { m with groups := Tab.set {} m.groups g x })
  if old.st = x.st ∧ old.absentCol = x.absentCol ∧ old.second = x.second then t
  else t.journal (.groupState g x.st x.absentCol x.absentFrom)

/-! ## Parts of resets (R39) -/

/-- Writing lines return to Dirty when their programs are abandoned (R164). -/
def Sector.failWrites (x : Sector) : Sector :=
  { x with st := x.st.map (fun kv => if kv.2 = .writing then (kv.1, .dirty) else kv) }

/-- A running lap ends without effect: the last completed one stays in force, and the next begins by its times (R224). -/
def State.dropLap (s : State) : State :=
  if s.map.lapRunning then s.upMap (fun m => { m with
    lapRunning := false
    lapNext := {}
    lapStarted := m.ckpt.started })
  else s
/-- Programs, resets, verifies, copies and a lap under way are abandoned: no map entry changes, and a page whose program had not ended
is not there (R30, R164, R172, R195, R224). Moves return to the queue, and an Open group that lost a program takes no more: it becomes
Closing and keeps its shadow parity. DESIGN CHOICE: the spec gives the state of such a group for a controller reset and a cold reset
only (log entry 117). -/
def State.abandonPrograms (s : State) : State :=
  let s1 := s.upTier (fun t => { t with sectors := t.sectors.map (fun kx => (kx.1, kx.2.failWrites)) })
  let hit := s.media.passes.map (fun p => ppaGroup p.ppa)
  let s2a := (s.media.groups.filter (fun kg => hit.contains kg.1 && decide (kg.2.st = .opened))).foldl (fun t kg =>
    t.setGroup kg.1 { kg.2 with st := .closing }) s1
  let s2 := s2a.upMedia (fun m => { m with
    lastOp := m.ops.foldl (fun t kv => Tab.put t (kv.2.die % 16) s.clk.now) m.lastOp
    ops := []
    bus := []
    tokens := []
    tokenQueue := []
    passes := []
    pages := Tab.filterKV (fun ppa _ => !(m.passes.any (fun p => decide (p.ppa = ppa) && !p.programmed))) m.pages
    relocQueue := m.relocQueue ++ m.passes.filterMap (fun p => p.src.map (fun x => (x, p.act, p.prio))) })
  let s3 := s2.dropLap.upReg (fun g => { g with granted := [], waiting := [] })
  (s3.upBudget (fun b => { b with running := [], queued := [] })).upCare (fun c => { c with copySets := [] })

/-- The writes discarded while they wait for a tier sector give their charges back. -/
def State.unchargeAll (s : State) : State := s.reqs.list.foldl (fun t r => t.uncharge r) s

/-- A write admitted and waiting to be applied, or applied and waiting for its program (R158), finishes over a warm reset. -/
def Req.finishes (r : Req) : Bool := r.admitted || (decide (r.stage = .program) && decide (r.entry ≠ internal))
/-- A write that finishes over a warm reset has no completion (R181): it goes on as an internal write. -/
def Req.finish (r : Req) : Req :=
  if r.finishes then { r with
    kind := .write
    entry := internal
    key := 0
    tag := 0x0181 }
  else r
/-- At a warm reset admitted writes finish (R181), those that wait for their program among them; the peer of a pair has not ordered
them, so their grains are marked (log entry 116). -/
def State.keepAdmitted (s : State) : State :=
  let ws := s.reqs.list.filter (fun r => r.finishes && r.admitted)
  (ws.foldl (fun t r => if s.paired then t.mark (grainOf r.line) else t.markSole (grainOf r.line)) s).upReqs (fun q =>
    { q with list := q.list.map Req.finish })
/-- Discard every request not completed, each whole (R181), a Clear Poison with them; the link's credits return, and the
internal writes of running commands go on: from their pail, or, with their line applied, waiting for its program. -/
def State.dropRequests (s : State) : State :=
  ((s.upReqs (fun q => { q with
    list := (q.list.filter (fun r => decide (r.entry = internal) && decide (r.tag ≠ 0x4302) && !r.fromPeer)).map (fun r => { r with
      stage := if r.stage = .program && s.pwr.boot = .running && !s.pwr.controllerStart && !s.dumping then .program else .pail }) })).upPort (fun p => { p with creditsReq := 1024, creditsData := 1024 })).upMbox (fun m => { m with
        clearing := [] })

/-- Miss tables, miss slots and speculative work are abandoned (R134); the pails are empty from now on (R34). -/
def State.dropMisses (s : State) : State :=
  (s.upSlices (fun q => { q with
    misses := []
    prefetches := []
    asleep := []
    lastWork := (List.range 32).map (fun k => (k, s.clk.now)) })).upFc (fun c =>
    { c with slots := [] })

/-- The link goes down (R82); a binding survives every reset but a cold one (R49). -/
def State.linkDown (s : State) : State := s.upPort (fun p => { p with speed := 0, width := 0, attach := 0 })

/-- Reservations and status words are cleared (R39, R299). -/
def State.clearAtomics (s : State) : State := s.clearReservations.upAtom (fun a => { a with status := [] })

/-- What a controller reset and a cold reset both clear (R22, R39, R76, R80, R481, R508). -/
def State.clearVolatile (s : State) : State :=
  let s0 := s.dropRequests.upReqs (fun q => { q with list := q.list.filter (fun r => decide (r.tag = 0x9030)) })
  let s1 := (s0.dropMisses.abandonPrograms.clearAtomics).upSlices (fun q => { q with mapCache := [] })
  let s2 := s1.upDict (fun d => { d with batches := [], transfers := [], presented := [], pair := none, theirs := none, commitWait := [], waiting := [] })
  let s3 := s2.upKeys (fun k => { k with cache := [], signing := none })
  let s4 := s3.upPerf (fun p => { p with
    cycles := []
    overflow := []
    select := []
    value := []
    reload := []
    samples := []
    lastLevel := []
    snapStamp := 0
    gathered := []
    snapSt := 0 })
  let s5 := s4.upObs (fun o => { o with pail := [], overrun := false, lostPending := 0, packet := none, logs := [], policy := 0, msixTable := [] })
  let s6 := s5.upFw (fun f => { f with
    begun := f.begun && decide (f.ctl ≠ 1)
    ctl := 0
    op := 0 })
  (s6.upMbox (fun m => { m with
    doorbell := []
    bgLast := (0, 0)
    dictWait := [] })).upCmds (fun c => { c with
    ctl := c.ctl.filter (fun kv => decide (kv.1 < 0x2120) || decide (0x2123 < kv.1) && decide (kv.1 ≠ 0x9060)
      && decide (kv.1 ≠ 0xA010)) })

/-- Save one dirty front-cache line at a controller reset (R40): a line whose parity fails is poisoned and named by 2109h
after the restart; any other dirty line goes to the tier, and stays held when the tier has no room for it (log entry 13);
a clean line is cleared. -/
def State.saveLine (bad : List Nat) (line : Nat) (x : FcLine) (s : State) : State :=
  if x.st = .unmodified then s.fcDrop line
  else if bad.contains line then
    ((s.poison line).dropLine line).upPwr (fun p => { p with own := p.own ++ [(0x2109, line * 64)] })
  else
    match s.moveToTier line x with
    | some t => t
    | none => s.fcPut line { x with locked := false, waiting := false }

/-- Save every dirty front-cache line (R40). -/
def State.saveFrontCache (bad : List Nat) (s : State) : State :=
  let t := s.fc.lines.foldl (fun u kx => u.saveLine bad kx.1 kx.2) s
  let on := decide (s.entry 0x2100 1 = 1)
  t.upFc (fun c => { c with
    plru := []
    slots := []
    enabled := on || !c.lines.isEmpty
    disabling := !on && !c.lines.isEmpty
    drainWritten := 0 })

/-- After a controller or cold reset the page generation resumes 2^20 above the stored value, which is stored again so that
no value is used twice (R193). -/
def State.resumeGen (s : State) : State :=
  (s.upMedia (fun m => { m with
    gen := m.genStored + 2 ^ 20
    genStored := m.genStored + 2 ^ 20 })).save 8

/-- Fills and merge bases that were under way are fetched again. -/
def State.refill (s : State) : State :=
  (s.fc.lines.filter (fun kx => decide (kx.2.st = FcSt.merging))).foldl (fun t kx => t.startBase kx.1)
    (s.tier.sectors.foldl (fun t kx => if kx.2.filling then t.issueFill kx.1 else t) s)

/-- The map is consistent and not resident; every filter bit is set (R216, R225). -/
def State.mapCold (s : State) : State :=
  s.upMap (fun m => { m with
    resident := false
    paged := []
    filterOnes := List.range 32
    filter := []
    lapDue := false })

/-- Every group that was Open becomes Closing without shadow parity (R199). -/
def State.closeOpen (s : State) : State :=
  let t := (s.media.groups.filter (fun kg => decide (kg.2.st = .opened))).foldl (fun t kg =>
    t.setGroup kg.1 { kg.2 with st := .closing }) s
  t.upMedia (fun m => { m with groups := m.groups.map (fun kg => (kg.1, { kg.2 with shadow := false })) })

/-- A condition of the class-0 bound fails, for as long as `while` says: its bit is set, and 5010h is logged when the
first one sets (R138, R139). -/
def State.boundFail (b : Nat) (lasting : Bool) (s : State) : State :=
  let old := s.rstats.bits
  let s1 := s.upRstats (fun r => { r with
    bits := r.bits ||| ((1 : BitVec 8) <<< b)
    failing := if lasting then r.failing ||| ((1 : BitVec 8) <<< b) else r.failing
    endedAt := Tab.put r.endedAt b s.clk.now })
  if old = 0 then s1.log 0x5010 s1.rstats.bits.toNat else s1
/-- A restart: the map is not resident, and a failed die's rebuild waits for it (R138, R206). -/
def State.boundStart (s : State) : State :=
  let dead := s.media.dieSt.any (fun kv => decide (kv.2 = 1) || decide (kv.2 = 2))
  let mask : BitVec 8 := if dead then 0x21 else 0x20
  let old := s.rstats.bits
  let s1 := s.upRstats (fun r => { r with
    bits := r.bits ||| mask
    failing := r.failing ||| mask })
  if old = 0 then s1.log 0x5010 s1.rstats.bits.toNat else s1
/-- The condition ends: its bit clears 10 s from now (R138). -/
def State.boundEnd (b : Nat) (s : State) : State :=
  s.upRstats (fun r => { r with
    failing := r.failing &&& ~~~ ((1 : BitVec 8) <<< b)
    endedAt := Tab.put r.endedAt b s.clk.now })

/-! ## Commits lost at a reset (R347, R348) -/

/-- Replace a role's batch. -/
def State.setBatch (r : Role) (b : List StageRec) (s : State) : State :=
  s.upDict (fun d => { d with batches := d.batches.filter (fun x => decide (x.1 ≠ r)) ++ b.map (fun x => (r, x)) })
/-- End a role's commit: its batch is gone and CommitBatch reads 03h or 04h (R496). -/
def State.endCommit (r : Role) (code entry : Nat) (s : State) : State :=
  let t := (s.setBatch r []).upDict (fun d => { d with
    commitSt := Tab.set 0 d.commitSt (roleNum r) (if code = 0 then 3 else 4)
    abortCode := if code = 0 then d.abortCode else Tab.set 0 d.abortCode (roleNum r) code
    abortEntry := if code = 0 then d.abortEntry else Tab.set 0 d.abortEntry (roleNum r) entry })
  if code = 0 then t else t.log 0x1202 code
/-- A commit or a request that waited for it ends with a code, and is answered (R463). -/
def State.endWaiting (p : PairCommit) (code : Nat) (s : State) : State :=
  (s.endCommit p.role code 0).reply p.route p.spec p.flags p.tid 0x1200 1 code []
/-- The module stands down while a pair commit is under way or commits wait for it: the one is lost with its peer, 410Eh once
CommitApply has been sent, and the others are refused by a module that does not serve (R347, R348), as are the requests held behind
them (DESIGN CHOICE, log entry 138). Each is answered. -/
def State.dropCommits (s : State) : State :=
  let t := s.upDict (fun d => { d with
    pair := none
    theirs := none
    commitWait := []
    waiting := [] })
  let u := match s.dict.pair with
    | some p => (if p.applied then t.log 0x410E p.batch else t).endWaiting p 0x04040000
    | none => t
  let v := s.dict.commitWait.foldl (fun x p => x.endWaiting p 0x04020000) u
  s.dict.waiting.foldl (fun x q => x.reply q.who.route q.spec q.flags q.tid q.index q.sub 0x04020000 []) v

/-- What the sweep of the kept DRAM finds at a line's place (R225), handled as R380 gives: an uncorrectable burst of a Clean line is read
again from below, that of any other is poisoned with 2101h; one bad copy of its tag block is repaired, and with both bad the set holds
nothing the tier can name: its Dirty lines are poisoned (log entry 151). The events wait for the fast domains. -/
def State.sweepLine (line : Nat) (f : CacheFault) (s : State) : State :=
  let own := fun (code param : Nat) (t : State) => t.upPwr (fun p => { p with own := p.own ++ [(code, param)] })
  let bad := fun (x : Sector) (burst : State → State) =>
    if !x.holds (line % 32) && decide (x.lineSt (line % 32) = .clean) then s
    else if x.lineSt (line % 32) = .clean then
      ((burst s).putSector (sectorOf line) { x with data := Tab.set 0 x.data (line % 32) (s.stored line) }).upTier (fun t => { t with
        refetches := t.refetches + 1 })
    else own 0x2101 (line * 64) ((burst s).poison line)
  match f, s.sector? (sectorOf line) with
  | .tierLine, some x => bad x (fun t => t.upDram (fun d => { d with uncorrectable := d.uncorrectable + 1 }))
  | .tierCrc, some x => bad x (fun t => t)
  | .tagOne, _ =>
    let g := tierSetKey s.ident.variant (sectorOf line)
    own 0x2102 g ((s.upTier (fun t => { t with tagRepairs := t.tagRepairs + 1 })).upGills (fun u => { u with
      level := Tab.set 0 u.level (g % 16 / 2) (min (s.gillSet (g % 16 / 2)).cap (Tab.get 0 u.level (g % 16 / 2) + 4))
      inputs := Tab.set 0 u.inputs (g % 16 / 2) (Tab.get 0 u.inputs (g % 16 / 2) + 1) }))
  | .tagBoth, _ =>
    let key := tierSetKey s.ident.variant (sectorOf line)
    let dirty := ((s.tierMembers key).map (fun kx => ((List.range 32).filter (fun j => decide (kx.2.lineSt j ≠ .clean))).map
      (fun j => kx.1 * 32 + j))).foldl (· ++ ·) []
    dirty.foldl (fun t l => own 0x2101 (l * 64) ((t.poison l).releaseAll [l])) (s.upTier (fun t => { t with
      sectors := t.sectors.filter (fun kx => decide (tierSetKey s.ident.variant kx.1 ≠ key)) }))
  | _, _ => s
/-- The sweep of the kept regions at a controller reset (R225). -/
def State.sweepKept (swept : List (Nat × CacheFault)) (s : State) : State := swept.foldl (fun t x => t.sweepLine x.1 x.2) s
/-- A controller reset (R40, R225, R398): the module stands down, dirty front-cache lines are saved, uncompleted requests
are discarded, staged and volatile state is cleared, the map is restored from checkpoint and journal (from the lap and the
page headers when the journal is lost), and the keeper verifies the firmware again. 5004h with the source is the first
event afterwards. It runs only while the fast domains run and no dump has started (R535). -/
def State.controllerReset (source : Nat) (fcBad : List Nat) (swept : List (Nat × CacheFault)) (s : State) : State :=
  if !s.fastOn ∨ s.pwr.arm = 5 then s
  else
    let s0 := s.upPwr (fun p => { p with
      own := [(0x5004, source)]
      upAt := s.clk.now
      controllerStart := true
      rebuilt := true
      memoryActive := false
      arm := if p.arm = 3 then 3 else if p.arm = 4 ∨ p.arm = 2 then 4 else s.armCode })
    let s1 := s0.unchargeAll.undoAll.standDown.saveFrontCache fcBad
    let s2 := s1.clearVolatile
    let s2a := s2.sweepKept swept
    let s3 := (if source = 4 ∨ swept.any (fun x => decide (x.2 = CacheFault.journal)) ∨ s2.map.journalCut then s2a.rebuildMap
      else s2a.replayJournal s2.map.journal).mapCold.closeOpen
    let s4 := if s3.pwr.arm = 3 then s3.upPwr (fun p => { p with arm := s3.armCode }) else s3
    (s4.resumeGen.linkDown.refill).upPwr (fun p => { p with boot := .verifying s.fw.current false })

/-- A warm reset (R37, R181, R534): the module stands down, uncompleted requests are discarded, programs are abandoned,
reservations and status words clear, the link goes down and DRAM enters self-refresh once the admitted writes have completed;
caches, tables, locks, batches and keys are kept. It is ignored during a controller reset or a dump (R535). -/
def State.warmReset (s : State) : State :=
  if !s.fastOn ∨ s.pwr.arm = 5 then s.linkDown
  else
    let s1 := s.keepAdmitted.standDown.dropCommits
    let s2 := s1.dropRequests.dropMisses.abandonPrograms.clearAtomics
    let s3 := ((s2.linkDown.refill).upPwr (fun p => { p with memoryActive := false })).refreshSelf
    ((s3.upObs (fun o => { o with
      policy := 0
      msixTable := []
      packet := none })).upDict (fun d => { d with transfers := [] })).restartMember false

end Sys2Proof.Machine
end

