-- ==== Sys2Proof/Machine/Serve.lean ====
section
/-!
DEFINITION. How the module takes and serves a CXL.mem request: the checks at the port (R50 to R60, R72, R98, R102), the
regulated choice of a slice's next request (R428 to R430), the read path to its exit (R116 to R136) and the write path to
its completion (R143 to R160, R263, R294 to R300, R323).
-/
namespace Sys2Proof.Machine

/-! ## Conditions of the bound and of serving -/

/-- The port accepts CXL.mem requests (R46, R83); not in Joining (R313). -/
def State.accepts (s : State) : Bool :=
  s.fastOn && s.pwr.memoryActive && decide (s.port.attach ≠ 0) && decide (s.pwr.arm ≠ 5) && decide (s.yoke.member ≠ 1)
/-- The primary mailbox is reached: in direct attachment, and on a link that has come up without CXL (R46, R66). -/
def State.primaryReached (s : State) : Bool :=
  s.fastOn && (decide (s.port.attach = 1) || (decide (s.port.attach = 0) && decide (s.port.speed ≠ 0)))
/-- The partner pages are reached: by the CXL.mem accesses of fabric attachment, once the port accepts them (R66, R72, R83). -/
def State.pageReached (s : State) : Bool := s.accepts && decide (s.port.attach = 2)
/-- A Sanitize or Secure Erase runs (R58, R70). -/
def State.wiping (s : State) : Bool := decide (s.mbox.background = 0x4400) || decide (s.mbox.background = 0x4401)
/-- Brine mode (R263). -/
def State.inBrine (s : State) : Bool := decide (s.care.brine = 3)

/-! ## Refusals (R51, R57 to R60) -/

/-- The answer to a request that is not served: poison to a read, a completion to a discarded write (R58). -/
def deny (isWrite : Bool) : RespKind := if isWrite then .complete else .poison

/-- A refusal for want of a partner entry (R57): counted, and 3001h at most once per second for one key. -/
def State.refuseUnknown (key : Nat) (s : State) : State :=
  let s1 := s.upPort (fun p => { p with unknown := sat32 p.unknown })
  let quiet := match Tab.look s.port.lastRefusal key with
    | some t => decide (s.clk.now < t + sec)
    | none => false
  if quiet then s1
  else (s1.upPort (fun p => { p with lastRefusal := Tab.put p.lastRefusal key s.clk.now })).log 0x3001 key

/-- A refusal by the rights check or for an address not decoded: counted, with its event at most once per second for one partner
entry (R51, R58, R527). -/
def State.refuseRight (code n addr : Nat) (s : State) : State :=
  let key := code * 65536 + n
  let s1 := s.upPort (fun p => { p with rights := sat32 p.rights })
  let quiet := match Tab.look s.port.lastRefusal key with
    | some t => decide (s.clk.now < t + sec)
    | none => false
  if quiet then s1
  else (s1.upPort (fun p => { p with lastRefusal := Tab.put p.lastRefusal key s.clk.now })).logFor n code (n * 2 ^ 48 + addr)

/-! ## The partner page (R72, R73, R298) -/

/-- Eight status words of a partner as one line. -/
def State.statusLine (s : State) (n k : Nat) : Line :=
  (List.range 8).foldl (fun d i => d ||| (BitVec.ofNat 512 (s.statusWord n (k * 8 + i)) <<< (64 * i))) 0
/-- The doorbell bit of page n is set. -/
def State.doorbell (s : State) (n : Nat) : Bool := s.mbox.doorbell.contains n
/-- The background command status register (R70): opcode and progress of the command that runs, or of the one that ended last with
its return code. Every mailbox presents the module's one background command (log entry 14). -/
def State.bgStatus (s : State) : Nat :=
  let m := s.mbox
  if m.background ≠ 0 then m.background + Config.bgProgress s.clk.now % 101 * 2 ^ 16
  else if m.bgLast.1 ≠ 0 then m.bgLast.1 + 100 * 2 ^ 16 + m.bgLast.2 * 2 ^ 32
  else 0
/-- The bytes of a page's first line that a partner cannot write: capabilities at 00h, status at 10h, background status at 18h. -/
def pageFixed : Mask := BitVec.ofNat 64 0xFFFF000F
/-- The first line of page n: the capabilities with the payload size of 4 KiB (R43), the doorbell, command and status as they stand,
the background status (R72, log entry 14). -/
def State.pageRegs (s : State) (n : Nat) : Line :=
  let keep : Mask := BitVec.ofNat 64 0xFFFFFFFF00FFFFF0
  let on := fun (b : Bool) (k : Nat) => BitVec.ofNat 512 (bit b) <<< k
  (Tab.get 0 s.mbox.pages (n * 128) &&& byteMask keep) ||| BitVec.ofNat 512 (Nat.log2 s.ident.variant.portCaps.mailboxPayload) |||
    on (s.doorbell n) 32 ||| on (decide (s.mbox.background ≠ 0)) 128 ||| (BitVec.ofNat 512 s.bgStatus <<< 192)
/-- What a CXL.io read of Galkeyr's register block returns to the directly attached host, eight bytes at an offset: the status words of
its partner entry at 0C00h + 8 × s (R298); every other offset reads 0 (log entry 157). -/
def State.vendorRegister (s : State) (off : Nat) : Nat :=
  if 0xC00 ≤ off ∧ off < 0xD00 ∧ off % 8 = 0 then s.statusWord (s.keyOf 0) ((off - 0xC00) / 8) else 0
/-- What a read of line k of page n returns: the registers in the first line, status words at 0C00h to 0CFFh, else what was written
there. -/
def State.pageLine (s : State) (n k : Nat) : Line :=
  if 48 ≤ k ∧ k < 52 then s.statusLine n (k - 48)
  else if k = 0 then s.pageRegs n
  else Tab.get 0 s.mbox.pages (n * 128 + k)
/-- A write to line k of page n: writes to status words, reserved offsets and read-only registers are ignored; a write to the
registers while the doorbell is set is ignored and counted (R73). -/
def State.pageWrite (n k : Nat) (d : Line) (m0 : Mask) (s : State) : State :=
  let m := if k = 0 then m0 &&& ~~~ pageFixed else m0
  if 48 ≤ k ∧ k < 64 then s
  else if k < 64 ∧ s.doorbell n then s.upPort (fun p => { p with rights := sat32 p.rights })
  else
    let s1 := s.upMbox (fun b => { b with
      pages := Tab.set 0 b.pages (n * 128 + k) (mergeBytes (Tab.get 0 b.pages (n * 128 + k)) d m) })
    if k = 0 ∧ m.getLsbD 4 ∧ d.getLsbD 32 then
      s1.upMbox (fun b => { b with
        pages := Tab.set 0 b.pages (n * 128) (Tab.get 0 b.pages (n * 128) &&& ~~~ ((1 : Line) <<< 32))
        doorbell := b.doorbell ++ [n] })
    else s1

/-! ## Arrival (R19, R50 to R62, R98, R143) -/

/-- A conditional write refused by R98: outcome Refused, and the partner's reservation in the slice ends (R300, R305). -/
def State.refuseCond (n target : Nat) (s : State) : State :=
  let sl := sliceOf target
  ((s.spendRes n (target / 64)).setStatus n sl 9 (target / 64)).countOutcome 9

/-- Put an accepted request into its slice's request pail, or into the ingress buffer while the pail is full (R20, R61,
R62); a request in the ingress buffer holds its credit. -/
def State.enqueue (r : Req) (s : State) : State :=
  let sl := r.slice
  let full := decide (2048 ≤ s.pailCount sl) ||
    s.reqs.list.any (fun q => decide (q.stage = .ingress) && decide (q.slice = sl))
  let r1 := { r with
    id := s.reqs.next
    stage := if full then .ingress else .pail }
  let s1 := s.upReqs (fun q => { q with
    next := q.next + 1
    list := q.list ++ [r1] })
  let s2 := s1.upPort (fun p => { p with
    peak := max p.peak (min 65536 (s1.reqs.list.filter (fun q => decide (q.entry ≠ internal))).length)
    creditsReq := if full ∧ (r.kind = .read ∨ r.kind = .resRead) then p.creditsReq - 1 else p.creditsReq
    creditsData := if full ∧ (r.kind = .write ∨ r.kind = .condWrite) then p.creditsData - 1 else p.creditsData })
  let s3 := (s2.upSlices (fun q => { q with lastWork := Tab.put q.lastWork sl s.clk.now })).countAt sl 1 1 r.addr r.entry
  let s4 := s3.countAt sl (if r.kind = .read ∨ r.kind = .resRead then 2 else 3) 1 r.addr r.entry
  if full then s4 else s4.count 56 5 1

/-- The request of a new arrival; its id and stage are set when it is queued. -/
def newReq (kind : ReqKind) (key entry tag addr cls policy : Nat) (d : Line) (be : Mask) (poison : Bool) (now : Nat) : Req :=
  { id := 0
    kind := kind
    key := key
    entry := entry
    tag := tag
    addr := addr
    cls := cls
    policy := policy
    data := d
    be := be
    poison := poison
    arrival := now
    stage := .pail
    stored := false }

/-- The credit a request of the kind needs is there (R61). -/
def State.hasCredit (s : State) (isWrite : Bool) : Bool :=
  if isWrite then decide (s.port.creditsData ≠ 0) else decide (s.port.creditsReq ≠ 0)

/-- Answer a request that passed its checks but is not served by the module's state: a Sanitize or Secure Erase in
progress, or a fenced module (R58). -/
def State.blocked (s : State) : Bool := s.wiping || s.fenced

/-- A CXL.mem request arrives at the port (R53 to R60, R72, R88, R98, R102). DESIGN CHOICE: a partner's accesses to its own mailbox page
are served while the module is wiped or fenced too, since R58's refusals speak of memory and the spec names no other for a page (log
entry 163). -/
def State.arrive (isWrite : Bool) (key0 addr tag : Nat) (d : Line) (be : Mask) (poison : Bool) (s : State) : State :=
  if !s.accepts ∨ !s.hasCredit isWrite then s
  else
    let s1 := (s.upPort (fun p => { p with
      lastHostReq := s.clk.now
      flits := p.flits + 1 })).count 56 (if isWrite then 2 else 1) 1
    let key := s1.keyOf key0
    let no := fun (t : State) => t.respond key tag (deny isWrite)
    match s1.selectEntry key with
    | none => no (s1.refuseUnknown key)
    | some n =>
      match s1.decodeDpa addr with
      | .notDecoded => no (s1.refuseRight 0x3004 n addr)
      | .page p off =>
        if p = n then
          if isWrite then (s1.pageWrite n (off / 64) d be).respond key tag .complete
          else s1.respond key tag (.data (s1.pageLine n (off / 64)))
        else no (s1.refuseRight (if isWrite then 0x3003 else 0x3002) n addr)
      | .ordinary r =>
        if (if isWrite then s1.mayWrite n r.group else s1.mayRead n r.group) then
          if s1.blocked then no s1
          else s1.enqueue (newReq (if isWrite then .write else .read) key n tag addr r.cls r.policy d be poison s.clk.now)
        else no (s1.refuseRight (if isWrite then 0x3003 else 0x3002) n addr)
      | .window w target =>
        if s1.hasCap n 2 && (if isWrite then s1.mayWrite n w.group else s1.mayRead n w.group) then
          match s1.windowTarget w.group target with
          | none =>
            let s2 := if isWrite then s1.refuseCond n target else s1
            no (s2.refuseRight 0x3004 n addr)
          | some r =>
            if s1.blocked then no s1
            else s1.enqueue (newReq (if isWrite then .condWrite else .resRead) key n tag target w.cls r.policy d be poison
              s.clk.now)
        else
          let s2 := if isWrite then s1.refuseCond n target else s1
          no (s2.refuseRight (if isWrite then 0x3003 else 0x3002) n addr)

/-! ## Regulation (R429, R430) -/

/-- Refill the read and write buckets of every class to now: micro-tokens at the scaled guarantee, at most 10 ms of it. -/
def State.refillTokens (s : State) : State :=
  let dt := s.clk.now - s.reg.refill
  let rd := fun (c : Nat) => s.entry (0x2300 + c) 1 * s.reg.readScale / 1024
  let wr := fun (c : Nat) => s.entry (0x2300 + c) 2 * s.reg.writeScale / 1024
  s.upReg (fun g => { g with
    refill := s.clk.now
    readTok := (List.range 16).foldl (fun t c => Tab.set 0 t c (min (rd c * 10000000) (Tab.get 0 t c + rd c * dt))) g.readTok
    writeTok := (List.range 16).foldl (fun t c => Tab.set 0 t c (min (wr c * 10000000) (Tab.get 0 t c + wr c * dt)))
      g.writeTok })
/-- A media read of the class would be within share. -/
def State.withinShare (s : State) (c : Nat) : Bool := decide (1000000 ≤ Tab.get 0 s.reg.readTok c)
/-- Urgency of a request (R430). -/
def State.urgency (s : State) (r : Req) : Nat := s.urgencyOf r.cls r.arrival
/-- r goes before q by urgency, then by class when asked, then by arrival. -/
def State.before (s : State) (byClass : Bool) (r q : Req) : Bool :=
  if s.urgency r ≠ s.urgency q then decide (s.urgency q < s.urgency r)
  else if byClass && decide (r.cls ≠ q.cls) then decide (r.cls < q.cls)
  else decide (r.id < q.id)
/-- The request first in that order. -/
def State.firstBy (s : State) (byClass : Bool) (l : List Req) : Option Req :=
  l.foldl (fun best r =>
    match best with
    | none => some r
    | some b => if s.before byClass r b then some r else best) none
/-- A line of a ZeroRange waits for the lower ones: the lines of the partial grain before the whole grains, and the whole grains
themselves, which the command changes between (R111). -/
def State.zeroHeld (s : State) (r : Req) : Bool :=
  decide (r.entry = internal) && decide (r.tag = 0x9030) &&
    (s.reqs.list.any (fun q => decide (q.entry = internal) && decide (q.tag = 0x9030) && decide (q.line < r.line)) ||
      (match Tab.look s.cmds.jobs 0x9030 with
       | some j => j.marked.any (fun g => decide (g ≤ grainOf r.line)) || j.acks.any (fun g => decide (g ≤ grainOf r.line))
       | none => false))
/-- A request of the slice may be served now: in the pail, with no older request to its line still unapplied (R284, R290). -/
def State.ready (s : State) (r : Req) : Bool :=
  decide (r.stage = .pail) && !s.zeroHeld r && !(s.reqs.list.any (fun q => decide (q.id < r.id) && decide (q.line = r.line) &&
    (q.admitted || decide (q.stage ∈ [Stage.pail, .budget, .suspect, .ingress]))))
/-- A read that misses the front cache and the tier in a mapped grain goes to media and is regulated (R428). -/
def State.regulated (s : State) (r : Req) : Bool :=
  decide (r.kind = .read ∨ r.kind = .resRead) && (s.fcLine? r.line).isNone && (s.sector? (sectorOf r.line)).isNone &&
    (s.copyAt r.line).isSome
/-- The next request of a slice (R428, R430): unregulated work in order of arrival, then the within-share misses by
urgency, class and arrival, then the over-share ones by deficit round robin. -/
def State.nextReq (s0 : State) (slice : Nat) : Option (Req × State) :=
  let s := s0.refillTokens
  let here := s.reqs.list.filter (fun r => decide (r.slice = slice) && s.ready r)
  match here.find? (fun r => !s.regulated r) with
  | some r => some (r, s)
  | none =>
    match s.firstBy true (here.filter (fun r => s.withinShare r.cls)) with
    | some r => some (r, s)
    | none =>
      if here.isEmpty then none
      else
        let (c, s1) := s.nextClass slice (here.map (fun r => r.cls))
        match s1.firstBy false (here.filter (fun r => decide (r.cls = c))) with
        | some r => some (r, s1)
        | none => none

/-- A media read of the class is dispatched (R429): one token, or over share from spare capacity. -/
def State.admitRead (c : Nat) (s : State) : State :=
  let inShare := s.withinShare c
  let s1 := s.upReg (fun g => { g with
    readTok := Tab.set 0 g.readTok c (Tab.get 0 g.readTok c - (if inShare then 1000000 else 0))
    admitted := Tab.set 0 g.admitted c (Tab.get 0 g.admitted c + 1)
    overShare := Tab.set 0 g.overShare c (Tab.get 0 g.overShare c + (if inShare then 0 else 1)) })
  if c = 0 && !inShare then s1.boundFail 2 false else s1

/-! ## Serving a read (R116 to R122, R136, R289, R292) -/

/-- Record the reservation of a reserved read (R292, R293): it replaces the partner's reservation in the slice. -/
def State.reserve (r : Req) (s : State) : State :=
  let sl := r.slice
  let old := s.endRes (fun x => decide (x.slice = sl) && decide (x.entry = r.entry)) 3
  old.upAtom (fun a => { a with
    res := a.res ++ [⟨sl, r.entry, r.line, s.clk.now⟩]
    ended := Tab.erase a.ended (r.entry * 2 ^ 41 + r.line)
    reads := a.reads + 1 })
/-- Room for one more reservation: a free place, or the oldest made more than 2 µs ago is displaced (R293). None while the
slice's table is full of younger ones. -/
def State.resRoom (r : Req) (s : State) : Option State :=
  let sl := r.slice
  let mine := s.atom.res.filter (fun x => decide (x.slice = sl))
  if mine.any (fun x => decide (x.entry = r.entry)) then some s
  else if mine.length < 512 then some s
  else
    match mine.find? (fun x => decide (x.made + 2000 < s.clk.now)) with
    | some x => some (s.endRes (fun y => decide (y = x)) 5)
    | none => none

/-- The line is held pending at this module: a forwarded write applied here that the entry module has not acknowledged
(R289, R323). -/
def State.pendingLine (s : State) (line : Nat) : Bool := s.yoke.flights.any (fun f => f.pending && decide (f.line = line))
/-- Answer a read with a line's content, once the line is not pending (R288, R289); a reserved read records its reservation, or waits
for room in the table. -/
def State.finishRead (r : Req) (d : Line) (s : State) : State :=
  if s.pendingLine r.line then s.stageReq r.id .line
  else if r.kind = .resRead then
    match s.resRoom r with
    | none => s.stageReq r.id .reservation
    | some t => ((t.reserve r).count r.slice 10 1).answer r (t.readResp r.line d)
  else s.answer r (s.readResp r.line d)

/-- The tag cache is looked up: 4 tag blocks per slice and set mod 512; a block not held is brought in for the oldest one
(R372; the replacement is PRESUMED, log entry 15). -/
def State.tagLookup (sec : Nat) (s : State) : State :=
  let key := tierSetKey s.ident.variant sec
  let grp := fun (k : Nat) => k / s.ident.variant.tierSets * 512 + k % s.ident.variant.tierSets % 512
  if (Tab.look s.tier.tagCache key).isSome then
    s.upTier (fun t => { t with
      tagCacheHits := t.tagCacheHits + 1
      tagCache := Tab.put t.tagCache key s.clk.now })
  else
    let peers := s.tier.tagCache.filter (fun kv => decide (grp kv.1 = grp key))
    s.upTier (fun t => { t with
      tagCache := Tab.put (match oldestUse peers with
        | some o => if 4 ≤ peers.length then Tab.erase t.tagCache o.1 else t.tagCache
        | none => t.tagCache) key s.clk.now })

/-- This module's copy of the grain is not current: it receives resync copies and the grain is marked (R136). -/
def State.staleGrain (s : State) (g : Nat) : Bool :=
  (decide (s.yoke.member = 7) || (decide (s.yoke.member = 3) && decide (s.yoke.prev = 7))) && s.marked g

/-- The next tag of a yoke request, 16 bits. -/
def State.takeTag (s : State) : Nat × State := (s.yoke.nextTag, s.upYoke (fun y => { y with nextTag := (y.nextTag + 1) % 65536 }))

/-- Forward a read of a stale grain to the feeder (R136). -/
def State.forwardRead (r : Req) (s : State) : State :=
  let (tag, s1) := s.takeTag
  ((s1.upYoke (fun y => { y with
    flights := y.flights ++ [⟨tag, r.line, some r.id, false, false, 0, 0, false, none⟩] })).send
      { ty := 5, tag := tag, num := r.line, cls := r.cls, entry := r.entry }).stageReq r.id .forwarded

/-- A request that misses the front cache wakes its slice's miss side (R34). -/
def State.wakeSlice (slice : Nat) (s : State) : State :=
  s.upSlices (fun q => { q with
    asleep := q.asleep.filter (fun k => k ≠ slice)
    lastWork := Tab.put q.lastWork slice s.clk.now })

/-- The reads of class 0 that a fetch serves: those attached to its line, or to the sector it fills; a codeword of a fill beside its
first serves the fill's (R118, R122, R373). -/
def State.class0For (s : State) (m : Miss) : Nat :=
  let q := match m.parent.bind s.missById with
    | some p => p
    | none => m
  (s.reqs.list.filter (fun r => decide (r.stage = .attached) && decide (r.cls = 0) &&
    (if q.kind = .fill then decide (sectorOf r.line = sectorOf q.line) else decide (m.parent = none) && decide (r.line = q.line)))).length
/-- A read attaches to the fetch of its line (R118). One of class 0 that joins a fetch in its soft retries counts with those it has
served so far (R137, R138). -/
def State.attach (r : Req) (s : State) : State :=
  let t := match s.missOf r.line with
    | some m =>
      if r.cls ≠ 0 ∨ !m.soft then s
      else
        let u := s.upRstats (fun x => { x with class0Soft := x.class0Soft + 1 })
        if m.step = 4 then u.boundFail 3 false else u
    | none => s
  t.stageReq r.id .attached
/-- A read past the front cache: the tier, the map, the line log and media (R116, R118, R122, R373). A read of a line absent
from a Filling sector attaches to the fill. -/
def State.readBelow (r : Req) (s : State) : State :=
  let line := r.line
  let sec := sectorOf line
  let s1 := s.tagLookup sec
  match s1.sector? sec with
  | some x =>
    if x.lineSt (line % 32) = .merging then s1.stageReq r.id .line
    else if x.present.getLsbD (line % 32) then
      let s2 := (s1.tierTouch sec).upTier (fun t => { t with
        hits := t.hits + 1
        sectors := t.sectors.map (fun kx => if kx.1 = sec then (kx.1, { kx.2 with prefetched := false }) else kx) })
      let d := Tab.get 0 x.data (line % 32)
      ((s2.count r.slice 6 1).fcFill line d r.policy).finishRead r d
    else (s1.upTier (fun t => { t with missCount := t.missCount + 1 })).attach r
  | none =>
    let s2 := s1.upTier (fun t => { t with missCount := t.missCount + 1 })
    let s3 := if s2.filterSays line then s2.count r.slice 12 1 else s2
    if s3.mapReady line && (s3.copyAt line).isNone then (s3.mapTouch line).finishRead r 0
    else if (s3.missOf line).isSome then s3.attach r
    else if !s3.missRoom line then s3.stageReq r.id .missTable
    else ((if s3.mapReady line then s3.admitRead r.cls else s3).startFetch line .demand r.cls r.policy
      (!s3.withinShare r.cls)).stageReq r.id .attached

/-- An access the front cache serves, or does not serve (R386, R504). -/
def State.noteAccess (hit : Bool) (r : Req) (s : State) : State :=
  (s.upFc (fun c => { c with
    hits := if hit then c.hits + 1 else c.hits
    misses := if hit then c.misses else c.misses + 1 })).countAt r.slice (if hit then 4 else 5) 1 r.addr r.entry
/-- Serve a read at its slice (R116, R117, R136, R147, R289): the front cache, then, with the set's miss slot, what lies
below. -/
def State.serveRead (r : Req) (s : State) : State :=
  let line := r.line
  if s.staleGrain (grainOf line) then
    if s.yoke.member = 3 then s.stageReq r.id .suspect else s.forwardRead r
  else if s.pendingLine line then s.stageReq r.id .line
  else
    match s.fcLine? line with
    | some x =>
      if x.st = .merging then s.stageReq r.id .line
      else
        let s1 := (s.fcTouch line).noteAccess true r
        let s2 := if s1.fc.disabling then
            match s1.moveToTier line x with
            | some t => t
            | none => s1
          else s1
        s2.finishRead r x.data
    | none =>
      let s1 := s.noteAccess false r
      let s2 := s1.wakeSlice r.slice
      if (Tab.look s2.fc.slots (fcSetKey line)).isSome then (s2.count r.slice 7 1).stageReq r.id .missSlot
      else (s2.upFc (fun c => { c with slots := Tab.put c.slots (fcSetKey line) r.id })).readBelow r

/-! ## Serving a write (R143 to R160, R263, R294 to R300, R323) -/

/-- The write needs a charge: its line is Clean or Invalid and the module is armed (R152, R153, R158). -/
def State.needsCharge (s : State) (line : Nat) : Bool := s.pwr.armed && !s.isDirty line && !s.isCharged line
/-- The budget admits the write now (R153). -/
def State.admits (s : State) (line : Nat) : Bool :=
  !s.needsCharge line || decide (s.dirtyBytes + 64 ≤ s.budgetBytes)

/-- A write dropped in Brine mode (R263): the line is poisoned and the drop counted. -/
def State.brineDrop (line : Nat) (s : State) : State :=
  (s.poison line).upCare (fun c => { c with
    brineDropped := c.brineDropped + 1
    brineSecond := c.brineSecond + 1 })

/-- A write carrying the host's poison indication logs 5005h (R397). -/
def State.notePoison (r : Req) (s : State) : State := if r.poison then s.logFor r.entry 0x5005 (r.line * 64) else s

/-- The message that carries a write over the yoke (R318). -/
def Req.message (r : Req) (ty tag : Nat) (conditional : Bool) : YokeMsg :=
  { ty := ty
    tag := tag
    num := r.line
    full := decide (r.be = fullMask)
    conditional := conditional
    poisoned := r.poison
    cls := r.cls
    entry := r.entry
    data := r.data
    mask := r.be }

/-- A marked grain that a Mirror has made Dirty at the receiver is copied next (R344). -/
def State.dirtyAtPeer (g : Nat) (s : State) : State :=
  if s.marked g && !s.yoke.copyNext.contains g then s.upYoke (fun y => { y with copyNext := y.copyNext ++ [g] }) else s
/-- Send an applied write to the peer as a Mirror and wait for its MirrorAck (R323); a Mirror of a write to a marked grain
carries the whole merged line (R342). -/
def State.mirrorOut (r : Req) (s : State) : State :=
  let (tag, s1) := s.takeTag
  let m := r.message 2 tag false
  let m1 := if s.marked (grainOf r.line) then { m with full := true, data := s.current r.line, mask := fullMask } else m
  ((((s1.upYoke (fun y => { y with
    flights := y.flights ++ [⟨tag, r.line, some r.id, false, false, r.data, r.be, false, none⟩]
    mirrored := y.mirrored + 1 })).send m1).count 57 5 1).stageReq r.id .peer).dirtyAtPeer (grainOf r.line)

/-- Forward a write to its home and wait for Ordered or Mirror (R323). -/
def State.forwardOut (r : Req) (conditional : Bool) (s : State) : State :=
  let (tag, s1) := s.takeTag
  (((s1.upYoke (fun y => { y with
    flights := y.flights ++ [⟨tag, r.line, some r.id, true, false, r.data, r.be, conditional, none⟩]
    mirrored := y.mirrored + 1 })).send
      (r.message 1 tag conditional)).count 57 4 1).stageReq r.id .peer

/-- The write misses the front cache and must look up the tier for its merge base while its set's miss slot is held
(R117, R147). -/
def State.waitsSlot (s : State) (r : Req) : Bool :=
  decide (r.be ≠ fullMask) && (s.fcLine? r.line).isNone && (Tab.look s.fc.slots (fcSetKey r.line)).isSome
/-- A write that misses the front cache wakes its slice (R34); a partial one takes its set's miss slot (R117). -/
def State.missWrite (r : Req) (s : State) : State :=
  if (s.fcLine? r.line).isSome then s
  else
    let t := s.wakeSlice r.slice
    if r.be = fullMask then t
    else (t.upFc (fun c => { c with slots := Tab.put c.slots (fcSetKey r.line) r.id })).tagLookup (sectorOf r.line)
/-- An admitted write that stores: charged, applied by policy, then completed here, or mirrored in a pair (R143, R153,
R323). A partial write that misses waits for its set's miss slot (R117); a write that finds no tier sector waits for one
(R374). One that has waited into Brine mode is dropped (R263). -/
def State.storeWrite (r : Req) (s : State) : State :=
  let s1 := s.chargeFor r.line
  if s.inBrine then ((s.uncharge r).brineDrop r.line).answer r .complete
  else if s1.waitsSlot r then ((s1.wakeSlice r.slice).count r.slice 7 1).stageReq r.id .missSlot
  else
    let s2 := s1.missWrite r
    match s2.applyWrite r.line r.data r.be r.poison r.policy with
    | none => (s2.pressSet (sectorOf r.line)).stageReq r.id .sector
    | some t =>
      let t1 := (t.notePoison r).noteAccess (s1.fcLine? r.line).isSome r
      (if t1.paired then t1.mirrorOut r else t1.completeWrite r).keepBefore r.id (s.lineBefore r.line)

/-- Serve an ordinary write at its slice. -/
def State.serveWrite (r : Req) (s : State) : State :=
  if r.be = 0 then s.answer r .complete
  else if s.inBrine then (s.brineDrop r.line).answer r .complete
  else if s.yoke.member = 3 then s.stageReq r.id .suspect
  else if s.paired ∧ !s.home r.line then s.forwardOut r false
  else if s.admits r.line then s.storeWrite r
  else s.stageReq r.id .budget

/-- The outcome of a conditional write at the module it enters (R294, R297, R300): Stored while its partner holds a
reservation on the line, else why it was lost. -/
def State.condOutcome (s : State) (entry line : Nat) : Nat :=
  let sl := sliceOfLine line
  if s.atom.res.any (fun x => decide (x.slice = sl) && decide (x.entry = entry) && decide (x.line = line)) then 1
  else
    match Tab.look s.atom.ended (entry * 2 ^ 41 + line) with
    | some why => why
    | none => 2

/-- Record the outcome of a conditional write at its entry module (R298, R306). -/
def State.recordOutcome (entry line outcome : Nat) (s : State) : State :=
  (s.setStatus entry (sliceOfLine line) outcome line).countOutcome outcome

/-- Serve a conditional write (R294 to R296): decided when it is admitted; a failed one changes nothing and completes; one
that stores is an ordinary write, forwarded to the home in a pair, unless a change of its grain is ordered there that is not yet applied
here (R567, log entry 156). -/
def State.serveCond (r : Req) (s : State) : State :=
  let o := s.condOutcome r.entry r.line
  if s.yoke.member = 3 then s.stageReq r.id .suspect
  else if !(r.be = 0 || s.inBrine || s.admits r.line) then s.stageReq r.id .budget
  else
    let s1 := s.spendRes r.entry r.line
    if o ≠ 1 then (s1.recordOutcome r.entry r.line o).answer r .complete
    else if s.inBrine && decide (r.be ≠ 0) then ((s1.brineDrop r.line).recordOutcome r.entry r.line 10).answer r .complete
    else if s.paired ∧ !s.home r.line then
      if s.changing (grainOf r.line) then (s1.recordOutcome r.entry r.line 7).answer r .complete else s1.forwardOut r true
    else
      let s2 := (s1.recordOutcome r.entry r.line 1).count r.slice 11 1
      if r.be = 0 then s2.answer r .complete else s2.storeWrite r

/-- Serve a request of the pail. -/
def State.serve (r : Req) (s : State) : State :=
  match r.kind with
  | .read => s.serveRead r
  | .resRead => s.serveRead r
  | .write => s.serveWrite r
  | .condWrite => s.serveCond r

/-! ## The end of a fetch (R118, R119, R122, R147, R373) -/

/-- Answer the requests attached to a fetch with the line's content. -/
def State.answerAttached (line : Nat) (d : Line) (s : State) : State :=
  (s.reqs.list.filter (fun r => decide (r.line = line) && decide (r.stage = .attached))).foldl (fun t r => t.finishRead r d) s
/-- The requests attached to a fetch wait for the merge of their line (R147). -/
def State.parkAttached (line : Nat) (s : State) : State :=
  s.upReqs (fun q => { q with
    list := q.list.map (fun r => if r.line = line ∧ r.stage = .attached then { r with stage := .line } else r) })

/-- The poison event of a read that ends at step 5 (R125): 2202h after a converged decode with a bad line CRC, else
2201h. -/
def poisonCode (lastCrc : Bool) : Nat := if lastCrc then 0x2202 else 0x2201

/-- Locked lines of a front-cache set. -/
def State.lockedIn (s : State) (key : Nat) : Nat := ((s.fcMembers key).filter (fun kx => kx.2.locked)).length
/-- Lock a line that a LineLock has fetched, while its set has fewer than LockWaysMax locked lines (R366). -/
def State.lockFetched (m : Miss) (s : State) : State :=
  match s.fcLine? m.line with
  | some x => if m.kind = .lock ∧ s.lockedIn (fcSetKey m.line) < s.entry 0x2100 2 then s.fcPut m.line { x with locked := true } else s
  | none => s
/-- The data a fetch delivers (R119, R210): the place it looked up, or, for a line written since its issue, the line as it
stands. -/
def State.fetchedData (s : State) (m : Miss) : Line := if m.stale then s.current m.line else s.viewAt m.ppa m.slot
/-- The fetch's copy cannot be decrypted, and nothing newer was written (R407). -/
def State.fetchedLost (s : State) (m : Miss) : Bool := !m.stale && s.lostAt m.ppa m.slot

/-- A fetch that has answered its readers fills the tier, when every codeword of its sector has decoded (R122); else it
waits for the rest. A sector with a line under a lost key is not filled (R407). -/
def State.gather (m : Miss) (s : State) : State :=
  if m.fillTier && decide (m.parts ≠ []) then (s.setMiss { m with
      gathering := true
      recon := false
      peers := [] }).stopReads m
  else
    let t := s.dropMiss m
    if m.fillTier && decide (m.kind = .demand) &&
        !((List.range 32).any (fun j => t.storedLost (sectorOf m.line * 32 + j))) then t.tierFill (sectorOf m.line) false
    else t
/-- A demand fetch or a lock delivers its line (R119, R122): the readers are answered, the caches fill, keeping what was
written. A line that is Merging meanwhile lets its readers wait for the merge (R147). A lost line fills nothing, unless it is
being locked (R366). -/
def State.deliver (m : Miss) (s : State) : State :=
  let d := s.fetchedData m
  let lost := s.fetchedLost m
  let s1 := if lost then s.poison m.line else s
  let s2 := if (lost && decide (m.kind ≠ .lock)) || s.isMerging m.line then s1 else s1.fcFill m.line d m.policy
  let s3 := (s2.lockFetched m).gather m
  if s.isMerging m.line then s3.parkAttached m.line else s3.answerAttached m.line d

/-- The fill of a Filling sector arrives with every codeword good (R119, R148, R373); a line whose key is lost is poisoned
(R407). -/
def State.deliverFill (m : Miss) (s : State) : State :=
  let sec := sectorOf m.line
  let gone := ((List.range 32).map (fun j => sec * 32 + j)).filter (fun l => s.storedLost l && (match s.sector? sec with
    | some x => !x.present.getLsbD (l % 32) || decide (x.lineSt (l % 32) = .merging)
    | none => false))
  ((s.dropMiss m).poisonAll gone).fillSector sec

/-- A fetch ends at step 5 (R125): unless the line was written meanwhile (R119), it is poisoned with its event and its readers
get poison. A line being locked is locked as poison (R366). -/
def State.deliverPoison (m : Miss) (s : State) : State :=
  let s1 := s.dropMiss m
  if m.stale then
    if s1.isMerging m.line then s1.parkAttached m.line else s1.answerAttached m.line (s1.current m.line)
  else
    let s2 := s1.poisonBy (if m.kind = .demand then 1 else 6) m.line (poisonCode m.lastCrc)
    let s3 := if m.kind = .lock then (s2.fcFill m.line 0 m.policy).lockFetched m else s2
    s3.answerAttached m.line 0
/-- A fill that fails every step poisons the lines of its sector that were not written, each with its event; Merging lines
keep their bytes over zeros (R148, R373). -/
def State.poisonFill (m : Miss) (s : State) : State :=
  let sec := sectorOf m.line
  let s1 := s.dropMiss m
  match s1.sector? sec with
  | none => s1.wakeSector sec
  | some x =>
    let lost := (List.range 32).filter (fun j => !x.present.getLsbD j || decide (x.lineSt j = .merging))
    let s2 := lost.foldl (fun t j => t.poisonNow (sec * 32 + j) (poisonCode m.lastCrc)) s1
    let y := { x with
      filling := false
      present := BitVec.allOnes 32
      data := lost.foldl (fun t j => if x.lineSt j = .merging then
        Tab.set 0 t j (mergeBytes 0 (Tab.get 0 x.data j) (Tab.get 0 x.masks j)) else Tab.set 0 t j 0) x.data
      st := lost.foldl (fun t j => if x.lineSt j = .merging then Tab.set .clean t j .dirty else t) x.st
      masks := [] }
    ((x.mergingLines sec).foldl (fun t _ => t.countMerge true) (s2.putSector sec y)).wakeSector sec

/-- A side codeword has ended (R122): the fetch it belongs to no longer waits for it. One that failed leaves a demand read
without its tier fill, and fails a fill. -/
def State.endPart (m : Miss) (ok : Bool) (s : State) : State :=
  let t := s.dropMiss m
  match m.parent.bind t.missById with
  | none => t
  | some p =>
    let q := { p with parts := p.parts.filter (fun x => decide (x ≠ m.id)) }
    if p.kind = .fill then t.setMiss (if ok then q else { q with
      ended := .failed
      lastCrc := m.lastCrc })
    else
      let q1 := if ok then q else { q with
        fillTier := false
        parts := [] }
      if p.gathering then t.gather q1 else t.setMiss q1
/-- The codeword of a fetch is good (R118, R119, R122): a demand read and a lock deliver; a fill and a merge base wait for
their own rows. -/
def State.fetched (m : Miss) (s : State) : State :=
  match m.kind with
  | .demand => s.deliver m
  | .lock => s.deliver m
  | .side => s.endPart m true
  | _ => (s.setMiss { m with
      tgt := .good
      recon := false
      peers := []
      ended := if m.ended = .failed then .failed else .good }).stopReads m
/-- The codeword of a fetch has failed every step (R125). -/
def State.fetchFailed (m : Miss) (s : State) : State :=
  let t := s.upRstats (fun r => { r with poisoned := r.poisoned + 1 })
  match m.kind with
  | .demand => t.deliverPoison m
  | .lock => t.deliverPoison m
  | .side => t.endPart m false
  | _ => (t.setMiss { m with
      tgt := .failed
      recon := false
      peers := []
      ended := .failed }).stopReads m

end Sys2Proof.Machine
end

