-- ==== Sys2Proof/Machine/Media.lean ====
section
/-!
DEFINITION. The media side under the rows of MediaOps and Care: free groups and the reserve, placement into open groups,
page programs with their leave, moves, map changes after a verify, failures and retirement (R193 to R215, R234 to R249,
R262, R263, R404, R411).
-/
namespace Sys2Proof.Machine

/-! ## Groups, free space and the reserve (R187, R196, R234 to R237) -/

/-- Groups in the Free state (5060h.01). -/
def State.freeGroups (s : State) : Nat :=
  s.ident.variant.groups - s.ident.variant.slotGroups -
    (s.media.groups.filter (fun kg => decide (kg.2.st ≠ .free) && !s.slotGroup kg.1)).length -
    ((s.dump.images.filter (fun i => decide (i.place = 2))).map (fun i => i.groups.length)).foldl (· + ·) 0
/-- Groups neither Retired nor in a dump slot (R234). -/
def State.inService (s : State) : Nat :=
  s.ident.variant.groups - s.ident.variant.slotGroups -
    (s.media.groups.filter (fun kg => decide (kg.2.st = .retired))).length
/-- ReserveGroups, in sixteenths (R234, R236). -/
def State.reserveLeft (s : State) : Nat := s.ident.variant.reserve - s.care.reserveTaken
/-- ReservePercent (R236). -/
def State.reservePct (s : State) : Nat := 100 * s.reserveLeft / s.ident.variant.reserve
/-- A := Free − ceil(ReserveGroups / 16) − 96 (R235). -/
def State.available (s : State) : Int := (s.freeGroups : Int) - ((s.reserveLeft + 15) / 16 : Nat) - 96

/-- BrineState after a change of the reserve (R262). -/
def State.brineReserve (s : State) : State :=
  let b := s.care.brine
  if s.reserveLeft = 0 ∧ b < 2 then s.upCare (fun c => { c with brine := 2 })
  else if s.reservePct ≤ 10 ∧ b = 0 then s.upCare (fun c => { c with brine := 1 })
  else s

/-- ReserveGroups has fallen: 222Ah once for each threshold crossed (R237), and BrineState (R262). -/
def State.warnReserve (s : State) : State :=
  ([10, 5, 2].foldl (fun t k =>
    if t.reservePct ≤ k ∧ k ∉ t.care.warned then
      ((t.upCare (fun c => { c with warned := c.warned ++ [k] })).save 4).log 0x222A k
    else t) s).brineReserve
/-- ReserveGroups reaches 0: 222Bh with the groups moved out of it, once (R237). -/
def State.noteExhausted (moved : Nat) (s : State) : State :=
  if s.reserveLeft = 0 ∧ s.care.exhausted = false then
    (s.upCare (fun c => { c with exhausted := true })).log 0x222B moved
  else s
/-- The reserve falls by `n` sixteenths (R236, R237). -/
def State.takeReserve (n : Nat) (s : State) : State :=
  ((s.upCare (fun c => { c with reserveTaken := min s.ident.variant.reserve (c.reserveTaken + n) })).warnReserve).noteExhausted 0

/-- A below 0 with reserve left: whole groups move out of the reserve until A is 0, and 222Bh names how many (R236). -/
def State.reserveFloor (s : State) : State :=
  if s.available < 0 ∧ s.reserveLeft ≠ 0 then
    let k := min (-s.available).toNat ((s.reserveLeft + 15) / 16)
    let s1 := s.upCare (fun c => { c with reserveTaken := min s.ident.variant.reserve (c.reserveTaken + 16 * k) })
    ((s1.log 0x222B k).upCare (fun c => { c with exhausted := c.exhausted || decide (s1.reserveLeft = 0) })).warnReserve
  else s
/-- A is below a percentage of the in-service groups. -/
def State.belowPct (s : State) (pct : Nat) : Bool := decide (s.available * 100 < (pct * s.inService : Nat))
/-- SkimState as A stands (R238), once the map is resident (R232): the urgent level logs 2220h on each entry. -/
def State.skimLevel (s : State) : State :=
  if !s.map.resident then s
  else if s.belowPct (s.entry 0x2200 8) then
    if s.care.skim = 2 then s else (s.upCare (fun c => { c with skim := 2 })).log 0x2220 s.available.toNat
  else if s.belowPct (s.entry 0x2200 7) then s.upCare (fun c => { c with skim := 1 })
  else if s.care.skim = 3 then s
  else if s.belowPct (s.entry 0x2200 9) ∧ s.care.skim ≠ 0 then s.upCare (fun c => { c with skim := 1 })
  else s.upCare (fun c => { c with skim := 0 })
/-! ## Validity -/

/-- A page holds current data: its grain's map entry names it, an overlay slot names it, or it holds copies of a lap in force, or is
its root (R202, R220, R244). -/
def State.pageValid (s : State) (ppa : Nat) : Bool :=
  match s.page? ppa with
  | none => false
  | some p =>
    p.verified && (if p.kind = 1 then decide (s.mapEntry p.owner = { s.mapEntry p.owner with st := .mapped, page := ppa })
      else if p.kind = 2 then s.map.overlay.any (fun kv => decide (kv.2.page = ppa))
      else if p.kind = 3 then s.lapPageValid ppa
      else decide (p.kind = 4) && decide (s.map.ckpt.root = ppa + 1))
/-- The valid pages of a group, by rising PPA. -/
def State.validPages (s : State) (g : Nat) : List Nat :=
  (s.media.pages.filter (fun kp => decide (ppaGroup kp.1 = g) && s.pageValid kp.1)).map (fun kp => kp.1)
/-- Valid lines of a page: 256 of a grain or checkpoint page, its live logged lines of a line-log page (R239). -/
def State.pageLines (s : State) (ppa : Nat) : Nat :=
  match s.page? ppa with
  | none => 0
  | some p => if p.kind ≠ 2 then (if s.pageValid ppa then 256 else 0)
      else (s.map.overlay.filter (fun kv => decide (kv.2.page = ppa))).length
/-- valid(g) of R239. -/
def State.validLines (s : State) (g : Nat) : Nat := ((s.validPages g).map s.pageLines).foldl (· + ·) 0
/-- capacity(g) of R239: the lines the group's present data columns hold. -/
def State.groupCap (s : State) (g : Nat) : Nat :=
  let x := s.grp g
  let cols := match x.absentCol with
    | some _ => 15 * x.absentFrom + 14 * (4096 - x.absentFrom)
    | none => 15 * 4096
  cols * (if x.kind = .log then 224 else 256)
/-- Invalid space of all Closed groups, in lines (R262). -/
def State.invalidSpace (s : State) : Nat :=
  ((s.media.groups.filter (fun kg => decide (kg.2.st = .closed))).map (fun kg => s.groupCap kg.1 - s.validLines kg.1)).foldl
    (· + ·) 0

/-- Enter Brine mode (R263, R264): 222Ch with the cause; for its own condition a module tells its peer. -/
def State.enterBrine (cause : Nat) (s : State) : State :=
  if s.care.brine = 3 then s
  else
    let s1 := (s.upCare (fun c => { c with brine := 3 })).log 0x222C cause
    if cause = 1 ∧ s1.paired then s1.send { ty := 0x13, aux := 1 } else s1
/-- The condition of R262: state 02h, A at or below 0, less than one group of invalid space, once the valid counts are known (R226). -/
def State.checkBrine (s : State) : State :=
  if s.care.brine = 2 ∧ s.available ≤ 0 ∧ s.map.resident ∧ s.invalidSpace < 61440 * 256 then s.enterBrine 1 else s
/-- The number of Free groups has changed: the reserve, SkimState and the Brine condition follow A (R236, R238, R262). -/
def State.freeChanged (s : State) : State := s.reserveFloor.skimLevel.checkBrine

/-! ## Stale groups, resets and retirement (R202, R246, R248, R249) -/

/-- The leave number of a group's reset. -/
def resetId (g : Nat) : Nat := 2 ^ 41 + g
/-- The leave number of a copy stream for a victim (R437). -/
def streamId (g : Nat) : Nat := 2 ^ 42 + g
/-- The skim engine works for an activity (R232, R504). -/
def Act.copies (a : Act) : Bool := a ∈ [Act.skimming, .folding, .relocation, .clearing, .rebuild, .repour, .rekey, .resync, .eraser]
/-- The leave number of the copy stream of an activity that moves page by page (R437). -/
def actStream (a : Act) : Nat := 2 ^ 42 + 2 ^ 40 + actRank a
/-- The copy stream a pass belongs to (R437): its victim's, or its activity's. -/
def State.passStream (s : State) (p : Pass) : Option Nat :=
  if p.act.copies then
    match (s.grp (ppaGroup p.ppa)).copy with
    | some v => some (streamId v)
    | none => some (actStream p.act)
  else none
/-- Copy streams running or asked for; at most 4 run (R437). -/
def State.streamCount (s : State) : Nat := ((s.reg.granted ++ s.reg.waiting).filter Leave.isStream).length
/-- The columns of a group that are present. -/
def presentCols (x : Group) : List Nat := (List.range 16).filter (fun c => decide (x.absentCol ≠ some c) && !x.worse.contains c)

/-- Count a retired block of a die: 2222h, and its number for R205. -/
def State.retireBlock (g c : Nat) (s : State) : State :=
  let die := g / 4096 * 16 + c
  (s.upMedia (fun m => { m with
    retiredBlocks := Tab.put m.retiredBlocks die (Tab.get 0 m.retiredBlocks die + 1) })).log 0x2222 (g * 16 + c)

/-- Retire a group (R249): 2223h, and its reserve less what its absent columns took. -/
def State.retireGroup (g : Nat) (s : State) : State :=
  let x := s.grp g
  let s1 := (s.setGroup g { x with st := .retired }).log 0x2223 g
  (s1.takeReserve (16 - min 16 x.taken)).freeChanged

/-- A group's erase count has reached RetireCycles: the first one logs 2229h (R249). -/
def State.noteWear (g : Nat) (s : State) : State :=
  if s.care.wearOut || decide ((Tab.get ({} : Group) s.media.groups g).erase < s.entry 0x2220 2) then s
  else (s.upCare (fun c => { c with wearOut := true })).log 0x2229 g
/-- A group whose erase count has reached RetireCycles is retired in place of its reset: each of its present blocks retires
(R248) and logs 2222h, then the group (R249, log entry 46). DEDUCED -/
def State.wearOut (g : Nat) (s : State) : State :=
  ((presentCols (s.grp g)).foldl (fun t c => t.retireBlock g c) (s.noteWear g)).retireGroup g

/-- The jobs that mark groups to erase (R268): a secure discard here, one for the peer, and Sanitize for either. -/
def eraseJobs : List Nat := [0x9010, 0x4400, 0x8002, 0x8004]
/-- The master that resets a group (R105): the eraser one that a secure discard marks, skimming every other. -/
def State.resetAct (s : State) (g : Nat) : Act :=
  if s.cmds.jobs.any (fun kj => decide (kj.1 ∈ eraseJobs) && kj.2.marked.contains g) then .eraser else .skimming
/-- A group holds nothing valid: a Closed one becomes Stale and asks leave for its reset, a group with a second absent
column retires, and a worn-out one retires without a reset (R202, R249). A position under rebuild starts no reset (R207). -/
def State.settle (g : Nat) (s : State) : State :=
  let x := s.grp g
  if !(s.validPages g).isEmpty || s.media.passes.any (fun p => decide (ppaGroup p.ppa = g)) then s
  else if x.second && decide (x.st ∈ [GSt.opened, .closing, .closed]) then s.retireGroup g
  else if x.st = .closed then
    if s.entry 0x2220 2 ≤ x.erase then s.wearOut g
    else
      let t := s.setGroup g { x with st := .stale }
      if t.posFailed (g / 4096) then t
      else t.askLeave (resetId g) (s.resetAct g) 1 (4 * (presentCols x).length)
  else s

/-- A Closing group whose close verify waits for its relocations becomes Closed once they are done; its shadow parity is
released (R199, R202). -/
def State.closeGroup (g : Nat) (s : State) : State :=
  let x := s.grp g
  let waiting := s.media.relocQueue.any (fun r => decide (ppaGroup r.1 = g) && s.pageValid r.1) ||
    s.media.passes.any (fun p => match p.src with
      | some q => decide (ppaGroup q = g) && s.pageValid q
      | none => false)
  if x.st = .closing ∧ x.checked ∧ !waiting then
    (s.setGroup g { x with st := .closed, shadow := false, checked := false }).settle g
  else s.settle g

/-! ## Placement (R201, R235, R247, R447) -/

/-- Activities whose targets keep off a package at throttle-2 (R447). -/
def Act.shyOfHeat (a : Act) : Bool := a ∈ [Act.skimming, .folding, .repour, .rekey, .resync]
/-- Line-log groups in use (R211, R215). -/
def State.logGroups (s : State) : Nat :=
  (s.media.groups.filter (fun kg => decide (kg.2.kind = .log) && decide (kg.2.st ∉ [GSt.free, .retired]))).length
/-- Another quad of line-log groups stays within the LineLogMax share of raw payload (R211). -/
def State.logShare (s : State) : Bool := decide ((s.logGroups + 4) * 100 ≤ s.entry 0x2230 3 * s.ident.variant.groups)
/-- Activities that may open groups from the floor (R235); in Brine mode all others too but re-keying and resync (R263). -/
def State.mayOpen (s : State) (a : Act) : Bool :=
  decide (a ∈ [Act.rebuild, .relocation, .clearing, .lap]) || (s.inBrine && decide (a ∉ [Act.rekey, .resync])) || decide (4 ≤ s.available)
/-- A quad of the queue that may be opened now. -/
def State.quadOpen (s : State) (q : Nat) : Bool :=
  !s.posFailed (q / 1024) && (quadGroups q).any (fun g => decide ((s.grp g).st = .free))
/-- The next quad of the queue (R223, R247): in order, preferring positions below throttle-1 (R447). -/
def State.nextQuad (s : State) (a : Act) : Option Nat :=
  match s.map.queue.find? (fun q => s.quadOpen q && decide (s.posStep (q / 1024) = 0)) with
  | some q => some q
  | none => s.map.queue.find? (fun q => s.quadOpen q && !(a.shyOfHeat && decide (2 ≤ s.posStep (q / 1024))))
/-- A page of a group is programmed: with the first, its program time is recorded, and with the first on a package that package's
accumulator (R124, R250). -/
def State.noteProgram (ppa : Nat) (s : State) : State :=
  let g := ppaGroup ppa
  let pkg := packageOf (ppaDie ppa)
  s.upMedia (fun m =>
    let x := Tab.get ({} : Group) m.groups g
    { m with
      groups := Tab.set {} m.groups g { x with
        programTime := if x.dose.isEmpty then s.clk.ripe else x.programTime
        dose := if (Tab.look x.dose pkg).isNone then Tab.put x.dose pkg (Tab.get 0 s.care.doses pkg) else x.dose } })
/-- Open the Free groups of the next quad (R201, R202, R254). -/
def State.openQuad (kind : GKind) (copy : Option Nat) (a : Act) (s : State) : Option State :=
  if !s.mayOpen a ∨ s.freeGroups = 0 ∨ (kind = .log ∧ !s.logShare) then none
  else
    match s.nextQuad a with
    | none => none
    | some q =>
      let s1 := s.upMap (fun m => { m with
        queue := m.queue.filter (fun x => decide (x ≠ q) &&
        (quadGroups x).any (fun g => decide ((s.grp g).st = .free))) })
      some (((quadGroups q).foldl (fun t g =>
        let x := t.grp g
        if x.st = .free then
          t.setGroup g { x with
            st := .opened
            kind := kind
            cursor := 0
            copy := copy
            checked := false
            shadow := true
            programTime := t.clk.ripe
            dose := []
            reads := 0
            softs := 0
            deep := false
            lost := [] }
        else t) s1).freeChanged)

/-- The channel of the next data page of a group's current stripe. -/
def State.nextChannel (s : State) (g : Nat) : Option Nat :=
  let x := s.grp g
  (dataChannels x g x.cursor).find? (fun c => (s.page? (groupPpa g c x.cursor)).isNone)
/-- Open groups of a kind that take a page now, the one with the lowest stripe first, which fills a quad plane by plane. -/
def State.openFor (s : State) (kind : GKind) (copy : Option Nat) : Option Nat :=
  let ok := s.media.groups.filter (fun kg => decide (kg.2.st = .opened) && decide (kg.2.kind = kind) &&
    decide (kg.2.copy = copy) && decide (kg.2.cursor < 4096) && !kg.2.second && !s.posFailed (kg.1 / 4096))
  match ok.foldl (fun (b : Option (Nat × Group)) kg =>
      match b with
      | none => some kg
      | some x => if kg.2.cursor < x.2.cursor then some kg else b) none with
  | some (g, _) => some g
  | none => none
/-- The stripe index of a group moves on when its stripe has no data page left to place. -/
def State.stepCursor (g : Nat) (s : State) : State :=
  if (s.nextChannel g).isNone then
    s.upMedia (fun m => { m with
      groups := Tab.set {} m.groups g { Tab.get {} m.groups g with cursor := (Tab.get {} m.groups g).cursor + 1 } })
  else s
/-- The place of the next page of a kind: an Open group, or a newly opened quad. None when nothing may be opened. -/
def State.place (kind : GKind) (copy : Option Nat) (a : Act) (s : State) : Option (Nat × State) :=
  let at' := fun (t : State) => match t.openFor kind copy with
    | some g =>
      match t.nextChannel g with
      | some c => some (groupPpa g c (t.grp g).cursor, t)
      | none => none
    | none => none
  match at' s with
  | some r => some r
  | none =>
    match s.openQuad kind copy a with
    | some t => at' t
    | none => none

/-! ## Programs (R193, R203, R437) -/

/-- The next page generation (R193); its value is stored at each multiple of 2^20. -/
def State.takeGen (s : State) : Nat × State :=
  let g := s.media.gen
  let t := s.upMedia (fun m => { m with gen := g + 1 })
  (g, if (g + 1) % 2 ^ 20 = 0 then (t.upMedia (fun m => { m with genStored := g + 1 })).save 8 else t)
/-- A pass's copy stream asks for its leave, once (R437). -/
def State.askStream (p : Pass) (s : State) : State :=
  match s.passStream p with
  | none => s
  | some id =>
    if (s.reg.granted ++ s.reg.waiting).any (fun l => decide (l.id = id)) then s else s.askLeave id p.act p.prio 8
/-- Program a page at its place: its copy stream and the pass ask for leave (R437), and the stripe moves on. -/
def State.program (ppa : Nat) (pg : Page) (a : Act) (prio : Nat) (src : Option Nat) (s : State) : State :=
  let id := s.media.nextPass
  let p : Pass := ⟨id, ppa, a, prio, false, false, src, s.reqs.next, id⟩
  let s1 := s.upMedia (fun m => { m with
    pages := Tab.put m.pages ppa pg
    nextPass := id + 1
    passes := m.passes ++ [p] })
  let s2 := if a.copies then s1.count 58 1 256 else s1
  (((if pg.kind = 0 then s2 else s2.stepCursor (ppaGroup ppa))).askStream p).askLeave id a prio 3

/-- The key ID new data of a grain is written under: its range's, else the one it has (R402, R411). -/
def State.writeKey (s : State) (g old : Nat) : Nat :=
  match s.rangeAt (g * 16384) with
  | some (_, r) => r.keyId
  | none => old
/-- The content of a grain's 256 lines for a page: with the lines the caches hold for a writeback, as stored on media for
a move (R163, R241, R245). -/
def State.grainLines (s : State) (g : Nat) (held : Bool) : Tab Line :=
  (List.range 256).foldl (fun t j =>
    let l := g * 256 + j
    Tab.set 0 t j (if held then s.current l else s.stored l)) []
/-- The poisoned slots of a grain (R190). -/
def State.grainPoison (s : State) (g : Nat) : Tab Bool :=
  (List.range 256).foldl (fun t j => Tab.set false t j (s.poisoned (g * 256 + j))) []
/-- A grain page of a grain's content. -/
def State.grainPage (s : State) (g gen : Nat) (held : Bool) : Page :=
  let old := match s.page? (s.mapEntry g).page with
    | some p => p.keyId
    | none => 0
  { gen := gen
    kind := 1
    owner := g
    keyId := s.writeKey g old
    lines := s.grainLines g held
    slots := []
    poison := s.grainPoison g
    verified := false }
/-- An empty line-log page. -/
def logPage (gen : Nat) : Page :=
  { gen := gen
    kind := 2
    owner := 0
    keyId := 0
    lines := []
    slots := []
    poison := []
    verified := false }

/-! ## Internal reads (R125, R127, R163, R241, R253) -/

/-- Lines whose content an internal read takes from media: those no cache holds (R163). -/
def State.unheld (s : State) (ls : List Nat) : List Nat :=
  ls.filter (fun l => (s.fcLine? l).isNone && (s.tierLine? l).isNone && (s.copyAt l).isSome)
/-- The codeword of a page that holds a line slot: 32 lines of a grain page's, 28 of a line-log page's (R190, R211). -/
def State.wordAt (s : State) (ppa slot : Nat) : Nat :=
  match s.page? ppa with
  | some p => if p.kind = 2 then slot / 28 else slot / 32
  | none => slot / 32
/-- The codewords that hold the current copies of some lines, each once. -/
def State.wordsOf (s : State) (ls : List Nat) : List (Nat × Nat) :=
  ((ls.filterMap s.copyAt).map (fun p => (p.1, s.wordAt p.1 p.2))).eraseDups
/-- The lines among some whose current copy a codeword holds, each with its slot in the codeword. -/
def State.linesIn (s : State) (ls : List Nat) (ppa word : Nat) : List (Nat × Nat) :=
  ls.filterMap (fun l =>
    match s.copyAt l with
    | some (q, k) =>
      if q = ppa ∧ s.wordAt q k = word then some (l, match s.page? q with
        | some p => if p.kind = 2 then k % 28 else k % 32
        | none => k % 32)
      else none
    | none => none)
/-- The lines among some that a read loses, with the event of step 5 (R125): 2202h for one whose last attempt converged and failed its
CRC, else 2201h for each line of the codeword. -/
def State.wordLost (s : State) (ls : List Nat) (r : WordRead) : List (Nat × Nat) :=
  match r.found with
  | .failed slots _ => ((s.linesIn ls r.ppa r.word).filter (fun x => slots.isEmpty || slots.contains x.2)).map (fun x =>
      (x.1, if slots.isEmpty then 0x2201 else 0x2202))
  | _ => []
/-- The soft decodes a read made. -/
def findingSamples : Finding → List SoftSample
  | .converged _ => []
  | .soft _ _ m => m
  | .failed _ m => m
/-- The read went on to a reconstruction because its codeword did not decode (step 3 of R125). -/
def findingRebuilt : Finding → Bool
  | .converged _ => false
  | .soft k _ _ => decide (3 ≤ k)
  | .failed _ _ => true
/-- A codeword of a page crosses its die bus, on a channel that is awake (R36, R185, R254, R431). -/
def State.senseWord (ppa : Nat) (s : State) : State :=
  ((s.codewordRead ppa).wakeChannel (ppaCh ppa)).useBus (ppaCh ppa) false wordNs
/-- The peers of a page's codeword are read for its reconstruction (R132). -/
def State.sensePeers (ppa : Nat) (s : State) : State :=
  (s.stripePeers ppa).foldl (fun t c => (t.senseWord (groupPpa (ppaGroup ppa) c (ppaPage ppa))).count (32 + c) 6 1) s
/-- One soft decode of an internal read: counted, a sample for the cell of its page, the package's gill (R127, R253, R395). -/
def State.softSample (ppa : Nat) (m : SoftSample) (s : State) : State :=
  let q := groupPpa (ppaGroup ppa) m.ch (ppaPage ppa)
  let s1 := s.upRstats (fun r => if m.deep then { r with soft2 := r.soft2 + 1 } else { r with soft1 := r.soft1 + 1 })
  ((s1.softDecoded (s.cellOf q) q m.deep m.offsets).gill (gillOfPage q) 8).count (32 + m.ch) 7 1
/-- An internal read of one codeword climbs the ladder as far as it must (R125, R127, R137, R395); a page on a failed die is read through
its peers at once (R133). -/
def State.climb (ppa : Nat) (f : Finding) (s : State) : State :=
  let s1 := if s.dieFailed? (ppaDie ppa) then (s.upRstats (fun r => { r with busyRecon := r.busyRecon + 1 })).sensePeers ppa
    else s.senseWord ppa
  let s2 := (findingSamples f).foldl (fun t m => t.softSample ppa m) s1
  let s3 := if findingRebuilt f then
      ((s2.upRstats (fun r => { r with decodeRecon := r.decodeRecon + 1 })).gill (gillOfPage ppa) 64).sensePeers ppa
    else s2
  match f with
  | .converged c => if 24 < c then s3.gill (gillOfPage ppa) 1 else s3
  | .soft _ _ _ => s3
  | .failed _ _ => s3.upRstats (fun r => { r with poisoned := r.poisoned + 1 })
/-- Internal reads of the codewords that hold some lines, but those in `done`, each read once (R163): `reads` gives those that did not
converge at once. The lines that fail every step come first, each with its event. -/
def State.readLines (ls : List Nat) (done : List (Nat × Nat)) (reads : List WordRead) (s : State) : List (Nat × Nat) × State :=
  ((s.wordsOf ls).filter (fun w => !done.contains w)).foldl (fun (acc : List (Nat × Nat) × State) w =>
    let r : WordRead := match reads.find? (fun r => decide (r.ppa = w.1) && decide (r.word = w.2)) with
      | some r => r
      | none => ⟨w.1, w.2, .converged 0⟩
    (acc.1 ++ s.wordLost ls r, acc.2.climb w.1 r.found)) ([], s)
/-- Lines that failed every step of an internal read are poisoned, each with its event (R125, R163, R241). -/
def State.loseLines (bad : List (Nat × Nat)) (s : State) : State :=
  bad.foldl (fun t x => (t.poison x.1).log x.2 (x.1 * 64)) s

/-- Lines poisoned in a scrub pass enter its summary and the Scan Media results (R260). -/
def State.scrubPoison (ls : List Nat) (s : State) : State :=
  if s.scrubs && !ls.isEmpty then
    (((s.upMbox (fun m => { m with scanResults := m.scanResults ++ ls })).tally 8 (fun n => n + ls.length)).tally 9 (fun n =>
      if n = 0 then ls.foldl min (ls.headD 0) * 64 + 1 else min n (ls.foldl min (ls.headD 0) * 64 + 1)))
  else s
/-- Lines that reach media under a lost key are discarded and poisoned (R407). -/
def State.lostKeyWrite (key : Nat) (ls : List Nat) (s : State) : State :=
  if (s.keyRec key).lost then s.poisonAll ls else s

/-- A page's generation is above that of a line's current copy and of every other page in flight that holds the line, so that its copy
stays the newest (R213, R245, R271). -/
def State.newestFor (s : State) (line gen ppa : Nat) : Bool :=
  (match s.copyAt line with
   | some (q, _) => decide (s.genAt q < gen)
   | none => true) &&
  s.media.passes.all (fun p => decide (p.ppa = ppa) || (match s.page? p.ppa with
    | some pg => decide (pg.gen < gen) || !((decide (pg.kind = 1) && decide (pg.owner = grainOf line)) ||
        pg.liveSlots.any (fun kv => decide (kv.2.line = line)))
    | none => true))
/-- A line-log page whose program has not started takes these lines next: the page under way for that purpose, which holds none of
them yet and is newer than every copy of them (R213). -/
def State.openLog (s : State) (a : Act) (copy : Option Nat) (lines : List Nat) : Option (Nat × Page) :=
  s.media.passes.findSome? (fun p =>
    match s.page? p.ppa with
    | some pg =>
      if pg.kind = 2 ∧ !p.started ∧ p.act = a ∧ (s.grp (ppaGroup p.ppa)).copy = copy ∧ pg.slots.length < 224 ∧
          !(pg.slots.any (fun kv => lines.contains kv.2.line)) ∧ lines.all (fun l => s.newestFor l pg.gen p.ppa) then some (p.ppa, pg)
      else none
    | none => none)
/-- Put a line into the next slot of a line-log page (R211). -/
def State.putLogSlot (ppa : Nat) (pg : Page) (line : Nat) (d : Line) (s : State) : State :=
  s.upMedia (fun m => { m with
    pages := Tab.put m.pages ppa { pg with
      slots := Tab.put pg.slots pg.slots.length ⟨line, s.writeKey (grainOf line) 0, d, false⟩
      poison := Tab.set false pg.poison pg.slots.length (s.poisoned line) } })
/-- A new line-log page with a line in its first slot. -/
def State.newLog (line : Nat) (d : Line) (a : Act) (prio : Nat) (copy src : Option Nat) (s : State) : Option (Nat × State) :=
  match s.place .log copy a with
  | none => none
  | some (ppa, t) =>
    let (gen, t1) := t.takeGen
    some (ppa, (t1.program ppa (logPage gen) a prio src).putLogSlot ppa (logPage gen) line d)
/-- Append the next line of a run to the line log (R211): to the page the run fills, or to a new one when that is full. -/
def State.appendNext (cur : Option Nat) (line : Nat) (d : Line) (a : Act) (prio : Nat) (copy src : Option Nat) (s : State) :
    Option (Nat × State) :=
  match cur with
  | none => s.newLog line d a prio copy src
  | some ppa =>
    match s.page? ppa with
    | some pg => if pg.slots.length < 224 then some (ppa, s.putLogSlot ppa pg line d) else s.newLog line d a prio copy src
    | none => s.newLog line d a prio copy src
/-- Append a grain's lines to the line log in ascending order (R211, R213): from the page being filled, when it holds none of
them, on. The page of each line comes with it. -/
def State.appendLines (ls : List (Nat × Line)) (a : Act) (prio : Nat) (copy src : Option Nat) (s : State) :
    Option (List (Nat × Nat) × State) :=
  let start := (s.openLog a copy (ls.map (fun x => x.1))).map (fun x => x.1)
  (ls.foldl (fun (acc : Option (Option Nat × List (Nat × Nat) × State)) x =>
    match acc with
    | none => none
    | some (cur, at', t) =>
      match t.appendNext cur x.1 x.2 a prio copy src with
      | none => none
      | some (ppa, u) => some (some ppa, at' ++ [(x.1, ppa)], u)) (some (start, [], s))).map (fun r => r.2)

/-! ## Map changes (R210, R213, R244) -/

/-- The line log is near a limit (R215): live lines, log groups, the journal. -/
def State.logLimits (s : State) : List Nat :=
  let hw := s.entry 0x2230 2
  let groups := s.logGroups
  let one := decide (hw * 8 * 2 ^ s.ident.variant.overlayBits ≤ s.liveLogged * 100)
  let two := decide (hw * s.entry 0x2230 3 * s.ident.variant.groups ≤ groups * 10000)
  let three := decide (402653184 ≤ s.journalBytes)
  (if one then [1] else []) ++ (if two then [2] else []) ++ (if three then [3] else [])
/-- Log 2217h for each limit reached since the last look (R215). -/
def State.noteLimits (s : State) : State :=
  let now := s.logLimits
  let t := s.upMap (fun m => { m with limitLogged := (now.map (fun k => 2 ^ k)).foldl (· + ·) 0 })
  (now.filter (fun k => decide (s.map.limitLogged / 2 ^ k % 2 = 0))).foldl (fun u k => u.log 0x2217 k) t

/-- Switch a grain's map entry to a verified page (R210, R213): the record first, then the entry; logged copies older than
the page are superseded, and the group of the old page is looked at. -/
def State.mapGrain (g ppa gen : Nat) (s : State) : State :=
  let old := s.mapEntry g
  let olderThan := fun (o : OvSlot) => match s.page? o.page with
    | some p => decide (p.gen < gen)
    | none => true
  let left := (s.loggedLines g).filter (fun o => !olderThan o)
  let gone := (s.loggedLines g).filter olderThan
  let e : MapEntry := { st := .mapped, logged := !left.isEmpty, page := ppa }
  let s1 := (s.journal (.mapSet g e)).upMap (fun m => { m with
    entries := Tab.set {} m.entries g e
    overlay := m.overlay.filter (fun kv => decide (grainOf kv.2.line ≠ g) || !olderThan kv.2) })
  let s2 := if gone.isEmpty then s1 else (s1.upCare (fun c => { c with folded := c.folded + 1 })).trimFilter g
  let touched := ((if old.st = .mapped then [ppaGroup old.page] else []) ++ gone.map (fun o => ppaGroup o.page)).eraseDups
  touched.foldl (fun t k => t.settle k) s2

/-- Index one line to its log copy (R213, R214), when the copy is newer than the current one. -/
def State.indexLine (line ppa slot gen : Nat) (s : State) : State :=
  let newer := match s.copyAt line with
    | none => false
    | some (q, _) =>
      match s.page? q with
      | some p => decide (p.gen < gen)
      | none => true
  if newer then
    let g := grainOf line
    let old := match s.overlayOf line with
      | some o => [ppaGroup o.page]
      | none => []
    let s1 := ((s.ovInsert line ppa slot).upMap (fun m => { m with
      entries := Tab.set {} m.entries g { Tab.get ({} : MapEntry) m.entries g with logged := true } })).enterFilter g
    old.foldl (fun t k => t.settle k) s1
  else s

/-! ## Keys and re-keying (R404, R405, R408, R411) -/

/-- The page count of a key ID: valid grain pages and live log slots under it (R405). -/
def State.keyPages (s : State) (id : Nat) : Nat :=
  (s.map.entries.filter (fun kv => decide (kv.2.st = .mapped) && (match s.page? kv.2.page with
    | some p => decide (p.keyId = id)
    | none => false))).length
  + (s.map.overlay.filter (fun kv => decide (s.slotKeyAt kv.2.page kv.2.slot = id))).length
/-- A page in flight holds data under a key ID. -/
def State.keyInFlight (s : State) (id : Nat) : Bool :=
  s.media.passes.any (fun p => match s.page? p.ppa with
    | some pg => (decide (pg.kind = 1) && decide (pg.keyId = id)) || pg.slots.any (fun kv => decide (kv.2.keyId = id))
    | none => false)
/-- Destroy a key: out of the cache and the record, before the event (R408). -/
def State.destroyKey (id : Nat) (s : State) : State :=
  ((s.upKeys (fun k => { k with
    cache := k.cache.filter (fun x => decide (x ≠ id))
    recs := Tab.set {} k.recs id { Tab.get {} k.recs id with
      st := 0
      imported := false
      material := 0
      lost := false } })).measure 5).count 60 6 12
/-- A Retiring ID whose page count is 0, with nothing under it in flight, becomes Free: 4002h (R404). -/
def State.retireKeys (s : State) : State :=
  (s.keys.recs.filter (fun kv => decide (kv.2.st = 2))).foldl (fun t kv =>
    if t.keyPages kv.1 = 0 ∧ !t.keyInFlight kv.1 then (t.destroyKey kv.1).log 0x4002 kv.1 else t) s
/-- Grains of a range stored under another ID than its own (R411, R412). -/
def State.rekeyLeft (s : State) (r : Nat) : List Nat :=
  let x := s.range r
  (s.map.entries.filter (fun kv => decide (kv.2.st = .mapped) && x.covers (kv.1 * 16384) &&
    ((match s.page? kv.2.page with
      | some p => decide (p.keyId ≠ x.keyId)
      | none => false) ||
     (s.loggedLines kv.1).any (fun o => decide (s.slotKeyAt o.page o.slot ≠ x.keyId))))).map (fun kv => kv.1)
/-! ## Moves (R197, R204, R206, R241) -/

/-- A writeback of the grain is under way. -/
def State.wbOf (s : State) (g : Nat) : Bool := s.budget.running.any (fun w => decide (w.grain = g))
/-- A pass or a copy set moves the page already (R271). -/
def State.moving (s : State) (ppa : Nat) : Bool :=
  s.media.passes.any (fun p => decide (p.src = some ppa)) ||
    s.care.copySets.any (fun k => k.pages.any (fun x => decide (x.1 = ppa)))
/-- Insert an overlay slot by rising line. -/
def insertLine (o : OvSlot) : List OvSlot → List OvSlot
  | [] => [o]
  | x :: t => if o.line ≤ x.line then o :: x :: t else x :: insertLine o t
/-- The live logged lines of a page, in ascending line order (R211). -/
def State.liveOn (s : State) (ppa : Nat) : List OvSlot :=
  ((s.map.overlay.filter (fun kv => decide (kv.2.page = ppa))).map (fun kv => kv.2)).foldr insertLine []
/-- Move one page (R197, R241): a grain page is rewritten whole with its logged lines folded in, a log page's live lines
go to a new log page, a checkpoint or root page is copied. None while it cannot be placed, its grain is being written back, or another
activity moves it: it is copied once (R271). -/
def State.movePage (ppa : Nat) (a : Act) (prio : Nat) (copy : Option Nat) (s : State) : Option State :=
  match s.page? ppa with
  | none => none
  | some p =>
    if s.moving ppa then none
    else if p.kind = 1 then
      if s.wbOf p.owner then none
      else
        match s.place .grain copy a with
        | none => none
        | some (dst, t) =>
          let (gen, t1) := t.takeGen
          some (t1.program dst (t1.grainPage p.owner gen false) a prio (some ppa))
    else if p.kind = 2 then
      let live := s.liveOn ppa
      match s.place .log copy a with
      | none => none
      | some (dst, t) =>
        let (gen, t1) := t.takeGen
        let pg := live.foldl (fun (q : Page) o =>
          { q with
            slots := Tab.put q.slots q.slots.length ⟨o.line, s.writeKey (grainOf o.line) 0, s.stored o.line, false⟩
            poison := Tab.set false q.poison q.slots.length (s.poisoned o.line) }) (logPage gen)
        some (t1.program dst pg a prio (some ppa))
    else if p.kind = 0 then none
    else
      match s.place .checkpoint copy a with
      | none => none
      | some (dst, t) =>
        let (gen, t1) := t.takeGen
        some (t1.program dst { p with
          gen := gen
          verified := false } a prio (some ppa))
/-- A receiver writes the grains whose copy has arrived whole into new pages (R343); a grain without room waits, and while the journal is
full all do (R219). -/
def State.runResync (s : State) : State :=
  if s.journalFull then s
  else (s.yoke.sectorGot.filter (fun kv => decide (kv.2 = 255))).foldl (fun t kv =>
    let g := kv.1
    if t.media.passes.any (fun p => decide (p.act = .resync) && (match t.page? p.ppa with
        | some q => decide (q.owner = g)
        | none => false)) then t
    else
      match t.place .grain none .resync with
      | none => t
      | some (ppa, u) =>
        let (gen, w) := u.takeGen
        let bad := Tab.get 0 t.yoke.sectorPoison g
        w.program ppa
          { gen := gen
            kind := 1
            owner := g
            keyId := w.writeKey g 0
            lines := Tab.get [] t.yoke.sectors g
            slots := []
            poison := ((List.range 256).filter (fun j => decide (bad / 2 ^ j % 2 = 1))).map (fun j => (j, true))
            verified := false } .resync 2 none) s
/-- Run the queue of moves (R204, R206): nothing starts before the map is resident (R232), in the Prepared state (R533) or while the
journal is full (R219);
what cannot be placed waits. -/
def State.runMoves (s : State) : State :=
  if !s.map.resident || s.still || s.journalFull then s
  else
    s.media.relocQueue.foldl (fun t r =>
      let drop := t.upMedia (fun m => { m with relocQueue := m.relocQueue.filter (fun x => decide (x.1 ≠ r.1)) })
      if !t.pageValid r.1 ∨ t.moving r.1 then drop
      else
        match drop.movePage r.1 r.2.1 r.2.2 none with
        | some u => u
        | none => t) s.runResync
/-- Queue pages for a move and run the queue. -/
def State.queueMoves (ps : List Nat) (a : Act) (prio : Nat) (s : State) : State :=
  (s.upMedia (fun m => { m with
    relocQueue := m.relocQueue ++ ((ps.filter (fun p => !(m.relocQueue.any (fun x => decide (x.1 = p))))).map (fun p =>
      (p, a, prio))) })).runMoves

/-- Pages of some codewords that were rebuilt for their own decode are relocated (R197). -/
def State.moveRebuilt (words : List (Nat × Nat)) (reads : List WordRead) (s : State) : State :=
  s.queueMoves ((reads.filter (fun r => words.contains (r.ppa, r.word) && findingRebuilt r.found && s.pageValid r.ppa)).map
    (fun r => r.ppa)).eraseDups .relocation 1
/-- Put the grains of a range still under another key ID to the re-key skim (R411). -/
def State.rekeyRun (r : Nat) (s : State) : State :=
  s.queueMoves ((s.rekeyLeft r).map (fun g => (s.mapEntry g).page)) .rekey 2
/-- A page in flight holds grains or lines of a range under another ID than its own: a writeback or a move begun before the range was
bound to it (R411, R419). -/
def State.rekeyFlight (s : State) (r : Nat) : Bool :=
  let x := s.range r
  s.media.passes.any (fun p =>
    match s.page? p.ppa with
    | some pg => (decide (pg.kind = 1) && x.covers (pg.owner * 16384) && decide (pg.keyId ≠ x.keyId)) ||
        pg.liveSlots.any (fun kv => x.covers (grainOf kv.2.line * 16384) && decide (kv.2.keyId ≠ x.keyId))
    | none => false)
/-- Re-key skims whose range is wholly under its ID, pages in flight too, end: 4004h (R411), and a running ReKey command is done (R412).
The others go on with the grains that have come to lie under another ID since: a writeback or a move begun under the old one has landed
(R419). -/
def State.rekeyDone (s : State) : State :=
  s.tabs.rekeying.foldl (fun t r =>
    if (t.rekeyLeft r).isEmpty && !t.rekeyFlight r then
      let t1 := (t.upTabs (fun x => { x with rekeying := x.rekeying.filter (fun k => decide (k ≠ r)) })).log 0x4004 r
      if t1.ctl 0x9040 = 1 ∧ t1.entry 0x9040 1 = r then t1.setCtl 0x9040 2 else t1
    else t.rekeyRun r) s

/-! ## Losses (R200, R204, R205, R207) -/

/-- Lines a page holds the current copy of. -/
def State.linesOn (s : State) (ppa : Nat) : List Nat :=
  match s.page? ppa with
  | none => []
  | some p =>
    if p.kind = 1 then
      if s.pageValid ppa then
        ((List.range 256).map (fun j => p.owner * 256 + j)).filter (fun l => (s.overlayOf l).isNone)
      else []
    else (s.map.overlay.filter (fun kv => decide (kv.2.page = ppa))).map (fun kv => kv.2.line)
/-- Pages that cannot be recovered (R200): 2216h with the first; alone, each line no cache holds is poisoned; in a pair
the grains are marked divergent, StaleSelf is set and the peer's copy repairs them. -/
def State.stripeLost (ps : List Nat) (s : State) : State :=
  match ps.filter s.pageValid with
  | [] => s
  | p :: rest =>
    let ls := ((p :: rest).map s.linesOn).foldl (· ++ ·) []
    let s1 := s.log 0x2216 p
    if s.yoke.record.peerSerial = 0 then
      s1.poisonAll (ls.filter (fun l => !((s.fcLine? l).isSome || (s.tierLine? l).isSome)))
    else
      let gs := (((p :: rest).filterMap (fun q => match s.page? q with
          | some x => if x.kind = 1 then some x.owner else none
          | none => none)) ++ ls.map grainOf).eraseDups
      (gs.foldl (fun t g => t.mark g) s1.damaged).receiveDamaged

/-- Pages of the stripe of a page that lie on failed dies whose data has not all moved (R200, R207). -/
def State.stripeDead (s : State) (ppa : Nat) : List Nat :=
  (((List.range 16).filter (fun c => s.dieFailed? (ppaPos ppa * 16 + c))).map (fun c =>
    groupPpa (ppaGroup ppa) c (ppaPage ppa))).filter (fun q => (s.page? q).isSome)
/-- Every loss that bears on the recovery of some pages: the pages, those found unreadable with them, those lost in their groups
since they opened, and those on failed dies (R200). -/
def State.allLosses (s : State) (ps : List Nat) : List Nat :=
  (ps ++ (ps.map (fun q => (s.grp (ppaGroup q)).lost ++ s.stripeDead q)).foldl (· ++ ·) []).eraseDups
/-- A page is the only loss in its column since its group opened, and the column's accumulator is held (R198, R200). -/
def State.soleInColumn (s : State) (losses : List Nat) (q : Nat) : Bool :=
  (s.grp (ppaGroup q)).shadow &&
    !(losses.any (fun x => decide (x ≠ q) && decide (ppaGroup x = ppaGroup q) && decide (ppaCh x = ppaCh q)))
/-- The stripe's parity is there: its XOR page, or its accumulator (R195, R198). -/
def State.parityThere (s : State) (losses : List Nat) (q : Nat) : Bool :=
  let x := groupPpa (ppaGroup q) (xorChannel (s.grp (ppaGroup q)) (ppaGroup q) (ppaPage q)) (ppaPage q)
  (s.grp (ppaGroup q)).shadow || ((s.page? x).isSome && !losses.contains x)
/-- A lost page that R200 cannot recover: it is not the only loss in its column, and its stripe's parity is missing or has
another loss that its own column does not give back. -/
def State.unrecovered (s : State) (losses : List Nat) (q : Nat) : Bool :=
  let hard := losses.filter (fun x => decide (ppaGroup x = ppaGroup q) && decide (ppaPage x = ppaPage q) &&
    !s.soleInColumn losses x)
  !s.soleInColumn losses q && (decide (2 ≤ hard.length) || !s.parityThere losses q)
/-- The pages of some that cannot be recovered, with those that decoded badly while they were read for it (R200). -/
def State.goneOf (s : State) (ps unread : List Nat) : List Nat :=
  let all := s.allLosses (ps ++ unread)
  (ps ++ unread).eraseDups.filter (s.unrecovered all)
/-- The pages lost in an Open or Closing group are remembered with it (R200). -/
def State.noteLost (ps : List Nat) (s : State) : State :=
  ps.foldl (fun t q => t.upMedia (fun m => { m with
    groups := Tab.set {} m.groups (ppaGroup q) { Tab.get ({} : Group) m.groups (ppaGroup q) with
      lost := (Tab.get ({} : Group) m.groups (ppaGroup q)).lost ++ [q] } })) s

/-- Return the lines of a page that did not stand to Dirty, and end their writeback: the grain is written back again, for what it was
taken for (R154, R164). -/
def State.returnLines (ls : List Nat) (s : State) : State :=
  let s0 := ls.foldl (fun t l => t.returnLine l) s
  let s1 := (s.budget.running.filter (fun w => w.taken.any (fun l => ls.contains l))).foldl (fun t w => t.queueWb w.grain w.prio) s0
  s1.upBudget (fun b => { b with
    running := (b.running.map (fun w => { w with taken := w.taken.filter (fun l => decide (l ∉ ls)) })).filter (fun w =>
      decide (w.taken ≠ [])) })
/-- The lines a pass carries for a writeback. -/
def State.passLines (s : State) (q : Pass) : List Nat :=
  match s.page? q.ppa with
  | none => []
  | some p =>
    if q.src.isSome then []
    else if p.kind = 1 then
      match s.budget.running.find? (fun w => decide (w.grain = p.owner)) with
      | some w => w.taken
      | none => []
    else p.liveSlots.map (fun kv => kv.2.line)

/-- Another page of the same multi-plane pass is still being programmed. -/
def State.passShared (s : State) (p : Pass) : Bool :=
  s.media.passes.any (fun x => decide (x.id ≠ p.id) && decide (x.op = p.op) && x.started && !x.programmed)
/-- A page's part of its pass is over: the last one releases the pass's leave and its die (R437). -/
def State.leavePass (p : Pass) (s : State) : State :=
  if p.programmed || s.passShared p then s
  else
    ((s.giveLeave p.op).giveLeave p.id).upMedia (fun m => { m with
      ops := Tab.erase m.ops p.op
      tokenQueue := m.tokenQueue.filter (fun x => decide (x ≠ p.op))
      lastOp := Tab.put m.lastOp (ppaCh p.ppa) s.clk.now })
/-- The stream of an activity that moves page by page ends with its last pass; a copy set's runs until its victim is done (R437). -/
def State.endStream (a : Act) (s : State) : State :=
  if s.media.passes.any (fun x => decide (s.passStream x = some (actStream a))) then s else s.giveLeave (actStream a)
/-- Remove a pass with its leave and die operation. -/
def State.endPass (p : Pass) (s : State) : State :=
  ((s.leavePass p).upMedia (fun m => { m with passes := m.passes.filter (fun x => decide (x.id ≠ p.id)) })).endStream p.act

/-- A column of a group becomes absent from a page on (R196, R204, R248): 2213h, its block retires, a sixteenth of the
reserve (R236); a second one stops the group, whose valid data is relocated. Pages programmed in the column before, at that index or a later
one, stay valid: DESIGN CHOICE, the spec is silent on them (log entry 123). -/
def State.columnAbsent (g c page : Nat) (s : State) : State :=
  let x := s.grp g
  if x.absentCol = some c ∨ x.worse.contains c then s
  else
    let s1 := s.log 0x2213 (g * 16 + c)
    let now := Tab.get ({} : Group) s1.media.groups g
    let s2 := match x.absentCol with
      | none => s1.setGroup g { now with
          absentCol := some c
          absentFrom := page
          taken := x.taken + 1 }
      | some _ =>
        let t := s1.setGroup g { now with
          second := true
          worse := now.worse ++ [c]
          taken := now.taken + 1 }
        if x.second then t else t.queueMoves (t.validPages g) .clearing 1
    ((s2.takeReserve 1).retireBlock g c).freeChanged

/-- A die is declared failed (R205 to R207): 2214h, its row closes to programs and resets, its open groups close, a
column of every group of its position is charged to the reserve, and phase 1 starts. -/
def State.failDie (pos ch : Nat) (s : State) : State :=
  let die := pos * 16 + ch
  if Tab.get 0 s.media.dieSt die ≠ 0 then s
  else
    let others := (s.media.groups.filter (fun kg => decide (kg.1 / 4096 = pos) &&
      (decide (kg.2.st = .retired) || decide (kg.2.absentCol = some ch)))).length
    let slots := (List.range 4096).filter (fun i => s.slotGroup (pos * 4096 + i))
    let s0 := s.upMedia (fun m => { m with dieSt := Tab.put m.dieSt die 1 })
    let s1 := ((s.media.groups.filter (fun kg => decide (kg.1 / 4096 = pos) && decide (kg.2.st = .opened))).foldl (fun t kg =>
      t.setGroup kg.1 { kg.2 with
        st := .closing
        shadow := false }) s0).log 0x2214 die
    let s2 := (s1.takeReserve (4096 - others - slots.length)).freeChanged
    let s3 := s2.boundFail 0 true
    if s3.media.rebuildPhase = 0 then
      (s3.upMedia (fun m => { m with
        rebuildPhase := 1
        rebuildDie := die
        rebuildMoved := 0 })).queueMoves ((s3.media.pages.filter (fun kp => decide (ppaDie kp.1 = die) &&
          s3.pageValid kp.1)).map (fun kp => kp.1)) .rebuild 0
    else s3
/-! ## Copy sets (R243, R244) -/

/-- The copy set a page is a target of. -/
def State.setOf (s : State) (ppa : Nat) : Option CopySet :=
  s.care.copySets.find? (fun k => k.pages.any (fun p => decide (p.2 = ppa)) || k.logs.any (fun l => decide (l.2.2 = ppa)) ||
    decide ((s.grp (ppaGroup ppa)).copy = some k.victim))
/-- Drop a copy set and every pass of it; its pages are superseded (R243, R271). -/
def State.dropSet (k : CopySet) (s : State) : State :=
  let mine := s.media.passes.filter (fun p => decide ((s.grp (ppaGroup p.ppa)).copy = some k.victim))
  let s1 := mine.foldl (fun t p => t.endPass p) s
  s1.upCare (fun c => { c with copySets := c.copySets.filter (fun x => decide (x.victim ≠ k.victim)) })

/-- The lines of a log victim that are re-appended, and the grains that are folded (R242). -/
def State.foldGrain (s : State) (g : Nat) : Bool :=
  let ls := s.loggedLines g
  let cw := (ls.map (fun o => o.page * 8 + o.slot / 28)).eraseDups.length
  decide (s.entry 0x2200 10 ≤ ls.length) || decide (4 < cw) || !s.isMapped g || !s.logLimits.isEmpty || !s.logShare

/-- A target lies within the 64 consecutive page indices of one quad that a copy set takes, from its first target on (R243). -/
def fitsSet (targets : List Nat) (ppa : Nat) : Bool :=
  match targets with
  | [] => true
  | t :: _ => decide (quadOf (ppaGroup ppa) = quadOf (ppaGroup t)) && decide (ppaPage t ≤ ppaPage ppa) &&
      decide (ppaPage ppa < ppaPage t + 64)
/-- Put one valid page of a victim into its copy set (R241 to R243): a grain page whole; of a line-log page, each grain with live lines on
it is folded, or all its lines that the victim holds are appended again together (R242). What falls outside its page indices waits for
the next set. -/
def State.copyPage (k : CopySet) (ppa : Nat) (s : State) : CopySet × State :=
  match s.page? ppa with
  | none => (k, s)
  | some p =>
    if p.kind = 1 then
      match s.movePage ppa k.act k.prio (some k.victim) with
      | none => (k, s)
      | some t =>
        match t.media.passes.getLast? with
        | some q => if fitsSet (k.pages.map (fun x => x.2)) q.ppa then ({ k with pages := k.pages ++ [(ppa, q.ppa)] }, t) else (k, s)
        | none => (k, t)
    else
      ((s.liveOn ppa).map (fun o => grainOf o.line)).eraseDups.foldl (fun (acc : CopySet × State) g =>
        let u := acc.2
        let live := ((u.loggedLines g).filter (fun o => decide (ppaGroup o.page = k.victim) && (u.page? o.page).isSome)).foldr insertLine []
        if u.wbOf g || live.any (fun o => acc.1.logs.any (fun l => decide (l.1 = o.line))) then acc
        else if u.foldGrain g then
          if acc.1.pages.any (fun p => decide (p.1 = (u.mapEntry g).page)) then acc
          else
            match u.movePage (u.mapEntry g).page k.act k.prio (some k.victim) with
            | none => acc
            | some t =>
              match t.media.passes.getLast? with
              | some q =>
                if fitsSet (acc.1.pages.map (fun x => x.2)) q.ppa then
                  ({ acc.1 with pages := acc.1.pages ++ [((u.mapEntry g).page, q.ppa)] }, t)
                else acc
              | none => (acc.1, t)
        else
          match u.appendLines (live.map (fun o => (o.line, u.stored o.line))) k.act k.prio (some k.victim) none with
          | none => acc
          | some (at', t) =>
            if at'.all (fun x => fitsSet (acc.1.logs.map (fun l => l.2.2) ++ at'.map (fun y => y.2)) x.2) then
              ({ acc.1 with logs := acc.1.logs ++ at'.map (fun x => (x.1, (match live.find? (fun o => decide (o.line = x.1)) with
                | some o => o.page
                | none => ppa), x.2)) }, t)
            else acc) (k, s)
/-- The stripes a copy set has begun end with it: their groups move on to the next page index (R243, log entry 18). -/
def State.sealSet (k : CopySet) (s : State) : State :=
  s.upMedia (fun m => { m with
    groups := m.groups.map (fun kg =>
      if kg.2.copy = some k.victim ∧ kg.2.st = .opened ∧
          (List.range 16).any (fun c => (s.page? (groupPpa kg.1 c kg.2.cursor)).isSome) then
        (kg.1, { kg.2 with cursor := kg.2.cursor + 1 })
      else kg) })
/-- Start a copy set of a victim (R243): at most 3,840 valid pages. A victim of which nothing can be placed gives its stream back
(R437). -/
def State.startSet (g : Nat) (a : Act) (prio : Nat) (s : State) : State :=
  let ps := (s.validPages g).take 3840
  let (k, s2) := ps.foldl (fun (acc : CopySet × State) p => acc.2.copyPage acc.1 p) (⟨g, a, prio, [], []⟩, s)
  if k.pages = [] ∧ k.logs = [] then s.giveLeave (streamId g)
  else
    (s2.upCare (fun c => { c with copySets := c.copySets.filter (fun x => decide (x.victim ≠ g)) ++ [k] })).sealSet k
/-- Redo a copy set into another quad after a failure: 2221h with the failed target (R243). -/
def State.redoSet (k : CopySet) (target : Nat) (s : State) : State :=
  let s1 := (((s.dropSet k).upCare (fun c => { c with redone := c.redone + 1 })).count 58 5 1).log 0x2221 target
  let s2 := (s1.media.groups.filter (fun kg => decide (kg.2.copy = some k.victim) && decide (kg.2.st = .opened))).foldl (fun t kg =>
    t.setGroup kg.1 { kg.2 with
      st := .closing
      copy := none }) s1
  s2.startSet k.victim k.act k.prio

/-! ## Stripes (R194, R195, R202) -/

/-- A group takes further programs (R196, R199, R207). -/
def State.takesPrograms (s : State) (g : Nat) : Bool :=
  decide ((s.grp g).st = .opened) && !(s.grp g).second && !s.posFailed (g / 4096)
/-- The stripe of a programmed page is complete: nothing of it is still to be placed or programmed, and it has no XOR page
yet. -/
def State.stripeDone (s : State) (g page : Nat) : Bool :=
  let x := s.grp g
  let used := (List.range 16).filter (fun c => (s.page? (groupPpa g c page)).isSome)
  decide (page < x.cursor) && !used.isEmpty && (s.page? (groupPpa g (xorChannel x g page) page)).isNone &&
    !(s.media.passes.any (fun p => decide (ppaGroup p.ppa = g) && decide (ppaPage p.ppa = page) && !p.programmed))
/-- Program the XOR page of a complete stripe (R195), while its group takes programs: not one that has closed without it, has a second
absent column or lies at a failed position (R196, R199, R207). It takes no page generation: DESIGN CHOICE between R193's 'every page
programmed, whatever its kind' and its 'XOR pages carry no generation of their own' (log entry 122). -/
def State.programXor (g page : Nat) (a : Act) (prio : Nat) (s : State) : State :=
  if s.stripeDone g page && s.takesPrograms g then
    s.program (groupPpa g (xorChannel (s.grp g) g page) page)
      { gen := 0
        kind := 0
        owner := 0
        keyId := 0
        lines := []
        slots := []
        poison := []
        verified := false } a prio none
  else s
/-- A group whose last stripe is programmed becomes Closing (R202). -/
def State.closing (g : Nat) (s : State) : State :=
  let x := s.grp g
  if x.st = .opened ∧ 4096 ≤ x.cursor ∧ !(s.media.passes.any (fun p => decide (ppaGroup p.ppa = g) && !p.programmed)) then
    s.setGroup g { x with st := .closing }
  else s

end Sys2Proof.Machine
end

