-- ==== Sys2Proof/Machine/Grains.lean ====
section
/-!
DEFINITION. The change of whole grains, alone and in a pair (R85 to R87, R111, R267, R567), the groups a secure discard erases
(R268), and the jobs of the commands that do both.
-/
namespace Sys2Proof.Machine

/-! ## Jobs -/

/-- Write a command's job. -/
def State.putJob (key : Nat) (j : Job) (s : State) : State := s.upCmds (fun c => { c with jobs := Tab.put c.jobs key j })
/-- Remove a command's job. -/
def State.dropJob (key : Nat) (s : State) : State := s.upCmds (fun c => { c with jobs := Tab.erase c.jobs key })
/-- A command's job. -/
def State.job (s : State) (key : Nat) : Option Job := Tab.look s.cmds.jobs key

/-! ## Changing grains (R85 to R87, R111, R267, R567) -/

/-- Forget the cached copies of some lines: dirty data is dropped with its charge, poison cleared, reads that waited for them are
served again, and writes that waited for their pages complete, since what replaces them is durable. -/
def State.forgetLines (p : Nat → Bool) (s : State) : State :=
  let s1 := (s.upFc (fun c => { c with lines := c.lines.filter (fun kx => !p kx.1) })).upTier (fun t => { t with
    sectors := t.sectors.filter (fun kx => !p (kx.1 * 32)) })
  let s2 := s1.releaseAll ((s.budget.charged.filter (fun kv => p kv.1)).map (fun kv => kv.1))
  let s3 := s2.upMap (fun m => { m with poison := m.poison.filter (fun kv => !p kv.1) })
  let s4 := s3.upReqs (fun q => { q with
    list := q.list.map (fun r => if p r.line ∧ (r.stage = .line ∨ r.stage = .attached) then { r with stage := .pail } else r) })
  let done := s4.reqs.list.filter (fun r => p r.line && decide (r.stage = .program))
  let s5 := done.foldl (fun t r => (t.upBudget (fun b => { b with ackWrites := b.ackWrites + 1 })).answer r .complete) s4
  let acks := s5.yoke.ackWait.filter (fun a => p a.1)
  (acks.foldl (fun t a => t.send a.2.2) s5).upYoke (fun y => { y with
    ackWait := y.ackWait.filter (fun a => !p a.1) })
/-- Some lines change (R111, R567): their cached copies are forgotten and the reservations on them end (R297). -/
def State.dropLines (p : Nat → Bool) (s : State) : State := (s.endRes (fun r => p r.line) 4).forgetLines p
/-- Writebacks of some grains that have not verified will change nothing: their pages land void, their log slots die. -/
def State.voidWork (p : Nat → Bool) (s : State) : State :=
  let owned : Pass → Bool := fun q => match s.page? q.ppa with
    | some pg => decide (pg.kind = 1) && decide (q.act = .writeback) && p pg.owner
    | none => false
  let logs := s.media.passes.map (fun q => q.ppa)
  (s.upBudget (fun b => { b with
    running := b.running.filter (fun w => !p w.grain)
    queued := b.queued.filter (fun kv => !p kv.1) })).upMedia (fun m => { m with
      passes := m.passes.map (fun q => if owned q then { q with src := some q.ppa } else q)
      pages := m.pages.map (fun kp => if kp.2.kind = 2 ∧ logs.contains kp.1 then
        (kp.1, { kp.2 with
          slots := kp.2.slots.map (fun kv =>
          if p (grainOf kv.2.line) then (kv.1, { kv.2 with dead := true }) else kv) }) else kp) })
/-- The map entries of a run of grains change, with their GrainSpan record (R208, R218); a Sole module marks the grains;
groups left without valid data are looked at, and key IDs left without pages (R404). Poison set since is recorded again. -/
def State.finishRun (st : GrainSt) (run : Nat × Nat) (s : State) : State :=
  let inRun := fun (g : Nat) => decide (run.1 ≤ g) && decide (g < run.1 + run.2)
  let touched := ((s.map.entries.filter (fun kv => inRun kv.1 && decide (kv.2.st = .mapped))).map (fun kv => ppaGroup kv.2.page)
    ++ (s.map.overlay.filter (fun kv => inRun (grainOf kv.2.line))).map (fun kv => ppaGroup kv.2.page)).eraseDups
  let s1 := ((s.voidWork inRun).journal (.grainSpan run.1 run.2 st)).upMap (fun m => { m with
    entries := setSpan m.entries run.1 run.2 st
    overlay := m.overlay.filter (fun kv => !inRun (grainOf kv.2.line))
    unitsZeroed := m.unitsZeroed.filter (fun u => !inRun (u / 4)) })
  let s2 := (s1.map.poison.filter (fun kv => inRun (grainOf kv.1))).foldl (fun t kv => t.journal (.linePoison kv.1 true)) s1
  let s3 := if s2.sole then (List.range run.2).foldl (fun t i => t.mark (run.1 + i)) s2 else s2
  (touched.foldl (fun t g => t.settle g) s3).retireKeys.rekeyDone
/-- A run of grains changes whole, here and now. -/
def State.changeRun (st : GrainSt) (run : Nat × Nat) (s : State) : State :=
  (s.dropLines (fun l => decide (run.1 ≤ grainOf l) && decide (grainOf l < run.1 + run.2))).finishRun st run
/-- The grain state a code names (R208). -/
def grainOfCode (c : Nat) : GrainSt := if c = 2 then .zero else if c = 3 then .discarded else if c = 1 then .mapped else .unwritten
/-- The initiator sends GrainChange and changes the units it is home of (R567). -/
def State.sendChange (code g : Nat) (s : State) : State :=
  let mine := ((List.range 4).map (fun i => g * 4 + i)).filter (fun u => s.home (u * 64))
  ((s.send { ty := 0x14, num := g, aux := code }).dropLines (fun l => mine.contains (l / 64))).upMap (fun m => { m with
    unitsZeroed := m.unitsZeroed ++ mine })
/-- The rest of a grain's change at the initiator: the units not yet changed, then the map entry (R567). -/
def State.restChange (code g : Nat) (s : State) : State :=
  ((s.dropLines (fun l => decide (grainOf l = g) && !s.map.unitsZeroed.contains (l / 64))).finishRun (grainOfCode code) (g, 1))
/-! ## Secure discard (R268) -/

/-- A page holds a superseded copy of a grain or line of a span, older than the start. -/
def State.oldCopy (s : State) (j : Job) (ppa : Nat) (p : Page) : Bool :=
  let inSpan := fun (g : Nat) => decide (j.base ≤ g * 16384) && decide (g * 16384 < j.base + j.length)
  decide (p.gen < j.gen) &&
    ((decide (p.kind = 1) && inSpan p.owner && !s.pageValid ppa) ||
     (decide (p.kind = 2) && p.slots.any (fun kv => inSpan (grainOf kv.2.line) &&
       !(s.map.overlay.any (fun o => decide (o.2.line = kv.2.line) && decide (o.2.page = ppa))))))
/-- Mark the groups a secure discard erases (R268): every group that is not Free for the whole space, else each that holds
an old copy, Retired ones too, which are reset and stay Retired; open ones close, their valid data moves out by skimming, and a lap takes
the root elsewhere. In a pair the peer is told. -/
def State.eraseStage (key : Nat) (s : State) : State :=
  match s.job key with
  | none => s
  | some j =>
    let whole := decide (j.base = 0) && decide (j.length = s.ident.variant.capacity)
    let gs := (s.media.groups.filter (fun kg => decide (kg.2.st ∉ [GSt.free, .slot]) && !s.slotGroup kg.1 &&
      (whole || s.media.pages.any (fun kp => decide (ppaGroup kp.1 = kg.1) && s.oldCopy j kp.1 kp.2)))).map (fun kg => kg.1)
    let tell := s.paired && decide (key = 0x9010 ∨ key = 0x4400)
    let s1 := s.putJob key { j with
      marked := gs
      notice := tell
      since := s.dump.next }
    let s2 := (s1.media.groups.filter (fun kg => gs.contains kg.1 && decide (kg.2.st = .opened))).foldl (fun t kg =>
      t.setGroup kg.1 { kg.2 with
        st := .closing
        shadow := false }) s1
    let valid := (gs.map (fun g => s2.validPages g)).foldl (· ++ ·) []
    let roots := valid.filter (fun q => match s2.page? q with
      | some p => decide (p.kind = 4)
      | none => false)
    let s3 := (s2.queueMoves (valid.filter (fun q => !roots.contains q)) .skimming 1).upMap (fun m => { m with
      lapDue := m.lapDue || !roots.isEmpty })
    let s4 := gs.foldl (fun t g => if (t.grp g).st = .retired then t.askLeave (resetId g) .eraser 1 (4 * (presentCols (t.grp g)).length)
      else t.settle g) s3
    if tell then
      if key = 0x9010 then s4.send { ty := 0x13, aux := 4, body := natLe 8 j.base ++ natLe 8 j.length }
      else s4.send { ty := 0x13, aux := 2 }
    else s4
/-- A job of a secure discard has nothing left to do here: no grain change outstanding, no marked group, no retired dump
image older than its start, and the peer's answer or none to wait for (R268). -/
def State.erasedAll (s : State) (j : Job) : Bool :=
  j.acks.isEmpty && !j.held && j.marked.isEmpty && (!j.notice || s.sole) &&
    !(s.dump.images.any (fun i => i.retired && decide (i.number < j.since)))
/-- A command a Sole module completes is recorded for the receiver (R350). -/
def State.record (code keyId base len : Nat) (s : State) : State :=
  if s.sole then s.upYoke (fun y => { y with recorded := y.recorded ++ [(code, keyId, base, len)] }) else s

/-! ## Acknowledged and held changes (R567) -/

/-- GrainChangeAck of a grain: the initiator changes the rest of it, and a secure discard whose span is unmapped goes on. -/
def State.ackChange (g : Nat) (s : State) : State :=
  match s.cmds.jobs.find? (fun kj => kj.2.acks.contains g && !kj.2.held) with
  | none => s
  | some (key, j) =>
    let s1 := (s.putJob key { j with acks := j.acks.filter (fun x => decide (x ≠ g)) }).restChange j.st g
    let s2 := s1.setVal key 4 (s1.val key 4 + 16384)
    if decide (key ∈ eraseJobs) && j.acks.all (fun x => decide (x = g)) then s2.eraseStage key else s2
/-- Changes held in Suspect go out when the pair runs again (R332, R567). -/
def State.sendHeld (s : State) : State :=
  (s.cmds.jobs.filter (fun kj => kj.2.held)).foldl (fun t kj =>
    kj.2.acks.foldl (fun u g => u.sendChange kj.2.st g) (t.putJob kj.1 { kj.2 with held := false })) s
/-- Changes that waited for a lap because the journal was full go on (R219): alone they are made now, in a pair their messages go out; in
Suspect they are held on (R332). -/
def State.goOn (s : State) : State :=
  if s.journalFull ∨ s.yoke.member = 3 then s
  else if s.paired then s.sendHeld
  else
    (s.cmds.jobs.filter (fun kj => kj.2.held)).foldl (fun t kj =>
      let u := kj.2.acks.foldl (fun x g => (x.restChange kj.2.st g).setVal kj.1 4 (x.val kj.1 4 + 16384))
        (t.putJob kj.1 { kj.2 with
          acks := []
          held := false })
      if kj.1 ∈ eraseJobs then u.eraseStage kj.1 else u) s
/-- A module become Sole completes the outstanding changes alone and marks their grains (R333, R341, R567). -/
def State.soleJobs (s : State) : State :=
  (s.cmds.jobs.filter (fun kj => !kj.2.acks.isEmpty)).foldl (fun t kj =>
    let u := kj.2.acks.foldl (fun x g => (x.restChange kj.2.st g).setVal kj.1 4 (x.val kj.1 4 + 16384))
      (t.putJob kj.1 { kj.2 with
        acks := []
        held := false })
    if kj.1 ∈ eraseJobs then u.eraseStage kj.1 else u) s

end Sys2Proof.Machine
end

