-- ==== Sys2Proof/Machine/Carry.lean ====
section
/-!
DEFINITION. Writes, grain changes and reads the yoke brings (R136, R160, R296, R323, R567): a forwarded write at its home, a
mirrored write, an ordered write at its entry module, each admitted against this module's own budget, and the changes of whole
grains, all applied in the order of arrival; the acknowledgements that complete writes and release pending lines; and forwarded reads.
-/
namespace Sys2Proof.Machine

/-- A line received over the yoke fails its line CRC (R392): 2202h; it is poison to whoever asked, or is stored poisoned (R58,
R397). -/
def State.noteYokeCrc (line : Nat) (ok : Bool) (s : State) : State := if ok then s else s.log 0x2202 (line * 64)
/-- A yoke write as a message of a type (R318); a line that fails its line CRC is stored poisoned (R58, R392). -/
def YokeWrite.message (m : YokeWrite) (ty : Nat) : YokeMsg :=
  { ty := ty
    tag := m.tag
    num := m.line
    full := m.full
    conditional := m.conditional
    poisoned := m.poisoned || !m.lineOk
    cls := m.cls
    entry := m.entry
    data := m.data
    mask := if m.full then fullMask else m.mask }
/-- The policy a line of the peer's is stored under: its range's. -/
def State.linePolicy (s : State) (line : Nat) : Nat :=
  match s.rangeAt (line * 64) with
  | some (_, r) => r.policy
  | none => 0
/-- Admit and apply a write the yoke brought, which wakes its slice when it misses the front cache (R34, R160, R323): dropped in Brine
mode (R263), nothing for an empty mask. None when the budget or the tier has no room. -/
def State.putWrite (line : Nat) (d : Line) (m : Mask) (poison : Bool) (s : State) : Option State :=
  if m = 0 then some s
  else if s.inBrine then some (s.brineDrop line)
  else if !s.admits line then none
  else (((if (s.fcLine? line).isSome then s else s.wakeSlice (sliceOfLine line))).chargeFor line).applyWrite line d m poison
    (s.linePolicy line)
/-- Send a reply that reports this module's copy of a line: at once, or in program-acknowledged mode once the copy is
programmed and verified (R160). -/
def State.replyFor (line : Nat) (m : YokeMsg) (s : State) : State :=
  if s.pwr.armed || !s.isDirty line then s.send m
  else
    ((s.queueWb (grainOf line) 0).upYoke (fun y => { y with ackWait := y.ackWait ++ [(line, s.reqs.next, m)] })).upReqs (fun q =>
      { q with next := q.next + 1 })
/-- Take a write in flight off the list. The last Forward of a grain whose ResyncClear has arrived lets its bit be cleared
(R343). -/
def State.dropFlight (f : Flight) (s : State) : State :=
  let g := grainOf f.line
  let t := s.upYoke (fun y => { y with flights := y.flights.erase f })
  if f.isForward ∧ t.yoke.clearWait.contains g ∧ !(t.yoke.flights.any (fun x => x.isForward && decide (grainOf x.line = g))) then
    (t.unmark g).upYoke (fun y => { y with
      clearWait := y.clearWait.filter (fun x => decide (x ≠ g))
      copied := y.copied + 1 })
  else t
/-- A Forward of this module in flight, by its tag. -/
def State.forwardOf (s : State) (tag : Nat) : Option Flight :=
  s.yoke.flights.find? (fun f => f.isForward && decide (f.tag = tag))
/-- A forwarded write is applied at its entry module, which is its completion point: the outcome of a conditional one is
set, the write completes, and MirrorAck goes out (R298, R323). -/
def State.endForward (f : Flight) (s : State) : State :=
  let t := match s.flightReq f with
    | none => s
    | some r =>
      let s1 := s.notePoison r
      (if f.conditional then (s1.recordOutcome r.entry r.line 1).count r.slice 11 1 else s1).completeWrite r
  (t.dropFlight f).replyFor f.line { ty := 4, tag := f.tag }
/-- A Forward at the home (R296, R323): a conditional one that meets a write, or a change of its grain, that the entry module had not
applied when it sent it fails with YokeConflict; any other is applied, its line held pending, and answered by Ordered, or by Mirror for a
marked grain. -/
def State.carryForward (m : YokeMsg) (s : State) : Option State :=
  let ordered := fun (o : Nat) => ({ ty := 3, tag := m.tag, aux := o } : YokeMsg)
  if m.conditional ∧ (m.conflict ∨ s.changing (grainOf m.num) ∨
      s.yoke.flights.any (fun f => decide (f.line = m.num) && !f.isForward && !(f.mask = 0 && !f.pending))) then
    some (s.send (ordered 7))
  else if s.inBrine ∧ m.mask ≠ 0 then
    some ((s.brineDrop m.num).send (ordered (if m.conditional then 10 else 0)))
  else
    match s.putWrite m.num m.data m.mask m.poisoned with
    | none => none
    | some t =>
      let t1 := t.upYoke (fun y => { y with
        flights := y.flights ++ [⟨m.tag, m.num, none, false, true, m.data, m.mask, m.conditional, some (s.lineBefore m.num)⟩] })
      if t1.marked (grainOf m.num) then
        some ((((t1.upYoke (fun y => { y with mirrored := y.mirrored + 1 })).count 57 5 1).dirtyAtPeer (grainOf m.num)).replyFor m.num { m with
          ty := 2
          full := true
          data := t1.current m.num
          mask := fullMask
          poisoned := t1.poisoned m.num })
      else some (t1.replyFor m.num (ordered (if m.conditional then 1 else 0)))
/-- A Mirror (R323): the order of a Forward of this module when its tag and line are that Forward's and the grain is marked;
else a write ordered at the peer. -/
def State.carryMirror (m : YokeMsg) (s : State) : Option State :=
  match s.putWrite m.num m.data m.mask m.poisoned with
  | none => none
  | some t =>
    match s.forwardOf m.tag with
    | some f =>
      if f.line = m.num ∧ s.marked (grainOf m.num) then some (t.endForward f)
      else some (t.replyFor m.num { ty := 4, tag := m.tag })
    | none => some (t.replyFor m.num { ty := 4, tag := m.tag })
/-- Ordered at the entry module (R296, R323): a failed conditional write changes nothing; any other is applied now. -/
def State.carryOrdered (m : YokeMsg) (s : State) : Option State :=
  match s.forwardOf m.tag with
  | none => some s
  | some f =>
    if f.conditional ∧ m.aux ≠ 1 then
      let t := if m.aux = 10 then s.brineDrop f.line else s
      match s.flightReq f with
      | none => some (t.dropFlight f)
      | some r => some (((t.dropFlight f).recordOutcome r.entry r.line m.aux).answer r .complete)
    else
      let poison : Bool := match s.flightReq f with
        | some r => r.poison
        | none => false
      match s.putWrite f.line f.data f.mask poison with
      | none => none
      | some t => some (t.endForward f)
/-- One message of the class-0 pail. None while it waits for the budget or the tier. A GrainChange changes all four units at once
and is answered; a GrainChangeAck lets the initiator change the rest (R567). -/
def State.carry (m : YokeMsg) (s : State) : Option State :=
  if m.ty = 1 then s.carryForward m
  else if m.ty = 2 then s.carryMirror m
  else if m.ty = 0x14 then some ((s.changeRun (grainOfCode m.aux) (m.num, 1)).send { ty := 0x15, num := m.num })
  else if m.ty = 0x15 then some (s.ackChange m.num)
  else s.carryOrdered m
/-- Work through the class-0 pail in its order, up to a message that must wait (R323). -/
def State.runHeld : Nat → State → State
  | 0, s => s
  | n + 1, s =>
    match s.yoke.held with
    | [] => s
    | m :: rest =>
      let t := s.upYoke (fun y => { y with held := rest })
      match t.carry m with
      | some u => (u.owe m.ty).runHeld n
      | none => s.pressSet (sectorOf m.num)
/-- The pail goes on as far as it can. -/
def State.workPail (s : State) : State := if s.paired then s.runHeld s.yoke.held.length else s
/-- A class-0 message arrives (R321, R323, R332, R567): worked off in order while the module is in a pair, held in Suspect. -/
def State.takeMessage (m : YokeMsg) (s : State) : State :=
  if s.paired ∨ s.yoke.member = 3 then (s.upYoke (fun y => { y with held := y.held ++ [m] })).workPail else s.owe m.ty

/-! ## Acknowledgements and forwarded reads -/

/-- The class and policy of a line's range. -/
def State.lineClass (s : State) (line : Nat) : Nat :=
  match s.rangeAt (line * 64) with
  | some (_, r) => r.cls
  | none => 15
/-- A read the peer has forwarded, as an internal read under the message's tag (R136). -/
def State.peerRead (s : State) (tag line : Nat) : Req :=
  { newReq .read tag internal 0x0106 (line * 64) (s.lineClass line) (s.linePolicy line) 0 0 false s.clk.now with id := s.reqs.next }
/-- ReadForward (R136, R289): after a pending line's release, served from this module's copy as a read of its own is: from the caches, or
from media once its map unit and its key are there (R30). ReadData answers it. -/
def State.takeReadForward (tag line : Nat) (s : State) : State :=
  if s.pendingLine line then s.upYoke (fun y => { y with readWait := y.readWait ++ [(tag, line)] })
  else
    let r := s.peerRead tag line
    let t := s.upReqs (fun q => { q with
      next := q.next + 1
      list := q.list ++ [r] })
    if t.ready r then t.serveRead r else t
/-- A pending line is released: reads of it here and forwarded reads of it go on (R289). -/
def State.releasePending (line : Nat) (s : State) : State :=
  let t := s.wakeLine line
  if t.pendingLine line then t
  else
    (t.yoke.readWait.filter (fun x => decide (x.2 = line))).foldl (fun u x => u.takeReadForward x.1 x.2) (t.upYoke (fun y => { y with
      readWait := y.readWait.filter (fun x => decide (x.2 ≠ line)) }))
/-- MirrorAck (R323): the first write in flight with the tag: a pending line is released, a mirrored write completes. A conditional
Forward of the line that waits in the pail was sent before the write was applied there (R296). -/
def State.ackMirror (tag : Nat) (s : State) : State :=
  match s.yoke.flights.find? (fun f => !f.isForward && decide (f.tag = tag) && (f.pending || f.mask ≠ 0)) with
  | none => s
  | some f =>
    let t := (s.dropFlight f).upYoke (fun y => { y with
      held := y.held.map (fun m => if m.ty = 1 ∧ m.num = f.line then { m with conflict := m.conditional } else m) })
    if f.pending then t.releasePending f.line
    else
      match t.flightReq f with
      | some r => t.completeWrite r
      | none => t
/-- ReadData (R136): the forwarded read it answers. -/
def State.takeReadData (tag line : Nat) (d : Line) (poisoned : Bool) (s : State) : State :=
  match s.yoke.flights.find? (fun f => !f.isForward && !f.pending && decide (f.tag = tag) && decide (f.line = line) &&
      decide (f.mask = 0)) with
  | none => s
  | some f =>
    let t := s.dropFlight f
    match t.flightReq f with
    | none => t
    | some r =>
      if r.stage ≠ .forwarded then t
      else
        let resp := if poisoned then RespKind.poison else .data d
        if r.kind = .resRead then
          match t.resRoom r with
          | some u => ((u.reserve r).count r.slice 10 1).answer r resp
          | none => t.stageReq r.id .reservation
        else t.answer r resp

end Sys2Proof.Machine
end

