-- ==== Sys2Proof/Machine/Reads.lean ====
section
/-!
DEFINITION. The read rows: arrival, dispatch from ingress, the slice's lookup, the miss slots and miss tables, sleep, the
decode ladder with its hedges and prefetches, and the fills (R34 to R36, R58 to R62, R116 to R136, R226, R362, R373, R380,
R403).
-/
namespace Sys2Proof.Machine

/-- HOST_READ_REQUEST (R58): a CXL.mem read is checked and queued, or refused with poison. -/
def execHostReadRequest (key addr tag : Nat) (s : State) : Host.Outcome State Fault Refusal :=
  .next (s.arrive false key addr tag 0 0 false)

/-- Move the oldest ingress request of a slice into a free pail entry; its credit returns (R61, R62). -/
def State.dispatch (slice : Nat) (s : State) : State :=
  match s.reqs.list.find? (fun r => decide (r.stage = .ingress) && decide (r.slice = slice)) with
  | none => s
  | some r =>
    if 2048 ≤ s.pailCount slice then s
    else
      let isRead := r.kind = .read ∨ r.kind = .resRead
      ((s.stageReq r.id .pail).upPort (fun p => { p with
        creditsReq := if isRead then p.creditsReq + 1 else p.creditsReq
        creditsData := if isRead then p.creditsData else p.creditsData + 1 })).count 56 5 1

/-- INGRESS_DISPATCH (R62). -/
def execIngressDispatch (slice : Nat) (s : State) : Host.Outcome State Fault Refusal := .next (s.dispatch slice)

/-! ## The lookup and what its checks find (R362, R372, R380) -/

/-- A parity error in a front-cache line that is read (R362): an Unmodified line is refetched, a locked one into the same
way; a Modified or Merging line resets the controller. -/
def State.fcParity (line : Nat) (s : State) : State :=
  match s.fcLine? line with
  | none => s
  | some x =>
    if x.st = .unmodified then
      let s1 := (s.upFc (fun c => { c with parityClean := c.parityClean + 1 })).gill 104 1
      if x.locked then s1.fcPut line { x with data := s1.below line } else s1.fcDrop line
    else s.controllerReset 1 [line] []

/-- The transaction type of a request's records (R77): host read, host write, or internal media management. -/
def Req.trans (r : Req) : Nat :=
  if r.entry = internal then 6 else if r.kind = .read ∨ r.kind = .resRead then 1 else 2

/-- The line CRC of a front-cache line fails before its response (R31, R392): an Unmodified line is refetched from the tier or
below; any other line has no other copy and is poisoned with 2202h (R58). -/
def State.fcCrcBad (trans line : Nat) (s : State) : State :=
  match s.fcLine? line with
  | none => s
  | some x =>
    if x.st = .unmodified then (if x.locked then s.fcPut line { x with data := s.below line } else s.fcDrop line)
    else if x.st = .merging then s
    else s.poisonBy trans line 0x2202
/-- A burst of a tier line that is treated as a line-CRC failure (R380, R391): it is uncorrectable, which is counted, or the decoder
placed a correction in a virtual position. -/
def State.tierBurst (uncorrectable : Bool) (trans line : Nat) (s : State) : State :=
  let sec := sectorOf line
  let j := line % 32
  match s.sector? sec with
  | none => s
  | some x =>
    let s1 := if uncorrectable then s.upDram (fun d => { d with uncorrectable := d.uncorrectable + 1 }) else s
    let put := fun (d : Line) => s1.putSector sec { x with data := Tab.set 0 x.data j d }
    match s1.fcLine? line with
    | some y =>
      if y.st = .merging then s1.mergeLost line 0x2101
      else if x.lineSt j = .clean ∧ y.st = .unmodified then
        (put y.data).upTier (fun t => { t with refetches := t.refetches + 1 })
      else put y.data
    | none =>
      if x.lineSt j = .clean then (put (s1.stored line)).upTier (fun t => { t with refetches := t.refetches + 1 })
      else (s1.poison line).logBy trans 0xFFFF 0x2101 (line * 64)

/-- One copy of a sector's tag block fails: the other is used and rewritten (R380, R395). -/
def State.tagRepair (sec : Nat) (s : State) : State :=
  let g := tierSetKey s.ident.variant sec
  ((s.upTier (fun t => { t with tagRepairs := t.tagRepairs + 1 })).log 0x2102 g).gill (g % 16 / 2) 4

/-- A corrected burst of a tier sector (R375, R380, R394): counted for its subchannel and its channel's gill, and traced to
its device: 2108h when one device exceeds 1,000 such bursts within an hour. -/
def State.burstCorrected (line device : Nat) (s : State) : State :=
  match s.sector? (sectorOf line) with
  | none => s
  | some x =>
    let sub := s.tierSub (sectorOf line) x.way
    let k := sub * 16 + device
    let old := (Tab.get [] s.dram.traced k).filter (fun t => decide (s.clk.now < t + 3600 * sec))
    let now := (old ++ [s.clk.now]).drop (old.length - 1000)
    let s1 := ((s.upDram (fun d => { d with
      corrected := Tab.set 0 d.corrected sub (sat32 (Tab.get 0 d.corrected sub))
      traced := Tab.put d.traced k now })).count (48 + sub / 2) 5 1).gill (sub / 2) 1
    if 1000 < now.length ∧ !s.dram.suspects.contains k then
      (s1.upDram (fun d => { d with suspects := d.suspects ++ [k] })).log 0x2108 k
    else s1

/-- An uncorrectable burst in a group's spilled shadow parity (R380): the parity is discarded and the group closes without it
(R199). -/
def State.shadowLost (g : Nat) (s : State) : State :=
  let x := Tab.get ({} : Group) s.media.groups g
  if x.shadow then s.setGroup g { x with
      shadow := false
      st := if x.st = .opened then .closing else x.st }
  else s

/-- What the checks of an access to a line find, before the request is served, whose records have a transaction type. -/
def State.checkFault (f : CacheFault) (trans line : Nat) (s : State) : State :=
  match f with
  | .none => s
  | .fcLine => s.fcParity line
  | .fcTag => s.controllerReset 1 [] []
  | .fcCrc => s.fcCrcBad trans line
  | .tierCrc => s.tierBurst false trans line
  | .mapEntry => s.upSlices (fun q => { q with mapCache := Tab.erase q.mapCache (mapBlock line) })
  | .tagEntry => s.upTier (fun t => { t with tagCache := Tab.erase t.tagCache (tierSetKey s.ident.variant (sectorOf line)) })
  | .overlayBits => s.remakeFilter (sliceOfLine line)
  | .keyEntry id => s.upKeys (fun k => { k with cache := k.cache.filter (fun x => decide (x ≠ id)) })
  | .shadow g => s.shadowLost g
  | .tierLine => s.tierBurst true trans line
  | .tagOne => s.tagRepair (sectorOf line)
  | .tagBoth => s.controllerReset 7 [] [(line, .tagBoth)]
  | .tables => s.controllerReset 3 [] []
  | .journal => s.controllerReset 4 [] []
  | .corrected device => s.burstCorrected line device
  | .sram kind => s.gill (104 + kind) 1

/-- The DRAM access of a lookup that misses the front cache and finds its sector in the tier (R116, R371, R376). -/
def State.lookupAccess (line bank row : Nat) (queued : Bool) (s : State) : State :=
  match s.fcLine? line, s.sector? (sectorOf line) with
  | none, some x =>
    let sub := s.tierSub (sectorOf line) x.way
    (s.dramAccess sub bank row queued).count (48 + sub / 2) 1 1
  | _, _ => s

/-- A request is checked and then served; a controller reset leaves nothing to serve. -/
def State.checked (f : CacheFault) (r : Req) (run : State → State) (s : State) : State :=
  let t := s.checkFault f r.trans r.line
  if t.fastOn then run t else t
/-- Serve a request at its own row when the slice has nothing older to serve for its line (R284), after what its checks find. -/
def State.serveNew (id : Nat) (f : CacheFault) (s : State) : State :=
  match s.reqs.list.find? (fun r => decide (r.id = id)) with
  | some r => if s.ready r then s.checked f r (State.serve r) else s
  | none => s
/-- A slice serves the next request of its pail (R116, R428, R430); none in a dump, in which of the slices only the front-cache arrays
and their drain run (R33). -/
def State.lookup (slice : Nat) (f : CacheFault) (bank row : Nat) (queued : Bool) (s : State) : State :=
  if !s.fastOn || s.dumping then s
  else
    match s.nextReq slice with
    | none => s
    | some (r, s1) => s1.checked f r (fun t => (t.lookupAccess r.line bank row queued).serve r)

/-- SLICE_LOOKUP (R116); `queued`: another access queued at the DRAM channel targets the same row of the bank (R376). -/
def execSliceLookup (slice : Nat) (fault : CacheFault) (bank row : Nat) (queued : Bool) (s : State) : Host.Outcome State Fault Refusal :=
  .next (s.lookup slice fault bank row queued)

/-! ## Miss slots and miss tables -/

/-- Serve a request past the front cache again: the line may have arrived meanwhile. -/
def State.resumeMiss (r : Req) (s : State) : State :=
  if r.kind = .write ∨ r.kind = .condWrite then s.storeWrite r
  else if (s.fcLine? r.line).isSome || s.staleGrain (grainOf r.line) then s.serveRead r
  else (s.upFc (fun c => { c with slots := Tab.put c.slots (fcSetKey r.line) r.id })).readBelow r

/-- MISS_SLOT_FREED (R117): the set's slot is released, and the next miss waiting for it proceeds, after what its checks find; not
in a dump (R33). -/
def execMissSlotFreed (slice set : Nat) (fault : CacheFault) (s : State) : Host.Outcome State Fault Refusal :=
  let key := slice * 2048 + set
  let s1 := s.upFc (fun c => { c with slots := Tab.erase c.slots key })
  .next (if s.dumping then s else match s1.reqs.list.find? (fun r => decide (r.stage = .missSlot) && decide (fcSetKey r.line = key)) with
    | some r => s1.checked fault r (State.resumeMiss r)
    | none => s1)

/-- A fetch that no read asks for and that waits for an entry of a slice's miss table: the merge base of a front-cache line,
or the fill of a Filling sector (R118, R361, R373). -/
def State.startWaiting (slice : Nat) (s : State) : State :=
  match s.fc.lines.find? (fun kx => decide (kx.2.st = .merging) && decide (sliceOfLine kx.1 = slice) &&
      (s.sector? (sectorOf kx.1)).isNone && (s.baseOf kx.1).isNone) with
  | some (l, _) => s.startBase l
  | none =>
    match s.tier.sectors.find? (fun kx => kx.2.filling && decide (sliceOfLine (kx.1 * 32) = slice) && (s.fillOf kx.1).isNone) with
    | some (sec, _) => s.issueFill sec
    | none => s
/-- MISS_TABLE_ENTRY_FREED (R118): a read waiting for an entry of the slice's miss table proceeds; with none waiting, a merge
base or a fill that waits for one (log entry 115). Not in a dump (R33). -/
def execMissTableEntryFreed (slice : Nat) (fault : CacheFault) (s : State) : Host.Outcome State Fault Refusal :=
  .next (if s.dumping || decide (512 ≤ s.missCount slice) then s
    else match s.reqs.list.find? (fun r => decide (r.stage = .missTable) && decide (r.slice = slice)) with
      | some r => s.checked fault r (State.resumeMiss r)
      | none => s.startWaiting slice)

/-! ## Sleep (R34 to R36) -/

/-- SLICE_MISS_SIDE_SLEEP (R34, R35): 50 µs after the slice's pail became empty, with no miss outstanding, the miss side stops
and every reservation in the slice ends as Slept. -/
def execSliceMissSideSleep (slice : Nat) (s : State) : Host.Outcome State Fault Refusal :=
  .next (if !s.fastOn || s.slices.asleep.contains slice || decide (s.pailCount slice ≠ 0) || decide (s.missCount slice ≠ 0)
    then s
    else
      let s1 := s.elapseTo (Tab.get 0 s.slices.lastWork slice + 50000)
      (s1.endRes (fun r => decide (r.slice = slice)) 6).upSlices (fun q => { q with asleep := q.asleep ++ [slice] }))

/-- CHANNEL_CLOCK_STOP (R36): 20 µs after its last die operation, a channel with none running and no read queued stops its
clock. -/
def execChannelClockStop (ch : Nat) (s : State) : Host.Outcome State Fault Refusal :=
  .next (if !s.fastOn || s.media.asleep.contains ch || s.media.ops.any (fun kv => decide (kv.2.die % 16 = ch)) ||
      decide (s.channelReads ch ≠ 0) then s
    else (s.elapseTo (Tab.get 0 s.media.lastOp ch + 20000)).upMedia (fun m => { m with asleep := m.asleep ++ [ch] }))

/-! ## Busy dies (R131, R132) -/

/-- Time each read a suspension serves takes: sensing and the codeword's transfer, 3,650 + 320 ns (log entry 16). -/
def suspendNs : Nat := 3970

/-- The fetches that read a die now. -/
def State.readersOf (s : State) (die : Nat) : List Nat := (s.slices.misses.filter (fun m => m.reads die)).map (fun m => m.id)
/-- The suspend limits of R131 let a read queued for the die suspend its pass: 8 suspensions or 100 µs; beyond them, up to 16
or 200 µs: a read whose reconstruction could serve it instead is never queued here, for its issue chose that (R132). -/
def State.maySuspend (s : State) (pos ch : Nat) (o : DieOp) : Bool :=
  !o.inWindow && decide (o.serving = []) && s.readQueued (pos * 16 + ch) &&
    (!o.overLimit || (decide (o.suspends < 16) && decide (o.suspendedNs < 200000)))

/-- PROGRAM_SUSPEND_FOR_READ (R131): the operation on the die is suspended for every read queued for the die at this moment, and
resumes when they are served. -/
def execProgramSuspendForRead (pos ch : Nat) (s : State) : Host.Outcome State Fault Refusal :=
  .next (match s.opOn (pos * 16 + ch) with
    | none => s
    | some (id, o) =>
      if s.maySuspend pos ch o then
        ((s.upMedia (fun m => { m with
          ops := Tab.put m.ops id { o with
            suspends := o.suspends + 1
            suspendedNs := o.suspendedNs + suspendNs * (s.readersOf (pos * 16 + ch)).length
            serving := s.readersOf (pos * 16 + ch) } })).upRstats (fun r => { r with suspends := r.suspends + 1 })).count
              (32 + ch) 5 1
      else s)

/-- DEFERRED_DIRECT_READ (R132, R134): the window has ended and the direct half of a hedged pair is issued, unless
reconstruction has already won. -/
def execDeferredDirectRead (miss : Nat) (s : State) : Host.Outcome State Fault Refusal :=
  .next (match s.missById miss with
    | none => s
    | some m =>
      if m.direct = .deferred ∧ !s.inWindow (ppaDie m.ppa) then
        let m1 := { s.withRefs m with direct := .inFlight }
        (s.setMiss m1).countDirect m1
      else s)

/-! ## The decode ladder (R125 to R127) -/

/-- Soft retries running on a channel, for targets and peers (R127). -/
def State.softRetries (s : State) (ch : Nat) : Nat :=
  (s.slices.misses.filter (fun m => (m.readsTarget && decide (ppaCh m.ppa = ch) && decide (m.step = 2 ∨ m.step = 4)) ||
    (m.recon && m.peers.any (fun p => decide (p.ch = ch) && decide (p.st = .reading) && decide (2 ≤ p.step))))).length
/-- A soft retry on a channel beyond the four its standing leave covers asks for a burst (R127). -/
def State.softLeave (id ch : Nat) (s : State) : State :=
  if 4 ≤ s.softRetries ch then s.askLeave (burstId id ch) .softBurst 1 2 else s
/-- The first soft retry of a read's codeword on a channel (R125, R137, R138): each class-0 read the fetch serves counts once. -/
def State.firstSoft (m : Miss) (ch : Nat) (s : State) : State :=
  let fill := (m.parent.bind s.missById).filter (fun p => decide (p.kind = .fill))
  let before : Bool := match fill with
    | some p => p.soft
    | none => m.soft
  let t := ((s.softLeave m.id ch).upRstats (fun r => { r with
    soft1 := r.soft1 + 1
    class0Soft := if before then r.class0Soft else r.class0Soft + s.class0For m })).count (32 + ch) 7 1
  match fill with
  | some p => t.setMiss { p with soft := true }
  | none => t
/-- The second soft retry on a channel (R125, R137). -/
def State.secondSoft (m : Miss) (ch : Nat) (s : State) : State :=
  ((s.softLeave m.id ch).upRstats (fun r => { r with soft2 := r.soft2 + 1 })).count (32 + ch) 7 1

/-- A fetch's hard decode failed: the first soft retry, with references of its own issue (R124, R125). -/
def State.toStep2 (m : Miss) (s : State) : State :=
  let m1 := { s.withRefs m with
    step := 2
    tgt := .reading
    recon := false
    direct := .none
    peers := []
    soft := true }
  ((s.firstSoft m (ppaCh m.ppa)).setMiss m1).queueRead (ppaDie m.ppa)
/-- Reconstruction at step 3 (R125). -/
def State.toStep3 (m : Miss) (s : State) : State :=
  let m1 := { m with
    step := 3
    tgt := .failed
    recon := true
    direct := .none
    decodeRecon := true
    peers := s.peersFor m.ppa }
  (((s.setMiss m1).upRstats (fun r => { r with decodeRecon := r.decodeRecon + 1 })).gill (gillOfPage m.ppa) 64).countPeers m1
/-- A fetch has failed every step in a row that rebuilds a failed die (R207): its page, and the peers that failed it, are further losses of
their stripe, and what R200 cannot recover then is treated as its last row gives. -/
def State.furtherLoss (m : Miss) (s : State) : State :=
  if s.posFailed (ppaPos m.ppa) then
    let bad := (m.peers.filter (fun p => decide (p.st = .failed) && !s.dieFailed? (ppaPos m.ppa * 16 + p.ch))).map (fun p =>
      groupPpa (ppaGroup m.ppa) p.ch (ppaPage m.ppa))
    s.stripeLost (s.goneOf ((m.ppa :: bad) ++ s.stripeDead m.ppa).eraseDups [])
  else s
/-- The codeword of a fetch has failed every step (R125), a further loss of its row told first (R207). A grain that its pair's peer now
repairs is read there (R136, R200). -/
def State.fetchLost (m : Miss) (s : State) : State :=
  let t := s.furtherLoss m
  if t.staleGrain (grainOf m.line) && !s.staleGrain (grainOf m.line) && decide (m.kind = .demand) then
    (t.dropMiss m).upReqs (fun q => { q with
      list := q.list.map (fun r => if r.line = m.line ∧ r.stage = .attached then { r with stage := .pail } else r) })
  else t.fetchFailed m
/-- The second soft retry, step 4: on the target, and in parallel on every peer that failed; a failed die gives none, and with
nothing left to read the fetch has failed. A class-0 read here fails the bound's condition [3] (R125, R138). -/
def State.toStep4 (m : Miss) (s : State) : State :=
  let dead := s.dieFailed? (ppaDie m.ppa)
  let again := fun (p : Peer) => decide (p.st = .failed) && !s.dieFailed? (ppaPos m.ppa * 16 + p.ch)
  let m1 := { s.withRefs m with
    step := 4
    tgt := if dead then .failed else .reading
    recon := true
    direct := .none
    soft := true
    peers := m.peers.map (fun p => if again p then
      let q := groupPpa (ppaGroup m.ppa) p.ch (ppaPage m.ppa)
      { p with
        step := 4
        st := .reading
        cell := s.cellOf q
        refs := s.refsOf (ppaDie q) (s.cellOf q)
        since := s.clk.now }
      else p) }
  let s1 := (m.peers.filter again).foldl (fun t p => (t.secondSoft m p.ch).queueRead (ppaPos m.ppa * 16 + p.ch)) s
  let s2 := (if dead then s1 else (s1.secondSoft m (ppaCh m.ppa)).queueRead (ppaDie m.ppa)).setMiss m1
  let s3 := if 0 < s.class0For m then s2.boundFail 3 false else s2
  if dead && m1.peers.all (fun p => decide (p.st ≠ .reading)) then s3.fetchLost m1 else s3

/-- A fetch's reconstruction cannot succeed any more: every peer has ended its steps and one has failed. -/
def Miss.peersFailed (m : Miss) : Bool :=
  m.peers.all (fun p => decide (p.st ≠ .reading)) && m.peers.any (fun p => decide (p.st = .failed))
/-- Every peer has decoded. -/
def Miss.peersGood (m : Miss) : Bool := m.peers.all (fun p => decide (p.st = .good))
/-- A reconstruction has failed (R125, R131, R134): step 3 climbs to step 4, step 4 ends in poison unless the target is still
read; a hedged pair leaves its direct read to decide, and climbs when that has failed; a die over its suspend limit is now
read directly. -/
def State.combineBad (m : Miss) (s : State) : State :=
  if m.step = 3 then s.toStep4 m
  else if m.step = 4 then (if m.tgt = .reading then s.setMiss m else s.fetchLost m)
  else if m.direct = .failed then (s.stopReads m).toStep2 m
  else
    let m1 := { m with
      recon := false
      peers := [] }
    let s1 := (s.setMiss m1).stopReads m
    if m.direct = .none then s1.countDirect m1 else s1

/-- The prefetch that follows a demand read's move out of the die's page buffer, whether or not it then decodes (R123): the other
codeword of the 4 KiB unit, unless a prefetch of it is under way. The read itself is queued no longer. -/
def State.prefetch (m : Miss) (s : State) : State :=
  let sec := sectorOf m.line
  let other := if sec % 2 = 0 then sec + 1 else sec - 1
  let ch := ppaCh m.ppa
  let rest := s.upSlices (fun q => { q with misses := q.misses.filter (fun x => decide (x.id ≠ m.id)) })
  if m.kind = .demand && !m.logged && (s.sector? other).isNone && !rest.readQueued (ppaDie m.ppa) &&
      !(s.slices.prefetches.any (fun kv => decide (kv.2.sector = other))) &&
      decide (rest.channelReads ch < 4) && !(s.map.overlay.any (fun kv => decide (sectorOf kv.2.line = other))) then
    ((s.upSlices (fun q => { q with
      next := q.next + 1
      prefetches := Tab.put q.prefetches q.next ⟨other, m.ppa, false⟩ })).upRstats (fun r => { r with
        pfIssued := r.pfIssued + 1 })).count (32 + ch) 2 1
  else s

/-- A soft decode on a channel ends: a learning sample for its cell, the package's gill, and its burst's leave (R127, R253,
R395). -/
def State.softEnds (m : Miss) (ch cell step : Nat) (offsets : List Int) (s : State) : State :=
  let q := groupPpa (ppaGroup m.ppa) ch (ppaPage m.ppa)
  ((s.softDecoded cell q (decide (step = 4)) offsets).gill (gillOfPage q) 8).giveLeave (burstId m.id ch)

/-- A page rebuilt because its own codeword failed to decode is relocated at normal priority (R197). -/
def State.healed (m : Miss) (s : State) : State :=
  if m.decodeRecon ∧ s.pageValid m.ppa then s.queueMoves [m.ppa] .relocation 1 else s

/-- The target codeword has decoded good: the fetch ends, and the direct half of a hedged pair wins (R134). -/
def State.decodedGood (m : Miss) (corrected : Nat) (offsets : List Int) (s : State) : State :=
  let s1 := s.codewordRead m.ppa
  let s2 := if m.step = 2 ∨ m.step = 4 then s1.softEnds m (ppaCh m.ppa) m.cell m.step offsets
    else if 24 < corrected then s1.gill (gillOfPage m.ppa) 1
    else s1
  let s3 := if m.hedged ∧ m.direct = .inFlight then s2.upRstats (fun r => { r with hedgeDirect := r.hedgeDirect + 1 }) else s2
  ((s3.fetched m).serveDie m.id (ppaDie m.ppa)).count 59 2 1

/-- The target codeword's decode fails at its step (R125, R126): the read climbs. The direct half of a hedged pair whose
reconstruction still runs is ignored (R134). -/
def State.decodedBad (m0 : Miss) (crc : Bool) (offsets : List Int) (s : State) : State :=
  let m := { m0 with lastCrc := crc }
  let s1 := (s.codewordRead m.ppa).serveDie m.id (ppaDie m.ppa)
  if m.step = 1 then
    if m.recon then s1.setMiss { m0 with direct := .failed } else s1.toStep2 m
  else
    let s2 := s1.softEnds m (ppaCh m.ppa) m.cell m.step offsets
    if m.step = 2 then s2.toStep3 m
    else
      let m1 := { m with tgt := .failed }
      if m1.peersFailed then s2.fetchLost m1 else s2.setMiss m1

/-- One peer codeword of a fetch in place of the one on its channel. -/
def Miss.setPeer (m : Miss) (p : Peer) : Miss := { m with peers := m.peers.map (fun x => if x.ch = p.ch then p else x) }
/-- A peer codeword ends its decode (R125, R132): a failed hard decode is retried once in soft decode; when every peer has ended
and one has failed, the reconstruction has. -/
def State.peerDecoded (m : Miss) (p : Peer) (good : Bool) (corrected : Nat) (offsets : List Int) (s : State) : State :=
  let die := ppaPos m.ppa * 16 + p.ch
  let q := groupPpa (ppaGroup m.ppa) p.ch (ppaPage m.ppa)
  let s1 := (s.codewordRead q).serveDie m.id die
  let s2 := if 2 ≤ p.step then s1.softEnds m p.ch p.cell p.step offsets
    else if good ∧ 24 < corrected then s1.gill (gillOfPage q) 1
    else s1
  if good then
    let m1 := m.setPeer { p with st := .good }
    if m1.peersFailed then (s2.combineBad m1) else s2.setMiss m1
  else if p.step = 1 then
    let m1 := { (m.setPeer { p with
      step := 2
      cell := s.cellOf q
      refs := s.refsOf die (s.cellOf q)
      since := s.clk.now }) with soft := true }
    ((s2.firstSoft m p.ch).setMiss m1).queueRead die
  else
    let m1 := m.setPeer { p with st := .failed }
    if m1.peersFailed then s2.combineBad m1 else s2.setMiss m1

/-- CODEWORD_DECODED (R125, R132): the codeword of a fetch on a channel, its target or one of its peers, ends its sense and
decode, once the channel's die bus is its (R428 to R431). A peer's codeword is not decrypted, and only its LDPC decode counts. -/
def execCodewordDecoded (miss ch : Nat) (r : Decode) (corrected : Nat) (offsets : List Int) (s : State) :
    Host.Outcome State Fault Refusal :=
  .next (match s.missById miss with
    | none => s
    | some m =>
      match s.takeWord m ch with
      | none => s
      | some t =>
        if ch = ppaCh m.ppa then
          if s.decodable m then
            let u := t.prefetch m
            match r with
            | .good => u.decodedGood m corrected offsets
            | .crcFail => u.decodedBad m true offsets
            | .noConverge => u.decodedBad m false offsets
          else s
        else
          match m.peers.find? (fun p => decide (p.ch = ch)) with
          | none => s
          | some p =>
            if m.readsPeer ch && s.channelServes m ch then t.peerDecoded m p (decide (r ≠ .noConverge)) corrected offsets
            else s)

/-- The stripe of a page has every page its parity needs: its XOR page, or the open group's stripe accumulator (R195, R198,
R200). -/
def State.stripeWhole (s : State) (ppa : Nat) : Bool :=
  let g := ppaGroup ppa
  (Tab.get ({} : Group) s.media.groups g).shadow ||
    (s.page? (groupPpa g (xorChannel (s.grp g) g (ppaPage ppa)) (ppaPage ppa))).isSome
/-- A reconstruction may be combined now: its peers have all decoded, at step 4 the target has failed again, and its key is
there (R125, R132). -/
def Miss.combinable (m : Miss) : Bool :=
  m.recon && !m.pageIn && m.keyWait.isNone && m.peersGood && (decide (m.step ≠ 4) || decide (m.tgt = .failed))
/-- STRIPE_COMBINE_DONE (R132): the 15 peer codewords are combined; the rebuilt codeword is good and wins, or the read climbs.
A stripe without its parity page or accumulator gives no codeword. -/
def execStripeCombineDone (miss : Nat) (r : Decode) (s : State) : Host.Outcome State Fault Refusal :=
  .next (match s.missById miss with
    | none => s
    | some m =>
      if m.combinable then
        match (if s.stripeWhole m.ppa then r else .noConverge) with
        | .good =>
          let s1 := if m.hedged ∧ m.step = 1 then s.upRstats (fun t => { t with hedgeRecon := t.hedgeRecon + 1 }) else s
          ((s1.fetched m).healed m).count 59 2 1
        | .crcFail => s.combineBad { m with lastCrc := true }
        | .noConverge => s.combineBad { m with lastCrc := false }
      else s)

/-- PREFETCH_DONE (R123, R135): the sector fills the tier, or the prefetch is dropped: a failed decode, a line written
meanwhile, no clean way, or a line whose key is lost. Host reads take the die bus before it (R431). -/
def execPrefetchDone (pf : Nat) (r : Decode) (s : State) : Host.Outcome State Fault Refusal :=
  .next (match Tab.look s.slices.prefetches pf with
    | none => s
    | some x =>
      if !s.innerTurn (ppaCh x.ppa) then s
      else
      let s1 := ((s.upSlices (fun q => { q with prefetches := Tab.erase q.prefetches pf })).wakeChannel (ppaCh x.ppa)).useBus
        (ppaCh x.ppa) false wordNs
      let lost := (List.range 32).any (fun j => s1.storedLost (x.sector * 32 + j))
      if r = .good ∧ (s1.sector? x.sector).isNone ∧ (s1.tierRoom x.sector).isSome ∧ !x.written ∧ !lost then
        s1.tierFill x.sector true
      else s1.upRstats (fun t => { t with pfDropped := t.pfDropped + 1 }))

/-- KEY_UNWRAP_DONE (R403): the key enters the 256-entry key cache, and the lines waiting for it pass. -/
def execKeyUnwrapDone (id : Nat) (s : State) : Host.Outcome State Fault Refusal :=
  .next (if s.keys.cache.contains id || decide ((s.keyRec id).st = 0) then s
    else
      (s.upKeys (fun k => { k with cache := (if 256 ≤ k.cache.length then k.cache.tail else k.cache) ++ [id] })).upSlices
        (fun q => { q with misses := q.misses.map (fun m => if m.keyWait = some id then { m with keyWait := none } else m) }))

/-- A fetch whose map unit has arrived (R85, R226): a mapped grain is read, a demand read under regulation; in one that is not
mapped a read and a lock end with zeros (R366), a fill completes, and a merge base is zeros. -/
def State.pagedIn (m : Miss) (s : State) : State :=
  if (s.copyAt m.line).isSome then
    (if m.kind = .demand then s.admitRead m.cls else s).lookUp { m with pastShare := decide (m.kind = .demand) && !s.withinShare m.cls }
  else
    match m.kind with
    | .fill => (s.dropMiss m).fillSector (sectorOf m.line)
    | .merge => s.setMiss { m with
        pageIn := false
        ended := .good }
    | _ =>
      let t := s.dropMiss m
      let u := if m.kind = .lock then (t.fcFill m.line (t.current m.line) m.policy).lockFetched m else t
      if u.isMerging m.line then u.parkAttached m.line else u.answerAttached m.line (u.current m.line)

/-- The channel of the page with a unit's last copy is awake (R36, R226). -/
def State.wakeUnit (unitType unit : Nat) (s : State) : State :=
  match s.map.ckpt.extents.reverse.findSome? (fun e => (e.indexOf s.ident.variant (unitType, unit)).map (fun i => (e, i))) with
  | some (e, i) =>
    match e.pages[i / 12]? with
    | some ppa => s.wakeChannel (ppaCh ppa)
    | none => s
  | none => s
/-- MAP_UNIT_PAGE_IN (R226): the unit's codewords arrive and its journal records are applied; the reads waiting for it
proceed. -/
def execMapUnitPageIn (unitType unit : Nat) (s : State) : Host.Outcome State Fault Refusal :=
  .next (if s.map.resident then s
    else
      let s1 := (s.wakeUnit unitType unit).upMap (fun m => { m with paged := Tab.set false m.paged (unitType * 2 ^ 32 + unit) true })
      (s1.slices.misses.filter (fun m => m.pageIn && s1.mapReady m.line)).foldl (fun t m => t.pagedIn m) s1)

/-- The fill of a sector has ended (R373): every codeword good, or one failed. -/
def Miss.arrived (m : Miss) : Bool := decide (m.ended = .failed) || (decide (m.ended = .good) && decide (m.parts = []))
/-- TIER_FILL_DONE (R373): the fill of a Filling sector arrives; a fill that failed every step poisons the lines it did not
bring. -/
def execTierFillDone (sector : Nat) (s : State) : Host.Outcome State Fault Refusal :=
  .next (match s.fillOf sector with
    | none => s
    | some m =>
      if !m.arrived then s
      else if m.ended = .good then s.deliverFill m
      else s.poisonFill m)

/-- The fetch of a line's merge base leaves the miss table. -/
def State.endBase (line : Nat) (s : State) : State :=
  match s.baseOf line with
  | some m => s.dropMiss m
  | none => s
/-- MERGE_BASE_ARRIVED (R147, R148): the line is merged with its base, from the tier (an uncorrectable burst there is 2101h),
from media once its fetch has ended, or zeros where the grain is not mapped; a lost base poisons the line as its last decode
says. -/
def execMergeBaseArrived (line : Nat) (dramBad : Bool) (s : State) : Host.Outcome State Fault Refusal :=
  .next (if s.isMerging line then
      match s.tierLine? line with
      | some d => (if dramBad then s.mergeLost line 0x2101 else s.mergeWith line (s.baseBytes line d)).endBase line
      | none =>
        match s.baseOf line with
        | some m =>
          if m.ended = .good then
            (if s.lostAt m.ppa m.slot then (s.poison line).mergeWith line 0
              else s.mergeWith line (s.baseBytes line (s.viewAt m.ppa m.slot))).endBase line
          else if m.ended = .failed then (s.mergeLost line (poisonCode m.lastCrc)).endBase line
          else s
        | none =>
          if s.mapReady line && (s.copyAt line).isNone && (s.sector? (sectorOf line)).isNone then s.mergeWith line 0
          else s
    else s.endBase line)

/-- BOUND_CONDITION_CLEAR (R138, R139): 10 s after its condition last failed a bit clears; 5011h when all are clear. -/
def execBoundConditionClear (bit : Nat) (s : State) : Host.Outcome State Fault Refusal :=
  .next (if s.rstats.bits.getLsbD bit && !s.rstats.failing.getLsbD bit then
      let s1 := s.elapseTo (Tab.get 0 s.rstats.endedAt bit + 10 * sec)
      let s2 := s1.upRstats (fun r => { r with bits := r.bits &&& ~~~ ((1 : BitVec 8) <<< bit) })
      if s2.rstats.bits = 0 then s2.log 0x5011 s2.rstats.overBound else s2
    else s)

end Sys2Proof.Machine
end

