-- ==== Sys2Proof/Machine/Writes.lean ====
section
/-!
DEFINITION. The write rows: arrival, admission to the dirty budget, held writes, eviction from the front cache and lines
that wait for a tier sector (R143, R153, R183, R361, R374).
-/
namespace Sys2Proof.Machine

/-- HOST_WRITE_REQUEST (R143): a CXL.mem write is checked and accepted into its slice's pail, or discarded. -/
def execHostWriteRequest (key addr tag : Nat) (data : Line) (be : Mask) (poison : Bool) (s : State) :
    Host.Outcome State Fault Refusal := .next (s.arrive true key addr tag data be poison)

/-- The oldest write waiting for the dirty budget. -/
def State.firstHeld (s : State) : Option Req := s.reqs.list.find? (fun r => decide (r.stage = .budget))

/-- WRITE_ADMIT (R153): the oldest write waiting for the budget is admitted once its charge fits, charged and carried to
its completion; not in a dump (R33). -/
def execWriteAdmit (s : State) : Host.Outcome State Fault Refusal :=
  .next (if s.dumping then s else match s.firstHeld with
    | none => s.workPail
    | some r =>
      if s.admits r.line then
        if r.kind = .condWrite then s.serveCond r else s.serveWrite r
      else s.workPail)

/-- Why writeback does not free budget (R65, R183): of several reasons the lowest number. DESIGN CHOICE: the spec does not say which
one is reported (log entry 124). -/
def State.heldReason (s : State) : Nat :=
  if s.available < 4 ∧ s.care.brine ≠ 3 then 1
  else if !s.map.queue.any s.quadOpen then 2
  else if s.journalFull then 3
  else 4

/-- WRITES_HELD (R65, R183): 100 ms after a write began to wait for the budget, 2005h with the reason, once per write. -/
def execWritesHeld (s : State) : Host.Outcome State Fault Refusal :=
  .next (match s.reqs.list.find? (fun r => decide (r.stage = .budget) && !s.budget.heldLogged.contains r.id) with
    | none => s
    | some r =>
      let s1 := s.elapseTo (r.arrival + 100000000)
      (s1.upBudget (fun b => { b with heldLogged := b.heldLogged ++ [r.id] })).logFor r.entry 0x2005 s1.heldReason)

/-- Replace one line of a front-cache set (R361): it moves to the tier, or waits in its way for a tier sector. -/
def State.evict (line : Nat) (s : State) : State :=
  match s.fcLine? line with
  | none => s
  | some x =>
    match s.moveToTier line x with
    | some t => t
    | none => (s.fcPut line { x with waiting := true }).pressSet (sectorOf line)

/-- FRONT_CACHE_EVICT (R361, R362): the line chosen for replacement in a full set leaves it; its parity is checked. -/
def execFrontCacheEvict (slice set : Nat) (fault : CacheFault) (s : State) : Host.Outcome State Fault Refusal :=
  .next (if !s.fastOn || s.dumping then s
    else
      match s.fcWay (slice * 2048 + set) with
      | some (_, some line) =>
        let t := s.checkFault fault 6 line
        if t.fastOn then t.evict line else t
      | _ => s)

/-- A front-cache line of a tier set that waits to enter it. -/
def State.waitingLine (s : State) (key : Nat) : Option (Nat × FcLine) :=
  s.fc.lines.find? (fun kx => kx.2.waiting && decide (tierSetKey s.ident.variant (sectorOf kx.1) = key))
/-- A write that waits to enter a tier set. -/
def State.waitingWrite (s : State) (key : Nat) : Option Req :=
  s.reqs.list.find? (fun r => decide (r.stage = .sector) && decide (tierSetKey s.ident.variant (sectorOf r.line) = key))

/-- TIER_SECTOR_FREED (R374): a line waiting to enter the set proceeds: a front-cache line first, else a write. -/
def execTierSectorFreed (slice set : Nat) (s : State) : Host.Outcome State Fault Refusal :=
  let key := slice * s.ident.variant.tierSets + set
  .next (if s.dumping then s else match s.waitingLine key with
    | some (l, x) =>
      match s.moveToTier l x with
      | some t => t
      | none => s
    | none =>
      match s.waitingWrite key with
      | some r => if (s.tierRoom (sectorOf r.line)).isSome then s.storeWrite r else s
      | none => s.workPail)

end Sys2Proof.Machine
end

