-- ==== Sys2Proof/Machine/Atomics.lean ====
section
/-!
DEFINITION. The atomics rows: reserved reads, room in a reservation table, and conditional writes (R292 to R300).
-/
namespace Sys2Proof.Machine

/-- RESERVED_READ (R292): a read in an atomics window is checked, and served as an ordinary read of its target that records
a reservation for the partner, after what its checks find (R31). -/
def execReservedRead (key addr tag : Nat) (fault : CacheFault) (s : State) : Host.Outcome State Fault Refusal :=
  .next ((s.arrive false key addr tag 0 0 false).serveNew s.reqs.next fault)

/-- RESERVATION_TABLE_ROOM (R293): the oldest reservation of a full table passes 2 µs of age and is displaced, and the
reserved read that waits proceeds, after what its checks find (R31); not in a dump (R33). -/
def execReservationTableRoom (slice : Nat) (fault : CacheFault) (s : State) : Host.Outcome State Fault Refusal :=
  .next (if s.dumping then s else match s.reqs.list.find? (fun r => decide (r.stage = .reservation) && decide (r.slice = slice)) with
    | none => s
    | some r =>
      let oldest := match s.atom.res.find? (fun x => decide (x.slice = slice)) with
        | some x => x.made
        | none => 0
      (s.elapseTo (oldest + 2001)).checked fault r (fun t =>
        if t.staleGrain (grainOf r.line) || t.isMerging r.line then t.serveRead r else t.finishRead r (t.current r.line)))

/-- CONDITIONAL_WRITE (R294): a write in an atomics window is checked, decided against the reservation, stored or failed,
and the status word is set. -/
def execConditionalWrite (key addr tag : Nat) (data : Line) (be : Mask) (poison : Bool) (s : State) :
    Host.Outcome State Fault Refusal := .next ((s.arrive true key addr tag data be poison).serveNew s.reqs.next .none)

end Sys2Proof.Machine
end

