-- ==== Sys2Proof/Machine/LapPages.lean ====
section
/-!
DEFINITION. The allocation queue a lap builds, and the pages of a running lap: their placement and programs, one after the other, the
directory in groups opened for it, and the root (R220 to R224, R247).
-/
namespace Sys2Proof.Machine

/-! ## The allocation queue (R223, R247) -/

/-- Insert a quad by rising wear, ties to the lower quad. -/
def insertWear (q : Nat × Nat) : List (Nat × Nat) → List (Nat × Nat)
  | [] => [q]
  | x :: t => if q.2 < x.2 ∨ (q.2 = x.2 ∧ q.1 ≤ x.1) then q :: x :: t else x :: insertWear q t
/-- A quad's wear: the highest erase count among its present blocks, those of groups in service (R247). -/
def State.quadWear (s : State) (q : Nat) : Nat :=
  (((quadGroups q).filter (fun g => decide ((s.grp g).st ∉ [GSt.retired, .slot]))).map (fun g => (s.grp g).erase)).foldl max 0
/-- The allocation queue a lap builds from the Free groups (R223, R247): 1,024 quads in ascending order of wear. -/
def State.allocQueue (s : State) : List Nat :=
  let worn := ((s.media.groups.filter (fun kg => decide (kg.2.erase ≠ 0))).map (fun kg => quadOf kg.1)).eraseDups.filter (fun q =>
    decide (s.quadWear q ≠ 0))
  let fresh := (List.range (s.ident.variant.positions * 1024)).filter (fun q => !worn.contains q && s.quadOpen q)
  let old := (worn.filter s.quadOpen).foldl (fun l q => insertWear (q, s.quadWear q) l) []
  (fresh ++ old.map (fun x => x.1)).take 1024

/-! ## The pages of a running lap (R221 to R223) -/

/-- The priority a lap's programs ask leave at (R219, R221). -/
def State.lapPrio (s : State) : Nat := if 402653184 ≤ s.journalBytes then 0 else 1
/-- The groups of the last directory take no more pages: a directory is written in groups opened for it (R202, R223). -/
def State.endDirectory (s : State) : State :=
  (s.media.groups.filter (fun kg => decide (kg.2.st = .opened) && decide (kg.2.kind = .directory))).foldl (fun t kg =>
    ((t.upMedia (fun m => { m with
      groups := Tab.set {} m.groups kg.1 { Tab.get ({} : Group) m.groups kg.1 with cursor := 4096 } })).programXor kg.1 kg.2.cursor .lap
        1).closing kg.1) s
/-- Place and program the next page of the running lap (R221, R222): a page of copies, or of the directory, which begins in newly
opened groups once every copy has verified (R223). None when every page is placed, or nothing may be opened. -/
def State.lapNextPage (s : State) : Option State :=
  let v := s.ident.variant
  match s.map.lapNext.extents with
  | [e] =>
    let n := e.pages.length
    if e.count ≤ n ∨ (n = e.copyPages v ∧ s.media.passes.any (fun p => decide (p.act = .lap))) then none
    else
      let s0 := if n = e.copyPages v then s.endDirectory else s
      match s0.place (if n < e.copyPages v then .checkpoint else .directory) none .lap with
      | none => none
      | some (ppa, t) =>
        let (gen, t1) := t.takeGen
        some ((t1.program ppa (lapPage 3 e.lap gen (t1.lapPayload t1.map.lapNext e n)) .lap t1.lapPrio none).upMap (fun m => { m with
          lapNext := { m.lapNext with extents := [{ e with pages := e.pages ++ [ppa] }] } }))
  | _ => none
/-- Place up to n further pages of the running lap. -/
def State.lapPages : Nat → State → State
  | 0, s => s
  | n + 1, s =>
    match s.lapNextPage with
    | some t => t.lapPages n
    | none => s
/-- Program the root of the running lap, when all its other pages have verified (R221, R223). -/
def State.lapRoot (s : State) : State :=
  match s.place .checkpoint none .lap with
  | none => s
  | some (ppa, t) =>
    let (gen, t1) := t.takeGen
    let c := { t1.map.lapNext with genHigh := t1.media.gen }
    (t1.program ppa (lapPage 4 c.lap gen (t1.rootPayload c)) .lap t1.lapPrio none).upMap (fun m => { m with
      lapNext := { c with root := ppa + 1 } })
/-- Pages a lap has under way at once: the stripes of one quad (log entry 141). -/
def lapBatch : Nat := 60
/-- The running lap goes on once the pages it had under way have verified: with its next pages, in the end with its root (R221). -/
def State.runLap (s : State) : State :=
  if !s.map.lapRunning || s.media.passes.any (fun p => decide (p.act = .lap)) then s
  else if s.map.lapNext.extents.all (fun e => decide (e.count ≤ e.pages.length)) then
    (if s.map.lapNext.root = 0 then s.lapRoot else s)
  else s.lapPages lapBatch

end Sys2Proof.Machine
end

