-- ==== Sys2Proof/Machine/MediaOps.lean ====
section
/-!
DEFINITION. The media rows: writeback, leave, window tokens, programs and their verifies, close verifies, block resets,
and failed dies and their rebuild (R129, R130, R154, R161 to R164, R193 to R207, R210 to R215, R432, R436 to R439).
-/
namespace Sys2Proof.Machine

/-! ## Writeback (R154, R161 to R163, R432) -/

/-- Grains with Dirty or Merging lines in a cache, but those whose pair-wide change is under way (log entry 22), and at a
receiver those that wait for their copy (R344). -/
def State.dirtyGrains (s : State) : List Nat :=
  let inFc : List Nat := (s.fc.lines.filter (fun kx => decide (kx.2.st ≠ FcSt.unmodified))).map (fun kx => grainOf kx.1)
  let inTier : List Nat := (s.tier.sectors.filter (fun kx =>
    kx.2.st.any (fun e => decide (e.2 = TSt.dirty) || decide (e.2 = TSt.merging)))).map (fun kx => kx.1 / 8)
  (inFc ++ inTier).eraseDups.filter (fun g => !s.changing g && !s.staleGrain g)
/-- Every dirty grain is written back at the highest priority: PrepareShutdown, an uncovered or overdrawn budget, or a
restore being covered (R154, R157, R159, R173). -/
def State.flushAll (s : State) : Bool :=
  decide (s.ctl 0x9060 = 1) || decide (s.budget.uncovered ≠ 0) || decide (s.budgetBytes < s.dirtyBytes) ||
    decide (s.pwr.arm = 2)
/-- The internal priority at which a grain may be written back now, none when no condition of R154 picks it. A Dirty line that is
not charged is one written in program-acknowledged mode, whose write waits for its program (R158). -/
def State.wbPrio (s : State) (g : Nat) : Option Nat :=
  let byBudget :=
    if s.flushAll then some 0
    else if s.entry 0x2010 4 * s.budgetBytes ≤ s.dirtyBytes * 100 ∧ s.dirtyBytes ≠ 0 then some 0
    else if s.entry 0x2010 3 * s.budgetBytes ≤ s.dirtyBytes * 100 ∧ s.dirtyBytes ≠ 0 then some 1
    else none
  if (s.dirtyLines g).any (fun l => !s.isCharged l) then some 0
  else
    match Tab.look s.budget.queued g, byBudget with
    | some a, some b => some (min a b)
    | some a, none => some a
    | none, b => b
/-- The class of a grain: its range's (R428). -/
def State.grainClass (s : State) (g : Nat) : Nat :=
  match s.rangeAt (g * 16384) with
  | some (_, r) => r.cls
  | none => 15
/-- R154's order within a class: a grain asked for by itself first, then the most dirty lines, then the lower grain. -/
def State.wbBefore (s : State) (a b : Nat) : Bool :=
  let qa := (Tab.look s.budget.queued a).isSome
  let qb := (Tab.look s.budget.queued b).isSome
  if qa ≠ qb then qa
  else
    let na := (s.dirtyLines a).length
    let nb := (s.dirtyLines b).length
    if na ≠ nb then decide (nb < na) else decide (a < b)
/-- The first grain of a list in that order. -/
def State.wbFirst (s : State) (gs : List Nat) : Option Nat :=
  gs.foldl (fun b g =>
    match b with
    | none => some g
    | some x => if s.wbBefore g x then some g else b) none
/-- Every line of a grain can be taken: a grain waits while one of them waits for a tier sector (R161, R374). -/
def State.wbReady (s : State) (g : Nat) : Bool := (s.dirtyLines g).all s.takable
/-- A writeback of a grain with a sector in the full set starts for each line a grain waits with (R154, R374). -/
def State.pressBlocked (s : State) : State :=
  (s.dirtyGrains.filter (fun g => !s.wbOf g && (s.wbPrio g).isSome && !s.wbReady g)).foldl (fun t g =>
    ((t.dirtyLines g).filter (fun l => !t.takable l)).foldl (fun u l => u.pressSet (sectorOf l)) t) s
/-- The grain taken into writeback next with its priority (R154, R432): the highest priority, classes within their write
guarantee first, the others by deficit round robin. -/
def State.nextWriteback (s0 : State) : Option (Nat × Nat × State) :=
  let s := s0.refillTokens
  let cand := (s.dirtyGrains.filter (fun g => !s.wbOf g && s.wbReady g)).filterMap (fun g => (s.wbPrio g).map (fun p => (g, p)))
  let best := cand.foldl (fun b c => min b c.2) 3
  let top := (cand.filter (fun c => decide (c.2 = best))).map (fun c => c.1)
  let within := top.filter (fun g =>
    decide (64000 * (s.dirtyLines g).length ≤ Tab.get 0 s.reg.writeTok (s.grainClass g)))
  match s.wbFirst within with
  | some g => some (g, best, s)
  | none =>
    if top.isEmpty then none
    else
      let (c, s1) := s.nextClass 48 (top.map s.grainClass)
      match s1.wbFirst (top.filter (fun g => decide (s1.grainClass g = c))) with
      | some g => some (g, best, s1)
      | none => none

/-- Lines in log pages not yet verified that will take slots of their own in buckets a grain's lines may take (R214). -/
def State.slotsAhead (s : State) (g : Nat) : Nat :=
  let v := s.ident.variant
  ((s.media.passes.map (fun p => match s.page? p.ppa with
    | some pg => (pg.liveSlots.filter (fun kv => decide (pg.kind = 2) && (s.overlayOf kv.2.line).isNone &&
        decide ((ovBucket v (grainOf kv.2.line) + 15 + 2 ^ v.overlayBits - ovBucket v g) % 2 ^ v.overlayBits < 31))).length
    | none => 0))).foldl (· + ·) 0
/-- The lines taken are appended to the line log: a mapped grain below RewriteThreshold, the log away from its limits and the
grain's buckets with a free slot for each line that has none (R162, R214, R215); in Brine mode the limits are not applied (R263). -/
def State.appends (s : State) (g : Nat) (ls : List Nat) : Bool :=
  let b := ovBucket s.ident.variant g
  let room := ((List.range 128).filter (fun i =>
    (Tab.look s.map.overlay ((b + i / 8) % 2 ^ s.ident.variant.overlayBits * 8 + i % 8)).isNone)).length
  s.isMapped g && decide (ls.length < s.entry 0x2230 1) && (s.inBrine || s.logLimits.isEmpty) &&
    decide ((ls.filter (fun l => (s.overlayOf l).isNone)).length + s.slotsAhead g ≤ room) && decide (s.entry 0x2230 3 ≠ 0)

/-- Lines taken into the Writing state (R161). -/
def State.writingLines (s : State) (g : Nat) : List Nat :=
  ((List.range 256).map (fun j => g * 256 + j)).filter (fun l =>
    match s.sector? (sectorOf l) with
    | some x => decide (x.lineSt (l % 32) = .writing)
    | none => false)

/-- Note a running writeback: its write guarantee is charged and it leaves the queue. -/
def State.noteWb (g prio : Nat) (taken : List Nat) (s : State) : State :=
  let c := s.grainClass g
  (s.upBudget (fun b => { b with
    running := b.running ++ [⟨g, prio, taken⟩]
    queued := Tab.erase b.queued g })).upReg (fun r => { r with
      writeTok := Tab.set 0 r.writeTok c (Tab.get 0 r.writeTok c - 64000 * taken.length) })

/-- Every grain with a line that has been Dirty for longer than DirtyAgeLimit is queued at the lowest priority (R154). -/
def State.queueAged (s : State) : State :=
  (s.budget.charged.filter (fun kv => decide (kv.2 + s.entry 0x2010 5 * sec < s.clk.now) && !s.wbOf (grainOf kv.1))).foldl
    (fun t kv => t.queueWb (grainOf kv.1) 2) s
/-- A whole-grain rewrite (R162, R163): lines not held are read from the page or the log; one that fails every step is
written poisoned. -/
def State.rewriteGrain (g prio : Nat) (taken : List Nat) (done : List (Nat × Nat)) (reads : List WordRead) (s : State) :
    Option State :=
  match s.place .grain none .writeback with
  | none => none
  | some (ppa, t) =>
    let (bad, t0) := t.readLines (t.unheld ((List.range 256).map (fun j => g * 256 + j))) done reads
    let t1 := t0.loseLines bad
    let (gen, t2) := t1.takeGen
    let pg := t2.grainPage g gen true
    some (((t2.lostKeyWrite pg.keyId taken).program ppa pg .writeback prio none).noteWb g prio taken)
/-- A line-log append of the lines taken (R162, R211). -/
def State.appendGrain (g prio : Nat) (taken : List Nat) (s : State) : Option State :=
  ((s.lostKeyWrite (s.writeKey g 0) taken).appendLines (taken.map (fun l => (l, s.current l))) .writeback prio none none).map
    (fun r => r.2.noteWb g prio taken)

/-- WRITEBACK_START (R154, R161, R162): the next grain is taken, its Dirty lines enter the Writing state, and its page or
log slots are programmed. It waits while the journal is past 486 MiB (R219), no page can be placed (R235), or a restore has not
placed its last record (R175). A page that had to be rebuilt for one of its codewords and stays in force is relocated (R197). -/
def execWritebackStart (reads : List WordRead) (s : State) : Host.Outcome State Fault Refusal :=
  .next (if !s.mastersRun ∨ s.journalFull ∨ s.pwr.arm = 4 then s
    else
      match s.queueAged.pressBlocked.noteLimits.nextWriteback with
      | none => s.queueAged.pressBlocked
      | some (g, prio, s0) =>
        let merges := (s0.dirtyLines g).filter s0.needsBase
        let (bad, s1) := s0.readLines merges [] reads
        let s2 := (s0.dirtyLines g).foldl (fun t l => t.takeLine bad l) s1
        let taken := s2.writingLines g
        if taken = [] then s
        else
          let app := s2.appends g taken
          let out := if app then s2.appendGrain g prio taken
            else s2.rewriteGrain g prio taken (s0.wordsOf merges) reads
          match out with
          | some t => if app then t.moveRebuilt (s0.wordsOf merges) reads else t
          | none => s)

/-- The oldest charge of a grain that is neither queued nor being written back. -/
def State.oldestCharge (s : State) : Option (Nat × Nat) :=
  (s.budget.charged.filter (fun kv => (Tab.look s.budget.queued (grainOf kv.1)).isNone && !s.wbOf (grainOf kv.1))).foldl (fun b kv =>
    match b with
    | none => some kv
    | some x => if kv.2 < x.2 then some kv else b) none
/-- DIRTY_AGE_EXPIRED (R154): the line Dirty longest passes DirtyAgeLimit, and every grain with a line past it is queued at the lowest
priority. -/
def execDirtyAgeExpired (s : State) : Host.Outcome State Fault Refusal :=
  .next (if !s.fastOn then s
    else
      match s.oldestCharge with
      | none => s
      | some (_, t) => (s.elapseTo (t + s.entry 0x2010 5 * sec + 1)).queueAged)

/-! ## Passes withdrawn (R164, R196, R199, R207) -/

/-- A page is not programmed after all: its lines return to Dirty, and its pass, leave and place are gone (R164). -/
def State.withdraw (p : Pass) (s : State) : State :=
  (((s.returnLines (s.passLines p)).endPass p)).upMedia (fun m => { m with pages := Tab.erase m.pages p.ppa })
/-- A page of the running lap that did not stand is placed again with its content, its root too; without a place the lap is given up
and is due again (R220, R224). -/
def State.replaceLap (p : Pass) (pg : Page) (s : State) : State :=
  if !s.map.lapRunning then s
  else
    match s.place (if (s.grp (ppaGroup p.ppa)).kind = .directory then .directory else .checkpoint) none .lap with
    | none => s.upMap (fun m => { m with
        lapRunning := false
        lapNext := {}
        lapDue := true })
    | some (ppa, t) =>
      let (gen, t1) := t.takeGen
      (t1.program ppa { pg with gen := gen } .lap p.prio none).upMap (fun m => { m with
        lapNext := if pg.kind = 4 then { m.lapNext with root := ppa + 1 }
          else { m.lapNext with extents := m.lapNext.extents.map (Extent.replace p.ppa ppa) } })
/-- What a page that did not stand was for is done again elsewhere: its copy set, its move, its resync copy, its page of a lap
(R204, R206, R243). -/
def State.again (set : Option CopySet) (p : Pass) (pg : Option Page) (s : State) : State :=
  match set with
  | some k => s.redoSet k (ppaGroup p.ppa)
  | none =>
    match p.src with
    | some q => s.queueMoves [q] p.act p.prio
    | none =>
      match pg with
      | some x => if x.kind = 3 ∨ x.kind = 4 then s.replaceLap p x else s.runResync
      | none => s.runResync
/-- Pages waiting for their leave that may no longer be programmed are withdrawn and done again elsewhere (R196, R199, R207). -/
def State.cancel (bad : Pass → Bool) (s : State) : State :=
  (s.media.passes.filter (fun p => !p.started && bad p)).foldl (fun t p =>
    if t.media.passes.any (fun q => decide (q.id = p.id)) then
      ((t.withdraw p).again (t.setOf p.ppa) p (t.page? p.ppa)).programXor (ppaGroup p.ppa) (ppaPage p.ppa) p.act p.prio
    else t) s

/-! ## Leave and window tokens (R129 to R131, R436 to R439, R447) -/

/-- The pool of R436 in quarter-pecks, under the controller zone's throttle factor (R447). -/
def State.pool (s : State) : Nat :=
  let p := 2 * (s.entry 0x2000 1 - s.reg.baseDraw - s.entry 0x2000 2) / 125
  match Tab.get 0 s.therm.steps 96 with
  | 0 => p
  | 1 => p * 3 / 4
  | _ => p / 2
/-- The re-key skim has moved less than ReKeyPace over the last 10 s (R411). -/
def State.rekeySlow (s : State) : Bool :=
  decide (16384 * (s.tabs.rekeyed.filter (fun t => decide (s.clk.now < t + 10 * sec))).length <
    10 * 1000000 * s.entry 0x4000 1)
/-- A leave is for a victim's copies: its stream, or a program into a copy set's target (R437). -/
def State.ofVictim (s : State) (l : Leave) : Bool :=
  if l.id < 2 ^ 40 then
    match s.media.passes.find? (fun p => decide (p.id = l.id)) with
    | some p => (s.grp (ppaGroup p.ppa)).copy.isSome
    | none => false
  else decide (2 ^ 41 ≤ l.id) && decide (l.id < 2 ^ 42 + 2 ^ 40)
/-- A scrub pass has covered less than 2 GB/s since it began (R260). -/
def State.scrubSlow (s : State) : Bool :=
  s.scrubs && decide (s.val 0x9020 5 < 2 * (s.clk.now - (Tab.get ({} : Job) s.cmds.jobs 0x9020).since))
/-- The priority of a leave as things stand: a re-key skim below its pace and a scrub pass below 2 GB/s at normal (R260, R411), a lap
while 384 MiB of journal are in use at the highest (R219), skimming of a victim by the level A has reached (R232, R238). -/
def State.leavePrio (s : State) (l : Leave) : Nat :=
  if l.act = .rekey ∧ s.rekeySlow then min 1 l.prio
  else if l.act = .scrub ∧ s.scrubSlow then min 1 l.prio
  else if l.act = .lap ∧ 402653184 ≤ s.journalBytes then 0
  else if l.act = .skimming ∧ s.ofVictim l then (if s.care.skim = 2 then 0 else if s.care.skim = 1 then min 1 l.prio else l.prio)
  else l.prio
/-- The order of R438. -/
def State.leaveBefore (s : State) (a b : Leave) : Bool :=
  let old := fun (l : Leave) => decide (l.arrival + 50000000 ≤ s.clk.now)
  let prio := s.leavePrio
  if prio a ≠ prio b then decide (prio a < prio b)
  else if old a ≠ old b then old a
  else if actRank a.act ≠ actRank b.act then decide (actRank a.act < actRank b.act)
  else decide (a.arrival < b.arrival)
/-- The reset of a die has begun: it has had a window, or is in one. -/
def DieOp.begun (o : DieOp) : Bool := !o.isReset || o.inWindow || decide (o.windows ≠ 0)
/-- Dies of a package that program or reset now: a reset that has had all its windows no longer counts. -/
def State.packageBusy (s : State) (pkg : Nat) : Nat :=
  (s.media.ops.filter (fun kv => decide (packageOf kv.2.die = pkg) && kv.2.begun &&
    !(kv.2.isReset && decide (kv.2.mostWindows ≤ kv.2.windows)))).length
/-- One more die of a package may program or reset under its throttle step (R447). -/
def State.packageRoom (s : State) (pkg : Nat) : Bool :=
  match Tab.get 0 s.therm.steps pkg with
  | 0 => true
  | 1 => decide (s.packageBusy pkg < 4)
  | _ => decide (s.packageBusy pkg < 1)
/-- A die may start an operation: idle, and its package within its throttle step (R447). -/
def State.dieFree (s : State) (die : Nat) : Bool := (s.opOn die).isNone && s.packageRoom (packageOf die)
/-- The dies an operation that waits for leave will use. -/
def State.leaveDies (s : State) (l : Leave) : List Nat :=
  if l.id < 2 ^ 40 then
    match s.media.passes.find? (fun p => decide (p.id = l.id)) with
    | some p => [ppaDie p.ppa]
    | none => []
  else if 2 ^ 41 ≤ l.id ∧ l.id < 2 ^ 42 then
    let g := l.id - 2 ^ 41
    (presentCols (s.grp g)).map (fun c => g / 4096 * 16 + c)
  else []
/-- The lines of a page's content that come from media: all of a page copied, the lines of a whole-grain rewrite that no cache holds, and
none of a log append for a writeback or of a copy for resync (R163, R211, R241, R343). -/
def State.mediaLines (s : State) (p : Pass) : List Nat :=
  match s.page? p.ppa with
  | none => []
  | some pg =>
    if p.act = .resync then []
    else if pg.kind = 1 then s.unheld ((List.range 256).map (fun j => pg.owner * 256 + j))
    else if pg.kind = 2 ∧ p.act.copies then s.unheld (pg.slots.map (fun kv => kv.2.line))
    else []
/-- The keys a program's lines pass under are in the key cache: of its page, and of every grain page and log slot its content is read
from (R30, R403); a lost key is waited for by nothing (R407). -/
def State.keysReady (s : State) (p : Pass) : Bool :=
  let own := match s.page? p.ppa with
    | none => []
    | some pg => (if pg.kind = 1 then [pg.keyId] else []) ++ pg.slots.map (fun kv => kv.2.keyId)
  let from' := ((s.mediaLines p).filterMap s.copyAt).map (fun c => s.slotKeyAt c.1 c.2)
  (own ++ from').eraseDups.all (fun k => s.keys.cache.contains k || (s.keyRec k).lost)
/-- The dies of the page's group stay within 8 pages of one another (R195). -/
def State.inStep8 (s : State) (p : Pass) : Bool :=
  !(s.media.passes.any (fun q => decide (ppaGroup q.ppa = ppaGroup p.ppa) && !q.programmed &&
    decide (ppaPage q.ppa + 8 ≤ ppaPage p.ppa)))
/-- A read of a page of the group is in flight (R210). -/
def State.readsGroup (s : State) (g : Nat) : Bool :=
  s.slices.misses.any (fun m => decide (ppaGroup m.ppa = g) && !m.dies.isEmpty) ||
    s.slices.prefetches.any (fun kv => decide (ppaGroup kv.2.ppa = g))
/-- The copy stream a program belongs to has its leave (R437). -/
def State.streamRuns (s : State) (p : Pass) : Bool :=
  match s.passStream p with
  | none => true
  | some id => s.reg.granted.any (fun l => decide (l.id = id))
/-- The request's dies are free to start, none of them at a failed position (R207); a program's group takes programs (R196, R199), its
keys are unwrapped (R30) and its group's dies are within 8 pages (R195) and its copy stream runs, of which there are at most 4 (R437); a
reset waits for the reads of its group's pages (R210); other kinds start at once. -/
def State.startable (s : State) (l : Leave) : Bool :=
  if 2 ^ 41 ≤ l.id ∧ l.id < 2 ^ 42 then
    !s.still && !s.posFailed ((l.id - 2 ^ 41) / 4096) && !s.readsGroup (l.id - 2 ^ 41) &&
      (s.leaveDies l).all (fun d => (s.opOn d).isNone)
  else if l.isStream then decide ((s.reg.granted.filter Leave.isStream).length < 4)
  else
    (s.leaveDies l).all (fun d => s.dieFree d && !s.posFailed (d / 16)) && (match s.media.passes.find? (fun p => decide (p.id = l.id)) with
      | some p => s.takesPrograms (ppaGroup p.ppa) && s.keysReady p && s.inStep8 p && s.streamRuns p
      | none => true)
/-- The die operation's number: a program is its pass, a reset one number per die. -/
def opKey (l : Leave) (die : Nat) : Nat := if l.id < 2 ^ 40 then l.id else 2 ^ 43 + die
/-- The pages of one multi-plane pass (R184, R201): the page that has leave, and those waiting for the same page of the same block
on the die's other planes. -/
def State.passMates (s : State) (id : Nat) : List Nat :=
  match s.media.passes.find? (fun p => decide (p.id = id)) with
  | none => []
  | some p => (s.media.passes.filter (fun q => decide (q.id = id) || (!q.started && decide (ppaDie q.ppa = ppaDie p.ppa) &&
      decide (ppaPage q.ppa = ppaPage p.ppa) && decide (quadOf (ppaGroup q.ppa) = quadOf (ppaGroup p.ppa)) &&
      s.keysReady q && s.inStep8 q && s.streamRuns q))).map (fun q => q.id)
/-- The groups reset together with one (R184): those of its quad that wait for their reset on dies that are free, one block of each plane;
first the group itself. -/
def State.resetMates (s : State) (g : Nat) : List Nat :=
  if (s.grp g).st = .retired then [g]
  else g :: (quadGroups (quadOf g)).filter (fun h => decide (h ≠ g) && decide ((s.grp h).st = .stale) && s.reg.waiting.any (fun l => decide (l.id = resetId h)) &&
    !s.readsGroup h && (presentCols (s.grp h)).all (fun c => (s.opOn (h / 4096 * 16 + c)).isNone))
/-- An operation that has leave starts: its die operations queue for their row's token (R439), the pages of its pass count as started
under the one leave and their data goes over the die bus (R431), a Stale group is Resetting, with the others of its quad that wait for
their reset on the same dies (R184, R202). -/
def State.startOp (l : Leave) (s : State) : State :=
  let isReset : Bool := decide (2 ^ 41 ≤ l.id)
  let host : Bool := decide (l.act = .rebuild) && decide (s.media.rebuildPhase = 1)
  let mates := if 2 ^ 41 ≤ l.id ∧ l.id < 2 ^ 42 then s.resetMates (l.id - 2 ^ 41) else []
  let dies := if mates.isEmpty then s.leaveDies l
    else (mates.map (fun g => (presentCols (s.grp g)).map (fun c => g / 4096 * 16 + c))).foldl (· ++ ·) [] |>.eraseDups
  let s1 := dies.foldl (fun t d =>
    ((t.upMedia (fun m => { m with
      ops := Tab.put m.ops (opKey l d) ⟨d, isReset, host, isReset, false, 0, 0, 0, [], 0⟩
      tokenQueue := if t.readQueued d then m.tokenQueue else m.tokenQueue ++ [opKey l d] })).wakeChannel (d % 16)).count (32 + d % 16) (if isReset then 4 else 3) 1) s
  if l.id < 2 ^ 40 then
    let ids := s.passMates l.id
    let s2 := (s1.upMedia (fun m => { m with
      passes := m.passes.map (fun p => if ids.contains p.id then { p with
        started := true
        op := l.id } else p) })).upReg (fun g => { g with waiting := g.waiting.filter (fun x => !ids.contains x.id) })
    ((s.leaveDies l).foldl (fun t d => t.loadChannel (d % 16)) s2).count 59 1 (256 * ids.length)
  else
    mates.foldl (fun t g => (t.upReg (fun r => { r with
      waiting := r.waiting.filter (fun x => decide (x.id ≠ resetId g)) })).setGroup g
      (if (t.grp g).st = .retired then t.grp g else { t.grp g with st := .resetting })) s1
/-- Grant waiting requests in order until one does not fit (R438); a request whose die is still busy, or held by its
package's throttle step, is passed over. -/
def State.grantLoop : Nat → State → State
  | 0, s => s
  | n + 1, s =>
    let cand := s.reg.waiting.filter (fun l => s.startable l)
    match cand.foldl (fun (b : Option Leave) l =>
        match b with
        | none => some l
        | some x => if s.leaveBefore l x then some l else b) none with
    | none => s
    | some l =>
      if s.grantedQ + l.cost ≤ s.pool then
        let s1 := (s.upReg (fun g => { g with
          granted := g.granted ++ [l]
          waiting := g.waiting.filter (fun x => decide (x.id ≠ l.id))
          delayed := if l.arrival + 50000000 < s.clk.now then g.delayed + 1 else g.delayed })).count 60 2 1
        (s1.startOp l).grantLoop n
      else s
/-- LEAVE_GRANT (R438). Nothing is granted during a dump, which holds every peck. -/
def execLeaveGrant (s : State) : Host.Outcome State Fault Refusal :=
  .next (if !s.fastOn ∨ s.pwr.arm = 5 then s
    else (s.cancel (fun p => !s.takesPrograms (ppaGroup p.ppa))).grantLoop s.reg.waiting.length)

/-- The first die operation of a row, in order of request, whose die has no host read queued (R129, R130) and whose package lets a reset
not yet begun begin (R447). -/
def State.nextToken (s : State) (pos : Nat) : Option Nat :=
  s.media.tokenQueue.find? (fun k => match Tab.look s.media.ops k with
    | some o => decide (o.die / 16 = pos) && !s.readQueued o.die && decide (o.serving = []) &&
        (o.begun || s.packageRoom (packageOf o.die))
    | none => false)
/-- WINDOW_TOKEN_GRANT (R129, R130): the row's token goes to the first die in order of request with no host read queued. -/
def execWindowTokenGrant (pos : Nat) (s : State) : Host.Outcome State Fault Refusal :=
  .next (if (Tab.look s.media.tokens pos).isSome then s
    else
      match s.nextToken pos with
      | none => s
      | some k =>
        s.upMedia (fun m => { m with
          tokens := Tab.put m.tokens pos k
          tokenQueue := m.tokenQueue.filter (fun x => decide (x ≠ k))
          ops := match Tab.look m.ops k with
            | some o => Tab.put m.ops k { o with inWindow := true }
            | none => m.ops }))
/-- The window of a one-bit pass has ended, and with it the pass: its die asks for the next, if the image has one for it (R165, R184). -/
def State.nextOneBit (pos k : Nat) (o : DieOp) (s : State) : State :=
  s.upMedia (fun m => { m with
    tokens := Tab.erase m.tokens pos
    tokenQueue := if o.passes ≤ 1 then m.tokenQueue else m.tokenQueue ++ [k]
    ops := if o.passes ≤ 1 then Tab.erase m.ops k
      else Tab.put m.ops k { o with
        inWindow := false
        passes := o.passes - 1 } })
/-- WINDOW_END (R129, R130): the window ends and the token is released; an operation with windows left asks again, at once when
no read is queued for its die. -/
def execWindowEnd (pos : Nat) (s : State) : Host.Outcome State Fault Refusal :=
  .next (match Tab.look s.media.tokens pos with
    | none => s
    | some k =>
      match (Tab.look s.media.ops k).filter (fun o => decide (o.passes ≠ 0)) with
      | some o => s.nextOneBit pos k o
      | none => s.upMedia (fun m => { m with
        tokens := Tab.erase m.tokens pos
        tokenQueue := match Tab.look m.ops k with
          | some o => if o.windows + 1 < o.mostWindows ∧ !s.readQueued o.die then m.tokenQueue ++ [k] else m.tokenQueue
          | none => m.tokenQueue
        ops := match Tab.look m.ops k with
          | some o => Tab.put m.ops k { o with
              inWindow := false
              windows := o.windows + 1 }
          | none => m.ops }))

/-! ## Programs and verifies (R164, R195, R200, R203, R204, R210) -/

/-- Pages waiting in an absent column from its index on, or in a group with a second one, are not programmed there (R196). -/
def State.cancelAbsent (g : Nat) (s : State) : State :=
  let x := s.grp g
  s.cancel (fun p => decide (ppaGroup p.ppa = g) &&
    (x.second || (decide (x.absentCol = some (ppaCh p.ppa)) && decide (x.absentFrom ≤ ppaPage p.ppa))))
/-- A die fails: nothing more is programmed at its position (R207). -/
def State.dieDown (pos ch : Nat) (s : State) : State :=
  (s.failDie pos ch).cancel (fun p => decide (ppaPos p.ppa = pos))
/-- Dies with more than 64 retired blocks are declared failed (R205). -/
def State.checkDies (s : State) : State :=
  (s.media.retiredBlocks.filter (fun kv => decide (64 < kv.2) && decide (Tab.get 0 s.media.dieSt kv.1 = 0))).foldl (fun t kv =>
    t.dieDown (kv.1 / 16) (kv.1 % 16)) s
/-- A pass did not stand: its lines return to Dirty, its column becomes absent, the damaged pages of its wordline are
recovered by parity and relocated, the unrecoverable ones are lost, and its move or copy set is done again (R164, R200,
R204, R243). -/
def State.failPass (p : Pass) (damaged lost : List Nat) (s : State) : State :=
  let g := ppaGroup p.ppa
  let c := ppaCh p.ppa
  let near := damaged.filter (fun q => decide (ppaGroup q = g) && decide (ppaCh q = c) && decide (ppaPage q < ppaPage p.ppa)
    && decide (ppaPage p.ppa ≤ ppaPage q + 3))
  let s1 := (s.log 0x2210 p.ppa).withdraw p
  let set := s.setOf p.ppa
  let gone := s1.goneOf near lost
  let s2 := (s1.noteLost near).columnAbsent g c (ppaPage p.ppa)
  let s3 := ((s2.cancelAbsent g).stripeLost gone).queueMoves (near.filter (fun q => !gone.contains q && s2.pageValid q)) .relocation 1
  ((s3.again set p (s.page? p.ppa)).programXor g (ppaPage p.ppa) p.act p.prio).checkDies

/-- The slots of a page that hold some lines are marked poisoned (R190, R241). -/
def Page.lose (pg : Page) (bad : List (Nat × Nat)) : Page :=
  { pg with poison := bad.foldl (fun t x =>
      if pg.kind = 1 then (if grainOf x.1 = pg.owner then Tab.set false t (x.1 % 256) true else t)
      else match pg.slots.find? (fun kv => decide (kv.2.line = x.1)) with
        | some (k, _) => Tab.set false t k true
        | none => t) pg.poison }
/-- The source of a copy is read under the ladder before its program (R125, R241, R258): the lines that fail every step are written
poisoned, each with its event; a scrub pass lists them (R260). What the reads come to is given with the end of the pass (DESIGN CHOICE,
log entry 150). -/
def State.readSource (p : Pass) (reads : List WordRead) (s : State) : State :=
  if !p.act.copies then s
  else
    let (bad, s1) := s.readLines (s.mediaLines p) [] reads
    let s2 := (s1.loseLines bad).scrubPoison (bad.map (fun x => x.1))
    match s2.page? p.ppa with
    | some pg => s2.upMedia (fun m => { m with pages := Tab.put m.pages p.ppa (pg.lose bad) })
    | none => s2
/-- PROGRAM_PASS_DONE (R204): the pass ends and its leave is released; a good page waits for its verify and completes its
stripe, a failed one is handled by R204. The source of a copy has been read before, and its data has gone over the die bus (R431). -/
def execProgramPassDone (pass : Nat) (failed : Bool) (damaged lostPages : List Nat) (reads : List WordRead) (s : State) :
    Host.Outcome State Fault Refusal :=
  .next (match s.media.passes.find? (fun p => decide (p.id = pass)) with
    | none => s
    | some p =>
      let s0 := (s.loadChannel (ppaCh p.ppa)).readSource p reads
      if !p.started || p.programmed || (match Tab.look s0.media.ops p.op with
          | some o => o.inWindow || decide (o.serving ≠ []) || !o.loaded
          | none => false) then s
      else if failed then (s0.failPass p damaged lostPages).retireKeys
      else
        let s1 := ((s0.leavePass p).noteProgram p.ppa).upMedia (fun m => { m with
          passes := m.passes.map (fun q => if q.id = p.id then { q with programmed := true } else q) })
        let s2 := s1.upCare (fun k => { k with
          mediaBytes := k.mediaBytes + 16384
          skimBytes := if p.act ∈ [Act.skimming, .folding] then k.skimBytes + 16384 else k.skimBytes })
        let s3 := if p.act.copies then s2.count 58 2 256 else s2
        let s4 := s3.programXor (ppaGroup p.ppa) (ppaPage p.ppa) p.act p.prio
        if s4.still then s4 else s4.closing (ppaGroup p.ppa))

/-- The lines a verified page holds are released (R151, R158, R164): Writing lines become Clean, program-acknowledged
writes the page carries complete, and a peer's write held for it is acknowledged (R160). -/
def State.releasePage (p : Pass) (ls : List Nat) (s : State) : State :=
  let s1 := ls.foldl (fun t l => t.releaseLine l) s
  let s2 := s1.upBudget (fun b => { b with
    running := (b.running.map (fun w => { w with taken := w.taken.filter (fun l => decide (l ∉ ls)) })).filter (fun w =>
      decide (w.taken ≠ [])) })
  let done := s2.reqs.list.filter (fun r => decide (r.stage = .program) && decide (r.applied < p.upTo) && ls.contains r.line)
  let s3 := done.foldl (fun t r =>
    (t.upBudget (fun b => { b with ackWrites := b.ackWrites + 1 })).answer r .complete) s2
  let acks := s3.yoke.ackWait.filter (fun a => ls.contains a.1 && decide (a.2.1 < p.upTo))
  let s4 := acks.foldl (fun t a => t.send a.2.2) s3
  s4.upYoke (fun y => { y with ackWait := y.ackWait.filter (fun a => !(ls.contains a.1 && decide (a.2.1 < p.upTo))) })

/-- A move's page has verified: it takes over what its source still holds (R210, R244); relocated and rebuilt pages are
counted (R197, R206). -/
def State.landMove (p : Pass) (src : Nat) (pg : Page) (s : State) : State :=
  let was := s.pageValid src
  let s1 := if pg.kind = 1 then
      if was then s.mapGrain pg.owner p.ppa pg.gen else s
    else if pg.kind = 3 then
      if was then s.upMap (fun m => { m with
        ckpt := { m.ckpt with extents := m.ckpt.extents.map (Extent.replace src p.ppa) }
        lapNext := { m.lapNext with extents := m.lapNext.extents.map (Extent.replace src p.ppa) }
        lapDue := true })
      else s
    else if pg.kind = 4 then
      if was then (s.upMap (fun m => { m with ckpt := { m.ckpt with root := p.ppa + 1 } })).save 8 else s
    else
      pg.liveSlots.foldl (fun t kv =>
        match t.overlayOf kv.2.line with
        | some o => if o.page = src then t.indexLine kv.2.line p.ppa kv.1 pg.gen else t
        | none => t) (s.journal (.logPage p.ppa))
  let s2 := if !was then s1
    else if p.act = .rekey then s1.upTabs (fun t => { t with
        rekeyed := t.rekeyed.filter (fun x => decide (s.clk.now < x + 10 * sec)) ++ [s.clk.now] })
    else if p.act = .rebuild then s1.upMedia (fun m => { m with rebuildMoved := m.rebuildMoved + 16384 })
    else if p.act = .relocation then
      (s1.upMedia (fun m => { m with relocations := m.relocations + 1 })).log 0x2212 1
    else s1
  s2.closeGroup (ppaGroup src)

/-- The page of a resync copy has verified (R343): the map entry switches, the lines' poison is the feeder's, copies that are
not Dirty go, reservations on the grain are cleared, and ResyncAck is sent. -/
def State.landResync (p : Pass) (pg : Page) (s : State) : State :=
  let g := pg.owner
  let ls := ((List.range 256).map (fun j => g * 256 + j)).filter (fun l => !s.isDirty l)
  let s1 := ls.foldl (fun t l => t.dropLine l) (s.mapGrain g p.ppa pg.gen)
  let s2 := ls.foldl (fun t l => if Tab.get false pg.poison (l % 256) then t.poison l else t.unpoison l) s1
  ((s2.endRes (fun r => decide (grainOf r.line = g)) 8).send { ty := 8, num := g }).upYoke (fun y => { y with
    sectors := Tab.erase y.sectors g
    sectorPoison := Tab.erase y.sectorPoison g
    sectorGot := Tab.erase y.sectorGot g })
/-- A writeback's page has verified (R164, R182, R210, R213). A line of a log page that finds no slot in the overlay index is not
appended: it returns to Dirty (R214). -/
def State.landWrite (p : Pass) (pg : Page) (s : State) : State :=
  if p.act = .resync then s.landResync p pg
  else if pg.kind = 1 then
    let newer : Bool := match s.page? (s.mapEntry pg.owner).page with
      | some q => !s.isMapped pg.owner || decide (q.gen < pg.gen)
      | none => true
    let ls := s.passLines p
    ((if newer then s.mapGrain pg.owner p.ppa pg.gen else s).releasePage p ls).upBudget (fun b => { b with
      rewrites := b.rewrites + 1 })
  else
    let s1 := pg.liveSlots.foldl (fun t kv => t.indexLine kv.2.line p.ppa kv.1 pg.gen) (s.journal (.logPage p.ppa))
    let stuck := (pg.liveSlots.map (fun kv => kv.2.line)).filter (fun l =>
      match s1.copyAt l with
      | some (q, _) => decide (q ≠ p.ppa) && (match s1.page? q with
        | some x => decide (x.gen < pg.gen)
        | none => true)
      | none => false)
    ((s1.returnLines stuck).releasePage p ((pg.liveSlots.map (fun kv => kv.2.line)).filter (fun l =>
      !stuck.contains l))).upBudget (fun b => { b with appended := b.appended + pg.slots.length })

/-- PAGE_VERIFY (R203): the page passes when every codeword converges with at most 40 corrected bits; then its lines are
released, journaled and mapped. A page that fails is handled by R204. In the Prepared state a copy does not switch (R533). -/
def execPageVerify (ppa corrected : Nat) (converged : Bool) (damaged lostPages : List Nat) (s : State) :
    Host.Outcome State Fault Refusal :=
  .next (match s.media.passes.find? (fun p => decide (p.ppa = ppa) && p.programmed &&
      !(s.still && decide (p.act ≠ .writeback))) with
    | none => s
    | some p =>
      match s.page? ppa with
      | none => s.endPass p
      | some pg =>
        if converged && decide (corrected ≤ 40) then
          let s1 := ((s.wakeChannel (ppaCh ppa)).upMedia (fun m => { m with
            pages := Tab.put m.pages ppa { pg with verified := true } })).endPass p
          let s2 :=
            if pg.kind = 0 ∨ (s.setOf ppa).isSome then s1
            else
              match p.src with
              | some q => s1.landMove p q pg
              | none => if 2 < pg.kind then s1 else s1.landWrite p pg
          ((s2.closing (ppaGroup ppa)).settle (ppaGroup ppa)).retireKeys.rekeyDone.noteLimits.checkDies.runLap
        else (s.wakeChannel (ppaCh ppa)).failPass p damaged lostPages)

/-! ## Close verify, resets (R199, R202 to R204, R246, R248, R249) -/

/-- Data pages of a group whose stripe has no XOR page (R199). -/
def State.bareStripes (s : State) (g : Nat) : List Nat :=
  (s.validPages g).filter (fun q =>
    match s.page? (groupPpa g (xorChannel (s.grp g) g (ppaPage q)) (ppaPage q)) with
    | some x => decide (x.kind ≠ 0)
    | none => true)
/-- A close-verify relocation is a strike against the page's block; at CloseVerifyStrikes the block leaves service at the
group's next reset (R248). -/
def State.strike (ppa : Nat) (s : State) : State :=
  let g := ppaGroup ppa
  let c := ppaCh ppa
  let x := Tab.get ({} : Group) s.media.groups g
  let n := Tab.get 0 x.strikes c + 1
  s.upMedia (fun m => { m with
    groups := Tab.set {} m.groups g { x with
      strikes := Tab.put x.strikes c n
      retireCols := if s.entry 0x2220 3 ≤ n ∧ c ∉ x.retireCols then x.retireCols ++ [c] else x.retireCols } })

/-- Every present column of a group has been read: the channels are awake (R36). -/
def State.wakeColumns (g : Nat) (s : State) : State := (presentCols (s.grp g)).foldl (fun t c => t.wakeChannel c) s
/-- CLOSE_VERIFY_DONE (R203, R204): each page that failed to converge is rebuilt and relocated, each with more than 64
corrected bits is relocated, with 2211h; the data of stripes without an XOR page is relocated (R199); then the group is
Closed. -/
def execCloseVerifyDone (group : Nat) (failed weak lostPages : List Nat) (s : State) : Host.Outcome State Fault Refusal :=
  let x := s.grp group
  .next (if x.st = .closing ∧ !s.still ∧ !x.checked ∧ !(s.media.passes.any (fun p => decide (ppaGroup p.ppa = group))) then
      let mine := ((failed ++ weak).filter (fun q => decide (ppaGroup q = group) && (s.page? q).isSome)).eraseDups
      let bad := mine.filter (fun q => failed.contains q)
      let gone := s.goneOf bad lostPages
      let move := (mine.filter (fun q => !gone.contains q)).filter s.pageValid
      let s1 := mine.foldl (fun t q => t.log 0x2211 q) s
      let s2 := (move.foldl (fun t q => t.strike q) s1).stripeLost gone
      let bare := ((s2.bareStripes group).filter (fun q => !mine.contains q)).eraseDups.filter s2.pageValid
      let s3 := s2.upMedia (fun m => { m with
        groups := Tab.set {} m.groups group { Tab.get ({} : Group) m.groups group with checked := true } })
      (((s3.wakeColumns group).queueMoves move .relocation 1).queueMoves bare .clearing 1 |>.closeGroup group).checkDies
    else s)

/-- The blocks of a reset group that leave service now (R202, R248): a first one leaves the group with an absent column, a
second one retires it. -/
def State.dropCols (g : Nat) (cols : List Nat) (s : State) : State :=
  cols.foldl (fun t c =>
    let x := t.grp g
    if x.absentCol = some c ∨ x.worse.contains c then t
    else
      let t1 := (t.log 0x2213 (g * 16 + c)).retireBlock g c
      match x.absentCol with
      | none => ((t1.setGroup g { x with
          absentCol := some c
          absentFrom := 0
          taken := x.taken + 1 }).takeReserve 1).freeChanged
      | some _ =>
        let t2 := t1.upMedia (fun m =>
          let y := Tab.get ({} : Group) m.groups g
          { m with groups := Tab.set {} m.groups g { y with worse := y.worse ++ [c] } })
        if x.st = .retired then t2 else t2.retireGroup g) s
/-- A group reset by the eraser counts down the secure discard that marked it (R268). -/
def State.erased (g : Nat) (s : State) : State :=
  s.upCmds (fun c => { c with
    jobs := c.jobs.map (fun kj =>
      if kj.1 ∈ eraseJobs ∧ kj.2.marked.contains g then (kj.1, { kj.2 with
        marked := kj.2.marked.filter (fun x => decide (x ≠ g))
        count := kj.2.count + 1 }) else kj) })

/-- A die of a group's reset is in a window, or suspended for reads: its reset has not ended (R131). -/
def State.resetHeld (s : State) (g : Nat) : Bool :=
  (presentCols (s.grp g)).any (fun c => match s.opOn (g / 4096 * 16 + c) with
    | some (_, o) => o.isReset && (o.inWindow || decide (o.serving ≠ []))
    | none => false)
/-- A Retired group is being reset for a secure discard (R268): it stays Retired. -/
def State.retiredReset (s : State) (g : Nat) : Bool :=
  decide ((s.grp g).st = .retired) && s.reg.granted.any (fun l => decide (l.id = resetId g))
/-- The die operations of a multi-plane reset and their leave end with its last group (R184, R437). -/
def State.endReset (g : Nat) (s : State) : State :=
  if (quadGroups (quadOf g)).any (fun h => decide (h ≠ g) && decide ((s.grp h).st = .resetting)) then s
  else
    let cols := presentCols (s.grp g)
    ((quadGroups (quadOf g)).foldl (fun t h => t.giveLeave (resetId h)) s).upMedia (fun m => { m with
      ops := m.ops.filter (fun kv => !(kv.2.isReset && decide (kv.2.die / 16 = g / 4096) && decide (2 ^ 43 ≤ kv.1)))
      tokens := m.tokens.filter (fun kv => decide (kv.1 ≠ g / 4096) || decide (kv.2 < 2 ^ 43))
      tokenQueue := m.tokenQueue.filter (fun k => decide (k < 2 ^ 43) || decide ((k - 2 ^ 43) / 16 ≠ g / 4096))
      lastOp := cols.foldl (fun t c => Tab.put t c s.clk.now) m.lastOp })
/-- BLOCK_RESET_DONE (R202): every present block of a Resetting group is reset, no die of it suspended or in a window any more (R131): the
erase count rises, the pages are gone, and the group is Free, with an absent column, or Retired. -/
def execBlockResetDone (group : Nat) (failedCols : List Nat) (s : State) : Host.Outcome State Fault Refusal :=
  let x := s.grp group
  .next (if (x.st = .resetting ∨ s.retiredReset group) ∧ !s.still ∧ !s.resetHeld group then
      let s1 := (s.endReset group).upMedia (fun m => { m with
        pages := m.pages.filter (fun kp => decide (ppaGroup kp.1 ≠ group)) })
      let s2 := s1.setGroup group { x with
        st := if x.st = .retired then .retired else .free
        cursor := 0
        copy := none
        checked := false
        absentFrom := 0
        erase := min (x.erase + 1) 0xFFFFFF
        retireCols := [] }
      let s3 := (s2.dropCols group (failedCols.filter (fun c => decide (c < 16)) ++ x.retireCols).eraseDups).erased group
      (s3.noteWear group).freeChanged.checkDies.runMoves
    else s)

/-! ## Failed dies (R205 to R207) -/

/-- DIE_FAILED (R205): the die at a position and channel is declared failed. Data of stripes of its row that are already
short, or of which another page (`lostPages`) cannot be read, is lost (R200, R207). -/
def execDieFailed (pos ch : Nat) (lostPages : List Nat) (s : State) : Host.Outcome State Fault Refusal :=
  .next (if pos < s.ident.variant.positions then
      if Tab.get 0 s.media.dieSt (pos * 16 + ch) = 0 then
        let mine := (s.media.pages.filter (fun kp => decide (ppaDie kp.1 = pos * 16 + ch))).map (fun kp => kp.1)
        (s.stripeLost (s.goneOf mine (lostPages.filter (fun q => decide (ppaPos q = pos))))).dieDown pos ch
      else s
    else s)

/-- Valid pages still to move in the current phase (R206): in phase 1 the failed die's grain and line-log pages, in phase 2 all the
position holds. -/
def State.rebuildPages (s : State) : List Nat :=
  (s.media.pages.filter (fun kp => (if s.media.rebuildPhase = 1 then
      decide (ppaDie kp.1 = s.media.rebuildDie) && decide (kp.2.kind ≤ 2)
    else decide (ppaPos kp.1 = s.media.rebuildDie / 16)) && s.pageValid kp.1)).map (fun kp => kp.1)
/-- Groups of a position with two columns absent are retired (R196, R249). -/
def State.retirePosition (pos : Nat) (s : State) : State :=
  (List.range 4096).foldl (fun t i =>
    let g := pos * 4096 + i
    let x := t.grp g
    if t.slotGroup g ∨ x.st = .retired then t
    else (t.upMedia (fun m => { m with groups := Tab.put m.groups g { x with taken := x.taken + 1 } })).retireGroup g) s
/-- Start phase 1 of the next failed die that waits. -/
def State.nextRebuild (s : State) : State :=
  match s.media.dieSt.find? (fun kv => decide (kv.2 = 1)) with
  | some (die, _) =>
    let t := s.upMedia (fun m => { m with
      rebuildPhase := 1
      rebuildDie := die
      rebuildMoved := 0 })
    t.queueMoves t.rebuildPages .rebuild 0
  | none => s.boundEnd 0
/-- REBUILD_PHASE_DONE (R206): when nothing of a phase is left to move, phase 1 leads to phase 2; when phase 2 ends, 2215h
is logged, the position's groups are reset and return with the column absent, and the bound's condition [0] ends. -/
def execRebuildPhaseDone (s : State) : Host.Outcome State Fault Refusal :=
  .next (if !s.fastOn ∨ s.still ∨ s.rebuildPages ≠ [] then s
    else if s.media.rebuildPhase = 1 then
      let t := s.upMedia (fun m => { m with
        rebuildPhase := 2
        dieSt := Tab.put m.dieSt m.rebuildDie 2 })
      t.queueMoves t.rebuildPages .rebuild 1
    else if s.media.rebuildPhase = 2 then
      let pos := s.media.rebuildDie / 16
      let twice := (s.deadColumn pos).isSome
      let t := (s.upMedia (fun m => { m with
        rebuildPhase := 0
        dieSt := Tab.put m.dieSt m.rebuildDie 3 })).log 0x2215 s.media.rebuildMoved
      let t1 := if twice then t.retirePosition pos
        else (t.media.groups.filter (fun kg => decide (kg.1 / 4096 = pos))).foldl (fun u kg =>
          let x := u.grp kg.1
          if x.second && decide (x.st ≠ .retired) then
            (u.upMedia (fun m => { m with groups := Tab.put m.groups kg.1 { x with taken := x.taken + 1 } })).retireGroup kg.1
          else if x.st ∈ [GSt.closed, .closing, .stale] then
            (u.setGroup kg.1 { x with
              st := .closed
              shadow := false }).settle kg.1
          else u) t
      t1.checkDies.nextRebuild
    else s)

end Sys2Proof.Machine
end

