-- ==== Sys2Proof/Machine/Laps.lean ====
section
/-!
DEFINITION. Checkpoint laps and the resident map: the rows that start and complete a lap, and the end of background paging (R209, R219 to R226, R247).
-/
namespace Sys2Proof.Machine

/-- Groups the allocation queue still offers (R220). -/
def State.queueLeft (s : State) : Nat :=
  4 * s.map.queue.length - (s.media.groups.filter (fun kg => decide (kg.2.st ≠ .free) && s.map.queue.contains (quadOf kg.1))).length

/-! ## Laps (R219 to R224) -/

/-- Several page generations at once (R193); the value is stored when a multiple of 2^20 has passed. -/
def State.takeGens (n : Nat) (s : State) : Nat × State :=
  let g := s.media.gen
  let t := s.upMedia (fun m => { m with gen := g + n })
  (g, if g / 2 ^ 20 < (g + n) / 2 ^ 20 then (t.upMedia (fun m => { m with
      genStored := (g + n) / 2 ^ 20 * 2 ^ 20 })).save 8 else t)
/-- A lap begins (R221): LapStart is written, whose Sequence is S0, and the units changed since their last copy and all block metadata
are to be copied as they stand at S0, with the directory and the root after them. It takes the number after that of the last completed
lap, so one after an interrupted lap takes its number again (DESIGN CHOICE, log entry 140). -/
def State.beginLap (s : State) : State :=
  let v := s.ident.variant
  let n := s.map.ckpt.lap + 1
  let s1 := s.journal (.lapStart n)
  let e : Extent :=
    { lap := n
      count := 0
      pages := []
      units := s.changedUnits
      allDiv := decide (s.map.ckpt.divAll ≠ s.map.divAll) }
  let snap : Ckpt :=
    { lap := n
      started := s1.clk.now
      entries := s1.map.entries
      overlay := s1.map.overlay
      poison := s1.map.poison
      divAll := s1.map.divAll
      div := s1.map.div
      groups := s1.media.groups
      queue := s1.allocQueue
      opened := (s1.media.groups.filter (fun kg => decide (kg.2.st = .opened))).map (fun kg => kg.1)
      genHigh := s1.media.gen
      root := 0
      seq := s.map.seq
      seqs := []
      extents := [{ e with count := e.copyPages v + (dirUnits v + 11) / 12 }] }
  (s1.upMap (fun m => { m with
    lapRunning := true
    lapDue := false
    lapStarted := s.clk.now
    lapNext := snap })).runLap
/-- The journal records from the LapStart of a lap on (R219). -/
def fromLap (n : Nat) : List JRec → List JRec
  | [] => []
  | .lapStart k :: t => if k = n then .lapStart k :: t else fromLap n t
  | _ :: t => fromLap n t
/-- The lap's directory and root are on media (R219, R221): LapEnd and the root's twin record are written, older records are free,
superseded copies are counted out of their groups, and the lap's queue feeds placement; the grain changes that waited for the journal go
on. A journal whose LapStart has been overwritten keeps all it has and stays cut (R217). -/
def State.finishLap (s : State) : State :=
  let n := s.map.lapNext.lap
  let all := s.map.ckpt.extents ++ s.map.lapNext.extents
  let live := liveExtents s.ident.variant all
  let s1 := (s.journal (.lapEnd n (s.map.lapNext.root - 1))).upMap (fun m =>
    let left := fromLap n m.journal
    { m with
    lapRunning := false
    ckpt := { m.lapNext with
      extents := live
      seqs := s.lapSeqs m.lapNext }
    lapNext := {}
    queue := m.lapNext.queue
    journal := if left.isEmpty then m.journal else left
    journalCut := m.journalCut && left.isEmpty })
  let s2 := s1.upMap (fun m => { m with journalHigh := m.journalHigh && decide (402653184 ≤ s1.journalBytes) })
  let touched := (s2.media.groups.filter (fun kg => decide (kg.2.kind ∈ [GKind.checkpoint, .directory]))).map (fun kg => kg.1)
  (((touched.foldl (fun t g => t.settle g) s2).save 8).noteLimits).goOn

/-- A trigger of R220 other than the 10 minutes holds: record counts, PrepareShutdown, a short queue. -/
def State.lapTriggered (s : State) : Bool :=
  s.map.lapDue || decide (12582912 ≤ s.map.journal.length) || decide (s.queueLeft < 256) ||
    decide (524288 ≤ (s.map.journal.filter (fun r => match r with
      | .logPage _ => true
      | _ => false)).length)
/-- LAP_START (R220, R221): the lap begins; the 10-minute trigger moves the time to its deadline. It waits while the lap before it
runs and before the map is resident (R226); its pages wait while nothing may be opened. -/
def execLapStart (s : State) : Host.Outcome State Fault Refusal :=
  .next (if !s.mastersRun || s.still || s.map.lapRunning || !s.map.resident then s
    else
      (if s.lapTriggered then s else s.elapseTo (s.map.lapStarted + 600 * sec)).beginLap)
/-- Every page of the running lap has verified, its root the last (R221). -/
def State.lapWritten (s : State) : Bool :=
  s.map.lapRunning && decide (s.map.lapNext.root ≠ 0) && !(s.media.passes.any (fun p => decide (p.act = .lap)))
/-- LAP_COMPLETE (R221): the root page has verified, and the lap is in force. Till then the lap's pages go on. -/
def execLapComplete (s : State) : Host.Outcome State Fault Refusal :=
  .next (if !s.map.lapRunning || s.still then s
    else if s.lapWritten then s.finishLap.checkDies.runMoves
    else s.runLap)

/-! ## Paging ends (R226) -/

/-- The valid counts are known again: Closed groups with nothing valid become Stale (R202, R226). -/
def State.settleClosed (s : State) : State :=
  (s.media.groups.filter (fun kg => decide (kg.2.st = .closed))).foldl (fun t kg => t.settle kg.1) s
/-- MAP_RESIDENT (R226): background paging, which starts at Memory_Active, has loaded every unit: the overlay filters are rebuilt, the
bound's condition [5] ends, 221Ah is logged, and media care starts: the strainer with a new lap, skimming by its levels, a rebuild in its
phase (R206, R232). -/
def execMapResident (s : State) : Host.Outcome State Fault Refusal :=
  .next (if !s.fastOn || s.map.resident || !s.pwr.memoryActive then s
    else
      let s1 := s.upMap (fun m => { m with
        resident := true
        paged := []
        filterOnes := []
        filter := (m.entries.filter (fun kv => kv.2.logged)).foldl (fun t kv =>
          (List.range 4).foldl (fun u i => Tab.put u (kv.1 * 4 + i) true) t) [] })
      let ready := s1.slices.misses.filter (fun m => m.pageIn)
      let s2 := ready.foldl (fun t m => t.pagedIn m) s1
      let s3 := (s2.boundEnd 5).log 0x221A ((s.clk.now - s.pwr.activeAt) / 1000000)
      let s4 := (((s3.settleClosed).upCare (fun c => { c with
        lapStart := s.clk.now
        dramLapStart := s.clk.now })).askStrain).freeChanged
      if s4.media.rebuildPhase = 0 then s4.tabs.rekeying.foldl (fun t r => t.rekeyRun r) s4.runMoves
      else (s4.tabs.rekeying.foldl (fun t r => t.rekeyRun r) s4).queueMoves s4.rebuildPages .rebuild (if s4.media.rebuildPhase = 1 then 0 else 1))

end Sys2Proof.Machine
end

