-- ==== Sys2Proof/Machine/Care.lean ====
section
/-!
DEFINITION. The media-care rows: skimming and its copy sets, repour, the ripening table's updates, what the strainer and
the scrub pass find, and the drops reported in Brine mode (R238 to R245, R253 to R263, R271).
-/
namespace Sys2Proof.Machine

/-! ## Victims (R238, R239, R254) -/

/-- A group is due for repour (R254): its ripeness class, its soft-decode rate, or a step-4 soft decode. -/
def State.repourDue (s : State) (g : Nat) : Bool :=
  let x := s.grp g
  decide (x.st = .closed) && (decide (s.entry 0x2210 1 ≤ s.ripeClass x.programTime) ||
    (decide (s.entry 0x2210 2 ≤ x.softs) && decide (s.entry 0x2210 3 * x.reads ≤ x.softs * 1000000)) || x.deep)
/-- A group is the source or a target of a running copy. -/
def State.copying (s : State) (g : Nat) : Bool :=
  s.care.copySets.any (fun k => decide (k.victim = g)) || (s.grp g).copy.isSome
/-- f of R239. -/
def State.validParts (s : State) (g : Nat) : Nat := s.validLines g * 1024 / s.groupCap g
/-- The score of a candidate victim (R239). -/
def State.skimScore (s : State) (g : Nat) : Nat :=
  let x := s.grp g
  let v := 1024 - s.validParts g
  let r := s.ripeClass x.programTime * 1024 / 23
  let w := 1024 - min x.erase 20000 * 1024 / 20000
  (s.entry 0x2200 1 * v + s.entry 0x2200 2 * r + s.entry 0x2200 3 * w) / 256
    + (if x.kind = .log ∧ !s.logLimits.isEmpty then s.entry 0x2200 5 else 0)
    + (if s.repourDue g then s.entry 0x2200 6 else 0)
/-- Closed groups that may be victims (R239). -/
def State.skimCandidates (s : State) : List Nat :=
  ((s.media.groups.filter (fun kg => decide (kg.2.st = .closed) && decide (kg.2.kind ∉ [GKind.checkpoint, .directory]) && !s.copying kg.1 &&
    (decide (s.validParts kg.1 ≤ s.entry 0x2200 4 * 1024 / 100) || s.repourDue kg.1)))).map (fun kg => kg.1)
/-- The best of a list of candidates: the highest score, ties to the lower group number. -/
def State.bestVictim (s : State) (gs : List Nat) : Option Nat :=
  gs.foldl (fun b g =>
    match b with
    | none => some g
    | some x => if s.skimScore x < s.skimScore g ∨ (s.skimScore x = s.skimScore g ∧ g < x) then some g else b) none
/-- The copy of a group with a step-4 soft decode has started: 2224h (R254). -/
def State.noteDeep (g : Nat) (deep : Bool) (s : State) : State :=
  if deep && s.care.copySets.any (fun k => decide (k.victim = g)) then s.log 0x2224 g else s
/-- SKIM_VICTIM_SELECT (R238, R239): below the start level the best victim's valid data starts to move; near the line-log
limits log groups are folded at the highest priority (R215, R232); a victim with a step-4 soft decode is one for repour too (R254, R271).
Its leave rises to the highest priority below SkimUrgent. -/
def execSkimVictimSelect (s : State) : Host.Outcome State Fault Refusal :=
  .next (if !s.mastersRun || s.still || !s.map.resident then s
    else
      let s1 := s.skimLevel
      let fold := !s1.logLimits.isEmpty
      let cand := s1.skimCandidates.filter (fun g => decide (s1.care.skim ≠ 0) || decide ((s1.grp g).kind = .log))
      if (s1.care.skim = 0 ∧ !fold) ∨ 4 ≤ s1.streamCount then s1.checkBrine
      else
        match s1.bestVictim cand with
        | none => s1.checkBrine
        | some g =>
          let folding := fold && decide ((s1.grp g).kind = .log)
          ((s1.startSet g (if folding then .folding else .skimming) (if folding || (s1.grp g).deep then 0 else 1)).noteDeep g
            (s1.grp g).deep).checkBrine)

/-- IDLE_SKIM_START (R238): after 100 ms without a host request, the best victim whose valid fraction is at most
IdleCeiling is skimmed at the lowest priority. -/
def execIdleSkimStart (s : State) : Host.Outcome State Fault Refusal :=
  .next (if !s.mastersRun || s.still || !s.map.resident || decide (s.entry 0x2200 11 = 0) || !s.reqs.list.isEmpty then s
    else
      let s1 := s.elapseTo (s.port.lastHostReq + 100000000)
      let cand := s1.skimCandidates.filter (fun g =>
        decide (s1.validLines g * 100 ≤ s1.entry 0x2200 11 * s1.groupCap g))
      if 4 ≤ s1.streamCount then s1
      else
        match s1.bestVictim cand with
        | none => s1
        | some g =>
          ((s1.upCare (fun c => { c with skim := if c.skim = 0 then 3 else c.skim })).startSet g .skimming
            (if (s1.grp g).deep then 0 else 2)).noteDeep g (s1.grp g).deep)

/-! ## The switch of a copy set (R243 to R245) -/

/-- A copy set's pages and XOR pages have all verified. -/
def State.setVerified (s : State) (k : CopySet) : Bool :=
  !(s.media.passes.any (fun p => decide ((s.grp (ppaGroup p.ppa)).copy = some k.victim)))
/-- Switch the source mappings that still name the source (R244). -/
def State.switchSet (k : CopySet) (s : State) : State :=
  let s1 := k.pages.foldl (fun t p =>
    match t.page? p.2 with
    | none => t
    | some pg => if t.mapEntry pg.owner = { t.mapEntry pg.owner with
        st := .mapped
        page := p.1 } then t.mapGrain pg.owner p.2 pg.gen else t) s
  let s2 := ((k.logs.map (fun l => l.2.2)).eraseDups).foldl (fun t d => t.journal (.logPage d)) s1
  k.logs.foldl (fun t l =>
    match t.overlayOf l.1, t.page? l.2.2 with
    | some o, some pg =>
      if o.page = l.2.1 then
        match pg.slots.find? (fun kv => decide (kv.2.line = l.1)) with
        | some (slot, _) => t.indexLine l.1 l.2.2 slot pg.gen
        | none => t
      else t
    | _, _ => t) s2
/-- The victim's last valid data has moved (R245): it is Stale, counted, for repour too when it was due (R271), and its stream's leave
returns; its target groups take other pages again. -/
def State.victimDone (k : CopySet) (due : Bool) (s : State) : State :=
  let s1 := s.upMedia (fun m => { m with
    groups := m.groups.map (fun kg => if kg.2.copy = some k.victim then (kg.1, { kg.2 with copy := none }) else kg) })
  let s2 := s1.upCare (fun c => { c with
    skimmed := if k.act = .repour then c.skimmed else c.skimmed + 1
    repoured := if due then c.repoured + 1 else c.repoured })
  (s2.giveLeave (streamId k.victim)).settle k.victim
/-- COPY_SET_SWITCH (R243, R533): once every page of the set has verified its mappings switch together, and the victim's next
set starts or it becomes Stale; a target block found to fail, at the page `bad`, has its column absent and the set redone (R204, R248). No
mapping changes while the journal is full (R219). -/
def execCopySetSwitch (victim : Nat) (bad : Option Nat) (s : State) : Host.Outcome State Fault Refusal :=
  .next (match s.care.copySets.find? (fun k => decide (k.victim = victim)) with
    | none => s
    | some k =>
      if s.still || s.journalFull || !s.setVerified k then s
      else
        match bad.filter (fun q => decide ((s.grp (ppaGroup q)).copy = some victim)) with
        | some q => (((s.columnAbsent (ppaGroup q) (ppaCh q) (ppaPage q)).cancelAbsent (ppaGroup q)).redoSet k (ppaGroup q)).checkDies
        | none =>
        let s1 := ((s.switchSet k).upCare (fun c => { c with
          copySets := c.copySets.filter (fun x => decide (x.victim ≠ victim)) })).count 58 4 1
        let s2 := if (s1.validPages victim).isEmpty then s1.victimDone k (decide (k.act = .repour) || s.repourDue victim) else s1.startSet victim k.act k.prio
        ((s2.retireKeys.rekeyDone.noteLimits).checkBrine).checkDies)

/-- REPOUR_START (R254, R271): a group with a step-4 soft decode is repoured at the highest priority with 2224h; the others
due by descending ripeness class, then group number, and not while skimming is urgent. -/
def execRepourStart (s : State) : Host.Outcome State Fault Refusal :=
  .next (if !s.mastersRun || s.still || !s.map.resident || decide (4 ≤ s.streamCount) then s
    else
      let due := (s.media.groups.filter (fun kg => s.repourDue kg.1 && !s.copying kg.1)).map (fun kg => kg.1)
      match due.find? (fun g => (s.grp g).deep) with
      | some g => (s.startSet g .repour 0).noteDeep g true
      | none =>
        if s.care.skim = 2 then s
        else
          match due.foldl (fun (b : Option Nat) g =>
              match b with
              | none => some g
              | some x => if s.ripeClass (s.grp x).programTime < s.ripeClass (s.grp g).programTime then some g else b)
              none with
          | some g => s.startSet g .repour 1
          | none => s)

/-! ## The ripening table (R253) -/

/-- The new offset of one boundary: the mean of the samples less the offset, scaled by LearnGain, within LearnLimit. -/
def learn (gain limit : Nat) (old : Int) (samples : List Int) : Int :=
  let n : Int := samples.length
  let d := (gain * (samples.foldl (· + ·) 0 - n * old)).fdiv (256 * n)
  max (-(limit : Int)) (min limit (old + d))
/-- RIPENING_CELL_UPDATE (R253): a cell with LearnMinSamples gathered is averaged and updated as a whole, at most once in
10 s, and its twin record is written; while LearnEnable is 00h the table stays as it is. -/
def execRipeningCellUpdate (pkg cls band : Nat) (s : State) : Host.Outcome State Fault Refusal :=
  let key := cellKey pkg cls band
  .next (match Tab.look s.care.cells key with
    | none => s
    | some c =>
      if s.entry 0x2210 6 = 0 ∨ c.gathered.length < s.entry 0x2210 7 ∨ c.gathered = [] then s
      else
        let s1 := match c.lastNow with
          | some t => s.elapseTo (t + 10 * sec)
          | none => s
        let old := s1.offsetsOf key
        let new := (List.range 15).map (fun k =>
          learn (s1.entry 0x2210 8) (s1.entry 0x2210 9) (old.getD k 0) (c.gathered.map (fun m => m.getD k 0)))
        (s1.upCare (fun x => { x with
          cells := Tab.put x.cells key { c with
            offsets := new
            gathered := []
            lastUpdate := s1.clk.stamp
            lastNow := some s1.clk.now } })).save 32)

/-! ## The strainer and the scrub pass (R256 to R261) -/

/-- A host read, writeback, skim or repour operation is queued for a channel (R256). -/
def State.channelBusy (s : State) (ch : Nat) : Bool :=
  !(s.hostWaits ch).isEmpty || s.media.passes.any (fun p => decide (ppaCh p.ppa = ch) && !p.programmed &&
    decide (p.act ∈ [Act.writeback, .skimming, .folding, .repour]))
/-- The grain a scrub pass comes to with a codeword (R260): the lowest one of its span, at or after the place it has reached, that
the codeword holds valid lines of; unmapped grains and grains under an enabled window range are skipped. -/
def State.scrubGrain (s : State) (ppa codeword : Nat) : Option Nat :=
  let j := Tab.get ({} : Job) s.cmds.jobs 0x9020
  let on : List Nat := match s.page? ppa with
    | none => []
    | some p =>
      if p.kind = 1 then (if s.pageValid ppa then [p.owner] else [])
      else ((s.liveOn ppa).filter (fun (o : OvSlot) => decide (o.slot / 28 = codeword))).map (fun (o : OvSlot) => grainOf o.line)
  (on.filter (fun g => decide (j.base + s.val 0x9020 5 ≤ g * 16384) && decide (g * 16384 < j.base + j.length) && s.isMapped g &&
    !s.underWindow g)).head?
/-- Codewords a scrub pass reads for a grain: those of its page and the log codewords with its live lines (R260). -/
def State.scrubWords (s : State) (g : Nat) : Nat :=
  8 + ((s.loggedLines g).map (fun o => o.page * 8 + o.slot / 28)).eraseDups.length
/-- A scrub pass goes on to an address, at most 40 GB/s: Progress, and the grains passed with their codewords are counted; their lines that
are poisoned already enter the Scan Media results (R260, R261). -/
def State.scrubTo (addr : Nat) (s : State) : State :=
  let j := Tab.get ({} : Job) s.cmds.jobs 0x9020
  let gs := (s.map.entries.filter (fun kv => decide (kv.2.st = .mapped) && decide (j.base + s.val 0x9020 5 ≤ kv.1 * 16384) &&
    decide (kv.1 * 16384 < addr) && !s.underWindow kv.1)).map (fun kv => kv.1)
  let found := (s.map.poison.filter (fun kv => kv.2 && gs.contains (grainOf kv.1) && (s.copyAt kv.1).isSome &&
    !s.mbox.scanResults.contains kv.1)).map (fun kv => kv.1)
  ((((s.tally 1 (fun n => n + gs.length)).tally 2 (fun n => n + (gs.map s.scrubWords).foldl (· + ·) 0)).setVal 0x9020 5
    (addr - j.base)).upMbox (fun m => { m with scanResults := m.scanResults ++ found })).elapseTo (j.since + (addr - j.base) / 40)
/-- The codeword is the strainer's or the scrub pass's to read: the strainer reads every page of every Closed group in ascending
group number, in cycles in which its channel is idle (R256); a pass goes through its span in ascending address order (R260). -/
def State.mayCheck (s : State) (ppa codeword : Nat) : Bool :=
  s.checks && s.innerTurn (ppaCh ppa) &&
    (if s.scrubs then (s.scrubGrain ppa codeword).isSome
     else (s.page? ppa).isSome && decide ((s.grp (ppaGroup ppa)).st = .closed) &&
      (decide (s.care.lapPage = 0) || decide (ppaGroup (s.care.lapPage - 1) ≤ ppaGroup ppa)) && !s.channelBusy (ppaCh ppa))
/-- The bytes of Closed groups a media lap has read with a page: those of all groups below its own, and of its own up to it (R256). -/
def State.strained (s : State) (ppa : Nat) : Nat :=
  16384 * (s.media.pages.filter (fun kp => decide ((s.grp (ppaGroup kp.1)).st = .closed) &&
    (decide (ppaGroup kp.1 < ppaGroup ppa) || (decide (ppaGroup kp.1 = ppaGroup ppa) && decide (kp.1 ≤ ppa))))).length
/-- The place the strainer's lap or the scrub pass has reached with a codeword; the strainer reads at most Pace MB/s (R256). -/
def State.checkAt (ppa codeword : Nat) (s : State) : State :=
  if s.scrubs then
    match s.scrubGrain ppa codeword with
    | some g => s.scrubTo (g * 16384)
    | none => s
  else (s.upCare (fun c => { c with lapPage := ppa + 1 })).elapseTo (s.care.lapStart + s.strained ppa * 1000 / max 1 (s.entry 0x2240 2))

/-- No Closed group lies above the last page the lap has read. -/
def State.lapRead (s : State) : Bool :=
  s.media.groups.all (fun kg => decide ((s.grp kg.1).st ≠ .closed) ||
    (decide (s.care.lapPage ≠ 0) && decide (kg.1 ≤ ppaGroup (s.care.lapPage - 1))))
/-- STRAINER_LAP_END (R256): the highest group is read: the lap's time is recorded, 2225h is logged and the next lap
starts. -/
def execStrainerLapEnd (s : State) : Host.Outcome State Fault Refusal :=
  .next (if s.strains && s.checks && s.lapRead then
      let t := (s.clk.now - s.care.lapStart) / sec
      (s.upCare (fun c => { c with
        lapNumber := c.lapNumber + 1
        lapTime := t
        lapStart := s.clk.now
        lapPage := 0 })).log 0x2225 t
    else s)

/-- What a sweep of the DRAM finds through the DRAM controller's check, at the places of some lines: each error is treated as R380 and R396
give for its region (R257, R259). Other checks are none of the sweep's. -/
def State.sweepDram (errors : List (Nat × CacheFault)) (s : State) : State :=
  errors.foldl (fun t x =>
    if !t.fastOn then t
    else
      match x.2 with
      | .tierLine => t.checkFault x.2 6 x.1
      | .tierCrc => t.checkFault x.2 6 x.1
      | .tagOne => t.checkFault x.2 6 x.1
      | .tagBoth => t.checkFault x.2 6 x.1
      | .tables => t.checkFault x.2 6 x.1
      | .journal => t.checkFault x.2 6 x.1
      | .shadow _ => t.checkFault x.2 6 x.1
      | .corrected _ => t.checkFault x.2 6 x.1
      | _ => t) s
/-- The bursts a sweep corrects. -/
def sweptBursts (errors : List (Nat × CacheFault)) : Nat :=
  (errors.filter (fun x => match x.2 with
    | .corrected _ => true
    | _ => false)).length
/-- STRAINER_DRAM_LAP_END (R257): the sweep of the DRAM data capacity completes a lap, at 1 GB/s; the errors it has found are treated. -/
def execStrainerDramLapEnd (errors : List (Nat × CacheFault)) (s : State) : Host.Outcome State Fault Refusal :=
  .next (if s.strains && s.checks then
      let t := s.elapseTo (s.care.dramLapStart + s.ident.variant.dramBytes)
      (t.upCare (fun c => { c with
        dramLaps := c.dramLaps + 1
        dramLapTime := (t.clk.now - c.dramLapStart) / sec
        dramLapStart := t.clk.now })).sweepDram errors
    else s)

/-- A page a finding condemns is relocated (R258). -/
def State.condemn (ppa : Nat) (s : State) : State :=
  let fresh := s.pageValid ppa && !s.moving ppa && !(s.media.relocQueue.any (fun r => decide (r.1 = ppa)))
  let t := s.queueMoves [ppa] .relocation 1
  if s.scrubs && fresh then t.tally 7 (fun n => n + 1) else t
/-- What a finding adds to the summary of a scrub pass (R261): the bits corrected, the soft decodes, the reconstruction. -/
def State.scrubTally (f : Finding) (s : State) : State :=
  let bits := match f with
    | .converged c => c
    | .soft _ c _ => c
    | .failed _ _ => 0
  if s.scrubs then
    (((s.tally 3 (fun n => n + bits)).tally 4 (fun n => max n bits)).tally 5 (fun n => n + (findingSamples f).length)).tally 6
      (fun n => if findingRebuilt f then n + 1 else n)
  else s
/-- The page of a finding is relocated (R258): more than RelocateBits corrected bits, or a hard decode that failed. -/
def State.condemns (s : State) : Finding → Bool
  | .converged c => decide ((if s.scrubs then 48 else s.entry 0x2240 3) < c)
  | .soft _ _ _ => true
  | .failed _ _ => true
/-- STRAINER_FINDING (R258, R260): what the strainer or the scrub pass finds in a codeword, which it judges without decryption: it is
counted, and its page is relocated beyond RelocateBits or a failed hard decode; the lines that are lost are those the relocation's own
reads then find so. The read wakes its channel (R36), and host reads take the die bus before it (R431). -/
def execStrainerFinding (ppa codeword : Nat) (f : Finding) (s : State) : Host.Outcome State Fault Refusal :=
  .next (if s.mayCheck ppa codeword then
      let s1 := ((s.checkAt ppa codeword).climb ppa f).scrubTally f
      if s.condemns f then s1.condemn ppa else s1
    else s)

/-! ## Brine drops (R263) -/

/-- BRINE_DROP_REPORT (R263): the writes dropped in the last second are reported by 222Dh, at most once a second. -/
def execBrineDropReport (s : State) : Host.Outcome State Fault Refusal :=
  .next (if s.care.brineSecond = 0 then s
    else
      let s1 := s.elapseTo (s.care.lastBrineReport + sec)
      (s1.upCare (fun c => { c with
        brineSecond := 0
        lastBrineReport := s1.clk.now })).log 0x222D s.care.brineSecond)

end Sys2Proof.Machine
end

