-- ==== Sys2Proof/Machine/Durability.lean ====
section
/-!
DEFINITION. The hold-up bank and the derived budget, arming, the close of a Firkin period, the power-loss dump, what the
module loses when its fast domains stop, and the start of the fast domains (R33, R39, R155 to R159, R165 to R178, R414,
R487, R488, R512 to R514, R529 to R533, R552 to R554, R565).
-/
namespace Sys2Proof.Machine

/-! ## The bank and DerivedBudget (R155 to R159, R552) -/

/-- Capacitance of the strings in service, µF. -/
def State.bankCap (s : State) : Nat :=
  (if s.bank.stA = 0 then s.bank.capA else 0) + (if s.bank.stB = 0 then s.bank.capB else 0)
/-- The voltage the bank's energy counts with: the charge voltage, or what a charging bank has reached (log entry 19). -/
def State.bankVolts (s : State) : Nat := if s.bank.charger = 0 then s.bank.charge else min s.bank.charge s.bank.volts
/-- HoldUpEnergy in mJ (R552): 0 on a bank fault (R159). -/
def State.bankEnergy (s : State) : Nat :=
  if s.bank.faulty then 0 else s.bankCap * (s.bankVolts ^ 2 - 144000000) / 2000000000
/-- The rule of R155 for an energy in mJ and a margin in percent, in exact arithmetic. -/
def derive (v : Variant) (energy margin most : Nat) : Nat :=
  let p : Int := v.dumpPower
  let avail : Int := (energy : Int) * (100 - margin) - 4 * p
  let steps : Int := (4 * 31300 * avail - 2 * p * 107374).fdiv (p * 107374)
  min most (256 * steps.toNat)
/-- A reset dump slot is available (R165). -/
def State.slotReady (s : State) : Bool := !s.dump.busy0 || !s.dump.busy1
/-- R158: the module is unarmed below 512 MiB, with DirtyBudgetMax 0 or without a slot (2002h), and arms again at 1 GiB
with a slot ready (2003h). -/
def State.armCheck (s : State) : State :=
  if s.pwr.armed then
    if s.budget.derived < 512 || decide (s.entry 0x2010 1 = 0) || !s.slotReady then
      (s.upPwr (fun p => { p with
        armed := false
        arm := if p.arm = 1 then 0 else p.arm })).log 0x2002 s.budget.energy
    else s
  else if 1024 ≤ s.budget.derived ∧ s.slotReady then
    (s.upPwr (fun p => { p with
      armed := true
      arm := if p.arm = 0 then 1 else p.arm })).log 0x2003 s.budget.derived
  else s
/-- Recompute DerivedBudget (R155, R157): 2001h when it falls 256 MiB or more below the reference. -/
def State.rederive (s : State) : State :=
  let e := s.bankEnergy
  let b := derive s.ident.variant e (s.entry 0x2010 2) (s.entry 0x2010 1)
  let s1 := s.upBudget (fun x => { x with
    energy := e
    ePerGib := s.ident.variant.dumpPower * 107374 / 3130000
    derived := b })
  let s2 := match s.budget.reference with
    | none => s1.upBudget (fun x => { x with reference := some b })
    | some r =>
      if r < b then s1.upBudget (fun x => { x with reference := some b })
      else if b + 256 ≤ r then (s1.upBudget (fun x => { x with reference := some b })).log 0x2001 b
      else s1
  s2.armCheck
/-- The bank is open, shorted or not measurable (R159): the uncovered marker is set for the lines charged, then 2004h is
logged, and their energy is 0. -/
def State.bankFault (why : Nat) (s : State) : State :=
  if s.bank.faulty then s
  else
    let ls := s.budget.charged.map (fun kv => kv.1)
    let s1 := (s.upBank (fun b => { b with faulty := true })).upBudget (fun b => { b with
      uncovered := 64 * ls.length
      uncoveredLines := ls })
    ((s1.save 8).log 0x2004 why).rederive

/-! ## The close of a Firkin period (R512 to R514) -/

/-- Seconds the open period has lasted. -/
def State.firkinAge (s : State) : Nat := (s.clk.now - s.firkin.startNow) / sec
/-- Close the period: the seven records go to the round area in kind order, and to the keep area while it has room. -/
def State.closePeriod (shortened : Bool) (s : State) : State :=
  let flags := (if shortened then 4 else 0) + (if s.firkin.frozen ∧ s.entry 0x7000 1 ≤ s.firkinAge then 2 else 0)
  let dur := min 65535 s.firkinAge
  let one := fun (f : Firkin) (k : Nat) =>
    let o := Tab.get {} f.opened k
    let r : FirkRec := { o with
      kind := k
      flags := flags + o.flags % 2
      duration := dur
      period := f.period
      start := f.startStamp }
    let n := Tab.get 0 f.keep k
    { f with
      older := let keep' := fun (p : Nat) (t : Tab FirkRec) => Tab.put t p (Tab.get ({} : FirkRec) f.area p)
               let a := keep' (448 + f.roundNext) f.older
               if n < 64 then keep' (64 * (k - 1) + n) a else a
      area := let at' := fun (p : Nat) (t : Tab FirkRec) =>
                Tab.put t p { r with writes := (Tab.get ({} : FirkRec) f.area p).writes + 1 }
              let a := at' (448 + f.roundNext) f.area
              if n < 64 then at' (64 * (k - 1) + n) a else a
      roundNext := (f.roundNext + 1) % 512
      keep := if n < 64 then Tab.put f.keep k (n + 1) else f.keep }
  let kept := ((List.range 7).filter (fun i => decide (Tab.get 0 s.firkin.keep (i + 1) < 64))).length
  (s.upFirkin (fun f => { ((List.range 7).foldl (fun g i => one g (i + 1)) f) with
    opened := []
    period := f.period + 1
    startNow := s.clk.now
    startStamp := s.clk.stamp
    frozen := false })).count 60 6 (8 * (7 + kept) + 8)
/-- The fast domains stop: the open period ends with them. -/
def State.stopFirkin (s : State) : State :=
  if s.firkin.running then (s.closePeriod true).upFirkin (fun f => { f with running := false }) else s
/-- The fast domains start: a period starts, unless one runs on through a controller reset (R512). -/
def State.startFirkin (s : State) : State :=
  if s.firkin.running then s
  else s.upFirkin (fun f => { f with
    running := true
    opened := []
    startNow := s.clk.now
    startStamp := s.clk.stamp })

/-! ## The fast domains off (R33, R39) -/

/-- What a stop of the fast domains loses: both caches and the tables of DRAM. The map is what media and the image hold,
and counts that run from the last cold reset start again (R39). -/
def State.fastOff (s : State) : State :=
  let s1 := (s.clearVolatile.fromCkpt).upMap (fun m => { m with
    journal := []
    journalHigh := false
    limitLogged := 0 })
  let s2 := ((s1.upFc (fun _ => {})).upTier (fun _ => {})).upSlices (fun _ => {})
  let s3 := s2.upBudget (fun b => { b with
    charged := []
    derived := 0
    reference := none
    energy := 0
    uncoveredLines := []
    running := []
    queued := []
    heldLogged := []
    rewrites := 0
    appended := 0
    merges := 0
    mergesPoisoned := 0
    ackWrites := 0 })
  let s4 := ((s3.upGills (fun _ => {})).upRstats (fun _ => {})).upTherm (fun t => { t with
    steps := []
    below := []
    railBad := [] })
  let s5 := (s4.upReg (fun g => { g with
    missCount := []
    missSecond := []
    admitted := []
    overShare := []
    delayed := 0
    peakPower := 0 })).upPort (fun p => { ({} : Port) with out := p.out })
  let s6 := (s5.upDram (fun _ => {})).upAtom (fun a => { a with
    reads := 0
    writes := 0
    stored := 0
    intervened := 0
    conflict := 0
    lost := 0
    other := 0 })
  let s7 := (s6.upYoke (fun y => { y.dropWork with
    speed := 0
    width := 0
    credits := []
    unacked := []
    owed := []
    rxPart := []
    txSeq := 0
    rxSeq := 0
    peerMarked := 0
    sent := []
    copied := 0
    frameReplays := 0
    mirrored := 0
    ackWait := [] })).upCare (fun c => { c with
      skim := 0
      lapNumber := 0
      lapTime := 0
      lapPage := 0
      dramLaps := 0
      dramLapTime := 0 })
  let s8 := ((s7.upMbox (fun m => { m with
    doorbell := []
    pages := []
    background := 0
    clearing := [] })).upObs (fun o => { o with
    lost := 0
    nextSeq := 0
    notes := []
    notifyOut := []
    resends := 0
    lastSix := none })).upCmds (fun c => { c with
      ctl := []
      jobs := []
      sweep := c.sweep })
  ((((s8.upReqs (fun q => { q with list := [] })).upBank (fun b => { b with
    stA := 0
    stB := 0
    faulty := false
    measured := false })).upMedia (fun m => { m with relocations := 0, relocQueue := [] })).upDict (fun d => { d with
    eids := Tab.erase d.eids 1 })).upTap (fun _ => {})

/-- The keeper loses its last supply (R565): the timestamp is stored and the clocks stop; the I3C address goes (R460), and with it
the endpoint IDs (log entry 42). -/
def State.keeperOff (s : State) : State :=
  if s.keeperOn then s
  else (s.upClk (fun c => { c with
    stored := c.stamp
    stampSet := false })).upDict (fun d => { d with
      i3c := 0
      eids := [] })
/-- The keeper gets its first supply: both times resume from the stored timestamp (R565). -/
def State.keeperStart (s : State) : State :=
  s.upClk (fun c => { c with
    stamp := c.stored
    ripe := max c.ripe c.stored
    stampSet := false })

/-! ## Cold start (R414, R449, R488, R529 to R533) -/

/-- The keeper starts verifying the slot that is to run, unless CriticalLatch holds it (R449, R535, R537). -/
def State.beginVerify (s : State) : State :=
  if s.pwr.critLatch then s.upPwr (fun p => { p with boot := .held })
  else
    (s.upFw (fun f => { f with active := f.pending })).upPwr (fun p => { p with
      boot := .verifying s.fw.pending false
      controllerStart := false })
/-- A cold reset begins with main power: everything a cold reset clears is clear, and verification starts. The module starts unarmed
(R158) with no 2002h: DESIGN CHOICE, the spec does not say whether that start enters the mode with its event (log entry 145). -/
def State.coldReset (s : State) : State :=
  ((s.fastOff.upKeys (fun k => { k with changes := [] })).upPwr (fun p => { p with
    upAt := s.clk.now
    own := []
    memoryActive := false
    armed := false
    arm := 0
    mainReturned := false
    dumped := false
    holdUp := false
    selfRefresh := false
    rebuilt := true
    restored := false
    test := 0 })).beginVerify

/-- The images not retired, the one to replay first: the complete one with the highest number, else the highest (R175,
R178). -/
def State.imageToReplay (s : State) : Option Image :=
  let l := s.dump.images.filter (fun i => !i.retired)
  let top := fun (xs : List Image) => xs.foldl (fun (b : Option Image) i =>
    match b with
    | none => some i
    | some x => if x.number < i.number then some i else b) none
  match top (l.filter (fun i => i.sealed)) with
  | some i => some i
  | none => top l

/-- A sensor that works reads too hot to start the fast domains: less than 10 °C below critical (R449). -/
def State.tooHot (s : State) : Bool :=
  s.therm.readings.any (fun kv =>
    let p := s.ident.variant.packages
    let crit := if kv.1 < p then 88 else if kv.1 < p + 8 then 115 else if kv.1 < p + 24 then 95 else 1000
    !((Tab.look s.therm.faults kv.1).isSome) && decide (27315 + 100 * crit - 1000 < kv.2))

/-- The DRAM channels train at a cold reset (R379): from stored parameters, in full where they fail the pattern check or
StoredTraining is 00h, after which the new parameters are stored; 2106h names those. -/
def State.trainDram (bad : BitVec 8) (s : State) : State :=
  let all := decide (s.entryInForce 0x2130 5 = 0) || !s.pwr.dramTrained
  let full : BitVec 8 := if all then 255 else bad
  let warm := fun (ch : Nat) => if (Tab.look s.therm.faults ch).isSome then 0 else Tab.get 0 s.therm.readings ch
  let s1 := (s.upDram (fun d => { d with
    trainMs := if full = 0 then 40 else 300
    trainSource := full
    trainTemp := (List.range 8).foldl (fun t c =>
      Tab.put t c (max (warm (s.ident.variant.packages + 8 + 2 * c)) (warm (s.ident.variant.packages + 9 + 2 * c)))) [] })).upPwr (fun p =>
        { p with dramTrained := true })
  let s2 := if full = 0 then s1 else s1.save 8
  if bad = 0 then s2 else s2.log 0x2106 full.toNat

/-- Values with Commit Power-up take effect (R17). -/
def State.applyPowerUp (s : State) : State := s.upDict (fun d => { d with inForce := d.cfg })
/-- A commit marker found Logged is carried out again (R475): 1204h. -/
def State.replayCommit (s : State) : State :=
  match s.dict.logged with
  | none => s
  | some (n, recs) =>
    (recs.foldl (fun t r => t.upDict (fun d => { d with cfg := Tab.put d.cfg (r.index * 256 + r.sub) (leNat r.value) })) s).upDict
      (fun d => { d with
        logged := none
        lastBatch := n }) |>.log 0x1204 n

/-- The map at a cold start: with no image, the lap, after the header check of R533; else the lap and the image's journal,
or a rebuild from page headers when journal pages are missing (R175, R178, R225, R227). -/
def State.restoreMap (s : State) : State :=
  let s1 := match s.imageToReplay with
    | none =>
      let first := (s.map.ckpt.queue.head?.map quadGroups).getD []
      let newer := s.media.pages.any (fun kp => kp.2.verified && decide (s.map.ckpt.genHigh ≤ kp.2.gen) &&
        (s.map.ckpt.opened.contains (ppaGroup kp.1) || first.contains (ppaGroup kp.1)))
      if s.pwr.lapLost || s.map.journalCut || newer then s.rebuildMap else s.fromCkpt
    | some i =>
      if i.short || s.pwr.lapLost || s.map.journalCut then s.rebuildMap
      else (s.replayJournal i.journal).upMap (fun m => { m with
        journal := i.journal
        seq := i.seq })
  ((s1.mapCold.closeOpen).boundStart).upPwr (fun p => { p with lapLost := false })

/-- Records of some lines: a pending line takes two (R168). -/
def recordCount (ls : List (Nat × DRec)) : Nat := (ls.map (fun x => if x.2.pending then 2 else 1)).foldl (· + ·) 0
/-- The lines whose records lie wholly in the first n records. -/
def withinRecords (n : Nat) : List (Nat × DRec) → List (Nat × DRec)
  | [] => []
  | x :: t =>
    let k := if x.2.pending then 2 else 1
    if k ≤ n then x :: withinRecords (n - k) t else []
/-- Journal pages of an image: 16,320 bytes of records a page, 1,020 of them (R169). -/
def Image.journalPages (i : Image) : Nat := (i.journal.length + 1019) / 1020
/-- Line-record pages: 220 records a page (R169). -/
def Image.linePages (i : Image) : Nat := (recordCount i.lines + 219) / 220
/-- An incomplete dump found at a replay (R159, R178): 5031h each time with the journal and line-record pages replayed, the counts
once per image, and in a pair every grain marked. DESIGN CHOICE: the seal page, which holds nothing to replay, is not among the pages
replayed of 5031h (log entry 145). -/
def State.noteIncomplete (i : Option Image) (s : State) : State :=
  let pages := match i with
    | some x => x.good
    | none => 0
  let counted := match i with
    | some x => x.counted
    | none => false
  let s1 := s.upPwr (fun p => { p with
    own := p.own ++ [(0x5031, pages)]
    dirtyShutdowns := if counted then p.dirtyShutdowns else p.dirtyShutdowns + 1 })
  let s2 := if counted then s1 else s1.upBudget (fun b => { b with incomplete := b.incomplete + 1 })
  let s3 := s2.upDump (fun d => { d with
    images := d.images.map (fun x =>
    if some x.number = i.map (fun y => y.number) then { x with counted := true } else x) })
  if s.yoke.record.peerSerial = 0 then s3 else s3.damaged.markAll

/-- What the restart after a power loss reports and restores before the domains run: 5030h is logged whenever an image is found, with
the figure of LastDumpBytes, and 5031h beside it when the dump is incomplete (R176, R178). DESIGN CHOICE: the spec does not say
that an incomplete dump logs 5030h as well (log entry 118). -/
def State.restoreImage (s : State) : State :=
  let i := s.imageToReplay
  let s1 := match i with
    | some _ => s.upPwr (fun p => { p with
        arm := 4
        restored := true
        own := p.own ++ [(0x5030, s.budget.lastBytes)] })
    | none => s
  let s2 := match s.pwr.critZone with
    | some z => s1.upPwr (fun p => { p with
        own := p.own ++ [(0x2027, z)]
        critZone := none })
    | none => s1
  let bad := decide (s.budget.uncovered ≠ 0) || (match i with
    | some x => !x.sealed || decide (x.uncovered ≠ 0)
    | none => false)
  let s3 := s2.restoreMap
  let s4 := if bad then s3.noteIncomplete i else s3
  s4.upBudget (fun b => { b with uncovered := 0 })

/-! ## Lines of an image -/

/-- A line's record in an image (R148, R168, R170): its newest content, merged when the base is in the tier, pending with its
mask when the base is only on media; poisoned when the line is, or when its check fails in the dump (R174). -/
def State.dumpRec (line : Nat) (fcBad dramBad : List Nat) (s : State) : DRec :=
  let cause := if fcBad.contains line && (s.fcLine? line).isSome then 1 else if dramBad.contains line then 2 else 0
  let waits := s.isMerging line && (s.tierLine? line).isNone
  let whole := match s.fcLine? line, s.tierLine? line with
    | some x, some base => if x.st = FcSt.merging then mergeBytes (s.baseBytes line base) x.data x.mask else x.data
    | _, _ => s.current line
  let (d, m) := if waits then
      match s.fcLine? line with
      | some x => (x.data, x.mask)
      | none =>
        match s.sector? (sectorOf line) with
        | some x => (Tab.get 0 x.data (line % 32), Tab.get 0 x.masks (line % 32))
        | none => (whole, 0)
    else (whole, 0)
  { data := d
    mask := m
    pending := waits
    poisoned := s.poisoned line || decide (cause ≠ 0)
    cause := cause }
/-- The lines an image carries, in its order (R168): the Dirty and Merging lines of the front cache, then those of the tier that
the front cache does not hold; in program-acknowledged mode those still charged (R174); never one the uncovered marker counts,
which the power loss loses (R159, R178). -/
def State.dumpLines (s : State) : List Nat :=
  let front := (s.fc.lines.filter (fun kx => decide (kx.2.st ≠ FcSt.unmodified))).map (fun kx => kx.1)
  let below := (s.tier.sectors.map (fun kx => (kx.2.st.filter (fun e => decide (e.2 ≠ TSt.clean))).map (fun e =>
    kx.1 * 32 + e.1))).foldl (· ++ ·) []
  (front ++ below.filter (fun l => !front.contains l)).filter (fun l =>
    !s.budget.uncoveredLines.contains l && (s.pwr.armed || s.isCharged l))

/-! ## Images -/

/-- Pages of an image with its seal, parity pages apart (R168). -/
def Image.pages (i : Image) : Nat := i.journalPages + i.linePages + 1
/-- Groups an image of some pages takes in one-bit mode: stripes of 15 data pages and an XOR page, 1,024 stripes a group (R165). -/
def imageGroups (pages : Nat) : Nat := ((pages + 14) / 15 + 1023) / 1024
/-- The groups of a dump slot, in the order of their places (log entry 17). -/
def State.slotGroupsOf (s : State) (k : Nat) : List Nat :=
  let n := s.ident.variant.slotGroups / 2
  (List.range n).map (fun i => s.slotAt (k * n + i))
/-- The first `count` Free groups at or after `start`, looking at no more than `fuel` (R166, log entry 119). -/
def State.freeFrom (s : State) : Nat → Nat → Nat → List Nat
  | 0, _, _ => []
  | _ + 1, _, 0 => []
  | fuel + 1, start, count + 1 =>
    if (s.grp start).st = .free then start :: s.freeFrom fuel (start + 1) count
    else s.freeFrom fuel (start + 1) (count + 1)
/-- The image of the module's journal and lines, in the slot that is ready or else in groups of the floor (R166, R168). -/
def State.makeImage (fcBad dramBad : List Nat) (s : State) : Image :=
  let place := if !s.dump.busy0 then 0 else if !s.dump.busy1 then 1 else 2
  let i : Image :=
    { number := s.dump.next
      place := place
      groups := []
      started := s.clk.stamp
      energy := s.dump.bankAtStart
      gen := s.media.gen
      sealed := false
      journal := s.map.journal
      seq := s.map.seq
      lines := s.dumpLines.map (fun l => (l, s.dumpRec l fcBad dramBad))
      uncovered := s.budget.uncovered
      retired := false
      counted := false
      short := false
      good := 0 }
  { i with
    good := i.pages - 1
    groups := if place = 2 then s.freeFrom s.ident.variant.groups 0 (imageGroups i.pages) else s.slotGroupsOf place }
/-- The stripe of an image that lies in its k-th group at a page: stripes go round the groups of a quarter of 16, four die positions
of four planes (R165, log entry 17). -/
def Image.stripeAt (i : Image) (k page : Nat) : Nat := k / 16 * 16384 + page * min 16 (i.groups.length - k / 16 * 16) + k % 16
/-- What is left of an image whose writing stopped after n pages (R173, R178). -/
def Image.cut (i : Image) (n : Nat) : Image :=
  { i with
    journal := i.journal.take (1020 * n)
    short := i.short || decide (n < i.journalPages)
    good := if n < i.journalPages then 0 else min n (i.pages - 1)
    lines := withinRecords (220 * (n - i.journalPages)) i.lines }
/-- A page of an image is missing: it does not read good, and another page of its stripe, the parity page (number `pages` + stripe)
among them, does not either (R171). The seal follows the parity pages, which do not cover it (R168). -/
def Image.missing (i : Image) (bad : List Nat) (n : Nat) : Bool :=
  bad.contains n && (bad.any (fun m => decide (m ≠ n) && decide (m + 1 < i.pages) && decide (m / 15 = n / 15)) ||
    bad.contains (i.pages + n / 15))
/-- The lines of the line-record pages that are not missing: a record with its mask needs both their pages. -/
def keepLines (gone : Nat → Bool) : Nat → List (Nat × DRec) → List (Nat × DRec)
  | _, [] => []
  | n, x :: t =>
    let last := if x.2.pending then n + 1 else n
    if gone (n / 220) || gone (last / 220) then keepLines gone (last + 1) t else x :: keepLines gone (last + 1) t
/-- An image as a restart reads it, given the pages that do not read good (R171, R175, R178): complete when its seal reads good and
no page it counts is missing; what missing line-record pages held is not replayed, and with a journal page missing no journal page is:
the map is rebuilt from the page headers. -/
def Image.read (i : Image) (bad : List Nat) : Image :=
  let gone := i.missing bad
  let lostJournal := (List.range i.journalPages).find? gone
  { i with
    sealed := i.sealed && !bad.contains (i.pages - 1) && (List.range (i.pages - 1)).all (fun n => !gone n)
    good := ((List.range (i.pages - 1)).filter (fun n => !gone n && (lostJournal.isNone || decide (i.journalPages ≤ n)))).length
    short := i.short || lostJournal.isSome
    lines := keepLines (fun p => gone (i.journalPages + p)) 0 i.lines }
/-- The images as a restart reads them: `bad` names the pages that do not read good, by image number and page. -/
def State.readImages (bad : List (Nat × Nat)) (s : State) : State :=
  if bad.isEmpty then s
  else s.upDump (fun d => { d with
    images := d.images.map (fun i => i.read ((bad.filter (fun b => decide (b.1 = i.number))).map (fun b => b.2))) })
/-- What the seal page holds (R171). -/
structure Seal where
  pages : Nat
  lines : Nat
  journalBytes : Nat
  energy : Nat
deriving DecidableEq, Repr
/-- The figures in an image's seal (R171). -/
def Image.sealOf (i : Image) : Seal := ⟨i.pages, i.lines.length, 16 * i.journal.length, i.energy⟩

/-! ## The start of the fast domains -/

/-- The fast domains start (R414, R512, R519, R531): at a cold start DRAM trains, tables and the map are restored, and a
commit caught by the reset is carried out; the reset's own events come first. -/
def State.startFast (slot : Nat) (trainFail : BitVec 8) (badPages : List (Nat × Nat)) (s : State) : State :=
  let cold := !s.pwr.controllerStart
  let s1 := s.upFw (fun f => { f with current := slot })
  let s2 := if cold then ((s1.applyPowerUp.resumeGen.readImages badPages).restoreImage).upFc (fun c => { c with enabled := decide (s1.entry 0x2100 1 = 1) })
    else (if s.fw.current = slot then s1 else s1.measure 1).boundStart
  let s3 := s2.upPwr (fun p => { p with boot := .running })
  let s4 := (s3.startPail s3.pwr.own).upPwr (fun p => { p with own := [] })
  let s5 := if cold then (s4.trainDram trainFail).startGills else s4
  (((s5.replayCommit).startFirkin).restartMember cold).upKeys (fun k => { k with attest := 0 })

/-! ## The dump (R165 to R174, R449) -/

/-- Stop what a dump stops at once (R172, R330): the module stands down, ports stop, requests are discarded, leave is
withdrawn and programs are abandoned. -/
def State.stopForDump (s : State) : State :=
  let s1 := s.standDown.dropRequests.dropMisses
  let s2 := s1.abandonPrograms.clearAtomics
  (s2.linkDown.upYoke (fun y => { y with
    speed := 0
    width := 0 })).upPwr (fun p => { p with memoryActive := false })
/-- A dump starts on the bank or, for a critical shutdown, on main. -/
def State.startDump (onMain : Bool) (s : State) : State :=
  let s1 := s.stopForDump
  (s1.upPwr (fun p => { p with
    arm := 5
    holdUp := !onMain })).upDump (fun d => { d with
      startedAt := s.clk.now
      bankAtStart := s.budget.energy
      onMain := onMain
      writing := none }) |>.upBudget (fun b => { b with dumps := b.dumps + 1 })
/-- The fast domains stop without an image: a clean shutdown (R39, R173, R180), or a stop before an image is retired,
which is restored from again (R174). -/
def State.cleanStop (s : State) : State :=
  let s1 := s.stopForDump.stopFirkin.fastOff
  s1.upPwr (fun p => { p with
    boot := .off
    arm := 0
    armed := false
    holdUp := false })
/-- Test state ends: the content of DRAM is discarded, and the module runs the power-up from the 1,905 ms row (R539). -/
def State.testEnd (s : State) : State :=
  let t := s.stopForDump.stopFirkin.fastOff
  let u := (t.upKeys (fun k => { k with changes := [] })).upPwr (fun p => { p with
    arm := 0
    armed := false
    test := 0
    rebuilt := true
    restored := false
    controllerStart := false
    upAt := s.clk.now
    own := [] })
  u.startFast s.fw.current 0 []
/-- The power-protected memory holds content: the fast domains run, or wait for the verification of a controller reset
(R39, log entry 45). -/
def State.holdsContent (s : State) : Bool :=
  s.fastOn || s.pwr.controllerStart && (match s.pwr.boot with
    | .verifying _ _ => true
    | .recovery => true
    | _ => false)
/-- Main power is gone from the module (R172 to R174, R535): prepared, a clean stop; restoring or covering, a stop that
leaves the image to be restored again; serving, a dump; a dump on main goes over to the bank; during the verification of a
power-up nothing changed. -/
def State.losePower (s : State) : State :=
  if s.pwr.arm = 5 then
    (s.upPwr (fun p => { p with
      holdUp := true
      mainReturned := false })).upDump (fun d => { d with onMain := false })
  else if !s.holdsContent then
    (s.upPwr (fun p => { p with boot := .off })).keeperOff
  else if s.pwr.arm ∈ [2, 3, 4] then s.cleanStop.keeperOff
  else s.startDump false

/-- Store an image in its place. -/
def State.storeImage (i : Image) (s : State) : State :=
  s.upDump (fun d => { d with
    images := d.images ++ [i]
    next := i.number + 1
    writing := none
    busy0 := d.busy0 || decide (i.place = 0)
    busy1 := d.busy1 || decide (i.place = 1)
    floorBusy := d.floorBusy || decide (i.place = 2) })
/-- The module after a dump: every domain but the keeper is off, CriticalLatch set after a critical shutdown (R172,
R449). With main back, a cold reset follows (R174). -/
def State.afterDump (s : State) : State :=
  let latch := s.pwr.critZone.isSome
  let s1 := (s.fastOff).upPwr (fun p => { p with
    boot := .off
    arm := 0
    armed := false
    dumped := true
    selfRefresh := true
    critLatch := p.critLatch || latch })
  if s1.mainOn && (s.pwr.mainReturned || latch) then s1.coldReset else s1

end Sys2Proof.Machine
end

