-- ==== Sys2Proof/Machine/PowerReset.lean ====
section
/-!
DEFINITION. The power-up, dump and reset rows (R29, R39, R44 to R49, R71, R82, R172 to R178, R398, R414, R415, R449, R460,
R529 to R535, R547, R548, R565).
-/
namespace Sys2Proof.Machine

/-! ## Parameter memory at a power-up (R407, R488) -/

/-- The parameter of 8002h: area × 2^24 + the offset of copy A; the spec places only the Firkin's records (R514). -/
def twinParam (area rec : Nat) : Nat :=
  area * 2 ^ 24 + (if area = 5 then 128 * rec else Config.twinOffset area rec % 2 ^ 24)
/-- The area and record number of a lost twin record (R484). -/
def twinPlace : TwinLoss → Nat × Nat
  | .config i k => (1, i * 256 + k)
  | .range r => (1, 0x2400 * 256 + r)
  | .partner n => (1, 0x3000 * 256 + n)
  | .key id => (2, id)
  | .cell p c b => (3, cellKey p c b)
  | .counter k => (4, 1024 + k)
  | .securityCounter => (4, 1)
  | .membership => (4, 2)
  | .commitMarker => (4, 3)
  | .lapRoot => (4, 4)
  | .pageGeneration => (4, 5)
  | .dose p => (4, 256 + p)
  | .criticalLatch => (4, 6)
  | .dramTraining => (4, 7)
  | .password a k => (4, 512 + 2 * a + k)
  | .firkin p => (5, p)
  | .conflict a r => (a, r)
/-- A counter kept since manufacture is 0 again (R182, R269, R278, R488): 0 Dumps, 1 IncompleteDumps, 2 LastDumpBytes, 3
BrineWritesDropped, 4 SkimmedGroups, 5 SkimCopiedBytes, 6 FoldedGrains, 7 RepouredGroups, 8 CopySetsRedone, 9 KeysDiscarded,
10 the next ImageNumber (R169). -/
def State.dropCounter (k : Nat) (s : State) : State :=
  if k = 0 then s.upBudget (fun b => { b with dumps := 0 })
  else if k = 1 then s.upBudget (fun b => { b with incomplete := 0 })
  else if k = 2 then s.upBudget (fun b => { b with lastBytes := 0 })
  else if k = 3 then s.upCare (fun c => { c with brineDropped := 0 })
  else if k = 4 then s.upCare (fun c => { c with skimmed := 0 })
  else if k = 5 then s.upCare (fun c => { c with skimBytes := 0 })
  else if k = 6 then s.upCare (fun c => { c with folded := 0 })
  else if k = 7 then s.upCare (fun c => { c with repoured := 0 })
  else if k = 8 then s.upCare (fun c => { c with redone := 0 })
  else if k = 9 then s.upKeys (fun x => { x with discarded := 0 })
  else if k = 10 then s.upDump (fun d => { d with next := 1 })
  else s
/-- The Firkin's control record, rebuilt from the records of area 5 (R514): the next PeriodNumber is one above the highest found, the
round area goes on after the last record of that period, and each kind has as many records kept as its last position says (DEDUCED, log
entry 161). -/
def State.rebuildFirkin (s : State) : State :=
  let recs := s.firkin.area.filter (fun kv => decide (kv.1 < 960) && decide (kv.2.kind ≠ 0))
  let top := (recs.map (fun kv => kv.2.period)).foldl max 0
  let last := (recs.filter (fun kv => decide (448 ≤ kv.1) && decide (kv.2.period = top))).foldl (fun (b : Nat × Nat) kv =>
    if b.2 < kv.2.kind then (kv.1 - 448, kv.2.kind) else b) (0, 0)
  s.upFirkin (fun f => { f with
    period := if recs.isEmpty then 0 else top + 1
    roundNext := if last.2 = 0 then 0 else (last.1 + 8 - last.2) % 512
    keep := (List.range 7).foldl (fun t k =>
      Tab.set 0 t (k + 1) (((recs.filter (fun kv => decide (kv.1 / 64 = k))).map (fun kv => kv.1 % 64 + 1)).foldl max 0)) [] })
/-- The fallback value of a lost record (R488). -/
def State.fallback (l : TwinLoss) (s : State) : State :=
  match l with
  | .config i k => s.upDict (fun d => { d with cfg := Tab.erase d.cfg (i * 256 + k) })
  | .range r => s.upTabs (fun t => { t with ranges := Tab.erase t.ranges r })
  | .partner n => s.upTabs (fun t => { t with
      partners := match Tab.look t.partners n with
        | some p => Tab.put t.partners n { p with valid := false }
        | none => t.partners })
  | .key id => s.upKeys (fun k => { k with
      recs := match Tab.look k.recs id with
        | some r => Tab.put k.recs id { r with lost := true }
        | none => k.recs })
  | .cell p c b => s.upCare (fun x => { x with
      cells := match Tab.look x.cells (cellKey p c b) with
        | some y => Tab.put x.cells (cellKey p c b) { y with offsets := [] }
        | none => x.cells })
  | .counter k => s.dropCounter k
  | .securityCounter => s.upFw (fun f => { f with counter := max f.slot0.security f.slot1.security })
  | .membership => s.upYoke (fun y => { y with
      record := { y.record with
        lastRole := 3
        staleSelf := true } })
  | .commitMarker => s.upDict (fun d => { d with logged := none })
  | .lapRoot => s.upPwr (fun p => { p with lapLost := true })
  | .pageGeneration => s.upMedia (fun m => { m with genStored := s.map.ckpt.genHigh + 2 ^ 40 })
  | .dose p => s.upCare (fun c => { c with
      doses := Tab.set 0 c.doses p (((c.doses.filter (fun kv => decide (kv.1 ≠ p))).map (fun kv => kv.2)).foldl max 0) })
  | .criticalLatch => s.upPwr (fun p => { p with critLatch := true })
  | .dramTraining => s.upPwr (fun p => { p with dramTrained := false })
  | .password a k => s.upDict (fun d => { d with dead := d.dead ++ [2 * a + k] })
  | .firkin p => s.upFirkin (fun f => { f with area := Tab.erase f.area p })
  | .conflict _ _ => s
/-- A lost record: its fallback with 8002h; a key keeps its state as Lost, with 4003h (R407); a Firkin record reads as zeros, and the
control record is rebuilt (R514). A record whose copies carry one Sequence and different payloads is in force from copy A, with 8001h
(R487); which payload copy A then holds is what the model holds (DESIGN CHOICE, log entry 160). -/
def State.loseTwin (l : TwinLoss) (s : State) : State :=
  match l with
  | .key id => if (s.keyRec id).st = 0 then s else (s.fallback l).log 0x4003 id
  | .firkin p => (if p = 960 then s.rebuildFirkin else s.fallback (.firkin p)).log 0x8002 (twinParam 5 p)
  | .conflict a r => s.log 0x8001 (twinParam a r)
  | _ => ((s.fallback l).count 60 6 4).log 0x8002 (twinParam (twinPlace l).1 (twinPlace l).2)

/-! ## Power-up -/

/-- Main power has arrived at the module when it had none: the time it counts from, and a return during a dump (R174, R183). -/
def State.noteMain (had : Bool) (s : State) : State :=
  if s.mainOn && !had then s.upPwr (fun p => { p with
    mainAt := s.clk.now
    mainReturned := p.mainReturned || decide (p.arm = 5) })
  else s
/-- POWER_UP (R531): supplies become valid. A keeper that had none starts and finds the records it has lost; main power at
a module whose fast domains are off begins a cold reset. -/
def execPowerUp (main aux : Bool) (lost : List TwinLoss) (s : State) : Host.Outcome State Fault Refusal :=
  let was := s.keeperOn
  let hadMain := s.mainOn
  let s1 := s.upPwr (fun p => { p with
    main := p.main || main
    aux := p.aux || aux
    ovp := if main then false else p.ovp
    mainLostAt := if main then none else p.mainLostAt }) |>.noteMain hadMain
  let s2 := if was || !s1.keeperOn then s1 else lost.foldl (fun t l => t.loseTwin l) s1.keeperStart
  .next (if s2.mainOn && !hadMain && decide (s2.pwr.arm ≠ 5) then s2.coldReset else s2)

/-- The image header of a firmware slot. -/
def State.fwSlot (s : State) (k : Nat) : FwSlot := if k = 0 then s.fw.slot0 else s.fw.slot1
/-- Why a slot is rejected (R414): 1 magic or header, 2 key, 3 signature, 4 digest, 5 security version; 0 accepted. -/
def State.fwReason (s : State) (k : Nat) (v : FwVerdict) : Nat :=
  if !v.magicOk then 1 else if !v.keyOk then 2 else if !v.sigOk then 3 else if !v.digestOk then 4
  else if (s.fwSlot k).security < s.fw.counter ∨ 255 < (s.fwSlot k).security then 5 else 0
/-- FIRMWARE_VERIFY_DONE (R414): the slot is accepted and the fast domains start; or 4031h and the other slot is tried;
or, both rejected, recovery with 4032h. A module too hot holds before its fast domains (R449). -/
def execFirmwareVerifyDone (v : FwVerdict) (trainFail : BitVec 8) (badPages : List (Nat × Nat)) (s : State) : Host.Outcome State Fault Refusal :=
  .next (match s.pwr.boot with
    | .verifying slot second =>
      let why := s.fwReason slot v
      if why = 0 then
        if s.tooHot && !s.pwr.controllerStart then s.upPwr (fun p => { p with boot := .held })
        else s.startFast slot trainFail badPages
      else
        let s1 := s.log 0x4031 (slot * 256 + why)
        if second then (s1.log 0x4032 0).upPwr (fun p => { p with boot := .recovery })
        else s1.upPwr (fun p => { p with boot := .verifying (1 - slot) true })
    | _ => s)

/-- Place one line record (R175): Dirty and charged, a pending record as Merging, a poisoned one as poisoned with the event
its cause calls for, a record whose CRC fails as a poisoned line with 2202h. DESIGN CHOICE: a line whose tier set has no room goes
into the front cache; the spec does not say where it goes (log entry 146). -/
def State.placeRec (bad : List Nat) (line : Nat) (r : DRec) (s : State) : State :=
  let s1 := match s.tierWrite line r.data (if r.pending then TSt.merging else TSt.dirty) r.mask with
    | some t => t
    | none =>
      let t := (s.fcAlloc line (if r.pending then FcSt.merging else FcSt.modified) r.data r.mask).2
      if r.pending then t.startBase line else t
  let s2 := s1.upBudget (fun b => { b with charged := Tab.put b.charged line s.clk.now })
  if bad.contains line then (s2.poison line).log 0x2202 (line * 64)
  else if r.poisoned then
    let s3 := s2.poison line
    if r.cause = 1 then s3.log 0x2109 (line * 64) else if r.cause = 2 then s3.log 0x2101 (line * 64) else s3
  else s2
/-- DUMP_REPLAY_DONE (R175): every line record of the image is placed in the tier, charged whatever DerivedBudget is, and
the module is Covering. -/
def execDumpReplayDone (badLines : List Nat) (s : State) : Host.Outcome State Fault Refusal :=
  .next (if s.fastOn ∧ s.pwr.arm = 4 then
      match s.imageToReplay with
      | none => s.upPwr (fun p => { p with arm := s.armCode })
      | some i =>
        (i.lines.foldl (fun t kv => t.placeRec badLines kv.1 kv.2) s).upPwr (fun p => { p with arm := 2 })
    else s)
/-- IMAGE_RETIRE (R176): Covering ends once DirtyBytes is within DerivedBudget; the image is retired. -/
def execImageRetire (s : State) : Host.Outcome State Fault Refusal :=
  .next (if s.pwr.arm = 2 ∧ s.dirtyBytes ≤ s.budgetBytes then
      (s.upPwr (fun p => { p with arm := s.armCode })).upDump (fun d => { d with
        images := d.images.map (fun i => if i.retired then i else { i with retired := true }) })
    else s)
/-- A slot's group whose erase count has reached RetireCycles leaves the slot: it is Free, and the first Free group of the allocation
queue takes its place (R165, R202, R248, log entry 17); the first group to reach it logs 2229h (R249). -/
def State.moveSlot (g : Nat) (s : State) : State :=
  if (Tab.get ({} : Group) s.media.groups g).erase < s.entry 0x2220 2 then s
  else
    let s0 := s.noteWear g
    match (List.range s.ident.variant.slotGroups).find? (fun k => decide (s.slotAt k = g)),
        ((s.map.queue.map quadGroups).foldl (· ++ ·) []).find? (fun x => decide ((s.grp x).st = .free)) with
    | some k, some h => ((((s0.upDump (fun d => { d with moved := Tab.put d.moved k h })).journal (.groupState g .free none 0)).journal
        (.groupState h .slot none 0)).upMedia (fun m => { m with
          groups := Tab.put m.groups g { Tab.get ({} : Group) m.groups g with st := .free } })).freeChanged
    | _, _ => s0
/-- RETIRED_IMAGE_RESET (R166, R177, R202, R409): a retired image's blocks are reset: its slot is ready again, or its groups are back in
the floor, under a fresh dump data key; its groups' erase counts rise, and arming is looked at again (R158). A slot keeps its groups,
which are assigned to it again as soon as they are Free, but one that has reached RetireCycles (log entry 17). -/
def execRetiredImageReset (number : Nat) (s : State) : Host.Outcome State Fault Refusal :=
  .next (match s.dump.images.find? (fun i => decide (i.number = number) && i.retired) with
    | none => s
    | some i =>
      let s1 := s.upDump (fun d => { d with
        images := d.images.filter (fun x => decide (x.number ≠ number))
        busy0 := d.busy0 && decide (i.place ≠ 0)
        busy1 := d.busy1 && decide (i.place ≠ 1)
        floorBusy := d.floorBusy && decide (i.place ≠ 2) })
      let s2 := (i.groups.foldl (fun t g => t.upMedia (fun m =>
            { m with
              groups := Tab.put m.groups g { Tab.get ({} : Group) m.groups g with
                erase := min ((Tab.get ({} : Group) m.groups g).erase + 1) 0xFFFFFF } })) s1).upKeys (fun k => { k with
              dumpKeyGen := Tab.put k.dumpKeyGen i.place (Tab.get 0 k.dumpKeyGen i.place + 1) })
      let s3 := if s2.fastOn then i.groups.foldl (fun t g => t.moveSlot g) s2 else s2
      if s3.fastOn then s3.armCheck else s3)

/-- The conditions of R529, and the link with CXL (R44); a module whose record names a peer and whose LastRole is not Sole waits
for a handshake or ForceSole, also when it runs as a single module (R314). -/
def State.readyToServe (s : State) : Bool :=
  s.fastOn && !s.pwr.critLatch && decide (s.port.attach ≠ 0) && decide (s.pwr.arm ≠ 4) && decide (s.pwr.arm ≠ 2) &&
    decide (s.pwr.arm ≠ 5) && decide (s.dirtyBytes ≤ s.budgetBytes) && servingSt s.yoke.member && decide (s.pwr.test = 0) &&
    !(decide (s.yoke.member = 0) && decide (s.yoke.record.peerSerial ≠ 0) && decide (s.yoke.record.lastRole ≠ 1))
/-- The security counter follows an image that has booted and serves (R415): 4033h. -/
def State.advanceSecurity (s : State) : State :=
  let v := (s.fwSlot s.fw.current).security
  if s.fw.counter < v ∧ v ≤ 255 then
    (((s.upFw (fun f => { f with counter := v })).save 1).measure 2).log 0x4033 v
  else s
/-- MEMORY_ACTIVE_SET (R529): once every condition holds the port accepts CXL.mem: 2218h after a map rebuild, 5032h after a
restore (R176), and the security counter advances. -/
def execMemoryActiveSet (s : State) : Host.Outcome State Fault Refusal :=
  .next (if s.pwr.memoryActive || !s.readyToServe then s
    else
      let ms := (s.clk.now - s.pwr.upAt) / 1000000
      let s1 := s.upPwr (fun p => { p with
        memoryActive := true
        selfRefresh := false
        activeAt := s.clk.now
        rebuilt := false
        restored := false })
      let s2 := if s.pwr.rebuilt then s1.log 0x2218 ms else s1
      let s3 := if s.pwr.restored then s2.log 0x5032 ((s.clk.now - s.pwr.mainAt) / 1000000) else s2
      s3.advanceSecurity)

/-! ## Power loss and the dump -/

/-- POWER_LOSS_CONFIRMED (R172): 12 V main has stayed below 10.8 V for 2 µs. -/
def execPowerLossConfirmed (s : State) : Host.Outcome State Fault Refusal :=
  .next (if s.pwr.main then
      (s.upPwr (fun p => { p with
        main := false
        mainLostAt := some s.clk.now })).losePower
    else s)
/-- OVERVOLTAGE_TRIP (R548): above 13.5 V for 2 µs the input protection opens the main switch: a power loss. -/
def execOvervoltageTrip (s : State) : Host.Outcome State Fault Refusal :=
  .next (if s.mainOn then
      (s.upPwr (fun p => { p with
        ovp := true
        mainLostAt := some s.clk.now })).losePower
    else s)
/-- PWRDIS_ASSERT (R547): the main switch opens, a power loss; while a dump runs it has no effect until the dump ends. -/
def execPwrdisAssert (s : State) : Host.Outcome State Fault Refusal :=
  let s1 := s.upPwr (fun p => { p with
    pwrdis := true
    pwrdisAt := if p.pwrdis then p.pwrdisAt else some s.clk.now })
  .next (if s.mainOn ∧ s.pwr.arm ≠ 5 then s1.losePower else s1)
/-- PWRDIS_DEASSERT (R547): the main switch closes and a cold reset follows. -/
def execPwrdisDeassert (s : State) : Host.Outcome State Fault Refusal :=
  let s1 := s.upPwr (fun p => { p with
    pwrdis := false
    pwrdisAt := none }) |>.noteMain s.mainOn
  .next (if s.pwr.pwrdis && s1.mainOn then
      if s1.pwr.arm = 5 || s1.fastOn then s1
      else (if s.keeperOn then s1 else s1.keeperStart).coldReset
    else s1)
/-- The one-bit passes a die makes for an image: one for each page of its blocks, on the planes whose groups the image has there
(R165, R184). -/
def Image.passesOf (i : Image) (die : Nat) : Nat :=
  ((List.range ((i.groups.length + 15) / 16 * 1024)).filter (fun r =>
    (List.range 16).any (fun p =>
      match i.groups[r / 1024 * 16 + p]? with
      | some g => decide (g / 4096 = die / 16) && decide (i.stripeAt (r / 1024 * 16 + p) (r % 1024) * 15 < i.pages)
      | none => false))).length
/-- The dump engine's passes queue for the window tokens of their rows (R129, R165). -/
def State.startOneBit (i : Image) (s : State) : State :=
  let dies := (((i.groups.map (fun g => g / 4096)).eraseDups.map (fun pos => (List.range 16).map (fun c => pos * 16 + c))).foldl
    (· ++ ·) []).filter (fun d => decide (i.passesOf d ≠ 0))
  dies.foldl (fun t d => t.upMedia (fun m => { m with
    ops := Tab.put m.ops (2 ^ 44 + d) ⟨d, false, false, true, false, 0, 0, 0, [], i.passesOf d⟩
    tokenQueue := m.tokenQueue ++ [2 ^ 44 + d] })) s
/-- DUMP_WINDOWS_ENDED (R172): the last window has ended: the open Firkin records close, the journal is sealed, the place
is recorded and the image is taken. A line whose check fails goes as a poisoned record (R174). -/
def execDumpWindowsEnded (fcBad dramBad : List Nat) (s : State) : Host.Outcome State Fault Refusal :=
  .next (if s.pwr.arm = 5 ∧ s.dump.writing = none then
      let s1 := s.stopFirkin.save 8
      let i := s1.makeImage fcBad dramBad
      ((((s1.takeGens i.pages).2).upDump (fun d => { d with
        writing := some i
        place := i.place })).startOneBit i)
    else s)
/-- DUMP_SEALED (R172, R173, R449): the seal is verified: the image is complete, its figures are recorded, and every domain
but the keeper goes off. The bank energy used is 0 on main power, else a value the spec does not compute. -/
def execDumpSealed (s : State) : Host.Outcome State Fault Refusal :=
  .next (match s.dump.writing with
    | none => s
    | some i =>
      if s.pwr.arm ≠ 5 then s
      else
        let s1 := s.storeImage { i with sealed := true }
        let (v, s2) := if s.dump.onMain then (0, s1) else s1.draw
        (s2.upBudget (fun b => { b with
          lastBytes := 64 * i.lines.length
          lastDuration := (s.clk.now - s.dump.startedAt) / 1000
          lastDrop := v })).afterDump)
/-- BANK_EXHAUSTED (R173, R178): before the seal, an incomplete image stays: how many of its pages were written is open, none before
the dump engine has started, and so is the bank energy used; LastDumpDuration is the time to here (log entry 118). Later, the keeper
loses its supply. -/
def execBankExhausted (s : State) : Host.Outcome State Fault Refusal :=
  .next (if !s.pwr.holdUp then s
    else
      let off := fun (t : State) => (t.upPwr (fun p => { p with holdUp := false })).keeperOff
      if s.pwr.arm = 5 then
        let (v, s1) := s.draw
        let (e, s2) := s1.draw
        let cut := match s.dump.writing with
          | some x => x.cut (v % x.pages)
          | none => (s.makeImage [] []).cut 0
        off (((s2.storeImage cut).upBudget (fun b => { b with
          lastBytes := 64 * cut.lines.length
          lastDuration := (s.clk.now - s.dump.startedAt) / 1000
          lastDrop := e })).afterDump)
      else off s)
/-- MAIN_RETURN_DURING_DUMP (R174): main power returns; the dump runs to its end and a cold reset follows. -/
def execMainReturnDuringDump (s : State) : Host.Outcome State Fault Refusal :=
  .next (if s.pwr.arm = 5 ∧ !s.mainOn then
      (s.upPwr (fun p => { p with
        main := true
        ovp := false
        mainLostAt := none })).noteMain false
    else s)

/-! ## Resets -/

/-- PERST# with aux lost: a cold reset, which keeps completed writes by a dump (R82, R534, log entry 20), and in Test state leaves it
(R539). With the fast domains off the power-up begins again. A dump or a controller reset that runs goes on, and the keeper may lose
its supply (R535). -/
def State.perstCold (s : State) : State :=
  if s.fastOn && decide (s.pwr.test ≠ 0) then s.testEnd
  else if s.fastOn && decide (s.pwr.arm ≠ 5) then
    if s.pwr.arm ∈ [2, 3, 4] then s.cleanStop.coldReset
    else (s.startDump false).upPwr (fun p => { p with mainReturned := s.mainOn })
  else if s.mainOn && !s.pwr.controllerStart && decide (s.pwr.arm ≠ 5) then s.coldReset
  else s.keeperOff
/-- The warm reset of a link that goes down; in Test state the link alone (R535). -/
def State.linkReset (s : State) : State := if s.pwr.test ≠ 0 then s.linkDown else s.warmReset
/-- WARM_RESET (R37, R82, R181, R534): a hot reset, a link that goes down, or, with `perst`, PERST# asserted: the pin then holds the
link until PERST_DEASSERT, and with aux lost the reset is a cold one. A warm reset in Test state resets the link only (R535). -/
def execWarmReset (perst : Bool) (s : State) : Host.Outcome State Fault Refusal :=
  let s1 := s.upPwr (fun p => { p with perst := p.perst || perst })
  .next (if perst && !s.pwr.aux then s1.perstCold else s1.linkReset)
/-- FUNCTION_LEVEL_RESET (R71): the mailbox state and the MSI-X table are cleared and the interrupt policy returns to its
default; nothing else changes. A Clear Poison write already queued is applied, with no response: DESIGN CHOICE, the spec does not say
whether aborting the command withdraws its write (log entry 148). -/
def execFunctionLevelReset (s : State) : Host.Outcome State Fault Refusal :=
  .next (if s.fastOn then
      (s.upMbox (fun m => { m with
        doorbell := []
        pages := []
        bgLast := (0, 0)
        clearing := []
        dictWait := [] })).upObs (fun o => { o with
          policy := 0
          msixTable := []
          msix := [] })
    else s)
/-- RESET_ERROR_DETECTED (R398): a reset error of a source starts a controller reset. -/
def execResetErrorDetected (source : Nat) (fcBad : List Nat) (swept : List (Nat × CacheFault)) (s : State) : Host.Outcome State Fault Refusal :=
  .next (if 1 ≤ source ∧ source ≤ 8 then s.controllerReset source fcBad swept else s)
/-- FIRMWARE_WATCHDOG_EXPIRE (R28): firmware has not answered for 1 s: a controller reset of source 09h. -/
def execFirmwareWatchdogExpire (fcBad : List Nat) (swept : List (Nat × CacheFault)) (s : State) : Host.Outcome State Fault Refusal :=
  .next (s.controllerReset 9 fcBad swept)

/-! ## The host link (R44 to R49) -/

/-- The widest link the lanes that work allow (R45), from the set of failed lanes, bit n for lane n: a narrower link uses lanes 0 to 7 or
0 to 3, straight or reversed. -/
def lanesLeft (failed : Nat) : Nat :=
  if failed % 16 ≠ 0 then 0 else if failed % 256 ≠ 0 then 4 else if failed % 65536 ≠ 0 then 8 else 16

/-- LINK_TRAINING_DONE (R44, R45, R46): the link ends at a speed, and at the width the partner offers or the widest the failed lanes
leave, whichever is less: 06h, 05h, 04h for 64, 32, 16 GT/s, lower codes for lower speeds, of which LinkSpeed reads 04h (R48 returns no
other); other than 64 GT/s x16 logs 5001h, and 16 GT/s or below comes up without CXL with 5002h. A training that leaves the link down
is a link that goes down when it was up (R82), and is not counted in DegradedTrainings, which names trainings below 64 GT/s x16: DESIGN
CHOICE, R48 does not say whether it counts (log entry 147). -/
def execLinkTrainingDone (rate offered failed : Nat) (s : State) : Host.Outcome State Fault Refusal :=
  let width := min offered (lanesLeft failed)
  .next (if !s.fastOn || s.pwr.perst || decide (s.pwr.arm = 5) then s
    else if width ≠ 4 ∧ width ≠ 8 ∧ width ≠ 16 ∨ rate = 0 ∨ 6 < rate then
      if s.port.speed = 0 then s.linkDown else s.linkReset
    else
      let speed := max rate 4
      let cxl := decide (5 ≤ speed)
      let s1 := s.upPort (fun p => { p with
        speed := speed
        width := width
        attach := if !cxl then 0 else if p.bound then 2 else 1
        degraded := if speed = 6 ∧ width = 16 then p.degraded else sat32 p.degraded }) |>.upPwr (fun p => { p with
          selfRefresh := false })
      let s2 := if speed = 6 ∧ width = 16 then s1 else s1.log 0x5001 (speed * 256 + width)
      if cxl then s2 else s2.log 0x5002 (speed * 256 + width))
/-- FABRIC_BIND (R49): the fabric manager binds the module as a G-FAM device. -/
def execFabricBind (endpoint : Nat) (s : State) : Host.Outcome State Fault Refusal :=
  .next (if s.port.attach = 1 then
      s.upPort (fun p => { p with
        bound := true
        boundEid := endpoint
        attach := 2 })
    else s)
/-- FABRIC_UNBIND (R49). -/
def execFabricUnbind (s : State) : Host.Outcome State Fault Refusal :=
  .next (if s.port.bound then
      s.upPort (fun p => { p with
        bound := false
        attach := if p.attach = 2 then 1 else p.attach })
    else s)

/-! ## Sideband and auxiliary power -/

/-- PERST_DEASSERT (R530): the fundamental reset of the host port ends. -/
def execPerstDeassert (s : State) : Host.Outcome State Fault Refusal :=
  .next (s.upPwr (fun p => { p with perst := false }))
/-- AUX_POWER_LOSS (R29, R460, R534): aux goes away. The keeper goes on from main or the bank; with PERST# asserted it is a
cold reset, which keeps completed writes by a dump (log entry 20). -/
def execAuxPowerLoss (s : State) : Host.Outcome State Fault Refusal :=
  .next (if !s.pwr.aux then s
    else
      let s1 := s.upPwr (fun p => { p with aux := false })
      if s1.pwr.perst then s1.perstCold else s1.keeperOff)
/-- AUX_POWER_ARRIVE (R29, R484): aux arrives; a keeper without supply starts and reads parameter memory. -/
def execAuxPowerArrive (s : State) : Host.Outcome State Fault Refusal :=
  .next (if s.pwr.aux then s
    else
      let s1 := (s.upPwr (fun p => { p with aux := true })).upDict (fun d => { d with i3c := 0 })
      if s.keeperOn then s1 else s1.keeperStart)
/-- CRITICAL_LATCH_CLEAR (R449, R547): 12 V main has been away, or PWRDIS held, for 1 s. -/
def execCriticalLatchClear (s : State) : Host.Outcome State Fault Refusal :=
  .next (if s.pwr.critLatch && s.keeperOn && !s.mainOn then
      let since := match s.pwr.pwrdisAt, s.pwr.mainLostAt with
        | some a, some b => min a b
        | some a, none => a
        | none, some b => b
        | none, none => s.clk.now
      ((s.elapseTo (since + sec)).upPwr (fun p => { p with critLatch := false })).save 1
    else s)
/-- SMBRST_ASSERT (R546): the field-network endpoint is held in reset and its addresses are cleared; dictionary state is
unaffected. -/
def execSmbrstAssert (s : State) : Host.Outcome State Fault Refusal :=
  .next ((s.upPwr (fun p => { p with smbrst := true })).upDict (fun d => { d with i3c := 0 }))
/-- SMBRST_DEASSERT (R546): the endpoint leaves reset and listens on SMBus again. -/
def execSmbrstDeassert (s : State) : Host.Outcome State Fault Refusal :=
  .next (s.upPwr (fun p => { p with smbrst := false }))

end Sys2Proof.Machine
end

