-- ==== Sys2Proof/Machine/Thermal.lean ====
section
/-!
DEFINITION. The keeper's round and what follows from it: sensors, thermal zones, doses, rails, the bank, the critical
shutdown (R250, R443 to R449, R511, R551 to R554), the power measurement, pacing, deliverable capacity and latency misses
(R433 to R442), gills and pails (R394 to R401).
-/
namespace Sys2Proof.Machine

/-! ## Channels and zones (R443, R446) -/

/-- Kelvin hundredths of a temperature in °C (R444). -/
def centiK (c : Nat) : Nat := 27315 + 100 * c
/-- First channel of the hold-up bank: two string voltages, two temperatures, charger current, capacitance (R443). -/
def bankCh (v : Variant) : Nat := v.packages + 26
/-- B of R551: rail r's voltage is on channel B + 2r and its current on B + 2r + 1. -/
def railCh (v : Variant) : Nat := v.packages + 32
/-- The channel is a temperature sensor (R443, R444). -/
def isSensor (v : Variant) (ch : Nat) : Bool :=
  decide (ch < v.packages + 26) || decide (ch = bankCh v + 2) || decide (ch = bankCh v + 3)
/-- The fitted zones (R446). -/
def zones (v : Variant) : List Nat := List.range v.packages ++ (List.range 9).map (fun i => 96 + i)
/-- The sensors of a zone (R446). -/
def zoneSensors (v : Variant) (z : Nat) : List Nat :=
  if z < 96 then [z]
  else if z = 96 then (List.range 8).map (fun i => v.packages + i)
  else [v.packages + 8 + 2 * (z - 97), v.packages + 9 + 2 * (z - 97)]
/-- The zone a sensor belongs to. -/
def zoneOf (v : Variant) (ch : Nat) : Option Nat :=
  if ch < v.packages then some ch
  else if ch < v.packages + 8 then some 96
  else if ch < v.packages + 24 then some (97 + (ch - v.packages - 8) / 2)
  else none
/-- Throttle-1, throttle-2 and critical thresholds of a zone in °C (R446, R453). -/
def State.zoneLimits (s : State) (z : Nat) : Nat × Nat × Nat :=
  if z < 96 then (s.entry 0x2020 1, s.entry 0x2020 2, 88)
  else if z = 96 then (s.entry 0x2020 4, s.entry 0x2020 5, 115)
  else (85, 90, 95)
/-- A sensor is in fault (R444). -/
def State.faulted (s : State) (ch : Nat) : Bool := (Tab.look s.therm.faults ch).isSome
/-- A channel's reading as the round reports it (R444). -/
def State.reading (s : State) (ch : Nat) : Nat := Tab.get 0 s.therm.readings ch
/-- The highest reading of the working sensors among some channels (R446). -/
def State.hottest (s : State) (chs : List Nat) : Option Nat :=
  match (chs.filter (fun c => !s.faulted c)).map s.reading with
  | [] => none
  | x :: xs => some (xs.foldl max x)
/-- The steps a zone is in, bit 0 throttle-1 and bit 1 throttle-2 (R447, R448). -/
def State.zoneSteps (s : State) (z : Nat) : Nat := Tab.get 0 s.therm.steps z
/-- Put a zone into a step: 2023h (R447). -/
def State.enterStep (z k : Nat) (s : State) : State :=
  (s.upTherm (fun t => { t with steps := Tab.set 0 t.steps z (s.zoneSteps z + k) })).log 0x2023 (z * 256 + k)
/-- Take a zone out of a step: 2024h (R447). -/
def State.leaveStep (z k : Nat) (s : State) : State :=
  (s.upTherm (fun t => { t with
    steps := Tab.set 0 t.steps z (s.zoneSteps z - k)
    below := Tab.erase t.below (z * 4 + k) })).log 0x2024 (z * 256 + k)
/-- The zone is in a step. -/
def State.inStep (s : State) (z k : Nat) : Bool := decide (s.zoneSteps z / k % 2 = 1)

/-! ## The round (R443 to R449) -/

/-- A temperature answer is good: it answers, lies between −40 °C and 150 °C, and moved by at most 20 °C (R444). -/
def goodReading (prev : Option Nat) (x : Nat) : Bool :=
  decide (23315 ≤ x) && decide (x ≤ 42315) && (match prev with
    | some p => p = 0xFFFF || (decide (x ≤ p + 2000) && decide (p ≤ x + 2000))
    | none => true)
/-- One channel of a round (R444): a sensor that fails enters fault with 2025h; in fault it reads FFFFh and counts its good
rounds. -/
def State.sense (ch x : Nat) (s : State) : State :=
  if !isSensor s.ident.variant ch then s.upTherm (fun t => { t with readings := Tab.put t.readings ch x })
  else
    let good := goodReading (Tab.look s.therm.raw ch) x
    let s1 := s.upTherm (fun t => { t with
      raw := Tab.put t.raw ch x
      readings := Tab.put t.readings ch (if good && !s.faulted ch then x else 0xFFFF)
      faults := if good then
          (match Tab.look t.faults ch with
            | some n => Tab.put t.faults ch (n + 1)
            | none => t.faults)
        else Tab.put t.faults ch 0 })
    if !good && !s.faulted ch then s1.log 0x2025 ch else s1
/-- One zone of a round (R447, R448): a zone with a sensor in fault goes straight to throttle-2; else it enters each step
whose threshold it reaches, and counts the rounds it has read Hysteresis below. -/
def State.zoneRound (z : Nat) (s : State) : State :=
  let chs := zoneSensors s.ident.variant z
  if chs.any s.faulted then
    let s1 := s.upTherm (fun t => { t with below := Tab.erase (Tab.erase t.below (z * 4 + 1)) (z * 4 + 2) })
    if s1.inStep z 2 then s1 else s1.enterStep z 2
  else
    match s.hottest chs with
    | none => s
    | some t =>
      let (a, b, _) := s.zoneLimits z
      let one := fun (k thr : Nat) (u : State) =>
        let u1 := if centiK thr ≤ t ∧ !u.inStep z k then u.enterStep z k else u
        u1.upTherm (fun x => { x with
          below := Tab.set 0 x.below (z * 4 + k)
            (if t + 100 * s.entry 0x2020 10 ≤ centiK thr then Tab.get 0 x.below (z * 4 + k) + 1 else 0) })
      one 2 b (one 1 a s)
/-- Bit [1] of the class-0 bound (R138): a package at 70 °C, the controller at 95 °C, or a thermal sensor in fault. -/
def State.boundThermal (s : State) : State :=
  let v := s.ident.variant
  let hot := fun (chs : List Nat) (c : Nat) =>
    match s.hottest chs with
    | some t => decide (centiK c ≤ t)
    | none => false
  if hot (List.range v.packages) 70 || hot (zoneSensors v 96) 95 || !s.therm.faults.isEmpty then s.boundFail 1 true
  else if s.rstats.failing.getLsbD 1 then s.boundEnd 1
  else s
/-- The class-0 soft share of the last 10 s (R137) and bit [4] of the bound (R138). DESIGN CHOICE: with no class-0 read in the last 10 s
the share, 0 per 0, reads 0 (log entry 164). -/
def State.boundSoft (s : State) : State :=
  let old := if s.rstats.class0Hist.length < 10 then (0, 0) else (s.rstats.class0Hist.getLast?).getD (0, 0)
  let n := s.rstats.class0Reads - old.1
  let k := s.rstats.class0Soft - old.2
  let s1 := s.upRstats (fun r => { r with
    softShare := if n = 0 then 0 else min 0xFFFFFFFF (k * 10000000 / n)
    class0Hist := ((r.class0Reads, r.class0Soft) :: r.class0Hist).take 10 })
  if 100 < s1.rstats.softShare then s1.boundFail 4 true
  else if s1.rstats.failing.getLsbD 4 then s1.boundEnd 4
  else s1
/-- The row-hit rate of the last 10 s (R387); without an access in them its value is open. -/
def State.rowRate (s : State) : State :=
  let old := if s.dram.rowHist.length < 10 then (0, 0) else (s.dram.rowHist.getLast?).getD (0, 0)
  let n := s.dram.rowAccesses - old.1
  let (v, s1) := if n = 0 then s.draw else (0, s)
  s1.upDram (fun d => { d with
    rowPct := if n = 0 then v % 101 else (d.rowHits - old.2) * 100 / n
    rowHist := ((d.rowAccesses, d.rowHits) :: d.rowHist).take 10 })
/-- e to the power p / q in units of 2^-128: the Taylor series of a 64th of the exponent, squared six times. -/
def expFix (p q : Nat) : Nat :=
  let y := p * 2 ^ 128 / (64 * q)
  let sum := (List.range 40).foldl (fun (a : Nat × Nat) k =>
    let term := a.1 * y / 2 ^ 128 / (k + 1)
    (term, a.2 + term)) (2 ^ 128, 2 ^ 128)
  (List.range 6).foldl (fun v _ => v * v / 2 ^ 128) sum.2
/-- The thermal weight of R250 in thousandths, rounded, from ActivationEnergy in meV and the package temperature in 0.01 K: with
k = 8.617 × 10^-5 eV/K the exponent is ea × 10^7 × (t − 31315) / (8617 × 31315 × t). -/
def doseMilli (ea t : Nat) : Nat :=
  let q := 8617 * 31315 * t
  if 31315 ≤ t then (1000 * expFix (ea * 10 ^ 7 * (t - 31315)) q + 2 ^ 127) / 2 ^ 128
  else
    let e := expFix (ea * 10 ^ 7 * (31315 - t)) q
    (2 * 1000 * 2 ^ 128 + e) / (2 * e)
/-- Thermal dose of the round (R250): a package in fault counts as at 78 °C (R448). -/
def State.addDoses (s : State) : State :=
  s.upCare (fun c => { c with
    doses := (List.range s.ident.variant.packages).foldl (fun t p =>
      Tab.set 0 t p (Tab.get 0 t p + doseMilli (s.entry 0x2210 4)
        (if s.faulted p then centiK 78 else s.reading p))) c.doses })
/-- Working sensors at or above critical are read again 10 ms later (R449). -/
def State.critical (s : State) : State :=
  (zones s.ident.variant).foldl (fun t z =>
    let (_, _, c) := t.zoneLimits z
    (zoneSensors t.ident.variant z).foldl (fun u ch =>
      if !u.faulted ch && decide (centiK c ≤ u.reading ch) && (Tab.look u.pwr.rechecks ch).isNone then
        u.upPwr (fun p => { p with rechecks := Tab.put p.rechecks ch u.clk.now })
      else u) t) s
/-- A rail's voltage limits in mV (R551): the 12 V input has none here, the charger's apply while it charges. -/
def State.railLimits (s : State) (r : Nat) : Option (Nat × Nat) :=
  let pct := fun (mv p : Nat) => some (mv - mv * p / 100, mv + mv * p / 100)
  match r with
  | 1 => pct 3300 5
  | 2 => some (11600, 12600)
  | 3 => pct 800 5
  | 4 => some (713, 787)
  | 5 => pct 800 5
  | 6 => some (808, 892)
  | 7 => pct 900 5
  | 8 => pct 1200 5
  | 9 => pct 1100 3
  | 10 => pct 1100 3
  | 11 => pct 1800 5
  | 12 => pct 2500 5
  | 13 => pct 2500 5
  | 14 => pct 1200 5
  | 15 => some (713, 787)
  | 16 => pct 900 3
  | 17 => pct 1800 5
  | 18 => pct 3300 5
  | 19 => if s.bank.charger = 1 then pct s.bank.charge 2 else some (0, 34000)
  | _ => none
/-- Count the consecutive rounds each rail is outside its limits (R445); a rail already reported waits for a good round. -/
def State.railRound (s : State) : State :=
  (List.range 20).foldl (fun t r =>
    let ch := railCh t.ident.variant + 2 * r
    match t.railLimits r with
    | none => t
    | some (lo, hi) =>
      let bad := decide (t.reading ch < lo) || decide (hi < t.reading ch)
      let n := Tab.get 0 t.therm.railBad ch
      t.upTherm (fun x => { x with railBad := Tab.set 0 x.railBad ch (if bad then (if n < 2 ^ 32 then n + 1 else n) else 0) })) s
/-- The bank in a round (R157, R159, R552, R553): its voltage and charger, 31.0 V above 65 °C, the count of cool rounds, and
the budget; a bank whose strings give no voltage is not measurable. -/
def State.bankRound (s : State) : State :=
  let b := bankCh s.ident.variant
  let vs := (if s.bank.stA = 0 then [s.reading b] else []) ++ (if s.bank.stB = 0 then [s.reading (b + 1)] else [])
  let t1 := s.reading (b + 2)
  let t2 := s.reading (b + 3)
  let hot := (!s.faulted (b + 2) && decide (centiK 65 < t1)) || (!s.faulted (b + 3) && decide (centiK 65 < t2))
  let cool := !s.faulted (b + 2) && !s.faulted (b + 3) && decide (t1 < centiK 60) && decide (t2 < centiK 60)
  let s1 := s.upBank (fun k =>
    let charge := if hot then 31000 else k.charge
    let volts := vs.foldl max 0
    { k with
      charge := charge
      cool := if charge = 31000 ∧ cool then k.cool + 1 else 0
      volts := volts
      charger := if !s.mainOn then 3 else if charge * 98 ≤ volts * 100 then 0 else 1 })
  let s2 := if !vs.isEmpty && vs.all (fun v => decide (v = 0xFFFF)) then s1.bankFault 3 else s1
  if s2.fastOn && decide (s2.pwr.arm ≠ 5) then s2.rederive else s2
/-- DRAM channels whose temperature moved by more than RetrainDelta since their training (R379). -/
def State.retrainRound (s : State) : State :=
  let d := s.entry 0x2130 4
  let mask : BitVec 8 := (List.range 8).foldl (fun m c =>
    match s.hottest (zoneSensors s.ident.variant (97 + c)) with
    | some t =>
      let t0 := Tab.get 0 s.dram.trainTemp c
      if t0 + 100 * d < t ∨ t + 100 * d < t0 then m ||| ((1 : BitVec 8) <<< c) else m
    | none => m) 0
  if d = 0 ∨ mask = 0 then s else s.needRetrain mask
/-- The Firkin's samples of a round (R511), and a period a shorter setting has ended (R516). -/
def State.firkinRound (s : State) : State :=
  let v := s.ident.variant
  let temp := fun (kind : Nat) (chs : List Nat) (u : State) =>
    let u1 := if u.firkin.running && chs.any u.faulted then
        u.upFirkin (fun f => { f with opened := Tab.put f.opened kind { Tab.get ({} : FirkRec) f.opened kind with flags := 1 } })
      else u
    match u.hottest chs with
    | some t => u1.sample kind t
    | none => u1
  let s1 := temp 4 (zoneSensors v 96) (temp 3 (List.range v.packages) s)
  let share := if s1.budgetBytes = 0 then 0 else s1.dirtyBytes * 1024 / s1.budgetBytes
  let s2 := ((s1.sample 5 s1.reg.inputPower).sample 6 share).sample 7 s1.gills.roundInputs
  let s3 := s2.upGills (fun g => { g with roundInputs := 0 })
  if s3.firkin.running ∧ !s3.firkin.frozen ∧ s3.entry 0x7000 1 ≤ s3.firkinAge then s3.closePeriod false else s3
/-- The hourly points of the 24 h write amplification (R278, R434). -/
def State.hourly (s : State) : State :=
  match s.care.waHist.head? with
  | some (t, _, _) =>
    if s.clk.now < t + 3600 * sec then s
    else s.upCare (fun c => { c with waHist := ((s.clk.now, c.mediaBytes, c.hostBytes) :: c.waHist).take 25 })
  | none => s.upCare (fun c => { c with waHist := [(s.clk.now, c.mediaBytes, c.hostBytes)] })
/-- A housekeeping round (R443): once a second the keeper reads every channel. `readings` gives them in channel order; a
sensor that does not answer gives FFFFh. -/
def State.round (readings : List Nat) (s : State) : State :=
  (if !s.keeperOn then s
    else
      let s1 := (if s.therm.rounds = 0 then s else s.elapseTo (s.therm.lastAt + sec)).upTherm (fun t => { t with
        rounds := t.rounds + 1 })
      let s2 := (s1.upTherm (fun t => { t with lastAt := s1.clk.now })).count 60 1 1
      let s3 := ((readings.take s.ident.variant.channels).zipIdx).foldl (fun t xi => t.sense xi.2 xi.1) s2
      let s4 := ((zones s.ident.variant).foldl (fun t z => t.zoneRound z) s3).addDoses
      let rail := railCh s.ident.variant
      let s5 := (s4.upReg (fun g => { g with inputPower := s4.reading rail * s4.reading (rail + 1) / 1000 })).critical
      let s6 := s5.bankRound
      let s7 := if s6.fastOn then s6.railRound.retrainRound.boundThermal.boundSoft.rowRate.firkinRound.hourly else s6
      if s7.pwr.boot = .held ∧ !s7.pwr.critLatch ∧ !s7.tooHot ∧ s7.mainOn then s7.beginVerify else s7)

/-- THROTTLE_LEAVE (R447): the zone has read Hysteresis below the threshold of its step for 10 rounds; a zone with a sensor
in fault is held (R448). -/
def execThrottleLeave (zone : Nat) (s : State) : Host.Outcome State Fault Refusal :=
  .next (if (zoneSensors s.ident.variant zone).any s.faulted then s
    else
      let ready := fun (k : Nat) => s.inStep zone k && decide (10 ≤ Tab.get 0 s.therm.below (zone * 4 + k))
      if ready 2 then s.leaveStep zone 2
      else if ready 1 && !s.inStep zone 2 then s.leaveStep zone 1
      else s)
/-- SENSOR_RESTORED (R444, R448): after 60 good rounds a sensor leaves fault with 2026h; when it was the zone's last, the
zone takes the step its readings give. -/
def execSensorRestored (ch : Nat) (s : State) : Host.Outcome State Fault Refusal :=
  .next (match Tab.look s.therm.faults ch with
    | none => s
    | some n =>
      if n < 60 then s
      else
        let s1 := (s.upTherm (fun t => { t with
          faults := Tab.erase t.faults ch
          readings := Tab.put t.readings ch (Tab.get 0 t.raw ch) })).log 0x2026 ch
        match zoneOf s.ident.variant ch with
        | none => s1
        | some z =>
          let chs := zoneSensors s.ident.variant z
          if chs.any s1.faulted then s1
          else
            match s1.hottest chs with
            | none => s1
            | some t =>
              let (a, b, _) := s1.zoneLimits z
              let s2 := if t < centiK b ∧ s1.inStep z 2 then s1.leaveStep z 2 else s1
              if centiK a ≤ t ∧ !s2.inStep z 1 then s2.enterStep z 1 else s2)
/-- RAIL_FAULT (R445): a rail outside its limits for 3 consecutive rounds: 2028h with the channel. -/
def execRailFault (ch : Nat) (s : State) : Host.Outcome State Fault Refusal :=
  .next (let n := Tab.get 0 s.therm.railBad ch
    if 3 ≤ n ∧ n < 2 ^ 32 then
      (s.upTherm (fun t => { t with railBad := Tab.put t.railBad ch (2 ^ 32) })).log 0x2028 ch
    else s)
/-- CHARGE_VOLTAGE_RAISE (R553): both string sensors below 60 °C for 10 rounds: 34.0 V again. -/
def execChargeVoltageRaise (s : State) : Host.Outcome State Fault Refusal :=
  .next (if s.bank.charge = 31000 ∧ 10 ≤ s.bank.cool then
      let s1 := s.upBank (fun b => { b with
        charge := 34000
        cool := 0
        charger := if s.mainOn then 1 else b.charger })
      if s1.fastOn ∧ s1.pwr.arm ≠ 5 then s1.rederive else s1
    else s)
/-- CAPACITANCE_MEASURE (R157, R159, R554): every 10 minutes the bank is measured: a string found open or shorted is
isolated; without a string in service, or with a fault of the common path, the bank is at fault. -/
def execCapacitanceMeasure (capA capB : Nat) (fault : BankFault) (s : State) : Host.Outcome State Fault Refusal :=
  .next (if !s.fastOn || !s.mainOn || decide (s.pwr.arm = 5) then s
    else
      let s1 := if s.bank.measured then s.elapseTo (s.bank.measuredAt + 600 * sec) else s
      let s2 := s1.upBank (fun b => { b with
        measured := true
        measuredAt := s1.clk.now
        capA := if b.stA = 0 then capA else b.capA
        capB := if b.stB = 0 then capB else b.capB })
      let isolate := fun (k code : Nat) (u : State) =>
        let u1 := u.upBank (fun b => { b with
          stA := if k = 0 ∧ b.stA = 0 then code else b.stA
          stB := if k = 1 ∧ b.stB = 0 then code else b.stB })
        if u1.bank.stA ≠ 0 ∧ u1.bank.stB ≠ 0 then u1.bankFault code else u1
      let good := fun (u : State) =>
        if u.bank.stA ≠ 0 ∧ u.bank.stB ≠ 0 then u else u.upBank (fun b => { b with faulty := false })
      (match fault with
        | .none => good s2
        | .stringOpen k => isolate k 1 s2
        | .stringShort k => isolate k 2 s2
        | .pathOpen => s2.bankFault 1
        | .pathShort => s2.bankFault 2
        | .unmeasurable => s2.bankFault 3).rederive)
/-- CRITICAL_RECHECK (R449, R450): the second reading 10 ms later. Confirmed, the module stands down and dumps on main while
it is present; during a dump the dump goes on and the latch is set at its end; prepared, no image is written. -/
def execCriticalRecheck (ch reading : Nat) (s : State) : Host.Outcome State Fault Refusal :=
  .next (match Tab.look s.pwr.rechecks ch, zoneOf s.ident.variant ch with
    | some t0, some z =>
      let s1 := (s.elapseTo (t0 + 10000000)).upPwr (fun p => { p with rechecks := Tab.erase p.rechecks ch })
      let (_, _, c) := s1.zoneLimits z
      if reading < centiK c ∨ 42315 < reading ∨ s1.faulted ch ∨ !s1.fastOn then s1
      else
        let s2 := s1.upPwr (fun p => { p with
          critZone := match p.critZone with
            | some y => some y
            | none => some z })
        if s2.pwr.arm = 5 then s2
        else if s2.pwr.arm ∈ [2, 3, 4] then (s2.cleanStop.upPwr (fun p => { p with critLatch := true })).save 1
        else s2.startDump s2.mainOn
    | _, _ => s)

/-! ## Power, pacing and deliverable capacity (R433 to R442) -/

/-- BASE_DRAW_MEASURE (R436, R456): every 10 ms, BaseDraw is the input power less the cost of all leave granted; the peak
is the highest mean of ten measurements. -/
def execBaseDrawMeasure (inputMw : Nat) (s : State) : Host.Outcome State Fault Refusal :=
  .next (if !s.fastOn then s
    else
      let s1 := if s.reg.recent = [] then s else s.elapseTo (s.reg.baseAt + 10000000)
      s1.upReg (fun g =>
        let recent := (inputMw :: g.recent).take 10
        { g with
          baseAt := s1.clk.now
          baseDraw := (2 * inputMw - 125 * s1.grantedQ) / 2
          recent := recent
          peakPower := if recent.length = 10 then max g.peakPower (recent.foldl (· + ·) 0 / 10) else g.peakPower }))
/-- The base exceeds the budget with a spare in mW (R442). -/
def State.overBudget (s : State) (spare : Nat) : Bool :=
  decide (s.entry 0x2000 1 < s.reg.baseDraw + s.entry 0x2000 2 + 8000 + spare)
/-- PACING_STEP (R442): while the base exceeds the budget, CXL.mem traffic falls by 10 % every 10 ms; it rises by 10 % every
100 ms while the sum fits with 2 W to spare. 2022h once per entry. -/
def execPacingStep (s : State) : Host.Outcome State Fault Refusal :=
  .next (if !s.fastOn then s
    else if s.overBudget 0 then
      let s1 := if s.port.pacing then s.elapseTo (s.port.paceAt + 10000000) else s
      let s2 := s1.upPort (fun p => { p with
        pacing := true
        pacePct := max 10 (p.pacePct - 10)
        paceAt := s1.clk.now })
      if s.port.pacing then s2 else s2.log 0x2022 s.reg.baseDraw
    else if s.port.pacing ∧ !s.overBudget 2000 then
      let s1 := s.elapseTo (s.port.paceAt + 100000000)
      s1.upPort (fun p => { p with
        pacing := decide (p.pacePct + 10 < 100)
        pacePct := min 100 (p.pacePct + 10)
        paceAt := s1.clk.now })
    else s)

/-- Write amplification of the last 24 h in thousandths (R278); without a host byte in them its value is open. -/
def State.writeAmp (s : State) : Nat :=
  let (m0, h0) := match (s.care.waHist.filter (fun x => decide (s.clk.now ≤ x.1 + 86400 * sec))).getLast? with
    | some (_, m, h) => (m, h)
    | none => (0, 0)
  let m := s.care.mediaBytes - m0
  let h := s.care.hostBytes - h0
  if h = 0 then Config.freeNat (2 ^ 64 + m) % 2 ^ 32 else min 0xFFFFFFFF (m * 1000 / h)
/-- wa of R434 in thousandths: at least 1.0, and 2.0 until 24 h of history exist. -/
def State.regAmp (s : State) : Nat := if s.care.waHist.length < 25 then 2000 else max 1000 s.writeAmp
/-- DeliverableReads in thousands per second (R434). -/
def State.deliverReads (s : State) : Nat := if s.inStep 96 2 then 18000 else 36000
/-- DeliverableWrite in MB/s (R434). -/
def State.deliverWrites (s : State) : Nat :=
  let p : Int := ((s.entry 0x2000 1 : Int) - s.ident.variant.fullLoadBase - s.entry 0x2000 2).fdiv 250
  let f : Int := if s.inStep 96 2 then 2 else if s.inStep 96 1 then 3 else 4
  let programs := ((p * f - 140).fdiv 3).toNat
  programs * 153600 / s.regAmp
/-- Sum of one guarantee over the 16 classes (R435, R455). -/
def State.shareSum (s : State) (sub : Nat) : Nat := ((List.range 16).map (fun c => s.entry (0x2300 + c) sub)).foldl (· + ·) 0
/-- Recompute deliverable capacity and the oversubscription state (R434, R435): 2302h on entry and when a sum or a capacity
changed, 2303h when both fit again. -/
def State.recompute (s : State) : State :=
  let dr := s.deliverReads
  let dw := s.deliverWrites
  let rs := s.shareSum 1
  let ws := s.shareSum 2
  let short := decide (dr < rs) || decide (dw < ws)
  let s1 := s.refillTokens.upReg (fun g => { g with
    deliverRead := dr
    deliverWrite := dw
    oversub := short
    sums := (rs, ws, dr, dw)
    readScale := if dr < rs then 1024 * dr / rs else 1024
    writeScale := if dw < ws then 1024 * dw / ws else 1024 })
  if short then
    if s.reg.oversub ∧ s.reg.sums = (rs, ws, dr, dw) then s1
    else (s1.log 0x2302 (rs * 2 ^ 32 + ws)).raise 7
  else if s.reg.oversub then s1.log 0x2303 0
  else s1
/-- DELIVERABLE_RECOMPUTE (R434): every 10 s. -/
def execDeliverableRecompute (s : State) : Host.Outcome State Fault Refusal :=
  .next (if !s.fastOn then s
    else
      let s1 := if s.reg.deliverRead = 0 then s else s.elapseTo (s.reg.deliverAt + 10 * sec)
      (s1.upReg (fun g => { g with deliverAt := s1.clk.now })).recompute)
/-- The first second with misses of a class not yet reported, and their count (R433). -/
def State.missesOf (s : State) (cls : Nat) : Option (Nat × Nat) := s.reg.missSecond.find? (fun kv => decide (kv.1 % 16 = cls))
/-- LATENCY_MISS_REPORT (R433): at the end of a second with misses of a class, 2301h and vector 7, when the class's
MissInterrupt is set and the module is not oversubscribed. -/
def execLatencyMissReport (cls : Nat) (s : State) : Host.Outcome State Fault Refusal :=
  .next (match s.missesOf cls with
    | none => s
    | some (k, n) =>
      let s1 := (s.elapseTo ((k / 16 + 1) * sec)).upReg (fun g => { g with
        missSecond := Tab.erase g.missSecond k })
      if s1.entry (0x2300 + cls) 6 = 1 ∧ !s1.reg.oversub then (s1.log 0x2301 (cls * 2 ^ 32 + n)).raise 7 else s1)

/-! ## Gills and pails (R394 to R401) -/

/-- GILL_LEAK (R395, R425): at the end of a leak interval the level falls by 1, the gill may overflow again, and changed
settings take effect. -/
def execGillLeak (domain : Nat) (s : State) : Host.Outcome State Fault Refusal :=
  .next (if !s.fastOn ∨ 110 ≤ domain then s
    else
      let x := s.gillSet domain
      let s1 := s.elapseTo (x.at_ + x.every * 1000000)
      s1.upGills (fun g => { g with
        level := Tab.set 0 g.level domain (Tab.get 0 g.level domain - 1)
        spilled := g.spilled.filter (fun d => decide (d ≠ domain))
        sets := Tab.put g.sets domain ⟨(s1.gillConf domain).1, (s1.gillConf domain).2, s1.clk.now⟩ }))

/-- A DRAM channel is refreshed at twice the DDR5 interval's rate while a device of it reads above 85 °C (R378) and while the channel
is at throttle-1 (R447). -/
def State.refreshTwice (c : Nat) (s : State) : Bool :=
  s.inStep (97 + c) 1 || (match s.hottest (zoneSensors s.ident.variant (97 + c)) with
    | some t => decide (centiK 85 < t)
    | none => false)
/-- A request lost in a pail reset (R58, R400): a read gets poison, and a reserved read records its reservation all the same (R292); a
write is discarded, or leaves its line poisoned where it was partly applied. -/
def State.losePailed (r : Req) (s : State) : State :=
  if r.kind = .read then s.answer r .poison
  else if r.kind = .resRead then
    (match s.resRoom r with
    | some t => (t.reserve r).count r.slice 10 1
    | none => s).answer r .poison
  else
    let s1 := s.uncharge r
    (if r.stored then s1.poison r.line else s1).answer r .complete
/-- A reset of a running segmented transfer by its route's pail (R467): the next request of the transfer gets the code. -/
def State.endTransfer (route code : Nat) (s : State) : State :=
  match Tab.look s.dict.transfers route with
  | none => s
  | some t => if t.ended ≠ 0 then s else (s.upDict (fun d => { d with
    transfers := Tab.put d.transfers route { t with
      ended := code
      data := [] } })).upObs (fun o => { o with packet := if t.index = 0x7101 ∧ t.sub = 2 then none else o.packet })
/-- PAIL_RESET (R399 to R401): a pointer mismatch or a failed SECDED check resets a pail, by its kind: request and
internal-master pails of a slice (01h, 03h), yoke receive pails, journal and map pails (02h, 05h, 06h: a reset error of
source 08h), media-channel command pails (04h), the event pail (07h) and the segment pails (08h). -/
def execPailReset (kind inst : Nat) (s : State) : Host.Outcome State Fault Refusal :=
  .next (if !s.fastOn ∨ s.pwr.arm = 5 then s
    else
      let num := kind * 4096 + inst
      if kind = 2 ∨ kind = 5 ∨ kind = 6 then
        (s.controllerReset 8 [] []).upPwr (fun p => { p with own := p.own ++ [(0x5003, num)] })
      else if kind = 1 then
        let lost := s.reqs.list.filter (fun r => r.inPail && decide (r.slice = inst))
        ((lost.foldl (fun t r => t.losePailed r) s).endRes (fun r => decide (r.slice = inst)) 8).log 0x5003 num
      else if kind = 3 then
        let lost := s.reqs.list.filter (fun r => decide (r.entry = internal) && decide (r.slice = inst))
        ((lost.foldl (fun t r => t.losePailed r) s).endRes (fun r => decide (r.slice = inst)) 8).log 0x5003 num
      else if kind = 4 then
        let ms := s.slices.misses.filter (fun m => decide (ppaCh m.ppa = inst) && decide (m.kind = .demand))
        let lines := ms.map (fun m => m.line)
        let lost := s.reqs.list.filter (fun r => decide (r.stage = .attached) && lines.contains r.line)
        (ms.foldl (fun t m => t.dropMiss m) (lost.foldl (fun t r => t.losePailed r) s)).log 0x5003 num
      else if kind = 7 then
        let n := s.obs.pail.length
        ((s.upObs (fun o => { o with
          pail := []
          packet := none
          overrun := true
          lost := min (o.lost + n) 0xFFFFFFFF
          lostPending := o.lostPending + n })).raise 5).log 0x5003 num
      else if kind = 8 then (s.endTransfer inst 0x01070000).log 0x5003 num
      else s)

end Sys2Proof.Machine
end

