-- ==== Sys2Proof/Machine/DramOps.lean ====
section
/-!
DEFINITION. The DRAM controller's timed rows: the precharge of a row kept open by prediction, the end of a refresh period,
and retraining (R376, R377, R379).
-/
namespace Sys2Proof.Machine

/-- DRAM_PAGE_CLOSE_TIMEOUT (R376): a row kept open by prediction is precharged after 200 ns without an access; PagePolicy
open keeps its rows until a conflicting access. -/
def execDramPageCloseTimeout (subchannel bank : Nat) (s : State) : Host.Outcome State Fault Refusal :=
  .next (let k := subchannel * 32 + bank
    if s.entry 0x2130 1 = 1 ∨ Tab.get 0 s.dram.openRow k = 0 then s
    else (s.elapse 200).upDram (fun d => { d with openRow := Tab.erase d.openRow k }))
/-- REFRESH_PERIOD_END (R377): every 32 ms the activate tables and spill counts are cleared. -/
def execRefreshPeriodEnd (s : State) : Host.Outcome State Fault Refusal :=
  .next (if !s.fastOn then s
    else
      let s1 := s.elapseTo (s.dram.refreshAt + 32000000)
      s1.upDram (fun d => { d with
        acts := []
        refreshAt := s1.clk.now }))
/-- The lowest channel of a retraining mask. -/
def firstChannel (m : BitVec 8) : Nat := ((List.range 8).find? (fun c => m.getLsbD c)).getD 0
/-- DRAM_RETRAIN_STEP (R379): one step every 100 µs of the channel being retrained, under its leave; the 4,000th step ends
it: the new parameters are stored and 2105h names the channel. -/
def execDramRetrainStep (s : State) : Host.Outcome State Fault Refusal :=
  .next (if !s.fastOn ∨ s.dram.retrainMask = 0 then s
    else if !(s.reg.granted.any (fun l => decide (l.id = retrainId))) then s.needRetrain 0
    else
      let c := firstChannel s.dram.retrainMask
      let s1 := (if s.dram.retrainSteps = 0 then s else s.elapseTo (s.dram.retrainAt + 100000)).count (48 + c) 7 1
      if s.dram.retrainSteps + 1 < 4000 then
        s1.upDram (fun d => { d with
          retrainSteps := d.retrainSteps + 1
          retrainAt := s1.clk.now })
      else
        let t := (s1.hottest (zoneSensors s1.ident.variant (97 + c))).getD (Tab.get 0 s1.dram.trainTemp c)
        let s2 := (s1.upDram (fun d => { d with
          retrainMask := d.retrainMask &&& ~~~ ((1 : BitVec 8) <<< c)
          retrainSteps := 0
          retrainings := sat32 d.retrainings
          trainTemp := Tab.put d.trainTemp c t })).giveLeave retrainId
        ((s2.needRetrain 0).save 8).log 0x2105 c)

end Sys2Proof.Machine
end

