-- ==== Sys2Proof/Machine/Pages.lean ====
section
/-!
DEFINITION. What media pages hold byte by byte: grain, line-log, checkpoint, root, XOR and dump pages with their spares, journal
records, map entries and overlay slots (R167 to R171, R189 to R193, R195, R198, R208, R211, R212, R214, R217, R218, R222, R223,
R402, R545).
-/
namespace Sys2Proof.Machine

/-! ## Shadow parity (R198) -/

/-- A page has been programmed. -/
def State.programmedAt (s : State) (q : Nat) : Bool :=
  (s.page? q).isSome && !(s.media.passes.any (fun p => decide (p.ppa = q) && !p.programmed))
/-- Stripes of a group with a page programmed that wait for their XOR page (R198). -/
def State.openStripes (s : State) (g : Nat) : List Nat :=
  (((s.media.pages.filter (fun kp => decide (ppaGroup kp.1 = g) && s.programmedAt kp.1)).map (fun kp =>
    ppaPage kp.1)).eraseDups).filter (fun n => !s.programmedAt (groupPpa g (xorChannel (s.grp g) g n) n))
/-- Bytes of shadow parity beyond the 8 MiB of SRAM (R198): 18 KiB for each present column of a group that keeps it, and
for each stripe that waits for its XOR page, 8 at most. -/
def State.shadowSpill (s : State) : Nat :=
  ((s.media.groups.filter (fun kg => kg.2.shadow && decide (kg.2.st ∈ [GSt.opened, .closing]))).map (fun kg =>
    18432 * ((presentCols kg.2).length + min 8 (s.openStripes kg.1).length))).foldl (· + ·) 0 - 8388608

/-! ## Keys and spares (R190 to R192, R402) -/

/-- The key material of the dump metadata key (R192, R409). -/
def State.metaKey (s : State) : BitVec 512 := Config.freshKey (2 ^ 60 + s.keys.metaKeyGen)
/-- The key material of the dump data key of a place (R167, R409). DESIGN CHOICE: an image in floor groups (place 2) has a dump data key
of its own; R407 lists one key for each slot and the spec names none for the floor (log entry 144). -/
def State.dumpKey (s : State) (place : Nat) : BitVec 512 := Config.freshKey (2 ^ 61 + place * 2 ^ 40 + Tab.get 0 s.keys.dumpKeyGen place)
/-- A 64-byte unit under a key: the tweak is a line index or unit number and the page's generation (R167, R192, R402). -/
def sealUnit (key : BitVec 512) (n gen : Nat) (d : Line) : Bytes := natLe 64 (Config.cipher key (n + gen * 2 ^ 41) d).toNat
/-- Bytes as 64-byte units under a key, the first of them unit `start` of its page. -/
def sealUnits (key : BitVec 512) (start gen : Nat) (b : Bytes) : Bytes :=
  ((List.range ((b.length + 63) / 64)).map (fun k =>
    sealUnit key (start + k) gen (BitVec.ofNat 512 (leNat ((b.drop (64 * k)).take 64))))).foldl (· ++ ·) []
/-- Encrypted check units of a codeword: the line CRCs of its slots (R190, R192). -/
def State.checkUnits (s : State) (gen cw : Nat) (lines : List Line) : Bytes :=
  sealUnits s.metaKey (2 * cw) gen ((lines.map (fun d => natLe 4 (lineCrc d).toNat)).foldl (· ++ ·) [] ++
    natLe (128 - 4 * lines.length) 0)
/-- The spare bytes of a codeword after its payload (R190), given its check units. -/
def spareBytes (p : Page) (cw : Nat) (checks payload : Bytes) : Bytes :=
  let per := if p.kind = 2 then 28 else 32
  let mask := (List.range per).foldl (fun m j => m + (if Tab.get false p.poison (cw * per + j) then 2 ^ j else 0)) 0
  let h := natLe 8 p.gen ++ natLe 5 (if p.kind = 2 then 0 else p.owner) ++ natLe 1 p.kind ++
    natLe 2 ((if p.kind = 1 then p.keyId else 0) + 4096 * cw) ++ natLe 2 0 ++ natLe 4 mask
  let front := h ++ natLe 2 (Config.headerCrc (leNat h)).toNat ++ checks
  front ++ natLe 104 (Config.ldpc (leNat (payload ++ front))).toNat
/-- The spare of a codeword whose slots hold these lines. -/
def State.spare (s : State) (p : Page) (cw : Nat) (lines : List Line) (payload : Bytes) : Bytes :=
  spareBytes p cw (s.checkUnits p.gen cw lines) payload
/-- The key a slot was encrypted under is the key ID's of now. -/
def State.keyHeld (s : State) (id gen : Nat) : Bool :=
  decide ((s.keyRec id).st ≠ 0) && decide ((s.keyRec id).base ≤ gen) && !(s.keyRec id).lost
/-- A slot as stored: encrypted under its key ID (R402). Of a key that is gone its 64 bytes are open: the model no longer holds what
they were computed with (log entry 81). -/
def State.cipherSlot (s : State) (key line gen : Nat) (d : Line) : Bytes :=
  if s.keyHeld key gen then sealUnit (s.keyRec key).material line gen d
  else (List.range 64).map (fun i => Config.rawByte (2 ^ 44 + line) i gen)

/-! ## Grain and line-log pages (R189, R211, R212) -/

/-- A codeword of a grain or line-log page (R189, R211). DESIGN CHOICE: an unfilled slot of a line-log page is 64 bytes of 0, stored
in clear, and its line CRC is that of a zero line; the spec gives the content of filled slots only (log entry 120). -/
def State.codeword (s : State) (p : Page) (cw : Nat) : Bytes :=
  if p.kind = 1 then
    let lines := (List.range 32).map (fun j => Tab.get 0 p.lines (cw * 32 + j))
    let payload := ((List.range 32).map (fun j =>
      s.cipherSlot p.keyId (p.owner * 256 + cw * 32 + j) p.gen (Tab.get 0 p.lines (cw * 32 + j)))).foldl (· ++ ·) []
    payload ++ s.spare p cw lines payload
  else
    let slots := (List.range 28).map (fun j => Tab.look p.slots (cw * 28 + j))
    let dir := (slots.map (fun o => match o with
      | some x => natLe 8 (x.line + x.keyId * 2 ^ 44 + 2 ^ 56)
      | none => natLe 8 0)).foldl (· ++ ·) []
    let body := (slots.map (fun o => match o with
      | some x => s.cipherSlot x.keyId x.line p.gen x.data
      | none => natLe 64 0)).foldl (· ++ ·) []
    let payload := natLe 1 (slots.filter (fun o => o.isSome)).length ++ natLe 31 0 ++ dir ++ body
    payload ++ s.spare p cw (slots.map (fun o => match o with
      | some x => x.data
      | none => 0)) payload
/-- Bytes the spec does not lay out: open ones (log entry 81). -/
def State.openDie (s : State) (ppa cw n : Nat) : Bytes := (List.range n).map (fun i => Config.rawByte (2 ^ 40 + ppa * 8 + cw) i s.clk.now)

/-! ## The map, the overlay index and the journal (R208, R214, R217, R218) -/

/-- One byte into a CRC-8 of polynomial 07h. -/
def crc8Byte (c : BitVec 8) (b : Byte) : BitVec 8 :=
  (List.range 8).foldl (fun x _ => if x.getMsbD 0 then (x <<< 1) ^^^ 0x07 else x <<< 1) (c ^^^ b)
/-- A group's state as a GroupState record numbers it: in the order of R202's table. The spec gives no codes (log entry 120). -/
def groupCode : GSt → Nat
  | .free => 0
  | .opened => 1
  | .closing => 2
  | .closed => 3
  | .stale => 4
  | .resetting => 5
  | .slot => 6
  | .retired => 7
/-- Type and payload of a journal record (R218). -/
def JRec.body (r : JRec) : Nat × Bytes :=
  match r with
  | .mapSet g e => (1, natLe 5 g ++ natLe 5 e.word)
  | .logPage ppa => (2, natLe 5 ppa ++ natLe 5 0)
  | .groupState g st c n => (3, natLe 4 g ++ natLe 1 (groupCode st) ++ natLe 1 (c.getD 255) ++ natLe 2 n ++ natLe 2 0)
  | .linePoison l on => (4, natLe 6 l ++ natLe 1 (bit on) ++ natLe 3 0)
  | .grainSpan f n st => (5, natLe 5 f ++ natLe 4 n ++ natLe 1 (grainCode st))
  | .divergence f n on => (6, natLe 5 f ++ natLe 4 n ++ natLe 1 (bit on))
  | .lapStart n => (8, natLe 4 n ++ natLe 6 0)
  | .lapEnd n root => (9, natLe 4 n ++ natLe 5 root ++ natLe 1 0)
/-- A journal record of 16 bytes with its Check and Sequence (R217). -/
def JRec.bytes (seq : Nat) (r : JRec) : Bytes :=
  let b := r.body
  let rest := b.2 ++ natLe 4 seq
  let check := (natLe 1 b.1 ++ rest).foldl crc8Byte 0
  natLe 1 b.1 ++ [check] ++ rest
/-- Records of a journal from one on, with their sequence numbers: the last one of `list` has `seq` − 1. -/
def journalBytesFrom (list : List JRec) (seq start count : Nat) : Bytes :=
  (((list.drop start).take count).zipIdx.map (fun x =>
    JRec.bytes ((seq + 2 ^ 32 - list.length + start + x.2) % 2 ^ 32) x.1)).foldl (· ++ ·) []

/-- The payload of a checkpoint or root page in clear. -/
def Page.payload (p : Page) : Bytes := ((List.range 256).map (fun j => natLe 64 (Tab.get 0 p.lines j).toNat)).foldl (· ++ ·) []
/-- A codeword of a page whose payload is encrypted under the metadata key (R192). -/
def State.metaCodeword (s : State) (p : Page) (payload : Bytes) (cw : Nat) : Bytes :=
  let clear := (payload.drop (2048 * cw)).take 2048
  let body := sealUnits s.metaKey (32 * cw) p.gen clear
  body ++ s.spare p cw ((List.range 32).map (fun j => BitVec.ofNat 512 (leNat ((clear.drop (64 * j)).take 64)))) body
/-- A page with a kind, an owner and a generation, for its spare. -/
def barePage (kind owner gen : Nat) : Page :=
  { gen := gen
    kind := kind
    owner := owner
    keyId := 0
    lines := []
    slots := []
    poison := []
    verified := true }
/-! ## Dump pages (R167, R169 to R171) -/

/-- The record stream of some lines: each line's record, and its mask's after a pending one, as line, data, MaskRecord, Poisoned. -/
def recordsOf (ls : List (Nat × DRec)) : List (Nat × Line × Bool × Bool) :=
  (ls.map (fun x => (x.1, x.2.data, false, x.2.poisoned) ::
    (if x.2.pending then [(x.1, BitVec.ofNat 512 x.2.mask.toNat, true, false)] else []))).foldl (· ++ ·) []
/-- A record metadata entry of 80 bits (R170). -/
def recordMeta (r : Nat × Line × Bool × Bool) : Bytes :=
  natLe 10 (r.1 + bit r.2.2.2 * 2 ^ 41 + bit r.2.2.1 * 2 ^ 42 + (lineCrc r.2.1).toNat * 2 ^ 48)
/-- The records of line-record page n of an image. -/
def Image.pageRecords (i : Image) (n : Nat) : List (Nat × Line × Bool × Bool) :=
  ((recordsOf i.lines).drop (220 * (n - i.journalPages))).take 220
/-- The header of a dump page (R169). -/
def Image.header (i : Image) (n : Nat) : Bytes :=
  let kind := if n < i.journalPages then 1 else if n + 1 < i.pages then 2 else 3
  let h := natLe 2 kind ++ natLe 2 (if kind = 2 then (i.pageRecords n).length else 0) ++ natLe 4 i.number ++ natLe 8 (i.gen + n) ++
    natLe 4 n ++ natLe 4 0 ++ natLe 8 i.started ++ natLe 28 0
  h ++ natLe 4 (crc32 h).toNat
/-- The digest in the seal: SHA-256 over the headers of the other pages in order (R171). -/
def Image.digest (i : Image) : BitVec 256 :=
  let hs := ((List.range (i.pages - 1)).map i.header).foldl (· ++ ·) []
  Config.sha256 (leNat hs) hs.length
/-- A dump page after its header, encrypted (R167, R169): journal and seal payloads and record metadata under the metadata key, lines
under the data key. An unfilled record slot is encrypted too: DESIGN CHOICE, it holds 64 bytes of 0 under line index 0; the spec gives it no
content (log entry 143). The seal's fields have no offsets in the spec: its payload's bytes are open. -/
def State.dumpBody (s : State) (i : Image) (n : Nat) : Bytes :=
  let gen := i.gen + n
  if n < i.journalPages then
    let b := journalBytesFrom i.journal i.seq (1020 * n) 1020
    sealUnits s.metaKey 1 gen (b ++ natLe (16320 - b.length) 0)
  else if n + 1 < i.pages then
    let rs := i.pageRecords n
    let m := (rs.map recordMeta).foldl (· ++ ·) []
    sealUnits s.metaKey 1 gen (m ++ natLe (2240 - m.length) 0) ++
      (rs.map (fun r => sealUnit (s.dumpKey i.place) r.1 gen r.2.1)).foldl (· ++ ·) [] ++
      ((List.range (220 - rs.length)).map (fun _ => sealUnit (s.dumpKey i.place) 0 gen 0)).foldl (· ++ ·) []
  else (List.range 16320).map (fun k => Config.rawByte (2 ^ 43 + i.number) k (leNat (natLe 32 i.digest.toNat)))
/-- The image page at a place in one-bit mode (R165, log entry 17): an image and its page. -/
def State.dumpPageAt (s : State) (ppa : Nat) : Option (Image × Nat) :=
  s.dump.images.findSome? (fun i =>
    match i.groups.findIdx? (fun g => decide (g = ppaGroup ppa)) with
    | none => none
    | some k =>
      match (dataChannels {} (ppaGroup ppa) (ppaPage ppa)).findIdx? (fun c => decide (c = ppaCh ppa)) with
      | some c =>
        let n := i.stripeAt k (ppaPage ppa) * 15 + c
        if ppaPage ppa < 1024 ∧ n < i.pages ∧ (i.sealed ∨ n + 1 < i.pages) then some (i, n) else none
      | none => none)
/-- The image stripe whose XOR page lies at a place (R165, R168): the stripe parity of the pages before the seal. -/
def State.dumpXorAt (s : State) (ppa : Nat) : Option (Image × Nat) :=
  s.dump.images.findSome? (fun i =>
    match i.groups.findIdx? (fun g => decide (g = ppaGroup ppa)) with
    | none => none
    | some k =>
      let n := i.stripeAt k (ppaPage ppa)
      if ppaPage ppa < 1024 ∧ n * 15 + 1 < i.pages ∧ xorChannel {} (ppaGroup ppa) (ppaPage ppa) = ppaCh ppa then some (i, n) else none)
/-- A codeword of a dump page: kind 05h, PoisonMask and check units 0 (R191). -/
def State.dumpCodeword (s : State) (i : Image) (n cw : Nat) : Bytes :=
  let payload := ((i.header n ++ s.dumpBody i n).drop (2048 * cw)).take 2048
  payload ++ spareBytes (barePage 5 0 (i.gen + n)) cw (natLe 128 0) payload
/-- Two byte strings, byte by byte. -/
def xorBytes (a b : Bytes) : Bytes := (a.zip b).map (fun x => x.1 ^^^ x.2)
/-- A codeword of the XOR page of an image's stripe (R165, R168). -/
def State.dumpXor (s : State) (i : Image) (stripe cw : Nat) : Bytes :=
  ((List.range 15).filter (fun k => decide (15 * stripe + k + 1 < i.pages))).foldl (fun b k =>
    xorBytes b (s.dumpCodeword i (15 * stripe + k) cw)) (natLe 2304 0)

/-! ## What a die returns (R195, R545) -/

/-- The 2,304 bytes of a codeword of a data page, as R190 and the rules of its kind lay it out; open bytes where no page is. -/
def State.dataBytes (s : State) (ppa cw : Nat) : Bytes :=
  match s.page? ppa with
  | some p =>
    if p.kind = 1 ∨ p.kind = 2 then s.codeword p cw
    else s.metaCodeword p p.payload cw
  | none =>
    match s.dumpPageAt ppa with
    | some (i, n) => s.dumpCodeword i n cw
    | none =>
      match s.dumpXorAt ppa with
      | some (i, n) => s.dumpXor i n cw
      | none => s.openDie ppa cw 2304
/-- The XOR of a codeword of a stripe's programmed data pages: what its XOR page or stripe accumulator holds (R195, R198). -/
def State.stripeXor (s : State) (g page cw : Nat) : Bytes :=
  ((dataChannels (s.grp g) g page).filter (fun c => s.programmedAt (groupPpa g c page))).foldl (fun b c =>
    xorBytes b (s.dataBytes (groupPpa g c page) cw)) (natLe 2304 0)
/-- The column accumulator of an open group (R198): the XOR of a codeword of every page its column has programmed. -/
def State.columnXor (s : State) (g c cw : Nat) : Bytes :=
  ((s.media.pages.filter (fun kp => decide (ppaGroup kp.1 = g) && decide (ppaCh kp.1 = c) && s.programmedAt kp.1)).map (fun kp =>
    kp.1)).foldl (fun b q => xorBytes b (match s.page? q with
      | some p => if p.kind = 0 then s.stripeXor g (ppaPage q) cw else s.dataBytes q cw
      | none => natLe 2304 0)) (natLe 2304 0)
/-- The 2,304 bytes a die returns of a codeword (R545). -/
def State.dieBytes (s : State) (ppa cw : Nat) : Bytes :=
  match s.page? ppa with
  | some p => if p.kind = 0 then s.stripeXor (ppaGroup ppa) (ppaPage ppa) cw else s.dataBytes ppa cw
  | none => s.dataBytes ppa cw

end Sys2Proof.Machine
end

