-- ==== Sys2Proof/Machine/Values.lean ====
section
/-!
DEFINITION. What a read of a dictionary entry returns (the entry rules of every chapter: R48, R91, R100, R106, R137, R182,
R229, R230, R278, R279, R306, R354 to R356, R383 to R387, R420 to R426, R455 to R457, R485, R490 to R497, R509 to R524, R536
to R545, R561): scalars as numbers, strings and domains as bytes.
-/
namespace Sys2Proof.Machine

/-! ## Packed forms -/

/-- The packed form of a range entry (R92). -/
def Range.packed (r : Range) : Bytes :=
  natLe 8 r.base ++ natLe 8 r.size ++ natLe 1 r.group ++ natLe 1 r.cls ++ natLe 1 r.policy ++ natLe 1 r.kind
  ++ natLe 2 r.keyId ++ natLe 1 r.rank ++ natLe 9 0
/-- The rights words of the eight internal masters (R105). -/
def masterRights : Bytes :=
  ([0x3C, 0x2C, 0xAD, 0x05, 0x6F, 0x2C, 0xD4, 0].map (fun w => natLe 2 w)).foldl (· ++ ·) []
/-- MasterRights of a partner entry (R106). -/
def rightsOf (n : Nat) : Bytes := if n = 4095 then masterRights else natLe 16 0
/-- The packed form of a partner entry (R107). -/
def Partner.packed (p : Partner) (n : Nat) : Bytes :=
  natLe 2 (p.key + (if p.valid then 32768 else 0)) ++ natLe 1 p.caps ++ natLe 1 p.scope ++ natLe 4 0
  ++ natLe 32 p.reads.toNat ++ natLe 32 p.writes.toNat ++ rightsOf n ++ natLe 8 0
/-- The 32 bytes of an event-pail entry (R519). -/
def Event.bytes (e : Event) : Bytes :=
  natLe 2 e.code ++ natLe 1 e.severity ++ natLe 1 0 ++ natLe 2 e.entry ++ natLe 2 0 ++ natLe 4 e.seq ++ natLe 4 0
  ++ natLe 8 e.stamp ++ natLe 8 e.param
/-- The payload of a Firkin record (R513). -/
def FirkRec.payload (r : FirkRec) : Bytes :=
  natLe 1 r.kind ++ natLe 1 r.flags ++ natLe 2 r.duration ++ natLe 4 r.period ++ natLe 8 r.start
  ++ ((List.range 16).map (fun b => natLe 6 (Tab.get 0 r.bins b))).foldl (· ++ ·) [] ++ natLe 4 r.minimum ++ natLe 4 r.maximum
/-- A payload with its Sequence and CRC (R486). -/
def twinBytes (payload : Bytes) (seq : Nat) : Bytes :=
  let p := payload ++ natLe 4 (seq % 2 ^ 32)
  p ++ natLe 4 (crc32 p).toNat
/-- A Firkin record in force with its Sequence and CRC; a position never written or lost has a payload of zeros (R513,
R514). -/
def State.firkinCopy (s : State) (p : Nat) : Bytes :=
  match Tab.look s.firkin.area p with
  | some r => twinBytes r.payload (Config.twinSeq 5 p + r.writes)
  | none => twinBytes (natLe 120 0) (Config.twinSeq 5 p)
/-- The other copy of a Firkin position. -/
def State.firkinOther (s : State) (p : Nat) : Bytes :=
  match Tab.look s.firkin.older p, Tab.look s.firkin.area p with
  | some o, some r => if o.kind = 0 then twinBytes (natLe 120 0) (Config.twinSeq 5 p)
      else twinBytes o.payload (Config.twinSeq 5 p + r.writes - 1)
  | _, _ => twinBytes (natLe 120 0) (Config.twinSeq 5 p)
/-- The copy in force is copy B (R487): writes alternate between the copies. -/
def State.firkinSide (s : State) (p : Nat) : Bool :=
  let n := (Tab.get ({} : FirkRec) s.firkin.area p).writes
  if Config.twinFirst 5 p then decide (n % 2 = 1) else decide (n % 2 = 0)
/-- The open record of a kind as it stands (R517). -/
def State.openRecord (s : State) (k : Nat) : FirkRec :=
  { Tab.get ({} : FirkRec) s.firkin.opened k with
    kind := k
    duration := min 65535 s.firkinAge
    period := s.firkin.period
    start := s.firkin.startStamp }

/-! ## Counts -/

/-- Groups in one of some states. -/
def State.groupsIn (s : State) (sts : List GSt) : Nat :=
  (s.media.groups.filter (fun kg => decide (kg.2.st ∈ sts) && !s.slotGroup kg.1)).length
/-- The mean erase count of the blocks in service, rounded down (R278): a group's present blocks share its count. -/
def State.eraseMean (s : State) : Nat :=
  let on := s.media.groups.filter (fun kg => decide (kg.2.st ≠ .retired) && !s.slotGroup kg.1)
  let sum := (on.map (fun kg => kg.2.erase * (presentCols (s.grp kg.1)).length)).foldl (· + ·) 0
  let absent := ((List.range s.ident.variant.groups).filter (fun g => !s.slotGroup g && decide ((s.grp g).st ≠ .retired) &&
    (s.grp g).absentCol.isSome)).length
  sum / max 1 (16 * s.inService - absent)
/-- Erase counts of the groups in service that have any (R278). -/
def State.eraseCounts (s : State) : List Nat :=
  (s.media.groups.filter (fun kg => decide (kg.2.st ≠ .retired) && !s.slotGroup kg.1)).map (fun kg => kg.2.erase)
/-- Grains in a state other than unwritten (R85). -/
def State.grainsIn (s : State) (st : GrainSt) : Nat := (s.map.entries.filter (fun kv => decide (kv.2.st = st))).length
/-- Units of every type (R222): map, overlay, divergence, block metadata and the directory of them. -/
def unitCount (v : Variant) : Nat :=
  mapUnits v + overlayUnits v + divUnits v + metaUnits v + dirUnits v
/-- Enabled ranges bound to a key ID (R421). -/
def State.boundRanges (s : State) (id : Nat) : Nat :=
  (s.tabs.ranges.filter (fun kr => decide (kr.2.size ≠ 0) && decide (kr.2.keyId = id))).length
/-- The state of a range (R91). -/
def State.rangeState (s : State) (r : Nat) : Nat :=
  let x := s.range r
  if x.size = 0 then 0 else if x.kind = 1 then 2 else if s.tabs.rekeying.contains r then 3 else 1
/-- WindowRange of a group (R100). -/
def State.windowOf (s : State) (g : Nat) : Nat :=
  match s.tabs.ranges.find? (fun kr => decide (kr.2.kind = 1) && decide (kr.2.size ≠ 0) && decide (kr.2.group = g)) with
  | some (r, _) => r
  | none => 0xFFFF
/-- HostPacing (R447, R456): the cause whose limit in GB/s is lowest, the higher code of two equal ones. -/
def State.hostPacing (s : State) : Nat :=
  let budget := if s.port.pacing then [(128 * s.port.pacePct, 1)] else []
  let ctrl := if s.inStep 96 2 then [(5000, 2)] else []
  let dram := if (List.range 8).any (fun c => s.inStep (97 + c) 2) then [(7500, 3)] else []
  ((budget ++ ctrl ++ dram).foldl (fun (b : Nat × Nat) x =>
    if b.2 = 0 ∨ x.1 < b.1 ∨ (x.1 = b.1 ∧ b.2 < x.2) then x else b) (0, 0)).2
/-- Bytes staged by a role and their entries in staging order (R472). -/
def State.batchOf (s : State) (r : Role) : List StageRec :=
  (s.dict.batches.filter (fun b => decide (b.1 = r))).map (fun b => b.2)
/-- Staged subentries a record stands for: a Packed form is one (R472's example). -/
def State.stagedBytes (s : State) (r : Role) : Nat := ((s.batchOf r).map (fun b => b.value.length)).foldl (· + ·) 0
/-- Control of 1200h (R496). -/
def State.commitControl (s : State) (r : Role) : Nat :=
  match s.dict.pair with
  | some p => if p.role = r then 2
      else if s.dict.commitWait.any (fun q => decide (q.role = r)) then 2
      else if !(s.batchOf r).isEmpty then 1 else Tab.get 0 s.dict.commitSt (roleNum r)
  | none => if !(s.batchOf r).isEmpty then 1 else Tab.get 0 s.dict.commitSt (roleNum r)
/-- The password of an area and kind is set; one whose record was lost stays set to what nothing matches (R488). -/
def State.passwordSet (s : State) (area kind : Nat) : Bool :=
  (Tab.look s.dict.passwords (area * 2 + kind)).isSome || s.dict.dead.contains (area * 2 + kind)
/-- A role has presented a password (R481). -/
def State.hasPresented (s : State) (r : Role) (area kind : Nat) : Bool :=
  Tab.get false s.dict.presented (roleNum r * 16 + kind * 8 + area)
/-- The events a role sees (R522). -/
def State.visible (s : State) (w : Who) : List Event :=
  match s.role w, s.whoEntry w with
  | .partner, some n => s.obs.pail.filter (fun e => decide (e.entry = n) || decide (e.entry = 0xFFFF))
  | _, _ => s.obs.pail
/-- A byte of a firmware slot; what an erased slot holds is left open (R536). -/
def FwSlot.byteAt (f : FwSlot) (i : Nat) : Byte :=
  match f.chunks.find? (fun kv => decide (kv.1 ≤ i) && decide (i < kv.1 + kv.2.length)) with
  | some (k, v) => v.getD (i - k) 0
  | none => Config.rawByte 8 i 0
/-- Version field of a slot's image (R413). -/
def FwSlot.versionBytes (f : FwSlot) : Bytes := natLe 8 f.version

/-! ## Measurement registers (R416, R417) -/

/-- SHA-256 of a byte string. -/
def sha (bs : Bytes) : Bytes := natLe 32 (Config.sha256 (leNat bs) bs.length).toNat
/-- The header of a firmware slot: its first 7,984 bytes (R413), none of a slot that holds no image. -/
def FwSlot.header (f : FwSlot) : Bytes := (List.range 7984).map (fun i => f.byteAt i)
/-- KeyCheck of a record, 0 when its key is destroyed (R407, R408). -/
def KeyRec.check (k : KeyRec) : BitVec 32 := if k.st = 0 then 0 else Config.keyCheck k.material
/-- What a register measures, serialised: tables in their packed forms in order of entry. -/
def State.measured (s : State) (reg : Nat) : Bytes :=
  let cat := fun (l : List Bytes) => l.foldl (· ++ ·) []
  if reg = 1 then (if s.fw.current = 0 then s.fw.slot0 else s.fw.slot1).header
  else if reg = 2 then natLe 1 s.fw.counter ++ s.fw.slot0.header ++ s.fw.slot1.header
  else if reg = 3 then cat (s.tabs.partners.map (fun kp => natLe 2 kp.1 ++ kp.2.packed kp.1))
  else if reg = 4 then cat (s.tabs.ranges.map (fun kr => natLe 2 kr.1 ++ kr.2.packed)) ++
    cat (s.tabs.targets.map (fun kt => natLe 1 kt.1 ++ natLe 8 kt.2))
  else if reg = 5 then cat (s.keys.recs.map (fun kk => natLe 2 kk.1 ++ natLe 1 kk.2.st ++ natLe 1 (bit kk.2.imported) ++
    natLe 8 kk.2.base ++ natLe 4 (kk.2.check).toNat))
  else if reg = 6 then (s.partner 4094).packed 4094
  else natLe 4 s.yoke.record.pairEpoch ++ natLe 4 s.yoke.record.baseEpoch ++ natLe 1 s.yoke.record.lastRole ++
    natLe 1 (bit s.yoke.record.staleSelf) ++ natLe 8 s.yoke.record.peerSerial
/-- The digest of a register. -/
def State.register (s : State) (reg : Nat) : Bytes :=
  if reg = 0 then natLe 32 Config.bootDigest.toNat else sha (s.measured reg)
/-- The attestation object (R417) for a nonce. -/
def State.attestation (s : State) (nonce : Nat) : Bytes :=
  let regs := ((List.range 8).map (fun n => natLe 1 n ++ natLe 3 0 ++ natLe 4 (Tab.get 0 s.keys.changes n) ++ natLe 8 0 ++
    s.register n)).foldl (· ++ ·) []
  let body := [0x53, 0x43, 0x41, 0x54] ++ natLe 2 1 ++ natLe 2 8 ++ natLe 8 s.ident.serial ++ natLe 8 s.clk.stamp ++
    natLe 4 s.fw.counter ++ natLe 4 0 ++ natLe 32 nonce ++ regs
  body ++ natLe 7856 (Config.signature (leNat body)).toNat

/-- The data of A040h for a source and address (R545). -/
def State.readBack (s : State) (source addr : Nat) : Bytes :=
  if source ≤ 1 then s.dieBytes (bits addr 33 0) (bits addr 36 34)
  else if source = 2 then natLe 5 (s.mapEntry addr).word
  else (List.range 1280).map (fun i => BitVec.ofNat 8 ((List.range 8).foldl (fun v b =>
    v + (if s.marked (addr * 10240 + i * 8 + b) then 2 ^ b else 0)) 0))

/-! ## Parameter memory (R484, R485) -/

/-- The sizes of the areas in KiB (R484). -/
def areaKib (a : Nat) : Nat := [96, 1024, 800, 1440, 96, 256, 256, 128].getD a 0
/-- The name of an area (R485). -/
def areaName (a : Nat) : String := ["IDENTITY", "CONFIG", "KEYSTORE", "RIPENING", "STATE", "FIRKIN", "COMMITLOG", "USER"].getD a ""
/-- A text as a STRING(n) value: its bytes and zeros after them (R13). -/
def padText (n : Nat) (b : Bytes) : Bytes := (b ++ natLe n 0).take n
/-- A string as a STRING(n) value. -/
def strBytes (n : Nat) (x : String) : Bytes := padText n (x.toList.map (fun c => BitVec.ofNat 8 c.toNat))
/-- One byte of an area (R485, R514): the user area as written, the Firkin's copies, other records open. -/
def State.areaByteAt (s : State) (a off : Nat) : Byte :=
  if a = 7 then Tab.get 0 s.dict.user off
  else if a = 5 ∧ off % 131072 / 128 < 960 then
    let p := off % 131072 / 128
    let copyB := decide (131072 ≤ off)
    (if s.firkinSide p = copyB then s.firkinCopy p else s.firkinOther p).getD (off % 128) 0
  else Config.rawByte a off s.clk.now

/-! ## Scalars -/

/-- A range subentry (R91). -/
def State.rangeField (s : State) (r sub : Nat) : Nat :=
  let x := s.range r
  match sub with
  | 1 => x.base
  | 2 => x.size
  | 3 => x.group
  | 4 => x.cls
  | 5 => x.policy
  | 6 => x.keyId
  | 7 => x.kind
  | 8 => x.rank
  | 9 => s.rangeState r
  | _ => leNat x.packed
/-- A partner subentry (R106). -/
def State.partnerField (s : State) (n sub : Nat) : Nat :=
  let p := s.partner n
  match sub with
  | 1 => bit p.valid
  | 2 => p.key
  | 3 => p.caps
  | 4 => p.scope
  | 5 => p.reads.toNat
  | 6 => p.writes.toNat
  | 7 => leNat (rightsOf n)
  | _ => leNat (p.packed n)

/-- Identity, network and commit scalars (R490 to R497). -/
def State.valueId (s : State) (w : Who) (i sub : Nat) : Nat :=
  let v := s.ident.variant
  let r := s.role w
  match i, sub with
  | 0x1000, 1 => Config.vendorId.toNat
  | 0x1000, 2 => v.deviceId
  | 0x1000, 4 => s.ident.serial
  | 0x1000, 7 => v.capacity
  | 0x1000, 8 => v.pick 48 96 192 * 2 ^ 40
  | 0x1000, 9 => v.dies
  | 0x1000, 10 => s.ident.manufactureTime
  | 0x1000, 12 => s.compat
  | 0x1100, 1 => if !s.fieldUp then 0 else if s.dict.i3c ≠ 0 then 1 else 2
  | 0x1100, 2 => Tab.get 0 s.dict.eids 0
  | 0x1100, 3 => s.dict.i3c
  | 0x1100, 5 => s.dict.served
  | 0x1101, 1 => Tab.get 0 s.dict.eids 1
  | 0x1101, 3 => (List.range 8).foldl (fun m n => m + (if (Tab.get ({} : Note) s.obs.notes n).pending then 2 ^ n else 0)) 0
  | 0x1101, 4 => s.obs.resends
  | 0x1120, 2 => (List.range 16).foldl (fun m b => m + (if s.hasPresented r (b % 8) (b / 8) then 2 ^ b else 0)) 0
  | 0x1200, 1 => s.commitControl r
  | 0x1200, 2 => (s.batchOf r).length
  | 0x1200, 3 => s.stagedBytes r
  | 0x1200, 4 => s.dict.lastBatch
  | 0x1200, 5 => Tab.get 0 s.dict.abortCode (roleNum r)
  | 0x1200, 6 => Tab.get 0 s.dict.abortEntry (roleNum r)
  | 0x1201, 1 => s.dict.restored
  | _, _ => bit (s.passwordSet (i - 0x1110) 0) + 2 * bit (s.passwordSet (i - 0x1110) 1)

/-- Configuration-chapter read-only scalars (R274, R277, R383, R385, R453, R454). -/
def State.valueCfg (s : State) (r : Role) (i sub : Nat) : Nat :=
  let cell := Tab.get ({} : Cell) s.care.cells
    (cellKey (s.selector r 0x2212 1) (s.selector r 0x2212 2) (s.selector r 0x2212 3))
  if 0x2120 ≤ i ∧ i ≤ 0x2123 then (if sub = 4 then s.ctl i else s.val i sub)
  else if 0x2300 ≤ i ∧ i ≤ 0x230F then
    (match sub with
      | 7 => Tab.get 0 s.reg.missCount (i - 0x2300)
      | 8 => Tab.get 0 s.reg.admitted (i - 0x2300)
      | _ => Tab.get 0 s.reg.overShare (i - 0x2300))
  else match i, sub with
    | 0x2020, 3 => 88
    | 0x2020, 6 => 115
    | 0x2020, 7 => 85
    | 0x2020, 8 => 90
    | 0x2020, 9 => 95
    | 0x2110, 1 => s.ident.variant.tierSets
    | 0x2110, 2 => s.ident.variant.tierSets * 256
    | 0x2110, 3 => 65536
    | 0x2130, 6 => s.dram.retrainMask.toNat
    | 0x2212, 5 => cell.samples
    | 0x2212, 6 => cell.lastUpdate
    | 0x2220, 1 => 20000
    | 0x2240, 4 => s.care.lapNumber
    | 0x2240, 5 => s.care.lapTime
    | 0x2240, 6 => 100 * (ppaGroup s.care.lapPage) / s.ident.variant.groups
    | 0x2240, 7 => s.care.dramLapTime
    | _, _ => s.care.dramLaps

/-- Keys, boot and yoke scalars (R354, R355, R420 to R424). -/
def State.valueKeys (s : State) (r : Role) (i sub : Nat) : Nat :=
  let id := s.selector r 0x4001 1
  let k := s.keyRec id
  match i, sub with
  | 0x4000, 2 => (s.keys.recs.filter (fun kv => decide (kv.2.st ≠ 0))).length
  | 0x4000, 3 => 256
  | 0x4002, 1 => k.st
  | 0x4002, 2 => k.base
  | 0x4002, 3 => s.keyPages id
  | 0x4002, 4 => s.boundRanges id
  | 0x4002, 5 => s.keys.cmd
  | 0x4002, 6 => bit k.lost
  | 0x4002, 7 => k.check.toNat
  | 0x4010, 2 => s.ctl 0x4010
  | 0x4020, 2 => s.keys.attest
  | 0x4030, 1 => s.fw.counter
  | 0x4030, 2 => s.fw.current
  | 0x4030, 4 => s.fw.verifyMs
  | 0x4100, 7 => s.ctl 0x4100
  | 0x4101, n => [0, 100, 1000, 20, 1000, 5, 1000, 2000].getD n 0
  | _, _ => 0

/-- Status scalars, 5020h to 5080h (R48, R137, R182, R229, R278, R306). -/
def State.valueStat (s : State) (i sub : Nat) : Nat :=
  let v := s.ident.variant
  match i, sub with
  | 0x5020, 1 => s.port.speed
  | 0x5020, 2 => s.port.width
  | 0x5020, 3 => s.port.attach
  | 0x5020, 4 => s.port.degraded
  | 0x5020, 5 => s.port.unknown
  | 0x5020, 6 => s.port.rights
  | 0x5020, 7 => min 0xFFFFFFFF (((List.range s.port.flits).map Config.flitReplays).foldl (· + ·) 0)
  | 0x5020, _ => s.port.peak
  | 0x5040, 1 => s.rstats.mediaReads
  | 0x5040, 2 => s.rstats.suspends
  | 0x5040, 3 => s.rstats.busyRecon
  | 0x5040, 4 => s.rstats.decodeRecon
  | 0x5040, 5 => s.rstats.soft1
  | 0x5040, 6 => s.rstats.soft2
  | 0x5040, 7 => s.rstats.poisoned
  | 0x5040, 8 => s.rstats.hedgeRecon
  | 0x5040, 9 => s.rstats.hedgeDirect
  | 0x5040, 10 => s.rstats.pfIssued
  | 0x5040, 11 => s.rstats.pfDropped
  | 0x5040, 12 => s.rstats.overBound
  | 0x5040, 13 => s.rstats.softShare
  | 0x5040, _ => s.rstats.bits.toNat
  | 0x5050, 1 => s.pwr.arm
  | 0x5050, 2 => s.budget.energy
  | 0x5050, 3 => 48000
  | 0x5050, 4 => s.budget.derived
  | 0x5050, 5 => s.dirtyBytes
  | 0x5050, 6 => v.dumpPower
  | 0x5050, 7 => 31300
  | 0x5050, 8 => s.budget.ePerGib
  | 0x5050, 9 => s.budget.dumps
  | 0x5050, 10 => s.budget.incomplete
  | 0x5050, 11 => s.budget.lastBytes
  | 0x5050, 12 => s.budget.lastDuration
  | 0x5050, 13 => s.budget.lastDrop
  | 0x5050, 14 => s.budget.rewrites
  | 0x5050, 15 => s.budget.appended
  | 0x5050, 16 => s.budget.merges
  | 0x5050, 17 => s.budget.mergesPoisoned
  | 0x5050, _ => s.budget.ackWrites
  | 0x5060, 1 => s.freeGroups
  | 0x5060, 2 => s.groupsIn [.opened, .closing]
  | 0x5060, 3 => s.groupsIn [.closed]
  | 0x5060, 4 => s.groupsIn [.stale, .resetting]
  | 0x5060, 5 => v.slotGroups
  | 0x5060, 6 => s.groupsIn [.retired]
  | 0x5060, 7 => ((List.range v.groups).filter (fun g => !s.slotGroup g && decide ((s.grp g).st ≠ .retired) &&
      (s.grp g).absentCol.isSome && !(s.grp g).second)).length
  | 0x5060, 8 => s.media.rebuildPhase
  | 0x5060, 9 => if s.media.rebuildPhase = 0 then 0 else s.rebuildPages.length * 16384
  | 0x5060, 10 => s.liveLogged
  | 0x5060, 11 => (s.media.groups.filter (fun kg => decide (kg.2.kind = .log) &&
      decide (kg.2.st ∉ [GSt.free, .retired]))).length * 2 ^ 30
  | 0x5060, 12 => s.map.ckpt.lap
  | 0x5060, 13 => (s.clk.now - s.map.ckpt.started) / sec
  | 0x5060, 14 => s.journalBytes
  | 0x5060, 15 => if s.map.resident then 100 else min 99 (100 * s.map.paged.length / unitCount v)
  | 0x5060, 16 => s.shadowSpill
  | 0x5060, 17 => s.media.gen
  | 0x5060, _ => s.media.relocations
  | 0x5070, 1 => s.reserveLeft
  | 0x5070, 2 => v.reserve
  | 0x5070, 3 => s.reservePct
  | 0x5070, 4 => s.care.brine
  | 0x5070, 5 => s.care.brineDropped
  | 0x5070, 6 => if s.care.skim = 3 ∧ (s.care.copySets = [] ∨ s.clk.now < s.port.lastHostReq + 100000000) then 0 else s.care.skim
  | 0x5070, 7 => s.available.toNat
  | 0x5070, 8 => s.care.skimmed
  | 0x5070, 9 => s.care.skimBytes
  | 0x5070, 10 => s.care.folded
  | 0x5070, 11 => s.care.repoured
  | 0x5070, 12 => (s.media.groups.filter (fun kg => s.repourDue kg.1)).length
  | 0x5070, 13 => if s.eraseCounts.length < s.inService then 0 else s.eraseCounts.foldl min (s.eraseCounts.headD 0)
  | 0x5070, 14 => s.eraseMean
  | 0x5070, 15 => s.eraseCounts.foldl max 0
  | 0x5070, 16 => s.writeAmp
  | 0x5070, 17 => s.care.redone
  | 0x5070, 18 => v.grains - s.map.entries.length + s.grainsIn .unwritten
  | 0x5070, 19 => s.grainsIn .mapped
  | 0x5070, 20 => s.grainsIn .zero
  | 0x5070, _ => s.grainsIn .discarded
  | 0x5080, 1 => s.atom.reads
  | 0x5080, 2 => s.atom.writes
  | 0x5080, 3 => s.atom.stored
  | 0x5080, 4 => s.atom.intervened
  | 0x5080, 5 => s.atom.conflict
  | 0x5080, 6 => s.atom.lost
  | 0x5080, 7 => s.atom.other
  | _, _ => s.atom.res.length

/-- Status scalars, 5090h to 50D0h (R356, R386, R387, R455 to R457, R561). -/
def State.valueStat2 (s : State) (i sub : Nat) : Nat :=
  match i, sub with
  | 0x5090, 1 => s.yoke.member
  | 0x5090, 2 => bit s.senior
  | 0x5090, 3 => s.position
  | 0x5090, 4 => s.yoke.record.peerSerial
  | 0x5090, 5 => s.yoke.speed
  | 0x5090, 6 => s.yoke.width
  | 0x5090, 7 => s.yoke.wire
  | 0x5090, 8 => s.routeSeen
  | 0x5090, 9 => s.yoke.record.pairEpoch
  | 0x5090, 10 => s.yoke.record.baseEpoch
  | 0x5090, 11 => s.yoke.record.lastRole
  | 0x5090, 12 => s.yoke.joinBlock
  | 0x5090, 13 => s.divergentCount
  | 0x5090, 14 => s.yoke.copied
  | 0x5090, 15 => s.yoke.frameReplays
  | 0x5090, _ => s.yoke.mirrored * 64
  | 0x50A0, 1 => (s.fc.lines.filter (fun kx => decide (kx.2.st ≠ .unmodified))).length
  | 0x50A0, 2 => (s.fc.lines.filter (fun kx => kx.2.locked)).length
  | 0x50A0, 3 => s.fc.hits
  | 0x50A0, 4 => s.fc.misses
  | 0x50A0, 5 => s.fc.parityClean
  | 0x50A0, 6 => s.tier.sectors.length
  | 0x50A0, 7 => (s.tier.sectors.filter (fun kx => decide (kx.2.st ≠ []))).length
  | 0x50A0, 8 => s.tier.hits
  | 0x50A0, 9 => s.tier.missCount
  | 0x50A0, 10 => s.tier.tagCacheHits
  | 0x50A0, 11 => s.tier.fillsSkipped
  | 0x50A0, 12 => s.tier.refetches
  | 0x50A0, _ => s.tier.tagRepairs
  | 0x50A1, 3 => s.dram.uncorrectable
  | 0x50A1, 4 => s.dram.rowPct
  | 0x50A1, 5 => s.dram.refreshes
  | 0x50A1, 6 => s.dram.trainMs
  | 0x50A1, 7 => s.dram.trainSource.toNat
  | 0x50A1, _ => s.dram.retrainings
  | 0x50C0, 1 => bit s.reg.oversub
  | 0x50C0, 2 => s.reg.deliverRead
  | 0x50C0, 3 => s.reg.deliverWrite
  | 0x50C0, 4 => s.shareSum 1
  | 0x50C0, 5 => s.shareSum 2
  | 0x50C0, 6 => s.reg.readScale
  | 0x50C0, _ => s.reg.writeScale
  | 0x50C1, 1 => s.reg.inputPower
  | 0x50C1, 2 => s.reg.baseDraw
  | 0x50C1, 3 => s.pool
  | 0x50C1, 4 => s.grantedQ
  | 0x50C1, 5 => s.reg.waiting.length
  | 0x50C1, 6 => (s.media.ops.filter (fun kv => !kv.2.isReset)).length
  | 0x50C1, 7 => s.reg.peakPower
  | 0x50C1, 8 => s.hostPacing
  | 0x50C1, _ => s.reg.delayed
  | 0x50C2, _ => bit s.pwr.critLatch
  | 0x50D0, 3 => s.bank.charge
  | 0x50D0, 4 => s.bank.volts
  | 0x50D0, 5 => s.bank.charger
  | 0x50D0, 6 => bit s.yoke.cable
  | 0x50D0, 7 => 16 * bit s.pwr.smbrst + 8 * bit s.pwr.main + 4 * bit s.pwr.aux + 2 * bit s.pwr.pwrdis + bit s.pwr.perst
  | _, _ => s.clk.unpowered

/-- Counter, Firkin and event-pail scalars (R485, R509, R510, R517, R523). -/
def State.valueObs (s : State) (i sub : Nat) : Nat :=
  let k := (i - 0x6000) * 8
  if i < 0x6FF0 then
    if sub = 1 then Tab.get 0 s.perf.cycles (i - 0x6000)
    else if sub = 2 then Tab.get 0 s.perf.overflow (i - 0x6000)
    else if sub < 0x18 then Tab.get 0 s.perf.select (k + (sub - 0x10))
    else if sub < 0x20 then Tab.get 0 s.perf.value (k + (sub - 0x18))
    else Tab.get 0 s.perf.reload (k + (sub - 0x20))
  else match i, sub with
    | 0x6FF0, 1 => s.perf.snapSt
    | 0x6FF0, _ => s.perf.snapStamp
    | 0x7000, 2 => bit s.firkin.frozen
    | 0x7000, 3 => if s.firkin.frozen then (s.firkin.thawAt - s.clk.now + sec - 1) / sec else 0
    | 0x7000, 4 => s.firkin.period
    | 0x7000, 5 => if (Tab.look s.firkin.area (448 + (s.firkin.roundNext + 511) % 512)).isSome
        then (s.firkin.roundNext + 511) % 512 else 0xFFFF
    | 0x7100, 1 => s.obs.pail.length
    | 0x7100, 3 => bit s.obs.overrun
    | 0x7100, 5 => 0
    | 0x7100, 6 => s.obs.lost
    | 0x7100, 7 => s.obs.nextSeq
    | _, _ => areaKib (i - 0x8000) * 1024

/-- Phase of a secure discard (R266, R268): unmapping while grain changes are outstanding, erasing while marked groups
remain, then the retired dump images, then the peer. The scan of step 1 takes no time here. -/
def State.discardPhase (s : State) : Nat :=
  let j := Tab.get ({} : Job) s.cmds.jobs 0x9010
  if s.ctl 0x9010 ≠ 1 then 0
  else if !j.acks.isEmpty then 1
  else if !j.marked.isEmpty then 3
  else if s.dump.images.any (fun i => i.retired && decide (i.number < j.since)) then 4
  else 5
/-- Command-entry scalars (R110, R259 to R269, R412, R536, R539, R543, R560). DESIGN CHOICE: Remaining of 9060h reads DirtyBytes while the
command is idle too, where R179 gives no value (log entry 127). -/
def State.valueCmd (s : State) (i sub : Nat) : Nat :=
  match i, sub with
  | 0x9050, 3 => s.fw.ctl
  | 0x9050, 4 => s.fw.received
  | 0x9050, 5 => s.fw.result
  | 0x9050, 6 => s.fw.pending
  | 0x9060, 1 => s.ctl 0x9060
  | 0x9060, 2 => s.dirtyBytes
  | 0x9070, 2 => if s.clk.now < s.cmds.identUntil then 1 else 0
  | 0xA000, _ => if s.pwr.test = 0 then s.ctl 0xA000 else s.pwr.test
  | 0x9040, 3 => (s.rekeyLeft (s.entry 0x9040 1)).length * 16384
  | 0x9040, _ => s.ctl 0x9040
  | 0x9020, 4 => s.ctl 0x9020
  | 0x9028, _ => s.ctl 0x9028
  | 0x9010, 5 => s.discardPhase
  | 0x9010, 6 => (Tab.get ({} : Job) s.cmds.jobs 0x9010).marked.length
  | 0x9018, 4 => s.cmds.sweep.length * 16384
  | 0x9018, 5 => s.keys.discarded
  | _, 3 => s.ctl i
  | _, _ => s.val i sub

/-! ## Strings and domains -/

/-- Bytes of the STRING and DOMAIN entries that are computed (the entry rules). -/
def State.blob (s : State) (w : Who) (i sub : Nat) : Option Bytes :=
  let r := s.role w
  let cat := fun (l : List Bytes) => l.foldl (· ++ ·) []
  match i, sub with
  | 0x1000, 3 => some (strBytes 16 s.ident.variant.partNumber)
  | 0x1000, 5 => some (padText 16 s.ident.serialText)
  | 0x1000, 6 => some (strBytes 4 "A1")
  | 0x1000, 11 => some (if s.fw.current = 0 then s.fw.slot0 else s.fw.slot1).versionBytes
  | 0x1001, 1 => some (natLe 32 s.ident.publicKey.toNat)
  | 0x1001, 2 => some s.ident.certificate
  | 0x1001, 3 => some s.ident.certificateChain
  | 0x1200, 7 => some (cat ((s.batchOf r).map (fun x => natLe 4 (x.index * 256 + x.sub))))
  | 0x2212, 4 => some (cat ((s.offsetsOf (cellKey (s.selector r 0x2212 1) (s.selector r 0x2212 2)
      (s.selector r 0x2212 3))).map (fun x => natLe 2 (x % 65536).toNat)))
  | 0x4010, 1 => some (natLe 1568 (Config.encapsulationKey s.keys.encapGen).toNat)
  | 0x4020, 3 => some (natLe 8304 (Tab.get 0 s.keys.objects (roleNum r)))
  | 0x4020, 4 => some (cat ((List.range 8).map (fun k => s.register k)))
  | 0x4030, 3 => some (s.fw.slot0.versionBytes ++ natLe 2 s.fw.slot0.security ++ s.fw.slot1.versionBytes ++
      natLe 2 s.fw.slot1.security)
  | 0x5061, 1 => some ((List.range 768).map (fun d => BitVec.ofNat 8
      (if s.ident.variant.positions ≤ d / 16 then 4 else Tab.get 0 s.media.dieSt d)))
  | 0x5071, 1 => some (cat ((List.range 96).map (fun p => natLe 8 (Tab.get 0 s.care.doses p))))
  | 0x5071, 2 => some (natLe 12 ((List.range s.ident.variant.packages).foldl (fun m p =>
      m + (if s.faulted p then 2 ^ p else 0)) 0))
  | 0x50A1, 1 => some ((List.range 8).map (fun c => BitVec.ofNat 8
      (if s.dram.retrainMask.getLsbD c && decide (firstChannel s.dram.retrainMask = c) &&
        s.reg.granted.any (fun l => decide (l.id = retrainId)) then 1 else 0)))
  | 0x50A1, 2 => some (cat ((List.range 16).map (fun c => natLe 4 (Tab.get 0 s.dram.corrected c))))
  | 0x50B1, 1 => some (cat ((List.range 110).map (fun d => natLe 4 (Tab.get 0 s.gills.level d))))
  | 0x50B1, 2 => some (cat ((List.range 110).map (fun d => natLe 8 (Tab.get 0 s.gills.inputs d))))
  | 0x50B1, 3 => some (cat ((List.range 110).map (fun d => natLe 4 (Tab.get 0 s.gills.overflows d))))
  | 0x50C2, 1 => some (cat ((List.range 168).map (fun c => natLe 2 (s.reading c))))
  | 0x50C2, 2 => some (natLe 21 ((List.range 168).foldl (fun m c => m + (if s.faulted c then 2 ^ c else 0)) 0))
  | 0x50C2, 3 => some ((List.range 105).map (fun z => BitVec.ofNat 8
      (if !(zones s.ident.variant).contains z then 4 else if s.inStep z 2 then 2 else s.zoneSteps z)))
  | 0x50D0, 1 => some (natLe 4 s.bank.capA ++ natLe 4 s.bank.capB)
  | 0x50D0, 2 => some (natLe 1 s.bank.stA ++ natLe 1 s.bank.stB)
  | 0x6FF0, 3 => some (if s.perf.gathered = [] then natLe 4880 0 else s.perf.gathered)
  | 0x7000, 6 => some ((List.range 7).map (fun k => BitVec.ofNat 8 (Tab.get 0 s.firkin.keep (k + 1))))
  | 0x7000, 7 => some (cat ((List.range 7).map (fun k => (s.openRecord (k + 1)).payload)))
  | 0x7001, 4 => some (cat ((List.range (s.selector r 0x7001 3)).map (fun k =>
      s.firkinCopy ((if s.selector r 0x7001 1 = 1 then 448 else 0) + s.selector r 0x7001 2 + k))))
  | 0x7101, 2 => some (cat ((s.obs.pail.take (min (s.selector r 0x7101 1) s.obs.pail.length)).map Event.bytes))
  | 0x7101, 3 => some (cat (((s.visible w).drop ((s.visible w).length - 64)).map Event.bytes))
  | 0x9020, 6 => some (natLe 64 (s.val 0x9020 6))
  | 0xA040, 3 => some (s.readBack (s.selector r 0xA040 1) (s.selector r 0xA040 2))
  | _, _ =>
    if 0x6000 ≤ i ∧ i ≤ 0x603C ∧ sub = 3 then
      let x := Tab.get ({} : Sample) s.perf.samples (i - 0x6000)
      some (natLe 8 x.addr ++ natLe 2 x.entry ++ natLe 1 x.counter ++ natLe 1 0 ++
        natLe 4 x.count ++ natLe 8 x.stamp)
    else if 0x8000 ≤ i ∧ i ≤ 0x8007 then
      if sub = 1 then some (strBytes 16 (areaName (i - 0x8000)))
      else if sub = 5 then some ((List.range (s.selector r i 4)).map (fun k =>
        s.areaByteAt (i - 0x8000) (s.selector r i 3 + k)))
      else none
    else none

/-- The number an entry reads as: its computed value, the selector of the role, or the committed value. -/
def State.scalar (s : State) (w : Who) (row : Row) (i : Nat) : Nat :=
  let sub := row.sub
  let r := s.role w
  if sub = 0 then row.dflt
  else if row.perRole then s.selector r i sub
  else if i = 0x2100 ∧ sub = 1 ∧ s.fastOn then bit s.fc.enabled
  else if 0x2400 ≤ i ∧ i ≤ 0x27FF then s.rangeField (i - 0x2400) sub
  else if 0x2800 ≤ i ∧ i ≤ 0x28FF ∧ sub ≠ 2 then
    (if sub = 1 then s.targetBase (i - 0x2800) else if sub = 3 then s.windowOf (i - 0x2800)
      else (s.tabs.ranges.filter (fun kr => decide (kr.2.size ≠ 0) && decide (kr.2.kind = 0) &&
        decide (kr.2.group = i - 0x2800))).length)
  else if 0x3000 ≤ i ∧ i ≤ 0x3FFF then s.partnerField (i - 0x3000) sub
  else if 0x6000 ≤ i ∧ i ≤ 0x603C then s.valueObs i sub
  else if row.acc.o = .ro ∨ row.acc.o = .cmd then
    if i < 0x2000 then s.valueId w i sub
    else if i < 0x4000 then s.valueCfg r i sub
    else if i < 0x5000 then s.valueKeys r i sub
    else if i < 0x5090 then s.valueStat i sub
    else if i < 0x6000 then s.valueStat2 i sub
    else if i < 0x9000 then s.valueObs i sub
    else s.valueCmd i sub
  else s.entry i sub

/-- The bytes a read of an entry returns. -/
def State.readValue (s : State) (w : Who) (row : Row) (i : Nat) : Bytes :=
  match s.blob w i row.sub with
  | some b => b
  | none => natLe row.ty.most (s.scalar w row i)

end Sys2Proof.Machine
end

