-- ==== Sys2Proof/Machine/Batch.lean ====
section
/-!
DEFINITION. Dictionary values on their way in: the checks of a value's length and encoding (R10, R13, R92, R107, R468),
how a value is stored, the batch of each role (R472), and commits: validation, the pair's exchange, what a commit changes,
and the restore of defaults (R93 to R95, R240, R251, R347, R348, R404, R411, R473 to R476, R483).
-/
namespace Sys2Proof.Machine

/-! ## Kinds of entries -/

/-- The entry of a range. -/
def isRange (i : Nat) : Bool := decide (0x2400 ≤ i) && decide (i ≤ 0x27FF)
/-- The entry of a range group. -/
def isGroup (i : Nat) : Bool := decide (0x2800 ≤ i) && decide (i ≤ 0x28FF)
/-- A partner entry. -/
def isPartner (i : Nat) : Bool := decide (0x3000 ≤ i) && decide (i ≤ 0x3FFF)
/-- A pair-wide entry (R94, R347). -/
def pairWide (r : StageRec) : Bool :=
  isRange r.index || isGroup r.index || isPartner r.index || (decide (r.index = 0x4100) && decide (r.sub = 3))
/-- The Packed form of a range or partner entry. -/
def isPacked (i sub : Nat) : Bool := (isRange i && decide (sub = 10)) || (isPartner i && decide (sub = 8))

/-! ## Length and encoding of a value (R468, checks 7 and 8) -/

/-- Bytes k to k + n − 1 of a value as a number. -/
def field (v : Bytes) (k n : Nat) : Nat := leNat ((v.drop k).take n)

/-- The length of a written value (R468): 0 when it fits, else its abort code. -/
def lengthCode (row : Row) (v : Bytes) : Nat :=
  match row.ty.size with
  | some n => if v.length = n then 0 else 0x03010000
  | none => if v.length ≤ row.ty.most then 0 else 0x03020000
/-- A STRING: printable ASCII, then zeros (R13). -/
def stringOk (v : Bytes) : Bool :=
  let text := v.takeWhile (fun b => decide (b ≠ 0))
  text.all (fun b => decide (32 ≤ b.toNat) && decide (b.toNat ≤ 126)) && (v.drop text.length).all (fun b => decide (b = 0))
/-- The reserved parts of a packed range entry (R92). -/
def rangeCode (v : Bytes) : Nat :=
  if 2 < field v 18 1 ∨ 1 < field v 19 1 ∨ 4095 < field v 20 2 ∨ 3 < field v 22 1 ∨ field v 23 9 ≠ 0 then 0x03040000
  else if 15 < field v 17 1 then 0x03030000
  else 0
/-- The reserved parts of a packed partner entry (R107). -/
def partnerCode (v : Bytes) : Nat :=
  if bits (field v 0 2) 14 12 ≠ 0 ∨ 7 < field v 2 1 ∨ 7 < field v 3 1 ∨ field v 4 4 ≠ 0 ∨ field v 88 8 ≠ 0 then 0x03040000
  else 0
/-- The highest number a counter's event field may select at a block (R503, R504). -/
def lastEvent (block : Nat) : Nat :=
  if block < 32 then 13 else if block < 48 then 10 else if block < 56 then 8 else if block = 56 then 8 else if block = 57 then 7
  else if block = 58 then 5 else if block = 59 then 4 else 6
/-- The encoding of a value (R10, R13, R468): reserved bits and encodings first, then the stated range. -/
def valueCode (row : Row) (i : Nat) (v : Bytes) : Nat :=
  let n := leNat v
  let sel := decide (0x6000 ≤ i) && decide (i ≤ 0x603C) && decide (0x10 ≤ row.sub) && decide (row.sub < 0x18)
  let str := match row.ty with
    | .str _ => !stringOk v
    | _ => false
  let dom := match row.ty with
    | .dom _ => true
    | .domUpTo _ => true
    | _ => false
  if isRange i ∧ row.sub = 10 then rangeCode v
  else if isPartner i ∧ row.sub = 8 then partnerCode v
  else if (decide (row.ty = .bool) && decide (1 < n)) || str then 0x03040000
  else if dom then 0
  else if (BitVec.ofNat 64 n &&& BitVec.ofNat 64 row.resv) ≠ 0 then 0x03040000
  else if sel ∧ lastEvent (i - 0x6000) < bits n 7 0 then 0x03040000
  else if (match row.top with
      | some t => decide (t < n) || decide (n < row.lo)
      | none => false) then 0x03040000
  else if decide (n < row.lo) || (match row.hi with
      | some h => decide (h < n)
      | none => false) || decide (n % row.step ≠ 0) then 0x03030000
  else 0

/-! ## Storing a value -/

/-- A range entry with one subentry, or all of them from Packed, changed (R91, R92). -/
def Range.put (x : Range) (sub : Nat) (v : Bytes) : Range :=
  let n := leNat v
  match sub with
  | 1 => { x with base := n }
  | 2 => { x with size := n }
  | 3 => { x with group := n }
  | 4 => { x with cls := n }
  | 5 => { x with policy := n }
  | 6 => { x with keyId := n }
  | 7 => { x with kind := n }
  | 8 => { x with rank := n }
  | _ =>
    { base := field v 0 8
      size := field v 8 8
      group := field v 16 1
      cls := field v 17 1
      policy := field v 18 1
      keyId := field v 20 2
      kind := field v 19 1
      rank := field v 22 1 }
/-- A partner entry with one subentry, or all of them from Packed, changed (R106, R107). -/
def Partner.put (x : Partner) (sub : Nat) (v : Bytes) : Partner :=
  let n := leNat v
  match sub with
  | 1 => { x with valid := decide (n = 1) }
  | 2 => { x with key := n }
  | 3 => { x with caps := n }
  | 4 => { x with scope := n }
  | 5 => { x with reads := BitVec.ofNat 256 n }
  | 6 => { x with writes := BitVec.ofNat 256 n }
  | _ =>
    { valid := decide (bits (field v 0 2) 15 15 = 1)
      key := bits (field v 0 2) 11 0
      caps := field v 2 1
      scope := field v 3 1
      reads := BitVec.ofNat 256 (field v 8 32)
      writes := BitVec.ofNat 256 (field v 40 32) }
/-- Store a value: in the table it belongs to, or as the entry's committed number; the default is not listed (R16). -/
def State.setEntry (i sub : Nat) (v : Bytes) (s : State) : State :=
  if isRange i then
    s.upTabs (fun t => { t with ranges := Tab.set {} t.ranges (i - 0x2400) ((Tab.get ({} : Range) t.ranges (i - 0x2400)).put sub v) })
  else if isGroup i ∧ sub = 1 then
    s.upTabs (fun t => { t with targets := Tab.set 0 t.targets (i - 0x2800) (leNat v) })
  else if isPartner i then
    s.upTabs (fun t => { t with
      partners := Tab.set {} t.partners (i - 0x3000) ((Tab.get ({} : Partner) t.partners (i - 0x3000)).put sub v) })
  else
    s.upDict (fun d => { d with
      cfg := if leNat v = defaultOf s.ident.variant i sub then Tab.erase d.cfg (i * 256 + sub)
        else Tab.put d.cfg (i * 256 + sub) (leNat v) })
/-- Store the values of a list of records, in their order. -/
def State.setRecs (recs : List StageRec) (s : State) : State := recs.foldl (fun t r => t.setEntry r.index r.sub r.value) s

/-! ## Staging (R92, R472) -/

/-- A staged record that a new one replaces: the same subentry, or, for a Packed form, a subentry of the same entry. -/
def replaces (n o : StageRec) : Bool :=
  decide (o.index = n.index) && (decide (o.sub = n.sub) || isPacked n.index n.sub)
/-- The role's batch with a record staged: in place of the record of the same subentry, else at the end. -/
def stageInto (b : List StageRec) (r : StageRec) : List StageRec :=
  let kept := b.filter (fun o => decide (o.sub = r.sub) || !replaces r o)
  if kept.any (fun o => decide (o.index = r.index) && decide (o.sub = r.sub)) then
    kept.map (fun o => if o.index = r.index ∧ o.sub = r.sub then r else o)
  else kept ++ [r]
/-- A commit of the role's batch runs or waits. -/
def State.committing (s : State) (r : Role) : Bool :=
  (match s.dict.pair with
   | some p => decide (p.role = r)
   | none => false) || s.dict.commitWait.any (fun p => decide (p.role = r))
/-- Stage a value in the role's batch (R472): 04010000h while the role's commit runs, 05020000h past 4,096 subentries or
240 KiB. -/
def State.stage (r : Role) (x : StageRec) (s : State) : Nat × State :=
  let b := stageInto (s.batchOf r) x
  if s.committing r then (0x04010000, s)
  else if 4096 < b.length ∨ 245760 < (b.map (fun y => y.value.length)).foldl (· + ·) 0 then (0x05020000, s)
  else (0, s.setBatch r b)

/-! ## Validation (R93, R240, R251) -/

/-- A range entry fails R93 in the set that would result. -/
def State.rangeFault (t : State) (r : Nat) : Bool :=
  let x := t.range r
  let on := fun (y : Range) => decide (y.size ≠ 0)
  let clash := t.tabs.ranges.any (fun kr => decide (kr.1 ≠ r) && on kr.2 && decide (kr.2.base < x.base + x.size) &&
    decide (x.base < kr.2.base + kr.2.size))
  let window := decide (x.size ≠ 2 ^ 30) || decide (x.base % 2 ^ 30 ≠ 0) ||
    t.tabs.ranges.any (fun kr => decide (kr.1 ≠ r) && on kr.2 && decide (kr.2.kind = 1) && decide (kr.2.group = x.group)) ||
    t.map.entries.any (fun kv => decide (kv.2.st = .mapped) && x.covers (kv.1 * 16384))
  decide (x.base % 16384 ≠ 0) || decide (x.size % 16384 ≠ 0) || decide (t.ident.variant.capacity < x.base + x.size) ||
    (on x && (clash || decide ((t.keyRec x.keyId).st = 0) || (decide (x.kind = 1) && window)))
/-- A range group fails R93. -/
def State.groupFault (t : State) (g : Nat) : Bool :=
  decide (t.targetBase g % 2 ^ 30 ≠ 0) || decide (t.ident.variant.capacity ≤ t.targetBase g)
/-- A partner entry fails R93. -/
def State.partnerFault (t : State) (n : Nat) : Bool :=
  let x := Tab.get ({} : Partner) t.tabs.partners n
  (x.valid && decide (n < 4095) &&
      t.tabs.partners.any (fun kp => decide (kp.1 ≠ n) && decide (kp.1 < 4095) && kp.2.valid && decide (kp.2.key = x.key)))
    || (decide (n ≠ 4094) && decide (x.scope ≠ 0))
/-- An entry of a staged record fails in the resulting set: its encoding, the tables' rules, the weights and thresholds of
skimming (R240), the order of the dose bounds (R251). -/
def State.entryFault (t : State) (r : StageRec) : Bool :=
  let coded := match rowOf t.ident.variant r.index r.sub with
    | none => true
    | some row => decide (row.acc.o ≠ .rws) || decide (lengthCode row r.value ≠ 0) || decide (valueCode row r.index r.value ≠ 0)
  let bound := fun (k : Nat) => bits (t.entry 0x2210 5) (32 * k + 31) (32 * k)
  coded ||
    (if isRange r.index then t.rangeFault (r.index - 0x2400)
     else if isGroup r.index then t.groupFault (r.index - 0x2800)
     else if isPartner r.index then t.partnerFault (r.index - 0x3000)
     else if r.index = 0x2200 then
       decide (t.entry 0x2200 1 + t.entry 0x2200 2 + t.entry 0x2200 3 ≠ 256) ||
         !(decide (t.entry 0x2200 8 < t.entry 0x2200 7) && decide (t.entry 0x2200 7 < t.entry 0x2200 9))
     else if r.index = 0x2210 ∧ r.sub = 5 then (List.range 6).any (fun k => decide (bound (k + 1) ≤ bound k))
     else false)
/-- The tables as a whole fail R93. -/
def State.tablesFault (t : State) : Bool :=
  t.tabs.ranges.any (fun kr => t.rangeFault kr.1) || t.tabs.targets.any (fun kt => t.groupFault kt.1) ||
    t.tabs.partners.any (fun kp => t.partnerFault kp.1)
/-- The first failing entry of a batch, as index × 256 + subindex; none when the resulting set validates (R473). -/
def State.validate (recs : List StageRec) (s : State) : Option Nat :=
  let t := s.setRecs recs
  let tables := recs.any (fun r => isRange r.index || isGroup r.index || isPartner r.index)
  match recs.find? (fun r => t.entryFault r) with
  | some r => some (r.index * 256 + r.sub)
  | none =>
    if tables ∧ t.tablesFault then recs.head?.map (fun r => r.index * 256 + r.sub) else none

/-! ## What a commit changes (R95, R297, R404, R411, R416, R434, R473) -/

/-- Key IDs after a commit (R404): one whose every enabled range is bound elsewhere is Retiring, one bound again Active. -/
def State.keysAfter (old : Tab Range) (s : State) : State :=
  let bound := fun (t : Tab Range) (id : Nat) => t.filter (fun kr => decide (kr.2.size ≠ 0) && decide (kr.2.keyId = id))
  let st := fun (id : Nat) (k : KeyRec) =>
    if k.st = 1 ∧ bound old id ≠ [] ∧ bound s.tabs.ranges id = [] ∧
        (bound old id).all (fun kr => decide ((s.range kr.1).keyId ≠ id)) then 2
    else if k.st = 2 ∧ bound s.tabs.ranges id ≠ [] then 1
    else k.st
  let moved := s.keys.recs.filter (fun kv => decide (st kv.1 kv.2 ≠ kv.2.st))
  if moved.isEmpty then s
  else
    (s.upKeys (fun k => { k with recs := k.recs.map (fun kv => (kv.1, { kv.2 with st := st kv.1 kv.2 })) })).measure 5
      |>.count 60 6 (6 * moved.length)
/-- Ranges whose re-key skim a commit starts (R411): an enabled range with another KeyId, or a range it enables over
grains stored under another ID. -/
def State.rekeyAfter (old : Tab Range) (s : State) : State :=
  let hit := s.tabs.ranges.filter (fun kr =>
    let o := Tab.get ({} : Range) old kr.1
    decide (kr.2.size ≠ 0) && decide (kr.2.kind = 0) &&
      (if o.size = 0 then !(s.rekeyLeft kr.1).isEmpty else decide (o.keyId ≠ kr.2.keyId)))
  hit.foldl (fun t kr =>
    (t.upTabs (fun x => { x with
      rekeying := if x.rekeying.contains kr.1 then x.rekeying else x.rekeying ++ [kr.1] })).rekeyRun kr.1) s
/-- Apply a committed batch under its number (R473, R476): every value and working copy at once, the keys' states, the
re-key skims, the reservations (R297), the events 1201h, 2401h, 3005h, 3006h, and the shares (R434). -/
def State.applyBatch (n : Nat) (recs : List StageRec) (s : State) : State :=
  let old := s.tabs.ranges
  let space := recs.any (fun r => isRange r.index || isGroup r.index)
  let people := recs.any (fun r => isPartner r.index)
  let debug := recs.any (fun r => decide (r.index = 0x3FFE))
  let t := ((s.setRecs recs).upDict (fun d => { d with
    logged := none
    lastBatch := max d.lastBatch n })).save 9
  let t1 := recs.foldl (fun u r => u.save r.value.length) t
  let t2 := (t1.keysAfter old).rekeyAfter old
  let t3 := if space || people then t2.clearReservations else t2
  let t4 := t3.log 0x1201 n
  let t5 := if space then (t4.measure 4).log 0x2401 n else t4
  let t6 := if people then (t5.measure 3).log 0x3005 n else t5
  let t7 := if debug then (t6.measure 6).log 0x3006 n else t6
  let t8 := if recs.any (fun r => decide (0x2300 ≤ r.index) && decide (r.index ≤ 0x230F)) then t7.recompute else t7
  t8.retireKeys.rekeyDone

/-! ## Commits (R347, R348, R473, R474) -/

/-- The records of a batch cut into segments of at most 4,080 bytes (R320). -/
def segments (recs : List StageRec) : List (List StageRec) :=
  let size := fun (r : StageRec) => (8 + r.value.length + 15) / 16 * 16
  let out := recs.foldl (fun (acc : List (List StageRec) × List StageRec × Nat) r =>
    if 4080 < acc.2.2 + size r then (acc.1 ++ [acc.2.1], [r], size r) else (acc.1, acc.2.1 ++ [r], acc.2.2 + size r)) ([], [], 0)
  out.1 ++ [out.2.1]
/-- The bytes of a segment (R320). -/
def segmentBytes (recs : List StageRec) : Bytes :=
  (recs.map (fun r =>
    let b := natLe 2 r.index ++ natLe 1 r.sub ++ natLe 1 0 ++ natLe 2 r.value.length ++ natLe 2 0 ++ r.value
    b ++ natLe ((16 - b.length % 16) % 16) 0)).foldl (· ++ ·) []
/-- Send the CommitPrepare messages of a batch (R320, R347). -/
def State.sendPrepare (n : Nat) (recs : List StageRec) (s : State) : State :=
  let segs := segments recs
  ((List.range segs.length).zip segs).foldl (fun t kx =>
    t.send { ty := 0x0F, num := n, aux := kx.1 + (if kx.1 + 1 = segs.length then 2 ^ 31 else 0), body := segmentBytes kx.2 }) s
/-- Carry out the commit of a role's batch: refused by a module that serves no longer (R348); validated, logged and applied at once by
a module alone; with pair-wide entries
in a pair, CommitPrepare goes out and the commit waits for the vote. The answer is none while it waits. -/
def State.runCommit (p : PairCommit) (s : State) : Option Nat × State :=
  let recs := s.batchOf p.role
  let n := s.dict.lastBatch + 1
  let wide := s.paired && recs.any pairWide
  let s1 := if wide then s.sendPrepare n recs else s
  if !servingSt s.yoke.member then (some 0x04020000, s.endCommit p.role 0x04020000 0)
  else match s1.validate recs with
  | some e => (some 0x05010000, s1.endCommit p.role 0x05010000 e)
  | none =>
    if wide then (none, s1.upDict (fun d => { d with
      pair := some { p with
      batch := n
      recs := recs } }))
    else (some 0, (s1.applyBatch n recs).endCommit p.role 0 0)
/-- CommitBatch (R348, R473, R474, R489): refused where the module does not serve or main power is off, done at once for an
empty batch, else carried out after the commits accepted before it. A commit log that cannot be written aborts it: 8003h. -/
def State.commit (p : PairCommit) (logFault : Bool) (s : State) : Option Nat × State :=
  if s.committing p.role then (some 0x04010000, s)
  else if !s.fastOn then (some 0x04030000, s)
  else if !servingSt s.yoke.member then (some 0x04020000, s)
  else if s.batchOf p.role = [] then (some 0, s.upDict (fun d => { d with
    commitSt := Tab.set 0 d.commitSt (roleNum p.role) 3 }))
  else if logFault then
    (some 0x06010000, (s.log 0x8003 (6 * 2 ^ 24 + Config.twinOffset 6 0)).endCommit p.role 0x06010000 0)
  else if s.dict.pair.isSome then (none, s.upDict (fun d => { d with commitWait := d.commitWait ++ [p] }))
  else s.runCommit p
/-- The commits that waited for one that has ended run in their order, up to one that waits for the peer (R474). -/
def State.nextCommits : Nat → State → State
  | 0, s => s
  | n + 1, s =>
    match s.dict.pair, s.dict.commitWait with
    | none, p :: rest =>
      let t := s.upDict (fun d => { d with commitWait := rest })
      match t.runCommit p with
      | (some code, u) => (u.reply p.route p.spec p.flags p.tid 0x1200 1 code []).nextCommits n
      | (none, u) => u
    | _, _ => s
/-- The pair commit ends with a code: its request is answered and the next commit runs. -/
def State.endPair (p : PairCommit) (code : Nat) (s : State) : State :=
  let t := (s.upDict (fun d => { d with
    pair := none
    logged := none })).endCommit p.role code 0
  (t.reply p.route p.spec p.flags p.tid 0x1200 1 code []).nextCommits (t.dict.commitWait.length + 1)
/-- The yoke falls silent, or the peer stands down, during a pair commit (R347): 04040000h, and 410Eh once CommitApply has
been sent. -/
def State.loseCommit (s : State) : State :=
  let t := s.upDict (fun d => { d with theirs := none })
  match t.dict.pair with
  | none => t
  | some p => (if p.applied then t.log 0x410E p.batch else t).endPair p 0x04040000
/-- DiscardBatch (R473): the role's batch is gone at once. -/
def State.discard (r : Role) (s : State) : Nat × State :=
  if s.committing r then (0x04010000, s)
  else (0, (s.setBatch r []).upDict (fun d => { d with commitSt := Tab.set 0 d.commitSt (roleNum r) 0 }))

/-! ## Restoring defaults (R109, R483) -/

/-- Every RW, RWS and Power-up entry at its default, passwords cleared, batches discarded. -/
def State.defaults (s : State) : State :=
  let s1 := s.upDict (fun d => { d with
    cfg := []
    sel := []
    batches := []
    commitSt := []
    passwords := []
    dead := []
    presented := [] })
  let s2 := s1.upTabs (fun t => { t with
    ranges := [(0, { size := s.ident.variant.capacity })]
    targets := []
    partners := [(0, { valid := true, caps := 7, reads := 1, writes := 1 })] })
  s2.upPerf (fun p => { p with
    overflow := []
    select := []
    value := []
    reload := [] })
/-- RestoreDefaults as one commit: its own number, with events 1203h, 2401h and 3005h (R483), and 3006h when entry 4094
changes (R416). Key states stay as they are. -/
def State.restore (s : State) : State :=
  let old := s.tabs.ranges
  let n := s.dict.lastBatch + 1
  let s1 := (s.defaults.upDict (fun d => { d with lastBatch := n })).clearReservations
  let s2 := ((s1.rekeyAfter old).log 0x1203 n).measure 4
  let s3 := ((s2.log 0x2401 n).measure 3).log 0x3005 n
  let s4 := if s.partner 4094 = ({} : Partner) then s3 else (s3.measure 6).log 0x3006 n
  let s5 := if s.entry 0x2000 1 = s4.entry 0x2000 1 then s4 else s4.log 0x2021 (s4.entry 0x2000 1)
  (if s5.fastOn then s5.recompute else s5).rekeyDone

end Sys2Proof.Machine
end

