-- ==== Sys2Proof/Machine/Spans.lean ====
section
/-!
DEFINITION. Commands over spans of logical space: the change of whole grains, alone and in a pair (R85 to R87, R111 to R114,
R267, R567), secure discard and its marked groups (R268), crypto-discard and its sweep (R269, R270), the scrub pass (R259 to
R261), and the four maintenance commands of the front cache (R363 to R368).
-/
namespace Sys2Proof.Machine

/-! ## Starting a command (R113, R114) -/

/-- Refuse a start: its abort code, and Control reads 03h unless the command runs. -/
def State.refuse (i code : Nat) (s : State) : Nat × State := (code, if s.ctl i = 1 then s else s.setCtl i 3)
/-- The rights a Partner or Debug sender needs over a span (R113, R363): the grant for the group of every enabled range it
touches, and for some commands no address outside them. -/
def State.spanRights (s : State) (w : Who) (isWrite covered : Bool) (base len : Nat) : Bool :=
  match w.route, s.whoEntry w with
  | .field, _ => true
  | .fabric, _ => true
  | .yoke, _ => true
  | _, none => false
  | _, some n =>
    s.grantsApply n && (s.rangesOver base len).all (fun r => if isWrite then s.mayWrite n r.group else s.mayRead n r.group) &&
      (!covered || s.coveredSpan base len)
/-- The span is aligned and inside the logical space. -/
def State.spanOk (s : State) (align base len : Nat) : Bool :=
  decide (base % align = 0) && decide (len % align = 0) && decide (base + len ≤ s.ident.variant.capacity)
/-- A command over a span starts: Control 01h, its figures at 0. -/
def State.begin (i base len : Nat) (s : State) : State :=
  (s.setCtl i 1).putJob i
    { base := base
      length := len
      gen := s.media.gen
      since := s.dump.next }

/-! ## The runs of a span (R111) -/

/-- Cut a run of grains by an enabled window. -/
def cutRun (r w : Nat × Nat) : List (Nat × Nat) :=
  if r.1 + r.2 ≤ w.1 ∨ w.1 + w.2 ≤ r.1 then [r]
  else (if r.1 < w.1 then [(r.1, w.1 - r.1)] else []) ++
    (if w.1 + w.2 < r.1 + r.2 then [(w.1 + w.2, r.1 + r.2 - (w.1 + w.2))] else [])
/-- The runs of a span of grains that lie under no enabled window range (R111), as first grain and count. -/
def State.runsOf (s : State) (first count : Nat) : List (Nat × Nat) :=
  let wins := (s.tabs.ranges.filter (fun kr => decide (kr.2.kind = 1) && decide (kr.2.size ≠ 0))).map (fun kr =>
    (kr.2.base / 16384, kr.2.size / 16384))
  wins.foldl (fun rs w => (rs.map (fun r => cutRun r w)).foldl (· ++ ·) [])
    (if count = 0 then [] else [(first, count)])
/-- Change whole grains for a command (R111, R267, R567): at once where the module is alone; in a pair each waits for its acknowledgement,
and in Suspect the messages are held. While the journal is full every change waits for the lap (R219). Under a window nothing changes
(R111), but for the whole space, every grain of which becomes unwritten (R268). -/
def State.changeGrains (key code first count : Nat) (s : State) : State :=
  let runs := if code = 0 then [(first, count)] else s.runsOf first count
  let grains := fun (_ : Unit) => (runs.map (fun r => (List.range r.2).map (fun i => r.1 + i))).foldl (· ++ ·) []
  let own := fun (t : State) (held : Bool) (gs : List Nat) => match t.job key with
    | some j => t.putJob key { j with
        st := code
        acks := gs
        held := held }
    | none => t
  if s.yoke.member = 3 ∨ s.journalFull then own s true (grains ())
  else if s.paired then (grains ()).foldl (fun t g => t.sendChange code g) (own s false (grains ()))
  else State.checkDies <| (runs.foldl (fun t r => t.changeRun (grainOfCode code) r) s).setVal key 4
    (s.val key 4 + 16384 * ((runs.map (fun r => r.2)).foldl (· + ·) 0))

/-! ## ZeroRange and discard (R110 to R114, R266, R267) -/

/-- An internal full-line write of zeros, in its slice's pail (R111, R368). -/
def State.zeroLine (cmd line : Nat) (s : State) : State :=
  let r := match s.rangeAt (line * 64) with
    | some (_, x) => (x.cls, x.policy)
    | none => (15, 0)
  let q := { newReq .write 0 internal cmd (line * 64) r.1 r.2 0 fullMask false s.clk.now with id := s.reqs.next }
  s.upReqs (fun x => { x with
    next := x.next + 1
    list := x.list ++ [q] })
/-- Lines a command still has to write. -/
def State.zeroing (s : State) (cmd : Nat) : Bool := s.reqs.list.any (fun r => decide (r.entry = internal) && decide (r.tag = cmd))
/-- Start a ZeroRange, a discard or a secure discard: busy, length 0, rights, range (R113, R114, R115, R266). A length of 0 succeeds
wherever its base lies. -/
def State.spanStart (w : Who) (i align : Nat) (run : State → State) (s : State) : Nat × State :=
  let base := s.entry i 1
  let len := s.entry i 2
  if s.ctl i = 1 then (0x04010000, s)
  else if len = 0 then (0, (s.setCtl i 2).setVal i 4 0)
  else if !s.spanRights w true true base len then s.refuse i 0x02030000
  else if !s.spanOk align base len then s.refuse i 0x03030000
  else (0, run ((s.begin i base len).setVal i 4 0))
/-- A ZeroRange goes on (R111): once no line below its whole grains is still to be written, these enter the zero state. -/
def State.zeroGrains (s : State) : State :=
  match s.job 0x9030 with
  | none => s
  | some j =>
    match j.marked with
    | [first, stop] =>
      if s.reqs.list.any (fun r => decide (r.entry = internal) && decide (r.tag = 0x9030) && decide (grainOf r.line < first)) then s
      else (s.putJob 0x9030 { j with marked := [] }).changeGrains 0x9030 2 first (stop - first)
    | _ => s
/-- ZeroRange in ascending order (R111): the lines of the partial grains at its ends are written, its whole grains enter the zero
state between them; `marked` of its job holds the first of these and the one after the last while they wait. -/
def State.zeroRange (s : State) : State :=
  let base := s.entry 0x9030 1
  let len := s.entry 0x9030 2
  let first := (base + 16383) / 16384
  let last := (base + len) / 16384
  let stop := (base + len) / 64
  let from2 := max (base / 64) (max (first * 256) (last * 256))
  let head := (List.range (min (first * 256) stop - base / 64)).map (fun k => base / 64 + k)
  let tail := (List.range (stop - from2)).map (fun k => from2 + k)
  let part := (head ++ tail).filter (fun l => !s.underWindow (grainOf l))
  let t := part.foldl (fun t l => t.zeroLine 0x9030 l) s
  if last ≤ first then t
  else
    match t.job 0x9030 with
    | some j => (t.putJob 0x9030 { j with marked := [first, last] }).zeroGrains
    | none => t
/-- Discard: every grain of the span enters the discarded state (R267). -/
def State.discardSpan (s : State) : State := s.changeGrains 0x9000 3 (s.entry 0x9000 1 / 16384) (s.entry 0x9000 2 / 16384)
/-- Unmap the span of a secure discard, unwritten for the whole space, and go on to its groups once all of it is unmapped
(R268). -/
def State.eraseSpan (key base len : Nat) (s : State) : State :=
  let code := if base = 0 ∧ len = s.ident.variant.capacity then 0 else 3
  let t := s.changeGrains key code (base / 16384) (len / 16384)
  match t.job key with
  | some j => if j.acks = [] ∧ !j.held then t.eraseStage key else t
  | none => t
/-- Secure discard (R268). -/
def State.secureSpan (s : State) : State := s.eraseSpan 0x9010 (s.entry 0x9010 1) (s.entry 0x9010 2)

/-! ## Crypto-discard (R269, R270, R349) -/

/-- A cached line is stored under a key ID: its media copy is, or, with none, it would be written under it (log entry
23). -/
def State.underKey (s : State) (id line : Nat) : Bool :=
  match s.storedKey line with
  | some k => decide (k = id)
  | none => decide (s.writeKey (grainOf line) 0 = id) && (match s.rangeAt (line * 64) with
      | some _ => true
      | none => false)
/-- Forget the cached lines stored under a key ID (R270): a tier sector keeps its other lines. -/
def State.dropUnder (id : Nat) (s : State) : State :=
  let hit := fun (l : Nat) => s.underKey id l
  let s1 := s.upFc (fun c => { c with lines := c.lines.filter (fun kx => !hit kx.1) })
  let s2 := s1.upTier (fun t => { t with
    sectors := t.sectors.map (fun kx =>
      let js := (List.range 32).filter (fun j => kx.2.present.getLsbD j && hit (kx.1 * 32 + j))
      (kx.1, { kx.2 with
        present := js.foldl (fun d j => d &&& ~~~((1 : BitVec 32) <<< j)) kx.2.present
        data := js.foldl (fun d j => Tab.set 0 d j 0) kx.2.data
        st := js.foldl (fun d j => Tab.set .clean d j .clean) kx.2.st
        masks := js.foldl (fun d j => Tab.set 0 d j 0) kx.2.masks })) })
  let s3 := s2.releaseAll ((s.budget.charged.filter (fun kv => hit kv.1)).map (fun kv => kv.1))
  let s4 := (s.map.poison.filter (fun kv => hit kv.1)).foldl (fun t kv => t.unpoison kv.1) s3
  let s5 := (s4.upBudget (fun b => { b with
    running := (b.running.map (fun w => { w with taken := w.taken.filter (fun l => !hit l) })).filter (fun w =>
      decide (w.taken ≠ [])) })).endRes (fun r => hit r.line) 4
  s5.upReqs (fun q => { q with
    list := q.list.map (fun r => if r.stage = .line ∧ hit r.line then { r with stage := .pail } else r) })
/-- A fresh key under an ID (R406): drawn from the generator. -/
def State.freshKey (id : Nat) (imported : Bool) (m : Option (BitVec 512)) (s : State) : State :=
  let mat := match m with
    | some x => x
    | none => Config.freshKey s.clk.free
  (((s.upClk (fun c => { c with free := c.free + 1 })).upKeys (fun k => { k with
    recs := Tab.set {} k.recs id { Tab.get ({} : KeyRec) k.recs id with
      st := 1
      imported := imported
      material := mat
      lost := false } })).measure 5).count 60 6 6
/-- Steps 1 to 3 of R270 on this module: cached lines go, the key is destroyed, its base generation is the one in force, a
fresh key with Renew; the grains whose pages lie below it wait for the sweep. A Sole module marks the grains this changes (R341). -/
def State.cryptoKey (id : Nat) (renew : Bool) (s : State) : State :=
  let gone := (s.map.entries.filter (fun kv => decide (kv.2.st = .mapped) && (match s.page? kv.2.page with
    | some p => decide (p.keyId = id)
    | none => false))).map (fun kv => kv.1)
  let changed := gone ++ ((s.budget.charged.filter (fun kv => s.underKey id kv.1)).map (fun kv => grainOf kv.1) ++
    (s.map.overlay.filter (fun kv => s.underKey id kv.2.line)).map (fun kv => grainOf kv.2.line))
  let s1 := ((s.dropUnder id).destroyKey id).upKeys (fun k => { k with
    recs := Tab.set {} k.recs id { Tab.get ({} : KeyRec) k.recs id with base := s.media.gen } })
  let s2 := if renew then s1.freshKey id false none else s1
  let s2 := if s.sole then changed.foldl (fun t g => t.mark g) s2 else s2
  s2.upCmds (fun c => { c with sweep := c.sweep ++ gone.filter (fun g => !c.sweep.contains g) })
/-- CryptoDiscard (R269): refused for an ID that is not active, or without Renew while an enabled range is bound to it. In
a pair the peer is told. -/
def State.cryptoStart (s : State) : Nat × State :=
  let id := s.entry 0x9018 1
  let renew := decide (s.entry 0x9018 2 = 1)
  if s.ctl 0x9018 = 1 then (0x04010000, s)
  else if (s.keyRec id).st = 0 ∨ (!renew ∧ s.boundRanges id ≠ 0) then s.refuse 0x9018 0x04020000
  else
    let s1 := ((s.setCtl 0x9018 1).putJob 0x9018
      { keyId := id
        flags := bit renew
        since := s.dump.next
        notice := s.paired }).cryptoKey id renew
    (0, if s.paired then s1.send { ty := 0x13, aux := 5, num := id + 4096 * bit renew } else s1)
/-- The retired dump images a crypto-discard waits for are reset, and the peer has answered (R270). -/
def State.cryptoReady (s : State) (j : Job) : Bool :=
  (!j.notice || s.sole) && !(s.dump.images.any (fun i => i.retired && decide (i.number < j.since)))
/-- One grain of the sweep (R270): its map entry becomes discarded when its page lies below its ID's base generation and no
newer logged line of it is readable. A grain in writeback waits. -/
def State.sweepOne (s : State) : State :=
  match s.cmds.sweep with
  | [] => s
  | g :: rest =>
    let t := s.upCmds (fun c => { c with sweep := rest })
    let old := fun (ppa slot : Nat) => match s.page? ppa with
      | some p => decide (p.gen < (s.keyRec (p.slotKey slot)).base)
      | none => false
    if s.wbOf g ∨ s.changing g ∨ s.journalFull then t.upCmds (fun c => { c with sweep := rest ++ [g] })
    else if s.isMapped g && old (s.mapEntry g).page 0 && (s.loggedLines g).all (fun o => old o.page o.slot) then
      (t.finishRun .discarded (g, 1)).retireKeys.checkDies
    else t

/-! ## The scrub pass (R259 to R261) -/

/-- The 64-byte summary of the pass so far (R261). -/
def State.summary (s : State) : Nat :=
  let v := fun (k n : Nat) => natLe n (s.val 0x9020 (0x40 + k))
  let j := Tab.get ({} : Job) s.cmds.jobs 0x9020
  let firstBad := s.val 0x9020 0x49
  leNat (v 1 8 ++ v 2 8 ++ v 3 8 ++ v 4 4 ++ v 5 4 ++ v 6 4 ++ v 7 4 ++ v 8 4 ++ natLe 4 ((s.clk.now - j.since) / sec)
    ++ natLe 8 (if firstBad = 0 then 2 ^ 64 - 1 else firstBad - 1) ++ natLe 4 (if j.flags = 1 then s.val 0x9020 0x4A else 0)
    ++ natLe 4 0)
/-- Start a pass over a span; the tallies and the Scan Media results start anew. -/
def State.scrubRun (base len flags : Nat) (s : State) : State :=
  let s1 := (s.setCtl 0x9020 1).putJob 0x9020
    { base := base
      length := len
      flags := flags
      since := s.clk.now }
  ((s1.upCmds (fun c => { c with
    val := c.val.filter (fun kv => !(decide (0x902041 ≤ kv.1) && decide (kv.1 ≤ 0x90204A)) && decide (kv.1 ≠ 0x902005)) })).upMbox
      (fun m => { m with scanResults := [] })).askStrain
/-- 9020h Control 01h (R259). -/
def State.scrubStart (s : State) : Nat × State :=
  let base := s.entry 0x9020 1
  let len := s.entry 0x9020 2
  if len = 0 ∨ !s.spanOk 16384 base len then s.refuse 0x9020 0x03030000
  else if s.ctl 0x9020 = 1 then (0x04010000, s)
  else (0, s.scrubRun base len (s.entry 0x9020 3))
/-- End the pass with its Summary as it stands and its leave given back (R260, R437). -/
def State.scrubEnd (ctl : Nat) (s : State) : State :=
  if s.scrubs then (((s.setVal 0x9020 6 s.summary).setCtl 0x9020 ctl).dropJob 0x9020).giveLeave strainId else s

/-! ## BrineRelease (R265) -/

/-- This module's free and invalid space come to 256 groups beyond the floor (R265). -/
def State.brineRoom (s : State) : Bool :=
  decide ((256 + 96) * (61440 * 256) ≤ s.freeGroups * (61440 * 256) + s.invalidSpace)
/-- Leave Brine mode: state 02h, 222Eh (R265). -/
def State.leaveBrine (s : State) : State := (s.upCare (fun c => { c with brine := 2 })).log 0x222E 0
/-- A BrineRelease asked for by the peer is carried out, and answered, once this module meets the condition of R265: the protocol has no
answer for one that is not (DEDUCED, log entry 154). -/
def State.answerRelease (s : State) : State :=
  if (s.job 0x8006).isSome ∧ s.inBrine ∧ s.brineRoom then (s.leaveBrine.dropJob 0x8006).send { ty := 0x13, aux := 0x8006 } else s
/-- 9028h Control 01h (R265): in a pair the peer must release too. -/
def State.brineStart (s : State) : Nat × State :=
  if s.ctl 0x9028 = 1 then (0x04010000, s)
  else if !s.inBrine ∨ !s.brineRoom then s.refuse 0x9028 0x04020000
  else if s.paired then
    (0, ((s.setCtl 0x9028 1).putJob 0x9028 { notice := true }).send { ty := 0x13, aux := 6 })
  else (0, (s.leaveBrine.record 6 0 0 0).setCtl 0x9028 2)

/-! ## Front-cache maintenance (R363 to R368) -/

/-- Lines of a span that lie in no enabled ordinary range (R363). -/
def State.skippedLines (s : State) (base len : Nat) : Nat :=
  let inside := (s.rangesOver base len).filter (fun r => decide (r.kind = 0))
  (len - (inside.map (fun r => min (base + len) (r.base + r.size) - max base r.base)).foldl (· + ·) 0) / 64
/-- A line of a span lies in an enabled ordinary range. -/
def State.ordinary (s : State) (line : Nat) : Bool :=
  match s.rangeAt (line * 64) with
  | some (_, r) => decide (r.kind = 0)
  | none => false
/-- The front-cache lines of a span the maintenance commands act on. -/
def State.fcSpan (s : State) (base len : Nat) : List (Nat × FcLine) :=
  s.fc.lines.filter (fun kx => decide (base ≤ kx.1 * 64) && decide (kx.1 * 64 < base + len) && s.ordinary kx.1)
/-- Write one Modified line to the tier, which becomes Unmodified and keeps its lock (R364). False while it is Merging or
finds no sector. -/
def State.cleanLine (line : Nat) (s : State) : Bool × State :=
  match s.fcLine? line with
  | none => (true, s)
  | some x =>
    match x.st with
    | .unmodified => (true, s)
    | .merging => (false, s)
    | .modified =>
      match s.tierWrite line x.data .dirty 0 with
      | some t => (true, t.fcPut line { x with
          st := .unmodified
          waiting := false })
      | none => (false, s.pressSet (sectorOf line))
/-- Add to a progress value of a command. -/
def State.addVal (i sub n : Nat) (s : State) : State := s.setVal i sub (s.val i sub + n)
/-- Write the lines a command still has to write; those that cannot be written yet stay in its list. -/
def State.cleanSome (i : Nat) (s : State) : State :=
  match s.job i with
  | none => s
  | some j =>
    let (left, t) := j.marked.foldl (fun (acc : List Nat × State) l =>
      let (ok, u) := acc.2.cleanLine l
      let wrote : Bool := match acc.2.fcLine? l with
        | some x => decide (x.st = .modified)
        | none => false
      (if ok then acc.1 else acc.1 ++ [l], if ok && wrote && decide (i = 0x2120) then u.addVal i 6 1 else u)) ([], s)
    t.putJob i { j with marked := left }
/-- Invalidate the valid lines of the span once none is left to write (R365): locked ones only with IncludeLocked, tier
sectors whose lines are all Clean with IncludeTier. -/
def State.invalidateSpan (j : Job) (s : State) : State :=
  let ls := s.fcSpan j.base j.length
  let keep := ls.filter (fun kx => kx.2.locked && decide (j.flags % 2 = 0))
  let drop := (ls.filter (fun kx => !(kx.2.locked && decide (j.flags % 2 = 0)) && decide (kx.2.st = .unmodified))).map (fun kx => kx.1)
  let s1 := (s.upFc (fun c => { c with lines := c.lines.filter (fun kx => !drop.contains kx.1) })).addVal 0x2121 6 drop.length
  let s2 := s1.addVal 0x2121 7 keep.length
  if j.flags / 2 % 2 = 0 then s2
  else
    let secs := s2.tier.sectors.filter (fun kx => decide (j.base < kx.1 * 2048 + 2048) &&
      decide (kx.1 * 2048 < j.base + j.length) && s2.ordinary (kx.1 * 32))
    let clean := (secs.filter (fun kx => kx.2.allClean)).map (fun kx => kx.1)
    (s2.upTier (fun t => { t with sectors := t.sectors.filter (fun kx => !clean.contains kx.1) })).addVal 0x2121 7
      (secs.length - clean.length)
/-- A line may be locked (R366). -/
def State.lockable (s : State) (line : Nat) : Bool :=
  (match s.rangeAt (line * 64) with
   | some (_, r) => decide (r.policy ≠ 2)
   | none => false) && s.fcOpen && decide (s.lockedIn (fcSetKey line) < s.entry 0x2100 2)
/-- Lock one line (R366): the line held in the front cache; zeros of an unmapped grain and what the tier holds brought in at
once; any other fetched below. A line that may not be locked is skipped. -/
def State.lockLine (line : Nat) (s : State) : State :=
  let i := 0x2122
  let lock := fun (t : State) => match t.fcLine? line with
    | some x => (t.fcPut line { x with locked := true }).addVal i 6 1
    | none => t.addVal i 7 1
  match s.fcLine? line with
  | some x => if x.locked then s.addVal i 6 1 else if s.lockable line then lock s else s.addVal i 7 1
  | none =>
    if !s.lockable line then s.addVal i 7 1
    else if (s.tierLine? line).isSome then lock ((s.tierTouch (sectorOf line)).fcFill line (s.below line) 0)
    else if s.mapReady line && (s.copyAt line).isNone then lock (s.fcFill line 0 0)
    else
      match s.job i with
      | none => s
      | some j =>
        let t := s.wakeSlice (sliceOfLine line)
        if (t.missOf line).isSome then t.putJob i { j with marked := j.marked ++ [line] }
        else if t.missRoom line then (t.startFetch line .lock 15 0 false).putJob i { j with marked := j.marked ++ [line] }
        else t.putJob i { j with waits := j.waits ++ [line] }
/-- Lines of a LineLock that waited for a miss-table entry are fetched as entries free (R118). -/
def State.lockWaits (s : State) : State :=
  match s.job 0x2122 with
  | none => s
  | some j =>
    j.waits.foldl (fun t l =>
      match t.job 0x2122 with
      | none => t
      | some k =>
        if t.missRoom l then (t.startFetch l .lock 15 0 false).putJob 0x2122 { k with
            waits := k.waits.filter (fun x => decide (x ≠ l))
            marked := k.marked ++ [l] }
        else t) s
/-- Lines being fetched to be locked: one that has arrived is locked, one whose fetch ended without it is skipped. -/
def State.lockSome (s0 : State) : State :=
  let s := s0.lockWaits
  match s.job 0x2122 with
  | none => s
  | some j =>
    j.marked.foldl (fun t l =>
      if (t.missOf l).isSome then t
      else
        let u := match t.job 0x2122 with
          | some k => t.putJob 0x2122 { k with marked := k.marked.filter (fun x => decide (x ≠ l)) }
          | none => t
        match u.fcLine? l with
        | some x => if x.locked ∨ u.lockable l then (u.fcPut l { x with locked := true }).addVal 0x2122 6 1 else u.addVal 0x2122 7 1
        | none => u.addVal 0x2122 7 1) s
/-- What each maintenance command does with its span when it starts (R364 to R366, R368). -/
def State.maintRun (i base len flags : Nat) (s : State) : State :=
  let dirty := ((s.fcSpan base len).filter (fun kx => decide (kx.2.st ≠ .unmodified))).map (fun kx => kx.1)
  let s0 := ((s.setCtl i 1).putJob i
    { base := base
      length := len
      flags := flags
      marked := if i = 0x2120 ∨ i = 0x2121 then dirty else [] }).setVal i 7 (s.skippedLines base len)
  let s1 := s0.setVal i 5 len
  let lines := ((List.range (len / 64)).map (fun k => base / 64 + k)).filter (fun l => s.ordinary l)
  if i = 0x2120 then s1.cleanSome i
  else if i = 0x2121 then
    let t := s1.cleanSome i
    match t.job i with
    | some j => if j.marked = [] then t.invalidateSpan j else t
    | none => t
  else if i = 0x2122 then
    if flags % 2 = 1 then
      let held := (s1.fcSpan base len).filter (fun kx => kx.2.locked)
      (held.foldl (fun t kx => t.fcPut kx.1 { kx.2 with locked := false }) s1).addVal i 6 held.length
    else lines.foldl (fun t l => t.lockLine l) s1
  else lines.foldl (fun t l => t.zeroLine i l) s1
/-- The front-cache lines a maintenance command reads are checked for parity (R362); `found` names those that fail. -/
def State.maintChecks (found : List (Nat × CacheFault)) (i base len : Nat) (s : State) : State :=
  if i = 0x2123 then s
  else (found.filter (fun x => decide (x.2 ∈ [CacheFault.fcLine, CacheFault.fcTag]) && decide (base ≤ x.1 * 64) &&
    decide (x.1 * 64 < base + len))).foldl (fun t x => if t.fastOn ∧ (t.fcLine? x.1).isSome then t.checkFault x.2 6 x.1 else t) s
/-- Start a maintenance command (R363); a controller reset on the way ends it (R381). -/
def State.maintStart (w : Who) (i : Nat) (found : List (Nat × CacheFault)) (s : State) : Nat × State :=
  let base := s.entry i 1
  let len := s.entry i 2
  let t := ((s.setVal i 5 0).setVal i 6 0).setVal i 7 0
  if s.ctl i = 1 then (0x04010000, s)
  else if len = 0 then (0, t.setCtl i 2)
  else if !s.spanRights w (decide (i = 0x2123)) false base len then s.refuse i 0x02030000
  else if !s.spanOk 64 base len ∨ (i = 0x2123 ∧ 262144 < len) then s.refuse i 0x03030000
  else
    let u := t.maintChecks found i base len
    (0, if u.fastOn then u.maintRun i base len (s.entry i 3) else u)
/-- A running maintenance command goes on with what it waited for and, with nothing left, is done. -/
def State.maintDone (i : Nat) (s : State) : State :=
  if s.ctl i ≠ 1 then s
  else
    let t := if i = 0x2120 ∨ i = 0x2121 then s.cleanSome i else if i = 0x2122 then s.lockSome else s
    match t.job i with
    | none => t
    | some j =>
      if !j.marked.isEmpty ∨ t.zeroing i then t
      else
        let had : Bool := match s.job i with
          | some k => !k.marked.isEmpty
          | none => false
        let u := if i = 0x2121 ∧ had then t.invalidateSpan j else t
        (u.setCtl i 2).dropJob i

end Sys2Proof.Machine
end

