-- ==== Sys2Proof/Machine/Control.lean ====
section
/-!
DEFINITION. What the command entries of the module start and how they end: PrepareShutdown (R179, R180), identify (R560),
keys and attestation (R404 to R423), re-keying (R412), disabling the front cache (R369), the firmware update (R536, R537),
Test state and the built-in tests (R539 to R544), and the checks of a read-back (R545). A start answers an abort code, 0 when
it has been accepted (R470), and the new state.
-/
namespace Sys2Proof.Machine

/-! ## PrepareShutdown (R179, R180) -/

/-- 9060h Control 01h: busy while it runs; a module already prepared stays so (log entry 25). -/
def State.prepareStart (s : State) : Nat × State :=
  if s.ctl 0x9060 = 1 then (0x04010000, s)
  else if s.ctl 0x9060 = 2 then (0, s)
  else (0, (s.setCtl 0x9060 1).setVal 0x9060 3 0)
/-- 9060h Control 00h: a running command is abandoned; the Prepared state stays (log entry 25). -/
def State.prepareCancel (s : State) : Nat × State :=
  (0, if s.ctl 0x9060 = 2 then s else s.setCtl 0x9060 0)
/-- The lap PrepareShutdown has begun is in force, and covers the map: every record since its LapStart is the lap's own or a group's
(R180, log entry 142). -/
def State.shutdownLap (s : State) : Bool :=
  decide (s.val 0x9060 3 = s.map.ckpt.lap + 1) && s.map.journal.all (fun r => match r with
    | .lapStart _ => true
    | .lapEnd _ _ => true
    | .groupState _ _ _ _ => true
    | _ => false)
/-- DirtyBytes has reached 0 under a running PrepareShutdown (R180): a lap begins (R220), and once it is in force Control is 02h,
ArmState 03h, and 5033h is logged. -/
def State.prepared (s : State) : State :=
  if s.ctl 0x9060 ≠ 1 ∨ s.dirtyBytes ≠ 0 ∨ !s.map.resident ∨ s.map.lapRunning ∨ (s.pwr.arm ≠ 0 ∧ s.pwr.arm ≠ 1) then s
  else if s.shutdownLap then ((s.setCtl 0x9060 2).upPwr (fun p => { p with arm := 3 })).log 0x5033 0
  else
    let t := s.beginLap
    t.setVal 0x9060 3 (t.map.lapNext.lap + 1)

/-! ## Identify (R560) -/

/-- 9070h Control 01h: the pattern runs for Duration from now; Duration 0 does nothing (R114). -/
def State.identifyStart (s : State) : Nat × State :=
  (0, if s.entry 0x9070 1 = 0 then s
    else s.upCmds (fun c => { c with identUntil := s.clk.now + s.entry 0x9070 1 * sec }))
/-- 9070h Control 00h. -/
def State.identifyStop (s : State) : Nat × State := (0, s.upCmds (fun c => { c with identUntil := 0 }))

/-! ## Keys and attestation (R404 to R407, R416, R417, R422, R423) -/

/-- A key command is refused. -/
def State.keyRefused (s : State) : Nat × State := (0x04020000, s.upKeys (fun k => { k with cmd := 3 }))
/-- Generate (R406): only for a Free ID; 4001h. -/
def State.keyGenerate (id : Nat) (s : State) : Nat × State :=
  if (s.keyRec id).st ≠ 0 then s.keyRefused
  else (0, ((s.freshKey id false none).upKeys (fun k => { k with cmd := 2 })).log 0x4001 id)
/-- Why an import is refused (R406): 3 a blob for a regenerated key, 1 a blob that does not unwrap, 2 equal halves; 0 none. -/
def importReason (blob : Bytes) (v : ImportVerdict) : Nat :=
  if blob = [] then 1
  else if v.stale then 3
  else if !v.unwraps then 1
  else if v.material.extractLsb' 0 256 = v.material.extractLsb' 256 256 then 2
  else 0
/-- Import (R406): the blob is consumed; 4001h, or 4005h with its reason. -/
def State.keyImport (id : Nat) (v : ImportVerdict) (s : State) : Nat × State :=
  if (s.keyRec id).st ≠ 0 then s.keyRefused
  else
    let why := importReason s.keys.blob v
    let t := s.upKeys (fun k => { k with blob := [] })
    if why = 0 then (0, ((t.freshKey id true (some v.material)).upKeys (fun k => { k with cmd := 2 })).log 0x4001 id)
    else (t.log 0x4005 why).keyRefused
/-- What unwrapping finds when no command names it: the free values of the engine (R406). -/
def State.unwrapVerdict (s : State) : ImportVerdict :=
  let b := leNat s.keys.blob
  match Config.unwrap b s.keys.encapGen with
  | some m => ⟨decide (Config.blobGen b ≠ s.keys.encapGen), true, m⟩
  | none => ⟨decide (Config.blobGen b ≠ s.keys.encapGen), false, 0⟩
/-- 4010h Regenerate: a new import key pair (R422). -/
def State.keyRegenerate (s : State) : Nat × State :=
  (0, (s.upKeys (fun k => { k with encapGen := k.encapGen + 1 })).setCtl 0x4010 2)
/-- 4020h Control 01h (R417): one object is signed at a time. -/
def State.attestStart (r : Role) (s : State) : Nat × State :=
  if s.keys.signing.isSome then (0x04010000, s)
  else (0, s.upKeys (fun k => { k with
    signing := some r
    attest := 1 }))
/-- Signing is done (R417): the object over the registers and the nonce of the role. -/
def State.attestDone (s : State) : State :=
  match s.keys.signing with
  | none => s
  | some r =>
    let o := leNat (s.attestation (s.selector r 0x4020 1))
    s.upKeys (fun k => { k with
      signing := none
      attest := 2
      objects := Tab.set 0 k.objects (roleNum r) o })

/-- 9040h Control 01h (R412): the re-key skim of an enabled range. -/
def State.rekeyStart (s : State) : Nat × State :=
  let r := s.entry 0x9040 1
  if s.ctl 0x9040 = 1 then (0x04010000, s)
  else if (s.range r).size = 0 then s.refuse 0x9040 0x04020000
  else
    let t := (s.setCtl 0x9040 1).upTabs (fun x => { x with
      rekeying := if x.rekeying.contains r then x.rekeying else x.rekeying ++ [r] })
    (0, (t.rekeyRun r).rekeyDone)

/-! ## The front cache (R369) -/

/-- A line of a draining front cache: dirty data to the tier, then invalid. -/
def State.drainLine (line : Nat) (x : FcLine) (s : State) : State :=
  if x.st = .unmodified then s.fcDrop line
  else
    match s.moveToTier line { x with locked := false } with
    | some t => t.upFc (fun c => { c with drainWritten := c.drainWritten + 1 })
    | none => (s.fcPut line { x with
        locked := false
        waiting := true }).pressSet (sectorOf line)
/-- Every line that can leave the front cache now leaves it. -/
def State.fcDrain (s : State) : State := s.fc.lines.foldl (fun t kx => t.drainLine kx.1 kx.2) s
/-- 2100h.01 written while the module runs (R369): 00h starts the drain; 01h enables, and is busy while Enable reads 01h. -/
def State.fcEnable (on : Bool) (s : State) : Nat × State :=
  let store := fun (t : State) => t.setEntry 0x2100 1 [if on then 1 else 0]
  if !s.fastOn then (0, store s)
  else if on then
    if s.fc.enabled then (0x04010000, s)
    else (0, ((store s).upFc (fun c => { c with enabled := true })).log 0x2104 0)
  else if !s.fc.enabled ∨ s.fc.disabling then (0, store s)
  else (0, ((store s).upFc (fun c => { c with
    disabling := true
    drainWritten := 0 })).fcDrain)
/-- The drain goes on, and is done once the front cache holds no valid line: 2103h (R369). -/
def State.fcDrained (s : State) : State :=
  if !s.fc.disabling then s
  else
    let t := s.fcDrain
    if t.fc.lines.isEmpty then
      (t.upFc (fun c => { c with
        enabled := false
        disabling := false })).log 0x2103 t.fc.drainWritten
    else t

/-! ## The firmware update (R413 to R415, R536, R537) -/

/-- The inactive slot: the one that does not run; in recovery, the one tried last. -/
def State.inactiveSlot (s : State) : Nat := if s.pwr.boot = .recovery then 1 - s.fw.active else 1 - s.fw.current
/-- Change the inactive slot; its header's figures follow its bytes, and register 2 with them (R413, R416). -/
def State.putSlot (f : FwSlot → FwSlot) (s : State) : State :=
  let k := s.inactiveSlot
  let x := f (s.fwSlot k)
  let num := fun (a n : Nat) => leNat ((List.range n).map (fun i => x.byteAt (a + i)))
  let y : FwSlot := { x with
    version := num 16 8
    security := num 6 2
    compat := num 8 2 }
  (s.upFw (fun w => if k = 0 then { w with slot0 := y } else { w with slot1 := y })).measure 2
/-- Bytes of a slot replaced from an offset on. -/
def FwSlot.write (off : Nat) (bs : Bytes) (f : FwSlot) : FwSlot :=
  let e := off + bs.length
  let cut := f.chunks.foldl (fun (t : Tab Bytes) kv =>
    let k := kv.1
    let v := kv.2
    if e ≤ k ∨ k + v.length ≤ off then Tab.put t k v
    else
      let t1 := if k < off then Tab.put t k (v.take (off - k)) else t
      if e < k + v.length then Tab.put t1 e (v.drop (e - k)) else t1) []
  { f with chunks := if bs = [] then cut else Tab.put cut off bs }
/-- 9050h Control 01h: the erase of the inactive slot starts; a slot waiting to run no longer does (log entry 26). -/
def State.fwBegin (s : State) : Nat × State :=
  if s.fw.ctl = 1 then (0x04010000, s)
  else
    (0, (s.putSlot (fun f => { f with chunks := [] })).upFw (fun w => { w with
      begun := true
      ctl := 1
      op := 1
      received := 0
      result := 0
      passed := false
      pending := if s.pwr.boot = .recovery then w.pending else w.current }))
/-- A chunk at an offset (R536, R537): refused before begin, and past the end of the slot; a verify that passed is void. -/
def State.fwChunk (off : Nat) (bs : Bytes) (s : State) : Nat × State :=
  if s.fw.ctl = 1 then (0x04010000, s)
  else if !s.fw.begun then (0x04020000, s)
  else if 8388608 < off + bs.length then (0x03030000, s)
  else
    (0, ((s.putSlot (FwSlot.write off bs)).setEntry 0x9050 1 (natLe 4 (off + bs.length))).upFw (fun w => { w with
      received := w.received + bs.length
      passed := false }))
/-- 9050h Control 02h: the verify of the inactive slot starts. -/
def State.fwVerify (s : State) : Nat × State :=
  if s.fw.ctl = 1 then (0x04010000, s)
  else if !s.fw.begun then (0x04020000, s.upFw (fun w => { w with ctl := 3 }))
  else (0, s.upFw (fun w => { w with
    ctl := 1
    op := 2
    passed := false }))
/-- 9050h Control 03h (R537): only after a verify that passed; at the next cold reset, or at once in recovery. -/
def State.fwActivate (s : State) : Nat × State :=
  if s.fw.ctl = 1 then (0x04010000, s)
  else if !s.fw.passed then (0x04020000, s.upFw (fun w => { w with ctl := 3 }))
  else
    let k := s.inactiveSlot
    let t := s.upFw (fun w => { w with
      pending := k
      ctl := 2 })
    (0, if s.pwr.boot = .recovery then (t.upFw (fun w => { w with active := k })).startFast k 0 [] else t)
/-- 9050h Control 00h: the update is abandoned. -/
def State.fwCancel (s : State) : Nat × State :=
  (0, s.upFw (fun w => { w with
    begun := false
    ctl := 0
    op := 0
    passed := false }))
/-- The erase or the verify ends (R537): Control 02h, or 04h with the reason of R414. -/
def State.fwDone (v : FwVerdict) (s : State) : State :=
  if s.fw.ctl ≠ 1 then s
  else if s.fw.op = 1 then s.upFw (fun w => { w with
    ctl := 2
    op := 0 })
  else
    let why := s.fwReason s.inactiveSlot v
    s.upFw (fun w => { w with
      ctl := if why = 0 then 2 else 4
      op := 0
      result := why
      passed := decide (why = 0)
      verifyMs := 1900 })

/-! ## Test state (R539) -/

/-- A000h Control 01h: only when prepared, in a state that serves no pair, with no background command. The module stops its
internal masters and is in Test state at once. -/
def State.testEnter (s : State) : Nat × State :=
  if s.pwr.test ≠ 0 then (0, s)
  else if s.pwr.arm ≠ 3 ∨ s.yoke.member ∉ [0, 1, 5, 8] then s.refuse 0xA000 0x04020000
  else if s.mbox.background ≠ 0 then s.refuse 0xA000 0x04010000
  else
    let t := s.care.copySets.foldl (fun u k => u.dropSet k) s
    (0, (t.setCtl 0xA000 0).upPwr (fun p => { p with
      test := 2
      memoryActive := false }))
/-- A000h Control 00h: DRAM's content is gone, and the module starts again from verified firmware as after a clean shutdown. -/
def State.testLeave (s : State) : Nat × State :=
  if s.pwr.test = 0 then (0, s.setCtl 0xA000 0) else (0, s.testEnd)

/-! ## Built-in tests (R543, R544) -/

/-- A010h Control 01h by a role. -/
def State.selfTestStart (r : Role) (s : State) : Nat × State :=
  let test := s.selector r 0xA010 1
  let count := s.selector r 0xA010 2
  let clear := fun (t : State) => (((t.setVal 0xA010 4 0).setVal 0xA010 5 0).setVal 0xA010 6 0).setVal 0xA010 7 0
  if s.ctl 0xA010 = 1 then (0x04010000, s)
  else if (test = 1 ∨ test = 3) ∧ s.pwr.test ≠ 2 then s.refuse 0xA010 0x04020000
  else if test = 4 ∧ count = 0 then (0, (clear s).setCtl 0xA010 2)
  else
    let t := ((clear s).setCtl 0xA010 1).putJob 0xA010
      { base := test
        count := count
        since := s.clk.now }
    (0, if test = 1 then t.upTier (fun x => { x with
      sectors := []
      tagCache := [] }) else t)
/-- A010h Control 00h. -/
def State.selfTestCancel (s : State) : Nat × State :=
  (0, if s.ctl 0xA010 = 1 then (s.setCtl 0xA010 0).dropJob 0xA010 else s)
/-- A block group a media test has programmed, verified and reset (R544): one more erase, or its retirement at RetireCycles
(R249); blocks that failed retire (R248). -/
def State.testGroup (bad : List Nat) (g : Nat) (s : State) : State :=
  let x := s.grp g
  if s.entry 0x2220 2 ≤ x.erase then s.wearOut g
  else
    let cols := (bad.filter (fun b => decide (b / 16 = g))).map (fun b => b % 16)
    (s.setGroup g { x with erase := min (x.erase + 1) 0xFFFFFF }).dropCols g cols.eraseDups
/-- A built-in test ends (R544): what it found; a media test has used the first Count Free quads of the queue (log entry 24),
and waits while A is below 8. -/
def State.selfTestDone (errors first : Nat) (bad : List Nat) (s : State) : State :=
  match s.job 0xA010 with
  | none => s
  | some j =>
    if s.ctl 0xA010 ≠ 1 ∨ (j.base = 4 ∧ s.available < 8) then s
    else
      let gs := (((s.map.queue.filter (fun q => s.quadOpen q)).take j.count).map (fun q =>
        (quadGroups q).filter (fun g => decide ((s.grp g).st = .free)))).foldl (· ++ ·) []
      let t := if j.base = 4 then (gs.foldl (fun u g => u.testGroup bad g) s).checkDies else s
      let u := ((t.setVal 0xA010 4 100).setVal 0xA010 5 errors).setVal 0xA010 6 (if errors = 0 then 0 else first)
      ((u.setVal 0xA010 7 ((s.clk.now - j.since) / 1000000)).setCtl 0xA010 (if errors = 0 then 2 else 4)).dropJob 0xA010

/-! ## Read-back (R545) -/

/-- Why a read of A040h.03 by a role is refused; 0 when it is not. -/
def State.readBackCode (r : Role) (s : State) : Nat :=
  let src := s.selector r 0xA040 1
  let a := s.selector r 0xA040 2
  let v := s.ident.variant
  if r = .debug ∧ ((src = 0 ∧ bits (s.partner 4094).scope 2 2 = 0) ∨ (src = 1 ∧ bits (s.partner 4094).scope 1 1 = 0)) then
    0x02030000
  else if src ≤ 1 then
    if 2 ^ 37 ≤ a ∨ v.positions ≤ ppaPos (bits a 33 0) ∨ (src = 1 ∧ !s.slotGroup (ppaGroup (bits a 33 0))) then 0x03030000
    else if Tab.get 0 s.media.dieSt (ppaDie (bits a 33 0)) ≠ 0 then 0x04030000
    else 0
  else if src = 2 then (if v.grains ≤ a then 0x03030000 else 0)
  else if (v.grains + 10239) / 10240 ≤ a then 0x03030000 else 0

end Sys2Proof.Machine
end

