-- ==== Sys2Proof/Machine/Counters.lean ====
section
/-!
DEFINITION. Performance counters and their snapshot (R500 to R510), the Firkin's periods and its freeze (R511 to R517), and
the reads of the event pail (R519 to R524).
-/
namespace Sys2Proof.Machine

/-! ## Counters (R501 to R510) -/

/-- The 80 bytes a block latches: Cycles, eight values, Overflow and 7 reserved bytes (R510). -/
def State.latchBlock (s : State) (b : Nat) : Bytes :=
  natLe 8 (Tab.get 0 s.perf.cycles b) ++
    ((List.range 8).map (fun n => natLe 8 (Tab.get 0 s.perf.value (b * 8 + n)))).foldl (· ++ ·) [] ++
    natLe 1 (Tab.get 0 s.perf.overflow b) ++ natLe 7 0
/-- 6FF0h Control 01h or 02h (R507): every block latches at this tick; with 02h its counters, Overflow and
LastSample start again (R528). -/
def State.snapshot (clear : Bool) (s : State) : Nat × State :=
  if s.perf.snapSt = 1 then (0x04010000, s)
  else
    let t := s.upPerf (fun p => { p with
      snapSt := 1
      snapStamp := s.clk.stamp
      latched := ((List.range 61).map (fun b => s.latchBlock b)).foldl (· ++ ·) [] })
    (0, if clear then t.upPerf (fun p => { p with
        cycles := []
        value := []
        overflow := []
        samples := [] })
      else t)
/-- COUNTER_SNAPSHOT_READY (R507): the central reader has gathered what the blocks latched. -/
def execCounterSnapshotReady (s : State) : Host.Outcome State Fault Refusal :=
  .next (if s.perf.snapSt = 1 then s.upPerf (fun p => { p with
      snapSt := 2
      gathered := p.latched })
    else s)
/-- COUNTER_WRAP (R501, R505): an event at a counter that holds 2^48 − 1 and selects one; the request named is the one a
sample records. -/
def execCounterWrap (block n addr partner : Nat) (s : State) : Host.Outcome State Fault Refusal :=
  let k := block * 8 + n
  .next (if s.blockRuns block ∧ bits (Tab.get 0 s.perf.select k) 7 0 ≠ 0 ∧ Tab.get 0 s.perf.value k = 2 ^ 48 - 1 then
      s.wrap block n (2 ^ 48) addr partner
    else s)

/-! ## The Firkin (R512 to R516) -/

/-- 7000h Freeze (R515): 01h freezes for 600 s from now; 00h thaws, and closes a period whose end has passed. -/
def State.thaw (s : State) : State :=
  if !s.firkin.frozen then s
  else if s.firkin.running ∧ s.entry 0x7000 1 ≤ s.firkinAge then s.closePeriod false
  else s.upFirkin (fun f => { f with frozen := false })
/-- 7000h Freeze 01h (R515). -/
def State.freeze (s : State) : State :=
  s.upFirkin (fun f => { f with
    frozenAt := if f.frozen then f.frozenAt else s.clk.now
    frozen := true
    thawAt := s.clk.now + 600 * sec })
/-- FIRKIN_PERIOD_CLOSE (R512): the open period has lasted Period seconds, and the Firkin is not frozen. -/
def execFirkinPeriodClose (s : State) : Host.Outcome State Fault Refusal :=
  .next (if s.firkin.running ∧ !s.firkin.frozen then
      (s.elapseTo (s.firkin.startNow + s.entry 0x7000 1 * sec)).closePeriod false
    else s)
/-- FIRKIN_AUTO_THAW (R515): the timer has run out, or the open period has lasted 65,535 s: 7001h with the seconds frozen. -/
def execFirkinAutoThaw (s : State) : Host.Outcome State Fault Refusal :=
  .next (if s.firkin.running ∧ s.firkin.frozen then
      let t := s.elapseTo (min s.firkin.thawAt (s.firkin.startNow + 65535 * sec))
      t.thaw.log 0x7001 ((t.clk.now - s.firkin.frozenAt) / sec)
    else s)

/-! ## The event pail (R519 to R524) -/

/-- The role ConsumerRole names (R523). -/
def State.consumer (s : State) : Role :=
  if s.entry 0x7100 4 = 0 then .operator else if s.entry 0x7100 4 = 1 then .fabric else .debug
/-- Entries of the packet a read of 7101h.02 by the role would fix (R521). -/
def State.packetOf (s : State) (r : Role) : Nat := min (s.selector r 0x7101 1) s.obs.pail.length
/-- The read pointer passes a packet of n entries (R521); with room again, 7101h is placed for the events lost (R520). -/
def State.passPacket (n : Nat) (s : State) : State :=
  (s.upObs (fun o => { o with
    pail := o.pail.drop n
    packet := none })).settleOverrun
/-- 7100h DropRemainder (R521): the read pointer moves past the packet of a running read, whose transfer closes. -/
def State.dropRemainder (s : State) : State :=
  match s.obs.packet with
  | none => s
  | some n =>
    match s.dict.transfers.find? (fun kt => decide (kt.2.index = 0x7101) && decide (kt.2.sub = 2) && decide (kt.2.ended = 0)) with
    | some (route, _) => (s.endTransfer route 0x01060000).passPacket n
    | none => s.upObs (fun o => { o with packet := none })
/-- A read of Overrun returns the bit and clears it (R523). -/
def State.clearOverrun (s : State) : State := s.upObs (fun o => { o with overrun := false })

end Sys2Proof.Machine
end

