-- ==== Sys2Proof/Machine/Pair.lean ====
section
/-!
DEFINITION. The work of a yoked pair beside its writes: the handshake (R307 to R314), liveness and the decision in Suspect (R325
to R334), resync (R342 to R346), pair commits (R347), notices and the wipes they carry (R70, R349 to R351), and the commands of
4100h.07 (R352).
-/
namespace Sys2Proof.Machine

/-! ## Entering states -/

/-- Become Sole by any route (R332, R333, R347, R350, R567): the pair commit is lost, the outstanding grain changes are
completed alone, and a BrineRelease that waited for the peer completes here. -/
def State.becomeSole (cause : Nat) (s : State) : State :=
  let t := ((s.enterSole cause).loseCommit).soleJobs
  match t.job 0x9028 with
  | some _ => (((t.leaveBrine.record 6 0 0 0).setCtl 0x9028 2).dropJob 0x9028)
  | none => t
/-- Fence (R330, R332, R334). -/
def State.becomeFenced (s : State) : State := s.loseCommit.enterFenced
/-- Enter Paired (R311, R312): both epochs at one more than the higher PairEpoch, or as a peer that is already Paired has
them; StaleSelf is cleared; 4101h. -/
def State.enterPaired (m : Membership) (s : State) : State :=
  let own := s.yoke.record.pairEpoch
  let e := if m.state = 2 then m.pairEpoch else (max own m.pairEpoch + 1) % 2 ^ 32
  let b := if m.state = 2 then m.baseEpoch else e
  let s1 := s.writeRecord (fun r => { r with
    pairEpoch := e
    baseEpoch := b
    lastRole := 0
    staleSelf := false
    peerSerial := m.serial })
  let s2 := (s1.setMember 2).upYoke (fun y => { y with
    split := false
    peer := some { m with
      pairEpoch := e
      baseEpoch := b } })
  s2.log 0x4101 e
/-- What this module last heard of its peer. -/
def State.peerNow (s : State) : Membership := s.yoke.peer.getD (s.payload 0)
/-- Resync ends once this module has no bit set (R310, R344): Paired, and 4108h with the grains copied. -/
def State.endResync (s : State) : State :=
  if (s.yoke.member = 6 ∨ s.yoke.member = 7) ∧ s.divergentCount = 0 then
    (s.enterPaired s.peerNow).log 0x4108 s.yoke.copied
  else s

/-! ## The handshake (R307, R308, R312) -/

/-- The position a module resolves to from its own setting and serial number and the peer's (R308). -/
def resolvePosition (own serial peer peerSerial : Nat) : Nat :=
  if own < 2 then own
  else if peer < 2 then 1 - peer
  else if serial < peerSerial then 0
  else 1
/-- The two modules are strangers: one is not the other's recorded peer (R346). -/
def State.strange (s : State) (m : Membership) (x : HelloInfo) : Bool :=
  decide (s.yoke.record.peerSerial ≠ m.serial) || !x.knowsUs
/-- This module holds a mapped grain. -/
def State.holdsMapped (s : State) : Bool := s.map.entries.any (fun kv => decide (kv.2.st = .mapped))
/-- The first check of R307 that fails, 0 when all pass. The sixth fails when two strangers both hold mapped grains and Join
has not been commanded at either (R346, log entry 29). -/
def State.joinReason (s : State) (m : Membership) (x : HelloInfo) : Nat :=
  let own := s.entryInForce 0x4100 2
  if m.deviceId ≠ s.ident.variant.deviceId then 1
  else if m.pairId ≠ s.entryInForce 0x4100 4 then 2
  else if resolvePosition own s.ident.serial x.position m.serial = resolvePosition x.position m.serial own s.ident.serial then 3
  else if x.seniorPosition ≠ s.entry 0x4100 3 then 4
  else if m.compat ≠ s.compat then 5
  else if s.strange m x && s.holdsMapped && x.holdsMapped && !s.yoke.joinGiven && !x.joinGiven && !s.yoke.prevailGiven &&
    !x.prevailGiven then 6
  else 0
/-- The outcome of R312 in the order of its table: 1 Split, 2 this module feeds, 3 it receives, 4 Paired. -/
def State.outcome (s : State) (m : Membership) (x : HelloInfo) : Nat :=
  let feed := fun (b : Bool) => if b then 2 else 3
  let mine := decide (s.yoke.record.lastRole = 1)
  let its := decide (m.lastRole = 1)
  if s.yoke.prevailGiven then 2
  else if x.prevailGiven then 3
  else if mine && its && decide (s.yoke.record.baseEpoch = m.baseEpoch) then 1
  else if mine != its then feed mine
  else if s.strange m x then feed (if s.holdsMapped != x.holdsMapped then s.holdsMapped else s.senior)
  else if s.yoke.record.staleSelf != m.staleSelf then feed m.staleSelf
  else if s.yoke.record.staleSelf || decide (s.divergentCount ≠ 0) || decide (x.divergentCount ≠ 0) then feed s.senior
  else 4
/-- Take the peer's committed range table, range groups and partner table (R312). -/
def State.adoptTables (recs : List StageRec) (s : State) : State :=
  let old := s.tabs.ranges
  let t := (s.upTabs (fun x => { x with
    ranges := []
    targets := []
    partners := [] })).setRecs recs
  let t1 := recs.foldl (fun u r => u.save r.value.length) t
  (((t1.keysAfter old).rekeyAfter old).clearReservations.measure 4).measure 3

/-! ## Wipes and notices (R70, R349 to R351) -/

/-- The key IDs with a key. -/
def State.activeKeys (s : State) : List Nat := (s.keys.recs.filter (fun kv => decide (kv.2.st ≠ 0))).map (fun kv => kv.1)
/-- Start a Sanitize (4400h) or a Secure Erase (4401h) of this module under a job (R70): the requests held are answered as those that
arrive meanwhile (R58), then the whole space is discarded securely, or every key ID gets a fresh key. A write already applied here or
ordered before the wipe completes as it would have. -/
def State.wipe (op key : Nat) (s : State) : State :=
  let s0 := (s.reqs.list.filter (fun r => decide (r.entry ≠ internal) && decide (r.stage ∉ [Stage.peer, .program]))).foldl (fun t r => t.heldToFenced r) s
  let s1 := (s0.upMbox (fun m => { m with
    background := op
    bgPeer := decide (key ≠ op) })).putJob key
      { length := s.ident.variant.capacity
        gen := s.media.gen
        since := s.dump.next }
  if op = 0x4400 then (if key = op then s1.eraseSpan key 0 s.ident.variant.capacity else s1.eraseStage key)
  else s1.activeKeys.foldl (fun t id => t.cryptoKey id true) s1
/-- Start a wipe commanded at this module (R70, R349): in a pair Notice 0003h tells the peer of a Secure Erase at once, Notice
0002h of a Sanitize once the space is unmapped. -/
def State.wipeStart (op : Nat) (s : State) : State :=
  let t := s.wipe op op
  if op = 0x4401 ∧ s.paired then
    match t.job op with
    | some j => (t.putJob op { j with notice := true }).send { ty := 0x13, aux := 3 }
    | none => t
  else t
/-- Carry out a command of the peer (R349): Sanitize, Secure Erase, secure discard, crypto-discard, BrineRelease. `fresh`
unmaps the span first, where no GrainChange has (R350). A crypto-discard gives the ID a fresh key with Renew, which bit 12 of the number
carries above the key ID (DESIGN CHOICE, log entry 152), and when an enabled range is bound to it. A BrineRelease is carried out once the
conditions of R265 hold here. -/
def State.carryNotice (code keyId base len : Nat) (fresh : Bool) (s : State) : State :=
  if code = 1 then s.enterBrine 2
  else if code = 2 then
    let t := s.wipe 0x4400 0x8002
    if fresh then t.eraseSpan 0x8002 0 s.ident.variant.capacity else t
  else if code = 3 then s.wipe 0x4401 0x8003
  else if code = 4 then
    let t := s.putJob 0x8004
      { base := base
        length := len
        gen := s.media.gen
        since := s.dump.next }
    if fresh then t.eraseSpan 0x8004 base len else t.eraseStage 0x8004
  else if code = 5 then
    (s.putJob 0x8005
      { keyId := keyId % 4096
        since := s.dump.next }).cryptoKey (keyId % 4096) (decide (keyId / 4096 % 2 = 1 ∨ s.boundRanges (keyId % 4096) ≠ 0))
  else if code = 6 then (s.putJob 0x8006 {}).answerRelease
  else s
/-- The peer has carried out this module's command (R349): the job waits for it no longer; BrineRelease completes. -/
def State.noticeAnswer (key : Nat) (s : State) : State :=
  match s.job key with
  | none => s
  | some j =>
    if !j.notice then s
    else if key = 0x9028 then ((s.leaveBrine.setCtl key 2).dropJob key)
    else s.putJob key { j with notice := false }
/-- The job a notice's answer belongs to. -/
def noticeJob (code : Nat) : Nat :=
  if code = 0x8002 then 0x4400
  else if code = 0x8003 then 0x4401
  else if code = 0x8004 then 0x9010
  else if code = 0x8005 then 0x9018
  else 0x9028
/-- Notice (R349): other codes are reserved and change nothing. -/
def State.takeNotice (code keyId base len : Nat) (s : State) : State :=
  if 2 ≤ code ∧ code ≤ 5 then (s.carryNotice code keyId base len false).checkDies
  else if code = 1 ∨ code = 6 then s.carryNotice code keyId base len false
  else if 0x8002 ≤ code ∧ code ≤ 0x8006 then s.noticeAnswer (noticeJob code)
  else s

/-! ## The outcome carried out -/

/-- This module feeds (R312, R342, R346): a newcomer is fed every mapped grain. -/
def State.feed (m : Membership) (newcomer : Bool) (s : State) : State :=
  let s1 := if newcomer then
      (s.map.entries.filter (fun kv => decide (kv.2.st = .mapped))).foldl (fun t kv => t.mark kv.1) s
    else s
  (s1.upYoke (fun y => { y with recorded := [] })).startResync 6 m.serial
/-- This module receives (R312, R346, R350): it takes the tables, carries out the commands recorded at the feeder, and forgets
its cached lines of the grains marked (log entry 27); a newcomer's own content is replaced (log entry 32). -/
def State.receive (m : Membership) (x : HelloInfo) (newcomer : Bool) (s : State) : State :=
  let s1 := s.adoptTables x.tables
  let s2 := if newcomer then s1.changeRun .unwritten (0, s.ident.variant.grains) else s1
  let s3 := x.recorded.foldl (fun t c => t.carryNotice c.1 c.2.1 c.2.2.1 c.2.2.2 true) s2
  let s4 := s3.forgetLines (fun l => s3.marked (grainOf l))
  s4.startResync 7 m.serial
/-- The handshake decides from a Hello (R307, R312, R327, R338, R351). -/
def State.handshake (m : Membership) (x : HelloInfo) (s : State) : State :=
  let s0 := if s.entry 0x4100 5 = 0 then s.log 0x410A 3 else s
  let why := s0.joinReason m x
  let own := s.entryInForce 0x4100 2
  let place := fun (t : State) => t.upYoke (fun y => { y with
    position := resolvePosition own s.ident.serial x.position m.serial })
  if why ≠ 0 then
    let s1 := ((if 3 < why then place s0 else s0).upYoke (fun y => { y with joinBlock := why })).log 0x4102 why
    if why = 1 then
      (if s.yoke.member = 1 then s1.setMember 0 else s1).log 0x410C m.deviceId
    else s1
  else
    let s1 := (place s0).upYoke (fun y => { y with
      joinBlock := 0
      peerMarked := x.divergentCount
      peer := some m })
    let s2 := if m.brine then s1.enterBrine 2 else s1
    let out := s2.outcome m x
    let s3 := s2.upYoke (fun y => { y with
      joinGiven := false
      prevailGiven := false })
    let newcomer := s2.strange m x || s2.yoke.prevailGiven && !s2.yoke.split || x.prevailGiven && !s2.yoke.split
    if out = 1 then
      let s4 := s3.upYoke (fun y => { y with split := true })
      if s3.senior then s4.log 0x4109 x.divergentCount
      else
        let s5 := s4.setMember 8
        s5.dropHeld.clearReservations.log 0x4109 s5.divergentCount
    else if out = 2 then
      let t := s3.feed m newcomer
      if x.divergentCount = 0 then t.endResync else t
    else if out = 3 then
      let t := s3.receive m x newcomer
      if x.divergentCount = 0 ∧ !newcomer then t.endResync else t
    else (if s3.senior then s3 else s3.adoptTables x.tables).enterPaired m

/-! ## Liveness (R325 to R331) -/

/-- The yoke port runs: the fast domains are up and PairEnable is in force (R307). -/
def State.yokePort (s : State) : Bool := s.mastersRun && decide (s.entryInForce 0x4100 1 = 1)
/-- The yoke link is trained. -/
def State.yokeTrained (s : State) : Bool := s.yokePort && decide (s.yoke.speed ≠ 0)
/-- A valid frame was heard (R325). Outside a pair the modules exchange Hello messages once the yoke is heard again (R307). -/
def State.heard (s : State) : State :=
  let t := s.upYoke (fun y => { y with
    lastYoke := s.clk.now
    silent := false })
  if s.yoke.silent ∧ s.yoke.member ∈ [0, 1, 4, 5] then t.sendMember 0x0C else t
/-- The yoke falls silent (R310, R325, R347): a pair enters Suspect with 4103h, its commit is lost. -/
def State.goSilent (s : State) : State :=
  let t := s.upYoke (fun y => { y with
    silent := true
    silentAt := if y.silent then y.silentAt else s.clk.now })
  if s.paired then ((t.log 0x4103 0).loseCommit).enterSuspect else t
/-- The link is lost, until it trains again. -/
def State.yokeDown (s : State) : State :=
  (s.upYoke (fun y => { y with
    speed := 0
    width := 0 })).goSilent
/-- A module in Suspect hears its peer with both epochs unchanged (R310, R332): back to the state before, held work goes on. -/
def State.resume (m : Membership) (s : State) : State :=
  if s.yoke.member = 3 ∧ m.pairEpoch = s.peerNow.pairEpoch ∧ m.baseEpoch = s.peerNow.baseEpoch ∧ m.state ∈ [2, 3, 6, 7] then
    s.leaveSuspect.sendHeld.workPail
  else s
/-- What a membership payload tells of the peer while the epochs known stay (R331); a peer that has entered Paired ahead of this module
has new ones (R311). -/
def State.notePeer (m : Membership) (s : State) : State :=
  s.upYoke (fun y => { y with
    peer := y.peer.map (fun p => { p with
      state := m.state
      lastRole := m.lastRole
      serving := m.serving
      pairEpoch := if m.state = 2 ∧ (y.member = 6 ∨ y.member = 7) then m.pairEpoch else p.pairEpoch
      baseEpoch := if m.state = 2 ∧ (y.member = 6 ∨ y.member = 7) then m.baseEpoch else p.baseEpoch }) })
/-- What the alive wire and the management route show (R331): 1 serving, 2 standing down, 0 silent. -/
def State.peerSeen (s : State) : Nat :=
  if s.yoke.wire = 1 ∨ s.routeSeen = 1 then 1 else if s.yoke.wire = 2 ∨ s.routeSeen = 2 then 2 else 0
/-- A module in Suspect that was Receiving (R331). -/
def State.wasReceiver (s : State) : Bool := decide (s.yoke.prev = 7)
/-- A module in Suspect acts as the senior: it is, or it was Feeding (R331). -/
def State.actsSenior (s : State) : Bool := s.senior || decide (s.yoke.prev = 6)
/-- All three channels have been silent for 2 s from this moment on (R325, R331). -/
def State.takeoverAt (s : State) : Nat :=
  let route := if s.entry 0x4100 5 = 0 then 0 else s.yoke.lastPulse + 1000000000
  max s.yoke.silentAt (max (s.yoke.lastWire + 20000000) route) + 2000000000
/-- The peer is seen to have stood down (R331): 4104h with the channel, Sole with cause 1 for a fenced peer, 2 otherwise. -/
def State.soleAfterStandDown (s : State) : State :=
  let fenced := decide (s.peerNow.state = 5) && decide (s.routeSeen = 2)
  (s.log 0x4104 (if s.yoke.wire = 2 then 2 else 3)).becomeSole (if fenced then 1 else 2)
/-- The decision of R331 with the signals as they stand now. -/
def State.decideNow (s : State) : State :=
  let waited := s.clk.now - s.yoke.suspectAt
  if s.yoke.member ≠ 3 then s
  else if s.wasReceiver then (if 5000000 ≤ waited then s.becomeFenced else s)
  else if s.peerSeen = 1 then
    (if (if s.actsSenior then 1000000000 else 5000000) ≤ waited then s.becomeFenced else s)
  else if s.peerSeen = 2 then s.soleAfterStandDown
  else if s.takeoverAt ≤ s.clk.now then s.becomeSole 3
  else s
/-- A StandDown message (R310): Sole with cause 2, 4104h parameter 1; a receiver fences. -/
def State.peerStoodDown (m : Membership) (s : State) : State :=
  let t := s.notePeer m
  let st := s.yoke.member
  if st = 7 ∨ (st = 3 ∧ s.wasReceiver) then
    (if st = 7 then t.upYoke (fun y => { y with suspectStamp := s.clk.stamp }) else t).becomeFenced
  else if st ∈ [2, 3, 6] then (t.log 0x4104 1).becomeSole 2
  else t

/-! ## Resync (R342 to R346) -/

/-- The order in which marked grains are copied (R344): by the ResyncRank of their range, then by number. DESIGN CHOICE: a grain in no
enabled range, which has no rank, goes last (log entry 102). -/
def State.resyncRank (s : State) (g : Nat) : Nat :=
  match s.rangeAt (g * 16384) with
  | some (_, r) => r.rank
  | none => 255
/-- The marked grain the feeder reads next: one with lines Dirty at the receiver, else by rank (R344). -/
def State.nextResync (s : State) : Option Nat :=
  (s.markedGrains.filter (fun g => !s.yoke.resyncSent.contains g)).foldl (fun acc g =>
    match acc with
    | none => some g
    | some b =>
      if s.yoke.copyNext.contains g ≠ s.yoke.copyNext.contains b then (if s.yoke.copyNext.contains g then some g else some b)
      else if s.resyncRank g < s.resyncRank b ∨ (s.resyncRank g = s.resyncRank b ∧ g < b) then some g else some b) none
/-- The 2,192-byte payload of a ResyncSector message (R319). -/
def State.sectorBytes (s : State) (first : Nat) : Bytes :=
  let ls := (List.range 32).map (fun j => first + j)
  let mask := ((List.range 32).map (fun j => if s.poisoned (first + j) then 2 ^ j else 0)).foldl (· + ·) 0
  (ls.map (fun l => natLe 64 (s.current l).toNat)).foldl (· ++ ·) []
    ++ (ls.map (fun l => natLe 4 (lineCrc (s.current l)).toNat)).foldl (· ++ ·) [] ++ natLe 4 mask ++ natLe 12 0
/-- The feeder reads a marked grain at one point in its order of writes and sends it (R343): eight ResyncSector messages, or one
for an unmapped grain none of whose lines is cached. Lines the ladder cannot recover are lost. -/
def State.feedGrain (g : Nat) (reads : List WordRead) (s : State) : State :=
  let ls := s.unheld ((List.range 256).map (fun j => g * 256 + j))
  let (bad, s0) := s.readLines ls [] reads
  let s1 := ((s0.loseLines bad).moveRebuilt (s.wordsOf ls) reads).upYoke (fun y => { y with
    resyncSent := y.resyncSent ++ [g]
    resyncAt := s.clk.now })
  if s.isMapped g ∨ s.dirtyLines g ≠ [] then
    (List.range 8).foldl (fun t k => t.send
      { ty := 7
        num := g
        aux := k + 16
        body := s1.sectorBytes (g * 256 + k * 32) }) s1
  else s1.send { ty := 7, num := g, aux := 16 * grainCode (s.mapEntry g).st }
/-- A ResyncSector at the receiver (R343): an unmapped grain's state is taken at once, its reservations are cleared (R297) and it is
acknowledged; eight sectors of a mapped grain make a page. -/
def State.takeSector (g sector st : Nat) (data : List Line) (bad : BitVec 32) (s : State) : State :=
  if st ≠ 1 then
    let ls := ((List.range 256).map (fun j => g * 256 + j)).filter (fun l => !s.isDirty l)
    let t := ls.foldl (fun u l => (u.dropLine l).unpoison l) s
    ((t.endRes (fun r => decide (grainOf r.line = g)) 8).finishRun (grainOfCode st) (g, 1)).send { ty := 8, num := g }
  else
    let put := fun (t : Tab Line) => (List.range 32).foldl (fun u j => Tab.set 0 u (sector * 32 + j) (data.getD j 0)) t
    let got := Tab.get 0 s.yoke.sectorGot g
    let all := got ||| 2 ^ sector
    (s.upYoke (fun y => { y with
      sectors := Tab.put y.sectors g (put (Tab.get [] y.sectors g))
      sectorPoison := Tab.set 0 y.sectorPoison g (Tab.get 0 y.sectorPoison g ||| bad.toNat * 2 ^ (sector * 32))
      sectorGot := Tab.set 0 y.sectorGot g all })).runResync
/-- ResyncAck at the feeder (R343, R344). -/
def State.resyncAcked (g : Nat) (s : State) : State :=
  if s.yoke.member = 6 ∧ s.yoke.resyncSent.contains g then
    (((s.unmark g).upYoke (fun y => { y with
      resyncSent := y.resyncSent.filter (fun x => decide (x ≠ g))
      copyNext := y.copyNext.filter (fun x => decide (x ≠ g))
      copied := y.copied + 1 })).send { ty := 9, num := g }).endResync
  else s
/-- ResyncClear at the receiver (R343): the bit is cleared once every earlier Forward of the grain has been answered. -/
def State.resyncCleared (g : Nat) (s : State) : State :=
  if s.yoke.member ≠ 7 then s
  else if s.yoke.flights.any (fun f => f.isForward && decide (grainOf f.line = g)) then
    s.upYoke (fun y => { y with clearWait := if y.clearWait.contains g then y.clearWait else y.clearWait ++ [g] })
  else ((s.unmark g).upYoke (fun y => { y with copied := y.copied + 1 })).endResync
/-- A bitmap unit is ORed into this module's bitmap (R342); at a Paired module it says that the peer receives (R310); the
receiver forgets its cached lines of the grains newly marked. -/
def State.takeBitmap (unit : Nat) (set : List Nat) (s : State) : State :=
  let gs := ((set.map (fun k => unit * 10240 + k)).filter (fun g => decide (g < s.ident.variant.grains))).filter (fun g => !s.marked g)
  let t := gs.foldl (fun u g => u.mark g) s
  if s.yoke.member = 2 then t.startResync 6 s.yoke.record.peerSerial
  else if s.yoke.member = 7 then t.forgetLines (fun l => gs.contains (grainOf l))
  else t

/-! ## Pair commits at the peer and their answers (R320, R347) -/

/-- CommitPrepare (R320): the segments are assembled in order; after the last this module votes. -/
def State.takePrepare (batch seg : Nat) (last : Bool) (recs : List StageRec) (s : State) : State :=
  let fresh : PairCommit := { role := .peer, route := .yoke, tid := 0, spec := 0, batch := batch }
  let old := match s.dict.theirs with
    | some p => if p.batch = batch then p else fresh
    | none => fresh
  let p := { old with
    bad := old.bad || decide (seg ≠ old.nextSeg)
    nextSeg := old.nextSeg + 1
    recs := old.recs ++ recs }
  if !last then s.upDict (fun d => { d with theirs := some p })
  else
    let code := if !servingSt s.yoke.member then 0x04020000
      else if p.bad then 0x05010000
      else if (s.validate p.recs).isSome then 0x05010000
      else 0
    (s.upDict (fun d => { d with theirs := if code = 0 then some p else none })).send { ty := 0x10, num := batch, aux := code }
/-- CommitVote at the initiator (R347): the batch is logged and CommitApply goes out, or the commit is aborted. -/
def State.takeVote (batch code : Nat) (s : State) : State :=
  match s.dict.pair with
  | none => s
  | some p =>
    if p.batch ≠ batch ∨ p.applied then s
    else if code ≠ 0 then s.endPair p code
    else
      (s.upDict (fun d => { d with
        logged := some (p.batch, p.recs)
        pair := some { p with applied := true } })).send { ty := 0x11, num := batch }
/-- CommitApply at the peer (R347). -/
def State.takeApply (batch : Nat) (s : State) : State :=
  match s.dict.theirs with
  | none => s
  | some p =>
    if p.batch ≠ batch then s
    else ((s.upDict (fun d => { d with theirs := none })).applyBatch batch p.recs).send { ty := 0x12, num := batch }
/-- CommitDone at the initiator (R347). -/
def State.takeDone (batch : Nat) (s : State) : State :=
  match s.dict.pair with
  | none => s
  | some p => if p.batch = batch ∧ p.applied then (s.applyBatch batch p.recs).endPair p 0 else s

/-! ## The commands of 4100h.07 (R352) -/

/-- A command done. -/
def State.pairDone (s : State) : Nat × State := (0, s.setCtl 0x4100 2)
/-- Join: allows a join blocked with reason 06h; the handshake runs again. -/
def State.pairJoin (s : State) : Nat × State :=
  if s.yoke.member ∉ [0, 1, 4, 5] then s.refuse 0x4100 0x04020000
  else
    let t := s.upYoke (fun y => { y with joinGiven := true })
    (if t.yokeUp then t.sendMember 0x0C else t).pairDone
/-- Prevail (R338): after a split brain this module feeds at once; for a join of two strangers the handshake runs again. -/
def State.pairPrevail (s : State) : Nat × State :=
  if !s.yokeUp ∨ !(s.yoke.split || decide (s.yoke.joinBlock = 6)) then s.refuse 0x4100 0x04020000
  else
    let t := (s.upYoke (fun y => { y with prevailGiven := true })).sendMember 0x0C
    if s.yoke.split ∧ s.yoke.member ∈ [4, 8] then
      let u := (t.feed s.peerNow false).upYoke (fun y => { y with
        split := false
        prevailGiven := false })
      (if s.yoke.peerMarked = 0 then u.endResync else u).pairDone
    else t.pairDone
/-- ForceSole: a Fenced, Joining or Split module becomes Sole. -/
def State.pairForceSole (s : State) : Nat × State :=
  if s.yoke.member ∉ [1, 5, 8] then s.refuse 0x4100 0x04020000
  else ((s.upYoke (fun y => { y with split := false })).becomeSole 4).pairDone
/-- Stand down for Withdraw (R330, R352): LastRole StoodDown, StandDown and a Pulse; the module stays Fenced. -/
def State.withdrawNow (s : State) : State :=
  let s1 := (s.loseCommit.writeRecord (fun r => { r with lastRole := 2 })).upYoke (fun y => { y with
    member := 5
    prev := y.member })
  let s2 := s1.dropHeld
  let s3 := s2.abandonJobs.upYoke Yoke.dropWork
  let s4 := if s3.yokeUp then s3.sendMember 0x0D else s3
  s4.sendPulse.clearReservations.upObs (fun o => { o with policy := 0 })
/-- Withdraw. -/
def State.pairWithdraw (s : State) : Nat × State :=
  if s.yoke.member ∉ [2, 3, 6, 7] then s.refuse 0x4100 0x04020000 else s.withdrawNow.pairDone
/-- Leave: the module stands down if it is in a pair, clears its record and becomes Single; requests held are served here. -/
def State.pairLeave (s : State) : Nat × State :=
  if s.yoke.member = 0 then s.refuse 0x4100 0x04020000
  else
    let active := s.paired || decide (s.yoke.member = 3)
    let s1 := s.loseCommit.writeRecord (fun _ => {})
    let s2 := s1.upYoke (fun y => { y with
      member := 0
      prev := y.member
      joinBlock := 0
      split := false
      peer := none })
    let s3 := if active then s2.reqs.list.foldl (fun t r => t.heldToSole r) s2 else s2
    let s4 := if active then s3.soleJobs.upYoke Yoke.dropWork else s3
    let s5 := if active ∧ s4.yokeUp then s4.sendMember 0x0D else s4
    s5.sendPulse.pairDone

end Sys2Proof.Machine
end

