-- ==== Sys2Proof/Machine/Judge.lean ====
section
/-!
DEFINITION. How a dictionary request is judged and carried out (R468): the checks in their order, the value written or the
action started, passwords (R479 to R483), and the commit of a batch (R473).
-/
namespace Sys2Proof.Machine

/-! ## Routes (R459) -/

/-- The largest DTP message of a route. -/
def routeMax : Route → Nat
  | .field => 256
  | .yoke => 4080
  | .fabric => 4096
  | .primary => 4096
  | .page => 4096
/-- The segment size of a route. -/
def routeSeg : Route → Nat
  | .field => 240
  | .fabric => 4064
  | .primary => 4064
  | .page => 4064
  | .yoke => 4064
/-- The segment timeout of a route, in ns. -/
def routeTimeout : Route → Nat
  | .page => 100000000
  | .field => 1000000000
  | .fabric => 1000000000
  | .primary => 1000000000
  | .yoke => 1000000000

/-! ## Checks 2 to 6 (R468) -/

/-- The restrictions of single entries on a read (R108, R485, R522, R524, R545): an abort code, or 0. -/
def State.readBar (s : State) (w : Who) (i sub : Nat) : Nat :=
  let r := s.role w
  let own := s.whoEntry w
  if isPartner i ∧ r = .partner ∧ own ≠ some (i - 0x3000) ∧ i ≠ 0x3FFF then 0x02030000
  else if isPartner i ∧ r = .debug ∧ i ≠ 0x3FFE ∧ i ≠ 0x3FFF then 0x02030000
  else if i = 0x8002 ∧ sub = 5 then 0x02030000
  else if i = 0x7101 ∧ sub = 2 ∧ r ≠ s.consumer then 0x02030000
  else if i = 0x7101 ∧ sub = 3 ∧ r = .partner ∧ !((own.map (fun n => s.hasCap n 1)).getD false) then 0x02030000
  else if i = 0xA040 ∧ sub = 3 ∧ s.readBackCode r = 0x02030000 then 0x02030000
  else 0
/-- A raw area other than 7 is not written (R485). -/
def writeBar (i sub : Nat) : Nat := if 0x8000 ≤ i ∧ i ≤ 0x8006 ∧ sub = 5 then 0x02050000 else 0
/-- The access needs a password that the role has not presented (R480). -/
def State.needsPassword (s : State) (r : Role) (code : Code) (i : Nat) (isWrite : Bool) : Bool :=
  if r = .peer then false
  else if isWrite then (guards code i).any (fun a => s.passwordSet a 1 && !s.hasPresented r a 1)
  else decide (code = .rwp) && s.passwordSet (i - 0x8000) 0 && !s.hasPresented r (i - 0x8000) 0
/-- An entry the keeper domain serves from parameter memory, available while the fast domains are down (R29, R471). -/
def State.keeperHeld (s : State) (row : Row) (i : Nat) : Bool :=
  let sub := row.sub
  let stored := decide (row.acc.o = .rw) || decide (row.acc.o = .rws) || decide (row.acc.o = .rwp)
  decide (sub = 0) || (stored && !(decide (0x6000 ≤ i) && decide (i ≤ 0x603C)))
    || (decide (i = 0x1000) && decide (sub ≠ 11) && decide (sub ≠ 12))
    || decide (i ∈ [0x1001, 0x1100, 0x1101, 0x1120, 0x1201, 0x4101, 0x50C2, 0x50D0, 0x7000, 0x7001])
    || (decide (0x1110 ≤ i) && decide (i ≤ 0x1117))
    || (decide (i = 0x1200) && decide (sub ∈ [1, 2, 3, 4, 5, 6, 7]))
    || isRange i || isGroup i || isPartner i
    || (decide (i = 0x4002) && decide (sub ∈ [1, 2, 6, 7])) || (decide (i = 0x4030) && decide (sub ∈ [1, 3]))
    || (decide (i = 0x5050) && decide (sub ∈ [9, 10, 11])) || (decide (i = 0x5070) && decide (sub ∈ [5, 8, 9, 10, 11, 17]))
    || (decide (i = 0x5071) && decide (sub = 1)) || (decide (i = 0x5090) && decide (sub ∈ [4, 9, 10, 11]))
    || (decide (0x8000 ≤ i) && decide (i ≤ 0x8007)) || (decide (i = 0x9018) && decide (sub = 5))
    || (decide (i = 0x9050) && decide (s.pwr.boot = .recovery))
/-- Checks 2 to 5 of R468. -/
def State.permit (s : State) (w : Who) (i sub : Nat) (isWrite : Bool) : Except Nat Row :=
  match rowsOf s.ident.variant i with
  | none => .error 0x02010000
  | some rows =>
    match rows.find? (fun r => decide (r.sub = sub)) with
    | none => .error 0x02020000
    | some row =>
      let code := row.acc.of (s.role w)
      let bar := if isWrite then writeBar i sub else s.readBar w i sub
      if code = .no then .error 0x02030000
      else if !isWrite ∧ code = .wo then .error 0x02040000
      else if isWrite ∧ code = .ro then .error 0x02050000
      else if bar ≠ 0 then .error bar
      else if s.needsPassword (s.role w) code i isWrite then .error 0x02060000
      else .ok row
/-- Check 6 of R468: the value is available in the present power state. -/
def State.available? (s : State) (row : Row) (i : Nat) : Bool := s.fastOn || s.keeperHeld row i

/-! ## Reads -/

/-- Check 8 of a read: past the end of an area or of the Firkin's records, or a read-back that does not exist (R485, R518,
R545). -/
def State.readEnd (s : State) (w : Who) (i sub : Nat) : Nat :=
  let r := s.role w
  if i = 0x7001 ∧ sub = 4 then
    (if (if s.selector r i 1 = 1 then 512 else 448) < s.selector r i 2 + s.selector r i 3 then 0x03030000 else 0)
  else if 0x8000 ≤ i ∧ i ≤ 0x8007 ∧ sub = 5 then
    (if areaKib (i - 0x8000) * 1024 < s.selector r i 3 + s.selector r i 4 then 0x03030000 else 0)
  else if i = 0xA040 ∧ sub = 3 then s.readBackCode r
  else 0
/-- The value a read returns, or its abort code. An expedited read carries at most 240 bytes (R465); the entries of the event
pail are not read while a packet of them is being read (log entry 36). -/
def State.readOf (s : State) (w : Who) (i sub : Nat) (expedited : Bool) : Except Nat Bytes :=
  match s.permit w i sub false with
  | .error c => .error c
  | .ok row =>
    let v := s.readValue w row i
    let past := s.readEnd w i sub
    if !s.available? row i then .error 0x04030000
    else if expedited ∧ 240 < v.length then .error 0x01080000
    else if past ≠ 0 then .error past
    else if i = 0x7101 ∧ sub = 2 ∧ s.obs.packet.isSome then .error 0x04010000
    else .ok v
/-- What a read changes when its response has left (R521, R523). -/
def State.afterRead (i sub bytes : Nat) (s : State) : State :=
  if i = 0x7100 ∧ sub = 3 then s.clearOverrun
  else if i = 0x7101 ∧ sub = 2 then s.passPacket (bytes / 32)
  else s

/-! ## Passwords (R479 to R483, R494, R495) -/

/-- The digest kept of a password (R479). -/
def State.digest (s : State) (area kind : Nat) (pw : Bytes) : BitVec 256 :=
  let b := natLe 8 s.ident.serial ++ natLe 1 area ++ natLe 1 kind ++ pw
  Config.sha256 (leNat b) b.length
/-- Set, change or clear a password (R494): the one byte 00h clears it; 1103h. -/
def State.putPassword (area kind : Nat) (pw : Bytes) (s : State) : State :=
  let k := area * 2 + kind
  ((s.upDict (fun d => { d with
    passwords := if pw = [0] then Tab.erase d.passwords k else Tab.put d.passwords k (s.digest area kind pw)
    dead := d.dead.filter (fun x => decide (x ≠ k)) })).save 32).log 0x1103 (area * 256 + kind)
/-- A presented password is right: the digests agree; where none is set, the empty password is (R479). -/
def State.rightPassword (s : State) (area kind : Nat) (pw : Bytes) : Bool :=
  if s.dict.dead.contains (area * 2 + kind) then false
  else
    match Tab.look s.dict.passwords (area * 2 + kind) with
    | some h => decide (h = s.digest area kind pw)
    | none => decide (pw = [])
/-- Present a password (R481): refused during a lockout; a wrong one logs 1101h, the fifth in a row locks the role out for 60 s
with 1102h. -/
def State.present (r : Role) (area kind : Nat) (pw : Bytes) (s : State) : Nat × State :=
  let n := roleNum r
  if s.clk.now < Tab.get 0 s.dict.lockout n then (0x02070000, s)
  else if s.rightPassword area kind pw then
    (0, s.upDict (fun d => { d with
      presented := Tab.set false d.presented (n * 16 + kind * 8 + area) true
      wrong := Tab.set 0 d.wrong n 0 }))
  else
    let miss := Tab.get 0 s.dict.wrong n + 1
    let t := s.log 0x1101 (area * 256 + roleLetter r)
    if miss < 5 then (0x02070000, t.upDict (fun d => { d with wrong := Tab.set 0 d.wrong n miss }))
    else
      (0x02070000, (t.upDict (fun d => { d with
        wrong := Tab.set 0 d.wrong n 0
        lockout := Tab.put d.lockout n (s.clk.now + 60 * sec) })).log 0x1102 (roleLetter r))
/-- A role's presentations end (R481). -/
def State.unpresent (r : Role) (s : State) : State :=
  s.upDict (fun d => { d with presented := d.presented.filter (fun kv => decide (kv.1 / 16 ≠ roleNum r)) })
/-- A request of the role arrives (R481): presentations older than 10 minutes have ended; the moment is kept. -/
def State.noteRequest (r : Role) (s : State) : State :=
  let t := if Tab.get 0 s.dict.lastReq (roleNum r) + 600 * sec ≤ s.clk.now then s.unpresent r else s
  t.upDict (fun d => { d with lastReq := Tab.set 0 d.lastReq (roleNum r) s.clk.now })
/-- RestoreDefaults (R483); a front cache that was disabled and the budgets follow their restored entries. -/
def State.restoreStart (s : State) : Nat × State :=
  let locked := (List.range 8).any (fun a => s.passwordSet a 1 && !s.hasPresented .operator a 1)
  let no := s.upDict (fun d => { d with restored := 3 })
  if s.yoke.member ∈ [2, 3, 4, 6, 7] then (0x04020000, no)
  else if s.mainOn ∧ locked then (0x02060000, no)
  else
    let t := s.restore.upDict (fun d => { d with restored := 2 })
    let u := (if t.fastOn ∧ !t.fc.enabled then (t.fcEnable true).2 else t).askStrain
    (0, if u.fastOn ∧ u.pwr.arm ≠ 5 then u.rederive else u)

/-! ## Values written -/

/-- Relations of check 8 that a value has with the values stored (R158, R385, R452, R453). -/
def State.relation (s : State) (i sub n : Nat) : Nat :=
  let bad := if i = 0x2010 ∧ sub = 1 then decide (n = 256)
    else if i = 0x2010 ∧ sub = 3 then decide (s.entry 0x2010 4 ≤ n)
    else if i = 0x2010 ∧ sub = 4 then decide (n ≤ s.entry 0x2010 3)
    else if i = 0x2020 ∧ sub = 1 then decide (s.entry 0x2020 2 ≤ n)
    else if i = 0x2020 ∧ sub = 2 then decide (n ≤ s.entry 0x2020 1)
    else if i = 0x2020 ∧ sub = 4 then decide (s.entry 0x2020 5 ≤ n)
    else if i = 0x2020 ∧ sub = 5 then decide (n ≤ s.entry 0x2020 4)
    else if i = 0x2130 ∧ sub = 4 then decide (1 ≤ n) && decide (n ≤ 4)
    else false
  if bad then 0x03030000 else 0
/-- Keep a value of a role's own. -/
def State.setSelector (r : Role) (i sub n : Nat) (s : State) : State :=
  let k := roleNum r * 2 ^ 24 + i * 256 + sub
  s.upDict (fun d => { d with
    sel := if n = defaultOf s.ident.variant i sub then Tab.erase d.sel k else Tab.put d.sel k n })
/-- A counter register of a block is written (R503, R508, R509); an edge is counted from the level at the write on (R502). -/
def State.setCounter (block sub n : Nat) (s : State) : State :=
  let k := block * 8
  let left := (BitVec.ofNat 8 (Tab.get 0 s.perf.overflow block) &&& ~~~ (BitVec.ofNat 8 n)).toNat
  s.upPerf (fun p =>
    if sub = 2 then { p with overflow := Tab.set 0 p.overflow block left }
    else if sub < 0x18 then { p with
      select := Tab.set 0 p.select (k + (sub - 0x10)) n
      lastLevel := Tab.set 0 p.lastLevel (k + (sub - 0x10)) ((s.level block (bits n 7 0)).getD 0) }
    else if sub < 0x20 then { p with value := Tab.set 0 p.value (k + (sub - 0x18)) n }
    else { p with reload := Tab.set 0 p.reload (k + (sub - 0x20)) n })
/-- Bytes written to the user area (R485). -/
def State.writeUser (off : Nat) (v : Bytes) (s : State) : Nat × State :=
  if 131072 < off + v.length then (0x03030000, s)
  else
    (0, (s.upDict (fun d => { d with
      user := ((List.range v.length).zip v).foldl (fun t kv => Tab.set 0 t (off + kv.1) kv.2) d.user })).save v.length)
/-- Store a value whose entry is not staged and starts no action. -/
def State.storeNow (w : Who) (row : Row) (i : Nat) (v : Bytes) (s : State) : Nat × State :=
  let r := s.role w
  let n := leNat v
  let sub := row.sub
  if row.perRole then (0, s.setSelector r i sub n)
  else if 0x1110 ≤ i ∧ i ≤ 0x1117 then (0, s.putPassword (i - 0x1110) (sub - 1) v)
  else if i = 0x1120 then
    if v.length < 2 then (0x03010000, s)
    else if 1 < field v 1 1 then (0x03040000, s)
    else if 7 < field v 0 1 then (0x03030000, s)
    else s.present r (field v 0 1) (field v 1 1) (v.drop 2)
  else if i = 0x2010 ∧ sub ≤ 2 then
    let t := (s.setEntry i sub v).save v.length
    (0, if t.fastOn ∧ t.pwr.arm ≠ 5 then t.rederive else t)
  else if i = 0x2000 ∧ sub = 1 then
    let t := (s.setEntry i sub v).save v.length
    (0, if n = s.entry i sub then t else t.log 0x2021 n)
  else if i = 0x2100 ∧ sub = 1 then s.fcEnable (decide (n = 1))
  else if i = 0x2240 ∧ sub = 1 then
    let t := (s.setEntry i sub v).save v.length
    (0, if n = 0 then t.giveLeave strainId else t.askStrain)
  else if i = 0x4011 then (0, s.upKeys (fun k => { k with blob := v }))
  else if 0x6000 ≤ i ∧ i ≤ 0x603C then (0, s.setCounter (i - 0x6000) sub n)
  else if 0x8000 ≤ i ∧ i ≤ 0x8007 then s.writeUser (s.selector r i 3) v
  else if i = 0x9050 ∧ sub = 2 then s.fwChunk (s.entry 0x9050 1) v
  else (0, (s.setEntry i sub v).save v.length)

/-! ## Actions -/

/-- What a command row brings with its write beside the value: what an import blob unwraps to (R406), whether the commit log fails
(R488), and what the checks of front-cache lines find (R362). -/
structure Found where
  verdict : Option ImportVerdict := none
  logFault : Bool := false
  lines : List (Nat × CacheFault) := []

/-- The action a CMD entry starts (R470), with its abort code. CommitBatch 01h is apart. -/
def State.action (w : Who) (i sub n : Nat) (found : Found) (s : State) : Nat × State :=
  let r := s.role w
  let id := s.selector r 0x4001 1
  if i = 0x1120 then (0, s.unpresent r)
  else if i = 0x1200 then s.discard r
  else if i = 0x1201 then s.restoreStart
  else if 0x2120 ≤ i ∧ i ≤ 0x2123 then s.maintStart w i found.lines
  else if i = 0x2130 then (0, s.needRetrain (BitVec.ofNat 8 n))
  else if i = 0x4002 then (if n = 1 then s.keyGenerate id else s.keyImport id (found.verdict.getD s.unwrapVerdict))
  else if i = 0x4010 then s.keyRegenerate
  else if i = 0x4020 then s.attestStart r
  else if i = 0x4100 then
    if n = 1 then s.pairJoin
    else if n = 2 then s.pairPrevail
    else if n = 3 then s.pairForceSole
    else if n = 4 then s.pairWithdraw
    else s.pairLeave
  else if i = 0x6FF0 then s.snapshot (decide (n = 2))
  else if i = 0x7000 then (0, if n = 1 then s.freeze else s.thaw)
  else if i = 0x7100 then (0, s.dropRemainder)
  else if i = 0x9000 then s.spanStart w 0x9000 16384 State.discardSpan
  else if i = 0x9010 then s.spanStart w 0x9010 16384 State.secureSpan
  else if i = 0x9018 then s.cryptoStart
  else if i = 0x9020 then (if n = 1 then s.scrubStart else (0, s.scrubEnd 0))
  else if i = 0x9028 then s.brineStart
  else if i = 0x9030 then s.spanStart w 0x9030 64 State.zeroRange
  else if i = 0x9040 then s.rekeyStart
  else if i = 0x9050 then
    if n = 1 then s.fwBegin else if n = 2 then s.fwVerify else if n = 3 then s.fwActivate else s.fwCancel
  else if i = 0x9060 then (if n = 1 then s.prepareStart else s.prepareCancel)
  else if i = 0x9070 then (if n = 1 then s.identifyStart else s.identifyStop)
  else if i = 0xA000 then (if n = 1 then s.testEnter else s.testLeave)
  else if sub = 3 then (if n = 1 then s.selfTestStart r else s.selfTestCancel)
  else (0, s)

/-! ## A write judged -/

/-- Checks 6 to 9 of a write that has passed checks 2 to 5, and its effect. The answer is none while a pair commit runs. A write
of no bytes completes with no effect. -/
def State.writeChecked (q : DtpReq) (row : Row) (found : Found) (s : State) :
    Option Nat × State :=
  let i := q.index
  let n := leNat q.data
  let some' := fun (x : Nat × State) => ((some x.1 : Option Nat), x.2)
  if !s.available? row i then (some 0x04030000, s)
  else if q.data = [] then (some 0, s)
  else if lengthCode row q.data ≠ 0 then (some (lengthCode row q.data), s)
  else if valueCode row i q.data ≠ 0 then (some (valueCode row i q.data), s)
  else if s.relation i q.sub n ≠ 0 then (some (s.relation i q.sub n), s)
  else
    let code := row.acc.of (s.role q.who)
    if code = .rws then some' (s.stage (s.role q.who) ⟨i, q.sub, q.data⟩)
    else if code = .cmd then
      if i = 0x1200 ∧ n = 1 then
        s.commit
          { role := s.role q.who
            route := q.who.route
            tid := q.tid
            spec := q.spec
            flags := q.flags } found.logFault
      else some' (s.action q.who i q.sub n found)
    else some' (s.storeNow q.who row i q.data)
/-- A write of a value, expedited or whole from its segments (R465, R468). -/
def State.writeOf (q : DtpReq) (expedited : Bool) (found : Found) (s : State) :
    Option Nat × State :=
  match s.permit q.who q.index q.sub true with
  | .error c => (some c, s)
  | .ok row =>
    if s.available? row q.index ∧ expedited ∧ 240 < q.data.length then (some 0x01080000, s)
    else s.writeChecked q row found

end Sys2Proof.Machine
end

