-- ==== Sys2Proof/Machine/Dtp.lean ====
section
/-!
DEFINITION. The Dictionary Transfer Protocol (R459 to R468): requests by their specifier, segmented transfers, the order in
which a route answers, and the command rows that carry a request.
-/
namespace Sys2Proof.Machine

/-! ## Answers -/

/-- Answer a request (R463). -/
def State.answerDtp (q : DtpReq) (code : Nat) (data : Bytes) (s : State) : State :=
  s.reply q.who.route q.spec q.flags q.tid q.index q.sub code data
/-- The answer of a write: none is sent while a pair commit runs. -/
def State.endWrite (q : DtpReq) (x : Option Nat × State) : State :=
  match x.1 with
  | some code => x.2.answerDtp q code []
  | none => x.2

/-! ## Expedited transfers (R465) -/

/-- Read. -/
def State.dtpReadNow (q : DtpReq) (s : State) : State :=
  match s.readOf q.who q.index q.sub true with
  | .error c => s.answerDtp q c []
  | .ok v => (s.answerDtp q 0 v).afterRead q.index q.sub v.length
/-- Write, with the operands a command row brings: what an import blob unwraps to, and whether the commit log fails. -/
def State.dtpWriteNow (q : DtpReq) (found : Found) (s : State) : State :=
  State.endWrite q (s.writeOf q true found)

/-! ## Segmented transfers (R466, R467) -/

/-- The transfer of a route, running or ended. -/
def State.transfer (s : State) (r : Route) : Option Transfer := Tab.look s.dict.transfers (routeNum r)
/-- Keep a transfer. -/
def State.putTransfer (r : Route) (t : Transfer) (s : State) : State :=
  s.upDict (fun d => { d with transfers := Tab.put d.transfers (routeNum r) t })
/-- Close the transfer of a route; a packet of the event pail stays in the pail (R521). -/
def State.closeTransfer (r : Route) (s : State) : State :=
  let pail : Bool := match s.transfer r with
    | some t => decide (t.index = 0x7101) && !t.isWrite && decide (t.ended = 0)
    | none => false
  (s.upDict (fun d => { d with transfers := Tab.erase d.transfers (routeNum r) })).upObs (fun o => { o with
    packet := if pail then none else o.packet })
/-- A transfer runs on the route. -/
def State.transferRuns (s : State) (r : Route) : Bool :=
  match s.transfer r with
  | some t => decide (t.ended = 0)
  | none => false
/-- A new transfer. -/
def newTransfer (isWrite : Bool) (q : DtpReq) (role : Role) (total : Nat) (data : Bytes) (now : Nat) : Transfer :=
  { isWrite := isWrite
    tid := q.tid
    role := role
    key := q.who.key
    index := q.index
    sub := q.sub
    total := total
    data := data
    sent := 0
    toggle := false
    fresh := true
    lastResp := []
    lastCode := 0
    ended := 0
    touched := now }
/-- The number by which a transfer is kept as complete, so that a repeated last segment is answered again. -/
def complete : Nat := 1
/-- ReadInitiate: captures the value; a read of the event pail fixes its packet (R466, R521). -/
def State.readInitiate (q : DtpReq) (s : State) : State :=
  if s.transferRuns q.who.route then s.answerDtp q 0x010A0000 []
  else
    match s.readOf q.who q.index q.sub false with
    | .error c => s.answerDtp q c []
    | .ok v =>
      let t := (s.putTransfer q.who.route (newTransfer false q (s.role q.who) v.length v s.clk.now)).upObs (fun o => { o with
        packet := if q.index = 0x7101 ∧ q.sub = 2 then some (v.length / 32) else o.packet })
      t.answerDtp q 0 (natLe 4 v.length)
/-- WriteInitiate: checks 1 to 5, and the total. -/
def State.writeInitiate (q : DtpReq) (s : State) : State :=
  let total := leNat q.data
  if s.transferRuns q.who.route then s.answerDtp q 0x010A0000 []
  else if q.data.length ≠ 4 then s.answerDtp q 0x01020000 []
  else
    match s.permit q.who q.index q.sub true with
    | .error c => s.answerDtp q c []
    | .ok _ =>
      if 65536 < total then s.answerDtp q 0x03020000 []
      else (s.putTransfer q.who.route (newTransfer true q (s.role q.who) total [] s.clk.now)).answerDtp q 0 []
/-- The transfer a segment or Abort request belongs to: the one of its route with its TransferId and sender. -/
def State.transferFor (s : State) (q : DtpReq) : Option Transfer :=
  match s.transfer q.who.route with
  | some t => if t.tid = q.tid ∧ t.key = q.who.key ∧ t.role = s.role q.who then some t else none
  | none => none
/-- The toggle of a request. -/
def DtpReq.toggle (q : DtpReq) : Bool := decide (q.flags % 2 = 1)
/-- The Last bit of a request. -/
def DtpReq.last (q : DtpReq) : Bool := decide (q.flags / 2 % 2 = 1)
/-- A request for a segment is a repeat of the one just answered. -/
def Transfer.repeats (t : Transfer) (q : DtpReq) : Bool := !t.fresh && decide (q.toggle = t.toggle)
/-- ReadSegment: the next segment of the captured value; the response of the last one has Last set (log entry 35), and the
event pail's read pointer passes its packet. -/
def State.readSegment (q : DtpReq) (s : State) : State :=
  match s.transferFor q with
  | none => s.answerDtp q 0x01050000 []
  | some t =>
    let tag := fun (whole : Bool) => { q with
      flags := if whole then q.flags % 2 + 2 else q.flags }
    if t.isWrite then s.answerDtp q 0x01050000 []
    else if t.repeats q ∧ (t.ended = 0 ∨ t.ended = complete) then
      (s.putTransfer q.who.route { t with touched := s.clk.now }).answerDtp (tag (decide (t.ended = complete))) 0 t.lastResp
    else if t.ended = complete then s.answerDtp q 0x01050000 []
    else if t.ended ≠ 0 then (s.answerDtp q t.ended []).closeTransfer q.who.route
    else if t.fresh ∧ q.toggle then (s.answerDtp q 0x01030000 []).closeTransfer q.who.route
    else
      let part := (t.data.drop t.sent).take (routeSeg q.who.route)
      let whole := decide (t.total ≤ t.sent + part.length)
      let u := (s.putTransfer q.who.route { t with
        sent := t.sent + part.length
        toggle := q.toggle
        fresh := false
        lastResp := part
        ended := if whole then complete else 0
        touched := s.clk.now }).answerDtp (tag whole) 0 part
      if whole then u.afterRead t.index t.sub t.total else u
/-- WriteSegment: held until the last arrives, then judged by checks 6 to 9 and applied whole. -/
def State.writeSegment (q : DtpReq) (s : State) : State :=
  match s.transferFor q with
  | none => s.answerDtp q 0x01050000 []
  | some t =>
    let bad := fun (code : Nat) => (s.answerDtp q code []).closeTransfer q.who.route
    let got := t.sent + q.data.length
    if !t.isWrite then s.answerDtp q 0x01050000 []
    else if t.repeats q ∧ (t.ended = 0 ∨ t.ended = complete) then
      (s.putTransfer q.who.route { t with touched := s.clk.now }).answerDtp q t.lastCode []
    else if t.ended = complete then s.answerDtp q 0x01050000 []
    else if t.ended ≠ 0 then bad t.ended
    else if t.fresh ∧ q.toggle then bad 0x01030000
    else if t.total < got ∨ (!q.last ∧ q.data.length ≠ routeSeg q.who.route) then
      bad 0x01020000
    else if !q.last then
      (s.putTransfer q.who.route { t with
        sent := got
        data := t.data ++ q.data
        toggle := q.toggle
        fresh := false
        touched := s.clk.now }).answerDtp q 0 []
    else if got ≠ t.total then bad 0x01020000
    else
      let w := { q with
        index := t.index
        sub := t.sub
        data := t.data ++ q.data }
      let x := s.writeOf w false {}
      let u := x.2.putTransfer q.who.route { t with
        sent := got
        data := []
        toggle := q.toggle
        fresh := false
        lastCode := x.1.getD 0
        ended := complete
        touched := s.clk.now }
      State.endWrite q (x.1, u)
/-- Abort (R464, R467). -/
def State.dtpAbortNow (q : DtpReq) (s : State) : State :=
  match s.transferFor q with
  | none => s.answerDtp q 0x01050000 []
  | some t =>
    if t.ended = complete then s.answerDtp q 0x01050000 []
    else if t.ended ≠ 0 then (s.answerDtp q t.ended []).closeTransfer q.who.route
    else if q.data.length ≠ 4 then s.answerDtp q 0x03010000 []
    else if leNat q.data ≠ 0x01090000 then s.answerDtp q 0x03040000 []
    else (s.closeTransfer q.who.route).answerDtp q 0 []

/-! ## Requests in their order (R459, R461) -/

/-- The route carries requests now: on aux power alone only the field network does, unless SMBRST# holds it in reset (R546), and a
partner page only the sender whose
key selects it (R72, R459). -/
def State.routeServes (s : State) (w : Who) : Bool :=
  match w.route with
  | .field => s.fieldUp
  | .page => s.pageReached && (s.whoEntry w).isSome
  | .primary => s.primaryReached
  | .fabric => s.fastOn
  | .yoke => s.fastOn
/-- A request of the route waits for a pair commit. -/
def State.routeBusy (s : State) (r : Route) : Bool :=
  (match s.dict.pair with
   | some p => decide (p.route = r)
   | none => false) || s.dict.commitWait.any (fun p => decide (p.route = r))
/-- Unanswered requests of a route. -/
def State.unanswered (s : State) (r : Route) : Nat :=
  (match s.dict.pair with
   | some p => if p.route = r then 1 else 0
   | none => 0) + (s.dict.commitWait.filter (fun p => decide (p.route = r))).length
    + (s.dict.waiting.filter (fun q => decide (q.who.route = r))).length
/-- A value of more than 240 bytes written by a segmented transfer of its own (R465, R466): refused while another runs on the route. -/
def State.writeWhole (q : DtpReq) (s : State) : State :=
  if s.transferRuns q.who.route then s.answerDtp q 0x010A0000 []
  else if 65536 < q.data.length then s.answerDtp q 0x03020000 []
  else State.endWrite q (s.writeOf q false {})
/-- Carry out a request: its check 1 (R468), then by its specifier. -/
def State.runDtp (q : DtpReq) (found : Found) (s : State) : State :=
  let t := (s.noteRequest (s.role q.who)).count 60 5 1
  if q.whole then t.writeWhole q
  else if q.malformed || decide (routeMax q.who.route < 8 + q.data.length) then t.answerDtp q 0x01020000 []
  else if q.spec = 1 then t.dtpReadNow q
  else if q.spec = 2 then t.dtpWriteNow q found
  else if q.spec = 3 then t.readInitiate q
  else if q.spec = 4 then t.readSegment q
  else if q.spec = 5 then t.writeInitiate q
  else if q.spec = 6 then t.writeSegment q
  else if q.spec = 7 then t.dtpAbortNow q
  else t.answerDtp q 0x01010000 []
/-- A request arrives (R461): answered at once, or held behind an unanswered one of its route, of which there are at most 4. On the
mailbox routes it comes as the command C000h, which a sender without the Mailbox capability gets back as Unsupported (R103, R459). -/
def State.takeDtp (q : DtpReq) (found : Found) (s : State) : State :=
  if !s.routeServes q.who then s
  else if s.lacksMailbox q.who then s.mboxRespond q.who 0xC000 3 []
  else if s.routeBusy q.who.route then
    if 4 ≤ s.unanswered q.who.route then s else s.upDict (fun d => { d with waiting := d.waiting ++ [q] })
  else s.runDtp q found
/-- Requests held behind a commit that has ended are answered in order of arrival. -/
def State.serveWaiting (s : State) : State :=
  s.dict.waiting.foldl (fun t q =>
    if t.routeBusy q.who.route then t
    else (t.upDict (fun d => { d with waiting := d.waiting.erase q })).runDtp q {}) s

/-! ## Messages as bytes (R462, R463) -/

/-- A DTP message arrives (R462): shorter than 8 bytes, too long for its route or with a DataLength that disagrees, it is answered
with 01020000h. -/
def State.takeBytes (w : Who) (msg : Bytes) (s : State) : State :=
  s.takeDtp
    { who := w
      spec := field msg 0 1
      flags := field msg 1 1
      tid := field msg 2 1
      index := field msg 4 2
      sub := field msg 3 1
      data := msg.drop 8
      malformed := decide (msg.length < 8) || decide (routeMax w.route < msg.length) || decide (field msg 6 2 ≠ msg.length - 8) } {}

/-! ## Requests as the rows bring them -/

/-- A request with its specifier and data. -/
def dtpReq (w : Who) (spec flags tid index sub : Nat) (data : Bytes) : DtpReq :=
  { who := w
    spec := spec
    flags := flags
    tid := tid
    index := index
    sub := sub
    data := data }
/-- An expedited write of a value. -/
def State.writeRow (w : Who) (index sub : Nat) (data : Bytes) (s : State) : State :=
  s.takeDtp (dtpReq w 2 0 0 index sub data) {}
/-- A write of a value of any length: expedited up to 240 bytes, else as the last segment of a segmented transfer that carried
it (R465, R466), refused while another transfer runs on the route. -/
def State.wholeRow (w : Who) (index sub : Nat) (data : Bytes) (s : State) : State :=
  if data.length ≤ 240 then s.writeRow w index sub data
  else s.takeDtp { dtpReq w 6 2 0 index sub data with whole := true } {}
/-- A write of one byte to a CMD entry. -/
def State.cmdRow (w : Who) (index sub n : Nat) (s : State) : State := s.writeRow w index sub (natLe 1 n)
/-- Toggle and Last as flags (R462). -/
def dtpFlags (toggle last : Bool) : Nat := (if toggle then 1 else 0) + (if last then 2 else 0)

/-! ## The protocol rows -/

/-- DTP_READ (R464, R465). -/
def execDtpRead (w : Who) (tid index sub : Nat) (s : State) : Host.Outcome State Fault Refusal :=
  .next (s.takeDtp (dtpReq w 1 0 tid index sub []) {})
/-- DTP_WRITE (R464, R465). -/
def execDtpWrite (w : Who) (tid index sub : Nat) (data : Bytes) (s : State) : Host.Outcome State Fault Refusal :=
  .next (s.takeDtp (dtpReq w 2 0 tid index sub data) {})
/-- DTP_READ_INITIATE (R466). -/
def execDtpReadInitiate (w : Who) (tid index sub : Nat) (s : State) : Host.Outcome State Fault Refusal :=
  .next (s.takeDtp (dtpReq w 3 0 tid index sub []) {})
/-- DTP_READ_SEGMENT (R466). -/
def execDtpReadSegment (w : Who) (tid : Nat) (toggle : Bool) (s : State) : Host.Outcome State Fault Refusal :=
  .next (s.takeDtp (dtpReq w 4 (dtpFlags toggle false) tid 0 0 []) {})
/-- DTP_WRITE_INITIATE (R466). -/
def execDtpWriteInitiate (w : Who) (tid index sub total : Nat) (s : State) : Host.Outcome State Fault Refusal :=
  .next (s.takeDtp (dtpReq w 5 0 tid index sub (natLe 4 total)) {})
/-- DTP_WRITE_SEGMENT (R466). -/
def execDtpWriteSegment (w : Who) (tid : Nat) (toggle last : Bool) (data : Bytes) (s : State) :
    Host.Outcome State Fault Refusal :=
  .next (s.takeDtp (dtpReq w 6 (dtpFlags toggle last) tid 0 0 data) {})
/-- DTP_ABORT (R464, R467). -/
def execDtpAbort (w : Who) (tid code : Nat) (s : State) : Host.Outcome State Fault Refusal :=
  .next (s.takeDtp (dtpReq w 7 0 tid 0 0 (natLe 4 code)) {})
/-- SEGMENT_TIMEOUT (R467): no segment within the route's timeout; 01040000h goes to the next request of the transfer. -/
def execSegmentTimeout (route : Route) (s : State) : Host.Outcome State Fault Refusal :=
  .next (match s.transfer route with
    | some t => if t.ended = 0 then
        (s.elapseTo (t.touched + routeTimeout route)).endTransfer (routeNum route) 0x01040000 else s
    | none => s)
/-- DICTIONARY_WRITE (R468): a write of an entry that is not one of the command entries below. -/
def execDictionaryWrite (w : Who) (index sub : Nat) (data : Bytes) (s : State) : Host.Outcome State Fault Refusal :=
  .next (s.wholeRow w index sub data)
/-- COMMIT_BATCH (R473): 1200h.01 := 01h. -/
def execCommitBatch (w : Who) (logFault : Bool) (s : State) : Host.Outcome State Fault Refusal :=
  .next (s.takeDtp (dtpReq w 2 0 0 0x1200 1 [1]) { logFault := logFault })
/-- DISCARD_BATCH (R473): 1200h.01 := 02h. -/
def execDiscardBatch (w : Who) (s : State) : Host.Outcome State Fault Refusal := .next (s.cmdRow w 0x1200 1 2)
/-- PASSWORD_PRESENT (R481): 1120h.01. -/
def execPasswordPresent (w : Who) (area kind : Nat) (pw : Bytes) (s : State) : Host.Outcome State Fault Refusal :=
  .next (s.writeRow w 0x1120 1 (natLe 1 area ++ natLe 1 kind ++ pw))
/-- PASSWORD_LOCK (R481): 1120h.03 := 01h. -/
def execPasswordLock (w : Who) (s : State) : Host.Outcome State Fault Refusal := .next (s.cmdRow w 0x1120 3 1)
/-- PRESENTATION_TIMEOUT (R481): 10 minutes without a request of the role. -/
def execPresentationTimeout (role : Role) (s : State) : Host.Outcome State Fault Refusal :=
  .next (if s.dict.presented.any (fun kv => decide (kv.1 / 16 = roleNum role)) then
      (s.elapseTo (Tab.get 0 s.dict.lastReq (roleNum role) + 600 * sec)).unpresent role
    else s)
/-- PASSWORD_LOCKOUT_END (R481): 60 s after the fifth wrong presentation. -/
def execPasswordLockoutEnd (role : Role) (s : State) : Host.Outcome State Fault Refusal :=
  .next (match Tab.look s.dict.lockout (roleNum role) with
    | some t => (s.elapseTo t).upDict (fun d => { d with lockout := Tab.erase d.lockout (roleNum role) })
    | none => s)
/-- SET_PASSWORD (R482): 1110h + area. -/
def execSetPassword (w : Who) (area kind : Nat) (pw : Bytes) (s : State) : Host.Outcome State Fault Refusal :=
  .next (s.writeRow w (0x1110 + area) (1 + kind) pw)
/-- RESTORE_DEFAULTS (R483): 1201h.01 := 01h. -/
def execRestoreDefaults (w : Who) (s : State) : Host.Outcome State Fault Refusal := .next (s.cmdRow w 0x1201 1 1)
/-- AREA_DATA_WRITE (R485): 8007h.05. -/
def execAreaDataWrite (w : Who) (data : Bytes) (s : State) : Host.Outcome State Fault Refusal :=
  .next (s.wholeRow w 0x8007 5 data)

end Sys2Proof.Machine
end

