-- ==== Sys2Proof/Machine/Commands.lean ====
section
/-!
DEFINITION. The rows that write a command entry (R470): each is one dictionary write, judged as R468 gives, and the rows in
which an action it started goes on or ends.
-/
namespace Sys2Proof.Machine

/-! ## Ends of the span commands -/

/-- No grain change of a command is outstanding or held. -/
def State.jobIdle (s : State) (key : Nat) : Bool :=
  match s.job key with
  | some j => j.acks.isEmpty && !j.held
  | none => true
/-- A secure discard ends here (R268, R350). -/
def State.finishDiscard (s : State) : State :=
  match s.job 0x9010 with
  | none => s
  | some j =>
    if s.ctl 0x9010 = 1 ∧ s.erasedAll j then
      ((((s.record 4 0 j.base j.length).setCtl 0x9010 2).dropJob 0x9010).log 0x2227 j.count)
    else s
/-- A secure discard carried out for the peer ends (R349). -/
def State.answerDiscard (s : State) : State :=
  match s.job 0x8004 with
  | none => s
  | some j => if s.erasedAll j then (s.dropJob 0x8004).send { ty := 0x13, aux := 0x8004 } else s
/-- A crypto-discard ends here (R270, R350). -/
def State.finishCrypto (s : State) : State :=
  match s.job 0x9018 with
  | none => s
  | some j =>
    if s.ctl 0x9018 = 1 ∧ s.cryptoReady j then
      ((((s.record 5 (j.keyId + 4096 * j.flags) 0 0).setCtl 0x9018 2).dropJob 0x9018).upKeys (fun k => { k with
        discarded := sat32 k.discarded })).log 0x2228 j.keyId
    else s
/-- A crypto-discard carried out for the peer ends: it is one of this module's too (R269, R270, R349). -/
def State.answerCrypto (s : State) : State :=
  match s.job 0x8005 with
  | none => s
  | some j =>
    if s.cryptoReady j then
      (((s.dropJob 0x8005).upKeys (fun k => { k with discarded := sat32 k.discarded })).log 0x2228 (j.keyId % 4096)).send
        { ty := 0x13, aux := 0x8005, num := j.keyId }
    else s
/-- The index of a maintenance command (R363). -/
def maintIndex : MaintKind → Nat
  | .clean => 0x2120
  | .invalidate => 0x2121
  | .lock => 0x2122
  | .zero => 0x2123

/-! ## Spans of logical space (R110 to R114, R259 to R270) -/

/-- ZERO_RANGE_START (R110, R111, R113): 9030h.03 := 01h. -/
def execZeroRangeStart (w : Who) (s : State) : Host.Outcome State Fault Refusal := .next (s.cmdRow w 0x9030 3 1)

/-- ZERO_RANGE_DONE (R111, R567): the command goes on to its whole grains once the lines before them are written; with every line
written and every grain changed, here and at the peer, it is done. -/
def execZeroRangeDone (s : State) : Host.Outcome State Fault Refusal :=
  let t := s.zeroGrains
  .next (if t.ctl 0x9030 = 1 ∧ t.jobIdle 0x9030 ∧ !t.zeroing 0x9030 then (t.setCtl 0x9030 2).dropJob 0x9030 else t)

/-- DISCARD_START (R266, R267): 9000h.03 := 01h. -/
def execDiscardStart (w : Who) (s : State) : Host.Outcome State Fault Refusal := .next (s.cmdRow w 0x9000 3 1)

/-- DISCARD_DONE (R267, R567): every grain of the span is discarded. -/
def execDiscardDone (s : State) : Host.Outcome State Fault Refusal :=
  .next (if s.ctl 0x9000 = 1 ∧ s.jobIdle 0x9000 then (s.setCtl 0x9000 2).dropJob 0x9000 else s)

/-- SECURE_DISCARD_START (R266, R268): 9010h.03 := 01h. -/
def execSecureDiscardStart (w : Who) (s : State) : Host.Outcome State Fault Refusal := .next (s.cmdRow w 0x9010 3 1)

/-- SECURE_DISCARD_DONE (R268, R349, R350): nothing of the span is left to erase, here and at the peer: 2227h with the groups
erased. The same for one carried out for the peer, which is answered. -/
def execSecureDiscardDone (s : State) : Host.Outcome State Fault Refusal := .next ((s.finishDiscard).answerDiscard)

/-- CRYPTO_DISCARD_START (R269, R270): 9018h.03 := 01h. -/
def execCryptoDiscardStart (w : Who) (s : State) : Host.Outcome State Fault Refusal := .next (s.cmdRow w 0x9018 3 1)

/-- CRYPTO_DISCARD_DONE (R270, R349, R350): the retired images that held the key are reset and the peer has answered: 2228h with
the ID. The same for one carried out for the peer, which is answered. -/
def execCryptoDiscardDone (s : State) : Host.Outcome State Fault Refusal := .next ((s.finishCrypto).answerCrypto)

/-- CRYPTO_DISCARD_SWEEP (R270): the next grain of the sweep. -/
def execCryptoDiscardSweep (s : State) : Host.Outcome State Fault Refusal := .next (s.sweepOne)

/-- SCRUB_START (R259): 9020h.04 := 01h. -/
def execScrubStart (w : Who) (s : State) : Host.Outcome State Fault Refusal := .next (s.cmdRow w 0x9020 4 1)

/-- SCRUB_CANCEL (R260): 9020h.04 := 00h. -/
def execScrubCancel (w : Who) (s : State) : Host.Outcome State Fault Refusal := .next (s.cmdRow w 0x9020 4 0)

/-- SCRUB_PASS_DONE (R260, R261): the pass, which runs under its leave (R437), has read the rest of its span and ends with its
summary, and 2226h with the lines poisoned. With IncludeDram it has swept the DRAM too, at 4 GB/s, and what that found is treated
(R259). -/
def execScrubPassDone (errors : List (Nat × CacheFault)) (s : State) : Host.Outcome State Fault Refusal :=
  let j := Tab.get ({} : Job) s.cmds.jobs 0x9020
  .next (if s.scrubs && s.checks then
      let t := s.scrubTo (j.base + j.length)
      let dram := decide (j.flags % 2 = 1)
      let u := if dram then (t.elapseTo (j.since + s.ident.variant.dramBytes / 4)).tally 10 (fun n => n + sweptBursts errors) else t
      let x := (u.scrubEnd 2).log 0x2226 (u.val 0x9020 0x48)
      if dram then x.sweepDram errors else x
    else s)

/-- BRINE_RELEASE (R265): 9028h.01 := 01h. -/
def execBrineRelease (w : Who) (s : State) : Host.Outcome State Fault Refusal := .next (s.cmdRow w 0x9028 1 1)

/-- REKEY (R412): 9040h.02 := 01h. -/
def execRekey (w : Who) (s : State) : Host.Outcome State Fault Refusal := .next (s.cmdRow w 0x9040 2 1)

/-! ## Shutdown, identification (R179, R180, R560) -/

/-- PREPARE_SHUTDOWN_START (R179): 9060h.01 := 01h. -/
def execPrepareShutdownStart (w : Who) (s : State) : Host.Outcome State Fault Refusal := .next (s.cmdRow w 0x9060 1 1)

/-- PREPARE_SHUTDOWN_CANCEL (R180): 9060h.01 := 00h. -/
def execPrepareShutdownCancel (w : Who) (s : State) : Host.Outcome State Fault Refusal := .next (s.cmdRow w 0x9060 1 0)

/-- SHUTDOWN_PREPARED (R180): no dirty line is left: a lap is begun; once it is in force the module is prepared: 5033h. -/
def execShutdownPrepared (s : State) : Host.Outcome State Fault Refusal := .next (s.prepared)

/-- IDENTIFY_START (R560): 9070h.02 := 01h. -/
def execIdentifyStart (w : Who) (s : State) : Host.Outcome State Fault Refusal := .next (s.cmdRow w 0x9070 2 1)

/-- IDENTIFY_STOP (R560): 9070h.02 := 00h. -/
def execIdentifyStop (w : Who) (s : State) : Host.Outcome State Fault Refusal := .next (s.cmdRow w 0x9070 2 0)

/-- IDENTIFY_EXPIRE (R560): the duration has passed. -/
def execIdentifyExpire (s : State) : Host.Outcome State Fault Refusal :=
  .next (if s.clk.now < s.cmds.identUntil then s.elapseTo s.cmds.identUntil else s)

/-! ## Keys and attestation (R406, R417, R422) -/

/-- KEY_GENERATE (R406): 4002h.05 := 01h. -/
def execKeyGenerate (w : Who) (s : State) : Host.Outcome State Fault Refusal := .next (s.cmdRow w 0x4002 5 1)

/-- KEY_IMPORT (R406): 4002h.05 := 02h, with what the blob unwraps to. -/
def execKeyImport (w : Who) (v : ImportVerdict) (s : State) : Host.Outcome State Fault Refusal :=
  .next (s.takeDtp (dtpReq w 2 0 0 0x4002 5 [2]) { verdict := some v })

/-- KEY_REGENERATE (R422): 4010h.02 := 01h. -/
def execKeyRegenerate (w : Who) (s : State) : Host.Outcome State Fault Refusal := .next (s.cmdRow w 0x4010 2 1)

/-- ATTEST_SIGN (R417, R423): 4020h.02 := 01h. -/
def execAttestSign (w : Who) (s : State) : Host.Outcome State Fault Refusal := .next (s.cmdRow w 0x4020 2 1)

/-- ATTEST_SIGN_DONE (R417): the object of the role is signed. -/
def execAttestSignDone (s : State) : Host.Outcome State Fault Refusal := .next (s.attestDone)

/-! ## The front cache (R362 to R369) -/

/-- FRONT_CACHE_DISABLE (R369): 2100h.01 := 00h. -/
def execFrontCacheDisable (w : Who) (s : State) : Host.Outcome State Fault Refusal := .next (s.cmdRow w 0x2100 1 0)

/-- FRONT_CACHE_DRAINED (R369): no line is left in the front cache: 2103h. -/
def execFrontCacheDrained (s : State) : Host.Outcome State Fault Refusal := .next (s.fcDrained)

/-- FRONT_CACHE_ENABLE (R369): 2100h.01 := 01h. -/
def execFrontCacheEnable (w : Who) (s : State) : Host.Outcome State Fault Refusal := .next (s.cmdRow w 0x2100 1 1)

/-- RANGE_CLEAN (R363 to R368): 2120h.04 := 01h. -/
def execRangeClean (w : Who) (found : List (Nat × CacheFault)) (s : State) : Host.Outcome State Fault Refusal :=
  .next (s.takeDtp (dtpReq w 2 0 0 0x2120 4 [1]) { lines := found })

/-- RANGE_INVALIDATE (R363 to R368): 2121h.04 := 01h. -/
def execRangeInvalidate (w : Who) (found : List (Nat × CacheFault)) (s : State) : Host.Outcome State Fault Refusal :=
  .next (s.takeDtp (dtpReq w 2 0 0 0x2121 4 [1]) { lines := found })

/-- LINE_LOCK (R363 to R368): 2122h.04 := 01h. -/
def execLineLock (w : Who) (found : List (Nat × CacheFault)) (s : State) : Host.Outcome State Fault Refusal :=
  .next (s.takeDtp (dtpReq w 2 0 0 0x2122 4 [1]) { lines := found })

/-- LINE_ZERO (R363 to R368): 2123h.04 := 01h. -/
def execLineZero (w : Who) (s : State) : Host.Outcome State Fault Refusal := .next (s.cmdRow w 0x2123 4 1)

/-- MAINTENANCE_DONE (R368): the command goes on with what it waited for and, with nothing left, is done. -/
def execMaintenanceDone (k : MaintKind) (s : State) : Host.Outcome State Fault Refusal := .next (s.maintDone (maintIndex k))

/-! ## Firmware and test (R536 to R545) -/

/-- FW_BEGIN (R537): 9050h.03 := 01h. -/
def execFwBegin (w : Who) (s : State) : Host.Outcome State Fault Refusal := .next (s.cmdRow w 0x9050 3 1)

/-- FW_CHUNK (R536): 9050h.02, a chunk at Offset. -/
def execFwChunk (w : Who) (data : Bytes) (s : State) : Host.Outcome State Fault Refusal := .next (s.wholeRow w 0x9050 2 data)

/-- FW_VERIFY (R537): 9050h.03 := 02h. -/
def execFwVerify (w : Who) (s : State) : Host.Outcome State Fault Refusal := .next (s.cmdRow w 0x9050 3 2)

/-- FW_ACTIVATE (R537): 9050h.03 := 03h. -/
def execFwActivate (w : Who) (s : State) : Host.Outcome State Fault Refusal := .next (s.cmdRow w 0x9050 3 3)

/-- FW_CANCEL (R537): 9050h.03 := 00h. -/
def execFwCancel (w : Who) (s : State) : Host.Outcome State Fault Refusal := .next (s.cmdRow w 0x9050 3 0)

/-- FW_OPERATION_DONE (R414, R537): the erase or the verify ends. -/
def execFwOperationDone (v : FwVerdict) (s : State) : Host.Outcome State Fault Refusal := .next (s.fwDone v)

/-- TEST_STATE_ENTER (R539): A000h.01 := 01h. -/
def execTestStateEnter (w : Who) (s : State) : Host.Outcome State Fault Refusal := .next (s.cmdRow w 0xA000 1 1)

/-- TEST_STATE_LEAVE (R539): A000h.01 := 00h. -/
def execTestStateLeave (w : Who) (s : State) : Host.Outcome State Fault Refusal := .next (s.cmdRow w 0xA000 1 0)

/-- SELF_TEST_START (R543): A010h.03 := 01h. -/
def execSelfTestStart (w : Who) (s : State) : Host.Outcome State Fault Refusal := .next (s.cmdRow w 0xA010 3 1)

/-- SELF_TEST_CANCEL (R543): A010h.03 := 00h. -/
def execSelfTestCancel (w : Who) (s : State) : Host.Outcome State Fault Refusal := .next (s.cmdRow w 0xA010 3 0)

/-- SELF_TEST_DONE (R543, R544): the test ends with its errors. -/
def execSelfTestDone (errors first : Nat) (badBlocks : List Nat) (s : State) : Host.Outcome State Fault Refusal :=
  .next (s.selfTestDone errors first badBlocks)

/-- READ_BACK_DATA (R545): a segmented read of A040h.03. -/
def execReadBackData (w : Who) (s : State) : Host.Outcome State Fault Refusal :=
  .next (s.takeDtp (dtpReq w 3 0 0 0xA040 3 []) {})

/-! ## Counters, the Firkin, the event pail (R503 to R524) -/

/-- COUNTER_SNAPSHOT (R507): 6FF0h.01 := 01h. -/
def execCounterSnapshot (w : Who) (s : State) : Host.Outcome State Fault Refusal := .next (s.cmdRow w 0x6FF0 1 1)

/-- COUNTER_SNAPSHOT_CLEAR (R507): 6FF0h.01 := 02h. -/
def execCounterSnapshotClear (w : Who) (s : State) : Host.Outcome State Fault Refusal := .next (s.cmdRow w 0x6FF0 1 2)

/-- OVERFLOW_CLEAR (R509): a write of a block's Overflow. -/
def execOverflowClear (w : Who) (block : Nat) (mask : BitVec 8) (s : State) : Host.Outcome State Fault Refusal :=
  .next (s.cmdRow w (0x6000 + block) 2 mask.toNat)

/-- FIRKIN_FREEZE (R515): 7000h.02 := 01h. -/
def execFirkinFreeze (w : Who) (s : State) : Host.Outcome State Fault Refusal := .next (s.cmdRow w 0x7000 2 1)

/-- FIRKIN_THAW (R515): 7000h.02 := 00h. -/
def execFirkinThaw (w : Who) (s : State) : Host.Outcome State Fault Refusal := .next (s.cmdRow w 0x7000 2 0)

/-- EVENT_PAIL_READ (R521): a segmented read of 7101h.02 fixes a packet. -/
def execEventPailRead (w : Who) (s : State) : Host.Outcome State Fault Refusal :=
  .next (s.takeDtp (dtpReq w 3 0 0 0x7101 2 []) {})

/-- EVENT_PAIL_DROP_REMAINDER (R521): 7100h.05 := 01h. -/
def execEventPailDropRemainder (w : Who) (s : State) : Host.Outcome State Fault Refusal := .next (s.cmdRow w 0x7100 5 1)

/-- OVERRUN_READ (R523): a read of 7100h.03 returns the bit and clears it. -/
def execOverrunRead (w : Who) (s : State) : Host.Outcome State Fault Refusal :=
  .next (s.takeDtp (dtpReq w 1 0 0 0x7100 3 []) {})

/-! ## Power and DRAM (R385, R451) -/

/-- POWER_BUDGET_WRITE (R451): 2000h.01. -/
def execPowerBudgetWrite (w : Who) (mw : Nat) (s : State) : Host.Outcome State Fault Refusal :=
  .next (s.writeRow w 0x2000 1 (natLe 4 mw))

/-- RETRAIN (R385): a mask to 2130h.06. -/
def execRetrain (w : Who) (mask : BitVec 8) (s : State) : Host.Outcome State Fault Refusal :=
  .next (s.cmdRow w 0x2130 6 mask.toNat)

/-! ## The pair (R352) -/

/-- JOIN (R352): 4100h.07 := 01h. -/
def execJoin (w : Who) (s : State) : Host.Outcome State Fault Refusal := .next (s.cmdRow w 0x4100 7 1)

/-- PREVAIL (R352): 4100h.07 := 02h. -/
def execPrevail (w : Who) (s : State) : Host.Outcome State Fault Refusal := .next (s.cmdRow w 0x4100 7 2)

/-- FORCE_SOLE (R352): 4100h.07 := 03h. -/
def execForceSole (w : Who) (s : State) : Host.Outcome State Fault Refusal := .next (s.cmdRow w 0x4100 7 3)

/-- WITHDRAW (R352): 4100h.07 := 04h. -/
def execWithdraw (w : Who) (s : State) : Host.Outcome State Fault Refusal := .next (s.cmdRow w 0x4100 7 4)

/-- LEAVE (R352): 4100h.07 := 05h. -/
def execLeave (w : Who) (s : State) : Host.Outcome State Fault Refusal := .next (s.cmdRow w 0x4100 7 5)

end Sys2Proof.Machine
end

