-- ==== Sys2Proof/Machine/YokeOps.lean ====
section
/-!
DEFINITION. The rows of the yoke (R315 to R357, R567): training, frames, every message of R319, the liveness signals and the
decision in Suspect.
-/
namespace Sys2Proof.Machine

/-! ## Training and frames (R315 to R317) -/

/-- The outcome of training (R315): 64 or 32 GT/s at x4 or x2. -/
def trainable (speed width : Nat) : Bool := decide (speed = 5 ∨ speed = 6) && decide (width = 2 ∨ width = 4)
/-- YOKE_TRAINING_DONE (R307, R315, R321): the link runs, 410Dh below full rate, and Hello goes out outside a pair; or it is down. A
new link starts a new frame stream, with the credits of each class that the peer's pails give (log entry 34). -/
def execYokeTrainingDone (speed width : Nat) (credits : List Nat) (s : State) : Host.Outcome State Fault Refusal :=
  .next (if !s.yokePort then s
    else if !trainable speed width then s.yokeDown.serveWaiting
    else
      let s1 := s.upYoke (fun y => { y with
        speed := speed
        width := width
        cable := true
        silent := false
        lastYoke := s.clk.now
        txSeq := 0
        rxSeq := 0
        unacked := []
        outWait := []
        owed := []
        rxPart := []
        credits := (List.range 3).foldl (fun t c => Tab.set 0 t c (credits.getD c 0)) [] })
      let s2 := if speed = 6 ∧ width = 4 then s1 else s1.log 0x410D (speed * 256 + width)
      if s.yoke.member ∈ [0, 1, 4, 5] then s2.sendMember 0x0C else s2)
/-- The message types of R319. -/
def yokeType (t : Nat) : Bool := decide (t ≤ 0x15)
/-- A field of a frame's header (R316). -/
def frameField (frame : Bytes) (hi lo : Nat) : Nat := bits (leNat (frame.take 4)) hi lo
/-- A frame whose CRC holds (R316, R317). -/
def frameGood (frame : Bytes) : Bool := decide (natLe 8 (Config.crc64 (frame.take 240)).toNat = (frame.drop 240).take 8)
/-- Read the message stream (R316, R318): the types of the messages that have arrived whole, up to a reserved one, and the bytes of the
message still arriving; idle bytes are passed over. -/
def readStream : Nat → Bytes → List Nat × Bytes
  | 0, b => ([], b)
  | _ + 1, [] => ([], [])
  | n + 1, t :: rest =>
    if t = 0 then readStream n rest
    else if !yokeType t.toNat then ([t.toNat], [])
    else
      let len := 16 + 16 * ((t :: rest).getD 1 0).toNat
      if (t :: rest).length < 16 ∨ (t :: rest).length < len then ([], t :: rest)
      else
        let more := readStream n ((t :: rest).drop len)
        (t.toNat :: more.1, more.2)
/-- An acknowledgement (R317): the frames up to the one it names are kept no longer, and the 2 µs start again. -/
def Yoke.acked (ack now : Nat) (y : Yoke) : Yoke :=
  match y.unacked.findIdx? (fun x => decide (x.seq = ack)) with
  | some k => { y with
      unacked := y.unacked.drop (k + 1)
      ackAt := now }
  | none => y
/-- A good frame in sequence (R316, R317, R321): acknowledged, its acknowledgement and credits taken, on which messages that waited for
credits leave; a reserved message type resets the link (R319). -/
def State.takeFrame (frame : Bytes) (s : State) : State :=
  let c := frameField frame 7 6
  let b := s.yoke.rxPart ++ (frame.drop 4).take 236
  let got := readStream b.length b
  let t := (s.upYoke (fun y => { y.acked (frameField frame 19 8) s.clk.now with
    rxSeq := frameField frame 31 20
    rxPart := got.2
    credits := Tab.set 0 y.credits c (Tab.get 0 y.credits c + frameField frame 5 0) })).count 57 2 1
  if got.1.all yokeType then t.heard.sendWaiting else t.yokeDown
/-- YOKE_FRAME_RECEIVE (R317): a frame whose CRC fails, or that is not the next of the stream, is discarded. The messages of the
stream arrive by rows of their own. -/
def execYokeFrameReceive (frame : Bytes) (s : State) : Host.Outcome State Fault Refusal :=
  .next (if !s.yokeTrained ∨ !frameGood frame ∨ frameField frame 31 20 ≠ (s.yoke.rxSeq + 1) % 4096 then s
    else (s.takeFrame frame).serveWaiting)
/-- YOKE_RETRANSMIT (R317): every frame after the last acknowledged one is sent again, 2 µs after the acknowledgement stood
still. -/
def execYokeRetransmit (s : State) : Host.Outcome State Fault Refusal :=
  .next (if !s.yokeTrained ∨ s.yoke.unacked.isEmpty then s
    else
      let t := s.elapseTo (s.yoke.ackAt + 2000)
      let n := s.yoke.unacked.length
      ((t.upYoke (fun y => { y with
        sent := y.sent ++ y.unacked.map (fun f => { f with ack := y.rxSeq })
        ackAt := t.clk.now
        frameReplays := min (y.frameReplays + n) 0xFFFFFFFF })).count 57 3 n).count 57 1 n)

/-! ## Messages (R319) -/

/-- A message arrives on a running link: it counts as a sign of life (R325), and requests held behind a commit it ended are
answered. -/
def State.arrives (f : State → State) (s : State) : State := if s.yokeTrained then (f s.heard).serveWaiting else s
/-- The same for a message of a type that leaves its pail at once (R321). -/
def State.message (ty : Nat) (f : State → State) (s : State) : State := s.arrives (fun t => f (t.owe ty))
/-- A message that only a member of a pair takes. -/
def State.pairMessage (ty : Nat) (f : State → State) (s : State) : State :=
  s.message ty (fun t => if t.paired ∨ t.yoke.member = 3 then f t else t)

/-- FORWARD (R323): a write forwarded to its home. -/
def execForward (m : YokeWrite) (s : State) : Host.Outcome State Fault Refusal :=
  .next (s.arrives (fun t => (t.noteYokeCrc m.line m.lineOk).takeMessage (YokeWrite.message m 1)))
/-- MIRROR (R323). -/
def execMirror (m : YokeWrite) (s : State) : Host.Outcome State Fault Refusal :=
  .next (s.arrives (fun t => ((t.noteYokeCrc m.line m.lineOk).takeMessage (YokeWrite.message m 2)).endResync))
/-- ORDERED (R323). -/
def execOrdered (tag outcome : Nat) (s : State) : Host.Outcome State Fault Refusal :=
  .next (s.arrives (fun t => (t.takeMessage
    { ty := 3
      tag := tag
      aux := outcome }).endResync))
/-- MIRROR_ACK (R323). -/
def execMirrorAck (tag : Nat) (s : State) : Host.Outcome State Fault Refusal := .next (s.pairMessage 0x04 (fun t => t.ackMirror tag))
/-- READ_FORWARD (R136). -/
def execReadForward (tag line : Nat) (s : State) : Host.Outcome State Fault Refusal :=
  .next (s.pairMessage 0x05 (fun t => t.takeReadForward tag line))
/-- READ_DATA (R136); a line that fails its line CRC is answered as poison (R392). -/
def execReadData (tag line : Nat) (data : Line) (poisoned lineOk : Bool) (s : State) : Host.Outcome State Fault Refusal :=
  .next (s.pairMessage 0x06 (fun t => (t.noteYokeCrc line lineOk).takeReadData tag line data (poisoned || !lineOk)))
/-- RESYNC_GRAIN_READ (R343, R344): the feeder reads the next marked grain, its media reads under the ladder of R125; 4100h.06
ResyncPace, in MB/s, holds it back until the grain before has had its time (R354). -/
def execResyncGrainRead (reads : List WordRead) (s : State) : Host.Outcome State Fault Refusal :=
  .next (if s.yoke.member = 6 ∧ s.yokeTrained then
      match s.nextResync with
      | some g =>
        let pace := s.entry 0x4100 6
        (if pace = 0 then s else s.elapseTo (s.yoke.resyncAt + (16384000 + pace - 1) / pace)).feedGrain g reads
      | none => s
    else s)
/-- RESYNC_SECTOR (R343); lines that fail their line CRC, named by `crcBad`, are taken as poisoned (R392). -/
def execResyncSector (grain sector st : Nat) (data : List Line) (poison crcBad : BitVec 32) (s : State) :
    Host.Outcome State Fault Refusal :=
  .next (s.message 0x07 (fun t =>
    if t.yoke.member = 7 ∧ t.marked grain then
      let u := (List.range 32).foldl (fun u j => u.noteYokeCrc ((grain * 8 + sector) * 32 + j) (!crcBad.getLsbD j)) t
      u.takeSector grain sector st data (poison ||| crcBad)
    else t))
/-- RESYNC_ACK (R343). -/
def execResyncAck (grain : Nat) (s : State) : Host.Outcome State Fault Refusal := .next (s.message 0x08 (fun t => t.resyncAcked grain))
/-- RESYNC_CLEAR (R343). -/
def execResyncClear (grain : Nat) (s : State) : Host.Outcome State Fault Refusal :=
  .next (s.message 0x09 (fun t => t.resyncCleared grain))
/-- BITMAP_UNIT (R342). -/
def execBitmapUnit (unit : Nat) (set : List Nat) (s : State) : Host.Outcome State Fault Refusal :=
  .next (s.message 0x0A (fun t => if t.paired then t.takeBitmap unit set else t))
/-- HEARTBEAT_SEND (R325): a Heartbeat while the link is trained; a BrineRelease the peer waits for is looked at again (R265). -/
def execHeartbeatSend (s : State) : Host.Outcome State Fault Refusal :=
  .next (if s.yokeTrained then (s.sendMember 0x0B).answerRelease else s)
/-- HEARTBEAT (R325, R310): a sign of life; a module in Suspect goes back, and one whose resync is over follows a peer that is
already Paired. -/
def execHeartbeat (m : Membership) (s : State) : Host.Outcome State Fault Refusal :=
  .next (s.message 0x0B (fun t =>
    let u := (t.resume m).notePeer m
    if (u.yoke.member = 6 ∨ u.yoke.member = 7) ∧ m.state = 2 ∧ u.divergentCount = 0 then
      (u.upYoke (fun y => { y with peer := some m })).endResync
    else u))
/-- HELLO (R307 to R312): the handshake of a module that is Single, Joining, Sole or Fenced, or to which Prevail applies; in a
pair it counts as a heartbeat. -/
def execHello (m : Membership) (x : HelloInfo) (s : State) : Host.Outcome State Fault Refusal :=
  .next (s.message 0x0C (fun t =>
    if t.yoke.member ∈ [0, 1, 4, 5] ∨ (t.yoke.member = 8 ∧ (x.prevailGiven ∨ t.yoke.prevailGiven)) then t.handshake m x
    else (t.resume m).notePeer m))
/-- STAND_DOWN (R310, R330). -/
def execStandDown (m : Membership) (s : State) : Host.Outcome State Fault Refusal := .next (s.message 0x0D (fun t => t.peerStoodDown m))
/-- MODULE_STAND_DOWN (R330): the module stands down for a cause, Fenced after a fence or Withdraw, else Joining until its
restart. A Single module is in no pair. -/
def execModuleStandDown (cause : StandDownCause) (s : State) : Host.Outcome State Fault Refusal :=
  .next (if s.yoke.member = 0 ∨ !servingSt s.yoke.member then s
    else
      match cause with
      | .fence => s.becomeFenced.serveWaiting
      | .withdraw => if s.sole then s else s.withdrawNow.serveWaiting
      | _ => s.loseCommit.standDown.serveWaiting)

/-! ## Commits, notices, grain changes (R347, R349, R567) -/

/-- COMMIT_PREPARE (R320, R347). -/
def execCommitPrepare (batch seg : Nat) (last : Bool) (recs : List StageRec) (s : State) : Host.Outcome State Fault Refusal :=
  .next (s.message 0x0F (fun t => t.takePrepare batch seg last recs))
/-- COMMIT_VOTE (R347). -/
def execCommitVote (batch code : Nat) (s : State) : Host.Outcome State Fault Refusal := .next (s.message 0x10 (fun t => t.takeVote batch code))
/-- COMMIT_APPLY (R347). -/
def execCommitApply (batch : Nat) (s : State) : Host.Outcome State Fault Refusal := .next (s.message 0x11 (fun t => t.takeApply batch))
/-- COMMIT_DONE (R347). -/
def execCommitDone (batch : Nat) (s : State) : Host.Outcome State Fault Refusal := .next (s.message 0x12 (fun t => t.takeDone batch))
/-- NOTICE (R349). -/
def execNotice (code keyId base length : Nat) (s : State) : Host.Outcome State Fault Refusal :=
  .next (s.pairMessage 0x13 (fun t => t.takeNotice code keyId base length))
/-- GRAIN_CHANGE (R567): in its turn all four units change at once, and the peer is answered. -/
def execGrainChange (grain st : Nat) (s : State) : Host.Outcome State Fault Refusal :=
  .next (s.arrives (fun t => (t.takeMessage
    { ty := 0x14
      num := grain
      aux := st }).checkDies))
/-- GRAIN_CHANGE_ACK (R567). -/
def execGrainChangeAck (grain : Nat) (s : State) : Host.Outcome State Fault Refusal :=
  .next (s.arrives (fun t => (t.takeMessage
    { ty := 0x15
      num := grain }).checkDies))
/-- YOKE_DICTIONARY (R459): a DTP message of the Peer role; its answers go back on the yoke. -/
def execYokeDictionary (msg : Bytes) (s : State) : Host.Outcome State Fault Refusal :=
  .next (s.message 0x0E (fun t =>
    let u := t.takeBytes { route := .yoke, key := 0 } msg
    (u.dict.out.filter (fun r => decide (r.route = .yoke))).foldl (fun v r => v.send { ty := 0x0E, body := r.bytes })
      (u.upDict (fun d => { d with out := d.out.filter (fun r => decide (r.route ≠ .yoke)) }))))

/-! ## Liveness (R325 to R331) -/

/-- YOKE_SILENT (R325): no valid frame for 1 ms. -/
def execYokeSilent (s : State) : Host.Outcome State Fault Refusal :=
  .next (if s.yoke.silent then s else ((s.elapseTo (s.yoke.lastYoke + 1000000)).goSilent).serveWaiting)
/-- ALIVE_WIRE_STATE (R326, R327): the peer drives the wire at 1 kHz or 125 Hz; 410Bh when the wire returns while the yoke is
up. -/
def execAliveWireState (serving : Bool) (s : State) : Host.Outcome State Fault Refusal :=
  .next (if !s.keeperOn then s
    else
      let t := s.upYoke (fun y => { y with
        cable := true
        wire := if serving then 1 else 2
        lastWire := s.clk.now })
      if s.yoke.wire = 0 ∧ s.yokeUp then t.log 0x410B 1 else t)
/-- ALIVE_WIRE_SILENT (R325, R327): no edge for 20 ms; 410Ah while the yoke is up. -/
def execAliveWireSilent (s : State) : Host.Outcome State Fault Refusal :=
  .next (if s.yoke.wire = 0 then s
    else
      let t := (s.elapseTo (s.yoke.lastWire + 20000000)).upYoke (fun y => { y with wire := 0 })
      if t.yokeUp then t.log 0x410A 1 else t)
/-- PULSE_SEND (R327). -/
def execPulseSend (s : State) : Host.Outcome State Fault Refusal := .next (if s.keeperOn then s.sendPulse else s)
/-- PULSE (R325, R327): the route shows the peer serving or standing down; 410Bh when the route returns while the yoke is up. -/
def execPulse (m : Membership) (s : State) : Host.Outcome State Fault Refusal :=
  .next (if !s.keeperOn ∨ s.entry 0x4100 5 = 0 then s
    else
      let t := (s.notePeer m).upYoke (fun y => { y with
        route := if m.serving then 1 else 2
        lastPulse := s.clk.now })
      if s.yoke.route = 0 ∧ s.yokeUp then t.log 0x410B 2 else t)
/-- PULSE_SILENT (R325, R327): no Pulse for 1 s; 410Ah while the yoke is up. -/
def execPulseSilent (s : State) : Host.Outcome State Fault Refusal :=
  .next (if s.yoke.route = 0 then s
    else
      let t := (s.elapseTo (s.yoke.lastPulse + 1000000000)).upYoke (fun y => { y with route := 0 })
      if t.yokeUp then t.log 0x410A 2 else t)
/-- SUSPECT_DECISION (R331): the row is evaluated with the signals as they stand. -/
def execSuspectDecision (s : State) : Host.Outcome State Fault Refusal := .next s.decideNow
/-- JUNIOR_FENCE_DELAY (R331): 5 ms in Suspect; a receiver fences, and a junior that sees a serving senior. -/
def execJuniorFenceDelay (s : State) : Host.Outcome State Fault Refusal :=
  .next (if s.yoke.member = 3 ∧ (s.wasReceiver ∨ !s.actsSenior) then
      (s.elapseTo (s.yoke.suspectAt + 5000000)).decideNow
    else s)
/-- SENIOR_FENCE_WAIT (R331): 1 s in Suspect; a senior that still sees a serving junior fences. -/
def execSeniorFenceWait (s : State) : Host.Outcome State Fault Refusal :=
  .next (if s.yoke.member = 3 ∧ !s.wasReceiver ∧ s.actsSenior then
      (s.elapseTo (s.yoke.suspectAt + 1000000000)).decideNow
    else s)
/-- TAKEOVER_SILENCE (R331): all three channels silent for 2 s. -/
def execTakeoverSilence (s : State) : Host.Outcome State Fault Refusal :=
  .next (if s.yoke.member = 3 ∧ !s.wasReceiver ∧ s.peerSeen = 0 ∧ s.yoke.silent then (s.elapseTo s.takeoverAt).decideNow else s)

end Sys2Proof.Machine
end

