-- ==== Sys2Proof/Machine/Mailbox.lean ====
section
/-!
DEFINITION. The memory-device commands (R66 to R75): who may send them, what each does and answers. Return codes and the layouts
of payloads are those of the CXL 3.1 standard, which the spec names and does not give (log entry 39); bytes the spec leaves open
are free.
-/
namespace Sys2Proof.Machine

/-! ## Return codes and payload parts -/

/-- Success. -/
def rcOk : Nat := 0
/-- Background Command Started. -/
def rcStarted : Nat := 1
/-- Invalid Input. -/
def rcInvalid : Nat := 2
/-- Unsupported. -/
def rcUnsupported : Nat := 3
/-- Busy. -/
def rcBusy : Nat := 6
/-- Invalid Handle. -/
def rcHandle : Nat := 14
/-- Invalid Physical Address. -/
def rcAddress : Nat := 15
/-- The return code of a refusal of the firmware entries (R485, R537). -/
def rcFirmware (code : Nat) : Nat :=
  if code = 0 then rcOk
  else if code = 0x04010000 then rcBusy
  else if code = 0x04020000 then 9
  else rcInvalid
/-- Payload bytes the spec leaves open. -/
def openBytes (opcode off n : Nat) : Bytes := (List.range n).map (fun i => Config.rawByte 9 (opcode * 256 + off + i) 0)
/-- A UUID as its 16 bytes in the order written. -/
def uuidBytes (u : Nat) : Bytes := (natLe 16 u).reverse

/-! ## Who may send what (R66, R72, R103) -/

/-- A command of R66: its opcode and the routes that accept it, direct host, fabric manager, partner page. -/
structure MboxRow where
  opcode : Nat
  direct : Bool
  fabric : Bool
  page : Bool
deriving DecidableEq, Repr
/-- The table of R66. -/
def mboxRows : List MboxRow :=
  [0x0100, 0x0101, 0x0102, 0x0103, 0x0201, 0x0202, 0x0301, 0x0400, 0x0401, 0x4202, 0x4203, 0x4204, 0x4303, 0x4304, 0x4305, 0x4400,
    0x4401].map (fun o => ⟨o, true, true, false⟩)
  ++ [0x0200, 0x0300, 0x4000, 0x4100, 0x4200, 0x4201, 0x4300, 0x4302, 0xC000].map (fun o => ⟨o, true, true, true⟩)
/-- A route accepts an opcode on this variant: Scan Media exists on the SN128 only. -/
def State.mboxAllows (s : State) (r : Route) (opcode : Nat) : Bool :=
  let on := fun (x : MboxRow) => match r with
    | .primary => x.direct
    | .fabric => x.fabric
    | .page => x.page
    | .field => false
    | .yoke => false
  mboxRows.any (fun x => decide (x.opcode = opcode) && on x) &&
    (decide (s.ident.variant = .sn128) || decide (opcode ∉ [0x4303, 0x4304, 0x4305]))
/-- The route is there (R46, R66, R83). -/
def State.mboxReached (s : State) (r : Route) : Bool :=
  match r with
  | .primary => s.primaryReached
  | .fabric => s.fastOn && decide (s.port.attach = 2)
  | .page => s.pageReached
  | .field => false
  | .yoke => false
/-- The registers of page n hold a command: its opcode and length in the command register, its input in the payload area. An opcode
that a page does not accept has no input the module reads (R66). -/
def State.pageHolds (s : State) (n opcode : Nat) (input : Bytes) : Bool :=
  let reg := (Tab.get 0 s.mbox.pages (n * 128)).toNat
  decide (bits reg 79 64 = opcode) && (!s.mboxAllows .page opcode || decide (bits reg 100 80 = input.length) &&
    (List.range input.length).all (fun i =>
      decide ((Tab.get 0 s.mbox.pages (n * 128 + 64 + i / 64)).extractLsb' (8 * (i % 64)) 8 = input.getD i 0)))
/-- Two commands come from one mailbox. -/
def sameMbox (w x : Who) : Bool := decide (w.route = x.route) && decide (w.key = x.key)
/-- A command of the sender's mailbox waits for its end. -/
def State.mboxWaits (s : State) (w : Who) : Bool := s.mbox.clearing.any (fun x => sameMbox x.2 w) || s.mbox.dictWait.any (fun x => sameMbox x.1 w)
/-- The sender's mailbox takes no command now (R73): one of it is under way; or, on page n, its doorbell is set for another one than
the row's. A row on a page whose doorbell is not set stands for writing the command and setting the doorbell too (log entry 14). -/
def State.mboxTaken (s : State) (w : Who) (opcode : Nat) (input : Bytes) : Bool :=
  s.mboxWaits w || (decide (w.route = .page) && (match s.whoEntry w with
    | some n => s.doorbell n && !s.pageHolds n opcode input
    | none => false))
/-- A command arrives: on a page, a key that selects no entry is an unknown requester (R57); a mailbox with a command under way
ignores it, a page with a count (R73); a command the route does not accept, or a sender without the capability, gets Unsupported;
any other is carried out. -/
def State.mboxGate (w : Who) (opcode : Nat) (input : Bytes) (run : State → State) (s : State) : State :=
  if !s.mboxReached w.route then s
  else if w.route = .page ∧ s.whoEntry w = none then s.refuseUnknown (s.keyOf w.key)
  else if s.mboxTaken w opcode input then
    (if w.route = .page then s.upPort (fun p => { p with rights := sat32 p.rights }) else s)
  else if s.lacksMailbox w ∨ !s.mboxAllows w.route opcode then s.mboxRespond w opcode rcUnsupported []
  else run s
/-- A command that is answered at once. -/
def State.mbox? (w : Who) (opcode : Nat) (run : State → Nat × Bytes × State) (s : State) (input : Bytes := []) : State :=
  s.mboxGate w opcode input (fun t =>
    let x := run t
    x.2.2.mboxRespond w opcode x.1 x.2.1)
/-- A command that is answered later: on a page its doorbell stays set until then. -/
def State.mboxHold (w : Who) (s : State) : State :=
  match w.route, s.whoEntry w with
  | .page, some n => s.upMbox (fun m => { m with doorbell := if m.doorbell.contains n then m.doorbell else m.doorbell ++ [n] })
  | _, _ => s
/-- A command that only reads. -/
def State.mboxRead (w : Who) (opcode : Nat) (run : State → Nat × Bytes) (s : State) (input : Bytes := []) : State :=
  s.mbox? w opcode (fun t => ((run t).1, (run t).2, t)) input

/-! ## Health (R68) -/

/-- Life used, in percent: the larger of the average wear of the groups in service against 20,000 cycles and reserve consumed. -/
def State.lifeUsed (s : State) : Nat :=
  max (100 * (s.eraseCounts.foldl (· + ·) 0) / (20000 * max 1 s.inService)) (100 - s.reservePct)
/-- The hottest working media package, in °C. -/
def State.deviceTemp (s : State) : Int :=
  let r := ((List.range s.ident.variant.packages).filter (fun p => !s.faulted p)).map s.reading
  ((r.foldl max 0 : Nat) - 27315 : Int) / 100
/-- The sum of the gill inputs of some domains. -/
def State.gillSum (s : State) (lo hi : Nat) : Nat :=
  ((s.gills.inputs.filter (fun kv => decide (lo ≤ kv.1) && decide (kv.1 ≤ hi))).map (fun kv => kv.2)).foldl (· + ·) 0
/-- Corrected volatile errors: the DRAM gills. -/
def State.volatileErrors (s : State) : Nat := s.gillSum 0 7
/-- Corrected persistent errors: the media gills. -/
def State.persistentErrors (s : State) : Nat := s.gillSum 8 103
/-- Media status: 1 not ready while a Sanitize runs, 2 write persistency lost in Brine mode. DESIGN CHOICE: where both hold, not
ready (log entry 125). -/
def State.mediaStatus (s : State) : Nat := if s.mbox.background = 0x4400 then 1 else if s.inBrine then 2 else 0
/-- The 18 bytes of the health information. -/
def State.healthBytes (s : State) : Bytes :=
  openBytes 0x4200 0 1 ++ natLe 1 s.mediaStatus ++ openBytes 0x4200 2 1 ++ natLe 1 s.lifeUsed
  ++ natLe 2 (s.deviceTemp % 65536).toNat ++ natLe 4 s.pwr.dirtyShutdowns ++ natLe 4 s.volatileErrors ++ natLe 4 s.persistentErrors
/-- The four alert thresholds are reached: life used, temperature, corrected volatile and persistent errors. A threshold of 0 is
not watched. -/
def State.alertsNow (s : State) : BitVec 4 :=
  let hit := fun (limit : Nat) (v : Int) => decide (limit ≠ 0) && decide ((limit : Int) ≤ v)
  let m := s.mbox
  BitVec.ofNat 4 (bit (hit m.alertLife s.lifeUsed) + 2 * bit (hit m.alertTemp s.deviceTemp)
    + 4 * bit (hit m.alertVolatile s.volatileErrors) + 8 * bit (hit m.alertPersistent s.persistentErrors))
/-- Look at the alert thresholds (R66, R77): a Memory Module record in the Warning log for each one newly reached. -/
def State.checkAlerts (s : State) : State :=
  let now := s.alertsNow
  let t := (List.range 4).foldl (fun u k =>
    if now.getLsbD k && !s.mbox.alertCrossed.getLsbD k then u.cxlRecord u.clk.stamp 1 2 0 k 0 else u) s
  t.upMbox (fun m => { m with alertCrossed := now })
/-- HOUSEKEEPING_ROUND (R443): the round, after which the alert thresholds are looked at (log entry 41). -/
def execHousekeepingRound (readings : List Nat) (s : State) : Host.Outcome State Fault Refusal :=
  .next (let t := s.round readings
    if t.fastOn then t.checkAlerts else t)

/-! ## Event records (R76 to R80) -/

/-- The 69 bytes of a General Media or DRAM Event that follow its transaction type (R77, log entry 39): of the one the component
identifier, with channel and die number; of the other channel, rank 0 (a subchannel has one rank: R376 gives it 32 banks in all,
DEDUCED) and subchannel. They are left open where the line has no place. -/
def placeBytes (r : CxlRec) : Bytes :=
  match r.place with
  | none => openBytes 0x0100 (r.kind * 80 + 3) 69
  | some k =>
    if r.kind = 0 then natLe 2 8 ++ natLe 5 0 ++ natLe 1 (k % 16) ++ natLe 2 k ++ natLe 59 0
    else openBytes 0x0100 83 2 ++ natLe 1 (k / 2) ++ natLe 1 0 ++ natLe 58 0 ++ natLe 1 (k % 2) ++ natLe 6 0
/-- A CXL event record of 128 bytes (R77): the standard header, then the module's fields. -/
def State.recordBytes (s : State) (severity : Nat) (r : CxlRec) : Bytes :=
  let uuid := if r.kind = 0 then 0xfbcd0a77c2604 * 2 ^ 76 + 0x17f85a9088b1621eba6
    else if r.kind = 1 then 0x601dcbb39c064eabb8af4e9bfb5c9624
    else if r.kind = 2 then 0xfe927475dd594339a58679bab113b774
    else 0x5ce1a0b27d344e199a6f2b80c4d1e357
  let body := if r.kind = 3 then natLe 2 r.code ++ natLe 8 r.param ++ natLe 70 0
    else if r.kind = 2 then openBytes 0x0100 0 1 ++ s.healthBytes ++ natLe 61 0
    else natLe 8 r.param ++ openBytes 0x0100 (r.kind * 80) 2 ++ natLe 1 r.trans ++ placeBytes r
  uuidBytes uuid ++ natLe 1 128 ++ natLe 3 severity ++ natLe 2 r.handle ++ natLe 2 0 ++ natLe 8 r.stamp ++ natLe 16 0 ++ body
/-- GET_EVENT_RECORDS (R76): the oldest records that fit, at most 31, with the overflow and more-records flags. -/
def State.eventRecords (s : State) (log : Nat) : Bytes :=
  let g := Tab.get ({} : CxlLog) s.obs.logs log
  let l := g.recs.take 31
  natLe 1 (bit (decide (g.overflow ≠ 0)) + 2 * bit (decide (31 < g.recs.length))) ++ natLe 1 0 ++ natLe 2 g.overflow
  ++ natLe 8 g.firstDrop ++ natLe 8 g.lastDrop ++ natLe 2 l.length ++ natLe 10 0
  ++ (l.map (fun r => s.recordBytes log r)).foldl (· ++ ·) []
/-- Clear records of a log: all of them, or those named, each of which must be there; the overflow figures go with them. -/
def State.clearRecords (log : Nat) (all : Bool) (handles : List Nat) (s : State) : Nat × State :=
  let g := Tab.get ({} : CxlLog) s.obs.logs log
  let keep := if all then [] else g.recs.filter (fun r => !handles.contains r.handle)
  if !all ∧ handles = [] then (rcOk, s)
  else if !all ∧ !(handles.all (fun h => g.recs.any (fun r => decide (r.handle = h)))) then (rcHandle, s)
  else (rcOk, s.upObs (fun o => { o with logs := Tab.set {} o.logs log { recs := keep } }))
/-- GET_EVENT_RECORDS (R66, R76). -/
def execGetEventRecords (w : Who) (log : Nat) (s : State) : Host.Outcome State Fault Refusal :=
  .next (s.mboxRead w 0x0100 (fun t => if 3 < log then (rcInvalid, []) else (rcOk, t.eventRecords log)))
/-- CLEAR_EVENT_RECORDS (R66, R76). -/
def execClearEventRecords (w : Who) (log : Nat) (all : Bool) (handles : List Nat) (s : State) :
    Host.Outcome State Fault Refusal :=
  .next (s.mbox? w 0x0101 (fun t =>
    if 3 < log then (rcInvalid, [], t)
    else
      let x := t.clearRecords log all handles
      (x.1, [], x.2)))
/-- GET_EVENT_INTERRUPT_POLICY (R80): for each log, MSI-X with its fixed vector, or none. -/
def execGetEventInterruptPolicy (w : Who) (s : State) : Host.Outcome State Fault Refusal :=
  .next (s.mboxRead w 0x0102 (fun t => (rcOk, (List.range 4).map (fun k =>
    if t.obs.policy.getLsbD k then BitVec.ofNat 8 (1 + 16 * (k + 1)) else 0))))
/-- SET_EVENT_INTERRUPT_POLICY (R80). -/
def execSetEventInterruptPolicy (w : Who) (enables : BitVec 4) (s : State) : Host.Outcome State Fault Refusal :=
  .next (s.mbox? w 0x0103 (fun t => (rcOk, [], t.upObs (fun o => { o with policy := enables }))))

/-! ## Firmware, time, logs -/

/-- GET_FW_INFO (R66): two slots; slot 1 is the one in force, slot 2 the other, staged when it runs after the next cold reset. -/
def execGetFwInfo (w : Who) (s : State) : Host.Outcome State Fault Refusal :=
  .next (s.mboxRead w 0x0200 (fun t =>
    let staged := if t.fw.pending ≠ t.fw.current then 2 else 0
    (rcOk, natLe 1 2 ++ natLe 1 (1 + 8 * staged) ++ natLe 1 0 ++ natLe 13 0 ++ (t.fwSlot t.fw.current).versionBytes ++ natLe 8 0
      ++ (t.fwSlot (1 - t.fw.current)).versionBytes ++ natLe 8 0 ++ natLe 32 0)))
/-- TRANSFER_FW (R66, R537): a chunk at its offset, refused as 9050h refuses it. -/
def execTransferFw (w : Who) (offset : Nat) (data : Bytes) (s : State) : Host.Outcome State Fault Refusal :=
  .next (s.mbox? w 0x0201 (fun t =>
    if data = [] then (rcOk, [], t)
    else if offset % 4096 ≠ 0 ∨ 8388608 ≤ offset then (rcInvalid, [], t)
    else
      let x := t.fwChunk offset data
      (rcFirmware x.1, [], x.2)))
/-- ACTIVATE_FW (R66, R537): at the next cold reset, refused as 9050h refuses it. -/
def execActivateFw (w : Who) (s : State) : Host.Outcome State Fault Refusal :=
  .next (s.mbox? w 0x0202 (fun t =>
    let x := t.fwActivate
    (rcFirmware x.1, [], x.2)))
/-- GET_TIMESTAMP (R66, R565). -/
def execGetTimestamp (w : Who) (s : State) : Host.Outcome State Fault Refusal :=
  .next (s.mboxRead w 0x0300 (fun t => (rcOk, natLe 8 t.clk.stamp)))
/-- Set the timestamp (R565): the first time after a power-up the unpowered interval is recorded and added to every package's
dose; the ripening time only moves forward. -/
def State.setTimestamp (v : Nat) (s : State) : State :=
  let gap := if s.clk.stampSet then 0 else v - s.clk.stored
  let s1 := s.upClk (fun c => { c with
    stamp := v
    stampSet := true
    unpowered := if c.stampSet then c.unpowered else gap / sec
    ripe := max c.ripe v })
  if gap = 0 then s1
  else
    ((List.range s.ident.variant.packages).foldl (fun t p => t.upCare (fun c => { c with
      doses := Tab.set 0 c.doses p (Tab.get 0 c.doses p + gap / 1000000) })) s1).save 8
/-- SET_TIMESTAMP (R66, R565). -/
def execSetTimestamp (w : Who) (t : Nat) (s : State) : Host.Outcome State Fault Refusal :=
  .next (s.mbox? w 0x0301 (fun u => (rcOk, [], u.setTimestamp (t % 2 ^ 64))))
/-- The command effects log: an entry for each opcode the route accepts; the effects are open. -/
def State.effectsLog (s : State) (r : Route) : Bytes :=
  ((mboxRows.filter (fun x => s.mboxAllows r x.opcode)).map (fun x =>
    natLe 2 x.opcode ++ openBytes x.opcode 0xF0 2)).foldl (· ++ ·) []
/-- GET_SUPPORTED_LOGS (R66): the command effects log only. -/
def execGetSupportedLogs (w : Who) (s : State) : Host.Outcome State Fault Refusal :=
  .next (s.mboxRead w 0x0400 (fun t => (rcOk, natLe 2 1 ++ natLe 6 0 ++ uuidBytes 0x0da9c0b5bf414b788f7996b1623b3f17
    ++ natLe 4 (t.effectsLog w.route).length)))
/-- GET_LOG (R66): `log` 0 is the command effects log. -/
def execGetLog (w : Who) (log : Nat) (s : State) : Host.Outcome State Fault Refusal :=
  .next (s.mboxRead w 0x0401 (fun t => if log = 0 then (rcOk, t.effectsLog w.route) else (rcInvalid, [])))

/-! ## Identity, health, alerts, shutdown state (R66 to R69) -/

/-- Capacity in units of 256 MiB (R67). -/
def State.units (s : State) : Nat := s.ident.variant.capacity / 2 ^ 28
/-- IDENTIFY_MEMORY_DEVICE (R67). -/
def execIdentifyMemoryDevice (w : Who) (s : State) : Host.Outcome State Fault Refusal :=
  .next (s.mboxRead w 0x4000 (fun t => (rcOk, (t.fwSlot t.fw.current).versionBytes ++ natLe 8 0 ++ natLe 8 t.units ++ natLe 8 0
    ++ natLe 8 t.units ++ natLe 8 0 ++ natLe 2 256 ++ natLe 2 256 ++ natLe 2 256 ++ natLe 2 256 ++ natLe 4 0
    ++ openBytes 0x4000 64 3 ++ natLe 2 0 ++ openBytes 0x4000 69 2)))
/-- GET_PARTITION_INFO (R66): all capacity persistent. -/
def execGetPartitionInfo (w : Who) (s : State) : Host.Outcome State Fault Refusal :=
  .next (s.mboxRead w 0x4100 (fun t => (rcOk, natLe 8 0 ++ natLe 8 t.units ++ natLe 8 0 ++ natLe 8 t.units)))
/-- GET_HEALTH_INFO (R68). -/
def execGetHealthInfo (w : Who) (s : State) : Host.Outcome State Fault Refusal :=
  .next (s.mboxRead w 0x4200 (fun t => (rcOk, t.healthBytes)))
/-- GET_ALERT_CONFIGURATION (R66): which alerts are watched, and their thresholds. -/
def execGetAlertConfiguration (w : Who) (s : State) : Host.Outcome State Fault Refusal :=
  .next (s.mboxRead w 0x4201 (fun t =>
    let m := t.mbox
    let on := bit (decide (m.alertLife ≠ 0)) + 2 * bit (decide (m.alertTemp ≠ 0)) + 8 * bit (decide (m.alertVolatile ≠ 0))
      + 16 * bit (decide (m.alertPersistent ≠ 0))
    (rcOk, natLe 1 27 ++ natLe 1 on ++ openBytes 0x4201 2 1 ++ natLe 1 m.alertLife ++ openBytes 0x4201 4 4 ++ natLe 2 m.alertTemp
      ++ natLe 2 0 ++ natLe 2 m.alertVolatile ++ natLe 2 m.alertPersistent)))
/-- SET_ALERT_CONFIGURATION (R66): the four thresholds; 0 is not watched. -/
def execSetAlertConfiguration (w : Who) (life temperature volatileErr persistentErr : Nat) (s : State) :
    Host.Outcome State Fault Refusal :=
  .next (s.mbox? w 0x4202 (fun t =>
    (rcOk, [], (t.upMbox (fun m => { m with
      alertLife := life
      alertTemp := temperature
      alertVolatile := volatileErr
      alertPersistent := persistentErr })).checkAlerts)))
/-- GET_SHUTDOWN_STATE (R66, R69). -/
def execGetShutdownState (w : Who) (s : State) : Host.Outcome State Fault Refusal :=
  .next (s.mboxRead w 0x4203 (fun t => (rcOk, natLe 1 t.pwr.shutdownState)))
/-- SET_SHUTDOWN_STATE (R69): recorded and reported, and nothing else. -/
def execSetShutdownState (w : Who) (st : Nat) (s : State) : Host.Outcome State Fault Refusal :=
  .next (s.mbox? w 0x4204 (fun t => (rcOk, [], t.upPwr (fun p => { p with shutdownState := st }))))

/-! ## Poison and scrubbing (R66, R259 to R261) -/

/-- The poisoned lines of a span that a sender sees: a partner, those in ranges it may read. -/
def State.poisonSeen (s : State) (w : Who) (base len : Nat) : List Nat :=
  let sees := fun (l : Nat) => match s.whoEntry w, s.decodeDpa (l * 64) with
    | none, _ => true
    | some n, .ordinary r => s.mayRead n r.group
    | some n, .window r _ => s.mayRead n r.group
    | some _, _ => false
  ((s.map.poison.filter (fun kv => kv.2)).map (fun kv => kv.1)).filter (fun l =>
    decide (base ≤ l * 64) && decide (l * 64 < base + len) && sees l)
/-- GET_POISON_LIST (R66): at most 1,024 records, with the more-records flag. DESIGN CHOICE: each call lists the first 1,024 of its
span; the rest are reached by a span that starts later (log entry 125). -/
def execGetPoisonList (w : Who) (base length : Nat) (s : State) : Host.Outcome State Fault Refusal :=
  .next (s.mboxRead w 0x4300 (fun t =>
    let all := t.poisonSeen w base length
    let l := all.take 1024
    (rcOk, natLe 1 (bit (decide (1024 < all.length))) ++ natLe 1 0 ++ natLe 8 0 ++ natLe 2 l.length ++ natLe 20 0
      ++ (l.map (fun x => natLe 8 (x * 64) ++ natLe 4 1 ++ natLe 4 0)).foldl (· ++ ·) [])) (natLe 8 base ++ natLe 8 (length / 64)))
/-- CLEAR_POISON (R66): a full-line write under the sender's write rights; the command completes with the write (R32). A sender
without rights, or a module that takes no request, answers at once. DESIGN CHOICE: the fabric manager, which has no partner entry,
may write every line of an enabled range (log entry 125). -/
def State.clearPoison (w : Who) (addr : Nat) (d : Line) (s : State) : State :=
  let fail := fun (c : Nat) => s.mboxRespond w 0x4302 c []
  if !s.accepts ∨ s.blocked then fail rcBusy
  else
    match s.decodeDpa addr with
    | .ordinary r =>
      let right : Bool := match s.whoEntry w with
        | some n => s.mayWrite n r.group
        | none => true
      if addr % 64 ≠ 0 ∨ !right then fail rcInvalid
      else
        let q := { newReq .write 0 internal 0x4302 addr r.cls r.policy d fullMask false s.clk.now with id := s.reqs.next }
        ((s.upReqs (fun x => { x with
          next := x.next + 1
          list := x.list ++ [q] })).upMbox (fun m => { m with clearing := m.clearing ++ [(q.id, w)] })).mboxHold w
    | .window _ _ => fail rcInvalid
    | .page _ _ => fail rcAddress
    | .notDecoded => fail rcAddress
/-- CLEAR_POISON (R66). -/
def execClearPoison (w : Who) (addr : Nat) (data : Line) (s : State) : Host.Outcome State Fault Refusal :=
  .next (s.mboxGate w 0x4302 (natLe 8 addr ++ natLe 64 data.toNat) (State.clearPoison w addr data))
/-- SCAN_MEDIA_CAPABILITIES (R66): a length of 0 is refused; the estimated time is open. -/
def execScanMediaCapabilities (w : Who) (base length : Nat) (s : State) : Host.Outcome State Fault Refusal :=
  .next (s.mboxRead w 0x4303 (fun t =>
    if length = 0 ∨ !t.spanOk 16384 base length then (rcInvalid, []) else (rcOk, openBytes 0x4303 0 4)))
/-- SCAN_MEDIA (R66, R259): the commanded scrub pass, as the background command. -/
def execScanMedia (w : Who) (base length flags : Nat) (s : State) : Host.Outcome State Fault Refusal :=
  .next (s.mbox? w 0x4304 (fun t =>
    if length = 0 ∨ !t.spanOk 16384 base length then (rcInvalid, [], t)
    else if t.mbox.background ≠ 0 ∨ t.ctl 0x9020 = 1 then (rcBusy, [], t)
    else (rcStarted, [], (t.scrubRun base length (flags % 2)).upMbox (fun m => { m with
      background := 0x4304
      bgPeer := false
      bgIntr := decide (w.intr / 2 % 2 = 1) }))))
/-- GET_SCAN_MEDIA_RESULTS (R66): the lines the pass has poisoned. -/
def execGetScanMediaResults (w : Who) (s : State) : Host.Outcome State Fault Refusal :=
  .next (s.mboxRead w 0x4305 (fun t =>
    let l := t.mbox.scanResults
    (rcOk, natLe 8 0 ++ natLe 8 0 ++ natLe 1 0 ++ natLe 1 0 ++ natLe 2 l.length ++ natLe 12 0
      ++ (l.map (fun x => natLe 8 (x * 64) ++ natLe 4 1 ++ natLe 4 0)).foldl (· ++ ·) [])))

/-! ## Sanitize and Secure Erase (R70) -/

/-- Start a wipe as the background command. -/
def State.startWipe (op : Nat) (w : Who) (s : State) : Nat × Bytes × State :=
  if s.mbox.background ≠ 0 then (rcBusy, [], s)
  else (rcStarted, [], (s.wipeStart op).upMbox (fun m => { m with bgIntr := decide (w.intr / 2 % 2 = 1) }))
/-- SANITIZE (R66, R70): a secure discard of the whole logical space. -/
def execSanitize (w : Who) (s : State) : Host.Outcome State Fault Refusal := .next (s.mbox? w 0x4400 (fun t => t.startWipe 0x4400 w))
/-- SECURE_ERASE (R66, R70): a crypto-discard of every key ID in use, then fresh keys. -/
def execSecureErase (w : Who) (s : State) : Host.Outcome State Fault Refusal :=
  .next (s.mbox? w 0x4401 (fun t => t.startWipe 0x4401 w))
/-- The background command is over: its status keeps its opcode and Success (R70), and condition 0 occurs where it was commanded,
when the interrupt control set with its command selects it (R80). The end of a Sanitize makes a fresh dump metadata key (R409). -/
def State.endBackground (s : State) : State :=
  let t := (s.upMbox (fun m => { m with
    background := 0
    bgPeer := false
    bgLast := (m.background, rcOk) })).upKeys (fun k => { k with
      metaKeyGen := if s.mbox.background = 0x4400 then k.metaKeyGen + 1 else k.metaKeyGen })
  if s.mbox.bgPeer then t else t.raiseWhen s.mbox.bgIntr
/-- A Secure Erase logs each key ID's crypto-discard (R270), a Sanitize its groups erased (R268). -/
def State.logWipe (op count : Nat) (s : State) : State :=
  if op = 0x4400 then s.log 0x2227 count
  else s.activeKeys.foldl (fun t id => (t.upKeys (fun k => { k with discarded := sat32 k.discarded })).log 0x2228 id) s
/-- BACKGROUND_COMMAND_DONE (R70, R349, R350): a scrub pass that has ended; a wipe with nothing left to do here and at the peer; a
wipe carried out for the peer, which is answered. -/
def execBackgroundCommandDone (s : State) : Host.Outcome State Fault Refusal :=
  let op := s.mbox.background
  let key := if !s.mbox.bgPeer then op else if op = 0x4400 then 0x8002 else 0x8003
  .next (if op = 0x4304 then (if s.ctl 0x9020 = 1 then s else s.endBackground)
    else if op = 0 then s
    else
      match s.job key with
      | none => s
      | some j =>
        if !(if op = 0x4400 then s.erasedAll j else s.cryptoReady j) then s
        else
          let t := ((s.dropJob key).logWipe op j.count).endBackground
          if s.mbox.bgPeer then t.send { ty := 0x13, aux := key } else t.record (op - 0x43FE) 0 0 0)

/-! ## The dictionary through the mailbox (R74, R75) -/

/-- C000h (R74, R75): no payload does nothing; one longer than 4 KiB or shorter than a header is Invalid Input; else the response of
the protocol is the output, when it comes: one that waits for a pair commit ends the command later. A request that the protocol drops
is answered Busy (log entry 40). -/
def State.dictCommand (w : Who) (payload : Bytes) (s : State) : State :=
  if payload = [] then s.mboxRespond w 0xC000 rcOk []
  else if s.ident.variant.portCaps.mailboxPayload < payload.length ∨ payload.length < 8 then s.mboxRespond w 0xC000 rcInvalid []
  else
    let t := s.takeBytes w payload
    let mine := (t.dict.out.drop s.dict.out.length).filter (fun r => decide (r.route = w.route) && decide (r.tid = field payload 2 1))
    let dropped := decide (t.dict.waiting.length = s.dict.waiting.length) && decide (t.dict.pair = s.dict.pair) &&
      decide (t.dict.commitWait.length = s.dict.commitWait.length)
    match mine with
    | r :: _ => (t.upDict (fun d => { d with
        out := s.dict.out ++ (d.out.drop s.dict.out.length).filter (fun x => !mine.contains x) })).mboxRespond w 0xC000 rcOk r.bytes
    | [] => if dropped then t.mboxRespond w 0xC000 rcBusy []
        else (t.upMbox (fun m => { m with dictWait := m.dictWait ++ [(w, field payload 2 1)] })).mboxHold w
/-- DICTIONARY_TRANSFER (R74, R75). -/
def execDictionaryTransfer (w : Who) (payload : Bytes) (s : State) : Host.Outcome State Fault Refusal :=
  .next (s.mboxGate w 0xC000 payload (State.dictCommand w payload))
/-- UNSUPPORTED_COMMAND (R66): an opcode the route does not accept returns Unsupported. -/
def execUnsupportedCommand (w : Who) (opcode : Nat) (s : State) : Host.Outcome State Fault Refusal :=
  .next (if s.mboxAllows w.route opcode then s else s.mboxRead w opcode (fun _ => (rcUnsupported, [])))

end Sys2Proof.Machine
end

