-- ==== Sys2Proof/Machine/Notify.lean ====
section
/-!
DEFINITION. The Notify of each condition to the fabric manager, its repetition and its acknowledgement (R81, R477, R478).
-/
namespace Sys2Proof.Machine

/-- The payload of a Notify (R477). -/
def notifyPayload (m : NotifyMsg) : Bytes :=
  natLe 1 m.cond ++ natLe 1 m.seq ++ natLe 2 0 ++ natLe 4 m.count ++ natLe 8 m.first

/-- Where Notify goes: 1101h.02, or with 00h the endpoint that bound the module. -/
def State.notifyDest (s : State) : Nat := if s.entry 0x1101 2 = 0 then s.port.boundEid else s.entry 0x1101 2

/-- The link carries MCTP messages of a module in fabric attachment (R49, R81). -/
def State.canNotify (s : State) : Bool := s.fastOn && decide (s.port.attach = 2)

/-- Send the Notify that a condition's record holds and note the time. -/
def State.putNotify (cond : Nat) (n : Note) (s : State) : State :=
  let m : NotifyMsg := ⟨s.notifyDest, cond, n.seq, n.sentCount, n.sentFirst⟩
  s.upObs (fun o => { o with
    notes := Tab.put o.notes cond { n with sentAt := s.clk.now }
    notifyOut := o.notifyOut ++ [m] })

/-- NOTIFY_SEND (R81, R477): a condition with occurrences and no Notify that waits for its acknowledgement is sent, with
the next sequence, and its count starts anew. -/
def execNotifySend (cond : Nat) (s : State) : Host.Outcome State Fault Refusal :=
  let n := Tab.get ({} : Note) s.obs.notes cond
  .next (if s.canNotify && decide (n.count ≠ 0) && !n.pending then
      let t : Note := { n with
        seq := (n.seq + 1) % 256
        count := 0
        first := 0
        pending := true
        sentCount := n.count
        sentFirst := n.first }
      s.putNotify cond t
    else s)

/-- NOTIFY_RESEND (R478): a Notify unacknowledged for 1 s is sent again as it was; occurrences meanwhile wait for the next
one. -/
def execNotifyResend (cond : Nat) (s : State) : Host.Outcome State Fault Refusal :=
  let n := Tab.get ({} : Note) s.obs.notes cond
  .next (if s.canNotify && n.pending then
      let t := s.elapseTo (n.sentAt + sec)
      (t.putNotify cond (Tab.get n t.obs.notes cond)).upObs (fun o => { o with resends := min (o.resends + 1) 0xFFFFFFFF })
    else s)

/-- NOTIFY_ACK (R478): the fabric manager's acknowledgement of the Notify with that condition and sequence. -/
def execNotifyAck (cond seq : Nat) (s : State) : Host.Outcome State Fault Refusal :=
  let n := Tab.get ({} : Note) s.obs.notes cond
  .next (if s.canNotify && n.pending && decide (n.seq = seq) then
      s.upObs (fun o => { o with notes := Tab.put o.notes cond { n with pending := false } })
    else s)

end Sys2Proof.Machine
end

