-- ==== Sys2Proof/Machine/Physical.lean ====
section
/-!
DEFINITION. The field network's addresses (R460), the test access port (R540, R541), CLKREQ# (R546) and the lights (R559).
-/
namespace Sys2Proof.Machine

/-- I3C_ADDRESS_ASSIGNED (R460): the module answers on I3C and no longer on SMBus. -/
def execI3cAddressAssigned (addr : Nat) (s : State) : Host.Outcome State Fault Refusal :=
  .next (if s.fieldUp then s.upDict (fun d => { d with i3c := addr }) else s)

/-- I3C_DYNAMIC_ADDRESS_RESET (R460): all dynamic addresses are reset, and the module answers on SMBus again. -/
def execI3cDynamicAddressReset (s : State) : Host.Outcome State Fault Refusal :=
  .next (if s.fieldUp then s.upDict (fun d => { d with i3c := 0 }) else s)

/-- SET_ENDPOINT_ID (R460, R492, R493): the bus owner of the field network or of PCIe assigns the endpoint ID. -/
def execSetEndpointId (route : Route) (eid : Nat) (s : State) : Host.Outcome State Fault Refusal :=
  .next (match route with
    | .field => if s.fieldUp then s.upDict (fun d => { d with eids := Tab.set 0 d.eids 0 eid }) else s
    | .fabric => if s.fastOn && decide (s.port.speed ≠ 0) then s.upDict (fun d => { d with eids := Tab.set 0 d.eids 1 eid }) else s
    | _ => s)

/-! ## The test access port -/

/-- An instruction the port takes only in Test state: EXTEST, CLAMP, HIGHZ, EXTEST_PULSE, EXTEST_TRAIN (R540). -/
def testOnly (op : BitVec 8) : Bool := op = 0x00 || op = 0x03 || op = 0x04 || op = 0x05 || op = 0x06

/-- How the loaded instruction acts: as itself, or as BYPASS (FFh) where it is unknown, or needs Test state (R540). -/
def State.tapActs (s : State) : BitVec 8 :=
  let op := s.tap.instr
  if testOnly op then (if s.pwr.test = 2 then op else 0xFF) else if op = 0x01 ∨ op = 0x02 then op else 0xFF

/-- The value IDCODE returns (R541). -/
def idcode : BitVec 32 := 0x1#4 ++ 0x5A00#16 ++ Config.jedecId ++ 1#1

/-- The data register between TDI and TDO: its length in bits, and its value where the spec gives one (R540, R541). -/
def State.tapRegister (s : State) : Nat × Option (BitVec 32) :=
  let op := s.tapActs
  if op = 0x01 then (32, some idcode)
  else if op = 0xFF ∨ op = 0x03 ∨ op = 0x04 then (1, none)
  else (1412, none)

/-- BOUNDARY_SCAN_INSTRUCTION (R540): the instruction register takes the opcode. -/
def execBoundaryScanInstruction (opcode : BitVec 8) (s : State) : Host.Outcome State Fault Refusal :=
  .next (s.upTap (fun t => { t with instr := opcode }))

/-! ## The host connector (R546) -/

/-- CLKREQ# is held low while main power is present (R546). -/
def State.clkreqLow (s : State) : Bool := s.pwr.main

/-! ## The lights (R559) -/

/-- The patterns of the two front LEDs. -/
inductive Light where
  | off
  | green
  | amber
  | amber1Hz
  | amber4Hz
  | green1Hz
  | green4Hz
  | alternate1Hz
  | alternate8Hz
  | greenAmberFlash
deriving DecidableEq, Repr

/-- The STATUS LED: the first condition of R559 that holds. -/
def State.statusLed (s : State) : Light :=
  if !s.keeperOn && decide (s.pwr.arm ≠ 5) then .off
  else if s.clk.now < s.cmds.identUntil then .alternate8Hz
  else if s.pwr.arm = 5 ∨ s.pwr.arm = 4 ∨ s.pwr.arm = 2 then .amber4Hz
  else if s.pwr.critLatch ∨ s.pwr.boot = .recovery ∨ s.mainOn = false then .amber
  else if s.pwr.test = 2 then .alternate1Hz
  else if s.care.brine = 2 ∨ s.care.brine = 3 then .amber1Hz
  else if !s.pwr.memoryActive then .green4Hz
  else if s.pwr.armed || decide (s.pwr.arm = 3) then .green
  else .greenAmberFlash

/-- The YOKE LED: the first condition of R559 that holds. -/
def State.yokeLed (s : State) : Light :=
  let m := s.yoke.member
  if !s.keeperOn && decide (s.pwr.arm ≠ 5) then .off
  else if m = 5 ∨ m = 8 ∨ s.yoke.joinBlock ≠ 0 then .amber
  else if m = 1 ∨ m = 3 ∨ m = 4 then .amber1Hz
  else if m = 6 ∨ m = 7 then .green1Hz
  else if m = 2 then .green
  else .off

/-- The LED pin of the host connector: low, released throughout, or released for 50 ms of each 125 ms (R559). -/
inductive LedPin where
  | low
  | released
  | blinking
deriving DecidableEq, Repr

/-- The pin is low while the fast domains run, blinks while requests were served in the last 125 ms, and is released
throughout a dump and while nothing drives it. -/
def State.ledPin (s : State) : LedPin :=
  if s.pwr.arm = 5 ∨ !s.fastOn then .released
  else if s.port.lastHostReq ≠ 0 ∧ s.clk.now < s.port.lastHostReq + 125000000 then .blinking
  else .low

end Sys2Proof.Machine
end

