-- ==== Sys2Proof/Machine/Dispatch.lean ====
section
/-!
DEFINITION. The dispatch: one arm per command, each one call of its meaning.
-/
namespace Sys2Proof.Machine

/-- The effect of a command on everything but the queue. -/
def exec (i : Instr) (s : State) : Host.Outcome State Fault Refusal :=
  match i with
  | .powerUp main aux lost => Sys2Proof.Machine.execPowerUp main aux lost s
  | .firmwareVerifyDone v trainFail badPages => Sys2Proof.Machine.execFirmwareVerifyDone v trainFail badPages s
  | .dumpReplayDone badLines => Sys2Proof.Machine.execDumpReplayDone badLines s
  | .memoryActiveSet => Sys2Proof.Machine.execMemoryActiveSet s
  | .imageRetire => Sys2Proof.Machine.execImageRetire s
  | .retiredImageReset number => Sys2Proof.Machine.execRetiredImageReset number s
  | .powerLossConfirmed => Sys2Proof.Machine.execPowerLossConfirmed s
  | .overvoltageTrip => Sys2Proof.Machine.execOvervoltageTrip s
  | .pwrdisAssert => Sys2Proof.Machine.execPwrdisAssert s
  | .pwrdisDeassert => Sys2Proof.Machine.execPwrdisDeassert s
  | .dumpWindowsEnded fcBad dramBad => Sys2Proof.Machine.execDumpWindowsEnded fcBad dramBad s
  | .dumpSealed => Sys2Proof.Machine.execDumpSealed s
  | .bankExhausted => Sys2Proof.Machine.execBankExhausted s
  | .mainReturnDuringDump => Sys2Proof.Machine.execMainReturnDuringDump s
  | .warmReset perst => Sys2Proof.Machine.execWarmReset perst s
  | .functionLevelReset => Sys2Proof.Machine.execFunctionLevelReset s
  | .resetErrorDetected source fcBad swept => Sys2Proof.Machine.execResetErrorDetected source fcBad swept s
  | .firmwareWatchdogExpire fcBad swept => Sys2Proof.Machine.execFirmwareWatchdogExpire fcBad swept s
  | .mapUnitPageIn unitType unit => Sys2Proof.Machine.execMapUnitPageIn unitType unit s
  | .mapResident => Sys2Proof.Machine.execMapResident s
  | .linkTrainingDone speed width failed => Sys2Proof.Machine.execLinkTrainingDone speed width failed s
  | .fabricBind endpoint => Sys2Proof.Machine.execFabricBind endpoint s
  | .fabricUnbind => Sys2Proof.Machine.execFabricUnbind s
  | .hostReadRequest key addr tag => Sys2Proof.Machine.execHostReadRequest key addr tag s
  | .hostWriteRequest key addr tag data be poison => Sys2Proof.Machine.execHostWriteRequest key addr tag data be poison s
  | .ingressDispatch slice => Sys2Proof.Machine.execIngressDispatch slice s
  | .sliceLookup slice fault bank row queued => Sys2Proof.Machine.execSliceLookup slice fault bank row queued s
  | .missSlotFreed slice set fault => Sys2Proof.Machine.execMissSlotFreed slice set fault s
  | .missTableEntryFreed slice fault => Sys2Proof.Machine.execMissTableEntryFreed slice fault s
  | .sliceMissSideSleep slice => Sys2Proof.Machine.execSliceMissSideSleep slice s
  | .channelClockStop ch => Sys2Proof.Machine.execChannelClockStop ch s
  | .programSuspendForRead pos ch => Sys2Proof.Machine.execProgramSuspendForRead pos ch s
  | .deferredDirectRead miss => Sys2Proof.Machine.execDeferredDirectRead miss s
  | .codewordDecoded miss ch r corrected offsets => Sys2Proof.Machine.execCodewordDecoded miss ch r corrected offsets s
  | .stripeCombineDone miss r => Sys2Proof.Machine.execStripeCombineDone miss r s
  | .prefetchDone pf r => Sys2Proof.Machine.execPrefetchDone pf r s
  | .tierFillDone sector => Sys2Proof.Machine.execTierFillDone sector s
  | .mergeBaseArrived line dramBad => Sys2Proof.Machine.execMergeBaseArrived line dramBad s
  | .writeAdmit => Sys2Proof.Machine.execWriteAdmit s
  | .writesHeld => Sys2Proof.Machine.execWritesHeld s
  | .frontCacheEvict slice set fault => Sys2Proof.Machine.execFrontCacheEvict slice set fault s
  | .tierSectorFreed slice set => Sys2Proof.Machine.execTierSectorFreed slice set s
  | .writebackStart reads => Sys2Proof.Machine.execWritebackStart reads s
  | .dirtyAgeExpired => Sys2Proof.Machine.execDirtyAgeExpired s
  | .leaveGrant => Sys2Proof.Machine.execLeaveGrant s
  | .windowTokenGrant pos => Sys2Proof.Machine.execWindowTokenGrant pos s
  | .windowEnd pos => Sys2Proof.Machine.execWindowEnd pos s
  | .programPassDone pass failed damaged lostPages reads => Sys2Proof.Machine.execProgramPassDone pass failed damaged lostPages reads s
  | .pageVerify ppa corrected converged damaged lostPages => Sys2Proof.Machine.execPageVerify ppa corrected converged damaged lostPages s
  | .closeVerifyDone group failed weak lostPages => Sys2Proof.Machine.execCloseVerifyDone group failed weak lostPages s
  | .blockResetDone group failedCols => Sys2Proof.Machine.execBlockResetDone group failedCols s
  | .dieFailed pos ch lostPages => Sys2Proof.Machine.execDieFailed pos ch lostPages s
  | .rebuildPhaseDone => Sys2Proof.Machine.execRebuildPhaseDone s
  | .lapStart => Sys2Proof.Machine.execLapStart s
  | .lapComplete => Sys2Proof.Machine.execLapComplete s
  | .skimVictimSelect => Sys2Proof.Machine.execSkimVictimSelect s
  | .idleSkimStart => Sys2Proof.Machine.execIdleSkimStart s
  | .copySetSwitch victim bad => Sys2Proof.Machine.execCopySetSwitch victim bad s
  | .repourStart => Sys2Proof.Machine.execRepourStart s
  | .ripeningCellUpdate pkg cls band => Sys2Proof.Machine.execRipeningCellUpdate pkg cls band s
  | .strainerLapEnd => Sys2Proof.Machine.execStrainerLapEnd s
  | .strainerFinding ppa codeword f => Sys2Proof.Machine.execStrainerFinding ppa codeword f s
  | .brineDropReport => Sys2Proof.Machine.execBrineDropReport s
  | .housekeepingRound readings => Sys2Proof.Machine.execHousekeepingRound readings s
  | .throttleLeave zone => Sys2Proof.Machine.execThrottleLeave zone s
  | .sensorRestored ch => Sys2Proof.Machine.execSensorRestored ch s
  | .railFault ch => Sys2Proof.Machine.execRailFault ch s
  | .chargeVoltageRaise => Sys2Proof.Machine.execChargeVoltageRaise s
  | .capacitanceMeasure capA capB fault => Sys2Proof.Machine.execCapacitanceMeasure capA capB fault s
  | .criticalRecheck ch reading => Sys2Proof.Machine.execCriticalRecheck ch reading s
  | .baseDrawMeasure inputMw => Sys2Proof.Machine.execBaseDrawMeasure inputMw s
  | .pacingStep => Sys2Proof.Machine.execPacingStep s
  | .deliverableRecompute => Sys2Proof.Machine.execDeliverableRecompute s
  | .latencyMissReport cls => Sys2Proof.Machine.execLatencyMissReport cls s
  | .boundConditionClear bit => Sys2Proof.Machine.execBoundConditionClear bit s
  | .gillLeak domain => Sys2Proof.Machine.execGillLeak domain s
  | .pailReset kind inst => Sys2Proof.Machine.execPailReset kind inst s
  | .dramPageCloseTimeout subchannel bank => Sys2Proof.Machine.execDramPageCloseTimeout subchannel bank s
  | .refreshPeriodEnd => Sys2Proof.Machine.execRefreshPeriodEnd s
  | .dramRetrainStep => Sys2Proof.Machine.execDramRetrainStep s
  | .retrain w mask => Sys2Proof.Machine.execRetrain w mask s
  | .reservedRead key addr tag fault => Sys2Proof.Machine.execReservedRead key addr tag fault s
  | .reservationTableRoom slice fault => Sys2Proof.Machine.execReservationTableRoom slice fault s
  | .conditionalWrite key addr tag data be poison => Sys2Proof.Machine.execConditionalWrite key addr tag data be poison s
  | .yokeTrainingDone speed width credits => Sys2Proof.Machine.execYokeTrainingDone speed width credits s
  | .yokeFrameReceive frame => Sys2Proof.Machine.execYokeFrameReceive frame s
  | .yokeRetransmit => Sys2Proof.Machine.execYokeRetransmit s
  | .forward m => Sys2Proof.Machine.execForward m s
  | .mirror m => Sys2Proof.Machine.execMirror m s
  | .ordered tag outcome => Sys2Proof.Machine.execOrdered tag outcome s
  | .mirrorAck tag => Sys2Proof.Machine.execMirrorAck tag s
  | .readForward tag line => Sys2Proof.Machine.execReadForward tag line s
  | .readData tag line data poisoned lineOk => Sys2Proof.Machine.execReadData tag line data poisoned lineOk s
  | .resyncGrainRead reads => Sys2Proof.Machine.execResyncGrainRead reads s
  | .resyncSector grain sector st data poison crcBad => Sys2Proof.Machine.execResyncSector grain sector st data poison crcBad s
  | .resyncAck grain => Sys2Proof.Machine.execResyncAck grain s
  | .resyncClear grain => Sys2Proof.Machine.execResyncClear grain s
  | .bitmapUnit unit set => Sys2Proof.Machine.execBitmapUnit unit set s
  | .heartbeatSend => Sys2Proof.Machine.execHeartbeatSend s
  | .heartbeat m => Sys2Proof.Machine.execHeartbeat m s
  | .hello m x => Sys2Proof.Machine.execHello m x s
  | .standDown m => Sys2Proof.Machine.execStandDown m s
  | .moduleStandDown cause => Sys2Proof.Machine.execModuleStandDown cause s
  | .yokeDictionary msg => Sys2Proof.Machine.execYokeDictionary msg s
  | .commitPrepare batch seg last recs => Sys2Proof.Machine.execCommitPrepare batch seg last recs s
  | .commitVote batch code => Sys2Proof.Machine.execCommitVote batch code s
  | .commitApply batch => Sys2Proof.Machine.execCommitApply batch s
  | .commitDone batch => Sys2Proof.Machine.execCommitDone batch s
  | .notice code keyId base length => Sys2Proof.Machine.execNotice code keyId base length s
  | .grainChange grain st => Sys2Proof.Machine.execGrainChange grain st s
  | .grainChangeAck grain => Sys2Proof.Machine.execGrainChangeAck grain s
  | .yokeSilent => Sys2Proof.Machine.execYokeSilent s
  | .aliveWireState serving => Sys2Proof.Machine.execAliveWireState serving s
  | .aliveWireSilent => Sys2Proof.Machine.execAliveWireSilent s
  | .pulseSend => Sys2Proof.Machine.execPulseSend s
  | .pulse m => Sys2Proof.Machine.execPulse m s
  | .pulseSilent => Sys2Proof.Machine.execPulseSilent s
  | .suspectDecision => Sys2Proof.Machine.execSuspectDecision s
  | .juniorFenceDelay => Sys2Proof.Machine.execJuniorFenceDelay s
  | .seniorFenceWait => Sys2Proof.Machine.execSeniorFenceWait s
  | .takeoverSilence => Sys2Proof.Machine.execTakeoverSilence s
  | .join w => Sys2Proof.Machine.execJoin w s
  | .prevail w => Sys2Proof.Machine.execPrevail w s
  | .forceSole w => Sys2Proof.Machine.execForceSole w s
  | .withdraw w => Sys2Proof.Machine.execWithdraw w s
  | .leave w => Sys2Proof.Machine.execLeave w s
  | .getEventRecords w log => Sys2Proof.Machine.execGetEventRecords w log s
  | .clearEventRecords w log all handles => Sys2Proof.Machine.execClearEventRecords w log all handles s
  | .getEventInterruptPolicy w => Sys2Proof.Machine.execGetEventInterruptPolicy w s
  | .setEventInterruptPolicy w enables => Sys2Proof.Machine.execSetEventInterruptPolicy w enables s
  | .getFwInfo w => Sys2Proof.Machine.execGetFwInfo w s
  | .transferFw w offset data => Sys2Proof.Machine.execTransferFw w offset data s
  | .activateFw w => Sys2Proof.Machine.execActivateFw w s
  | .getTimestamp w => Sys2Proof.Machine.execGetTimestamp w s
  | .setTimestamp w t => Sys2Proof.Machine.execSetTimestamp w t s
  | .getSupportedLogs w => Sys2Proof.Machine.execGetSupportedLogs w s
  | .getLog w log => Sys2Proof.Machine.execGetLog w log s
  | .identifyMemoryDevice w => Sys2Proof.Machine.execIdentifyMemoryDevice w s
  | .getPartitionInfo w => Sys2Proof.Machine.execGetPartitionInfo w s
  | .getHealthInfo w => Sys2Proof.Machine.execGetHealthInfo w s
  | .getAlertConfiguration w => Sys2Proof.Machine.execGetAlertConfiguration w s
  | .setAlertConfiguration w life temperature volatileErr persistentErr => Sys2Proof.Machine.execSetAlertConfiguration w life temperature volatileErr persistentErr s
  | .getShutdownState w => Sys2Proof.Machine.execGetShutdownState w s
  | .setShutdownState w st => Sys2Proof.Machine.execSetShutdownState w st s
  | .getPoisonList w base length => Sys2Proof.Machine.execGetPoisonList w base length s
  | .clearPoison w addr data => Sys2Proof.Machine.execClearPoison w addr data s
  | .scanMediaCapabilities w base length => Sys2Proof.Machine.execScanMediaCapabilities w base length s
  | .scanMedia w base length flags => Sys2Proof.Machine.execScanMedia w base length flags s
  | .getScanMediaResults w => Sys2Proof.Machine.execGetScanMediaResults w s
  | .sanitize w => Sys2Proof.Machine.execSanitize w s
  | .secureErase w => Sys2Proof.Machine.execSecureErase w s
  | .backgroundCommandDone => Sys2Proof.Machine.execBackgroundCommandDone s
  | .dictionaryTransfer w payload => Sys2Proof.Machine.execDictionaryTransfer w payload s
  | .unsupportedCommand w opcode => Sys2Proof.Machine.execUnsupportedCommand w opcode s
  | .notifySend cond => Sys2Proof.Machine.execNotifySend cond s
  | .notifyResend cond => Sys2Proof.Machine.execNotifyResend cond s
  | .notifyAck cond seq => Sys2Proof.Machine.execNotifyAck cond seq s
  | .i3cAddressAssigned addr => Sys2Proof.Machine.execI3cAddressAssigned addr s
  | .setEndpointId route eid => Sys2Proof.Machine.execSetEndpointId route eid s
  | .smbrstAssert => Sys2Proof.Machine.execSmbrstAssert s
  | .dtpRead w tid index sub => Sys2Proof.Machine.execDtpRead w tid index sub s
  | .dtpWrite w tid index sub data => Sys2Proof.Machine.execDtpWrite w tid index sub data s
  | .dtpReadInitiate w tid index sub => Sys2Proof.Machine.execDtpReadInitiate w tid index sub s
  | .dtpReadSegment w tid toggle => Sys2Proof.Machine.execDtpReadSegment w tid toggle s
  | .dtpWriteInitiate w tid index sub total => Sys2Proof.Machine.execDtpWriteInitiate w tid index sub total s
  | .dtpWriteSegment w tid toggle last data => Sys2Proof.Machine.execDtpWriteSegment w tid toggle last data s
  | .dtpAbort w tid code => Sys2Proof.Machine.execDtpAbort w tid code s
  | .segmentTimeout route => Sys2Proof.Machine.execSegmentTimeout route s
  | .dictionaryWrite w index sub data => Sys2Proof.Machine.execDictionaryWrite w index sub data s
  | .commitBatch w logFault => Sys2Proof.Machine.execCommitBatch w logFault s
  | .discardBatch w => Sys2Proof.Machine.execDiscardBatch w s
  | .passwordPresent w area kind pw => Sys2Proof.Machine.execPasswordPresent w area kind pw s
  | .passwordLock w => Sys2Proof.Machine.execPasswordLock w s
  | .presentationTimeout role => Sys2Proof.Machine.execPresentationTimeout role s
  | .passwordLockoutEnd role => Sys2Proof.Machine.execPasswordLockoutEnd role s
  | .setPassword w area kind pw => Sys2Proof.Machine.execSetPassword w area kind pw s
  | .restoreDefaults w => Sys2Proof.Machine.execRestoreDefaults w s
  | .areaDataWrite w data => Sys2Proof.Machine.execAreaDataWrite w data s
  | .zeroRangeStart w => Sys2Proof.Machine.execZeroRangeStart w s
  | .zeroRangeDone => Sys2Proof.Machine.execZeroRangeDone s
  | .discardStart w => Sys2Proof.Machine.execDiscardStart w s
  | .secureDiscardStart w => Sys2Proof.Machine.execSecureDiscardStart w s
  | .secureDiscardDone => Sys2Proof.Machine.execSecureDiscardDone s
  | .cryptoDiscardStart w => Sys2Proof.Machine.execCryptoDiscardStart w s
  | .cryptoDiscardDone => Sys2Proof.Machine.execCryptoDiscardDone s
  | .cryptoDiscardSweep => Sys2Proof.Machine.execCryptoDiscardSweep s
  | .scrubStart w => Sys2Proof.Machine.execScrubStart w s
  | .scrubCancel w => Sys2Proof.Machine.execScrubCancel w s
  | .scrubPassDone errors => Sys2Proof.Machine.execScrubPassDone errors s
  | .brineRelease w => Sys2Proof.Machine.execBrineRelease w s
  | .rekey w => Sys2Proof.Machine.execRekey w s
  | .prepareShutdownStart w => Sys2Proof.Machine.execPrepareShutdownStart w s
  | .prepareShutdownCancel w => Sys2Proof.Machine.execPrepareShutdownCancel w s
  | .shutdownPrepared => Sys2Proof.Machine.execShutdownPrepared s
  | .identifyStart w => Sys2Proof.Machine.execIdentifyStart w s
  | .identifyStop w => Sys2Proof.Machine.execIdentifyStop w s
  | .identifyExpire => Sys2Proof.Machine.execIdentifyExpire s
  | .keyGenerate w => Sys2Proof.Machine.execKeyGenerate w s
  | .keyImport w v => Sys2Proof.Machine.execKeyImport w v s
  | .keyRegenerate w => Sys2Proof.Machine.execKeyRegenerate w s
  | .attestSign w => Sys2Proof.Machine.execAttestSign w s
  | .attestSignDone => Sys2Proof.Machine.execAttestSignDone s
  | .frontCacheDisable w => Sys2Proof.Machine.execFrontCacheDisable w s
  | .frontCacheDrained => Sys2Proof.Machine.execFrontCacheDrained s
  | .frontCacheEnable w => Sys2Proof.Machine.execFrontCacheEnable w s
  | .rangeClean w found => Sys2Proof.Machine.execRangeClean w found s
  | .rangeInvalidate w found => Sys2Proof.Machine.execRangeInvalidate w found s
  | .lineLock w found => Sys2Proof.Machine.execLineLock w found s
  | .lineZero w => Sys2Proof.Machine.execLineZero w s
  | .maintenanceDone k => Sys2Proof.Machine.execMaintenanceDone k s
  | .fwBegin w => Sys2Proof.Machine.execFwBegin w s
  | .fwChunk w data => Sys2Proof.Machine.execFwChunk w data s
  | .fwVerify w => Sys2Proof.Machine.execFwVerify w s
  | .fwActivate w => Sys2Proof.Machine.execFwActivate w s
  | .fwCancel w => Sys2Proof.Machine.execFwCancel w s
  | .fwOperationDone v => Sys2Proof.Machine.execFwOperationDone v s
  | .testStateEnter w => Sys2Proof.Machine.execTestStateEnter w s
  | .testStateLeave w => Sys2Proof.Machine.execTestStateLeave w s
  | .selfTestStart w => Sys2Proof.Machine.execSelfTestStart w s
  | .selfTestCancel w => Sys2Proof.Machine.execSelfTestCancel w s
  | .selfTestDone errors first badBlocks => Sys2Proof.Machine.execSelfTestDone errors first badBlocks s
  | .readBackData w => Sys2Proof.Machine.execReadBackData w s
  | .counterSnapshot w => Sys2Proof.Machine.execCounterSnapshot w s
  | .counterSnapshotClear w => Sys2Proof.Machine.execCounterSnapshotClear w s
  | .counterWrap block n addr partner => Sys2Proof.Machine.execCounterWrap block n addr partner s
  | .overflowClear w block mask => Sys2Proof.Machine.execOverflowClear w block mask s
  | .firkinPeriodClose => Sys2Proof.Machine.execFirkinPeriodClose s
  | .firkinFreeze w => Sys2Proof.Machine.execFirkinFreeze w s
  | .firkinThaw w => Sys2Proof.Machine.execFirkinThaw w s
  | .firkinAutoThaw => Sys2Proof.Machine.execFirkinAutoThaw s
  | .eventPailRead w => Sys2Proof.Machine.execEventPailRead w s
  | .eventPailDropRemainder w => Sys2Proof.Machine.execEventPailDropRemainder w s
  | .overrunRead w => Sys2Proof.Machine.execOverrunRead w s
  | .powerBudgetWrite w mw => Sys2Proof.Machine.execPowerBudgetWrite w mw s
  | .perstDeassert => Sys2Proof.Machine.execPerstDeassert s
  | .auxPowerLoss => Sys2Proof.Machine.execAuxPowerLoss s
  | .auxPowerArrive => Sys2Proof.Machine.execAuxPowerArrive s
  | .criticalLatchClear => Sys2Proof.Machine.execCriticalLatchClear s
  | .smbrstDeassert => Sys2Proof.Machine.execSmbrstDeassert s
  | .i3cDynamicAddressReset => Sys2Proof.Machine.execI3cDynamicAddressReset s
  | .counterSnapshotReady => Sys2Proof.Machine.execCounterSnapshotReady s
  | .discardDone => Sys2Proof.Machine.execDiscardDone s
  | .strainerDramLapEnd errors => Sys2Proof.Machine.execStrainerDramLapEnd errors s
  | .keyUnwrapDone id => Sys2Proof.Machine.execKeyUnwrapDone id s
  | .boundaryScanInstruction opcode => Sys2Proof.Machine.execBoundaryScanInstruction opcode s

end Sys2Proof.Machine
end

