-- ==== Sys2Proof/Safety.lean ====
section
/-!
DEFINITION. What a sound state of the module is, in the terms the statements use: its mode codes are codes the spec lists,
its event stores are within their sizes, and its tables of content are in canonical form.
-/
namespace Sys2Proof.Machine

/-- The codes of arming (R173), Test state (R539), membership, now and before (R310), and Brine (R262) are codes of their tables, and the
reserve taken is at most the reserve (R236). -/
def State.Legal (s : State) : Prop :=
  s.pwr.arm ≤ 5 ∧ s.pwr.test ≤ 2 ∧ s.yoke.member ≤ 8 ∧ s.yoke.prev ≤ 8 ∧ s.care.brine ≤ 3 ∧
    s.care.reserveTaken ≤ s.ident.variant.reserve

/-- The event pail holds at most 4,096 entries (R520), the keeper at most 64 events (R519), each CXL event log at most 256
records (R76). -/
def State.EventsFit (s : State) : Prop :=
  s.obs.pail.length ≤ 4096 ∧ s.obs.held.length ≤ 64 ∧ ∀ kv ∈ s.obs.logs, kv.2.recs.length ≤ 256

/-- The tables that hold content are in canonical form: front-cache lines, tier sectors, media pages, and the charges of
the dirty budget, each listed once in the order of its key. -/
def State.Canonical (s : State) : Prop :=
  Tab.sorted s.fc.lines = true ∧ Tab.sorted s.tier.sectors = true ∧ Tab.sorted s.media.pages = true ∧
    Tab.sorted s.budget.charged = true

/-- A sound state. -/
def State.Sound (s : State) : Prop := s.Legal ∧ s.EventsFit ∧ s.Canonical

/-- The groups a cold reset may write; the others, among them the identity, the committed tables, the Firkin and the dump images,
are kept (R39). -/
def coldParts : List Part :=
  [.clk, .pwr, .port, .reqs, .fc, .tier, .slices, .budget, .media, .map, .care, .yoke, .atom, .keys, .reg, .therm, .bank,
    .dram, .gills, .dict, .mbox, .obs, .perf, .rstats, .fw, .cmds, .tap]

/-- The groups the start of a dump may write (R172). -/
def dumpParts : List Part :=
  [.pwr, .port, .reqs, .fc, .tier, .slices, .budget, .media, .map, .care, .yoke, .atom, .keys, .reg, .mbox, .obs, .perf,
    .dump, .cmds]

/-- The yoke is trained and was not silent, and no request waits behind a pair commit: a message that arrives has its own effect
alone (R317, R325). -/
def State.yokeReady (s : State) : Bool := s.yokeTrained && !s.yoke.silent && s.dict.waiting.isEmpty

/-- The sender may send the memory-device command now: its mailbox is reached, its key selects an entry on a page, no command of it is
under way, it has the capability, and its route accepts the opcode (R57, R66, R73, R103). -/
def State.mayCommand (w : Who) (opcode : Nat) (s : State) (input : Bytes := []) : Bool :=
  s.mboxReached w.route && !(decide (w.route = .page) && decide (s.whoEntry w = none)) && !s.mboxTaken w opcode input &&
    !s.lacksMailbox w && s.mboxAllows w.route opcode

/-- The command has been answered with a code and a payload: of the mailbox only the sender's page may have changed beside, and of the
time only the count of free values drawn. -/
abbrev State.replied (s : State) (w : Who) (opcode code : Nat) (payload : Bytes) (t : State) : Prop :=
  t.mbox = { s.mbox with
    out := s.mbox.out ++ [⟨w, opcode, code, payload⟩]
    pages := t.mbox.pages
    doorbell := t.mbox.doorbell } ∧
  t.clk = { s.clk with free := t.clk.free }

/-- The route takes a dictionary request of the sender at once (R103, R459, R461). -/
def State.takesDtp (w : Who) (s : State) : Bool := s.routeServes w && !s.lacksMailbox w && !s.routeBusy w.route

/-- The state in which a request of the sender is judged: the request is counted, and presentations older than 10 minutes have
ended (R481, R504). -/
def State.asked (w : Who) (s : State) : State := (s.noteRequest (s.role w)).count 60 5 1

/-- A write of a value of 1 to 240 bytes passes checks 1 to 8 of R468. -/
def State.accepted (w : Who) (i sub : Nat) (v : Bytes) (s : State) : Bool :=
  s.takesDtp w && decide (v ≠ []) && decide (v.length ≤ 240) &&
    (match (s.asked w).permit w i sub true with
     | .error _ => false
     | .ok row => (s.asked w).available? row i && decide (lengthCode row v = 0) && decide (valueCode row i v = 0) &&
        decide ((s.asked w).relation i sub (leNat v) = 0))

/-- The access code a sender has on a subentry (R15, R16); none when it does not exist. -/
def State.codeFor (w : Who) (i sub : Nat) (s : State) : Option Code :=
  (rowOf s.ident.variant i sub).map (fun r => r.acc.of (s.role w))

/-- A subentry whose write only stores its value: no value of a role's own, no password, counter, area, blob or chunk, and none of
the budget and Enable entries. -/
def plainEntry (v : Variant) (i sub : Nat) : Bool :=
  ((rowOf v i sub).map (fun r => !r.perRole)).getD false && !(decide (0x1110 ≤ i) && decide (i ≤ 0x1120)) &&
    !(decide (i = 0x2010) && decide (sub ≤ 2)) && decide (i ∉ [0x2100, 0x4011, 0x9050]) && !isRange i && !isGroup i &&
    !isPartner i && !(decide (0x6000 ≤ i) && decide (i ≤ 0x603C)) && !(decide (0x8000 ≤ i) && decide (i ≤ 0x8007))

/-- The transfer of a route is a segment's own, running and still without an answered segment: it has the segment's TransferId, its
sender and role (R466). -/
def State.opened (w : Who) (tid : Nat) (t : Transfer) (s : State) : Prop :=
  Tab.look s.dict.transfers (routeNum w.route) = some t ∧ t.tid = tid ∧ t.key = w.key ∧ t.role = s.role w ∧ t.ended = 0 ∧
    t.fresh = true

/-- The expedited write of an entry has been answered with a code (R463). -/
def State.answered (s : State) (w : Who) (i sub code : Nat) (t : State) : Prop :=
  t.dict.out = s.dict.out ++ [⟨w.route, 130, 0, 0, sub, i, code, []⟩]

/-- The command answers a next state that agrees with `s` on every group not named in `ps` and of which `post` holds. -/
def Does (i : Instr) (s : State) (ps : List Part) (post : State → Prop) : Prop :=
  ∃ t, exec i s = .next t ∧ s.keepsBut ps t ∧ post t

end Sys2Proof.Machine
end

