-- ==== Sys2Proof/Certificates/Slice0/Obligations.lean ====
section
/-!
DEFINITION. The statements for the provers: the machine as a whole, then every family of commands, each with what its
commands do and what they leave unchanged.
-/

open Sys2Proof Sys2Proof.Machine

/-! ## The machine as a whole -/

/-- The block's step (the model's form, log entry 10): the command at the front of the queue is run with the queue's rest;
with none waiting, one keeper cycle of 40 ns passes and nothing but the clocks, the counters and what they raise
changes. -/
def Obligations.StepRunsTheFrontCommand : Prop :=
  (∀ (c : Instr) (rest : List Instr) (s : State), s.pending = c :: rest → step s = exec c { s with pending := rest }) ∧
  (∀ s : State, s.pending = [] → ∃ t, step s = .next t ∧ t.clk.now = s.clk.now + 40 ∧ s.keepsBut [.clk, .perf, .obs] t)

/-- What reset leaves: a sound state; no command waiting, no event in the pail or held by the keeper; no front-cache line, tier sector,
media page, map entry or dump image; and of the tables at delivery (R109): range 0 from 0 over the whole logical space and every other
range of size 0, partner entry 0 valid with the three capabilities and rights to read and write group 0, entries 1 to 4094 invalid. The
module does not serve memory and its fast domains are off: no supply has arrived. -/
def Obligations.ResetState : Prop :=
  State.reset.Sound ∧ State.reset.pending = [] ∧ State.reset.obs.pail = [] ∧ State.reset.obs.held = [] ∧
  State.reset.fc.lines = [] ∧ State.reset.tier.sectors = [] ∧ State.reset.media.pages = [] ∧ State.reset.map.entries = [] ∧
  State.reset.dump.images = [] ∧ (State.reset.range 0).base = 0 ∧
  (State.reset.range 0).size = State.reset.ident.variant.capacity ∧ (∀ r, r ≠ 0 → (State.reset.range r).size = 0) ∧
  State.reset.partner 0 = { valid := true, caps := 7, reads := 1, writes := 1 } ∧ (∀ n, 1 ≤ n → n ≤ 4094 → (State.reset.partner n).valid = false) ∧
  State.reset.pwr.memoryActive = false ∧ State.reset.fastOn = false

/-- Every step of a sound state gives a sound state: mode codes stay codes of their tables, the event stores stay within
their sizes, the tables of content stay in canonical form. -/
def Obligations.SoundnessIsKept : Prop := ∀ s t : State, s.Sound → step s = .next t → t.Sound

/-- Time does not run back and the module keeps its identity, over every step. -/
def Obligations.TimeAndIdentity : Prop :=
  ∀ s t : State, step s = .next t → s.clk.now ≤ t.clk.now ∧ t.ident = s.ident

/-- Every command answers a next state in every state, and leaves the identity and the queue of waiting commands as they are. -/
def Obligations.EveryCommandAnswers : Prop :=
  ∀ (c : Instr) (s : State), ∃ t, exec c s = .next t ∧ t.ident = s.ident ∧ t.pending = s.pending

/-- The event pail (R519, R520). In a running controller: (1) with room in the pail and no lost events to tell of, an event takes the next
sequence and enters the pail last; (2) at a full pail it is not stored, Overrun is set, LostEntries and the count for the next 7101h
rise by one, its sequence is used up, and in direct attachment vector 5 is raised; (3) with events lost and room for two entries, 7101h
with the number lost enters first and the event after it. While the fast domains are off: (4) the keeper holds it while it holds
fewer than 64; (5) else it is only counted. -/
def Obligations.EventPail : Prop :=
  (∀ (s : State) (code param : Nat), s.fastOn = true → s.obs.pail.length < 4096 → s.obs.lostPending = 0 →
    (s.log code param).obs.pail = s.obs.pail ++ [⟨code, severityOf code, 0xFFFF, s.obs.nextSeq, s.clk.stamp, param⟩] ∧
    (s.log code param).obs.nextSeq = (s.obs.nextSeq + 1) % 2 ^ 32 ∧ s.keepsBut [.obs] (s.log code param)) ∧
  (∀ (s : State) (code param : Nat), s.fastOn = true → 4096 ≤ s.obs.pail.length →
    (s.log code param).obs.pail = s.obs.pail ∧ (s.log code param).obs.overrun = true ∧
    (s.log code param).obs.lost = min (s.obs.lost + 1) 0xFFFFFFFF ∧
    (s.log code param).obs.lostPending = s.obs.lostPending + 1 ∧
    (s.log code param).obs.nextSeq = (s.obs.nextSeq + 1) % 2 ^ 32 ∧
    (s.port.attach = 1 → 5 ∈ (s.log code param).obs.msix)) ∧
  (∀ (s : State) (code param : Nat), s.fastOn = true → s.obs.pail.length < 4095 → s.obs.lostPending ≠ 0 →
    (s.log code param).obs.pail = s.obs.pail ++
      [⟨0x7101, 1, 0xFFFF, s.obs.nextSeq, s.clk.stamp, s.obs.lostPending⟩,
        ⟨code, severityOf code, 0xFFFF, (s.obs.nextSeq + 1) % 2 ^ 32, s.clk.stamp, param⟩] ∧
    (s.log code param).obs.lostPending = 0) ∧
  (∀ (s : State) (code param : Nat), s.fastOn = false → s.obs.held.length < 64 →
    (s.log code param).obs = { s.obs with
      held := s.obs.held ++ [⟨code, severityOf code, 0xFFFF, 0, s.clk.stamp, param⟩] }) ∧
  (∀ (s : State) (code param : Nat), s.fastOn = false → 64 ≤ s.obs.held.length →
    (s.log code param).obs = { s.obs with heldLost := s.obs.heldLost + 1 })

/-- R71, whole: a function level reset clears the mailbox state and the MSI-X table and returns the event interrupt policy to every log's
vector disabled; the foreground commands that were under way are not answered any more; a running background command goes on; nothing
else changes, so CXL.mem, memory contents and the event logs are as they were. -/
def Obligations.FunctionLevelReset : Prop :=
  ∀ s : State, s.fastOn = true → Does .functionLevelReset s [.mbox, .obs] (fun t =>
    t.mbox = { s.mbox with
      doorbell := []
      pages := []
      bgLast := (0, 0)
      clearing := []
      dictWait := [] } ∧
    t.mbox.background = s.mbox.background ∧ t.mbox.bgPeer = s.mbox.bgPeer ∧
    t.obs = { s.obs with
      policy := 0
      msixTable := []
      msix := [] } ∧
    t.obs.logs = s.obs.logs ∧ t.obs.pail = s.obs.pail)

/-- R28, whole: firmware that has not answered the keeper's watchdog has the module perform a controller reset, recorded as a reset
error of source 09h, firmware watchdog: 5004h with that source is the first of the reset's own events, the fast domains stop and
the running slot is verified again. -/
def Obligations.FirmwareWatchdog : Prop :=
  ∀ (s : State) (bad : List Nat) (swept : List (Nat × CacheFault)), s.fastOn = true → s.pwr.arm ≠ 5 →
    Does (.firmwareWatchdogExpire bad swept) s [.pwr, .port, .reqs, .fc, .tier, .slices, .budget, .media, .map, .care, .yoke, .atom,
      .keys, .reg, .dict, .mbox, .obs, .perf, .fw, .cmds] (fun t =>
      t.pwr.boot = .verifying s.fw.current false ∧ t.pwr.controllerStart = true ∧ t.pwr.memoryActive = false ∧
      t.pwr.own.head? = some (0x5004, 9))

/-! ## Supplies, dumps, resets and the host link -/

/-- Supplies that arrive (R29, R174, R484, R531, R535, R547, R565). (1) Main power at a module whose keeper runs, whose main is off and
which does not dump begins a cold reset: the pending slot is verified, or with CriticalLatch set the module holds; it is unarmed and
memory is not active; front cache, tier, event pail and staged batches are empty; configuration values, passwords, keys and media pages
are kept. (2) Aux at a module whose keeper has no supply, by POWER_UP with no record lost, starts the keeper: the timestamp goes on from
the stored one and reads as not set, the ripening time is at least that. (3) AUX_POWER_ARRIVE at a module without aux sets aux, the I3C
address is none; a running keeper's clocks go on, a starting keeper's timestamp goes on from the stored one. (4) Main that returns in a
dump, PWRDIS not asserted, is noted and the dump runs on. (5) PWRDIS deasserted in a dump, with main there, closes the switch and the dump
runs on; (6) deasserted at a running keeper with main there, the fast domains off and no dump, it is followed by a cold reset, as in (1).
-/
def Obligations.SuppliesArrive : Prop :=
  (∀ (s : State) (lost : List TwinLoss), s.keeperOn = true → s.mainOn = false → s.pwr.pwrdis = false → s.pwr.arm ≠ 5 →
    Does (.powerUp true false lost) s coldParts (fun t =>
      t.pwr.main = true ∧ t.pwr.aux = s.pwr.aux ∧ t.pwr.arm = 0 ∧ t.pwr.armed = false ∧ t.pwr.memoryActive = false ∧
      t.pwr.boot = (if s.pwr.critLatch then .held else .verifying s.fw.pending false) ∧
      t.fc.lines = [] ∧ t.tier.sectors = [] ∧ t.obs.pail = [] ∧ t.dict.batches = [] ∧ t.dict.cfg = s.dict.cfg ∧
      t.dict.passwords = s.dict.passwords ∧ t.media.pages = s.media.pages ∧ t.keys.recs = s.keys.recs)) ∧
  (∀ s : State, s.keeperOn = false →
    Does (.powerUp false true []) s [.pwr, .clk] (fun t => t.pwr.aux = true ∧
      t.clk = { s.clk with
        stamp := s.clk.stored
        ripe := max s.clk.ripe s.clk.stored
        stampSet := false })) ∧
  (∀ s : State, s.pwr.aux = false →
    Does .auxPowerArrive s [.pwr, .clk, .dict] (fun t => t.pwr = { s.pwr with aux := true } ∧ t.dict = { s.dict with i3c := 0 } ∧
      (s.keeperOn = true → t.clk = s.clk) ∧ (s.keeperOn = false → t.clk.stamp = s.clk.stored))) ∧
  (∀ s : State, s.pwr.arm = 5 → s.pwr.main = false → s.pwr.pwrdis = false →
    Does .mainReturnDuringDump s [.pwr] (fun t => t.pwr = { s.pwr with
      main := true
      ovp := false
      mainAt := s.clk.now
      mainReturned := true
      mainLostAt := none })) ∧
  (∀ s : State, s.pwr.arm = 5 → s.pwr.pwrdis = true → s.pwr.main = true → s.pwr.ovp = false →
    Does .pwrdisDeassert s [.pwr] (fun t => t.pwr = { s.pwr with
      pwrdis := false
      mainAt := s.clk.now
      pwrdisAt := none
      mainReturned := true })) ∧
  (∀ s : State, s.keeperOn = true → s.fastOn = false → s.pwr.arm ≠ 5 → s.pwr.pwrdis = true → s.pwr.main = true →
    s.pwr.ovp = false →
    Does .pwrdisDeassert s coldParts (fun t => t.pwr.pwrdis = false ∧ t.pwr.arm = 0 ∧ t.pwr.armed = false ∧
      t.pwr.memoryActive = false ∧ t.pwr.boot = (if s.pwr.critLatch then .held else .verifying s.fw.pending false) ∧
      t.fc.lines = [] ∧ t.tier.sectors = [] ∧ t.obs.pail = [] ∧ t.dict.batches = [] ∧ t.dict.cfg = s.dict.cfg ∧
      t.dict.passwords = s.dict.passwords ∧ t.media.pages = s.media.pages ∧ t.keys.recs = s.keys.recs))

/-- A record both of whose copies are lost takes its fallback (R407, R488): (1) an address range is disabled, (2) a partner entry but the
internal masters' becomes invalid, (3) the membership record reads LastRole Fenced, a stale copy, (4) CriticalLatch is set, (5) the
security counter is the higher security version of the two slots, (6) the commit marker is clear, the lap root is noted as lost and
the DRAM training is not held, (7) the password's area stays as if set and unknown. (8) The loss of CriticalLatch, found while the fast
domains are off and the keeper has room, is held as 8002h with the record's place; (9) the loss of a key that is not Unused, found so,
as 4003h with its ID, and the key's state is kept. -/
def Obligations.LostRecordsFallBack : Prop :=
  (∀ (s : State) (r : Nat), (s.loseTwin (.range r)).range r = ({} : Range)) ∧
  (∀ (s : State) (n : Nat), n ≠ 4095 → ((s.loseTwin (.partner n)).partner n).valid = false) ∧
  (∀ s : State, (s.loseTwin .membership).yoke.record.lastRole = 3 ∧ (s.loseTwin .membership).yoke.record.staleSelf = true) ∧
  (∀ s : State, (s.loseTwin .criticalLatch).pwr.critLatch = true) ∧
  (∀ s : State, (s.loseTwin .securityCounter).fw.counter = max s.fw.slot0.security s.fw.slot1.security) ∧
  (∀ s : State, (s.loseTwin .commitMarker).dict.logged = none ∧ (s.loseTwin .lapRoot).pwr.lapLost = true ∧
    (s.loseTwin .dramTraining).pwr.dramTrained = false) ∧
  (∀ (s : State) (a k : Nat), (s.loseTwin (.password a k)).dict.dead = s.dict.dead ++ [2 * a + k]) ∧
  (∀ s : State, s.fastOn = false → s.obs.held.length < 64 → (s.loseTwin .criticalLatch).obs.held =
    s.obs.held ++ [⟨0x8002, 2, 0xFFFF, 0, s.clk.stamp, twinParam 4 6⟩]) ∧
  (∀ (s : State) (id : Nat), (s.keyRec id).st ≠ 0 → s.fastOn = false → s.obs.held.length < 64 →
    (s.loseTwin (.key id)).obs.held = s.obs.held ++ [⟨0x4003, 2, 0xFFFF, 0, s.clk.stamp, id⟩] ∧
    ((s.loseTwin (.key id)).keyRec id).st = (s.keyRec id).st)

/-- Main power that goes away (R172 to R174, R180, R547, R548). While the fast domains run and the module is neither prepared,
restoring, covering nor dumping, a dump starts on the bank (1) when main falls below its limit: the hold-up begins, memory is not active,
the host port and the yoke are down, no image is written yet, the dump is counted, media pages are kept, programs under way are abandoned
and reservations end; and so it does (2) when main rises above its limit and (3) by PWRDIS. (4) PWRDIS in a dump is only noted.
(5) A prepared, restoring or covering module stops without a dump: every fast domain is off, both caches are empty, the dump
images and media pages are as they were. (6) A dump that ran on main goes over to the bank. -/
def Obligations.PowerLossDumps : Prop :=
  (∀ s : State, s.fastOn = true → s.pwr.main = true → s.pwr.arm ∉ [2, 3, 4, 5] →
    Does .powerLossConfirmed s dumpParts (fun t => t.pwr.arm = 5 ∧ t.pwr.main = false ∧ t.pwr.holdUp = true ∧
      t.pwr.mainLostAt = some s.clk.now ∧ t.pwr.memoryActive = false ∧ t.port.attach = 0 ∧ t.yoke.speed = 0 ∧
      t.dump.writing = none ∧ t.dump.startedAt = s.clk.now ∧ t.dump.onMain = false ∧ t.budget.dumps = s.budget.dumps + 1 ∧
      t.media.pages = s.media.pages ∧ t.media.passes = [] ∧ t.atom.res = [])) ∧
  (∀ s : State, s.fastOn = true → s.mainOn = true → s.pwr.arm ∉ [2, 3, 4, 5] →
    Does .overvoltageTrip s dumpParts (fun t => t.pwr.arm = 5 ∧ t.mainOn = false ∧ t.pwr.ovp = true ∧ t.pwr.holdUp = true ∧
      t.dump.writing = none ∧ t.budget.dumps = s.budget.dumps + 1 ∧ t.atom.res = [])) ∧
  (∀ s : State, s.fastOn = true → s.mainOn = true → s.pwr.arm ∉ [2, 3, 4, 5] →
    Does .pwrdisAssert s dumpParts (fun t => t.pwr.arm = 5 ∧ t.mainOn = false ∧ t.pwr.pwrdis = true ∧ t.pwr.holdUp = true ∧
      t.dump.writing = none ∧ t.budget.dumps = s.budget.dumps + 1 ∧ t.atom.res = [])) ∧
  (∀ s : State, s.pwr.arm = 5 →
    Does .pwrdisAssert s [.pwr] (fun t => t.pwr = { s.pwr with
      pwrdis := true
      pwrdisAt := if s.pwr.pwrdis then s.pwr.pwrdisAt else some s.clk.now })) ∧
  (∀ s : State, s.fastOn = true → s.pwr.main = true → s.pwr.arm ∈ [2, 3, 4] →
    Does .powerLossConfirmed s Part.most (fun t => t.pwr.boot = .off ∧ t.pwr.arm = 0 ∧ t.pwr.holdUp = false ∧
      t.dump = s.dump ∧ t.media.pages = s.media.pages ∧ t.fc.lines = [] ∧ t.tier.sectors = [] ∧
      t.firkin.running = false)) ∧
  (∀ s : State, s.pwr.main = true → s.pwr.arm = 5 →
    Does .powerLossConfirmed s [.pwr, .dump] (fun t => t.pwr.holdUp = true ∧ t.pwr.main = false ∧ t.pwr.arm = 5 ∧
      t.dump = { s.dump with onMain := false }))

/-- The dump (R168, R172, R173, R178, R449, R512). (1) When the last window has ended and no image is being written, the open Firkin
period closes and an image is begun: it has the next number, it is neither sealed nor retired, it carries the journal with its sequence
and the uncovered marker, and a record of every line R168 names, in its order. (2) The seal of an image that is being written, with main
gone and no critical shutdown: the image is stored as sealed, numbers go on above its own, its size and the dump's duration are recorded,
DRAM is in self-refresh, every domain but the keeper is off, both caches are empty and media pages are kept. (3) A bank exhausted before
the seal, so: of the begun image there stays, unsealed, what its first n pages carry, for some n below their number (how many were written
is open, log entry 118), and the module is off, both caches empty, media pages kept. (4) A bank exhausted later, with aux, only ends the
hold-up. -/
def Obligations.DumpTakesTheImage : Prop :=
  (∀ (s : State) (fcBad dramBad : List Nat), s.pwr.arm = 5 → s.dump.writing = none →
    Does (.dumpWindowsEnded fcBad dramBad) s [.obs, .perf, .firkin, .dump, .media] (fun t => t.firkin.running = false ∧
      t.dump.images = s.dump.images ∧ t.media.pages = s.media.pages ∧
      ∃ i, t.dump.writing = some i ∧ i.number = s.dump.next ∧ i.sealed = false ∧ i.retired = false ∧
        i.journal = s.map.journal ∧ i.seq = s.map.seq ∧ i.uncovered = s.budget.uncovered ∧
        i.lines = s.dumpLines.map (fun l => (l, s.dumpRec l fcBad dramBad)))) ∧
  (∀ (s : State) (i : Image), s.pwr.arm = 5 → s.dump.writing = some i → s.mainOn = false → s.pwr.critZone = none →
    Does .dumpSealed s (.dump :: coldParts) (fun t => t.pwr.arm = 0 ∧ t.pwr.boot = .off ∧ t.pwr.dumped = true ∧ t.pwr.selfRefresh = true ∧
      t.dump.images = s.dump.images ++ [{ i with sealed := true }] ∧ t.dump.next = i.number + 1 ∧ t.dump.writing = none ∧
      t.budget.lastBytes = 64 * i.lines.length ∧ t.budget.lastDuration = (s.clk.now - s.dump.startedAt) / 1000 ∧
      t.fc.lines = [] ∧ t.tier.sectors = [] ∧ t.media.pages = s.media.pages)) ∧
  (∀ (s : State) (i : Image), s.pwr.arm = 5 → s.dump.writing = some i → s.pwr.holdUp = true → s.mainOn = false →
    s.pwr.critZone = none → i.sealed = false →
    Does .bankExhausted s (.dump :: coldParts) (fun t => t.pwr.arm = 0 ∧ t.pwr.boot = .off ∧ t.pwr.holdUp = false ∧
      t.fc.lines = [] ∧ t.tier.sectors = [] ∧ t.media.pages = s.media.pages ∧
      ∃ n < i.pages, t.dump.images = s.dump.images ++ [i.cut n])) ∧
  (∀ s : State, s.pwr.arm ≠ 5 → s.pwr.holdUp = true → s.pwr.aux = true →
    Does .bankExhausted s [.pwr] (fun t => t.pwr = { s.pwr with holdUp := false }))

/-- The keeper's verdict on the slot being verified (R414, R449, R519, R531). (1) Accepted, at a module that is not too hot or that comes
from a controller reset: the fast domains run from the slot, a Firkin period runs, the reset's own events have been reported and no
attestation is held. (2) Accepted at a start from power-up and too hot: the module holds. (3) Rejected, the other slot not yet
tried: 4031h with the slot and the reason, and the other slot is verified. (4) Rejected as the second: 4031h, 4032h, and recovery.
(5) With no slot being verified nothing changes. -/
def Obligations.FirmwareVerdict : Prop :=
  (∀ (s : State) (v : FwVerdict) (bad : BitVec 8) (pages : List (Nat × Nat)) (slot : Nat) (second : Bool),
    s.pwr.boot = .verifying slot second → s.fwReason slot v = 0 → (s.tooHot = false ∨ s.pwr.controllerStart = true) →
    Does (.firmwareVerifyDone v bad pages) s [.pwr, .fc, .budget, .media, .map, .yoke, .keys, .dram, .gills, .dict, .obs, .perf,
      .firkin, .rstats, .fw, .dump, .cmds] (fun t =>
      t.pwr.boot = .running ∧ t.fw.current = slot ∧ t.firkin.running = true ∧ t.pwr.own = [] ∧ t.keys.attest = 0)) ∧
  (∀ (s : State) (v : FwVerdict) (bad : BitVec 8) (pages : List (Nat × Nat)) (slot : Nat) (second : Bool),
    s.pwr.boot = .verifying slot second → s.fwReason slot v = 0 → s.tooHot = true → s.pwr.controllerStart = false →
    Does (.firmwareVerifyDone v bad pages) s [.pwr] (fun t => t.pwr = { s.pwr with boot := .held })) ∧
  (∀ (s : State) (v : FwVerdict) (bad : BitVec 8) (pages : List (Nat × Nat)) (slot : Nat), s.pwr.boot = .verifying slot false →
    s.fwReason slot v ≠ 0 →
    Does (.firmwareVerifyDone v bad pages) s [.pwr, .obs] (fun t => t.pwr = { s.pwr with boot := .verifying (1 - slot) true } ∧
      t.obs = (s.log 0x4031 (slot * 256 + s.fwReason slot v)).obs)) ∧
  (∀ (s : State) (v : FwVerdict) (bad : BitVec 8) (pages : List (Nat × Nat)) (slot : Nat), s.pwr.boot = .verifying slot true →
    s.fwReason slot v ≠ 0 →
    Does (.firmwareVerifyDone v bad pages) s [.pwr, .obs] (fun t => t.pwr = { s.pwr with boot := .recovery } ∧
      t.obs = ((s.log 0x4031 (slot * 256 + s.fwReason slot v)).log 0x4032 0).obs)) ∧
  (∀ (s : State) (v : FwVerdict) (bad : BitVec 8) (pages : List (Nat × Nat)), (∀ slot second, s.pwr.boot ≠ .verifying slot second) →
    exec (.firmwareVerifyDone v bad pages) s = .next s)

/-- Restoring (R175 to R177, R409, R415, R529). (1) Replay of the image chosen charges every line it carries, whatever DerivedBudget is,
and the module covers. (2) A covering module whose DirtyBytes is within the budget is armed or unarmed as it can be, and every image is
retired; (3) above the budget nothing changes. (4) A retired image in slot 1 whose blocks are reset is gone, its place is ready, its dump
data key is a fresh one and each of its groups is one erase older; media pages are kept. (5) Once every condition of R529 holds the port
accepts CXL.mem, and the security counter rises to the running image's when that is higher and at most 255. -/
def Obligations.RestoreAfterADump : Prop :=
  (∀ (s : State) (bad : List Nat) (i : Image), s.fastOn = true → s.pwr.arm = 4 → s.imageToReplay = some i →
    Does (.dumpReplayDone bad) s [.pwr, .reqs, .fc, .tier, .slices, .budget, .media, .map, .reg, .obs, .perf, .rstats, .cmds] (fun t => t.pwr.arm = 2 ∧
      ∀ kv ∈ i.lines, (Tab.look t.budget.charged kv.1).isSome = true)) ∧
  (∀ s : State, s.pwr.arm = 2 → s.dirtyBytes ≤ s.budgetBytes →
    Does .imageRetire s [.pwr, .dump] (fun t => t.pwr = { s.pwr with arm := s.armCode } ∧ ∀ i ∈ t.dump.images, i.retired = true)) ∧
  (∀ s : State, s.pwr.arm = 2 → s.budgetBytes < s.dirtyBytes → exec .imageRetire s = .next s) ∧
  (∀ (s : State) (i : Image), s.dump.images.find? (fun x => decide (x.number = i.number) && x.retired) = some i → i.place = 1 →
    i.groups.Nodup →
    Does (.retiredImageReset i.number) s [.pwr, .media, .keys, .obs, .dump] (fun t =>
      t.dump.images = s.dump.images.filter (fun x => decide (x.number ≠ i.number)) ∧ t.dump.busy1 = false ∧
      t.dump.busy0 = s.dump.busy0 ∧ Tab.get 0 t.keys.dumpKeyGen 1 = Tab.get 0 s.keys.dumpKeyGen 1 + 1 ∧
      t.media.pages = s.media.pages ∧ ∀ g ∈ i.groups, (Tab.get ({} : Group) t.media.groups g).erase =
        min ((Tab.get ({} : Group) s.media.groups g).erase + 1) 0xFFFFFF)) ∧
  (∀ s : State, s.pwr.memoryActive = false → s.readyToServe = true →
    Does .memoryActiveSet s [.pwr, .keys, .obs, .perf, .fw] (fun t => t.pwr = { s.pwr with
        memoryActive := true
        selfRefresh := false
        activeAt := s.clk.now
        rebuilt := false
        restored := false } ∧
      t.fw.counter = (if s.fw.counter < (s.fwSlot s.fw.current).security ∧ (s.fwSlot s.fw.current).security ≤ 255 then
        (s.fwSlot s.fw.current).security else s.fw.counter)))

/-- The resets (R28, R37, R39, R71, R82, R181, R299, R398, R534, R535). (1) A warm reset outside Test state, while the fast domains run
and no dump does, by the link or by PERST# with aux there: the link is down, memory is not active, DRAM is in self-refresh unless an
admitted write has still to complete over it, the domains run on; reservations and status words are clear, programs under way are
abandoned, the interrupt policy is every vector disabled; media pages, keys, partner and range tables, the Firkin, the dump images,
firmware state and front-cache lines are as they were, transfers end, committed configuration, passwords and presentations are kept. (2)
In Test state, so, only the link is down, and PERST# is noted. (3) PERST# with aux lost at such a module that neither restores, covers nor
is prepared starts a dump, after which a cold reset follows when main is there; in Test state (4) it ends that, and the module starts
again from its current slot. (5) A function level reset clears the mailbox state, the MSI-X table and the raised vectors, and sets the
policy to every vector disabled. (6) A reset error of source 01h to 08h and (7) the firmware watchdog, source 09h, while the fast domains
run and no dump does: a controller reset, whose first own event is 5004h with the source; the running slot is verified again, memory is
not active, the link is down; staged batches, presentations and reservations are clear; committed configuration, passwords, tables, media
pages, the Firkin and the dump images are kept. -/
def Obligations.Resets : Prop :=
  (∀ (s : State) (perst : Bool), s.pwr.test = 0 → s.fastOn = true → s.pwr.arm ≠ 5 → (perst = false ∨ s.pwr.aux = true) →
    Does (.warmReset perst) s [.pwr, .port, .reqs, .fc, .tier, .slices, .budget, .media, .map, .care, .yoke, .atom, .keys, .reg,
      .dict, .mbox, .obs, .perf, .cmds] (fun t => t.pwr.memoryActive = false ∧
      t.pwr.selfRefresh = (s.pwr.selfRefresh || !(t.reqs.list.any (fun r => decide (r.entry = internal) && decide (r.tag = 0x0181)))) ∧
      t.pwr.boot = .running ∧
      t.pwr.perst = (s.pwr.perst || perst) ∧ t.port.attach = 0 ∧ t.port.speed = 0 ∧ t.atom.res = [] ∧ t.atom.status = [] ∧
      t.media.passes = [] ∧ t.media.pages = s.media.pages ∧ t.keys.recs = s.keys.recs ∧ t.dict.transfers = [] ∧
      t.dict.cfg = s.dict.cfg ∧ t.dict.passwords = s.dict.passwords ∧ t.dict.presented = s.dict.presented ∧
      t.fc.lines = s.fc.lines ∧ t.obs.policy = 0)) ∧
  (∀ (s : State) (perst : Bool), s.pwr.test ≠ 0 → (perst = false ∨ s.pwr.aux = true) →
    Does (.warmReset perst) s [.pwr, .port] (fun t => t.pwr = { s.pwr with perst := s.pwr.perst || perst } ∧
      t.port = { s.port with
        speed := 0
        width := 0
        attach := 0 })) ∧
  (∀ s : State, s.pwr.test = 0 → s.pwr.aux = false → s.fastOn = true → s.pwr.arm ∉ [2, 3, 4, 5] →
    Does (.warmReset true) s dumpParts (fun t => t.pwr.arm = 5 ∧ t.pwr.holdUp = true ∧ t.pwr.perst = true ∧
      t.pwr.mainReturned = s.mainOn ∧ t.pwr.memoryActive = false ∧ t.dump.writing = none ∧ t.media.pages = s.media.pages)) ∧
  (∀ s : State, s.pwr.test ≠ 0 → s.pwr.aux = false → s.fastOn = true → Does (.warmReset true) s Part.most (fun t =>
    t.pwr.test = 0 ∧ t.pwr.boot = .running ∧ t.fw.current = s.fw.current ∧ t.firkin.running = true ∧ t.dump.writing = s.dump.writing)) ∧
  (∀ s : State, s.fastOn = true →
    Does .functionLevelReset s [.mbox, .obs] (fun t => t.mbox = { s.mbox with
        doorbell := []
        pages := []
        bgLast := (0, 0)
        clearing := []
        dictWait := [] } ∧
      t.obs = { s.obs with
        policy := 0
        msixTable := []
        msix := [] })) ∧
  (∀ (s : State) (source : Nat) (bad : List Nat) (swept : List (Nat × CacheFault)), 1 ≤ source → source ≤ 8 → s.fastOn = true → s.pwr.arm ≠ 5 →
    Does (.resetErrorDetected source bad swept) s [.pwr, .port, .reqs, .fc, .tier, .slices, .budget, .media, .map, .care, .yoke, .atom,
      .keys, .reg, .dict, .mbox, .obs, .perf, .fw, .cmds] (fun t =>
      t.pwr.boot = .verifying s.fw.current false ∧ t.pwr.controllerStart = true ∧ t.pwr.memoryActive = false ∧
      t.pwr.own.head? = some (0x5004, source) ∧ t.dict.batches = [] ∧ t.dict.presented = [] ∧ t.dict.cfg = s.dict.cfg ∧
      t.dict.passwords = s.dict.passwords ∧ t.atom.res = [] ∧ t.media.pages = s.media.pages ∧ t.port.attach = 0)) ∧
  (∀ (s : State) (bad : List Nat) (swept : List (Nat × CacheFault)), s.fastOn = true → s.pwr.arm ≠ 5 →
    Does (.firmwareWatchdogExpire bad swept) s [.pwr, .port, .reqs, .fc, .tier, .slices, .budget, .media, .map, .care, .yoke, .atom,
      .keys, .reg, .dict, .mbox, .obs, .perf, .fw, .cmds] (fun t =>
      t.pwr.boot = .verifying s.fw.current false ∧ t.pwr.controllerStart = true ∧ t.pwr.memoryActive = false ∧
      t.pwr.own.head? = some (0x5004, 9) ∧ t.dict.batches = [] ∧ t.dict.presented = [] ∧ t.dict.cfg = s.dict.cfg ∧
      t.dict.passwords = s.dict.passwords ∧ t.atom.res = [] ∧ t.media.pages = s.media.pages ∧ t.port.attach = 0))

/-- The host link (R44, R46, R48, R49, R530). While the fast domains run, PERST# is not asserted and no dump runs, training that ends (1)
at 64 GT/s x16 with no failed lane comes up with CXL, in direct attachment or, bound, in fabric attachment, with no event; (2) at 64 or 32
GT/s and a width of 4, 8 or 16, but not both the highest, does so and logs 5001h, counted as degraded; (3) at 16 GT/s or below comes up as
a PCIe endpoint without CXL, with LinkSpeed 04h, 5001h and 5002h; (4) at another width or speed the link, down before, stays so, and (5)
one that was up goes down as at a warm reset. The width is the lesser of the one offered and the one the failed lanes leave: (6) a failed
lane in lanes 0 to 3 leaves no width, (7) one in lanes 4 to 7 a width of 4 where 4 or more is offered, (8) one in lanes 8 to 15 a width of
8 where 8 or more is. With PERST# asserted, the fast domains off or a dump running (9) nothing changes. (10) A module in direct attachment
is bound by the fabric manager to an endpoint; (11) a bound one is unbound. (12) PERST_DEASSERT ends the hold on the link. -/
def Obligations.HostLink : Prop :=
  (∀ s : State, s.fastOn = true → s.pwr.perst = false → s.pwr.arm ≠ 5 →
    exec (.linkTrainingDone 6 16 0) s = .next { s with
      port := { s.port with
        speed := 6
        width := 16
        attach := if s.port.bound then 2 else 1 }
      pwr := { s.pwr with selfRefresh := false } }) ∧
  (∀ (s : State) (speed offered failed width : Nat), s.fastOn = true → s.pwr.perst = false → s.pwr.arm ≠ 5 →
    width = min offered (lanesLeft failed) → width ∈ [4, 8, 16] →
    speed ∈ [5, 6] → ¬ (speed = 6 ∧ width = 16) →
    exec (.linkTrainingDone speed offered failed) s = .next (State.log 0x5001 (speed * 256 + width) { s with
      port := { s.port with
        speed := speed
        width := width
        attach := if s.port.bound then 2 else 1
        degraded := sat32 s.port.degraded }
      pwr := { s.pwr with selfRefresh := false } })) ∧
  (∀ (s : State) (speed offered failed width : Nat), s.fastOn = true → s.pwr.perst = false → s.pwr.arm ≠ 5 →
    width = min offered (lanesLeft failed) → width ∈ [4, 8, 16] →
    1 ≤ speed → speed ≤ 4 →
    exec (.linkTrainingDone speed offered failed) s = .next (State.log 0x5002 (1024 + width) (State.log 0x5001 (1024 + width) { s with
      port := { s.port with
        speed := 4
        width := width
        attach := 0
        degraded := sat32 s.port.degraded }
      pwr := { s.pwr with selfRefresh := false } }))) ∧
  (∀ (s : State) (speed offered failed : Nat), s.fastOn = true → s.pwr.perst = false → s.pwr.arm ≠ 5 →
    (min offered (lanesLeft failed) ∉ [4, 8, 16] ∨ speed = 0 ∨ 6 < speed) → s.port.speed = 0 →
    exec (.linkTrainingDone speed offered failed) s = .next { s with port := { s.port with
      speed := 0
      width := 0
      attach := 0 } }) ∧
  (∀ (s : State) (speed offered failed : Nat), s.fastOn = true → s.pwr.perst = false → s.pwr.arm ≠ 5 →
    (min offered (lanesLeft failed) ∉ [4, 8, 16] ∨ speed = 0 ∨ 6 < speed) → s.port.speed ≠ 0 →
    exec (.linkTrainingDone speed offered failed) s = exec (.warmReset false) s) ∧
  (∀ failed : Nat, failed % 16 ≠ 0 → lanesLeft failed = 0) ∧
  (∀ (s : State) (speed offered failed : Nat), s.fastOn = true → s.pwr.perst = false → s.pwr.arm ≠ 5 → failed % 16 = 0 →
    failed % 256 ≠ 0 → 4 ≤ offered → 1 ≤ speed → speed ≤ 6 →
    Does (.linkTrainingDone speed offered failed) s [.pwr, .port, .obs] (fun t => t.port.width = 4 ∧
      t.port.speed = max speed 4)) ∧
  (∀ (s : State) (speed offered failed : Nat), s.fastOn = true → s.pwr.perst = false → s.pwr.arm ≠ 5 → failed % 256 = 0 →
    failed % 65536 ≠ 0 → 8 ≤ offered → 1 ≤ speed → speed ≤ 6 →
    Does (.linkTrainingDone speed offered failed) s [.pwr, .port, .obs] (fun t => t.port.width = 8 ∧
      t.port.speed = max speed 4)) ∧
  (∀ (s : State) (speed offered failed : Nat), s.pwr.perst = true ∨ s.fastOn = false ∨ s.pwr.arm = 5 →
    exec (.linkTrainingDone speed offered failed) s = .next s) ∧
  (∀ (s : State) (eid : Nat), s.port.attach = 1 →
    exec (.fabricBind eid) s = .next { s with port := { s.port with
      bound := true
      boundEid := eid
      attach := 2 } }) ∧
  (∀ s : State, s.port.bound = true →
    exec .fabricUnbind s = .next { s with port := { s.port with
      bound := false
      attach := if s.port.attach = 2 then 1 else s.port.attach } }) ∧
  (∀ s : State, exec .perstDeassert s = .next { s with pwr := { s.pwr with perst := false } })

/-- Sideband, auxiliary power, the field network's addresses and the test access port (R29, R82, R449, R460, R540, R546, R547, R565). Aux
that goes away (1) while main is there and PERST# is not asserted changes nothing else; (2) as the keeper's last supply, with the fast
domains off, has the keeper store the timestamp and lose its addresses; (3) with PERST# asserted at a module outside Test state that runs
and neither restores, covers, dumps nor is prepared starts a dump. (4) CriticalLatch clears 1 s after main went away. (5) SMBRST# asserted
holds the endpoint and clears its I3C address, (6) deasserted lets it go. With the endpoint running on aux or main (7) it takes the
assigned I3C address, (8) gives it up at a dynamic address reset, (9) and takes an endpoint ID from the field network; (10) a module whose
host link is up takes one from PCIe. (11) The instruction register takes the opcode. -/
def Obligations.SidebandPins : Prop :=
  (∀ s : State, s.pwr.aux = true → s.mainOn = true → s.pwr.perst = false →
    exec .auxPowerLoss s = .next { s with pwr := { s.pwr with aux := false } }) ∧
  (∀ s : State, s.pwr.aux = true → s.mainOn = false → s.pwr.holdUp = false → s.fastOn = false →
    exec .auxPowerLoss s = .next { s with
      pwr := { s.pwr with aux := false }
      clk := { s.clk with
        stored := s.clk.stamp
        stampSet := false }
      dict := { s.dict with
        i3c := 0
        eids := [] } }) ∧
  (∀ s : State, s.pwr.aux = true → s.pwr.perst = true → s.pwr.test = 0 → s.fastOn = true → s.pwr.arm ∉ [2, 3, 4, 5] →
    Does .auxPowerLoss s dumpParts (fun t => t.pwr.aux = false ∧ t.pwr.arm = 5 ∧ t.pwr.holdUp = true ∧
      t.pwr.mainReturned = s.mainOn ∧ t.pwr.memoryActive = false ∧ t.dump.writing = none ∧ t.media.pages = s.media.pages)) ∧
  (∀ (s : State) (since : Nat), s.pwr.critLatch = true → s.keeperOn = true → s.mainOn = false → s.pwr.pwrdisAt = none →
    s.pwr.mainLostAt = some since →
    Does .criticalLatchClear s [.clk, .pwr, .obs, .perf] (fun t => t.pwr = { s.pwr with critLatch := false } ∧
      t.clk.now = max s.clk.now (since + 1000000000))) ∧
  (∀ s : State, exec .smbrstAssert s = .next { s with
    pwr := { s.pwr with smbrst := true }
    dict := { s.dict with i3c := 0 } }) ∧
  (∀ s : State, exec .smbrstDeassert s = .next { s with pwr := { s.pwr with smbrst := false } }) ∧
  (∀ (s : State) (addr : Nat), s.pwr.aux = true ∨ s.mainOn = true → s.pwr.smbrst = false →
    exec (.i3cAddressAssigned addr) s = .next { s with dict := { s.dict with i3c := addr } }) ∧
  (∀ s : State, s.pwr.aux = true ∨ s.mainOn = true → s.pwr.smbrst = false →
    exec .i3cDynamicAddressReset s = .next { s with dict := { s.dict with i3c := 0 } }) ∧
  (∀ (s : State) (eid : Nat), s.pwr.aux = true ∨ s.mainOn = true → s.pwr.smbrst = false →
    exec (.setEndpointId .field eid) s = .next { s with dict := { s.dict with eids := Tab.set 0 s.dict.eids 0 eid } }) ∧
  (∀ (s : State) (eid : Nat), s.fastOn = true → s.port.speed ≠ 0 →
    exec (.setEndpointId .fabric eid) s = .next { s with dict := { s.dict with eids := Tab.set 0 s.dict.eids 1 eid } }) ∧
  (∀ (s : State) (op : BitVec 8), exec (.boundaryScanInstruction op) s = .next { s with tap := { s.tap with instr := op } })

/-! ## The housekeeping round, throttling, power and the bank -/

/-- The housekeeping round (R443, R444, R448). (1) A round of a powered keeper that has had one comes one second after it, and rounds are
counted. In a round (2) a working sensor whose answer is not good enters fault with 2025h and reads FFFFh; (3) a working sensor
whose answer is good reads it; (4) a zone with a sensor in fault that is not in throttle-2 enters it, with 2023h. -/
def Obligations.HousekeepingRound : Prop :=
  (∀ (s : State) (readings : List Nat), s.keeperOn = true → s.therm.rounds ≠ 0 →
    Does (.housekeepingRound readings) s [.clk, .pwr, .budget, .care, .reg, .therm, .bank, .dram, .gills, .mbox, .obs, .perf,
      .firkin, .rstats, .fw] (fun t => t.therm.rounds = s.therm.rounds + 1 ∧
      t.clk.now = max s.clk.now (s.therm.lastAt + 1000000000) ∧ t.therm.lastAt = t.clk.now)) ∧
  (∀ (s : State) (ch x : Nat), isSensor s.ident.variant ch = true → goodReading (Tab.look s.therm.raw ch) x = false →
    s.faulted ch = false →
    (s.sense ch x).faulted ch = true ∧ (s.sense ch x).reading ch = 0xFFFF ∧
    (s.sense ch x).obs = (s.log 0x2025 ch).obs ∧ s.keepsBut [.therm, .obs] (s.sense ch x)) ∧
  (∀ (s : State) (ch x : Nat), isSensor s.ident.variant ch = true → goodReading (Tab.look s.therm.raw ch) x = true →
    s.faulted ch = false →
    (s.sense ch x).faulted ch = false ∧ (s.sense ch x).reading ch = x ∧ s.keepsBut [.therm] (s.sense ch x)) ∧
  (∀ (s : State) (z : Nat), (zoneSensors s.ident.variant z).any s.faulted = true → s.zoneSteps z < 2 →
    (s.zoneRound z).zoneSteps z = s.zoneSteps z + 2 ∧ (s.zoneRound z).obs = (s.log 0x2023 (z * 256 + 2)).obs ∧
    s.keepsBut [.therm, .obs] (s.zoneRound z))

/-- Leaving a throttle step, a sensor restored, and a rail's fault (R444, R445, R447, R448). A zone whose sensors all work leaves,
after 10 rounds below, (1) throttle-2, or (2) throttle-1 when it is not in throttle-2, with 2024h; (3) a zone with a sensor in fault is
held. (4) A sensor with 60 good rounds leaves fault and reads its last answer, and, (5) when it is in no zone, that and 2026h is all that
happens; (6) with fewer it stays in fault. (7) A rail outside its limits for 3 rounds or more and not yet reported logs 2028h, and (8)
not again. -/
def Obligations.ThrottlingAndRails : Prop :=
  (∀ (s : State) (z : Nat), (zoneSensors s.ident.variant z).any s.faulted = false → s.inStep z 2 = true →
    10 ≤ Tab.get 0 s.therm.below (z * 4 + 2) →
    exec (.throttleLeave z) s = .next (State.log 0x2024 (z * 256 + 2) { s with therm := { s.therm with
      steps := Tab.set 0 s.therm.steps z (s.zoneSteps z - 2)
      below := Tab.erase s.therm.below (z * 4 + 2) } })) ∧
  (∀ (s : State) (z : Nat), (zoneSensors s.ident.variant z).any s.faulted = false → s.inStep z 2 = false →
    s.inStep z 1 = true → 10 ≤ Tab.get 0 s.therm.below (z * 4 + 1) →
    exec (.throttleLeave z) s = .next (State.log 0x2024 (z * 256 + 1) { s with therm := { s.therm with
      steps := Tab.set 0 s.therm.steps z (s.zoneSteps z - 1)
      below := Tab.erase s.therm.below (z * 4 + 1) } })) ∧
  (∀ (s : State) (z : Nat), (zoneSensors s.ident.variant z).any s.faulted = true → exec (.throttleLeave z) s = .next s) ∧
  (∀ (s : State) (ch n : Nat), Tab.look s.therm.faults ch = some n → 60 ≤ n →
    Does (.sensorRestored ch) s [.therm, .obs] (fun t => t.faulted ch = false ∧ t.reading ch = Tab.get 0 s.therm.raw ch)) ∧
  (∀ (s : State) (ch n : Nat), Tab.look s.therm.faults ch = some n → 60 ≤ n → zoneOf s.ident.variant ch = none →
    exec (.sensorRestored ch) s = .next (State.log 0x2026 ch { s with therm := { s.therm with
      faults := Tab.erase s.therm.faults ch
      readings := Tab.put s.therm.readings ch (Tab.get 0 s.therm.raw ch) } })) ∧
  (∀ (s : State) (ch n : Nat), Tab.look s.therm.faults ch = some n → n < 60 → exec (.sensorRestored ch) s = .next s) ∧
  (∀ (s : State) (ch : Nat), 3 ≤ Tab.get 0 s.therm.railBad ch → Tab.get 0 s.therm.railBad ch < 2 ^ 32 →
    exec (.railFault ch) s = .next (State.log 0x2028 ch { s with therm := { s.therm with
      railBad := Tab.put s.therm.railBad ch (2 ^ 32) } })) ∧
  (∀ (s : State) (ch : Nat), 2 ^ 32 ≤ Tab.get 0 s.therm.railBad ch → exec (.railFault ch) s = .next s)

/-- A critical temperature read again 10 ms later (R449, R450). For a sensor of a zone that awaits its second reading: (1) a working
sensor's, at or above critical and within the sensor's range, at a running module that is not prepared, restoring, covering or
dumping: the zone is noted and the module dumps, on main while it has it, else on the bank; (2) below critical: the wait ends and
nothing else follows; (3) as in (1) while a dump runs: the zone is noted, unless one was, and the dump goes on; (4) as in (1) at a prepared
module: it goes off without a dump and CriticalLatch is set. -/
def Obligations.CriticalShutdown : Prop :=
  (∀ (s : State) (ch reading t0 z : Nat), Tab.look s.pwr.rechecks ch = some t0 → zoneOf s.ident.variant ch = some z →
    s.faulted ch = false → s.fastOn = true → centiK (s.zoneLimits z).2.2 ≤ reading → reading ≤ 42315 →
    s.pwr.arm ∉ [2, 3, 4, 5] → s.pwr.critZone = none →
    Does (.criticalRecheck ch reading) s (.clk :: dumpParts) (fun t => t.pwr.arm = 5 ∧ t.pwr.critZone = some z ∧
      t.pwr.holdUp = (!s.mainOn) ∧ t.dump.onMain = s.mainOn ∧ t.budget.dumps = s.budget.dumps + 1 ∧
      t.clk.now = max s.clk.now (t0 + 10000000))) ∧
  (∀ (s : State) (ch reading t0 z : Nat), Tab.look s.pwr.rechecks ch = some t0 → zoneOf s.ident.variant ch = some z →
    reading < centiK (s.zoneLimits z).2.2 →
    Does (.criticalRecheck ch reading) s [.clk, .pwr, .obs, .perf] (fun t => t.pwr = { s.pwr with
      rechecks := Tab.erase s.pwr.rechecks ch } ∧ t.clk.now = max s.clk.now (t0 + 10000000))) ∧
  (∀ (s : State) (ch reading t0 z : Nat), Tab.look s.pwr.rechecks ch = some t0 → zoneOf s.ident.variant ch = some z →
    s.faulted ch = false → s.fastOn = true → centiK (s.zoneLimits z).2.2 ≤ reading → reading ≤ 42315 → s.pwr.arm = 5 →
    Does (.criticalRecheck ch reading) s [.clk, .pwr, .obs, .perf] (fun t => t.pwr = { s.pwr with
      rechecks := Tab.erase s.pwr.rechecks ch
      critZone := some (s.pwr.critZone.getD z) })) ∧
  (∀ (s : State) (ch reading t0 z : Nat), Tab.look s.pwr.rechecks ch = some t0 → zoneOf s.ident.variant ch = some z →
    s.faulted ch = false → s.fastOn = true → centiK (s.zoneLimits z).2.2 ≤ reading → reading ≤ 42315 → s.pwr.arm = 3 →
    Does (.criticalRecheck ch reading) s Part.most (fun t => t.pwr.boot = .off ∧ t.pwr.critLatch = true ∧ t.dump = s.dump ∧
      t.media.pages = s.media.pages))

/-- The bank (R155, R157, R159, R552 to R554). (1) A bank that charged to 31.0 V and has been cool for 10 rounds charges to 34.0 V again.
A measurement of the bank, the first since the start, with both strings in service, at a running module with main on and no dump, (2) that
finds no fault sets both capacitances, ends a bank fault and has the energy and DerivedBudget computed anew from them; that finds (3)
string A or (4) string B open or shorted takes it out of service with the state that says so, and the capacitance is the other's. (5) A
fault of the common path, or a bank that cannot be measured, puts the bank at fault: no energy, DerivedBudget 0. -/
def Obligations.HoldUpBank : Prop :=
  (∀ s : State, s.bank.charge = 31000 → 10 ≤ s.bank.cool →
    Does .chargeVoltageRaise s [.pwr, .budget, .bank, .obs] (fun t => t.bank = { s.bank with
      charge := 34000
      cool := 0
      charger := if s.mainOn then 1 else s.bank.charger })) ∧
  (∀ (s : State) (a b : Nat), s.fastOn = true → s.mainOn = true → s.pwr.arm ≠ 5 → s.bank.measured = false → s.bank.stA = 0 →
    s.bank.stB = 0 →
    Does (.capacitanceMeasure a b .none) s [.clk, .pwr, .budget, .bank, .obs, .perf] (fun t => t.bank = { s.bank with
        measured := true
        measuredAt := s.clk.now
        capA := a
        capB := b
        faulty := false } ∧ t.budget.energy = t.bankEnergy ∧
      t.budget.derived = derive s.ident.variant t.bankEnergy (s.entry 0x2010 2) (s.entry 0x2010 1))) ∧
  (∀ (s : State) (a b : Nat) (short : Bool), s.fastOn = true → s.mainOn = true → s.pwr.arm ≠ 5 → s.bank.measured = false →
    s.bank.stA = 0 → s.bank.stB = 0 →
    Does (.capacitanceMeasure a b (if short then .stringShort 0 else .stringOpen 0)) s [.clk, .pwr, .budget, .bank, .obs, .perf]
      (fun t => t.bank.stA = (if short then 2 else 1) ∧ t.bank.stB = 0 ∧ t.bankCap = b ∧ t.bank.faulty = s.bank.faulty)) ∧
  (∀ (s : State) (a b : Nat) (short : Bool), s.fastOn = true → s.mainOn = true → s.pwr.arm ≠ 5 → s.bank.measured = false →
    s.bank.stA = 0 → s.bank.stB = 0 →
    Does (.capacitanceMeasure a b (if short then .stringShort 1 else .stringOpen 1)) s [.clk, .pwr, .budget, .bank, .obs, .perf]
      (fun t => t.bank.stB = (if short then 2 else 1) ∧ t.bank.stA = 0 ∧ t.bankCap = a ∧ t.bank.faulty = s.bank.faulty)) ∧
  (∀ (s : State) (a b : Nat) (f : BankFault), s.fastOn = true → s.mainOn = true → s.pwr.arm ≠ 5 → s.bank.measured = false →
    f ∈ [BankFault.pathOpen, .pathShort, .unmeasurable] →
    Does (.capacitanceMeasure a b f) s [.clk, .pwr, .budget, .bank, .obs, .perf] (fun t => t.bank.faulty = true ∧
      t.budget.energy = 0 ∧ t.budget.derived = 0))

/-- Power regulation (R436, R439, R442). At a running module: (1) the first measurement of the input power, and (2) each one 10 ms after
the last, gives BaseDraw as that power less 62.5 mW for each quarter peck of leave granted, and the last ten are kept. (3) A base over
the budget starts pacing: CXL.mem traffic falls by 10 %, not below 10 %, with 2022h and BaseDraw; (4) while it stays over, again 10 ms
after the last step; (5) with 2 W to spare it rises by 10 % 100 ms after it, and at 100 % pacing ends; (6) between the two, or without
pacing, nothing changes. -/
def Obligations.PowerRegulation : Prop :=
  (∀ (s : State) (mw : Nat), s.fastOn = true → s.reg.recent = [] →
    exec (.baseDrawMeasure mw) s = .next { s with reg := { s.reg with
      baseAt := s.clk.now
      baseDraw := (2 * mw - 125 * s.grantedQ) / 2
      recent := [mw] } }) ∧
  (∀ (s : State) (mw : Nat), s.fastOn = true → s.reg.recent ≠ [] →
    Does (.baseDrawMeasure mw) s [.clk, .reg, .obs, .perf] (fun t => t.reg.baseDraw = (2 * mw - 125 * s.grantedQ) / 2 ∧
      t.reg.recent = (mw :: s.reg.recent).take 10 ∧ t.clk.now = max s.clk.now (s.reg.baseAt + 10000000))) ∧
  (∀ s : State, s.fastOn = true → s.overBudget 0 = true → s.port.pacing = false →
    exec .pacingStep s = .next (State.log 0x2022 s.reg.baseDraw { s with port := { s.port with
      pacing := true
      pacePct := max 10 (s.port.pacePct - 10)
      paceAt := s.clk.now } })) ∧
  (∀ s : State, s.fastOn = true → s.overBudget 0 = true → s.port.pacing = true →
    Does .pacingStep s [.clk, .port, .obs, .perf] (fun t => t.port.pacePct = max 10 (s.port.pacePct - 10) ∧ t.port.pacing = true ∧
      t.clk.now = max s.clk.now (s.port.paceAt + 10000000))) ∧
  (∀ s : State, s.fastOn = true → s.overBudget 0 = false → s.overBudget 2000 = false → s.port.pacing = true →
    Does .pacingStep s [.clk, .port, .obs, .perf] (fun t => t.port.pacePct = min 100 (s.port.pacePct + 10) ∧
      t.port.pacing = decide (s.port.pacePct + 10 < 100) ∧ t.clk.now = max s.clk.now (s.port.paceAt + 100000000))) ∧
  (∀ s : State, s.fastOn = true → s.overBudget 0 = false → (s.port.pacing = false ∨ s.overBudget 2000 = true) →
    exec .pacingStep s = .next s)

/-- Shares and latency (R433 to R435). (1) At a running module that has computed them before, 10 s after that the deliverable capacity is
computed anew, and the module is oversubscribed when the read or the write guarantees of the 16 classes exceed it. For a class with misses
in the running second: (2) at its end they are counted anew; (3) with the class's MissInterrupt set, a module not oversubscribed, and room
for the event, 2301h with the class and the misses enters the pail and in direct attachment vector 7 is raised; (4) without
MissInterrupt, or oversubscribed, nothing is logged. (5) For a class without misses nothing changes. -/
def Obligations.SharesAndLatency : Prop :=
  (∀ s : State, s.fastOn = true → s.reg.deliverRead ≠ 0 →
    Does .deliverableRecompute s [.clk, .reg, .obs, .perf] (fun t => t.reg.deliverRead = t.deliverReads ∧
      t.reg.deliverWrite = t.deliverWrites ∧
      t.reg.oversub = (decide (t.reg.deliverRead < s.shareSum 1) || decide (t.reg.deliverWrite < s.shareSum 2)) ∧
      t.clk.now = max s.clk.now (s.reg.deliverAt + 10000000000))) ∧
  (∀ (s : State) (cls k n : Nat), s.missesOf cls = some (k, n) →
    Does (.latencyMissReport cls) s [.clk, .reg, .obs, .perf] (fun t => t.reg = { s.reg with
        missSecond := Tab.erase s.reg.missSecond k } ∧
      t.clk.now = max s.clk.now ((k / 16 + 1) * 1000000000))) ∧
  (∀ (s : State) (cls k n : Nat), s.missesOf cls = some (k, n) → s.entry (0x2300 + cls) 6 = 1 → s.reg.oversub = false →
    s.fastOn = true → s.obs.pail.length < 4096 → s.obs.lostPending = 0 →
    Does (.latencyMissReport cls) s [.clk, .reg, .obs, .perf] (fun t => t.obs.pail = s.obs.pail ++
        [⟨0x2301, 1, 0xFFFF, s.obs.nextSeq, t.clk.stamp, cls * 2 ^ 32 + n⟩] ∧
      (s.port.attach = 1 → 7 ∈ t.obs.msix))) ∧
  (∀ (s : State) (cls k n : Nat), s.missesOf cls = some (k, n) → (s.entry (0x2300 + cls) 6 ≠ 1 ∨ s.reg.oversub = true) →
    Does (.latencyMissReport cls) s [.clk, .reg, .obs, .perf] (fun t => t.obs.pail = s.obs.pail ∧ t.obs.held = s.obs.held)) ∧
  (∀ (s : State) (cls : Nat), s.missesOf cls = none → exec (.latencyMissReport cls) s = .next s)

/-- Gills, pails and DRAM upkeep (R376, R377, R379, R395, R399 to R401, R467, R520). At a running module, and for the pails one that does
not dump: (1) at the end of its leak interval a gill's level falls by one and it may overflow again. (2) A reset of the event pail
empties it, sets Overrun, counts its entries lost and for the next 7101h, raises vector 5 and logs 5003h. (3) A reset of a slice's
internal-master pail leaves neither an internal request nor a reservation of the slice; (4) of its request pail, neither a request of
the slice in it nor a reservation. (5) A reset of a media channel's command pail ends the demand fetches on the channel, and (6) of a
segment pail the route's transfer, with 01070000h. (7) A reset of a yoke receive, journal or map pail is a reset error of source 08h, its
own events ending with 5003h. (8) A row not kept open by PagePolicy is closed after 200 ns. (9) At the end of a refresh period the
activations are counted anew. (10) A step of a retraining that has its leave counts, 100 µs after the last; (11) the 4,000th ends the
channel's, which is the lowest in the mask. -/
def Obligations.GillsPailsAndDram : Prop :=
  (∀ (s : State) (d : Nat), s.fastOn = true → d < 110 →
    Does (.gillLeak d) s [.clk, .gills, .obs, .perf] (fun t => Tab.get 0 t.gills.level d = Tab.get 0 s.gills.level d - 1 ∧
      d ∉ t.gills.spilled ∧ t.clk.now = max s.clk.now ((s.gillSet d).at_ + (s.gillSet d).every * 1000000))) ∧
  (∀ (s : State) (inst : Nat), s.fastOn = true → s.pwr.arm ≠ 5 →
    exec (.pailReset 7 inst) s = .next (State.log 0x5003 (28672 + inst) (State.raise 5 { s with obs := { s.obs with
      pail := []
      packet := none
      overrun := true
      lost := min (s.obs.lost + s.obs.pail.length) 0xFFFFFFFF
      lostPending := s.obs.lostPending + s.obs.pail.length } }))) ∧
  (∀ (s : State) (inst : Nat), s.fastOn = true → s.pwr.arm ≠ 5 →
    Does (.pailReset 3 inst) s [.pwr, .clk, .reqs, .fc, .tier, .budget, .map, .atom, .mbox, .obs, .cmds] (fun t =>
      (∀ r ∈ t.atom.res, r.slice ≠ inst) ∧ ∀ r ∈ t.reqs.list, ¬ (r.entry = internal ∧ r.slice = inst))) ∧
  (∀ (s : State) (inst : Nat), s.fastOn = true → s.pwr.arm ≠ 5 →
    Does (.pailReset 1 inst) s [.pwr, .port, .reqs, .fc, .tier, .slices, .budget, .map, .care, .atom, .reg, .obs, .perf, .firkin,
      .rstats, .cmds] (fun t => (∀ r ∈ t.atom.res, r.slice ≠ inst) ∧
      ∀ r ∈ t.reqs.list, ¬ (r.inPail = true ∧ r.slice = inst))) ∧
  (∀ (s : State) (inst : Nat), s.fastOn = true → s.pwr.arm ≠ 5 →
    Does (.pailReset 4 inst) s [.pwr, .clk, .port, .reqs, .fc, .tier, .slices, .budget, .media, .map, .care, .reg, .mbox, .obs, .perf,
      .firkin, .rstats, .cmds] (fun t => ∀ m ∈ t.slices.misses, ¬ (ppaCh m.ppa = inst ∧ m.kind = .demand))) ∧
  (∀ (s : State) (inst : Nat) (x : Transfer), s.fastOn = true → s.pwr.arm ≠ 5 → Tab.look s.dict.transfers inst = some x →
    Does (.pailReset 8 inst) s [.dict, .obs] (fun t => Tab.look t.dict.transfers inst = some { x with
      ended := 0x01070000
      data := [] })) ∧
  (∀ (s : State) (kind inst : Nat), s.fastOn = true → s.pwr.arm ≠ 5 → kind ∈ [2, 5, 6] →
    Does (.pailReset kind inst) s [.pwr, .port, .reqs, .fc, .tier, .slices, .budget, .media, .map, .care, .yoke, .atom, .keys,
      .reg, .dict, .mbox, .obs, .perf, .fw, .cmds] (fun t => t.pwr.boot = .verifying s.fw.current false ∧
      t.pwr.own.head? = some (0x5004, 8) ∧ t.pwr.own.getLast? = some (0x5003, kind * 4096 + inst))) ∧
  (∀ (s : State) (sc bank : Nat), s.entry 0x2130 1 ≠ 1 → Tab.get 0 s.dram.openRow (sc * 32 + bank) ≠ 0 →
    Does (.dramPageCloseTimeout sc bank) s [.clk, .dram, .obs, .perf] (fun t => t.dram = { s.dram with
      openRow := Tab.erase s.dram.openRow (sc * 32 + bank) } ∧ t.clk.now = s.clk.now + 200)) ∧
  (∀ s : State, s.fastOn = true →
    Does .refreshPeriodEnd s [.clk, .dram, .obs, .perf] (fun t => t.dram = { s.dram with
        acts := []
        refreshAt := t.clk.now } ∧ t.clk.now = max s.clk.now (s.dram.refreshAt + 32000000))) ∧
  (∀ s : State, s.fastOn = true → s.dram.retrainMask ≠ 0 → s.reg.granted.any (fun l => decide (l.id = retrainId)) = true →
    s.dram.retrainSteps + 1 < 4000 →
    Does .dramRetrainStep s [.clk, .reg, .dram, .obs, .perf] (fun t => t.dram.retrainSteps = s.dram.retrainSteps + 1 ∧
      t.dram.retrainMask = s.dram.retrainMask ∧ t.dram.retrainAt = t.clk.now ∧ t.reg = s.reg)) ∧
  (∀ s : State, s.fastOn = true → s.dram.retrainMask ≠ 0 → s.reg.granted.any (fun l => decide (l.id = retrainId)) = true →
    3999 ≤ s.dram.retrainSteps →
    Does .dramRetrainStep s [.clk, .reg, .dram, .obs, .perf] (fun t => t.dram.retrainSteps = 0 ∧
      t.dram.retrainMask = s.dram.retrainMask &&& ~~~ ((1 : BitVec 8) <<< firstChannel s.dram.retrainMask) ∧
      t.dram.retrainings = sat32 s.dram.retrainings))

/-! ## Notifications, counters and the Firkin -/

/-- Notify (R81, R477, R478), at a running module in fabric attachment. (1) A condition with occurrences and no Notify that waits for its
acknowledgement is sent with the next sequence, the count and the time of the first occurrence, and its count starts anew; (2) one that
waits is sent again 1 s after it was last sent, with the sequence and count it had; (3) its acknowledgement ends the wait. In any
state (4) an acknowledgement of another sequence changes nothing. -/
def Obligations.NotifyProtocol : Prop :=
  (∀ (s : State) (c : Nat), s.canNotify = true → (Tab.get ({} : Note) s.obs.notes c).count ≠ 0 →
    (Tab.get ({} : Note) s.obs.notes c).pending = false →
    Does (.notifySend c) s [.obs] (fun t =>
      let n := Tab.get ({} : Note) s.obs.notes c
      let m := Tab.get ({} : Note) t.obs.notes c
      m.seq = (n.seq + 1) % 256 ∧ m.count = 0 ∧ m.pending = true ∧
      t.obs.notifyOut = s.obs.notifyOut ++ [⟨s.notifyDest, c, (n.seq + 1) % 256, n.count, n.first⟩] ∧
      t.obs.pail = s.obs.pail)) ∧
  (∀ (s : State) (c : Nat), s.canNotify = true → (Tab.get ({} : Note) s.obs.notes c).pending = true →
    Does (.notifyResend c) s [.clk, .obs, .perf] (fun t =>
      t.clk.now = max s.clk.now ((Tab.get ({} : Note) s.obs.notes c).sentAt + 1000000000) ∧
      t.obs.resends = min (s.obs.resends + 1) 0xFFFFFFFF ∧
      (Tab.get ({} : Note) t.obs.notes c).pending = true ∧
      t.obs.notifyOut = s.obs.notifyOut ++ [let n := Tab.get ({} : Note) s.obs.notes c
        ⟨s.notifyDest, c, n.seq, n.sentCount, n.sentFirst⟩])) ∧
  (∀ (s : State) (c : Nat), s.canNotify = true → (Tab.get ({} : Note) s.obs.notes c).pending = true →
    Does (.notifyAck c (Tab.get ({} : Note) s.obs.notes c).seq) s [.obs] (fun t => t.obs = { s.obs with
      notes := Tab.put s.obs.notes c { Tab.get ({} : Note) s.obs.notes c with pending := false } })) ∧
  (∀ (s : State) (c q : Nat), (Tab.get ({} : Note) s.obs.notes c).seq ≠ q → exec (.notifyAck c q) s = .next s)

/-- Counters and the Firkin's time (R80, R501, R505, R507, R512, R515). (1) A snapshot that is being gathered becomes ready with what the
blocks latched. A running block's counter that selects an event and holds 2^48 − 1 (2) without Interrupt wraps to 0 and (3) with it, in
a block below 32, to its Reload, with a sample of the request named; its Overflow bit sets, and in direct attachment vector 6 is
raised when none was yet. (4) An open period that is not frozen closes Period seconds after its start, and the next one opens. (5) A
frozen one thaws when its timer runs out or after 65,535 s; with room in the pail, 7001h with the seconds it was frozen follows. -/
def Obligations.CountersAndFirkin : Prop :=
  (∀ s : State, s.perf.snapSt = 1 →
    exec .counterSnapshotReady s = .next { s with perf := { s.perf with
      snapSt := 2
      gathered := s.perf.latched } }) ∧
  (∀ (s : State) (b n a p : Nat), s.blockRuns b = true → bits (Tab.get 0 s.perf.select (b * 8 + n)) 7 0 ≠ 0 →
    bits (Tab.get 0 s.perf.select (b * 8 + n)) 17 17 = 0 → Tab.get 0 s.perf.value (b * 8 + n) = 2 ^ 48 - 1 →
    Does (.counterWrap b n a p) s [.perf, .obs] (fun t => Tab.get 0 t.perf.value (b * 8 + n) = 0 ∧
      Tab.get 0 t.perf.overflow b / 2 ^ n % 2 = 1 ∧ t.perf.select = s.perf.select ∧ t.perf.samples = s.perf.samples ∧
      (s.obs.lastSix = none → s.port.attach = 1 → t.obs.msix = s.obs.msix ++ [6]) ∧ t.obs.pail = s.obs.pail)) ∧
  (∀ (s : State) (b n a p : Nat), s.blockRuns b = true → bits (Tab.get 0 s.perf.select (b * 8 + n)) 7 0 ≠ 0 →
    bits (Tab.get 0 s.perf.select (b * 8 + n)) 17 17 = 1 → Tab.get 0 s.perf.value (b * 8 + n) = 2 ^ 48 - 1 → b < 32 →
    Does (.counterWrap b n a p) s [.perf, .obs] (fun t =>
      Tab.get 0 t.perf.value (b * 8 + n) = Tab.get 0 s.perf.reload (b * 8 + n) ∧
      Tab.get 0 t.perf.overflow b / 2 ^ n % 2 = 1 ∧
      Tab.get ({} : Sample) t.perf.samples b = ⟨a, p, n, ((Tab.get ({} : Sample) s.perf.samples b).count + 1) % 2 ^ 32, s.clk.stamp⟩ ∧
      (s.obs.lastSix = none → s.port.attach = 1 → t.obs.msix = s.obs.msix ++ [6]) ∧ t.obs.pail = s.obs.pail)) ∧
  (∀ s : State, s.firkin.running = true → s.firkin.frozen = false →
    Does .firkinPeriodClose s [.clk, .obs, .perf, .firkin] (fun t => t.firkin.period = s.firkin.period + 1 ∧
      t.firkin.opened = [] ∧ t.clk.now = max s.clk.now (s.firkin.startNow + s.entry 0x7000 1 * 1000000000) ∧
      t.firkin.startNow = t.clk.now ∧ t.firkin.running = true)) ∧
  (∀ s : State, s.firkin.running = true → s.firkin.frozen = true →
    Does .firkinAutoThaw s [.clk, .obs, .perf, .firkin] (fun t => t.firkin.frozen = false ∧
      t.clk.now = max s.clk.now (min s.firkin.thawAt (s.firkin.startNow + 65535 * 1000000000)) ∧
      (s.fastOn = true → s.obs.pail.length < 4096 → s.obs.lostPending = 0 → t.obs.pail = s.obs.pail ++
        [⟨0x7001, 0, 0xFFFF, s.obs.nextSeq, t.clk.stamp, (t.clk.now - s.firkin.frozenAt) / 1000000000⟩])))

/-! ## Requests and reads -/

/-- A CXL.mem request at the port (R20, R51, R53, R57, R58, R61, R62). At a port that accepts requests, with a credit of its kind and an
address in an ordinary range: (1) a read and (2) a write whose requester selects an entry with the right, while neither a wipe runs nor
the module is fenced and the slice has room in its pail and nothing in its ingress buffer, is queued with its fields and the class and
policy of its range, no credit kept; (3) a read, (4) a write with its data whose slice is full waits in the ingress buffer and keeps
its credit. (5) The read of a requester without an entry gets poison and (6) its write completes and is discarded, counted as
unknown; (7) a read without the right gets poison and (8) a write without it completes and is discarded, counted. (9) With a wipe
running or the module fenced a read gets poison and (10) a write completes and is discarded. (11), (12) At a port that does not accept
requests or has no credit nothing changes. (13), (14) The first request of a slice's ingress buffer goes to its pail when that has
room, and its credit returns. -/
def Obligations.RequestsArrive : Prop :=
  (∀ (s : State) (key addr tag n : Nat) (r : Range), s.accepts = true → s.hasCredit false = true →
    s.selectEntry (s.keyOf key) = some n → s.decodeDpa addr = .ordinary r → s.mayRead n r.group = true → s.blocked = false →
    s.pailCount (sliceOf addr) < 2048 →
    s.reqs.list.any (fun q => decide (q.stage = .ingress) && decide (q.slice = sliceOf addr)) = false →
    Does (.hostReadRequest key addr tag) s [.port, .reqs, .slices, .obs, .perf] (fun t => t.reqs = { s.reqs with
        next := s.reqs.next + 1
        list := s.reqs.list ++ [{ newReq .read (s.keyOf key) n tag addr r.cls r.policy 0 0 false s.clk.now with
          id := s.reqs.next }] } ∧ t.port.out = s.port.out ∧ t.port.creditsReq = s.port.creditsReq)) ∧
  (∀ (s : State) (key addr tag n : Nat) (d : Line) (be : Mask) (poison : Bool) (r : Range), s.accepts = true →
    s.hasCredit true = true → s.selectEntry (s.keyOf key) = some n → s.decodeDpa addr = .ordinary r →
    s.mayWrite n r.group = true → s.blocked = false → s.pailCount (sliceOf addr) < 2048 →
    s.reqs.list.any (fun q => decide (q.stage = .ingress) && decide (q.slice = sliceOf addr)) = false →
    Does (.hostWriteRequest key addr tag d be poison) s [.port, .reqs, .slices, .obs, .perf] (fun t => t.reqs = { s.reqs with
        next := s.reqs.next + 1
        list := s.reqs.list ++ [{ newReq .write (s.keyOf key) n tag addr r.cls r.policy d be poison s.clk.now with
          id := s.reqs.next }] } ∧ t.port.out = s.port.out ∧ t.port.creditsData = s.port.creditsData)) ∧
  (∀ (s : State) (key addr tag n : Nat) (r : Range), s.accepts = true → s.hasCredit false = true →
    s.selectEntry (s.keyOf key) = some n → s.decodeDpa addr = .ordinary r → s.mayRead n r.group = true → s.blocked = false →
    2048 ≤ s.pailCount (sliceOf addr) →
    Does (.hostReadRequest key addr tag) s [.port, .reqs, .slices, .obs, .perf] (fun t => t.reqs = { s.reqs with
        next := s.reqs.next + 1
        list := s.reqs.list ++ [{ newReq .read (s.keyOf key) n tag addr r.cls r.policy 0 0 false s.clk.now with
          id := s.reqs.next
          stage := .ingress }] } ∧ t.port.out = s.port.out ∧ t.port.creditsReq = s.port.creditsReq - 1)) ∧
  (∀ (s : State) (key addr tag n : Nat) (d : Line) (be : Mask) (poison : Bool) (r : Range), s.accepts = true →
    s.hasCredit true = true → s.selectEntry (s.keyOf key) = some n → s.decodeDpa addr = .ordinary r →
    s.mayWrite n r.group = true → s.blocked = false → 2048 ≤ s.pailCount (sliceOf addr) →
    Does (.hostWriteRequest key addr tag d be poison) s [.port, .reqs, .slices, .obs, .perf] (fun t => t.reqs = { s.reqs with
        next := s.reqs.next + 1
        list := s.reqs.list ++ [{ newReq .write (s.keyOf key) n tag addr r.cls r.policy d be poison s.clk.now with
          id := s.reqs.next
          stage := .ingress }] } ∧ t.port.out = s.port.out ∧ t.port.creditsData = s.port.creditsData - 1)) ∧
  (∀ (s : State) (key addr tag : Nat), s.accepts = true → s.hasCredit false = true → s.selectEntry (s.keyOf key) = none →
    Does (.hostReadRequest key addr tag) s [.port, .obs, .perf] (fun t => t.port.unknown = min (s.port.unknown + 1) 0xFFFFFFFF ∧
      t.port.out = s.port.out ++ [⟨s.keyOf key, tag, .poison⟩])) ∧
  (∀ (s : State) (key addr tag : Nat) (d : Line) (be : Mask) (poison : Bool), s.accepts = true → s.hasCredit true = true →
    s.selectEntry (s.keyOf key) = none →
    Does (.hostWriteRequest key addr tag d be poison) s [.port, .obs, .perf] (fun t =>
      t.port.unknown = min (s.port.unknown + 1) 0xFFFFFFFF ∧ t.port.out = s.port.out ++ [⟨s.keyOf key, tag, .complete⟩])) ∧
  (∀ (s : State) (key addr tag n : Nat) (r : Range), s.accepts = true → s.hasCredit false = true →
    s.selectEntry (s.keyOf key) = some n → s.decodeDpa addr = .ordinary r → s.mayRead n r.group = false →
    Does (.hostReadRequest key addr tag) s [.port, .obs, .perf] (fun t =>
      t.port.rights = min (s.port.rights + 1) 0xFFFFFFFF ∧ t.port.out = s.port.out ++ [⟨s.keyOf key, tag, .poison⟩])) ∧
  (∀ (s : State) (key addr tag n : Nat) (d : Line) (be : Mask) (poison : Bool) (r : Range), s.accepts = true →
    s.hasCredit true = true → s.selectEntry (s.keyOf key) = some n → s.decodeDpa addr = .ordinary r →
    s.mayWrite n r.group = false →
    Does (.hostWriteRequest key addr tag d be poison) s [.port, .obs, .perf] (fun t =>
      t.port.rights = min (s.port.rights + 1) 0xFFFFFFFF ∧ t.port.out = s.port.out ++ [⟨s.keyOf key, tag, .complete⟩])) ∧
  (∀ (s : State) (key addr tag n : Nat) (r : Range), s.accepts = true → s.hasCredit false = true →
    s.selectEntry (s.keyOf key) = some n → s.decodeDpa addr = .ordinary r → s.mayRead n r.group = true → s.blocked = true →
    Does (.hostReadRequest key addr tag) s [.port, .obs, .perf] (fun t =>
      t.port.out = s.port.out ++ [⟨s.keyOf key, tag, .poison⟩])) ∧
  (∀ (s : State) (key addr tag n : Nat) (d : Line) (be : Mask) (poison : Bool) (r : Range), s.accepts = true →
    s.hasCredit true = true → s.selectEntry (s.keyOf key) = some n → s.decodeDpa addr = .ordinary r →
    s.mayWrite n r.group = true → s.blocked = true →
    Does (.hostWriteRequest key addr tag d be poison) s [.port, .obs, .perf] (fun t =>
      t.port.out = s.port.out ++ [⟨s.keyOf key, tag, .complete⟩])) ∧
  (∀ (s : State) (key addr tag : Nat), s.accepts = false ∨ s.hasCredit false = false →
    exec (.hostReadRequest key addr tag) s = .next s) ∧
  (∀ (s : State) (key addr tag : Nat) (d : Line) (be : Mask) (poison : Bool), s.accepts = false ∨ s.hasCredit true = false →
    exec (.hostWriteRequest key addr tag d be poison) s = .next s) ∧
  (∀ (s : State) (slice : Nat) (r : Req),
    s.reqs.list.find? (fun q => decide (q.stage = .ingress) && decide (q.slice = slice)) = some r → r.kind ∈ [.read, .resRead] →
    s.pailCount slice < 2048 →
    Does (.ingressDispatch slice) s [.port, .reqs, .obs, .perf] (fun t => t.reqs = { s.reqs with
        list := s.reqs.list.map (fun q => if q.id = r.id then { q with stage := .pail } else q) } ∧
      t.port = { s.port with creditsReq := s.port.creditsReq + 1 })) ∧
  (∀ (s : State) (slice : Nat) (r : Req),
    s.reqs.list.find? (fun q => decide (q.stage = .ingress) && decide (q.slice = slice)) = some r → r.kind ∈ [.write, .condWrite] →
    s.pailCount slice < 2048 →
    Does (.ingressDispatch slice) s [.port, .reqs, .obs, .perf] (fun t => t.reqs = { s.reqs with
        list := s.reqs.list.map (fun q => if q.id = r.id then { q with stage := .pail } else q) } ∧
      t.port = { s.port with creditsData := s.port.creditsData + 1 }))

/-- Reads at a slice (R85, R116 to R118, R147). (1) A slice whose next request is a read of a line the front cache holds, not Merging, in
a grain that is current and not pending, is answered with the line's content or, for a poisoned line, poison; it leaves, the hit is
counted and the front cache's lines are as they were. It is said of a front cache that is not being drained. (2) A set's miss slot that no
request waits for is released. A read that waited for an entry of its slice's miss table, its line not in the front cache nor its sector
in the tier and its map unit at hand: (3) in a grain that holds no copy of the line on media it is answered with zeros, or poison, and
leaves; (4) where there is a copy and neither a fetch of the line nor of its sector runs, a fetch of the line is started and the read is
attached to it. -/
def Obligations.ReadsProceed : Prop :=
  (∀ (s s1 : State) (k bank row : Nat) (queued : Bool) (r : Req) (x : FcLine), s.fastOn = true → s.nextReq k = some (r, s1) → r.kind = .read →
    r.entry ≠ internal → s.staleGrain (grainOf r.line) = false → s.pendingLine r.line = false → s.fcLine? r.line = some x →
    x.st ≠ .merging → s.fc.disabling = false → s.sector? (sectorOf r.line) = none →
    Does (.sliceLookup k .none bank row queued) s [.port, .reqs, .fc, .slices, .care, .reg, .obs, .perf, .firkin, .rstats] (fun t =>
      t.port.out = s.port.out ++ [⟨r.key, r.tag, s.readResp r.line x.data⟩] ∧
      t.reqs = { s.reqs with list := s.reqs.list.filter (fun q => decide (q.id ≠ r.id)) } ∧
      t.fc.lines = s.fc.lines ∧ t.fc.hits = s.fc.hits + 1)) ∧
  (∀ (s : State) (slice set : Nat) (fault : CacheFault),
    s.reqs.list.find? (fun r => decide (r.stage = .missSlot) && decide (fcSetKey r.line = slice * 2048 + set)) = none →
    s.dumping = false → exec (.missSlotFreed slice set fault) s = .next { s with fc := { s.fc with
      slots := Tab.erase s.fc.slots (slice * 2048 + set) } }) ∧
  (∀ (s : State) (slice : Nat) (r : Req), s.fastOn = true → s.dumping = false → s.missCount slice < 512 →
    s.reqs.list.find? (fun q => decide (q.stage = .missTable) && decide (q.slice = slice)) = some r → r.kind = .read →
    r.entry ≠ internal → s.fcLine? r.line = none → s.pendingLine r.line = false → s.sector? (sectorOf r.line) = none →
    s.unitResident 1 (segmentOf (grainOf r.line)) = true → s.copyAt r.line = none →
    Does (.missTableEntryFreed slice .none) s [.port, .reqs, .fc, .tier, .slices, .care, .reg, .obs, .perf, .firkin, .rstats] (fun t =>
      t.port.out = s.port.out ++ [⟨r.key, r.tag, s.readResp r.line 0⟩] ∧
      t.reqs = { s.reqs with list := s.reqs.list.filter (fun q => decide (q.id ≠ r.id)) } ∧
      t.tier.sectors = s.tier.sectors)) ∧
  (∀ (s : State) (slice : Nat) (r : Req), s.fastOn = true → s.dumping = false → s.missCount slice < 512 →
    s.reqs.list.find? (fun q => decide (q.stage = .missTable) && decide (q.slice = slice)) = some r → r.kind = .read →
    s.fcLine? r.line = none → s.sector? (sectorOf r.line) = none → s.unitResident 1 (segmentOf (grainOf r.line)) = true →
    (s.copyAt r.line).isSome = true → s.missOf r.line = none → s.missRoom r.line = true →
    Does (.missTableEntryFreed slice .none) s [.reqs, .fc, .tier, .slices, .media, .reg, .obs, .perf, .rstats] (fun t =>
      t.reqs = { s.reqs with list := s.reqs.list.map (fun q => if q.id = r.id then { q with stage := .attached } else q) } ∧
      (∃ m ∈ t.slices.misses, m.id = s.slices.next ∧ m.line = r.line ∧ m.kind = .demand ∧ m.cls = r.cls) ∧
      t.tier.sectors = s.tier.sectors))

/-- Sleep, suspension and hedges (R34 to R36, R131, R132, R137). (1) A slice awake with nothing in its pail and no fetch sleeps 50 µs after
its last work, and the reservations in it end. (2) A running channel with no operation and no read on its dies stops its clock 20 µs
after its last. (3) An operation outside its window, within the limits of R131 and with a read queued for its die is suspended for the
reads queued there: counted, for 3,970 ns more; (4) one in its window goes on, and nothing changes. (5) The direct half of a hedged
pair is issued, with the references of that moment, when the die is in no window, and as a demand read counted. -/
def Obligations.SleepAndSuspend : Prop :=
  (∀ (s : State) (k : Nat), s.fastOn = true → s.slices.asleep.contains k = false → s.pailCount k = 0 → s.missCount k = 0 →
    Does (.sliceMissSideSleep k) s [.clk, .slices, .atom, .obs, .perf] (fun t => t.slices = { s.slices with
        asleep := s.slices.asleep ++ [k] } ∧ (∀ r ∈ t.atom.res, r.slice ≠ k) ∧
      t.clk.now = max s.clk.now (Tab.get 0 s.slices.lastWork k + 50000))) ∧
  (∀ (s : State) (ch : Nat), s.fastOn = true → s.media.asleep.contains ch = false →
    s.media.ops.any (fun kv => decide (kv.2.die % 16 = ch)) = false → s.channelReads ch = 0 →
    Does (.channelClockStop ch) s [.clk, .media, .obs, .perf] (fun t => t.media = { s.media with
        asleep := s.media.asleep ++ [ch] } ∧ t.clk.now = max s.clk.now (Tab.get 0 s.media.lastOp ch + 20000))) ∧
  (∀ (s : State) (pos ch id : Nat) (o : DieOp), s.opOn (pos * 16 + ch) = some (id, o) → s.maySuspend pos ch o = true →
    Does (.programSuspendForRead pos ch) s [.media, .obs, .perf, .rstats] (fun t => t.media = { s.media with
        ops := Tab.put s.media.ops id { o with
          suspends := o.suspends + 1
          suspendedNs := o.suspendedNs + 3970
          serving := s.readersOf (pos * 16 + ch) } } ∧ t.rstats = { s.rstats with suspends := s.rstats.suspends + 1 })) ∧
  (∀ (s : State) (pos ch id : Nat) (o : DieOp), s.opOn (pos * 16 + ch) = some (id, o) → o.inWindow = true →
    exec (.programSuspendForRead pos ch) s = .next s) ∧
  (∀ (s : State) (id : Nat) (m : Miss), s.missById id = some m → m.direct = .deferred → s.inWindow (ppaDie m.ppa) = false →
    m.kind = .demand →
    Does (.deferredDirectRead id) s [.slices, .media, .obs, .perf, .rstats] (fun t => t.missById id = some { s.withRefs m with
        direct := .inFlight } ∧ t.rstats = { s.rstats with mediaReads := s.rstats.mediaReads + 1 }))

/-- The decode ladder of a fetch (R124 to R127, R132, R134, R137). For a target codeword that may be decoded and takes the die bus: (1) a
hard decode that fails, with no reconstruction running, is followed by the first soft retry, with references of that moment; (2) that
one's failure by reconstruction from every other page of its stripe; (3) a good hard decode with at most 24 corrected bits, of a demand
read that was not written meanwhile, is not pending and whose key is not lost, ends the fetch and answers the one read attached to it. A
(4) peer codeword of a reconstruction, so, that decodes good at its hard decode while no peer has failed is noted as good. A combination
whose peers have all decoded: (5) failed at step 3, is followed by the second soft retry at step 4; (6) failed at step 4, leaves a demand
read's line, unless it was written, poisoned, with its event counted, and the fetch ends; (7) good, with the stripe's parity, for a demand
read of which the same holds as in (3), ends the fetch and answers the one read attached. -/
def Obligations.DecodeLadder : Prop :=
  (∀ (s u : State) (id c : Nat) (r : Decode) (offs : List Int) (m : Miss), s.missById id = some m →
    s.takeWord m (ppaCh m.ppa) = some u → s.decodable m = true → m.recon = false → m.step = 1 → r ≠ .good →
    Does (.codewordDecoded id (ppaCh m.ppa) r c offs) s [.slices, .media, .reg, .obs, .perf, .rstats] (fun t =>
      t.missById id = some { s.withRefs m with
        step := 2
        tgt := .reading
        recon := false
        direct := .none
        peers := []
        soft := true
        lastCrc := decide (r = .crcFail) } ∧ t.rstats.soft1 = s.rstats.soft1 + 1)) ∧
  (∀ (s u : State) (id c : Nat) (r : Decode) (offs : List Int) (m : Miss), s.missById id = some m →
    s.takeWord m (ppaCh m.ppa) = some u → s.decodable m = true → m.recon = false → m.step = 2 → r ≠ .good →
    Does (.codewordDecoded id (ppaCh m.ppa) r c offs) s [.pwr, .slices, .media, .map, .care, .reg, .dram, .gills, .obs, .perf,
      .rstats, .cmds] (fun t =>
      t.missById id = some { m with
        step := 3
        tgt := .failed
        recon := true
        direct := .none
        decodeRecon := true
        lastCrc := decide (r = .crcFail)
        peers := s.peersFor m.ppa } ∧ t.rstats.decodeRecon = s.rstats.decodeRecon + 1)) ∧
  (∀ (s u : State) (id c : Nat) (offs : List Int) (r : Req) (m : Miss), s.missById id = some m →
    s.takeWord m (ppaCh m.ppa) = some u → s.decodable m = true → s.pendingLine m.line = false → m.step = 1 → c ≤ 24 → m.kind = .demand → m.stale = false →
    s.lostAt m.ppa m.slot = false → s.isMerging m.line = false → m.parts = [] →
    s.reqs.list.filter (fun q => decide (q.line = m.line) && decide (q.stage = .attached)) = [r] → r.kind = .read →
    r.entry ≠ internal →
    Does (.codewordDecoded id (ppaCh m.ppa) .good c offs) s [.port, .reqs, .fc, .tier, .slices, .media, .care, .reg, .dram, .obs,
      .perf, .firkin, .rstats] (fun t => t.missById id = none ∧
      t.port.out = s.port.out ++ [⟨r.key, r.tag, s.readResp r.line (s.viewAt m.ppa m.slot)⟩])) ∧
  (∀ (s u : State) (id ch c : Nat) (offs : List Int) (m : Miss) (p : Peer), s.missById id = some m → s.takeWord m ch = some u →
    ch ≠ ppaCh m.ppa → m.peers.find? (fun x => decide (x.ch = ch)) = some p → m.readsPeer ch = true → s.channelServes m ch = true →
    p.step = 1 → c ≤ 24 → m.peers.any (fun x => decide (x.st = .failed)) = false →
    Does (.codewordDecoded id ch .good c offs) s [.slices, .media, .reg, .obs, .perf] (fun t =>
      t.missById id = some (m.setPeer { p with st := .good }))) ∧
  (∀ (s : State) (id : Nat) (r : Decode) (m : Miss), s.missById id = some m → m.combinable = true → m.step = 3 → r ≠ .good →
    s.dieFailed? (ppaDie m.ppa) = false →
    Does (.stripeCombineDone id r) s [.slices, .media, .reg, .obs, .perf, .rstats] (fun t =>
      (∃ x, t.missById id = some x ∧ x.step = 4 ∧ x.tgt = .reading ∧ x.recon = true ∧ x.line = m.line ∧ x.ppa = m.ppa) ∧
      t.rstats.soft2 = s.rstats.soft2 + 1)) ∧
  (∀ (s : State) (id : Nat) (r : Decode) (m : Miss), s.missById id = some m → m.combinable = true → m.step = 4 → r ≠ .good →
    m.kind = .demand → m.stale = false → s.poisoned m.line = false →
    Does (.stripeCombineDone id r) s [.pwr, .port, .reqs, .slices, .media, .map, .care, .atom, .reg, .mbox, .obs, .perf, .firkin,
      .rstats, .cmds, .clk] (fun t => t.poisoned m.line = true ∧ t.missById id = none ∧
      t.rstats.poisoned = s.rstats.poisoned + 1)) ∧
  (∀ (s : State) (id : Nat) (r : Req) (m : Miss), s.missById id = some m → m.combinable = true → s.stripeWhole m.ppa = true → s.pendingLine m.line = false →
    m.kind = .demand → m.stale = false → s.lostAt m.ppa m.slot = false → s.isMerging m.line = false → m.parts = [] →
    s.reqs.list.filter (fun q => decide (q.line = m.line) && decide (q.stage = .attached)) = [r] → r.kind = .read →
    r.entry ≠ internal →
    Does (.stripeCombineDone id .good) s [.pwr, .port, .reqs, .fc, .tier, .slices, .media, .map, .care, .reg, .obs, .perf, .firkin,
      .rstats, .cmds] (fun t => t.missById id = none ∧
      t.port.out = s.port.out ++ [⟨r.key, r.tag, s.readResp r.line (s.viewAt m.ppa m.slot)⟩]))

/-- Fills, merges, keys and map units (R123, R138, R139, R147, R148, R226, R373, R403). A prefetch that takes the die bus (1) with a failed
decode is dropped and counted; (2) with a good one, its sector not in the tier but a way for it there, no line of it written meanwhile
and none under a lost key, it fills the tier. (3) The fill of a Filling sector whose codewords have all ended good, none of its
lines under a lost key, makes every line of the sector present, and the fetch ends. A Merging line whose base the tier holds
(4) is merged with it, over zeros where it is poisoned; (5) with an uncorrectable burst there it is merged over zeros and poisoned. (6)
So is one whose base was fetched from media and failed. (7) An unwrapped key enters the key cache and the fetches that wait for it go
on; with a full cache its oldest key leaves. (8) A map unit of another type than a grain segment is noted as loaded. (9) A condition of
the bound whose cause has ended clears 10 s after it last failed. -/
def Obligations.FillsAndMerges : Prop :=
  (∀ (s : State) (pf : Nat) (x : Prefetch) (r : Decode), Tab.look s.slices.prefetches pf = some x →
    s.innerTurn (ppaCh x.ppa) = true → r ≠ .good →
    Does (.prefetchDone pf r) s [.slices, .media, .rstats] (fun t =>
      t.slices = { s.slices with prefetches := Tab.erase s.slices.prefetches pf } ∧
      t.rstats = { s.rstats with pfDropped := s.rstats.pfDropped + 1 })) ∧
  (∀ (s : State) (pf : Nat) (x : Prefetch), Tab.look s.slices.prefetches pf = some x → s.innerTurn (ppaCh x.ppa) = true →
    s.sector? x.sector = none → (s.tierRoom x.sector).isSome = true → x.written = false →
    (List.range 32).any (fun j => s.storedLost (x.sector * 32 + j)) = false →
    Does (.prefetchDone pf .good) s [.tier, .slices, .media, .obs, .perf] (fun t =>
      (∃ y, t.sector? x.sector = some y ∧ y.filling = false ∧ y.present = BitVec.allOnes 32 ∧ y.st = []) ∧
      t.slices = { s.slices with prefetches := Tab.erase s.slices.prefetches pf })) ∧
  (∀ (s : State) (sec : Nat) (m : Miss) (x : Sector), s.fillOf sec = some m → m.ended = .good → m.parts = [] →
    s.sector? sec = some x → (List.range 32).any (fun j => s.storedLost (sec * 32 + j)) = false →
    Does (.tierFillDone sec) s [.reqs, .tier, .slices, .budget, .media, .reg] (fun t =>
      t.slices.misses = s.slices.misses.filter (fun q => decide (q.id ≠ m.id)) ∧
      ∃ y, t.sector? sec = some y ∧ y.filling = false ∧ y.present = BitVec.allOnes 32)) ∧
  (∀ (s : State) (line : Nat) (x : FcLine) (d : Line), s.fcLine? line = some x → x.st = .merging → s.tierLine? line = some d →
    Does (.mergeBaseArrived line false) s [.reqs, .fc, .tier, .slices, .budget, .media, .reg] (fun t =>
      (∃ y, t.fcLine? line = some y ∧ y.st = .modified ∧
        y.data = mergeBytes (if s.poisoned line then 0 else d) x.data x.mask) ∧ t.poisoned line = s.poisoned line)) ∧
  (∀ (s : State) (line : Nat) (x : FcLine) (d : Line), s.fcLine? line = some x → x.st = .merging → s.tierLine? line = some d →
    Does (.mergeBaseArrived line true) s [.pwr, .reqs, .fc, .tier, .slices, .budget, .media, .map, .reg, .obs, .cmds] (fun t =>
      (∃ y, t.fcLine? line = some y ∧ y.st = .modified ∧ y.data = mergeBytes 0 x.data x.mask) ∧ t.poisoned line = true)) ∧
  (∀ (s : State) (line : Nat) (dramBad : Bool) (x : FcLine) (m : Miss), s.fcLine? line = some x → x.st = .merging →
    s.tierLine? line = none → s.baseOf line = some m → m.ended = .failed →
    Does (.mergeBaseArrived line dramBad) s [.pwr, .reqs, .fc, .tier, .slices, .budget, .media, .map, .reg, .obs, .cmds] (fun t =>
      (∃ y, t.fcLine? line = some y ∧ y.st = .modified ∧ y.data = mergeBytes 0 x.data x.mask) ∧ t.poisoned line = true)) ∧
  (∀ (s : State) (id : Nat), s.keys.cache.contains id = false → (s.keyRec id).st ≠ 0 →
    exec (.keyUnwrapDone id) s = .next { s with
      keys := { s.keys with cache := (if 256 ≤ s.keys.cache.length then s.keys.cache.tail else s.keys.cache) ++ [id] }
      slices := { s.slices with
        misses := s.slices.misses.map (fun m => if m.keyWait = some id then { m with keyWait := none } else m) } }) ∧
  (∀ (s : State) (unitType unit : Nat), s.map.resident = false → unitType ≠ 1 →
    exec (.mapUnitPageIn unitType unit) s = .next { s with map := { s.map with
      paged := Tab.set false s.map.paged (unitType * 2 ^ 32 + unit) true } }) ∧
  (∀ (s : State) (bit : Nat), s.rstats.bits.getLsbD bit = true → s.rstats.failing.getLsbD bit = false →
    Does (.boundConditionClear bit) s [.clk, .obs, .perf, .rstats] (fun t => t.rstats = { s.rstats with
        bits := s.rstats.bits &&& ~~~ ((1 : BitVec 8) <<< bit) } ∧
      t.clk.now = max s.clk.now (Tab.get 0 s.rstats.endedAt bit + 10000000000)))

/-! ## Writes and media -/

/-- Writes at their completion point (R33, R65, R143, R146, R151, R153, R361, R374), no dump running where they move. (1) WRITE_ADMIT, the
oldest write that waits for the budget being a full-line write of a module alone, armed and not in Brine, that its charge now fits, under
policy 00h, to a line the front cache holds that is not poisoned: the line is Modified with the write's data, charged unless it was Dirty
already, the write completes and leaves its pail, and no reservation on the line is left. (2) WRITES_HELD notes the oldest waiting write
not yet reported as reported, 100 ms after its arrival. FRONT_CACHE_EVICT of a full set's line: (3) Unmodified, it is dropped; (4)
Modified, its sector in the tier, it leaves the front cache and is Dirty in the tier with its data; so is (5), by TIER_SECTOR_FREED, a
Modified line that waited for the sector. -/
def Obligations.WritesLand : Prop :=
  (∀ (s : State) (r : Req) (x : FcLine), s.firstHeld = some r → r.kind = .write → r.be = fullMask → r.poison = false →
    r.entry ≠ internal → s.inBrine = false → s.yoke.member = 0 → s.pwr.armed = true → s.dumping = false → s.admits r.line = true →
    s.policyNow r.policy = 0 → s.fcLine? r.line = some x → s.poisoned r.line = false →
    Does .writeAdmit s [.pwr, .port, .reqs, .fc, .tier, .slices, .budget, .care, .atom, .reg, .obs, .perf, .firkin, .rstats, .cmds]
      (fun t => t.fcLine? r.line = some { x with
        st := .modified
        data := r.data
        mask := 0
        through := false } ∧ (s.isDirty r.line = false → t.isCharged r.line = true) ∧
      t.port.out = s.port.out ++ [⟨r.key, r.tag, .complete⟩] ∧
      (∀ q ∈ t.reqs.list, q.id ≠ r.id) ∧
      (∀ q ∈ t.atom.res, q.line ≠ r.line))) ∧
  (∀ (s : State) (r : Req),
    s.reqs.list.find? (fun q => decide (q.stage = .budget) && !s.budget.heldLogged.contains q.id) = some r →
    Does .writesHeld s [.clk, .budget, .obs, .perf] (fun t => t.budget = { s.budget with
        heldLogged := s.budget.heldLogged ++ [r.id] } ∧ t.clk.now = max s.clk.now (r.arrival + 100000000))) ∧
  (∀ (s : State) (slice set w line : Nat) (x : FcLine), s.fastOn = true → s.dumping = false → s.fcWay (slice * 2048 + set) = some (w, some line) →
    s.fcLine? line = some x → x.st = .unmodified →
    exec (.frontCacheEvict slice set .none) s = .next { s with fc := { s.fc with lines := Tab.erase s.fc.lines line } }) ∧
  (∀ (s : State) (slice set w line : Nat) (x : FcLine) (y : Sector), s.fastOn = true → s.dumping = false →
    s.fcWay (slice * 2048 + set) = some (w, some line) → s.fcLine? line = some x → x.st = .modified →
    s.sector? (sectorOf line) = some y →
    Does (.frontCacheEvict slice set .none) s [.fc, .tier, .perf, .obs] (fun t => t.fcLine? line = none ∧
      ∃ z, t.sector? (sectorOf line) = some z ∧ z.lineSt (line % 32) = .dirty ∧ Tab.get 0 z.data (line % 32) = x.data)) ∧
  (∀ (s : State) (slice set line : Nat) (x : FcLine) (y : Sector), s.dumping = false →
    s.waitingLine (slice * s.ident.variant.tierSets + set) = some (line, x) → x.st = .modified →
    s.sector? (sectorOf line) = some y →
    Does (.tierSectorFreed slice set) s [.fc, .tier, .perf, .obs] (fun t => t.fcLine? line = none ∧
      ∃ z, t.sector? (sectorOf line) = some z ∧ z.lineSt (line % 32) = .dirty ∧ Tab.get 0 z.data (line % 32) = x.data))

/-- Writebacks, leave and tokens (R129, R130, R154, R161 to R163, R438, R439). (1) WRITEBACK_START, the masters running, the journal not
full and no restore under way: the grain chosen, its dirty lines taken, too many for the log, and a page placed for it, that page is a
grain page of the grain, not yet verified, its program waits with the act of a writeback, and the writeback is listed with its priority
and the lines taken. (2) DIRTY_AGE_EXPIRED queues the grain of the line dirty longest and keeps every charge, once DirtyAgeLimit has
passed. LEAVE_GRANT outside a dump, one request waiting: (3) one that can start and fits the pool is granted; (4) one that does not fit
waits, no program waiting in a group that takes no more. (5) A row's free token goes to the next die operation in the order of request
that no queued host read holds back. (6) At WINDOW_END the token is free, and an operation with windows left asks again unless a read is
queued for its die. -/
def Obligations.WritebackAndLeave : Prop :=
  (∀ (s s1 r s2 u : State) (reads : List WordRead) (bad : List (Nat × Nat)) (g prio ppa : Nat), s.mastersRun = true →
    s.journalFull = false → s.pwr.arm ≠ 4 → s.queueAged.pressBlocked.noteLimits.nextWriteback = some (g, prio, s1) →
    s1.readLines ((s1.dirtyLines g).filter s1.needsBase) [] reads = (bad, r) →
    s2 = (s1.dirtyLines g).foldl (fun t l => t.takeLine bad l) r → s2.writingLines g ≠ [] →
    s2.appends g (s2.writingLines g) = false → s2.place .grain none .writeback = some (ppa, u) →
    Does (.writebackStart reads) s [.pwr, .reqs, .fc, .tier, .slices, .budget, .media, .map, .care, .keys, .reg, .obs, .perf,
      .cmds] (fun t =>
      (t.page? ppa).map (fun p => (p.kind, p.owner, p.verified)) = some (1, g, false) ∧
      t.media.passes.getLast?.map (fun p => (p.ppa, p.act, p.programmed)) = some (ppa, .writeback, false) ∧
      t.budget.running.getLast? = some ⟨g, prio, s2.writingLines g⟩)) ∧
  (∀ (s : State) (l a : Nat), s.fastOn = true → s.oldestCharge = some (l, a) →
    Does .dirtyAgeExpired s [.clk, .budget, .obs, .perf] (fun t => (Tab.look t.budget.queued (grainOf l)).isSome = true ∧
      t.budget.charged = s.budget.charged ∧
      t.clk.now = max s.clk.now (a + s.entry 0x2010 5 * 1000000000 + 1))) ∧
  (∀ (s : State) (l : Leave), s.fastOn = true → s.pwr.arm ≠ 5 → s.reg.waiting = [l] → s.startable l = true →
    s.grantedQ + l.cost ≤ s.pool →
    Does .leaveGrant s [.pwr, .media, .map, .reg, .obs, .perf, .cmds] (fun t => t.reg.granted = s.reg.granted ++ [l] ∧
      t.reg.waiting = [])) ∧
  (∀ (s : State) (l : Leave), s.fastOn = true → (∀ p ∈ s.media.passes, s.takesPrograms (ppaGroup p.ppa) = true) →
    s.reg.waiting = [l] → s.pool < s.grantedQ + l.cost →
    exec .leaveGrant s = .next s) ∧
  (∀ (s : State) (pos k : Nat) (o : DieOp), Tab.look s.media.tokens pos = none → Tab.look s.media.ops k = some o →
    s.nextToken pos = some k →
    exec (.windowTokenGrant pos) s = .next { s with media := { s.media with
      tokens := Tab.put s.media.tokens pos k
      tokenQueue := s.media.tokenQueue.filter (fun x => decide (x ≠ k))
      ops := Tab.put s.media.ops k { o with inWindow := true } } }) ∧
  (∀ (s : State) (pos k : Nat) (o : DieOp), Tab.look s.media.tokens pos = some k → Tab.look s.media.ops k = some o →
    exec (.windowEnd pos) s = .next { s with media := { s.media with
      tokens := Tab.erase s.media.tokens pos
      tokenQueue := if o.windows + 1 < o.mostWindows ∧ !s.readQueued o.die then s.media.tokenQueue ++ [k]
        else s.media.tokenQueue
      ops := Tab.put s.media.ops k { o with
        inWindow := false
        windows := o.windows + 1 } } })

/-- Programs, verifies and resets (R195, R202, R203, R210). (1) PROGRAM_PASS_DONE without failure, of a page whose program was started
alone and whose die operation has its data, is outside its window and serves no suspended read: the operation and its leave are gone,
the die's last work is now, and the page's bytes are counted, as skim traffic too where they are a skim's or a fold's. (2) PAGE_VERIFY
of a writeback's page of a grain not mapped, all codewords converging with at most 40 corrected bits: the grain is mapped to that page
and one rewrite is counted. (3) CLOSE_VERIFY_DONE that finds nothing, of a Closing group with valid data, no stripe bare of its XOR page
and no move or program under way, in service with at most one absent column: the group is Closed and no page of it changes. (4)
BLOCK_RESET_DONE without failed blocks, of a Resetting group in the same service: the group is Free, one erase older and without
pages, and its leave is given back. -/
def Obligations.ProgramsAndResets : Prop :=
  (∀ (s : State) (id : Nat) (reads : List WordRead) (p : Pass) (o : DieOp), s.media.passes.find? (fun q => decide (q.id = id)) = some p →
    p.started = true → p.programmed = false → s.passShared p = false → Tab.look s.media.ops p.op = some o → o.loaded = true →
    o.inWindow = false → o.serving = [] → s.stripeDone (ppaGroup p.ppa) (ppaPage p.ppa) = false →
    Does (.programPassDone id false [] [] reads) s [.pwr, .slices, .media, .map, .care, .reg, .obs, .perf, .cmds] (fun t =>
      t.care = { s.care with
        mediaBytes := s.care.mediaBytes + 16384
        skimBytes := if p.act ∈ [Act.skimming, .folding] then s.care.skimBytes + 16384 else s.care.skimBytes } ∧
      Tab.look t.media.ops p.op = none ∧ (∀ l ∈ t.reg.granted, l.id ≠ p.op) ∧
      Tab.look t.media.lastOp (ppaCh p.ppa) = some s.clk.now)) ∧
  (∀ (s : State) (ppa corrected : Nat) (p : Pass) (pg : Page), s.still = false → corrected ≤ 40 →
    s.media.passes.find? (fun q => decide (q.ppa = ppa) && q.programmed && !(s.still && decide (q.act ≠ .writeback))) = some p →
    p.ppa = ppa → p.act = .writeback → p.src = none → s.page? ppa = some pg → pg.kind = 1 → s.setOf ppa = none →
    s.isMapped pg.owner = false →
    Does (.pageVerify ppa corrected true [] []) s [.pwr, .port, .reqs, .fc, .tier, .slices, .budget, .media, .map, .care, .yoke,
      .atom, .keys, .reg, .tabs, .mbox, .obs, .perf, .firkin, .rstats, .cmds] (fun t => t.isMapped pg.owner = true ∧
      (t.mapEntry pg.owner).page = ppa ∧ t.budget.rewrites = s.budget.rewrites + 1)) ∧
  (∀ (s : State) (g : Nat), (s.grp g).st = .closing → s.still = false → (s.grp g).checked = false →
    s.media.passes = [] → s.bareStripes g = [] → s.media.relocQueue = [] → s.validPages g ≠ [] → s.slotGroup g = false →
    s.floorGroup g = false → s.deadColumn (g / 4096) = none → (s.grp g).second = false →
    (∀ kv ∈ s.media.retiredBlocks, kv.2 ≤ 64) →
    Does (.closeVerifyDone g [] [] []) s [.pwr, .media, .map, .care, .yoke, .reg, .obs, .perf, .cmds] (fun t =>
      (t.grp g).st = .closed ∧ ∀ p, ppaGroup p = g → t.page? p = s.page? p)) ∧
  (∀ (s : State) (g : Nat), (s.grp g).st = .resetting → s.still = false → (s.grp g).retireCols = [] → s.slotGroup g = false →
    s.floorGroup g = false → s.deadColumn (g / 4096) = none → s.media.relocQueue = [] → s.yoke.sectorGot = [] →
    (∀ kv ∈ s.media.retiredBlocks, kv.2 ≤ 64) →
    Does (.blockResetDone g []) s [.pwr, .media, .map, .care, .yoke, .reg, .obs, .perf, .rstats, .cmds] (fun t =>
      (t.grp g).st = .free ∧ (t.grp g).erase = min ((s.grp g).erase + 1) 0xFFFFFF ∧
      (∀ kp ∈ t.media.pages, ppaGroup kp.1 ≠ g) ∧ ∀ l ∈ t.reg.granted, l.id ≠ resetId g))

/-- Failed dies, laps and the resident map (R138, R205, R206, R220, R221, R226). DIE_FAILED (1) of a die of the variant that is in service
records it as failed and fails bit 0 of the class-0 bound for as long as that lasts; (2) of one already failed, it does nothing. (3)
REBUILD_PHASE_DONE with nothing left to move in phase 1 leads to phase 2 of the same die. (4) LAP_START at a trigger, with the masters
running, not Prepared, the map resident and no lap under way: lap n + 1 runs from the map as it stands, over the units changed since their
last copy, S0 the Sequence of its LapStart, no root placed yet, and the lap before stays in force. LAP_COMPLETE (5) with every other page
of the lap verified and a place for it programs the root page, Kind 04h with the lap as Owner; (6) with the root verified the running lap
becomes the checkpoint in force, with the extents of both laps that are still live, and the map's entries stay. (7) MAP_RESIDENT once the
module serves, no read waiting for a unit: the map is resident with its entries, and bit 5's cause has ended. -/
def Obligations.RebuildAndLaps : Prop :=
  (∀ (s : State) (pos ch : Nat) (ls : List Nat), pos < s.ident.variant.positions → Tab.get 0 s.media.dieSt (pos * 16 + ch) = 0 →
    Does (.dieFailed pos ch ls) s [.pwr, .port, .reqs, .fc, .tier, .slices, .budget, .media, .map, .care, .yoke, .atom, .keys, .reg,
      .mbox, .obs, .perf, .firkin, .rstats, .cmds] (fun t =>
      Tab.get 0 t.media.dieSt (pos * 16 + ch) = 1 ∧ t.rstats.bits.getLsbD 0 = true ∧ t.rstats.failing.getLsbD 0 = true)) ∧
  (∀ (s : State) (pos ch : Nat) (ls : List Nat), Tab.get 0 s.media.dieSt (pos * 16 + ch) ≠ 0 →
    exec (.dieFailed pos ch ls) s = .next s) ∧
  (∀ s : State, s.fastOn = true → s.still = false → s.rebuildPages = [] → s.media.rebuildPhase = 1 →
    Does .rebuildPhaseDone s [.pwr, .media, .map, .care, .yoke, .reg, .obs, .perf, .rstats, .cmds] (fun t =>
      t.media.rebuildPhase = 2 ∧ t.media.rebuildDie = s.media.rebuildDie ∧
      Tab.get 0 t.media.dieSt s.media.rebuildDie = 2)) ∧
  (∀ s : State, s.mastersRun = true → s.still = false → s.map.lapRunning = false → s.map.resident = true →
    s.lapTriggered = true →
    Does .lapStart s [.pwr, .media, .map, .care, .reg, .obs, .perf, .cmds] (fun t => t.map.lapRunning = true ∧
      t.map.lapDue = false ∧ t.map.lapStarted = s.clk.now ∧ t.map.lapNext.lap = s.map.ckpt.lap + 1 ∧
      t.map.lapNext.entries = s.map.entries ∧ t.map.entries = s.map.entries ∧ t.map.ckpt = s.map.ckpt ∧
      t.map.lapNext.seq = s.map.seq ∧ t.map.lapNext.root = 0 ∧
      t.map.lapNext.extents.map (fun e => (e.lap, e.units)) = [(s.map.ckpt.lap + 1, s.changedUnits)])) ∧
  (∀ (s u : State) (ppa : Nat), s.map.lapRunning = true → s.still = false →
    s.media.passes.any (fun p => decide (p.act = .lap)) = false → s.map.lapNext.extents.all (fun e =>
      decide (e.count ≤ e.pages.length)) = true → s.map.lapNext.root = 0 → s.place .checkpoint none .lap = some (ppa, u) →
    Does .lapComplete s [.pwr, .slices, .media, .map, .care, .reg, .obs, .perf, .cmds] (fun t => t.map.lapRunning = true ∧
      t.map.lapNext.root = ppa + 1 ∧ (t.page? ppa).map (fun p => (p.kind, p.owner)) = some (4, s.map.lapNext.lap) ∧
      t.map.ckpt = s.map.ckpt ∧ t.map.entries = s.map.entries)) ∧
  (∀ s : State, s.lapWritten = true → s.still = false →
    Does .lapComplete s [.pwr, .fc, .tier, .slices, .budget, .media, .map, .care, .yoke, .keys, .reg, .obs, .perf, .rstats, .cmds]
      (fun t => t.map.lapRunning = false ∧ t.map.ckpt.lap = s.map.lapNext.lap ∧ t.map.ckpt.root = s.map.lapNext.root ∧
      t.map.ckpt.seq = s.map.lapNext.seq ∧ t.map.ckpt.entries = s.map.lapNext.entries ∧
      t.map.ckpt.extents = liveExtents s.ident.variant (s.map.ckpt.extents ++ s.map.lapNext.extents) ∧
      t.map.entries = s.map.entries)) ∧
  (∀ s : State, s.fastOn = true → s.pwr.memoryActive = true → s.map.resident = false → s.slices.misses.filter (fun m => m.pageIn) = [] →
    Does .mapResident s [.pwr, .media, .map, .care, .reg, .obs, .perf, .rstats, .cmds] (fun t => t.map.resident = true ∧
      t.map.paged = [] ∧ t.map.entries = s.map.entries ∧ t.rstats.failing.getLsbD 5 = false))

/-! ## Media care and atomics -/

/-- Copy streams (R232, R238 to R245, R254), the masters running, not Prepared and the map resident, for a victim whose one valid page is a
grain page that can be placed: (1) SKIM_VICTIM_SELECT below the start level, no line-log limit reached and fewer than 4 streams, the best
candidate without a step-4 soft decode: it gets a copy set of that page and the page placed for it, and the program's leave has the highest
priority while skimming is urgent, else the normal one; (2) IDLE_SKIM_START, enabled and with no request in the module, 100 ms after
the last host request, chooses among the candidates of at most IdleCeiling at the lowest priority; (3) REPOUR_START takes first, with
2224h once its copy has started, a group due with a step-4 soft decode, at the highest priority. (4) COPY_SET_SWITCH of a set of one page,
all of it verified, its target good and the journal not full: the grain whose entry still names the source is mapped to the copy. (5) With a
target block found failing no mapping changes, and the block's column is absent, or is a further absent one of its group. -/
def Obligations.CopyStreams : Prop :=
  (∀ (s u : State) (g ppa dst : Nat) (p : Page) (q : Pass), s.mastersRun = true → s.still = false →
    s.map.resident = true → s.skimLevel.care.skim ∈ [1, 2] → s.skimLevel.logLimits = [] → s.skimLevel.streamCount < 4 →
    s.skimLevel.bestVictim s.skimLevel.skimCandidates = some g → (s.grp g).deep = false → s.skimLevel.validPages g = [ppa] →
    s.page? ppa = some p → p.kind = 1 → s.skimLevel.movePage ppa .skimming 1 (some g) = some u →
    u.media.passes.getLast? = some q → q.ppa = dst →
    Does .skimVictimSelect s [.pwr, .slices, .media, .map, .care, .yoke, .reg, .obs, .perf, .cmds] (fun t =>
      t.care.copySets = s.care.copySets.filter (fun k => decide (k.victim ≠ g)) ++ [⟨g, .skimming, 1, [(ppa, dst)], []⟩] ∧
      t.media.passes = u.media.passes ∧ t.reg = u.reg ∧
      ∀ l ∈ t.reg.waiting, l.id = q.id → t.leavePrio l = if s.skimLevel.care.skim = 2 then 0 else 1)) ∧
  (∀ (s s1 u : State) (g ppa dst : Nat) (p : Page) (q : Pass), s.mastersRun = true → s.still = false →
    s.map.resident = true → s.entry 0x2200 11 ≠ 0 → s.reqs.list = [] →
    s1 = s.elapseTo (s.port.lastHostReq + 100000000) → s1.streamCount < 4 →
    s1.bestVictim (s1.skimCandidates.filter (fun x =>
      decide (s1.validLines x * 100 ≤ s1.entry 0x2200 11 * s1.groupCap x))) = some g → (s.grp g).deep = false →
    s1.validPages g = [ppa] → s.page? ppa = some p → p.kind = 1 →
    (s1.upCare (fun c => { c with skim := if c.skim = 0 then 3 else c.skim })).movePage ppa .skimming 2 (some g) = some u →
    u.media.passes.getLast? = some q → q.ppa = dst →
    Does .idleSkimStart s [.clk, .pwr, .slices, .media, .map, .care, .reg, .obs, .perf, .cmds] (fun t =>
      t.care.copySets = s.care.copySets.filter (fun k => decide (k.victim ≠ g)) ++ [⟨g, .skimming, 2, [(ppa, dst)], []⟩] ∧
      t.care.skim = u.care.skim ∧ t.media.passes = u.media.passes ∧ t.reg = u.reg)) ∧
  (∀ (s u : State) (g ppa dst : Nat) (p : Page) (q : Pass), s.mastersRun = true → s.still = false →
    s.map.resident = true → s.streamCount < 4 →
    ((s.media.groups.filter (fun kg => s.repourDue kg.1 && !s.copying kg.1)).map (fun kg => kg.1)).find? (fun x =>
      (s.grp x).deep) = some g →
    s.validPages g = [ppa] → s.page? ppa = some p → p.kind = 1 →
    s.movePage ppa .repour 0 (some g) = some u → u.media.passes.getLast? = some q → q.ppa = dst →
    Does .repourStart s [.pwr, .slices, .media, .map, .care, .reg, .obs, .perf, .cmds] (fun t =>
      t.care.copySets = s.care.copySets.filter (fun k => decide (k.victim ≠ g)) ++ [⟨g, .repour, 0, [(ppa, dst)], []⟩] ∧
      t.media.passes = u.media.passes ∧ t.reg = u.reg ∧ t.obs = (u.log 0x2224 g).obs)) ∧
  (∀ (s : State) (v src dst prio : Nat) (a : Act) (pg : Page),
    s.care.copySets.find? (fun k => decide (k.victim = v)) = some ⟨v, a, prio, [(src, dst)], []⟩ → s.still = false →
    s.journalFull = false → s.setVerified ⟨v, a, prio, [(src, dst)], []⟩ = true → s.page? dst = some pg →
    (s.mapEntry pg.owner).st = .mapped → (s.mapEntry pg.owner).page = src →
    Does (.copySetSwitch v none) s [.pwr, .port, .reqs, .fc, .tier, .slices, .budget, .media, .map, .care, .yoke, .atom, .keys,
      .reg, .tabs, .mbox, .obs, .perf, .firkin, .rstats, .cmds] (fun t =>
      (t.mapEntry pg.owner).st = .mapped ∧ (t.mapEntry pg.owner).page = dst)) ∧
  (∀ (s : State) (v src dst prio q : Nat) (a : Act),
    s.care.copySets.find? (fun k => decide (k.victim = v)) = some ⟨v, a, prio, [(src, dst)], []⟩ → s.still = false →
    s.journalFull = false → s.setVerified ⟨v, a, prio, [(src, dst)], []⟩ = true → (s.grp (ppaGroup q)).copy = some v →
    (s.grp (ppaGroup q)).st = .opened →
    Does (.copySetSwitch v (some q)) s [.pwr, .port, .reqs, .fc, .tier, .slices, .budget, .media, .map, .care, .yoke, .atom, .keys,
      .reg, .tabs, .mbox, .obs, .perf, .firkin, .rstats, .cmds] (fun t => t.map.entries = s.map.entries ∧
      ((t.grp (ppaGroup q)).absentCol = some (ppaCh q) ∨ ppaCh q ∈ (t.grp (ppaGroup q)).worse)))

/-- What care finds (R253, R256 to R258, R263). (1) RIPENING_CELL_UPDATE, learning enabled, of a cell with at least LearnMinSamples
gathered: its 15 offsets become what `learn` gives of the old ones and the samples, it gathers anew and notes the time, at the earliest 10
s after its last update. With the strainer enabled, running and under leave, the map resident: (2) STRAINER_LAP_END with the highest
Closed group read counts the lap, records its seconds, starts the next at page 0 and logs 2225h; (3) STRAINER_DRAM_LAP_END of a sweep that
found no error counts it, at the earliest after the DRAM's bytes at 1 GB/s, and records its seconds. (4) STRAINER_FINDING of a codeword it
may read of a die in service, no scrub pass running, that converged with at most 24 corrected bits and no more than RelocateBits, notes
the place and the read of its group, moves nothing and changes no page. (5) BRINE_DROP_REPORT with writes dropped counts anew, at the
earliest 1 s after the last report. -/
def Obligations.CareFinds : Prop :=
  (∀ (s : State) (pkg cls band : Nat) (c : Cell), Tab.look s.care.cells (cellKey pkg cls band) = some c → c.gathered ≠ [] →
    s.entry 0x2210 6 ≠ 0 →
    s.entry 0x2210 7 ≤ c.gathered.length →
    Does (.ripeningCellUpdate pkg cls band) s [.clk, .care, .obs, .perf] (fun t =>
      t.care = { s.care with cells := Tab.put s.care.cells (cellKey pkg cls band) { c with
        offsets := (List.range 15).map (fun k => learn (s.entry 0x2210 8) (s.entry 0x2210 9)
          ((s.offsetsOf (cellKey pkg cls band)).getD k 0) (c.gathered.map (fun m => m.getD k 0)))
        gathered := []
        lastUpdate := t.clk.stamp
        lastNow := some t.clk.now } } ∧
      t.clk.now = match c.lastNow with
        | some n => max s.clk.now (n + 10000000000)
        | none => s.clk.now)) ∧
  (∀ s : State, s.strains = true → s.checks = true → s.lapRead = true →
    exec .strainerLapEnd s = .next (State.log 0x2225 ((s.clk.now - s.care.lapStart) / 1000000000) { s with care := { s.care with
      lapNumber := s.care.lapNumber + 1
      lapTime := (s.clk.now - s.care.lapStart) / 1000000000
      lapStart := s.clk.now
      lapPage := 0 } })) ∧
  (∀ s : State, s.strains = true → s.checks = true →
    Does (.strainerDramLapEnd []) s [.clk, .care, .obs, .perf] (fun t => t.care = { s.care with
        dramLaps := s.care.dramLaps + 1
        dramLapTime := (t.clk.now - s.care.dramLapStart) / 1000000000
        dramLapStart := t.clk.now } ∧
      t.clk.now = max s.clk.now (s.care.dramLapStart + s.ident.variant.dramBytes))) ∧
  (∀ (s : State) (ppa cw c : Nat), s.mayCheck ppa cw = true → s.scrubs = false → s.dieFailed? (ppaDie ppa) = false → c ≤ 24 → c ≤ s.entry 0x2240 3 →
    Does (.strainerFinding ppa cw (.converged c)) s [.clk, .slices, .media, .care, .obs, .perf] (fun t => t.care.lapPage = ppa + 1 ∧
      t.care.cells = s.care.cells ∧
      t.media.groups = Tab.set {} s.media.groups (ppaGroup ppa) {
        Tab.get ({} : Group) s.media.groups (ppaGroup ppa) with
        reads := (Tab.get ({} : Group) s.media.groups (ppaGroup ppa)).reads + 1 } ∧
      t.media.pages = s.media.pages ∧ t.media.relocQueue = s.media.relocQueue)) ∧
  (∀ s : State, s.care.brineSecond ≠ 0 → Does .brineDropReport s [.clk, .care, .obs, .perf] (fun t => t.care = { s.care with
      brineSecond := 0
      lastBrineReport := t.clk.now } ∧ t.clk.now = max s.clk.now (s.care.lastBrineReport + 1000000000)))

/-- Atomics windows (R98, R292 to R298, R300). With an entry that has the capability and the right in a window, its target in a range, no
wipe running, the module not fenced, and room in the target's slice where no other request for the line waits: (1) a RESERVED_READ that
hits the front cache, at most 511 reservations in its slice, answers the line's data and records the reservation with its time in place of
the partner's earlier one there. (2) A CONDITIONAL_WRITE whose outcome is not Stored completes, stores nothing, ends the partner's
reservation in the slice and sets the status word: sequence, outcome, line. (3) One of the whole line with the reservation held, in an
armed module alone that is not in Brine and whose budget admits it, under policy 00h, to a line the front cache holds, leaves the line
Modified with its data, completes, is counted as Stored, and ends every reservation on the line and the partner's in the slice. (4)
RESERVATION_TABLE_ROOM of a full slice's table whose waiting reserved read finds its line current here and not pending: its oldest
reservation ends, more than 2 µs old, the read is answered and its reservation recorded. Without the capability or the right (5) a
reserved read gets poison and (6) a conditional write completes, with outcome Refused (9) in the status word; both are counted and store
nothing. -/
def Obligations.AtomicsWork : Prop :=
  (∀ (s : State) (key addr tag n target : Nat) (w r : Range) (x : FcLine), s.accepts = true → s.hasCredit false = true →
    s.selectEntry (s.keyOf key) = some n → n ≠ internal → s.decodeDpa addr = .window w target → s.hasCap n 2 = true →
    s.mayRead n w.group = true → s.windowTarget w.group target = some r → s.blocked = false →
    s.pailCount (sliceOf target) < 2048 →
    s.reqs.list.any (fun q => decide (q.stage = .ingress) && decide (q.slice = sliceOf target)) = false →
    (∀ q ∈ s.reqs.list, q.id ≠ s.reqs.next ∧ q.line ≠ target / 64) → s.staleGrain (grainOf (target / 64)) = false →
    s.pendingLine (target / 64) = false → s.fcLine? (target / 64) = some x → x.st ≠ .merging → s.fc.disabling = false →
    (s.atom.res.filter (fun y => decide (y.slice = sliceOf target))).length < 512 →
    Does (.reservedRead key addr tag .none) s [.port, .reqs, .slices, .fc, .tier, .care, .atom, .reg, .obs, .perf, .firkin, .rstats]
      (fun t => t.atom.res = s.atom.res.filter (fun y => !(decide (y.slice = sliceOf target) && decide (y.entry = n))) ++
        [⟨sliceOf target, n, target / 64, s.clk.now⟩] ∧
      t.port.out = s.port.out ++ [⟨s.keyOf key, tag, s.readResp (target / 64) x.data⟩] ∧ t.reqs.list = s.reqs.list)) ∧
  (∀ (s : State) (key addr tag n target : Nat) (w r : Range) (d : Line) (be : Mask) (p : Bool), s.accepts = true →
    s.hasCredit true = true → s.selectEntry (s.keyOf key) = some n → n ≠ internal → s.decodeDpa addr = .window w target →
    s.hasCap n 2 = true → s.mayWrite n w.group = true → s.windowTarget w.group target = some r → s.blocked = false →
    s.pailCount (sliceOf target) < 2048 →
    s.reqs.list.any (fun q => decide (q.stage = .ingress) && decide (q.slice = sliceOf target)) = false →
    (∀ q ∈ s.reqs.list, q.id ≠ s.reqs.next ∧ q.line ≠ target / 64) → s.yoke.member ≠ 3 →
    (be = 0 ∨ s.inBrine = true ∨ s.admits (target / 64) = true) → s.condOutcome n (target / 64) ≠ 1 →
    Does (.conditionalWrite key addr tag d be p) s [.port, .reqs, .slices, .care, .atom, .reg, .obs, .perf, .firkin, .rstats]
      (fun t => t.port.out = s.port.out ++ [⟨s.keyOf key, tag, .complete⟩] ∧ t.reqs.list = s.reqs.list ∧
      (∀ y ∈ t.atom.res, ¬ (y.slice = sliceOf target ∧ y.entry = n)) ∧ t.atom.stored = s.atom.stored ∧
      Tab.look t.atom.status (n * 32 + sliceOf target) = some (
        (bits (s.statusWord n (sliceOf target)) 63 48 + 1) % 65536 * 2 ^ 48 +
          s.condOutcome n (target / 64) * 2 ^ 44 + target / 64))) ∧
  (∀ (s : State) (key addr tag n target : Nat) (w r : Range) (d : Line) (x : FcLine), s.accepts = true →
    s.hasCredit true = true → s.selectEntry (s.keyOf key) = some n → n ≠ internal → s.decodeDpa addr = .window w target →
    s.hasCap n 2 = true → s.mayWrite n w.group = true → s.windowTarget w.group target = some r → s.blocked = false →
    s.pailCount (sliceOf target) < 2048 →
    s.reqs.list.any (fun q => decide (q.stage = .ingress) && decide (q.slice = sliceOf target)) = false →
    (∀ q ∈ s.reqs.list, q.id ≠ s.reqs.next ∧ q.line ≠ target / 64) → s.yoke.member = 0 → s.inBrine = false →
    s.pwr.armed = true → s.admits (target / 64) = true → s.condOutcome n (target / 64) = 1 → s.policyNow r.policy = 0 →
    s.fcLine? (target / 64) = some x → s.poisoned (target / 64) = false →
    Does (.conditionalWrite key addr tag d fullMask false) s
      [.pwr, .port, .reqs, .slices, .fc, .tier, .budget, .care, .atom, .reg, .obs, .perf, .firkin, .rstats, .cmds] (fun t =>
      t.fcLine? (target / 64) = some { x with
        st := .modified
        data := d
        mask := 0
        through := false } ∧
      t.port.out = s.port.out ++ [⟨s.keyOf key, tag, .complete⟩] ∧ t.atom.stored = s.atom.stored + 1 ∧
      (∀ y ∈ t.atom.res, ¬ (y.slice = sliceOf target ∧ y.entry = n) ∧ y.line ≠ target / 64))) ∧
  (∀ (s : State) (slice : Nat) (r : Req) (y : Resv),
    s.reqs.list.find? (fun q => decide (q.stage = .reservation) && decide (q.slice = slice)) = some r → r.kind = .resRead →
    r.entry ≠ internal → s.fastOn = true → s.dumping = false → s.staleGrain (grainOf r.line) = false → s.isMerging r.line = false →
    s.pendingLine r.line = false → s.atom.res.find? (fun q => decide (q.slice = slice)) = some y →
    (s.atom.res.filter (fun q => decide (q.slice = slice))).any (fun q => decide (q.entry = r.entry)) = false →
    512 ≤ (s.atom.res.filter (fun q => decide (q.slice = slice))).length →
    Does (.reservationTableRoom slice .none) s [.clk, .port, .reqs, .slices, .care, .atom, .reg, .obs, .perf, .firkin, .rstats] (fun t =>
      ⟨slice, r.entry, r.line, max s.clk.now (y.made + 2001)⟩ ∈ t.atom.res ∧ y ∉ t.atom.res ∧
      t.port.out = s.port.out ++ [⟨r.key, r.tag, s.readResp r.line (s.current r.line)⟩] ∧
      t.clk.now = max s.clk.now (y.made + 2001))) ∧
  (∀ (s : State) (key addr tag n target : Nat) (fault : CacheFault) (w : Range), s.accepts = true → s.hasCredit false = true →
    s.selectEntry (s.keyOf key) = some n → s.decodeDpa addr = .window w target →
    (s.hasCap n 2 = false ∨ s.mayRead n w.group = false) →
    Does (.reservedRead key addr tag fault) s [.port, .obs, .perf] (fun t => t.port.rights = min (s.port.rights + 1) 0xFFFFFFFF ∧
      t.port.out = s.port.out ++ [⟨s.keyOf key, tag, .poison⟩])) ∧
  (∀ (s : State) (key addr tag n target : Nat) (w : Range) (d : Line) (be : Mask) (p : Bool), s.accepts = true →
    s.hasCredit true = true → s.selectEntry (s.keyOf key) = some n → s.decodeDpa addr = .window w target →
    (s.hasCap n 2 = false ∨ s.mayWrite n w.group = false) →
    Does (.conditionalWrite key addr tag d be p) s [.port, .atom, .obs, .perf] (fun t =>
      t.port.rights = min (s.port.rights + 1) 0xFFFFFFFF ∧ t.port.out = s.port.out ++ [⟨s.keyOf key, tag, .complete⟩] ∧
      Tab.look t.atom.status (n * 32 + sliceOf target) = some (
        (bits (s.statusWord n (sliceOf target)) 63 48 + 1) % 65536 * 2 ^ 48 + 9 * 2 ^ 44 + target / 64)))

/-! ## The yoke -/

/-- The yoke's link, its frames and the messages sent on time (R307, R315 to R317, R319, R321, R325, R327). YOKE_TRAINING_DONE at a yoke
port: (1) at 64 GT/s x4 in a pair the link runs, with a new frame stream in both directions, the credits the peer gives and nothing else
changed; (2) at any speed and width it can train at, outside a pair, it runs and Hello goes out on a credit of its class.
YOKE_FRAME_RECEIVE on a running link: (3) a frame whose CRC holds that is the next of the stream, the messages that end in it of known
types and none waiting here for a credit, moves the stream on, keeps the message still arriving, drops the frames it acknowledges, adds the
credits it returns and is a sign of life; (4) a frame whose CRC fails or that is not the next changes nothing. (5) YOKE_RETRANSMIT
with frames unacknowledged sends each again with the acknowledgement of now, 2 µs after the last one moved on, and counts them as
replayed, up to the counter's limit; (6) with none it changes nothing. (7) HEARTBEAT_SEND sends a Heartbeat with the membership
payload in a frame of its own, credit or none. (8) PULSE_SEND of a running keeper with a yoke network sends a Pulse with the
payload to its address, and no frame. A message of the yoke (9) that may leave does, and takes a credit of its class where its type
needs one; (10) one that may not waits behind those before it. -/
def Obligations.YokeLink : Prop :=
  (∀ (s : State) (credits : List Nat), s.yokePort = true → s.yoke.member ∉ [0, 1, 4, 5] →
    exec (.yokeTrainingDone 6 4 credits) s = .next { s with yoke := { s.yoke with
      speed := 6
      width := 4
      cable := true
      silent := false
      lastYoke := s.clk.now
      txSeq := 0
      rxSeq := 0
      unacked := []
      outWait := []
      owed := []
      rxPart := []
      credits := (List.range 3).foldl (fun t c => Tab.set 0 t c (credits.getD c 0)) [] } }) ∧
  (∀ (s : State) (speed width : Nat) (credits : List Nat), s.yokePort = true → trainable speed width = true →
    s.yoke.member ∈ [0, 1, 4, 5] → credits.getD 2 0 ≠ 0 →
    Does (.yokeTrainingDone speed width credits) s [.yoke, .obs, .perf] (fun t => t.yoke.speed = speed ∧ t.yoke.width = width ∧
      t.yoke.silent = false ∧ t.yoke.out.map (fun m => m.ty) = s.yoke.out.map (fun m => m.ty) ++ [0x0C])) ∧
  (∀ (s : State) (frame b : Bytes), s.yokeReady = true → frameGood frame = true →
    frameField frame 31 20 = (s.yoke.rxSeq + 1) % 4096 → b = s.yoke.rxPart ++ (frame.drop 4).take 236 →
    (readStream b.length b).1.all yokeType = true → s.yoke.outWait = [] →
    Does (.yokeFrameReceive frame) s [.yoke, .obs, .perf] (fun t => t.yoke = { s.yoke with
        rxSeq := frameField frame 31 20
        rxPart := (readStream b.length b).2
        unacked := match s.yoke.unacked.findIdx? (fun x => decide (x.seq = frameField frame 19 8)) with
          | some k => s.yoke.unacked.drop (k + 1)
          | none => s.yoke.unacked
        ackAt := if s.yoke.unacked.any (fun x => decide (x.seq = frameField frame 19 8)) then s.clk.now else s.yoke.ackAt
        credits := Tab.set 0 s.yoke.credits (frameField frame 7 6)
          (Tab.get 0 s.yoke.credits (frameField frame 7 6) + frameField frame 5 0)
        lastYoke := s.clk.now
        silent := false })) ∧
  (∀ (s : State) (frame : Bytes), frameGood frame = false ∨ frameField frame 31 20 ≠ (s.yoke.rxSeq + 1) % 4096 →
    exec (.yokeFrameReceive frame) s = .next s) ∧
  (∀ s : State, s.yokeTrained = true → s.yoke.unacked ≠ [] →
    Does .yokeRetransmit s [.clk, .yoke, .obs, .perf] (fun t => t.yoke = { s.yoke with
        sent := s.yoke.sent ++ s.yoke.unacked.map (fun f => { f with ack := s.yoke.rxSeq })
        ackAt := t.clk.now
        frameReplays := min (s.yoke.frameReplays + s.yoke.unacked.length) 0xFFFFFFFF } ∧
      t.clk.now = max s.clk.now (s.yoke.ackAt + 2000))) ∧
  (∀ s : State, s.yoke.unacked = [] → exec .yokeRetransmit s = .next s) ∧
  (∀ s : State, s.yokeTrained = true → s.job 0x8006 = none → Does .heartbeatSend s [.yoke, .obs, .perf] (fun t =>
    t.yoke.out = s.yoke.out ++ [{ ty := 0x0B, body := membershipBytes (s.payload s.yoke.hbSeq) }] ∧
    t.yoke.hbSeq = (s.yoke.hbSeq + 1) % 256 ∧ t.yoke.txSeq = (s.yoke.txSeq + 1) % 4096 ∧ t.yoke.credits = s.yoke.credits)) ∧
  (∀ s : State, s.keeperOn = true → s.entry 0x4100 5 ≠ 0 → Does .pulseSend s [.yoke, .obs, .perf] (fun t =>
    t.yoke.out = s.yoke.out ++ [{ ty := pulseTy, aux := s.entry 0x4100 5, body := membershipBytes (s.payload s.yoke.pulseSeq) }] ∧
    t.yoke.pulseSeq = (s.yoke.pulseSeq + 1) % 256 ∧ t.yoke.txSeq = s.yoke.txSeq)) ∧
  (∀ (s : State) (m : YokeMsg), m.ty < 256 → m.ty ∉ [1, 2, 6] → s.mayPass m.ty = true →
    (s.send m).yoke.out = s.yoke.out ++ [m] ∧ (s.send m).yoke.outWait = s.yoke.outWait ∧
    Tab.get 0 (s.send m).yoke.credits (creditClass m.ty) =
      Tab.get 0 s.yoke.credits (creditClass m.ty) - (if creditFree m.ty then 0 else 1) ∧ s.keepsBut [.yoke, .obs, .perf] (s.send m)) ∧
  (∀ (s : State) (m : YokeMsg), m.ty < 256 → m.ty ∉ [1, 2, 6] → s.mayPass m.ty = false →
    s.send m = { s with yoke := { s.yoke with outWait := s.yoke.outWait ++ [m] } })

/-- Writes over the yoke (R136, R289, R323, R567), on a running link of a Paired module with nothing held, its grain not marked. A message
with a good line CRC of a whole line, not poisoned, that the armed budget admits, under policy 00h, to a line the front cache holds: (1)
FORWARD leaves the line Modified with its data, holds it pending, and sends Ordered; (2) MIRROR leaves it so and sends MirrorAck. (3)
ORDERED for an unconditional Forward of a whole line in flight applies it in the same way, completes its write at the port, ends the
flight and sends MirrorAck. MIRROR_ACK for the first write in flight with the tag: (4) a mirrored one completes its write; (5) a pending
line, held by no other write, is released. READ_FORWARD (6) of a line not pending that the front cache holds sends ReadData with its line
CRC, data and poison, the cache as it was; (7) of a pending one waits. (8) READ_DATA, in a Receiving module, answers the forwarded read it
belongs to, with poison where it says so or its line CRC fails. (9) GRAIN_CHANGE gives the grain its new state and answers it. (10)
GRAIN_CHANGE_ACK gives the grain the state of the zeroing or discard that waited for it. -/
def Obligations.YokeWrites : Prop :=
  (∀ (s : State) (m : YokeWrite) (x : FcLine), s.yokeReady = true → s.yoke.member = 2 → s.yoke.held = [] → s.mayPass 3 = true →
    m.lineOk = true → m.conditional = false → m.full = true → m.poisoned = false → s.inBrine = false → s.marked (grainOf m.line) = false →
    s.pwr.armed = true → s.admits m.line = true → s.policyNow (s.linePolicy m.line) = 0 → s.fcLine? m.line = some x →
    s.poisoned m.line = false →
    Does (.forward m) s [.pwr, .port, .reqs, .fc, .tier, .slices, .budget, .care, .yoke, .atom, .reg, .obs,
      .perf, .firkin, .rstats, .cmds] (fun t =>
      t.fcLine? m.line = some { x with
        st := .modified
        data := m.data
        mask := 0
        through := false } ∧
      t.yoke.flights = s.yoke.flights ++ [⟨m.tag, m.line, none, false, true, m.data, fullMask, false,
        some (s.lineBefore m.line)⟩] ∧
      t.yoke.out = s.yoke.out ++ [{ ty := 3, tag := m.tag }])) ∧
  (∀ (s : State) (m : YokeWrite) (x : FcLine), s.yokeReady = true → s.yoke.member = 2 → s.yoke.held = [] → s.mayPass 4 = true →
    m.lineOk = true → m.full = true → m.poisoned = false → s.inBrine = false → s.forwardOf m.tag = none →
    s.pwr.armed = true → s.admits m.line = true → s.policyNow (s.linePolicy m.line) = 0 → s.fcLine? m.line = some x →
    s.poisoned m.line = false →
    Does (.mirror m) s [.pwr, .port, .reqs, .fc, .tier, .slices, .budget, .care, .yoke, .atom, .reg, .obs,
      .perf, .firkin, .rstats, .cmds] (fun t =>
      t.fcLine? m.line = some { x with
        st := .modified
        data := m.data
        mask := 0
        through := false } ∧
      t.yoke.flights = s.yoke.flights ∧ t.yoke.out = s.yoke.out ++ [{ ty := 4, tag := m.tag }])) ∧
  (∀ (s : State) (tag outcome : Nat) (f : Flight) (r : Req) (x : FcLine), s.yokeReady = true → s.yoke.member = 2 →
    s.yoke.held = [] → s.mayPass 4 = true → s.forwardOf tag = some f → f.conditional = false → f.mask = fullMask → s.flightReq f = some r →
    r.poison = false → r.entry ≠ internal → s.inBrine = false → s.yoke.clearWait = [] → s.pwr.armed = true →
    s.admits f.line = true → s.policyNow (s.linePolicy f.line) = 0 → s.fcLine? f.line = some x → s.poisoned f.line = false →
    Does (.ordered tag outcome) s
      [.pwr, .port, .reqs, .fc, .tier, .slices, .budget, .care, .yoke, .atom, .reg, .obs, .perf, .firkin, .rstats, .cmds] (fun t =>
      t.fcLine? f.line = some { x with
        st := .modified
        data := f.data
        mask := 0
        through := false } ∧
      t.port.out = s.port.out ++ [⟨r.key, r.tag, .complete⟩] ∧ t.yoke.flights = s.yoke.flights.erase f ∧
      t.yoke.out = s.yoke.out ++ [{ ty := 4, tag := f.tag }])) ∧
  (∀ (s : State) (tag : Nat) (f : Flight) (r : Req), s.yokeReady = true → s.yoke.member = 2 →
    s.yoke.flights.find? (fun y => !y.isForward && decide (y.tag = tag) && (y.pending || y.mask ≠ 0)) = some f →
    f.pending = false → s.flightReq f = some r → r.entry ≠ internal → s.pwr.armed = true →
    Does (.mirrorAck tag) s [.port, .reqs, .slices, .care, .yoke, .reg, .obs, .perf, .firkin, .rstats] (fun t =>
      t.port.out = s.port.out ++ [⟨r.key, r.tag, .complete⟩] ∧ t.yoke.flights = s.yoke.flights.erase f)) ∧
  (∀ (s : State) (tag : Nat) (f : Flight), s.yokeReady = true → s.yoke.member = 2 →
    s.yoke.flights.find? (fun y => !y.isForward && decide (y.tag = tag) && (y.pending || y.mask ≠ 0)) = some f →
    f.pending = true → (s.yoke.flights.erase f).any (fun y => y.pending && decide (y.line = f.line)) = false →
    s.yoke.readWait = [] →
    Does (.mirrorAck tag) s [.reqs, .yoke] (fun t => t.yoke.flights = s.yoke.flights.erase f ∧
      ∀ q ∈ t.reqs.list, ¬ (q.line = f.line ∧ q.stage = .line))) ∧
  (∀ (s : State) (tag line : Nat) (x : FcLine), s.yokeReady = true → s.yoke.member = 2 → s.pendingLine line = false →
    s.staleGrain (grainOf line) = false → s.fcLine? line = some x → x.st ≠ .merging → s.fc.disabling = false →
    s.sector? (sectorOf line) = none → s.mayPass 6 = true → (∀ q ∈ s.reqs.list, q.id ≠ s.reqs.next ∧ q.line ≠ line) →
    Does (.readForward tag line) s [.reqs, .fc, .slices, .care, .reg, .yoke, .obs, .perf, .firkin, .rstats] (fun t =>
      t.reqs.list = s.reqs.list ∧ t.yoke.out = s.yoke.out ++ 
        [{ ty := 6, tag := tag, aux := (lineCrc (s.readResp line x.data).bytes).toNat, num := line, full := true,
           data := (s.readResp line x.data).bytes, poisoned := s.poisoned line }])) ∧
  (∀ (s : State) (tag line : Nat), s.yokeReady = true → s.yoke.member = 2 → s.pendingLine line = true →
    exec (.readForward tag line) s = .next { s with yoke := { s.yoke with
      lastYoke := s.clk.now
      silent := false
      owed := Tab.set 0 s.yoke.owed 1 (Tab.get 0 s.yoke.owed 1 + 1)
      readWait := s.yoke.readWait ++ [(tag, line)] } }) ∧
  (∀ (s : State) (tag line : Nat) (d : Line) (p ok : Bool) (f : Flight) (r : Req), s.yokeReady = true → s.yoke.member = 7 →
    s.yoke.flights.find? (fun y => !y.isForward && !y.pending && decide (y.tag = tag) && decide (y.line = line) &&
      decide (y.mask = 0)) = some f → s.flightReq f = some r → r.stage = .forwarded → r.kind = .read → r.entry ≠ internal →
    Does (.readData tag line d p ok) s [.port, .reqs, .slices, .care, .yoke, .reg, .obs, .perf, .firkin, .rstats] (fun t =>
      t.port.out = s.port.out ++ [⟨r.key, r.tag, if p || !ok then .poison else .data d⟩] ∧
      t.yoke.flights = s.yoke.flights.erase f)) ∧
  (∀ (s : State) (g st : Nat), s.yokeReady = true → s.yoke.member = 2 → s.yoke.held = [] → s.mayPass 0x15 = true → st ∈ [0, 2, 3] →
    Does (.grainChange g st) s [.pwr, .port, .reqs, .fc, .tier, .slices, .budget, .media, .map, .care, .yoke, .atom, .keys, .reg, .tabs, .mbox, .obs,
      .perf, .firkin, .rstats, .cmds] (fun t => (t.mapEntry g).st = grainOfCode st ∧
      { ty := 0x15, num := g } ∈ t.yoke.out)) ∧
  (∀ (s : State) (g key : Nat) (j : Job), s.yokeReady = true → s.yoke.member = 2 → s.yoke.held = [] →
    s.cmds.jobs.find? (fun kj => kj.2.acks.contains g && !kj.2.held) = some (key, j) → key ∉ eraseJobs → j.st ∈ [0, 2, 3] →
    Does (.grainChangeAck g) s [.pwr, .port, .reqs, .fc, .tier, .slices, .budget, .media, .map, .care, .yoke, .atom, .keys, .reg, .tabs, .mbox, .obs,
      .perf, .firkin, .rstats, .cmds] (fun t => (t.mapEntry g).st = grainOfCode j.st))

/-- Resync (R342 to R344). RESYNC_GRAIN_READ at a Feeding module whose link is trained: (1) a grain neither mapped nor dirty goes
out as one ResyncSector message with its state; (2) a mapped one as eight, with the content of its sectors after the lines its read lost are
poisoned; each is noted as sent. RESYNC_SECTOR at a Receiving module for a marked grain: (3) the state of an unmapped grain is taken and
acknowledged; (4) the first sector of a mapped grain that arrives is kept. RESYNC_ACK at a Feeding module of a grain it sent: (5) with
others still marked, the grain's bit is clear, it is counted as copied and ResyncClear goes out; (6) for the last one this module is Paired,
its record with LastRole Paired, a current copy and the new PairEpoch. (7) RESYNC_CLEAR at a Receiving module with no write of its own in
flight to the grain, others still marked, clears the bit and counts it. (8) BITMAP_UNIT at a Feeding module marks every grain it names
that the variant has. -/
def Obligations.YokeResync : Prop :=
  (∀ (s : State) (g : Nat) (reads : List WordRead), s.yokeTrained = true → s.yoke.member = 6 → s.nextResync = some g →
    s.isMapped g = false → s.dirtyLines g = [] → s.loggedLines g = [] → s.mayPass 7 = true →
    Does (.resyncGrainRead reads) s [.clk, .pwr, .slices, .media, .map, .care, .yoke, .reg, .obs, .perf, .cmds] (fun t =>
      t.yoke.resyncSent = s.yoke.resyncSent ++ [g] ∧
      t.yoke.out = s.yoke.out ++ [{ ty := 7, num := g, aux := 16 * grainCode (s.mapEntry g).st }])) ∧
  (∀ (s u r : State) (g : Nat) (reads : List WordRead) (bad : List (Nat × Nat)), s.yokeTrained = true → s.yoke.member = 6 →
    s.nextResync = some g → s.isMapped g = true → s.mayPass 7 = true → 8 ≤ Tab.get 0 s.yoke.credits 1 →
    u = (if s.entry 0x4100 6 = 0 then s
      else s.elapseTo (s.yoke.resyncAt + (16384000 + s.entry 0x4100 6 - 1) / s.entry 0x4100 6)) →
    u.readLines (u.unheld ((List.range 256).map (fun j => g * 256 + j))) [] reads = (bad, r) →
    Does (.resyncGrainRead reads) s [.clk, .pwr, .slices, .media, .map, .care, .yoke, .reg, .dram, .gills, .obs, .perf, .rstats,
      .cmds] (fun t => t.yoke.resyncSent = s.yoke.resyncSent ++ [g] ∧
      t.yoke.out = s.yoke.out ++ (List.range 8).map (fun k =>
        { ty := 7, num := g, aux := k + 16, body := (r.loseLines bad).sectorBytes (g * 256 + k * 32) }))) ∧
  (∀ (s : State) (g sector st : Nat) (data : List Line) (bad crcBad : BitVec 32), s.yokeReady = true → s.yoke.member = 7 →
    s.marked g = true → st ≠ 1 → s.mayPass 8 = true →
    Does (.resyncSector g sector st data bad crcBad) s [.pwr, .fc, .tier, .slices, .budget, .media, .map, .care, .yoke, .atom, .keys, .reg, .tabs, .obs,
      .perf, .cmds] (fun t =>
      (t.mapEntry g).st = grainOfCode st ∧ { ty := 8, num := g } ∈ t.yoke.out)) ∧
  (∀ (s : State) (g sector : Nat) (data : List Line) (bad crcBad : BitVec 32), s.yokeReady = true → s.yoke.member = 7 →
    s.marked g = true → s.yoke.sectorGot = [] → Tab.look s.yoke.sectors g = none → sector < 8 →
    Does (.resyncSector g sector 1 data bad crcBad) s [.yoke, .obs, .perf] (fun t => t.yoke.sectorGot = [(g, 2 ^ sector)] ∧
      ∀ j < 32, Tab.get 0 (Tab.get [] t.yoke.sectors g) (sector * 32 + j) = data.getD j 0)) ∧
  (∀ (s : State) (g : Nat), s.yokeReady = true → s.yoke.member = 6 → s.yoke.resyncSent.contains g = true →
    (s.unmark g).divergentCount ≠ 0 → s.mayPass 9 = true → Does (.resyncAck g) s [.pwr, .map, .yoke, .obs, .perf, .cmds] (fun t =>
      t.marked g = false ∧ t.yoke.member = 6 ∧ t.yoke.copied = s.yoke.copied + 1 ∧
      t.yoke.resyncSent = s.yoke.resyncSent.filter (fun x => decide (x ≠ g)) ∧
      t.yoke.out = s.yoke.out ++ [{ ty := 9, num := g }])) ∧
  (∀ (s : State) (g : Nat) (p : Membership), s.yokeReady = true → s.yoke.member = 6 → s.yoke.resyncSent.contains g = true →
    (s.unmark g).divergentCount = 0 → s.yoke.peer = some p →
    Does (.resyncAck g) s [.pwr, .map, .yoke, .keys, .obs, .perf, .cmds] (fun t => t.marked g = false ∧ t.yoke.member = 2 ∧
      t.yoke.record.lastRole = 0 ∧ t.yoke.record.staleSelf = false ∧ t.yoke.record.pairEpoch =
        if p.state = 2 then p.pairEpoch else (max s.yoke.record.pairEpoch p.pairEpoch + 1) % 2 ^ 32)) ∧
  (∀ (s : State) (g : Nat), s.yokeReady = true → s.yoke.member = 7 →
    s.yoke.flights.any (fun f => f.isForward && decide (grainOf f.line = g)) = false → (s.unmark g).divergentCount ≠ 0 →
    Does (.resyncClear g) s [.pwr, .map, .yoke, .obs, .perf, .cmds] (fun t => t.marked g = false ∧ t.yoke.member = 7 ∧
      t.yoke.copied = s.yoke.copied + 1)) ∧
  (∀ (s : State) (unit : Nat) (set : List Nat), s.yokeReady = true → s.yoke.member = 6 →
    Does (.bitmapUnit unit set) s [.pwr, .map, .yoke, .obs, .perf, .cmds] (fun t => ∀ k ∈ set,
      unit * 10240 + k < s.ident.variant.grains → t.marked (unit * 10240 + k) = true))

/-- Membership (R307, R310 to R314, R325 to R334). HEARTBEAT on a running link (1) of a Paired module notes the peer's state; (2) of one
in Suspect, the peer serving with both epochs as known, nothing held and no resync over, takes it back to the state before. HELLO outside
a pair: (3) a failed check other than the first keeps its reason and the state; (4) with all checks passed, both copies equal and neither
module Sole, StaleSelf, a stranger or told to prevail, both epochs become one more than the higher PairEpoch and the module is Paired. (5)
STAND_DOWN in Paired or Feeding leaves this module Sole with a new PairEpoch. MODULE_STAND_DOWN of a member of a pair (6) for a fence and
(7) for Withdraw leaves it Fenced, LastRole Fenced or StoodDown, with no reservation and no write in flight; (8) for another cause it is
Joining, LastRole StoodDown, or Sole where it was Sole. (9) YOKE_SILENT of a Paired module: silent 1 ms after the last frame, and Suspect.
(10) ALIVE_WIRE_STATE without an event and (11) PULSE note what the signal shows and when; (12) ALIVE_WIRE_SILENT and (13) PULSE_SILENT
note its silence, 20 ms and 1 s after it. In Suspect: (14) SUSPECT_DECISION with the peer seen standing down makes a non-receiver Sole;
(15) JUNIOR_FENCE_DELAY fences a receiver; (16) SENIOR_FENCE_WAIT fences a feeder that still sees the peer serving; (17) TAKEOVER_SILENCE
with every channel silent makes a non-receiver Sole. -/
def Obligations.YokeMembership : Prop :=
  (∀ (s : State) (m : Membership), s.yokeReady = true → s.yoke.member = 2 →
    exec (.heartbeat m) s = .next { s with yoke := { s.yoke with
      lastYoke := s.clk.now
      silent := false
      owed := Tab.set 0 s.yoke.owed 2 (Tab.get 0 s.yoke.owed 2 + 1)
      peer := s.yoke.peer.map (fun p => { p with
        state := m.state
        lastRole := m.lastRole
        serving := m.serving }) } }) ∧
  (∀ (s : State) (m p : Membership), s.yokeTrained = true → s.dict.waiting = [] → s.yoke.member = 3 → s.yoke.prev ∈ [2, 6] →
    s.yoke.peer = some p → m.pairEpoch = p.pairEpoch → m.baseEpoch = p.baseEpoch → m.state ∈ [2, 3, 6, 7] →
    s.yoke.held = [] → s.cmds.jobs.any (fun kj => kj.2.held) = false →
    (s.yoke.prev = 2 ∨ m.state ≠ 2 ∨ s.divergentCount ≠ 0) →
    Does (.heartbeat m) s [.reqs, .yoke, .obs, .perf] (fun t => t.yoke.member = s.yoke.prev ∧ t.yoke.silent = false ∧
      ∀ r ∈ t.reqs.list, r.stage ≠ .suspect)) ∧
  (∀ (s : State) (m : Membership) (x : HelloInfo), s.yokeReady = true → s.yoke.member ∈ [0, 1, 4, 5] → 1 < s.joinReason m x →
    Does (.hello m x) s [.yoke, .obs, .perf] (fun t => t.yoke.joinBlock = s.joinReason m x ∧ t.yoke.member = s.yoke.member)) ∧
  (∀ (s : State) (m : Membership) (x : HelloInfo), s.yokeReady = true → s.yoke.member ∈ [0, 1, 5] → s.joinReason m x = 0 →
    s.yoke.prevailGiven = false → x.prevailGiven = false → s.yoke.record.lastRole ≠ 1 → m.lastRole ≠ 1 →
    s.strange m x = false → s.yoke.record.staleSelf = false → m.staleSelf = false → s.divergentCount = 0 →
    x.divergentCount = 0 → m.brine = false → m.state ≠ 2 →
    Does (.hello m x) s [.pwr, .media, .map, .atom, .yoke, .keys, .reg, .tabs, .dict, .obs, .perf, .cmds] (fun t =>
      t.yoke.member = 2 ∧ t.yoke.joinBlock = 0 ∧ t.yoke.record =
        { pairEpoch := (max s.yoke.record.pairEpoch m.pairEpoch + 1) % 2 ^ 32
          baseEpoch := (max s.yoke.record.pairEpoch m.pairEpoch + 1) % 2 ^ 32
          lastRole := 0
          staleSelf := false
          peerSerial := m.serial })) ∧
  (∀ (s : State) (m : Membership), s.yokeReady = true → s.yoke.member ∈ [2, 6] → s.dict.pair = none →
    Does (.standDown m) s [.clk, .pwr, .port, .reqs, .fc, .tier, .slices, .budget, .media, .map, .care, .yoke, .atom, .keys, .reg, .dict,
      .mbox, .obs, .perf, .firkin, .rstats, .cmds] (fun t => t.yoke.member = 4 ∧ t.yoke.flights = [] ∧ t.yoke.record =
      { s.yoke.record with
        pairEpoch := (s.yoke.record.pairEpoch + 1) % 2 ^ 32
        lastRole := 1 })) ∧
  (∀ s : State, s.yoke.member ∈ [2, 3, 6, 7] → s.dict.pair = none → s.dict.waiting = [] →
    Does (.moduleStandDown .fence) s [.clk, .pwr, .port, .reqs, .fc, .tier, .slices, .budget, .map, .care, .yoke, .atom, .keys, .reg, .dict, .mbox,
      .obs, .perf, .firkin, .rstats, .cmds] (fun t => t.yoke.member = 5 ∧ t.yoke.record = { s.yoke.record with lastRole := 3 } ∧
      t.yoke.flights = [] ∧ t.atom.res = [])) ∧
  (∀ s : State, s.yoke.member ∈ [2, 3, 6, 7] → s.dict.pair = none → s.dict.waiting = [] →
    Does (.moduleStandDown .withdraw) s [.clk, .pwr, .port, .reqs, .fc, .tier, .slices, .budget, .map, .care, .yoke, .atom, .keys, .reg, .dict, .mbox,
      .obs, .perf, .firkin, .rstats, .cmds] (fun t => t.yoke.member = 5 ∧ t.yoke.record = { s.yoke.record with lastRole := 2 } ∧
      t.yoke.flights = [] ∧ t.atom.res = [])) ∧
  (∀ (s : State) (cause : StandDownCause), s.yoke.member ∈ [2, 3, 4, 6, 7] → s.dict.pair = none → s.dict.waiting = [] →
    cause ≠ .fence → cause ≠ .withdraw →
    Does (.moduleStandDown cause) s [.map, .yoke, .keys, .dict, .obs, .perf, .cmds] (fun t => t.yoke.member = 1 ∧
      t.yoke.record = { s.yoke.record with lastRole := if s.yoke.member = 4 then 1 else 2 } ∧ t.yoke.flights = [])) ∧
  (∀ s : State, s.yoke.silent = false → s.yoke.member = 2 → s.dict.pair = none → s.dict.waiting = [] →
    Does .yokeSilent s [.clk, .yoke, .dict, .obs, .perf] (fun t => t.yoke.silent = true ∧ t.yoke.member = 3 ∧ t.yoke.prev = 2 ∧
      t.yoke.suspectAt = max s.clk.now (s.yoke.lastYoke + 1000000))) ∧
  (∀ (s : State) (serving : Bool), s.keeperOn = true → s.yoke.wire ≠ 0 ∨ s.yokeUp = false →
    exec (.aliveWireState serving) s = .next { s with yoke := { s.yoke with
      cable := true
      wire := if serving then 1 else 2
      lastWire := s.clk.now } }) ∧
  (∀ (s : State) (m : Membership), s.keeperOn = true → s.entry 0x4100 5 ≠ 0 → Does (.pulse m) s [.yoke, .obs] (fun t =>
    t.yoke.route = (if m.serving then 1 else 2) ∧ t.yoke.lastPulse = s.clk.now)) ∧
  (∀ s : State, s.yoke.wire ≠ 0 → Does .aliveWireSilent s [.clk, .yoke, .obs, .perf] (fun t =>
    t.yoke = { s.yoke with wire := 0 } ∧ t.clk.now = max s.clk.now (s.yoke.lastWire + 20000000))) ∧
  (∀ s : State, s.yoke.route ≠ 0 → Does .pulseSilent s [.clk, .yoke, .obs, .perf] (fun t =>
    t.yoke = { s.yoke with route := 0 } ∧ t.clk.now = max s.clk.now (s.yoke.lastPulse + 1000000000))) ∧
  (∀ s : State, s.yoke.member = 3 → s.yoke.prev ≠ 7 → s.peerSeen = 2 → s.dict.pair = none →
    Does .suspectDecision s [.clk, .pwr, .port, .reqs, .fc, .tier, .slices, .budget, .media, .map, .care, .yoke, .atom, .keys, .reg, .dict,
      .mbox, .obs, .perf, .firkin, .rstats, .cmds] (fun t => t.yoke.member = 4 ∧ t.yoke.record.lastRole = 1)) ∧
  (∀ s : State, s.yoke.member = 3 → s.yoke.prev = 7 → s.dict.pair = none →
    Does .juniorFenceDelay s [.clk, .pwr, .port, .reqs, .fc, .tier, .slices, .budget, .map, .care, .yoke, .atom, .keys, .reg, .dict, .mbox,
      .obs, .perf, .firkin, .rstats, .cmds] (fun t => t.yoke.member = 5 ∧ t.yoke.record.lastRole = 3)) ∧
  (∀ s : State, s.yoke.member = 3 → s.yoke.prev = 6 → s.peerSeen = 1 →
    s.dict.pair = none → Does .seniorFenceWait s [.clk, .pwr, .port, .reqs, .fc, .tier, .slices, .budget, .map, .care, .yoke, .atom, .keys, .reg, .dict, .mbox,
      .obs, .perf, .firkin, .rstats, .cmds] (fun t => t.yoke.member = 5 ∧ t.yoke.record.lastRole = 3)) ∧
  (∀ s : State, s.yoke.member = 3 → s.yoke.prev ≠ 7 → s.peerSeen = 0 → s.yoke.silent = true →
    s.dict.pair = none → Does .takeoverSilence s [.clk, .pwr, .port, .reqs, .fc, .tier, .slices, .budget, .media, .map, .care, .yoke, .atom, .keys, .reg, .dict,
      .mbox, .obs, .perf, .firkin, .rstats, .cmds] (fun t => t.yoke.member = 4 ∧ t.yoke.record.lastRole = 1))

/-- Pair commits and notices (R320, R347, R349) on a running link. (1) COMMIT_PREPARE's first of several segments starts the peer's batch
with its records. (2) A batch of one segment that a serving module finds valid is kept, and CommitVote answers code 0. (3) COMMIT_VOTE of
code 0 at the initiator logs the batch and sends CommitApply. (4) COMMIT_APPLY gives the ranges, partner entries and values the batch's
records give, and CommitDone answers. (5) COMMIT_DONE at the initiator gives them likewise, ends the commit and answers its requester with
success. (6) NOTICE of Brine from a pair's peer enters Brine mode for it; (7) the answer of a notice ends the wait of its command; (8) any
other code changes nothing. -/
def Obligations.YokeCommits : Prop :=
  (∀ (s : State) (batch : Nat) (recs : List StageRec), s.yokeReady = true → s.dict.theirs = none →
    exec (.commitPrepare batch 0 false recs) s = .next { s with
      yoke := { s.yoke with
        lastYoke := s.clk.now
        silent := false
        owed := Tab.set 0 s.yoke.owed 2 (Tab.get 0 s.yoke.owed 2 + 1) }
      dict := { s.dict with
        theirs := some { role := .peer, route := .yoke, tid := 0, spec := 0, batch := batch, nextSeg := 1, recs := recs } } }) ∧
  (∀ (s : State) (batch : Nat) (recs : List StageRec), s.yokeReady = true → s.dict.theirs = none → servingSt s.yoke.member = true →
    s.validate recs = none → s.mayPass 0x10 = true → Does (.commitPrepare batch 0 true recs) s [.yoke, .dict, .obs, .perf] (fun t =>
      t.dict.theirs.map (fun p => (p.batch, p.recs)) = some (batch, recs) ∧
      t.yoke.out = s.yoke.out ++ [{ ty := 0x10, num := batch }])) ∧
  (∀ (s : State) (p : PairCommit), s.yokeReady = true → s.dict.pair = some p → p.applied = false → s.mayPass 0x11 = true →
    Does (.commitVote p.batch 0) s [.yoke, .dict, .obs, .perf] (fun t => t.dict.logged = some (p.batch, p.recs) ∧
      t.dict.pair = some { p with applied := true } ∧ t.yoke.out = s.yoke.out ++ [{ ty := 0x11, num := p.batch }])) ∧
  (∀ (s : State) (p : PairCommit), s.yokeReady = true → s.dict.theirs = some p → s.mayPass 0x12 = true →
    Does (.commitApply p.batch) s [.pwr, .media, .map, .yoke, .atom, .keys, .reg, .tabs, .dict, .obs, .perf, .cmds] (fun t =>
      t.dict.theirs = none ∧ t.dict.lastBatch = max s.dict.lastBatch p.batch ∧
      t.tabs.ranges = (s.setRecs p.recs).tabs.ranges ∧ t.tabs.partners = (s.setRecs p.recs).tabs.partners ∧
      t.dict.cfg = (s.setRecs p.recs).dict.cfg ∧ { ty := 0x12, num := p.batch } ∈ t.yoke.out)) ∧
  (∀ (s : State) (p : PairCommit), s.yokeReady = true → s.dict.pair = some p → p.applied = true → s.dict.commitWait = [] →
    Does (.commitDone p.batch) s [.pwr, .media, .map, .yoke, .atom, .keys, .reg, .tabs, .dict, .obs, .perf, .cmds] (fun t =>
      t.dict.pair = none ∧ t.dict.logged = none ∧ t.dict.lastBatch = max s.dict.lastBatch p.batch ∧
      t.tabs.ranges = (s.setRecs p.recs).tabs.ranges ∧ t.tabs.partners = (s.setRecs p.recs).tabs.partners ∧
      t.dict.cfg = (s.setRecs p.recs).dict.cfg ∧ Tab.get 0 t.dict.commitSt (roleNum p.role) = 3 ∧
      t.dict.out = s.dict.out ++ [⟨p.route, (p.spec + 128) % 256, p.flags, p.tid, 1, 0x1200, 0, []⟩])) ∧
  (∀ (s : State) (keyId base len : Nat), s.yokeReady = true → s.paired = true →
    Does (.notice 1 keyId base len) s [.care, .yoke, .obs, .perf] (fun t => t.care.brine = 3)) ∧
  (∀ (s : State) (code keyId base len : Nat) (j : Job), s.yokeReady = true → s.paired = true → 0x8002 ≤ code → code ≤ 0x8005 →
    s.job (noticeJob code) = some j → j.notice = true → Does (.notice code keyId base len) s [.yoke, .cmds] (fun t =>
      t.job (noticeJob code) = some { j with notice := false })) ∧
  (∀ (s : State) (code keyId base len : Nat), s.yokeReady = true → s.paired = true → ¬ (1 ≤ code ∧ code ≤ 6) →
    ¬ (0x8002 ≤ code ∧ code ≤ 0x8006) → exec (.notice code keyId base len) s = .next { s with yoke := { s.yoke with
      lastYoke := s.clk.now
      silent := false
      owed := Tab.set 0 s.yoke.owed 2 (Tab.get 0 s.yoke.owed 2 + 1) } })

/-! ## The mailbox -/

/-- The memory-device commands that only read (R66 to R69, R76, R80). From a sender that may send it now, each answers Success with its
payload and changes nothing but the answer, the sender's page and perhaps a raised interrupt: the event records of a log (1), which
stay in it; the interrupt policy (2); the firmware slots and their versions (3); the time (4); the one supported log with its size (5) and
that log (6), an entry for each opcode the route accepts; of the identity the version and the capacity, all of it persistent (7); the
partitions (8); the health information (9); the four alert thresholds (10); the shutdown state (11); the first 1,024 poisoned
lines of a span that the sender sees, and whether there are more (12); four bytes of scan capabilities (13); the number of lines the scan
found and the lines (14). Invalid Input answers a log that is not there (15), (16) and a scan span of length 0 or outside the
space (17). -/
def Obligations.MailboxReads : Prop :=
  (∀ (s : State) (w : Who) (log : Nat), s.mayCommand w 0x0100 = true → log ≤ 3 →
    Does (.getEventRecords w log) s [.clk, .mbox, .obs] (fun t => s.replied w 0x0100 0 (s.eventRecords log) t ∧
      t.obs.logs = s.obs.logs)) ∧
  (∀ (s : State) (w : Who), s.mayCommand w 0x0102 = true → Does (.getEventInterruptPolicy w) s [.clk, .mbox, .obs] (fun t =>
    s.replied w 0x0102 0 ((List.range 4).map (fun k =>
      if s.obs.policy.getLsbD k then BitVec.ofNat 8 (0x11 + 0x10 * k) else 0)) t)) ∧
  (∀ (s : State) (w : Who), s.mayCommand w 0x0200 = true → Does (.getFwInfo w) s [.clk, .mbox, .obs] (fun t =>
    s.replied w 0x0200 0 ([2, if s.fw.pending ≠ s.fw.current then 17 else 1, 0] ++ List.replicate 13 0 ++
      (s.fwSlot s.fw.current).versionBytes ++ List.replicate 8 0 ++ (s.fwSlot (1 - s.fw.current)).versionBytes ++
      List.replicate 40 0) t)) ∧
  (∀ (s : State) (w : Who), s.mayCommand w 0x0300 = true → Does (.getTimestamp w) s [.clk, .mbox, .obs] (fun t =>
    s.replied w 0x0300 0 (natLe 8 s.clk.stamp) t)) ∧
  (∀ (s : State) (w : Who), s.mayCommand w 0x0400 = true → Does (.getSupportedLogs w) s [.clk, .mbox, .obs] (fun t =>
    ∃ p, s.replied w 0x0400 0 p t ∧ p.take 2 = [1, 0] ∧ p.drop 24 = natLe 4 (s.effectsLog w.route).length)) ∧
  (∀ (s : State) (w : Who), s.mayCommand w 0x0401 = true → Does (.getLog w 0) s [.clk, .mbox, .obs] (fun t =>
    s.replied w 0x0401 0 (s.effectsLog w.route) t)) ∧
  (∀ (s : State) (w : Who), s.mayCommand w 0x4000 = true → Does (.identifyMemoryDevice w) s [.clk, .mbox, .obs] (fun t =>
    ∃ p, s.replied w 0x4000 0 p t ∧
      p.take 48 = (s.fwSlot s.fw.current).versionBytes ++ natLe 8 0 ++ natLe 8 (s.ident.variant.capacity / 2 ^ 28) ++ natLe 8 0 ++
        natLe 8 (s.ident.variant.capacity / 2 ^ 28) ++ natLe 8 0)) ∧
  (∀ (s : State) (w : Who), s.mayCommand w 0x4100 = true → Does (.getPartitionInfo w) s [.clk, .mbox, .obs] (fun t =>
    s.replied w 0x4100 0 (natLe 8 0 ++ natLe 8 (s.ident.variant.capacity / 2 ^ 28) ++ natLe 8 0 ++
      natLe 8 (s.ident.variant.capacity / 2 ^ 28)) t)) ∧
  (∀ (s : State) (w : Who), s.mayCommand w 0x4200 = true → Does (.getHealthInfo w) s [.clk, .mbox, .obs] (fun t =>
    s.replied w 0x4200 0 s.healthBytes t)) ∧
  (∀ (s : State) (w : Who), s.mayCommand w 0x4201 = true → Does (.getAlertConfiguration w) s [.clk, .mbox, .obs] (fun t =>
    ∃ p, s.replied w 0x4201 0 p t ∧ (p.drop 3).take 1 = natLe 1 s.mbox.alertLife ∧
      p.drop 8 = natLe 2 s.mbox.alertTemp ++ natLe 2 0 ++ natLe 2 s.mbox.alertVolatile ++ natLe 2 s.mbox.alertPersistent)) ∧
  (∀ (s : State) (w : Who), s.mayCommand w 0x4203 = true → Does (.getShutdownState w) s [.clk, .mbox, .obs] (fun t =>
    s.replied w 0x4203 0 (natLe 1 s.pwr.shutdownState) t)) ∧
  (∀ (s : State) (w : Who) (base len : Nat), s.mayCommand w 0x4300 (input := natLe 8 base ++ natLe 8 (len / 64)) = true →
    Does (.getPoisonList w base len) s [.clk, .mbox, .obs] (fun t => ∃ p, s.replied w 0x4300 0 p t ∧
      p.take 12 = natLe 1 (if 1024 < (s.poisonSeen w base len).length then 1 else 0) ++ List.replicate 9 0 ++
        natLe 2 (min 1024 (s.poisonSeen w base len).length) ∧
      p.drop 32 = (((s.poisonSeen w base len).take 1024).map (fun l => natLe 8 (l * 64) ++ natLe 4 1 ++ natLe 4 0)).foldl
        (· ++ ·) [])) ∧
  (∀ (s : State) (w : Who) (base len : Nat), s.mayCommand w 0x4303 = true → len ≠ 0 → s.spanOk 16384 base len = true →
    Does (.scanMediaCapabilities w base len) s [.clk, .mbox, .obs] (fun t => ∃ p, s.replied w 0x4303 0 p t ∧ p.length = 4)) ∧
  (∀ (s : State) (w : Who), s.mayCommand w 0x4305 = true → Does (.getScanMediaResults w) s [.clk, .mbox, .obs] (fun t =>
    ∃ p, s.replied w 0x4305 0 p t ∧ (p.drop 18).take 2 = natLe 2 s.mbox.scanResults.length ∧
      p.drop 32 = (s.mbox.scanResults.map (fun l => natLe 8 (l * 64) ++ natLe 4 1 ++ natLe 4 0)).foldl (· ++ ·) [])) ∧
  (∀ (s : State) (w : Who) (log : Nat), s.mayCommand w 0x0100 = true → 3 < log →
    Does (.getEventRecords w log) s [.clk, .mbox, .obs] (s.replied w 0x0100 2 [])) ∧
  (∀ (s : State) (w : Who) (log : Nat), s.mayCommand w 0x0401 = true → log ≠ 0 →
    Does (.getLog w log) s [.clk, .mbox, .obs] (s.replied w 0x0401 2 [])) ∧
  (∀ (s : State) (w : Who) (base len : Nat), s.mayCommand w 0x4303 = true → len = 0 ∨ s.spanOk 16384 base len = false →
    Does (.scanMediaCapabilities w base len) s [.clk, .mbox, .obs] (s.replied w 0x4303 2 []))

/-- The memory-device commands that change state (R66, R69, R76, R80, R537, R565), from a sender that may send them now; the first eight
answer at once. CLEAR_EVENT_RECORDS with Success (1) empties a log and its overflow figures and leaves the other logs; (2) takes away the
records named by handles that are there. (3) SET_EVENT_INTERRUPT_POLICY sets the policy. (4) TRANSFER_FW of a chunk that fits, aligned
to 4 KiB, no verification running and a download begun, adds its bytes, and the image counts as unverified. (5) ACTIVATE_FW of a
verified image, outside recovery, stages the other slot. (6) SET_TIMESTAMP sets the time, moves the ripening time forward and, the first
time after a power-up, records the unpowered seconds. (7) SET_ALERT_CONFIGURATION sets the four thresholds. (8) SET_SHUTDOWN_STATE
records its value and nothing else. (9) CLEAR_POISON of an aligned line the sender may write, in a module that takes requests, queues a
full-line write of its data, with which the command will complete. -/
def Obligations.MailboxWrites : Prop :=
  (∀ (s : State) (w : Who) (log : Nat) (handles : List Nat), s.mayCommand w 0x0101 = true → log ≤ 3 →
    Does (.clearEventRecords w log true handles) s [.clk, .mbox, .obs] (fun t =>
      Tab.get ({} : CxlLog) t.obs.logs log = {} ∧ (∀ k, k ≠ log → Tab.get ({} : CxlLog) t.obs.logs k = Tab.get {} s.obs.logs k) ∧
      s.replied w 0x0101 0 [] t)) ∧
  (∀ (s : State) (w : Who) (log : Nat) (handles : List Nat), s.mayCommand w 0x0101 = true → log ≤ 3 →
    (∀ h ∈ handles, ∃ r ∈ (Tab.get ({} : CxlLog) s.obs.logs log).recs, r.handle = h) → handles ≠ [] →
    Does (.clearEventRecords w log false handles) s [.clk, .mbox, .obs] (fun t =>
      (Tab.get ({} : CxlLog) t.obs.logs log).recs =
        (Tab.get ({} : CxlLog) s.obs.logs log).recs.filter (fun r => !handles.contains r.handle) ∧ s.replied w 0x0101 0 [] t)) ∧
  (∀ (s : State) (w : Who) (enables : BitVec 4), s.mayCommand w 0x0103 = true →
    Does (.setEventInterruptPolicy w enables) s [.clk, .mbox, .obs] (fun t => t.obs.policy = enables ∧
      t.obs.logs = s.obs.logs ∧ s.replied w 0x0103 0 [] t)) ∧
  (∀ (s : State) (w : Who) (off : Nat) (data : Bytes), s.mayCommand w 0x0201 = true → data ≠ [] → off % 4096 = 0 →
    off < 8388608 → off + data.length ≤ 8388608 → s.fw.ctl ≠ 1 → s.fw.begun = true →
    Does (.transferFw w off data) s [.clk, .keys, .tabs, .dict, .mbox, .obs, .fw] (fun t =>
      t.fw.received = s.fw.received + data.length ∧ t.fw.passed = false ∧ s.replied w 0x0201 0 [] t)) ∧
  (∀ (s : State) (w : Who), s.mayCommand w 0x0202 = true → s.fw.ctl ≠ 1 → s.fw.passed = true → s.pwr.boot ≠ .recovery →
    Does (.activateFw w) s [.clk, .mbox, .obs, .perf, .fw] (fun t => t.fw.pending = 1 - s.fw.current ∧ t.fw.ctl = 2 ∧
      s.replied w 0x0202 0 [] t)) ∧
  (∀ (s : State) (w : Who) (v : Nat), s.mayCommand w 0x0301 = true → v < 2 ^ 64 →
    Does (.setTimestamp w v) s [.clk, .care, .mbox, .obs, .perf] (fun t => t.clk.stamp = v ∧ t.clk.stampSet = true ∧
      t.clk.now = s.clk.now ∧ t.clk.ripe = max s.clk.ripe v ∧
      t.clk.unpowered = (if s.clk.stampSet then s.clk.unpowered else (v - s.clk.stored) / 1000000000) ∧
      t.mbox.out = s.mbox.out ++ [⟨w, 0x0301, 0, []⟩])) ∧
  (∀ (s : State) (w : Who) (life temp vol per : Nat), s.mayCommand w 0x4202 = true →
    Does (.setAlertConfiguration w life temp vol per) s [.clk, .mbox, .obs] (fun t => t.mbox.alertLife = life ∧
      t.mbox.alertTemp = temp ∧ t.mbox.alertVolatile = vol ∧ t.mbox.alertPersistent = per ∧
      t.mbox.out = s.mbox.out ++ [⟨w, 0x4202, 0, []⟩])) ∧
  (∀ (s : State) (w : Who) (st : Nat), s.mayCommand w 0x4204 = true →
    Does (.setShutdownState w st) s [.clk, .pwr, .mbox, .obs] (fun t =>
      t.pwr = { s.pwr with shutdownState := st } ∧ s.replied w 0x4204 0 [] t)) ∧
  (∀ (s : State) (w : Who) (addr : Nat) (d : Line) (r : Range),
    s.mayCommand w 0x4302 (input := natLe 8 addr ++ natLe 64 d.toNat) = true → s.accepts = true → s.blocked = false →
    s.decodeDpa addr = .ordinary r → addr % 64 = 0 → (∀ n, s.whoEntry w = some n → s.mayWrite n r.group = true) →
    Does (.clearPoison w addr d) s [.reqs, .mbox] (fun t => t.mbox.clearing = s.mbox.clearing ++ [(s.reqs.next, w)] ∧
      t.mbox.out = s.mbox.out ∧
      ∃ q, t.reqs.list = s.reqs.list ++ [q] ∧ q.id = s.reqs.next ∧ q.kind = .write ∧ q.line = addr / 64 ∧ q.data = d ∧
        q.be = fullMask))

/-- Background commands and the dictionary through the mailbox and the yoke (R66, R70, R74, R75, R349, R459), from a sender that may send
them now. With no background command running, (1) SCAN_MEDIA of a span starts the scrub pass, its results empty; (2) SANITIZE and (3)
SECURE_ERASE start; each is the background command now and answers Background Command Started. BACKGROUND_COMMAND_DONE: (4) a scan
whose pass has ended, (5) a Sanitize commanded here with all of its data erased is over, its status Success; the Sanitize makes a
fresh dump metadata key. DICTIONARY_TRANSFER (6) of a read request that is permitted answers Success with the value as its output; (7)
of no payload it answers Success and does nothing; (8) of 1 to 7 bytes or of more than the mailbox takes, Invalid Input.
YOKE_DICTIONARY (9) of a permitted read sends the value to the peer. (10) UNSUPPORTED_COMMAND of an opcode the route does not accept
answers Unsupported. -/
def Obligations.MailboxBackground : Prop :=
  (∀ (s : State) (w : Who) (base len flags : Nat), s.mayCommand w 0x4304 = true → len ≠ 0 → s.spanOk 16384 base len = true →
    s.mbox.background = 0 → s.ctl 0x9020 ≠ 1 → Does (.scanMedia w base len flags) s [.clk, .reg, .mbox, .obs, .cmds] (fun t =>
      t.mbox.background = 0x4304 ∧ t.mbox.scanResults = [] ∧ t.ctl 0x9020 = 1 ∧ t.clk.now = s.clk.now ∧
      t.mbox.out = s.mbox.out ++ [⟨w, 0x4304, 1, []⟩])) ∧
  (∀ (s : State) (w : Who), s.mayCommand w 0x4400 = true → s.mbox.background = 0 → Does (.sanitize w) s
    [.clk, .pwr, .port, .reqs, .fc, .tier, .slices, .budget, .media, .map, .care, .yoke, .atom, .keys, .reg, .tabs, .mbox, .obs,
      .perf, .firkin, .rstats, .cmds] (fun t => t.mbox.background = 0x4400 ∧ ⟨w, 0x4400, 1, []⟩ ∈ t.mbox.out ∧
      t.tabs.ranges = s.tabs.ranges ∧ t.tabs.partners = s.tabs.partners ∧ t.tabs.targets = s.tabs.targets)) ∧
  (∀ (s : State) (w : Who), s.mayCommand w 0x4401 = true → s.mbox.background = 0 → Does (.secureErase w) s
    [.clk, .pwr, .port, .reqs, .fc, .tier, .slices, .budget, .media, .map, .care, .yoke, .atom, .keys, .reg, .mbox, .obs, .perf,
      .firkin, .rstats, .cmds] (fun t => t.mbox.background = 0x4401 ∧ ⟨w, 0x4401, 1, []⟩ ∈ t.mbox.out)) ∧
  (∀ s : State, s.mbox.background = 0x4304 → s.ctl 0x9020 ≠ 1 → Does .backgroundCommandDone s [.clk, .keys, .mbox, .obs] (fun t =>
    t.mbox = { s.mbox with
      background := 0
      bgPeer := false
      bgLast := (0x4304, 0) } ∧ t.keys = s.keys ∧ t.clk = { s.clk with free := t.clk.free })) ∧
  (∀ (s : State) (j : Job), s.mbox.background = 0x4400 → s.mbox.bgPeer = false → s.job 0x4400 = some j → s.erasedAll j = true →
    Does .backgroundCommandDone s [.clk, .yoke, .keys, .mbox, .obs, .perf, .cmds] (fun t => t.mbox = { s.mbox with
      background := 0
      bgPeer := false
      bgLast := (0x4400, 0) } ∧ t.keys = { s.keys with metaKeyGen := s.keys.metaKeyGen + 1 } ∧ t.job 0x4400 = none ∧
      t.clk = { s.clk with free := t.clk.free })) ∧
  (∀ (s : State) (w : Who) (p v : Bytes), s.mayCommand w 0xC000 (input := p) = true → s.takesDtp w = true → p.length = 8 →
    field p 0 1 = 1 → field p 6 2 = 0 → (s.asked w).readOf w (field p 4 2) (field p 3 1) true = .ok v →
    field p 4 2 ∉ [0x7100, 0x7101] → s.dict.out = [] →
    Does (.dictionaryTransfer w p) s [.clk, .dict, .mbox, .obs, .perf] (fun t => t.dict.out = [] ∧ s.replied w 0xC000 0
      (DtpResp.bytes ⟨w.route, 129, field p 1 1, field p 2 1, field p 3 1, field p 4 2, 0, v⟩) t)) ∧
  (∀ (s : State) (w : Who), s.mayCommand w 0xC000 = true →
    Does (.dictionaryTransfer w []) s [.clk, .mbox, .obs] (s.replied w 0xC000 0 [])) ∧
  (∀ (s : State) (w : Who) (p : Bytes), s.mayCommand w 0xC000 (input := p) = true → p ≠ [] →
    s.ident.variant.portCaps.mailboxPayload < p.length ∨ p.length < 8 →
    Does (.dictionaryTransfer w p) s [.clk, .mbox, .obs] (s.replied w 0xC000 2 [])) ∧
  (∀ (s : State) (p v : Bytes), s.yokeReady = true → s.takesDtp { route := .yoke, key := 0 } = true → p.length = 8 → field p 0 1 = 1 →
    field p 6 2 = 0 → (s.heard.asked { route := .yoke, key := 0 }).readOf { route := .yoke, key := 0 } (field p 4 2) (field p 3 1) true = .ok v →
    field p 4 2 ∉ [0x7100, 0x7101] → s.dict.out = [] → s.mayPass 0x0E = true →
    Does (.yokeDictionary p) s [.yoke, .dict, .obs, .perf] (fun t => t.dict.out = [] ∧ t.yoke.out = s.yoke.out ++
      [{ ty := 0x0E, body := DtpResp.bytes ⟨.yoke, 129, field p 1 1, field p 2 1, field p 3 1, field p 4 2, 0, v⟩ }])) ∧
  (∀ (s : State) (w : Who) (op : Nat), s.mboxReached w.route = true → w.route ≠ .page ∨ s.whoEntry w ≠ none →
    s.mboxTaken w op [] = false → s.mboxAllows w.route op = false →
    Does (.unsupportedCommand w op) s [.clk, .mbox, .obs] (s.replied w op 3 []))

/-! ## The object dictionary -/

/-- Dictionary transfers (R463 to R468, R472), on a route that takes the request at once. (1) A permitted read answers with the value. A
write of 1 to 240 bytes that passes checks 1 to 8, (2) of a staged entry by a role without a batch, none of its commits under way, starts its
batch and leaves the value in force; (3) of an entry that only stores its value changes it at once; both answer success. With no transfer
running on the route, (4) READ_INITIATE of a permitted read captures the value and answers its length; (6) WRITE_INITIATE of a permitted
write of at most 64 KiB opens an empty transfer. (5) The first READ_SEGMENT of a value longer than a segment answers its first
segment; (7) the first full WRITE_SEGMENT, not the last, is kept; both set the time the transfer was last touched. (8) ABORT ends the
transfer and is answered. (9) SEGMENT_TIMEOUT, the route's timeout after that time, drops the data and leaves 01040000h for the
next request. -/
def Obligations.DtpTransfers : Prop :=
  (∀ (s : State) (w : Who) (tid i sub : Nat) (v : Bytes), s.takesDtp w = true → (s.asked w).readOf w i sub true = .ok v →
    i ∉ [0x7100, 0x7101] → Does (.dtpRead w tid i sub) s [.dict, .obs, .perf] (fun t =>
      t.dict.out = s.dict.out ++ [⟨w.route, 129, 0, tid, sub, i, 0, v⟩])) ∧
  (∀ (s : State) (w : Who) (tid i sub : Nat) (v : Bytes), s.accepted w i sub v = true → s.codeFor w i sub = some .rws →
    s.committing (s.role w) = false → s.batchOf (s.role w) = [] → Does (.dtpWrite w tid i sub v) s [.dict, .obs, .perf] (fun t =>
      t.batchOf (s.role w) = [⟨i, sub, v⟩] ∧ t.dict.cfg = s.dict.cfg ∧
      t.dict.out = s.dict.out ++ [⟨w.route, 130, 0, tid, sub, i, 0, []⟩])) ∧
  (∀ (s : State) (w : Who) (i sub : Nat) (v : Bytes), s.accepted w i sub v = true → s.codeFor w i sub = some .rw →
    plainEntry s.ident.variant i sub = true → Does (.dictionaryWrite w i sub v) s [.dict, .obs, .perf] (fun t =>
      t.entry i sub = leNat v ∧ s.answered w i sub 0 t)) ∧
  (∀ (s : State) (w : Who) (tid i sub : Nat) (v : Bytes), s.takesDtp w = true → s.transferRuns w.route = false →
    (s.asked w).readOf w i sub false = .ok v → i ≠ 0x7101 →
    Does (.dtpReadInitiate w tid i sub) s [.dict, .obs, .perf] (fun t =>
      t.opened w tid (newTransfer false (dtpReq w 3 0 tid i sub []) (s.role w) v.length v s.clk.now) ∧
      t.dict.out = s.dict.out ++ [⟨w.route, 131, 0, tid, sub, i, 0, natLe 4 v.length⟩])) ∧
  (∀ (s : State) (w : Who) (tid : Nat) (t : Transfer), s.takesDtp w = true → s.opened w tid t → t.isWrite = false → t.sent = 0 →
    routeSeg w.route < t.data.length → t.total = t.data.length →
    Does (.dtpReadSegment w tid false) s [.dict, .obs, .perf] (fun u =>
      Tab.look u.dict.transfers (routeNum w.route) = some { t with
        sent := routeSeg w.route
        toggle := false
        fresh := false
        lastResp := t.data.take (routeSeg w.route)
        touched := s.clk.now } ∧
      u.dict.out = s.dict.out ++ [⟨w.route, 132, 0, tid, 0, 0, 0, t.data.take (routeSeg w.route)⟩])) ∧
  (∀ (s : State) (w : Who) (tid i sub total : Nat) (row : Row), s.takesDtp w = true → s.transferRuns w.route = false →
    (s.asked w).permit w i sub true = .ok row → total ≤ 65536 →
    Does (.dtpWriteInitiate w tid i sub total) s [.dict, .obs, .perf] (fun t => (∃ x, t.opened w tid x ∧ x.isWrite = true ∧
      x.index = i ∧ x.sub = sub ∧ x.total = total ∧ x.data = []) ∧
      t.dict.out = s.dict.out ++ [⟨w.route, 133, 0, tid, sub, i, 0, []⟩])) ∧
  (∀ (s : State) (w : Who) (tid : Nat) (t : Transfer) (d : Bytes), s.takesDtp w = true → s.opened w tid t → t.isWrite = true →
    t.sent = 0 → t.data = [] → d.length = routeSeg w.route → d.length ≤ t.total →
    Does (.dtpWriteSegment w tid false false d) s [.dict, .obs, .perf] (fun u =>
      Tab.look u.dict.transfers (routeNum w.route) = some { t with
        sent := d.length
        data := d
        toggle := false
        fresh := false
        touched := s.clk.now } ∧
      u.dict.out = s.dict.out ++ [⟨w.route, 134, 0, tid, 0, 0, 0, []⟩])) ∧
  (∀ (s : State) (w : Who) (tid : Nat) (t : Transfer), s.takesDtp w = true → s.opened w tid t → t.index ≠ 0x7101 →
    Does (.dtpAbort w tid 0x01090000) s [.dict, .obs, .perf] (fun u => Tab.look u.dict.transfers (routeNum w.route) = none ∧
      u.dict.out = s.dict.out ++ [⟨w.route, 135, 0, tid, 0, 0, 0, []⟩])) ∧
  (∀ (s : State) (r : Route) (t : Transfer), Tab.look s.dict.transfers (routeNum r) = some t → t.ended = 0 → t.index ≠ 0x7101 →
    Does (.segmentTimeout r) s [.clk, .dict, .obs, .perf] (fun u => u.clk.now = max s.clk.now (t.touched + routeTimeout r) ∧
      Tab.look u.dict.transfers (routeNum r) = some { t with
        data := []
        ended := 0x01040000 }))

/-- Batches (R473, R496). COMMIT_BATCH by a role with staged values, none of its commits under way, the controller running, alone or outside
a pair that serves: (1) a batch that validates gives the ranges, the partner entries and the values its records give, under the next batch
number, and is empty again with commit state Done; (2) one that does not validate changes no value, is empty again, has commit state
Aborted, names its failing entry, and is answered 05010000h. (3) DISCARD_BATCH with no commit of the role under way empties the batch,
with commit state 0. -/
def Obligations.Batches : Prop :=
  (∀ (s : State) (w : Who), s.accepted w 0x1200 1 [1] = true → s.committing (s.role w) = false → s.fastOn = true →
    servingSt s.yoke.member = true → s.paired = false → s.dict.pair = none → s.batchOf (s.role w) ≠ [] →
    s.validate (s.batchOf (s.role w)) = none →
    Does (.commitBatch w false) s [.pwr, .media, .map, .atom, .keys, .reg, .tabs, .dict, .obs, .perf, .cmds] (fun t =>
      t.tabs.ranges = (s.setRecs (s.batchOf (s.role w))).tabs.ranges ∧
      t.tabs.partners = (s.setRecs (s.batchOf (s.role w))).tabs.partners ∧
      t.dict.cfg = (s.setRecs (s.batchOf (s.role w))).dict.cfg ∧ t.dict.lastBatch = s.dict.lastBatch + 1 ∧
      t.batchOf (s.role w) = [] ∧ Tab.get 0 t.dict.commitSt (roleNum (s.role w)) = 3 ∧ s.answered w 0x1200 1 0 t)) ∧
  (∀ (s : State) (w : Who) (e : Nat), s.accepted w 0x1200 1 [1] = true → s.committing (s.role w) = false → s.fastOn = true →
    servingSt s.yoke.member = true → s.paired = false → s.dict.pair = none → s.batchOf (s.role w) ≠ [] →
    s.validate (s.batchOf (s.role w)) = some e →
    Does (.commitBatch w false) s [.dict, .obs, .perf] (fun t => t.dict.cfg = s.dict.cfg ∧ t.batchOf (s.role w) = [] ∧
      Tab.get 0 t.dict.commitSt (roleNum (s.role w)) = 4 ∧ Tab.get 0 t.dict.abortEntry (roleNum (s.role w)) = e ∧
      s.answered w 0x1200 1 0x05010000 t)) ∧
  (∀ (s : State) (w : Who), s.accepted w 0x1200 1 [2] = true → s.committing (s.role w) = false →
    Does (.discardBatch w) s [.dict, .obs, .perf] (fun t => t.batchOf (s.role w) = [] ∧
      Tab.get 0 t.dict.commitSt (roleNum (s.role w)) = 0 ∧ s.answered w 0x1200 1 0 t))

/-- Passwords, restoring defaults and the user area (R479 to R485, R497), each write having passed checks 1 to 8. PASSWORD_PRESENT for an
area and kind by a role not locked out: (1) the right one counts as presented for the role, and its wrong ones are forgotten; (2) a wrong
one, of at most four before, is counted and refused with 02070000h. (3) PASSWORD_LOCK and (4) PRESENTATION_TIMEOUT, 10 minutes
after the role's last request, end its presentations; (5) PASSWORD_LOCKOUT_END, at its time, ends its lockout. (6) SET_PASSWORD other than
the single byte 0 keeps its digest. (7) RESTORE_DEFAULTS outside a pair with no write password set and the front cache enabled: no value,
selector or batch is kept, range 0 covers the whole space and partner entry 0 is as at delivery, under the next batch number. (8)
AREA_DATA_WRITE within the area stores its bytes at the role's offset. -/
def Obligations.Passwords : Prop :=
  (∀ (s : State) (w : Who) (area kind : Nat) (pw : Bytes), s.accepted w 0x1120 1 (natLe 1 area ++ natLe 1 kind ++ pw) = true →
    area ≤ 7 → kind ≤ 1 → s.clk.now ≥ Tab.get 0 s.dict.lockout (roleNum (s.role w)) → s.rightPassword area kind pw = true →
    Does (.passwordPresent w area kind pw) s [.dict, .obs, .perf] (fun t => t.hasPresented (s.role w) area kind = true ∧
      Tab.get 0 t.dict.wrong (roleNum (s.role w)) = 0 ∧ s.answered w 0x1120 1 0 t)) ∧
  (∀ (s : State) (w : Who) (area kind : Nat) (pw : Bytes), s.accepted w 0x1120 1 (natLe 1 area ++ natLe 1 kind ++ pw) = true →
    area ≤ 7 → kind ≤ 1 → s.clk.now ≥ Tab.get 0 s.dict.lockout (roleNum (s.role w)) → s.rightPassword area kind pw = false →
    Tab.get 0 s.dict.wrong (roleNum (s.role w)) < 4 →
    Does (.passwordPresent w area kind pw) s [.dict, .obs, .perf] (fun t =>
      Tab.get 0 t.dict.wrong (roleNum (s.role w)) = Tab.get 0 s.dict.wrong (roleNum (s.role w)) + 1 ∧
      t.dict.passwords = s.dict.passwords ∧ s.answered w 0x1120 1 0x02070000 t)) ∧
  (∀ (s : State) (w : Who), s.accepted w 0x1120 3 [1] = true → Does (.passwordLock w) s [.dict, .obs, .perf] (fun t =>
    (∀ area ≤ 7, ∀ kind ≤ 1, t.hasPresented (s.role w) area kind = false) ∧ s.answered w 0x1120 3 0 t)) ∧
  (∀ (s : State) (role : Role), s.dict.presented.any (fun kv => decide (kv.1 / 16 = roleNum role)) = true →
    Does (.presentationTimeout role) s [.clk, .dict, .obs, .perf] (fun t =>
      t.clk.now = max s.clk.now (Tab.get 0 s.dict.lastReq (roleNum role) + 600000000000) ∧
      ∀ area ≤ 7, ∀ kind ≤ 1, t.hasPresented role area kind = false)) ∧
  (∀ (s : State) (role : Role) (till : Nat), Tab.look s.dict.lockout (roleNum role) = some till →
    Does (.passwordLockoutEnd role) s [.clk, .dict, .obs, .perf] (fun t => t.clk.now = max s.clk.now till ∧
      Tab.look t.dict.lockout (roleNum role) = none)) ∧
  (∀ (s : State) (w : Who) (area kind : Nat) (pw : Bytes), s.accepted w (0x1110 + area) (1 + kind) pw = true → area ≤ 7 →
    kind ≤ 1 → pw ≠ [0] → Does (.setPassword w area kind pw) s [.dict, .obs, .perf] (fun t =>
      Tab.look t.dict.passwords (area * 2 + kind) = some (s.digest area kind pw) ∧ t.dict.dead.contains (area * 2 + kind) = false ∧
      s.answered w (0x1110 + area) (1 + kind) 0 t)) ∧
  (∀ (s : State) (w : Who), s.accepted w 0x1201 1 [1] = true → s.yoke.member ∈ [0, 1, 5, 8] →
    (∀ area ∈ List.range 8, s.passwordSet area 1 = false) → s.fastOn = false ∨ s.fc.enabled = true →
    Does (.restoreDefaults w) s [.pwr, .budget, .media, .map, .atom, .keys, .reg, .tabs, .dict, .obs, .perf, .cmds] (fun t =>
      t.dict.cfg = [] ∧ t.dict.sel = [] ∧ t.dict.batches = [] ∧ t.dict.lastBatch = s.dict.lastBatch + 1 ∧ t.dict.restored = 2 ∧
      t.tabs.ranges = [(0, { size := s.ident.variant.capacity })] ∧
      t.tabs.partners = [(0, { valid := true, caps := 7, reads := 1, writes := 1 })])) ∧
  (∀ (s : State) (w : Who) (d : Bytes), s.accepted w 0x8007 5 d = true → s.selector (s.role w) 0x8007 3 + d.length ≤ 131072 →
    Does (.areaDataWrite w d) s [.dict, .obs, .perf] (fun t => (∀ k < d.length,
      Tab.get 0 t.dict.user (s.selector (s.role w) 0x8007 3 + k) = d.getD k 0) ∧ s.answered w 0x8007 5 0 t))

/-! ## Command entries of the dictionary -/

/-- The commands of 4100h.07 (R352), each write having passed checks 1 to 8; each leaves Control 02h. (1) JOIN outside a pair is
remembered for the next handshake and changes no state; (2) so is PREVAIL with the yoke up and the join of strangers blocked. (3) PREVAIL
with the yoke up after a split brain, in Sole or Split, a grain marked at either module, makes this module the feeder, and (4) with no
grain marked at either makes it Paired. (5) FORCE_SOLE makes a Joining, Fenced or Split module Sole with a new PairEpoch. (6) WITHDRAW
makes a member of a pair Fenced with LastRole StoodDown, without reservations or writes in flight. (7) LEAVE makes any but a Single module
Single with an empty record. -/
def Obligations.PairCommands : Prop :=
  (∀ (s : State) (w : Who), s.accepted w 0x4100 7 [1] = true → s.yoke.member ∈ [0, 1, 4, 5] →
    Does (.join w) s [.yoke, .dict, .obs, .perf, .cmds] (fun t => t.yoke.joinGiven = true ∧ t.yoke.member = s.yoke.member ∧
      t.ctl 0x4100 = 2 ∧ s.answered w 0x4100 7 0 t)) ∧
  (∀ (s : State) (w : Who), s.accepted w 0x4100 7 [2] = true → s.yokeUp = true → s.yoke.joinBlock = 6 →
    s.yoke.split = false →
    Does (.prevail w) s [.yoke, .dict, .obs, .perf, .cmds] (fun t => t.yoke.prevailGiven = true ∧
      t.yoke.member = s.yoke.member ∧ t.ctl 0x4100 = 2 ∧ s.answered w 0x4100 7 0 t)) ∧
  (∀ (s : State) (w : Who), s.accepted w 0x4100 7 [2] = true → s.yokeUp = true → s.yoke.split = true → s.yoke.member ∈ [4, 8] →
    (s.divergentCount ≠ 0 ∨ s.yoke.peerMarked ≠ 0) →
    Does (.prevail w) s [.pwr, .map, .yoke, .keys, .dict, .obs, .perf, .cmds] (fun t => t.yoke.split = false ∧
      t.yoke.member = 6 ∧ t.yoke.prevailGiven = false ∧ t.ctl 0x4100 = 2 ∧ s.answered w 0x4100 7 0 t)) ∧
  (∀ (s : State) (w : Who), s.accepted w 0x4100 7 [2] = true → s.yokeUp = true → s.yoke.split = true → s.yoke.member ∈ [4, 8] →
    s.divergentCount = 0 → s.yoke.peerMarked = 0 →
    Does (.prevail w) s [.pwr, .map, .yoke, .keys, .dict, .obs, .perf, .cmds] (fun t => t.yoke.split = false ∧
      t.yoke.member = 2 ∧ t.yoke.prevailGiven = false ∧ t.yoke.record.lastRole = 0 ∧ t.yoke.record.staleSelf = false ∧
      t.ctl 0x4100 = 2 ∧ s.answered w 0x4100 7 0 t)) ∧
  (∀ (s : State) (w : Who), s.accepted w 0x4100 7 [3] = true → s.yoke.member ∈ [1, 5, 8] → s.dict.pair = none →
    Does (.forceSole w) s [.pwr, .port, .reqs, .fc, .tier, .slices, .budget, .media, .map, .care, .yoke, .atom, .keys, .reg, .dict,
      .mbox, .obs, .perf, .firkin, .rstats, .cmds] (fun t => t.yoke.member = 4 ∧ t.yoke.flights = [] ∧
      t.yoke.record = { s.yoke.record with
        pairEpoch := (s.yoke.record.pairEpoch + 1) % 2 ^ 32
        lastRole := 1 } ∧ t.ctl 0x4100 = 2)) ∧
  (∀ (s : State) (w : Who), s.accepted w 0x4100 7 [4] = true → s.yoke.member ∈ [2, 3, 6, 7] → s.dict.pair = none →
    Does (.withdraw w) s [.clk, .pwr, .port, .reqs, .fc, .tier, .slices, .budget, .map, .care, .yoke, .atom, .keys, .reg, .dict, .mbox,
      .obs, .perf, .firkin, .rstats, .cmds] (fun t => t.yoke.member = 5 ∧ t.yoke.record = { s.yoke.record with lastRole := 2 } ∧
      t.yoke.flights = [] ∧ t.atom.res = [] ∧ t.ctl 0x4100 = 2)) ∧
  (∀ (s : State) (w : Who), s.accepted w 0x4100 7 [5] = true → s.yoke.member ≠ 0 → s.dict.pair = none →
    Does (.leave w) s [.pwr, .port, .reqs, .fc, .tier, .slices, .budget, .media, .map, .care, .yoke, .atom, .keys, .reg, .dict, .mbox,
      .obs, .perf, .firkin, .rstats, .cmds] (fun t => t.yoke.member = 0 ∧ t.yoke.record = {} ∧ t.ctl 0x4100 = 2))

/-- Commands over a span (R110 to R114, R266 to R268, R349, R567), each write having passed checks 1 to 8, at a module that is not in a pair
nor in Suspect, the sender having the rights and no such command under way. Over whole grains outside every window: (1)
ZERO_RANGE_START brings each into the zero state, (2) DISCARD_START and (3) SECURE_DISCARD_START into the discarded state. (4) A
ZeroRange of one line, outside every window, queues a write of zeros to it. (5) A ZeroRange and (6) a discard of length 0 succeed at
once, whatever their base. (7) ZERO_RANGE_DONE with no line and no grain left to do, here and at the peer, and (8) DISCARD_DONE with no
grain left end the command, Control 02h. SECURE_DISCARD_DONE with nothing left to erase, here and at the peer, ends (9) the
command of this module, Control 02h, and (10) the one carried out for the peer, which is answered. -/
def Obligations.SpanCommands : Prop :=
  (∀ (s : State) (w : Who) (first n : Nat), s.accepted w 0x9030 3 [1] = true → s.entry 0x9030 1 = first * 16384 →
    s.entry 0x9030 2 = n * 16384 → n ≠ 0 → (first + n) * 16384 ≤ s.ident.variant.capacity →
    s.spanRights w true true (first * 16384) (n * 16384) = true → s.ctl 0x9030 ≠ 1 → s.paired = false → s.yoke.member ≠ 3 →
    s.runsOf first n = [(first, n)] →
    Does (.zeroRangeStart w) s [.pwr, .port, .reqs, .fc, .tier, .slices, .budget, .media, .map, .care, .yoke, .atom, .keys, .reg, .tabs, .dict, .mbox,
      .obs, .perf, .firkin, .rstats, .cmds] (fun t => (∀ g, first ≤ g → g < first + n → (t.mapEntry g).st = .zero) ∧
      s.answered w 0x9030 3 0 t)) ∧
  (∀ (s : State) (w : Who) (first n : Nat), s.accepted w 0x9000 3 [1] = true → s.entry 0x9000 1 = first * 16384 →
    s.entry 0x9000 2 = n * 16384 → n ≠ 0 → (first + n) * 16384 ≤ s.ident.variant.capacity →
    s.spanRights w true true (first * 16384) (n * 16384) = true → s.ctl 0x9000 ≠ 1 → s.paired = false → s.yoke.member ≠ 3 →
    s.runsOf first n = [(first, n)] →
    Does (.discardStart w) s [.pwr, .port, .reqs, .fc, .tier, .slices, .budget, .media, .map, .care, .yoke, .atom, .keys, .reg, .tabs, .dict, .mbox,
      .obs, .perf, .firkin, .rstats, .cmds] (fun t => (∀ g, first ≤ g → g < first + n → (t.mapEntry g).st = .discarded) ∧
      s.answered w 0x9000 3 0 t)) ∧
  (∀ (s : State) (w : Who) (first n : Nat), s.accepted w 0x9010 3 [1] = true → s.entry 0x9010 1 = first * 16384 →
    s.entry 0x9010 2 = n * 16384 → n ≠ 0 → (first + n) * 16384 < s.ident.variant.capacity →
    s.spanRights w true true (first * 16384) (n * 16384) = true → s.ctl 0x9010 ≠ 1 → s.paired = false → s.yoke.member ≠ 3 →
    s.runsOf first n = [(first, n)] →
    Does (.secureDiscardStart w) s [.pwr, .port, .reqs, .fc, .tier, .slices, .budget, .media, .map, .care, .yoke, .atom, .keys, .reg, .tabs, .dict,
      .mbox, .obs, .perf, .firkin, .rstats, .cmds] (fun t =>
      (∀ g, first ≤ g → g < first + n → (t.mapEntry g).st = .discarded) ∧ s.answered w 0x9010 3 0 t)) ∧
  (∀ (s : State) (w : Who) (l : Nat), s.accepted w 0x9030 3 [1] = true → s.entry 0x9030 1 = l * 64 → s.entry 0x9030 2 = 64 →
    (l + 1) * 64 ≤ s.ident.variant.capacity → s.spanRights w true true (l * 64) 64 = true → s.ctl 0x9030 ≠ 1 →
    s.underWindow (grainOf l) = false →
    Does (.zeroRangeStart w) s [.reqs, .dict, .obs, .perf, .cmds] (fun t => (∃ q, t.reqs.list = s.reqs.list ++ [q] ∧
      q.kind = .write ∧ q.line = l ∧ q.data = 0 ∧ q.be = fullMask ∧ q.entry = internal ∧ q.tag = 0x9030) ∧
      t.ctl 0x9030 = 1 ∧ s.answered w 0x9030 3 0 t)) ∧
  (∀ (s : State) (w : Who), s.accepted w 0x9030 3 [1] = true → s.entry 0x9030 2 = 0 → s.ctl 0x9030 ≠ 1 →
    Does (.zeroRangeStart w) s [.dict, .obs, .perf, .cmds] (fun t => t.ctl 0x9030 = 2 ∧ s.answered w 0x9030 3 0 t)) ∧
  (∀ (s : State) (w : Who), s.accepted w 0x9000 3 [1] = true → s.entry 0x9000 2 = 0 → s.ctl 0x9000 ≠ 1 →
    Does (.discardStart w) s [.dict, .obs, .perf, .cmds] (fun t => t.ctl 0x9000 = 2 ∧ s.answered w 0x9000 3 0 t)) ∧
  (∀ s : State, s.ctl 0x9030 = 1 → s.jobIdle 0x9030 = true → s.zeroing 0x9030 = false →
    (∀ j, s.job 0x9030 = some j → j.marked = []) →
    Does .zeroRangeDone s [.cmds] (fun t => t.ctl 0x9030 = 2 ∧ t.job 0x9030 = none)) ∧
  (∀ s : State, s.ctl 0x9000 = 1 → s.jobIdle 0x9000 = true →
    Does .discardDone s [.cmds] (fun t => t.ctl 0x9000 = 2 ∧ t.job 0x9000 = none)) ∧
  (∀ (s : State) (j : Job), s.job 0x9010 = some j → s.job 0x8004 = none → s.ctl 0x9010 = 1 → s.erasedAll j = true →
    Does .secureDiscardDone s [.yoke, .obs, .cmds] (fun t => t.ctl 0x9010 = 2 ∧ t.job 0x9010 = none)) ∧
  (∀ (s : State) (j : Job), s.job 0x8004 = some j → s.job 0x9010 = none → s.erasedAll j = true → s.mayPass 0x13 = true →
    Does .secureDiscardDone s [.yoke, .obs, .perf, .cmds] (fun t => t.job 0x8004 = none ∧
      { ty := 0x13, aux := 0x8004 } ∈ t.yoke.out))

/-- Crypto-discard, the scrub pass, BrineRelease and re-keying (R259, R260, R265, R269, R270, R349, R411, R412), each write having passed
checks 1 to 8, no such command under way. (1) CRYPTO_DISCARD_START with Renew of an ID in use, not in a pair: the ID is Active with a key
drawn anew, from the generation in force on. (2) CRYPTO_DISCARD_SWEEP of a mapped grain without logged lines or writeback, its page below
the ID's base: the grain is discarded. CRYPTO_DISCARD_DONE with no retired image and no peer to wait for ends (3) the command and (4) the
one carried out for the peer, which is answered; both are counted. (5) SCRUB_START of a span in the space starts the pass, its results
empty; (6) SCRUB_CANCEL ends a running one; (7) SCRUB_PASS_DONE of one under leave, the DRAM not included, ends it with the summary of its
whole span. (8) BRINE_RELEASE with room, not in a pair, leaves Brine mode for its exit. (9) REKEY of an enabled range with no grain under
another ID is done at once. -/
def Obligations.KeyAndCareCommands : Prop :=
  (∀ (s : State) (w : Who), s.accepted w 0x9018 3 [1] = true → (s.keyRec (s.entry 0x9018 1)).st ≠ 0 → s.entry 0x9018 2 = 1 →
    s.ctl 0x9018 ≠ 1 → s.paired = false →
    Does (.cryptoDiscardStart w) s [.clk, .pwr, .reqs, .fc, .tier, .budget, .map, .yoke, .atom, .keys, .dict, .obs, .perf,
      .cmds] (fun t => (t.keyRec (s.entry 0x9018 1)).st = 1 ∧ (t.keyRec (s.entry 0x9018 1)).base = s.media.gen ∧
      (t.keyRec (s.entry 0x9018 1)).material = Config.freshKey s.clk.free ∧ s.answered w 0x9018 3 0 t)) ∧
  (∀ (s : State) (g : Nat) (rest : List Nat) (p : Page), s.cmds.sweep = g :: rest → s.wbOf g = false → s.changing g = false →
    s.isMapped g = true → s.page? (s.mapEntry g).page = some p → p.gen < (s.keyRec (p.slotKey 0)).base →
    s.loggedLines g = [] →
    Does .cryptoDiscardSweep s [.pwr, .tier, .slices, .budget, .media, .map, .care, .yoke, .keys, .reg, .tabs, .obs, .perf,
      .rstats, .cmds] (fun t =>
      (t.mapEntry g).st = .discarded)) ∧
  (∀ (s : State) (j : Job), s.job 0x9018 = some j → s.job 0x8005 = none → s.ctl 0x9018 = 1 → s.cryptoReady j = true →
    Does .cryptoDiscardDone s [.yoke, .keys, .obs, .cmds] (fun t => t.ctl 0x9018 = 2 ∧ t.job 0x9018 = none ∧
      t.keys.discarded = sat32 s.keys.discarded)) ∧
  (∀ (s : State) (j : Job), s.job 0x8005 = some j → s.job 0x9018 = none → s.cryptoReady j = true → s.mayPass 0x13 = true →
    Does .cryptoDiscardDone s [.yoke, .keys, .obs, .perf, .cmds] (fun t => t.job 0x8005 = none ∧
      t.keys = { s.keys with discarded := sat32 s.keys.discarded } ∧
      { ty := 0x13, aux := 0x8005, num := j.keyId } ∈ t.yoke.out)) ∧
  (∀ (s : State) (w : Who), s.accepted w 0x9020 4 [1] = true → s.entry 0x9020 2 ≠ 0 →
    s.spanOk 16384 (s.entry 0x9020 1) (s.entry 0x9020 2) = true → s.ctl 0x9020 ≠ 1 →
    Does (.scrubStart w) s [.reg, .dict, .mbox, .obs, .perf, .cmds] (fun t => t.ctl 0x9020 = 1 ∧ t.mbox.scanResults = [] ∧
      t.job 0x9020 = some
        { base := s.entry 0x9020 1
          length := s.entry 0x9020 2
          flags := s.entry 0x9020 3
          since := s.clk.now } ∧ s.answered w 0x9020 4 0 t)) ∧
  (∀ (s : State) (w : Who), s.accepted w 0x9020 4 [0] = true → s.ctl 0x9020 = 1 →
    Does (.scrubCancel w) s [.reg, .dict, .obs, .perf, .cmds] (fun t => t.ctl 0x9020 = 0 ∧ t.job 0x9020 = none ∧
      s.answered w 0x9020 4 0 t)) ∧
  (∀ (s : State) (j : Job), s.ctl 0x9020 = 1 → s.checks = true → s.job 0x9020 = some j →
    j.flags % 2 = 0 →
    Does (.scrubPassDone []) s [.clk, .reg, .mbox, .obs, .perf, .cmds] (fun t => t.ctl 0x9020 = 2 ∧ t.job 0x9020 = none ∧
      t.val 0x9020 6 = (s.scrubTo (j.base + j.length)).summary)) ∧
  (∀ (s : State) (w : Who), s.accepted w 0x9028 1 [1] = true → s.inBrine = true → s.brineRoom = true → s.ctl 0x9028 ≠ 1 →
    s.paired = false →
    Does (.brineRelease w) s [.care, .yoke, .dict, .obs, .perf, .cmds] (fun t => t.care.brine = 2 ∧ t.ctl 0x9028 = 2 ∧
      s.answered w 0x9028 1 0 t)) ∧
  (∀ (s : State) (w : Who), s.accepted w 0x9040 2 [1] = true → s.ctl 0x9040 ≠ 1 → (s.range (s.entry 0x9040 1)).size ≠ 0 →
    s.rekeyLeft (s.entry 0x9040 1) = [] → s.tabs.rekeying = [] →
    Does (.rekey w) s [.pwr, .media, .map, .reg, .tabs, .dict, .obs, .perf, .cmds] (fun t => t.ctl 0x9040 = 2 ∧
      t.tabs.rekeying = [] ∧ s.answered w 0x9040 2 0 t))

/-- Shutdown, identification, the power budget and retraining (R179, R180, R385, R451, R560), each write having passed checks 1 to 8. (1)
PREPARE_SHUTDOWN_START, not running or prepared, runs, Control 01h; (2) PREPARE_SHUTDOWN_CANCEL of one not prepared sets Control 00h.
SHUTDOWN_PREPARED of a running one with DirtyBytes 0, the map resident, no lap under way, disarmed or armed: (3) no lap in force covers
the map, so one begins and Control stays 01h; (4) the lap it began is in force and nothing in the map has changed since: Control is 02h,
ArmState 03h, and 5033h is logged. (5) IDENTIFY_START with a duration runs for that many seconds; (6) IDENTIFY_STOP ends it; (7)
IDENTIFY_EXPIRE moves the time to its end. (8) POWER_BUDGET_WRITE stores the budget, with 2021h where it changes; (9) RETRAIN adds the
stacks of its mask to those to be retrained. -/
def Obligations.ModuleCommands : Prop :=
  (∀ (s : State) (w : Who), s.accepted w 0x9060 1 [1] = true → s.ctl 0x9060 ∉ [1, 2] →
    Does (.prepareShutdownStart w) s [.dict, .obs, .perf, .cmds] (fun t => t.ctl 0x9060 = 1 ∧ s.answered w 0x9060 1 0 t)) ∧
  (∀ (s : State) (w : Who), s.accepted w 0x9060 1 [0] = true → s.ctl 0x9060 ≠ 2 →
    Does (.prepareShutdownCancel w) s [.dict, .obs, .perf, .cmds] (fun t => t.ctl 0x9060 = 0 ∧ s.answered w 0x9060 1 0 t)) ∧
  (∀ s : State, s.ctl 0x9060 = 1 → s.dirtyBytes = 0 → s.map.resident = true → s.map.lapRunning = false → s.pwr.arm ≤ 1 →
    s.shutdownLap = false →
    Does .shutdownPrepared s [.pwr, .media, .map, .care, .yoke, .reg, .obs, .perf, .cmds] (fun t => t.ctl 0x9060 = 1 ∧
      t.map.lapRunning = true ∧ t.map.lapNext.lap = s.map.ckpt.lap + 1 ∧ t.map.lapNext.entries = s.map.entries ∧
      t.map.entries = s.map.entries ∧ t.pwr.arm = s.pwr.arm)) ∧
  (∀ s : State, s.ctl 0x9060 = 1 → s.dirtyBytes = 0 → s.map.resident = true → s.map.lapRunning = false → s.pwr.arm ≤ 1 →
    s.shutdownLap = true →
    Does .shutdownPrepared s [.pwr, .obs, .cmds] (fun t => t.ctl 0x9060 = 2 ∧ t.pwr = { s.pwr with arm := 3 } ∧
      t.obs = (s.log 0x5033 0).obs)) ∧
  (∀ (s : State) (w : Who), s.accepted w 0x9070 2 [1] = true → s.entry 0x9070 1 ≠ 0 →
    Does (.identifyStart w) s [.dict, .obs, .perf, .cmds] (fun t =>
      t.cmds.identUntil = s.clk.now + s.entry 0x9070 1 * 1000000000 ∧ s.answered w 0x9070 2 0 t)) ∧
  (∀ (s : State) (w : Who), s.accepted w 0x9070 2 [0] = true →
    Does (.identifyStop w) s [.dict, .obs, .perf, .cmds] (fun t => t.cmds.identUntil = 0 ∧ s.answered w 0x9070 2 0 t)) ∧
  (∀ s : State, Does .identifyExpire s [.clk, .obs, .perf] (fun t => t.clk.now = max s.clk.now s.cmds.identUntil)) ∧
  (∀ (s : State) (w : Who) (mw : Nat), mw < 2 ^ 32 → s.accepted w 0x2000 1 (natLe 4 mw) = true →
    Does (.powerBudgetWrite w mw) s [.dict, .obs, .perf] (fun t => t.entry 0x2000 1 = mw ∧
      t.obs.pail = ((if mw = (s.asked w).entry 0x2000 1 then s.asked w else (s.asked w).log 0x2021 mw)).obs.pail ∧
      s.answered w 0x2000 1 0 t)) ∧
  (∀ (s : State) (w : Who) (mask : BitVec 8), s.accepted w 0x2130 6 [mask] = true →
    Does (.retrain w mask) s [.reg, .dram, .dict, .obs, .perf] (fun t =>
      t.dram.retrainMask = s.dram.retrainMask ||| mask ∧ s.answered w 0x2130 6 0 t))

/-- Keys and attestation (R406, R417, R422, R423), each write having passed checks 1 to 8. For a Free ID: (1) KEY_GENERATE makes it
Active with a key drawn anew; (2) KEY_IMPORT of a blob that passes every check makes it Active with the key the blob unwraps to; (3) of a
blob that fails one it leaves every record as it was and is refused with 04020000h; both imports drop the blob. (4) KEY_REGENERATE
replaces the import key pair and leaves the records. (5) ATTEST_SIGN while nothing is being signed starts the signing for the role;
(6) ATTEST_SIGN_DONE gives the role its object, for the object it selects. -/
def Obligations.KeyCommands : Prop :=
  (∀ (s : State) (w : Who), s.accepted w 0x4002 5 [1] = true → (s.keyRec (s.selector (s.role w) 0x4001 1)).st = 0 →
    Does (.keyGenerate w) s [.clk, .keys, .dict, .obs, .perf] (fun t => t.keyRec (s.selector (s.role w) 0x4001 1) =
      { s.keyRec (s.selector (s.role w) 0x4001 1) with
        st := 1
        imported := false
        material := Config.freshKey s.clk.free
        lost := false } ∧ t.keys.cmd = 2 ∧ t.clk.free = s.clk.free + 1 ∧ s.answered w 0x4002 5 0 t)) ∧
  (∀ (s : State) (w : Who) (v : ImportVerdict), s.accepted w 0x4002 5 [2] = true →
    (s.keyRec (s.selector (s.role w) 0x4001 1)).st = 0 → importReason s.keys.blob v = 0 →
    Does (.keyImport w v) s [.clk, .keys, .dict, .obs, .perf] (fun t => t.keyRec (s.selector (s.role w) 0x4001 1) =
      { s.keyRec (s.selector (s.role w) 0x4001 1) with
        st := 1
        imported := true
        material := v.material
        lost := false } ∧ t.keys.cmd = 2 ∧ t.keys.blob = [] ∧ s.answered w 0x4002 5 0 t)) ∧
  (∀ (s : State) (w : Who) (v : ImportVerdict), s.accepted w 0x4002 5 [2] = true →
    (s.keyRec (s.selector (s.role w) 0x4001 1)).st = 0 → importReason s.keys.blob v ≠ 0 →
    Does (.keyImport w v) s [.keys, .dict, .obs, .perf] (fun t => t.keys.recs = s.keys.recs ∧ t.keys.cmd = 3 ∧
      t.keys.blob = [] ∧ s.answered w 0x4002 5 0x04020000 t)) ∧
  (∀ (s : State) (w : Who), s.accepted w 0x4010 2 [1] = true →
    Does (.keyRegenerate w) s [.keys, .dict, .obs, .perf, .cmds] (fun t => t.keys.encapGen = s.keys.encapGen + 1 ∧
      t.keys.recs = s.keys.recs ∧ t.ctl 0x4010 = 2 ∧ s.answered w 0x4010 2 0 t)) ∧
  (∀ (s : State) (w : Who), s.accepted w 0x4020 2 [1] = true → s.keys.signing = none →
    Does (.attestSign w) s [.keys, .dict, .obs, .perf] (fun t => t.keys = { s.keys with
      signing := some (s.role w)
      attest := 1 } ∧ s.answered w 0x4020 2 0 t)) ∧
  (∀ (s : State) (r : Role), s.keys.signing = some r → Does .attestSignDone s [.keys] (fun t => t.keys.signing = none ∧
    t.keys.attest = 2 ∧ Tab.get 0 t.keys.objects (roleNum r) = leNat (s.attestation (s.selector r 0x4020 1)) ∧
    t.keys.recs = s.keys.recs))

/-- The front cache as a whole and its maintenance (R363 to R369), each write having passed checks 1 to 8. (1) FRONT_CACHE_DISABLE of an
enabled cache starts the drain; (2) FRONT_CACHE_DRAINED with no line left turns the cache off, with 2103h; (3) FRONT_CACHE_ENABLE turns it
on. With the rights over a span in the space, no such command under way and no parity error found: (4) RANGE_CLEAN where every line held
is Unmodified counts the bytes gone through and the lines skipped; (5) RANGE_INVALIDATE, of the kinds 0 and 1, of such lines leaves none
but, for kind 0, locked ones; (6) LINE_LOCK of a line held, not locked and lockable, locks it; (7) its unlock form unlocks and counts the
one locked line of the span; (8) LINE_ZERO of an ordinary line queues a write of zeros to it. MAINTENANCE_DONE (9) with nothing left to
wait for ends the command, Control 02h; (10) for a clean that waits for one Modified line, its sector in the tier, cleans it, counts it
and ends the command. -/
def Obligations.FrontCacheCommands : Prop :=
  (∀ (s : State) (w : Who), s.accepted w 0x2100 1 [0] = true → s.fastOn = true → s.fc.enabled = true → s.fc.disabling = false →
    Does (.frontCacheDisable w) s [.fc, .tier, .slices, .budget, .dict, .obs, .perf] (fun t => t.fc.disabling = true ∧
      t.entry 0x2100 1 = 0 ∧ s.answered w 0x2100 1 0 t)) ∧
  (∀ s : State, s.fc.disabling = true → s.fc.lines = [] → Does .frontCacheDrained s [.fc, .obs] (fun t =>
    t.fc = { s.fc with
      enabled := false
      disabling := false } ∧ t.obs = (s.log 0x2103 s.fc.drainWritten).obs)) ∧
  (∀ (s : State) (w : Who), s.accepted w 0x2100 1 [1] = true → s.fastOn = true → s.fc.enabled = false →
    Does (.frontCacheEnable w) s [.fc, .dict, .obs, .perf] (fun t => t.fc = { s.fc with enabled := true } ∧
      t.entry 0x2100 1 = 1 ∧ s.answered w 0x2100 1 0 t)) ∧
  (∀ (s : State) (w : Who) (found : List (Nat × CacheFault)), s.accepted w 0x2120 4 [1] = true →
    (∀ x ∈ found, x.2 ∉ [CacheFault.fcLine, .fcTag]) → s.entry 0x2120 2 ≠ 0 →
    s.spanRights w false false (s.entry 0x2120 1) (s.entry 0x2120 2) = true →
    s.spanOk 64 (s.entry 0x2120 1) (s.entry 0x2120 2) = true → s.ctl 0x2120 ≠ 1 →
    (∀ kx ∈ s.fcSpan (s.entry 0x2120 1) (s.entry 0x2120 2), kx.2.st = .unmodified) →
    Does (.rangeClean w found) s [.dict, .obs, .perf, .cmds] (fun t => t.ctl 0x2120 = 1 ∧ t.val 0x2120 5 = s.entry 0x2120 2 ∧
      t.val 0x2120 7 = s.skippedLines (s.entry 0x2120 1) (s.entry 0x2120 2) ∧ s.answered w 0x2120 4 0 t)) ∧
  (∀ (s : State) (w : Who) (found : List (Nat × CacheFault)), s.accepted w 0x2121 4 [1] = true →
    (∀ x ∈ found, x.2 ∉ [CacheFault.fcLine, .fcTag]) → s.entry 0x2121 2 ≠ 0 → s.entry 0x2121 3 % 4 < 2 →
    s.spanRights w false false (s.entry 0x2121 1) (s.entry 0x2121 2) = true →
    s.spanOk 64 (s.entry 0x2121 1) (s.entry 0x2121 2) = true → s.ctl 0x2121 ≠ 1 →
    (∀ kx ∈ s.fcSpan (s.entry 0x2121 1) (s.entry 0x2121 2), kx.2.st = .unmodified) →
    Does (.rangeInvalidate w found) s [.fc, .dict, .obs, .perf, .cmds] (fun t => t.ctl 0x2121 = 1 ∧
      (∀ kx ∈ t.fcSpan (s.entry 0x2121 1) (s.entry 0x2121 2), kx.2.locked = true ∧ s.entry 0x2121 3 % 2 = 0) ∧
      s.answered w 0x2121 4 0 t)) ∧
  (∀ (s : State) (w : Who) (found : List (Nat × CacheFault)) (l : Nat) (x : FcLine), s.accepted w 0x2122 4 [1] = true →
    (∀ x ∈ found, x.2 ∉ [CacheFault.fcLine, .fcTag]) → s.entry 0x2122 1 = l * 64 →
    s.entry 0x2122 2 = 64 → s.entry 0x2122 3 % 2 = 0 → s.spanRights w false false (l * 64) 64 = true →
    l * 64 + 64 ≤ s.ident.variant.capacity → s.ctl 0x2122 ≠ 1 → s.ordinary l = true → s.fcLine? l = some x →
    x.locked = false → s.lockable l = true →
    Does (.lineLock w found) s [.fc, .dict, .obs, .perf, .cmds] (fun t => t.fcLine? l = some { x with locked := true } ∧
      t.ctl 0x2122 = 1 ∧ s.answered w 0x2122 4 0 t)) ∧
  (∀ (s : State) (w : Who) (found : List (Nat × CacheFault)) (l : Nat) (x : FcLine), s.accepted w 0x2122 4 [1] = true →
    (∀ x ∈ found, x.2 ∉ [CacheFault.fcLine, .fcTag]) → s.entry 0x2122 2 ≠ 0 →
    s.entry 0x2122 3 % 2 = 1 → s.spanRights w false false (s.entry 0x2122 1) (s.entry 0x2122 2) = true →
    s.spanOk 64 (s.entry 0x2122 1) (s.entry 0x2122 2) = true → s.ctl 0x2122 ≠ 1 →
    (s.fcSpan (s.entry 0x2122 1) (s.entry 0x2122 2)).filter (fun kx => kx.2.locked) = [(l, x)] →
    Does (.lineLock w found) s [.fc, .dict, .obs, .perf, .cmds] (fun t => t.fcLine? l = some { x with locked := false } ∧
      t.ctl 0x2122 = 1 ∧ t.val 0x2122 6 = 1 ∧ s.answered w 0x2122 4 0 t)) ∧
  (∀ (s : State) (w : Who) (l : Nat), s.accepted w 0x2123 4 [1] = true → s.entry 0x2123 1 = l * 64 → s.entry 0x2123 2 = 64 →
    s.spanRights w true false (l * 64) 64 = true → l * 64 + 64 ≤ s.ident.variant.capacity → s.ctl 0x2123 ≠ 1 →
    s.ordinary l = true →
    Does (.lineZero w) s [.reqs, .dict, .obs, .perf, .cmds] (fun t => (∃ q, t.reqs.list = s.reqs.list ++ [q] ∧
      q.kind = .write ∧ q.line = l ∧ q.data = 0 ∧ q.be = fullMask ∧ q.entry = internal ∧ q.tag = 0x2123) ∧
      t.ctl 0x2123 = 1 ∧ s.answered w 0x2123 4 0 t)) ∧
  (∀ (s : State) (k : MaintKind) (j : Job), s.ctl (maintIndex k) = 1 → s.job (maintIndex k) = some j → j.marked = [] →
    s.zeroing (maintIndex k) = false → Does (.maintenanceDone k) s [.cmds] (fun t => t.ctl (maintIndex k) = 2 ∧
      t.job (maintIndex k) = none)) ∧
  (∀ (s : State) (j : Job) (l : Nat) (x : FcLine) (y : Sector), s.ctl 0x2120 = 1 → s.job 0x2120 = some j → j.marked = [l] →
    s.zeroing 0x2120 = false → s.fcLine? l = some x → x.st = .modified → s.sector? (sectorOf l) = some y →
    Does (.maintenanceDone .clean) s [.fc, .tier, .slices, .obs, .perf, .cmds] (fun t => t.ctl 0x2120 = 2 ∧
      t.fcLine? l = some { x with st := .unmodified } ∧ t.val 0x2120 6 = s.val 0x2120 6 + 1))

/-- The firmware update over the dictionary, Test state, the built-in tests and read-back (R414, R536 to R545), each write having passed
checks 1 to 8. With no erase or verify running: (1) FW_BEGIN empties the inactive slot and starts its erase; (2) FW_CHUNK, begun and
within 8 MiB, stores the bytes at the offset and moves it on; (3) FW_VERIFY, begun, starts the verify; (4) FW_ACTIVATE of a
verified image, outside recovery, makes the other slot the one to run next. (5) FW_CANCEL abandons the update. (6) FW_OPERATION_DONE
ends an erase; (7) of a verify it gives the reason, and the image counts as verified just where the reason is 0. (8) TEST_STATE_ENTER
from the Prepared state, in no pair and with no background command: Test state, memory not active. (9) TEST_STATE_LEAVE: the module
starts again from its current slot. (10) SELF_TEST_START of a test that may run now starts it, its results empty; (11)
SELF_TEST_CANCEL ends a running one; (12) SELF_TEST_DONE of one other than the media test gives the errors and the first address, and fails
with any error. (13) READ_BACK_DATA of a permitted read opens a transfer of the captured bytes. -/
def Obligations.FirmwareAndTestCommands : Prop :=
  (∀ (s : State) (w : Who), s.accepted w 0x9050 3 [1] = true → s.fw.ctl ≠ 1 →
    Does (.fwBegin w) s [.keys, .fw, .dict, .obs, .perf] (fun t => (t.fwSlot s.inactiveSlot).chunks = [] ∧ t.fw.begun = true ∧
      t.fw.ctl = 1 ∧ t.fw.op = 1 ∧ t.fw.received = 0 ∧ t.fw.passed = false ∧ s.answered w 0x9050 3 0 t)) ∧
  (∀ (s : State) (w : Who) (d : Bytes), s.accepted w 0x9050 2 d = true → s.fw.ctl ≠ 1 → s.fw.begun = true →
    s.entry 0x9050 1 + d.length ≤ 8388608 →
    Does (.fwChunk w d) s [.keys, .fw, .dict, .obs, .perf] (fun t =>
      (t.fwSlot s.inactiveSlot).chunks = ((s.fwSlot s.inactiveSlot).write (s.entry 0x9050 1) d).chunks ∧
      t.entry 0x9050 1 = s.entry 0x9050 1 + d.length ∧ t.fw.received = s.fw.received + d.length ∧ t.fw.passed = false ∧
      s.answered w 0x9050 2 0 t)) ∧
  (∀ (s : State) (w : Who), s.accepted w 0x9050 3 [2] = true → s.fw.ctl ≠ 1 → s.fw.begun = true →
    Does (.fwVerify w) s [.fw, .dict, .obs, .perf] (fun t => t.fw = { s.fw with
      ctl := 1
      op := 2
      passed := false } ∧ s.answered w 0x9050 3 0 t)) ∧
  (∀ (s : State) (w : Who), s.accepted w 0x9050 3 [3] = true → s.fw.ctl ≠ 1 → s.fw.passed = true → s.pwr.boot ≠ .recovery →
    Does (.fwActivate w) s [.fw, .dict, .obs, .perf] (fun t => t.fw = { s.fw with
      pending := 1 - s.fw.current
      ctl := 2 } ∧ s.answered w 0x9050 3 0 t)) ∧
  (∀ (s : State) (w : Who), s.accepted w 0x9050 3 [0] = true →
    Does (.fwCancel w) s [.fw, .dict, .obs, .perf] (fun t => t.fw = { s.fw with
      begun := false
      ctl := 0
      op := 0
      passed := false } ∧ s.answered w 0x9050 3 0 t)) ∧
  (∀ (s : State) (v : FwVerdict), s.fw.ctl = 1 → s.fw.op = 1 → Does (.fwOperationDone v) s [.fw] (fun t => t.fw = { s.fw with
    ctl := 2
    op := 0 })) ∧
  (∀ (s : State) (v : FwVerdict), s.fw.ctl = 1 → s.fw.op = 2 → Does (.fwOperationDone v) s [.fw] (fun t =>
    t.fw.result = s.fwReason s.inactiveSlot v ∧ (t.fw.passed = true ↔ s.fwReason s.inactiveSlot v = 0) ∧ t.fw.op = 0 ∧
    t.fw.ctl = (if s.fwReason s.inactiveSlot v = 0 then 2 else 4))) ∧
  (∀ (s : State) (w : Who), s.accepted w 0xA000 1 [1] = true → s.pwr.test = 0 → s.pwr.arm = 3 → s.yoke.member ∈ [0, 1, 5, 8] →
    s.mbox.background = 0 →
    Does (.testStateEnter w) s [.pwr, .media, .care, .reg, .dict, .obs, .perf, .cmds] (fun t => t.pwr.test = 2 ∧
      t.pwr.memoryActive = false ∧ t.ctl 0xA000 = 0 ∧ s.answered w 0xA000 1 0 t)) ∧
  (∀ (s : State) (w : Who), s.accepted w 0xA000 1 [0] = true → s.pwr.test ≠ 0 →
    Does (.testStateLeave w) s [.pwr, .port, .reqs, .fc, .tier, .slices, .budget, .media, .map, .care, .yoke, .atom, .keys,
      .reg, .therm, .bank, .dram, .gills, .dict, .mbox, .obs, .perf, .firkin, .rstats, .fw, .dump, .cmds, .tap] (fun t =>
      t.pwr.boot = .running ∧ t.fw.current = s.fw.current ∧ t.firkin.running = true)) ∧
  (∀ (s : State) (w : Who), s.accepted w 0xA010 3 [1] = true →
    (s.selector (s.role w) 0xA010 1 ∈ [1, 3] → s.pwr.test = 2) →
    (s.selector (s.role w) 0xA010 1 = 4 → s.selector (s.role w) 0xA010 2 ≠ 0) → s.ctl 0xA010 ≠ 1 →
    Does (.selfTestStart w) s [.tier, .dict, .obs, .perf, .cmds] (fun t => t.ctl 0xA010 = 1 ∧ t.val 0xA010 5 = 0 ∧
      t.job 0xA010 = some
        { base := s.selector (s.role w) 0xA010 1
          count := s.selector (s.role w) 0xA010 2
          since := s.clk.now } ∧ s.answered w 0xA010 3 0 t)) ∧
  (∀ (s : State) (w : Who), s.accepted w 0xA010 3 [0] = true → s.ctl 0xA010 = 1 →
    Does (.selfTestCancel w) s [.dict, .obs, .perf, .cmds] (fun t => t.ctl 0xA010 = 0 ∧ t.job 0xA010 = none ∧
      s.answered w 0xA010 3 0 t)) ∧
  (∀ (s : State) (errors first : Nat) (bad : List Nat) (j : Job), s.job 0xA010 = some j → s.ctl 0xA010 = 1 → j.base ≠ 4 →
    Does (.selfTestDone errors first bad) s [.cmds] (fun t => t.val 0xA010 5 = errors ∧ t.val 0xA010 4 = 100 ∧
      t.val 0xA010 6 = (if errors = 0 then 0 else first) ∧ t.ctl 0xA010 = (if errors = 0 then 2 else 4) ∧
      t.job 0xA010 = none)) ∧
  (∀ (s : State) (w : Who) (v : Bytes), s.takesDtp w = true → s.transferRuns w.route = false →
    (s.asked w).readOf w 0xA040 3 false = .ok v → Does (.readBackData w) s [.dict, .obs, .perf] (fun t =>
      t.opened w 0 (newTransfer false (dtpReq w 3 0 0 0xA040 3 []) (s.role w) v.length v s.clk.now) ∧
      t.dict.out = s.dict.out ++ [⟨w.route, 131, 0, 0, 3, 0xA040, 0, natLe 4 v.length⟩]))

/-- Counters, the Firkin and the event pail over the dictionary (R507, R509, R510, R515, R521, R523), each write having passed checks 1 to 8.
With no snapshot being taken, (1) COUNTER_SNAPSHOT latches every block at this tick, and (2) COUNTER_SNAPSHOT_CLEAR also starts counters,
Overflow and samples anew. (3) OVERFLOW_CLEAR of a block clears the bits written as one and leaves the values. (4) FIRKIN_FREEZE of a
running Firkin freezes it for 600 s; (5) FIRKIN_THAW of one whose period has not ended thaws it. (6) EVENT_PAIL_READ that is permitted
fixes the packet of what it read and opens its transfer, the pail unchanged. (7) EVENT_PAIL_DROP_REMAINDER of a fixed packet with no event
lost drops the packet's entries and ends the transfer of the pail. (8) OVERRUN_READ answers Overrun and clears it. -/
def Obligations.CounterAndPailCommands : Prop :=
  (∀ (s : State) (w : Who), s.accepted w 0x6FF0 1 [1] = true → s.perf.snapSt ≠ 1 →
    Does (.counterSnapshot w) s [.dict, .obs, .perf] (fun t => t.perf.snapSt = 1 ∧ t.perf.snapStamp = s.clk.stamp ∧
      t.perf.latched = ((List.range 61).map (fun b => (s.asked w).latchBlock b)).foldl (· ++ ·) [] ∧
      s.answered w 0x6FF0 1 0 t)) ∧
  (∀ (s : State) (w : Who), s.accepted w 0x6FF0 1 [2] = true → s.perf.snapSt ≠ 1 →
    Does (.counterSnapshotClear w) s [.dict, .obs, .perf] (fun t => t.perf.snapSt = 1 ∧ t.perf.value = [] ∧
      t.perf.cycles = [] ∧ t.perf.overflow = [] ∧ t.perf.samples = [] ∧
      t.perf.latched = ((List.range 61).map (fun b => (s.asked w).latchBlock b)).foldl (· ++ ·) [] ∧
      s.answered w 0x6FF0 1 0 t)) ∧
  (∀ (s : State) (w : Who) (block : Nat) (mask : BitVec 8), block ≤ 60 → s.accepted w (0x6000 + block) 2 [mask] = true →
    Does (.overflowClear w block mask) s [.dict, .obs, .perf] (fun t => Tab.get 0 t.perf.overflow block =
      (BitVec.ofNat 8 (Tab.get 0 (s.asked w).perf.overflow block) &&& ~~~ mask).toNat ∧
      t.perf.value = (s.asked w).perf.value ∧ s.answered w (0x6000 + block) 2 0 t)) ∧
  (∀ (s : State) (w : Who), s.accepted w 0x7000 2 [1] = true → s.firkin.frozen = false →
    Does (.firkinFreeze w) s [.firkin, .dict, .obs, .perf] (fun t => t.firkin = { s.firkin with
      frozen := true
      frozenAt := s.clk.now
      thawAt := s.clk.now + 600000000000 } ∧ s.answered w 0x7000 2 0 t)) ∧
  (∀ (s : State) (w : Who), s.accepted w 0x7000 2 [0] = true → s.firkin.frozen = true →
    s.firkinAge < s.entry 0x7000 1 →
    Does (.firkinThaw w) s [.firkin, .dict, .obs, .perf] (fun t => t.firkin = { s.firkin with frozen := false } ∧
      s.answered w 0x7000 2 0 t)) ∧
  (∀ (s : State) (w : Who) (v : Bytes), s.takesDtp w = true → s.transferRuns w.route = false →
    (s.asked w).readOf w 0x7101 2 false = .ok v → Does (.eventPailRead w) s [.dict, .obs, .perf] (fun t =>
      t.obs.packet = some (v.length / 32) ∧ t.obs.pail = (s.asked w).obs.pail ∧
      t.opened w 0 (newTransfer false (dtpReq w 3 0 0 0x7101 2 []) (s.role w) v.length v s.clk.now) ∧
      t.dict.out = s.dict.out ++ [⟨w.route, 131, 0, 0, 2, 0x7101, 0, natLe 4 v.length⟩])) ∧
  (∀ (s : State) (w : Who) (n r : Nat) (x : Transfer), s.accepted w 0x7100 5 [1] = true → (s.asked w).obs.packet = some n →
    (s.asked w).obs.lostPending = 0 →
    s.dict.transfers.find? (fun kt => decide (kt.2.index = 0x7101) && decide (kt.2.sub = 2) && decide (kt.2.ended = 0)) =
      some (r, x) → Tab.look s.dict.transfers r = some x →
    Does (.eventPailDropRemainder w) s [.dict, .obs, .perf] (fun t => t.obs.pail = (s.asked w).obs.pail.drop n ∧
      t.obs.packet = none ∧ Tab.look t.dict.transfers r = some { x with
        ended := 0x01060000
        data := [] } ∧ s.answered w 0x7100 5 0 t)) ∧
  (∀ (s : State) (w : Who) (v : Bytes), s.takesDtp w = true → (s.asked w).readOf w 0x7100 3 true = .ok v →
    Does (.overrunRead w) s [.dict, .obs, .perf] (fun t => t.obs.overrun = false ∧ t.obs.pail = (s.asked w).obs.pail ∧
      t.dict.out = s.dict.out ++ [⟨w.route, 129, 0, 0, 3, 0x7100, 0, v⟩]))
end

