-- ==== Sys2Proof/Laws/State.lean ====
section
/-!
SUPPORT. What each setter leaves: one lemma per group per setter, true by rfl, so that no later proof unfolds a record
update; and the rules of the frame vocabulary (reflexive, transitive, extended by one setter).
-/
namespace Sys2Proof.Machine

theorem State.keepsBut_refl (ps : List Part) (s : State) : s.keepsBut ps s := by
  intro p _
  cases p <;> rfl

theorem State.keepsBut_trans {ps : List Part} {s t u : State}
    (h1 : s.keepsBut ps t) (h2 : t.keepsBut ps u) : s.keepsBut ps u := by
  intro p hp
  have a := h1 p hp
  have b := h2 p hp
  cases p <;> exact Eq.trans b a

theorem State.keepsBut_mono {ps qs : List Part} {s t : State}
    (h : s.keepsBut ps t) (sub : ∀ p, p ∈ ps → p ∈ qs) : s.keepsBut qs t :=
  fun p hp => h p (fun hq => hp (sub p hq))

@[simp] theorem State.upIdent_ident (s : State) (f : Ident → Ident) : (s.upIdent f).ident = f s.ident := (rfl)
@[simp] theorem State.upIdent_clk (s : State) (f : Ident → Ident) : (s.upIdent f).clk = s.clk := (rfl)
@[simp] theorem State.upIdent_pwr (s : State) (f : Ident → Ident) : (s.upIdent f).pwr = s.pwr := (rfl)
@[simp] theorem State.upIdent_port (s : State) (f : Ident → Ident) : (s.upIdent f).port = s.port := (rfl)
@[simp] theorem State.upIdent_reqs (s : State) (f : Ident → Ident) : (s.upIdent f).reqs = s.reqs := (rfl)
@[simp] theorem State.upIdent_fc (s : State) (f : Ident → Ident) : (s.upIdent f).fc = s.fc := (rfl)
@[simp] theorem State.upIdent_tier (s : State) (f : Ident → Ident) : (s.upIdent f).tier = s.tier := (rfl)
@[simp] theorem State.upIdent_slices (s : State) (f : Ident → Ident) : (s.upIdent f).slices = s.slices := (rfl)
@[simp] theorem State.upIdent_budget (s : State) (f : Ident → Ident) : (s.upIdent f).budget = s.budget := (rfl)
@[simp] theorem State.upIdent_media (s : State) (f : Ident → Ident) : (s.upIdent f).media = s.media := (rfl)
@[simp] theorem State.upIdent_map (s : State) (f : Ident → Ident) : (s.upIdent f).map = s.map := (rfl)
@[simp] theorem State.upIdent_care (s : State) (f : Ident → Ident) : (s.upIdent f).care = s.care := (rfl)
@[simp] theorem State.upIdent_yoke (s : State) (f : Ident → Ident) : (s.upIdent f).yoke = s.yoke := (rfl)
@[simp] theorem State.upIdent_atom (s : State) (f : Ident → Ident) : (s.upIdent f).atom = s.atom := (rfl)
@[simp] theorem State.upIdent_keys (s : State) (f : Ident → Ident) : (s.upIdent f).keys = s.keys := (rfl)
@[simp] theorem State.upIdent_reg (s : State) (f : Ident → Ident) : (s.upIdent f).reg = s.reg := (rfl)
@[simp] theorem State.upIdent_therm (s : State) (f : Ident → Ident) : (s.upIdent f).therm = s.therm := (rfl)
@[simp] theorem State.upIdent_bank (s : State) (f : Ident → Ident) : (s.upIdent f).bank = s.bank := (rfl)
@[simp] theorem State.upIdent_dram (s : State) (f : Ident → Ident) : (s.upIdent f).dram = s.dram := (rfl)
@[simp] theorem State.upIdent_gills (s : State) (f : Ident → Ident) : (s.upIdent f).gills = s.gills := (rfl)
@[simp] theorem State.upIdent_tabs (s : State) (f : Ident → Ident) : (s.upIdent f).tabs = s.tabs := (rfl)
@[simp] theorem State.upIdent_dict (s : State) (f : Ident → Ident) : (s.upIdent f).dict = s.dict := (rfl)
@[simp] theorem State.upIdent_mbox (s : State) (f : Ident → Ident) : (s.upIdent f).mbox = s.mbox := (rfl)
@[simp] theorem State.upIdent_obs (s : State) (f : Ident → Ident) : (s.upIdent f).obs = s.obs := (rfl)
@[simp] theorem State.upIdent_perf (s : State) (f : Ident → Ident) : (s.upIdent f).perf = s.perf := (rfl)
@[simp] theorem State.upIdent_firkin (s : State) (f : Ident → Ident) : (s.upIdent f).firkin = s.firkin := (rfl)
@[simp] theorem State.upIdent_rstats (s : State) (f : Ident → Ident) : (s.upIdent f).rstats = s.rstats := (rfl)
@[simp] theorem State.upIdent_fw (s : State) (f : Ident → Ident) : (s.upIdent f).fw = s.fw := (rfl)
@[simp] theorem State.upIdent_dump (s : State) (f : Ident → Ident) : (s.upIdent f).dump = s.dump := (rfl)
@[simp] theorem State.upIdent_cmds (s : State) (f : Ident → Ident) : (s.upIdent f).cmds = s.cmds := (rfl)
@[simp] theorem State.upIdent_tap (s : State) (f : Ident → Ident) : (s.upIdent f).tap = s.tap := (rfl)
@[simp] theorem State.upIdent_pending (s : State) (f : Ident → Ident) : (s.upIdent f).pending = s.pending := (rfl)
theorem State.keepsBut_upIdent {ps : List Part} (s : State) (f : Ident → Ident)
    (h : Part.ident ∈ ps) : s.keepsBut ps (s.upIdent f) := by
  intro p hp
  cases p <;> first | rfl | exact absurd h hp

@[simp] theorem State.upClk_ident (s : State) (f : Clk → Clk) : (s.upClk f).ident = s.ident := (rfl)
@[simp] theorem State.upClk_clk (s : State) (f : Clk → Clk) : (s.upClk f).clk = f s.clk := (rfl)
@[simp] theorem State.upClk_pwr (s : State) (f : Clk → Clk) : (s.upClk f).pwr = s.pwr := (rfl)
@[simp] theorem State.upClk_port (s : State) (f : Clk → Clk) : (s.upClk f).port = s.port := (rfl)
@[simp] theorem State.upClk_reqs (s : State) (f : Clk → Clk) : (s.upClk f).reqs = s.reqs := (rfl)
@[simp] theorem State.upClk_fc (s : State) (f : Clk → Clk) : (s.upClk f).fc = s.fc := (rfl)
@[simp] theorem State.upClk_tier (s : State) (f : Clk → Clk) : (s.upClk f).tier = s.tier := (rfl)
@[simp] theorem State.upClk_slices (s : State) (f : Clk → Clk) : (s.upClk f).slices = s.slices := (rfl)
@[simp] theorem State.upClk_budget (s : State) (f : Clk → Clk) : (s.upClk f).budget = s.budget := (rfl)
@[simp] theorem State.upClk_media (s : State) (f : Clk → Clk) : (s.upClk f).media = s.media := (rfl)
@[simp] theorem State.upClk_map (s : State) (f : Clk → Clk) : (s.upClk f).map = s.map := (rfl)
@[simp] theorem State.upClk_care (s : State) (f : Clk → Clk) : (s.upClk f).care = s.care := (rfl)
@[simp] theorem State.upClk_yoke (s : State) (f : Clk → Clk) : (s.upClk f).yoke = s.yoke := (rfl)
@[simp] theorem State.upClk_atom (s : State) (f : Clk → Clk) : (s.upClk f).atom = s.atom := (rfl)
@[simp] theorem State.upClk_keys (s : State) (f : Clk → Clk) : (s.upClk f).keys = s.keys := (rfl)
@[simp] theorem State.upClk_reg (s : State) (f : Clk → Clk) : (s.upClk f).reg = s.reg := (rfl)
@[simp] theorem State.upClk_therm (s : State) (f : Clk → Clk) : (s.upClk f).therm = s.therm := (rfl)
@[simp] theorem State.upClk_bank (s : State) (f : Clk → Clk) : (s.upClk f).bank = s.bank := (rfl)
@[simp] theorem State.upClk_dram (s : State) (f : Clk → Clk) : (s.upClk f).dram = s.dram := (rfl)
@[simp] theorem State.upClk_gills (s : State) (f : Clk → Clk) : (s.upClk f).gills = s.gills := (rfl)
@[simp] theorem State.upClk_tabs (s : State) (f : Clk → Clk) : (s.upClk f).tabs = s.tabs := (rfl)
@[simp] theorem State.upClk_dict (s : State) (f : Clk → Clk) : (s.upClk f).dict = s.dict := (rfl)
@[simp] theorem State.upClk_mbox (s : State) (f : Clk → Clk) : (s.upClk f).mbox = s.mbox := (rfl)
@[simp] theorem State.upClk_obs (s : State) (f : Clk → Clk) : (s.upClk f).obs = s.obs := (rfl)
@[simp] theorem State.upClk_perf (s : State) (f : Clk → Clk) : (s.upClk f).perf = s.perf := (rfl)
@[simp] theorem State.upClk_firkin (s : State) (f : Clk → Clk) : (s.upClk f).firkin = s.firkin := (rfl)
@[simp] theorem State.upClk_rstats (s : State) (f : Clk → Clk) : (s.upClk f).rstats = s.rstats := (rfl)
@[simp] theorem State.upClk_fw (s : State) (f : Clk → Clk) : (s.upClk f).fw = s.fw := (rfl)
@[simp] theorem State.upClk_dump (s : State) (f : Clk → Clk) : (s.upClk f).dump = s.dump := (rfl)
@[simp] theorem State.upClk_cmds (s : State) (f : Clk → Clk) : (s.upClk f).cmds = s.cmds := (rfl)
@[simp] theorem State.upClk_tap (s : State) (f : Clk → Clk) : (s.upClk f).tap = s.tap := (rfl)
@[simp] theorem State.upClk_pending (s : State) (f : Clk → Clk) : (s.upClk f).pending = s.pending := (rfl)
theorem State.keepsBut_upClk {ps : List Part} (s : State) (f : Clk → Clk)
    (h : Part.clk ∈ ps) : s.keepsBut ps (s.upClk f) := by
  intro p hp
  cases p <;> first | rfl | exact absurd h hp

@[simp] theorem State.upPwr_ident (s : State) (f : Pwr → Pwr) : (s.upPwr f).ident = s.ident := (rfl)
@[simp] theorem State.upPwr_clk (s : State) (f : Pwr → Pwr) : (s.upPwr f).clk = s.clk := (rfl)
@[simp] theorem State.upPwr_pwr (s : State) (f : Pwr → Pwr) : (s.upPwr f).pwr = f s.pwr := (rfl)
@[simp] theorem State.upPwr_port (s : State) (f : Pwr → Pwr) : (s.upPwr f).port = s.port := (rfl)
@[simp] theorem State.upPwr_reqs (s : State) (f : Pwr → Pwr) : (s.upPwr f).reqs = s.reqs := (rfl)
@[simp] theorem State.upPwr_fc (s : State) (f : Pwr → Pwr) : (s.upPwr f).fc = s.fc := (rfl)
@[simp] theorem State.upPwr_tier (s : State) (f : Pwr → Pwr) : (s.upPwr f).tier = s.tier := (rfl)
@[simp] theorem State.upPwr_slices (s : State) (f : Pwr → Pwr) : (s.upPwr f).slices = s.slices := (rfl)
@[simp] theorem State.upPwr_budget (s : State) (f : Pwr → Pwr) : (s.upPwr f).budget = s.budget := (rfl)
@[simp] theorem State.upPwr_media (s : State) (f : Pwr → Pwr) : (s.upPwr f).media = s.media := (rfl)
@[simp] theorem State.upPwr_map (s : State) (f : Pwr → Pwr) : (s.upPwr f).map = s.map := (rfl)
@[simp] theorem State.upPwr_care (s : State) (f : Pwr → Pwr) : (s.upPwr f).care = s.care := (rfl)
@[simp] theorem State.upPwr_yoke (s : State) (f : Pwr → Pwr) : (s.upPwr f).yoke = s.yoke := (rfl)
@[simp] theorem State.upPwr_atom (s : State) (f : Pwr → Pwr) : (s.upPwr f).atom = s.atom := (rfl)
@[simp] theorem State.upPwr_keys (s : State) (f : Pwr → Pwr) : (s.upPwr f).keys = s.keys := (rfl)
@[simp] theorem State.upPwr_reg (s : State) (f : Pwr → Pwr) : (s.upPwr f).reg = s.reg := (rfl)
@[simp] theorem State.upPwr_therm (s : State) (f : Pwr → Pwr) : (s.upPwr f).therm = s.therm := (rfl)
@[simp] theorem State.upPwr_bank (s : State) (f : Pwr → Pwr) : (s.upPwr f).bank = s.bank := (rfl)
@[simp] theorem State.upPwr_dram (s : State) (f : Pwr → Pwr) : (s.upPwr f).dram = s.dram := (rfl)
@[simp] theorem State.upPwr_gills (s : State) (f : Pwr → Pwr) : (s.upPwr f).gills = s.gills := (rfl)
@[simp] theorem State.upPwr_tabs (s : State) (f : Pwr → Pwr) : (s.upPwr f).tabs = s.tabs := (rfl)
@[simp] theorem State.upPwr_dict (s : State) (f : Pwr → Pwr) : (s.upPwr f).dict = s.dict := (rfl)
@[simp] theorem State.upPwr_mbox (s : State) (f : Pwr → Pwr) : (s.upPwr f).mbox = s.mbox := (rfl)
@[simp] theorem State.upPwr_obs (s : State) (f : Pwr → Pwr) : (s.upPwr f).obs = s.obs := (rfl)
@[simp] theorem State.upPwr_perf (s : State) (f : Pwr → Pwr) : (s.upPwr f).perf = s.perf := (rfl)
@[simp] theorem State.upPwr_firkin (s : State) (f : Pwr → Pwr) : (s.upPwr f).firkin = s.firkin := (rfl)
@[simp] theorem State.upPwr_rstats (s : State) (f : Pwr → Pwr) : (s.upPwr f).rstats = s.rstats := (rfl)
@[simp] theorem State.upPwr_fw (s : State) (f : Pwr → Pwr) : (s.upPwr f).fw = s.fw := (rfl)
@[simp] theorem State.upPwr_dump (s : State) (f : Pwr → Pwr) : (s.upPwr f).dump = s.dump := (rfl)
@[simp] theorem State.upPwr_cmds (s : State) (f : Pwr → Pwr) : (s.upPwr f).cmds = s.cmds := (rfl)
@[simp] theorem State.upPwr_tap (s : State) (f : Pwr → Pwr) : (s.upPwr f).tap = s.tap := (rfl)
@[simp] theorem State.upPwr_pending (s : State) (f : Pwr → Pwr) : (s.upPwr f).pending = s.pending := (rfl)
theorem State.keepsBut_upPwr {ps : List Part} (s : State) (f : Pwr → Pwr)
    (h : Part.pwr ∈ ps) : s.keepsBut ps (s.upPwr f) := by
  intro p hp
  cases p <;> first | rfl | exact absurd h hp

@[simp] theorem State.upPort_ident (s : State) (f : Port → Port) : (s.upPort f).ident = s.ident := (rfl)
@[simp] theorem State.upPort_clk (s : State) (f : Port → Port) : (s.upPort f).clk = s.clk := (rfl)
@[simp] theorem State.upPort_pwr (s : State) (f : Port → Port) : (s.upPort f).pwr = s.pwr := (rfl)
@[simp] theorem State.upPort_port (s : State) (f : Port → Port) : (s.upPort f).port = f s.port := (rfl)
@[simp] theorem State.upPort_reqs (s : State) (f : Port → Port) : (s.upPort f).reqs = s.reqs := (rfl)
@[simp] theorem State.upPort_fc (s : State) (f : Port → Port) : (s.upPort f).fc = s.fc := (rfl)
@[simp] theorem State.upPort_tier (s : State) (f : Port → Port) : (s.upPort f).tier = s.tier := (rfl)
@[simp] theorem State.upPort_slices (s : State) (f : Port → Port) : (s.upPort f).slices = s.slices := (rfl)
@[simp] theorem State.upPort_budget (s : State) (f : Port → Port) : (s.upPort f).budget = s.budget := (rfl)
@[simp] theorem State.upPort_media (s : State) (f : Port → Port) : (s.upPort f).media = s.media := (rfl)
@[simp] theorem State.upPort_map (s : State) (f : Port → Port) : (s.upPort f).map = s.map := (rfl)
@[simp] theorem State.upPort_care (s : State) (f : Port → Port) : (s.upPort f).care = s.care := (rfl)
@[simp] theorem State.upPort_yoke (s : State) (f : Port → Port) : (s.upPort f).yoke = s.yoke := (rfl)
@[simp] theorem State.upPort_atom (s : State) (f : Port → Port) : (s.upPort f).atom = s.atom := (rfl)
@[simp] theorem State.upPort_keys (s : State) (f : Port → Port) : (s.upPort f).keys = s.keys := (rfl)
@[simp] theorem State.upPort_reg (s : State) (f : Port → Port) : (s.upPort f).reg = s.reg := (rfl)
@[simp] theorem State.upPort_therm (s : State) (f : Port → Port) : (s.upPort f).therm = s.therm := (rfl)
@[simp] theorem State.upPort_bank (s : State) (f : Port → Port) : (s.upPort f).bank = s.bank := (rfl)
@[simp] theorem State.upPort_dram (s : State) (f : Port → Port) : (s.upPort f).dram = s.dram := (rfl)
@[simp] theorem State.upPort_gills (s : State) (f : Port → Port) : (s.upPort f).gills = s.gills := (rfl)
@[simp] theorem State.upPort_tabs (s : State) (f : Port → Port) : (s.upPort f).tabs = s.tabs := (rfl)
@[simp] theorem State.upPort_dict (s : State) (f : Port → Port) : (s.upPort f).dict = s.dict := (rfl)
@[simp] theorem State.upPort_mbox (s : State) (f : Port → Port) : (s.upPort f).mbox = s.mbox := (rfl)
@[simp] theorem State.upPort_obs (s : State) (f : Port → Port) : (s.upPort f).obs = s.obs := (rfl)
@[simp] theorem State.upPort_perf (s : State) (f : Port → Port) : (s.upPort f).perf = s.perf := (rfl)
@[simp] theorem State.upPort_firkin (s : State) (f : Port → Port) : (s.upPort f).firkin = s.firkin := (rfl)
@[simp] theorem State.upPort_rstats (s : State) (f : Port → Port) : (s.upPort f).rstats = s.rstats := (rfl)
@[simp] theorem State.upPort_fw (s : State) (f : Port → Port) : (s.upPort f).fw = s.fw := (rfl)
@[simp] theorem State.upPort_dump (s : State) (f : Port → Port) : (s.upPort f).dump = s.dump := (rfl)
@[simp] theorem State.upPort_cmds (s : State) (f : Port → Port) : (s.upPort f).cmds = s.cmds := (rfl)
@[simp] theorem State.upPort_tap (s : State) (f : Port → Port) : (s.upPort f).tap = s.tap := (rfl)
@[simp] theorem State.upPort_pending (s : State) (f : Port → Port) : (s.upPort f).pending = s.pending := (rfl)
theorem State.keepsBut_upPort {ps : List Part} (s : State) (f : Port → Port)
    (h : Part.port ∈ ps) : s.keepsBut ps (s.upPort f) := by
  intro p hp
  cases p <;> first | rfl | exact absurd h hp

@[simp] theorem State.upReqs_ident (s : State) (f : Reqs → Reqs) : (s.upReqs f).ident = s.ident := (rfl)
@[simp] theorem State.upReqs_clk (s : State) (f : Reqs → Reqs) : (s.upReqs f).clk = s.clk := (rfl)
@[simp] theorem State.upReqs_pwr (s : State) (f : Reqs → Reqs) : (s.upReqs f).pwr = s.pwr := (rfl)
@[simp] theorem State.upReqs_port (s : State) (f : Reqs → Reqs) : (s.upReqs f).port = s.port := (rfl)
@[simp] theorem State.upReqs_reqs (s : State) (f : Reqs → Reqs) : (s.upReqs f).reqs = f s.reqs := (rfl)
@[simp] theorem State.upReqs_fc (s : State) (f : Reqs → Reqs) : (s.upReqs f).fc = s.fc := (rfl)
@[simp] theorem State.upReqs_tier (s : State) (f : Reqs → Reqs) : (s.upReqs f).tier = s.tier := (rfl)
@[simp] theorem State.upReqs_slices (s : State) (f : Reqs → Reqs) : (s.upReqs f).slices = s.slices := (rfl)
@[simp] theorem State.upReqs_budget (s : State) (f : Reqs → Reqs) : (s.upReqs f).budget = s.budget := (rfl)
@[simp] theorem State.upReqs_media (s : State) (f : Reqs → Reqs) : (s.upReqs f).media = s.media := (rfl)
@[simp] theorem State.upReqs_map (s : State) (f : Reqs → Reqs) : (s.upReqs f).map = s.map := (rfl)
@[simp] theorem State.upReqs_care (s : State) (f : Reqs → Reqs) : (s.upReqs f).care = s.care := (rfl)
@[simp] theorem State.upReqs_yoke (s : State) (f : Reqs → Reqs) : (s.upReqs f).yoke = s.yoke := (rfl)
@[simp] theorem State.upReqs_atom (s : State) (f : Reqs → Reqs) : (s.upReqs f).atom = s.atom := (rfl)
@[simp] theorem State.upReqs_keys (s : State) (f : Reqs → Reqs) : (s.upReqs f).keys = s.keys := (rfl)
@[simp] theorem State.upReqs_reg (s : State) (f : Reqs → Reqs) : (s.upReqs f).reg = s.reg := (rfl)
@[simp] theorem State.upReqs_therm (s : State) (f : Reqs → Reqs) : (s.upReqs f).therm = s.therm := (rfl)
@[simp] theorem State.upReqs_bank (s : State) (f : Reqs → Reqs) : (s.upReqs f).bank = s.bank := (rfl)
@[simp] theorem State.upReqs_dram (s : State) (f : Reqs → Reqs) : (s.upReqs f).dram = s.dram := (rfl)
@[simp] theorem State.upReqs_gills (s : State) (f : Reqs → Reqs) : (s.upReqs f).gills = s.gills := (rfl)
@[simp] theorem State.upReqs_tabs (s : State) (f : Reqs → Reqs) : (s.upReqs f).tabs = s.tabs := (rfl)
@[simp] theorem State.upReqs_dict (s : State) (f : Reqs → Reqs) : (s.upReqs f).dict = s.dict := (rfl)
@[simp] theorem State.upReqs_mbox (s : State) (f : Reqs → Reqs) : (s.upReqs f).mbox = s.mbox := (rfl)
@[simp] theorem State.upReqs_obs (s : State) (f : Reqs → Reqs) : (s.upReqs f).obs = s.obs := (rfl)
@[simp] theorem State.upReqs_perf (s : State) (f : Reqs → Reqs) : (s.upReqs f).perf = s.perf := (rfl)
@[simp] theorem State.upReqs_firkin (s : State) (f : Reqs → Reqs) : (s.upReqs f).firkin = s.firkin := (rfl)
@[simp] theorem State.upReqs_rstats (s : State) (f : Reqs → Reqs) : (s.upReqs f).rstats = s.rstats := (rfl)
@[simp] theorem State.upReqs_fw (s : State) (f : Reqs → Reqs) : (s.upReqs f).fw = s.fw := (rfl)
@[simp] theorem State.upReqs_dump (s : State) (f : Reqs → Reqs) : (s.upReqs f).dump = s.dump := (rfl)
@[simp] theorem State.upReqs_cmds (s : State) (f : Reqs → Reqs) : (s.upReqs f).cmds = s.cmds := (rfl)
@[simp] theorem State.upReqs_tap (s : State) (f : Reqs → Reqs) : (s.upReqs f).tap = s.tap := (rfl)
@[simp] theorem State.upReqs_pending (s : State) (f : Reqs → Reqs) : (s.upReqs f).pending = s.pending := (rfl)
theorem State.keepsBut_upReqs {ps : List Part} (s : State) (f : Reqs → Reqs)
    (h : Part.reqs ∈ ps) : s.keepsBut ps (s.upReqs f) := by
  intro p hp
  cases p <;> first | rfl | exact absurd h hp

@[simp] theorem State.upFc_ident (s : State) (f : Fc → Fc) : (s.upFc f).ident = s.ident := (rfl)
@[simp] theorem State.upFc_clk (s : State) (f : Fc → Fc) : (s.upFc f).clk = s.clk := (rfl)
@[simp] theorem State.upFc_pwr (s : State) (f : Fc → Fc) : (s.upFc f).pwr = s.pwr := (rfl)
@[simp] theorem State.upFc_port (s : State) (f : Fc → Fc) : (s.upFc f).port = s.port := (rfl)
@[simp] theorem State.upFc_reqs (s : State) (f : Fc → Fc) : (s.upFc f).reqs = s.reqs := (rfl)
@[simp] theorem State.upFc_fc (s : State) (f : Fc → Fc) : (s.upFc f).fc = f s.fc := (rfl)
@[simp] theorem State.upFc_tier (s : State) (f : Fc → Fc) : (s.upFc f).tier = s.tier := (rfl)
@[simp] theorem State.upFc_slices (s : State) (f : Fc → Fc) : (s.upFc f).slices = s.slices := (rfl)
@[simp] theorem State.upFc_budget (s : State) (f : Fc → Fc) : (s.upFc f).budget = s.budget := (rfl)
@[simp] theorem State.upFc_media (s : State) (f : Fc → Fc) : (s.upFc f).media = s.media := (rfl)
@[simp] theorem State.upFc_map (s : State) (f : Fc → Fc) : (s.upFc f).map = s.map := (rfl)
@[simp] theorem State.upFc_care (s : State) (f : Fc → Fc) : (s.upFc f).care = s.care := (rfl)
@[simp] theorem State.upFc_yoke (s : State) (f : Fc → Fc) : (s.upFc f).yoke = s.yoke := (rfl)
@[simp] theorem State.upFc_atom (s : State) (f : Fc → Fc) : (s.upFc f).atom = s.atom := (rfl)
@[simp] theorem State.upFc_keys (s : State) (f : Fc → Fc) : (s.upFc f).keys = s.keys := (rfl)
@[simp] theorem State.upFc_reg (s : State) (f : Fc → Fc) : (s.upFc f).reg = s.reg := (rfl)
@[simp] theorem State.upFc_therm (s : State) (f : Fc → Fc) : (s.upFc f).therm = s.therm := (rfl)
@[simp] theorem State.upFc_bank (s : State) (f : Fc → Fc) : (s.upFc f).bank = s.bank := (rfl)
@[simp] theorem State.upFc_dram (s : State) (f : Fc → Fc) : (s.upFc f).dram = s.dram := (rfl)
@[simp] theorem State.upFc_gills (s : State) (f : Fc → Fc) : (s.upFc f).gills = s.gills := (rfl)
@[simp] theorem State.upFc_tabs (s : State) (f : Fc → Fc) : (s.upFc f).tabs = s.tabs := (rfl)
@[simp] theorem State.upFc_dict (s : State) (f : Fc → Fc) : (s.upFc f).dict = s.dict := (rfl)
@[simp] theorem State.upFc_mbox (s : State) (f : Fc → Fc) : (s.upFc f).mbox = s.mbox := (rfl)
@[simp] theorem State.upFc_obs (s : State) (f : Fc → Fc) : (s.upFc f).obs = s.obs := (rfl)
@[simp] theorem State.upFc_perf (s : State) (f : Fc → Fc) : (s.upFc f).perf = s.perf := (rfl)
@[simp] theorem State.upFc_firkin (s : State) (f : Fc → Fc) : (s.upFc f).firkin = s.firkin := (rfl)
@[simp] theorem State.upFc_rstats (s : State) (f : Fc → Fc) : (s.upFc f).rstats = s.rstats := (rfl)
@[simp] theorem State.upFc_fw (s : State) (f : Fc → Fc) : (s.upFc f).fw = s.fw := (rfl)
@[simp] theorem State.upFc_dump (s : State) (f : Fc → Fc) : (s.upFc f).dump = s.dump := (rfl)
@[simp] theorem State.upFc_cmds (s : State) (f : Fc → Fc) : (s.upFc f).cmds = s.cmds := (rfl)
@[simp] theorem State.upFc_tap (s : State) (f : Fc → Fc) : (s.upFc f).tap = s.tap := (rfl)
@[simp] theorem State.upFc_pending (s : State) (f : Fc → Fc) : (s.upFc f).pending = s.pending := (rfl)
theorem State.keepsBut_upFc {ps : List Part} (s : State) (f : Fc → Fc)
    (h : Part.fc ∈ ps) : s.keepsBut ps (s.upFc f) := by
  intro p hp
  cases p <;> first | rfl | exact absurd h hp

@[simp] theorem State.upTier_ident (s : State) (f : Tier → Tier) : (s.upTier f).ident = s.ident := (rfl)
@[simp] theorem State.upTier_clk (s : State) (f : Tier → Tier) : (s.upTier f).clk = s.clk := (rfl)
@[simp] theorem State.upTier_pwr (s : State) (f : Tier → Tier) : (s.upTier f).pwr = s.pwr := (rfl)
@[simp] theorem State.upTier_port (s : State) (f : Tier → Tier) : (s.upTier f).port = s.port := (rfl)
@[simp] theorem State.upTier_reqs (s : State) (f : Tier → Tier) : (s.upTier f).reqs = s.reqs := (rfl)
@[simp] theorem State.upTier_fc (s : State) (f : Tier → Tier) : (s.upTier f).fc = s.fc := (rfl)
@[simp] theorem State.upTier_tier (s : State) (f : Tier → Tier) : (s.upTier f).tier = f s.tier := (rfl)
@[simp] theorem State.upTier_slices (s : State) (f : Tier → Tier) : (s.upTier f).slices = s.slices := (rfl)
@[simp] theorem State.upTier_budget (s : State) (f : Tier → Tier) : (s.upTier f).budget = s.budget := (rfl)
@[simp] theorem State.upTier_media (s : State) (f : Tier → Tier) : (s.upTier f).media = s.media := (rfl)
@[simp] theorem State.upTier_map (s : State) (f : Tier → Tier) : (s.upTier f).map = s.map := (rfl)
@[simp] theorem State.upTier_care (s : State) (f : Tier → Tier) : (s.upTier f).care = s.care := (rfl)
@[simp] theorem State.upTier_yoke (s : State) (f : Tier → Tier) : (s.upTier f).yoke = s.yoke := (rfl)
@[simp] theorem State.upTier_atom (s : State) (f : Tier → Tier) : (s.upTier f).atom = s.atom := (rfl)
@[simp] theorem State.upTier_keys (s : State) (f : Tier → Tier) : (s.upTier f).keys = s.keys := (rfl)
@[simp] theorem State.upTier_reg (s : State) (f : Tier → Tier) : (s.upTier f).reg = s.reg := (rfl)
@[simp] theorem State.upTier_therm (s : State) (f : Tier → Tier) : (s.upTier f).therm = s.therm := (rfl)
@[simp] theorem State.upTier_bank (s : State) (f : Tier → Tier) : (s.upTier f).bank = s.bank := (rfl)
@[simp] theorem State.upTier_dram (s : State) (f : Tier → Tier) : (s.upTier f).dram = s.dram := (rfl)
@[simp] theorem State.upTier_gills (s : State) (f : Tier → Tier) : (s.upTier f).gills = s.gills := (rfl)
@[simp] theorem State.upTier_tabs (s : State) (f : Tier → Tier) : (s.upTier f).tabs = s.tabs := (rfl)
@[simp] theorem State.upTier_dict (s : State) (f : Tier → Tier) : (s.upTier f).dict = s.dict := (rfl)
@[simp] theorem State.upTier_mbox (s : State) (f : Tier → Tier) : (s.upTier f).mbox = s.mbox := (rfl)
@[simp] theorem State.upTier_obs (s : State) (f : Tier → Tier) : (s.upTier f).obs = s.obs := (rfl)
@[simp] theorem State.upTier_perf (s : State) (f : Tier → Tier) : (s.upTier f).perf = s.perf := (rfl)
@[simp] theorem State.upTier_firkin (s : State) (f : Tier → Tier) : (s.upTier f).firkin = s.firkin := (rfl)
@[simp] theorem State.upTier_rstats (s : State) (f : Tier → Tier) : (s.upTier f).rstats = s.rstats := (rfl)
@[simp] theorem State.upTier_fw (s : State) (f : Tier → Tier) : (s.upTier f).fw = s.fw := (rfl)
@[simp] theorem State.upTier_dump (s : State) (f : Tier → Tier) : (s.upTier f).dump = s.dump := (rfl)
@[simp] theorem State.upTier_cmds (s : State) (f : Tier → Tier) : (s.upTier f).cmds = s.cmds := (rfl)
@[simp] theorem State.upTier_tap (s : State) (f : Tier → Tier) : (s.upTier f).tap = s.tap := (rfl)
@[simp] theorem State.upTier_pending (s : State) (f : Tier → Tier) : (s.upTier f).pending = s.pending := (rfl)
theorem State.keepsBut_upTier {ps : List Part} (s : State) (f : Tier → Tier)
    (h : Part.tier ∈ ps) : s.keepsBut ps (s.upTier f) := by
  intro p hp
  cases p <;> first | rfl | exact absurd h hp

@[simp] theorem State.upSlices_ident (s : State) (f : Slices → Slices) : (s.upSlices f).ident = s.ident := (rfl)
@[simp] theorem State.upSlices_clk (s : State) (f : Slices → Slices) : (s.upSlices f).clk = s.clk := (rfl)
@[simp] theorem State.upSlices_pwr (s : State) (f : Slices → Slices) : (s.upSlices f).pwr = s.pwr := (rfl)
@[simp] theorem State.upSlices_port (s : State) (f : Slices → Slices) : (s.upSlices f).port = s.port := (rfl)
@[simp] theorem State.upSlices_reqs (s : State) (f : Slices → Slices) : (s.upSlices f).reqs = s.reqs := (rfl)
@[simp] theorem State.upSlices_fc (s : State) (f : Slices → Slices) : (s.upSlices f).fc = s.fc := (rfl)
@[simp] theorem State.upSlices_tier (s : State) (f : Slices → Slices) : (s.upSlices f).tier = s.tier := (rfl)
@[simp] theorem State.upSlices_slices (s : State) (f : Slices → Slices) : (s.upSlices f).slices = f s.slices := (rfl)
@[simp] theorem State.upSlices_budget (s : State) (f : Slices → Slices) : (s.upSlices f).budget = s.budget := (rfl)
@[simp] theorem State.upSlices_media (s : State) (f : Slices → Slices) : (s.upSlices f).media = s.media := (rfl)
@[simp] theorem State.upSlices_map (s : State) (f : Slices → Slices) : (s.upSlices f).map = s.map := (rfl)
@[simp] theorem State.upSlices_care (s : State) (f : Slices → Slices) : (s.upSlices f).care = s.care := (rfl)
@[simp] theorem State.upSlices_yoke (s : State) (f : Slices → Slices) : (s.upSlices f).yoke = s.yoke := (rfl)
@[simp] theorem State.upSlices_atom (s : State) (f : Slices → Slices) : (s.upSlices f).atom = s.atom := (rfl)
@[simp] theorem State.upSlices_keys (s : State) (f : Slices → Slices) : (s.upSlices f).keys = s.keys := (rfl)
@[simp] theorem State.upSlices_reg (s : State) (f : Slices → Slices) : (s.upSlices f).reg = s.reg := (rfl)
@[simp] theorem State.upSlices_therm (s : State) (f : Slices → Slices) : (s.upSlices f).therm = s.therm := (rfl)
@[simp] theorem State.upSlices_bank (s : State) (f : Slices → Slices) : (s.upSlices f).bank = s.bank := (rfl)
@[simp] theorem State.upSlices_dram (s : State) (f : Slices → Slices) : (s.upSlices f).dram = s.dram := (rfl)
@[simp] theorem State.upSlices_gills (s : State) (f : Slices → Slices) : (s.upSlices f).gills = s.gills := (rfl)
@[simp] theorem State.upSlices_tabs (s : State) (f : Slices → Slices) : (s.upSlices f).tabs = s.tabs := (rfl)
@[simp] theorem State.upSlices_dict (s : State) (f : Slices → Slices) : (s.upSlices f).dict = s.dict := (rfl)
@[simp] theorem State.upSlices_mbox (s : State) (f : Slices → Slices) : (s.upSlices f).mbox = s.mbox := (rfl)
@[simp] theorem State.upSlices_obs (s : State) (f : Slices → Slices) : (s.upSlices f).obs = s.obs := (rfl)
@[simp] theorem State.upSlices_perf (s : State) (f : Slices → Slices) : (s.upSlices f).perf = s.perf := (rfl)
@[simp] theorem State.upSlices_firkin (s : State) (f : Slices → Slices) : (s.upSlices f).firkin = s.firkin := (rfl)
@[simp] theorem State.upSlices_rstats (s : State) (f : Slices → Slices) : (s.upSlices f).rstats = s.rstats := (rfl)
@[simp] theorem State.upSlices_fw (s : State) (f : Slices → Slices) : (s.upSlices f).fw = s.fw := (rfl)
@[simp] theorem State.upSlices_dump (s : State) (f : Slices → Slices) : (s.upSlices f).dump = s.dump := (rfl)
@[simp] theorem State.upSlices_cmds (s : State) (f : Slices → Slices) : (s.upSlices f).cmds = s.cmds := (rfl)
@[simp] theorem State.upSlices_tap (s : State) (f : Slices → Slices) : (s.upSlices f).tap = s.tap := (rfl)
@[simp] theorem State.upSlices_pending (s : State) (f : Slices → Slices) : (s.upSlices f).pending = s.pending := (rfl)
theorem State.keepsBut_upSlices {ps : List Part} (s : State) (f : Slices → Slices)
    (h : Part.slices ∈ ps) : s.keepsBut ps (s.upSlices f) := by
  intro p hp
  cases p <;> first | rfl | exact absurd h hp

@[simp] theorem State.upBudget_ident (s : State) (f : Budget → Budget) : (s.upBudget f).ident = s.ident := (rfl)
@[simp] theorem State.upBudget_clk (s : State) (f : Budget → Budget) : (s.upBudget f).clk = s.clk := (rfl)
@[simp] theorem State.upBudget_pwr (s : State) (f : Budget → Budget) : (s.upBudget f).pwr = s.pwr := (rfl)
@[simp] theorem State.upBudget_port (s : State) (f : Budget → Budget) : (s.upBudget f).port = s.port := (rfl)
@[simp] theorem State.upBudget_reqs (s : State) (f : Budget → Budget) : (s.upBudget f).reqs = s.reqs := (rfl)
@[simp] theorem State.upBudget_fc (s : State) (f : Budget → Budget) : (s.upBudget f).fc = s.fc := (rfl)
@[simp] theorem State.upBudget_tier (s : State) (f : Budget → Budget) : (s.upBudget f).tier = s.tier := (rfl)
@[simp] theorem State.upBudget_slices (s : State) (f : Budget → Budget) : (s.upBudget f).slices = s.slices := (rfl)
@[simp] theorem State.upBudget_budget (s : State) (f : Budget → Budget) : (s.upBudget f).budget = f s.budget := (rfl)
@[simp] theorem State.upBudget_media (s : State) (f : Budget → Budget) : (s.upBudget f).media = s.media := (rfl)
@[simp] theorem State.upBudget_map (s : State) (f : Budget → Budget) : (s.upBudget f).map = s.map := (rfl)
@[simp] theorem State.upBudget_care (s : State) (f : Budget → Budget) : (s.upBudget f).care = s.care := (rfl)
@[simp] theorem State.upBudget_yoke (s : State) (f : Budget → Budget) : (s.upBudget f).yoke = s.yoke := (rfl)
@[simp] theorem State.upBudget_atom (s : State) (f : Budget → Budget) : (s.upBudget f).atom = s.atom := (rfl)
@[simp] theorem State.upBudget_keys (s : State) (f : Budget → Budget) : (s.upBudget f).keys = s.keys := (rfl)
@[simp] theorem State.upBudget_reg (s : State) (f : Budget → Budget) : (s.upBudget f).reg = s.reg := (rfl)
@[simp] theorem State.upBudget_therm (s : State) (f : Budget → Budget) : (s.upBudget f).therm = s.therm := (rfl)
@[simp] theorem State.upBudget_bank (s : State) (f : Budget → Budget) : (s.upBudget f).bank = s.bank := (rfl)
@[simp] theorem State.upBudget_dram (s : State) (f : Budget → Budget) : (s.upBudget f).dram = s.dram := (rfl)
@[simp] theorem State.upBudget_gills (s : State) (f : Budget → Budget) : (s.upBudget f).gills = s.gills := (rfl)
@[simp] theorem State.upBudget_tabs (s : State) (f : Budget → Budget) : (s.upBudget f).tabs = s.tabs := (rfl)
@[simp] theorem State.upBudget_dict (s : State) (f : Budget → Budget) : (s.upBudget f).dict = s.dict := (rfl)
@[simp] theorem State.upBudget_mbox (s : State) (f : Budget → Budget) : (s.upBudget f).mbox = s.mbox := (rfl)
@[simp] theorem State.upBudget_obs (s : State) (f : Budget → Budget) : (s.upBudget f).obs = s.obs := (rfl)
@[simp] theorem State.upBudget_perf (s : State) (f : Budget → Budget) : (s.upBudget f).perf = s.perf := (rfl)
@[simp] theorem State.upBudget_firkin (s : State) (f : Budget → Budget) : (s.upBudget f).firkin = s.firkin := (rfl)
@[simp] theorem State.upBudget_rstats (s : State) (f : Budget → Budget) : (s.upBudget f).rstats = s.rstats := (rfl)
@[simp] theorem State.upBudget_fw (s : State) (f : Budget → Budget) : (s.upBudget f).fw = s.fw := (rfl)
@[simp] theorem State.upBudget_dump (s : State) (f : Budget → Budget) : (s.upBudget f).dump = s.dump := (rfl)
@[simp] theorem State.upBudget_cmds (s : State) (f : Budget → Budget) : (s.upBudget f).cmds = s.cmds := (rfl)
@[simp] theorem State.upBudget_tap (s : State) (f : Budget → Budget) : (s.upBudget f).tap = s.tap := (rfl)
@[simp] theorem State.upBudget_pending (s : State) (f : Budget → Budget) : (s.upBudget f).pending = s.pending := (rfl)
theorem State.keepsBut_upBudget {ps : List Part} (s : State) (f : Budget → Budget)
    (h : Part.budget ∈ ps) : s.keepsBut ps (s.upBudget f) := by
  intro p hp
  cases p <;> first | rfl | exact absurd h hp

@[simp] theorem State.upMedia_ident (s : State) (f : Media → Media) : (s.upMedia f).ident = s.ident := (rfl)
@[simp] theorem State.upMedia_clk (s : State) (f : Media → Media) : (s.upMedia f).clk = s.clk := (rfl)
@[simp] theorem State.upMedia_pwr (s : State) (f : Media → Media) : (s.upMedia f).pwr = s.pwr := (rfl)
@[simp] theorem State.upMedia_port (s : State) (f : Media → Media) : (s.upMedia f).port = s.port := (rfl)
@[simp] theorem State.upMedia_reqs (s : State) (f : Media → Media) : (s.upMedia f).reqs = s.reqs := (rfl)
@[simp] theorem State.upMedia_fc (s : State) (f : Media → Media) : (s.upMedia f).fc = s.fc := (rfl)
@[simp] theorem State.upMedia_tier (s : State) (f : Media → Media) : (s.upMedia f).tier = s.tier := (rfl)
@[simp] theorem State.upMedia_slices (s : State) (f : Media → Media) : (s.upMedia f).slices = s.slices := (rfl)
@[simp] theorem State.upMedia_budget (s : State) (f : Media → Media) : (s.upMedia f).budget = s.budget := (rfl)
@[simp] theorem State.upMedia_media (s : State) (f : Media → Media) : (s.upMedia f).media = f s.media := (rfl)
@[simp] theorem State.upMedia_map (s : State) (f : Media → Media) : (s.upMedia f).map = s.map := (rfl)
@[simp] theorem State.upMedia_care (s : State) (f : Media → Media) : (s.upMedia f).care = s.care := (rfl)
@[simp] theorem State.upMedia_yoke (s : State) (f : Media → Media) : (s.upMedia f).yoke = s.yoke := (rfl)
@[simp] theorem State.upMedia_atom (s : State) (f : Media → Media) : (s.upMedia f).atom = s.atom := (rfl)
@[simp] theorem State.upMedia_keys (s : State) (f : Media → Media) : (s.upMedia f).keys = s.keys := (rfl)
@[simp] theorem State.upMedia_reg (s : State) (f : Media → Media) : (s.upMedia f).reg = s.reg := (rfl)
@[simp] theorem State.upMedia_therm (s : State) (f : Media → Media) : (s.upMedia f).therm = s.therm := (rfl)
@[simp] theorem State.upMedia_bank (s : State) (f : Media → Media) : (s.upMedia f).bank = s.bank := (rfl)
@[simp] theorem State.upMedia_dram (s : State) (f : Media → Media) : (s.upMedia f).dram = s.dram := (rfl)
@[simp] theorem State.upMedia_gills (s : State) (f : Media → Media) : (s.upMedia f).gills = s.gills := (rfl)
@[simp] theorem State.upMedia_tabs (s : State) (f : Media → Media) : (s.upMedia f).tabs = s.tabs := (rfl)
@[simp] theorem State.upMedia_dict (s : State) (f : Media → Media) : (s.upMedia f).dict = s.dict := (rfl)
@[simp] theorem State.upMedia_mbox (s : State) (f : Media → Media) : (s.upMedia f).mbox = s.mbox := (rfl)
@[simp] theorem State.upMedia_obs (s : State) (f : Media → Media) : (s.upMedia f).obs = s.obs := (rfl)
@[simp] theorem State.upMedia_perf (s : State) (f : Media → Media) : (s.upMedia f).perf = s.perf := (rfl)
@[simp] theorem State.upMedia_firkin (s : State) (f : Media → Media) : (s.upMedia f).firkin = s.firkin := (rfl)
@[simp] theorem State.upMedia_rstats (s : State) (f : Media → Media) : (s.upMedia f).rstats = s.rstats := (rfl)
@[simp] theorem State.upMedia_fw (s : State) (f : Media → Media) : (s.upMedia f).fw = s.fw := (rfl)
@[simp] theorem State.upMedia_dump (s : State) (f : Media → Media) : (s.upMedia f).dump = s.dump := (rfl)
@[simp] theorem State.upMedia_cmds (s : State) (f : Media → Media) : (s.upMedia f).cmds = s.cmds := (rfl)
@[simp] theorem State.upMedia_tap (s : State) (f : Media → Media) : (s.upMedia f).tap = s.tap := (rfl)
@[simp] theorem State.upMedia_pending (s : State) (f : Media → Media) : (s.upMedia f).pending = s.pending := (rfl)
theorem State.keepsBut_upMedia {ps : List Part} (s : State) (f : Media → Media)
    (h : Part.media ∈ ps) : s.keepsBut ps (s.upMedia f) := by
  intro p hp
  cases p <;> first | rfl | exact absurd h hp

@[simp] theorem State.upMap_ident (s : State) (f : MapG → MapG) : (s.upMap f).ident = s.ident := (rfl)
@[simp] theorem State.upMap_clk (s : State) (f : MapG → MapG) : (s.upMap f).clk = s.clk := (rfl)
@[simp] theorem State.upMap_pwr (s : State) (f : MapG → MapG) : (s.upMap f).pwr = s.pwr := (rfl)
@[simp] theorem State.upMap_port (s : State) (f : MapG → MapG) : (s.upMap f).port = s.port := (rfl)
@[simp] theorem State.upMap_reqs (s : State) (f : MapG → MapG) : (s.upMap f).reqs = s.reqs := (rfl)
@[simp] theorem State.upMap_fc (s : State) (f : MapG → MapG) : (s.upMap f).fc = s.fc := (rfl)
@[simp] theorem State.upMap_tier (s : State) (f : MapG → MapG) : (s.upMap f).tier = s.tier := (rfl)
@[simp] theorem State.upMap_slices (s : State) (f : MapG → MapG) : (s.upMap f).slices = s.slices := (rfl)
@[simp] theorem State.upMap_budget (s : State) (f : MapG → MapG) : (s.upMap f).budget = s.budget := (rfl)
@[simp] theorem State.upMap_media (s : State) (f : MapG → MapG) : (s.upMap f).media = s.media := (rfl)
@[simp] theorem State.upMap_map (s : State) (f : MapG → MapG) : (s.upMap f).map = f s.map := (rfl)
@[simp] theorem State.upMap_care (s : State) (f : MapG → MapG) : (s.upMap f).care = s.care := (rfl)
@[simp] theorem State.upMap_yoke (s : State) (f : MapG → MapG) : (s.upMap f).yoke = s.yoke := (rfl)
@[simp] theorem State.upMap_atom (s : State) (f : MapG → MapG) : (s.upMap f).atom = s.atom := (rfl)
@[simp] theorem State.upMap_keys (s : State) (f : MapG → MapG) : (s.upMap f).keys = s.keys := (rfl)
@[simp] theorem State.upMap_reg (s : State) (f : MapG → MapG) : (s.upMap f).reg = s.reg := (rfl)
@[simp] theorem State.upMap_therm (s : State) (f : MapG → MapG) : (s.upMap f).therm = s.therm := (rfl)
@[simp] theorem State.upMap_bank (s : State) (f : MapG → MapG) : (s.upMap f).bank = s.bank := (rfl)
@[simp] theorem State.upMap_dram (s : State) (f : MapG → MapG) : (s.upMap f).dram = s.dram := (rfl)
@[simp] theorem State.upMap_gills (s : State) (f : MapG → MapG) : (s.upMap f).gills = s.gills := (rfl)
@[simp] theorem State.upMap_tabs (s : State) (f : MapG → MapG) : (s.upMap f).tabs = s.tabs := (rfl)
@[simp] theorem State.upMap_dict (s : State) (f : MapG → MapG) : (s.upMap f).dict = s.dict := (rfl)
@[simp] theorem State.upMap_mbox (s : State) (f : MapG → MapG) : (s.upMap f).mbox = s.mbox := (rfl)
@[simp] theorem State.upMap_obs (s : State) (f : MapG → MapG) : (s.upMap f).obs = s.obs := (rfl)
@[simp] theorem State.upMap_perf (s : State) (f : MapG → MapG) : (s.upMap f).perf = s.perf := (rfl)
@[simp] theorem State.upMap_firkin (s : State) (f : MapG → MapG) : (s.upMap f).firkin = s.firkin := (rfl)
@[simp] theorem State.upMap_rstats (s : State) (f : MapG → MapG) : (s.upMap f).rstats = s.rstats := (rfl)
@[simp] theorem State.upMap_fw (s : State) (f : MapG → MapG) : (s.upMap f).fw = s.fw := (rfl)
@[simp] theorem State.upMap_dump (s : State) (f : MapG → MapG) : (s.upMap f).dump = s.dump := (rfl)
@[simp] theorem State.upMap_cmds (s : State) (f : MapG → MapG) : (s.upMap f).cmds = s.cmds := (rfl)
@[simp] theorem State.upMap_tap (s : State) (f : MapG → MapG) : (s.upMap f).tap = s.tap := (rfl)
@[simp] theorem State.upMap_pending (s : State) (f : MapG → MapG) : (s.upMap f).pending = s.pending := (rfl)
theorem State.keepsBut_upMap {ps : List Part} (s : State) (f : MapG → MapG)
    (h : Part.map ∈ ps) : s.keepsBut ps (s.upMap f) := by
  intro p hp
  cases p <;> first | rfl | exact absurd h hp

@[simp] theorem State.upCare_ident (s : State) (f : Care → Care) : (s.upCare f).ident = s.ident := (rfl)
@[simp] theorem State.upCare_clk (s : State) (f : Care → Care) : (s.upCare f).clk = s.clk := (rfl)
@[simp] theorem State.upCare_pwr (s : State) (f : Care → Care) : (s.upCare f).pwr = s.pwr := (rfl)
@[simp] theorem State.upCare_port (s : State) (f : Care → Care) : (s.upCare f).port = s.port := (rfl)
@[simp] theorem State.upCare_reqs (s : State) (f : Care → Care) : (s.upCare f).reqs = s.reqs := (rfl)
@[simp] theorem State.upCare_fc (s : State) (f : Care → Care) : (s.upCare f).fc = s.fc := (rfl)
@[simp] theorem State.upCare_tier (s : State) (f : Care → Care) : (s.upCare f).tier = s.tier := (rfl)
@[simp] theorem State.upCare_slices (s : State) (f : Care → Care) : (s.upCare f).slices = s.slices := (rfl)
@[simp] theorem State.upCare_budget (s : State) (f : Care → Care) : (s.upCare f).budget = s.budget := (rfl)
@[simp] theorem State.upCare_media (s : State) (f : Care → Care) : (s.upCare f).media = s.media := (rfl)
@[simp] theorem State.upCare_map (s : State) (f : Care → Care) : (s.upCare f).map = s.map := (rfl)
@[simp] theorem State.upCare_care (s : State) (f : Care → Care) : (s.upCare f).care = f s.care := (rfl)
@[simp] theorem State.upCare_yoke (s : State) (f : Care → Care) : (s.upCare f).yoke = s.yoke := (rfl)
@[simp] theorem State.upCare_atom (s : State) (f : Care → Care) : (s.upCare f).atom = s.atom := (rfl)
@[simp] theorem State.upCare_keys (s : State) (f : Care → Care) : (s.upCare f).keys = s.keys := (rfl)
@[simp] theorem State.upCare_reg (s : State) (f : Care → Care) : (s.upCare f).reg = s.reg := (rfl)
@[simp] theorem State.upCare_therm (s : State) (f : Care → Care) : (s.upCare f).therm = s.therm := (rfl)
@[simp] theorem State.upCare_bank (s : State) (f : Care → Care) : (s.upCare f).bank = s.bank := (rfl)
@[simp] theorem State.upCare_dram (s : State) (f : Care → Care) : (s.upCare f).dram = s.dram := (rfl)
@[simp] theorem State.upCare_gills (s : State) (f : Care → Care) : (s.upCare f).gills = s.gills := (rfl)
@[simp] theorem State.upCare_tabs (s : State) (f : Care → Care) : (s.upCare f).tabs = s.tabs := (rfl)
@[simp] theorem State.upCare_dict (s : State) (f : Care → Care) : (s.upCare f).dict = s.dict := (rfl)
@[simp] theorem State.upCare_mbox (s : State) (f : Care → Care) : (s.upCare f).mbox = s.mbox := (rfl)
@[simp] theorem State.upCare_obs (s : State) (f : Care → Care) : (s.upCare f).obs = s.obs := (rfl)
@[simp] theorem State.upCare_perf (s : State) (f : Care → Care) : (s.upCare f).perf = s.perf := (rfl)
@[simp] theorem State.upCare_firkin (s : State) (f : Care → Care) : (s.upCare f).firkin = s.firkin := (rfl)
@[simp] theorem State.upCare_rstats (s : State) (f : Care → Care) : (s.upCare f).rstats = s.rstats := (rfl)
@[simp] theorem State.upCare_fw (s : State) (f : Care → Care) : (s.upCare f).fw = s.fw := (rfl)
@[simp] theorem State.upCare_dump (s : State) (f : Care → Care) : (s.upCare f).dump = s.dump := (rfl)
@[simp] theorem State.upCare_cmds (s : State) (f : Care → Care) : (s.upCare f).cmds = s.cmds := (rfl)
@[simp] theorem State.upCare_tap (s : State) (f : Care → Care) : (s.upCare f).tap = s.tap := (rfl)
@[simp] theorem State.upCare_pending (s : State) (f : Care → Care) : (s.upCare f).pending = s.pending := (rfl)
theorem State.keepsBut_upCare {ps : List Part} (s : State) (f : Care → Care)
    (h : Part.care ∈ ps) : s.keepsBut ps (s.upCare f) := by
  intro p hp
  cases p <;> first | rfl | exact absurd h hp

@[simp] theorem State.upYoke_ident (s : State) (f : Yoke → Yoke) : (s.upYoke f).ident = s.ident := (rfl)
@[simp] theorem State.upYoke_clk (s : State) (f : Yoke → Yoke) : (s.upYoke f).clk = s.clk := (rfl)
@[simp] theorem State.upYoke_pwr (s : State) (f : Yoke → Yoke) : (s.upYoke f).pwr = s.pwr := (rfl)
@[simp] theorem State.upYoke_port (s : State) (f : Yoke → Yoke) : (s.upYoke f).port = s.port := (rfl)
@[simp] theorem State.upYoke_reqs (s : State) (f : Yoke → Yoke) : (s.upYoke f).reqs = s.reqs := (rfl)
@[simp] theorem State.upYoke_fc (s : State) (f : Yoke → Yoke) : (s.upYoke f).fc = s.fc := (rfl)
@[simp] theorem State.upYoke_tier (s : State) (f : Yoke → Yoke) : (s.upYoke f).tier = s.tier := (rfl)
@[simp] theorem State.upYoke_slices (s : State) (f : Yoke → Yoke) : (s.upYoke f).slices = s.slices := (rfl)
@[simp] theorem State.upYoke_budget (s : State) (f : Yoke → Yoke) : (s.upYoke f).budget = s.budget := (rfl)
@[simp] theorem State.upYoke_media (s : State) (f : Yoke → Yoke) : (s.upYoke f).media = s.media := (rfl)
@[simp] theorem State.upYoke_map (s : State) (f : Yoke → Yoke) : (s.upYoke f).map = s.map := (rfl)
@[simp] theorem State.upYoke_care (s : State) (f : Yoke → Yoke) : (s.upYoke f).care = s.care := (rfl)
@[simp] theorem State.upYoke_yoke (s : State) (f : Yoke → Yoke) : (s.upYoke f).yoke = f s.yoke := (rfl)
@[simp] theorem State.upYoke_atom (s : State) (f : Yoke → Yoke) : (s.upYoke f).atom = s.atom := (rfl)
@[simp] theorem State.upYoke_keys (s : State) (f : Yoke → Yoke) : (s.upYoke f).keys = s.keys := (rfl)
@[simp] theorem State.upYoke_reg (s : State) (f : Yoke → Yoke) : (s.upYoke f).reg = s.reg := (rfl)
@[simp] theorem State.upYoke_therm (s : State) (f : Yoke → Yoke) : (s.upYoke f).therm = s.therm := (rfl)
@[simp] theorem State.upYoke_bank (s : State) (f : Yoke → Yoke) : (s.upYoke f).bank = s.bank := (rfl)
@[simp] theorem State.upYoke_dram (s : State) (f : Yoke → Yoke) : (s.upYoke f).dram = s.dram := (rfl)
@[simp] theorem State.upYoke_gills (s : State) (f : Yoke → Yoke) : (s.upYoke f).gills = s.gills := (rfl)
@[simp] theorem State.upYoke_tabs (s : State) (f : Yoke → Yoke) : (s.upYoke f).tabs = s.tabs := (rfl)
@[simp] theorem State.upYoke_dict (s : State) (f : Yoke → Yoke) : (s.upYoke f).dict = s.dict := (rfl)
@[simp] theorem State.upYoke_mbox (s : State) (f : Yoke → Yoke) : (s.upYoke f).mbox = s.mbox := (rfl)
@[simp] theorem State.upYoke_obs (s : State) (f : Yoke → Yoke) : (s.upYoke f).obs = s.obs := (rfl)
@[simp] theorem State.upYoke_perf (s : State) (f : Yoke → Yoke) : (s.upYoke f).perf = s.perf := (rfl)
@[simp] theorem State.upYoke_firkin (s : State) (f : Yoke → Yoke) : (s.upYoke f).firkin = s.firkin := (rfl)
@[simp] theorem State.upYoke_rstats (s : State) (f : Yoke → Yoke) : (s.upYoke f).rstats = s.rstats := (rfl)
@[simp] theorem State.upYoke_fw (s : State) (f : Yoke → Yoke) : (s.upYoke f).fw = s.fw := (rfl)
@[simp] theorem State.upYoke_dump (s : State) (f : Yoke → Yoke) : (s.upYoke f).dump = s.dump := (rfl)
@[simp] theorem State.upYoke_cmds (s : State) (f : Yoke → Yoke) : (s.upYoke f).cmds = s.cmds := (rfl)
@[simp] theorem State.upYoke_tap (s : State) (f : Yoke → Yoke) : (s.upYoke f).tap = s.tap := (rfl)
@[simp] theorem State.upYoke_pending (s : State) (f : Yoke → Yoke) : (s.upYoke f).pending = s.pending := (rfl)
theorem State.keepsBut_upYoke {ps : List Part} (s : State) (f : Yoke → Yoke)
    (h : Part.yoke ∈ ps) : s.keepsBut ps (s.upYoke f) := by
  intro p hp
  cases p <;> first | rfl | exact absurd h hp

@[simp] theorem State.upAtom_ident (s : State) (f : Atom → Atom) : (s.upAtom f).ident = s.ident := (rfl)
@[simp] theorem State.upAtom_clk (s : State) (f : Atom → Atom) : (s.upAtom f).clk = s.clk := (rfl)
@[simp] theorem State.upAtom_pwr (s : State) (f : Atom → Atom) : (s.upAtom f).pwr = s.pwr := (rfl)
@[simp] theorem State.upAtom_port (s : State) (f : Atom → Atom) : (s.upAtom f).port = s.port := (rfl)
@[simp] theorem State.upAtom_reqs (s : State) (f : Atom → Atom) : (s.upAtom f).reqs = s.reqs := (rfl)
@[simp] theorem State.upAtom_fc (s : State) (f : Atom → Atom) : (s.upAtom f).fc = s.fc := (rfl)
@[simp] theorem State.upAtom_tier (s : State) (f : Atom → Atom) : (s.upAtom f).tier = s.tier := (rfl)
@[simp] theorem State.upAtom_slices (s : State) (f : Atom → Atom) : (s.upAtom f).slices = s.slices := (rfl)
@[simp] theorem State.upAtom_budget (s : State) (f : Atom → Atom) : (s.upAtom f).budget = s.budget := (rfl)
@[simp] theorem State.upAtom_media (s : State) (f : Atom → Atom) : (s.upAtom f).media = s.media := (rfl)
@[simp] theorem State.upAtom_map (s : State) (f : Atom → Atom) : (s.upAtom f).map = s.map := (rfl)
@[simp] theorem State.upAtom_care (s : State) (f : Atom → Atom) : (s.upAtom f).care = s.care := (rfl)
@[simp] theorem State.upAtom_yoke (s : State) (f : Atom → Atom) : (s.upAtom f).yoke = s.yoke := (rfl)
@[simp] theorem State.upAtom_atom (s : State) (f : Atom → Atom) : (s.upAtom f).atom = f s.atom := (rfl)
@[simp] theorem State.upAtom_keys (s : State) (f : Atom → Atom) : (s.upAtom f).keys = s.keys := (rfl)
@[simp] theorem State.upAtom_reg (s : State) (f : Atom → Atom) : (s.upAtom f).reg = s.reg := (rfl)
@[simp] theorem State.upAtom_therm (s : State) (f : Atom → Atom) : (s.upAtom f).therm = s.therm := (rfl)
@[simp] theorem State.upAtom_bank (s : State) (f : Atom → Atom) : (s.upAtom f).bank = s.bank := (rfl)
@[simp] theorem State.upAtom_dram (s : State) (f : Atom → Atom) : (s.upAtom f).dram = s.dram := (rfl)
@[simp] theorem State.upAtom_gills (s : State) (f : Atom → Atom) : (s.upAtom f).gills = s.gills := (rfl)
@[simp] theorem State.upAtom_tabs (s : State) (f : Atom → Atom) : (s.upAtom f).tabs = s.tabs := (rfl)
@[simp] theorem State.upAtom_dict (s : State) (f : Atom → Atom) : (s.upAtom f).dict = s.dict := (rfl)
@[simp] theorem State.upAtom_mbox (s : State) (f : Atom → Atom) : (s.upAtom f).mbox = s.mbox := (rfl)
@[simp] theorem State.upAtom_obs (s : State) (f : Atom → Atom) : (s.upAtom f).obs = s.obs := (rfl)
@[simp] theorem State.upAtom_perf (s : State) (f : Atom → Atom) : (s.upAtom f).perf = s.perf := (rfl)
@[simp] theorem State.upAtom_firkin (s : State) (f : Atom → Atom) : (s.upAtom f).firkin = s.firkin := (rfl)
@[simp] theorem State.upAtom_rstats (s : State) (f : Atom → Atom) : (s.upAtom f).rstats = s.rstats := (rfl)
@[simp] theorem State.upAtom_fw (s : State) (f : Atom → Atom) : (s.upAtom f).fw = s.fw := (rfl)
@[simp] theorem State.upAtom_dump (s : State) (f : Atom → Atom) : (s.upAtom f).dump = s.dump := (rfl)
@[simp] theorem State.upAtom_cmds (s : State) (f : Atom → Atom) : (s.upAtom f).cmds = s.cmds := (rfl)
@[simp] theorem State.upAtom_tap (s : State) (f : Atom → Atom) : (s.upAtom f).tap = s.tap := (rfl)
@[simp] theorem State.upAtom_pending (s : State) (f : Atom → Atom) : (s.upAtom f).pending = s.pending := (rfl)
theorem State.keepsBut_upAtom {ps : List Part} (s : State) (f : Atom → Atom)
    (h : Part.atom ∈ ps) : s.keepsBut ps (s.upAtom f) := by
  intro p hp
  cases p <;> first | rfl | exact absurd h hp

@[simp] theorem State.upKeys_ident (s : State) (f : Keys → Keys) : (s.upKeys f).ident = s.ident := (rfl)
@[simp] theorem State.upKeys_clk (s : State) (f : Keys → Keys) : (s.upKeys f).clk = s.clk := (rfl)
@[simp] theorem State.upKeys_pwr (s : State) (f : Keys → Keys) : (s.upKeys f).pwr = s.pwr := (rfl)
@[simp] theorem State.upKeys_port (s : State) (f : Keys → Keys) : (s.upKeys f).port = s.port := (rfl)
@[simp] theorem State.upKeys_reqs (s : State) (f : Keys → Keys) : (s.upKeys f).reqs = s.reqs := (rfl)
@[simp] theorem State.upKeys_fc (s : State) (f : Keys → Keys) : (s.upKeys f).fc = s.fc := (rfl)
@[simp] theorem State.upKeys_tier (s : State) (f : Keys → Keys) : (s.upKeys f).tier = s.tier := (rfl)
@[simp] theorem State.upKeys_slices (s : State) (f : Keys → Keys) : (s.upKeys f).slices = s.slices := (rfl)
@[simp] theorem State.upKeys_budget (s : State) (f : Keys → Keys) : (s.upKeys f).budget = s.budget := (rfl)
@[simp] theorem State.upKeys_media (s : State) (f : Keys → Keys) : (s.upKeys f).media = s.media := (rfl)
@[simp] theorem State.upKeys_map (s : State) (f : Keys → Keys) : (s.upKeys f).map = s.map := (rfl)
@[simp] theorem State.upKeys_care (s : State) (f : Keys → Keys) : (s.upKeys f).care = s.care := (rfl)
@[simp] theorem State.upKeys_yoke (s : State) (f : Keys → Keys) : (s.upKeys f).yoke = s.yoke := (rfl)
@[simp] theorem State.upKeys_atom (s : State) (f : Keys → Keys) : (s.upKeys f).atom = s.atom := (rfl)
@[simp] theorem State.upKeys_keys (s : State) (f : Keys → Keys) : (s.upKeys f).keys = f s.keys := (rfl)
@[simp] theorem State.upKeys_reg (s : State) (f : Keys → Keys) : (s.upKeys f).reg = s.reg := (rfl)
@[simp] theorem State.upKeys_therm (s : State) (f : Keys → Keys) : (s.upKeys f).therm = s.therm := (rfl)
@[simp] theorem State.upKeys_bank (s : State) (f : Keys → Keys) : (s.upKeys f).bank = s.bank := (rfl)
@[simp] theorem State.upKeys_dram (s : State) (f : Keys → Keys) : (s.upKeys f).dram = s.dram := (rfl)
@[simp] theorem State.upKeys_gills (s : State) (f : Keys → Keys) : (s.upKeys f).gills = s.gills := (rfl)
@[simp] theorem State.upKeys_tabs (s : State) (f : Keys → Keys) : (s.upKeys f).tabs = s.tabs := (rfl)
@[simp] theorem State.upKeys_dict (s : State) (f : Keys → Keys) : (s.upKeys f).dict = s.dict := (rfl)
@[simp] theorem State.upKeys_mbox (s : State) (f : Keys → Keys) : (s.upKeys f).mbox = s.mbox := (rfl)
@[simp] theorem State.upKeys_obs (s : State) (f : Keys → Keys) : (s.upKeys f).obs = s.obs := (rfl)
@[simp] theorem State.upKeys_perf (s : State) (f : Keys → Keys) : (s.upKeys f).perf = s.perf := (rfl)
@[simp] theorem State.upKeys_firkin (s : State) (f : Keys → Keys) : (s.upKeys f).firkin = s.firkin := (rfl)
@[simp] theorem State.upKeys_rstats (s : State) (f : Keys → Keys) : (s.upKeys f).rstats = s.rstats := (rfl)
@[simp] theorem State.upKeys_fw (s : State) (f : Keys → Keys) : (s.upKeys f).fw = s.fw := (rfl)
@[simp] theorem State.upKeys_dump (s : State) (f : Keys → Keys) : (s.upKeys f).dump = s.dump := (rfl)
@[simp] theorem State.upKeys_cmds (s : State) (f : Keys → Keys) : (s.upKeys f).cmds = s.cmds := (rfl)
@[simp] theorem State.upKeys_tap (s : State) (f : Keys → Keys) : (s.upKeys f).tap = s.tap := (rfl)
@[simp] theorem State.upKeys_pending (s : State) (f : Keys → Keys) : (s.upKeys f).pending = s.pending := (rfl)
theorem State.keepsBut_upKeys {ps : List Part} (s : State) (f : Keys → Keys)
    (h : Part.keys ∈ ps) : s.keepsBut ps (s.upKeys f) := by
  intro p hp
  cases p <;> first | rfl | exact absurd h hp

@[simp] theorem State.upReg_ident (s : State) (f : Reg → Reg) : (s.upReg f).ident = s.ident := (rfl)
@[simp] theorem State.upReg_clk (s : State) (f : Reg → Reg) : (s.upReg f).clk = s.clk := (rfl)
@[simp] theorem State.upReg_pwr (s : State) (f : Reg → Reg) : (s.upReg f).pwr = s.pwr := (rfl)
@[simp] theorem State.upReg_port (s : State) (f : Reg → Reg) : (s.upReg f).port = s.port := (rfl)
@[simp] theorem State.upReg_reqs (s : State) (f : Reg → Reg) : (s.upReg f).reqs = s.reqs := (rfl)
@[simp] theorem State.upReg_fc (s : State) (f : Reg → Reg) : (s.upReg f).fc = s.fc := (rfl)
@[simp] theorem State.upReg_tier (s : State) (f : Reg → Reg) : (s.upReg f).tier = s.tier := (rfl)
@[simp] theorem State.upReg_slices (s : State) (f : Reg → Reg) : (s.upReg f).slices = s.slices := (rfl)
@[simp] theorem State.upReg_budget (s : State) (f : Reg → Reg) : (s.upReg f).budget = s.budget := (rfl)
@[simp] theorem State.upReg_media (s : State) (f : Reg → Reg) : (s.upReg f).media = s.media := (rfl)
@[simp] theorem State.upReg_map (s : State) (f : Reg → Reg) : (s.upReg f).map = s.map := (rfl)
@[simp] theorem State.upReg_care (s : State) (f : Reg → Reg) : (s.upReg f).care = s.care := (rfl)
@[simp] theorem State.upReg_yoke (s : State) (f : Reg → Reg) : (s.upReg f).yoke = s.yoke := (rfl)
@[simp] theorem State.upReg_atom (s : State) (f : Reg → Reg) : (s.upReg f).atom = s.atom := (rfl)
@[simp] theorem State.upReg_keys (s : State) (f : Reg → Reg) : (s.upReg f).keys = s.keys := (rfl)
@[simp] theorem State.upReg_reg (s : State) (f : Reg → Reg) : (s.upReg f).reg = f s.reg := (rfl)
@[simp] theorem State.upReg_therm (s : State) (f : Reg → Reg) : (s.upReg f).therm = s.therm := (rfl)
@[simp] theorem State.upReg_bank (s : State) (f : Reg → Reg) : (s.upReg f).bank = s.bank := (rfl)
@[simp] theorem State.upReg_dram (s : State) (f : Reg → Reg) : (s.upReg f).dram = s.dram := (rfl)
@[simp] theorem State.upReg_gills (s : State) (f : Reg → Reg) : (s.upReg f).gills = s.gills := (rfl)
@[simp] theorem State.upReg_tabs (s : State) (f : Reg → Reg) : (s.upReg f).tabs = s.tabs := (rfl)
@[simp] theorem State.upReg_dict (s : State) (f : Reg → Reg) : (s.upReg f).dict = s.dict := (rfl)
@[simp] theorem State.upReg_mbox (s : State) (f : Reg → Reg) : (s.upReg f).mbox = s.mbox := (rfl)
@[simp] theorem State.upReg_obs (s : State) (f : Reg → Reg) : (s.upReg f).obs = s.obs := (rfl)
@[simp] theorem State.upReg_perf (s : State) (f : Reg → Reg) : (s.upReg f).perf = s.perf := (rfl)
@[simp] theorem State.upReg_firkin (s : State) (f : Reg → Reg) : (s.upReg f).firkin = s.firkin := (rfl)
@[simp] theorem State.upReg_rstats (s : State) (f : Reg → Reg) : (s.upReg f).rstats = s.rstats := (rfl)
@[simp] theorem State.upReg_fw (s : State) (f : Reg → Reg) : (s.upReg f).fw = s.fw := (rfl)
@[simp] theorem State.upReg_dump (s : State) (f : Reg → Reg) : (s.upReg f).dump = s.dump := (rfl)
@[simp] theorem State.upReg_cmds (s : State) (f : Reg → Reg) : (s.upReg f).cmds = s.cmds := (rfl)
@[simp] theorem State.upReg_tap (s : State) (f : Reg → Reg) : (s.upReg f).tap = s.tap := (rfl)
@[simp] theorem State.upReg_pending (s : State) (f : Reg → Reg) : (s.upReg f).pending = s.pending := (rfl)
theorem State.keepsBut_upReg {ps : List Part} (s : State) (f : Reg → Reg)
    (h : Part.reg ∈ ps) : s.keepsBut ps (s.upReg f) := by
  intro p hp
  cases p <;> first | rfl | exact absurd h hp

@[simp] theorem State.upTherm_ident (s : State) (f : Therm → Therm) : (s.upTherm f).ident = s.ident := (rfl)
@[simp] theorem State.upTherm_clk (s : State) (f : Therm → Therm) : (s.upTherm f).clk = s.clk := (rfl)
@[simp] theorem State.upTherm_pwr (s : State) (f : Therm → Therm) : (s.upTherm f).pwr = s.pwr := (rfl)
@[simp] theorem State.upTherm_port (s : State) (f : Therm → Therm) : (s.upTherm f).port = s.port := (rfl)
@[simp] theorem State.upTherm_reqs (s : State) (f : Therm → Therm) : (s.upTherm f).reqs = s.reqs := (rfl)
@[simp] theorem State.upTherm_fc (s : State) (f : Therm → Therm) : (s.upTherm f).fc = s.fc := (rfl)
@[simp] theorem State.upTherm_tier (s : State) (f : Therm → Therm) : (s.upTherm f).tier = s.tier := (rfl)
@[simp] theorem State.upTherm_slices (s : State) (f : Therm → Therm) : (s.upTherm f).slices = s.slices := (rfl)
@[simp] theorem State.upTherm_budget (s : State) (f : Therm → Therm) : (s.upTherm f).budget = s.budget := (rfl)
@[simp] theorem State.upTherm_media (s : State) (f : Therm → Therm) : (s.upTherm f).media = s.media := (rfl)
@[simp] theorem State.upTherm_map (s : State) (f : Therm → Therm) : (s.upTherm f).map = s.map := (rfl)
@[simp] theorem State.upTherm_care (s : State) (f : Therm → Therm) : (s.upTherm f).care = s.care := (rfl)
@[simp] theorem State.upTherm_yoke (s : State) (f : Therm → Therm) : (s.upTherm f).yoke = s.yoke := (rfl)
@[simp] theorem State.upTherm_atom (s : State) (f : Therm → Therm) : (s.upTherm f).atom = s.atom := (rfl)
@[simp] theorem State.upTherm_keys (s : State) (f : Therm → Therm) : (s.upTherm f).keys = s.keys := (rfl)
@[simp] theorem State.upTherm_reg (s : State) (f : Therm → Therm) : (s.upTherm f).reg = s.reg := (rfl)
@[simp] theorem State.upTherm_therm (s : State) (f : Therm → Therm) : (s.upTherm f).therm = f s.therm := (rfl)
@[simp] theorem State.upTherm_bank (s : State) (f : Therm → Therm) : (s.upTherm f).bank = s.bank := (rfl)
@[simp] theorem State.upTherm_dram (s : State) (f : Therm → Therm) : (s.upTherm f).dram = s.dram := (rfl)
@[simp] theorem State.upTherm_gills (s : State) (f : Therm → Therm) : (s.upTherm f).gills = s.gills := (rfl)
@[simp] theorem State.upTherm_tabs (s : State) (f : Therm → Therm) : (s.upTherm f).tabs = s.tabs := (rfl)
@[simp] theorem State.upTherm_dict (s : State) (f : Therm → Therm) : (s.upTherm f).dict = s.dict := (rfl)
@[simp] theorem State.upTherm_mbox (s : State) (f : Therm → Therm) : (s.upTherm f).mbox = s.mbox := (rfl)
@[simp] theorem State.upTherm_obs (s : State) (f : Therm → Therm) : (s.upTherm f).obs = s.obs := (rfl)
@[simp] theorem State.upTherm_perf (s : State) (f : Therm → Therm) : (s.upTherm f).perf = s.perf := (rfl)
@[simp] theorem State.upTherm_firkin (s : State) (f : Therm → Therm) : (s.upTherm f).firkin = s.firkin := (rfl)
@[simp] theorem State.upTherm_rstats (s : State) (f : Therm → Therm) : (s.upTherm f).rstats = s.rstats := (rfl)
@[simp] theorem State.upTherm_fw (s : State) (f : Therm → Therm) : (s.upTherm f).fw = s.fw := (rfl)
@[simp] theorem State.upTherm_dump (s : State) (f : Therm → Therm) : (s.upTherm f).dump = s.dump := (rfl)
@[simp] theorem State.upTherm_cmds (s : State) (f : Therm → Therm) : (s.upTherm f).cmds = s.cmds := (rfl)
@[simp] theorem State.upTherm_tap (s : State) (f : Therm → Therm) : (s.upTherm f).tap = s.tap := (rfl)
@[simp] theorem State.upTherm_pending (s : State) (f : Therm → Therm) : (s.upTherm f).pending = s.pending := (rfl)
theorem State.keepsBut_upTherm {ps : List Part} (s : State) (f : Therm → Therm)
    (h : Part.therm ∈ ps) : s.keepsBut ps (s.upTherm f) := by
  intro p hp
  cases p <;> first | rfl | exact absurd h hp

@[simp] theorem State.upBank_ident (s : State) (f : Bank → Bank) : (s.upBank f).ident = s.ident := (rfl)
@[simp] theorem State.upBank_clk (s : State) (f : Bank → Bank) : (s.upBank f).clk = s.clk := (rfl)
@[simp] theorem State.upBank_pwr (s : State) (f : Bank → Bank) : (s.upBank f).pwr = s.pwr := (rfl)
@[simp] theorem State.upBank_port (s : State) (f : Bank → Bank) : (s.upBank f).port = s.port := (rfl)
@[simp] theorem State.upBank_reqs (s : State) (f : Bank → Bank) : (s.upBank f).reqs = s.reqs := (rfl)
@[simp] theorem State.upBank_fc (s : State) (f : Bank → Bank) : (s.upBank f).fc = s.fc := (rfl)
@[simp] theorem State.upBank_tier (s : State) (f : Bank → Bank) : (s.upBank f).tier = s.tier := (rfl)
@[simp] theorem State.upBank_slices (s : State) (f : Bank → Bank) : (s.upBank f).slices = s.slices := (rfl)
@[simp] theorem State.upBank_budget (s : State) (f : Bank → Bank) : (s.upBank f).budget = s.budget := (rfl)
@[simp] theorem State.upBank_media (s : State) (f : Bank → Bank) : (s.upBank f).media = s.media := (rfl)
@[simp] theorem State.upBank_map (s : State) (f : Bank → Bank) : (s.upBank f).map = s.map := (rfl)
@[simp] theorem State.upBank_care (s : State) (f : Bank → Bank) : (s.upBank f).care = s.care := (rfl)
@[simp] theorem State.upBank_yoke (s : State) (f : Bank → Bank) : (s.upBank f).yoke = s.yoke := (rfl)
@[simp] theorem State.upBank_atom (s : State) (f : Bank → Bank) : (s.upBank f).atom = s.atom := (rfl)
@[simp] theorem State.upBank_keys (s : State) (f : Bank → Bank) : (s.upBank f).keys = s.keys := (rfl)
@[simp] theorem State.upBank_reg (s : State) (f : Bank → Bank) : (s.upBank f).reg = s.reg := (rfl)
@[simp] theorem State.upBank_therm (s : State) (f : Bank → Bank) : (s.upBank f).therm = s.therm := (rfl)
@[simp] theorem State.upBank_bank (s : State) (f : Bank → Bank) : (s.upBank f).bank = f s.bank := (rfl)
@[simp] theorem State.upBank_dram (s : State) (f : Bank → Bank) : (s.upBank f).dram = s.dram := (rfl)
@[simp] theorem State.upBank_gills (s : State) (f : Bank → Bank) : (s.upBank f).gills = s.gills := (rfl)
@[simp] theorem State.upBank_tabs (s : State) (f : Bank → Bank) : (s.upBank f).tabs = s.tabs := (rfl)
@[simp] theorem State.upBank_dict (s : State) (f : Bank → Bank) : (s.upBank f).dict = s.dict := (rfl)
@[simp] theorem State.upBank_mbox (s : State) (f : Bank → Bank) : (s.upBank f).mbox = s.mbox := (rfl)
@[simp] theorem State.upBank_obs (s : State) (f : Bank → Bank) : (s.upBank f).obs = s.obs := (rfl)
@[simp] theorem State.upBank_perf (s : State) (f : Bank → Bank) : (s.upBank f).perf = s.perf := (rfl)
@[simp] theorem State.upBank_firkin (s : State) (f : Bank → Bank) : (s.upBank f).firkin = s.firkin := (rfl)
@[simp] theorem State.upBank_rstats (s : State) (f : Bank → Bank) : (s.upBank f).rstats = s.rstats := (rfl)
@[simp] theorem State.upBank_fw (s : State) (f : Bank → Bank) : (s.upBank f).fw = s.fw := (rfl)
@[simp] theorem State.upBank_dump (s : State) (f : Bank → Bank) : (s.upBank f).dump = s.dump := (rfl)
@[simp] theorem State.upBank_cmds (s : State) (f : Bank → Bank) : (s.upBank f).cmds = s.cmds := (rfl)
@[simp] theorem State.upBank_tap (s : State) (f : Bank → Bank) : (s.upBank f).tap = s.tap := (rfl)
@[simp] theorem State.upBank_pending (s : State) (f : Bank → Bank) : (s.upBank f).pending = s.pending := (rfl)
theorem State.keepsBut_upBank {ps : List Part} (s : State) (f : Bank → Bank)
    (h : Part.bank ∈ ps) : s.keepsBut ps (s.upBank f) := by
  intro p hp
  cases p <;> first | rfl | exact absurd h hp

@[simp] theorem State.upDram_ident (s : State) (f : Dram → Dram) : (s.upDram f).ident = s.ident := (rfl)
@[simp] theorem State.upDram_clk (s : State) (f : Dram → Dram) : (s.upDram f).clk = s.clk := (rfl)
@[simp] theorem State.upDram_pwr (s : State) (f : Dram → Dram) : (s.upDram f).pwr = s.pwr := (rfl)
@[simp] theorem State.upDram_port (s : State) (f : Dram → Dram) : (s.upDram f).port = s.port := (rfl)
@[simp] theorem State.upDram_reqs (s : State) (f : Dram → Dram) : (s.upDram f).reqs = s.reqs := (rfl)
@[simp] theorem State.upDram_fc (s : State) (f : Dram → Dram) : (s.upDram f).fc = s.fc := (rfl)
@[simp] theorem State.upDram_tier (s : State) (f : Dram → Dram) : (s.upDram f).tier = s.tier := (rfl)
@[simp] theorem State.upDram_slices (s : State) (f : Dram → Dram) : (s.upDram f).slices = s.slices := (rfl)
@[simp] theorem State.upDram_budget (s : State) (f : Dram → Dram) : (s.upDram f).budget = s.budget := (rfl)
@[simp] theorem State.upDram_media (s : State) (f : Dram → Dram) : (s.upDram f).media = s.media := (rfl)
@[simp] theorem State.upDram_map (s : State) (f : Dram → Dram) : (s.upDram f).map = s.map := (rfl)
@[simp] theorem State.upDram_care (s : State) (f : Dram → Dram) : (s.upDram f).care = s.care := (rfl)
@[simp] theorem State.upDram_yoke (s : State) (f : Dram → Dram) : (s.upDram f).yoke = s.yoke := (rfl)
@[simp] theorem State.upDram_atom (s : State) (f : Dram → Dram) : (s.upDram f).atom = s.atom := (rfl)
@[simp] theorem State.upDram_keys (s : State) (f : Dram → Dram) : (s.upDram f).keys = s.keys := (rfl)
@[simp] theorem State.upDram_reg (s : State) (f : Dram → Dram) : (s.upDram f).reg = s.reg := (rfl)
@[simp] theorem State.upDram_therm (s : State) (f : Dram → Dram) : (s.upDram f).therm = s.therm := (rfl)
@[simp] theorem State.upDram_bank (s : State) (f : Dram → Dram) : (s.upDram f).bank = s.bank := (rfl)
@[simp] theorem State.upDram_dram (s : State) (f : Dram → Dram) : (s.upDram f).dram = f s.dram := (rfl)
@[simp] theorem State.upDram_gills (s : State) (f : Dram → Dram) : (s.upDram f).gills = s.gills := (rfl)
@[simp] theorem State.upDram_tabs (s : State) (f : Dram → Dram) : (s.upDram f).tabs = s.tabs := (rfl)
@[simp] theorem State.upDram_dict (s : State) (f : Dram → Dram) : (s.upDram f).dict = s.dict := (rfl)
@[simp] theorem State.upDram_mbox (s : State) (f : Dram → Dram) : (s.upDram f).mbox = s.mbox := (rfl)
@[simp] theorem State.upDram_obs (s : State) (f : Dram → Dram) : (s.upDram f).obs = s.obs := (rfl)
@[simp] theorem State.upDram_perf (s : State) (f : Dram → Dram) : (s.upDram f).perf = s.perf := (rfl)
@[simp] theorem State.upDram_firkin (s : State) (f : Dram → Dram) : (s.upDram f).firkin = s.firkin := (rfl)
@[simp] theorem State.upDram_rstats (s : State) (f : Dram → Dram) : (s.upDram f).rstats = s.rstats := (rfl)
@[simp] theorem State.upDram_fw (s : State) (f : Dram → Dram) : (s.upDram f).fw = s.fw := (rfl)
@[simp] theorem State.upDram_dump (s : State) (f : Dram → Dram) : (s.upDram f).dump = s.dump := (rfl)
@[simp] theorem State.upDram_cmds (s : State) (f : Dram → Dram) : (s.upDram f).cmds = s.cmds := (rfl)
@[simp] theorem State.upDram_tap (s : State) (f : Dram → Dram) : (s.upDram f).tap = s.tap := (rfl)
@[simp] theorem State.upDram_pending (s : State) (f : Dram → Dram) : (s.upDram f).pending = s.pending := (rfl)
theorem State.keepsBut_upDram {ps : List Part} (s : State) (f : Dram → Dram)
    (h : Part.dram ∈ ps) : s.keepsBut ps (s.upDram f) := by
  intro p hp
  cases p <;> first | rfl | exact absurd h hp

@[simp] theorem State.upGills_ident (s : State) (f : Gills → Gills) : (s.upGills f).ident = s.ident := (rfl)
@[simp] theorem State.upGills_clk (s : State) (f : Gills → Gills) : (s.upGills f).clk = s.clk := (rfl)
@[simp] theorem State.upGills_pwr (s : State) (f : Gills → Gills) : (s.upGills f).pwr = s.pwr := (rfl)
@[simp] theorem State.upGills_port (s : State) (f : Gills → Gills) : (s.upGills f).port = s.port := (rfl)
@[simp] theorem State.upGills_reqs (s : State) (f : Gills → Gills) : (s.upGills f).reqs = s.reqs := (rfl)
@[simp] theorem State.upGills_fc (s : State) (f : Gills → Gills) : (s.upGills f).fc = s.fc := (rfl)
@[simp] theorem State.upGills_tier (s : State) (f : Gills → Gills) : (s.upGills f).tier = s.tier := (rfl)
@[simp] theorem State.upGills_slices (s : State) (f : Gills → Gills) : (s.upGills f).slices = s.slices := (rfl)
@[simp] theorem State.upGills_budget (s : State) (f : Gills → Gills) : (s.upGills f).budget = s.budget := (rfl)
@[simp] theorem State.upGills_media (s : State) (f : Gills → Gills) : (s.upGills f).media = s.media := (rfl)
@[simp] theorem State.upGills_map (s : State) (f : Gills → Gills) : (s.upGills f).map = s.map := (rfl)
@[simp] theorem State.upGills_care (s : State) (f : Gills → Gills) : (s.upGills f).care = s.care := (rfl)
@[simp] theorem State.upGills_yoke (s : State) (f : Gills → Gills) : (s.upGills f).yoke = s.yoke := (rfl)
@[simp] theorem State.upGills_atom (s : State) (f : Gills → Gills) : (s.upGills f).atom = s.atom := (rfl)
@[simp] theorem State.upGills_keys (s : State) (f : Gills → Gills) : (s.upGills f).keys = s.keys := (rfl)
@[simp] theorem State.upGills_reg (s : State) (f : Gills → Gills) : (s.upGills f).reg = s.reg := (rfl)
@[simp] theorem State.upGills_therm (s : State) (f : Gills → Gills) : (s.upGills f).therm = s.therm := (rfl)
@[simp] theorem State.upGills_bank (s : State) (f : Gills → Gills) : (s.upGills f).bank = s.bank := (rfl)
@[simp] theorem State.upGills_dram (s : State) (f : Gills → Gills) : (s.upGills f).dram = s.dram := (rfl)
@[simp] theorem State.upGills_gills (s : State) (f : Gills → Gills) : (s.upGills f).gills = f s.gills := (rfl)
@[simp] theorem State.upGills_tabs (s : State) (f : Gills → Gills) : (s.upGills f).tabs = s.tabs := (rfl)
@[simp] theorem State.upGills_dict (s : State) (f : Gills → Gills) : (s.upGills f).dict = s.dict := (rfl)
@[simp] theorem State.upGills_mbox (s : State) (f : Gills → Gills) : (s.upGills f).mbox = s.mbox := (rfl)
@[simp] theorem State.upGills_obs (s : State) (f : Gills → Gills) : (s.upGills f).obs = s.obs := (rfl)
@[simp] theorem State.upGills_perf (s : State) (f : Gills → Gills) : (s.upGills f).perf = s.perf := (rfl)
@[simp] theorem State.upGills_firkin (s : State) (f : Gills → Gills) : (s.upGills f).firkin = s.firkin := (rfl)
@[simp] theorem State.upGills_rstats (s : State) (f : Gills → Gills) : (s.upGills f).rstats = s.rstats := (rfl)
@[simp] theorem State.upGills_fw (s : State) (f : Gills → Gills) : (s.upGills f).fw = s.fw := (rfl)
@[simp] theorem State.upGills_dump (s : State) (f : Gills → Gills) : (s.upGills f).dump = s.dump := (rfl)
@[simp] theorem State.upGills_cmds (s : State) (f : Gills → Gills) : (s.upGills f).cmds = s.cmds := (rfl)
@[simp] theorem State.upGills_tap (s : State) (f : Gills → Gills) : (s.upGills f).tap = s.tap := (rfl)
@[simp] theorem State.upGills_pending (s : State) (f : Gills → Gills) : (s.upGills f).pending = s.pending := (rfl)
theorem State.keepsBut_upGills {ps : List Part} (s : State) (f : Gills → Gills)
    (h : Part.gills ∈ ps) : s.keepsBut ps (s.upGills f) := by
  intro p hp
  cases p <;> first | rfl | exact absurd h hp

@[simp] theorem State.upTabs_ident (s : State) (f : Tabs → Tabs) : (s.upTabs f).ident = s.ident := (rfl)
@[simp] theorem State.upTabs_clk (s : State) (f : Tabs → Tabs) : (s.upTabs f).clk = s.clk := (rfl)
@[simp] theorem State.upTabs_pwr (s : State) (f : Tabs → Tabs) : (s.upTabs f).pwr = s.pwr := (rfl)
@[simp] theorem State.upTabs_port (s : State) (f : Tabs → Tabs) : (s.upTabs f).port = s.port := (rfl)
@[simp] theorem State.upTabs_reqs (s : State) (f : Tabs → Tabs) : (s.upTabs f).reqs = s.reqs := (rfl)
@[simp] theorem State.upTabs_fc (s : State) (f : Tabs → Tabs) : (s.upTabs f).fc = s.fc := (rfl)
@[simp] theorem State.upTabs_tier (s : State) (f : Tabs → Tabs) : (s.upTabs f).tier = s.tier := (rfl)
@[simp] theorem State.upTabs_slices (s : State) (f : Tabs → Tabs) : (s.upTabs f).slices = s.slices := (rfl)
@[simp] theorem State.upTabs_budget (s : State) (f : Tabs → Tabs) : (s.upTabs f).budget = s.budget := (rfl)
@[simp] theorem State.upTabs_media (s : State) (f : Tabs → Tabs) : (s.upTabs f).media = s.media := (rfl)
@[simp] theorem State.upTabs_map (s : State) (f : Tabs → Tabs) : (s.upTabs f).map = s.map := (rfl)
@[simp] theorem State.upTabs_care (s : State) (f : Tabs → Tabs) : (s.upTabs f).care = s.care := (rfl)
@[simp] theorem State.upTabs_yoke (s : State) (f : Tabs → Tabs) : (s.upTabs f).yoke = s.yoke := (rfl)
@[simp] theorem State.upTabs_atom (s : State) (f : Tabs → Tabs) : (s.upTabs f).atom = s.atom := (rfl)
@[simp] theorem State.upTabs_keys (s : State) (f : Tabs → Tabs) : (s.upTabs f).keys = s.keys := (rfl)
@[simp] theorem State.upTabs_reg (s : State) (f : Tabs → Tabs) : (s.upTabs f).reg = s.reg := (rfl)
@[simp] theorem State.upTabs_therm (s : State) (f : Tabs → Tabs) : (s.upTabs f).therm = s.therm := (rfl)
@[simp] theorem State.upTabs_bank (s : State) (f : Tabs → Tabs) : (s.upTabs f).bank = s.bank := (rfl)
@[simp] theorem State.upTabs_dram (s : State) (f : Tabs → Tabs) : (s.upTabs f).dram = s.dram := (rfl)
@[simp] theorem State.upTabs_gills (s : State) (f : Tabs → Tabs) : (s.upTabs f).gills = s.gills := (rfl)
@[simp] theorem State.upTabs_tabs (s : State) (f : Tabs → Tabs) : (s.upTabs f).tabs = f s.tabs := (rfl)
@[simp] theorem State.upTabs_dict (s : State) (f : Tabs → Tabs) : (s.upTabs f).dict = s.dict := (rfl)
@[simp] theorem State.upTabs_mbox (s : State) (f : Tabs → Tabs) : (s.upTabs f).mbox = s.mbox := (rfl)
@[simp] theorem State.upTabs_obs (s : State) (f : Tabs → Tabs) : (s.upTabs f).obs = s.obs := (rfl)
@[simp] theorem State.upTabs_perf (s : State) (f : Tabs → Tabs) : (s.upTabs f).perf = s.perf := (rfl)
@[simp] theorem State.upTabs_firkin (s : State) (f : Tabs → Tabs) : (s.upTabs f).firkin = s.firkin := (rfl)
@[simp] theorem State.upTabs_rstats (s : State) (f : Tabs → Tabs) : (s.upTabs f).rstats = s.rstats := (rfl)
@[simp] theorem State.upTabs_fw (s : State) (f : Tabs → Tabs) : (s.upTabs f).fw = s.fw := (rfl)
@[simp] theorem State.upTabs_dump (s : State) (f : Tabs → Tabs) : (s.upTabs f).dump = s.dump := (rfl)
@[simp] theorem State.upTabs_cmds (s : State) (f : Tabs → Tabs) : (s.upTabs f).cmds = s.cmds := (rfl)
@[simp] theorem State.upTabs_tap (s : State) (f : Tabs → Tabs) : (s.upTabs f).tap = s.tap := (rfl)
@[simp] theorem State.upTabs_pending (s : State) (f : Tabs → Tabs) : (s.upTabs f).pending = s.pending := (rfl)
theorem State.keepsBut_upTabs {ps : List Part} (s : State) (f : Tabs → Tabs)
    (h : Part.tabs ∈ ps) : s.keepsBut ps (s.upTabs f) := by
  intro p hp
  cases p <;> first | rfl | exact absurd h hp

@[simp] theorem State.upDict_ident (s : State) (f : Dict → Dict) : (s.upDict f).ident = s.ident := (rfl)
@[simp] theorem State.upDict_clk (s : State) (f : Dict → Dict) : (s.upDict f).clk = s.clk := (rfl)
@[simp] theorem State.upDict_pwr (s : State) (f : Dict → Dict) : (s.upDict f).pwr = s.pwr := (rfl)
@[simp] theorem State.upDict_port (s : State) (f : Dict → Dict) : (s.upDict f).port = s.port := (rfl)
@[simp] theorem State.upDict_reqs (s : State) (f : Dict → Dict) : (s.upDict f).reqs = s.reqs := (rfl)
@[simp] theorem State.upDict_fc (s : State) (f : Dict → Dict) : (s.upDict f).fc = s.fc := (rfl)
@[simp] theorem State.upDict_tier (s : State) (f : Dict → Dict) : (s.upDict f).tier = s.tier := (rfl)
@[simp] theorem State.upDict_slices (s : State) (f : Dict → Dict) : (s.upDict f).slices = s.slices := (rfl)
@[simp] theorem State.upDict_budget (s : State) (f : Dict → Dict) : (s.upDict f).budget = s.budget := (rfl)
@[simp] theorem State.upDict_media (s : State) (f : Dict → Dict) : (s.upDict f).media = s.media := (rfl)
@[simp] theorem State.upDict_map (s : State) (f : Dict → Dict) : (s.upDict f).map = s.map := (rfl)
@[simp] theorem State.upDict_care (s : State) (f : Dict → Dict) : (s.upDict f).care = s.care := (rfl)
@[simp] theorem State.upDict_yoke (s : State) (f : Dict → Dict) : (s.upDict f).yoke = s.yoke := (rfl)
@[simp] theorem State.upDict_atom (s : State) (f : Dict → Dict) : (s.upDict f).atom = s.atom := (rfl)
@[simp] theorem State.upDict_keys (s : State) (f : Dict → Dict) : (s.upDict f).keys = s.keys := (rfl)
@[simp] theorem State.upDict_reg (s : State) (f : Dict → Dict) : (s.upDict f).reg = s.reg := (rfl)
@[simp] theorem State.upDict_therm (s : State) (f : Dict → Dict) : (s.upDict f).therm = s.therm := (rfl)
@[simp] theorem State.upDict_bank (s : State) (f : Dict → Dict) : (s.upDict f).bank = s.bank := (rfl)
@[simp] theorem State.upDict_dram (s : State) (f : Dict → Dict) : (s.upDict f).dram = s.dram := (rfl)
@[simp] theorem State.upDict_gills (s : State) (f : Dict → Dict) : (s.upDict f).gills = s.gills := (rfl)
@[simp] theorem State.upDict_tabs (s : State) (f : Dict → Dict) : (s.upDict f).tabs = s.tabs := (rfl)
@[simp] theorem State.upDict_dict (s : State) (f : Dict → Dict) : (s.upDict f).dict = f s.dict := (rfl)
@[simp] theorem State.upDict_mbox (s : State) (f : Dict → Dict) : (s.upDict f).mbox = s.mbox := (rfl)
@[simp] theorem State.upDict_obs (s : State) (f : Dict → Dict) : (s.upDict f).obs = s.obs := (rfl)
@[simp] theorem State.upDict_perf (s : State) (f : Dict → Dict) : (s.upDict f).perf = s.perf := (rfl)
@[simp] theorem State.upDict_firkin (s : State) (f : Dict → Dict) : (s.upDict f).firkin = s.firkin := (rfl)
@[simp] theorem State.upDict_rstats (s : State) (f : Dict → Dict) : (s.upDict f).rstats = s.rstats := (rfl)
@[simp] theorem State.upDict_fw (s : State) (f : Dict → Dict) : (s.upDict f).fw = s.fw := (rfl)
@[simp] theorem State.upDict_dump (s : State) (f : Dict → Dict) : (s.upDict f).dump = s.dump := (rfl)
@[simp] theorem State.upDict_cmds (s : State) (f : Dict → Dict) : (s.upDict f).cmds = s.cmds := (rfl)
@[simp] theorem State.upDict_tap (s : State) (f : Dict → Dict) : (s.upDict f).tap = s.tap := (rfl)
@[simp] theorem State.upDict_pending (s : State) (f : Dict → Dict) : (s.upDict f).pending = s.pending := (rfl)
theorem State.keepsBut_upDict {ps : List Part} (s : State) (f : Dict → Dict)
    (h : Part.dict ∈ ps) : s.keepsBut ps (s.upDict f) := by
  intro p hp
  cases p <;> first | rfl | exact absurd h hp

@[simp] theorem State.upMbox_ident (s : State) (f : Mbox → Mbox) : (s.upMbox f).ident = s.ident := (rfl)
@[simp] theorem State.upMbox_clk (s : State) (f : Mbox → Mbox) : (s.upMbox f).clk = s.clk := (rfl)
@[simp] theorem State.upMbox_pwr (s : State) (f : Mbox → Mbox) : (s.upMbox f).pwr = s.pwr := (rfl)
@[simp] theorem State.upMbox_port (s : State) (f : Mbox → Mbox) : (s.upMbox f).port = s.port := (rfl)
@[simp] theorem State.upMbox_reqs (s : State) (f : Mbox → Mbox) : (s.upMbox f).reqs = s.reqs := (rfl)
@[simp] theorem State.upMbox_fc (s : State) (f : Mbox → Mbox) : (s.upMbox f).fc = s.fc := (rfl)
@[simp] theorem State.upMbox_tier (s : State) (f : Mbox → Mbox) : (s.upMbox f).tier = s.tier := (rfl)
@[simp] theorem State.upMbox_slices (s : State) (f : Mbox → Mbox) : (s.upMbox f).slices = s.slices := (rfl)
@[simp] theorem State.upMbox_budget (s : State) (f : Mbox → Mbox) : (s.upMbox f).budget = s.budget := (rfl)
@[simp] theorem State.upMbox_media (s : State) (f : Mbox → Mbox) : (s.upMbox f).media = s.media := (rfl)
@[simp] theorem State.upMbox_map (s : State) (f : Mbox → Mbox) : (s.upMbox f).map = s.map := (rfl)
@[simp] theorem State.upMbox_care (s : State) (f : Mbox → Mbox) : (s.upMbox f).care = s.care := (rfl)
@[simp] theorem State.upMbox_yoke (s : State) (f : Mbox → Mbox) : (s.upMbox f).yoke = s.yoke := (rfl)
@[simp] theorem State.upMbox_atom (s : State) (f : Mbox → Mbox) : (s.upMbox f).atom = s.atom := (rfl)
@[simp] theorem State.upMbox_keys (s : State) (f : Mbox → Mbox) : (s.upMbox f).keys = s.keys := (rfl)
@[simp] theorem State.upMbox_reg (s : State) (f : Mbox → Mbox) : (s.upMbox f).reg = s.reg := (rfl)
@[simp] theorem State.upMbox_therm (s : State) (f : Mbox → Mbox) : (s.upMbox f).therm = s.therm := (rfl)
@[simp] theorem State.upMbox_bank (s : State) (f : Mbox → Mbox) : (s.upMbox f).bank = s.bank := (rfl)
@[simp] theorem State.upMbox_dram (s : State) (f : Mbox → Mbox) : (s.upMbox f).dram = s.dram := (rfl)
@[simp] theorem State.upMbox_gills (s : State) (f : Mbox → Mbox) : (s.upMbox f).gills = s.gills := (rfl)
@[simp] theorem State.upMbox_tabs (s : State) (f : Mbox → Mbox) : (s.upMbox f).tabs = s.tabs := (rfl)
@[simp] theorem State.upMbox_dict (s : State) (f : Mbox → Mbox) : (s.upMbox f).dict = s.dict := (rfl)
@[simp] theorem State.upMbox_mbox (s : State) (f : Mbox → Mbox) : (s.upMbox f).mbox = f s.mbox := (rfl)
@[simp] theorem State.upMbox_obs (s : State) (f : Mbox → Mbox) : (s.upMbox f).obs = s.obs := (rfl)
@[simp] theorem State.upMbox_perf (s : State) (f : Mbox → Mbox) : (s.upMbox f).perf = s.perf := (rfl)
@[simp] theorem State.upMbox_firkin (s : State) (f : Mbox → Mbox) : (s.upMbox f).firkin = s.firkin := (rfl)
@[simp] theorem State.upMbox_rstats (s : State) (f : Mbox → Mbox) : (s.upMbox f).rstats = s.rstats := (rfl)
@[simp] theorem State.upMbox_fw (s : State) (f : Mbox → Mbox) : (s.upMbox f).fw = s.fw := (rfl)
@[simp] theorem State.upMbox_dump (s : State) (f : Mbox → Mbox) : (s.upMbox f).dump = s.dump := (rfl)
@[simp] theorem State.upMbox_cmds (s : State) (f : Mbox → Mbox) : (s.upMbox f).cmds = s.cmds := (rfl)
@[simp] theorem State.upMbox_tap (s : State) (f : Mbox → Mbox) : (s.upMbox f).tap = s.tap := (rfl)
@[simp] theorem State.upMbox_pending (s : State) (f : Mbox → Mbox) : (s.upMbox f).pending = s.pending := (rfl)
theorem State.keepsBut_upMbox {ps : List Part} (s : State) (f : Mbox → Mbox)
    (h : Part.mbox ∈ ps) : s.keepsBut ps (s.upMbox f) := by
  intro p hp
  cases p <;> first | rfl | exact absurd h hp

@[simp] theorem State.upObs_ident (s : State) (f : Obs → Obs) : (s.upObs f).ident = s.ident := (rfl)
@[simp] theorem State.upObs_clk (s : State) (f : Obs → Obs) : (s.upObs f).clk = s.clk := (rfl)
@[simp] theorem State.upObs_pwr (s : State) (f : Obs → Obs) : (s.upObs f).pwr = s.pwr := (rfl)
@[simp] theorem State.upObs_port (s : State) (f : Obs → Obs) : (s.upObs f).port = s.port := (rfl)
@[simp] theorem State.upObs_reqs (s : State) (f : Obs → Obs) : (s.upObs f).reqs = s.reqs := (rfl)
@[simp] theorem State.upObs_fc (s : State) (f : Obs → Obs) : (s.upObs f).fc = s.fc := (rfl)
@[simp] theorem State.upObs_tier (s : State) (f : Obs → Obs) : (s.upObs f).tier = s.tier := (rfl)
@[simp] theorem State.upObs_slices (s : State) (f : Obs → Obs) : (s.upObs f).slices = s.slices := (rfl)
@[simp] theorem State.upObs_budget (s : State) (f : Obs → Obs) : (s.upObs f).budget = s.budget := (rfl)
@[simp] theorem State.upObs_media (s : State) (f : Obs → Obs) : (s.upObs f).media = s.media := (rfl)
@[simp] theorem State.upObs_map (s : State) (f : Obs → Obs) : (s.upObs f).map = s.map := (rfl)
@[simp] theorem State.upObs_care (s : State) (f : Obs → Obs) : (s.upObs f).care = s.care := (rfl)
@[simp] theorem State.upObs_yoke (s : State) (f : Obs → Obs) : (s.upObs f).yoke = s.yoke := (rfl)
@[simp] theorem State.upObs_atom (s : State) (f : Obs → Obs) : (s.upObs f).atom = s.atom := (rfl)
@[simp] theorem State.upObs_keys (s : State) (f : Obs → Obs) : (s.upObs f).keys = s.keys := (rfl)
@[simp] theorem State.upObs_reg (s : State) (f : Obs → Obs) : (s.upObs f).reg = s.reg := (rfl)
@[simp] theorem State.upObs_therm (s : State) (f : Obs → Obs) : (s.upObs f).therm = s.therm := (rfl)
@[simp] theorem State.upObs_bank (s : State) (f : Obs → Obs) : (s.upObs f).bank = s.bank := (rfl)
@[simp] theorem State.upObs_dram (s : State) (f : Obs → Obs) : (s.upObs f).dram = s.dram := (rfl)
@[simp] theorem State.upObs_gills (s : State) (f : Obs → Obs) : (s.upObs f).gills = s.gills := (rfl)
@[simp] theorem State.upObs_tabs (s : State) (f : Obs → Obs) : (s.upObs f).tabs = s.tabs := (rfl)
@[simp] theorem State.upObs_dict (s : State) (f : Obs → Obs) : (s.upObs f).dict = s.dict := (rfl)
@[simp] theorem State.upObs_mbox (s : State) (f : Obs → Obs) : (s.upObs f).mbox = s.mbox := (rfl)
@[simp] theorem State.upObs_obs (s : State) (f : Obs → Obs) : (s.upObs f).obs = f s.obs := (rfl)
@[simp] theorem State.upObs_perf (s : State) (f : Obs → Obs) : (s.upObs f).perf = s.perf := (rfl)
@[simp] theorem State.upObs_firkin (s : State) (f : Obs → Obs) : (s.upObs f).firkin = s.firkin := (rfl)
@[simp] theorem State.upObs_rstats (s : State) (f : Obs → Obs) : (s.upObs f).rstats = s.rstats := (rfl)
@[simp] theorem State.upObs_fw (s : State) (f : Obs → Obs) : (s.upObs f).fw = s.fw := (rfl)
@[simp] theorem State.upObs_dump (s : State) (f : Obs → Obs) : (s.upObs f).dump = s.dump := (rfl)
@[simp] theorem State.upObs_cmds (s : State) (f : Obs → Obs) : (s.upObs f).cmds = s.cmds := (rfl)
@[simp] theorem State.upObs_tap (s : State) (f : Obs → Obs) : (s.upObs f).tap = s.tap := (rfl)
@[simp] theorem State.upObs_pending (s : State) (f : Obs → Obs) : (s.upObs f).pending = s.pending := (rfl)
theorem State.keepsBut_upObs {ps : List Part} (s : State) (f : Obs → Obs)
    (h : Part.obs ∈ ps) : s.keepsBut ps (s.upObs f) := by
  intro p hp
  cases p <;> first | rfl | exact absurd h hp

@[simp] theorem State.upPerf_ident (s : State) (f : Perf → Perf) : (s.upPerf f).ident = s.ident := (rfl)
@[simp] theorem State.upPerf_clk (s : State) (f : Perf → Perf) : (s.upPerf f).clk = s.clk := (rfl)
@[simp] theorem State.upPerf_pwr (s : State) (f : Perf → Perf) : (s.upPerf f).pwr = s.pwr := (rfl)
@[simp] theorem State.upPerf_port (s : State) (f : Perf → Perf) : (s.upPerf f).port = s.port := (rfl)
@[simp] theorem State.upPerf_reqs (s : State) (f : Perf → Perf) : (s.upPerf f).reqs = s.reqs := (rfl)
@[simp] theorem State.upPerf_fc (s : State) (f : Perf → Perf) : (s.upPerf f).fc = s.fc := (rfl)
@[simp] theorem State.upPerf_tier (s : State) (f : Perf → Perf) : (s.upPerf f).tier = s.tier := (rfl)
@[simp] theorem State.upPerf_slices (s : State) (f : Perf → Perf) : (s.upPerf f).slices = s.slices := (rfl)
@[simp] theorem State.upPerf_budget (s : State) (f : Perf → Perf) : (s.upPerf f).budget = s.budget := (rfl)
@[simp] theorem State.upPerf_media (s : State) (f : Perf → Perf) : (s.upPerf f).media = s.media := (rfl)
@[simp] theorem State.upPerf_map (s : State) (f : Perf → Perf) : (s.upPerf f).map = s.map := (rfl)
@[simp] theorem State.upPerf_care (s : State) (f : Perf → Perf) : (s.upPerf f).care = s.care := (rfl)
@[simp] theorem State.upPerf_yoke (s : State) (f : Perf → Perf) : (s.upPerf f).yoke = s.yoke := (rfl)
@[simp] theorem State.upPerf_atom (s : State) (f : Perf → Perf) : (s.upPerf f).atom = s.atom := (rfl)
@[simp] theorem State.upPerf_keys (s : State) (f : Perf → Perf) : (s.upPerf f).keys = s.keys := (rfl)
@[simp] theorem State.upPerf_reg (s : State) (f : Perf → Perf) : (s.upPerf f).reg = s.reg := (rfl)
@[simp] theorem State.upPerf_therm (s : State) (f : Perf → Perf) : (s.upPerf f).therm = s.therm := (rfl)
@[simp] theorem State.upPerf_bank (s : State) (f : Perf → Perf) : (s.upPerf f).bank = s.bank := (rfl)
@[simp] theorem State.upPerf_dram (s : State) (f : Perf → Perf) : (s.upPerf f).dram = s.dram := (rfl)
@[simp] theorem State.upPerf_gills (s : State) (f : Perf → Perf) : (s.upPerf f).gills = s.gills := (rfl)
@[simp] theorem State.upPerf_tabs (s : State) (f : Perf → Perf) : (s.upPerf f).tabs = s.tabs := (rfl)
@[simp] theorem State.upPerf_dict (s : State) (f : Perf → Perf) : (s.upPerf f).dict = s.dict := (rfl)
@[simp] theorem State.upPerf_mbox (s : State) (f : Perf → Perf) : (s.upPerf f).mbox = s.mbox := (rfl)
@[simp] theorem State.upPerf_obs (s : State) (f : Perf → Perf) : (s.upPerf f).obs = s.obs := (rfl)
@[simp] theorem State.upPerf_perf (s : State) (f : Perf → Perf) : (s.upPerf f).perf = f s.perf := (rfl)
@[simp] theorem State.upPerf_firkin (s : State) (f : Perf → Perf) : (s.upPerf f).firkin = s.firkin := (rfl)
@[simp] theorem State.upPerf_rstats (s : State) (f : Perf → Perf) : (s.upPerf f).rstats = s.rstats := (rfl)
@[simp] theorem State.upPerf_fw (s : State) (f : Perf → Perf) : (s.upPerf f).fw = s.fw := (rfl)
@[simp] theorem State.upPerf_dump (s : State) (f : Perf → Perf) : (s.upPerf f).dump = s.dump := (rfl)
@[simp] theorem State.upPerf_cmds (s : State) (f : Perf → Perf) : (s.upPerf f).cmds = s.cmds := (rfl)
@[simp] theorem State.upPerf_tap (s : State) (f : Perf → Perf) : (s.upPerf f).tap = s.tap := (rfl)
@[simp] theorem State.upPerf_pending (s : State) (f : Perf → Perf) : (s.upPerf f).pending = s.pending := (rfl)
theorem State.keepsBut_upPerf {ps : List Part} (s : State) (f : Perf → Perf)
    (h : Part.perf ∈ ps) : s.keepsBut ps (s.upPerf f) := by
  intro p hp
  cases p <;> first | rfl | exact absurd h hp

@[simp] theorem State.upFirkin_ident (s : State) (f : Firkin → Firkin) : (s.upFirkin f).ident = s.ident := (rfl)
@[simp] theorem State.upFirkin_clk (s : State) (f : Firkin → Firkin) : (s.upFirkin f).clk = s.clk := (rfl)
@[simp] theorem State.upFirkin_pwr (s : State) (f : Firkin → Firkin) : (s.upFirkin f).pwr = s.pwr := (rfl)
@[simp] theorem State.upFirkin_port (s : State) (f : Firkin → Firkin) : (s.upFirkin f).port = s.port := (rfl)
@[simp] theorem State.upFirkin_reqs (s : State) (f : Firkin → Firkin) : (s.upFirkin f).reqs = s.reqs := (rfl)
@[simp] theorem State.upFirkin_fc (s : State) (f : Firkin → Firkin) : (s.upFirkin f).fc = s.fc := (rfl)
@[simp] theorem State.upFirkin_tier (s : State) (f : Firkin → Firkin) : (s.upFirkin f).tier = s.tier := (rfl)
@[simp] theorem State.upFirkin_slices (s : State) (f : Firkin → Firkin) : (s.upFirkin f).slices = s.slices := (rfl)
@[simp] theorem State.upFirkin_budget (s : State) (f : Firkin → Firkin) : (s.upFirkin f).budget = s.budget := (rfl)
@[simp] theorem State.upFirkin_media (s : State) (f : Firkin → Firkin) : (s.upFirkin f).media = s.media := (rfl)
@[simp] theorem State.upFirkin_map (s : State) (f : Firkin → Firkin) : (s.upFirkin f).map = s.map := (rfl)
@[simp] theorem State.upFirkin_care (s : State) (f : Firkin → Firkin) : (s.upFirkin f).care = s.care := (rfl)
@[simp] theorem State.upFirkin_yoke (s : State) (f : Firkin → Firkin) : (s.upFirkin f).yoke = s.yoke := (rfl)
@[simp] theorem State.upFirkin_atom (s : State) (f : Firkin → Firkin) : (s.upFirkin f).atom = s.atom := (rfl)
@[simp] theorem State.upFirkin_keys (s : State) (f : Firkin → Firkin) : (s.upFirkin f).keys = s.keys := (rfl)
@[simp] theorem State.upFirkin_reg (s : State) (f : Firkin → Firkin) : (s.upFirkin f).reg = s.reg := (rfl)
@[simp] theorem State.upFirkin_therm (s : State) (f : Firkin → Firkin) : (s.upFirkin f).therm = s.therm := (rfl)
@[simp] theorem State.upFirkin_bank (s : State) (f : Firkin → Firkin) : (s.upFirkin f).bank = s.bank := (rfl)
@[simp] theorem State.upFirkin_dram (s : State) (f : Firkin → Firkin) : (s.upFirkin f).dram = s.dram := (rfl)
@[simp] theorem State.upFirkin_gills (s : State) (f : Firkin → Firkin) : (s.upFirkin f).gills = s.gills := (rfl)
@[simp] theorem State.upFirkin_tabs (s : State) (f : Firkin → Firkin) : (s.upFirkin f).tabs = s.tabs := (rfl)
@[simp] theorem State.upFirkin_dict (s : State) (f : Firkin → Firkin) : (s.upFirkin f).dict = s.dict := (rfl)
@[simp] theorem State.upFirkin_mbox (s : State) (f : Firkin → Firkin) : (s.upFirkin f).mbox = s.mbox := (rfl)
@[simp] theorem State.upFirkin_obs (s : State) (f : Firkin → Firkin) : (s.upFirkin f).obs = s.obs := (rfl)
@[simp] theorem State.upFirkin_perf (s : State) (f : Firkin → Firkin) : (s.upFirkin f).perf = s.perf := (rfl)
@[simp] theorem State.upFirkin_firkin (s : State) (f : Firkin → Firkin) : (s.upFirkin f).firkin = f s.firkin := (rfl)
@[simp] theorem State.upFirkin_rstats (s : State) (f : Firkin → Firkin) : (s.upFirkin f).rstats = s.rstats := (rfl)
@[simp] theorem State.upFirkin_fw (s : State) (f : Firkin → Firkin) : (s.upFirkin f).fw = s.fw := (rfl)
@[simp] theorem State.upFirkin_dump (s : State) (f : Firkin → Firkin) : (s.upFirkin f).dump = s.dump := (rfl)
@[simp] theorem State.upFirkin_cmds (s : State) (f : Firkin → Firkin) : (s.upFirkin f).cmds = s.cmds := (rfl)
@[simp] theorem State.upFirkin_tap (s : State) (f : Firkin → Firkin) : (s.upFirkin f).tap = s.tap := (rfl)
@[simp] theorem State.upFirkin_pending (s : State) (f : Firkin → Firkin) : (s.upFirkin f).pending = s.pending := (rfl)
theorem State.keepsBut_upFirkin {ps : List Part} (s : State) (f : Firkin → Firkin)
    (h : Part.firkin ∈ ps) : s.keepsBut ps (s.upFirkin f) := by
  intro p hp
  cases p <;> first | rfl | exact absurd h hp

@[simp] theorem State.upRstats_ident (s : State) (f : ReadStats → ReadStats) : (s.upRstats f).ident = s.ident := (rfl)
@[simp] theorem State.upRstats_clk (s : State) (f : ReadStats → ReadStats) : (s.upRstats f).clk = s.clk := (rfl)
@[simp] theorem State.upRstats_pwr (s : State) (f : ReadStats → ReadStats) : (s.upRstats f).pwr = s.pwr := (rfl)
@[simp] theorem State.upRstats_port (s : State) (f : ReadStats → ReadStats) : (s.upRstats f).port = s.port := (rfl)
@[simp] theorem State.upRstats_reqs (s : State) (f : ReadStats → ReadStats) : (s.upRstats f).reqs = s.reqs := (rfl)
@[simp] theorem State.upRstats_fc (s : State) (f : ReadStats → ReadStats) : (s.upRstats f).fc = s.fc := (rfl)
@[simp] theorem State.upRstats_tier (s : State) (f : ReadStats → ReadStats) : (s.upRstats f).tier = s.tier := (rfl)
@[simp] theorem State.upRstats_slices (s : State) (f : ReadStats → ReadStats) : (s.upRstats f).slices = s.slices := (rfl)
@[simp] theorem State.upRstats_budget (s : State) (f : ReadStats → ReadStats) : (s.upRstats f).budget = s.budget := (rfl)
@[simp] theorem State.upRstats_media (s : State) (f : ReadStats → ReadStats) : (s.upRstats f).media = s.media := (rfl)
@[simp] theorem State.upRstats_map (s : State) (f : ReadStats → ReadStats) : (s.upRstats f).map = s.map := (rfl)
@[simp] theorem State.upRstats_care (s : State) (f : ReadStats → ReadStats) : (s.upRstats f).care = s.care := (rfl)
@[simp] theorem State.upRstats_yoke (s : State) (f : ReadStats → ReadStats) : (s.upRstats f).yoke = s.yoke := (rfl)
@[simp] theorem State.upRstats_atom (s : State) (f : ReadStats → ReadStats) : (s.upRstats f).atom = s.atom := (rfl)
@[simp] theorem State.upRstats_keys (s : State) (f : ReadStats → ReadStats) : (s.upRstats f).keys = s.keys := (rfl)
@[simp] theorem State.upRstats_reg (s : State) (f : ReadStats → ReadStats) : (s.upRstats f).reg = s.reg := (rfl)
@[simp] theorem State.upRstats_therm (s : State) (f : ReadStats → ReadStats) : (s.upRstats f).therm = s.therm := (rfl)
@[simp] theorem State.upRstats_bank (s : State) (f : ReadStats → ReadStats) : (s.upRstats f).bank = s.bank := (rfl)
@[simp] theorem State.upRstats_dram (s : State) (f : ReadStats → ReadStats) : (s.upRstats f).dram = s.dram := (rfl)
@[simp] theorem State.upRstats_gills (s : State) (f : ReadStats → ReadStats) : (s.upRstats f).gills = s.gills := (rfl)
@[simp] theorem State.upRstats_tabs (s : State) (f : ReadStats → ReadStats) : (s.upRstats f).tabs = s.tabs := (rfl)
@[simp] theorem State.upRstats_dict (s : State) (f : ReadStats → ReadStats) : (s.upRstats f).dict = s.dict := (rfl)
@[simp] theorem State.upRstats_mbox (s : State) (f : ReadStats → ReadStats) : (s.upRstats f).mbox = s.mbox := (rfl)
@[simp] theorem State.upRstats_obs (s : State) (f : ReadStats → ReadStats) : (s.upRstats f).obs = s.obs := (rfl)
@[simp] theorem State.upRstats_perf (s : State) (f : ReadStats → ReadStats) : (s.upRstats f).perf = s.perf := (rfl)
@[simp] theorem State.upRstats_firkin (s : State) (f : ReadStats → ReadStats) : (s.upRstats f).firkin = s.firkin := (rfl)
@[simp] theorem State.upRstats_rstats (s : State) (f : ReadStats → ReadStats) : (s.upRstats f).rstats = f s.rstats := (rfl)
@[simp] theorem State.upRstats_fw (s : State) (f : ReadStats → ReadStats) : (s.upRstats f).fw = s.fw := (rfl)
@[simp] theorem State.upRstats_dump (s : State) (f : ReadStats → ReadStats) : (s.upRstats f).dump = s.dump := (rfl)
@[simp] theorem State.upRstats_cmds (s : State) (f : ReadStats → ReadStats) : (s.upRstats f).cmds = s.cmds := (rfl)
@[simp] theorem State.upRstats_tap (s : State) (f : ReadStats → ReadStats) : (s.upRstats f).tap = s.tap := (rfl)
@[simp] theorem State.upRstats_pending (s : State) (f : ReadStats → ReadStats) : (s.upRstats f).pending = s.pending := (rfl)
theorem State.keepsBut_upRstats {ps : List Part} (s : State) (f : ReadStats → ReadStats)
    (h : Part.rstats ∈ ps) : s.keepsBut ps (s.upRstats f) := by
  intro p hp
  cases p <;> first | rfl | exact absurd h hp

@[simp] theorem State.upFw_ident (s : State) (f : Fw → Fw) : (s.upFw f).ident = s.ident := (rfl)
@[simp] theorem State.upFw_clk (s : State) (f : Fw → Fw) : (s.upFw f).clk = s.clk := (rfl)
@[simp] theorem State.upFw_pwr (s : State) (f : Fw → Fw) : (s.upFw f).pwr = s.pwr := (rfl)
@[simp] theorem State.upFw_port (s : State) (f : Fw → Fw) : (s.upFw f).port = s.port := (rfl)
@[simp] theorem State.upFw_reqs (s : State) (f : Fw → Fw) : (s.upFw f).reqs = s.reqs := (rfl)
@[simp] theorem State.upFw_fc (s : State) (f : Fw → Fw) : (s.upFw f).fc = s.fc := (rfl)
@[simp] theorem State.upFw_tier (s : State) (f : Fw → Fw) : (s.upFw f).tier = s.tier := (rfl)
@[simp] theorem State.upFw_slices (s : State) (f : Fw → Fw) : (s.upFw f).slices = s.slices := (rfl)
@[simp] theorem State.upFw_budget (s : State) (f : Fw → Fw) : (s.upFw f).budget = s.budget := (rfl)
@[simp] theorem State.upFw_media (s : State) (f : Fw → Fw) : (s.upFw f).media = s.media := (rfl)
@[simp] theorem State.upFw_map (s : State) (f : Fw → Fw) : (s.upFw f).map = s.map := (rfl)
@[simp] theorem State.upFw_care (s : State) (f : Fw → Fw) : (s.upFw f).care = s.care := (rfl)
@[simp] theorem State.upFw_yoke (s : State) (f : Fw → Fw) : (s.upFw f).yoke = s.yoke := (rfl)
@[simp] theorem State.upFw_atom (s : State) (f : Fw → Fw) : (s.upFw f).atom = s.atom := (rfl)
@[simp] theorem State.upFw_keys (s : State) (f : Fw → Fw) : (s.upFw f).keys = s.keys := (rfl)
@[simp] theorem State.upFw_reg (s : State) (f : Fw → Fw) : (s.upFw f).reg = s.reg := (rfl)
@[simp] theorem State.upFw_therm (s : State) (f : Fw → Fw) : (s.upFw f).therm = s.therm := (rfl)
@[simp] theorem State.upFw_bank (s : State) (f : Fw → Fw) : (s.upFw f).bank = s.bank := (rfl)
@[simp] theorem State.upFw_dram (s : State) (f : Fw → Fw) : (s.upFw f).dram = s.dram := (rfl)
@[simp] theorem State.upFw_gills (s : State) (f : Fw → Fw) : (s.upFw f).gills = s.gills := (rfl)
@[simp] theorem State.upFw_tabs (s : State) (f : Fw → Fw) : (s.upFw f).tabs = s.tabs := (rfl)
@[simp] theorem State.upFw_dict (s : State) (f : Fw → Fw) : (s.upFw f).dict = s.dict := (rfl)
@[simp] theorem State.upFw_mbox (s : State) (f : Fw → Fw) : (s.upFw f).mbox = s.mbox := (rfl)
@[simp] theorem State.upFw_obs (s : State) (f : Fw → Fw) : (s.upFw f).obs = s.obs := (rfl)
@[simp] theorem State.upFw_perf (s : State) (f : Fw → Fw) : (s.upFw f).perf = s.perf := (rfl)
@[simp] theorem State.upFw_firkin (s : State) (f : Fw → Fw) : (s.upFw f).firkin = s.firkin := (rfl)
@[simp] theorem State.upFw_rstats (s : State) (f : Fw → Fw) : (s.upFw f).rstats = s.rstats := (rfl)
@[simp] theorem State.upFw_fw (s : State) (f : Fw → Fw) : (s.upFw f).fw = f s.fw := (rfl)
@[simp] theorem State.upFw_dump (s : State) (f : Fw → Fw) : (s.upFw f).dump = s.dump := (rfl)
@[simp] theorem State.upFw_cmds (s : State) (f : Fw → Fw) : (s.upFw f).cmds = s.cmds := (rfl)
@[simp] theorem State.upFw_tap (s : State) (f : Fw → Fw) : (s.upFw f).tap = s.tap := (rfl)
@[simp] theorem State.upFw_pending (s : State) (f : Fw → Fw) : (s.upFw f).pending = s.pending := (rfl)
theorem State.keepsBut_upFw {ps : List Part} (s : State) (f : Fw → Fw)
    (h : Part.fw ∈ ps) : s.keepsBut ps (s.upFw f) := by
  intro p hp
  cases p <;> first | rfl | exact absurd h hp

@[simp] theorem State.upDump_ident (s : State) (f : Dump → Dump) : (s.upDump f).ident = s.ident := (rfl)
@[simp] theorem State.upDump_clk (s : State) (f : Dump → Dump) : (s.upDump f).clk = s.clk := (rfl)
@[simp] theorem State.upDump_pwr (s : State) (f : Dump → Dump) : (s.upDump f).pwr = s.pwr := (rfl)
@[simp] theorem State.upDump_port (s : State) (f : Dump → Dump) : (s.upDump f).port = s.port := (rfl)
@[simp] theorem State.upDump_reqs (s : State) (f : Dump → Dump) : (s.upDump f).reqs = s.reqs := (rfl)
@[simp] theorem State.upDump_fc (s : State) (f : Dump → Dump) : (s.upDump f).fc = s.fc := (rfl)
@[simp] theorem State.upDump_tier (s : State) (f : Dump → Dump) : (s.upDump f).tier = s.tier := (rfl)
@[simp] theorem State.upDump_slices (s : State) (f : Dump → Dump) : (s.upDump f).slices = s.slices := (rfl)
@[simp] theorem State.upDump_budget (s : State) (f : Dump → Dump) : (s.upDump f).budget = s.budget := (rfl)
@[simp] theorem State.upDump_media (s : State) (f : Dump → Dump) : (s.upDump f).media = s.media := (rfl)
@[simp] theorem State.upDump_map (s : State) (f : Dump → Dump) : (s.upDump f).map = s.map := (rfl)
@[simp] theorem State.upDump_care (s : State) (f : Dump → Dump) : (s.upDump f).care = s.care := (rfl)
@[simp] theorem State.upDump_yoke (s : State) (f : Dump → Dump) : (s.upDump f).yoke = s.yoke := (rfl)
@[simp] theorem State.upDump_atom (s : State) (f : Dump → Dump) : (s.upDump f).atom = s.atom := (rfl)
@[simp] theorem State.upDump_keys (s : State) (f : Dump → Dump) : (s.upDump f).keys = s.keys := (rfl)
@[simp] theorem State.upDump_reg (s : State) (f : Dump → Dump) : (s.upDump f).reg = s.reg := (rfl)
@[simp] theorem State.upDump_therm (s : State) (f : Dump → Dump) : (s.upDump f).therm = s.therm := (rfl)
@[simp] theorem State.upDump_bank (s : State) (f : Dump → Dump) : (s.upDump f).bank = s.bank := (rfl)
@[simp] theorem State.upDump_dram (s : State) (f : Dump → Dump) : (s.upDump f).dram = s.dram := (rfl)
@[simp] theorem State.upDump_gills (s : State) (f : Dump → Dump) : (s.upDump f).gills = s.gills := (rfl)
@[simp] theorem State.upDump_tabs (s : State) (f : Dump → Dump) : (s.upDump f).tabs = s.tabs := (rfl)
@[simp] theorem State.upDump_dict (s : State) (f : Dump → Dump) : (s.upDump f).dict = s.dict := (rfl)
@[simp] theorem State.upDump_mbox (s : State) (f : Dump → Dump) : (s.upDump f).mbox = s.mbox := (rfl)
@[simp] theorem State.upDump_obs (s : State) (f : Dump → Dump) : (s.upDump f).obs = s.obs := (rfl)
@[simp] theorem State.upDump_perf (s : State) (f : Dump → Dump) : (s.upDump f).perf = s.perf := (rfl)
@[simp] theorem State.upDump_firkin (s : State) (f : Dump → Dump) : (s.upDump f).firkin = s.firkin := (rfl)
@[simp] theorem State.upDump_rstats (s : State) (f : Dump → Dump) : (s.upDump f).rstats = s.rstats := (rfl)
@[simp] theorem State.upDump_fw (s : State) (f : Dump → Dump) : (s.upDump f).fw = s.fw := (rfl)
@[simp] theorem State.upDump_dump (s : State) (f : Dump → Dump) : (s.upDump f).dump = f s.dump := (rfl)
@[simp] theorem State.upDump_cmds (s : State) (f : Dump → Dump) : (s.upDump f).cmds = s.cmds := (rfl)
@[simp] theorem State.upDump_tap (s : State) (f : Dump → Dump) : (s.upDump f).tap = s.tap := (rfl)
@[simp] theorem State.upDump_pending (s : State) (f : Dump → Dump) : (s.upDump f).pending = s.pending := (rfl)
theorem State.keepsBut_upDump {ps : List Part} (s : State) (f : Dump → Dump)
    (h : Part.dump ∈ ps) : s.keepsBut ps (s.upDump f) := by
  intro p hp
  cases p <;> first | rfl | exact absurd h hp

@[simp] theorem State.upCmds_ident (s : State) (f : Cmds → Cmds) : (s.upCmds f).ident = s.ident := (rfl)
@[simp] theorem State.upCmds_clk (s : State) (f : Cmds → Cmds) : (s.upCmds f).clk = s.clk := (rfl)
@[simp] theorem State.upCmds_pwr (s : State) (f : Cmds → Cmds) : (s.upCmds f).pwr = s.pwr := (rfl)
@[simp] theorem State.upCmds_port (s : State) (f : Cmds → Cmds) : (s.upCmds f).port = s.port := (rfl)
@[simp] theorem State.upCmds_reqs (s : State) (f : Cmds → Cmds) : (s.upCmds f).reqs = s.reqs := (rfl)
@[simp] theorem State.upCmds_fc (s : State) (f : Cmds → Cmds) : (s.upCmds f).fc = s.fc := (rfl)
@[simp] theorem State.upCmds_tier (s : State) (f : Cmds → Cmds) : (s.upCmds f).tier = s.tier := (rfl)
@[simp] theorem State.upCmds_slices (s : State) (f : Cmds → Cmds) : (s.upCmds f).slices = s.slices := (rfl)
@[simp] theorem State.upCmds_budget (s : State) (f : Cmds → Cmds) : (s.upCmds f).budget = s.budget := (rfl)
@[simp] theorem State.upCmds_media (s : State) (f : Cmds → Cmds) : (s.upCmds f).media = s.media := (rfl)
@[simp] theorem State.upCmds_map (s : State) (f : Cmds → Cmds) : (s.upCmds f).map = s.map := (rfl)
@[simp] theorem State.upCmds_care (s : State) (f : Cmds → Cmds) : (s.upCmds f).care = s.care := (rfl)
@[simp] theorem State.upCmds_yoke (s : State) (f : Cmds → Cmds) : (s.upCmds f).yoke = s.yoke := (rfl)
@[simp] theorem State.upCmds_atom (s : State) (f : Cmds → Cmds) : (s.upCmds f).atom = s.atom := (rfl)
@[simp] theorem State.upCmds_keys (s : State) (f : Cmds → Cmds) : (s.upCmds f).keys = s.keys := (rfl)
@[simp] theorem State.upCmds_reg (s : State) (f : Cmds → Cmds) : (s.upCmds f).reg = s.reg := (rfl)
@[simp] theorem State.upCmds_therm (s : State) (f : Cmds → Cmds) : (s.upCmds f).therm = s.therm := (rfl)
@[simp] theorem State.upCmds_bank (s : State) (f : Cmds → Cmds) : (s.upCmds f).bank = s.bank := (rfl)
@[simp] theorem State.upCmds_dram (s : State) (f : Cmds → Cmds) : (s.upCmds f).dram = s.dram := (rfl)
@[simp] theorem State.upCmds_gills (s : State) (f : Cmds → Cmds) : (s.upCmds f).gills = s.gills := (rfl)
@[simp] theorem State.upCmds_tabs (s : State) (f : Cmds → Cmds) : (s.upCmds f).tabs = s.tabs := (rfl)
@[simp] theorem State.upCmds_dict (s : State) (f : Cmds → Cmds) : (s.upCmds f).dict = s.dict := (rfl)
@[simp] theorem State.upCmds_mbox (s : State) (f : Cmds → Cmds) : (s.upCmds f).mbox = s.mbox := (rfl)
@[simp] theorem State.upCmds_obs (s : State) (f : Cmds → Cmds) : (s.upCmds f).obs = s.obs := (rfl)
@[simp] theorem State.upCmds_perf (s : State) (f : Cmds → Cmds) : (s.upCmds f).perf = s.perf := (rfl)
@[simp] theorem State.upCmds_firkin (s : State) (f : Cmds → Cmds) : (s.upCmds f).firkin = s.firkin := (rfl)
@[simp] theorem State.upCmds_rstats (s : State) (f : Cmds → Cmds) : (s.upCmds f).rstats = s.rstats := (rfl)
@[simp] theorem State.upCmds_fw (s : State) (f : Cmds → Cmds) : (s.upCmds f).fw = s.fw := (rfl)
@[simp] theorem State.upCmds_dump (s : State) (f : Cmds → Cmds) : (s.upCmds f).dump = s.dump := (rfl)
@[simp] theorem State.upCmds_cmds (s : State) (f : Cmds → Cmds) : (s.upCmds f).cmds = f s.cmds := (rfl)
@[simp] theorem State.upCmds_tap (s : State) (f : Cmds → Cmds) : (s.upCmds f).tap = s.tap := (rfl)
@[simp] theorem State.upCmds_pending (s : State) (f : Cmds → Cmds) : (s.upCmds f).pending = s.pending := (rfl)
theorem State.keepsBut_upCmds {ps : List Part} (s : State) (f : Cmds → Cmds)
    (h : Part.cmds ∈ ps) : s.keepsBut ps (s.upCmds f) := by
  intro p hp
  cases p <;> first | rfl | exact absurd h hp

@[simp] theorem State.upTap_ident (s : State) (f : Tap → Tap) : (s.upTap f).ident = s.ident := (rfl)
@[simp] theorem State.upTap_clk (s : State) (f : Tap → Tap) : (s.upTap f).clk = s.clk := (rfl)
@[simp] theorem State.upTap_pwr (s : State) (f : Tap → Tap) : (s.upTap f).pwr = s.pwr := (rfl)
@[simp] theorem State.upTap_port (s : State) (f : Tap → Tap) : (s.upTap f).port = s.port := (rfl)
@[simp] theorem State.upTap_reqs (s : State) (f : Tap → Tap) : (s.upTap f).reqs = s.reqs := (rfl)
@[simp] theorem State.upTap_fc (s : State) (f : Tap → Tap) : (s.upTap f).fc = s.fc := (rfl)
@[simp] theorem State.upTap_tier (s : State) (f : Tap → Tap) : (s.upTap f).tier = s.tier := (rfl)
@[simp] theorem State.upTap_slices (s : State) (f : Tap → Tap) : (s.upTap f).slices = s.slices := (rfl)
@[simp] theorem State.upTap_budget (s : State) (f : Tap → Tap) : (s.upTap f).budget = s.budget := (rfl)
@[simp] theorem State.upTap_media (s : State) (f : Tap → Tap) : (s.upTap f).media = s.media := (rfl)
@[simp] theorem State.upTap_map (s : State) (f : Tap → Tap) : (s.upTap f).map = s.map := (rfl)
@[simp] theorem State.upTap_care (s : State) (f : Tap → Tap) : (s.upTap f).care = s.care := (rfl)
@[simp] theorem State.upTap_yoke (s : State) (f : Tap → Tap) : (s.upTap f).yoke = s.yoke := (rfl)
@[simp] theorem State.upTap_atom (s : State) (f : Tap → Tap) : (s.upTap f).atom = s.atom := (rfl)
@[simp] theorem State.upTap_keys (s : State) (f : Tap → Tap) : (s.upTap f).keys = s.keys := (rfl)
@[simp] theorem State.upTap_reg (s : State) (f : Tap → Tap) : (s.upTap f).reg = s.reg := (rfl)
@[simp] theorem State.upTap_therm (s : State) (f : Tap → Tap) : (s.upTap f).therm = s.therm := (rfl)
@[simp] theorem State.upTap_bank (s : State) (f : Tap → Tap) : (s.upTap f).bank = s.bank := (rfl)
@[simp] theorem State.upTap_dram (s : State) (f : Tap → Tap) : (s.upTap f).dram = s.dram := (rfl)
@[simp] theorem State.upTap_gills (s : State) (f : Tap → Tap) : (s.upTap f).gills = s.gills := (rfl)
@[simp] theorem State.upTap_tabs (s : State) (f : Tap → Tap) : (s.upTap f).tabs = s.tabs := (rfl)
@[simp] theorem State.upTap_dict (s : State) (f : Tap → Tap) : (s.upTap f).dict = s.dict := (rfl)
@[simp] theorem State.upTap_mbox (s : State) (f : Tap → Tap) : (s.upTap f).mbox = s.mbox := (rfl)
@[simp] theorem State.upTap_obs (s : State) (f : Tap → Tap) : (s.upTap f).obs = s.obs := (rfl)
@[simp] theorem State.upTap_perf (s : State) (f : Tap → Tap) : (s.upTap f).perf = s.perf := (rfl)
@[simp] theorem State.upTap_firkin (s : State) (f : Tap → Tap) : (s.upTap f).firkin = s.firkin := (rfl)
@[simp] theorem State.upTap_rstats (s : State) (f : Tap → Tap) : (s.upTap f).rstats = s.rstats := (rfl)
@[simp] theorem State.upTap_fw (s : State) (f : Tap → Tap) : (s.upTap f).fw = s.fw := (rfl)
@[simp] theorem State.upTap_dump (s : State) (f : Tap → Tap) : (s.upTap f).dump = s.dump := (rfl)
@[simp] theorem State.upTap_cmds (s : State) (f : Tap → Tap) : (s.upTap f).cmds = s.cmds := (rfl)
@[simp] theorem State.upTap_tap (s : State) (f : Tap → Tap) : (s.upTap f).tap = f s.tap := (rfl)
@[simp] theorem State.upTap_pending (s : State) (f : Tap → Tap) : (s.upTap f).pending = s.pending := (rfl)
theorem State.keepsBut_upTap {ps : List Part} (s : State) (f : Tap → Tap)
    (h : Part.tap ∈ ps) : s.keepsBut ps (s.upTap f) := by
  intro p hp
  cases p <;> first | rfl | exact absurd h hp

@[simp] theorem State.upPending_ident (s : State) (f : List Instr → List Instr) : (s.upPending f).ident = s.ident := (rfl)
@[simp] theorem State.upPending_clk (s : State) (f : List Instr → List Instr) : (s.upPending f).clk = s.clk := (rfl)
@[simp] theorem State.upPending_pwr (s : State) (f : List Instr → List Instr) : (s.upPending f).pwr = s.pwr := (rfl)
@[simp] theorem State.upPending_port (s : State) (f : List Instr → List Instr) : (s.upPending f).port = s.port := (rfl)
@[simp] theorem State.upPending_reqs (s : State) (f : List Instr → List Instr) : (s.upPending f).reqs = s.reqs := (rfl)
@[simp] theorem State.upPending_fc (s : State) (f : List Instr → List Instr) : (s.upPending f).fc = s.fc := (rfl)
@[simp] theorem State.upPending_tier (s : State) (f : List Instr → List Instr) : (s.upPending f).tier = s.tier := (rfl)
@[simp] theorem State.upPending_slices (s : State) (f : List Instr → List Instr) : (s.upPending f).slices = s.slices := (rfl)
@[simp] theorem State.upPending_budget (s : State) (f : List Instr → List Instr) : (s.upPending f).budget = s.budget := (rfl)
@[simp] theorem State.upPending_media (s : State) (f : List Instr → List Instr) : (s.upPending f).media = s.media := (rfl)
@[simp] theorem State.upPending_map (s : State) (f : List Instr → List Instr) : (s.upPending f).map = s.map := (rfl)
@[simp] theorem State.upPending_care (s : State) (f : List Instr → List Instr) : (s.upPending f).care = s.care := (rfl)
@[simp] theorem State.upPending_yoke (s : State) (f : List Instr → List Instr) : (s.upPending f).yoke = s.yoke := (rfl)
@[simp] theorem State.upPending_atom (s : State) (f : List Instr → List Instr) : (s.upPending f).atom = s.atom := (rfl)
@[simp] theorem State.upPending_keys (s : State) (f : List Instr → List Instr) : (s.upPending f).keys = s.keys := (rfl)
@[simp] theorem State.upPending_reg (s : State) (f : List Instr → List Instr) : (s.upPending f).reg = s.reg := (rfl)
@[simp] theorem State.upPending_therm (s : State) (f : List Instr → List Instr) : (s.upPending f).therm = s.therm := (rfl)
@[simp] theorem State.upPending_bank (s : State) (f : List Instr → List Instr) : (s.upPending f).bank = s.bank := (rfl)
@[simp] theorem State.upPending_dram (s : State) (f : List Instr → List Instr) : (s.upPending f).dram = s.dram := (rfl)
@[simp] theorem State.upPending_gills (s : State) (f : List Instr → List Instr) : (s.upPending f).gills = s.gills := (rfl)
@[simp] theorem State.upPending_tabs (s : State) (f : List Instr → List Instr) : (s.upPending f).tabs = s.tabs := (rfl)
@[simp] theorem State.upPending_dict (s : State) (f : List Instr → List Instr) : (s.upPending f).dict = s.dict := (rfl)
@[simp] theorem State.upPending_mbox (s : State) (f : List Instr → List Instr) : (s.upPending f).mbox = s.mbox := (rfl)
@[simp] theorem State.upPending_obs (s : State) (f : List Instr → List Instr) : (s.upPending f).obs = s.obs := (rfl)
@[simp] theorem State.upPending_perf (s : State) (f : List Instr → List Instr) : (s.upPending f).perf = s.perf := (rfl)
@[simp] theorem State.upPending_firkin (s : State) (f : List Instr → List Instr) : (s.upPending f).firkin = s.firkin := (rfl)
@[simp] theorem State.upPending_rstats (s : State) (f : List Instr → List Instr) : (s.upPending f).rstats = s.rstats := (rfl)
@[simp] theorem State.upPending_fw (s : State) (f : List Instr → List Instr) : (s.upPending f).fw = s.fw := (rfl)
@[simp] theorem State.upPending_dump (s : State) (f : List Instr → List Instr) : (s.upPending f).dump = s.dump := (rfl)
@[simp] theorem State.upPending_cmds (s : State) (f : List Instr → List Instr) : (s.upPending f).cmds = s.cmds := (rfl)
@[simp] theorem State.upPending_tap (s : State) (f : List Instr → List Instr) : (s.upPending f).tap = s.tap := (rfl)
@[simp] theorem State.upPending_pending (s : State) (f : List Instr → List Instr) : (s.upPending f).pending = f s.pending := (rfl)
theorem State.keepsBut_upPending {ps : List Part} (s : State) (f : List Instr → List Instr)
    (h : Part.pending ∈ ps) : s.keepsBut ps (s.upPending f) := by
  intro p hp
  cases p <;> first | rfl | exact absurd h hp

end Sys2Proof.Machine
end

