-- ==== Sys2Proof/Laws/Keeps.lean ====
section
/-!
SUPPORT. The frame vocabulary for operations of every shape: what it says that an operation's answer agrees with a state on
every group not named, and how such facts are put together along the body of an operation.
-/
namespace Sys2Proof.Machine

theorem part_sub {A B P : List Part} (sub : ∀ p, p ∈ B → p ∈ P) (h : ∀ p, p ∈ A → p ∈ B) : ∀ p, p ∈ A → p ∈ P :=
  fun p m => sub p (h p m)

section
variable {α β : Type}

/-- A command answers a next state that agrees with `r` on every group not named in `P`. -/
def Answers (r : State) (P : List Part) (x : Host.Outcome State Fault Refusal) : Prop := ∃ t, x = .next t ∧ r.keepsBut P t
/-- The same of a pair with a state. -/
def KeepsP (r : State) (P : List Part) (x : α × State) : Prop := r.keepsBut P x.2
/-- The same of a triple with a state. -/
def KeepsPP (r : State) (P : List Part) (x : α × β × State) : Prop := r.keepsBut P x.2.2
/-- The same of a state that may be none. -/
def KeepsO (r : State) (P : List Part) (x : Option State) : Prop := ∀ t, x = some t → r.keepsBut P t
/-- The same of a pair that may be none. -/
def KeepsOP (r : State) (P : List Part) (x : Option (α × State)) : Prop := ∀ a t, x = some (a, t) → r.keepsBut P t
/-- The same of a triple that may be none. -/
def KeepsOPP (r : State) (P : List Part) (x : Option (α × β × State)) : Prop := ∀ a b t, x = some (a, b, t) → r.keepsBut P t

variable {P : List Part} {r t : State} {a : α} {b : β}

theorem answers_next (h : r.keepsBut P t) : Answers r P (.next t) := ⟨t, rfl, h⟩
theorem keepsP_mk (h : r.keepsBut P t) : KeepsP r P (a, t) := h
theorem KeepsP.snd {x : α × State} (h : KeepsP r P x) : r.keepsBut P x.2 := h
theorem KeepsP.out {x : α × State} (e : x = (a, t)) (h : KeepsP r P x) : r.keepsBut P t := by subst e; exact h
theorem keepsPP_mk (h : r.keepsBut P t) : KeepsPP r P (a, b, t) := h
theorem KeepsPP.snd {x : α × β × State} (h : KeepsPP r P x) : r.keepsBut P x.2.2 := h
theorem KeepsPP.out {x : α × β × State} (e : x = (a, b, t)) (h : KeepsPP r P x) : r.keepsBut P t := by subst e; exact h
theorem keepsO_none : KeepsO r P none := fun _ h => by cases h
theorem keepsO_some (h : r.keepsBut P t) : KeepsO r P (some t) := fun _ e => by cases e; exact h
theorem KeepsO.out {x : Option State} (e : x = some t) (h : KeepsO r P x) : r.keepsBut P t := h t e
theorem keepsO_get (h : KeepsO r P (some t)) : r.keepsBut P t := h t rfl
theorem keepsOP_none : KeepsOP r P (none : Option (α × State)) := fun _ _ h => by cases h
theorem keepsOP_some (h : r.keepsBut P t) : KeepsOP r P (some (a, t)) := fun _ _ e => by cases e; exact h
theorem KeepsOP.out {x : Option (α × State)} (e : x = some (a, t)) (h : KeepsOP r P x) : r.keepsBut P t := h a t e
theorem KeepsOP.outp {x : Option (α × State)} {y : α × State} (e : x = some y) (h : KeepsOP r P x) : r.keepsBut P y.2 :=
  h y.1 y.2 e
theorem keepsOPP_none : KeepsOPP r P (none : Option (α × β × State)) := fun _ _ _ h => by cases h
theorem keepsOPP_some (h : r.keepsBut P t) : KeepsOPP r P (some (a, b, t)) := fun _ _ _ e => by cases e; exact h
theorem KeepsOPP.out {x : Option (α × β × State)} (e : x = some (a, b, t)) (h : KeepsOPP r P x) : r.keepsBut P t := h a b t e

theorem keeps_ite {c : Prop} [Decidable c] {s u : State} (h1 : r.keepsBut P s) (h2 : r.keepsBut P u) :
    r.keepsBut P (if c then s else u) := by
  by_cases hc : c
  · rw [if_pos hc]; exact h1
  · rw [if_neg hc]; exact h2

theorem keepsP_ite {c : Prop} [Decidable c] {x y : α × State} (h1 : KeepsP r P x) (h2 : KeepsP r P y) :
    KeepsP r P (if c then x else y) := by
  by_cases hc : c
  · rw [if_pos hc]; exact h1
  · rw [if_neg hc]; exact h2

theorem keeps_foldl {f : State → α → State} {l : List α} {s : State}
    (hf : ∀ t x, r.keepsBut P t → r.keepsBut P (f t x)) (h : r.keepsBut P s) : r.keepsBut P (l.foldl f s) := by
  induction l generalizing s with
  | nil => exact h
  | cons x l ih => exact ih (hf s x h)

theorem keeps_foldr {f : α → State → State} {l : List α} {s : State}
    (hf : ∀ x t, r.keepsBut P t → r.keepsBut P (f x t)) (h : r.keepsBut P s) : r.keepsBut P (l.foldr f s) := by
  induction l with
  | nil => exact h
  | cons x l ih => exact hf x _ ih

theorem keepsP_foldl {f : β × State → α → β × State} {l : List α} {x : β × State}
    (hf : ∀ t y, KeepsP r P t → KeepsP r P (f t y)) (h : KeepsP r P x) : KeepsP r P (l.foldl f x) := by
  induction l generalizing x with
  | nil => exact h
  | cons y l ih => exact ih (hf x y h)

theorem keepsO_map {f : State → State} {x : Option State}
    (hf : ∀ t, r.keepsBut P t → r.keepsBut P (f t)) (h : KeepsO r P x) : KeepsO r P (x.map f) := by
  intro t e
  cases x with
  | none => cases e
  | some u => cases e; exact hf u (h u rfl)

theorem keepsO_foldl {f : Option State → α → Option State} {l : List α} {x : Option State}
    (hf : ∀ t y, KeepsO r P t → KeepsO r P (f t y)) (h : KeepsO r P x) : KeepsO r P (l.foldl f x) := by
  induction l generalizing x with
  | nil => exact h
  | cons y l ih => exact ih (hf x y h)

theorem keepsOPP_foldl {γ : Type} {f : Option (α × β × State) → γ → Option (α × β × State)} {l : List γ}
    {x : Option (α × β × State)} (hf : ∀ t y, KeepsOPP r P t → KeepsOPP r P (f t y)) (h : KeepsOPP r P x) :
    KeepsOPP r P (l.foldl f x) := by
  induction l generalizing x with
  | nil => exact h
  | cons y l ih => exact ih (hf x y h)

theorem keepsOP_tail {x : Option (α × β × State)} (h : KeepsOPP r P x) : KeepsOP r P (x.map (fun y => y.2)) := by
  intro b t e
  cases x with
  | none => cases e
  | some y => obtain ⟨a, b', u⟩ := y; cases e; exact h _ _ _ rfl

theorem keepsO_mapP {f : α × State → State} {x : Option (α × State)}
    (hf : ∀ y : α × State, r.keepsBut P y.2 → r.keepsBut P (f y)) (h : KeepsOP r P x) : KeepsO r P (x.map f) := by
  intro t e
  cases x with
  | none => cases e
  | some y => cases e; exact hf y (h y.1 y.2 rfl)

end

theorem State.keeps_upIdent {P : List Part} {r s : State} (f : Ident → Ident) (m : Part.ident ∈ P) (h : r.keepsBut P s) :
    r.keepsBut P (s.upIdent f) := State.keepsBut_trans h (State.keepsBut_upIdent s f m)
theorem State.keeps_upClk {P : List Part} {r s : State} (f : Clk → Clk) (m : Part.clk ∈ P) (h : r.keepsBut P s) :
    r.keepsBut P (s.upClk f) := State.keepsBut_trans h (State.keepsBut_upClk s f m)
theorem State.keeps_upPwr {P : List Part} {r s : State} (f : Pwr → Pwr) (m : Part.pwr ∈ P) (h : r.keepsBut P s) :
    r.keepsBut P (s.upPwr f) := State.keepsBut_trans h (State.keepsBut_upPwr s f m)
theorem State.keeps_upPort {P : List Part} {r s : State} (f : Port → Port) (m : Part.port ∈ P) (h : r.keepsBut P s) :
    r.keepsBut P (s.upPort f) := State.keepsBut_trans h (State.keepsBut_upPort s f m)
theorem State.keeps_upReqs {P : List Part} {r s : State} (f : Reqs → Reqs) (m : Part.reqs ∈ P) (h : r.keepsBut P s) :
    r.keepsBut P (s.upReqs f) := State.keepsBut_trans h (State.keepsBut_upReqs s f m)
theorem State.keeps_upFc {P : List Part} {r s : State} (f : Fc → Fc) (m : Part.fc ∈ P) (h : r.keepsBut P s) :
    r.keepsBut P (s.upFc f) := State.keepsBut_trans h (State.keepsBut_upFc s f m)
theorem State.keeps_upTier {P : List Part} {r s : State} (f : Tier → Tier) (m : Part.tier ∈ P) (h : r.keepsBut P s) :
    r.keepsBut P (s.upTier f) := State.keepsBut_trans h (State.keepsBut_upTier s f m)
theorem State.keeps_upSlices {P : List Part} {r s : State} (f : Slices → Slices) (m : Part.slices ∈ P) (h : r.keepsBut P s) :
    r.keepsBut P (s.upSlices f) := State.keepsBut_trans h (State.keepsBut_upSlices s f m)
theorem State.keeps_upBudget {P : List Part} {r s : State} (f : Budget → Budget) (m : Part.budget ∈ P) (h : r.keepsBut P s) :
    r.keepsBut P (s.upBudget f) := State.keepsBut_trans h (State.keepsBut_upBudget s f m)
theorem State.keeps_upMedia {P : List Part} {r s : State} (f : Media → Media) (m : Part.media ∈ P) (h : r.keepsBut P s) :
    r.keepsBut P (s.upMedia f) := State.keepsBut_trans h (State.keepsBut_upMedia s f m)
theorem State.keeps_upMap {P : List Part} {r s : State} (f : MapG → MapG) (m : Part.map ∈ P) (h : r.keepsBut P s) :
    r.keepsBut P (s.upMap f) := State.keepsBut_trans h (State.keepsBut_upMap s f m)
theorem State.keeps_upCare {P : List Part} {r s : State} (f : Care → Care) (m : Part.care ∈ P) (h : r.keepsBut P s) :
    r.keepsBut P (s.upCare f) := State.keepsBut_trans h (State.keepsBut_upCare s f m)
theorem State.keeps_upYoke {P : List Part} {r s : State} (f : Yoke → Yoke) (m : Part.yoke ∈ P) (h : r.keepsBut P s) :
    r.keepsBut P (s.upYoke f) := State.keepsBut_trans h (State.keepsBut_upYoke s f m)
theorem State.keeps_upAtom {P : List Part} {r s : State} (f : Atom → Atom) (m : Part.atom ∈ P) (h : r.keepsBut P s) :
    r.keepsBut P (s.upAtom f) := State.keepsBut_trans h (State.keepsBut_upAtom s f m)
theorem State.keeps_upKeys {P : List Part} {r s : State} (f : Keys → Keys) (m : Part.keys ∈ P) (h : r.keepsBut P s) :
    r.keepsBut P (s.upKeys f) := State.keepsBut_trans h (State.keepsBut_upKeys s f m)
theorem State.keeps_upReg {P : List Part} {r s : State} (f : Reg → Reg) (m : Part.reg ∈ P) (h : r.keepsBut P s) :
    r.keepsBut P (s.upReg f) := State.keepsBut_trans h (State.keepsBut_upReg s f m)
theorem State.keeps_upTherm {P : List Part} {r s : State} (f : Therm → Therm) (m : Part.therm ∈ P) (h : r.keepsBut P s) :
    r.keepsBut P (s.upTherm f) := State.keepsBut_trans h (State.keepsBut_upTherm s f m)
theorem State.keeps_upBank {P : List Part} {r s : State} (f : Bank → Bank) (m : Part.bank ∈ P) (h : r.keepsBut P s) :
    r.keepsBut P (s.upBank f) := State.keepsBut_trans h (State.keepsBut_upBank s f m)
theorem State.keeps_upDram {P : List Part} {r s : State} (f : Dram → Dram) (m : Part.dram ∈ P) (h : r.keepsBut P s) :
    r.keepsBut P (s.upDram f) := State.keepsBut_trans h (State.keepsBut_upDram s f m)
theorem State.keeps_upGills {P : List Part} {r s : State} (f : Gills → Gills) (m : Part.gills ∈ P) (h : r.keepsBut P s) :
    r.keepsBut P (s.upGills f) := State.keepsBut_trans h (State.keepsBut_upGills s f m)
theorem State.keeps_upTabs {P : List Part} {r s : State} (f : Tabs → Tabs) (m : Part.tabs ∈ P) (h : r.keepsBut P s) :
    r.keepsBut P (s.upTabs f) := State.keepsBut_trans h (State.keepsBut_upTabs s f m)
theorem State.keeps_upDict {P : List Part} {r s : State} (f : Dict → Dict) (m : Part.dict ∈ P) (h : r.keepsBut P s) :
    r.keepsBut P (s.upDict f) := State.keepsBut_trans h (State.keepsBut_upDict s f m)
theorem State.keeps_upMbox {P : List Part} {r s : State} (f : Mbox → Mbox) (m : Part.mbox ∈ P) (h : r.keepsBut P s) :
    r.keepsBut P (s.upMbox f) := State.keepsBut_trans h (State.keepsBut_upMbox s f m)
theorem State.keeps_upObs {P : List Part} {r s : State} (f : Obs → Obs) (m : Part.obs ∈ P) (h : r.keepsBut P s) :
    r.keepsBut P (s.upObs f) := State.keepsBut_trans h (State.keepsBut_upObs s f m)
theorem State.keeps_upPerf {P : List Part} {r s : State} (f : Perf → Perf) (m : Part.perf ∈ P) (h : r.keepsBut P s) :
    r.keepsBut P (s.upPerf f) := State.keepsBut_trans h (State.keepsBut_upPerf s f m)
theorem State.keeps_upFirkin {P : List Part} {r s : State} (f : Firkin → Firkin) (m : Part.firkin ∈ P) (h : r.keepsBut P s) :
    r.keepsBut P (s.upFirkin f) := State.keepsBut_trans h (State.keepsBut_upFirkin s f m)
theorem State.keeps_upRstats {P : List Part} {r s : State} (f : ReadStats → ReadStats) (m : Part.rstats ∈ P) (h : r.keepsBut P s) :
    r.keepsBut P (s.upRstats f) := State.keepsBut_trans h (State.keepsBut_upRstats s f m)
theorem State.keeps_upFw {P : List Part} {r s : State} (f : Fw → Fw) (m : Part.fw ∈ P) (h : r.keepsBut P s) :
    r.keepsBut P (s.upFw f) := State.keepsBut_trans h (State.keepsBut_upFw s f m)
theorem State.keeps_upDump {P : List Part} {r s : State} (f : Dump → Dump) (m : Part.dump ∈ P) (h : r.keepsBut P s) :
    r.keepsBut P (s.upDump f) := State.keepsBut_trans h (State.keepsBut_upDump s f m)
theorem State.keeps_upCmds {P : List Part} {r s : State} (f : Cmds → Cmds) (m : Part.cmds ∈ P) (h : r.keepsBut P s) :
    r.keepsBut P (s.upCmds f) := State.keepsBut_trans h (State.keepsBut_upCmds s f m)
theorem State.keeps_upTap {P : List Part} {r s : State} (f : Tap → Tap) (m : Part.tap ∈ P) (h : r.keepsBut P s) :
    r.keepsBut P (s.upTap f) := State.keepsBut_trans h (State.keepsBut_upTap s f m)
theorem State.keeps_upPending {P : List Part} {r s : State} (f : List Instr → List Instr) (m : Part.pending ∈ P) (h : r.keepsBut P s) :
    r.keepsBut P (s.upPending f) := State.keepsBut_trans h (State.keepsBut_upPending s f m)

end Sys2Proof.Machine
end

