-- ==== Sys2Proof/Laws/Table.lean ====
section
/-!
SUPPORT. Sparse tables: reading after a write, and that every table operation keeps the canonical form.
-/
namespace Sys2Proof.Machine

section
variable {α : Type} {t : Tab α} {n m : Nat} {x d : α}

theorem Tab.above_iff : Tab.above n t = true ↔ ∀ kv ∈ t, n < kv.1 := by simp [Tab.above]

theorem Tab.sorted_cons {k : Nat} {v : α} :
    Tab.sorted ((k, v) :: t) = true ↔ (∀ kv ∈ t, k < kv.1) ∧ Tab.sorted t = true := by
  simp [Tab.sorted, Tab.above_iff]

theorem Tab.sorted_nil : Tab.sorted ([] : Tab α) = true := rfl

theorem Tab.sorted_iff : Tab.sorted t = true ↔ t.Pairwise (fun a b => a.1 < b.1) := by
  induction t with
  | nil => simp [Tab.sorted]
  | cons a t ih => obtain ⟨k, v⟩ := a; rw [Tab.sorted_cons, List.pairwise_cons, ih]

theorem Tab.mem_erase {kv : Nat × α} (h : kv ∈ Tab.erase t n) : kv ∈ t := by
  induction t with
  | nil => exact h
  | cons a t ih =>
    obtain ⟨k, v⟩ := a
    simp only [Tab.erase] at h
    split at h
    · exact List.mem_cons_of_mem _ (ih h)
    · rcases List.mem_cons.1 h with h | h
      · exact h ▸ List.mem_cons_self
      · exact List.mem_cons_of_mem _ (ih h)

theorem Tab.mem_put {kv : Nat × α} (h : kv ∈ Tab.put t n x) : kv = (n, x) ∨ kv ∈ t := by
  induction t with
  | nil => simpa [Tab.put] using h
  | cons a t ih =>
    obtain ⟨k, v⟩ := a
    simp only [Tab.put] at h
    split at h
    · simpa using h
    · split at h
      · rcases List.mem_cons.1 h with h | h
        · exact .inl h
        · exact .inr (List.mem_cons_of_mem _ h)
      · rcases List.mem_cons.1 h with h | h
        · exact .inr (h ▸ List.mem_cons_self)
        · exact (ih h).imp id (List.mem_cons_of_mem _)

theorem Tab.sorted_erase (h : Tab.sorted t = true) : Tab.sorted (Tab.erase t n) = true := by
  induction t with
  | nil => exact h
  | cons a t ih =>
    obtain ⟨k, v⟩ := a
    rw [Tab.sorted_cons] at h
    simp only [Tab.erase]
    split
    · exact ih h.2
    · exact Tab.sorted_cons.2 ⟨fun kv m => h.1 kv (Tab.mem_erase m), ih h.2⟩

theorem Tab.sorted_put (h : Tab.sorted t = true) : Tab.sorted (Tab.put t n x) = true := by
  induction t with
  | nil => rfl
  | cons a t ih =>
    obtain ⟨k, v⟩ := a
    have h' := Tab.sorted_cons.1 h
    simp only [Tab.put]
    split
    · rename_i lt
      exact Tab.sorted_cons.2 ⟨fun kv m => by
        rcases List.mem_cons.1 m with e | m
        · subst e; exact lt
        · exact Nat.lt_trans lt (h'.1 kv m), h⟩
    · split
      · rename_i ne e
        subst e
        exact Tab.sorted_cons.2 h'
      · rename_i a b
        refine Tab.sorted_cons.2 ⟨fun kv m => ?_, ih h'.2⟩
        rcases Tab.mem_put m with e | m
        · subst e; simp only; omega
        · exact h'.1 kv m

theorem Tab.sorted_set [DecidableEq α] (h : Tab.sorted t = true) : Tab.sorted (Tab.set d t n x) = true := by
  unfold Tab.set; split
  · exact Tab.sorted_erase h
  · exact Tab.sorted_put h

theorem Tab.sorted_filter {p : Nat × α → Bool} (h : Tab.sorted t = true) : Tab.sorted (t.filter p) = true :=
  Tab.sorted_iff.2 ((Tab.sorted_iff.1 h).filter p)

theorem Tab.sorted_filterKV {p : Nat → α → Bool} (h : Tab.sorted t = true) : Tab.sorted (Tab.filterKV p t) = true :=
  Tab.sorted_filter h

theorem Tab.sorted_map {f : Nat × α → Nat × α} (hf : ∀ kv, (f kv).1 = kv.1) (h : Tab.sorted t = true) :
    Tab.sorted (t.map f) = true := by
  rw [Tab.sorted_iff] at *
  rw [List.pairwise_map]
  exact h.imp (fun {a b} l => by rw [hf a, hf b]; exact l)

/-- The canonical form is kept by a write and by an erasure. -/
theorem Tab.wf_set [DecidableEq α] (h : Tab.wf d t = true) : Tab.wf d (Tab.set d t n x) = true := by
  simp only [Tab.wf, Bool.and_eq_true, List.all_eq_true] at *
  refine ⟨Tab.sorted_set h.1, fun kv m => ?_⟩
  unfold Tab.set at m
  split at m
  · exact h.2 kv (Tab.mem_erase m)
  · rename_i ne
    rcases Tab.mem_put m with e | m
    · subst e; simpa using ne
    · exact h.2 kv m

theorem Tab.look_above (h : ∀ kv ∈ t, n < kv.1) : Tab.look t n = none := by
  induction t with
  | nil => rfl
  | cons a t ih =>
    obtain ⟨k, v⟩ := a
    have hk := h (k, v) List.mem_cons_self
    simp only at hk
    rw [Tab.look, if_neg (by omega)]
    exact ih (fun kv m => h kv (List.mem_cons_of_mem _ m))

theorem Tab.look_put : Tab.look (Tab.put t n x) m = if n = m then some x else Tab.look t m := by
  induction t with
  | nil => simp [Tab.put, Tab.look]
  | cons a t ih =>
    obtain ⟨k, v⟩ := a
    simp only [Tab.put]
    split
    · simp [Tab.look]
    · split
      · rename_i e; subst e; by_cases h : n = m <;> simp [Tab.look, h]
      · rename_i ne
        simp only [Tab.look, ih]
        by_cases h1 : k = m
        · have h2 : ¬ n = m := fun h => ne (h.trans h1.symm)
          simp [h1, h2]
        · simp [h1]

theorem Tab.look_erase : Tab.look (Tab.erase t n) m = if n = m then none else Tab.look t m := by
  induction t with
  | nil => simp [Tab.erase, Tab.look]
  | cons a t ih =>
    obtain ⟨k, v⟩ := a
    simp only [Tab.erase]
    split
    · rename_i e
      subst e
      rw [ih]; by_cases hm : k = m <;> simp [Tab.look, hm]
    · rename_i ne
      simp only [Tab.look, ih]
      by_cases h1 : k = m
      · have h2 : ¬ n = m := fun h => ne (h1.trans h.symm)
        simp [h1, h2]
      · simp [h1]

/-- A read after a write: the value written at its key, every other key as before. -/
theorem Tab.get_put : Tab.get d (Tab.put t n x) m = if n = m then x else Tab.get d t m := by
  unfold Tab.get; rw [Tab.look_put]; by_cases h : n = m <;> simp [h]

/-- The same of a canonical write. -/
theorem Tab.get_set [DecidableEq α] :
    Tab.get d (Tab.set d t n x) m = if n = m then x else Tab.get d t m := by
  unfold Tab.set
  by_cases hx : x = d
  · rw [if_pos hx]; unfold Tab.get; rw [Tab.look_erase]; by_cases hm : n = m <;> simp [hm, hx]
  · rw [if_neg hx, Tab.get_put]

end

end Sys2Proof.Machine
end

