-- ==== Sys2Proof/Laws/Evolves.lean ====
section
/-!
SUPPORT. How the state may evolve: time does not run back, the identity stays, and a sound state stays sound. What this
needs of each setter, and how such facts are put together along the body of an operation.
-/
namespace Sys2Proof.Machine

/-- From `r` the state may have become `s`: time has not run back, the identity stays, and a sound state is sound. -/
def State.Evolves (r s : State) : Prop := r.clk.now ≤ s.clk.now ∧ s.ident = r.ident ∧ (r.Sound → s.Sound)

theorem State.Evolves.rfl' (s : State) : s.Evolves s := ⟨Nat.le_refl _, rfl, id⟩
theorem State.Evolves.trans {r s t : State} (h1 : r.Evolves s) (h2 : s.Evolves t) : r.Evolves t :=
  ⟨Nat.le_trans h1.1 h2.1, h2.2.1.trans h1.2.1, fun h => h2.2.2 (h1.2.2 h)⟩

section
variable {α β : Type}

/-- A command answers a next state that `r` may become. -/
def AnswersE (r : State) (x : Host.Outcome State Fault Refusal) : Prop := ∃ t, x = .next t ∧ r.Evolves t
/-- The same of a pair with a state. -/
def EvolvesP (r : State) (x : α × State) : Prop := r.Evolves x.2
/-- The same of a triple with a state. -/
def EvolvesPP (r : State) (x : α × β × State) : Prop := r.Evolves x.2.2
/-- The same of a state that may be none. -/
def EvolvesO (r : State) (x : Option State) : Prop := ∀ t, x = some t → r.Evolves t
/-- The same of a pair that may be none. -/
def EvolvesOP (r : State) (x : Option (α × State)) : Prop := ∀ a t, x = some (a, t) → r.Evolves t
/-- The same of a triple that may be none. -/
def EvolvesOPP (r : State) (x : Option (α × β × State)) : Prop := ∀ a b t, x = some (a, b, t) → r.Evolves t

variable {r t : State} {a : α} {b : β}

theorem answersE_next (h : r.Evolves t) : AnswersE r (.next t) := ⟨t, rfl, h⟩
theorem evolvesP_mk (h : r.Evolves t) : EvolvesP r (a, t) := h
theorem EvolvesP.snd {x : α × State} (h : EvolvesP r x) : r.Evolves x.2 := h
theorem EvolvesP.out {x : α × State} (e : x = (a, t)) (h : EvolvesP r x) : r.Evolves t := by subst e; exact h
theorem evolvesPP_mk (h : r.Evolves t) : EvolvesPP r (a, b, t) := h
theorem EvolvesPP.snd {x : α × β × State} (h : EvolvesPP r x) : r.Evolves x.2.2 := h
theorem EvolvesPP.out {x : α × β × State} (e : x = (a, b, t)) (h : EvolvesPP r x) : r.Evolves t := by subst e; exact h
theorem evolvesO_none : EvolvesO r none := fun _ h => by cases h
theorem evolvesO_some (h : r.Evolves t) : EvolvesO r (some t) := fun _ e => by cases e; exact h
theorem EvolvesO.out {x : Option State} (e : x = some t) (h : EvolvesO r x) : r.Evolves t := h t e
theorem evolvesO_get (h : EvolvesO r (some t)) : r.Evolves t := h t rfl
theorem evolvesOP_none : EvolvesOP r (none : Option (α × State)) := fun _ _ h => by cases h
theorem evolvesOP_some (h : r.Evolves t) : EvolvesOP r (some (a, t)) := fun _ _ e => by cases e; exact h
theorem EvolvesOP.out {x : Option (α × State)} (e : x = some (a, t)) (h : EvolvesOP r x) : r.Evolves t := h a t e
theorem EvolvesOP.outp {x : Option (α × State)} {y : α × State} (e : x = some y) (h : EvolvesOP r x) : r.Evolves y.2 :=
  h y.1 y.2 e
theorem evolvesOPP_none : EvolvesOPP r (none : Option (α × β × State)) := fun _ _ _ h => by cases h
theorem evolvesOPP_some (h : r.Evolves t) : EvolvesOPP r (some (a, b, t)) := fun _ _ _ e => by cases e; exact h
theorem EvolvesOPP.out {x : Option (α × β × State)} (e : x = some (a, b, t)) (h : EvolvesOPP r x) : r.Evolves t := h a b t e

theorem evolves_ite {c : Prop} [Decidable c] {s u : State} (h1 : c → r.Evolves s) (h2 : ¬ c → r.Evolves u) :
    r.Evolves (if c then s else u) := by
  by_cases hc : c
  · rw [if_pos hc]; exact h1 hc
  · rw [if_neg hc]; exact h2 hc

theorem evolvesP_ite {c : Prop} [Decidable c] {x y : α × State} (h1 : EvolvesP r x) (h2 : EvolvesP r y) :
    EvolvesP r (if c then x else y) := by
  by_cases hc : c
  · rw [if_pos hc]; exact h1
  · rw [if_neg hc]; exact h2

theorem evolves_foldl {f : State → α → State} {l : List α} {s : State}
    (hf : ∀ t x, r.Evolves t → r.Evolves (f t x)) (h : r.Evolves s) : r.Evolves (l.foldl f s) := by
  induction l generalizing s with
  | nil => exact h
  | cons x l ih => exact ih (hf s x h)

theorem evolves_foldr {f : α → State → State} {l : List α} {s : State}
    (hf : ∀ x t, r.Evolves t → r.Evolves (f x t)) (h : r.Evolves s) : r.Evolves (l.foldr f s) := by
  induction l with
  | nil => exact h
  | cons x l ih => exact hf x _ ih

theorem evolvesO_map {f : State → State} {x : Option State}
    (hf : ∀ t, r.Evolves t → r.Evolves (f t)) (h : EvolvesO r x) : EvolvesO r (x.map f) := by
  intro t e
  cases x with
  | none => cases e
  | some u => cases e; exact hf u (h u rfl)

theorem evolvesO_foldl {f : Option State → α → Option State} {l : List α} {x : Option State}
    (hf : ∀ t y, EvolvesO r t → EvolvesO r (f t y)) (h : EvolvesO r x) : EvolvesO r (l.foldl f x) := by
  induction l generalizing x with
  | nil => exact h
  | cons y l ih => exact ih (hf x y h)

theorem evolvesP_foldl {f : β × State → α → β × State} {l : List α} {x : β × State}
    (hf : ∀ t y, EvolvesP r t → EvolvesP r (f t y)) (h : EvolvesP r x) : EvolvesP r (l.foldl f x) := by
  induction l generalizing x with
  | nil => exact h
  | cons y l ih => exact ih (hf x y h)

theorem evolvesOPP_foldl {γ : Type} {f : Option (α × β × State) → γ → Option (α × β × State)} {l : List γ}
    {x : Option (α × β × State)} (hf : ∀ t y, EvolvesOPP r t → EvolvesOPP r (f t y)) (h : EvolvesOPP r x) :
    EvolvesOPP r (l.foldl f x) := by
  induction l generalizing x with
  | nil => exact h
  | cons y l ih => exact ih (hf x y h)

theorem evolvesOP_tail {x : Option (α × β × State)} (h : EvolvesOPP r x) : EvolvesOP r (x.map (fun y => y.2)) := by
  intro b t e
  cases x with
  | none => cases e
  | some y => obtain ⟨a, b', u⟩ := y; cases e; exact h _ _ _ rfl

theorem evolvesO_mapP {f : α × State → State} {x : Option (α × State)}
    (hf : ∀ y : α × State, r.Evolves y.2 → r.Evolves (f y)) (h : EvolvesOP r x) : EvolvesO r (x.map f) := by
  intro t e
  cases x with
  | none => cases e
  | some y => cases e; exact hf y (h y.1 y.2 rfl)

end

theorem logs_get {l : Tab CxlLog} (h : ∀ kv ∈ l, kv.2.recs.length ≤ 256) (n : Nat) :
    (Tab.get ({} : CxlLog) l n).recs.length ≤ 256 := by
  have look : ∀ g, Tab.look l n = some g → g.recs.length ≤ 256 := by
    induction l with
    | nil => intro g e; cases e
    | cons a l ih =>
      obtain ⟨k, v⟩ := a
      intro g e
      simp only [Tab.look] at e
      split at e
      · injection e with e; subst e; exact h (k, v) List.mem_cons_self
      · exact ih (fun kv m => h kv (List.mem_cons_of_mem _ m)) g e
  unfold Tab.get
  split
  · exact look _ ‹_›
  · exact Nat.zero_le _

theorem logs_put {l : Tab CxlLog} {n : Nat} {g : CxlLog} (h : ∀ kv ∈ l, kv.2.recs.length ≤ 256)
    (hg : g.recs.length ≤ 256) : ∀ kv ∈ Tab.put l n g, kv.2.recs.length ≤ 256 := by
  intro kv m
  rcases Tab.mem_put m with e | m
  · subst e; exact hg
  · exact h kv m

theorem logs_set {l : Tab CxlLog} {n : Nat} {g : CxlLog} (h : ∀ kv ∈ l, kv.2.recs.length ≤ 256)
    (hg : g.recs.length ≤ 256) : ∀ kv ∈ Tab.set {} l n g, kv.2.recs.length ≤ 256 := by
  intro kv m
  unfold Tab.set at m
  split at m
  · exact h kv (Tab.mem_erase m)
  · exact logs_put h hg kv m

variable {r s : State}

theorem State.evolves_upClk (f : Clk → Clk) (hf : s.clk.now ≤ (f s.clk).now)
    (h : r.Evolves s) : r.Evolves (s.upClk f) := h.trans ⟨hf, rfl, id⟩
theorem State.evolves_upPwr (f : Pwr → Pwr) (hf : ∀ b : Pwr, s.pwr = b → s.Sound →
      b.arm ≤ 5 ∧ b.test ≤ 2 →
      (f b).arm ≤ 5 ∧ (f b).test ≤ 2)
    (h : r.Evolves s) : r.Evolves (s.upPwr f) := h.trans ⟨Nat.le_refl _, rfl, fun k => ⟨⟨(hf _ rfl k ⟨k.1.1, k.1.2.1⟩).1, (hf _ rfl k ⟨k.1.1, k.1.2.1⟩).2, k.1.2.2⟩, k.2⟩⟩
theorem State.evolves_upPort (f : Port → Port) (h : r.Evolves s) : r.Evolves (s.upPort f) := h.trans ⟨Nat.le_refl _, rfl, id⟩
theorem State.evolves_upReqs (f : Reqs → Reqs) (h : r.Evolves s) : r.Evolves (s.upReqs f) := h.trans ⟨Nat.le_refl _, rfl, id⟩
theorem State.evolves_upFc (f : Fc → Fc) (hf : ∀ b : Fc, s.fc = b → s.Sound →
      Tab.sorted b.lines = true →
      Tab.sorted (f b).lines = true)
    (h : r.Evolves s) : r.Evolves (s.upFc f) := h.trans ⟨Nat.le_refl _, rfl, fun k => ⟨k.1, k.2.1, hf _ rfl k k.2.2.1, k.2.2.2⟩⟩
theorem State.evolves_upTier (f : Tier → Tier) (hf : ∀ b : Tier, s.tier = b → s.Sound →
      Tab.sorted b.sectors = true →
      Tab.sorted (f b).sectors = true)
    (h : r.Evolves s) : r.Evolves (s.upTier f) := h.trans ⟨Nat.le_refl _, rfl, fun k => ⟨k.1, k.2.1, k.2.2.1, hf _ rfl k k.2.2.2.1, k.2.2.2.2⟩⟩
theorem State.evolves_upSlices (f : Slices → Slices) (h : r.Evolves s) : r.Evolves (s.upSlices f) := h.trans ⟨Nat.le_refl _, rfl, id⟩
theorem State.evolves_upBudget (f : Budget → Budget) (hf : ∀ b : Budget, s.budget = b → s.Sound →
      Tab.sorted b.charged = true →
      Tab.sorted (f b).charged = true)
    (h : r.Evolves s) : r.Evolves (s.upBudget f) := h.trans ⟨Nat.le_refl _, rfl, fun k => ⟨k.1, k.2.1, k.2.2.1, k.2.2.2.1, k.2.2.2.2.1, hf _ rfl k k.2.2.2.2.2⟩⟩
theorem State.evolves_upMedia (f : Media → Media) (hf : ∀ b : Media, s.media = b → s.Sound →
      Tab.sorted b.pages = true →
      Tab.sorted (f b).pages = true)
    (h : r.Evolves s) : r.Evolves (s.upMedia f) := h.trans ⟨Nat.le_refl _, rfl, fun k => ⟨k.1, k.2.1, k.2.2.1, k.2.2.2.1, hf _ rfl k k.2.2.2.2.1, k.2.2.2.2.2⟩⟩
theorem State.evolves_upMap (f : MapG → MapG) (h : r.Evolves s) : r.Evolves (s.upMap f) := h.trans ⟨Nat.le_refl _, rfl, id⟩
theorem State.evolves_upCare (f : Care → Care) (hf : ∀ b : Care, s.care = b → s.Sound →
      b.brine ≤ 3 ∧ b.reserveTaken ≤ s.ident.variant.reserve →
      (f b).brine ≤ 3 ∧ (f b).reserveTaken ≤ s.ident.variant.reserve)
    (h : r.Evolves s) : r.Evolves (s.upCare f) := h.trans ⟨Nat.le_refl _, rfl, fun k => ⟨⟨k.1.1, k.1.2.1, k.1.2.2.1, k.1.2.2.2.1, hf _ rfl k k.1.2.2.2.2⟩, k.2⟩⟩
theorem State.evolves_upYoke (f : Yoke → Yoke) (hf : ∀ b : Yoke, s.yoke = b → s.Sound →
      b.member ≤ 8 ∧ b.prev ≤ 8 →
      (f b).member ≤ 8 ∧ (f b).prev ≤ 8)
    (h : r.Evolves s) : r.Evolves (s.upYoke f) := h.trans ⟨Nat.le_refl _, rfl, fun k => ⟨⟨k.1.1, k.1.2.1, (hf _ rfl k ⟨k.1.2.2.1, k.1.2.2.2.1⟩).1, (hf _ rfl k ⟨k.1.2.2.1, k.1.2.2.2.1⟩).2, k.1.2.2.2.2⟩, k.2⟩⟩
theorem State.evolves_upAtom (f : Atom → Atom) (h : r.Evolves s) : r.Evolves (s.upAtom f) := h.trans ⟨Nat.le_refl _, rfl, id⟩
theorem State.evolves_upKeys (f : Keys → Keys) (h : r.Evolves s) : r.Evolves (s.upKeys f) := h.trans ⟨Nat.le_refl _, rfl, id⟩
theorem State.evolves_upReg (f : Reg → Reg) (h : r.Evolves s) : r.Evolves (s.upReg f) := h.trans ⟨Nat.le_refl _, rfl, id⟩
theorem State.evolves_upTherm (f : Therm → Therm) (h : r.Evolves s) : r.Evolves (s.upTherm f) := h.trans ⟨Nat.le_refl _, rfl, id⟩
theorem State.evolves_upBank (f : Bank → Bank) (h : r.Evolves s) : r.Evolves (s.upBank f) := h.trans ⟨Nat.le_refl _, rfl, id⟩
theorem State.evolves_upDram (f : Dram → Dram) (h : r.Evolves s) : r.Evolves (s.upDram f) := h.trans ⟨Nat.le_refl _, rfl, id⟩
theorem State.evolves_upGills (f : Gills → Gills) (h : r.Evolves s) : r.Evolves (s.upGills f) := h.trans ⟨Nat.le_refl _, rfl, id⟩
theorem State.evolves_upTabs (f : Tabs → Tabs) (h : r.Evolves s) : r.Evolves (s.upTabs f) := h.trans ⟨Nat.le_refl _, rfl, id⟩
theorem State.evolves_upDict (f : Dict → Dict) (h : r.Evolves s) : r.Evolves (s.upDict f) := h.trans ⟨Nat.le_refl _, rfl, id⟩
theorem State.evolves_upMbox (f : Mbox → Mbox) (h : r.Evolves s) : r.Evolves (s.upMbox f) := h.trans ⟨Nat.le_refl _, rfl, id⟩
theorem State.evolves_upObs (f : Obs → Obs) (hf : ∀ b : Obs, s.obs = b → s.Sound →
      b.pail.length ≤ 4096 ∧ b.held.length ≤ 64 ∧ (∀ kv ∈ b.logs, kv.2.recs.length ≤ 256) →
      (f b).pail.length ≤ 4096 ∧ (f b).held.length ≤ 64 ∧ (∀ kv ∈ (f b).logs, kv.2.recs.length ≤ 256))
    (h : r.Evolves s) : r.Evolves (s.upObs f) := h.trans ⟨Nat.le_refl _, rfl, fun k => ⟨k.1, hf _ rfl k k.2.1, k.2.2⟩⟩
theorem State.evolves_upPerf (f : Perf → Perf) (h : r.Evolves s) : r.Evolves (s.upPerf f) := h.trans ⟨Nat.le_refl _, rfl, id⟩
theorem State.evolves_upFirkin (f : Firkin → Firkin) (h : r.Evolves s) : r.Evolves (s.upFirkin f) := h.trans ⟨Nat.le_refl _, rfl, id⟩
theorem State.evolves_upRstats (f : ReadStats → ReadStats) (h : r.Evolves s) : r.Evolves (s.upRstats f) := h.trans ⟨Nat.le_refl _, rfl, id⟩
theorem State.evolves_upFw (f : Fw → Fw) (h : r.Evolves s) : r.Evolves (s.upFw f) := h.trans ⟨Nat.le_refl _, rfl, id⟩
theorem State.evolves_upDump (f : Dump → Dump) (h : r.Evolves s) : r.Evolves (s.upDump f) := h.trans ⟨Nat.le_refl _, rfl, id⟩
theorem State.evolves_upCmds (f : Cmds → Cmds) (h : r.Evolves s) : r.Evolves (s.upCmds f) := h.trans ⟨Nat.le_refl _, rfl, id⟩
theorem State.evolves_upTap (f : Tap → Tap) (h : r.Evolves s) : r.Evolves (s.upTap f) := h.trans ⟨Nat.le_refl _, rfl, id⟩

end Sys2Proof.Machine
end

