-- ==== Sys2Proof/Laws/EvolvesEvents.lean ====
section
/-!
SUPPORT. How the operations of Machine/Events.lean let the state evolve.
-/
namespace Sys2Proof.Machine

theorem Obs.ring_same (n a t : Nat) (o : Obs) :
    (o.ring n a t).pail = o.pail ∧ (o.ring n a t).held = o.held ∧ (o.ring n a t).logs = o.logs := by
  unfold Obs.ring
  dsimp only
  split
  · exact ⟨rfl, rfl, rfl⟩
  · split <;> exact ⟨rfl, rfl, rfl⟩
theorem State.raise_evolves {r : State} (n : Nat) (s : State)
    (h : r.Evolves s) : r.Evolves (State.raise n s) := by
  refine State.evolves_upObs _ (fun b _ _ k => ?_) h
  obtain ⟨e1, e2, e3⟩ := Obs.ring_same n s.port.attach s.clk.stamp b
  rw [e1, e2, e3]
  exact k
theorem State.draw_evolves {r : State} (s : State)
    (h : r.Evolves s) : EvolvesP r (State.draw s) := by
  unfold State.draw
  try dsimp only
  repeat' first
    | with_reducible exact h
    | with_reducible refine State.evolves_upClk _ ?_ ?_
    | with_reducible exact fun _ _ _ k => k
    | with_reducible exact Nat.le_refl _
    | with_reducible assumption
    | with_reducible refine evolves_ite (fun _ => ?_) (fun _ => ?_)
    | with_reducible refine evolves_foldl (fun _ _ _ => ?_) ?_
    | with_reducible refine evolvesP_ite ?_ ?_
    | with_reducible refine evolvesP_foldl (fun _ _ _ => ?_) ?_
    | split
    | with_reducible refine EvolvesP.snd ?_
    | with_reducible refine evolvesP_mk ?_
    | with_reducible refine EvolvesP.out (by assumption) ?_
theorem State.raiseWhen_evolves {r : State} (on : Bool) (s : State)
    (h : r.Evolves s) : r.Evolves (State.raiseWhen on s) := by
  unfold State.raiseWhen
  try dsimp only
  repeat' first
    | with_reducible exact h
    | with_reducible apply State.raise_evolves
    | with_reducible assumption
    | with_reducible refine evolves_ite (fun _ => ?_) (fun _ => ?_)
    | with_reducible refine evolves_foldl (fun _ _ _ => ?_) ?_
    | split
theorem State.cxlRecord_evolves {r : State} (stamp : Nat) (log : Nat) (kind : Nat) (code : Nat) (param : Nat) (trans : Nat) (s : State)
    (h : r.Evolves s) : r.Evolves (State.cxlRecord stamp log kind code param trans s) := by
  unfold State.cxlRecord
  try dsimp only
  repeat' first
    | with_reducible exact h
    | with_reducible apply State.raise_evolves
    | with_reducible refine State.evolves_upObs _ ?_ ?_
    | with_reducible exact fun _ _ _ k => k
    | with_reducible exact fun _ _ _ _ => Tab.sorted_nil
    | with_reducible exact fun _ _ _ k => Tab.sorted_put k
    | with_reducible exact fun _ _ _ k => Tab.sorted_erase k
    | with_reducible exact fun _ _ _ k => Tab.sorted_filter k
    | with_reducible exact fun _ _ _ k => Tab.sorted_filterKV k
    | (with_reducible intro b e q k); (with_reducible refine Tab.sorted_map (fun _ => ?_) k); repeat' first | rfl | split
    | (with_reducible intro b e q k); subst e; (refine ⟨?_, ?_, ?_⟩ <;> first | with_reducible exact k.1 | with_reducible exact k.2.1 | with_reducible exact k.2.2 | exact Nat.zero_le _ | (simp only [List.length_append, List.length_cons, List.length_nil, List.length_drop]; omega) | exact logs_put k.2.2 (logs_get k.2.2 _) | (refine logs_put k.2.2 ?_; simp only [List.length_append, List.length_cons, List.length_nil]; omega) | exact fun _ m => by cases m)
    | with_reducible assumption
    | with_reducible refine evolves_ite (fun _ => ?_) (fun _ => ?_)
    | with_reducible refine evolves_foldl (fun _ _ _ => ?_) ?_
    | split
theorem State.cxlRecords_evolves {r : State} (stamp : Nat) (trans : Nat) (code : Nat) (param : Nat) (s : State)
    (h : r.Evolves s) : r.Evolves (State.cxlRecords stamp trans code param s) := by
  unfold State.cxlRecords
  try dsimp only
  repeat' first
    | with_reducible exact h
    | with_reducible apply State.cxlRecord_evolves
    | with_reducible assumption
    | with_reducible refine evolves_ite (fun _ => ?_) (fun _ => ?_)
    | with_reducible refine evolves_foldl (fun _ _ _ => ?_) ?_
    | split
theorem State.pailStore_evolves {r : State} (e : Event) (s : State)
    (h : r.Evolves s) : r.Evolves (State.pailStore e s) := by
  unfold State.pailStore
  try dsimp only
  repeat' first
    | with_reducible exact h
    | with_reducible apply State.raise_evolves
    | with_reducible refine State.evolves_upObs _ ?_ ?_
    | with_reducible exact fun _ _ _ k => k
    | with_reducible exact fun _ _ _ _ => Tab.sorted_nil
    | with_reducible exact fun _ _ _ k => Tab.sorted_put k
    | with_reducible exact fun _ _ _ k => Tab.sorted_erase k
    | with_reducible exact fun _ _ _ k => Tab.sorted_filter k
    | with_reducible exact fun _ _ _ k => Tab.sorted_filterKV k
    | (with_reducible intro b e q k); (with_reducible refine Tab.sorted_map (fun _ => ?_) k); repeat' first | rfl | split
    | (with_reducible intro b e q k); subst e; (refine ⟨?_, ?_, ?_⟩ <;> first | with_reducible exact k.1 | with_reducible exact k.2.1 | with_reducible exact k.2.2 | exact Nat.zero_le _ | (simp only [List.length_append, List.length_cons, List.length_nil, List.length_drop]; omega) | exact logs_put k.2.2 (logs_get k.2.2 _) | (refine logs_put k.2.2 ?_; simp only [List.length_append, List.length_cons, List.length_nil]; omega) | exact fun _ m => by cases m)
    | with_reducible assumption
    | with_reducible refine evolves_ite (fun _ => ?_) (fun _ => ?_)
    | with_reducible refine evolves_foldl (fun _ _ _ => ?_) ?_
    | split
theorem State.emitAt_evolves {r : State} (stamp : Nat) (trans : Nat) (entry : Nat) (code : Nat) (param : Nat) (s : State)
    (h : r.Evolves s) : r.Evolves (State.emitAt stamp trans entry code param s) := by
  unfold State.emitAt
  try dsimp only
  repeat' first
    | with_reducible exact h
    | with_reducible apply State.cxlRecords_evolves
    | with_reducible apply State.pailStore_evolves
    | with_reducible refine State.evolves_upObs _ ?_ ?_
    | with_reducible exact fun _ _ _ k => k
    | with_reducible exact fun _ _ _ _ => Tab.sorted_nil
    | with_reducible exact fun _ _ _ k => Tab.sorted_put k
    | with_reducible exact fun _ _ _ k => Tab.sorted_erase k
    | with_reducible exact fun _ _ _ k => Tab.sorted_filter k
    | with_reducible exact fun _ _ _ k => Tab.sorted_filterKV k
    | (with_reducible intro b e q k); (with_reducible refine Tab.sorted_map (fun _ => ?_) k); repeat' first | rfl | split
    | with_reducible assumption
    | with_reducible refine evolves_ite (fun _ => ?_) (fun _ => ?_)
    | with_reducible refine evolves_foldl (fun _ _ _ => ?_) ?_
    | split
theorem State.emit_evolves {r : State} (entry : Nat) (code : Nat) (param : Nat) (s : State)
    (h : r.Evolves s) : r.Evolves (State.emit entry code param s) := by
  unfold State.emit
  try dsimp only
  repeat' first
    | with_reducible exact h
    | with_reducible apply State.emitAt_evolves
    | with_reducible assumption
    | with_reducible refine evolves_ite (fun _ => ?_) (fun _ => ?_)
    | with_reducible refine evolves_foldl (fun _ _ _ => ?_) ?_
    | split
theorem State.settleOverrun_evolves {r : State} (s : State)
    (h : r.Evolves s) : r.Evolves (State.settleOverrun s) := by
  unfold State.settleOverrun
  try dsimp only
  repeat' first
    | with_reducible exact h
    | with_reducible apply State.emit_evolves
    | with_reducible refine State.evolves_upObs _ ?_ ?_
    | with_reducible exact fun _ _ _ k => k
    | with_reducible exact fun _ _ _ _ => Tab.sorted_nil
    | with_reducible exact fun _ _ _ k => Tab.sorted_put k
    | with_reducible exact fun _ _ _ k => Tab.sorted_erase k
    | with_reducible exact fun _ _ _ k => Tab.sorted_filter k
    | with_reducible exact fun _ _ _ k => Tab.sorted_filterKV k
    | (with_reducible intro b e q k); (with_reducible refine Tab.sorted_map (fun _ => ?_) k); repeat' first | rfl | split
    | with_reducible assumption
    | with_reducible refine evolves_ite (fun _ => ?_) (fun _ => ?_)
    | with_reducible refine evolves_foldl (fun _ _ _ => ?_) ?_
    | split
theorem State.logBy_evolves {r : State} (trans : Nat) (entry : Nat) (code : Nat) (param : Nat) (s : State)
    (h : r.Evolves s) : r.Evolves (State.logBy trans entry code param s) := by
  unfold State.logBy
  try dsimp only
  repeat' first
    | with_reducible exact h
    | with_reducible apply State.emitAt_evolves
    | with_reducible apply State.settleOverrun_evolves
    | with_reducible refine State.evolves_upObs _ ?_ ?_
    | with_reducible exact fun _ _ _ k => k
    | with_reducible exact fun _ _ _ _ => Tab.sorted_nil
    | with_reducible exact fun _ _ _ k => Tab.sorted_put k
    | with_reducible exact fun _ _ _ k => Tab.sorted_erase k
    | with_reducible exact fun _ _ _ k => Tab.sorted_filter k
    | with_reducible exact fun _ _ _ k => Tab.sorted_filterKV k
    | (with_reducible intro b e q k); (with_reducible refine Tab.sorted_map (fun _ => ?_) k); repeat' first | rfl | split
    | (with_reducible intro b e q k); subst e; (refine ⟨?_, ?_, ?_⟩ <;> first | with_reducible exact k.1 | with_reducible exact k.2.1 | with_reducible exact k.2.2 | exact Nat.zero_le _ | (simp only [List.length_append, List.length_cons, List.length_nil, List.length_drop]; omega) | exact logs_put k.2.2 (logs_get k.2.2 _) | (refine logs_put k.2.2 ?_; simp only [List.length_append, List.length_cons, List.length_nil]; omega) | exact fun _ m => by cases m)
    | with_reducible assumption
    | with_reducible refine evolves_ite (fun _ => ?_) (fun _ => ?_)
    | with_reducible refine evolves_foldl (fun _ _ _ => ?_) ?_
    | split
theorem State.logFor_evolves {r : State} (entry : Nat) (code : Nat) (param : Nat) (s : State)
    (h : r.Evolves s) : r.Evolves (State.logFor entry code param s) := by
  unfold State.logFor
  try dsimp only
  repeat' first
    | with_reducible exact h
    | with_reducible apply State.logBy_evolves
    | with_reducible assumption
    | with_reducible refine evolves_ite (fun _ => ?_) (fun _ => ?_)
    | with_reducible refine evolves_foldl (fun _ _ _ => ?_) ?_
    | split
theorem State.log_evolves {r : State} (code : Nat) (param : Nat) (s : State)
    (h : r.Evolves s) : r.Evolves (State.log code param s) := by
  unfold State.log
  try dsimp only
  repeat' first
    | with_reducible exact h
    | with_reducible apply State.logFor_evolves
    | with_reducible assumption
    | with_reducible refine evolves_ite (fun _ => ?_) (fun _ => ?_)
    | with_reducible refine evolves_foldl (fun _ _ _ => ?_) ?_
    | split
theorem State.logAll_evolves {r : State} (es : List (Nat × Nat)) (s : State)
    (h : r.Evolves s) : r.Evolves (State.logAll es s) := by
  unfold State.logAll
  try dsimp only
  repeat' first
    | with_reducible exact h
    | with_reducible apply State.log_evolves
    | with_reducible assumption
    | with_reducible refine evolves_ite (fun _ => ?_) (fun _ => ?_)
    | with_reducible refine evolves_foldl (fun _ _ _ => ?_) ?_
    | split
theorem State.startPail_evolves {r : State} (own : List (Nat × Nat)) (s : State)
    (h : r.Evolves s) : r.Evolves (State.startPail own s) := by
  unfold State.startPail
  try dsimp only
  repeat' first
    | with_reducible exact h
    | with_reducible apply State.emit_evolves
    | with_reducible apply State.emitAt_evolves
    | with_reducible refine State.evolves_upObs _ ?_ ?_
    | with_reducible exact fun _ _ _ k => k
    | with_reducible exact fun _ _ _ _ => Tab.sorted_nil
    | with_reducible exact fun _ _ _ k => Tab.sorted_put k
    | with_reducible exact fun _ _ _ k => Tab.sorted_erase k
    | with_reducible exact fun _ _ _ k => Tab.sorted_filter k
    | with_reducible exact fun _ _ _ k => Tab.sorted_filterKV k
    | (with_reducible intro b e q k); (with_reducible refine Tab.sorted_map (fun _ => ?_) k); repeat' first | rfl | split
    | (with_reducible intro b e q k); subst e; (refine ⟨?_, ?_, ?_⟩ <;> first | with_reducible exact k.1 | with_reducible exact k.2.1 | with_reducible exact k.2.2 | exact Nat.zero_le _ | (simp only [List.length_append, List.length_cons, List.length_nil, List.length_drop]; omega) | exact logs_put k.2.2 (logs_get k.2.2 _) | (refine logs_put k.2.2 ?_; simp only [List.length_append, List.length_cons, List.length_nil]; omega) | exact fun _ m => by cases m)
    | with_reducible assumption
    | with_reducible refine evolves_ite (fun _ => ?_) (fun _ => ?_)
    | with_reducible refine evolves_foldl (fun _ _ _ => ?_) ?_
    | split

end Sys2Proof.Machine
end

