-- ==== Sys2Proof/Laws/EvolvesOps.lean ====
section
/-!
SUPPORT. How the operations of Machine/Ops.lean let the state evolve.
-/
namespace Sys2Proof.Machine

theorem State.armCode_le (s : State) : s.armCode ≤ 1 := by
  unfold State.armCode; split <;> decide
theorem State.wrap_evolves {r : State} (block : Nat) (n : Nat) (total : Nat) (addr : Nat) (partner : Nat) (s : State)
    (h : r.Evolves s) : r.Evolves (State.wrap block n total addr partner s) := by
  unfold State.wrap
  try dsimp only
  repeat' first
    | with_reducible exact h
    | with_reducible apply State.raise_evolves
    | with_reducible refine State.evolves_upObs _ ?_ ?_
    | with_reducible refine State.evolves_upPerf _ ?_
    | with_reducible exact fun _ _ _ k => k
    | with_reducible exact fun _ _ _ _ => Tab.sorted_nil
    | with_reducible exact fun _ _ _ k => Tab.sorted_put k
    | with_reducible exact fun _ _ _ k => Tab.sorted_erase k
    | with_reducible exact fun _ _ _ k => Tab.sorted_filter k
    | with_reducible exact fun _ _ _ k => Tab.sorted_filterKV k
    | (with_reducible intro b e q k); (with_reducible refine Tab.sorted_map (fun _ => ?_) k); repeat' first | rfl | split
    | with_reducible assumption
    | with_reducible refine evolves_ite (fun _ => ?_) (fun _ => ?_)
    | with_reducible refine evolves_foldl (fun _ _ _ => ?_) ?_
    | split
theorem State.bump_evolves {r : State} (block : Nat) (c : Nat) (n : Nat) (addr : Nat) (partner : Nat) (s : State)
    (h : r.Evolves s) : r.Evolves (State.bump block c n addr partner s) := by
  unfold State.bump
  try dsimp only
  repeat' first
    | with_reducible exact h
    | with_reducible apply State.wrap_evolves
    | with_reducible refine State.evolves_upPerf _ ?_
    | with_reducible assumption
    | with_reducible refine evolves_ite (fun _ => ?_) (fun _ => ?_)
    | with_reducible refine evolves_foldl (fun _ _ _ => ?_) ?_
    | split
theorem State.countAt_evolves {r : State} (block : Nat) (ev : Nat) (n : Nat) (addr : Nat) (partner : Nat) (s : State)
    (h : r.Evolves s) : r.Evolves (State.countAt block ev n addr partner s) := by
  unfold State.countAt
  try dsimp only
  repeat' first
    | with_reducible exact h
    | with_reducible apply State.bump_evolves
    | with_reducible assumption
    | with_reducible refine evolves_ite (fun _ => ?_) (fun _ => ?_)
    | with_reducible refine evolves_foldl (fun _ _ _ => ?_) ?_
    | split
theorem State.count_evolves {r : State} (block : Nat) (ev : Nat) (n : Nat) (s : State)
    (h : r.Evolves s) : r.Evolves (State.count block ev n s) := by
  unfold State.count
  try dsimp only
  repeat' first
    | with_reducible exact h
    | with_reducible apply State.countAt_evolves
    | with_reducible assumption
    | with_reducible refine evolves_ite (fun _ => ?_) (fun _ => ?_)
    | with_reducible refine evolves_foldl (fun _ _ _ => ?_) ?_
    | split
theorem State.save_evolves {r : State} (n : Nat) (s : State)
    (h : r.Evolves s) : r.Evolves (State.save n s) := by
  unfold State.save
  try dsimp only
  repeat' first
    | with_reducible exact h
    | with_reducible apply State.count_evolves
    | with_reducible assumption
    | with_reducible refine evolves_ite (fun _ => ?_) (fun _ => ?_)
    | with_reducible refine evolves_foldl (fun _ _ _ => ?_) ?_
    | split
theorem State.measure_evolves {r : State} (reg : Nat) (s : State)
    (h : r.Evolves s) : r.Evolves (State.measure reg s) := by
  unfold State.measure
  try dsimp only
  repeat' first
    | with_reducible exact h
    | with_reducible refine State.evolves_upKeys _ ?_
    | with_reducible assumption
    | with_reducible refine evolves_ite (fun _ => ?_) (fun _ => ?_)
    | with_reducible refine evolves_foldl (fun _ _ _ => ?_) ?_
    | split
/-- Sending a frame leaves the membership as it is. -/
theorem Yoke.sendFrame_member (now : Nat) (y : Yoke) (b : Bytes) :
    (y.sendFrame now b).member = y.member ∧ (y.sendFrame now b).prev = y.prev := ⟨rfl, rfl⟩
/-- Sending frames leaves the membership as it is. -/
theorem Yoke.sendFrames_member (now : Nat) (bs : List Bytes) (y : Yoke) :
    (bs.foldl (fun z b => z.sendFrame now b) y).member = y.member ∧
      (bs.foldl (fun z b => z.sendFrame now b) y).prev = y.prev := by
  induction bs generalizing y with
  | nil => exact ⟨rfl, rfl⟩
  | cons b bs ih => exact ih _
theorem State.transmit_evolves {r : State} (m : YokeMsg) (s : State)
    (h : r.Evolves s) : r.Evolves (State.transmit m s) := by
  refine State.count_evolves _ _ _ _ (State.evolves_upYoke _ (fun b _ _ k => ?_) h)
  obtain ⟨e1, e2⟩ := Yoke.sendFrames_member s.clk.now m.streams { b with
    out := b.out ++ [m]
    credits := if creditFree m.ty then b.credits else
      Tab.set 0 b.credits (creditClass m.ty) (Tab.get 0 b.credits (creditClass m.ty) - 1) }
  rw [e1, e2]
  exact k
theorem State.send_evolves {r : State} (m : YokeMsg) (s : State)
    (h : r.Evolves s) : r.Evolves (State.send m s) := by
  unfold State.send
  try dsimp only
  repeat' first
    | with_reducible exact h
    | with_reducible apply State.transmit_evolves
    | with_reducible refine State.evolves_upYoke _ ?_ ?_
    | with_reducible exact fun _ _ _ k => k
    | with_reducible assumption
    | with_reducible refine evolves_ite (fun _ => ?_) (fun _ => ?_)
    | with_reducible refine evolves_foldl (fun _ _ _ => ?_) ?_
    | split
theorem State.sendWaiting_evolves {r : State} (s : State)
    (h : r.Evolves s) : r.Evolves (State.sendWaiting s) := by
  unfold State.sendWaiting
  try dsimp only
  repeat' first
    | with_reducible exact h
    | with_reducible apply State.send_evolves
    | with_reducible refine State.evolves_upYoke _ ?_ ?_
    | with_reducible exact fun _ _ _ k => k
    | with_reducible assumption
    | with_reducible refine evolves_ite (fun _ => ?_) (fun _ => ?_)
    | with_reducible refine evolves_foldl (fun _ _ _ => ?_) ?_
    | split
theorem State.owe_evolves {r : State} (ty : Nat) (s : State)
    (h : r.Evolves s) : r.Evolves (State.owe ty s) := by
  unfold State.owe
  try dsimp only
  repeat' first
    | with_reducible exact h
    | with_reducible refine State.evolves_upYoke _ ?_ ?_
    | with_reducible exact fun _ _ _ k => k
    | with_reducible assumption
    | with_reducible refine evolves_ite (fun _ => ?_) (fun _ => ?_)
    | with_reducible refine evolves_foldl (fun _ _ _ => ?_) ?_
    | split
theorem State.setCtl_evolves {r : State} (i : Nat) (v : Nat) (s : State)
    (h : r.Evolves s) : r.Evolves (State.setCtl i v s) := by
  unfold State.setCtl
  try dsimp only
  repeat' first
    | with_reducible exact h
    | with_reducible refine State.evolves_upCmds _ ?_
    | with_reducible assumption
    | with_reducible refine evolves_ite (fun _ => ?_) (fun _ => ?_)
    | with_reducible refine evolves_foldl (fun _ _ _ => ?_) ?_
    | split
theorem State.setVal_evolves {r : State} (i : Nat) (x1 : Nat) (v : Nat) (s : State)
    (h : r.Evolves s) : r.Evolves (State.setVal i x1 v s) := by
  unfold State.setVal
  try dsimp only
  repeat' first
    | with_reducible exact h
    | with_reducible refine State.evolves_upCmds _ ?_
    | with_reducible assumption
    | with_reducible refine evolves_ite (fun _ => ?_) (fun _ => ?_)
    | with_reducible refine evolves_foldl (fun _ _ _ => ?_) ?_
    | split
theorem State.leavePrepared_evolves {r : State} (s : State)
    (h : r.Evolves s) : r.Evolves (State.leavePrepared s) := by
  unfold State.leavePrepared
  try dsimp only
  repeat' first
    | with_reducible exact h
    | with_reducible apply State.setCtl_evolves
    | with_reducible refine State.evolves_upPwr _ ?_ ?_
    | with_reducible exact fun _ _ _ k => k
    | (with_reducible intro b e q k); dsimp only at k ⊢; first | omega | (have ha := State.armCode_le s; omega) | ((with_reducible refine ⟨?_, k.2⟩); (repeat' first | (with_reducible refine Nat.le_trans (State.armCode_le _) ?_); decide | omega | split); done) | (have hm' := hm q; omega) | exact ⟨Nat.le_trans (State.armCode_le _) (by decide), k.2⟩ | (have ha := State.armCode_le _; constructor <;> repeat' first | omega | split)
    | with_reducible assumption
    | with_reducible refine evolves_ite (fun _ => ?_) (fun _ => ?_)
    | with_reducible refine evolves_foldl (fun _ _ _ => ?_) ?_
    | split
theorem State.journal_evolves {r : State} (x0 : JRec) (s : State)
    (h : r.Evolves s) : r.Evolves (State.journal x0 s) := by
  unfold State.journal
  try dsimp only
  repeat' first
    | with_reducible exact h
    | with_reducible apply State.leavePrepared_evolves
    | with_reducible apply State.log_evolves
    | with_reducible refine State.evolves_upMap _ ?_
    | with_reducible assumption
    | with_reducible refine evolves_ite (fun _ => ?_) (fun _ => ?_)
    | with_reducible refine evolves_foldl (fun _ _ _ => ?_) ?_
    | split
theorem State.mark_evolves {r : State} (g : Nat) (s : State)
    (h : r.Evolves s) : r.Evolves (State.mark g s) := by
  unfold State.mark
  try dsimp only
  repeat' first
    | with_reducible exact h
    | with_reducible apply State.journal_evolves
    | with_reducible refine State.evolves_upMap _ ?_
    | with_reducible assumption
    | with_reducible refine evolves_ite (fun _ => ?_) (fun _ => ?_)
    | with_reducible refine evolves_foldl (fun _ _ _ => ?_) ?_
    | split
theorem State.unmark_evolves {r : State} (g : Nat) (s : State)
    (h : r.Evolves s) : r.Evolves (State.unmark g s) := by
  unfold State.unmark
  try dsimp only
  repeat' first
    | with_reducible exact h
    | with_reducible apply State.journal_evolves
    | with_reducible refine State.evolves_upMap _ ?_
    | with_reducible assumption
    | with_reducible refine evolves_ite (fun _ => ?_) (fun _ => ?_)
    | with_reducible refine evolves_foldl (fun _ _ _ => ?_) ?_
    | split
theorem State.markAll_evolves {r : State} (s : State)
    (h : r.Evolves s) : r.Evolves (State.markAll s) := by
  unfold State.markAll
  try dsimp only
  repeat' first
    | with_reducible exact h
    | with_reducible apply State.journal_evolves
    | with_reducible refine State.evolves_upMap _ ?_
    | with_reducible assumption
    | with_reducible refine evolves_ite (fun _ => ?_) (fun _ => ?_)
    | with_reducible refine evolves_foldl (fun _ _ _ => ?_) ?_
    | split
theorem State.markSole_evolves {r : State} (g : Nat) (s : State)
    (h : r.Evolves s) : r.Evolves (State.markSole g s) := by
  unfold State.markSole
  try dsimp only
  repeat' first
    | with_reducible exact h
    | with_reducible apply State.mark_evolves
    | with_reducible assumption
    | with_reducible refine evolves_ite (fun _ => ?_) (fun _ => ?_)
    | with_reducible refine evolves_foldl (fun _ _ _ => ?_) ?_
    | split
theorem State.poison_evolves {r : State} (line : Nat) (s : State)
    (h : r.Evolves s) : r.Evolves (State.poison line s) := by
  unfold State.poison
  try dsimp only
  repeat' first
    | with_reducible exact h
    | with_reducible apply State.journal_evolves
    | with_reducible apply State.markSole_evolves
    | with_reducible refine State.evolves_upMap _ ?_
    | with_reducible assumption
    | with_reducible refine evolves_ite (fun _ => ?_) (fun _ => ?_)
    | with_reducible refine evolves_foldl (fun _ _ _ => ?_) ?_
    | split
theorem State.unpoison_evolves {r : State} (line : Nat) (s : State)
    (h : r.Evolves s) : r.Evolves (State.unpoison line s) := by
  unfold State.unpoison
  try dsimp only
  repeat' first
    | with_reducible exact h
    | with_reducible apply State.journal_evolves
    | with_reducible apply State.markSole_evolves
    | with_reducible refine State.evolves_upMap _ ?_
    | with_reducible assumption
    | with_reducible refine evolves_ite (fun _ => ?_) (fun _ => ?_)
    | with_reducible refine evolves_foldl (fun _ _ _ => ?_) ?_
    | split
theorem State.poisonAll_evolves {r : State} (ls : List Nat) (s : State)
    (h : r.Evolves s) : r.Evolves (State.poisonAll ls s) := by
  unfold State.poisonAll
  try dsimp only
  repeat' first
    | with_reducible exact h
    | with_reducible apply State.poison_evolves
    | with_reducible assumption
    | with_reducible refine evolves_ite (fun _ => ?_) (fun _ => ?_)
    | with_reducible refine evolves_foldl (fun _ _ _ => ?_) ?_
    | split
theorem State.charge_evolves {r : State} (line : Nat) (s : State)
    (h : r.Evolves s) : r.Evolves (State.charge line s) := by
  unfold State.charge
  try dsimp only
  repeat' first
    | with_reducible exact h
    | with_reducible apply State.leavePrepared_evolves
    | with_reducible refine State.evolves_upBudget _ ?_ ?_
    | with_reducible exact fun _ _ _ k => k
    | with_reducible exact fun _ _ _ _ => Tab.sorted_nil
    | with_reducible exact fun _ _ _ k => Tab.sorted_put k
    | with_reducible exact fun _ _ _ k => Tab.sorted_erase k
    | with_reducible exact fun _ _ _ k => Tab.sorted_filter k
    | with_reducible exact fun _ _ _ k => Tab.sorted_filterKV k
    | (with_reducible intro b e q k); (with_reducible refine Tab.sorted_map (fun _ => ?_) k); repeat' first | rfl | split
    | with_reducible assumption
    | with_reducible refine evolves_ite (fun _ => ?_) (fun _ => ?_)
    | with_reducible refine evolves_foldl (fun _ _ _ => ?_) ?_
    | split
theorem State.release_evolves {r : State} (line : Nat) (s : State)
    (h : r.Evolves s) : r.Evolves (State.release line s) := by
  unfold State.release
  try dsimp only
  repeat' first
    | with_reducible exact h
    | with_reducible refine State.evolves_upBudget _ ?_ ?_
    | with_reducible exact fun _ _ _ k => k
    | with_reducible exact fun _ _ _ _ => Tab.sorted_nil
    | with_reducible exact fun _ _ _ k => Tab.sorted_put k
    | with_reducible exact fun _ _ _ k => Tab.sorted_erase k
    | with_reducible exact fun _ _ _ k => Tab.sorted_filter k
    | with_reducible exact fun _ _ _ k => Tab.sorted_filterKV k
    | (with_reducible intro b e q k); (with_reducible refine Tab.sorted_map (fun _ => ?_) k); repeat' first | rfl | split
    | with_reducible assumption
    | with_reducible refine evolves_ite (fun _ => ?_) (fun _ => ?_)
    | with_reducible refine evolves_foldl (fun _ _ _ => ?_) ?_
    | split
theorem State.releaseAll_evolves {r : State} (ls : List Nat) (s : State)
    (h : r.Evolves s) : r.Evolves (State.releaseAll ls s) := by
  unfold State.releaseAll
  try dsimp only
  repeat' first
    | with_reducible exact h
    | with_reducible apply State.release_evolves
    | with_reducible assumption
    | with_reducible refine evolves_ite (fun _ => ?_) (fun _ => ?_)
    | with_reducible refine evolves_foldl (fun _ _ _ => ?_) ?_
    | split
theorem State.respond_evolves {r : State} (key : Nat) (tag : Nat) (k : RespKind) (s : State)
    (h : r.Evolves s) : r.Evolves (State.respond key tag k s) := by
  unfold State.respond
  try dsimp only
  repeat' first
    | with_reducible exact h
    | with_reducible apply State.count_evolves
    | with_reducible refine State.evolves_upPort _ ?_
    | with_reducible assumption
    | with_reducible refine evolves_ite (fun _ => ?_) (fun _ => ?_)
    | with_reducible refine evolves_foldl (fun _ _ _ => ?_) ?_
    | split
theorem State.dropReq_evolves {r : State} (id : Nat) (s : State)
    (h : r.Evolves s) : r.Evolves (State.dropReq id s) := by
  unfold State.dropReq
  try dsimp only
  repeat' first
    | with_reducible exact h
    | with_reducible refine State.evolves_upReqs _ ?_
    | with_reducible assumption
    | with_reducible refine evolves_ite (fun _ => ?_) (fun _ => ?_)
    | with_reducible refine evolves_foldl (fun _ _ _ => ?_) ?_
    | split
theorem State.stageReq_evolves {r : State} (id : Nat) (st : Stage) (s : State)
    (h : r.Evolves s) : r.Evolves (State.stageReq id st s) := by
  unfold State.stageReq
  try dsimp only
  repeat' first
    | with_reducible exact h
    | with_reducible refine State.evolves_upReqs _ ?_
    | with_reducible assumption
    | with_reducible refine evolves_ite (fun _ => ?_) (fun _ => ?_)
    | with_reducible refine evolves_foldl (fun _ _ _ => ?_) ?_
    | split
theorem State.sample_evolves {r : State} (kind : Nat) (v : Nat) (s : State)
    (h : r.Evolves s) : r.Evolves (State.sample kind v s) := by
  unfold State.sample
  try dsimp only
  repeat' first
    | with_reducible exact h
    | with_reducible refine State.evolves_upFirkin _ ?_
    | with_reducible assumption
    | with_reducible refine evolves_ite (fun _ => ?_) (fun _ => ?_)
    | with_reducible refine evolves_foldl (fun _ _ _ => ?_) ?_
    | split
theorem State.timed_evolves {r : State} (x0 : Req) (s : State)
    (h : r.Evolves s) : r.Evolves (State.timed x0 s) := by
  unfold State.timed
  try dsimp only
  repeat' first
    | with_reducible exact h
    | with_reducible apply State.sample_evolves
    | with_reducible refine State.evolves_upCare _ ?_ ?_
    | with_reducible refine State.evolves_upReg _ ?_
    | with_reducible refine State.evolves_upRstats _ ?_
    | with_reducible exact fun _ _ _ k => k
    | with_reducible assumption
    | with_reducible refine evolves_ite (fun _ => ?_) (fun _ => ?_)
    | with_reducible refine evolves_foldl (fun _ _ _ => ?_) ?_
    | split
theorem State.mboxRespond_evolves {r : State} (w : Who) (opcode : Nat) (code : Nat) (payload : Bytes) (s : State)
    (h : r.Evolves s) : r.Evolves (State.mboxRespond w opcode code payload s) := by
  unfold State.mboxRespond
  try dsimp only
  repeat' first
    | with_reducible exact h
    | with_reducible apply State.raiseWhen_evolves
    | with_reducible refine State.evolves_upMbox _ ?_
    | with_reducible assumption
    | with_reducible refine evolves_ite (fun _ => ?_) (fun _ => ?_)
    | with_reducible refine evolves_foldl (fun _ _ _ => ?_) ?_
    | split
theorem State.refreshSelf_evolves {r : State} (s : State)
    (h : r.Evolves s) : r.Evolves (State.refreshSelf s) := by
  unfold State.refreshSelf
  try dsimp only
  repeat' first
    | with_reducible exact h
    | with_reducible refine State.evolves_upPwr _ ?_ ?_
    | with_reducible exact fun _ _ _ k => k
    | with_reducible assumption
    | with_reducible refine evolves_ite (fun _ => ?_) (fun _ => ?_)
    | with_reducible refine evolves_foldl (fun _ _ _ => ?_) ?_
    | split
theorem State.answer_evolves {r : State} (x0 : Req) (k : RespKind) (s : State)
    (h : r.Evolves s) : r.Evolves (State.answer x0 k s) := by
  unfold State.answer
  try dsimp only
  repeat' first
    | with_reducible exact h
    | with_reducible apply State.dropReq_evolves
    | with_reducible apply State.mboxRespond_evolves
    | with_reducible apply State.refreshSelf_evolves
    | with_reducible apply State.respond_evolves
    | with_reducible apply State.send_evolves
    | with_reducible apply State.setVal_evolves
    | with_reducible apply State.timed_evolves
    | with_reducible refine State.evolves_upMbox _ ?_
    | with_reducible refine State.evolves_upSlices _ ?_
    | with_reducible assumption
    | with_reducible refine evolves_ite (fun _ => ?_) (fun _ => ?_)
    | with_reducible refine evolves_foldl (fun _ _ _ => ?_) ?_
    | split
theorem State.reply_evolves {r : State} (route : Route) (spec : Nat) (flags : Nat) (tid : Nat) (index : Nat) (x5 : Nat) (code : Nat) (data : Bytes) (s : State)
    (h : r.Evolves s) : r.Evolves (State.reply route spec flags tid index x5 code data s) := by
  unfold State.reply
  try dsimp only
  repeat' first
    | with_reducible exact h
    | with_reducible apply State.mboxRespond_evolves
    | with_reducible refine State.evolves_upDict _ ?_
    | with_reducible refine State.evolves_upMbox _ ?_
    | with_reducible assumption
    | with_reducible refine evolves_ite (fun _ => ?_) (fun _ => ?_)
    | with_reducible refine evolves_foldl (fun _ _ _ => ?_) ?_
    | split
theorem State.askLeave_evolves {r : State} (id : Nat) (act : Act) (prio : Nat) (cost : Nat) (s : State)
    (h : r.Evolves s) : r.Evolves (State.askLeave id act prio cost s) := by
  unfold State.askLeave
  try dsimp only
  repeat' first
    | with_reducible exact h
    | with_reducible refine State.evolves_upReg _ ?_
    | with_reducible assumption
    | with_reducible refine evolves_ite (fun _ => ?_) (fun _ => ?_)
    | with_reducible refine evolves_foldl (fun _ _ _ => ?_) ?_
    | split
theorem State.giveLeave_evolves {r : State} (id : Nat) (s : State)
    (h : r.Evolves s) : r.Evolves (State.giveLeave id s) := by
  unfold State.giveLeave
  try dsimp only
  repeat' first
    | with_reducible exact h
    | with_reducible refine State.evolves_upReg _ ?_
    | with_reducible assumption
    | with_reducible refine evolves_ite (fun _ => ?_) (fun _ => ?_)
    | with_reducible refine evolves_foldl (fun _ _ _ => ?_) ?_
    | split
theorem State.tally_evolves {r : State} (k : Nat) (f : Nat → Nat) (s : State)
    (h : r.Evolves s) : r.Evolves (State.tally k f s) := by
  unfold State.tally
  try dsimp only
  repeat' first
    | with_reducible exact h
    | with_reducible apply State.setVal_evolves
    | with_reducible assumption
    | with_reducible refine evolves_ite (fun _ => ?_) (fun _ => ?_)
    | with_reducible refine evolves_foldl (fun _ _ _ => ?_) ?_
    | split
theorem State.askStrain_evolves {r : State} (s : State)
    (h : r.Evolves s) : r.Evolves (State.askStrain s) := by
  unfold State.askStrain
  try dsimp only
  repeat' first
    | with_reducible exact h
    | with_reducible apply State.askLeave_evolves
    | with_reducible assumption
    | with_reducible refine evolves_ite (fun _ => ?_) (fun _ => ?_)
    | with_reducible refine evolves_foldl (fun _ _ _ => ?_) ?_
    | split
theorem State.startGills_evolves {r : State} (s : State)
    (h : r.Evolves s) : r.Evolves (State.startGills s) := by
  unfold State.startGills
  try dsimp only
  repeat' first
    | with_reducible exact h
    | with_reducible refine State.evolves_upGills _ ?_
    | with_reducible assumption
    | with_reducible refine evolves_ite (fun _ => ?_) (fun _ => ?_)
    | with_reducible refine evolves_foldl (fun _ _ _ => ?_) ?_
    | split
theorem State.needRetrain_evolves {r : State} (mask : BitVec 8) (s : State)
    (h : r.Evolves s) : r.Evolves (State.needRetrain mask s) := by
  unfold State.needRetrain
  try dsimp only
  repeat' first
    | with_reducible exact h
    | with_reducible apply State.askLeave_evolves
    | with_reducible refine State.evolves_upDram _ ?_
    | with_reducible assumption
    | with_reducible refine evolves_ite (fun _ => ?_) (fun _ => ?_)
    | with_reducible refine evolves_foldl (fun _ _ _ => ?_) ?_
    | split
theorem State.gill_evolves {r : State} (d : Nat) (weight : Nat) (s : State)
    (h : r.Evolves s) : r.Evolves (State.gill d weight s) := by
  unfold State.gill
  try dsimp only
  repeat' first
    | with_reducible exact h
    | with_reducible apply State.log_evolves
    | with_reducible apply State.needRetrain_evolves
    | with_reducible refine State.evolves_upGills _ ?_
    | with_reducible assumption
    | with_reducible refine evolves_ite (fun _ => ?_) (fun _ => ?_)
    | with_reducible refine evolves_foldl (fun _ _ _ => ?_) ?_
    | split
theorem State.endRes_evolves {r : State} (p : Resv → Bool) (why : Nat) (s : State)
    (h : r.Evolves s) : r.Evolves (State.endRes p why s) := by
  unfold State.endRes
  try dsimp only
  repeat' first
    | with_reducible exact h
    | with_reducible refine State.evolves_upAtom _ ?_
    | with_reducible assumption
    | with_reducible refine evolves_ite (fun _ => ?_) (fun _ => ?_)
    | with_reducible refine evolves_foldl (fun _ _ _ => ?_) ?_
    | split
theorem State.spendRes_evolves {r : State} (entry : Nat) (line : Nat) (s : State)
    (h : r.Evolves s) : r.Evolves (State.spendRes entry line s) := by
  unfold State.spendRes
  try dsimp only
  repeat' first
    | with_reducible exact h
    | with_reducible refine State.evolves_upAtom _ ?_
    | with_reducible assumption
    | with_reducible refine evolves_ite (fun _ => ?_) (fun _ => ?_)
    | with_reducible refine evolves_foldl (fun _ _ _ => ?_) ?_
    | split
theorem State.setStatus_evolves {r : State} (n : Nat) (slice : Nat) (outcome : Nat) (line : Nat) (s : State)
    (h : r.Evolves s) : r.Evolves (State.setStatus n slice outcome line s) := by
  unfold State.setStatus
  try dsimp only
  repeat' first
    | with_reducible exact h
    | with_reducible refine State.evolves_upAtom _ ?_
    | with_reducible assumption
    | with_reducible refine evolves_ite (fun _ => ?_) (fun _ => ?_)
    | with_reducible refine evolves_foldl (fun _ _ _ => ?_) ?_
    | split
theorem State.countOutcome_evolves {r : State} (outcome : Nat) (s : State)
    (h : r.Evolves s) : r.Evolves (State.countOutcome outcome s) := by
  unfold State.countOutcome
  try dsimp only
  repeat' first
    | with_reducible exact h
    | with_reducible refine State.evolves_upAtom _ ?_
    | with_reducible assumption
    | with_reducible refine evolves_ite (fun _ => ?_) (fun _ => ?_)
    | with_reducible refine evolves_foldl (fun _ _ _ => ?_) ?_
    | split
theorem State.intervene_evolves {r : State} (line : Nat) (s : State)
    (h : r.Evolves s) : r.Evolves (State.intervene line s) := by
  unfold State.intervene
  try dsimp only
  repeat' first
    | with_reducible exact h
    | with_reducible apply State.endRes_evolves
    | with_reducible assumption
    | with_reducible refine evolves_ite (fun _ => ?_) (fun _ => ?_)
    | with_reducible refine evolves_foldl (fun _ _ _ => ?_) ?_
    | split
theorem State.countLevel_evolves {r : State} (ticks : Nat) (k : Nat) (sel : Nat) (s : State)
    (h : r.Evolves s) : r.Evolves (State.countLevel ticks k sel s) := by
  unfold State.countLevel
  try dsimp only
  repeat' first
    | with_reducible exact h
    | with_reducible apply State.bump_evolves
    | with_reducible refine State.evolves_upPerf _ ?_
    | with_reducible assumption
    | with_reducible refine evolves_ite (fun _ => ?_) (fun _ => ?_)
    | with_reducible refine evolves_foldl (fun _ _ _ => ?_) ?_
    | split
theorem State.elapse_evolves {r : State} (dt : Nat) (s : State)
    (h : r.Evolves s) : r.Evolves (State.elapse dt s) := by
  unfold State.elapse
  try dsimp only
  repeat' first
    | with_reducible exact h
    | with_reducible apply State.countLevel_evolves
    | with_reducible refine State.evolves_upClk _ ?_ ?_
    | with_reducible refine State.evolves_upPerf _ ?_
    | with_reducible exact fun _ _ _ k => k
    | exact Nat.le_refl _
    | exact Nat.le_add_right _ _
    | with_reducible exact Nat.le_refl _
    | with_reducible assumption
    | with_reducible refine evolves_ite (fun _ => ?_) (fun _ => ?_)
    | with_reducible refine evolves_foldl (fun _ _ _ => ?_) ?_
    | split
theorem State.elapseTo_evolves {r : State} (t : Nat) (s : State)
    (h : r.Evolves s) : r.Evolves (State.elapseTo t s) := by
  unfold State.elapseTo
  try dsimp only
  repeat' first
    | with_reducible exact h
    | with_reducible apply State.elapse_evolves
    | with_reducible assumption
    | with_reducible refine evolves_ite (fun _ => ?_) (fun _ => ?_)
    | with_reducible refine evolves_foldl (fun _ _ _ => ?_) ?_
    | split

end Sys2Proof.Machine
end

