-- ==== Sys2Proof/Laws/EvolvesContent.lean ====
section
/-!
SUPPORT. How the operations of Machine/Content.lean let the state evolve.
-/
namespace Sys2Proof.Machine

theorem State.enterFilter_evolves {r : State} (g : Nat) (s : State)
    (h : r.Evolves s) : r.Evolves (State.enterFilter g s) := by
  unfold State.enterFilter
  try dsimp only
  repeat' first
    | with_reducible exact h
    | with_reducible refine State.evolves_upMap _ ?_
    | with_reducible assumption
    | with_reducible refine evolves_ite (fun _ => ?_) (fun _ => ?_)
    | with_reducible refine evolves_foldl (fun _ _ _ => ?_) ?_
    | split
theorem State.trimFilter_evolves {r : State} (g : Nat) (s : State)
    (h : r.Evolves s) : r.Evolves (State.trimFilter g s) := by
  unfold State.trimFilter
  try dsimp only
  repeat' first
    | with_reducible exact h
    | with_reducible refine State.evolves_upMap _ ?_
    | with_reducible assumption
    | with_reducible refine evolves_ite (fun _ => ?_) (fun _ => ?_)
    | with_reducible refine evolves_foldl (fun _ _ _ => ?_) ?_
    | split
theorem State.remakeFilter_evolves {r : State} (slice : Nat) (s : State)
    (h : r.Evolves s) : r.Evolves (State.remakeFilter slice s) := by
  unfold State.remakeFilter
  try dsimp only
  repeat' first
    | with_reducible exact h
    | with_reducible refine State.evolves_upMap _ ?_
    | with_reducible assumption
    | with_reducible refine evolves_ite (fun _ => ?_) (fun _ => ?_)
    | with_reducible refine evolves_foldl (fun _ _ _ => ?_) ?_
    | split

end Sys2Proof.Machine
end

