-- ==== Sys2Proof/Laws/EvolvesRipening.lean ====
section
/-!
SUPPORT. How the operations of Machine/Ripening.lean let the state evolve.
-/
namespace Sys2Proof.Machine

theorem State.softDecoded_evolves {r : State} (key : Nat) (ppa : Nat) (deep : Bool) (offsets : List Int) (s : State)
    (h : r.Evolves s) : r.Evolves (State.softDecoded key ppa deep offsets s) := by
  unfold State.softDecoded
  try dsimp only
  repeat' first
    | with_reducible exact h
    | with_reducible refine State.evolves_upCare _ ?_ ?_
    | with_reducible refine State.evolves_upMedia _ ?_ ?_
    | with_reducible exact fun _ _ _ k => k
    | with_reducible exact fun _ _ _ _ => Tab.sorted_nil
    | with_reducible exact fun _ _ _ k => Tab.sorted_put k
    | with_reducible exact fun _ _ _ k => Tab.sorted_erase k
    | with_reducible exact fun _ _ _ k => Tab.sorted_filter k
    | with_reducible exact fun _ _ _ k => Tab.sorted_filterKV k
    | (with_reducible intro b e q k); (with_reducible refine Tab.sorted_map (fun _ => ?_) k); repeat' first | rfl | split
    | with_reducible assumption
    | with_reducible refine evolves_ite (fun _ => ?_) (fun _ => ?_)
    | with_reducible refine evolves_foldl (fun _ _ _ => ?_) ?_
    | split
theorem State.codewordRead_evolves {r : State} (ppa : Nat) (s : State)
    (h : r.Evolves s) : r.Evolves (State.codewordRead ppa s) := by
  unfold State.codewordRead
  try dsimp only
  repeat' first
    | with_reducible exact h
    | with_reducible refine State.evolves_upMedia _ ?_ ?_
    | with_reducible exact fun _ _ _ k => k
    | with_reducible exact fun _ _ _ _ => Tab.sorted_nil
    | with_reducible exact fun _ _ _ k => Tab.sorted_put k
    | with_reducible exact fun _ _ _ k => Tab.sorted_erase k
    | with_reducible exact fun _ _ _ k => Tab.sorted_filter k
    | with_reducible exact fun _ _ _ k => Tab.sorted_filterKV k
    | (with_reducible intro b e q k); (with_reducible refine Tab.sorted_map (fun _ => ?_) k); repeat' first | rfl | split
    | with_reducible assumption
    | with_reducible refine evolves_ite (fun _ => ?_) (fun _ => ?_)
    | with_reducible refine evolves_foldl (fun _ _ _ => ?_) ?_
    | split
theorem State.activate_evolves {r : State} (x0 : Nat) (bank : Nat) (row : Nat) (s : State)
    (h : r.Evolves s) : r.Evolves (State.activate x0 bank row s) := by
  unfold State.activate
  try dsimp only
  repeat' first
    | with_reducible exact h
    | with_reducible apply State.count_evolves
    | with_reducible apply State.log_evolves
    | with_reducible refine State.evolves_upDram _ ?_
    | with_reducible assumption
    | with_reducible refine evolves_ite (fun _ => ?_) (fun _ => ?_)
    | with_reducible refine evolves_foldl (fun _ _ _ => ?_) ?_
    | split
theorem State.dramAccess_evolves {r : State} (x0 : Nat) (bank : Nat) (row : Nat) (queued : Bool) (s : State)
    (h : r.Evolves s) : r.Evolves (State.dramAccess x0 bank row queued s) := by
  unfold State.dramAccess
  try dsimp only
  repeat' first
    | with_reducible exact h
    | with_reducible apply State.activate_evolves
    | with_reducible apply State.count_evolves
    | with_reducible refine State.evolves_upDram _ ?_
    | with_reducible assumption
    | with_reducible refine evolves_ite (fun _ => ?_) (fun _ => ?_)
    | with_reducible refine evolves_foldl (fun _ _ _ => ?_) ?_
    | split

end Sys2Proof.Machine
end

