-- ==== Sys2Proof/Laws/EvolvesFetch.lean ====
section
/-!
SUPPORT. How the operations of Machine/Fetch.lean let the state evolve.
-/
namespace Sys2Proof.Machine

theorem State.useBus_evolves {r : State} (ch : Nat) (host : Bool) (ns : Nat) (s : State)
    (h : r.Evolves s) : r.Evolves (State.useBus ch host ns s) := by
  unfold State.useBus
  try dsimp only
  repeat' first
    | with_reducible exact h
    | with_reducible refine State.evolves_upMedia _ ?_ ?_
    | with_reducible exact fun _ _ _ k => k
    | with_reducible exact fun _ _ _ _ => Tab.sorted_nil
    | with_reducible exact fun _ _ _ k => Tab.sorted_put k
    | with_reducible exact fun _ _ _ k => Tab.sorted_erase k
    | with_reducible exact fun _ _ _ k => Tab.sorted_filter k
    | with_reducible exact fun _ _ _ k => Tab.sorted_filterKV k
    | (with_reducible intro b e q k); (with_reducible refine Tab.sorted_map (fun _ => ?_) k); repeat' first | rfl | split
    | with_reducible assumption
    | with_reducible refine evolves_ite (fun _ => ?_) (fun _ => ?_)
    | with_reducible refine evolves_foldl (fun _ _ _ => ?_) ?_
    | split
theorem State.loadChannel_evolves {r : State} (ch : Nat) (s : State)
    (h : r.Evolves s) : r.Evolves (State.loadChannel ch s) := by
  unfold State.loadChannel
  try dsimp only
  repeat' first
    | with_reducible exact h
    | with_reducible apply State.useBus_evolves
    | with_reducible refine State.evolves_upMedia _ ?_ ?_
    | with_reducible exact fun _ _ _ k => k
    | with_reducible exact fun _ _ _ _ => Tab.sorted_nil
    | with_reducible exact fun _ _ _ k => Tab.sorted_put k
    | with_reducible exact fun _ _ _ k => Tab.sorted_erase k
    | with_reducible exact fun _ _ _ k => Tab.sorted_filter k
    | with_reducible exact fun _ _ _ k => Tab.sorted_filterKV k
    | (with_reducible intro b e q k); (with_reducible refine Tab.sorted_map (fun _ => ?_) k); repeat' first | rfl | split
    | with_reducible assumption
    | with_reducible refine evolves_ite (fun _ => ?_) (fun _ => ?_)
    | with_reducible refine evolves_foldl (fun _ _ _ => ?_) ?_
    | split
theorem State.nextClass_evolves {r : State} (point : Nat) (s : State) (cs : List Nat)
    (h : r.Evolves s) : EvolvesP r (State.nextClass point s cs) := by
  unfold State.nextClass
  try dsimp only
  repeat' first
    | with_reducible exact h
    | with_reducible refine State.evolves_upReg _ ?_
    | with_reducible assumption
    | with_reducible refine evolves_ite (fun _ => ?_) (fun _ => ?_)
    | with_reducible refine evolves_foldl (fun _ _ _ => ?_) ?_
    | with_reducible refine evolvesP_ite ?_ ?_
    | with_reducible refine evolvesP_foldl (fun _ _ _ => ?_) ?_
    | split
    | with_reducible refine EvolvesP.snd ?_
    | with_reducible refine evolvesP_mk ?_
    | with_reducible refine EvolvesP.out (by assumption) ?_
theorem State.takesBus_evolves {r : State} (m : Miss) (ch : Nat) (s : State)
    (h : r.Evolves s) : EvolvesO r (State.takesBus m ch s) := by
  unfold State.takesBus
  try dsimp only
  repeat' first
    | with_reducible exact h
    | with_reducible apply State.nextClass_evolves
    | with_reducible assumption
    | with_reducible refine evolves_ite (fun _ => ?_) (fun _ => ?_)
    | with_reducible refine evolves_foldl (fun _ _ _ => ?_) ?_
    | with_reducible exact evolvesO_get (by assumption)
    | with_reducible refine evolvesO_map (fun _ _ => ?_) ?_
    | with_reducible refine evolvesO_foldl (fun _ _ _ => ?_) ?_
    | exact evolvesO_none
    | with_reducible refine evolvesO_some ?_
    | with_reducible refine evolvesP_ite ?_ ?_
    | with_reducible refine evolvesP_foldl (fun _ _ _ => ?_) ?_
    | split
    | with_reducible refine EvolvesP.snd ?_
    | with_reducible refine evolvesP_mk ?_
    | with_reducible refine EvolvesP.out (by assumption) ?_
    | with_reducible refine EvolvesO.out (by assumption) ?_
theorem State.takeWord_evolves {r : State} (m : Miss) (ch : Nat) (s : State)
    (h : r.Evolves s) : EvolvesO r (State.takeWord m ch s) := by
  unfold State.takeWord
  try dsimp only
  repeat' first
    | with_reducible exact h
    | with_reducible apply State.takesBus_evolves
    | with_reducible apply State.useBus_evolves
    | with_reducible assumption
    | with_reducible refine evolves_ite (fun _ => ?_) (fun _ => ?_)
    | with_reducible refine evolves_foldl (fun _ _ _ => ?_) ?_
    | with_reducible exact evolvesO_get (by assumption)
    | with_reducible refine evolvesO_map (fun _ _ => ?_) ?_
    | with_reducible refine evolvesO_foldl (fun _ _ _ => ?_) ?_
    | exact evolvesO_none
    | with_reducible refine evolvesO_some ?_
    | split
    | with_reducible refine EvolvesO.out (by assumption) ?_
theorem State.wakeChannel_evolves {r : State} (ch : Nat) (s : State)
    (h : r.Evolves s) : r.Evolves (State.wakeChannel ch s) := by
  unfold State.wakeChannel
  try dsimp only
  repeat' first
    | with_reducible exact h
    | with_reducible refine State.evolves_upMedia _ ?_ ?_
    | with_reducible exact fun _ _ _ k => k
    | with_reducible exact fun _ _ _ _ => Tab.sorted_nil
    | with_reducible exact fun _ _ _ k => Tab.sorted_put k
    | with_reducible exact fun _ _ _ k => Tab.sorted_erase k
    | with_reducible exact fun _ _ _ k => Tab.sorted_filter k
    | with_reducible exact fun _ _ _ k => Tab.sorted_filterKV k
    | (with_reducible intro b e q k); (with_reducible refine Tab.sorted_map (fun _ => ?_) k); repeat' first | rfl | split
    | with_reducible assumption
    | with_reducible refine evolves_ite (fun _ => ?_) (fun _ => ?_)
    | with_reducible refine evolves_foldl (fun _ _ _ => ?_) ?_
    | split
theorem State.queueRead_evolves {r : State} (die : Nat) (s : State)
    (h : r.Evolves s) : r.Evolves (State.queueRead die s) := by
  unfold State.queueRead
  try dsimp only
  repeat' first
    | with_reducible exact h
    | with_reducible apply State.wakeChannel_evolves
    | with_reducible refine State.evolves_upMedia _ ?_ ?_
    | with_reducible exact fun _ _ _ k => k
    | with_reducible exact fun _ _ _ _ => Tab.sorted_nil
    | with_reducible exact fun _ _ _ k => Tab.sorted_put k
    | with_reducible exact fun _ _ _ k => Tab.sorted_erase k
    | with_reducible exact fun _ _ _ k => Tab.sorted_filter k
    | with_reducible exact fun _ _ _ k => Tab.sorted_filterKV k
    | (with_reducible intro b e q k); (with_reducible refine Tab.sorted_map (fun _ => ?_) k); repeat' first | rfl | split
    | with_reducible assumption
    | with_reducible refine evolves_ite (fun _ => ?_) (fun _ => ?_)
    | with_reducible refine evolves_foldl (fun _ _ _ => ?_) ?_
    | split
theorem State.serveDie_evolves {r : State} (id : Nat) (die : Nat) (s : State)
    (h : r.Evolves s) : r.Evolves (State.serveDie id die s) := by
  unfold State.serveDie
  try dsimp only
  repeat' first
    | with_reducible exact h
    | with_reducible apply State.loadChannel_evolves
    | with_reducible refine State.evolves_upMedia _ ?_ ?_
    | with_reducible exact fun _ _ _ k => k
    | with_reducible exact fun _ _ _ _ => Tab.sorted_nil
    | with_reducible exact fun _ _ _ k => Tab.sorted_put k
    | with_reducible exact fun _ _ _ k => Tab.sorted_erase k
    | with_reducible exact fun _ _ _ k => Tab.sorted_filter k
    | with_reducible exact fun _ _ _ k => Tab.sorted_filterKV k
    | (with_reducible intro b e q k); (with_reducible refine Tab.sorted_map (fun _ => ?_) k); repeat' first | rfl | split
    | with_reducible assumption
    | with_reducible refine evolves_ite (fun _ => ?_) (fun _ => ?_)
    | with_reducible refine evolves_foldl (fun _ _ _ => ?_) ?_
    | split
theorem State.serveDies_evolves {r : State} (id : Nat) (ds : List Nat) (s : State)
    (h : r.Evolves s) : r.Evolves (State.serveDies id ds s) := by
  unfold State.serveDies
  try dsimp only
  repeat' first
    | with_reducible exact h
    | with_reducible apply State.serveDie_evolves
    | with_reducible assumption
    | with_reducible refine evolves_ite (fun _ => ?_) (fun _ => ?_)
    | with_reducible refine evolves_foldl (fun _ _ _ => ?_) ?_
    | split
theorem State.setMiss_evolves {r : State} (m : Miss) (s : State)
    (h : r.Evolves s) : r.Evolves (State.setMiss m s) := by
  unfold State.setMiss
  try dsimp only
  repeat' first
    | with_reducible exact h
    | with_reducible refine State.evolves_upSlices _ ?_
    | with_reducible assumption
    | with_reducible refine evolves_ite (fun _ => ?_) (fun _ => ?_)
    | with_reducible refine evolves_foldl (fun _ _ _ => ?_) ?_
    | split
theorem State.stopReads_evolves {r : State} (m : Miss) (s : State)
    (h : r.Evolves s) : r.Evolves (State.stopReads m s) := by
  unfold State.stopReads
  try dsimp only
  repeat' first
    | with_reducible exact h
    | with_reducible apply State.serveDies_evolves
    | with_reducible refine State.evolves_upReg _ ?_
    | with_reducible assumption
    | with_reducible refine evolves_ite (fun _ => ?_) (fun _ => ?_)
    | with_reducible refine evolves_foldl (fun _ _ _ => ?_) ?_
    | split
theorem State.dropMiss_evolves {r : State} (m : Miss) (s : State)
    (h : r.Evolves s) : r.Evolves (State.dropMiss m s) := by
  unfold State.dropMiss
  try dsimp only
  repeat' first
    | with_reducible exact h
    | with_reducible apply State.stopReads_evolves
    | with_reducible refine State.evolves_upSlices _ ?_
    | with_reducible assumption
    | with_reducible refine evolves_ite (fun _ => ?_) (fun _ => ?_)
    | with_reducible refine evolves_foldl (fun _ _ _ => ?_) ?_
    | split
theorem State.overwritten_evolves {r : State} (line : Nat) (s : State)
    (h : r.Evolves s) : r.Evolves (State.overwritten line s) := by
  unfold State.overwritten
  try dsimp only
  repeat' first
    | with_reducible exact h
    | with_reducible refine State.evolves_upSlices _ ?_
    | with_reducible assumption
    | with_reducible refine evolves_ite (fun _ => ?_) (fun _ => ?_)
    | with_reducible refine evolves_foldl (fun _ _ _ => ?_) ?_
    | split
theorem State.overwrittenGrain_evolves {r : State} (g : Nat) (s : State)
    (h : r.Evolves s) : r.Evolves (State.overwrittenGrain g s) := by
  unfold State.overwrittenGrain
  try dsimp only
  repeat' first
    | with_reducible exact h
    | with_reducible refine State.evolves_upSlices _ ?_
    | with_reducible assumption
    | with_reducible refine evolves_ite (fun _ => ?_) (fun _ => ?_)
    | with_reducible refine evolves_foldl (fun _ _ _ => ?_) ?_
    | split
theorem State.countDirect_evolves {r : State} (m : Miss) (s : State)
    (h : r.Evolves s) : r.Evolves (State.countDirect m s) := by
  unfold State.countDirect
  try dsimp only
  repeat' first
    | with_reducible exact h
    | with_reducible apply State.count_evolves
    | with_reducible apply State.queueRead_evolves
    | with_reducible refine State.evolves_upRstats _ ?_
    | with_reducible assumption
    | with_reducible refine evolves_ite (fun _ => ?_) (fun _ => ?_)
    | with_reducible refine evolves_foldl (fun _ _ _ => ?_) ?_
    | split
theorem State.countPeers_evolves {r : State} (m : Miss) (s : State)
    (h : r.Evolves s) : r.Evolves (State.countPeers m s) := by
  unfold State.countPeers
  try dsimp only
  repeat' first
    | with_reducible exact h
    | with_reducible apply State.count_evolves
    | with_reducible apply State.queueRead_evolves
    | with_reducible assumption
    | with_reducible refine evolves_ite (fun _ => ?_) (fun _ => ?_)
    | with_reducible refine evolves_foldl (fun _ _ _ => ?_) ?_
    | split
theorem State.busyRecon_evolves {r : State} (m : Miss) (s : State)
    (h : r.Evolves s) : r.Evolves (State.busyRecon m s) := by
  unfold State.busyRecon
  try dsimp only
  repeat' first
    | with_reducible exact h
    | with_reducible apply State.countPeers_evolves
    | with_reducible refine State.evolves_upRstats _ ?_
    | with_reducible assumption
    | with_reducible refine evolves_ite (fun _ => ?_) (fun _ => ?_)
    | with_reducible refine evolves_foldl (fun _ _ _ => ?_) ?_
    | split
theorem State.issueRead_evolves {r : State} (m0 : Miss) (s : State)
    (h : r.Evolves s) : EvolvesP r (State.issueRead m0 s) := by
  unfold State.issueRead
  try dsimp only
  repeat' first
    | with_reducible exact h
    | with_reducible apply State.busyRecon_evolves
    | with_reducible apply State.countDirect_evolves
    | with_reducible apply State.queueRead_evolves
    | with_reducible assumption
    | with_reducible refine evolves_ite (fun _ => ?_) (fun _ => ?_)
    | with_reducible refine evolves_foldl (fun _ _ _ => ?_) ?_
    | with_reducible refine evolvesP_ite ?_ ?_
    | with_reducible refine evolvesP_foldl (fun _ _ _ => ?_) ?_
    | split
    | with_reducible refine EvolvesP.snd ?_
    | with_reducible refine evolvesP_mk ?_
    | with_reducible refine EvolvesP.out (by assumption) ?_
theorem State.mapTouch_evolves {r : State} (line : Nat) (s : State)
    (h : r.Evolves s) : r.Evolves (State.mapTouch line s) := by
  unfold State.mapTouch
  try dsimp only
  repeat' first
    | with_reducible exact h
    | with_reducible refine State.evolves_upSlices _ ?_
    | with_reducible assumption
    | with_reducible refine evolves_ite (fun _ => ?_) (fun _ => ?_)
    | with_reducible refine evolves_foldl (fun _ _ _ => ?_) ?_
    | split
theorem State.sendWord_evolves {r : State} (m : Miss) (s : State)
    (h : r.Evolves s) : r.Evolves (State.sendWord m s) := by
  unfold State.sendWord
  try dsimp only
  repeat' first
    | with_reducible exact h
    | with_reducible apply State.count_evolves
    | with_reducible apply State.issueRead_evolves
    | with_reducible apply State.setMiss_evolves
    | with_reducible assumption
    | with_reducible refine evolves_ite (fun _ => ?_) (fun _ => ?_)
    | with_reducible refine evolves_foldl (fun _ _ _ => ?_) ?_
    | with_reducible refine evolvesP_ite ?_ ?_
    | with_reducible refine evolvesP_foldl (fun _ _ _ => ?_) ?_
    | split
    | with_reducible refine EvolvesP.snd ?_
    | with_reducible refine evolvesP_mk ?_
    | with_reducible refine EvolvesP.out (by assumption) ?_
theorem State.addMiss_evolves {r : State} (m : Miss) (s : State)
    (h : r.Evolves s) : r.Evolves (State.addMiss m s) := by
  unfold State.addMiss
  try dsimp only
  repeat' first
    | with_reducible exact h
    | with_reducible refine State.evolves_upSlices _ ?_
    | with_reducible assumption
    | with_reducible refine evolves_ite (fun _ => ?_) (fun _ => ?_)
    | with_reducible refine evolves_foldl (fun _ _ _ => ?_) ?_
    | split
theorem State.addPart_evolves {r : State} (m : Miss) (w : Nat × Nat) (s : State)
    (h : r.Evolves s) : r.Evolves (State.addPart m w s) := by
  unfold State.addPart
  try dsimp only
  repeat' first
    | with_reducible exact h
    | with_reducible apply State.addMiss_evolves
    | with_reducible apply State.sendWord_evolves
    | with_reducible assumption
    | with_reducible refine evolves_ite (fun _ => ?_) (fun _ => ?_)
    | with_reducible refine evolves_foldl (fun _ _ _ => ?_) ?_
    | split
theorem State.lookUp_evolves {r : State} (m : Miss) (s0 : State)
    (h : r.Evolves s0) : r.Evolves (State.lookUp m s0) := by
  unfold State.lookUp
  try dsimp only
  repeat' first
    | with_reducible exact h
    | with_reducible apply State.addPart_evolves
    | with_reducible apply State.mapTouch_evolves
    | with_reducible apply State.sendWord_evolves
    | with_reducible assumption
    | with_reducible refine evolves_ite (fun _ => ?_) (fun _ => ?_)
    | with_reducible refine evolves_foldl (fun _ _ _ => ?_) ?_
    | split
theorem State.startFetch_evolves {r : State} (line : Nat) (kind : MissKind) (cls : Nat) (policy : Nat) (pastShare : Bool) (s : State)
    (h : r.Evolves s) : r.Evolves (State.startFetch line kind cls policy pastShare s) := by
  unfold State.startFetch
  try dsimp only
  repeat' first
    | with_reducible exact h
    | with_reducible apply State.addMiss_evolves
    | with_reducible apply State.lookUp_evolves
    | with_reducible assumption
    | with_reducible refine evolves_ite (fun _ => ?_) (fun _ => ?_)
    | with_reducible refine evolves_foldl (fun _ _ _ => ?_) ?_
    | split

end Sys2Proof.Machine
end

