-- ==== Sys2Proof/Laws/EvolvesCache.lean ====
section
/-!
SUPPORT. How the operations of Machine/Cache.lean let the state evolve.
-/
namespace Sys2Proof.Machine

theorem State.fcTouch_evolves {r : State} (line : Nat) (s : State)
    (h : r.Evolves s) : r.Evolves (State.fcTouch line s) := by
  unfold State.fcTouch
  try dsimp only
  repeat' first
    | with_reducible exact h
    | with_reducible refine State.evolves_upFc _ ?_ ?_
    | with_reducible exact fun _ _ _ k => k
    | with_reducible exact fun _ _ _ _ => Tab.sorted_nil
    | with_reducible exact fun _ _ _ k => Tab.sorted_put k
    | with_reducible exact fun _ _ _ k => Tab.sorted_erase k
    | with_reducible exact fun _ _ _ k => Tab.sorted_filter k
    | with_reducible exact fun _ _ _ k => Tab.sorted_filterKV k
    | (with_reducible intro b e q k); (with_reducible refine Tab.sorted_map (fun _ => ?_) k); repeat' first | rfl | split
    | with_reducible assumption
    | with_reducible refine evolves_ite (fun _ => ?_) (fun _ => ?_)
    | with_reducible refine evolves_foldl (fun _ _ _ => ?_) ?_
    | split
theorem State.fcDrop_evolves {r : State} (line : Nat) (s : State)
    (h : r.Evolves s) : r.Evolves (State.fcDrop line s) := by
  unfold State.fcDrop
  try dsimp only
  repeat' first
    | with_reducible exact h
    | with_reducible refine State.evolves_upFc _ ?_ ?_
    | with_reducible exact fun _ _ _ k => k
    | with_reducible exact fun _ _ _ _ => Tab.sorted_nil
    | with_reducible exact fun _ _ _ k => Tab.sorted_put k
    | with_reducible exact fun _ _ _ k => Tab.sorted_erase k
    | with_reducible exact fun _ _ _ k => Tab.sorted_filter k
    | with_reducible exact fun _ _ _ k => Tab.sorted_filterKV k
    | (with_reducible intro b e q k); (with_reducible refine Tab.sorted_map (fun _ => ?_) k); repeat' first | rfl | split
    | with_reducible assumption
    | with_reducible refine evolves_ite (fun _ => ?_) (fun _ => ?_)
    | with_reducible refine evolves_foldl (fun _ _ _ => ?_) ?_
    | split
theorem State.fcPut_evolves {r : State} (line : Nat) (x : FcLine) (s : State)
    (h : r.Evolves s) : r.Evolves (State.fcPut line x s) := by
  unfold State.fcPut
  try dsimp only
  repeat' first
    | with_reducible exact h
    | with_reducible refine State.evolves_upFc _ ?_ ?_
    | with_reducible exact fun _ _ _ k => k
    | with_reducible exact fun _ _ _ _ => Tab.sorted_nil
    | with_reducible exact fun _ _ _ k => Tab.sorted_put k
    | with_reducible exact fun _ _ _ k => Tab.sorted_erase k
    | with_reducible exact fun _ _ _ k => Tab.sorted_filter k
    | with_reducible exact fun _ _ _ k => Tab.sorted_filterKV k
    | (with_reducible intro b e q k); (with_reducible refine Tab.sorted_map (fun _ => ?_) k); repeat' first | rfl | split
    | with_reducible assumption
    | with_reducible refine evolves_ite (fun _ => ?_) (fun _ => ?_)
    | with_reducible refine evolves_foldl (fun _ _ _ => ?_) ?_
    | split
theorem State.tierTouch_evolves {r : State} (sec : Nat) (s : State)
    (h : r.Evolves s) : r.Evolves (State.tierTouch sec s) := by
  unfold State.tierTouch
  try dsimp only
  repeat' first
    | with_reducible exact h
    | with_reducible refine State.evolves_upTier _ ?_ ?_
    | with_reducible exact fun _ _ _ k => k
    | with_reducible exact fun _ _ _ _ => Tab.sorted_nil
    | with_reducible exact fun _ _ _ k => Tab.sorted_put k
    | with_reducible exact fun _ _ _ k => Tab.sorted_erase k
    | with_reducible exact fun _ _ _ k => Tab.sorted_filter k
    | with_reducible exact fun _ _ _ k => Tab.sorted_filterKV k
    | (with_reducible intro b e q k); (with_reducible refine Tab.sorted_map (fun _ => ?_) k); repeat' first | rfl | split
    | with_reducible assumption
    | with_reducible refine evolves_ite (fun _ => ?_) (fun _ => ?_)
    | with_reducible refine evolves_foldl (fun _ _ _ => ?_) ?_
    | split
theorem State.putSector_evolves {r : State} (sec : Nat) (x : Sector) (s : State)
    (h : r.Evolves s) : r.Evolves (State.putSector sec x s) := by
  unfold State.putSector
  try dsimp only
  repeat' first
    | with_reducible exact h
    | with_reducible refine State.evolves_upTier _ ?_ ?_
    | with_reducible exact fun _ _ _ k => k
    | with_reducible exact fun _ _ _ _ => Tab.sorted_nil
    | with_reducible exact fun _ _ _ k => Tab.sorted_put k
    | with_reducible exact fun _ _ _ k => Tab.sorted_erase k
    | with_reducible exact fun _ _ _ k => Tab.sorted_filter k
    | with_reducible exact fun _ _ _ k => Tab.sorted_filterKV k
    | (with_reducible intro b e q k); (with_reducible refine Tab.sorted_map (fun _ => ?_) k); repeat' first | rfl | split
    | with_reducible assumption
    | with_reducible refine evolves_ite (fun _ => ?_) (fun _ => ?_)
    | with_reducible refine evolves_foldl (fun _ _ _ => ?_) ?_
    | split
theorem State.dropSector_evolves {r : State} (sec : Nat) (s : State)
    (h : r.Evolves s) : r.Evolves (State.dropSector sec s) := by
  unfold State.dropSector
  try dsimp only
  repeat' first
    | with_reducible exact h
    | with_reducible refine State.evolves_upTier _ ?_ ?_
    | with_reducible exact fun _ _ _ k => k
    | with_reducible exact fun _ _ _ _ => Tab.sorted_nil
    | with_reducible exact fun _ _ _ k => Tab.sorted_put k
    | with_reducible exact fun _ _ _ k => Tab.sorted_erase k
    | with_reducible exact fun _ _ _ k => Tab.sorted_filter k
    | with_reducible exact fun _ _ _ k => Tab.sorted_filterKV k
    | (with_reducible intro b e q k); (with_reducible refine Tab.sorted_map (fun _ => ?_) k); repeat' first | rfl | split
    | with_reducible assumption
    | with_reducible refine evolves_ite (fun _ => ?_) (fun _ => ?_)
    | with_reducible refine evolves_foldl (fun _ _ _ => ?_) ?_
    | split
theorem State.tierAlloc_evolves {r : State} (sec : Nat) (x : Sector) (s : State)
    (h : r.Evolves s) : EvolvesO r (State.tierAlloc sec x s) := by
  unfold State.tierAlloc
  try dsimp only
  repeat' first
    | with_reducible exact h
    | with_reducible apply State.dropSector_evolves
    | with_reducible apply State.putSector_evolves
    | with_reducible apply State.tierTouch_evolves
    | with_reducible assumption
    | with_reducible refine evolves_ite (fun _ => ?_) (fun _ => ?_)
    | with_reducible refine evolves_foldl (fun _ _ _ => ?_) ?_
    | with_reducible exact evolvesO_get (by assumption)
    | with_reducible refine evolvesO_map (fun _ _ => ?_) ?_
    | with_reducible refine evolvesO_foldl (fun _ _ _ => ?_) ?_
    | exact evolvesO_none
    | with_reducible refine evolvesO_some ?_
    | split
    | with_reducible refine EvolvesO.out (by assumption) ?_
theorem State.queueWb_evolves {r : State} (g : Nat) (prio : Nat) (s : State)
    (h : r.Evolves s) : r.Evolves (State.queueWb g prio s) := by
  unfold State.queueWb
  try dsimp only
  repeat' first
    | with_reducible exact h
    | with_reducible refine State.evolves_upBudget _ ?_ ?_
    | with_reducible exact fun _ _ _ k => k
    | with_reducible exact fun _ _ _ _ => Tab.sorted_nil
    | with_reducible exact fun _ _ _ k => Tab.sorted_put k
    | with_reducible exact fun _ _ _ k => Tab.sorted_erase k
    | with_reducible exact fun _ _ _ k => Tab.sorted_filter k
    | with_reducible exact fun _ _ _ k => Tab.sorted_filterKV k
    | (with_reducible intro b e q k); (with_reducible refine Tab.sorted_map (fun _ => ?_) k); repeat' first | rfl | split
    | with_reducible assumption
    | with_reducible refine evolves_ite (fun _ => ?_) (fun _ => ?_)
    | with_reducible refine evolves_foldl (fun _ _ _ => ?_) ?_
    | split
theorem State.pressSet_evolves {r : State} (sec : Nat) (s : State)
    (h : r.Evolves s) : r.Evolves (State.pressSet sec s) := by
  unfold State.pressSet
  try dsimp only
  repeat' first
    | with_reducible exact h
    | with_reducible apply State.queueWb_evolves
    | with_reducible assumption
    | with_reducible refine evolves_ite (fun _ => ?_) (fun _ => ?_)
    | with_reducible refine evolves_foldl (fun _ _ _ => ?_) ?_
    | split
theorem State.countMerge_evolves {r : State} (lost : Bool) (s : State)
    (h : r.Evolves s) : r.Evolves (State.countMerge lost s) := by
  unfold State.countMerge
  try dsimp only
  repeat' first
    | with_reducible exact h
    | with_reducible refine State.evolves_upBudget _ ?_ ?_
    | with_reducible exact fun _ _ _ k => k
    | with_reducible exact fun _ _ _ _ => Tab.sorted_nil
    | with_reducible exact fun _ _ _ k => Tab.sorted_put k
    | with_reducible exact fun _ _ _ k => Tab.sorted_erase k
    | with_reducible exact fun _ _ _ k => Tab.sorted_filter k
    | with_reducible exact fun _ _ _ k => Tab.sorted_filterKV k
    | (with_reducible intro b e q k); (with_reducible refine Tab.sorted_map (fun _ => ?_) k); repeat' first | rfl | split
    | with_reducible assumption
    | with_reducible refine evolves_ite (fun _ => ?_) (fun _ => ?_)
    | with_reducible refine evolves_foldl (fun _ _ _ => ?_) ?_
    | split
theorem State.wakeLine_evolves {r : State} (line : Nat) (s : State)
    (h : r.Evolves s) : r.Evolves (State.wakeLine line s) := by
  unfold State.wakeLine
  try dsimp only
  repeat' first
    | with_reducible exact h
    | with_reducible refine State.evolves_upReqs _ ?_
    | with_reducible assumption
    | with_reducible refine evolves_ite (fun _ => ?_) (fun _ => ?_)
    | with_reducible refine evolves_foldl (fun _ _ _ => ?_) ?_
    | split
theorem State.wakeSector_evolves {r : State} (sec : Nat) (s : State)
    (h : r.Evolves s) : r.Evolves (State.wakeSector sec s) := by
  unfold State.wakeSector
  try dsimp only
  repeat' first
    | with_reducible exact h
    | with_reducible refine State.evolves_upReqs _ ?_
    | with_reducible assumption
    | with_reducible refine evolves_ite (fun _ => ?_) (fun _ => ?_)
    | with_reducible refine evolves_foldl (fun _ _ _ => ?_) ?_
    | split
theorem State.fillSector_evolves {r : State} (sec : Nat) (s : State)
    (h : r.Evolves s) : r.Evolves (State.fillSector sec s) := by
  unfold State.fillSector
  try dsimp only
  repeat' first
    | with_reducible exact h
    | with_reducible apply State.countMerge_evolves
    | with_reducible apply State.putSector_evolves
    | with_reducible apply State.wakeSector_evolves
    | with_reducible assumption
    | with_reducible refine evolves_ite (fun _ => ?_) (fun _ => ?_)
    | with_reducible refine evolves_foldl (fun _ _ _ => ?_) ?_
    | split
theorem State.issueFill_evolves {r : State} (sec : Nat) (s : State)
    (h : r.Evolves s) : r.Evolves (State.issueFill sec s) := by
  unfold State.issueFill
  try dsimp only
  repeat' first
    | with_reducible exact h
    | with_reducible apply State.dropMiss_evolves
    | with_reducible apply State.fillSector_evolves
    | with_reducible apply State.startFetch_evolves
    | with_reducible assumption
    | with_reducible refine evolves_ite (fun _ => ?_) (fun _ => ?_)
    | with_reducible refine evolves_foldl (fun _ _ _ => ?_) ?_
    | split
theorem State.startBase_evolves {r : State} (line : Nat) (s : State)
    (h : r.Evolves s) : r.Evolves (State.startBase line s) := by
  unfold State.startBase
  try dsimp only
  repeat' first
    | with_reducible exact h
    | with_reducible apply State.startFetch_evolves
    | with_reducible assumption
    | with_reducible refine evolves_ite (fun _ => ?_) (fun _ => ?_)
    | with_reducible refine evolves_foldl (fun _ _ _ => ?_) ?_
    | split
theorem State.dramWrote_evolves {r : State} (sec : Nat) (n : Nat) (s : State)
    (h : r.Evolves s) : r.Evolves (State.dramWrote sec n s) := by
  unfold State.dramWrote
  try dsimp only
  repeat' first
    | with_reducible exact h
    | with_reducible apply State.count_evolves
    | with_reducible assumption
    | with_reducible refine evolves_ite (fun _ => ?_) (fun _ => ?_)
    | with_reducible refine evolves_foldl (fun _ _ _ => ?_) ?_
    | split
theorem State.tierWrite_evolves {r : State} (line : Nat) (d : Line) (st : TSt) (m : Mask) (s : State)
    (h : r.Evolves s) : EvolvesO r (State.tierWrite line d st m s) := by
  unfold State.tierWrite
  try dsimp only
  repeat' first
    | with_reducible exact h
    | with_reducible apply State.dramWrote_evolves
    | with_reducible apply State.issueFill_evolves
    | with_reducible apply State.putSector_evolves
    | with_reducible apply State.tierAlloc_evolves
    | with_reducible apply State.tierTouch_evolves
    | with_reducible assumption
    | with_reducible refine evolves_ite (fun _ => ?_) (fun _ => ?_)
    | with_reducible refine evolves_foldl (fun _ _ _ => ?_) ?_
    | with_reducible exact evolvesO_get (by assumption)
    | with_reducible refine evolvesO_map (fun _ _ => ?_) ?_
    | with_reducible refine evolvesO_foldl (fun _ _ _ => ?_) ?_
    | exact evolvesO_none
    | with_reducible refine evolvesO_some ?_
    | split
    | with_reducible refine EvolvesO.out (by assumption) ?_
theorem State.moveToTier_evolves {r : State} (line : Nat) (x : FcLine) (s : State)
    (h : r.Evolves s) : EvolvesO r (State.moveToTier line x s) := by
  unfold State.moveToTier
  try dsimp only
  repeat' first
    | with_reducible exact h
    | with_reducible apply State.countMerge_evolves
    | with_reducible apply State.fcDrop_evolves
    | with_reducible apply State.tierWrite_evolves
    | with_reducible apply State.wakeLine_evolves
    | with_reducible assumption
    | with_reducible refine evolves_ite (fun _ => ?_) (fun _ => ?_)
    | with_reducible refine evolves_foldl (fun _ _ _ => ?_) ?_
    | with_reducible exact evolvesO_get (by assumption)
    | with_reducible refine evolvesO_map (fun _ _ => ?_) ?_
    | with_reducible refine evolvesO_foldl (fun _ _ _ => ?_) ?_
    | exact evolvesO_none
    | with_reducible refine evolvesO_some ?_
    | split
    | with_reducible refine EvolvesO.out (by assumption) ?_
theorem State.fcTry_evolves {r : State} (x0 : Nat) (x1 : FcSt) (x2 : Line) (x3 : Mask) (x4 : Nat) (x5 : State)
    (h : r.Evolves x5) : EvolvesP r (State.fcTry x0 x1 x2 x3 x4 x5) := by
  induction x4 generalizing x5 with
  | zero => unfold State.fcTry; first | exact h | exact evolvesP_mk h
  | succ n ih =>
    unfold State.fcTry
    try dsimp only
    repeat' first
      | with_reducible exact h
      | with_reducible apply State.fcPut_evolves
      | with_reducible apply State.fcTouch_evolves
      | with_reducible apply State.moveToTier_evolves
      | with_reducible apply State.pressSet_evolves
      | with_reducible refine ih _ ?_
      | with_reducible assumption
      | with_reducible refine evolves_ite (fun _ => ?_) (fun _ => ?_)
      | with_reducible refine evolves_foldl (fun _ _ _ => ?_) ?_
      | with_reducible exact evolvesO_get (by assumption)
      | with_reducible refine evolvesO_map (fun _ _ => ?_) ?_
      | with_reducible refine evolvesO_foldl (fun _ _ _ => ?_) ?_
      | exact evolvesO_none
      | with_reducible refine evolvesO_some ?_
      | with_reducible refine evolvesP_ite ?_ ?_
      | with_reducible refine evolvesP_foldl (fun _ _ _ => ?_) ?_
      | split
      | with_reducible refine EvolvesP.snd ?_
      | with_reducible refine evolvesP_mk ?_
      | with_reducible refine EvolvesP.out (by assumption) ?_
      | with_reducible refine EvolvesO.out (by assumption) ?_
theorem State.fcAlloc_evolves {r : State} (line : Nat) (st : FcSt) (d : Line) (m : Mask) (s : State)
    (h : r.Evolves s) : EvolvesP r (State.fcAlloc line st d m s) := by
  unfold State.fcAlloc
  try dsimp only
  repeat' first
    | with_reducible exact h
    | with_reducible apply State.fcTry_evolves
    | with_reducible assumption
    | with_reducible refine evolves_ite (fun _ => ?_) (fun _ => ?_)
    | with_reducible refine evolves_foldl (fun _ _ _ => ?_) ?_
    | with_reducible refine evolvesP_ite ?_ ?_
    | with_reducible refine evolvesP_foldl (fun _ _ _ => ?_) ?_
    | split
    | with_reducible refine EvolvesP.snd ?_
    | with_reducible refine evolvesP_mk ?_
    | with_reducible refine EvolvesP.out (by assumption) ?_
theorem State.fcUpdate_evolves {r : State} (line : Nat) (d : Line) (s : State)
    (h : r.Evolves s) : r.Evolves (State.fcUpdate line d s) := by
  unfold State.fcUpdate
  try dsimp only
  repeat' first
    | with_reducible exact h
    | with_reducible apply State.fcPut_evolves
    | with_reducible assumption
    | with_reducible refine evolves_ite (fun _ => ?_) (fun _ => ?_)
    | with_reducible refine evolves_foldl (fun _ _ _ => ?_) ?_
    | split
theorem State.staleCopy_evolves {r : State} (line : Nat) (s : State)
    (h : r.Evolves s) : r.Evolves (State.staleCopy line s) := by
  unfold State.staleCopy
  try dsimp only
  repeat' first
    | with_reducible exact h
    | with_reducible apply State.putSector_evolves
    | with_reducible assumption
    | with_reducible refine evolves_ite (fun _ => ?_) (fun _ => ?_)
    | with_reducible refine evolves_foldl (fun _ _ _ => ?_) ?_
    | split
theorem State.cancelMerge_evolves {r : State} (line : Nat) (d : Line) (s : State)
    (h : r.Evolves s) : r.Evolves (State.cancelMerge line d s) := by
  unfold State.cancelMerge
  try dsimp only
  repeat' first
    | with_reducible exact h
    | with_reducible apply State.putSector_evolves
    | with_reducible assumption
    | with_reducible refine evolves_ite (fun _ => ?_) (fun _ => ?_)
    | with_reducible refine evolves_foldl (fun _ _ _ => ?_) ?_
    | split
theorem State.pullMerge_evolves {r : State} (line : Nat) (s : State)
    (h : r.Evolves s) : r.Evolves (State.pullMerge line s) := by
  unfold State.pullMerge
  try dsimp only
  repeat' first
    | with_reducible exact h
    | with_reducible apply State.fcPut_evolves
    | with_reducible apply State.putSector_evolves
    | with_reducible assumption
    | with_reducible refine evolves_ite (fun _ => ?_) (fun _ => ?_)
    | with_reducible refine evolves_foldl (fun _ _ _ => ?_) ?_
    | split
theorem State.writeThrough_evolves {r : State} (line : Nat) (d : Line) (p : Nat) (s : State)
    (h : r.Evolves s) : EvolvesO r (State.writeThrough line d p s) := by
  unfold State.writeThrough
  try dsimp only
  repeat' first
    | with_reducible exact h
    | with_reducible apply State.fcAlloc_evolves
    | with_reducible apply State.fcPut_evolves
    | with_reducible apply State.tierWrite_evolves
    | with_reducible assumption
    | with_reducible refine evolves_ite (fun _ => ?_) (fun _ => ?_)
    | with_reducible refine evolves_foldl (fun _ _ _ => ?_) ?_
    | with_reducible exact evolvesO_get (by assumption)
    | with_reducible refine evolvesO_map (fun _ _ => ?_) ?_
    | with_reducible refine evolvesO_foldl (fun _ _ _ => ?_) ?_
    | exact evolvesO_none
    | with_reducible refine evolvesO_some ?_
    | with_reducible refine evolvesP_ite ?_ ?_
    | with_reducible refine evolvesP_foldl (fun _ _ _ => ?_) ?_
    | split
    | with_reducible refine EvolvesP.snd ?_
    | with_reducible refine evolvesP_mk ?_
    | with_reducible refine EvolvesP.out (by assumption) ?_
    | with_reducible refine EvolvesO.out (by assumption) ?_
theorem State.partialThrough_evolves {r : State} (line : Nat) (d : Line) (m : Mask) (p : Nat) (s : State)
    (h : r.Evolves s) : EvolvesO r (State.partialThrough line d m p s) := by
  unfold State.partialThrough
  try dsimp only
  repeat' first
    | with_reducible exact h
    | with_reducible apply State.fcPut_evolves
    | with_reducible apply State.tierWrite_evolves
    | with_reducible apply State.writeThrough_evolves
    | with_reducible assumption
    | with_reducible refine evolves_ite (fun _ => ?_) (fun _ => ?_)
    | with_reducible refine evolves_foldl (fun _ _ _ => ?_) ?_
    | with_reducible exact evolvesO_get (by assumption)
    | with_reducible refine evolvesO_map (fun _ _ => ?_) ?_
    | with_reducible refine evolvesO_foldl (fun _ _ _ => ?_) ?_
    | exact evolvesO_none
    | with_reducible refine evolvesO_some ?_
    | split
    | with_reducible refine EvolvesO.out (by assumption) ?_
theorem State.writeFull_evolves {r : State} (line : Nat) (d : Line) (policy : Nat) (s : State)
    (h : r.Evolves s) : EvolvesO r (State.writeFull line d policy s) := by
  unfold State.writeFull
  try dsimp only
  repeat' first
    | with_reducible exact h
    | with_reducible apply State.cancelMerge_evolves
    | with_reducible apply State.fcAlloc_evolves
    | with_reducible apply State.fcPut_evolves
    | with_reducible apply State.fcTouch_evolves
    | with_reducible apply State.staleCopy_evolves
    | with_reducible apply State.writeThrough_evolves
    | with_reducible assumption
    | with_reducible refine evolves_ite (fun _ => ?_) (fun _ => ?_)
    | with_reducible refine evolves_foldl (fun _ _ _ => ?_) ?_
    | with_reducible exact evolvesO_get (by assumption)
    | with_reducible refine evolvesO_map (fun _ _ => ?_) ?_
    | with_reducible refine evolvesO_foldl (fun _ _ _ => ?_) ?_
    | exact evolvesO_none
    | with_reducible refine evolvesO_some ?_
    | with_reducible refine evolvesP_ite ?_ ?_
    | with_reducible refine evolvesP_foldl (fun _ _ _ => ?_) ?_
    | split
    | with_reducible refine EvolvesP.snd ?_
    | with_reducible refine evolvesP_mk ?_
    | with_reducible refine EvolvesP.out (by assumption) ?_
    | with_reducible refine EvolvesO.out (by assumption) ?_
theorem State.writePartial_evolves {r : State} (line : Nat) (d : Line) (m : Mask) (policy : Nat) (s : State)
    (h : r.Evolves s) : EvolvesO r (State.writePartial line d m policy s) := by
  unfold State.writePartial
  try dsimp only
  repeat' first
    | with_reducible exact h
    | with_reducible apply State.fcAlloc_evolves
    | with_reducible apply State.fcPut_evolves
    | with_reducible apply State.fcTouch_evolves
    | with_reducible apply State.partialThrough_evolves
    | with_reducible apply State.pullMerge_evolves
    | with_reducible apply State.staleCopy_evolves
    | with_reducible apply State.startBase_evolves
    | with_reducible assumption
    | with_reducible refine evolves_ite (fun _ => ?_) (fun _ => ?_)
    | with_reducible refine evolves_foldl (fun _ _ _ => ?_) ?_
    | with_reducible exact evolvesO_get (by assumption)
    | with_reducible refine evolvesO_map (fun _ _ => ?_) ?_
    | with_reducible refine evolvesO_foldl (fun _ _ _ => ?_) ?_
    | exact evolvesO_none
    | with_reducible refine evolvesO_some ?_
    | with_reducible refine evolvesP_ite ?_ ?_
    | with_reducible refine evolvesP_foldl (fun _ _ _ => ?_) ?_
    | split
    | with_reducible refine EvolvesP.snd ?_
    | with_reducible refine evolvesP_mk ?_
    | with_reducible refine EvolvesP.out (by assumption) ?_
    | with_reducible refine EvolvesO.out (by assumption) ?_
theorem State.applyWrite_evolves {r : State} (line : Nat) (d : Line) (m : Mask) (poison : Bool) (policy : Nat) (s : State)
    (h : r.Evolves s) : EvolvesO r (State.applyWrite line d m poison policy s) := by
  unfold State.applyWrite
  try dsimp only
  repeat' first
    | with_reducible exact h
    | with_reducible apply State.intervene_evolves
    | with_reducible apply State.markSole_evolves
    | with_reducible apply State.overwritten_evolves
    | with_reducible apply State.poison_evolves
    | with_reducible apply State.unpoison_evolves
    | with_reducible apply State.wakeLine_evolves
    | with_reducible apply State.writeFull_evolves
    | with_reducible apply State.writePartial_evolves
    | with_reducible assumption
    | with_reducible refine evolves_ite (fun _ => ?_) (fun _ => ?_)
    | with_reducible refine evolves_foldl (fun _ _ _ => ?_) ?_
    | with_reducible exact evolvesO_get (by assumption)
    | with_reducible refine evolvesO_map (fun _ _ => ?_) ?_
    | with_reducible refine evolvesO_foldl (fun _ _ _ => ?_) ?_
    | exact evolvesO_none
    | with_reducible refine evolvesO_some ?_
    | split
    | with_reducible refine EvolvesO.out (by assumption) ?_
theorem State.chargeFor_evolves {r : State} (line : Nat) (s : State)
    (h : r.Evolves s) : r.Evolves (State.chargeFor line s) := by
  unfold State.chargeFor
  try dsimp only
  repeat' first
    | with_reducible exact h
    | with_reducible apply State.charge_evolves
    | with_reducible assumption
    | with_reducible refine evolves_ite (fun _ => ?_) (fun _ => ?_)
    | with_reducible refine evolves_foldl (fun _ _ _ => ?_) ?_
    | split
theorem State.fcFill_evolves {r : State} (line : Nat) (d : Line) (policy : Nat) (s : State)
    (h : r.Evolves s) : r.Evolves (State.fcFill line d policy s) := by
  unfold State.fcFill
  try dsimp only
  repeat' first
    | with_reducible exact h
    | with_reducible apply State.fcAlloc_evolves
    | with_reducible assumption
    | with_reducible refine evolves_ite (fun _ => ?_) (fun _ => ?_)
    | with_reducible refine evolves_foldl (fun _ _ _ => ?_) ?_
    | with_reducible refine evolvesP_ite ?_ ?_
    | with_reducible refine evolvesP_foldl (fun _ _ _ => ?_) ?_
    | split
    | with_reducible refine EvolvesP.snd ?_
    | with_reducible refine evolvesP_mk ?_
    | with_reducible refine EvolvesP.out (by assumption) ?_
theorem State.tierFill_evolves {r : State} (sec : Nat) (pf : Bool) (s : State)
    (h : r.Evolves s) : r.Evolves (State.tierFill sec pf s) := by
  unfold State.tierFill
  try dsimp only
  repeat' first
    | with_reducible exact h
    | with_reducible apply State.dramWrote_evolves
    | with_reducible apply State.fillSector_evolves
    | with_reducible apply State.tierAlloc_evolves
    | with_reducible refine State.evolves_upTier _ ?_ ?_
    | with_reducible exact fun _ _ _ k => k
    | with_reducible exact fun _ _ _ _ => Tab.sorted_nil
    | with_reducible exact fun _ _ _ k => Tab.sorted_put k
    | with_reducible exact fun _ _ _ k => Tab.sorted_erase k
    | with_reducible exact fun _ _ _ k => Tab.sorted_filter k
    | with_reducible exact fun _ _ _ k => Tab.sorted_filterKV k
    | (with_reducible intro b e q k); (with_reducible refine Tab.sorted_map (fun _ => ?_) k); repeat' first | rfl | split
    | with_reducible assumption
    | with_reducible refine evolves_ite (fun _ => ?_) (fun _ => ?_)
    | with_reducible refine evolves_foldl (fun _ _ _ => ?_) ?_
    | with_reducible exact evolvesO_get (by assumption)
    | with_reducible refine evolvesO_map (fun _ _ => ?_) ?_
    | with_reducible refine evolvesO_foldl (fun _ _ _ => ?_) ?_
    | exact evolvesO_none
    | with_reducible refine evolvesO_some ?_
    | split
    | with_reducible refine EvolvesO.out (by assumption) ?_
theorem State.fcMerged_evolves {r : State} (line : Nat) (x : FcLine) (base : Line) (s : State)
    (h : r.Evolves s) : r.Evolves (State.fcMerged line x base s) := by
  unfold State.fcMerged
  try dsimp only
  repeat' first
    | with_reducible exact h
    | with_reducible apply State.fcPut_evolves
    | with_reducible apply State.pressSet_evolves
    | with_reducible apply State.tierWrite_evolves
    | with_reducible assumption
    | with_reducible refine evolves_ite (fun _ => ?_) (fun _ => ?_)
    | with_reducible refine evolves_foldl (fun _ _ _ => ?_) ?_
    | with_reducible exact evolvesO_get (by assumption)
    | with_reducible refine evolvesO_map (fun _ _ => ?_) ?_
    | with_reducible refine evolvesO_foldl (fun _ _ _ => ?_) ?_
    | exact evolvesO_none
    | with_reducible refine evolvesO_some ?_
    | split
    | with_reducible refine EvolvesO.out (by assumption) ?_
theorem State.mergeWith_evolves {r : State} (line : Nat) (base : Line) (s : State)
    (h : r.Evolves s) : r.Evolves (State.mergeWith line base s) := by
  unfold State.mergeWith
  try dsimp only
  repeat' first
    | with_reducible exact h
    | with_reducible apply State.countMerge_evolves
    | with_reducible apply State.fcMerged_evolves
    | with_reducible apply State.putSector_evolves
    | with_reducible apply State.wakeLine_evolves
    | with_reducible assumption
    | with_reducible refine evolves_ite (fun _ => ?_) (fun _ => ?_)
    | with_reducible refine evolves_foldl (fun _ _ _ => ?_) ?_
    | split
theorem State.poisonBy_evolves {r : State} (trans : Nat) (line : Nat) (code : Nat) (s : State)
    (h : r.Evolves s) : r.Evolves (State.poisonBy trans line code s) := by
  unfold State.poisonBy
  try dsimp only
  repeat' first
    | with_reducible exact h
    | with_reducible apply State.logBy_evolves
    | with_reducible apply State.poison_evolves
    | with_reducible assumption
    | with_reducible refine evolves_ite (fun _ => ?_) (fun _ => ?_)
    | with_reducible refine evolves_foldl (fun _ _ _ => ?_) ?_
    | split
theorem State.poisonNow_evolves {r : State} (line : Nat) (code : Nat) (s : State)
    (h : r.Evolves s) : r.Evolves (State.poisonNow line code s) := by
  unfold State.poisonNow
  try dsimp only
  repeat' first
    | with_reducible exact h
    | with_reducible apply State.poisonBy_evolves
    | with_reducible assumption
    | with_reducible refine evolves_ite (fun _ => ?_) (fun _ => ?_)
    | with_reducible refine evolves_foldl (fun _ _ _ => ?_) ?_
    | split
theorem State.mergeLost_evolves {r : State} (line : Nat) (code : Nat) (s : State)
    (h : r.Evolves s) : r.Evolves (State.mergeLost line code s) := by
  unfold State.mergeLost
  try dsimp only
  repeat' first
    | with_reducible exact h
    | with_reducible apply State.mergeWith_evolves
    | with_reducible apply State.poisonNow_evolves
    | with_reducible assumption
    | with_reducible refine evolves_ite (fun _ => ?_) (fun _ => ?_)
    | with_reducible refine evolves_foldl (fun _ _ _ => ?_) ?_
    | split
theorem State.mergeNow_evolves {r : State} (lost : List (Nat × Nat)) (line : Nat) (s : State)
    (h : r.Evolves s) : r.Evolves (State.mergeNow lost line s) := by
  unfold State.mergeNow
  try dsimp only
  repeat' first
    | with_reducible exact h
    | with_reducible apply State.mergeLost_evolves
    | with_reducible apply State.mergeWith_evolves
    | with_reducible assumption
    | with_reducible refine evolves_ite (fun _ => ?_) (fun _ => ?_)
    | with_reducible refine evolves_foldl (fun _ _ _ => ?_) ?_
    | split
theorem State.settleLine_evolves {r : State} (line : Nat) (d : Line) (s : State)
    (h : r.Evolves s) : r.Evolves (State.settleLine line d s) := by
  unfold State.settleLine
  try dsimp only
  repeat' first
    | with_reducible exact h
    | with_reducible apply State.fcDrop_evolves
    | with_reducible apply State.overwritten_evolves
    | with_reducible apply State.putSector_evolves
    | with_reducible apply State.release_evolves
    | with_reducible apply State.wakeLine_evolves
    | with_reducible assumption
    | with_reducible refine evolves_ite (fun _ => ?_) (fun _ => ?_)
    | with_reducible refine evolves_foldl (fun _ _ _ => ?_) ?_
    | split
theorem State.dropLine_evolves {r : State} (line : Nat) (s : State)
    (h : r.Evolves s) : r.Evolves (State.dropLine line s) := by
  unfold State.dropLine
  try dsimp only
  repeat' first
    | with_reducible exact h
    | with_reducible apply State.settleLine_evolves
    | with_reducible assumption
    | with_reducible refine evolves_ite (fun _ => ?_) (fun _ => ?_)
    | with_reducible refine evolves_foldl (fun _ _ _ => ?_) ?_
    | split
theorem State.dropGrain_evolves {r : State} (g : Nat) (s : State)
    (h : r.Evolves s) : r.Evolves (State.dropGrain g s) := by
  unfold State.dropGrain
  try dsimp only
  repeat' first
    | with_reducible exact h
    | with_reducible apply State.overwrittenGrain_evolves
    | with_reducible apply State.releaseAll_evolves
    | with_reducible refine State.evolves_upFc _ ?_ ?_
    | with_reducible refine State.evolves_upReqs _ ?_
    | with_reducible refine State.evolves_upTier _ ?_ ?_
    | with_reducible exact fun _ _ _ k => k
    | with_reducible exact fun _ _ _ _ => Tab.sorted_nil
    | with_reducible exact fun _ _ _ k => Tab.sorted_put k
    | with_reducible exact fun _ _ _ k => Tab.sorted_erase k
    | with_reducible exact fun _ _ _ k => Tab.sorted_filter k
    | with_reducible exact fun _ _ _ k => Tab.sorted_filterKV k
    | (with_reducible intro b e q k); (with_reducible refine Tab.sorted_map (fun _ => ?_) k); repeat' first | rfl | split
    | with_reducible assumption
    | with_reducible refine evolves_ite (fun _ => ?_) (fun _ => ?_)
    | with_reducible refine evolves_foldl (fun _ _ _ => ?_) ?_
    | split
theorem State.takeLine_evolves {r : State} (lost : List (Nat × Nat)) (line : Nat) (s : State)
    (h : r.Evolves s) : r.Evolves (State.takeLine lost line s) := by
  unfold State.takeLine
  try dsimp only
  repeat' first
    | with_reducible exact h
    | with_reducible apply State.fcPut_evolves
    | with_reducible apply State.mergeNow_evolves
    | with_reducible apply State.tierWrite_evolves
    | with_reducible assumption
    | with_reducible refine evolves_ite (fun _ => ?_) (fun _ => ?_)
    | with_reducible refine evolves_foldl (fun _ _ _ => ?_) ?_
    | with_reducible exact evolvesO_get (by assumption)
    | with_reducible refine evolvesO_map (fun _ _ => ?_) ?_
    | with_reducible refine evolvesO_foldl (fun _ _ _ => ?_) ?_
    | exact evolvesO_none
    | with_reducible refine evolvesO_some ?_
    | split
    | with_reducible refine EvolvesO.out (by assumption) ?_
theorem State.releaseLine_evolves {r : State} (line : Nat) (s : State)
    (h : r.Evolves s) : r.Evolves (State.releaseLine line s) := by
  unfold State.releaseLine
  try dsimp only
  repeat' first
    | with_reducible exact h
    | with_reducible apply State.putSector_evolves
    | with_reducible apply State.release_evolves
    | with_reducible assumption
    | with_reducible refine evolves_ite (fun _ => ?_) (fun _ => ?_)
    | with_reducible refine evolves_foldl (fun _ _ _ => ?_) ?_
    | split
theorem State.returnLine_evolves {r : State} (line : Nat) (s : State)
    (h : r.Evolves s) : r.Evolves (State.returnLine line s) := by
  unfold State.returnLine
  try dsimp only
  repeat' first
    | with_reducible exact h
    | with_reducible apply State.putSector_evolves
    | with_reducible assumption
    | with_reducible refine evolves_ite (fun _ => ?_) (fun _ => ?_)
    | with_reducible refine evolves_foldl (fun _ _ _ => ?_) ?_
    | split
theorem State.uncharge_evolves {r : State} (x0 : Req) (s : State)
    (h : r.Evolves s) : r.Evolves (State.uncharge x0 s) := by
  unfold State.uncharge
  try dsimp only
  repeat' first
    | with_reducible exact h
    | with_reducible apply State.release_evolves
    | with_reducible assumption
    | with_reducible refine evolves_ite (fun _ => ?_) (fun _ => ?_)
    | with_reducible refine evolves_foldl (fun _ _ _ => ?_) ?_
    | split
theorem State.noteApplied_evolves {r : State} (id : Nat) (s : State)
    (h : r.Evolves s) : r.Evolves (State.noteApplied id s) := by
  unfold State.noteApplied
  try dsimp only
  repeat' first
    | with_reducible exact h
    | with_reducible refine State.evolves_upReqs _ ?_
    | with_reducible assumption
    | with_reducible refine evolves_ite (fun _ => ?_) (fun _ => ?_)
    | with_reducible refine evolves_foldl (fun _ _ _ => ?_) ?_
    | split
theorem State.completeWrite_evolves {r : State} (x0 : Req) (s : State)
    (h : r.Evolves s) : r.Evolves (State.completeWrite x0 s) := by
  unfold State.completeWrite
  try dsimp only
  repeat' first
    | with_reducible exact h
    | with_reducible apply State.answer_evolves
    | with_reducible apply State.noteApplied_evolves
    | with_reducible apply State.queueWb_evolves
    | with_reducible apply State.stageReq_evolves
    | with_reducible assumption
    | with_reducible refine evolves_ite (fun _ => ?_) (fun _ => ?_)
    | with_reducible refine evolves_foldl (fun _ _ _ => ?_) ?_
    | split
theorem State.keepBefore_evolves {r : State} (id : Nat) (b : Before) (s : State)
    (h : r.Evolves s) : r.Evolves (State.keepBefore id b s) := by
  unfold State.keepBefore
  try dsimp only
  repeat' first
    | with_reducible exact h
    | with_reducible refine State.evolves_upReqs _ ?_
    | with_reducible assumption
    | with_reducible refine evolves_ite (fun _ => ?_) (fun _ => ?_)
    | with_reducible refine evolves_foldl (fun _ _ _ => ?_) ?_
    | split
theorem State.undoLine_evolves {r : State} (line : Nat) (b : Before) (s : State)
    (h : r.Evolves s) : r.Evolves (State.undoLine line b s) := by
  unfold State.undoLine
  try dsimp only
  repeat' first
    | with_reducible exact h
    | with_reducible apply State.cancelMerge_evolves
    | with_reducible apply State.fcPut_evolves
    | with_reducible apply State.poison_evolves
    | with_reducible apply State.putSector_evolves
    | with_reducible apply State.settleLine_evolves
    | with_reducible apply State.unpoison_evolves
    | with_reducible assumption
    | with_reducible refine evolves_ite (fun _ => ?_) (fun _ => ?_)
    | with_reducible refine evolves_foldl (fun _ _ _ => ?_) ?_
    | split
theorem State.undoWrite_evolves {r : State} (x0 : Req) (s : State)
    (h : r.Evolves s) : r.Evolves (State.undoWrite x0 s) := by
  unfold State.undoWrite
  try dsimp only
  repeat' first
    | with_reducible exact h
    | with_reducible apply State.undoLine_evolves
    | with_reducible assumption
    | with_reducible refine evolves_ite (fun _ => ?_) (fun _ => ?_)
    | with_reducible refine evolves_foldl (fun _ _ _ => ?_) ?_
    | split
theorem State.undoFlights_evolves {r : State} (s : State)
    (h : r.Evolves s) : r.Evolves (State.undoFlights s) := by
  unfold State.undoFlights
  try dsimp only
  repeat' first
    | with_reducible exact h
    | with_reducible apply State.undoLine_evolves
    | with_reducible apply State.undoWrite_evolves
    | with_reducible assumption
    | with_reducible refine evolves_ite (fun _ => ?_) (fun _ => ?_)
    | with_reducible refine evolves_foldl (fun _ _ _ => ?_) ?_
    | with_reducible refine evolves_foldr (fun _ _ _ => ?_) ?_
    | split
theorem State.undoAll_evolves {r : State} (s : State)
    (h : r.Evolves s) : r.Evolves (State.undoAll s) := by
  unfold State.undoAll
  try dsimp only
  repeat' first
    | with_reducible exact h
    | with_reducible apply State.undoFlights_evolves
    | with_reducible apply State.undoWrite_evolves
    | with_reducible assumption
    | with_reducible refine evolves_ite (fun _ => ?_) (fun _ => ?_)
    | with_reducible refine evolves_foldl (fun _ _ _ => ?_) ?_
    | with_reducible refine evolves_foldr (fun _ _ _ => ?_) ?_
    | split

end Sys2Proof.Machine
end

