-- ==== Sys2Proof/Laws/EvolvesMembership.lean ====
section
/-!
SUPPORT. How the operations of Machine/Membership.lean let the state evolve.
-/
namespace Sys2Proof.Machine

theorem State.sendMember_evolves {r : State} (ty : Nat) (s : State)
    (h : r.Evolves s) : r.Evolves (State.sendMember ty s) := by
  unfold State.sendMember
  try dsimp only
  repeat' first
    | with_reducible exact h
    | with_reducible apply State.send_evolves
    | with_reducible refine State.evolves_upYoke _ ?_ ?_
    | with_reducible exact fun _ _ _ k => k
    | with_reducible assumption
    | with_reducible refine evolves_ite (fun _ => ?_) (fun _ => ?_)
    | with_reducible refine evolves_foldl (fun _ _ _ => ?_) ?_
    | split
theorem State.sendPulse_evolves {r : State} (s : State)
    (h : r.Evolves s) : r.Evolves (State.sendPulse s) := by
  unfold State.sendPulse
  try dsimp only
  repeat' first
    | with_reducible exact h
    | with_reducible apply State.send_evolves
    | with_reducible refine State.evolves_upYoke _ ?_ ?_
    | with_reducible exact fun _ _ _ k => k
    | with_reducible assumption
    | with_reducible refine evolves_ite (fun _ => ?_) (fun _ => ?_)
    | with_reducible refine evolves_foldl (fun _ _ _ => ?_) ?_
    | split
theorem State.writeRecord_evolves {r : State} (f : MemberRec → MemberRec) (s : State)
    (h : r.Evolves s) : r.Evolves (State.writeRecord f s) := by
  unfold State.writeRecord
  try dsimp only
  repeat' first
    | with_reducible exact h
    | with_reducible apply State.measure_evolves
    | with_reducible apply State.save_evolves
    | with_reducible refine State.evolves_upYoke _ ?_ ?_
    | with_reducible exact fun _ _ _ k => k
    | with_reducible assumption
    | with_reducible refine evolves_ite (fun _ => ?_) (fun _ => ?_)
    | with_reducible refine evolves_foldl (fun _ _ _ => ?_) ?_
    | split
theorem State.setMember_evolves {r : State} (m : Nat) (s : State)
    (h : r.Evolves s) (hm : s.Sound → m ≤ 8) : r.Evolves (State.setMember m s) := by
  unfold State.setMember
  try dsimp only
  repeat' first
    | with_reducible exact h
    | with_reducible apply State.sendPulse_evolves
    | with_reducible refine State.evolves_upYoke _ ?_ ?_
    | with_reducible exact fun _ _ _ k => k
    | (with_reducible intro b e q k); dsimp only at k ⊢; first | omega | (have ha := State.armCode_le s; omega) | ((with_reducible refine ⟨?_, k.2⟩); (repeat' first | (with_reducible refine Nat.le_trans (State.armCode_le _) ?_); decide | omega | split); done) | (have hm' := hm q; omega) | exact ⟨Nat.le_trans (State.armCode_le _) (by decide), k.2⟩ | (have ha := State.armCode_le _; constructor <;> repeat' first | omega | split)
    | (with_reducible intro b e q k); unfold Yoke.dropWork; with_reducible exact k
    | with_reducible assumption
    | with_reducible refine evolves_ite (fun _ => ?_) (fun _ => ?_)
    | with_reducible refine evolves_foldl (fun _ _ _ => ?_) ?_
    | split
theorem State.dropWork_evolves {r : State} (s : State)
    (h : r.Evolves s) : r.Evolves (State.dropWork s) := by
  unfold State.dropWork
  try dsimp only
  repeat' first
    | with_reducible exact h
    | with_reducible refine State.evolves_upReqs _ ?_
    | with_reducible refine State.evolves_upYoke _ ?_ ?_
    | with_reducible exact fun _ _ _ k => k
    | (with_reducible intro b e q k); unfold Yoke.dropWork; with_reducible exact k
    | with_reducible assumption
    | with_reducible refine evolves_ite (fun _ => ?_) (fun _ => ?_)
    | with_reducible refine evolves_foldl (fun _ _ _ => ?_) ?_
    | split
theorem State.clearReservations_evolves {r : State} (s : State)
    (h : r.Evolves s) : r.Evolves (State.clearReservations s) := by
  unfold State.clearReservations
  try dsimp only
  repeat' first
    | with_reducible exact h
    | with_reducible apply State.endRes_evolves
    | with_reducible assumption
    | with_reducible refine evolves_ite (fun _ => ?_) (fun _ => ?_)
    | with_reducible refine evolves_foldl (fun _ _ _ => ?_) ?_
    | split
theorem State.markFlights_evolves {r : State} (s : State)
    (h : r.Evolves s) : r.Evolves (State.markFlights s) := by
  unfold State.markFlights
  try dsimp only
  repeat' first
    | with_reducible exact h
    | with_reducible apply State.mark_evolves
    | with_reducible assumption
    | with_reducible refine evolves_ite (fun _ => ?_) (fun _ => ?_)
    | with_reducible refine evolves_foldl (fun _ _ _ => ?_) ?_
    | split
theorem State.heldToSole_evolves {r : State} (x0 : Req) (s : State)
    (h : r.Evolves s) : r.Evolves (State.heldToSole x0 s) := by
  unfold State.heldToSole
  try dsimp only
  repeat' first
    | with_reducible exact h
    | with_reducible apply State.answer_evolves
    | with_reducible apply State.completeWrite_evolves
    | with_reducible apply State.countOutcome_evolves
    | with_reducible apply State.setStatus_evolves
    | with_reducible apply State.stageReq_evolves
    | with_reducible assumption
    | with_reducible refine evolves_ite (fun _ => ?_) (fun _ => ?_)
    | with_reducible refine evolves_foldl (fun _ _ _ => ?_) ?_
    | split
theorem State.returnCredit_evolves {r : State} (x0 : Req) (s : State)
    (h : r.Evolves s) : r.Evolves (State.returnCredit x0 s) := by
  unfold State.returnCredit
  try dsimp only
  repeat' first
    | with_reducible exact h
    | with_reducible refine State.evolves_upPort _ ?_
    | with_reducible assumption
    | with_reducible refine evolves_ite (fun _ => ?_) (fun _ => ?_)
    | with_reducible refine evolves_foldl (fun _ _ _ => ?_) ?_
    | split
theorem State.heldToFenced_evolves {r : State} (x0 : Req) (s : State)
    (h : r.Evolves s) : r.Evolves (State.heldToFenced x0 s) := by
  unfold State.heldToFenced
  try dsimp only
  repeat' first
    | with_reducible exact h
    | with_reducible apply State.answer_evolves
    | with_reducible apply State.dropReq_evolves
    | with_reducible apply State.returnCredit_evolves
    | with_reducible apply State.uncharge_evolves
    | with_reducible assumption
    | with_reducible refine evolves_ite (fun _ => ?_) (fun _ => ?_)
    | with_reducible refine evolves_foldl (fun _ _ _ => ?_) ?_
    | split
theorem State.dropHeld_evolves {r : State} (s : State)
    (h : r.Evolves s) : r.Evolves (State.dropHeld s) := by
  unfold State.dropHeld
  try dsimp only
  repeat' first
    | with_reducible exact h
    | with_reducible apply State.heldToFenced_evolves
    | with_reducible apply State.undoFlights_evolves
    | with_reducible assumption
    | with_reducible refine evolves_ite (fun _ => ?_) (fun _ => ?_)
    | with_reducible refine evolves_foldl (fun _ _ _ => ?_) ?_
    | split
theorem State.abandonJobs_evolves {r : State} (s : State)
    (h : r.Evolves s) : r.Evolves (State.abandonJobs s) := by
  unfold State.abandonJobs
  try dsimp only
  repeat' first
    | with_reducible exact h
    | with_reducible refine State.evolves_upCmds _ ?_
    | with_reducible refine State.evolves_upMap _ ?_
    | with_reducible assumption
    | with_reducible refine evolves_ite (fun _ => ?_) (fun _ => ?_)
    | with_reducible refine evolves_foldl (fun _ _ _ => ?_) ?_
    | split
theorem State.enterSole_evolves {r : State} (cause : Nat) (s : State)
    (h : r.Evolves s) : r.Evolves (State.enterSole cause s) := by
  unfold State.enterSole
  try dsimp only
  repeat' first
    | with_reducible exact h
    | with_reducible apply State.clearReservations_evolves
    | with_reducible apply State.dropWork_evolves
    | with_reducible apply State.heldToSole_evolves
    | with_reducible apply State.log_evolves
    | with_reducible apply State.markFlights_evolves
    | with_reducible apply State.setMember_evolves
    | with_reducible apply State.writeRecord_evolves
    | (with_reducible intro b e q k); dsimp only at k ⊢; first | omega | (have ha := State.armCode_le s; omega) | ((with_reducible refine ⟨?_, k.2⟩); (repeat' first | (with_reducible refine Nat.le_trans (State.armCode_le _) ?_); decide | omega | split); done) | (have hm' := hm q; omega) | exact ⟨Nat.le_trans (State.armCode_le _) (by decide), k.2⟩ | (have ha := State.armCode_le _; constructor <;> repeat' first | omega | split)
    | (with_reducible intro b e q k); unfold Yoke.dropWork; with_reducible exact k
    | exact fun _ => by decide
    | exact fun _ => hm
    | omega
    | exact fun q => q.1.2.2.2.1
    | decide
    | with_reducible assumption
    | with_reducible refine evolves_ite (fun _ => ?_) (fun _ => ?_)
    | with_reducible refine evolves_foldl (fun _ _ _ => ?_) ?_
    | split
theorem State.enterFenced_evolves {r : State} (s : State)
    (h : r.Evolves s) : r.Evolves (State.enterFenced s) := by
  unfold State.enterFenced
  try dsimp only
  repeat' first
    | with_reducible exact h
    | with_reducible apply State.abandonJobs_evolves
    | with_reducible apply State.clearReservations_evolves
    | with_reducible apply State.dropHeld_evolves
    | with_reducible apply State.dropWork_evolves
    | with_reducible apply State.log_evolves
    | with_reducible apply State.sendMember_evolves
    | with_reducible apply State.setMember_evolves
    | with_reducible apply State.writeRecord_evolves
    | with_reducible refine State.evolves_upObs _ ?_ ?_
    | with_reducible exact fun _ _ _ k => k
    | with_reducible exact fun _ _ _ _ => Tab.sorted_nil
    | with_reducible exact fun _ _ _ k => Tab.sorted_put k
    | with_reducible exact fun _ _ _ k => Tab.sorted_erase k
    | with_reducible exact fun _ _ _ k => Tab.sorted_filter k
    | with_reducible exact fun _ _ _ k => Tab.sorted_filterKV k
    | (with_reducible intro b e q k); (with_reducible refine Tab.sorted_map (fun _ => ?_) k); repeat' first | rfl | split
    | (with_reducible intro b e q k); dsimp only at k ⊢; first | omega | (have ha := State.armCode_le s; omega) | ((with_reducible refine ⟨?_, k.2⟩); (repeat' first | (with_reducible refine Nat.le_trans (State.armCode_le _) ?_); decide | omega | split); done) | (have hm' := hm q; omega) | exact ⟨Nat.le_trans (State.armCode_le _) (by decide), k.2⟩ | (have ha := State.armCode_le _; constructor <;> repeat' first | omega | split)
    | (with_reducible intro b e q k); unfold Yoke.dropWork; with_reducible exact k
    | exact fun _ => by decide
    | exact fun _ => hm
    | omega
    | exact fun q => q.1.2.2.2.1
    | decide
    | with_reducible assumption
    | with_reducible refine evolves_ite (fun _ => ?_) (fun _ => ?_)
    | with_reducible refine evolves_foldl (fun _ _ _ => ?_) ?_
    | split
theorem State.leaveSuspect_evolves {r : State} (s : State)
    (h : r.Evolves s) : r.Evolves (State.leaveSuspect s) := by
  unfold State.leaveSuspect
  try dsimp only
  repeat' first
    | with_reducible exact h
    | with_reducible apply State.setMember_evolves
    | with_reducible refine State.evolves_upReqs _ ?_
    | exact fun _ => by decide
    | exact fun _ => hm
    | omega
    | exact fun q => q.1.2.2.2.1
    | decide
    | with_reducible assumption
    | with_reducible refine evolves_ite (fun _ => ?_) (fun _ => ?_)
    | with_reducible refine evolves_foldl (fun _ _ _ => ?_) ?_
    | split
theorem State.enterSuspect_evolves {r : State} (s : State)
    (h : r.Evolves s) : r.Evolves (State.enterSuspect s) := by
  unfold State.enterSuspect
  try dsimp only
  repeat' first
    | with_reducible exact h
    | with_reducible apply State.setMember_evolves
    | with_reducible refine State.evolves_upYoke _ ?_ ?_
    | with_reducible exact fun _ _ _ k => k
    | exact fun _ => by decide
    | exact fun _ => hm
    | omega
    | exact fun q => q.1.2.2.2.1
    | decide
    | with_reducible assumption
    | with_reducible refine evolves_ite (fun _ => ?_) (fun _ => ?_)
    | with_reducible refine evolves_foldl (fun _ _ _ => ?_) ?_
    | split
theorem State.standDown_evolves {r : State} (s : State)
    (h : r.Evolves s) : r.Evolves (State.standDown s) := by
  unfold State.standDown
  try dsimp only
  repeat' first
    | with_reducible exact h
    | with_reducible apply State.abandonJobs_evolves
    | with_reducible apply State.dropWork_evolves
    | with_reducible apply State.sendMember_evolves
    | with_reducible apply State.sendPulse_evolves
    | with_reducible apply State.writeRecord_evolves
    | with_reducible refine State.evolves_upYoke _ ?_ ?_
    | with_reducible exact fun _ _ _ k => k
    | (with_reducible intro b e q k); dsimp only at k ⊢; first | omega | (have ha := State.armCode_le s; omega) | ((with_reducible refine ⟨?_, k.2⟩); (repeat' first | (with_reducible refine Nat.le_trans (State.armCode_le _) ?_); decide | omega | split); done) | (have hm' := hm q; omega) | exact ⟨Nat.le_trans (State.armCode_le _) (by decide), k.2⟩ | (have ha := State.armCode_le _; constructor <;> repeat' first | omega | split)
    | (with_reducible intro b e q k); unfold Yoke.dropWork; with_reducible exact k
    | with_reducible assumption
    | with_reducible refine evolves_ite (fun _ => ?_) (fun _ => ?_)
    | with_reducible refine evolves_foldl (fun _ _ _ => ?_) ?_
    | split
theorem State.restartMember_evolves {r : State} (cold : Bool) (s : State)
    (h : r.Evolves s) : r.Evolves (State.restartMember cold s) := by
  unfold State.restartMember
  try dsimp only
  repeat' first
    | with_reducible exact h
    | with_reducible apply State.log_evolves
    | with_reducible apply State.setMember_evolves
    | exact fun _ => by decide
    | exact fun _ => hm
    | omega
    | exact fun q => q.1.2.2.2.1
    | decide
    | with_reducible assumption
    | with_reducible refine evolves_ite (fun _ => ?_) (fun _ => ?_)
    | with_reducible refine evolves_foldl (fun _ _ _ => ?_) ?_
    | split
theorem State.sendBitmap_evolves {r : State} (s : State)
    (h : r.Evolves s) : r.Evolves (State.sendBitmap s) := by
  unfold State.sendBitmap
  try dsimp only
  repeat' first
    | with_reducible exact h
    | with_reducible apply State.send_evolves
    | with_reducible assumption
    | with_reducible refine evolves_ite (fun _ => ?_) (fun _ => ?_)
    | with_reducible refine evolves_foldl (fun _ _ _ => ?_) ?_
    | split
theorem State.startResync_evolves {r : State} (member : Nat) (serial : Nat) (s : State)
    (h : r.Evolves s) (hm : member ≤ 8) : r.Evolves (State.startResync member serial s) := by
  unfold State.startResync
  try dsimp only
  repeat' first
    | with_reducible exact h
    | with_reducible apply State.log_evolves
    | with_reducible apply State.sendBitmap_evolves
    | with_reducible apply State.setMember_evolves
    | with_reducible apply State.writeRecord_evolves
    | with_reducible refine State.evolves_upYoke _ ?_ ?_
    | with_reducible exact fun _ _ _ k => k
    | exact fun _ => by decide
    | exact fun _ => hm
    | omega
    | exact fun q => q.1.2.2.2.1
    | decide
    | with_reducible assumption
    | with_reducible refine evolves_ite (fun _ => ?_) (fun _ => ?_)
    | with_reducible refine evolves_foldl (fun _ _ _ => ?_) ?_
    | split
theorem State.damaged_evolves {r : State} (s : State)
    (h : r.Evolves s) : r.Evolves (State.damaged s) := by
  unfold State.damaged
  try dsimp only
  repeat' first
    | with_reducible exact h
    | with_reducible apply State.writeRecord_evolves
    | with_reducible assumption
    | with_reducible refine evolves_ite (fun _ => ?_) (fun _ => ?_)
    | with_reducible refine evolves_foldl (fun _ _ _ => ?_) ?_
    | split
theorem State.receiveDamaged_evolves {r : State} (s : State)
    (h : r.Evolves s) : r.Evolves (State.receiveDamaged s) := by
  unfold State.receiveDamaged
  try dsimp only
  repeat' first
    | with_reducible exact h
    | with_reducible apply State.startResync_evolves
    | exact fun _ => by decide
    | exact fun _ => hm
    | omega
    | exact fun q => q.1.2.2.2.1
    | decide
    | with_reducible assumption
    | with_reducible refine evolves_ite (fun _ => ?_) (fun _ => ?_)
    | with_reducible refine evolves_foldl (fun _ _ _ => ?_) ?_
    | split

end Sys2Proof.Machine
end

