-- ==== Sys2Proof/Laws/EvolvesResets.lean ====
section
/-!
SUPPORT. How the operations of Machine/Resets.lean let the state evolve.
-/
namespace Sys2Proof.Machine

theorem State.ovRemove_evolves {r : State} (line : Nat) (s : State)
    (h : r.Evolves s) : r.Evolves (State.ovRemove line s) := by
  unfold State.ovRemove
  try dsimp only
  repeat' first
    | with_reducible exact h
    | with_reducible refine State.evolves_upMap _ ?_
    | with_reducible assumption
    | with_reducible refine evolves_ite (fun _ => ?_) (fun _ => ?_)
    | with_reducible refine evolves_foldl (fun _ _ _ => ?_) ?_
    | split
theorem State.ovRemoveGrain_evolves {r : State} (g : Nat) (s : State)
    (h : r.Evolves s) : r.Evolves (State.ovRemoveGrain g s) := by
  unfold State.ovRemoveGrain
  try dsimp only
  repeat' first
    | with_reducible exact h
    | with_reducible refine State.evolves_upMap _ ?_
    | with_reducible assumption
    | with_reducible refine evolves_ite (fun _ => ?_) (fun _ => ?_)
    | with_reducible refine evolves_foldl (fun _ _ _ => ?_) ?_
    | split
theorem State.ovInsert_evolves {r : State} (line : Nat) (page : Nat) (slot : Nat) (s : State)
    (h : r.Evolves s) : r.Evolves (State.ovInsert line page slot s) := by
  unfold State.ovInsert
  try dsimp only
  repeat' first
    | with_reducible exact h
    | with_reducible apply State.ovRemove_evolves
    | with_reducible refine State.evolves_upMap _ ?_
    | with_reducible assumption
    | with_reducible refine evolves_ite (fun _ => ?_) (fun _ => ?_)
    | with_reducible refine evolves_foldl (fun _ _ _ => ?_) ?_
    | split
theorem State.enterSlot_evolves {r : State} (ppa : Nat) (p : Page) (k : Nat) (x : LogSlot) (s : State)
    (h : r.Evolves s) : r.Evolves (State.enterSlot ppa p k x s) := by
  unfold State.enterSlot
  try dsimp only
  repeat' first
    | with_reducible exact h
    | with_reducible apply State.ovInsert_evolves
    | with_reducible refine State.evolves_upMap _ ?_
    | with_reducible assumption
    | with_reducible refine evolves_ite (fun _ => ?_) (fun _ => ?_)
    | with_reducible refine evolves_foldl (fun _ _ _ => ?_) ?_
    | split
theorem State.applyRec_evolves {r : State} (x0 : JRec) (s : State)
    (h : r.Evolves s) : r.Evolves (State.applyRec x0 s) := by
  unfold State.applyRec
  try dsimp only
  repeat' first
    | with_reducible exact h
    | with_reducible apply State.enterSlot_evolves
    | with_reducible refine State.evolves_upMap _ ?_
    | with_reducible refine State.evolves_upMedia _ ?_ ?_
    | with_reducible exact fun _ _ _ k => k
    | with_reducible exact fun _ _ _ _ => Tab.sorted_nil
    | with_reducible exact fun _ _ _ k => Tab.sorted_put k
    | with_reducible exact fun _ _ _ k => Tab.sorted_erase k
    | with_reducible exact fun _ _ _ k => Tab.sorted_filter k
    | with_reducible exact fun _ _ _ k => Tab.sorted_filterKV k
    | (with_reducible intro b e q k); (with_reducible refine Tab.sorted_map (fun _ => ?_) k); repeat' first | rfl | split
    | with_reducible assumption
    | with_reducible refine evolves_ite (fun _ => ?_) (fun _ => ?_)
    | with_reducible refine evolves_foldl (fun _ _ _ => ?_) ?_
    | split
theorem State.fromCkpt_evolves {r : State} (s : State)
    (h : r.Evolves s) : r.Evolves (State.fromCkpt s) := by
  unfold State.fromCkpt
  try dsimp only
  repeat' first
    | with_reducible exact h
    | with_reducible refine State.evolves_upMap _ ?_
    | with_reducible refine State.evolves_upMedia _ ?_ ?_
    | with_reducible exact fun _ _ _ k => k
    | with_reducible exact fun _ _ _ _ => Tab.sorted_nil
    | with_reducible exact fun _ _ _ k => Tab.sorted_put k
    | with_reducible exact fun _ _ _ k => Tab.sorted_erase k
    | with_reducible exact fun _ _ _ k => Tab.sorted_filter k
    | with_reducible exact fun _ _ _ k => Tab.sorted_filterKV k
    | (with_reducible intro b e q k); (with_reducible refine Tab.sorted_map (fun _ => ?_) k); repeat' first | rfl | split
    | with_reducible assumption
    | with_reducible refine evolves_ite (fun _ => ?_) (fun _ => ?_)
    | with_reducible refine evolves_foldl (fun _ _ _ => ?_) ?_
    | split
theorem State.replayJournal_evolves {r : State} (recs : List JRec) (s : State)
    (h : r.Evolves s) : r.Evolves (State.replayJournal recs s) := by
  unfold State.replayJournal
  try dsimp only
  repeat' first
    | with_reducible exact h
    | with_reducible apply State.applyRec_evolves
    | with_reducible apply State.fromCkpt_evolves
    | with_reducible assumption
    | with_reducible refine evolves_ite (fun _ => ?_) (fun _ => ?_)
    | with_reducible refine evolves_foldl (fun _ _ _ => ?_) ?_
    | split
theorem State.rebuildMap_evolves {r : State} (s : State)
    (h : r.Evolves s) : r.Evolves (State.rebuildMap s) := by
  unfold State.rebuildMap
  try dsimp only
  repeat' first
    | with_reducible exact h
    | with_reducible apply State.applyRec_evolves
    | with_reducible apply State.damaged_evolves
    | with_reducible apply State.fromCkpt_evolves
    | with_reducible apply State.markAll_evolves
    | with_reducible refine State.evolves_upMap _ ?_
    | with_reducible refine State.evolves_upPwr _ ?_ ?_
    | with_reducible exact fun _ _ _ k => k
    | with_reducible assumption
    | with_reducible refine evolves_ite (fun _ => ?_) (fun _ => ?_)
    | with_reducible refine evolves_foldl (fun _ _ _ => ?_) ?_
    | with_reducible refine evolves_foldr (fun _ _ _ => ?_) ?_
    | with_reducible refine evolvesP_ite ?_ ?_
    | with_reducible refine evolvesP_foldl (fun _ _ _ => ?_) ?_
    | split
    | with_reducible refine EvolvesP.snd ?_
    | with_reducible refine evolvesP_mk ?_
    | with_reducible refine EvolvesP.out (by assumption) ?_
theorem State.setGroup_evolves {r : State} (g : Nat) (x : Group) (s : State)
    (h : r.Evolves s) : r.Evolves (State.setGroup g x s) := by
  unfold State.setGroup
  try dsimp only
  repeat' first
    | with_reducible exact h
    | with_reducible apply State.journal_evolves
    | with_reducible refine State.evolves_upMedia _ ?_ ?_
    | with_reducible exact fun _ _ _ k => k
    | with_reducible exact fun _ _ _ _ => Tab.sorted_nil
    | with_reducible exact fun _ _ _ k => Tab.sorted_put k
    | with_reducible exact fun _ _ _ k => Tab.sorted_erase k
    | with_reducible exact fun _ _ _ k => Tab.sorted_filter k
    | with_reducible exact fun _ _ _ k => Tab.sorted_filterKV k
    | (with_reducible intro b e q k); (with_reducible refine Tab.sorted_map (fun _ => ?_) k); repeat' first | rfl | split
    | with_reducible assumption
    | with_reducible refine evolves_ite (fun _ => ?_) (fun _ => ?_)
    | with_reducible refine evolves_foldl (fun _ _ _ => ?_) ?_
    | split
theorem State.dropLap_evolves {r : State} (s : State)
    (h : r.Evolves s) : r.Evolves (State.dropLap s) := by
  unfold State.dropLap
  try dsimp only
  repeat' first
    | with_reducible exact h
    | with_reducible refine State.evolves_upMap _ ?_
    | with_reducible assumption
    | with_reducible refine evolves_ite (fun _ => ?_) (fun _ => ?_)
    | with_reducible refine evolves_foldl (fun _ _ _ => ?_) ?_
    | split
theorem State.abandonPrograms_evolves {r : State} (s : State)
    (h : r.Evolves s) : r.Evolves (State.abandonPrograms s) := by
  unfold State.abandonPrograms
  try dsimp only
  repeat' first
    | with_reducible exact h
    | with_reducible apply State.dropLap_evolves
    | with_reducible apply State.setGroup_evolves
    | with_reducible refine State.evolves_upBudget _ ?_ ?_
    | with_reducible refine State.evolves_upCare _ ?_ ?_
    | with_reducible refine State.evolves_upMedia _ ?_ ?_
    | with_reducible refine State.evolves_upReg _ ?_
    | with_reducible refine State.evolves_upTier _ ?_ ?_
    | with_reducible exact fun _ _ _ k => k
    | with_reducible exact fun _ _ _ _ => Tab.sorted_nil
    | with_reducible exact fun _ _ _ k => Tab.sorted_put k
    | with_reducible exact fun _ _ _ k => Tab.sorted_erase k
    | with_reducible exact fun _ _ _ k => Tab.sorted_filter k
    | with_reducible exact fun _ _ _ k => Tab.sorted_filterKV k
    | (with_reducible intro b e q k); (with_reducible refine Tab.sorted_map (fun _ => ?_) k); repeat' first | rfl | split
    | with_reducible assumption
    | with_reducible refine evolves_ite (fun _ => ?_) (fun _ => ?_)
    | with_reducible refine evolves_foldl (fun _ _ _ => ?_) ?_
    | split
theorem State.unchargeAll_evolves {r : State} (s : State)
    (h : r.Evolves s) : r.Evolves (State.unchargeAll s) := by
  unfold State.unchargeAll
  try dsimp only
  repeat' first
    | with_reducible exact h
    | with_reducible apply State.uncharge_evolves
    | with_reducible assumption
    | with_reducible refine evolves_ite (fun _ => ?_) (fun _ => ?_)
    | with_reducible refine evolves_foldl (fun _ _ _ => ?_) ?_
    | split
theorem State.keepAdmitted_evolves {r : State} (s : State)
    (h : r.Evolves s) : r.Evolves (State.keepAdmitted s) := by
  unfold State.keepAdmitted
  try dsimp only
  repeat' first
    | with_reducible exact h
    | with_reducible apply State.mark_evolves
    | with_reducible apply State.markSole_evolves
    | with_reducible refine State.evolves_upReqs _ ?_
    | with_reducible assumption
    | with_reducible refine evolves_ite (fun _ => ?_) (fun _ => ?_)
    | with_reducible refine evolves_foldl (fun _ _ _ => ?_) ?_
    | split
theorem State.dropRequests_evolves {r : State} (s : State)
    (h : r.Evolves s) : r.Evolves (State.dropRequests s) := by
  unfold State.dropRequests
  try dsimp only
  repeat' first
    | with_reducible exact h
    | with_reducible refine State.evolves_upMbox _ ?_
    | with_reducible refine State.evolves_upPort _ ?_
    | with_reducible refine State.evolves_upReqs _ ?_
    | with_reducible assumption
    | with_reducible refine evolves_ite (fun _ => ?_) (fun _ => ?_)
    | with_reducible refine evolves_foldl (fun _ _ _ => ?_) ?_
    | split
theorem State.dropMisses_evolves {r : State} (s : State)
    (h : r.Evolves s) : r.Evolves (State.dropMisses s) := by
  unfold State.dropMisses
  try dsimp only
  repeat' first
    | with_reducible exact h
    | with_reducible refine State.evolves_upFc _ ?_ ?_
    | with_reducible refine State.evolves_upSlices _ ?_
    | with_reducible exact fun _ _ _ k => k
    | with_reducible exact fun _ _ _ _ => Tab.sorted_nil
    | with_reducible exact fun _ _ _ k => Tab.sorted_put k
    | with_reducible exact fun _ _ _ k => Tab.sorted_erase k
    | with_reducible exact fun _ _ _ k => Tab.sorted_filter k
    | with_reducible exact fun _ _ _ k => Tab.sorted_filterKV k
    | (with_reducible intro b e q k); (with_reducible refine Tab.sorted_map (fun _ => ?_) k); repeat' first | rfl | split
    | with_reducible assumption
    | with_reducible refine evolves_ite (fun _ => ?_) (fun _ => ?_)
    | with_reducible refine evolves_foldl (fun _ _ _ => ?_) ?_
    | split
theorem State.linkDown_evolves {r : State} (s : State)
    (h : r.Evolves s) : r.Evolves (State.linkDown s) := by
  unfold State.linkDown
  try dsimp only
  repeat' first
    | with_reducible exact h
    | with_reducible refine State.evolves_upPort _ ?_
    | with_reducible assumption
    | with_reducible refine evolves_ite (fun _ => ?_) (fun _ => ?_)
    | with_reducible refine evolves_foldl (fun _ _ _ => ?_) ?_
    | split
theorem State.clearAtomics_evolves {r : State} (s : State)
    (h : r.Evolves s) : r.Evolves (State.clearAtomics s) := by
  unfold State.clearAtomics
  try dsimp only
  repeat' first
    | with_reducible exact h
    | with_reducible apply State.clearReservations_evolves
    | with_reducible refine State.evolves_upAtom _ ?_
    | with_reducible assumption
    | with_reducible refine evolves_ite (fun _ => ?_) (fun _ => ?_)
    | with_reducible refine evolves_foldl (fun _ _ _ => ?_) ?_
    | split
theorem State.clearVolatile_evolves {r : State} (s : State)
    (h : r.Evolves s) : r.Evolves (State.clearVolatile s) := by
  unfold State.clearVolatile
  try dsimp only
  repeat' first
    | with_reducible exact h
    | with_reducible apply State.abandonPrograms_evolves
    | with_reducible apply State.clearAtomics_evolves
    | with_reducible apply State.dropMisses_evolves
    | with_reducible apply State.dropRequests_evolves
    | with_reducible refine State.evolves_upCmds _ ?_
    | with_reducible refine State.evolves_upDict _ ?_
    | with_reducible refine State.evolves_upFw _ ?_
    | with_reducible refine State.evolves_upKeys _ ?_
    | with_reducible refine State.evolves_upMbox _ ?_
    | with_reducible refine State.evolves_upObs _ ?_ ?_
    | with_reducible refine State.evolves_upPerf _ ?_
    | with_reducible refine State.evolves_upReqs _ ?_
    | with_reducible refine State.evolves_upSlices _ ?_
    | with_reducible exact fun _ _ _ k => k
    | with_reducible exact fun _ _ _ _ => Tab.sorted_nil
    | with_reducible exact fun _ _ _ k => Tab.sorted_put k
    | with_reducible exact fun _ _ _ k => Tab.sorted_erase k
    | with_reducible exact fun _ _ _ k => Tab.sorted_filter k
    | with_reducible exact fun _ _ _ k => Tab.sorted_filterKV k
    | (with_reducible intro b e q k); (with_reducible refine Tab.sorted_map (fun _ => ?_) k); repeat' first | rfl | split
    | (with_reducible intro b e q k); subst e; (refine ⟨?_, ?_, ?_⟩ <;> first | with_reducible exact k.1 | with_reducible exact k.2.1 | with_reducible exact k.2.2 | exact Nat.zero_le _ | (simp only [List.length_append, List.length_cons, List.length_nil, List.length_drop]; omega) | exact logs_put k.2.2 (logs_get k.2.2 _) | (refine logs_put k.2.2 ?_; simp only [List.length_append, List.length_cons, List.length_nil]; omega) | exact fun _ m => by cases m)
    | with_reducible assumption
    | with_reducible refine evolves_ite (fun _ => ?_) (fun _ => ?_)
    | with_reducible refine evolves_foldl (fun _ _ _ => ?_) ?_
    | split
theorem State.saveLine_evolves {r : State} (bad : List Nat) (line : Nat) (x : FcLine) (s : State)
    (h : r.Evolves s) : r.Evolves (State.saveLine bad line x s) := by
  unfold State.saveLine
  try dsimp only
  repeat' first
    | with_reducible exact h
    | with_reducible apply State.dropLine_evolves
    | with_reducible apply State.fcDrop_evolves
    | with_reducible apply State.fcPut_evolves
    | with_reducible apply State.moveToTier_evolves
    | with_reducible apply State.poison_evolves
    | with_reducible refine State.evolves_upPwr _ ?_ ?_
    | with_reducible exact fun _ _ _ k => k
    | with_reducible assumption
    | with_reducible refine evolves_ite (fun _ => ?_) (fun _ => ?_)
    | with_reducible refine evolves_foldl (fun _ _ _ => ?_) ?_
    | with_reducible exact evolvesO_get (by assumption)
    | with_reducible refine evolvesO_map (fun _ _ => ?_) ?_
    | with_reducible refine evolvesO_foldl (fun _ _ _ => ?_) ?_
    | exact evolvesO_none
    | with_reducible refine evolvesO_some ?_
    | split
    | with_reducible refine EvolvesO.out (by assumption) ?_
theorem State.saveFrontCache_evolves {r : State} (bad : List Nat) (s : State)
    (h : r.Evolves s) : r.Evolves (State.saveFrontCache bad s) := by
  unfold State.saveFrontCache
  try dsimp only
  repeat' first
    | with_reducible exact h
    | with_reducible apply State.saveLine_evolves
    | with_reducible refine State.evolves_upFc _ ?_ ?_
    | with_reducible exact fun _ _ _ k => k
    | with_reducible exact fun _ _ _ _ => Tab.sorted_nil
    | with_reducible exact fun _ _ _ k => Tab.sorted_put k
    | with_reducible exact fun _ _ _ k => Tab.sorted_erase k
    | with_reducible exact fun _ _ _ k => Tab.sorted_filter k
    | with_reducible exact fun _ _ _ k => Tab.sorted_filterKV k
    | (with_reducible intro b e q k); (with_reducible refine Tab.sorted_map (fun _ => ?_) k); repeat' first | rfl | split
    | with_reducible assumption
    | with_reducible refine evolves_ite (fun _ => ?_) (fun _ => ?_)
    | with_reducible refine evolves_foldl (fun _ _ _ => ?_) ?_
    | split
theorem State.resumeGen_evolves {r : State} (s : State)
    (h : r.Evolves s) : r.Evolves (State.resumeGen s) := by
  unfold State.resumeGen
  try dsimp only
  repeat' first
    | with_reducible exact h
    | with_reducible apply State.save_evolves
    | with_reducible refine State.evolves_upMedia _ ?_ ?_
    | with_reducible exact fun _ _ _ k => k
    | with_reducible exact fun _ _ _ _ => Tab.sorted_nil
    | with_reducible exact fun _ _ _ k => Tab.sorted_put k
    | with_reducible exact fun _ _ _ k => Tab.sorted_erase k
    | with_reducible exact fun _ _ _ k => Tab.sorted_filter k
    | with_reducible exact fun _ _ _ k => Tab.sorted_filterKV k
    | (with_reducible intro b e q k); (with_reducible refine Tab.sorted_map (fun _ => ?_) k); repeat' first | rfl | split
    | with_reducible assumption
    | with_reducible refine evolves_ite (fun _ => ?_) (fun _ => ?_)
    | with_reducible refine evolves_foldl (fun _ _ _ => ?_) ?_
    | split
theorem State.refill_evolves {r : State} (s : State)
    (h : r.Evolves s) : r.Evolves (State.refill s) := by
  unfold State.refill
  try dsimp only
  repeat' first
    | with_reducible exact h
    | with_reducible apply State.issueFill_evolves
    | with_reducible apply State.startBase_evolves
    | with_reducible assumption
    | with_reducible refine evolves_ite (fun _ => ?_) (fun _ => ?_)
    | with_reducible refine evolves_foldl (fun _ _ _ => ?_) ?_
    | split
theorem State.mapCold_evolves {r : State} (s : State)
    (h : r.Evolves s) : r.Evolves (State.mapCold s) := by
  unfold State.mapCold
  try dsimp only
  repeat' first
    | with_reducible exact h
    | with_reducible refine State.evolves_upMap _ ?_
    | with_reducible assumption
    | with_reducible refine evolves_ite (fun _ => ?_) (fun _ => ?_)
    | with_reducible refine evolves_foldl (fun _ _ _ => ?_) ?_
    | split
theorem State.closeOpen_evolves {r : State} (s : State)
    (h : r.Evolves s) : r.Evolves (State.closeOpen s) := by
  unfold State.closeOpen
  try dsimp only
  repeat' first
    | with_reducible exact h
    | with_reducible apply State.setGroup_evolves
    | with_reducible refine State.evolves_upMedia _ ?_ ?_
    | with_reducible exact fun _ _ _ k => k
    | with_reducible exact fun _ _ _ _ => Tab.sorted_nil
    | with_reducible exact fun _ _ _ k => Tab.sorted_put k
    | with_reducible exact fun _ _ _ k => Tab.sorted_erase k
    | with_reducible exact fun _ _ _ k => Tab.sorted_filter k
    | with_reducible exact fun _ _ _ k => Tab.sorted_filterKV k
    | (with_reducible intro b e q k); (with_reducible refine Tab.sorted_map (fun _ => ?_) k); repeat' first | rfl | split
    | with_reducible assumption
    | with_reducible refine evolves_ite (fun _ => ?_) (fun _ => ?_)
    | with_reducible refine evolves_foldl (fun _ _ _ => ?_) ?_
    | split
theorem State.boundFail_evolves {r : State} (b : Nat) (lasting : Bool) (s : State)
    (h : r.Evolves s) : r.Evolves (State.boundFail b lasting s) := by
  unfold State.boundFail
  try dsimp only
  repeat' first
    | with_reducible exact h
    | with_reducible apply State.log_evolves
    | with_reducible refine State.evolves_upRstats _ ?_
    | with_reducible assumption
    | with_reducible refine evolves_ite (fun _ => ?_) (fun _ => ?_)
    | with_reducible refine evolves_foldl (fun _ _ _ => ?_) ?_
    | split
theorem State.boundStart_evolves {r : State} (s : State)
    (h : r.Evolves s) : r.Evolves (State.boundStart s) := by
  unfold State.boundStart
  try dsimp only
  repeat' first
    | with_reducible exact h
    | with_reducible apply State.log_evolves
    | with_reducible refine State.evolves_upRstats _ ?_
    | with_reducible assumption
    | with_reducible refine evolves_ite (fun _ => ?_) (fun _ => ?_)
    | with_reducible refine evolves_foldl (fun _ _ _ => ?_) ?_
    | split
theorem State.boundEnd_evolves {r : State} (b : Nat) (s : State)
    (h : r.Evolves s) : r.Evolves (State.boundEnd b s) := by
  unfold State.boundEnd
  try dsimp only
  repeat' first
    | with_reducible exact h
    | with_reducible refine State.evolves_upRstats _ ?_
    | with_reducible assumption
    | with_reducible refine evolves_ite (fun _ => ?_) (fun _ => ?_)
    | with_reducible refine evolves_foldl (fun _ _ _ => ?_) ?_
    | split
theorem State.setBatch_evolves {r : State} (x0 : Role) (b : List StageRec) (s : State)
    (h : r.Evolves s) : r.Evolves (State.setBatch x0 b s) := by
  unfold State.setBatch
  try dsimp only
  repeat' first
    | with_reducible exact h
    | with_reducible refine State.evolves_upDict _ ?_
    | with_reducible assumption
    | with_reducible refine evolves_ite (fun _ => ?_) (fun _ => ?_)
    | with_reducible refine evolves_foldl (fun _ _ _ => ?_) ?_
    | split
theorem State.endCommit_evolves {r : State} (x0 : Role) (code : Nat) (entry : Nat) (s : State)
    (h : r.Evolves s) : r.Evolves (State.endCommit x0 code entry s) := by
  unfold State.endCommit
  try dsimp only
  repeat' first
    | with_reducible exact h
    | with_reducible apply State.log_evolves
    | with_reducible apply State.setBatch_evolves
    | with_reducible refine State.evolves_upDict _ ?_
    | with_reducible assumption
    | with_reducible refine evolves_ite (fun _ => ?_) (fun _ => ?_)
    | with_reducible refine evolves_foldl (fun _ _ _ => ?_) ?_
    | split
theorem State.endWaiting_evolves {r : State} (p : PairCommit) (code : Nat) (s : State)
    (h : r.Evolves s) : r.Evolves (State.endWaiting p code s) := by
  unfold State.endWaiting
  try dsimp only
  repeat' first
    | with_reducible exact h
    | with_reducible apply State.endCommit_evolves
    | with_reducible apply State.reply_evolves
    | with_reducible assumption
    | with_reducible refine evolves_ite (fun _ => ?_) (fun _ => ?_)
    | with_reducible refine evolves_foldl (fun _ _ _ => ?_) ?_
    | split
theorem State.dropCommits_evolves {r : State} (s : State)
    (h : r.Evolves s) : r.Evolves (State.dropCommits s) := by
  unfold State.dropCommits
  try dsimp only
  repeat' first
    | with_reducible exact h
    | with_reducible apply State.endWaiting_evolves
    | with_reducible apply State.log_evolves
    | with_reducible apply State.reply_evolves
    | with_reducible refine State.evolves_upDict _ ?_
    | with_reducible assumption
    | with_reducible refine evolves_ite (fun _ => ?_) (fun _ => ?_)
    | with_reducible refine evolves_foldl (fun _ _ _ => ?_) ?_
    | split
theorem State.sweepLine_evolves {r : State} (line : Nat) (f : CacheFault) (s : State)
    (h : r.Evolves s) : r.Evolves (State.sweepLine line f s) := by
  unfold State.sweepLine
  try dsimp only
  repeat' first
    | with_reducible exact h
    | with_reducible apply State.poison_evolves
    | with_reducible apply State.putSector_evolves
    | with_reducible apply State.releaseAll_evolves
    | with_reducible refine State.evolves_upDram _ ?_
    | with_reducible refine State.evolves_upGills _ ?_
    | with_reducible refine State.evolves_upPwr _ ?_ ?_
    | with_reducible refine State.evolves_upTier _ ?_ ?_
    | with_reducible exact fun _ _ _ k => k
    | with_reducible exact fun _ _ _ _ => Tab.sorted_nil
    | with_reducible exact fun _ _ _ k => Tab.sorted_put k
    | with_reducible exact fun _ _ _ k => Tab.sorted_erase k
    | with_reducible exact fun _ _ _ k => Tab.sorted_filter k
    | with_reducible exact fun _ _ _ k => Tab.sorted_filterKV k
    | (with_reducible intro b e q k); (with_reducible refine Tab.sorted_map (fun _ => ?_) k); repeat' first | rfl | split
    | with_reducible assumption
    | with_reducible refine evolves_ite (fun _ => ?_) (fun _ => ?_)
    | with_reducible refine evolves_foldl (fun _ _ _ => ?_) ?_
    | split
theorem State.sweepKept_evolves {r : State} (swept : List (Nat × CacheFault)) (s : State)
    (h : r.Evolves s) : r.Evolves (State.sweepKept swept s) := by
  unfold State.sweepKept
  try dsimp only
  repeat' first
    | with_reducible exact h
    | with_reducible apply State.sweepLine_evolves
    | with_reducible assumption
    | with_reducible refine evolves_ite (fun _ => ?_) (fun _ => ?_)
    | with_reducible refine evolves_foldl (fun _ _ _ => ?_) ?_
    | split
theorem State.controllerReset_evolves {r : State} (source : Nat) (fcBad : List Nat) (swept : List (Nat × CacheFault)) (s : State)
    (h : r.Evolves s) : r.Evolves (State.controllerReset source fcBad swept s) := by
  unfold State.controllerReset
  try dsimp only
  repeat' first
    | with_reducible exact h
    | with_reducible apply State.clearVolatile_evolves
    | with_reducible apply State.closeOpen_evolves
    | with_reducible apply State.linkDown_evolves
    | with_reducible apply State.mapCold_evolves
    | with_reducible apply State.rebuildMap_evolves
    | with_reducible apply State.refill_evolves
    | with_reducible apply State.replayJournal_evolves
    | with_reducible apply State.resumeGen_evolves
    | with_reducible apply State.saveFrontCache_evolves
    | with_reducible apply State.standDown_evolves
    | with_reducible apply State.sweepKept_evolves
    | with_reducible apply State.unchargeAll_evolves
    | with_reducible apply State.undoAll_evolves
    | with_reducible refine State.evolves_upPwr _ ?_ ?_
    | with_reducible exact fun _ _ _ k => k
    | (with_reducible intro b e q k); dsimp only at k ⊢; first | omega | (have ha := State.armCode_le s; omega) | ((with_reducible refine ⟨?_, k.2⟩); (repeat' first | (with_reducible refine Nat.le_trans (State.armCode_le _) ?_); decide | omega | split); done) | (have hm' := hm q; omega) | exact ⟨Nat.le_trans (State.armCode_le _) (by decide), k.2⟩ | (have ha := State.armCode_le _; constructor <;> repeat' first | omega | split)
    | with_reducible assumption
    | with_reducible refine evolves_ite (fun _ => ?_) (fun _ => ?_)
    | with_reducible refine evolves_foldl (fun _ _ _ => ?_) ?_
    | split
theorem State.warmReset_evolves {r : State} (s : State)
    (h : r.Evolves s) : r.Evolves (State.warmReset s) := by
  unfold State.warmReset
  try dsimp only
  repeat' first
    | with_reducible exact h
    | with_reducible apply State.abandonPrograms_evolves
    | with_reducible apply State.clearAtomics_evolves
    | with_reducible apply State.dropCommits_evolves
    | with_reducible apply State.dropMisses_evolves
    | with_reducible apply State.dropRequests_evolves
    | with_reducible apply State.keepAdmitted_evolves
    | with_reducible apply State.linkDown_evolves
    | with_reducible apply State.refill_evolves
    | with_reducible apply State.refreshSelf_evolves
    | with_reducible apply State.restartMember_evolves
    | with_reducible apply State.standDown_evolves
    | with_reducible refine State.evolves_upDict _ ?_
    | with_reducible refine State.evolves_upObs _ ?_ ?_
    | with_reducible refine State.evolves_upPwr _ ?_ ?_
    | with_reducible exact fun _ _ _ k => k
    | with_reducible exact fun _ _ _ _ => Tab.sorted_nil
    | with_reducible exact fun _ _ _ k => Tab.sorted_put k
    | with_reducible exact fun _ _ _ k => Tab.sorted_erase k
    | with_reducible exact fun _ _ _ k => Tab.sorted_filter k
    | with_reducible exact fun _ _ _ k => Tab.sorted_filterKV k
    | (with_reducible intro b e q k); (with_reducible refine Tab.sorted_map (fun _ => ?_) k); repeat' first | rfl | split
    | with_reducible assumption
    | with_reducible refine evolves_ite (fun _ => ?_) (fun _ => ?_)
    | with_reducible refine evolves_foldl (fun _ _ _ => ?_) ?_
    | split

end Sys2Proof.Machine
end

