-- ==== Sys2Proof/Laws/EvolvesServe.lean ====
section
/-!
SUPPORT. How the operations of Machine/Serve.lean let the state evolve.
-/
namespace Sys2Proof.Machine

theorem State.refuseUnknown_evolves {r : State} (key : Nat) (s : State)
    (h : r.Evolves s) : r.Evolves (State.refuseUnknown key s) := by
  unfold State.refuseUnknown
  try dsimp only
  repeat' first
    | with_reducible exact h
    | with_reducible apply State.log_evolves
    | with_reducible refine State.evolves_upPort _ ?_
    | with_reducible assumption
    | with_reducible refine evolves_ite (fun _ => ?_) (fun _ => ?_)
    | with_reducible refine evolves_foldl (fun _ _ _ => ?_) ?_
    | split
theorem State.refuseRight_evolves {r : State} (code : Nat) (n : Nat) (addr : Nat) (s : State)
    (h : r.Evolves s) : r.Evolves (State.refuseRight code n addr s) := by
  unfold State.refuseRight
  try dsimp only
  repeat' first
    | with_reducible exact h
    | with_reducible apply State.logFor_evolves
    | with_reducible refine State.evolves_upPort _ ?_
    | with_reducible assumption
    | with_reducible refine evolves_ite (fun _ => ?_) (fun _ => ?_)
    | with_reducible refine evolves_foldl (fun _ _ _ => ?_) ?_
    | split
theorem State.pageWrite_evolves {r : State} (n : Nat) (k : Nat) (d : Line) (m0 : Mask) (s : State)
    (h : r.Evolves s) : r.Evolves (State.pageWrite n k d m0 s) := by
  unfold State.pageWrite
  try dsimp only
  repeat' first
    | with_reducible exact h
    | with_reducible refine State.evolves_upMbox _ ?_
    | with_reducible refine State.evolves_upPort _ ?_
    | with_reducible assumption
    | with_reducible refine evolves_ite (fun _ => ?_) (fun _ => ?_)
    | with_reducible refine evolves_foldl (fun _ _ _ => ?_) ?_
    | split
theorem State.refuseCond_evolves {r : State} (n : Nat) (target : Nat) (s : State)
    (h : r.Evolves s) : r.Evolves (State.refuseCond n target s) := by
  unfold State.refuseCond
  try dsimp only
  repeat' first
    | with_reducible exact h
    | with_reducible apply State.countOutcome_evolves
    | with_reducible apply State.setStatus_evolves
    | with_reducible apply State.spendRes_evolves
    | with_reducible assumption
    | with_reducible refine evolves_ite (fun _ => ?_) (fun _ => ?_)
    | with_reducible refine evolves_foldl (fun _ _ _ => ?_) ?_
    | split
theorem State.enqueue_evolves {r : State} (x0 : Req) (s : State)
    (h : r.Evolves s) : r.Evolves (State.enqueue x0 s) := by
  unfold State.enqueue
  try dsimp only
  repeat' first
    | with_reducible exact h
    | with_reducible apply State.count_evolves
    | with_reducible apply State.countAt_evolves
    | with_reducible refine State.evolves_upPort _ ?_
    | with_reducible refine State.evolves_upReqs _ ?_
    | with_reducible refine State.evolves_upSlices _ ?_
    | with_reducible assumption
    | with_reducible refine evolves_ite (fun _ => ?_) (fun _ => ?_)
    | with_reducible refine evolves_foldl (fun _ _ _ => ?_) ?_
    | split
theorem State.arrive_evolves {r : State} (isWrite : Bool) (key0 : Nat) (addr : Nat) (tag : Nat) (d : Line) (be : Mask) (poison : Bool) (s : State)
    (h : r.Evolves s) : r.Evolves (State.arrive isWrite key0 addr tag d be poison s) := by
  unfold State.arrive
  try dsimp only
  repeat' first
    | with_reducible exact h
    | with_reducible apply State.count_evolves
    | with_reducible apply State.enqueue_evolves
    | with_reducible apply State.pageWrite_evolves
    | with_reducible apply State.refuseCond_evolves
    | with_reducible apply State.refuseRight_evolves
    | with_reducible apply State.refuseUnknown_evolves
    | with_reducible apply State.respond_evolves
    | with_reducible refine State.evolves_upPort _ ?_
    | with_reducible assumption
    | with_reducible refine evolves_ite (fun _ => ?_) (fun _ => ?_)
    | with_reducible refine evolves_foldl (fun _ _ _ => ?_) ?_
    | split
theorem State.refillTokens_evolves {r : State} (s : State)
    (h : r.Evolves s) : r.Evolves (State.refillTokens s) := by
  unfold State.refillTokens
  try dsimp only
  repeat' first
    | with_reducible exact h
    | with_reducible refine State.evolves_upReg _ ?_
    | with_reducible assumption
    | with_reducible refine evolves_ite (fun _ => ?_) (fun _ => ?_)
    | with_reducible refine evolves_foldl (fun _ _ _ => ?_) ?_
    | split
theorem State.nextReq_evolves {r : State} (s0 : State) (slice : Nat)
    (h : r.Evolves s0) : EvolvesOP r (State.nextReq s0 slice) := by
  unfold State.nextReq
  try dsimp only
  repeat' first
    | with_reducible exact h
    | with_reducible apply State.nextClass_evolves
    | with_reducible apply State.refillTokens_evolves
    | with_reducible assumption
    | with_reducible refine evolves_ite (fun _ => ?_) (fun _ => ?_)
    | with_reducible refine evolves_foldl (fun _ _ _ => ?_) ?_
    | with_reducible exact evolvesO_get (by assumption)
    | with_reducible refine evolvesO_map (fun _ _ => ?_) ?_
    | with_reducible refine evolvesO_mapP (fun _ _ => ?_) ?_
    | with_reducible refine evolvesO_foldl (fun _ _ _ => ?_) ?_
    | exact evolvesO_none
    | with_reducible refine evolvesO_some ?_
    | exact evolvesOP_none
    | with_reducible refine evolvesOP_some ?_
    | with_reducible refine evolvesP_ite ?_ ?_
    | with_reducible refine evolvesP_foldl (fun _ _ _ => ?_) ?_
    | split
    | with_reducible refine EvolvesP.snd ?_
    | with_reducible refine evolvesP_mk ?_
    | with_reducible refine EvolvesP.out (by assumption) ?_
    | with_reducible refine EvolvesOP.outp (by assumption) ?_
    | with_reducible refine EvolvesOP.out (by assumption) ?_
theorem State.admitRead_evolves {r : State} (c : Nat) (s : State)
    (h : r.Evolves s) : r.Evolves (State.admitRead c s) := by
  unfold State.admitRead
  try dsimp only
  repeat' first
    | with_reducible exact h
    | with_reducible apply State.boundFail_evolves
    | with_reducible refine State.evolves_upReg _ ?_
    | with_reducible assumption
    | with_reducible refine evolves_ite (fun _ => ?_) (fun _ => ?_)
    | with_reducible refine evolves_foldl (fun _ _ _ => ?_) ?_
    | split
theorem State.reserve_evolves {r : State} (x0 : Req) (s : State)
    (h : r.Evolves s) : r.Evolves (State.reserve x0 s) := by
  unfold State.reserve
  try dsimp only
  repeat' first
    | with_reducible exact h
    | with_reducible apply State.endRes_evolves
    | with_reducible refine State.evolves_upAtom _ ?_
    | with_reducible assumption
    | with_reducible refine evolves_ite (fun _ => ?_) (fun _ => ?_)
    | with_reducible refine evolves_foldl (fun _ _ _ => ?_) ?_
    | split
theorem State.resRoom_evolves {r : State} (x0 : Req) (s : State)
    (h : r.Evolves s) : EvolvesO r (State.resRoom x0 s) := by
  unfold State.resRoom
  try dsimp only
  repeat' first
    | with_reducible exact h
    | with_reducible apply State.endRes_evolves
    | with_reducible assumption
    | with_reducible refine evolves_ite (fun _ => ?_) (fun _ => ?_)
    | with_reducible refine evolves_foldl (fun _ _ _ => ?_) ?_
    | with_reducible exact evolvesO_get (by assumption)
    | with_reducible refine evolvesO_map (fun _ _ => ?_) ?_
    | with_reducible refine evolvesO_foldl (fun _ _ _ => ?_) ?_
    | exact evolvesO_none
    | with_reducible refine evolvesO_some ?_
    | split
    | with_reducible refine EvolvesO.out (by assumption) ?_
theorem State.finishRead_evolves {r : State} (x0 : Req) (d : Line) (s : State)
    (h : r.Evolves s) : r.Evolves (State.finishRead x0 d s) := by
  unfold State.finishRead
  try dsimp only
  repeat' first
    | with_reducible exact h
    | with_reducible apply State.answer_evolves
    | with_reducible apply State.count_evolves
    | with_reducible apply State.resRoom_evolves
    | with_reducible apply State.reserve_evolves
    | with_reducible apply State.stageReq_evolves
    | with_reducible assumption
    | with_reducible refine evolves_ite (fun _ => ?_) (fun _ => ?_)
    | with_reducible refine evolves_foldl (fun _ _ _ => ?_) ?_
    | with_reducible exact evolvesO_get (by assumption)
    | with_reducible refine evolvesO_map (fun _ _ => ?_) ?_
    | with_reducible refine evolvesO_foldl (fun _ _ _ => ?_) ?_
    | exact evolvesO_none
    | with_reducible refine evolvesO_some ?_
    | split
    | with_reducible refine EvolvesO.out (by assumption) ?_
theorem State.tagLookup_evolves {r : State} (sec : Nat) (s : State)
    (h : r.Evolves s) : r.Evolves (State.tagLookup sec s) := by
  unfold State.tagLookup
  try dsimp only
  repeat' first
    | with_reducible exact h
    | with_reducible refine State.evolves_upTier _ ?_ ?_
    | with_reducible exact fun _ _ _ k => k
    | with_reducible exact fun _ _ _ _ => Tab.sorted_nil
    | with_reducible exact fun _ _ _ k => Tab.sorted_put k
    | with_reducible exact fun _ _ _ k => Tab.sorted_erase k
    | with_reducible exact fun _ _ _ k => Tab.sorted_filter k
    | with_reducible exact fun _ _ _ k => Tab.sorted_filterKV k
    | (with_reducible intro b e q k); (with_reducible refine Tab.sorted_map (fun _ => ?_) k); repeat' first | rfl | split
    | with_reducible assumption
    | with_reducible refine evolves_ite (fun _ => ?_) (fun _ => ?_)
    | with_reducible refine evolves_foldl (fun _ _ _ => ?_) ?_
    | split
theorem State.takeTag_evolves {r : State} (s : State)
    (h : r.Evolves s) : EvolvesP r (State.takeTag s) := by
  unfold State.takeTag
  try dsimp only
  repeat' first
    | with_reducible exact h
    | with_reducible refine State.evolves_upYoke _ ?_ ?_
    | with_reducible exact fun _ _ _ k => k
    | with_reducible assumption
    | with_reducible refine evolves_ite (fun _ => ?_) (fun _ => ?_)
    | with_reducible refine evolves_foldl (fun _ _ _ => ?_) ?_
    | with_reducible refine evolvesP_ite ?_ ?_
    | with_reducible refine evolvesP_foldl (fun _ _ _ => ?_) ?_
    | split
    | with_reducible refine EvolvesP.snd ?_
    | with_reducible refine evolvesP_mk ?_
    | with_reducible refine EvolvesP.out (by assumption) ?_
theorem State.forwardRead_evolves {r : State} (x0 : Req) (s : State)
    (h : r.Evolves s) : r.Evolves (State.forwardRead x0 s) := by
  unfold State.forwardRead
  try dsimp only
  repeat' first
    | with_reducible exact h
    | with_reducible apply State.send_evolves
    | with_reducible apply State.stageReq_evolves
    | with_reducible apply State.takeTag_evolves
    | with_reducible refine State.evolves_upYoke _ ?_ ?_
    | with_reducible exact fun _ _ _ k => k
    | with_reducible assumption
    | with_reducible refine evolves_ite (fun _ => ?_) (fun _ => ?_)
    | with_reducible refine evolves_foldl (fun _ _ _ => ?_) ?_
    | with_reducible refine evolvesP_ite ?_ ?_
    | with_reducible refine evolvesP_foldl (fun _ _ _ => ?_) ?_
    | split
    | with_reducible refine EvolvesP.snd ?_
    | with_reducible refine evolvesP_mk ?_
    | with_reducible refine EvolvesP.out (by assumption) ?_
theorem State.wakeSlice_evolves {r : State} (slice : Nat) (s : State)
    (h : r.Evolves s) : r.Evolves (State.wakeSlice slice s) := by
  unfold State.wakeSlice
  try dsimp only
  repeat' first
    | with_reducible exact h
    | with_reducible refine State.evolves_upSlices _ ?_
    | with_reducible assumption
    | with_reducible refine evolves_ite (fun _ => ?_) (fun _ => ?_)
    | with_reducible refine evolves_foldl (fun _ _ _ => ?_) ?_
    | split
theorem State.attach_evolves {r : State} (x0 : Req) (s : State)
    (h : r.Evolves s) : r.Evolves (State.attach x0 s) := by
  unfold State.attach
  try dsimp only
  repeat' first
    | with_reducible exact h
    | with_reducible apply State.boundFail_evolves
    | with_reducible apply State.stageReq_evolves
    | with_reducible refine State.evolves_upRstats _ ?_
    | with_reducible assumption
    | with_reducible refine evolves_ite (fun _ => ?_) (fun _ => ?_)
    | with_reducible refine evolves_foldl (fun _ _ _ => ?_) ?_
    | split
theorem State.readBelow_evolves {r : State} (x0 : Req) (s : State)
    (h : r.Evolves s) : r.Evolves (State.readBelow x0 s) := by
  unfold State.readBelow
  try dsimp only
  repeat' first
    | with_reducible exact h
    | with_reducible apply State.admitRead_evolves
    | with_reducible apply State.attach_evolves
    | with_reducible apply State.count_evolves
    | with_reducible apply State.fcFill_evolves
    | with_reducible apply State.finishRead_evolves
    | with_reducible apply State.mapTouch_evolves
    | with_reducible apply State.stageReq_evolves
    | with_reducible apply State.startFetch_evolves
    | with_reducible apply State.tagLookup_evolves
    | with_reducible apply State.tierTouch_evolves
    | with_reducible refine State.evolves_upTier _ ?_ ?_
    | with_reducible exact fun _ _ _ k => k
    | with_reducible exact fun _ _ _ _ => Tab.sorted_nil
    | with_reducible exact fun _ _ _ k => Tab.sorted_put k
    | with_reducible exact fun _ _ _ k => Tab.sorted_erase k
    | with_reducible exact fun _ _ _ k => Tab.sorted_filter k
    | with_reducible exact fun _ _ _ k => Tab.sorted_filterKV k
    | (with_reducible intro b e q k); (with_reducible refine Tab.sorted_map (fun _ => ?_) k); repeat' first | rfl | split
    | with_reducible assumption
    | with_reducible refine evolves_ite (fun _ => ?_) (fun _ => ?_)
    | with_reducible refine evolves_foldl (fun _ _ _ => ?_) ?_
    | split
theorem State.noteAccess_evolves {r : State} (hit : Bool) (x1 : Req) (s : State)
    (h : r.Evolves s) : r.Evolves (State.noteAccess hit x1 s) := by
  unfold State.noteAccess
  try dsimp only
  repeat' first
    | with_reducible exact h
    | with_reducible apply State.countAt_evolves
    | with_reducible refine State.evolves_upFc _ ?_ ?_
    | with_reducible exact fun _ _ _ k => k
    | with_reducible exact fun _ _ _ _ => Tab.sorted_nil
    | with_reducible exact fun _ _ _ k => Tab.sorted_put k
    | with_reducible exact fun _ _ _ k => Tab.sorted_erase k
    | with_reducible exact fun _ _ _ k => Tab.sorted_filter k
    | with_reducible exact fun _ _ _ k => Tab.sorted_filterKV k
    | (with_reducible intro b e q k); (with_reducible refine Tab.sorted_map (fun _ => ?_) k); repeat' first | rfl | split
    | with_reducible assumption
    | with_reducible refine evolves_ite (fun _ => ?_) (fun _ => ?_)
    | with_reducible refine evolves_foldl (fun _ _ _ => ?_) ?_
    | split
theorem State.serveRead_evolves {r : State} (x0 : Req) (s : State)
    (h : r.Evolves s) : r.Evolves (State.serveRead x0 s) := by
  unfold State.serveRead
  try dsimp only
  repeat' first
    | with_reducible exact h
    | with_reducible apply State.count_evolves
    | with_reducible apply State.fcTouch_evolves
    | with_reducible apply State.finishRead_evolves
    | with_reducible apply State.forwardRead_evolves
    | with_reducible apply State.moveToTier_evolves
    | with_reducible apply State.noteAccess_evolves
    | with_reducible apply State.readBelow_evolves
    | with_reducible apply State.stageReq_evolves
    | with_reducible apply State.wakeSlice_evolves
    | with_reducible refine State.evolves_upFc _ ?_ ?_
    | with_reducible exact fun _ _ _ k => k
    | with_reducible exact fun _ _ _ _ => Tab.sorted_nil
    | with_reducible exact fun _ _ _ k => Tab.sorted_put k
    | with_reducible exact fun _ _ _ k => Tab.sorted_erase k
    | with_reducible exact fun _ _ _ k => Tab.sorted_filter k
    | with_reducible exact fun _ _ _ k => Tab.sorted_filterKV k
    | (with_reducible intro b e q k); (with_reducible refine Tab.sorted_map (fun _ => ?_) k); repeat' first | rfl | split
    | with_reducible assumption
    | with_reducible refine evolves_ite (fun _ => ?_) (fun _ => ?_)
    | with_reducible refine evolves_foldl (fun _ _ _ => ?_) ?_
    | with_reducible exact evolvesO_get (by assumption)
    | with_reducible refine evolvesO_map (fun _ _ => ?_) ?_
    | with_reducible refine evolvesO_foldl (fun _ _ _ => ?_) ?_
    | exact evolvesO_none
    | with_reducible refine evolvesO_some ?_
    | split
    | with_reducible refine EvolvesO.out (by assumption) ?_
theorem State.brineDrop_evolves {r : State} (line : Nat) (s : State)
    (h : r.Evolves s) : r.Evolves (State.brineDrop line s) := by
  unfold State.brineDrop
  try dsimp only
  repeat' first
    | with_reducible exact h
    | with_reducible apply State.poison_evolves
    | with_reducible refine State.evolves_upCare _ ?_ ?_
    | with_reducible exact fun _ _ _ k => k
    | with_reducible assumption
    | with_reducible refine evolves_ite (fun _ => ?_) (fun _ => ?_)
    | with_reducible refine evolves_foldl (fun _ _ _ => ?_) ?_
    | split
theorem State.notePoison_evolves {r : State} (x0 : Req) (s : State)
    (h : r.Evolves s) : r.Evolves (State.notePoison x0 s) := by
  unfold State.notePoison
  try dsimp only
  repeat' first
    | with_reducible exact h
    | with_reducible apply State.logFor_evolves
    | with_reducible assumption
    | with_reducible refine evolves_ite (fun _ => ?_) (fun _ => ?_)
    | with_reducible refine evolves_foldl (fun _ _ _ => ?_) ?_
    | split
theorem State.dirtyAtPeer_evolves {r : State} (g : Nat) (s : State)
    (h : r.Evolves s) : r.Evolves (State.dirtyAtPeer g s) := by
  unfold State.dirtyAtPeer
  try dsimp only
  repeat' first
    | with_reducible exact h
    | with_reducible refine State.evolves_upYoke _ ?_ ?_
    | with_reducible exact fun _ _ _ k => k
    | with_reducible assumption
    | with_reducible refine evolves_ite (fun _ => ?_) (fun _ => ?_)
    | with_reducible refine evolves_foldl (fun _ _ _ => ?_) ?_
    | split
theorem State.mirrorOut_evolves {r : State} (x0 : Req) (s : State)
    (h : r.Evolves s) : r.Evolves (State.mirrorOut x0 s) := by
  unfold State.mirrorOut
  try dsimp only
  repeat' first
    | with_reducible exact h
    | with_reducible apply State.count_evolves
    | with_reducible apply State.dirtyAtPeer_evolves
    | with_reducible apply State.send_evolves
    | with_reducible apply State.stageReq_evolves
    | with_reducible apply State.takeTag_evolves
    | with_reducible refine State.evolves_upYoke _ ?_ ?_
    | with_reducible exact fun _ _ _ k => k
    | with_reducible assumption
    | with_reducible refine evolves_ite (fun _ => ?_) (fun _ => ?_)
    | with_reducible refine evolves_foldl (fun _ _ _ => ?_) ?_
    | with_reducible refine evolvesP_ite ?_ ?_
    | with_reducible refine evolvesP_foldl (fun _ _ _ => ?_) ?_
    | split
    | with_reducible refine EvolvesP.snd ?_
    | with_reducible refine evolvesP_mk ?_
    | with_reducible refine EvolvesP.out (by assumption) ?_
theorem State.forwardOut_evolves {r : State} (x0 : Req) (conditional : Bool) (s : State)
    (h : r.Evolves s) : r.Evolves (State.forwardOut x0 conditional s) := by
  unfold State.forwardOut
  try dsimp only
  repeat' first
    | with_reducible exact h
    | with_reducible apply State.count_evolves
    | with_reducible apply State.send_evolves
    | with_reducible apply State.stageReq_evolves
    | with_reducible apply State.takeTag_evolves
    | with_reducible refine State.evolves_upYoke _ ?_ ?_
    | with_reducible exact fun _ _ _ k => k
    | with_reducible assumption
    | with_reducible refine evolves_ite (fun _ => ?_) (fun _ => ?_)
    | with_reducible refine evolves_foldl (fun _ _ _ => ?_) ?_
    | with_reducible refine evolvesP_ite ?_ ?_
    | with_reducible refine evolvesP_foldl (fun _ _ _ => ?_) ?_
    | split
    | with_reducible refine EvolvesP.snd ?_
    | with_reducible refine evolvesP_mk ?_
    | with_reducible refine EvolvesP.out (by assumption) ?_
theorem State.missWrite_evolves {r : State} (x0 : Req) (s : State)
    (h : r.Evolves s) : r.Evolves (State.missWrite x0 s) := by
  unfold State.missWrite
  try dsimp only
  repeat' first
    | with_reducible exact h
    | with_reducible apply State.tagLookup_evolves
    | with_reducible apply State.wakeSlice_evolves
    | with_reducible refine State.evolves_upFc _ ?_ ?_
    | with_reducible exact fun _ _ _ k => k
    | with_reducible exact fun _ _ _ _ => Tab.sorted_nil
    | with_reducible exact fun _ _ _ k => Tab.sorted_put k
    | with_reducible exact fun _ _ _ k => Tab.sorted_erase k
    | with_reducible exact fun _ _ _ k => Tab.sorted_filter k
    | with_reducible exact fun _ _ _ k => Tab.sorted_filterKV k
    | (with_reducible intro b e q k); (with_reducible refine Tab.sorted_map (fun _ => ?_) k); repeat' first | rfl | split
    | with_reducible assumption
    | with_reducible refine evolves_ite (fun _ => ?_) (fun _ => ?_)
    | with_reducible refine evolves_foldl (fun _ _ _ => ?_) ?_
    | split
theorem State.storeWrite_evolves {r : State} (x0 : Req) (s : State)
    (h : r.Evolves s) : r.Evolves (State.storeWrite x0 s) := by
  unfold State.storeWrite
  try dsimp only
  repeat' first
    | with_reducible exact h
    | with_reducible apply State.answer_evolves
    | with_reducible apply State.applyWrite_evolves
    | with_reducible apply State.brineDrop_evolves
    | with_reducible apply State.chargeFor_evolves
    | with_reducible apply State.completeWrite_evolves
    | with_reducible apply State.count_evolves
    | with_reducible apply State.keepBefore_evolves
    | with_reducible apply State.mirrorOut_evolves
    | with_reducible apply State.missWrite_evolves
    | with_reducible apply State.noteAccess_evolves
    | with_reducible apply State.notePoison_evolves
    | with_reducible apply State.pressSet_evolves
    | with_reducible apply State.stageReq_evolves
    | with_reducible apply State.uncharge_evolves
    | with_reducible apply State.wakeSlice_evolves
    | with_reducible assumption
    | with_reducible refine evolves_ite (fun _ => ?_) (fun _ => ?_)
    | with_reducible refine evolves_foldl (fun _ _ _ => ?_) ?_
    | with_reducible exact evolvesO_get (by assumption)
    | with_reducible refine evolvesO_map (fun _ _ => ?_) ?_
    | with_reducible refine evolvesO_foldl (fun _ _ _ => ?_) ?_
    | exact evolvesO_none
    | with_reducible refine evolvesO_some ?_
    | split
    | with_reducible refine EvolvesO.out (by assumption) ?_
theorem State.serveWrite_evolves {r : State} (x0 : Req) (s : State)
    (h : r.Evolves s) : r.Evolves (State.serveWrite x0 s) := by
  unfold State.serveWrite
  try dsimp only
  repeat' first
    | with_reducible exact h
    | with_reducible apply State.answer_evolves
    | with_reducible apply State.brineDrop_evolves
    | with_reducible apply State.forwardOut_evolves
    | with_reducible apply State.stageReq_evolves
    | with_reducible apply State.storeWrite_evolves
    | with_reducible assumption
    | with_reducible refine evolves_ite (fun _ => ?_) (fun _ => ?_)
    | with_reducible refine evolves_foldl (fun _ _ _ => ?_) ?_
    | split
theorem State.recordOutcome_evolves {r : State} (entry : Nat) (line : Nat) (outcome : Nat) (s : State)
    (h : r.Evolves s) : r.Evolves (State.recordOutcome entry line outcome s) := by
  unfold State.recordOutcome
  try dsimp only
  repeat' first
    | with_reducible exact h
    | with_reducible apply State.countOutcome_evolves
    | with_reducible apply State.setStatus_evolves
    | with_reducible assumption
    | with_reducible refine evolves_ite (fun _ => ?_) (fun _ => ?_)
    | with_reducible refine evolves_foldl (fun _ _ _ => ?_) ?_
    | split
theorem State.serveCond_evolves {r : State} (x0 : Req) (s : State)
    (h : r.Evolves s) : r.Evolves (State.serveCond x0 s) := by
  unfold State.serveCond
  try dsimp only
  repeat' first
    | with_reducible exact h
    | with_reducible apply State.answer_evolves
    | with_reducible apply State.brineDrop_evolves
    | with_reducible apply State.count_evolves
    | with_reducible apply State.forwardOut_evolves
    | with_reducible apply State.recordOutcome_evolves
    | with_reducible apply State.spendRes_evolves
    | with_reducible apply State.stageReq_evolves
    | with_reducible apply State.storeWrite_evolves
    | with_reducible assumption
    | with_reducible refine evolves_ite (fun _ => ?_) (fun _ => ?_)
    | with_reducible refine evolves_foldl (fun _ _ _ => ?_) ?_
    | split
theorem State.serve_evolves {r : State} (x0 : Req) (s : State)
    (h : r.Evolves s) : r.Evolves (State.serve x0 s) := by
  unfold State.serve
  try dsimp only
  repeat' first
    | with_reducible exact h
    | with_reducible apply State.serveCond_evolves
    | with_reducible apply State.serveRead_evolves
    | with_reducible apply State.serveWrite_evolves
    | with_reducible assumption
    | with_reducible refine evolves_ite (fun _ => ?_) (fun _ => ?_)
    | with_reducible refine evolves_foldl (fun _ _ _ => ?_) ?_
    | split
theorem State.answerAttached_evolves {r : State} (line : Nat) (d : Line) (s : State)
    (h : r.Evolves s) : r.Evolves (State.answerAttached line d s) := by
  unfold State.answerAttached
  try dsimp only
  repeat' first
    | with_reducible exact h
    | with_reducible apply State.finishRead_evolves
    | with_reducible assumption
    | with_reducible refine evolves_ite (fun _ => ?_) (fun _ => ?_)
    | with_reducible refine evolves_foldl (fun _ _ _ => ?_) ?_
    | split
theorem State.parkAttached_evolves {r : State} (line : Nat) (s : State)
    (h : r.Evolves s) : r.Evolves (State.parkAttached line s) := by
  unfold State.parkAttached
  try dsimp only
  repeat' first
    | with_reducible exact h
    | with_reducible refine State.evolves_upReqs _ ?_
    | with_reducible assumption
    | with_reducible refine evolves_ite (fun _ => ?_) (fun _ => ?_)
    | with_reducible refine evolves_foldl (fun _ _ _ => ?_) ?_
    | split
theorem State.lockFetched_evolves {r : State} (m : Miss) (s : State)
    (h : r.Evolves s) : r.Evolves (State.lockFetched m s) := by
  unfold State.lockFetched
  try dsimp only
  repeat' first
    | with_reducible exact h
    | with_reducible apply State.fcPut_evolves
    | with_reducible assumption
    | with_reducible refine evolves_ite (fun _ => ?_) (fun _ => ?_)
    | with_reducible refine evolves_foldl (fun _ _ _ => ?_) ?_
    | split
theorem State.gather_evolves {r : State} (m : Miss) (s : State)
    (h : r.Evolves s) : r.Evolves (State.gather m s) := by
  unfold State.gather
  try dsimp only
  repeat' first
    | with_reducible exact h
    | with_reducible apply State.dropMiss_evolves
    | with_reducible apply State.setMiss_evolves
    | with_reducible apply State.stopReads_evolves
    | with_reducible apply State.tierFill_evolves
    | with_reducible assumption
    | with_reducible refine evolves_ite (fun _ => ?_) (fun _ => ?_)
    | with_reducible refine evolves_foldl (fun _ _ _ => ?_) ?_
    | split
theorem State.deliver_evolves {r : State} (m : Miss) (s : State)
    (h : r.Evolves s) : r.Evolves (State.deliver m s) := by
  unfold State.deliver
  try dsimp only
  repeat' first
    | with_reducible exact h
    | with_reducible apply State.answerAttached_evolves
    | with_reducible apply State.fcFill_evolves
    | with_reducible apply State.gather_evolves
    | with_reducible apply State.lockFetched_evolves
    | with_reducible apply State.parkAttached_evolves
    | with_reducible apply State.poison_evolves
    | with_reducible assumption
    | with_reducible refine evolves_ite (fun _ => ?_) (fun _ => ?_)
    | with_reducible refine evolves_foldl (fun _ _ _ => ?_) ?_
    | split
theorem State.deliverFill_evolves {r : State} (m : Miss) (s : State)
    (h : r.Evolves s) : r.Evolves (State.deliverFill m s) := by
  unfold State.deliverFill
  try dsimp only
  repeat' first
    | with_reducible exact h
    | with_reducible apply State.dropMiss_evolves
    | with_reducible apply State.fillSector_evolves
    | with_reducible apply State.poisonAll_evolves
    | with_reducible assumption
    | with_reducible refine evolves_ite (fun _ => ?_) (fun _ => ?_)
    | with_reducible refine evolves_foldl (fun _ _ _ => ?_) ?_
    | split
theorem State.deliverPoison_evolves {r : State} (m : Miss) (s : State)
    (h : r.Evolves s) : r.Evolves (State.deliverPoison m s) := by
  unfold State.deliverPoison
  try dsimp only
  repeat' first
    | with_reducible exact h
    | with_reducible apply State.answerAttached_evolves
    | with_reducible apply State.dropMiss_evolves
    | with_reducible apply State.fcFill_evolves
    | with_reducible apply State.lockFetched_evolves
    | with_reducible apply State.parkAttached_evolves
    | with_reducible apply State.poisonBy_evolves
    | with_reducible assumption
    | with_reducible refine evolves_ite (fun _ => ?_) (fun _ => ?_)
    | with_reducible refine evolves_foldl (fun _ _ _ => ?_) ?_
    | split
theorem State.poisonFill_evolves {r : State} (m : Miss) (s : State)
    (h : r.Evolves s) : r.Evolves (State.poisonFill m s) := by
  unfold State.poisonFill
  try dsimp only
  repeat' first
    | with_reducible exact h
    | with_reducible apply State.countMerge_evolves
    | with_reducible apply State.dropMiss_evolves
    | with_reducible apply State.poisonNow_evolves
    | with_reducible apply State.putSector_evolves
    | with_reducible apply State.wakeSector_evolves
    | with_reducible assumption
    | with_reducible refine evolves_ite (fun _ => ?_) (fun _ => ?_)
    | with_reducible refine evolves_foldl (fun _ _ _ => ?_) ?_
    | split
theorem State.endPart_evolves {r : State} (m : Miss) (ok : Bool) (s : State)
    (h : r.Evolves s) : r.Evolves (State.endPart m ok s) := by
  unfold State.endPart
  try dsimp only
  repeat' first
    | with_reducible exact h
    | with_reducible apply State.dropMiss_evolves
    | with_reducible apply State.gather_evolves
    | with_reducible apply State.setMiss_evolves
    | with_reducible assumption
    | with_reducible refine evolves_ite (fun _ => ?_) (fun _ => ?_)
    | with_reducible refine evolves_foldl (fun _ _ _ => ?_) ?_
    | split
theorem State.fetched_evolves {r : State} (m : Miss) (s : State)
    (h : r.Evolves s) : r.Evolves (State.fetched m s) := by
  unfold State.fetched
  try dsimp only
  repeat' first
    | with_reducible exact h
    | with_reducible apply State.deliver_evolves
    | with_reducible apply State.endPart_evolves
    | with_reducible apply State.setMiss_evolves
    | with_reducible apply State.stopReads_evolves
    | with_reducible assumption
    | with_reducible refine evolves_ite (fun _ => ?_) (fun _ => ?_)
    | with_reducible refine evolves_foldl (fun _ _ _ => ?_) ?_
    | split
theorem State.fetchFailed_evolves {r : State} (m : Miss) (s : State)
    (h : r.Evolves s) : r.Evolves (State.fetchFailed m s) := by
  unfold State.fetchFailed
  try dsimp only
  repeat' first
    | with_reducible exact h
    | with_reducible apply State.deliverPoison_evolves
    | with_reducible apply State.endPart_evolves
    | with_reducible apply State.setMiss_evolves
    | with_reducible apply State.stopReads_evolves
    | with_reducible refine State.evolves_upRstats _ ?_
    | with_reducible assumption
    | with_reducible refine evolves_ite (fun _ => ?_) (fun _ => ?_)
    | with_reducible refine evolves_foldl (fun _ _ _ => ?_) ?_
    | split

end Sys2Proof.Machine
end

