-- ==== Sys2Proof/Laws/EvolvesMedia.lean ====
section
/-!
SUPPORT. How the operations of Machine/Media.lean let the state evolve.
-/
namespace Sys2Proof.Machine

theorem State.brineReserve_evolves {r : State} (s : State)
    (h : r.Evolves s) : r.Evolves (State.brineReserve s) := by
  unfold State.brineReserve
  try dsimp only
  repeat' first
    | with_reducible exact h
    | with_reducible refine State.evolves_upCare _ ?_ ?_
    | with_reducible exact fun _ _ _ k => k
    | (with_reducible intro b e q k); dsimp only at k ⊢; first | omega | (have ha := State.armCode_le s; omega) | ((with_reducible refine ⟨?_, k.2⟩); (repeat' first | (with_reducible refine Nat.le_trans (State.armCode_le _) ?_); decide | omega | split); done) | (have hm' := hm q; omega) | exact ⟨Nat.le_trans (State.armCode_le _) (by decide), k.2⟩ | (have ha := State.armCode_le _; constructor <;> repeat' first | omega | split)
    | with_reducible assumption
    | with_reducible refine evolves_ite (fun _ => ?_) (fun _ => ?_)
    | with_reducible refine evolves_foldl (fun _ _ _ => ?_) ?_
    | split
theorem State.warnReserve_evolves {r : State} (s : State)
    (h : r.Evolves s) : r.Evolves (State.warnReserve s) := by
  unfold State.warnReserve
  try dsimp only
  repeat' first
    | with_reducible exact h
    | with_reducible apply State.brineReserve_evolves
    | with_reducible apply State.log_evolves
    | with_reducible apply State.save_evolves
    | with_reducible refine State.evolves_upCare _ ?_ ?_
    | with_reducible exact fun _ _ _ k => k
    | with_reducible assumption
    | with_reducible refine evolves_ite (fun _ => ?_) (fun _ => ?_)
    | with_reducible refine evolves_foldl (fun _ _ _ => ?_) ?_
    | split
theorem State.noteExhausted_evolves {r : State} (moved : Nat) (s : State)
    (h : r.Evolves s) : r.Evolves (State.noteExhausted moved s) := by
  unfold State.noteExhausted
  try dsimp only
  repeat' first
    | with_reducible exact h
    | with_reducible apply State.log_evolves
    | with_reducible refine State.evolves_upCare _ ?_ ?_
    | with_reducible exact fun _ _ _ k => k
    | with_reducible assumption
    | with_reducible refine evolves_ite (fun _ => ?_) (fun _ => ?_)
    | with_reducible refine evolves_foldl (fun _ _ _ => ?_) ?_
    | split
theorem State.takeReserve_evolves {r : State} (n : Nat) (s : State)
    (h : r.Evolves s) : r.Evolves (State.takeReserve n s) := by
  unfold State.takeReserve
  try dsimp only
  repeat' first
    | with_reducible exact h
    | with_reducible apply State.noteExhausted_evolves
    | with_reducible apply State.warnReserve_evolves
    | with_reducible refine State.evolves_upCare _ ?_ ?_
    | with_reducible exact fun _ _ _ k => k
    | (with_reducible intro b e q k); dsimp only at k ⊢; first | omega | (have ha := State.armCode_le s; omega) | ((with_reducible refine ⟨?_, k.2⟩); (repeat' first | (with_reducible refine Nat.le_trans (State.armCode_le _) ?_); decide | omega | split); done) | (have hm' := hm q; omega) | exact ⟨Nat.le_trans (State.armCode_le _) (by decide), k.2⟩ | (have ha := State.armCode_le _; constructor <;> repeat' first | omega | split)
    | with_reducible assumption
    | with_reducible refine evolves_ite (fun _ => ?_) (fun _ => ?_)
    | with_reducible refine evolves_foldl (fun _ _ _ => ?_) ?_
    | split
theorem State.reserveFloor_evolves {r : State} (s : State)
    (h : r.Evolves s) : r.Evolves (State.reserveFloor s) := by
  unfold State.reserveFloor
  try dsimp only
  repeat' first
    | with_reducible exact h
    | with_reducible apply State.log_evolves
    | with_reducible apply State.warnReserve_evolves
    | with_reducible refine State.evolves_upCare _ ?_ ?_
    | with_reducible exact fun _ _ _ k => k
    | (with_reducible intro b e q k); dsimp only at k ⊢; first | omega | (have ha := State.armCode_le s; omega) | ((with_reducible refine ⟨?_, k.2⟩); (repeat' first | (with_reducible refine Nat.le_trans (State.armCode_le _) ?_); decide | omega | split); done) | (have hm' := hm q; omega) | exact ⟨Nat.le_trans (State.armCode_le _) (by decide), k.2⟩ | (have ha := State.armCode_le _; constructor <;> repeat' first | omega | split)
    | with_reducible assumption
    | with_reducible refine evolves_ite (fun _ => ?_) (fun _ => ?_)
    | with_reducible refine evolves_foldl (fun _ _ _ => ?_) ?_
    | split
theorem State.skimLevel_evolves {r : State} (s : State)
    (h : r.Evolves s) : r.Evolves (State.skimLevel s) := by
  unfold State.skimLevel
  try dsimp only
  repeat' first
    | with_reducible exact h
    | with_reducible apply State.log_evolves
    | with_reducible refine State.evolves_upCare _ ?_ ?_
    | with_reducible exact fun _ _ _ k => k
    | with_reducible assumption
    | with_reducible refine evolves_ite (fun _ => ?_) (fun _ => ?_)
    | with_reducible refine evolves_foldl (fun _ _ _ => ?_) ?_
    | split
theorem State.enterBrine_evolves {r : State} (cause : Nat) (s : State)
    (h : r.Evolves s) : r.Evolves (State.enterBrine cause s) := by
  unfold State.enterBrine
  try dsimp only
  repeat' first
    | with_reducible exact h
    | with_reducible apply State.log_evolves
    | with_reducible apply State.send_evolves
    | with_reducible refine State.evolves_upCare _ ?_ ?_
    | with_reducible exact fun _ _ _ k => k
    | (with_reducible intro b e q k); dsimp only at k ⊢; first | omega | (have ha := State.armCode_le s; omega) | ((with_reducible refine ⟨?_, k.2⟩); (repeat' first | (with_reducible refine Nat.le_trans (State.armCode_le _) ?_); decide | omega | split); done) | (have hm' := hm q; omega) | exact ⟨Nat.le_trans (State.armCode_le _) (by decide), k.2⟩ | (have ha := State.armCode_le _; constructor <;> repeat' first | omega | split)
    | with_reducible assumption
    | with_reducible refine evolves_ite (fun _ => ?_) (fun _ => ?_)
    | with_reducible refine evolves_foldl (fun _ _ _ => ?_) ?_
    | split
theorem State.checkBrine_evolves {r : State} (s : State)
    (h : r.Evolves s) : r.Evolves (State.checkBrine s) := by
  unfold State.checkBrine
  try dsimp only
  repeat' first
    | with_reducible exact h
    | with_reducible apply State.enterBrine_evolves
    | with_reducible assumption
    | with_reducible refine evolves_ite (fun _ => ?_) (fun _ => ?_)
    | with_reducible refine evolves_foldl (fun _ _ _ => ?_) ?_
    | split
theorem State.freeChanged_evolves {r : State} (s : State)
    (h : r.Evolves s) : r.Evolves (State.freeChanged s) := by
  unfold State.freeChanged
  try dsimp only
  repeat' first
    | with_reducible exact h
    | with_reducible apply State.checkBrine_evolves
    | with_reducible apply State.reserveFloor_evolves
    | with_reducible apply State.skimLevel_evolves
    | with_reducible assumption
    | with_reducible refine evolves_ite (fun _ => ?_) (fun _ => ?_)
    | with_reducible refine evolves_foldl (fun _ _ _ => ?_) ?_
    | split
theorem State.retireBlock_evolves {r : State} (g : Nat) (c : Nat) (s : State)
    (h : r.Evolves s) : r.Evolves (State.retireBlock g c s) := by
  unfold State.retireBlock
  try dsimp only
  repeat' first
    | with_reducible exact h
    | with_reducible apply State.log_evolves
    | with_reducible refine State.evolves_upMedia _ ?_ ?_
    | with_reducible exact fun _ _ _ k => k
    | with_reducible exact fun _ _ _ _ => Tab.sorted_nil
    | with_reducible exact fun _ _ _ k => Tab.sorted_put k
    | with_reducible exact fun _ _ _ k => Tab.sorted_erase k
    | with_reducible exact fun _ _ _ k => Tab.sorted_filter k
    | with_reducible exact fun _ _ _ k => Tab.sorted_filterKV k
    | (with_reducible intro b e q k); (with_reducible refine Tab.sorted_map (fun _ => ?_) k); repeat' first | rfl | split
    | with_reducible assumption
    | with_reducible refine evolves_ite (fun _ => ?_) (fun _ => ?_)
    | with_reducible refine evolves_foldl (fun _ _ _ => ?_) ?_
    | split
theorem State.retireGroup_evolves {r : State} (g : Nat) (s : State)
    (h : r.Evolves s) : r.Evolves (State.retireGroup g s) := by
  unfold State.retireGroup
  try dsimp only
  repeat' first
    | with_reducible exact h
    | with_reducible apply State.freeChanged_evolves
    | with_reducible apply State.log_evolves
    | with_reducible apply State.setGroup_evolves
    | with_reducible apply State.takeReserve_evolves
    | with_reducible assumption
    | with_reducible refine evolves_ite (fun _ => ?_) (fun _ => ?_)
    | with_reducible refine evolves_foldl (fun _ _ _ => ?_) ?_
    | split
theorem State.noteWear_evolves {r : State} (g : Nat) (s : State)
    (h : r.Evolves s) : r.Evolves (State.noteWear g s) := by
  unfold State.noteWear
  try dsimp only
  repeat' first
    | with_reducible exact h
    | with_reducible apply State.log_evolves
    | with_reducible refine State.evolves_upCare _ ?_ ?_
    | with_reducible exact fun _ _ _ k => k
    | with_reducible assumption
    | with_reducible refine evolves_ite (fun _ => ?_) (fun _ => ?_)
    | with_reducible refine evolves_foldl (fun _ _ _ => ?_) ?_
    | split
theorem State.wearOut_evolves {r : State} (g : Nat) (s : State)
    (h : r.Evolves s) : r.Evolves (State.wearOut g s) := by
  unfold State.wearOut
  try dsimp only
  repeat' first
    | with_reducible exact h
    | with_reducible apply State.noteWear_evolves
    | with_reducible apply State.retireBlock_evolves
    | with_reducible apply State.retireGroup_evolves
    | with_reducible assumption
    | with_reducible refine evolves_ite (fun _ => ?_) (fun _ => ?_)
    | with_reducible refine evolves_foldl (fun _ _ _ => ?_) ?_
    | split
theorem State.settle_evolves {r : State} (g : Nat) (s : State)
    (h : r.Evolves s) : r.Evolves (State.settle g s) := by
  unfold State.settle
  try dsimp only
  repeat' first
    | with_reducible exact h
    | with_reducible apply State.askLeave_evolves
    | with_reducible apply State.retireGroup_evolves
    | with_reducible apply State.setGroup_evolves
    | with_reducible apply State.wearOut_evolves
    | with_reducible assumption
    | with_reducible refine evolves_ite (fun _ => ?_) (fun _ => ?_)
    | with_reducible refine evolves_foldl (fun _ _ _ => ?_) ?_
    | split
theorem State.closeGroup_evolves {r : State} (g : Nat) (s : State)
    (h : r.Evolves s) : r.Evolves (State.closeGroup g s) := by
  unfold State.closeGroup
  try dsimp only
  repeat' first
    | with_reducible exact h
    | with_reducible apply State.setGroup_evolves
    | with_reducible apply State.settle_evolves
    | with_reducible assumption
    | with_reducible refine evolves_ite (fun _ => ?_) (fun _ => ?_)
    | with_reducible refine evolves_foldl (fun _ _ _ => ?_) ?_
    | split
theorem State.noteProgram_evolves {r : State} (ppa : Nat) (s : State)
    (h : r.Evolves s) : r.Evolves (State.noteProgram ppa s) := by
  unfold State.noteProgram
  try dsimp only
  repeat' first
    | with_reducible exact h
    | with_reducible refine State.evolves_upMedia _ ?_ ?_
    | with_reducible exact fun _ _ _ k => k
    | with_reducible exact fun _ _ _ _ => Tab.sorted_nil
    | with_reducible exact fun _ _ _ k => Tab.sorted_put k
    | with_reducible exact fun _ _ _ k => Tab.sorted_erase k
    | with_reducible exact fun _ _ _ k => Tab.sorted_filter k
    | with_reducible exact fun _ _ _ k => Tab.sorted_filterKV k
    | (with_reducible intro b e q k); (with_reducible refine Tab.sorted_map (fun _ => ?_) k); repeat' first | rfl | split
    | with_reducible assumption
    | with_reducible refine evolves_ite (fun _ => ?_) (fun _ => ?_)
    | with_reducible refine evolves_foldl (fun _ _ _ => ?_) ?_
    | split
theorem State.openQuad_evolves {r : State} (kind : GKind) (copy : Option Nat) (a : Act) (s : State)
    (h : r.Evolves s) : EvolvesO r (State.openQuad kind copy a s) := by
  unfold State.openQuad
  try dsimp only
  repeat' first
    | with_reducible exact h
    | with_reducible apply State.freeChanged_evolves
    | with_reducible apply State.setGroup_evolves
    | with_reducible refine State.evolves_upMap _ ?_
    | with_reducible assumption
    | with_reducible refine evolves_ite (fun _ => ?_) (fun _ => ?_)
    | with_reducible refine evolves_foldl (fun _ _ _ => ?_) ?_
    | with_reducible exact evolvesO_get (by assumption)
    | with_reducible refine evolvesO_map (fun _ _ => ?_) ?_
    | with_reducible refine evolvesO_foldl (fun _ _ _ => ?_) ?_
    | exact evolvesO_none
    | with_reducible refine evolvesO_some ?_
    | split
    | with_reducible refine EvolvesO.out (by assumption) ?_
theorem State.stepCursor_evolves {r : State} (g : Nat) (s : State)
    (h : r.Evolves s) : r.Evolves (State.stepCursor g s) := by
  unfold State.stepCursor
  try dsimp only
  repeat' first
    | with_reducible exact h
    | with_reducible refine State.evolves_upMedia _ ?_ ?_
    | with_reducible exact fun _ _ _ k => k
    | with_reducible exact fun _ _ _ _ => Tab.sorted_nil
    | with_reducible exact fun _ _ _ k => Tab.sorted_put k
    | with_reducible exact fun _ _ _ k => Tab.sorted_erase k
    | with_reducible exact fun _ _ _ k => Tab.sorted_filter k
    | with_reducible exact fun _ _ _ k => Tab.sorted_filterKV k
    | (with_reducible intro b e q k); (with_reducible refine Tab.sorted_map (fun _ => ?_) k); repeat' first | rfl | split
    | with_reducible assumption
    | with_reducible refine evolves_ite (fun _ => ?_) (fun _ => ?_)
    | with_reducible refine evolves_foldl (fun _ _ _ => ?_) ?_
    | split
theorem State.place_evolves {r : State} (kind : GKind) (copy : Option Nat) (a : Act) (s : State)
    (h : r.Evolves s) : EvolvesOP r (State.place kind copy a s) := by
  unfold State.place
  try dsimp only
  repeat' first
    | with_reducible exact h
    | with_reducible apply State.openQuad_evolves
    | with_reducible assumption
    | with_reducible refine evolves_ite (fun _ => ?_) (fun _ => ?_)
    | with_reducible refine evolves_foldl (fun _ _ _ => ?_) ?_
    | with_reducible exact evolvesO_get (by assumption)
    | with_reducible refine evolvesO_map (fun _ _ => ?_) ?_
    | with_reducible refine evolvesO_mapP (fun _ _ => ?_) ?_
    | with_reducible refine evolvesO_foldl (fun _ _ _ => ?_) ?_
    | exact evolvesO_none
    | with_reducible refine evolvesO_some ?_
    | exact evolvesOP_none
    | with_reducible refine evolvesOP_some ?_
    | split
    | with_reducible refine EvolvesO.out (by assumption) ?_
    | with_reducible refine EvolvesOP.outp (by assumption) ?_
    | with_reducible refine EvolvesOP.out (by assumption) ?_
theorem State.takeGen_evolves {r : State} (s : State)
    (h : r.Evolves s) : EvolvesP r (State.takeGen s) := by
  unfold State.takeGen
  try dsimp only
  repeat' first
    | with_reducible exact h
    | with_reducible apply State.save_evolves
    | with_reducible refine State.evolves_upMedia _ ?_ ?_
    | with_reducible exact fun _ _ _ k => k
    | with_reducible exact fun _ _ _ _ => Tab.sorted_nil
    | with_reducible exact fun _ _ _ k => Tab.sorted_put k
    | with_reducible exact fun _ _ _ k => Tab.sorted_erase k
    | with_reducible exact fun _ _ _ k => Tab.sorted_filter k
    | with_reducible exact fun _ _ _ k => Tab.sorted_filterKV k
    | (with_reducible intro b e q k); (with_reducible refine Tab.sorted_map (fun _ => ?_) k); repeat' first | rfl | split
    | with_reducible assumption
    | with_reducible refine evolves_ite (fun _ => ?_) (fun _ => ?_)
    | with_reducible refine evolves_foldl (fun _ _ _ => ?_) ?_
    | with_reducible refine evolvesP_ite ?_ ?_
    | with_reducible refine evolvesP_foldl (fun _ _ _ => ?_) ?_
    | split
    | with_reducible refine EvolvesP.snd ?_
    | with_reducible refine evolvesP_mk ?_
    | with_reducible refine EvolvesP.out (by assumption) ?_
theorem State.askStream_evolves {r : State} (p : Pass) (s : State)
    (h : r.Evolves s) : r.Evolves (State.askStream p s) := by
  unfold State.askStream
  try dsimp only
  repeat' first
    | with_reducible exact h
    | with_reducible apply State.askLeave_evolves
    | with_reducible assumption
    | with_reducible refine evolves_ite (fun _ => ?_) (fun _ => ?_)
    | with_reducible refine evolves_foldl (fun _ _ _ => ?_) ?_
    | split
theorem State.program_evolves {r : State} (ppa : Nat) (pg : Page) (a : Act) (prio : Nat) (src : Option Nat) (s : State)
    (h : r.Evolves s) : r.Evolves (State.program ppa pg a prio src s) := by
  unfold State.program
  try dsimp only
  repeat' first
    | with_reducible exact h
    | with_reducible apply State.askLeave_evolves
    | with_reducible apply State.askStream_evolves
    | with_reducible apply State.count_evolves
    | with_reducible apply State.stepCursor_evolves
    | with_reducible refine State.evolves_upMedia _ ?_ ?_
    | with_reducible exact fun _ _ _ k => k
    | with_reducible exact fun _ _ _ _ => Tab.sorted_nil
    | with_reducible exact fun _ _ _ k => Tab.sorted_put k
    | with_reducible exact fun _ _ _ k => Tab.sorted_erase k
    | with_reducible exact fun _ _ _ k => Tab.sorted_filter k
    | with_reducible exact fun _ _ _ k => Tab.sorted_filterKV k
    | (with_reducible intro b e q k); (with_reducible refine Tab.sorted_map (fun _ => ?_) k); repeat' first | rfl | split
    | with_reducible assumption
    | with_reducible refine evolves_ite (fun _ => ?_) (fun _ => ?_)
    | with_reducible refine evolves_foldl (fun _ _ _ => ?_) ?_
    | split
theorem State.senseWord_evolves {r : State} (ppa : Nat) (s : State)
    (h : r.Evolves s) : r.Evolves (State.senseWord ppa s) := by
  unfold State.senseWord
  try dsimp only
  repeat' first
    | with_reducible exact h
    | with_reducible apply State.codewordRead_evolves
    | with_reducible apply State.useBus_evolves
    | with_reducible apply State.wakeChannel_evolves
    | with_reducible assumption
    | with_reducible refine evolves_ite (fun _ => ?_) (fun _ => ?_)
    | with_reducible refine evolves_foldl (fun _ _ _ => ?_) ?_
    | split
theorem State.sensePeers_evolves {r : State} (ppa : Nat) (s : State)
    (h : r.Evolves s) : r.Evolves (State.sensePeers ppa s) := by
  unfold State.sensePeers
  try dsimp only
  repeat' first
    | with_reducible exact h
    | with_reducible apply State.count_evolves
    | with_reducible apply State.senseWord_evolves
    | with_reducible assumption
    | with_reducible refine evolves_ite (fun _ => ?_) (fun _ => ?_)
    | with_reducible refine evolves_foldl (fun _ _ _ => ?_) ?_
    | split
theorem State.softSample_evolves {r : State} (ppa : Nat) (m : SoftSample) (s : State)
    (h : r.Evolves s) : r.Evolves (State.softSample ppa m s) := by
  unfold State.softSample
  try dsimp only
  repeat' first
    | with_reducible exact h
    | with_reducible apply State.count_evolves
    | with_reducible apply State.gill_evolves
    | with_reducible apply State.softDecoded_evolves
    | with_reducible refine State.evolves_upRstats _ ?_
    | with_reducible assumption
    | with_reducible refine evolves_ite (fun _ => ?_) (fun _ => ?_)
    | with_reducible refine evolves_foldl (fun _ _ _ => ?_) ?_
    | split
theorem State.climb_evolves {r : State} (ppa : Nat) (f : Finding) (s : State)
    (h : r.Evolves s) : r.Evolves (State.climb ppa f s) := by
  unfold State.climb
  try dsimp only
  repeat' first
    | with_reducible exact h
    | with_reducible apply State.gill_evolves
    | with_reducible apply State.sensePeers_evolves
    | with_reducible apply State.senseWord_evolves
    | with_reducible apply State.softSample_evolves
    | with_reducible refine State.evolves_upRstats _ ?_
    | with_reducible assumption
    | with_reducible refine evolves_ite (fun _ => ?_) (fun _ => ?_)
    | with_reducible refine evolves_foldl (fun _ _ _ => ?_) ?_
    | split
theorem State.readLines_evolves {r : State} (ls : List Nat) (done : List (Nat × Nat)) (reads : List WordRead) (s : State)
    (h : r.Evolves s) : EvolvesP r (State.readLines ls done reads s) := by
  unfold State.readLines
  try dsimp only
  repeat' first
    | with_reducible exact h
    | with_reducible apply State.climb_evolves
    | with_reducible assumption
    | with_reducible refine evolves_ite (fun _ => ?_) (fun _ => ?_)
    | with_reducible refine evolves_foldl (fun _ _ _ => ?_) ?_
    | with_reducible refine evolvesP_ite ?_ ?_
    | with_reducible refine evolvesP_foldl (fun _ _ _ => ?_) ?_
    | split
    | with_reducible refine EvolvesP.snd ?_
    | with_reducible refine evolvesP_mk ?_
    | with_reducible refine EvolvesP.out (by assumption) ?_
theorem State.loseLines_evolves {r : State} (bad : List (Nat × Nat)) (s : State)
    (h : r.Evolves s) : r.Evolves (State.loseLines bad s) := by
  unfold State.loseLines
  try dsimp only
  repeat' first
    | with_reducible exact h
    | with_reducible apply State.log_evolves
    | with_reducible apply State.poison_evolves
    | with_reducible assumption
    | with_reducible refine evolves_ite (fun _ => ?_) (fun _ => ?_)
    | with_reducible refine evolves_foldl (fun _ _ _ => ?_) ?_
    | split
theorem State.scrubPoison_evolves {r : State} (ls : List Nat) (s : State)
    (h : r.Evolves s) : r.Evolves (State.scrubPoison ls s) := by
  unfold State.scrubPoison
  try dsimp only
  repeat' first
    | with_reducible exact h
    | with_reducible apply State.tally_evolves
    | with_reducible refine State.evolves_upMbox _ ?_
    | with_reducible assumption
    | with_reducible refine evolves_ite (fun _ => ?_) (fun _ => ?_)
    | with_reducible refine evolves_foldl (fun _ _ _ => ?_) ?_
    | split
theorem State.lostKeyWrite_evolves {r : State} (key : Nat) (ls : List Nat) (s : State)
    (h : r.Evolves s) : r.Evolves (State.lostKeyWrite key ls s) := by
  unfold State.lostKeyWrite
  try dsimp only
  repeat' first
    | with_reducible exact h
    | with_reducible apply State.poisonAll_evolves
    | with_reducible assumption
    | with_reducible refine evolves_ite (fun _ => ?_) (fun _ => ?_)
    | with_reducible refine evolves_foldl (fun _ _ _ => ?_) ?_
    | split
theorem State.putLogSlot_evolves {r : State} (ppa : Nat) (pg : Page) (line : Nat) (d : Line) (s : State)
    (h : r.Evolves s) : r.Evolves (State.putLogSlot ppa pg line d s) := by
  unfold State.putLogSlot
  try dsimp only
  repeat' first
    | with_reducible exact h
    | with_reducible refine State.evolves_upMedia _ ?_ ?_
    | with_reducible exact fun _ _ _ k => k
    | with_reducible exact fun _ _ _ _ => Tab.sorted_nil
    | with_reducible exact fun _ _ _ k => Tab.sorted_put k
    | with_reducible exact fun _ _ _ k => Tab.sorted_erase k
    | with_reducible exact fun _ _ _ k => Tab.sorted_filter k
    | with_reducible exact fun _ _ _ k => Tab.sorted_filterKV k
    | (with_reducible intro b e q k); (with_reducible refine Tab.sorted_map (fun _ => ?_) k); repeat' first | rfl | split
    | with_reducible assumption
    | with_reducible refine evolves_ite (fun _ => ?_) (fun _ => ?_)
    | with_reducible refine evolves_foldl (fun _ _ _ => ?_) ?_
    | split
theorem State.newLog_evolves {r : State} (line : Nat) (d : Line) (a : Act) (prio : Nat) (copy : Option Nat) (src : Option Nat) (s : State)
    (h : r.Evolves s) : EvolvesOP r (State.newLog line d a prio copy src s) := by
  unfold State.newLog
  try dsimp only
  repeat' first
    | with_reducible exact h
    | with_reducible apply State.place_evolves
    | with_reducible apply State.program_evolves
    | with_reducible apply State.putLogSlot_evolves
    | with_reducible apply State.takeGen_evolves
    | with_reducible assumption
    | with_reducible refine evolves_ite (fun _ => ?_) (fun _ => ?_)
    | with_reducible refine evolves_foldl (fun _ _ _ => ?_) ?_
    | with_reducible exact evolvesO_get (by assumption)
    | with_reducible refine evolvesO_map (fun _ _ => ?_) ?_
    | with_reducible refine evolvesO_mapP (fun _ _ => ?_) ?_
    | with_reducible refine evolvesO_foldl (fun _ _ _ => ?_) ?_
    | exact evolvesO_none
    | with_reducible refine evolvesO_some ?_
    | exact evolvesOP_none
    | with_reducible refine evolvesOP_some ?_
    | with_reducible refine evolvesP_ite ?_ ?_
    | with_reducible refine evolvesP_foldl (fun _ _ _ => ?_) ?_
    | split
    | with_reducible refine EvolvesP.snd ?_
    | with_reducible refine evolvesP_mk ?_
    | with_reducible refine EvolvesP.out (by assumption) ?_
    | with_reducible refine EvolvesOP.outp (by assumption) ?_
    | with_reducible refine EvolvesOP.out (by assumption) ?_
theorem State.appendNext_evolves {r : State} (cur : Option Nat) (line : Nat) (d : Line) (a : Act) (prio : Nat) (copy : Option Nat) (src : Option Nat) (s : State)
    (h : r.Evolves s) : EvolvesOP r (State.appendNext cur line d a prio copy src s) := by
  unfold State.appendNext
  try dsimp only
  repeat' first
    | with_reducible exact h
    | with_reducible apply State.newLog_evolves
    | with_reducible apply State.putLogSlot_evolves
    | with_reducible assumption
    | with_reducible refine evolves_ite (fun _ => ?_) (fun _ => ?_)
    | with_reducible refine evolves_foldl (fun _ _ _ => ?_) ?_
    | with_reducible exact evolvesO_get (by assumption)
    | with_reducible refine evolvesO_map (fun _ _ => ?_) ?_
    | with_reducible refine evolvesO_mapP (fun _ _ => ?_) ?_
    | with_reducible refine evolvesO_foldl (fun _ _ _ => ?_) ?_
    | exact evolvesO_none
    | with_reducible refine evolvesO_some ?_
    | exact evolvesOP_none
    | with_reducible refine evolvesOP_some ?_
    | split
    | with_reducible refine EvolvesOP.outp (by assumption) ?_
    | with_reducible refine EvolvesOP.out (by assumption) ?_
theorem State.appendLines_evolves {r : State} (ls : List (Nat × Line)) (a : Act) (prio : Nat) (copy : Option Nat) (src : Option Nat) (s : State)
    (h : r.Evolves s) : EvolvesOP r (State.appendLines ls a prio copy src s) := by
  unfold State.appendLines
  dsimp only
  refine evolvesOP_tail (evolvesOPP_foldl (fun acc y hacc => ?_) (evolvesOPP_some h))
  split
  · exact evolvesOPP_none
  · split
    · exact evolvesOPP_none
    · refine evolvesOPP_some (EvolvesOP.out (by assumption) ?_)
      exact State.appendNext_evolves _ _ _ _ _ _ _ _ (EvolvesOPP.out rfl hacc)
theorem State.noteLimits_evolves {r : State} (s : State)
    (h : r.Evolves s) : r.Evolves (State.noteLimits s) := by
  unfold State.noteLimits
  try dsimp only
  repeat' first
    | with_reducible exact h
    | with_reducible apply State.log_evolves
    | with_reducible refine State.evolves_upMap _ ?_
    | with_reducible assumption
    | with_reducible refine evolves_ite (fun _ => ?_) (fun _ => ?_)
    | with_reducible refine evolves_foldl (fun _ _ _ => ?_) ?_
    | split
theorem State.mapGrain_evolves {r : State} (g : Nat) (ppa : Nat) (gen : Nat) (s : State)
    (h : r.Evolves s) : r.Evolves (State.mapGrain g ppa gen s) := by
  unfold State.mapGrain
  try dsimp only
  repeat' first
    | with_reducible exact h
    | with_reducible apply State.journal_evolves
    | with_reducible apply State.settle_evolves
    | with_reducible apply State.trimFilter_evolves
    | with_reducible refine State.evolves_upCare _ ?_ ?_
    | with_reducible refine State.evolves_upMap _ ?_
    | with_reducible exact fun _ _ _ k => k
    | with_reducible assumption
    | with_reducible refine evolves_ite (fun _ => ?_) (fun _ => ?_)
    | with_reducible refine evolves_foldl (fun _ _ _ => ?_) ?_
    | split
theorem State.indexLine_evolves {r : State} (line : Nat) (ppa : Nat) (slot : Nat) (gen : Nat) (s : State)
    (h : r.Evolves s) : r.Evolves (State.indexLine line ppa slot gen s) := by
  unfold State.indexLine
  try dsimp only
  repeat' first
    | with_reducible exact h
    | with_reducible apply State.enterFilter_evolves
    | with_reducible apply State.ovInsert_evolves
    | with_reducible apply State.settle_evolves
    | with_reducible refine State.evolves_upMap _ ?_
    | with_reducible assumption
    | with_reducible refine evolves_ite (fun _ => ?_) (fun _ => ?_)
    | with_reducible refine evolves_foldl (fun _ _ _ => ?_) ?_
    | split
theorem State.destroyKey_evolves {r : State} (id : Nat) (s : State)
    (h : r.Evolves s) : r.Evolves (State.destroyKey id s) := by
  unfold State.destroyKey
  try dsimp only
  repeat' first
    | with_reducible exact h
    | with_reducible apply State.count_evolves
    | with_reducible apply State.measure_evolves
    | with_reducible refine State.evolves_upKeys _ ?_
    | with_reducible assumption
    | with_reducible refine evolves_ite (fun _ => ?_) (fun _ => ?_)
    | with_reducible refine evolves_foldl (fun _ _ _ => ?_) ?_
    | split
theorem State.retireKeys_evolves {r : State} (s : State)
    (h : r.Evolves s) : r.Evolves (State.retireKeys s) := by
  unfold State.retireKeys
  try dsimp only
  repeat' first
    | with_reducible exact h
    | with_reducible apply State.destroyKey_evolves
    | with_reducible apply State.log_evolves
    | with_reducible assumption
    | with_reducible refine evolves_ite (fun _ => ?_) (fun _ => ?_)
    | with_reducible refine evolves_foldl (fun _ _ _ => ?_) ?_
    | split
theorem State.movePage_evolves {r : State} (ppa : Nat) (a : Act) (prio : Nat) (copy : Option Nat) (s : State)
    (h : r.Evolves s) : EvolvesO r (State.movePage ppa a prio copy s) := by
  unfold State.movePage
  try dsimp only
  repeat' first
    | with_reducible exact h
    | with_reducible apply State.place_evolves
    | with_reducible apply State.program_evolves
    | with_reducible apply State.takeGen_evolves
    | with_reducible assumption
    | with_reducible refine evolves_ite (fun _ => ?_) (fun _ => ?_)
    | with_reducible refine evolves_foldl (fun _ _ _ => ?_) ?_
    | with_reducible exact evolvesO_get (by assumption)
    | with_reducible refine evolvesO_map (fun _ _ => ?_) ?_
    | with_reducible refine evolvesO_mapP (fun _ _ => ?_) ?_
    | with_reducible refine evolvesO_foldl (fun _ _ _ => ?_) ?_
    | exact evolvesO_none
    | with_reducible refine evolvesO_some ?_
    | with_reducible refine evolvesP_ite ?_ ?_
    | with_reducible refine evolvesP_foldl (fun _ _ _ => ?_) ?_
    | split
    | with_reducible refine EvolvesP.snd ?_
    | with_reducible refine evolvesP_mk ?_
    | with_reducible refine EvolvesP.out (by assumption) ?_
    | with_reducible refine EvolvesO.out (by assumption) ?_
    | with_reducible refine EvolvesOP.outp (by assumption) ?_
    | with_reducible refine EvolvesOP.out (by assumption) ?_
theorem State.runResync_evolves {r : State} (s : State)
    (h : r.Evolves s) : r.Evolves (State.runResync s) := by
  unfold State.runResync
  try dsimp only
  repeat' first
    | with_reducible exact h
    | with_reducible apply State.place_evolves
    | with_reducible apply State.program_evolves
    | with_reducible apply State.takeGen_evolves
    | with_reducible assumption
    | with_reducible refine evolves_ite (fun _ => ?_) (fun _ => ?_)
    | with_reducible refine evolves_foldl (fun _ _ _ => ?_) ?_
    | with_reducible exact evolvesO_get (by assumption)
    | with_reducible refine evolvesO_map (fun _ _ => ?_) ?_
    | with_reducible refine evolvesO_mapP (fun _ _ => ?_) ?_
    | with_reducible refine evolvesO_foldl (fun _ _ _ => ?_) ?_
    | exact evolvesO_none
    | with_reducible refine evolvesO_some ?_
    | with_reducible refine evolvesP_ite ?_ ?_
    | with_reducible refine evolvesP_foldl (fun _ _ _ => ?_) ?_
    | split
    | with_reducible refine EvolvesP.snd ?_
    | with_reducible refine evolvesP_mk ?_
    | with_reducible refine EvolvesP.out (by assumption) ?_
    | with_reducible refine EvolvesOP.outp (by assumption) ?_
    | with_reducible refine EvolvesOP.out (by assumption) ?_
theorem State.runMoves_evolves {r : State} (s : State)
    (h : r.Evolves s) : r.Evolves (State.runMoves s) := by
  unfold State.runMoves
  try dsimp only
  repeat' first
    | with_reducible exact h
    | with_reducible apply State.movePage_evolves
    | with_reducible apply State.runResync_evolves
    | with_reducible refine State.evolves_upMedia _ ?_ ?_
    | with_reducible exact fun _ _ _ k => k
    | with_reducible exact fun _ _ _ _ => Tab.sorted_nil
    | with_reducible exact fun _ _ _ k => Tab.sorted_put k
    | with_reducible exact fun _ _ _ k => Tab.sorted_erase k
    | with_reducible exact fun _ _ _ k => Tab.sorted_filter k
    | with_reducible exact fun _ _ _ k => Tab.sorted_filterKV k
    | (with_reducible intro b e q k); (with_reducible refine Tab.sorted_map (fun _ => ?_) k); repeat' first | rfl | split
    | with_reducible assumption
    | with_reducible refine evolves_ite (fun _ => ?_) (fun _ => ?_)
    | with_reducible refine evolves_foldl (fun _ _ _ => ?_) ?_
    | with_reducible exact evolvesO_get (by assumption)
    | with_reducible refine evolvesO_map (fun _ _ => ?_) ?_
    | with_reducible refine evolvesO_foldl (fun _ _ _ => ?_) ?_
    | exact evolvesO_none
    | with_reducible refine evolvesO_some ?_
    | split
    | with_reducible refine EvolvesO.out (by assumption) ?_
theorem State.queueMoves_evolves {r : State} (ps : List Nat) (a : Act) (prio : Nat) (s : State)
    (h : r.Evolves s) : r.Evolves (State.queueMoves ps a prio s) := by
  unfold State.queueMoves
  try dsimp only
  repeat' first
    | with_reducible exact h
    | with_reducible apply State.runMoves_evolves
    | with_reducible refine State.evolves_upMedia _ ?_ ?_
    | with_reducible exact fun _ _ _ k => k
    | with_reducible exact fun _ _ _ _ => Tab.sorted_nil
    | with_reducible exact fun _ _ _ k => Tab.sorted_put k
    | with_reducible exact fun _ _ _ k => Tab.sorted_erase k
    | with_reducible exact fun _ _ _ k => Tab.sorted_filter k
    | with_reducible exact fun _ _ _ k => Tab.sorted_filterKV k
    | (with_reducible intro b e q k); (with_reducible refine Tab.sorted_map (fun _ => ?_) k); repeat' first | rfl | split
    | with_reducible assumption
    | with_reducible refine evolves_ite (fun _ => ?_) (fun _ => ?_)
    | with_reducible refine evolves_foldl (fun _ _ _ => ?_) ?_
    | split
theorem State.moveRebuilt_evolves {r : State} (words : List (Nat × Nat)) (reads : List WordRead) (s : State)
    (h : r.Evolves s) : r.Evolves (State.moveRebuilt words reads s) := by
  unfold State.moveRebuilt
  try dsimp only
  repeat' first
    | with_reducible exact h
    | with_reducible apply State.queueMoves_evolves
    | with_reducible assumption
    | with_reducible refine evolves_ite (fun _ => ?_) (fun _ => ?_)
    | with_reducible refine evolves_foldl (fun _ _ _ => ?_) ?_
    | split
theorem State.rekeyRun_evolves {r : State} (x0 : Nat) (s : State)
    (h : r.Evolves s) : r.Evolves (State.rekeyRun x0 s) := by
  unfold State.rekeyRun
  try dsimp only
  repeat' first
    | with_reducible exact h
    | with_reducible apply State.queueMoves_evolves
    | with_reducible assumption
    | with_reducible refine evolves_ite (fun _ => ?_) (fun _ => ?_)
    | with_reducible refine evolves_foldl (fun _ _ _ => ?_) ?_
    | split
theorem State.rekeyDone_evolves {r : State} (s : State)
    (h : r.Evolves s) : r.Evolves (State.rekeyDone s) := by
  unfold State.rekeyDone
  try dsimp only
  repeat' first
    | with_reducible exact h
    | with_reducible apply State.log_evolves
    | with_reducible apply State.rekeyRun_evolves
    | with_reducible apply State.setCtl_evolves
    | with_reducible refine State.evolves_upTabs _ ?_
    | with_reducible assumption
    | with_reducible refine evolves_ite (fun _ => ?_) (fun _ => ?_)
    | with_reducible refine evolves_foldl (fun _ _ _ => ?_) ?_
    | split
theorem State.stripeLost_evolves {r : State} (ps : List Nat) (s : State)
    (h : r.Evolves s) : r.Evolves (State.stripeLost ps s) := by
  unfold State.stripeLost
  try dsimp only
  repeat' first
    | with_reducible exact h
    | with_reducible apply State.damaged_evolves
    | with_reducible apply State.log_evolves
    | with_reducible apply State.mark_evolves
    | with_reducible apply State.poisonAll_evolves
    | with_reducible apply State.receiveDamaged_evolves
    | with_reducible assumption
    | with_reducible refine evolves_ite (fun _ => ?_) (fun _ => ?_)
    | with_reducible refine evolves_foldl (fun _ _ _ => ?_) ?_
    | split
theorem State.noteLost_evolves {r : State} (ps : List Nat) (s : State)
    (h : r.Evolves s) : r.Evolves (State.noteLost ps s) := by
  unfold State.noteLost
  try dsimp only
  repeat' first
    | with_reducible exact h
    | with_reducible refine State.evolves_upMedia _ ?_ ?_
    | with_reducible exact fun _ _ _ k => k
    | with_reducible exact fun _ _ _ _ => Tab.sorted_nil
    | with_reducible exact fun _ _ _ k => Tab.sorted_put k
    | with_reducible exact fun _ _ _ k => Tab.sorted_erase k
    | with_reducible exact fun _ _ _ k => Tab.sorted_filter k
    | with_reducible exact fun _ _ _ k => Tab.sorted_filterKV k
    | (with_reducible intro b e q k); (with_reducible refine Tab.sorted_map (fun _ => ?_) k); repeat' first | rfl | split
    | with_reducible assumption
    | with_reducible refine evolves_ite (fun _ => ?_) (fun _ => ?_)
    | with_reducible refine evolves_foldl (fun _ _ _ => ?_) ?_
    | split
theorem State.returnLines_evolves {r : State} (ls : List Nat) (s : State)
    (h : r.Evolves s) : r.Evolves (State.returnLines ls s) := by
  unfold State.returnLines
  try dsimp only
  repeat' first
    | with_reducible exact h
    | with_reducible apply State.queueWb_evolves
    | with_reducible apply State.returnLine_evolves
    | with_reducible refine State.evolves_upBudget _ ?_ ?_
    | with_reducible exact fun _ _ _ k => k
    | with_reducible exact fun _ _ _ _ => Tab.sorted_nil
    | with_reducible exact fun _ _ _ k => Tab.sorted_put k
    | with_reducible exact fun _ _ _ k => Tab.sorted_erase k
    | with_reducible exact fun _ _ _ k => Tab.sorted_filter k
    | with_reducible exact fun _ _ _ k => Tab.sorted_filterKV k
    | (with_reducible intro b e q k); (with_reducible refine Tab.sorted_map (fun _ => ?_) k); repeat' first | rfl | split
    | with_reducible assumption
    | with_reducible refine evolves_ite (fun _ => ?_) (fun _ => ?_)
    | with_reducible refine evolves_foldl (fun _ _ _ => ?_) ?_
    | split
theorem State.leavePass_evolves {r : State} (p : Pass) (s : State)
    (h : r.Evolves s) : r.Evolves (State.leavePass p s) := by
  unfold State.leavePass
  try dsimp only
  repeat' first
    | with_reducible exact h
    | with_reducible apply State.giveLeave_evolves
    | with_reducible refine State.evolves_upMedia _ ?_ ?_
    | with_reducible exact fun _ _ _ k => k
    | with_reducible exact fun _ _ _ _ => Tab.sorted_nil
    | with_reducible exact fun _ _ _ k => Tab.sorted_put k
    | with_reducible exact fun _ _ _ k => Tab.sorted_erase k
    | with_reducible exact fun _ _ _ k => Tab.sorted_filter k
    | with_reducible exact fun _ _ _ k => Tab.sorted_filterKV k
    | (with_reducible intro b e q k); (with_reducible refine Tab.sorted_map (fun _ => ?_) k); repeat' first | rfl | split
    | with_reducible assumption
    | with_reducible refine evolves_ite (fun _ => ?_) (fun _ => ?_)
    | with_reducible refine evolves_foldl (fun _ _ _ => ?_) ?_
    | split
theorem State.endStream_evolves {r : State} (a : Act) (s : State)
    (h : r.Evolves s) : r.Evolves (State.endStream a s) := by
  unfold State.endStream
  try dsimp only
  repeat' first
    | with_reducible exact h
    | with_reducible apply State.giveLeave_evolves
    | with_reducible assumption
    | with_reducible refine evolves_ite (fun _ => ?_) (fun _ => ?_)
    | with_reducible refine evolves_foldl (fun _ _ _ => ?_) ?_
    | split
theorem State.endPass_evolves {r : State} (p : Pass) (s : State)
    (h : r.Evolves s) : r.Evolves (State.endPass p s) := by
  unfold State.endPass
  try dsimp only
  repeat' first
    | with_reducible exact h
    | with_reducible apply State.endStream_evolves
    | with_reducible apply State.leavePass_evolves
    | with_reducible refine State.evolves_upMedia _ ?_ ?_
    | with_reducible exact fun _ _ _ k => k
    | with_reducible exact fun _ _ _ _ => Tab.sorted_nil
    | with_reducible exact fun _ _ _ k => Tab.sorted_put k
    | with_reducible exact fun _ _ _ k => Tab.sorted_erase k
    | with_reducible exact fun _ _ _ k => Tab.sorted_filter k
    | with_reducible exact fun _ _ _ k => Tab.sorted_filterKV k
    | (with_reducible intro b e q k); (with_reducible refine Tab.sorted_map (fun _ => ?_) k); repeat' first | rfl | split
    | with_reducible assumption
    | with_reducible refine evolves_ite (fun _ => ?_) (fun _ => ?_)
    | with_reducible refine evolves_foldl (fun _ _ _ => ?_) ?_
    | split
theorem State.columnAbsent_evolves {r : State} (g : Nat) (c : Nat) (page : Nat) (s : State)
    (h : r.Evolves s) : r.Evolves (State.columnAbsent g c page s) := by
  unfold State.columnAbsent
  try dsimp only
  repeat' first
    | with_reducible exact h
    | with_reducible apply State.freeChanged_evolves
    | with_reducible apply State.log_evolves
    | with_reducible apply State.queueMoves_evolves
    | with_reducible apply State.retireBlock_evolves
    | with_reducible apply State.setGroup_evolves
    | with_reducible apply State.takeReserve_evolves
    | with_reducible assumption
    | with_reducible refine evolves_ite (fun _ => ?_) (fun _ => ?_)
    | with_reducible refine evolves_foldl (fun _ _ _ => ?_) ?_
    | split
theorem State.failDie_evolves {r : State} (pos : Nat) (ch : Nat) (s : State)
    (h : r.Evolves s) : r.Evolves (State.failDie pos ch s) := by
  unfold State.failDie
  try dsimp only
  repeat' first
    | with_reducible exact h
    | with_reducible apply State.boundFail_evolves
    | with_reducible apply State.freeChanged_evolves
    | with_reducible apply State.log_evolves
    | with_reducible apply State.queueMoves_evolves
    | with_reducible apply State.setGroup_evolves
    | with_reducible apply State.takeReserve_evolves
    | with_reducible refine State.evolves_upMedia _ ?_ ?_
    | with_reducible exact fun _ _ _ k => k
    | with_reducible exact fun _ _ _ _ => Tab.sorted_nil
    | with_reducible exact fun _ _ _ k => Tab.sorted_put k
    | with_reducible exact fun _ _ _ k => Tab.sorted_erase k
    | with_reducible exact fun _ _ _ k => Tab.sorted_filter k
    | with_reducible exact fun _ _ _ k => Tab.sorted_filterKV k
    | (with_reducible intro b e q k); (with_reducible refine Tab.sorted_map (fun _ => ?_) k); repeat' first | rfl | split
    | with_reducible assumption
    | with_reducible refine evolves_ite (fun _ => ?_) (fun _ => ?_)
    | with_reducible refine evolves_foldl (fun _ _ _ => ?_) ?_
    | split
theorem State.dropSet_evolves {r : State} (k : CopySet) (s : State)
    (h : r.Evolves s) : r.Evolves (State.dropSet k s) := by
  unfold State.dropSet
  try dsimp only
  repeat' first
    | with_reducible exact h
    | with_reducible apply State.endPass_evolves
    | with_reducible refine State.evolves_upCare _ ?_ ?_
    | with_reducible exact fun _ _ _ k => k
    | with_reducible assumption
    | with_reducible refine evolves_ite (fun _ => ?_) (fun _ => ?_)
    | with_reducible refine evolves_foldl (fun _ _ _ => ?_) ?_
    | split
theorem State.copyPage_evolves {r : State} (k : CopySet) (ppa : Nat) (s : State)
    (h : r.Evolves s) : EvolvesP r (State.copyPage k ppa s) := by
  unfold State.copyPage
  try dsimp only
  repeat' first
    | with_reducible exact h
    | with_reducible apply State.appendLines_evolves
    | with_reducible apply State.movePage_evolves
    | with_reducible assumption
    | with_reducible refine evolves_ite (fun _ => ?_) (fun _ => ?_)
    | with_reducible refine evolves_foldl (fun _ _ _ => ?_) ?_
    | with_reducible refine evolves_foldr (fun _ _ _ => ?_) ?_
    | with_reducible exact evolvesO_get (by assumption)
    | with_reducible refine evolvesO_map (fun _ _ => ?_) ?_
    | with_reducible refine evolvesO_mapP (fun _ _ => ?_) ?_
    | with_reducible refine evolvesO_foldl (fun _ _ _ => ?_) ?_
    | exact evolvesO_none
    | with_reducible refine evolvesO_some ?_
    | with_reducible refine evolvesP_ite ?_ ?_
    | with_reducible refine evolvesP_foldl (fun _ _ _ => ?_) ?_
    | split
    | with_reducible refine EvolvesP.snd ?_
    | with_reducible refine evolvesP_mk ?_
    | with_reducible refine EvolvesP.out (by assumption) ?_
    | with_reducible refine EvolvesO.out (by assumption) ?_
    | with_reducible refine EvolvesOP.outp (by assumption) ?_
    | with_reducible refine EvolvesOP.out (by assumption) ?_
theorem State.sealSet_evolves {r : State} (k : CopySet) (s : State)
    (h : r.Evolves s) : r.Evolves (State.sealSet k s) := by
  unfold State.sealSet
  try dsimp only
  repeat' first
    | with_reducible exact h
    | with_reducible refine State.evolves_upMedia _ ?_ ?_
    | with_reducible exact fun _ _ _ k => k
    | with_reducible exact fun _ _ _ _ => Tab.sorted_nil
    | with_reducible exact fun _ _ _ k => Tab.sorted_put k
    | with_reducible exact fun _ _ _ k => Tab.sorted_erase k
    | with_reducible exact fun _ _ _ k => Tab.sorted_filter k
    | with_reducible exact fun _ _ _ k => Tab.sorted_filterKV k
    | (with_reducible intro b e q k); (with_reducible refine Tab.sorted_map (fun _ => ?_) k); repeat' first | rfl | split
    | with_reducible assumption
    | with_reducible refine evolves_ite (fun _ => ?_) (fun _ => ?_)
    | with_reducible refine evolves_foldl (fun _ _ _ => ?_) ?_
    | split
theorem State.startSet_evolves {r : State} (g : Nat) (a : Act) (prio : Nat) (s : State)
    (h : r.Evolves s) : r.Evolves (State.startSet g a prio s) := by
  unfold State.startSet
  try dsimp only
  repeat' first
    | with_reducible exact h
    | with_reducible apply State.copyPage_evolves
    | with_reducible apply State.giveLeave_evolves
    | with_reducible apply State.sealSet_evolves
    | with_reducible refine State.evolves_upCare _ ?_ ?_
    | with_reducible exact fun _ _ _ k => k
    | with_reducible assumption
    | with_reducible refine evolves_ite (fun _ => ?_) (fun _ => ?_)
    | with_reducible refine evolves_foldl (fun _ _ _ => ?_) ?_
    | with_reducible refine evolvesP_ite ?_ ?_
    | with_reducible refine evolvesP_foldl (fun _ _ _ => ?_) ?_
    | split
    | with_reducible refine EvolvesP.snd ?_
    | with_reducible refine evolvesP_mk ?_
    | with_reducible refine EvolvesP.out (by assumption) ?_
theorem State.redoSet_evolves {r : State} (k : CopySet) (target : Nat) (s : State)
    (h : r.Evolves s) : r.Evolves (State.redoSet k target s) := by
  unfold State.redoSet
  try dsimp only
  repeat' first
    | with_reducible exact h
    | with_reducible apply State.count_evolves
    | with_reducible apply State.dropSet_evolves
    | with_reducible apply State.log_evolves
    | with_reducible apply State.setGroup_evolves
    | with_reducible apply State.startSet_evolves
    | with_reducible refine State.evolves_upCare _ ?_ ?_
    | with_reducible exact fun _ _ _ k => k
    | with_reducible assumption
    | with_reducible refine evolves_ite (fun _ => ?_) (fun _ => ?_)
    | with_reducible refine evolves_foldl (fun _ _ _ => ?_) ?_
    | split
theorem State.programXor_evolves {r : State} (g : Nat) (page : Nat) (a : Act) (prio : Nat) (s : State)
    (h : r.Evolves s) : r.Evolves (State.programXor g page a prio s) := by
  unfold State.programXor
  try dsimp only
  repeat' first
    | with_reducible exact h
    | with_reducible apply State.program_evolves
    | with_reducible assumption
    | with_reducible refine evolves_ite (fun _ => ?_) (fun _ => ?_)
    | with_reducible refine evolves_foldl (fun _ _ _ => ?_) ?_
    | split
theorem State.closing_evolves {r : State} (g : Nat) (s : State)
    (h : r.Evolves s) : r.Evolves (State.closing g s) := by
  unfold State.closing
  try dsimp only
  repeat' first
    | with_reducible exact h
    | with_reducible apply State.setGroup_evolves
    | with_reducible assumption
    | with_reducible refine evolves_ite (fun _ => ?_) (fun _ => ?_)
    | with_reducible refine evolves_foldl (fun _ _ _ => ?_) ?_
    | split

end Sys2Proof.Machine
end

