-- ==== Sys2Proof/Laws/EvolvesReads.lean ====
section
/-!
SUPPORT. How the operations of Machine/Reads.lean let the state evolve.
-/
namespace Sys2Proof.Machine

theorem execHostReadRequest_evolves {r : State} (key : Nat) (addr : Nat) (tag : Nat) (s : State)
    (h : r.Evolves s) : AnswersE r (execHostReadRequest key addr tag s) := by
  unfold execHostReadRequest
  try dsimp only
  repeat' first
    | with_reducible exact h
    | with_reducible apply State.arrive_evolves
    | with_reducible assumption
    | with_reducible refine evolves_ite (fun _ => ?_) (fun _ => ?_)
    | with_reducible refine evolves_foldl (fun _ _ _ => ?_) ?_
    | with_reducible refine answersE_next ?_
    | split
theorem State.dispatch_evolves {r : State} (slice : Nat) (s : State)
    (h : r.Evolves s) : r.Evolves (State.dispatch slice s) := by
  unfold State.dispatch
  try dsimp only
  repeat' first
    | with_reducible exact h
    | with_reducible apply State.count_evolves
    | with_reducible apply State.stageReq_evolves
    | with_reducible refine State.evolves_upPort _ ?_
    | with_reducible assumption
    | with_reducible refine evolves_ite (fun _ => ?_) (fun _ => ?_)
    | with_reducible refine evolves_foldl (fun _ _ _ => ?_) ?_
    | split
theorem execIngressDispatch_evolves {r : State} (slice : Nat) (s : State)
    (h : r.Evolves s) : AnswersE r (execIngressDispatch slice s) := by
  unfold execIngressDispatch
  try dsimp only
  repeat' first
    | with_reducible exact h
    | with_reducible apply State.dispatch_evolves
    | with_reducible assumption
    | with_reducible refine evolves_ite (fun _ => ?_) (fun _ => ?_)
    | with_reducible refine evolves_foldl (fun _ _ _ => ?_) ?_
    | with_reducible refine answersE_next ?_
    | split
theorem State.fcParity_evolves {r : State} (line : Nat) (s : State)
    (h : r.Evolves s) : r.Evolves (State.fcParity line s) := by
  unfold State.fcParity
  try dsimp only
  repeat' first
    | with_reducible exact h
    | with_reducible apply State.controllerReset_evolves
    | with_reducible apply State.fcDrop_evolves
    | with_reducible apply State.fcPut_evolves
    | with_reducible apply State.gill_evolves
    | with_reducible refine State.evolves_upFc _ ?_ ?_
    | with_reducible exact fun _ _ _ k => k
    | with_reducible exact fun _ _ _ _ => Tab.sorted_nil
    | with_reducible exact fun _ _ _ k => Tab.sorted_put k
    | with_reducible exact fun _ _ _ k => Tab.sorted_erase k
    | with_reducible exact fun _ _ _ k => Tab.sorted_filter k
    | with_reducible exact fun _ _ _ k => Tab.sorted_filterKV k
    | (with_reducible intro b e q k); (with_reducible refine Tab.sorted_map (fun _ => ?_) k); repeat' first | rfl | split
    | with_reducible assumption
    | with_reducible refine evolves_ite (fun _ => ?_) (fun _ => ?_)
    | with_reducible refine evolves_foldl (fun _ _ _ => ?_) ?_
    | split
theorem State.fcCrcBad_evolves {r : State} (trans : Nat) (line : Nat) (s : State)
    (h : r.Evolves s) : r.Evolves (State.fcCrcBad trans line s) := by
  unfold State.fcCrcBad
  try dsimp only
  repeat' first
    | with_reducible exact h
    | with_reducible apply State.fcDrop_evolves
    | with_reducible apply State.fcPut_evolves
    | with_reducible apply State.poisonBy_evolves
    | with_reducible assumption
    | with_reducible refine evolves_ite (fun _ => ?_) (fun _ => ?_)
    | with_reducible refine evolves_foldl (fun _ _ _ => ?_) ?_
    | split
theorem State.tierBurst_evolves {r : State} (uncorrectable : Bool) (trans : Nat) (line : Nat) (s : State)
    (h : r.Evolves s) : r.Evolves (State.tierBurst uncorrectable trans line s) := by
  unfold State.tierBurst
  try dsimp only
  repeat' first
    | with_reducible exact h
    | with_reducible apply State.logBy_evolves
    | with_reducible apply State.mergeLost_evolves
    | with_reducible apply State.poison_evolves
    | with_reducible apply State.putSector_evolves
    | with_reducible refine State.evolves_upDram _ ?_
    | with_reducible refine State.evolves_upTier _ ?_ ?_
    | with_reducible exact fun _ _ _ k => k
    | with_reducible exact fun _ _ _ _ => Tab.sorted_nil
    | with_reducible exact fun _ _ _ k => Tab.sorted_put k
    | with_reducible exact fun _ _ _ k => Tab.sorted_erase k
    | with_reducible exact fun _ _ _ k => Tab.sorted_filter k
    | with_reducible exact fun _ _ _ k => Tab.sorted_filterKV k
    | (with_reducible intro b e q k); (with_reducible refine Tab.sorted_map (fun _ => ?_) k); repeat' first | rfl | split
    | with_reducible assumption
    | with_reducible refine evolves_ite (fun _ => ?_) (fun _ => ?_)
    | with_reducible refine evolves_foldl (fun _ _ _ => ?_) ?_
    | split
theorem State.tagRepair_evolves {r : State} (sec : Nat) (s : State)
    (h : r.Evolves s) : r.Evolves (State.tagRepair sec s) := by
  unfold State.tagRepair
  try dsimp only
  repeat' first
    | with_reducible exact h
    | with_reducible apply State.gill_evolves
    | with_reducible apply State.log_evolves
    | with_reducible refine State.evolves_upTier _ ?_ ?_
    | with_reducible exact fun _ _ _ k => k
    | with_reducible exact fun _ _ _ _ => Tab.sorted_nil
    | with_reducible exact fun _ _ _ k => Tab.sorted_put k
    | with_reducible exact fun _ _ _ k => Tab.sorted_erase k
    | with_reducible exact fun _ _ _ k => Tab.sorted_filter k
    | with_reducible exact fun _ _ _ k => Tab.sorted_filterKV k
    | (with_reducible intro b e q k); (with_reducible refine Tab.sorted_map (fun _ => ?_) k); repeat' first | rfl | split
    | with_reducible assumption
    | with_reducible refine evolves_ite (fun _ => ?_) (fun _ => ?_)
    | with_reducible refine evolves_foldl (fun _ _ _ => ?_) ?_
    | split
theorem State.burstCorrected_evolves {r : State} (line : Nat) (device : Nat) (s : State)
    (h : r.Evolves s) : r.Evolves (State.burstCorrected line device s) := by
  unfold State.burstCorrected
  try dsimp only
  repeat' first
    | with_reducible exact h
    | with_reducible apply State.count_evolves
    | with_reducible apply State.gill_evolves
    | with_reducible apply State.log_evolves
    | with_reducible refine State.evolves_upDram _ ?_
    | with_reducible assumption
    | with_reducible refine evolves_ite (fun _ => ?_) (fun _ => ?_)
    | with_reducible refine evolves_foldl (fun _ _ _ => ?_) ?_
    | split
theorem State.shadowLost_evolves {r : State} (g : Nat) (s : State)
    (h : r.Evolves s) : r.Evolves (State.shadowLost g s) := by
  unfold State.shadowLost
  try dsimp only
  repeat' first
    | with_reducible exact h
    | with_reducible apply State.setGroup_evolves
    | with_reducible assumption
    | with_reducible refine evolves_ite (fun _ => ?_) (fun _ => ?_)
    | with_reducible refine evolves_foldl (fun _ _ _ => ?_) ?_
    | split
theorem State.checkFault_evolves {r : State} (f : CacheFault) (trans : Nat) (line : Nat) (s : State)
    (h : r.Evolves s) : r.Evolves (State.checkFault f trans line s) := by
  unfold State.checkFault
  try dsimp only
  repeat' first
    | with_reducible exact h
    | with_reducible apply State.burstCorrected_evolves
    | with_reducible apply State.controllerReset_evolves
    | with_reducible apply State.fcCrcBad_evolves
    | with_reducible apply State.fcParity_evolves
    | with_reducible apply State.gill_evolves
    | with_reducible apply State.remakeFilter_evolves
    | with_reducible apply State.shadowLost_evolves
    | with_reducible apply State.tagRepair_evolves
    | with_reducible apply State.tierBurst_evolves
    | with_reducible refine State.evolves_upKeys _ ?_
    | with_reducible refine State.evolves_upSlices _ ?_
    | with_reducible refine State.evolves_upTier _ ?_ ?_
    | with_reducible exact fun _ _ _ k => k
    | with_reducible exact fun _ _ _ _ => Tab.sorted_nil
    | with_reducible exact fun _ _ _ k => Tab.sorted_put k
    | with_reducible exact fun _ _ _ k => Tab.sorted_erase k
    | with_reducible exact fun _ _ _ k => Tab.sorted_filter k
    | with_reducible exact fun _ _ _ k => Tab.sorted_filterKV k
    | (with_reducible intro b e q k); (with_reducible refine Tab.sorted_map (fun _ => ?_) k); repeat' first | rfl | split
    | with_reducible assumption
    | with_reducible refine evolves_ite (fun _ => ?_) (fun _ => ?_)
    | with_reducible refine evolves_foldl (fun _ _ _ => ?_) ?_
    | split
theorem State.lookupAccess_evolves {r : State} (line : Nat) (bank : Nat) (row : Nat) (queued : Bool) (s : State)
    (h : r.Evolves s) : r.Evolves (State.lookupAccess line bank row queued s) := by
  unfold State.lookupAccess
  try dsimp only
  repeat' first
    | with_reducible exact h
    | with_reducible apply State.count_evolves
    | with_reducible apply State.dramAccess_evolves
    | with_reducible assumption
    | with_reducible refine evolves_ite (fun _ => ?_) (fun _ => ?_)
    | with_reducible refine evolves_foldl (fun _ _ _ => ?_) ?_
    | split
theorem State.checked_evolves {r : State} (f : CacheFault) (x1 : Req) (run : State → State) (s : State)
    (h : r.Evolves s) (hrun : ∀ t, r.Evolves t → r.Evolves (run t)) : r.Evolves (State.checked f x1 run s) := by
  unfold State.checked
  try dsimp only
  repeat' first
    | with_reducible exact h
    | with_reducible apply State.checkFault_evolves
    | with_reducible assumption
    | with_reducible refine evolves_ite (fun _ => ?_) (fun _ => ?_)
    | with_reducible refine evolves_foldl (fun _ _ _ => ?_) ?_
    | with_reducible refine hrun _ ?_
    | (with_reducible intro _ _); dsimp only
    | with_reducible intro _ _
    | split
theorem State.serveNew_evolves {r : State} (id : Nat) (f : CacheFault) (s : State)
    (h : r.Evolves s) : r.Evolves (State.serveNew id f s) := by
  unfold State.serveNew
  try dsimp only
  repeat' first
    | with_reducible exact h
    | with_reducible apply State.checked_evolves
    | with_reducible apply State.serve_evolves
    | with_reducible assumption
    | with_reducible refine evolves_ite (fun _ => ?_) (fun _ => ?_)
    | with_reducible refine evolves_foldl (fun _ _ _ => ?_) ?_
    | (with_reducible intro _ _); dsimp only
    | with_reducible intro _ _
    | split
    | with_reducible refine evolvesPP_mk ?_
    | with_reducible refine EvolvesPP.snd ?_
    | with_reducible refine EvolvesPP.out (by assumption) ?_
theorem State.lookup_evolves {r : State} (slice : Nat) (f : CacheFault) (bank : Nat) (row : Nat) (queued : Bool) (s : State)
    (h : r.Evolves s) : r.Evolves (State.lookup slice f bank row queued s) := by
  unfold State.lookup
  try dsimp only
  repeat' first
    | with_reducible exact h
    | with_reducible apply State.checked_evolves
    | with_reducible apply State.lookupAccess_evolves
    | with_reducible apply State.nextReq_evolves
    | with_reducible apply State.serve_evolves
    | with_reducible assumption
    | with_reducible refine evolves_ite (fun _ => ?_) (fun _ => ?_)
    | with_reducible refine evolves_foldl (fun _ _ _ => ?_) ?_
    | with_reducible exact evolvesO_get (by assumption)
    | with_reducible refine evolvesO_map (fun _ _ => ?_) ?_
    | with_reducible refine evolvesO_mapP (fun _ _ => ?_) ?_
    | with_reducible refine evolvesO_foldl (fun _ _ _ => ?_) ?_
    | exact evolvesO_none
    | with_reducible refine evolvesO_some ?_
    | (with_reducible intro _ _); dsimp only
    | with_reducible intro _ _
    | split
    | with_reducible refine EvolvesOP.outp (by assumption) ?_
    | with_reducible refine EvolvesOP.out (by assumption) ?_
    | with_reducible refine evolvesPP_mk ?_
    | with_reducible refine EvolvesPP.snd ?_
    | with_reducible refine EvolvesPP.out (by assumption) ?_
theorem execSliceLookup_evolves {r : State} (slice : Nat) (fault : CacheFault) (bank : Nat) (row : Nat) (queued : Bool) (s : State)
    (h : r.Evolves s) : AnswersE r (execSliceLookup slice fault bank row queued s) := by
  unfold execSliceLookup
  try dsimp only
  repeat' first
    | with_reducible exact h
    | with_reducible apply State.lookup_evolves
    | with_reducible assumption
    | with_reducible refine evolves_ite (fun _ => ?_) (fun _ => ?_)
    | with_reducible refine evolves_foldl (fun _ _ _ => ?_) ?_
    | with_reducible refine answersE_next ?_
    | split
theorem State.resumeMiss_evolves {r : State} (x0 : Req) (s : State)
    (h : r.Evolves s) : r.Evolves (State.resumeMiss x0 s) := by
  unfold State.resumeMiss
  try dsimp only
  repeat' first
    | with_reducible exact h
    | with_reducible apply State.readBelow_evolves
    | with_reducible apply State.serveRead_evolves
    | with_reducible apply State.storeWrite_evolves
    | with_reducible refine State.evolves_upFc _ ?_ ?_
    | with_reducible exact fun _ _ _ k => k
    | with_reducible exact fun _ _ _ _ => Tab.sorted_nil
    | with_reducible exact fun _ _ _ k => Tab.sorted_put k
    | with_reducible exact fun _ _ _ k => Tab.sorted_erase k
    | with_reducible exact fun _ _ _ k => Tab.sorted_filter k
    | with_reducible exact fun _ _ _ k => Tab.sorted_filterKV k
    | (with_reducible intro b e q k); (with_reducible refine Tab.sorted_map (fun _ => ?_) k); repeat' first | rfl | split
    | with_reducible assumption
    | with_reducible refine evolves_ite (fun _ => ?_) (fun _ => ?_)
    | with_reducible refine evolves_foldl (fun _ _ _ => ?_) ?_
    | split
theorem execMissSlotFreed_evolves {r : State} (slice : Nat) (set : Nat) (fault : CacheFault) (s : State)
    (h : r.Evolves s) : AnswersE r (execMissSlotFreed slice set fault s) := by
  unfold execMissSlotFreed
  try dsimp only
  repeat' first
    | with_reducible exact h
    | with_reducible apply State.checked_evolves
    | with_reducible apply State.resumeMiss_evolves
    | with_reducible refine State.evolves_upFc _ ?_ ?_
    | with_reducible exact fun _ _ _ k => k
    | with_reducible exact fun _ _ _ _ => Tab.sorted_nil
    | with_reducible exact fun _ _ _ k => Tab.sorted_put k
    | with_reducible exact fun _ _ _ k => Tab.sorted_erase k
    | with_reducible exact fun _ _ _ k => Tab.sorted_filter k
    | with_reducible exact fun _ _ _ k => Tab.sorted_filterKV k
    | (with_reducible intro b e q k); (with_reducible refine Tab.sorted_map (fun _ => ?_) k); repeat' first | rfl | split
    | with_reducible assumption
    | with_reducible refine evolves_ite (fun _ => ?_) (fun _ => ?_)
    | with_reducible refine evolves_foldl (fun _ _ _ => ?_) ?_
    | with_reducible refine answersE_next ?_
    | (with_reducible intro _ _); dsimp only
    | with_reducible intro _ _
    | split
    | with_reducible refine evolvesPP_mk ?_
    | with_reducible refine EvolvesPP.snd ?_
    | with_reducible refine EvolvesPP.out (by assumption) ?_
theorem State.startWaiting_evolves {r : State} (slice : Nat) (s : State)
    (h : r.Evolves s) : r.Evolves (State.startWaiting slice s) := by
  unfold State.startWaiting
  try dsimp only
  repeat' first
    | with_reducible exact h
    | with_reducible apply State.issueFill_evolves
    | with_reducible apply State.startBase_evolves
    | with_reducible assumption
    | with_reducible refine evolves_ite (fun _ => ?_) (fun _ => ?_)
    | with_reducible refine evolves_foldl (fun _ _ _ => ?_) ?_
    | split
theorem execMissTableEntryFreed_evolves {r : State} (slice : Nat) (fault : CacheFault) (s : State)
    (h : r.Evolves s) : AnswersE r (execMissTableEntryFreed slice fault s) := by
  unfold execMissTableEntryFreed
  try dsimp only
  repeat' first
    | with_reducible exact h
    | with_reducible apply State.checked_evolves
    | with_reducible apply State.resumeMiss_evolves
    | with_reducible apply State.startWaiting_evolves
    | with_reducible assumption
    | with_reducible refine evolves_ite (fun _ => ?_) (fun _ => ?_)
    | with_reducible refine evolves_foldl (fun _ _ _ => ?_) ?_
    | with_reducible refine answersE_next ?_
    | (with_reducible intro _ _); dsimp only
    | with_reducible intro _ _
    | split
    | with_reducible refine evolvesPP_mk ?_
    | with_reducible refine EvolvesPP.snd ?_
    | with_reducible refine EvolvesPP.out (by assumption) ?_
theorem execSliceMissSideSleep_evolves {r : State} (slice : Nat) (s : State)
    (h : r.Evolves s) : AnswersE r (execSliceMissSideSleep slice s) := by
  unfold execSliceMissSideSleep
  try dsimp only
  repeat' first
    | with_reducible exact h
    | with_reducible apply State.elapseTo_evolves
    | with_reducible apply State.endRes_evolves
    | with_reducible refine State.evolves_upSlices _ ?_
    | with_reducible assumption
    | with_reducible refine evolves_ite (fun _ => ?_) (fun _ => ?_)
    | with_reducible refine evolves_foldl (fun _ _ _ => ?_) ?_
    | with_reducible refine answersE_next ?_
    | split
theorem execChannelClockStop_evolves {r : State} (ch : Nat) (s : State)
    (h : r.Evolves s) : AnswersE r (execChannelClockStop ch s) := by
  unfold execChannelClockStop
  try dsimp only
  repeat' first
    | with_reducible exact h
    | with_reducible apply State.elapseTo_evolves
    | with_reducible refine State.evolves_upMedia _ ?_ ?_
    | with_reducible exact fun _ _ _ k => k
    | with_reducible exact fun _ _ _ _ => Tab.sorted_nil
    | with_reducible exact fun _ _ _ k => Tab.sorted_put k
    | with_reducible exact fun _ _ _ k => Tab.sorted_erase k
    | with_reducible exact fun _ _ _ k => Tab.sorted_filter k
    | with_reducible exact fun _ _ _ k => Tab.sorted_filterKV k
    | (with_reducible intro b e q k); (with_reducible refine Tab.sorted_map (fun _ => ?_) k); repeat' first | rfl | split
    | with_reducible assumption
    | with_reducible refine evolves_ite (fun _ => ?_) (fun _ => ?_)
    | with_reducible refine evolves_foldl (fun _ _ _ => ?_) ?_
    | with_reducible refine answersE_next ?_
    | split
theorem execProgramSuspendForRead_evolves {r : State} (pos : Nat) (ch : Nat) (s : State)
    (h : r.Evolves s) : AnswersE r (execProgramSuspendForRead pos ch s) := by
  unfold execProgramSuspendForRead
  try dsimp only
  repeat' first
    | with_reducible exact h
    | with_reducible apply State.count_evolves
    | with_reducible refine State.evolves_upMedia _ ?_ ?_
    | with_reducible refine State.evolves_upRstats _ ?_
    | with_reducible exact fun _ _ _ k => k
    | with_reducible exact fun _ _ _ _ => Tab.sorted_nil
    | with_reducible exact fun _ _ _ k => Tab.sorted_put k
    | with_reducible exact fun _ _ _ k => Tab.sorted_erase k
    | with_reducible exact fun _ _ _ k => Tab.sorted_filter k
    | with_reducible exact fun _ _ _ k => Tab.sorted_filterKV k
    | (with_reducible intro b e q k); (with_reducible refine Tab.sorted_map (fun _ => ?_) k); repeat' first | rfl | split
    | with_reducible assumption
    | with_reducible refine evolves_ite (fun _ => ?_) (fun _ => ?_)
    | with_reducible refine evolves_foldl (fun _ _ _ => ?_) ?_
    | with_reducible refine answersE_next ?_
    | split
theorem execDeferredDirectRead_evolves {r : State} (miss : Nat) (s : State)
    (h : r.Evolves s) : AnswersE r (execDeferredDirectRead miss s) := by
  unfold execDeferredDirectRead
  try dsimp only
  repeat' first
    | with_reducible exact h
    | with_reducible apply State.countDirect_evolves
    | with_reducible apply State.setMiss_evolves
    | with_reducible assumption
    | with_reducible refine evolves_ite (fun _ => ?_) (fun _ => ?_)
    | with_reducible refine evolves_foldl (fun _ _ _ => ?_) ?_
    | with_reducible refine answersE_next ?_
    | split
theorem State.softLeave_evolves {r : State} (id : Nat) (ch : Nat) (s : State)
    (h : r.Evolves s) : r.Evolves (State.softLeave id ch s) := by
  unfold State.softLeave
  try dsimp only
  repeat' first
    | with_reducible exact h
    | with_reducible apply State.askLeave_evolves
    | with_reducible assumption
    | with_reducible refine evolves_ite (fun _ => ?_) (fun _ => ?_)
    | with_reducible refine evolves_foldl (fun _ _ _ => ?_) ?_
    | split
theorem State.firstSoft_evolves {r : State} (m : Miss) (ch : Nat) (s : State)
    (h : r.Evolves s) : r.Evolves (State.firstSoft m ch s) := by
  unfold State.firstSoft
  try dsimp only
  repeat' first
    | with_reducible exact h
    | with_reducible apply State.count_evolves
    | with_reducible apply State.setMiss_evolves
    | with_reducible apply State.softLeave_evolves
    | with_reducible refine State.evolves_upRstats _ ?_
    | with_reducible assumption
    | with_reducible refine evolves_ite (fun _ => ?_) (fun _ => ?_)
    | with_reducible refine evolves_foldl (fun _ _ _ => ?_) ?_
    | split
theorem State.secondSoft_evolves {r : State} (m : Miss) (ch : Nat) (s : State)
    (h : r.Evolves s) : r.Evolves (State.secondSoft m ch s) := by
  unfold State.secondSoft
  try dsimp only
  repeat' first
    | with_reducible exact h
    | with_reducible apply State.count_evolves
    | with_reducible apply State.softLeave_evolves
    | with_reducible refine State.evolves_upRstats _ ?_
    | with_reducible assumption
    | with_reducible refine evolves_ite (fun _ => ?_) (fun _ => ?_)
    | with_reducible refine evolves_foldl (fun _ _ _ => ?_) ?_
    | split
theorem State.toStep2_evolves {r : State} (m : Miss) (s : State)
    (h : r.Evolves s) : r.Evolves (State.toStep2 m s) := by
  unfold State.toStep2
  try dsimp only
  repeat' first
    | with_reducible exact h
    | with_reducible apply State.firstSoft_evolves
    | with_reducible apply State.queueRead_evolves
    | with_reducible apply State.setMiss_evolves
    | with_reducible assumption
    | with_reducible refine evolves_ite (fun _ => ?_) (fun _ => ?_)
    | with_reducible refine evolves_foldl (fun _ _ _ => ?_) ?_
    | split
theorem State.toStep3_evolves {r : State} (m : Miss) (s : State)
    (h : r.Evolves s) : r.Evolves (State.toStep3 m s) := by
  unfold State.toStep3
  try dsimp only
  repeat' first
    | with_reducible exact h
    | with_reducible apply State.countPeers_evolves
    | with_reducible apply State.gill_evolves
    | with_reducible apply State.setMiss_evolves
    | with_reducible refine State.evolves_upRstats _ ?_
    | with_reducible assumption
    | with_reducible refine evolves_ite (fun _ => ?_) (fun _ => ?_)
    | with_reducible refine evolves_foldl (fun _ _ _ => ?_) ?_
    | split
theorem State.furtherLoss_evolves {r : State} (m : Miss) (s : State)
    (h : r.Evolves s) : r.Evolves (State.furtherLoss m s) := by
  unfold State.furtherLoss
  try dsimp only
  repeat' first
    | with_reducible exact h
    | with_reducible apply State.stripeLost_evolves
    | with_reducible assumption
    | with_reducible refine evolves_ite (fun _ => ?_) (fun _ => ?_)
    | with_reducible refine evolves_foldl (fun _ _ _ => ?_) ?_
    | split
theorem State.fetchLost_evolves {r : State} (m : Miss) (s : State)
    (h : r.Evolves s) : r.Evolves (State.fetchLost m s) := by
  unfold State.fetchLost
  try dsimp only
  repeat' first
    | with_reducible exact h
    | with_reducible apply State.dropMiss_evolves
    | with_reducible apply State.fetchFailed_evolves
    | with_reducible apply State.furtherLoss_evolves
    | with_reducible refine State.evolves_upReqs _ ?_
    | with_reducible assumption
    | with_reducible refine evolves_ite (fun _ => ?_) (fun _ => ?_)
    | with_reducible refine evolves_foldl (fun _ _ _ => ?_) ?_
    | split
theorem State.toStep4_evolves {r : State} (m : Miss) (s : State)
    (h : r.Evolves s) : r.Evolves (State.toStep4 m s) := by
  unfold State.toStep4
  try dsimp only
  repeat' first
    | with_reducible exact h
    | with_reducible apply State.boundFail_evolves
    | with_reducible apply State.fetchLost_evolves
    | with_reducible apply State.queueRead_evolves
    | with_reducible apply State.secondSoft_evolves
    | with_reducible apply State.setMiss_evolves
    | with_reducible assumption
    | with_reducible refine evolves_ite (fun _ => ?_) (fun _ => ?_)
    | with_reducible refine evolves_foldl (fun _ _ _ => ?_) ?_
    | split
theorem State.combineBad_evolves {r : State} (m : Miss) (s : State)
    (h : r.Evolves s) : r.Evolves (State.combineBad m s) := by
  unfold State.combineBad
  try dsimp only
  repeat' first
    | with_reducible exact h
    | with_reducible apply State.countDirect_evolves
    | with_reducible apply State.fetchLost_evolves
    | with_reducible apply State.setMiss_evolves
    | with_reducible apply State.stopReads_evolves
    | with_reducible apply State.toStep2_evolves
    | with_reducible apply State.toStep4_evolves
    | with_reducible assumption
    | with_reducible refine evolves_ite (fun _ => ?_) (fun _ => ?_)
    | with_reducible refine evolves_foldl (fun _ _ _ => ?_) ?_
    | split
theorem State.prefetch_evolves {r : State} (m : Miss) (s : State)
    (h : r.Evolves s) : r.Evolves (State.prefetch m s) := by
  unfold State.prefetch
  try dsimp only
  repeat' first
    | with_reducible exact h
    | with_reducible apply State.count_evolves
    | with_reducible refine State.evolves_upRstats _ ?_
    | with_reducible refine State.evolves_upSlices _ ?_
    | with_reducible assumption
    | with_reducible refine evolves_ite (fun _ => ?_) (fun _ => ?_)
    | with_reducible refine evolves_foldl (fun _ _ _ => ?_) ?_
    | split
theorem State.softEnds_evolves {r : State} (m : Miss) (ch : Nat) (cell : Nat) (step : Nat) (offsets : List Int) (s : State)
    (h : r.Evolves s) : r.Evolves (State.softEnds m ch cell step offsets s) := by
  unfold State.softEnds
  try dsimp only
  repeat' first
    | with_reducible exact h
    | with_reducible apply State.gill_evolves
    | with_reducible apply State.giveLeave_evolves
    | with_reducible apply State.softDecoded_evolves
    | with_reducible assumption
    | with_reducible refine evolves_ite (fun _ => ?_) (fun _ => ?_)
    | with_reducible refine evolves_foldl (fun _ _ _ => ?_) ?_
    | split
theorem State.healed_evolves {r : State} (m : Miss) (s : State)
    (h : r.Evolves s) : r.Evolves (State.healed m s) := by
  unfold State.healed
  try dsimp only
  repeat' first
    | with_reducible exact h
    | with_reducible apply State.queueMoves_evolves
    | with_reducible assumption
    | with_reducible refine evolves_ite (fun _ => ?_) (fun _ => ?_)
    | with_reducible refine evolves_foldl (fun _ _ _ => ?_) ?_
    | split
theorem State.decodedGood_evolves {r : State} (m : Miss) (corrected : Nat) (offsets : List Int) (s : State)
    (h : r.Evolves s) : r.Evolves (State.decodedGood m corrected offsets s) := by
  unfold State.decodedGood
  try dsimp only
  repeat' first
    | with_reducible exact h
    | with_reducible apply State.codewordRead_evolves
    | with_reducible apply State.count_evolves
    | with_reducible apply State.fetched_evolves
    | with_reducible apply State.gill_evolves
    | with_reducible apply State.serveDie_evolves
    | with_reducible apply State.softEnds_evolves
    | with_reducible refine State.evolves_upRstats _ ?_
    | with_reducible assumption
    | with_reducible refine evolves_ite (fun _ => ?_) (fun _ => ?_)
    | with_reducible refine evolves_foldl (fun _ _ _ => ?_) ?_
    | split
theorem State.decodedBad_evolves {r : State} (m0 : Miss) (crc : Bool) (offsets : List Int) (s : State)
    (h : r.Evolves s) : r.Evolves (State.decodedBad m0 crc offsets s) := by
  unfold State.decodedBad
  try dsimp only
  repeat' first
    | with_reducible exact h
    | with_reducible apply State.codewordRead_evolves
    | with_reducible apply State.fetchLost_evolves
    | with_reducible apply State.serveDie_evolves
    | with_reducible apply State.setMiss_evolves
    | with_reducible apply State.softEnds_evolves
    | with_reducible apply State.toStep2_evolves
    | with_reducible apply State.toStep3_evolves
    | with_reducible assumption
    | with_reducible refine evolves_ite (fun _ => ?_) (fun _ => ?_)
    | with_reducible refine evolves_foldl (fun _ _ _ => ?_) ?_
    | split
theorem State.peerDecoded_evolves {r : State} (m : Miss) (p : Peer) (good : Bool) (corrected : Nat) (offsets : List Int) (s : State)
    (h : r.Evolves s) : r.Evolves (State.peerDecoded m p good corrected offsets s) := by
  unfold State.peerDecoded
  try dsimp only
  repeat' first
    | with_reducible exact h
    | with_reducible apply State.codewordRead_evolves
    | with_reducible apply State.combineBad_evolves
    | with_reducible apply State.firstSoft_evolves
    | with_reducible apply State.gill_evolves
    | with_reducible apply State.queueRead_evolves
    | with_reducible apply State.serveDie_evolves
    | with_reducible apply State.setMiss_evolves
    | with_reducible apply State.softEnds_evolves
    | with_reducible assumption
    | with_reducible refine evolves_ite (fun _ => ?_) (fun _ => ?_)
    | with_reducible refine evolves_foldl (fun _ _ _ => ?_) ?_
    | split
theorem execCodewordDecoded_evolves {r : State} (miss : Nat) (ch : Nat) (x2 : Decode) (corrected : Nat) (offsets : List Int) (s : State)
    (h : r.Evolves s) : AnswersE r (execCodewordDecoded miss ch x2 corrected offsets s) := by
  unfold execCodewordDecoded
  try dsimp only
  repeat' first
    | with_reducible exact h
    | with_reducible apply State.decodedBad_evolves
    | with_reducible apply State.decodedGood_evolves
    | with_reducible apply State.peerDecoded_evolves
    | with_reducible apply State.prefetch_evolves
    | with_reducible apply State.takeWord_evolves
    | with_reducible assumption
    | with_reducible refine evolves_ite (fun _ => ?_) (fun _ => ?_)
    | with_reducible refine evolves_foldl (fun _ _ _ => ?_) ?_
    | with_reducible exact evolvesO_get (by assumption)
    | with_reducible refine evolvesO_map (fun _ _ => ?_) ?_
    | with_reducible refine evolvesO_foldl (fun _ _ _ => ?_) ?_
    | exact evolvesO_none
    | with_reducible refine evolvesO_some ?_
    | with_reducible refine answersE_next ?_
    | split
    | with_reducible refine EvolvesO.out (by assumption) ?_
theorem execStripeCombineDone_evolves {r : State} (miss : Nat) (x1 : Decode) (s : State)
    (h : r.Evolves s) : AnswersE r (execStripeCombineDone miss x1 s) := by
  unfold execStripeCombineDone
  try dsimp only
  repeat' first
    | with_reducible exact h
    | with_reducible apply State.combineBad_evolves
    | with_reducible apply State.count_evolves
    | with_reducible apply State.fetched_evolves
    | with_reducible apply State.healed_evolves
    | with_reducible refine State.evolves_upRstats _ ?_
    | with_reducible assumption
    | with_reducible refine evolves_ite (fun _ => ?_) (fun _ => ?_)
    | with_reducible refine evolves_foldl (fun _ _ _ => ?_) ?_
    | with_reducible refine answersE_next ?_
    | split
theorem execPrefetchDone_evolves {r : State} (pf : Nat) (x1 : Decode) (s : State)
    (h : r.Evolves s) : AnswersE r (execPrefetchDone pf x1 s) := by
  unfold execPrefetchDone
  try dsimp only
  repeat' first
    | with_reducible exact h
    | with_reducible apply State.tierFill_evolves
    | with_reducible apply State.useBus_evolves
    | with_reducible apply State.wakeChannel_evolves
    | with_reducible refine State.evolves_upRstats _ ?_
    | with_reducible refine State.evolves_upSlices _ ?_
    | with_reducible assumption
    | with_reducible refine evolves_ite (fun _ => ?_) (fun _ => ?_)
    | with_reducible refine evolves_foldl (fun _ _ _ => ?_) ?_
    | with_reducible refine answersE_next ?_
    | split
theorem execKeyUnwrapDone_evolves {r : State} (id : Nat) (s : State)
    (h : r.Evolves s) : AnswersE r (execKeyUnwrapDone id s) := by
  unfold execKeyUnwrapDone
  try dsimp only
  repeat' first
    | with_reducible exact h
    | with_reducible refine State.evolves_upKeys _ ?_
    | with_reducible refine State.evolves_upSlices _ ?_
    | with_reducible assumption
    | with_reducible refine evolves_ite (fun _ => ?_) (fun _ => ?_)
    | with_reducible refine evolves_foldl (fun _ _ _ => ?_) ?_
    | with_reducible refine answersE_next ?_
    | split
theorem State.pagedIn_evolves {r : State} (m : Miss) (s : State)
    (h : r.Evolves s) : r.Evolves (State.pagedIn m s) := by
  unfold State.pagedIn
  try dsimp only
  repeat' first
    | with_reducible exact h
    | with_reducible apply State.admitRead_evolves
    | with_reducible apply State.answerAttached_evolves
    | with_reducible apply State.dropMiss_evolves
    | with_reducible apply State.fcFill_evolves
    | with_reducible apply State.fillSector_evolves
    | with_reducible apply State.lockFetched_evolves
    | with_reducible apply State.lookUp_evolves
    | with_reducible apply State.parkAttached_evolves
    | with_reducible apply State.setMiss_evolves
    | with_reducible assumption
    | with_reducible refine evolves_ite (fun _ => ?_) (fun _ => ?_)
    | with_reducible refine evolves_foldl (fun _ _ _ => ?_) ?_
    | split
theorem State.wakeUnit_evolves {r : State} (unitType : Nat) (unit : Nat) (s : State)
    (h : r.Evolves s) : r.Evolves (State.wakeUnit unitType unit s) := by
  unfold State.wakeUnit
  try dsimp only
  repeat' first
    | with_reducible exact h
    | with_reducible apply State.wakeChannel_evolves
    | with_reducible assumption
    | with_reducible refine evolves_ite (fun _ => ?_) (fun _ => ?_)
    | with_reducible refine evolves_foldl (fun _ _ _ => ?_) ?_
    | split
theorem execMapUnitPageIn_evolves {r : State} (unitType : Nat) (unit : Nat) (s : State)
    (h : r.Evolves s) : AnswersE r (execMapUnitPageIn unitType unit s) := by
  unfold execMapUnitPageIn
  try dsimp only
  repeat' first
    | with_reducible exact h
    | with_reducible apply State.pagedIn_evolves
    | with_reducible apply State.wakeUnit_evolves
    | with_reducible refine State.evolves_upMap _ ?_
    | with_reducible assumption
    | with_reducible refine evolves_ite (fun _ => ?_) (fun _ => ?_)
    | with_reducible refine evolves_foldl (fun _ _ _ => ?_) ?_
    | with_reducible refine answersE_next ?_
    | split
theorem execTierFillDone_evolves {r : State} (sector : Nat) (s : State)
    (h : r.Evolves s) : AnswersE r (execTierFillDone sector s) := by
  unfold execTierFillDone
  try dsimp only
  repeat' first
    | with_reducible exact h
    | with_reducible apply State.deliverFill_evolves
    | with_reducible apply State.poisonFill_evolves
    | with_reducible assumption
    | with_reducible refine evolves_ite (fun _ => ?_) (fun _ => ?_)
    | with_reducible refine evolves_foldl (fun _ _ _ => ?_) ?_
    | with_reducible refine answersE_next ?_
    | split
theorem State.endBase_evolves {r : State} (line : Nat) (s : State)
    (h : r.Evolves s) : r.Evolves (State.endBase line s) := by
  unfold State.endBase
  try dsimp only
  repeat' first
    | with_reducible exact h
    | with_reducible apply State.dropMiss_evolves
    | with_reducible assumption
    | with_reducible refine evolves_ite (fun _ => ?_) (fun _ => ?_)
    | with_reducible refine evolves_foldl (fun _ _ _ => ?_) ?_
    | split
theorem execMergeBaseArrived_evolves {r : State} (line : Nat) (dramBad : Bool) (s : State)
    (h : r.Evolves s) : AnswersE r (execMergeBaseArrived line dramBad s) := by
  unfold execMergeBaseArrived
  try dsimp only
  repeat' first
    | with_reducible exact h
    | with_reducible apply State.endBase_evolves
    | with_reducible apply State.mergeLost_evolves
    | with_reducible apply State.mergeWith_evolves
    | with_reducible apply State.poison_evolves
    | with_reducible assumption
    | with_reducible refine evolves_ite (fun _ => ?_) (fun _ => ?_)
    | with_reducible refine evolves_foldl (fun _ _ _ => ?_) ?_
    | with_reducible refine answersE_next ?_
    | split
theorem execBoundConditionClear_evolves {r : State} (bit : Nat) (s : State)
    (h : r.Evolves s) : AnswersE r (execBoundConditionClear bit s) := by
  unfold execBoundConditionClear
  try dsimp only
  repeat' first
    | with_reducible exact h
    | with_reducible apply State.elapseTo_evolves
    | with_reducible apply State.log_evolves
    | with_reducible refine State.evolves_upRstats _ ?_
    | with_reducible assumption
    | with_reducible refine evolves_ite (fun _ => ?_) (fun _ => ?_)
    | with_reducible refine evolves_foldl (fun _ _ _ => ?_) ?_
    | with_reducible refine answersE_next ?_
    | split

end Sys2Proof.Machine
end

