-- ==== Sys2Proof/Laws/EvolvesGrains.lean ====
section
/-!
SUPPORT. How the operations of Machine/Grains.lean let the state evolve.
-/
namespace Sys2Proof.Machine

theorem State.putJob_evolves {r : State} (key : Nat) (j : Job) (s : State)
    (h : r.Evolves s) : r.Evolves (State.putJob key j s) := by
  unfold State.putJob
  try dsimp only
  repeat' first
    | with_reducible exact h
    | with_reducible refine State.evolves_upCmds _ ?_
    | with_reducible assumption
    | with_reducible refine evolves_ite (fun _ => ?_) (fun _ => ?_)
    | with_reducible refine evolves_foldl (fun _ _ _ => ?_) ?_
    | split
theorem State.dropJob_evolves {r : State} (key : Nat) (s : State)
    (h : r.Evolves s) : r.Evolves (State.dropJob key s) := by
  unfold State.dropJob
  try dsimp only
  repeat' first
    | with_reducible exact h
    | with_reducible refine State.evolves_upCmds _ ?_
    | with_reducible assumption
    | with_reducible refine evolves_ite (fun _ => ?_) (fun _ => ?_)
    | with_reducible refine evolves_foldl (fun _ _ _ => ?_) ?_
    | split
theorem State.forgetLines_evolves {r : State} (p : Nat → Bool) (s : State)
    (h : r.Evolves s) : r.Evolves (State.forgetLines p s) := by
  unfold State.forgetLines
  try dsimp only
  repeat' first
    | with_reducible exact h
    | with_reducible apply State.answer_evolves
    | with_reducible apply State.releaseAll_evolves
    | with_reducible apply State.send_evolves
    | with_reducible refine State.evolves_upBudget _ ?_ ?_
    | with_reducible refine State.evolves_upFc _ ?_ ?_
    | with_reducible refine State.evolves_upMap _ ?_
    | with_reducible refine State.evolves_upReqs _ ?_
    | with_reducible refine State.evolves_upTier _ ?_ ?_
    | with_reducible refine State.evolves_upYoke _ ?_ ?_
    | with_reducible exact fun _ _ _ k => k
    | with_reducible exact fun _ _ _ _ => Tab.sorted_nil
    | with_reducible exact fun _ _ _ k => Tab.sorted_put k
    | with_reducible exact fun _ _ _ k => Tab.sorted_erase k
    | with_reducible exact fun _ _ _ k => Tab.sorted_filter k
    | with_reducible exact fun _ _ _ k => Tab.sorted_filterKV k
    | (with_reducible intro b e q k); (with_reducible refine Tab.sorted_map (fun _ => ?_) k); repeat' first | rfl | split
    | with_reducible assumption
    | with_reducible refine evolves_ite (fun _ => ?_) (fun _ => ?_)
    | with_reducible refine evolves_foldl (fun _ _ _ => ?_) ?_
    | split
theorem State.dropLines_evolves {r : State} (p : Nat → Bool) (s : State)
    (h : r.Evolves s) : r.Evolves (State.dropLines p s) := by
  unfold State.dropLines
  try dsimp only
  repeat' first
    | with_reducible exact h
    | with_reducible apply State.endRes_evolves
    | with_reducible apply State.forgetLines_evolves
    | with_reducible assumption
    | with_reducible refine evolves_ite (fun _ => ?_) (fun _ => ?_)
    | with_reducible refine evolves_foldl (fun _ _ _ => ?_) ?_
    | split
theorem State.voidWork_evolves {r : State} (p : Nat → Bool) (s : State)
    (h : r.Evolves s) : r.Evolves (State.voidWork p s) := by
  unfold State.voidWork
  try dsimp only
  repeat' first
    | with_reducible exact h
    | with_reducible refine State.evolves_upBudget _ ?_ ?_
    | with_reducible refine State.evolves_upMedia _ ?_ ?_
    | with_reducible exact fun _ _ _ k => k
    | with_reducible exact fun _ _ _ _ => Tab.sorted_nil
    | with_reducible exact fun _ _ _ k => Tab.sorted_put k
    | with_reducible exact fun _ _ _ k => Tab.sorted_erase k
    | with_reducible exact fun _ _ _ k => Tab.sorted_filter k
    | with_reducible exact fun _ _ _ k => Tab.sorted_filterKV k
    | (with_reducible intro b e q k); (with_reducible refine Tab.sorted_map (fun _ => ?_) k); repeat' first | rfl | split
    | with_reducible assumption
    | with_reducible refine evolves_ite (fun _ => ?_) (fun _ => ?_)
    | with_reducible refine evolves_foldl (fun _ _ _ => ?_) ?_
    | split
theorem State.finishRun_evolves {r : State} (st : GrainSt) (run : Nat × Nat) (s : State)
    (h : r.Evolves s) : r.Evolves (State.finishRun st run s) := by
  unfold State.finishRun
  try dsimp only
  repeat' first
    | with_reducible exact h
    | with_reducible apply State.journal_evolves
    | with_reducible apply State.mark_evolves
    | with_reducible apply State.rekeyDone_evolves
    | with_reducible apply State.retireKeys_evolves
    | with_reducible apply State.settle_evolves
    | with_reducible apply State.voidWork_evolves
    | with_reducible refine State.evolves_upMap _ ?_
    | with_reducible assumption
    | with_reducible refine evolves_ite (fun _ => ?_) (fun _ => ?_)
    | with_reducible refine evolves_foldl (fun _ _ _ => ?_) ?_
    | split
theorem State.changeRun_evolves {r : State} (st : GrainSt) (run : Nat × Nat) (s : State)
    (h : r.Evolves s) : r.Evolves (State.changeRun st run s) := by
  unfold State.changeRun
  try dsimp only
  repeat' first
    | with_reducible exact h
    | with_reducible apply State.dropLines_evolves
    | with_reducible apply State.finishRun_evolves
    | with_reducible assumption
    | with_reducible refine evolves_ite (fun _ => ?_) (fun _ => ?_)
    | with_reducible refine evolves_foldl (fun _ _ _ => ?_) ?_
    | split
theorem State.sendChange_evolves {r : State} (code : Nat) (g : Nat) (s : State)
    (h : r.Evolves s) : r.Evolves (State.sendChange code g s) := by
  unfold State.sendChange
  try dsimp only
  repeat' first
    | with_reducible exact h
    | with_reducible apply State.dropLines_evolves
    | with_reducible apply State.send_evolves
    | with_reducible refine State.evolves_upMap _ ?_
    | with_reducible assumption
    | with_reducible refine evolves_ite (fun _ => ?_) (fun _ => ?_)
    | with_reducible refine evolves_foldl (fun _ _ _ => ?_) ?_
    | split
theorem State.restChange_evolves {r : State} (code : Nat) (g : Nat) (s : State)
    (h : r.Evolves s) : r.Evolves (State.restChange code g s) := by
  unfold State.restChange
  try dsimp only
  repeat' first
    | with_reducible exact h
    | with_reducible apply State.dropLines_evolves
    | with_reducible apply State.finishRun_evolves
    | with_reducible assumption
    | with_reducible refine evolves_ite (fun _ => ?_) (fun _ => ?_)
    | with_reducible refine evolves_foldl (fun _ _ _ => ?_) ?_
    | split
theorem State.eraseStage_evolves {r : State} (key : Nat) (s : State)
    (h : r.Evolves s) : r.Evolves (State.eraseStage key s) := by
  unfold State.eraseStage
  try dsimp only
  repeat' first
    | with_reducible exact h
    | with_reducible apply State.askLeave_evolves
    | with_reducible apply State.putJob_evolves
    | with_reducible apply State.queueMoves_evolves
    | with_reducible apply State.send_evolves
    | with_reducible apply State.setGroup_evolves
    | with_reducible apply State.settle_evolves
    | with_reducible refine State.evolves_upMap _ ?_
    | with_reducible assumption
    | with_reducible refine evolves_ite (fun _ => ?_) (fun _ => ?_)
    | with_reducible refine evolves_foldl (fun _ _ _ => ?_) ?_
    | split
theorem State.record_evolves {r : State} (code : Nat) (keyId : Nat) (base : Nat) (len : Nat) (s : State)
    (h : r.Evolves s) : r.Evolves (State.record code keyId base len s) := by
  unfold State.record
  try dsimp only
  repeat' first
    | with_reducible exact h
    | with_reducible refine State.evolves_upYoke _ ?_ ?_
    | with_reducible exact fun _ _ _ k => k
    | with_reducible assumption
    | with_reducible refine evolves_ite (fun _ => ?_) (fun _ => ?_)
    | with_reducible refine evolves_foldl (fun _ _ _ => ?_) ?_
    | split
theorem State.ackChange_evolves {r : State} (g : Nat) (s : State)
    (h : r.Evolves s) : r.Evolves (State.ackChange g s) := by
  unfold State.ackChange
  try dsimp only
  repeat' first
    | with_reducible exact h
    | with_reducible apply State.eraseStage_evolves
    | with_reducible apply State.putJob_evolves
    | with_reducible apply State.restChange_evolves
    | with_reducible apply State.setVal_evolves
    | with_reducible assumption
    | with_reducible refine evolves_ite (fun _ => ?_) (fun _ => ?_)
    | with_reducible refine evolves_foldl (fun _ _ _ => ?_) ?_
    | split
theorem State.sendHeld_evolves {r : State} (s : State)
    (h : r.Evolves s) : r.Evolves (State.sendHeld s) := by
  unfold State.sendHeld
  try dsimp only
  repeat' first
    | with_reducible exact h
    | with_reducible apply State.putJob_evolves
    | with_reducible apply State.sendChange_evolves
    | with_reducible assumption
    | with_reducible refine evolves_ite (fun _ => ?_) (fun _ => ?_)
    | with_reducible refine evolves_foldl (fun _ _ _ => ?_) ?_
    | split
theorem State.goOn_evolves {r : State} (s : State)
    (h : r.Evolves s) : r.Evolves (State.goOn s) := by
  unfold State.goOn
  try dsimp only
  repeat' first
    | with_reducible exact h
    | with_reducible apply State.eraseStage_evolves
    | with_reducible apply State.putJob_evolves
    | with_reducible apply State.restChange_evolves
    | with_reducible apply State.sendHeld_evolves
    | with_reducible apply State.setVal_evolves
    | with_reducible assumption
    | with_reducible refine evolves_ite (fun _ => ?_) (fun _ => ?_)
    | with_reducible refine evolves_foldl (fun _ _ _ => ?_) ?_
    | split
theorem State.soleJobs_evolves {r : State} (s : State)
    (h : r.Evolves s) : r.Evolves (State.soleJobs s) := by
  unfold State.soleJobs
  try dsimp only
  repeat' first
    | with_reducible exact h
    | with_reducible apply State.eraseStage_evolves
    | with_reducible apply State.putJob_evolves
    | with_reducible apply State.restChange_evolves
    | with_reducible apply State.setVal_evolves
    | with_reducible assumption
    | with_reducible refine evolves_ite (fun _ => ?_) (fun _ => ?_)
    | with_reducible refine evolves_foldl (fun _ _ _ => ?_) ?_
    | split

end Sys2Proof.Machine
end

