-- ==== Sys2Proof/Laws/EvolvesCarry.lean ====
section
/-!
SUPPORT. How the operations of Machine/Carry.lean let the state evolve.
-/
namespace Sys2Proof.Machine

theorem State.noteYokeCrc_evolves {r : State} (line : Nat) (ok : Bool) (s : State)
    (h : r.Evolves s) : r.Evolves (State.noteYokeCrc line ok s) := by
  unfold State.noteYokeCrc
  try dsimp only
  repeat' first
    | with_reducible exact h
    | with_reducible apply State.log_evolves
    | with_reducible assumption
    | with_reducible refine evolves_ite (fun _ => ?_) (fun _ => ?_)
    | with_reducible refine evolves_foldl (fun _ _ _ => ?_) ?_
    | split
theorem State.putWrite_evolves {r : State} (line : Nat) (d : Line) (m : Mask) (poison : Bool) (s : State)
    (h : r.Evolves s) : EvolvesO r (State.putWrite line d m poison s) := by
  unfold State.putWrite
  try dsimp only
  repeat' first
    | with_reducible exact h
    | with_reducible apply State.applyWrite_evolves
    | with_reducible apply State.brineDrop_evolves
    | with_reducible apply State.chargeFor_evolves
    | with_reducible apply State.wakeSlice_evolves
    | with_reducible assumption
    | with_reducible refine evolves_ite (fun _ => ?_) (fun _ => ?_)
    | with_reducible refine evolves_foldl (fun _ _ _ => ?_) ?_
    | with_reducible exact evolvesO_get (by assumption)
    | with_reducible refine evolvesO_map (fun _ _ => ?_) ?_
    | with_reducible refine evolvesO_foldl (fun _ _ _ => ?_) ?_
    | exact evolvesO_none
    | with_reducible refine evolvesO_some ?_
    | split
    | with_reducible refine EvolvesO.out (by assumption) ?_
theorem State.replyFor_evolves {r : State} (line : Nat) (m : YokeMsg) (s : State)
    (h : r.Evolves s) : r.Evolves (State.replyFor line m s) := by
  unfold State.replyFor
  try dsimp only
  repeat' first
    | with_reducible exact h
    | with_reducible apply State.queueWb_evolves
    | with_reducible apply State.send_evolves
    | with_reducible refine State.evolves_upReqs _ ?_
    | with_reducible refine State.evolves_upYoke _ ?_ ?_
    | with_reducible exact fun _ _ _ k => k
    | with_reducible assumption
    | with_reducible refine evolves_ite (fun _ => ?_) (fun _ => ?_)
    | with_reducible refine evolves_foldl (fun _ _ _ => ?_) ?_
    | split
theorem State.dropFlight_evolves {r : State} (f : Flight) (s : State)
    (h : r.Evolves s) : r.Evolves (State.dropFlight f s) := by
  unfold State.dropFlight
  try dsimp only
  repeat' first
    | with_reducible exact h
    | with_reducible apply State.unmark_evolves
    | with_reducible refine State.evolves_upYoke _ ?_ ?_
    | with_reducible exact fun _ _ _ k => k
    | with_reducible assumption
    | with_reducible refine evolves_ite (fun _ => ?_) (fun _ => ?_)
    | with_reducible refine evolves_foldl (fun _ _ _ => ?_) ?_
    | split
theorem State.endForward_evolves {r : State} (f : Flight) (s : State)
    (h : r.Evolves s) : r.Evolves (State.endForward f s) := by
  unfold State.endForward
  try dsimp only
  repeat' first
    | with_reducible exact h
    | with_reducible apply State.completeWrite_evolves
    | with_reducible apply State.count_evolves
    | with_reducible apply State.dropFlight_evolves
    | with_reducible apply State.notePoison_evolves
    | with_reducible apply State.recordOutcome_evolves
    | with_reducible apply State.replyFor_evolves
    | with_reducible assumption
    | with_reducible refine evolves_ite (fun _ => ?_) (fun _ => ?_)
    | with_reducible refine evolves_foldl (fun _ _ _ => ?_) ?_
    | split
theorem State.carryForward_evolves {r : State} (m : YokeMsg) (s : State)
    (h : r.Evolves s) : EvolvesO r (State.carryForward m s) := by
  unfold State.carryForward
  try dsimp only
  repeat' first
    | with_reducible exact h
    | with_reducible apply State.brineDrop_evolves
    | with_reducible apply State.count_evolves
    | with_reducible apply State.dirtyAtPeer_evolves
    | with_reducible apply State.putWrite_evolves
    | with_reducible apply State.replyFor_evolves
    | with_reducible apply State.send_evolves
    | with_reducible refine State.evolves_upYoke _ ?_ ?_
    | with_reducible exact fun _ _ _ k => k
    | with_reducible assumption
    | with_reducible refine evolves_ite (fun _ => ?_) (fun _ => ?_)
    | with_reducible refine evolves_foldl (fun _ _ _ => ?_) ?_
    | with_reducible exact evolvesO_get (by assumption)
    | with_reducible refine evolvesO_map (fun _ _ => ?_) ?_
    | with_reducible refine evolvesO_foldl (fun _ _ _ => ?_) ?_
    | exact evolvesO_none
    | with_reducible refine evolvesO_some ?_
    | split
    | with_reducible refine EvolvesO.out (by assumption) ?_
theorem State.carryMirror_evolves {r : State} (m : YokeMsg) (s : State)
    (h : r.Evolves s) : EvolvesO r (State.carryMirror m s) := by
  unfold State.carryMirror
  try dsimp only
  repeat' first
    | with_reducible exact h
    | with_reducible apply State.endForward_evolves
    | with_reducible apply State.putWrite_evolves
    | with_reducible apply State.replyFor_evolves
    | with_reducible assumption
    | with_reducible refine evolves_ite (fun _ => ?_) (fun _ => ?_)
    | with_reducible refine evolves_foldl (fun _ _ _ => ?_) ?_
    | with_reducible exact evolvesO_get (by assumption)
    | with_reducible refine evolvesO_map (fun _ _ => ?_) ?_
    | with_reducible refine evolvesO_foldl (fun _ _ _ => ?_) ?_
    | exact evolvesO_none
    | with_reducible refine evolvesO_some ?_
    | split
    | with_reducible refine EvolvesO.out (by assumption) ?_
theorem State.carryOrdered_evolves {r : State} (m : YokeMsg) (s : State)
    (h : r.Evolves s) : EvolvesO r (State.carryOrdered m s) := by
  unfold State.carryOrdered
  try dsimp only
  repeat' first
    | with_reducible exact h
    | with_reducible apply State.answer_evolves
    | with_reducible apply State.brineDrop_evolves
    | with_reducible apply State.dropFlight_evolves
    | with_reducible apply State.endForward_evolves
    | with_reducible apply State.putWrite_evolves
    | with_reducible apply State.recordOutcome_evolves
    | with_reducible assumption
    | with_reducible refine evolves_ite (fun _ => ?_) (fun _ => ?_)
    | with_reducible refine evolves_foldl (fun _ _ _ => ?_) ?_
    | with_reducible exact evolvesO_get (by assumption)
    | with_reducible refine evolvesO_map (fun _ _ => ?_) ?_
    | with_reducible refine evolvesO_foldl (fun _ _ _ => ?_) ?_
    | exact evolvesO_none
    | with_reducible refine evolvesO_some ?_
    | split
    | with_reducible refine EvolvesO.out (by assumption) ?_
theorem State.carry_evolves {r : State} (m : YokeMsg) (s : State)
    (h : r.Evolves s) : EvolvesO r (State.carry m s) := by
  unfold State.carry
  try dsimp only
  repeat' first
    | with_reducible exact h
    | with_reducible apply State.ackChange_evolves
    | with_reducible apply State.carryForward_evolves
    | with_reducible apply State.carryMirror_evolves
    | with_reducible apply State.carryOrdered_evolves
    | with_reducible apply State.changeRun_evolves
    | with_reducible apply State.send_evolves
    | with_reducible assumption
    | with_reducible refine evolves_ite (fun _ => ?_) (fun _ => ?_)
    | with_reducible refine evolves_foldl (fun _ _ _ => ?_) ?_
    | with_reducible exact evolvesO_get (by assumption)
    | with_reducible refine evolvesO_map (fun _ _ => ?_) ?_
    | with_reducible refine evolvesO_foldl (fun _ _ _ => ?_) ?_
    | exact evolvesO_none
    | with_reducible refine evolvesO_some ?_
    | split
    | with_reducible refine EvolvesO.out (by assumption) ?_
theorem State.runHeld_evolves {r : State} (x0 : Nat) (x1 : State)
    (h : r.Evolves x1) : r.Evolves (State.runHeld x0 x1) := by
  induction x0 generalizing x1 with
  | zero => unfold State.runHeld; first | exact h | exact evolvesP_mk h
  | succ n ih =>
    unfold State.runHeld
    try dsimp only
    repeat' first
      | with_reducible exact h
      | with_reducible apply State.carry_evolves
      | with_reducible apply State.owe_evolves
      | with_reducible apply State.pressSet_evolves
      | with_reducible refine State.evolves_upYoke _ ?_ ?_
      | with_reducible refine ih _ ?_
      | with_reducible exact fun _ _ _ k => k
      | with_reducible assumption
      | with_reducible refine evolves_ite (fun _ => ?_) (fun _ => ?_)
      | with_reducible refine evolves_foldl (fun _ _ _ => ?_) ?_
      | with_reducible exact evolvesO_get (by assumption)
      | with_reducible refine evolvesO_map (fun _ _ => ?_) ?_
      | with_reducible refine evolvesO_foldl (fun _ _ _ => ?_) ?_
      | exact evolvesO_none
      | with_reducible refine evolvesO_some ?_
      | split
      | with_reducible refine EvolvesO.out (by assumption) ?_
theorem State.workPail_evolves {r : State} (s : State)
    (h : r.Evolves s) : r.Evolves (State.workPail s) := by
  unfold State.workPail
  try dsimp only
  repeat' first
    | with_reducible exact h
    | with_reducible apply State.runHeld_evolves
    | with_reducible assumption
    | with_reducible refine evolves_ite (fun _ => ?_) (fun _ => ?_)
    | with_reducible refine evolves_foldl (fun _ _ _ => ?_) ?_
    | split
theorem State.takeMessage_evolves {r : State} (m : YokeMsg) (s : State)
    (h : r.Evolves s) : r.Evolves (State.takeMessage m s) := by
  unfold State.takeMessage
  try dsimp only
  repeat' first
    | with_reducible exact h
    | with_reducible apply State.owe_evolves
    | with_reducible apply State.workPail_evolves
    | with_reducible refine State.evolves_upYoke _ ?_ ?_
    | with_reducible exact fun _ _ _ k => k
    | with_reducible assumption
    | with_reducible refine evolves_ite (fun _ => ?_) (fun _ => ?_)
    | with_reducible refine evolves_foldl (fun _ _ _ => ?_) ?_
    | split
theorem State.takeReadForward_evolves {r : State} (tag : Nat) (line : Nat) (s : State)
    (h : r.Evolves s) : r.Evolves (State.takeReadForward tag line s) := by
  unfold State.takeReadForward
  try dsimp only
  repeat' first
    | with_reducible exact h
    | with_reducible apply State.serveRead_evolves
    | with_reducible refine State.evolves_upReqs _ ?_
    | with_reducible refine State.evolves_upYoke _ ?_ ?_
    | with_reducible exact fun _ _ _ k => k
    | with_reducible assumption
    | with_reducible refine evolves_ite (fun _ => ?_) (fun _ => ?_)
    | with_reducible refine evolves_foldl (fun _ _ _ => ?_) ?_
    | split
theorem State.releasePending_evolves {r : State} (line : Nat) (s : State)
    (h : r.Evolves s) : r.Evolves (State.releasePending line s) := by
  unfold State.releasePending
  try dsimp only
  repeat' first
    | with_reducible exact h
    | with_reducible apply State.takeReadForward_evolves
    | with_reducible apply State.wakeLine_evolves
    | with_reducible refine State.evolves_upYoke _ ?_ ?_
    | with_reducible exact fun _ _ _ k => k
    | with_reducible assumption
    | with_reducible refine evolves_ite (fun _ => ?_) (fun _ => ?_)
    | with_reducible refine evolves_foldl (fun _ _ _ => ?_) ?_
    | split
theorem State.ackMirror_evolves {r : State} (tag : Nat) (s : State)
    (h : r.Evolves s) : r.Evolves (State.ackMirror tag s) := by
  unfold State.ackMirror
  try dsimp only
  repeat' first
    | with_reducible exact h
    | with_reducible apply State.completeWrite_evolves
    | with_reducible apply State.dropFlight_evolves
    | with_reducible apply State.releasePending_evolves
    | with_reducible refine State.evolves_upYoke _ ?_ ?_
    | with_reducible exact fun _ _ _ k => k
    | with_reducible assumption
    | with_reducible refine evolves_ite (fun _ => ?_) (fun _ => ?_)
    | with_reducible refine evolves_foldl (fun _ _ _ => ?_) ?_
    | split
theorem State.takeReadData_evolves {r : State} (tag : Nat) (line : Nat) (d : Line) (poisoned : Bool) (s : State)
    (h : r.Evolves s) : r.Evolves (State.takeReadData tag line d poisoned s) := by
  unfold State.takeReadData
  try dsimp only
  repeat' first
    | with_reducible exact h
    | with_reducible apply State.answer_evolves
    | with_reducible apply State.count_evolves
    | with_reducible apply State.dropFlight_evolves
    | with_reducible apply State.resRoom_evolves
    | with_reducible apply State.reserve_evolves
    | with_reducible apply State.stageReq_evolves
    | with_reducible assumption
    | with_reducible refine evolves_ite (fun _ => ?_) (fun _ => ?_)
    | with_reducible refine evolves_foldl (fun _ _ _ => ?_) ?_
    | with_reducible exact evolvesO_get (by assumption)
    | with_reducible refine evolvesO_map (fun _ _ => ?_) ?_
    | with_reducible refine evolvesO_foldl (fun _ _ _ => ?_) ?_
    | exact evolvesO_none
    | with_reducible refine evolvesO_some ?_
    | split
    | with_reducible refine EvolvesO.out (by assumption) ?_

end Sys2Proof.Machine
end

