-- ==== Sys2Proof/Laws/EvolvesWrites.lean ====
section
/-!
SUPPORT. How the operations of Machine/Writes.lean let the state evolve.
-/
namespace Sys2Proof.Machine

theorem execHostWriteRequest_evolves {r : State} (key : Nat) (addr : Nat) (tag : Nat) (data : Line) (be : Mask) (poison : Bool) (s : State)
    (h : r.Evolves s) : AnswersE r (execHostWriteRequest key addr tag data be poison s) := by
  unfold execHostWriteRequest
  try dsimp only
  repeat' first
    | with_reducible exact h
    | with_reducible apply State.arrive_evolves
    | with_reducible assumption
    | with_reducible refine evolves_ite (fun _ => ?_) (fun _ => ?_)
    | with_reducible refine evolves_foldl (fun _ _ _ => ?_) ?_
    | with_reducible refine answersE_next ?_
    | split
theorem execWriteAdmit_evolves {r : State} (s : State)
    (h : r.Evolves s) : AnswersE r (execWriteAdmit s) := by
  unfold execWriteAdmit
  try dsimp only
  repeat' first
    | with_reducible exact h
    | with_reducible apply State.serveCond_evolves
    | with_reducible apply State.serveWrite_evolves
    | with_reducible apply State.workPail_evolves
    | with_reducible assumption
    | with_reducible refine evolves_ite (fun _ => ?_) (fun _ => ?_)
    | with_reducible refine evolves_foldl (fun _ _ _ => ?_) ?_
    | with_reducible refine answersE_next ?_
    | split
theorem execWritesHeld_evolves {r : State} (s : State)
    (h : r.Evolves s) : AnswersE r (execWritesHeld s) := by
  unfold execWritesHeld
  try dsimp only
  repeat' first
    | with_reducible exact h
    | with_reducible apply State.elapseTo_evolves
    | with_reducible apply State.logFor_evolves
    | with_reducible refine State.evolves_upBudget _ ?_ ?_
    | with_reducible exact fun _ _ _ k => k
    | with_reducible exact fun _ _ _ _ => Tab.sorted_nil
    | with_reducible exact fun _ _ _ k => Tab.sorted_put k
    | with_reducible exact fun _ _ _ k => Tab.sorted_erase k
    | with_reducible exact fun _ _ _ k => Tab.sorted_filter k
    | with_reducible exact fun _ _ _ k => Tab.sorted_filterKV k
    | (with_reducible intro b e q k); (with_reducible refine Tab.sorted_map (fun _ => ?_) k); repeat' first | rfl | split
    | with_reducible assumption
    | with_reducible refine evolves_ite (fun _ => ?_) (fun _ => ?_)
    | with_reducible refine evolves_foldl (fun _ _ _ => ?_) ?_
    | with_reducible refine answersE_next ?_
    | split
theorem State.evict_evolves {r : State} (line : Nat) (s : State)
    (h : r.Evolves s) : r.Evolves (State.evict line s) := by
  unfold State.evict
  try dsimp only
  repeat' first
    | with_reducible exact h
    | with_reducible apply State.fcPut_evolves
    | with_reducible apply State.moveToTier_evolves
    | with_reducible apply State.pressSet_evolves
    | with_reducible assumption
    | with_reducible refine evolves_ite (fun _ => ?_) (fun _ => ?_)
    | with_reducible refine evolves_foldl (fun _ _ _ => ?_) ?_
    | with_reducible exact evolvesO_get (by assumption)
    | with_reducible refine evolvesO_map (fun _ _ => ?_) ?_
    | with_reducible refine evolvesO_foldl (fun _ _ _ => ?_) ?_
    | exact evolvesO_none
    | with_reducible refine evolvesO_some ?_
    | split
    | with_reducible refine EvolvesO.out (by assumption) ?_
theorem execFrontCacheEvict_evolves {r : State} (slice : Nat) (set : Nat) (fault : CacheFault) (s : State)
    (h : r.Evolves s) : AnswersE r (execFrontCacheEvict slice set fault s) := by
  unfold execFrontCacheEvict
  try dsimp only
  repeat' first
    | with_reducible exact h
    | with_reducible apply State.checkFault_evolves
    | with_reducible apply State.evict_evolves
    | with_reducible assumption
    | with_reducible refine evolves_ite (fun _ => ?_) (fun _ => ?_)
    | with_reducible refine evolves_foldl (fun _ _ _ => ?_) ?_
    | with_reducible refine answersE_next ?_
    | split
theorem execTierSectorFreed_evolves {r : State} (slice : Nat) (set : Nat) (s : State)
    (h : r.Evolves s) : AnswersE r (execTierSectorFreed slice set s) := by
  unfold execTierSectorFreed
  try dsimp only
  repeat' first
    | with_reducible exact h
    | with_reducible apply State.moveToTier_evolves
    | with_reducible apply State.storeWrite_evolves
    | with_reducible apply State.workPail_evolves
    | with_reducible assumption
    | with_reducible refine evolves_ite (fun _ => ?_) (fun _ => ?_)
    | with_reducible refine evolves_foldl (fun _ _ _ => ?_) ?_
    | with_reducible exact evolvesO_get (by assumption)
    | with_reducible refine evolvesO_map (fun _ _ => ?_) ?_
    | with_reducible refine evolvesO_foldl (fun _ _ _ => ?_) ?_
    | exact evolvesO_none
    | with_reducible refine evolvesO_some ?_
    | with_reducible refine answersE_next ?_
    | split
    | with_reducible refine EvolvesO.out (by assumption) ?_

end Sys2Proof.Machine
end

