-- ==== Sys2Proof/Laws/EvolvesLapPages.lean ====
section
/-!
SUPPORT. How the operations of Machine/LapPages.lean let the state evolve.
-/
namespace Sys2Proof.Machine

theorem State.endDirectory_evolves {r : State} (s : State)
    (h : r.Evolves s) : r.Evolves (State.endDirectory s) := by
  unfold State.endDirectory
  try dsimp only
  repeat' first
    | with_reducible exact h
    | with_reducible apply State.closing_evolves
    | with_reducible apply State.programXor_evolves
    | with_reducible refine State.evolves_upMedia _ ?_ ?_
    | with_reducible exact fun _ _ _ k => k
    | with_reducible exact fun _ _ _ _ => Tab.sorted_nil
    | with_reducible exact fun _ _ _ k => Tab.sorted_put k
    | with_reducible exact fun _ _ _ k => Tab.sorted_erase k
    | with_reducible exact fun _ _ _ k => Tab.sorted_filter k
    | with_reducible exact fun _ _ _ k => Tab.sorted_filterKV k
    | (with_reducible intro b e q k); (with_reducible refine Tab.sorted_map (fun _ => ?_) k); repeat' first | rfl | split
    | with_reducible assumption
    | with_reducible refine evolves_ite (fun _ => ?_) (fun _ => ?_)
    | with_reducible refine evolves_foldl (fun _ _ _ => ?_) ?_
    | split
theorem State.lapNextPage_evolves {r : State} (s : State)
    (h : r.Evolves s) : EvolvesO r (State.lapNextPage s) := by
  unfold State.lapNextPage
  try dsimp only
  repeat' first
    | with_reducible exact h
    | with_reducible apply State.endDirectory_evolves
    | with_reducible apply State.place_evolves
    | with_reducible apply State.program_evolves
    | with_reducible apply State.takeGen_evolves
    | with_reducible refine State.evolves_upMap _ ?_
    | with_reducible assumption
    | with_reducible refine evolves_ite (fun _ => ?_) (fun _ => ?_)
    | with_reducible refine evolves_foldl (fun _ _ _ => ?_) ?_
    | with_reducible exact evolvesO_get (by assumption)
    | with_reducible refine evolvesO_map (fun _ _ => ?_) ?_
    | with_reducible refine evolvesO_mapP (fun _ _ => ?_) ?_
    | with_reducible refine evolvesO_foldl (fun _ _ _ => ?_) ?_
    | exact evolvesO_none
    | with_reducible refine evolvesO_some ?_
    | with_reducible refine evolvesP_ite ?_ ?_
    | with_reducible refine evolvesP_foldl (fun _ _ _ => ?_) ?_
    | split
    | with_reducible refine EvolvesP.snd ?_
    | with_reducible refine evolvesP_mk ?_
    | with_reducible refine EvolvesP.out (by assumption) ?_
    | with_reducible refine EvolvesO.out (by assumption) ?_
    | with_reducible refine EvolvesOP.outp (by assumption) ?_
    | with_reducible refine EvolvesOP.out (by assumption) ?_
theorem State.lapPages_evolves {r : State} (x0 : Nat) (x1 : State)
    (h : r.Evolves x1) : r.Evolves (State.lapPages x0 x1) := by
  induction x0 generalizing x1 with
  | zero => unfold State.lapPages; first | exact h | exact evolvesP_mk h
  | succ n ih =>
    unfold State.lapPages
    try dsimp only
    repeat' first
      | with_reducible exact h
      | with_reducible apply State.lapNextPage_evolves
      | with_reducible refine ih _ ?_
      | with_reducible assumption
      | with_reducible refine evolves_ite (fun _ => ?_) (fun _ => ?_)
      | with_reducible refine evolves_foldl (fun _ _ _ => ?_) ?_
      | with_reducible exact evolvesO_get (by assumption)
      | with_reducible refine evolvesO_map (fun _ _ => ?_) ?_
      | with_reducible refine evolvesO_foldl (fun _ _ _ => ?_) ?_
      | exact evolvesO_none
      | with_reducible refine evolvesO_some ?_
      | split
      | with_reducible refine EvolvesO.out (by assumption) ?_
theorem State.lapRoot_evolves {r : State} (s : State)
    (h : r.Evolves s) : r.Evolves (State.lapRoot s) := by
  unfold State.lapRoot
  try dsimp only
  repeat' first
    | with_reducible exact h
    | with_reducible apply State.place_evolves
    | with_reducible apply State.program_evolves
    | with_reducible apply State.takeGen_evolves
    | with_reducible refine State.evolves_upMap _ ?_
    | with_reducible assumption
    | with_reducible refine evolves_ite (fun _ => ?_) (fun _ => ?_)
    | with_reducible refine evolves_foldl (fun _ _ _ => ?_) ?_
    | with_reducible exact evolvesO_get (by assumption)
    | with_reducible refine evolvesO_map (fun _ _ => ?_) ?_
    | with_reducible refine evolvesO_mapP (fun _ _ => ?_) ?_
    | with_reducible refine evolvesO_foldl (fun _ _ _ => ?_) ?_
    | exact evolvesO_none
    | with_reducible refine evolvesO_some ?_
    | with_reducible refine evolvesP_ite ?_ ?_
    | with_reducible refine evolvesP_foldl (fun _ _ _ => ?_) ?_
    | split
    | with_reducible refine EvolvesP.snd ?_
    | with_reducible refine evolvesP_mk ?_
    | with_reducible refine EvolvesP.out (by assumption) ?_
    | with_reducible refine EvolvesOP.outp (by assumption) ?_
    | with_reducible refine EvolvesOP.out (by assumption) ?_
theorem State.runLap_evolves {r : State} (s : State)
    (h : r.Evolves s) : r.Evolves (State.runLap s) := by
  unfold State.runLap
  try dsimp only
  repeat' first
    | with_reducible exact h
    | with_reducible apply State.lapPages_evolves
    | with_reducible apply State.lapRoot_evolves
    | with_reducible assumption
    | with_reducible refine evolves_ite (fun _ => ?_) (fun _ => ?_)
    | with_reducible refine evolves_foldl (fun _ _ _ => ?_) ?_
    | split

end Sys2Proof.Machine
end

