-- ==== Sys2Proof/Laws/EvolvesMediaOps.lean ====
section
/-!
SUPPORT. How the operations of Machine/MediaOps.lean let the state evolve.
-/
namespace Sys2Proof.Machine

theorem State.pressBlocked_evolves {r : State} (s : State)
    (h : r.Evolves s) : r.Evolves (State.pressBlocked s) := by
  unfold State.pressBlocked
  try dsimp only
  repeat' first
    | with_reducible exact h
    | with_reducible apply State.pressSet_evolves
    | with_reducible assumption
    | with_reducible refine evolves_ite (fun _ => ?_) (fun _ => ?_)
    | with_reducible refine evolves_foldl (fun _ _ _ => ?_) ?_
    | split
theorem State.nextWriteback_evolves {r : State} (s0 : State)
    (h : r.Evolves s0) : EvolvesOPP r (State.nextWriteback s0) := by
  unfold State.nextWriteback
  try dsimp only
  repeat' first
    | with_reducible exact h
    | with_reducible apply State.nextClass_evolves
    | with_reducible apply State.refillTokens_evolves
    | with_reducible assumption
    | with_reducible refine evolves_ite (fun _ => ?_) (fun _ => ?_)
    | with_reducible refine evolves_foldl (fun _ _ _ => ?_) ?_
    | with_reducible exact evolvesO_get (by assumption)
    | with_reducible refine evolvesO_map (fun _ _ => ?_) ?_
    | with_reducible refine evolvesO_foldl (fun _ _ _ => ?_) ?_
    | exact evolvesO_none
    | with_reducible refine evolvesO_some ?_
    | exact evolvesOPP_none
    | with_reducible refine evolvesOPP_some ?_
    | with_reducible refine evolvesP_ite ?_ ?_
    | with_reducible refine evolvesP_foldl (fun _ _ _ => ?_) ?_
    | split
    | with_reducible refine EvolvesP.snd ?_
    | with_reducible refine evolvesP_mk ?_
    | with_reducible refine EvolvesP.out (by assumption) ?_
    | with_reducible refine EvolvesOPP.out (by assumption) ?_
theorem State.noteWb_evolves {r : State} (g : Nat) (prio : Nat) (taken : List Nat) (s : State)
    (h : r.Evolves s) : r.Evolves (State.noteWb g prio taken s) := by
  unfold State.noteWb
  try dsimp only
  repeat' first
    | with_reducible exact h
    | with_reducible refine State.evolves_upBudget _ ?_ ?_
    | with_reducible refine State.evolves_upReg _ ?_
    | with_reducible exact fun _ _ _ k => k
    | with_reducible exact fun _ _ _ _ => Tab.sorted_nil
    | with_reducible exact fun _ _ _ k => Tab.sorted_put k
    | with_reducible exact fun _ _ _ k => Tab.sorted_erase k
    | with_reducible exact fun _ _ _ k => Tab.sorted_filter k
    | with_reducible exact fun _ _ _ k => Tab.sorted_filterKV k
    | (with_reducible intro b e q k); (with_reducible refine Tab.sorted_map (fun _ => ?_) k); repeat' first | rfl | split
    | with_reducible assumption
    | with_reducible refine evolves_ite (fun _ => ?_) (fun _ => ?_)
    | with_reducible refine evolves_foldl (fun _ _ _ => ?_) ?_
    | split
theorem State.queueAged_evolves {r : State} (s : State)
    (h : r.Evolves s) : r.Evolves (State.queueAged s) := by
  unfold State.queueAged
  try dsimp only
  repeat' first
    | with_reducible exact h
    | with_reducible apply State.queueWb_evolves
    | with_reducible assumption
    | with_reducible refine evolves_ite (fun _ => ?_) (fun _ => ?_)
    | with_reducible refine evolves_foldl (fun _ _ _ => ?_) ?_
    | split
theorem State.rewriteGrain_evolves {r : State} (g : Nat) (prio : Nat) (taken : List Nat) (done : List (Nat × Nat)) (reads : List WordRead) (s : State)
    (h : r.Evolves s) : EvolvesO r (State.rewriteGrain g prio taken done reads s) := by
  unfold State.rewriteGrain
  try dsimp only
  repeat' first
    | with_reducible exact h
    | with_reducible apply State.loseLines_evolves
    | with_reducible apply State.lostKeyWrite_evolves
    | with_reducible apply State.noteWb_evolves
    | with_reducible apply State.place_evolves
    | with_reducible apply State.program_evolves
    | with_reducible apply State.readLines_evolves
    | with_reducible apply State.takeGen_evolves
    | with_reducible assumption
    | with_reducible refine evolves_ite (fun _ => ?_) (fun _ => ?_)
    | with_reducible refine evolves_foldl (fun _ _ _ => ?_) ?_
    | with_reducible exact evolvesO_get (by assumption)
    | with_reducible refine evolvesO_map (fun _ _ => ?_) ?_
    | with_reducible refine evolvesO_mapP (fun _ _ => ?_) ?_
    | with_reducible refine evolvesO_foldl (fun _ _ _ => ?_) ?_
    | exact evolvesO_none
    | with_reducible refine evolvesO_some ?_
    | with_reducible refine evolvesP_ite ?_ ?_
    | with_reducible refine evolvesP_foldl (fun _ _ _ => ?_) ?_
    | split
    | with_reducible refine EvolvesP.snd ?_
    | with_reducible refine evolvesP_mk ?_
    | with_reducible refine EvolvesP.out (by assumption) ?_
    | with_reducible refine EvolvesO.out (by assumption) ?_
    | with_reducible refine EvolvesOP.outp (by assumption) ?_
    | with_reducible refine EvolvesOP.out (by assumption) ?_
theorem State.appendGrain_evolves {r : State} (g : Nat) (prio : Nat) (taken : List Nat) (s : State)
    (h : r.Evolves s) : EvolvesO r (State.appendGrain g prio taken s) := by
  unfold State.appendGrain
  try dsimp only
  repeat' first
    | with_reducible exact h
    | with_reducible apply State.appendLines_evolves
    | with_reducible apply State.lostKeyWrite_evolves
    | with_reducible apply State.noteWb_evolves
    | with_reducible assumption
    | with_reducible refine evolves_ite (fun _ => ?_) (fun _ => ?_)
    | with_reducible refine evolves_foldl (fun _ _ _ => ?_) ?_
    | with_reducible exact evolvesO_get (by assumption)
    | with_reducible refine evolvesO_map (fun _ _ => ?_) ?_
    | with_reducible refine evolvesO_mapP (fun _ _ => ?_) ?_
    | with_reducible refine evolvesO_foldl (fun _ _ _ => ?_) ?_
    | exact evolvesO_none
    | with_reducible refine evolvesO_some ?_
    | split
    | with_reducible refine EvolvesO.out (by assumption) ?_
    | with_reducible refine EvolvesOP.outp (by assumption) ?_
    | with_reducible refine EvolvesOP.out (by assumption) ?_
theorem execWritebackStart_evolves {r : State} (reads : List WordRead) (s : State)
    (h : r.Evolves s) : AnswersE r (execWritebackStart reads s) := by
  unfold execWritebackStart
  try dsimp only
  repeat' first
    | with_reducible exact h
    | with_reducible apply State.appendGrain_evolves
    | with_reducible apply State.moveRebuilt_evolves
    | with_reducible apply State.nextWriteback_evolves
    | with_reducible apply State.noteLimits_evolves
    | with_reducible apply State.pressBlocked_evolves
    | with_reducible apply State.queueAged_evolves
    | with_reducible apply State.readLines_evolves
    | with_reducible apply State.rewriteGrain_evolves
    | with_reducible apply State.takeLine_evolves
    | with_reducible assumption
    | with_reducible refine evolves_ite (fun _ => ?_) (fun _ => ?_)
    | with_reducible refine evolves_foldl (fun _ _ _ => ?_) ?_
    | with_reducible exact evolvesO_get (by assumption)
    | with_reducible refine evolvesO_map (fun _ _ => ?_) ?_
    | with_reducible refine evolvesO_foldl (fun _ _ _ => ?_) ?_
    | exact evolvesO_none
    | with_reducible refine evolvesO_some ?_
    | with_reducible refine evolvesP_ite ?_ ?_
    | with_reducible refine evolvesP_foldl (fun _ _ _ => ?_) ?_
    | with_reducible refine answersE_next ?_
    | split
    | with_reducible refine EvolvesP.snd ?_
    | with_reducible refine evolvesP_mk ?_
    | with_reducible refine EvolvesP.out (by assumption) ?_
    | with_reducible refine EvolvesO.out (by assumption) ?_
    | with_reducible refine EvolvesOPP.out (by assumption) ?_
theorem execDirtyAgeExpired_evolves {r : State} (s : State)
    (h : r.Evolves s) : AnswersE r (execDirtyAgeExpired s) := by
  unfold execDirtyAgeExpired
  try dsimp only
  repeat' first
    | with_reducible exact h
    | with_reducible apply State.elapseTo_evolves
    | with_reducible apply State.queueAged_evolves
    | with_reducible assumption
    | with_reducible refine evolves_ite (fun _ => ?_) (fun _ => ?_)
    | with_reducible refine evolves_foldl (fun _ _ _ => ?_) ?_
    | with_reducible refine answersE_next ?_
    | split
theorem State.withdraw_evolves {r : State} (p : Pass) (s : State)
    (h : r.Evolves s) : r.Evolves (State.withdraw p s) := by
  unfold State.withdraw
  try dsimp only
  repeat' first
    | with_reducible exact h
    | with_reducible apply State.endPass_evolves
    | with_reducible apply State.returnLines_evolves
    | with_reducible refine State.evolves_upMedia _ ?_ ?_
    | with_reducible exact fun _ _ _ k => k
    | with_reducible exact fun _ _ _ _ => Tab.sorted_nil
    | with_reducible exact fun _ _ _ k => Tab.sorted_put k
    | with_reducible exact fun _ _ _ k => Tab.sorted_erase k
    | with_reducible exact fun _ _ _ k => Tab.sorted_filter k
    | with_reducible exact fun _ _ _ k => Tab.sorted_filterKV k
    | (with_reducible intro b e q k); (with_reducible refine Tab.sorted_map (fun _ => ?_) k); repeat' first | rfl | split
    | with_reducible assumption
    | with_reducible refine evolves_ite (fun _ => ?_) (fun _ => ?_)
    | with_reducible refine evolves_foldl (fun _ _ _ => ?_) ?_
    | split
theorem State.replaceLap_evolves {r : State} (p : Pass) (pg : Page) (s : State)
    (h : r.Evolves s) : r.Evolves (State.replaceLap p pg s) := by
  unfold State.replaceLap
  try dsimp only
  repeat' first
    | with_reducible exact h
    | with_reducible apply State.place_evolves
    | with_reducible apply State.program_evolves
    | with_reducible apply State.takeGen_evolves
    | with_reducible refine State.evolves_upMap _ ?_
    | with_reducible assumption
    | with_reducible refine evolves_ite (fun _ => ?_) (fun _ => ?_)
    | with_reducible refine evolves_foldl (fun _ _ _ => ?_) ?_
    | with_reducible exact evolvesO_get (by assumption)
    | with_reducible refine evolvesO_map (fun _ _ => ?_) ?_
    | with_reducible refine evolvesO_mapP (fun _ _ => ?_) ?_
    | with_reducible refine evolvesO_foldl (fun _ _ _ => ?_) ?_
    | exact evolvesO_none
    | with_reducible refine evolvesO_some ?_
    | with_reducible refine evolvesP_ite ?_ ?_
    | with_reducible refine evolvesP_foldl (fun _ _ _ => ?_) ?_
    | split
    | with_reducible refine EvolvesP.snd ?_
    | with_reducible refine evolvesP_mk ?_
    | with_reducible refine EvolvesP.out (by assumption) ?_
    | with_reducible refine EvolvesOP.outp (by assumption) ?_
    | with_reducible refine EvolvesOP.out (by assumption) ?_
theorem State.again_evolves {r : State} (set : Option CopySet) (p : Pass) (pg : Option Page) (s : State)
    (h : r.Evolves s) : r.Evolves (State.again set p pg s) := by
  unfold State.again
  try dsimp only
  repeat' first
    | with_reducible exact h
    | with_reducible apply State.queueMoves_evolves
    | with_reducible apply State.redoSet_evolves
    | with_reducible apply State.replaceLap_evolves
    | with_reducible apply State.runResync_evolves
    | with_reducible assumption
    | with_reducible refine evolves_ite (fun _ => ?_) (fun _ => ?_)
    | with_reducible refine evolves_foldl (fun _ _ _ => ?_) ?_
    | split
theorem State.cancel_evolves {r : State} (bad : Pass → Bool) (s : State)
    (h : r.Evolves s) : r.Evolves (State.cancel bad s) := by
  unfold State.cancel
  try dsimp only
  repeat' first
    | with_reducible exact h
    | with_reducible apply State.again_evolves
    | with_reducible apply State.programXor_evolves
    | with_reducible apply State.withdraw_evolves
    | with_reducible assumption
    | with_reducible refine evolves_ite (fun _ => ?_) (fun _ => ?_)
    | with_reducible refine evolves_foldl (fun _ _ _ => ?_) ?_
    | split
theorem State.startOp_evolves {r : State} (l : Leave) (s : State)
    (h : r.Evolves s) : r.Evolves (State.startOp l s) := by
  unfold State.startOp
  try dsimp only
  repeat' first
    | with_reducible exact h
    | with_reducible apply State.count_evolves
    | with_reducible apply State.loadChannel_evolves
    | with_reducible apply State.setGroup_evolves
    | with_reducible apply State.wakeChannel_evolves
    | with_reducible refine State.evolves_upMedia _ ?_ ?_
    | with_reducible refine State.evolves_upReg _ ?_
    | with_reducible exact fun _ _ _ k => k
    | with_reducible exact fun _ _ _ _ => Tab.sorted_nil
    | with_reducible exact fun _ _ _ k => Tab.sorted_put k
    | with_reducible exact fun _ _ _ k => Tab.sorted_erase k
    | with_reducible exact fun _ _ _ k => Tab.sorted_filter k
    | with_reducible exact fun _ _ _ k => Tab.sorted_filterKV k
    | (with_reducible intro b e q k); (with_reducible refine Tab.sorted_map (fun _ => ?_) k); repeat' first | rfl | split
    | with_reducible assumption
    | with_reducible refine evolves_ite (fun _ => ?_) (fun _ => ?_)
    | with_reducible refine evolves_foldl (fun _ _ _ => ?_) ?_
    | split
theorem State.grantLoop_evolves {r : State} (x0 : Nat) (x1 : State)
    (h : r.Evolves x1) : r.Evolves (State.grantLoop x0 x1) := by
  induction x0 generalizing x1 with
  | zero => unfold State.grantLoop; first | exact h | exact evolvesP_mk h
  | succ n ih =>
    unfold State.grantLoop
    try dsimp only
    repeat' first
      | with_reducible exact h
      | with_reducible apply State.count_evolves
      | with_reducible apply State.startOp_evolves
      | with_reducible refine State.evolves_upReg _ ?_
      | with_reducible refine ih _ ?_
      | with_reducible assumption
      | with_reducible refine evolves_ite (fun _ => ?_) (fun _ => ?_)
      | with_reducible refine evolves_foldl (fun _ _ _ => ?_) ?_
      | split
theorem execLeaveGrant_evolves {r : State} (s : State)
    (h : r.Evolves s) : AnswersE r (execLeaveGrant s) := by
  unfold execLeaveGrant
  try dsimp only
  repeat' first
    | with_reducible exact h
    | with_reducible apply State.cancel_evolves
    | with_reducible apply State.grantLoop_evolves
    | with_reducible assumption
    | with_reducible refine evolves_ite (fun _ => ?_) (fun _ => ?_)
    | with_reducible refine evolves_foldl (fun _ _ _ => ?_) ?_
    | with_reducible refine answersE_next ?_
    | split
theorem execWindowTokenGrant_evolves {r : State} (pos : Nat) (s : State)
    (h : r.Evolves s) : AnswersE r (execWindowTokenGrant pos s) := by
  unfold execWindowTokenGrant
  try dsimp only
  repeat' first
    | with_reducible exact h
    | with_reducible refine State.evolves_upMedia _ ?_ ?_
    | with_reducible exact fun _ _ _ k => k
    | with_reducible exact fun _ _ _ _ => Tab.sorted_nil
    | with_reducible exact fun _ _ _ k => Tab.sorted_put k
    | with_reducible exact fun _ _ _ k => Tab.sorted_erase k
    | with_reducible exact fun _ _ _ k => Tab.sorted_filter k
    | with_reducible exact fun _ _ _ k => Tab.sorted_filterKV k
    | (with_reducible intro b e q k); (with_reducible refine Tab.sorted_map (fun _ => ?_) k); repeat' first | rfl | split
    | with_reducible assumption
    | with_reducible refine evolves_ite (fun _ => ?_) (fun _ => ?_)
    | with_reducible refine evolves_foldl (fun _ _ _ => ?_) ?_
    | with_reducible refine answersE_next ?_
    | split
theorem State.nextOneBit_evolves {r : State} (pos : Nat) (k : Nat) (o : DieOp) (s : State)
    (h : r.Evolves s) : r.Evolves (State.nextOneBit pos k o s) := by
  unfold State.nextOneBit
  try dsimp only
  repeat' first
    | with_reducible exact h
    | with_reducible refine State.evolves_upMedia _ ?_ ?_
    | with_reducible exact fun _ _ _ k => k
    | with_reducible exact fun _ _ _ _ => Tab.sorted_nil
    | with_reducible exact fun _ _ _ k => Tab.sorted_put k
    | with_reducible exact fun _ _ _ k => Tab.sorted_erase k
    | with_reducible exact fun _ _ _ k => Tab.sorted_filter k
    | with_reducible exact fun _ _ _ k => Tab.sorted_filterKV k
    | (with_reducible intro b e q k); (with_reducible refine Tab.sorted_map (fun _ => ?_) k); repeat' first | rfl | split
    | with_reducible assumption
    | with_reducible refine evolves_ite (fun _ => ?_) (fun _ => ?_)
    | with_reducible refine evolves_foldl (fun _ _ _ => ?_) ?_
    | split
theorem execWindowEnd_evolves {r : State} (pos : Nat) (s : State)
    (h : r.Evolves s) : AnswersE r (execWindowEnd pos s) := by
  unfold execWindowEnd
  try dsimp only
  repeat' first
    | with_reducible exact h
    | with_reducible apply State.nextOneBit_evolves
    | with_reducible refine State.evolves_upMedia _ ?_ ?_
    | with_reducible exact fun _ _ _ k => k
    | with_reducible exact fun _ _ _ _ => Tab.sorted_nil
    | with_reducible exact fun _ _ _ k => Tab.sorted_put k
    | with_reducible exact fun _ _ _ k => Tab.sorted_erase k
    | with_reducible exact fun _ _ _ k => Tab.sorted_filter k
    | with_reducible exact fun _ _ _ k => Tab.sorted_filterKV k
    | (with_reducible intro b e q k); (with_reducible refine Tab.sorted_map (fun _ => ?_) k); repeat' first | rfl | split
    | with_reducible assumption
    | with_reducible refine evolves_ite (fun _ => ?_) (fun _ => ?_)
    | with_reducible refine evolves_foldl (fun _ _ _ => ?_) ?_
    | with_reducible refine answersE_next ?_
    | split
theorem State.cancelAbsent_evolves {r : State} (g : Nat) (s : State)
    (h : r.Evolves s) : r.Evolves (State.cancelAbsent g s) := by
  unfold State.cancelAbsent
  try dsimp only
  repeat' first
    | with_reducible exact h
    | with_reducible apply State.cancel_evolves
    | with_reducible assumption
    | with_reducible refine evolves_ite (fun _ => ?_) (fun _ => ?_)
    | with_reducible refine evolves_foldl (fun _ _ _ => ?_) ?_
    | split
theorem State.dieDown_evolves {r : State} (pos : Nat) (ch : Nat) (s : State)
    (h : r.Evolves s) : r.Evolves (State.dieDown pos ch s) := by
  unfold State.dieDown
  try dsimp only
  repeat' first
    | with_reducible exact h
    | with_reducible apply State.cancel_evolves
    | with_reducible apply State.failDie_evolves
    | with_reducible assumption
    | with_reducible refine evolves_ite (fun _ => ?_) (fun _ => ?_)
    | with_reducible refine evolves_foldl (fun _ _ _ => ?_) ?_
    | split
theorem State.checkDies_evolves {r : State} (s : State)
    (h : r.Evolves s) : r.Evolves (State.checkDies s) := by
  unfold State.checkDies
  try dsimp only
  repeat' first
    | with_reducible exact h
    | with_reducible apply State.dieDown_evolves
    | with_reducible assumption
    | with_reducible refine evolves_ite (fun _ => ?_) (fun _ => ?_)
    | with_reducible refine evolves_foldl (fun _ _ _ => ?_) ?_
    | split
theorem State.failPass_evolves {r : State} (p : Pass) (damaged : List Nat) (lost : List Nat) (s : State)
    (h : r.Evolves s) : r.Evolves (State.failPass p damaged lost s) := by
  unfold State.failPass
  try dsimp only
  repeat' first
    | with_reducible exact h
    | with_reducible apply State.again_evolves
    | with_reducible apply State.cancelAbsent_evolves
    | with_reducible apply State.checkDies_evolves
    | with_reducible apply State.columnAbsent_evolves
    | with_reducible apply State.log_evolves
    | with_reducible apply State.noteLost_evolves
    | with_reducible apply State.programXor_evolves
    | with_reducible apply State.queueMoves_evolves
    | with_reducible apply State.stripeLost_evolves
    | with_reducible apply State.withdraw_evolves
    | with_reducible assumption
    | with_reducible refine evolves_ite (fun _ => ?_) (fun _ => ?_)
    | with_reducible refine evolves_foldl (fun _ _ _ => ?_) ?_
    | split
theorem State.readSource_evolves {r : State} (p : Pass) (reads : List WordRead) (s : State)
    (h : r.Evolves s) : r.Evolves (State.readSource p reads s) := by
  unfold State.readSource
  try dsimp only
  repeat' first
    | with_reducible exact h
    | with_reducible apply State.loseLines_evolves
    | with_reducible apply State.readLines_evolves
    | with_reducible apply State.scrubPoison_evolves
    | with_reducible refine State.evolves_upMedia _ ?_ ?_
    | with_reducible exact fun _ _ _ k => k
    | with_reducible exact fun _ _ _ _ => Tab.sorted_nil
    | with_reducible exact fun _ _ _ k => Tab.sorted_put k
    | with_reducible exact fun _ _ _ k => Tab.sorted_erase k
    | with_reducible exact fun _ _ _ k => Tab.sorted_filter k
    | with_reducible exact fun _ _ _ k => Tab.sorted_filterKV k
    | (with_reducible intro b e q k); (with_reducible refine Tab.sorted_map (fun _ => ?_) k); repeat' first | rfl | split
    | with_reducible assumption
    | with_reducible refine evolves_ite (fun _ => ?_) (fun _ => ?_)
    | with_reducible refine evolves_foldl (fun _ _ _ => ?_) ?_
    | with_reducible refine evolvesP_ite ?_ ?_
    | with_reducible refine evolvesP_foldl (fun _ _ _ => ?_) ?_
    | split
    | with_reducible refine EvolvesP.snd ?_
    | with_reducible refine evolvesP_mk ?_
    | with_reducible refine EvolvesP.out (by assumption) ?_
theorem execProgramPassDone_evolves {r : State} (pass : Nat) (failed : Bool) (damaged : List Nat) (lostPages : List Nat) (reads : List WordRead) (s : State)
    (h : r.Evolves s) : AnswersE r (execProgramPassDone pass failed damaged lostPages reads s) := by
  unfold execProgramPassDone
  try dsimp only
  repeat' first
    | with_reducible exact h
    | with_reducible apply State.closing_evolves
    | with_reducible apply State.count_evolves
    | with_reducible apply State.failPass_evolves
    | with_reducible apply State.leavePass_evolves
    | with_reducible apply State.loadChannel_evolves
    | with_reducible apply State.noteProgram_evolves
    | with_reducible apply State.programXor_evolves
    | with_reducible apply State.readSource_evolves
    | with_reducible apply State.retireKeys_evolves
    | with_reducible refine State.evolves_upCare _ ?_ ?_
    | with_reducible refine State.evolves_upMedia _ ?_ ?_
    | with_reducible exact fun _ _ _ k => k
    | with_reducible exact fun _ _ _ _ => Tab.sorted_nil
    | with_reducible exact fun _ _ _ k => Tab.sorted_put k
    | with_reducible exact fun _ _ _ k => Tab.sorted_erase k
    | with_reducible exact fun _ _ _ k => Tab.sorted_filter k
    | with_reducible exact fun _ _ _ k => Tab.sorted_filterKV k
    | (with_reducible intro b e q k); (with_reducible refine Tab.sorted_map (fun _ => ?_) k); repeat' first | rfl | split
    | with_reducible assumption
    | with_reducible refine evolves_ite (fun _ => ?_) (fun _ => ?_)
    | with_reducible refine evolves_foldl (fun _ _ _ => ?_) ?_
    | with_reducible refine answersE_next ?_
    | split
theorem State.releasePage_evolves {r : State} (p : Pass) (ls : List Nat) (s : State)
    (h : r.Evolves s) : r.Evolves (State.releasePage p ls s) := by
  unfold State.releasePage
  try dsimp only
  repeat' first
    | with_reducible exact h
    | with_reducible apply State.answer_evolves
    | with_reducible apply State.releaseLine_evolves
    | with_reducible apply State.send_evolves
    | with_reducible refine State.evolves_upBudget _ ?_ ?_
    | with_reducible refine State.evolves_upYoke _ ?_ ?_
    | with_reducible exact fun _ _ _ k => k
    | with_reducible exact fun _ _ _ _ => Tab.sorted_nil
    | with_reducible exact fun _ _ _ k => Tab.sorted_put k
    | with_reducible exact fun _ _ _ k => Tab.sorted_erase k
    | with_reducible exact fun _ _ _ k => Tab.sorted_filter k
    | with_reducible exact fun _ _ _ k => Tab.sorted_filterKV k
    | (with_reducible intro b e q k); (with_reducible refine Tab.sorted_map (fun _ => ?_) k); repeat' first | rfl | split
    | with_reducible assumption
    | with_reducible refine evolves_ite (fun _ => ?_) (fun _ => ?_)
    | with_reducible refine evolves_foldl (fun _ _ _ => ?_) ?_
    | split
theorem State.landMove_evolves {r : State} (p : Pass) (src : Nat) (pg : Page) (s : State)
    (h : r.Evolves s) : r.Evolves (State.landMove p src pg s) := by
  unfold State.landMove
  try dsimp only
  repeat' first
    | with_reducible exact h
    | with_reducible apply State.closeGroup_evolves
    | with_reducible apply State.indexLine_evolves
    | with_reducible apply State.journal_evolves
    | with_reducible apply State.log_evolves
    | with_reducible apply State.mapGrain_evolves
    | with_reducible apply State.save_evolves
    | with_reducible refine State.evolves_upMap _ ?_
    | with_reducible refine State.evolves_upMedia _ ?_ ?_
    | with_reducible refine State.evolves_upTabs _ ?_
    | with_reducible exact fun _ _ _ k => k
    | with_reducible exact fun _ _ _ _ => Tab.sorted_nil
    | with_reducible exact fun _ _ _ k => Tab.sorted_put k
    | with_reducible exact fun _ _ _ k => Tab.sorted_erase k
    | with_reducible exact fun _ _ _ k => Tab.sorted_filter k
    | with_reducible exact fun _ _ _ k => Tab.sorted_filterKV k
    | (with_reducible intro b e q k); (with_reducible refine Tab.sorted_map (fun _ => ?_) k); repeat' first | rfl | split
    | with_reducible assumption
    | with_reducible refine evolves_ite (fun _ => ?_) (fun _ => ?_)
    | with_reducible refine evolves_foldl (fun _ _ _ => ?_) ?_
    | split
theorem State.landResync_evolves {r : State} (p : Pass) (pg : Page) (s : State)
    (h : r.Evolves s) : r.Evolves (State.landResync p pg s) := by
  unfold State.landResync
  try dsimp only
  repeat' first
    | with_reducible exact h
    | with_reducible apply State.dropLine_evolves
    | with_reducible apply State.endRes_evolves
    | with_reducible apply State.mapGrain_evolves
    | with_reducible apply State.poison_evolves
    | with_reducible apply State.send_evolves
    | with_reducible apply State.unpoison_evolves
    | with_reducible refine State.evolves_upYoke _ ?_ ?_
    | with_reducible exact fun _ _ _ k => k
    | with_reducible assumption
    | with_reducible refine evolves_ite (fun _ => ?_) (fun _ => ?_)
    | with_reducible refine evolves_foldl (fun _ _ _ => ?_) ?_
    | split
theorem State.landWrite_evolves {r : State} (p : Pass) (pg : Page) (s : State)
    (h : r.Evolves s) : r.Evolves (State.landWrite p pg s) := by
  unfold State.landWrite
  try dsimp only
  repeat' first
    | with_reducible exact h
    | with_reducible apply State.indexLine_evolves
    | with_reducible apply State.journal_evolves
    | with_reducible apply State.landResync_evolves
    | with_reducible apply State.mapGrain_evolves
    | with_reducible apply State.releasePage_evolves
    | with_reducible apply State.returnLines_evolves
    | with_reducible refine State.evolves_upBudget _ ?_ ?_
    | with_reducible exact fun _ _ _ k => k
    | with_reducible exact fun _ _ _ _ => Tab.sorted_nil
    | with_reducible exact fun _ _ _ k => Tab.sorted_put k
    | with_reducible exact fun _ _ _ k => Tab.sorted_erase k
    | with_reducible exact fun _ _ _ k => Tab.sorted_filter k
    | with_reducible exact fun _ _ _ k => Tab.sorted_filterKV k
    | (with_reducible intro b e q k); (with_reducible refine Tab.sorted_map (fun _ => ?_) k); repeat' first | rfl | split
    | with_reducible assumption
    | with_reducible refine evolves_ite (fun _ => ?_) (fun _ => ?_)
    | with_reducible refine evolves_foldl (fun _ _ _ => ?_) ?_
    | split
theorem execPageVerify_evolves {r : State} (ppa : Nat) (corrected : Nat) (converged : Bool) (damaged : List Nat) (lostPages : List Nat) (s : State)
    (h : r.Evolves s) : AnswersE r (execPageVerify ppa corrected converged damaged lostPages s) := by
  unfold execPageVerify
  try dsimp only
  repeat' first
    | with_reducible exact h
    | with_reducible apply State.checkDies_evolves
    | with_reducible apply State.closing_evolves
    | with_reducible apply State.endPass_evolves
    | with_reducible apply State.failPass_evolves
    | with_reducible apply State.landMove_evolves
    | with_reducible apply State.landWrite_evolves
    | with_reducible apply State.noteLimits_evolves
    | with_reducible apply State.rekeyDone_evolves
    | with_reducible apply State.retireKeys_evolves
    | with_reducible apply State.runLap_evolves
    | with_reducible apply State.settle_evolves
    | with_reducible apply State.wakeChannel_evolves
    | with_reducible refine State.evolves_upMedia _ ?_ ?_
    | with_reducible exact fun _ _ _ k => k
    | with_reducible exact fun _ _ _ _ => Tab.sorted_nil
    | with_reducible exact fun _ _ _ k => Tab.sorted_put k
    | with_reducible exact fun _ _ _ k => Tab.sorted_erase k
    | with_reducible exact fun _ _ _ k => Tab.sorted_filter k
    | with_reducible exact fun _ _ _ k => Tab.sorted_filterKV k
    | (with_reducible intro b e q k); (with_reducible refine Tab.sorted_map (fun _ => ?_) k); repeat' first | rfl | split
    | with_reducible assumption
    | with_reducible refine evolves_ite (fun _ => ?_) (fun _ => ?_)
    | with_reducible refine evolves_foldl (fun _ _ _ => ?_) ?_
    | with_reducible refine answersE_next ?_
    | split
theorem State.strike_evolves {r : State} (ppa : Nat) (s : State)
    (h : r.Evolves s) : r.Evolves (State.strike ppa s) := by
  unfold State.strike
  try dsimp only
  repeat' first
    | with_reducible exact h
    | with_reducible refine State.evolves_upMedia _ ?_ ?_
    | with_reducible exact fun _ _ _ k => k
    | with_reducible exact fun _ _ _ _ => Tab.sorted_nil
    | with_reducible exact fun _ _ _ k => Tab.sorted_put k
    | with_reducible exact fun _ _ _ k => Tab.sorted_erase k
    | with_reducible exact fun _ _ _ k => Tab.sorted_filter k
    | with_reducible exact fun _ _ _ k => Tab.sorted_filterKV k
    | (with_reducible intro b e q k); (with_reducible refine Tab.sorted_map (fun _ => ?_) k); repeat' first | rfl | split
    | with_reducible assumption
    | with_reducible refine evolves_ite (fun _ => ?_) (fun _ => ?_)
    | with_reducible refine evolves_foldl (fun _ _ _ => ?_) ?_
    | split
theorem State.wakeColumns_evolves {r : State} (g : Nat) (s : State)
    (h : r.Evolves s) : r.Evolves (State.wakeColumns g s) := by
  unfold State.wakeColumns
  try dsimp only
  repeat' first
    | with_reducible exact h
    | with_reducible apply State.wakeChannel_evolves
    | with_reducible assumption
    | with_reducible refine evolves_ite (fun _ => ?_) (fun _ => ?_)
    | with_reducible refine evolves_foldl (fun _ _ _ => ?_) ?_
    | split
theorem execCloseVerifyDone_evolves {r : State} (group : Nat) (failed : List Nat) (weak : List Nat) (lostPages : List Nat) (s : State)
    (h : r.Evolves s) : AnswersE r (execCloseVerifyDone group failed weak lostPages s) := by
  unfold execCloseVerifyDone
  try dsimp only
  repeat' first
    | with_reducible exact h
    | with_reducible apply State.checkDies_evolves
    | with_reducible apply State.closeGroup_evolves
    | with_reducible apply State.log_evolves
    | with_reducible apply State.queueMoves_evolves
    | with_reducible apply State.strike_evolves
    | with_reducible apply State.stripeLost_evolves
    | with_reducible apply State.wakeColumns_evolves
    | with_reducible refine State.evolves_upMedia _ ?_ ?_
    | with_reducible exact fun _ _ _ k => k
    | with_reducible exact fun _ _ _ _ => Tab.sorted_nil
    | with_reducible exact fun _ _ _ k => Tab.sorted_put k
    | with_reducible exact fun _ _ _ k => Tab.sorted_erase k
    | with_reducible exact fun _ _ _ k => Tab.sorted_filter k
    | with_reducible exact fun _ _ _ k => Tab.sorted_filterKV k
    | (with_reducible intro b e q k); (with_reducible refine Tab.sorted_map (fun _ => ?_) k); repeat' first | rfl | split
    | with_reducible assumption
    | with_reducible refine evolves_ite (fun _ => ?_) (fun _ => ?_)
    | with_reducible refine evolves_foldl (fun _ _ _ => ?_) ?_
    | with_reducible refine answersE_next ?_
    | split
theorem State.dropCols_evolves {r : State} (g : Nat) (cols : List Nat) (s : State)
    (h : r.Evolves s) : r.Evolves (State.dropCols g cols s) := by
  unfold State.dropCols
  try dsimp only
  repeat' first
    | with_reducible exact h
    | with_reducible apply State.freeChanged_evolves
    | with_reducible apply State.log_evolves
    | with_reducible apply State.retireBlock_evolves
    | with_reducible apply State.retireGroup_evolves
    | with_reducible apply State.setGroup_evolves
    | with_reducible apply State.takeReserve_evolves
    | with_reducible refine State.evolves_upMedia _ ?_ ?_
    | with_reducible exact fun _ _ _ k => k
    | with_reducible exact fun _ _ _ _ => Tab.sorted_nil
    | with_reducible exact fun _ _ _ k => Tab.sorted_put k
    | with_reducible exact fun _ _ _ k => Tab.sorted_erase k
    | with_reducible exact fun _ _ _ k => Tab.sorted_filter k
    | with_reducible exact fun _ _ _ k => Tab.sorted_filterKV k
    | (with_reducible intro b e q k); (with_reducible refine Tab.sorted_map (fun _ => ?_) k); repeat' first | rfl | split
    | with_reducible assumption
    | with_reducible refine evolves_ite (fun _ => ?_) (fun _ => ?_)
    | with_reducible refine evolves_foldl (fun _ _ _ => ?_) ?_
    | split
theorem State.erased_evolves {r : State} (g : Nat) (s : State)
    (h : r.Evolves s) : r.Evolves (State.erased g s) := by
  unfold State.erased
  try dsimp only
  repeat' first
    | with_reducible exact h
    | with_reducible refine State.evolves_upCmds _ ?_
    | with_reducible assumption
    | with_reducible refine evolves_ite (fun _ => ?_) (fun _ => ?_)
    | with_reducible refine evolves_foldl (fun _ _ _ => ?_) ?_
    | split
theorem State.endReset_evolves {r : State} (g : Nat) (s : State)
    (h : r.Evolves s) : r.Evolves (State.endReset g s) := by
  unfold State.endReset
  try dsimp only
  repeat' first
    | with_reducible exact h
    | with_reducible apply State.giveLeave_evolves
    | with_reducible refine State.evolves_upMedia _ ?_ ?_
    | with_reducible exact fun _ _ _ k => k
    | with_reducible exact fun _ _ _ _ => Tab.sorted_nil
    | with_reducible exact fun _ _ _ k => Tab.sorted_put k
    | with_reducible exact fun _ _ _ k => Tab.sorted_erase k
    | with_reducible exact fun _ _ _ k => Tab.sorted_filter k
    | with_reducible exact fun _ _ _ k => Tab.sorted_filterKV k
    | (with_reducible intro b e q k); (with_reducible refine Tab.sorted_map (fun _ => ?_) k); repeat' first | rfl | split
    | with_reducible assumption
    | with_reducible refine evolves_ite (fun _ => ?_) (fun _ => ?_)
    | with_reducible refine evolves_foldl (fun _ _ _ => ?_) ?_
    | split
theorem execBlockResetDone_evolves {r : State} (group : Nat) (failedCols : List Nat) (s : State)
    (h : r.Evolves s) : AnswersE r (execBlockResetDone group failedCols s) := by
  unfold execBlockResetDone
  try dsimp only
  repeat' first
    | with_reducible exact h
    | with_reducible apply State.checkDies_evolves
    | with_reducible apply State.dropCols_evolves
    | with_reducible apply State.endReset_evolves
    | with_reducible apply State.erased_evolves
    | with_reducible apply State.freeChanged_evolves
    | with_reducible apply State.noteWear_evolves
    | with_reducible apply State.runMoves_evolves
    | with_reducible apply State.setGroup_evolves
    | with_reducible refine State.evolves_upMedia _ ?_ ?_
    | with_reducible exact fun _ _ _ k => k
    | with_reducible exact fun _ _ _ _ => Tab.sorted_nil
    | with_reducible exact fun _ _ _ k => Tab.sorted_put k
    | with_reducible exact fun _ _ _ k => Tab.sorted_erase k
    | with_reducible exact fun _ _ _ k => Tab.sorted_filter k
    | with_reducible exact fun _ _ _ k => Tab.sorted_filterKV k
    | (with_reducible intro b e q k); (with_reducible refine Tab.sorted_map (fun _ => ?_) k); repeat' first | rfl | split
    | with_reducible assumption
    | with_reducible refine evolves_ite (fun _ => ?_) (fun _ => ?_)
    | with_reducible refine evolves_foldl (fun _ _ _ => ?_) ?_
    | with_reducible refine answersE_next ?_
    | split
theorem execDieFailed_evolves {r : State} (pos : Nat) (ch : Nat) (lostPages : List Nat) (s : State)
    (h : r.Evolves s) : AnswersE r (execDieFailed pos ch lostPages s) := by
  unfold execDieFailed
  try dsimp only
  repeat' first
    | with_reducible exact h
    | with_reducible apply State.dieDown_evolves
    | with_reducible apply State.stripeLost_evolves
    | with_reducible assumption
    | with_reducible refine evolves_ite (fun _ => ?_) (fun _ => ?_)
    | with_reducible refine evolves_foldl (fun _ _ _ => ?_) ?_
    | with_reducible refine answersE_next ?_
    | split
theorem State.retirePosition_evolves {r : State} (pos : Nat) (s : State)
    (h : r.Evolves s) : r.Evolves (State.retirePosition pos s) := by
  unfold State.retirePosition
  try dsimp only
  repeat' first
    | with_reducible exact h
    | with_reducible apply State.retireGroup_evolves
    | with_reducible refine State.evolves_upMedia _ ?_ ?_
    | with_reducible exact fun _ _ _ k => k
    | with_reducible exact fun _ _ _ _ => Tab.sorted_nil
    | with_reducible exact fun _ _ _ k => Tab.sorted_put k
    | with_reducible exact fun _ _ _ k => Tab.sorted_erase k
    | with_reducible exact fun _ _ _ k => Tab.sorted_filter k
    | with_reducible exact fun _ _ _ k => Tab.sorted_filterKV k
    | (with_reducible intro b e q k); (with_reducible refine Tab.sorted_map (fun _ => ?_) k); repeat' first | rfl | split
    | with_reducible assumption
    | with_reducible refine evolves_ite (fun _ => ?_) (fun _ => ?_)
    | with_reducible refine evolves_foldl (fun _ _ _ => ?_) ?_
    | split
theorem State.nextRebuild_evolves {r : State} (s : State)
    (h : r.Evolves s) : r.Evolves (State.nextRebuild s) := by
  unfold State.nextRebuild
  try dsimp only
  repeat' first
    | with_reducible exact h
    | with_reducible apply State.boundEnd_evolves
    | with_reducible apply State.queueMoves_evolves
    | with_reducible refine State.evolves_upMedia _ ?_ ?_
    | with_reducible exact fun _ _ _ k => k
    | with_reducible exact fun _ _ _ _ => Tab.sorted_nil
    | with_reducible exact fun _ _ _ k => Tab.sorted_put k
    | with_reducible exact fun _ _ _ k => Tab.sorted_erase k
    | with_reducible exact fun _ _ _ k => Tab.sorted_filter k
    | with_reducible exact fun _ _ _ k => Tab.sorted_filterKV k
    | (with_reducible intro b e q k); (with_reducible refine Tab.sorted_map (fun _ => ?_) k); repeat' first | rfl | split
    | with_reducible assumption
    | with_reducible refine evolves_ite (fun _ => ?_) (fun _ => ?_)
    | with_reducible refine evolves_foldl (fun _ _ _ => ?_) ?_
    | split
theorem execRebuildPhaseDone_evolves {r : State} (s : State)
    (h : r.Evolves s) : AnswersE r (execRebuildPhaseDone s) := by
  unfold execRebuildPhaseDone
  try dsimp only
  repeat' first
    | with_reducible exact h
    | with_reducible apply State.checkDies_evolves
    | with_reducible apply State.log_evolves
    | with_reducible apply State.nextRebuild_evolves
    | with_reducible apply State.queueMoves_evolves
    | with_reducible apply State.retireGroup_evolves
    | with_reducible apply State.retirePosition_evolves
    | with_reducible apply State.setGroup_evolves
    | with_reducible apply State.settle_evolves
    | with_reducible refine State.evolves_upMedia _ ?_ ?_
    | with_reducible exact fun _ _ _ k => k
    | with_reducible exact fun _ _ _ _ => Tab.sorted_nil
    | with_reducible exact fun _ _ _ k => Tab.sorted_put k
    | with_reducible exact fun _ _ _ k => Tab.sorted_erase k
    | with_reducible exact fun _ _ _ k => Tab.sorted_filter k
    | with_reducible exact fun _ _ _ k => Tab.sorted_filterKV k
    | (with_reducible intro b e q k); (with_reducible refine Tab.sorted_map (fun _ => ?_) k); repeat' first | rfl | split
    | with_reducible assumption
    | with_reducible refine evolves_ite (fun _ => ?_) (fun _ => ?_)
    | with_reducible refine evolves_foldl (fun _ _ _ => ?_) ?_
    | with_reducible refine answersE_next ?_
    | split

end Sys2Proof.Machine
end

