-- ==== Sys2Proof/Laws/EvolvesLaps.lean ====
section
/-!
SUPPORT. How the operations of Machine/Laps.lean let the state evolve.
-/
namespace Sys2Proof.Machine

theorem State.takeGens_evolves {r : State} (n : Nat) (s : State)
    (h : r.Evolves s) : EvolvesP r (State.takeGens n s) := by
  unfold State.takeGens
  try dsimp only
  repeat' first
    | with_reducible exact h
    | with_reducible apply State.save_evolves
    | with_reducible refine State.evolves_upMedia _ ?_ ?_
    | with_reducible exact fun _ _ _ k => k
    | with_reducible exact fun _ _ _ _ => Tab.sorted_nil
    | with_reducible exact fun _ _ _ k => Tab.sorted_put k
    | with_reducible exact fun _ _ _ k => Tab.sorted_erase k
    | with_reducible exact fun _ _ _ k => Tab.sorted_filter k
    | with_reducible exact fun _ _ _ k => Tab.sorted_filterKV k
    | (with_reducible intro b e q k); (with_reducible refine Tab.sorted_map (fun _ => ?_) k); repeat' first | rfl | split
    | with_reducible assumption
    | with_reducible refine evolves_ite (fun _ => ?_) (fun _ => ?_)
    | with_reducible refine evolves_foldl (fun _ _ _ => ?_) ?_
    | with_reducible refine evolvesP_ite ?_ ?_
    | with_reducible refine evolvesP_foldl (fun _ _ _ => ?_) ?_
    | split
    | with_reducible refine EvolvesP.snd ?_
    | with_reducible refine evolvesP_mk ?_
    | with_reducible refine EvolvesP.out (by assumption) ?_
theorem State.beginLap_evolves {r : State} (s : State)
    (h : r.Evolves s) : r.Evolves (State.beginLap s) := by
  unfold State.beginLap
  try dsimp only
  repeat' first
    | with_reducible exact h
    | with_reducible apply State.journal_evolves
    | with_reducible apply State.runLap_evolves
    | with_reducible refine State.evolves_upMap _ ?_
    | with_reducible assumption
    | with_reducible refine evolves_ite (fun _ => ?_) (fun _ => ?_)
    | with_reducible refine evolves_foldl (fun _ _ _ => ?_) ?_
    | split
theorem State.finishLap_evolves {r : State} (s : State)
    (h : r.Evolves s) : r.Evolves (State.finishLap s) := by
  unfold State.finishLap
  try dsimp only
  repeat' first
    | with_reducible exact h
    | with_reducible apply State.goOn_evolves
    | with_reducible apply State.journal_evolves
    | with_reducible apply State.noteLimits_evolves
    | with_reducible apply State.save_evolves
    | with_reducible apply State.settle_evolves
    | with_reducible refine State.evolves_upMap _ ?_
    | with_reducible assumption
    | with_reducible refine evolves_ite (fun _ => ?_) (fun _ => ?_)
    | with_reducible refine evolves_foldl (fun _ _ _ => ?_) ?_
    | split
theorem execLapStart_evolves {r : State} (s : State)
    (h : r.Evolves s) : AnswersE r (execLapStart s) := by
  unfold execLapStart
  try dsimp only
  repeat' first
    | with_reducible exact h
    | with_reducible apply State.beginLap_evolves
    | with_reducible apply State.elapseTo_evolves
    | with_reducible assumption
    | with_reducible refine evolves_ite (fun _ => ?_) (fun _ => ?_)
    | with_reducible refine evolves_foldl (fun _ _ _ => ?_) ?_
    | with_reducible refine answersE_next ?_
    | split
theorem execLapComplete_evolves {r : State} (s : State)
    (h : r.Evolves s) : AnswersE r (execLapComplete s) := by
  unfold execLapComplete
  try dsimp only
  repeat' first
    | with_reducible exact h
    | with_reducible apply State.checkDies_evolves
    | with_reducible apply State.finishLap_evolves
    | with_reducible apply State.runLap_evolves
    | with_reducible apply State.runMoves_evolves
    | with_reducible assumption
    | with_reducible refine evolves_ite (fun _ => ?_) (fun _ => ?_)
    | with_reducible refine evolves_foldl (fun _ _ _ => ?_) ?_
    | with_reducible refine answersE_next ?_
    | split
theorem State.settleClosed_evolves {r : State} (s : State)
    (h : r.Evolves s) : r.Evolves (State.settleClosed s) := by
  unfold State.settleClosed
  try dsimp only
  repeat' first
    | with_reducible exact h
    | with_reducible apply State.settle_evolves
    | with_reducible assumption
    | with_reducible refine evolves_ite (fun _ => ?_) (fun _ => ?_)
    | with_reducible refine evolves_foldl (fun _ _ _ => ?_) ?_
    | split
theorem execMapResident_evolves {r : State} (s : State)
    (h : r.Evolves s) : AnswersE r (execMapResident s) := by
  unfold execMapResident
  try dsimp only
  repeat' first
    | with_reducible exact h
    | with_reducible apply State.askStrain_evolves
    | with_reducible apply State.boundEnd_evolves
    | with_reducible apply State.freeChanged_evolves
    | with_reducible apply State.log_evolves
    | with_reducible apply State.pagedIn_evolves
    | with_reducible apply State.queueMoves_evolves
    | with_reducible apply State.rekeyRun_evolves
    | with_reducible apply State.runMoves_evolves
    | with_reducible apply State.settleClosed_evolves
    | with_reducible refine State.evolves_upCare _ ?_ ?_
    | with_reducible refine State.evolves_upMap _ ?_
    | with_reducible exact fun _ _ _ k => k
    | with_reducible assumption
    | with_reducible refine evolves_ite (fun _ => ?_) (fun _ => ?_)
    | with_reducible refine evolves_foldl (fun _ _ _ => ?_) ?_
    | with_reducible refine answersE_next ?_
    | split

end Sys2Proof.Machine
end

