-- ==== Sys2Proof/Laws/EvolvesCare.lean ====
section
/-!
SUPPORT. How the operations of Machine/Care.lean let the state evolve.
-/
namespace Sys2Proof.Machine

theorem State.noteDeep_evolves {r : State} (g : Nat) (deep : Bool) (s : State)
    (h : r.Evolves s) : r.Evolves (State.noteDeep g deep s) := by
  unfold State.noteDeep
  try dsimp only
  repeat' first
    | with_reducible exact h
    | with_reducible apply State.log_evolves
    | with_reducible assumption
    | with_reducible refine evolves_ite (fun _ => ?_) (fun _ => ?_)
    | with_reducible refine evolves_foldl (fun _ _ _ => ?_) ?_
    | split
theorem execSkimVictimSelect_evolves {r : State} (s : State)
    (h : r.Evolves s) : AnswersE r (execSkimVictimSelect s) := by
  unfold execSkimVictimSelect
  try dsimp only
  repeat' first
    | with_reducible exact h
    | with_reducible apply State.checkBrine_evolves
    | with_reducible apply State.noteDeep_evolves
    | with_reducible apply State.skimLevel_evolves
    | with_reducible apply State.startSet_evolves
    | with_reducible assumption
    | with_reducible refine evolves_ite (fun _ => ?_) (fun _ => ?_)
    | with_reducible refine evolves_foldl (fun _ _ _ => ?_) ?_
    | with_reducible refine answersE_next ?_
    | split
theorem execIdleSkimStart_evolves {r : State} (s : State)
    (h : r.Evolves s) : AnswersE r (execIdleSkimStart s) := by
  unfold execIdleSkimStart
  try dsimp only
  repeat' first
    | with_reducible exact h
    | with_reducible apply State.elapseTo_evolves
    | with_reducible apply State.noteDeep_evolves
    | with_reducible apply State.startSet_evolves
    | with_reducible refine State.evolves_upCare _ ?_ ?_
    | with_reducible exact fun _ _ _ k => k
    | with_reducible assumption
    | with_reducible refine evolves_ite (fun _ => ?_) (fun _ => ?_)
    | with_reducible refine evolves_foldl (fun _ _ _ => ?_) ?_
    | with_reducible refine answersE_next ?_
    | split
theorem State.switchSet_evolves {r : State} (k : CopySet) (s : State)
    (h : r.Evolves s) : r.Evolves (State.switchSet k s) := by
  unfold State.switchSet
  try dsimp only
  repeat' first
    | with_reducible exact h
    | with_reducible apply State.indexLine_evolves
    | with_reducible apply State.journal_evolves
    | with_reducible apply State.mapGrain_evolves
    | with_reducible assumption
    | with_reducible refine evolves_ite (fun _ => ?_) (fun _ => ?_)
    | with_reducible refine evolves_foldl (fun _ _ _ => ?_) ?_
    | split
theorem State.victimDone_evolves {r : State} (k : CopySet) (due : Bool) (s : State)
    (h : r.Evolves s) : r.Evolves (State.victimDone k due s) := by
  unfold State.victimDone
  try dsimp only
  repeat' first
    | with_reducible exact h
    | with_reducible apply State.giveLeave_evolves
    | with_reducible apply State.settle_evolves
    | with_reducible refine State.evolves_upCare _ ?_ ?_
    | with_reducible refine State.evolves_upMedia _ ?_ ?_
    | with_reducible exact fun _ _ _ k => k
    | with_reducible exact fun _ _ _ _ => Tab.sorted_nil
    | with_reducible exact fun _ _ _ k => Tab.sorted_put k
    | with_reducible exact fun _ _ _ k => Tab.sorted_erase k
    | with_reducible exact fun _ _ _ k => Tab.sorted_filter k
    | with_reducible exact fun _ _ _ k => Tab.sorted_filterKV k
    | (with_reducible intro b e q k); (with_reducible refine Tab.sorted_map (fun _ => ?_) k); repeat' first | rfl | split
    | with_reducible assumption
    | with_reducible refine evolves_ite (fun _ => ?_) (fun _ => ?_)
    | with_reducible refine evolves_foldl (fun _ _ _ => ?_) ?_
    | split
theorem execCopySetSwitch_evolves {r : State} (victim : Nat) (bad : Option Nat) (s : State)
    (h : r.Evolves s) : AnswersE r (execCopySetSwitch victim bad s) := by
  unfold execCopySetSwitch
  try dsimp only
  repeat' first
    | with_reducible exact h
    | with_reducible apply State.cancelAbsent_evolves
    | with_reducible apply State.checkBrine_evolves
    | with_reducible apply State.checkDies_evolves
    | with_reducible apply State.columnAbsent_evolves
    | with_reducible apply State.count_evolves
    | with_reducible apply State.noteLimits_evolves
    | with_reducible apply State.redoSet_evolves
    | with_reducible apply State.rekeyDone_evolves
    | with_reducible apply State.retireKeys_evolves
    | with_reducible apply State.startSet_evolves
    | with_reducible apply State.switchSet_evolves
    | with_reducible apply State.victimDone_evolves
    | with_reducible refine State.evolves_upCare _ ?_ ?_
    | with_reducible exact fun _ _ _ k => k
    | with_reducible assumption
    | with_reducible refine evolves_ite (fun _ => ?_) (fun _ => ?_)
    | with_reducible refine evolves_foldl (fun _ _ _ => ?_) ?_
    | with_reducible refine answersE_next ?_
    | split
theorem execRepourStart_evolves {r : State} (s : State)
    (h : r.Evolves s) : AnswersE r (execRepourStart s) := by
  unfold execRepourStart
  try dsimp only
  repeat' first
    | with_reducible exact h
    | with_reducible apply State.noteDeep_evolves
    | with_reducible apply State.startSet_evolves
    | with_reducible assumption
    | with_reducible refine evolves_ite (fun _ => ?_) (fun _ => ?_)
    | with_reducible refine evolves_foldl (fun _ _ _ => ?_) ?_
    | with_reducible refine answersE_next ?_
    | split
theorem execRipeningCellUpdate_evolves {r : State} (pkg : Nat) (cls : Nat) (band : Nat) (s : State)
    (h : r.Evolves s) : AnswersE r (execRipeningCellUpdate pkg cls band s) := by
  unfold execRipeningCellUpdate
  try dsimp only
  repeat' first
    | with_reducible exact h
    | with_reducible apply State.elapseTo_evolves
    | with_reducible apply State.save_evolves
    | with_reducible refine State.evolves_upCare _ ?_ ?_
    | with_reducible exact fun _ _ _ k => k
    | with_reducible assumption
    | with_reducible refine evolves_ite (fun _ => ?_) (fun _ => ?_)
    | with_reducible refine evolves_foldl (fun _ _ _ => ?_) ?_
    | with_reducible refine answersE_next ?_
    | split
theorem State.scrubTo_evolves {r : State} (addr : Nat) (s : State)
    (h : r.Evolves s) : r.Evolves (State.scrubTo addr s) := by
  unfold State.scrubTo
  try dsimp only
  repeat' first
    | with_reducible exact h
    | with_reducible apply State.elapseTo_evolves
    | with_reducible apply State.setVal_evolves
    | with_reducible apply State.tally_evolves
    | with_reducible refine State.evolves_upMbox _ ?_
    | with_reducible assumption
    | with_reducible refine evolves_ite (fun _ => ?_) (fun _ => ?_)
    | with_reducible refine evolves_foldl (fun _ _ _ => ?_) ?_
    | split
theorem State.checkAt_evolves {r : State} (ppa : Nat) (codeword : Nat) (s : State)
    (h : r.Evolves s) : r.Evolves (State.checkAt ppa codeword s) := by
  unfold State.checkAt
  try dsimp only
  repeat' first
    | with_reducible exact h
    | with_reducible apply State.elapseTo_evolves
    | with_reducible apply State.scrubTo_evolves
    | with_reducible refine State.evolves_upCare _ ?_ ?_
    | with_reducible exact fun _ _ _ k => k
    | with_reducible assumption
    | with_reducible refine evolves_ite (fun _ => ?_) (fun _ => ?_)
    | with_reducible refine evolves_foldl (fun _ _ _ => ?_) ?_
    | split
theorem execStrainerLapEnd_evolves {r : State} (s : State)
    (h : r.Evolves s) : AnswersE r (execStrainerLapEnd s) := by
  unfold execStrainerLapEnd
  try dsimp only
  repeat' first
    | with_reducible exact h
    | with_reducible apply State.log_evolves
    | with_reducible refine State.evolves_upCare _ ?_ ?_
    | with_reducible exact fun _ _ _ k => k
    | with_reducible assumption
    | with_reducible refine evolves_ite (fun _ => ?_) (fun _ => ?_)
    | with_reducible refine evolves_foldl (fun _ _ _ => ?_) ?_
    | with_reducible refine answersE_next ?_
    | split
theorem State.sweepDram_evolves {r : State} (errors : List (Nat × CacheFault)) (s : State)
    (h : r.Evolves s) : r.Evolves (State.sweepDram errors s) := by
  unfold State.sweepDram
  try dsimp only
  repeat' first
    | with_reducible exact h
    | with_reducible apply State.checkFault_evolves
    | with_reducible assumption
    | with_reducible refine evolves_ite (fun _ => ?_) (fun _ => ?_)
    | with_reducible refine evolves_foldl (fun _ _ _ => ?_) ?_
    | split
theorem execStrainerDramLapEnd_evolves {r : State} (errors : List (Nat × CacheFault)) (s : State)
    (h : r.Evolves s) : AnswersE r (execStrainerDramLapEnd errors s) := by
  unfold execStrainerDramLapEnd
  try dsimp only
  repeat' first
    | with_reducible exact h
    | with_reducible apply State.elapseTo_evolves
    | with_reducible apply State.sweepDram_evolves
    | with_reducible refine State.evolves_upCare _ ?_ ?_
    | with_reducible exact fun _ _ _ k => k
    | with_reducible assumption
    | with_reducible refine evolves_ite (fun _ => ?_) (fun _ => ?_)
    | with_reducible refine evolves_foldl (fun _ _ _ => ?_) ?_
    | with_reducible refine answersE_next ?_
    | split
theorem State.condemn_evolves {r : State} (ppa : Nat) (s : State)
    (h : r.Evolves s) : r.Evolves (State.condemn ppa s) := by
  unfold State.condemn
  try dsimp only
  repeat' first
    | with_reducible exact h
    | with_reducible apply State.queueMoves_evolves
    | with_reducible apply State.tally_evolves
    | with_reducible assumption
    | with_reducible refine evolves_ite (fun _ => ?_) (fun _ => ?_)
    | with_reducible refine evolves_foldl (fun _ _ _ => ?_) ?_
    | split
theorem State.scrubTally_evolves {r : State} (f : Finding) (s : State)
    (h : r.Evolves s) : r.Evolves (State.scrubTally f s) := by
  unfold State.scrubTally
  try dsimp only
  repeat' first
    | with_reducible exact h
    | with_reducible apply State.tally_evolves
    | with_reducible assumption
    | with_reducible refine evolves_ite (fun _ => ?_) (fun _ => ?_)
    | with_reducible refine evolves_foldl (fun _ _ _ => ?_) ?_
    | split
theorem execStrainerFinding_evolves {r : State} (ppa : Nat) (codeword : Nat) (f : Finding) (s : State)
    (h : r.Evolves s) : AnswersE r (execStrainerFinding ppa codeword f s) := by
  unfold execStrainerFinding
  try dsimp only
  repeat' first
    | with_reducible exact h
    | with_reducible apply State.checkAt_evolves
    | with_reducible apply State.climb_evolves
    | with_reducible apply State.condemn_evolves
    | with_reducible apply State.scrubTally_evolves
    | with_reducible assumption
    | with_reducible refine evolves_ite (fun _ => ?_) (fun _ => ?_)
    | with_reducible refine evolves_foldl (fun _ _ _ => ?_) ?_
    | with_reducible refine answersE_next ?_
    | split
theorem execBrineDropReport_evolves {r : State} (s : State)
    (h : r.Evolves s) : AnswersE r (execBrineDropReport s) := by
  unfold execBrineDropReport
  try dsimp only
  repeat' first
    | with_reducible exact h
    | with_reducible apply State.elapseTo_evolves
    | with_reducible apply State.log_evolves
    | with_reducible refine State.evolves_upCare _ ?_ ?_
    | with_reducible exact fun _ _ _ k => k
    | with_reducible assumption
    | with_reducible refine evolves_ite (fun _ => ?_) (fun _ => ?_)
    | with_reducible refine evolves_foldl (fun _ _ _ => ?_) ?_
    | with_reducible refine answersE_next ?_
    | split

end Sys2Proof.Machine
end

