-- ==== Sys2Proof/Laws/EvolvesDurability.lean ====
section
/-!
SUPPORT. How the operations of Machine/Durability.lean let the state evolve.
-/
namespace Sys2Proof.Machine

theorem State.armCheck_evolves {r : State} (s : State)
    (h : r.Evolves s) : r.Evolves (State.armCheck s) := by
  unfold State.armCheck
  try dsimp only
  repeat' first
    | with_reducible exact h
    | with_reducible apply State.log_evolves
    | with_reducible refine State.evolves_upPwr _ ?_ ?_
    | with_reducible exact fun _ _ _ k => k
    | (with_reducible intro b e q k); dsimp only at k ⊢; first | omega | (have ha := State.armCode_le s; omega) | ((with_reducible refine ⟨?_, k.2⟩); (repeat' first | (with_reducible refine Nat.le_trans (State.armCode_le _) ?_); decide | omega | split); done) | (have hm' := hm q; omega) | exact ⟨Nat.le_trans (State.armCode_le _) (by decide), k.2⟩ | (have ha := State.armCode_le _; constructor <;> repeat' first | omega | split)
    | with_reducible assumption
    | with_reducible refine evolves_ite (fun _ => ?_) (fun _ => ?_)
    | with_reducible refine evolves_foldl (fun _ _ _ => ?_) ?_
    | split
theorem State.rederive_evolves {r : State} (s : State)
    (h : r.Evolves s) : r.Evolves (State.rederive s) := by
  unfold State.rederive
  try dsimp only
  repeat' first
    | with_reducible exact h
    | with_reducible apply State.armCheck_evolves
    | with_reducible apply State.log_evolves
    | with_reducible refine State.evolves_upBudget _ ?_ ?_
    | with_reducible exact fun _ _ _ k => k
    | with_reducible exact fun _ _ _ _ => Tab.sorted_nil
    | with_reducible exact fun _ _ _ k => Tab.sorted_put k
    | with_reducible exact fun _ _ _ k => Tab.sorted_erase k
    | with_reducible exact fun _ _ _ k => Tab.sorted_filter k
    | with_reducible exact fun _ _ _ k => Tab.sorted_filterKV k
    | (with_reducible intro b e q k); (with_reducible refine Tab.sorted_map (fun _ => ?_) k); repeat' first | rfl | split
    | with_reducible assumption
    | with_reducible refine evolves_ite (fun _ => ?_) (fun _ => ?_)
    | with_reducible refine evolves_foldl (fun _ _ _ => ?_) ?_
    | split
theorem State.bankFault_evolves {r : State} (why : Nat) (s : State)
    (h : r.Evolves s) : r.Evolves (State.bankFault why s) := by
  unfold State.bankFault
  try dsimp only
  repeat' first
    | with_reducible exact h
    | with_reducible apply State.log_evolves
    | with_reducible apply State.rederive_evolves
    | with_reducible apply State.save_evolves
    | with_reducible refine State.evolves_upBank _ ?_
    | with_reducible refine State.evolves_upBudget _ ?_ ?_
    | with_reducible exact fun _ _ _ k => k
    | with_reducible exact fun _ _ _ _ => Tab.sorted_nil
    | with_reducible exact fun _ _ _ k => Tab.sorted_put k
    | with_reducible exact fun _ _ _ k => Tab.sorted_erase k
    | with_reducible exact fun _ _ _ k => Tab.sorted_filter k
    | with_reducible exact fun _ _ _ k => Tab.sorted_filterKV k
    | (with_reducible intro b e q k); (with_reducible refine Tab.sorted_map (fun _ => ?_) k); repeat' first | rfl | split
    | with_reducible assumption
    | with_reducible refine evolves_ite (fun _ => ?_) (fun _ => ?_)
    | with_reducible refine evolves_foldl (fun _ _ _ => ?_) ?_
    | split
theorem State.closePeriod_evolves {r : State} (shortened : Bool) (s : State)
    (h : r.Evolves s) : r.Evolves (State.closePeriod shortened s) := by
  unfold State.closePeriod
  try dsimp only
  repeat' first
    | with_reducible exact h
    | with_reducible apply State.count_evolves
    | with_reducible refine State.evolves_upFirkin _ ?_
    | with_reducible assumption
    | with_reducible refine evolves_ite (fun _ => ?_) (fun _ => ?_)
    | with_reducible refine evolves_foldl (fun _ _ _ => ?_) ?_
    | split
theorem State.stopFirkin_evolves {r : State} (s : State)
    (h : r.Evolves s) : r.Evolves (State.stopFirkin s) := by
  unfold State.stopFirkin
  try dsimp only
  repeat' first
    | with_reducible exact h
    | with_reducible apply State.closePeriod_evolves
    | with_reducible refine State.evolves_upFirkin _ ?_
    | with_reducible assumption
    | with_reducible refine evolves_ite (fun _ => ?_) (fun _ => ?_)
    | with_reducible refine evolves_foldl (fun _ _ _ => ?_) ?_
    | split
theorem State.startFirkin_evolves {r : State} (s : State)
    (h : r.Evolves s) : r.Evolves (State.startFirkin s) := by
  unfold State.startFirkin
  try dsimp only
  repeat' first
    | with_reducible exact h
    | with_reducible refine State.evolves_upFirkin _ ?_
    | with_reducible assumption
    | with_reducible refine evolves_ite (fun _ => ?_) (fun _ => ?_)
    | with_reducible refine evolves_foldl (fun _ _ _ => ?_) ?_
    | split
theorem State.fastOff_evolves {r : State} (s : State)
    (h : r.Evolves s) : r.Evolves (State.fastOff s) := by
  unfold State.fastOff
  try dsimp only
  repeat' first
    | with_reducible exact h
    | with_reducible apply State.clearVolatile_evolves
    | with_reducible apply State.fromCkpt_evolves
    | with_reducible refine State.evolves_upAtom _ ?_
    | with_reducible refine State.evolves_upBank _ ?_
    | with_reducible refine State.evolves_upBudget _ ?_ ?_
    | with_reducible refine State.evolves_upCare _ ?_ ?_
    | with_reducible refine State.evolves_upCmds _ ?_
    | with_reducible refine State.evolves_upDict _ ?_
    | with_reducible refine State.evolves_upDram _ ?_
    | with_reducible refine State.evolves_upFc _ ?_ ?_
    | with_reducible refine State.evolves_upGills _ ?_
    | with_reducible refine State.evolves_upMap _ ?_
    | with_reducible refine State.evolves_upMbox _ ?_
    | with_reducible refine State.evolves_upMedia _ ?_ ?_
    | with_reducible refine State.evolves_upObs _ ?_ ?_
    | with_reducible refine State.evolves_upPort _ ?_
    | with_reducible refine State.evolves_upReg _ ?_
    | with_reducible refine State.evolves_upReqs _ ?_
    | with_reducible refine State.evolves_upRstats _ ?_
    | with_reducible refine State.evolves_upSlices _ ?_
    | with_reducible refine State.evolves_upTap _ ?_
    | with_reducible refine State.evolves_upTherm _ ?_
    | with_reducible refine State.evolves_upTier _ ?_ ?_
    | with_reducible refine State.evolves_upYoke _ ?_ ?_
    | with_reducible exact fun _ _ _ k => k
    | with_reducible exact fun _ _ _ _ => Tab.sorted_nil
    | with_reducible exact fun _ _ _ k => Tab.sorted_put k
    | with_reducible exact fun _ _ _ k => Tab.sorted_erase k
    | with_reducible exact fun _ _ _ k => Tab.sorted_filter k
    | with_reducible exact fun _ _ _ k => Tab.sorted_filterKV k
    | (with_reducible intro b e q k); (with_reducible refine Tab.sorted_map (fun _ => ?_) k); repeat' first | rfl | split
    | (with_reducible intro b e q k); dsimp only at k ⊢; first | omega | (have ha := State.armCode_le s; omega) | ((with_reducible refine ⟨?_, k.2⟩); (repeat' first | (with_reducible refine Nat.le_trans (State.armCode_le _) ?_); decide | omega | split); done) | (have hm' := hm q; omega) | exact ⟨Nat.le_trans (State.armCode_le _) (by decide), k.2⟩ | (have ha := State.armCode_le _; constructor <;> repeat' first | omega | split)
    | (with_reducible intro b e q k); subst e; (refine ⟨?_, ?_, ?_⟩ <;> first | with_reducible exact k.1 | with_reducible exact k.2.1 | with_reducible exact k.2.2 | exact Nat.zero_le _ | (simp only [List.length_append, List.length_cons, List.length_nil, List.length_drop]; omega) | exact logs_put k.2.2 (logs_get k.2.2 _) | (refine logs_put k.2.2 ?_; simp only [List.length_append, List.length_cons, List.length_nil]; omega) | exact fun _ m => by cases m)
    | (with_reducible intro b e q k); unfold Yoke.dropWork; with_reducible exact k
    | with_reducible assumption
    | with_reducible refine evolves_ite (fun _ => ?_) (fun _ => ?_)
    | with_reducible refine evolves_foldl (fun _ _ _ => ?_) ?_
    | split
theorem State.keeperOff_evolves {r : State} (s : State)
    (h : r.Evolves s) : r.Evolves (State.keeperOff s) := by
  unfold State.keeperOff
  try dsimp only
  repeat' first
    | with_reducible exact h
    | with_reducible refine State.evolves_upClk _ ?_ ?_
    | with_reducible refine State.evolves_upDict _ ?_
    | with_reducible exact fun _ _ _ k => k
    | with_reducible exact Nat.le_refl _
    | with_reducible assumption
    | with_reducible refine evolves_ite (fun _ => ?_) (fun _ => ?_)
    | with_reducible refine evolves_foldl (fun _ _ _ => ?_) ?_
    | split
theorem State.keeperStart_evolves {r : State} (s : State)
    (h : r.Evolves s) : r.Evolves (State.keeperStart s) := by
  unfold State.keeperStart
  try dsimp only
  repeat' first
    | with_reducible exact h
    | with_reducible refine State.evolves_upClk _ ?_ ?_
    | with_reducible exact fun _ _ _ k => k
    | with_reducible exact Nat.le_refl _
    | with_reducible assumption
    | with_reducible refine evolves_ite (fun _ => ?_) (fun _ => ?_)
    | with_reducible refine evolves_foldl (fun _ _ _ => ?_) ?_
    | split
theorem State.beginVerify_evolves {r : State} (s : State)
    (h : r.Evolves s) : r.Evolves (State.beginVerify s) := by
  unfold State.beginVerify
  try dsimp only
  repeat' first
    | with_reducible exact h
    | with_reducible refine State.evolves_upFw _ ?_
    | with_reducible refine State.evolves_upPwr _ ?_ ?_
    | with_reducible exact fun _ _ _ k => k
    | with_reducible assumption
    | with_reducible refine evolves_ite (fun _ => ?_) (fun _ => ?_)
    | with_reducible refine evolves_foldl (fun _ _ _ => ?_) ?_
    | split
theorem State.coldReset_evolves {r : State} (s : State)
    (h : r.Evolves s) : r.Evolves (State.coldReset s) := by
  unfold State.coldReset
  try dsimp only
  repeat' first
    | with_reducible exact h
    | with_reducible apply State.beginVerify_evolves
    | with_reducible apply State.fastOff_evolves
    | with_reducible refine State.evolves_upKeys _ ?_
    | with_reducible refine State.evolves_upPwr _ ?_ ?_
    | with_reducible exact fun _ _ _ k => k
    | (with_reducible intro b e q k); dsimp only at k ⊢; first | omega | (have ha := State.armCode_le s; omega) | ((with_reducible refine ⟨?_, k.2⟩); (repeat' first | (with_reducible refine Nat.le_trans (State.armCode_le _) ?_); decide | omega | split); done) | (have hm' := hm q; omega) | exact ⟨Nat.le_trans (State.armCode_le _) (by decide), k.2⟩ | (have ha := State.armCode_le _; constructor <;> repeat' first | omega | split)
    | with_reducible assumption
    | with_reducible refine evolves_ite (fun _ => ?_) (fun _ => ?_)
    | with_reducible refine evolves_foldl (fun _ _ _ => ?_) ?_
    | split
theorem State.trainDram_evolves {r : State} (bad : BitVec 8) (s : State)
    (h : r.Evolves s) : r.Evolves (State.trainDram bad s) := by
  unfold State.trainDram
  try dsimp only
  repeat' first
    | with_reducible exact h
    | with_reducible apply State.log_evolves
    | with_reducible apply State.save_evolves
    | with_reducible refine State.evolves_upDram _ ?_
    | with_reducible refine State.evolves_upPwr _ ?_ ?_
    | with_reducible exact fun _ _ _ k => k
    | with_reducible assumption
    | with_reducible refine evolves_ite (fun _ => ?_) (fun _ => ?_)
    | with_reducible refine evolves_foldl (fun _ _ _ => ?_) ?_
    | split
theorem State.applyPowerUp_evolves {r : State} (s : State)
    (h : r.Evolves s) : r.Evolves (State.applyPowerUp s) := by
  unfold State.applyPowerUp
  try dsimp only
  repeat' first
    | with_reducible exact h
    | with_reducible refine State.evolves_upDict _ ?_
    | with_reducible assumption
    | with_reducible refine evolves_ite (fun _ => ?_) (fun _ => ?_)
    | with_reducible refine evolves_foldl (fun _ _ _ => ?_) ?_
    | split
theorem State.replayCommit_evolves {r : State} (s : State)
    (h : r.Evolves s) : r.Evolves (State.replayCommit s) := by
  unfold State.replayCommit
  try dsimp only
  repeat' first
    | with_reducible exact h
    | with_reducible apply State.log_evolves
    | with_reducible refine State.evolves_upDict _ ?_
    | with_reducible assumption
    | with_reducible refine evolves_ite (fun _ => ?_) (fun _ => ?_)
    | with_reducible refine evolves_foldl (fun _ _ _ => ?_) ?_
    | split
theorem State.restoreMap_evolves {r : State} (s : State)
    (h : r.Evolves s) : r.Evolves (State.restoreMap s) := by
  unfold State.restoreMap
  try dsimp only
  repeat' first
    | with_reducible exact h
    | with_reducible apply State.boundStart_evolves
    | with_reducible apply State.closeOpen_evolves
    | with_reducible apply State.fromCkpt_evolves
    | with_reducible apply State.mapCold_evolves
    | with_reducible apply State.rebuildMap_evolves
    | with_reducible apply State.replayJournal_evolves
    | with_reducible refine State.evolves_upMap _ ?_
    | with_reducible refine State.evolves_upPwr _ ?_ ?_
    | with_reducible exact fun _ _ _ k => k
    | with_reducible assumption
    | with_reducible refine evolves_ite (fun _ => ?_) (fun _ => ?_)
    | with_reducible refine evolves_foldl (fun _ _ _ => ?_) ?_
    | split
theorem State.noteIncomplete_evolves {r : State} (i : Option Image) (s : State)
    (h : r.Evolves s) : r.Evolves (State.noteIncomplete i s) := by
  unfold State.noteIncomplete
  try dsimp only
  repeat' first
    | with_reducible exact h
    | with_reducible apply State.damaged_evolves
    | with_reducible apply State.markAll_evolves
    | with_reducible refine State.evolves_upBudget _ ?_ ?_
    | with_reducible refine State.evolves_upDump _ ?_
    | with_reducible refine State.evolves_upPwr _ ?_ ?_
    | with_reducible exact fun _ _ _ k => k
    | with_reducible exact fun _ _ _ _ => Tab.sorted_nil
    | with_reducible exact fun _ _ _ k => Tab.sorted_put k
    | with_reducible exact fun _ _ _ k => Tab.sorted_erase k
    | with_reducible exact fun _ _ _ k => Tab.sorted_filter k
    | with_reducible exact fun _ _ _ k => Tab.sorted_filterKV k
    | (with_reducible intro b e q k); (with_reducible refine Tab.sorted_map (fun _ => ?_) k); repeat' first | rfl | split
    | with_reducible assumption
    | with_reducible refine evolves_ite (fun _ => ?_) (fun _ => ?_)
    | with_reducible refine evolves_foldl (fun _ _ _ => ?_) ?_
    | split
theorem State.restoreImage_evolves {r : State} (s : State)
    (h : r.Evolves s) : r.Evolves (State.restoreImage s) := by
  unfold State.restoreImage
  try dsimp only
  repeat' first
    | with_reducible exact h
    | with_reducible apply State.noteIncomplete_evolves
    | with_reducible apply State.restoreMap_evolves
    | with_reducible refine State.evolves_upBudget _ ?_ ?_
    | with_reducible refine State.evolves_upPwr _ ?_ ?_
    | with_reducible exact fun _ _ _ k => k
    | with_reducible exact fun _ _ _ _ => Tab.sorted_nil
    | with_reducible exact fun _ _ _ k => Tab.sorted_put k
    | with_reducible exact fun _ _ _ k => Tab.sorted_erase k
    | with_reducible exact fun _ _ _ k => Tab.sorted_filter k
    | with_reducible exact fun _ _ _ k => Tab.sorted_filterKV k
    | (with_reducible intro b e q k); (with_reducible refine Tab.sorted_map (fun _ => ?_) k); repeat' first | rfl | split
    | (with_reducible intro b e q k); dsimp only at k ⊢; first | omega | (have ha := State.armCode_le s; omega) | ((with_reducible refine ⟨?_, k.2⟩); (repeat' first | (with_reducible refine Nat.le_trans (State.armCode_le _) ?_); decide | omega | split); done) | (have hm' := hm q; omega) | exact ⟨Nat.le_trans (State.armCode_le _) (by decide), k.2⟩ | (have ha := State.armCode_le _; constructor <;> repeat' first | omega | split)
    | with_reducible assumption
    | with_reducible refine evolves_ite (fun _ => ?_) (fun _ => ?_)
    | with_reducible refine evolves_foldl (fun _ _ _ => ?_) ?_
    | split
theorem State.readImages_evolves {r : State} (bad : List (Nat × Nat)) (s : State)
    (h : r.Evolves s) : r.Evolves (State.readImages bad s) := by
  unfold State.readImages
  try dsimp only
  repeat' first
    | with_reducible exact h
    | with_reducible refine State.evolves_upDump _ ?_
    | with_reducible assumption
    | with_reducible refine evolves_ite (fun _ => ?_) (fun _ => ?_)
    | with_reducible refine evolves_foldl (fun _ _ _ => ?_) ?_
    | split
theorem State.startFast_evolves {r : State} (slot : Nat) (trainFail : BitVec 8) (badPages : List (Nat × Nat)) (s : State)
    (h : r.Evolves s) : r.Evolves (State.startFast slot trainFail badPages s) := by
  unfold State.startFast
  try dsimp only
  repeat' first
    | with_reducible exact h
    | with_reducible apply State.applyPowerUp_evolves
    | with_reducible apply State.boundStart_evolves
    | with_reducible apply State.measure_evolves
    | with_reducible apply State.readImages_evolves
    | with_reducible apply State.replayCommit_evolves
    | with_reducible apply State.restartMember_evolves
    | with_reducible apply State.restoreImage_evolves
    | with_reducible apply State.resumeGen_evolves
    | with_reducible apply State.startFirkin_evolves
    | with_reducible apply State.startGills_evolves
    | with_reducible apply State.startPail_evolves
    | with_reducible apply State.trainDram_evolves
    | with_reducible refine State.evolves_upFc _ ?_ ?_
    | with_reducible refine State.evolves_upFw _ ?_
    | with_reducible refine State.evolves_upKeys _ ?_
    | with_reducible refine State.evolves_upPwr _ ?_ ?_
    | with_reducible exact fun _ _ _ k => k
    | with_reducible exact fun _ _ _ _ => Tab.sorted_nil
    | with_reducible exact fun _ _ _ k => Tab.sorted_put k
    | with_reducible exact fun _ _ _ k => Tab.sorted_erase k
    | with_reducible exact fun _ _ _ k => Tab.sorted_filter k
    | with_reducible exact fun _ _ _ k => Tab.sorted_filterKV k
    | (with_reducible intro b e q k); (with_reducible refine Tab.sorted_map (fun _ => ?_) k); repeat' first | rfl | split
    | with_reducible assumption
    | with_reducible refine evolves_ite (fun _ => ?_) (fun _ => ?_)
    | with_reducible refine evolves_foldl (fun _ _ _ => ?_) ?_
    | split
theorem State.stopForDump_evolves {r : State} (s : State)
    (h : r.Evolves s) : r.Evolves (State.stopForDump s) := by
  unfold State.stopForDump
  try dsimp only
  repeat' first
    | with_reducible exact h
    | with_reducible apply State.abandonPrograms_evolves
    | with_reducible apply State.clearAtomics_evolves
    | with_reducible apply State.dropMisses_evolves
    | with_reducible apply State.dropRequests_evolves
    | with_reducible apply State.linkDown_evolves
    | with_reducible apply State.standDown_evolves
    | with_reducible refine State.evolves_upPwr _ ?_ ?_
    | with_reducible refine State.evolves_upYoke _ ?_ ?_
    | with_reducible exact fun _ _ _ k => k
    | with_reducible assumption
    | with_reducible refine evolves_ite (fun _ => ?_) (fun _ => ?_)
    | with_reducible refine evolves_foldl (fun _ _ _ => ?_) ?_
    | split
theorem State.startDump_evolves {r : State} (onMain : Bool) (s : State)
    (h : r.Evolves s) : r.Evolves (State.startDump onMain s) := by
  unfold State.startDump
  try dsimp only
  repeat' first
    | with_reducible exact h
    | with_reducible apply State.stopForDump_evolves
    | with_reducible refine State.evolves_upBudget _ ?_ ?_
    | with_reducible refine State.evolves_upDump _ ?_
    | with_reducible refine State.evolves_upPwr _ ?_ ?_
    | with_reducible exact fun _ _ _ k => k
    | with_reducible exact fun _ _ _ _ => Tab.sorted_nil
    | with_reducible exact fun _ _ _ k => Tab.sorted_put k
    | with_reducible exact fun _ _ _ k => Tab.sorted_erase k
    | with_reducible exact fun _ _ _ k => Tab.sorted_filter k
    | with_reducible exact fun _ _ _ k => Tab.sorted_filterKV k
    | (with_reducible intro b e q k); (with_reducible refine Tab.sorted_map (fun _ => ?_) k); repeat' first | rfl | split
    | (with_reducible intro b e q k); dsimp only at k ⊢; first | omega | (have ha := State.armCode_le s; omega) | ((with_reducible refine ⟨?_, k.2⟩); (repeat' first | (with_reducible refine Nat.le_trans (State.armCode_le _) ?_); decide | omega | split); done) | (have hm' := hm q; omega) | exact ⟨Nat.le_trans (State.armCode_le _) (by decide), k.2⟩ | (have ha := State.armCode_le _; constructor <;> repeat' first | omega | split)
    | with_reducible assumption
    | with_reducible refine evolves_ite (fun _ => ?_) (fun _ => ?_)
    | with_reducible refine evolves_foldl (fun _ _ _ => ?_) ?_
    | split
theorem State.cleanStop_evolves {r : State} (s : State)
    (h : r.Evolves s) : r.Evolves (State.cleanStop s) := by
  unfold State.cleanStop
  try dsimp only
  repeat' first
    | with_reducible exact h
    | with_reducible apply State.fastOff_evolves
    | with_reducible apply State.stopFirkin_evolves
    | with_reducible apply State.stopForDump_evolves
    | with_reducible refine State.evolves_upPwr _ ?_ ?_
    | with_reducible exact fun _ _ _ k => k
    | (with_reducible intro b e q k); dsimp only at k ⊢; first | omega | (have ha := State.armCode_le s; omega) | ((with_reducible refine ⟨?_, k.2⟩); (repeat' first | (with_reducible refine Nat.le_trans (State.armCode_le _) ?_); decide | omega | split); done) | (have hm' := hm q; omega) | exact ⟨Nat.le_trans (State.armCode_le _) (by decide), k.2⟩ | (have ha := State.armCode_le _; constructor <;> repeat' first | omega | split)
    | with_reducible assumption
    | with_reducible refine evolves_ite (fun _ => ?_) (fun _ => ?_)
    | with_reducible refine evolves_foldl (fun _ _ _ => ?_) ?_
    | split
theorem State.testEnd_evolves {r : State} (s : State)
    (h : r.Evolves s) : r.Evolves (State.testEnd s) := by
  unfold State.testEnd
  try dsimp only
  repeat' first
    | with_reducible exact h
    | with_reducible apply State.fastOff_evolves
    | with_reducible apply State.startFast_evolves
    | with_reducible apply State.stopFirkin_evolves
    | with_reducible apply State.stopForDump_evolves
    | with_reducible refine State.evolves_upKeys _ ?_
    | with_reducible refine State.evolves_upPwr _ ?_ ?_
    | with_reducible exact fun _ _ _ k => k
    | (with_reducible intro b e q k); dsimp only at k ⊢; first | omega | (have ha := State.armCode_le s; omega) | ((with_reducible refine ⟨?_, k.2⟩); (repeat' first | (with_reducible refine Nat.le_trans (State.armCode_le _) ?_); decide | omega | split); done) | (have hm' := hm q; omega) | exact ⟨Nat.le_trans (State.armCode_le _) (by decide), k.2⟩ | (have ha := State.armCode_le _; constructor <;> repeat' first | omega | split)
    | with_reducible assumption
    | with_reducible refine evolves_ite (fun _ => ?_) (fun _ => ?_)
    | with_reducible refine evolves_foldl (fun _ _ _ => ?_) ?_
    | split
theorem State.losePower_evolves {r : State} (s : State)
    (h : r.Evolves s) : r.Evolves (State.losePower s) := by
  unfold State.losePower
  try dsimp only
  repeat' first
    | with_reducible exact h
    | with_reducible apply State.cleanStop_evolves
    | with_reducible apply State.keeperOff_evolves
    | with_reducible apply State.startDump_evolves
    | with_reducible refine State.evolves_upDump _ ?_
    | with_reducible refine State.evolves_upPwr _ ?_ ?_
    | with_reducible exact fun _ _ _ k => k
    | with_reducible assumption
    | with_reducible refine evolves_ite (fun _ => ?_) (fun _ => ?_)
    | with_reducible refine evolves_foldl (fun _ _ _ => ?_) ?_
    | split
theorem State.storeImage_evolves {r : State} (i : Image) (s : State)
    (h : r.Evolves s) : r.Evolves (State.storeImage i s) := by
  unfold State.storeImage
  try dsimp only
  repeat' first
    | with_reducible exact h
    | with_reducible refine State.evolves_upDump _ ?_
    | with_reducible assumption
    | with_reducible refine evolves_ite (fun _ => ?_) (fun _ => ?_)
    | with_reducible refine evolves_foldl (fun _ _ _ => ?_) ?_
    | split
theorem State.afterDump_evolves {r : State} (s : State)
    (h : r.Evolves s) : r.Evolves (State.afterDump s) := by
  unfold State.afterDump
  try dsimp only
  repeat' first
    | with_reducible exact h
    | with_reducible apply State.coldReset_evolves
    | with_reducible apply State.fastOff_evolves
    | with_reducible refine State.evolves_upPwr _ ?_ ?_
    | with_reducible exact fun _ _ _ k => k
    | (with_reducible intro b e q k); dsimp only at k ⊢; first | omega | (have ha := State.armCode_le s; omega) | ((with_reducible refine ⟨?_, k.2⟩); (repeat' first | (with_reducible refine Nat.le_trans (State.armCode_le _) ?_); decide | omega | split); done) | (have hm' := hm q; omega) | exact ⟨Nat.le_trans (State.armCode_le _) (by decide), k.2⟩ | (have ha := State.armCode_le _; constructor <;> repeat' first | omega | split)
    | with_reducible assumption
    | with_reducible refine evolves_ite (fun _ => ?_) (fun _ => ?_)
    | with_reducible refine evolves_foldl (fun _ _ _ => ?_) ?_
    | split

end Sys2Proof.Machine
end

