-- ==== Sys2Proof/Laws/EvolvesPowerReset.lean ====
section
/-!
SUPPORT. How the operations of Machine/PowerReset.lean let the state evolve.
-/
namespace Sys2Proof.Machine

theorem State.dropCounter_evolves {r : State} (k : Nat) (s : State)
    (h : r.Evolves s) : r.Evolves (State.dropCounter k s) := by
  unfold State.dropCounter
  try dsimp only
  repeat' first
    | with_reducible exact h
    | with_reducible refine State.evolves_upBudget _ ?_ ?_
    | with_reducible refine State.evolves_upCare _ ?_ ?_
    | with_reducible refine State.evolves_upDump _ ?_
    | with_reducible refine State.evolves_upKeys _ ?_
    | with_reducible exact fun _ _ _ k => k
    | with_reducible exact fun _ _ _ _ => Tab.sorted_nil
    | with_reducible exact fun _ _ _ k => Tab.sorted_put k
    | with_reducible exact fun _ _ _ k => Tab.sorted_erase k
    | with_reducible exact fun _ _ _ k => Tab.sorted_filter k
    | with_reducible exact fun _ _ _ k => Tab.sorted_filterKV k
    | (with_reducible intro b e q k); (with_reducible refine Tab.sorted_map (fun _ => ?_) k); repeat' first | rfl | split
    | with_reducible assumption
    | with_reducible refine evolves_ite (fun _ => ?_) (fun _ => ?_)
    | with_reducible refine evolves_foldl (fun _ _ _ => ?_) ?_
    | split
theorem State.rebuildFirkin_evolves {r : State} (s : State)
    (h : r.Evolves s) : r.Evolves (State.rebuildFirkin s) := by
  unfold State.rebuildFirkin
  try dsimp only
  repeat' first
    | with_reducible exact h
    | with_reducible refine State.evolves_upFirkin _ ?_
    | with_reducible assumption
    | with_reducible refine evolves_ite (fun _ => ?_) (fun _ => ?_)
    | with_reducible refine evolves_foldl (fun _ _ _ => ?_) ?_
    | split
theorem State.fallback_evolves {r : State} (l : TwinLoss) (s : State)
    (h : r.Evolves s) : r.Evolves (State.fallback l s) := by
  unfold State.fallback
  try dsimp only
  repeat' first
    | with_reducible exact h
    | with_reducible apply State.dropCounter_evolves
    | with_reducible refine State.evolves_upCare _ ?_ ?_
    | with_reducible refine State.evolves_upDict _ ?_
    | with_reducible refine State.evolves_upFirkin _ ?_
    | with_reducible refine State.evolves_upFw _ ?_
    | with_reducible refine State.evolves_upKeys _ ?_
    | with_reducible refine State.evolves_upMedia _ ?_ ?_
    | with_reducible refine State.evolves_upPwr _ ?_ ?_
    | with_reducible refine State.evolves_upTabs _ ?_
    | with_reducible refine State.evolves_upYoke _ ?_ ?_
    | with_reducible exact fun _ _ _ k => k
    | with_reducible exact fun _ _ _ _ => Tab.sorted_nil
    | with_reducible exact fun _ _ _ k => Tab.sorted_put k
    | with_reducible exact fun _ _ _ k => Tab.sorted_erase k
    | with_reducible exact fun _ _ _ k => Tab.sorted_filter k
    | with_reducible exact fun _ _ _ k => Tab.sorted_filterKV k
    | (with_reducible intro b e q k); (with_reducible refine Tab.sorted_map (fun _ => ?_) k); repeat' first | rfl | split
    | with_reducible assumption
    | with_reducible refine evolves_ite (fun _ => ?_) (fun _ => ?_)
    | with_reducible refine evolves_foldl (fun _ _ _ => ?_) ?_
    | split
theorem State.loseTwin_evolves {r : State} (l : TwinLoss) (s : State)
    (h : r.Evolves s) : r.Evolves (State.loseTwin l s) := by
  unfold State.loseTwin
  try dsimp only
  repeat' first
    | with_reducible exact h
    | with_reducible apply State.count_evolves
    | with_reducible apply State.fallback_evolves
    | with_reducible apply State.log_evolves
    | with_reducible apply State.rebuildFirkin_evolves
    | with_reducible assumption
    | with_reducible refine evolves_ite (fun _ => ?_) (fun _ => ?_)
    | with_reducible refine evolves_foldl (fun _ _ _ => ?_) ?_
    | split
theorem State.noteMain_evolves {r : State} (had : Bool) (s : State)
    (h : r.Evolves s) : r.Evolves (State.noteMain had s) := by
  unfold State.noteMain
  try dsimp only
  repeat' first
    | with_reducible exact h
    | with_reducible refine State.evolves_upPwr _ ?_ ?_
    | with_reducible exact fun _ _ _ k => k
    | with_reducible assumption
    | with_reducible refine evolves_ite (fun _ => ?_) (fun _ => ?_)
    | with_reducible refine evolves_foldl (fun _ _ _ => ?_) ?_
    | split
theorem execPowerUp_evolves {r : State} (main : Bool) (aux : Bool) (lost : List TwinLoss) (s : State)
    (h : r.Evolves s) : AnswersE r (execPowerUp main aux lost s) := by
  unfold execPowerUp
  try dsimp only
  repeat' first
    | with_reducible exact h
    | with_reducible apply State.coldReset_evolves
    | with_reducible apply State.keeperStart_evolves
    | with_reducible apply State.loseTwin_evolves
    | with_reducible apply State.noteMain_evolves
    | with_reducible refine State.evolves_upPwr _ ?_ ?_
    | with_reducible exact fun _ _ _ k => k
    | with_reducible assumption
    | with_reducible refine evolves_ite (fun _ => ?_) (fun _ => ?_)
    | with_reducible refine evolves_foldl (fun _ _ _ => ?_) ?_
    | with_reducible refine answersE_next ?_
    | split
theorem execFirmwareVerifyDone_evolves {r : State} (v : FwVerdict) (trainFail : BitVec 8) (badPages : List (Nat × Nat)) (s : State)
    (h : r.Evolves s) : AnswersE r (execFirmwareVerifyDone v trainFail badPages s) := by
  unfold execFirmwareVerifyDone
  try dsimp only
  repeat' first
    | with_reducible exact h
    | with_reducible apply State.log_evolves
    | with_reducible apply State.startFast_evolves
    | with_reducible refine State.evolves_upPwr _ ?_ ?_
    | with_reducible exact fun _ _ _ k => k
    | with_reducible assumption
    | with_reducible refine evolves_ite (fun _ => ?_) (fun _ => ?_)
    | with_reducible refine evolves_foldl (fun _ _ _ => ?_) ?_
    | with_reducible refine answersE_next ?_
    | split
theorem State.placeRec_evolves {r : State} (bad : List Nat) (line : Nat) (x2 : DRec) (s : State)
    (h : r.Evolves s) : r.Evolves (State.placeRec bad line x2 s) := by
  unfold State.placeRec
  try dsimp only
  repeat' first
    | with_reducible exact h
    | with_reducible apply State.fcAlloc_evolves
    | with_reducible apply State.log_evolves
    | with_reducible apply State.poison_evolves
    | with_reducible apply State.startBase_evolves
    | with_reducible apply State.tierWrite_evolves
    | with_reducible refine State.evolves_upBudget _ ?_ ?_
    | with_reducible exact fun _ _ _ k => k
    | with_reducible exact fun _ _ _ _ => Tab.sorted_nil
    | with_reducible exact fun _ _ _ k => Tab.sorted_put k
    | with_reducible exact fun _ _ _ k => Tab.sorted_erase k
    | with_reducible exact fun _ _ _ k => Tab.sorted_filter k
    | with_reducible exact fun _ _ _ k => Tab.sorted_filterKV k
    | (with_reducible intro b e q k); (with_reducible refine Tab.sorted_map (fun _ => ?_) k); repeat' first | rfl | split
    | with_reducible assumption
    | with_reducible refine evolves_ite (fun _ => ?_) (fun _ => ?_)
    | with_reducible refine evolves_foldl (fun _ _ _ => ?_) ?_
    | with_reducible exact evolvesO_get (by assumption)
    | with_reducible refine evolvesO_map (fun _ _ => ?_) ?_
    | with_reducible refine evolvesO_foldl (fun _ _ _ => ?_) ?_
    | exact evolvesO_none
    | with_reducible refine evolvesO_some ?_
    | with_reducible refine evolvesP_ite ?_ ?_
    | with_reducible refine evolvesP_foldl (fun _ _ _ => ?_) ?_
    | split
    | with_reducible refine EvolvesP.snd ?_
    | with_reducible refine evolvesP_mk ?_
    | with_reducible refine EvolvesP.out (by assumption) ?_
    | with_reducible refine EvolvesO.out (by assumption) ?_
theorem execDumpReplayDone_evolves {r : State} (badLines : List Nat) (s : State)
    (h : r.Evolves s) : AnswersE r (execDumpReplayDone badLines s) := by
  unfold execDumpReplayDone
  try dsimp only
  repeat' first
    | with_reducible exact h
    | with_reducible apply State.placeRec_evolves
    | with_reducible refine State.evolves_upPwr _ ?_ ?_
    | with_reducible exact fun _ _ _ k => k
    | (with_reducible intro b e q k); dsimp only at k ⊢; first | omega | (have ha := State.armCode_le s; omega) | ((with_reducible refine ⟨?_, k.2⟩); (repeat' first | (with_reducible refine Nat.le_trans (State.armCode_le _) ?_); decide | omega | split); done) | (have hm' := hm q; omega) | exact ⟨Nat.le_trans (State.armCode_le _) (by decide), k.2⟩ | (have ha := State.armCode_le _; constructor <;> repeat' first | omega | split)
    | with_reducible assumption
    | with_reducible refine evolves_ite (fun _ => ?_) (fun _ => ?_)
    | with_reducible refine evolves_foldl (fun _ _ _ => ?_) ?_
    | with_reducible refine answersE_next ?_
    | split
theorem execImageRetire_evolves {r : State} (s : State)
    (h : r.Evolves s) : AnswersE r (execImageRetire s) := by
  unfold execImageRetire
  try dsimp only
  repeat' first
    | with_reducible exact h
    | with_reducible refine State.evolves_upDump _ ?_
    | with_reducible refine State.evolves_upPwr _ ?_ ?_
    | with_reducible exact fun _ _ _ k => k
    | (with_reducible intro b e q k); dsimp only at k ⊢; first | omega | (have ha := State.armCode_le s; omega) | ((with_reducible refine ⟨?_, k.2⟩); (repeat' first | (with_reducible refine Nat.le_trans (State.armCode_le _) ?_); decide | omega | split); done) | (have hm' := hm q; omega) | exact ⟨Nat.le_trans (State.armCode_le _) (by decide), k.2⟩ | (have ha := State.armCode_le _; constructor <;> repeat' first | omega | split)
    | with_reducible assumption
    | with_reducible refine evolves_ite (fun _ => ?_) (fun _ => ?_)
    | with_reducible refine evolves_foldl (fun _ _ _ => ?_) ?_
    | with_reducible refine answersE_next ?_
    | split
theorem State.moveSlot_evolves {r : State} (g : Nat) (s : State)
    (h : r.Evolves s) : r.Evolves (State.moveSlot g s) := by
  unfold State.moveSlot
  try dsimp only
  repeat' first
    | with_reducible exact h
    | with_reducible apply State.freeChanged_evolves
    | with_reducible apply State.journal_evolves
    | with_reducible apply State.noteWear_evolves
    | with_reducible refine State.evolves_upDump _ ?_
    | with_reducible refine State.evolves_upMedia _ ?_ ?_
    | with_reducible exact fun _ _ _ k => k
    | with_reducible exact fun _ _ _ _ => Tab.sorted_nil
    | with_reducible exact fun _ _ _ k => Tab.sorted_put k
    | with_reducible exact fun _ _ _ k => Tab.sorted_erase k
    | with_reducible exact fun _ _ _ k => Tab.sorted_filter k
    | with_reducible exact fun _ _ _ k => Tab.sorted_filterKV k
    | (with_reducible intro b e q k); (with_reducible refine Tab.sorted_map (fun _ => ?_) k); repeat' first | rfl | split
    | with_reducible assumption
    | with_reducible refine evolves_ite (fun _ => ?_) (fun _ => ?_)
    | with_reducible refine evolves_foldl (fun _ _ _ => ?_) ?_
    | split
theorem execRetiredImageReset_evolves {r : State} (number : Nat) (s : State)
    (h : r.Evolves s) : AnswersE r (execRetiredImageReset number s) := by
  unfold execRetiredImageReset
  try dsimp only
  repeat' first
    | with_reducible exact h
    | with_reducible apply State.armCheck_evolves
    | with_reducible apply State.moveSlot_evolves
    | with_reducible refine State.evolves_upDump _ ?_
    | with_reducible refine State.evolves_upKeys _ ?_
    | with_reducible refine State.evolves_upMedia _ ?_ ?_
    | with_reducible exact fun _ _ _ k => k
    | with_reducible exact fun _ _ _ _ => Tab.sorted_nil
    | with_reducible exact fun _ _ _ k => Tab.sorted_put k
    | with_reducible exact fun _ _ _ k => Tab.sorted_erase k
    | with_reducible exact fun _ _ _ k => Tab.sorted_filter k
    | with_reducible exact fun _ _ _ k => Tab.sorted_filterKV k
    | (with_reducible intro b e q k); (with_reducible refine Tab.sorted_map (fun _ => ?_) k); repeat' first | rfl | split
    | with_reducible assumption
    | with_reducible refine evolves_ite (fun _ => ?_) (fun _ => ?_)
    | with_reducible refine evolves_foldl (fun _ _ _ => ?_) ?_
    | with_reducible refine answersE_next ?_
    | split
theorem State.advanceSecurity_evolves {r : State} (s : State)
    (h : r.Evolves s) : r.Evolves (State.advanceSecurity s) := by
  unfold State.advanceSecurity
  try dsimp only
  repeat' first
    | with_reducible exact h
    | with_reducible apply State.log_evolves
    | with_reducible apply State.measure_evolves
    | with_reducible apply State.save_evolves
    | with_reducible refine State.evolves_upFw _ ?_
    | with_reducible assumption
    | with_reducible refine evolves_ite (fun _ => ?_) (fun _ => ?_)
    | with_reducible refine evolves_foldl (fun _ _ _ => ?_) ?_
    | split
theorem execMemoryActiveSet_evolves {r : State} (s : State)
    (h : r.Evolves s) : AnswersE r (execMemoryActiveSet s) := by
  unfold execMemoryActiveSet
  try dsimp only
  repeat' first
    | with_reducible exact h
    | with_reducible apply State.advanceSecurity_evolves
    | with_reducible apply State.log_evolves
    | with_reducible refine State.evolves_upPwr _ ?_ ?_
    | with_reducible exact fun _ _ _ k => k
    | with_reducible assumption
    | with_reducible refine evolves_ite (fun _ => ?_) (fun _ => ?_)
    | with_reducible refine evolves_foldl (fun _ _ _ => ?_) ?_
    | with_reducible refine answersE_next ?_
    | split
theorem execPowerLossConfirmed_evolves {r : State} (s : State)
    (h : r.Evolves s) : AnswersE r (execPowerLossConfirmed s) := by
  unfold execPowerLossConfirmed
  try dsimp only
  repeat' first
    | with_reducible exact h
    | with_reducible apply State.losePower_evolves
    | with_reducible refine State.evolves_upPwr _ ?_ ?_
    | with_reducible exact fun _ _ _ k => k
    | with_reducible assumption
    | with_reducible refine evolves_ite (fun _ => ?_) (fun _ => ?_)
    | with_reducible refine evolves_foldl (fun _ _ _ => ?_) ?_
    | with_reducible refine answersE_next ?_
    | split
theorem execOvervoltageTrip_evolves {r : State} (s : State)
    (h : r.Evolves s) : AnswersE r (execOvervoltageTrip s) := by
  unfold execOvervoltageTrip
  try dsimp only
  repeat' first
    | with_reducible exact h
    | with_reducible apply State.losePower_evolves
    | with_reducible refine State.evolves_upPwr _ ?_ ?_
    | with_reducible exact fun _ _ _ k => k
    | with_reducible assumption
    | with_reducible refine evolves_ite (fun _ => ?_) (fun _ => ?_)
    | with_reducible refine evolves_foldl (fun _ _ _ => ?_) ?_
    | with_reducible refine answersE_next ?_
    | split
theorem execPwrdisAssert_evolves {r : State} (s : State)
    (h : r.Evolves s) : AnswersE r (execPwrdisAssert s) := by
  unfold execPwrdisAssert
  try dsimp only
  repeat' first
    | with_reducible exact h
    | with_reducible apply State.losePower_evolves
    | with_reducible refine State.evolves_upPwr _ ?_ ?_
    | with_reducible exact fun _ _ _ k => k
    | with_reducible assumption
    | with_reducible refine evolves_ite (fun _ => ?_) (fun _ => ?_)
    | with_reducible refine evolves_foldl (fun _ _ _ => ?_) ?_
    | with_reducible refine answersE_next ?_
    | split
theorem execPwrdisDeassert_evolves {r : State} (s : State)
    (h : r.Evolves s) : AnswersE r (execPwrdisDeassert s) := by
  unfold execPwrdisDeassert
  try dsimp only
  repeat' first
    | with_reducible exact h
    | with_reducible apply State.coldReset_evolves
    | with_reducible apply State.keeperStart_evolves
    | with_reducible apply State.noteMain_evolves
    | with_reducible refine State.evolves_upPwr _ ?_ ?_
    | with_reducible exact fun _ _ _ k => k
    | with_reducible assumption
    | with_reducible refine evolves_ite (fun _ => ?_) (fun _ => ?_)
    | with_reducible refine evolves_foldl (fun _ _ _ => ?_) ?_
    | with_reducible refine answersE_next ?_
    | split
theorem State.startOneBit_evolves {r : State} (i : Image) (s : State)
    (h : r.Evolves s) : r.Evolves (State.startOneBit i s) := by
  unfold State.startOneBit
  try dsimp only
  repeat' first
    | with_reducible exact h
    | with_reducible refine State.evolves_upMedia _ ?_ ?_
    | with_reducible exact fun _ _ _ k => k
    | with_reducible exact fun _ _ _ _ => Tab.sorted_nil
    | with_reducible exact fun _ _ _ k => Tab.sorted_put k
    | with_reducible exact fun _ _ _ k => Tab.sorted_erase k
    | with_reducible exact fun _ _ _ k => Tab.sorted_filter k
    | with_reducible exact fun _ _ _ k => Tab.sorted_filterKV k
    | (with_reducible intro b e q k); (with_reducible refine Tab.sorted_map (fun _ => ?_) k); repeat' first | rfl | split
    | with_reducible assumption
    | with_reducible refine evolves_ite (fun _ => ?_) (fun _ => ?_)
    | with_reducible refine evolves_foldl (fun _ _ _ => ?_) ?_
    | split
theorem execDumpWindowsEnded_evolves {r : State} (fcBad : List Nat) (dramBad : List Nat) (s : State)
    (h : r.Evolves s) : AnswersE r (execDumpWindowsEnded fcBad dramBad s) := by
  unfold execDumpWindowsEnded
  try dsimp only
  repeat' first
    | with_reducible exact h
    | with_reducible apply State.save_evolves
    | with_reducible apply State.startOneBit_evolves
    | with_reducible apply State.stopFirkin_evolves
    | with_reducible apply State.takeGens_evolves
    | with_reducible refine State.evolves_upDump _ ?_
    | with_reducible assumption
    | with_reducible refine evolves_ite (fun _ => ?_) (fun _ => ?_)
    | with_reducible refine evolves_foldl (fun _ _ _ => ?_) ?_
    | with_reducible refine evolvesP_ite ?_ ?_
    | with_reducible refine evolvesP_foldl (fun _ _ _ => ?_) ?_
    | with_reducible refine answersE_next ?_
    | split
    | with_reducible refine EvolvesP.snd ?_
    | with_reducible refine evolvesP_mk ?_
    | with_reducible refine EvolvesP.out (by assumption) ?_
theorem execDumpSealed_evolves {r : State} (s : State)
    (h : r.Evolves s) : AnswersE r (execDumpSealed s) := by
  unfold execDumpSealed
  try dsimp only
  repeat' first
    | with_reducible exact h
    | with_reducible apply State.afterDump_evolves
    | with_reducible apply State.draw_evolves
    | with_reducible apply State.storeImage_evolves
    | with_reducible refine State.evolves_upBudget _ ?_ ?_
    | with_reducible exact fun _ _ _ k => k
    | with_reducible exact fun _ _ _ _ => Tab.sorted_nil
    | with_reducible exact fun _ _ _ k => Tab.sorted_put k
    | with_reducible exact fun _ _ _ k => Tab.sorted_erase k
    | with_reducible exact fun _ _ _ k => Tab.sorted_filter k
    | with_reducible exact fun _ _ _ k => Tab.sorted_filterKV k
    | (with_reducible intro b e q k); (with_reducible refine Tab.sorted_map (fun _ => ?_) k); repeat' first | rfl | split
    | with_reducible assumption
    | with_reducible refine evolves_ite (fun _ => ?_) (fun _ => ?_)
    | with_reducible refine evolves_foldl (fun _ _ _ => ?_) ?_
    | with_reducible refine evolvesP_ite ?_ ?_
    | with_reducible refine evolvesP_foldl (fun _ _ _ => ?_) ?_
    | with_reducible refine answersE_next ?_
    | split
    | with_reducible refine EvolvesP.snd ?_
    | with_reducible refine evolvesP_mk ?_
    | with_reducible refine EvolvesP.out (by assumption) ?_
theorem execBankExhausted_evolves {r : State} (s : State)
    (h : r.Evolves s) : AnswersE r (execBankExhausted s) := by
  unfold execBankExhausted
  try dsimp only
  repeat' first
    | with_reducible exact h
    | with_reducible apply State.afterDump_evolves
    | with_reducible apply State.draw_evolves
    | with_reducible apply State.keeperOff_evolves
    | with_reducible apply State.storeImage_evolves
    | with_reducible refine State.evolves_upBudget _ ?_ ?_
    | with_reducible refine State.evolves_upPwr _ ?_ ?_
    | with_reducible exact fun _ _ _ k => k
    | with_reducible exact fun _ _ _ _ => Tab.sorted_nil
    | with_reducible exact fun _ _ _ k => Tab.sorted_put k
    | with_reducible exact fun _ _ _ k => Tab.sorted_erase k
    | with_reducible exact fun _ _ _ k => Tab.sorted_filter k
    | with_reducible exact fun _ _ _ k => Tab.sorted_filterKV k
    | (with_reducible intro b e q k); (with_reducible refine Tab.sorted_map (fun _ => ?_) k); repeat' first | rfl | split
    | with_reducible assumption
    | with_reducible refine evolves_ite (fun _ => ?_) (fun _ => ?_)
    | with_reducible refine evolves_foldl (fun _ _ _ => ?_) ?_
    | with_reducible refine evolvesP_ite ?_ ?_
    | with_reducible refine evolvesP_foldl (fun _ _ _ => ?_) ?_
    | with_reducible refine answersE_next ?_
    | split
    | with_reducible refine EvolvesP.snd ?_
    | with_reducible refine evolvesP_mk ?_
    | with_reducible refine EvolvesP.out (by assumption) ?_
theorem execMainReturnDuringDump_evolves {r : State} (s : State)
    (h : r.Evolves s) : AnswersE r (execMainReturnDuringDump s) := by
  unfold execMainReturnDuringDump
  try dsimp only
  repeat' first
    | with_reducible exact h
    | with_reducible apply State.noteMain_evolves
    | with_reducible refine State.evolves_upPwr _ ?_ ?_
    | with_reducible exact fun _ _ _ k => k
    | with_reducible assumption
    | with_reducible refine evolves_ite (fun _ => ?_) (fun _ => ?_)
    | with_reducible refine evolves_foldl (fun _ _ _ => ?_) ?_
    | with_reducible refine answersE_next ?_
    | split
theorem State.perstCold_evolves {r : State} (s : State)
    (h : r.Evolves s) : r.Evolves (State.perstCold s) := by
  unfold State.perstCold
  try dsimp only
  repeat' first
    | with_reducible exact h
    | with_reducible apply State.cleanStop_evolves
    | with_reducible apply State.coldReset_evolves
    | with_reducible apply State.keeperOff_evolves
    | with_reducible apply State.startDump_evolves
    | with_reducible apply State.testEnd_evolves
    | with_reducible refine State.evolves_upPwr _ ?_ ?_
    | with_reducible exact fun _ _ _ k => k
    | with_reducible assumption
    | with_reducible refine evolves_ite (fun _ => ?_) (fun _ => ?_)
    | with_reducible refine evolves_foldl (fun _ _ _ => ?_) ?_
    | split
theorem State.linkReset_evolves {r : State} (s : State)
    (h : r.Evolves s) : r.Evolves (State.linkReset s) := by
  unfold State.linkReset
  try dsimp only
  repeat' first
    | with_reducible exact h
    | with_reducible apply State.linkDown_evolves
    | with_reducible apply State.warmReset_evolves
    | with_reducible assumption
    | with_reducible refine evolves_ite (fun _ => ?_) (fun _ => ?_)
    | with_reducible refine evolves_foldl (fun _ _ _ => ?_) ?_
    | split
theorem execWarmReset_evolves {r : State} (perst : Bool) (s : State)
    (h : r.Evolves s) : AnswersE r (execWarmReset perst s) := by
  unfold execWarmReset
  try dsimp only
  repeat' first
    | with_reducible exact h
    | with_reducible apply State.linkReset_evolves
    | with_reducible apply State.perstCold_evolves
    | with_reducible refine State.evolves_upPwr _ ?_ ?_
    | with_reducible exact fun _ _ _ k => k
    | with_reducible assumption
    | with_reducible refine evolves_ite (fun _ => ?_) (fun _ => ?_)
    | with_reducible refine evolves_foldl (fun _ _ _ => ?_) ?_
    | with_reducible refine answersE_next ?_
    | split
theorem execFunctionLevelReset_evolves {r : State} (s : State)
    (h : r.Evolves s) : AnswersE r (execFunctionLevelReset s) := by
  unfold execFunctionLevelReset
  try dsimp only
  repeat' first
    | with_reducible exact h
    | with_reducible refine State.evolves_upMbox _ ?_
    | with_reducible refine State.evolves_upObs _ ?_ ?_
    | with_reducible exact fun _ _ _ k => k
    | with_reducible exact fun _ _ _ _ => Tab.sorted_nil
    | with_reducible exact fun _ _ _ k => Tab.sorted_put k
    | with_reducible exact fun _ _ _ k => Tab.sorted_erase k
    | with_reducible exact fun _ _ _ k => Tab.sorted_filter k
    | with_reducible exact fun _ _ _ k => Tab.sorted_filterKV k
    | (with_reducible intro b e q k); (with_reducible refine Tab.sorted_map (fun _ => ?_) k); repeat' first | rfl | split
    | with_reducible assumption
    | with_reducible refine evolves_ite (fun _ => ?_) (fun _ => ?_)
    | with_reducible refine evolves_foldl (fun _ _ _ => ?_) ?_
    | with_reducible refine answersE_next ?_
    | split
theorem execResetErrorDetected_evolves {r : State} (source : Nat) (fcBad : List Nat) (swept : List (Nat × CacheFault)) (s : State)
    (h : r.Evolves s) : AnswersE r (execResetErrorDetected source fcBad swept s) := by
  unfold execResetErrorDetected
  try dsimp only
  repeat' first
    | with_reducible exact h
    | with_reducible apply State.controllerReset_evolves
    | with_reducible assumption
    | with_reducible refine evolves_ite (fun _ => ?_) (fun _ => ?_)
    | with_reducible refine evolves_foldl (fun _ _ _ => ?_) ?_
    | with_reducible refine answersE_next ?_
    | split
theorem execFirmwareWatchdogExpire_evolves {r : State} (fcBad : List Nat) (swept : List (Nat × CacheFault)) (s : State)
    (h : r.Evolves s) : AnswersE r (execFirmwareWatchdogExpire fcBad swept s) := by
  unfold execFirmwareWatchdogExpire
  try dsimp only
  repeat' first
    | with_reducible exact h
    | with_reducible apply State.controllerReset_evolves
    | with_reducible assumption
    | with_reducible refine evolves_ite (fun _ => ?_) (fun _ => ?_)
    | with_reducible refine evolves_foldl (fun _ _ _ => ?_) ?_
    | with_reducible refine answersE_next ?_
    | split
theorem execLinkTrainingDone_evolves {r : State} (rate : Nat) (offered : Nat) (failed : Nat) (s : State)
    (h : r.Evolves s) : AnswersE r (execLinkTrainingDone rate offered failed s) := by
  unfold execLinkTrainingDone
  try dsimp only
  repeat' first
    | with_reducible exact h
    | with_reducible apply State.linkDown_evolves
    | with_reducible apply State.linkReset_evolves
    | with_reducible apply State.log_evolves
    | with_reducible refine State.evolves_upPort _ ?_
    | with_reducible refine State.evolves_upPwr _ ?_ ?_
    | with_reducible exact fun _ _ _ k => k
    | with_reducible assumption
    | with_reducible refine evolves_ite (fun _ => ?_) (fun _ => ?_)
    | with_reducible refine evolves_foldl (fun _ _ _ => ?_) ?_
    | with_reducible refine answersE_next ?_
    | split
theorem execFabricBind_evolves {r : State} (endpoint : Nat) (s : State)
    (h : r.Evolves s) : AnswersE r (execFabricBind endpoint s) := by
  unfold execFabricBind
  try dsimp only
  repeat' first
    | with_reducible exact h
    | with_reducible refine State.evolves_upPort _ ?_
    | with_reducible assumption
    | with_reducible refine evolves_ite (fun _ => ?_) (fun _ => ?_)
    | with_reducible refine evolves_foldl (fun _ _ _ => ?_) ?_
    | with_reducible refine answersE_next ?_
    | split
theorem execFabricUnbind_evolves {r : State} (s : State)
    (h : r.Evolves s) : AnswersE r (execFabricUnbind s) := by
  unfold execFabricUnbind
  try dsimp only
  repeat' first
    | with_reducible exact h
    | with_reducible refine State.evolves_upPort _ ?_
    | with_reducible assumption
    | with_reducible refine evolves_ite (fun _ => ?_) (fun _ => ?_)
    | with_reducible refine evolves_foldl (fun _ _ _ => ?_) ?_
    | with_reducible refine answersE_next ?_
    | split
theorem execPerstDeassert_evolves {r : State} (s : State)
    (h : r.Evolves s) : AnswersE r (execPerstDeassert s) := by
  unfold execPerstDeassert
  try dsimp only
  repeat' first
    | with_reducible exact h
    | with_reducible refine State.evolves_upPwr _ ?_ ?_
    | with_reducible exact fun _ _ _ k => k
    | with_reducible assumption
    | with_reducible refine evolves_ite (fun _ => ?_) (fun _ => ?_)
    | with_reducible refine evolves_foldl (fun _ _ _ => ?_) ?_
    | with_reducible refine answersE_next ?_
    | split
theorem execAuxPowerLoss_evolves {r : State} (s : State)
    (h : r.Evolves s) : AnswersE r (execAuxPowerLoss s) := by
  unfold execAuxPowerLoss
  try dsimp only
  repeat' first
    | with_reducible exact h
    | with_reducible apply State.keeperOff_evolves
    | with_reducible apply State.perstCold_evolves
    | with_reducible refine State.evolves_upPwr _ ?_ ?_
    | with_reducible exact fun _ _ _ k => k
    | with_reducible assumption
    | with_reducible refine evolves_ite (fun _ => ?_) (fun _ => ?_)
    | with_reducible refine evolves_foldl (fun _ _ _ => ?_) ?_
    | with_reducible refine answersE_next ?_
    | split
theorem execAuxPowerArrive_evolves {r : State} (s : State)
    (h : r.Evolves s) : AnswersE r (execAuxPowerArrive s) := by
  unfold execAuxPowerArrive
  try dsimp only
  repeat' first
    | with_reducible exact h
    | with_reducible apply State.keeperStart_evolves
    | with_reducible refine State.evolves_upDict _ ?_
    | with_reducible refine State.evolves_upPwr _ ?_ ?_
    | with_reducible exact fun _ _ _ k => k
    | with_reducible assumption
    | with_reducible refine evolves_ite (fun _ => ?_) (fun _ => ?_)
    | with_reducible refine evolves_foldl (fun _ _ _ => ?_) ?_
    | with_reducible refine answersE_next ?_
    | split
theorem execCriticalLatchClear_evolves {r : State} (s : State)
    (h : r.Evolves s) : AnswersE r (execCriticalLatchClear s) := by
  unfold execCriticalLatchClear
  try dsimp only
  repeat' first
    | with_reducible exact h
    | with_reducible apply State.elapseTo_evolves
    | with_reducible apply State.save_evolves
    | with_reducible refine State.evolves_upPwr _ ?_ ?_
    | with_reducible exact fun _ _ _ k => k
    | with_reducible assumption
    | with_reducible refine evolves_ite (fun _ => ?_) (fun _ => ?_)
    | with_reducible refine evolves_foldl (fun _ _ _ => ?_) ?_
    | with_reducible refine answersE_next ?_
    | split
theorem execSmbrstAssert_evolves {r : State} (s : State)
    (h : r.Evolves s) : AnswersE r (execSmbrstAssert s) := by
  unfold execSmbrstAssert
  try dsimp only
  repeat' first
    | with_reducible exact h
    | with_reducible refine State.evolves_upDict _ ?_
    | with_reducible refine State.evolves_upPwr _ ?_ ?_
    | with_reducible exact fun _ _ _ k => k
    | with_reducible assumption
    | with_reducible refine evolves_ite (fun _ => ?_) (fun _ => ?_)
    | with_reducible refine evolves_foldl (fun _ _ _ => ?_) ?_
    | with_reducible refine answersE_next ?_
    | split
theorem execSmbrstDeassert_evolves {r : State} (s : State)
    (h : r.Evolves s) : AnswersE r (execSmbrstDeassert s) := by
  unfold execSmbrstDeassert
  try dsimp only
  repeat' first
    | with_reducible exact h
    | with_reducible refine State.evolves_upPwr _ ?_ ?_
    | with_reducible exact fun _ _ _ k => k
    | with_reducible assumption
    | with_reducible refine evolves_ite (fun _ => ?_) (fun _ => ?_)
    | with_reducible refine evolves_foldl (fun _ _ _ => ?_) ?_
    | with_reducible refine answersE_next ?_
    | split

end Sys2Proof.Machine
end

