-- ==== Sys2Proof/Laws/EvolvesThermal.lean ====
section
/-!
SUPPORT. How the operations of Machine/Thermal.lean let the state evolve.
-/
namespace Sys2Proof.Machine

theorem State.enterStep_evolves {r : State} (z : Nat) (k : Nat) (s : State)
    (h : r.Evolves s) : r.Evolves (State.enterStep z k s) := by
  unfold State.enterStep
  try dsimp only
  repeat' first
    | with_reducible exact h
    | with_reducible apply State.log_evolves
    | with_reducible refine State.evolves_upTherm _ ?_
    | with_reducible assumption
    | with_reducible refine evolves_ite (fun _ => ?_) (fun _ => ?_)
    | with_reducible refine evolves_foldl (fun _ _ _ => ?_) ?_
    | split
theorem State.leaveStep_evolves {r : State} (z : Nat) (k : Nat) (s : State)
    (h : r.Evolves s) : r.Evolves (State.leaveStep z k s) := by
  unfold State.leaveStep
  try dsimp only
  repeat' first
    | with_reducible exact h
    | with_reducible apply State.log_evolves
    | with_reducible refine State.evolves_upTherm _ ?_
    | with_reducible assumption
    | with_reducible refine evolves_ite (fun _ => ?_) (fun _ => ?_)
    | with_reducible refine evolves_foldl (fun _ _ _ => ?_) ?_
    | split
theorem State.sense_evolves {r : State} (ch : Nat) (x : Nat) (s : State)
    (h : r.Evolves s) : r.Evolves (State.sense ch x s) := by
  unfold State.sense
  try dsimp only
  repeat' first
    | with_reducible exact h
    | with_reducible apply State.log_evolves
    | with_reducible refine State.evolves_upTherm _ ?_
    | with_reducible assumption
    | with_reducible refine evolves_ite (fun _ => ?_) (fun _ => ?_)
    | with_reducible refine evolves_foldl (fun _ _ _ => ?_) ?_
    | split
theorem State.zoneRound_evolves {r : State} (z : Nat) (s : State)
    (h : r.Evolves s) : r.Evolves (State.zoneRound z s) := by
  unfold State.zoneRound
  try dsimp only
  repeat' first
    | with_reducible exact h
    | with_reducible apply State.enterStep_evolves
    | with_reducible refine State.evolves_upTherm _ ?_
    | with_reducible assumption
    | with_reducible refine evolves_ite (fun _ => ?_) (fun _ => ?_)
    | with_reducible refine evolves_foldl (fun _ _ _ => ?_) ?_
    | split
theorem State.boundThermal_evolves {r : State} (s : State)
    (h : r.Evolves s) : r.Evolves (State.boundThermal s) := by
  unfold State.boundThermal
  try dsimp only
  repeat' first
    | with_reducible exact h
    | with_reducible apply State.boundEnd_evolves
    | with_reducible apply State.boundFail_evolves
    | with_reducible assumption
    | with_reducible refine evolves_ite (fun _ => ?_) (fun _ => ?_)
    | with_reducible refine evolves_foldl (fun _ _ _ => ?_) ?_
    | split
theorem State.boundSoft_evolves {r : State} (s : State)
    (h : r.Evolves s) : r.Evolves (State.boundSoft s) := by
  unfold State.boundSoft
  try dsimp only
  repeat' first
    | with_reducible exact h
    | with_reducible apply State.boundEnd_evolves
    | with_reducible apply State.boundFail_evolves
    | with_reducible refine State.evolves_upRstats _ ?_
    | with_reducible assumption
    | with_reducible refine evolves_ite (fun _ => ?_) (fun _ => ?_)
    | with_reducible refine evolves_foldl (fun _ _ _ => ?_) ?_
    | split
theorem State.rowRate_evolves {r : State} (s : State)
    (h : r.Evolves s) : r.Evolves (State.rowRate s) := by
  unfold State.rowRate
  try dsimp only
  repeat' first
    | with_reducible exact h
    | with_reducible apply State.draw_evolves
    | with_reducible refine State.evolves_upDram _ ?_
    | with_reducible assumption
    | with_reducible refine evolves_ite (fun _ => ?_) (fun _ => ?_)
    | with_reducible refine evolves_foldl (fun _ _ _ => ?_) ?_
    | with_reducible refine evolvesP_ite ?_ ?_
    | with_reducible refine evolvesP_foldl (fun _ _ _ => ?_) ?_
    | split
    | with_reducible refine EvolvesP.snd ?_
    | with_reducible refine evolvesP_mk ?_
    | with_reducible refine EvolvesP.out (by assumption) ?_
theorem State.addDoses_evolves {r : State} (s : State)
    (h : r.Evolves s) : r.Evolves (State.addDoses s) := by
  unfold State.addDoses
  try dsimp only
  repeat' first
    | with_reducible exact h
    | with_reducible refine State.evolves_upCare _ ?_ ?_
    | with_reducible exact fun _ _ _ k => k
    | with_reducible assumption
    | with_reducible refine evolves_ite (fun _ => ?_) (fun _ => ?_)
    | with_reducible refine evolves_foldl (fun _ _ _ => ?_) ?_
    | split
theorem State.critical_evolves {r : State} (s : State)
    (h : r.Evolves s) : r.Evolves (State.critical s) := by
  unfold State.critical
  try dsimp only
  repeat' first
    | with_reducible exact h
    | with_reducible refine State.evolves_upPwr _ ?_ ?_
    | with_reducible exact fun _ _ _ k => k
    | with_reducible assumption
    | with_reducible refine evolves_ite (fun _ => ?_) (fun _ => ?_)
    | with_reducible refine evolves_foldl (fun _ _ _ => ?_) ?_
    | split
theorem State.railRound_evolves {r : State} (s : State)
    (h : r.Evolves s) : r.Evolves (State.railRound s) := by
  unfold State.railRound
  try dsimp only
  repeat' first
    | with_reducible exact h
    | with_reducible refine State.evolves_upTherm _ ?_
    | with_reducible assumption
    | with_reducible refine evolves_ite (fun _ => ?_) (fun _ => ?_)
    | with_reducible refine evolves_foldl (fun _ _ _ => ?_) ?_
    | split
theorem State.bankRound_evolves {r : State} (s : State)
    (h : r.Evolves s) : r.Evolves (State.bankRound s) := by
  unfold State.bankRound
  try dsimp only
  repeat' first
    | with_reducible exact h
    | with_reducible apply State.bankFault_evolves
    | with_reducible apply State.rederive_evolves
    | with_reducible refine State.evolves_upBank _ ?_
    | with_reducible assumption
    | with_reducible refine evolves_ite (fun _ => ?_) (fun _ => ?_)
    | with_reducible refine evolves_foldl (fun _ _ _ => ?_) ?_
    | split
theorem State.retrainRound_evolves {r : State} (s : State)
    (h : r.Evolves s) : r.Evolves (State.retrainRound s) := by
  unfold State.retrainRound
  try dsimp only
  repeat' first
    | with_reducible exact h
    | with_reducible apply State.needRetrain_evolves
    | with_reducible assumption
    | with_reducible refine evolves_ite (fun _ => ?_) (fun _ => ?_)
    | with_reducible refine evolves_foldl (fun _ _ _ => ?_) ?_
    | split
theorem State.firkinRound_evolves {r : State} (s : State)
    (h : r.Evolves s) : r.Evolves (State.firkinRound s) := by
  unfold State.firkinRound
  try dsimp only
  repeat' first
    | with_reducible exact h
    | with_reducible apply State.closePeriod_evolves
    | with_reducible apply State.sample_evolves
    | with_reducible refine State.evolves_upFirkin _ ?_
    | with_reducible refine State.evolves_upGills _ ?_
    | with_reducible assumption
    | with_reducible refine evolves_ite (fun _ => ?_) (fun _ => ?_)
    | with_reducible refine evolves_foldl (fun _ _ _ => ?_) ?_
    | split
theorem State.hourly_evolves {r : State} (s : State)
    (h : r.Evolves s) : r.Evolves (State.hourly s) := by
  unfold State.hourly
  try dsimp only
  repeat' first
    | with_reducible exact h
    | with_reducible refine State.evolves_upCare _ ?_ ?_
    | with_reducible exact fun _ _ _ k => k
    | with_reducible assumption
    | with_reducible refine evolves_ite (fun _ => ?_) (fun _ => ?_)
    | with_reducible refine evolves_foldl (fun _ _ _ => ?_) ?_
    | split
theorem State.round_evolves {r : State} (readings : List Nat) (s : State)
    (h : r.Evolves s) : r.Evolves (State.round readings s) := by
  unfold State.round
  try dsimp only
  repeat' first
    | with_reducible exact h
    | with_reducible apply State.addDoses_evolves
    | with_reducible apply State.bankRound_evolves
    | with_reducible apply State.beginVerify_evolves
    | with_reducible apply State.boundSoft_evolves
    | with_reducible apply State.boundThermal_evolves
    | with_reducible apply State.count_evolves
    | with_reducible apply State.critical_evolves
    | with_reducible apply State.elapseTo_evolves
    | with_reducible apply State.firkinRound_evolves
    | with_reducible apply State.hourly_evolves
    | with_reducible apply State.railRound_evolves
    | with_reducible apply State.retrainRound_evolves
    | with_reducible apply State.rowRate_evolves
    | with_reducible apply State.sense_evolves
    | with_reducible apply State.zoneRound_evolves
    | with_reducible refine State.evolves_upReg _ ?_
    | with_reducible refine State.evolves_upTherm _ ?_
    | with_reducible assumption
    | with_reducible refine evolves_ite (fun _ => ?_) (fun _ => ?_)
    | with_reducible refine evolves_foldl (fun _ _ _ => ?_) ?_
    | split
theorem execThrottleLeave_evolves {r : State} (zone : Nat) (s : State)
    (h : r.Evolves s) : AnswersE r (execThrottleLeave zone s) := by
  unfold execThrottleLeave
  try dsimp only
  repeat' first
    | with_reducible exact h
    | with_reducible apply State.leaveStep_evolves
    | with_reducible assumption
    | with_reducible refine evolves_ite (fun _ => ?_) (fun _ => ?_)
    | with_reducible refine evolves_foldl (fun _ _ _ => ?_) ?_
    | with_reducible refine answersE_next ?_
    | split
theorem execSensorRestored_evolves {r : State} (ch : Nat) (s : State)
    (h : r.Evolves s) : AnswersE r (execSensorRestored ch s) := by
  unfold execSensorRestored
  try dsimp only
  repeat' first
    | with_reducible exact h
    | with_reducible apply State.enterStep_evolves
    | with_reducible apply State.leaveStep_evolves
    | with_reducible apply State.log_evolves
    | with_reducible refine State.evolves_upTherm _ ?_
    | with_reducible assumption
    | with_reducible refine evolves_ite (fun _ => ?_) (fun _ => ?_)
    | with_reducible refine evolves_foldl (fun _ _ _ => ?_) ?_
    | with_reducible refine answersE_next ?_
    | split
theorem execRailFault_evolves {r : State} (ch : Nat) (s : State)
    (h : r.Evolves s) : AnswersE r (execRailFault ch s) := by
  unfold execRailFault
  try dsimp only
  repeat' first
    | with_reducible exact h
    | with_reducible apply State.log_evolves
    | with_reducible refine State.evolves_upTherm _ ?_
    | with_reducible assumption
    | with_reducible refine evolves_ite (fun _ => ?_) (fun _ => ?_)
    | with_reducible refine evolves_foldl (fun _ _ _ => ?_) ?_
    | with_reducible refine answersE_next ?_
    | split
theorem execChargeVoltageRaise_evolves {r : State} (s : State)
    (h : r.Evolves s) : AnswersE r (execChargeVoltageRaise s) := by
  unfold execChargeVoltageRaise
  try dsimp only
  repeat' first
    | with_reducible exact h
    | with_reducible apply State.rederive_evolves
    | with_reducible refine State.evolves_upBank _ ?_
    | with_reducible assumption
    | with_reducible refine evolves_ite (fun _ => ?_) (fun _ => ?_)
    | with_reducible refine evolves_foldl (fun _ _ _ => ?_) ?_
    | with_reducible refine answersE_next ?_
    | split
theorem execCapacitanceMeasure_evolves {r : State} (capA : Nat) (capB : Nat) (fault : BankFault) (s : State)
    (h : r.Evolves s) : AnswersE r (execCapacitanceMeasure capA capB fault s) := by
  unfold execCapacitanceMeasure
  try dsimp only
  repeat' first
    | with_reducible exact h
    | with_reducible apply State.bankFault_evolves
    | with_reducible apply State.elapseTo_evolves
    | with_reducible apply State.rederive_evolves
    | with_reducible refine State.evolves_upBank _ ?_
    | with_reducible assumption
    | with_reducible refine evolves_ite (fun _ => ?_) (fun _ => ?_)
    | with_reducible refine evolves_foldl (fun _ _ _ => ?_) ?_
    | with_reducible refine answersE_next ?_
    | split
theorem execCriticalRecheck_evolves {r : State} (ch : Nat) (reading : Nat) (s : State)
    (h : r.Evolves s) : AnswersE r (execCriticalRecheck ch reading s) := by
  unfold execCriticalRecheck
  try dsimp only
  repeat' first
    | with_reducible exact h
    | with_reducible apply State.cleanStop_evolves
    | with_reducible apply State.elapseTo_evolves
    | with_reducible apply State.save_evolves
    | with_reducible apply State.startDump_evolves
    | with_reducible refine State.evolves_upPwr _ ?_ ?_
    | with_reducible exact fun _ _ _ k => k
    | with_reducible assumption
    | with_reducible refine evolves_ite (fun _ => ?_) (fun _ => ?_)
    | with_reducible refine evolves_foldl (fun _ _ _ => ?_) ?_
    | with_reducible refine answersE_next ?_
    | split
theorem execBaseDrawMeasure_evolves {r : State} (inputMw : Nat) (s : State)
    (h : r.Evolves s) : AnswersE r (execBaseDrawMeasure inputMw s) := by
  unfold execBaseDrawMeasure
  try dsimp only
  repeat' first
    | with_reducible exact h
    | with_reducible apply State.elapseTo_evolves
    | with_reducible refine State.evolves_upReg _ ?_
    | with_reducible assumption
    | with_reducible refine evolves_ite (fun _ => ?_) (fun _ => ?_)
    | with_reducible refine evolves_foldl (fun _ _ _ => ?_) ?_
    | with_reducible refine answersE_next ?_
    | split
theorem execPacingStep_evolves {r : State} (s : State)
    (h : r.Evolves s) : AnswersE r (execPacingStep s) := by
  unfold execPacingStep
  try dsimp only
  repeat' first
    | with_reducible exact h
    | with_reducible apply State.elapseTo_evolves
    | with_reducible apply State.log_evolves
    | with_reducible refine State.evolves_upPort _ ?_
    | with_reducible assumption
    | with_reducible refine evolves_ite (fun _ => ?_) (fun _ => ?_)
    | with_reducible refine evolves_foldl (fun _ _ _ => ?_) ?_
    | with_reducible refine answersE_next ?_
    | split
theorem State.recompute_evolves {r : State} (s : State)
    (h : r.Evolves s) : r.Evolves (State.recompute s) := by
  unfold State.recompute
  try dsimp only
  repeat' first
    | with_reducible exact h
    | with_reducible apply State.log_evolves
    | with_reducible apply State.raise_evolves
    | with_reducible apply State.refillTokens_evolves
    | with_reducible refine State.evolves_upReg _ ?_
    | with_reducible assumption
    | with_reducible refine evolves_ite (fun _ => ?_) (fun _ => ?_)
    | with_reducible refine evolves_foldl (fun _ _ _ => ?_) ?_
    | split
theorem execDeliverableRecompute_evolves {r : State} (s : State)
    (h : r.Evolves s) : AnswersE r (execDeliverableRecompute s) := by
  unfold execDeliverableRecompute
  try dsimp only
  repeat' first
    | with_reducible exact h
    | with_reducible apply State.elapseTo_evolves
    | with_reducible apply State.recompute_evolves
    | with_reducible refine State.evolves_upReg _ ?_
    | with_reducible assumption
    | with_reducible refine evolves_ite (fun _ => ?_) (fun _ => ?_)
    | with_reducible refine evolves_foldl (fun _ _ _ => ?_) ?_
    | with_reducible refine answersE_next ?_
    | split
theorem execLatencyMissReport_evolves {r : State} (cls : Nat) (s : State)
    (h : r.Evolves s) : AnswersE r (execLatencyMissReport cls s) := by
  unfold execLatencyMissReport
  try dsimp only
  repeat' first
    | with_reducible exact h
    | with_reducible apply State.elapseTo_evolves
    | with_reducible apply State.log_evolves
    | with_reducible apply State.raise_evolves
    | with_reducible refine State.evolves_upReg _ ?_
    | with_reducible assumption
    | with_reducible refine evolves_ite (fun _ => ?_) (fun _ => ?_)
    | with_reducible refine evolves_foldl (fun _ _ _ => ?_) ?_
    | with_reducible refine answersE_next ?_
    | split
theorem execGillLeak_evolves {r : State} (domain : Nat) (s : State)
    (h : r.Evolves s) : AnswersE r (execGillLeak domain s) := by
  unfold execGillLeak
  try dsimp only
  repeat' first
    | with_reducible exact h
    | with_reducible apply State.elapseTo_evolves
    | with_reducible refine State.evolves_upGills _ ?_
    | with_reducible assumption
    | with_reducible refine evolves_ite (fun _ => ?_) (fun _ => ?_)
    | with_reducible refine evolves_foldl (fun _ _ _ => ?_) ?_
    | with_reducible refine answersE_next ?_
    | split
theorem State.losePailed_evolves {r : State} (x0 : Req) (s : State)
    (h : r.Evolves s) : r.Evolves (State.losePailed x0 s) := by
  unfold State.losePailed
  try dsimp only
  repeat' first
    | with_reducible exact h
    | with_reducible apply State.answer_evolves
    | with_reducible apply State.count_evolves
    | with_reducible apply State.poison_evolves
    | with_reducible apply State.resRoom_evolves
    | with_reducible apply State.reserve_evolves
    | with_reducible apply State.uncharge_evolves
    | with_reducible assumption
    | with_reducible refine evolves_ite (fun _ => ?_) (fun _ => ?_)
    | with_reducible refine evolves_foldl (fun _ _ _ => ?_) ?_
    | with_reducible exact evolvesO_get (by assumption)
    | with_reducible refine evolvesO_map (fun _ _ => ?_) ?_
    | with_reducible refine evolvesO_foldl (fun _ _ _ => ?_) ?_
    | exact evolvesO_none
    | with_reducible refine evolvesO_some ?_
    | split
    | with_reducible refine EvolvesO.out (by assumption) ?_
theorem State.endTransfer_evolves {r : State} (route : Nat) (code : Nat) (s : State)
    (h : r.Evolves s) : r.Evolves (State.endTransfer route code s) := by
  unfold State.endTransfer
  try dsimp only
  repeat' first
    | with_reducible exact h
    | with_reducible refine State.evolves_upDict _ ?_
    | with_reducible refine State.evolves_upObs _ ?_ ?_
    | with_reducible exact fun _ _ _ k => k
    | with_reducible exact fun _ _ _ _ => Tab.sorted_nil
    | with_reducible exact fun _ _ _ k => Tab.sorted_put k
    | with_reducible exact fun _ _ _ k => Tab.sorted_erase k
    | with_reducible exact fun _ _ _ k => Tab.sorted_filter k
    | with_reducible exact fun _ _ _ k => Tab.sorted_filterKV k
    | (with_reducible intro b e q k); (with_reducible refine Tab.sorted_map (fun _ => ?_) k); repeat' first | rfl | split
    | with_reducible assumption
    | with_reducible refine evolves_ite (fun _ => ?_) (fun _ => ?_)
    | with_reducible refine evolves_foldl (fun _ _ _ => ?_) ?_
    | split
theorem execPailReset_evolves {r : State} (kind : Nat) (inst : Nat) (s : State)
    (h : r.Evolves s) : AnswersE r (execPailReset kind inst s) := by
  unfold execPailReset
  try dsimp only
  repeat' first
    | with_reducible exact h
    | with_reducible apply State.controllerReset_evolves
    | with_reducible apply State.dropMiss_evolves
    | with_reducible apply State.endRes_evolves
    | with_reducible apply State.endTransfer_evolves
    | with_reducible apply State.log_evolves
    | with_reducible apply State.losePailed_evolves
    | with_reducible apply State.raise_evolves
    | with_reducible refine State.evolves_upObs _ ?_ ?_
    | with_reducible refine State.evolves_upPwr _ ?_ ?_
    | with_reducible exact fun _ _ _ k => k
    | with_reducible exact fun _ _ _ _ => Tab.sorted_nil
    | with_reducible exact fun _ _ _ k => Tab.sorted_put k
    | with_reducible exact fun _ _ _ k => Tab.sorted_erase k
    | with_reducible exact fun _ _ _ k => Tab.sorted_filter k
    | with_reducible exact fun _ _ _ k => Tab.sorted_filterKV k
    | (with_reducible intro b e q k); (with_reducible refine Tab.sorted_map (fun _ => ?_) k); repeat' first | rfl | split
    | (with_reducible intro b e q k); dsimp only at k ⊢; first | omega | (have ha := State.armCode_le s; omega) | ((with_reducible refine ⟨?_, k.2⟩); (repeat' first | (with_reducible refine Nat.le_trans (State.armCode_le _) ?_); decide | omega | split); done) | (have hm' := hm q; omega) | exact ⟨Nat.le_trans (State.armCode_le _) (by decide), k.2⟩ | (have ha := State.armCode_le _; constructor <;> repeat' first | omega | split)
    | (with_reducible intro b e q k); subst e; (refine ⟨?_, ?_, ?_⟩ <;> first | with_reducible exact k.1 | with_reducible exact k.2.1 | with_reducible exact k.2.2 | exact Nat.zero_le _ | (simp only [List.length_append, List.length_cons, List.length_nil, List.length_drop]; omega) | exact logs_put k.2.2 (logs_get k.2.2 _) | (refine logs_put k.2.2 ?_; simp only [List.length_append, List.length_cons, List.length_nil]; omega) | exact fun _ m => by cases m)
    | with_reducible assumption
    | with_reducible refine evolves_ite (fun _ => ?_) (fun _ => ?_)
    | with_reducible refine evolves_foldl (fun _ _ _ => ?_) ?_
    | with_reducible refine answersE_next ?_
    | split

end Sys2Proof.Machine
end

