-- ==== Sys2Proof/Laws/EvolvesDramOps.lean ====
section
/-!
SUPPORT. How the operations of Machine/DramOps.lean let the state evolve.
-/
namespace Sys2Proof.Machine

theorem execDramPageCloseTimeout_evolves {r : State} (subchannel : Nat) (bank : Nat) (s : State)
    (h : r.Evolves s) : AnswersE r (execDramPageCloseTimeout subchannel bank s) := by
  unfold execDramPageCloseTimeout
  try dsimp only
  repeat' first
    | with_reducible exact h
    | with_reducible apply State.elapse_evolves
    | with_reducible refine State.evolves_upDram _ ?_
    | with_reducible assumption
    | with_reducible refine evolves_ite (fun _ => ?_) (fun _ => ?_)
    | with_reducible refine evolves_foldl (fun _ _ _ => ?_) ?_
    | with_reducible refine answersE_next ?_
    | split
theorem execRefreshPeriodEnd_evolves {r : State} (s : State)
    (h : r.Evolves s) : AnswersE r (execRefreshPeriodEnd s) := by
  unfold execRefreshPeriodEnd
  try dsimp only
  repeat' first
    | with_reducible exact h
    | with_reducible apply State.elapseTo_evolves
    | with_reducible refine State.evolves_upDram _ ?_
    | with_reducible assumption
    | with_reducible refine evolves_ite (fun _ => ?_) (fun _ => ?_)
    | with_reducible refine evolves_foldl (fun _ _ _ => ?_) ?_
    | with_reducible refine answersE_next ?_
    | split
theorem execDramRetrainStep_evolves {r : State} (s : State)
    (h : r.Evolves s) : AnswersE r (execDramRetrainStep s) := by
  unfold execDramRetrainStep
  try dsimp only
  repeat' first
    | with_reducible exact h
    | with_reducible apply State.count_evolves
    | with_reducible apply State.elapseTo_evolves
    | with_reducible apply State.giveLeave_evolves
    | with_reducible apply State.log_evolves
    | with_reducible apply State.needRetrain_evolves
    | with_reducible apply State.save_evolves
    | with_reducible refine State.evolves_upDram _ ?_
    | with_reducible assumption
    | with_reducible refine evolves_ite (fun _ => ?_) (fun _ => ?_)
    | with_reducible refine evolves_foldl (fun _ _ _ => ?_) ?_
    | with_reducible refine answersE_next ?_
    | split

end Sys2Proof.Machine
end

