-- ==== Sys2Proof/Laws/EvolvesAtomics.lean ====
section
/-!
SUPPORT. How the operations of Machine/Atomics.lean let the state evolve.
-/
namespace Sys2Proof.Machine

theorem execReservedRead_evolves {r : State} (key : Nat) (addr : Nat) (tag : Nat) (fault : CacheFault) (s : State)
    (h : r.Evolves s) : AnswersE r (execReservedRead key addr tag fault s) := by
  unfold execReservedRead
  try dsimp only
  repeat' first
    | with_reducible exact h
    | with_reducible apply State.arrive_evolves
    | with_reducible apply State.serveNew_evolves
    | with_reducible assumption
    | with_reducible refine evolves_ite (fun _ => ?_) (fun _ => ?_)
    | with_reducible refine evolves_foldl (fun _ _ _ => ?_) ?_
    | with_reducible refine answersE_next ?_
    | split
theorem execReservationTableRoom_evolves {r : State} (slice : Nat) (fault : CacheFault) (s : State)
    (h : r.Evolves s) : AnswersE r (execReservationTableRoom slice fault s) := by
  unfold execReservationTableRoom
  try dsimp only
  repeat' first
    | with_reducible exact h
    | with_reducible apply State.checked_evolves
    | with_reducible apply State.elapseTo_evolves
    | with_reducible apply State.finishRead_evolves
    | with_reducible apply State.serveRead_evolves
    | with_reducible assumption
    | with_reducible refine evolves_ite (fun _ => ?_) (fun _ => ?_)
    | with_reducible refine evolves_foldl (fun _ _ _ => ?_) ?_
    | with_reducible refine answersE_next ?_
    | (with_reducible intro _ _); dsimp only
    | with_reducible intro _ _
    | split
    | with_reducible refine evolvesPP_mk ?_
    | with_reducible refine EvolvesPP.snd ?_
    | with_reducible refine EvolvesPP.out (by assumption) ?_
theorem execConditionalWrite_evolves {r : State} (key : Nat) (addr : Nat) (tag : Nat) (data : Line) (be : Mask) (poison : Bool) (s : State)
    (h : r.Evolves s) : AnswersE r (execConditionalWrite key addr tag data be poison s) := by
  unfold execConditionalWrite
  try dsimp only
  repeat' first
    | with_reducible exact h
    | with_reducible apply State.arrive_evolves
    | with_reducible apply State.serveNew_evolves
    | with_reducible assumption
    | with_reducible refine evolves_ite (fun _ => ?_) (fun _ => ?_)
    | with_reducible refine evolves_foldl (fun _ _ _ => ?_) ?_
    | with_reducible refine answersE_next ?_
    | split

end Sys2Proof.Machine
end

