-- ==== Sys2Proof/Laws/EvolvesBatch.lean ====
section
/-!
SUPPORT. How the operations of Machine/Batch.lean let the state evolve.
-/
namespace Sys2Proof.Machine

theorem State.setEntry_evolves {r : State} (i : Nat) (x1 : Nat) (v : Bytes) (s : State)
    (h : r.Evolves s) : r.Evolves (State.setEntry i x1 v s) := by
  unfold State.setEntry
  try dsimp only
  repeat' first
    | with_reducible exact h
    | with_reducible refine State.evolves_upDict _ ?_
    | with_reducible refine State.evolves_upTabs _ ?_
    | with_reducible assumption
    | with_reducible refine evolves_ite (fun _ => ?_) (fun _ => ?_)
    | with_reducible refine evolves_foldl (fun _ _ _ => ?_) ?_
    | split
theorem State.setRecs_evolves {r : State} (recs : List StageRec) (s : State)
    (h : r.Evolves s) : r.Evolves (State.setRecs recs s) := by
  unfold State.setRecs
  try dsimp only
  repeat' first
    | with_reducible exact h
    | with_reducible apply State.setEntry_evolves
    | with_reducible assumption
    | with_reducible refine evolves_ite (fun _ => ?_) (fun _ => ?_)
    | with_reducible refine evolves_foldl (fun _ _ _ => ?_) ?_
    | split
theorem State.stage_evolves {r : State} (x0 : Role) (x : StageRec) (s : State)
    (h : r.Evolves s) : EvolvesP r (State.stage x0 x s) := by
  unfold State.stage
  try dsimp only
  repeat' first
    | with_reducible exact h
    | with_reducible apply State.setBatch_evolves
    | with_reducible assumption
    | with_reducible refine evolves_ite (fun _ => ?_) (fun _ => ?_)
    | with_reducible refine evolves_foldl (fun _ _ _ => ?_) ?_
    | with_reducible refine evolvesP_ite ?_ ?_
    | with_reducible refine evolvesP_foldl (fun _ _ _ => ?_) ?_
    | split
    | with_reducible refine EvolvesP.snd ?_
    | with_reducible refine evolvesP_mk ?_
    | with_reducible refine EvolvesP.out (by assumption) ?_
theorem State.keysAfter_evolves {r : State} (old : Tab Range) (s : State)
    (h : r.Evolves s) : r.Evolves (State.keysAfter old s) := by
  unfold State.keysAfter
  try dsimp only
  repeat' first
    | with_reducible exact h
    | with_reducible apply State.count_evolves
    | with_reducible apply State.measure_evolves
    | with_reducible refine State.evolves_upKeys _ ?_
    | with_reducible assumption
    | with_reducible refine evolves_ite (fun _ => ?_) (fun _ => ?_)
    | with_reducible refine evolves_foldl (fun _ _ _ => ?_) ?_
    | split
theorem State.rekeyAfter_evolves {r : State} (old : Tab Range) (s : State)
    (h : r.Evolves s) : r.Evolves (State.rekeyAfter old s) := by
  unfold State.rekeyAfter
  try dsimp only
  repeat' first
    | with_reducible exact h
    | with_reducible apply State.rekeyRun_evolves
    | with_reducible refine State.evolves_upTabs _ ?_
    | with_reducible assumption
    | with_reducible refine evolves_ite (fun _ => ?_) (fun _ => ?_)
    | with_reducible refine evolves_foldl (fun _ _ _ => ?_) ?_
    | split
theorem State.applyBatch_evolves {r : State} (n : Nat) (recs : List StageRec) (s : State)
    (h : r.Evolves s) : r.Evolves (State.applyBatch n recs s) := by
  unfold State.applyBatch
  try dsimp only
  repeat' first
    | with_reducible exact h
    | with_reducible apply State.clearReservations_evolves
    | with_reducible apply State.keysAfter_evolves
    | with_reducible apply State.log_evolves
    | with_reducible apply State.measure_evolves
    | with_reducible apply State.recompute_evolves
    | with_reducible apply State.rekeyAfter_evolves
    | with_reducible apply State.rekeyDone_evolves
    | with_reducible apply State.retireKeys_evolves
    | with_reducible apply State.save_evolves
    | with_reducible apply State.setRecs_evolves
    | with_reducible refine State.evolves_upDict _ ?_
    | with_reducible assumption
    | with_reducible refine evolves_ite (fun _ => ?_) (fun _ => ?_)
    | with_reducible refine evolves_foldl (fun _ _ _ => ?_) ?_
    | split
theorem State.sendPrepare_evolves {r : State} (n : Nat) (recs : List StageRec) (s : State)
    (h : r.Evolves s) : r.Evolves (State.sendPrepare n recs s) := by
  unfold State.sendPrepare
  try dsimp only
  repeat' first
    | with_reducible exact h
    | with_reducible apply State.send_evolves
    | with_reducible assumption
    | with_reducible refine evolves_ite (fun _ => ?_) (fun _ => ?_)
    | with_reducible refine evolves_foldl (fun _ _ _ => ?_) ?_
    | split
theorem State.runCommit_evolves {r : State} (p : PairCommit) (s : State)
    (h : r.Evolves s) : EvolvesP r (State.runCommit p s) := by
  unfold State.runCommit
  try dsimp only
  repeat' first
    | with_reducible exact h
    | with_reducible apply State.applyBatch_evolves
    | with_reducible apply State.endCommit_evolves
    | with_reducible apply State.sendPrepare_evolves
    | with_reducible refine State.evolves_upDict _ ?_
    | with_reducible assumption
    | with_reducible refine evolves_ite (fun _ => ?_) (fun _ => ?_)
    | with_reducible refine evolves_foldl (fun _ _ _ => ?_) ?_
    | with_reducible refine evolvesP_ite ?_ ?_
    | with_reducible refine evolvesP_foldl (fun _ _ _ => ?_) ?_
    | split
    | with_reducible refine EvolvesP.snd ?_
    | with_reducible refine evolvesP_mk ?_
    | with_reducible refine EvolvesP.out (by assumption) ?_
theorem State.commit_evolves {r : State} (p : PairCommit) (logFault : Bool) (s : State)
    (h : r.Evolves s) : EvolvesP r (State.commit p logFault s) := by
  unfold State.commit
  try dsimp only
  repeat' first
    | with_reducible exact h
    | with_reducible apply State.endCommit_evolves
    | with_reducible apply State.log_evolves
    | with_reducible apply State.runCommit_evolves
    | with_reducible refine State.evolves_upDict _ ?_
    | with_reducible assumption
    | with_reducible refine evolves_ite (fun _ => ?_) (fun _ => ?_)
    | with_reducible refine evolves_foldl (fun _ _ _ => ?_) ?_
    | with_reducible refine evolvesP_ite ?_ ?_
    | with_reducible refine evolvesP_foldl (fun _ _ _ => ?_) ?_
    | split
    | with_reducible refine EvolvesP.snd ?_
    | with_reducible refine evolvesP_mk ?_
    | with_reducible refine EvolvesP.out (by assumption) ?_
theorem State.nextCommits_evolves {r : State} (x0 : Nat) (x1 : State)
    (h : r.Evolves x1) : r.Evolves (State.nextCommits x0 x1) := by
  induction x0 generalizing x1 with
  | zero => unfold State.nextCommits; first | exact h | exact evolvesP_mk h
  | succ n ih =>
    unfold State.nextCommits
    try dsimp only
    repeat' first
      | with_reducible exact h
      | with_reducible apply State.reply_evolves
      | with_reducible apply State.runCommit_evolves
      | with_reducible refine State.evolves_upDict _ ?_
      | with_reducible refine ih _ ?_
      | with_reducible assumption
      | with_reducible refine evolves_ite (fun _ => ?_) (fun _ => ?_)
      | with_reducible refine evolves_foldl (fun _ _ _ => ?_) ?_
      | with_reducible refine evolvesP_ite ?_ ?_
      | with_reducible refine evolvesP_foldl (fun _ _ _ => ?_) ?_
      | split
      | with_reducible refine EvolvesP.snd ?_
      | with_reducible refine evolvesP_mk ?_
      | with_reducible refine EvolvesP.out (by assumption) ?_
theorem State.endPair_evolves {r : State} (p : PairCommit) (code : Nat) (s : State)
    (h : r.Evolves s) : r.Evolves (State.endPair p code s) := by
  unfold State.endPair
  try dsimp only
  repeat' first
    | with_reducible exact h
    | with_reducible apply State.endCommit_evolves
    | with_reducible apply State.nextCommits_evolves
    | with_reducible apply State.reply_evolves
    | with_reducible refine State.evolves_upDict _ ?_
    | with_reducible assumption
    | with_reducible refine evolves_ite (fun _ => ?_) (fun _ => ?_)
    | with_reducible refine evolves_foldl (fun _ _ _ => ?_) ?_
    | split
theorem State.loseCommit_evolves {r : State} (s : State)
    (h : r.Evolves s) : r.Evolves (State.loseCommit s) := by
  unfold State.loseCommit
  try dsimp only
  repeat' first
    | with_reducible exact h
    | with_reducible apply State.endPair_evolves
    | with_reducible apply State.log_evolves
    | with_reducible refine State.evolves_upDict _ ?_
    | with_reducible assumption
    | with_reducible refine evolves_ite (fun _ => ?_) (fun _ => ?_)
    | with_reducible refine evolves_foldl (fun _ _ _ => ?_) ?_
    | split
theorem State.discard_evolves {r : State} (x0 : Role) (s : State)
    (h : r.Evolves s) : EvolvesP r (State.discard x0 s) := by
  unfold State.discard
  try dsimp only
  repeat' first
    | with_reducible exact h
    | with_reducible apply State.setBatch_evolves
    | with_reducible refine State.evolves_upDict _ ?_
    | with_reducible assumption
    | with_reducible refine evolves_ite (fun _ => ?_) (fun _ => ?_)
    | with_reducible refine evolves_foldl (fun _ _ _ => ?_) ?_
    | with_reducible refine evolvesP_ite ?_ ?_
    | with_reducible refine evolvesP_foldl (fun _ _ _ => ?_) ?_
    | split
    | with_reducible refine EvolvesP.snd ?_
    | with_reducible refine evolvesP_mk ?_
    | with_reducible refine EvolvesP.out (by assumption) ?_
theorem State.defaults_evolves {r : State} (s : State)
    (h : r.Evolves s) : r.Evolves (State.defaults s) := by
  unfold State.defaults
  try dsimp only
  repeat' first
    | with_reducible exact h
    | with_reducible refine State.evolves_upDict _ ?_
    | with_reducible refine State.evolves_upPerf _ ?_
    | with_reducible refine State.evolves_upTabs _ ?_
    | with_reducible assumption
    | with_reducible refine evolves_ite (fun _ => ?_) (fun _ => ?_)
    | with_reducible refine evolves_foldl (fun _ _ _ => ?_) ?_
    | split
theorem State.restore_evolves {r : State} (s : State)
    (h : r.Evolves s) : r.Evolves (State.restore s) := by
  unfold State.restore
  try dsimp only
  repeat' first
    | with_reducible exact h
    | with_reducible apply State.clearReservations_evolves
    | with_reducible apply State.defaults_evolves
    | with_reducible apply State.log_evolves
    | with_reducible apply State.measure_evolves
    | with_reducible apply State.recompute_evolves
    | with_reducible apply State.rekeyAfter_evolves
    | with_reducible apply State.rekeyDone_evolves
    | with_reducible refine State.evolves_upDict _ ?_
    | with_reducible assumption
    | with_reducible refine evolves_ite (fun _ => ?_) (fun _ => ?_)
    | with_reducible refine evolves_foldl (fun _ _ _ => ?_) ?_
    | split

end Sys2Proof.Machine
end

