-- ==== Sys2Proof/Laws/EvolvesSpans.lean ====
section
/-!
SUPPORT. How the operations of Machine/Spans.lean let the state evolve.
-/
namespace Sys2Proof.Machine

theorem State.refuse_evolves {r : State} (i : Nat) (code : Nat) (s : State)
    (h : r.Evolves s) : EvolvesP r (State.refuse i code s) := by
  unfold State.refuse
  try dsimp only
  repeat' first
    | with_reducible exact h
    | with_reducible apply State.setCtl_evolves
    | with_reducible assumption
    | with_reducible refine evolves_ite (fun _ => ?_) (fun _ => ?_)
    | with_reducible refine evolves_foldl (fun _ _ _ => ?_) ?_
    | with_reducible refine evolvesP_ite ?_ ?_
    | with_reducible refine evolvesP_foldl (fun _ _ _ => ?_) ?_
    | split
    | with_reducible refine EvolvesP.snd ?_
    | with_reducible refine evolvesP_mk ?_
    | with_reducible refine EvolvesP.out (by assumption) ?_
theorem State.begin_evolves {r : State} (i : Nat) (base : Nat) (len : Nat) (s : State)
    (h : r.Evolves s) : r.Evolves (State.begin i base len s) := by
  unfold State.begin
  try dsimp only
  repeat' first
    | with_reducible exact h
    | with_reducible apply State.putJob_evolves
    | with_reducible apply State.setCtl_evolves
    | with_reducible assumption
    | with_reducible refine evolves_ite (fun _ => ?_) (fun _ => ?_)
    | with_reducible refine evolves_foldl (fun _ _ _ => ?_) ?_
    | split
theorem State.changeGrains_evolves {r : State} (key : Nat) (code : Nat) (first : Nat) (count : Nat) (s : State)
    (h : r.Evolves s) : r.Evolves (State.changeGrains key code first count s) := by
  unfold State.changeGrains
  try dsimp only
  repeat' first
    | with_reducible exact h
    | with_reducible apply State.changeRun_evolves
    | with_reducible apply State.checkDies_evolves
    | with_reducible apply State.putJob_evolves
    | with_reducible apply State.sendChange_evolves
    | with_reducible apply State.setVal_evolves
    | with_reducible assumption
    | with_reducible refine evolves_ite (fun _ => ?_) (fun _ => ?_)
    | with_reducible refine evolves_foldl (fun _ _ _ => ?_) ?_
    | split
theorem State.zeroLine_evolves {r : State} (cmd : Nat) (line : Nat) (s : State)
    (h : r.Evolves s) : r.Evolves (State.zeroLine cmd line s) := by
  unfold State.zeroLine
  try dsimp only
  repeat' first
    | with_reducible exact h
    | with_reducible refine State.evolves_upReqs _ ?_
    | with_reducible assumption
    | with_reducible refine evolves_ite (fun _ => ?_) (fun _ => ?_)
    | with_reducible refine evolves_foldl (fun _ _ _ => ?_) ?_
    | split
theorem State.spanStart_evolves {r : State} (w : Who) (i : Nat) (align : Nat) (run : State → State) (s : State)
    (h : r.Evolves s) (hrun : ∀ t, r.Evolves t → r.Evolves (run t)) : EvolvesP r (State.spanStart w i align run s) := by
  unfold State.spanStart
  try dsimp only
  repeat' first
    | with_reducible exact h
    | with_reducible apply State.begin_evolves
    | with_reducible apply State.refuse_evolves
    | with_reducible apply State.setCtl_evolves
    | with_reducible apply State.setVal_evolves
    | with_reducible assumption
    | with_reducible refine evolves_ite (fun _ => ?_) (fun _ => ?_)
    | with_reducible refine evolves_foldl (fun _ _ _ => ?_) ?_
    | with_reducible refine evolvesP_ite ?_ ?_
    | with_reducible refine evolvesP_foldl (fun _ _ _ => ?_) ?_
    | with_reducible refine hrun _ ?_
    | (with_reducible intro _ _); dsimp only
    | with_reducible intro _ _
    | split
    | with_reducible refine EvolvesP.snd ?_
    | with_reducible refine evolvesP_mk ?_
    | with_reducible refine EvolvesP.out (by assumption) ?_
theorem State.zeroGrains_evolves {r : State} (s : State)
    (h : r.Evolves s) : r.Evolves (State.zeroGrains s) := by
  unfold State.zeroGrains
  try dsimp only
  repeat' first
    | with_reducible exact h
    | with_reducible apply State.changeGrains_evolves
    | with_reducible apply State.putJob_evolves
    | with_reducible assumption
    | with_reducible refine evolves_ite (fun _ => ?_) (fun _ => ?_)
    | with_reducible refine evolves_foldl (fun _ _ _ => ?_) ?_
    | split
theorem State.zeroRange_evolves {r : State} (s : State)
    (h : r.Evolves s) : r.Evolves (State.zeroRange s) := by
  unfold State.zeroRange
  try dsimp only
  repeat' first
    | with_reducible exact h
    | with_reducible apply State.putJob_evolves
    | with_reducible apply State.zeroGrains_evolves
    | with_reducible apply State.zeroLine_evolves
    | with_reducible assumption
    | with_reducible refine evolves_ite (fun _ => ?_) (fun _ => ?_)
    | with_reducible refine evolves_foldl (fun _ _ _ => ?_) ?_
    | split
theorem State.discardSpan_evolves {r : State} (s : State)
    (h : r.Evolves s) : r.Evolves (State.discardSpan s) := by
  unfold State.discardSpan
  try dsimp only
  repeat' first
    | with_reducible exact h
    | with_reducible apply State.changeGrains_evolves
    | with_reducible assumption
    | with_reducible refine evolves_ite (fun _ => ?_) (fun _ => ?_)
    | with_reducible refine evolves_foldl (fun _ _ _ => ?_) ?_
    | split
theorem State.eraseSpan_evolves {r : State} (key : Nat) (base : Nat) (len : Nat) (s : State)
    (h : r.Evolves s) : r.Evolves (State.eraseSpan key base len s) := by
  unfold State.eraseSpan
  try dsimp only
  repeat' first
    | with_reducible exact h
    | with_reducible apply State.changeGrains_evolves
    | with_reducible apply State.eraseStage_evolves
    | with_reducible assumption
    | with_reducible refine evolves_ite (fun _ => ?_) (fun _ => ?_)
    | with_reducible refine evolves_foldl (fun _ _ _ => ?_) ?_
    | split
theorem State.secureSpan_evolves {r : State} (s : State)
    (h : r.Evolves s) : r.Evolves (State.secureSpan s) := by
  unfold State.secureSpan
  try dsimp only
  repeat' first
    | with_reducible exact h
    | with_reducible apply State.eraseSpan_evolves
    | with_reducible assumption
    | with_reducible refine evolves_ite (fun _ => ?_) (fun _ => ?_)
    | with_reducible refine evolves_foldl (fun _ _ _ => ?_) ?_
    | split
theorem State.dropUnder_evolves {r : State} (id : Nat) (s : State)
    (h : r.Evolves s) : r.Evolves (State.dropUnder id s) := by
  unfold State.dropUnder
  try dsimp only
  repeat' first
    | with_reducible exact h
    | with_reducible apply State.endRes_evolves
    | with_reducible apply State.releaseAll_evolves
    | with_reducible apply State.unpoison_evolves
    | with_reducible refine State.evolves_upBudget _ ?_ ?_
    | with_reducible refine State.evolves_upFc _ ?_ ?_
    | with_reducible refine State.evolves_upReqs _ ?_
    | with_reducible refine State.evolves_upTier _ ?_ ?_
    | with_reducible exact fun _ _ _ k => k
    | with_reducible exact fun _ _ _ _ => Tab.sorted_nil
    | with_reducible exact fun _ _ _ k => Tab.sorted_put k
    | with_reducible exact fun _ _ _ k => Tab.sorted_erase k
    | with_reducible exact fun _ _ _ k => Tab.sorted_filter k
    | with_reducible exact fun _ _ _ k => Tab.sorted_filterKV k
    | (with_reducible intro b e q k); (with_reducible refine Tab.sorted_map (fun _ => ?_) k); repeat' first | rfl | split
    | with_reducible assumption
    | with_reducible refine evolves_ite (fun _ => ?_) (fun _ => ?_)
    | with_reducible refine evolves_foldl (fun _ _ _ => ?_) ?_
    | split
theorem State.freshKey_evolves {r : State} (id : Nat) (imported : Bool) (m : Option (BitVec 512)) (s : State)
    (h : r.Evolves s) : r.Evolves (State.freshKey id imported m s) := by
  unfold State.freshKey
  try dsimp only
  repeat' first
    | with_reducible exact h
    | with_reducible apply State.count_evolves
    | with_reducible apply State.measure_evolves
    | with_reducible refine State.evolves_upClk _ ?_ ?_
    | with_reducible refine State.evolves_upKeys _ ?_
    | with_reducible exact fun _ _ _ k => k
    | with_reducible exact Nat.le_refl _
    | with_reducible assumption
    | with_reducible refine evolves_ite (fun _ => ?_) (fun _ => ?_)
    | with_reducible refine evolves_foldl (fun _ _ _ => ?_) ?_
    | split
theorem State.cryptoKey_evolves {r : State} (id : Nat) (renew : Bool) (s : State)
    (h : r.Evolves s) : r.Evolves (State.cryptoKey id renew s) := by
  unfold State.cryptoKey
  try dsimp only
  repeat' first
    | with_reducible exact h
    | with_reducible apply State.destroyKey_evolves
    | with_reducible apply State.dropUnder_evolves
    | with_reducible apply State.freshKey_evolves
    | with_reducible apply State.mark_evolves
    | with_reducible refine State.evolves_upCmds _ ?_
    | with_reducible refine State.evolves_upKeys _ ?_
    | with_reducible assumption
    | with_reducible refine evolves_ite (fun _ => ?_) (fun _ => ?_)
    | with_reducible refine evolves_foldl (fun _ _ _ => ?_) ?_
    | split
theorem State.cryptoStart_evolves {r : State} (s : State)
    (h : r.Evolves s) : EvolvesP r (State.cryptoStart s) := by
  unfold State.cryptoStart
  try dsimp only
  repeat' first
    | with_reducible exact h
    | with_reducible apply State.cryptoKey_evolves
    | with_reducible apply State.putJob_evolves
    | with_reducible apply State.refuse_evolves
    | with_reducible apply State.send_evolves
    | with_reducible apply State.setCtl_evolves
    | with_reducible assumption
    | with_reducible refine evolves_ite (fun _ => ?_) (fun _ => ?_)
    | with_reducible refine evolves_foldl (fun _ _ _ => ?_) ?_
    | with_reducible refine evolvesP_ite ?_ ?_
    | with_reducible refine evolvesP_foldl (fun _ _ _ => ?_) ?_
    | split
    | with_reducible refine EvolvesP.snd ?_
    | with_reducible refine evolvesP_mk ?_
    | with_reducible refine EvolvesP.out (by assumption) ?_
theorem State.sweepOne_evolves {r : State} (s : State)
    (h : r.Evolves s) : r.Evolves (State.sweepOne s) := by
  unfold State.sweepOne
  try dsimp only
  repeat' first
    | with_reducible exact h
    | with_reducible apply State.checkDies_evolves
    | with_reducible apply State.finishRun_evolves
    | with_reducible apply State.retireKeys_evolves
    | with_reducible refine State.evolves_upCmds _ ?_
    | with_reducible assumption
    | with_reducible refine evolves_ite (fun _ => ?_) (fun _ => ?_)
    | with_reducible refine evolves_foldl (fun _ _ _ => ?_) ?_
    | split
theorem State.scrubRun_evolves {r : State} (base : Nat) (len : Nat) (flags : Nat) (s : State)
    (h : r.Evolves s) : r.Evolves (State.scrubRun base len flags s) := by
  unfold State.scrubRun
  try dsimp only
  repeat' first
    | with_reducible exact h
    | with_reducible apply State.askStrain_evolves
    | with_reducible apply State.putJob_evolves
    | with_reducible apply State.setCtl_evolves
    | with_reducible refine State.evolves_upCmds _ ?_
    | with_reducible refine State.evolves_upMbox _ ?_
    | with_reducible assumption
    | with_reducible refine evolves_ite (fun _ => ?_) (fun _ => ?_)
    | with_reducible refine evolves_foldl (fun _ _ _ => ?_) ?_
    | split
theorem State.scrubStart_evolves {r : State} (s : State)
    (h : r.Evolves s) : EvolvesP r (State.scrubStart s) := by
  unfold State.scrubStart
  try dsimp only
  repeat' first
    | with_reducible exact h
    | with_reducible apply State.refuse_evolves
    | with_reducible apply State.scrubRun_evolves
    | with_reducible assumption
    | with_reducible refine evolves_ite (fun _ => ?_) (fun _ => ?_)
    | with_reducible refine evolves_foldl (fun _ _ _ => ?_) ?_
    | with_reducible refine evolvesP_ite ?_ ?_
    | with_reducible refine evolvesP_foldl (fun _ _ _ => ?_) ?_
    | split
    | with_reducible refine EvolvesP.snd ?_
    | with_reducible refine evolvesP_mk ?_
    | with_reducible refine EvolvesP.out (by assumption) ?_
theorem State.scrubEnd_evolves {r : State} (ctl : Nat) (s : State)
    (h : r.Evolves s) : r.Evolves (State.scrubEnd ctl s) := by
  unfold State.scrubEnd
  try dsimp only
  repeat' first
    | with_reducible exact h
    | with_reducible apply State.dropJob_evolves
    | with_reducible apply State.giveLeave_evolves
    | with_reducible apply State.setCtl_evolves
    | with_reducible apply State.setVal_evolves
    | with_reducible assumption
    | with_reducible refine evolves_ite (fun _ => ?_) (fun _ => ?_)
    | with_reducible refine evolves_foldl (fun _ _ _ => ?_) ?_
    | split
theorem State.leaveBrine_evolves {r : State} (s : State)
    (h : r.Evolves s) : r.Evolves (State.leaveBrine s) := by
  unfold State.leaveBrine
  try dsimp only
  repeat' first
    | with_reducible exact h
    | with_reducible apply State.log_evolves
    | with_reducible refine State.evolves_upCare _ ?_ ?_
    | with_reducible exact fun _ _ _ k => k
    | (with_reducible intro b e q k); dsimp only at k ⊢; first | omega | (have ha := State.armCode_le s; omega) | ((with_reducible refine ⟨?_, k.2⟩); (repeat' first | (with_reducible refine Nat.le_trans (State.armCode_le _) ?_); decide | omega | split); done) | (have hm' := hm q; omega) | exact ⟨Nat.le_trans (State.armCode_le _) (by decide), k.2⟩ | (have ha := State.armCode_le _; constructor <;> repeat' first | omega | split)
    | with_reducible assumption
    | with_reducible refine evolves_ite (fun _ => ?_) (fun _ => ?_)
    | with_reducible refine evolves_foldl (fun _ _ _ => ?_) ?_
    | split
theorem State.answerRelease_evolves {r : State} (s : State)
    (h : r.Evolves s) : r.Evolves (State.answerRelease s) := by
  unfold State.answerRelease
  try dsimp only
  repeat' first
    | with_reducible exact h
    | with_reducible apply State.dropJob_evolves
    | with_reducible apply State.leaveBrine_evolves
    | with_reducible apply State.send_evolves
    | with_reducible assumption
    | with_reducible refine evolves_ite (fun _ => ?_) (fun _ => ?_)
    | with_reducible refine evolves_foldl (fun _ _ _ => ?_) ?_
    | split
theorem State.brineStart_evolves {r : State} (s : State)
    (h : r.Evolves s) : EvolvesP r (State.brineStart s) := by
  unfold State.brineStart
  try dsimp only
  repeat' first
    | with_reducible exact h
    | with_reducible apply State.leaveBrine_evolves
    | with_reducible apply State.putJob_evolves
    | with_reducible apply State.record_evolves
    | with_reducible apply State.refuse_evolves
    | with_reducible apply State.send_evolves
    | with_reducible apply State.setCtl_evolves
    | with_reducible assumption
    | with_reducible refine evolves_ite (fun _ => ?_) (fun _ => ?_)
    | with_reducible refine evolves_foldl (fun _ _ _ => ?_) ?_
    | with_reducible refine evolvesP_ite ?_ ?_
    | with_reducible refine evolvesP_foldl (fun _ _ _ => ?_) ?_
    | split
    | with_reducible refine EvolvesP.snd ?_
    | with_reducible refine evolvesP_mk ?_
    | with_reducible refine EvolvesP.out (by assumption) ?_
theorem State.cleanLine_evolves {r : State} (line : Nat) (s : State)
    (h : r.Evolves s) : EvolvesP r (State.cleanLine line s) := by
  unfold State.cleanLine
  try dsimp only
  repeat' first
    | with_reducible exact h
    | with_reducible apply State.fcPut_evolves
    | with_reducible apply State.pressSet_evolves
    | with_reducible apply State.tierWrite_evolves
    | with_reducible assumption
    | with_reducible refine evolves_ite (fun _ => ?_) (fun _ => ?_)
    | with_reducible refine evolves_foldl (fun _ _ _ => ?_) ?_
    | with_reducible exact evolvesO_get (by assumption)
    | with_reducible refine evolvesO_map (fun _ _ => ?_) ?_
    | with_reducible refine evolvesO_foldl (fun _ _ _ => ?_) ?_
    | exact evolvesO_none
    | with_reducible refine evolvesO_some ?_
    | with_reducible refine evolvesP_ite ?_ ?_
    | with_reducible refine evolvesP_foldl (fun _ _ _ => ?_) ?_
    | split
    | with_reducible refine EvolvesP.snd ?_
    | with_reducible refine evolvesP_mk ?_
    | with_reducible refine EvolvesP.out (by assumption) ?_
    | with_reducible refine EvolvesO.out (by assumption) ?_
theorem State.addVal_evolves {r : State} (i : Nat) (x1 : Nat) (n : Nat) (s : State)
    (h : r.Evolves s) : r.Evolves (State.addVal i x1 n s) := by
  unfold State.addVal
  try dsimp only
  repeat' first
    | with_reducible exact h
    | with_reducible apply State.setVal_evolves
    | with_reducible assumption
    | with_reducible refine evolves_ite (fun _ => ?_) (fun _ => ?_)
    | with_reducible refine evolves_foldl (fun _ _ _ => ?_) ?_
    | split
theorem State.cleanSome_evolves {r : State} (i : Nat) (s : State)
    (h : r.Evolves s) : r.Evolves (State.cleanSome i s) := by
  unfold State.cleanSome
  try dsimp only
  repeat' first
    | with_reducible exact h
    | with_reducible apply State.addVal_evolves
    | with_reducible apply State.cleanLine_evolves
    | with_reducible apply State.putJob_evolves
    | with_reducible assumption
    | with_reducible refine evolves_ite (fun _ => ?_) (fun _ => ?_)
    | with_reducible refine evolves_foldl (fun _ _ _ => ?_) ?_
    | with_reducible refine evolvesP_ite ?_ ?_
    | with_reducible refine evolvesP_foldl (fun _ _ _ => ?_) ?_
    | split
    | with_reducible refine EvolvesP.snd ?_
    | with_reducible refine evolvesP_mk ?_
    | with_reducible refine EvolvesP.out (by assumption) ?_
theorem State.invalidateSpan_evolves {r : State} (j : Job) (s : State)
    (h : r.Evolves s) : r.Evolves (State.invalidateSpan j s) := by
  unfold State.invalidateSpan
  try dsimp only
  repeat' first
    | with_reducible exact h
    | with_reducible apply State.addVal_evolves
    | with_reducible refine State.evolves_upFc _ ?_ ?_
    | with_reducible refine State.evolves_upTier _ ?_ ?_
    | with_reducible exact fun _ _ _ k => k
    | with_reducible exact fun _ _ _ _ => Tab.sorted_nil
    | with_reducible exact fun _ _ _ k => Tab.sorted_put k
    | with_reducible exact fun _ _ _ k => Tab.sorted_erase k
    | with_reducible exact fun _ _ _ k => Tab.sorted_filter k
    | with_reducible exact fun _ _ _ k => Tab.sorted_filterKV k
    | (with_reducible intro b e q k); (with_reducible refine Tab.sorted_map (fun _ => ?_) k); repeat' first | rfl | split
    | with_reducible assumption
    | with_reducible refine evolves_ite (fun _ => ?_) (fun _ => ?_)
    | with_reducible refine evolves_foldl (fun _ _ _ => ?_) ?_
    | split
theorem State.lockLine_evolves {r : State} (line : Nat) (s : State)
    (h : r.Evolves s) : r.Evolves (State.lockLine line s) := by
  unfold State.lockLine
  try dsimp only
  repeat' first
    | with_reducible exact h
    | with_reducible apply State.addVal_evolves
    | with_reducible apply State.fcFill_evolves
    | with_reducible apply State.fcPut_evolves
    | with_reducible apply State.putJob_evolves
    | with_reducible apply State.startFetch_evolves
    | with_reducible apply State.tierTouch_evolves
    | with_reducible apply State.wakeSlice_evolves
    | with_reducible assumption
    | with_reducible refine evolves_ite (fun _ => ?_) (fun _ => ?_)
    | with_reducible refine evolves_foldl (fun _ _ _ => ?_) ?_
    | split
theorem State.lockWaits_evolves {r : State} (s : State)
    (h : r.Evolves s) : r.Evolves (State.lockWaits s) := by
  unfold State.lockWaits
  try dsimp only
  repeat' first
    | with_reducible exact h
    | with_reducible apply State.putJob_evolves
    | with_reducible apply State.startFetch_evolves
    | with_reducible assumption
    | with_reducible refine evolves_ite (fun _ => ?_) (fun _ => ?_)
    | with_reducible refine evolves_foldl (fun _ _ _ => ?_) ?_
    | split
theorem State.lockSome_evolves {r : State} (s0 : State)
    (h : r.Evolves s0) : r.Evolves (State.lockSome s0) := by
  unfold State.lockSome
  try dsimp only
  repeat' first
    | with_reducible exact h
    | with_reducible apply State.addVal_evolves
    | with_reducible apply State.fcPut_evolves
    | with_reducible apply State.lockWaits_evolves
    | with_reducible apply State.putJob_evolves
    | with_reducible assumption
    | with_reducible refine evolves_ite (fun _ => ?_) (fun _ => ?_)
    | with_reducible refine evolves_foldl (fun _ _ _ => ?_) ?_
    | split
theorem State.maintRun_evolves {r : State} (i : Nat) (base : Nat) (len : Nat) (flags : Nat) (s : State)
    (h : r.Evolves s) : r.Evolves (State.maintRun i base len flags s) := by
  unfold State.maintRun
  try dsimp only
  repeat' first
    | with_reducible exact h
    | with_reducible apply State.addVal_evolves
    | with_reducible apply State.cleanSome_evolves
    | with_reducible apply State.fcPut_evolves
    | with_reducible apply State.invalidateSpan_evolves
    | with_reducible apply State.lockLine_evolves
    | with_reducible apply State.putJob_evolves
    | with_reducible apply State.setCtl_evolves
    | with_reducible apply State.setVal_evolves
    | with_reducible apply State.zeroLine_evolves
    | with_reducible assumption
    | with_reducible refine evolves_ite (fun _ => ?_) (fun _ => ?_)
    | with_reducible refine evolves_foldl (fun _ _ _ => ?_) ?_
    | split
theorem State.maintChecks_evolves {r : State} (found : List (Nat × CacheFault)) (i : Nat) (base : Nat) (len : Nat) (s : State)
    (h : r.Evolves s) : r.Evolves (State.maintChecks found i base len s) := by
  unfold State.maintChecks
  try dsimp only
  repeat' first
    | with_reducible exact h
    | with_reducible apply State.checkFault_evolves
    | with_reducible assumption
    | with_reducible refine evolves_ite (fun _ => ?_) (fun _ => ?_)
    | with_reducible refine evolves_foldl (fun _ _ _ => ?_) ?_
    | split
theorem State.maintStart_evolves {r : State} (w : Who) (i : Nat) (found : List (Nat × CacheFault)) (s : State)
    (h : r.Evolves s) : EvolvesP r (State.maintStart w i found s) := by
  unfold State.maintStart
  try dsimp only
  repeat' first
    | with_reducible exact h
    | with_reducible apply State.maintChecks_evolves
    | with_reducible apply State.maintRun_evolves
    | with_reducible apply State.refuse_evolves
    | with_reducible apply State.setCtl_evolves
    | with_reducible apply State.setVal_evolves
    | with_reducible assumption
    | with_reducible refine evolves_ite (fun _ => ?_) (fun _ => ?_)
    | with_reducible refine evolves_foldl (fun _ _ _ => ?_) ?_
    | with_reducible refine evolvesP_ite ?_ ?_
    | with_reducible refine evolvesP_foldl (fun _ _ _ => ?_) ?_
    | split
    | with_reducible refine EvolvesP.snd ?_
    | with_reducible refine evolvesP_mk ?_
    | with_reducible refine EvolvesP.out (by assumption) ?_
theorem State.maintDone_evolves {r : State} (i : Nat) (s : State)
    (h : r.Evolves s) : r.Evolves (State.maintDone i s) := by
  unfold State.maintDone
  try dsimp only
  repeat' first
    | with_reducible exact h
    | with_reducible apply State.cleanSome_evolves
    | with_reducible apply State.dropJob_evolves
    | with_reducible apply State.invalidateSpan_evolves
    | with_reducible apply State.lockSome_evolves
    | with_reducible apply State.setCtl_evolves
    | with_reducible assumption
    | with_reducible refine evolves_ite (fun _ => ?_) (fun _ => ?_)
    | with_reducible refine evolves_foldl (fun _ _ _ => ?_) ?_
    | split

end Sys2Proof.Machine
end

