-- ==== Sys2Proof/Laws/EvolvesControl.lean ====
section
/-!
SUPPORT. How the operations of Machine/Control.lean let the state evolve.
-/
namespace Sys2Proof.Machine

theorem State.prepareStart_evolves {r : State} (s : State)
    (h : r.Evolves s) : EvolvesP r (State.prepareStart s) := by
  unfold State.prepareStart
  try dsimp only
  repeat' first
    | with_reducible exact h
    | with_reducible apply State.setCtl_evolves
    | with_reducible apply State.setVal_evolves
    | with_reducible assumption
    | with_reducible refine evolves_ite (fun _ => ?_) (fun _ => ?_)
    | with_reducible refine evolves_foldl (fun _ _ _ => ?_) ?_
    | with_reducible refine evolvesP_ite ?_ ?_
    | with_reducible refine evolvesP_foldl (fun _ _ _ => ?_) ?_
    | split
    | with_reducible refine EvolvesP.snd ?_
    | with_reducible refine evolvesP_mk ?_
    | with_reducible refine EvolvesP.out (by assumption) ?_
theorem State.prepareCancel_evolves {r : State} (s : State)
    (h : r.Evolves s) : EvolvesP r (State.prepareCancel s) := by
  unfold State.prepareCancel
  try dsimp only
  repeat' first
    | with_reducible exact h
    | with_reducible apply State.setCtl_evolves
    | with_reducible assumption
    | with_reducible refine evolves_ite (fun _ => ?_) (fun _ => ?_)
    | with_reducible refine evolves_foldl (fun _ _ _ => ?_) ?_
    | with_reducible refine evolvesP_ite ?_ ?_
    | with_reducible refine evolvesP_foldl (fun _ _ _ => ?_) ?_
    | split
    | with_reducible refine EvolvesP.snd ?_
    | with_reducible refine evolvesP_mk ?_
    | with_reducible refine EvolvesP.out (by assumption) ?_
theorem State.prepared_evolves {r : State} (s : State)
    (h : r.Evolves s) : r.Evolves (State.prepared s) := by
  unfold State.prepared
  try dsimp only
  repeat' first
    | with_reducible exact h
    | with_reducible apply State.beginLap_evolves
    | with_reducible apply State.log_evolves
    | with_reducible apply State.setCtl_evolves
    | with_reducible apply State.setVal_evolves
    | with_reducible refine State.evolves_upPwr _ ?_ ?_
    | with_reducible exact fun _ _ _ k => k
    | (with_reducible intro b e q k); dsimp only at k ⊢; first | omega | (have ha := State.armCode_le s; omega) | ((with_reducible refine ⟨?_, k.2⟩); (repeat' first | (with_reducible refine Nat.le_trans (State.armCode_le _) ?_); decide | omega | split); done) | (have hm' := hm q; omega) | exact ⟨Nat.le_trans (State.armCode_le _) (by decide), k.2⟩ | (have ha := State.armCode_le _; constructor <;> repeat' first | omega | split)
    | with_reducible assumption
    | with_reducible refine evolves_ite (fun _ => ?_) (fun _ => ?_)
    | with_reducible refine evolves_foldl (fun _ _ _ => ?_) ?_
    | split
theorem State.identifyStart_evolves {r : State} (s : State)
    (h : r.Evolves s) : EvolvesP r (State.identifyStart s) := by
  unfold State.identifyStart
  try dsimp only
  repeat' first
    | with_reducible exact h
    | with_reducible refine State.evolves_upCmds _ ?_
    | with_reducible assumption
    | with_reducible refine evolves_ite (fun _ => ?_) (fun _ => ?_)
    | with_reducible refine evolves_foldl (fun _ _ _ => ?_) ?_
    | with_reducible refine evolvesP_ite ?_ ?_
    | with_reducible refine evolvesP_foldl (fun _ _ _ => ?_) ?_
    | split
    | with_reducible refine EvolvesP.snd ?_
    | with_reducible refine evolvesP_mk ?_
    | with_reducible refine EvolvesP.out (by assumption) ?_
theorem State.identifyStop_evolves {r : State} (s : State)
    (h : r.Evolves s) : EvolvesP r (State.identifyStop s) := by
  unfold State.identifyStop
  try dsimp only
  repeat' first
    | with_reducible exact h
    | with_reducible refine State.evolves_upCmds _ ?_
    | with_reducible assumption
    | with_reducible refine evolves_ite (fun _ => ?_) (fun _ => ?_)
    | with_reducible refine evolves_foldl (fun _ _ _ => ?_) ?_
    | with_reducible refine evolvesP_ite ?_ ?_
    | with_reducible refine evolvesP_foldl (fun _ _ _ => ?_) ?_
    | split
    | with_reducible refine EvolvesP.snd ?_
    | with_reducible refine evolvesP_mk ?_
    | with_reducible refine EvolvesP.out (by assumption) ?_
theorem State.keyRefused_evolves {r : State} (s : State)
    (h : r.Evolves s) : EvolvesP r (State.keyRefused s) := by
  unfold State.keyRefused
  try dsimp only
  repeat' first
    | with_reducible exact h
    | with_reducible refine State.evolves_upKeys _ ?_
    | with_reducible assumption
    | with_reducible refine evolves_ite (fun _ => ?_) (fun _ => ?_)
    | with_reducible refine evolves_foldl (fun _ _ _ => ?_) ?_
    | with_reducible refine evolvesP_ite ?_ ?_
    | with_reducible refine evolvesP_foldl (fun _ _ _ => ?_) ?_
    | split
    | with_reducible refine EvolvesP.snd ?_
    | with_reducible refine evolvesP_mk ?_
    | with_reducible refine EvolvesP.out (by assumption) ?_
theorem State.keyGenerate_evolves {r : State} (id : Nat) (s : State)
    (h : r.Evolves s) : EvolvesP r (State.keyGenerate id s) := by
  unfold State.keyGenerate
  try dsimp only
  repeat' first
    | with_reducible exact h
    | with_reducible apply State.freshKey_evolves
    | with_reducible apply State.keyRefused_evolves
    | with_reducible apply State.log_evolves
    | with_reducible refine State.evolves_upKeys _ ?_
    | with_reducible assumption
    | with_reducible refine evolves_ite (fun _ => ?_) (fun _ => ?_)
    | with_reducible refine evolves_foldl (fun _ _ _ => ?_) ?_
    | with_reducible refine evolvesP_ite ?_ ?_
    | with_reducible refine evolvesP_foldl (fun _ _ _ => ?_) ?_
    | split
    | with_reducible refine EvolvesP.snd ?_
    | with_reducible refine evolvesP_mk ?_
    | with_reducible refine EvolvesP.out (by assumption) ?_
theorem State.keyImport_evolves {r : State} (id : Nat) (v : ImportVerdict) (s : State)
    (h : r.Evolves s) : EvolvesP r (State.keyImport id v s) := by
  unfold State.keyImport
  try dsimp only
  repeat' first
    | with_reducible exact h
    | with_reducible apply State.freshKey_evolves
    | with_reducible apply State.keyRefused_evolves
    | with_reducible apply State.log_evolves
    | with_reducible refine State.evolves_upKeys _ ?_
    | with_reducible assumption
    | with_reducible refine evolves_ite (fun _ => ?_) (fun _ => ?_)
    | with_reducible refine evolves_foldl (fun _ _ _ => ?_) ?_
    | with_reducible refine evolvesP_ite ?_ ?_
    | with_reducible refine evolvesP_foldl (fun _ _ _ => ?_) ?_
    | split
    | with_reducible refine EvolvesP.snd ?_
    | with_reducible refine evolvesP_mk ?_
    | with_reducible refine EvolvesP.out (by assumption) ?_
theorem State.keyRegenerate_evolves {r : State} (s : State)
    (h : r.Evolves s) : EvolvesP r (State.keyRegenerate s) := by
  unfold State.keyRegenerate
  try dsimp only
  repeat' first
    | with_reducible exact h
    | with_reducible apply State.setCtl_evolves
    | with_reducible refine State.evolves_upKeys _ ?_
    | with_reducible assumption
    | with_reducible refine evolves_ite (fun _ => ?_) (fun _ => ?_)
    | with_reducible refine evolves_foldl (fun _ _ _ => ?_) ?_
    | with_reducible refine evolvesP_ite ?_ ?_
    | with_reducible refine evolvesP_foldl (fun _ _ _ => ?_) ?_
    | split
    | with_reducible refine EvolvesP.snd ?_
    | with_reducible refine evolvesP_mk ?_
    | with_reducible refine EvolvesP.out (by assumption) ?_
theorem State.attestStart_evolves {r : State} (x0 : Role) (s : State)
    (h : r.Evolves s) : EvolvesP r (State.attestStart x0 s) := by
  unfold State.attestStart
  try dsimp only
  repeat' first
    | with_reducible exact h
    | with_reducible refine State.evolves_upKeys _ ?_
    | with_reducible assumption
    | with_reducible refine evolves_ite (fun _ => ?_) (fun _ => ?_)
    | with_reducible refine evolves_foldl (fun _ _ _ => ?_) ?_
    | with_reducible refine evolvesP_ite ?_ ?_
    | with_reducible refine evolvesP_foldl (fun _ _ _ => ?_) ?_
    | split
    | with_reducible refine EvolvesP.snd ?_
    | with_reducible refine evolvesP_mk ?_
    | with_reducible refine EvolvesP.out (by assumption) ?_
theorem State.attestDone_evolves {r : State} (s : State)
    (h : r.Evolves s) : r.Evolves (State.attestDone s) := by
  unfold State.attestDone
  try dsimp only
  repeat' first
    | with_reducible exact h
    | with_reducible refine State.evolves_upKeys _ ?_
    | with_reducible assumption
    | with_reducible refine evolves_ite (fun _ => ?_) (fun _ => ?_)
    | with_reducible refine evolves_foldl (fun _ _ _ => ?_) ?_
    | split
theorem State.rekeyStart_evolves {r : State} (s : State)
    (h : r.Evolves s) : EvolvesP r (State.rekeyStart s) := by
  unfold State.rekeyStart
  try dsimp only
  repeat' first
    | with_reducible exact h
    | with_reducible apply State.refuse_evolves
    | with_reducible apply State.rekeyDone_evolves
    | with_reducible apply State.rekeyRun_evolves
    | with_reducible apply State.setCtl_evolves
    | with_reducible refine State.evolves_upTabs _ ?_
    | with_reducible assumption
    | with_reducible refine evolves_ite (fun _ => ?_) (fun _ => ?_)
    | with_reducible refine evolves_foldl (fun _ _ _ => ?_) ?_
    | with_reducible refine evolvesP_ite ?_ ?_
    | with_reducible refine evolvesP_foldl (fun _ _ _ => ?_) ?_
    | split
    | with_reducible refine EvolvesP.snd ?_
    | with_reducible refine evolvesP_mk ?_
    | with_reducible refine EvolvesP.out (by assumption) ?_
theorem State.drainLine_evolves {r : State} (line : Nat) (x : FcLine) (s : State)
    (h : r.Evolves s) : r.Evolves (State.drainLine line x s) := by
  unfold State.drainLine
  try dsimp only
  repeat' first
    | with_reducible exact h
    | with_reducible apply State.fcDrop_evolves
    | with_reducible apply State.fcPut_evolves
    | with_reducible apply State.moveToTier_evolves
    | with_reducible apply State.pressSet_evolves
    | with_reducible refine State.evolves_upFc _ ?_ ?_
    | with_reducible exact fun _ _ _ k => k
    | with_reducible exact fun _ _ _ _ => Tab.sorted_nil
    | with_reducible exact fun _ _ _ k => Tab.sorted_put k
    | with_reducible exact fun _ _ _ k => Tab.sorted_erase k
    | with_reducible exact fun _ _ _ k => Tab.sorted_filter k
    | with_reducible exact fun _ _ _ k => Tab.sorted_filterKV k
    | (with_reducible intro b e q k); (with_reducible refine Tab.sorted_map (fun _ => ?_) k); repeat' first | rfl | split
    | with_reducible assumption
    | with_reducible refine evolves_ite (fun _ => ?_) (fun _ => ?_)
    | with_reducible refine evolves_foldl (fun _ _ _ => ?_) ?_
    | with_reducible exact evolvesO_get (by assumption)
    | with_reducible refine evolvesO_map (fun _ _ => ?_) ?_
    | with_reducible refine evolvesO_foldl (fun _ _ _ => ?_) ?_
    | exact evolvesO_none
    | with_reducible refine evolvesO_some ?_
    | split
    | with_reducible refine EvolvesO.out (by assumption) ?_
theorem State.fcDrain_evolves {r : State} (s : State)
    (h : r.Evolves s) : r.Evolves (State.fcDrain s) := by
  unfold State.fcDrain
  try dsimp only
  repeat' first
    | with_reducible exact h
    | with_reducible apply State.drainLine_evolves
    | with_reducible assumption
    | with_reducible refine evolves_ite (fun _ => ?_) (fun _ => ?_)
    | with_reducible refine evolves_foldl (fun _ _ _ => ?_) ?_
    | split
theorem State.fcEnable_evolves {r : State} (on : Bool) (s : State)
    (h : r.Evolves s) : EvolvesP r (State.fcEnable on s) := by
  unfold State.fcEnable
  try dsimp only
  repeat' first
    | with_reducible exact h
    | with_reducible apply State.fcDrain_evolves
    | with_reducible apply State.log_evolves
    | with_reducible apply State.setEntry_evolves
    | with_reducible refine State.evolves_upFc _ ?_ ?_
    | with_reducible exact fun _ _ _ k => k
    | with_reducible exact fun _ _ _ _ => Tab.sorted_nil
    | with_reducible exact fun _ _ _ k => Tab.sorted_put k
    | with_reducible exact fun _ _ _ k => Tab.sorted_erase k
    | with_reducible exact fun _ _ _ k => Tab.sorted_filter k
    | with_reducible exact fun _ _ _ k => Tab.sorted_filterKV k
    | (with_reducible intro b e q k); (with_reducible refine Tab.sorted_map (fun _ => ?_) k); repeat' first | rfl | split
    | with_reducible assumption
    | with_reducible refine evolves_ite (fun _ => ?_) (fun _ => ?_)
    | with_reducible refine evolves_foldl (fun _ _ _ => ?_) ?_
    | with_reducible refine evolvesP_ite ?_ ?_
    | with_reducible refine evolvesP_foldl (fun _ _ _ => ?_) ?_
    | split
    | with_reducible refine EvolvesP.snd ?_
    | with_reducible refine evolvesP_mk ?_
    | with_reducible refine EvolvesP.out (by assumption) ?_
theorem State.fcDrained_evolves {r : State} (s : State)
    (h : r.Evolves s) : r.Evolves (State.fcDrained s) := by
  unfold State.fcDrained
  try dsimp only
  repeat' first
    | with_reducible exact h
    | with_reducible apply State.fcDrain_evolves
    | with_reducible apply State.log_evolves
    | with_reducible refine State.evolves_upFc _ ?_ ?_
    | with_reducible exact fun _ _ _ k => k
    | with_reducible exact fun _ _ _ _ => Tab.sorted_nil
    | with_reducible exact fun _ _ _ k => Tab.sorted_put k
    | with_reducible exact fun _ _ _ k => Tab.sorted_erase k
    | with_reducible exact fun _ _ _ k => Tab.sorted_filter k
    | with_reducible exact fun _ _ _ k => Tab.sorted_filterKV k
    | (with_reducible intro b e q k); (with_reducible refine Tab.sorted_map (fun _ => ?_) k); repeat' first | rfl | split
    | with_reducible assumption
    | with_reducible refine evolves_ite (fun _ => ?_) (fun _ => ?_)
    | with_reducible refine evolves_foldl (fun _ _ _ => ?_) ?_
    | split
theorem State.putSlot_evolves {r : State} (f : FwSlot → FwSlot) (s : State)
    (h : r.Evolves s) : r.Evolves (State.putSlot f s) := by
  unfold State.putSlot
  try dsimp only
  repeat' first
    | with_reducible exact h
    | with_reducible apply State.measure_evolves
    | with_reducible refine State.evolves_upFw _ ?_
    | with_reducible assumption
    | with_reducible refine evolves_ite (fun _ => ?_) (fun _ => ?_)
    | with_reducible refine evolves_foldl (fun _ _ _ => ?_) ?_
    | split
theorem State.fwBegin_evolves {r : State} (s : State)
    (h : r.Evolves s) : EvolvesP r (State.fwBegin s) := by
  unfold State.fwBegin
  try dsimp only
  repeat' first
    | with_reducible exact h
    | with_reducible apply State.putSlot_evolves
    | with_reducible refine State.evolves_upFw _ ?_
    | with_reducible assumption
    | with_reducible refine evolves_ite (fun _ => ?_) (fun _ => ?_)
    | with_reducible refine evolves_foldl (fun _ _ _ => ?_) ?_
    | with_reducible refine evolvesP_ite ?_ ?_
    | with_reducible refine evolvesP_foldl (fun _ _ _ => ?_) ?_
    | split
    | with_reducible refine EvolvesP.snd ?_
    | with_reducible refine evolvesP_mk ?_
    | with_reducible refine EvolvesP.out (by assumption) ?_
theorem State.fwChunk_evolves {r : State} (off : Nat) (bs : Bytes) (s : State)
    (h : r.Evolves s) : EvolvesP r (State.fwChunk off bs s) := by
  unfold State.fwChunk
  try dsimp only
  repeat' first
    | with_reducible exact h
    | with_reducible apply State.putSlot_evolves
    | with_reducible apply State.setEntry_evolves
    | with_reducible refine State.evolves_upFw _ ?_
    | with_reducible assumption
    | with_reducible refine evolves_ite (fun _ => ?_) (fun _ => ?_)
    | with_reducible refine evolves_foldl (fun _ _ _ => ?_) ?_
    | with_reducible refine evolvesP_ite ?_ ?_
    | with_reducible refine evolvesP_foldl (fun _ _ _ => ?_) ?_
    | split
    | with_reducible refine EvolvesP.snd ?_
    | with_reducible refine evolvesP_mk ?_
    | with_reducible refine EvolvesP.out (by assumption) ?_
theorem State.fwVerify_evolves {r : State} (s : State)
    (h : r.Evolves s) : EvolvesP r (State.fwVerify s) := by
  unfold State.fwVerify
  try dsimp only
  repeat' first
    | with_reducible exact h
    | with_reducible refine State.evolves_upFw _ ?_
    | with_reducible assumption
    | with_reducible refine evolves_ite (fun _ => ?_) (fun _ => ?_)
    | with_reducible refine evolves_foldl (fun _ _ _ => ?_) ?_
    | with_reducible refine evolvesP_ite ?_ ?_
    | with_reducible refine evolvesP_foldl (fun _ _ _ => ?_) ?_
    | split
    | with_reducible refine EvolvesP.snd ?_
    | with_reducible refine evolvesP_mk ?_
    | with_reducible refine EvolvesP.out (by assumption) ?_
theorem State.fwActivate_evolves {r : State} (s : State)
    (h : r.Evolves s) : EvolvesP r (State.fwActivate s) := by
  unfold State.fwActivate
  try dsimp only
  repeat' first
    | with_reducible exact h
    | with_reducible apply State.startFast_evolves
    | with_reducible refine State.evolves_upFw _ ?_
    | with_reducible assumption
    | with_reducible refine evolves_ite (fun _ => ?_) (fun _ => ?_)
    | with_reducible refine evolves_foldl (fun _ _ _ => ?_) ?_
    | with_reducible refine evolvesP_ite ?_ ?_
    | with_reducible refine evolvesP_foldl (fun _ _ _ => ?_) ?_
    | split
    | with_reducible refine EvolvesP.snd ?_
    | with_reducible refine evolvesP_mk ?_
    | with_reducible refine EvolvesP.out (by assumption) ?_
theorem State.fwCancel_evolves {r : State} (s : State)
    (h : r.Evolves s) : EvolvesP r (State.fwCancel s) := by
  unfold State.fwCancel
  try dsimp only
  repeat' first
    | with_reducible exact h
    | with_reducible refine State.evolves_upFw _ ?_
    | with_reducible assumption
    | with_reducible refine evolves_ite (fun _ => ?_) (fun _ => ?_)
    | with_reducible refine evolves_foldl (fun _ _ _ => ?_) ?_
    | with_reducible refine evolvesP_ite ?_ ?_
    | with_reducible refine evolvesP_foldl (fun _ _ _ => ?_) ?_
    | split
    | with_reducible refine EvolvesP.snd ?_
    | with_reducible refine evolvesP_mk ?_
    | with_reducible refine EvolvesP.out (by assumption) ?_
theorem State.fwDone_evolves {r : State} (v : FwVerdict) (s : State)
    (h : r.Evolves s) : r.Evolves (State.fwDone v s) := by
  unfold State.fwDone
  try dsimp only
  repeat' first
    | with_reducible exact h
    | with_reducible refine State.evolves_upFw _ ?_
    | with_reducible assumption
    | with_reducible refine evolves_ite (fun _ => ?_) (fun _ => ?_)
    | with_reducible refine evolves_foldl (fun _ _ _ => ?_) ?_
    | split
theorem State.testEnter_evolves {r : State} (s : State)
    (h : r.Evolves s) : EvolvesP r (State.testEnter s) := by
  unfold State.testEnter
  try dsimp only
  repeat' first
    | with_reducible exact h
    | with_reducible apply State.dropSet_evolves
    | with_reducible apply State.refuse_evolves
    | with_reducible apply State.setCtl_evolves
    | with_reducible refine State.evolves_upPwr _ ?_ ?_
    | with_reducible exact fun _ _ _ k => k
    | (with_reducible intro b e q k); dsimp only at k ⊢; first | omega | (have ha := State.armCode_le s; omega) | ((with_reducible refine ⟨?_, k.2⟩); (repeat' first | (with_reducible refine Nat.le_trans (State.armCode_le _) ?_); decide | omega | split); done) | (have hm' := hm q; omega) | exact ⟨Nat.le_trans (State.armCode_le _) (by decide), k.2⟩ | (have ha := State.armCode_le _; constructor <;> repeat' first | omega | split)
    | with_reducible assumption
    | with_reducible refine evolves_ite (fun _ => ?_) (fun _ => ?_)
    | with_reducible refine evolves_foldl (fun _ _ _ => ?_) ?_
    | with_reducible refine evolvesP_ite ?_ ?_
    | with_reducible refine evolvesP_foldl (fun _ _ _ => ?_) ?_
    | split
    | with_reducible refine EvolvesP.snd ?_
    | with_reducible refine evolvesP_mk ?_
    | with_reducible refine EvolvesP.out (by assumption) ?_
theorem State.testLeave_evolves {r : State} (s : State)
    (h : r.Evolves s) : EvolvesP r (State.testLeave s) := by
  unfold State.testLeave
  try dsimp only
  repeat' first
    | with_reducible exact h
    | with_reducible apply State.setCtl_evolves
    | with_reducible apply State.testEnd_evolves
    | (with_reducible intro b e q k); dsimp only at k ⊢; first | omega | (have ha := State.armCode_le s; omega) | ((with_reducible refine ⟨?_, k.2⟩); (repeat' first | (with_reducible refine Nat.le_trans (State.armCode_le _) ?_); decide | omega | split); done) | (have hm' := hm q; omega) | exact ⟨Nat.le_trans (State.armCode_le _) (by decide), k.2⟩ | (have ha := State.armCode_le _; constructor <;> repeat' first | omega | split)
    | with_reducible assumption
    | with_reducible refine evolves_ite (fun _ => ?_) (fun _ => ?_)
    | with_reducible refine evolves_foldl (fun _ _ _ => ?_) ?_
    | with_reducible refine evolvesP_ite ?_ ?_
    | with_reducible refine evolvesP_foldl (fun _ _ _ => ?_) ?_
    | split
    | with_reducible refine EvolvesP.snd ?_
    | with_reducible refine evolvesP_mk ?_
    | with_reducible refine EvolvesP.out (by assumption) ?_
theorem State.selfTestStart_evolves {r : State} (x0 : Role) (s : State)
    (h : r.Evolves s) : EvolvesP r (State.selfTestStart x0 s) := by
  unfold State.selfTestStart
  try dsimp only
  repeat' first
    | with_reducible exact h
    | with_reducible apply State.putJob_evolves
    | with_reducible apply State.refuse_evolves
    | with_reducible apply State.setCtl_evolves
    | with_reducible apply State.setVal_evolves
    | with_reducible refine State.evolves_upTier _ ?_ ?_
    | with_reducible exact fun _ _ _ k => k
    | with_reducible exact fun _ _ _ _ => Tab.sorted_nil
    | with_reducible exact fun _ _ _ k => Tab.sorted_put k
    | with_reducible exact fun _ _ _ k => Tab.sorted_erase k
    | with_reducible exact fun _ _ _ k => Tab.sorted_filter k
    | with_reducible exact fun _ _ _ k => Tab.sorted_filterKV k
    | (with_reducible intro b e q k); (with_reducible refine Tab.sorted_map (fun _ => ?_) k); repeat' first | rfl | split
    | with_reducible assumption
    | with_reducible refine evolves_ite (fun _ => ?_) (fun _ => ?_)
    | with_reducible refine evolves_foldl (fun _ _ _ => ?_) ?_
    | with_reducible refine evolvesP_ite ?_ ?_
    | with_reducible refine evolvesP_foldl (fun _ _ _ => ?_) ?_
    | split
    | with_reducible refine EvolvesP.snd ?_
    | with_reducible refine evolvesP_mk ?_
    | with_reducible refine EvolvesP.out (by assumption) ?_
theorem State.selfTestCancel_evolves {r : State} (s : State)
    (h : r.Evolves s) : EvolvesP r (State.selfTestCancel s) := by
  unfold State.selfTestCancel
  try dsimp only
  repeat' first
    | with_reducible exact h
    | with_reducible apply State.dropJob_evolves
    | with_reducible apply State.setCtl_evolves
    | with_reducible assumption
    | with_reducible refine evolves_ite (fun _ => ?_) (fun _ => ?_)
    | with_reducible refine evolves_foldl (fun _ _ _ => ?_) ?_
    | with_reducible refine evolvesP_ite ?_ ?_
    | with_reducible refine evolvesP_foldl (fun _ _ _ => ?_) ?_
    | split
    | with_reducible refine EvolvesP.snd ?_
    | with_reducible refine evolvesP_mk ?_
    | with_reducible refine EvolvesP.out (by assumption) ?_
theorem State.testGroup_evolves {r : State} (bad : List Nat) (g : Nat) (s : State)
    (h : r.Evolves s) : r.Evolves (State.testGroup bad g s) := by
  unfold State.testGroup
  try dsimp only
  repeat' first
    | with_reducible exact h
    | with_reducible apply State.dropCols_evolves
    | with_reducible apply State.setGroup_evolves
    | with_reducible apply State.wearOut_evolves
    | with_reducible assumption
    | with_reducible refine evolves_ite (fun _ => ?_) (fun _ => ?_)
    | with_reducible refine evolves_foldl (fun _ _ _ => ?_) ?_
    | split
theorem State.selfTestDone_evolves {r : State} (errors : Nat) (first : Nat) (bad : List Nat) (s : State)
    (h : r.Evolves s) : r.Evolves (State.selfTestDone errors first bad s) := by
  unfold State.selfTestDone
  try dsimp only
  repeat' first
    | with_reducible exact h
    | with_reducible apply State.checkDies_evolves
    | with_reducible apply State.dropJob_evolves
    | with_reducible apply State.setCtl_evolves
    | with_reducible apply State.setVal_evolves
    | with_reducible apply State.testGroup_evolves
    | with_reducible assumption
    | with_reducible refine evolves_ite (fun _ => ?_) (fun _ => ?_)
    | with_reducible refine evolves_foldl (fun _ _ _ => ?_) ?_
    | split

end Sys2Proof.Machine
end

