-- ==== Sys2Proof/Laws/EvolvesPair.lean ====
section
/-!
SUPPORT. How the operations of Machine/Pair.lean let the state evolve.
-/
namespace Sys2Proof.Machine

theorem State.becomeSole_evolves {r : State} (cause : Nat) (s : State)
    (h : r.Evolves s) : r.Evolves (State.becomeSole cause s) := by
  unfold State.becomeSole
  try dsimp only
  repeat' first
    | with_reducible exact h
    | with_reducible apply State.dropJob_evolves
    | with_reducible apply State.enterSole_evolves
    | with_reducible apply State.leaveBrine_evolves
    | with_reducible apply State.loseCommit_evolves
    | with_reducible apply State.record_evolves
    | with_reducible apply State.setCtl_evolves
    | with_reducible apply State.soleJobs_evolves
    | with_reducible assumption
    | with_reducible refine evolves_ite (fun _ => ?_) (fun _ => ?_)
    | with_reducible refine evolves_foldl (fun _ _ _ => ?_) ?_
    | split
theorem State.becomeFenced_evolves {r : State} (s : State)
    (h : r.Evolves s) : r.Evolves (State.becomeFenced s) := by
  unfold State.becomeFenced
  try dsimp only
  repeat' first
    | with_reducible exact h
    | with_reducible apply State.enterFenced_evolves
    | with_reducible apply State.loseCommit_evolves
    | with_reducible assumption
    | with_reducible refine evolves_ite (fun _ => ?_) (fun _ => ?_)
    | with_reducible refine evolves_foldl (fun _ _ _ => ?_) ?_
    | split
theorem State.enterPaired_evolves {r : State} (m : Membership) (s : State)
    (h : r.Evolves s) : r.Evolves (State.enterPaired m s) := by
  unfold State.enterPaired
  try dsimp only
  repeat' first
    | with_reducible exact h
    | with_reducible apply State.log_evolves
    | with_reducible apply State.setMember_evolves
    | with_reducible apply State.writeRecord_evolves
    | with_reducible refine State.evolves_upYoke _ ?_ ?_
    | with_reducible exact fun _ _ _ k => k
    | exact fun _ => by decide
    | exact fun _ => hm
    | omega
    | exact fun q => q.1.2.2.2.1
    | decide
    | with_reducible assumption
    | with_reducible refine evolves_ite (fun _ => ?_) (fun _ => ?_)
    | with_reducible refine evolves_foldl (fun _ _ _ => ?_) ?_
    | split
theorem State.endResync_evolves {r : State} (s : State)
    (h : r.Evolves s) : r.Evolves (State.endResync s) := by
  unfold State.endResync
  try dsimp only
  repeat' first
    | with_reducible exact h
    | with_reducible apply State.enterPaired_evolves
    | with_reducible apply State.log_evolves
    | with_reducible assumption
    | with_reducible refine evolves_ite (fun _ => ?_) (fun _ => ?_)
    | with_reducible refine evolves_foldl (fun _ _ _ => ?_) ?_
    | split
theorem State.adoptTables_evolves {r : State} (recs : List StageRec) (s : State)
    (h : r.Evolves s) : r.Evolves (State.adoptTables recs s) := by
  unfold State.adoptTables
  try dsimp only
  repeat' first
    | with_reducible exact h
    | with_reducible apply State.clearReservations_evolves
    | with_reducible apply State.keysAfter_evolves
    | with_reducible apply State.measure_evolves
    | with_reducible apply State.rekeyAfter_evolves
    | with_reducible apply State.save_evolves
    | with_reducible apply State.setRecs_evolves
    | with_reducible refine State.evolves_upTabs _ ?_
    | with_reducible assumption
    | with_reducible refine evolves_ite (fun _ => ?_) (fun _ => ?_)
    | with_reducible refine evolves_foldl (fun _ _ _ => ?_) ?_
    | split
theorem State.wipe_evolves {r : State} (op : Nat) (key : Nat) (s : State)
    (h : r.Evolves s) : r.Evolves (State.wipe op key s) := by
  unfold State.wipe
  try dsimp only
  repeat' first
    | with_reducible exact h
    | with_reducible apply State.cryptoKey_evolves
    | with_reducible apply State.eraseSpan_evolves
    | with_reducible apply State.eraseStage_evolves
    | with_reducible apply State.heldToFenced_evolves
    | with_reducible apply State.putJob_evolves
    | with_reducible refine State.evolves_upMbox _ ?_
    | with_reducible assumption
    | with_reducible refine evolves_ite (fun _ => ?_) (fun _ => ?_)
    | with_reducible refine evolves_foldl (fun _ _ _ => ?_) ?_
    | split
theorem State.wipeStart_evolves {r : State} (op : Nat) (s : State)
    (h : r.Evolves s) : r.Evolves (State.wipeStart op s) := by
  unfold State.wipeStart
  try dsimp only
  repeat' first
    | with_reducible exact h
    | with_reducible apply State.putJob_evolves
    | with_reducible apply State.send_evolves
    | with_reducible apply State.wipe_evolves
    | with_reducible assumption
    | with_reducible refine evolves_ite (fun _ => ?_) (fun _ => ?_)
    | with_reducible refine evolves_foldl (fun _ _ _ => ?_) ?_
    | split
theorem State.carryNotice_evolves {r : State} (code : Nat) (keyId : Nat) (base : Nat) (len : Nat) (fresh : Bool) (s : State)
    (h : r.Evolves s) : r.Evolves (State.carryNotice code keyId base len fresh s) := by
  unfold State.carryNotice
  try dsimp only
  repeat' first
    | with_reducible exact h
    | with_reducible apply State.answerRelease_evolves
    | with_reducible apply State.cryptoKey_evolves
    | with_reducible apply State.enterBrine_evolves
    | with_reducible apply State.eraseSpan_evolves
    | with_reducible apply State.eraseStage_evolves
    | with_reducible apply State.putJob_evolves
    | with_reducible apply State.wipe_evolves
    | with_reducible assumption
    | with_reducible refine evolves_ite (fun _ => ?_) (fun _ => ?_)
    | with_reducible refine evolves_foldl (fun _ _ _ => ?_) ?_
    | split
theorem State.noticeAnswer_evolves {r : State} (key : Nat) (s : State)
    (h : r.Evolves s) : r.Evolves (State.noticeAnswer key s) := by
  unfold State.noticeAnswer
  try dsimp only
  repeat' first
    | with_reducible exact h
    | with_reducible apply State.dropJob_evolves
    | with_reducible apply State.leaveBrine_evolves
    | with_reducible apply State.putJob_evolves
    | with_reducible apply State.setCtl_evolves
    | with_reducible assumption
    | with_reducible refine evolves_ite (fun _ => ?_) (fun _ => ?_)
    | with_reducible refine evolves_foldl (fun _ _ _ => ?_) ?_
    | split
theorem State.takeNotice_evolves {r : State} (code : Nat) (keyId : Nat) (base : Nat) (len : Nat) (s : State)
    (h : r.Evolves s) : r.Evolves (State.takeNotice code keyId base len s) := by
  unfold State.takeNotice
  try dsimp only
  repeat' first
    | with_reducible exact h
    | with_reducible apply State.carryNotice_evolves
    | with_reducible apply State.checkDies_evolves
    | with_reducible apply State.noticeAnswer_evolves
    | with_reducible assumption
    | with_reducible refine evolves_ite (fun _ => ?_) (fun _ => ?_)
    | with_reducible refine evolves_foldl (fun _ _ _ => ?_) ?_
    | split
theorem State.feed_evolves {r : State} (m : Membership) (newcomer : Bool) (s : State)
    (h : r.Evolves s) : r.Evolves (State.feed m newcomer s) := by
  unfold State.feed
  try dsimp only
  repeat' first
    | with_reducible exact h
    | with_reducible apply State.mark_evolves
    | with_reducible apply State.startResync_evolves
    | with_reducible refine State.evolves_upYoke _ ?_ ?_
    | with_reducible exact fun _ _ _ k => k
    | exact fun _ => by decide
    | exact fun _ => hm
    | omega
    | exact fun q => q.1.2.2.2.1
    | decide
    | with_reducible assumption
    | with_reducible refine evolves_ite (fun _ => ?_) (fun _ => ?_)
    | with_reducible refine evolves_foldl (fun _ _ _ => ?_) ?_
    | split
theorem State.receive_evolves {r : State} (m : Membership) (x : HelloInfo) (newcomer : Bool) (s : State)
    (h : r.Evolves s) : r.Evolves (State.receive m x newcomer s) := by
  unfold State.receive
  try dsimp only
  repeat' first
    | with_reducible exact h
    | with_reducible apply State.adoptTables_evolves
    | with_reducible apply State.carryNotice_evolves
    | with_reducible apply State.changeRun_evolves
    | with_reducible apply State.forgetLines_evolves
    | with_reducible apply State.startResync_evolves
    | exact fun _ => by decide
    | exact fun _ => hm
    | omega
    | exact fun q => q.1.2.2.2.1
    | decide
    | with_reducible assumption
    | with_reducible refine evolves_ite (fun _ => ?_) (fun _ => ?_)
    | with_reducible refine evolves_foldl (fun _ _ _ => ?_) ?_
    | split
theorem State.handshake_evolves {r : State} (m : Membership) (x : HelloInfo) (s : State)
    (h : r.Evolves s) : r.Evolves (State.handshake m x s) := by
  unfold State.handshake
  try dsimp only
  repeat' first
    | with_reducible exact h
    | with_reducible apply State.adoptTables_evolves
    | with_reducible apply State.clearReservations_evolves
    | with_reducible apply State.dropHeld_evolves
    | with_reducible apply State.endResync_evolves
    | with_reducible apply State.enterBrine_evolves
    | with_reducible apply State.enterPaired_evolves
    | with_reducible apply State.feed_evolves
    | with_reducible apply State.log_evolves
    | with_reducible apply State.receive_evolves
    | with_reducible apply State.setMember_evolves
    | with_reducible refine State.evolves_upYoke _ ?_ ?_
    | with_reducible exact fun _ _ _ k => k
    | exact fun _ => by decide
    | exact fun _ => hm
    | omega
    | exact fun q => q.1.2.2.2.1
    | decide
    | with_reducible assumption
    | with_reducible refine evolves_ite (fun _ => ?_) (fun _ => ?_)
    | with_reducible refine evolves_foldl (fun _ _ _ => ?_) ?_
    | split
theorem State.heard_evolves {r : State} (s : State)
    (h : r.Evolves s) : r.Evolves (State.heard s) := by
  unfold State.heard
  try dsimp only
  repeat' first
    | with_reducible exact h
    | with_reducible apply State.sendMember_evolves
    | with_reducible refine State.evolves_upYoke _ ?_ ?_
    | with_reducible exact fun _ _ _ k => k
    | with_reducible assumption
    | with_reducible refine evolves_ite (fun _ => ?_) (fun _ => ?_)
    | with_reducible refine evolves_foldl (fun _ _ _ => ?_) ?_
    | split
theorem State.goSilent_evolves {r : State} (s : State)
    (h : r.Evolves s) : r.Evolves (State.goSilent s) := by
  unfold State.goSilent
  try dsimp only
  repeat' first
    | with_reducible exact h
    | with_reducible apply State.enterSuspect_evolves
    | with_reducible apply State.log_evolves
    | with_reducible apply State.loseCommit_evolves
    | with_reducible refine State.evolves_upYoke _ ?_ ?_
    | with_reducible exact fun _ _ _ k => k
    | with_reducible assumption
    | with_reducible refine evolves_ite (fun _ => ?_) (fun _ => ?_)
    | with_reducible refine evolves_foldl (fun _ _ _ => ?_) ?_
    | split
theorem State.yokeDown_evolves {r : State} (s : State)
    (h : r.Evolves s) : r.Evolves (State.yokeDown s) := by
  unfold State.yokeDown
  try dsimp only
  repeat' first
    | with_reducible exact h
    | with_reducible apply State.goSilent_evolves
    | with_reducible refine State.evolves_upYoke _ ?_ ?_
    | with_reducible exact fun _ _ _ k => k
    | with_reducible assumption
    | with_reducible refine evolves_ite (fun _ => ?_) (fun _ => ?_)
    | with_reducible refine evolves_foldl (fun _ _ _ => ?_) ?_
    | split
theorem State.resume_evolves {r : State} (m : Membership) (s : State)
    (h : r.Evolves s) : r.Evolves (State.resume m s) := by
  unfold State.resume
  try dsimp only
  repeat' first
    | with_reducible exact h
    | with_reducible apply State.leaveSuspect_evolves
    | with_reducible apply State.sendHeld_evolves
    | with_reducible apply State.workPail_evolves
    | with_reducible assumption
    | with_reducible refine evolves_ite (fun _ => ?_) (fun _ => ?_)
    | with_reducible refine evolves_foldl (fun _ _ _ => ?_) ?_
    | split
theorem State.notePeer_evolves {r : State} (m : Membership) (s : State)
    (h : r.Evolves s) : r.Evolves (State.notePeer m s) := by
  unfold State.notePeer
  try dsimp only
  repeat' first
    | with_reducible exact h
    | with_reducible refine State.evolves_upYoke _ ?_ ?_
    | with_reducible exact fun _ _ _ k => k
    | with_reducible assumption
    | with_reducible refine evolves_ite (fun _ => ?_) (fun _ => ?_)
    | with_reducible refine evolves_foldl (fun _ _ _ => ?_) ?_
    | split
theorem State.soleAfterStandDown_evolves {r : State} (s : State)
    (h : r.Evolves s) : r.Evolves (State.soleAfterStandDown s) := by
  unfold State.soleAfterStandDown
  try dsimp only
  repeat' first
    | with_reducible exact h
    | with_reducible apply State.becomeSole_evolves
    | with_reducible apply State.log_evolves
    | with_reducible assumption
    | with_reducible refine evolves_ite (fun _ => ?_) (fun _ => ?_)
    | with_reducible refine evolves_foldl (fun _ _ _ => ?_) ?_
    | split
theorem State.decideNow_evolves {r : State} (s : State)
    (h : r.Evolves s) : r.Evolves (State.decideNow s) := by
  unfold State.decideNow
  try dsimp only
  repeat' first
    | with_reducible exact h
    | with_reducible apply State.becomeFenced_evolves
    | with_reducible apply State.becomeSole_evolves
    | with_reducible apply State.soleAfterStandDown_evolves
    | with_reducible assumption
    | with_reducible refine evolves_ite (fun _ => ?_) (fun _ => ?_)
    | with_reducible refine evolves_foldl (fun _ _ _ => ?_) ?_
    | split
theorem State.peerStoodDown_evolves {r : State} (m : Membership) (s : State)
    (h : r.Evolves s) : r.Evolves (State.peerStoodDown m s) := by
  unfold State.peerStoodDown
  try dsimp only
  repeat' first
    | with_reducible exact h
    | with_reducible apply State.becomeFenced_evolves
    | with_reducible apply State.becomeSole_evolves
    | with_reducible apply State.log_evolves
    | with_reducible apply State.notePeer_evolves
    | with_reducible refine State.evolves_upYoke _ ?_ ?_
    | with_reducible exact fun _ _ _ k => k
    | with_reducible assumption
    | with_reducible refine evolves_ite (fun _ => ?_) (fun _ => ?_)
    | with_reducible refine evolves_foldl (fun _ _ _ => ?_) ?_
    | split
theorem State.feedGrain_evolves {r : State} (g : Nat) (reads : List WordRead) (s : State)
    (h : r.Evolves s) : r.Evolves (State.feedGrain g reads s) := by
  unfold State.feedGrain
  try dsimp only
  repeat' first
    | with_reducible exact h
    | with_reducible apply State.loseLines_evolves
    | with_reducible apply State.moveRebuilt_evolves
    | with_reducible apply State.readLines_evolves
    | with_reducible apply State.send_evolves
    | with_reducible refine State.evolves_upYoke _ ?_ ?_
    | with_reducible exact fun _ _ _ k => k
    | with_reducible assumption
    | with_reducible refine evolves_ite (fun _ => ?_) (fun _ => ?_)
    | with_reducible refine evolves_foldl (fun _ _ _ => ?_) ?_
    | with_reducible refine evolvesP_ite ?_ ?_
    | with_reducible refine evolvesP_foldl (fun _ _ _ => ?_) ?_
    | split
    | with_reducible refine EvolvesP.snd ?_
    | with_reducible refine evolvesP_mk ?_
    | with_reducible refine EvolvesP.out (by assumption) ?_
theorem State.takeSector_evolves {r : State} (g : Nat) (sector : Nat) (st : Nat) (data : List Line) (bad : BitVec 32) (s : State)
    (h : r.Evolves s) : r.Evolves (State.takeSector g sector st data bad s) := by
  unfold State.takeSector
  try dsimp only
  repeat' first
    | with_reducible exact h
    | with_reducible apply State.dropLine_evolves
    | with_reducible apply State.endRes_evolves
    | with_reducible apply State.finishRun_evolves
    | with_reducible apply State.runResync_evolves
    | with_reducible apply State.send_evolves
    | with_reducible apply State.unpoison_evolves
    | with_reducible refine State.evolves_upYoke _ ?_ ?_
    | with_reducible exact fun _ _ _ k => k
    | with_reducible assumption
    | with_reducible refine evolves_ite (fun _ => ?_) (fun _ => ?_)
    | with_reducible refine evolves_foldl (fun _ _ _ => ?_) ?_
    | split
theorem State.resyncAcked_evolves {r : State} (g : Nat) (s : State)
    (h : r.Evolves s) : r.Evolves (State.resyncAcked g s) := by
  unfold State.resyncAcked
  try dsimp only
  repeat' first
    | with_reducible exact h
    | with_reducible apply State.endResync_evolves
    | with_reducible apply State.send_evolves
    | with_reducible apply State.unmark_evolves
    | with_reducible refine State.evolves_upYoke _ ?_ ?_
    | with_reducible exact fun _ _ _ k => k
    | with_reducible assumption
    | with_reducible refine evolves_ite (fun _ => ?_) (fun _ => ?_)
    | with_reducible refine evolves_foldl (fun _ _ _ => ?_) ?_
    | split
theorem State.resyncCleared_evolves {r : State} (g : Nat) (s : State)
    (h : r.Evolves s) : r.Evolves (State.resyncCleared g s) := by
  unfold State.resyncCleared
  try dsimp only
  repeat' first
    | with_reducible exact h
    | with_reducible apply State.endResync_evolves
    | with_reducible apply State.unmark_evolves
    | with_reducible refine State.evolves_upYoke _ ?_ ?_
    | with_reducible exact fun _ _ _ k => k
    | with_reducible assumption
    | with_reducible refine evolves_ite (fun _ => ?_) (fun _ => ?_)
    | with_reducible refine evolves_foldl (fun _ _ _ => ?_) ?_
    | split
theorem State.takeBitmap_evolves {r : State} (unit : Nat) (set : List Nat) (s : State)
    (h : r.Evolves s) : r.Evolves (State.takeBitmap unit set s) := by
  unfold State.takeBitmap
  try dsimp only
  repeat' first
    | with_reducible exact h
    | with_reducible apply State.forgetLines_evolves
    | with_reducible apply State.mark_evolves
    | with_reducible apply State.startResync_evolves
    | exact fun _ => by decide
    | exact fun _ => hm
    | omega
    | exact fun q => q.1.2.2.2.1
    | decide
    | with_reducible assumption
    | with_reducible refine evolves_ite (fun _ => ?_) (fun _ => ?_)
    | with_reducible refine evolves_foldl (fun _ _ _ => ?_) ?_
    | split
theorem State.takePrepare_evolves {r : State} (batch : Nat) (seg : Nat) (last : Bool) (recs : List StageRec) (s : State)
    (h : r.Evolves s) : r.Evolves (State.takePrepare batch seg last recs s) := by
  unfold State.takePrepare
  try dsimp only
  repeat' first
    | with_reducible exact h
    | with_reducible apply State.send_evolves
    | with_reducible refine State.evolves_upDict _ ?_
    | with_reducible assumption
    | with_reducible refine evolves_ite (fun _ => ?_) (fun _ => ?_)
    | with_reducible refine evolves_foldl (fun _ _ _ => ?_) ?_
    | split
theorem State.takeVote_evolves {r : State} (batch : Nat) (code : Nat) (s : State)
    (h : r.Evolves s) : r.Evolves (State.takeVote batch code s) := by
  unfold State.takeVote
  try dsimp only
  repeat' first
    | with_reducible exact h
    | with_reducible apply State.endPair_evolves
    | with_reducible apply State.send_evolves
    | with_reducible refine State.evolves_upDict _ ?_
    | with_reducible assumption
    | with_reducible refine evolves_ite (fun _ => ?_) (fun _ => ?_)
    | with_reducible refine evolves_foldl (fun _ _ _ => ?_) ?_
    | split
theorem State.takeApply_evolves {r : State} (batch : Nat) (s : State)
    (h : r.Evolves s) : r.Evolves (State.takeApply batch s) := by
  unfold State.takeApply
  try dsimp only
  repeat' first
    | with_reducible exact h
    | with_reducible apply State.applyBatch_evolves
    | with_reducible apply State.send_evolves
    | with_reducible refine State.evolves_upDict _ ?_
    | with_reducible assumption
    | with_reducible refine evolves_ite (fun _ => ?_) (fun _ => ?_)
    | with_reducible refine evolves_foldl (fun _ _ _ => ?_) ?_
    | split
theorem State.takeDone_evolves {r : State} (batch : Nat) (s : State)
    (h : r.Evolves s) : r.Evolves (State.takeDone batch s) := by
  unfold State.takeDone
  try dsimp only
  repeat' first
    | with_reducible exact h
    | with_reducible apply State.applyBatch_evolves
    | with_reducible apply State.endPair_evolves
    | with_reducible assumption
    | with_reducible refine evolves_ite (fun _ => ?_) (fun _ => ?_)
    | with_reducible refine evolves_foldl (fun _ _ _ => ?_) ?_
    | split
theorem State.pairDone_evolves {r : State} (s : State)
    (h : r.Evolves s) : EvolvesP r (State.pairDone s) := by
  unfold State.pairDone
  try dsimp only
  repeat' first
    | with_reducible exact h
    | with_reducible apply State.setCtl_evolves
    | with_reducible assumption
    | with_reducible refine evolves_ite (fun _ => ?_) (fun _ => ?_)
    | with_reducible refine evolves_foldl (fun _ _ _ => ?_) ?_
    | with_reducible refine evolvesP_ite ?_ ?_
    | with_reducible refine evolvesP_foldl (fun _ _ _ => ?_) ?_
    | split
    | with_reducible refine EvolvesP.snd ?_
    | with_reducible refine evolvesP_mk ?_
    | with_reducible refine EvolvesP.out (by assumption) ?_
theorem State.pairJoin_evolves {r : State} (s : State)
    (h : r.Evolves s) : EvolvesP r (State.pairJoin s) := by
  unfold State.pairJoin
  try dsimp only
  repeat' first
    | with_reducible exact h
    | with_reducible apply State.pairDone_evolves
    | with_reducible apply State.refuse_evolves
    | with_reducible apply State.sendMember_evolves
    | with_reducible refine State.evolves_upYoke _ ?_ ?_
    | with_reducible exact fun _ _ _ k => k
    | with_reducible assumption
    | with_reducible refine evolves_ite (fun _ => ?_) (fun _ => ?_)
    | with_reducible refine evolves_foldl (fun _ _ _ => ?_) ?_
    | with_reducible refine evolvesP_ite ?_ ?_
    | with_reducible refine evolvesP_foldl (fun _ _ _ => ?_) ?_
    | split
    | with_reducible refine EvolvesP.snd ?_
    | with_reducible refine evolvesP_mk ?_
    | with_reducible refine EvolvesP.out (by assumption) ?_
theorem State.pairPrevail_evolves {r : State} (s : State)
    (h : r.Evolves s) : EvolvesP r (State.pairPrevail s) := by
  unfold State.pairPrevail
  try dsimp only
  repeat' first
    | with_reducible exact h
    | with_reducible apply State.endResync_evolves
    | with_reducible apply State.feed_evolves
    | with_reducible apply State.pairDone_evolves
    | with_reducible apply State.refuse_evolves
    | with_reducible apply State.sendMember_evolves
    | with_reducible refine State.evolves_upYoke _ ?_ ?_
    | with_reducible exact fun _ _ _ k => k
    | with_reducible assumption
    | with_reducible refine evolves_ite (fun _ => ?_) (fun _ => ?_)
    | with_reducible refine evolves_foldl (fun _ _ _ => ?_) ?_
    | with_reducible refine evolvesP_ite ?_ ?_
    | with_reducible refine evolvesP_foldl (fun _ _ _ => ?_) ?_
    | split
    | with_reducible refine EvolvesP.snd ?_
    | with_reducible refine evolvesP_mk ?_
    | with_reducible refine EvolvesP.out (by assumption) ?_
theorem State.pairForceSole_evolves {r : State} (s : State)
    (h : r.Evolves s) : EvolvesP r (State.pairForceSole s) := by
  unfold State.pairForceSole
  try dsimp only
  repeat' first
    | with_reducible exact h
    | with_reducible apply State.becomeSole_evolves
    | with_reducible apply State.pairDone_evolves
    | with_reducible apply State.refuse_evolves
    | with_reducible refine State.evolves_upYoke _ ?_ ?_
    | with_reducible exact fun _ _ _ k => k
    | with_reducible assumption
    | with_reducible refine evolves_ite (fun _ => ?_) (fun _ => ?_)
    | with_reducible refine evolves_foldl (fun _ _ _ => ?_) ?_
    | with_reducible refine evolvesP_ite ?_ ?_
    | with_reducible refine evolvesP_foldl (fun _ _ _ => ?_) ?_
    | split
    | with_reducible refine EvolvesP.snd ?_
    | with_reducible refine evolvesP_mk ?_
    | with_reducible refine EvolvesP.out (by assumption) ?_
theorem State.withdrawNow_evolves {r : State} (s : State)
    (h : r.Evolves s) : r.Evolves (State.withdrawNow s) := by
  unfold State.withdrawNow
  try dsimp only
  repeat' first
    | with_reducible exact h
    | with_reducible apply State.abandonJobs_evolves
    | with_reducible apply State.clearReservations_evolves
    | with_reducible apply State.dropHeld_evolves
    | with_reducible apply State.loseCommit_evolves
    | with_reducible apply State.sendMember_evolves
    | with_reducible apply State.sendPulse_evolves
    | with_reducible apply State.writeRecord_evolves
    | with_reducible refine State.evolves_upObs _ ?_ ?_
    | with_reducible refine State.evolves_upYoke _ ?_ ?_
    | with_reducible exact fun _ _ _ k => k
    | with_reducible exact fun _ _ _ _ => Tab.sorted_nil
    | with_reducible exact fun _ _ _ k => Tab.sorted_put k
    | with_reducible exact fun _ _ _ k => Tab.sorted_erase k
    | with_reducible exact fun _ _ _ k => Tab.sorted_filter k
    | with_reducible exact fun _ _ _ k => Tab.sorted_filterKV k
    | (with_reducible intro b e q k); (with_reducible refine Tab.sorted_map (fun _ => ?_) k); repeat' first | rfl | split
    | (with_reducible intro b e q k); dsimp only at k ⊢; first | omega | (have ha := State.armCode_le s; omega) | ((with_reducible refine ⟨?_, k.2⟩); (repeat' first | (with_reducible refine Nat.le_trans (State.armCode_le _) ?_); decide | omega | split); done) | (have hm' := hm q; omega) | exact ⟨Nat.le_trans (State.armCode_le _) (by decide), k.2⟩ | (have ha := State.armCode_le _; constructor <;> repeat' first | omega | split)
    | (with_reducible intro b e q k); unfold Yoke.dropWork; with_reducible exact k
    | with_reducible assumption
    | with_reducible refine evolves_ite (fun _ => ?_) (fun _ => ?_)
    | with_reducible refine evolves_foldl (fun _ _ _ => ?_) ?_
    | split
theorem State.pairWithdraw_evolves {r : State} (s : State)
    (h : r.Evolves s) : EvolvesP r (State.pairWithdraw s) := by
  unfold State.pairWithdraw
  try dsimp only
  repeat' first
    | with_reducible exact h
    | with_reducible apply State.pairDone_evolves
    | with_reducible apply State.refuse_evolves
    | with_reducible apply State.withdrawNow_evolves
    | with_reducible assumption
    | with_reducible refine evolves_ite (fun _ => ?_) (fun _ => ?_)
    | with_reducible refine evolves_foldl (fun _ _ _ => ?_) ?_
    | with_reducible refine evolvesP_ite ?_ ?_
    | with_reducible refine evolvesP_foldl (fun _ _ _ => ?_) ?_
    | split
    | with_reducible refine EvolvesP.snd ?_
    | with_reducible refine evolvesP_mk ?_
    | with_reducible refine EvolvesP.out (by assumption) ?_
theorem State.pairLeave_evolves {r : State} (s : State)
    (h : r.Evolves s) : EvolvesP r (State.pairLeave s) := by
  unfold State.pairLeave
  try dsimp only
  repeat' first
    | with_reducible exact h
    | with_reducible apply State.heldToSole_evolves
    | with_reducible apply State.loseCommit_evolves
    | with_reducible apply State.pairDone_evolves
    | with_reducible apply State.refuse_evolves
    | with_reducible apply State.sendMember_evolves
    | with_reducible apply State.sendPulse_evolves
    | with_reducible apply State.soleJobs_evolves
    | with_reducible apply State.writeRecord_evolves
    | with_reducible refine State.evolves_upYoke _ ?_ ?_
    | with_reducible exact fun _ _ _ k => k
    | (with_reducible intro b e q k); dsimp only at k ⊢; first | omega | (have ha := State.armCode_le s; omega) | ((with_reducible refine ⟨?_, k.2⟩); (repeat' first | (with_reducible refine Nat.le_trans (State.armCode_le _) ?_); decide | omega | split); done) | (have hm' := hm q; omega) | exact ⟨Nat.le_trans (State.armCode_le _) (by decide), k.2⟩ | (have ha := State.armCode_le _; constructor <;> repeat' first | omega | split)
    | (with_reducible intro b e q k); unfold Yoke.dropWork; with_reducible exact k
    | with_reducible assumption
    | with_reducible refine evolves_ite (fun _ => ?_) (fun _ => ?_)
    | with_reducible refine evolves_foldl (fun _ _ _ => ?_) ?_
    | with_reducible refine evolvesP_ite ?_ ?_
    | with_reducible refine evolvesP_foldl (fun _ _ _ => ?_) ?_
    | split
    | with_reducible refine EvolvesP.snd ?_
    | with_reducible refine evolvesP_mk ?_
    | with_reducible refine EvolvesP.out (by assumption) ?_

end Sys2Proof.Machine
end

