-- ==== Sys2Proof/Laws/EvolvesCounters.lean ====
section
/-!
SUPPORT. How the operations of Machine/Counters.lean let the state evolve.
-/
namespace Sys2Proof.Machine

theorem State.snapshot_evolves {r : State} (clear : Bool) (s : State)
    (h : r.Evolves s) : EvolvesP r (State.snapshot clear s) := by
  unfold State.snapshot
  try dsimp only
  repeat' first
    | with_reducible exact h
    | with_reducible refine State.evolves_upPerf _ ?_
    | with_reducible assumption
    | with_reducible refine evolves_ite (fun _ => ?_) (fun _ => ?_)
    | with_reducible refine evolves_foldl (fun _ _ _ => ?_) ?_
    | with_reducible refine evolvesP_ite ?_ ?_
    | with_reducible refine evolvesP_foldl (fun _ _ _ => ?_) ?_
    | split
    | with_reducible refine EvolvesP.snd ?_
    | with_reducible refine evolvesP_mk ?_
    | with_reducible refine EvolvesP.out (by assumption) ?_
theorem execCounterSnapshotReady_evolves {r : State} (s : State)
    (h : r.Evolves s) : AnswersE r (execCounterSnapshotReady s) := by
  unfold execCounterSnapshotReady
  try dsimp only
  repeat' first
    | with_reducible exact h
    | with_reducible refine State.evolves_upPerf _ ?_
    | with_reducible assumption
    | with_reducible refine evolves_ite (fun _ => ?_) (fun _ => ?_)
    | with_reducible refine evolves_foldl (fun _ _ _ => ?_) ?_
    | with_reducible refine answersE_next ?_
    | split
theorem execCounterWrap_evolves {r : State} (block : Nat) (n : Nat) (addr : Nat) (partner : Nat) (s : State)
    (h : r.Evolves s) : AnswersE r (execCounterWrap block n addr partner s) := by
  unfold execCounterWrap
  try dsimp only
  repeat' first
    | with_reducible exact h
    | with_reducible apply State.wrap_evolves
    | with_reducible assumption
    | with_reducible refine evolves_ite (fun _ => ?_) (fun _ => ?_)
    | with_reducible refine evolves_foldl (fun _ _ _ => ?_) ?_
    | with_reducible refine answersE_next ?_
    | split
theorem State.thaw_evolves {r : State} (s : State)
    (h : r.Evolves s) : r.Evolves (State.thaw s) := by
  unfold State.thaw
  try dsimp only
  repeat' first
    | with_reducible exact h
    | with_reducible apply State.closePeriod_evolves
    | with_reducible refine State.evolves_upFirkin _ ?_
    | with_reducible assumption
    | with_reducible refine evolves_ite (fun _ => ?_) (fun _ => ?_)
    | with_reducible refine evolves_foldl (fun _ _ _ => ?_) ?_
    | split
theorem State.freeze_evolves {r : State} (s : State)
    (h : r.Evolves s) : r.Evolves (State.freeze s) := by
  unfold State.freeze
  try dsimp only
  repeat' first
    | with_reducible exact h
    | with_reducible refine State.evolves_upFirkin _ ?_
    | with_reducible assumption
    | with_reducible refine evolves_ite (fun _ => ?_) (fun _ => ?_)
    | with_reducible refine evolves_foldl (fun _ _ _ => ?_) ?_
    | split
theorem execFirkinPeriodClose_evolves {r : State} (s : State)
    (h : r.Evolves s) : AnswersE r (execFirkinPeriodClose s) := by
  unfold execFirkinPeriodClose
  try dsimp only
  repeat' first
    | with_reducible exact h
    | with_reducible apply State.closePeriod_evolves
    | with_reducible apply State.elapseTo_evolves
    | with_reducible assumption
    | with_reducible refine evolves_ite (fun _ => ?_) (fun _ => ?_)
    | with_reducible refine evolves_foldl (fun _ _ _ => ?_) ?_
    | with_reducible refine answersE_next ?_
    | split
theorem execFirkinAutoThaw_evolves {r : State} (s : State)
    (h : r.Evolves s) : AnswersE r (execFirkinAutoThaw s) := by
  unfold execFirkinAutoThaw
  try dsimp only
  repeat' first
    | with_reducible exact h
    | with_reducible apply State.elapseTo_evolves
    | with_reducible apply State.log_evolves
    | with_reducible apply State.thaw_evolves
    | with_reducible assumption
    | with_reducible refine evolves_ite (fun _ => ?_) (fun _ => ?_)
    | with_reducible refine evolves_foldl (fun _ _ _ => ?_) ?_
    | with_reducible refine answersE_next ?_
    | split
theorem State.passPacket_evolves {r : State} (n : Nat) (s : State)
    (h : r.Evolves s) : r.Evolves (State.passPacket n s) := by
  unfold State.passPacket
  try dsimp only
  repeat' first
    | with_reducible exact h
    | with_reducible apply State.settleOverrun_evolves
    | with_reducible refine State.evolves_upObs _ ?_ ?_
    | with_reducible exact fun _ _ _ k => k
    | with_reducible exact fun _ _ _ _ => Tab.sorted_nil
    | with_reducible exact fun _ _ _ k => Tab.sorted_put k
    | with_reducible exact fun _ _ _ k => Tab.sorted_erase k
    | with_reducible exact fun _ _ _ k => Tab.sorted_filter k
    | with_reducible exact fun _ _ _ k => Tab.sorted_filterKV k
    | (with_reducible intro b e q k); (with_reducible refine Tab.sorted_map (fun _ => ?_) k); repeat' first | rfl | split
    | (with_reducible intro b e q k); subst e; (refine ⟨?_, ?_, ?_⟩ <;> first | with_reducible exact k.1 | with_reducible exact k.2.1 | with_reducible exact k.2.2 | exact Nat.zero_le _ | (simp only [List.length_append, List.length_cons, List.length_nil, List.length_drop]; omega) | exact logs_put k.2.2 (logs_get k.2.2 _) | (refine logs_put k.2.2 ?_; simp only [List.length_append, List.length_cons, List.length_nil]; omega) | exact fun _ m => by cases m)
    | with_reducible assumption
    | with_reducible refine evolves_ite (fun _ => ?_) (fun _ => ?_)
    | with_reducible refine evolves_foldl (fun _ _ _ => ?_) ?_
    | split
theorem State.dropRemainder_evolves {r : State} (s : State)
    (h : r.Evolves s) : r.Evolves (State.dropRemainder s) := by
  unfold State.dropRemainder
  try dsimp only
  repeat' first
    | with_reducible exact h
    | with_reducible apply State.endTransfer_evolves
    | with_reducible apply State.passPacket_evolves
    | with_reducible refine State.evolves_upObs _ ?_ ?_
    | with_reducible exact fun _ _ _ k => k
    | with_reducible exact fun _ _ _ _ => Tab.sorted_nil
    | with_reducible exact fun _ _ _ k => Tab.sorted_put k
    | with_reducible exact fun _ _ _ k => Tab.sorted_erase k
    | with_reducible exact fun _ _ _ k => Tab.sorted_filter k
    | with_reducible exact fun _ _ _ k => Tab.sorted_filterKV k
    | (with_reducible intro b e q k); (with_reducible refine Tab.sorted_map (fun _ => ?_) k); repeat' first | rfl | split
    | with_reducible assumption
    | with_reducible refine evolves_ite (fun _ => ?_) (fun _ => ?_)
    | with_reducible refine evolves_foldl (fun _ _ _ => ?_) ?_
    | split
theorem State.clearOverrun_evolves {r : State} (s : State)
    (h : r.Evolves s) : r.Evolves (State.clearOverrun s) := by
  unfold State.clearOverrun
  try dsimp only
  repeat' first
    | with_reducible exact h
    | with_reducible refine State.evolves_upObs _ ?_ ?_
    | with_reducible exact fun _ _ _ k => k
    | with_reducible exact fun _ _ _ _ => Tab.sorted_nil
    | with_reducible exact fun _ _ _ k => Tab.sorted_put k
    | with_reducible exact fun _ _ _ k => Tab.sorted_erase k
    | with_reducible exact fun _ _ _ k => Tab.sorted_filter k
    | with_reducible exact fun _ _ _ k => Tab.sorted_filterKV k
    | (with_reducible intro b e q k); (with_reducible refine Tab.sorted_map (fun _ => ?_) k); repeat' first | rfl | split
    | with_reducible assumption
    | with_reducible refine evolves_ite (fun _ => ?_) (fun _ => ?_)
    | with_reducible refine evolves_foldl (fun _ _ _ => ?_) ?_
    | split

end Sys2Proof.Machine
end

