-- ==== Sys2Proof/Laws/EvolvesJudge.lean ====
section
/-!
SUPPORT. How the operations of Machine/Judge.lean let the state evolve.
-/
namespace Sys2Proof.Machine

theorem State.afterRead_evolves {r : State} (i : Nat) (x1 : Nat) (bytes : Nat) (s : State)
    (h : r.Evolves s) : r.Evolves (State.afterRead i x1 bytes s) := by
  unfold State.afterRead
  try dsimp only
  repeat' first
    | with_reducible exact h
    | with_reducible apply State.clearOverrun_evolves
    | with_reducible apply State.passPacket_evolves
    | with_reducible assumption
    | with_reducible refine evolves_ite (fun _ => ?_) (fun _ => ?_)
    | with_reducible refine evolves_foldl (fun _ _ _ => ?_) ?_
    | split
theorem State.putPassword_evolves {r : State} (area : Nat) (kind : Nat) (pw : Bytes) (s : State)
    (h : r.Evolves s) : r.Evolves (State.putPassword area kind pw s) := by
  unfold State.putPassword
  try dsimp only
  repeat' first
    | with_reducible exact h
    | with_reducible apply State.log_evolves
    | with_reducible apply State.save_evolves
    | with_reducible refine State.evolves_upDict _ ?_
    | with_reducible assumption
    | with_reducible refine evolves_ite (fun _ => ?_) (fun _ => ?_)
    | with_reducible refine evolves_foldl (fun _ _ _ => ?_) ?_
    | split
theorem State.present_evolves {r : State} (x0 : Role) (area : Nat) (kind : Nat) (pw : Bytes) (s : State)
    (h : r.Evolves s) : EvolvesP r (State.present x0 area kind pw s) := by
  unfold State.present
  try dsimp only
  repeat' first
    | with_reducible exact h
    | with_reducible apply State.log_evolves
    | with_reducible refine State.evolves_upDict _ ?_
    | with_reducible assumption
    | with_reducible refine evolves_ite (fun _ => ?_) (fun _ => ?_)
    | with_reducible refine evolves_foldl (fun _ _ _ => ?_) ?_
    | with_reducible refine evolvesP_ite ?_ ?_
    | with_reducible refine evolvesP_foldl (fun _ _ _ => ?_) ?_
    | split
    | with_reducible refine EvolvesP.snd ?_
    | with_reducible refine evolvesP_mk ?_
    | with_reducible refine EvolvesP.out (by assumption) ?_
theorem State.unpresent_evolves {r : State} (x0 : Role) (s : State)
    (h : r.Evolves s) : r.Evolves (State.unpresent x0 s) := by
  unfold State.unpresent
  try dsimp only
  repeat' first
    | with_reducible exact h
    | with_reducible refine State.evolves_upDict _ ?_
    | with_reducible assumption
    | with_reducible refine evolves_ite (fun _ => ?_) (fun _ => ?_)
    | with_reducible refine evolves_foldl (fun _ _ _ => ?_) ?_
    | split
theorem State.noteRequest_evolves {r : State} (x0 : Role) (s : State)
    (h : r.Evolves s) : r.Evolves (State.noteRequest x0 s) := by
  unfold State.noteRequest
  try dsimp only
  repeat' first
    | with_reducible exact h
    | with_reducible apply State.unpresent_evolves
    | with_reducible refine State.evolves_upDict _ ?_
    | with_reducible assumption
    | with_reducible refine evolves_ite (fun _ => ?_) (fun _ => ?_)
    | with_reducible refine evolves_foldl (fun _ _ _ => ?_) ?_
    | split
theorem State.restoreStart_evolves {r : State} (s : State)
    (h : r.Evolves s) : EvolvesP r (State.restoreStart s) := by
  unfold State.restoreStart
  try dsimp only
  repeat' first
    | with_reducible exact h
    | with_reducible apply State.askStrain_evolves
    | with_reducible apply State.fcEnable_evolves
    | with_reducible apply State.rederive_evolves
    | with_reducible apply State.restore_evolves
    | with_reducible refine State.evolves_upDict _ ?_
    | with_reducible assumption
    | with_reducible refine evolves_ite (fun _ => ?_) (fun _ => ?_)
    | with_reducible refine evolves_foldl (fun _ _ _ => ?_) ?_
    | with_reducible refine evolvesP_ite ?_ ?_
    | with_reducible refine evolvesP_foldl (fun _ _ _ => ?_) ?_
    | split
    | with_reducible refine EvolvesP.snd ?_
    | with_reducible refine evolvesP_mk ?_
    | with_reducible refine EvolvesP.out (by assumption) ?_
theorem State.setSelector_evolves {r : State} (x0 : Role) (i : Nat) (x2 : Nat) (n : Nat) (s : State)
    (h : r.Evolves s) : r.Evolves (State.setSelector x0 i x2 n s) := by
  unfold State.setSelector
  try dsimp only
  repeat' first
    | with_reducible exact h
    | with_reducible refine State.evolves_upDict _ ?_
    | with_reducible assumption
    | with_reducible refine evolves_ite (fun _ => ?_) (fun _ => ?_)
    | with_reducible refine evolves_foldl (fun _ _ _ => ?_) ?_
    | split
theorem State.setCounter_evolves {r : State} (block : Nat) (x1 : Nat) (n : Nat) (s : State)
    (h : r.Evolves s) : r.Evolves (State.setCounter block x1 n s) := by
  unfold State.setCounter
  try dsimp only
  repeat' first
    | with_reducible exact h
    | with_reducible refine State.evolves_upPerf _ ?_
    | with_reducible assumption
    | with_reducible refine evolves_ite (fun _ => ?_) (fun _ => ?_)
    | with_reducible refine evolves_foldl (fun _ _ _ => ?_) ?_
    | split
theorem State.writeUser_evolves {r : State} (off : Nat) (v : Bytes) (s : State)
    (h : r.Evolves s) : EvolvesP r (State.writeUser off v s) := by
  unfold State.writeUser
  try dsimp only
  repeat' first
    | with_reducible exact h
    | with_reducible apply State.save_evolves
    | with_reducible refine State.evolves_upDict _ ?_
    | with_reducible assumption
    | with_reducible refine evolves_ite (fun _ => ?_) (fun _ => ?_)
    | with_reducible refine evolves_foldl (fun _ _ _ => ?_) ?_
    | with_reducible refine evolvesP_ite ?_ ?_
    | with_reducible refine evolvesP_foldl (fun _ _ _ => ?_) ?_
    | split
    | with_reducible refine EvolvesP.snd ?_
    | with_reducible refine evolvesP_mk ?_
    | with_reducible refine EvolvesP.out (by assumption) ?_
theorem State.storeNow_evolves {r : State} (w : Who) (row : Row) (i : Nat) (v : Bytes) (s : State)
    (h : r.Evolves s) : EvolvesP r (State.storeNow w row i v s) := by
  unfold State.storeNow
  try dsimp only
  repeat' first
    | with_reducible exact h
    | with_reducible apply State.askStrain_evolves
    | with_reducible apply State.fcEnable_evolves
    | with_reducible apply State.fwChunk_evolves
    | with_reducible apply State.giveLeave_evolves
    | with_reducible apply State.log_evolves
    | with_reducible apply State.present_evolves
    | with_reducible apply State.putPassword_evolves
    | with_reducible apply State.rederive_evolves
    | with_reducible apply State.save_evolves
    | with_reducible apply State.setCounter_evolves
    | with_reducible apply State.setEntry_evolves
    | with_reducible apply State.setSelector_evolves
    | with_reducible apply State.writeUser_evolves
    | with_reducible refine State.evolves_upKeys _ ?_
    | with_reducible assumption
    | with_reducible refine evolves_ite (fun _ => ?_) (fun _ => ?_)
    | with_reducible refine evolves_foldl (fun _ _ _ => ?_) ?_
    | with_reducible refine evolvesP_ite ?_ ?_
    | with_reducible refine evolvesP_foldl (fun _ _ _ => ?_) ?_
    | split
    | with_reducible refine EvolvesP.snd ?_
    | with_reducible refine evolvesP_mk ?_
    | with_reducible refine EvolvesP.out (by assumption) ?_
theorem State.action_evolves {r : State} (w : Who) (i : Nat) (x2 : Nat) (n : Nat) (found : Found) (s : State)
    (h : r.Evolves s) : EvolvesP r (State.action w i x2 n found s) := by
  unfold State.action
  try dsimp only
  repeat' first
    | with_reducible exact h
    | with_reducible apply State.attestStart_evolves
    | with_reducible apply State.brineStart_evolves
    | with_reducible apply State.cryptoStart_evolves
    | with_reducible apply State.discard_evolves
    | with_reducible apply State.discardSpan_evolves
    | with_reducible apply State.dropRemainder_evolves
    | with_reducible apply State.freeze_evolves
    | with_reducible apply State.fwActivate_evolves
    | with_reducible apply State.fwBegin_evolves
    | with_reducible apply State.fwCancel_evolves
    | with_reducible apply State.fwVerify_evolves
    | with_reducible apply State.identifyStart_evolves
    | with_reducible apply State.identifyStop_evolves
    | with_reducible apply State.keyGenerate_evolves
    | with_reducible apply State.keyImport_evolves
    | with_reducible apply State.keyRegenerate_evolves
    | with_reducible apply State.maintStart_evolves
    | with_reducible apply State.needRetrain_evolves
    | with_reducible apply State.pairForceSole_evolves
    | with_reducible apply State.pairJoin_evolves
    | with_reducible apply State.pairLeave_evolves
    | with_reducible apply State.pairPrevail_evolves
    | with_reducible apply State.pairWithdraw_evolves
    | with_reducible apply State.prepareCancel_evolves
    | with_reducible apply State.prepareStart_evolves
    | with_reducible apply State.rekeyStart_evolves
    | with_reducible apply State.restoreStart_evolves
    | with_reducible apply State.scrubEnd_evolves
    | with_reducible apply State.scrubStart_evolves
    | with_reducible apply State.secureSpan_evolves
    | with_reducible apply State.selfTestCancel_evolves
    | with_reducible apply State.selfTestStart_evolves
    | with_reducible apply State.snapshot_evolves
    | with_reducible apply State.spanStart_evolves
    | with_reducible apply State.testEnter_evolves
    | with_reducible apply State.testLeave_evolves
    | with_reducible apply State.thaw_evolves
    | with_reducible apply State.unpresent_evolves
    | with_reducible apply State.zeroRange_evolves
    | with_reducible assumption
    | with_reducible refine evolves_ite (fun _ => ?_) (fun _ => ?_)
    | with_reducible refine evolves_foldl (fun _ _ _ => ?_) ?_
    | with_reducible refine evolvesP_ite ?_ ?_
    | with_reducible refine evolvesP_foldl (fun _ _ _ => ?_) ?_
    | (with_reducible intro _ _); dsimp only
    | with_reducible intro _ _
    | split
    | with_reducible refine EvolvesP.snd ?_
    | with_reducible refine evolvesP_mk ?_
    | with_reducible refine EvolvesP.out (by assumption) ?_
    | with_reducible refine evolvesPP_mk ?_
    | with_reducible refine EvolvesPP.snd ?_
    | with_reducible refine EvolvesPP.out (by assumption) ?_
theorem State.writeChecked_evolves {r : State} (q : DtpReq) (row : Row) (found : Found) (s : State)
    (h : r.Evolves s) : EvolvesP r (State.writeChecked q row found s) := by
  unfold State.writeChecked
  try dsimp only
  repeat' first
    | with_reducible exact h
    | with_reducible apply State.action_evolves
    | with_reducible apply State.commit_evolves
    | with_reducible apply State.stage_evolves
    | with_reducible apply State.storeNow_evolves
    | with_reducible assumption
    | with_reducible refine evolves_ite (fun _ => ?_) (fun _ => ?_)
    | with_reducible refine evolves_foldl (fun _ _ _ => ?_) ?_
    | with_reducible refine evolvesP_ite ?_ ?_
    | with_reducible refine evolvesP_foldl (fun _ _ _ => ?_) ?_
    | split
    | with_reducible refine EvolvesP.snd ?_
    | with_reducible refine evolvesP_mk ?_
    | with_reducible refine EvolvesP.out (by assumption) ?_
theorem State.writeOf_evolves {r : State} (q : DtpReq) (expedited : Bool) (found : Found) (s : State)
    (h : r.Evolves s) : EvolvesP r (State.writeOf q expedited found s) := by
  unfold State.writeOf
  try dsimp only
  repeat' first
    | with_reducible exact h
    | with_reducible apply State.writeChecked_evolves
    | with_reducible assumption
    | with_reducible refine evolves_ite (fun _ => ?_) (fun _ => ?_)
    | with_reducible refine evolves_foldl (fun _ _ _ => ?_) ?_
    | with_reducible refine evolvesP_ite ?_ ?_
    | with_reducible refine evolvesP_foldl (fun _ _ _ => ?_) ?_
    | split
    | with_reducible refine EvolvesP.snd ?_
    | with_reducible refine evolvesP_mk ?_
    | with_reducible refine EvolvesP.out (by assumption) ?_

end Sys2Proof.Machine
end

