-- ==== Sys2Proof/Laws/EvolvesDtp.lean ====
section
/-!
SUPPORT. How the operations of Machine/Dtp.lean let the state evolve.
-/
namespace Sys2Proof.Machine

theorem State.answerDtp_evolves {r : State} (q : DtpReq) (code : Nat) (data : Bytes) (s : State)
    (h : r.Evolves s) : r.Evolves (State.answerDtp q code data s) := by
  unfold State.answerDtp
  try dsimp only
  repeat' first
    | with_reducible exact h
    | with_reducible apply State.reply_evolves
    | with_reducible assumption
    | with_reducible refine evolves_ite (fun _ => ?_) (fun _ => ?_)
    | with_reducible refine evolves_foldl (fun _ _ _ => ?_) ?_
    | split
theorem State.endWrite_evolves {r : State} (q : DtpReq) (x : Option Nat × State)
    (h : EvolvesP r x) : r.Evolves (State.endWrite q x) := by
  unfold State.endWrite
  try dsimp only
  repeat' first
    | with_reducible exact h
    | with_reducible apply State.answerDtp_evolves
    | with_reducible assumption
    | with_reducible refine evolves_ite (fun _ => ?_) (fun _ => ?_)
    | with_reducible refine evolves_foldl (fun _ _ _ => ?_) ?_
    | split
    | with_reducible refine EvolvesP.snd ?_
    | with_reducible refine evolvesP_mk ?_
    | with_reducible refine EvolvesP.out (by assumption) ?_
theorem State.dtpReadNow_evolves {r : State} (q : DtpReq) (s : State)
    (h : r.Evolves s) : r.Evolves (State.dtpReadNow q s) := by
  unfold State.dtpReadNow
  try dsimp only
  repeat' first
    | with_reducible exact h
    | with_reducible apply State.afterRead_evolves
    | with_reducible apply State.answerDtp_evolves
    | with_reducible assumption
    | with_reducible refine evolves_ite (fun _ => ?_) (fun _ => ?_)
    | with_reducible refine evolves_foldl (fun _ _ _ => ?_) ?_
    | split
theorem State.dtpWriteNow_evolves {r : State} (q : DtpReq) (found : Found) (s : State)
    (h : r.Evolves s) : r.Evolves (State.dtpWriteNow q found s) := by
  unfold State.dtpWriteNow
  try dsimp only
  repeat' first
    | with_reducible exact h
    | with_reducible apply State.endWrite_evolves
    | with_reducible apply State.writeOf_evolves
    | with_reducible assumption
    | with_reducible refine evolves_ite (fun _ => ?_) (fun _ => ?_)
    | with_reducible refine evolves_foldl (fun _ _ _ => ?_) ?_
    | with_reducible refine evolvesP_ite ?_ ?_
    | with_reducible refine evolvesP_foldl (fun _ _ _ => ?_) ?_
    | split
    | with_reducible refine EvolvesP.snd ?_
    | with_reducible refine evolvesP_mk ?_
    | with_reducible refine EvolvesP.out (by assumption) ?_
theorem State.putTransfer_evolves {r : State} (x0 : Route) (t : Transfer) (s : State)
    (h : r.Evolves s) : r.Evolves (State.putTransfer x0 t s) := by
  unfold State.putTransfer
  try dsimp only
  repeat' first
    | with_reducible exact h
    | with_reducible refine State.evolves_upDict _ ?_
    | with_reducible assumption
    | with_reducible refine evolves_ite (fun _ => ?_) (fun _ => ?_)
    | with_reducible refine evolves_foldl (fun _ _ _ => ?_) ?_
    | split
theorem State.closeTransfer_evolves {r : State} (x0 : Route) (s : State)
    (h : r.Evolves s) : r.Evolves (State.closeTransfer x0 s) := by
  unfold State.closeTransfer
  try dsimp only
  repeat' first
    | with_reducible exact h
    | with_reducible refine State.evolves_upDict _ ?_
    | with_reducible refine State.evolves_upObs _ ?_ ?_
    | with_reducible exact fun _ _ _ k => k
    | with_reducible exact fun _ _ _ _ => Tab.sorted_nil
    | with_reducible exact fun _ _ _ k => Tab.sorted_put k
    | with_reducible exact fun _ _ _ k => Tab.sorted_erase k
    | with_reducible exact fun _ _ _ k => Tab.sorted_filter k
    | with_reducible exact fun _ _ _ k => Tab.sorted_filterKV k
    | (with_reducible intro b e q k); (with_reducible refine Tab.sorted_map (fun _ => ?_) k); repeat' first | rfl | split
    | with_reducible assumption
    | with_reducible refine evolves_ite (fun _ => ?_) (fun _ => ?_)
    | with_reducible refine evolves_foldl (fun _ _ _ => ?_) ?_
    | split
theorem State.readInitiate_evolves {r : State} (q : DtpReq) (s : State)
    (h : r.Evolves s) : r.Evolves (State.readInitiate q s) := by
  unfold State.readInitiate
  try dsimp only
  repeat' first
    | with_reducible exact h
    | with_reducible apply State.answerDtp_evolves
    | with_reducible apply State.putTransfer_evolves
    | with_reducible refine State.evolves_upObs _ ?_ ?_
    | with_reducible exact fun _ _ _ k => k
    | with_reducible exact fun _ _ _ _ => Tab.sorted_nil
    | with_reducible exact fun _ _ _ k => Tab.sorted_put k
    | with_reducible exact fun _ _ _ k => Tab.sorted_erase k
    | with_reducible exact fun _ _ _ k => Tab.sorted_filter k
    | with_reducible exact fun _ _ _ k => Tab.sorted_filterKV k
    | (with_reducible intro b e q k); (with_reducible refine Tab.sorted_map (fun _ => ?_) k); repeat' first | rfl | split
    | with_reducible assumption
    | with_reducible refine evolves_ite (fun _ => ?_) (fun _ => ?_)
    | with_reducible refine evolves_foldl (fun _ _ _ => ?_) ?_
    | split
theorem State.writeInitiate_evolves {r : State} (q : DtpReq) (s : State)
    (h : r.Evolves s) : r.Evolves (State.writeInitiate q s) := by
  unfold State.writeInitiate
  try dsimp only
  repeat' first
    | with_reducible exact h
    | with_reducible apply State.answerDtp_evolves
    | with_reducible apply State.putTransfer_evolves
    | with_reducible assumption
    | with_reducible refine evolves_ite (fun _ => ?_) (fun _ => ?_)
    | with_reducible refine evolves_foldl (fun _ _ _ => ?_) ?_
    | split
theorem State.readSegment_evolves {r : State} (q : DtpReq) (s : State)
    (h : r.Evolves s) : r.Evolves (State.readSegment q s) := by
  unfold State.readSegment
  try dsimp only
  repeat' first
    | with_reducible exact h
    | with_reducible apply State.afterRead_evolves
    | with_reducible apply State.answerDtp_evolves
    | with_reducible apply State.closeTransfer_evolves
    | with_reducible apply State.putTransfer_evolves
    | with_reducible assumption
    | with_reducible refine evolves_ite (fun _ => ?_) (fun _ => ?_)
    | with_reducible refine evolves_foldl (fun _ _ _ => ?_) ?_
    | split
theorem State.writeSegment_evolves {r : State} (q : DtpReq) (s : State)
    (h : r.Evolves s) : r.Evolves (State.writeSegment q s) := by
  unfold State.writeSegment
  try dsimp only
  repeat' first
    | with_reducible exact h
    | with_reducible apply State.answerDtp_evolves
    | with_reducible apply State.closeTransfer_evolves
    | with_reducible apply State.endWrite_evolves
    | with_reducible apply State.putTransfer_evolves
    | with_reducible apply State.writeOf_evolves
    | with_reducible assumption
    | with_reducible refine evolves_ite (fun _ => ?_) (fun _ => ?_)
    | with_reducible refine evolves_foldl (fun _ _ _ => ?_) ?_
    | with_reducible refine evolvesP_ite ?_ ?_
    | with_reducible refine evolvesP_foldl (fun _ _ _ => ?_) ?_
    | split
    | with_reducible refine EvolvesP.snd ?_
    | with_reducible refine evolvesP_mk ?_
    | with_reducible refine EvolvesP.out (by assumption) ?_
theorem State.dtpAbortNow_evolves {r : State} (q : DtpReq) (s : State)
    (h : r.Evolves s) : r.Evolves (State.dtpAbortNow q s) := by
  unfold State.dtpAbortNow
  try dsimp only
  repeat' first
    | with_reducible exact h
    | with_reducible apply State.answerDtp_evolves
    | with_reducible apply State.closeTransfer_evolves
    | with_reducible assumption
    | with_reducible refine evolves_ite (fun _ => ?_) (fun _ => ?_)
    | with_reducible refine evolves_foldl (fun _ _ _ => ?_) ?_
    | split
theorem State.writeWhole_evolves {r : State} (q : DtpReq) (s : State)
    (h : r.Evolves s) : r.Evolves (State.writeWhole q s) := by
  unfold State.writeWhole
  try dsimp only
  repeat' first
    | with_reducible exact h
    | with_reducible apply State.answerDtp_evolves
    | with_reducible apply State.endWrite_evolves
    | with_reducible apply State.writeOf_evolves
    | with_reducible assumption
    | with_reducible refine evolves_ite (fun _ => ?_) (fun _ => ?_)
    | with_reducible refine evolves_foldl (fun _ _ _ => ?_) ?_
    | with_reducible refine evolvesP_ite ?_ ?_
    | with_reducible refine evolvesP_foldl (fun _ _ _ => ?_) ?_
    | split
    | with_reducible refine EvolvesP.snd ?_
    | with_reducible refine evolvesP_mk ?_
    | with_reducible refine EvolvesP.out (by assumption) ?_
theorem State.runDtp_evolves {r : State} (q : DtpReq) (found : Found) (s : State)
    (h : r.Evolves s) : r.Evolves (State.runDtp q found s) := by
  unfold State.runDtp
  try dsimp only
  repeat' first
    | with_reducible exact h
    | with_reducible apply State.answerDtp_evolves
    | with_reducible apply State.count_evolves
    | with_reducible apply State.dtpAbortNow_evolves
    | with_reducible apply State.dtpReadNow_evolves
    | with_reducible apply State.dtpWriteNow_evolves
    | with_reducible apply State.noteRequest_evolves
    | with_reducible apply State.readInitiate_evolves
    | with_reducible apply State.readSegment_evolves
    | with_reducible apply State.writeInitiate_evolves
    | with_reducible apply State.writeSegment_evolves
    | with_reducible apply State.writeWhole_evolves
    | with_reducible assumption
    | with_reducible refine evolves_ite (fun _ => ?_) (fun _ => ?_)
    | with_reducible refine evolves_foldl (fun _ _ _ => ?_) ?_
    | split
theorem State.takeDtp_evolves {r : State} (q : DtpReq) (found : Found) (s : State)
    (h : r.Evolves s) : r.Evolves (State.takeDtp q found s) := by
  unfold State.takeDtp
  try dsimp only
  repeat' first
    | with_reducible exact h
    | with_reducible apply State.mboxRespond_evolves
    | with_reducible apply State.runDtp_evolves
    | with_reducible refine State.evolves_upDict _ ?_
    | with_reducible assumption
    | with_reducible refine evolves_ite (fun _ => ?_) (fun _ => ?_)
    | with_reducible refine evolves_foldl (fun _ _ _ => ?_) ?_
    | split
theorem State.serveWaiting_evolves {r : State} (s : State)
    (h : r.Evolves s) : r.Evolves (State.serveWaiting s) := by
  unfold State.serveWaiting
  try dsimp only
  repeat' first
    | with_reducible exact h
    | with_reducible apply State.runDtp_evolves
    | with_reducible refine State.evolves_upDict _ ?_
    | with_reducible assumption
    | with_reducible refine evolves_ite (fun _ => ?_) (fun _ => ?_)
    | with_reducible refine evolves_foldl (fun _ _ _ => ?_) ?_
    | split
theorem State.takeBytes_evolves {r : State} (w : Who) (msg : Bytes) (s : State)
    (h : r.Evolves s) : r.Evolves (State.takeBytes w msg s) := by
  unfold State.takeBytes
  try dsimp only
  repeat' first
    | with_reducible exact h
    | with_reducible apply State.takeDtp_evolves
    | with_reducible assumption
    | with_reducible refine evolves_ite (fun _ => ?_) (fun _ => ?_)
    | with_reducible refine evolves_foldl (fun _ _ _ => ?_) ?_
    | split
theorem State.writeRow_evolves {r : State} (w : Who) (index : Nat) (x2 : Nat) (data : Bytes) (s : State)
    (h : r.Evolves s) : r.Evolves (State.writeRow w index x2 data s) := by
  unfold State.writeRow
  try dsimp only
  repeat' first
    | with_reducible exact h
    | with_reducible apply State.takeDtp_evolves
    | with_reducible assumption
    | with_reducible refine evolves_ite (fun _ => ?_) (fun _ => ?_)
    | with_reducible refine evolves_foldl (fun _ _ _ => ?_) ?_
    | split
theorem State.wholeRow_evolves {r : State} (w : Who) (index : Nat) (x2 : Nat) (data : Bytes) (s : State)
    (h : r.Evolves s) : r.Evolves (State.wholeRow w index x2 data s) := by
  unfold State.wholeRow
  try dsimp only
  repeat' first
    | with_reducible exact h
    | with_reducible apply State.takeDtp_evolves
    | with_reducible apply State.writeRow_evolves
    | with_reducible assumption
    | with_reducible refine evolves_ite (fun _ => ?_) (fun _ => ?_)
    | with_reducible refine evolves_foldl (fun _ _ _ => ?_) ?_
    | split
theorem State.cmdRow_evolves {r : State} (w : Who) (index : Nat) (x2 : Nat) (n : Nat) (s : State)
    (h : r.Evolves s) : r.Evolves (State.cmdRow w index x2 n s) := by
  unfold State.cmdRow
  try dsimp only
  repeat' first
    | with_reducible exact h
    | with_reducible apply State.writeRow_evolves
    | with_reducible assumption
    | with_reducible refine evolves_ite (fun _ => ?_) (fun _ => ?_)
    | with_reducible refine evolves_foldl (fun _ _ _ => ?_) ?_
    | split
theorem execDtpRead_evolves {r : State} (w : Who) (tid : Nat) (index : Nat) (x3 : Nat) (s : State)
    (h : r.Evolves s) : AnswersE r (execDtpRead w tid index x3 s) := by
  unfold execDtpRead
  try dsimp only
  repeat' first
    | with_reducible exact h
    | with_reducible apply State.takeDtp_evolves
    | with_reducible assumption
    | with_reducible refine evolves_ite (fun _ => ?_) (fun _ => ?_)
    | with_reducible refine evolves_foldl (fun _ _ _ => ?_) ?_
    | with_reducible refine answersE_next ?_
    | split
theorem execDtpWrite_evolves {r : State} (w : Who) (tid : Nat) (index : Nat) (x3 : Nat) (data : Bytes) (s : State)
    (h : r.Evolves s) : AnswersE r (execDtpWrite w tid index x3 data s) := by
  unfold execDtpWrite
  try dsimp only
  repeat' first
    | with_reducible exact h
    | with_reducible apply State.takeDtp_evolves
    | with_reducible assumption
    | with_reducible refine evolves_ite (fun _ => ?_) (fun _ => ?_)
    | with_reducible refine evolves_foldl (fun _ _ _ => ?_) ?_
    | with_reducible refine answersE_next ?_
    | split
theorem execDtpReadInitiate_evolves {r : State} (w : Who) (tid : Nat) (index : Nat) (x3 : Nat) (s : State)
    (h : r.Evolves s) : AnswersE r (execDtpReadInitiate w tid index x3 s) := by
  unfold execDtpReadInitiate
  try dsimp only
  repeat' first
    | with_reducible exact h
    | with_reducible apply State.takeDtp_evolves
    | with_reducible assumption
    | with_reducible refine evolves_ite (fun _ => ?_) (fun _ => ?_)
    | with_reducible refine evolves_foldl (fun _ _ _ => ?_) ?_
    | with_reducible refine answersE_next ?_
    | split
theorem execDtpReadSegment_evolves {r : State} (w : Who) (tid : Nat) (toggle : Bool) (s : State)
    (h : r.Evolves s) : AnswersE r (execDtpReadSegment w tid toggle s) := by
  unfold execDtpReadSegment
  try dsimp only
  repeat' first
    | with_reducible exact h
    | with_reducible apply State.takeDtp_evolves
    | with_reducible assumption
    | with_reducible refine evolves_ite (fun _ => ?_) (fun _ => ?_)
    | with_reducible refine evolves_foldl (fun _ _ _ => ?_) ?_
    | with_reducible refine answersE_next ?_
    | split
theorem execDtpWriteInitiate_evolves {r : State} (w : Who) (tid : Nat) (index : Nat) (x3 : Nat) (total : Nat) (s : State)
    (h : r.Evolves s) : AnswersE r (execDtpWriteInitiate w tid index x3 total s) := by
  unfold execDtpWriteInitiate
  try dsimp only
  repeat' first
    | with_reducible exact h
    | with_reducible apply State.takeDtp_evolves
    | with_reducible assumption
    | with_reducible refine evolves_ite (fun _ => ?_) (fun _ => ?_)
    | with_reducible refine evolves_foldl (fun _ _ _ => ?_) ?_
    | with_reducible refine answersE_next ?_
    | split
theorem execDtpWriteSegment_evolves {r : State} (w : Who) (tid : Nat) (toggle : Bool) (last : Bool) (data : Bytes) (s : State)
    (h : r.Evolves s) : AnswersE r (execDtpWriteSegment w tid toggle last data s) := by
  unfold execDtpWriteSegment
  try dsimp only
  repeat' first
    | with_reducible exact h
    | with_reducible apply State.takeDtp_evolves
    | with_reducible assumption
    | with_reducible refine evolves_ite (fun _ => ?_) (fun _ => ?_)
    | with_reducible refine evolves_foldl (fun _ _ _ => ?_) ?_
    | with_reducible refine answersE_next ?_
    | split
theorem execDtpAbort_evolves {r : State} (w : Who) (tid : Nat) (code : Nat) (s : State)
    (h : r.Evolves s) : AnswersE r (execDtpAbort w tid code s) := by
  unfold execDtpAbort
  try dsimp only
  repeat' first
    | with_reducible exact h
    | with_reducible apply State.takeDtp_evolves
    | with_reducible assumption
    | with_reducible refine evolves_ite (fun _ => ?_) (fun _ => ?_)
    | with_reducible refine evolves_foldl (fun _ _ _ => ?_) ?_
    | with_reducible refine answersE_next ?_
    | split
theorem execSegmentTimeout_evolves {r : State} (route : Route) (s : State)
    (h : r.Evolves s) : AnswersE r (execSegmentTimeout route s) := by
  unfold execSegmentTimeout
  try dsimp only
  repeat' first
    | with_reducible exact h
    | with_reducible apply State.elapseTo_evolves
    | with_reducible apply State.endTransfer_evolves
    | with_reducible assumption
    | with_reducible refine evolves_ite (fun _ => ?_) (fun _ => ?_)
    | with_reducible refine evolves_foldl (fun _ _ _ => ?_) ?_
    | with_reducible refine answersE_next ?_
    | split
theorem execDictionaryWrite_evolves {r : State} (w : Who) (index : Nat) (x2 : Nat) (data : Bytes) (s : State)
    (h : r.Evolves s) : AnswersE r (execDictionaryWrite w index x2 data s) := by
  unfold execDictionaryWrite
  try dsimp only
  repeat' first
    | with_reducible exact h
    | with_reducible apply State.wholeRow_evolves
    | with_reducible assumption
    | with_reducible refine evolves_ite (fun _ => ?_) (fun _ => ?_)
    | with_reducible refine evolves_foldl (fun _ _ _ => ?_) ?_
    | with_reducible refine answersE_next ?_
    | split
theorem execCommitBatch_evolves {r : State} (w : Who) (logFault : Bool) (s : State)
    (h : r.Evolves s) : AnswersE r (execCommitBatch w logFault s) := by
  unfold execCommitBatch
  try dsimp only
  repeat' first
    | with_reducible exact h
    | with_reducible apply State.takeDtp_evolves
    | with_reducible assumption
    | with_reducible refine evolves_ite (fun _ => ?_) (fun _ => ?_)
    | with_reducible refine evolves_foldl (fun _ _ _ => ?_) ?_
    | with_reducible refine answersE_next ?_
    | split
theorem execDiscardBatch_evolves {r : State} (w : Who) (s : State)
    (h : r.Evolves s) : AnswersE r (execDiscardBatch w s) := by
  unfold execDiscardBatch
  try dsimp only
  repeat' first
    | with_reducible exact h
    | with_reducible apply State.cmdRow_evolves
    | with_reducible assumption
    | with_reducible refine evolves_ite (fun _ => ?_) (fun _ => ?_)
    | with_reducible refine evolves_foldl (fun _ _ _ => ?_) ?_
    | with_reducible refine answersE_next ?_
    | split
theorem execPasswordPresent_evolves {r : State} (w : Who) (area : Nat) (kind : Nat) (pw : Bytes) (s : State)
    (h : r.Evolves s) : AnswersE r (execPasswordPresent w area kind pw s) := by
  unfold execPasswordPresent
  try dsimp only
  repeat' first
    | with_reducible exact h
    | with_reducible apply State.writeRow_evolves
    | with_reducible assumption
    | with_reducible refine evolves_ite (fun _ => ?_) (fun _ => ?_)
    | with_reducible refine evolves_foldl (fun _ _ _ => ?_) ?_
    | with_reducible refine answersE_next ?_
    | split
theorem execPasswordLock_evolves {r : State} (w : Who) (s : State)
    (h : r.Evolves s) : AnswersE r (execPasswordLock w s) := by
  unfold execPasswordLock
  try dsimp only
  repeat' first
    | with_reducible exact h
    | with_reducible apply State.cmdRow_evolves
    | with_reducible assumption
    | with_reducible refine evolves_ite (fun _ => ?_) (fun _ => ?_)
    | with_reducible refine evolves_foldl (fun _ _ _ => ?_) ?_
    | with_reducible refine answersE_next ?_
    | split
theorem execPresentationTimeout_evolves {r : State} (role : Role) (s : State)
    (h : r.Evolves s) : AnswersE r (execPresentationTimeout role s) := by
  unfold execPresentationTimeout
  try dsimp only
  repeat' first
    | with_reducible exact h
    | with_reducible apply State.elapseTo_evolves
    | with_reducible apply State.unpresent_evolves
    | with_reducible assumption
    | with_reducible refine evolves_ite (fun _ => ?_) (fun _ => ?_)
    | with_reducible refine evolves_foldl (fun _ _ _ => ?_) ?_
    | with_reducible refine answersE_next ?_
    | split
theorem execPasswordLockoutEnd_evolves {r : State} (role : Role) (s : State)
    (h : r.Evolves s) : AnswersE r (execPasswordLockoutEnd role s) := by
  unfold execPasswordLockoutEnd
  try dsimp only
  repeat' first
    | with_reducible exact h
    | with_reducible apply State.elapseTo_evolves
    | with_reducible refine State.evolves_upDict _ ?_
    | with_reducible assumption
    | with_reducible refine evolves_ite (fun _ => ?_) (fun _ => ?_)
    | with_reducible refine evolves_foldl (fun _ _ _ => ?_) ?_
    | with_reducible refine answersE_next ?_
    | split
theorem execSetPassword_evolves {r : State} (w : Who) (area : Nat) (kind : Nat) (pw : Bytes) (s : State)
    (h : r.Evolves s) : AnswersE r (execSetPassword w area kind pw s) := by
  unfold execSetPassword
  try dsimp only
  repeat' first
    | with_reducible exact h
    | with_reducible apply State.writeRow_evolves
    | with_reducible assumption
    | with_reducible refine evolves_ite (fun _ => ?_) (fun _ => ?_)
    | with_reducible refine evolves_foldl (fun _ _ _ => ?_) ?_
    | with_reducible refine answersE_next ?_
    | split
theorem execRestoreDefaults_evolves {r : State} (w : Who) (s : State)
    (h : r.Evolves s) : AnswersE r (execRestoreDefaults w s) := by
  unfold execRestoreDefaults
  try dsimp only
  repeat' first
    | with_reducible exact h
    | with_reducible apply State.cmdRow_evolves
    | with_reducible assumption
    | with_reducible refine evolves_ite (fun _ => ?_) (fun _ => ?_)
    | with_reducible refine evolves_foldl (fun _ _ _ => ?_) ?_
    | with_reducible refine answersE_next ?_
    | split
theorem execAreaDataWrite_evolves {r : State} (w : Who) (data : Bytes) (s : State)
    (h : r.Evolves s) : AnswersE r (execAreaDataWrite w data s) := by
  unfold execAreaDataWrite
  try dsimp only
  repeat' first
    | with_reducible exact h
    | with_reducible apply State.wholeRow_evolves
    | with_reducible assumption
    | with_reducible refine evolves_ite (fun _ => ?_) (fun _ => ?_)
    | with_reducible refine evolves_foldl (fun _ _ _ => ?_) ?_
    | with_reducible refine answersE_next ?_
    | split

end Sys2Proof.Machine
end

