-- ==== Sys2Proof/Laws/EvolvesCommands.lean ====
section
/-!
SUPPORT. How the operations of Machine/Commands.lean let the state evolve.
-/
namespace Sys2Proof.Machine

theorem State.finishDiscard_evolves {r : State} (s : State)
    (h : r.Evolves s) : r.Evolves (State.finishDiscard s) := by
  unfold State.finishDiscard
  try dsimp only
  repeat' first
    | with_reducible exact h
    | with_reducible apply State.dropJob_evolves
    | with_reducible apply State.log_evolves
    | with_reducible apply State.record_evolves
    | with_reducible apply State.setCtl_evolves
    | with_reducible assumption
    | with_reducible refine evolves_ite (fun _ => ?_) (fun _ => ?_)
    | with_reducible refine evolves_foldl (fun _ _ _ => ?_) ?_
    | split
theorem State.answerDiscard_evolves {r : State} (s : State)
    (h : r.Evolves s) : r.Evolves (State.answerDiscard s) := by
  unfold State.answerDiscard
  try dsimp only
  repeat' first
    | with_reducible exact h
    | with_reducible apply State.dropJob_evolves
    | with_reducible apply State.send_evolves
    | with_reducible assumption
    | with_reducible refine evolves_ite (fun _ => ?_) (fun _ => ?_)
    | with_reducible refine evolves_foldl (fun _ _ _ => ?_) ?_
    | split
theorem State.finishCrypto_evolves {r : State} (s : State)
    (h : r.Evolves s) : r.Evolves (State.finishCrypto s) := by
  unfold State.finishCrypto
  try dsimp only
  repeat' first
    | with_reducible exact h
    | with_reducible apply State.dropJob_evolves
    | with_reducible apply State.log_evolves
    | with_reducible apply State.record_evolves
    | with_reducible apply State.setCtl_evolves
    | with_reducible refine State.evolves_upKeys _ ?_
    | with_reducible assumption
    | with_reducible refine evolves_ite (fun _ => ?_) (fun _ => ?_)
    | with_reducible refine evolves_foldl (fun _ _ _ => ?_) ?_
    | split
theorem State.answerCrypto_evolves {r : State} (s : State)
    (h : r.Evolves s) : r.Evolves (State.answerCrypto s) := by
  unfold State.answerCrypto
  try dsimp only
  repeat' first
    | with_reducible exact h
    | with_reducible apply State.dropJob_evolves
    | with_reducible apply State.log_evolves
    | with_reducible apply State.send_evolves
    | with_reducible refine State.evolves_upKeys _ ?_
    | with_reducible assumption
    | with_reducible refine evolves_ite (fun _ => ?_) (fun _ => ?_)
    | with_reducible refine evolves_foldl (fun _ _ _ => ?_) ?_
    | split
theorem execZeroRangeStart_evolves {r : State} (w : Who) (s : State)
    (h : r.Evolves s) : AnswersE r (execZeroRangeStart w s) := by
  unfold execZeroRangeStart
  try dsimp only
  repeat' first
    | with_reducible exact h
    | with_reducible apply State.cmdRow_evolves
    | with_reducible assumption
    | with_reducible refine evolves_ite (fun _ => ?_) (fun _ => ?_)
    | with_reducible refine evolves_foldl (fun _ _ _ => ?_) ?_
    | with_reducible refine answersE_next ?_
    | split
theorem execZeroRangeDone_evolves {r : State} (s : State)
    (h : r.Evolves s) : AnswersE r (execZeroRangeDone s) := by
  unfold execZeroRangeDone
  try dsimp only
  repeat' first
    | with_reducible exact h
    | with_reducible apply State.dropJob_evolves
    | with_reducible apply State.setCtl_evolves
    | with_reducible apply State.zeroGrains_evolves
    | with_reducible assumption
    | with_reducible refine evolves_ite (fun _ => ?_) (fun _ => ?_)
    | with_reducible refine evolves_foldl (fun _ _ _ => ?_) ?_
    | with_reducible refine answersE_next ?_
    | split
theorem execDiscardStart_evolves {r : State} (w : Who) (s : State)
    (h : r.Evolves s) : AnswersE r (execDiscardStart w s) := by
  unfold execDiscardStart
  try dsimp only
  repeat' first
    | with_reducible exact h
    | with_reducible apply State.cmdRow_evolves
    | with_reducible assumption
    | with_reducible refine evolves_ite (fun _ => ?_) (fun _ => ?_)
    | with_reducible refine evolves_foldl (fun _ _ _ => ?_) ?_
    | with_reducible refine answersE_next ?_
    | split
theorem execDiscardDone_evolves {r : State} (s : State)
    (h : r.Evolves s) : AnswersE r (execDiscardDone s) := by
  unfold execDiscardDone
  try dsimp only
  repeat' first
    | with_reducible exact h
    | with_reducible apply State.dropJob_evolves
    | with_reducible apply State.setCtl_evolves
    | with_reducible assumption
    | with_reducible refine evolves_ite (fun _ => ?_) (fun _ => ?_)
    | with_reducible refine evolves_foldl (fun _ _ _ => ?_) ?_
    | with_reducible refine answersE_next ?_
    | split
theorem execSecureDiscardStart_evolves {r : State} (w : Who) (s : State)
    (h : r.Evolves s) : AnswersE r (execSecureDiscardStart w s) := by
  unfold execSecureDiscardStart
  try dsimp only
  repeat' first
    | with_reducible exact h
    | with_reducible apply State.cmdRow_evolves
    | with_reducible assumption
    | with_reducible refine evolves_ite (fun _ => ?_) (fun _ => ?_)
    | with_reducible refine evolves_foldl (fun _ _ _ => ?_) ?_
    | with_reducible refine answersE_next ?_
    | split
theorem execSecureDiscardDone_evolves {r : State} (s : State)
    (h : r.Evolves s) : AnswersE r (execSecureDiscardDone s) := by
  unfold execSecureDiscardDone
  try dsimp only
  repeat' first
    | with_reducible exact h
    | with_reducible apply State.answerDiscard_evolves
    | with_reducible apply State.finishDiscard_evolves
    | with_reducible assumption
    | with_reducible refine evolves_ite (fun _ => ?_) (fun _ => ?_)
    | with_reducible refine evolves_foldl (fun _ _ _ => ?_) ?_
    | with_reducible refine answersE_next ?_
    | split
theorem execCryptoDiscardStart_evolves {r : State} (w : Who) (s : State)
    (h : r.Evolves s) : AnswersE r (execCryptoDiscardStart w s) := by
  unfold execCryptoDiscardStart
  try dsimp only
  repeat' first
    | with_reducible exact h
    | with_reducible apply State.cmdRow_evolves
    | with_reducible assumption
    | with_reducible refine evolves_ite (fun _ => ?_) (fun _ => ?_)
    | with_reducible refine evolves_foldl (fun _ _ _ => ?_) ?_
    | with_reducible refine answersE_next ?_
    | split
theorem execCryptoDiscardDone_evolves {r : State} (s : State)
    (h : r.Evolves s) : AnswersE r (execCryptoDiscardDone s) := by
  unfold execCryptoDiscardDone
  try dsimp only
  repeat' first
    | with_reducible exact h
    | with_reducible apply State.answerCrypto_evolves
    | with_reducible apply State.finishCrypto_evolves
    | with_reducible assumption
    | with_reducible refine evolves_ite (fun _ => ?_) (fun _ => ?_)
    | with_reducible refine evolves_foldl (fun _ _ _ => ?_) ?_
    | with_reducible refine answersE_next ?_
    | split
theorem execCryptoDiscardSweep_evolves {r : State} (s : State)
    (h : r.Evolves s) : AnswersE r (execCryptoDiscardSweep s) := by
  unfold execCryptoDiscardSweep
  try dsimp only
  repeat' first
    | with_reducible exact h
    | with_reducible apply State.sweepOne_evolves
    | with_reducible assumption
    | with_reducible refine evolves_ite (fun _ => ?_) (fun _ => ?_)
    | with_reducible refine evolves_foldl (fun _ _ _ => ?_) ?_
    | with_reducible refine answersE_next ?_
    | split
theorem execScrubStart_evolves {r : State} (w : Who) (s : State)
    (h : r.Evolves s) : AnswersE r (execScrubStart w s) := by
  unfold execScrubStart
  try dsimp only
  repeat' first
    | with_reducible exact h
    | with_reducible apply State.cmdRow_evolves
    | with_reducible assumption
    | with_reducible refine evolves_ite (fun _ => ?_) (fun _ => ?_)
    | with_reducible refine evolves_foldl (fun _ _ _ => ?_) ?_
    | with_reducible refine answersE_next ?_
    | split
theorem execScrubCancel_evolves {r : State} (w : Who) (s : State)
    (h : r.Evolves s) : AnswersE r (execScrubCancel w s) := by
  unfold execScrubCancel
  try dsimp only
  repeat' first
    | with_reducible exact h
    | with_reducible apply State.cmdRow_evolves
    | with_reducible assumption
    | with_reducible refine evolves_ite (fun _ => ?_) (fun _ => ?_)
    | with_reducible refine evolves_foldl (fun _ _ _ => ?_) ?_
    | with_reducible refine answersE_next ?_
    | split
theorem execScrubPassDone_evolves {r : State} (errors : List (Nat × CacheFault)) (s : State)
    (h : r.Evolves s) : AnswersE r (execScrubPassDone errors s) := by
  unfold execScrubPassDone
  try dsimp only
  repeat' first
    | with_reducible exact h
    | with_reducible apply State.elapseTo_evolves
    | with_reducible apply State.log_evolves
    | with_reducible apply State.scrubEnd_evolves
    | with_reducible apply State.scrubTo_evolves
    | with_reducible apply State.sweepDram_evolves
    | with_reducible apply State.tally_evolves
    | with_reducible assumption
    | with_reducible refine evolves_ite (fun _ => ?_) (fun _ => ?_)
    | with_reducible refine evolves_foldl (fun _ _ _ => ?_) ?_
    | with_reducible refine answersE_next ?_
    | split
theorem execBrineRelease_evolves {r : State} (w : Who) (s : State)
    (h : r.Evolves s) : AnswersE r (execBrineRelease w s) := by
  unfold execBrineRelease
  try dsimp only
  repeat' first
    | with_reducible exact h
    | with_reducible apply State.cmdRow_evolves
    | with_reducible assumption
    | with_reducible refine evolves_ite (fun _ => ?_) (fun _ => ?_)
    | with_reducible refine evolves_foldl (fun _ _ _ => ?_) ?_
    | with_reducible refine answersE_next ?_
    | split
theorem execRekey_evolves {r : State} (w : Who) (s : State)
    (h : r.Evolves s) : AnswersE r (execRekey w s) := by
  unfold execRekey
  try dsimp only
  repeat' first
    | with_reducible exact h
    | with_reducible apply State.cmdRow_evolves
    | with_reducible assumption
    | with_reducible refine evolves_ite (fun _ => ?_) (fun _ => ?_)
    | with_reducible refine evolves_foldl (fun _ _ _ => ?_) ?_
    | with_reducible refine answersE_next ?_
    | split
theorem execPrepareShutdownStart_evolves {r : State} (w : Who) (s : State)
    (h : r.Evolves s) : AnswersE r (execPrepareShutdownStart w s) := by
  unfold execPrepareShutdownStart
  try dsimp only
  repeat' first
    | with_reducible exact h
    | with_reducible apply State.cmdRow_evolves
    | with_reducible assumption
    | with_reducible refine evolves_ite (fun _ => ?_) (fun _ => ?_)
    | with_reducible refine evolves_foldl (fun _ _ _ => ?_) ?_
    | with_reducible refine answersE_next ?_
    | split
theorem execPrepareShutdownCancel_evolves {r : State} (w : Who) (s : State)
    (h : r.Evolves s) : AnswersE r (execPrepareShutdownCancel w s) := by
  unfold execPrepareShutdownCancel
  try dsimp only
  repeat' first
    | with_reducible exact h
    | with_reducible apply State.cmdRow_evolves
    | with_reducible assumption
    | with_reducible refine evolves_ite (fun _ => ?_) (fun _ => ?_)
    | with_reducible refine evolves_foldl (fun _ _ _ => ?_) ?_
    | with_reducible refine answersE_next ?_
    | split
theorem execShutdownPrepared_evolves {r : State} (s : State)
    (h : r.Evolves s) : AnswersE r (execShutdownPrepared s) := by
  unfold execShutdownPrepared
  try dsimp only
  repeat' first
    | with_reducible exact h
    | with_reducible apply State.prepared_evolves
    | with_reducible assumption
    | with_reducible refine evolves_ite (fun _ => ?_) (fun _ => ?_)
    | with_reducible refine evolves_foldl (fun _ _ _ => ?_) ?_
    | with_reducible refine answersE_next ?_
    | split
theorem execIdentifyStart_evolves {r : State} (w : Who) (s : State)
    (h : r.Evolves s) : AnswersE r (execIdentifyStart w s) := by
  unfold execIdentifyStart
  try dsimp only
  repeat' first
    | with_reducible exact h
    | with_reducible apply State.cmdRow_evolves
    | with_reducible assumption
    | with_reducible refine evolves_ite (fun _ => ?_) (fun _ => ?_)
    | with_reducible refine evolves_foldl (fun _ _ _ => ?_) ?_
    | with_reducible refine answersE_next ?_
    | split
theorem execIdentifyStop_evolves {r : State} (w : Who) (s : State)
    (h : r.Evolves s) : AnswersE r (execIdentifyStop w s) := by
  unfold execIdentifyStop
  try dsimp only
  repeat' first
    | with_reducible exact h
    | with_reducible apply State.cmdRow_evolves
    | with_reducible assumption
    | with_reducible refine evolves_ite (fun _ => ?_) (fun _ => ?_)
    | with_reducible refine evolves_foldl (fun _ _ _ => ?_) ?_
    | with_reducible refine answersE_next ?_
    | split
theorem execIdentifyExpire_evolves {r : State} (s : State)
    (h : r.Evolves s) : AnswersE r (execIdentifyExpire s) := by
  unfold execIdentifyExpire
  try dsimp only
  repeat' first
    | with_reducible exact h
    | with_reducible apply State.elapseTo_evolves
    | with_reducible assumption
    | with_reducible refine evolves_ite (fun _ => ?_) (fun _ => ?_)
    | with_reducible refine evolves_foldl (fun _ _ _ => ?_) ?_
    | with_reducible refine answersE_next ?_
    | split
theorem execKeyGenerate_evolves {r : State} (w : Who) (s : State)
    (h : r.Evolves s) : AnswersE r (execKeyGenerate w s) := by
  unfold execKeyGenerate
  try dsimp only
  repeat' first
    | with_reducible exact h
    | with_reducible apply State.cmdRow_evolves
    | with_reducible assumption
    | with_reducible refine evolves_ite (fun _ => ?_) (fun _ => ?_)
    | with_reducible refine evolves_foldl (fun _ _ _ => ?_) ?_
    | with_reducible refine answersE_next ?_
    | split
theorem execKeyImport_evolves {r : State} (w : Who) (v : ImportVerdict) (s : State)
    (h : r.Evolves s) : AnswersE r (execKeyImport w v s) := by
  unfold execKeyImport
  try dsimp only
  repeat' first
    | with_reducible exact h
    | with_reducible apply State.takeDtp_evolves
    | with_reducible assumption
    | with_reducible refine evolves_ite (fun _ => ?_) (fun _ => ?_)
    | with_reducible refine evolves_foldl (fun _ _ _ => ?_) ?_
    | with_reducible refine answersE_next ?_
    | split
theorem execKeyRegenerate_evolves {r : State} (w : Who) (s : State)
    (h : r.Evolves s) : AnswersE r (execKeyRegenerate w s) := by
  unfold execKeyRegenerate
  try dsimp only
  repeat' first
    | with_reducible exact h
    | with_reducible apply State.cmdRow_evolves
    | with_reducible assumption
    | with_reducible refine evolves_ite (fun _ => ?_) (fun _ => ?_)
    | with_reducible refine evolves_foldl (fun _ _ _ => ?_) ?_
    | with_reducible refine answersE_next ?_
    | split
theorem execAttestSign_evolves {r : State} (w : Who) (s : State)
    (h : r.Evolves s) : AnswersE r (execAttestSign w s) := by
  unfold execAttestSign
  try dsimp only
  repeat' first
    | with_reducible exact h
    | with_reducible apply State.cmdRow_evolves
    | with_reducible assumption
    | with_reducible refine evolves_ite (fun _ => ?_) (fun _ => ?_)
    | with_reducible refine evolves_foldl (fun _ _ _ => ?_) ?_
    | with_reducible refine answersE_next ?_
    | split
theorem execAttestSignDone_evolves {r : State} (s : State)
    (h : r.Evolves s) : AnswersE r (execAttestSignDone s) := by
  unfold execAttestSignDone
  try dsimp only
  repeat' first
    | with_reducible exact h
    | with_reducible apply State.attestDone_evolves
    | with_reducible assumption
    | with_reducible refine evolves_ite (fun _ => ?_) (fun _ => ?_)
    | with_reducible refine evolves_foldl (fun _ _ _ => ?_) ?_
    | with_reducible refine answersE_next ?_
    | split
theorem execFrontCacheDisable_evolves {r : State} (w : Who) (s : State)
    (h : r.Evolves s) : AnswersE r (execFrontCacheDisable w s) := by
  unfold execFrontCacheDisable
  try dsimp only
  repeat' first
    | with_reducible exact h
    | with_reducible apply State.cmdRow_evolves
    | with_reducible assumption
    | with_reducible refine evolves_ite (fun _ => ?_) (fun _ => ?_)
    | with_reducible refine evolves_foldl (fun _ _ _ => ?_) ?_
    | with_reducible refine answersE_next ?_
    | split
theorem execFrontCacheDrained_evolves {r : State} (s : State)
    (h : r.Evolves s) : AnswersE r (execFrontCacheDrained s) := by
  unfold execFrontCacheDrained
  try dsimp only
  repeat' first
    | with_reducible exact h
    | with_reducible apply State.fcDrained_evolves
    | with_reducible assumption
    | with_reducible refine evolves_ite (fun _ => ?_) (fun _ => ?_)
    | with_reducible refine evolves_foldl (fun _ _ _ => ?_) ?_
    | with_reducible refine answersE_next ?_
    | split
theorem execFrontCacheEnable_evolves {r : State} (w : Who) (s : State)
    (h : r.Evolves s) : AnswersE r (execFrontCacheEnable w s) := by
  unfold execFrontCacheEnable
  try dsimp only
  repeat' first
    | with_reducible exact h
    | with_reducible apply State.cmdRow_evolves
    | with_reducible assumption
    | with_reducible refine evolves_ite (fun _ => ?_) (fun _ => ?_)
    | with_reducible refine evolves_foldl (fun _ _ _ => ?_) ?_
    | with_reducible refine answersE_next ?_
    | split
theorem execRangeClean_evolves {r : State} (w : Who) (found : List (Nat × CacheFault)) (s : State)
    (h : r.Evolves s) : AnswersE r (execRangeClean w found s) := by
  unfold execRangeClean
  try dsimp only
  repeat' first
    | with_reducible exact h
    | with_reducible apply State.takeDtp_evolves
    | with_reducible assumption
    | with_reducible refine evolves_ite (fun _ => ?_) (fun _ => ?_)
    | with_reducible refine evolves_foldl (fun _ _ _ => ?_) ?_
    | with_reducible refine answersE_next ?_
    | split
theorem execRangeInvalidate_evolves {r : State} (w : Who) (found : List (Nat × CacheFault)) (s : State)
    (h : r.Evolves s) : AnswersE r (execRangeInvalidate w found s) := by
  unfold execRangeInvalidate
  try dsimp only
  repeat' first
    | with_reducible exact h
    | with_reducible apply State.takeDtp_evolves
    | with_reducible assumption
    | with_reducible refine evolves_ite (fun _ => ?_) (fun _ => ?_)
    | with_reducible refine evolves_foldl (fun _ _ _ => ?_) ?_
    | with_reducible refine answersE_next ?_
    | split
theorem execLineLock_evolves {r : State} (w : Who) (found : List (Nat × CacheFault)) (s : State)
    (h : r.Evolves s) : AnswersE r (execLineLock w found s) := by
  unfold execLineLock
  try dsimp only
  repeat' first
    | with_reducible exact h
    | with_reducible apply State.takeDtp_evolves
    | with_reducible assumption
    | with_reducible refine evolves_ite (fun _ => ?_) (fun _ => ?_)
    | with_reducible refine evolves_foldl (fun _ _ _ => ?_) ?_
    | with_reducible refine answersE_next ?_
    | split
theorem execLineZero_evolves {r : State} (w : Who) (s : State)
    (h : r.Evolves s) : AnswersE r (execLineZero w s) := by
  unfold execLineZero
  try dsimp only
  repeat' first
    | with_reducible exact h
    | with_reducible apply State.cmdRow_evolves
    | with_reducible assumption
    | with_reducible refine evolves_ite (fun _ => ?_) (fun _ => ?_)
    | with_reducible refine evolves_foldl (fun _ _ _ => ?_) ?_
    | with_reducible refine answersE_next ?_
    | split
theorem execMaintenanceDone_evolves {r : State} (k : MaintKind) (s : State)
    (h : r.Evolves s) : AnswersE r (execMaintenanceDone k s) := by
  unfold execMaintenanceDone
  try dsimp only
  repeat' first
    | with_reducible exact h
    | with_reducible apply State.maintDone_evolves
    | with_reducible assumption
    | with_reducible refine evolves_ite (fun _ => ?_) (fun _ => ?_)
    | with_reducible refine evolves_foldl (fun _ _ _ => ?_) ?_
    | with_reducible refine answersE_next ?_
    | split
theorem execFwBegin_evolves {r : State} (w : Who) (s : State)
    (h : r.Evolves s) : AnswersE r (execFwBegin w s) := by
  unfold execFwBegin
  try dsimp only
  repeat' first
    | with_reducible exact h
    | with_reducible apply State.cmdRow_evolves
    | with_reducible assumption
    | with_reducible refine evolves_ite (fun _ => ?_) (fun _ => ?_)
    | with_reducible refine evolves_foldl (fun _ _ _ => ?_) ?_
    | with_reducible refine answersE_next ?_
    | split
theorem execFwChunk_evolves {r : State} (w : Who) (data : Bytes) (s : State)
    (h : r.Evolves s) : AnswersE r (execFwChunk w data s) := by
  unfold execFwChunk
  try dsimp only
  repeat' first
    | with_reducible exact h
    | with_reducible apply State.wholeRow_evolves
    | with_reducible assumption
    | with_reducible refine evolves_ite (fun _ => ?_) (fun _ => ?_)
    | with_reducible refine evolves_foldl (fun _ _ _ => ?_) ?_
    | with_reducible refine answersE_next ?_
    | split
theorem execFwVerify_evolves {r : State} (w : Who) (s : State)
    (h : r.Evolves s) : AnswersE r (execFwVerify w s) := by
  unfold execFwVerify
  try dsimp only
  repeat' first
    | with_reducible exact h
    | with_reducible apply State.cmdRow_evolves
    | with_reducible assumption
    | with_reducible refine evolves_ite (fun _ => ?_) (fun _ => ?_)
    | with_reducible refine evolves_foldl (fun _ _ _ => ?_) ?_
    | with_reducible refine answersE_next ?_
    | split
theorem execFwActivate_evolves {r : State} (w : Who) (s : State)
    (h : r.Evolves s) : AnswersE r (execFwActivate w s) := by
  unfold execFwActivate
  try dsimp only
  repeat' first
    | with_reducible exact h
    | with_reducible apply State.cmdRow_evolves
    | with_reducible assumption
    | with_reducible refine evolves_ite (fun _ => ?_) (fun _ => ?_)
    | with_reducible refine evolves_foldl (fun _ _ _ => ?_) ?_
    | with_reducible refine answersE_next ?_
    | split
theorem execFwCancel_evolves {r : State} (w : Who) (s : State)
    (h : r.Evolves s) : AnswersE r (execFwCancel w s) := by
  unfold execFwCancel
  try dsimp only
  repeat' first
    | with_reducible exact h
    | with_reducible apply State.cmdRow_evolves
    | with_reducible assumption
    | with_reducible refine evolves_ite (fun _ => ?_) (fun _ => ?_)
    | with_reducible refine evolves_foldl (fun _ _ _ => ?_) ?_
    | with_reducible refine answersE_next ?_
    | split
theorem execFwOperationDone_evolves {r : State} (v : FwVerdict) (s : State)
    (h : r.Evolves s) : AnswersE r (execFwOperationDone v s) := by
  unfold execFwOperationDone
  try dsimp only
  repeat' first
    | with_reducible exact h
    | with_reducible apply State.fwDone_evolves
    | with_reducible assumption
    | with_reducible refine evolves_ite (fun _ => ?_) (fun _ => ?_)
    | with_reducible refine evolves_foldl (fun _ _ _ => ?_) ?_
    | with_reducible refine answersE_next ?_
    | split
theorem execTestStateEnter_evolves {r : State} (w : Who) (s : State)
    (h : r.Evolves s) : AnswersE r (execTestStateEnter w s) := by
  unfold execTestStateEnter
  try dsimp only
  repeat' first
    | with_reducible exact h
    | with_reducible apply State.cmdRow_evolves
    | with_reducible assumption
    | with_reducible refine evolves_ite (fun _ => ?_) (fun _ => ?_)
    | with_reducible refine evolves_foldl (fun _ _ _ => ?_) ?_
    | with_reducible refine answersE_next ?_
    | split
theorem execTestStateLeave_evolves {r : State} (w : Who) (s : State)
    (h : r.Evolves s) : AnswersE r (execTestStateLeave w s) := by
  unfold execTestStateLeave
  try dsimp only
  repeat' first
    | with_reducible exact h
    | with_reducible apply State.cmdRow_evolves
    | with_reducible assumption
    | with_reducible refine evolves_ite (fun _ => ?_) (fun _ => ?_)
    | with_reducible refine evolves_foldl (fun _ _ _ => ?_) ?_
    | with_reducible refine answersE_next ?_
    | split
theorem execSelfTestStart_evolves {r : State} (w : Who) (s : State)
    (h : r.Evolves s) : AnswersE r (execSelfTestStart w s) := by
  unfold execSelfTestStart
  try dsimp only
  repeat' first
    | with_reducible exact h
    | with_reducible apply State.cmdRow_evolves
    | with_reducible assumption
    | with_reducible refine evolves_ite (fun _ => ?_) (fun _ => ?_)
    | with_reducible refine evolves_foldl (fun _ _ _ => ?_) ?_
    | with_reducible refine answersE_next ?_
    | split
theorem execSelfTestCancel_evolves {r : State} (w : Who) (s : State)
    (h : r.Evolves s) : AnswersE r (execSelfTestCancel w s) := by
  unfold execSelfTestCancel
  try dsimp only
  repeat' first
    | with_reducible exact h
    | with_reducible apply State.cmdRow_evolves
    | with_reducible assumption
    | with_reducible refine evolves_ite (fun _ => ?_) (fun _ => ?_)
    | with_reducible refine evolves_foldl (fun _ _ _ => ?_) ?_
    | with_reducible refine answersE_next ?_
    | split
theorem execSelfTestDone_evolves {r : State} (errors : Nat) (first : Nat) (badBlocks : List Nat) (s : State)
    (h : r.Evolves s) : AnswersE r (execSelfTestDone errors first badBlocks s) := by
  unfold execSelfTestDone
  try dsimp only
  repeat' first
    | with_reducible exact h
    | with_reducible apply State.selfTestDone_evolves
    | with_reducible assumption
    | with_reducible refine evolves_ite (fun _ => ?_) (fun _ => ?_)
    | with_reducible refine evolves_foldl (fun _ _ _ => ?_) ?_
    | with_reducible refine answersE_next ?_
    | split
theorem execReadBackData_evolves {r : State} (w : Who) (s : State)
    (h : r.Evolves s) : AnswersE r (execReadBackData w s) := by
  unfold execReadBackData
  try dsimp only
  repeat' first
    | with_reducible exact h
    | with_reducible apply State.takeDtp_evolves
    | with_reducible assumption
    | with_reducible refine evolves_ite (fun _ => ?_) (fun _ => ?_)
    | with_reducible refine evolves_foldl (fun _ _ _ => ?_) ?_
    | with_reducible refine answersE_next ?_
    | split
theorem execCounterSnapshot_evolves {r : State} (w : Who) (s : State)
    (h : r.Evolves s) : AnswersE r (execCounterSnapshot w s) := by
  unfold execCounterSnapshot
  try dsimp only
  repeat' first
    | with_reducible exact h
    | with_reducible apply State.cmdRow_evolves
    | with_reducible assumption
    | with_reducible refine evolves_ite (fun _ => ?_) (fun _ => ?_)
    | with_reducible refine evolves_foldl (fun _ _ _ => ?_) ?_
    | with_reducible refine answersE_next ?_
    | split
theorem execCounterSnapshotClear_evolves {r : State} (w : Who) (s : State)
    (h : r.Evolves s) : AnswersE r (execCounterSnapshotClear w s) := by
  unfold execCounterSnapshotClear
  try dsimp only
  repeat' first
    | with_reducible exact h
    | with_reducible apply State.cmdRow_evolves
    | with_reducible assumption
    | with_reducible refine evolves_ite (fun _ => ?_) (fun _ => ?_)
    | with_reducible refine evolves_foldl (fun _ _ _ => ?_) ?_
    | with_reducible refine answersE_next ?_
    | split
theorem execOverflowClear_evolves {r : State} (w : Who) (block : Nat) (mask : BitVec 8) (s : State)
    (h : r.Evolves s) : AnswersE r (execOverflowClear w block mask s) := by
  unfold execOverflowClear
  try dsimp only
  repeat' first
    | with_reducible exact h
    | with_reducible apply State.cmdRow_evolves
    | with_reducible assumption
    | with_reducible refine evolves_ite (fun _ => ?_) (fun _ => ?_)
    | with_reducible refine evolves_foldl (fun _ _ _ => ?_) ?_
    | with_reducible refine answersE_next ?_
    | split
theorem execFirkinFreeze_evolves {r : State} (w : Who) (s : State)
    (h : r.Evolves s) : AnswersE r (execFirkinFreeze w s) := by
  unfold execFirkinFreeze
  try dsimp only
  repeat' first
    | with_reducible exact h
    | with_reducible apply State.cmdRow_evolves
    | with_reducible assumption
    | with_reducible refine evolves_ite (fun _ => ?_) (fun _ => ?_)
    | with_reducible refine evolves_foldl (fun _ _ _ => ?_) ?_
    | with_reducible refine answersE_next ?_
    | split
theorem execFirkinThaw_evolves {r : State} (w : Who) (s : State)
    (h : r.Evolves s) : AnswersE r (execFirkinThaw w s) := by
  unfold execFirkinThaw
  try dsimp only
  repeat' first
    | with_reducible exact h
    | with_reducible apply State.cmdRow_evolves
    | with_reducible assumption
    | with_reducible refine evolves_ite (fun _ => ?_) (fun _ => ?_)
    | with_reducible refine evolves_foldl (fun _ _ _ => ?_) ?_
    | with_reducible refine answersE_next ?_
    | split
theorem execEventPailRead_evolves {r : State} (w : Who) (s : State)
    (h : r.Evolves s) : AnswersE r (execEventPailRead w s) := by
  unfold execEventPailRead
  try dsimp only
  repeat' first
    | with_reducible exact h
    | with_reducible apply State.takeDtp_evolves
    | with_reducible assumption
    | with_reducible refine evolves_ite (fun _ => ?_) (fun _ => ?_)
    | with_reducible refine evolves_foldl (fun _ _ _ => ?_) ?_
    | with_reducible refine answersE_next ?_
    | split
theorem execEventPailDropRemainder_evolves {r : State} (w : Who) (s : State)
    (h : r.Evolves s) : AnswersE r (execEventPailDropRemainder w s) := by
  unfold execEventPailDropRemainder
  try dsimp only
  repeat' first
    | with_reducible exact h
    | with_reducible apply State.cmdRow_evolves
    | with_reducible assumption
    | with_reducible refine evolves_ite (fun _ => ?_) (fun _ => ?_)
    | with_reducible refine evolves_foldl (fun _ _ _ => ?_) ?_
    | with_reducible refine answersE_next ?_
    | split
theorem execOverrunRead_evolves {r : State} (w : Who) (s : State)
    (h : r.Evolves s) : AnswersE r (execOverrunRead w s) := by
  unfold execOverrunRead
  try dsimp only
  repeat' first
    | with_reducible exact h
    | with_reducible apply State.takeDtp_evolves
    | with_reducible assumption
    | with_reducible refine evolves_ite (fun _ => ?_) (fun _ => ?_)
    | with_reducible refine evolves_foldl (fun _ _ _ => ?_) ?_
    | with_reducible refine answersE_next ?_
    | split
theorem execPowerBudgetWrite_evolves {r : State} (w : Who) (mw : Nat) (s : State)
    (h : r.Evolves s) : AnswersE r (execPowerBudgetWrite w mw s) := by
  unfold execPowerBudgetWrite
  try dsimp only
  repeat' first
    | with_reducible exact h
    | with_reducible apply State.writeRow_evolves
    | with_reducible assumption
    | with_reducible refine evolves_ite (fun _ => ?_) (fun _ => ?_)
    | with_reducible refine evolves_foldl (fun _ _ _ => ?_) ?_
    | with_reducible refine answersE_next ?_
    | split
theorem execRetrain_evolves {r : State} (w : Who) (mask : BitVec 8) (s : State)
    (h : r.Evolves s) : AnswersE r (execRetrain w mask s) := by
  unfold execRetrain
  try dsimp only
  repeat' first
    | with_reducible exact h
    | with_reducible apply State.cmdRow_evolves
    | with_reducible assumption
    | with_reducible refine evolves_ite (fun _ => ?_) (fun _ => ?_)
    | with_reducible refine evolves_foldl (fun _ _ _ => ?_) ?_
    | with_reducible refine answersE_next ?_
    | split
theorem execJoin_evolves {r : State} (w : Who) (s : State)
    (h : r.Evolves s) : AnswersE r (execJoin w s) := by
  unfold execJoin
  try dsimp only
  repeat' first
    | with_reducible exact h
    | with_reducible apply State.cmdRow_evolves
    | with_reducible assumption
    | with_reducible refine evolves_ite (fun _ => ?_) (fun _ => ?_)
    | with_reducible refine evolves_foldl (fun _ _ _ => ?_) ?_
    | with_reducible refine answersE_next ?_
    | split
theorem execPrevail_evolves {r : State} (w : Who) (s : State)
    (h : r.Evolves s) : AnswersE r (execPrevail w s) := by
  unfold execPrevail
  try dsimp only
  repeat' first
    | with_reducible exact h
    | with_reducible apply State.cmdRow_evolves
    | with_reducible assumption
    | with_reducible refine evolves_ite (fun _ => ?_) (fun _ => ?_)
    | with_reducible refine evolves_foldl (fun _ _ _ => ?_) ?_
    | with_reducible refine answersE_next ?_
    | split
theorem execForceSole_evolves {r : State} (w : Who) (s : State)
    (h : r.Evolves s) : AnswersE r (execForceSole w s) := by
  unfold execForceSole
  try dsimp only
  repeat' first
    | with_reducible exact h
    | with_reducible apply State.cmdRow_evolves
    | with_reducible assumption
    | with_reducible refine evolves_ite (fun _ => ?_) (fun _ => ?_)
    | with_reducible refine evolves_foldl (fun _ _ _ => ?_) ?_
    | with_reducible refine answersE_next ?_
    | split
theorem execWithdraw_evolves {r : State} (w : Who) (s : State)
    (h : r.Evolves s) : AnswersE r (execWithdraw w s) := by
  unfold execWithdraw
  try dsimp only
  repeat' first
    | with_reducible exact h
    | with_reducible apply State.cmdRow_evolves
    | with_reducible assumption
    | with_reducible refine evolves_ite (fun _ => ?_) (fun _ => ?_)
    | with_reducible refine evolves_foldl (fun _ _ _ => ?_) ?_
    | with_reducible refine answersE_next ?_
    | split
theorem execLeave_evolves {r : State} (w : Who) (s : State)
    (h : r.Evolves s) : AnswersE r (execLeave w s) := by
  unfold execLeave
  try dsimp only
  repeat' first
    | with_reducible exact h
    | with_reducible apply State.cmdRow_evolves
    | with_reducible assumption
    | with_reducible refine evolves_ite (fun _ => ?_) (fun _ => ?_)
    | with_reducible refine evolves_foldl (fun _ _ _ => ?_) ?_
    | with_reducible refine answersE_next ?_
    | split

end Sys2Proof.Machine
end

