-- ==== Sys2Proof/Laws/EvolvesYokeOps.lean ====
section
/-!
SUPPORT. How the operations of Machine/YokeOps.lean let the state evolve.
-/
namespace Sys2Proof.Machine

theorem execYokeTrainingDone_evolves {r : State} (speed : Nat) (width : Nat) (credits : List Nat) (s : State)
    (h : r.Evolves s) : AnswersE r (execYokeTrainingDone speed width credits s) := by
  unfold execYokeTrainingDone
  try dsimp only
  repeat' first
    | with_reducible exact h
    | with_reducible apply State.log_evolves
    | with_reducible apply State.sendMember_evolves
    | with_reducible apply State.serveWaiting_evolves
    | with_reducible apply State.yokeDown_evolves
    | with_reducible refine State.evolves_upYoke _ ?_ ?_
    | with_reducible exact fun _ _ _ k => k
    | with_reducible assumption
    | with_reducible refine evolves_ite (fun _ => ?_) (fun _ => ?_)
    | with_reducible refine evolves_foldl (fun _ _ _ => ?_) ?_
    | with_reducible refine answersE_next ?_
    | split
theorem State.takeFrame_evolves {r : State} (frame : Bytes) (s : State)
    (h : r.Evolves s) : r.Evolves (State.takeFrame frame s) := by
  unfold State.takeFrame
  try dsimp only
  repeat' first
    | with_reducible exact h
    | with_reducible apply State.count_evolves
    | with_reducible apply State.heard_evolves
    | with_reducible apply State.sendWaiting_evolves
    | with_reducible apply State.yokeDown_evolves
    | with_reducible refine State.evolves_upYoke _ ?_ ?_
    | with_reducible exact fun _ _ _ k => k
    | (with_reducible intro b e q k); dsimp only [Yoke.acked]; split <;> exact k
    | with_reducible assumption
    | with_reducible refine evolves_ite (fun _ => ?_) (fun _ => ?_)
    | with_reducible refine evolves_foldl (fun _ _ _ => ?_) ?_
    | split
theorem execYokeFrameReceive_evolves {r : State} (frame : Bytes) (s : State)
    (h : r.Evolves s) : AnswersE r (execYokeFrameReceive frame s) := by
  unfold execYokeFrameReceive
  try dsimp only
  repeat' first
    | with_reducible exact h
    | with_reducible apply State.serveWaiting_evolves
    | with_reducible apply State.takeFrame_evolves
    | with_reducible assumption
    | with_reducible refine evolves_ite (fun _ => ?_) (fun _ => ?_)
    | with_reducible refine evolves_foldl (fun _ _ _ => ?_) ?_
    | with_reducible refine answersE_next ?_
    | split
theorem execYokeRetransmit_evolves {r : State} (s : State)
    (h : r.Evolves s) : AnswersE r (execYokeRetransmit s) := by
  unfold execYokeRetransmit
  try dsimp only
  repeat' first
    | with_reducible exact h
    | with_reducible apply State.count_evolves
    | with_reducible apply State.elapseTo_evolves
    | with_reducible refine State.evolves_upYoke _ ?_ ?_
    | with_reducible exact fun _ _ _ k => k
    | with_reducible assumption
    | with_reducible refine evolves_ite (fun _ => ?_) (fun _ => ?_)
    | with_reducible refine evolves_foldl (fun _ _ _ => ?_) ?_
    | with_reducible refine answersE_next ?_
    | split
theorem State.arrives_evolves {r : State} (f : State → State) (s : State)
    (h : r.Evolves s) (hrun : ∀ t, r.Evolves t → r.Evolves (f t)) : r.Evolves (State.arrives f s) := by
  unfold State.arrives
  try dsimp only
  repeat' first
    | with_reducible exact h
    | with_reducible apply State.heard_evolves
    | with_reducible apply State.serveWaiting_evolves
    | with_reducible assumption
    | with_reducible refine evolves_ite (fun _ => ?_) (fun _ => ?_)
    | with_reducible refine evolves_foldl (fun _ _ _ => ?_) ?_
    | with_reducible refine hrun _ ?_
    | (with_reducible intro _ _); dsimp only
    | with_reducible intro _ _
    | split
theorem State.message_evolves {r : State} (ty : Nat) (f : State → State) (s : State)
    (h : r.Evolves s) (hrun : ∀ t, r.Evolves t → r.Evolves (f t)) : r.Evolves (State.message ty f s) := by
  unfold State.message
  try dsimp only
  repeat' first
    | with_reducible exact h
    | with_reducible apply State.arrives_evolves
    | with_reducible apply State.owe_evolves
    | with_reducible assumption
    | with_reducible refine evolves_ite (fun _ => ?_) (fun _ => ?_)
    | with_reducible refine evolves_foldl (fun _ _ _ => ?_) ?_
    | with_reducible refine hrun _ ?_
    | (with_reducible intro _ _); dsimp only
    | with_reducible intro _ _
    | split
    | with_reducible refine evolvesPP_mk ?_
    | with_reducible refine EvolvesPP.snd ?_
    | with_reducible refine EvolvesPP.out (by assumption) ?_
theorem State.pairMessage_evolves {r : State} (ty : Nat) (f : State → State) (s : State)
    (h : r.Evolves s) (hrun : ∀ t, r.Evolves t → r.Evolves (f t)) : r.Evolves (State.pairMessage ty f s) := by
  unfold State.pairMessage
  try dsimp only
  repeat' first
    | with_reducible exact h
    | with_reducible apply State.message_evolves
    | with_reducible assumption
    | with_reducible refine evolves_ite (fun _ => ?_) (fun _ => ?_)
    | with_reducible refine evolves_foldl (fun _ _ _ => ?_) ?_
    | with_reducible refine hrun _ ?_
    | (with_reducible intro _ _); dsimp only
    | with_reducible intro _ _
    | split
    | with_reducible refine evolvesPP_mk ?_
    | with_reducible refine EvolvesPP.snd ?_
    | with_reducible refine EvolvesPP.out (by assumption) ?_
theorem execForward_evolves {r : State} (m : YokeWrite) (s : State)
    (h : r.Evolves s) : AnswersE r (execForward m s) := by
  unfold execForward
  try dsimp only
  repeat' first
    | with_reducible exact h
    | with_reducible apply State.arrives_evolves
    | with_reducible apply State.noteYokeCrc_evolves
    | with_reducible apply State.takeMessage_evolves
    | with_reducible assumption
    | with_reducible refine evolves_ite (fun _ => ?_) (fun _ => ?_)
    | with_reducible refine evolves_foldl (fun _ _ _ => ?_) ?_
    | with_reducible refine answersE_next ?_
    | (with_reducible intro _ _); dsimp only
    | with_reducible intro _ _
    | split
    | with_reducible refine evolvesPP_mk ?_
    | with_reducible refine EvolvesPP.snd ?_
    | with_reducible refine EvolvesPP.out (by assumption) ?_
theorem execMirror_evolves {r : State} (m : YokeWrite) (s : State)
    (h : r.Evolves s) : AnswersE r (execMirror m s) := by
  unfold execMirror
  try dsimp only
  repeat' first
    | with_reducible exact h
    | with_reducible apply State.arrives_evolves
    | with_reducible apply State.endResync_evolves
    | with_reducible apply State.noteYokeCrc_evolves
    | with_reducible apply State.takeMessage_evolves
    | with_reducible assumption
    | with_reducible refine evolves_ite (fun _ => ?_) (fun _ => ?_)
    | with_reducible refine evolves_foldl (fun _ _ _ => ?_) ?_
    | with_reducible refine answersE_next ?_
    | (with_reducible intro _ _); dsimp only
    | with_reducible intro _ _
    | split
    | with_reducible refine evolvesPP_mk ?_
    | with_reducible refine EvolvesPP.snd ?_
    | with_reducible refine EvolvesPP.out (by assumption) ?_
theorem execOrdered_evolves {r : State} (tag : Nat) (outcome : Nat) (s : State)
    (h : r.Evolves s) : AnswersE r (execOrdered tag outcome s) := by
  unfold execOrdered
  try dsimp only
  repeat' first
    | with_reducible exact h
    | with_reducible apply State.arrives_evolves
    | with_reducible apply State.endResync_evolves
    | with_reducible apply State.takeMessage_evolves
    | with_reducible assumption
    | with_reducible refine evolves_ite (fun _ => ?_) (fun _ => ?_)
    | with_reducible refine evolves_foldl (fun _ _ _ => ?_) ?_
    | with_reducible refine answersE_next ?_
    | (with_reducible intro _ _); dsimp only
    | with_reducible intro _ _
    | split
    | with_reducible refine evolvesPP_mk ?_
    | with_reducible refine EvolvesPP.snd ?_
    | with_reducible refine EvolvesPP.out (by assumption) ?_
theorem execMirrorAck_evolves {r : State} (tag : Nat) (s : State)
    (h : r.Evolves s) : AnswersE r (execMirrorAck tag s) := by
  unfold execMirrorAck
  try dsimp only
  repeat' first
    | with_reducible exact h
    | with_reducible apply State.ackMirror_evolves
    | with_reducible apply State.pairMessage_evolves
    | with_reducible assumption
    | with_reducible refine evolves_ite (fun _ => ?_) (fun _ => ?_)
    | with_reducible refine evolves_foldl (fun _ _ _ => ?_) ?_
    | with_reducible refine answersE_next ?_
    | (with_reducible intro _ _); dsimp only
    | with_reducible intro _ _
    | split
    | with_reducible refine evolvesPP_mk ?_
    | with_reducible refine EvolvesPP.snd ?_
    | with_reducible refine EvolvesPP.out (by assumption) ?_
theorem execReadForward_evolves {r : State} (tag : Nat) (line : Nat) (s : State)
    (h : r.Evolves s) : AnswersE r (execReadForward tag line s) := by
  unfold execReadForward
  try dsimp only
  repeat' first
    | with_reducible exact h
    | with_reducible apply State.pairMessage_evolves
    | with_reducible apply State.takeReadForward_evolves
    | with_reducible assumption
    | with_reducible refine evolves_ite (fun _ => ?_) (fun _ => ?_)
    | with_reducible refine evolves_foldl (fun _ _ _ => ?_) ?_
    | with_reducible refine answersE_next ?_
    | (with_reducible intro _ _); dsimp only
    | with_reducible intro _ _
    | split
    | with_reducible refine evolvesPP_mk ?_
    | with_reducible refine EvolvesPP.snd ?_
    | with_reducible refine EvolvesPP.out (by assumption) ?_
theorem execReadData_evolves {r : State} (tag : Nat) (line : Nat) (data : Line) (poisoned : Bool) (lineOk : Bool) (s : State)
    (h : r.Evolves s) : AnswersE r (execReadData tag line data poisoned lineOk s) := by
  unfold execReadData
  try dsimp only
  repeat' first
    | with_reducible exact h
    | with_reducible apply State.noteYokeCrc_evolves
    | with_reducible apply State.pairMessage_evolves
    | with_reducible apply State.takeReadData_evolves
    | with_reducible assumption
    | with_reducible refine evolves_ite (fun _ => ?_) (fun _ => ?_)
    | with_reducible refine evolves_foldl (fun _ _ _ => ?_) ?_
    | with_reducible refine answersE_next ?_
    | (with_reducible intro _ _); dsimp only
    | with_reducible intro _ _
    | split
    | with_reducible refine evolvesPP_mk ?_
    | with_reducible refine EvolvesPP.snd ?_
    | with_reducible refine EvolvesPP.out (by assumption) ?_
theorem execResyncGrainRead_evolves {r : State} (reads : List WordRead) (s : State)
    (h : r.Evolves s) : AnswersE r (execResyncGrainRead reads s) := by
  unfold execResyncGrainRead
  try dsimp only
  repeat' first
    | with_reducible exact h
    | with_reducible apply State.elapseTo_evolves
    | with_reducible apply State.feedGrain_evolves
    | with_reducible assumption
    | with_reducible refine evolves_ite (fun _ => ?_) (fun _ => ?_)
    | with_reducible refine evolves_foldl (fun _ _ _ => ?_) ?_
    | with_reducible refine answersE_next ?_
    | split
theorem execResyncSector_evolves {r : State} (grain : Nat) (sector : Nat) (st : Nat) (data : List Line) (poison : BitVec 32) (crcBad : BitVec 32) (s : State)
    (h : r.Evolves s) : AnswersE r (execResyncSector grain sector st data poison crcBad s) := by
  unfold execResyncSector
  try dsimp only
  repeat' first
    | with_reducible exact h
    | with_reducible apply State.message_evolves
    | with_reducible apply State.noteYokeCrc_evolves
    | with_reducible apply State.takeSector_evolves
    | with_reducible assumption
    | with_reducible refine evolves_ite (fun _ => ?_) (fun _ => ?_)
    | with_reducible refine evolves_foldl (fun _ _ _ => ?_) ?_
    | with_reducible refine answersE_next ?_
    | (with_reducible intro _ _); dsimp only
    | with_reducible intro _ _
    | split
    | with_reducible refine evolvesPP_mk ?_
    | with_reducible refine EvolvesPP.snd ?_
    | with_reducible refine EvolvesPP.out (by assumption) ?_
theorem execResyncAck_evolves {r : State} (grain : Nat) (s : State)
    (h : r.Evolves s) : AnswersE r (execResyncAck grain s) := by
  unfold execResyncAck
  try dsimp only
  repeat' first
    | with_reducible exact h
    | with_reducible apply State.message_evolves
    | with_reducible apply State.resyncAcked_evolves
    | with_reducible assumption
    | with_reducible refine evolves_ite (fun _ => ?_) (fun _ => ?_)
    | with_reducible refine evolves_foldl (fun _ _ _ => ?_) ?_
    | with_reducible refine answersE_next ?_
    | (with_reducible intro _ _); dsimp only
    | with_reducible intro _ _
    | split
    | with_reducible refine evolvesPP_mk ?_
    | with_reducible refine EvolvesPP.snd ?_
    | with_reducible refine EvolvesPP.out (by assumption) ?_
theorem execResyncClear_evolves {r : State} (grain : Nat) (s : State)
    (h : r.Evolves s) : AnswersE r (execResyncClear grain s) := by
  unfold execResyncClear
  try dsimp only
  repeat' first
    | with_reducible exact h
    | with_reducible apply State.message_evolves
    | with_reducible apply State.resyncCleared_evolves
    | with_reducible assumption
    | with_reducible refine evolves_ite (fun _ => ?_) (fun _ => ?_)
    | with_reducible refine evolves_foldl (fun _ _ _ => ?_) ?_
    | with_reducible refine answersE_next ?_
    | (with_reducible intro _ _); dsimp only
    | with_reducible intro _ _
    | split
    | with_reducible refine evolvesPP_mk ?_
    | with_reducible refine EvolvesPP.snd ?_
    | with_reducible refine EvolvesPP.out (by assumption) ?_
theorem execBitmapUnit_evolves {r : State} (unit : Nat) (set : List Nat) (s : State)
    (h : r.Evolves s) : AnswersE r (execBitmapUnit unit set s) := by
  unfold execBitmapUnit
  try dsimp only
  repeat' first
    | with_reducible exact h
    | with_reducible apply State.message_evolves
    | with_reducible apply State.takeBitmap_evolves
    | with_reducible assumption
    | with_reducible refine evolves_ite (fun _ => ?_) (fun _ => ?_)
    | with_reducible refine evolves_foldl (fun _ _ _ => ?_) ?_
    | with_reducible refine answersE_next ?_
    | (with_reducible intro _ _); dsimp only
    | with_reducible intro _ _
    | split
    | with_reducible refine evolvesPP_mk ?_
    | with_reducible refine EvolvesPP.snd ?_
    | with_reducible refine EvolvesPP.out (by assumption) ?_
theorem execHeartbeatSend_evolves {r : State} (s : State)
    (h : r.Evolves s) : AnswersE r (execHeartbeatSend s) := by
  unfold execHeartbeatSend
  try dsimp only
  repeat' first
    | with_reducible exact h
    | with_reducible apply State.answerRelease_evolves
    | with_reducible apply State.sendMember_evolves
    | with_reducible assumption
    | with_reducible refine evolves_ite (fun _ => ?_) (fun _ => ?_)
    | with_reducible refine evolves_foldl (fun _ _ _ => ?_) ?_
    | with_reducible refine answersE_next ?_
    | split
theorem execHeartbeat_evolves {r : State} (m : Membership) (s : State)
    (h : r.Evolves s) : AnswersE r (execHeartbeat m s) := by
  unfold execHeartbeat
  try dsimp only
  repeat' first
    | with_reducible exact h
    | with_reducible apply State.endResync_evolves
    | with_reducible apply State.message_evolves
    | with_reducible apply State.notePeer_evolves
    | with_reducible apply State.resume_evolves
    | with_reducible refine State.evolves_upYoke _ ?_ ?_
    | with_reducible exact fun _ _ _ k => k
    | with_reducible assumption
    | with_reducible refine evolves_ite (fun _ => ?_) (fun _ => ?_)
    | with_reducible refine evolves_foldl (fun _ _ _ => ?_) ?_
    | with_reducible refine answersE_next ?_
    | (with_reducible intro _ _); dsimp only
    | with_reducible intro _ _
    | split
    | with_reducible refine evolvesPP_mk ?_
    | with_reducible refine EvolvesPP.snd ?_
    | with_reducible refine EvolvesPP.out (by assumption) ?_
theorem execHello_evolves {r : State} (m : Membership) (x : HelloInfo) (s : State)
    (h : r.Evolves s) : AnswersE r (execHello m x s) := by
  unfold execHello
  try dsimp only
  repeat' first
    | with_reducible exact h
    | with_reducible apply State.handshake_evolves
    | with_reducible apply State.message_evolves
    | with_reducible apply State.notePeer_evolves
    | with_reducible apply State.resume_evolves
    | with_reducible assumption
    | with_reducible refine evolves_ite (fun _ => ?_) (fun _ => ?_)
    | with_reducible refine evolves_foldl (fun _ _ _ => ?_) ?_
    | with_reducible refine answersE_next ?_
    | (with_reducible intro _ _); dsimp only
    | with_reducible intro _ _
    | split
    | with_reducible refine evolvesPP_mk ?_
    | with_reducible refine EvolvesPP.snd ?_
    | with_reducible refine EvolvesPP.out (by assumption) ?_
theorem execStandDown_evolves {r : State} (m : Membership) (s : State)
    (h : r.Evolves s) : AnswersE r (execStandDown m s) := by
  unfold execStandDown
  try dsimp only
  repeat' first
    | with_reducible exact h
    | with_reducible apply State.message_evolves
    | with_reducible apply State.peerStoodDown_evolves
    | with_reducible assumption
    | with_reducible refine evolves_ite (fun _ => ?_) (fun _ => ?_)
    | with_reducible refine evolves_foldl (fun _ _ _ => ?_) ?_
    | with_reducible refine answersE_next ?_
    | (with_reducible intro _ _); dsimp only
    | with_reducible intro _ _
    | split
    | with_reducible refine evolvesPP_mk ?_
    | with_reducible refine EvolvesPP.snd ?_
    | with_reducible refine EvolvesPP.out (by assumption) ?_
theorem execModuleStandDown_evolves {r : State} (cause : StandDownCause) (s : State)
    (h : r.Evolves s) : AnswersE r (execModuleStandDown cause s) := by
  unfold execModuleStandDown
  try dsimp only
  repeat' first
    | with_reducible exact h
    | with_reducible apply State.becomeFenced_evolves
    | with_reducible apply State.loseCommit_evolves
    | with_reducible apply State.serveWaiting_evolves
    | with_reducible apply State.standDown_evolves
    | with_reducible apply State.withdrawNow_evolves
    | with_reducible assumption
    | with_reducible refine evolves_ite (fun _ => ?_) (fun _ => ?_)
    | with_reducible refine evolves_foldl (fun _ _ _ => ?_) ?_
    | with_reducible refine answersE_next ?_
    | split
theorem execCommitPrepare_evolves {r : State} (batch : Nat) (seg : Nat) (last : Bool) (recs : List StageRec) (s : State)
    (h : r.Evolves s) : AnswersE r (execCommitPrepare batch seg last recs s) := by
  unfold execCommitPrepare
  try dsimp only
  repeat' first
    | with_reducible exact h
    | with_reducible apply State.message_evolves
    | with_reducible apply State.takePrepare_evolves
    | with_reducible assumption
    | with_reducible refine evolves_ite (fun _ => ?_) (fun _ => ?_)
    | with_reducible refine evolves_foldl (fun _ _ _ => ?_) ?_
    | with_reducible refine answersE_next ?_
    | (with_reducible intro _ _); dsimp only
    | with_reducible intro _ _
    | split
    | with_reducible refine evolvesPP_mk ?_
    | with_reducible refine EvolvesPP.snd ?_
    | with_reducible refine EvolvesPP.out (by assumption) ?_
theorem execCommitVote_evolves {r : State} (batch : Nat) (code : Nat) (s : State)
    (h : r.Evolves s) : AnswersE r (execCommitVote batch code s) := by
  unfold execCommitVote
  try dsimp only
  repeat' first
    | with_reducible exact h
    | with_reducible apply State.message_evolves
    | with_reducible apply State.takeVote_evolves
    | with_reducible assumption
    | with_reducible refine evolves_ite (fun _ => ?_) (fun _ => ?_)
    | with_reducible refine evolves_foldl (fun _ _ _ => ?_) ?_
    | with_reducible refine answersE_next ?_
    | (with_reducible intro _ _); dsimp only
    | with_reducible intro _ _
    | split
    | with_reducible refine evolvesPP_mk ?_
    | with_reducible refine EvolvesPP.snd ?_
    | with_reducible refine EvolvesPP.out (by assumption) ?_
theorem execCommitApply_evolves {r : State} (batch : Nat) (s : State)
    (h : r.Evolves s) : AnswersE r (execCommitApply batch s) := by
  unfold execCommitApply
  try dsimp only
  repeat' first
    | with_reducible exact h
    | with_reducible apply State.message_evolves
    | with_reducible apply State.takeApply_evolves
    | with_reducible assumption
    | with_reducible refine evolves_ite (fun _ => ?_) (fun _ => ?_)
    | with_reducible refine evolves_foldl (fun _ _ _ => ?_) ?_
    | with_reducible refine answersE_next ?_
    | (with_reducible intro _ _); dsimp only
    | with_reducible intro _ _
    | split
    | with_reducible refine evolvesPP_mk ?_
    | with_reducible refine EvolvesPP.snd ?_
    | with_reducible refine EvolvesPP.out (by assumption) ?_
theorem execCommitDone_evolves {r : State} (batch : Nat) (s : State)
    (h : r.Evolves s) : AnswersE r (execCommitDone batch s) := by
  unfold execCommitDone
  try dsimp only
  repeat' first
    | with_reducible exact h
    | with_reducible apply State.message_evolves
    | with_reducible apply State.takeDone_evolves
    | with_reducible assumption
    | with_reducible refine evolves_ite (fun _ => ?_) (fun _ => ?_)
    | with_reducible refine evolves_foldl (fun _ _ _ => ?_) ?_
    | with_reducible refine answersE_next ?_
    | (with_reducible intro _ _); dsimp only
    | with_reducible intro _ _
    | split
    | with_reducible refine evolvesPP_mk ?_
    | with_reducible refine EvolvesPP.snd ?_
    | with_reducible refine EvolvesPP.out (by assumption) ?_
theorem execNotice_evolves {r : State} (code : Nat) (keyId : Nat) (base : Nat) (length : Nat) (s : State)
    (h : r.Evolves s) : AnswersE r (execNotice code keyId base length s) := by
  unfold execNotice
  try dsimp only
  repeat' first
    | with_reducible exact h
    | with_reducible apply State.pairMessage_evolves
    | with_reducible apply State.takeNotice_evolves
    | with_reducible assumption
    | with_reducible refine evolves_ite (fun _ => ?_) (fun _ => ?_)
    | with_reducible refine evolves_foldl (fun _ _ _ => ?_) ?_
    | with_reducible refine answersE_next ?_
    | (with_reducible intro _ _); dsimp only
    | with_reducible intro _ _
    | split
    | with_reducible refine evolvesPP_mk ?_
    | with_reducible refine EvolvesPP.snd ?_
    | with_reducible refine EvolvesPP.out (by assumption) ?_
theorem execGrainChange_evolves {r : State} (grain : Nat) (st : Nat) (s : State)
    (h : r.Evolves s) : AnswersE r (execGrainChange grain st s) := by
  unfold execGrainChange
  try dsimp only
  repeat' first
    | with_reducible exact h
    | with_reducible apply State.arrives_evolves
    | with_reducible apply State.checkDies_evolves
    | with_reducible apply State.takeMessage_evolves
    | with_reducible assumption
    | with_reducible refine evolves_ite (fun _ => ?_) (fun _ => ?_)
    | with_reducible refine evolves_foldl (fun _ _ _ => ?_) ?_
    | with_reducible refine answersE_next ?_
    | (with_reducible intro _ _); dsimp only
    | with_reducible intro _ _
    | split
    | with_reducible refine evolvesPP_mk ?_
    | with_reducible refine EvolvesPP.snd ?_
    | with_reducible refine EvolvesPP.out (by assumption) ?_
theorem execGrainChangeAck_evolves {r : State} (grain : Nat) (s : State)
    (h : r.Evolves s) : AnswersE r (execGrainChangeAck grain s) := by
  unfold execGrainChangeAck
  try dsimp only
  repeat' first
    | with_reducible exact h
    | with_reducible apply State.arrives_evolves
    | with_reducible apply State.checkDies_evolves
    | with_reducible apply State.takeMessage_evolves
    | with_reducible assumption
    | with_reducible refine evolves_ite (fun _ => ?_) (fun _ => ?_)
    | with_reducible refine evolves_foldl (fun _ _ _ => ?_) ?_
    | with_reducible refine answersE_next ?_
    | (with_reducible intro _ _); dsimp only
    | with_reducible intro _ _
    | split
    | with_reducible refine evolvesPP_mk ?_
    | with_reducible refine EvolvesPP.snd ?_
    | with_reducible refine EvolvesPP.out (by assumption) ?_
theorem execYokeDictionary_evolves {r : State} (msg : Bytes) (s : State)
    (h : r.Evolves s) : AnswersE r (execYokeDictionary msg s) := by
  unfold execYokeDictionary
  try dsimp only
  repeat' first
    | with_reducible exact h
    | with_reducible apply State.message_evolves
    | with_reducible apply State.send_evolves
    | with_reducible apply State.takeBytes_evolves
    | with_reducible refine State.evolves_upDict _ ?_
    | with_reducible assumption
    | with_reducible refine evolves_ite (fun _ => ?_) (fun _ => ?_)
    | with_reducible refine evolves_foldl (fun _ _ _ => ?_) ?_
    | with_reducible refine answersE_next ?_
    | (with_reducible intro _ _); dsimp only
    | with_reducible intro _ _
    | split
    | with_reducible refine evolvesPP_mk ?_
    | with_reducible refine EvolvesPP.snd ?_
    | with_reducible refine EvolvesPP.out (by assumption) ?_
theorem execYokeSilent_evolves {r : State} (s : State)
    (h : r.Evolves s) : AnswersE r (execYokeSilent s) := by
  unfold execYokeSilent
  try dsimp only
  repeat' first
    | with_reducible exact h
    | with_reducible apply State.elapseTo_evolves
    | with_reducible apply State.goSilent_evolves
    | with_reducible apply State.serveWaiting_evolves
    | with_reducible assumption
    | with_reducible refine evolves_ite (fun _ => ?_) (fun _ => ?_)
    | with_reducible refine evolves_foldl (fun _ _ _ => ?_) ?_
    | with_reducible refine answersE_next ?_
    | split
theorem execAliveWireState_evolves {r : State} (serving : Bool) (s : State)
    (h : r.Evolves s) : AnswersE r (execAliveWireState serving s) := by
  unfold execAliveWireState
  try dsimp only
  repeat' first
    | with_reducible exact h
    | with_reducible apply State.log_evolves
    | with_reducible refine State.evolves_upYoke _ ?_ ?_
    | with_reducible exact fun _ _ _ k => k
    | with_reducible assumption
    | with_reducible refine evolves_ite (fun _ => ?_) (fun _ => ?_)
    | with_reducible refine evolves_foldl (fun _ _ _ => ?_) ?_
    | with_reducible refine answersE_next ?_
    | split
theorem execAliveWireSilent_evolves {r : State} (s : State)
    (h : r.Evolves s) : AnswersE r (execAliveWireSilent s) := by
  unfold execAliveWireSilent
  try dsimp only
  repeat' first
    | with_reducible exact h
    | with_reducible apply State.elapseTo_evolves
    | with_reducible apply State.log_evolves
    | with_reducible refine State.evolves_upYoke _ ?_ ?_
    | with_reducible exact fun _ _ _ k => k
    | with_reducible assumption
    | with_reducible refine evolves_ite (fun _ => ?_) (fun _ => ?_)
    | with_reducible refine evolves_foldl (fun _ _ _ => ?_) ?_
    | with_reducible refine answersE_next ?_
    | split
theorem execPulseSend_evolves {r : State} (s : State)
    (h : r.Evolves s) : AnswersE r (execPulseSend s) := by
  unfold execPulseSend
  try dsimp only
  repeat' first
    | with_reducible exact h
    | with_reducible apply State.sendPulse_evolves
    | with_reducible assumption
    | with_reducible refine evolves_ite (fun _ => ?_) (fun _ => ?_)
    | with_reducible refine evolves_foldl (fun _ _ _ => ?_) ?_
    | with_reducible refine answersE_next ?_
    | split
theorem execPulse_evolves {r : State} (m : Membership) (s : State)
    (h : r.Evolves s) : AnswersE r (execPulse m s) := by
  unfold execPulse
  try dsimp only
  repeat' first
    | with_reducible exact h
    | with_reducible apply State.log_evolves
    | with_reducible apply State.notePeer_evolves
    | with_reducible refine State.evolves_upYoke _ ?_ ?_
    | with_reducible exact fun _ _ _ k => k
    | with_reducible assumption
    | with_reducible refine evolves_ite (fun _ => ?_) (fun _ => ?_)
    | with_reducible refine evolves_foldl (fun _ _ _ => ?_) ?_
    | with_reducible refine answersE_next ?_
    | split
theorem execPulseSilent_evolves {r : State} (s : State)
    (h : r.Evolves s) : AnswersE r (execPulseSilent s) := by
  unfold execPulseSilent
  try dsimp only
  repeat' first
    | with_reducible exact h
    | with_reducible apply State.elapseTo_evolves
    | with_reducible apply State.log_evolves
    | with_reducible refine State.evolves_upYoke _ ?_ ?_
    | with_reducible exact fun _ _ _ k => k
    | with_reducible assumption
    | with_reducible refine evolves_ite (fun _ => ?_) (fun _ => ?_)
    | with_reducible refine evolves_foldl (fun _ _ _ => ?_) ?_
    | with_reducible refine answersE_next ?_
    | split
theorem execSuspectDecision_evolves {r : State} (s : State)
    (h : r.Evolves s) : AnswersE r (execSuspectDecision s) := by
  unfold execSuspectDecision
  try dsimp only
  repeat' first
    | with_reducible exact h
    | with_reducible apply State.decideNow_evolves
    | with_reducible assumption
    | with_reducible refine evolves_ite (fun _ => ?_) (fun _ => ?_)
    | with_reducible refine evolves_foldl (fun _ _ _ => ?_) ?_
    | with_reducible refine answersE_next ?_
    | split
theorem execJuniorFenceDelay_evolves {r : State} (s : State)
    (h : r.Evolves s) : AnswersE r (execJuniorFenceDelay s) := by
  unfold execJuniorFenceDelay
  try dsimp only
  repeat' first
    | with_reducible exact h
    | with_reducible apply State.decideNow_evolves
    | with_reducible apply State.elapseTo_evolves
    | with_reducible assumption
    | with_reducible refine evolves_ite (fun _ => ?_) (fun _ => ?_)
    | with_reducible refine evolves_foldl (fun _ _ _ => ?_) ?_
    | with_reducible refine answersE_next ?_
    | split
theorem execSeniorFenceWait_evolves {r : State} (s : State)
    (h : r.Evolves s) : AnswersE r (execSeniorFenceWait s) := by
  unfold execSeniorFenceWait
  try dsimp only
  repeat' first
    | with_reducible exact h
    | with_reducible apply State.decideNow_evolves
    | with_reducible apply State.elapseTo_evolves
    | with_reducible assumption
    | with_reducible refine evolves_ite (fun _ => ?_) (fun _ => ?_)
    | with_reducible refine evolves_foldl (fun _ _ _ => ?_) ?_
    | with_reducible refine answersE_next ?_
    | split
theorem execTakeoverSilence_evolves {r : State} (s : State)
    (h : r.Evolves s) : AnswersE r (execTakeoverSilence s) := by
  unfold execTakeoverSilence
  try dsimp only
  repeat' first
    | with_reducible exact h
    | with_reducible apply State.decideNow_evolves
    | with_reducible apply State.elapseTo_evolves
    | with_reducible assumption
    | with_reducible refine evolves_ite (fun _ => ?_) (fun _ => ?_)
    | with_reducible refine evolves_foldl (fun _ _ _ => ?_) ?_
    | with_reducible refine answersE_next ?_
    | split

end Sys2Proof.Machine
end

