-- ==== Sys2Proof/Laws/EvolvesMailbox.lean ====
section
/-!
SUPPORT. How the operations of Machine/Mailbox.lean let the state evolve.
-/
namespace Sys2Proof.Machine

theorem State.mboxGate_evolves {r : State} (w : Who) (opcode : Nat) (input : Bytes) (run : State → State) (s : State)
    (h : r.Evolves s) (hrun : ∀ t, r.Evolves t → r.Evolves (run t)) : r.Evolves (State.mboxGate w opcode input run s) := by
  unfold State.mboxGate
  try dsimp only
  repeat' first
    | with_reducible exact h
    | with_reducible apply State.mboxRespond_evolves
    | with_reducible apply State.refuseUnknown_evolves
    | with_reducible refine State.evolves_upPort _ ?_
    | with_reducible assumption
    | with_reducible refine evolves_ite (fun _ => ?_) (fun _ => ?_)
    | with_reducible refine evolves_foldl (fun _ _ _ => ?_) ?_
    | with_reducible refine hrun _ ?_
    | (with_reducible intro _ _); dsimp only
    | with_reducible intro _ _
    | split
theorem State.mbox_q_evolves {r : State} (w : Who) (opcode : Nat) (run : State → Nat × Bytes × State) (s : State) (input : optParam Bytes [])
    (h : r.Evolves s) (hrun : ∀ t, r.Evolves t → EvolvesPP r (run t)) : r.Evolves (State.mbox? w opcode run s input) := by
  unfold State.mbox?
  try dsimp only
  repeat' first
    | with_reducible exact h
    | with_reducible apply State.mboxGate_evolves
    | with_reducible apply State.mboxRespond_evolves
    | with_reducible assumption
    | with_reducible refine evolves_ite (fun _ => ?_) (fun _ => ?_)
    | with_reducible refine evolves_foldl (fun _ _ _ => ?_) ?_
    | with_reducible refine hrun _ ?_
    | with_reducible refine EvolvesPP.snd (hrun _ ?_)
    | (with_reducible intro _ _); dsimp only
    | with_reducible intro _ _
    | split
    | with_reducible refine evolvesPP_mk ?_
    | with_reducible refine EvolvesPP.snd ?_
    | with_reducible refine EvolvesPP.out (by assumption) ?_
theorem State.mboxHold_evolves {r : State} (w : Who) (s : State)
    (h : r.Evolves s) : r.Evolves (State.mboxHold w s) := by
  unfold State.mboxHold
  try dsimp only
  repeat' first
    | with_reducible exact h
    | with_reducible refine State.evolves_upMbox _ ?_
    | with_reducible assumption
    | with_reducible refine evolves_ite (fun _ => ?_) (fun _ => ?_)
    | with_reducible refine evolves_foldl (fun _ _ _ => ?_) ?_
    | split
theorem State.mboxRead_evolves {r : State} (w : Who) (opcode : Nat) (run : State → Nat × Bytes) (s : State) (input : optParam Bytes [])
    (h : r.Evolves s) : r.Evolves (State.mboxRead w opcode run s input) := by
  unfold State.mboxRead
  try dsimp only
  repeat' first
    | with_reducible exact h
    | with_reducible apply State.mbox_q_evolves
    | with_reducible assumption
    | with_reducible refine evolves_ite (fun _ => ?_) (fun _ => ?_)
    | with_reducible refine evolves_foldl (fun _ _ _ => ?_) ?_
    | (with_reducible intro _ _); dsimp only
    | with_reducible intro _ _
    | split
    | with_reducible refine evolvesPP_mk ?_
    | with_reducible refine EvolvesPP.snd ?_
    | with_reducible refine EvolvesPP.out (by assumption) ?_
theorem State.checkAlerts_evolves {r : State} (s : State)
    (h : r.Evolves s) : r.Evolves (State.checkAlerts s) := by
  unfold State.checkAlerts
  try dsimp only
  repeat' first
    | with_reducible exact h
    | with_reducible apply State.cxlRecord_evolves
    | with_reducible refine State.evolves_upMbox _ ?_
    | with_reducible assumption
    | with_reducible refine evolves_ite (fun _ => ?_) (fun _ => ?_)
    | with_reducible refine evolves_foldl (fun _ _ _ => ?_) ?_
    | split
theorem execHousekeepingRound_evolves {r : State} (readings : List Nat) (s : State)
    (h : r.Evolves s) : AnswersE r (execHousekeepingRound readings s) := by
  unfold execHousekeepingRound
  try dsimp only
  repeat' first
    | with_reducible exact h
    | with_reducible apply State.checkAlerts_evolves
    | with_reducible apply State.round_evolves
    | with_reducible assumption
    | with_reducible refine evolves_ite (fun _ => ?_) (fun _ => ?_)
    | with_reducible refine evolves_foldl (fun _ _ _ => ?_) ?_
    | with_reducible refine answersE_next ?_
    | split
theorem State.clearRecords_evolves {r : State} (log : Nat) (all : Bool) (handles : List Nat) (s : State)
    (h : r.Evolves s) : EvolvesP r (State.clearRecords log all handles s) := by
  unfold State.clearRecords
  dsimp only
  refine evolvesP_ite h (evolvesP_ite h (State.evolves_upObs _ ?_ h))
  intro b e _ k
  subst e
  refine ⟨k.1, k.2.1, logs_set k.2.2 ?_⟩
  have hg := logs_get k.2.2 log
  dsimp only
  split
  · exact Nat.zero_le _
  · exact Nat.le_trans (List.length_filter_le _ _) hg
theorem execGetEventRecords_evolves {r : State} (w : Who) (log : Nat) (s : State)
    (h : r.Evolves s) : AnswersE r (execGetEventRecords w log s) := by
  unfold execGetEventRecords
  try dsimp only
  repeat' first
    | with_reducible exact h
    | with_reducible apply State.mboxRead_evolves
    | with_reducible assumption
    | with_reducible refine evolves_ite (fun _ => ?_) (fun _ => ?_)
    | with_reducible refine evolves_foldl (fun _ _ _ => ?_) ?_
    | with_reducible refine answersE_next ?_
    | split
theorem execClearEventRecords_evolves {r : State} (w : Who) (log : Nat) (all : Bool) (handles : List Nat) (s : State)
    (h : r.Evolves s) : AnswersE r (execClearEventRecords w log all handles s) := by
  unfold execClearEventRecords
  try dsimp only
  repeat' first
    | with_reducible exact h
    | with_reducible apply State.clearRecords_evolves
    | with_reducible apply State.mbox_q_evolves
    | with_reducible assumption
    | with_reducible refine evolves_ite (fun _ => ?_) (fun _ => ?_)
    | with_reducible refine evolves_foldl (fun _ _ _ => ?_) ?_
    | with_reducible refine evolvesP_ite ?_ ?_
    | with_reducible refine evolvesP_foldl (fun _ _ _ => ?_) ?_
    | with_reducible refine answersE_next ?_
    | (with_reducible intro _ _); dsimp only
    | with_reducible intro _ _
    | split
    | with_reducible refine EvolvesP.snd ?_
    | with_reducible refine evolvesP_mk ?_
    | with_reducible refine EvolvesP.out (by assumption) ?_
    | with_reducible refine evolvesPP_mk ?_
    | with_reducible refine EvolvesPP.snd ?_
    | with_reducible refine EvolvesPP.out (by assumption) ?_
theorem execGetEventInterruptPolicy_evolves {r : State} (w : Who) (s : State)
    (h : r.Evolves s) : AnswersE r (execGetEventInterruptPolicy w s) := by
  unfold execGetEventInterruptPolicy
  try dsimp only
  repeat' first
    | with_reducible exact h
    | with_reducible apply State.mboxRead_evolves
    | with_reducible assumption
    | with_reducible refine evolves_ite (fun _ => ?_) (fun _ => ?_)
    | with_reducible refine evolves_foldl (fun _ _ _ => ?_) ?_
    | with_reducible refine answersE_next ?_
    | split
theorem execSetEventInterruptPolicy_evolves {r : State} (w : Who) (enables : BitVec 4) (s : State)
    (h : r.Evolves s) : AnswersE r (execSetEventInterruptPolicy w enables s) := by
  unfold execSetEventInterruptPolicy
  try dsimp only
  repeat' first
    | with_reducible exact h
    | with_reducible apply State.mbox_q_evolves
    | with_reducible refine State.evolves_upObs _ ?_ ?_
    | with_reducible exact fun _ _ _ k => k
    | with_reducible exact fun _ _ _ _ => Tab.sorted_nil
    | with_reducible exact fun _ _ _ k => Tab.sorted_put k
    | with_reducible exact fun _ _ _ k => Tab.sorted_erase k
    | with_reducible exact fun _ _ _ k => Tab.sorted_filter k
    | with_reducible exact fun _ _ _ k => Tab.sorted_filterKV k
    | (with_reducible intro b e q k); (with_reducible refine Tab.sorted_map (fun _ => ?_) k); repeat' first | rfl | split
    | with_reducible assumption
    | with_reducible refine evolves_ite (fun _ => ?_) (fun _ => ?_)
    | with_reducible refine evolves_foldl (fun _ _ _ => ?_) ?_
    | with_reducible refine answersE_next ?_
    | (with_reducible intro _ _); dsimp only
    | with_reducible intro _ _
    | split
    | with_reducible refine evolvesPP_mk ?_
    | with_reducible refine EvolvesPP.snd ?_
    | with_reducible refine EvolvesPP.out (by assumption) ?_
theorem execGetFwInfo_evolves {r : State} (w : Who) (s : State)
    (h : r.Evolves s) : AnswersE r (execGetFwInfo w s) := by
  unfold execGetFwInfo
  try dsimp only
  repeat' first
    | with_reducible exact h
    | with_reducible apply State.mboxRead_evolves
    | with_reducible assumption
    | with_reducible refine evolves_ite (fun _ => ?_) (fun _ => ?_)
    | with_reducible refine evolves_foldl (fun _ _ _ => ?_) ?_
    | with_reducible refine answersE_next ?_
    | split
theorem execTransferFw_evolves {r : State} (w : Who) (offset : Nat) (data : Bytes) (s : State)
    (h : r.Evolves s) : AnswersE r (execTransferFw w offset data s) := by
  unfold execTransferFw
  try dsimp only
  repeat' first
    | with_reducible exact h
    | with_reducible apply State.fwChunk_evolves
    | with_reducible apply State.mbox_q_evolves
    | with_reducible assumption
    | with_reducible refine evolves_ite (fun _ => ?_) (fun _ => ?_)
    | with_reducible refine evolves_foldl (fun _ _ _ => ?_) ?_
    | with_reducible refine evolvesP_ite ?_ ?_
    | with_reducible refine evolvesP_foldl (fun _ _ _ => ?_) ?_
    | with_reducible refine answersE_next ?_
    | (with_reducible intro _ _); dsimp only
    | with_reducible intro _ _
    | split
    | with_reducible refine EvolvesP.snd ?_
    | with_reducible refine evolvesP_mk ?_
    | with_reducible refine EvolvesP.out (by assumption) ?_
    | with_reducible refine evolvesPP_mk ?_
    | with_reducible refine EvolvesPP.snd ?_
    | with_reducible refine EvolvesPP.out (by assumption) ?_
theorem execActivateFw_evolves {r : State} (w : Who) (s : State)
    (h : r.Evolves s) : AnswersE r (execActivateFw w s) := by
  unfold execActivateFw
  try dsimp only
  repeat' first
    | with_reducible exact h
    | with_reducible apply State.fwActivate_evolves
    | with_reducible apply State.mbox_q_evolves
    | with_reducible assumption
    | with_reducible refine evolves_ite (fun _ => ?_) (fun _ => ?_)
    | with_reducible refine evolves_foldl (fun _ _ _ => ?_) ?_
    | with_reducible refine evolvesP_ite ?_ ?_
    | with_reducible refine evolvesP_foldl (fun _ _ _ => ?_) ?_
    | with_reducible refine answersE_next ?_
    | (with_reducible intro _ _); dsimp only
    | with_reducible intro _ _
    | split
    | with_reducible refine EvolvesP.snd ?_
    | with_reducible refine evolvesP_mk ?_
    | with_reducible refine EvolvesP.out (by assumption) ?_
    | with_reducible refine evolvesPP_mk ?_
    | with_reducible refine EvolvesPP.snd ?_
    | with_reducible refine EvolvesPP.out (by assumption) ?_
theorem execGetTimestamp_evolves {r : State} (w : Who) (s : State)
    (h : r.Evolves s) : AnswersE r (execGetTimestamp w s) := by
  unfold execGetTimestamp
  try dsimp only
  repeat' first
    | with_reducible exact h
    | with_reducible apply State.mboxRead_evolves
    | with_reducible assumption
    | with_reducible refine evolves_ite (fun _ => ?_) (fun _ => ?_)
    | with_reducible refine evolves_foldl (fun _ _ _ => ?_) ?_
    | with_reducible refine answersE_next ?_
    | split
theorem State.setTimestamp_evolves {r : State} (v : Nat) (s : State)
    (h : r.Evolves s) : r.Evolves (State.setTimestamp v s) := by
  unfold State.setTimestamp
  try dsimp only
  repeat' first
    | with_reducible exact h
    | with_reducible apply State.save_evolves
    | with_reducible refine State.evolves_upCare _ ?_ ?_
    | with_reducible refine State.evolves_upClk _ ?_ ?_
    | with_reducible exact fun _ _ _ k => k
    | with_reducible exact Nat.le_refl _
    | with_reducible assumption
    | with_reducible refine evolves_ite (fun _ => ?_) (fun _ => ?_)
    | with_reducible refine evolves_foldl (fun _ _ _ => ?_) ?_
    | split
theorem execSetTimestamp_evolves {r : State} (w : Who) (t : Nat) (s : State)
    (h : r.Evolves s) : AnswersE r (execSetTimestamp w t s) := by
  unfold execSetTimestamp
  try dsimp only
  repeat' first
    | with_reducible exact h
    | with_reducible apply State.mbox_q_evolves
    | with_reducible apply State.setTimestamp_evolves
    | with_reducible assumption
    | with_reducible refine evolves_ite (fun _ => ?_) (fun _ => ?_)
    | with_reducible refine evolves_foldl (fun _ _ _ => ?_) ?_
    | with_reducible refine answersE_next ?_
    | (with_reducible intro _ _); dsimp only
    | with_reducible intro _ _
    | split
    | with_reducible refine evolvesPP_mk ?_
    | with_reducible refine EvolvesPP.snd ?_
    | with_reducible refine EvolvesPP.out (by assumption) ?_
theorem execGetSupportedLogs_evolves {r : State} (w : Who) (s : State)
    (h : r.Evolves s) : AnswersE r (execGetSupportedLogs w s) := by
  unfold execGetSupportedLogs
  try dsimp only
  repeat' first
    | with_reducible exact h
    | with_reducible apply State.mboxRead_evolves
    | with_reducible assumption
    | with_reducible refine evolves_ite (fun _ => ?_) (fun _ => ?_)
    | with_reducible refine evolves_foldl (fun _ _ _ => ?_) ?_
    | with_reducible refine answersE_next ?_
    | split
theorem execGetLog_evolves {r : State} (w : Who) (log : Nat) (s : State)
    (h : r.Evolves s) : AnswersE r (execGetLog w log s) := by
  unfold execGetLog
  try dsimp only
  repeat' first
    | with_reducible exact h
    | with_reducible apply State.mboxRead_evolves
    | with_reducible assumption
    | with_reducible refine evolves_ite (fun _ => ?_) (fun _ => ?_)
    | with_reducible refine evolves_foldl (fun _ _ _ => ?_) ?_
    | with_reducible refine answersE_next ?_
    | split
theorem execIdentifyMemoryDevice_evolves {r : State} (w : Who) (s : State)
    (h : r.Evolves s) : AnswersE r (execIdentifyMemoryDevice w s) := by
  unfold execIdentifyMemoryDevice
  try dsimp only
  repeat' first
    | with_reducible exact h
    | with_reducible apply State.mboxRead_evolves
    | with_reducible assumption
    | with_reducible refine evolves_ite (fun _ => ?_) (fun _ => ?_)
    | with_reducible refine evolves_foldl (fun _ _ _ => ?_) ?_
    | with_reducible refine answersE_next ?_
    | split
theorem execGetPartitionInfo_evolves {r : State} (w : Who) (s : State)
    (h : r.Evolves s) : AnswersE r (execGetPartitionInfo w s) := by
  unfold execGetPartitionInfo
  try dsimp only
  repeat' first
    | with_reducible exact h
    | with_reducible apply State.mboxRead_evolves
    | with_reducible assumption
    | with_reducible refine evolves_ite (fun _ => ?_) (fun _ => ?_)
    | with_reducible refine evolves_foldl (fun _ _ _ => ?_) ?_
    | with_reducible refine answersE_next ?_
    | split
theorem execGetHealthInfo_evolves {r : State} (w : Who) (s : State)
    (h : r.Evolves s) : AnswersE r (execGetHealthInfo w s) := by
  unfold execGetHealthInfo
  try dsimp only
  repeat' first
    | with_reducible exact h
    | with_reducible apply State.mboxRead_evolves
    | with_reducible assumption
    | with_reducible refine evolves_ite (fun _ => ?_) (fun _ => ?_)
    | with_reducible refine evolves_foldl (fun _ _ _ => ?_) ?_
    | with_reducible refine answersE_next ?_
    | split
theorem execGetAlertConfiguration_evolves {r : State} (w : Who) (s : State)
    (h : r.Evolves s) : AnswersE r (execGetAlertConfiguration w s) := by
  unfold execGetAlertConfiguration
  try dsimp only
  repeat' first
    | with_reducible exact h
    | with_reducible apply State.mboxRead_evolves
    | with_reducible assumption
    | with_reducible refine evolves_ite (fun _ => ?_) (fun _ => ?_)
    | with_reducible refine evolves_foldl (fun _ _ _ => ?_) ?_
    | with_reducible refine answersE_next ?_
    | split
theorem execSetAlertConfiguration_evolves {r : State} (w : Who) (life : Nat) (temperature : Nat) (volatileErr : Nat) (persistentErr : Nat) (s : State)
    (h : r.Evolves s) : AnswersE r (execSetAlertConfiguration w life temperature volatileErr persistentErr s) := by
  unfold execSetAlertConfiguration
  try dsimp only
  repeat' first
    | with_reducible exact h
    | with_reducible apply State.checkAlerts_evolves
    | with_reducible apply State.mbox_q_evolves
    | with_reducible refine State.evolves_upMbox _ ?_
    | with_reducible assumption
    | with_reducible refine evolves_ite (fun _ => ?_) (fun _ => ?_)
    | with_reducible refine evolves_foldl (fun _ _ _ => ?_) ?_
    | with_reducible refine answersE_next ?_
    | (with_reducible intro _ _); dsimp only
    | with_reducible intro _ _
    | split
    | with_reducible refine evolvesPP_mk ?_
    | with_reducible refine EvolvesPP.snd ?_
    | with_reducible refine EvolvesPP.out (by assumption) ?_
theorem execGetShutdownState_evolves {r : State} (w : Who) (s : State)
    (h : r.Evolves s) : AnswersE r (execGetShutdownState w s) := by
  unfold execGetShutdownState
  try dsimp only
  repeat' first
    | with_reducible exact h
    | with_reducible apply State.mboxRead_evolves
    | with_reducible assumption
    | with_reducible refine evolves_ite (fun _ => ?_) (fun _ => ?_)
    | with_reducible refine evolves_foldl (fun _ _ _ => ?_) ?_
    | with_reducible refine answersE_next ?_
    | split
theorem execSetShutdownState_evolves {r : State} (w : Who) (st : Nat) (s : State)
    (h : r.Evolves s) : AnswersE r (execSetShutdownState w st s) := by
  unfold execSetShutdownState
  try dsimp only
  repeat' first
    | with_reducible exact h
    | with_reducible apply State.mbox_q_evolves
    | with_reducible refine State.evolves_upPwr _ ?_ ?_
    | with_reducible exact fun _ _ _ k => k
    | with_reducible assumption
    | with_reducible refine evolves_ite (fun _ => ?_) (fun _ => ?_)
    | with_reducible refine evolves_foldl (fun _ _ _ => ?_) ?_
    | with_reducible refine answersE_next ?_
    | (with_reducible intro _ _); dsimp only
    | with_reducible intro _ _
    | split
    | with_reducible refine evolvesPP_mk ?_
    | with_reducible refine EvolvesPP.snd ?_
    | with_reducible refine EvolvesPP.out (by assumption) ?_
theorem execGetPoisonList_evolves {r : State} (w : Who) (base : Nat) (length : Nat) (s : State)
    (h : r.Evolves s) : AnswersE r (execGetPoisonList w base length s) := by
  unfold execGetPoisonList
  try dsimp only
  repeat' first
    | with_reducible exact h
    | with_reducible apply State.mboxRead_evolves
    | with_reducible assumption
    | with_reducible refine evolves_ite (fun _ => ?_) (fun _ => ?_)
    | with_reducible refine evolves_foldl (fun _ _ _ => ?_) ?_
    | with_reducible refine answersE_next ?_
    | split
theorem State.clearPoison_evolves {r : State} (w : Who) (addr : Nat) (d : Line) (s : State)
    (h : r.Evolves s) : r.Evolves (State.clearPoison w addr d s) := by
  unfold State.clearPoison
  try dsimp only
  repeat' first
    | with_reducible exact h
    | with_reducible apply State.mboxHold_evolves
    | with_reducible apply State.mboxRespond_evolves
    | with_reducible refine State.evolves_upMbox _ ?_
    | with_reducible refine State.evolves_upReqs _ ?_
    | with_reducible assumption
    | with_reducible refine evolves_ite (fun _ => ?_) (fun _ => ?_)
    | with_reducible refine evolves_foldl (fun _ _ _ => ?_) ?_
    | split
theorem execClearPoison_evolves {r : State} (w : Who) (addr : Nat) (data : Line) (s : State)
    (h : r.Evolves s) : AnswersE r (execClearPoison w addr data s) := by
  unfold execClearPoison
  try dsimp only
  repeat' first
    | with_reducible exact h
    | with_reducible apply State.clearPoison_evolves
    | with_reducible apply State.mboxGate_evolves
    | with_reducible assumption
    | with_reducible refine evolves_ite (fun _ => ?_) (fun _ => ?_)
    | with_reducible refine evolves_foldl (fun _ _ _ => ?_) ?_
    | with_reducible refine answersE_next ?_
    | (with_reducible intro _ _); dsimp only
    | with_reducible intro _ _
    | split
    | with_reducible refine evolvesPP_mk ?_
    | with_reducible refine EvolvesPP.snd ?_
    | with_reducible refine EvolvesPP.out (by assumption) ?_
theorem execScanMediaCapabilities_evolves {r : State} (w : Who) (base : Nat) (length : Nat) (s : State)
    (h : r.Evolves s) : AnswersE r (execScanMediaCapabilities w base length s) := by
  unfold execScanMediaCapabilities
  try dsimp only
  repeat' first
    | with_reducible exact h
    | with_reducible apply State.mboxRead_evolves
    | with_reducible assumption
    | with_reducible refine evolves_ite (fun _ => ?_) (fun _ => ?_)
    | with_reducible refine evolves_foldl (fun _ _ _ => ?_) ?_
    | with_reducible refine answersE_next ?_
    | split
theorem execScanMedia_evolves {r : State} (w : Who) (base : Nat) (length : Nat) (flags : Nat) (s : State)
    (h : r.Evolves s) : AnswersE r (execScanMedia w base length flags s) := by
  unfold execScanMedia
  try dsimp only
  repeat' first
    | with_reducible exact h
    | with_reducible apply State.mbox_q_evolves
    | with_reducible apply State.scrubRun_evolves
    | with_reducible refine State.evolves_upMbox _ ?_
    | with_reducible assumption
    | with_reducible refine evolves_ite (fun _ => ?_) (fun _ => ?_)
    | with_reducible refine evolves_foldl (fun _ _ _ => ?_) ?_
    | with_reducible refine answersE_next ?_
    | (with_reducible intro _ _); dsimp only
    | with_reducible intro _ _
    | split
    | with_reducible refine evolvesPP_mk ?_
    | with_reducible refine EvolvesPP.snd ?_
    | with_reducible refine EvolvesPP.out (by assumption) ?_
theorem execGetScanMediaResults_evolves {r : State} (w : Who) (s : State)
    (h : r.Evolves s) : AnswersE r (execGetScanMediaResults w s) := by
  unfold execGetScanMediaResults
  try dsimp only
  repeat' first
    | with_reducible exact h
    | with_reducible apply State.mboxRead_evolves
    | with_reducible assumption
    | with_reducible refine evolves_ite (fun _ => ?_) (fun _ => ?_)
    | with_reducible refine evolves_foldl (fun _ _ _ => ?_) ?_
    | with_reducible refine answersE_next ?_
    | split
theorem State.startWipe_evolves {r : State} (op : Nat) (w : Who) (s : State)
    (h : r.Evolves s) : EvolvesPP r (State.startWipe op w s) := by
  unfold State.startWipe
  try dsimp only
  repeat' first
    | with_reducible exact h
    | with_reducible apply State.wipeStart_evolves
    | with_reducible refine State.evolves_upMbox _ ?_
    | with_reducible assumption
    | with_reducible refine evolves_ite (fun _ => ?_) (fun _ => ?_)
    | with_reducible refine evolves_foldl (fun _ _ _ => ?_) ?_
    | split
    | with_reducible refine evolvesPP_mk ?_
    | with_reducible refine EvolvesPP.snd ?_
    | with_reducible refine EvolvesPP.out (by assumption) ?_
theorem execSanitize_evolves {r : State} (w : Who) (s : State)
    (h : r.Evolves s) : AnswersE r (execSanitize w s) := by
  unfold execSanitize
  try dsimp only
  repeat' first
    | with_reducible exact h
    | with_reducible apply State.mbox_q_evolves
    | with_reducible apply State.startWipe_evolves
    | with_reducible assumption
    | with_reducible refine evolves_ite (fun _ => ?_) (fun _ => ?_)
    | with_reducible refine evolves_foldl (fun _ _ _ => ?_) ?_
    | with_reducible refine answersE_next ?_
    | (with_reducible intro _ _); dsimp only
    | with_reducible intro _ _
    | split
    | with_reducible refine evolvesPP_mk ?_
    | with_reducible refine EvolvesPP.snd ?_
    | with_reducible refine EvolvesPP.out (by assumption) ?_
theorem execSecureErase_evolves {r : State} (w : Who) (s : State)
    (h : r.Evolves s) : AnswersE r (execSecureErase w s) := by
  unfold execSecureErase
  try dsimp only
  repeat' first
    | with_reducible exact h
    | with_reducible apply State.mbox_q_evolves
    | with_reducible apply State.startWipe_evolves
    | with_reducible assumption
    | with_reducible refine evolves_ite (fun _ => ?_) (fun _ => ?_)
    | with_reducible refine evolves_foldl (fun _ _ _ => ?_) ?_
    | with_reducible refine answersE_next ?_
    | (with_reducible intro _ _); dsimp only
    | with_reducible intro _ _
    | split
    | with_reducible refine evolvesPP_mk ?_
    | with_reducible refine EvolvesPP.snd ?_
    | with_reducible refine EvolvesPP.out (by assumption) ?_
theorem State.endBackground_evolves {r : State} (s : State)
    (h : r.Evolves s) : r.Evolves (State.endBackground s) := by
  unfold State.endBackground
  try dsimp only
  repeat' first
    | with_reducible exact h
    | with_reducible apply State.raiseWhen_evolves
    | with_reducible refine State.evolves_upKeys _ ?_
    | with_reducible refine State.evolves_upMbox _ ?_
    | with_reducible assumption
    | with_reducible refine evolves_ite (fun _ => ?_) (fun _ => ?_)
    | with_reducible refine evolves_foldl (fun _ _ _ => ?_) ?_
    | split
theorem State.logWipe_evolves {r : State} (op : Nat) (count : Nat) (s : State)
    (h : r.Evolves s) : r.Evolves (State.logWipe op count s) := by
  unfold State.logWipe
  try dsimp only
  repeat' first
    | with_reducible exact h
    | with_reducible apply State.log_evolves
    | with_reducible refine State.evolves_upKeys _ ?_
    | with_reducible assumption
    | with_reducible refine evolves_ite (fun _ => ?_) (fun _ => ?_)
    | with_reducible refine evolves_foldl (fun _ _ _ => ?_) ?_
    | split
theorem execBackgroundCommandDone_evolves {r : State} (s : State)
    (h : r.Evolves s) : AnswersE r (execBackgroundCommandDone s) := by
  unfold execBackgroundCommandDone
  try dsimp only
  repeat' first
    | with_reducible exact h
    | with_reducible apply State.dropJob_evolves
    | with_reducible apply State.endBackground_evolves
    | with_reducible apply State.logWipe_evolves
    | with_reducible apply State.record_evolves
    | with_reducible apply State.send_evolves
    | with_reducible assumption
    | with_reducible refine evolves_ite (fun _ => ?_) (fun _ => ?_)
    | with_reducible refine evolves_foldl (fun _ _ _ => ?_) ?_
    | with_reducible refine answersE_next ?_
    | split
theorem State.dictCommand_evolves {r : State} (w : Who) (payload : Bytes) (s : State)
    (h : r.Evolves s) : r.Evolves (State.dictCommand w payload s) := by
  unfold State.dictCommand
  try dsimp only
  repeat' first
    | with_reducible exact h
    | with_reducible apply State.mboxHold_evolves
    | with_reducible apply State.mboxRespond_evolves
    | with_reducible apply State.takeBytes_evolves
    | with_reducible refine State.evolves_upDict _ ?_
    | with_reducible refine State.evolves_upMbox _ ?_
    | with_reducible assumption
    | with_reducible refine evolves_ite (fun _ => ?_) (fun _ => ?_)
    | with_reducible refine evolves_foldl (fun _ _ _ => ?_) ?_
    | split
theorem execDictionaryTransfer_evolves {r : State} (w : Who) (payload : Bytes) (s : State)
    (h : r.Evolves s) : AnswersE r (execDictionaryTransfer w payload s) := by
  unfold execDictionaryTransfer
  try dsimp only
  repeat' first
    | with_reducible exact h
    | with_reducible apply State.dictCommand_evolves
    | with_reducible apply State.mboxGate_evolves
    | with_reducible assumption
    | with_reducible refine evolves_ite (fun _ => ?_) (fun _ => ?_)
    | with_reducible refine evolves_foldl (fun _ _ _ => ?_) ?_
    | with_reducible refine answersE_next ?_
    | (with_reducible intro _ _); dsimp only
    | with_reducible intro _ _
    | split
    | with_reducible refine evolvesPP_mk ?_
    | with_reducible refine EvolvesPP.snd ?_
    | with_reducible refine EvolvesPP.out (by assumption) ?_
theorem execUnsupportedCommand_evolves {r : State} (w : Who) (opcode : Nat) (s : State)
    (h : r.Evolves s) : AnswersE r (execUnsupportedCommand w opcode s) := by
  unfold execUnsupportedCommand
  try dsimp only
  repeat' first
    | with_reducible exact h
    | with_reducible apply State.mboxRead_evolves
    | with_reducible assumption
    | with_reducible refine evolves_ite (fun _ => ?_) (fun _ => ?_)
    | with_reducible refine evolves_foldl (fun _ _ _ => ?_) ?_
    | with_reducible refine answersE_next ?_
    | split

end Sys2Proof.Machine
end

