-- ==== Sys2Proof/Laws/EvolvesPhysical.lean ====
section
/-!
SUPPORT. How the operations of Machine/Physical.lean let the state evolve.
-/
namespace Sys2Proof.Machine

theorem execI3cAddressAssigned_evolves {r : State} (addr : Nat) (s : State)
    (h : r.Evolves s) : AnswersE r (execI3cAddressAssigned addr s) := by
  unfold execI3cAddressAssigned
  try dsimp only
  repeat' first
    | with_reducible exact h
    | with_reducible refine State.evolves_upDict _ ?_
    | with_reducible assumption
    | with_reducible refine evolves_ite (fun _ => ?_) (fun _ => ?_)
    | with_reducible refine evolves_foldl (fun _ _ _ => ?_) ?_
    | with_reducible refine answersE_next ?_
    | split
theorem execI3cDynamicAddressReset_evolves {r : State} (s : State)
    (h : r.Evolves s) : AnswersE r (execI3cDynamicAddressReset s) := by
  unfold execI3cDynamicAddressReset
  try dsimp only
  repeat' first
    | with_reducible exact h
    | with_reducible refine State.evolves_upDict _ ?_
    | with_reducible assumption
    | with_reducible refine evolves_ite (fun _ => ?_) (fun _ => ?_)
    | with_reducible refine evolves_foldl (fun _ _ _ => ?_) ?_
    | with_reducible refine answersE_next ?_
    | split
theorem execSetEndpointId_evolves {r : State} (route : Route) (eid : Nat) (s : State)
    (h : r.Evolves s) : AnswersE r (execSetEndpointId route eid s) := by
  unfold execSetEndpointId
  try dsimp only
  repeat' first
    | with_reducible exact h
    | with_reducible refine State.evolves_upDict _ ?_
    | with_reducible assumption
    | with_reducible refine evolves_ite (fun _ => ?_) (fun _ => ?_)
    | with_reducible refine evolves_foldl (fun _ _ _ => ?_) ?_
    | with_reducible refine answersE_next ?_
    | split
theorem execBoundaryScanInstruction_evolves {r : State} (opcode : BitVec 8) (s : State)
    (h : r.Evolves s) : AnswersE r (execBoundaryScanInstruction opcode s) := by
  unfold execBoundaryScanInstruction
  try dsimp only
  repeat' first
    | with_reducible exact h
    | with_reducible refine State.evolves_upTap _ ?_
    | with_reducible assumption
    | with_reducible refine evolves_ite (fun _ => ?_) (fun _ => ?_)
    | with_reducible refine evolves_foldl (fun _ _ _ => ?_) ?_
    | with_reducible refine answersE_next ?_
    | split

end Sys2Proof.Machine
end

