-- ==== Sys2Proof/Laws/KeepsEvents.lean ====
section
/-!
SUPPORT. What each operation of Machine/Events.lean leaves unchanged: the groups of the state it may write, the others kept.
-/
namespace Sys2Proof.Machine

theorem State.raise_keeps {P : List Part} {r : State} (n : Nat) (s : State)
    (sub : ∀ p, p ∈ [.obs] → p ∈ P) (h : r.keepsBut P s) : r.keepsBut P (State.raise n s) := by
  unfold State.raise
  try dsimp only
  repeat' first
    | with_reducible exact h
    | (with_reducible refine sub _ ?_); decide
    | (with_reducible refine part_sub sub ?_); decide
    | with_reducible refine State.keeps_upObs _ ?_ ?_
    | with_reducible assumption
    | with_reducible refine keeps_ite ?_ ?_
    | with_reducible refine keeps_foldl (fun _ _ _ => ?_) ?_
    | split
theorem State.draw_keeps {P : List Part} {r : State} (s : State)
    (sub : ∀ p, p ∈ [.clk] → p ∈ P) (h : r.keepsBut P s) : KeepsP r P (State.draw s) := by
  unfold State.draw
  try dsimp only
  repeat' first
    | with_reducible exact h
    | (with_reducible refine sub _ ?_); decide
    | (with_reducible refine part_sub sub ?_); decide
    | with_reducible refine State.keeps_upClk _ ?_ ?_
    | with_reducible assumption
    | with_reducible refine keeps_ite ?_ ?_
    | with_reducible refine keeps_foldl (fun _ _ _ => ?_) ?_
    | with_reducible refine keepsP_ite ?_ ?_
    | with_reducible refine keepsP_foldl (fun _ _ _ => ?_) ?_
    | split
    | with_reducible refine KeepsP.snd ?_
    | with_reducible refine keepsP_mk ?_
    | with_reducible refine KeepsP.out (by assumption) ?_
theorem State.raiseWhen_keeps {P : List Part} {r : State} (on : Bool) (s : State)
    (sub : ∀ p, p ∈ [.obs] → p ∈ P) (h : r.keepsBut P s) : r.keepsBut P (State.raiseWhen on s) := by
  unfold State.raiseWhen
  try dsimp only
  repeat' first
    | with_reducible exact h
    | (with_reducible refine sub _ ?_); decide
    | (with_reducible refine part_sub sub ?_); decide
    | with_reducible apply State.raise_keeps
    | with_reducible assumption
    | with_reducible refine keeps_ite ?_ ?_
    | with_reducible refine keeps_foldl (fun _ _ _ => ?_) ?_
    | split
theorem State.cxlRecord_keeps {P : List Part} {r : State} (stamp : Nat) (log : Nat) (kind : Nat) (code : Nat) (param : Nat) (trans : Nat) (s : State)
    (sub : ∀ p, p ∈ [.obs] → p ∈ P) (h : r.keepsBut P s) : r.keepsBut P (State.cxlRecord stamp log kind code param trans s) := by
  unfold State.cxlRecord
  try dsimp only
  repeat' first
    | with_reducible exact h
    | (with_reducible refine sub _ ?_); decide
    | (with_reducible refine part_sub sub ?_); decide
    | with_reducible apply State.raise_keeps
    | with_reducible refine State.keeps_upObs _ ?_ ?_
    | with_reducible assumption
    | with_reducible refine keeps_ite ?_ ?_
    | with_reducible refine keeps_foldl (fun _ _ _ => ?_) ?_
    | split
theorem State.cxlRecords_keeps {P : List Part} {r : State} (stamp : Nat) (trans : Nat) (code : Nat) (param : Nat) (s : State)
    (sub : ∀ p, p ∈ [.obs] → p ∈ P) (h : r.keepsBut P s) : r.keepsBut P (State.cxlRecords stamp trans code param s) := by
  unfold State.cxlRecords
  try dsimp only
  repeat' first
    | with_reducible exact h
    | (with_reducible refine sub _ ?_); decide
    | (with_reducible refine part_sub sub ?_); decide
    | with_reducible apply State.cxlRecord_keeps
    | with_reducible assumption
    | with_reducible refine keeps_ite ?_ ?_
    | with_reducible refine keeps_foldl (fun _ _ _ => ?_) ?_
    | split
theorem State.pailStore_keeps {P : List Part} {r : State} (e : Event) (s : State)
    (sub : ∀ p, p ∈ [.obs] → p ∈ P) (h : r.keepsBut P s) : r.keepsBut P (State.pailStore e s) := by
  unfold State.pailStore
  try dsimp only
  repeat' first
    | with_reducible exact h
    | (with_reducible refine sub _ ?_); decide
    | (with_reducible refine part_sub sub ?_); decide
    | with_reducible apply State.raise_keeps
    | with_reducible refine State.keeps_upObs _ ?_ ?_
    | with_reducible assumption
    | with_reducible refine keeps_ite ?_ ?_
    | with_reducible refine keeps_foldl (fun _ _ _ => ?_) ?_
    | split
theorem State.emitAt_keeps {P : List Part} {r : State} (stamp : Nat) (trans : Nat) (entry : Nat) (code : Nat) (param : Nat) (s : State)
    (sub : ∀ p, p ∈ [.obs] → p ∈ P) (h : r.keepsBut P s) : r.keepsBut P (State.emitAt stamp trans entry code param s) := by
  unfold State.emitAt
  try dsimp only
  repeat' first
    | with_reducible exact h
    | (with_reducible refine sub _ ?_); decide
    | (with_reducible refine part_sub sub ?_); decide
    | with_reducible apply State.cxlRecords_keeps
    | with_reducible apply State.pailStore_keeps
    | with_reducible refine State.keeps_upObs _ ?_ ?_
    | with_reducible assumption
    | with_reducible refine keeps_ite ?_ ?_
    | with_reducible refine keeps_foldl (fun _ _ _ => ?_) ?_
    | split
theorem State.emit_keeps {P : List Part} {r : State} (entry : Nat) (code : Nat) (param : Nat) (s : State)
    (sub : ∀ p, p ∈ [.obs] → p ∈ P) (h : r.keepsBut P s) : r.keepsBut P (State.emit entry code param s) := by
  unfold State.emit
  try dsimp only
  repeat' first
    | with_reducible exact h
    | (with_reducible refine sub _ ?_); decide
    | (with_reducible refine part_sub sub ?_); decide
    | with_reducible apply State.emitAt_keeps
    | with_reducible assumption
    | with_reducible refine keeps_ite ?_ ?_
    | with_reducible refine keeps_foldl (fun _ _ _ => ?_) ?_
    | split
theorem State.settleOverrun_keeps {P : List Part} {r : State} (s : State)
    (sub : ∀ p, p ∈ [.obs] → p ∈ P) (h : r.keepsBut P s) : r.keepsBut P (State.settleOverrun s) := by
  unfold State.settleOverrun
  try dsimp only
  repeat' first
    | with_reducible exact h
    | (with_reducible refine sub _ ?_); decide
    | (with_reducible refine part_sub sub ?_); decide
    | with_reducible apply State.emit_keeps
    | with_reducible refine State.keeps_upObs _ ?_ ?_
    | with_reducible assumption
    | with_reducible refine keeps_ite ?_ ?_
    | with_reducible refine keeps_foldl (fun _ _ _ => ?_) ?_
    | split
theorem State.logBy_keeps {P : List Part} {r : State} (trans : Nat) (entry : Nat) (code : Nat) (param : Nat) (s : State)
    (sub : ∀ p, p ∈ [.obs] → p ∈ P) (h : r.keepsBut P s) : r.keepsBut P (State.logBy trans entry code param s) := by
  unfold State.logBy
  try dsimp only
  repeat' first
    | with_reducible exact h
    | (with_reducible refine sub _ ?_); decide
    | (with_reducible refine part_sub sub ?_); decide
    | with_reducible apply State.emitAt_keeps
    | with_reducible apply State.settleOverrun_keeps
    | with_reducible refine State.keeps_upObs _ ?_ ?_
    | with_reducible assumption
    | with_reducible refine keeps_ite ?_ ?_
    | with_reducible refine keeps_foldl (fun _ _ _ => ?_) ?_
    | split
theorem State.logFor_keeps {P : List Part} {r : State} (entry : Nat) (code : Nat) (param : Nat) (s : State)
    (sub : ∀ p, p ∈ [.obs] → p ∈ P) (h : r.keepsBut P s) : r.keepsBut P (State.logFor entry code param s) := by
  unfold State.logFor
  try dsimp only
  repeat' first
    | with_reducible exact h
    | (with_reducible refine sub _ ?_); decide
    | (with_reducible refine part_sub sub ?_); decide
    | with_reducible apply State.logBy_keeps
    | with_reducible assumption
    | with_reducible refine keeps_ite ?_ ?_
    | with_reducible refine keeps_foldl (fun _ _ _ => ?_) ?_
    | split
theorem State.log_keeps {P : List Part} {r : State} (code : Nat) (param : Nat) (s : State)
    (sub : ∀ p, p ∈ [.obs] → p ∈ P) (h : r.keepsBut P s) : r.keepsBut P (State.log code param s) := by
  unfold State.log
  try dsimp only
  repeat' first
    | with_reducible exact h
    | (with_reducible refine sub _ ?_); decide
    | (with_reducible refine part_sub sub ?_); decide
    | with_reducible apply State.logFor_keeps
    | with_reducible assumption
    | with_reducible refine keeps_ite ?_ ?_
    | with_reducible refine keeps_foldl (fun _ _ _ => ?_) ?_
    | split
theorem State.logAll_keeps {P : List Part} {r : State} (es : List (Nat × Nat)) (s : State)
    (sub : ∀ p, p ∈ [.obs] → p ∈ P) (h : r.keepsBut P s) : r.keepsBut P (State.logAll es s) := by
  unfold State.logAll
  try dsimp only
  repeat' first
    | with_reducible exact h
    | (with_reducible refine sub _ ?_); decide
    | (with_reducible refine part_sub sub ?_); decide
    | with_reducible apply State.log_keeps
    | with_reducible assumption
    | with_reducible refine keeps_ite ?_ ?_
    | with_reducible refine keeps_foldl (fun _ _ _ => ?_) ?_
    | split
theorem State.startPail_keeps {P : List Part} {r : State} (own : List (Nat × Nat)) (s : State)
    (sub : ∀ p, p ∈ [.obs] → p ∈ P) (h : r.keepsBut P s) : r.keepsBut P (State.startPail own s) := by
  unfold State.startPail
  try dsimp only
  repeat' first
    | with_reducible exact h
    | (with_reducible refine sub _ ?_); decide
    | (with_reducible refine part_sub sub ?_); decide
    | with_reducible apply State.emit_keeps
    | with_reducible apply State.emitAt_keeps
    | with_reducible refine State.keeps_upObs _ ?_ ?_
    | with_reducible assumption
    | with_reducible refine keeps_ite ?_ ?_
    | with_reducible refine keeps_foldl (fun _ _ _ => ?_) ?_
    | split

end Sys2Proof.Machine
end

