-- ==== Sys2Proof/Laws/KeepsOps.lean ====
section
/-!
SUPPORT. What each operation of Machine/Ops.lean leaves unchanged: the groups of the state it may write, the others kept.
-/
namespace Sys2Proof.Machine

theorem State.wrap_keeps {P : List Part} {r : State} (block : Nat) (n : Nat) (total : Nat) (addr : Nat) (partner : Nat) (s : State)
    (sub : ∀ p, p ∈ [.obs, .perf] → p ∈ P) (h : r.keepsBut P s) : r.keepsBut P (State.wrap block n total addr partner s) := by
  unfold State.wrap
  try dsimp only
  repeat' first
    | with_reducible exact h
    | (with_reducible refine sub _ ?_); decide
    | (with_reducible refine part_sub sub ?_); decide
    | with_reducible apply State.raise_keeps
    | with_reducible refine State.keeps_upObs _ ?_ ?_
    | with_reducible refine State.keeps_upPerf _ ?_ ?_
    | with_reducible assumption
    | with_reducible refine keeps_ite ?_ ?_
    | with_reducible refine keeps_foldl (fun _ _ _ => ?_) ?_
    | split
theorem State.bump_keeps {P : List Part} {r : State} (block : Nat) (c : Nat) (n : Nat) (addr : Nat) (partner : Nat) (s : State)
    (sub : ∀ p, p ∈ [.obs, .perf] → p ∈ P) (h : r.keepsBut P s) : r.keepsBut P (State.bump block c n addr partner s) := by
  unfold State.bump
  try dsimp only
  repeat' first
    | with_reducible exact h
    | (with_reducible refine sub _ ?_); decide
    | (with_reducible refine part_sub sub ?_); decide
    | with_reducible apply State.wrap_keeps
    | with_reducible refine State.keeps_upPerf _ ?_ ?_
    | with_reducible assumption
    | with_reducible refine keeps_ite ?_ ?_
    | with_reducible refine keeps_foldl (fun _ _ _ => ?_) ?_
    | split
theorem State.countAt_keeps {P : List Part} {r : State} (block : Nat) (ev : Nat) (n : Nat) (addr : Nat) (partner : Nat) (s : State)
    (sub : ∀ p, p ∈ [.obs, .perf] → p ∈ P) (h : r.keepsBut P s) : r.keepsBut P (State.countAt block ev n addr partner s) := by
  unfold State.countAt
  try dsimp only
  repeat' first
    | with_reducible exact h
    | (with_reducible refine sub _ ?_); decide
    | (with_reducible refine part_sub sub ?_); decide
    | with_reducible apply State.bump_keeps
    | with_reducible assumption
    | with_reducible refine keeps_ite ?_ ?_
    | with_reducible refine keeps_foldl (fun _ _ _ => ?_) ?_
    | split
theorem State.count_keeps {P : List Part} {r : State} (block : Nat) (ev : Nat) (n : Nat) (s : State)
    (sub : ∀ p, p ∈ [.obs, .perf] → p ∈ P) (h : r.keepsBut P s) : r.keepsBut P (State.count block ev n s) := by
  unfold State.count
  try dsimp only
  repeat' first
    | with_reducible exact h
    | (with_reducible refine sub _ ?_); decide
    | (with_reducible refine part_sub sub ?_); decide
    | with_reducible apply State.countAt_keeps
    | with_reducible assumption
    | with_reducible refine keeps_ite ?_ ?_
    | with_reducible refine keeps_foldl (fun _ _ _ => ?_) ?_
    | split
theorem State.save_keeps {P : List Part} {r : State} (n : Nat) (s : State)
    (sub : ∀ p, p ∈ [.obs, .perf] → p ∈ P) (h : r.keepsBut P s) : r.keepsBut P (State.save n s) := by
  unfold State.save
  try dsimp only
  repeat' first
    | with_reducible exact h
    | (with_reducible refine sub _ ?_); decide
    | (with_reducible refine part_sub sub ?_); decide
    | with_reducible apply State.count_keeps
    | with_reducible assumption
    | with_reducible refine keeps_ite ?_ ?_
    | with_reducible refine keeps_foldl (fun _ _ _ => ?_) ?_
    | split
theorem State.measure_keeps {P : List Part} {r : State} (reg : Nat) (s : State)
    (sub : ∀ p, p ∈ [.keys] → p ∈ P) (h : r.keepsBut P s) : r.keepsBut P (State.measure reg s) := by
  unfold State.measure
  try dsimp only
  repeat' first
    | with_reducible exact h
    | (with_reducible refine sub _ ?_); decide
    | (with_reducible refine part_sub sub ?_); decide
    | with_reducible refine State.keeps_upKeys _ ?_ ?_
    | with_reducible assumption
    | with_reducible refine keeps_ite ?_ ?_
    | with_reducible refine keeps_foldl (fun _ _ _ => ?_) ?_
    | split
theorem State.transmit_keeps {P : List Part} {r : State} (m : YokeMsg) (s : State)
    (sub : ∀ p, p ∈ [.yoke, .obs, .perf] → p ∈ P) (h : r.keepsBut P s) : r.keepsBut P (State.transmit m s) := by
  unfold State.transmit
  try dsimp only
  repeat' first
    | with_reducible exact h
    | (with_reducible refine sub _ ?_); decide
    | (with_reducible refine part_sub sub ?_); decide
    | with_reducible apply State.count_keeps
    | with_reducible refine State.keeps_upYoke _ ?_ ?_
    | with_reducible assumption
    | with_reducible refine keeps_ite ?_ ?_
    | with_reducible refine keeps_foldl (fun _ _ _ => ?_) ?_
    | split
theorem State.send_keeps {P : List Part} {r : State} (m : YokeMsg) (s : State)
    (sub : ∀ p, p ∈ [.yoke, .obs, .perf] → p ∈ P) (h : r.keepsBut P s) : r.keepsBut P (State.send m s) := by
  unfold State.send
  try dsimp only
  repeat' first
    | with_reducible exact h
    | (with_reducible refine sub _ ?_); decide
    | (with_reducible refine part_sub sub ?_); decide
    | with_reducible apply State.transmit_keeps
    | with_reducible refine State.keeps_upYoke _ ?_ ?_
    | with_reducible assumption
    | with_reducible refine keeps_ite ?_ ?_
    | with_reducible refine keeps_foldl (fun _ _ _ => ?_) ?_
    | split
theorem State.sendWaiting_keeps {P : List Part} {r : State} (s : State)
    (sub : ∀ p, p ∈ [.yoke, .obs, .perf] → p ∈ P) (h : r.keepsBut P s) : r.keepsBut P (State.sendWaiting s) := by
  unfold State.sendWaiting
  try dsimp only
  repeat' first
    | with_reducible exact h
    | (with_reducible refine sub _ ?_); decide
    | (with_reducible refine part_sub sub ?_); decide
    | with_reducible apply State.send_keeps
    | with_reducible refine State.keeps_upYoke _ ?_ ?_
    | with_reducible assumption
    | with_reducible refine keeps_ite ?_ ?_
    | with_reducible refine keeps_foldl (fun _ _ _ => ?_) ?_
    | split
theorem State.owe_keeps {P : List Part} {r : State} (ty : Nat) (s : State)
    (sub : ∀ p, p ∈ [.yoke] → p ∈ P) (h : r.keepsBut P s) : r.keepsBut P (State.owe ty s) := by
  unfold State.owe
  try dsimp only
  repeat' first
    | with_reducible exact h
    | (with_reducible refine sub _ ?_); decide
    | (with_reducible refine part_sub sub ?_); decide
    | with_reducible refine State.keeps_upYoke _ ?_ ?_
    | with_reducible assumption
    | with_reducible refine keeps_ite ?_ ?_
    | with_reducible refine keeps_foldl (fun _ _ _ => ?_) ?_
    | split
theorem State.setCtl_keeps {P : List Part} {r : State} (i : Nat) (v : Nat) (s : State)
    (sub : ∀ p, p ∈ [.cmds] → p ∈ P) (h : r.keepsBut P s) : r.keepsBut P (State.setCtl i v s) := by
  unfold State.setCtl
  try dsimp only
  repeat' first
    | with_reducible exact h
    | (with_reducible refine sub _ ?_); decide
    | (with_reducible refine part_sub sub ?_); decide
    | with_reducible refine State.keeps_upCmds _ ?_ ?_
    | with_reducible assumption
    | with_reducible refine keeps_ite ?_ ?_
    | with_reducible refine keeps_foldl (fun _ _ _ => ?_) ?_
    | split
theorem State.setVal_keeps {P : List Part} {r : State} (i : Nat) (x1 : Nat) (v : Nat) (s : State)
    (sub : ∀ p, p ∈ [.cmds] → p ∈ P) (h : r.keepsBut P s) : r.keepsBut P (State.setVal i x1 v s) := by
  unfold State.setVal
  try dsimp only
  repeat' first
    | with_reducible exact h
    | (with_reducible refine sub _ ?_); decide
    | (with_reducible refine part_sub sub ?_); decide
    | with_reducible refine State.keeps_upCmds _ ?_ ?_
    | with_reducible assumption
    | with_reducible refine keeps_ite ?_ ?_
    | with_reducible refine keeps_foldl (fun _ _ _ => ?_) ?_
    | split
theorem State.leavePrepared_keeps {P : List Part} {r : State} (s : State)
    (sub : ∀ p, p ∈ [.pwr, .cmds] → p ∈ P) (h : r.keepsBut P s) : r.keepsBut P (State.leavePrepared s) := by
  unfold State.leavePrepared
  try dsimp only
  repeat' first
    | with_reducible exact h
    | (with_reducible refine sub _ ?_); decide
    | (with_reducible refine part_sub sub ?_); decide
    | with_reducible apply State.setCtl_keeps
    | with_reducible refine State.keeps_upPwr _ ?_ ?_
    | with_reducible assumption
    | with_reducible refine keeps_ite ?_ ?_
    | with_reducible refine keeps_foldl (fun _ _ _ => ?_) ?_
    | split
theorem State.journal_keeps {P : List Part} {r : State} (x0 : JRec) (s : State)
    (sub : ∀ p, p ∈ [.pwr, .map, .obs, .cmds] → p ∈ P) (h : r.keepsBut P s) : r.keepsBut P (State.journal x0 s) := by
  unfold State.journal
  try dsimp only
  repeat' first
    | with_reducible exact h
    | (with_reducible refine sub _ ?_); decide
    | (with_reducible refine part_sub sub ?_); decide
    | with_reducible apply State.leavePrepared_keeps
    | with_reducible apply State.log_keeps
    | with_reducible refine State.keeps_upMap _ ?_ ?_
    | with_reducible assumption
    | with_reducible refine keeps_ite ?_ ?_
    | with_reducible refine keeps_foldl (fun _ _ _ => ?_) ?_
    | split
theorem State.mark_keeps {P : List Part} {r : State} (g : Nat) (s : State)
    (sub : ∀ p, p ∈ [.pwr, .map, .obs, .cmds] → p ∈ P) (h : r.keepsBut P s) : r.keepsBut P (State.mark g s) := by
  unfold State.mark
  try dsimp only
  repeat' first
    | with_reducible exact h
    | (with_reducible refine sub _ ?_); decide
    | (with_reducible refine part_sub sub ?_); decide
    | with_reducible apply State.journal_keeps
    | with_reducible refine State.keeps_upMap _ ?_ ?_
    | with_reducible assumption
    | with_reducible refine keeps_ite ?_ ?_
    | with_reducible refine keeps_foldl (fun _ _ _ => ?_) ?_
    | split
theorem State.unmark_keeps {P : List Part} {r : State} (g : Nat) (s : State)
    (sub : ∀ p, p ∈ [.pwr, .map, .obs, .cmds] → p ∈ P) (h : r.keepsBut P s) : r.keepsBut P (State.unmark g s) := by
  unfold State.unmark
  try dsimp only
  repeat' first
    | with_reducible exact h
    | (with_reducible refine sub _ ?_); decide
    | (with_reducible refine part_sub sub ?_); decide
    | with_reducible apply State.journal_keeps
    | with_reducible refine State.keeps_upMap _ ?_ ?_
    | with_reducible assumption
    | with_reducible refine keeps_ite ?_ ?_
    | with_reducible refine keeps_foldl (fun _ _ _ => ?_) ?_
    | split
theorem State.markAll_keeps {P : List Part} {r : State} (s : State)
    (sub : ∀ p, p ∈ [.pwr, .map, .obs, .cmds] → p ∈ P) (h : r.keepsBut P s) : r.keepsBut P (State.markAll s) := by
  unfold State.markAll
  try dsimp only
  repeat' first
    | with_reducible exact h
    | (with_reducible refine sub _ ?_); decide
    | (with_reducible refine part_sub sub ?_); decide
    | with_reducible apply State.journal_keeps
    | with_reducible refine State.keeps_upMap _ ?_ ?_
    | with_reducible assumption
    | with_reducible refine keeps_ite ?_ ?_
    | with_reducible refine keeps_foldl (fun _ _ _ => ?_) ?_
    | split
theorem State.markSole_keeps {P : List Part} {r : State} (g : Nat) (s : State)
    (sub : ∀ p, p ∈ [.pwr, .map, .obs, .cmds] → p ∈ P) (h : r.keepsBut P s) : r.keepsBut P (State.markSole g s) := by
  unfold State.markSole
  try dsimp only
  repeat' first
    | with_reducible exact h
    | (with_reducible refine sub _ ?_); decide
    | (with_reducible refine part_sub sub ?_); decide
    | with_reducible apply State.mark_keeps
    | with_reducible assumption
    | with_reducible refine keeps_ite ?_ ?_
    | with_reducible refine keeps_foldl (fun _ _ _ => ?_) ?_
    | split
theorem State.poison_keeps {P : List Part} {r : State} (line : Nat) (s : State)
    (sub : ∀ p, p ∈ [.pwr, .map, .obs, .cmds] → p ∈ P) (h : r.keepsBut P s) : r.keepsBut P (State.poison line s) := by
  unfold State.poison
  try dsimp only
  repeat' first
    | with_reducible exact h
    | (with_reducible refine sub _ ?_); decide
    | (with_reducible refine part_sub sub ?_); decide
    | with_reducible apply State.journal_keeps
    | with_reducible apply State.markSole_keeps
    | with_reducible refine State.keeps_upMap _ ?_ ?_
    | with_reducible assumption
    | with_reducible refine keeps_ite ?_ ?_
    | with_reducible refine keeps_foldl (fun _ _ _ => ?_) ?_
    | split
theorem State.unpoison_keeps {P : List Part} {r : State} (line : Nat) (s : State)
    (sub : ∀ p, p ∈ [.pwr, .map, .obs, .cmds] → p ∈ P) (h : r.keepsBut P s) : r.keepsBut P (State.unpoison line s) := by
  unfold State.unpoison
  try dsimp only
  repeat' first
    | with_reducible exact h
    | (with_reducible refine sub _ ?_); decide
    | (with_reducible refine part_sub sub ?_); decide
    | with_reducible apply State.journal_keeps
    | with_reducible apply State.markSole_keeps
    | with_reducible refine State.keeps_upMap _ ?_ ?_
    | with_reducible assumption
    | with_reducible refine keeps_ite ?_ ?_
    | with_reducible refine keeps_foldl (fun _ _ _ => ?_) ?_
    | split
theorem State.poisonAll_keeps {P : List Part} {r : State} (ls : List Nat) (s : State)
    (sub : ∀ p, p ∈ [.pwr, .map, .obs, .cmds] → p ∈ P) (h : r.keepsBut P s) : r.keepsBut P (State.poisonAll ls s) := by
  unfold State.poisonAll
  try dsimp only
  repeat' first
    | with_reducible exact h
    | (with_reducible refine sub _ ?_); decide
    | (with_reducible refine part_sub sub ?_); decide
    | with_reducible apply State.poison_keeps
    | with_reducible assumption
    | with_reducible refine keeps_ite ?_ ?_
    | with_reducible refine keeps_foldl (fun _ _ _ => ?_) ?_
    | split
theorem State.charge_keeps {P : List Part} {r : State} (line : Nat) (s : State)
    (sub : ∀ p, p ∈ [.pwr, .budget, .cmds] → p ∈ P) (h : r.keepsBut P s) : r.keepsBut P (State.charge line s) := by
  unfold State.charge
  try dsimp only
  repeat' first
    | with_reducible exact h
    | (with_reducible refine sub _ ?_); decide
    | (with_reducible refine part_sub sub ?_); decide
    | with_reducible apply State.leavePrepared_keeps
    | with_reducible refine State.keeps_upBudget _ ?_ ?_
    | with_reducible assumption
    | with_reducible refine keeps_ite ?_ ?_
    | with_reducible refine keeps_foldl (fun _ _ _ => ?_) ?_
    | split
theorem State.release_keeps {P : List Part} {r : State} (line : Nat) (s : State)
    (sub : ∀ p, p ∈ [.budget] → p ∈ P) (h : r.keepsBut P s) : r.keepsBut P (State.release line s) := by
  unfold State.release
  try dsimp only
  repeat' first
    | with_reducible exact h
    | (with_reducible refine sub _ ?_); decide
    | (with_reducible refine part_sub sub ?_); decide
    | with_reducible refine State.keeps_upBudget _ ?_ ?_
    | with_reducible assumption
    | with_reducible refine keeps_ite ?_ ?_
    | with_reducible refine keeps_foldl (fun _ _ _ => ?_) ?_
    | split
theorem State.releaseAll_keeps {P : List Part} {r : State} (ls : List Nat) (s : State)
    (sub : ∀ p, p ∈ [.budget] → p ∈ P) (h : r.keepsBut P s) : r.keepsBut P (State.releaseAll ls s) := by
  unfold State.releaseAll
  try dsimp only
  repeat' first
    | with_reducible exact h
    | (with_reducible refine sub _ ?_); decide
    | (with_reducible refine part_sub sub ?_); decide
    | with_reducible apply State.release_keeps
    | with_reducible assumption
    | with_reducible refine keeps_ite ?_ ?_
    | with_reducible refine keeps_foldl (fun _ _ _ => ?_) ?_
    | split
theorem State.respond_keeps {P : List Part} {r : State} (key : Nat) (tag : Nat) (k : RespKind) (s : State)
    (sub : ∀ p, p ∈ [.port, .obs, .perf] → p ∈ P) (h : r.keepsBut P s) : r.keepsBut P (State.respond key tag k s) := by
  unfold State.respond
  try dsimp only
  repeat' first
    | with_reducible exact h
    | (with_reducible refine sub _ ?_); decide
    | (with_reducible refine part_sub sub ?_); decide
    | with_reducible apply State.count_keeps
    | with_reducible refine State.keeps_upPort _ ?_ ?_
    | with_reducible assumption
    | with_reducible refine keeps_ite ?_ ?_
    | with_reducible refine keeps_foldl (fun _ _ _ => ?_) ?_
    | split
theorem State.dropReq_keeps {P : List Part} {r : State} (id : Nat) (s : State)
    (sub : ∀ p, p ∈ [.reqs] → p ∈ P) (h : r.keepsBut P s) : r.keepsBut P (State.dropReq id s) := by
  unfold State.dropReq
  try dsimp only
  repeat' first
    | with_reducible exact h
    | (with_reducible refine sub _ ?_); decide
    | (with_reducible refine part_sub sub ?_); decide
    | with_reducible refine State.keeps_upReqs _ ?_ ?_
    | with_reducible assumption
    | with_reducible refine keeps_ite ?_ ?_
    | with_reducible refine keeps_foldl (fun _ _ _ => ?_) ?_
    | split
theorem State.stageReq_keeps {P : List Part} {r : State} (id : Nat) (st : Stage) (s : State)
    (sub : ∀ p, p ∈ [.reqs] → p ∈ P) (h : r.keepsBut P s) : r.keepsBut P (State.stageReq id st s) := by
  unfold State.stageReq
  try dsimp only
  repeat' first
    | with_reducible exact h
    | (with_reducible refine sub _ ?_); decide
    | (with_reducible refine part_sub sub ?_); decide
    | with_reducible refine State.keeps_upReqs _ ?_ ?_
    | with_reducible assumption
    | with_reducible refine keeps_ite ?_ ?_
    | with_reducible refine keeps_foldl (fun _ _ _ => ?_) ?_
    | split
theorem State.sample_keeps {P : List Part} {r : State} (kind : Nat) (v : Nat) (s : State)
    (sub : ∀ p, p ∈ [.firkin] → p ∈ P) (h : r.keepsBut P s) : r.keepsBut P (State.sample kind v s) := by
  unfold State.sample
  try dsimp only
  repeat' first
    | with_reducible exact h
    | (with_reducible refine sub _ ?_); decide
    | (with_reducible refine part_sub sub ?_); decide
    | with_reducible refine State.keeps_upFirkin _ ?_ ?_
    | with_reducible assumption
    | with_reducible refine keeps_ite ?_ ?_
    | with_reducible refine keeps_foldl (fun _ _ _ => ?_) ?_
    | split
theorem State.timed_keeps {P : List Part} {r : State} (x0 : Req) (s : State)
    (sub : ∀ p, p ∈ [.care, .reg, .firkin, .rstats] → p ∈ P) (h : r.keepsBut P s) : r.keepsBut P (State.timed x0 s) := by
  unfold State.timed
  try dsimp only
  repeat' first
    | with_reducible exact h
    | (with_reducible refine sub _ ?_); decide
    | (with_reducible refine part_sub sub ?_); decide
    | with_reducible apply State.sample_keeps
    | with_reducible refine State.keeps_upCare _ ?_ ?_
    | with_reducible refine State.keeps_upReg _ ?_ ?_
    | with_reducible refine State.keeps_upRstats _ ?_ ?_
    | with_reducible assumption
    | with_reducible refine keeps_ite ?_ ?_
    | with_reducible refine keeps_foldl (fun _ _ _ => ?_) ?_
    | split
theorem State.mboxRespond_keeps {P : List Part} {r : State} (w : Who) (opcode : Nat) (code : Nat) (payload : Bytes) (s : State)
    (sub : ∀ p, p ∈ [.mbox, .obs] → p ∈ P) (h : r.keepsBut P s) : r.keepsBut P (State.mboxRespond w opcode code payload s) := by
  unfold State.mboxRespond
  try dsimp only
  repeat' first
    | with_reducible exact h
    | (with_reducible refine sub _ ?_); decide
    | (with_reducible refine part_sub sub ?_); decide
    | with_reducible apply State.raiseWhen_keeps
    | with_reducible refine State.keeps_upMbox _ ?_ ?_
    | with_reducible assumption
    | with_reducible refine keeps_ite ?_ ?_
    | with_reducible refine keeps_foldl (fun _ _ _ => ?_) ?_
    | split
theorem State.refreshSelf_keeps {P : List Part} {r : State} (s : State)
    (sub : ∀ p, p ∈ [.pwr] → p ∈ P) (h : r.keepsBut P s) : r.keepsBut P (State.refreshSelf s) := by
  unfold State.refreshSelf
  try dsimp only
  repeat' first
    | with_reducible exact h
    | (with_reducible refine sub _ ?_); decide
    | (with_reducible refine part_sub sub ?_); decide
    | with_reducible refine State.keeps_upPwr _ ?_ ?_
    | with_reducible assumption
    | with_reducible refine keeps_ite ?_ ?_
    | with_reducible refine keeps_foldl (fun _ _ _ => ?_) ?_
    | split
theorem State.answer_keeps {P : List Part} {r : State} (x0 : Req) (k : RespKind) (s : State)
    (sub : ∀ p, p ∈ [.pwr, .port, .reqs, .slices, .care, .yoke, .reg, .mbox, .obs, .perf, .firkin, .rstats, .cmds] → p ∈ P) (h : r.keepsBut P s) : r.keepsBut P (State.answer x0 k s) := by
  unfold State.answer
  try dsimp only
  repeat' first
    | with_reducible exact h
    | (with_reducible refine sub _ ?_); decide
    | (with_reducible refine part_sub sub ?_); decide
    | with_reducible apply State.dropReq_keeps
    | with_reducible apply State.mboxRespond_keeps
    | with_reducible apply State.refreshSelf_keeps
    | with_reducible apply State.respond_keeps
    | with_reducible apply State.send_keeps
    | with_reducible apply State.setVal_keeps
    | with_reducible apply State.timed_keeps
    | with_reducible refine State.keeps_upMbox _ ?_ ?_
    | with_reducible refine State.keeps_upSlices _ ?_ ?_
    | with_reducible assumption
    | with_reducible refine keeps_ite ?_ ?_
    | with_reducible refine keeps_foldl (fun _ _ _ => ?_) ?_
    | split
theorem State.reply_keeps {P : List Part} {r : State} (route : Route) (spec : Nat) (flags : Nat) (tid : Nat) (index : Nat) (x5 : Nat) (code : Nat) (data : Bytes) (s : State)
    (sub : ∀ p, p ∈ [.dict, .mbox, .obs] → p ∈ P) (h : r.keepsBut P s) : r.keepsBut P (State.reply route spec flags tid index x5 code data s) := by
  unfold State.reply
  try dsimp only
  repeat' first
    | with_reducible exact h
    | (with_reducible refine sub _ ?_); decide
    | (with_reducible refine part_sub sub ?_); decide
    | with_reducible apply State.mboxRespond_keeps
    | with_reducible refine State.keeps_upDict _ ?_ ?_
    | with_reducible refine State.keeps_upMbox _ ?_ ?_
    | with_reducible assumption
    | with_reducible refine keeps_ite ?_ ?_
    | with_reducible refine keeps_foldl (fun _ _ _ => ?_) ?_
    | split
theorem State.askLeave_keeps {P : List Part} {r : State} (id : Nat) (act : Act) (prio : Nat) (cost : Nat) (s : State)
    (sub : ∀ p, p ∈ [.reg] → p ∈ P) (h : r.keepsBut P s) : r.keepsBut P (State.askLeave id act prio cost s) := by
  unfold State.askLeave
  try dsimp only
  repeat' first
    | with_reducible exact h
    | (with_reducible refine sub _ ?_); decide
    | (with_reducible refine part_sub sub ?_); decide
    | with_reducible refine State.keeps_upReg _ ?_ ?_
    | with_reducible assumption
    | with_reducible refine keeps_ite ?_ ?_
    | with_reducible refine keeps_foldl (fun _ _ _ => ?_) ?_
    | split
theorem State.giveLeave_keeps {P : List Part} {r : State} (id : Nat) (s : State)
    (sub : ∀ p, p ∈ [.reg] → p ∈ P) (h : r.keepsBut P s) : r.keepsBut P (State.giveLeave id s) := by
  unfold State.giveLeave
  try dsimp only
  repeat' first
    | with_reducible exact h
    | (with_reducible refine sub _ ?_); decide
    | (with_reducible refine part_sub sub ?_); decide
    | with_reducible refine State.keeps_upReg _ ?_ ?_
    | with_reducible assumption
    | with_reducible refine keeps_ite ?_ ?_
    | with_reducible refine keeps_foldl (fun _ _ _ => ?_) ?_
    | split
theorem State.tally_keeps {P : List Part} {r : State} (k : Nat) (f : Nat → Nat) (s : State)
    (sub : ∀ p, p ∈ [.cmds] → p ∈ P) (h : r.keepsBut P s) : r.keepsBut P (State.tally k f s) := by
  unfold State.tally
  try dsimp only
  repeat' first
    | with_reducible exact h
    | (with_reducible refine sub _ ?_); decide
    | (with_reducible refine part_sub sub ?_); decide
    | with_reducible apply State.setVal_keeps
    | with_reducible assumption
    | with_reducible refine keeps_ite ?_ ?_
    | with_reducible refine keeps_foldl (fun _ _ _ => ?_) ?_
    | split
theorem State.askStrain_keeps {P : List Part} {r : State} (s : State)
    (sub : ∀ p, p ∈ [.reg] → p ∈ P) (h : r.keepsBut P s) : r.keepsBut P (State.askStrain s) := by
  unfold State.askStrain
  try dsimp only
  repeat' first
    | with_reducible exact h
    | (with_reducible refine sub _ ?_); decide
    | (with_reducible refine part_sub sub ?_); decide
    | with_reducible apply State.askLeave_keeps
    | with_reducible assumption
    | with_reducible refine keeps_ite ?_ ?_
    | with_reducible refine keeps_foldl (fun _ _ _ => ?_) ?_
    | split
theorem State.startGills_keeps {P : List Part} {r : State} (s : State)
    (sub : ∀ p, p ∈ [.gills] → p ∈ P) (h : r.keepsBut P s) : r.keepsBut P (State.startGills s) := by
  unfold State.startGills
  try dsimp only
  repeat' first
    | with_reducible exact h
    | (with_reducible refine sub _ ?_); decide
    | (with_reducible refine part_sub sub ?_); decide
    | with_reducible refine State.keeps_upGills _ ?_ ?_
    | with_reducible assumption
    | with_reducible refine keeps_ite ?_ ?_
    | with_reducible refine keeps_foldl (fun _ _ _ => ?_) ?_
    | split
theorem State.needRetrain_keeps {P : List Part} {r : State} (mask : BitVec 8) (s : State)
    (sub : ∀ p, p ∈ [.reg, .dram] → p ∈ P) (h : r.keepsBut P s) : r.keepsBut P (State.needRetrain mask s) := by
  unfold State.needRetrain
  try dsimp only
  repeat' first
    | with_reducible exact h
    | (with_reducible refine sub _ ?_); decide
    | (with_reducible refine part_sub sub ?_); decide
    | with_reducible apply State.askLeave_keeps
    | with_reducible refine State.keeps_upDram _ ?_ ?_
    | with_reducible assumption
    | with_reducible refine keeps_ite ?_ ?_
    | with_reducible refine keeps_foldl (fun _ _ _ => ?_) ?_
    | split
theorem State.gill_keeps {P : List Part} {r : State} (d : Nat) (weight : Nat) (s : State)
    (sub : ∀ p, p ∈ [.reg, .dram, .gills, .obs] → p ∈ P) (h : r.keepsBut P s) : r.keepsBut P (State.gill d weight s) := by
  unfold State.gill
  try dsimp only
  repeat' first
    | with_reducible exact h
    | (with_reducible refine sub _ ?_); decide
    | (with_reducible refine part_sub sub ?_); decide
    | with_reducible apply State.log_keeps
    | with_reducible apply State.needRetrain_keeps
    | with_reducible refine State.keeps_upGills _ ?_ ?_
    | with_reducible assumption
    | with_reducible refine keeps_ite ?_ ?_
    | with_reducible refine keeps_foldl (fun _ _ _ => ?_) ?_
    | split
theorem State.endRes_keeps {P : List Part} {r : State} (p : Resv → Bool) (why : Nat) (s : State)
    (sub : ∀ p, p ∈ [.atom] → p ∈ P) (h : r.keepsBut P s) : r.keepsBut P (State.endRes p why s) := by
  unfold State.endRes
  try dsimp only
  repeat' first
    | with_reducible exact h
    | (with_reducible refine sub _ ?_); decide
    | (with_reducible refine part_sub sub ?_); decide
    | with_reducible refine State.keeps_upAtom _ ?_ ?_
    | with_reducible assumption
    | with_reducible refine keeps_ite ?_ ?_
    | with_reducible refine keeps_foldl (fun _ _ _ => ?_) ?_
    | split
theorem State.spendRes_keeps {P : List Part} {r : State} (entry : Nat) (line : Nat) (s : State)
    (sub : ∀ p, p ∈ [.atom] → p ∈ P) (h : r.keepsBut P s) : r.keepsBut P (State.spendRes entry line s) := by
  unfold State.spendRes
  try dsimp only
  repeat' first
    | with_reducible exact h
    | (with_reducible refine sub _ ?_); decide
    | (with_reducible refine part_sub sub ?_); decide
    | with_reducible refine State.keeps_upAtom _ ?_ ?_
    | with_reducible assumption
    | with_reducible refine keeps_ite ?_ ?_
    | with_reducible refine keeps_foldl (fun _ _ _ => ?_) ?_
    | split
theorem State.setStatus_keeps {P : List Part} {r : State} (n : Nat) (slice : Nat) (outcome : Nat) (line : Nat) (s : State)
    (sub : ∀ p, p ∈ [.atom] → p ∈ P) (h : r.keepsBut P s) : r.keepsBut P (State.setStatus n slice outcome line s) := by
  unfold State.setStatus
  try dsimp only
  repeat' first
    | with_reducible exact h
    | (with_reducible refine sub _ ?_); decide
    | (with_reducible refine part_sub sub ?_); decide
    | with_reducible refine State.keeps_upAtom _ ?_ ?_
    | with_reducible assumption
    | with_reducible refine keeps_ite ?_ ?_
    | with_reducible refine keeps_foldl (fun _ _ _ => ?_) ?_
    | split
theorem State.countOutcome_keeps {P : List Part} {r : State} (outcome : Nat) (s : State)
    (sub : ∀ p, p ∈ [.atom] → p ∈ P) (h : r.keepsBut P s) : r.keepsBut P (State.countOutcome outcome s) := by
  unfold State.countOutcome
  try dsimp only
  repeat' first
    | with_reducible exact h
    | (with_reducible refine sub _ ?_); decide
    | (with_reducible refine part_sub sub ?_); decide
    | with_reducible refine State.keeps_upAtom _ ?_ ?_
    | with_reducible assumption
    | with_reducible refine keeps_ite ?_ ?_
    | with_reducible refine keeps_foldl (fun _ _ _ => ?_) ?_
    | split
theorem State.intervene_keeps {P : List Part} {r : State} (line : Nat) (s : State)
    (sub : ∀ p, p ∈ [.atom] → p ∈ P) (h : r.keepsBut P s) : r.keepsBut P (State.intervene line s) := by
  unfold State.intervene
  try dsimp only
  repeat' first
    | with_reducible exact h
    | (with_reducible refine sub _ ?_); decide
    | (with_reducible refine part_sub sub ?_); decide
    | with_reducible apply State.endRes_keeps
    | with_reducible assumption
    | with_reducible refine keeps_ite ?_ ?_
    | with_reducible refine keeps_foldl (fun _ _ _ => ?_) ?_
    | split
theorem State.countLevel_keeps {P : List Part} {r : State} (ticks : Nat) (k : Nat) (sel : Nat) (s : State)
    (sub : ∀ p, p ∈ [.obs, .perf] → p ∈ P) (h : r.keepsBut P s) : r.keepsBut P (State.countLevel ticks k sel s) := by
  unfold State.countLevel
  try dsimp only
  repeat' first
    | with_reducible exact h
    | (with_reducible refine sub _ ?_); decide
    | (with_reducible refine part_sub sub ?_); decide
    | with_reducible apply State.bump_keeps
    | with_reducible refine State.keeps_upPerf _ ?_ ?_
    | with_reducible assumption
    | with_reducible refine keeps_ite ?_ ?_
    | with_reducible refine keeps_foldl (fun _ _ _ => ?_) ?_
    | split
theorem State.elapse_keeps {P : List Part} {r : State} (dt : Nat) (s : State)
    (sub : ∀ p, p ∈ [.clk, .obs, .perf] → p ∈ P) (h : r.keepsBut P s) : r.keepsBut P (State.elapse dt s) := by
  unfold State.elapse
  try dsimp only
  repeat' first
    | with_reducible exact h
    | (with_reducible refine sub _ ?_); decide
    | (with_reducible refine part_sub sub ?_); decide
    | with_reducible apply State.countLevel_keeps
    | with_reducible refine State.keeps_upClk _ ?_ ?_
    | with_reducible refine State.keeps_upPerf _ ?_ ?_
    | with_reducible assumption
    | with_reducible refine keeps_ite ?_ ?_
    | with_reducible refine keeps_foldl (fun _ _ _ => ?_) ?_
    | split
theorem State.elapseTo_keeps {P : List Part} {r : State} (t : Nat) (s : State)
    (sub : ∀ p, p ∈ [.clk, .obs, .perf] → p ∈ P) (h : r.keepsBut P s) : r.keepsBut P (State.elapseTo t s) := by
  unfold State.elapseTo
  try dsimp only
  repeat' first
    | with_reducible exact h
    | (with_reducible refine sub _ ?_); decide
    | (with_reducible refine part_sub sub ?_); decide
    | with_reducible apply State.elapse_keeps
    | with_reducible assumption
    | with_reducible refine keeps_ite ?_ ?_
    | with_reducible refine keeps_foldl (fun _ _ _ => ?_) ?_
    | split

end Sys2Proof.Machine
end

