-- ==== Sys2Proof/Laws/KeepsContent.lean ====
section
/-!
SUPPORT. What each operation of Machine/Content.lean leaves unchanged: the groups of the state it may write, the others kept.
-/
namespace Sys2Proof.Machine

theorem State.enterFilter_keeps {P : List Part} {r : State} (g : Nat) (s : State)
    (sub : ∀ p, p ∈ [.map] → p ∈ P) (h : r.keepsBut P s) : r.keepsBut P (State.enterFilter g s) := by
  unfold State.enterFilter
  try dsimp only
  repeat' first
    | with_reducible exact h
    | (with_reducible refine sub _ ?_); decide
    | (with_reducible refine part_sub sub ?_); decide
    | with_reducible refine State.keeps_upMap _ ?_ ?_
    | with_reducible assumption
    | with_reducible refine keeps_ite ?_ ?_
    | with_reducible refine keeps_foldl (fun _ _ _ => ?_) ?_
    | split
theorem State.trimFilter_keeps {P : List Part} {r : State} (g : Nat) (s : State)
    (sub : ∀ p, p ∈ [.map] → p ∈ P) (h : r.keepsBut P s) : r.keepsBut P (State.trimFilter g s) := by
  unfold State.trimFilter
  try dsimp only
  repeat' first
    | with_reducible exact h
    | (with_reducible refine sub _ ?_); decide
    | (with_reducible refine part_sub sub ?_); decide
    | with_reducible refine State.keeps_upMap _ ?_ ?_
    | with_reducible assumption
    | with_reducible refine keeps_ite ?_ ?_
    | with_reducible refine keeps_foldl (fun _ _ _ => ?_) ?_
    | split
theorem State.remakeFilter_keeps {P : List Part} {r : State} (slice : Nat) (s : State)
    (sub : ∀ p, p ∈ [.map] → p ∈ P) (h : r.keepsBut P s) : r.keepsBut P (State.remakeFilter slice s) := by
  unfold State.remakeFilter
  try dsimp only
  repeat' first
    | with_reducible exact h
    | (with_reducible refine sub _ ?_); decide
    | (with_reducible refine part_sub sub ?_); decide
    | with_reducible refine State.keeps_upMap _ ?_ ?_
    | with_reducible assumption
    | with_reducible refine keeps_ite ?_ ?_
    | with_reducible refine keeps_foldl (fun _ _ _ => ?_) ?_
    | split

end Sys2Proof.Machine
end

