-- ==== Sys2Proof/Laws/KeepsRipening.lean ====
section
/-!
SUPPORT. What each operation of Machine/Ripening.lean leaves unchanged: the groups of the state it may write, the others kept.
-/
namespace Sys2Proof.Machine

theorem State.softDecoded_keeps {P : List Part} {r : State} (key : Nat) (ppa : Nat) (deep : Bool) (offsets : List Int) (s : State)
    (sub : ∀ p, p ∈ [.media, .care] → p ∈ P) (h : r.keepsBut P s) : r.keepsBut P (State.softDecoded key ppa deep offsets s) := by
  unfold State.softDecoded
  try dsimp only
  repeat' first
    | with_reducible exact h
    | (with_reducible refine sub _ ?_); decide
    | (with_reducible refine part_sub sub ?_); decide
    | with_reducible refine State.keeps_upCare _ ?_ ?_
    | with_reducible refine State.keeps_upMedia _ ?_ ?_
    | with_reducible assumption
    | with_reducible refine keeps_ite ?_ ?_
    | with_reducible refine keeps_foldl (fun _ _ _ => ?_) ?_
    | split
theorem State.codewordRead_keeps {P : List Part} {r : State} (ppa : Nat) (s : State)
    (sub : ∀ p, p ∈ [.media] → p ∈ P) (h : r.keepsBut P s) : r.keepsBut P (State.codewordRead ppa s) := by
  unfold State.codewordRead
  try dsimp only
  repeat' first
    | with_reducible exact h
    | (with_reducible refine sub _ ?_); decide
    | (with_reducible refine part_sub sub ?_); decide
    | with_reducible refine State.keeps_upMedia _ ?_ ?_
    | with_reducible assumption
    | with_reducible refine keeps_ite ?_ ?_
    | with_reducible refine keeps_foldl (fun _ _ _ => ?_) ?_
    | split
theorem State.activate_keeps {P : List Part} {r : State} (x0 : Nat) (bank : Nat) (row : Nat) (s : State)
    (sub : ∀ p, p ∈ [.dram, .obs, .perf] → p ∈ P) (h : r.keepsBut P s) : r.keepsBut P (State.activate x0 bank row s) := by
  unfold State.activate
  try dsimp only
  repeat' first
    | with_reducible exact h
    | (with_reducible refine sub _ ?_); decide
    | (with_reducible refine part_sub sub ?_); decide
    | with_reducible apply State.count_keeps
    | with_reducible apply State.log_keeps
    | with_reducible refine State.keeps_upDram _ ?_ ?_
    | with_reducible assumption
    | with_reducible refine keeps_ite ?_ ?_
    | with_reducible refine keeps_foldl (fun _ _ _ => ?_) ?_
    | split
theorem State.dramAccess_keeps {P : List Part} {r : State} (x0 : Nat) (bank : Nat) (row : Nat) (queued : Bool) (s : State)
    (sub : ∀ p, p ∈ [.dram, .obs, .perf] → p ∈ P) (h : r.keepsBut P s) : r.keepsBut P (State.dramAccess x0 bank row queued s) := by
  unfold State.dramAccess
  try dsimp only
  repeat' first
    | with_reducible exact h
    | (with_reducible refine sub _ ?_); decide
    | (with_reducible refine part_sub sub ?_); decide
    | with_reducible apply State.activate_keeps
    | with_reducible apply State.count_keeps
    | with_reducible refine State.keeps_upDram _ ?_ ?_
    | with_reducible assumption
    | with_reducible refine keeps_ite ?_ ?_
    | with_reducible refine keeps_foldl (fun _ _ _ => ?_) ?_
    | split

end Sys2Proof.Machine
end

