-- ==== Sys2Proof/Laws/KeepsFetch.lean ====
section
/-!
SUPPORT. What each operation of Machine/Fetch.lean leaves unchanged: the groups of the state it may write, the others kept.
-/
namespace Sys2Proof.Machine

theorem State.useBus_keeps {P : List Part} {r : State} (ch : Nat) (host : Bool) (ns : Nat) (s : State)
    (sub : ∀ p, p ∈ [.media] → p ∈ P) (h : r.keepsBut P s) : r.keepsBut P (State.useBus ch host ns s) := by
  unfold State.useBus
  try dsimp only
  repeat' first
    | with_reducible exact h
    | (with_reducible refine sub _ ?_); decide
    | (with_reducible refine part_sub sub ?_); decide
    | with_reducible refine State.keeps_upMedia _ ?_ ?_
    | with_reducible assumption
    | with_reducible refine keeps_ite ?_ ?_
    | with_reducible refine keeps_foldl (fun _ _ _ => ?_) ?_
    | split
theorem State.loadChannel_keeps {P : List Part} {r : State} (ch : Nat) (s : State)
    (sub : ∀ p, p ∈ [.media] → p ∈ P) (h : r.keepsBut P s) : r.keepsBut P (State.loadChannel ch s) := by
  unfold State.loadChannel
  try dsimp only
  repeat' first
    | with_reducible exact h
    | (with_reducible refine sub _ ?_); decide
    | (with_reducible refine part_sub sub ?_); decide
    | with_reducible apply State.useBus_keeps
    | with_reducible refine State.keeps_upMedia _ ?_ ?_
    | with_reducible assumption
    | with_reducible refine keeps_ite ?_ ?_
    | with_reducible refine keeps_foldl (fun _ _ _ => ?_) ?_
    | split
theorem State.nextClass_keeps {P : List Part} {r : State} (point : Nat) (s : State) (cs : List Nat)
    (sub : ∀ p, p ∈ [.reg] → p ∈ P) (h : r.keepsBut P s) : KeepsP r P (State.nextClass point s cs) := by
  unfold State.nextClass
  try dsimp only
  repeat' first
    | with_reducible exact h
    | (with_reducible refine sub _ ?_); decide
    | (with_reducible refine part_sub sub ?_); decide
    | with_reducible refine State.keeps_upReg _ ?_ ?_
    | with_reducible assumption
    | with_reducible refine keeps_ite ?_ ?_
    | with_reducible refine keeps_foldl (fun _ _ _ => ?_) ?_
    | with_reducible refine keepsP_ite ?_ ?_
    | with_reducible refine keepsP_foldl (fun _ _ _ => ?_) ?_
    | split
    | with_reducible refine KeepsP.snd ?_
    | with_reducible refine keepsP_mk ?_
    | with_reducible refine KeepsP.out (by assumption) ?_
theorem State.takesBus_keeps {P : List Part} {r : State} (m : Miss) (ch : Nat) (s : State)
    (sub : ∀ p, p ∈ [.reg] → p ∈ P) (h : r.keepsBut P s) : KeepsO r P (State.takesBus m ch s) := by
  unfold State.takesBus
  try dsimp only
  repeat' first
    | with_reducible exact h
    | (with_reducible refine sub _ ?_); decide
    | (with_reducible refine part_sub sub ?_); decide
    | with_reducible apply State.nextClass_keeps
    | with_reducible assumption
    | with_reducible refine keeps_ite ?_ ?_
    | with_reducible refine keeps_foldl (fun _ _ _ => ?_) ?_
    | with_reducible exact keepsO_get (by assumption)
    | with_reducible refine keepsO_map (fun _ _ => ?_) ?_
    | with_reducible refine keepsO_foldl (fun _ _ _ => ?_) ?_
    | exact keepsO_none
    | with_reducible refine keepsO_some ?_
    | with_reducible refine keepsP_ite ?_ ?_
    | with_reducible refine keepsP_foldl (fun _ _ _ => ?_) ?_
    | split
    | with_reducible refine KeepsP.snd ?_
    | with_reducible refine keepsP_mk ?_
    | with_reducible refine KeepsP.out (by assumption) ?_
    | with_reducible refine KeepsO.out (by assumption) ?_
theorem State.takeWord_keeps {P : List Part} {r : State} (m : Miss) (ch : Nat) (s : State)
    (sub : ∀ p, p ∈ [.media, .reg] → p ∈ P) (h : r.keepsBut P s) : KeepsO r P (State.takeWord m ch s) := by
  unfold State.takeWord
  try dsimp only
  repeat' first
    | with_reducible exact h
    | (with_reducible refine sub _ ?_); decide
    | (with_reducible refine part_sub sub ?_); decide
    | with_reducible apply State.takesBus_keeps
    | with_reducible apply State.useBus_keeps
    | with_reducible assumption
    | with_reducible refine keeps_ite ?_ ?_
    | with_reducible refine keeps_foldl (fun _ _ _ => ?_) ?_
    | with_reducible exact keepsO_get (by assumption)
    | with_reducible refine keepsO_map (fun _ _ => ?_) ?_
    | with_reducible refine keepsO_foldl (fun _ _ _ => ?_) ?_
    | exact keepsO_none
    | with_reducible refine keepsO_some ?_
    | split
    | with_reducible refine KeepsO.out (by assumption) ?_
theorem State.wakeChannel_keeps {P : List Part} {r : State} (ch : Nat) (s : State)
    (sub : ∀ p, p ∈ [.media] → p ∈ P) (h : r.keepsBut P s) : r.keepsBut P (State.wakeChannel ch s) := by
  unfold State.wakeChannel
  try dsimp only
  repeat' first
    | with_reducible exact h
    | (with_reducible refine sub _ ?_); decide
    | (with_reducible refine part_sub sub ?_); decide
    | with_reducible refine State.keeps_upMedia _ ?_ ?_
    | with_reducible assumption
    | with_reducible refine keeps_ite ?_ ?_
    | with_reducible refine keeps_foldl (fun _ _ _ => ?_) ?_
    | split
theorem State.queueRead_keeps {P : List Part} {r : State} (die : Nat) (s : State)
    (sub : ∀ p, p ∈ [.media] → p ∈ P) (h : r.keepsBut P s) : r.keepsBut P (State.queueRead die s) := by
  unfold State.queueRead
  try dsimp only
  repeat' first
    | with_reducible exact h
    | (with_reducible refine sub _ ?_); decide
    | (with_reducible refine part_sub sub ?_); decide
    | with_reducible apply State.wakeChannel_keeps
    | with_reducible refine State.keeps_upMedia _ ?_ ?_
    | with_reducible assumption
    | with_reducible refine keeps_ite ?_ ?_
    | with_reducible refine keeps_foldl (fun _ _ _ => ?_) ?_
    | split
theorem State.serveDie_keeps {P : List Part} {r : State} (id : Nat) (die : Nat) (s : State)
    (sub : ∀ p, p ∈ [.media] → p ∈ P) (h : r.keepsBut P s) : r.keepsBut P (State.serveDie id die s) := by
  unfold State.serveDie
  try dsimp only
  repeat' first
    | with_reducible exact h
    | (with_reducible refine sub _ ?_); decide
    | (with_reducible refine part_sub sub ?_); decide
    | with_reducible apply State.loadChannel_keeps
    | with_reducible refine State.keeps_upMedia _ ?_ ?_
    | with_reducible assumption
    | with_reducible refine keeps_ite ?_ ?_
    | with_reducible refine keeps_foldl (fun _ _ _ => ?_) ?_
    | split
theorem State.serveDies_keeps {P : List Part} {r : State} (id : Nat) (ds : List Nat) (s : State)
    (sub : ∀ p, p ∈ [.media] → p ∈ P) (h : r.keepsBut P s) : r.keepsBut P (State.serveDies id ds s) := by
  unfold State.serveDies
  try dsimp only
  repeat' first
    | with_reducible exact h
    | (with_reducible refine sub _ ?_); decide
    | (with_reducible refine part_sub sub ?_); decide
    | with_reducible apply State.serveDie_keeps
    | with_reducible assumption
    | with_reducible refine keeps_ite ?_ ?_
    | with_reducible refine keeps_foldl (fun _ _ _ => ?_) ?_
    | split
theorem State.setMiss_keeps {P : List Part} {r : State} (m : Miss) (s : State)
    (sub : ∀ p, p ∈ [.slices] → p ∈ P) (h : r.keepsBut P s) : r.keepsBut P (State.setMiss m s) := by
  unfold State.setMiss
  try dsimp only
  repeat' first
    | with_reducible exact h
    | (with_reducible refine sub _ ?_); decide
    | (with_reducible refine part_sub sub ?_); decide
    | with_reducible refine State.keeps_upSlices _ ?_ ?_
    | with_reducible assumption
    | with_reducible refine keeps_ite ?_ ?_
    | with_reducible refine keeps_foldl (fun _ _ _ => ?_) ?_
    | split
theorem State.stopReads_keeps {P : List Part} {r : State} (m : Miss) (s : State)
    (sub : ∀ p, p ∈ [.media, .reg] → p ∈ P) (h : r.keepsBut P s) : r.keepsBut P (State.stopReads m s) := by
  unfold State.stopReads
  try dsimp only
  repeat' first
    | with_reducible exact h
    | (with_reducible refine sub _ ?_); decide
    | (with_reducible refine part_sub sub ?_); decide
    | with_reducible apply State.serveDies_keeps
    | with_reducible refine State.keeps_upReg _ ?_ ?_
    | with_reducible assumption
    | with_reducible refine keeps_ite ?_ ?_
    | with_reducible refine keeps_foldl (fun _ _ _ => ?_) ?_
    | split
theorem State.dropMiss_keeps {P : List Part} {r : State} (m : Miss) (s : State)
    (sub : ∀ p, p ∈ [.slices, .media, .reg] → p ∈ P) (h : r.keepsBut P s) : r.keepsBut P (State.dropMiss m s) := by
  unfold State.dropMiss
  try dsimp only
  repeat' first
    | with_reducible exact h
    | (with_reducible refine sub _ ?_); decide
    | (with_reducible refine part_sub sub ?_); decide
    | with_reducible apply State.stopReads_keeps
    | with_reducible refine State.keeps_upSlices _ ?_ ?_
    | with_reducible assumption
    | with_reducible refine keeps_ite ?_ ?_
    | with_reducible refine keeps_foldl (fun _ _ _ => ?_) ?_
    | split
theorem State.overwritten_keeps {P : List Part} {r : State} (line : Nat) (s : State)
    (sub : ∀ p, p ∈ [.slices] → p ∈ P) (h : r.keepsBut P s) : r.keepsBut P (State.overwritten line s) := by
  unfold State.overwritten
  try dsimp only
  repeat' first
    | with_reducible exact h
    | (with_reducible refine sub _ ?_); decide
    | (with_reducible refine part_sub sub ?_); decide
    | with_reducible refine State.keeps_upSlices _ ?_ ?_
    | with_reducible assumption
    | with_reducible refine keeps_ite ?_ ?_
    | with_reducible refine keeps_foldl (fun _ _ _ => ?_) ?_
    | split
theorem State.overwrittenGrain_keeps {P : List Part} {r : State} (g : Nat) (s : State)
    (sub : ∀ p, p ∈ [.slices] → p ∈ P) (h : r.keepsBut P s) : r.keepsBut P (State.overwrittenGrain g s) := by
  unfold State.overwrittenGrain
  try dsimp only
  repeat' first
    | with_reducible exact h
    | (with_reducible refine sub _ ?_); decide
    | (with_reducible refine part_sub sub ?_); decide
    | with_reducible refine State.keeps_upSlices _ ?_ ?_
    | with_reducible assumption
    | with_reducible refine keeps_ite ?_ ?_
    | with_reducible refine keeps_foldl (fun _ _ _ => ?_) ?_
    | split
theorem State.countDirect_keeps {P : List Part} {r : State} (m : Miss) (s : State)
    (sub : ∀ p, p ∈ [.media, .obs, .perf, .rstats] → p ∈ P) (h : r.keepsBut P s) : r.keepsBut P (State.countDirect m s) := by
  unfold State.countDirect
  try dsimp only
  repeat' first
    | with_reducible exact h
    | (with_reducible refine sub _ ?_); decide
    | (with_reducible refine part_sub sub ?_); decide
    | with_reducible apply State.count_keeps
    | with_reducible apply State.queueRead_keeps
    | with_reducible refine State.keeps_upRstats _ ?_ ?_
    | with_reducible assumption
    | with_reducible refine keeps_ite ?_ ?_
    | with_reducible refine keeps_foldl (fun _ _ _ => ?_) ?_
    | split
theorem State.countPeers_keeps {P : List Part} {r : State} (m : Miss) (s : State)
    (sub : ∀ p, p ∈ [.media, .obs, .perf] → p ∈ P) (h : r.keepsBut P s) : r.keepsBut P (State.countPeers m s) := by
  unfold State.countPeers
  try dsimp only
  repeat' first
    | with_reducible exact h
    | (with_reducible refine sub _ ?_); decide
    | (with_reducible refine part_sub sub ?_); decide
    | with_reducible apply State.count_keeps
    | with_reducible apply State.queueRead_keeps
    | with_reducible assumption
    | with_reducible refine keeps_ite ?_ ?_
    | with_reducible refine keeps_foldl (fun _ _ _ => ?_) ?_
    | split
theorem State.busyRecon_keeps {P : List Part} {r : State} (m : Miss) (s : State)
    (sub : ∀ p, p ∈ [.media, .obs, .perf, .rstats] → p ∈ P) (h : r.keepsBut P s) : r.keepsBut P (State.busyRecon m s) := by
  unfold State.busyRecon
  try dsimp only
  repeat' first
    | with_reducible exact h
    | (with_reducible refine sub _ ?_); decide
    | (with_reducible refine part_sub sub ?_); decide
    | with_reducible apply State.countPeers_keeps
    | with_reducible refine State.keeps_upRstats _ ?_ ?_
    | with_reducible assumption
    | with_reducible refine keeps_ite ?_ ?_
    | with_reducible refine keeps_foldl (fun _ _ _ => ?_) ?_
    | split
theorem State.issueRead_keeps {P : List Part} {r : State} (m0 : Miss) (s : State)
    (sub : ∀ p, p ∈ [.media, .obs, .perf, .rstats] → p ∈ P) (h : r.keepsBut P s) : KeepsP r P (State.issueRead m0 s) := by
  unfold State.issueRead
  try dsimp only
  repeat' first
    | with_reducible exact h
    | (with_reducible refine sub _ ?_); decide
    | (with_reducible refine part_sub sub ?_); decide
    | with_reducible apply State.busyRecon_keeps
    | with_reducible apply State.countDirect_keeps
    | with_reducible apply State.queueRead_keeps
    | with_reducible assumption
    | with_reducible refine keeps_ite ?_ ?_
    | with_reducible refine keeps_foldl (fun _ _ _ => ?_) ?_
    | with_reducible refine keepsP_ite ?_ ?_
    | with_reducible refine keepsP_foldl (fun _ _ _ => ?_) ?_
    | split
    | with_reducible refine KeepsP.snd ?_
    | with_reducible refine keepsP_mk ?_
    | with_reducible refine KeepsP.out (by assumption) ?_
theorem State.mapTouch_keeps {P : List Part} {r : State} (line : Nat) (s : State)
    (sub : ∀ p, p ∈ [.slices] → p ∈ P) (h : r.keepsBut P s) : r.keepsBut P (State.mapTouch line s) := by
  unfold State.mapTouch
  try dsimp only
  repeat' first
    | with_reducible exact h
    | (with_reducible refine sub _ ?_); decide
    | (with_reducible refine part_sub sub ?_); decide
    | with_reducible refine State.keeps_upSlices _ ?_ ?_
    | with_reducible assumption
    | with_reducible refine keeps_ite ?_ ?_
    | with_reducible refine keeps_foldl (fun _ _ _ => ?_) ?_
    | split
theorem State.sendWord_keeps {P : List Part} {r : State} (m : Miss) (s : State)
    (sub : ∀ p, p ∈ [.slices, .media, .obs, .perf, .rstats] → p ∈ P) (h : r.keepsBut P s) : r.keepsBut P (State.sendWord m s) := by
  unfold State.sendWord
  try dsimp only
  repeat' first
    | with_reducible exact h
    | (with_reducible refine sub _ ?_); decide
    | (with_reducible refine part_sub sub ?_); decide
    | with_reducible apply State.count_keeps
    | with_reducible apply State.issueRead_keeps
    | with_reducible apply State.setMiss_keeps
    | with_reducible assumption
    | with_reducible refine keeps_ite ?_ ?_
    | with_reducible refine keeps_foldl (fun _ _ _ => ?_) ?_
    | with_reducible refine keepsP_ite ?_ ?_
    | with_reducible refine keepsP_foldl (fun _ _ _ => ?_) ?_
    | split
    | with_reducible refine KeepsP.snd ?_
    | with_reducible refine keepsP_mk ?_
    | with_reducible refine KeepsP.out (by assumption) ?_
theorem State.addMiss_keeps {P : List Part} {r : State} (m : Miss) (s : State)
    (sub : ∀ p, p ∈ [.slices] → p ∈ P) (h : r.keepsBut P s) : r.keepsBut P (State.addMiss m s) := by
  unfold State.addMiss
  try dsimp only
  repeat' first
    | with_reducible exact h
    | (with_reducible refine sub _ ?_); decide
    | (with_reducible refine part_sub sub ?_); decide
    | with_reducible refine State.keeps_upSlices _ ?_ ?_
    | with_reducible assumption
    | with_reducible refine keeps_ite ?_ ?_
    | with_reducible refine keeps_foldl (fun _ _ _ => ?_) ?_
    | split
theorem State.addPart_keeps {P : List Part} {r : State} (m : Miss) (w : Nat × Nat) (s : State)
    (sub : ∀ p, p ∈ [.slices, .media, .obs, .perf, .rstats] → p ∈ P) (h : r.keepsBut P s) : r.keepsBut P (State.addPart m w s) := by
  unfold State.addPart
  try dsimp only
  repeat' first
    | with_reducible exact h
    | (with_reducible refine sub _ ?_); decide
    | (with_reducible refine part_sub sub ?_); decide
    | with_reducible apply State.addMiss_keeps
    | with_reducible apply State.sendWord_keeps
    | with_reducible assumption
    | with_reducible refine keeps_ite ?_ ?_
    | with_reducible refine keeps_foldl (fun _ _ _ => ?_) ?_
    | split
theorem State.lookUp_keeps {P : List Part} {r : State} (m : Miss) (s0 : State)
    (sub : ∀ p, p ∈ [.slices, .media, .obs, .perf, .rstats] → p ∈ P) (h : r.keepsBut P s0) : r.keepsBut P (State.lookUp m s0) := by
  unfold State.lookUp
  try dsimp only
  repeat' first
    | with_reducible exact h
    | (with_reducible refine sub _ ?_); decide
    | (with_reducible refine part_sub sub ?_); decide
    | with_reducible apply State.addPart_keeps
    | with_reducible apply State.mapTouch_keeps
    | with_reducible apply State.sendWord_keeps
    | with_reducible assumption
    | with_reducible refine keeps_ite ?_ ?_
    | with_reducible refine keeps_foldl (fun _ _ _ => ?_) ?_
    | split
theorem State.startFetch_keeps {P : List Part} {r : State} (line : Nat) (kind : MissKind) (cls : Nat) (policy : Nat) (pastShare : Bool) (s : State)
    (sub : ∀ p, p ∈ [.slices, .media, .obs, .perf, .rstats] → p ∈ P) (h : r.keepsBut P s) : r.keepsBut P (State.startFetch line kind cls policy pastShare s) := by
  unfold State.startFetch
  try dsimp only
  repeat' first
    | with_reducible exact h
    | (with_reducible refine sub _ ?_); decide
    | (with_reducible refine part_sub sub ?_); decide
    | with_reducible apply State.addMiss_keeps
    | with_reducible apply State.lookUp_keeps
    | with_reducible assumption
    | with_reducible refine keeps_ite ?_ ?_
    | with_reducible refine keeps_foldl (fun _ _ _ => ?_) ?_
    | split

end Sys2Proof.Machine
end

