-- ==== Sys2Proof/Laws/KeepsCache.lean ====
section
/-!
SUPPORT. What each operation of Machine/Cache.lean leaves unchanged: the groups of the state it may write, the others kept.
-/
namespace Sys2Proof.Machine

theorem State.fcTouch_keeps {P : List Part} {r : State} (line : Nat) (s : State)
    (sub : ∀ p, p ∈ [.fc] → p ∈ P) (h : r.keepsBut P s) : r.keepsBut P (State.fcTouch line s) := by
  unfold State.fcTouch
  try dsimp only
  repeat' first
    | with_reducible exact h
    | (with_reducible refine sub _ ?_); decide
    | (with_reducible refine part_sub sub ?_); decide
    | with_reducible refine State.keeps_upFc _ ?_ ?_
    | with_reducible assumption
    | with_reducible refine keeps_ite ?_ ?_
    | with_reducible refine keeps_foldl (fun _ _ _ => ?_) ?_
    | split
theorem State.fcDrop_keeps {P : List Part} {r : State} (line : Nat) (s : State)
    (sub : ∀ p, p ∈ [.fc] → p ∈ P) (h : r.keepsBut P s) : r.keepsBut P (State.fcDrop line s) := by
  unfold State.fcDrop
  try dsimp only
  repeat' first
    | with_reducible exact h
    | (with_reducible refine sub _ ?_); decide
    | (with_reducible refine part_sub sub ?_); decide
    | with_reducible refine State.keeps_upFc _ ?_ ?_
    | with_reducible assumption
    | with_reducible refine keeps_ite ?_ ?_
    | with_reducible refine keeps_foldl (fun _ _ _ => ?_) ?_
    | split
theorem State.fcPut_keeps {P : List Part} {r : State} (line : Nat) (x : FcLine) (s : State)
    (sub : ∀ p, p ∈ [.fc] → p ∈ P) (h : r.keepsBut P s) : r.keepsBut P (State.fcPut line x s) := by
  unfold State.fcPut
  try dsimp only
  repeat' first
    | with_reducible exact h
    | (with_reducible refine sub _ ?_); decide
    | (with_reducible refine part_sub sub ?_); decide
    | with_reducible refine State.keeps_upFc _ ?_ ?_
    | with_reducible assumption
    | with_reducible refine keeps_ite ?_ ?_
    | with_reducible refine keeps_foldl (fun _ _ _ => ?_) ?_
    | split
theorem State.tierTouch_keeps {P : List Part} {r : State} (sec : Nat) (s : State)
    (sub : ∀ p, p ∈ [.tier] → p ∈ P) (h : r.keepsBut P s) : r.keepsBut P (State.tierTouch sec s) := by
  unfold State.tierTouch
  try dsimp only
  repeat' first
    | with_reducible exact h
    | (with_reducible refine sub _ ?_); decide
    | (with_reducible refine part_sub sub ?_); decide
    | with_reducible refine State.keeps_upTier _ ?_ ?_
    | with_reducible assumption
    | with_reducible refine keeps_ite ?_ ?_
    | with_reducible refine keeps_foldl (fun _ _ _ => ?_) ?_
    | split
theorem State.putSector_keeps {P : List Part} {r : State} (sec : Nat) (x : Sector) (s : State)
    (sub : ∀ p, p ∈ [.tier] → p ∈ P) (h : r.keepsBut P s) : r.keepsBut P (State.putSector sec x s) := by
  unfold State.putSector
  try dsimp only
  repeat' first
    | with_reducible exact h
    | (with_reducible refine sub _ ?_); decide
    | (with_reducible refine part_sub sub ?_); decide
    | with_reducible refine State.keeps_upTier _ ?_ ?_
    | with_reducible assumption
    | with_reducible refine keeps_ite ?_ ?_
    | with_reducible refine keeps_foldl (fun _ _ _ => ?_) ?_
    | split
theorem State.dropSector_keeps {P : List Part} {r : State} (sec : Nat) (s : State)
    (sub : ∀ p, p ∈ [.tier] → p ∈ P) (h : r.keepsBut P s) : r.keepsBut P (State.dropSector sec s) := by
  unfold State.dropSector
  try dsimp only
  repeat' first
    | with_reducible exact h
    | (with_reducible refine sub _ ?_); decide
    | (with_reducible refine part_sub sub ?_); decide
    | with_reducible refine State.keeps_upTier _ ?_ ?_
    | with_reducible assumption
    | with_reducible refine keeps_ite ?_ ?_
    | with_reducible refine keeps_foldl (fun _ _ _ => ?_) ?_
    | split
theorem State.tierAlloc_keeps {P : List Part} {r : State} (sec : Nat) (x : Sector) (s : State)
    (sub : ∀ p, p ∈ [.tier] → p ∈ P) (h : r.keepsBut P s) : KeepsO r P (State.tierAlloc sec x s) := by
  unfold State.tierAlloc
  try dsimp only
  repeat' first
    | with_reducible exact h
    | (with_reducible refine sub _ ?_); decide
    | (with_reducible refine part_sub sub ?_); decide
    | with_reducible apply State.dropSector_keeps
    | with_reducible apply State.putSector_keeps
    | with_reducible apply State.tierTouch_keeps
    | with_reducible assumption
    | with_reducible refine keeps_ite ?_ ?_
    | with_reducible refine keeps_foldl (fun _ _ _ => ?_) ?_
    | with_reducible exact keepsO_get (by assumption)
    | with_reducible refine keepsO_map (fun _ _ => ?_) ?_
    | with_reducible refine keepsO_foldl (fun _ _ _ => ?_) ?_
    | exact keepsO_none
    | with_reducible refine keepsO_some ?_
    | split
    | with_reducible refine KeepsO.out (by assumption) ?_
theorem State.queueWb_keeps {P : List Part} {r : State} (g : Nat) (prio : Nat) (s : State)
    (sub : ∀ p, p ∈ [.budget] → p ∈ P) (h : r.keepsBut P s) : r.keepsBut P (State.queueWb g prio s) := by
  unfold State.queueWb
  try dsimp only
  repeat' first
    | with_reducible exact h
    | (with_reducible refine sub _ ?_); decide
    | (with_reducible refine part_sub sub ?_); decide
    | with_reducible refine State.keeps_upBudget _ ?_ ?_
    | with_reducible assumption
    | with_reducible refine keeps_ite ?_ ?_
    | with_reducible refine keeps_foldl (fun _ _ _ => ?_) ?_
    | split
theorem State.pressSet_keeps {P : List Part} {r : State} (sec : Nat) (s : State)
    (sub : ∀ p, p ∈ [.budget] → p ∈ P) (h : r.keepsBut P s) : r.keepsBut P (State.pressSet sec s) := by
  unfold State.pressSet
  try dsimp only
  repeat' first
    | with_reducible exact h
    | (with_reducible refine sub _ ?_); decide
    | (with_reducible refine part_sub sub ?_); decide
    | with_reducible apply State.queueWb_keeps
    | with_reducible assumption
    | with_reducible refine keeps_ite ?_ ?_
    | with_reducible refine keeps_foldl (fun _ _ _ => ?_) ?_
    | split
theorem State.countMerge_keeps {P : List Part} {r : State} (lost : Bool) (s : State)
    (sub : ∀ p, p ∈ [.budget] → p ∈ P) (h : r.keepsBut P s) : r.keepsBut P (State.countMerge lost s) := by
  unfold State.countMerge
  try dsimp only
  repeat' first
    | with_reducible exact h
    | (with_reducible refine sub _ ?_); decide
    | (with_reducible refine part_sub sub ?_); decide
    | with_reducible refine State.keeps_upBudget _ ?_ ?_
    | with_reducible assumption
    | with_reducible refine keeps_ite ?_ ?_
    | with_reducible refine keeps_foldl (fun _ _ _ => ?_) ?_
    | split
theorem State.wakeLine_keeps {P : List Part} {r : State} (line : Nat) (s : State)
    (sub : ∀ p, p ∈ [.reqs] → p ∈ P) (h : r.keepsBut P s) : r.keepsBut P (State.wakeLine line s) := by
  unfold State.wakeLine
  try dsimp only
  repeat' first
    | with_reducible exact h
    | (with_reducible refine sub _ ?_); decide
    | (with_reducible refine part_sub sub ?_); decide
    | with_reducible refine State.keeps_upReqs _ ?_ ?_
    | with_reducible assumption
    | with_reducible refine keeps_ite ?_ ?_
    | with_reducible refine keeps_foldl (fun _ _ _ => ?_) ?_
    | split
theorem State.wakeSector_keeps {P : List Part} {r : State} (sec : Nat) (s : State)
    (sub : ∀ p, p ∈ [.reqs] → p ∈ P) (h : r.keepsBut P s) : r.keepsBut P (State.wakeSector sec s) := by
  unfold State.wakeSector
  try dsimp only
  repeat' first
    | with_reducible exact h
    | (with_reducible refine sub _ ?_); decide
    | (with_reducible refine part_sub sub ?_); decide
    | with_reducible refine State.keeps_upReqs _ ?_ ?_
    | with_reducible assumption
    | with_reducible refine keeps_ite ?_ ?_
    | with_reducible refine keeps_foldl (fun _ _ _ => ?_) ?_
    | split
theorem State.fillSector_keeps {P : List Part} {r : State} (sec : Nat) (s : State)
    (sub : ∀ p, p ∈ [.reqs, .tier, .budget] → p ∈ P) (h : r.keepsBut P s) : r.keepsBut P (State.fillSector sec s) := by
  unfold State.fillSector
  try dsimp only
  repeat' first
    | with_reducible exact h
    | (with_reducible refine sub _ ?_); decide
    | (with_reducible refine part_sub sub ?_); decide
    | with_reducible apply State.countMerge_keeps
    | with_reducible apply State.putSector_keeps
    | with_reducible apply State.wakeSector_keeps
    | with_reducible assumption
    | with_reducible refine keeps_ite ?_ ?_
    | with_reducible refine keeps_foldl (fun _ _ _ => ?_) ?_
    | split
theorem State.issueFill_keeps {P : List Part} {r : State} (sec : Nat) (s : State)
    (sub : ∀ p, p ∈ [.reqs, .tier, .slices, .budget, .media, .reg, .obs, .perf, .rstats] → p ∈ P) (h : r.keepsBut P s) : r.keepsBut P (State.issueFill sec s) := by
  unfold State.issueFill
  try dsimp only
  repeat' first
    | with_reducible exact h
    | (with_reducible refine sub _ ?_); decide
    | (with_reducible refine part_sub sub ?_); decide
    | with_reducible apply State.dropMiss_keeps
    | with_reducible apply State.fillSector_keeps
    | with_reducible apply State.startFetch_keeps
    | with_reducible assumption
    | with_reducible refine keeps_ite ?_ ?_
    | with_reducible refine keeps_foldl (fun _ _ _ => ?_) ?_
    | split
theorem State.startBase_keeps {P : List Part} {r : State} (line : Nat) (s : State)
    (sub : ∀ p, p ∈ [.slices, .media, .obs, .perf, .rstats] → p ∈ P) (h : r.keepsBut P s) : r.keepsBut P (State.startBase line s) := by
  unfold State.startBase
  try dsimp only
  repeat' first
    | with_reducible exact h
    | (with_reducible refine sub _ ?_); decide
    | (with_reducible refine part_sub sub ?_); decide
    | with_reducible apply State.startFetch_keeps
    | with_reducible assumption
    | with_reducible refine keeps_ite ?_ ?_
    | with_reducible refine keeps_foldl (fun _ _ _ => ?_) ?_
    | split
theorem State.dramWrote_keeps {P : List Part} {r : State} (sec : Nat) (n : Nat) (s : State)
    (sub : ∀ p, p ∈ [.obs, .perf] → p ∈ P) (h : r.keepsBut P s) : r.keepsBut P (State.dramWrote sec n s) := by
  unfold State.dramWrote
  try dsimp only
  repeat' first
    | with_reducible exact h
    | (with_reducible refine sub _ ?_); decide
    | (with_reducible refine part_sub sub ?_); decide
    | with_reducible apply State.count_keeps
    | with_reducible assumption
    | with_reducible refine keeps_ite ?_ ?_
    | with_reducible refine keeps_foldl (fun _ _ _ => ?_) ?_
    | split
theorem State.tierWrite_keeps {P : List Part} {r : State} (line : Nat) (d : Line) (st : TSt) (m : Mask) (s : State)
    (sub : ∀ p, p ∈ [.reqs, .tier, .slices, .budget, .media, .reg, .obs, .perf, .rstats] → p ∈ P) (h : r.keepsBut P s) : KeepsO r P (State.tierWrite line d st m s) := by
  unfold State.tierWrite
  try dsimp only
  repeat' first
    | with_reducible exact h
    | (with_reducible refine sub _ ?_); decide
    | (with_reducible refine part_sub sub ?_); decide
    | with_reducible apply State.dramWrote_keeps
    | with_reducible apply State.issueFill_keeps
    | with_reducible apply State.putSector_keeps
    | with_reducible apply State.tierAlloc_keeps
    | with_reducible apply State.tierTouch_keeps
    | with_reducible assumption
    | with_reducible refine keeps_ite ?_ ?_
    | with_reducible refine keeps_foldl (fun _ _ _ => ?_) ?_
    | with_reducible exact keepsO_get (by assumption)
    | with_reducible refine keepsO_map (fun _ _ => ?_) ?_
    | with_reducible refine keepsO_foldl (fun _ _ _ => ?_) ?_
    | exact keepsO_none
    | with_reducible refine keepsO_some ?_
    | split
    | with_reducible refine KeepsO.out (by assumption) ?_
theorem State.moveToTier_keeps {P : List Part} {r : State} (line : Nat) (x : FcLine) (s : State)
    (sub : ∀ p, p ∈ [.reqs, .fc, .tier, .slices, .budget, .media, .reg, .obs, .perf, .rstats] → p ∈ P) (h : r.keepsBut P s) : KeepsO r P (State.moveToTier line x s) := by
  unfold State.moveToTier
  try dsimp only
  repeat' first
    | with_reducible exact h
    | (with_reducible refine sub _ ?_); decide
    | (with_reducible refine part_sub sub ?_); decide
    | with_reducible apply State.countMerge_keeps
    | with_reducible apply State.fcDrop_keeps
    | with_reducible apply State.tierWrite_keeps
    | with_reducible apply State.wakeLine_keeps
    | with_reducible assumption
    | with_reducible refine keeps_ite ?_ ?_
    | with_reducible refine keeps_foldl (fun _ _ _ => ?_) ?_
    | with_reducible exact keepsO_get (by assumption)
    | with_reducible refine keepsO_map (fun _ _ => ?_) ?_
    | with_reducible refine keepsO_foldl (fun _ _ _ => ?_) ?_
    | exact keepsO_none
    | with_reducible refine keepsO_some ?_
    | split
    | with_reducible refine KeepsO.out (by assumption) ?_
theorem State.fcTry_keeps {P : List Part} {r : State} (x0 : Nat) (x1 : FcSt) (x2 : Line) (x3 : Mask) (x4 : Nat) (x5 : State)
    (sub : ∀ p, p ∈ [.reqs, .fc, .tier, .slices, .budget, .media, .reg, .obs, .perf, .rstats] → p ∈ P) (h : r.keepsBut P x5) : KeepsP r P (State.fcTry x0 x1 x2 x3 x4 x5) := by
  induction x4 generalizing x5 with
  | zero => unfold State.fcTry; first | exact h | exact keepsP_mk h
  | succ n ih =>
    unfold State.fcTry
    try dsimp only
    repeat' first
      | with_reducible exact h
      | (with_reducible refine sub _ ?_); decide
      | (with_reducible refine part_sub sub ?_); decide
      | with_reducible apply State.fcPut_keeps
      | with_reducible apply State.fcTouch_keeps
      | with_reducible apply State.moveToTier_keeps
      | with_reducible apply State.pressSet_keeps
      | with_reducible refine ih _ ?_
      | with_reducible assumption
      | with_reducible refine keeps_ite ?_ ?_
      | with_reducible refine keeps_foldl (fun _ _ _ => ?_) ?_
      | with_reducible exact keepsO_get (by assumption)
      | with_reducible refine keepsO_map (fun _ _ => ?_) ?_
      | with_reducible refine keepsO_foldl (fun _ _ _ => ?_) ?_
      | exact keepsO_none
      | with_reducible refine keepsO_some ?_
      | with_reducible refine keepsP_ite ?_ ?_
      | with_reducible refine keepsP_foldl (fun _ _ _ => ?_) ?_
      | split
      | with_reducible refine KeepsP.snd ?_
      | with_reducible refine keepsP_mk ?_
      | with_reducible refine KeepsP.out (by assumption) ?_
      | with_reducible refine KeepsO.out (by assumption) ?_
theorem State.fcAlloc_keeps {P : List Part} {r : State} (line : Nat) (st : FcSt) (d : Line) (m : Mask) (s : State)
    (sub : ∀ p, p ∈ [.reqs, .fc, .tier, .slices, .budget, .media, .reg, .obs, .perf, .rstats] → p ∈ P) (h : r.keepsBut P s) : KeepsP r P (State.fcAlloc line st d m s) := by
  unfold State.fcAlloc
  try dsimp only
  repeat' first
    | with_reducible exact h
    | (with_reducible refine sub _ ?_); decide
    | (with_reducible refine part_sub sub ?_); decide
    | with_reducible apply State.fcTry_keeps
    | with_reducible assumption
    | with_reducible refine keeps_ite ?_ ?_
    | with_reducible refine keeps_foldl (fun _ _ _ => ?_) ?_
    | with_reducible refine keepsP_ite ?_ ?_
    | with_reducible refine keepsP_foldl (fun _ _ _ => ?_) ?_
    | split
    | with_reducible refine KeepsP.snd ?_
    | with_reducible refine keepsP_mk ?_
    | with_reducible refine KeepsP.out (by assumption) ?_
theorem State.fcUpdate_keeps {P : List Part} {r : State} (line : Nat) (d : Line) (s : State)
    (sub : ∀ p, p ∈ [.fc] → p ∈ P) (h : r.keepsBut P s) : r.keepsBut P (State.fcUpdate line d s) := by
  unfold State.fcUpdate
  try dsimp only
  repeat' first
    | with_reducible exact h
    | (with_reducible refine sub _ ?_); decide
    | (with_reducible refine part_sub sub ?_); decide
    | with_reducible apply State.fcPut_keeps
    | with_reducible assumption
    | with_reducible refine keeps_ite ?_ ?_
    | with_reducible refine keeps_foldl (fun _ _ _ => ?_) ?_
    | split
theorem State.staleCopy_keeps {P : List Part} {r : State} (line : Nat) (s : State)
    (sub : ∀ p, p ∈ [.tier] → p ∈ P) (h : r.keepsBut P s) : r.keepsBut P (State.staleCopy line s) := by
  unfold State.staleCopy
  try dsimp only
  repeat' first
    | with_reducible exact h
    | (with_reducible refine sub _ ?_); decide
    | (with_reducible refine part_sub sub ?_); decide
    | with_reducible apply State.putSector_keeps
    | with_reducible assumption
    | with_reducible refine keeps_ite ?_ ?_
    | with_reducible refine keeps_foldl (fun _ _ _ => ?_) ?_
    | split
theorem State.cancelMerge_keeps {P : List Part} {r : State} (line : Nat) (d : Line) (s : State)
    (sub : ∀ p, p ∈ [.tier] → p ∈ P) (h : r.keepsBut P s) : r.keepsBut P (State.cancelMerge line d s) := by
  unfold State.cancelMerge
  try dsimp only
  repeat' first
    | with_reducible exact h
    | (with_reducible refine sub _ ?_); decide
    | (with_reducible refine part_sub sub ?_); decide
    | with_reducible apply State.putSector_keeps
    | with_reducible assumption
    | with_reducible refine keeps_ite ?_ ?_
    | with_reducible refine keeps_foldl (fun _ _ _ => ?_) ?_
    | split
theorem State.pullMerge_keeps {P : List Part} {r : State} (line : Nat) (s : State)
    (sub : ∀ p, p ∈ [.fc, .tier] → p ∈ P) (h : r.keepsBut P s) : r.keepsBut P (State.pullMerge line s) := by
  unfold State.pullMerge
  try dsimp only
  repeat' first
    | with_reducible exact h
    | (with_reducible refine sub _ ?_); decide
    | (with_reducible refine part_sub sub ?_); decide
    | with_reducible apply State.fcPut_keeps
    | with_reducible apply State.putSector_keeps
    | with_reducible assumption
    | with_reducible refine keeps_ite ?_ ?_
    | with_reducible refine keeps_foldl (fun _ _ _ => ?_) ?_
    | split
theorem State.writeThrough_keeps {P : List Part} {r : State} (line : Nat) (d : Line) (p : Nat) (s : State)
    (sub : ∀ p, p ∈ [.reqs, .fc, .tier, .slices, .budget, .media, .reg, .obs, .perf, .rstats] → p ∈ P) (h : r.keepsBut P s) : KeepsO r P (State.writeThrough line d p s) := by
  unfold State.writeThrough
  try dsimp only
  repeat' first
    | with_reducible exact h
    | (with_reducible refine sub _ ?_); decide
    | (with_reducible refine part_sub sub ?_); decide
    | with_reducible apply State.fcAlloc_keeps
    | with_reducible apply State.fcPut_keeps
    | with_reducible apply State.tierWrite_keeps
    | with_reducible assumption
    | with_reducible refine keeps_ite ?_ ?_
    | with_reducible refine keeps_foldl (fun _ _ _ => ?_) ?_
    | with_reducible exact keepsO_get (by assumption)
    | with_reducible refine keepsO_map (fun _ _ => ?_) ?_
    | with_reducible refine keepsO_foldl (fun _ _ _ => ?_) ?_
    | exact keepsO_none
    | with_reducible refine keepsO_some ?_
    | with_reducible refine keepsP_ite ?_ ?_
    | with_reducible refine keepsP_foldl (fun _ _ _ => ?_) ?_
    | split
    | with_reducible refine KeepsP.snd ?_
    | with_reducible refine keepsP_mk ?_
    | with_reducible refine KeepsP.out (by assumption) ?_
    | with_reducible refine KeepsO.out (by assumption) ?_
theorem State.partialThrough_keeps {P : List Part} {r : State} (line : Nat) (d : Line) (m : Mask) (p : Nat) (s : State)
    (sub : ∀ p, p ∈ [.reqs, .fc, .tier, .slices, .budget, .media, .reg, .obs, .perf, .rstats] → p ∈ P) (h : r.keepsBut P s) : KeepsO r P (State.partialThrough line d m p s) := by
  unfold State.partialThrough
  try dsimp only
  repeat' first
    | with_reducible exact h
    | (with_reducible refine sub _ ?_); decide
    | (with_reducible refine part_sub sub ?_); decide
    | with_reducible apply State.fcPut_keeps
    | with_reducible apply State.tierWrite_keeps
    | with_reducible apply State.writeThrough_keeps
    | with_reducible assumption
    | with_reducible refine keeps_ite ?_ ?_
    | with_reducible refine keeps_foldl (fun _ _ _ => ?_) ?_
    | with_reducible exact keepsO_get (by assumption)
    | with_reducible refine keepsO_map (fun _ _ => ?_) ?_
    | with_reducible refine keepsO_foldl (fun _ _ _ => ?_) ?_
    | exact keepsO_none
    | with_reducible refine keepsO_some ?_
    | split
    | with_reducible refine KeepsO.out (by assumption) ?_
theorem State.writeFull_keeps {P : List Part} {r : State} (line : Nat) (d : Line) (policy : Nat) (s : State)
    (sub : ∀ p, p ∈ [.reqs, .fc, .tier, .slices, .budget, .media, .reg, .obs, .perf, .rstats] → p ∈ P) (h : r.keepsBut P s) : KeepsO r P (State.writeFull line d policy s) := by
  unfold State.writeFull
  try dsimp only
  repeat' first
    | with_reducible exact h
    | (with_reducible refine sub _ ?_); decide
    | (with_reducible refine part_sub sub ?_); decide
    | with_reducible apply State.cancelMerge_keeps
    | with_reducible apply State.fcAlloc_keeps
    | with_reducible apply State.fcPut_keeps
    | with_reducible apply State.fcTouch_keeps
    | with_reducible apply State.staleCopy_keeps
    | with_reducible apply State.writeThrough_keeps
    | with_reducible assumption
    | with_reducible refine keeps_ite ?_ ?_
    | with_reducible refine keeps_foldl (fun _ _ _ => ?_) ?_
    | with_reducible exact keepsO_get (by assumption)
    | with_reducible refine keepsO_map (fun _ _ => ?_) ?_
    | with_reducible refine keepsO_foldl (fun _ _ _ => ?_) ?_
    | exact keepsO_none
    | with_reducible refine keepsO_some ?_
    | with_reducible refine keepsP_ite ?_ ?_
    | with_reducible refine keepsP_foldl (fun _ _ _ => ?_) ?_
    | split
    | with_reducible refine KeepsP.snd ?_
    | with_reducible refine keepsP_mk ?_
    | with_reducible refine KeepsP.out (by assumption) ?_
    | with_reducible refine KeepsO.out (by assumption) ?_
theorem State.writePartial_keeps {P : List Part} {r : State} (line : Nat) (d : Line) (m : Mask) (policy : Nat) (s : State)
    (sub : ∀ p, p ∈ [.reqs, .fc, .tier, .slices, .budget, .media, .reg, .obs, .perf, .rstats] → p ∈ P) (h : r.keepsBut P s) : KeepsO r P (State.writePartial line d m policy s) := by
  unfold State.writePartial
  try dsimp only
  repeat' first
    | with_reducible exact h
    | (with_reducible refine sub _ ?_); decide
    | (with_reducible refine part_sub sub ?_); decide
    | with_reducible apply State.fcAlloc_keeps
    | with_reducible apply State.fcPut_keeps
    | with_reducible apply State.fcTouch_keeps
    | with_reducible apply State.partialThrough_keeps
    | with_reducible apply State.pullMerge_keeps
    | with_reducible apply State.staleCopy_keeps
    | with_reducible apply State.startBase_keeps
    | with_reducible assumption
    | with_reducible refine keeps_ite ?_ ?_
    | with_reducible refine keeps_foldl (fun _ _ _ => ?_) ?_
    | with_reducible exact keepsO_get (by assumption)
    | with_reducible refine keepsO_map (fun _ _ => ?_) ?_
    | with_reducible refine keepsO_foldl (fun _ _ _ => ?_) ?_
    | exact keepsO_none
    | with_reducible refine keepsO_some ?_
    | with_reducible refine keepsP_ite ?_ ?_
    | with_reducible refine keepsP_foldl (fun _ _ _ => ?_) ?_
    | split
    | with_reducible refine KeepsP.snd ?_
    | with_reducible refine keepsP_mk ?_
    | with_reducible refine KeepsP.out (by assumption) ?_
    | with_reducible refine KeepsO.out (by assumption) ?_
theorem State.applyWrite_keeps {P : List Part} {r : State} (line : Nat) (d : Line) (m : Mask) (poison : Bool) (policy : Nat) (s : State)
    (sub : ∀ p, p ∈ [.pwr, .reqs, .fc, .tier, .slices, .budget, .media, .map, .atom, .reg, .obs, .perf, .rstats, .cmds] → p ∈ P) (h : r.keepsBut P s) : KeepsO r P (State.applyWrite line d m poison policy s) := by
  unfold State.applyWrite
  try dsimp only
  repeat' first
    | with_reducible exact h
    | (with_reducible refine sub _ ?_); decide
    | (with_reducible refine part_sub sub ?_); decide
    | with_reducible apply State.intervene_keeps
    | with_reducible apply State.markSole_keeps
    | with_reducible apply State.overwritten_keeps
    | with_reducible apply State.poison_keeps
    | with_reducible apply State.unpoison_keeps
    | with_reducible apply State.wakeLine_keeps
    | with_reducible apply State.writeFull_keeps
    | with_reducible apply State.writePartial_keeps
    | with_reducible assumption
    | with_reducible refine keeps_ite ?_ ?_
    | with_reducible refine keeps_foldl (fun _ _ _ => ?_) ?_
    | with_reducible exact keepsO_get (by assumption)
    | with_reducible refine keepsO_map (fun _ _ => ?_) ?_
    | with_reducible refine keepsO_foldl (fun _ _ _ => ?_) ?_
    | exact keepsO_none
    | with_reducible refine keepsO_some ?_
    | split
    | with_reducible refine KeepsO.out (by assumption) ?_
theorem State.chargeFor_keeps {P : List Part} {r : State} (line : Nat) (s : State)
    (sub : ∀ p, p ∈ [.pwr, .budget, .cmds] → p ∈ P) (h : r.keepsBut P s) : r.keepsBut P (State.chargeFor line s) := by
  unfold State.chargeFor
  try dsimp only
  repeat' first
    | with_reducible exact h
    | (with_reducible refine sub _ ?_); decide
    | (with_reducible refine part_sub sub ?_); decide
    | with_reducible apply State.charge_keeps
    | with_reducible assumption
    | with_reducible refine keeps_ite ?_ ?_
    | with_reducible refine keeps_foldl (fun _ _ _ => ?_) ?_
    | split
theorem State.fcFill_keeps {P : List Part} {r : State} (line : Nat) (d : Line) (policy : Nat) (s : State)
    (sub : ∀ p, p ∈ [.reqs, .fc, .tier, .slices, .budget, .media, .reg, .obs, .perf, .rstats] → p ∈ P) (h : r.keepsBut P s) : r.keepsBut P (State.fcFill line d policy s) := by
  unfold State.fcFill
  try dsimp only
  repeat' first
    | with_reducible exact h
    | (with_reducible refine sub _ ?_); decide
    | (with_reducible refine part_sub sub ?_); decide
    | with_reducible apply State.fcAlloc_keeps
    | with_reducible assumption
    | with_reducible refine keeps_ite ?_ ?_
    | with_reducible refine keeps_foldl (fun _ _ _ => ?_) ?_
    | with_reducible refine keepsP_ite ?_ ?_
    | with_reducible refine keepsP_foldl (fun _ _ _ => ?_) ?_
    | split
    | with_reducible refine KeepsP.snd ?_
    | with_reducible refine keepsP_mk ?_
    | with_reducible refine KeepsP.out (by assumption) ?_
theorem State.tierFill_keeps {P : List Part} {r : State} (sec : Nat) (pf : Bool) (s : State)
    (sub : ∀ p, p ∈ [.reqs, .tier, .budget, .obs, .perf] → p ∈ P) (h : r.keepsBut P s) : r.keepsBut P (State.tierFill sec pf s) := by
  unfold State.tierFill
  try dsimp only
  repeat' first
    | with_reducible exact h
    | (with_reducible refine sub _ ?_); decide
    | (with_reducible refine part_sub sub ?_); decide
    | with_reducible apply State.dramWrote_keeps
    | with_reducible apply State.fillSector_keeps
    | with_reducible apply State.tierAlloc_keeps
    | with_reducible refine State.keeps_upTier _ ?_ ?_
    | with_reducible assumption
    | with_reducible refine keeps_ite ?_ ?_
    | with_reducible refine keeps_foldl (fun _ _ _ => ?_) ?_
    | with_reducible exact keepsO_get (by assumption)
    | with_reducible refine keepsO_map (fun _ _ => ?_) ?_
    | with_reducible refine keepsO_foldl (fun _ _ _ => ?_) ?_
    | exact keepsO_none
    | with_reducible refine keepsO_some ?_
    | split
    | with_reducible refine KeepsO.out (by assumption) ?_
theorem State.fcMerged_keeps {P : List Part} {r : State} (line : Nat) (x : FcLine) (base : Line) (s : State)
    (sub : ∀ p, p ∈ [.reqs, .fc, .tier, .slices, .budget, .media, .reg, .obs, .perf, .rstats] → p ∈ P) (h : r.keepsBut P s) : r.keepsBut P (State.fcMerged line x base s) := by
  unfold State.fcMerged
  try dsimp only
  repeat' first
    | with_reducible exact h
    | (with_reducible refine sub _ ?_); decide
    | (with_reducible refine part_sub sub ?_); decide
    | with_reducible apply State.fcPut_keeps
    | with_reducible apply State.pressSet_keeps
    | with_reducible apply State.tierWrite_keeps
    | with_reducible assumption
    | with_reducible refine keeps_ite ?_ ?_
    | with_reducible refine keeps_foldl (fun _ _ _ => ?_) ?_
    | with_reducible exact keepsO_get (by assumption)
    | with_reducible refine keepsO_map (fun _ _ => ?_) ?_
    | with_reducible refine keepsO_foldl (fun _ _ _ => ?_) ?_
    | exact keepsO_none
    | with_reducible refine keepsO_some ?_
    | split
    | with_reducible refine KeepsO.out (by assumption) ?_
theorem State.mergeWith_keeps {P : List Part} {r : State} (line : Nat) (base : Line) (s : State)
    (sub : ∀ p, p ∈ [.reqs, .fc, .tier, .slices, .budget, .media, .reg, .obs, .perf, .rstats] → p ∈ P) (h : r.keepsBut P s) : r.keepsBut P (State.mergeWith line base s) := by
  unfold State.mergeWith
  try dsimp only
  repeat' first
    | with_reducible exact h
    | (with_reducible refine sub _ ?_); decide
    | (with_reducible refine part_sub sub ?_); decide
    | with_reducible apply State.countMerge_keeps
    | with_reducible apply State.fcMerged_keeps
    | with_reducible apply State.putSector_keeps
    | with_reducible apply State.wakeLine_keeps
    | with_reducible assumption
    | with_reducible refine keeps_ite ?_ ?_
    | with_reducible refine keeps_foldl (fun _ _ _ => ?_) ?_
    | split
theorem State.poisonBy_keeps {P : List Part} {r : State} (trans : Nat) (line : Nat) (code : Nat) (s : State)
    (sub : ∀ p, p ∈ [.pwr, .map, .obs, .cmds] → p ∈ P) (h : r.keepsBut P s) : r.keepsBut P (State.poisonBy trans line code s) := by
  unfold State.poisonBy
  try dsimp only
  repeat' first
    | with_reducible exact h
    | (with_reducible refine sub _ ?_); decide
    | (with_reducible refine part_sub sub ?_); decide
    | with_reducible apply State.logBy_keeps
    | with_reducible apply State.poison_keeps
    | with_reducible assumption
    | with_reducible refine keeps_ite ?_ ?_
    | with_reducible refine keeps_foldl (fun _ _ _ => ?_) ?_
    | split
theorem State.poisonNow_keeps {P : List Part} {r : State} (line : Nat) (code : Nat) (s : State)
    (sub : ∀ p, p ∈ [.pwr, .map, .obs, .cmds] → p ∈ P) (h : r.keepsBut P s) : r.keepsBut P (State.poisonNow line code s) := by
  unfold State.poisonNow
  try dsimp only
  repeat' first
    | with_reducible exact h
    | (with_reducible refine sub _ ?_); decide
    | (with_reducible refine part_sub sub ?_); decide
    | with_reducible apply State.poisonBy_keeps
    | with_reducible assumption
    | with_reducible refine keeps_ite ?_ ?_
    | with_reducible refine keeps_foldl (fun _ _ _ => ?_) ?_
    | split
theorem State.mergeLost_keeps {P : List Part} {r : State} (line : Nat) (code : Nat) (s : State)
    (sub : ∀ p, p ∈ [.pwr, .reqs, .fc, .tier, .slices, .budget, .media, .map, .reg, .obs, .perf, .rstats, .cmds] → p ∈ P) (h : r.keepsBut P s) : r.keepsBut P (State.mergeLost line code s) := by
  unfold State.mergeLost
  try dsimp only
  repeat' first
    | with_reducible exact h
    | (with_reducible refine sub _ ?_); decide
    | (with_reducible refine part_sub sub ?_); decide
    | with_reducible apply State.mergeWith_keeps
    | with_reducible apply State.poisonNow_keeps
    | with_reducible assumption
    | with_reducible refine keeps_ite ?_ ?_
    | with_reducible refine keeps_foldl (fun _ _ _ => ?_) ?_
    | split
theorem State.mergeNow_keeps {P : List Part} {r : State} (lost : List (Nat × Nat)) (line : Nat) (s : State)
    (sub : ∀ p, p ∈ [.pwr, .reqs, .fc, .tier, .slices, .budget, .media, .map, .reg, .obs, .perf, .rstats, .cmds] → p ∈ P) (h : r.keepsBut P s) : r.keepsBut P (State.mergeNow lost line s) := by
  unfold State.mergeNow
  try dsimp only
  repeat' first
    | with_reducible exact h
    | (with_reducible refine sub _ ?_); decide
    | (with_reducible refine part_sub sub ?_); decide
    | with_reducible apply State.mergeLost_keeps
    | with_reducible apply State.mergeWith_keeps
    | with_reducible assumption
    | with_reducible refine keeps_ite ?_ ?_
    | with_reducible refine keeps_foldl (fun _ _ _ => ?_) ?_
    | split
theorem State.settleLine_keeps {P : List Part} {r : State} (line : Nat) (d : Line) (s : State)
    (sub : ∀ p, p ∈ [.reqs, .fc, .tier, .slices, .budget] → p ∈ P) (h : r.keepsBut P s) : r.keepsBut P (State.settleLine line d s) := by
  unfold State.settleLine
  try dsimp only
  repeat' first
    | with_reducible exact h
    | (with_reducible refine sub _ ?_); decide
    | (with_reducible refine part_sub sub ?_); decide
    | with_reducible apply State.fcDrop_keeps
    | with_reducible apply State.overwritten_keeps
    | with_reducible apply State.putSector_keeps
    | with_reducible apply State.release_keeps
    | with_reducible apply State.wakeLine_keeps
    | with_reducible assumption
    | with_reducible refine keeps_ite ?_ ?_
    | with_reducible refine keeps_foldl (fun _ _ _ => ?_) ?_
    | split
theorem State.dropLine_keeps {P : List Part} {r : State} (line : Nat) (s : State)
    (sub : ∀ p, p ∈ [.reqs, .fc, .tier, .slices, .budget] → p ∈ P) (h : r.keepsBut P s) : r.keepsBut P (State.dropLine line s) := by
  unfold State.dropLine
  try dsimp only
  repeat' first
    | with_reducible exact h
    | (with_reducible refine sub _ ?_); decide
    | (with_reducible refine part_sub sub ?_); decide
    | with_reducible apply State.settleLine_keeps
    | with_reducible assumption
    | with_reducible refine keeps_ite ?_ ?_
    | with_reducible refine keeps_foldl (fun _ _ _ => ?_) ?_
    | split
theorem State.dropGrain_keeps {P : List Part} {r : State} (g : Nat) (s : State)
    (sub : ∀ p, p ∈ [.reqs, .fc, .tier, .slices, .budget] → p ∈ P) (h : r.keepsBut P s) : r.keepsBut P (State.dropGrain g s) := by
  unfold State.dropGrain
  try dsimp only
  repeat' first
    | with_reducible exact h
    | (with_reducible refine sub _ ?_); decide
    | (with_reducible refine part_sub sub ?_); decide
    | with_reducible apply State.overwrittenGrain_keeps
    | with_reducible apply State.releaseAll_keeps
    | with_reducible refine State.keeps_upFc _ ?_ ?_
    | with_reducible refine State.keeps_upReqs _ ?_ ?_
    | with_reducible refine State.keeps_upTier _ ?_ ?_
    | with_reducible assumption
    | with_reducible refine keeps_ite ?_ ?_
    | with_reducible refine keeps_foldl (fun _ _ _ => ?_) ?_
    | split
theorem State.takeLine_keeps {P : List Part} {r : State} (lost : List (Nat × Nat)) (line : Nat) (s : State)
    (sub : ∀ p, p ∈ [.pwr, .reqs, .fc, .tier, .slices, .budget, .media, .map, .reg, .obs, .perf, .rstats, .cmds] → p ∈ P) (h : r.keepsBut P s) : r.keepsBut P (State.takeLine lost line s) := by
  unfold State.takeLine
  try dsimp only
  repeat' first
    | with_reducible exact h
    | (with_reducible refine sub _ ?_); decide
    | (with_reducible refine part_sub sub ?_); decide
    | with_reducible apply State.fcPut_keeps
    | with_reducible apply State.mergeNow_keeps
    | with_reducible apply State.tierWrite_keeps
    | with_reducible assumption
    | with_reducible refine keeps_ite ?_ ?_
    | with_reducible refine keeps_foldl (fun _ _ _ => ?_) ?_
    | with_reducible exact keepsO_get (by assumption)
    | with_reducible refine keepsO_map (fun _ _ => ?_) ?_
    | with_reducible refine keepsO_foldl (fun _ _ _ => ?_) ?_
    | exact keepsO_none
    | with_reducible refine keepsO_some ?_
    | split
    | with_reducible refine KeepsO.out (by assumption) ?_
theorem State.releaseLine_keeps {P : List Part} {r : State} (line : Nat) (s : State)
    (sub : ∀ p, p ∈ [.tier, .budget] → p ∈ P) (h : r.keepsBut P s) : r.keepsBut P (State.releaseLine line s) := by
  unfold State.releaseLine
  try dsimp only
  repeat' first
    | with_reducible exact h
    | (with_reducible refine sub _ ?_); decide
    | (with_reducible refine part_sub sub ?_); decide
    | with_reducible apply State.putSector_keeps
    | with_reducible apply State.release_keeps
    | with_reducible assumption
    | with_reducible refine keeps_ite ?_ ?_
    | with_reducible refine keeps_foldl (fun _ _ _ => ?_) ?_
    | split
theorem State.returnLine_keeps {P : List Part} {r : State} (line : Nat) (s : State)
    (sub : ∀ p, p ∈ [.tier] → p ∈ P) (h : r.keepsBut P s) : r.keepsBut P (State.returnLine line s) := by
  unfold State.returnLine
  try dsimp only
  repeat' first
    | with_reducible exact h
    | (with_reducible refine sub _ ?_); decide
    | (with_reducible refine part_sub sub ?_); decide
    | with_reducible apply State.putSector_keeps
    | with_reducible assumption
    | with_reducible refine keeps_ite ?_ ?_
    | with_reducible refine keeps_foldl (fun _ _ _ => ?_) ?_
    | split
theorem State.uncharge_keeps {P : List Part} {r : State} (x0 : Req) (s : State)
    (sub : ∀ p, p ∈ [.budget] → p ∈ P) (h : r.keepsBut P s) : r.keepsBut P (State.uncharge x0 s) := by
  unfold State.uncharge
  try dsimp only
  repeat' first
    | with_reducible exact h
    | (with_reducible refine sub _ ?_); decide
    | (with_reducible refine part_sub sub ?_); decide
    | with_reducible apply State.release_keeps
    | with_reducible assumption
    | with_reducible refine keeps_ite ?_ ?_
    | with_reducible refine keeps_foldl (fun _ _ _ => ?_) ?_
    | split
theorem State.noteApplied_keeps {P : List Part} {r : State} (id : Nat) (s : State)
    (sub : ∀ p, p ∈ [.reqs] → p ∈ P) (h : r.keepsBut P s) : r.keepsBut P (State.noteApplied id s) := by
  unfold State.noteApplied
  try dsimp only
  repeat' first
    | with_reducible exact h
    | (with_reducible refine sub _ ?_); decide
    | (with_reducible refine part_sub sub ?_); decide
    | with_reducible refine State.keeps_upReqs _ ?_ ?_
    | with_reducible assumption
    | with_reducible refine keeps_ite ?_ ?_
    | with_reducible refine keeps_foldl (fun _ _ _ => ?_) ?_
    | split
theorem State.completeWrite_keeps {P : List Part} {r : State} (x0 : Req) (s : State)
    (sub : ∀ p, p ∈ [.pwr, .port, .reqs, .slices, .budget, .care, .yoke, .reg, .mbox, .obs, .perf, .firkin, .rstats, .cmds] → p ∈ P) (h : r.keepsBut P s) : r.keepsBut P (State.completeWrite x0 s) := by
  unfold State.completeWrite
  try dsimp only
  repeat' first
    | with_reducible exact h
    | (with_reducible refine sub _ ?_); decide
    | (with_reducible refine part_sub sub ?_); decide
    | with_reducible apply State.answer_keeps
    | with_reducible apply State.noteApplied_keeps
    | with_reducible apply State.queueWb_keeps
    | with_reducible apply State.stageReq_keeps
    | with_reducible assumption
    | with_reducible refine keeps_ite ?_ ?_
    | with_reducible refine keeps_foldl (fun _ _ _ => ?_) ?_
    | split
theorem State.keepBefore_keeps {P : List Part} {r : State} (id : Nat) (b : Before) (s : State)
    (sub : ∀ p, p ∈ [.reqs] → p ∈ P) (h : r.keepsBut P s) : r.keepsBut P (State.keepBefore id b s) := by
  unfold State.keepBefore
  try dsimp only
  repeat' first
    | with_reducible exact h
    | (with_reducible refine sub _ ?_); decide
    | (with_reducible refine part_sub sub ?_); decide
    | with_reducible refine State.keeps_upReqs _ ?_ ?_
    | with_reducible assumption
    | with_reducible refine keeps_ite ?_ ?_
    | with_reducible refine keeps_foldl (fun _ _ _ => ?_) ?_
    | split
theorem State.undoLine_keeps {P : List Part} {r : State} (line : Nat) (b : Before) (s : State)
    (sub : ∀ p, p ∈ [.pwr, .reqs, .fc, .tier, .slices, .budget, .map, .obs, .cmds] → p ∈ P) (h : r.keepsBut P s) : r.keepsBut P (State.undoLine line b s) := by
  unfold State.undoLine
  try dsimp only
  repeat' first
    | with_reducible exact h
    | (with_reducible refine sub _ ?_); decide
    | (with_reducible refine part_sub sub ?_); decide
    | with_reducible apply State.cancelMerge_keeps
    | with_reducible apply State.fcPut_keeps
    | with_reducible apply State.poison_keeps
    | with_reducible apply State.putSector_keeps
    | with_reducible apply State.settleLine_keeps
    | with_reducible apply State.unpoison_keeps
    | with_reducible assumption
    | with_reducible refine keeps_ite ?_ ?_
    | with_reducible refine keeps_foldl (fun _ _ _ => ?_) ?_
    | split
theorem State.undoWrite_keeps {P : List Part} {r : State} (x0 : Req) (s : State)
    (sub : ∀ p, p ∈ [.pwr, .reqs, .fc, .tier, .slices, .budget, .map, .obs, .cmds] → p ∈ P) (h : r.keepsBut P s) : r.keepsBut P (State.undoWrite x0 s) := by
  unfold State.undoWrite
  try dsimp only
  repeat' first
    | with_reducible exact h
    | (with_reducible refine sub _ ?_); decide
    | (with_reducible refine part_sub sub ?_); decide
    | with_reducible apply State.undoLine_keeps
    | with_reducible assumption
    | with_reducible refine keeps_ite ?_ ?_
    | with_reducible refine keeps_foldl (fun _ _ _ => ?_) ?_
    | split
theorem State.undoFlights_keeps {P : List Part} {r : State} (s : State)
    (sub : ∀ p, p ∈ [.pwr, .reqs, .fc, .tier, .slices, .budget, .map, .obs, .cmds] → p ∈ P) (h : r.keepsBut P s) : r.keepsBut P (State.undoFlights s) := by
  unfold State.undoFlights
  try dsimp only
  repeat' first
    | with_reducible exact h
    | (with_reducible refine sub _ ?_); decide
    | (with_reducible refine part_sub sub ?_); decide
    | with_reducible apply State.undoLine_keeps
    | with_reducible apply State.undoWrite_keeps
    | with_reducible assumption
    | with_reducible refine keeps_ite ?_ ?_
    | with_reducible refine keeps_foldl (fun _ _ _ => ?_) ?_
    | with_reducible refine keeps_foldr (fun _ _ _ => ?_) ?_
    | split
theorem State.undoAll_keeps {P : List Part} {r : State} (s : State)
    (sub : ∀ p, p ∈ [.pwr, .reqs, .fc, .tier, .slices, .budget, .map, .obs, .cmds] → p ∈ P) (h : r.keepsBut P s) : r.keepsBut P (State.undoAll s) := by
  unfold State.undoAll
  try dsimp only
  repeat' first
    | with_reducible exact h
    | (with_reducible refine sub _ ?_); decide
    | (with_reducible refine part_sub sub ?_); decide
    | with_reducible apply State.undoFlights_keeps
    | with_reducible apply State.undoWrite_keeps
    | with_reducible assumption
    | with_reducible refine keeps_ite ?_ ?_
    | with_reducible refine keeps_foldl (fun _ _ _ => ?_) ?_
    | with_reducible refine keeps_foldr (fun _ _ _ => ?_) ?_
    | split

end Sys2Proof.Machine
end

