-- ==== Sys2Proof/Laws/KeepsMembership.lean ====
section
/-!
SUPPORT. What each operation of Machine/Membership.lean leaves unchanged: the groups of the state it may write, the others kept.
-/
namespace Sys2Proof.Machine

theorem State.sendMember_keeps {P : List Part} {r : State} (ty : Nat) (s : State)
    (sub : ∀ p, p ∈ [.yoke, .obs, .perf] → p ∈ P) (h : r.keepsBut P s) : r.keepsBut P (State.sendMember ty s) := by
  unfold State.sendMember
  try dsimp only
  repeat' first
    | with_reducible exact h
    | (with_reducible refine sub _ ?_); decide
    | (with_reducible refine part_sub sub ?_); decide
    | with_reducible apply State.send_keeps
    | with_reducible refine State.keeps_upYoke _ ?_ ?_
    | with_reducible assumption
    | with_reducible refine keeps_ite ?_ ?_
    | with_reducible refine keeps_foldl (fun _ _ _ => ?_) ?_
    | split
theorem State.sendPulse_keeps {P : List Part} {r : State} (s : State)
    (sub : ∀ p, p ∈ [.yoke, .obs, .perf] → p ∈ P) (h : r.keepsBut P s) : r.keepsBut P (State.sendPulse s) := by
  unfold State.sendPulse
  try dsimp only
  repeat' first
    | with_reducible exact h
    | (with_reducible refine sub _ ?_); decide
    | (with_reducible refine part_sub sub ?_); decide
    | with_reducible apply State.send_keeps
    | with_reducible refine State.keeps_upYoke _ ?_ ?_
    | with_reducible assumption
    | with_reducible refine keeps_ite ?_ ?_
    | with_reducible refine keeps_foldl (fun _ _ _ => ?_) ?_
    | split
theorem State.writeRecord_keeps {P : List Part} {r : State} (f : MemberRec → MemberRec) (s : State)
    (sub : ∀ p, p ∈ [.yoke, .keys, .obs, .perf] → p ∈ P) (h : r.keepsBut P s) : r.keepsBut P (State.writeRecord f s) := by
  unfold State.writeRecord
  try dsimp only
  repeat' first
    | with_reducible exact h
    | (with_reducible refine sub _ ?_); decide
    | (with_reducible refine part_sub sub ?_); decide
    | with_reducible apply State.measure_keeps
    | with_reducible apply State.save_keeps
    | with_reducible refine State.keeps_upYoke _ ?_ ?_
    | with_reducible assumption
    | with_reducible refine keeps_ite ?_ ?_
    | with_reducible refine keeps_foldl (fun _ _ _ => ?_) ?_
    | split
theorem State.setMember_keeps {P : List Part} {r : State} (m : Nat) (s : State)
    (sub : ∀ p, p ∈ [.yoke, .obs, .perf] → p ∈ P) (h : r.keepsBut P s) : r.keepsBut P (State.setMember m s) := by
  unfold State.setMember
  try dsimp only
  repeat' first
    | with_reducible exact h
    | (with_reducible refine sub _ ?_); decide
    | (with_reducible refine part_sub sub ?_); decide
    | with_reducible apply State.sendPulse_keeps
    | with_reducible refine State.keeps_upYoke _ ?_ ?_
    | with_reducible assumption
    | with_reducible refine keeps_ite ?_ ?_
    | with_reducible refine keeps_foldl (fun _ _ _ => ?_) ?_
    | split
theorem State.dropWork_keeps {P : List Part} {r : State} (s : State)
    (sub : ∀ p, p ∈ [.reqs, .yoke] → p ∈ P) (h : r.keepsBut P s) : r.keepsBut P (State.dropWork s) := by
  unfold State.dropWork
  try dsimp only
  repeat' first
    | with_reducible exact h
    | (with_reducible refine sub _ ?_); decide
    | (with_reducible refine part_sub sub ?_); decide
    | with_reducible refine State.keeps_upReqs _ ?_ ?_
    | with_reducible refine State.keeps_upYoke _ ?_ ?_
    | with_reducible assumption
    | with_reducible refine keeps_ite ?_ ?_
    | with_reducible refine keeps_foldl (fun _ _ _ => ?_) ?_
    | split
theorem State.clearReservations_keeps {P : List Part} {r : State} (s : State)
    (sub : ∀ p, p ∈ [.atom] → p ∈ P) (h : r.keepsBut P s) : r.keepsBut P (State.clearReservations s) := by
  unfold State.clearReservations
  try dsimp only
  repeat' first
    | with_reducible exact h
    | (with_reducible refine sub _ ?_); decide
    | (with_reducible refine part_sub sub ?_); decide
    | with_reducible apply State.endRes_keeps
    | with_reducible assumption
    | with_reducible refine keeps_ite ?_ ?_
    | with_reducible refine keeps_foldl (fun _ _ _ => ?_) ?_
    | split
theorem State.markFlights_keeps {P : List Part} {r : State} (s : State)
    (sub : ∀ p, p ∈ [.pwr, .map, .obs, .cmds] → p ∈ P) (h : r.keepsBut P s) : r.keepsBut P (State.markFlights s) := by
  unfold State.markFlights
  try dsimp only
  repeat' first
    | with_reducible exact h
    | (with_reducible refine sub _ ?_); decide
    | (with_reducible refine part_sub sub ?_); decide
    | with_reducible apply State.mark_keeps
    | with_reducible assumption
    | with_reducible refine keeps_ite ?_ ?_
    | with_reducible refine keeps_foldl (fun _ _ _ => ?_) ?_
    | split
theorem State.heldToSole_keeps {P : List Part} {r : State} (x0 : Req) (s : State)
    (sub : ∀ p, p ∈ [.pwr, .port, .reqs, .slices, .budget, .care, .yoke, .atom, .reg, .mbox, .obs, .perf, .firkin, .rstats, .cmds] → p ∈ P) (h : r.keepsBut P s) : r.keepsBut P (State.heldToSole x0 s) := by
  unfold State.heldToSole
  try dsimp only
  repeat' first
    | with_reducible exact h
    | (with_reducible refine sub _ ?_); decide
    | (with_reducible refine part_sub sub ?_); decide
    | with_reducible apply State.answer_keeps
    | with_reducible apply State.completeWrite_keeps
    | with_reducible apply State.countOutcome_keeps
    | with_reducible apply State.setStatus_keeps
    | with_reducible apply State.stageReq_keeps
    | with_reducible assumption
    | with_reducible refine keeps_ite ?_ ?_
    | with_reducible refine keeps_foldl (fun _ _ _ => ?_) ?_
    | split
theorem State.returnCredit_keeps {P : List Part} {r : State} (x0 : Req) (s : State)
    (sub : ∀ p, p ∈ [.port] → p ∈ P) (h : r.keepsBut P s) : r.keepsBut P (State.returnCredit x0 s) := by
  unfold State.returnCredit
  try dsimp only
  repeat' first
    | with_reducible exact h
    | (with_reducible refine sub _ ?_); decide
    | (with_reducible refine part_sub sub ?_); decide
    | with_reducible refine State.keeps_upPort _ ?_ ?_
    | with_reducible assumption
    | with_reducible refine keeps_ite ?_ ?_
    | with_reducible refine keeps_foldl (fun _ _ _ => ?_) ?_
    | split
theorem State.heldToFenced_keeps {P : List Part} {r : State} (x0 : Req) (s : State)
    (sub : ∀ p, p ∈ [.pwr, .port, .reqs, .slices, .budget, .care, .yoke, .reg, .mbox, .obs, .perf, .firkin, .rstats, .cmds] → p ∈ P) (h : r.keepsBut P s) : r.keepsBut P (State.heldToFenced x0 s) := by
  unfold State.heldToFenced
  try dsimp only
  repeat' first
    | with_reducible exact h
    | (with_reducible refine sub _ ?_); decide
    | (with_reducible refine part_sub sub ?_); decide
    | with_reducible apply State.answer_keeps
    | with_reducible apply State.dropReq_keeps
    | with_reducible apply State.returnCredit_keeps
    | with_reducible apply State.uncharge_keeps
    | with_reducible assumption
    | with_reducible refine keeps_ite ?_ ?_
    | with_reducible refine keeps_foldl (fun _ _ _ => ?_) ?_
    | split
theorem State.dropHeld_keeps {P : List Part} {r : State} (s : State)
    (sub : ∀ p, p ∈ [.pwr, .port, .reqs, .fc, .tier, .slices, .budget, .map, .care, .yoke, .reg, .mbox, .obs, .perf, .firkin, .rstats, .cmds] → p ∈ P) (h : r.keepsBut P s) : r.keepsBut P (State.dropHeld s) := by
  unfold State.dropHeld
  try dsimp only
  repeat' first
    | with_reducible exact h
    | (with_reducible refine sub _ ?_); decide
    | (with_reducible refine part_sub sub ?_); decide
    | with_reducible apply State.heldToFenced_keeps
    | with_reducible apply State.undoFlights_keeps
    | with_reducible assumption
    | with_reducible refine keeps_ite ?_ ?_
    | with_reducible refine keeps_foldl (fun _ _ _ => ?_) ?_
    | split
theorem State.abandonJobs_keeps {P : List Part} {r : State} (s : State)
    (sub : ∀ p, p ∈ [.map, .cmds] → p ∈ P) (h : r.keepsBut P s) : r.keepsBut P (State.abandonJobs s) := by
  unfold State.abandonJobs
  try dsimp only
  repeat' first
    | with_reducible exact h
    | (with_reducible refine sub _ ?_); decide
    | (with_reducible refine part_sub sub ?_); decide
    | with_reducible refine State.keeps_upCmds _ ?_ ?_
    | with_reducible refine State.keeps_upMap _ ?_ ?_
    | with_reducible assumption
    | with_reducible refine keeps_ite ?_ ?_
    | with_reducible refine keeps_foldl (fun _ _ _ => ?_) ?_
    | split
theorem State.enterSole_keeps {P : List Part} {r : State} (cause : Nat) (s : State)
    (sub : ∀ p, p ∈ [.pwr, .port, .reqs, .slices, .budget, .map, .care, .yoke, .atom, .keys, .reg, .mbox, .obs, .perf, .firkin, .rstats, .cmds] → p ∈ P) (h : r.keepsBut P s) : r.keepsBut P (State.enterSole cause s) := by
  unfold State.enterSole
  try dsimp only
  repeat' first
    | with_reducible exact h
    | (with_reducible refine sub _ ?_); decide
    | (with_reducible refine part_sub sub ?_); decide
    | with_reducible apply State.clearReservations_keeps
    | with_reducible apply State.dropWork_keeps
    | with_reducible apply State.heldToSole_keeps
    | with_reducible apply State.log_keeps
    | with_reducible apply State.markFlights_keeps
    | with_reducible apply State.setMember_keeps
    | with_reducible apply State.writeRecord_keeps
    | with_reducible assumption
    | with_reducible refine keeps_ite ?_ ?_
    | with_reducible refine keeps_foldl (fun _ _ _ => ?_) ?_
    | split
theorem State.enterFenced_keeps {P : List Part} {r : State} (s : State)
    (sub : ∀ p, p ∈ [.pwr, .port, .reqs, .fc, .tier, .slices, .budget, .map, .care, .yoke, .atom, .keys, .reg, .mbox, .obs, .perf, .firkin, .rstats, .cmds] → p ∈ P) (h : r.keepsBut P s) : r.keepsBut P (State.enterFenced s) := by
  unfold State.enterFenced
  try dsimp only
  repeat' first
    | with_reducible exact h
    | (with_reducible refine sub _ ?_); decide
    | (with_reducible refine part_sub sub ?_); decide
    | with_reducible apply State.abandonJobs_keeps
    | with_reducible apply State.clearReservations_keeps
    | with_reducible apply State.dropHeld_keeps
    | with_reducible apply State.dropWork_keeps
    | with_reducible apply State.log_keeps
    | with_reducible apply State.sendMember_keeps
    | with_reducible apply State.setMember_keeps
    | with_reducible apply State.writeRecord_keeps
    | with_reducible refine State.keeps_upObs _ ?_ ?_
    | with_reducible assumption
    | with_reducible refine keeps_ite ?_ ?_
    | with_reducible refine keeps_foldl (fun _ _ _ => ?_) ?_
    | split
theorem State.leaveSuspect_keeps {P : List Part} {r : State} (s : State)
    (sub : ∀ p, p ∈ [.reqs, .yoke, .obs, .perf] → p ∈ P) (h : r.keepsBut P s) : r.keepsBut P (State.leaveSuspect s) := by
  unfold State.leaveSuspect
  try dsimp only
  repeat' first
    | with_reducible exact h
    | (with_reducible refine sub _ ?_); decide
    | (with_reducible refine part_sub sub ?_); decide
    | with_reducible apply State.setMember_keeps
    | with_reducible refine State.keeps_upReqs _ ?_ ?_
    | with_reducible assumption
    | with_reducible refine keeps_ite ?_ ?_
    | with_reducible refine keeps_foldl (fun _ _ _ => ?_) ?_
    | split
theorem State.enterSuspect_keeps {P : List Part} {r : State} (s : State)
    (sub : ∀ p, p ∈ [.yoke, .obs, .perf] → p ∈ P) (h : r.keepsBut P s) : r.keepsBut P (State.enterSuspect s) := by
  unfold State.enterSuspect
  try dsimp only
  repeat' first
    | with_reducible exact h
    | (with_reducible refine sub _ ?_); decide
    | (with_reducible refine part_sub sub ?_); decide
    | with_reducible apply State.setMember_keeps
    | with_reducible refine State.keeps_upYoke _ ?_ ?_
    | with_reducible assumption
    | with_reducible refine keeps_ite ?_ ?_
    | with_reducible refine keeps_foldl (fun _ _ _ => ?_) ?_
    | split
theorem State.standDown_keeps {P : List Part} {r : State} (s : State)
    (sub : ∀ p, p ∈ [.reqs, .map, .yoke, .keys, .obs, .perf, .cmds] → p ∈ P) (h : r.keepsBut P s) : r.keepsBut P (State.standDown s) := by
  unfold State.standDown
  try dsimp only
  repeat' first
    | with_reducible exact h
    | (with_reducible refine sub _ ?_); decide
    | (with_reducible refine part_sub sub ?_); decide
    | with_reducible apply State.abandonJobs_keeps
    | with_reducible apply State.dropWork_keeps
    | with_reducible apply State.sendMember_keeps
    | with_reducible apply State.sendPulse_keeps
    | with_reducible apply State.writeRecord_keeps
    | with_reducible refine State.keeps_upYoke _ ?_ ?_
    | with_reducible assumption
    | with_reducible refine keeps_ite ?_ ?_
    | with_reducible refine keeps_foldl (fun _ _ _ => ?_) ?_
    | split
theorem State.restartMember_keeps {P : List Part} {r : State} (cold : Bool) (s : State)
    (sub : ∀ p, p ∈ [.yoke, .obs, .perf] → p ∈ P) (h : r.keepsBut P s) : r.keepsBut P (State.restartMember cold s) := by
  unfold State.restartMember
  try dsimp only
  repeat' first
    | with_reducible exact h
    | (with_reducible refine sub _ ?_); decide
    | (with_reducible refine part_sub sub ?_); decide
    | with_reducible apply State.log_keeps
    | with_reducible apply State.setMember_keeps
    | with_reducible assumption
    | with_reducible refine keeps_ite ?_ ?_
    | with_reducible refine keeps_foldl (fun _ _ _ => ?_) ?_
    | split
theorem State.sendBitmap_keeps {P : List Part} {r : State} (s : State)
    (sub : ∀ p, p ∈ [.yoke, .obs, .perf] → p ∈ P) (h : r.keepsBut P s) : r.keepsBut P (State.sendBitmap s) := by
  unfold State.sendBitmap
  try dsimp only
  repeat' first
    | with_reducible exact h
    | (with_reducible refine sub _ ?_); decide
    | (with_reducible refine part_sub sub ?_); decide
    | with_reducible apply State.send_keeps
    | with_reducible assumption
    | with_reducible refine keeps_ite ?_ ?_
    | with_reducible refine keeps_foldl (fun _ _ _ => ?_) ?_
    | split
theorem State.startResync_keeps {P : List Part} {r : State} (member : Nat) (serial : Nat) (s : State)
    (sub : ∀ p, p ∈ [.yoke, .keys, .obs, .perf] → p ∈ P) (h : r.keepsBut P s) : r.keepsBut P (State.startResync member serial s) := by
  unfold State.startResync
  try dsimp only
  repeat' first
    | with_reducible exact h
    | (with_reducible refine sub _ ?_); decide
    | (with_reducible refine part_sub sub ?_); decide
    | with_reducible apply State.log_keeps
    | with_reducible apply State.sendBitmap_keeps
    | with_reducible apply State.setMember_keeps
    | with_reducible apply State.writeRecord_keeps
    | with_reducible refine State.keeps_upYoke _ ?_ ?_
    | with_reducible assumption
    | with_reducible refine keeps_ite ?_ ?_
    | with_reducible refine keeps_foldl (fun _ _ _ => ?_) ?_
    | split
theorem State.damaged_keeps {P : List Part} {r : State} (s : State)
    (sub : ∀ p, p ∈ [.yoke, .keys, .obs, .perf] → p ∈ P) (h : r.keepsBut P s) : r.keepsBut P (State.damaged s) := by
  unfold State.damaged
  try dsimp only
  repeat' first
    | with_reducible exact h
    | (with_reducible refine sub _ ?_); decide
    | (with_reducible refine part_sub sub ?_); decide
    | with_reducible apply State.writeRecord_keeps
    | with_reducible assumption
    | with_reducible refine keeps_ite ?_ ?_
    | with_reducible refine keeps_foldl (fun _ _ _ => ?_) ?_
    | split
theorem State.receiveDamaged_keeps {P : List Part} {r : State} (s : State)
    (sub : ∀ p, p ∈ [.yoke, .keys, .obs, .perf] → p ∈ P) (h : r.keepsBut P s) : r.keepsBut P (State.receiveDamaged s) := by
  unfold State.receiveDamaged
  try dsimp only
  repeat' first
    | with_reducible exact h
    | (with_reducible refine sub _ ?_); decide
    | (with_reducible refine part_sub sub ?_); decide
    | with_reducible apply State.startResync_keeps
    | with_reducible assumption
    | with_reducible refine keeps_ite ?_ ?_
    | with_reducible refine keeps_foldl (fun _ _ _ => ?_) ?_
    | split

end Sys2Proof.Machine
end

