-- ==== Sys2Proof/Laws/KeepsResets.lean ====
section
/-!
SUPPORT. What each operation of Machine/Resets.lean leaves unchanged: the groups of the state it may write, the others kept.
-/
namespace Sys2Proof.Machine

theorem State.ovRemove_keeps {P : List Part} {r : State} (line : Nat) (s : State)
    (sub : ∀ p, p ∈ [.map] → p ∈ P) (h : r.keepsBut P s) : r.keepsBut P (State.ovRemove line s) := by
  unfold State.ovRemove
  try dsimp only
  repeat' first
    | with_reducible exact h
    | (with_reducible refine sub _ ?_); decide
    | (with_reducible refine part_sub sub ?_); decide
    | with_reducible refine State.keeps_upMap _ ?_ ?_
    | with_reducible assumption
    | with_reducible refine keeps_ite ?_ ?_
    | with_reducible refine keeps_foldl (fun _ _ _ => ?_) ?_
    | split
theorem State.ovRemoveGrain_keeps {P : List Part} {r : State} (g : Nat) (s : State)
    (sub : ∀ p, p ∈ [.map] → p ∈ P) (h : r.keepsBut P s) : r.keepsBut P (State.ovRemoveGrain g s) := by
  unfold State.ovRemoveGrain
  try dsimp only
  repeat' first
    | with_reducible exact h
    | (with_reducible refine sub _ ?_); decide
    | (with_reducible refine part_sub sub ?_); decide
    | with_reducible refine State.keeps_upMap _ ?_ ?_
    | with_reducible assumption
    | with_reducible refine keeps_ite ?_ ?_
    | with_reducible refine keeps_foldl (fun _ _ _ => ?_) ?_
    | split
theorem State.ovInsert_keeps {P : List Part} {r : State} (line : Nat) (page : Nat) (slot : Nat) (s : State)
    (sub : ∀ p, p ∈ [.map] → p ∈ P) (h : r.keepsBut P s) : r.keepsBut P (State.ovInsert line page slot s) := by
  unfold State.ovInsert
  try dsimp only
  repeat' first
    | with_reducible exact h
    | (with_reducible refine sub _ ?_); decide
    | (with_reducible refine part_sub sub ?_); decide
    | with_reducible apply State.ovRemove_keeps
    | with_reducible refine State.keeps_upMap _ ?_ ?_
    | with_reducible assumption
    | with_reducible refine keeps_ite ?_ ?_
    | with_reducible refine keeps_foldl (fun _ _ _ => ?_) ?_
    | split
theorem State.enterSlot_keeps {P : List Part} {r : State} (ppa : Nat) (p : Page) (k : Nat) (x : LogSlot) (s : State)
    (sub : ∀ p, p ∈ [.map] → p ∈ P) (h : r.keepsBut P s) : r.keepsBut P (State.enterSlot ppa p k x s) := by
  unfold State.enterSlot
  try dsimp only
  repeat' first
    | with_reducible exact h
    | (with_reducible refine sub _ ?_); decide
    | (with_reducible refine part_sub sub ?_); decide
    | with_reducible apply State.ovInsert_keeps
    | with_reducible refine State.keeps_upMap _ ?_ ?_
    | with_reducible assumption
    | with_reducible refine keeps_ite ?_ ?_
    | with_reducible refine keeps_foldl (fun _ _ _ => ?_) ?_
    | split
theorem State.applyRec_keeps {P : List Part} {r : State} (x0 : JRec) (s : State)
    (sub : ∀ p, p ∈ [.media, .map] → p ∈ P) (h : r.keepsBut P s) : r.keepsBut P (State.applyRec x0 s) := by
  unfold State.applyRec
  try dsimp only
  repeat' first
    | with_reducible exact h
    | (with_reducible refine sub _ ?_); decide
    | (with_reducible refine part_sub sub ?_); decide
    | with_reducible apply State.enterSlot_keeps
    | with_reducible refine State.keeps_upMap _ ?_ ?_
    | with_reducible refine State.keeps_upMedia _ ?_ ?_
    | with_reducible assumption
    | with_reducible refine keeps_ite ?_ ?_
    | with_reducible refine keeps_foldl (fun _ _ _ => ?_) ?_
    | split
theorem State.fromCkpt_keeps {P : List Part} {r : State} (s : State)
    (sub : ∀ p, p ∈ [.media, .map] → p ∈ P) (h : r.keepsBut P s) : r.keepsBut P (State.fromCkpt s) := by
  unfold State.fromCkpt
  try dsimp only
  repeat' first
    | with_reducible exact h
    | (with_reducible refine sub _ ?_); decide
    | (with_reducible refine part_sub sub ?_); decide
    | with_reducible refine State.keeps_upMap _ ?_ ?_
    | with_reducible refine State.keeps_upMedia _ ?_ ?_
    | with_reducible assumption
    | with_reducible refine keeps_ite ?_ ?_
    | with_reducible refine keeps_foldl (fun _ _ _ => ?_) ?_
    | split
theorem State.replayJournal_keeps {P : List Part} {r : State} (recs : List JRec) (s : State)
    (sub : ∀ p, p ∈ [.media, .map] → p ∈ P) (h : r.keepsBut P s) : r.keepsBut P (State.replayJournal recs s) := by
  unfold State.replayJournal
  try dsimp only
  repeat' first
    | with_reducible exact h
    | (with_reducible refine sub _ ?_); decide
    | (with_reducible refine part_sub sub ?_); decide
    | with_reducible apply State.applyRec_keeps
    | with_reducible apply State.fromCkpt_keeps
    | with_reducible assumption
    | with_reducible refine keeps_ite ?_ ?_
    | with_reducible refine keeps_foldl (fun _ _ _ => ?_) ?_
    | split
theorem State.rebuildMap_keeps {P : List Part} {r : State} (s : State)
    (sub : ∀ p, p ∈ [.pwr, .media, .map, .yoke, .keys, .obs, .perf, .cmds] → p ∈ P) (h : r.keepsBut P s) : r.keepsBut P (State.rebuildMap s) := by
  unfold State.rebuildMap
  try dsimp only
  repeat' first
    | with_reducible exact h
    | (with_reducible refine sub _ ?_); decide
    | (with_reducible refine part_sub sub ?_); decide
    | with_reducible apply State.applyRec_keeps
    | with_reducible apply State.damaged_keeps
    | with_reducible apply State.fromCkpt_keeps
    | with_reducible apply State.markAll_keeps
    | with_reducible refine State.keeps_upMap _ ?_ ?_
    | with_reducible refine State.keeps_upPwr _ ?_ ?_
    | with_reducible assumption
    | with_reducible refine keeps_ite ?_ ?_
    | with_reducible refine keeps_foldl (fun _ _ _ => ?_) ?_
    | with_reducible refine keeps_foldr (fun _ _ _ => ?_) ?_
    | with_reducible refine keepsP_ite ?_ ?_
    | with_reducible refine keepsP_foldl (fun _ _ _ => ?_) ?_
    | split
    | with_reducible refine KeepsP.snd ?_
    | with_reducible refine keepsP_mk ?_
    | with_reducible refine KeepsP.out (by assumption) ?_
theorem State.setGroup_keeps {P : List Part} {r : State} (g : Nat) (x : Group) (s : State)
    (sub : ∀ p, p ∈ [.pwr, .media, .map, .obs, .cmds] → p ∈ P) (h : r.keepsBut P s) : r.keepsBut P (State.setGroup g x s) := by
  unfold State.setGroup
  try dsimp only
  repeat' first
    | with_reducible exact h
    | (with_reducible refine sub _ ?_); decide
    | (with_reducible refine part_sub sub ?_); decide
    | with_reducible apply State.journal_keeps
    | with_reducible refine State.keeps_upMedia _ ?_ ?_
    | with_reducible assumption
    | with_reducible refine keeps_ite ?_ ?_
    | with_reducible refine keeps_foldl (fun _ _ _ => ?_) ?_
    | split
theorem State.dropLap_keeps {P : List Part} {r : State} (s : State)
    (sub : ∀ p, p ∈ [.map] → p ∈ P) (h : r.keepsBut P s) : r.keepsBut P (State.dropLap s) := by
  unfold State.dropLap
  try dsimp only
  repeat' first
    | with_reducible exact h
    | (with_reducible refine sub _ ?_); decide
    | (with_reducible refine part_sub sub ?_); decide
    | with_reducible refine State.keeps_upMap _ ?_ ?_
    | with_reducible assumption
    | with_reducible refine keeps_ite ?_ ?_
    | with_reducible refine keeps_foldl (fun _ _ _ => ?_) ?_
    | split
theorem State.abandonPrograms_keeps {P : List Part} {r : State} (s : State)
    (sub : ∀ p, p ∈ [.pwr, .tier, .budget, .media, .map, .care, .reg, .obs, .cmds] → p ∈ P) (h : r.keepsBut P s) : r.keepsBut P (State.abandonPrograms s) := by
  unfold State.abandonPrograms
  try dsimp only
  repeat' first
    | with_reducible exact h
    | (with_reducible refine sub _ ?_); decide
    | (with_reducible refine part_sub sub ?_); decide
    | with_reducible apply State.dropLap_keeps
    | with_reducible apply State.setGroup_keeps
    | with_reducible refine State.keeps_upBudget _ ?_ ?_
    | with_reducible refine State.keeps_upCare _ ?_ ?_
    | with_reducible refine State.keeps_upMedia _ ?_ ?_
    | with_reducible refine State.keeps_upReg _ ?_ ?_
    | with_reducible refine State.keeps_upTier _ ?_ ?_
    | with_reducible assumption
    | with_reducible refine keeps_ite ?_ ?_
    | with_reducible refine keeps_foldl (fun _ _ _ => ?_) ?_
    | split
theorem State.unchargeAll_keeps {P : List Part} {r : State} (s : State)
    (sub : ∀ p, p ∈ [.budget] → p ∈ P) (h : r.keepsBut P s) : r.keepsBut P (State.unchargeAll s) := by
  unfold State.unchargeAll
  try dsimp only
  repeat' first
    | with_reducible exact h
    | (with_reducible refine sub _ ?_); decide
    | (with_reducible refine part_sub sub ?_); decide
    | with_reducible apply State.uncharge_keeps
    | with_reducible assumption
    | with_reducible refine keeps_ite ?_ ?_
    | with_reducible refine keeps_foldl (fun _ _ _ => ?_) ?_
    | split
theorem State.keepAdmitted_keeps {P : List Part} {r : State} (s : State)
    (sub : ∀ p, p ∈ [.pwr, .reqs, .map, .obs, .cmds] → p ∈ P) (h : r.keepsBut P s) : r.keepsBut P (State.keepAdmitted s) := by
  unfold State.keepAdmitted
  try dsimp only
  repeat' first
    | with_reducible exact h
    | (with_reducible refine sub _ ?_); decide
    | (with_reducible refine part_sub sub ?_); decide
    | with_reducible apply State.mark_keeps
    | with_reducible apply State.markSole_keeps
    | with_reducible refine State.keeps_upReqs _ ?_ ?_
    | with_reducible assumption
    | with_reducible refine keeps_ite ?_ ?_
    | with_reducible refine keeps_foldl (fun _ _ _ => ?_) ?_
    | split
theorem State.dropRequests_keeps {P : List Part} {r : State} (s : State)
    (sub : ∀ p, p ∈ [.port, .reqs, .mbox] → p ∈ P) (h : r.keepsBut P s) : r.keepsBut P (State.dropRequests s) := by
  unfold State.dropRequests
  try dsimp only
  repeat' first
    | with_reducible exact h
    | (with_reducible refine sub _ ?_); decide
    | (with_reducible refine part_sub sub ?_); decide
    | with_reducible refine State.keeps_upMbox _ ?_ ?_
    | with_reducible refine State.keeps_upPort _ ?_ ?_
    | with_reducible refine State.keeps_upReqs _ ?_ ?_
    | with_reducible assumption
    | with_reducible refine keeps_ite ?_ ?_
    | with_reducible refine keeps_foldl (fun _ _ _ => ?_) ?_
    | split
theorem State.dropMisses_keeps {P : List Part} {r : State} (s : State)
    (sub : ∀ p, p ∈ [.fc, .slices] → p ∈ P) (h : r.keepsBut P s) : r.keepsBut P (State.dropMisses s) := by
  unfold State.dropMisses
  try dsimp only
  repeat' first
    | with_reducible exact h
    | (with_reducible refine sub _ ?_); decide
    | (with_reducible refine part_sub sub ?_); decide
    | with_reducible refine State.keeps_upFc _ ?_ ?_
    | with_reducible refine State.keeps_upSlices _ ?_ ?_
    | with_reducible assumption
    | with_reducible refine keeps_ite ?_ ?_
    | with_reducible refine keeps_foldl (fun _ _ _ => ?_) ?_
    | split
theorem State.linkDown_keeps {P : List Part} {r : State} (s : State)
    (sub : ∀ p, p ∈ [.port] → p ∈ P) (h : r.keepsBut P s) : r.keepsBut P (State.linkDown s) := by
  unfold State.linkDown
  try dsimp only
  repeat' first
    | with_reducible exact h
    | (with_reducible refine sub _ ?_); decide
    | (with_reducible refine part_sub sub ?_); decide
    | with_reducible refine State.keeps_upPort _ ?_ ?_
    | with_reducible assumption
    | with_reducible refine keeps_ite ?_ ?_
    | with_reducible refine keeps_foldl (fun _ _ _ => ?_) ?_
    | split
theorem State.clearAtomics_keeps {P : List Part} {r : State} (s : State)
    (sub : ∀ p, p ∈ [.atom] → p ∈ P) (h : r.keepsBut P s) : r.keepsBut P (State.clearAtomics s) := by
  unfold State.clearAtomics
  try dsimp only
  repeat' first
    | with_reducible exact h
    | (with_reducible refine sub _ ?_); decide
    | (with_reducible refine part_sub sub ?_); decide
    | with_reducible apply State.clearReservations_keeps
    | with_reducible refine State.keeps_upAtom _ ?_ ?_
    | with_reducible assumption
    | with_reducible refine keeps_ite ?_ ?_
    | with_reducible refine keeps_foldl (fun _ _ _ => ?_) ?_
    | split
theorem State.clearVolatile_keeps {P : List Part} {r : State} (s : State)
    (sub : ∀ p, p ∈ [.pwr, .port, .reqs, .fc, .tier, .slices, .budget, .media, .map, .care, .atom, .keys, .reg, .dict, .mbox, .obs, .perf, .fw, .cmds] → p ∈ P) (h : r.keepsBut P s) : r.keepsBut P (State.clearVolatile s) := by
  unfold State.clearVolatile
  try dsimp only
  repeat' first
    | with_reducible exact h
    | (with_reducible refine sub _ ?_); decide
    | (with_reducible refine part_sub sub ?_); decide
    | with_reducible apply State.abandonPrograms_keeps
    | with_reducible apply State.clearAtomics_keeps
    | with_reducible apply State.dropMisses_keeps
    | with_reducible apply State.dropRequests_keeps
    | with_reducible refine State.keeps_upCmds _ ?_ ?_
    | with_reducible refine State.keeps_upDict _ ?_ ?_
    | with_reducible refine State.keeps_upFw _ ?_ ?_
    | with_reducible refine State.keeps_upKeys _ ?_ ?_
    | with_reducible refine State.keeps_upMbox _ ?_ ?_
    | with_reducible refine State.keeps_upObs _ ?_ ?_
    | with_reducible refine State.keeps_upPerf _ ?_ ?_
    | with_reducible refine State.keeps_upReqs _ ?_ ?_
    | with_reducible refine State.keeps_upSlices _ ?_ ?_
    | with_reducible assumption
    | with_reducible refine keeps_ite ?_ ?_
    | with_reducible refine keeps_foldl (fun _ _ _ => ?_) ?_
    | split
theorem State.saveLine_keeps {P : List Part} {r : State} (bad : List Nat) (line : Nat) (x : FcLine) (s : State)
    (sub : ∀ p, p ∈ [.pwr, .reqs, .fc, .tier, .slices, .budget, .media, .map, .reg, .obs, .perf, .rstats, .cmds] → p ∈ P) (h : r.keepsBut P s) : r.keepsBut P (State.saveLine bad line x s) := by
  unfold State.saveLine
  try dsimp only
  repeat' first
    | with_reducible exact h
    | (with_reducible refine sub _ ?_); decide
    | (with_reducible refine part_sub sub ?_); decide
    | with_reducible apply State.dropLine_keeps
    | with_reducible apply State.fcDrop_keeps
    | with_reducible apply State.fcPut_keeps
    | with_reducible apply State.moveToTier_keeps
    | with_reducible apply State.poison_keeps
    | with_reducible refine State.keeps_upPwr _ ?_ ?_
    | with_reducible assumption
    | with_reducible refine keeps_ite ?_ ?_
    | with_reducible refine keeps_foldl (fun _ _ _ => ?_) ?_
    | with_reducible exact keepsO_get (by assumption)
    | with_reducible refine keepsO_map (fun _ _ => ?_) ?_
    | with_reducible refine keepsO_foldl (fun _ _ _ => ?_) ?_
    | exact keepsO_none
    | with_reducible refine keepsO_some ?_
    | split
    | with_reducible refine KeepsO.out (by assumption) ?_
theorem State.saveFrontCache_keeps {P : List Part} {r : State} (bad : List Nat) (s : State)
    (sub : ∀ p, p ∈ [.pwr, .reqs, .fc, .tier, .slices, .budget, .media, .map, .reg, .obs, .perf, .rstats, .cmds] → p ∈ P) (h : r.keepsBut P s) : r.keepsBut P (State.saveFrontCache bad s) := by
  unfold State.saveFrontCache
  try dsimp only
  repeat' first
    | with_reducible exact h
    | (with_reducible refine sub _ ?_); decide
    | (with_reducible refine part_sub sub ?_); decide
    | with_reducible apply State.saveLine_keeps
    | with_reducible refine State.keeps_upFc _ ?_ ?_
    | with_reducible assumption
    | with_reducible refine keeps_ite ?_ ?_
    | with_reducible refine keeps_foldl (fun _ _ _ => ?_) ?_
    | split
theorem State.resumeGen_keeps {P : List Part} {r : State} (s : State)
    (sub : ∀ p, p ∈ [.media, .obs, .perf] → p ∈ P) (h : r.keepsBut P s) : r.keepsBut P (State.resumeGen s) := by
  unfold State.resumeGen
  try dsimp only
  repeat' first
    | with_reducible exact h
    | (with_reducible refine sub _ ?_); decide
    | (with_reducible refine part_sub sub ?_); decide
    | with_reducible apply State.save_keeps
    | with_reducible refine State.keeps_upMedia _ ?_ ?_
    | with_reducible assumption
    | with_reducible refine keeps_ite ?_ ?_
    | with_reducible refine keeps_foldl (fun _ _ _ => ?_) ?_
    | split
theorem State.refill_keeps {P : List Part} {r : State} (s : State)
    (sub : ∀ p, p ∈ [.reqs, .tier, .slices, .budget, .media, .reg, .obs, .perf, .rstats] → p ∈ P) (h : r.keepsBut P s) : r.keepsBut P (State.refill s) := by
  unfold State.refill
  try dsimp only
  repeat' first
    | with_reducible exact h
    | (with_reducible refine sub _ ?_); decide
    | (with_reducible refine part_sub sub ?_); decide
    | with_reducible apply State.issueFill_keeps
    | with_reducible apply State.startBase_keeps
    | with_reducible assumption
    | with_reducible refine keeps_ite ?_ ?_
    | with_reducible refine keeps_foldl (fun _ _ _ => ?_) ?_
    | split
theorem State.mapCold_keeps {P : List Part} {r : State} (s : State)
    (sub : ∀ p, p ∈ [.map] → p ∈ P) (h : r.keepsBut P s) : r.keepsBut P (State.mapCold s) := by
  unfold State.mapCold
  try dsimp only
  repeat' first
    | with_reducible exact h
    | (with_reducible refine sub _ ?_); decide
    | (with_reducible refine part_sub sub ?_); decide
    | with_reducible refine State.keeps_upMap _ ?_ ?_
    | with_reducible assumption
    | with_reducible refine keeps_ite ?_ ?_
    | with_reducible refine keeps_foldl (fun _ _ _ => ?_) ?_
    | split
theorem State.closeOpen_keeps {P : List Part} {r : State} (s : State)
    (sub : ∀ p, p ∈ [.pwr, .media, .map, .obs, .cmds] → p ∈ P) (h : r.keepsBut P s) : r.keepsBut P (State.closeOpen s) := by
  unfold State.closeOpen
  try dsimp only
  repeat' first
    | with_reducible exact h
    | (with_reducible refine sub _ ?_); decide
    | (with_reducible refine part_sub sub ?_); decide
    | with_reducible apply State.setGroup_keeps
    | with_reducible refine State.keeps_upMedia _ ?_ ?_
    | with_reducible assumption
    | with_reducible refine keeps_ite ?_ ?_
    | with_reducible refine keeps_foldl (fun _ _ _ => ?_) ?_
    | split
theorem State.boundFail_keeps {P : List Part} {r : State} (b : Nat) (lasting : Bool) (s : State)
    (sub : ∀ p, p ∈ [.obs, .rstats] → p ∈ P) (h : r.keepsBut P s) : r.keepsBut P (State.boundFail b lasting s) := by
  unfold State.boundFail
  try dsimp only
  repeat' first
    | with_reducible exact h
    | (with_reducible refine sub _ ?_); decide
    | (with_reducible refine part_sub sub ?_); decide
    | with_reducible apply State.log_keeps
    | with_reducible refine State.keeps_upRstats _ ?_ ?_
    | with_reducible assumption
    | with_reducible refine keeps_ite ?_ ?_
    | with_reducible refine keeps_foldl (fun _ _ _ => ?_) ?_
    | split
theorem State.boundStart_keeps {P : List Part} {r : State} (s : State)
    (sub : ∀ p, p ∈ [.obs, .rstats] → p ∈ P) (h : r.keepsBut P s) : r.keepsBut P (State.boundStart s) := by
  unfold State.boundStart
  try dsimp only
  repeat' first
    | with_reducible exact h
    | (with_reducible refine sub _ ?_); decide
    | (with_reducible refine part_sub sub ?_); decide
    | with_reducible apply State.log_keeps
    | with_reducible refine State.keeps_upRstats _ ?_ ?_
    | with_reducible assumption
    | with_reducible refine keeps_ite ?_ ?_
    | with_reducible refine keeps_foldl (fun _ _ _ => ?_) ?_
    | split
theorem State.boundEnd_keeps {P : List Part} {r : State} (b : Nat) (s : State)
    (sub : ∀ p, p ∈ [.rstats] → p ∈ P) (h : r.keepsBut P s) : r.keepsBut P (State.boundEnd b s) := by
  unfold State.boundEnd
  try dsimp only
  repeat' first
    | with_reducible exact h
    | (with_reducible refine sub _ ?_); decide
    | (with_reducible refine part_sub sub ?_); decide
    | with_reducible refine State.keeps_upRstats _ ?_ ?_
    | with_reducible assumption
    | with_reducible refine keeps_ite ?_ ?_
    | with_reducible refine keeps_foldl (fun _ _ _ => ?_) ?_
    | split
theorem State.setBatch_keeps {P : List Part} {r : State} (x0 : Role) (b : List StageRec) (s : State)
    (sub : ∀ p, p ∈ [.dict] → p ∈ P) (h : r.keepsBut P s) : r.keepsBut P (State.setBatch x0 b s) := by
  unfold State.setBatch
  try dsimp only
  repeat' first
    | with_reducible exact h
    | (with_reducible refine sub _ ?_); decide
    | (with_reducible refine part_sub sub ?_); decide
    | with_reducible refine State.keeps_upDict _ ?_ ?_
    | with_reducible assumption
    | with_reducible refine keeps_ite ?_ ?_
    | with_reducible refine keeps_foldl (fun _ _ _ => ?_) ?_
    | split
theorem State.endCommit_keeps {P : List Part} {r : State} (x0 : Role) (code : Nat) (entry : Nat) (s : State)
    (sub : ∀ p, p ∈ [.dict, .obs] → p ∈ P) (h : r.keepsBut P s) : r.keepsBut P (State.endCommit x0 code entry s) := by
  unfold State.endCommit
  try dsimp only
  repeat' first
    | with_reducible exact h
    | (with_reducible refine sub _ ?_); decide
    | (with_reducible refine part_sub sub ?_); decide
    | with_reducible apply State.log_keeps
    | with_reducible apply State.setBatch_keeps
    | with_reducible refine State.keeps_upDict _ ?_ ?_
    | with_reducible assumption
    | with_reducible refine keeps_ite ?_ ?_
    | with_reducible refine keeps_foldl (fun _ _ _ => ?_) ?_
    | split
theorem State.endWaiting_keeps {P : List Part} {r : State} (p : PairCommit) (code : Nat) (s : State)
    (sub : ∀ p, p ∈ [.dict, .mbox, .obs] → p ∈ P) (h : r.keepsBut P s) : r.keepsBut P (State.endWaiting p code s) := by
  unfold State.endWaiting
  try dsimp only
  repeat' first
    | with_reducible exact h
    | (with_reducible refine sub _ ?_); decide
    | (with_reducible refine part_sub sub ?_); decide
    | with_reducible apply State.endCommit_keeps
    | with_reducible apply State.reply_keeps
    | with_reducible assumption
    | with_reducible refine keeps_ite ?_ ?_
    | with_reducible refine keeps_foldl (fun _ _ _ => ?_) ?_
    | split
theorem State.dropCommits_keeps {P : List Part} {r : State} (s : State)
    (sub : ∀ p, p ∈ [.dict, .mbox, .obs] → p ∈ P) (h : r.keepsBut P s) : r.keepsBut P (State.dropCommits s) := by
  unfold State.dropCommits
  try dsimp only
  repeat' first
    | with_reducible exact h
    | (with_reducible refine sub _ ?_); decide
    | (with_reducible refine part_sub sub ?_); decide
    | with_reducible apply State.endWaiting_keeps
    | with_reducible apply State.log_keeps
    | with_reducible apply State.reply_keeps
    | with_reducible refine State.keeps_upDict _ ?_ ?_
    | with_reducible assumption
    | with_reducible refine keeps_ite ?_ ?_
    | with_reducible refine keeps_foldl (fun _ _ _ => ?_) ?_
    | split
theorem State.sweepLine_keeps {P : List Part} {r : State} (line : Nat) (f : CacheFault) (s : State)
    (sub : ∀ p, p ∈ [.pwr, .tier, .budget, .map, .dram, .gills, .obs, .cmds] → p ∈ P) (h : r.keepsBut P s) : r.keepsBut P (State.sweepLine line f s) := by
  unfold State.sweepLine
  try dsimp only
  repeat' first
    | with_reducible exact h
    | (with_reducible refine sub _ ?_); decide
    | (with_reducible refine part_sub sub ?_); decide
    | with_reducible apply State.poison_keeps
    | with_reducible apply State.putSector_keeps
    | with_reducible apply State.releaseAll_keeps
    | with_reducible refine State.keeps_upDram _ ?_ ?_
    | with_reducible refine State.keeps_upGills _ ?_ ?_
    | with_reducible refine State.keeps_upPwr _ ?_ ?_
    | with_reducible refine State.keeps_upTier _ ?_ ?_
    | with_reducible assumption
    | with_reducible refine keeps_ite ?_ ?_
    | with_reducible refine keeps_foldl (fun _ _ _ => ?_) ?_
    | split
theorem State.sweepKept_keeps {P : List Part} {r : State} (swept : List (Nat × CacheFault)) (s : State)
    (sub : ∀ p, p ∈ [.pwr, .tier, .budget, .map, .dram, .gills, .obs, .cmds] → p ∈ P) (h : r.keepsBut P s) : r.keepsBut P (State.sweepKept swept s) := by
  unfold State.sweepKept
  try dsimp only
  repeat' first
    | with_reducible exact h
    | (with_reducible refine sub _ ?_); decide
    | (with_reducible refine part_sub sub ?_); decide
    | with_reducible apply State.sweepLine_keeps
    | with_reducible assumption
    | with_reducible refine keeps_ite ?_ ?_
    | with_reducible refine keeps_foldl (fun _ _ _ => ?_) ?_
    | split
theorem State.controllerReset_keeps {P : List Part} {r : State} (source : Nat) (fcBad : List Nat) (swept : List (Nat × CacheFault)) (s : State)
    (sub : ∀ p, p ∈ [.pwr, .port, .reqs, .fc, .tier, .slices, .budget, .media, .map, .care, .yoke, .atom, .keys, .reg, .dram, .gills, .dict, .mbox, .obs, .perf, .rstats, .fw, .cmds] → p ∈ P) (h : r.keepsBut P s) : r.keepsBut P (State.controllerReset source fcBad swept s) := by
  unfold State.controllerReset
  try dsimp only
  repeat' first
    | with_reducible exact h
    | (with_reducible refine sub _ ?_); decide
    | (with_reducible refine part_sub sub ?_); decide
    | with_reducible apply State.clearVolatile_keeps
    | with_reducible apply State.closeOpen_keeps
    | with_reducible apply State.linkDown_keeps
    | with_reducible apply State.mapCold_keeps
    | with_reducible apply State.rebuildMap_keeps
    | with_reducible apply State.refill_keeps
    | with_reducible apply State.replayJournal_keeps
    | with_reducible apply State.resumeGen_keeps
    | with_reducible apply State.saveFrontCache_keeps
    | with_reducible apply State.standDown_keeps
    | with_reducible apply State.sweepKept_keeps
    | with_reducible apply State.unchargeAll_keeps
    | with_reducible apply State.undoAll_keeps
    | with_reducible refine State.keeps_upPwr _ ?_ ?_
    | with_reducible assumption
    | with_reducible refine keeps_ite ?_ ?_
    | with_reducible refine keeps_foldl (fun _ _ _ => ?_) ?_
    | split
theorem State.warmReset_keeps {P : List Part} {r : State} (s : State)
    (sub : ∀ p, p ∈ [.pwr, .port, .reqs, .fc, .tier, .slices, .budget, .media, .map, .care, .yoke, .atom, .keys, .reg, .dict, .mbox, .obs, .perf, .rstats, .cmds] → p ∈ P) (h : r.keepsBut P s) : r.keepsBut P (State.warmReset s) := by
  unfold State.warmReset
  try dsimp only
  repeat' first
    | with_reducible exact h
    | (with_reducible refine sub _ ?_); decide
    | (with_reducible refine part_sub sub ?_); decide
    | with_reducible apply State.abandonPrograms_keeps
    | with_reducible apply State.clearAtomics_keeps
    | with_reducible apply State.dropCommits_keeps
    | with_reducible apply State.dropMisses_keeps
    | with_reducible apply State.dropRequests_keeps
    | with_reducible apply State.keepAdmitted_keeps
    | with_reducible apply State.linkDown_keeps
    | with_reducible apply State.refill_keeps
    | with_reducible apply State.refreshSelf_keeps
    | with_reducible apply State.restartMember_keeps
    | with_reducible apply State.standDown_keeps
    | with_reducible refine State.keeps_upDict _ ?_ ?_
    | with_reducible refine State.keeps_upObs _ ?_ ?_
    | with_reducible refine State.keeps_upPwr _ ?_ ?_
    | with_reducible assumption
    | with_reducible refine keeps_ite ?_ ?_
    | with_reducible refine keeps_foldl (fun _ _ _ => ?_) ?_
    | split

end Sys2Proof.Machine
end

