-- ==== Sys2Proof/Laws/KeepsServe.lean ====
section
/-!
SUPPORT. What each operation of Machine/Serve.lean leaves unchanged: the groups of the state it may write, the others kept.
-/
namespace Sys2Proof.Machine

theorem State.refuseUnknown_keeps {P : List Part} {r : State} (key : Nat) (s : State)
    (sub : ∀ p, p ∈ [.port, .obs] → p ∈ P) (h : r.keepsBut P s) : r.keepsBut P (State.refuseUnknown key s) := by
  unfold State.refuseUnknown
  try dsimp only
  repeat' first
    | with_reducible exact h
    | (with_reducible refine sub _ ?_); decide
    | (with_reducible refine part_sub sub ?_); decide
    | with_reducible apply State.log_keeps
    | with_reducible refine State.keeps_upPort _ ?_ ?_
    | with_reducible assumption
    | with_reducible refine keeps_ite ?_ ?_
    | with_reducible refine keeps_foldl (fun _ _ _ => ?_) ?_
    | split
theorem State.refuseRight_keeps {P : List Part} {r : State} (code : Nat) (n : Nat) (addr : Nat) (s : State)
    (sub : ∀ p, p ∈ [.port, .obs] → p ∈ P) (h : r.keepsBut P s) : r.keepsBut P (State.refuseRight code n addr s) := by
  unfold State.refuseRight
  try dsimp only
  repeat' first
    | with_reducible exact h
    | (with_reducible refine sub _ ?_); decide
    | (with_reducible refine part_sub sub ?_); decide
    | with_reducible apply State.logFor_keeps
    | with_reducible refine State.keeps_upPort _ ?_ ?_
    | with_reducible assumption
    | with_reducible refine keeps_ite ?_ ?_
    | with_reducible refine keeps_foldl (fun _ _ _ => ?_) ?_
    | split
theorem State.pageWrite_keeps {P : List Part} {r : State} (n : Nat) (k : Nat) (d : Line) (m0 : Mask) (s : State)
    (sub : ∀ p, p ∈ [.port, .mbox] → p ∈ P) (h : r.keepsBut P s) : r.keepsBut P (State.pageWrite n k d m0 s) := by
  unfold State.pageWrite
  try dsimp only
  repeat' first
    | with_reducible exact h
    | (with_reducible refine sub _ ?_); decide
    | (with_reducible refine part_sub sub ?_); decide
    | with_reducible refine State.keeps_upMbox _ ?_ ?_
    | with_reducible refine State.keeps_upPort _ ?_ ?_
    | with_reducible assumption
    | with_reducible refine keeps_ite ?_ ?_
    | with_reducible refine keeps_foldl (fun _ _ _ => ?_) ?_
    | split
theorem State.refuseCond_keeps {P : List Part} {r : State} (n : Nat) (target : Nat) (s : State)
    (sub : ∀ p, p ∈ [.atom] → p ∈ P) (h : r.keepsBut P s) : r.keepsBut P (State.refuseCond n target s) := by
  unfold State.refuseCond
  try dsimp only
  repeat' first
    | with_reducible exact h
    | (with_reducible refine sub _ ?_); decide
    | (with_reducible refine part_sub sub ?_); decide
    | with_reducible apply State.countOutcome_keeps
    | with_reducible apply State.setStatus_keeps
    | with_reducible apply State.spendRes_keeps
    | with_reducible assumption
    | with_reducible refine keeps_ite ?_ ?_
    | with_reducible refine keeps_foldl (fun _ _ _ => ?_) ?_
    | split
theorem State.enqueue_keeps {P : List Part} {r : State} (x0 : Req) (s : State)
    (sub : ∀ p, p ∈ [.port, .reqs, .slices, .obs, .perf] → p ∈ P) (h : r.keepsBut P s) : r.keepsBut P (State.enqueue x0 s) := by
  unfold State.enqueue
  try dsimp only
  repeat' first
    | with_reducible exact h
    | (with_reducible refine sub _ ?_); decide
    | (with_reducible refine part_sub sub ?_); decide
    | with_reducible apply State.count_keeps
    | with_reducible apply State.countAt_keeps
    | with_reducible refine State.keeps_upPort _ ?_ ?_
    | with_reducible refine State.keeps_upReqs _ ?_ ?_
    | with_reducible refine State.keeps_upSlices _ ?_ ?_
    | with_reducible assumption
    | with_reducible refine keeps_ite ?_ ?_
    | with_reducible refine keeps_foldl (fun _ _ _ => ?_) ?_
    | split
theorem State.arrive_keeps {P : List Part} {r : State} (isWrite : Bool) (key0 : Nat) (addr : Nat) (tag : Nat) (d : Line) (be : Mask) (poison : Bool) (s : State)
    (sub : ∀ p, p ∈ [.port, .reqs, .slices, .atom, .mbox, .obs, .perf] → p ∈ P) (h : r.keepsBut P s) : r.keepsBut P (State.arrive isWrite key0 addr tag d be poison s) := by
  unfold State.arrive
  try dsimp only
  repeat' first
    | with_reducible exact h
    | (with_reducible refine sub _ ?_); decide
    | (with_reducible refine part_sub sub ?_); decide
    | with_reducible apply State.count_keeps
    | with_reducible apply State.enqueue_keeps
    | with_reducible apply State.pageWrite_keeps
    | with_reducible apply State.refuseCond_keeps
    | with_reducible apply State.refuseRight_keeps
    | with_reducible apply State.refuseUnknown_keeps
    | with_reducible apply State.respond_keeps
    | with_reducible refine State.keeps_upPort _ ?_ ?_
    | with_reducible assumption
    | with_reducible refine keeps_ite ?_ ?_
    | with_reducible refine keeps_foldl (fun _ _ _ => ?_) ?_
    | split
theorem State.refillTokens_keeps {P : List Part} {r : State} (s : State)
    (sub : ∀ p, p ∈ [.reg] → p ∈ P) (h : r.keepsBut P s) : r.keepsBut P (State.refillTokens s) := by
  unfold State.refillTokens
  try dsimp only
  repeat' first
    | with_reducible exact h
    | (with_reducible refine sub _ ?_); decide
    | (with_reducible refine part_sub sub ?_); decide
    | with_reducible refine State.keeps_upReg _ ?_ ?_
    | with_reducible assumption
    | with_reducible refine keeps_ite ?_ ?_
    | with_reducible refine keeps_foldl (fun _ _ _ => ?_) ?_
    | split
theorem State.nextReq_keeps {P : List Part} {r : State} (s0 : State) (slice : Nat)
    (sub : ∀ p, p ∈ [.reg] → p ∈ P) (h : r.keepsBut P s0) : KeepsOP r P (State.nextReq s0 slice) := by
  unfold State.nextReq
  try dsimp only
  repeat' first
    | with_reducible exact h
    | (with_reducible refine sub _ ?_); decide
    | (with_reducible refine part_sub sub ?_); decide
    | with_reducible apply State.nextClass_keeps
    | with_reducible apply State.refillTokens_keeps
    | with_reducible assumption
    | with_reducible refine keeps_ite ?_ ?_
    | with_reducible refine keeps_foldl (fun _ _ _ => ?_) ?_
    | with_reducible exact keepsO_get (by assumption)
    | with_reducible refine keepsO_map (fun _ _ => ?_) ?_
    | with_reducible refine keepsO_mapP (fun _ _ => ?_) ?_
    | with_reducible refine keepsO_foldl (fun _ _ _ => ?_) ?_
    | exact keepsO_none
    | with_reducible refine keepsO_some ?_
    | exact keepsOP_none
    | with_reducible refine keepsOP_some ?_
    | with_reducible refine keepsP_ite ?_ ?_
    | with_reducible refine keepsP_foldl (fun _ _ _ => ?_) ?_
    | split
    | with_reducible refine KeepsP.snd ?_
    | with_reducible refine keepsP_mk ?_
    | with_reducible refine KeepsP.out (by assumption) ?_
    | with_reducible refine KeepsOP.outp (by assumption) ?_
    | with_reducible refine KeepsOP.out (by assumption) ?_
theorem State.admitRead_keeps {P : List Part} {r : State} (c : Nat) (s : State)
    (sub : ∀ p, p ∈ [.reg, .obs, .rstats] → p ∈ P) (h : r.keepsBut P s) : r.keepsBut P (State.admitRead c s) := by
  unfold State.admitRead
  try dsimp only
  repeat' first
    | with_reducible exact h
    | (with_reducible refine sub _ ?_); decide
    | (with_reducible refine part_sub sub ?_); decide
    | with_reducible apply State.boundFail_keeps
    | with_reducible refine State.keeps_upReg _ ?_ ?_
    | with_reducible assumption
    | with_reducible refine keeps_ite ?_ ?_
    | with_reducible refine keeps_foldl (fun _ _ _ => ?_) ?_
    | split
theorem State.reserve_keeps {P : List Part} {r : State} (x0 : Req) (s : State)
    (sub : ∀ p, p ∈ [.atom] → p ∈ P) (h : r.keepsBut P s) : r.keepsBut P (State.reserve x0 s) := by
  unfold State.reserve
  try dsimp only
  repeat' first
    | with_reducible exact h
    | (with_reducible refine sub _ ?_); decide
    | (with_reducible refine part_sub sub ?_); decide
    | with_reducible apply State.endRes_keeps
    | with_reducible refine State.keeps_upAtom _ ?_ ?_
    | with_reducible assumption
    | with_reducible refine keeps_ite ?_ ?_
    | with_reducible refine keeps_foldl (fun _ _ _ => ?_) ?_
    | split
theorem State.resRoom_keeps {P : List Part} {r : State} (x0 : Req) (s : State)
    (sub : ∀ p, p ∈ [.atom] → p ∈ P) (h : r.keepsBut P s) : KeepsO r P (State.resRoom x0 s) := by
  unfold State.resRoom
  try dsimp only
  repeat' first
    | with_reducible exact h
    | (with_reducible refine sub _ ?_); decide
    | (with_reducible refine part_sub sub ?_); decide
    | with_reducible apply State.endRes_keeps
    | with_reducible assumption
    | with_reducible refine keeps_ite ?_ ?_
    | with_reducible refine keeps_foldl (fun _ _ _ => ?_) ?_
    | with_reducible exact keepsO_get (by assumption)
    | with_reducible refine keepsO_map (fun _ _ => ?_) ?_
    | with_reducible refine keepsO_foldl (fun _ _ _ => ?_) ?_
    | exact keepsO_none
    | with_reducible refine keepsO_some ?_
    | split
    | with_reducible refine KeepsO.out (by assumption) ?_
theorem State.finishRead_keeps {P : List Part} {r : State} (x0 : Req) (d : Line) (s : State)
    (sub : ∀ p, p ∈ [.pwr, .port, .reqs, .slices, .care, .yoke, .atom, .reg, .mbox, .obs, .perf, .firkin, .rstats, .cmds] → p ∈ P) (h : r.keepsBut P s) : r.keepsBut P (State.finishRead x0 d s) := by
  unfold State.finishRead
  try dsimp only
  repeat' first
    | with_reducible exact h
    | (with_reducible refine sub _ ?_); decide
    | (with_reducible refine part_sub sub ?_); decide
    | with_reducible apply State.answer_keeps
    | with_reducible apply State.count_keeps
    | with_reducible apply State.resRoom_keeps
    | with_reducible apply State.reserve_keeps
    | with_reducible apply State.stageReq_keeps
    | with_reducible assumption
    | with_reducible refine keeps_ite ?_ ?_
    | with_reducible refine keeps_foldl (fun _ _ _ => ?_) ?_
    | with_reducible exact keepsO_get (by assumption)
    | with_reducible refine keepsO_map (fun _ _ => ?_) ?_
    | with_reducible refine keepsO_foldl (fun _ _ _ => ?_) ?_
    | exact keepsO_none
    | with_reducible refine keepsO_some ?_
    | split
    | with_reducible refine KeepsO.out (by assumption) ?_
theorem State.tagLookup_keeps {P : List Part} {r : State} (sec : Nat) (s : State)
    (sub : ∀ p, p ∈ [.tier] → p ∈ P) (h : r.keepsBut P s) : r.keepsBut P (State.tagLookup sec s) := by
  unfold State.tagLookup
  try dsimp only
  repeat' first
    | with_reducible exact h
    | (with_reducible refine sub _ ?_); decide
    | (with_reducible refine part_sub sub ?_); decide
    | with_reducible refine State.keeps_upTier _ ?_ ?_
    | with_reducible assumption
    | with_reducible refine keeps_ite ?_ ?_
    | with_reducible refine keeps_foldl (fun _ _ _ => ?_) ?_
    | split
theorem State.takeTag_keeps {P : List Part} {r : State} (s : State)
    (sub : ∀ p, p ∈ [.yoke] → p ∈ P) (h : r.keepsBut P s) : KeepsP r P (State.takeTag s) := by
  unfold State.takeTag
  try dsimp only
  repeat' first
    | with_reducible exact h
    | (with_reducible refine sub _ ?_); decide
    | (with_reducible refine part_sub sub ?_); decide
    | with_reducible refine State.keeps_upYoke _ ?_ ?_
    | with_reducible assumption
    | with_reducible refine keeps_ite ?_ ?_
    | with_reducible refine keeps_foldl (fun _ _ _ => ?_) ?_
    | with_reducible refine keepsP_ite ?_ ?_
    | with_reducible refine keepsP_foldl (fun _ _ _ => ?_) ?_
    | split
    | with_reducible refine KeepsP.snd ?_
    | with_reducible refine keepsP_mk ?_
    | with_reducible refine KeepsP.out (by assumption) ?_
theorem State.forwardRead_keeps {P : List Part} {r : State} (x0 : Req) (s : State)
    (sub : ∀ p, p ∈ [.reqs, .yoke, .obs, .perf] → p ∈ P) (h : r.keepsBut P s) : r.keepsBut P (State.forwardRead x0 s) := by
  unfold State.forwardRead
  try dsimp only
  repeat' first
    | with_reducible exact h
    | (with_reducible refine sub _ ?_); decide
    | (with_reducible refine part_sub sub ?_); decide
    | with_reducible apply State.send_keeps
    | with_reducible apply State.stageReq_keeps
    | with_reducible apply State.takeTag_keeps
    | with_reducible refine State.keeps_upYoke _ ?_ ?_
    | with_reducible assumption
    | with_reducible refine keeps_ite ?_ ?_
    | with_reducible refine keeps_foldl (fun _ _ _ => ?_) ?_
    | with_reducible refine keepsP_ite ?_ ?_
    | with_reducible refine keepsP_foldl (fun _ _ _ => ?_) ?_
    | split
    | with_reducible refine KeepsP.snd ?_
    | with_reducible refine keepsP_mk ?_
    | with_reducible refine KeepsP.out (by assumption) ?_
theorem State.wakeSlice_keeps {P : List Part} {r : State} (slice : Nat) (s : State)
    (sub : ∀ p, p ∈ [.slices] → p ∈ P) (h : r.keepsBut P s) : r.keepsBut P (State.wakeSlice slice s) := by
  unfold State.wakeSlice
  try dsimp only
  repeat' first
    | with_reducible exact h
    | (with_reducible refine sub _ ?_); decide
    | (with_reducible refine part_sub sub ?_); decide
    | with_reducible refine State.keeps_upSlices _ ?_ ?_
    | with_reducible assumption
    | with_reducible refine keeps_ite ?_ ?_
    | with_reducible refine keeps_foldl (fun _ _ _ => ?_) ?_
    | split
theorem State.attach_keeps {P : List Part} {r : State} (x0 : Req) (s : State)
    (sub : ∀ p, p ∈ [.reqs, .obs, .rstats] → p ∈ P) (h : r.keepsBut P s) : r.keepsBut P (State.attach x0 s) := by
  unfold State.attach
  try dsimp only
  repeat' first
    | with_reducible exact h
    | (with_reducible refine sub _ ?_); decide
    | (with_reducible refine part_sub sub ?_); decide
    | with_reducible apply State.boundFail_keeps
    | with_reducible apply State.stageReq_keeps
    | with_reducible refine State.keeps_upRstats _ ?_ ?_
    | with_reducible assumption
    | with_reducible refine keeps_ite ?_ ?_
    | with_reducible refine keeps_foldl (fun _ _ _ => ?_) ?_
    | split
theorem State.readBelow_keeps {P : List Part} {r : State} (x0 : Req) (s : State)
    (sub : ∀ p, p ∈ [.pwr, .port, .reqs, .fc, .tier, .slices, .budget, .media, .care, .yoke, .atom, .reg, .mbox, .obs, .perf, .firkin, .rstats, .cmds] → p ∈ P) (h : r.keepsBut P s) : r.keepsBut P (State.readBelow x0 s) := by
  unfold State.readBelow
  try dsimp only
  repeat' first
    | with_reducible exact h
    | (with_reducible refine sub _ ?_); decide
    | (with_reducible refine part_sub sub ?_); decide
    | with_reducible apply State.admitRead_keeps
    | with_reducible apply State.attach_keeps
    | with_reducible apply State.count_keeps
    | with_reducible apply State.fcFill_keeps
    | with_reducible apply State.finishRead_keeps
    | with_reducible apply State.mapTouch_keeps
    | with_reducible apply State.stageReq_keeps
    | with_reducible apply State.startFetch_keeps
    | with_reducible apply State.tagLookup_keeps
    | with_reducible apply State.tierTouch_keeps
    | with_reducible refine State.keeps_upTier _ ?_ ?_
    | with_reducible assumption
    | with_reducible refine keeps_ite ?_ ?_
    | with_reducible refine keeps_foldl (fun _ _ _ => ?_) ?_
    | split
theorem State.noteAccess_keeps {P : List Part} {r : State} (hit : Bool) (x1 : Req) (s : State)
    (sub : ∀ p, p ∈ [.fc, .obs, .perf] → p ∈ P) (h : r.keepsBut P s) : r.keepsBut P (State.noteAccess hit x1 s) := by
  unfold State.noteAccess
  try dsimp only
  repeat' first
    | with_reducible exact h
    | (with_reducible refine sub _ ?_); decide
    | (with_reducible refine part_sub sub ?_); decide
    | with_reducible apply State.countAt_keeps
    | with_reducible refine State.keeps_upFc _ ?_ ?_
    | with_reducible assumption
    | with_reducible refine keeps_ite ?_ ?_
    | with_reducible refine keeps_foldl (fun _ _ _ => ?_) ?_
    | split
theorem State.serveRead_keeps {P : List Part} {r : State} (x0 : Req) (s : State)
    (sub : ∀ p, p ∈ [.pwr, .port, .reqs, .fc, .tier, .slices, .budget, .media, .care, .yoke, .atom, .reg, .mbox, .obs, .perf, .firkin, .rstats, .cmds] → p ∈ P) (h : r.keepsBut P s) : r.keepsBut P (State.serveRead x0 s) := by
  unfold State.serveRead
  try dsimp only
  repeat' first
    | with_reducible exact h
    | (with_reducible refine sub _ ?_); decide
    | (with_reducible refine part_sub sub ?_); decide
    | with_reducible apply State.count_keeps
    | with_reducible apply State.fcTouch_keeps
    | with_reducible apply State.finishRead_keeps
    | with_reducible apply State.forwardRead_keeps
    | with_reducible apply State.moveToTier_keeps
    | with_reducible apply State.noteAccess_keeps
    | with_reducible apply State.readBelow_keeps
    | with_reducible apply State.stageReq_keeps
    | with_reducible apply State.wakeSlice_keeps
    | with_reducible refine State.keeps_upFc _ ?_ ?_
    | with_reducible assumption
    | with_reducible refine keeps_ite ?_ ?_
    | with_reducible refine keeps_foldl (fun _ _ _ => ?_) ?_
    | with_reducible exact keepsO_get (by assumption)
    | with_reducible refine keepsO_map (fun _ _ => ?_) ?_
    | with_reducible refine keepsO_foldl (fun _ _ _ => ?_) ?_
    | exact keepsO_none
    | with_reducible refine keepsO_some ?_
    | split
    | with_reducible refine KeepsO.out (by assumption) ?_
theorem State.brineDrop_keeps {P : List Part} {r : State} (line : Nat) (s : State)
    (sub : ∀ p, p ∈ [.pwr, .map, .care, .obs, .cmds] → p ∈ P) (h : r.keepsBut P s) : r.keepsBut P (State.brineDrop line s) := by
  unfold State.brineDrop
  try dsimp only
  repeat' first
    | with_reducible exact h
    | (with_reducible refine sub _ ?_); decide
    | (with_reducible refine part_sub sub ?_); decide
    | with_reducible apply State.poison_keeps
    | with_reducible refine State.keeps_upCare _ ?_ ?_
    | with_reducible assumption
    | with_reducible refine keeps_ite ?_ ?_
    | with_reducible refine keeps_foldl (fun _ _ _ => ?_) ?_
    | split
theorem State.notePoison_keeps {P : List Part} {r : State} (x0 : Req) (s : State)
    (sub : ∀ p, p ∈ [.obs] → p ∈ P) (h : r.keepsBut P s) : r.keepsBut P (State.notePoison x0 s) := by
  unfold State.notePoison
  try dsimp only
  repeat' first
    | with_reducible exact h
    | (with_reducible refine sub _ ?_); decide
    | (with_reducible refine part_sub sub ?_); decide
    | with_reducible apply State.logFor_keeps
    | with_reducible assumption
    | with_reducible refine keeps_ite ?_ ?_
    | with_reducible refine keeps_foldl (fun _ _ _ => ?_) ?_
    | split
theorem State.dirtyAtPeer_keeps {P : List Part} {r : State} (g : Nat) (s : State)
    (sub : ∀ p, p ∈ [.yoke] → p ∈ P) (h : r.keepsBut P s) : r.keepsBut P (State.dirtyAtPeer g s) := by
  unfold State.dirtyAtPeer
  try dsimp only
  repeat' first
    | with_reducible exact h
    | (with_reducible refine sub _ ?_); decide
    | (with_reducible refine part_sub sub ?_); decide
    | with_reducible refine State.keeps_upYoke _ ?_ ?_
    | with_reducible assumption
    | with_reducible refine keeps_ite ?_ ?_
    | with_reducible refine keeps_foldl (fun _ _ _ => ?_) ?_
    | split
theorem State.mirrorOut_keeps {P : List Part} {r : State} (x0 : Req) (s : State)
    (sub : ∀ p, p ∈ [.reqs, .yoke, .obs, .perf] → p ∈ P) (h : r.keepsBut P s) : r.keepsBut P (State.mirrorOut x0 s) := by
  unfold State.mirrorOut
  try dsimp only
  repeat' first
    | with_reducible exact h
    | (with_reducible refine sub _ ?_); decide
    | (with_reducible refine part_sub sub ?_); decide
    | with_reducible apply State.count_keeps
    | with_reducible apply State.dirtyAtPeer_keeps
    | with_reducible apply State.send_keeps
    | with_reducible apply State.stageReq_keeps
    | with_reducible apply State.takeTag_keeps
    | with_reducible refine State.keeps_upYoke _ ?_ ?_
    | with_reducible assumption
    | with_reducible refine keeps_ite ?_ ?_
    | with_reducible refine keeps_foldl (fun _ _ _ => ?_) ?_
    | with_reducible refine keepsP_ite ?_ ?_
    | with_reducible refine keepsP_foldl (fun _ _ _ => ?_) ?_
    | split
    | with_reducible refine KeepsP.snd ?_
    | with_reducible refine keepsP_mk ?_
    | with_reducible refine KeepsP.out (by assumption) ?_
theorem State.forwardOut_keeps {P : List Part} {r : State} (x0 : Req) (conditional : Bool) (s : State)
    (sub : ∀ p, p ∈ [.reqs, .yoke, .obs, .perf] → p ∈ P) (h : r.keepsBut P s) : r.keepsBut P (State.forwardOut x0 conditional s) := by
  unfold State.forwardOut
  try dsimp only
  repeat' first
    | with_reducible exact h
    | (with_reducible refine sub _ ?_); decide
    | (with_reducible refine part_sub sub ?_); decide
    | with_reducible apply State.count_keeps
    | with_reducible apply State.send_keeps
    | with_reducible apply State.stageReq_keeps
    | with_reducible apply State.takeTag_keeps
    | with_reducible refine State.keeps_upYoke _ ?_ ?_
    | with_reducible assumption
    | with_reducible refine keeps_ite ?_ ?_
    | with_reducible refine keeps_foldl (fun _ _ _ => ?_) ?_
    | with_reducible refine keepsP_ite ?_ ?_
    | with_reducible refine keepsP_foldl (fun _ _ _ => ?_) ?_
    | split
    | with_reducible refine KeepsP.snd ?_
    | with_reducible refine keepsP_mk ?_
    | with_reducible refine KeepsP.out (by assumption) ?_
theorem State.missWrite_keeps {P : List Part} {r : State} (x0 : Req) (s : State)
    (sub : ∀ p, p ∈ [.fc, .tier, .slices] → p ∈ P) (h : r.keepsBut P s) : r.keepsBut P (State.missWrite x0 s) := by
  unfold State.missWrite
  try dsimp only
  repeat' first
    | with_reducible exact h
    | (with_reducible refine sub _ ?_); decide
    | (with_reducible refine part_sub sub ?_); decide
    | with_reducible apply State.tagLookup_keeps
    | with_reducible apply State.wakeSlice_keeps
    | with_reducible refine State.keeps_upFc _ ?_ ?_
    | with_reducible assumption
    | with_reducible refine keeps_ite ?_ ?_
    | with_reducible refine keeps_foldl (fun _ _ _ => ?_) ?_
    | split
theorem State.storeWrite_keeps {P : List Part} {r : State} (x0 : Req) (s : State)
    (sub : ∀ p, p ∈ [.pwr, .port, .reqs, .fc, .tier, .slices, .budget, .media, .map, .care, .yoke, .atom, .reg, .mbox, .obs, .perf, .firkin, .rstats, .cmds] → p ∈ P) (h : r.keepsBut P s) : r.keepsBut P (State.storeWrite x0 s) := by
  unfold State.storeWrite
  try dsimp only
  repeat' first
    | with_reducible exact h
    | (with_reducible refine sub _ ?_); decide
    | (with_reducible refine part_sub sub ?_); decide
    | with_reducible apply State.answer_keeps
    | with_reducible apply State.applyWrite_keeps
    | with_reducible apply State.brineDrop_keeps
    | with_reducible apply State.chargeFor_keeps
    | with_reducible apply State.completeWrite_keeps
    | with_reducible apply State.count_keeps
    | with_reducible apply State.keepBefore_keeps
    | with_reducible apply State.mirrorOut_keeps
    | with_reducible apply State.missWrite_keeps
    | with_reducible apply State.noteAccess_keeps
    | with_reducible apply State.notePoison_keeps
    | with_reducible apply State.pressSet_keeps
    | with_reducible apply State.stageReq_keeps
    | with_reducible apply State.uncharge_keeps
    | with_reducible apply State.wakeSlice_keeps
    | with_reducible assumption
    | with_reducible refine keeps_ite ?_ ?_
    | with_reducible refine keeps_foldl (fun _ _ _ => ?_) ?_
    | with_reducible exact keepsO_get (by assumption)
    | with_reducible refine keepsO_map (fun _ _ => ?_) ?_
    | with_reducible refine keepsO_foldl (fun _ _ _ => ?_) ?_
    | exact keepsO_none
    | with_reducible refine keepsO_some ?_
    | split
    | with_reducible refine KeepsO.out (by assumption) ?_
theorem State.serveWrite_keeps {P : List Part} {r : State} (x0 : Req) (s : State)
    (sub : ∀ p, p ∈ [.pwr, .port, .reqs, .fc, .tier, .slices, .budget, .media, .map, .care, .yoke, .atom, .reg, .mbox, .obs, .perf, .firkin, .rstats, .cmds] → p ∈ P) (h : r.keepsBut P s) : r.keepsBut P (State.serveWrite x0 s) := by
  unfold State.serveWrite
  try dsimp only
  repeat' first
    | with_reducible exact h
    | (with_reducible refine sub _ ?_); decide
    | (with_reducible refine part_sub sub ?_); decide
    | with_reducible apply State.answer_keeps
    | with_reducible apply State.brineDrop_keeps
    | with_reducible apply State.forwardOut_keeps
    | with_reducible apply State.stageReq_keeps
    | with_reducible apply State.storeWrite_keeps
    | with_reducible assumption
    | with_reducible refine keeps_ite ?_ ?_
    | with_reducible refine keeps_foldl (fun _ _ _ => ?_) ?_
    | split
theorem State.recordOutcome_keeps {P : List Part} {r : State} (entry : Nat) (line : Nat) (outcome : Nat) (s : State)
    (sub : ∀ p, p ∈ [.atom] → p ∈ P) (h : r.keepsBut P s) : r.keepsBut P (State.recordOutcome entry line outcome s) := by
  unfold State.recordOutcome
  try dsimp only
  repeat' first
    | with_reducible exact h
    | (with_reducible refine sub _ ?_); decide
    | (with_reducible refine part_sub sub ?_); decide
    | with_reducible apply State.countOutcome_keeps
    | with_reducible apply State.setStatus_keeps
    | with_reducible assumption
    | with_reducible refine keeps_ite ?_ ?_
    | with_reducible refine keeps_foldl (fun _ _ _ => ?_) ?_
    | split
theorem State.serveCond_keeps {P : List Part} {r : State} (x0 : Req) (s : State)
    (sub : ∀ p, p ∈ [.pwr, .port, .reqs, .fc, .tier, .slices, .budget, .media, .map, .care, .yoke, .atom, .reg, .mbox, .obs, .perf, .firkin, .rstats, .cmds] → p ∈ P) (h : r.keepsBut P s) : r.keepsBut P (State.serveCond x0 s) := by
  unfold State.serveCond
  try dsimp only
  repeat' first
    | with_reducible exact h
    | (with_reducible refine sub _ ?_); decide
    | (with_reducible refine part_sub sub ?_); decide
    | with_reducible apply State.answer_keeps
    | with_reducible apply State.brineDrop_keeps
    | with_reducible apply State.count_keeps
    | with_reducible apply State.forwardOut_keeps
    | with_reducible apply State.recordOutcome_keeps
    | with_reducible apply State.spendRes_keeps
    | with_reducible apply State.stageReq_keeps
    | with_reducible apply State.storeWrite_keeps
    | with_reducible assumption
    | with_reducible refine keeps_ite ?_ ?_
    | with_reducible refine keeps_foldl (fun _ _ _ => ?_) ?_
    | split
theorem State.serve_keeps {P : List Part} {r : State} (x0 : Req) (s : State)
    (sub : ∀ p, p ∈ [.pwr, .port, .reqs, .fc, .tier, .slices, .budget, .media, .map, .care, .yoke, .atom, .reg, .mbox, .obs, .perf, .firkin, .rstats, .cmds] → p ∈ P) (h : r.keepsBut P s) : r.keepsBut P (State.serve x0 s) := by
  unfold State.serve
  try dsimp only
  repeat' first
    | with_reducible exact h
    | (with_reducible refine sub _ ?_); decide
    | (with_reducible refine part_sub sub ?_); decide
    | with_reducible apply State.serveCond_keeps
    | with_reducible apply State.serveRead_keeps
    | with_reducible apply State.serveWrite_keeps
    | with_reducible assumption
    | with_reducible refine keeps_ite ?_ ?_
    | with_reducible refine keeps_foldl (fun _ _ _ => ?_) ?_
    | split
theorem State.answerAttached_keeps {P : List Part} {r : State} (line : Nat) (d : Line) (s : State)
    (sub : ∀ p, p ∈ [.pwr, .port, .reqs, .slices, .care, .yoke, .atom, .reg, .mbox, .obs, .perf, .firkin, .rstats, .cmds] → p ∈ P) (h : r.keepsBut P s) : r.keepsBut P (State.answerAttached line d s) := by
  unfold State.answerAttached
  try dsimp only
  repeat' first
    | with_reducible exact h
    | (with_reducible refine sub _ ?_); decide
    | (with_reducible refine part_sub sub ?_); decide
    | with_reducible apply State.finishRead_keeps
    | with_reducible assumption
    | with_reducible refine keeps_ite ?_ ?_
    | with_reducible refine keeps_foldl (fun _ _ _ => ?_) ?_
    | split
theorem State.parkAttached_keeps {P : List Part} {r : State} (line : Nat) (s : State)
    (sub : ∀ p, p ∈ [.reqs] → p ∈ P) (h : r.keepsBut P s) : r.keepsBut P (State.parkAttached line s) := by
  unfold State.parkAttached
  try dsimp only
  repeat' first
    | with_reducible exact h
    | (with_reducible refine sub _ ?_); decide
    | (with_reducible refine part_sub sub ?_); decide
    | with_reducible refine State.keeps_upReqs _ ?_ ?_
    | with_reducible assumption
    | with_reducible refine keeps_ite ?_ ?_
    | with_reducible refine keeps_foldl (fun _ _ _ => ?_) ?_
    | split
theorem State.lockFetched_keeps {P : List Part} {r : State} (m : Miss) (s : State)
    (sub : ∀ p, p ∈ [.fc] → p ∈ P) (h : r.keepsBut P s) : r.keepsBut P (State.lockFetched m s) := by
  unfold State.lockFetched
  try dsimp only
  repeat' first
    | with_reducible exact h
    | (with_reducible refine sub _ ?_); decide
    | (with_reducible refine part_sub sub ?_); decide
    | with_reducible apply State.fcPut_keeps
    | with_reducible assumption
    | with_reducible refine keeps_ite ?_ ?_
    | with_reducible refine keeps_foldl (fun _ _ _ => ?_) ?_
    | split
theorem State.gather_keeps {P : List Part} {r : State} (m : Miss) (s : State)
    (sub : ∀ p, p ∈ [.reqs, .tier, .slices, .budget, .media, .reg, .obs, .perf] → p ∈ P) (h : r.keepsBut P s) : r.keepsBut P (State.gather m s) := by
  unfold State.gather
  try dsimp only
  repeat' first
    | with_reducible exact h
    | (with_reducible refine sub _ ?_); decide
    | (with_reducible refine part_sub sub ?_); decide
    | with_reducible apply State.dropMiss_keeps
    | with_reducible apply State.setMiss_keeps
    | with_reducible apply State.stopReads_keeps
    | with_reducible apply State.tierFill_keeps
    | with_reducible assumption
    | with_reducible refine keeps_ite ?_ ?_
    | with_reducible refine keeps_foldl (fun _ _ _ => ?_) ?_
    | split
theorem State.deliver_keeps {P : List Part} {r : State} (m : Miss) (s : State)
    (sub : ∀ p, p ∈ [.pwr, .port, .reqs, .fc, .tier, .slices, .budget, .media, .map, .care, .yoke, .atom, .reg, .mbox, .obs, .perf, .firkin, .rstats, .cmds] → p ∈ P) (h : r.keepsBut P s) : r.keepsBut P (State.deliver m s) := by
  unfold State.deliver
  try dsimp only
  repeat' first
    | with_reducible exact h
    | (with_reducible refine sub _ ?_); decide
    | (with_reducible refine part_sub sub ?_); decide
    | with_reducible apply State.answerAttached_keeps
    | with_reducible apply State.fcFill_keeps
    | with_reducible apply State.gather_keeps
    | with_reducible apply State.lockFetched_keeps
    | with_reducible apply State.parkAttached_keeps
    | with_reducible apply State.poison_keeps
    | with_reducible assumption
    | with_reducible refine keeps_ite ?_ ?_
    | with_reducible refine keeps_foldl (fun _ _ _ => ?_) ?_
    | split
theorem State.deliverFill_keeps {P : List Part} {r : State} (m : Miss) (s : State)
    (sub : ∀ p, p ∈ [.pwr, .reqs, .tier, .slices, .budget, .media, .map, .reg, .obs, .cmds] → p ∈ P) (h : r.keepsBut P s) : r.keepsBut P (State.deliverFill m s) := by
  unfold State.deliverFill
  try dsimp only
  repeat' first
    | with_reducible exact h
    | (with_reducible refine sub _ ?_); decide
    | (with_reducible refine part_sub sub ?_); decide
    | with_reducible apply State.dropMiss_keeps
    | with_reducible apply State.fillSector_keeps
    | with_reducible apply State.poisonAll_keeps
    | with_reducible assumption
    | with_reducible refine keeps_ite ?_ ?_
    | with_reducible refine keeps_foldl (fun _ _ _ => ?_) ?_
    | split
theorem State.deliverPoison_keeps {P : List Part} {r : State} (m : Miss) (s : State)
    (sub : ∀ p, p ∈ [.pwr, .port, .reqs, .fc, .tier, .slices, .budget, .media, .map, .care, .yoke, .atom, .reg, .mbox, .obs, .perf, .firkin, .rstats, .cmds] → p ∈ P) (h : r.keepsBut P s) : r.keepsBut P (State.deliverPoison m s) := by
  unfold State.deliverPoison
  try dsimp only
  repeat' first
    | with_reducible exact h
    | (with_reducible refine sub _ ?_); decide
    | (with_reducible refine part_sub sub ?_); decide
    | with_reducible apply State.answerAttached_keeps
    | with_reducible apply State.dropMiss_keeps
    | with_reducible apply State.fcFill_keeps
    | with_reducible apply State.lockFetched_keeps
    | with_reducible apply State.parkAttached_keeps
    | with_reducible apply State.poisonBy_keeps
    | with_reducible assumption
    | with_reducible refine keeps_ite ?_ ?_
    | with_reducible refine keeps_foldl (fun _ _ _ => ?_) ?_
    | split
theorem State.poisonFill_keeps {P : List Part} {r : State} (m : Miss) (s : State)
    (sub : ∀ p, p ∈ [.pwr, .reqs, .tier, .slices, .budget, .media, .map, .reg, .obs, .cmds] → p ∈ P) (h : r.keepsBut P s) : r.keepsBut P (State.poisonFill m s) := by
  unfold State.poisonFill
  try dsimp only
  repeat' first
    | with_reducible exact h
    | (with_reducible refine sub _ ?_); decide
    | (with_reducible refine part_sub sub ?_); decide
    | with_reducible apply State.countMerge_keeps
    | with_reducible apply State.dropMiss_keeps
    | with_reducible apply State.poisonNow_keeps
    | with_reducible apply State.putSector_keeps
    | with_reducible apply State.wakeSector_keeps
    | with_reducible assumption
    | with_reducible refine keeps_ite ?_ ?_
    | with_reducible refine keeps_foldl (fun _ _ _ => ?_) ?_
    | split
theorem State.endPart_keeps {P : List Part} {r : State} (m : Miss) (ok : Bool) (s : State)
    (sub : ∀ p, p ∈ [.reqs, .tier, .slices, .budget, .media, .reg, .obs, .perf] → p ∈ P) (h : r.keepsBut P s) : r.keepsBut P (State.endPart m ok s) := by
  unfold State.endPart
  try dsimp only
  repeat' first
    | with_reducible exact h
    | (with_reducible refine sub _ ?_); decide
    | (with_reducible refine part_sub sub ?_); decide
    | with_reducible apply State.dropMiss_keeps
    | with_reducible apply State.gather_keeps
    | with_reducible apply State.setMiss_keeps
    | with_reducible assumption
    | with_reducible refine keeps_ite ?_ ?_
    | with_reducible refine keeps_foldl (fun _ _ _ => ?_) ?_
    | split
theorem State.fetched_keeps {P : List Part} {r : State} (m : Miss) (s : State)
    (sub : ∀ p, p ∈ [.pwr, .port, .reqs, .fc, .tier, .slices, .budget, .media, .map, .care, .yoke, .atom, .reg, .mbox, .obs, .perf, .firkin, .rstats, .cmds] → p ∈ P) (h : r.keepsBut P s) : r.keepsBut P (State.fetched m s) := by
  unfold State.fetched
  try dsimp only
  repeat' first
    | with_reducible exact h
    | (with_reducible refine sub _ ?_); decide
    | (with_reducible refine part_sub sub ?_); decide
    | with_reducible apply State.deliver_keeps
    | with_reducible apply State.endPart_keeps
    | with_reducible apply State.setMiss_keeps
    | with_reducible apply State.stopReads_keeps
    | with_reducible assumption
    | with_reducible refine keeps_ite ?_ ?_
    | with_reducible refine keeps_foldl (fun _ _ _ => ?_) ?_
    | split
theorem State.fetchFailed_keeps {P : List Part} {r : State} (m : Miss) (s : State)
    (sub : ∀ p, p ∈ [.pwr, .port, .reqs, .fc, .tier, .slices, .budget, .media, .map, .care, .yoke, .atom, .reg, .mbox, .obs, .perf, .firkin, .rstats, .cmds] → p ∈ P) (h : r.keepsBut P s) : r.keepsBut P (State.fetchFailed m s) := by
  unfold State.fetchFailed
  try dsimp only
  repeat' first
    | with_reducible exact h
    | (with_reducible refine sub _ ?_); decide
    | (with_reducible refine part_sub sub ?_); decide
    | with_reducible apply State.deliverPoison_keeps
    | with_reducible apply State.endPart_keeps
    | with_reducible apply State.setMiss_keeps
    | with_reducible apply State.stopReads_keeps
    | with_reducible refine State.keeps_upRstats _ ?_ ?_
    | with_reducible assumption
    | with_reducible refine keeps_ite ?_ ?_
    | with_reducible refine keeps_foldl (fun _ _ _ => ?_) ?_
    | split

end Sys2Proof.Machine
end

