-- ==== Sys2Proof/Laws/KeepsMedia.lean ====
section
/-!
SUPPORT. What each operation of Machine/Media.lean leaves unchanged: the groups of the state it may write, the others kept.
-/
namespace Sys2Proof.Machine

theorem State.brineReserve_keeps {P : List Part} {r : State} (s : State)
    (sub : ∀ p, p ∈ [.care] → p ∈ P) (h : r.keepsBut P s) : r.keepsBut P (State.brineReserve s) := by
  unfold State.brineReserve
  try dsimp only
  repeat' first
    | with_reducible exact h
    | (with_reducible refine sub _ ?_); decide
    | (with_reducible refine part_sub sub ?_); decide
    | with_reducible refine State.keeps_upCare _ ?_ ?_
    | with_reducible assumption
    | with_reducible refine keeps_ite ?_ ?_
    | with_reducible refine keeps_foldl (fun _ _ _ => ?_) ?_
    | split
theorem State.warnReserve_keeps {P : List Part} {r : State} (s : State)
    (sub : ∀ p, p ∈ [.care, .obs, .perf] → p ∈ P) (h : r.keepsBut P s) : r.keepsBut P (State.warnReserve s) := by
  unfold State.warnReserve
  try dsimp only
  repeat' first
    | with_reducible exact h
    | (with_reducible refine sub _ ?_); decide
    | (with_reducible refine part_sub sub ?_); decide
    | with_reducible apply State.brineReserve_keeps
    | with_reducible apply State.log_keeps
    | with_reducible apply State.save_keeps
    | with_reducible refine State.keeps_upCare _ ?_ ?_
    | with_reducible assumption
    | with_reducible refine keeps_ite ?_ ?_
    | with_reducible refine keeps_foldl (fun _ _ _ => ?_) ?_
    | split
theorem State.noteExhausted_keeps {P : List Part} {r : State} (moved : Nat) (s : State)
    (sub : ∀ p, p ∈ [.care, .obs] → p ∈ P) (h : r.keepsBut P s) : r.keepsBut P (State.noteExhausted moved s) := by
  unfold State.noteExhausted
  try dsimp only
  repeat' first
    | with_reducible exact h
    | (with_reducible refine sub _ ?_); decide
    | (with_reducible refine part_sub sub ?_); decide
    | with_reducible apply State.log_keeps
    | with_reducible refine State.keeps_upCare _ ?_ ?_
    | with_reducible assumption
    | with_reducible refine keeps_ite ?_ ?_
    | with_reducible refine keeps_foldl (fun _ _ _ => ?_) ?_
    | split
theorem State.takeReserve_keeps {P : List Part} {r : State} (n : Nat) (s : State)
    (sub : ∀ p, p ∈ [.care, .obs, .perf] → p ∈ P) (h : r.keepsBut P s) : r.keepsBut P (State.takeReserve n s) := by
  unfold State.takeReserve
  try dsimp only
  repeat' first
    | with_reducible exact h
    | (with_reducible refine sub _ ?_); decide
    | (with_reducible refine part_sub sub ?_); decide
    | with_reducible apply State.noteExhausted_keeps
    | with_reducible apply State.warnReserve_keeps
    | with_reducible refine State.keeps_upCare _ ?_ ?_
    | with_reducible assumption
    | with_reducible refine keeps_ite ?_ ?_
    | with_reducible refine keeps_foldl (fun _ _ _ => ?_) ?_
    | split
theorem State.reserveFloor_keeps {P : List Part} {r : State} (s : State)
    (sub : ∀ p, p ∈ [.care, .obs, .perf] → p ∈ P) (h : r.keepsBut P s) : r.keepsBut P (State.reserveFloor s) := by
  unfold State.reserveFloor
  try dsimp only
  repeat' first
    | with_reducible exact h
    | (with_reducible refine sub _ ?_); decide
    | (with_reducible refine part_sub sub ?_); decide
    | with_reducible apply State.log_keeps
    | with_reducible apply State.warnReserve_keeps
    | with_reducible refine State.keeps_upCare _ ?_ ?_
    | with_reducible assumption
    | with_reducible refine keeps_ite ?_ ?_
    | with_reducible refine keeps_foldl (fun _ _ _ => ?_) ?_
    | split
theorem State.skimLevel_keeps {P : List Part} {r : State} (s : State)
    (sub : ∀ p, p ∈ [.care, .obs] → p ∈ P) (h : r.keepsBut P s) : r.keepsBut P (State.skimLevel s) := by
  unfold State.skimLevel
  try dsimp only
  repeat' first
    | with_reducible exact h
    | (with_reducible refine sub _ ?_); decide
    | (with_reducible refine part_sub sub ?_); decide
    | with_reducible apply State.log_keeps
    | with_reducible refine State.keeps_upCare _ ?_ ?_
    | with_reducible assumption
    | with_reducible refine keeps_ite ?_ ?_
    | with_reducible refine keeps_foldl (fun _ _ _ => ?_) ?_
    | split
theorem State.enterBrine_keeps {P : List Part} {r : State} (cause : Nat) (s : State)
    (sub : ∀ p, p ∈ [.care, .yoke, .obs, .perf] → p ∈ P) (h : r.keepsBut P s) : r.keepsBut P (State.enterBrine cause s) := by
  unfold State.enterBrine
  try dsimp only
  repeat' first
    | with_reducible exact h
    | (with_reducible refine sub _ ?_); decide
    | (with_reducible refine part_sub sub ?_); decide
    | with_reducible apply State.log_keeps
    | with_reducible apply State.send_keeps
    | with_reducible refine State.keeps_upCare _ ?_ ?_
    | with_reducible assumption
    | with_reducible refine keeps_ite ?_ ?_
    | with_reducible refine keeps_foldl (fun _ _ _ => ?_) ?_
    | split
theorem State.checkBrine_keeps {P : List Part} {r : State} (s : State)
    (sub : ∀ p, p ∈ [.care, .yoke, .obs, .perf] → p ∈ P) (h : r.keepsBut P s) : r.keepsBut P (State.checkBrine s) := by
  unfold State.checkBrine
  try dsimp only
  repeat' first
    | with_reducible exact h
    | (with_reducible refine sub _ ?_); decide
    | (with_reducible refine part_sub sub ?_); decide
    | with_reducible apply State.enterBrine_keeps
    | with_reducible assumption
    | with_reducible refine keeps_ite ?_ ?_
    | with_reducible refine keeps_foldl (fun _ _ _ => ?_) ?_
    | split
theorem State.freeChanged_keeps {P : List Part} {r : State} (s : State)
    (sub : ∀ p, p ∈ [.care, .yoke, .obs, .perf] → p ∈ P) (h : r.keepsBut P s) : r.keepsBut P (State.freeChanged s) := by
  unfold State.freeChanged
  try dsimp only
  repeat' first
    | with_reducible exact h
    | (with_reducible refine sub _ ?_); decide
    | (with_reducible refine part_sub sub ?_); decide
    | with_reducible apply State.checkBrine_keeps
    | with_reducible apply State.reserveFloor_keeps
    | with_reducible apply State.skimLevel_keeps
    | with_reducible assumption
    | with_reducible refine keeps_ite ?_ ?_
    | with_reducible refine keeps_foldl (fun _ _ _ => ?_) ?_
    | split
theorem State.retireBlock_keeps {P : List Part} {r : State} (g : Nat) (c : Nat) (s : State)
    (sub : ∀ p, p ∈ [.media, .obs] → p ∈ P) (h : r.keepsBut P s) : r.keepsBut P (State.retireBlock g c s) := by
  unfold State.retireBlock
  try dsimp only
  repeat' first
    | with_reducible exact h
    | (with_reducible refine sub _ ?_); decide
    | (with_reducible refine part_sub sub ?_); decide
    | with_reducible apply State.log_keeps
    | with_reducible refine State.keeps_upMedia _ ?_ ?_
    | with_reducible assumption
    | with_reducible refine keeps_ite ?_ ?_
    | with_reducible refine keeps_foldl (fun _ _ _ => ?_) ?_
    | split
theorem State.retireGroup_keeps {P : List Part} {r : State} (g : Nat) (s : State)
    (sub : ∀ p, p ∈ [.pwr, .media, .map, .care, .yoke, .obs, .perf, .cmds] → p ∈ P) (h : r.keepsBut P s) : r.keepsBut P (State.retireGroup g s) := by
  unfold State.retireGroup
  try dsimp only
  repeat' first
    | with_reducible exact h
    | (with_reducible refine sub _ ?_); decide
    | (with_reducible refine part_sub sub ?_); decide
    | with_reducible apply State.freeChanged_keeps
    | with_reducible apply State.log_keeps
    | with_reducible apply State.setGroup_keeps
    | with_reducible apply State.takeReserve_keeps
    | with_reducible assumption
    | with_reducible refine keeps_ite ?_ ?_
    | with_reducible refine keeps_foldl (fun _ _ _ => ?_) ?_
    | split
theorem State.noteWear_keeps {P : List Part} {r : State} (g : Nat) (s : State)
    (sub : ∀ p, p ∈ [.care, .obs] → p ∈ P) (h : r.keepsBut P s) : r.keepsBut P (State.noteWear g s) := by
  unfold State.noteWear
  try dsimp only
  repeat' first
    | with_reducible exact h
    | (with_reducible refine sub _ ?_); decide
    | (with_reducible refine part_sub sub ?_); decide
    | with_reducible apply State.log_keeps
    | with_reducible refine State.keeps_upCare _ ?_ ?_
    | with_reducible assumption
    | with_reducible refine keeps_ite ?_ ?_
    | with_reducible refine keeps_foldl (fun _ _ _ => ?_) ?_
    | split
theorem State.wearOut_keeps {P : List Part} {r : State} (g : Nat) (s : State)
    (sub : ∀ p, p ∈ [.pwr, .media, .map, .care, .yoke, .obs, .perf, .cmds] → p ∈ P) (h : r.keepsBut P s) : r.keepsBut P (State.wearOut g s) := by
  unfold State.wearOut
  try dsimp only
  repeat' first
    | with_reducible exact h
    | (with_reducible refine sub _ ?_); decide
    | (with_reducible refine part_sub sub ?_); decide
    | with_reducible apply State.noteWear_keeps
    | with_reducible apply State.retireBlock_keeps
    | with_reducible apply State.retireGroup_keeps
    | with_reducible assumption
    | with_reducible refine keeps_ite ?_ ?_
    | with_reducible refine keeps_foldl (fun _ _ _ => ?_) ?_
    | split
theorem State.settle_keeps {P : List Part} {r : State} (g : Nat) (s : State)
    (sub : ∀ p, p ∈ [.pwr, .media, .map, .care, .yoke, .reg, .obs, .perf, .cmds] → p ∈ P) (h : r.keepsBut P s) : r.keepsBut P (State.settle g s) := by
  unfold State.settle
  try dsimp only
  repeat' first
    | with_reducible exact h
    | (with_reducible refine sub _ ?_); decide
    | (with_reducible refine part_sub sub ?_); decide
    | with_reducible apply State.askLeave_keeps
    | with_reducible apply State.retireGroup_keeps
    | with_reducible apply State.setGroup_keeps
    | with_reducible apply State.wearOut_keeps
    | with_reducible assumption
    | with_reducible refine keeps_ite ?_ ?_
    | with_reducible refine keeps_foldl (fun _ _ _ => ?_) ?_
    | split
theorem State.closeGroup_keeps {P : List Part} {r : State} (g : Nat) (s : State)
    (sub : ∀ p, p ∈ [.pwr, .media, .map, .care, .yoke, .reg, .obs, .perf, .cmds] → p ∈ P) (h : r.keepsBut P s) : r.keepsBut P (State.closeGroup g s) := by
  unfold State.closeGroup
  try dsimp only
  repeat' first
    | with_reducible exact h
    | (with_reducible refine sub _ ?_); decide
    | (with_reducible refine part_sub sub ?_); decide
    | with_reducible apply State.setGroup_keeps
    | with_reducible apply State.settle_keeps
    | with_reducible assumption
    | with_reducible refine keeps_ite ?_ ?_
    | with_reducible refine keeps_foldl (fun _ _ _ => ?_) ?_
    | split
theorem State.noteProgram_keeps {P : List Part} {r : State} (ppa : Nat) (s : State)
    (sub : ∀ p, p ∈ [.media] → p ∈ P) (h : r.keepsBut P s) : r.keepsBut P (State.noteProgram ppa s) := by
  unfold State.noteProgram
  try dsimp only
  repeat' first
    | with_reducible exact h
    | (with_reducible refine sub _ ?_); decide
    | (with_reducible refine part_sub sub ?_); decide
    | with_reducible refine State.keeps_upMedia _ ?_ ?_
    | with_reducible assumption
    | with_reducible refine keeps_ite ?_ ?_
    | with_reducible refine keeps_foldl (fun _ _ _ => ?_) ?_
    | split
theorem State.openQuad_keeps {P : List Part} {r : State} (kind : GKind) (copy : Option Nat) (a : Act) (s : State)
    (sub : ∀ p, p ∈ [.pwr, .media, .map, .care, .yoke, .obs, .perf, .cmds] → p ∈ P) (h : r.keepsBut P s) : KeepsO r P (State.openQuad kind copy a s) := by
  unfold State.openQuad
  try dsimp only
  repeat' first
    | with_reducible exact h
    | (with_reducible refine sub _ ?_); decide
    | (with_reducible refine part_sub sub ?_); decide
    | with_reducible apply State.freeChanged_keeps
    | with_reducible apply State.setGroup_keeps
    | with_reducible refine State.keeps_upMap _ ?_ ?_
    | with_reducible assumption
    | with_reducible refine keeps_ite ?_ ?_
    | with_reducible refine keeps_foldl (fun _ _ _ => ?_) ?_
    | with_reducible exact keepsO_get (by assumption)
    | with_reducible refine keepsO_map (fun _ _ => ?_) ?_
    | with_reducible refine keepsO_foldl (fun _ _ _ => ?_) ?_
    | exact keepsO_none
    | with_reducible refine keepsO_some ?_
    | split
    | with_reducible refine KeepsO.out (by assumption) ?_
theorem State.stepCursor_keeps {P : List Part} {r : State} (g : Nat) (s : State)
    (sub : ∀ p, p ∈ [.media] → p ∈ P) (h : r.keepsBut P s) : r.keepsBut P (State.stepCursor g s) := by
  unfold State.stepCursor
  try dsimp only
  repeat' first
    | with_reducible exact h
    | (with_reducible refine sub _ ?_); decide
    | (with_reducible refine part_sub sub ?_); decide
    | with_reducible refine State.keeps_upMedia _ ?_ ?_
    | with_reducible assumption
    | with_reducible refine keeps_ite ?_ ?_
    | with_reducible refine keeps_foldl (fun _ _ _ => ?_) ?_
    | split
theorem State.place_keeps {P : List Part} {r : State} (kind : GKind) (copy : Option Nat) (a : Act) (s : State)
    (sub : ∀ p, p ∈ [.pwr, .media, .map, .care, .yoke, .obs, .perf, .cmds] → p ∈ P) (h : r.keepsBut P s) : KeepsOP r P (State.place kind copy a s) := by
  unfold State.place
  try dsimp only
  repeat' first
    | with_reducible exact h
    | (with_reducible refine sub _ ?_); decide
    | (with_reducible refine part_sub sub ?_); decide
    | with_reducible apply State.openQuad_keeps
    | with_reducible assumption
    | with_reducible refine keeps_ite ?_ ?_
    | with_reducible refine keeps_foldl (fun _ _ _ => ?_) ?_
    | with_reducible exact keepsO_get (by assumption)
    | with_reducible refine keepsO_map (fun _ _ => ?_) ?_
    | with_reducible refine keepsO_mapP (fun _ _ => ?_) ?_
    | with_reducible refine keepsO_foldl (fun _ _ _ => ?_) ?_
    | exact keepsO_none
    | with_reducible refine keepsO_some ?_
    | exact keepsOP_none
    | with_reducible refine keepsOP_some ?_
    | split
    | with_reducible refine KeepsO.out (by assumption) ?_
    | with_reducible refine KeepsOP.outp (by assumption) ?_
    | with_reducible refine KeepsOP.out (by assumption) ?_
theorem State.takeGen_keeps {P : List Part} {r : State} (s : State)
    (sub : ∀ p, p ∈ [.media, .obs, .perf] → p ∈ P) (h : r.keepsBut P s) : KeepsP r P (State.takeGen s) := by
  unfold State.takeGen
  try dsimp only
  repeat' first
    | with_reducible exact h
    | (with_reducible refine sub _ ?_); decide
    | (with_reducible refine part_sub sub ?_); decide
    | with_reducible apply State.save_keeps
    | with_reducible refine State.keeps_upMedia _ ?_ ?_
    | with_reducible assumption
    | with_reducible refine keeps_ite ?_ ?_
    | with_reducible refine keeps_foldl (fun _ _ _ => ?_) ?_
    | with_reducible refine keepsP_ite ?_ ?_
    | with_reducible refine keepsP_foldl (fun _ _ _ => ?_) ?_
    | split
    | with_reducible refine KeepsP.snd ?_
    | with_reducible refine keepsP_mk ?_
    | with_reducible refine KeepsP.out (by assumption) ?_
theorem State.askStream_keeps {P : List Part} {r : State} (p : Pass) (s : State)
    (sub : ∀ p, p ∈ [.reg] → p ∈ P) (h : r.keepsBut P s) : r.keepsBut P (State.askStream p s) := by
  unfold State.askStream
  try dsimp only
  repeat' first
    | with_reducible exact h
    | (with_reducible refine sub _ ?_); decide
    | (with_reducible refine part_sub sub ?_); decide
    | with_reducible apply State.askLeave_keeps
    | with_reducible assumption
    | with_reducible refine keeps_ite ?_ ?_
    | with_reducible refine keeps_foldl (fun _ _ _ => ?_) ?_
    | split
theorem State.program_keeps {P : List Part} {r : State} (ppa : Nat) (pg : Page) (a : Act) (prio : Nat) (src : Option Nat) (s : State)
    (sub : ∀ p, p ∈ [.media, .reg, .obs, .perf] → p ∈ P) (h : r.keepsBut P s) : r.keepsBut P (State.program ppa pg a prio src s) := by
  unfold State.program
  try dsimp only
  repeat' first
    | with_reducible exact h
    | (with_reducible refine sub _ ?_); decide
    | (with_reducible refine part_sub sub ?_); decide
    | with_reducible apply State.askLeave_keeps
    | with_reducible apply State.askStream_keeps
    | with_reducible apply State.count_keeps
    | with_reducible apply State.stepCursor_keeps
    | with_reducible refine State.keeps_upMedia _ ?_ ?_
    | with_reducible assumption
    | with_reducible refine keeps_ite ?_ ?_
    | with_reducible refine keeps_foldl (fun _ _ _ => ?_) ?_
    | split
theorem State.senseWord_keeps {P : List Part} {r : State} (ppa : Nat) (s : State)
    (sub : ∀ p, p ∈ [.media] → p ∈ P) (h : r.keepsBut P s) : r.keepsBut P (State.senseWord ppa s) := by
  unfold State.senseWord
  try dsimp only
  repeat' first
    | with_reducible exact h
    | (with_reducible refine sub _ ?_); decide
    | (with_reducible refine part_sub sub ?_); decide
    | with_reducible apply State.codewordRead_keeps
    | with_reducible apply State.useBus_keeps
    | with_reducible apply State.wakeChannel_keeps
    | with_reducible assumption
    | with_reducible refine keeps_ite ?_ ?_
    | with_reducible refine keeps_foldl (fun _ _ _ => ?_) ?_
    | split
theorem State.sensePeers_keeps {P : List Part} {r : State} (ppa : Nat) (s : State)
    (sub : ∀ p, p ∈ [.media, .obs, .perf] → p ∈ P) (h : r.keepsBut P s) : r.keepsBut P (State.sensePeers ppa s) := by
  unfold State.sensePeers
  try dsimp only
  repeat' first
    | with_reducible exact h
    | (with_reducible refine sub _ ?_); decide
    | (with_reducible refine part_sub sub ?_); decide
    | with_reducible apply State.count_keeps
    | with_reducible apply State.senseWord_keeps
    | with_reducible assumption
    | with_reducible refine keeps_ite ?_ ?_
    | with_reducible refine keeps_foldl (fun _ _ _ => ?_) ?_
    | split
theorem State.softSample_keeps {P : List Part} {r : State} (ppa : Nat) (m : SoftSample) (s : State)
    (sub : ∀ p, p ∈ [.media, .care, .reg, .dram, .gills, .obs, .perf, .rstats] → p ∈ P) (h : r.keepsBut P s) : r.keepsBut P (State.softSample ppa m s) := by
  unfold State.softSample
  try dsimp only
  repeat' first
    | with_reducible exact h
    | (with_reducible refine sub _ ?_); decide
    | (with_reducible refine part_sub sub ?_); decide
    | with_reducible apply State.count_keeps
    | with_reducible apply State.gill_keeps
    | with_reducible apply State.softDecoded_keeps
    | with_reducible refine State.keeps_upRstats _ ?_ ?_
    | with_reducible assumption
    | with_reducible refine keeps_ite ?_ ?_
    | with_reducible refine keeps_foldl (fun _ _ _ => ?_) ?_
    | split
theorem State.climb_keeps {P : List Part} {r : State} (ppa : Nat) (f : Finding) (s : State)
    (sub : ∀ p, p ∈ [.media, .care, .reg, .dram, .gills, .obs, .perf, .rstats] → p ∈ P) (h : r.keepsBut P s) : r.keepsBut P (State.climb ppa f s) := by
  unfold State.climb
  try dsimp only
  repeat' first
    | with_reducible exact h
    | (with_reducible refine sub _ ?_); decide
    | (with_reducible refine part_sub sub ?_); decide
    | with_reducible apply State.gill_keeps
    | with_reducible apply State.sensePeers_keeps
    | with_reducible apply State.senseWord_keeps
    | with_reducible apply State.softSample_keeps
    | with_reducible refine State.keeps_upRstats _ ?_ ?_
    | with_reducible assumption
    | with_reducible refine keeps_ite ?_ ?_
    | with_reducible refine keeps_foldl (fun _ _ _ => ?_) ?_
    | split
theorem State.readLines_keeps {P : List Part} {r : State} (ls : List Nat) (done : List (Nat × Nat)) (reads : List WordRead) (s : State)
    (sub : ∀ p, p ∈ [.media, .care, .reg, .dram, .gills, .obs, .perf, .rstats] → p ∈ P) (h : r.keepsBut P s) : KeepsP r P (State.readLines ls done reads s) := by
  unfold State.readLines
  try dsimp only
  repeat' first
    | with_reducible exact h
    | (with_reducible refine sub _ ?_); decide
    | (with_reducible refine part_sub sub ?_); decide
    | with_reducible apply State.climb_keeps
    | with_reducible assumption
    | with_reducible refine keeps_ite ?_ ?_
    | with_reducible refine keeps_foldl (fun _ _ _ => ?_) ?_
    | with_reducible refine keepsP_ite ?_ ?_
    | with_reducible refine keepsP_foldl (fun _ _ _ => ?_) ?_
    | split
    | with_reducible refine KeepsP.snd ?_
    | with_reducible refine keepsP_mk ?_
    | with_reducible refine KeepsP.out (by assumption) ?_
theorem State.loseLines_keeps {P : List Part} {r : State} (bad : List (Nat × Nat)) (s : State)
    (sub : ∀ p, p ∈ [.pwr, .map, .obs, .cmds] → p ∈ P) (h : r.keepsBut P s) : r.keepsBut P (State.loseLines bad s) := by
  unfold State.loseLines
  try dsimp only
  repeat' first
    | with_reducible exact h
    | (with_reducible refine sub _ ?_); decide
    | (with_reducible refine part_sub sub ?_); decide
    | with_reducible apply State.log_keeps
    | with_reducible apply State.poison_keeps
    | with_reducible assumption
    | with_reducible refine keeps_ite ?_ ?_
    | with_reducible refine keeps_foldl (fun _ _ _ => ?_) ?_
    | split
theorem State.scrubPoison_keeps {P : List Part} {r : State} (ls : List Nat) (s : State)
    (sub : ∀ p, p ∈ [.mbox, .cmds] → p ∈ P) (h : r.keepsBut P s) : r.keepsBut P (State.scrubPoison ls s) := by
  unfold State.scrubPoison
  try dsimp only
  repeat' first
    | with_reducible exact h
    | (with_reducible refine sub _ ?_); decide
    | (with_reducible refine part_sub sub ?_); decide
    | with_reducible apply State.tally_keeps
    | with_reducible refine State.keeps_upMbox _ ?_ ?_
    | with_reducible assumption
    | with_reducible refine keeps_ite ?_ ?_
    | with_reducible refine keeps_foldl (fun _ _ _ => ?_) ?_
    | split
theorem State.lostKeyWrite_keeps {P : List Part} {r : State} (key : Nat) (ls : List Nat) (s : State)
    (sub : ∀ p, p ∈ [.pwr, .map, .obs, .cmds] → p ∈ P) (h : r.keepsBut P s) : r.keepsBut P (State.lostKeyWrite key ls s) := by
  unfold State.lostKeyWrite
  try dsimp only
  repeat' first
    | with_reducible exact h
    | (with_reducible refine sub _ ?_); decide
    | (with_reducible refine part_sub sub ?_); decide
    | with_reducible apply State.poisonAll_keeps
    | with_reducible assumption
    | with_reducible refine keeps_ite ?_ ?_
    | with_reducible refine keeps_foldl (fun _ _ _ => ?_) ?_
    | split
theorem State.putLogSlot_keeps {P : List Part} {r : State} (ppa : Nat) (pg : Page) (line : Nat) (d : Line) (s : State)
    (sub : ∀ p, p ∈ [.media] → p ∈ P) (h : r.keepsBut P s) : r.keepsBut P (State.putLogSlot ppa pg line d s) := by
  unfold State.putLogSlot
  try dsimp only
  repeat' first
    | with_reducible exact h
    | (with_reducible refine sub _ ?_); decide
    | (with_reducible refine part_sub sub ?_); decide
    | with_reducible refine State.keeps_upMedia _ ?_ ?_
    | with_reducible assumption
    | with_reducible refine keeps_ite ?_ ?_
    | with_reducible refine keeps_foldl (fun _ _ _ => ?_) ?_
    | split
theorem State.newLog_keeps {P : List Part} {r : State} (line : Nat) (d : Line) (a : Act) (prio : Nat) (copy : Option Nat) (src : Option Nat) (s : State)
    (sub : ∀ p, p ∈ [.pwr, .media, .map, .care, .yoke, .reg, .obs, .perf, .cmds] → p ∈ P) (h : r.keepsBut P s) : KeepsOP r P (State.newLog line d a prio copy src s) := by
  unfold State.newLog
  try dsimp only
  repeat' first
    | with_reducible exact h
    | (with_reducible refine sub _ ?_); decide
    | (with_reducible refine part_sub sub ?_); decide
    | with_reducible apply State.place_keeps
    | with_reducible apply State.program_keeps
    | with_reducible apply State.putLogSlot_keeps
    | with_reducible apply State.takeGen_keeps
    | with_reducible assumption
    | with_reducible refine keeps_ite ?_ ?_
    | with_reducible refine keeps_foldl (fun _ _ _ => ?_) ?_
    | with_reducible exact keepsO_get (by assumption)
    | with_reducible refine keepsO_map (fun _ _ => ?_) ?_
    | with_reducible refine keepsO_mapP (fun _ _ => ?_) ?_
    | with_reducible refine keepsO_foldl (fun _ _ _ => ?_) ?_
    | exact keepsO_none
    | with_reducible refine keepsO_some ?_
    | exact keepsOP_none
    | with_reducible refine keepsOP_some ?_
    | with_reducible refine keepsP_ite ?_ ?_
    | with_reducible refine keepsP_foldl (fun _ _ _ => ?_) ?_
    | split
    | with_reducible refine KeepsP.snd ?_
    | with_reducible refine keepsP_mk ?_
    | with_reducible refine KeepsP.out (by assumption) ?_
    | with_reducible refine KeepsOP.outp (by assumption) ?_
    | with_reducible refine KeepsOP.out (by assumption) ?_
theorem State.appendNext_keeps {P : List Part} {r : State} (cur : Option Nat) (line : Nat) (d : Line) (a : Act) (prio : Nat) (copy : Option Nat) (src : Option Nat) (s : State)
    (sub : ∀ p, p ∈ [.pwr, .media, .map, .care, .yoke, .reg, .obs, .perf, .cmds] → p ∈ P) (h : r.keepsBut P s) : KeepsOP r P (State.appendNext cur line d a prio copy src s) := by
  unfold State.appendNext
  try dsimp only
  repeat' first
    | with_reducible exact h
    | (with_reducible refine sub _ ?_); decide
    | (with_reducible refine part_sub sub ?_); decide
    | with_reducible apply State.newLog_keeps
    | with_reducible apply State.putLogSlot_keeps
    | with_reducible assumption
    | with_reducible refine keeps_ite ?_ ?_
    | with_reducible refine keeps_foldl (fun _ _ _ => ?_) ?_
    | with_reducible exact keepsO_get (by assumption)
    | with_reducible refine keepsO_map (fun _ _ => ?_) ?_
    | with_reducible refine keepsO_mapP (fun _ _ => ?_) ?_
    | with_reducible refine keepsO_foldl (fun _ _ _ => ?_) ?_
    | exact keepsO_none
    | with_reducible refine keepsO_some ?_
    | exact keepsOP_none
    | with_reducible refine keepsOP_some ?_
    | split
    | with_reducible refine KeepsOP.outp (by assumption) ?_
    | with_reducible refine KeepsOP.out (by assumption) ?_
theorem State.appendLines_keeps {P : List Part} {r : State} (ls : List (Nat × Line)) (a : Act) (prio : Nat) (copy : Option Nat) (src : Option Nat) (s : State)
    (sub : ∀ p, p ∈ [.pwr, .media, .map, .care, .yoke, .reg, .obs, .perf, .cmds] → p ∈ P) (h : r.keepsBut P s) : KeepsOP r P (State.appendLines ls a prio copy src s) := by
  unfold State.appendLines
  dsimp only
  refine keepsOP_tail (keepsOPP_foldl (fun acc y hacc => ?_) (keepsOPP_some h))
  split
  · exact keepsOPP_none
  · split
    · exact keepsOPP_none
    · refine keepsOPP_some (KeepsOP.out (by assumption) ?_)
      exact State.appendNext_keeps _ _ _ _ _ _ _ _ (fun p m => sub p ((by decide : ∀ p, p ∈ _ → p ∈ [.pwr, .media, .map, .care, .yoke, .reg, .obs, .perf, .cmds]) p m)) (KeepsOPP.out rfl hacc)
theorem State.noteLimits_keeps {P : List Part} {r : State} (s : State)
    (sub : ∀ p, p ∈ [.map, .obs] → p ∈ P) (h : r.keepsBut P s) : r.keepsBut P (State.noteLimits s) := by
  unfold State.noteLimits
  try dsimp only
  repeat' first
    | with_reducible exact h
    | (with_reducible refine sub _ ?_); decide
    | (with_reducible refine part_sub sub ?_); decide
    | with_reducible apply State.log_keeps
    | with_reducible refine State.keeps_upMap _ ?_ ?_
    | with_reducible assumption
    | with_reducible refine keeps_ite ?_ ?_
    | with_reducible refine keeps_foldl (fun _ _ _ => ?_) ?_
    | split
theorem State.mapGrain_keeps {P : List Part} {r : State} (g : Nat) (ppa : Nat) (gen : Nat) (s : State)
    (sub : ∀ p, p ∈ [.pwr, .media, .map, .care, .yoke, .reg, .obs, .perf, .cmds] → p ∈ P) (h : r.keepsBut P s) : r.keepsBut P (State.mapGrain g ppa gen s) := by
  unfold State.mapGrain
  try dsimp only
  repeat' first
    | with_reducible exact h
    | (with_reducible refine sub _ ?_); decide
    | (with_reducible refine part_sub sub ?_); decide
    | with_reducible apply State.journal_keeps
    | with_reducible apply State.settle_keeps
    | with_reducible apply State.trimFilter_keeps
    | with_reducible refine State.keeps_upCare _ ?_ ?_
    | with_reducible refine State.keeps_upMap _ ?_ ?_
    | with_reducible assumption
    | with_reducible refine keeps_ite ?_ ?_
    | with_reducible refine keeps_foldl (fun _ _ _ => ?_) ?_
    | split
theorem State.indexLine_keeps {P : List Part} {r : State} (line : Nat) (ppa : Nat) (slot : Nat) (gen : Nat) (s : State)
    (sub : ∀ p, p ∈ [.pwr, .media, .map, .care, .yoke, .reg, .obs, .perf, .cmds] → p ∈ P) (h : r.keepsBut P s) : r.keepsBut P (State.indexLine line ppa slot gen s) := by
  unfold State.indexLine
  try dsimp only
  repeat' first
    | with_reducible exact h
    | (with_reducible refine sub _ ?_); decide
    | (with_reducible refine part_sub sub ?_); decide
    | with_reducible apply State.enterFilter_keeps
    | with_reducible apply State.ovInsert_keeps
    | with_reducible apply State.settle_keeps
    | with_reducible refine State.keeps_upMap _ ?_ ?_
    | with_reducible assumption
    | with_reducible refine keeps_ite ?_ ?_
    | with_reducible refine keeps_foldl (fun _ _ _ => ?_) ?_
    | split
theorem State.destroyKey_keeps {P : List Part} {r : State} (id : Nat) (s : State)
    (sub : ∀ p, p ∈ [.keys, .obs, .perf] → p ∈ P) (h : r.keepsBut P s) : r.keepsBut P (State.destroyKey id s) := by
  unfold State.destroyKey
  try dsimp only
  repeat' first
    | with_reducible exact h
    | (with_reducible refine sub _ ?_); decide
    | (with_reducible refine part_sub sub ?_); decide
    | with_reducible apply State.count_keeps
    | with_reducible apply State.measure_keeps
    | with_reducible refine State.keeps_upKeys _ ?_ ?_
    | with_reducible assumption
    | with_reducible refine keeps_ite ?_ ?_
    | with_reducible refine keeps_foldl (fun _ _ _ => ?_) ?_
    | split
theorem State.retireKeys_keeps {P : List Part} {r : State} (s : State)
    (sub : ∀ p, p ∈ [.keys, .obs, .perf] → p ∈ P) (h : r.keepsBut P s) : r.keepsBut P (State.retireKeys s) := by
  unfold State.retireKeys
  try dsimp only
  repeat' first
    | with_reducible exact h
    | (with_reducible refine sub _ ?_); decide
    | (with_reducible refine part_sub sub ?_); decide
    | with_reducible apply State.destroyKey_keeps
    | with_reducible apply State.log_keeps
    | with_reducible assumption
    | with_reducible refine keeps_ite ?_ ?_
    | with_reducible refine keeps_foldl (fun _ _ _ => ?_) ?_
    | split
theorem State.movePage_keeps {P : List Part} {r : State} (ppa : Nat) (a : Act) (prio : Nat) (copy : Option Nat) (s : State)
    (sub : ∀ p, p ∈ [.pwr, .media, .map, .care, .yoke, .reg, .obs, .perf, .cmds] → p ∈ P) (h : r.keepsBut P s) : KeepsO r P (State.movePage ppa a prio copy s) := by
  unfold State.movePage
  try dsimp only
  repeat' first
    | with_reducible exact h
    | (with_reducible refine sub _ ?_); decide
    | (with_reducible refine part_sub sub ?_); decide
    | with_reducible apply State.place_keeps
    | with_reducible apply State.program_keeps
    | with_reducible apply State.takeGen_keeps
    | with_reducible assumption
    | with_reducible refine keeps_ite ?_ ?_
    | with_reducible refine keeps_foldl (fun _ _ _ => ?_) ?_
    | with_reducible exact keepsO_get (by assumption)
    | with_reducible refine keepsO_map (fun _ _ => ?_) ?_
    | with_reducible refine keepsO_mapP (fun _ _ => ?_) ?_
    | with_reducible refine keepsO_foldl (fun _ _ _ => ?_) ?_
    | exact keepsO_none
    | with_reducible refine keepsO_some ?_
    | with_reducible refine keepsP_ite ?_ ?_
    | with_reducible refine keepsP_foldl (fun _ _ _ => ?_) ?_
    | split
    | with_reducible refine KeepsP.snd ?_
    | with_reducible refine keepsP_mk ?_
    | with_reducible refine KeepsP.out (by assumption) ?_
    | with_reducible refine KeepsO.out (by assumption) ?_
    | with_reducible refine KeepsOP.outp (by assumption) ?_
    | with_reducible refine KeepsOP.out (by assumption) ?_
theorem State.runResync_keeps {P : List Part} {r : State} (s : State)
    (sub : ∀ p, p ∈ [.pwr, .media, .map, .care, .yoke, .reg, .obs, .perf, .cmds] → p ∈ P) (h : r.keepsBut P s) : r.keepsBut P (State.runResync s) := by
  unfold State.runResync
  try dsimp only
  repeat' first
    | with_reducible exact h
    | (with_reducible refine sub _ ?_); decide
    | (with_reducible refine part_sub sub ?_); decide
    | with_reducible apply State.place_keeps
    | with_reducible apply State.program_keeps
    | with_reducible apply State.takeGen_keeps
    | with_reducible assumption
    | with_reducible refine keeps_ite ?_ ?_
    | with_reducible refine keeps_foldl (fun _ _ _ => ?_) ?_
    | with_reducible exact keepsO_get (by assumption)
    | with_reducible refine keepsO_map (fun _ _ => ?_) ?_
    | with_reducible refine keepsO_mapP (fun _ _ => ?_) ?_
    | with_reducible refine keepsO_foldl (fun _ _ _ => ?_) ?_
    | exact keepsO_none
    | with_reducible refine keepsO_some ?_
    | with_reducible refine keepsP_ite ?_ ?_
    | with_reducible refine keepsP_foldl (fun _ _ _ => ?_) ?_
    | split
    | with_reducible refine KeepsP.snd ?_
    | with_reducible refine keepsP_mk ?_
    | with_reducible refine KeepsP.out (by assumption) ?_
    | with_reducible refine KeepsOP.outp (by assumption) ?_
    | with_reducible refine KeepsOP.out (by assumption) ?_
theorem State.runMoves_keeps {P : List Part} {r : State} (s : State)
    (sub : ∀ p, p ∈ [.pwr, .media, .map, .care, .yoke, .reg, .obs, .perf, .cmds] → p ∈ P) (h : r.keepsBut P s) : r.keepsBut P (State.runMoves s) := by
  unfold State.runMoves
  try dsimp only
  repeat' first
    | with_reducible exact h
    | (with_reducible refine sub _ ?_); decide
    | (with_reducible refine part_sub sub ?_); decide
    | with_reducible apply State.movePage_keeps
    | with_reducible apply State.runResync_keeps
    | with_reducible refine State.keeps_upMedia _ ?_ ?_
    | with_reducible assumption
    | with_reducible refine keeps_ite ?_ ?_
    | with_reducible refine keeps_foldl (fun _ _ _ => ?_) ?_
    | with_reducible exact keepsO_get (by assumption)
    | with_reducible refine keepsO_map (fun _ _ => ?_) ?_
    | with_reducible refine keepsO_foldl (fun _ _ _ => ?_) ?_
    | exact keepsO_none
    | with_reducible refine keepsO_some ?_
    | split
    | with_reducible refine KeepsO.out (by assumption) ?_
theorem State.queueMoves_keeps {P : List Part} {r : State} (ps : List Nat) (a : Act) (prio : Nat) (s : State)
    (sub : ∀ p, p ∈ [.pwr, .media, .map, .care, .yoke, .reg, .obs, .perf, .cmds] → p ∈ P) (h : r.keepsBut P s) : r.keepsBut P (State.queueMoves ps a prio s) := by
  unfold State.queueMoves
  try dsimp only
  repeat' first
    | with_reducible exact h
    | (with_reducible refine sub _ ?_); decide
    | (with_reducible refine part_sub sub ?_); decide
    | with_reducible apply State.runMoves_keeps
    | with_reducible refine State.keeps_upMedia _ ?_ ?_
    | with_reducible assumption
    | with_reducible refine keeps_ite ?_ ?_
    | with_reducible refine keeps_foldl (fun _ _ _ => ?_) ?_
    | split
theorem State.moveRebuilt_keeps {P : List Part} {r : State} (words : List (Nat × Nat)) (reads : List WordRead) (s : State)
    (sub : ∀ p, p ∈ [.pwr, .media, .map, .care, .yoke, .reg, .obs, .perf, .cmds] → p ∈ P) (h : r.keepsBut P s) : r.keepsBut P (State.moveRebuilt words reads s) := by
  unfold State.moveRebuilt
  try dsimp only
  repeat' first
    | with_reducible exact h
    | (with_reducible refine sub _ ?_); decide
    | (with_reducible refine part_sub sub ?_); decide
    | with_reducible apply State.queueMoves_keeps
    | with_reducible assumption
    | with_reducible refine keeps_ite ?_ ?_
    | with_reducible refine keeps_foldl (fun _ _ _ => ?_) ?_
    | split
theorem State.rekeyRun_keeps {P : List Part} {r : State} (x0 : Nat) (s : State)
    (sub : ∀ p, p ∈ [.pwr, .media, .map, .care, .yoke, .reg, .obs, .perf, .cmds] → p ∈ P) (h : r.keepsBut P s) : r.keepsBut P (State.rekeyRun x0 s) := by
  unfold State.rekeyRun
  try dsimp only
  repeat' first
    | with_reducible exact h
    | (with_reducible refine sub _ ?_); decide
    | (with_reducible refine part_sub sub ?_); decide
    | with_reducible apply State.queueMoves_keeps
    | with_reducible assumption
    | with_reducible refine keeps_ite ?_ ?_
    | with_reducible refine keeps_foldl (fun _ _ _ => ?_) ?_
    | split
theorem State.rekeyDone_keeps {P : List Part} {r : State} (s : State)
    (sub : ∀ p, p ∈ [.pwr, .media, .map, .care, .yoke, .reg, .tabs, .obs, .perf, .cmds] → p ∈ P) (h : r.keepsBut P s) : r.keepsBut P (State.rekeyDone s) := by
  unfold State.rekeyDone
  try dsimp only
  repeat' first
    | with_reducible exact h
    | (with_reducible refine sub _ ?_); decide
    | (with_reducible refine part_sub sub ?_); decide
    | with_reducible apply State.log_keeps
    | with_reducible apply State.rekeyRun_keeps
    | with_reducible apply State.setCtl_keeps
    | with_reducible refine State.keeps_upTabs _ ?_ ?_
    | with_reducible assumption
    | with_reducible refine keeps_ite ?_ ?_
    | with_reducible refine keeps_foldl (fun _ _ _ => ?_) ?_
    | split
theorem State.stripeLost_keeps {P : List Part} {r : State} (ps : List Nat) (s : State)
    (sub : ∀ p, p ∈ [.pwr, .map, .yoke, .keys, .obs, .perf, .cmds] → p ∈ P) (h : r.keepsBut P s) : r.keepsBut P (State.stripeLost ps s) := by
  unfold State.stripeLost
  try dsimp only
  repeat' first
    | with_reducible exact h
    | (with_reducible refine sub _ ?_); decide
    | (with_reducible refine part_sub sub ?_); decide
    | with_reducible apply State.damaged_keeps
    | with_reducible apply State.log_keeps
    | with_reducible apply State.mark_keeps
    | with_reducible apply State.poisonAll_keeps
    | with_reducible apply State.receiveDamaged_keeps
    | with_reducible assumption
    | with_reducible refine keeps_ite ?_ ?_
    | with_reducible refine keeps_foldl (fun _ _ _ => ?_) ?_
    | split
theorem State.noteLost_keeps {P : List Part} {r : State} (ps : List Nat) (s : State)
    (sub : ∀ p, p ∈ [.media] → p ∈ P) (h : r.keepsBut P s) : r.keepsBut P (State.noteLost ps s) := by
  unfold State.noteLost
  try dsimp only
  repeat' first
    | with_reducible exact h
    | (with_reducible refine sub _ ?_); decide
    | (with_reducible refine part_sub sub ?_); decide
    | with_reducible refine State.keeps_upMedia _ ?_ ?_
    | with_reducible assumption
    | with_reducible refine keeps_ite ?_ ?_
    | with_reducible refine keeps_foldl (fun _ _ _ => ?_) ?_
    | split
theorem State.returnLines_keeps {P : List Part} {r : State} (ls : List Nat) (s : State)
    (sub : ∀ p, p ∈ [.tier, .budget] → p ∈ P) (h : r.keepsBut P s) : r.keepsBut P (State.returnLines ls s) := by
  unfold State.returnLines
  try dsimp only
  repeat' first
    | with_reducible exact h
    | (with_reducible refine sub _ ?_); decide
    | (with_reducible refine part_sub sub ?_); decide
    | with_reducible apply State.queueWb_keeps
    | with_reducible apply State.returnLine_keeps
    | with_reducible refine State.keeps_upBudget _ ?_ ?_
    | with_reducible assumption
    | with_reducible refine keeps_ite ?_ ?_
    | with_reducible refine keeps_foldl (fun _ _ _ => ?_) ?_
    | split
theorem State.leavePass_keeps {P : List Part} {r : State} (p : Pass) (s : State)
    (sub : ∀ p, p ∈ [.media, .reg] → p ∈ P) (h : r.keepsBut P s) : r.keepsBut P (State.leavePass p s) := by
  unfold State.leavePass
  try dsimp only
  repeat' first
    | with_reducible exact h
    | (with_reducible refine sub _ ?_); decide
    | (with_reducible refine part_sub sub ?_); decide
    | with_reducible apply State.giveLeave_keeps
    | with_reducible refine State.keeps_upMedia _ ?_ ?_
    | with_reducible assumption
    | with_reducible refine keeps_ite ?_ ?_
    | with_reducible refine keeps_foldl (fun _ _ _ => ?_) ?_
    | split
theorem State.endStream_keeps {P : List Part} {r : State} (a : Act) (s : State)
    (sub : ∀ p, p ∈ [.reg] → p ∈ P) (h : r.keepsBut P s) : r.keepsBut P (State.endStream a s) := by
  unfold State.endStream
  try dsimp only
  repeat' first
    | with_reducible exact h
    | (with_reducible refine sub _ ?_); decide
    | (with_reducible refine part_sub sub ?_); decide
    | with_reducible apply State.giveLeave_keeps
    | with_reducible assumption
    | with_reducible refine keeps_ite ?_ ?_
    | with_reducible refine keeps_foldl (fun _ _ _ => ?_) ?_
    | split
theorem State.endPass_keeps {P : List Part} {r : State} (p : Pass) (s : State)
    (sub : ∀ p, p ∈ [.media, .reg] → p ∈ P) (h : r.keepsBut P s) : r.keepsBut P (State.endPass p s) := by
  unfold State.endPass
  try dsimp only
  repeat' first
    | with_reducible exact h
    | (with_reducible refine sub _ ?_); decide
    | (with_reducible refine part_sub sub ?_); decide
    | with_reducible apply State.endStream_keeps
    | with_reducible apply State.leavePass_keeps
    | with_reducible refine State.keeps_upMedia _ ?_ ?_
    | with_reducible assumption
    | with_reducible refine keeps_ite ?_ ?_
    | with_reducible refine keeps_foldl (fun _ _ _ => ?_) ?_
    | split
theorem State.columnAbsent_keeps {P : List Part} {r : State} (g : Nat) (c : Nat) (page : Nat) (s : State)
    (sub : ∀ p, p ∈ [.pwr, .media, .map, .care, .yoke, .reg, .obs, .perf, .cmds] → p ∈ P) (h : r.keepsBut P s) : r.keepsBut P (State.columnAbsent g c page s) := by
  unfold State.columnAbsent
  try dsimp only
  repeat' first
    | with_reducible exact h
    | (with_reducible refine sub _ ?_); decide
    | (with_reducible refine part_sub sub ?_); decide
    | with_reducible apply State.freeChanged_keeps
    | with_reducible apply State.log_keeps
    | with_reducible apply State.queueMoves_keeps
    | with_reducible apply State.retireBlock_keeps
    | with_reducible apply State.setGroup_keeps
    | with_reducible apply State.takeReserve_keeps
    | with_reducible assumption
    | with_reducible refine keeps_ite ?_ ?_
    | with_reducible refine keeps_foldl (fun _ _ _ => ?_) ?_
    | split
theorem State.failDie_keeps {P : List Part} {r : State} (pos : Nat) (ch : Nat) (s : State)
    (sub : ∀ p, p ∈ [.pwr, .media, .map, .care, .yoke, .reg, .obs, .perf, .rstats, .cmds] → p ∈ P) (h : r.keepsBut P s) : r.keepsBut P (State.failDie pos ch s) := by
  unfold State.failDie
  try dsimp only
  repeat' first
    | with_reducible exact h
    | (with_reducible refine sub _ ?_); decide
    | (with_reducible refine part_sub sub ?_); decide
    | with_reducible apply State.boundFail_keeps
    | with_reducible apply State.freeChanged_keeps
    | with_reducible apply State.log_keeps
    | with_reducible apply State.queueMoves_keeps
    | with_reducible apply State.setGroup_keeps
    | with_reducible apply State.takeReserve_keeps
    | with_reducible refine State.keeps_upMedia _ ?_ ?_
    | with_reducible assumption
    | with_reducible refine keeps_ite ?_ ?_
    | with_reducible refine keeps_foldl (fun _ _ _ => ?_) ?_
    | split
theorem State.dropSet_keeps {P : List Part} {r : State} (k : CopySet) (s : State)
    (sub : ∀ p, p ∈ [.media, .care, .reg] → p ∈ P) (h : r.keepsBut P s) : r.keepsBut P (State.dropSet k s) := by
  unfold State.dropSet
  try dsimp only
  repeat' first
    | with_reducible exact h
    | (with_reducible refine sub _ ?_); decide
    | (with_reducible refine part_sub sub ?_); decide
    | with_reducible apply State.endPass_keeps
    | with_reducible refine State.keeps_upCare _ ?_ ?_
    | with_reducible assumption
    | with_reducible refine keeps_ite ?_ ?_
    | with_reducible refine keeps_foldl (fun _ _ _ => ?_) ?_
    | split
theorem State.copyPage_keeps {P : List Part} {r : State} (k : CopySet) (ppa : Nat) (s : State)
    (sub : ∀ p, p ∈ [.pwr, .media, .map, .care, .yoke, .reg, .obs, .perf, .cmds] → p ∈ P) (h : r.keepsBut P s) : KeepsP r P (State.copyPage k ppa s) := by
  unfold State.copyPage
  try dsimp only
  repeat' first
    | with_reducible exact h
    | (with_reducible refine sub _ ?_); decide
    | (with_reducible refine part_sub sub ?_); decide
    | with_reducible apply State.appendLines_keeps
    | with_reducible apply State.movePage_keeps
    | with_reducible assumption
    | with_reducible refine keeps_ite ?_ ?_
    | with_reducible refine keeps_foldl (fun _ _ _ => ?_) ?_
    | with_reducible refine keeps_foldr (fun _ _ _ => ?_) ?_
    | with_reducible exact keepsO_get (by assumption)
    | with_reducible refine keepsO_map (fun _ _ => ?_) ?_
    | with_reducible refine keepsO_mapP (fun _ _ => ?_) ?_
    | with_reducible refine keepsO_foldl (fun _ _ _ => ?_) ?_
    | exact keepsO_none
    | with_reducible refine keepsO_some ?_
    | with_reducible refine keepsP_ite ?_ ?_
    | with_reducible refine keepsP_foldl (fun _ _ _ => ?_) ?_
    | split
    | with_reducible refine KeepsP.snd ?_
    | with_reducible refine keepsP_mk ?_
    | with_reducible refine KeepsP.out (by assumption) ?_
    | with_reducible refine KeepsO.out (by assumption) ?_
    | with_reducible refine KeepsOP.outp (by assumption) ?_
    | with_reducible refine KeepsOP.out (by assumption) ?_
theorem State.sealSet_keeps {P : List Part} {r : State} (k : CopySet) (s : State)
    (sub : ∀ p, p ∈ [.media] → p ∈ P) (h : r.keepsBut P s) : r.keepsBut P (State.sealSet k s) := by
  unfold State.sealSet
  try dsimp only
  repeat' first
    | with_reducible exact h
    | (with_reducible refine sub _ ?_); decide
    | (with_reducible refine part_sub sub ?_); decide
    | with_reducible refine State.keeps_upMedia _ ?_ ?_
    | with_reducible assumption
    | with_reducible refine keeps_ite ?_ ?_
    | with_reducible refine keeps_foldl (fun _ _ _ => ?_) ?_
    | split
theorem State.startSet_keeps {P : List Part} {r : State} (g : Nat) (a : Act) (prio : Nat) (s : State)
    (sub : ∀ p, p ∈ [.pwr, .media, .map, .care, .yoke, .reg, .obs, .perf, .cmds] → p ∈ P) (h : r.keepsBut P s) : r.keepsBut P (State.startSet g a prio s) := by
  unfold State.startSet
  try dsimp only
  repeat' first
    | with_reducible exact h
    | (with_reducible refine sub _ ?_); decide
    | (with_reducible refine part_sub sub ?_); decide
    | with_reducible apply State.copyPage_keeps
    | with_reducible apply State.giveLeave_keeps
    | with_reducible apply State.sealSet_keeps
    | with_reducible refine State.keeps_upCare _ ?_ ?_
    | with_reducible assumption
    | with_reducible refine keeps_ite ?_ ?_
    | with_reducible refine keeps_foldl (fun _ _ _ => ?_) ?_
    | with_reducible refine keepsP_ite ?_ ?_
    | with_reducible refine keepsP_foldl (fun _ _ _ => ?_) ?_
    | split
    | with_reducible refine KeepsP.snd ?_
    | with_reducible refine keepsP_mk ?_
    | with_reducible refine KeepsP.out (by assumption) ?_
theorem State.redoSet_keeps {P : List Part} {r : State} (k : CopySet) (target : Nat) (s : State)
    (sub : ∀ p, p ∈ [.pwr, .media, .map, .care, .yoke, .reg, .obs, .perf, .cmds] → p ∈ P) (h : r.keepsBut P s) : r.keepsBut P (State.redoSet k target s) := by
  unfold State.redoSet
  try dsimp only
  repeat' first
    | with_reducible exact h
    | (with_reducible refine sub _ ?_); decide
    | (with_reducible refine part_sub sub ?_); decide
    | with_reducible apply State.count_keeps
    | with_reducible apply State.dropSet_keeps
    | with_reducible apply State.log_keeps
    | with_reducible apply State.setGroup_keeps
    | with_reducible apply State.startSet_keeps
    | with_reducible refine State.keeps_upCare _ ?_ ?_
    | with_reducible assumption
    | with_reducible refine keeps_ite ?_ ?_
    | with_reducible refine keeps_foldl (fun _ _ _ => ?_) ?_
    | split
theorem State.programXor_keeps {P : List Part} {r : State} (g : Nat) (page : Nat) (a : Act) (prio : Nat) (s : State)
    (sub : ∀ p, p ∈ [.media, .reg, .obs, .perf] → p ∈ P) (h : r.keepsBut P s) : r.keepsBut P (State.programXor g page a prio s) := by
  unfold State.programXor
  try dsimp only
  repeat' first
    | with_reducible exact h
    | (with_reducible refine sub _ ?_); decide
    | (with_reducible refine part_sub sub ?_); decide
    | with_reducible apply State.program_keeps
    | with_reducible assumption
    | with_reducible refine keeps_ite ?_ ?_
    | with_reducible refine keeps_foldl (fun _ _ _ => ?_) ?_
    | split
theorem State.closing_keeps {P : List Part} {r : State} (g : Nat) (s : State)
    (sub : ∀ p, p ∈ [.pwr, .media, .map, .obs, .cmds] → p ∈ P) (h : r.keepsBut P s) : r.keepsBut P (State.closing g s) := by
  unfold State.closing
  try dsimp only
  repeat' first
    | with_reducible exact h
    | (with_reducible refine sub _ ?_); decide
    | (with_reducible refine part_sub sub ?_); decide
    | with_reducible apply State.setGroup_keeps
    | with_reducible assumption
    | with_reducible refine keeps_ite ?_ ?_
    | with_reducible refine keeps_foldl (fun _ _ _ => ?_) ?_
    | split

end Sys2Proof.Machine
end

