-- ==== Sys2Proof/Laws/KeepsReads.lean ====
section
/-!
SUPPORT. What each operation of Machine/Reads.lean leaves unchanged: the groups of the state it may write, the others kept.
-/
namespace Sys2Proof.Machine

theorem execHostReadRequest_keeps {P : List Part} {r : State} (key : Nat) (addr : Nat) (tag : Nat) (s : State)
    (sub : ∀ p, p ∈ [.port, .reqs, .slices, .atom, .mbox, .obs, .perf] → p ∈ P) (h : r.keepsBut P s) : Answers r P (execHostReadRequest key addr tag s) := by
  unfold execHostReadRequest
  try dsimp only
  repeat' first
    | with_reducible exact h
    | (with_reducible refine sub _ ?_); decide
    | (with_reducible refine part_sub sub ?_); decide
    | with_reducible apply State.arrive_keeps
    | with_reducible assumption
    | with_reducible refine keeps_ite ?_ ?_
    | with_reducible refine keeps_foldl (fun _ _ _ => ?_) ?_
    | with_reducible refine answers_next ?_
    | split
theorem State.dispatch_keeps {P : List Part} {r : State} (slice : Nat) (s : State)
    (sub : ∀ p, p ∈ [.port, .reqs, .obs, .perf] → p ∈ P) (h : r.keepsBut P s) : r.keepsBut P (State.dispatch slice s) := by
  unfold State.dispatch
  try dsimp only
  repeat' first
    | with_reducible exact h
    | (with_reducible refine sub _ ?_); decide
    | (with_reducible refine part_sub sub ?_); decide
    | with_reducible apply State.count_keeps
    | with_reducible apply State.stageReq_keeps
    | with_reducible refine State.keeps_upPort _ ?_ ?_
    | with_reducible assumption
    | with_reducible refine keeps_ite ?_ ?_
    | with_reducible refine keeps_foldl (fun _ _ _ => ?_) ?_
    | split
theorem execIngressDispatch_keeps {P : List Part} {r : State} (slice : Nat) (s : State)
    (sub : ∀ p, p ∈ [.port, .reqs, .obs, .perf] → p ∈ P) (h : r.keepsBut P s) : Answers r P (execIngressDispatch slice s) := by
  unfold execIngressDispatch
  try dsimp only
  repeat' first
    | with_reducible exact h
    | (with_reducible refine sub _ ?_); decide
    | (with_reducible refine part_sub sub ?_); decide
    | with_reducible apply State.dispatch_keeps
    | with_reducible assumption
    | with_reducible refine keeps_ite ?_ ?_
    | with_reducible refine keeps_foldl (fun _ _ _ => ?_) ?_
    | with_reducible refine answers_next ?_
    | split
theorem State.fcParity_keeps {P : List Part} {r : State} (line : Nat) (s : State)
    (sub : ∀ p, p ∈ [.pwr, .port, .reqs, .fc, .tier, .slices, .budget, .media, .map, .care, .yoke, .atom, .keys, .reg, .dram, .gills, .dict, .mbox, .obs, .perf, .rstats, .fw, .cmds] → p ∈ P) (h : r.keepsBut P s) : r.keepsBut P (State.fcParity line s) := by
  unfold State.fcParity
  try dsimp only
  repeat' first
    | with_reducible exact h
    | (with_reducible refine sub _ ?_); decide
    | (with_reducible refine part_sub sub ?_); decide
    | with_reducible apply State.controllerReset_keeps
    | with_reducible apply State.fcDrop_keeps
    | with_reducible apply State.fcPut_keeps
    | with_reducible apply State.gill_keeps
    | with_reducible refine State.keeps_upFc _ ?_ ?_
    | with_reducible assumption
    | with_reducible refine keeps_ite ?_ ?_
    | with_reducible refine keeps_foldl (fun _ _ _ => ?_) ?_
    | split
theorem State.fcCrcBad_keeps {P : List Part} {r : State} (trans : Nat) (line : Nat) (s : State)
    (sub : ∀ p, p ∈ [.pwr, .fc, .map, .obs, .cmds] → p ∈ P) (h : r.keepsBut P s) : r.keepsBut P (State.fcCrcBad trans line s) := by
  unfold State.fcCrcBad
  try dsimp only
  repeat' first
    | with_reducible exact h
    | (with_reducible refine sub _ ?_); decide
    | (with_reducible refine part_sub sub ?_); decide
    | with_reducible apply State.fcDrop_keeps
    | with_reducible apply State.fcPut_keeps
    | with_reducible apply State.poisonBy_keeps
    | with_reducible assumption
    | with_reducible refine keeps_ite ?_ ?_
    | with_reducible refine keeps_foldl (fun _ _ _ => ?_) ?_
    | split
theorem State.tierBurst_keeps {P : List Part} {r : State} (uncorrectable : Bool) (trans : Nat) (line : Nat) (s : State)
    (sub : ∀ p, p ∈ [.pwr, .reqs, .fc, .tier, .slices, .budget, .media, .map, .reg, .dram, .obs, .perf, .rstats, .cmds] → p ∈ P) (h : r.keepsBut P s) : r.keepsBut P (State.tierBurst uncorrectable trans line s) := by
  unfold State.tierBurst
  try dsimp only
  repeat' first
    | with_reducible exact h
    | (with_reducible refine sub _ ?_); decide
    | (with_reducible refine part_sub sub ?_); decide
    | with_reducible apply State.logBy_keeps
    | with_reducible apply State.mergeLost_keeps
    | with_reducible apply State.poison_keeps
    | with_reducible apply State.putSector_keeps
    | with_reducible refine State.keeps_upDram _ ?_ ?_
    | with_reducible refine State.keeps_upTier _ ?_ ?_
    | with_reducible assumption
    | with_reducible refine keeps_ite ?_ ?_
    | with_reducible refine keeps_foldl (fun _ _ _ => ?_) ?_
    | split
theorem State.tagRepair_keeps {P : List Part} {r : State} (sec : Nat) (s : State)
    (sub : ∀ p, p ∈ [.tier, .reg, .dram, .gills, .obs] → p ∈ P) (h : r.keepsBut P s) : r.keepsBut P (State.tagRepair sec s) := by
  unfold State.tagRepair
  try dsimp only
  repeat' first
    | with_reducible exact h
    | (with_reducible refine sub _ ?_); decide
    | (with_reducible refine part_sub sub ?_); decide
    | with_reducible apply State.gill_keeps
    | with_reducible apply State.log_keeps
    | with_reducible refine State.keeps_upTier _ ?_ ?_
    | with_reducible assumption
    | with_reducible refine keeps_ite ?_ ?_
    | with_reducible refine keeps_foldl (fun _ _ _ => ?_) ?_
    | split
theorem State.burstCorrected_keeps {P : List Part} {r : State} (line : Nat) (device : Nat) (s : State)
    (sub : ∀ p, p ∈ [.reg, .dram, .gills, .obs, .perf] → p ∈ P) (h : r.keepsBut P s) : r.keepsBut P (State.burstCorrected line device s) := by
  unfold State.burstCorrected
  try dsimp only
  repeat' first
    | with_reducible exact h
    | (with_reducible refine sub _ ?_); decide
    | (with_reducible refine part_sub sub ?_); decide
    | with_reducible apply State.count_keeps
    | with_reducible apply State.gill_keeps
    | with_reducible apply State.log_keeps
    | with_reducible refine State.keeps_upDram _ ?_ ?_
    | with_reducible assumption
    | with_reducible refine keeps_ite ?_ ?_
    | with_reducible refine keeps_foldl (fun _ _ _ => ?_) ?_
    | split
theorem State.shadowLost_keeps {P : List Part} {r : State} (g : Nat) (s : State)
    (sub : ∀ p, p ∈ [.pwr, .media, .map, .obs, .cmds] → p ∈ P) (h : r.keepsBut P s) : r.keepsBut P (State.shadowLost g s) := by
  unfold State.shadowLost
  try dsimp only
  repeat' first
    | with_reducible exact h
    | (with_reducible refine sub _ ?_); decide
    | (with_reducible refine part_sub sub ?_); decide
    | with_reducible apply State.setGroup_keeps
    | with_reducible assumption
    | with_reducible refine keeps_ite ?_ ?_
    | with_reducible refine keeps_foldl (fun _ _ _ => ?_) ?_
    | split
theorem State.checkFault_keeps {P : List Part} {r : State} (f : CacheFault) (trans : Nat) (line : Nat) (s : State)
    (sub : ∀ p, p ∈ [.pwr, .port, .reqs, .fc, .tier, .slices, .budget, .media, .map, .care, .yoke, .atom, .keys, .reg, .dram, .gills, .dict, .mbox, .obs, .perf, .rstats, .fw, .cmds] → p ∈ P) (h : r.keepsBut P s) : r.keepsBut P (State.checkFault f trans line s) := by
  unfold State.checkFault
  try dsimp only
  repeat' first
    | with_reducible exact h
    | (with_reducible refine sub _ ?_); decide
    | (with_reducible refine part_sub sub ?_); decide
    | with_reducible apply State.burstCorrected_keeps
    | with_reducible apply State.controllerReset_keeps
    | with_reducible apply State.fcCrcBad_keeps
    | with_reducible apply State.fcParity_keeps
    | with_reducible apply State.gill_keeps
    | with_reducible apply State.remakeFilter_keeps
    | with_reducible apply State.shadowLost_keeps
    | with_reducible apply State.tagRepair_keeps
    | with_reducible apply State.tierBurst_keeps
    | with_reducible refine State.keeps_upKeys _ ?_ ?_
    | with_reducible refine State.keeps_upSlices _ ?_ ?_
    | with_reducible refine State.keeps_upTier _ ?_ ?_
    | with_reducible assumption
    | with_reducible refine keeps_ite ?_ ?_
    | with_reducible refine keeps_foldl (fun _ _ _ => ?_) ?_
    | split
theorem State.lookupAccess_keeps {P : List Part} {r : State} (line : Nat) (bank : Nat) (row : Nat) (queued : Bool) (s : State)
    (sub : ∀ p, p ∈ [.dram, .obs, .perf] → p ∈ P) (h : r.keepsBut P s) : r.keepsBut P (State.lookupAccess line bank row queued s) := by
  unfold State.lookupAccess
  try dsimp only
  repeat' first
    | with_reducible exact h
    | (with_reducible refine sub _ ?_); decide
    | (with_reducible refine part_sub sub ?_); decide
    | with_reducible apply State.count_keeps
    | with_reducible apply State.dramAccess_keeps
    | with_reducible assumption
    | with_reducible refine keeps_ite ?_ ?_
    | with_reducible refine keeps_foldl (fun _ _ _ => ?_) ?_
    | split
theorem State.checked_keeps {P : List Part} {r : State} (f : CacheFault) (x1 : Req) (run : State → State) (s : State)
    (sub : ∀ p, p ∈ [.pwr, .port, .reqs, .fc, .tier, .slices, .budget, .media, .map, .care, .yoke, .atom, .keys, .reg, .dram, .gills, .dict, .mbox, .obs, .perf, .rstats, .fw, .cmds] → p ∈ P) (h : r.keepsBut P s) (hrun : ∀ t, r.keepsBut P t → r.keepsBut P (run t)) : r.keepsBut P (State.checked f x1 run s) := by
  unfold State.checked
  try dsimp only
  repeat' first
    | with_reducible exact h
    | (with_reducible refine sub _ ?_); decide
    | (with_reducible refine part_sub sub ?_); decide
    | with_reducible apply State.checkFault_keeps
    | with_reducible assumption
    | with_reducible refine keeps_ite ?_ ?_
    | with_reducible refine keeps_foldl (fun _ _ _ => ?_) ?_
    | with_reducible refine hrun _ ?_
    | (with_reducible intro _ _); dsimp only
    | with_reducible intro _ _
    | split
theorem State.serveNew_keeps {P : List Part} {r : State} (id : Nat) (f : CacheFault) (s : State)
    (sub : ∀ p, p ∈ [.pwr, .port, .reqs, .fc, .tier, .slices, .budget, .media, .map, .care, .yoke, .atom, .keys, .reg, .dram, .gills, .dict, .mbox, .obs, .perf, .firkin, .rstats, .fw, .cmds] → p ∈ P) (h : r.keepsBut P s) : r.keepsBut P (State.serveNew id f s) := by
  unfold State.serveNew
  try dsimp only
  repeat' first
    | with_reducible exact h
    | (with_reducible refine sub _ ?_); decide
    | (with_reducible refine part_sub sub ?_); decide
    | with_reducible apply State.checked_keeps
    | with_reducible apply State.serve_keeps
    | with_reducible assumption
    | with_reducible refine keeps_ite ?_ ?_
    | with_reducible refine keeps_foldl (fun _ _ _ => ?_) ?_
    | (with_reducible intro _ _); dsimp only
    | with_reducible intro _ _
    | split
    | with_reducible refine keepsPP_mk ?_
    | with_reducible refine KeepsPP.snd ?_
    | with_reducible refine KeepsPP.out (by assumption) ?_
theorem State.lookup_keeps {P : List Part} {r : State} (slice : Nat) (f : CacheFault) (bank : Nat) (row : Nat) (queued : Bool) (s : State)
    (sub : ∀ p, p ∈ [.pwr, .port, .reqs, .fc, .tier, .slices, .budget, .media, .map, .care, .yoke, .atom, .keys, .reg, .dram, .gills, .dict, .mbox, .obs, .perf, .firkin, .rstats, .fw, .cmds] → p ∈ P) (h : r.keepsBut P s) : r.keepsBut P (State.lookup slice f bank row queued s) := by
  unfold State.lookup
  try dsimp only
  repeat' first
    | with_reducible exact h
    | (with_reducible refine sub _ ?_); decide
    | (with_reducible refine part_sub sub ?_); decide
    | with_reducible apply State.checked_keeps
    | with_reducible apply State.lookupAccess_keeps
    | with_reducible apply State.nextReq_keeps
    | with_reducible apply State.serve_keeps
    | with_reducible assumption
    | with_reducible refine keeps_ite ?_ ?_
    | with_reducible refine keeps_foldl (fun _ _ _ => ?_) ?_
    | with_reducible exact keepsO_get (by assumption)
    | with_reducible refine keepsO_map (fun _ _ => ?_) ?_
    | with_reducible refine keepsO_mapP (fun _ _ => ?_) ?_
    | with_reducible refine keepsO_foldl (fun _ _ _ => ?_) ?_
    | exact keepsO_none
    | with_reducible refine keepsO_some ?_
    | (with_reducible intro _ _); dsimp only
    | with_reducible intro _ _
    | split
    | with_reducible refine KeepsOP.outp (by assumption) ?_
    | with_reducible refine KeepsOP.out (by assumption) ?_
    | with_reducible refine keepsPP_mk ?_
    | with_reducible refine KeepsPP.snd ?_
    | with_reducible refine KeepsPP.out (by assumption) ?_
theorem execSliceLookup_keeps {P : List Part} {r : State} (slice : Nat) (fault : CacheFault) (bank : Nat) (row : Nat) (queued : Bool) (s : State)
    (sub : ∀ p, p ∈ [.pwr, .port, .reqs, .fc, .tier, .slices, .budget, .media, .map, .care, .yoke, .atom, .keys, .reg, .dram, .gills, .dict, .mbox, .obs, .perf, .firkin, .rstats, .fw, .cmds] → p ∈ P) (h : r.keepsBut P s) : Answers r P (execSliceLookup slice fault bank row queued s) := by
  unfold execSliceLookup
  try dsimp only
  repeat' first
    | with_reducible exact h
    | (with_reducible refine sub _ ?_); decide
    | (with_reducible refine part_sub sub ?_); decide
    | with_reducible apply State.lookup_keeps
    | with_reducible assumption
    | with_reducible refine keeps_ite ?_ ?_
    | with_reducible refine keeps_foldl (fun _ _ _ => ?_) ?_
    | with_reducible refine answers_next ?_
    | split
theorem State.resumeMiss_keeps {P : List Part} {r : State} (x0 : Req) (s : State)
    (sub : ∀ p, p ∈ [.pwr, .port, .reqs, .fc, .tier, .slices, .budget, .media, .map, .care, .yoke, .atom, .reg, .mbox, .obs, .perf, .firkin, .rstats, .cmds] → p ∈ P) (h : r.keepsBut P s) : r.keepsBut P (State.resumeMiss x0 s) := by
  unfold State.resumeMiss
  try dsimp only
  repeat' first
    | with_reducible exact h
    | (with_reducible refine sub _ ?_); decide
    | (with_reducible refine part_sub sub ?_); decide
    | with_reducible apply State.readBelow_keeps
    | with_reducible apply State.serveRead_keeps
    | with_reducible apply State.storeWrite_keeps
    | with_reducible refine State.keeps_upFc _ ?_ ?_
    | with_reducible assumption
    | with_reducible refine keeps_ite ?_ ?_
    | with_reducible refine keeps_foldl (fun _ _ _ => ?_) ?_
    | split
theorem execMissSlotFreed_keeps {P : List Part} {r : State} (slice : Nat) (set : Nat) (fault : CacheFault) (s : State)
    (sub : ∀ p, p ∈ [.pwr, .port, .reqs, .fc, .tier, .slices, .budget, .media, .map, .care, .yoke, .atom, .keys, .reg, .dram, .gills, .dict, .mbox, .obs, .perf, .firkin, .rstats, .fw, .cmds] → p ∈ P) (h : r.keepsBut P s) : Answers r P (execMissSlotFreed slice set fault s) := by
  unfold execMissSlotFreed
  try dsimp only
  repeat' first
    | with_reducible exact h
    | (with_reducible refine sub _ ?_); decide
    | (with_reducible refine part_sub sub ?_); decide
    | with_reducible apply State.checked_keeps
    | with_reducible apply State.resumeMiss_keeps
    | with_reducible refine State.keeps_upFc _ ?_ ?_
    | with_reducible assumption
    | with_reducible refine keeps_ite ?_ ?_
    | with_reducible refine keeps_foldl (fun _ _ _ => ?_) ?_
    | with_reducible refine answers_next ?_
    | (with_reducible intro _ _); dsimp only
    | with_reducible intro _ _
    | split
    | with_reducible refine keepsPP_mk ?_
    | with_reducible refine KeepsPP.snd ?_
    | with_reducible refine KeepsPP.out (by assumption) ?_
theorem State.startWaiting_keeps {P : List Part} {r : State} (slice : Nat) (s : State)
    (sub : ∀ p, p ∈ [.reqs, .tier, .slices, .budget, .media, .reg, .obs, .perf, .rstats] → p ∈ P) (h : r.keepsBut P s) : r.keepsBut P (State.startWaiting slice s) := by
  unfold State.startWaiting
  try dsimp only
  repeat' first
    | with_reducible exact h
    | (with_reducible refine sub _ ?_); decide
    | (with_reducible refine part_sub sub ?_); decide
    | with_reducible apply State.issueFill_keeps
    | with_reducible apply State.startBase_keeps
    | with_reducible assumption
    | with_reducible refine keeps_ite ?_ ?_
    | with_reducible refine keeps_foldl (fun _ _ _ => ?_) ?_
    | split
theorem execMissTableEntryFreed_keeps {P : List Part} {r : State} (slice : Nat) (fault : CacheFault) (s : State)
    (sub : ∀ p, p ∈ [.pwr, .port, .reqs, .fc, .tier, .slices, .budget, .media, .map, .care, .yoke, .atom, .keys, .reg, .dram, .gills, .dict, .mbox, .obs, .perf, .firkin, .rstats, .fw, .cmds] → p ∈ P) (h : r.keepsBut P s) : Answers r P (execMissTableEntryFreed slice fault s) := by
  unfold execMissTableEntryFreed
  try dsimp only
  repeat' first
    | with_reducible exact h
    | (with_reducible refine sub _ ?_); decide
    | (with_reducible refine part_sub sub ?_); decide
    | with_reducible apply State.checked_keeps
    | with_reducible apply State.resumeMiss_keeps
    | with_reducible apply State.startWaiting_keeps
    | with_reducible assumption
    | with_reducible refine keeps_ite ?_ ?_
    | with_reducible refine keeps_foldl (fun _ _ _ => ?_) ?_
    | with_reducible refine answers_next ?_
    | (with_reducible intro _ _); dsimp only
    | with_reducible intro _ _
    | split
    | with_reducible refine keepsPP_mk ?_
    | with_reducible refine KeepsPP.snd ?_
    | with_reducible refine KeepsPP.out (by assumption) ?_
theorem execSliceMissSideSleep_keeps {P : List Part} {r : State} (slice : Nat) (s : State)
    (sub : ∀ p, p ∈ [.clk, .slices, .atom, .obs, .perf] → p ∈ P) (h : r.keepsBut P s) : Answers r P (execSliceMissSideSleep slice s) := by
  unfold execSliceMissSideSleep
  try dsimp only
  repeat' first
    | with_reducible exact h
    | (with_reducible refine sub _ ?_); decide
    | (with_reducible refine part_sub sub ?_); decide
    | with_reducible apply State.elapseTo_keeps
    | with_reducible apply State.endRes_keeps
    | with_reducible refine State.keeps_upSlices _ ?_ ?_
    | with_reducible assumption
    | with_reducible refine keeps_ite ?_ ?_
    | with_reducible refine keeps_foldl (fun _ _ _ => ?_) ?_
    | with_reducible refine answers_next ?_
    | split
theorem execChannelClockStop_keeps {P : List Part} {r : State} (ch : Nat) (s : State)
    (sub : ∀ p, p ∈ [.clk, .media, .obs, .perf] → p ∈ P) (h : r.keepsBut P s) : Answers r P (execChannelClockStop ch s) := by
  unfold execChannelClockStop
  try dsimp only
  repeat' first
    | with_reducible exact h
    | (with_reducible refine sub _ ?_); decide
    | (with_reducible refine part_sub sub ?_); decide
    | with_reducible apply State.elapseTo_keeps
    | with_reducible refine State.keeps_upMedia _ ?_ ?_
    | with_reducible assumption
    | with_reducible refine keeps_ite ?_ ?_
    | with_reducible refine keeps_foldl (fun _ _ _ => ?_) ?_
    | with_reducible refine answers_next ?_
    | split
theorem execProgramSuspendForRead_keeps {P : List Part} {r : State} (pos : Nat) (ch : Nat) (s : State)
    (sub : ∀ p, p ∈ [.media, .obs, .perf, .rstats] → p ∈ P) (h : r.keepsBut P s) : Answers r P (execProgramSuspendForRead pos ch s) := by
  unfold execProgramSuspendForRead
  try dsimp only
  repeat' first
    | with_reducible exact h
    | (with_reducible refine sub _ ?_); decide
    | (with_reducible refine part_sub sub ?_); decide
    | with_reducible apply State.count_keeps
    | with_reducible refine State.keeps_upMedia _ ?_ ?_
    | with_reducible refine State.keeps_upRstats _ ?_ ?_
    | with_reducible assumption
    | with_reducible refine keeps_ite ?_ ?_
    | with_reducible refine keeps_foldl (fun _ _ _ => ?_) ?_
    | with_reducible refine answers_next ?_
    | split
theorem execDeferredDirectRead_keeps {P : List Part} {r : State} (miss : Nat) (s : State)
    (sub : ∀ p, p ∈ [.slices, .media, .obs, .perf, .rstats] → p ∈ P) (h : r.keepsBut P s) : Answers r P (execDeferredDirectRead miss s) := by
  unfold execDeferredDirectRead
  try dsimp only
  repeat' first
    | with_reducible exact h
    | (with_reducible refine sub _ ?_); decide
    | (with_reducible refine part_sub sub ?_); decide
    | with_reducible apply State.countDirect_keeps
    | with_reducible apply State.setMiss_keeps
    | with_reducible assumption
    | with_reducible refine keeps_ite ?_ ?_
    | with_reducible refine keeps_foldl (fun _ _ _ => ?_) ?_
    | with_reducible refine answers_next ?_
    | split
theorem State.softLeave_keeps {P : List Part} {r : State} (id : Nat) (ch : Nat) (s : State)
    (sub : ∀ p, p ∈ [.reg] → p ∈ P) (h : r.keepsBut P s) : r.keepsBut P (State.softLeave id ch s) := by
  unfold State.softLeave
  try dsimp only
  repeat' first
    | with_reducible exact h
    | (with_reducible refine sub _ ?_); decide
    | (with_reducible refine part_sub sub ?_); decide
    | with_reducible apply State.askLeave_keeps
    | with_reducible assumption
    | with_reducible refine keeps_ite ?_ ?_
    | with_reducible refine keeps_foldl (fun _ _ _ => ?_) ?_
    | split
theorem State.firstSoft_keeps {P : List Part} {r : State} (m : Miss) (ch : Nat) (s : State)
    (sub : ∀ p, p ∈ [.slices, .reg, .obs, .perf, .rstats] → p ∈ P) (h : r.keepsBut P s) : r.keepsBut P (State.firstSoft m ch s) := by
  unfold State.firstSoft
  try dsimp only
  repeat' first
    | with_reducible exact h
    | (with_reducible refine sub _ ?_); decide
    | (with_reducible refine part_sub sub ?_); decide
    | with_reducible apply State.count_keeps
    | with_reducible apply State.setMiss_keeps
    | with_reducible apply State.softLeave_keeps
    | with_reducible refine State.keeps_upRstats _ ?_ ?_
    | with_reducible assumption
    | with_reducible refine keeps_ite ?_ ?_
    | with_reducible refine keeps_foldl (fun _ _ _ => ?_) ?_
    | split
theorem State.secondSoft_keeps {P : List Part} {r : State} (m : Miss) (ch : Nat) (s : State)
    (sub : ∀ p, p ∈ [.reg, .obs, .perf, .rstats] → p ∈ P) (h : r.keepsBut P s) : r.keepsBut P (State.secondSoft m ch s) := by
  unfold State.secondSoft
  try dsimp only
  repeat' first
    | with_reducible exact h
    | (with_reducible refine sub _ ?_); decide
    | (with_reducible refine part_sub sub ?_); decide
    | with_reducible apply State.count_keeps
    | with_reducible apply State.softLeave_keeps
    | with_reducible refine State.keeps_upRstats _ ?_ ?_
    | with_reducible assumption
    | with_reducible refine keeps_ite ?_ ?_
    | with_reducible refine keeps_foldl (fun _ _ _ => ?_) ?_
    | split
theorem State.toStep2_keeps {P : List Part} {r : State} (m : Miss) (s : State)
    (sub : ∀ p, p ∈ [.slices, .media, .reg, .obs, .perf, .rstats] → p ∈ P) (h : r.keepsBut P s) : r.keepsBut P (State.toStep2 m s) := by
  unfold State.toStep2
  try dsimp only
  repeat' first
    | with_reducible exact h
    | (with_reducible refine sub _ ?_); decide
    | (with_reducible refine part_sub sub ?_); decide
    | with_reducible apply State.firstSoft_keeps
    | with_reducible apply State.queueRead_keeps
    | with_reducible apply State.setMiss_keeps
    | with_reducible assumption
    | with_reducible refine keeps_ite ?_ ?_
    | with_reducible refine keeps_foldl (fun _ _ _ => ?_) ?_
    | split
theorem State.toStep3_keeps {P : List Part} {r : State} (m : Miss) (s : State)
    (sub : ∀ p, p ∈ [.slices, .media, .reg, .dram, .gills, .obs, .perf, .rstats] → p ∈ P) (h : r.keepsBut P s) : r.keepsBut P (State.toStep3 m s) := by
  unfold State.toStep3
  try dsimp only
  repeat' first
    | with_reducible exact h
    | (with_reducible refine sub _ ?_); decide
    | (with_reducible refine part_sub sub ?_); decide
    | with_reducible apply State.countPeers_keeps
    | with_reducible apply State.gill_keeps
    | with_reducible apply State.setMiss_keeps
    | with_reducible refine State.keeps_upRstats _ ?_ ?_
    | with_reducible assumption
    | with_reducible refine keeps_ite ?_ ?_
    | with_reducible refine keeps_foldl (fun _ _ _ => ?_) ?_
    | split
theorem State.furtherLoss_keeps {P : List Part} {r : State} (m : Miss) (s : State)
    (sub : ∀ p, p ∈ [.pwr, .map, .yoke, .keys, .obs, .perf, .cmds] → p ∈ P) (h : r.keepsBut P s) : r.keepsBut P (State.furtherLoss m s) := by
  unfold State.furtherLoss
  try dsimp only
  repeat' first
    | with_reducible exact h
    | (with_reducible refine sub _ ?_); decide
    | (with_reducible refine part_sub sub ?_); decide
    | with_reducible apply State.stripeLost_keeps
    | with_reducible assumption
    | with_reducible refine keeps_ite ?_ ?_
    | with_reducible refine keeps_foldl (fun _ _ _ => ?_) ?_
    | split
theorem State.fetchLost_keeps {P : List Part} {r : State} (m : Miss) (s : State)
    (sub : ∀ p, p ∈ [.pwr, .port, .reqs, .fc, .tier, .slices, .budget, .media, .map, .care, .yoke, .atom, .keys, .reg, .mbox, .obs, .perf, .firkin, .rstats, .cmds] → p ∈ P) (h : r.keepsBut P s) : r.keepsBut P (State.fetchLost m s) := by
  unfold State.fetchLost
  try dsimp only
  repeat' first
    | with_reducible exact h
    | (with_reducible refine sub _ ?_); decide
    | (with_reducible refine part_sub sub ?_); decide
    | with_reducible apply State.dropMiss_keeps
    | with_reducible apply State.fetchFailed_keeps
    | with_reducible apply State.furtherLoss_keeps
    | with_reducible refine State.keeps_upReqs _ ?_ ?_
    | with_reducible assumption
    | with_reducible refine keeps_ite ?_ ?_
    | with_reducible refine keeps_foldl (fun _ _ _ => ?_) ?_
    | split
theorem State.toStep4_keeps {P : List Part} {r : State} (m : Miss) (s : State)
    (sub : ∀ p, p ∈ [.pwr, .port, .reqs, .fc, .tier, .slices, .budget, .media, .map, .care, .yoke, .atom, .keys, .reg, .mbox, .obs, .perf, .firkin, .rstats, .cmds] → p ∈ P) (h : r.keepsBut P s) : r.keepsBut P (State.toStep4 m s) := by
  unfold State.toStep4
  try dsimp only
  repeat' first
    | with_reducible exact h
    | (with_reducible refine sub _ ?_); decide
    | (with_reducible refine part_sub sub ?_); decide
    | with_reducible apply State.boundFail_keeps
    | with_reducible apply State.fetchLost_keeps
    | with_reducible apply State.queueRead_keeps
    | with_reducible apply State.secondSoft_keeps
    | with_reducible apply State.setMiss_keeps
    | with_reducible assumption
    | with_reducible refine keeps_ite ?_ ?_
    | with_reducible refine keeps_foldl (fun _ _ _ => ?_) ?_
    | split
theorem State.combineBad_keeps {P : List Part} {r : State} (m : Miss) (s : State)
    (sub : ∀ p, p ∈ [.pwr, .port, .reqs, .fc, .tier, .slices, .budget, .media, .map, .care, .yoke, .atom, .keys, .reg, .mbox, .obs, .perf, .firkin, .rstats, .cmds] → p ∈ P) (h : r.keepsBut P s) : r.keepsBut P (State.combineBad m s) := by
  unfold State.combineBad
  try dsimp only
  repeat' first
    | with_reducible exact h
    | (with_reducible refine sub _ ?_); decide
    | (with_reducible refine part_sub sub ?_); decide
    | with_reducible apply State.countDirect_keeps
    | with_reducible apply State.fetchLost_keeps
    | with_reducible apply State.setMiss_keeps
    | with_reducible apply State.stopReads_keeps
    | with_reducible apply State.toStep2_keeps
    | with_reducible apply State.toStep4_keeps
    | with_reducible assumption
    | with_reducible refine keeps_ite ?_ ?_
    | with_reducible refine keeps_foldl (fun _ _ _ => ?_) ?_
    | split
theorem State.prefetch_keeps {P : List Part} {r : State} (m : Miss) (s : State)
    (sub : ∀ p, p ∈ [.slices, .obs, .perf, .rstats] → p ∈ P) (h : r.keepsBut P s) : r.keepsBut P (State.prefetch m s) := by
  unfold State.prefetch
  try dsimp only
  repeat' first
    | with_reducible exact h
    | (with_reducible refine sub _ ?_); decide
    | (with_reducible refine part_sub sub ?_); decide
    | with_reducible apply State.count_keeps
    | with_reducible refine State.keeps_upRstats _ ?_ ?_
    | with_reducible refine State.keeps_upSlices _ ?_ ?_
    | with_reducible assumption
    | with_reducible refine keeps_ite ?_ ?_
    | with_reducible refine keeps_foldl (fun _ _ _ => ?_) ?_
    | split
theorem State.softEnds_keeps {P : List Part} {r : State} (m : Miss) (ch : Nat) (cell : Nat) (step : Nat) (offsets : List Int) (s : State)
    (sub : ∀ p, p ∈ [.media, .care, .reg, .dram, .gills, .obs] → p ∈ P) (h : r.keepsBut P s) : r.keepsBut P (State.softEnds m ch cell step offsets s) := by
  unfold State.softEnds
  try dsimp only
  repeat' first
    | with_reducible exact h
    | (with_reducible refine sub _ ?_); decide
    | (with_reducible refine part_sub sub ?_); decide
    | with_reducible apply State.gill_keeps
    | with_reducible apply State.giveLeave_keeps
    | with_reducible apply State.softDecoded_keeps
    | with_reducible assumption
    | with_reducible refine keeps_ite ?_ ?_
    | with_reducible refine keeps_foldl (fun _ _ _ => ?_) ?_
    | split
theorem State.healed_keeps {P : List Part} {r : State} (m : Miss) (s : State)
    (sub : ∀ p, p ∈ [.pwr, .media, .map, .care, .yoke, .reg, .obs, .perf, .cmds] → p ∈ P) (h : r.keepsBut P s) : r.keepsBut P (State.healed m s) := by
  unfold State.healed
  try dsimp only
  repeat' first
    | with_reducible exact h
    | (with_reducible refine sub _ ?_); decide
    | (with_reducible refine part_sub sub ?_); decide
    | with_reducible apply State.queueMoves_keeps
    | with_reducible assumption
    | with_reducible refine keeps_ite ?_ ?_
    | with_reducible refine keeps_foldl (fun _ _ _ => ?_) ?_
    | split
theorem State.decodedGood_keeps {P : List Part} {r : State} (m : Miss) (corrected : Nat) (offsets : List Int) (s : State)
    (sub : ∀ p, p ∈ [.pwr, .port, .reqs, .fc, .tier, .slices, .budget, .media, .map, .care, .yoke, .atom, .reg, .dram, .gills, .mbox, .obs, .perf, .firkin, .rstats, .cmds] → p ∈ P) (h : r.keepsBut P s) : r.keepsBut P (State.decodedGood m corrected offsets s) := by
  unfold State.decodedGood
  try dsimp only
  repeat' first
    | with_reducible exact h
    | (with_reducible refine sub _ ?_); decide
    | (with_reducible refine part_sub sub ?_); decide
    | with_reducible apply State.codewordRead_keeps
    | with_reducible apply State.count_keeps
    | with_reducible apply State.fetched_keeps
    | with_reducible apply State.gill_keeps
    | with_reducible apply State.serveDie_keeps
    | with_reducible apply State.softEnds_keeps
    | with_reducible refine State.keeps_upRstats _ ?_ ?_
    | with_reducible assumption
    | with_reducible refine keeps_ite ?_ ?_
    | with_reducible refine keeps_foldl (fun _ _ _ => ?_) ?_
    | split
theorem State.decodedBad_keeps {P : List Part} {r : State} (m0 : Miss) (crc : Bool) (offsets : List Int) (s : State)
    (sub : ∀ p, p ∈ [.pwr, .port, .reqs, .fc, .tier, .slices, .budget, .media, .map, .care, .yoke, .atom, .keys, .reg, .dram, .gills, .mbox, .obs, .perf, .firkin, .rstats, .cmds] → p ∈ P) (h : r.keepsBut P s) : r.keepsBut P (State.decodedBad m0 crc offsets s) := by
  unfold State.decodedBad
  try dsimp only
  repeat' first
    | with_reducible exact h
    | (with_reducible refine sub _ ?_); decide
    | (with_reducible refine part_sub sub ?_); decide
    | with_reducible apply State.codewordRead_keeps
    | with_reducible apply State.fetchLost_keeps
    | with_reducible apply State.serveDie_keeps
    | with_reducible apply State.setMiss_keeps
    | with_reducible apply State.softEnds_keeps
    | with_reducible apply State.toStep2_keeps
    | with_reducible apply State.toStep3_keeps
    | with_reducible assumption
    | with_reducible refine keeps_ite ?_ ?_
    | with_reducible refine keeps_foldl (fun _ _ _ => ?_) ?_
    | split
theorem State.peerDecoded_keeps {P : List Part} {r : State} (m : Miss) (p : Peer) (good : Bool) (corrected : Nat) (offsets : List Int) (s : State)
    (sub : ∀ p, p ∈ [.pwr, .port, .reqs, .fc, .tier, .slices, .budget, .media, .map, .care, .yoke, .atom, .keys, .reg, .dram, .gills, .mbox, .obs, .perf, .firkin, .rstats, .cmds] → p ∈ P) (h : r.keepsBut P s) : r.keepsBut P (State.peerDecoded m p good corrected offsets s) := by
  unfold State.peerDecoded
  try dsimp only
  repeat' first
    | with_reducible exact h
    | (with_reducible refine sub _ ?_); decide
    | (with_reducible refine part_sub sub ?_); decide
    | with_reducible apply State.codewordRead_keeps
    | with_reducible apply State.combineBad_keeps
    | with_reducible apply State.firstSoft_keeps
    | with_reducible apply State.gill_keeps
    | with_reducible apply State.queueRead_keeps
    | with_reducible apply State.serveDie_keeps
    | with_reducible apply State.setMiss_keeps
    | with_reducible apply State.softEnds_keeps
    | with_reducible assumption
    | with_reducible refine keeps_ite ?_ ?_
    | with_reducible refine keeps_foldl (fun _ _ _ => ?_) ?_
    | split
theorem execCodewordDecoded_keeps {P : List Part} {r : State} (miss : Nat) (ch : Nat) (x2 : Decode) (corrected : Nat) (offsets : List Int) (s : State)
    (sub : ∀ p, p ∈ [.pwr, .port, .reqs, .fc, .tier, .slices, .budget, .media, .map, .care, .yoke, .atom, .keys, .reg, .dram, .gills, .mbox, .obs, .perf, .firkin, .rstats, .cmds] → p ∈ P) (h : r.keepsBut P s) : Answers r P (execCodewordDecoded miss ch x2 corrected offsets s) := by
  unfold execCodewordDecoded
  try dsimp only
  repeat' first
    | with_reducible exact h
    | (with_reducible refine sub _ ?_); decide
    | (with_reducible refine part_sub sub ?_); decide
    | with_reducible apply State.decodedBad_keeps
    | with_reducible apply State.decodedGood_keeps
    | with_reducible apply State.peerDecoded_keeps
    | with_reducible apply State.prefetch_keeps
    | with_reducible apply State.takeWord_keeps
    | with_reducible assumption
    | with_reducible refine keeps_ite ?_ ?_
    | with_reducible refine keeps_foldl (fun _ _ _ => ?_) ?_
    | with_reducible exact keepsO_get (by assumption)
    | with_reducible refine keepsO_map (fun _ _ => ?_) ?_
    | with_reducible refine keepsO_foldl (fun _ _ _ => ?_) ?_
    | exact keepsO_none
    | with_reducible refine keepsO_some ?_
    | with_reducible refine answers_next ?_
    | split
    | with_reducible refine KeepsO.out (by assumption) ?_
theorem execStripeCombineDone_keeps {P : List Part} {r : State} (miss : Nat) (x1 : Decode) (s : State)
    (sub : ∀ p, p ∈ [.pwr, .port, .reqs, .fc, .tier, .slices, .budget, .media, .map, .care, .yoke, .atom, .keys, .reg, .mbox, .obs, .perf, .firkin, .rstats, .cmds] → p ∈ P) (h : r.keepsBut P s) : Answers r P (execStripeCombineDone miss x1 s) := by
  unfold execStripeCombineDone
  try dsimp only
  repeat' first
    | with_reducible exact h
    | (with_reducible refine sub _ ?_); decide
    | (with_reducible refine part_sub sub ?_); decide
    | with_reducible apply State.combineBad_keeps
    | with_reducible apply State.count_keeps
    | with_reducible apply State.fetched_keeps
    | with_reducible apply State.healed_keeps
    | with_reducible refine State.keeps_upRstats _ ?_ ?_
    | with_reducible assumption
    | with_reducible refine keeps_ite ?_ ?_
    | with_reducible refine keeps_foldl (fun _ _ _ => ?_) ?_
    | with_reducible refine answers_next ?_
    | split
theorem execPrefetchDone_keeps {P : List Part} {r : State} (pf : Nat) (x1 : Decode) (s : State)
    (sub : ∀ p, p ∈ [.reqs, .tier, .slices, .budget, .media, .obs, .perf, .rstats] → p ∈ P) (h : r.keepsBut P s) : Answers r P (execPrefetchDone pf x1 s) := by
  unfold execPrefetchDone
  try dsimp only
  repeat' first
    | with_reducible exact h
    | (with_reducible refine sub _ ?_); decide
    | (with_reducible refine part_sub sub ?_); decide
    | with_reducible apply State.tierFill_keeps
    | with_reducible apply State.useBus_keeps
    | with_reducible apply State.wakeChannel_keeps
    | with_reducible refine State.keeps_upRstats _ ?_ ?_
    | with_reducible refine State.keeps_upSlices _ ?_ ?_
    | with_reducible assumption
    | with_reducible refine keeps_ite ?_ ?_
    | with_reducible refine keeps_foldl (fun _ _ _ => ?_) ?_
    | with_reducible refine answers_next ?_
    | split
theorem execKeyUnwrapDone_keeps {P : List Part} {r : State} (id : Nat) (s : State)
    (sub : ∀ p, p ∈ [.slices, .keys] → p ∈ P) (h : r.keepsBut P s) : Answers r P (execKeyUnwrapDone id s) := by
  unfold execKeyUnwrapDone
  try dsimp only
  repeat' first
    | with_reducible exact h
    | (with_reducible refine sub _ ?_); decide
    | (with_reducible refine part_sub sub ?_); decide
    | with_reducible refine State.keeps_upKeys _ ?_ ?_
    | with_reducible refine State.keeps_upSlices _ ?_ ?_
    | with_reducible assumption
    | with_reducible refine keeps_ite ?_ ?_
    | with_reducible refine keeps_foldl (fun _ _ _ => ?_) ?_
    | with_reducible refine answers_next ?_
    | split
theorem State.pagedIn_keeps {P : List Part} {r : State} (m : Miss) (s : State)
    (sub : ∀ p, p ∈ [.pwr, .port, .reqs, .fc, .tier, .slices, .budget, .media, .care, .yoke, .atom, .reg, .mbox, .obs, .perf, .firkin, .rstats, .cmds] → p ∈ P) (h : r.keepsBut P s) : r.keepsBut P (State.pagedIn m s) := by
  unfold State.pagedIn
  try dsimp only
  repeat' first
    | with_reducible exact h
    | (with_reducible refine sub _ ?_); decide
    | (with_reducible refine part_sub sub ?_); decide
    | with_reducible apply State.admitRead_keeps
    | with_reducible apply State.answerAttached_keeps
    | with_reducible apply State.dropMiss_keeps
    | with_reducible apply State.fcFill_keeps
    | with_reducible apply State.fillSector_keeps
    | with_reducible apply State.lockFetched_keeps
    | with_reducible apply State.lookUp_keeps
    | with_reducible apply State.parkAttached_keeps
    | with_reducible apply State.setMiss_keeps
    | with_reducible assumption
    | with_reducible refine keeps_ite ?_ ?_
    | with_reducible refine keeps_foldl (fun _ _ _ => ?_) ?_
    | split
theorem State.wakeUnit_keeps {P : List Part} {r : State} (unitType : Nat) (unit : Nat) (s : State)
    (sub : ∀ p, p ∈ [.media] → p ∈ P) (h : r.keepsBut P s) : r.keepsBut P (State.wakeUnit unitType unit s) := by
  unfold State.wakeUnit
  try dsimp only
  repeat' first
    | with_reducible exact h
    | (with_reducible refine sub _ ?_); decide
    | (with_reducible refine part_sub sub ?_); decide
    | with_reducible apply State.wakeChannel_keeps
    | with_reducible assumption
    | with_reducible refine keeps_ite ?_ ?_
    | with_reducible refine keeps_foldl (fun _ _ _ => ?_) ?_
    | split
theorem execMapUnitPageIn_keeps {P : List Part} {r : State} (unitType : Nat) (unit : Nat) (s : State)
    (sub : ∀ p, p ∈ [.pwr, .port, .reqs, .fc, .tier, .slices, .budget, .media, .map, .care, .yoke, .atom, .reg, .mbox, .obs, .perf, .firkin, .rstats, .cmds] → p ∈ P) (h : r.keepsBut P s) : Answers r P (execMapUnitPageIn unitType unit s) := by
  unfold execMapUnitPageIn
  try dsimp only
  repeat' first
    | with_reducible exact h
    | (with_reducible refine sub _ ?_); decide
    | (with_reducible refine part_sub sub ?_); decide
    | with_reducible apply State.pagedIn_keeps
    | with_reducible apply State.wakeUnit_keeps
    | with_reducible refine State.keeps_upMap _ ?_ ?_
    | with_reducible assumption
    | with_reducible refine keeps_ite ?_ ?_
    | with_reducible refine keeps_foldl (fun _ _ _ => ?_) ?_
    | with_reducible refine answers_next ?_
    | split
theorem execTierFillDone_keeps {P : List Part} {r : State} (sector : Nat) (s : State)
    (sub : ∀ p, p ∈ [.pwr, .reqs, .tier, .slices, .budget, .media, .map, .reg, .obs, .cmds] → p ∈ P) (h : r.keepsBut P s) : Answers r P (execTierFillDone sector s) := by
  unfold execTierFillDone
  try dsimp only
  repeat' first
    | with_reducible exact h
    | (with_reducible refine sub _ ?_); decide
    | (with_reducible refine part_sub sub ?_); decide
    | with_reducible apply State.deliverFill_keeps
    | with_reducible apply State.poisonFill_keeps
    | with_reducible assumption
    | with_reducible refine keeps_ite ?_ ?_
    | with_reducible refine keeps_foldl (fun _ _ _ => ?_) ?_
    | with_reducible refine answers_next ?_
    | split
theorem State.endBase_keeps {P : List Part} {r : State} (line : Nat) (s : State)
    (sub : ∀ p, p ∈ [.slices, .media, .reg] → p ∈ P) (h : r.keepsBut P s) : r.keepsBut P (State.endBase line s) := by
  unfold State.endBase
  try dsimp only
  repeat' first
    | with_reducible exact h
    | (with_reducible refine sub _ ?_); decide
    | (with_reducible refine part_sub sub ?_); decide
    | with_reducible apply State.dropMiss_keeps
    | with_reducible assumption
    | with_reducible refine keeps_ite ?_ ?_
    | with_reducible refine keeps_foldl (fun _ _ _ => ?_) ?_
    | split
theorem execMergeBaseArrived_keeps {P : List Part} {r : State} (line : Nat) (dramBad : Bool) (s : State)
    (sub : ∀ p, p ∈ [.pwr, .reqs, .fc, .tier, .slices, .budget, .media, .map, .reg, .obs, .perf, .rstats, .cmds] → p ∈ P) (h : r.keepsBut P s) : Answers r P (execMergeBaseArrived line dramBad s) := by
  unfold execMergeBaseArrived
  try dsimp only
  repeat' first
    | with_reducible exact h
    | (with_reducible refine sub _ ?_); decide
    | (with_reducible refine part_sub sub ?_); decide
    | with_reducible apply State.endBase_keeps
    | with_reducible apply State.mergeLost_keeps
    | with_reducible apply State.mergeWith_keeps
    | with_reducible apply State.poison_keeps
    | with_reducible assumption
    | with_reducible refine keeps_ite ?_ ?_
    | with_reducible refine keeps_foldl (fun _ _ _ => ?_) ?_
    | with_reducible refine answers_next ?_
    | split
theorem execBoundConditionClear_keeps {P : List Part} {r : State} (bit : Nat) (s : State)
    (sub : ∀ p, p ∈ [.clk, .obs, .perf, .rstats] → p ∈ P) (h : r.keepsBut P s) : Answers r P (execBoundConditionClear bit s) := by
  unfold execBoundConditionClear
  try dsimp only
  repeat' first
    | with_reducible exact h
    | (with_reducible refine sub _ ?_); decide
    | (with_reducible refine part_sub sub ?_); decide
    | with_reducible apply State.elapseTo_keeps
    | with_reducible apply State.log_keeps
    | with_reducible refine State.keeps_upRstats _ ?_ ?_
    | with_reducible assumption
    | with_reducible refine keeps_ite ?_ ?_
    | with_reducible refine keeps_foldl (fun _ _ _ => ?_) ?_
    | with_reducible refine answers_next ?_
    | split

end Sys2Proof.Machine
end

