-- ==== Sys2Proof/Laws/KeepsGrains.lean ====
section
/-!
SUPPORT. What each operation of Machine/Grains.lean leaves unchanged: the groups of the state it may write, the others kept.
-/
namespace Sys2Proof.Machine

theorem State.putJob_keeps {P : List Part} {r : State} (key : Nat) (j : Job) (s : State)
    (sub : ∀ p, p ∈ [.cmds] → p ∈ P) (h : r.keepsBut P s) : r.keepsBut P (State.putJob key j s) := by
  unfold State.putJob
  try dsimp only
  repeat' first
    | with_reducible exact h
    | (with_reducible refine sub _ ?_); decide
    | (with_reducible refine part_sub sub ?_); decide
    | with_reducible refine State.keeps_upCmds _ ?_ ?_
    | with_reducible assumption
    | with_reducible refine keeps_ite ?_ ?_
    | with_reducible refine keeps_foldl (fun _ _ _ => ?_) ?_
    | split
theorem State.dropJob_keeps {P : List Part} {r : State} (key : Nat) (s : State)
    (sub : ∀ p, p ∈ [.cmds] → p ∈ P) (h : r.keepsBut P s) : r.keepsBut P (State.dropJob key s) := by
  unfold State.dropJob
  try dsimp only
  repeat' first
    | with_reducible exact h
    | (with_reducible refine sub _ ?_); decide
    | (with_reducible refine part_sub sub ?_); decide
    | with_reducible refine State.keeps_upCmds _ ?_ ?_
    | with_reducible assumption
    | with_reducible refine keeps_ite ?_ ?_
    | with_reducible refine keeps_foldl (fun _ _ _ => ?_) ?_
    | split
theorem State.forgetLines_keeps {P : List Part} {r : State} (p : Nat → Bool) (s : State)
    (sub : ∀ p, p ∈ [.pwr, .port, .reqs, .fc, .tier, .slices, .budget, .map, .care, .yoke, .reg, .mbox, .obs, .perf, .firkin, .rstats, .cmds] → p ∈ P) (h : r.keepsBut P s) : r.keepsBut P (State.forgetLines p s) := by
  unfold State.forgetLines
  try dsimp only
  repeat' first
    | with_reducible exact h
    | (with_reducible refine sub _ ?_); decide
    | (with_reducible refine part_sub sub ?_); decide
    | with_reducible apply State.answer_keeps
    | with_reducible apply State.releaseAll_keeps
    | with_reducible apply State.send_keeps
    | with_reducible refine State.keeps_upBudget _ ?_ ?_
    | with_reducible refine State.keeps_upFc _ ?_ ?_
    | with_reducible refine State.keeps_upMap _ ?_ ?_
    | with_reducible refine State.keeps_upReqs _ ?_ ?_
    | with_reducible refine State.keeps_upTier _ ?_ ?_
    | with_reducible refine State.keeps_upYoke _ ?_ ?_
    | with_reducible assumption
    | with_reducible refine keeps_ite ?_ ?_
    | with_reducible refine keeps_foldl (fun _ _ _ => ?_) ?_
    | split
theorem State.dropLines_keeps {P : List Part} {r : State} (p : Nat → Bool) (s : State)
    (sub : ∀ p, p ∈ [.pwr, .port, .reqs, .fc, .tier, .slices, .budget, .map, .care, .yoke, .atom, .reg, .mbox, .obs, .perf, .firkin, .rstats, .cmds] → p ∈ P) (h : r.keepsBut P s) : r.keepsBut P (State.dropLines p s) := by
  unfold State.dropLines
  try dsimp only
  repeat' first
    | with_reducible exact h
    | (with_reducible refine sub _ ?_); decide
    | (with_reducible refine part_sub sub ?_); decide
    | with_reducible apply State.endRes_keeps
    | with_reducible apply State.forgetLines_keeps
    | with_reducible assumption
    | with_reducible refine keeps_ite ?_ ?_
    | with_reducible refine keeps_foldl (fun _ _ _ => ?_) ?_
    | split
theorem State.voidWork_keeps {P : List Part} {r : State} (p : Nat → Bool) (s : State)
    (sub : ∀ p, p ∈ [.budget, .media] → p ∈ P) (h : r.keepsBut P s) : r.keepsBut P (State.voidWork p s) := by
  unfold State.voidWork
  try dsimp only
  repeat' first
    | with_reducible exact h
    | (with_reducible refine sub _ ?_); decide
    | (with_reducible refine part_sub sub ?_); decide
    | with_reducible refine State.keeps_upBudget _ ?_ ?_
    | with_reducible refine State.keeps_upMedia _ ?_ ?_
    | with_reducible assumption
    | with_reducible refine keeps_ite ?_ ?_
    | with_reducible refine keeps_foldl (fun _ _ _ => ?_) ?_
    | split
theorem State.finishRun_keeps {P : List Part} {r : State} (st : GrainSt) (run : Nat × Nat) (s : State)
    (sub : ∀ p, p ∈ [.pwr, .budget, .media, .map, .care, .yoke, .keys, .reg, .tabs, .obs, .perf, .cmds] → p ∈ P) (h : r.keepsBut P s) : r.keepsBut P (State.finishRun st run s) := by
  unfold State.finishRun
  try dsimp only
  repeat' first
    | with_reducible exact h
    | (with_reducible refine sub _ ?_); decide
    | (with_reducible refine part_sub sub ?_); decide
    | with_reducible apply State.journal_keeps
    | with_reducible apply State.mark_keeps
    | with_reducible apply State.rekeyDone_keeps
    | with_reducible apply State.retireKeys_keeps
    | with_reducible apply State.settle_keeps
    | with_reducible apply State.voidWork_keeps
    | with_reducible refine State.keeps_upMap _ ?_ ?_
    | with_reducible assumption
    | with_reducible refine keeps_ite ?_ ?_
    | with_reducible refine keeps_foldl (fun _ _ _ => ?_) ?_
    | split
theorem State.changeRun_keeps {P : List Part} {r : State} (st : GrainSt) (run : Nat × Nat) (s : State)
    (sub : ∀ p, p ∈ [.pwr, .port, .reqs, .fc, .tier, .slices, .budget, .media, .map, .care, .yoke, .atom, .keys, .reg, .tabs, .mbox, .obs, .perf, .firkin, .rstats, .cmds] → p ∈ P) (h : r.keepsBut P s) : r.keepsBut P (State.changeRun st run s) := by
  unfold State.changeRun
  try dsimp only
  repeat' first
    | with_reducible exact h
    | (with_reducible refine sub _ ?_); decide
    | (with_reducible refine part_sub sub ?_); decide
    | with_reducible apply State.dropLines_keeps
    | with_reducible apply State.finishRun_keeps
    | with_reducible assumption
    | with_reducible refine keeps_ite ?_ ?_
    | with_reducible refine keeps_foldl (fun _ _ _ => ?_) ?_
    | split
theorem State.sendChange_keeps {P : List Part} {r : State} (code : Nat) (g : Nat) (s : State)
    (sub : ∀ p, p ∈ [.pwr, .port, .reqs, .fc, .tier, .slices, .budget, .map, .care, .yoke, .atom, .reg, .mbox, .obs, .perf, .firkin, .rstats, .cmds] → p ∈ P) (h : r.keepsBut P s) : r.keepsBut P (State.sendChange code g s) := by
  unfold State.sendChange
  try dsimp only
  repeat' first
    | with_reducible exact h
    | (with_reducible refine sub _ ?_); decide
    | (with_reducible refine part_sub sub ?_); decide
    | with_reducible apply State.dropLines_keeps
    | with_reducible apply State.send_keeps
    | with_reducible refine State.keeps_upMap _ ?_ ?_
    | with_reducible assumption
    | with_reducible refine keeps_ite ?_ ?_
    | with_reducible refine keeps_foldl (fun _ _ _ => ?_) ?_
    | split
theorem State.restChange_keeps {P : List Part} {r : State} (code : Nat) (g : Nat) (s : State)
    (sub : ∀ p, p ∈ [.pwr, .port, .reqs, .fc, .tier, .slices, .budget, .media, .map, .care, .yoke, .atom, .keys, .reg, .tabs, .mbox, .obs, .perf, .firkin, .rstats, .cmds] → p ∈ P) (h : r.keepsBut P s) : r.keepsBut P (State.restChange code g s) := by
  unfold State.restChange
  try dsimp only
  repeat' first
    | with_reducible exact h
    | (with_reducible refine sub _ ?_); decide
    | (with_reducible refine part_sub sub ?_); decide
    | with_reducible apply State.dropLines_keeps
    | with_reducible apply State.finishRun_keeps
    | with_reducible assumption
    | with_reducible refine keeps_ite ?_ ?_
    | with_reducible refine keeps_foldl (fun _ _ _ => ?_) ?_
    | split
theorem State.eraseStage_keeps {P : List Part} {r : State} (key : Nat) (s : State)
    (sub : ∀ p, p ∈ [.pwr, .media, .map, .care, .yoke, .reg, .obs, .perf, .cmds] → p ∈ P) (h : r.keepsBut P s) : r.keepsBut P (State.eraseStage key s) := by
  unfold State.eraseStage
  try dsimp only
  repeat' first
    | with_reducible exact h
    | (with_reducible refine sub _ ?_); decide
    | (with_reducible refine part_sub sub ?_); decide
    | with_reducible apply State.askLeave_keeps
    | with_reducible apply State.putJob_keeps
    | with_reducible apply State.queueMoves_keeps
    | with_reducible apply State.send_keeps
    | with_reducible apply State.setGroup_keeps
    | with_reducible apply State.settle_keeps
    | with_reducible refine State.keeps_upMap _ ?_ ?_
    | with_reducible assumption
    | with_reducible refine keeps_ite ?_ ?_
    | with_reducible refine keeps_foldl (fun _ _ _ => ?_) ?_
    | split
theorem State.record_keeps {P : List Part} {r : State} (code : Nat) (keyId : Nat) (base : Nat) (len : Nat) (s : State)
    (sub : ∀ p, p ∈ [.yoke] → p ∈ P) (h : r.keepsBut P s) : r.keepsBut P (State.record code keyId base len s) := by
  unfold State.record
  try dsimp only
  repeat' first
    | with_reducible exact h
    | (with_reducible refine sub _ ?_); decide
    | (with_reducible refine part_sub sub ?_); decide
    | with_reducible refine State.keeps_upYoke _ ?_ ?_
    | with_reducible assumption
    | with_reducible refine keeps_ite ?_ ?_
    | with_reducible refine keeps_foldl (fun _ _ _ => ?_) ?_
    | split
theorem State.ackChange_keeps {P : List Part} {r : State} (g : Nat) (s : State)
    (sub : ∀ p, p ∈ [.pwr, .port, .reqs, .fc, .tier, .slices, .budget, .media, .map, .care, .yoke, .atom, .keys, .reg, .tabs, .mbox, .obs, .perf, .firkin, .rstats, .cmds] → p ∈ P) (h : r.keepsBut P s) : r.keepsBut P (State.ackChange g s) := by
  unfold State.ackChange
  try dsimp only
  repeat' first
    | with_reducible exact h
    | (with_reducible refine sub _ ?_); decide
    | (with_reducible refine part_sub sub ?_); decide
    | with_reducible apply State.eraseStage_keeps
    | with_reducible apply State.putJob_keeps
    | with_reducible apply State.restChange_keeps
    | with_reducible apply State.setVal_keeps
    | with_reducible assumption
    | with_reducible refine keeps_ite ?_ ?_
    | with_reducible refine keeps_foldl (fun _ _ _ => ?_) ?_
    | split
theorem State.sendHeld_keeps {P : List Part} {r : State} (s : State)
    (sub : ∀ p, p ∈ [.pwr, .port, .reqs, .fc, .tier, .slices, .budget, .map, .care, .yoke, .atom, .reg, .mbox, .obs, .perf, .firkin, .rstats, .cmds] → p ∈ P) (h : r.keepsBut P s) : r.keepsBut P (State.sendHeld s) := by
  unfold State.sendHeld
  try dsimp only
  repeat' first
    | with_reducible exact h
    | (with_reducible refine sub _ ?_); decide
    | (with_reducible refine part_sub sub ?_); decide
    | with_reducible apply State.putJob_keeps
    | with_reducible apply State.sendChange_keeps
    | with_reducible assumption
    | with_reducible refine keeps_ite ?_ ?_
    | with_reducible refine keeps_foldl (fun _ _ _ => ?_) ?_
    | split
theorem State.goOn_keeps {P : List Part} {r : State} (s : State)
    (sub : ∀ p, p ∈ [.pwr, .port, .reqs, .fc, .tier, .slices, .budget, .media, .map, .care, .yoke, .atom, .keys, .reg, .tabs, .mbox, .obs, .perf, .firkin, .rstats, .cmds] → p ∈ P) (h : r.keepsBut P s) : r.keepsBut P (State.goOn s) := by
  unfold State.goOn
  try dsimp only
  repeat' first
    | with_reducible exact h
    | (with_reducible refine sub _ ?_); decide
    | (with_reducible refine part_sub sub ?_); decide
    | with_reducible apply State.eraseStage_keeps
    | with_reducible apply State.putJob_keeps
    | with_reducible apply State.restChange_keeps
    | with_reducible apply State.sendHeld_keeps
    | with_reducible apply State.setVal_keeps
    | with_reducible assumption
    | with_reducible refine keeps_ite ?_ ?_
    | with_reducible refine keeps_foldl (fun _ _ _ => ?_) ?_
    | split
theorem State.soleJobs_keeps {P : List Part} {r : State} (s : State)
    (sub : ∀ p, p ∈ [.pwr, .port, .reqs, .fc, .tier, .slices, .budget, .media, .map, .care, .yoke, .atom, .keys, .reg, .tabs, .mbox, .obs, .perf, .firkin, .rstats, .cmds] → p ∈ P) (h : r.keepsBut P s) : r.keepsBut P (State.soleJobs s) := by
  unfold State.soleJobs
  try dsimp only
  repeat' first
    | with_reducible exact h
    | (with_reducible refine sub _ ?_); decide
    | (with_reducible refine part_sub sub ?_); decide
    | with_reducible apply State.eraseStage_keeps
    | with_reducible apply State.putJob_keeps
    | with_reducible apply State.restChange_keeps
    | with_reducible apply State.setVal_keeps
    | with_reducible assumption
    | with_reducible refine keeps_ite ?_ ?_
    | with_reducible refine keeps_foldl (fun _ _ _ => ?_) ?_
    | split

end Sys2Proof.Machine
end

