-- ==== Sys2Proof/Laws/KeepsCarry.lean ====
section
/-!
SUPPORT. What each operation of Machine/Carry.lean leaves unchanged: the groups of the state it may write, the others kept.
-/
namespace Sys2Proof.Machine

theorem State.noteYokeCrc_keeps {P : List Part} {r : State} (line : Nat) (ok : Bool) (s : State)
    (sub : ∀ p, p ∈ [.obs] → p ∈ P) (h : r.keepsBut P s) : r.keepsBut P (State.noteYokeCrc line ok s) := by
  unfold State.noteYokeCrc
  try dsimp only
  repeat' first
    | with_reducible exact h
    | (with_reducible refine sub _ ?_); decide
    | (with_reducible refine part_sub sub ?_); decide
    | with_reducible apply State.log_keeps
    | with_reducible assumption
    | with_reducible refine keeps_ite ?_ ?_
    | with_reducible refine keeps_foldl (fun _ _ _ => ?_) ?_
    | split
theorem State.putWrite_keeps {P : List Part} {r : State} (line : Nat) (d : Line) (m : Mask) (poison : Bool) (s : State)
    (sub : ∀ p, p ∈ [.pwr, .reqs, .fc, .tier, .slices, .budget, .media, .map, .care, .atom, .reg, .obs, .perf, .rstats, .cmds] → p ∈ P) (h : r.keepsBut P s) : KeepsO r P (State.putWrite line d m poison s) := by
  unfold State.putWrite
  try dsimp only
  repeat' first
    | with_reducible exact h
    | (with_reducible refine sub _ ?_); decide
    | (with_reducible refine part_sub sub ?_); decide
    | with_reducible apply State.applyWrite_keeps
    | with_reducible apply State.brineDrop_keeps
    | with_reducible apply State.chargeFor_keeps
    | with_reducible apply State.wakeSlice_keeps
    | with_reducible assumption
    | with_reducible refine keeps_ite ?_ ?_
    | with_reducible refine keeps_foldl (fun _ _ _ => ?_) ?_
    | with_reducible exact keepsO_get (by assumption)
    | with_reducible refine keepsO_map (fun _ _ => ?_) ?_
    | with_reducible refine keepsO_foldl (fun _ _ _ => ?_) ?_
    | exact keepsO_none
    | with_reducible refine keepsO_some ?_
    | split
    | with_reducible refine KeepsO.out (by assumption) ?_
theorem State.replyFor_keeps {P : List Part} {r : State} (line : Nat) (m : YokeMsg) (s : State)
    (sub : ∀ p, p ∈ [.reqs, .budget, .yoke, .obs, .perf] → p ∈ P) (h : r.keepsBut P s) : r.keepsBut P (State.replyFor line m s) := by
  unfold State.replyFor
  try dsimp only
  repeat' first
    | with_reducible exact h
    | (with_reducible refine sub _ ?_); decide
    | (with_reducible refine part_sub sub ?_); decide
    | with_reducible apply State.queueWb_keeps
    | with_reducible apply State.send_keeps
    | with_reducible refine State.keeps_upReqs _ ?_ ?_
    | with_reducible refine State.keeps_upYoke _ ?_ ?_
    | with_reducible assumption
    | with_reducible refine keeps_ite ?_ ?_
    | with_reducible refine keeps_foldl (fun _ _ _ => ?_) ?_
    | split
theorem State.dropFlight_keeps {P : List Part} {r : State} (f : Flight) (s : State)
    (sub : ∀ p, p ∈ [.pwr, .map, .yoke, .obs, .cmds] → p ∈ P) (h : r.keepsBut P s) : r.keepsBut P (State.dropFlight f s) := by
  unfold State.dropFlight
  try dsimp only
  repeat' first
    | with_reducible exact h
    | (with_reducible refine sub _ ?_); decide
    | (with_reducible refine part_sub sub ?_); decide
    | with_reducible apply State.unmark_keeps
    | with_reducible refine State.keeps_upYoke _ ?_ ?_
    | with_reducible assumption
    | with_reducible refine keeps_ite ?_ ?_
    | with_reducible refine keeps_foldl (fun _ _ _ => ?_) ?_
    | split
theorem State.endForward_keeps {P : List Part} {r : State} (f : Flight) (s : State)
    (sub : ∀ p, p ∈ [.pwr, .port, .reqs, .slices, .budget, .map, .care, .yoke, .atom, .reg, .mbox, .obs, .perf, .firkin, .rstats, .cmds] → p ∈ P) (h : r.keepsBut P s) : r.keepsBut P (State.endForward f s) := by
  unfold State.endForward
  try dsimp only
  repeat' first
    | with_reducible exact h
    | (with_reducible refine sub _ ?_); decide
    | (with_reducible refine part_sub sub ?_); decide
    | with_reducible apply State.completeWrite_keeps
    | with_reducible apply State.count_keeps
    | with_reducible apply State.dropFlight_keeps
    | with_reducible apply State.notePoison_keeps
    | with_reducible apply State.recordOutcome_keeps
    | with_reducible apply State.replyFor_keeps
    | with_reducible assumption
    | with_reducible refine keeps_ite ?_ ?_
    | with_reducible refine keeps_foldl (fun _ _ _ => ?_) ?_
    | split
theorem State.carryForward_keeps {P : List Part} {r : State} (m : YokeMsg) (s : State)
    (sub : ∀ p, p ∈ [.pwr, .reqs, .fc, .tier, .slices, .budget, .media, .map, .care, .yoke, .atom, .reg, .obs, .perf, .rstats, .cmds] → p ∈ P) (h : r.keepsBut P s) : KeepsO r P (State.carryForward m s) := by
  unfold State.carryForward
  try dsimp only
  repeat' first
    | with_reducible exact h
    | (with_reducible refine sub _ ?_); decide
    | (with_reducible refine part_sub sub ?_); decide
    | with_reducible apply State.brineDrop_keeps
    | with_reducible apply State.count_keeps
    | with_reducible apply State.dirtyAtPeer_keeps
    | with_reducible apply State.putWrite_keeps
    | with_reducible apply State.replyFor_keeps
    | with_reducible apply State.send_keeps
    | with_reducible refine State.keeps_upYoke _ ?_ ?_
    | with_reducible assumption
    | with_reducible refine keeps_ite ?_ ?_
    | with_reducible refine keeps_foldl (fun _ _ _ => ?_) ?_
    | with_reducible exact keepsO_get (by assumption)
    | with_reducible refine keepsO_map (fun _ _ => ?_) ?_
    | with_reducible refine keepsO_foldl (fun _ _ _ => ?_) ?_
    | exact keepsO_none
    | with_reducible refine keepsO_some ?_
    | split
    | with_reducible refine KeepsO.out (by assumption) ?_
theorem State.carryMirror_keeps {P : List Part} {r : State} (m : YokeMsg) (s : State)
    (sub : ∀ p, p ∈ [.pwr, .port, .reqs, .fc, .tier, .slices, .budget, .media, .map, .care, .yoke, .atom, .reg, .mbox, .obs, .perf, .firkin, .rstats, .cmds] → p ∈ P) (h : r.keepsBut P s) : KeepsO r P (State.carryMirror m s) := by
  unfold State.carryMirror
  try dsimp only
  repeat' first
    | with_reducible exact h
    | (with_reducible refine sub _ ?_); decide
    | (with_reducible refine part_sub sub ?_); decide
    | with_reducible apply State.endForward_keeps
    | with_reducible apply State.putWrite_keeps
    | with_reducible apply State.replyFor_keeps
    | with_reducible assumption
    | with_reducible refine keeps_ite ?_ ?_
    | with_reducible refine keeps_foldl (fun _ _ _ => ?_) ?_
    | with_reducible exact keepsO_get (by assumption)
    | with_reducible refine keepsO_map (fun _ _ => ?_) ?_
    | with_reducible refine keepsO_foldl (fun _ _ _ => ?_) ?_
    | exact keepsO_none
    | with_reducible refine keepsO_some ?_
    | split
    | with_reducible refine KeepsO.out (by assumption) ?_
theorem State.carryOrdered_keeps {P : List Part} {r : State} (m : YokeMsg) (s : State)
    (sub : ∀ p, p ∈ [.pwr, .port, .reqs, .fc, .tier, .slices, .budget, .media, .map, .care, .yoke, .atom, .reg, .mbox, .obs, .perf, .firkin, .rstats, .cmds] → p ∈ P) (h : r.keepsBut P s) : KeepsO r P (State.carryOrdered m s) := by
  unfold State.carryOrdered
  try dsimp only
  repeat' first
    | with_reducible exact h
    | (with_reducible refine sub _ ?_); decide
    | (with_reducible refine part_sub sub ?_); decide
    | with_reducible apply State.answer_keeps
    | with_reducible apply State.brineDrop_keeps
    | with_reducible apply State.dropFlight_keeps
    | with_reducible apply State.endForward_keeps
    | with_reducible apply State.putWrite_keeps
    | with_reducible apply State.recordOutcome_keeps
    | with_reducible assumption
    | with_reducible refine keeps_ite ?_ ?_
    | with_reducible refine keeps_foldl (fun _ _ _ => ?_) ?_
    | with_reducible exact keepsO_get (by assumption)
    | with_reducible refine keepsO_map (fun _ _ => ?_) ?_
    | with_reducible refine keepsO_foldl (fun _ _ _ => ?_) ?_
    | exact keepsO_none
    | with_reducible refine keepsO_some ?_
    | split
    | with_reducible refine KeepsO.out (by assumption) ?_
theorem State.carry_keeps {P : List Part} {r : State} (m : YokeMsg) (s : State)
    (sub : ∀ p, p ∈ [.pwr, .port, .reqs, .fc, .tier, .slices, .budget, .media, .map, .care, .yoke, .atom, .keys, .reg, .tabs, .mbox, .obs, .perf, .firkin, .rstats, .cmds] → p ∈ P) (h : r.keepsBut P s) : KeepsO r P (State.carry m s) := by
  unfold State.carry
  try dsimp only
  repeat' first
    | with_reducible exact h
    | (with_reducible refine sub _ ?_); decide
    | (with_reducible refine part_sub sub ?_); decide
    | with_reducible apply State.ackChange_keeps
    | with_reducible apply State.carryForward_keeps
    | with_reducible apply State.carryMirror_keeps
    | with_reducible apply State.carryOrdered_keeps
    | with_reducible apply State.changeRun_keeps
    | with_reducible apply State.send_keeps
    | with_reducible assumption
    | with_reducible refine keeps_ite ?_ ?_
    | with_reducible refine keeps_foldl (fun _ _ _ => ?_) ?_
    | with_reducible exact keepsO_get (by assumption)
    | with_reducible refine keepsO_map (fun _ _ => ?_) ?_
    | with_reducible refine keepsO_foldl (fun _ _ _ => ?_) ?_
    | exact keepsO_none
    | with_reducible refine keepsO_some ?_
    | split
    | with_reducible refine KeepsO.out (by assumption) ?_
theorem State.runHeld_keeps {P : List Part} {r : State} (x0 : Nat) (x1 : State)
    (sub : ∀ p, p ∈ [.pwr, .port, .reqs, .fc, .tier, .slices, .budget, .media, .map, .care, .yoke, .atom, .keys, .reg, .tabs, .mbox, .obs, .perf, .firkin, .rstats, .cmds] → p ∈ P) (h : r.keepsBut P x1) : r.keepsBut P (State.runHeld x0 x1) := by
  induction x0 generalizing x1 with
  | zero => unfold State.runHeld; first | exact h | exact keepsP_mk h
  | succ n ih =>
    unfold State.runHeld
    try dsimp only
    repeat' first
      | with_reducible exact h
      | (with_reducible refine sub _ ?_); decide
      | (with_reducible refine part_sub sub ?_); decide
      | with_reducible apply State.carry_keeps
      | with_reducible apply State.owe_keeps
      | with_reducible apply State.pressSet_keeps
      | with_reducible refine State.keeps_upYoke _ ?_ ?_
      | with_reducible refine ih _ ?_
      | with_reducible assumption
      | with_reducible refine keeps_ite ?_ ?_
      | with_reducible refine keeps_foldl (fun _ _ _ => ?_) ?_
      | with_reducible exact keepsO_get (by assumption)
      | with_reducible refine keepsO_map (fun _ _ => ?_) ?_
      | with_reducible refine keepsO_foldl (fun _ _ _ => ?_) ?_
      | exact keepsO_none
      | with_reducible refine keepsO_some ?_
      | split
      | with_reducible refine KeepsO.out (by assumption) ?_
theorem State.workPail_keeps {P : List Part} {r : State} (s : State)
    (sub : ∀ p, p ∈ [.pwr, .port, .reqs, .fc, .tier, .slices, .budget, .media, .map, .care, .yoke, .atom, .keys, .reg, .tabs, .mbox, .obs, .perf, .firkin, .rstats, .cmds] → p ∈ P) (h : r.keepsBut P s) : r.keepsBut P (State.workPail s) := by
  unfold State.workPail
  try dsimp only
  repeat' first
    | with_reducible exact h
    | (with_reducible refine sub _ ?_); decide
    | (with_reducible refine part_sub sub ?_); decide
    | with_reducible apply State.runHeld_keeps
    | with_reducible assumption
    | with_reducible refine keeps_ite ?_ ?_
    | with_reducible refine keeps_foldl (fun _ _ _ => ?_) ?_
    | split
theorem State.takeMessage_keeps {P : List Part} {r : State} (m : YokeMsg) (s : State)
    (sub : ∀ p, p ∈ [.pwr, .port, .reqs, .fc, .tier, .slices, .budget, .media, .map, .care, .yoke, .atom, .keys, .reg, .tabs, .mbox, .obs, .perf, .firkin, .rstats, .cmds] → p ∈ P) (h : r.keepsBut P s) : r.keepsBut P (State.takeMessage m s) := by
  unfold State.takeMessage
  try dsimp only
  repeat' first
    | with_reducible exact h
    | (with_reducible refine sub _ ?_); decide
    | (with_reducible refine part_sub sub ?_); decide
    | with_reducible apply State.owe_keeps
    | with_reducible apply State.workPail_keeps
    | with_reducible refine State.keeps_upYoke _ ?_ ?_
    | with_reducible assumption
    | with_reducible refine keeps_ite ?_ ?_
    | with_reducible refine keeps_foldl (fun _ _ _ => ?_) ?_
    | split
theorem State.takeReadForward_keeps {P : List Part} {r : State} (tag : Nat) (line : Nat) (s : State)
    (sub : ∀ p, p ∈ [.pwr, .port, .reqs, .fc, .tier, .slices, .budget, .media, .care, .yoke, .atom, .reg, .mbox, .obs, .perf, .firkin, .rstats, .cmds] → p ∈ P) (h : r.keepsBut P s) : r.keepsBut P (State.takeReadForward tag line s) := by
  unfold State.takeReadForward
  try dsimp only
  repeat' first
    | with_reducible exact h
    | (with_reducible refine sub _ ?_); decide
    | (with_reducible refine part_sub sub ?_); decide
    | with_reducible apply State.serveRead_keeps
    | with_reducible refine State.keeps_upReqs _ ?_ ?_
    | with_reducible refine State.keeps_upYoke _ ?_ ?_
    | with_reducible assumption
    | with_reducible refine keeps_ite ?_ ?_
    | with_reducible refine keeps_foldl (fun _ _ _ => ?_) ?_
    | split
theorem State.releasePending_keeps {P : List Part} {r : State} (line : Nat) (s : State)
    (sub : ∀ p, p ∈ [.pwr, .port, .reqs, .fc, .tier, .slices, .budget, .media, .care, .yoke, .atom, .reg, .mbox, .obs, .perf, .firkin, .rstats, .cmds] → p ∈ P) (h : r.keepsBut P s) : r.keepsBut P (State.releasePending line s) := by
  unfold State.releasePending
  try dsimp only
  repeat' first
    | with_reducible exact h
    | (with_reducible refine sub _ ?_); decide
    | (with_reducible refine part_sub sub ?_); decide
    | with_reducible apply State.takeReadForward_keeps
    | with_reducible apply State.wakeLine_keeps
    | with_reducible refine State.keeps_upYoke _ ?_ ?_
    | with_reducible assumption
    | with_reducible refine keeps_ite ?_ ?_
    | with_reducible refine keeps_foldl (fun _ _ _ => ?_) ?_
    | split
theorem State.ackMirror_keeps {P : List Part} {r : State} (tag : Nat) (s : State)
    (sub : ∀ p, p ∈ [.pwr, .port, .reqs, .fc, .tier, .slices, .budget, .media, .map, .care, .yoke, .atom, .reg, .mbox, .obs, .perf, .firkin, .rstats, .cmds] → p ∈ P) (h : r.keepsBut P s) : r.keepsBut P (State.ackMirror tag s) := by
  unfold State.ackMirror
  try dsimp only
  repeat' first
    | with_reducible exact h
    | (with_reducible refine sub _ ?_); decide
    | (with_reducible refine part_sub sub ?_); decide
    | with_reducible apply State.completeWrite_keeps
    | with_reducible apply State.dropFlight_keeps
    | with_reducible apply State.releasePending_keeps
    | with_reducible refine State.keeps_upYoke _ ?_ ?_
    | with_reducible assumption
    | with_reducible refine keeps_ite ?_ ?_
    | with_reducible refine keeps_foldl (fun _ _ _ => ?_) ?_
    | split
theorem State.takeReadData_keeps {P : List Part} {r : State} (tag : Nat) (line : Nat) (d : Line) (poisoned : Bool) (s : State)
    (sub : ∀ p, p ∈ [.pwr, .port, .reqs, .slices, .map, .care, .yoke, .atom, .reg, .mbox, .obs, .perf, .firkin, .rstats, .cmds] → p ∈ P) (h : r.keepsBut P s) : r.keepsBut P (State.takeReadData tag line d poisoned s) := by
  unfold State.takeReadData
  try dsimp only
  repeat' first
    | with_reducible exact h
    | (with_reducible refine sub _ ?_); decide
    | (with_reducible refine part_sub sub ?_); decide
    | with_reducible apply State.answer_keeps
    | with_reducible apply State.count_keeps
    | with_reducible apply State.dropFlight_keeps
    | with_reducible apply State.resRoom_keeps
    | with_reducible apply State.reserve_keeps
    | with_reducible apply State.stageReq_keeps
    | with_reducible assumption
    | with_reducible refine keeps_ite ?_ ?_
    | with_reducible refine keeps_foldl (fun _ _ _ => ?_) ?_
    | with_reducible exact keepsO_get (by assumption)
    | with_reducible refine keepsO_map (fun _ _ => ?_) ?_
    | with_reducible refine keepsO_foldl (fun _ _ _ => ?_) ?_
    | exact keepsO_none
    | with_reducible refine keepsO_some ?_
    | split
    | with_reducible refine KeepsO.out (by assumption) ?_

end Sys2Proof.Machine
end

