-- ==== Sys2Proof/Laws/KeepsWrites.lean ====
section
/-!
SUPPORT. What each operation of Machine/Writes.lean leaves unchanged: the groups of the state it may write, the others kept.
-/
namespace Sys2Proof.Machine

theorem execHostWriteRequest_keeps {P : List Part} {r : State} (key : Nat) (addr : Nat) (tag : Nat) (data : Line) (be : Mask) (poison : Bool) (s : State)
    (sub : ∀ p, p ∈ [.port, .reqs, .slices, .atom, .mbox, .obs, .perf] → p ∈ P) (h : r.keepsBut P s) : Answers r P (execHostWriteRequest key addr tag data be poison s) := by
  unfold execHostWriteRequest
  try dsimp only
  repeat' first
    | with_reducible exact h
    | (with_reducible refine sub _ ?_); decide
    | (with_reducible refine part_sub sub ?_); decide
    | with_reducible apply State.arrive_keeps
    | with_reducible assumption
    | with_reducible refine keeps_ite ?_ ?_
    | with_reducible refine keeps_foldl (fun _ _ _ => ?_) ?_
    | with_reducible refine answers_next ?_
    | split
theorem execWriteAdmit_keeps {P : List Part} {r : State} (s : State)
    (sub : ∀ p, p ∈ [.pwr, .port, .reqs, .fc, .tier, .slices, .budget, .media, .map, .care, .yoke, .atom, .keys, .reg, .tabs, .mbox, .obs, .perf, .firkin, .rstats, .cmds] → p ∈ P) (h : r.keepsBut P s) : Answers r P (execWriteAdmit s) := by
  unfold execWriteAdmit
  try dsimp only
  repeat' first
    | with_reducible exact h
    | (with_reducible refine sub _ ?_); decide
    | (with_reducible refine part_sub sub ?_); decide
    | with_reducible apply State.serveCond_keeps
    | with_reducible apply State.serveWrite_keeps
    | with_reducible apply State.workPail_keeps
    | with_reducible assumption
    | with_reducible refine keeps_ite ?_ ?_
    | with_reducible refine keeps_foldl (fun _ _ _ => ?_) ?_
    | with_reducible refine answers_next ?_
    | split
theorem execWritesHeld_keeps {P : List Part} {r : State} (s : State)
    (sub : ∀ p, p ∈ [.clk, .budget, .obs, .perf] → p ∈ P) (h : r.keepsBut P s) : Answers r P (execWritesHeld s) := by
  unfold execWritesHeld
  try dsimp only
  repeat' first
    | with_reducible exact h
    | (with_reducible refine sub _ ?_); decide
    | (with_reducible refine part_sub sub ?_); decide
    | with_reducible apply State.elapseTo_keeps
    | with_reducible apply State.logFor_keeps
    | with_reducible refine State.keeps_upBudget _ ?_ ?_
    | with_reducible assumption
    | with_reducible refine keeps_ite ?_ ?_
    | with_reducible refine keeps_foldl (fun _ _ _ => ?_) ?_
    | with_reducible refine answers_next ?_
    | split
theorem State.evict_keeps {P : List Part} {r : State} (line : Nat) (s : State)
    (sub : ∀ p, p ∈ [.reqs, .fc, .tier, .slices, .budget, .media, .reg, .obs, .perf, .rstats] → p ∈ P) (h : r.keepsBut P s) : r.keepsBut P (State.evict line s) := by
  unfold State.evict
  try dsimp only
  repeat' first
    | with_reducible exact h
    | (with_reducible refine sub _ ?_); decide
    | (with_reducible refine part_sub sub ?_); decide
    | with_reducible apply State.fcPut_keeps
    | with_reducible apply State.moveToTier_keeps
    | with_reducible apply State.pressSet_keeps
    | with_reducible assumption
    | with_reducible refine keeps_ite ?_ ?_
    | with_reducible refine keeps_foldl (fun _ _ _ => ?_) ?_
    | with_reducible exact keepsO_get (by assumption)
    | with_reducible refine keepsO_map (fun _ _ => ?_) ?_
    | with_reducible refine keepsO_foldl (fun _ _ _ => ?_) ?_
    | exact keepsO_none
    | with_reducible refine keepsO_some ?_
    | split
    | with_reducible refine KeepsO.out (by assumption) ?_
theorem execFrontCacheEvict_keeps {P : List Part} {r : State} (slice : Nat) (set : Nat) (fault : CacheFault) (s : State)
    (sub : ∀ p, p ∈ [.pwr, .port, .reqs, .fc, .tier, .slices, .budget, .media, .map, .care, .yoke, .atom, .keys, .reg, .dram, .gills, .dict, .mbox, .obs, .perf, .rstats, .fw, .cmds] → p ∈ P) (h : r.keepsBut P s) : Answers r P (execFrontCacheEvict slice set fault s) := by
  unfold execFrontCacheEvict
  try dsimp only
  repeat' first
    | with_reducible exact h
    | (with_reducible refine sub _ ?_); decide
    | (with_reducible refine part_sub sub ?_); decide
    | with_reducible apply State.checkFault_keeps
    | with_reducible apply State.evict_keeps
    | with_reducible assumption
    | with_reducible refine keeps_ite ?_ ?_
    | with_reducible refine keeps_foldl (fun _ _ _ => ?_) ?_
    | with_reducible refine answers_next ?_
    | split
theorem execTierSectorFreed_keeps {P : List Part} {r : State} (slice : Nat) (set : Nat) (s : State)
    (sub : ∀ p, p ∈ [.pwr, .port, .reqs, .fc, .tier, .slices, .budget, .media, .map, .care, .yoke, .atom, .keys, .reg, .tabs, .mbox, .obs, .perf, .firkin, .rstats, .cmds] → p ∈ P) (h : r.keepsBut P s) : Answers r P (execTierSectorFreed slice set s) := by
  unfold execTierSectorFreed
  try dsimp only
  repeat' first
    | with_reducible exact h
    | (with_reducible refine sub _ ?_); decide
    | (with_reducible refine part_sub sub ?_); decide
    | with_reducible apply State.moveToTier_keeps
    | with_reducible apply State.storeWrite_keeps
    | with_reducible apply State.workPail_keeps
    | with_reducible assumption
    | with_reducible refine keeps_ite ?_ ?_
    | with_reducible refine keeps_foldl (fun _ _ _ => ?_) ?_
    | with_reducible exact keepsO_get (by assumption)
    | with_reducible refine keepsO_map (fun _ _ => ?_) ?_
    | with_reducible refine keepsO_foldl (fun _ _ _ => ?_) ?_
    | exact keepsO_none
    | with_reducible refine keepsO_some ?_
    | with_reducible refine answers_next ?_
    | split
    | with_reducible refine KeepsO.out (by assumption) ?_

end Sys2Proof.Machine
end

