-- ==== Sys2Proof/Laws/KeepsLapPages.lean ====
section
/-!
SUPPORT. What each operation of Machine/LapPages.lean leaves unchanged: the groups of the state it may write, the others kept.
-/
namespace Sys2Proof.Machine

theorem State.endDirectory_keeps {P : List Part} {r : State} (s : State)
    (sub : ∀ p, p ∈ [.pwr, .media, .map, .reg, .obs, .perf, .cmds] → p ∈ P) (h : r.keepsBut P s) : r.keepsBut P (State.endDirectory s) := by
  unfold State.endDirectory
  try dsimp only
  repeat' first
    | with_reducible exact h
    | (with_reducible refine sub _ ?_); decide
    | (with_reducible refine part_sub sub ?_); decide
    | with_reducible apply State.closing_keeps
    | with_reducible apply State.programXor_keeps
    | with_reducible refine State.keeps_upMedia _ ?_ ?_
    | with_reducible assumption
    | with_reducible refine keeps_ite ?_ ?_
    | with_reducible refine keeps_foldl (fun _ _ _ => ?_) ?_
    | split
theorem State.lapNextPage_keeps {P : List Part} {r : State} (s : State)
    (sub : ∀ p, p ∈ [.pwr, .media, .map, .care, .yoke, .reg, .obs, .perf, .cmds] → p ∈ P) (h : r.keepsBut P s) : KeepsO r P (State.lapNextPage s) := by
  unfold State.lapNextPage
  try dsimp only
  repeat' first
    | with_reducible exact h
    | (with_reducible refine sub _ ?_); decide
    | (with_reducible refine part_sub sub ?_); decide
    | with_reducible apply State.endDirectory_keeps
    | with_reducible apply State.place_keeps
    | with_reducible apply State.program_keeps
    | with_reducible apply State.takeGen_keeps
    | with_reducible refine State.keeps_upMap _ ?_ ?_
    | with_reducible assumption
    | with_reducible refine keeps_ite ?_ ?_
    | with_reducible refine keeps_foldl (fun _ _ _ => ?_) ?_
    | with_reducible exact keepsO_get (by assumption)
    | with_reducible refine keepsO_map (fun _ _ => ?_) ?_
    | with_reducible refine keepsO_mapP (fun _ _ => ?_) ?_
    | with_reducible refine keepsO_foldl (fun _ _ _ => ?_) ?_
    | exact keepsO_none
    | with_reducible refine keepsO_some ?_
    | with_reducible refine keepsP_ite ?_ ?_
    | with_reducible refine keepsP_foldl (fun _ _ _ => ?_) ?_
    | split
    | with_reducible refine KeepsP.snd ?_
    | with_reducible refine keepsP_mk ?_
    | with_reducible refine KeepsP.out (by assumption) ?_
    | with_reducible refine KeepsO.out (by assumption) ?_
    | with_reducible refine KeepsOP.outp (by assumption) ?_
    | with_reducible refine KeepsOP.out (by assumption) ?_
theorem State.lapPages_keeps {P : List Part} {r : State} (x0 : Nat) (x1 : State)
    (sub : ∀ p, p ∈ [.pwr, .media, .map, .care, .yoke, .reg, .obs, .perf, .cmds] → p ∈ P) (h : r.keepsBut P x1) : r.keepsBut P (State.lapPages x0 x1) := by
  induction x0 generalizing x1 with
  | zero => unfold State.lapPages; first | exact h | exact keepsP_mk h
  | succ n ih =>
    unfold State.lapPages
    try dsimp only
    repeat' first
      | with_reducible exact h
      | (with_reducible refine sub _ ?_); decide
      | (with_reducible refine part_sub sub ?_); decide
      | with_reducible apply State.lapNextPage_keeps
      | with_reducible refine ih _ ?_
      | with_reducible assumption
      | with_reducible refine keeps_ite ?_ ?_
      | with_reducible refine keeps_foldl (fun _ _ _ => ?_) ?_
      | with_reducible exact keepsO_get (by assumption)
      | with_reducible refine keepsO_map (fun _ _ => ?_) ?_
      | with_reducible refine keepsO_foldl (fun _ _ _ => ?_) ?_
      | exact keepsO_none
      | with_reducible refine keepsO_some ?_
      | split
      | with_reducible refine KeepsO.out (by assumption) ?_
theorem State.lapRoot_keeps {P : List Part} {r : State} (s : State)
    (sub : ∀ p, p ∈ [.pwr, .media, .map, .care, .yoke, .reg, .obs, .perf, .cmds] → p ∈ P) (h : r.keepsBut P s) : r.keepsBut P (State.lapRoot s) := by
  unfold State.lapRoot
  try dsimp only
  repeat' first
    | with_reducible exact h
    | (with_reducible refine sub _ ?_); decide
    | (with_reducible refine part_sub sub ?_); decide
    | with_reducible apply State.place_keeps
    | with_reducible apply State.program_keeps
    | with_reducible apply State.takeGen_keeps
    | with_reducible refine State.keeps_upMap _ ?_ ?_
    | with_reducible assumption
    | with_reducible refine keeps_ite ?_ ?_
    | with_reducible refine keeps_foldl (fun _ _ _ => ?_) ?_
    | with_reducible exact keepsO_get (by assumption)
    | with_reducible refine keepsO_map (fun _ _ => ?_) ?_
    | with_reducible refine keepsO_mapP (fun _ _ => ?_) ?_
    | with_reducible refine keepsO_foldl (fun _ _ _ => ?_) ?_
    | exact keepsO_none
    | with_reducible refine keepsO_some ?_
    | with_reducible refine keepsP_ite ?_ ?_
    | with_reducible refine keepsP_foldl (fun _ _ _ => ?_) ?_
    | split
    | with_reducible refine KeepsP.snd ?_
    | with_reducible refine keepsP_mk ?_
    | with_reducible refine KeepsP.out (by assumption) ?_
    | with_reducible refine KeepsOP.outp (by assumption) ?_
    | with_reducible refine KeepsOP.out (by assumption) ?_
theorem State.runLap_keeps {P : List Part} {r : State} (s : State)
    (sub : ∀ p, p ∈ [.pwr, .media, .map, .care, .yoke, .reg, .obs, .perf, .cmds] → p ∈ P) (h : r.keepsBut P s) : r.keepsBut P (State.runLap s) := by
  unfold State.runLap
  try dsimp only
  repeat' first
    | with_reducible exact h
    | (with_reducible refine sub _ ?_); decide
    | (with_reducible refine part_sub sub ?_); decide
    | with_reducible apply State.lapPages_keeps
    | with_reducible apply State.lapRoot_keeps
    | with_reducible assumption
    | with_reducible refine keeps_ite ?_ ?_
    | with_reducible refine keeps_foldl (fun _ _ _ => ?_) ?_
    | split

end Sys2Proof.Machine
end

