-- ==== Sys2Proof/Laws/KeepsMediaOps.lean ====
section
/-!
SUPPORT. What each operation of Machine/MediaOps.lean leaves unchanged: the groups of the state it may write, the others kept.
-/
namespace Sys2Proof.Machine

theorem State.pressBlocked_keeps {P : List Part} {r : State} (s : State)
    (sub : ∀ p, p ∈ [.budget] → p ∈ P) (h : r.keepsBut P s) : r.keepsBut P (State.pressBlocked s) := by
  unfold State.pressBlocked
  try dsimp only
  repeat' first
    | with_reducible exact h
    | (with_reducible refine sub _ ?_); decide
    | (with_reducible refine part_sub sub ?_); decide
    | with_reducible apply State.pressSet_keeps
    | with_reducible assumption
    | with_reducible refine keeps_ite ?_ ?_
    | with_reducible refine keeps_foldl (fun _ _ _ => ?_) ?_
    | split
theorem State.nextWriteback_keeps {P : List Part} {r : State} (s0 : State)
    (sub : ∀ p, p ∈ [.reg] → p ∈ P) (h : r.keepsBut P s0) : KeepsOPP r P (State.nextWriteback s0) := by
  unfold State.nextWriteback
  try dsimp only
  repeat' first
    | with_reducible exact h
    | (with_reducible refine sub _ ?_); decide
    | (with_reducible refine part_sub sub ?_); decide
    | with_reducible apply State.nextClass_keeps
    | with_reducible apply State.refillTokens_keeps
    | with_reducible assumption
    | with_reducible refine keeps_ite ?_ ?_
    | with_reducible refine keeps_foldl (fun _ _ _ => ?_) ?_
    | with_reducible exact keepsO_get (by assumption)
    | with_reducible refine keepsO_map (fun _ _ => ?_) ?_
    | with_reducible refine keepsO_foldl (fun _ _ _ => ?_) ?_
    | exact keepsO_none
    | with_reducible refine keepsO_some ?_
    | exact keepsOPP_none
    | with_reducible refine keepsOPP_some ?_
    | with_reducible refine keepsP_ite ?_ ?_
    | with_reducible refine keepsP_foldl (fun _ _ _ => ?_) ?_
    | split
    | with_reducible refine KeepsP.snd ?_
    | with_reducible refine keepsP_mk ?_
    | with_reducible refine KeepsP.out (by assumption) ?_
    | with_reducible refine KeepsOPP.out (by assumption) ?_
theorem State.noteWb_keeps {P : List Part} {r : State} (g : Nat) (prio : Nat) (taken : List Nat) (s : State)
    (sub : ∀ p, p ∈ [.budget, .reg] → p ∈ P) (h : r.keepsBut P s) : r.keepsBut P (State.noteWb g prio taken s) := by
  unfold State.noteWb
  try dsimp only
  repeat' first
    | with_reducible exact h
    | (with_reducible refine sub _ ?_); decide
    | (with_reducible refine part_sub sub ?_); decide
    | with_reducible refine State.keeps_upBudget _ ?_ ?_
    | with_reducible refine State.keeps_upReg _ ?_ ?_
    | with_reducible assumption
    | with_reducible refine keeps_ite ?_ ?_
    | with_reducible refine keeps_foldl (fun _ _ _ => ?_) ?_
    | split
theorem State.queueAged_keeps {P : List Part} {r : State} (s : State)
    (sub : ∀ p, p ∈ [.budget] → p ∈ P) (h : r.keepsBut P s) : r.keepsBut P (State.queueAged s) := by
  unfold State.queueAged
  try dsimp only
  repeat' first
    | with_reducible exact h
    | (with_reducible refine sub _ ?_); decide
    | (with_reducible refine part_sub sub ?_); decide
    | with_reducible apply State.queueWb_keeps
    | with_reducible assumption
    | with_reducible refine keeps_ite ?_ ?_
    | with_reducible refine keeps_foldl (fun _ _ _ => ?_) ?_
    | split
theorem State.rewriteGrain_keeps {P : List Part} {r : State} (g : Nat) (prio : Nat) (taken : List Nat) (done : List (Nat × Nat)) (reads : List WordRead) (s : State)
    (sub : ∀ p, p ∈ [.pwr, .budget, .media, .map, .care, .yoke, .reg, .dram, .gills, .obs, .perf, .rstats, .cmds] → p ∈ P) (h : r.keepsBut P s) : KeepsO r P (State.rewriteGrain g prio taken done reads s) := by
  unfold State.rewriteGrain
  try dsimp only
  repeat' first
    | with_reducible exact h
    | (with_reducible refine sub _ ?_); decide
    | (with_reducible refine part_sub sub ?_); decide
    | with_reducible apply State.loseLines_keeps
    | with_reducible apply State.lostKeyWrite_keeps
    | with_reducible apply State.noteWb_keeps
    | with_reducible apply State.place_keeps
    | with_reducible apply State.program_keeps
    | with_reducible apply State.readLines_keeps
    | with_reducible apply State.takeGen_keeps
    | with_reducible assumption
    | with_reducible refine keeps_ite ?_ ?_
    | with_reducible refine keeps_foldl (fun _ _ _ => ?_) ?_
    | with_reducible exact keepsO_get (by assumption)
    | with_reducible refine keepsO_map (fun _ _ => ?_) ?_
    | with_reducible refine keepsO_mapP (fun _ _ => ?_) ?_
    | with_reducible refine keepsO_foldl (fun _ _ _ => ?_) ?_
    | exact keepsO_none
    | with_reducible refine keepsO_some ?_
    | with_reducible refine keepsP_ite ?_ ?_
    | with_reducible refine keepsP_foldl (fun _ _ _ => ?_) ?_
    | split
    | with_reducible refine KeepsP.snd ?_
    | with_reducible refine keepsP_mk ?_
    | with_reducible refine KeepsP.out (by assumption) ?_
    | with_reducible refine KeepsO.out (by assumption) ?_
    | with_reducible refine KeepsOP.outp (by assumption) ?_
    | with_reducible refine KeepsOP.out (by assumption) ?_
theorem State.appendGrain_keeps {P : List Part} {r : State} (g : Nat) (prio : Nat) (taken : List Nat) (s : State)
    (sub : ∀ p, p ∈ [.pwr, .budget, .media, .map, .care, .yoke, .reg, .obs, .perf, .cmds] → p ∈ P) (h : r.keepsBut P s) : KeepsO r P (State.appendGrain g prio taken s) := by
  unfold State.appendGrain
  try dsimp only
  repeat' first
    | with_reducible exact h
    | (with_reducible refine sub _ ?_); decide
    | (with_reducible refine part_sub sub ?_); decide
    | with_reducible apply State.appendLines_keeps
    | with_reducible apply State.lostKeyWrite_keeps
    | with_reducible apply State.noteWb_keeps
    | with_reducible assumption
    | with_reducible refine keeps_ite ?_ ?_
    | with_reducible refine keeps_foldl (fun _ _ _ => ?_) ?_
    | with_reducible exact keepsO_get (by assumption)
    | with_reducible refine keepsO_map (fun _ _ => ?_) ?_
    | with_reducible refine keepsO_mapP (fun _ _ => ?_) ?_
    | with_reducible refine keepsO_foldl (fun _ _ _ => ?_) ?_
    | exact keepsO_none
    | with_reducible refine keepsO_some ?_
    | split
    | with_reducible refine KeepsO.out (by assumption) ?_
    | with_reducible refine KeepsOP.outp (by assumption) ?_
    | with_reducible refine KeepsOP.out (by assumption) ?_
theorem execWritebackStart_keeps {P : List Part} {r : State} (reads : List WordRead) (s : State)
    (sub : ∀ p, p ∈ [.pwr, .reqs, .fc, .tier, .slices, .budget, .media, .map, .care, .yoke, .reg, .dram, .gills, .obs, .perf, .rstats, .cmds] → p ∈ P) (h : r.keepsBut P s) : Answers r P (execWritebackStart reads s) := by
  unfold execWritebackStart
  try dsimp only
  repeat' first
    | with_reducible exact h
    | (with_reducible refine sub _ ?_); decide
    | (with_reducible refine part_sub sub ?_); decide
    | with_reducible apply State.appendGrain_keeps
    | with_reducible apply State.moveRebuilt_keeps
    | with_reducible apply State.nextWriteback_keeps
    | with_reducible apply State.noteLimits_keeps
    | with_reducible apply State.pressBlocked_keeps
    | with_reducible apply State.queueAged_keeps
    | with_reducible apply State.readLines_keeps
    | with_reducible apply State.rewriteGrain_keeps
    | with_reducible apply State.takeLine_keeps
    | with_reducible assumption
    | with_reducible refine keeps_ite ?_ ?_
    | with_reducible refine keeps_foldl (fun _ _ _ => ?_) ?_
    | with_reducible exact keepsO_get (by assumption)
    | with_reducible refine keepsO_map (fun _ _ => ?_) ?_
    | with_reducible refine keepsO_foldl (fun _ _ _ => ?_) ?_
    | exact keepsO_none
    | with_reducible refine keepsO_some ?_
    | with_reducible refine keepsP_ite ?_ ?_
    | with_reducible refine keepsP_foldl (fun _ _ _ => ?_) ?_
    | with_reducible refine answers_next ?_
    | split
    | with_reducible refine KeepsP.snd ?_
    | with_reducible refine keepsP_mk ?_
    | with_reducible refine KeepsP.out (by assumption) ?_
    | with_reducible refine KeepsO.out (by assumption) ?_
    | with_reducible refine KeepsOPP.out (by assumption) ?_
theorem execDirtyAgeExpired_keeps {P : List Part} {r : State} (s : State)
    (sub : ∀ p, p ∈ [.clk, .budget, .obs, .perf] → p ∈ P) (h : r.keepsBut P s) : Answers r P (execDirtyAgeExpired s) := by
  unfold execDirtyAgeExpired
  try dsimp only
  repeat' first
    | with_reducible exact h
    | (with_reducible refine sub _ ?_); decide
    | (with_reducible refine part_sub sub ?_); decide
    | with_reducible apply State.elapseTo_keeps
    | with_reducible apply State.queueAged_keeps
    | with_reducible assumption
    | with_reducible refine keeps_ite ?_ ?_
    | with_reducible refine keeps_foldl (fun _ _ _ => ?_) ?_
    | with_reducible refine answers_next ?_
    | split
theorem State.withdraw_keeps {P : List Part} {r : State} (p : Pass) (s : State)
    (sub : ∀ p, p ∈ [.tier, .budget, .media, .reg] → p ∈ P) (h : r.keepsBut P s) : r.keepsBut P (State.withdraw p s) := by
  unfold State.withdraw
  try dsimp only
  repeat' first
    | with_reducible exact h
    | (with_reducible refine sub _ ?_); decide
    | (with_reducible refine part_sub sub ?_); decide
    | with_reducible apply State.endPass_keeps
    | with_reducible apply State.returnLines_keeps
    | with_reducible refine State.keeps_upMedia _ ?_ ?_
    | with_reducible assumption
    | with_reducible refine keeps_ite ?_ ?_
    | with_reducible refine keeps_foldl (fun _ _ _ => ?_) ?_
    | split
theorem State.replaceLap_keeps {P : List Part} {r : State} (p : Pass) (pg : Page) (s : State)
    (sub : ∀ p, p ∈ [.pwr, .media, .map, .care, .yoke, .reg, .obs, .perf, .cmds] → p ∈ P) (h : r.keepsBut P s) : r.keepsBut P (State.replaceLap p pg s) := by
  unfold State.replaceLap
  try dsimp only
  repeat' first
    | with_reducible exact h
    | (with_reducible refine sub _ ?_); decide
    | (with_reducible refine part_sub sub ?_); decide
    | with_reducible apply State.place_keeps
    | with_reducible apply State.program_keeps
    | with_reducible apply State.takeGen_keeps
    | with_reducible refine State.keeps_upMap _ ?_ ?_
    | with_reducible assumption
    | with_reducible refine keeps_ite ?_ ?_
    | with_reducible refine keeps_foldl (fun _ _ _ => ?_) ?_
    | with_reducible exact keepsO_get (by assumption)
    | with_reducible refine keepsO_map (fun _ _ => ?_) ?_
    | with_reducible refine keepsO_mapP (fun _ _ => ?_) ?_
    | with_reducible refine keepsO_foldl (fun _ _ _ => ?_) ?_
    | exact keepsO_none
    | with_reducible refine keepsO_some ?_
    | with_reducible refine keepsP_ite ?_ ?_
    | with_reducible refine keepsP_foldl (fun _ _ _ => ?_) ?_
    | split
    | with_reducible refine KeepsP.snd ?_
    | with_reducible refine keepsP_mk ?_
    | with_reducible refine KeepsP.out (by assumption) ?_
    | with_reducible refine KeepsOP.outp (by assumption) ?_
    | with_reducible refine KeepsOP.out (by assumption) ?_
theorem State.again_keeps {P : List Part} {r : State} (set : Option CopySet) (p : Pass) (pg : Option Page) (s : State)
    (sub : ∀ p, p ∈ [.pwr, .media, .map, .care, .yoke, .reg, .obs, .perf, .cmds] → p ∈ P) (h : r.keepsBut P s) : r.keepsBut P (State.again set p pg s) := by
  unfold State.again
  try dsimp only
  repeat' first
    | with_reducible exact h
    | (with_reducible refine sub _ ?_); decide
    | (with_reducible refine part_sub sub ?_); decide
    | with_reducible apply State.queueMoves_keeps
    | with_reducible apply State.redoSet_keeps
    | with_reducible apply State.replaceLap_keeps
    | with_reducible apply State.runResync_keeps
    | with_reducible assumption
    | with_reducible refine keeps_ite ?_ ?_
    | with_reducible refine keeps_foldl (fun _ _ _ => ?_) ?_
    | split
theorem State.cancel_keeps {P : List Part} {r : State} (bad : Pass → Bool) (s : State)
    (sub : ∀ p, p ∈ [.pwr, .tier, .budget, .media, .map, .care, .yoke, .reg, .obs, .perf, .cmds] → p ∈ P) (h : r.keepsBut P s) : r.keepsBut P (State.cancel bad s) := by
  unfold State.cancel
  try dsimp only
  repeat' first
    | with_reducible exact h
    | (with_reducible refine sub _ ?_); decide
    | (with_reducible refine part_sub sub ?_); decide
    | with_reducible apply State.again_keeps
    | with_reducible apply State.programXor_keeps
    | with_reducible apply State.withdraw_keeps
    | with_reducible assumption
    | with_reducible refine keeps_ite ?_ ?_
    | with_reducible refine keeps_foldl (fun _ _ _ => ?_) ?_
    | split
theorem State.startOp_keeps {P : List Part} {r : State} (l : Leave) (s : State)
    (sub : ∀ p, p ∈ [.pwr, .media, .map, .reg, .obs, .perf, .cmds] → p ∈ P) (h : r.keepsBut P s) : r.keepsBut P (State.startOp l s) := by
  unfold State.startOp
  try dsimp only
  repeat' first
    | with_reducible exact h
    | (with_reducible refine sub _ ?_); decide
    | (with_reducible refine part_sub sub ?_); decide
    | with_reducible apply State.count_keeps
    | with_reducible apply State.loadChannel_keeps
    | with_reducible apply State.setGroup_keeps
    | with_reducible apply State.wakeChannel_keeps
    | with_reducible refine State.keeps_upMedia _ ?_ ?_
    | with_reducible refine State.keeps_upReg _ ?_ ?_
    | with_reducible assumption
    | with_reducible refine keeps_ite ?_ ?_
    | with_reducible refine keeps_foldl (fun _ _ _ => ?_) ?_
    | split
theorem State.grantLoop_keeps {P : List Part} {r : State} (x0 : Nat) (x1 : State)
    (sub : ∀ p, p ∈ [.pwr, .media, .map, .reg, .obs, .perf, .cmds] → p ∈ P) (h : r.keepsBut P x1) : r.keepsBut P (State.grantLoop x0 x1) := by
  induction x0 generalizing x1 with
  | zero => unfold State.grantLoop; first | exact h | exact keepsP_mk h
  | succ n ih =>
    unfold State.grantLoop
    try dsimp only
    repeat' first
      | with_reducible exact h
      | (with_reducible refine sub _ ?_); decide
      | (with_reducible refine part_sub sub ?_); decide
      | with_reducible apply State.count_keeps
      | with_reducible apply State.startOp_keeps
      | with_reducible refine State.keeps_upReg _ ?_ ?_
      | with_reducible refine ih _ ?_
      | with_reducible assumption
      | with_reducible refine keeps_ite ?_ ?_
      | with_reducible refine keeps_foldl (fun _ _ _ => ?_) ?_
      | split
theorem execLeaveGrant_keeps {P : List Part} {r : State} (s : State)
    (sub : ∀ p, p ∈ [.pwr, .tier, .budget, .media, .map, .care, .yoke, .reg, .obs, .perf, .cmds] → p ∈ P) (h : r.keepsBut P s) : Answers r P (execLeaveGrant s) := by
  unfold execLeaveGrant
  try dsimp only
  repeat' first
    | with_reducible exact h
    | (with_reducible refine sub _ ?_); decide
    | (with_reducible refine part_sub sub ?_); decide
    | with_reducible apply State.cancel_keeps
    | with_reducible apply State.grantLoop_keeps
    | with_reducible assumption
    | with_reducible refine keeps_ite ?_ ?_
    | with_reducible refine keeps_foldl (fun _ _ _ => ?_) ?_
    | with_reducible refine answers_next ?_
    | split
theorem execWindowTokenGrant_keeps {P : List Part} {r : State} (pos : Nat) (s : State)
    (sub : ∀ p, p ∈ [.media] → p ∈ P) (h : r.keepsBut P s) : Answers r P (execWindowTokenGrant pos s) := by
  unfold execWindowTokenGrant
  try dsimp only
  repeat' first
    | with_reducible exact h
    | (with_reducible refine sub _ ?_); decide
    | (with_reducible refine part_sub sub ?_); decide
    | with_reducible refine State.keeps_upMedia _ ?_ ?_
    | with_reducible assumption
    | with_reducible refine keeps_ite ?_ ?_
    | with_reducible refine keeps_foldl (fun _ _ _ => ?_) ?_
    | with_reducible refine answers_next ?_
    | split
theorem State.nextOneBit_keeps {P : List Part} {r : State} (pos : Nat) (k : Nat) (o : DieOp) (s : State)
    (sub : ∀ p, p ∈ [.media] → p ∈ P) (h : r.keepsBut P s) : r.keepsBut P (State.nextOneBit pos k o s) := by
  unfold State.nextOneBit
  try dsimp only
  repeat' first
    | with_reducible exact h
    | (with_reducible refine sub _ ?_); decide
    | (with_reducible refine part_sub sub ?_); decide
    | with_reducible refine State.keeps_upMedia _ ?_ ?_
    | with_reducible assumption
    | with_reducible refine keeps_ite ?_ ?_
    | with_reducible refine keeps_foldl (fun _ _ _ => ?_) ?_
    | split
theorem execWindowEnd_keeps {P : List Part} {r : State} (pos : Nat) (s : State)
    (sub : ∀ p, p ∈ [.media] → p ∈ P) (h : r.keepsBut P s) : Answers r P (execWindowEnd pos s) := by
  unfold execWindowEnd
  try dsimp only
  repeat' first
    | with_reducible exact h
    | (with_reducible refine sub _ ?_); decide
    | (with_reducible refine part_sub sub ?_); decide
    | with_reducible apply State.nextOneBit_keeps
    | with_reducible refine State.keeps_upMedia _ ?_ ?_
    | with_reducible assumption
    | with_reducible refine keeps_ite ?_ ?_
    | with_reducible refine keeps_foldl (fun _ _ _ => ?_) ?_
    | with_reducible refine answers_next ?_
    | split
theorem State.cancelAbsent_keeps {P : List Part} {r : State} (g : Nat) (s : State)
    (sub : ∀ p, p ∈ [.pwr, .tier, .budget, .media, .map, .care, .yoke, .reg, .obs, .perf, .cmds] → p ∈ P) (h : r.keepsBut P s) : r.keepsBut P (State.cancelAbsent g s) := by
  unfold State.cancelAbsent
  try dsimp only
  repeat' first
    | with_reducible exact h
    | (with_reducible refine sub _ ?_); decide
    | (with_reducible refine part_sub sub ?_); decide
    | with_reducible apply State.cancel_keeps
    | with_reducible assumption
    | with_reducible refine keeps_ite ?_ ?_
    | with_reducible refine keeps_foldl (fun _ _ _ => ?_) ?_
    | split
theorem State.dieDown_keeps {P : List Part} {r : State} (pos : Nat) (ch : Nat) (s : State)
    (sub : ∀ p, p ∈ [.pwr, .tier, .budget, .media, .map, .care, .yoke, .reg, .obs, .perf, .rstats, .cmds] → p ∈ P) (h : r.keepsBut P s) : r.keepsBut P (State.dieDown pos ch s) := by
  unfold State.dieDown
  try dsimp only
  repeat' first
    | with_reducible exact h
    | (with_reducible refine sub _ ?_); decide
    | (with_reducible refine part_sub sub ?_); decide
    | with_reducible apply State.cancel_keeps
    | with_reducible apply State.failDie_keeps
    | with_reducible assumption
    | with_reducible refine keeps_ite ?_ ?_
    | with_reducible refine keeps_foldl (fun _ _ _ => ?_) ?_
    | split
theorem State.checkDies_keeps {P : List Part} {r : State} (s : State)
    (sub : ∀ p, p ∈ [.pwr, .tier, .budget, .media, .map, .care, .yoke, .reg, .obs, .perf, .rstats, .cmds] → p ∈ P) (h : r.keepsBut P s) : r.keepsBut P (State.checkDies s) := by
  unfold State.checkDies
  try dsimp only
  repeat' first
    | with_reducible exact h
    | (with_reducible refine sub _ ?_); decide
    | (with_reducible refine part_sub sub ?_); decide
    | with_reducible apply State.dieDown_keeps
    | with_reducible assumption
    | with_reducible refine keeps_ite ?_ ?_
    | with_reducible refine keeps_foldl (fun _ _ _ => ?_) ?_
    | split
theorem State.failPass_keeps {P : List Part} {r : State} (p : Pass) (damaged : List Nat) (lost : List Nat) (s : State)
    (sub : ∀ p, p ∈ [.pwr, .tier, .budget, .media, .map, .care, .yoke, .keys, .reg, .obs, .perf, .rstats, .cmds] → p ∈ P) (h : r.keepsBut P s) : r.keepsBut P (State.failPass p damaged lost s) := by
  unfold State.failPass
  try dsimp only
  repeat' first
    | with_reducible exact h
    | (with_reducible refine sub _ ?_); decide
    | (with_reducible refine part_sub sub ?_); decide
    | with_reducible apply State.again_keeps
    | with_reducible apply State.cancelAbsent_keeps
    | with_reducible apply State.checkDies_keeps
    | with_reducible apply State.columnAbsent_keeps
    | with_reducible apply State.log_keeps
    | with_reducible apply State.noteLost_keeps
    | with_reducible apply State.programXor_keeps
    | with_reducible apply State.queueMoves_keeps
    | with_reducible apply State.stripeLost_keeps
    | with_reducible apply State.withdraw_keeps
    | with_reducible assumption
    | with_reducible refine keeps_ite ?_ ?_
    | with_reducible refine keeps_foldl (fun _ _ _ => ?_) ?_
    | split
theorem State.readSource_keeps {P : List Part} {r : State} (p : Pass) (reads : List WordRead) (s : State)
    (sub : ∀ p, p ∈ [.pwr, .media, .map, .care, .reg, .dram, .gills, .mbox, .obs, .perf, .rstats, .cmds] → p ∈ P) (h : r.keepsBut P s) : r.keepsBut P (State.readSource p reads s) := by
  unfold State.readSource
  try dsimp only
  repeat' first
    | with_reducible exact h
    | (with_reducible refine sub _ ?_); decide
    | (with_reducible refine part_sub sub ?_); decide
    | with_reducible apply State.loseLines_keeps
    | with_reducible apply State.readLines_keeps
    | with_reducible apply State.scrubPoison_keeps
    | with_reducible refine State.keeps_upMedia _ ?_ ?_
    | with_reducible assumption
    | with_reducible refine keeps_ite ?_ ?_
    | with_reducible refine keeps_foldl (fun _ _ _ => ?_) ?_
    | with_reducible refine keepsP_ite ?_ ?_
    | with_reducible refine keepsP_foldl (fun _ _ _ => ?_) ?_
    | split
    | with_reducible refine KeepsP.snd ?_
    | with_reducible refine keepsP_mk ?_
    | with_reducible refine KeepsP.out (by assumption) ?_
theorem execProgramPassDone_keeps {P : List Part} {r : State} (pass : Nat) (failed : Bool) (damaged : List Nat) (lostPages : List Nat) (reads : List WordRead) (s : State)
    (sub : ∀ p, p ∈ [.pwr, .tier, .budget, .media, .map, .care, .yoke, .keys, .reg, .dram, .gills, .mbox, .obs, .perf, .rstats, .cmds] → p ∈ P) (h : r.keepsBut P s) : Answers r P (execProgramPassDone pass failed damaged lostPages reads s) := by
  unfold execProgramPassDone
  try dsimp only
  repeat' first
    | with_reducible exact h
    | (with_reducible refine sub _ ?_); decide
    | (with_reducible refine part_sub sub ?_); decide
    | with_reducible apply State.closing_keeps
    | with_reducible apply State.count_keeps
    | with_reducible apply State.failPass_keeps
    | with_reducible apply State.leavePass_keeps
    | with_reducible apply State.loadChannel_keeps
    | with_reducible apply State.noteProgram_keeps
    | with_reducible apply State.programXor_keeps
    | with_reducible apply State.readSource_keeps
    | with_reducible apply State.retireKeys_keeps
    | with_reducible refine State.keeps_upCare _ ?_ ?_
    | with_reducible refine State.keeps_upMedia _ ?_ ?_
    | with_reducible assumption
    | with_reducible refine keeps_ite ?_ ?_
    | with_reducible refine keeps_foldl (fun _ _ _ => ?_) ?_
    | with_reducible refine answers_next ?_
    | split
theorem State.releasePage_keeps {P : List Part} {r : State} (p : Pass) (ls : List Nat) (s : State)
    (sub : ∀ p, p ∈ [.pwr, .port, .reqs, .tier, .slices, .budget, .care, .yoke, .reg, .mbox, .obs, .perf, .firkin, .rstats, .cmds] → p ∈ P) (h : r.keepsBut P s) : r.keepsBut P (State.releasePage p ls s) := by
  unfold State.releasePage
  try dsimp only
  repeat' first
    | with_reducible exact h
    | (with_reducible refine sub _ ?_); decide
    | (with_reducible refine part_sub sub ?_); decide
    | with_reducible apply State.answer_keeps
    | with_reducible apply State.releaseLine_keeps
    | with_reducible apply State.send_keeps
    | with_reducible refine State.keeps_upBudget _ ?_ ?_
    | with_reducible refine State.keeps_upYoke _ ?_ ?_
    | with_reducible assumption
    | with_reducible refine keeps_ite ?_ ?_
    | with_reducible refine keeps_foldl (fun _ _ _ => ?_) ?_
    | split
theorem State.landMove_keeps {P : List Part} {r : State} (p : Pass) (src : Nat) (pg : Page) (s : State)
    (sub : ∀ p, p ∈ [.pwr, .media, .map, .care, .yoke, .reg, .tabs, .obs, .perf, .cmds] → p ∈ P) (h : r.keepsBut P s) : r.keepsBut P (State.landMove p src pg s) := by
  unfold State.landMove
  try dsimp only
  repeat' first
    | with_reducible exact h
    | (with_reducible refine sub _ ?_); decide
    | (with_reducible refine part_sub sub ?_); decide
    | with_reducible apply State.closeGroup_keeps
    | with_reducible apply State.indexLine_keeps
    | with_reducible apply State.journal_keeps
    | with_reducible apply State.log_keeps
    | with_reducible apply State.mapGrain_keeps
    | with_reducible apply State.save_keeps
    | with_reducible refine State.keeps_upMap _ ?_ ?_
    | with_reducible refine State.keeps_upMedia _ ?_ ?_
    | with_reducible refine State.keeps_upTabs _ ?_ ?_
    | with_reducible assumption
    | with_reducible refine keeps_ite ?_ ?_
    | with_reducible refine keeps_foldl (fun _ _ _ => ?_) ?_
    | split
theorem State.landResync_keeps {P : List Part} {r : State} (p : Pass) (pg : Page) (s : State)
    (sub : ∀ p, p ∈ [.pwr, .reqs, .fc, .tier, .slices, .budget, .media, .map, .care, .yoke, .atom, .reg, .obs, .perf, .cmds] → p ∈ P) (h : r.keepsBut P s) : r.keepsBut P (State.landResync p pg s) := by
  unfold State.landResync
  try dsimp only
  repeat' first
    | with_reducible exact h
    | (with_reducible refine sub _ ?_); decide
    | (with_reducible refine part_sub sub ?_); decide
    | with_reducible apply State.dropLine_keeps
    | with_reducible apply State.endRes_keeps
    | with_reducible apply State.mapGrain_keeps
    | with_reducible apply State.poison_keeps
    | with_reducible apply State.send_keeps
    | with_reducible apply State.unpoison_keeps
    | with_reducible refine State.keeps_upYoke _ ?_ ?_
    | with_reducible assumption
    | with_reducible refine keeps_ite ?_ ?_
    | with_reducible refine keeps_foldl (fun _ _ _ => ?_) ?_
    | split
theorem State.landWrite_keeps {P : List Part} {r : State} (p : Pass) (pg : Page) (s : State)
    (sub : ∀ p, p ∈ [.pwr, .port, .reqs, .fc, .tier, .slices, .budget, .media, .map, .care, .yoke, .atom, .reg, .mbox, .obs, .perf, .firkin, .rstats, .cmds] → p ∈ P) (h : r.keepsBut P s) : r.keepsBut P (State.landWrite p pg s) := by
  unfold State.landWrite
  try dsimp only
  repeat' first
    | with_reducible exact h
    | (with_reducible refine sub _ ?_); decide
    | (with_reducible refine part_sub sub ?_); decide
    | with_reducible apply State.indexLine_keeps
    | with_reducible apply State.journal_keeps
    | with_reducible apply State.landResync_keeps
    | with_reducible apply State.mapGrain_keeps
    | with_reducible apply State.releasePage_keeps
    | with_reducible apply State.returnLines_keeps
    | with_reducible refine State.keeps_upBudget _ ?_ ?_
    | with_reducible assumption
    | with_reducible refine keeps_ite ?_ ?_
    | with_reducible refine keeps_foldl (fun _ _ _ => ?_) ?_
    | split
theorem execPageVerify_keeps {P : List Part} {r : State} (ppa : Nat) (corrected : Nat) (converged : Bool) (damaged : List Nat) (lostPages : List Nat) (s : State)
    (sub : ∀ p, p ∈ [.pwr, .port, .reqs, .fc, .tier, .slices, .budget, .media, .map, .care, .yoke, .atom, .keys, .reg, .tabs, .mbox, .obs, .perf, .firkin, .rstats, .cmds] → p ∈ P) (h : r.keepsBut P s) : Answers r P (execPageVerify ppa corrected converged damaged lostPages s) := by
  unfold execPageVerify
  try dsimp only
  repeat' first
    | with_reducible exact h
    | (with_reducible refine sub _ ?_); decide
    | (with_reducible refine part_sub sub ?_); decide
    | with_reducible apply State.checkDies_keeps
    | with_reducible apply State.closing_keeps
    | with_reducible apply State.endPass_keeps
    | with_reducible apply State.failPass_keeps
    | with_reducible apply State.landMove_keeps
    | with_reducible apply State.landWrite_keeps
    | with_reducible apply State.noteLimits_keeps
    | with_reducible apply State.rekeyDone_keeps
    | with_reducible apply State.retireKeys_keeps
    | with_reducible apply State.runLap_keeps
    | with_reducible apply State.settle_keeps
    | with_reducible apply State.wakeChannel_keeps
    | with_reducible refine State.keeps_upMedia _ ?_ ?_
    | with_reducible assumption
    | with_reducible refine keeps_ite ?_ ?_
    | with_reducible refine keeps_foldl (fun _ _ _ => ?_) ?_
    | with_reducible refine answers_next ?_
    | split
theorem State.strike_keeps {P : List Part} {r : State} (ppa : Nat) (s : State)
    (sub : ∀ p, p ∈ [.media] → p ∈ P) (h : r.keepsBut P s) : r.keepsBut P (State.strike ppa s) := by
  unfold State.strike
  try dsimp only
  repeat' first
    | with_reducible exact h
    | (with_reducible refine sub _ ?_); decide
    | (with_reducible refine part_sub sub ?_); decide
    | with_reducible refine State.keeps_upMedia _ ?_ ?_
    | with_reducible assumption
    | with_reducible refine keeps_ite ?_ ?_
    | with_reducible refine keeps_foldl (fun _ _ _ => ?_) ?_
    | split
theorem State.wakeColumns_keeps {P : List Part} {r : State} (g : Nat) (s : State)
    (sub : ∀ p, p ∈ [.media] → p ∈ P) (h : r.keepsBut P s) : r.keepsBut P (State.wakeColumns g s) := by
  unfold State.wakeColumns
  try dsimp only
  repeat' first
    | with_reducible exact h
    | (with_reducible refine sub _ ?_); decide
    | (with_reducible refine part_sub sub ?_); decide
    | with_reducible apply State.wakeChannel_keeps
    | with_reducible assumption
    | with_reducible refine keeps_ite ?_ ?_
    | with_reducible refine keeps_foldl (fun _ _ _ => ?_) ?_
    | split
theorem execCloseVerifyDone_keeps {P : List Part} {r : State} (group : Nat) (failed : List Nat) (weak : List Nat) (lostPages : List Nat) (s : State)
    (sub : ∀ p, p ∈ [.pwr, .tier, .budget, .media, .map, .care, .yoke, .keys, .reg, .obs, .perf, .rstats, .cmds] → p ∈ P) (h : r.keepsBut P s) : Answers r P (execCloseVerifyDone group failed weak lostPages s) := by
  unfold execCloseVerifyDone
  try dsimp only
  repeat' first
    | with_reducible exact h
    | (with_reducible refine sub _ ?_); decide
    | (with_reducible refine part_sub sub ?_); decide
    | with_reducible apply State.checkDies_keeps
    | with_reducible apply State.closeGroup_keeps
    | with_reducible apply State.log_keeps
    | with_reducible apply State.queueMoves_keeps
    | with_reducible apply State.strike_keeps
    | with_reducible apply State.stripeLost_keeps
    | with_reducible apply State.wakeColumns_keeps
    | with_reducible refine State.keeps_upMedia _ ?_ ?_
    | with_reducible assumption
    | with_reducible refine keeps_ite ?_ ?_
    | with_reducible refine keeps_foldl (fun _ _ _ => ?_) ?_
    | with_reducible refine answers_next ?_
    | split
theorem State.dropCols_keeps {P : List Part} {r : State} (g : Nat) (cols : List Nat) (s : State)
    (sub : ∀ p, p ∈ [.pwr, .media, .map, .care, .yoke, .obs, .perf, .cmds] → p ∈ P) (h : r.keepsBut P s) : r.keepsBut P (State.dropCols g cols s) := by
  unfold State.dropCols
  try dsimp only
  repeat' first
    | with_reducible exact h
    | (with_reducible refine sub _ ?_); decide
    | (with_reducible refine part_sub sub ?_); decide
    | with_reducible apply State.freeChanged_keeps
    | with_reducible apply State.log_keeps
    | with_reducible apply State.retireBlock_keeps
    | with_reducible apply State.retireGroup_keeps
    | with_reducible apply State.setGroup_keeps
    | with_reducible apply State.takeReserve_keeps
    | with_reducible refine State.keeps_upMedia _ ?_ ?_
    | with_reducible assumption
    | with_reducible refine keeps_ite ?_ ?_
    | with_reducible refine keeps_foldl (fun _ _ _ => ?_) ?_
    | split
theorem State.erased_keeps {P : List Part} {r : State} (g : Nat) (s : State)
    (sub : ∀ p, p ∈ [.cmds] → p ∈ P) (h : r.keepsBut P s) : r.keepsBut P (State.erased g s) := by
  unfold State.erased
  try dsimp only
  repeat' first
    | with_reducible exact h
    | (with_reducible refine sub _ ?_); decide
    | (with_reducible refine part_sub sub ?_); decide
    | with_reducible refine State.keeps_upCmds _ ?_ ?_
    | with_reducible assumption
    | with_reducible refine keeps_ite ?_ ?_
    | with_reducible refine keeps_foldl (fun _ _ _ => ?_) ?_
    | split
theorem State.endReset_keeps {P : List Part} {r : State} (g : Nat) (s : State)
    (sub : ∀ p, p ∈ [.media, .reg] → p ∈ P) (h : r.keepsBut P s) : r.keepsBut P (State.endReset g s) := by
  unfold State.endReset
  try dsimp only
  repeat' first
    | with_reducible exact h
    | (with_reducible refine sub _ ?_); decide
    | (with_reducible refine part_sub sub ?_); decide
    | with_reducible apply State.giveLeave_keeps
    | with_reducible refine State.keeps_upMedia _ ?_ ?_
    | with_reducible assumption
    | with_reducible refine keeps_ite ?_ ?_
    | with_reducible refine keeps_foldl (fun _ _ _ => ?_) ?_
    | split
theorem execBlockResetDone_keeps {P : List Part} {r : State} (group : Nat) (failedCols : List Nat) (s : State)
    (sub : ∀ p, p ∈ [.pwr, .tier, .budget, .media, .map, .care, .yoke, .reg, .obs, .perf, .rstats, .cmds] → p ∈ P) (h : r.keepsBut P s) : Answers r P (execBlockResetDone group failedCols s) := by
  unfold execBlockResetDone
  try dsimp only
  repeat' first
    | with_reducible exact h
    | (with_reducible refine sub _ ?_); decide
    | (with_reducible refine part_sub sub ?_); decide
    | with_reducible apply State.checkDies_keeps
    | with_reducible apply State.dropCols_keeps
    | with_reducible apply State.endReset_keeps
    | with_reducible apply State.erased_keeps
    | with_reducible apply State.freeChanged_keeps
    | with_reducible apply State.noteWear_keeps
    | with_reducible apply State.runMoves_keeps
    | with_reducible apply State.setGroup_keeps
    | with_reducible refine State.keeps_upMedia _ ?_ ?_
    | with_reducible assumption
    | with_reducible refine keeps_ite ?_ ?_
    | with_reducible refine keeps_foldl (fun _ _ _ => ?_) ?_
    | with_reducible refine answers_next ?_
    | split
theorem execDieFailed_keeps {P : List Part} {r : State} (pos : Nat) (ch : Nat) (lostPages : List Nat) (s : State)
    (sub : ∀ p, p ∈ [.pwr, .tier, .budget, .media, .map, .care, .yoke, .keys, .reg, .obs, .perf, .rstats, .cmds] → p ∈ P) (h : r.keepsBut P s) : Answers r P (execDieFailed pos ch lostPages s) := by
  unfold execDieFailed
  try dsimp only
  repeat' first
    | with_reducible exact h
    | (with_reducible refine sub _ ?_); decide
    | (with_reducible refine part_sub sub ?_); decide
    | with_reducible apply State.dieDown_keeps
    | with_reducible apply State.stripeLost_keeps
    | with_reducible assumption
    | with_reducible refine keeps_ite ?_ ?_
    | with_reducible refine keeps_foldl (fun _ _ _ => ?_) ?_
    | with_reducible refine answers_next ?_
    | split
theorem State.retirePosition_keeps {P : List Part} {r : State} (pos : Nat) (s : State)
    (sub : ∀ p, p ∈ [.pwr, .media, .map, .care, .yoke, .obs, .perf, .cmds] → p ∈ P) (h : r.keepsBut P s) : r.keepsBut P (State.retirePosition pos s) := by
  unfold State.retirePosition
  try dsimp only
  repeat' first
    | with_reducible exact h
    | (with_reducible refine sub _ ?_); decide
    | (with_reducible refine part_sub sub ?_); decide
    | with_reducible apply State.retireGroup_keeps
    | with_reducible refine State.keeps_upMedia _ ?_ ?_
    | with_reducible assumption
    | with_reducible refine keeps_ite ?_ ?_
    | with_reducible refine keeps_foldl (fun _ _ _ => ?_) ?_
    | split
theorem State.nextRebuild_keeps {P : List Part} {r : State} (s : State)
    (sub : ∀ p, p ∈ [.pwr, .media, .map, .care, .yoke, .reg, .obs, .perf, .rstats, .cmds] → p ∈ P) (h : r.keepsBut P s) : r.keepsBut P (State.nextRebuild s) := by
  unfold State.nextRebuild
  try dsimp only
  repeat' first
    | with_reducible exact h
    | (with_reducible refine sub _ ?_); decide
    | (with_reducible refine part_sub sub ?_); decide
    | with_reducible apply State.boundEnd_keeps
    | with_reducible apply State.queueMoves_keeps
    | with_reducible refine State.keeps_upMedia _ ?_ ?_
    | with_reducible assumption
    | with_reducible refine keeps_ite ?_ ?_
    | with_reducible refine keeps_foldl (fun _ _ _ => ?_) ?_
    | split
theorem execRebuildPhaseDone_keeps {P : List Part} {r : State} (s : State)
    (sub : ∀ p, p ∈ [.pwr, .tier, .budget, .media, .map, .care, .yoke, .reg, .obs, .perf, .rstats, .cmds] → p ∈ P) (h : r.keepsBut P s) : Answers r P (execRebuildPhaseDone s) := by
  unfold execRebuildPhaseDone
  try dsimp only
  repeat' first
    | with_reducible exact h
    | (with_reducible refine sub _ ?_); decide
    | (with_reducible refine part_sub sub ?_); decide
    | with_reducible apply State.checkDies_keeps
    | with_reducible apply State.log_keeps
    | with_reducible apply State.nextRebuild_keeps
    | with_reducible apply State.queueMoves_keeps
    | with_reducible apply State.retireGroup_keeps
    | with_reducible apply State.retirePosition_keeps
    | with_reducible apply State.setGroup_keeps
    | with_reducible apply State.settle_keeps
    | with_reducible refine State.keeps_upMedia _ ?_ ?_
    | with_reducible assumption
    | with_reducible refine keeps_ite ?_ ?_
    | with_reducible refine keeps_foldl (fun _ _ _ => ?_) ?_
    | with_reducible refine answers_next ?_
    | split

end Sys2Proof.Machine
end

