-- ==== Sys2Proof/Laws/KeepsCare.lean ====
section
/-!
SUPPORT. What each operation of Machine/Care.lean leaves unchanged: the groups of the state it may write, the others kept.
-/
namespace Sys2Proof.Machine

theorem State.noteDeep_keeps {P : List Part} {r : State} (g : Nat) (deep : Bool) (s : State)
    (sub : ∀ p, p ∈ [.obs] → p ∈ P) (h : r.keepsBut P s) : r.keepsBut P (State.noteDeep g deep s) := by
  unfold State.noteDeep
  try dsimp only
  repeat' first
    | with_reducible exact h
    | (with_reducible refine sub _ ?_); decide
    | (with_reducible refine part_sub sub ?_); decide
    | with_reducible apply State.log_keeps
    | with_reducible assumption
    | with_reducible refine keeps_ite ?_ ?_
    | with_reducible refine keeps_foldl (fun _ _ _ => ?_) ?_
    | split
theorem execSkimVictimSelect_keeps {P : List Part} {r : State} (s : State)
    (sub : ∀ p, p ∈ [.pwr, .media, .map, .care, .yoke, .reg, .obs, .perf, .cmds] → p ∈ P) (h : r.keepsBut P s) : Answers r P (execSkimVictimSelect s) := by
  unfold execSkimVictimSelect
  try dsimp only
  repeat' first
    | with_reducible exact h
    | (with_reducible refine sub _ ?_); decide
    | (with_reducible refine part_sub sub ?_); decide
    | with_reducible apply State.checkBrine_keeps
    | with_reducible apply State.noteDeep_keeps
    | with_reducible apply State.skimLevel_keeps
    | with_reducible apply State.startSet_keeps
    | with_reducible assumption
    | with_reducible refine keeps_ite ?_ ?_
    | with_reducible refine keeps_foldl (fun _ _ _ => ?_) ?_
    | with_reducible refine answers_next ?_
    | split
theorem execIdleSkimStart_keeps {P : List Part} {r : State} (s : State)
    (sub : ∀ p, p ∈ [.clk, .pwr, .media, .map, .care, .yoke, .reg, .obs, .perf, .cmds] → p ∈ P) (h : r.keepsBut P s) : Answers r P (execIdleSkimStart s) := by
  unfold execIdleSkimStart
  try dsimp only
  repeat' first
    | with_reducible exact h
    | (with_reducible refine sub _ ?_); decide
    | (with_reducible refine part_sub sub ?_); decide
    | with_reducible apply State.elapseTo_keeps
    | with_reducible apply State.noteDeep_keeps
    | with_reducible apply State.startSet_keeps
    | with_reducible refine State.keeps_upCare _ ?_ ?_
    | with_reducible assumption
    | with_reducible refine keeps_ite ?_ ?_
    | with_reducible refine keeps_foldl (fun _ _ _ => ?_) ?_
    | with_reducible refine answers_next ?_
    | split
theorem State.switchSet_keeps {P : List Part} {r : State} (k : CopySet) (s : State)
    (sub : ∀ p, p ∈ [.pwr, .media, .map, .care, .yoke, .reg, .obs, .perf, .cmds] → p ∈ P) (h : r.keepsBut P s) : r.keepsBut P (State.switchSet k s) := by
  unfold State.switchSet
  try dsimp only
  repeat' first
    | with_reducible exact h
    | (with_reducible refine sub _ ?_); decide
    | (with_reducible refine part_sub sub ?_); decide
    | with_reducible apply State.indexLine_keeps
    | with_reducible apply State.journal_keeps
    | with_reducible apply State.mapGrain_keeps
    | with_reducible assumption
    | with_reducible refine keeps_ite ?_ ?_
    | with_reducible refine keeps_foldl (fun _ _ _ => ?_) ?_
    | split
theorem State.victimDone_keeps {P : List Part} {r : State} (k : CopySet) (due : Bool) (s : State)
    (sub : ∀ p, p ∈ [.pwr, .media, .map, .care, .yoke, .reg, .obs, .perf, .cmds] → p ∈ P) (h : r.keepsBut P s) : r.keepsBut P (State.victimDone k due s) := by
  unfold State.victimDone
  try dsimp only
  repeat' first
    | with_reducible exact h
    | (with_reducible refine sub _ ?_); decide
    | (with_reducible refine part_sub sub ?_); decide
    | with_reducible apply State.giveLeave_keeps
    | with_reducible apply State.settle_keeps
    | with_reducible refine State.keeps_upCare _ ?_ ?_
    | with_reducible refine State.keeps_upMedia _ ?_ ?_
    | with_reducible assumption
    | with_reducible refine keeps_ite ?_ ?_
    | with_reducible refine keeps_foldl (fun _ _ _ => ?_) ?_
    | split
theorem execCopySetSwitch_keeps {P : List Part} {r : State} (victim : Nat) (bad : Option Nat) (s : State)
    (sub : ∀ p, p ∈ [.pwr, .tier, .budget, .media, .map, .care, .yoke, .keys, .reg, .tabs, .obs, .perf, .rstats, .cmds] → p ∈ P) (h : r.keepsBut P s) : Answers r P (execCopySetSwitch victim bad s) := by
  unfold execCopySetSwitch
  try dsimp only
  repeat' first
    | with_reducible exact h
    | (with_reducible refine sub _ ?_); decide
    | (with_reducible refine part_sub sub ?_); decide
    | with_reducible apply State.cancelAbsent_keeps
    | with_reducible apply State.checkBrine_keeps
    | with_reducible apply State.checkDies_keeps
    | with_reducible apply State.columnAbsent_keeps
    | with_reducible apply State.count_keeps
    | with_reducible apply State.noteLimits_keeps
    | with_reducible apply State.redoSet_keeps
    | with_reducible apply State.rekeyDone_keeps
    | with_reducible apply State.retireKeys_keeps
    | with_reducible apply State.startSet_keeps
    | with_reducible apply State.switchSet_keeps
    | with_reducible apply State.victimDone_keeps
    | with_reducible refine State.keeps_upCare _ ?_ ?_
    | with_reducible assumption
    | with_reducible refine keeps_ite ?_ ?_
    | with_reducible refine keeps_foldl (fun _ _ _ => ?_) ?_
    | with_reducible refine answers_next ?_
    | split
theorem execRepourStart_keeps {P : List Part} {r : State} (s : State)
    (sub : ∀ p, p ∈ [.pwr, .media, .map, .care, .yoke, .reg, .obs, .perf, .cmds] → p ∈ P) (h : r.keepsBut P s) : Answers r P (execRepourStart s) := by
  unfold execRepourStart
  try dsimp only
  repeat' first
    | with_reducible exact h
    | (with_reducible refine sub _ ?_); decide
    | (with_reducible refine part_sub sub ?_); decide
    | with_reducible apply State.noteDeep_keeps
    | with_reducible apply State.startSet_keeps
    | with_reducible assumption
    | with_reducible refine keeps_ite ?_ ?_
    | with_reducible refine keeps_foldl (fun _ _ _ => ?_) ?_
    | with_reducible refine answers_next ?_
    | split
theorem execRipeningCellUpdate_keeps {P : List Part} {r : State} (pkg : Nat) (cls : Nat) (band : Nat) (s : State)
    (sub : ∀ p, p ∈ [.clk, .care, .obs, .perf] → p ∈ P) (h : r.keepsBut P s) : Answers r P (execRipeningCellUpdate pkg cls band s) := by
  unfold execRipeningCellUpdate
  try dsimp only
  repeat' first
    | with_reducible exact h
    | (with_reducible refine sub _ ?_); decide
    | (with_reducible refine part_sub sub ?_); decide
    | with_reducible apply State.elapseTo_keeps
    | with_reducible apply State.save_keeps
    | with_reducible refine State.keeps_upCare _ ?_ ?_
    | with_reducible assumption
    | with_reducible refine keeps_ite ?_ ?_
    | with_reducible refine keeps_foldl (fun _ _ _ => ?_) ?_
    | with_reducible refine answers_next ?_
    | split
theorem State.scrubTo_keeps {P : List Part} {r : State} (addr : Nat) (s : State)
    (sub : ∀ p, p ∈ [.clk, .mbox, .obs, .perf, .cmds] → p ∈ P) (h : r.keepsBut P s) : r.keepsBut P (State.scrubTo addr s) := by
  unfold State.scrubTo
  try dsimp only
  repeat' first
    | with_reducible exact h
    | (with_reducible refine sub _ ?_); decide
    | (with_reducible refine part_sub sub ?_); decide
    | with_reducible apply State.elapseTo_keeps
    | with_reducible apply State.setVal_keeps
    | with_reducible apply State.tally_keeps
    | with_reducible refine State.keeps_upMbox _ ?_ ?_
    | with_reducible assumption
    | with_reducible refine keeps_ite ?_ ?_
    | with_reducible refine keeps_foldl (fun _ _ _ => ?_) ?_
    | split
theorem State.checkAt_keeps {P : List Part} {r : State} (ppa : Nat) (codeword : Nat) (s : State)
    (sub : ∀ p, p ∈ [.clk, .care, .mbox, .obs, .perf, .cmds] → p ∈ P) (h : r.keepsBut P s) : r.keepsBut P (State.checkAt ppa codeword s) := by
  unfold State.checkAt
  try dsimp only
  repeat' first
    | with_reducible exact h
    | (with_reducible refine sub _ ?_); decide
    | (with_reducible refine part_sub sub ?_); decide
    | with_reducible apply State.elapseTo_keeps
    | with_reducible apply State.scrubTo_keeps
    | with_reducible refine State.keeps_upCare _ ?_ ?_
    | with_reducible assumption
    | with_reducible refine keeps_ite ?_ ?_
    | with_reducible refine keeps_foldl (fun _ _ _ => ?_) ?_
    | split
theorem execStrainerLapEnd_keeps {P : List Part} {r : State} (s : State)
    (sub : ∀ p, p ∈ [.care, .obs] → p ∈ P) (h : r.keepsBut P s) : Answers r P (execStrainerLapEnd s) := by
  unfold execStrainerLapEnd
  try dsimp only
  repeat' first
    | with_reducible exact h
    | (with_reducible refine sub _ ?_); decide
    | (with_reducible refine part_sub sub ?_); decide
    | with_reducible apply State.log_keeps
    | with_reducible refine State.keeps_upCare _ ?_ ?_
    | with_reducible assumption
    | with_reducible refine keeps_ite ?_ ?_
    | with_reducible refine keeps_foldl (fun _ _ _ => ?_) ?_
    | with_reducible refine answers_next ?_
    | split
theorem State.sweepDram_keeps {P : List Part} {r : State} (errors : List (Nat × CacheFault)) (s : State)
    (sub : ∀ p, p ∈ [.pwr, .port, .reqs, .fc, .tier, .slices, .budget, .media, .map, .care, .yoke, .atom, .keys, .reg, .dram, .gills, .dict, .mbox, .obs, .perf, .rstats, .fw, .cmds] → p ∈ P) (h : r.keepsBut P s) : r.keepsBut P (State.sweepDram errors s) := by
  unfold State.sweepDram
  try dsimp only
  repeat' first
    | with_reducible exact h
    | (with_reducible refine sub _ ?_); decide
    | (with_reducible refine part_sub sub ?_); decide
    | with_reducible apply State.checkFault_keeps
    | with_reducible assumption
    | with_reducible refine keeps_ite ?_ ?_
    | with_reducible refine keeps_foldl (fun _ _ _ => ?_) ?_
    | split
theorem execStrainerDramLapEnd_keeps {P : List Part} {r : State} (errors : List (Nat × CacheFault)) (s : State)
    (sub : ∀ p, p ∈ [.clk, .pwr, .port, .reqs, .fc, .tier, .slices, .budget, .media, .map, .care, .yoke, .atom, .keys, .reg, .dram, .gills, .dict, .mbox, .obs, .perf, .rstats, .fw, .cmds] → p ∈ P) (h : r.keepsBut P s) : Answers r P (execStrainerDramLapEnd errors s) := by
  unfold execStrainerDramLapEnd
  try dsimp only
  repeat' first
    | with_reducible exact h
    | (with_reducible refine sub _ ?_); decide
    | (with_reducible refine part_sub sub ?_); decide
    | with_reducible apply State.elapseTo_keeps
    | with_reducible apply State.sweepDram_keeps
    | with_reducible refine State.keeps_upCare _ ?_ ?_
    | with_reducible assumption
    | with_reducible refine keeps_ite ?_ ?_
    | with_reducible refine keeps_foldl (fun _ _ _ => ?_) ?_
    | with_reducible refine answers_next ?_
    | split
theorem State.condemn_keeps {P : List Part} {r : State} (ppa : Nat) (s : State)
    (sub : ∀ p, p ∈ [.pwr, .media, .map, .care, .yoke, .reg, .obs, .perf, .cmds] → p ∈ P) (h : r.keepsBut P s) : r.keepsBut P (State.condemn ppa s) := by
  unfold State.condemn
  try dsimp only
  repeat' first
    | with_reducible exact h
    | (with_reducible refine sub _ ?_); decide
    | (with_reducible refine part_sub sub ?_); decide
    | with_reducible apply State.queueMoves_keeps
    | with_reducible apply State.tally_keeps
    | with_reducible assumption
    | with_reducible refine keeps_ite ?_ ?_
    | with_reducible refine keeps_foldl (fun _ _ _ => ?_) ?_
    | split
theorem State.scrubTally_keeps {P : List Part} {r : State} (f : Finding) (s : State)
    (sub : ∀ p, p ∈ [.cmds] → p ∈ P) (h : r.keepsBut P s) : r.keepsBut P (State.scrubTally f s) := by
  unfold State.scrubTally
  try dsimp only
  repeat' first
    | with_reducible exact h
    | (with_reducible refine sub _ ?_); decide
    | (with_reducible refine part_sub sub ?_); decide
    | with_reducible apply State.tally_keeps
    | with_reducible assumption
    | with_reducible refine keeps_ite ?_ ?_
    | with_reducible refine keeps_foldl (fun _ _ _ => ?_) ?_
    | split
theorem execStrainerFinding_keeps {P : List Part} {r : State} (ppa : Nat) (codeword : Nat) (f : Finding) (s : State)
    (sub : ∀ p, p ∈ [.clk, .pwr, .media, .map, .care, .yoke, .reg, .dram, .gills, .mbox, .obs, .perf, .rstats, .cmds] → p ∈ P) (h : r.keepsBut P s) : Answers r P (execStrainerFinding ppa codeword f s) := by
  unfold execStrainerFinding
  try dsimp only
  repeat' first
    | with_reducible exact h
    | (with_reducible refine sub _ ?_); decide
    | (with_reducible refine part_sub sub ?_); decide
    | with_reducible apply State.checkAt_keeps
    | with_reducible apply State.climb_keeps
    | with_reducible apply State.condemn_keeps
    | with_reducible apply State.scrubTally_keeps
    | with_reducible assumption
    | with_reducible refine keeps_ite ?_ ?_
    | with_reducible refine keeps_foldl (fun _ _ _ => ?_) ?_
    | with_reducible refine answers_next ?_
    | split
theorem execBrineDropReport_keeps {P : List Part} {r : State} (s : State)
    (sub : ∀ p, p ∈ [.clk, .care, .obs, .perf] → p ∈ P) (h : r.keepsBut P s) : Answers r P (execBrineDropReport s) := by
  unfold execBrineDropReport
  try dsimp only
  repeat' first
    | with_reducible exact h
    | (with_reducible refine sub _ ?_); decide
    | (with_reducible refine part_sub sub ?_); decide
    | with_reducible apply State.elapseTo_keeps
    | with_reducible apply State.log_keeps
    | with_reducible refine State.keeps_upCare _ ?_ ?_
    | with_reducible assumption
    | with_reducible refine keeps_ite ?_ ?_
    | with_reducible refine keeps_foldl (fun _ _ _ => ?_) ?_
    | with_reducible refine answers_next ?_
    | split

end Sys2Proof.Machine
end

