-- ==== Sys2Proof/Laws/KeepsDurability.lean ====
section
/-!
SUPPORT. What each operation of Machine/Durability.lean leaves unchanged: the groups of the state it may write, the others kept.
-/
namespace Sys2Proof.Machine

theorem State.armCheck_keeps {P : List Part} {r : State} (s : State)
    (sub : ∀ p, p ∈ [.pwr, .obs] → p ∈ P) (h : r.keepsBut P s) : r.keepsBut P (State.armCheck s) := by
  unfold State.armCheck
  try dsimp only
  repeat' first
    | with_reducible exact h
    | (with_reducible refine sub _ ?_); decide
    | (with_reducible refine part_sub sub ?_); decide
    | with_reducible apply State.log_keeps
    | with_reducible refine State.keeps_upPwr _ ?_ ?_
    | with_reducible assumption
    | with_reducible refine keeps_ite ?_ ?_
    | with_reducible refine keeps_foldl (fun _ _ _ => ?_) ?_
    | split
theorem State.rederive_keeps {P : List Part} {r : State} (s : State)
    (sub : ∀ p, p ∈ [.pwr, .budget, .obs] → p ∈ P) (h : r.keepsBut P s) : r.keepsBut P (State.rederive s) := by
  unfold State.rederive
  try dsimp only
  repeat' first
    | with_reducible exact h
    | (with_reducible refine sub _ ?_); decide
    | (with_reducible refine part_sub sub ?_); decide
    | with_reducible apply State.armCheck_keeps
    | with_reducible apply State.log_keeps
    | with_reducible refine State.keeps_upBudget _ ?_ ?_
    | with_reducible assumption
    | with_reducible refine keeps_ite ?_ ?_
    | with_reducible refine keeps_foldl (fun _ _ _ => ?_) ?_
    | split
theorem State.bankFault_keeps {P : List Part} {r : State} (why : Nat) (s : State)
    (sub : ∀ p, p ∈ [.pwr, .budget, .bank, .obs, .perf] → p ∈ P) (h : r.keepsBut P s) : r.keepsBut P (State.bankFault why s) := by
  unfold State.bankFault
  try dsimp only
  repeat' first
    | with_reducible exact h
    | (with_reducible refine sub _ ?_); decide
    | (with_reducible refine part_sub sub ?_); decide
    | with_reducible apply State.log_keeps
    | with_reducible apply State.rederive_keeps
    | with_reducible apply State.save_keeps
    | with_reducible refine State.keeps_upBank _ ?_ ?_
    | with_reducible refine State.keeps_upBudget _ ?_ ?_
    | with_reducible assumption
    | with_reducible refine keeps_ite ?_ ?_
    | with_reducible refine keeps_foldl (fun _ _ _ => ?_) ?_
    | split
theorem State.closePeriod_keeps {P : List Part} {r : State} (shortened : Bool) (s : State)
    (sub : ∀ p, p ∈ [.obs, .perf, .firkin] → p ∈ P) (h : r.keepsBut P s) : r.keepsBut P (State.closePeriod shortened s) := by
  unfold State.closePeriod
  try dsimp only
  repeat' first
    | with_reducible exact h
    | (with_reducible refine sub _ ?_); decide
    | (with_reducible refine part_sub sub ?_); decide
    | with_reducible apply State.count_keeps
    | with_reducible refine State.keeps_upFirkin _ ?_ ?_
    | with_reducible assumption
    | with_reducible refine keeps_ite ?_ ?_
    | with_reducible refine keeps_foldl (fun _ _ _ => ?_) ?_
    | split
theorem State.stopFirkin_keeps {P : List Part} {r : State} (s : State)
    (sub : ∀ p, p ∈ [.obs, .perf, .firkin] → p ∈ P) (h : r.keepsBut P s) : r.keepsBut P (State.stopFirkin s) := by
  unfold State.stopFirkin
  try dsimp only
  repeat' first
    | with_reducible exact h
    | (with_reducible refine sub _ ?_); decide
    | (with_reducible refine part_sub sub ?_); decide
    | with_reducible apply State.closePeriod_keeps
    | with_reducible refine State.keeps_upFirkin _ ?_ ?_
    | with_reducible assumption
    | with_reducible refine keeps_ite ?_ ?_
    | with_reducible refine keeps_foldl (fun _ _ _ => ?_) ?_
    | split
theorem State.startFirkin_keeps {P : List Part} {r : State} (s : State)
    (sub : ∀ p, p ∈ [.firkin] → p ∈ P) (h : r.keepsBut P s) : r.keepsBut P (State.startFirkin s) := by
  unfold State.startFirkin
  try dsimp only
  repeat' first
    | with_reducible exact h
    | (with_reducible refine sub _ ?_); decide
    | (with_reducible refine part_sub sub ?_); decide
    | with_reducible refine State.keeps_upFirkin _ ?_ ?_
    | with_reducible assumption
    | with_reducible refine keeps_ite ?_ ?_
    | with_reducible refine keeps_foldl (fun _ _ _ => ?_) ?_
    | split
theorem State.fastOff_keeps {P : List Part} {r : State} (s : State)
    (sub : ∀ p, p ∈ [.pwr, .port, .reqs, .fc, .tier, .slices, .budget, .media, .map, .care, .yoke, .atom, .keys, .reg, .therm, .bank, .dram, .gills, .dict, .mbox, .obs, .perf, .rstats, .fw, .cmds, .tap] → p ∈ P) (h : r.keepsBut P s) : r.keepsBut P (State.fastOff s) := by
  unfold State.fastOff
  try dsimp only
  repeat' first
    | with_reducible exact h
    | (with_reducible refine sub _ ?_); decide
    | (with_reducible refine part_sub sub ?_); decide
    | with_reducible apply State.clearVolatile_keeps
    | with_reducible apply State.fromCkpt_keeps
    | with_reducible refine State.keeps_upAtom _ ?_ ?_
    | with_reducible refine State.keeps_upBank _ ?_ ?_
    | with_reducible refine State.keeps_upBudget _ ?_ ?_
    | with_reducible refine State.keeps_upCare _ ?_ ?_
    | with_reducible refine State.keeps_upCmds _ ?_ ?_
    | with_reducible refine State.keeps_upDict _ ?_ ?_
    | with_reducible refine State.keeps_upDram _ ?_ ?_
    | with_reducible refine State.keeps_upFc _ ?_ ?_
    | with_reducible refine State.keeps_upGills _ ?_ ?_
    | with_reducible refine State.keeps_upMap _ ?_ ?_
    | with_reducible refine State.keeps_upMbox _ ?_ ?_
    | with_reducible refine State.keeps_upMedia _ ?_ ?_
    | with_reducible refine State.keeps_upObs _ ?_ ?_
    | with_reducible refine State.keeps_upPort _ ?_ ?_
    | with_reducible refine State.keeps_upReg _ ?_ ?_
    | with_reducible refine State.keeps_upReqs _ ?_ ?_
    | with_reducible refine State.keeps_upRstats _ ?_ ?_
    | with_reducible refine State.keeps_upSlices _ ?_ ?_
    | with_reducible refine State.keeps_upTap _ ?_ ?_
    | with_reducible refine State.keeps_upTherm _ ?_ ?_
    | with_reducible refine State.keeps_upTier _ ?_ ?_
    | with_reducible refine State.keeps_upYoke _ ?_ ?_
    | with_reducible assumption
    | with_reducible refine keeps_ite ?_ ?_
    | with_reducible refine keeps_foldl (fun _ _ _ => ?_) ?_
    | split
theorem State.keeperOff_keeps {P : List Part} {r : State} (s : State)
    (sub : ∀ p, p ∈ [.clk, .dict] → p ∈ P) (h : r.keepsBut P s) : r.keepsBut P (State.keeperOff s) := by
  unfold State.keeperOff
  try dsimp only
  repeat' first
    | with_reducible exact h
    | (with_reducible refine sub _ ?_); decide
    | (with_reducible refine part_sub sub ?_); decide
    | with_reducible refine State.keeps_upClk _ ?_ ?_
    | with_reducible refine State.keeps_upDict _ ?_ ?_
    | with_reducible assumption
    | with_reducible refine keeps_ite ?_ ?_
    | with_reducible refine keeps_foldl (fun _ _ _ => ?_) ?_
    | split
theorem State.keeperStart_keeps {P : List Part} {r : State} (s : State)
    (sub : ∀ p, p ∈ [.clk] → p ∈ P) (h : r.keepsBut P s) : r.keepsBut P (State.keeperStart s) := by
  unfold State.keeperStart
  try dsimp only
  repeat' first
    | with_reducible exact h
    | (with_reducible refine sub _ ?_); decide
    | (with_reducible refine part_sub sub ?_); decide
    | with_reducible refine State.keeps_upClk _ ?_ ?_
    | with_reducible assumption
    | with_reducible refine keeps_ite ?_ ?_
    | with_reducible refine keeps_foldl (fun _ _ _ => ?_) ?_
    | split
theorem State.beginVerify_keeps {P : List Part} {r : State} (s : State)
    (sub : ∀ p, p ∈ [.pwr, .fw] → p ∈ P) (h : r.keepsBut P s) : r.keepsBut P (State.beginVerify s) := by
  unfold State.beginVerify
  try dsimp only
  repeat' first
    | with_reducible exact h
    | (with_reducible refine sub _ ?_); decide
    | (with_reducible refine part_sub sub ?_); decide
    | with_reducible refine State.keeps_upFw _ ?_ ?_
    | with_reducible refine State.keeps_upPwr _ ?_ ?_
    | with_reducible assumption
    | with_reducible refine keeps_ite ?_ ?_
    | with_reducible refine keeps_foldl (fun _ _ _ => ?_) ?_
    | split
theorem State.coldReset_keeps {P : List Part} {r : State} (s : State)
    (sub : ∀ p, p ∈ [.pwr, .port, .reqs, .fc, .tier, .slices, .budget, .media, .map, .care, .yoke, .atom, .keys, .reg, .therm, .bank, .dram, .gills, .dict, .mbox, .obs, .perf, .rstats, .fw, .cmds, .tap] → p ∈ P) (h : r.keepsBut P s) : r.keepsBut P (State.coldReset s) := by
  unfold State.coldReset
  try dsimp only
  repeat' first
    | with_reducible exact h
    | (with_reducible refine sub _ ?_); decide
    | (with_reducible refine part_sub sub ?_); decide
    | with_reducible apply State.beginVerify_keeps
    | with_reducible apply State.fastOff_keeps
    | with_reducible refine State.keeps_upKeys _ ?_ ?_
    | with_reducible refine State.keeps_upPwr _ ?_ ?_
    | with_reducible assumption
    | with_reducible refine keeps_ite ?_ ?_
    | with_reducible refine keeps_foldl (fun _ _ _ => ?_) ?_
    | split
theorem State.trainDram_keeps {P : List Part} {r : State} (bad : BitVec 8) (s : State)
    (sub : ∀ p, p ∈ [.pwr, .dram, .obs, .perf] → p ∈ P) (h : r.keepsBut P s) : r.keepsBut P (State.trainDram bad s) := by
  unfold State.trainDram
  try dsimp only
  repeat' first
    | with_reducible exact h
    | (with_reducible refine sub _ ?_); decide
    | (with_reducible refine part_sub sub ?_); decide
    | with_reducible apply State.log_keeps
    | with_reducible apply State.save_keeps
    | with_reducible refine State.keeps_upDram _ ?_ ?_
    | with_reducible refine State.keeps_upPwr _ ?_ ?_
    | with_reducible assumption
    | with_reducible refine keeps_ite ?_ ?_
    | with_reducible refine keeps_foldl (fun _ _ _ => ?_) ?_
    | split
theorem State.applyPowerUp_keeps {P : List Part} {r : State} (s : State)
    (sub : ∀ p, p ∈ [.dict] → p ∈ P) (h : r.keepsBut P s) : r.keepsBut P (State.applyPowerUp s) := by
  unfold State.applyPowerUp
  try dsimp only
  repeat' first
    | with_reducible exact h
    | (with_reducible refine sub _ ?_); decide
    | (with_reducible refine part_sub sub ?_); decide
    | with_reducible refine State.keeps_upDict _ ?_ ?_
    | with_reducible assumption
    | with_reducible refine keeps_ite ?_ ?_
    | with_reducible refine keeps_foldl (fun _ _ _ => ?_) ?_
    | split
theorem State.replayCommit_keeps {P : List Part} {r : State} (s : State)
    (sub : ∀ p, p ∈ [.dict, .obs] → p ∈ P) (h : r.keepsBut P s) : r.keepsBut P (State.replayCommit s) := by
  unfold State.replayCommit
  try dsimp only
  repeat' first
    | with_reducible exact h
    | (with_reducible refine sub _ ?_); decide
    | (with_reducible refine part_sub sub ?_); decide
    | with_reducible apply State.log_keeps
    | with_reducible refine State.keeps_upDict _ ?_ ?_
    | with_reducible assumption
    | with_reducible refine keeps_ite ?_ ?_
    | with_reducible refine keeps_foldl (fun _ _ _ => ?_) ?_
    | split
theorem State.restoreMap_keeps {P : List Part} {r : State} (s : State)
    (sub : ∀ p, p ∈ [.pwr, .media, .map, .yoke, .keys, .obs, .perf, .rstats, .cmds] → p ∈ P) (h : r.keepsBut P s) : r.keepsBut P (State.restoreMap s) := by
  unfold State.restoreMap
  try dsimp only
  repeat' first
    | with_reducible exact h
    | (with_reducible refine sub _ ?_); decide
    | (with_reducible refine part_sub sub ?_); decide
    | with_reducible apply State.boundStart_keeps
    | with_reducible apply State.closeOpen_keeps
    | with_reducible apply State.fromCkpt_keeps
    | with_reducible apply State.mapCold_keeps
    | with_reducible apply State.rebuildMap_keeps
    | with_reducible apply State.replayJournal_keeps
    | with_reducible refine State.keeps_upMap _ ?_ ?_
    | with_reducible refine State.keeps_upPwr _ ?_ ?_
    | with_reducible assumption
    | with_reducible refine keeps_ite ?_ ?_
    | with_reducible refine keeps_foldl (fun _ _ _ => ?_) ?_
    | split
theorem State.noteIncomplete_keeps {P : List Part} {r : State} (i : Option Image) (s : State)
    (sub : ∀ p, p ∈ [.pwr, .budget, .map, .yoke, .keys, .obs, .perf, .dump, .cmds] → p ∈ P) (h : r.keepsBut P s) : r.keepsBut P (State.noteIncomplete i s) := by
  unfold State.noteIncomplete
  try dsimp only
  repeat' first
    | with_reducible exact h
    | (with_reducible refine sub _ ?_); decide
    | (with_reducible refine part_sub sub ?_); decide
    | with_reducible apply State.damaged_keeps
    | with_reducible apply State.markAll_keeps
    | with_reducible refine State.keeps_upBudget _ ?_ ?_
    | with_reducible refine State.keeps_upDump _ ?_ ?_
    | with_reducible refine State.keeps_upPwr _ ?_ ?_
    | with_reducible assumption
    | with_reducible refine keeps_ite ?_ ?_
    | with_reducible refine keeps_foldl (fun _ _ _ => ?_) ?_
    | split
theorem State.restoreImage_keeps {P : List Part} {r : State} (s : State)
    (sub : ∀ p, p ∈ [.pwr, .budget, .media, .map, .yoke, .keys, .obs, .perf, .rstats, .dump, .cmds] → p ∈ P) (h : r.keepsBut P s) : r.keepsBut P (State.restoreImage s) := by
  unfold State.restoreImage
  try dsimp only
  repeat' first
    | with_reducible exact h
    | (with_reducible refine sub _ ?_); decide
    | (with_reducible refine part_sub sub ?_); decide
    | with_reducible apply State.noteIncomplete_keeps
    | with_reducible apply State.restoreMap_keeps
    | with_reducible refine State.keeps_upBudget _ ?_ ?_
    | with_reducible refine State.keeps_upPwr _ ?_ ?_
    | with_reducible assumption
    | with_reducible refine keeps_ite ?_ ?_
    | with_reducible refine keeps_foldl (fun _ _ _ => ?_) ?_
    | split
theorem State.readImages_keeps {P : List Part} {r : State} (bad : List (Nat × Nat)) (s : State)
    (sub : ∀ p, p ∈ [.dump] → p ∈ P) (h : r.keepsBut P s) : r.keepsBut P (State.readImages bad s) := by
  unfold State.readImages
  try dsimp only
  repeat' first
    | with_reducible exact h
    | (with_reducible refine sub _ ?_); decide
    | (with_reducible refine part_sub sub ?_); decide
    | with_reducible refine State.keeps_upDump _ ?_ ?_
    | with_reducible assumption
    | with_reducible refine keeps_ite ?_ ?_
    | with_reducible refine keeps_foldl (fun _ _ _ => ?_) ?_
    | split
theorem State.startFast_keeps {P : List Part} {r : State} (slot : Nat) (trainFail : BitVec 8) (badPages : List (Nat × Nat)) (s : State)
    (sub : ∀ p, p ∈ [.pwr, .fc, .budget, .media, .map, .yoke, .keys, .dram, .gills, .dict, .obs, .perf, .firkin, .rstats, .fw, .dump, .cmds] → p ∈ P) (h : r.keepsBut P s) : r.keepsBut P (State.startFast slot trainFail badPages s) := by
  unfold State.startFast
  try dsimp only
  repeat' first
    | with_reducible exact h
    | (with_reducible refine sub _ ?_); decide
    | (with_reducible refine part_sub sub ?_); decide
    | with_reducible apply State.applyPowerUp_keeps
    | with_reducible apply State.boundStart_keeps
    | with_reducible apply State.measure_keeps
    | with_reducible apply State.readImages_keeps
    | with_reducible apply State.replayCommit_keeps
    | with_reducible apply State.restartMember_keeps
    | with_reducible apply State.restoreImage_keeps
    | with_reducible apply State.resumeGen_keeps
    | with_reducible apply State.startFirkin_keeps
    | with_reducible apply State.startGills_keeps
    | with_reducible apply State.startPail_keeps
    | with_reducible apply State.trainDram_keeps
    | with_reducible refine State.keeps_upFc _ ?_ ?_
    | with_reducible refine State.keeps_upFw _ ?_ ?_
    | with_reducible refine State.keeps_upKeys _ ?_ ?_
    | with_reducible refine State.keeps_upPwr _ ?_ ?_
    | with_reducible assumption
    | with_reducible refine keeps_ite ?_ ?_
    | with_reducible refine keeps_foldl (fun _ _ _ => ?_) ?_
    | split
theorem State.stopForDump_keeps {P : List Part} {r : State} (s : State)
    (sub : ∀ p, p ∈ [.pwr, .port, .reqs, .fc, .tier, .slices, .budget, .media, .map, .care, .yoke, .atom, .keys, .reg, .mbox, .obs, .perf, .cmds] → p ∈ P) (h : r.keepsBut P s) : r.keepsBut P (State.stopForDump s) := by
  unfold State.stopForDump
  try dsimp only
  repeat' first
    | with_reducible exact h
    | (with_reducible refine sub _ ?_); decide
    | (with_reducible refine part_sub sub ?_); decide
    | with_reducible apply State.abandonPrograms_keeps
    | with_reducible apply State.clearAtomics_keeps
    | with_reducible apply State.dropMisses_keeps
    | with_reducible apply State.dropRequests_keeps
    | with_reducible apply State.linkDown_keeps
    | with_reducible apply State.standDown_keeps
    | with_reducible refine State.keeps_upPwr _ ?_ ?_
    | with_reducible refine State.keeps_upYoke _ ?_ ?_
    | with_reducible assumption
    | with_reducible refine keeps_ite ?_ ?_
    | with_reducible refine keeps_foldl (fun _ _ _ => ?_) ?_
    | split
theorem State.startDump_keeps {P : List Part} {r : State} (onMain : Bool) (s : State)
    (sub : ∀ p, p ∈ [.pwr, .port, .reqs, .fc, .tier, .slices, .budget, .media, .map, .care, .yoke, .atom, .keys, .reg, .mbox, .obs, .perf, .dump, .cmds] → p ∈ P) (h : r.keepsBut P s) : r.keepsBut P (State.startDump onMain s) := by
  unfold State.startDump
  try dsimp only
  repeat' first
    | with_reducible exact h
    | (with_reducible refine sub _ ?_); decide
    | (with_reducible refine part_sub sub ?_); decide
    | with_reducible apply State.stopForDump_keeps
    | with_reducible refine State.keeps_upBudget _ ?_ ?_
    | with_reducible refine State.keeps_upDump _ ?_ ?_
    | with_reducible refine State.keeps_upPwr _ ?_ ?_
    | with_reducible assumption
    | with_reducible refine keeps_ite ?_ ?_
    | with_reducible refine keeps_foldl (fun _ _ _ => ?_) ?_
    | split
theorem State.cleanStop_keeps {P : List Part} {r : State} (s : State)
    (sub : ∀ p, p ∈ [.pwr, .port, .reqs, .fc, .tier, .slices, .budget, .media, .map, .care, .yoke, .atom, .keys, .reg, .therm, .bank, .dram, .gills, .dict, .mbox, .obs, .perf, .firkin, .rstats, .fw, .cmds, .tap] → p ∈ P) (h : r.keepsBut P s) : r.keepsBut P (State.cleanStop s) := by
  unfold State.cleanStop
  try dsimp only
  repeat' first
    | with_reducible exact h
    | (with_reducible refine sub _ ?_); decide
    | (with_reducible refine part_sub sub ?_); decide
    | with_reducible apply State.fastOff_keeps
    | with_reducible apply State.stopFirkin_keeps
    | with_reducible apply State.stopForDump_keeps
    | with_reducible refine State.keeps_upPwr _ ?_ ?_
    | with_reducible assumption
    | with_reducible refine keeps_ite ?_ ?_
    | with_reducible refine keeps_foldl (fun _ _ _ => ?_) ?_
    | split
theorem State.testEnd_keeps {P : List Part} {r : State} (s : State)
    (sub : ∀ p, p ∈ [.pwr, .port, .reqs, .fc, .tier, .slices, .budget, .media, .map, .care, .yoke, .atom, .keys, .reg, .therm, .bank, .dram, .gills, .dict, .mbox, .obs, .perf, .firkin, .rstats, .fw, .dump, .cmds, .tap] → p ∈ P) (h : r.keepsBut P s) : r.keepsBut P (State.testEnd s) := by
  unfold State.testEnd
  try dsimp only
  repeat' first
    | with_reducible exact h
    | (with_reducible refine sub _ ?_); decide
    | (with_reducible refine part_sub sub ?_); decide
    | with_reducible apply State.fastOff_keeps
    | with_reducible apply State.startFast_keeps
    | with_reducible apply State.stopFirkin_keeps
    | with_reducible apply State.stopForDump_keeps
    | with_reducible refine State.keeps_upKeys _ ?_ ?_
    | with_reducible refine State.keeps_upPwr _ ?_ ?_
    | with_reducible assumption
    | with_reducible refine keeps_ite ?_ ?_
    | with_reducible refine keeps_foldl (fun _ _ _ => ?_) ?_
    | split
theorem State.losePower_keeps {P : List Part} {r : State} (s : State)
    (sub : ∀ p, p ∈ [.clk, .pwr, .port, .reqs, .fc, .tier, .slices, .budget, .media, .map, .care, .yoke, .atom, .keys, .reg, .therm, .bank, .dram, .gills, .dict, .mbox, .obs, .perf, .firkin, .rstats, .fw, .dump, .cmds, .tap] → p ∈ P) (h : r.keepsBut P s) : r.keepsBut P (State.losePower s) := by
  unfold State.losePower
  try dsimp only
  repeat' first
    | with_reducible exact h
    | (with_reducible refine sub _ ?_); decide
    | (with_reducible refine part_sub sub ?_); decide
    | with_reducible apply State.cleanStop_keeps
    | with_reducible apply State.keeperOff_keeps
    | with_reducible apply State.startDump_keeps
    | with_reducible refine State.keeps_upDump _ ?_ ?_
    | with_reducible refine State.keeps_upPwr _ ?_ ?_
    | with_reducible assumption
    | with_reducible refine keeps_ite ?_ ?_
    | with_reducible refine keeps_foldl (fun _ _ _ => ?_) ?_
    | split
theorem State.storeImage_keeps {P : List Part} {r : State} (i : Image) (s : State)
    (sub : ∀ p, p ∈ [.dump] → p ∈ P) (h : r.keepsBut P s) : r.keepsBut P (State.storeImage i s) := by
  unfold State.storeImage
  try dsimp only
  repeat' first
    | with_reducible exact h
    | (with_reducible refine sub _ ?_); decide
    | (with_reducible refine part_sub sub ?_); decide
    | with_reducible refine State.keeps_upDump _ ?_ ?_
    | with_reducible assumption
    | with_reducible refine keeps_ite ?_ ?_
    | with_reducible refine keeps_foldl (fun _ _ _ => ?_) ?_
    | split
theorem State.afterDump_keeps {P : List Part} {r : State} (s : State)
    (sub : ∀ p, p ∈ [.pwr, .port, .reqs, .fc, .tier, .slices, .budget, .media, .map, .care, .yoke, .atom, .keys, .reg, .therm, .bank, .dram, .gills, .dict, .mbox, .obs, .perf, .rstats, .fw, .cmds, .tap] → p ∈ P) (h : r.keepsBut P s) : r.keepsBut P (State.afterDump s) := by
  unfold State.afterDump
  try dsimp only
  repeat' first
    | with_reducible exact h
    | (with_reducible refine sub _ ?_); decide
    | (with_reducible refine part_sub sub ?_); decide
    | with_reducible apply State.coldReset_keeps
    | with_reducible apply State.fastOff_keeps
    | with_reducible refine State.keeps_upPwr _ ?_ ?_
    | with_reducible assumption
    | with_reducible refine keeps_ite ?_ ?_
    | with_reducible refine keeps_foldl (fun _ _ _ => ?_) ?_
    | split

end Sys2Proof.Machine
end

