-- ==== Sys2Proof/Laws/KeepsPowerReset.lean ====
section
/-!
SUPPORT. What each operation of Machine/PowerReset.lean leaves unchanged: the groups of the state it may write, the others kept.
-/
namespace Sys2Proof.Machine

theorem State.dropCounter_keeps {P : List Part} {r : State} (k : Nat) (s : State)
    (sub : ∀ p, p ∈ [.budget, .care, .keys, .dump] → p ∈ P) (h : r.keepsBut P s) : r.keepsBut P (State.dropCounter k s) := by
  unfold State.dropCounter
  try dsimp only
  repeat' first
    | with_reducible exact h
    | (with_reducible refine sub _ ?_); decide
    | (with_reducible refine part_sub sub ?_); decide
    | with_reducible refine State.keeps_upBudget _ ?_ ?_
    | with_reducible refine State.keeps_upCare _ ?_ ?_
    | with_reducible refine State.keeps_upDump _ ?_ ?_
    | with_reducible refine State.keeps_upKeys _ ?_ ?_
    | with_reducible assumption
    | with_reducible refine keeps_ite ?_ ?_
    | with_reducible refine keeps_foldl (fun _ _ _ => ?_) ?_
    | split
theorem State.rebuildFirkin_keeps {P : List Part} {r : State} (s : State)
    (sub : ∀ p, p ∈ [.firkin] → p ∈ P) (h : r.keepsBut P s) : r.keepsBut P (State.rebuildFirkin s) := by
  unfold State.rebuildFirkin
  try dsimp only
  repeat' first
    | with_reducible exact h
    | (with_reducible refine sub _ ?_); decide
    | (with_reducible refine part_sub sub ?_); decide
    | with_reducible refine State.keeps_upFirkin _ ?_ ?_
    | with_reducible assumption
    | with_reducible refine keeps_ite ?_ ?_
    | with_reducible refine keeps_foldl (fun _ _ _ => ?_) ?_
    | split
theorem State.fallback_keeps {P : List Part} {r : State} (l : TwinLoss) (s : State)
    (sub : ∀ p, p ∈ [.pwr, .budget, .media, .care, .yoke, .keys, .tabs, .dict, .firkin, .fw, .dump] → p ∈ P) (h : r.keepsBut P s) : r.keepsBut P (State.fallback l s) := by
  unfold State.fallback
  try dsimp only
  repeat' first
    | with_reducible exact h
    | (with_reducible refine sub _ ?_); decide
    | (with_reducible refine part_sub sub ?_); decide
    | with_reducible apply State.dropCounter_keeps
    | with_reducible refine State.keeps_upCare _ ?_ ?_
    | with_reducible refine State.keeps_upDict _ ?_ ?_
    | with_reducible refine State.keeps_upFirkin _ ?_ ?_
    | with_reducible refine State.keeps_upFw _ ?_ ?_
    | with_reducible refine State.keeps_upKeys _ ?_ ?_
    | with_reducible refine State.keeps_upMedia _ ?_ ?_
    | with_reducible refine State.keeps_upPwr _ ?_ ?_
    | with_reducible refine State.keeps_upTabs _ ?_ ?_
    | with_reducible refine State.keeps_upYoke _ ?_ ?_
    | with_reducible assumption
    | with_reducible refine keeps_ite ?_ ?_
    | with_reducible refine keeps_foldl (fun _ _ _ => ?_) ?_
    | split
theorem State.loseTwin_keeps {P : List Part} {r : State} (l : TwinLoss) (s : State)
    (sub : ∀ p, p ∈ [.pwr, .budget, .media, .care, .yoke, .keys, .tabs, .dict, .obs, .perf, .firkin, .fw, .dump] → p ∈ P) (h : r.keepsBut P s) : r.keepsBut P (State.loseTwin l s) := by
  unfold State.loseTwin
  try dsimp only
  repeat' first
    | with_reducible exact h
    | (with_reducible refine sub _ ?_); decide
    | (with_reducible refine part_sub sub ?_); decide
    | with_reducible apply State.count_keeps
    | with_reducible apply State.fallback_keeps
    | with_reducible apply State.log_keeps
    | with_reducible apply State.rebuildFirkin_keeps
    | with_reducible assumption
    | with_reducible refine keeps_ite ?_ ?_
    | with_reducible refine keeps_foldl (fun _ _ _ => ?_) ?_
    | split
theorem State.noteMain_keeps {P : List Part} {r : State} (had : Bool) (s : State)
    (sub : ∀ p, p ∈ [.pwr] → p ∈ P) (h : r.keepsBut P s) : r.keepsBut P (State.noteMain had s) := by
  unfold State.noteMain
  try dsimp only
  repeat' first
    | with_reducible exact h
    | (with_reducible refine sub _ ?_); decide
    | (with_reducible refine part_sub sub ?_); decide
    | with_reducible refine State.keeps_upPwr _ ?_ ?_
    | with_reducible assumption
    | with_reducible refine keeps_ite ?_ ?_
    | with_reducible refine keeps_foldl (fun _ _ _ => ?_) ?_
    | split
theorem execPowerUp_keeps {P : List Part} {r : State} (main : Bool) (aux : Bool) (lost : List TwinLoss) (s : State)
    (sub : ∀ p, p ∈ Part.most → p ∈ P) (h : r.keepsBut P s) : Answers r P (execPowerUp main aux lost s) := by
  unfold execPowerUp
  try dsimp only
  repeat' first
    | with_reducible exact h
    | (with_reducible refine sub _ ?_); decide
    | (with_reducible refine part_sub sub ?_); decide
    | with_reducible apply State.coldReset_keeps
    | with_reducible apply State.keeperStart_keeps
    | with_reducible apply State.loseTwin_keeps
    | with_reducible apply State.noteMain_keeps
    | with_reducible refine State.keeps_upPwr _ ?_ ?_
    | with_reducible assumption
    | with_reducible refine keeps_ite ?_ ?_
    | with_reducible refine keeps_foldl (fun _ _ _ => ?_) ?_
    | with_reducible refine answers_next ?_
    | split
theorem execFirmwareVerifyDone_keeps {P : List Part} {r : State} (v : FwVerdict) (trainFail : BitVec 8) (badPages : List (Nat × Nat)) (s : State)
    (sub : ∀ p, p ∈ [.pwr, .fc, .budget, .media, .map, .yoke, .keys, .dram, .gills, .dict, .obs, .perf, .firkin, .rstats, .fw, .dump, .cmds] → p ∈ P) (h : r.keepsBut P s) : Answers r P (execFirmwareVerifyDone v trainFail badPages s) := by
  unfold execFirmwareVerifyDone
  try dsimp only
  repeat' first
    | with_reducible exact h
    | (with_reducible refine sub _ ?_); decide
    | (with_reducible refine part_sub sub ?_); decide
    | with_reducible apply State.log_keeps
    | with_reducible apply State.startFast_keeps
    | with_reducible refine State.keeps_upPwr _ ?_ ?_
    | with_reducible assumption
    | with_reducible refine keeps_ite ?_ ?_
    | with_reducible refine keeps_foldl (fun _ _ _ => ?_) ?_
    | with_reducible refine answers_next ?_
    | split
theorem State.placeRec_keeps {P : List Part} {r : State} (bad : List Nat) (line : Nat) (x2 : DRec) (s : State)
    (sub : ∀ p, p ∈ [.pwr, .reqs, .fc, .tier, .slices, .budget, .media, .map, .reg, .obs, .perf, .rstats, .cmds] → p ∈ P) (h : r.keepsBut P s) : r.keepsBut P (State.placeRec bad line x2 s) := by
  unfold State.placeRec
  try dsimp only
  repeat' first
    | with_reducible exact h
    | (with_reducible refine sub _ ?_); decide
    | (with_reducible refine part_sub sub ?_); decide
    | with_reducible apply State.fcAlloc_keeps
    | with_reducible apply State.log_keeps
    | with_reducible apply State.poison_keeps
    | with_reducible apply State.startBase_keeps
    | with_reducible apply State.tierWrite_keeps
    | with_reducible refine State.keeps_upBudget _ ?_ ?_
    | with_reducible assumption
    | with_reducible refine keeps_ite ?_ ?_
    | with_reducible refine keeps_foldl (fun _ _ _ => ?_) ?_
    | with_reducible exact keepsO_get (by assumption)
    | with_reducible refine keepsO_map (fun _ _ => ?_) ?_
    | with_reducible refine keepsO_foldl (fun _ _ _ => ?_) ?_
    | exact keepsO_none
    | with_reducible refine keepsO_some ?_
    | with_reducible refine keepsP_ite ?_ ?_
    | with_reducible refine keepsP_foldl (fun _ _ _ => ?_) ?_
    | split
    | with_reducible refine KeepsP.snd ?_
    | with_reducible refine keepsP_mk ?_
    | with_reducible refine KeepsP.out (by assumption) ?_
    | with_reducible refine KeepsO.out (by assumption) ?_
theorem execDumpReplayDone_keeps {P : List Part} {r : State} (badLines : List Nat) (s : State)
    (sub : ∀ p, p ∈ [.pwr, .reqs, .fc, .tier, .slices, .budget, .media, .map, .reg, .obs, .perf, .rstats, .cmds] → p ∈ P) (h : r.keepsBut P s) : Answers r P (execDumpReplayDone badLines s) := by
  unfold execDumpReplayDone
  try dsimp only
  repeat' first
    | with_reducible exact h
    | (with_reducible refine sub _ ?_); decide
    | (with_reducible refine part_sub sub ?_); decide
    | with_reducible apply State.placeRec_keeps
    | with_reducible refine State.keeps_upPwr _ ?_ ?_
    | with_reducible assumption
    | with_reducible refine keeps_ite ?_ ?_
    | with_reducible refine keeps_foldl (fun _ _ _ => ?_) ?_
    | with_reducible refine answers_next ?_
    | split
theorem execImageRetire_keeps {P : List Part} {r : State} (s : State)
    (sub : ∀ p, p ∈ [.pwr, .dump] → p ∈ P) (h : r.keepsBut P s) : Answers r P (execImageRetire s) := by
  unfold execImageRetire
  try dsimp only
  repeat' first
    | with_reducible exact h
    | (with_reducible refine sub _ ?_); decide
    | (with_reducible refine part_sub sub ?_); decide
    | with_reducible refine State.keeps_upDump _ ?_ ?_
    | with_reducible refine State.keeps_upPwr _ ?_ ?_
    | with_reducible assumption
    | with_reducible refine keeps_ite ?_ ?_
    | with_reducible refine keeps_foldl (fun _ _ _ => ?_) ?_
    | with_reducible refine answers_next ?_
    | split
theorem State.moveSlot_keeps {P : List Part} {r : State} (g : Nat) (s : State)
    (sub : ∀ p, p ∈ [.pwr, .media, .map, .care, .yoke, .obs, .perf, .dump, .cmds] → p ∈ P) (h : r.keepsBut P s) : r.keepsBut P (State.moveSlot g s) := by
  unfold State.moveSlot
  try dsimp only
  repeat' first
    | with_reducible exact h
    | (with_reducible refine sub _ ?_); decide
    | (with_reducible refine part_sub sub ?_); decide
    | with_reducible apply State.freeChanged_keeps
    | with_reducible apply State.journal_keeps
    | with_reducible apply State.noteWear_keeps
    | with_reducible refine State.keeps_upDump _ ?_ ?_
    | with_reducible refine State.keeps_upMedia _ ?_ ?_
    | with_reducible assumption
    | with_reducible refine keeps_ite ?_ ?_
    | with_reducible refine keeps_foldl (fun _ _ _ => ?_) ?_
    | split
theorem execRetiredImageReset_keeps {P : List Part} {r : State} (number : Nat) (s : State)
    (sub : ∀ p, p ∈ [.pwr, .media, .map, .care, .yoke, .keys, .obs, .perf, .dump, .cmds] → p ∈ P) (h : r.keepsBut P s) : Answers r P (execRetiredImageReset number s) := by
  unfold execRetiredImageReset
  try dsimp only
  repeat' first
    | with_reducible exact h
    | (with_reducible refine sub _ ?_); decide
    | (with_reducible refine part_sub sub ?_); decide
    | with_reducible apply State.armCheck_keeps
    | with_reducible apply State.moveSlot_keeps
    | with_reducible refine State.keeps_upDump _ ?_ ?_
    | with_reducible refine State.keeps_upKeys _ ?_ ?_
    | with_reducible refine State.keeps_upMedia _ ?_ ?_
    | with_reducible assumption
    | with_reducible refine keeps_ite ?_ ?_
    | with_reducible refine keeps_foldl (fun _ _ _ => ?_) ?_
    | with_reducible refine answers_next ?_
    | split
theorem State.advanceSecurity_keeps {P : List Part} {r : State} (s : State)
    (sub : ∀ p, p ∈ [.keys, .obs, .perf, .fw] → p ∈ P) (h : r.keepsBut P s) : r.keepsBut P (State.advanceSecurity s) := by
  unfold State.advanceSecurity
  try dsimp only
  repeat' first
    | with_reducible exact h
    | (with_reducible refine sub _ ?_); decide
    | (with_reducible refine part_sub sub ?_); decide
    | with_reducible apply State.log_keeps
    | with_reducible apply State.measure_keeps
    | with_reducible apply State.save_keeps
    | with_reducible refine State.keeps_upFw _ ?_ ?_
    | with_reducible assumption
    | with_reducible refine keeps_ite ?_ ?_
    | with_reducible refine keeps_foldl (fun _ _ _ => ?_) ?_
    | split
theorem execMemoryActiveSet_keeps {P : List Part} {r : State} (s : State)
    (sub : ∀ p, p ∈ [.pwr, .keys, .obs, .perf, .fw] → p ∈ P) (h : r.keepsBut P s) : Answers r P (execMemoryActiveSet s) := by
  unfold execMemoryActiveSet
  try dsimp only
  repeat' first
    | with_reducible exact h
    | (with_reducible refine sub _ ?_); decide
    | (with_reducible refine part_sub sub ?_); decide
    | with_reducible apply State.advanceSecurity_keeps
    | with_reducible apply State.log_keeps
    | with_reducible refine State.keeps_upPwr _ ?_ ?_
    | with_reducible assumption
    | with_reducible refine keeps_ite ?_ ?_
    | with_reducible refine keeps_foldl (fun _ _ _ => ?_) ?_
    | with_reducible refine answers_next ?_
    | split
theorem execPowerLossConfirmed_keeps {P : List Part} {r : State} (s : State)
    (sub : ∀ p, p ∈ [.clk, .pwr, .port, .reqs, .fc, .tier, .slices, .budget, .media, .map, .care, .yoke, .atom, .keys, .reg, .therm, .bank, .dram, .gills, .dict, .mbox, .obs, .perf, .firkin, .rstats, .fw, .dump, .cmds, .tap] → p ∈ P) (h : r.keepsBut P s) : Answers r P (execPowerLossConfirmed s) := by
  unfold execPowerLossConfirmed
  try dsimp only
  repeat' first
    | with_reducible exact h
    | (with_reducible refine sub _ ?_); decide
    | (with_reducible refine part_sub sub ?_); decide
    | with_reducible apply State.losePower_keeps
    | with_reducible refine State.keeps_upPwr _ ?_ ?_
    | with_reducible assumption
    | with_reducible refine keeps_ite ?_ ?_
    | with_reducible refine keeps_foldl (fun _ _ _ => ?_) ?_
    | with_reducible refine answers_next ?_
    | split
theorem execOvervoltageTrip_keeps {P : List Part} {r : State} (s : State)
    (sub : ∀ p, p ∈ [.clk, .pwr, .port, .reqs, .fc, .tier, .slices, .budget, .media, .map, .care, .yoke, .atom, .keys, .reg, .therm, .bank, .dram, .gills, .dict, .mbox, .obs, .perf, .firkin, .rstats, .fw, .dump, .cmds, .tap] → p ∈ P) (h : r.keepsBut P s) : Answers r P (execOvervoltageTrip s) := by
  unfold execOvervoltageTrip
  try dsimp only
  repeat' first
    | with_reducible exact h
    | (with_reducible refine sub _ ?_); decide
    | (with_reducible refine part_sub sub ?_); decide
    | with_reducible apply State.losePower_keeps
    | with_reducible refine State.keeps_upPwr _ ?_ ?_
    | with_reducible assumption
    | with_reducible refine keeps_ite ?_ ?_
    | with_reducible refine keeps_foldl (fun _ _ _ => ?_) ?_
    | with_reducible refine answers_next ?_
    | split
theorem execPwrdisAssert_keeps {P : List Part} {r : State} (s : State)
    (sub : ∀ p, p ∈ [.clk, .pwr, .port, .reqs, .fc, .tier, .slices, .budget, .media, .map, .care, .yoke, .atom, .keys, .reg, .therm, .bank, .dram, .gills, .dict, .mbox, .obs, .perf, .firkin, .rstats, .fw, .dump, .cmds, .tap] → p ∈ P) (h : r.keepsBut P s) : Answers r P (execPwrdisAssert s) := by
  unfold execPwrdisAssert
  try dsimp only
  repeat' first
    | with_reducible exact h
    | (with_reducible refine sub _ ?_); decide
    | (with_reducible refine part_sub sub ?_); decide
    | with_reducible apply State.losePower_keeps
    | with_reducible refine State.keeps_upPwr _ ?_ ?_
    | with_reducible assumption
    | with_reducible refine keeps_ite ?_ ?_
    | with_reducible refine keeps_foldl (fun _ _ _ => ?_) ?_
    | with_reducible refine answers_next ?_
    | split
theorem execPwrdisDeassert_keeps {P : List Part} {r : State} (s : State)
    (sub : ∀ p, p ∈ [.clk, .pwr, .port, .reqs, .fc, .tier, .slices, .budget, .media, .map, .care, .yoke, .atom, .keys, .reg, .therm, .bank, .dram, .gills, .dict, .mbox, .obs, .perf, .rstats, .fw, .cmds, .tap] → p ∈ P) (h : r.keepsBut P s) : Answers r P (execPwrdisDeassert s) := by
  unfold execPwrdisDeassert
  try dsimp only
  repeat' first
    | with_reducible exact h
    | (with_reducible refine sub _ ?_); decide
    | (with_reducible refine part_sub sub ?_); decide
    | with_reducible apply State.coldReset_keeps
    | with_reducible apply State.keeperStart_keeps
    | with_reducible apply State.noteMain_keeps
    | with_reducible refine State.keeps_upPwr _ ?_ ?_
    | with_reducible assumption
    | with_reducible refine keeps_ite ?_ ?_
    | with_reducible refine keeps_foldl (fun _ _ _ => ?_) ?_
    | with_reducible refine answers_next ?_
    | split
theorem State.startOneBit_keeps {P : List Part} {r : State} (i : Image) (s : State)
    (sub : ∀ p, p ∈ [.media] → p ∈ P) (h : r.keepsBut P s) : r.keepsBut P (State.startOneBit i s) := by
  unfold State.startOneBit
  try dsimp only
  repeat' first
    | with_reducible exact h
    | (with_reducible refine sub _ ?_); decide
    | (with_reducible refine part_sub sub ?_); decide
    | with_reducible refine State.keeps_upMedia _ ?_ ?_
    | with_reducible assumption
    | with_reducible refine keeps_ite ?_ ?_
    | with_reducible refine keeps_foldl (fun _ _ _ => ?_) ?_
    | split
theorem execDumpWindowsEnded_keeps {P : List Part} {r : State} (fcBad : List Nat) (dramBad : List Nat) (s : State)
    (sub : ∀ p, p ∈ [.media, .obs, .perf, .firkin, .dump] → p ∈ P) (h : r.keepsBut P s) : Answers r P (execDumpWindowsEnded fcBad dramBad s) := by
  unfold execDumpWindowsEnded
  try dsimp only
  repeat' first
    | with_reducible exact h
    | (with_reducible refine sub _ ?_); decide
    | (with_reducible refine part_sub sub ?_); decide
    | with_reducible apply State.save_keeps
    | with_reducible apply State.startOneBit_keeps
    | with_reducible apply State.stopFirkin_keeps
    | with_reducible apply State.takeGens_keeps
    | with_reducible refine State.keeps_upDump _ ?_ ?_
    | with_reducible assumption
    | with_reducible refine keeps_ite ?_ ?_
    | with_reducible refine keeps_foldl (fun _ _ _ => ?_) ?_
    | with_reducible refine keepsP_ite ?_ ?_
    | with_reducible refine keepsP_foldl (fun _ _ _ => ?_) ?_
    | with_reducible refine answers_next ?_
    | split
    | with_reducible refine KeepsP.snd ?_
    | with_reducible refine keepsP_mk ?_
    | with_reducible refine KeepsP.out (by assumption) ?_
theorem execDumpSealed_keeps {P : List Part} {r : State} (s : State)
    (sub : ∀ p, p ∈ [.clk, .pwr, .port, .reqs, .fc, .tier, .slices, .budget, .media, .map, .care, .yoke, .atom, .keys, .reg, .therm, .bank, .dram, .gills, .dict, .mbox, .obs, .perf, .rstats, .fw, .dump, .cmds, .tap] → p ∈ P) (h : r.keepsBut P s) : Answers r P (execDumpSealed s) := by
  unfold execDumpSealed
  try dsimp only
  repeat' first
    | with_reducible exact h
    | (with_reducible refine sub _ ?_); decide
    | (with_reducible refine part_sub sub ?_); decide
    | with_reducible apply State.afterDump_keeps
    | with_reducible apply State.draw_keeps
    | with_reducible apply State.storeImage_keeps
    | with_reducible refine State.keeps_upBudget _ ?_ ?_
    | with_reducible assumption
    | with_reducible refine keeps_ite ?_ ?_
    | with_reducible refine keeps_foldl (fun _ _ _ => ?_) ?_
    | with_reducible refine keepsP_ite ?_ ?_
    | with_reducible refine keepsP_foldl (fun _ _ _ => ?_) ?_
    | with_reducible refine answers_next ?_
    | split
    | with_reducible refine KeepsP.snd ?_
    | with_reducible refine keepsP_mk ?_
    | with_reducible refine KeepsP.out (by assumption) ?_
theorem execBankExhausted_keeps {P : List Part} {r : State} (s : State)
    (sub : ∀ p, p ∈ [.clk, .pwr, .port, .reqs, .fc, .tier, .slices, .budget, .media, .map, .care, .yoke, .atom, .keys, .reg, .therm, .bank, .dram, .gills, .dict, .mbox, .obs, .perf, .rstats, .fw, .dump, .cmds, .tap] → p ∈ P) (h : r.keepsBut P s) : Answers r P (execBankExhausted s) := by
  unfold execBankExhausted
  try dsimp only
  repeat' first
    | with_reducible exact h
    | (with_reducible refine sub _ ?_); decide
    | (with_reducible refine part_sub sub ?_); decide
    | with_reducible apply State.afterDump_keeps
    | with_reducible apply State.draw_keeps
    | with_reducible apply State.keeperOff_keeps
    | with_reducible apply State.storeImage_keeps
    | with_reducible refine State.keeps_upBudget _ ?_ ?_
    | with_reducible refine State.keeps_upPwr _ ?_ ?_
    | with_reducible assumption
    | with_reducible refine keeps_ite ?_ ?_
    | with_reducible refine keeps_foldl (fun _ _ _ => ?_) ?_
    | with_reducible refine keepsP_ite ?_ ?_
    | with_reducible refine keepsP_foldl (fun _ _ _ => ?_) ?_
    | with_reducible refine answers_next ?_
    | split
    | with_reducible refine KeepsP.snd ?_
    | with_reducible refine keepsP_mk ?_
    | with_reducible refine KeepsP.out (by assumption) ?_
theorem execMainReturnDuringDump_keeps {P : List Part} {r : State} (s : State)
    (sub : ∀ p, p ∈ [.pwr] → p ∈ P) (h : r.keepsBut P s) : Answers r P (execMainReturnDuringDump s) := by
  unfold execMainReturnDuringDump
  try dsimp only
  repeat' first
    | with_reducible exact h
    | (with_reducible refine sub _ ?_); decide
    | (with_reducible refine part_sub sub ?_); decide
    | with_reducible apply State.noteMain_keeps
    | with_reducible refine State.keeps_upPwr _ ?_ ?_
    | with_reducible assumption
    | with_reducible refine keeps_ite ?_ ?_
    | with_reducible refine keeps_foldl (fun _ _ _ => ?_) ?_
    | with_reducible refine answers_next ?_
    | split
theorem State.perstCold_keeps {P : List Part} {r : State} (s : State)
    (sub : ∀ p, p ∈ [.clk, .pwr, .port, .reqs, .fc, .tier, .slices, .budget, .media, .map, .care, .yoke, .atom, .keys, .reg, .therm, .bank, .dram, .gills, .dict, .mbox, .obs, .perf, .firkin, .rstats, .fw, .dump, .cmds, .tap] → p ∈ P) (h : r.keepsBut P s) : r.keepsBut P (State.perstCold s) := by
  unfold State.perstCold
  try dsimp only
  repeat' first
    | with_reducible exact h
    | (with_reducible refine sub _ ?_); decide
    | (with_reducible refine part_sub sub ?_); decide
    | with_reducible apply State.cleanStop_keeps
    | with_reducible apply State.coldReset_keeps
    | with_reducible apply State.keeperOff_keeps
    | with_reducible apply State.startDump_keeps
    | with_reducible apply State.testEnd_keeps
    | with_reducible refine State.keeps_upPwr _ ?_ ?_
    | with_reducible assumption
    | with_reducible refine keeps_ite ?_ ?_
    | with_reducible refine keeps_foldl (fun _ _ _ => ?_) ?_
    | split
theorem State.linkReset_keeps {P : List Part} {r : State} (s : State)
    (sub : ∀ p, p ∈ [.pwr, .port, .reqs, .fc, .tier, .slices, .budget, .media, .map, .care, .yoke, .atom, .keys, .reg, .dict, .mbox, .obs, .perf, .rstats, .cmds] → p ∈ P) (h : r.keepsBut P s) : r.keepsBut P (State.linkReset s) := by
  unfold State.linkReset
  try dsimp only
  repeat' first
    | with_reducible exact h
    | (with_reducible refine sub _ ?_); decide
    | (with_reducible refine part_sub sub ?_); decide
    | with_reducible apply State.linkDown_keeps
    | with_reducible apply State.warmReset_keeps
    | with_reducible assumption
    | with_reducible refine keeps_ite ?_ ?_
    | with_reducible refine keeps_foldl (fun _ _ _ => ?_) ?_
    | split
theorem execWarmReset_keeps {P : List Part} {r : State} (perst : Bool) (s : State)
    (sub : ∀ p, p ∈ [.clk, .pwr, .port, .reqs, .fc, .tier, .slices, .budget, .media, .map, .care, .yoke, .atom, .keys, .reg, .therm, .bank, .dram, .gills, .dict, .mbox, .obs, .perf, .firkin, .rstats, .fw, .dump, .cmds, .tap] → p ∈ P) (h : r.keepsBut P s) : Answers r P (execWarmReset perst s) := by
  unfold execWarmReset
  try dsimp only
  repeat' first
    | with_reducible exact h
    | (with_reducible refine sub _ ?_); decide
    | (with_reducible refine part_sub sub ?_); decide
    | with_reducible apply State.linkReset_keeps
    | with_reducible apply State.perstCold_keeps
    | with_reducible refine State.keeps_upPwr _ ?_ ?_
    | with_reducible assumption
    | with_reducible refine keeps_ite ?_ ?_
    | with_reducible refine keeps_foldl (fun _ _ _ => ?_) ?_
    | with_reducible refine answers_next ?_
    | split
theorem execFunctionLevelReset_keeps {P : List Part} {r : State} (s : State)
    (sub : ∀ p, p ∈ [.mbox, .obs] → p ∈ P) (h : r.keepsBut P s) : Answers r P (execFunctionLevelReset s) := by
  unfold execFunctionLevelReset
  try dsimp only
  repeat' first
    | with_reducible exact h
    | (with_reducible refine sub _ ?_); decide
    | (with_reducible refine part_sub sub ?_); decide
    | with_reducible refine State.keeps_upMbox _ ?_ ?_
    | with_reducible refine State.keeps_upObs _ ?_ ?_
    | with_reducible assumption
    | with_reducible refine keeps_ite ?_ ?_
    | with_reducible refine keeps_foldl (fun _ _ _ => ?_) ?_
    | with_reducible refine answers_next ?_
    | split
theorem execResetErrorDetected_keeps {P : List Part} {r : State} (source : Nat) (fcBad : List Nat) (swept : List (Nat × CacheFault)) (s : State)
    (sub : ∀ p, p ∈ [.pwr, .port, .reqs, .fc, .tier, .slices, .budget, .media, .map, .care, .yoke, .atom, .keys, .reg, .dram, .gills, .dict, .mbox, .obs, .perf, .rstats, .fw, .cmds] → p ∈ P) (h : r.keepsBut P s) : Answers r P (execResetErrorDetected source fcBad swept s) := by
  unfold execResetErrorDetected
  try dsimp only
  repeat' first
    | with_reducible exact h
    | (with_reducible refine sub _ ?_); decide
    | (with_reducible refine part_sub sub ?_); decide
    | with_reducible apply State.controllerReset_keeps
    | with_reducible assumption
    | with_reducible refine keeps_ite ?_ ?_
    | with_reducible refine keeps_foldl (fun _ _ _ => ?_) ?_
    | with_reducible refine answers_next ?_
    | split
theorem execFirmwareWatchdogExpire_keeps {P : List Part} {r : State} (fcBad : List Nat) (swept : List (Nat × CacheFault)) (s : State)
    (sub : ∀ p, p ∈ [.pwr, .port, .reqs, .fc, .tier, .slices, .budget, .media, .map, .care, .yoke, .atom, .keys, .reg, .dram, .gills, .dict, .mbox, .obs, .perf, .rstats, .fw, .cmds] → p ∈ P) (h : r.keepsBut P s) : Answers r P (execFirmwareWatchdogExpire fcBad swept s) := by
  unfold execFirmwareWatchdogExpire
  try dsimp only
  repeat' first
    | with_reducible exact h
    | (with_reducible refine sub _ ?_); decide
    | (with_reducible refine part_sub sub ?_); decide
    | with_reducible apply State.controllerReset_keeps
    | with_reducible assumption
    | with_reducible refine keeps_ite ?_ ?_
    | with_reducible refine keeps_foldl (fun _ _ _ => ?_) ?_
    | with_reducible refine answers_next ?_
    | split
theorem execLinkTrainingDone_keeps {P : List Part} {r : State} (rate : Nat) (offered : Nat) (failed : Nat) (s : State)
    (sub : ∀ p, p ∈ [.pwr, .port, .reqs, .fc, .tier, .slices, .budget, .media, .map, .care, .yoke, .atom, .keys, .reg, .dict, .mbox, .obs, .perf, .rstats, .cmds] → p ∈ P) (h : r.keepsBut P s) : Answers r P (execLinkTrainingDone rate offered failed s) := by
  unfold execLinkTrainingDone
  try dsimp only
  repeat' first
    | with_reducible exact h
    | (with_reducible refine sub _ ?_); decide
    | (with_reducible refine part_sub sub ?_); decide
    | with_reducible apply State.linkDown_keeps
    | with_reducible apply State.linkReset_keeps
    | with_reducible apply State.log_keeps
    | with_reducible refine State.keeps_upPort _ ?_ ?_
    | with_reducible refine State.keeps_upPwr _ ?_ ?_
    | with_reducible assumption
    | with_reducible refine keeps_ite ?_ ?_
    | with_reducible refine keeps_foldl (fun _ _ _ => ?_) ?_
    | with_reducible refine answers_next ?_
    | split
theorem execFabricBind_keeps {P : List Part} {r : State} (endpoint : Nat) (s : State)
    (sub : ∀ p, p ∈ [.port] → p ∈ P) (h : r.keepsBut P s) : Answers r P (execFabricBind endpoint s) := by
  unfold execFabricBind
  try dsimp only
  repeat' first
    | with_reducible exact h
    | (with_reducible refine sub _ ?_); decide
    | (with_reducible refine part_sub sub ?_); decide
    | with_reducible refine State.keeps_upPort _ ?_ ?_
    | with_reducible assumption
    | with_reducible refine keeps_ite ?_ ?_
    | with_reducible refine keeps_foldl (fun _ _ _ => ?_) ?_
    | with_reducible refine answers_next ?_
    | split
theorem execFabricUnbind_keeps {P : List Part} {r : State} (s : State)
    (sub : ∀ p, p ∈ [.port] → p ∈ P) (h : r.keepsBut P s) : Answers r P (execFabricUnbind s) := by
  unfold execFabricUnbind
  try dsimp only
  repeat' first
    | with_reducible exact h
    | (with_reducible refine sub _ ?_); decide
    | (with_reducible refine part_sub sub ?_); decide
    | with_reducible refine State.keeps_upPort _ ?_ ?_
    | with_reducible assumption
    | with_reducible refine keeps_ite ?_ ?_
    | with_reducible refine keeps_foldl (fun _ _ _ => ?_) ?_
    | with_reducible refine answers_next ?_
    | split
theorem execPerstDeassert_keeps {P : List Part} {r : State} (s : State)
    (sub : ∀ p, p ∈ [.pwr] → p ∈ P) (h : r.keepsBut P s) : Answers r P (execPerstDeassert s) := by
  unfold execPerstDeassert
  try dsimp only
  repeat' first
    | with_reducible exact h
    | (with_reducible refine sub _ ?_); decide
    | (with_reducible refine part_sub sub ?_); decide
    | with_reducible refine State.keeps_upPwr _ ?_ ?_
    | with_reducible assumption
    | with_reducible refine keeps_ite ?_ ?_
    | with_reducible refine keeps_foldl (fun _ _ _ => ?_) ?_
    | with_reducible refine answers_next ?_
    | split
theorem execAuxPowerLoss_keeps {P : List Part} {r : State} (s : State)
    (sub : ∀ p, p ∈ [.clk, .pwr, .port, .reqs, .fc, .tier, .slices, .budget, .media, .map, .care, .yoke, .atom, .keys, .reg, .therm, .bank, .dram, .gills, .dict, .mbox, .obs, .perf, .firkin, .rstats, .fw, .dump, .cmds, .tap] → p ∈ P) (h : r.keepsBut P s) : Answers r P (execAuxPowerLoss s) := by
  unfold execAuxPowerLoss
  try dsimp only
  repeat' first
    | with_reducible exact h
    | (with_reducible refine sub _ ?_); decide
    | (with_reducible refine part_sub sub ?_); decide
    | with_reducible apply State.keeperOff_keeps
    | with_reducible apply State.perstCold_keeps
    | with_reducible refine State.keeps_upPwr _ ?_ ?_
    | with_reducible assumption
    | with_reducible refine keeps_ite ?_ ?_
    | with_reducible refine keeps_foldl (fun _ _ _ => ?_) ?_
    | with_reducible refine answers_next ?_
    | split
theorem execAuxPowerArrive_keeps {P : List Part} {r : State} (s : State)
    (sub : ∀ p, p ∈ [.clk, .pwr, .dict] → p ∈ P) (h : r.keepsBut P s) : Answers r P (execAuxPowerArrive s) := by
  unfold execAuxPowerArrive
  try dsimp only
  repeat' first
    | with_reducible exact h
    | (with_reducible refine sub _ ?_); decide
    | (with_reducible refine part_sub sub ?_); decide
    | with_reducible apply State.keeperStart_keeps
    | with_reducible refine State.keeps_upDict _ ?_ ?_
    | with_reducible refine State.keeps_upPwr _ ?_ ?_
    | with_reducible assumption
    | with_reducible refine keeps_ite ?_ ?_
    | with_reducible refine keeps_foldl (fun _ _ _ => ?_) ?_
    | with_reducible refine answers_next ?_
    | split
theorem execCriticalLatchClear_keeps {P : List Part} {r : State} (s : State)
    (sub : ∀ p, p ∈ [.clk, .pwr, .obs, .perf] → p ∈ P) (h : r.keepsBut P s) : Answers r P (execCriticalLatchClear s) := by
  unfold execCriticalLatchClear
  try dsimp only
  repeat' first
    | with_reducible exact h
    | (with_reducible refine sub _ ?_); decide
    | (with_reducible refine part_sub sub ?_); decide
    | with_reducible apply State.elapseTo_keeps
    | with_reducible apply State.save_keeps
    | with_reducible refine State.keeps_upPwr _ ?_ ?_
    | with_reducible assumption
    | with_reducible refine keeps_ite ?_ ?_
    | with_reducible refine keeps_foldl (fun _ _ _ => ?_) ?_
    | with_reducible refine answers_next ?_
    | split
theorem execSmbrstAssert_keeps {P : List Part} {r : State} (s : State)
    (sub : ∀ p, p ∈ [.pwr, .dict] → p ∈ P) (h : r.keepsBut P s) : Answers r P (execSmbrstAssert s) := by
  unfold execSmbrstAssert
  try dsimp only
  repeat' first
    | with_reducible exact h
    | (with_reducible refine sub _ ?_); decide
    | (with_reducible refine part_sub sub ?_); decide
    | with_reducible refine State.keeps_upDict _ ?_ ?_
    | with_reducible refine State.keeps_upPwr _ ?_ ?_
    | with_reducible assumption
    | with_reducible refine keeps_ite ?_ ?_
    | with_reducible refine keeps_foldl (fun _ _ _ => ?_) ?_
    | with_reducible refine answers_next ?_
    | split
theorem execSmbrstDeassert_keeps {P : List Part} {r : State} (s : State)
    (sub : ∀ p, p ∈ [.pwr] → p ∈ P) (h : r.keepsBut P s) : Answers r P (execSmbrstDeassert s) := by
  unfold execSmbrstDeassert
  try dsimp only
  repeat' first
    | with_reducible exact h
    | (with_reducible refine sub _ ?_); decide
    | (with_reducible refine part_sub sub ?_); decide
    | with_reducible refine State.keeps_upPwr _ ?_ ?_
    | with_reducible assumption
    | with_reducible refine keeps_ite ?_ ?_
    | with_reducible refine keeps_foldl (fun _ _ _ => ?_) ?_
    | with_reducible refine answers_next ?_
    | split

end Sys2Proof.Machine
end

