-- ==== Sys2Proof/Laws/KeepsThermal.lean ====
section
/-!
SUPPORT. What each operation of Machine/Thermal.lean leaves unchanged: the groups of the state it may write, the others kept.
-/
namespace Sys2Proof.Machine

theorem State.enterStep_keeps {P : List Part} {r : State} (z : Nat) (k : Nat) (s : State)
    (sub : ∀ p, p ∈ [.therm, .obs] → p ∈ P) (h : r.keepsBut P s) : r.keepsBut P (State.enterStep z k s) := by
  unfold State.enterStep
  try dsimp only
  repeat' first
    | with_reducible exact h
    | (with_reducible refine sub _ ?_); decide
    | (with_reducible refine part_sub sub ?_); decide
    | with_reducible apply State.log_keeps
    | with_reducible refine State.keeps_upTherm _ ?_ ?_
    | with_reducible assumption
    | with_reducible refine keeps_ite ?_ ?_
    | with_reducible refine keeps_foldl (fun _ _ _ => ?_) ?_
    | split
theorem State.leaveStep_keeps {P : List Part} {r : State} (z : Nat) (k : Nat) (s : State)
    (sub : ∀ p, p ∈ [.therm, .obs] → p ∈ P) (h : r.keepsBut P s) : r.keepsBut P (State.leaveStep z k s) := by
  unfold State.leaveStep
  try dsimp only
  repeat' first
    | with_reducible exact h
    | (with_reducible refine sub _ ?_); decide
    | (with_reducible refine part_sub sub ?_); decide
    | with_reducible apply State.log_keeps
    | with_reducible refine State.keeps_upTherm _ ?_ ?_
    | with_reducible assumption
    | with_reducible refine keeps_ite ?_ ?_
    | with_reducible refine keeps_foldl (fun _ _ _ => ?_) ?_
    | split
theorem State.sense_keeps {P : List Part} {r : State} (ch : Nat) (x : Nat) (s : State)
    (sub : ∀ p, p ∈ [.therm, .obs] → p ∈ P) (h : r.keepsBut P s) : r.keepsBut P (State.sense ch x s) := by
  unfold State.sense
  try dsimp only
  repeat' first
    | with_reducible exact h
    | (with_reducible refine sub _ ?_); decide
    | (with_reducible refine part_sub sub ?_); decide
    | with_reducible apply State.log_keeps
    | with_reducible refine State.keeps_upTherm _ ?_ ?_
    | with_reducible assumption
    | with_reducible refine keeps_ite ?_ ?_
    | with_reducible refine keeps_foldl (fun _ _ _ => ?_) ?_
    | split
theorem State.zoneRound_keeps {P : List Part} {r : State} (z : Nat) (s : State)
    (sub : ∀ p, p ∈ [.therm, .obs] → p ∈ P) (h : r.keepsBut P s) : r.keepsBut P (State.zoneRound z s) := by
  unfold State.zoneRound
  try dsimp only
  repeat' first
    | with_reducible exact h
    | (with_reducible refine sub _ ?_); decide
    | (with_reducible refine part_sub sub ?_); decide
    | with_reducible apply State.enterStep_keeps
    | with_reducible refine State.keeps_upTherm _ ?_ ?_
    | with_reducible assumption
    | with_reducible refine keeps_ite ?_ ?_
    | with_reducible refine keeps_foldl (fun _ _ _ => ?_) ?_
    | split
theorem State.boundThermal_keeps {P : List Part} {r : State} (s : State)
    (sub : ∀ p, p ∈ [.obs, .rstats] → p ∈ P) (h : r.keepsBut P s) : r.keepsBut P (State.boundThermal s) := by
  unfold State.boundThermal
  try dsimp only
  repeat' first
    | with_reducible exact h
    | (with_reducible refine sub _ ?_); decide
    | (with_reducible refine part_sub sub ?_); decide
    | with_reducible apply State.boundEnd_keeps
    | with_reducible apply State.boundFail_keeps
    | with_reducible assumption
    | with_reducible refine keeps_ite ?_ ?_
    | with_reducible refine keeps_foldl (fun _ _ _ => ?_) ?_
    | split
theorem State.boundSoft_keeps {P : List Part} {r : State} (s : State)
    (sub : ∀ p, p ∈ [.obs, .rstats] → p ∈ P) (h : r.keepsBut P s) : r.keepsBut P (State.boundSoft s) := by
  unfold State.boundSoft
  try dsimp only
  repeat' first
    | with_reducible exact h
    | (with_reducible refine sub _ ?_); decide
    | (with_reducible refine part_sub sub ?_); decide
    | with_reducible apply State.boundEnd_keeps
    | with_reducible apply State.boundFail_keeps
    | with_reducible refine State.keeps_upRstats _ ?_ ?_
    | with_reducible assumption
    | with_reducible refine keeps_ite ?_ ?_
    | with_reducible refine keeps_foldl (fun _ _ _ => ?_) ?_
    | split
theorem State.rowRate_keeps {P : List Part} {r : State} (s : State)
    (sub : ∀ p, p ∈ [.clk, .dram] → p ∈ P) (h : r.keepsBut P s) : r.keepsBut P (State.rowRate s) := by
  unfold State.rowRate
  try dsimp only
  repeat' first
    | with_reducible exact h
    | (with_reducible refine sub _ ?_); decide
    | (with_reducible refine part_sub sub ?_); decide
    | with_reducible apply State.draw_keeps
    | with_reducible refine State.keeps_upDram _ ?_ ?_
    | with_reducible assumption
    | with_reducible refine keeps_ite ?_ ?_
    | with_reducible refine keeps_foldl (fun _ _ _ => ?_) ?_
    | with_reducible refine keepsP_ite ?_ ?_
    | with_reducible refine keepsP_foldl (fun _ _ _ => ?_) ?_
    | split
    | with_reducible refine KeepsP.snd ?_
    | with_reducible refine keepsP_mk ?_
    | with_reducible refine KeepsP.out (by assumption) ?_
theorem State.addDoses_keeps {P : List Part} {r : State} (s : State)
    (sub : ∀ p, p ∈ [.care] → p ∈ P) (h : r.keepsBut P s) : r.keepsBut P (State.addDoses s) := by
  unfold State.addDoses
  try dsimp only
  repeat' first
    | with_reducible exact h
    | (with_reducible refine sub _ ?_); decide
    | (with_reducible refine part_sub sub ?_); decide
    | with_reducible refine State.keeps_upCare _ ?_ ?_
    | with_reducible assumption
    | with_reducible refine keeps_ite ?_ ?_
    | with_reducible refine keeps_foldl (fun _ _ _ => ?_) ?_
    | split
theorem State.critical_keeps {P : List Part} {r : State} (s : State)
    (sub : ∀ p, p ∈ [.pwr] → p ∈ P) (h : r.keepsBut P s) : r.keepsBut P (State.critical s) := by
  unfold State.critical
  try dsimp only
  repeat' first
    | with_reducible exact h
    | (with_reducible refine sub _ ?_); decide
    | (with_reducible refine part_sub sub ?_); decide
    | with_reducible refine State.keeps_upPwr _ ?_ ?_
    | with_reducible assumption
    | with_reducible refine keeps_ite ?_ ?_
    | with_reducible refine keeps_foldl (fun _ _ _ => ?_) ?_
    | split
theorem State.railRound_keeps {P : List Part} {r : State} (s : State)
    (sub : ∀ p, p ∈ [.therm] → p ∈ P) (h : r.keepsBut P s) : r.keepsBut P (State.railRound s) := by
  unfold State.railRound
  try dsimp only
  repeat' first
    | with_reducible exact h
    | (with_reducible refine sub _ ?_); decide
    | (with_reducible refine part_sub sub ?_); decide
    | with_reducible refine State.keeps_upTherm _ ?_ ?_
    | with_reducible assumption
    | with_reducible refine keeps_ite ?_ ?_
    | with_reducible refine keeps_foldl (fun _ _ _ => ?_) ?_
    | split
theorem State.bankRound_keeps {P : List Part} {r : State} (s : State)
    (sub : ∀ p, p ∈ [.pwr, .budget, .bank, .obs, .perf] → p ∈ P) (h : r.keepsBut P s) : r.keepsBut P (State.bankRound s) := by
  unfold State.bankRound
  try dsimp only
  repeat' first
    | with_reducible exact h
    | (with_reducible refine sub _ ?_); decide
    | (with_reducible refine part_sub sub ?_); decide
    | with_reducible apply State.bankFault_keeps
    | with_reducible apply State.rederive_keeps
    | with_reducible refine State.keeps_upBank _ ?_ ?_
    | with_reducible assumption
    | with_reducible refine keeps_ite ?_ ?_
    | with_reducible refine keeps_foldl (fun _ _ _ => ?_) ?_
    | split
theorem State.retrainRound_keeps {P : List Part} {r : State} (s : State)
    (sub : ∀ p, p ∈ [.reg, .dram] → p ∈ P) (h : r.keepsBut P s) : r.keepsBut P (State.retrainRound s) := by
  unfold State.retrainRound
  try dsimp only
  repeat' first
    | with_reducible exact h
    | (with_reducible refine sub _ ?_); decide
    | (with_reducible refine part_sub sub ?_); decide
    | with_reducible apply State.needRetrain_keeps
    | with_reducible assumption
    | with_reducible refine keeps_ite ?_ ?_
    | with_reducible refine keeps_foldl (fun _ _ _ => ?_) ?_
    | split
theorem State.firkinRound_keeps {P : List Part} {r : State} (s : State)
    (sub : ∀ p, p ∈ [.gills, .obs, .perf, .firkin] → p ∈ P) (h : r.keepsBut P s) : r.keepsBut P (State.firkinRound s) := by
  unfold State.firkinRound
  try dsimp only
  repeat' first
    | with_reducible exact h
    | (with_reducible refine sub _ ?_); decide
    | (with_reducible refine part_sub sub ?_); decide
    | with_reducible apply State.closePeriod_keeps
    | with_reducible apply State.sample_keeps
    | with_reducible refine State.keeps_upFirkin _ ?_ ?_
    | with_reducible refine State.keeps_upGills _ ?_ ?_
    | with_reducible assumption
    | with_reducible refine keeps_ite ?_ ?_
    | with_reducible refine keeps_foldl (fun _ _ _ => ?_) ?_
    | split
theorem State.hourly_keeps {P : List Part} {r : State} (s : State)
    (sub : ∀ p, p ∈ [.care] → p ∈ P) (h : r.keepsBut P s) : r.keepsBut P (State.hourly s) := by
  unfold State.hourly
  try dsimp only
  repeat' first
    | with_reducible exact h
    | (with_reducible refine sub _ ?_); decide
    | (with_reducible refine part_sub sub ?_); decide
    | with_reducible refine State.keeps_upCare _ ?_ ?_
    | with_reducible assumption
    | with_reducible refine keeps_ite ?_ ?_
    | with_reducible refine keeps_foldl (fun _ _ _ => ?_) ?_
    | split
theorem State.round_keeps {P : List Part} {r : State} (readings : List Nat) (s : State)
    (sub : ∀ p, p ∈ [.clk, .pwr, .budget, .care, .reg, .therm, .bank, .dram, .gills, .obs, .perf, .firkin, .rstats, .fw] → p ∈ P) (h : r.keepsBut P s) : r.keepsBut P (State.round readings s) := by
  unfold State.round
  try dsimp only
  repeat' first
    | with_reducible exact h
    | (with_reducible refine sub _ ?_); decide
    | (with_reducible refine part_sub sub ?_); decide
    | with_reducible apply State.addDoses_keeps
    | with_reducible apply State.bankRound_keeps
    | with_reducible apply State.beginVerify_keeps
    | with_reducible apply State.boundSoft_keeps
    | with_reducible apply State.boundThermal_keeps
    | with_reducible apply State.count_keeps
    | with_reducible apply State.critical_keeps
    | with_reducible apply State.elapseTo_keeps
    | with_reducible apply State.firkinRound_keeps
    | with_reducible apply State.hourly_keeps
    | with_reducible apply State.railRound_keeps
    | with_reducible apply State.retrainRound_keeps
    | with_reducible apply State.rowRate_keeps
    | with_reducible apply State.sense_keeps
    | with_reducible apply State.zoneRound_keeps
    | with_reducible refine State.keeps_upReg _ ?_ ?_
    | with_reducible refine State.keeps_upTherm _ ?_ ?_
    | with_reducible assumption
    | with_reducible refine keeps_ite ?_ ?_
    | with_reducible refine keeps_foldl (fun _ _ _ => ?_) ?_
    | split
theorem execThrottleLeave_keeps {P : List Part} {r : State} (zone : Nat) (s : State)
    (sub : ∀ p, p ∈ [.therm, .obs] → p ∈ P) (h : r.keepsBut P s) : Answers r P (execThrottleLeave zone s) := by
  unfold execThrottleLeave
  try dsimp only
  repeat' first
    | with_reducible exact h
    | (with_reducible refine sub _ ?_); decide
    | (with_reducible refine part_sub sub ?_); decide
    | with_reducible apply State.leaveStep_keeps
    | with_reducible assumption
    | with_reducible refine keeps_ite ?_ ?_
    | with_reducible refine keeps_foldl (fun _ _ _ => ?_) ?_
    | with_reducible refine answers_next ?_
    | split
theorem execSensorRestored_keeps {P : List Part} {r : State} (ch : Nat) (s : State)
    (sub : ∀ p, p ∈ [.therm, .obs] → p ∈ P) (h : r.keepsBut P s) : Answers r P (execSensorRestored ch s) := by
  unfold execSensorRestored
  try dsimp only
  repeat' first
    | with_reducible exact h
    | (with_reducible refine sub _ ?_); decide
    | (with_reducible refine part_sub sub ?_); decide
    | with_reducible apply State.enterStep_keeps
    | with_reducible apply State.leaveStep_keeps
    | with_reducible apply State.log_keeps
    | with_reducible refine State.keeps_upTherm _ ?_ ?_
    | with_reducible assumption
    | with_reducible refine keeps_ite ?_ ?_
    | with_reducible refine keeps_foldl (fun _ _ _ => ?_) ?_
    | with_reducible refine answers_next ?_
    | split
theorem execRailFault_keeps {P : List Part} {r : State} (ch : Nat) (s : State)
    (sub : ∀ p, p ∈ [.therm, .obs] → p ∈ P) (h : r.keepsBut P s) : Answers r P (execRailFault ch s) := by
  unfold execRailFault
  try dsimp only
  repeat' first
    | with_reducible exact h
    | (with_reducible refine sub _ ?_); decide
    | (with_reducible refine part_sub sub ?_); decide
    | with_reducible apply State.log_keeps
    | with_reducible refine State.keeps_upTherm _ ?_ ?_
    | with_reducible assumption
    | with_reducible refine keeps_ite ?_ ?_
    | with_reducible refine keeps_foldl (fun _ _ _ => ?_) ?_
    | with_reducible refine answers_next ?_
    | split
theorem execChargeVoltageRaise_keeps {P : List Part} {r : State} (s : State)
    (sub : ∀ p, p ∈ [.pwr, .budget, .bank, .obs] → p ∈ P) (h : r.keepsBut P s) : Answers r P (execChargeVoltageRaise s) := by
  unfold execChargeVoltageRaise
  try dsimp only
  repeat' first
    | with_reducible exact h
    | (with_reducible refine sub _ ?_); decide
    | (with_reducible refine part_sub sub ?_); decide
    | with_reducible apply State.rederive_keeps
    | with_reducible refine State.keeps_upBank _ ?_ ?_
    | with_reducible assumption
    | with_reducible refine keeps_ite ?_ ?_
    | with_reducible refine keeps_foldl (fun _ _ _ => ?_) ?_
    | with_reducible refine answers_next ?_
    | split
theorem execCapacitanceMeasure_keeps {P : List Part} {r : State} (capA : Nat) (capB : Nat) (fault : BankFault) (s : State)
    (sub : ∀ p, p ∈ [.clk, .pwr, .budget, .bank, .obs, .perf] → p ∈ P) (h : r.keepsBut P s) : Answers r P (execCapacitanceMeasure capA capB fault s) := by
  unfold execCapacitanceMeasure
  try dsimp only
  repeat' first
    | with_reducible exact h
    | (with_reducible refine sub _ ?_); decide
    | (with_reducible refine part_sub sub ?_); decide
    | with_reducible apply State.bankFault_keeps
    | with_reducible apply State.elapseTo_keeps
    | with_reducible apply State.rederive_keeps
    | with_reducible refine State.keeps_upBank _ ?_ ?_
    | with_reducible assumption
    | with_reducible refine keeps_ite ?_ ?_
    | with_reducible refine keeps_foldl (fun _ _ _ => ?_) ?_
    | with_reducible refine answers_next ?_
    | split
theorem execCriticalRecheck_keeps {P : List Part} {r : State} (ch : Nat) (reading : Nat) (s : State)
    (sub : ∀ p, p ∈ [.clk, .pwr, .port, .reqs, .fc, .tier, .slices, .budget, .media, .map, .care, .yoke, .atom, .keys, .reg, .therm, .bank, .dram, .gills, .dict, .mbox, .obs, .perf, .firkin, .rstats, .fw, .dump, .cmds, .tap] → p ∈ P) (h : r.keepsBut P s) : Answers r P (execCriticalRecheck ch reading s) := by
  unfold execCriticalRecheck
  try dsimp only
  repeat' first
    | with_reducible exact h
    | (with_reducible refine sub _ ?_); decide
    | (with_reducible refine part_sub sub ?_); decide
    | with_reducible apply State.cleanStop_keeps
    | with_reducible apply State.elapseTo_keeps
    | with_reducible apply State.save_keeps
    | with_reducible apply State.startDump_keeps
    | with_reducible refine State.keeps_upPwr _ ?_ ?_
    | with_reducible assumption
    | with_reducible refine keeps_ite ?_ ?_
    | with_reducible refine keeps_foldl (fun _ _ _ => ?_) ?_
    | with_reducible refine answers_next ?_
    | split
theorem execBaseDrawMeasure_keeps {P : List Part} {r : State} (inputMw : Nat) (s : State)
    (sub : ∀ p, p ∈ [.clk, .reg, .obs, .perf] → p ∈ P) (h : r.keepsBut P s) : Answers r P (execBaseDrawMeasure inputMw s) := by
  unfold execBaseDrawMeasure
  try dsimp only
  repeat' first
    | with_reducible exact h
    | (with_reducible refine sub _ ?_); decide
    | (with_reducible refine part_sub sub ?_); decide
    | with_reducible apply State.elapseTo_keeps
    | with_reducible refine State.keeps_upReg _ ?_ ?_
    | with_reducible assumption
    | with_reducible refine keeps_ite ?_ ?_
    | with_reducible refine keeps_foldl (fun _ _ _ => ?_) ?_
    | with_reducible refine answers_next ?_
    | split
theorem execPacingStep_keeps {P : List Part} {r : State} (s : State)
    (sub : ∀ p, p ∈ [.clk, .port, .obs, .perf] → p ∈ P) (h : r.keepsBut P s) : Answers r P (execPacingStep s) := by
  unfold execPacingStep
  try dsimp only
  repeat' first
    | with_reducible exact h
    | (with_reducible refine sub _ ?_); decide
    | (with_reducible refine part_sub sub ?_); decide
    | with_reducible apply State.elapseTo_keeps
    | with_reducible apply State.log_keeps
    | with_reducible refine State.keeps_upPort _ ?_ ?_
    | with_reducible assumption
    | with_reducible refine keeps_ite ?_ ?_
    | with_reducible refine keeps_foldl (fun _ _ _ => ?_) ?_
    | with_reducible refine answers_next ?_
    | split
theorem State.recompute_keeps {P : List Part} {r : State} (s : State)
    (sub : ∀ p, p ∈ [.reg, .obs] → p ∈ P) (h : r.keepsBut P s) : r.keepsBut P (State.recompute s) := by
  unfold State.recompute
  try dsimp only
  repeat' first
    | with_reducible exact h
    | (with_reducible refine sub _ ?_); decide
    | (with_reducible refine part_sub sub ?_); decide
    | with_reducible apply State.log_keeps
    | with_reducible apply State.raise_keeps
    | with_reducible apply State.refillTokens_keeps
    | with_reducible refine State.keeps_upReg _ ?_ ?_
    | with_reducible assumption
    | with_reducible refine keeps_ite ?_ ?_
    | with_reducible refine keeps_foldl (fun _ _ _ => ?_) ?_
    | split
theorem execDeliverableRecompute_keeps {P : List Part} {r : State} (s : State)
    (sub : ∀ p, p ∈ [.clk, .reg, .obs, .perf] → p ∈ P) (h : r.keepsBut P s) : Answers r P (execDeliverableRecompute s) := by
  unfold execDeliverableRecompute
  try dsimp only
  repeat' first
    | with_reducible exact h
    | (with_reducible refine sub _ ?_); decide
    | (with_reducible refine part_sub sub ?_); decide
    | with_reducible apply State.elapseTo_keeps
    | with_reducible apply State.recompute_keeps
    | with_reducible refine State.keeps_upReg _ ?_ ?_
    | with_reducible assumption
    | with_reducible refine keeps_ite ?_ ?_
    | with_reducible refine keeps_foldl (fun _ _ _ => ?_) ?_
    | with_reducible refine answers_next ?_
    | split
theorem execLatencyMissReport_keeps {P : List Part} {r : State} (cls : Nat) (s : State)
    (sub : ∀ p, p ∈ [.clk, .reg, .obs, .perf] → p ∈ P) (h : r.keepsBut P s) : Answers r P (execLatencyMissReport cls s) := by
  unfold execLatencyMissReport
  try dsimp only
  repeat' first
    | with_reducible exact h
    | (with_reducible refine sub _ ?_); decide
    | (with_reducible refine part_sub sub ?_); decide
    | with_reducible apply State.elapseTo_keeps
    | with_reducible apply State.log_keeps
    | with_reducible apply State.raise_keeps
    | with_reducible refine State.keeps_upReg _ ?_ ?_
    | with_reducible assumption
    | with_reducible refine keeps_ite ?_ ?_
    | with_reducible refine keeps_foldl (fun _ _ _ => ?_) ?_
    | with_reducible refine answers_next ?_
    | split
theorem execGillLeak_keeps {P : List Part} {r : State} (domain : Nat) (s : State)
    (sub : ∀ p, p ∈ [.clk, .gills, .obs, .perf] → p ∈ P) (h : r.keepsBut P s) : Answers r P (execGillLeak domain s) := by
  unfold execGillLeak
  try dsimp only
  repeat' first
    | with_reducible exact h
    | (with_reducible refine sub _ ?_); decide
    | (with_reducible refine part_sub sub ?_); decide
    | with_reducible apply State.elapseTo_keeps
    | with_reducible refine State.keeps_upGills _ ?_ ?_
    | with_reducible assumption
    | with_reducible refine keeps_ite ?_ ?_
    | with_reducible refine keeps_foldl (fun _ _ _ => ?_) ?_
    | with_reducible refine answers_next ?_
    | split
theorem State.losePailed_keeps {P : List Part} {r : State} (x0 : Req) (s : State)
    (sub : ∀ p, p ∈ [.pwr, .port, .reqs, .slices, .budget, .map, .care, .yoke, .atom, .reg, .mbox, .obs, .perf, .firkin, .rstats, .cmds] → p ∈ P) (h : r.keepsBut P s) : r.keepsBut P (State.losePailed x0 s) := by
  unfold State.losePailed
  try dsimp only
  repeat' first
    | with_reducible exact h
    | (with_reducible refine sub _ ?_); decide
    | (with_reducible refine part_sub sub ?_); decide
    | with_reducible apply State.answer_keeps
    | with_reducible apply State.count_keeps
    | with_reducible apply State.poison_keeps
    | with_reducible apply State.resRoom_keeps
    | with_reducible apply State.reserve_keeps
    | with_reducible apply State.uncharge_keeps
    | with_reducible assumption
    | with_reducible refine keeps_ite ?_ ?_
    | with_reducible refine keeps_foldl (fun _ _ _ => ?_) ?_
    | with_reducible exact keepsO_get (by assumption)
    | with_reducible refine keepsO_map (fun _ _ => ?_) ?_
    | with_reducible refine keepsO_foldl (fun _ _ _ => ?_) ?_
    | exact keepsO_none
    | with_reducible refine keepsO_some ?_
    | split
    | with_reducible refine KeepsO.out (by assumption) ?_
theorem State.endTransfer_keeps {P : List Part} {r : State} (route : Nat) (code : Nat) (s : State)
    (sub : ∀ p, p ∈ [.dict, .obs] → p ∈ P) (h : r.keepsBut P s) : r.keepsBut P (State.endTransfer route code s) := by
  unfold State.endTransfer
  try dsimp only
  repeat' first
    | with_reducible exact h
    | (with_reducible refine sub _ ?_); decide
    | (with_reducible refine part_sub sub ?_); decide
    | with_reducible refine State.keeps_upDict _ ?_ ?_
    | with_reducible refine State.keeps_upObs _ ?_ ?_
    | with_reducible assumption
    | with_reducible refine keeps_ite ?_ ?_
    | with_reducible refine keeps_foldl (fun _ _ _ => ?_) ?_
    | split
theorem execPailReset_keeps {P : List Part} {r : State} (kind : Nat) (inst : Nat) (s : State)
    (sub : ∀ p, p ∈ [.pwr, .port, .reqs, .fc, .tier, .slices, .budget, .media, .map, .care, .yoke, .atom, .keys, .reg, .dram, .gills, .dict, .mbox, .obs, .perf, .firkin, .rstats, .fw, .cmds] → p ∈ P) (h : r.keepsBut P s) : Answers r P (execPailReset kind inst s) := by
  unfold execPailReset
  try dsimp only
  repeat' first
    | with_reducible exact h
    | (with_reducible refine sub _ ?_); decide
    | (with_reducible refine part_sub sub ?_); decide
    | with_reducible apply State.controllerReset_keeps
    | with_reducible apply State.dropMiss_keeps
    | with_reducible apply State.endRes_keeps
    | with_reducible apply State.endTransfer_keeps
    | with_reducible apply State.log_keeps
    | with_reducible apply State.losePailed_keeps
    | with_reducible apply State.raise_keeps
    | with_reducible refine State.keeps_upObs _ ?_ ?_
    | with_reducible refine State.keeps_upPwr _ ?_ ?_
    | with_reducible assumption
    | with_reducible refine keeps_ite ?_ ?_
    | with_reducible refine keeps_foldl (fun _ _ _ => ?_) ?_
    | with_reducible refine answers_next ?_
    | split

end Sys2Proof.Machine
end

