-- ==== Sys2Proof/Laws/KeepsDramOps.lean ====
section
/-!
SUPPORT. What each operation of Machine/DramOps.lean leaves unchanged: the groups of the state it may write, the others kept.
-/
namespace Sys2Proof.Machine

theorem execDramPageCloseTimeout_keeps {P : List Part} {r : State} (subchannel : Nat) (bank : Nat) (s : State)
    (sub : ∀ p, p ∈ [.clk, .dram, .obs, .perf] → p ∈ P) (h : r.keepsBut P s) : Answers r P (execDramPageCloseTimeout subchannel bank s) := by
  unfold execDramPageCloseTimeout
  try dsimp only
  repeat' first
    | with_reducible exact h
    | (with_reducible refine sub _ ?_); decide
    | (with_reducible refine part_sub sub ?_); decide
    | with_reducible apply State.elapse_keeps
    | with_reducible refine State.keeps_upDram _ ?_ ?_
    | with_reducible assumption
    | with_reducible refine keeps_ite ?_ ?_
    | with_reducible refine keeps_foldl (fun _ _ _ => ?_) ?_
    | with_reducible refine answers_next ?_
    | split
theorem execRefreshPeriodEnd_keeps {P : List Part} {r : State} (s : State)
    (sub : ∀ p, p ∈ [.clk, .dram, .obs, .perf] → p ∈ P) (h : r.keepsBut P s) : Answers r P (execRefreshPeriodEnd s) := by
  unfold execRefreshPeriodEnd
  try dsimp only
  repeat' first
    | with_reducible exact h
    | (with_reducible refine sub _ ?_); decide
    | (with_reducible refine part_sub sub ?_); decide
    | with_reducible apply State.elapseTo_keeps
    | with_reducible refine State.keeps_upDram _ ?_ ?_
    | with_reducible assumption
    | with_reducible refine keeps_ite ?_ ?_
    | with_reducible refine keeps_foldl (fun _ _ _ => ?_) ?_
    | with_reducible refine answers_next ?_
    | split
theorem execDramRetrainStep_keeps {P : List Part} {r : State} (s : State)
    (sub : ∀ p, p ∈ [.clk, .reg, .dram, .obs, .perf] → p ∈ P) (h : r.keepsBut P s) : Answers r P (execDramRetrainStep s) := by
  unfold execDramRetrainStep
  try dsimp only
  repeat' first
    | with_reducible exact h
    | (with_reducible refine sub _ ?_); decide
    | (with_reducible refine part_sub sub ?_); decide
    | with_reducible apply State.count_keeps
    | with_reducible apply State.elapseTo_keeps
    | with_reducible apply State.giveLeave_keeps
    | with_reducible apply State.log_keeps
    | with_reducible apply State.needRetrain_keeps
    | with_reducible apply State.save_keeps
    | with_reducible refine State.keeps_upDram _ ?_ ?_
    | with_reducible assumption
    | with_reducible refine keeps_ite ?_ ?_
    | with_reducible refine keeps_foldl (fun _ _ _ => ?_) ?_
    | with_reducible refine answers_next ?_
    | split

end Sys2Proof.Machine
end

