-- ==== Sys2Proof/Laws/KeepsAtomics.lean ====
section
/-!
SUPPORT. What each operation of Machine/Atomics.lean leaves unchanged: the groups of the state it may write, the others kept.
-/
namespace Sys2Proof.Machine

theorem execReservedRead_keeps {P : List Part} {r : State} (key : Nat) (addr : Nat) (tag : Nat) (fault : CacheFault) (s : State)
    (sub : ∀ p, p ∈ [.pwr, .port, .reqs, .fc, .tier, .slices, .budget, .media, .map, .care, .yoke, .atom, .keys, .reg, .dram, .gills, .dict, .mbox, .obs, .perf, .firkin, .rstats, .fw, .cmds] → p ∈ P) (h : r.keepsBut P s) : Answers r P (execReservedRead key addr tag fault s) := by
  unfold execReservedRead
  try dsimp only
  repeat' first
    | with_reducible exact h
    | (with_reducible refine sub _ ?_); decide
    | (with_reducible refine part_sub sub ?_); decide
    | with_reducible apply State.arrive_keeps
    | with_reducible apply State.serveNew_keeps
    | with_reducible assumption
    | with_reducible refine keeps_ite ?_ ?_
    | with_reducible refine keeps_foldl (fun _ _ _ => ?_) ?_
    | with_reducible refine answers_next ?_
    | split
theorem execReservationTableRoom_keeps {P : List Part} {r : State} (slice : Nat) (fault : CacheFault) (s : State)
    (sub : ∀ p, p ∈ [.clk, .pwr, .port, .reqs, .fc, .tier, .slices, .budget, .media, .map, .care, .yoke, .atom, .keys, .reg, .dram, .gills, .dict, .mbox, .obs, .perf, .firkin, .rstats, .fw, .cmds] → p ∈ P) (h : r.keepsBut P s) : Answers r P (execReservationTableRoom slice fault s) := by
  unfold execReservationTableRoom
  try dsimp only
  repeat' first
    | with_reducible exact h
    | (with_reducible refine sub _ ?_); decide
    | (with_reducible refine part_sub sub ?_); decide
    | with_reducible apply State.checked_keeps
    | with_reducible apply State.elapseTo_keeps
    | with_reducible apply State.finishRead_keeps
    | with_reducible apply State.serveRead_keeps
    | with_reducible assumption
    | with_reducible refine keeps_ite ?_ ?_
    | with_reducible refine keeps_foldl (fun _ _ _ => ?_) ?_
    | with_reducible refine answers_next ?_
    | (with_reducible intro _ _); dsimp only
    | with_reducible intro _ _
    | split
    | with_reducible refine keepsPP_mk ?_
    | with_reducible refine KeepsPP.snd ?_
    | with_reducible refine KeepsPP.out (by assumption) ?_
theorem execConditionalWrite_keeps {P : List Part} {r : State} (key : Nat) (addr : Nat) (tag : Nat) (data : Line) (be : Mask) (poison : Bool) (s : State)
    (sub : ∀ p, p ∈ [.pwr, .port, .reqs, .fc, .tier, .slices, .budget, .media, .map, .care, .yoke, .atom, .keys, .reg, .dram, .gills, .dict, .mbox, .obs, .perf, .firkin, .rstats, .fw, .cmds] → p ∈ P) (h : r.keepsBut P s) : Answers r P (execConditionalWrite key addr tag data be poison s) := by
  unfold execConditionalWrite
  try dsimp only
  repeat' first
    | with_reducible exact h
    | (with_reducible refine sub _ ?_); decide
    | (with_reducible refine part_sub sub ?_); decide
    | with_reducible apply State.arrive_keeps
    | with_reducible apply State.serveNew_keeps
    | with_reducible assumption
    | with_reducible refine keeps_ite ?_ ?_
    | with_reducible refine keeps_foldl (fun _ _ _ => ?_) ?_
    | with_reducible refine answers_next ?_
    | split

end Sys2Proof.Machine
end

