-- ==== Sys2Proof/Laws/KeepsBatch.lean ====
section
/-!
SUPPORT. What each operation of Machine/Batch.lean leaves unchanged: the groups of the state it may write, the others kept.
-/
namespace Sys2Proof.Machine

theorem State.setEntry_keeps {P : List Part} {r : State} (i : Nat) (x1 : Nat) (v : Bytes) (s : State)
    (sub : ∀ p, p ∈ [.tabs, .dict] → p ∈ P) (h : r.keepsBut P s) : r.keepsBut P (State.setEntry i x1 v s) := by
  unfold State.setEntry
  try dsimp only
  repeat' first
    | with_reducible exact h
    | (with_reducible refine sub _ ?_); decide
    | (with_reducible refine part_sub sub ?_); decide
    | with_reducible refine State.keeps_upDict _ ?_ ?_
    | with_reducible refine State.keeps_upTabs _ ?_ ?_
    | with_reducible assumption
    | with_reducible refine keeps_ite ?_ ?_
    | with_reducible refine keeps_foldl (fun _ _ _ => ?_) ?_
    | split
theorem State.setRecs_keeps {P : List Part} {r : State} (recs : List StageRec) (s : State)
    (sub : ∀ p, p ∈ [.tabs, .dict] → p ∈ P) (h : r.keepsBut P s) : r.keepsBut P (State.setRecs recs s) := by
  unfold State.setRecs
  try dsimp only
  repeat' first
    | with_reducible exact h
    | (with_reducible refine sub _ ?_); decide
    | (with_reducible refine part_sub sub ?_); decide
    | with_reducible apply State.setEntry_keeps
    | with_reducible assumption
    | with_reducible refine keeps_ite ?_ ?_
    | with_reducible refine keeps_foldl (fun _ _ _ => ?_) ?_
    | split
theorem State.stage_keeps {P : List Part} {r : State} (x0 : Role) (x : StageRec) (s : State)
    (sub : ∀ p, p ∈ [.dict] → p ∈ P) (h : r.keepsBut P s) : KeepsP r P (State.stage x0 x s) := by
  unfold State.stage
  try dsimp only
  repeat' first
    | with_reducible exact h
    | (with_reducible refine sub _ ?_); decide
    | (with_reducible refine part_sub sub ?_); decide
    | with_reducible apply State.setBatch_keeps
    | with_reducible assumption
    | with_reducible refine keeps_ite ?_ ?_
    | with_reducible refine keeps_foldl (fun _ _ _ => ?_) ?_
    | with_reducible refine keepsP_ite ?_ ?_
    | with_reducible refine keepsP_foldl (fun _ _ _ => ?_) ?_
    | split
    | with_reducible refine KeepsP.snd ?_
    | with_reducible refine keepsP_mk ?_
    | with_reducible refine KeepsP.out (by assumption) ?_
theorem State.keysAfter_keeps {P : List Part} {r : State} (old : Tab Range) (s : State)
    (sub : ∀ p, p ∈ [.keys, .obs, .perf] → p ∈ P) (h : r.keepsBut P s) : r.keepsBut P (State.keysAfter old s) := by
  unfold State.keysAfter
  try dsimp only
  repeat' first
    | with_reducible exact h
    | (with_reducible refine sub _ ?_); decide
    | (with_reducible refine part_sub sub ?_); decide
    | with_reducible apply State.count_keeps
    | with_reducible apply State.measure_keeps
    | with_reducible refine State.keeps_upKeys _ ?_ ?_
    | with_reducible assumption
    | with_reducible refine keeps_ite ?_ ?_
    | with_reducible refine keeps_foldl (fun _ _ _ => ?_) ?_
    | split
theorem State.rekeyAfter_keeps {P : List Part} {r : State} (old : Tab Range) (s : State)
    (sub : ∀ p, p ∈ [.pwr, .media, .map, .care, .yoke, .reg, .tabs, .obs, .perf, .cmds] → p ∈ P) (h : r.keepsBut P s) : r.keepsBut P (State.rekeyAfter old s) := by
  unfold State.rekeyAfter
  try dsimp only
  repeat' first
    | with_reducible exact h
    | (with_reducible refine sub _ ?_); decide
    | (with_reducible refine part_sub sub ?_); decide
    | with_reducible apply State.rekeyRun_keeps
    | with_reducible refine State.keeps_upTabs _ ?_ ?_
    | with_reducible assumption
    | with_reducible refine keeps_ite ?_ ?_
    | with_reducible refine keeps_foldl (fun _ _ _ => ?_) ?_
    | split
theorem State.applyBatch_keeps {P : List Part} {r : State} (n : Nat) (recs : List StageRec) (s : State)
    (sub : ∀ p, p ∈ [.pwr, .media, .map, .care, .yoke, .atom, .keys, .reg, .tabs, .dict, .obs, .perf, .cmds] → p ∈ P) (h : r.keepsBut P s) : r.keepsBut P (State.applyBatch n recs s) := by
  unfold State.applyBatch
  try dsimp only
  repeat' first
    | with_reducible exact h
    | (with_reducible refine sub _ ?_); decide
    | (with_reducible refine part_sub sub ?_); decide
    | with_reducible apply State.clearReservations_keeps
    | with_reducible apply State.keysAfter_keeps
    | with_reducible apply State.log_keeps
    | with_reducible apply State.measure_keeps
    | with_reducible apply State.recompute_keeps
    | with_reducible apply State.rekeyAfter_keeps
    | with_reducible apply State.rekeyDone_keeps
    | with_reducible apply State.retireKeys_keeps
    | with_reducible apply State.save_keeps
    | with_reducible apply State.setRecs_keeps
    | with_reducible refine State.keeps_upDict _ ?_ ?_
    | with_reducible assumption
    | with_reducible refine keeps_ite ?_ ?_
    | with_reducible refine keeps_foldl (fun _ _ _ => ?_) ?_
    | split
theorem State.sendPrepare_keeps {P : List Part} {r : State} (n : Nat) (recs : List StageRec) (s : State)
    (sub : ∀ p, p ∈ [.yoke, .obs, .perf] → p ∈ P) (h : r.keepsBut P s) : r.keepsBut P (State.sendPrepare n recs s) := by
  unfold State.sendPrepare
  try dsimp only
  repeat' first
    | with_reducible exact h
    | (with_reducible refine sub _ ?_); decide
    | (with_reducible refine part_sub sub ?_); decide
    | with_reducible apply State.send_keeps
    | with_reducible assumption
    | with_reducible refine keeps_ite ?_ ?_
    | with_reducible refine keeps_foldl (fun _ _ _ => ?_) ?_
    | split
theorem State.runCommit_keeps {P : List Part} {r : State} (p : PairCommit) (s : State)
    (sub : ∀ p, p ∈ [.pwr, .media, .map, .care, .yoke, .atom, .keys, .reg, .tabs, .dict, .obs, .perf, .cmds] → p ∈ P) (h : r.keepsBut P s) : KeepsP r P (State.runCommit p s) := by
  unfold State.runCommit
  try dsimp only
  repeat' first
    | with_reducible exact h
    | (with_reducible refine sub _ ?_); decide
    | (with_reducible refine part_sub sub ?_); decide
    | with_reducible apply State.applyBatch_keeps
    | with_reducible apply State.endCommit_keeps
    | with_reducible apply State.sendPrepare_keeps
    | with_reducible refine State.keeps_upDict _ ?_ ?_
    | with_reducible assumption
    | with_reducible refine keeps_ite ?_ ?_
    | with_reducible refine keeps_foldl (fun _ _ _ => ?_) ?_
    | with_reducible refine keepsP_ite ?_ ?_
    | with_reducible refine keepsP_foldl (fun _ _ _ => ?_) ?_
    | split
    | with_reducible refine KeepsP.snd ?_
    | with_reducible refine keepsP_mk ?_
    | with_reducible refine KeepsP.out (by assumption) ?_
theorem State.commit_keeps {P : List Part} {r : State} (p : PairCommit) (logFault : Bool) (s : State)
    (sub : ∀ p, p ∈ [.pwr, .media, .map, .care, .yoke, .atom, .keys, .reg, .tabs, .dict, .obs, .perf, .cmds] → p ∈ P) (h : r.keepsBut P s) : KeepsP r P (State.commit p logFault s) := by
  unfold State.commit
  try dsimp only
  repeat' first
    | with_reducible exact h
    | (with_reducible refine sub _ ?_); decide
    | (with_reducible refine part_sub sub ?_); decide
    | with_reducible apply State.endCommit_keeps
    | with_reducible apply State.log_keeps
    | with_reducible apply State.runCommit_keeps
    | with_reducible refine State.keeps_upDict _ ?_ ?_
    | with_reducible assumption
    | with_reducible refine keeps_ite ?_ ?_
    | with_reducible refine keeps_foldl (fun _ _ _ => ?_) ?_
    | with_reducible refine keepsP_ite ?_ ?_
    | with_reducible refine keepsP_foldl (fun _ _ _ => ?_) ?_
    | split
    | with_reducible refine KeepsP.snd ?_
    | with_reducible refine keepsP_mk ?_
    | with_reducible refine KeepsP.out (by assumption) ?_
theorem State.nextCommits_keeps {P : List Part} {r : State} (x0 : Nat) (x1 : State)
    (sub : ∀ p, p ∈ [.pwr, .media, .map, .care, .yoke, .atom, .keys, .reg, .tabs, .dict, .mbox, .obs, .perf, .cmds] → p ∈ P) (h : r.keepsBut P x1) : r.keepsBut P (State.nextCommits x0 x1) := by
  induction x0 generalizing x1 with
  | zero => unfold State.nextCommits; first | exact h | exact keepsP_mk h
  | succ n ih =>
    unfold State.nextCommits
    try dsimp only
    repeat' first
      | with_reducible exact h
      | (with_reducible refine sub _ ?_); decide
      | (with_reducible refine part_sub sub ?_); decide
      | with_reducible apply State.reply_keeps
      | with_reducible apply State.runCommit_keeps
      | with_reducible refine State.keeps_upDict _ ?_ ?_
      | with_reducible refine ih _ ?_
      | with_reducible assumption
      | with_reducible refine keeps_ite ?_ ?_
      | with_reducible refine keeps_foldl (fun _ _ _ => ?_) ?_
      | with_reducible refine keepsP_ite ?_ ?_
      | with_reducible refine keepsP_foldl (fun _ _ _ => ?_) ?_
      | split
      | with_reducible refine KeepsP.snd ?_
      | with_reducible refine keepsP_mk ?_
      | with_reducible refine KeepsP.out (by assumption) ?_
theorem State.endPair_keeps {P : List Part} {r : State} (p : PairCommit) (code : Nat) (s : State)
    (sub : ∀ p, p ∈ [.pwr, .media, .map, .care, .yoke, .atom, .keys, .reg, .tabs, .dict, .mbox, .obs, .perf, .cmds] → p ∈ P) (h : r.keepsBut P s) : r.keepsBut P (State.endPair p code s) := by
  unfold State.endPair
  try dsimp only
  repeat' first
    | with_reducible exact h
    | (with_reducible refine sub _ ?_); decide
    | (with_reducible refine part_sub sub ?_); decide
    | with_reducible apply State.endCommit_keeps
    | with_reducible apply State.nextCommits_keeps
    | with_reducible apply State.reply_keeps
    | with_reducible refine State.keeps_upDict _ ?_ ?_
    | with_reducible assumption
    | with_reducible refine keeps_ite ?_ ?_
    | with_reducible refine keeps_foldl (fun _ _ _ => ?_) ?_
    | split
theorem State.loseCommit_keeps {P : List Part} {r : State} (s : State)
    (sub : ∀ p, p ∈ [.pwr, .media, .map, .care, .yoke, .atom, .keys, .reg, .tabs, .dict, .mbox, .obs, .perf, .cmds] → p ∈ P) (h : r.keepsBut P s) : r.keepsBut P (State.loseCommit s) := by
  unfold State.loseCommit
  try dsimp only
  repeat' first
    | with_reducible exact h
    | (with_reducible refine sub _ ?_); decide
    | (with_reducible refine part_sub sub ?_); decide
    | with_reducible apply State.endPair_keeps
    | with_reducible apply State.log_keeps
    | with_reducible refine State.keeps_upDict _ ?_ ?_
    | with_reducible assumption
    | with_reducible refine keeps_ite ?_ ?_
    | with_reducible refine keeps_foldl (fun _ _ _ => ?_) ?_
    | split
theorem State.discard_keeps {P : List Part} {r : State} (x0 : Role) (s : State)
    (sub : ∀ p, p ∈ [.dict] → p ∈ P) (h : r.keepsBut P s) : KeepsP r P (State.discard x0 s) := by
  unfold State.discard
  try dsimp only
  repeat' first
    | with_reducible exact h
    | (with_reducible refine sub _ ?_); decide
    | (with_reducible refine part_sub sub ?_); decide
    | with_reducible apply State.setBatch_keeps
    | with_reducible refine State.keeps_upDict _ ?_ ?_
    | with_reducible assumption
    | with_reducible refine keeps_ite ?_ ?_
    | with_reducible refine keeps_foldl (fun _ _ _ => ?_) ?_
    | with_reducible refine keepsP_ite ?_ ?_
    | with_reducible refine keepsP_foldl (fun _ _ _ => ?_) ?_
    | split
    | with_reducible refine KeepsP.snd ?_
    | with_reducible refine keepsP_mk ?_
    | with_reducible refine KeepsP.out (by assumption) ?_
theorem State.defaults_keeps {P : List Part} {r : State} (s : State)
    (sub : ∀ p, p ∈ [.tabs, .dict, .perf] → p ∈ P) (h : r.keepsBut P s) : r.keepsBut P (State.defaults s) := by
  unfold State.defaults
  try dsimp only
  repeat' first
    | with_reducible exact h
    | (with_reducible refine sub _ ?_); decide
    | (with_reducible refine part_sub sub ?_); decide
    | with_reducible refine State.keeps_upDict _ ?_ ?_
    | with_reducible refine State.keeps_upPerf _ ?_ ?_
    | with_reducible refine State.keeps_upTabs _ ?_ ?_
    | with_reducible assumption
    | with_reducible refine keeps_ite ?_ ?_
    | with_reducible refine keeps_foldl (fun _ _ _ => ?_) ?_
    | split
theorem State.restore_keeps {P : List Part} {r : State} (s : State)
    (sub : ∀ p, p ∈ [.pwr, .media, .map, .care, .yoke, .atom, .keys, .reg, .tabs, .dict, .obs, .perf, .cmds] → p ∈ P) (h : r.keepsBut P s) : r.keepsBut P (State.restore s) := by
  unfold State.restore
  try dsimp only
  repeat' first
    | with_reducible exact h
    | (with_reducible refine sub _ ?_); decide
    | (with_reducible refine part_sub sub ?_); decide
    | with_reducible apply State.clearReservations_keeps
    | with_reducible apply State.defaults_keeps
    | with_reducible apply State.log_keeps
    | with_reducible apply State.measure_keeps
    | with_reducible apply State.recompute_keeps
    | with_reducible apply State.rekeyAfter_keeps
    | with_reducible apply State.rekeyDone_keeps
    | with_reducible refine State.keeps_upDict _ ?_ ?_
    | with_reducible assumption
    | with_reducible refine keeps_ite ?_ ?_
    | with_reducible refine keeps_foldl (fun _ _ _ => ?_) ?_
    | split

end Sys2Proof.Machine
end

