-- ==== Sys2Proof/Laws/KeepsSpans.lean ====
section
/-!
SUPPORT. What each operation of Machine/Spans.lean leaves unchanged: the groups of the state it may write, the others kept.
-/
namespace Sys2Proof.Machine

theorem State.refuse_keeps {P : List Part} {r : State} (i : Nat) (code : Nat) (s : State)
    (sub : ∀ p, p ∈ [.cmds] → p ∈ P) (h : r.keepsBut P s) : KeepsP r P (State.refuse i code s) := by
  unfold State.refuse
  try dsimp only
  repeat' first
    | with_reducible exact h
    | (with_reducible refine sub _ ?_); decide
    | (with_reducible refine part_sub sub ?_); decide
    | with_reducible apply State.setCtl_keeps
    | with_reducible assumption
    | with_reducible refine keeps_ite ?_ ?_
    | with_reducible refine keeps_foldl (fun _ _ _ => ?_) ?_
    | with_reducible refine keepsP_ite ?_ ?_
    | with_reducible refine keepsP_foldl (fun _ _ _ => ?_) ?_
    | split
    | with_reducible refine KeepsP.snd ?_
    | with_reducible refine keepsP_mk ?_
    | with_reducible refine KeepsP.out (by assumption) ?_
theorem State.begin_keeps {P : List Part} {r : State} (i : Nat) (base : Nat) (len : Nat) (s : State)
    (sub : ∀ p, p ∈ [.cmds] → p ∈ P) (h : r.keepsBut P s) : r.keepsBut P (State.begin i base len s) := by
  unfold State.begin
  try dsimp only
  repeat' first
    | with_reducible exact h
    | (with_reducible refine sub _ ?_); decide
    | (with_reducible refine part_sub sub ?_); decide
    | with_reducible apply State.putJob_keeps
    | with_reducible apply State.setCtl_keeps
    | with_reducible assumption
    | with_reducible refine keeps_ite ?_ ?_
    | with_reducible refine keeps_foldl (fun _ _ _ => ?_) ?_
    | split
theorem State.changeGrains_keeps {P : List Part} {r : State} (key : Nat) (code : Nat) (first : Nat) (count : Nat) (s : State)
    (sub : ∀ p, p ∈ [.pwr, .port, .reqs, .fc, .tier, .slices, .budget, .media, .map, .care, .yoke, .atom, .keys, .reg, .tabs, .mbox, .obs, .perf, .firkin, .rstats, .cmds] → p ∈ P) (h : r.keepsBut P s) : r.keepsBut P (State.changeGrains key code first count s) := by
  unfold State.changeGrains
  try dsimp only
  repeat' first
    | with_reducible exact h
    | (with_reducible refine sub _ ?_); decide
    | (with_reducible refine part_sub sub ?_); decide
    | with_reducible apply State.changeRun_keeps
    | with_reducible apply State.checkDies_keeps
    | with_reducible apply State.putJob_keeps
    | with_reducible apply State.sendChange_keeps
    | with_reducible apply State.setVal_keeps
    | with_reducible assumption
    | with_reducible refine keeps_ite ?_ ?_
    | with_reducible refine keeps_foldl (fun _ _ _ => ?_) ?_
    | split
theorem State.zeroLine_keeps {P : List Part} {r : State} (cmd : Nat) (line : Nat) (s : State)
    (sub : ∀ p, p ∈ [.reqs] → p ∈ P) (h : r.keepsBut P s) : r.keepsBut P (State.zeroLine cmd line s) := by
  unfold State.zeroLine
  try dsimp only
  repeat' first
    | with_reducible exact h
    | (with_reducible refine sub _ ?_); decide
    | (with_reducible refine part_sub sub ?_); decide
    | with_reducible refine State.keeps_upReqs _ ?_ ?_
    | with_reducible assumption
    | with_reducible refine keeps_ite ?_ ?_
    | with_reducible refine keeps_foldl (fun _ _ _ => ?_) ?_
    | split
theorem State.spanStart_keeps {P : List Part} {r : State} (w : Who) (i : Nat) (align : Nat) (run : State → State) (s : State)
    (sub : ∀ p, p ∈ [.cmds] → p ∈ P) (h : r.keepsBut P s) (hrun : ∀ t, r.keepsBut P t → r.keepsBut P (run t)) : KeepsP r P (State.spanStart w i align run s) := by
  unfold State.spanStart
  try dsimp only
  repeat' first
    | with_reducible exact h
    | (with_reducible refine sub _ ?_); decide
    | (with_reducible refine part_sub sub ?_); decide
    | with_reducible apply State.begin_keeps
    | with_reducible apply State.refuse_keeps
    | with_reducible apply State.setCtl_keeps
    | with_reducible apply State.setVal_keeps
    | with_reducible assumption
    | with_reducible refine keeps_ite ?_ ?_
    | with_reducible refine keeps_foldl (fun _ _ _ => ?_) ?_
    | with_reducible refine keepsP_ite ?_ ?_
    | with_reducible refine keepsP_foldl (fun _ _ _ => ?_) ?_
    | with_reducible refine hrun _ ?_
    | (with_reducible intro _ _); dsimp only
    | with_reducible intro _ _
    | split
    | with_reducible refine KeepsP.snd ?_
    | with_reducible refine keepsP_mk ?_
    | with_reducible refine KeepsP.out (by assumption) ?_
theorem State.zeroGrains_keeps {P : List Part} {r : State} (s : State)
    (sub : ∀ p, p ∈ [.pwr, .port, .reqs, .fc, .tier, .slices, .budget, .media, .map, .care, .yoke, .atom, .keys, .reg, .tabs, .mbox, .obs, .perf, .firkin, .rstats, .cmds] → p ∈ P) (h : r.keepsBut P s) : r.keepsBut P (State.zeroGrains s) := by
  unfold State.zeroGrains
  try dsimp only
  repeat' first
    | with_reducible exact h
    | (with_reducible refine sub _ ?_); decide
    | (with_reducible refine part_sub sub ?_); decide
    | with_reducible apply State.changeGrains_keeps
    | with_reducible apply State.putJob_keeps
    | with_reducible assumption
    | with_reducible refine keeps_ite ?_ ?_
    | with_reducible refine keeps_foldl (fun _ _ _ => ?_) ?_
    | split
theorem State.zeroRange_keeps {P : List Part} {r : State} (s : State)
    (sub : ∀ p, p ∈ [.pwr, .port, .reqs, .fc, .tier, .slices, .budget, .media, .map, .care, .yoke, .atom, .keys, .reg, .tabs, .mbox, .obs, .perf, .firkin, .rstats, .cmds] → p ∈ P) (h : r.keepsBut P s) : r.keepsBut P (State.zeroRange s) := by
  unfold State.zeroRange
  try dsimp only
  repeat' first
    | with_reducible exact h
    | (with_reducible refine sub _ ?_); decide
    | (with_reducible refine part_sub sub ?_); decide
    | with_reducible apply State.putJob_keeps
    | with_reducible apply State.zeroGrains_keeps
    | with_reducible apply State.zeroLine_keeps
    | with_reducible assumption
    | with_reducible refine keeps_ite ?_ ?_
    | with_reducible refine keeps_foldl (fun _ _ _ => ?_) ?_
    | split
theorem State.discardSpan_keeps {P : List Part} {r : State} (s : State)
    (sub : ∀ p, p ∈ [.pwr, .port, .reqs, .fc, .tier, .slices, .budget, .media, .map, .care, .yoke, .atom, .keys, .reg, .tabs, .mbox, .obs, .perf, .firkin, .rstats, .cmds] → p ∈ P) (h : r.keepsBut P s) : r.keepsBut P (State.discardSpan s) := by
  unfold State.discardSpan
  try dsimp only
  repeat' first
    | with_reducible exact h
    | (with_reducible refine sub _ ?_); decide
    | (with_reducible refine part_sub sub ?_); decide
    | with_reducible apply State.changeGrains_keeps
    | with_reducible assumption
    | with_reducible refine keeps_ite ?_ ?_
    | with_reducible refine keeps_foldl (fun _ _ _ => ?_) ?_
    | split
theorem State.eraseSpan_keeps {P : List Part} {r : State} (key : Nat) (base : Nat) (len : Nat) (s : State)
    (sub : ∀ p, p ∈ [.pwr, .port, .reqs, .fc, .tier, .slices, .budget, .media, .map, .care, .yoke, .atom, .keys, .reg, .tabs, .mbox, .obs, .perf, .firkin, .rstats, .cmds] → p ∈ P) (h : r.keepsBut P s) : r.keepsBut P (State.eraseSpan key base len s) := by
  unfold State.eraseSpan
  try dsimp only
  repeat' first
    | with_reducible exact h
    | (with_reducible refine sub _ ?_); decide
    | (with_reducible refine part_sub sub ?_); decide
    | with_reducible apply State.changeGrains_keeps
    | with_reducible apply State.eraseStage_keeps
    | with_reducible assumption
    | with_reducible refine keeps_ite ?_ ?_
    | with_reducible refine keeps_foldl (fun _ _ _ => ?_) ?_
    | split
theorem State.secureSpan_keeps {P : List Part} {r : State} (s : State)
    (sub : ∀ p, p ∈ [.pwr, .port, .reqs, .fc, .tier, .slices, .budget, .media, .map, .care, .yoke, .atom, .keys, .reg, .tabs, .mbox, .obs, .perf, .firkin, .rstats, .cmds] → p ∈ P) (h : r.keepsBut P s) : r.keepsBut P (State.secureSpan s) := by
  unfold State.secureSpan
  try dsimp only
  repeat' first
    | with_reducible exact h
    | (with_reducible refine sub _ ?_); decide
    | (with_reducible refine part_sub sub ?_); decide
    | with_reducible apply State.eraseSpan_keeps
    | with_reducible assumption
    | with_reducible refine keeps_ite ?_ ?_
    | with_reducible refine keeps_foldl (fun _ _ _ => ?_) ?_
    | split
theorem State.dropUnder_keeps {P : List Part} {r : State} (id : Nat) (s : State)
    (sub : ∀ p, p ∈ [.pwr, .reqs, .fc, .tier, .budget, .map, .atom, .obs, .cmds] → p ∈ P) (h : r.keepsBut P s) : r.keepsBut P (State.dropUnder id s) := by
  unfold State.dropUnder
  try dsimp only
  repeat' first
    | with_reducible exact h
    | (with_reducible refine sub _ ?_); decide
    | (with_reducible refine part_sub sub ?_); decide
    | with_reducible apply State.endRes_keeps
    | with_reducible apply State.releaseAll_keeps
    | with_reducible apply State.unpoison_keeps
    | with_reducible refine State.keeps_upBudget _ ?_ ?_
    | with_reducible refine State.keeps_upFc _ ?_ ?_
    | with_reducible refine State.keeps_upReqs _ ?_ ?_
    | with_reducible refine State.keeps_upTier _ ?_ ?_
    | with_reducible assumption
    | with_reducible refine keeps_ite ?_ ?_
    | with_reducible refine keeps_foldl (fun _ _ _ => ?_) ?_
    | split
theorem State.freshKey_keeps {P : List Part} {r : State} (id : Nat) (imported : Bool) (m : Option (BitVec 512)) (s : State)
    (sub : ∀ p, p ∈ [.clk, .keys, .obs, .perf] → p ∈ P) (h : r.keepsBut P s) : r.keepsBut P (State.freshKey id imported m s) := by
  unfold State.freshKey
  try dsimp only
  repeat' first
    | with_reducible exact h
    | (with_reducible refine sub _ ?_); decide
    | (with_reducible refine part_sub sub ?_); decide
    | with_reducible apply State.count_keeps
    | with_reducible apply State.measure_keeps
    | with_reducible refine State.keeps_upClk _ ?_ ?_
    | with_reducible refine State.keeps_upKeys _ ?_ ?_
    | with_reducible assumption
    | with_reducible refine keeps_ite ?_ ?_
    | with_reducible refine keeps_foldl (fun _ _ _ => ?_) ?_
    | split
theorem State.cryptoKey_keeps {P : List Part} {r : State} (id : Nat) (renew : Bool) (s : State)
    (sub : ∀ p, p ∈ [.clk, .pwr, .reqs, .fc, .tier, .budget, .map, .atom, .keys, .obs, .perf, .cmds] → p ∈ P) (h : r.keepsBut P s) : r.keepsBut P (State.cryptoKey id renew s) := by
  unfold State.cryptoKey
  try dsimp only
  repeat' first
    | with_reducible exact h
    | (with_reducible refine sub _ ?_); decide
    | (with_reducible refine part_sub sub ?_); decide
    | with_reducible apply State.destroyKey_keeps
    | with_reducible apply State.dropUnder_keeps
    | with_reducible apply State.freshKey_keeps
    | with_reducible apply State.mark_keeps
    | with_reducible refine State.keeps_upCmds _ ?_ ?_
    | with_reducible refine State.keeps_upKeys _ ?_ ?_
    | with_reducible assumption
    | with_reducible refine keeps_ite ?_ ?_
    | with_reducible refine keeps_foldl (fun _ _ _ => ?_) ?_
    | split
theorem State.cryptoStart_keeps {P : List Part} {r : State} (s : State)
    (sub : ∀ p, p ∈ [.clk, .pwr, .reqs, .fc, .tier, .budget, .map, .yoke, .atom, .keys, .obs, .perf, .cmds] → p ∈ P) (h : r.keepsBut P s) : KeepsP r P (State.cryptoStart s) := by
  unfold State.cryptoStart
  try dsimp only
  repeat' first
    | with_reducible exact h
    | (with_reducible refine sub _ ?_); decide
    | (with_reducible refine part_sub sub ?_); decide
    | with_reducible apply State.cryptoKey_keeps
    | with_reducible apply State.putJob_keeps
    | with_reducible apply State.refuse_keeps
    | with_reducible apply State.send_keeps
    | with_reducible apply State.setCtl_keeps
    | with_reducible assumption
    | with_reducible refine keeps_ite ?_ ?_
    | with_reducible refine keeps_foldl (fun _ _ _ => ?_) ?_
    | with_reducible refine keepsP_ite ?_ ?_
    | with_reducible refine keepsP_foldl (fun _ _ _ => ?_) ?_
    | split
    | with_reducible refine KeepsP.snd ?_
    | with_reducible refine keepsP_mk ?_
    | with_reducible refine KeepsP.out (by assumption) ?_
theorem State.sweepOne_keeps {P : List Part} {r : State} (s : State)
    (sub : ∀ p, p ∈ [.pwr, .tier, .budget, .media, .map, .care, .yoke, .keys, .reg, .tabs, .obs, .perf, .rstats, .cmds] → p ∈ P) (h : r.keepsBut P s) : r.keepsBut P (State.sweepOne s) := by
  unfold State.sweepOne
  try dsimp only
  repeat' first
    | with_reducible exact h
    | (with_reducible refine sub _ ?_); decide
    | (with_reducible refine part_sub sub ?_); decide
    | with_reducible apply State.checkDies_keeps
    | with_reducible apply State.finishRun_keeps
    | with_reducible apply State.retireKeys_keeps
    | with_reducible refine State.keeps_upCmds _ ?_ ?_
    | with_reducible assumption
    | with_reducible refine keeps_ite ?_ ?_
    | with_reducible refine keeps_foldl (fun _ _ _ => ?_) ?_
    | split
theorem State.scrubRun_keeps {P : List Part} {r : State} (base : Nat) (len : Nat) (flags : Nat) (s : State)
    (sub : ∀ p, p ∈ [.reg, .mbox, .cmds] → p ∈ P) (h : r.keepsBut P s) : r.keepsBut P (State.scrubRun base len flags s) := by
  unfold State.scrubRun
  try dsimp only
  repeat' first
    | with_reducible exact h
    | (with_reducible refine sub _ ?_); decide
    | (with_reducible refine part_sub sub ?_); decide
    | with_reducible apply State.askStrain_keeps
    | with_reducible apply State.putJob_keeps
    | with_reducible apply State.setCtl_keeps
    | with_reducible refine State.keeps_upCmds _ ?_ ?_
    | with_reducible refine State.keeps_upMbox _ ?_ ?_
    | with_reducible assumption
    | with_reducible refine keeps_ite ?_ ?_
    | with_reducible refine keeps_foldl (fun _ _ _ => ?_) ?_
    | split
theorem State.scrubStart_keeps {P : List Part} {r : State} (s : State)
    (sub : ∀ p, p ∈ [.reg, .mbox, .cmds] → p ∈ P) (h : r.keepsBut P s) : KeepsP r P (State.scrubStart s) := by
  unfold State.scrubStart
  try dsimp only
  repeat' first
    | with_reducible exact h
    | (with_reducible refine sub _ ?_); decide
    | (with_reducible refine part_sub sub ?_); decide
    | with_reducible apply State.refuse_keeps
    | with_reducible apply State.scrubRun_keeps
    | with_reducible assumption
    | with_reducible refine keeps_ite ?_ ?_
    | with_reducible refine keeps_foldl (fun _ _ _ => ?_) ?_
    | with_reducible refine keepsP_ite ?_ ?_
    | with_reducible refine keepsP_foldl (fun _ _ _ => ?_) ?_
    | split
    | with_reducible refine KeepsP.snd ?_
    | with_reducible refine keepsP_mk ?_
    | with_reducible refine KeepsP.out (by assumption) ?_
theorem State.scrubEnd_keeps {P : List Part} {r : State} (ctl : Nat) (s : State)
    (sub : ∀ p, p ∈ [.reg, .cmds] → p ∈ P) (h : r.keepsBut P s) : r.keepsBut P (State.scrubEnd ctl s) := by
  unfold State.scrubEnd
  try dsimp only
  repeat' first
    | with_reducible exact h
    | (with_reducible refine sub _ ?_); decide
    | (with_reducible refine part_sub sub ?_); decide
    | with_reducible apply State.dropJob_keeps
    | with_reducible apply State.giveLeave_keeps
    | with_reducible apply State.setCtl_keeps
    | with_reducible apply State.setVal_keeps
    | with_reducible assumption
    | with_reducible refine keeps_ite ?_ ?_
    | with_reducible refine keeps_foldl (fun _ _ _ => ?_) ?_
    | split
theorem State.leaveBrine_keeps {P : List Part} {r : State} (s : State)
    (sub : ∀ p, p ∈ [.care, .obs] → p ∈ P) (h : r.keepsBut P s) : r.keepsBut P (State.leaveBrine s) := by
  unfold State.leaveBrine
  try dsimp only
  repeat' first
    | with_reducible exact h
    | (with_reducible refine sub _ ?_); decide
    | (with_reducible refine part_sub sub ?_); decide
    | with_reducible apply State.log_keeps
    | with_reducible refine State.keeps_upCare _ ?_ ?_
    | with_reducible assumption
    | with_reducible refine keeps_ite ?_ ?_
    | with_reducible refine keeps_foldl (fun _ _ _ => ?_) ?_
    | split
theorem State.answerRelease_keeps {P : List Part} {r : State} (s : State)
    (sub : ∀ p, p ∈ [.care, .yoke, .obs, .perf, .cmds] → p ∈ P) (h : r.keepsBut P s) : r.keepsBut P (State.answerRelease s) := by
  unfold State.answerRelease
  try dsimp only
  repeat' first
    | with_reducible exact h
    | (with_reducible refine sub _ ?_); decide
    | (with_reducible refine part_sub sub ?_); decide
    | with_reducible apply State.dropJob_keeps
    | with_reducible apply State.leaveBrine_keeps
    | with_reducible apply State.send_keeps
    | with_reducible assumption
    | with_reducible refine keeps_ite ?_ ?_
    | with_reducible refine keeps_foldl (fun _ _ _ => ?_) ?_
    | split
theorem State.brineStart_keeps {P : List Part} {r : State} (s : State)
    (sub : ∀ p, p ∈ [.care, .yoke, .obs, .perf, .cmds] → p ∈ P) (h : r.keepsBut P s) : KeepsP r P (State.brineStart s) := by
  unfold State.brineStart
  try dsimp only
  repeat' first
    | with_reducible exact h
    | (with_reducible refine sub _ ?_); decide
    | (with_reducible refine part_sub sub ?_); decide
    | with_reducible apply State.leaveBrine_keeps
    | with_reducible apply State.putJob_keeps
    | with_reducible apply State.record_keeps
    | with_reducible apply State.refuse_keeps
    | with_reducible apply State.send_keeps
    | with_reducible apply State.setCtl_keeps
    | with_reducible assumption
    | with_reducible refine keeps_ite ?_ ?_
    | with_reducible refine keeps_foldl (fun _ _ _ => ?_) ?_
    | with_reducible refine keepsP_ite ?_ ?_
    | with_reducible refine keepsP_foldl (fun _ _ _ => ?_) ?_
    | split
    | with_reducible refine KeepsP.snd ?_
    | with_reducible refine keepsP_mk ?_
    | with_reducible refine KeepsP.out (by assumption) ?_
theorem State.cleanLine_keeps {P : List Part} {r : State} (line : Nat) (s : State)
    (sub : ∀ p, p ∈ [.reqs, .fc, .tier, .slices, .budget, .media, .reg, .obs, .perf, .rstats] → p ∈ P) (h : r.keepsBut P s) : KeepsP r P (State.cleanLine line s) := by
  unfold State.cleanLine
  try dsimp only
  repeat' first
    | with_reducible exact h
    | (with_reducible refine sub _ ?_); decide
    | (with_reducible refine part_sub sub ?_); decide
    | with_reducible apply State.fcPut_keeps
    | with_reducible apply State.pressSet_keeps
    | with_reducible apply State.tierWrite_keeps
    | with_reducible assumption
    | with_reducible refine keeps_ite ?_ ?_
    | with_reducible refine keeps_foldl (fun _ _ _ => ?_) ?_
    | with_reducible exact keepsO_get (by assumption)
    | with_reducible refine keepsO_map (fun _ _ => ?_) ?_
    | with_reducible refine keepsO_foldl (fun _ _ _ => ?_) ?_
    | exact keepsO_none
    | with_reducible refine keepsO_some ?_
    | with_reducible refine keepsP_ite ?_ ?_
    | with_reducible refine keepsP_foldl (fun _ _ _ => ?_) ?_
    | split
    | with_reducible refine KeepsP.snd ?_
    | with_reducible refine keepsP_mk ?_
    | with_reducible refine KeepsP.out (by assumption) ?_
    | with_reducible refine KeepsO.out (by assumption) ?_
theorem State.addVal_keeps {P : List Part} {r : State} (i : Nat) (x1 : Nat) (n : Nat) (s : State)
    (sub : ∀ p, p ∈ [.cmds] → p ∈ P) (h : r.keepsBut P s) : r.keepsBut P (State.addVal i x1 n s) := by
  unfold State.addVal
  try dsimp only
  repeat' first
    | with_reducible exact h
    | (with_reducible refine sub _ ?_); decide
    | (with_reducible refine part_sub sub ?_); decide
    | with_reducible apply State.setVal_keeps
    | with_reducible assumption
    | with_reducible refine keeps_ite ?_ ?_
    | with_reducible refine keeps_foldl (fun _ _ _ => ?_) ?_
    | split
theorem State.cleanSome_keeps {P : List Part} {r : State} (i : Nat) (s : State)
    (sub : ∀ p, p ∈ [.reqs, .fc, .tier, .slices, .budget, .media, .reg, .obs, .perf, .rstats, .cmds] → p ∈ P) (h : r.keepsBut P s) : r.keepsBut P (State.cleanSome i s) := by
  unfold State.cleanSome
  try dsimp only
  repeat' first
    | with_reducible exact h
    | (with_reducible refine sub _ ?_); decide
    | (with_reducible refine part_sub sub ?_); decide
    | with_reducible apply State.addVal_keeps
    | with_reducible apply State.cleanLine_keeps
    | with_reducible apply State.putJob_keeps
    | with_reducible assumption
    | with_reducible refine keeps_ite ?_ ?_
    | with_reducible refine keeps_foldl (fun _ _ _ => ?_) ?_
    | with_reducible refine keepsP_ite ?_ ?_
    | with_reducible refine keepsP_foldl (fun _ _ _ => ?_) ?_
    | split
    | with_reducible refine KeepsP.snd ?_
    | with_reducible refine keepsP_mk ?_
    | with_reducible refine KeepsP.out (by assumption) ?_
theorem State.invalidateSpan_keeps {P : List Part} {r : State} (j : Job) (s : State)
    (sub : ∀ p, p ∈ [.fc, .tier, .cmds] → p ∈ P) (h : r.keepsBut P s) : r.keepsBut P (State.invalidateSpan j s) := by
  unfold State.invalidateSpan
  try dsimp only
  repeat' first
    | with_reducible exact h
    | (with_reducible refine sub _ ?_); decide
    | (with_reducible refine part_sub sub ?_); decide
    | with_reducible apply State.addVal_keeps
    | with_reducible refine State.keeps_upFc _ ?_ ?_
    | with_reducible refine State.keeps_upTier _ ?_ ?_
    | with_reducible assumption
    | with_reducible refine keeps_ite ?_ ?_
    | with_reducible refine keeps_foldl (fun _ _ _ => ?_) ?_
    | split
theorem State.lockLine_keeps {P : List Part} {r : State} (line : Nat) (s : State)
    (sub : ∀ p, p ∈ [.reqs, .fc, .tier, .slices, .budget, .media, .reg, .obs, .perf, .rstats, .cmds] → p ∈ P) (h : r.keepsBut P s) : r.keepsBut P (State.lockLine line s) := by
  unfold State.lockLine
  try dsimp only
  repeat' first
    | with_reducible exact h
    | (with_reducible refine sub _ ?_); decide
    | (with_reducible refine part_sub sub ?_); decide
    | with_reducible apply State.addVal_keeps
    | with_reducible apply State.fcFill_keeps
    | with_reducible apply State.fcPut_keeps
    | with_reducible apply State.putJob_keeps
    | with_reducible apply State.startFetch_keeps
    | with_reducible apply State.tierTouch_keeps
    | with_reducible apply State.wakeSlice_keeps
    | with_reducible assumption
    | with_reducible refine keeps_ite ?_ ?_
    | with_reducible refine keeps_foldl (fun _ _ _ => ?_) ?_
    | split
theorem State.lockWaits_keeps {P : List Part} {r : State} (s : State)
    (sub : ∀ p, p ∈ [.slices, .media, .obs, .perf, .rstats, .cmds] → p ∈ P) (h : r.keepsBut P s) : r.keepsBut P (State.lockWaits s) := by
  unfold State.lockWaits
  try dsimp only
  repeat' first
    | with_reducible exact h
    | (with_reducible refine sub _ ?_); decide
    | (with_reducible refine part_sub sub ?_); decide
    | with_reducible apply State.putJob_keeps
    | with_reducible apply State.startFetch_keeps
    | with_reducible assumption
    | with_reducible refine keeps_ite ?_ ?_
    | with_reducible refine keeps_foldl (fun _ _ _ => ?_) ?_
    | split
theorem State.lockSome_keeps {P : List Part} {r : State} (s0 : State)
    (sub : ∀ p, p ∈ [.fc, .slices, .media, .obs, .perf, .rstats, .cmds] → p ∈ P) (h : r.keepsBut P s0) : r.keepsBut P (State.lockSome s0) := by
  unfold State.lockSome
  try dsimp only
  repeat' first
    | with_reducible exact h
    | (with_reducible refine sub _ ?_); decide
    | (with_reducible refine part_sub sub ?_); decide
    | with_reducible apply State.addVal_keeps
    | with_reducible apply State.fcPut_keeps
    | with_reducible apply State.lockWaits_keeps
    | with_reducible apply State.putJob_keeps
    | with_reducible assumption
    | with_reducible refine keeps_ite ?_ ?_
    | with_reducible refine keeps_foldl (fun _ _ _ => ?_) ?_
    | split
theorem State.maintRun_keeps {P : List Part} {r : State} (i : Nat) (base : Nat) (len : Nat) (flags : Nat) (s : State)
    (sub : ∀ p, p ∈ [.reqs, .fc, .tier, .slices, .budget, .media, .reg, .obs, .perf, .rstats, .cmds] → p ∈ P) (h : r.keepsBut P s) : r.keepsBut P (State.maintRun i base len flags s) := by
  unfold State.maintRun
  try dsimp only
  repeat' first
    | with_reducible exact h
    | (with_reducible refine sub _ ?_); decide
    | (with_reducible refine part_sub sub ?_); decide
    | with_reducible apply State.addVal_keeps
    | with_reducible apply State.cleanSome_keeps
    | with_reducible apply State.fcPut_keeps
    | with_reducible apply State.invalidateSpan_keeps
    | with_reducible apply State.lockLine_keeps
    | with_reducible apply State.putJob_keeps
    | with_reducible apply State.setCtl_keeps
    | with_reducible apply State.setVal_keeps
    | with_reducible apply State.zeroLine_keeps
    | with_reducible assumption
    | with_reducible refine keeps_ite ?_ ?_
    | with_reducible refine keeps_foldl (fun _ _ _ => ?_) ?_
    | split
theorem State.maintChecks_keeps {P : List Part} {r : State} (found : List (Nat × CacheFault)) (i : Nat) (base : Nat) (len : Nat) (s : State)
    (sub : ∀ p, p ∈ [.pwr, .port, .reqs, .fc, .tier, .slices, .budget, .media, .map, .care, .yoke, .atom, .keys, .reg, .dram, .gills, .dict, .mbox, .obs, .perf, .rstats, .fw, .cmds] → p ∈ P) (h : r.keepsBut P s) : r.keepsBut P (State.maintChecks found i base len s) := by
  unfold State.maintChecks
  try dsimp only
  repeat' first
    | with_reducible exact h
    | (with_reducible refine sub _ ?_); decide
    | (with_reducible refine part_sub sub ?_); decide
    | with_reducible apply State.checkFault_keeps
    | with_reducible assumption
    | with_reducible refine keeps_ite ?_ ?_
    | with_reducible refine keeps_foldl (fun _ _ _ => ?_) ?_
    | split
theorem State.maintStart_keeps {P : List Part} {r : State} (w : Who) (i : Nat) (found : List (Nat × CacheFault)) (s : State)
    (sub : ∀ p, p ∈ [.pwr, .port, .reqs, .fc, .tier, .slices, .budget, .media, .map, .care, .yoke, .atom, .keys, .reg, .dram, .gills, .dict, .mbox, .obs, .perf, .rstats, .fw, .cmds] → p ∈ P) (h : r.keepsBut P s) : KeepsP r P (State.maintStart w i found s) := by
  unfold State.maintStart
  try dsimp only
  repeat' first
    | with_reducible exact h
    | (with_reducible refine sub _ ?_); decide
    | (with_reducible refine part_sub sub ?_); decide
    | with_reducible apply State.maintChecks_keeps
    | with_reducible apply State.maintRun_keeps
    | with_reducible apply State.refuse_keeps
    | with_reducible apply State.setCtl_keeps
    | with_reducible apply State.setVal_keeps
    | with_reducible assumption
    | with_reducible refine keeps_ite ?_ ?_
    | with_reducible refine keeps_foldl (fun _ _ _ => ?_) ?_
    | with_reducible refine keepsP_ite ?_ ?_
    | with_reducible refine keepsP_foldl (fun _ _ _ => ?_) ?_
    | split
    | with_reducible refine KeepsP.snd ?_
    | with_reducible refine keepsP_mk ?_
    | with_reducible refine KeepsP.out (by assumption) ?_
theorem State.maintDone_keeps {P : List Part} {r : State} (i : Nat) (s : State)
    (sub : ∀ p, p ∈ [.reqs, .fc, .tier, .slices, .budget, .media, .reg, .obs, .perf, .rstats, .cmds] → p ∈ P) (h : r.keepsBut P s) : r.keepsBut P (State.maintDone i s) := by
  unfold State.maintDone
  try dsimp only
  repeat' first
    | with_reducible exact h
    | (with_reducible refine sub _ ?_); decide
    | (with_reducible refine part_sub sub ?_); decide
    | with_reducible apply State.cleanSome_keeps
    | with_reducible apply State.dropJob_keeps
    | with_reducible apply State.invalidateSpan_keeps
    | with_reducible apply State.lockSome_keeps
    | with_reducible apply State.setCtl_keeps
    | with_reducible assumption
    | with_reducible refine keeps_ite ?_ ?_
    | with_reducible refine keeps_foldl (fun _ _ _ => ?_) ?_
    | split

end Sys2Proof.Machine
end

