-- ==== Sys2Proof/Laws/KeepsCounters.lean ====
section
/-!
SUPPORT. What each operation of Machine/Counters.lean leaves unchanged: the groups of the state it may write, the others kept.
-/
namespace Sys2Proof.Machine

theorem State.snapshot_keeps {P : List Part} {r : State} (clear : Bool) (s : State)
    (sub : ∀ p, p ∈ [.perf] → p ∈ P) (h : r.keepsBut P s) : KeepsP r P (State.snapshot clear s) := by
  unfold State.snapshot
  try dsimp only
  repeat' first
    | with_reducible exact h
    | (with_reducible refine sub _ ?_); decide
    | (with_reducible refine part_sub sub ?_); decide
    | with_reducible refine State.keeps_upPerf _ ?_ ?_
    | with_reducible assumption
    | with_reducible refine keeps_ite ?_ ?_
    | with_reducible refine keeps_foldl (fun _ _ _ => ?_) ?_
    | with_reducible refine keepsP_ite ?_ ?_
    | with_reducible refine keepsP_foldl (fun _ _ _ => ?_) ?_
    | split
    | with_reducible refine KeepsP.snd ?_
    | with_reducible refine keepsP_mk ?_
    | with_reducible refine KeepsP.out (by assumption) ?_
theorem execCounterSnapshotReady_keeps {P : List Part} {r : State} (s : State)
    (sub : ∀ p, p ∈ [.perf] → p ∈ P) (h : r.keepsBut P s) : Answers r P (execCounterSnapshotReady s) := by
  unfold execCounterSnapshotReady
  try dsimp only
  repeat' first
    | with_reducible exact h
    | (with_reducible refine sub _ ?_); decide
    | (with_reducible refine part_sub sub ?_); decide
    | with_reducible refine State.keeps_upPerf _ ?_ ?_
    | with_reducible assumption
    | with_reducible refine keeps_ite ?_ ?_
    | with_reducible refine keeps_foldl (fun _ _ _ => ?_) ?_
    | with_reducible refine answers_next ?_
    | split
theorem execCounterWrap_keeps {P : List Part} {r : State} (block : Nat) (n : Nat) (addr : Nat) (partner : Nat) (s : State)
    (sub : ∀ p, p ∈ [.obs, .perf] → p ∈ P) (h : r.keepsBut P s) : Answers r P (execCounterWrap block n addr partner s) := by
  unfold execCounterWrap
  try dsimp only
  repeat' first
    | with_reducible exact h
    | (with_reducible refine sub _ ?_); decide
    | (with_reducible refine part_sub sub ?_); decide
    | with_reducible apply State.wrap_keeps
    | with_reducible assumption
    | with_reducible refine keeps_ite ?_ ?_
    | with_reducible refine keeps_foldl (fun _ _ _ => ?_) ?_
    | with_reducible refine answers_next ?_
    | split
theorem State.thaw_keeps {P : List Part} {r : State} (s : State)
    (sub : ∀ p, p ∈ [.obs, .perf, .firkin] → p ∈ P) (h : r.keepsBut P s) : r.keepsBut P (State.thaw s) := by
  unfold State.thaw
  try dsimp only
  repeat' first
    | with_reducible exact h
    | (with_reducible refine sub _ ?_); decide
    | (with_reducible refine part_sub sub ?_); decide
    | with_reducible apply State.closePeriod_keeps
    | with_reducible refine State.keeps_upFirkin _ ?_ ?_
    | with_reducible assumption
    | with_reducible refine keeps_ite ?_ ?_
    | with_reducible refine keeps_foldl (fun _ _ _ => ?_) ?_
    | split
theorem State.freeze_keeps {P : List Part} {r : State} (s : State)
    (sub : ∀ p, p ∈ [.firkin] → p ∈ P) (h : r.keepsBut P s) : r.keepsBut P (State.freeze s) := by
  unfold State.freeze
  try dsimp only
  repeat' first
    | with_reducible exact h
    | (with_reducible refine sub _ ?_); decide
    | (with_reducible refine part_sub sub ?_); decide
    | with_reducible refine State.keeps_upFirkin _ ?_ ?_
    | with_reducible assumption
    | with_reducible refine keeps_ite ?_ ?_
    | with_reducible refine keeps_foldl (fun _ _ _ => ?_) ?_
    | split
theorem execFirkinPeriodClose_keeps {P : List Part} {r : State} (s : State)
    (sub : ∀ p, p ∈ [.clk, .obs, .perf, .firkin] → p ∈ P) (h : r.keepsBut P s) : Answers r P (execFirkinPeriodClose s) := by
  unfold execFirkinPeriodClose
  try dsimp only
  repeat' first
    | with_reducible exact h
    | (with_reducible refine sub _ ?_); decide
    | (with_reducible refine part_sub sub ?_); decide
    | with_reducible apply State.closePeriod_keeps
    | with_reducible apply State.elapseTo_keeps
    | with_reducible assumption
    | with_reducible refine keeps_ite ?_ ?_
    | with_reducible refine keeps_foldl (fun _ _ _ => ?_) ?_
    | with_reducible refine answers_next ?_
    | split
theorem execFirkinAutoThaw_keeps {P : List Part} {r : State} (s : State)
    (sub : ∀ p, p ∈ [.clk, .obs, .perf, .firkin] → p ∈ P) (h : r.keepsBut P s) : Answers r P (execFirkinAutoThaw s) := by
  unfold execFirkinAutoThaw
  try dsimp only
  repeat' first
    | with_reducible exact h
    | (with_reducible refine sub _ ?_); decide
    | (with_reducible refine part_sub sub ?_); decide
    | with_reducible apply State.elapseTo_keeps
    | with_reducible apply State.log_keeps
    | with_reducible apply State.thaw_keeps
    | with_reducible assumption
    | with_reducible refine keeps_ite ?_ ?_
    | with_reducible refine keeps_foldl (fun _ _ _ => ?_) ?_
    | with_reducible refine answers_next ?_
    | split
theorem State.passPacket_keeps {P : List Part} {r : State} (n : Nat) (s : State)
    (sub : ∀ p, p ∈ [.obs] → p ∈ P) (h : r.keepsBut P s) : r.keepsBut P (State.passPacket n s) := by
  unfold State.passPacket
  try dsimp only
  repeat' first
    | with_reducible exact h
    | (with_reducible refine sub _ ?_); decide
    | (with_reducible refine part_sub sub ?_); decide
    | with_reducible apply State.settleOverrun_keeps
    | with_reducible refine State.keeps_upObs _ ?_ ?_
    | with_reducible assumption
    | with_reducible refine keeps_ite ?_ ?_
    | with_reducible refine keeps_foldl (fun _ _ _ => ?_) ?_
    | split
theorem State.dropRemainder_keeps {P : List Part} {r : State} (s : State)
    (sub : ∀ p, p ∈ [.dict, .obs] → p ∈ P) (h : r.keepsBut P s) : r.keepsBut P (State.dropRemainder s) := by
  unfold State.dropRemainder
  try dsimp only
  repeat' first
    | with_reducible exact h
    | (with_reducible refine sub _ ?_); decide
    | (with_reducible refine part_sub sub ?_); decide
    | with_reducible apply State.endTransfer_keeps
    | with_reducible apply State.passPacket_keeps
    | with_reducible refine State.keeps_upObs _ ?_ ?_
    | with_reducible assumption
    | with_reducible refine keeps_ite ?_ ?_
    | with_reducible refine keeps_foldl (fun _ _ _ => ?_) ?_
    | split
theorem State.clearOverrun_keeps {P : List Part} {r : State} (s : State)
    (sub : ∀ p, p ∈ [.obs] → p ∈ P) (h : r.keepsBut P s) : r.keepsBut P (State.clearOverrun s) := by
  unfold State.clearOverrun
  try dsimp only
  repeat' first
    | with_reducible exact h
    | (with_reducible refine sub _ ?_); decide
    | (with_reducible refine part_sub sub ?_); decide
    | with_reducible refine State.keeps_upObs _ ?_ ?_
    | with_reducible assumption
    | with_reducible refine keeps_ite ?_ ?_
    | with_reducible refine keeps_foldl (fun _ _ _ => ?_) ?_
    | split

end Sys2Proof.Machine
end

