-- ==== Sys2Proof/Laws/KeepsJudge.lean ====
section
/-!
SUPPORT. What each operation of Machine/Judge.lean leaves unchanged: the groups of the state it may write, the others kept.
-/
namespace Sys2Proof.Machine

theorem State.afterRead_keeps {P : List Part} {r : State} (i : Nat) (x1 : Nat) (bytes : Nat) (s : State)
    (sub : ∀ p, p ∈ [.obs] → p ∈ P) (h : r.keepsBut P s) : r.keepsBut P (State.afterRead i x1 bytes s) := by
  unfold State.afterRead
  try dsimp only
  repeat' first
    | with_reducible exact h
    | (with_reducible refine sub _ ?_); decide
    | (with_reducible refine part_sub sub ?_); decide
    | with_reducible apply State.clearOverrun_keeps
    | with_reducible apply State.passPacket_keeps
    | with_reducible assumption
    | with_reducible refine keeps_ite ?_ ?_
    | with_reducible refine keeps_foldl (fun _ _ _ => ?_) ?_
    | split
theorem State.putPassword_keeps {P : List Part} {r : State} (area : Nat) (kind : Nat) (pw : Bytes) (s : State)
    (sub : ∀ p, p ∈ [.dict, .obs, .perf] → p ∈ P) (h : r.keepsBut P s) : r.keepsBut P (State.putPassword area kind pw s) := by
  unfold State.putPassword
  try dsimp only
  repeat' first
    | with_reducible exact h
    | (with_reducible refine sub _ ?_); decide
    | (with_reducible refine part_sub sub ?_); decide
    | with_reducible apply State.log_keeps
    | with_reducible apply State.save_keeps
    | with_reducible refine State.keeps_upDict _ ?_ ?_
    | with_reducible assumption
    | with_reducible refine keeps_ite ?_ ?_
    | with_reducible refine keeps_foldl (fun _ _ _ => ?_) ?_
    | split
theorem State.present_keeps {P : List Part} {r : State} (x0 : Role) (area : Nat) (kind : Nat) (pw : Bytes) (s : State)
    (sub : ∀ p, p ∈ [.dict, .obs] → p ∈ P) (h : r.keepsBut P s) : KeepsP r P (State.present x0 area kind pw s) := by
  unfold State.present
  try dsimp only
  repeat' first
    | with_reducible exact h
    | (with_reducible refine sub _ ?_); decide
    | (with_reducible refine part_sub sub ?_); decide
    | with_reducible apply State.log_keeps
    | with_reducible refine State.keeps_upDict _ ?_ ?_
    | with_reducible assumption
    | with_reducible refine keeps_ite ?_ ?_
    | with_reducible refine keeps_foldl (fun _ _ _ => ?_) ?_
    | with_reducible refine keepsP_ite ?_ ?_
    | with_reducible refine keepsP_foldl (fun _ _ _ => ?_) ?_
    | split
    | with_reducible refine KeepsP.snd ?_
    | with_reducible refine keepsP_mk ?_
    | with_reducible refine KeepsP.out (by assumption) ?_
theorem State.unpresent_keeps {P : List Part} {r : State} (x0 : Role) (s : State)
    (sub : ∀ p, p ∈ [.dict] → p ∈ P) (h : r.keepsBut P s) : r.keepsBut P (State.unpresent x0 s) := by
  unfold State.unpresent
  try dsimp only
  repeat' first
    | with_reducible exact h
    | (with_reducible refine sub _ ?_); decide
    | (with_reducible refine part_sub sub ?_); decide
    | with_reducible refine State.keeps_upDict _ ?_ ?_
    | with_reducible assumption
    | with_reducible refine keeps_ite ?_ ?_
    | with_reducible refine keeps_foldl (fun _ _ _ => ?_) ?_
    | split
theorem State.noteRequest_keeps {P : List Part} {r : State} (x0 : Role) (s : State)
    (sub : ∀ p, p ∈ [.dict] → p ∈ P) (h : r.keepsBut P s) : r.keepsBut P (State.noteRequest x0 s) := by
  unfold State.noteRequest
  try dsimp only
  repeat' first
    | with_reducible exact h
    | (with_reducible refine sub _ ?_); decide
    | (with_reducible refine part_sub sub ?_); decide
    | with_reducible apply State.unpresent_keeps
    | with_reducible refine State.keeps_upDict _ ?_ ?_
    | with_reducible assumption
    | with_reducible refine keeps_ite ?_ ?_
    | with_reducible refine keeps_foldl (fun _ _ _ => ?_) ?_
    | split
theorem State.restoreStart_keeps {P : List Part} {r : State} (s : State)
    (sub : ∀ p, p ∈ [.pwr, .reqs, .fc, .tier, .slices, .budget, .media, .map, .care, .yoke, .atom, .keys, .reg, .tabs, .dict, .obs, .perf, .rstats, .cmds] → p ∈ P) (h : r.keepsBut P s) : KeepsP r P (State.restoreStart s) := by
  unfold State.restoreStart
  try dsimp only
  repeat' first
    | with_reducible exact h
    | (with_reducible refine sub _ ?_); decide
    | (with_reducible refine part_sub sub ?_); decide
    | with_reducible apply State.askStrain_keeps
    | with_reducible apply State.fcEnable_keeps
    | with_reducible apply State.rederive_keeps
    | with_reducible apply State.restore_keeps
    | with_reducible refine State.keeps_upDict _ ?_ ?_
    | with_reducible assumption
    | with_reducible refine keeps_ite ?_ ?_
    | with_reducible refine keeps_foldl (fun _ _ _ => ?_) ?_
    | with_reducible refine keepsP_ite ?_ ?_
    | with_reducible refine keepsP_foldl (fun _ _ _ => ?_) ?_
    | split
    | with_reducible refine KeepsP.snd ?_
    | with_reducible refine keepsP_mk ?_
    | with_reducible refine KeepsP.out (by assumption) ?_
theorem State.setSelector_keeps {P : List Part} {r : State} (x0 : Role) (i : Nat) (x2 : Nat) (n : Nat) (s : State)
    (sub : ∀ p, p ∈ [.dict] → p ∈ P) (h : r.keepsBut P s) : r.keepsBut P (State.setSelector x0 i x2 n s) := by
  unfold State.setSelector
  try dsimp only
  repeat' first
    | with_reducible exact h
    | (with_reducible refine sub _ ?_); decide
    | (with_reducible refine part_sub sub ?_); decide
    | with_reducible refine State.keeps_upDict _ ?_ ?_
    | with_reducible assumption
    | with_reducible refine keeps_ite ?_ ?_
    | with_reducible refine keeps_foldl (fun _ _ _ => ?_) ?_
    | split
theorem State.setCounter_keeps {P : List Part} {r : State} (block : Nat) (x1 : Nat) (n : Nat) (s : State)
    (sub : ∀ p, p ∈ [.perf] → p ∈ P) (h : r.keepsBut P s) : r.keepsBut P (State.setCounter block x1 n s) := by
  unfold State.setCounter
  try dsimp only
  repeat' first
    | with_reducible exact h
    | (with_reducible refine sub _ ?_); decide
    | (with_reducible refine part_sub sub ?_); decide
    | with_reducible refine State.keeps_upPerf _ ?_ ?_
    | with_reducible assumption
    | with_reducible refine keeps_ite ?_ ?_
    | with_reducible refine keeps_foldl (fun _ _ _ => ?_) ?_
    | split
theorem State.writeUser_keeps {P : List Part} {r : State} (off : Nat) (v : Bytes) (s : State)
    (sub : ∀ p, p ∈ [.dict, .obs, .perf] → p ∈ P) (h : r.keepsBut P s) : KeepsP r P (State.writeUser off v s) := by
  unfold State.writeUser
  try dsimp only
  repeat' first
    | with_reducible exact h
    | (with_reducible refine sub _ ?_); decide
    | (with_reducible refine part_sub sub ?_); decide
    | with_reducible apply State.save_keeps
    | with_reducible refine State.keeps_upDict _ ?_ ?_
    | with_reducible assumption
    | with_reducible refine keeps_ite ?_ ?_
    | with_reducible refine keeps_foldl (fun _ _ _ => ?_) ?_
    | with_reducible refine keepsP_ite ?_ ?_
    | with_reducible refine keepsP_foldl (fun _ _ _ => ?_) ?_
    | split
    | with_reducible refine KeepsP.snd ?_
    | with_reducible refine keepsP_mk ?_
    | with_reducible refine KeepsP.out (by assumption) ?_
theorem State.storeNow_keeps {P : List Part} {r : State} (w : Who) (row : Row) (i : Nat) (v : Bytes) (s : State)
    (sub : ∀ p, p ∈ [.pwr, .reqs, .fc, .tier, .slices, .budget, .media, .keys, .reg, .tabs, .dict, .obs, .perf, .rstats, .fw] → p ∈ P) (h : r.keepsBut P s) : KeepsP r P (State.storeNow w row i v s) := by
  unfold State.storeNow
  try dsimp only
  repeat' first
    | with_reducible exact h
    | (with_reducible refine sub _ ?_); decide
    | (with_reducible refine part_sub sub ?_); decide
    | with_reducible apply State.askStrain_keeps
    | with_reducible apply State.fcEnable_keeps
    | with_reducible apply State.fwChunk_keeps
    | with_reducible apply State.giveLeave_keeps
    | with_reducible apply State.log_keeps
    | with_reducible apply State.present_keeps
    | with_reducible apply State.putPassword_keeps
    | with_reducible apply State.rederive_keeps
    | with_reducible apply State.save_keeps
    | with_reducible apply State.setCounter_keeps
    | with_reducible apply State.setEntry_keeps
    | with_reducible apply State.setSelector_keeps
    | with_reducible apply State.writeUser_keeps
    | with_reducible refine State.keeps_upKeys _ ?_ ?_
    | with_reducible assumption
    | with_reducible refine keeps_ite ?_ ?_
    | with_reducible refine keeps_foldl (fun _ _ _ => ?_) ?_
    | with_reducible refine keepsP_ite ?_ ?_
    | with_reducible refine keepsP_foldl (fun _ _ _ => ?_) ?_
    | split
    | with_reducible refine KeepsP.snd ?_
    | with_reducible refine keepsP_mk ?_
    | with_reducible refine KeepsP.out (by assumption) ?_
theorem State.action_keeps {P : List Part} {r : State} (w : Who) (i : Nat) (x2 : Nat) (n : Nat) (found : Found) (s : State)
    (sub : ∀ p, p ∈ Part.most → p ∈ P) (h : r.keepsBut P s) : KeepsP r P (State.action w i x2 n found s) := by
  unfold State.action
  try dsimp only
  repeat' first
    | with_reducible exact h
    | (with_reducible refine sub _ ?_); decide
    | (with_reducible refine part_sub sub ?_); decide
    | with_reducible apply State.attestStart_keeps
    | with_reducible apply State.brineStart_keeps
    | with_reducible apply State.cryptoStart_keeps
    | with_reducible apply State.discard_keeps
    | with_reducible apply State.discardSpan_keeps
    | with_reducible apply State.dropRemainder_keeps
    | with_reducible apply State.freeze_keeps
    | with_reducible apply State.fwActivate_keeps
    | with_reducible apply State.fwBegin_keeps
    | with_reducible apply State.fwCancel_keeps
    | with_reducible apply State.fwVerify_keeps
    | with_reducible apply State.identifyStart_keeps
    | with_reducible apply State.identifyStop_keeps
    | with_reducible apply State.keyGenerate_keeps
    | with_reducible apply State.keyImport_keeps
    | with_reducible apply State.keyRegenerate_keeps
    | with_reducible apply State.maintStart_keeps
    | with_reducible apply State.needRetrain_keeps
    | with_reducible apply State.pairForceSole_keeps
    | with_reducible apply State.pairJoin_keeps
    | with_reducible apply State.pairLeave_keeps
    | with_reducible apply State.pairPrevail_keeps
    | with_reducible apply State.pairWithdraw_keeps
    | with_reducible apply State.prepareCancel_keeps
    | with_reducible apply State.prepareStart_keeps
    | with_reducible apply State.rekeyStart_keeps
    | with_reducible apply State.restoreStart_keeps
    | with_reducible apply State.scrubEnd_keeps
    | with_reducible apply State.scrubStart_keeps
    | with_reducible apply State.secureSpan_keeps
    | with_reducible apply State.selfTestCancel_keeps
    | with_reducible apply State.selfTestStart_keeps
    | with_reducible apply State.snapshot_keeps
    | with_reducible apply State.spanStart_keeps
    | with_reducible apply State.testEnter_keeps
    | with_reducible apply State.testLeave_keeps
    | with_reducible apply State.thaw_keeps
    | with_reducible apply State.unpresent_keeps
    | with_reducible apply State.zeroRange_keeps
    | with_reducible assumption
    | with_reducible refine keeps_ite ?_ ?_
    | with_reducible refine keeps_foldl (fun _ _ _ => ?_) ?_
    | with_reducible refine keepsP_ite ?_ ?_
    | with_reducible refine keepsP_foldl (fun _ _ _ => ?_) ?_
    | (with_reducible intro _ _); dsimp only
    | with_reducible intro _ _
    | split
    | with_reducible refine KeepsP.snd ?_
    | with_reducible refine keepsP_mk ?_
    | with_reducible refine KeepsP.out (by assumption) ?_
    | with_reducible refine keepsPP_mk ?_
    | with_reducible refine KeepsPP.snd ?_
    | with_reducible refine KeepsPP.out (by assumption) ?_
theorem State.writeChecked_keeps {P : List Part} {r : State} (q : DtpReq) (row : Row) (found : Found) (s : State)
    (sub : ∀ p, p ∈ Part.most → p ∈ P) (h : r.keepsBut P s) : KeepsP r P (State.writeChecked q row found s) := by
  unfold State.writeChecked
  try dsimp only
  repeat' first
    | with_reducible exact h
    | (with_reducible refine sub _ ?_); decide
    | (with_reducible refine part_sub sub ?_); decide
    | with_reducible apply State.action_keeps
    | with_reducible apply State.commit_keeps
    | with_reducible apply State.stage_keeps
    | with_reducible apply State.storeNow_keeps
    | with_reducible assumption
    | with_reducible refine keeps_ite ?_ ?_
    | with_reducible refine keeps_foldl (fun _ _ _ => ?_) ?_
    | with_reducible refine keepsP_ite ?_ ?_
    | with_reducible refine keepsP_foldl (fun _ _ _ => ?_) ?_
    | split
    | with_reducible refine KeepsP.snd ?_
    | with_reducible refine keepsP_mk ?_
    | with_reducible refine KeepsP.out (by assumption) ?_
theorem State.writeOf_keeps {P : List Part} {r : State} (q : DtpReq) (expedited : Bool) (found : Found) (s : State)
    (sub : ∀ p, p ∈ Part.most → p ∈ P) (h : r.keepsBut P s) : KeepsP r P (State.writeOf q expedited found s) := by
  unfold State.writeOf
  try dsimp only
  repeat' first
    | with_reducible exact h
    | (with_reducible refine sub _ ?_); decide
    | (with_reducible refine part_sub sub ?_); decide
    | with_reducible apply State.writeChecked_keeps
    | with_reducible assumption
    | with_reducible refine keeps_ite ?_ ?_
    | with_reducible refine keeps_foldl (fun _ _ _ => ?_) ?_
    | with_reducible refine keepsP_ite ?_ ?_
    | with_reducible refine keepsP_foldl (fun _ _ _ => ?_) ?_
    | split
    | with_reducible refine KeepsP.snd ?_
    | with_reducible refine keepsP_mk ?_
    | with_reducible refine KeepsP.out (by assumption) ?_

end Sys2Proof.Machine
end

