-- ==== Sys2Proof/Laws/KeepsDtp.lean ====
section
/-!
SUPPORT. What each operation of Machine/Dtp.lean leaves unchanged: the groups of the state it may write, the others kept.
-/
namespace Sys2Proof.Machine

theorem State.answerDtp_keeps {P : List Part} {r : State} (q : DtpReq) (code : Nat) (data : Bytes) (s : State)
    (sub : ∀ p, p ∈ [.dict, .mbox, .obs] → p ∈ P) (h : r.keepsBut P s) : r.keepsBut P (State.answerDtp q code data s) := by
  unfold State.answerDtp
  try dsimp only
  repeat' first
    | with_reducible exact h
    | (with_reducible refine sub _ ?_); decide
    | (with_reducible refine part_sub sub ?_); decide
    | with_reducible apply State.reply_keeps
    | with_reducible assumption
    | with_reducible refine keeps_ite ?_ ?_
    | with_reducible refine keeps_foldl (fun _ _ _ => ?_) ?_
    | split
theorem State.endWrite_keeps {P : List Part} {r : State} (q : DtpReq) (x : Option Nat × State)
    (sub : ∀ p, p ∈ [.dict, .mbox, .obs] → p ∈ P) (h : KeepsP r P x) : r.keepsBut P (State.endWrite q x) := by
  unfold State.endWrite
  try dsimp only
  repeat' first
    | with_reducible exact h
    | (with_reducible refine sub _ ?_); decide
    | (with_reducible refine part_sub sub ?_); decide
    | with_reducible apply State.answerDtp_keeps
    | with_reducible assumption
    | with_reducible refine keeps_ite ?_ ?_
    | with_reducible refine keeps_foldl (fun _ _ _ => ?_) ?_
    | split
    | with_reducible refine KeepsP.snd ?_
    | with_reducible refine keepsP_mk ?_
    | with_reducible refine KeepsP.out (by assumption) ?_
theorem State.dtpReadNow_keeps {P : List Part} {r : State} (q : DtpReq) (s : State)
    (sub : ∀ p, p ∈ [.dict, .mbox, .obs] → p ∈ P) (h : r.keepsBut P s) : r.keepsBut P (State.dtpReadNow q s) := by
  unfold State.dtpReadNow
  try dsimp only
  repeat' first
    | with_reducible exact h
    | (with_reducible refine sub _ ?_); decide
    | (with_reducible refine part_sub sub ?_); decide
    | with_reducible apply State.afterRead_keeps
    | with_reducible apply State.answerDtp_keeps
    | with_reducible assumption
    | with_reducible refine keeps_ite ?_ ?_
    | with_reducible refine keeps_foldl (fun _ _ _ => ?_) ?_
    | split
theorem State.dtpWriteNow_keeps {P : List Part} {r : State} (q : DtpReq) (found : Found) (s : State)
    (sub : ∀ p, p ∈ Part.most → p ∈ P) (h : r.keepsBut P s) : r.keepsBut P (State.dtpWriteNow q found s) := by
  unfold State.dtpWriteNow
  try dsimp only
  repeat' first
    | with_reducible exact h
    | (with_reducible refine sub _ ?_); decide
    | (with_reducible refine part_sub sub ?_); decide
    | with_reducible apply State.endWrite_keeps
    | with_reducible apply State.writeOf_keeps
    | with_reducible assumption
    | with_reducible refine keeps_ite ?_ ?_
    | with_reducible refine keeps_foldl (fun _ _ _ => ?_) ?_
    | with_reducible refine keepsP_ite ?_ ?_
    | with_reducible refine keepsP_foldl (fun _ _ _ => ?_) ?_
    | split
    | with_reducible refine KeepsP.snd ?_
    | with_reducible refine keepsP_mk ?_
    | with_reducible refine KeepsP.out (by assumption) ?_
theorem State.putTransfer_keeps {P : List Part} {r : State} (x0 : Route) (t : Transfer) (s : State)
    (sub : ∀ p, p ∈ [.dict] → p ∈ P) (h : r.keepsBut P s) : r.keepsBut P (State.putTransfer x0 t s) := by
  unfold State.putTransfer
  try dsimp only
  repeat' first
    | with_reducible exact h
    | (with_reducible refine sub _ ?_); decide
    | (with_reducible refine part_sub sub ?_); decide
    | with_reducible refine State.keeps_upDict _ ?_ ?_
    | with_reducible assumption
    | with_reducible refine keeps_ite ?_ ?_
    | with_reducible refine keeps_foldl (fun _ _ _ => ?_) ?_
    | split
theorem State.closeTransfer_keeps {P : List Part} {r : State} (x0 : Route) (s : State)
    (sub : ∀ p, p ∈ [.dict, .obs] → p ∈ P) (h : r.keepsBut P s) : r.keepsBut P (State.closeTransfer x0 s) := by
  unfold State.closeTransfer
  try dsimp only
  repeat' first
    | with_reducible exact h
    | (with_reducible refine sub _ ?_); decide
    | (with_reducible refine part_sub sub ?_); decide
    | with_reducible refine State.keeps_upDict _ ?_ ?_
    | with_reducible refine State.keeps_upObs _ ?_ ?_
    | with_reducible assumption
    | with_reducible refine keeps_ite ?_ ?_
    | with_reducible refine keeps_foldl (fun _ _ _ => ?_) ?_
    | split
theorem State.readInitiate_keeps {P : List Part} {r : State} (q : DtpReq) (s : State)
    (sub : ∀ p, p ∈ [.dict, .mbox, .obs] → p ∈ P) (h : r.keepsBut P s) : r.keepsBut P (State.readInitiate q s) := by
  unfold State.readInitiate
  try dsimp only
  repeat' first
    | with_reducible exact h
    | (with_reducible refine sub _ ?_); decide
    | (with_reducible refine part_sub sub ?_); decide
    | with_reducible apply State.answerDtp_keeps
    | with_reducible apply State.putTransfer_keeps
    | with_reducible refine State.keeps_upObs _ ?_ ?_
    | with_reducible assumption
    | with_reducible refine keeps_ite ?_ ?_
    | with_reducible refine keeps_foldl (fun _ _ _ => ?_) ?_
    | split
theorem State.writeInitiate_keeps {P : List Part} {r : State} (q : DtpReq) (s : State)
    (sub : ∀ p, p ∈ [.dict, .mbox, .obs] → p ∈ P) (h : r.keepsBut P s) : r.keepsBut P (State.writeInitiate q s) := by
  unfold State.writeInitiate
  try dsimp only
  repeat' first
    | with_reducible exact h
    | (with_reducible refine sub _ ?_); decide
    | (with_reducible refine part_sub sub ?_); decide
    | with_reducible apply State.answerDtp_keeps
    | with_reducible apply State.putTransfer_keeps
    | with_reducible assumption
    | with_reducible refine keeps_ite ?_ ?_
    | with_reducible refine keeps_foldl (fun _ _ _ => ?_) ?_
    | split
theorem State.readSegment_keeps {P : List Part} {r : State} (q : DtpReq) (s : State)
    (sub : ∀ p, p ∈ [.dict, .mbox, .obs] → p ∈ P) (h : r.keepsBut P s) : r.keepsBut P (State.readSegment q s) := by
  unfold State.readSegment
  try dsimp only
  repeat' first
    | with_reducible exact h
    | (with_reducible refine sub _ ?_); decide
    | (with_reducible refine part_sub sub ?_); decide
    | with_reducible apply State.afterRead_keeps
    | with_reducible apply State.answerDtp_keeps
    | with_reducible apply State.closeTransfer_keeps
    | with_reducible apply State.putTransfer_keeps
    | with_reducible assumption
    | with_reducible refine keeps_ite ?_ ?_
    | with_reducible refine keeps_foldl (fun _ _ _ => ?_) ?_
    | split
theorem State.writeSegment_keeps {P : List Part} {r : State} (q : DtpReq) (s : State)
    (sub : ∀ p, p ∈ Part.most → p ∈ P) (h : r.keepsBut P s) : r.keepsBut P (State.writeSegment q s) := by
  unfold State.writeSegment
  try dsimp only
  repeat' first
    | with_reducible exact h
    | (with_reducible refine sub _ ?_); decide
    | (with_reducible refine part_sub sub ?_); decide
    | with_reducible apply State.answerDtp_keeps
    | with_reducible apply State.closeTransfer_keeps
    | with_reducible apply State.endWrite_keeps
    | with_reducible apply State.putTransfer_keeps
    | with_reducible apply State.writeOf_keeps
    | with_reducible assumption
    | with_reducible refine keeps_ite ?_ ?_
    | with_reducible refine keeps_foldl (fun _ _ _ => ?_) ?_
    | with_reducible refine keepsP_ite ?_ ?_
    | with_reducible refine keepsP_foldl (fun _ _ _ => ?_) ?_
    | split
    | with_reducible refine KeepsP.snd ?_
    | with_reducible refine keepsP_mk ?_
    | with_reducible refine KeepsP.out (by assumption) ?_
theorem State.dtpAbortNow_keeps {P : List Part} {r : State} (q : DtpReq) (s : State)
    (sub : ∀ p, p ∈ [.dict, .mbox, .obs] → p ∈ P) (h : r.keepsBut P s) : r.keepsBut P (State.dtpAbortNow q s) := by
  unfold State.dtpAbortNow
  try dsimp only
  repeat' first
    | with_reducible exact h
    | (with_reducible refine sub _ ?_); decide
    | (with_reducible refine part_sub sub ?_); decide
    | with_reducible apply State.answerDtp_keeps
    | with_reducible apply State.closeTransfer_keeps
    | with_reducible assumption
    | with_reducible refine keeps_ite ?_ ?_
    | with_reducible refine keeps_foldl (fun _ _ _ => ?_) ?_
    | split
theorem State.writeWhole_keeps {P : List Part} {r : State} (q : DtpReq) (s : State)
    (sub : ∀ p, p ∈ Part.most → p ∈ P) (h : r.keepsBut P s) : r.keepsBut P (State.writeWhole q s) := by
  unfold State.writeWhole
  try dsimp only
  repeat' first
    | with_reducible exact h
    | (with_reducible refine sub _ ?_); decide
    | (with_reducible refine part_sub sub ?_); decide
    | with_reducible apply State.answerDtp_keeps
    | with_reducible apply State.endWrite_keeps
    | with_reducible apply State.writeOf_keeps
    | with_reducible assumption
    | with_reducible refine keeps_ite ?_ ?_
    | with_reducible refine keeps_foldl (fun _ _ _ => ?_) ?_
    | with_reducible refine keepsP_ite ?_ ?_
    | with_reducible refine keepsP_foldl (fun _ _ _ => ?_) ?_
    | split
    | with_reducible refine KeepsP.snd ?_
    | with_reducible refine keepsP_mk ?_
    | with_reducible refine KeepsP.out (by assumption) ?_
theorem State.runDtp_keeps {P : List Part} {r : State} (q : DtpReq) (found : Found) (s : State)
    (sub : ∀ p, p ∈ Part.most → p ∈ P) (h : r.keepsBut P s) : r.keepsBut P (State.runDtp q found s) := by
  unfold State.runDtp
  try dsimp only
  repeat' first
    | with_reducible exact h
    | (with_reducible refine sub _ ?_); decide
    | (with_reducible refine part_sub sub ?_); decide
    | with_reducible apply State.answerDtp_keeps
    | with_reducible apply State.count_keeps
    | with_reducible apply State.dtpAbortNow_keeps
    | with_reducible apply State.dtpReadNow_keeps
    | with_reducible apply State.dtpWriteNow_keeps
    | with_reducible apply State.noteRequest_keeps
    | with_reducible apply State.readInitiate_keeps
    | with_reducible apply State.readSegment_keeps
    | with_reducible apply State.writeInitiate_keeps
    | with_reducible apply State.writeSegment_keeps
    | with_reducible apply State.writeWhole_keeps
    | with_reducible assumption
    | with_reducible refine keeps_ite ?_ ?_
    | with_reducible refine keeps_foldl (fun _ _ _ => ?_) ?_
    | split
theorem State.takeDtp_keeps {P : List Part} {r : State} (q : DtpReq) (found : Found) (s : State)
    (sub : ∀ p, p ∈ Part.most → p ∈ P) (h : r.keepsBut P s) : r.keepsBut P (State.takeDtp q found s) := by
  unfold State.takeDtp
  try dsimp only
  repeat' first
    | with_reducible exact h
    | (with_reducible refine sub _ ?_); decide
    | (with_reducible refine part_sub sub ?_); decide
    | with_reducible apply State.mboxRespond_keeps
    | with_reducible apply State.runDtp_keeps
    | with_reducible refine State.keeps_upDict _ ?_ ?_
    | with_reducible assumption
    | with_reducible refine keeps_ite ?_ ?_
    | with_reducible refine keeps_foldl (fun _ _ _ => ?_) ?_
    | split
theorem State.serveWaiting_keeps {P : List Part} {r : State} (s : State)
    (sub : ∀ p, p ∈ Part.most → p ∈ P) (h : r.keepsBut P s) : r.keepsBut P (State.serveWaiting s) := by
  unfold State.serveWaiting
  try dsimp only
  repeat' first
    | with_reducible exact h
    | (with_reducible refine sub _ ?_); decide
    | (with_reducible refine part_sub sub ?_); decide
    | with_reducible apply State.runDtp_keeps
    | with_reducible refine State.keeps_upDict _ ?_ ?_
    | with_reducible assumption
    | with_reducible refine keeps_ite ?_ ?_
    | with_reducible refine keeps_foldl (fun _ _ _ => ?_) ?_
    | split
theorem State.takeBytes_keeps {P : List Part} {r : State} (w : Who) (msg : Bytes) (s : State)
    (sub : ∀ p, p ∈ Part.most → p ∈ P) (h : r.keepsBut P s) : r.keepsBut P (State.takeBytes w msg s) := by
  unfold State.takeBytes
  try dsimp only
  repeat' first
    | with_reducible exact h
    | (with_reducible refine sub _ ?_); decide
    | (with_reducible refine part_sub sub ?_); decide
    | with_reducible apply State.takeDtp_keeps
    | with_reducible assumption
    | with_reducible refine keeps_ite ?_ ?_
    | with_reducible refine keeps_foldl (fun _ _ _ => ?_) ?_
    | split
theorem State.writeRow_keeps {P : List Part} {r : State} (w : Who) (index : Nat) (x2 : Nat) (data : Bytes) (s : State)
    (sub : ∀ p, p ∈ Part.most → p ∈ P) (h : r.keepsBut P s) : r.keepsBut P (State.writeRow w index x2 data s) := by
  unfold State.writeRow
  try dsimp only
  repeat' first
    | with_reducible exact h
    | (with_reducible refine sub _ ?_); decide
    | (with_reducible refine part_sub sub ?_); decide
    | with_reducible apply State.takeDtp_keeps
    | with_reducible assumption
    | with_reducible refine keeps_ite ?_ ?_
    | with_reducible refine keeps_foldl (fun _ _ _ => ?_) ?_
    | split
theorem State.wholeRow_keeps {P : List Part} {r : State} (w : Who) (index : Nat) (x2 : Nat) (data : Bytes) (s : State)
    (sub : ∀ p, p ∈ Part.most → p ∈ P) (h : r.keepsBut P s) : r.keepsBut P (State.wholeRow w index x2 data s) := by
  unfold State.wholeRow
  try dsimp only
  repeat' first
    | with_reducible exact h
    | (with_reducible refine sub _ ?_); decide
    | (with_reducible refine part_sub sub ?_); decide
    | with_reducible apply State.takeDtp_keeps
    | with_reducible apply State.writeRow_keeps
    | with_reducible assumption
    | with_reducible refine keeps_ite ?_ ?_
    | with_reducible refine keeps_foldl (fun _ _ _ => ?_) ?_
    | split
theorem State.cmdRow_keeps {P : List Part} {r : State} (w : Who) (index : Nat) (x2 : Nat) (n : Nat) (s : State)
    (sub : ∀ p, p ∈ Part.most → p ∈ P) (h : r.keepsBut P s) : r.keepsBut P (State.cmdRow w index x2 n s) := by
  unfold State.cmdRow
  try dsimp only
  repeat' first
    | with_reducible exact h
    | (with_reducible refine sub _ ?_); decide
    | (with_reducible refine part_sub sub ?_); decide
    | with_reducible apply State.writeRow_keeps
    | with_reducible assumption
    | with_reducible refine keeps_ite ?_ ?_
    | with_reducible refine keeps_foldl (fun _ _ _ => ?_) ?_
    | split
theorem execDtpRead_keeps {P : List Part} {r : State} (w : Who) (tid : Nat) (index : Nat) (x3 : Nat) (s : State)
    (sub : ∀ p, p ∈ Part.most → p ∈ P) (h : r.keepsBut P s) : Answers r P (execDtpRead w tid index x3 s) := by
  unfold execDtpRead
  try dsimp only
  repeat' first
    | with_reducible exact h
    | (with_reducible refine sub _ ?_); decide
    | (with_reducible refine part_sub sub ?_); decide
    | with_reducible apply State.takeDtp_keeps
    | with_reducible assumption
    | with_reducible refine keeps_ite ?_ ?_
    | with_reducible refine keeps_foldl (fun _ _ _ => ?_) ?_
    | with_reducible refine answers_next ?_
    | split
theorem execDtpWrite_keeps {P : List Part} {r : State} (w : Who) (tid : Nat) (index : Nat) (x3 : Nat) (data : Bytes) (s : State)
    (sub : ∀ p, p ∈ Part.most → p ∈ P) (h : r.keepsBut P s) : Answers r P (execDtpWrite w tid index x3 data s) := by
  unfold execDtpWrite
  try dsimp only
  repeat' first
    | with_reducible exact h
    | (with_reducible refine sub _ ?_); decide
    | (with_reducible refine part_sub sub ?_); decide
    | with_reducible apply State.takeDtp_keeps
    | with_reducible assumption
    | with_reducible refine keeps_ite ?_ ?_
    | with_reducible refine keeps_foldl (fun _ _ _ => ?_) ?_
    | with_reducible refine answers_next ?_
    | split
theorem execDtpReadInitiate_keeps {P : List Part} {r : State} (w : Who) (tid : Nat) (index : Nat) (x3 : Nat) (s : State)
    (sub : ∀ p, p ∈ Part.most → p ∈ P) (h : r.keepsBut P s) : Answers r P (execDtpReadInitiate w tid index x3 s) := by
  unfold execDtpReadInitiate
  try dsimp only
  repeat' first
    | with_reducible exact h
    | (with_reducible refine sub _ ?_); decide
    | (with_reducible refine part_sub sub ?_); decide
    | with_reducible apply State.takeDtp_keeps
    | with_reducible assumption
    | with_reducible refine keeps_ite ?_ ?_
    | with_reducible refine keeps_foldl (fun _ _ _ => ?_) ?_
    | with_reducible refine answers_next ?_
    | split
theorem execDtpReadSegment_keeps {P : List Part} {r : State} (w : Who) (tid : Nat) (toggle : Bool) (s : State)
    (sub : ∀ p, p ∈ Part.most → p ∈ P) (h : r.keepsBut P s) : Answers r P (execDtpReadSegment w tid toggle s) := by
  unfold execDtpReadSegment
  try dsimp only
  repeat' first
    | with_reducible exact h
    | (with_reducible refine sub _ ?_); decide
    | (with_reducible refine part_sub sub ?_); decide
    | with_reducible apply State.takeDtp_keeps
    | with_reducible assumption
    | with_reducible refine keeps_ite ?_ ?_
    | with_reducible refine keeps_foldl (fun _ _ _ => ?_) ?_
    | with_reducible refine answers_next ?_
    | split
theorem execDtpWriteInitiate_keeps {P : List Part} {r : State} (w : Who) (tid : Nat) (index : Nat) (x3 : Nat) (total : Nat) (s : State)
    (sub : ∀ p, p ∈ Part.most → p ∈ P) (h : r.keepsBut P s) : Answers r P (execDtpWriteInitiate w tid index x3 total s) := by
  unfold execDtpWriteInitiate
  try dsimp only
  repeat' first
    | with_reducible exact h
    | (with_reducible refine sub _ ?_); decide
    | (with_reducible refine part_sub sub ?_); decide
    | with_reducible apply State.takeDtp_keeps
    | with_reducible assumption
    | with_reducible refine keeps_ite ?_ ?_
    | with_reducible refine keeps_foldl (fun _ _ _ => ?_) ?_
    | with_reducible refine answers_next ?_
    | split
theorem execDtpWriteSegment_keeps {P : List Part} {r : State} (w : Who) (tid : Nat) (toggle : Bool) (last : Bool) (data : Bytes) (s : State)
    (sub : ∀ p, p ∈ Part.most → p ∈ P) (h : r.keepsBut P s) : Answers r P (execDtpWriteSegment w tid toggle last data s) := by
  unfold execDtpWriteSegment
  try dsimp only
  repeat' first
    | with_reducible exact h
    | (with_reducible refine sub _ ?_); decide
    | (with_reducible refine part_sub sub ?_); decide
    | with_reducible apply State.takeDtp_keeps
    | with_reducible assumption
    | with_reducible refine keeps_ite ?_ ?_
    | with_reducible refine keeps_foldl (fun _ _ _ => ?_) ?_
    | with_reducible refine answers_next ?_
    | split
theorem execDtpAbort_keeps {P : List Part} {r : State} (w : Who) (tid : Nat) (code : Nat) (s : State)
    (sub : ∀ p, p ∈ Part.most → p ∈ P) (h : r.keepsBut P s) : Answers r P (execDtpAbort w tid code s) := by
  unfold execDtpAbort
  try dsimp only
  repeat' first
    | with_reducible exact h
    | (with_reducible refine sub _ ?_); decide
    | (with_reducible refine part_sub sub ?_); decide
    | with_reducible apply State.takeDtp_keeps
    | with_reducible assumption
    | with_reducible refine keeps_ite ?_ ?_
    | with_reducible refine keeps_foldl (fun _ _ _ => ?_) ?_
    | with_reducible refine answers_next ?_
    | split
theorem execSegmentTimeout_keeps {P : List Part} {r : State} (route : Route) (s : State)
    (sub : ∀ p, p ∈ [.clk, .dict, .obs, .perf] → p ∈ P) (h : r.keepsBut P s) : Answers r P (execSegmentTimeout route s) := by
  unfold execSegmentTimeout
  try dsimp only
  repeat' first
    | with_reducible exact h
    | (with_reducible refine sub _ ?_); decide
    | (with_reducible refine part_sub sub ?_); decide
    | with_reducible apply State.elapseTo_keeps
    | with_reducible apply State.endTransfer_keeps
    | with_reducible assumption
    | with_reducible refine keeps_ite ?_ ?_
    | with_reducible refine keeps_foldl (fun _ _ _ => ?_) ?_
    | with_reducible refine answers_next ?_
    | split
theorem execDictionaryWrite_keeps {P : List Part} {r : State} (w : Who) (index : Nat) (x2 : Nat) (data : Bytes) (s : State)
    (sub : ∀ p, p ∈ Part.most → p ∈ P) (h : r.keepsBut P s) : Answers r P (execDictionaryWrite w index x2 data s) := by
  unfold execDictionaryWrite
  try dsimp only
  repeat' first
    | with_reducible exact h
    | (with_reducible refine sub _ ?_); decide
    | (with_reducible refine part_sub sub ?_); decide
    | with_reducible apply State.wholeRow_keeps
    | with_reducible assumption
    | with_reducible refine keeps_ite ?_ ?_
    | with_reducible refine keeps_foldl (fun _ _ _ => ?_) ?_
    | with_reducible refine answers_next ?_
    | split
theorem execCommitBatch_keeps {P : List Part} {r : State} (w : Who) (logFault : Bool) (s : State)
    (sub : ∀ p, p ∈ Part.most → p ∈ P) (h : r.keepsBut P s) : Answers r P (execCommitBatch w logFault s) := by
  unfold execCommitBatch
  try dsimp only
  repeat' first
    | with_reducible exact h
    | (with_reducible refine sub _ ?_); decide
    | (with_reducible refine part_sub sub ?_); decide
    | with_reducible apply State.takeDtp_keeps
    | with_reducible assumption
    | with_reducible refine keeps_ite ?_ ?_
    | with_reducible refine keeps_foldl (fun _ _ _ => ?_) ?_
    | with_reducible refine answers_next ?_
    | split
theorem execDiscardBatch_keeps {P : List Part} {r : State} (w : Who) (s : State)
    (sub : ∀ p, p ∈ Part.most → p ∈ P) (h : r.keepsBut P s) : Answers r P (execDiscardBatch w s) := by
  unfold execDiscardBatch
  try dsimp only
  repeat' first
    | with_reducible exact h
    | (with_reducible refine sub _ ?_); decide
    | (with_reducible refine part_sub sub ?_); decide
    | with_reducible apply State.cmdRow_keeps
    | with_reducible assumption
    | with_reducible refine keeps_ite ?_ ?_
    | with_reducible refine keeps_foldl (fun _ _ _ => ?_) ?_
    | with_reducible refine answers_next ?_
    | split
theorem execPasswordPresent_keeps {P : List Part} {r : State} (w : Who) (area : Nat) (kind : Nat) (pw : Bytes) (s : State)
    (sub : ∀ p, p ∈ Part.most → p ∈ P) (h : r.keepsBut P s) : Answers r P (execPasswordPresent w area kind pw s) := by
  unfold execPasswordPresent
  try dsimp only
  repeat' first
    | with_reducible exact h
    | (with_reducible refine sub _ ?_); decide
    | (with_reducible refine part_sub sub ?_); decide
    | with_reducible apply State.writeRow_keeps
    | with_reducible assumption
    | with_reducible refine keeps_ite ?_ ?_
    | with_reducible refine keeps_foldl (fun _ _ _ => ?_) ?_
    | with_reducible refine answers_next ?_
    | split
theorem execPasswordLock_keeps {P : List Part} {r : State} (w : Who) (s : State)
    (sub : ∀ p, p ∈ Part.most → p ∈ P) (h : r.keepsBut P s) : Answers r P (execPasswordLock w s) := by
  unfold execPasswordLock
  try dsimp only
  repeat' first
    | with_reducible exact h
    | (with_reducible refine sub _ ?_); decide
    | (with_reducible refine part_sub sub ?_); decide
    | with_reducible apply State.cmdRow_keeps
    | with_reducible assumption
    | with_reducible refine keeps_ite ?_ ?_
    | with_reducible refine keeps_foldl (fun _ _ _ => ?_) ?_
    | with_reducible refine answers_next ?_
    | split
theorem execPresentationTimeout_keeps {P : List Part} {r : State} (role : Role) (s : State)
    (sub : ∀ p, p ∈ [.clk, .dict, .obs, .perf] → p ∈ P) (h : r.keepsBut P s) : Answers r P (execPresentationTimeout role s) := by
  unfold execPresentationTimeout
  try dsimp only
  repeat' first
    | with_reducible exact h
    | (with_reducible refine sub _ ?_); decide
    | (with_reducible refine part_sub sub ?_); decide
    | with_reducible apply State.elapseTo_keeps
    | with_reducible apply State.unpresent_keeps
    | with_reducible assumption
    | with_reducible refine keeps_ite ?_ ?_
    | with_reducible refine keeps_foldl (fun _ _ _ => ?_) ?_
    | with_reducible refine answers_next ?_
    | split
theorem execPasswordLockoutEnd_keeps {P : List Part} {r : State} (role : Role) (s : State)
    (sub : ∀ p, p ∈ [.clk, .dict, .obs, .perf] → p ∈ P) (h : r.keepsBut P s) : Answers r P (execPasswordLockoutEnd role s) := by
  unfold execPasswordLockoutEnd
  try dsimp only
  repeat' first
    | with_reducible exact h
    | (with_reducible refine sub _ ?_); decide
    | (with_reducible refine part_sub sub ?_); decide
    | with_reducible apply State.elapseTo_keeps
    | with_reducible refine State.keeps_upDict _ ?_ ?_
    | with_reducible assumption
    | with_reducible refine keeps_ite ?_ ?_
    | with_reducible refine keeps_foldl (fun _ _ _ => ?_) ?_
    | with_reducible refine answers_next ?_
    | split
theorem execSetPassword_keeps {P : List Part} {r : State} (w : Who) (area : Nat) (kind : Nat) (pw : Bytes) (s : State)
    (sub : ∀ p, p ∈ Part.most → p ∈ P) (h : r.keepsBut P s) : Answers r P (execSetPassword w area kind pw s) := by
  unfold execSetPassword
  try dsimp only
  repeat' first
    | with_reducible exact h
    | (with_reducible refine sub _ ?_); decide
    | (with_reducible refine part_sub sub ?_); decide
    | with_reducible apply State.writeRow_keeps
    | with_reducible assumption
    | with_reducible refine keeps_ite ?_ ?_
    | with_reducible refine keeps_foldl (fun _ _ _ => ?_) ?_
    | with_reducible refine answers_next ?_
    | split
theorem execRestoreDefaults_keeps {P : List Part} {r : State} (w : Who) (s : State)
    (sub : ∀ p, p ∈ Part.most → p ∈ P) (h : r.keepsBut P s) : Answers r P (execRestoreDefaults w s) := by
  unfold execRestoreDefaults
  try dsimp only
  repeat' first
    | with_reducible exact h
    | (with_reducible refine sub _ ?_); decide
    | (with_reducible refine part_sub sub ?_); decide
    | with_reducible apply State.cmdRow_keeps
    | with_reducible assumption
    | with_reducible refine keeps_ite ?_ ?_
    | with_reducible refine keeps_foldl (fun _ _ _ => ?_) ?_
    | with_reducible refine answers_next ?_
    | split
theorem execAreaDataWrite_keeps {P : List Part} {r : State} (w : Who) (data : Bytes) (s : State)
    (sub : ∀ p, p ∈ Part.most → p ∈ P) (h : r.keepsBut P s) : Answers r P (execAreaDataWrite w data s) := by
  unfold execAreaDataWrite
  try dsimp only
  repeat' first
    | with_reducible exact h
    | (with_reducible refine sub _ ?_); decide
    | (with_reducible refine part_sub sub ?_); decide
    | with_reducible apply State.wholeRow_keeps
    | with_reducible assumption
    | with_reducible refine keeps_ite ?_ ?_
    | with_reducible refine keeps_foldl (fun _ _ _ => ?_) ?_
    | with_reducible refine answers_next ?_
    | split

end Sys2Proof.Machine
end

