-- ==== Sys2Proof/Laws/KeepsCommands.lean ====
section
/-!
SUPPORT. What each operation of Machine/Commands.lean leaves unchanged: the groups of the state it may write, the others kept.
-/
namespace Sys2Proof.Machine

theorem State.finishDiscard_keeps {P : List Part} {r : State} (s : State)
    (sub : ∀ p, p ∈ [.yoke, .obs, .cmds] → p ∈ P) (h : r.keepsBut P s) : r.keepsBut P (State.finishDiscard s) := by
  unfold State.finishDiscard
  try dsimp only
  repeat' first
    | with_reducible exact h
    | (with_reducible refine sub _ ?_); decide
    | (with_reducible refine part_sub sub ?_); decide
    | with_reducible apply State.dropJob_keeps
    | with_reducible apply State.log_keeps
    | with_reducible apply State.record_keeps
    | with_reducible apply State.setCtl_keeps
    | with_reducible assumption
    | with_reducible refine keeps_ite ?_ ?_
    | with_reducible refine keeps_foldl (fun _ _ _ => ?_) ?_
    | split
theorem State.answerDiscard_keeps {P : List Part} {r : State} (s : State)
    (sub : ∀ p, p ∈ [.yoke, .obs, .perf, .cmds] → p ∈ P) (h : r.keepsBut P s) : r.keepsBut P (State.answerDiscard s) := by
  unfold State.answerDiscard
  try dsimp only
  repeat' first
    | with_reducible exact h
    | (with_reducible refine sub _ ?_); decide
    | (with_reducible refine part_sub sub ?_); decide
    | with_reducible apply State.dropJob_keeps
    | with_reducible apply State.send_keeps
    | with_reducible assumption
    | with_reducible refine keeps_ite ?_ ?_
    | with_reducible refine keeps_foldl (fun _ _ _ => ?_) ?_
    | split
theorem State.finishCrypto_keeps {P : List Part} {r : State} (s : State)
    (sub : ∀ p, p ∈ [.yoke, .keys, .obs, .cmds] → p ∈ P) (h : r.keepsBut P s) : r.keepsBut P (State.finishCrypto s) := by
  unfold State.finishCrypto
  try dsimp only
  repeat' first
    | with_reducible exact h
    | (with_reducible refine sub _ ?_); decide
    | (with_reducible refine part_sub sub ?_); decide
    | with_reducible apply State.dropJob_keeps
    | with_reducible apply State.log_keeps
    | with_reducible apply State.record_keeps
    | with_reducible apply State.setCtl_keeps
    | with_reducible refine State.keeps_upKeys _ ?_ ?_
    | with_reducible assumption
    | with_reducible refine keeps_ite ?_ ?_
    | with_reducible refine keeps_foldl (fun _ _ _ => ?_) ?_
    | split
theorem State.answerCrypto_keeps {P : List Part} {r : State} (s : State)
    (sub : ∀ p, p ∈ [.yoke, .keys, .obs, .perf, .cmds] → p ∈ P) (h : r.keepsBut P s) : r.keepsBut P (State.answerCrypto s) := by
  unfold State.answerCrypto
  try dsimp only
  repeat' first
    | with_reducible exact h
    | (with_reducible refine sub _ ?_); decide
    | (with_reducible refine part_sub sub ?_); decide
    | with_reducible apply State.dropJob_keeps
    | with_reducible apply State.log_keeps
    | with_reducible apply State.send_keeps
    | with_reducible refine State.keeps_upKeys _ ?_ ?_
    | with_reducible assumption
    | with_reducible refine keeps_ite ?_ ?_
    | with_reducible refine keeps_foldl (fun _ _ _ => ?_) ?_
    | split
theorem execZeroRangeStart_keeps {P : List Part} {r : State} (w : Who) (s : State)
    (sub : ∀ p, p ∈ Part.most → p ∈ P) (h : r.keepsBut P s) : Answers r P (execZeroRangeStart w s) := by
  unfold execZeroRangeStart
  try dsimp only
  repeat' first
    | with_reducible exact h
    | (with_reducible refine sub _ ?_); decide
    | (with_reducible refine part_sub sub ?_); decide
    | with_reducible apply State.cmdRow_keeps
    | with_reducible assumption
    | with_reducible refine keeps_ite ?_ ?_
    | with_reducible refine keeps_foldl (fun _ _ _ => ?_) ?_
    | with_reducible refine answers_next ?_
    | split
theorem execZeroRangeDone_keeps {P : List Part} {r : State} (s : State)
    (sub : ∀ p, p ∈ [.pwr, .port, .reqs, .fc, .tier, .slices, .budget, .media, .map, .care, .yoke, .atom, .keys, .reg, .tabs, .mbox, .obs, .perf, .firkin, .rstats, .cmds] → p ∈ P) (h : r.keepsBut P s) : Answers r P (execZeroRangeDone s) := by
  unfold execZeroRangeDone
  try dsimp only
  repeat' first
    | with_reducible exact h
    | (with_reducible refine sub _ ?_); decide
    | (with_reducible refine part_sub sub ?_); decide
    | with_reducible apply State.dropJob_keeps
    | with_reducible apply State.setCtl_keeps
    | with_reducible apply State.zeroGrains_keeps
    | with_reducible assumption
    | with_reducible refine keeps_ite ?_ ?_
    | with_reducible refine keeps_foldl (fun _ _ _ => ?_) ?_
    | with_reducible refine answers_next ?_
    | split
theorem execDiscardStart_keeps {P : List Part} {r : State} (w : Who) (s : State)
    (sub : ∀ p, p ∈ Part.most → p ∈ P) (h : r.keepsBut P s) : Answers r P (execDiscardStart w s) := by
  unfold execDiscardStart
  try dsimp only
  repeat' first
    | with_reducible exact h
    | (with_reducible refine sub _ ?_); decide
    | (with_reducible refine part_sub sub ?_); decide
    | with_reducible apply State.cmdRow_keeps
    | with_reducible assumption
    | with_reducible refine keeps_ite ?_ ?_
    | with_reducible refine keeps_foldl (fun _ _ _ => ?_) ?_
    | with_reducible refine answers_next ?_
    | split
theorem execDiscardDone_keeps {P : List Part} {r : State} (s : State)
    (sub : ∀ p, p ∈ [.cmds] → p ∈ P) (h : r.keepsBut P s) : Answers r P (execDiscardDone s) := by
  unfold execDiscardDone
  try dsimp only
  repeat' first
    | with_reducible exact h
    | (with_reducible refine sub _ ?_); decide
    | (with_reducible refine part_sub sub ?_); decide
    | with_reducible apply State.dropJob_keeps
    | with_reducible apply State.setCtl_keeps
    | with_reducible assumption
    | with_reducible refine keeps_ite ?_ ?_
    | with_reducible refine keeps_foldl (fun _ _ _ => ?_) ?_
    | with_reducible refine answers_next ?_
    | split
theorem execSecureDiscardStart_keeps {P : List Part} {r : State} (w : Who) (s : State)
    (sub : ∀ p, p ∈ Part.most → p ∈ P) (h : r.keepsBut P s) : Answers r P (execSecureDiscardStart w s) := by
  unfold execSecureDiscardStart
  try dsimp only
  repeat' first
    | with_reducible exact h
    | (with_reducible refine sub _ ?_); decide
    | (with_reducible refine part_sub sub ?_); decide
    | with_reducible apply State.cmdRow_keeps
    | with_reducible assumption
    | with_reducible refine keeps_ite ?_ ?_
    | with_reducible refine keeps_foldl (fun _ _ _ => ?_) ?_
    | with_reducible refine answers_next ?_
    | split
theorem execSecureDiscardDone_keeps {P : List Part} {r : State} (s : State)
    (sub : ∀ p, p ∈ [.yoke, .obs, .perf, .cmds] → p ∈ P) (h : r.keepsBut P s) : Answers r P (execSecureDiscardDone s) := by
  unfold execSecureDiscardDone
  try dsimp only
  repeat' first
    | with_reducible exact h
    | (with_reducible refine sub _ ?_); decide
    | (with_reducible refine part_sub sub ?_); decide
    | with_reducible apply State.answerDiscard_keeps
    | with_reducible apply State.finishDiscard_keeps
    | with_reducible assumption
    | with_reducible refine keeps_ite ?_ ?_
    | with_reducible refine keeps_foldl (fun _ _ _ => ?_) ?_
    | with_reducible refine answers_next ?_
    | split
theorem execCryptoDiscardStart_keeps {P : List Part} {r : State} (w : Who) (s : State)
    (sub : ∀ p, p ∈ Part.most → p ∈ P) (h : r.keepsBut P s) : Answers r P (execCryptoDiscardStart w s) := by
  unfold execCryptoDiscardStart
  try dsimp only
  repeat' first
    | with_reducible exact h
    | (with_reducible refine sub _ ?_); decide
    | (with_reducible refine part_sub sub ?_); decide
    | with_reducible apply State.cmdRow_keeps
    | with_reducible assumption
    | with_reducible refine keeps_ite ?_ ?_
    | with_reducible refine keeps_foldl (fun _ _ _ => ?_) ?_
    | with_reducible refine answers_next ?_
    | split
theorem execCryptoDiscardDone_keeps {P : List Part} {r : State} (s : State)
    (sub : ∀ p, p ∈ [.yoke, .keys, .obs, .perf, .cmds] → p ∈ P) (h : r.keepsBut P s) : Answers r P (execCryptoDiscardDone s) := by
  unfold execCryptoDiscardDone
  try dsimp only
  repeat' first
    | with_reducible exact h
    | (with_reducible refine sub _ ?_); decide
    | (with_reducible refine part_sub sub ?_); decide
    | with_reducible apply State.answerCrypto_keeps
    | with_reducible apply State.finishCrypto_keeps
    | with_reducible assumption
    | with_reducible refine keeps_ite ?_ ?_
    | with_reducible refine keeps_foldl (fun _ _ _ => ?_) ?_
    | with_reducible refine answers_next ?_
    | split
theorem execCryptoDiscardSweep_keeps {P : List Part} {r : State} (s : State)
    (sub : ∀ p, p ∈ [.pwr, .tier, .budget, .media, .map, .care, .yoke, .keys, .reg, .tabs, .obs, .perf, .rstats, .cmds] → p ∈ P) (h : r.keepsBut P s) : Answers r P (execCryptoDiscardSweep s) := by
  unfold execCryptoDiscardSweep
  try dsimp only
  repeat' first
    | with_reducible exact h
    | (with_reducible refine sub _ ?_); decide
    | (with_reducible refine part_sub sub ?_); decide
    | with_reducible apply State.sweepOne_keeps
    | with_reducible assumption
    | with_reducible refine keeps_ite ?_ ?_
    | with_reducible refine keeps_foldl (fun _ _ _ => ?_) ?_
    | with_reducible refine answers_next ?_
    | split
theorem execScrubStart_keeps {P : List Part} {r : State} (w : Who) (s : State)
    (sub : ∀ p, p ∈ Part.most → p ∈ P) (h : r.keepsBut P s) : Answers r P (execScrubStart w s) := by
  unfold execScrubStart
  try dsimp only
  repeat' first
    | with_reducible exact h
    | (with_reducible refine sub _ ?_); decide
    | (with_reducible refine part_sub sub ?_); decide
    | with_reducible apply State.cmdRow_keeps
    | with_reducible assumption
    | with_reducible refine keeps_ite ?_ ?_
    | with_reducible refine keeps_foldl (fun _ _ _ => ?_) ?_
    | with_reducible refine answers_next ?_
    | split
theorem execScrubCancel_keeps {P : List Part} {r : State} (w : Who) (s : State)
    (sub : ∀ p, p ∈ Part.most → p ∈ P) (h : r.keepsBut P s) : Answers r P (execScrubCancel w s) := by
  unfold execScrubCancel
  try dsimp only
  repeat' first
    | with_reducible exact h
    | (with_reducible refine sub _ ?_); decide
    | (with_reducible refine part_sub sub ?_); decide
    | with_reducible apply State.cmdRow_keeps
    | with_reducible assumption
    | with_reducible refine keeps_ite ?_ ?_
    | with_reducible refine keeps_foldl (fun _ _ _ => ?_) ?_
    | with_reducible refine answers_next ?_
    | split
theorem execScrubPassDone_keeps {P : List Part} {r : State} (errors : List (Nat × CacheFault)) (s : State)
    (sub : ∀ p, p ∈ [.clk, .pwr, .port, .reqs, .fc, .tier, .slices, .budget, .media, .map, .care, .yoke, .atom, .keys, .reg, .dram, .gills, .dict, .mbox, .obs, .perf, .rstats, .fw, .cmds] → p ∈ P) (h : r.keepsBut P s) : Answers r P (execScrubPassDone errors s) := by
  unfold execScrubPassDone
  try dsimp only
  repeat' first
    | with_reducible exact h
    | (with_reducible refine sub _ ?_); decide
    | (with_reducible refine part_sub sub ?_); decide
    | with_reducible apply State.elapseTo_keeps
    | with_reducible apply State.log_keeps
    | with_reducible apply State.scrubEnd_keeps
    | with_reducible apply State.scrubTo_keeps
    | with_reducible apply State.sweepDram_keeps
    | with_reducible apply State.tally_keeps
    | with_reducible assumption
    | with_reducible refine keeps_ite ?_ ?_
    | with_reducible refine keeps_foldl (fun _ _ _ => ?_) ?_
    | with_reducible refine answers_next ?_
    | split
theorem execBrineRelease_keeps {P : List Part} {r : State} (w : Who) (s : State)
    (sub : ∀ p, p ∈ Part.most → p ∈ P) (h : r.keepsBut P s) : Answers r P (execBrineRelease w s) := by
  unfold execBrineRelease
  try dsimp only
  repeat' first
    | with_reducible exact h
    | (with_reducible refine sub _ ?_); decide
    | (with_reducible refine part_sub sub ?_); decide
    | with_reducible apply State.cmdRow_keeps
    | with_reducible assumption
    | with_reducible refine keeps_ite ?_ ?_
    | with_reducible refine keeps_foldl (fun _ _ _ => ?_) ?_
    | with_reducible refine answers_next ?_
    | split
theorem execRekey_keeps {P : List Part} {r : State} (w : Who) (s : State)
    (sub : ∀ p, p ∈ Part.most → p ∈ P) (h : r.keepsBut P s) : Answers r P (execRekey w s) := by
  unfold execRekey
  try dsimp only
  repeat' first
    | with_reducible exact h
    | (with_reducible refine sub _ ?_); decide
    | (with_reducible refine part_sub sub ?_); decide
    | with_reducible apply State.cmdRow_keeps
    | with_reducible assumption
    | with_reducible refine keeps_ite ?_ ?_
    | with_reducible refine keeps_foldl (fun _ _ _ => ?_) ?_
    | with_reducible refine answers_next ?_
    | split
theorem execPrepareShutdownStart_keeps {P : List Part} {r : State} (w : Who) (s : State)
    (sub : ∀ p, p ∈ Part.most → p ∈ P) (h : r.keepsBut P s) : Answers r P (execPrepareShutdownStart w s) := by
  unfold execPrepareShutdownStart
  try dsimp only
  repeat' first
    | with_reducible exact h
    | (with_reducible refine sub _ ?_); decide
    | (with_reducible refine part_sub sub ?_); decide
    | with_reducible apply State.cmdRow_keeps
    | with_reducible assumption
    | with_reducible refine keeps_ite ?_ ?_
    | with_reducible refine keeps_foldl (fun _ _ _ => ?_) ?_
    | with_reducible refine answers_next ?_
    | split
theorem execPrepareShutdownCancel_keeps {P : List Part} {r : State} (w : Who) (s : State)
    (sub : ∀ p, p ∈ Part.most → p ∈ P) (h : r.keepsBut P s) : Answers r P (execPrepareShutdownCancel w s) := by
  unfold execPrepareShutdownCancel
  try dsimp only
  repeat' first
    | with_reducible exact h
    | (with_reducible refine sub _ ?_); decide
    | (with_reducible refine part_sub sub ?_); decide
    | with_reducible apply State.cmdRow_keeps
    | with_reducible assumption
    | with_reducible refine keeps_ite ?_ ?_
    | with_reducible refine keeps_foldl (fun _ _ _ => ?_) ?_
    | with_reducible refine answers_next ?_
    | split
theorem execShutdownPrepared_keeps {P : List Part} {r : State} (s : State)
    (sub : ∀ p, p ∈ [.pwr, .media, .map, .care, .yoke, .reg, .obs, .perf, .cmds] → p ∈ P) (h : r.keepsBut P s) : Answers r P (execShutdownPrepared s) := by
  unfold execShutdownPrepared
  try dsimp only
  repeat' first
    | with_reducible exact h
    | (with_reducible refine sub _ ?_); decide
    | (with_reducible refine part_sub sub ?_); decide
    | with_reducible apply State.prepared_keeps
    | with_reducible assumption
    | with_reducible refine keeps_ite ?_ ?_
    | with_reducible refine keeps_foldl (fun _ _ _ => ?_) ?_
    | with_reducible refine answers_next ?_
    | split
theorem execIdentifyStart_keeps {P : List Part} {r : State} (w : Who) (s : State)
    (sub : ∀ p, p ∈ Part.most → p ∈ P) (h : r.keepsBut P s) : Answers r P (execIdentifyStart w s) := by
  unfold execIdentifyStart
  try dsimp only
  repeat' first
    | with_reducible exact h
    | (with_reducible refine sub _ ?_); decide
    | (with_reducible refine part_sub sub ?_); decide
    | with_reducible apply State.cmdRow_keeps
    | with_reducible assumption
    | with_reducible refine keeps_ite ?_ ?_
    | with_reducible refine keeps_foldl (fun _ _ _ => ?_) ?_
    | with_reducible refine answers_next ?_
    | split
theorem execIdentifyStop_keeps {P : List Part} {r : State} (w : Who) (s : State)
    (sub : ∀ p, p ∈ Part.most → p ∈ P) (h : r.keepsBut P s) : Answers r P (execIdentifyStop w s) := by
  unfold execIdentifyStop
  try dsimp only
  repeat' first
    | with_reducible exact h
    | (with_reducible refine sub _ ?_); decide
    | (with_reducible refine part_sub sub ?_); decide
    | with_reducible apply State.cmdRow_keeps
    | with_reducible assumption
    | with_reducible refine keeps_ite ?_ ?_
    | with_reducible refine keeps_foldl (fun _ _ _ => ?_) ?_
    | with_reducible refine answers_next ?_
    | split
theorem execIdentifyExpire_keeps {P : List Part} {r : State} (s : State)
    (sub : ∀ p, p ∈ [.clk, .obs, .perf] → p ∈ P) (h : r.keepsBut P s) : Answers r P (execIdentifyExpire s) := by
  unfold execIdentifyExpire
  try dsimp only
  repeat' first
    | with_reducible exact h
    | (with_reducible refine sub _ ?_); decide
    | (with_reducible refine part_sub sub ?_); decide
    | with_reducible apply State.elapseTo_keeps
    | with_reducible assumption
    | with_reducible refine keeps_ite ?_ ?_
    | with_reducible refine keeps_foldl (fun _ _ _ => ?_) ?_
    | with_reducible refine answers_next ?_
    | split
theorem execKeyGenerate_keeps {P : List Part} {r : State} (w : Who) (s : State)
    (sub : ∀ p, p ∈ Part.most → p ∈ P) (h : r.keepsBut P s) : Answers r P (execKeyGenerate w s) := by
  unfold execKeyGenerate
  try dsimp only
  repeat' first
    | with_reducible exact h
    | (with_reducible refine sub _ ?_); decide
    | (with_reducible refine part_sub sub ?_); decide
    | with_reducible apply State.cmdRow_keeps
    | with_reducible assumption
    | with_reducible refine keeps_ite ?_ ?_
    | with_reducible refine keeps_foldl (fun _ _ _ => ?_) ?_
    | with_reducible refine answers_next ?_
    | split
theorem execKeyImport_keeps {P : List Part} {r : State} (w : Who) (v : ImportVerdict) (s : State)
    (sub : ∀ p, p ∈ Part.most → p ∈ P) (h : r.keepsBut P s) : Answers r P (execKeyImport w v s) := by
  unfold execKeyImport
  try dsimp only
  repeat' first
    | with_reducible exact h
    | (with_reducible refine sub _ ?_); decide
    | (with_reducible refine part_sub sub ?_); decide
    | with_reducible apply State.takeDtp_keeps
    | with_reducible assumption
    | with_reducible refine keeps_ite ?_ ?_
    | with_reducible refine keeps_foldl (fun _ _ _ => ?_) ?_
    | with_reducible refine answers_next ?_
    | split
theorem execKeyRegenerate_keeps {P : List Part} {r : State} (w : Who) (s : State)
    (sub : ∀ p, p ∈ Part.most → p ∈ P) (h : r.keepsBut P s) : Answers r P (execKeyRegenerate w s) := by
  unfold execKeyRegenerate
  try dsimp only
  repeat' first
    | with_reducible exact h
    | (with_reducible refine sub _ ?_); decide
    | (with_reducible refine part_sub sub ?_); decide
    | with_reducible apply State.cmdRow_keeps
    | with_reducible assumption
    | with_reducible refine keeps_ite ?_ ?_
    | with_reducible refine keeps_foldl (fun _ _ _ => ?_) ?_
    | with_reducible refine answers_next ?_
    | split
theorem execAttestSign_keeps {P : List Part} {r : State} (w : Who) (s : State)
    (sub : ∀ p, p ∈ Part.most → p ∈ P) (h : r.keepsBut P s) : Answers r P (execAttestSign w s) := by
  unfold execAttestSign
  try dsimp only
  repeat' first
    | with_reducible exact h
    | (with_reducible refine sub _ ?_); decide
    | (with_reducible refine part_sub sub ?_); decide
    | with_reducible apply State.cmdRow_keeps
    | with_reducible assumption
    | with_reducible refine keeps_ite ?_ ?_
    | with_reducible refine keeps_foldl (fun _ _ _ => ?_) ?_
    | with_reducible refine answers_next ?_
    | split
theorem execAttestSignDone_keeps {P : List Part} {r : State} (s : State)
    (sub : ∀ p, p ∈ [.keys] → p ∈ P) (h : r.keepsBut P s) : Answers r P (execAttestSignDone s) := by
  unfold execAttestSignDone
  try dsimp only
  repeat' first
    | with_reducible exact h
    | (with_reducible refine sub _ ?_); decide
    | (with_reducible refine part_sub sub ?_); decide
    | with_reducible apply State.attestDone_keeps
    | with_reducible assumption
    | with_reducible refine keeps_ite ?_ ?_
    | with_reducible refine keeps_foldl (fun _ _ _ => ?_) ?_
    | with_reducible refine answers_next ?_
    | split
theorem execFrontCacheDisable_keeps {P : List Part} {r : State} (w : Who) (s : State)
    (sub : ∀ p, p ∈ Part.most → p ∈ P) (h : r.keepsBut P s) : Answers r P (execFrontCacheDisable w s) := by
  unfold execFrontCacheDisable
  try dsimp only
  repeat' first
    | with_reducible exact h
    | (with_reducible refine sub _ ?_); decide
    | (with_reducible refine part_sub sub ?_); decide
    | with_reducible apply State.cmdRow_keeps
    | with_reducible assumption
    | with_reducible refine keeps_ite ?_ ?_
    | with_reducible refine keeps_foldl (fun _ _ _ => ?_) ?_
    | with_reducible refine answers_next ?_
    | split
theorem execFrontCacheDrained_keeps {P : List Part} {r : State} (s : State)
    (sub : ∀ p, p ∈ [.reqs, .fc, .tier, .slices, .budget, .media, .reg, .obs, .perf, .rstats] → p ∈ P) (h : r.keepsBut P s) : Answers r P (execFrontCacheDrained s) := by
  unfold execFrontCacheDrained
  try dsimp only
  repeat' first
    | with_reducible exact h
    | (with_reducible refine sub _ ?_); decide
    | (with_reducible refine part_sub sub ?_); decide
    | with_reducible apply State.fcDrained_keeps
    | with_reducible assumption
    | with_reducible refine keeps_ite ?_ ?_
    | with_reducible refine keeps_foldl (fun _ _ _ => ?_) ?_
    | with_reducible refine answers_next ?_
    | split
theorem execFrontCacheEnable_keeps {P : List Part} {r : State} (w : Who) (s : State)
    (sub : ∀ p, p ∈ Part.most → p ∈ P) (h : r.keepsBut P s) : Answers r P (execFrontCacheEnable w s) := by
  unfold execFrontCacheEnable
  try dsimp only
  repeat' first
    | with_reducible exact h
    | (with_reducible refine sub _ ?_); decide
    | (with_reducible refine part_sub sub ?_); decide
    | with_reducible apply State.cmdRow_keeps
    | with_reducible assumption
    | with_reducible refine keeps_ite ?_ ?_
    | with_reducible refine keeps_foldl (fun _ _ _ => ?_) ?_
    | with_reducible refine answers_next ?_
    | split
theorem execRangeClean_keeps {P : List Part} {r : State} (w : Who) (found : List (Nat × CacheFault)) (s : State)
    (sub : ∀ p, p ∈ Part.most → p ∈ P) (h : r.keepsBut P s) : Answers r P (execRangeClean w found s) := by
  unfold execRangeClean
  try dsimp only
  repeat' first
    | with_reducible exact h
    | (with_reducible refine sub _ ?_); decide
    | (with_reducible refine part_sub sub ?_); decide
    | with_reducible apply State.takeDtp_keeps
    | with_reducible assumption
    | with_reducible refine keeps_ite ?_ ?_
    | with_reducible refine keeps_foldl (fun _ _ _ => ?_) ?_
    | with_reducible refine answers_next ?_
    | split
theorem execRangeInvalidate_keeps {P : List Part} {r : State} (w : Who) (found : List (Nat × CacheFault)) (s : State)
    (sub : ∀ p, p ∈ Part.most → p ∈ P) (h : r.keepsBut P s) : Answers r P (execRangeInvalidate w found s) := by
  unfold execRangeInvalidate
  try dsimp only
  repeat' first
    | with_reducible exact h
    | (with_reducible refine sub _ ?_); decide
    | (with_reducible refine part_sub sub ?_); decide
    | with_reducible apply State.takeDtp_keeps
    | with_reducible assumption
    | with_reducible refine keeps_ite ?_ ?_
    | with_reducible refine keeps_foldl (fun _ _ _ => ?_) ?_
    | with_reducible refine answers_next ?_
    | split
theorem execLineLock_keeps {P : List Part} {r : State} (w : Who) (found : List (Nat × CacheFault)) (s : State)
    (sub : ∀ p, p ∈ Part.most → p ∈ P) (h : r.keepsBut P s) : Answers r P (execLineLock w found s) := by
  unfold execLineLock
  try dsimp only
  repeat' first
    | with_reducible exact h
    | (with_reducible refine sub _ ?_); decide
    | (with_reducible refine part_sub sub ?_); decide
    | with_reducible apply State.takeDtp_keeps
    | with_reducible assumption
    | with_reducible refine keeps_ite ?_ ?_
    | with_reducible refine keeps_foldl (fun _ _ _ => ?_) ?_
    | with_reducible refine answers_next ?_
    | split
theorem execLineZero_keeps {P : List Part} {r : State} (w : Who) (s : State)
    (sub : ∀ p, p ∈ Part.most → p ∈ P) (h : r.keepsBut P s) : Answers r P (execLineZero w s) := by
  unfold execLineZero
  try dsimp only
  repeat' first
    | with_reducible exact h
    | (with_reducible refine sub _ ?_); decide
    | (with_reducible refine part_sub sub ?_); decide
    | with_reducible apply State.cmdRow_keeps
    | with_reducible assumption
    | with_reducible refine keeps_ite ?_ ?_
    | with_reducible refine keeps_foldl (fun _ _ _ => ?_) ?_
    | with_reducible refine answers_next ?_
    | split
theorem execMaintenanceDone_keeps {P : List Part} {r : State} (k : MaintKind) (s : State)
    (sub : ∀ p, p ∈ [.reqs, .fc, .tier, .slices, .budget, .media, .reg, .obs, .perf, .rstats, .cmds] → p ∈ P) (h : r.keepsBut P s) : Answers r P (execMaintenanceDone k s) := by
  unfold execMaintenanceDone
  try dsimp only
  repeat' first
    | with_reducible exact h
    | (with_reducible refine sub _ ?_); decide
    | (with_reducible refine part_sub sub ?_); decide
    | with_reducible apply State.maintDone_keeps
    | with_reducible assumption
    | with_reducible refine keeps_ite ?_ ?_
    | with_reducible refine keeps_foldl (fun _ _ _ => ?_) ?_
    | with_reducible refine answers_next ?_
    | split
theorem execFwBegin_keeps {P : List Part} {r : State} (w : Who) (s : State)
    (sub : ∀ p, p ∈ Part.most → p ∈ P) (h : r.keepsBut P s) : Answers r P (execFwBegin w s) := by
  unfold execFwBegin
  try dsimp only
  repeat' first
    | with_reducible exact h
    | (with_reducible refine sub _ ?_); decide
    | (with_reducible refine part_sub sub ?_); decide
    | with_reducible apply State.cmdRow_keeps
    | with_reducible assumption
    | with_reducible refine keeps_ite ?_ ?_
    | with_reducible refine keeps_foldl (fun _ _ _ => ?_) ?_
    | with_reducible refine answers_next ?_
    | split
theorem execFwChunk_keeps {P : List Part} {r : State} (w : Who) (data : Bytes) (s : State)
    (sub : ∀ p, p ∈ Part.most → p ∈ P) (h : r.keepsBut P s) : Answers r P (execFwChunk w data s) := by
  unfold execFwChunk
  try dsimp only
  repeat' first
    | with_reducible exact h
    | (with_reducible refine sub _ ?_); decide
    | (with_reducible refine part_sub sub ?_); decide
    | with_reducible apply State.wholeRow_keeps
    | with_reducible assumption
    | with_reducible refine keeps_ite ?_ ?_
    | with_reducible refine keeps_foldl (fun _ _ _ => ?_) ?_
    | with_reducible refine answers_next ?_
    | split
theorem execFwVerify_keeps {P : List Part} {r : State} (w : Who) (s : State)
    (sub : ∀ p, p ∈ Part.most → p ∈ P) (h : r.keepsBut P s) : Answers r P (execFwVerify w s) := by
  unfold execFwVerify
  try dsimp only
  repeat' first
    | with_reducible exact h
    | (with_reducible refine sub _ ?_); decide
    | (with_reducible refine part_sub sub ?_); decide
    | with_reducible apply State.cmdRow_keeps
    | with_reducible assumption
    | with_reducible refine keeps_ite ?_ ?_
    | with_reducible refine keeps_foldl (fun _ _ _ => ?_) ?_
    | with_reducible refine answers_next ?_
    | split
theorem execFwActivate_keeps {P : List Part} {r : State} (w : Who) (s : State)
    (sub : ∀ p, p ∈ Part.most → p ∈ P) (h : r.keepsBut P s) : Answers r P (execFwActivate w s) := by
  unfold execFwActivate
  try dsimp only
  repeat' first
    | with_reducible exact h
    | (with_reducible refine sub _ ?_); decide
    | (with_reducible refine part_sub sub ?_); decide
    | with_reducible apply State.cmdRow_keeps
    | with_reducible assumption
    | with_reducible refine keeps_ite ?_ ?_
    | with_reducible refine keeps_foldl (fun _ _ _ => ?_) ?_
    | with_reducible refine answers_next ?_
    | split
theorem execFwCancel_keeps {P : List Part} {r : State} (w : Who) (s : State)
    (sub : ∀ p, p ∈ Part.most → p ∈ P) (h : r.keepsBut P s) : Answers r P (execFwCancel w s) := by
  unfold execFwCancel
  try dsimp only
  repeat' first
    | with_reducible exact h
    | (with_reducible refine sub _ ?_); decide
    | (with_reducible refine part_sub sub ?_); decide
    | with_reducible apply State.cmdRow_keeps
    | with_reducible assumption
    | with_reducible refine keeps_ite ?_ ?_
    | with_reducible refine keeps_foldl (fun _ _ _ => ?_) ?_
    | with_reducible refine answers_next ?_
    | split
theorem execFwOperationDone_keeps {P : List Part} {r : State} (v : FwVerdict) (s : State)
    (sub : ∀ p, p ∈ [.fw] → p ∈ P) (h : r.keepsBut P s) : Answers r P (execFwOperationDone v s) := by
  unfold execFwOperationDone
  try dsimp only
  repeat' first
    | with_reducible exact h
    | (with_reducible refine sub _ ?_); decide
    | (with_reducible refine part_sub sub ?_); decide
    | with_reducible apply State.fwDone_keeps
    | with_reducible assumption
    | with_reducible refine keeps_ite ?_ ?_
    | with_reducible refine keeps_foldl (fun _ _ _ => ?_) ?_
    | with_reducible refine answers_next ?_
    | split
theorem execTestStateEnter_keeps {P : List Part} {r : State} (w : Who) (s : State)
    (sub : ∀ p, p ∈ Part.most → p ∈ P) (h : r.keepsBut P s) : Answers r P (execTestStateEnter w s) := by
  unfold execTestStateEnter
  try dsimp only
  repeat' first
    | with_reducible exact h
    | (with_reducible refine sub _ ?_); decide
    | (with_reducible refine part_sub sub ?_); decide
    | with_reducible apply State.cmdRow_keeps
    | with_reducible assumption
    | with_reducible refine keeps_ite ?_ ?_
    | with_reducible refine keeps_foldl (fun _ _ _ => ?_) ?_
    | with_reducible refine answers_next ?_
    | split
theorem execTestStateLeave_keeps {P : List Part} {r : State} (w : Who) (s : State)
    (sub : ∀ p, p ∈ Part.most → p ∈ P) (h : r.keepsBut P s) : Answers r P (execTestStateLeave w s) := by
  unfold execTestStateLeave
  try dsimp only
  repeat' first
    | with_reducible exact h
    | (with_reducible refine sub _ ?_); decide
    | (with_reducible refine part_sub sub ?_); decide
    | with_reducible apply State.cmdRow_keeps
    | with_reducible assumption
    | with_reducible refine keeps_ite ?_ ?_
    | with_reducible refine keeps_foldl (fun _ _ _ => ?_) ?_
    | with_reducible refine answers_next ?_
    | split
theorem execSelfTestStart_keeps {P : List Part} {r : State} (w : Who) (s : State)
    (sub : ∀ p, p ∈ Part.most → p ∈ P) (h : r.keepsBut P s) : Answers r P (execSelfTestStart w s) := by
  unfold execSelfTestStart
  try dsimp only
  repeat' first
    | with_reducible exact h
    | (with_reducible refine sub _ ?_); decide
    | (with_reducible refine part_sub sub ?_); decide
    | with_reducible apply State.cmdRow_keeps
    | with_reducible assumption
    | with_reducible refine keeps_ite ?_ ?_
    | with_reducible refine keeps_foldl (fun _ _ _ => ?_) ?_
    | with_reducible refine answers_next ?_
    | split
theorem execSelfTestCancel_keeps {P : List Part} {r : State} (w : Who) (s : State)
    (sub : ∀ p, p ∈ Part.most → p ∈ P) (h : r.keepsBut P s) : Answers r P (execSelfTestCancel w s) := by
  unfold execSelfTestCancel
  try dsimp only
  repeat' first
    | with_reducible exact h
    | (with_reducible refine sub _ ?_); decide
    | (with_reducible refine part_sub sub ?_); decide
    | with_reducible apply State.cmdRow_keeps
    | with_reducible assumption
    | with_reducible refine keeps_ite ?_ ?_
    | with_reducible refine keeps_foldl (fun _ _ _ => ?_) ?_
    | with_reducible refine answers_next ?_
    | split
theorem execSelfTestDone_keeps {P : List Part} {r : State} (errors : Nat) (first : Nat) (badBlocks : List Nat) (s : State)
    (sub : ∀ p, p ∈ [.pwr, .tier, .budget, .media, .map, .care, .yoke, .reg, .obs, .perf, .rstats, .cmds] → p ∈ P) (h : r.keepsBut P s) : Answers r P (execSelfTestDone errors first badBlocks s) := by
  unfold execSelfTestDone
  try dsimp only
  repeat' first
    | with_reducible exact h
    | (with_reducible refine sub _ ?_); decide
    | (with_reducible refine part_sub sub ?_); decide
    | with_reducible apply State.selfTestDone_keeps
    | with_reducible assumption
    | with_reducible refine keeps_ite ?_ ?_
    | with_reducible refine keeps_foldl (fun _ _ _ => ?_) ?_
    | with_reducible refine answers_next ?_
    | split
theorem execReadBackData_keeps {P : List Part} {r : State} (w : Who) (s : State)
    (sub : ∀ p, p ∈ Part.most → p ∈ P) (h : r.keepsBut P s) : Answers r P (execReadBackData w s) := by
  unfold execReadBackData
  try dsimp only
  repeat' first
    | with_reducible exact h
    | (with_reducible refine sub _ ?_); decide
    | (with_reducible refine part_sub sub ?_); decide
    | with_reducible apply State.takeDtp_keeps
    | with_reducible assumption
    | with_reducible refine keeps_ite ?_ ?_
    | with_reducible refine keeps_foldl (fun _ _ _ => ?_) ?_
    | with_reducible refine answers_next ?_
    | split
theorem execCounterSnapshot_keeps {P : List Part} {r : State} (w : Who) (s : State)
    (sub : ∀ p, p ∈ Part.most → p ∈ P) (h : r.keepsBut P s) : Answers r P (execCounterSnapshot w s) := by
  unfold execCounterSnapshot
  try dsimp only
  repeat' first
    | with_reducible exact h
    | (with_reducible refine sub _ ?_); decide
    | (with_reducible refine part_sub sub ?_); decide
    | with_reducible apply State.cmdRow_keeps
    | with_reducible assumption
    | with_reducible refine keeps_ite ?_ ?_
    | with_reducible refine keeps_foldl (fun _ _ _ => ?_) ?_
    | with_reducible refine answers_next ?_
    | split
theorem execCounterSnapshotClear_keeps {P : List Part} {r : State} (w : Who) (s : State)
    (sub : ∀ p, p ∈ Part.most → p ∈ P) (h : r.keepsBut P s) : Answers r P (execCounterSnapshotClear w s) := by
  unfold execCounterSnapshotClear
  try dsimp only
  repeat' first
    | with_reducible exact h
    | (with_reducible refine sub _ ?_); decide
    | (with_reducible refine part_sub sub ?_); decide
    | with_reducible apply State.cmdRow_keeps
    | with_reducible assumption
    | with_reducible refine keeps_ite ?_ ?_
    | with_reducible refine keeps_foldl (fun _ _ _ => ?_) ?_
    | with_reducible refine answers_next ?_
    | split
theorem execOverflowClear_keeps {P : List Part} {r : State} (w : Who) (block : Nat) (mask : BitVec 8) (s : State)
    (sub : ∀ p, p ∈ Part.most → p ∈ P) (h : r.keepsBut P s) : Answers r P (execOverflowClear w block mask s) := by
  unfold execOverflowClear
  try dsimp only
  repeat' first
    | with_reducible exact h
    | (with_reducible refine sub _ ?_); decide
    | (with_reducible refine part_sub sub ?_); decide
    | with_reducible apply State.cmdRow_keeps
    | with_reducible assumption
    | with_reducible refine keeps_ite ?_ ?_
    | with_reducible refine keeps_foldl (fun _ _ _ => ?_) ?_
    | with_reducible refine answers_next ?_
    | split
theorem execFirkinFreeze_keeps {P : List Part} {r : State} (w : Who) (s : State)
    (sub : ∀ p, p ∈ Part.most → p ∈ P) (h : r.keepsBut P s) : Answers r P (execFirkinFreeze w s) := by
  unfold execFirkinFreeze
  try dsimp only
  repeat' first
    | with_reducible exact h
    | (with_reducible refine sub _ ?_); decide
    | (with_reducible refine part_sub sub ?_); decide
    | with_reducible apply State.cmdRow_keeps
    | with_reducible assumption
    | with_reducible refine keeps_ite ?_ ?_
    | with_reducible refine keeps_foldl (fun _ _ _ => ?_) ?_
    | with_reducible refine answers_next ?_
    | split
theorem execFirkinThaw_keeps {P : List Part} {r : State} (w : Who) (s : State)
    (sub : ∀ p, p ∈ Part.most → p ∈ P) (h : r.keepsBut P s) : Answers r P (execFirkinThaw w s) := by
  unfold execFirkinThaw
  try dsimp only
  repeat' first
    | with_reducible exact h
    | (with_reducible refine sub _ ?_); decide
    | (with_reducible refine part_sub sub ?_); decide
    | with_reducible apply State.cmdRow_keeps
    | with_reducible assumption
    | with_reducible refine keeps_ite ?_ ?_
    | with_reducible refine keeps_foldl (fun _ _ _ => ?_) ?_
    | with_reducible refine answers_next ?_
    | split
theorem execEventPailRead_keeps {P : List Part} {r : State} (w : Who) (s : State)
    (sub : ∀ p, p ∈ Part.most → p ∈ P) (h : r.keepsBut P s) : Answers r P (execEventPailRead w s) := by
  unfold execEventPailRead
  try dsimp only
  repeat' first
    | with_reducible exact h
    | (with_reducible refine sub _ ?_); decide
    | (with_reducible refine part_sub sub ?_); decide
    | with_reducible apply State.takeDtp_keeps
    | with_reducible assumption
    | with_reducible refine keeps_ite ?_ ?_
    | with_reducible refine keeps_foldl (fun _ _ _ => ?_) ?_
    | with_reducible refine answers_next ?_
    | split
theorem execEventPailDropRemainder_keeps {P : List Part} {r : State} (w : Who) (s : State)
    (sub : ∀ p, p ∈ Part.most → p ∈ P) (h : r.keepsBut P s) : Answers r P (execEventPailDropRemainder w s) := by
  unfold execEventPailDropRemainder
  try dsimp only
  repeat' first
    | with_reducible exact h
    | (with_reducible refine sub _ ?_); decide
    | (with_reducible refine part_sub sub ?_); decide
    | with_reducible apply State.cmdRow_keeps
    | with_reducible assumption
    | with_reducible refine keeps_ite ?_ ?_
    | with_reducible refine keeps_foldl (fun _ _ _ => ?_) ?_
    | with_reducible refine answers_next ?_
    | split
theorem execOverrunRead_keeps {P : List Part} {r : State} (w : Who) (s : State)
    (sub : ∀ p, p ∈ Part.most → p ∈ P) (h : r.keepsBut P s) : Answers r P (execOverrunRead w s) := by
  unfold execOverrunRead
  try dsimp only
  repeat' first
    | with_reducible exact h
    | (with_reducible refine sub _ ?_); decide
    | (with_reducible refine part_sub sub ?_); decide
    | with_reducible apply State.takeDtp_keeps
    | with_reducible assumption
    | with_reducible refine keeps_ite ?_ ?_
    | with_reducible refine keeps_foldl (fun _ _ _ => ?_) ?_
    | with_reducible refine answers_next ?_
    | split
theorem execPowerBudgetWrite_keeps {P : List Part} {r : State} (w : Who) (mw : Nat) (s : State)
    (sub : ∀ p, p ∈ Part.most → p ∈ P) (h : r.keepsBut P s) : Answers r P (execPowerBudgetWrite w mw s) := by
  unfold execPowerBudgetWrite
  try dsimp only
  repeat' first
    | with_reducible exact h
    | (with_reducible refine sub _ ?_); decide
    | (with_reducible refine part_sub sub ?_); decide
    | with_reducible apply State.writeRow_keeps
    | with_reducible assumption
    | with_reducible refine keeps_ite ?_ ?_
    | with_reducible refine keeps_foldl (fun _ _ _ => ?_) ?_
    | with_reducible refine answers_next ?_
    | split
theorem execRetrain_keeps {P : List Part} {r : State} (w : Who) (mask : BitVec 8) (s : State)
    (sub : ∀ p, p ∈ Part.most → p ∈ P) (h : r.keepsBut P s) : Answers r P (execRetrain w mask s) := by
  unfold execRetrain
  try dsimp only
  repeat' first
    | with_reducible exact h
    | (with_reducible refine sub _ ?_); decide
    | (with_reducible refine part_sub sub ?_); decide
    | with_reducible apply State.cmdRow_keeps
    | with_reducible assumption
    | with_reducible refine keeps_ite ?_ ?_
    | with_reducible refine keeps_foldl (fun _ _ _ => ?_) ?_
    | with_reducible refine answers_next ?_
    | split
theorem execJoin_keeps {P : List Part} {r : State} (w : Who) (s : State)
    (sub : ∀ p, p ∈ Part.most → p ∈ P) (h : r.keepsBut P s) : Answers r P (execJoin w s) := by
  unfold execJoin
  try dsimp only
  repeat' first
    | with_reducible exact h
    | (with_reducible refine sub _ ?_); decide
    | (with_reducible refine part_sub sub ?_); decide
    | with_reducible apply State.cmdRow_keeps
    | with_reducible assumption
    | with_reducible refine keeps_ite ?_ ?_
    | with_reducible refine keeps_foldl (fun _ _ _ => ?_) ?_
    | with_reducible refine answers_next ?_
    | split
theorem execPrevail_keeps {P : List Part} {r : State} (w : Who) (s : State)
    (sub : ∀ p, p ∈ Part.most → p ∈ P) (h : r.keepsBut P s) : Answers r P (execPrevail w s) := by
  unfold execPrevail
  try dsimp only
  repeat' first
    | with_reducible exact h
    | (with_reducible refine sub _ ?_); decide
    | (with_reducible refine part_sub sub ?_); decide
    | with_reducible apply State.cmdRow_keeps
    | with_reducible assumption
    | with_reducible refine keeps_ite ?_ ?_
    | with_reducible refine keeps_foldl (fun _ _ _ => ?_) ?_
    | with_reducible refine answers_next ?_
    | split
theorem execForceSole_keeps {P : List Part} {r : State} (w : Who) (s : State)
    (sub : ∀ p, p ∈ Part.most → p ∈ P) (h : r.keepsBut P s) : Answers r P (execForceSole w s) := by
  unfold execForceSole
  try dsimp only
  repeat' first
    | with_reducible exact h
    | (with_reducible refine sub _ ?_); decide
    | (with_reducible refine part_sub sub ?_); decide
    | with_reducible apply State.cmdRow_keeps
    | with_reducible assumption
    | with_reducible refine keeps_ite ?_ ?_
    | with_reducible refine keeps_foldl (fun _ _ _ => ?_) ?_
    | with_reducible refine answers_next ?_
    | split
theorem execWithdraw_keeps {P : List Part} {r : State} (w : Who) (s : State)
    (sub : ∀ p, p ∈ Part.most → p ∈ P) (h : r.keepsBut P s) : Answers r P (execWithdraw w s) := by
  unfold execWithdraw
  try dsimp only
  repeat' first
    | with_reducible exact h
    | (with_reducible refine sub _ ?_); decide
    | (with_reducible refine part_sub sub ?_); decide
    | with_reducible apply State.cmdRow_keeps
    | with_reducible assumption
    | with_reducible refine keeps_ite ?_ ?_
    | with_reducible refine keeps_foldl (fun _ _ _ => ?_) ?_
    | with_reducible refine answers_next ?_
    | split
theorem execLeave_keeps {P : List Part} {r : State} (w : Who) (s : State)
    (sub : ∀ p, p ∈ Part.most → p ∈ P) (h : r.keepsBut P s) : Answers r P (execLeave w s) := by
  unfold execLeave
  try dsimp only
  repeat' first
    | with_reducible exact h
    | (with_reducible refine sub _ ?_); decide
    | (with_reducible refine part_sub sub ?_); decide
    | with_reducible apply State.cmdRow_keeps
    | with_reducible assumption
    | with_reducible refine keeps_ite ?_ ?_
    | with_reducible refine keeps_foldl (fun _ _ _ => ?_) ?_
    | with_reducible refine answers_next ?_
    | split

end Sys2Proof.Machine
end

