-- ==== Sys2Proof/Laws/KeepsYokeOps.lean ====
section
/-!
SUPPORT. What each operation of Machine/YokeOps.lean leaves unchanged: the groups of the state it may write, the others kept.
-/
namespace Sys2Proof.Machine

theorem execYokeTrainingDone_keeps {P : List Part} {r : State} (speed : Nat) (width : Nat) (credits : List Nat) (s : State)
    (sub : ∀ p, p ∈ Part.most → p ∈ P) (h : r.keepsBut P s) : Answers r P (execYokeTrainingDone speed width credits s) := by
  unfold execYokeTrainingDone
  try dsimp only
  repeat' first
    | with_reducible exact h
    | (with_reducible refine sub _ ?_); decide
    | (with_reducible refine part_sub sub ?_); decide
    | with_reducible apply State.log_keeps
    | with_reducible apply State.sendMember_keeps
    | with_reducible apply State.serveWaiting_keeps
    | with_reducible apply State.yokeDown_keeps
    | with_reducible refine State.keeps_upYoke _ ?_ ?_
    | with_reducible assumption
    | with_reducible refine keeps_ite ?_ ?_
    | with_reducible refine keeps_foldl (fun _ _ _ => ?_) ?_
    | with_reducible refine answers_next ?_
    | split
theorem State.takeFrame_keeps {P : List Part} {r : State} (frame : Bytes) (s : State)
    (sub : ∀ p, p ∈ [.pwr, .media, .map, .care, .yoke, .atom, .keys, .reg, .tabs, .dict, .mbox, .obs, .perf, .cmds] → p ∈ P) (h : r.keepsBut P s) : r.keepsBut P (State.takeFrame frame s) := by
  unfold State.takeFrame
  try dsimp only
  repeat' first
    | with_reducible exact h
    | (with_reducible refine sub _ ?_); decide
    | (with_reducible refine part_sub sub ?_); decide
    | with_reducible apply State.count_keeps
    | with_reducible apply State.heard_keeps
    | with_reducible apply State.sendWaiting_keeps
    | with_reducible apply State.yokeDown_keeps
    | with_reducible refine State.keeps_upYoke _ ?_ ?_
    | with_reducible assumption
    | with_reducible refine keeps_ite ?_ ?_
    | with_reducible refine keeps_foldl (fun _ _ _ => ?_) ?_
    | split
theorem execYokeFrameReceive_keeps {P : List Part} {r : State} (frame : Bytes) (s : State)
    (sub : ∀ p, p ∈ Part.most → p ∈ P) (h : r.keepsBut P s) : Answers r P (execYokeFrameReceive frame s) := by
  unfold execYokeFrameReceive
  try dsimp only
  repeat' first
    | with_reducible exact h
    | (with_reducible refine sub _ ?_); decide
    | (with_reducible refine part_sub sub ?_); decide
    | with_reducible apply State.serveWaiting_keeps
    | with_reducible apply State.takeFrame_keeps
    | with_reducible assumption
    | with_reducible refine keeps_ite ?_ ?_
    | with_reducible refine keeps_foldl (fun _ _ _ => ?_) ?_
    | with_reducible refine answers_next ?_
    | split
theorem execYokeRetransmit_keeps {P : List Part} {r : State} (s : State)
    (sub : ∀ p, p ∈ [.clk, .yoke, .obs, .perf] → p ∈ P) (h : r.keepsBut P s) : Answers r P (execYokeRetransmit s) := by
  unfold execYokeRetransmit
  try dsimp only
  repeat' first
    | with_reducible exact h
    | (with_reducible refine sub _ ?_); decide
    | (with_reducible refine part_sub sub ?_); decide
    | with_reducible apply State.count_keeps
    | with_reducible apply State.elapseTo_keeps
    | with_reducible refine State.keeps_upYoke _ ?_ ?_
    | with_reducible assumption
    | with_reducible refine keeps_ite ?_ ?_
    | with_reducible refine keeps_foldl (fun _ _ _ => ?_) ?_
    | with_reducible refine answers_next ?_
    | split
theorem State.arrives_keeps {P : List Part} {r : State} (f : State → State) (s : State)
    (sub : ∀ p, p ∈ Part.most → p ∈ P) (h : r.keepsBut P s) (hrun : ∀ t, r.keepsBut P t → r.keepsBut P (f t)) : r.keepsBut P (State.arrives f s) := by
  unfold State.arrives
  try dsimp only
  repeat' first
    | with_reducible exact h
    | (with_reducible refine sub _ ?_); decide
    | (with_reducible refine part_sub sub ?_); decide
    | with_reducible apply State.heard_keeps
    | with_reducible apply State.serveWaiting_keeps
    | with_reducible assumption
    | with_reducible refine keeps_ite ?_ ?_
    | with_reducible refine keeps_foldl (fun _ _ _ => ?_) ?_
    | with_reducible refine hrun _ ?_
    | (with_reducible intro _ _); dsimp only
    | with_reducible intro _ _
    | split
theorem State.message_keeps {P : List Part} {r : State} (ty : Nat) (f : State → State) (s : State)
    (sub : ∀ p, p ∈ Part.most → p ∈ P) (h : r.keepsBut P s) (hrun : ∀ t, r.keepsBut P t → r.keepsBut P (f t)) : r.keepsBut P (State.message ty f s) := by
  unfold State.message
  try dsimp only
  repeat' first
    | with_reducible exact h
    | (with_reducible refine sub _ ?_); decide
    | (with_reducible refine part_sub sub ?_); decide
    | with_reducible apply State.arrives_keeps
    | with_reducible apply State.owe_keeps
    | with_reducible assumption
    | with_reducible refine keeps_ite ?_ ?_
    | with_reducible refine keeps_foldl (fun _ _ _ => ?_) ?_
    | with_reducible refine hrun _ ?_
    | (with_reducible intro _ _); dsimp only
    | with_reducible intro _ _
    | split
    | with_reducible refine keepsPP_mk ?_
    | with_reducible refine KeepsPP.snd ?_
    | with_reducible refine KeepsPP.out (by assumption) ?_
theorem State.pairMessage_keeps {P : List Part} {r : State} (ty : Nat) (f : State → State) (s : State)
    (sub : ∀ p, p ∈ Part.most → p ∈ P) (h : r.keepsBut P s) (hrun : ∀ t, r.keepsBut P t → r.keepsBut P (f t)) : r.keepsBut P (State.pairMessage ty f s) := by
  unfold State.pairMessage
  try dsimp only
  repeat' first
    | with_reducible exact h
    | (with_reducible refine sub _ ?_); decide
    | (with_reducible refine part_sub sub ?_); decide
    | with_reducible apply State.message_keeps
    | with_reducible assumption
    | with_reducible refine keeps_ite ?_ ?_
    | with_reducible refine keeps_foldl (fun _ _ _ => ?_) ?_
    | with_reducible refine hrun _ ?_
    | (with_reducible intro _ _); dsimp only
    | with_reducible intro _ _
    | split
    | with_reducible refine keepsPP_mk ?_
    | with_reducible refine KeepsPP.snd ?_
    | with_reducible refine KeepsPP.out (by assumption) ?_
theorem execForward_keeps {P : List Part} {r : State} (m : YokeWrite) (s : State)
    (sub : ∀ p, p ∈ Part.most → p ∈ P) (h : r.keepsBut P s) : Answers r P (execForward m s) := by
  unfold execForward
  try dsimp only
  repeat' first
    | with_reducible exact h
    | (with_reducible refine sub _ ?_); decide
    | (with_reducible refine part_sub sub ?_); decide
    | with_reducible apply State.arrives_keeps
    | with_reducible apply State.noteYokeCrc_keeps
    | with_reducible apply State.takeMessage_keeps
    | with_reducible assumption
    | with_reducible refine keeps_ite ?_ ?_
    | with_reducible refine keeps_foldl (fun _ _ _ => ?_) ?_
    | with_reducible refine answers_next ?_
    | (with_reducible intro _ _); dsimp only
    | with_reducible intro _ _
    | split
    | with_reducible refine keepsPP_mk ?_
    | with_reducible refine KeepsPP.snd ?_
    | with_reducible refine KeepsPP.out (by assumption) ?_
theorem execMirror_keeps {P : List Part} {r : State} (m : YokeWrite) (s : State)
    (sub : ∀ p, p ∈ Part.most → p ∈ P) (h : r.keepsBut P s) : Answers r P (execMirror m s) := by
  unfold execMirror
  try dsimp only
  repeat' first
    | with_reducible exact h
    | (with_reducible refine sub _ ?_); decide
    | (with_reducible refine part_sub sub ?_); decide
    | with_reducible apply State.arrives_keeps
    | with_reducible apply State.endResync_keeps
    | with_reducible apply State.noteYokeCrc_keeps
    | with_reducible apply State.takeMessage_keeps
    | with_reducible assumption
    | with_reducible refine keeps_ite ?_ ?_
    | with_reducible refine keeps_foldl (fun _ _ _ => ?_) ?_
    | with_reducible refine answers_next ?_
    | (with_reducible intro _ _); dsimp only
    | with_reducible intro _ _
    | split
    | with_reducible refine keepsPP_mk ?_
    | with_reducible refine KeepsPP.snd ?_
    | with_reducible refine KeepsPP.out (by assumption) ?_
theorem execOrdered_keeps {P : List Part} {r : State} (tag : Nat) (outcome : Nat) (s : State)
    (sub : ∀ p, p ∈ Part.most → p ∈ P) (h : r.keepsBut P s) : Answers r P (execOrdered tag outcome s) := by
  unfold execOrdered
  try dsimp only
  repeat' first
    | with_reducible exact h
    | (with_reducible refine sub _ ?_); decide
    | (with_reducible refine part_sub sub ?_); decide
    | with_reducible apply State.arrives_keeps
    | with_reducible apply State.endResync_keeps
    | with_reducible apply State.takeMessage_keeps
    | with_reducible assumption
    | with_reducible refine keeps_ite ?_ ?_
    | with_reducible refine keeps_foldl (fun _ _ _ => ?_) ?_
    | with_reducible refine answers_next ?_
    | (with_reducible intro _ _); dsimp only
    | with_reducible intro _ _
    | split
    | with_reducible refine keepsPP_mk ?_
    | with_reducible refine KeepsPP.snd ?_
    | with_reducible refine KeepsPP.out (by assumption) ?_
theorem execMirrorAck_keeps {P : List Part} {r : State} (tag : Nat) (s : State)
    (sub : ∀ p, p ∈ Part.most → p ∈ P) (h : r.keepsBut P s) : Answers r P (execMirrorAck tag s) := by
  unfold execMirrorAck
  try dsimp only
  repeat' first
    | with_reducible exact h
    | (with_reducible refine sub _ ?_); decide
    | (with_reducible refine part_sub sub ?_); decide
    | with_reducible apply State.ackMirror_keeps
    | with_reducible apply State.pairMessage_keeps
    | with_reducible assumption
    | with_reducible refine keeps_ite ?_ ?_
    | with_reducible refine keeps_foldl (fun _ _ _ => ?_) ?_
    | with_reducible refine answers_next ?_
    | (with_reducible intro _ _); dsimp only
    | with_reducible intro _ _
    | split
    | with_reducible refine keepsPP_mk ?_
    | with_reducible refine KeepsPP.snd ?_
    | with_reducible refine KeepsPP.out (by assumption) ?_
theorem execReadForward_keeps {P : List Part} {r : State} (tag : Nat) (line : Nat) (s : State)
    (sub : ∀ p, p ∈ Part.most → p ∈ P) (h : r.keepsBut P s) : Answers r P (execReadForward tag line s) := by
  unfold execReadForward
  try dsimp only
  repeat' first
    | with_reducible exact h
    | (with_reducible refine sub _ ?_); decide
    | (with_reducible refine part_sub sub ?_); decide
    | with_reducible apply State.pairMessage_keeps
    | with_reducible apply State.takeReadForward_keeps
    | with_reducible assumption
    | with_reducible refine keeps_ite ?_ ?_
    | with_reducible refine keeps_foldl (fun _ _ _ => ?_) ?_
    | with_reducible refine answers_next ?_
    | (with_reducible intro _ _); dsimp only
    | with_reducible intro _ _
    | split
    | with_reducible refine keepsPP_mk ?_
    | with_reducible refine KeepsPP.snd ?_
    | with_reducible refine KeepsPP.out (by assumption) ?_
theorem execReadData_keeps {P : List Part} {r : State} (tag : Nat) (line : Nat) (data : Line) (poisoned : Bool) (lineOk : Bool) (s : State)
    (sub : ∀ p, p ∈ Part.most → p ∈ P) (h : r.keepsBut P s) : Answers r P (execReadData tag line data poisoned lineOk s) := by
  unfold execReadData
  try dsimp only
  repeat' first
    | with_reducible exact h
    | (with_reducible refine sub _ ?_); decide
    | (with_reducible refine part_sub sub ?_); decide
    | with_reducible apply State.noteYokeCrc_keeps
    | with_reducible apply State.pairMessage_keeps
    | with_reducible apply State.takeReadData_keeps
    | with_reducible assumption
    | with_reducible refine keeps_ite ?_ ?_
    | with_reducible refine keeps_foldl (fun _ _ _ => ?_) ?_
    | with_reducible refine answers_next ?_
    | (with_reducible intro _ _); dsimp only
    | with_reducible intro _ _
    | split
    | with_reducible refine keepsPP_mk ?_
    | with_reducible refine KeepsPP.snd ?_
    | with_reducible refine KeepsPP.out (by assumption) ?_
theorem execResyncGrainRead_keeps {P : List Part} {r : State} (reads : List WordRead) (s : State)
    (sub : ∀ p, p ∈ [.clk, .pwr, .media, .map, .care, .yoke, .reg, .dram, .gills, .obs, .perf, .rstats, .cmds] → p ∈ P) (h : r.keepsBut P s) : Answers r P (execResyncGrainRead reads s) := by
  unfold execResyncGrainRead
  try dsimp only
  repeat' first
    | with_reducible exact h
    | (with_reducible refine sub _ ?_); decide
    | (with_reducible refine part_sub sub ?_); decide
    | with_reducible apply State.elapseTo_keeps
    | with_reducible apply State.feedGrain_keeps
    | with_reducible assumption
    | with_reducible refine keeps_ite ?_ ?_
    | with_reducible refine keeps_foldl (fun _ _ _ => ?_) ?_
    | with_reducible refine answers_next ?_
    | split
theorem execResyncSector_keeps {P : List Part} {r : State} (grain : Nat) (sector : Nat) (st : Nat) (data : List Line) (poison : BitVec 32) (crcBad : BitVec 32) (s : State)
    (sub : ∀ p, p ∈ Part.most → p ∈ P) (h : r.keepsBut P s) : Answers r P (execResyncSector grain sector st data poison crcBad s) := by
  unfold execResyncSector
  try dsimp only
  repeat' first
    | with_reducible exact h
    | (with_reducible refine sub _ ?_); decide
    | (with_reducible refine part_sub sub ?_); decide
    | with_reducible apply State.message_keeps
    | with_reducible apply State.noteYokeCrc_keeps
    | with_reducible apply State.takeSector_keeps
    | with_reducible assumption
    | with_reducible refine keeps_ite ?_ ?_
    | with_reducible refine keeps_foldl (fun _ _ _ => ?_) ?_
    | with_reducible refine answers_next ?_
    | (with_reducible intro _ _); dsimp only
    | with_reducible intro _ _
    | split
    | with_reducible refine keepsPP_mk ?_
    | with_reducible refine KeepsPP.snd ?_
    | with_reducible refine KeepsPP.out (by assumption) ?_
theorem execResyncAck_keeps {P : List Part} {r : State} (grain : Nat) (s : State)
    (sub : ∀ p, p ∈ Part.most → p ∈ P) (h : r.keepsBut P s) : Answers r P (execResyncAck grain s) := by
  unfold execResyncAck
  try dsimp only
  repeat' first
    | with_reducible exact h
    | (with_reducible refine sub _ ?_); decide
    | (with_reducible refine part_sub sub ?_); decide
    | with_reducible apply State.message_keeps
    | with_reducible apply State.resyncAcked_keeps
    | with_reducible assumption
    | with_reducible refine keeps_ite ?_ ?_
    | with_reducible refine keeps_foldl (fun _ _ _ => ?_) ?_
    | with_reducible refine answers_next ?_
    | (with_reducible intro _ _); dsimp only
    | with_reducible intro _ _
    | split
    | with_reducible refine keepsPP_mk ?_
    | with_reducible refine KeepsPP.snd ?_
    | with_reducible refine KeepsPP.out (by assumption) ?_
theorem execResyncClear_keeps {P : List Part} {r : State} (grain : Nat) (s : State)
    (sub : ∀ p, p ∈ Part.most → p ∈ P) (h : r.keepsBut P s) : Answers r P (execResyncClear grain s) := by
  unfold execResyncClear
  try dsimp only
  repeat' first
    | with_reducible exact h
    | (with_reducible refine sub _ ?_); decide
    | (with_reducible refine part_sub sub ?_); decide
    | with_reducible apply State.message_keeps
    | with_reducible apply State.resyncCleared_keeps
    | with_reducible assumption
    | with_reducible refine keeps_ite ?_ ?_
    | with_reducible refine keeps_foldl (fun _ _ _ => ?_) ?_
    | with_reducible refine answers_next ?_
    | (with_reducible intro _ _); dsimp only
    | with_reducible intro _ _
    | split
    | with_reducible refine keepsPP_mk ?_
    | with_reducible refine KeepsPP.snd ?_
    | with_reducible refine KeepsPP.out (by assumption) ?_
theorem execBitmapUnit_keeps {P : List Part} {r : State} (unit : Nat) (set : List Nat) (s : State)
    (sub : ∀ p, p ∈ Part.most → p ∈ P) (h : r.keepsBut P s) : Answers r P (execBitmapUnit unit set s) := by
  unfold execBitmapUnit
  try dsimp only
  repeat' first
    | with_reducible exact h
    | (with_reducible refine sub _ ?_); decide
    | (with_reducible refine part_sub sub ?_); decide
    | with_reducible apply State.message_keeps
    | with_reducible apply State.takeBitmap_keeps
    | with_reducible assumption
    | with_reducible refine keeps_ite ?_ ?_
    | with_reducible refine keeps_foldl (fun _ _ _ => ?_) ?_
    | with_reducible refine answers_next ?_
    | (with_reducible intro _ _); dsimp only
    | with_reducible intro _ _
    | split
    | with_reducible refine keepsPP_mk ?_
    | with_reducible refine KeepsPP.snd ?_
    | with_reducible refine KeepsPP.out (by assumption) ?_
theorem execHeartbeatSend_keeps {P : List Part} {r : State} (s : State)
    (sub : ∀ p, p ∈ [.care, .yoke, .obs, .perf, .cmds] → p ∈ P) (h : r.keepsBut P s) : Answers r P (execHeartbeatSend s) := by
  unfold execHeartbeatSend
  try dsimp only
  repeat' first
    | with_reducible exact h
    | (with_reducible refine sub _ ?_); decide
    | (with_reducible refine part_sub sub ?_); decide
    | with_reducible apply State.answerRelease_keeps
    | with_reducible apply State.sendMember_keeps
    | with_reducible assumption
    | with_reducible refine keeps_ite ?_ ?_
    | with_reducible refine keeps_foldl (fun _ _ _ => ?_) ?_
    | with_reducible refine answers_next ?_
    | split
theorem execHeartbeat_keeps {P : List Part} {r : State} (m : Membership) (s : State)
    (sub : ∀ p, p ∈ Part.most → p ∈ P) (h : r.keepsBut P s) : Answers r P (execHeartbeat m s) := by
  unfold execHeartbeat
  try dsimp only
  repeat' first
    | with_reducible exact h
    | (with_reducible refine sub _ ?_); decide
    | (with_reducible refine part_sub sub ?_); decide
    | with_reducible apply State.endResync_keeps
    | with_reducible apply State.message_keeps
    | with_reducible apply State.notePeer_keeps
    | with_reducible apply State.resume_keeps
    | with_reducible refine State.keeps_upYoke _ ?_ ?_
    | with_reducible assumption
    | with_reducible refine keeps_ite ?_ ?_
    | with_reducible refine keeps_foldl (fun _ _ _ => ?_) ?_
    | with_reducible refine answers_next ?_
    | (with_reducible intro _ _); dsimp only
    | with_reducible intro _ _
    | split
    | with_reducible refine keepsPP_mk ?_
    | with_reducible refine KeepsPP.snd ?_
    | with_reducible refine KeepsPP.out (by assumption) ?_
theorem execHello_keeps {P : List Part} {r : State} (m : Membership) (x : HelloInfo) (s : State)
    (sub : ∀ p, p ∈ Part.most → p ∈ P) (h : r.keepsBut P s) : Answers r P (execHello m x s) := by
  unfold execHello
  try dsimp only
  repeat' first
    | with_reducible exact h
    | (with_reducible refine sub _ ?_); decide
    | (with_reducible refine part_sub sub ?_); decide
    | with_reducible apply State.handshake_keeps
    | with_reducible apply State.message_keeps
    | with_reducible apply State.notePeer_keeps
    | with_reducible apply State.resume_keeps
    | with_reducible assumption
    | with_reducible refine keeps_ite ?_ ?_
    | with_reducible refine keeps_foldl (fun _ _ _ => ?_) ?_
    | with_reducible refine answers_next ?_
    | (with_reducible intro _ _); dsimp only
    | with_reducible intro _ _
    | split
    | with_reducible refine keepsPP_mk ?_
    | with_reducible refine KeepsPP.snd ?_
    | with_reducible refine KeepsPP.out (by assumption) ?_
theorem execStandDown_keeps {P : List Part} {r : State} (m : Membership) (s : State)
    (sub : ∀ p, p ∈ Part.most → p ∈ P) (h : r.keepsBut P s) : Answers r P (execStandDown m s) := by
  unfold execStandDown
  try dsimp only
  repeat' first
    | with_reducible exact h
    | (with_reducible refine sub _ ?_); decide
    | (with_reducible refine part_sub sub ?_); decide
    | with_reducible apply State.message_keeps
    | with_reducible apply State.peerStoodDown_keeps
    | with_reducible assumption
    | with_reducible refine keeps_ite ?_ ?_
    | with_reducible refine keeps_foldl (fun _ _ _ => ?_) ?_
    | with_reducible refine answers_next ?_
    | (with_reducible intro _ _); dsimp only
    | with_reducible intro _ _
    | split
    | with_reducible refine keepsPP_mk ?_
    | with_reducible refine KeepsPP.snd ?_
    | with_reducible refine KeepsPP.out (by assumption) ?_
theorem execModuleStandDown_keeps {P : List Part} {r : State} (cause : StandDownCause) (s : State)
    (sub : ∀ p, p ∈ Part.most → p ∈ P) (h : r.keepsBut P s) : Answers r P (execModuleStandDown cause s) := by
  unfold execModuleStandDown
  try dsimp only
  repeat' first
    | with_reducible exact h
    | (with_reducible refine sub _ ?_); decide
    | (with_reducible refine part_sub sub ?_); decide
    | with_reducible apply State.becomeFenced_keeps
    | with_reducible apply State.loseCommit_keeps
    | with_reducible apply State.serveWaiting_keeps
    | with_reducible apply State.standDown_keeps
    | with_reducible apply State.withdrawNow_keeps
    | with_reducible assumption
    | with_reducible refine keeps_ite ?_ ?_
    | with_reducible refine keeps_foldl (fun _ _ _ => ?_) ?_
    | with_reducible refine answers_next ?_
    | split
theorem execCommitPrepare_keeps {P : List Part} {r : State} (batch : Nat) (seg : Nat) (last : Bool) (recs : List StageRec) (s : State)
    (sub : ∀ p, p ∈ Part.most → p ∈ P) (h : r.keepsBut P s) : Answers r P (execCommitPrepare batch seg last recs s) := by
  unfold execCommitPrepare
  try dsimp only
  repeat' first
    | with_reducible exact h
    | (with_reducible refine sub _ ?_); decide
    | (with_reducible refine part_sub sub ?_); decide
    | with_reducible apply State.message_keeps
    | with_reducible apply State.takePrepare_keeps
    | with_reducible assumption
    | with_reducible refine keeps_ite ?_ ?_
    | with_reducible refine keeps_foldl (fun _ _ _ => ?_) ?_
    | with_reducible refine answers_next ?_
    | (with_reducible intro _ _); dsimp only
    | with_reducible intro _ _
    | split
    | with_reducible refine keepsPP_mk ?_
    | with_reducible refine KeepsPP.snd ?_
    | with_reducible refine KeepsPP.out (by assumption) ?_
theorem execCommitVote_keeps {P : List Part} {r : State} (batch : Nat) (code : Nat) (s : State)
    (sub : ∀ p, p ∈ Part.most → p ∈ P) (h : r.keepsBut P s) : Answers r P (execCommitVote batch code s) := by
  unfold execCommitVote
  try dsimp only
  repeat' first
    | with_reducible exact h
    | (with_reducible refine sub _ ?_); decide
    | (with_reducible refine part_sub sub ?_); decide
    | with_reducible apply State.message_keeps
    | with_reducible apply State.takeVote_keeps
    | with_reducible assumption
    | with_reducible refine keeps_ite ?_ ?_
    | with_reducible refine keeps_foldl (fun _ _ _ => ?_) ?_
    | with_reducible refine answers_next ?_
    | (with_reducible intro _ _); dsimp only
    | with_reducible intro _ _
    | split
    | with_reducible refine keepsPP_mk ?_
    | with_reducible refine KeepsPP.snd ?_
    | with_reducible refine KeepsPP.out (by assumption) ?_
theorem execCommitApply_keeps {P : List Part} {r : State} (batch : Nat) (s : State)
    (sub : ∀ p, p ∈ Part.most → p ∈ P) (h : r.keepsBut P s) : Answers r P (execCommitApply batch s) := by
  unfold execCommitApply
  try dsimp only
  repeat' first
    | with_reducible exact h
    | (with_reducible refine sub _ ?_); decide
    | (with_reducible refine part_sub sub ?_); decide
    | with_reducible apply State.message_keeps
    | with_reducible apply State.takeApply_keeps
    | with_reducible assumption
    | with_reducible refine keeps_ite ?_ ?_
    | with_reducible refine keeps_foldl (fun _ _ _ => ?_) ?_
    | with_reducible refine answers_next ?_
    | (with_reducible intro _ _); dsimp only
    | with_reducible intro _ _
    | split
    | with_reducible refine keepsPP_mk ?_
    | with_reducible refine KeepsPP.snd ?_
    | with_reducible refine KeepsPP.out (by assumption) ?_
theorem execCommitDone_keeps {P : List Part} {r : State} (batch : Nat) (s : State)
    (sub : ∀ p, p ∈ Part.most → p ∈ P) (h : r.keepsBut P s) : Answers r P (execCommitDone batch s) := by
  unfold execCommitDone
  try dsimp only
  repeat' first
    | with_reducible exact h
    | (with_reducible refine sub _ ?_); decide
    | (with_reducible refine part_sub sub ?_); decide
    | with_reducible apply State.message_keeps
    | with_reducible apply State.takeDone_keeps
    | with_reducible assumption
    | with_reducible refine keeps_ite ?_ ?_
    | with_reducible refine keeps_foldl (fun _ _ _ => ?_) ?_
    | with_reducible refine answers_next ?_
    | (with_reducible intro _ _); dsimp only
    | with_reducible intro _ _
    | split
    | with_reducible refine keepsPP_mk ?_
    | with_reducible refine KeepsPP.snd ?_
    | with_reducible refine KeepsPP.out (by assumption) ?_
theorem execNotice_keeps {P : List Part} {r : State} (code : Nat) (keyId : Nat) (base : Nat) (length : Nat) (s : State)
    (sub : ∀ p, p ∈ Part.most → p ∈ P) (h : r.keepsBut P s) : Answers r P (execNotice code keyId base length s) := by
  unfold execNotice
  try dsimp only
  repeat' first
    | with_reducible exact h
    | (with_reducible refine sub _ ?_); decide
    | (with_reducible refine part_sub sub ?_); decide
    | with_reducible apply State.pairMessage_keeps
    | with_reducible apply State.takeNotice_keeps
    | with_reducible assumption
    | with_reducible refine keeps_ite ?_ ?_
    | with_reducible refine keeps_foldl (fun _ _ _ => ?_) ?_
    | with_reducible refine answers_next ?_
    | (with_reducible intro _ _); dsimp only
    | with_reducible intro _ _
    | split
    | with_reducible refine keepsPP_mk ?_
    | with_reducible refine KeepsPP.snd ?_
    | with_reducible refine KeepsPP.out (by assumption) ?_
theorem execGrainChange_keeps {P : List Part} {r : State} (grain : Nat) (st : Nat) (s : State)
    (sub : ∀ p, p ∈ Part.most → p ∈ P) (h : r.keepsBut P s) : Answers r P (execGrainChange grain st s) := by
  unfold execGrainChange
  try dsimp only
  repeat' first
    | with_reducible exact h
    | (with_reducible refine sub _ ?_); decide
    | (with_reducible refine part_sub sub ?_); decide
    | with_reducible apply State.arrives_keeps
    | with_reducible apply State.checkDies_keeps
    | with_reducible apply State.takeMessage_keeps
    | with_reducible assumption
    | with_reducible refine keeps_ite ?_ ?_
    | with_reducible refine keeps_foldl (fun _ _ _ => ?_) ?_
    | with_reducible refine answers_next ?_
    | (with_reducible intro _ _); dsimp only
    | with_reducible intro _ _
    | split
    | with_reducible refine keepsPP_mk ?_
    | with_reducible refine KeepsPP.snd ?_
    | with_reducible refine KeepsPP.out (by assumption) ?_
theorem execGrainChangeAck_keeps {P : List Part} {r : State} (grain : Nat) (s : State)
    (sub : ∀ p, p ∈ Part.most → p ∈ P) (h : r.keepsBut P s) : Answers r P (execGrainChangeAck grain s) := by
  unfold execGrainChangeAck
  try dsimp only
  repeat' first
    | with_reducible exact h
    | (with_reducible refine sub _ ?_); decide
    | (with_reducible refine part_sub sub ?_); decide
    | with_reducible apply State.arrives_keeps
    | with_reducible apply State.checkDies_keeps
    | with_reducible apply State.takeMessage_keeps
    | with_reducible assumption
    | with_reducible refine keeps_ite ?_ ?_
    | with_reducible refine keeps_foldl (fun _ _ _ => ?_) ?_
    | with_reducible refine answers_next ?_
    | (with_reducible intro _ _); dsimp only
    | with_reducible intro _ _
    | split
    | with_reducible refine keepsPP_mk ?_
    | with_reducible refine KeepsPP.snd ?_
    | with_reducible refine KeepsPP.out (by assumption) ?_
theorem execYokeDictionary_keeps {P : List Part} {r : State} (msg : Bytes) (s : State)
    (sub : ∀ p, p ∈ Part.most → p ∈ P) (h : r.keepsBut P s) : Answers r P (execYokeDictionary msg s) := by
  unfold execYokeDictionary
  try dsimp only
  repeat' first
    | with_reducible exact h
    | (with_reducible refine sub _ ?_); decide
    | (with_reducible refine part_sub sub ?_); decide
    | with_reducible apply State.message_keeps
    | with_reducible apply State.send_keeps
    | with_reducible apply State.takeBytes_keeps
    | with_reducible refine State.keeps_upDict _ ?_ ?_
    | with_reducible assumption
    | with_reducible refine keeps_ite ?_ ?_
    | with_reducible refine keeps_foldl (fun _ _ _ => ?_) ?_
    | with_reducible refine answers_next ?_
    | (with_reducible intro _ _); dsimp only
    | with_reducible intro _ _
    | split
    | with_reducible refine keepsPP_mk ?_
    | with_reducible refine KeepsPP.snd ?_
    | with_reducible refine KeepsPP.out (by assumption) ?_
theorem execYokeSilent_keeps {P : List Part} {r : State} (s : State)
    (sub : ∀ p, p ∈ Part.most → p ∈ P) (h : r.keepsBut P s) : Answers r P (execYokeSilent s) := by
  unfold execYokeSilent
  try dsimp only
  repeat' first
    | with_reducible exact h
    | (with_reducible refine sub _ ?_); decide
    | (with_reducible refine part_sub sub ?_); decide
    | with_reducible apply State.elapseTo_keeps
    | with_reducible apply State.goSilent_keeps
    | with_reducible apply State.serveWaiting_keeps
    | with_reducible assumption
    | with_reducible refine keeps_ite ?_ ?_
    | with_reducible refine keeps_foldl (fun _ _ _ => ?_) ?_
    | with_reducible refine answers_next ?_
    | split
theorem execAliveWireState_keeps {P : List Part} {r : State} (serving : Bool) (s : State)
    (sub : ∀ p, p ∈ [.yoke, .obs] → p ∈ P) (h : r.keepsBut P s) : Answers r P (execAliveWireState serving s) := by
  unfold execAliveWireState
  try dsimp only
  repeat' first
    | with_reducible exact h
    | (with_reducible refine sub _ ?_); decide
    | (with_reducible refine part_sub sub ?_); decide
    | with_reducible apply State.log_keeps
    | with_reducible refine State.keeps_upYoke _ ?_ ?_
    | with_reducible assumption
    | with_reducible refine keeps_ite ?_ ?_
    | with_reducible refine keeps_foldl (fun _ _ _ => ?_) ?_
    | with_reducible refine answers_next ?_
    | split
theorem execAliveWireSilent_keeps {P : List Part} {r : State} (s : State)
    (sub : ∀ p, p ∈ [.clk, .yoke, .obs, .perf] → p ∈ P) (h : r.keepsBut P s) : Answers r P (execAliveWireSilent s) := by
  unfold execAliveWireSilent
  try dsimp only
  repeat' first
    | with_reducible exact h
    | (with_reducible refine sub _ ?_); decide
    | (with_reducible refine part_sub sub ?_); decide
    | with_reducible apply State.elapseTo_keeps
    | with_reducible apply State.log_keeps
    | with_reducible refine State.keeps_upYoke _ ?_ ?_
    | with_reducible assumption
    | with_reducible refine keeps_ite ?_ ?_
    | with_reducible refine keeps_foldl (fun _ _ _ => ?_) ?_
    | with_reducible refine answers_next ?_
    | split
theorem execPulseSend_keeps {P : List Part} {r : State} (s : State)
    (sub : ∀ p, p ∈ [.yoke, .obs, .perf] → p ∈ P) (h : r.keepsBut P s) : Answers r P (execPulseSend s) := by
  unfold execPulseSend
  try dsimp only
  repeat' first
    | with_reducible exact h
    | (with_reducible refine sub _ ?_); decide
    | (with_reducible refine part_sub sub ?_); decide
    | with_reducible apply State.sendPulse_keeps
    | with_reducible assumption
    | with_reducible refine keeps_ite ?_ ?_
    | with_reducible refine keeps_foldl (fun _ _ _ => ?_) ?_
    | with_reducible refine answers_next ?_
    | split
theorem execPulse_keeps {P : List Part} {r : State} (m : Membership) (s : State)
    (sub : ∀ p, p ∈ [.yoke, .obs] → p ∈ P) (h : r.keepsBut P s) : Answers r P (execPulse m s) := by
  unfold execPulse
  try dsimp only
  repeat' first
    | with_reducible exact h
    | (with_reducible refine sub _ ?_); decide
    | (with_reducible refine part_sub sub ?_); decide
    | with_reducible apply State.log_keeps
    | with_reducible apply State.notePeer_keeps
    | with_reducible refine State.keeps_upYoke _ ?_ ?_
    | with_reducible assumption
    | with_reducible refine keeps_ite ?_ ?_
    | with_reducible refine keeps_foldl (fun _ _ _ => ?_) ?_
    | with_reducible refine answers_next ?_
    | split
theorem execPulseSilent_keeps {P : List Part} {r : State} (s : State)
    (sub : ∀ p, p ∈ [.clk, .yoke, .obs, .perf] → p ∈ P) (h : r.keepsBut P s) : Answers r P (execPulseSilent s) := by
  unfold execPulseSilent
  try dsimp only
  repeat' first
    | with_reducible exact h
    | (with_reducible refine sub _ ?_); decide
    | (with_reducible refine part_sub sub ?_); decide
    | with_reducible apply State.elapseTo_keeps
    | with_reducible apply State.log_keeps
    | with_reducible refine State.keeps_upYoke _ ?_ ?_
    | with_reducible assumption
    | with_reducible refine keeps_ite ?_ ?_
    | with_reducible refine keeps_foldl (fun _ _ _ => ?_) ?_
    | with_reducible refine answers_next ?_
    | split
theorem execSuspectDecision_keeps {P : List Part} {r : State} (s : State)
    (sub : ∀ p, p ∈ [.pwr, .port, .reqs, .fc, .tier, .slices, .budget, .media, .map, .care, .yoke, .atom, .keys, .reg, .tabs, .dict, .mbox, .obs, .perf, .firkin, .rstats, .cmds] → p ∈ P) (h : r.keepsBut P s) : Answers r P (execSuspectDecision s) := by
  unfold execSuspectDecision
  try dsimp only
  repeat' first
    | with_reducible exact h
    | (with_reducible refine sub _ ?_); decide
    | (with_reducible refine part_sub sub ?_); decide
    | with_reducible apply State.decideNow_keeps
    | with_reducible assumption
    | with_reducible refine keeps_ite ?_ ?_
    | with_reducible refine keeps_foldl (fun _ _ _ => ?_) ?_
    | with_reducible refine answers_next ?_
    | split
theorem execJuniorFenceDelay_keeps {P : List Part} {r : State} (s : State)
    (sub : ∀ p, p ∈ [.clk, .pwr, .port, .reqs, .fc, .tier, .slices, .budget, .media, .map, .care, .yoke, .atom, .keys, .reg, .tabs, .dict, .mbox, .obs, .perf, .firkin, .rstats, .cmds] → p ∈ P) (h : r.keepsBut P s) : Answers r P (execJuniorFenceDelay s) := by
  unfold execJuniorFenceDelay
  try dsimp only
  repeat' first
    | with_reducible exact h
    | (with_reducible refine sub _ ?_); decide
    | (with_reducible refine part_sub sub ?_); decide
    | with_reducible apply State.decideNow_keeps
    | with_reducible apply State.elapseTo_keeps
    | with_reducible assumption
    | with_reducible refine keeps_ite ?_ ?_
    | with_reducible refine keeps_foldl (fun _ _ _ => ?_) ?_
    | with_reducible refine answers_next ?_
    | split
theorem execSeniorFenceWait_keeps {P : List Part} {r : State} (s : State)
    (sub : ∀ p, p ∈ [.clk, .pwr, .port, .reqs, .fc, .tier, .slices, .budget, .media, .map, .care, .yoke, .atom, .keys, .reg, .tabs, .dict, .mbox, .obs, .perf, .firkin, .rstats, .cmds] → p ∈ P) (h : r.keepsBut P s) : Answers r P (execSeniorFenceWait s) := by
  unfold execSeniorFenceWait
  try dsimp only
  repeat' first
    | with_reducible exact h
    | (with_reducible refine sub _ ?_); decide
    | (with_reducible refine part_sub sub ?_); decide
    | with_reducible apply State.decideNow_keeps
    | with_reducible apply State.elapseTo_keeps
    | with_reducible assumption
    | with_reducible refine keeps_ite ?_ ?_
    | with_reducible refine keeps_foldl (fun _ _ _ => ?_) ?_
    | with_reducible refine answers_next ?_
    | split
theorem execTakeoverSilence_keeps {P : List Part} {r : State} (s : State)
    (sub : ∀ p, p ∈ [.clk, .pwr, .port, .reqs, .fc, .tier, .slices, .budget, .media, .map, .care, .yoke, .atom, .keys, .reg, .tabs, .dict, .mbox, .obs, .perf, .firkin, .rstats, .cmds] → p ∈ P) (h : r.keepsBut P s) : Answers r P (execTakeoverSilence s) := by
  unfold execTakeoverSilence
  try dsimp only
  repeat' first
    | with_reducible exact h
    | (with_reducible refine sub _ ?_); decide
    | (with_reducible refine part_sub sub ?_); decide
    | with_reducible apply State.decideNow_keeps
    | with_reducible apply State.elapseTo_keeps
    | with_reducible assumption
    | with_reducible refine keeps_ite ?_ ?_
    | with_reducible refine keeps_foldl (fun _ _ _ => ?_) ?_
    | with_reducible refine answers_next ?_
    | split

end Sys2Proof.Machine
end

