-- ==== Sys2Proof/Laws/KeepsMailbox.lean ====
section
/-!
SUPPORT. What each operation of Machine/Mailbox.lean leaves unchanged: the groups of the state it may write, the others kept.
-/
namespace Sys2Proof.Machine

theorem State.mboxGate_keeps {P : List Part} {r : State} (w : Who) (opcode : Nat) (input : Bytes) (run : State → State) (s : State)
    (sub : ∀ p, p ∈ [.port, .mbox, .obs] → p ∈ P) (h : r.keepsBut P s) (hrun : ∀ t, r.keepsBut P t → r.keepsBut P (run t)) : r.keepsBut P (State.mboxGate w opcode input run s) := by
  unfold State.mboxGate
  try dsimp only
  repeat' first
    | with_reducible exact h
    | (with_reducible refine sub _ ?_); decide
    | (with_reducible refine part_sub sub ?_); decide
    | with_reducible apply State.mboxRespond_keeps
    | with_reducible apply State.refuseUnknown_keeps
    | with_reducible refine State.keeps_upPort _ ?_ ?_
    | with_reducible assumption
    | with_reducible refine keeps_ite ?_ ?_
    | with_reducible refine keeps_foldl (fun _ _ _ => ?_) ?_
    | with_reducible refine hrun _ ?_
    | (with_reducible intro _ _); dsimp only
    | with_reducible intro _ _
    | split
theorem State.mbox_q_keeps {P : List Part} {r : State} (w : Who) (opcode : Nat) (run : State → Nat × Bytes × State) (s : State) (input : optParam Bytes [])
    (sub : ∀ p, p ∈ [.port, .mbox, .obs] → p ∈ P) (h : r.keepsBut P s) (hrun : ∀ t, r.keepsBut P t → KeepsPP r P (run t)) : r.keepsBut P (State.mbox? w opcode run s input) := by
  unfold State.mbox?
  try dsimp only
  repeat' first
    | with_reducible exact h
    | (with_reducible refine sub _ ?_); decide
    | (with_reducible refine part_sub sub ?_); decide
    | with_reducible apply State.mboxGate_keeps
    | with_reducible apply State.mboxRespond_keeps
    | with_reducible assumption
    | with_reducible refine keeps_ite ?_ ?_
    | with_reducible refine keeps_foldl (fun _ _ _ => ?_) ?_
    | with_reducible refine hrun _ ?_
    | with_reducible refine KeepsPP.snd (hrun _ ?_)
    | (with_reducible intro _ _); dsimp only
    | with_reducible intro _ _
    | split
    | with_reducible refine keepsPP_mk ?_
    | with_reducible refine KeepsPP.snd ?_
    | with_reducible refine KeepsPP.out (by assumption) ?_
theorem State.mboxHold_keeps {P : List Part} {r : State} (w : Who) (s : State)
    (sub : ∀ p, p ∈ [.mbox] → p ∈ P) (h : r.keepsBut P s) : r.keepsBut P (State.mboxHold w s) := by
  unfold State.mboxHold
  try dsimp only
  repeat' first
    | with_reducible exact h
    | (with_reducible refine sub _ ?_); decide
    | (with_reducible refine part_sub sub ?_); decide
    | with_reducible refine State.keeps_upMbox _ ?_ ?_
    | with_reducible assumption
    | with_reducible refine keeps_ite ?_ ?_
    | with_reducible refine keeps_foldl (fun _ _ _ => ?_) ?_
    | split
theorem State.mboxRead_keeps {P : List Part} {r : State} (w : Who) (opcode : Nat) (run : State → Nat × Bytes) (s : State) (input : optParam Bytes [])
    (sub : ∀ p, p ∈ [.port, .mbox, .obs] → p ∈ P) (h : r.keepsBut P s) : r.keepsBut P (State.mboxRead w opcode run s input) := by
  unfold State.mboxRead
  try dsimp only
  repeat' first
    | with_reducible exact h
    | (with_reducible refine sub _ ?_); decide
    | (with_reducible refine part_sub sub ?_); decide
    | with_reducible apply State.mbox_q_keeps
    | with_reducible assumption
    | with_reducible refine keeps_ite ?_ ?_
    | with_reducible refine keeps_foldl (fun _ _ _ => ?_) ?_
    | (with_reducible intro _ _); dsimp only
    | with_reducible intro _ _
    | split
    | with_reducible refine keepsPP_mk ?_
    | with_reducible refine KeepsPP.snd ?_
    | with_reducible refine KeepsPP.out (by assumption) ?_
theorem State.checkAlerts_keeps {P : List Part} {r : State} (s : State)
    (sub : ∀ p, p ∈ [.mbox, .obs] → p ∈ P) (h : r.keepsBut P s) : r.keepsBut P (State.checkAlerts s) := by
  unfold State.checkAlerts
  try dsimp only
  repeat' first
    | with_reducible exact h
    | (with_reducible refine sub _ ?_); decide
    | (with_reducible refine part_sub sub ?_); decide
    | with_reducible apply State.cxlRecord_keeps
    | with_reducible refine State.keeps_upMbox _ ?_ ?_
    | with_reducible assumption
    | with_reducible refine keeps_ite ?_ ?_
    | with_reducible refine keeps_foldl (fun _ _ _ => ?_) ?_
    | split
theorem execHousekeepingRound_keeps {P : List Part} {r : State} (readings : List Nat) (s : State)
    (sub : ∀ p, p ∈ [.clk, .pwr, .budget, .care, .reg, .therm, .bank, .dram, .gills, .mbox, .obs, .perf, .firkin, .rstats, .fw] → p ∈ P) (h : r.keepsBut P s) : Answers r P (execHousekeepingRound readings s) := by
  unfold execHousekeepingRound
  try dsimp only
  repeat' first
    | with_reducible exact h
    | (with_reducible refine sub _ ?_); decide
    | (with_reducible refine part_sub sub ?_); decide
    | with_reducible apply State.checkAlerts_keeps
    | with_reducible apply State.round_keeps
    | with_reducible assumption
    | with_reducible refine keeps_ite ?_ ?_
    | with_reducible refine keeps_foldl (fun _ _ _ => ?_) ?_
    | with_reducible refine answers_next ?_
    | split
theorem State.clearRecords_keeps {P : List Part} {r : State} (log : Nat) (all : Bool) (handles : List Nat) (s : State)
    (sub : ∀ p, p ∈ [.obs] → p ∈ P) (h : r.keepsBut P s) : KeepsP r P (State.clearRecords log all handles s) := by
  unfold State.clearRecords
  try dsimp only
  repeat' first
    | with_reducible exact h
    | (with_reducible refine sub _ ?_); decide
    | (with_reducible refine part_sub sub ?_); decide
    | with_reducible refine State.keeps_upObs _ ?_ ?_
    | with_reducible assumption
    | with_reducible refine keeps_ite ?_ ?_
    | with_reducible refine keeps_foldl (fun _ _ _ => ?_) ?_
    | with_reducible refine keepsP_ite ?_ ?_
    | with_reducible refine keepsP_foldl (fun _ _ _ => ?_) ?_
    | split
    | with_reducible refine KeepsP.snd ?_
    | with_reducible refine keepsP_mk ?_
    | with_reducible refine KeepsP.out (by assumption) ?_
theorem execGetEventRecords_keeps {P : List Part} {r : State} (w : Who) (log : Nat) (s : State)
    (sub : ∀ p, p ∈ [.port, .mbox, .obs] → p ∈ P) (h : r.keepsBut P s) : Answers r P (execGetEventRecords w log s) := by
  unfold execGetEventRecords
  try dsimp only
  repeat' first
    | with_reducible exact h
    | (with_reducible refine sub _ ?_); decide
    | (with_reducible refine part_sub sub ?_); decide
    | with_reducible apply State.mboxRead_keeps
    | with_reducible assumption
    | with_reducible refine keeps_ite ?_ ?_
    | with_reducible refine keeps_foldl (fun _ _ _ => ?_) ?_
    | with_reducible refine answers_next ?_
    | split
theorem execClearEventRecords_keeps {P : List Part} {r : State} (w : Who) (log : Nat) (all : Bool) (handles : List Nat) (s : State)
    (sub : ∀ p, p ∈ [.port, .mbox, .obs] → p ∈ P) (h : r.keepsBut P s) : Answers r P (execClearEventRecords w log all handles s) := by
  unfold execClearEventRecords
  try dsimp only
  repeat' first
    | with_reducible exact h
    | (with_reducible refine sub _ ?_); decide
    | (with_reducible refine part_sub sub ?_); decide
    | with_reducible apply State.clearRecords_keeps
    | with_reducible apply State.mbox_q_keeps
    | with_reducible assumption
    | with_reducible refine keeps_ite ?_ ?_
    | with_reducible refine keeps_foldl (fun _ _ _ => ?_) ?_
    | with_reducible refine keepsP_ite ?_ ?_
    | with_reducible refine keepsP_foldl (fun _ _ _ => ?_) ?_
    | with_reducible refine answers_next ?_
    | (with_reducible intro _ _); dsimp only
    | with_reducible intro _ _
    | split
    | with_reducible refine KeepsP.snd ?_
    | with_reducible refine keepsP_mk ?_
    | with_reducible refine KeepsP.out (by assumption) ?_
    | with_reducible refine keepsPP_mk ?_
    | with_reducible refine KeepsPP.snd ?_
    | with_reducible refine KeepsPP.out (by assumption) ?_
theorem execGetEventInterruptPolicy_keeps {P : List Part} {r : State} (w : Who) (s : State)
    (sub : ∀ p, p ∈ [.port, .mbox, .obs] → p ∈ P) (h : r.keepsBut P s) : Answers r P (execGetEventInterruptPolicy w s) := by
  unfold execGetEventInterruptPolicy
  try dsimp only
  repeat' first
    | with_reducible exact h
    | (with_reducible refine sub _ ?_); decide
    | (with_reducible refine part_sub sub ?_); decide
    | with_reducible apply State.mboxRead_keeps
    | with_reducible assumption
    | with_reducible refine keeps_ite ?_ ?_
    | with_reducible refine keeps_foldl (fun _ _ _ => ?_) ?_
    | with_reducible refine answers_next ?_
    | split
theorem execSetEventInterruptPolicy_keeps {P : List Part} {r : State} (w : Who) (enables : BitVec 4) (s : State)
    (sub : ∀ p, p ∈ [.port, .mbox, .obs] → p ∈ P) (h : r.keepsBut P s) : Answers r P (execSetEventInterruptPolicy w enables s) := by
  unfold execSetEventInterruptPolicy
  try dsimp only
  repeat' first
    | with_reducible exact h
    | (with_reducible refine sub _ ?_); decide
    | (with_reducible refine part_sub sub ?_); decide
    | with_reducible apply State.mbox_q_keeps
    | with_reducible refine State.keeps_upObs _ ?_ ?_
    | with_reducible assumption
    | with_reducible refine keeps_ite ?_ ?_
    | with_reducible refine keeps_foldl (fun _ _ _ => ?_) ?_
    | with_reducible refine answers_next ?_
    | (with_reducible intro _ _); dsimp only
    | with_reducible intro _ _
    | split
    | with_reducible refine keepsPP_mk ?_
    | with_reducible refine KeepsPP.snd ?_
    | with_reducible refine KeepsPP.out (by assumption) ?_
theorem execGetFwInfo_keeps {P : List Part} {r : State} (w : Who) (s : State)
    (sub : ∀ p, p ∈ [.port, .mbox, .obs] → p ∈ P) (h : r.keepsBut P s) : Answers r P (execGetFwInfo w s) := by
  unfold execGetFwInfo
  try dsimp only
  repeat' first
    | with_reducible exact h
    | (with_reducible refine sub _ ?_); decide
    | (with_reducible refine part_sub sub ?_); decide
    | with_reducible apply State.mboxRead_keeps
    | with_reducible assumption
    | with_reducible refine keeps_ite ?_ ?_
    | with_reducible refine keeps_foldl (fun _ _ _ => ?_) ?_
    | with_reducible refine answers_next ?_
    | split
theorem execTransferFw_keeps {P : List Part} {r : State} (w : Who) (offset : Nat) (data : Bytes) (s : State)
    (sub : ∀ p, p ∈ [.port, .keys, .tabs, .dict, .mbox, .obs, .fw] → p ∈ P) (h : r.keepsBut P s) : Answers r P (execTransferFw w offset data s) := by
  unfold execTransferFw
  try dsimp only
  repeat' first
    | with_reducible exact h
    | (with_reducible refine sub _ ?_); decide
    | (with_reducible refine part_sub sub ?_); decide
    | with_reducible apply State.fwChunk_keeps
    | with_reducible apply State.mbox_q_keeps
    | with_reducible assumption
    | with_reducible refine keeps_ite ?_ ?_
    | with_reducible refine keeps_foldl (fun _ _ _ => ?_) ?_
    | with_reducible refine keepsP_ite ?_ ?_
    | with_reducible refine keepsP_foldl (fun _ _ _ => ?_) ?_
    | with_reducible refine answers_next ?_
    | (with_reducible intro _ _); dsimp only
    | with_reducible intro _ _
    | split
    | with_reducible refine KeepsP.snd ?_
    | with_reducible refine keepsP_mk ?_
    | with_reducible refine KeepsP.out (by assumption) ?_
    | with_reducible refine keepsPP_mk ?_
    | with_reducible refine KeepsPP.snd ?_
    | with_reducible refine KeepsPP.out (by assumption) ?_
theorem execActivateFw_keeps {P : List Part} {r : State} (w : Who) (s : State)
    (sub : ∀ p, p ∈ [.pwr, .port, .fc, .budget, .media, .map, .yoke, .keys, .dram, .gills, .dict, .mbox, .obs, .perf, .firkin, .rstats, .fw, .dump, .cmds] → p ∈ P) (h : r.keepsBut P s) : Answers r P (execActivateFw w s) := by
  unfold execActivateFw
  try dsimp only
  repeat' first
    | with_reducible exact h
    | (with_reducible refine sub _ ?_); decide
    | (with_reducible refine part_sub sub ?_); decide
    | with_reducible apply State.fwActivate_keeps
    | with_reducible apply State.mbox_q_keeps
    | with_reducible assumption
    | with_reducible refine keeps_ite ?_ ?_
    | with_reducible refine keeps_foldl (fun _ _ _ => ?_) ?_
    | with_reducible refine keepsP_ite ?_ ?_
    | with_reducible refine keepsP_foldl (fun _ _ _ => ?_) ?_
    | with_reducible refine answers_next ?_
    | (with_reducible intro _ _); dsimp only
    | with_reducible intro _ _
    | split
    | with_reducible refine KeepsP.snd ?_
    | with_reducible refine keepsP_mk ?_
    | with_reducible refine KeepsP.out (by assumption) ?_
    | with_reducible refine keepsPP_mk ?_
    | with_reducible refine KeepsPP.snd ?_
    | with_reducible refine KeepsPP.out (by assumption) ?_
theorem execGetTimestamp_keeps {P : List Part} {r : State} (w : Who) (s : State)
    (sub : ∀ p, p ∈ [.port, .mbox, .obs] → p ∈ P) (h : r.keepsBut P s) : Answers r P (execGetTimestamp w s) := by
  unfold execGetTimestamp
  try dsimp only
  repeat' first
    | with_reducible exact h
    | (with_reducible refine sub _ ?_); decide
    | (with_reducible refine part_sub sub ?_); decide
    | with_reducible apply State.mboxRead_keeps
    | with_reducible assumption
    | with_reducible refine keeps_ite ?_ ?_
    | with_reducible refine keeps_foldl (fun _ _ _ => ?_) ?_
    | with_reducible refine answers_next ?_
    | split
theorem State.setTimestamp_keeps {P : List Part} {r : State} (v : Nat) (s : State)
    (sub : ∀ p, p ∈ [.clk, .care, .obs, .perf] → p ∈ P) (h : r.keepsBut P s) : r.keepsBut P (State.setTimestamp v s) := by
  unfold State.setTimestamp
  try dsimp only
  repeat' first
    | with_reducible exact h
    | (with_reducible refine sub _ ?_); decide
    | (with_reducible refine part_sub sub ?_); decide
    | with_reducible apply State.save_keeps
    | with_reducible refine State.keeps_upCare _ ?_ ?_
    | with_reducible refine State.keeps_upClk _ ?_ ?_
    | with_reducible assumption
    | with_reducible refine keeps_ite ?_ ?_
    | with_reducible refine keeps_foldl (fun _ _ _ => ?_) ?_
    | split
theorem execSetTimestamp_keeps {P : List Part} {r : State} (w : Who) (t : Nat) (s : State)
    (sub : ∀ p, p ∈ [.clk, .port, .care, .mbox, .obs, .perf] → p ∈ P) (h : r.keepsBut P s) : Answers r P (execSetTimestamp w t s) := by
  unfold execSetTimestamp
  try dsimp only
  repeat' first
    | with_reducible exact h
    | (with_reducible refine sub _ ?_); decide
    | (with_reducible refine part_sub sub ?_); decide
    | with_reducible apply State.mbox_q_keeps
    | with_reducible apply State.setTimestamp_keeps
    | with_reducible assumption
    | with_reducible refine keeps_ite ?_ ?_
    | with_reducible refine keeps_foldl (fun _ _ _ => ?_) ?_
    | with_reducible refine answers_next ?_
    | (with_reducible intro _ _); dsimp only
    | with_reducible intro _ _
    | split
    | with_reducible refine keepsPP_mk ?_
    | with_reducible refine KeepsPP.snd ?_
    | with_reducible refine KeepsPP.out (by assumption) ?_
theorem execGetSupportedLogs_keeps {P : List Part} {r : State} (w : Who) (s : State)
    (sub : ∀ p, p ∈ [.port, .mbox, .obs] → p ∈ P) (h : r.keepsBut P s) : Answers r P (execGetSupportedLogs w s) := by
  unfold execGetSupportedLogs
  try dsimp only
  repeat' first
    | with_reducible exact h
    | (with_reducible refine sub _ ?_); decide
    | (with_reducible refine part_sub sub ?_); decide
    | with_reducible apply State.mboxRead_keeps
    | with_reducible assumption
    | with_reducible refine keeps_ite ?_ ?_
    | with_reducible refine keeps_foldl (fun _ _ _ => ?_) ?_
    | with_reducible refine answers_next ?_
    | split
theorem execGetLog_keeps {P : List Part} {r : State} (w : Who) (log : Nat) (s : State)
    (sub : ∀ p, p ∈ [.port, .mbox, .obs] → p ∈ P) (h : r.keepsBut P s) : Answers r P (execGetLog w log s) := by
  unfold execGetLog
  try dsimp only
  repeat' first
    | with_reducible exact h
    | (with_reducible refine sub _ ?_); decide
    | (with_reducible refine part_sub sub ?_); decide
    | with_reducible apply State.mboxRead_keeps
    | with_reducible assumption
    | with_reducible refine keeps_ite ?_ ?_
    | with_reducible refine keeps_foldl (fun _ _ _ => ?_) ?_
    | with_reducible refine answers_next ?_
    | split
theorem execIdentifyMemoryDevice_keeps {P : List Part} {r : State} (w : Who) (s : State)
    (sub : ∀ p, p ∈ [.port, .mbox, .obs] → p ∈ P) (h : r.keepsBut P s) : Answers r P (execIdentifyMemoryDevice w s) := by
  unfold execIdentifyMemoryDevice
  try dsimp only
  repeat' first
    | with_reducible exact h
    | (with_reducible refine sub _ ?_); decide
    | (with_reducible refine part_sub sub ?_); decide
    | with_reducible apply State.mboxRead_keeps
    | with_reducible assumption
    | with_reducible refine keeps_ite ?_ ?_
    | with_reducible refine keeps_foldl (fun _ _ _ => ?_) ?_
    | with_reducible refine answers_next ?_
    | split
theorem execGetPartitionInfo_keeps {P : List Part} {r : State} (w : Who) (s : State)
    (sub : ∀ p, p ∈ [.port, .mbox, .obs] → p ∈ P) (h : r.keepsBut P s) : Answers r P (execGetPartitionInfo w s) := by
  unfold execGetPartitionInfo
  try dsimp only
  repeat' first
    | with_reducible exact h
    | (with_reducible refine sub _ ?_); decide
    | (with_reducible refine part_sub sub ?_); decide
    | with_reducible apply State.mboxRead_keeps
    | with_reducible assumption
    | with_reducible refine keeps_ite ?_ ?_
    | with_reducible refine keeps_foldl (fun _ _ _ => ?_) ?_
    | with_reducible refine answers_next ?_
    | split
theorem execGetHealthInfo_keeps {P : List Part} {r : State} (w : Who) (s : State)
    (sub : ∀ p, p ∈ [.port, .mbox, .obs] → p ∈ P) (h : r.keepsBut P s) : Answers r P (execGetHealthInfo w s) := by
  unfold execGetHealthInfo
  try dsimp only
  repeat' first
    | with_reducible exact h
    | (with_reducible refine sub _ ?_); decide
    | (with_reducible refine part_sub sub ?_); decide
    | with_reducible apply State.mboxRead_keeps
    | with_reducible assumption
    | with_reducible refine keeps_ite ?_ ?_
    | with_reducible refine keeps_foldl (fun _ _ _ => ?_) ?_
    | with_reducible refine answers_next ?_
    | split
theorem execGetAlertConfiguration_keeps {P : List Part} {r : State} (w : Who) (s : State)
    (sub : ∀ p, p ∈ [.port, .mbox, .obs] → p ∈ P) (h : r.keepsBut P s) : Answers r P (execGetAlertConfiguration w s) := by
  unfold execGetAlertConfiguration
  try dsimp only
  repeat' first
    | with_reducible exact h
    | (with_reducible refine sub _ ?_); decide
    | (with_reducible refine part_sub sub ?_); decide
    | with_reducible apply State.mboxRead_keeps
    | with_reducible assumption
    | with_reducible refine keeps_ite ?_ ?_
    | with_reducible refine keeps_foldl (fun _ _ _ => ?_) ?_
    | with_reducible refine answers_next ?_
    | split
theorem execSetAlertConfiguration_keeps {P : List Part} {r : State} (w : Who) (life : Nat) (temperature : Nat) (volatileErr : Nat) (persistentErr : Nat) (s : State)
    (sub : ∀ p, p ∈ [.port, .mbox, .obs] → p ∈ P) (h : r.keepsBut P s) : Answers r P (execSetAlertConfiguration w life temperature volatileErr persistentErr s) := by
  unfold execSetAlertConfiguration
  try dsimp only
  repeat' first
    | with_reducible exact h
    | (with_reducible refine sub _ ?_); decide
    | (with_reducible refine part_sub sub ?_); decide
    | with_reducible apply State.checkAlerts_keeps
    | with_reducible apply State.mbox_q_keeps
    | with_reducible refine State.keeps_upMbox _ ?_ ?_
    | with_reducible assumption
    | with_reducible refine keeps_ite ?_ ?_
    | with_reducible refine keeps_foldl (fun _ _ _ => ?_) ?_
    | with_reducible refine answers_next ?_
    | (with_reducible intro _ _); dsimp only
    | with_reducible intro _ _
    | split
    | with_reducible refine keepsPP_mk ?_
    | with_reducible refine KeepsPP.snd ?_
    | with_reducible refine KeepsPP.out (by assumption) ?_
theorem execGetShutdownState_keeps {P : List Part} {r : State} (w : Who) (s : State)
    (sub : ∀ p, p ∈ [.port, .mbox, .obs] → p ∈ P) (h : r.keepsBut P s) : Answers r P (execGetShutdownState w s) := by
  unfold execGetShutdownState
  try dsimp only
  repeat' first
    | with_reducible exact h
    | (with_reducible refine sub _ ?_); decide
    | (with_reducible refine part_sub sub ?_); decide
    | with_reducible apply State.mboxRead_keeps
    | with_reducible assumption
    | with_reducible refine keeps_ite ?_ ?_
    | with_reducible refine keeps_foldl (fun _ _ _ => ?_) ?_
    | with_reducible refine answers_next ?_
    | split
theorem execSetShutdownState_keeps {P : List Part} {r : State} (w : Who) (st : Nat) (s : State)
    (sub : ∀ p, p ∈ [.pwr, .port, .mbox, .obs] → p ∈ P) (h : r.keepsBut P s) : Answers r P (execSetShutdownState w st s) := by
  unfold execSetShutdownState
  try dsimp only
  repeat' first
    | with_reducible exact h
    | (with_reducible refine sub _ ?_); decide
    | (with_reducible refine part_sub sub ?_); decide
    | with_reducible apply State.mbox_q_keeps
    | with_reducible refine State.keeps_upPwr _ ?_ ?_
    | with_reducible assumption
    | with_reducible refine keeps_ite ?_ ?_
    | with_reducible refine keeps_foldl (fun _ _ _ => ?_) ?_
    | with_reducible refine answers_next ?_
    | (with_reducible intro _ _); dsimp only
    | with_reducible intro _ _
    | split
    | with_reducible refine keepsPP_mk ?_
    | with_reducible refine KeepsPP.snd ?_
    | with_reducible refine KeepsPP.out (by assumption) ?_
theorem execGetPoisonList_keeps {P : List Part} {r : State} (w : Who) (base : Nat) (length : Nat) (s : State)
    (sub : ∀ p, p ∈ [.port, .mbox, .obs] → p ∈ P) (h : r.keepsBut P s) : Answers r P (execGetPoisonList w base length s) := by
  unfold execGetPoisonList
  try dsimp only
  repeat' first
    | with_reducible exact h
    | (with_reducible refine sub _ ?_); decide
    | (with_reducible refine part_sub sub ?_); decide
    | with_reducible apply State.mboxRead_keeps
    | with_reducible assumption
    | with_reducible refine keeps_ite ?_ ?_
    | with_reducible refine keeps_foldl (fun _ _ _ => ?_) ?_
    | with_reducible refine answers_next ?_
    | split
theorem State.clearPoison_keeps {P : List Part} {r : State} (w : Who) (addr : Nat) (d : Line) (s : State)
    (sub : ∀ p, p ∈ [.reqs, .mbox, .obs] → p ∈ P) (h : r.keepsBut P s) : r.keepsBut P (State.clearPoison w addr d s) := by
  unfold State.clearPoison
  try dsimp only
  repeat' first
    | with_reducible exact h
    | (with_reducible refine sub _ ?_); decide
    | (with_reducible refine part_sub sub ?_); decide
    | with_reducible apply State.mboxHold_keeps
    | with_reducible apply State.mboxRespond_keeps
    | with_reducible refine State.keeps_upMbox _ ?_ ?_
    | with_reducible refine State.keeps_upReqs _ ?_ ?_
    | with_reducible assumption
    | with_reducible refine keeps_ite ?_ ?_
    | with_reducible refine keeps_foldl (fun _ _ _ => ?_) ?_
    | split
theorem execClearPoison_keeps {P : List Part} {r : State} (w : Who) (addr : Nat) (data : Line) (s : State)
    (sub : ∀ p, p ∈ [.port, .reqs, .mbox, .obs] → p ∈ P) (h : r.keepsBut P s) : Answers r P (execClearPoison w addr data s) := by
  unfold execClearPoison
  try dsimp only
  repeat' first
    | with_reducible exact h
    | (with_reducible refine sub _ ?_); decide
    | (with_reducible refine part_sub sub ?_); decide
    | with_reducible apply State.clearPoison_keeps
    | with_reducible apply State.mboxGate_keeps
    | with_reducible assumption
    | with_reducible refine keeps_ite ?_ ?_
    | with_reducible refine keeps_foldl (fun _ _ _ => ?_) ?_
    | with_reducible refine answers_next ?_
    | (with_reducible intro _ _); dsimp only
    | with_reducible intro _ _
    | split
    | with_reducible refine keepsPP_mk ?_
    | with_reducible refine KeepsPP.snd ?_
    | with_reducible refine KeepsPP.out (by assumption) ?_
theorem execScanMediaCapabilities_keeps {P : List Part} {r : State} (w : Who) (base : Nat) (length : Nat) (s : State)
    (sub : ∀ p, p ∈ [.port, .mbox, .obs] → p ∈ P) (h : r.keepsBut P s) : Answers r P (execScanMediaCapabilities w base length s) := by
  unfold execScanMediaCapabilities
  try dsimp only
  repeat' first
    | with_reducible exact h
    | (with_reducible refine sub _ ?_); decide
    | (with_reducible refine part_sub sub ?_); decide
    | with_reducible apply State.mboxRead_keeps
    | with_reducible assumption
    | with_reducible refine keeps_ite ?_ ?_
    | with_reducible refine keeps_foldl (fun _ _ _ => ?_) ?_
    | with_reducible refine answers_next ?_
    | split
theorem execScanMedia_keeps {P : List Part} {r : State} (w : Who) (base : Nat) (length : Nat) (flags : Nat) (s : State)
    (sub : ∀ p, p ∈ [.port, .reg, .mbox, .obs, .cmds] → p ∈ P) (h : r.keepsBut P s) : Answers r P (execScanMedia w base length flags s) := by
  unfold execScanMedia
  try dsimp only
  repeat' first
    | with_reducible exact h
    | (with_reducible refine sub _ ?_); decide
    | (with_reducible refine part_sub sub ?_); decide
    | with_reducible apply State.mbox_q_keeps
    | with_reducible apply State.scrubRun_keeps
    | with_reducible refine State.keeps_upMbox _ ?_ ?_
    | with_reducible assumption
    | with_reducible refine keeps_ite ?_ ?_
    | with_reducible refine keeps_foldl (fun _ _ _ => ?_) ?_
    | with_reducible refine answers_next ?_
    | (with_reducible intro _ _); dsimp only
    | with_reducible intro _ _
    | split
    | with_reducible refine keepsPP_mk ?_
    | with_reducible refine KeepsPP.snd ?_
    | with_reducible refine KeepsPP.out (by assumption) ?_
theorem execGetScanMediaResults_keeps {P : List Part} {r : State} (w : Who) (s : State)
    (sub : ∀ p, p ∈ [.port, .mbox, .obs] → p ∈ P) (h : r.keepsBut P s) : Answers r P (execGetScanMediaResults w s) := by
  unfold execGetScanMediaResults
  try dsimp only
  repeat' first
    | with_reducible exact h
    | (with_reducible refine sub _ ?_); decide
    | (with_reducible refine part_sub sub ?_); decide
    | with_reducible apply State.mboxRead_keeps
    | with_reducible assumption
    | with_reducible refine keeps_ite ?_ ?_
    | with_reducible refine keeps_foldl (fun _ _ _ => ?_) ?_
    | with_reducible refine answers_next ?_
    | split
theorem State.startWipe_keeps {P : List Part} {r : State} (op : Nat) (w : Who) (s : State)
    (sub : ∀ p, p ∈ [.clk, .pwr, .port, .reqs, .fc, .tier, .slices, .budget, .media, .map, .care, .yoke, .atom, .keys, .reg, .tabs, .mbox, .obs, .perf, .firkin, .rstats, .cmds] → p ∈ P) (h : r.keepsBut P s) : KeepsPP r P (State.startWipe op w s) := by
  unfold State.startWipe
  try dsimp only
  repeat' first
    | with_reducible exact h
    | (with_reducible refine sub _ ?_); decide
    | (with_reducible refine part_sub sub ?_); decide
    | with_reducible apply State.wipeStart_keeps
    | with_reducible refine State.keeps_upMbox _ ?_ ?_
    | with_reducible assumption
    | with_reducible refine keeps_ite ?_ ?_
    | with_reducible refine keeps_foldl (fun _ _ _ => ?_) ?_
    | split
    | with_reducible refine keepsPP_mk ?_
    | with_reducible refine KeepsPP.snd ?_
    | with_reducible refine KeepsPP.out (by assumption) ?_
theorem execSanitize_keeps {P : List Part} {r : State} (w : Who) (s : State)
    (sub : ∀ p, p ∈ [.clk, .pwr, .port, .reqs, .fc, .tier, .slices, .budget, .media, .map, .care, .yoke, .atom, .keys, .reg, .tabs, .mbox, .obs, .perf, .firkin, .rstats, .cmds] → p ∈ P) (h : r.keepsBut P s) : Answers r P (execSanitize w s) := by
  unfold execSanitize
  try dsimp only
  repeat' first
    | with_reducible exact h
    | (with_reducible refine sub _ ?_); decide
    | (with_reducible refine part_sub sub ?_); decide
    | with_reducible apply State.mbox_q_keeps
    | with_reducible apply State.startWipe_keeps
    | with_reducible assumption
    | with_reducible refine keeps_ite ?_ ?_
    | with_reducible refine keeps_foldl (fun _ _ _ => ?_) ?_
    | with_reducible refine answers_next ?_
    | (with_reducible intro _ _); dsimp only
    | with_reducible intro _ _
    | split
    | with_reducible refine keepsPP_mk ?_
    | with_reducible refine KeepsPP.snd ?_
    | with_reducible refine KeepsPP.out (by assumption) ?_
theorem execSecureErase_keeps {P : List Part} {r : State} (w : Who) (s : State)
    (sub : ∀ p, p ∈ [.clk, .pwr, .port, .reqs, .fc, .tier, .slices, .budget, .media, .map, .care, .yoke, .atom, .keys, .reg, .tabs, .mbox, .obs, .perf, .firkin, .rstats, .cmds] → p ∈ P) (h : r.keepsBut P s) : Answers r P (execSecureErase w s) := by
  unfold execSecureErase
  try dsimp only
  repeat' first
    | with_reducible exact h
    | (with_reducible refine sub _ ?_); decide
    | (with_reducible refine part_sub sub ?_); decide
    | with_reducible apply State.mbox_q_keeps
    | with_reducible apply State.startWipe_keeps
    | with_reducible assumption
    | with_reducible refine keeps_ite ?_ ?_
    | with_reducible refine keeps_foldl (fun _ _ _ => ?_) ?_
    | with_reducible refine answers_next ?_
    | (with_reducible intro _ _); dsimp only
    | with_reducible intro _ _
    | split
    | with_reducible refine keepsPP_mk ?_
    | with_reducible refine KeepsPP.snd ?_
    | with_reducible refine KeepsPP.out (by assumption) ?_
theorem State.endBackground_keeps {P : List Part} {r : State} (s : State)
    (sub : ∀ p, p ∈ [.keys, .mbox, .obs] → p ∈ P) (h : r.keepsBut P s) : r.keepsBut P (State.endBackground s) := by
  unfold State.endBackground
  try dsimp only
  repeat' first
    | with_reducible exact h
    | (with_reducible refine sub _ ?_); decide
    | (with_reducible refine part_sub sub ?_); decide
    | with_reducible apply State.raiseWhen_keeps
    | with_reducible refine State.keeps_upKeys _ ?_ ?_
    | with_reducible refine State.keeps_upMbox _ ?_ ?_
    | with_reducible assumption
    | with_reducible refine keeps_ite ?_ ?_
    | with_reducible refine keeps_foldl (fun _ _ _ => ?_) ?_
    | split
theorem State.logWipe_keeps {P : List Part} {r : State} (op : Nat) (count : Nat) (s : State)
    (sub : ∀ p, p ∈ [.keys, .obs] → p ∈ P) (h : r.keepsBut P s) : r.keepsBut P (State.logWipe op count s) := by
  unfold State.logWipe
  try dsimp only
  repeat' first
    | with_reducible exact h
    | (with_reducible refine sub _ ?_); decide
    | (with_reducible refine part_sub sub ?_); decide
    | with_reducible apply State.log_keeps
    | with_reducible refine State.keeps_upKeys _ ?_ ?_
    | with_reducible assumption
    | with_reducible refine keeps_ite ?_ ?_
    | with_reducible refine keeps_foldl (fun _ _ _ => ?_) ?_
    | split
theorem execBackgroundCommandDone_keeps {P : List Part} {r : State} (s : State)
    (sub : ∀ p, p ∈ [.yoke, .keys, .mbox, .obs, .perf, .cmds] → p ∈ P) (h : r.keepsBut P s) : Answers r P (execBackgroundCommandDone s) := by
  unfold execBackgroundCommandDone
  try dsimp only
  repeat' first
    | with_reducible exact h
    | (with_reducible refine sub _ ?_); decide
    | (with_reducible refine part_sub sub ?_); decide
    | with_reducible apply State.dropJob_keeps
    | with_reducible apply State.endBackground_keeps
    | with_reducible apply State.logWipe_keeps
    | with_reducible apply State.record_keeps
    | with_reducible apply State.send_keeps
    | with_reducible assumption
    | with_reducible refine keeps_ite ?_ ?_
    | with_reducible refine keeps_foldl (fun _ _ _ => ?_) ?_
    | with_reducible refine answers_next ?_
    | split
theorem State.dictCommand_keeps {P : List Part} {r : State} (w : Who) (payload : Bytes) (s : State)
    (sub : ∀ p, p ∈ Part.most → p ∈ P) (h : r.keepsBut P s) : r.keepsBut P (State.dictCommand w payload s) := by
  unfold State.dictCommand
  try dsimp only
  repeat' first
    | with_reducible exact h
    | (with_reducible refine sub _ ?_); decide
    | (with_reducible refine part_sub sub ?_); decide
    | with_reducible apply State.mboxHold_keeps
    | with_reducible apply State.mboxRespond_keeps
    | with_reducible apply State.takeBytes_keeps
    | with_reducible refine State.keeps_upDict _ ?_ ?_
    | with_reducible refine State.keeps_upMbox _ ?_ ?_
    | with_reducible assumption
    | with_reducible refine keeps_ite ?_ ?_
    | with_reducible refine keeps_foldl (fun _ _ _ => ?_) ?_
    | split
theorem execDictionaryTransfer_keeps {P : List Part} {r : State} (w : Who) (payload : Bytes) (s : State)
    (sub : ∀ p, p ∈ Part.most → p ∈ P) (h : r.keepsBut P s) : Answers r P (execDictionaryTransfer w payload s) := by
  unfold execDictionaryTransfer
  try dsimp only
  repeat' first
    | with_reducible exact h
    | (with_reducible refine sub _ ?_); decide
    | (with_reducible refine part_sub sub ?_); decide
    | with_reducible apply State.dictCommand_keeps
    | with_reducible apply State.mboxGate_keeps
    | with_reducible assumption
    | with_reducible refine keeps_ite ?_ ?_
    | with_reducible refine keeps_foldl (fun _ _ _ => ?_) ?_
    | with_reducible refine answers_next ?_
    | (with_reducible intro _ _); dsimp only
    | with_reducible intro _ _
    | split
    | with_reducible refine keepsPP_mk ?_
    | with_reducible refine KeepsPP.snd ?_
    | with_reducible refine KeepsPP.out (by assumption) ?_
theorem execUnsupportedCommand_keeps {P : List Part} {r : State} (w : Who) (opcode : Nat) (s : State)
    (sub : ∀ p, p ∈ [.port, .mbox, .obs] → p ∈ P) (h : r.keepsBut P s) : Answers r P (execUnsupportedCommand w opcode s) := by
  unfold execUnsupportedCommand
  try dsimp only
  repeat' first
    | with_reducible exact h
    | (with_reducible refine sub _ ?_); decide
    | (with_reducible refine part_sub sub ?_); decide
    | with_reducible apply State.mboxRead_keeps
    | with_reducible assumption
    | with_reducible refine keeps_ite ?_ ?_
    | with_reducible refine keeps_foldl (fun _ _ _ => ?_) ?_
    | with_reducible refine answers_next ?_
    | split

end Sys2Proof.Machine
end

