-- ==== Sys2Proof/WellFormed.lean ====
section
/-!
DEFINITION. Which commands are well formed on a variant: every operand within the range its field or its numbering has
(R8, R9, R19, R84, R186 to R188, R328, R459, R500). The effects are total; a sender keeps to these ranges.
-/
namespace Sys2Proof

/-- A 64-byte aligned byte address (R84). -/
def lineAddr (a : Nat) : Bool := decide (a % 64 = 0) && decide (a < 2 ^ 64)

/-- A requester key has 12 bits (R53), the interrupt control of a command two (R80). -/
def Who.wf (w : Who) : Bool := decide (w.key < 4096) && decide (w.intr < 4)

/-- A yoke write names a line of the module and its fields fit (R318). -/
def YokeWrite.wf (v : Variant) (m : YokeWrite) : Bool :=
  decide (m.tag < 65536) && decide (m.line < v.lines) && decide (m.cls < 16) && decide (m.entry < 4096)
    && (!m.full || decide (m.mask = BitVec.allOnes 64))

/-- The fields of a membership payload (R309, R328). -/
def Membership.wf (m : Membership) : Bool :=
  decide (m.pairId < 2 ^ 64) && decide (m.serial < 2 ^ 64) && decide (m.pairEpoch < 2 ^ 32)
    && decide (m.baseEpoch < 2 ^ 32) && decide (m.state < 9) && decide (m.sequence < 2 ^ 32)

/-- A staged record names an entry (R320). -/
def StageRec.wf (r : StageRec) : Bool := decide (r.index < 65536) && decide (r.sub < 256)

/-- The settings a handshake compares, the tables and the recorded commands it carries (R307, R308, R312, R350). -/
def HelloInfo.wf (x : HelloInfo) : Bool :=
  decide (x.position < 3) && decide (x.seniorPosition < 2) && x.tables.all (fun r => r.wf) &&
    x.recorded.all (fun c => decide (2 ≤ c.1) && decide (c.1 ≤ 6) && decide (c.2.1 < 4096))

/-- A string of the bank (R552). -/
def BankFault.wf : BankFault → Bool
  | .none => true
  | .stringOpen s => decide (s < 2)
  | .stringShort s => decide (s < 2)
  | .pathOpen => true
  | .pathShort => true
  | .unmeasurable => true

/-- A device of a burst, a kind of SRAM, a key and a group (R375, R394, R397, R198). -/
def CacheFault.wf (v : Variant) : CacheFault → Bool
  | .corrected d => decide (d < 10)
  | .sram k => decide (k < 6)
  | .keyEntry id => decide (id < 4096)
  | .shadow group => decide (group < v.groups)
  | _ => true

/-- A sample has 15 offsets and comes from one of the 16 channels (R253). -/
def SoftSample.wf (m : SoftSample) : Bool := decide (m.ch < 16) && decide (m.offsets.length = 15)
/-- A codeword recovered after its hard decode is so at step 2, 3 or 4, the last two after soft decodes of their own (R125). -/
def Finding.wf : Finding → Bool
  | .converged c => decide (c < 1025)
  | .soft k c samples => decide (k ∈ [2, 3, 4]) && decide (c < 1025) && samples.all SoftSample.wf &&
      (if k = 4 then samples.any (fun m => m.deep) else samples.all (fun m => !m.deep))
  | .failed slots samples => slots.all (fun j => decide (j < 32)) && samples.all SoftSample.wf
/-- A codeword of a page (R184, R188). -/
def WordRead.wf (r : WordRead) : Bool := decide (r.ppa < 2 ^ 34) && decide (r.word < 8) && r.found.wf

/-- The command is well formed on the variant. -/
def Instr.wf (v : Variant) (i : Instr) : Bool :=
  match i with
  | .powerUp _ _ _ => true
  | .firmwareVerifyDone _ _ badPages => badPages.all (fun x => decide (x.1 < 2 ^ 32) && decide (x.2 < 2 ^ 20))
  | .dumpReplayDone badLines => badLines.all (fun x => decide (x < v.lines))
  | .memoryActiveSet => true
  | .imageRetire => true
  | .retiredImageReset number => decide (number < 2 ^ 32)
  | .powerLossConfirmed => true
  | .overvoltageTrip => true
  | .pwrdisAssert => true
  | .pwrdisDeassert => true
  | .dumpWindowsEnded fcBad dramBad => fcBad.all (fun x => decide (x < v.lines)) && dramBad.all (fun x => decide (x < v.lines))
  | .dumpSealed => true
  | .bankExhausted => true
  | .mainReturnDuringDump => true
  | .warmReset _ => true
  | .functionLevelReset => true
  | .resetErrorDetected source fcBad swept => decide (source < 16) && fcBad.all (fun x => decide (x < v.lines)) &&
    swept.all (fun x => decide (x.1 < v.lines) && x.2.wf v)
  | .firmwareWatchdogExpire fcBad swept => fcBad.all (fun x => decide (x < v.lines)) &&
    swept.all (fun x => decide (x.1 < v.lines) && x.2.wf v)
  | .mapUnitPageIn unitType unit => decide (unitType < 6) && decide (unit < 2 ^ 30)
  | .mapResident => true
  | .linkTrainingDone speed width failed => decide (speed < 8) && decide (width < 17) && decide (failed < 65536)
  | .fabricBind endpoint => decide (endpoint < 256)
  | .fabricUnbind => true
  | .hostReadRequest key addr tag => decide (key < 4096) && lineAddr addr && decide (tag < 65536)
  | .hostWriteRequest key addr tag _ _ _ => decide (key < 4096) && lineAddr addr && decide (tag < 65536)
  | .ingressDispatch slice => decide (slice < 32)
  | .sliceLookup slice fault bank row _ => decide (slice < 32) && fault.wf v && decide (bank < 32) && decide (row < 65536)
  | .missSlotFreed slice sets fault => decide (slice < 32) && decide (sets < 2048) && fault.wf v
  | .missTableEntryFreed slice fault => decide (slice < 32) && fault.wf v
  | .sliceMissSideSleep slice => decide (slice < 32)
  | .channelClockStop ch => decide (ch < 16)
  | .programSuspendForRead pos ch => decide (pos < v.positions) && decide (ch < 16)
  | .deferredDirectRead miss => decide (miss < 2 ^ 32)
  | .codewordDecoded miss ch _ corrected offsets => decide (miss < 2 ^ 32) && decide (ch < 16) && decide (corrected < 1025) && decide (offsets.length = 15)
  | .stripeCombineDone miss _ => decide (miss < 2 ^ 32)
  | .prefetchDone pf _ => decide (pf < 2 ^ 32)
  | .tierFillDone sector => decide (sector < v.lines / 32)
  | .mergeBaseArrived line _ => decide (line < v.lines)
  | .writeAdmit => true
  | .writesHeld => true
  | .frontCacheEvict slice sets fault => decide (slice < 32) && decide (sets < 2048) && fault.wf v
  | .tierSectorFreed slice sets => decide (slice < 32) && decide (sets < v.tierSets)
  | .writebackStart reads => reads.all WordRead.wf
  | .dirtyAgeExpired => true
  | .leaveGrant => true
  | .windowTokenGrant pos => decide (pos < v.positions)
  | .windowEnd pos => decide (pos < v.positions)
  | .programPassDone pass _ damaged lostPages reads => decide (pass < 2 ^ 32) && damaged.all (fun x => decide (x < 2 ^ 34)) && lostPages.all (fun x => decide (x < 2 ^ 34)) && reads.all WordRead.wf
  | .pageVerify ppa corrected _ damaged lostPages => decide (ppa < 2 ^ 34) && decide (corrected < 65536) && damaged.all (fun x => decide (x < 2 ^ 34)) && lostPages.all (fun x => decide (x < 2 ^ 34))
  | .closeVerifyDone group failed weak lostPages => decide (group < v.groups) && failed.all (fun x => decide (x < 2 ^ 34)) && weak.all (fun x => decide (x < 2 ^ 34)) && lostPages.all (fun x => decide (x < 2 ^ 34))
  | .blockResetDone group failedCols => decide (group < v.groups) && failedCols.all (fun x => decide (x < 16))
  | .dieFailed pos ch lostPages => decide (pos < v.positions) && decide (ch < 16) && lostPages.all (fun x => decide (x < 2 ^ 34))
  | .rebuildPhaseDone => true
  | .lapStart => true
  | .lapComplete => true
  | .skimVictimSelect => true
  | .idleSkimStart => true
  | .copySetSwitch victim bad => decide (victim < v.groups) && bad.all (fun q => decide (q < 2 ^ 34))
  | .repourStart => true
  | .ripeningCellUpdate pkg cls band => decide (pkg < v.packages) && decide (cls < 24) && decide (band < 8)
  | .strainerLapEnd => true
  | .strainerFinding ppa codeword f => decide (ppa < 2 ^ 34) && decide (codeword < 8) && f.wf
  | .brineDropReport => true
  | .housekeepingRound readings => decide (readings.length = v.channels)
  | .throttleLeave zone => decide (zone < 105)
  | .sensorRestored ch => decide (ch < v.channels)
  | .railFault ch => decide (ch < v.channels)
  | .chargeVoltageRaise => true
  | .capacitanceMeasure capA capB fault => decide (capA < 2 ^ 32) && decide (capB < 2 ^ 32) && fault.wf
  | .criticalRecheck ch reading => decide (ch < v.channels) && decide (reading < 2 ^ 32)
  | .baseDrawMeasure inputMw => decide (inputMw < 2 ^ 32)
  | .pacingStep => true
  | .deliverableRecompute => true
  | .latencyMissReport cls => decide (cls < 16)
  | .boundConditionClear bit => decide (bit < 8)
  | .gillLeak domain => decide (domain < 110)
  | .pailReset kind inst => decide (kind < 9) && decide (inst < 65536)
  | .dramPageCloseTimeout subchannel bank => decide (subchannel < 16) && decide (bank < 32)
  | .refreshPeriodEnd => true
  | .dramRetrainStep => true
  | .retrain w _ => w.wf
  | .reservedRead key addr tag fault => decide (key < 4096) && lineAddr addr && decide (tag < 65536) && fault.wf v
  | .reservationTableRoom slice fault => decide (slice < 32) && fault.wf v
  | .conditionalWrite key addr tag _ _ _ => decide (key < 4096) && lineAddr addr && decide (tag < 65536)
  | .yokeTrainingDone speed width credits => decide (speed < 8) && decide (width < 17) && decide (credits.length = 3)
  | .yokeFrameReceive frame => decide (frame.length = 256)
  | .yokeRetransmit => true
  | .forward m => m.wf v
  | .mirror m => m.wf v
  | .ordered tag outcome => decide (tag < 65536) && decide (outcome < 16)
  | .mirrorAck tag => decide (tag < 65536)
  | .readForward tag line => decide (tag < 65536) && decide (line < v.lines)
  | .readData tag line _ _ _ => decide (tag < 65536) && decide (line < v.lines)
  | .resyncGrainRead reads => reads.all WordRead.wf
  | .resyncSector grain sector st data _ _ => decide (grain < v.grains) && decide (sector < 8) && decide (st < 4) && decide (data.length = 32)
  | .resyncAck grain => decide (grain < v.grains)
  | .resyncClear grain => decide (grain < v.grains)
  | .bitmapUnit unit sets => decide (unit < v.grains / 10240 + 1) && sets.all (fun x => decide (x < 10240))
  | .heartbeatSend => true
  | .heartbeat m => m.wf
  | .hello m x => m.wf && x.wf
  | .standDown m => m.wf
  | .moduleStandDown _ => true
  | .yokeDictionary msg => decide (msg.length ≤ 4080)
  | .commitPrepare batch seg _ recs => decide (batch < 2 ^ 32) && decide (seg < 65536) && recs.all (fun r => r.wf)
  | .commitVote batch code => decide (batch < 2 ^ 32) && decide (code < 2 ^ 32)
  | .commitApply batch => decide (batch < 2 ^ 32)
  | .commitDone batch => decide (batch < 2 ^ 32)
  | .notice code keyId base length => decide (code < 2 ^ 32) && decide (keyId < 4096) && decide (base < 2 ^ 64) && decide (length < 2 ^ 64)
  | .grainChange grain st => decide (grain < v.grains) && decide (st < 4)
  | .grainChangeAck grain => decide (grain < v.grains)
  | .yokeSilent => true
  | .aliveWireState _ => true
  | .aliveWireSilent => true
  | .pulseSend => true
  | .pulse m => m.wf
  | .pulseSilent => true
  | .suspectDecision => true
  | .juniorFenceDelay => true
  | .seniorFenceWait => true
  | .takeoverSilence => true
  | .join w => w.wf
  | .prevail w => w.wf
  | .forceSole w => w.wf
  | .withdraw w => w.wf
  | .leave w => w.wf
  | .getEventRecords w log => w.wf && decide (log < 4)
  | .clearEventRecords w log _ handles => w.wf && decide (log < 4) && handles.all (fun x => decide (x < 65536))
  | .getEventInterruptPolicy w => w.wf
  | .setEventInterruptPolicy w _ => w.wf
  | .getFwInfo w => w.wf
  | .transferFw w offset data => w.wf && decide (offset < 2 ^ 32) && decide (data.length ≤ 65536)
  | .activateFw w => w.wf
  | .getTimestamp w => w.wf
  | .setTimestamp w t => w.wf && decide (t < 2 ^ 64)
  | .getSupportedLogs w => w.wf
  | .getLog w log => w.wf && decide (log < 2)
  | .identifyMemoryDevice w => w.wf
  | .getPartitionInfo w => w.wf
  | .getHealthInfo w => w.wf
  | .getAlertConfiguration w => w.wf
  | .setAlertConfiguration w life temperature volatileErr persistentErr => w.wf && decide (life < 2 ^ 32) && decide (temperature < 2 ^ 32) && decide (volatileErr < 2 ^ 32) && decide (persistentErr < 2 ^ 32)
  | .getShutdownState w => w.wf
  | .setShutdownState w st => w.wf && decide (st < 4)
  | .getPoisonList w base length => w.wf && decide (base < 2 ^ 64) && decide (length < 2 ^ 64)
  | .clearPoison w addr _ => w.wf && lineAddr addr
  | .scanMediaCapabilities w base length => w.wf && decide (base < 2 ^ 64) && decide (length < 2 ^ 64)
  | .scanMedia w base length flags => w.wf && decide (base < 2 ^ 64) && decide (length < 2 ^ 64) && decide (flags < 2 ^ 32)
  | .getScanMediaResults w => w.wf
  | .sanitize w => w.wf
  | .secureErase w => w.wf
  | .backgroundCommandDone => true
  | .dictionaryTransfer w payload => w.wf && decide (payload.length ≤ 4096)
  | .unsupportedCommand w opcode => w.wf && decide (opcode < 65536)
  | .notifySend cond => decide (cond < 8)
  | .notifyResend cond => decide (cond < 8)
  | .notifyAck cond seq => decide (cond < 8) && decide (seq < 256)
  | .i3cAddressAssigned addr => decide (addr < 128)
  | .setEndpointId _ eid => decide (eid < 256)
  | .smbrstAssert => true
  | .dtpRead w tid index sub => w.wf && decide (tid < 256) && decide (index < 65536) && decide (sub < 256)
  | .dtpWrite w tid index sub data => w.wf && decide (tid < 256) && decide (index < 65536) && decide (sub < 256) && decide (data.length ≤ 65536)
  | .dtpReadInitiate w tid index sub => w.wf && decide (tid < 256) && decide (index < 65536) && decide (sub < 256)
  | .dtpReadSegment w tid _ => w.wf && decide (tid < 256)
  | .dtpWriteInitiate w tid index sub total => w.wf && decide (tid < 256) && decide (index < 65536) && decide (sub < 256) && decide (total < 2 ^ 32)
  | .dtpWriteSegment w tid _ _ data => w.wf && decide (tid < 256) && decide (data.length ≤ 65536)
  | .dtpAbort w tid code => w.wf && decide (tid < 256) && decide (code < 2 ^ 32)
  | .segmentTimeout _ => true
  | .dictionaryWrite w index sub data => w.wf && decide (index < 65536) && decide (sub < 256) && decide (data.length ≤ 65536)
  | .commitBatch w _ => w.wf
  | .discardBatch w => w.wf
  | .passwordPresent w area kind pw => w.wf && decide (area < 256) && decide (kind < 256) && decide (pw.length ≤ 238)
  | .passwordLock w => w.wf
  | .presentationTimeout _ => true
  | .passwordLockoutEnd _ => true
  | .setPassword w area kind pw => w.wf && decide (area < 8) && decide (kind < 2) && decide (pw.length ≤ 16)
  | .restoreDefaults w => w.wf
  | .areaDataWrite w data => w.wf && decide (data.length ≤ 65536)
  | .zeroRangeStart w => w.wf
  | .zeroRangeDone => true
  | .discardStart w => w.wf
  | .secureDiscardStart w => w.wf
  | .secureDiscardDone => true
  | .cryptoDiscardStart w => w.wf
  | .cryptoDiscardDone => true
  | .cryptoDiscardSweep => true
  | .scrubStart w => w.wf
  | .scrubCancel w => w.wf
  | .scrubPassDone errors => errors.all (fun x => decide (x.1 < v.lines) && x.2.wf v)
  | .brineRelease w => w.wf
  | .rekey w => w.wf
  | .prepareShutdownStart w => w.wf
  | .prepareShutdownCancel w => w.wf
  | .shutdownPrepared => true
  | .identifyStart w => w.wf
  | .identifyStop w => w.wf
  | .identifyExpire => true
  | .keyGenerate w => w.wf
  | .keyImport w _ => w.wf
  | .keyRegenerate w => w.wf
  | .attestSign w => w.wf
  | .attestSignDone => true
  | .frontCacheDisable w => w.wf
  | .frontCacheDrained => true
  | .frontCacheEnable w => w.wf
  | .rangeClean w found => w.wf && found.all (fun x => decide (x.1 < v.capacity / 64) && x.2.wf v)
  | .rangeInvalidate w found => w.wf && found.all (fun x => decide (x.1 < v.capacity / 64) && x.2.wf v)
  | .lineLock w found => w.wf && found.all (fun x => decide (x.1 < v.capacity / 64) && x.2.wf v)
  | .lineZero w => w.wf
  | .maintenanceDone _ => true
  | .fwBegin w => w.wf
  | .fwChunk w data => w.wf && decide (data.length ≤ 65536)
  | .fwVerify w => w.wf
  | .fwActivate w => w.wf
  | .fwCancel w => w.wf
  | .fwOperationDone _ => true
  | .testStateEnter w => w.wf
  | .testStateLeave w => w.wf
  | .selfTestStart w => w.wf
  | .selfTestCancel w => w.wf
  | .selfTestDone errors first badBlocks => decide (errors < 2 ^ 32) && decide (first < 2 ^ 32) && badBlocks.all (fun x => decide (x < 16 * v.groups))
  | .readBackData w => w.wf
  | .counterSnapshot w => w.wf
  | .counterSnapshotClear w => w.wf
  | .counterWrap block n addr partner => decide (block < 61) && decide (n < 8) && lineAddr addr && decide (partner < 65536)
  | .overflowClear w block _ => w.wf && decide (block < 61)
  | .firkinPeriodClose => true
  | .firkinFreeze w => w.wf
  | .firkinThaw w => w.wf
  | .firkinAutoThaw => true
  | .eventPailRead w => w.wf
  | .eventPailDropRemainder w => w.wf
  | .overrunRead w => w.wf
  | .powerBudgetWrite w mw => w.wf && decide (mw < 2 ^ 32)
  | .perstDeassert => true
  | .auxPowerLoss => true
  | .auxPowerArrive => true
  | .criticalLatchClear => true
  | .smbrstDeassert => true
  | .i3cDynamicAddressReset => true
  | .counterSnapshotReady => true
  | .discardDone => true
  | .strainerDramLapEnd errors => errors.all (fun x => decide (x.1 < v.lines) && x.2.wf v)
  | .keyUnwrapDone id => decide (id < 4096)
  | .boundaryScanInstruction _ => true

end Sys2Proof
end

