-- ==== Sys2Proof/Tests/Slice0.lean ====
section
/-!
SUPPORT. The package's own tests: a well-formed and an ill-formed term for each check of WellFormed; for each statement the concrete
states and operands that meet its hypotheses; the manual's worked examples; and single steps whose results the manual gives.
-/
namespace Sys2Proof.Tests
open Sys2Proof Sys2Proof.Machine

/-! ## WellFormed: each check refuses its ill-formed term -/

abbrev ok (i : Instr) : Prop := Instr.wf .sn128 i = true
/-- A well-formed write of the yoke. -/
def okWrite : YokeWrite := ⟨0, 0, 0, 0, false, false, false, 0, 0, true⟩
/-- A well-formed membership payload. -/
def okMember : Membership := ⟨0, 0, 0, 0, 0, false, false, false, false, false, 0, 0, 0, 0⟩
/-- A well-formed handshake. -/
def okHello : HelloInfo := ⟨0, 0, false, 0, false, false, false, [], []⟩

theorem test_wf_firmwareVerifyDone : ok (.firmwareVerifyDone ⟨true, true, true, true⟩ 0 []) ∧
    ¬ ok (.firmwareVerifyDone ⟨true, true, true, true⟩ 0 [(2 ^ 32, 0)]) ∧
    ¬ ok (.firmwareVerifyDone ⟨true, true, true, true⟩ 0 [(0, 2 ^ 20)]) := by decide
theorem test_wf_dumpReplayDone : ok (.dumpReplayDone []) ∧
    ¬ ok (.dumpReplayDone [Variant.sn128.lines]) := by decide
theorem test_wf_retiredImageReset : ok (.retiredImageReset 0) ∧
    ¬ ok (.retiredImageReset (2 ^ 32)) := by decide
theorem test_wf_dumpWindowsEnded : ok (.dumpWindowsEnded [] []) ∧
    ¬ ok (.dumpWindowsEnded [Variant.sn128.lines] []) ∧
    ¬ ok (.dumpWindowsEnded [] [Variant.sn128.lines]) := by decide
theorem test_wf_resetErrorDetected : ok (.resetErrorDetected 0 [] []) ∧
    ¬ ok (.resetErrorDetected 16 [] []) ∧
    ¬ ok (.resetErrorDetected 0 [Variant.sn128.lines] []) ∧
    ¬ ok (.resetErrorDetected 0 [] [(Variant.sn128.lines, .none)]) ∧
    ¬ ok (.resetErrorDetected 0 [] [(0, .corrected 10)]) := by decide
theorem test_wf_firmwareWatchdogExpire : ok (.firmwareWatchdogExpire [] []) ∧
    ¬ ok (.firmwareWatchdogExpire [Variant.sn128.lines] []) ∧
    ¬ ok (.firmwareWatchdogExpire [] [(Variant.sn128.lines, .none)]) ∧
    ¬ ok (.firmwareWatchdogExpire [] [(0, .corrected 10)]) := by decide
theorem test_wf_mapUnitPageIn : ok (.mapUnitPageIn 0 0) ∧
    ¬ ok (.mapUnitPageIn 6 0) ∧
    ¬ ok (.mapUnitPageIn 0 (2 ^ 30)) := by decide
theorem test_wf_linkTrainingDone : ok (.linkTrainingDone 0 0 0) ∧
    ¬ ok (.linkTrainingDone 8 0 0) ∧
    ¬ ok (.linkTrainingDone 0 17 0) ∧
    ¬ ok (.linkTrainingDone 0 0 65536) := by decide
theorem test_wf_fabricBind : ok (.fabricBind 0) ∧
    ¬ ok (.fabricBind 256) := by decide
theorem test_wf_hostReadRequest : ok (.hostReadRequest 0 0 0) ∧
    ¬ ok (.hostReadRequest 4096 0 0) ∧
    ¬ ok (.hostReadRequest 0 1 0) ∧
    ¬ ok (.hostReadRequest 0 0 65536) := by decide
theorem test_wf_hostWriteRequest : ok (.hostWriteRequest 0 0 0 0 0 false) ∧
    ¬ ok (.hostWriteRequest 4096 0 0 0 0 false) ∧
    ¬ ok (.hostWriteRequest 0 1 0 0 0 false) ∧
    ¬ ok (.hostWriteRequest 0 0 65536 0 0 false) := by decide
theorem test_wf_ingressDispatch : ok (.ingressDispatch 0) ∧
    ¬ ok (.ingressDispatch 32) := by decide
theorem test_wf_sliceLookup : ok (.sliceLookup 0 .none 0 0 false) ∧
    ¬ ok (.sliceLookup 32 .none 0 0 false) ∧
    ¬ ok (.sliceLookup 0 (.corrected 10) 0 0 false) ∧
    ¬ ok (.sliceLookup 0 (.sram 6) 0 0 false) ∧
    ¬ ok (.sliceLookup 0 (.keyEntry 4096) 0 0 false) ∧
    ¬ ok (.sliceLookup 0 (.shadow Variant.sn128.groups) 0 0 false) ∧
    ¬ ok (.sliceLookup 0 .none 32 0 false) ∧
    ¬ ok (.sliceLookup 0 .none 0 65536 false) := by decide
theorem test_wf_missSlotFreed : ok (.missSlotFreed 0 0 .none) ∧
    ¬ ok (.missSlotFreed 32 0 .none) ∧
    ¬ ok (.missSlotFreed 0 2048 .none) ∧
    ¬ ok (.missSlotFreed 0 0 (.sram 6)) := by decide
theorem test_wf_missTableEntryFreed : ok (.missTableEntryFreed 0 .none) ∧
    ¬ ok (.missTableEntryFreed 32 .none) ∧
    ¬ ok (.missTableEntryFreed 0 (.sram 6)) := by decide
theorem test_wf_sliceMissSideSleep : ok (.sliceMissSideSleep 0) ∧
    ¬ ok (.sliceMissSideSleep 32) := by decide
theorem test_wf_channelClockStop : ok (.channelClockStop 0) ∧
    ¬ ok (.channelClockStop 16) := by decide
theorem test_wf_programSuspendForRead : ok (.programSuspendForRead 0 0) ∧
    ¬ ok (.programSuspendForRead Variant.sn128.positions 0) ∧
    ¬ ok (.programSuspendForRead 0 16) := by decide
theorem test_wf_deferredDirectRead : ok (.deferredDirectRead 0) ∧
    ¬ ok (.deferredDirectRead (2 ^ 32)) := by decide
theorem test_wf_codewordDecoded : ok (.codewordDecoded 0 0 .good 0 (List.replicate 15 0)) ∧
    ¬ ok (.codewordDecoded (2 ^ 32) 0 .good 0 (List.replicate 15 0)) ∧
    ¬ ok (.codewordDecoded 0 16 .good 0 (List.replicate 15 0)) ∧
    ¬ ok (.codewordDecoded 0 0 .good 1025 (List.replicate 15 0)) ∧
    ¬ ok (.codewordDecoded 0 0 .good 0 [0]) := by decide
theorem test_wf_stripeCombineDone : ok (.stripeCombineDone 0 .good) ∧
    ¬ ok (.stripeCombineDone (2 ^ 32) .good) := by decide
theorem test_wf_prefetchDone : ok (.prefetchDone 0 .good) ∧
    ¬ ok (.prefetchDone (2 ^ 32) .good) := by decide
theorem test_wf_tierFillDone : ok (.tierFillDone 0) ∧
    ¬ ok (.tierFillDone (Variant.sn128.lines / 32)) := by decide
theorem test_wf_mergeBaseArrived : ok (.mergeBaseArrived 0 false) ∧
    ¬ ok (.mergeBaseArrived Variant.sn128.lines false) := by decide
theorem test_wf_frontCacheEvict : ok (.frontCacheEvict 0 0 .none) ∧
    ¬ ok (.frontCacheEvict 32 0 .none) ∧
    ¬ ok (.frontCacheEvict 0 2048 .none) ∧
    ¬ ok (.frontCacheEvict 0 0 (.corrected 10)) ∧
    ¬ ok (.frontCacheEvict 0 0 (.sram 6)) ∧
    ¬ ok (.frontCacheEvict 0 0 (.keyEntry 4096)) ∧
    ¬ ok (.frontCacheEvict 0 0 (.shadow Variant.sn128.groups)) := by decide
theorem test_wf_tierSectorFreed : ok (.tierSectorFreed 0 0) ∧
    ¬ ok (.tierSectorFreed 32 0) ∧
    ¬ ok (.tierSectorFreed 0 Variant.sn128.tierSets) := by decide
theorem test_wf_writebackStart : ok (.writebackStart []) ∧
    ¬ ok (.writebackStart [⟨2 ^ 34, 0, .converged 0⟩]) := by decide
theorem test_wf_windowTokenGrant : ok (.windowTokenGrant 0) ∧
    ¬ ok (.windowTokenGrant Variant.sn128.positions) := by decide
theorem test_wf_windowEnd : ok (.windowEnd 0) ∧
    ¬ ok (.windowEnd Variant.sn128.positions) := by decide
theorem test_wf_programPassDone : ok (.programPassDone 0 false [] [] []) ∧
    ¬ ok (.programPassDone (2 ^ 32) false [] [] []) ∧
    ¬ ok (.programPassDone 0 false [2 ^ 34] [] []) ∧
    ¬ ok (.programPassDone 0 false [] [2 ^ 34] []) ∧
    ¬ ok (.programPassDone 0 false [] [] [⟨0, 8, .converged 0⟩]) := by decide
theorem test_wf_pageVerify : ok (.pageVerify 0 0 false [] []) ∧
    ¬ ok (.pageVerify (2 ^ 34) 0 false [] []) ∧
    ¬ ok (.pageVerify 0 65536 false [] []) ∧
    ¬ ok (.pageVerify 0 0 false [2 ^ 34] []) ∧
    ¬ ok (.pageVerify 0 0 false [] [2 ^ 34]) := by decide
theorem test_wf_closeVerifyDone : ok (.closeVerifyDone 0 [] [] []) ∧
    ¬ ok (.closeVerifyDone Variant.sn128.groups [] [] []) ∧
    ¬ ok (.closeVerifyDone 0 [2 ^ 34] [] []) ∧
    ¬ ok (.closeVerifyDone 0 [] [2 ^ 34] []) ∧
    ¬ ok (.closeVerifyDone 0 [] [] [2 ^ 34]) := by decide
theorem test_wf_blockResetDone : ok (.blockResetDone 0 []) ∧
    ¬ ok (.blockResetDone Variant.sn128.groups []) ∧
    ¬ ok (.blockResetDone 0 [16]) := by decide
theorem test_wf_dieFailed : ok (.dieFailed 0 0 []) ∧
    ¬ ok (.dieFailed Variant.sn128.positions 0 []) ∧
    ¬ ok (.dieFailed 0 16 []) ∧
    ¬ ok (.dieFailed 0 0 [2 ^ 34]) := by decide

theorem test_wf_copySetSwitch : ok (.copySetSwitch 0 none) ∧
    ¬ ok (.copySetSwitch Variant.sn128.groups none) ∧
    ¬ ok (.copySetSwitch 0 (some (2 ^ 34))) := by decide

theorem test_wf_ripeningCellUpdate : ok (.ripeningCellUpdate 0 0 0) ∧
    ¬ ok (.ripeningCellUpdate Variant.sn128.packages 0 0) ∧
    ¬ ok (.ripeningCellUpdate 0 24 0) ∧
    ¬ ok (.ripeningCellUpdate 0 0 8) := by decide
theorem test_wf_strainerFinding : ok (.strainerFinding 0 0 (.failed [] [⟨0, false, List.replicate 15 0⟩, ⟨0, true, List.replicate 15 0⟩])) ∧
    ¬ ok (.strainerFinding (2 ^ 34) 0 (.converged 0)) ∧
    ¬ ok (.strainerFinding 0 8 (.converged 0)) ∧
    ¬ ok (.strainerFinding 0 0 (.converged 1025)) ∧
    ¬ ok (.strainerFinding 0 0 (.soft 5 0 [⟨0, false, List.replicate 15 0⟩])) ∧
    ¬ ok (.strainerFinding 0 0 (.soft 2 1025 [⟨0, false, List.replicate 15 0⟩])) ∧
    ¬ ok (.strainerFinding 0 0 (.soft 2 0 [⟨0, true, List.replicate 15 0⟩])) ∧
    ¬ ok (.strainerFinding 0 0 (.soft 4 0 [⟨0, false, List.replicate 15 0⟩])) ∧
    ¬ ok (.strainerFinding 0 0 (.soft 3 0 [⟨0, false, []⟩])) ∧
    ¬ ok (.strainerFinding 0 0 (.soft 3 0 [⟨16, false, List.replicate 15 0⟩])) ∧
    ¬ ok (.strainerFinding 0 0 (.failed [32] [])) ∧
    ¬ ok (.strainerFinding 0 0 (.failed [] [⟨0, true, []⟩])) := by decide
set_option maxRecDepth 4000 in
theorem test_wf_housekeepingRound : ok (.housekeepingRound (List.replicate (Variant.sn128.channels) 0)) ∧
    ¬ ok (.housekeepingRound [0]) := by decide
theorem test_wf_throttleLeave : ok (.throttleLeave 0) ∧
    ¬ ok (.throttleLeave 105) := by decide
theorem test_wf_sensorRestored : ok (.sensorRestored 0) ∧
    ¬ ok (.sensorRestored Variant.sn128.channels) := by decide
theorem test_wf_railFault : ok (.railFault 0) ∧
    ¬ ok (.railFault Variant.sn128.channels) := by decide
theorem test_wf_capacitanceMeasure : ok (.capacitanceMeasure 0 0 .none) ∧
    ¬ ok (.capacitanceMeasure (2 ^ 32) 0 .none) ∧
    ¬ ok (.capacitanceMeasure 0 (2 ^ 32) .none) ∧
    ¬ ok (.capacitanceMeasure 0 0 (.stringOpen 2)) ∧
    ¬ ok (.capacitanceMeasure 0 0 (.stringShort 2)) := by decide
theorem test_wf_criticalRecheck : ok (.criticalRecheck 0 0) ∧
    ¬ ok (.criticalRecheck Variant.sn128.channels 0) ∧
    ¬ ok (.criticalRecheck 0 (2 ^ 32)) := by decide
theorem test_wf_baseDrawMeasure : ok (.baseDrawMeasure 0) ∧
    ¬ ok (.baseDrawMeasure (2 ^ 32)) := by decide
theorem test_wf_latencyMissReport : ok (.latencyMissReport 0) ∧
    ¬ ok (.latencyMissReport 16) := by decide
theorem test_wf_boundConditionClear : ok (.boundConditionClear 0) ∧
    ¬ ok (.boundConditionClear 8) := by decide
theorem test_wf_gillLeak : ok (.gillLeak 0) ∧
    ¬ ok (.gillLeak 110) := by decide
theorem test_wf_pailReset : ok (.pailReset 0 0) ∧
    ¬ ok (.pailReset 9 0) ∧
    ¬ ok (.pailReset 0 65536) := by decide
theorem test_wf_dramPageCloseTimeout : ok (.dramPageCloseTimeout 0 0) ∧
    ¬ ok (.dramPageCloseTimeout 16 0) ∧
    ¬ ok (.dramPageCloseTimeout 0 32) := by decide
theorem test_wf_retrain : ok (.retrain ⟨.primary, 0, 0⟩ 0) ∧
    ¬ ok (.retrain ⟨.primary, 4096, 0⟩ 0) := by decide
theorem test_wf_reservedRead : ok (.reservedRead 0 0 0 .none) ∧
    ¬ ok (.reservedRead 4096 0 0 .none) ∧
    ¬ ok (.reservedRead 0 1 0 .none) ∧
    ¬ ok (.reservedRead 0 0 65536 .none) ∧
    ¬ ok (.reservedRead 0 0 0 (.sram 6)) := by decide
theorem test_wf_reservationTableRoom : ok (.reservationTableRoom 0 .none) ∧
    ¬ ok (.reservationTableRoom 32 .none) ∧
    ¬ ok (.reservationTableRoom 0 (.sram 6)) := by decide
theorem test_wf_conditionalWrite : ok (.conditionalWrite 0 0 0 0 0 false) ∧
    ¬ ok (.conditionalWrite 4096 0 0 0 0 false) ∧
    ¬ ok (.conditionalWrite 0 1 0 0 0 false) ∧
    ¬ ok (.conditionalWrite 0 0 65536 0 0 false) := by decide
theorem test_wf_yokeTrainingDone : ok (.yokeTrainingDone 0 0 [0, 0, 0]) ∧
    ¬ ok (.yokeTrainingDone 8 0 [0, 0, 0]) ∧
    ¬ ok (.yokeTrainingDone 0 17 [0, 0, 0]) ∧
    ¬ ok (.yokeTrainingDone 0 0 [0]) := by decide
theorem test_wf_yokeFrameReceive : ok (.yokeFrameReceive (List.replicate 256 0)) ∧
    ¬ ok (.yokeFrameReceive []) := by decide +kernel
theorem test_wf_forward : ok (.forward okWrite) ∧
    ¬ ok (.forward ({ okWrite with tag := 65536 })) ∧
    ¬ ok (.forward ({ okWrite with line := Variant.sn128.lines })) ∧
    ¬ ok (.forward ({ okWrite with cls := 16 })) ∧
    ¬ ok (.forward ({ okWrite with entry := 4096 })) ∧
    ¬ ok (.forward ({ okWrite with full := true })) := by decide
theorem test_wf_mirror : ok (.mirror okWrite) ∧
    ¬ ok (.mirror ({ okWrite with tag := 65536 })) ∧
    ¬ ok (.mirror ({ okWrite with line := Variant.sn128.lines })) ∧
    ¬ ok (.mirror ({ okWrite with cls := 16 })) ∧
    ¬ ok (.mirror ({ okWrite with entry := 4096 })) ∧
    ¬ ok (.mirror ({ okWrite with full := true })) := by decide
theorem test_wf_ordered : ok (.ordered 0 0) ∧
    ¬ ok (.ordered 65536 0) ∧
    ¬ ok (.ordered 0 16) := by decide
theorem test_wf_mirrorAck : ok (.mirrorAck 0) ∧
    ¬ ok (.mirrorAck 65536) := by decide
theorem test_wf_readForward : ok (.readForward 0 0) ∧
    ¬ ok (.readForward 65536 0) ∧
    ¬ ok (.readForward 0 Variant.sn128.lines) := by decide
theorem test_wf_readData : ok (.readData 0 0 0 false true) ∧
    ¬ ok (.readData 65536 0 0 false true) ∧
    ¬ ok (.readData 0 Variant.sn128.lines 0 false true) := by decide
theorem test_wf_resyncGrainRead : ok (.resyncGrainRead []) ∧
    ¬ ok (.resyncGrainRead [⟨0, 8, .converged 0⟩]) := by decide
theorem test_wf_resyncSector : ok (.resyncSector 0 0 0 (List.replicate 32 0) 0 0) ∧
    ¬ ok (.resyncSector Variant.sn128.grains 0 0 (List.replicate 32 0) 0 0) ∧
    ¬ ok (.resyncSector 0 8 0 (List.replicate 32 0) 0 0) ∧
    ¬ ok (.resyncSector 0 0 4 (List.replicate 32 0) 0 0) ∧
    ¬ ok (.resyncSector 0 0 0 [0] 0 0) := by decide
theorem test_wf_resyncAck : ok (.resyncAck 0) ∧
    ¬ ok (.resyncAck Variant.sn128.grains) := by decide
theorem test_wf_resyncClear : ok (.resyncClear 0) ∧
    ¬ ok (.resyncClear Variant.sn128.grains) := by decide
theorem test_wf_bitmapUnit : ok (.bitmapUnit 0 []) ∧
    ¬ ok (.bitmapUnit (Variant.sn128.grains / 10240 + 1) []) ∧
    ¬ ok (.bitmapUnit 0 [10240]) := by decide
theorem test_wf_heartbeat : ok (.heartbeat okMember) ∧
    ¬ ok (.heartbeat ({ okMember with pairId := 2 ^ 64 })) ∧
    ¬ ok (.heartbeat ({ okMember with serial := 2 ^ 64 })) ∧
    ¬ ok (.heartbeat ({ okMember with pairEpoch := 2 ^ 32 })) ∧
    ¬ ok (.heartbeat ({ okMember with baseEpoch := 2 ^ 32 })) ∧
    ¬ ok (.heartbeat ({ okMember with state := 9 })) ∧
    ¬ ok (.heartbeat ({ okMember with sequence := 2 ^ 32 })) := by decide
theorem test_wf_hello : ok (.hello okMember okHello) ∧
    ¬ ok (.hello ({ okMember with pairId := 2 ^ 64 }) okHello) ∧
    ¬ ok (.hello ({ okMember with serial := 2 ^ 64 }) okHello) ∧
    ¬ ok (.hello ({ okMember with pairEpoch := 2 ^ 32 }) okHello) ∧
    ¬ ok (.hello ({ okMember with baseEpoch := 2 ^ 32 }) okHello) ∧
    ¬ ok (.hello ({ okMember with state := 9 }) okHello) ∧
    ¬ ok (.hello ({ okMember with sequence := 2 ^ 32 }) okHello) ∧
    ¬ ok (.hello okMember ({ okHello with position := 3 })) ∧
    ¬ ok (.hello okMember ({ okHello with seniorPosition := 2 })) ∧
    ¬ ok (.hello okMember ({ okHello with tables := [⟨65536, 0, []⟩] })) ∧
    ¬ ok (.hello okMember ({ okHello with tables := [⟨0, 256, []⟩] })) ∧
    ¬ ok (.hello okMember ({ okHello with recorded := [(1, 0, 0, 0)] })) ∧
    ¬ ok (.hello okMember ({ okHello with recorded := [(7, 0, 0, 0)] })) ∧
    ¬ ok (.hello okMember ({ okHello with recorded := [(2, 4096, 0, 0)] })) := by decide
theorem test_wf_standDown : ok (.standDown okMember) ∧
    ¬ ok (.standDown ({ okMember with pairId := 2 ^ 64 })) ∧
    ¬ ok (.standDown ({ okMember with serial := 2 ^ 64 })) ∧
    ¬ ok (.standDown ({ okMember with pairEpoch := 2 ^ 32 })) ∧
    ¬ ok (.standDown ({ okMember with baseEpoch := 2 ^ 32 })) ∧
    ¬ ok (.standDown ({ okMember with state := 9 })) ∧
    ¬ ok (.standDown ({ okMember with sequence := 2 ^ 32 })) := by decide
theorem test_wf_yokeDictionary : ok (.yokeDictionary []) := by decide
theorem test_wf_yokeDictionary_long (d : Bytes) (h : 4080 < d.length) : ¬ ok (.yokeDictionary d) := by
  intro x; simp [ok, Instr.wf] at x; omega
theorem test_wf_commitPrepare : ok (.commitPrepare 0 0 false []) ∧
    ¬ ok (.commitPrepare (2 ^ 32) 0 false []) ∧
    ¬ ok (.commitPrepare 0 65536 false []) ∧
    ¬ ok (.commitPrepare 0 0 false [⟨65536, 0, []⟩]) := by decide
theorem test_wf_commitVote : ok (.commitVote 0 0) ∧
    ¬ ok (.commitVote (2 ^ 32) 0) ∧
    ¬ ok (.commitVote 0 (2 ^ 32)) := by decide
theorem test_wf_commitApply : ok (.commitApply 0) ∧
    ¬ ok (.commitApply (2 ^ 32)) := by decide
theorem test_wf_commitDone : ok (.commitDone 0) ∧
    ¬ ok (.commitDone (2 ^ 32)) := by decide
theorem test_wf_notice : ok (.notice 0 0 0 0) ∧
    ¬ ok (.notice (2 ^ 32) 0 0 0) ∧
    ¬ ok (.notice 0 4096 0 0) ∧
    ¬ ok (.notice 0 0 (2 ^ 64) 0) ∧
    ¬ ok (.notice 0 0 0 (2 ^ 64)) := by decide
theorem test_wf_grainChange : ok (.grainChange 0 0) ∧
    ¬ ok (.grainChange Variant.sn128.grains 0) ∧
    ¬ ok (.grainChange 0 4) := by decide
theorem test_wf_grainChangeAck : ok (.grainChangeAck 0) ∧
    ¬ ok (.grainChangeAck Variant.sn128.grains) := by decide
theorem test_wf_pulse : ok (.pulse okMember) ∧
    ¬ ok (.pulse ({ okMember with pairId := 2 ^ 64 })) ∧
    ¬ ok (.pulse ({ okMember with serial := 2 ^ 64 })) ∧
    ¬ ok (.pulse ({ okMember with pairEpoch := 2 ^ 32 })) ∧
    ¬ ok (.pulse ({ okMember with baseEpoch := 2 ^ 32 })) ∧
    ¬ ok (.pulse ({ okMember with state := 9 })) ∧
    ¬ ok (.pulse ({ okMember with sequence := 2 ^ 32 })) := by decide
theorem test_wf_join : ok (.join ⟨.primary, 0, 0⟩) ∧
    ¬ ok (.join ⟨.primary, 4096, 0⟩) := by decide
theorem test_wf_prevail : ok (.prevail ⟨.primary, 0, 0⟩) ∧
    ¬ ok (.prevail ⟨.primary, 4096, 0⟩) := by decide
theorem test_wf_forceSole : ok (.forceSole ⟨.primary, 0, 0⟩) ∧
    ¬ ok (.forceSole ⟨.primary, 4096, 0⟩) := by decide
theorem test_wf_withdraw : ok (.withdraw ⟨.primary, 0, 0⟩) ∧
    ¬ ok (.withdraw ⟨.primary, 4096, 0⟩) := by decide
theorem test_wf_leave : ok (.leave ⟨.primary, 0, 0⟩) ∧
    ¬ ok (.leave ⟨.primary, 4096, 0⟩) := by decide
theorem test_wf_getEventRecords : ok (.getEventRecords ⟨.primary, 0, 0⟩ 0) ∧
    ¬ ok (.getEventRecords ⟨.primary, 4096, 0⟩ 0) ∧
    ¬ ok (.getEventRecords ⟨.primary, 0, 0⟩ 4) := by decide
theorem test_wf_clearEventRecords : ok (.clearEventRecords ⟨.primary, 0, 0⟩ 0 false []) ∧
    ¬ ok (.clearEventRecords ⟨.primary, 4096, 0⟩ 0 false []) ∧
    ¬ ok (.clearEventRecords ⟨.primary, 0, 0⟩ 4 false []) ∧
    ¬ ok (.clearEventRecords ⟨.primary, 0, 0⟩ 0 false [65536]) := by decide
theorem test_wf_getEventInterruptPolicy : ok (.getEventInterruptPolicy ⟨.primary, 0, 0⟩) ∧
    ¬ ok (.getEventInterruptPolicy ⟨.primary, 4096, 0⟩) := by decide
theorem test_wf_setEventInterruptPolicy : ok (.setEventInterruptPolicy ⟨.primary, 0, 0⟩ 0) ∧
    ¬ ok (.setEventInterruptPolicy ⟨.primary, 4096, 0⟩ 0) := by decide
theorem test_wf_getFwInfo : ok (.getFwInfo ⟨.primary, 0, 0⟩) ∧
    ¬ ok (.getFwInfo ⟨.primary, 4096, 0⟩) := by decide
theorem test_wf_transferFw : ok (.transferFw ⟨.primary, 0, 0⟩ 0 []) ∧
    ¬ ok (.transferFw ⟨.primary, 4096, 0⟩ 0 []) ∧
    ¬ ok (.transferFw ⟨.primary, 0, 0⟩ (2 ^ 32) []) := by decide
theorem test_wf_transferFw_long (d : Bytes) (h : 65536 < d.length) : ¬ ok (.transferFw ⟨.primary, 0, 0⟩ 0 d) := by
  intro x; simp [ok, Instr.wf] at x; omega
theorem test_wf_activateFw : ok (.activateFw ⟨.primary, 0, 0⟩) ∧
    ¬ ok (.activateFw ⟨.primary, 4096, 0⟩) := by decide
theorem test_wf_getTimestamp : ok (.getTimestamp ⟨.primary, 0, 0⟩) ∧
    ¬ ok (.getTimestamp ⟨.primary, 4096, 0⟩) := by decide
theorem test_wf_setTimestamp : ok (.setTimestamp ⟨.primary, 0, 0⟩ 0) ∧
    ¬ ok (.setTimestamp ⟨.primary, 4096, 0⟩ 0) ∧
    ¬ ok (.setTimestamp ⟨.primary, 0, 0⟩ (2 ^ 64)) := by decide
theorem test_wf_getSupportedLogs : ok (.getSupportedLogs ⟨.primary, 0, 0⟩) ∧
    ¬ ok (.getSupportedLogs ⟨.primary, 4096, 0⟩) := by decide
theorem test_wf_getLog : ok (.getLog ⟨.primary, 0, 0⟩ 0) ∧
    ¬ ok (.getLog ⟨.primary, 4096, 0⟩ 0) ∧
    ¬ ok (.getLog ⟨.primary, 0, 0⟩ 2) := by decide
theorem test_wf_identifyMemoryDevice : ok (.identifyMemoryDevice ⟨.primary, 0, 0⟩) ∧
    ¬ ok (.identifyMemoryDevice ⟨.primary, 4096, 0⟩) := by decide
theorem test_wf_getPartitionInfo : ok (.getPartitionInfo ⟨.primary, 0, 0⟩) ∧
    ¬ ok (.getPartitionInfo ⟨.primary, 4096, 0⟩) := by decide
theorem test_wf_getHealthInfo : ok (.getHealthInfo ⟨.primary, 0, 0⟩) ∧
    ¬ ok (.getHealthInfo ⟨.primary, 4096, 0⟩) := by decide
theorem test_wf_getAlertConfiguration : ok (.getAlertConfiguration ⟨.primary, 0, 0⟩) ∧
    ¬ ok (.getAlertConfiguration ⟨.primary, 4096, 0⟩) := by decide
theorem test_wf_setAlertConfiguration : ok (.setAlertConfiguration ⟨.primary, 0, 0⟩ 0 0 0 0) ∧
    ¬ ok (.setAlertConfiguration ⟨.primary, 4096, 0⟩ 0 0 0 0) ∧
    ¬ ok (.setAlertConfiguration ⟨.primary, 0, 0⟩ (2 ^ 32) 0 0 0) ∧
    ¬ ok (.setAlertConfiguration ⟨.primary, 0, 0⟩ 0 (2 ^ 32) 0 0) ∧
    ¬ ok (.setAlertConfiguration ⟨.primary, 0, 0⟩ 0 0 (2 ^ 32) 0) ∧
    ¬ ok (.setAlertConfiguration ⟨.primary, 0, 0⟩ 0 0 0 (2 ^ 32)) := by decide
theorem test_wf_getShutdownState : ok (.getShutdownState ⟨.primary, 0, 0⟩) ∧
    ¬ ok (.getShutdownState ⟨.primary, 4096, 0⟩) := by decide
theorem test_wf_setShutdownState : ok (.setShutdownState ⟨.primary, 0, 0⟩ 0) ∧
    ¬ ok (.setShutdownState ⟨.primary, 4096, 0⟩ 0) ∧
    ¬ ok (.setShutdownState ⟨.primary, 0, 0⟩ 4) := by decide
theorem test_wf_getPoisonList : ok (.getPoisonList ⟨.primary, 0, 0⟩ 0 0) ∧
    ¬ ok (.getPoisonList ⟨.primary, 4096, 0⟩ 0 0) ∧
    ¬ ok (.getPoisonList ⟨.primary, 0, 0⟩ (2 ^ 64) 0) ∧
    ¬ ok (.getPoisonList ⟨.primary, 0, 0⟩ 0 (2 ^ 64)) := by decide
theorem test_wf_clearPoison : ok (.clearPoison ⟨.primary, 0, 0⟩ 0 0) ∧
    ¬ ok (.clearPoison ⟨.primary, 4096, 0⟩ 0 0) ∧
    ¬ ok (.clearPoison ⟨.primary, 0, 0⟩ 1 0) := by decide
theorem test_wf_scanMediaCapabilities : ok (.scanMediaCapabilities ⟨.primary, 0, 0⟩ 0 0) ∧
    ¬ ok (.scanMediaCapabilities ⟨.primary, 4096, 0⟩ 0 0) ∧
    ¬ ok (.scanMediaCapabilities ⟨.primary, 0, 0⟩ (2 ^ 64) 0) ∧
    ¬ ok (.scanMediaCapabilities ⟨.primary, 0, 0⟩ 0 (2 ^ 64)) := by decide
theorem test_wf_scanMedia : ok (.scanMedia ⟨.primary, 0, 0⟩ 0 0 0) ∧
    ¬ ok (.scanMedia ⟨.primary, 4096, 0⟩ 0 0 0) ∧
    ¬ ok (.scanMedia ⟨.primary, 0, 0⟩ (2 ^ 64) 0 0) ∧
    ¬ ok (.scanMedia ⟨.primary, 0, 0⟩ 0 (2 ^ 64) 0) ∧
    ¬ ok (.scanMedia ⟨.primary, 0, 0⟩ 0 0 (2 ^ 32)) := by decide
theorem test_wf_getScanMediaResults : ok (.getScanMediaResults ⟨.primary, 0, 0⟩) ∧
    ¬ ok (.getScanMediaResults ⟨.primary, 4096, 0⟩) := by decide
theorem test_wf_sanitize : ok (.sanitize ⟨.primary, 0, 0⟩) ∧
    ¬ ok (.sanitize ⟨.primary, 4096, 0⟩) := by decide
theorem test_wf_secureErase : ok (.secureErase ⟨.primary, 0, 0⟩) ∧
    ¬ ok (.secureErase ⟨.primary, 4096, 0⟩) := by decide
theorem test_wf_dictionaryTransfer : ok (.dictionaryTransfer ⟨.primary, 0, 0⟩ []) ∧
    ¬ ok (.dictionaryTransfer ⟨.primary, 4096, 0⟩ []) := by decide
theorem test_wf_dictionaryTransfer_long (d : Bytes) (h : 4096 < d.length) : ¬ ok (.dictionaryTransfer ⟨.primary, 0, 0⟩ d) := by
  intro x; simp [ok, Instr.wf] at x; omega
theorem test_wf_unsupportedCommand : ok (.unsupportedCommand ⟨.primary, 0, 0⟩ 0) ∧
    ¬ ok (.unsupportedCommand ⟨.primary, 4096, 0⟩ 0) ∧
    ¬ ok (.unsupportedCommand ⟨.primary, 0, 0⟩ 65536) := by decide
theorem test_wf_notifySend : ok (.notifySend 0) ∧
    ¬ ok (.notifySend 8) := by decide
theorem test_wf_notifyResend : ok (.notifyResend 0) ∧
    ¬ ok (.notifyResend 8) := by decide
theorem test_wf_notifyAck : ok (.notifyAck 0 0) ∧
    ¬ ok (.notifyAck 8 0) ∧
    ¬ ok (.notifyAck 0 256) := by decide
theorem test_wf_i3cAddressAssigned : ok (.i3cAddressAssigned 0) ∧
    ¬ ok (.i3cAddressAssigned 128) := by decide
theorem test_wf_setEndpointId : ok (.setEndpointId .field 0) ∧
    ¬ ok (.setEndpointId .field 256) := by decide
theorem test_wf_dtpRead : ok (.dtpRead ⟨.primary, 0, 0⟩ 0 0 0) ∧
    ¬ ok (.dtpRead ⟨.primary, 4096, 0⟩ 0 0 0) ∧
    ¬ ok (.dtpRead ⟨.primary, 0, 0⟩ 256 0 0) ∧
    ¬ ok (.dtpRead ⟨.primary, 0, 0⟩ 0 65536 0) ∧
    ¬ ok (.dtpRead ⟨.primary, 0, 0⟩ 0 0 256) := by decide
theorem test_wf_dtpWrite : ok (.dtpWrite ⟨.primary, 0, 0⟩ 0 0 0 []) ∧
    ¬ ok (.dtpWrite ⟨.primary, 4096, 0⟩ 0 0 0 []) ∧
    ¬ ok (.dtpWrite ⟨.primary, 0, 0⟩ 256 0 0 []) ∧
    ¬ ok (.dtpWrite ⟨.primary, 0, 0⟩ 0 65536 0 []) ∧
    ¬ ok (.dtpWrite ⟨.primary, 0, 0⟩ 0 0 256 []) := by decide
theorem test_wf_dtpWrite_long (d : Bytes) (h : 65536 < d.length) : ¬ ok (.dtpWrite ⟨.primary, 0, 0⟩ 0 0 0 d) := by
  intro x; simp [ok, Instr.wf] at x; omega
theorem test_wf_dtpReadInitiate : ok (.dtpReadInitiate ⟨.primary, 0, 0⟩ 0 0 0) ∧
    ¬ ok (.dtpReadInitiate ⟨.primary, 4096, 0⟩ 0 0 0) ∧
    ¬ ok (.dtpReadInitiate ⟨.primary, 0, 0⟩ 256 0 0) ∧
    ¬ ok (.dtpReadInitiate ⟨.primary, 0, 0⟩ 0 65536 0) ∧
    ¬ ok (.dtpReadInitiate ⟨.primary, 0, 0⟩ 0 0 256) := by decide
theorem test_wf_dtpReadSegment : ok (.dtpReadSegment ⟨.primary, 0, 0⟩ 0 false) ∧
    ¬ ok (.dtpReadSegment ⟨.primary, 4096, 0⟩ 0 false) ∧
    ¬ ok (.dtpReadSegment ⟨.primary, 0, 0⟩ 256 false) := by decide
theorem test_wf_dtpWriteInitiate : ok (.dtpWriteInitiate ⟨.primary, 0, 0⟩ 0 0 0 0) ∧
    ¬ ok (.dtpWriteInitiate ⟨.primary, 4096, 0⟩ 0 0 0 0) ∧
    ¬ ok (.dtpWriteInitiate ⟨.primary, 0, 0⟩ 256 0 0 0) ∧
    ¬ ok (.dtpWriteInitiate ⟨.primary, 0, 0⟩ 0 65536 0 0) ∧
    ¬ ok (.dtpWriteInitiate ⟨.primary, 0, 0⟩ 0 0 256 0) ∧
    ¬ ok (.dtpWriteInitiate ⟨.primary, 0, 0⟩ 0 0 0 (2 ^ 32)) := by decide
theorem test_wf_dtpWriteSegment : ok (.dtpWriteSegment ⟨.primary, 0, 0⟩ 0 false false []) ∧
    ¬ ok (.dtpWriteSegment ⟨.primary, 4096, 0⟩ 0 false false []) ∧
    ¬ ok (.dtpWriteSegment ⟨.primary, 0, 0⟩ 256 false false []) := by decide
theorem test_wf_dtpWriteSegment_long (d : Bytes) (h : 65536 < d.length) : ¬ ok (.dtpWriteSegment ⟨.primary, 0, 0⟩ 0 false false d) := by
  intro x; simp [ok, Instr.wf] at x; omega
theorem test_wf_dtpAbort : ok (.dtpAbort ⟨.primary, 0, 0⟩ 0 0) ∧
    ¬ ok (.dtpAbort ⟨.primary, 4096, 0⟩ 0 0) ∧
    ¬ ok (.dtpAbort ⟨.primary, 0, 0⟩ 256 0) ∧
    ¬ ok (.dtpAbort ⟨.primary, 0, 0⟩ 0 (2 ^ 32)) := by decide
theorem test_wf_dictionaryWrite : ok (.dictionaryWrite ⟨.primary, 0, 0⟩ 0 0 []) ∧
    ¬ ok (.dictionaryWrite ⟨.primary, 4096, 0⟩ 0 0 []) ∧
    ¬ ok (.dictionaryWrite ⟨.primary, 0, 0⟩ 65536 0 []) ∧
    ¬ ok (.dictionaryWrite ⟨.primary, 0, 0⟩ 0 256 []) := by decide
theorem test_wf_dictionaryWrite_long (d : Bytes) (h : 65536 < d.length) : ¬ ok (.dictionaryWrite ⟨.primary, 0, 0⟩ 0 0 d) := by
  intro x; simp [ok, Instr.wf] at x; omega
theorem test_wf_commitBatch : ok (.commitBatch ⟨.primary, 0, 0⟩ false) ∧
    ¬ ok (.commitBatch ⟨.primary, 4096, 0⟩ false) := by decide
theorem test_wf_discardBatch : ok (.discardBatch ⟨.primary, 0, 0⟩) ∧
    ¬ ok (.discardBatch ⟨.primary, 4096, 0⟩) := by decide
theorem test_wf_passwordPresent : ok (.passwordPresent ⟨.primary, 0, 0⟩ 0 0 []) ∧
    ¬ ok (.passwordPresent ⟨.primary, 4096, 0⟩ 0 0 []) ∧
    ¬ ok (.passwordPresent ⟨.primary, 0, 0⟩ 256 0 []) ∧
    ¬ ok (.passwordPresent ⟨.primary, 0, 0⟩ 0 256 []) := by decide
theorem test_wf_passwordPresent_long (d : Bytes) (h : 238 < d.length) : ¬ ok (.passwordPresent ⟨.primary, 0, 0⟩ 0 0 d) := by
  intro x; simp [ok, Instr.wf] at x; omega
theorem test_wf_passwordLock : ok (.passwordLock ⟨.primary, 0, 0⟩) ∧
    ¬ ok (.passwordLock ⟨.primary, 4096, 0⟩) := by decide
theorem test_wf_setPassword : ok (.setPassword ⟨.primary, 0, 0⟩ 0 0 []) ∧
    ¬ ok (.setPassword ⟨.primary, 4096, 0⟩ 0 0 []) ∧
    ¬ ok (.setPassword ⟨.primary, 0, 0⟩ 8 0 []) ∧
    ¬ ok (.setPassword ⟨.primary, 0, 0⟩ 0 2 []) ∧
    ¬ ok (.setPassword ⟨.primary, 0, 0⟩ 0 0 (List.replicate 17 0)) := by decide
theorem test_wf_restoreDefaults : ok (.restoreDefaults ⟨.primary, 0, 0⟩) ∧
    ¬ ok (.restoreDefaults ⟨.primary, 4096, 0⟩) := by decide
theorem test_wf_areaDataWrite : ok (.areaDataWrite ⟨.primary, 0, 0⟩ []) ∧
    ¬ ok (.areaDataWrite ⟨.primary, 4096, 0⟩ []) := by decide
theorem test_wf_areaDataWrite_long (d : Bytes) (h : 65536 < d.length) : ¬ ok (.areaDataWrite ⟨.primary, 0, 0⟩ d) := by
  intro x; simp [ok, Instr.wf] at x; omega
theorem test_wf_zeroRangeStart : ok (.zeroRangeStart ⟨.primary, 0, 0⟩) ∧
    ¬ ok (.zeroRangeStart ⟨.primary, 4096, 0⟩) := by decide
theorem test_wf_discardStart : ok (.discardStart ⟨.primary, 0, 0⟩) ∧
    ¬ ok (.discardStart ⟨.primary, 4096, 0⟩) := by decide
theorem test_wf_secureDiscardStart : ok (.secureDiscardStart ⟨.primary, 0, 0⟩) ∧
    ¬ ok (.secureDiscardStart ⟨.primary, 4096, 0⟩) := by decide
theorem test_wf_cryptoDiscardStart : ok (.cryptoDiscardStart ⟨.primary, 0, 0⟩) ∧
    ¬ ok (.cryptoDiscardStart ⟨.primary, 4096, 0⟩) := by decide
theorem test_wf_scrubStart : ok (.scrubStart ⟨.primary, 0, 0⟩) ∧
    ¬ ok (.scrubStart ⟨.primary, 4096, 0⟩) := by decide
theorem test_wf_scrubCancel : ok (.scrubCancel ⟨.primary, 0, 0⟩) ∧
    ¬ ok (.scrubCancel ⟨.primary, 4096, 0⟩) := by decide
theorem test_wf_brineRelease : ok (.brineRelease ⟨.primary, 0, 0⟩) ∧
    ¬ ok (.brineRelease ⟨.primary, 4096, 0⟩) := by decide
theorem test_wf_rekey : ok (.rekey ⟨.primary, 0, 0⟩) ∧
    ¬ ok (.rekey ⟨.primary, 4096, 0⟩) := by decide
theorem test_wf_prepareShutdownStart : ok (.prepareShutdownStart ⟨.primary, 0, 0⟩) ∧
    ¬ ok (.prepareShutdownStart ⟨.primary, 4096, 0⟩) := by decide
theorem test_wf_prepareShutdownCancel : ok (.prepareShutdownCancel ⟨.primary, 0, 0⟩) ∧
    ¬ ok (.prepareShutdownCancel ⟨.primary, 4096, 0⟩) := by decide
theorem test_wf_identifyStart : ok (.identifyStart ⟨.primary, 0, 0⟩) ∧
    ¬ ok (.identifyStart ⟨.primary, 4096, 0⟩) := by decide
theorem test_wf_identifyStop : ok (.identifyStop ⟨.primary, 0, 0⟩) ∧
    ¬ ok (.identifyStop ⟨.primary, 4096, 0⟩) := by decide
theorem test_wf_keyGenerate : ok (.keyGenerate ⟨.primary, 0, 0⟩) ∧
    ¬ ok (.keyGenerate ⟨.primary, 4096, 0⟩) := by decide
theorem test_wf_keyImport : ok (.keyImport ⟨.primary, 0, 0⟩ ⟨false, true, 0⟩) ∧
    ¬ ok (.keyImport ⟨.primary, 4096, 0⟩ ⟨false, true, 0⟩) := by decide
theorem test_wf_keyRegenerate : ok (.keyRegenerate ⟨.primary, 0, 0⟩) ∧
    ¬ ok (.keyRegenerate ⟨.primary, 4096, 0⟩) := by decide
theorem test_wf_attestSign : ok (.attestSign ⟨.primary, 0, 0⟩) ∧
    ¬ ok (.attestSign ⟨.primary, 4096, 0⟩) := by decide
theorem test_wf_frontCacheDisable : ok (.frontCacheDisable ⟨.primary, 0, 0⟩) ∧
    ¬ ok (.frontCacheDisable ⟨.primary, 4096, 0⟩) := by decide
theorem test_wf_frontCacheEnable : ok (.frontCacheEnable ⟨.primary, 0, 0⟩) ∧
    ¬ ok (.frontCacheEnable ⟨.primary, 4096, 0⟩) := by decide
theorem test_wf_rangeClean : ok (.rangeClean ⟨.primary, 0, 0⟩ []) ∧
    ¬ ok (.rangeClean ⟨.primary, 4096, 0⟩ []) ∧
    ¬ ok (.rangeClean ⟨.primary, 0, 4⟩ []) ∧
    ¬ ok (.rangeClean ⟨.primary, 0, 0⟩ [(Variant.sn128.capacity / 64, .none)]) ∧
    ¬ ok (.rangeClean ⟨.primary, 0, 0⟩ [(0, .sram 6)]) := by decide
theorem test_wf_rangeInvalidate : ok (.rangeInvalidate ⟨.primary, 0, 0⟩ []) ∧
    ¬ ok (.rangeInvalidate ⟨.primary, 4096, 0⟩ []) ∧
    ¬ ok (.rangeInvalidate ⟨.primary, 0, 4⟩ []) ∧
    ¬ ok (.rangeInvalidate ⟨.primary, 0, 0⟩ [(Variant.sn128.capacity / 64, .none)]) ∧
    ¬ ok (.rangeInvalidate ⟨.primary, 0, 0⟩ [(0, .sram 6)]) := by decide
theorem test_wf_lineLock : ok (.lineLock ⟨.primary, 0, 0⟩ []) ∧
    ¬ ok (.lineLock ⟨.primary, 4096, 0⟩ []) ∧
    ¬ ok (.lineLock ⟨.primary, 0, 4⟩ []) ∧
    ¬ ok (.lineLock ⟨.primary, 0, 0⟩ [(Variant.sn128.capacity / 64, .none)]) ∧
    ¬ ok (.lineLock ⟨.primary, 0, 0⟩ [(0, .sram 6)]) := by decide
theorem test_wf_lineZero : ok (.lineZero ⟨.primary, 0, 0⟩) ∧
    ¬ ok (.lineZero ⟨.primary, 4096, 0⟩) := by decide
theorem test_wf_fwBegin : ok (.fwBegin ⟨.primary, 0, 0⟩) ∧
    ¬ ok (.fwBegin ⟨.primary, 4096, 0⟩) := by decide
theorem test_wf_fwChunk : ok (.fwChunk ⟨.primary, 0, 0⟩ []) ∧
    ¬ ok (.fwChunk ⟨.primary, 4096, 0⟩ []) := by decide
theorem test_wf_fwChunk_long (d : Bytes) (h : 65536 < d.length) : ¬ ok (.fwChunk ⟨.primary, 0, 0⟩ d) := by
  intro x; simp [ok, Instr.wf] at x; omega
theorem test_wf_fwVerify : ok (.fwVerify ⟨.primary, 0, 0⟩) ∧
    ¬ ok (.fwVerify ⟨.primary, 4096, 0⟩) := by decide
theorem test_wf_fwActivate : ok (.fwActivate ⟨.primary, 0, 0⟩) ∧
    ¬ ok (.fwActivate ⟨.primary, 4096, 0⟩) := by decide
theorem test_wf_fwCancel : ok (.fwCancel ⟨.primary, 0, 0⟩) ∧
    ¬ ok (.fwCancel ⟨.primary, 4096, 0⟩) := by decide
theorem test_wf_testStateEnter : ok (.testStateEnter ⟨.primary, 0, 0⟩) ∧
    ¬ ok (.testStateEnter ⟨.primary, 4096, 0⟩) := by decide
theorem test_wf_testStateLeave : ok (.testStateLeave ⟨.primary, 0, 0⟩) ∧
    ¬ ok (.testStateLeave ⟨.primary, 4096, 0⟩) := by decide
theorem test_wf_selfTestStart : ok (.selfTestStart ⟨.primary, 0, 0⟩) ∧
    ¬ ok (.selfTestStart ⟨.primary, 4096, 0⟩) := by decide
theorem test_wf_selfTestCancel : ok (.selfTestCancel ⟨.primary, 0, 0⟩) ∧
    ¬ ok (.selfTestCancel ⟨.primary, 4096, 0⟩) := by decide
theorem test_wf_selfTestDone : ok (.selfTestDone 0 0 []) ∧
    ¬ ok (.selfTestDone (2 ^ 32) 0 []) ∧
    ¬ ok (.selfTestDone 0 (2 ^ 32) []) ∧
    ¬ ok (.selfTestDone 0 0 [16 * Variant.sn128.groups]) := by decide
theorem test_wf_readBackData : ok (.readBackData ⟨.primary, 0, 0⟩) ∧
    ¬ ok (.readBackData ⟨.primary, 4096, 0⟩) := by decide
theorem test_wf_counterSnapshot : ok (.counterSnapshot ⟨.primary, 0, 0⟩) ∧
    ¬ ok (.counterSnapshot ⟨.primary, 4096, 0⟩) := by decide
theorem test_wf_counterSnapshotClear : ok (.counterSnapshotClear ⟨.primary, 0, 0⟩) ∧
    ¬ ok (.counterSnapshotClear ⟨.primary, 4096, 0⟩) := by decide
theorem test_wf_counterWrap : ok (.counterWrap 0 0 0 0) ∧
    ¬ ok (.counterWrap 61 0 0 0) ∧
    ¬ ok (.counterWrap 0 8 0 0) ∧
    ¬ ok (.counterWrap 0 0 1 0) ∧
    ¬ ok (.counterWrap 0 0 0 65536) := by decide
theorem test_wf_overflowClear : ok (.overflowClear ⟨.primary, 0, 0⟩ 0 0) ∧
    ¬ ok (.overflowClear ⟨.primary, 4096, 0⟩ 0 0) ∧
    ¬ ok (.overflowClear ⟨.primary, 0, 0⟩ 61 0) := by decide
theorem test_wf_firkinFreeze : ok (.firkinFreeze ⟨.primary, 0, 0⟩) ∧
    ¬ ok (.firkinFreeze ⟨.primary, 4096, 0⟩) := by decide
theorem test_wf_firkinThaw : ok (.firkinThaw ⟨.primary, 0, 0⟩) ∧
    ¬ ok (.firkinThaw ⟨.primary, 4096, 0⟩) := by decide
theorem test_wf_eventPailRead : ok (.eventPailRead ⟨.primary, 0, 0⟩) ∧
    ¬ ok (.eventPailRead ⟨.primary, 4096, 0⟩) := by decide
theorem test_wf_eventPailDropRemainder : ok (.eventPailDropRemainder ⟨.primary, 0, 0⟩) ∧
    ¬ ok (.eventPailDropRemainder ⟨.primary, 4096, 0⟩) := by decide
theorem test_wf_overrunRead : ok (.overrunRead ⟨.primary, 0, 0⟩) ∧
    ¬ ok (.overrunRead ⟨.primary, 4096, 0⟩) := by decide
theorem test_wf_powerBudgetWrite : ok (.powerBudgetWrite ⟨.primary, 0, 0⟩ 0) ∧
    ¬ ok (.powerBudgetWrite ⟨.primary, 4096, 0⟩ 0) ∧
    ¬ ok (.powerBudgetWrite ⟨.primary, 0, 0⟩ (2 ^ 32)) := by decide
theorem test_wf_keyUnwrapDone : ok (.keyUnwrapDone 0) ∧
    ¬ ok (.keyUnwrapDone 4096) := by decide
theorem test_wf_scrubPassDone : ok (.scrubPassDone []) ∧
    ¬ ok (.scrubPassDone [(Variant.sn128.lines, .none)]) ∧
    ¬ ok (.scrubPassDone [(0, .sram 6)]) := by decide
theorem test_wf_strainerDramLapEnd : ok (.strainerDramLapEnd []) ∧
    ¬ ok (.strainerDramLapEnd [(Variant.sn128.lines, .none)]) ∧
    ¬ ok (.strainerDramLapEnd [(0, .sram 6)]) := by decide

/-! ## Witnesses: for each statement, states and operands that meet its hypotheses -/

-- One after another: each of the theorems below is evaluated by the kernel.
set_option Elab.async false



/-- A module alone that serves CXL.mem, armed. -/
def up : State :=
  { pwr :=
      { main := true
        aux := true
        perst := false
        boot := .running
        memoryActive := true
        arm := 1
        armed := true }
    port := { speed := 6, width := 16, attach := 1 }
    budget := { derived := 1000 }
    map := { resident := true } }
/-- A module on aux power alone. -/
def onAux : State := { pwr := { aux := true } }
/-- A module whose main power is gone and which dumps from the bank. -/
def dumping : State :=
  { up with
    pwr := { up.pwr with
      main := false
      holdUp := true
      memoryActive := false
      arm := 5 } }
/-- A module of a trained pair in a membership state. -/
def yoked (member : Nat) : State :=
  { up with
    dict := { inForce := [(0x410001, 1)] }
    yoke := { speed := 6, width := 4, member := member, silent := false, cable := true, position := 0, credits := [(0, 20), (1, 20), (2, 20)] } }
/-- A module with committed values of entries, keyed by index × 256 + subindex. -/
def setv (kv : Tab Nat) (s : State) : State := s.upDict (fun d => { d with cfg := kv })
/-- The operator on the field network. -/
def fld : Who := { route := .field, key := 0 }
/-- A host on the primary mailbox. -/
def host : Who := { route := .primary, key := 0 }
/-- A held front-cache line. -/
def fcl (st : FcSt) : FcLine := ⟨0, st, 7, 0, false, false, false⟩
/-- A valid tier sector with nothing written. -/
def sect : Sector := ⟨0, 0, false, false, BitVec.allOnes 32, [], [], []⟩
/-- A host request for line 0 at a stage. -/
def rq (k : ReqKind) (st : Stage) : Req := ⟨0, k, 0, 0, 5, 0, 0, 0, 9, fullMask, false, 0, st, false, 0, none⟩
/-- A demand miss of line 0 at a step of the ladder. -/
def miss (step : Nat) (recon : Bool) : Miss :=
  ⟨0, 0, .demand, 0, 0, 0, false, step, if recon then .failed else .reading, recon, .none, false, none, false, 2, false, false, false,
    false, 0, [], 0, false, [], 0, [], false, none, .reading⟩
/-- A peer codeword of a reconstruction on a channel. -/
def peer (ch : Nat) (st : CwSt) : Peer := ⟨ch, 1, st, 0, [], 0⟩
/-- A verified grain page of a grain. -/
def gpage (owner : Nat) (verified : Bool) : Page := ⟨1, 1, owner, 0, [], [], [], verified⟩
/-- A die operation outside its window. -/
def dop (die : Nat) : DieOp := ⟨die, false, false, true, false, 0, 0, 0, [], 0⟩
/-- A running job over a span. -/
def jobs (kj : List (Nat × Job)) (ctl : Tab Nat) (s : State) : State :=
  s.upCmds (fun c => { c with jobs := kj, ctl := ctl })
/-- An image of an empty dump. -/
def img (retired : Bool) : Image := ⟨1, 1, [], 0, 0, 0, true, [], 0, [(3, ⟨5, 0, false, false, 0⟩)], 0, retired, false, false, 1⟩
/-- A segmented transfer of the operator. -/
def xfer (isWrite : Bool) (data : Bytes) (total : Nat) : Transfer :=
  ⟨isWrite, 1, .operator, 0, 0x8007, 5, total, data, 0, false, true, [], 0, 0, 0⟩
/-- The membership payload of a matching peer. -/
def mate : Membership := ⟨0, 1, 0, 0, 0, false, false, true, false, false, 0x5A80, 1, 0, 0⟩
/-- The handshake of a matching peer. -/
def mateHello : HelloInfo := ⟨1, 0, false, 0, false, true, false, [], []⟩
/-- The value a read returns. -/
def okBytes (r : Except Nat Bytes) : Bytes :=
  match r with
  | .ok v => v
  | .error _ => []
/-- The row a write is permitted on. -/
def okRow (r : Except Nat Row) : Row :=
  match r with
  | .ok x => x
  | .error _ => { sub := 0, ty := .u8, acc := AccessCodes.ro }
/-- The state a step gives. -/
def nextOf (s : State) : State :=
  match step s with
  | .next t => t
  | _ => s
/-- Sixteen lines that fill front-cache set 0 of slice 0. -/
def fullSet (st : FcSt) : Tab FcLine := (List.range 16).map (fun i => (i * 2 ^ 21, { fcl st with way := i }))
/-- A dirty grain that waits for its writeback, the state its choice leaves, and the page it is given. -/
def wbState : State :=
  { up with
    fc := { lines := [(0, fcl .modified)] }
    budget := { up.budget with
      charged := [(0, 0)]
      queued := [(0, 1)] } }
def wbNext : State := ((wbState.queueAged.pressBlocked.noteLimits.nextWriteback).map (fun x => x.2.2)).getD up
def wbTaken : State := (wbNext.dirtyLines 0).foldl (fun t l => t.takeLine [] l) wbNext
def wbPlaced : Nat × State := (wbTaken.place .grain none .writeback).getD (0, up)
/-- A module whose lap is due. -/
def lapState : State := up.upMap (fun m => { m with lapDue := true })
/-- A Closed group 0 that holds one valid page. -/
def oneValid : State :=
  { up with
    media :=
      { pages := [(0, gpage 4 true)]
        groups := [(0, { st := .closed })] }
    map := { up.map with entries := [(4, { st := .mapped, page := 0 })] } }
/-- A lap whose pages have all verified but for its root, and the place of that. -/
def rootState : State := up.upMap (fun m => { m with lapRunning := true, lapNext := { lap := 1, extents := [⟨1, 0, [], [], false⟩] } })
def rootPlaced : Nat × State := (rootState.place .checkpoint none .lap).getD (0, up)
/-- A frame of the yoke with a sequence, an acknowledgement, a credit class and count, and the stream bytes it carries. -/
def frameOf (seq ack cls n : Nat) (stream : Bytes) : Bytes :=
  let b := natLe 4 (seq * 2 ^ 20 + ack * 2 ^ 8 + cls * 2 ^ 6 + n) ++ stream ++ List.replicate (236 - stream.length) 0
  b ++ natLe 8 (Config.crc64 b).toNat ++ List.replicate 8 0
/-- A frame whose bytes 240 to 247 are the CRC-64 of those before them is good. -/
theorem frameGood_of_crc (b r : Bytes) (h : b.length = 240) :
    frameGood (b ++ natLe 8 (Config.crc64 b).toNat ++ r) = true := by
  have hl : ∀ n, (natLe 8 n).length = 8 := fun n => by simp [natLe]
  have h1 : (b ++ natLe 8 (Config.crc64 b).toNat ++ r).take 240 = b := by
    rw [List.append_assoc, List.take_left' h]
  have h2 : ((b ++ natLe 8 (Config.crc64 b).toNat ++ r).drop 240).take 8 = natLe 8 (Config.crc64 b).toNat := by
    rw [List.append_assoc, List.drop_left' h, List.take_left' (hl _)]
  rw [frameGood, h1, h2, decide_eq_true_eq]
/-- The strainer is enabled on a variant that has one, and has its leave. -/
def strains (s : State) : State :=
  setv [(0x224001, 1)] { s with
    ident := { variant := .sn64 }
    reg := { granted := [⟨strainId, .scrub, 1, 4, 0⟩] } }
/-- The skim level reached, the move it starts and the pass of that move. -/
def skimState : State := setv [(0x220007, 100), (0x220008, 99)] oneValid
def skimMoved : State := (skimState.skimLevel.movePage 0 .skimming 1 (some 0)).getD up
def noPass : Pass := ⟨0, 0, .scrub, 0, false, false, none, 0, 0⟩
def skimPass : Pass := skimMoved.media.passes.getLast?.getD noPass
def skimDst : Nat := skimPass.ppa
/-- An idle module, the state 100 ms later, the move it starts and the pass of that move. -/
def idleState : State := oneValid
def idleLater : State := idleState.elapseTo (idleState.port.lastHostReq + 100000000)
def idleMoved : State :=
  ((idleLater.upCare (fun c => { c with skim := if c.skim = 0 then 3 else c.skim })).movePage 0 .skimming 2 (some 0)).getD up
def idlePass : Pass := idleMoved.media.passes.getLast?.getD noPass
def idleDst : Nat := idlePass.ppa
/-- A group read deep, the move its repour starts and the pass of that move. -/
def pourState : State := oneValid.upMedia (fun m => { m with groups := [(0, { st := .closed, deep := true })] })
def pourMoved : State := (pourState.movePage 0 .repour 0 (some 0)).getD up
def pourPass : Pass := pourMoved.media.passes.getLast?.getD noPass
def pourDst : Nat := pourPass.ppa
/-- A feeder with a mapped marked grain, the time its next grain goes out, and the state its reads leave. -/
def syncState : State :=
  { yoked 6 with
    map :=
      { up.map with
        div := [(4, true)]
        entries := [(4, { st := .mapped })] } }
def syncLater : State :=
  if syncState.entry 0x4100 6 = 0 then syncState
  else syncState.elapseTo (syncState.yoke.resyncAt + (16384000 + syncState.entry 0x4100 6 - 1) / syncState.entry 0x4100 6)
def syncRead : State := (syncLater.readLines (syncLater.unheld ((List.range 256).map (fun j => 4 * 256 + j))) [] []).2
/-- A step whose answer is a next state answers `nextOf`. -/
theorem step_nextOf (s : State) (h : (match step s with | .next _ => true | _ => false) = true) : step s = .next (nextOf s) := by
  unfold nextOf
  split at h <;> simp_all
/-- A permit that names a row names `okRow`. -/
theorem permit_okRow (r : Except Nat Row) (h : r.toBool = true) : r = .ok (okRow r) := by
  cases r
  · simp [Except.toBool] at h
  · rfl
/-- A read answers a value. -/
theorem readsAs (r : Except Nat Bytes) (v : Bytes) (h : (match r with | .ok x => decide (x = v) | .error _ => false) = true) :
    r = .ok v := by
  cases r <;> simp_all

theorem test_meets_StepRunsTheFrontCommand :
    (∃ (c : Instr) (rest : List Instr) (s : State), s.pending = c :: rest) ∧
    (∃ (s : State), s.pending = []) :=
  ⟨⟨.warmReset false, [], { up with pending := [.warmReset false] }, by decide +kernel⟩,
  ⟨up, by decide +kernel⟩⟩

theorem test_meets_ResetState :
    (∃ (r : Nat), r ≠ 0) ∧
    (∃ (n : Nat), 1 ≤ n ∧ n ≤ 4094) :=
  ⟨⟨1, by decide +kernel⟩,
  ⟨1, by decide +kernel⟩⟩

theorem test_meets_SoundnessIsKept :
    ∃ (s : State) (t : State), s.Sound ∧ step s = .next t :=
  ⟨{ up with pending := [.warmReset false] }, nextOf { up with pending := [.warmReset false] }, by unfold State.Sound State.Legal State.EventsFit State.Canonical; decide +kernel, step_nextOf _ (by decide +kernel)⟩

theorem test_meets_TimeAndIdentity :
    ∃ (s : State) (t : State), step s = .next t :=
  ⟨up, nextOf up, step_nextOf _ (by decide +kernel)⟩

theorem test_meets_EventPail :
    (∃ (s : State) (code : Nat) (param : Nat), s.fastOn = true ∧ s.obs.pail.length < 4096 ∧ s.obs.lostPending = 0) ∧
    (∃ (s : State) (code : Nat) (param : Nat), s.fastOn = true ∧ 4096 ≤ s.obs.pail.length) ∧
    (∃ (s : State) (code : Nat) (param : Nat), s.fastOn = true ∧ s.obs.pail.length < 4095 ∧ s.obs.lostPending ≠ 0) ∧
    (∃ (s : State) (code : Nat) (param : Nat), s.fastOn = false ∧ s.obs.held.length < 64) ∧
    (∃ (s : State) (code : Nat) (param : Nat), s.fastOn = false ∧ 64 ≤ s.obs.held.length) :=
  ⟨⟨up, 0x2222, 7, by decide +kernel⟩,
  ⟨{ up with obs := { pail := List.replicate 4096 ⟨0, 0, 0, 0, 0, 0⟩ } }, 0x2222, 7, by decide +kernel⟩,
  ⟨{ up with obs := { lostPending := 1 } }, 0x2222, 7, by decide +kernel⟩,
  ⟨onAux, 0x2222, 7, by decide +kernel⟩,
  ⟨{ onAux with obs := { held := List.replicate 64 ⟨0, 0, 0, 0, 0, 0⟩ } }, 0x2222, 7, by decide +kernel⟩⟩

theorem test_meets_FunctionLevelReset :
    ∃ (s : State), s.fastOn = true :=
  ⟨up, by decide +kernel⟩

theorem test_meets_FirmwareWatchdog :
    ∃ (s : State) (bad : List Nat) (swept : List (Nat × CacheFault)), s.fastOn = true ∧ s.pwr.arm ≠ 5 :=
  ⟨up, [], [], by decide +kernel⟩

theorem test_meets_SuppliesArrive :
    (∃ (s : State) (lost : List TwinLoss), s.keeperOn = true ∧ s.mainOn = false ∧ s.pwr.pwrdis = false ∧ s.pwr.arm ≠ 5) ∧
    (∃ (s : State), s.keeperOn = false) ∧
    (∃ (s : State), s.pwr.aux = false) ∧
    (∃ (s : State), s.pwr.arm = 5 ∧ s.pwr.main = false ∧ s.pwr.pwrdis = false) ∧
    (∃ (s : State), s.pwr.arm = 5 ∧ s.pwr.pwrdis = true ∧ s.pwr.main = true ∧ s.pwr.ovp = false) ∧
    (∃ (s : State), s.keeperOn = true ∧ s.fastOn = false ∧ s.pwr.arm ≠ 5 ∧ s.pwr.pwrdis = true ∧ s.pwr.main = true ∧ s.pwr.ovp =
    false) :=
  ⟨⟨onAux, [.criticalLatch], by decide +kernel⟩,
  ⟨{}, by decide +kernel⟩,
  ⟨{}, by decide +kernel⟩,
  ⟨dumping, by decide +kernel⟩,
  ⟨dumping.upPwr (fun p => { p with main := true, pwrdis := true }), by decide +kernel⟩,
  ⟨{ pwr := { aux := true, main := true, pwrdis := true } }, by decide +kernel⟩⟩

theorem test_meets_LostRecordsFallBack :
    (∃ (s : State) (n : Nat), n ≠ 4095) ∧
    (∃ (s : State), s.fastOn = false ∧ s.obs.held.length < 64) ∧
    (∃ (s : State) (id : Nat), (s.keyRec id).st ≠ 0 ∧ s.fastOn = false ∧ s.obs.held.length < 64) :=
  ⟨⟨up, 4094, by decide +kernel⟩,
  ⟨onAux, by decide +kernel⟩,
  ⟨onAux, 0, by decide +kernel⟩⟩

theorem test_meets_PowerLossDumps :
    (∃ (s : State), s.fastOn = true ∧ s.pwr.main = true ∧ s.pwr.arm ∉ [2, 3, 4, 5]) ∧
    (∃ (s : State), s.fastOn = true ∧ s.mainOn = true ∧ s.pwr.arm ∉ [2, 3, 4, 5]) ∧
    (∃ (s : State), s.fastOn = true ∧ s.mainOn = true ∧ s.pwr.arm ∉ [2, 3, 4, 5]) ∧
    (∃ (s : State), s.pwr.arm = 5) ∧
    (∃ (s : State), s.fastOn = true ∧ s.pwr.main = true ∧ s.pwr.arm ∈ [2, 3, 4]) ∧
    (∃ (s : State), s.pwr.main = true ∧ s.pwr.arm = 5) :=
  ⟨⟨up, by decide +kernel⟩,
  ⟨up, by decide +kernel⟩,
  ⟨up, by decide +kernel⟩,
  ⟨dumping, by decide +kernel⟩,
  ⟨up.upPwr (fun p => { p with arm := 3 }), by decide +kernel⟩,
  ⟨dumping.upPwr (fun p => { p with main := true, holdUp := false }), by decide +kernel⟩⟩

theorem test_meets_DumpTakesTheImage :
    (∃ (s : State) (fcBad : List Nat) (dramBad : List Nat), s.pwr.arm = 5 ∧ s.dump.writing = none) ∧
    (∃ (s : State) (i : Image), s.pwr.arm = 5 ∧ s.dump.writing = some i ∧ s.mainOn = false ∧ s.pwr.critZone = none) ∧
    (∃ (s : State) (i : Image), s.pwr.arm = 5 ∧ s.dump.writing = some i ∧ s.pwr.holdUp = true ∧ s.mainOn = false ∧ s.pwr.critZone
    = none ∧ i.sealed = false) ∧
    (∃ (s : State), s.pwr.arm ≠ 5 ∧ s.pwr.holdUp = true ∧ s.pwr.aux = true) :=
  ⟨⟨dumping, [], [], by decide +kernel⟩,
  ⟨dumping.upDump (fun d => { d with writing := some (img false) }), img false, by decide +kernel⟩,
  ⟨dumping.upDump (fun d => { d with writing := some { img false with sealed := false } }), { img false with sealed := false }, by decide +kernel⟩,
  ⟨{ pwr := { aux := true, holdUp := true } }, by decide +kernel⟩⟩

theorem test_meets_FirmwareVerdict :
    (∃ (s : State) (v : FwVerdict) (bad : BitVec 8) (pages : List (Nat × Nat)) (slot : Nat) (second : Bool), s.pwr.boot =
    .verifying slot second ∧ s.fwReason slot v = 0 ∧ ((s.tooHot = false ∨ s.pwr.controllerStart = true))) ∧
    (∃ (s : State) (v : FwVerdict) (bad : BitVec 8) (pages : List (Nat × Nat)) (slot : Nat) (second : Bool), s.pwr.boot =
    .verifying slot second ∧ s.fwReason slot v = 0 ∧ s.tooHot = true ∧ s.pwr.controllerStart = false) ∧
    (∃ (s : State) (v : FwVerdict) (bad : BitVec 8) (pages : List (Nat × Nat)) (slot : Nat), s.pwr.boot = .verifying slot false ∧
    s.fwReason slot v ≠ 0) ∧
    (∃ (s : State) (v : FwVerdict) (bad : BitVec 8) (pages : List (Nat × Nat)) (slot : Nat), s.pwr.boot = .verifying slot true ∧
    s.fwReason slot v ≠ 0) ∧
    (∃ (s : State) (v : FwVerdict) (bad : BitVec 8) (pages : List (Nat × Nat)), ((∀ slot second, s.pwr.boot ≠ .verifying slot
    second))) :=
  ⟨⟨{ onAux with pwr := { onAux.pwr with boot := .verifying 0 false } }, ⟨true, true, true, true⟩, 0, [], 0, false, by decide +kernel⟩,
  ⟨{ onAux with pwr := { onAux.pwr with boot := .verifying 0 true }, therm := { readings := [(0, 35115 + 1)] } }, ⟨true, true, true, true⟩, 0, [], 0, true, by decide +kernel⟩,
  ⟨{ onAux with pwr := { onAux.pwr with boot := .verifying 0 false } }, ⟨true, false, true, true⟩, 0, [], 0, by decide +kernel⟩,
  ⟨{ onAux with pwr := { onAux.pwr with boot := .verifying 1 true } }, ⟨true, true, true, false⟩, 0, [], 1, by decide +kernel⟩,
  ⟨onAux, ⟨true, true, true, true⟩, 0, [], fun _ _ h => by simp [onAux] at h⟩⟩

theorem test_meets_RestoreAfterADump :
    (∃ (s : State) (bad : List Nat) (i : Image), s.fastOn = true ∧ s.pwr.arm = 4 ∧ s.imageToReplay = some i) ∧
    (∃ (s : State), s.pwr.arm = 2 ∧ s.dirtyBytes ≤ s.budgetBytes) ∧
    (∃ (s : State), s.pwr.arm = 2 ∧ s.budgetBytes < s.dirtyBytes) ∧
    (∃ (s : State) (i : Image), s.dump.images.find? (fun x => decide (x.number = i.number) && x.retired) = some i ∧ i.place = 1 ∧
    i.groups.Nodup) ∧
    (∃ (s : State), s.pwr.memoryActive = false ∧ s.readyToServe = true) :=
  ⟨⟨{ up with pwr := { up.pwr with arm := 4, memoryActive := false }, dump := { images := [img false] } }, [3], img false, by decide +kernel⟩,
  ⟨{ up with pwr := { up.pwr with arm := 2 }, dump := { images := [img false] } }, by decide +kernel⟩,
  ⟨{ up with pwr := { up.pwr with arm := 2 }, budget := { charged := [(0, 0)] } }, by decide +kernel⟩,
  ⟨{ up with dump := { images := [img true], busy1 := true } }, img true, by decide +kernel⟩,
  ⟨up.upPwr (fun p => { p with memoryActive := false }), by decide +kernel⟩⟩

theorem test_meets_Resets :
    (∃ (s : State) (perst : Bool), s.pwr.test = 0 ∧ s.fastOn = true ∧ s.pwr.arm ≠ 5 ∧ ((perst = false ∨ s.pwr.aux = true))) ∧
    (∃ (s : State) (perst : Bool), s.pwr.test ≠ 0 ∧ ((perst = false ∨ s.pwr.aux = true))) ∧
    (∃ (s : State), s.pwr.test = 0 ∧ s.pwr.aux = false ∧ s.fastOn = true ∧ s.pwr.arm ∉ [2, 3, 4, 5]) ∧
    (∃ (s : State), s.pwr.test ≠ 0 ∧ s.pwr.aux = false ∧ s.fastOn = true) ∧
    (∃ (s : State), s.fastOn = true) ∧
    (∃ (s : State) (source : Nat) (bad : List Nat) (swept : List (Nat × CacheFault)), 1 ≤ source ∧ source ≤ 8 ∧ s.fastOn = true ∧
    s.pwr.arm ≠ 5) ∧
    (∃ (s : State) (bad : List Nat) (swept : List (Nat × CacheFault)), s.fastOn = true ∧ s.pwr.arm ≠ 5) :=
  ⟨⟨up, true, by decide +kernel⟩,
  ⟨up.upPwr (fun p => { p with test := 2 }), true, by decide +kernel⟩,
  ⟨up.upPwr (fun p => { p with aux := false }), by decide +kernel⟩,
  ⟨up.upPwr (fun p => { p with test := 2, aux := false }), by decide +kernel⟩,
  ⟨up, by decide +kernel⟩,
  ⟨up, 8, [], [], by decide +kernel⟩,
  ⟨up, [], [], by decide +kernel⟩⟩

theorem test_meets_HostLink :
    (∃ (s : State), s.fastOn = true ∧ s.pwr.perst = false ∧ s.pwr.arm ≠ 5) ∧
    (∃ (s : State) (speed : Nat) (offered : Nat) (failed : Nat) (width : Nat), s.fastOn = true ∧ s.pwr.perst = false ∧ s.pwr.arm ≠
    5 ∧ width = min offered (lanesLeft failed) ∧ width ∈ [4, 8, 16] ∧ speed ∈ [5, 6] ∧ ¬ (speed = 6 ∧ width = 16)) ∧
    (∃ (s : State) (speed : Nat) (offered : Nat) (failed : Nat) (width : Nat), s.fastOn = true ∧ s.pwr.perst = false ∧ s.pwr.arm ≠
    5 ∧ width = min offered (lanesLeft failed) ∧ width ∈ [4, 8, 16] ∧ 1 ≤ speed ∧ speed ≤ 4) ∧
    (∃ (s : State) (speed : Nat) (offered : Nat) (failed : Nat), s.fastOn = true ∧ s.pwr.perst = false ∧ s.pwr.arm ≠ 5 ∧ ((min
    offered (lanesLeft failed) ∉ [4, 8, 16] ∨ speed = 0 ∨ 6 < speed)) ∧ s.port.speed = 0) ∧
    (∃ (s : State) (speed : Nat) (offered : Nat) (failed : Nat), s.fastOn = true ∧ s.pwr.perst = false ∧ s.pwr.arm ≠ 5 ∧ ((min
    offered (lanesLeft failed) ∉ [4, 8, 16] ∨ speed = 0 ∨ 6 < speed)) ∧ s.port.speed ≠ 0) ∧
    (∃ (failed : Nat), failed % 16 ≠ 0) ∧
    (∃ (s : State) (speed : Nat) (offered : Nat) (failed : Nat), s.fastOn = true ∧ s.pwr.perst = false ∧ s.pwr.arm ≠ 5 ∧ failed %
    16 = 0 ∧ failed % 256 ≠ 0 ∧ 4 ≤ offered ∧ 1 ≤ speed ∧ speed ≤ 6) ∧
    (∃ (s : State) (speed : Nat) (offered : Nat) (failed : Nat), s.fastOn = true ∧ s.pwr.perst = false ∧ s.pwr.arm ≠ 5 ∧ failed %
    256 = 0 ∧ failed % 65536 ≠ 0 ∧ 8 ≤ offered ∧ 1 ≤ speed ∧ speed ≤ 6) ∧
    (∃ (s : State) (speed : Nat) (offered : Nat) (failed : Nat), (s.pwr.perst = true ∨ s.fastOn = false ∨ s.pwr.arm = 5)) ∧
    (∃ (s : State) (eid : Nat), s.port.attach = 1) ∧
    (∃ (s : State), s.port.bound = true) :=
  ⟨⟨up, by decide +kernel⟩,
  ⟨up, 5, 16, 0, 16, by decide +kernel⟩,
  ⟨up, 1, 4, 0, 4, by decide +kernel⟩,
  ⟨up.upPort (fun p => { p with speed := 0, width := 0, attach := 0 }), 6, 2, 0, by decide +kernel⟩,
  ⟨up, 6, 2, 0, by decide +kernel⟩,
  ⟨8, by decide +kernel⟩,
  ⟨up, 6, 16, 128, by decide +kernel⟩,
  ⟨up, 6, 16, 256, by decide +kernel⟩,
  ⟨onAux, 6, 16, 0, by decide +kernel⟩,
  ⟨up, 9, by decide +kernel⟩,
  ⟨up.upPort (fun p => { p with bound := true, attach := 2 }), by decide +kernel⟩⟩

theorem test_meets_SidebandPins :
    (∃ (s : State), s.pwr.aux = true ∧ s.mainOn = true ∧ s.pwr.perst = false) ∧
    (∃ (s : State), s.pwr.aux = true ∧ s.mainOn = false ∧ s.pwr.holdUp = false ∧ s.fastOn = false) ∧
    (∃ (s : State), s.pwr.aux = true ∧ s.pwr.perst = true ∧ s.pwr.test = 0 ∧ s.fastOn = true ∧ s.pwr.arm ∉ [2, 3, 4, 5]) ∧
    (∃ (s : State) (since : Nat), s.pwr.critLatch = true ∧ s.keeperOn = true ∧ s.mainOn = false ∧ s.pwr.pwrdisAt = none ∧
    s.pwr.mainLostAt = some since) ∧
    (∃ (s : State) (addr : Nat), (s.pwr.aux = true ∨ s.mainOn = true) ∧ s.pwr.smbrst = false) ∧
    (∃ (s : State), (s.pwr.aux = true ∨ s.mainOn = true) ∧ s.pwr.smbrst = false) ∧
    (∃ (s : State) (eid : Nat), (s.pwr.aux = true ∨ s.mainOn = true) ∧ s.pwr.smbrst = false) ∧
    (∃ (s : State) (eid : Nat), s.fastOn = true ∧ s.port.speed ≠ 0) :=
  ⟨⟨up, by decide +kernel⟩,
  ⟨onAux, by decide +kernel⟩,
  ⟨up.upPwr (fun p => { p with perst := true }), by decide +kernel⟩,
  ⟨{ pwr := { aux := true, critLatch := true, mainLostAt := some 7 } }, 7, by decide +kernel⟩,
  ⟨onAux, 9, by decide +kernel⟩,
  ⟨onAux, by decide +kernel⟩,
  ⟨onAux, 9, by decide +kernel⟩,
  ⟨up, 9, by decide +kernel⟩⟩

theorem test_meets_HousekeepingRound :
    (∃ (s : State) (readings : List Nat), s.keeperOn = true ∧ s.therm.rounds ≠ 0) ∧
    (∃ (s : State) (ch : Nat) (x : Nat), isSensor s.ident.variant ch = true ∧ goodReading (Tab.look s.therm.raw ch) x = false ∧
    s.faulted ch = false) ∧
    (∃ (s : State) (ch : Nat) (x : Nat), isSensor s.ident.variant ch = true ∧ goodReading (Tab.look s.therm.raw ch) x = true ∧
    s.faulted ch = false) ∧
    (∃ (s : State) (z : Nat), (zoneSensors s.ident.variant z).any s.faulted = true ∧ s.zoneSteps z < 2) :=
  ⟨⟨up.upTherm (fun t => { t with rounds := 1 }), List.replicate 168 0, by decide +kernel⟩,
  ⟨up, 121, 23314, by decide +kernel⟩,
  ⟨up, 121, 42315, by decide +kernel⟩,
  ⟨up.upTherm (fun t => { t with faults := [(96, 0)], steps := [(96, 1)] }), 96, by decide +kernel⟩⟩

theorem test_meets_ThrottlingAndRails :
    (∃ (s : State) (z : Nat), (zoneSensors s.ident.variant z).any s.faulted = false ∧ s.inStep z 2 = true ∧ 10 ≤ Tab.get 0
    s.therm.below (z * 4 + 2)) ∧
    (∃ (s : State) (z : Nat), (zoneSensors s.ident.variant z).any s.faulted = false ∧ s.inStep z 2 = false ∧ s.inStep z 1 = true ∧
    10 ≤ Tab.get 0 s.therm.below (z * 4 + 1)) ∧
    (∃ (s : State) (z : Nat), (zoneSensors s.ident.variant z).any s.faulted = true) ∧
    (∃ (s : State) (ch : Nat) (n : Nat), Tab.look s.therm.faults ch = some n ∧ 60 ≤ n) ∧
    (∃ (s : State) (ch : Nat) (n : Nat), Tab.look s.therm.faults ch = some n ∧ 60 ≤ n ∧ zoneOf s.ident.variant ch = none) ∧
    (∃ (s : State) (ch : Nat) (n : Nat), Tab.look s.therm.faults ch = some n ∧ n < 60) ∧
    (∃ (s : State) (ch : Nat), 3 ≤ Tab.get 0 s.therm.railBad ch ∧ Tab.get 0 s.therm.railBad ch < 2 ^ 32) ∧
    (∃ (s : State) (ch : Nat), 2 ^ 32 ≤ Tab.get 0 s.therm.railBad ch) :=
  ⟨⟨up.upTherm (fun t => { t with steps := [(0, 3)], below := [(2, 10)] }), 0, by decide +kernel⟩,
  ⟨up.upTherm (fun t => { t with steps := [(0, 1)], below := [(1, 10)] }), 0, by decide +kernel⟩,
  ⟨up.upTherm (fun t => { t with faults := [(0, 0)] }), 0, by decide +kernel⟩,
  ⟨up.upTherm (fun t => { t with faults := [(0, 60)], raw := [(0, 30000)] }), 0, 60, by decide +kernel⟩,
  ⟨up.upTherm (fun t => { t with faults := [(150, 60)], raw := [(150, 30000)] }), 150, 60, by decide +kernel⟩,
  ⟨up.upTherm (fun t => { t with faults := [(0, 59)], raw := [(0, 30000)] }), 0, 59, by decide +kernel⟩,
  ⟨up.upTherm (fun t => { t with railBad := [(128, 3)] }), 128, by decide +kernel⟩,
  ⟨up.upTherm (fun t => { t with railBad := [(128, 2 ^ 32)] }), 128, by decide +kernel⟩⟩

theorem test_meets_CriticalShutdown :
    (∃ (s : State) (ch : Nat) (reading : Nat) (t0 : Nat) (z : Nat), Tab.look s.pwr.rechecks ch = some t0 ∧ zoneOf s.ident.variant
    ch = some z ∧ s.faulted ch = false ∧ s.fastOn = true ∧ centiK (s.zoneLimits z).2.2 ≤ reading ∧ reading ≤ 42315 ∧ s.pwr.arm ∉
    [2, 3, 4, 5] ∧ s.pwr.critZone = none) ∧
    (∃ (s : State) (ch : Nat) (reading : Nat) (t0 : Nat) (z : Nat), Tab.look s.pwr.rechecks ch = some t0 ∧ zoneOf s.ident.variant
    ch = some z ∧ reading < centiK (s.zoneLimits z).2.2) ∧
    (∃ (s : State) (ch : Nat) (reading : Nat) (t0 : Nat) (z : Nat), Tab.look s.pwr.rechecks ch = some t0 ∧ zoneOf s.ident.variant
    ch = some z ∧ s.faulted ch = false ∧ s.fastOn = true ∧ centiK (s.zoneLimits z).2.2 ≤ reading ∧ reading ≤ 42315 ∧ s.pwr.arm =
    5) ∧
    (∃ (s : State) (ch : Nat) (reading : Nat) (t0 : Nat) (z : Nat), Tab.look s.pwr.rechecks ch = some t0 ∧ zoneOf s.ident.variant
    ch = some z ∧ s.faulted ch = false ∧ s.fastOn = true ∧ centiK (s.zoneLimits z).2.2 ≤ reading ∧ reading ≤ 42315 ∧ s.pwr.arm =
    3) :=
  ⟨⟨up.upPwr (fun p => { p with rechecks := [(0, 0)] }), 0, centiK 88, 0, 0, by decide +kernel⟩,
  ⟨up.upPwr (fun p => { p with rechecks := [(0, 0)] }), 0, centiK 88 - 1, 0, 0, by decide +kernel⟩,
  ⟨up.upPwr (fun p => { p with rechecks := [(0, 0)], arm := 5 }), 0, centiK 88, 0, 0, by decide +kernel⟩,
  ⟨up.upPwr (fun p => { p with rechecks := [(0, 0)], arm := 3 }), 0, centiK 88, 0, 0, by decide +kernel⟩⟩

theorem test_meets_HoldUpBank :
    (∃ (s : State), s.bank.charge = 31000 ∧ 10 ≤ s.bank.cool) ∧
    (∃ (s : State) (a : Nat) (b : Nat), s.fastOn = true ∧ s.mainOn = true ∧ s.pwr.arm ≠ 5 ∧ s.bank.measured = false ∧ s.bank.stA =
    0 ∧ s.bank.stB = 0) ∧
    (∃ (s : State) (a : Nat) (b : Nat) (short : Bool), s.fastOn = true ∧ s.mainOn = true ∧ s.pwr.arm ≠ 5 ∧ s.bank.measured = false
    ∧ s.bank.stA = 0 ∧ s.bank.stB = 0) ∧
    (∃ (s : State) (a : Nat) (b : Nat) (short : Bool), s.fastOn = true ∧ s.mainOn = true ∧ s.pwr.arm ≠ 5 ∧ s.bank.measured = false
    ∧ s.bank.stA = 0 ∧ s.bank.stB = 0) ∧
    (∃ (s : State) (a : Nat) (b : Nat) (f : BankFault), s.fastOn = true ∧ s.mainOn = true ∧ s.pwr.arm ≠ 5 ∧ s.bank.measured =
    false ∧ f ∈ [BankFault.pathOpen, .pathShort, .unmeasurable]) :=
  ⟨⟨up.upBank (fun b => { b with charge := 31000, cool := 10 }), by decide +kernel⟩,
  ⟨up, 47500, 40000, by decide +kernel⟩,
  ⟨up, 47500, 40000, true, by decide +kernel⟩,
  ⟨up, 47500, 40000, true, by decide +kernel⟩,
  ⟨up, 47500, 40000, .pathShort, by decide +kernel⟩⟩

theorem test_meets_PowerRegulation :
    (∃ (s : State) (mw : Nat), s.fastOn = true ∧ s.reg.recent = []) ∧
    (∃ (s : State) (mw : Nat), s.fastOn = true ∧ s.reg.recent ≠ []) ∧
    (∃ (s : State), s.fastOn = true ∧ s.overBudget 0 = true ∧ s.port.pacing = false) ∧
    (∃ (s : State), s.fastOn = true ∧ s.overBudget 0 = true ∧ s.port.pacing = true) ∧
    (∃ (s : State), s.fastOn = true ∧ s.overBudget 0 = false ∧ s.overBudget 2000 = false ∧ s.port.pacing = true) ∧
    (∃ (s : State), s.fastOn = true ∧ s.overBudget 0 = false ∧ ((s.port.pacing = false ∨ s.overBudget 2000 = true))) :=
  ⟨⟨up, 20000, by decide +kernel⟩,
  ⟨up.upReg (fun r => { r with recent := [1] }), 20000, by decide +kernel⟩,
  ⟨up.upReg (fun r => { r with baseDraw := 70000 }), by decide +kernel⟩,
  ⟨(up.upReg (fun r => { r with baseDraw := 70000 })).upPort (fun p => { p with pacing := true, pacePct := 10 }), by decide +kernel⟩,
  ⟨up.upPort (fun p => { p with pacing := true, pacePct := 90 }), by decide +kernel⟩,
  ⟨up, by decide +kernel⟩⟩

theorem test_meets_SharesAndLatency :
    (∃ (s : State), s.fastOn = true ∧ s.reg.deliverRead ≠ 0) ∧
    (∃ (s : State) (cls : Nat) (k : Nat) (n : Nat), s.missesOf cls = some (k, n)) ∧
    (∃ (s : State) (cls : Nat) (k : Nat) (n : Nat), s.missesOf cls = some (k, n) ∧ s.entry (0x2300 + cls) 6 = 1 ∧ s.reg.oversub =
    false ∧ s.fastOn = true ∧ s.obs.pail.length < 4096 ∧ s.obs.lostPending = 0) ∧
    (∃ (s : State) (cls : Nat) (k : Nat) (n : Nat), s.missesOf cls = some (k, n) ∧ ((s.entry (0x2300 + cls) 6 ≠ 1 ∨ s.reg.oversub
    = true))) ∧
    (∃ (s : State) (cls : Nat), s.missesOf cls = none) :=
  ⟨⟨up.upReg (fun r => { r with deliverRead := 1 }), by decide +kernel⟩,
  ⟨up.upReg (fun r => { r with missSecond := [(3, 2)] }), 3, 3, 2, by decide +kernel⟩,
  ⟨setv [(0x230306, 1)] (up.upReg (fun r => { r with missSecond := [(3, 2)] })), 3, 3, 2, by decide +kernel⟩,
  ⟨up.upReg (fun r => { r with missSecond := [(3, 2)], oversub := true }), 3, 3, 2, by decide +kernel⟩,
  ⟨up, 3, by decide +kernel⟩⟩

theorem test_meets_GillsPailsAndDram :
    (∃ (s : State) (d : Nat), s.fastOn = true ∧ d < 110) ∧
    (∃ (s : State) (inst : Nat), s.fastOn = true ∧ s.pwr.arm ≠ 5) ∧
    (∃ (s : State) (inst : Nat), s.fastOn = true ∧ s.pwr.arm ≠ 5) ∧
    (∃ (s : State) (inst : Nat), s.fastOn = true ∧ s.pwr.arm ≠ 5) ∧
    (∃ (s : State) (inst : Nat), s.fastOn = true ∧ s.pwr.arm ≠ 5) ∧
    (∃ (s : State) (inst : Nat) (x : Transfer), s.fastOn = true ∧ s.pwr.arm ≠ 5 ∧ Tab.look s.dict.transfers inst = some x) ∧
    (∃ (s : State) (kind : Nat) (inst : Nat), s.fastOn = true ∧ s.pwr.arm ≠ 5 ∧ kind ∈ [2, 5, 6]) ∧
    (∃ (s : State) (sc : Nat) (bank : Nat), s.entry 0x2130 1 ≠ 1 ∧ Tab.get 0 s.dram.openRow (sc * 32 + bank) ≠ 0) ∧
    (∃ (s : State), s.fastOn = true) ∧
    (∃ (s : State), s.fastOn = true ∧ s.dram.retrainMask ≠ 0 ∧ s.reg.granted.any (fun l => decide (l.id = retrainId)) = true ∧
    s.dram.retrainSteps + 1 < 4000) ∧
    (∃ (s : State), s.fastOn = true ∧ s.dram.retrainMask ≠ 0 ∧ s.reg.granted.any (fun l => decide (l.id = retrainId)) = true ∧
    3999 ≤ s.dram.retrainSteps) :=
  ⟨⟨up.upGills (fun g => { g with level := [(109, 4)], spilled := [109] }), 109, by decide +kernel⟩,
  ⟨up, 0, by decide +kernel⟩,
  ⟨{ up with atom := { res := [⟨0, 1, 2, 3⟩] } }, 0, by decide +kernel⟩,
  ⟨up, 0, by decide +kernel⟩,
  ⟨up, 0, by decide +kernel⟩,
  ⟨up.upDict (fun d => { d with transfers := [(0, xfer false [1] 1)] }), 0, xfer false [1] 1, by decide +kernel⟩,
  ⟨up, 6, 0, by decide +kernel⟩,
  ⟨setv [(0x213001, 2)] (up.upDram (fun d => { d with openRow := [(33, 5)] })), 1, 1, by decide +kernel⟩,
  ⟨up, by decide +kernel⟩,
  ⟨(up.upDram (fun d => { d with retrainMask := 5, retrainSteps := 3998 })).upReg (fun r => { r with granted := [⟨retrainId, .retrain, 1, 16, 0⟩] }), by decide +kernel⟩,
  ⟨(up.upDram (fun d => { d with retrainMask := 5, retrainSteps := 3999 })).upReg (fun r => { r with granted := [⟨retrainId, .retrain, 1, 16, 0⟩] }), by decide +kernel⟩⟩

theorem test_meets_NotifyProtocol :
    (∃ (s : State) (c : Nat), s.canNotify = true ∧ (Tab.get ({} : Note) s.obs.notes c).count ≠ 0 ∧ (Tab.get ({} : Note)
    s.obs.notes c).pending = false) ∧
    (∃ (s : State) (c : Nat), s.canNotify = true ∧ (Tab.get ({} : Note) s.obs.notes c).pending = true) ∧
    (∃ (s : State) (c : Nat), s.canNotify = true ∧ (Tab.get ({} : Note) s.obs.notes c).pending = true) ∧
    (∃ (s : State) (c : Nat) (q : Nat), (Tab.get ({} : Note) s.obs.notes c).seq ≠ q) :=
  ⟨⟨{ up with port := { up.port with attach := 2, bound := true }, obs := { notes := [(4, { seq := 255, count := 1 })] } }, 4, by decide +kernel⟩,
  ⟨{ up with port := { up.port with attach := 2, bound := true }, obs := { notes := [(4, { seq := 255, pending := true })] } }, 4, by decide +kernel⟩,
  ⟨{ up with port := { up.port with attach := 2, bound := true }, obs := { notes := [(4, { seq := 255, pending := true })] } }, 4, by decide +kernel⟩,
  ⟨{ up with port := { up.port with attach := 2, bound := true }, obs := { notes := [(4, { seq := 255 })] } }, 4, 0, by decide +kernel⟩⟩

theorem test_meets_CountersAndFirkin :
    (∃ (s : State), s.perf.snapSt = 1) ∧
    (∃ (s : State) (b : Nat) (n : Nat) (a : Nat) (p : Nat), s.blockRuns b = true ∧ bits (Tab.get 0 s.perf.select (b * 8 + n)) 7 0
    ≠ 0 ∧ bits (Tab.get 0 s.perf.select (b * 8 + n)) 17 17 = 0 ∧ Tab.get 0 s.perf.value (b * 8 + n) = 2 ^ 48 - 1) ∧
    (∃ (s : State) (b : Nat) (n : Nat) (a : Nat) (p : Nat), s.blockRuns b = true ∧ bits (Tab.get 0 s.perf.select (b * 8 + n)) 7 0
    ≠ 0 ∧ bits (Tab.get 0 s.perf.select (b * 8 + n)) 17 17 = 1 ∧ Tab.get 0 s.perf.value (b * 8 + n) = 2 ^ 48 - 1 ∧ b < 32) ∧
    (∃ (s : State), s.firkin.running = true ∧ s.firkin.frozen = false) ∧
    (∃ (s : State), s.firkin.running = true ∧ s.firkin.frozen = true) :=
  ⟨⟨up.upPerf (fun p => { p with snapSt := 1 }), by decide +kernel⟩,
  ⟨up.upPerf (fun p => { p with select := [(487, 5)], value := [(487, 2 ^ 48 - 1)] }), 60, 7, 1, 2, by decide +kernel⟩,
  ⟨up.upPerf (fun p => { p with select := [(255, 2 ^ 17 + 5)], value := [(255, 2 ^ 48 - 1)], reload := [(255, 3)] }), 31, 7, 1, 2, by decide +kernel⟩,
  ⟨up.upFirkin (fun f => { f with running := true }), by decide +kernel⟩,
  ⟨up.upFirkin (fun f => { f with running := true, frozen := true, thawAt := 600000000000 }), by decide +kernel⟩⟩

theorem test_meets_RequestsArrive :
    (∃ (s : State) (key : Nat) (addr : Nat) (tag : Nat) (n : Nat) (r : Range), s.accepts = true ∧ s.hasCredit false = true ∧
    s.selectEntry (s.keyOf key) = some n ∧ s.decodeDpa addr = .ordinary r ∧ s.mayRead n r.group = true ∧ s.blocked = false ∧
    s.pailCount (sliceOf addr) < 2048 ∧ s.reqs.list.any (fun q => decide (q.stage = .ingress) && decide (q.slice = sliceOf addr))
    = false) ∧
    (∃ (s : State) (key : Nat) (addr : Nat) (tag : Nat) (n : Nat) (d : Line) (be : Mask) (poison : Bool) (r : Range), s.accepts =
    true ∧ s.hasCredit true = true ∧ s.selectEntry (s.keyOf key) = some n ∧ s.decodeDpa addr = .ordinary r ∧ s.mayWrite n r.group
    = true ∧ s.blocked = false ∧ s.pailCount (sliceOf addr) < 2048 ∧ s.reqs.list.any (fun q => decide (q.stage = .ingress) &&
    decide (q.slice = sliceOf addr)) = false) ∧
    (∃ (s : State) (key : Nat) (addr : Nat) (tag : Nat) (n : Nat) (r : Range), s.accepts = true ∧ s.hasCredit false = true ∧
    s.selectEntry (s.keyOf key) = some n ∧ s.decodeDpa addr = .ordinary r ∧ s.mayRead n r.group = true ∧ s.blocked = false ∧ 2048
    ≤ s.pailCount (sliceOf addr)) ∧
    (∃ (s : State) (key : Nat) (addr : Nat) (tag : Nat) (n : Nat) (d : Line) (be : Mask) (poison : Bool) (r : Range), s.accepts =
    true ∧ s.hasCredit true = true ∧ s.selectEntry (s.keyOf key) = some n ∧ s.decodeDpa addr = .ordinary r ∧ s.mayWrite n r.group
    = true ∧ s.blocked = false ∧ 2048 ≤ s.pailCount (sliceOf addr)) ∧
    (∃ (s : State) (key : Nat) (addr : Nat) (tag : Nat), s.accepts = true ∧ s.hasCredit false = true ∧ s.selectEntry (s.keyOf key)
    = none) ∧
    (∃ (s : State) (key : Nat) (addr : Nat) (tag : Nat) (d : Line) (be : Mask) (poison : Bool), s.accepts = true ∧ s.hasCredit
    true = true ∧ s.selectEntry (s.keyOf key) = none) ∧
    (∃ (s : State) (key : Nat) (addr : Nat) (tag : Nat) (n : Nat) (r : Range), s.accepts = true ∧ s.hasCredit false = true ∧
    s.selectEntry (s.keyOf key) = some n ∧ s.decodeDpa addr = .ordinary r ∧ s.mayRead n r.group = false) ∧
    (∃ (s : State) (key : Nat) (addr : Nat) (tag : Nat) (n : Nat) (d : Line) (be : Mask) (poison : Bool) (r : Range), s.accepts =
    true ∧ s.hasCredit true = true ∧ s.selectEntry (s.keyOf key) = some n ∧ s.decodeDpa addr = .ordinary r ∧ s.mayWrite n r.group
    = false) ∧
    (∃ (s : State) (key : Nat) (addr : Nat) (tag : Nat) (n : Nat) (r : Range), s.accepts = true ∧ s.hasCredit false = true ∧
    s.selectEntry (s.keyOf key) = some n ∧ s.decodeDpa addr = .ordinary r ∧ s.mayRead n r.group = true ∧ s.blocked = true) ∧
    (∃ (s : State) (key : Nat) (addr : Nat) (tag : Nat) (n : Nat) (d : Line) (be : Mask) (poison : Bool) (r : Range), s.accepts =
    true ∧ s.hasCredit true = true ∧ s.selectEntry (s.keyOf key) = some n ∧ s.decodeDpa addr = .ordinary r ∧ s.mayWrite n r.group
    = true ∧ s.blocked = true) ∧
    (∃ (s : State) (key : Nat) (addr : Nat) (tag : Nat), (s.accepts = false ∨ s.hasCredit false = false)) ∧
    (∃ (s : State) (key : Nat) (addr : Nat) (tag : Nat) (d : Line) (be : Mask) (poison : Bool), (s.accepts = false ∨ s.hasCredit
    true = false)) ∧
    (∃ (s : State) (slice : Nat) (r : Req), s.reqs.list.find? (fun q => decide (q.stage = .ingress) && decide (q.slice = slice)) =
    some r ∧ r.kind ∈ [.read, .resRead] ∧ s.pailCount slice < 2048) ∧
    (∃ (s : State) (slice : Nat) (r : Req), s.reqs.list.find? (fun q => decide (q.stage = .ingress) && decide (q.slice = slice)) =
    some r ∧ r.kind ∈ [.write, .condWrite] ∧ s.pailCount slice < 2048) :=
  ⟨⟨up, 0, 0, 5, 0, { size := 2 ^ 47 }, by decide +kernel⟩,
  ⟨up, 0, 2 ^ 47 - 64, 5, 0, 9, 1, true, { size := 2 ^ 47 }, by decide +kernel⟩,
  ⟨{ up with reqs := { next := 2048, list := (List.range 2048).map (fun i => { rq .read .pail with id := i }) } }, 0, 0, 5, 0, { size := 2 ^ 47 }, by decide +kernel⟩,
  ⟨{ up with reqs := { next := 2048, list := (List.range 2048).map (fun i => { rq .read .pail with id := i }) } }, 0, 0, 5, 0, 9, 1, true, { size := 2 ^ 47 }, by decide +kernel⟩,
  ⟨up.upPort (fun p => { p with attach := 2 }), 7, 0, 5, by decide +kernel⟩,
  ⟨up.upPort (fun p => { p with attach := 2 }), 7, 0, 5, 9, 1, false, by decide +kernel⟩,
  ⟨{ up with tabs := { up.tabs with partners := [(0, { valid := true })] } }, 0, 0, 5, 0, { size := 2 ^ 47 }, by decide +kernel⟩,
  ⟨{ up with tabs := { up.tabs with partners := [(0, { valid := true })] } }, 0, 0, 5, 0, 9, 1, false, { size := 2 ^ 47 }, by decide +kernel⟩,
  ⟨(up.upYoke (fun y => { y with member := 5 })), 0, 0, 5, 0, { size := 2 ^ 47 }, by decide +kernel⟩,
  ⟨(up.upYoke (fun y => { y with member := 5 })), 0, 0, 5, 0, 9, 1, false, { size := 2 ^ 47 }, by decide +kernel⟩,
  ⟨{}, 0, 0, 5, by decide +kernel⟩,
  ⟨up.upPort (fun p => { p with creditsData := 0 }), 0, 0, 5, 0, 0, false, by decide +kernel⟩,
  ⟨{ up with reqs := { next := 1, list := [rq .read .ingress] } }, 0, rq .read .ingress, by decide +kernel⟩,
  ⟨{ up with reqs := { next := 1, list := [rq .write .ingress] } }, 0, rq .write .ingress, by decide +kernel⟩⟩

theorem test_meets_ReadsProceed :
    (∃ (s : State) (s1 : State) (k : Nat) (bank : Nat) (row : Nat) (queued : Bool) (r : Req) (x : FcLine), s.fastOn = true ∧
    s.nextReq k = some (r, s1) ∧ r.kind = .read ∧ r.entry ≠ internal ∧ s.staleGrain (grainOf r.line) = false ∧ s.pendingLine
    r.line = false ∧ s.fcLine? r.line = some x ∧ x.st ≠ .merging ∧ s.fc.disabling = false ∧ s.sector? (sectorOf r.line) = none) ∧
    (∃ (s : State) (slice : Nat) (set : Nat) (fault : CacheFault), s.reqs.list.find? (fun r => decide (r.stage = .missSlot) &&
    decide (fcSetKey r.line = slice * 2048 + set)) = none ∧ s.dumping = false) ∧
    (∃ (s : State) (slice : Nat) (r : Req), s.fastOn = true ∧ s.dumping = false ∧ s.missCount slice < 512 ∧ s.reqs.list.find? (fun
    q => decide (q.stage = .missTable) && decide (q.slice = slice)) = some r ∧ r.kind = .read ∧ r.entry ≠ internal ∧ s.fcLine?
    r.line = none ∧ s.pendingLine r.line = false ∧ s.sector? (sectorOf r.line) = none ∧ s.unitResident 1 (segmentOf (grainOf
    r.line)) = true ∧ s.copyAt r.line = none) ∧
    (∃ (s : State) (slice : Nat) (r : Req), s.fastOn = true ∧ s.dumping = false ∧ s.missCount slice < 512 ∧ s.reqs.list.find? (fun
    q => decide (q.stage = .missTable) && decide (q.slice = slice)) = some r ∧ r.kind = .read ∧ s.fcLine? r.line = none ∧
    s.sector? (sectorOf r.line) = none ∧ s.unitResident 1 (segmentOf (grainOf r.line)) = true ∧ (s.copyAt r.line).isSome = true ∧
    s.missOf r.line = none ∧ s.missRoom r.line = true) :=
  ⟨⟨{ up with reqs := { next := 1, list := [rq .read .pail] }, fc := { lines := [(0, fcl .unmodified)] } }, ({ up with reqs := { next := 1, list := [rq .read .pail] }, fc := { lines := [(0, fcl .unmodified)] } } : State).refillTokens, 0, 0, 0, false, rq .read .pail, fcl .unmodified, by decide +kernel⟩,
  ⟨up.upFc (fun c => { c with slots := [(2049, 1)] }), 1, 1, .none, by decide +kernel⟩,
  ⟨{ up with reqs := { next := 1, list := [rq .read .missTable] } }, 0, rq .read .missTable, by decide +kernel⟩,
  ⟨{ up with reqs := { next := 1, list := [rq .read .missTable] }, map := { up.map with entries := [(0, { st := .mapped, page := 0 })] }, media := { pages := [(0, gpage 0 true)], groups := [(0, { st := .closed })] } }, 0, rq .read .missTable, by decide +kernel⟩⟩

theorem test_meets_SleepAndSuspend :
    (∃ (s : State) (k : Nat), s.fastOn = true ∧ s.slices.asleep.contains k = false ∧ s.pailCount k = 0 ∧ s.missCount k = 0) ∧
    (∃ (s : State) (ch : Nat), s.fastOn = true ∧ s.media.asleep.contains ch = false ∧ s.media.ops.any (fun kv => decide (kv.2.die
    % 16 = ch)) = false ∧ s.channelReads ch = 0) ∧
    (∃ (s : State) (pos : Nat) (ch : Nat) (id : Nat) (o : DieOp), s.opOn (pos * 16 + ch) = some (id, o) ∧ s.maySuspend pos ch o =
    true) ∧
    (∃ (s : State) (pos : Nat) (ch : Nat) (id : Nat) (o : DieOp), s.opOn (pos * 16 + ch) = some (id, o) ∧ o.inWindow = true) ∧
    (∃ (s : State) (id : Nat) (m : Miss), s.missById id = some m ∧ m.direct = .deferred ∧ s.inWindow (ppaDie m.ppa) = false ∧
    m.kind = .demand) :=
  ⟨⟨{ up with atom := { res := [⟨31, 1, 2, 3⟩] } }, 31, by decide +kernel⟩,
  ⟨up, 15, by decide +kernel⟩,
  ⟨{ up with media := { ops := [(0, dop 17)] }, slices := { next := 1, misses := [{ miss 1 false with ppa := groupPpa 4096 1 0 }] } }, 1, 1, 0, dop 17, by decide +kernel⟩,
  ⟨{ up with media := { ops := [(0, { dop 17 with inWindow := true })] } }, 1, 1, 0, { dop 17 with inWindow := true }, by decide +kernel⟩,
  ⟨{ up with slices := { misses := [{ miss 1 false with direct := .deferred }] } }, 0, { miss 1 false with direct := .deferred }, by decide +kernel⟩⟩

theorem test_meets_DecodeLadder :
    (∃ (s : State) (u : State) (id : Nat) (c : Nat) (r : Decode) (offs : List Int) (m : Miss), s.missById id = some m ∧ s.takeWord
    m (ppaCh m.ppa) = some u ∧ s.decodable m = true ∧ m.recon = false ∧ m.step = 1 ∧ r ≠ .good) ∧
    (∃ (s : State) (u : State) (id : Nat) (c : Nat) (r : Decode) (offs : List Int) (m : Miss), s.missById id = some m ∧ s.takeWord
    m (ppaCh m.ppa) = some u ∧ s.decodable m = true ∧ m.recon = false ∧ m.step = 2 ∧ r ≠ .good) ∧
    (∃ (s : State) (u : State) (id : Nat) (c : Nat) (offs : List Int) (r : Req) (m : Miss), s.missById id = some m ∧ s.takeWord m
    (ppaCh m.ppa) = some u ∧ s.decodable m = true ∧ s.pendingLine m.line = false ∧ m.step = 1 ∧ c ≤ 24 ∧ m.kind = .demand ∧
    m.stale = false ∧ s.lostAt m.ppa m.slot = false ∧ s.isMerging m.line = false ∧ m.parts = [] ∧ s.reqs.list.filter (fun q =>
    decide (q.line = m.line) && decide (q.stage = .attached)) = [r] ∧ r.kind = .read ∧ r.entry ≠ internal) ∧
    (∃ (s : State) (u : State) (id : Nat) (ch : Nat) (c : Nat) (offs : List Int) (m : Miss) (p : Peer), s.missById id = some m ∧
    s.takeWord m ch = some u ∧ ch ≠ ppaCh m.ppa ∧ m.peers.find? (fun x => decide (x.ch = ch)) = some p ∧ m.readsPeer ch = true ∧
    s.channelServes m ch = true ∧ p.step = 1 ∧ c ≤ 24 ∧ m.peers.any (fun x => decide (x.st = .failed)) = false) ∧
    (∃ (s : State) (id : Nat) (r : Decode) (m : Miss), s.missById id = some m ∧ m.combinable = true ∧ m.step = 3 ∧ r ≠ .good ∧
    s.dieFailed? (ppaDie m.ppa) = false) ∧
    (∃ (s : State) (id : Nat) (r : Decode) (m : Miss), s.missById id = some m ∧ m.combinable = true ∧ m.step = 4 ∧ r ≠ .good ∧
    m.kind = .demand ∧ m.stale = false ∧ s.poisoned m.line = false) ∧
    (∃ (s : State) (id : Nat) (r : Req) (m : Miss), s.missById id = some m ∧ m.combinable = true ∧ s.stripeWhole m.ppa = true ∧
    s.pendingLine m.line = false ∧ m.kind = .demand ∧ m.stale = false ∧ s.lostAt m.ppa m.slot = false ∧ s.isMerging m.line = false
    ∧ m.parts = [] ∧ s.reqs.list.filter (fun q => decide (q.line = m.line) && decide (q.stage = .attached)) = [r] ∧ r.kind = .read
    ∧ r.entry ≠ internal) :=
  ⟨⟨{ up with clk := { now := 100000 }, slices := { next := 1, misses := [miss 1 false] } }, (({ up with clk := { now := 100000 }, slices := { next := 1, misses := [miss 1 false] } } : State).takeWord (miss 1 false) 0).getD up, 0, 0, .crcFail, [], miss 1 false, by decide +kernel⟩,
  ⟨{ up with clk := { now := 100000 }, slices := { next := 1, misses := [miss 2 false] } }, (({ up with clk := { now := 100000 }, slices := { next := 1, misses := [miss 2 false] } } : State).takeWord (miss 2 false) 0).getD up, 0, 0, .noConverge, [], miss 2 false, by decide +kernel⟩,
  ⟨{ up with clk := { now := 100000 }, slices := { next := 1, misses := [miss 1 false] }, reqs := { next := 1, list := [rq .read .attached] }, map := { up.map with entries := [(0, { st := .mapped, page := 0 })] }, media := { pages := [(0, gpage 0 true)], groups := [(0, { st := .closed })] } }, (({ up with clk := { now := 100000 }, slices := { next := 1, misses := [miss 1 false] }, reqs := { next := 1, list := [rq .read .attached] }, map := { up.map with entries := [(0, { st := .mapped, page := 0 })] }, media := { pages := [(0, gpage 0 true)], groups := [(0, { st := .closed })] } } : State).takeWord (miss 1 false) 0).getD up, 0, 24, [], rq .read .attached, miss 1 false, by decide +kernel⟩,
  ⟨{ up with clk := { now := 100000 }, slices := { next := 1, misses := [{ miss 3 true with peers := [peer 1 .reading] }] } }, (({ up with clk := { now := 100000 }, slices := { next := 1, misses := [{ miss 3 true with peers := [peer 1 .reading] }] } } : State).takeWord ({ miss 3 true with peers := [peer 1 .reading] }) 1).getD up, 0, 1, 24, [], { miss 3 true with peers := [peer 1 .reading] }, peer 1 .reading, by decide +kernel⟩,
  ⟨{ up with clk := { now := 100000 }, slices := { next := 1, misses := [{ miss 3 true with peers := [peer 1 .good] }] } }, 0, .noConverge, { miss 3 true with peers := [peer 1 .good] }, by decide +kernel⟩,
  ⟨{ up with clk := { now := 100000 }, slices := { next := 1, misses := [{ miss 4 true with peers := [peer 1 .good] }] } }, 0, .crcFail, { miss 4 true with peers := [peer 1 .good] }, by decide +kernel⟩,
  ⟨{ up with clk := { now := 100000 }, slices := { next := 1, misses := [{ miss 3 true with peers := [peer 1 .good] }] }, reqs := { next := 1, list := [rq .read .attached] }, map := { up.map with entries := [(0, { st := .mapped, page := 0 })] }, media := { pages := [(0, gpage 0 true)], groups := [(0, { st := .opened, shadow := true })] } }, 0, rq .read .attached, { miss 3 true with peers := [peer 1 .good] }, by decide +kernel⟩⟩

theorem test_meets_FillsAndMerges :
    (∃ (s : State) (pf : Nat) (x : Prefetch) (r : Decode), Tab.look s.slices.prefetches pf = some x ∧ s.innerTurn (ppaCh x.ppa) =
    true ∧ r ≠ .good) ∧
    (∃ (s : State) (pf : Nat) (x : Prefetch), Tab.look s.slices.prefetches pf = some x ∧ s.innerTurn (ppaCh x.ppa) = true ∧
    s.sector? x.sector = none ∧ (s.tierRoom x.sector).isSome = true ∧ x.written = false ∧ (List.range 32).any (fun j =>
    s.storedLost (x.sector * 32 + j)) = false) ∧
    (∃ (s : State) (sec : Nat) (m : Miss) (x : Sector), s.fillOf sec = some m ∧ m.ended = .good ∧ m.parts = [] ∧ s.sector? sec =
    some x ∧ (List.range 32).any (fun j => s.storedLost (sec * 32 + j)) = false) ∧
    (∃ (s : State) (line : Nat) (x : FcLine) (d : Line), s.fcLine? line = some x ∧ x.st = .merging ∧ s.tierLine? line = some d) ∧
    (∃ (s : State) (line : Nat) (x : FcLine) (d : Line), s.fcLine? line = some x ∧ x.st = .merging ∧ s.tierLine? line = some d) ∧
    (∃ (s : State) (line : Nat) (dramBad : Bool) (x : FcLine) (m : Miss), s.fcLine? line = some x ∧ x.st = .merging ∧ s.tierLine?
    line = none ∧ s.baseOf line = some m ∧ m.ended = .failed) ∧
    (∃ (s : State) (id : Nat), s.keys.cache.contains id = false ∧ (s.keyRec id).st ≠ 0) ∧
    (∃ (s : State) (unitType : Nat) (unit : Nat), s.map.resident = false ∧ unitType ≠ 1) ∧
    (∃ (s : State) (bit : Nat), s.rstats.bits.getLsbD bit = true ∧ s.rstats.failing.getLsbD bit = false) :=
  ⟨⟨{ up with slices := { prefetches := [(0, ⟨1, 0, false⟩)] }, map := { up.map with entries := [(0, { st := .mapped })] } }, 0, ⟨1, 0, false⟩, .noConverge, by decide +kernel⟩,
  ⟨{ up with slices := { prefetches := [(0, ⟨1, 0, false⟩)] }, map := { up.map with entries := [(0, { st := .mapped })] } }, 0, ⟨1, 0, false⟩, by decide +kernel⟩,
  ⟨{ up with slices := { next := 1, misses := [{ miss 1 false with kind := .fill, ended := .good }] }, tier := { sectors := [(0, { sect with filling := true, present := 0 })] } }, 0, { miss 1 false with kind := .fill, ended := .good }, { sect with filling := true, present := 0 }, by decide +kernel⟩,
  ⟨{ up with fc := { lines := [(0, { fcl .merging with mask := 1 })] }, tier := { sectors := [(0, { sect with data := [(0, 256)] })] } }, 0, { fcl .merging with mask := 1 }, 256, by decide +kernel⟩,
  ⟨{ up with fc := { lines := [(0, { fcl .merging with mask := 1 })] }, tier := { sectors := [(0, { sect with data := [(0, 256)] })] } }, 0, { fcl .merging with mask := 1 }, 256, by decide +kernel⟩,
  ⟨{ up with fc := { lines := [(0, { fcl .merging with mask := 1 })] }, slices := { next := 1, misses := [{ miss 1 false with kind := .merge, ended := .failed }] } }, 0, false, { fcl .merging with mask := 1 }, { miss 1 false with kind := .merge, ended := .failed }, by decide +kernel⟩,
  ⟨{ up with slices := { next := 1, misses := [{ miss 1 false with keyWait := some 0 }] } }, 0, by decide +kernel⟩,
  ⟨up.upMap (fun m => { m with resident := false }), 0, 3, by decide +kernel⟩,
  ⟨{ up with rstats := { bits := 128 } }, 7, by decide +kernel⟩⟩

theorem test_meets_WritesLand :
    (∃ (s : State) (r : Req) (x : FcLine), s.firstHeld = some r ∧ r.kind = .write ∧ r.be = fullMask ∧ r.poison = false ∧ r.entry ≠
    internal ∧ s.inBrine = false ∧ s.yoke.member = 0 ∧ s.pwr.armed = true ∧ s.dumping = false ∧ s.admits r.line = true ∧
    s.policyNow r.policy = 0 ∧ s.fcLine? r.line = some x ∧ s.poisoned r.line = false) ∧
    (∃ (s : State) (r : Req), s.reqs.list.find? (fun q => decide (q.stage = .budget) && !s.budget.heldLogged.contains q.id) = some
    r) ∧
    (∃ (s : State) (slice : Nat) (set : Nat) (w : Nat) (line : Nat) (x : FcLine), s.fastOn = true ∧ s.dumping = false ∧ s.fcWay
    (slice * 2048 + set) = some (w, some line) ∧ s.fcLine? line = some x ∧ x.st = .unmodified) ∧
    (∃ (s : State) (slice : Nat) (set : Nat) (w : Nat) (line : Nat) (x : FcLine) (y : Sector), s.fastOn = true ∧ s.dumping = false
    ∧ s.fcWay (slice * 2048 + set) = some (w, some line) ∧ s.fcLine? line = some x ∧ x.st = .modified ∧ s.sector? (sectorOf line)
    = some y) ∧
    (∃ (s : State) (slice : Nat) (set : Nat) (line : Nat) (x : FcLine) (y : Sector), s.dumping = false ∧ s.waitingLine (slice *
    s.ident.variant.tierSets + set) = some (line, x) ∧ x.st = .modified ∧ s.sector? (sectorOf line) = some y) :=
  ⟨⟨{ up with reqs := { next := 1, list := [rq .write .budget] }, fc := { lines := [(0, fcl .unmodified)] } }, rq .write .budget, fcl .unmodified, by decide +kernel⟩,
  ⟨{ up with reqs := { next := 1, list := [rq .write .budget] }, fc := { lines := [(0, fcl .unmodified)] } }, rq .write .budget, by decide +kernel⟩,
  ⟨{ up with fc := { lines := fullSet .unmodified } }, 0, 0, 0, 0, fcl .unmodified, by decide +kernel⟩,
  ⟨{ up with fc := { lines := fullSet .modified }, tier := { sectors := [(0, sect)] } }, 0, 0, 0, 0, fcl .modified, sect, by decide +kernel⟩,
  ⟨{ up with fc := { lines := [(0, { fcl .modified with waiting := true })] }, tier := { sectors := [(0, sect)] } }, 0, 0, 0, { fcl .modified with waiting := true }, sect, by decide +kernel⟩⟩

theorem test_meets_WritebackAndLeave :
    (∃ (s : State) (s1 : State) (r : State) (s2 : State) (u : State) (reads : List WordRead) (bad : List (Nat × Nat)) (g : Nat)
    (prio : Nat) (ppa : Nat), s.mastersRun = true ∧ s.journalFull = false ∧ s.pwr.arm ≠ 4 ∧
    s.queueAged.pressBlocked.noteLimits.nextWriteback = some (g, prio, s1) ∧ s1.readLines ((s1.dirtyLines g).filter s1.needsBase)
    [] reads = (bad, r) ∧ s2 = (s1.dirtyLines g).foldl (fun t l => t.takeLine bad l) r ∧ s2.writingLines g ≠ [] ∧ s2.appends g
    (s2.writingLines g) = false ∧ s2.place .grain none .writeback = some (ppa, u)) ∧
    (∃ (s : State) (l : Nat) (a : Nat), s.fastOn = true ∧ s.oldestCharge = some (l, a)) ∧
    (∃ (s : State) (l : Leave), s.fastOn = true ∧ s.pwr.arm ≠ 5 ∧ s.reg.waiting = [l] ∧ s.startable l = true ∧ s.grantedQ + l.cost
    ≤ s.pool) ∧
    (∃ (s : State) (l : Leave), s.fastOn = true ∧ ((∀ p ∈ s.media.passes, s.takesPrograms (ppaGroup p.ppa) = true)) ∧
    s.reg.waiting = [l] ∧ s.pool < s.grantedQ + l.cost) ∧
    (∃ (s : State) (pos : Nat) (k : Nat) (o : DieOp), Tab.look s.media.tokens pos = none ∧ Tab.look s.media.ops k = some o ∧
    s.nextToken pos = some k) ∧
    (∃ (s : State) (pos : Nat) (k : Nat) (o : DieOp), Tab.look s.media.tokens pos = some k ∧ Tab.look s.media.ops k = some o) :=
  ⟨⟨wbState, wbNext, wbNext, wbTaken, wbPlaced.2, [], [], 0, 1, wbPlaced.1, by decide +kernel⟩,
  ⟨{ up with budget := { up.budget with charged := [(300, 7)] } }, 300, 7, by decide +kernel⟩,
  ⟨up.upReg (fun r => { r with waiting := [⟨2 ^ 44, .retrain, 1, 16, 0⟩] }), ⟨2 ^ 44, .retrain, 1, 16, 0⟩, by decide +kernel⟩,
  ⟨up.upReg (fun r => { r with waiting := [⟨2 ^ 44, .retrain, 1, 16, 0⟩], baseDraw := 70000 }), ⟨2 ^ 44, .retrain, 1, 16, 0⟩, by decide +kernel⟩,
  ⟨{ up with media := { ops := [(4, dop 17)], tokenQueue := [4] } }, 1, 4, dop 17, by decide +kernel⟩,
  ⟨{ up with media := { ops := [(4, { dop 17 with inWindow := true })], tokens := [(1, 4)] } }, 1, 4, { dop 17 with inWindow := true }, by decide +kernel⟩⟩

theorem test_meets_ProgramsAndResets :
    (∃ (s : State) (id : Nat) (reads : List WordRead) (p : Pass) (o : DieOp), s.media.passes.find? (fun q => decide (q.id = id)) =
    some p ∧ p.started = true ∧ p.programmed = false ∧ s.passShared p = false ∧ Tab.look s.media.ops p.op = some o ∧ o.loaded =
    true ∧ o.inWindow = false ∧ o.serving = [] ∧ s.stripeDone (ppaGroup p.ppa) (ppaPage p.ppa) = false) ∧
    (∃ (s : State) (ppa : Nat) (corrected : Nat) (p : Pass) (pg : Page), s.still = false ∧ corrected ≤ 40 ∧ s.media.passes.find?
    (fun q => decide (q.ppa = ppa) && q.programmed && !(s.still && decide (q.act ≠ .writeback))) = some p ∧ p.ppa = ppa ∧ p.act =
    .writeback ∧ p.src = none ∧ s.page? ppa = some pg ∧ pg.kind = 1 ∧ s.setOf ppa = none ∧ s.isMapped pg.owner = false) ∧
    (∃ (s : State) (g : Nat), (s.grp g).st = .closing ∧ s.still = false ∧ (s.grp g).checked = false ∧ s.media.passes = [] ∧
    s.bareStripes g = [] ∧ s.media.relocQueue = [] ∧ s.validPages g ≠ [] ∧ s.slotGroup g = false ∧ s.floorGroup g = false ∧
    s.deadColumn (g / 4096) = none ∧ (s.grp g).second = false ∧ ((∀ kv ∈ s.media.retiredBlocks, kv.2 ≤ 64))) ∧
    (∃ (s : State) (g : Nat), (s.grp g).st = .resetting ∧ s.still = false ∧ (s.grp g).retireCols = [] ∧ s.slotGroup g = false ∧
    s.floorGroup g = false ∧ s.deadColumn (g / 4096) = none ∧ s.media.relocQueue = [] ∧ s.yoke.sectorGot = [] ∧ ((∀ kv ∈
    s.media.retiredBlocks, kv.2 ≤ 64))) :=
  ⟨⟨{ up with media := { ops := [(7, dop 0)], passes := [⟨0, 0, .writeback, 1, true, false, none, 0, 7⟩], pages := [(0, gpage 4 false)] } }, 0, [], ⟨0, 0, .writeback, 1, true, false, none, 0, 7⟩, dop 0, by decide +kernel⟩,
  ⟨{ up with media := { passes := [⟨0, 0, .writeback, 1, true, true, none, 0, 7⟩], pages := [(0, gpage 4 false)], groups := [(0, { st := .opened })] } }, 0, 40, ⟨0, 0, .writeback, 1, true, true, none, 0, 7⟩, gpage 4 false, by decide +kernel⟩,
  ⟨{ up with media := { groups := [(0, { st := .closing })], pages := [(0, { gpage 0 true with kind := 0 }), (2 ^ 24, gpage 4 true)] }, map := { up.map with entries := [(4, { st := .mapped, page := 2 ^ 24 })] } }, 0, by decide +kernel⟩,
  ⟨{ up with media := { groups := [(0, { st := .resetting })] } }, 0, by decide +kernel⟩⟩

theorem test_meets_RebuildAndLaps :
    (∃ (s : State) (pos : Nat) (ch : Nat) (ls : List Nat), pos < s.ident.variant.positions ∧ Tab.get 0 s.media.dieSt (pos * 16 +
    ch) = 0) ∧
    (∃ (s : State) (pos : Nat) (ch : Nat) (ls : List Nat), Tab.get 0 s.media.dieSt (pos * 16 + ch) ≠ 0) ∧
    (∃ (s : State), s.fastOn = true ∧ s.still = false ∧ s.rebuildPages = [] ∧ s.media.rebuildPhase = 1) ∧
    (∃ (s : State), s.mastersRun = true ∧ s.still = false ∧ s.map.lapRunning = false ∧ s.map.resident = true ∧ s.lapTriggered =
    true) ∧
    (∃ (s : State) (u : State) (ppa : Nat), s.map.lapRunning = true ∧ s.still = false ∧ s.media.passes.any (fun p => decide (p.act
    = .lap)) = false ∧ s.map.lapNext.extents.all (fun e => decide (e.count ≤ e.pages.length)) = true ∧ s.map.lapNext.root = 0 ∧
    s.place .checkpoint none .lap = some (ppa, u)) ∧
    (∃ (s : State), s.lapWritten = true ∧ s.still = false) ∧
    (∃ (s : State), s.fastOn = true ∧ s.pwr.memoryActive = true ∧ s.map.resident = false ∧ s.slices.misses.filter (fun m =>
    m.pageIn) = []) :=
  ⟨⟨up, 47, 15, [], by decide +kernel⟩,
  ⟨{ up with media := { dieSt := [(0, 1)] } }, 0, 0, [], by decide +kernel⟩,
  ⟨{ up with media := { dieSt := [(0, 1)], rebuildPhase := 1 } }, by decide +kernel⟩,
  ⟨lapState, by decide +kernel⟩,
  ⟨rootState, rootPlaced.2, rootPlaced.1, by decide +kernel⟩,
  ⟨up.upMap (fun m => { m with lapRunning := true, lapNext := { lap := 1, root := 1 } }), by decide +kernel⟩,
  ⟨up.upMap (fun m => { m with resident := false }), by decide +kernel⟩⟩

theorem test_meets_CopyStreams :
    (∃ (s : State) (u : State) (g : Nat) (ppa : Nat) (dst : Nat) (p : Page) (q : Pass), s.mastersRun = true ∧ s.still = false ∧
    s.map.resident = true ∧ s.skimLevel.care.skim ∈ [1, 2] ∧ s.skimLevel.logLimits = [] ∧ s.skimLevel.streamCount < 4 ∧
    s.skimLevel.bestVictim s.skimLevel.skimCandidates = some g ∧ (s.grp g).deep = false ∧ s.skimLevel.validPages g = [ppa] ∧
    s.page? ppa = some p ∧ p.kind = 1 ∧ s.skimLevel.movePage ppa .skimming 1 (some g) = some u ∧ u.media.passes.getLast? = some q
    ∧ q.ppa = dst) ∧
    (∃ (s : State) (s1 : State) (u : State) (g : Nat) (ppa : Nat) (dst : Nat) (p : Page) (q : Pass), s.mastersRun = true ∧ s.still
    = false ∧ s.map.resident = true ∧ s.entry 0x2200 11 ≠ 0 ∧ s.reqs.list = [] ∧ s1 = s.elapseTo (s.port.lastHostReq + 100000000)
    ∧ s1.streamCount < 4 ∧ s1.bestVictim (s1.skimCandidates.filter (fun x => decide (s1.validLines x * 100 ≤ s1.entry 0x2200 11 *
    s1.groupCap x))) = some g ∧ (s.grp g).deep = false ∧ s1.validPages g = [ppa] ∧ s.page? ppa = some p ∧ p.kind = 1 ∧ (s1.upCare
    (fun c => { c with skim := if c.skim = 0 then 3 else c.skim })).movePage ppa .skimming 2 (some g) = some u ∧
    u.media.passes.getLast? = some q ∧ q.ppa = dst) ∧
    (∃ (s : State) (u : State) (g : Nat) (ppa : Nat) (dst : Nat) (p : Page) (q : Pass), s.mastersRun = true ∧ s.still = false ∧
    s.map.resident = true ∧ s.streamCount < 4 ∧ ((s.media.groups.filter (fun kg => s.repourDue kg.1 && !s.copying kg.1)).map (fun
    kg => kg.1)).find? (fun x => (s.grp x).deep) = some g ∧ s.validPages g = [ppa] ∧ s.page? ppa = some p ∧ p.kind = 1 ∧
    s.movePage ppa .repour 0 (some g) = some u ∧ u.media.passes.getLast? = some q ∧ q.ppa = dst) ∧
    (∃ (s : State) (v : Nat) (src : Nat) (dst : Nat) (prio : Nat) (a : Act) (pg : Page), s.care.copySets.find? (fun k => decide
    (k.victim = v)) = some ⟨v, a, prio, [(src, dst)], []⟩ ∧ s.still = false ∧ s.journalFull = false ∧ s.setVerified ⟨v, a, prio,
    [(src, dst)], []⟩ = true ∧ s.page? dst = some pg ∧ (s.mapEntry pg.owner).st = .mapped ∧ (s.mapEntry pg.owner).page = src) ∧
    (∃ (s : State) (v : Nat) (src : Nat) (dst : Nat) (prio : Nat) (q : Nat) (a : Act), s.care.copySets.find? (fun k => decide
    (k.victim = v)) = some ⟨v, a, prio, [(src, dst)], []⟩ ∧ s.still = false ∧ s.journalFull = false ∧ s.setVerified ⟨v, a, prio,
    [(src, dst)], []⟩ = true ∧ (s.grp (ppaGroup q)).copy = some v ∧ (s.grp (ppaGroup q)).st = .opened) :=
  ⟨⟨skimState, skimMoved, 0, 0, skimDst, gpage 4 true, skimPass, by decide +kernel⟩,
  ⟨idleState, idleLater, idleMoved, 0, 0, idleDst, gpage 4 true, idlePass, by decide +kernel⟩,
  ⟨pourState, pourMoved, 0, 0, pourDst, gpage 4 true, pourPass, by decide +kernel⟩,
  ⟨{ up with media := { pages := [(0, gpage 4 true), (1, gpage 4 true)] }, map := { up.map with entries := [(4, { st := .mapped, page := 0 })] }, care := { copySets := [⟨0, .skimming, 1, [(0, 1)], []⟩] } }, 0, 0, 1, 1, .skimming, gpage 4 true, by decide +kernel⟩,
  ⟨{ up with media := { pages := [(0, gpage 4 true), (1, gpage 4 true)], groups := [(0, { st := .opened, copy := some 7 })] }, map := { up.map with entries := [(4, { st := .mapped, page := 0 })] }, care := { copySets := [⟨7, .skimming, 1, [(0, 1)], []⟩] } }, 7, 0, 1, 1, 1, .skimming, by decide +kernel⟩⟩

theorem test_meets_CareFinds :
    (∃ (s : State) (pkg : Nat) (cls : Nat) (band : Nat) (c : Cell), Tab.look s.care.cells (cellKey pkg cls band) = some c ∧
    c.gathered ≠ [] ∧ s.entry 0x2210 6 ≠ 0 ∧ s.entry 0x2210 7 ≤ c.gathered.length) ∧
    (∃ (s : State), s.strains = true ∧ s.checks = true ∧ s.lapRead = true) ∧
    (∃ (s : State), s.strains = true ∧ s.checks = true) ∧
    (∃ (s : State) (ppa : Nat) (cw : Nat) (c : Nat), s.mayCheck ppa cw = true ∧ s.scrubs = false ∧ s.dieFailed? (ppaDie ppa) =
    false ∧ c ≤ 24 ∧ c ≤ s.entry 0x2240 3) ∧
    (∃ (s : State), s.care.brineSecond ≠ 0) :=
  ⟨⟨{ up with care := { cells := [(0, { gathered := List.replicate 64 (List.replicate 15 1) })] } }, 0, 0, 0, { gathered := List.replicate 64 (List.replicate 15 1) }, by decide +kernel⟩,
  ⟨strains up, by decide +kernel⟩,
  ⟨strains up, by decide +kernel⟩,
  ⟨strains { up with media := { pages := [(0, gpage 4 true)], groups := [(0, { st := .closed })] }, map := { up.map with entries := [(4, { st := .mapped, page := 0 })] } }, 0, 0, 24, by decide +kernel⟩,
  ⟨{ up with care := { brineSecond := 1 } }, by decide +kernel⟩⟩

theorem test_meets_AtomicsWork :
    (∃ (s : State) (key : Nat) (addr : Nat) (tag : Nat) (n : Nat) (target : Nat) (w : Range) (r : Range) (x : FcLine), s.accepts =
    true ∧ s.hasCredit false = true ∧ s.selectEntry (s.keyOf key) = some n ∧ n ≠ internal ∧ s.decodeDpa addr = .window w target ∧
    s.hasCap n 2 = true ∧ s.mayRead n w.group = true ∧ s.windowTarget w.group target = some r ∧ s.blocked = false ∧ s.pailCount
    (sliceOf target) < 2048 ∧ s.reqs.list.any (fun q => decide (q.stage = .ingress) && decide (q.slice = sliceOf target)) = false
    ∧ ((∀ q ∈ s.reqs.list, q.id ≠ s.reqs.next ∧ q.line ≠ target / 64)) ∧ s.staleGrain (grainOf (target / 64)) = false ∧
    s.pendingLine (target / 64) = false ∧ s.fcLine? (target / 64) = some x ∧ x.st ≠ .merging ∧ s.fc.disabling = false ∧
    (s.atom.res.filter (fun y => decide (y.slice = sliceOf target))).length < 512) ∧
    (∃ (s : State) (key : Nat) (addr : Nat) (tag : Nat) (n : Nat) (target : Nat) (w : Range) (r : Range) (d : Line) (be : Mask) (p
    : Bool), s.accepts = true ∧ s.hasCredit true = true ∧ s.selectEntry (s.keyOf key) = some n ∧ n ≠ internal ∧ s.decodeDpa addr =
    .window w target ∧ s.hasCap n 2 = true ∧ s.mayWrite n w.group = true ∧ s.windowTarget w.group target = some r ∧ s.blocked =
    false ∧ s.pailCount (sliceOf target) < 2048 ∧ s.reqs.list.any (fun q => decide (q.stage = .ingress) && decide (q.slice =
    sliceOf target)) = false ∧ ((∀ q ∈ s.reqs.list, q.id ≠ s.reqs.next ∧ q.line ≠ target / 64)) ∧ s.yoke.member ≠ 3 ∧ ((be = 0 ∨
    s.inBrine = true ∨ s.admits (target / 64) = true)) ∧ s.condOutcome n (target / 64) ≠ 1) ∧
    (∃ (s : State) (key : Nat) (addr : Nat) (tag : Nat) (n : Nat) (target : Nat) (w : Range) (r : Range) (d : Line) (x : FcLine),
    s.accepts = true ∧ s.hasCredit true = true ∧ s.selectEntry (s.keyOf key) = some n ∧ n ≠ internal ∧ s.decodeDpa addr = .window
    w target ∧ s.hasCap n 2 = true ∧ s.mayWrite n w.group = true ∧ s.windowTarget w.group target = some r ∧ s.blocked = false ∧
    s.pailCount (sliceOf target) < 2048 ∧ s.reqs.list.any (fun q => decide (q.stage = .ingress) && decide (q.slice = sliceOf
    target)) = false ∧ ((∀ q ∈ s.reqs.list, q.id ≠ s.reqs.next ∧ q.line ≠ target / 64)) ∧ s.yoke.member = 0 ∧ s.inBrine = false ∧
    s.pwr.armed = true ∧ s.admits (target / 64) = true ∧ s.condOutcome n (target / 64) = 1 ∧ s.policyNow r.policy = 0 ∧ s.fcLine?
    (target / 64) = some x ∧ s.poisoned (target / 64) = false) ∧
    (∃ (s : State) (slice : Nat) (r : Req) (y : Resv), s.reqs.list.find? (fun q => decide (q.stage = .reservation) && decide
    (q.slice = slice)) = some r ∧ r.kind = .resRead ∧ r.entry ≠ internal ∧ s.fastOn = true ∧ s.dumping = false ∧ s.staleGrain
    (grainOf r.line) = false ∧ s.isMerging r.line = false ∧ s.pendingLine r.line = false ∧ s.atom.res.find? (fun q => decide
    (q.slice = slice)) = some y ∧ (s.atom.res.filter (fun q => decide (q.slice = slice))).any (fun q => decide (q.entry =
    r.entry)) = false ∧ 512 ≤ (s.atom.res.filter (fun q => decide (q.slice = slice))).length) ∧
    (∃ (s : State) (key : Nat) (addr : Nat) (tag : Nat) (n : Nat) (target : Nat) (fault : CacheFault) (w : Range), s.accepts =
    true ∧ s.hasCredit false = true ∧ s.selectEntry (s.keyOf key) = some n ∧ s.decodeDpa addr = .window w target ∧ ((s.hasCap n 2
    = false ∨ s.mayRead n w.group = false))) ∧
    (∃ (s : State) (key : Nat) (addr : Nat) (tag : Nat) (n : Nat) (target : Nat) (w : Range) (d : Line) (be : Mask) (p : Bool),
    s.accepts = true ∧ s.hasCredit true = true ∧ s.selectEntry (s.keyOf key) = some n ∧ s.decodeDpa addr = .window w target ∧
    ((s.hasCap n 2 = false ∨ s.mayWrite n w.group = false))) :=
  ⟨⟨{ up with tabs := { ranges := [(0, { size := 2 ^ 46, group := 1 }), (1, { base := 2 ^ 46, size := 2 ^ 30, group := 1, kind := 1 })], partners := [(0, { valid := true, caps := 7, reads := 2, writes := 2 })] }, fc := { lines := [(0, fcl .unmodified)] } }, 0, 2 ^ 46, 5, 0, 0, { base := 2 ^ 46, size := 2 ^ 30, group := 1, kind := 1 }, { size := 2 ^ 46, group := 1 }, fcl .unmodified, by decide +kernel⟩,
  ⟨{ up with tabs := { ranges := [(0, { size := 2 ^ 46, group := 1 }), (1, { base := 2 ^ 46, size := 2 ^ 30, group := 1, kind := 1 })], partners := [(0, { valid := true, caps := 7, reads := 2, writes := 2 })] }, fc := { lines := [(0, fcl .unmodified)] } }, 0, 2 ^ 46, 5, 0, 0, { base := 2 ^ 46, size := 2 ^ 30, group := 1, kind := 1 }, { size := 2 ^ 46, group := 1 }, 9, 1, false, by decide +kernel⟩,
  ⟨{ up with tabs := { ranges := [(0, { size := 2 ^ 46, group := 1 }), (1, { base := 2 ^ 46, size := 2 ^ 30, group := 1, kind := 1 })], partners := [(0, { valid := true, caps := 7, reads := 2, writes := 2 })] }, fc := { lines := [(0, fcl .unmodified)] }, atom := { res := [⟨0, 0, 0, 3⟩] } }, 0, 2 ^ 46, 5, 0, 0, { base := 2 ^ 46, size := 2 ^ 30, group := 1, kind := 1 }, { size := 2 ^ 46, group := 1 }, 9, fcl .unmodified, by decide +kernel⟩,
  ⟨{ up with reqs := { next := 1, list := [{ rq .resRead .reservation with entry := 600 }] }, atom := { res := (List.range 512).map (fun i => ⟨0, i, 64 * 4096 * i, 3⟩) } }, 0, { rq .resRead .reservation with entry := 600 }, ⟨0, 0, 0, 3⟩, by decide +kernel⟩,
  ⟨({ up with tabs := { ranges := [(0, { size := 2 ^ 46, group := 1 }), (1, { base := 2 ^ 46, size := 2 ^ 30, group := 1, kind := 1 })], partners := [(0, { valid := true, caps := 7, reads := 2, writes := 2 })] }, fc := { lines := [(0, fcl .unmodified)] } } : State).upTabs (fun t => { t with partners := [(0, { valid := true, caps := 3, reads := 2, writes := 2 })] }), 0, 2 ^ 46, 5, 0, 0, .fcLine, { base := 2 ^ 46, size := 2 ^ 30, group := 1, kind := 1 }, by decide +kernel⟩,
  ⟨({ up with tabs := { ranges := [(0, { size := 2 ^ 46, group := 1 }), (1, { base := 2 ^ 46, size := 2 ^ 30, group := 1, kind := 1 })], partners := [(0, { valid := true, caps := 7, reads := 2, writes := 2 })] }, fc := { lines := [(0, fcl .unmodified)] } } : State).upTabs (fun t => { t with partners := [(0, { valid := true, caps := 3, reads := 2, writes := 2 })] }), 0, 2 ^ 46, 5, 0, 0, { base := 2 ^ 46, size := 2 ^ 30, group := 1, kind := 1 }, 9, 1, false, by decide +kernel⟩⟩

theorem test_meets_YokeLink :
    (∃ (s : State) (credits : List Nat), s.yokePort = true ∧ s.yoke.member ∉ [0, 1, 4, 5]) ∧
    (∃ (s : State) (speed : Nat) (width : Nat) (credits : List Nat), s.yokePort = true ∧ trainable speed width = true ∧
    s.yoke.member ∈ [0, 1, 4, 5] ∧ credits.getD 2 0 ≠ 0) ∧
    (∃ (s : State) (frame : Bytes) (b : Bytes), s.yokeReady = true ∧ frameGood frame = true ∧ frameField frame 31 20 =
    (s.yoke.rxSeq + 1) % 4096 ∧ b = s.yoke.rxPart ++ (frame.drop 4).take 236 ∧ (readStream b.length b).1.all yokeType = true ∧
    s.yoke.outWait = []) ∧
    (∃ (s : State) (frame : Bytes), (frameGood frame = false ∨ frameField frame 31 20 ≠ (s.yoke.rxSeq + 1) % 4096)) ∧
    (∃ (s : State), s.yokeTrained = true ∧ s.yoke.unacked ≠ []) ∧
    (∃ (s : State), s.yoke.unacked = []) ∧
    (∃ (s : State), s.yokeTrained = true ∧ s.job 0x8006 = none) ∧
    (∃ (s : State), s.keeperOn = true ∧ s.entry 0x4100 5 ≠ 0) ∧
    (∃ (s : State) (m : YokeMsg), m.ty < 256 ∧ m.ty ∉ [1, 2, 6] ∧ s.mayPass m.ty = true) ∧
    (∃ (s : State) (m : YokeMsg), m.ty < 256 ∧ m.ty ∉ [1, 2, 6] ∧ s.mayPass m.ty = false) :=
  ⟨⟨yoked 2, [1, 2, 3], by decide +kernel⟩,
  ⟨yoked 0, 5, 2, [1, 2, 3], by decide +kernel⟩,
  ⟨(yoked 2).upYoke (fun y => { y with rxSeq := 4095, unacked := [⟨1, 0, 0, 0, []⟩, ⟨2, 0, 0, 0, []⟩], rxPart := List.replicate 14 0 ++ [8] }), frameOf 0 1 1 63 ([8, 0] ++ List.replicate 14 0 ++ [9, 0]), List.replicate 14 0 ++ [8] ++ ((frameOf 0 1 1 63 ([8, 0] ++ List.replicate 14 0 ++ [9, 0])).drop 4).take 236, by decide +kernel, frameGood_of_crc _ _ (by decide +kernel), by decide +kernel, rfl, by decide +kernel, by decide +kernel⟩,
  ⟨yoked 2, frameOf 2 0 0 0 [], .inr (by decide +kernel)⟩,
  ⟨(yoked 2).upYoke (fun y => { y with unacked := [⟨1, 0, 0, 0, [7]⟩, ⟨2, 0, 0, 0, []⟩], rxSeq := 9, ackAt := 5 }), by decide +kernel⟩,
  ⟨yoked 2, by decide +kernel⟩,
  ⟨yoked 2, by decide +kernel⟩,
  ⟨setv [(0x410005, 9)] (yoked 2), by decide +kernel⟩,
  ⟨yoked 2, { ty := 0x15, num := 4 }, by decide +kernel⟩,
  ⟨(yoked 2).upYoke (fun y => { y with credits := [] }), { ty := 0x15, num := 4 }, by decide +kernel⟩⟩

theorem test_meets_YokeWrites :
    (∃ (s : State) (m : YokeWrite) (x : FcLine), s.yokeReady = true ∧ s.yoke.member = 2 ∧ s.yoke.held = [] ∧ s.mayPass 3 = true ∧
    m.lineOk = true ∧ m.conditional = false ∧ m.full = true ∧ m.poisoned = false ∧ s.inBrine = false ∧ s.marked (grainOf m.line) =
    false ∧ s.pwr.armed = true ∧ s.admits m.line = true ∧ s.policyNow (s.linePolicy m.line) = 0 ∧ s.fcLine? m.line = some x ∧
    s.poisoned m.line = false) ∧
    (∃ (s : State) (m : YokeWrite) (x : FcLine), s.yokeReady = true ∧ s.yoke.member = 2 ∧ s.yoke.held = [] ∧ s.mayPass 4 = true ∧
    m.lineOk = true ∧ m.full = true ∧ m.poisoned = false ∧ s.inBrine = false ∧ s.forwardOf m.tag = none ∧ s.pwr.armed = true ∧
    s.admits m.line = true ∧ s.policyNow (s.linePolicy m.line) = 0 ∧ s.fcLine? m.line = some x ∧ s.poisoned m.line = false) ∧
    (∃ (s : State) (tag : Nat) (outcome : Nat) (f : Flight) (r : Req) (x : FcLine), s.yokeReady = true ∧ s.yoke.member = 2 ∧
    s.yoke.held = [] ∧ s.mayPass 4 = true ∧ s.forwardOf tag = some f ∧ f.conditional = false ∧ f.mask = fullMask ∧ s.flightReq f =
    some r ∧ r.poison = false ∧ r.entry ≠ internal ∧ s.inBrine = false ∧ s.yoke.clearWait = [] ∧ s.pwr.armed = true ∧ s.admits
    f.line = true ∧ s.policyNow (s.linePolicy f.line) = 0 ∧ s.fcLine? f.line = some x ∧ s.poisoned f.line = false) ∧
    (∃ (s : State) (tag : Nat) (f : Flight) (r : Req), s.yokeReady = true ∧ s.yoke.member = 2 ∧ s.yoke.flights.find? (fun y =>
    !y.isForward && decide (y.tag = tag) && (y.pending || y.mask ≠ 0)) = some f ∧ f.pending = false ∧ s.flightReq f = some r ∧
    r.entry ≠ internal ∧ s.pwr.armed = true) ∧
    (∃ (s : State) (tag : Nat) (f : Flight), s.yokeReady = true ∧ s.yoke.member = 2 ∧ s.yoke.flights.find? (fun y => !y.isForward
    && decide (y.tag = tag) && (y.pending || y.mask ≠ 0)) = some f ∧ f.pending = true ∧ (s.yoke.flights.erase f).any (fun y =>
    y.pending && decide (y.line = f.line)) = false ∧ s.yoke.readWait = []) ∧
    (∃ (s : State) (tag : Nat) (line : Nat) (x : FcLine), s.yokeReady = true ∧ s.yoke.member = 2 ∧ s.pendingLine line = false ∧
    s.staleGrain (grainOf line) = false ∧ s.fcLine? line = some x ∧ x.st ≠ .merging ∧ s.fc.disabling = false ∧ s.sector? (sectorOf
    line) = none ∧ s.mayPass 6 = true ∧ ((∀ q ∈ s.reqs.list, q.id ≠ s.reqs.next ∧ q.line ≠ line))) ∧
    (∃ (s : State) (tag : Nat) (line : Nat), s.yokeReady = true ∧ s.yoke.member = 2 ∧ s.pendingLine line = true) ∧
    (∃ (s : State) (tag : Nat) (line : Nat) (d : Line) (p : Bool) (ok : Bool) (f : Flight) (r : Req), s.yokeReady = true ∧
    s.yoke.member = 7 ∧ s.yoke.flights.find? (fun y => !y.isForward && !y.pending && decide (y.tag = tag) && decide (y.line =
    line) && decide (y.mask = 0)) = some f ∧ s.flightReq f = some r ∧ r.stage = .forwarded ∧ r.kind = .read ∧ r.entry ≠ internal) ∧
    (∃ (s : State) (g : Nat) (st : Nat), s.yokeReady = true ∧ s.yoke.member = 2 ∧ s.yoke.held = [] ∧ s.mayPass 0x15 = true ∧ st ∈
    [0, 2, 3]) ∧
    (∃ (s : State) (g : Nat) (key : Nat) (j : Job), s.yokeReady = true ∧ s.yoke.member = 2 ∧ s.yoke.held = [] ∧ s.cmds.jobs.find?
    (fun kj => kj.2.acks.contains g && !kj.2.held) = some (key, j) ∧ key ∉ eraseJobs ∧ j.st ∈ [0, 2, 3]) :=
  ⟨⟨{ yoked 2 with fc := { lines := [(0, fcl .unmodified)] } }, ⟨3, 0, 9, fullMask, true, false, false, 0, 0, true⟩, fcl .unmodified, by decide +kernel⟩,
  ⟨{ yoked 2 with fc := { lines := [(0, fcl .unmodified)] } }, ⟨3, 0, 9, fullMask, true, false, false, 0, 0, true⟩, fcl .unmodified, by decide +kernel⟩,
  ⟨{ yoked 2 with yoke := { (yoked 2).yoke with flights := [⟨3, 0, some 0, true, false, 9, fullMask, false, none⟩] }, reqs := { next := 1, list := [rq .write .peer] }, fc := { lines := [(0, fcl .unmodified)] } }, 3, 1, ⟨3, 0, some 0, true, false, 9, fullMask, false, none⟩, rq .write .peer, fcl .unmodified, by decide +kernel⟩,
  ⟨{ yoked 2 with yoke := { (yoked 2).yoke with flights := [⟨3, 0, some 0, false, false, 9, fullMask, false, none⟩] }, reqs := { next := 1, list := [rq .write .peer] } }, 3, ⟨3, 0, some 0, false, false, 9, fullMask, false, none⟩, rq .write .peer, by decide +kernel⟩,
  ⟨{ yoked 2 with yoke := { (yoked 2).yoke with flights := [⟨3, 0, none, false, true, 9, fullMask, false, none⟩] }, reqs := { next := 1, list := [rq .read .line] } }, 3, ⟨3, 0, none, false, true, 9, fullMask, false, none⟩, by decide +kernel⟩,
  ⟨{ yoked 2 with fc := { lines := [(0, { fcl .modified with data := 9 })] } }, 3, 0, { fcl .modified with data := 9 }, by decide +kernel⟩,
  ⟨(yoked 2).upYoke (fun y => { y with flights := [⟨3, 0, none, false, true, 9, fullMask, false, none⟩] }), 3, 0, by decide +kernel⟩,
  ⟨{ yoked 7 with yoke := { (yoked 7).yoke with flights := [⟨3, 0, some 0, false, false, 0, 0, false, none⟩] }, reqs := { next := 1, list := [rq .read .forwarded] } }, 3, 0, 9, true, false, ⟨3, 0, some 0, false, false, 0, 0, false, none⟩, rq .read .forwarded, by decide +kernel⟩,
  ⟨{ yoked 2 with map := { up.map with entries := [(4, { st := .mapped, page := 0 })] } }, 4, 3, by decide +kernel⟩,
  ⟨jobs [(0x9000, { acks := [4], st := 3 })] [(0x9000, 1)] (yoked 2), 4, 0x9000, { acks := [4], st := 3 }, by decide +kernel⟩⟩

theorem test_meets_YokeResync :
    (∃ (s : State) (g : Nat) (reads : List WordRead), s.yokeTrained = true ∧ s.yoke.member = 6 ∧ s.nextResync = some g ∧
    s.isMapped g = false ∧ s.dirtyLines g = [] ∧ s.loggedLines g = [] ∧ s.mayPass 7 = true) ∧
    (∃ (s : State) (u : State) (r : State) (g : Nat) (reads : List WordRead) (bad : List (Nat × Nat)), s.yokeTrained = true ∧
    s.yoke.member = 6 ∧ s.nextResync = some g ∧ s.isMapped g = true ∧ s.mayPass 7 = true ∧ 8 ≤ Tab.get 0 s.yoke.credits 1 ∧ u =
    (if s.entry 0x4100 6 = 0 then s else s.elapseTo (s.yoke.resyncAt + (16384000 + s.entry 0x4100 6 - 1) / s.entry 0x4100 6)) ∧
    u.readLines (u.unheld ((List.range 256).map (fun j => g * 256 + j))) [] reads = (bad, r)) ∧
    (∃ (s : State) (g : Nat) (sector : Nat) (st : Nat) (data : List Line) (bad : BitVec 32) (crcBad : BitVec 32), s.yokeReady =
    true ∧ s.yoke.member = 7 ∧ s.marked g = true ∧ st ≠ 1 ∧ s.mayPass 8 = true) ∧
    (∃ (s : State) (g : Nat) (sector : Nat) (data : List Line) (bad : BitVec 32) (crcBad : BitVec 32), s.yokeReady = true ∧
    s.yoke.member = 7 ∧ s.marked g = true ∧ s.yoke.sectorGot = [] ∧ Tab.look s.yoke.sectors g = none ∧ sector < 8) ∧
    (∃ (s : State) (g : Nat), s.yokeReady = true ∧ s.yoke.member = 6 ∧ s.yoke.resyncSent.contains g = true ∧ (s.unmark
    g).divergentCount ≠ 0 ∧ s.mayPass 9 = true) ∧
    (∃ (s : State) (g : Nat) (p : Membership), s.yokeReady = true ∧ s.yoke.member = 6 ∧ s.yoke.resyncSent.contains g = true ∧
    (s.unmark g).divergentCount = 0 ∧ s.yoke.peer = some p) ∧
    (∃ (s : State) (g : Nat), s.yokeReady = true ∧ s.yoke.member = 7 ∧ s.yoke.flights.any (fun f => f.isForward && decide (grainOf
    f.line = g)) = false ∧ (s.unmark g).divergentCount ≠ 0) ∧
    (∃ (s : State) (unit : Nat) (set : List Nat), s.yokeReady = true ∧ s.yoke.member = 6) :=
  ⟨⟨{ yoked 6 with map := { up.map with div := [(4, true)] } }, 4, [], by decide +kernel⟩,
  ⟨syncState, syncLater, syncRead, 4, [], [], by decide +kernel⟩,
  ⟨{ yoked 7 with map := { up.map with div := [(4, true)] } }, 4, 0, 2, [], 0, 0, by decide +kernel⟩,
  ⟨{ yoked 7 with map := { up.map with div := [(4, true)] } }, 4, 7, [9], 1, 2, by decide +kernel⟩,
  ⟨({ yoked 6 with map := { up.map with div := [(4, true), (5, true)] } } : State).upYoke (fun y => { y with resyncSent := [4] }), 4, by decide +kernel⟩,
  ⟨({ yoked 6 with map := { up.map with div := [(4, true)] } } : State).upYoke (fun y => { y with resyncSent := [4], peer := some mate }), 4, mate, by decide +kernel⟩,
  ⟨{ yoked 7 with map := { up.map with div := [(4, true), (5, true)] } }, 4, by decide +kernel⟩,
  ⟨yoked 6, 0, [0, 10239], by decide +kernel⟩⟩

theorem test_meets_YokeMembership :
    (∃ (s : State) (m : Membership), s.yokeReady = true ∧ s.yoke.member = 2) ∧
    (∃ (s : State) (m : Membership) (p : Membership), s.yokeTrained = true ∧ s.dict.waiting = [] ∧ s.yoke.member = 3 ∧ s.yoke.prev
    ∈ [2, 6] ∧ s.yoke.peer = some p ∧ m.pairEpoch = p.pairEpoch ∧ m.baseEpoch = p.baseEpoch ∧ m.state ∈ [2, 3, 6, 7] ∧ s.yoke.held
    = [] ∧ s.cmds.jobs.any (fun kj => kj.2.held) = false ∧ ((s.yoke.prev = 2 ∨ m.state ≠ 2 ∨ s.divergentCount ≠ 0))) ∧
    (∃ (s : State) (m : Membership) (x : HelloInfo), s.yokeReady = true ∧ s.yoke.member ∈ [0, 1, 4, 5] ∧ 1 < s.joinReason m x) ∧
    (∃ (s : State) (m : Membership) (x : HelloInfo), s.yokeReady = true ∧ s.yoke.member ∈ [0, 1, 5] ∧ s.joinReason m x = 0 ∧
    s.yoke.prevailGiven = false ∧ x.prevailGiven = false ∧ s.yoke.record.lastRole ≠ 1 ∧ m.lastRole ≠ 1 ∧ s.strange m x = false ∧
    s.yoke.record.staleSelf = false ∧ m.staleSelf = false ∧ s.divergentCount = 0 ∧ x.divergentCount = 0 ∧ m.brine = false ∧
    m.state ≠ 2) ∧
    (∃ (s : State) (m : Membership), s.yokeReady = true ∧ s.yoke.member ∈ [2, 6] ∧ s.dict.pair = none) ∧
    (∃ (s : State), s.yoke.member ∈ [2, 3, 6, 7] ∧ s.dict.pair = none ∧ s.dict.waiting = []) ∧
    (∃ (s : State), s.yoke.member ∈ [2, 3, 6, 7] ∧ s.dict.pair = none ∧ s.dict.waiting = []) ∧
    (∃ (s : State) (cause : StandDownCause), s.yoke.member ∈ [2, 3, 4, 6, 7] ∧ s.dict.pair = none ∧ s.dict.waiting = [] ∧ cause ≠
    .fence ∧ cause ≠ .withdraw) ∧
    (∃ (s : State), s.yoke.silent = false ∧ s.yoke.member = 2 ∧ s.dict.pair = none ∧ s.dict.waiting = []) ∧
    (∃ (s : State) (serving : Bool), s.keeperOn = true ∧ (s.yoke.wire ≠ 0 ∨ s.yokeUp = false)) ∧
    (∃ (s : State) (m : Membership), s.keeperOn = true ∧ s.entry 0x4100 5 ≠ 0) ∧
    (∃ (s : State), s.yoke.wire ≠ 0) ∧
    (∃ (s : State), s.yoke.route ≠ 0) ∧
    (∃ (s : State), s.yoke.member = 3 ∧ s.yoke.prev ≠ 7 ∧ s.peerSeen = 2 ∧ s.dict.pair = none) ∧
    (∃ (s : State), s.yoke.member = 3 ∧ s.yoke.prev = 7 ∧ s.dict.pair = none) ∧
    (∃ (s : State), s.yoke.member = 3 ∧ s.yoke.prev = 6 ∧ s.peerSeen = 1 ∧ s.dict.pair = none) ∧
    (∃ (s : State), s.yoke.member = 3 ∧ s.yoke.prev ≠ 7 ∧ s.peerSeen = 0 ∧ s.yoke.silent = true ∧ s.dict.pair = none) :=
  ⟨⟨yoked 2, mate, by decide +kernel⟩,
  ⟨(yoked 3).upYoke (fun y => { y with prev := 6, peer := some mate }), { mate with state := 7 }, mate, by decide +kernel⟩,
  ⟨yoked 0, { mate with deviceId := 0x5A80, compat := 0, pairId := 5 }, mateHello, by decide +kernel⟩,
  ⟨(yoked 1).upYoke (fun y => { y with record := { peerSerial := 1 } }), { mate with compat := (yoked 1).compat }, mateHello, by decide +kernel⟩,
  ⟨yoked 6, mate, by decide +kernel⟩,
  ⟨yoked 7, by decide +kernel⟩,
  ⟨yoked 3, by decide +kernel⟩,
  ⟨yoked 4, .controllerReset, by decide +kernel⟩,
  ⟨yoked 2, by decide +kernel⟩,
  ⟨up, true, by decide +kernel⟩,
  ⟨setv [(0x410005, 9)] (yoked 2), mate, by decide +kernel⟩,
  ⟨(yoked 2).upYoke (fun y => { y with wire := 1 }), by decide +kernel⟩,
  ⟨(yoked 2).upYoke (fun y => { y with route := 1 }), by decide +kernel⟩,
  ⟨(yoked 3).upYoke (fun y => { y with prev := 2, wire := 2 }), by decide +kernel⟩,
  ⟨(yoked 3).upYoke (fun y => { y with prev := 7 }), by decide +kernel⟩,
  ⟨(yoked 3).upYoke (fun y => { y with prev := 6, wire := 1 }), by decide +kernel⟩,
  ⟨(yoked 3).upYoke (fun y => { y with prev := 2, silent := true }), by decide +kernel⟩⟩

theorem test_meets_YokeCommits :
    (∃ (s : State) (batch : Nat) (recs : List StageRec), s.yokeReady = true ∧ s.dict.theirs = none) ∧
    (∃ (s : State) (batch : Nat) (recs : List StageRec), s.yokeReady = true ∧ s.dict.theirs = none ∧ servingSt s.yoke.member =
    true ∧ s.validate recs = none ∧ s.mayPass 0x10 = true) ∧
    (∃ (s : State) (p : PairCommit), s.yokeReady = true ∧ s.dict.pair = some p ∧ p.applied = false ∧ s.mayPass 0x11 = true) ∧
    (∃ (s : State) (p : PairCommit), s.yokeReady = true ∧ s.dict.theirs = some p ∧ s.mayPass 0x12 = true) ∧
    (∃ (s : State) (p : PairCommit), s.yokeReady = true ∧ s.dict.pair = some p ∧ p.applied = true ∧ s.dict.commitWait = []) ∧
    (∃ (s : State) (keyId : Nat) (base : Nat) (len : Nat), s.yokeReady = true ∧ s.paired = true) ∧
    (∃ (s : State) (code : Nat) (keyId : Nat) (base : Nat) (len : Nat) (j : Job), s.yokeReady = true ∧ s.paired = true ∧ 0x8002 ≤
    code ∧ code ≤ 0x8005 ∧ s.job (noticeJob code) = some j ∧ j.notice = true) ∧
    (∃ (s : State) (code : Nat) (keyId : Nat) (base : Nat) (len : Nat), s.yokeReady = true ∧ s.paired = true ∧ ¬ (1 ≤ code ∧ code
    ≤ 6) ∧ ¬ (0x8002 ≤ code ∧ code ≤ 0x8006)) :=
  ⟨⟨yoked 2, 7, [⟨0x2000, 1, natLe 4 50000⟩], by decide +kernel⟩,
  ⟨yoked 2, 7, [⟨0x2300, 1, natLe 4 5⟩], by decide +kernel⟩,
  ⟨(yoked 2).upDict (fun d => { d with pair := some { role := .operator, route := .field, tid := 0, spec := 2, batch := 7, recs := [⟨0x2300, 1, natLe 4 5⟩] } }), { role := .operator, route := .field, tid := 0, spec := 2, batch := 7, recs := [⟨0x2300, 1, natLe 4 5⟩] }, by decide +kernel⟩,
  ⟨(yoked 2).upDict (fun d => { d with theirs := some { role := .operator, route := .field, tid := 0, spec := 2, batch := 7, recs := [⟨0x2300, 1, natLe 4 5⟩] } }), { role := .operator, route := .field, tid := 0, spec := 2, batch := 7, recs := [⟨0x2300, 1, natLe 4 5⟩] }, by decide +kernel⟩,
  ⟨(yoked 2).upDict (fun d => { d with pair := some { role := .operator, route := .field, tid := 0, spec := 2, batch := 7, applied := true, recs := [⟨0x2300, 1, natLe 4 5⟩] } }), { role := .operator, route := .field, tid := 0, spec := 2, batch := 7, applied := true, recs := [⟨0x2300, 1, natLe 4 5⟩] }, by decide +kernel⟩,
  ⟨yoked 2, 0, 0, 0, by decide +kernel⟩,
  ⟨jobs [(noticeJob 0x8005, { notice := true })] [] (yoked 2), 0x8005, 0, 0, 0, { notice := true }, by decide +kernel⟩,
  ⟨yoked 2, 0x8001, 0, 0, 0, by decide +kernel⟩⟩

theorem test_meets_MailboxReads :
    (∃ (s : State) (w : Who) (log : Nat), s.mayCommand w 0x0100 = true ∧ log ≤ 3) ∧
    (∃ (s : State) (w : Who), s.mayCommand w 0x0102 = true) ∧
    (∃ (s : State) (w : Who), s.mayCommand w 0x0200 = true) ∧
    (∃ (s : State) (w : Who), s.mayCommand w 0x0300 = true) ∧
    (∃ (s : State) (w : Who), s.mayCommand w 0x0400 = true) ∧
    (∃ (s : State) (w : Who), s.mayCommand w 0x0401 = true) ∧
    (∃ (s : State) (w : Who), s.mayCommand w 0x4000 = true) ∧
    (∃ (s : State) (w : Who), s.mayCommand w 0x4100 = true) ∧
    (∃ (s : State) (w : Who), s.mayCommand w 0x4200 = true) ∧
    (∃ (s : State) (w : Who), s.mayCommand w 0x4201 = true) ∧
    (∃ (s : State) (w : Who), s.mayCommand w 0x4203 = true) ∧
    (∃ (s : State) (w : Who) (base : Nat) (len : Nat), s.mayCommand w 0x4300 (input := natLe 8 base ++ natLe 8 (len / 64)) = true) ∧
    (∃ (s : State) (w : Who) (base : Nat) (len : Nat), s.mayCommand w 0x4303 = true ∧ len ≠ 0 ∧ s.spanOk 16384 base len = true) ∧
    (∃ (s : State) (w : Who), s.mayCommand w 0x4305 = true) ∧
    (∃ (s : State) (w : Who) (log : Nat), s.mayCommand w 0x0100 = true ∧ 3 < log) ∧
    (∃ (s : State) (w : Who) (log : Nat), s.mayCommand w 0x0401 = true ∧ log ≠ 0) ∧
    (∃ (s : State) (w : Who) (base : Nat) (len : Nat), s.mayCommand w 0x4303 = true ∧ (len = 0 ∨ s.spanOk 16384 base len = false)) :=
  ⟨⟨up, host, 3, by decide +kernel⟩,
  ⟨up, host, by decide +kernel⟩,
  ⟨up, host, by decide +kernel⟩,
  ⟨up, host, by decide +kernel⟩,
  ⟨up, host, by decide +kernel⟩,
  ⟨up, host, by decide +kernel⟩,
  ⟨up, host, by decide +kernel⟩,
  ⟨up, host, by decide +kernel⟩,
  ⟨up, host, by decide +kernel⟩,
  ⟨up, host, by decide +kernel⟩,
  ⟨up, host, by decide +kernel⟩,
  ⟨up, host, 0, 2 ^ 47, by decide +kernel⟩,
  ⟨up, host, 0, 16384, by decide +kernel⟩,
  ⟨up, host, by decide +kernel⟩,
  ⟨up, host, 4, by decide +kernel⟩,
  ⟨up, host, 1, by decide +kernel⟩,
  ⟨up, host, 0, 0, by decide +kernel⟩⟩

theorem test_meets_MailboxWrites :
    (∃ (s : State) (w : Who) (log : Nat) (handles : List Nat), s.mayCommand w 0x0101 = true ∧ log ≤ 3) ∧
    (∃ (s : State) (w : Who) (log : Nat) (handles : List Nat), s.mayCommand w 0x0101 = true ∧ log ≤ 3 ∧ ((∀ h ∈ handles, ∃ r ∈
    (Tab.get ({} : CxlLog) s.obs.logs log).recs, r.handle = h)) ∧ handles ≠ []) ∧
    (∃ (s : State) (w : Who) (enables : BitVec 4), s.mayCommand w 0x0103 = true) ∧
    (∃ (s : State) (w : Who) (off : Nat) (data : Bytes), s.mayCommand w 0x0201 = true ∧ data ≠ [] ∧ off % 4096 = 0 ∧ off < 8388608
    ∧ off + data.length ≤ 8388608 ∧ s.fw.ctl ≠ 1 ∧ s.fw.begun = true) ∧
    (∃ (s : State) (w : Who), s.mayCommand w 0x0202 = true ∧ s.fw.ctl ≠ 1 ∧ s.fw.passed = true ∧ s.pwr.boot ≠ .recovery) ∧
    (∃ (s : State) (w : Who) (v : Nat), s.mayCommand w 0x0301 = true ∧ v < 2 ^ 64) ∧
    (∃ (s : State) (w : Who) (life : Nat) (temp : Nat) (vol : Nat) (per : Nat), s.mayCommand w 0x4202 = true) ∧
    (∃ (s : State) (w : Who) (st : Nat), s.mayCommand w 0x4204 = true) ∧
    (∃ (s : State) (w : Who) (addr : Nat) (d : Line) (r : Range), s.mayCommand w 0x4302 (input := natLe 8 addr ++ natLe 64
    d.toNat) = true ∧ s.accepts = true ∧ s.blocked = false ∧ s.decodeDpa addr = .ordinary r ∧ addr % 64 = 0 ∧ ((∀ n, s.whoEntry w
    = some n → s.mayWrite n r.group = true))) :=
  ⟨⟨up, host, 3, [], by decide +kernel⟩,
  ⟨{ up with obs := { logs := [(3, { recs := [⟨0, 1, 2, none, 0, 3, 4⟩] })] } }, host, 3, [4], by decide +kernel⟩,
  ⟨up, host, 15, by decide +kernel⟩,
  ⟨up.upFw (fun f => { f with begun := true, passed := true }), host, 4096, [1, 2], by decide +kernel⟩,
  ⟨up.upFw (fun f => { f with begun := true, passed := true }), host, by decide +kernel⟩,
  ⟨up, host, 2 ^ 64 - 1, by decide +kernel⟩,
  ⟨up, host, 1, 2, 3, 4, by decide +kernel⟩,
  ⟨up, host, 1, by decide +kernel⟩,
  ⟨up, host, 64, 9, { size := 2 ^ 47 }, by decide +kernel⟩⟩

theorem test_meets_MailboxBackground :
    (∃ (s : State) (w : Who) (base : Nat) (len : Nat) (flags : Nat), s.mayCommand w 0x4304 = true ∧ len ≠ 0 ∧ s.spanOk 16384 base
    len = true ∧ s.mbox.background = 0 ∧ s.ctl 0x9020 ≠ 1) ∧
    (∃ (s : State) (w : Who), s.mayCommand w 0x4400 = true ∧ s.mbox.background = 0) ∧
    (∃ (s : State) (w : Who), s.mayCommand w 0x4401 = true ∧ s.mbox.background = 0) ∧
    (∃ (s : State), s.mbox.background = 0x4304 ∧ s.ctl 0x9020 ≠ 1) ∧
    (∃ (s : State) (j : Job), s.mbox.background = 0x4400 ∧ s.mbox.bgPeer = false ∧ s.job 0x4400 = some j ∧ s.erasedAll j = true) ∧
    (∃ (s : State) (w : Who) (p : Bytes) (v : Bytes), s.mayCommand w 0xC000 (input := p) = true ∧ s.takesDtp w = true ∧ p.length =
    8 ∧ field p 0 1 = 1 ∧ field p 6 2 = 0 ∧ (s.asked w).readOf w (field p 4 2) (field p 3 1) true = .ok v ∧ field p 4 2 ∉ [0x7100,
    0x7101] ∧ s.dict.out = []) ∧
    (∃ (s : State) (w : Who), s.mayCommand w 0xC000 = true) ∧
    (∃ (s : State) (w : Who) (p : Bytes), s.mayCommand w 0xC000 (input := p) = true ∧ p ≠ [] ∧
    (s.ident.variant.portCaps.mailboxPayload < p.length ∨ p.length < 8)) ∧
    (∃ (s : State) (p : Bytes) (v : Bytes), s.yokeReady = true ∧ s.takesDtp { route := .yoke, key := 0 } = true ∧ p.length = 8 ∧
    field p 0 1 = 1 ∧ field p 6 2 = 0 ∧ (s.heard.asked { route := .yoke, key := 0 }).readOf { route := .yoke, key := 0 } (field p
    4 2) (field p 3 1) true = .ok v ∧ field p 4 2 ∉ [0x7100, 0x7101] ∧ s.dict.out = [] ∧ s.mayPass 0x0E = true) ∧
    (∃ (s : State) (w : Who) (op : Nat), s.mboxReached w.route = true ∧ (w.route ≠ .page ∨ s.whoEntry w ≠ none) ∧ s.mboxTaken w op
    [] = false ∧ s.mboxAllows w.route op = false) :=
  ⟨⟨up, host, 0, 16384, 0, by decide +kernel⟩,
  ⟨up, host, by decide +kernel⟩,
  ⟨up, host, by decide +kernel⟩,
  ⟨up.upMbox (fun m => { m with background := 0x4304 }), by decide +kernel⟩,
  ⟨jobs [(0x4400, {})] [] (up.upMbox (fun m => { m with background := 0x4400 })), {}, by decide +kernel⟩,
  ⟨up, host, [1, 0, 0, 1, 0, 0x20, 0, 0], natLe 4 70000, by decide +kernel, by decide +kernel, by decide +kernel, by decide +kernel, by decide +kernel, readsAs _ _ (by decide +kernel), by decide +kernel, by decide +kernel⟩,
  ⟨up, host, by decide +kernel⟩,
  ⟨up, host, [1], by decide +kernel⟩,
  ⟨yoked 2, [1, 0, 0, 2, 0, 0x10, 0, 0], natLe 2 0x5A80, by decide +kernel, by decide +kernel, by decide +kernel, by decide +kernel, by decide +kernel, readsAs _ _ (by decide +kernel), by decide +kernel, by decide +kernel⟩,
  ⟨up, host, 0xFFFF, by decide +kernel⟩⟩

theorem test_meets_DtpTransfers :
    (∃ (s : State) (w : Who) (tid : Nat) (i : Nat) (sub : Nat) (v : Bytes), s.takesDtp w = true ∧ (s.asked w).readOf w i sub true
    = .ok v ∧ i ∉ [0x7100, 0x7101]) ∧
    (∃ (s : State) (w : Who) (tid : Nat) (i : Nat) (sub : Nat) (v : Bytes), s.accepted w i sub v = true ∧ s.codeFor w i sub = some
    .rws ∧ s.committing (s.role w) = false ∧ s.batchOf (s.role w) = []) ∧
    (∃ (s : State) (w : Who) (i : Nat) (sub : Nat) (v : Bytes), s.accepted w i sub v = true ∧ s.codeFor w i sub = some .rw ∧
    plainEntry s.ident.variant i sub = true) ∧
    (∃ (s : State) (w : Who) (tid : Nat) (i : Nat) (sub : Nat) (v : Bytes), s.takesDtp w = true ∧ s.transferRuns w.route = false ∧
    (s.asked w).readOf w i sub false = .ok v ∧ i ≠ 0x7101) ∧
    (∃ (s : State) (w : Who) (tid : Nat) (t : Transfer), s.takesDtp w = true ∧ s.opened w tid t ∧ t.isWrite = false ∧ t.sent = 0 ∧
    routeSeg w.route < t.data.length ∧ t.total = t.data.length) ∧
    (∃ (s : State) (w : Who) (tid : Nat) (i : Nat) (sub : Nat) (total : Nat) (row : Row), s.takesDtp w = true ∧ s.transferRuns
    w.route = false ∧ (s.asked w).permit w i sub true = .ok row ∧ total ≤ 65536) ∧
    (∃ (s : State) (w : Who) (tid : Nat) (t : Transfer) (d : Bytes), s.takesDtp w = true ∧ s.opened w tid t ∧ t.isWrite = true ∧
    t.sent = 0 ∧ t.data = [] ∧ d.length = routeSeg w.route ∧ d.length ≤ t.total) ∧
    (∃ (s : State) (w : Who) (tid : Nat) (t : Transfer), s.takesDtp w = true ∧ s.opened w tid t ∧ t.index ≠ 0x7101) ∧
    (∃ (s : State) (r : Route) (t : Transfer), Tab.look s.dict.transfers (routeNum r) = some t ∧ t.ended = 0 ∧ t.index ≠ 0x7101) :=
  ⟨⟨up, fld, 1, 0x2000, 1, natLe 4 70000, by decide +kernel, readsAs _ _ (by decide +kernel), by decide +kernel⟩,
  ⟨up, fld, 1, 0x2300, 1, natLe 4 5, by decide +kernel⟩,
  ⟨up, fld, 0x9070, 1, natLe 2 5, by decide +kernel⟩,
  ⟨up, fld, 1, 0x2000, 1, natLe 4 70000, by decide +kernel, by decide +kernel, readsAs _ _ (by decide +kernel), by decide +kernel⟩,
  ⟨up.upDict (fun d => { d with transfers := [(0, xfer false (List.replicate 241 1) 241)] }), fld, 1, xfer false (List.replicate 241 1) 241, by decide +kernel, by unfold State.opened; decide +kernel, by decide +kernel⟩,
  ⟨up, fld, 1, 0x8007, 5, 65536, okRow (up.permit fld 0x8007 5 true), by decide +kernel, by decide +kernel, permit_okRow _ (by decide +kernel), by decide +kernel⟩,
  ⟨up.upDict (fun d => { d with transfers := [(0, xfer true [] 240)] }), fld, 1, xfer true [] 240, List.replicate 240 1, by decide +kernel, by unfold State.opened; decide +kernel, by decide +kernel⟩,
  ⟨up.upDict (fun d => { d with transfers := [(0, xfer true [] 240)] }), fld, 1, xfer true [] 240, by decide +kernel, by unfold State.opened; decide +kernel, by decide +kernel⟩,
  ⟨up.upDict (fun d => { d with transfers := [(0, xfer true [] 240)] }), .field, xfer true [] 240, by decide +kernel⟩⟩

theorem test_meets_Batches :
    (∃ (s : State) (w : Who), s.accepted w 0x1200 1 [1] = true ∧ s.committing (s.role w) = false ∧ s.fastOn = true ∧ servingSt
    s.yoke.member = true ∧ s.paired = false ∧ s.dict.pair = none ∧ s.batchOf (s.role w) ≠ [] ∧ s.validate (s.batchOf (s.role w)) =
    none) ∧
    (∃ (s : State) (w : Who) (e : Nat), s.accepted w 0x1200 1 [1] = true ∧ s.committing (s.role w) = false ∧ s.fastOn = true ∧
    servingSt s.yoke.member = true ∧ s.paired = false ∧ s.dict.pair = none ∧ s.batchOf (s.role w) ≠ [] ∧ s.validate (s.batchOf
    (s.role w)) = some e) ∧
    (∃ (s : State) (w : Who), s.accepted w 0x1200 1 [2] = true ∧ s.committing (s.role w) = false) :=
  ⟨⟨up.upDict (fun d => { d with batches := [(.operator, ⟨0x2300, 1, natLe 4 5⟩)] }), fld, by decide +kernel⟩,
  ⟨up.upDict (fun d => { d with batches := [(.operator, ⟨0x2200, 1, natLe 2 5⟩)] }), fld, 0x220001, by decide +kernel⟩,
  ⟨up.upDict (fun d => { d with batches := [(.operator, ⟨0x2300, 1, natLe 4 5⟩)] }), fld, by decide +kernel⟩⟩

theorem test_meets_Passwords :
    (∃ (s : State) (w : Who) (area : Nat) (kind : Nat) (pw : Bytes), s.accepted w 0x1120 1 (natLe 1 area ++ natLe 1 kind ++ pw) =
    true ∧ area ≤ 7 ∧ kind ≤ 1 ∧ s.clk.now ≥ Tab.get 0 s.dict.lockout (roleNum (s.role w)) ∧ s.rightPassword area kind pw = true) ∧
    (∃ (s : State) (w : Who) (area : Nat) (kind : Nat) (pw : Bytes), s.accepted w 0x1120 1 (natLe 1 area ++ natLe 1 kind ++ pw) =
    true ∧ area ≤ 7 ∧ kind ≤ 1 ∧ s.clk.now ≥ Tab.get 0 s.dict.lockout (roleNum (s.role w)) ∧ s.rightPassword area kind pw = false
    ∧ Tab.get 0 s.dict.wrong (roleNum (s.role w)) < 4) ∧
    (∃ (s : State) (w : Who), s.accepted w 0x1120 3 [1] = true) ∧
    (∃ (s : State) (role : Role), s.dict.presented.any (fun kv => decide (kv.1 / 16 = roleNum role)) = true) ∧
    (∃ (s : State) (role : Role) (till : Nat), Tab.look s.dict.lockout (roleNum role) = some till) ∧
    (∃ (s : State) (w : Who) (area : Nat) (kind : Nat) (pw : Bytes), s.accepted w (0x1110 + area) (1 + kind) pw = true ∧ area ≤ 7
    ∧ kind ≤ 1 ∧ pw ≠ [0]) ∧
    (∃ (s : State) (w : Who), s.accepted w 0x1201 1 [1] = true ∧ s.yoke.member ∈ [0, 1, 5, 8] ∧ ((∀ area ∈ List.range 8,
    s.passwordSet area 1 = false)) ∧ (s.fastOn = false ∨ s.fc.enabled = true)) ∧
    (∃ (s : State) (w : Who) (d : Bytes), s.accepted w 0x8007 5 d = true ∧ s.selector (s.role w) 0x8007 3 + d.length ≤ 131072) :=
  ⟨⟨up, fld, 7, 1, [], by decide +kernel⟩,
  ⟨up, fld, 7, 1, [1], by decide +kernel⟩,
  ⟨up, fld, by decide +kernel⟩,
  ⟨up.upDict (fun d => { d with presented := [(8, true)] }), .operator, by decide +kernel⟩,
  ⟨up.upDict (fun d => { d with lockout := [(0, 60000000000)] }), .operator, 60000000000, by decide +kernel⟩,
  ⟨up, fld, 7, 1, [1, 2, 3, 4, 5, 6, 7, 8], by decide +kernel⟩,
  ⟨up, fld, by decide +kernel⟩,
  ⟨up, fld, [1, 2], by decide +kernel⟩⟩

theorem test_meets_PairCommands :
    (∃ (s : State) (w : Who), s.accepted w 0x4100 7 [1] = true ∧ s.yoke.member ∈ [0, 1, 4, 5]) ∧
    (∃ (s : State) (w : Who), s.accepted w 0x4100 7 [2] = true ∧ s.yokeUp = true ∧ s.yoke.joinBlock = 6 ∧ s.yoke.split = false) ∧
    (∃ (s : State) (w : Who), s.accepted w 0x4100 7 [2] = true ∧ s.yokeUp = true ∧ s.yoke.split = true ∧ s.yoke.member ∈ [4, 8] ∧
    ((s.divergentCount ≠ 0 ∨ s.yoke.peerMarked ≠ 0))) ∧
    (∃ (s : State) (w : Who), s.accepted w 0x4100 7 [2] = true ∧ s.yokeUp = true ∧ s.yoke.split = true ∧ s.yoke.member ∈ [4, 8] ∧
    s.divergentCount = 0 ∧ s.yoke.peerMarked = 0) ∧
    (∃ (s : State) (w : Who), s.accepted w 0x4100 7 [3] = true ∧ s.yoke.member ∈ [1, 5, 8] ∧ s.dict.pair = none) ∧
    (∃ (s : State) (w : Who), s.accepted w 0x4100 7 [4] = true ∧ s.yoke.member ∈ [2, 3, 6, 7] ∧ s.dict.pair = none) ∧
    (∃ (s : State) (w : Who), s.accepted w 0x4100 7 [5] = true ∧ s.yoke.member ≠ 0 ∧ s.dict.pair = none) :=
  ⟨⟨yoked 1, fld, by decide +kernel⟩,
  ⟨(yoked 1).upYoke (fun y => { y with joinBlock := 6 }), fld, by decide +kernel⟩,
  ⟨(yoked 8).upYoke (fun y => { y with split := true, peer := some mate, peerMarked := 1 }), fld, by decide +kernel⟩,
  ⟨(yoked 8).upYoke (fun y => { y with split := true, peer := some mate }), fld, by decide +kernel⟩,
  ⟨yoked 5, fld, by decide +kernel⟩,
  ⟨yoked 7, fld, by decide +kernel⟩,
  ⟨yoked 2, fld, by decide +kernel⟩⟩

theorem test_meets_SpanCommands :
    (∃ (s : State) (w : Who) (first : Nat) (n : Nat), s.accepted w 0x9030 3 [1] = true ∧ s.entry 0x9030 1 = first * 16384 ∧
    s.entry 0x9030 2 = n * 16384 ∧ n ≠ 0 ∧ (first + n) * 16384 ≤ s.ident.variant.capacity ∧ s.spanRights w true true (first *
    16384) (n * 16384) = true ∧ s.ctl 0x9030 ≠ 1 ∧ s.paired = false ∧ s.yoke.member ≠ 3 ∧ s.runsOf first n = [(first, n)]) ∧
    (∃ (s : State) (w : Who) (first : Nat) (n : Nat), s.accepted w 0x9000 3 [1] = true ∧ s.entry 0x9000 1 = first * 16384 ∧
    s.entry 0x9000 2 = n * 16384 ∧ n ≠ 0 ∧ (first + n) * 16384 ≤ s.ident.variant.capacity ∧ s.spanRights w true true (first *
    16384) (n * 16384) = true ∧ s.ctl 0x9000 ≠ 1 ∧ s.paired = false ∧ s.yoke.member ≠ 3 ∧ s.runsOf first n = [(first, n)]) ∧
    (∃ (s : State) (w : Who) (first : Nat) (n : Nat), s.accepted w 0x9010 3 [1] = true ∧ s.entry 0x9010 1 = first * 16384 ∧
    s.entry 0x9010 2 = n * 16384 ∧ n ≠ 0 ∧ (first + n) * 16384 < s.ident.variant.capacity ∧ s.spanRights w true true (first *
    16384) (n * 16384) = true ∧ s.ctl 0x9010 ≠ 1 ∧ s.paired = false ∧ s.yoke.member ≠ 3 ∧ s.runsOf first n = [(first, n)]) ∧
    (∃ (s : State) (w : Who) (l : Nat), s.accepted w 0x9030 3 [1] = true ∧ s.entry 0x9030 1 = l * 64 ∧ s.entry 0x9030 2 = 64 ∧ (l
    + 1) * 64 ≤ s.ident.variant.capacity ∧ s.spanRights w true true (l * 64) 64 = true ∧ s.ctl 0x9030 ≠ 1 ∧ s.underWindow (grainOf
    l) = false) ∧
    (∃ (s : State) (w : Who), s.accepted w 0x9030 3 [1] = true ∧ s.entry 0x9030 2 = 0 ∧ s.ctl 0x9030 ≠ 1) ∧
    (∃ (s : State) (w : Who), s.accepted w 0x9000 3 [1] = true ∧ s.entry 0x9000 2 = 0 ∧ s.ctl 0x9000 ≠ 1) ∧
    (∃ (s : State), s.ctl 0x9030 = 1 ∧ s.jobIdle 0x9030 = true ∧ s.zeroing 0x9030 = false ∧ ((∀ j, s.job 0x9030 = some j →
    j.marked = []))) ∧
    (∃ (s : State), s.ctl 0x9000 = 1 ∧ s.jobIdle 0x9000 = true) ∧
    (∃ (s : State) (j : Job), s.job 0x9010 = some j ∧ s.job 0x8004 = none ∧ s.ctl 0x9010 = 1 ∧ s.erasedAll j = true) ∧
    (∃ (s : State) (j : Job), s.job 0x8004 = some j ∧ s.job 0x9010 = none ∧ s.erasedAll j = true ∧ s.mayPass 0x13 = true) :=
  ⟨⟨setv [(0x903001, 16384), (0x903002, 32768)] { up with map := { up.map with entries := [(1, { st := .mapped, page := 0 })] }, media := { pages := [(0, gpage 1 true)], groups := [(0, { st := .closed })] } }, fld, 1, 2, by decide +kernel⟩,
  ⟨setv [(0x900001, 16384), (0x900002, 32768)] { up with map := { up.map with entries := [(1, { st := .mapped, page := 0 })] }, media := { pages := [(0, gpage 1 true)], groups := [(0, { st := .closed })] } }, fld, 1, 2, by decide +kernel⟩,
  ⟨setv [(0x901001, 16384), (0x901002, 32768)] { up with map := { up.map with entries := [(1, { st := .mapped, page := 0 })] }, media := { pages := [(0, gpage 1 true)], groups := [(0, { st := .closed })] } }, fld, 1, 2, by decide +kernel⟩,
  ⟨setv [(0x903001, 64), (0x903002, 64)] up, fld, 1, by decide +kernel⟩,
  ⟨setv [(0x903001, 3)] up, fld, by decide +kernel⟩,
  ⟨up, fld, by decide +kernel⟩,
  ⟨jobs [(0x9030, {})] [(0x9030, 1)] up, by decide +kernel⟩,
  ⟨jobs [(0x9000, {})] [(0x9000, 1)] up, by decide +kernel⟩,
  ⟨jobs [(0x9010, {})] [(0x9010, 1)] up, {}, by decide +kernel⟩,
  ⟨jobs [(0x8004, {})] [] (yoked 2), {}, by decide +kernel⟩⟩

theorem test_meets_KeyAndCareCommands :
    (∃ (s : State) (w : Who), s.accepted w 0x9018 3 [1] = true ∧ (s.keyRec (s.entry 0x9018 1)).st ≠ 0 ∧ s.entry 0x9018 2 = 1 ∧
    s.ctl 0x9018 ≠ 1 ∧ s.paired = false) ∧
    (∃ (s : State) (g : Nat) (rest : List Nat) (p : Page), s.cmds.sweep = g :: rest ∧ s.wbOf g = false ∧ s.changing g = false ∧
    s.isMapped g = true ∧ s.page? (s.mapEntry g).page = some p ∧ p.gen < (s.keyRec (p.slotKey 0)).base ∧ s.loggedLines g = []) ∧
    (∃ (s : State) (j : Job), s.job 0x9018 = some j ∧ s.job 0x8005 = none ∧ s.ctl 0x9018 = 1 ∧ s.cryptoReady j = true) ∧
    (∃ (s : State) (j : Job), s.job 0x8005 = some j ∧ s.job 0x9018 = none ∧ s.cryptoReady j = true ∧ s.mayPass 0x13 = true) ∧
    (∃ (s : State) (w : Who), s.accepted w 0x9020 4 [1] = true ∧ s.entry 0x9020 2 ≠ 0 ∧ s.spanOk 16384 (s.entry 0x9020 1) (s.entry
    0x9020 2) = true ∧ s.ctl 0x9020 ≠ 1) ∧
    (∃ (s : State) (w : Who), s.accepted w 0x9020 4 [0] = true ∧ s.ctl 0x9020 = 1) ∧
    (∃ (s : State) (j : Job), s.ctl 0x9020 = 1 ∧ s.checks = true ∧ s.job 0x9020 = some j ∧ j.flags % 2 = 0) ∧
    (∃ (s : State) (w : Who), s.accepted w 0x9028 1 [1] = true ∧ s.inBrine = true ∧ s.brineRoom = true ∧ s.ctl 0x9028 ≠ 1 ∧
    s.paired = false) ∧
    (∃ (s : State) (w : Who), s.accepted w 0x9040 2 [1] = true ∧ s.ctl 0x9040 ≠ 1 ∧ (s.range (s.entry 0x9040 1)).size ≠ 0 ∧
    s.rekeyLeft (s.entry 0x9040 1) = [] ∧ s.tabs.rekeying = []) :=
  ⟨⟨setv [(0x901801, 0), (0x901802, 1)] up, fld, by decide +kernel⟩,
  ⟨{ up with cmds := { sweep := [4] }, keys := { recs := [(0, { st := 1, base := 5 })] }, map := { up.map with entries := [(4, { st := .mapped, page := 0 })] }, media := { pages := [(0, gpage 4 true)], groups := [(0, { st := .closed })] } }, 4, [], gpage 4 true, by decide +kernel⟩,
  ⟨jobs [(0x9018, {})] [(0x9018, 1)] up, {}, by decide +kernel⟩,
  ⟨jobs [(0x8005, {})] [] (yoked 2), {}, by decide +kernel⟩,
  ⟨setv [(0x902002, 16384)] up, fld, by decide +kernel⟩,
  ⟨jobs [(0x9020, {})] [(0x9020, 1)] up, fld, by decide +kernel⟩,
  ⟨(jobs [(0x9020, {})] [(0x9020, 1)] up).upReg (fun r => { r with granted := [⟨strainId, .scrub, 1, 4, 0⟩] }), {}, by decide +kernel⟩,
  ⟨{ up with care := { brine := 3 } }, fld, by decide +kernel⟩,
  ⟨up, fld, by decide +kernel⟩⟩

theorem test_meets_ModuleCommands :
    (∃ (s : State) (w : Who), s.accepted w 0x9060 1 [1] = true ∧ s.ctl 0x9060 ∉ [1, 2]) ∧
    (∃ (s : State) (w : Who), s.accepted w 0x9060 1 [0] = true ∧ s.ctl 0x9060 ≠ 2) ∧
    (∃ (s : State), s.ctl 0x9060 = 1 ∧ s.dirtyBytes = 0 ∧ s.map.resident = true ∧ s.map.lapRunning = false ∧ s.pwr.arm ≤ 1 ∧
    s.shutdownLap = false) ∧
    (∃ (s : State), s.ctl 0x9060 = 1 ∧ s.dirtyBytes = 0 ∧ s.map.resident = true ∧ s.map.lapRunning = false ∧ s.pwr.arm ≤ 1 ∧
    s.shutdownLap = true) ∧
    (∃ (s : State) (w : Who), s.accepted w 0x9070 2 [1] = true ∧ s.entry 0x9070 1 ≠ 0) ∧
    (∃ (s : State) (w : Who), s.accepted w 0x9070 2 [0] = true) ∧
    (∃ (s : State) (w : Who) (mw : Nat), mw < 2 ^ 32 ∧ s.accepted w 0x2000 1 (natLe 4 mw) = true) ∧
    (∃ (s : State) (w : Who) (mask : BitVec 8), s.accepted w 0x2130 6 [mask] = true) :=
  ⟨⟨up, fld, by decide +kernel⟩,
  ⟨jobs [] [(0x9060, 1)] up, fld, by decide +kernel⟩,
  ⟨jobs [] [(0x9060, 1)] up, by decide +kernel⟩,
  ⟨(jobs [] [(0x9060, 1)] up).setVal 0x9060 3 1, by decide +kernel⟩,
  ⟨setv [(0x907001, 9)] up, fld, by decide +kernel⟩,
  ⟨up, fld, by decide +kernel⟩,
  ⟨up, fld, 60000, by decide +kernel⟩,
  ⟨up, fld, 255, by decide +kernel⟩⟩

theorem test_meets_KeyCommands :
    (∃ (s : State) (w : Who), s.accepted w 0x4002 5 [1] = true ∧ (s.keyRec (s.selector (s.role w) 0x4001 1)).st = 0) ∧
    (∃ (s : State) (w : Who) (v : ImportVerdict), s.accepted w 0x4002 5 [2] = true ∧ (s.keyRec (s.selector (s.role w) 0x4001
    1)).st = 0 ∧ importReason s.keys.blob v = 0) ∧
    (∃ (s : State) (w : Who) (v : ImportVerdict), s.accepted w 0x4002 5 [2] = true ∧ (s.keyRec (s.selector (s.role w) 0x4001
    1)).st = 0 ∧ importReason s.keys.blob v ≠ 0) ∧
    (∃ (s : State) (w : Who), s.accepted w 0x4010 2 [1] = true) ∧
    (∃ (s : State) (w : Who), s.accepted w 0x4020 2 [1] = true ∧ s.keys.signing = none) ∧
    (∃ (s : State) (r : Role), s.keys.signing = some r) :=
  ⟨⟨up.upDict (fun d => { d with sel := [(0x400101, 1)] }), fld, by decide +kernel⟩,
  ⟨(up.upDict (fun d => { d with sel := [(0x400101, 1)] })).upKeys (fun k => { k with blob := [1] }), fld, ⟨false, true, 1⟩, by decide +kernel⟩,
  ⟨(up.upDict (fun d => { d with sel := [(0x400101, 1)] })).upKeys (fun k => { k with blob := [1] }), fld, ⟨false, true, 0⟩, by decide +kernel⟩,
  ⟨up, fld, by decide +kernel⟩,
  ⟨up, fld, by decide +kernel⟩,
  ⟨up.upKeys (fun k => { k with signing := some .operator }), .operator, by decide +kernel⟩⟩

theorem test_meets_FrontCacheCommands :
    (∃ (s : State) (w : Who), s.accepted w 0x2100 1 [0] = true ∧ s.fastOn = true ∧ s.fc.enabled = true ∧ s.fc.disabling = false) ∧
    (∃ (s : State), s.fc.disabling = true ∧ s.fc.lines = []) ∧
    (∃ (s : State) (w : Who), s.accepted w 0x2100 1 [1] = true ∧ s.fastOn = true ∧ s.fc.enabled = false) ∧
    (∃ (s : State) (w : Who) (found : List (Nat × CacheFault)), s.accepted w 0x2120 4 [1] = true ∧ ((∀ x ∈ found, x.2 ∉
    [CacheFault.fcLine, .fcTag])) ∧ s.entry 0x2120 2 ≠ 0 ∧ s.spanRights w false false (s.entry 0x2120 1) (s.entry 0x2120 2) = true
    ∧ s.spanOk 64 (s.entry 0x2120 1) (s.entry 0x2120 2) = true ∧ s.ctl 0x2120 ≠ 1 ∧ ((∀ kx ∈ s.fcSpan (s.entry 0x2120 1) (s.entry
    0x2120 2), kx.2.st = .unmodified))) ∧
    (∃ (s : State) (w : Who) (found : List (Nat × CacheFault)), s.accepted w 0x2121 4 [1] = true ∧ ((∀ x ∈ found, x.2 ∉
    [CacheFault.fcLine, .fcTag])) ∧ s.entry 0x2121 2 ≠ 0 ∧ s.entry 0x2121 3 % 4 < 2 ∧ s.spanRights w false false (s.entry 0x2121
    1) (s.entry 0x2121 2) = true ∧ s.spanOk 64 (s.entry 0x2121 1) (s.entry 0x2121 2) = true ∧ s.ctl 0x2121 ≠ 1 ∧ ((∀ kx ∈ s.fcSpan
    (s.entry 0x2121 1) (s.entry 0x2121 2), kx.2.st = .unmodified))) ∧
    (∃ (s : State) (w : Who) (found : List (Nat × CacheFault)) (l : Nat) (x : FcLine), s.accepted w 0x2122 4 [1] = true ∧ ((∀ x ∈
    found, x.2 ∉ [CacheFault.fcLine, .fcTag])) ∧ s.entry 0x2122 1 = l * 64 ∧ s.entry 0x2122 2 = 64 ∧ s.entry 0x2122 3 % 2 = 0 ∧
    s.spanRights w false false (l * 64) 64 = true ∧ l * 64 + 64 ≤ s.ident.variant.capacity ∧ s.ctl 0x2122 ≠ 1 ∧ s.ordinary l =
    true ∧ s.fcLine? l = some x ∧ x.locked = false ∧ s.lockable l = true) ∧
    (∃ (s : State) (w : Who) (found : List (Nat × CacheFault)) (l : Nat) (x : FcLine), s.accepted w 0x2122 4 [1] = true ∧ ((∀ x ∈
    found, x.2 ∉ [CacheFault.fcLine, .fcTag])) ∧ s.entry 0x2122 2 ≠ 0 ∧ s.entry 0x2122 3 % 2 = 1 ∧ s.spanRights w false false
    (s.entry 0x2122 1) (s.entry 0x2122 2) = true ∧ s.spanOk 64 (s.entry 0x2122 1) (s.entry 0x2122 2) = true ∧ s.ctl 0x2122 ≠ 1 ∧
    (s.fcSpan (s.entry 0x2122 1) (s.entry 0x2122 2)).filter (fun kx => kx.2.locked) = [(l, x)]) ∧
    (∃ (s : State) (w : Who) (l : Nat), s.accepted w 0x2123 4 [1] = true ∧ s.entry 0x2123 1 = l * 64 ∧ s.entry 0x2123 2 = 64 ∧
    s.spanRights w true false (l * 64) 64 = true ∧ l * 64 + 64 ≤ s.ident.variant.capacity ∧ s.ctl 0x2123 ≠ 1 ∧ s.ordinary l =
    true) ∧
    (∃ (s : State) (k : MaintKind) (j : Job), s.ctl (maintIndex k) = 1 ∧ s.job (maintIndex k) = some j ∧ j.marked = [] ∧ s.zeroing
    (maintIndex k) = false) ∧
    (∃ (s : State) (j : Job) (l : Nat) (x : FcLine) (y : Sector), s.ctl 0x2120 = 1 ∧ s.job 0x2120 = some j ∧ j.marked = [l] ∧
    s.zeroing 0x2120 = false ∧ s.fcLine? l = some x ∧ x.st = .modified ∧ s.sector? (sectorOf l) = some y) :=
  ⟨⟨up, fld, by decide +kernel⟩,
  ⟨up.upFc (fun c => { c with disabling := true }), by decide +kernel⟩,
  ⟨up.upFc (fun c => { c with enabled := false }), fld, by decide +kernel⟩,
  ⟨setv [(0x212002, 128)] { up with fc := { lines := [(1, fcl .unmodified)] } }, fld, [], by decide +kernel⟩,
  ⟨setv [(0x212102, 128)] { up with fc := { lines := [(1, fcl .unmodified)] } }, fld, [], by decide +kernel⟩,
  ⟨setv [(0x212201, 64), (0x212202, 64)] { up with fc := { lines := [(1, fcl .unmodified)] } }, fld, [], 1, fcl .unmodified, by decide +kernel⟩,
  ⟨setv [(0x212202, 128), (0x212203, 1)] { up with fc := { lines := [(1, { fcl .unmodified with locked := true })] } }, fld, [], 1, { fcl .unmodified with locked := true }, by decide +kernel⟩,
  ⟨setv [(0x212301, 64), (0x212302, 64)] up, fld, 1, by decide +kernel⟩,
  ⟨jobs [(0x2123, {})] [(0x2123, 1)] up, .zero, {}, by decide +kernel⟩,
  ⟨jobs [(0x2120, { marked := [1] })] [(0x2120, 1)] { up with fc := { lines := [(1, fcl .modified)] }, tier := { sectors := [(0, sect)] } }, { marked := [1] }, 1, fcl .modified, sect, by decide +kernel⟩⟩

theorem test_meets_FirmwareAndTestCommands :
    (∃ (s : State) (w : Who), s.accepted w 0x9050 3 [1] = true ∧ s.fw.ctl ≠ 1) ∧
    (∃ (s : State) (w : Who) (d : Bytes), s.accepted w 0x9050 2 d = true ∧ s.fw.ctl ≠ 1 ∧ s.fw.begun = true ∧ s.entry 0x9050 1 +
    d.length ≤ 8388608) ∧
    (∃ (s : State) (w : Who), s.accepted w 0x9050 3 [2] = true ∧ s.fw.ctl ≠ 1 ∧ s.fw.begun = true) ∧
    (∃ (s : State) (w : Who), s.accepted w 0x9050 3 [3] = true ∧ s.fw.ctl ≠ 1 ∧ s.fw.passed = true ∧ s.pwr.boot ≠ .recovery) ∧
    (∃ (s : State) (w : Who), s.accepted w 0x9050 3 [0] = true) ∧
    (∃ (s : State) (v : FwVerdict), s.fw.ctl = 1 ∧ s.fw.op = 1) ∧
    (∃ (s : State) (v : FwVerdict), s.fw.ctl = 1 ∧ s.fw.op = 2) ∧
    (∃ (s : State) (w : Who), s.accepted w 0xA000 1 [1] = true ∧ s.pwr.test = 0 ∧ s.pwr.arm = 3 ∧ s.yoke.member ∈ [0, 1, 5, 8] ∧
    s.mbox.background = 0) ∧
    (∃ (s : State) (w : Who), s.accepted w 0xA000 1 [0] = true ∧ s.pwr.test ≠ 0) ∧
    (∃ (s : State) (w : Who), s.accepted w 0xA010 3 [1] = true ∧ ((s.selector (s.role w) 0xA010 1 ∈ [1, 3] → s.pwr.test = 2)) ∧
    ((s.selector (s.role w) 0xA010 1 = 4 → s.selector (s.role w) 0xA010 2 ≠ 0)) ∧ s.ctl 0xA010 ≠ 1) ∧
    (∃ (s : State) (w : Who), s.accepted w 0xA010 3 [0] = true ∧ s.ctl 0xA010 = 1) ∧
    (∃ (s : State) (errors : Nat) (first : Nat) (bad : List Nat) (j : Job), s.job 0xA010 = some j ∧ s.ctl 0xA010 = 1 ∧ j.base ≠ 4) ∧
    (∃ (s : State) (w : Who) (v : Bytes), s.takesDtp w = true ∧ s.transferRuns w.route = false ∧ (s.asked w).readOf w 0xA040 3
    false = .ok v) :=
  ⟨⟨up, fld, by decide +kernel⟩,
  ⟨up.upFw (fun f => { f with begun := true }), fld, [1, 2], by decide +kernel⟩,
  ⟨up.upFw (fun f => { f with begun := true, passed := true }), fld, by decide +kernel⟩,
  ⟨up.upFw (fun f => { f with begun := true, passed := true }), fld, by decide +kernel⟩,
  ⟨up.upFw (fun f => { f with begun := true, passed := true }), fld, by decide +kernel⟩,
  ⟨up.upFw (fun f => { f with ctl := 1, op := 1 }), ⟨true, true, true, true⟩, by decide +kernel⟩,
  ⟨up.upFw (fun f => { f with ctl := 1, op := 2 }), ⟨true, true, true, false⟩, by decide +kernel⟩,
  ⟨up.upPwr (fun p => { p with arm := 3 }), fld, by decide +kernel⟩,
  ⟨up.upPwr (fun p => { p with arm := 3, test := 2 }), fld, by decide +kernel⟩,
  ⟨up.upDict (fun d => { d with sel := [(0xA01001, 4), (0xA01002, 1)] }), fld, by decide +kernel⟩,
  ⟨jobs [(0xA010, {})] [(0xA010, 1)] up, fld, by decide +kernel⟩,
  ⟨jobs [(0xA010, { base := 1 })] [(0xA010, 1)] up, 2, 7, [], { base := 1 }, by decide +kernel⟩,
  ⟨up.upDict (fun d => { d with sel := [(0xA04001, 2)] }), fld, okBytes ((up.upDict (fun d => { d with sel := [(0xA04001, 2)] }) : State).readOf fld 0xA040 3 false), by decide +kernel, by decide +kernel, readsAs _ _ (by decide +kernel)⟩⟩

theorem test_meets_CounterAndPailCommands :
    (∃ (s : State) (w : Who), s.accepted w 0x6FF0 1 [1] = true ∧ s.perf.snapSt ≠ 1) ∧
    (∃ (s : State) (w : Who), s.accepted w 0x6FF0 1 [2] = true ∧ s.perf.snapSt ≠ 1) ∧
    (∃ (s : State) (w : Who) (block : Nat) (mask : BitVec 8), block ≤ 60 ∧ s.accepted w (0x6000 + block) 2 [mask] = true) ∧
    (∃ (s : State) (w : Who), s.accepted w 0x7000 2 [1] = true ∧ s.firkin.frozen = false) ∧
    (∃ (s : State) (w : Who), s.accepted w 0x7000 2 [0] = true ∧ s.firkin.frozen = true ∧ s.firkinAge < s.entry 0x7000 1) ∧
    (∃ (s : State) (w : Who) (v : Bytes), s.takesDtp w = true ∧ s.transferRuns w.route = false ∧ (s.asked w).readOf w 0x7101 2
    false = .ok v) ∧
    (∃ (s : State) (w : Who) (n : Nat) (r : Nat) (x : Transfer), s.accepted w 0x7100 5 [1] = true ∧ (s.asked w).obs.packet = some
    n ∧ (s.asked w).obs.lostPending = 0 ∧ s.dict.transfers.find? (fun kt => decide (kt.2.index = 0x7101) && decide (kt.2.sub = 2)
    && decide (kt.2.ended = 0)) = some (r, x) ∧ Tab.look s.dict.transfers r = some x) ∧
    (∃ (s : State) (w : Who) (v : Bytes), s.takesDtp w = true ∧ (s.asked w).readOf w 0x7100 3 true = .ok v) :=
  ⟨⟨up, fld, by decide +kernel⟩,
  ⟨up, fld, by decide +kernel⟩,
  ⟨up.upPerf (fun p => { p with overflow := [(60, 255)] }), fld, 60, 15, by decide +kernel⟩,
  ⟨up, fld, by decide +kernel⟩,
  ⟨up.upFirkin (fun f => { f with frozen := true }), fld, by decide +kernel⟩,
  ⟨{ up with obs := { pail := [⟨1, 0, 2, 3, 4, 5⟩] } }, fld, okBytes (({ up with obs := { pail := [⟨1, 0, 2, 3, 4, 5⟩] } } : State).readOf fld 0x7101 2 false), by decide +kernel, by decide +kernel, readsAs _ _ (by decide +kernel)⟩,
  ⟨{ up with obs := { pail := [⟨1, 0, 2, 3, 4, 5⟩], packet := some 1 }, dict := { transfers := [(0, { xfer false [1] 32 with index := 0x7101, sub := 2 })] } }, fld, 1, 0, { xfer false [1] 32 with index := 0x7101, sub := 2 }, by decide +kernel⟩,
  ⟨{ up with obs := { overrun := true } }, fld, [1], by decide +kernel, readsAs _ _ (by decide +kernel)⟩⟩

/-! ## The manual's worked examples -/

/-- 03_address_space, the example's layout of an SN64: range 2 holds the target, range 3 is the window of group 3. -/
def exampleSn64 : State :=
  { ident := { variant := .sn64 }
    tabs :=
      { ranges :=
          [(0, { base := 0, size := 0x3C0000000000, group := 1, cls := 4 }),
            (1, { base := 0x3C0000000000, size := 0x20000000000, group := 2, policy := 1 }),
            (2, { base := 0x3E0000000000, size := 0x10000000000, group := 3 }),
            (3, { base := 0x3F0000000000, size := 0x40000000, group := 3, kind := 1 })]
        targets := [(3, 0x3E0000000000)] } }

/-- 10_caches_dram, the example: slice 17, set 331 of it, tier set 47,034 with tag 746, g = 7,005,933. -/
theorem test_example_caches :
    sliceOf 0x12345678D2C0 = 17 ∧ fcSetOf (0x12345678D2C0 / 64) = 331 ∧
    tierPlace .sn128 (sectorOf (0x12345678D2C0 / 64)) = (47034, 746) ∧
    tierSetKey .sn128 (sectorOf (0x12345678D2C0 / 64)) = 7005933 := by decide +kernel

/-- 06_media_layout, the example: the grain and segment of the address, the fields of PPA 149A694D2h, its group and package. -/
theorem test_example_media :
    grainOf (0x12345678D2C0 / 64) = 0x48D159E3 ∧ segmentOf 0x48D159E3 = 0x48D159 ∧
    ppaPos 0x149A694D2 = 20 ∧ ppaCh 0x149A694D2 = 9 ∧ ppaPlane 0x149A694D2 = 2 ∧ ppaBlock 0x149A694D2 = 617 ∧
    ppaPage 0x149A694D2 = 1234 ∧ ppaGroup 0x149A694D2 = 84585 ∧ packageOf (ppaDie 0x149A694D2) = 44 ∧
    mkPpa 20 9 2 617 1234 = 0x149A694D2 := by decide +kernel

/-- 06_media_layout, the example: the stripe's XOR page is on channel 7, and 14 data pages stay once column 9 is absent. -/
theorem test_example_stripe :
    xorChannel {} 84585 1234 = 7 ∧ (dataChannels {} 84585 1234).length = 15 ∧
    (dataChannels { absentCol := some 9 } 84585 1234).length = 14 := by decide +kernel

/-- 05_write_path, the example (14,336 MiB), and the table of 16_physical, DerivedBudget over the bank's life. -/
theorem test_example_derived_budget :
    derive .sn128 36000 40 16384 = 14336 ∧
    derive .sn32 48070 40 4096 = 4096 ∧ derive .sn64 48070 40 8192 = 8192 ∧ derive .sn128 48070 40 16384 = 16384 ∧
    derive .sn128 38456 40 16384 = 15360 ∧ derive .sn128 24035 40 16384 = 8960 ∧
    derive .sn32 19228 40 4096 = 4096 ∧ derive .sn64 19228 40 8192 = 7168 ∧ derive .sn128 19228 40 16384 = 6656 := by
  decide +kernel

/-- 03_address_space, the example: the window leads to 3E000ABCD040h in slice 19, and 3F0040000000h lies in no range. -/
theorem test_example_window :
    exampleSn64.decodeDpa 0x3F000ABCD040 =
      .window { base := 0x3F0000000000, size := 0x40000000, group := 3, kind := 1 } 0x3E000ABCD040 ∧
    sliceOf 0x3F000ABCD040 = 19 ∧ sliceOf 0x3E000ABCD040 = 19 ∧
    exampleSn64.decodeDpa 0x3F0040000000 = .notDecoded := by decide +kernel

/-! ## Single steps whose results the manual gives -/

/-- R46: a link trained to 64 GT/s (code 6) at x8 is logged as 5001h with speed code × 256 + width. -/
theorem test_step_link_training :
    (nextOf { up with pending := [.linkTrainingDone 6 8 0] }).port.width = 8 ∧
    (nextOf { up with pending := [.linkTrainingDone 6 8 0] }).obs.pail.map (fun e => (e.code, e.param)) =
      [(0x5001, 6 * 256 + 8)] := by decide +kernel

/-- R172, R173: once power loss is confirmed the module dumps on hold-up, ArmState 05h, and no longer serves memory. -/
theorem test_step_power_loss :
    (nextOf { up with pending := [.powerLossConfirmed] }).pwr.arm = 5 ∧
    (nextOf { up with pending := [.powerLossConfirmed] }).pwr.memoryActive = false ∧
    (nextOf { up with pending := [.powerLossConfirmed] }).pwr.holdUp = true := by decide +kernel

/-- R501: a counter that passes 2^48 − 1 wraps to 0 and sets bit n of its block's Overflow. -/
theorem test_step_counter_wraps :
    (nextOf { up with
      perf := { select := [(487, 5)], value := [(487, 2 ^ 48 - 1)] }
      pending := [.counterWrap 60 7 1 2] }).perf.overflow = [(60, 128)] ∧
    Tab.get 0 (nextOf { up with
      perf := { select := [(487, 5)], value := [(487, 2 ^ 48 - 1)] }
      pending := [.counterWrap 60 7 1 2] }).perf.value 487 = 0 := by decide +kernel

/-- R477, R478: the Sequence of a Notify counts modulo 256, and the condition awaits its acknowledgement. -/
theorem test_step_notify_wraps :
    (nextOf { up with
      port := { up.port with attach := 2, bound := true }
      obs := { notes := [(4, { seq := 255, count := 1 })] }
      pending := [.notifySend 4] }).obs.notes.map (fun kv => (kv.2.seq, kv.2.pending)) = [(0, true)] := by decide +kernel

/-- A read is not taken while the module accepts no requests (out of reset, R39). -/
theorem test_step_request_not_accepted :
    (nextOf { pending := [.hostReadRequest 0 0 5] }).reqs.list = [] := by decide +kernel

end Sys2Proof.Tests
end

