-- ==== Sys2Proof/Proofs/FirmwareWatchdog.lean ====
section
/-!
PROOF. The firmware watchdog (R28): the controller reset it performs sweeps the kept DRAM (R225), and a tag block the sweep repairs
is a correctable error of its DRAM channel (R380, R394): the gills change, which the statement's frame leaves out.
-/
namespace Sys2Proof.Machine

/-- The groups a controller reset may write before and after its sweep of the kept DRAM. -/
def restartParts : List Part :=
  [.pwr, .port, .reqs, .fc, .tier, .slices, .budget, .media, .map, .care, .yoke, .atom, .keys, .reg, .dict, .mbox, .obs, .perf,
    .rstats, .fw, .cmds]

/-- A controller reset is the sweep of the kept DRAM between two stages that write neither the DRAM counts nor the gills. -/
theorem State.controllerReset_around_sweep {s : State} (source : Nat) (bad : List Nat) (swept : List (Nat × CacheFault))
    (on : s.fastOn = true) (noDump : s.pwr.arm ≠ 5) :
    ∃ u : State, s.keepsBut restartParts u ∧
      (u.sweepKept swept).keepsBut restartParts (s.controllerReset source bad swept) := by
  have go : ¬(!s.fastOn ∨ s.pwr.arm = 5) := by simp [on, noDump]
  unfold State.controllerReset
  rw [if_neg go]
  extract_lets started saved cleared afterSweep restored rearmed
  refine ⟨cleared, ?before, ?after⟩
  case before =>
    refine State.clearVolatile_keeps _ (by decide) (State.saveFrontCache_keeps _ _ (by decide) (State.standDown_keeps _ (by decide)
      (State.undoAll_keeps _ (by decide) (State.unchargeAll_keeps _ (by decide) (State.keeps_upPwr _ (by decide) ?_)))))
    exact State.keepsBut_refl _ s
  case after =>
    refine State.keeps_upPwr _ (by decide) (State.refill_keeps _ (by decide) (State.linkDown_keeps _ (by decide)
      (State.resumeGen_keeps _ (by decide) (keeps_ite (State.keeps_upPwr _ (by decide) ?_) ?_))))
    all_goals
      refine State.closeOpen_keeps _ (by decide) (State.mapCold_keeps _ (by decide) (keeps_ite
        (State.rebuildMap_keeps _ (by decide) ?_) (State.replayJournal_keeps _ _ (by decide) ?_)))
      all_goals exact State.keepsBut_refl _ _

/-- The gill that a line's tag block counts in: that of its DRAM channel (R394). -/
def tagGill (v : Variant) (line : Nat) : Nat := tierSetKey v (sectorOf line) % 16 / 2

/-- A tag block with one bad copy, found by the sweep, is one more input of its channel's gill (R380, R394). -/
theorem State.sweepLine_tagOne_inputs (line : Nat) (s : State) :
    Tab.get 0 (s.sweepLine line .tagOne).gills.inputs (tagGill s.ident.variant line) =
      Tab.get 0 s.gills.inputs (tagGill s.ident.variant line) + 1 := by
  simp [State.sweepLine, tagGill, Tab.get_set]

/-- A whole controller reset keeps that input: nothing beside the sweep writes the gills. -/
theorem State.controllerReset_tagOne_inputs {s : State} (source : Nat) (bad : List Nat) (line : Nat)
    (on : s.fastOn = true) (noDump : s.pwr.arm ≠ 5) :
    Tab.get 0 (s.controllerReset source bad [(line, .tagOne)]).gills.inputs (tagGill s.ident.variant line) =
      Tab.get 0 s.gills.inputs (tagGill s.ident.variant line) + 1 := by
  obtain ⟨u, before, after⟩ := State.controllerReset_around_sweep source bad [(line, .tagOne)] on noDump
  have sameIdent : u.ident = s.ident := before .ident (by decide)
  have sameGills : u.gills = s.gills := before .gills (by decide)
  have sweptGills : (s.controllerReset source bad [(line, .tagOne)]).gills = (u.sweepLine line .tagOne).gills :=
    after .gills (by decide)
  have counted := u.sweepLine_tagOne_inputs line
  rwa [sameIdent, sameGills, ← sweptGills] at counted

/-- An armed module that serves CXL.mem, with no correctable error counted yet. -/
def servingModule : State :=
  { pwr :=
      { main := true
        aux := true
        perst := false
        boot := .running
        memoryActive := true
        arm := 1
        armed := true }
    map := { resident := true } }

/-- Refutes O8: the frame leaves out the gills. The watchdog's reset of a serving module whose sweep finds one bad copy of the tag block of
line 0 takes the inputs of DRAM channel 0's gill from 0 to 1. -/
theorem not_firmwareWatchdog : ¬ Obligations.FirmwareWatchdog := by
  unfold Obligations.FirmwareWatchdog
  intro h
  have on : servingModule.fastOn = true := by decide
  have noDump : servingModule.pwr.arm ≠ 5 := by decide
  obtain ⟨t, runs, frame, -⟩ := h servingModule [] [(0, .tagOne)] on noDump
  have answer : exec (.firmwareWatchdogExpire [] [(0, .tagOne)]) servingModule =
      .next (servingModule.controllerReset 9 [] [(0, .tagOne)]) := rfl
  obtain rfl : servingModule.controllerReset 9 [] [(0, .tagOne)] = t := Host.Outcome.next.inj (answer.symm.trans runs)
  have kept : (servingModule.controllerReset 9 [] [(0, .tagOne)]).gills = servingModule.gills := frame .gills (by decide)
  have counted := State.controllerReset_tagOne_inputs 9 [] 0 on noDump
  rw [kept] at counted
  omega

end Sys2Proof.Machine
end

