-- ==== Sys2Proof/Proofs/FunctionLevelReset.lean ====
section
/-!
PROOF. The function level reset (R71): with the fast domains on it is one rewrite of the mailbox and one of the event state. Every other
group is kept by the frame rules of `State.upMbox` and `State.upObs`, and inside the two groups the fields that the rewrites do not name
(the running background command, the event logs, the pail) stand as they were.
-/
namespace Sys2Proof.Machine

/-- R71 on the mailbox: no foreground command awaits an answer, and the pages and the status of the background command that ended last (R70) are
cleared. -/
def Mbox.functionReset (m : Mbox) : Mbox :=
  { m with
    doorbell := []
    pages := []
    bgLast := (0, 0)
    clearing := []
    dictWait := [] }

/-- R71 on the event state: every log's vector disabled (R80), and the MSI-X table cleared with the vectors raised. -/
def Obs.functionReset (o : Obs) : Obs :=
  { o with
    policy := 0
    msixTable := []
    msix := [] }

/-- While the fast domains run, a function level reset rewrites the mailbox and the event state. -/
theorem exec_functionLevelReset_of_fastOn {s : State} (on : s.fastOn = true) :
    exec .functionLevelReset s = .next ((s.upMbox Mbox.functionReset).upObs Obs.functionReset) :=
  congrArg Host.Outcome.next (if_pos on)

/-- Settles O7: the two rewrites are the whole reset, so the frame follows from the rule of each, and no rewrite names the background
command, the logs or the pail. The requests are kept as well, so the queued write of an aborted Clear Poison stays among them (log
entry 148). -/
theorem functionLevelReset : Obligations.FunctionLevelReset := by
  unfold Obligations.FunctionLevelReset
  intro s on
  have frame : s.keepsBut [.mbox, .obs] ((s.upMbox Mbox.functionReset).upObs Obs.functionReset) :=
    State.keeps_upObs _ (by decide) (State.keeps_upMbox _ (by decide) (State.keepsBut_refl _ s))
  have mailbox : ((s.upMbox Mbox.functionReset).upObs Obs.functionReset).mbox = s.mbox.functionReset := by simp
  have events : ((s.upMbox Mbox.functionReset).upObs Obs.functionReset).obs = s.obs.functionReset := by simp
  refine ⟨_, exec_functionLevelReset_of_fastOn on, frame, mailbox, ?background, ?peer, events, ?logs, ?pail⟩
  case background => rw [mailbox, Mbox.functionReset]
  case peer => rw [mailbox, Mbox.functionReset]
  case logs => rw [events, Obs.functionReset]
  case pail => rw [events, Obs.functionReset]

end Sys2Proof.Machine
end

