-- ==== Sys2Proof/Proofs/Whole.lean ====
section
/-!
PROOF. The machine as a whole: every command answers a next state to which the state may evolve and which keeps the identity and the queue;
so does every step. The laws of the single commands are put together here once, by the cases of the command.
-/
namespace Sys2Proof.Machine

/-- Every command answers a next state that the state may become. -/
theorem exec_evolves (c : Instr) (s : State) : AnswersE s (exec c s) := by
  cases c with
  | powerUp main aux lost => exact execPowerUp_evolves main aux lost s (.rfl' s)
  | firmwareVerifyDone v trainFail badPages => exact execFirmwareVerifyDone_evolves v trainFail badPages s (.rfl' s)
  | dumpReplayDone badLines => exact execDumpReplayDone_evolves badLines s (.rfl' s)
  | memoryActiveSet => exact execMemoryActiveSet_evolves s (.rfl' s)
  | imageRetire => exact execImageRetire_evolves s (.rfl' s)
  | retiredImageReset number => exact execRetiredImageReset_evolves number s (.rfl' s)
  | powerLossConfirmed => exact execPowerLossConfirmed_evolves s (.rfl' s)
  | overvoltageTrip => exact execOvervoltageTrip_evolves s (.rfl' s)
  | pwrdisAssert => exact execPwrdisAssert_evolves s (.rfl' s)
  | pwrdisDeassert => exact execPwrdisDeassert_evolves s (.rfl' s)
  | dumpWindowsEnded fcBad dramBad => exact execDumpWindowsEnded_evolves fcBad dramBad s (.rfl' s)
  | dumpSealed => exact execDumpSealed_evolves s (.rfl' s)
  | bankExhausted => exact execBankExhausted_evolves s (.rfl' s)
  | mainReturnDuringDump => exact execMainReturnDuringDump_evolves s (.rfl' s)
  | warmReset perst => exact execWarmReset_evolves perst s (.rfl' s)
  | functionLevelReset => exact execFunctionLevelReset_evolves s (.rfl' s)
  | resetErrorDetected source fcBad swept => exact execResetErrorDetected_evolves source fcBad swept s (.rfl' s)
  | firmwareWatchdogExpire fcBad swept => exact execFirmwareWatchdogExpire_evolves fcBad swept s (.rfl' s)
  | mapUnitPageIn unitType unit => exact execMapUnitPageIn_evolves unitType unit s (.rfl' s)
  | mapResident => exact execMapResident_evolves s (.rfl' s)
  | linkTrainingDone speed width failed => exact execLinkTrainingDone_evolves speed width failed s (.rfl' s)
  | fabricBind endpoint => exact execFabricBind_evolves endpoint s (.rfl' s)
  | fabricUnbind => exact execFabricUnbind_evolves s (.rfl' s)
  | hostReadRequest key addr tag => exact execHostReadRequest_evolves key addr tag s (.rfl' s)
  | hostWriteRequest key addr tag data be poison => exact execHostWriteRequest_evolves key addr tag data be poison s (.rfl' s)
  | ingressDispatch slice => exact execIngressDispatch_evolves slice s (.rfl' s)
  | sliceLookup slice fault bank row queued => exact execSliceLookup_evolves slice fault bank row queued s (.rfl' s)
  | missSlotFreed slice set fault => exact execMissSlotFreed_evolves slice set fault s (.rfl' s)
  | missTableEntryFreed slice fault => exact execMissTableEntryFreed_evolves slice fault s (.rfl' s)
  | sliceMissSideSleep slice => exact execSliceMissSideSleep_evolves slice s (.rfl' s)
  | channelClockStop ch => exact execChannelClockStop_evolves ch s (.rfl' s)
  | programSuspendForRead pos ch => exact execProgramSuspendForRead_evolves pos ch s (.rfl' s)
  | deferredDirectRead miss => exact execDeferredDirectRead_evolves miss s (.rfl' s)
  | codewordDecoded miss ch r corrected offsets => exact execCodewordDecoded_evolves miss ch r corrected offsets s (.rfl' s)
  | stripeCombineDone miss r => exact execStripeCombineDone_evolves miss r s (.rfl' s)
  | prefetchDone pf r => exact execPrefetchDone_evolves pf r s (.rfl' s)
  | tierFillDone sector => exact execTierFillDone_evolves sector s (.rfl' s)
  | mergeBaseArrived line dramBad => exact execMergeBaseArrived_evolves line dramBad s (.rfl' s)
  | writeAdmit => exact execWriteAdmit_evolves s (.rfl' s)
  | writesHeld => exact execWritesHeld_evolves s (.rfl' s)
  | frontCacheEvict slice set fault => exact execFrontCacheEvict_evolves slice set fault s (.rfl' s)
  | tierSectorFreed slice set => exact execTierSectorFreed_evolves slice set s (.rfl' s)
  | writebackStart reads => exact execWritebackStart_evolves reads s (.rfl' s)
  | dirtyAgeExpired => exact execDirtyAgeExpired_evolves s (.rfl' s)
  | leaveGrant => exact execLeaveGrant_evolves s (.rfl' s)
  | windowTokenGrant pos => exact execWindowTokenGrant_evolves pos s (.rfl' s)
  | windowEnd pos => exact execWindowEnd_evolves pos s (.rfl' s)
  | programPassDone pass failed damaged lostPages reads =>
    exact execProgramPassDone_evolves pass failed damaged lostPages reads s (.rfl' s)
  | pageVerify ppa corrected converged damaged lostPages =>
    exact execPageVerify_evolves ppa corrected converged damaged lostPages s (.rfl' s)
  | closeVerifyDone group failed weak lostPages => exact execCloseVerifyDone_evolves group failed weak lostPages s (.rfl' s)
  | blockResetDone group failedCols => exact execBlockResetDone_evolves group failedCols s (.rfl' s)
  | dieFailed pos ch lostPages => exact execDieFailed_evolves pos ch lostPages s (.rfl' s)
  | rebuildPhaseDone => exact execRebuildPhaseDone_evolves s (.rfl' s)
  | lapStart => exact execLapStart_evolves s (.rfl' s)
  | lapComplete => exact execLapComplete_evolves s (.rfl' s)
  | skimVictimSelect => exact execSkimVictimSelect_evolves s (.rfl' s)
  | idleSkimStart => exact execIdleSkimStart_evolves s (.rfl' s)
  | copySetSwitch victim bad => exact execCopySetSwitch_evolves victim bad s (.rfl' s)
  | repourStart => exact execRepourStart_evolves s (.rfl' s)
  | ripeningCellUpdate pkg cls band => exact execRipeningCellUpdate_evolves pkg cls band s (.rfl' s)
  | strainerLapEnd => exact execStrainerLapEnd_evolves s (.rfl' s)
  | strainerFinding ppa codeword f => exact execStrainerFinding_evolves ppa codeword f s (.rfl' s)
  | brineDropReport => exact execBrineDropReport_evolves s (.rfl' s)
  | housekeepingRound readings => exact execHousekeepingRound_evolves readings s (.rfl' s)
  | throttleLeave zone => exact execThrottleLeave_evolves zone s (.rfl' s)
  | sensorRestored ch => exact execSensorRestored_evolves ch s (.rfl' s)
  | railFault ch => exact execRailFault_evolves ch s (.rfl' s)
  | chargeVoltageRaise => exact execChargeVoltageRaise_evolves s (.rfl' s)
  | capacitanceMeasure capA capB fault => exact execCapacitanceMeasure_evolves capA capB fault s (.rfl' s)
  | criticalRecheck ch reading => exact execCriticalRecheck_evolves ch reading s (.rfl' s)
  | baseDrawMeasure inputMw => exact execBaseDrawMeasure_evolves inputMw s (.rfl' s)
  | pacingStep => exact execPacingStep_evolves s (.rfl' s)
  | deliverableRecompute => exact execDeliverableRecompute_evolves s (.rfl' s)
  | latencyMissReport cls => exact execLatencyMissReport_evolves cls s (.rfl' s)
  | boundConditionClear bit => exact execBoundConditionClear_evolves bit s (.rfl' s)
  | gillLeak domain => exact execGillLeak_evolves domain s (.rfl' s)
  | pailReset kind inst => exact execPailReset_evolves kind inst s (.rfl' s)
  | dramPageCloseTimeout subchannel bank => exact execDramPageCloseTimeout_evolves subchannel bank s (.rfl' s)
  | refreshPeriodEnd => exact execRefreshPeriodEnd_evolves s (.rfl' s)
  | dramRetrainStep => exact execDramRetrainStep_evolves s (.rfl' s)
  | retrain w mask => exact execRetrain_evolves w mask s (.rfl' s)
  | reservedRead key addr tag fault => exact execReservedRead_evolves key addr tag fault s (.rfl' s)
  | reservationTableRoom slice fault => exact execReservationTableRoom_evolves slice fault s (.rfl' s)
  | conditionalWrite key addr tag data be poison => exact execConditionalWrite_evolves key addr tag data be poison s (.rfl' s)
  | yokeTrainingDone speed width credits => exact execYokeTrainingDone_evolves speed width credits s (.rfl' s)
  | yokeFrameReceive frame => exact execYokeFrameReceive_evolves frame s (.rfl' s)
  | yokeRetransmit => exact execYokeRetransmit_evolves s (.rfl' s)
  | forward m => exact execForward_evolves m s (.rfl' s)
  | mirror m => exact execMirror_evolves m s (.rfl' s)
  | ordered tag outcome => exact execOrdered_evolves tag outcome s (.rfl' s)
  | mirrorAck tag => exact execMirrorAck_evolves tag s (.rfl' s)
  | readForward tag line => exact execReadForward_evolves tag line s (.rfl' s)
  | readData tag line data poisoned lineOk => exact execReadData_evolves tag line data poisoned lineOk s (.rfl' s)
  | resyncGrainRead reads => exact execResyncGrainRead_evolves reads s (.rfl' s)
  | resyncSector grain sector st data poison crcBad => exact execResyncSector_evolves grain sector st data poison crcBad s (.rfl' s)
  | resyncAck grain => exact execResyncAck_evolves grain s (.rfl' s)
  | resyncClear grain => exact execResyncClear_evolves grain s (.rfl' s)
  | bitmapUnit unit set => exact execBitmapUnit_evolves unit set s (.rfl' s)
  | heartbeatSend => exact execHeartbeatSend_evolves s (.rfl' s)
  | heartbeat m => exact execHeartbeat_evolves m s (.rfl' s)
  | hello m x => exact execHello_evolves m x s (.rfl' s)
  | standDown m => exact execStandDown_evolves m s (.rfl' s)
  | moduleStandDown cause => exact execModuleStandDown_evolves cause s (.rfl' s)
  | yokeDictionary msg => exact execYokeDictionary_evolves msg s (.rfl' s)
  | commitPrepare batch seg last recs => exact execCommitPrepare_evolves batch seg last recs s (.rfl' s)
  | commitVote batch code => exact execCommitVote_evolves batch code s (.rfl' s)
  | commitApply batch => exact execCommitApply_evolves batch s (.rfl' s)
  | commitDone batch => exact execCommitDone_evolves batch s (.rfl' s)
  | notice code keyId base length => exact execNotice_evolves code keyId base length s (.rfl' s)
  | grainChange grain st => exact execGrainChange_evolves grain st s (.rfl' s)
  | grainChangeAck grain => exact execGrainChangeAck_evolves grain s (.rfl' s)
  | yokeSilent => exact execYokeSilent_evolves s (.rfl' s)
  | aliveWireState serving => exact execAliveWireState_evolves serving s (.rfl' s)
  | aliveWireSilent => exact execAliveWireSilent_evolves s (.rfl' s)
  | pulseSend => exact execPulseSend_evolves s (.rfl' s)
  | pulse m => exact execPulse_evolves m s (.rfl' s)
  | pulseSilent => exact execPulseSilent_evolves s (.rfl' s)
  | suspectDecision => exact execSuspectDecision_evolves s (.rfl' s)
  | juniorFenceDelay => exact execJuniorFenceDelay_evolves s (.rfl' s)
  | seniorFenceWait => exact execSeniorFenceWait_evolves s (.rfl' s)
  | takeoverSilence => exact execTakeoverSilence_evolves s (.rfl' s)
  | join w => exact execJoin_evolves w s (.rfl' s)
  | prevail w => exact execPrevail_evolves w s (.rfl' s)
  | forceSole w => exact execForceSole_evolves w s (.rfl' s)
  | withdraw w => exact execWithdraw_evolves w s (.rfl' s)
  | leave w => exact execLeave_evolves w s (.rfl' s)
  | getEventRecords w log => exact execGetEventRecords_evolves w log s (.rfl' s)
  | clearEventRecords w log all handles => exact execClearEventRecords_evolves w log all handles s (.rfl' s)
  | getEventInterruptPolicy w => exact execGetEventInterruptPolicy_evolves w s (.rfl' s)
  | setEventInterruptPolicy w enables => exact execSetEventInterruptPolicy_evolves w enables s (.rfl' s)
  | getFwInfo w => exact execGetFwInfo_evolves w s (.rfl' s)
  | transferFw w offset data => exact execTransferFw_evolves w offset data s (.rfl' s)
  | activateFw w => exact execActivateFw_evolves w s (.rfl' s)
  | getTimestamp w => exact execGetTimestamp_evolves w s (.rfl' s)
  | setTimestamp w t => exact execSetTimestamp_evolves w t s (.rfl' s)
  | getSupportedLogs w => exact execGetSupportedLogs_evolves w s (.rfl' s)
  | getLog w log => exact execGetLog_evolves w log s (.rfl' s)
  | identifyMemoryDevice w => exact execIdentifyMemoryDevice_evolves w s (.rfl' s)
  | getPartitionInfo w => exact execGetPartitionInfo_evolves w s (.rfl' s)
  | getHealthInfo w => exact execGetHealthInfo_evolves w s (.rfl' s)
  | getAlertConfiguration w => exact execGetAlertConfiguration_evolves w s (.rfl' s)
  | setAlertConfiguration w life temperature volatileErr persistentErr =>
    exact execSetAlertConfiguration_evolves w life temperature volatileErr persistentErr s (.rfl' s)
  | getShutdownState w => exact execGetShutdownState_evolves w s (.rfl' s)
  | setShutdownState w st => exact execSetShutdownState_evolves w st s (.rfl' s)
  | getPoisonList w base length => exact execGetPoisonList_evolves w base length s (.rfl' s)
  | clearPoison w addr data => exact execClearPoison_evolves w addr data s (.rfl' s)
  | scanMediaCapabilities w base length => exact execScanMediaCapabilities_evolves w base length s (.rfl' s)
  | scanMedia w base length flags => exact execScanMedia_evolves w base length flags s (.rfl' s)
  | getScanMediaResults w => exact execGetScanMediaResults_evolves w s (.rfl' s)
  | sanitize w => exact execSanitize_evolves w s (.rfl' s)
  | secureErase w => exact execSecureErase_evolves w s (.rfl' s)
  | backgroundCommandDone => exact execBackgroundCommandDone_evolves s (.rfl' s)
  | dictionaryTransfer w payload => exact execDictionaryTransfer_evolves w payload s (.rfl' s)
  | unsupportedCommand w opcode => exact execUnsupportedCommand_evolves w opcode s (.rfl' s)
  | notifySend cond => exact execNotifySend_evolves cond s (.rfl' s)
  | notifyResend cond => exact execNotifyResend_evolves cond s (.rfl' s)
  | notifyAck cond seq => exact execNotifyAck_evolves cond seq s (.rfl' s)
  | i3cAddressAssigned addr => exact execI3cAddressAssigned_evolves addr s (.rfl' s)
  | setEndpointId route eid => exact execSetEndpointId_evolves route eid s (.rfl' s)
  | smbrstAssert => exact execSmbrstAssert_evolves s (.rfl' s)
  | dtpRead w tid index sub => exact execDtpRead_evolves w tid index sub s (.rfl' s)
  | dtpWrite w tid index sub data => exact execDtpWrite_evolves w tid index sub data s (.rfl' s)
  | dtpReadInitiate w tid index sub => exact execDtpReadInitiate_evolves w tid index sub s (.rfl' s)
  | dtpReadSegment w tid toggle => exact execDtpReadSegment_evolves w tid toggle s (.rfl' s)
  | dtpWriteInitiate w tid index sub total => exact execDtpWriteInitiate_evolves w tid index sub total s (.rfl' s)
  | dtpWriteSegment w tid toggle last data => exact execDtpWriteSegment_evolves w tid toggle last data s (.rfl' s)
  | dtpAbort w tid code => exact execDtpAbort_evolves w tid code s (.rfl' s)
  | segmentTimeout route => exact execSegmentTimeout_evolves route s (.rfl' s)
  | dictionaryWrite w index sub data => exact execDictionaryWrite_evolves w index sub data s (.rfl' s)
  | commitBatch w logFault => exact execCommitBatch_evolves w logFault s (.rfl' s)
  | discardBatch w => exact execDiscardBatch_evolves w s (.rfl' s)
  | passwordPresent w area kind pw => exact execPasswordPresent_evolves w area kind pw s (.rfl' s)
  | passwordLock w => exact execPasswordLock_evolves w s (.rfl' s)
  | presentationTimeout role => exact execPresentationTimeout_evolves role s (.rfl' s)
  | passwordLockoutEnd role => exact execPasswordLockoutEnd_evolves role s (.rfl' s)
  | setPassword w area kind pw => exact execSetPassword_evolves w area kind pw s (.rfl' s)
  | restoreDefaults w => exact execRestoreDefaults_evolves w s (.rfl' s)
  | areaDataWrite w data => exact execAreaDataWrite_evolves w data s (.rfl' s)
  | zeroRangeStart w => exact execZeroRangeStart_evolves w s (.rfl' s)
  | zeroRangeDone => exact execZeroRangeDone_evolves s (.rfl' s)
  | discardStart w => exact execDiscardStart_evolves w s (.rfl' s)
  | secureDiscardStart w => exact execSecureDiscardStart_evolves w s (.rfl' s)
  | secureDiscardDone => exact execSecureDiscardDone_evolves s (.rfl' s)
  | cryptoDiscardStart w => exact execCryptoDiscardStart_evolves w s (.rfl' s)
  | cryptoDiscardDone => exact execCryptoDiscardDone_evolves s (.rfl' s)
  | cryptoDiscardSweep => exact execCryptoDiscardSweep_evolves s (.rfl' s)
  | scrubStart w => exact execScrubStart_evolves w s (.rfl' s)
  | scrubCancel w => exact execScrubCancel_evolves w s (.rfl' s)
  | scrubPassDone errors => exact execScrubPassDone_evolves errors s (.rfl' s)
  | brineRelease w => exact execBrineRelease_evolves w s (.rfl' s)
  | rekey w => exact execRekey_evolves w s (.rfl' s)
  | prepareShutdownStart w => exact execPrepareShutdownStart_evolves w s (.rfl' s)
  | prepareShutdownCancel w => exact execPrepareShutdownCancel_evolves w s (.rfl' s)
  | shutdownPrepared => exact execShutdownPrepared_evolves s (.rfl' s)
  | identifyStart w => exact execIdentifyStart_evolves w s (.rfl' s)
  | identifyStop w => exact execIdentifyStop_evolves w s (.rfl' s)
  | identifyExpire => exact execIdentifyExpire_evolves s (.rfl' s)
  | keyGenerate w => exact execKeyGenerate_evolves w s (.rfl' s)
  | keyImport w v => exact execKeyImport_evolves w v s (.rfl' s)
  | keyRegenerate w => exact execKeyRegenerate_evolves w s (.rfl' s)
  | attestSign w => exact execAttestSign_evolves w s (.rfl' s)
  | attestSignDone => exact execAttestSignDone_evolves s (.rfl' s)
  | frontCacheDisable w => exact execFrontCacheDisable_evolves w s (.rfl' s)
  | frontCacheDrained => exact execFrontCacheDrained_evolves s (.rfl' s)
  | frontCacheEnable w => exact execFrontCacheEnable_evolves w s (.rfl' s)
  | rangeClean w found => exact execRangeClean_evolves w found s (.rfl' s)
  | rangeInvalidate w found => exact execRangeInvalidate_evolves w found s (.rfl' s)
  | lineLock w found => exact execLineLock_evolves w found s (.rfl' s)
  | lineZero w => exact execLineZero_evolves w s (.rfl' s)
  | maintenanceDone k => exact execMaintenanceDone_evolves k s (.rfl' s)
  | fwBegin w => exact execFwBegin_evolves w s (.rfl' s)
  | fwChunk w data => exact execFwChunk_evolves w data s (.rfl' s)
  | fwVerify w => exact execFwVerify_evolves w s (.rfl' s)
  | fwActivate w => exact execFwActivate_evolves w s (.rfl' s)
  | fwCancel w => exact execFwCancel_evolves w s (.rfl' s)
  | fwOperationDone v => exact execFwOperationDone_evolves v s (.rfl' s)
  | testStateEnter w => exact execTestStateEnter_evolves w s (.rfl' s)
  | testStateLeave w => exact execTestStateLeave_evolves w s (.rfl' s)
  | selfTestStart w => exact execSelfTestStart_evolves w s (.rfl' s)
  | selfTestCancel w => exact execSelfTestCancel_evolves w s (.rfl' s)
  | selfTestDone errors first badBlocks => exact execSelfTestDone_evolves errors first badBlocks s (.rfl' s)
  | readBackData w => exact execReadBackData_evolves w s (.rfl' s)
  | counterSnapshot w => exact execCounterSnapshot_evolves w s (.rfl' s)
  | counterSnapshotClear w => exact execCounterSnapshotClear_evolves w s (.rfl' s)
  | counterWrap block n addr partner => exact execCounterWrap_evolves block n addr partner s (.rfl' s)
  | overflowClear w block mask => exact execOverflowClear_evolves w block mask s (.rfl' s)
  | firkinPeriodClose => exact execFirkinPeriodClose_evolves s (.rfl' s)
  | firkinFreeze w => exact execFirkinFreeze_evolves w s (.rfl' s)
  | firkinThaw w => exact execFirkinThaw_evolves w s (.rfl' s)
  | firkinAutoThaw => exact execFirkinAutoThaw_evolves s (.rfl' s)
  | eventPailRead w => exact execEventPailRead_evolves w s (.rfl' s)
  | eventPailDropRemainder w => exact execEventPailDropRemainder_evolves w s (.rfl' s)
  | overrunRead w => exact execOverrunRead_evolves w s (.rfl' s)
  | powerBudgetWrite w mw => exact execPowerBudgetWrite_evolves w mw s (.rfl' s)
  | perstDeassert => exact execPerstDeassert_evolves s (.rfl' s)
  | auxPowerLoss => exact execAuxPowerLoss_evolves s (.rfl' s)
  | auxPowerArrive => exact execAuxPowerArrive_evolves s (.rfl' s)
  | criticalLatchClear => exact execCriticalLatchClear_evolves s (.rfl' s)
  | smbrstDeassert => exact execSmbrstDeassert_evolves s (.rfl' s)
  | i3cDynamicAddressReset => exact execI3cDynamicAddressReset_evolves s (.rfl' s)
  | counterSnapshotReady => exact execCounterSnapshotReady_evolves s (.rfl' s)
  | discardDone => exact execDiscardDone_evolves s (.rfl' s)
  | strainerDramLapEnd errors => exact execStrainerDramLapEnd_evolves errors s (.rfl' s)
  | keyUnwrapDone id => exact execKeyUnwrapDone_evolves id s (.rfl' s)
  | boundaryScanInstruction opcode => exact execBoundaryScanInstruction_evolves opcode s (.rfl' s)

/-- Every command answers a next state with the identity and the queue of waiting commands as they were. -/
theorem exec_keeps (c : Instr) (s : State) : Answers s Part.most (exec c s) := by
  have same := State.keepsBut_refl Part.most s
  cases c with
  | powerUp main aux lost => exact execPowerUp_keeps main aux lost s (by decide) same
  | firmwareVerifyDone v trainFail badPages => exact execFirmwareVerifyDone_keeps v trainFail badPages s (by decide) same
  | dumpReplayDone badLines => exact execDumpReplayDone_keeps badLines s (by decide) same
  | memoryActiveSet => exact execMemoryActiveSet_keeps s (by decide) same
  | imageRetire => exact execImageRetire_keeps s (by decide) same
  | retiredImageReset number => exact execRetiredImageReset_keeps number s (by decide) same
  | powerLossConfirmed => exact execPowerLossConfirmed_keeps s (by decide) same
  | overvoltageTrip => exact execOvervoltageTrip_keeps s (by decide) same
  | pwrdisAssert => exact execPwrdisAssert_keeps s (by decide) same
  | pwrdisDeassert => exact execPwrdisDeassert_keeps s (by decide) same
  | dumpWindowsEnded fcBad dramBad => exact execDumpWindowsEnded_keeps fcBad dramBad s (by decide) same
  | dumpSealed => exact execDumpSealed_keeps s (by decide) same
  | bankExhausted => exact execBankExhausted_keeps s (by decide) same
  | mainReturnDuringDump => exact execMainReturnDuringDump_keeps s (by decide) same
  | warmReset perst => exact execWarmReset_keeps perst s (by decide) same
  | functionLevelReset => exact execFunctionLevelReset_keeps s (by decide) same
  | resetErrorDetected source fcBad swept => exact execResetErrorDetected_keeps source fcBad swept s (by decide) same
  | firmwareWatchdogExpire fcBad swept => exact execFirmwareWatchdogExpire_keeps fcBad swept s (by decide) same
  | mapUnitPageIn unitType unit => exact execMapUnitPageIn_keeps unitType unit s (by decide) same
  | mapResident => exact execMapResident_keeps s (by decide) same
  | linkTrainingDone speed width failed => exact execLinkTrainingDone_keeps speed width failed s (by decide) same
  | fabricBind endpoint => exact execFabricBind_keeps endpoint s (by decide) same
  | fabricUnbind => exact execFabricUnbind_keeps s (by decide) same
  | hostReadRequest key addr tag => exact execHostReadRequest_keeps key addr tag s (by decide) same
  | hostWriteRequest key addr tag data be poison => exact execHostWriteRequest_keeps key addr tag data be poison s (by decide) same
  | ingressDispatch slice => exact execIngressDispatch_keeps slice s (by decide) same
  | sliceLookup slice fault bank row queued => exact execSliceLookup_keeps slice fault bank row queued s (by decide) same
  | missSlotFreed slice set fault => exact execMissSlotFreed_keeps slice set fault s (by decide) same
  | missTableEntryFreed slice fault => exact execMissTableEntryFreed_keeps slice fault s (by decide) same
  | sliceMissSideSleep slice => exact execSliceMissSideSleep_keeps slice s (by decide) same
  | channelClockStop ch => exact execChannelClockStop_keeps ch s (by decide) same
  | programSuspendForRead pos ch => exact execProgramSuspendForRead_keeps pos ch s (by decide) same
  | deferredDirectRead miss => exact execDeferredDirectRead_keeps miss s (by decide) same
  | codewordDecoded miss ch r corrected offsets => exact execCodewordDecoded_keeps miss ch r corrected offsets s (by decide) same
  | stripeCombineDone miss r => exact execStripeCombineDone_keeps miss r s (by decide) same
  | prefetchDone pf r => exact execPrefetchDone_keeps pf r s (by decide) same
  | tierFillDone sector => exact execTierFillDone_keeps sector s (by decide) same
  | mergeBaseArrived line dramBad => exact execMergeBaseArrived_keeps line dramBad s (by decide) same
  | writeAdmit => exact execWriteAdmit_keeps s (by decide) same
  | writesHeld => exact execWritesHeld_keeps s (by decide) same
  | frontCacheEvict slice set fault => exact execFrontCacheEvict_keeps slice set fault s (by decide) same
  | tierSectorFreed slice set => exact execTierSectorFreed_keeps slice set s (by decide) same
  | writebackStart reads => exact execWritebackStart_keeps reads s (by decide) same
  | dirtyAgeExpired => exact execDirtyAgeExpired_keeps s (by decide) same
  | leaveGrant => exact execLeaveGrant_keeps s (by decide) same
  | windowTokenGrant pos => exact execWindowTokenGrant_keeps pos s (by decide) same
  | windowEnd pos => exact execWindowEnd_keeps pos s (by decide) same
  | programPassDone pass failed damaged lostPages reads =>
    exact execProgramPassDone_keeps pass failed damaged lostPages reads s (by decide) same
  | pageVerify ppa corrected converged damaged lostPages =>
    exact execPageVerify_keeps ppa corrected converged damaged lostPages s (by decide) same
  | closeVerifyDone group failed weak lostPages => exact execCloseVerifyDone_keeps group failed weak lostPages s (by decide) same
  | blockResetDone group failedCols => exact execBlockResetDone_keeps group failedCols s (by decide) same
  | dieFailed pos ch lostPages => exact execDieFailed_keeps pos ch lostPages s (by decide) same
  | rebuildPhaseDone => exact execRebuildPhaseDone_keeps s (by decide) same
  | lapStart => exact execLapStart_keeps s (by decide) same
  | lapComplete => exact execLapComplete_keeps s (by decide) same
  | skimVictimSelect => exact execSkimVictimSelect_keeps s (by decide) same
  | idleSkimStart => exact execIdleSkimStart_keeps s (by decide) same
  | copySetSwitch victim bad => exact execCopySetSwitch_keeps victim bad s (by decide) same
  | repourStart => exact execRepourStart_keeps s (by decide) same
  | ripeningCellUpdate pkg cls band => exact execRipeningCellUpdate_keeps pkg cls band s (by decide) same
  | strainerLapEnd => exact execStrainerLapEnd_keeps s (by decide) same
  | strainerFinding ppa codeword f => exact execStrainerFinding_keeps ppa codeword f s (by decide) same
  | brineDropReport => exact execBrineDropReport_keeps s (by decide) same
  | housekeepingRound readings => exact execHousekeepingRound_keeps readings s (by decide) same
  | throttleLeave zone => exact execThrottleLeave_keeps zone s (by decide) same
  | sensorRestored ch => exact execSensorRestored_keeps ch s (by decide) same
  | railFault ch => exact execRailFault_keeps ch s (by decide) same
  | chargeVoltageRaise => exact execChargeVoltageRaise_keeps s (by decide) same
  | capacitanceMeasure capA capB fault => exact execCapacitanceMeasure_keeps capA capB fault s (by decide) same
  | criticalRecheck ch reading => exact execCriticalRecheck_keeps ch reading s (by decide) same
  | baseDrawMeasure inputMw => exact execBaseDrawMeasure_keeps inputMw s (by decide) same
  | pacingStep => exact execPacingStep_keeps s (by decide) same
  | deliverableRecompute => exact execDeliverableRecompute_keeps s (by decide) same
  | latencyMissReport cls => exact execLatencyMissReport_keeps cls s (by decide) same
  | boundConditionClear bit => exact execBoundConditionClear_keeps bit s (by decide) same
  | gillLeak domain => exact execGillLeak_keeps domain s (by decide) same
  | pailReset kind inst => exact execPailReset_keeps kind inst s (by decide) same
  | dramPageCloseTimeout subchannel bank => exact execDramPageCloseTimeout_keeps subchannel bank s (by decide) same
  | refreshPeriodEnd => exact execRefreshPeriodEnd_keeps s (by decide) same
  | dramRetrainStep => exact execDramRetrainStep_keeps s (by decide) same
  | retrain w mask => exact execRetrain_keeps w mask s (by decide) same
  | reservedRead key addr tag fault => exact execReservedRead_keeps key addr tag fault s (by decide) same
  | reservationTableRoom slice fault => exact execReservationTableRoom_keeps slice fault s (by decide) same
  | conditionalWrite key addr tag data be poison => exact execConditionalWrite_keeps key addr tag data be poison s (by decide) same
  | yokeTrainingDone speed width credits => exact execYokeTrainingDone_keeps speed width credits s (by decide) same
  | yokeFrameReceive frame => exact execYokeFrameReceive_keeps frame s (by decide) same
  | yokeRetransmit => exact execYokeRetransmit_keeps s (by decide) same
  | forward m => exact execForward_keeps m s (by decide) same
  | mirror m => exact execMirror_keeps m s (by decide) same
  | ordered tag outcome => exact execOrdered_keeps tag outcome s (by decide) same
  | mirrorAck tag => exact execMirrorAck_keeps tag s (by decide) same
  | readForward tag line => exact execReadForward_keeps tag line s (by decide) same
  | readData tag line data poisoned lineOk => exact execReadData_keeps tag line data poisoned lineOk s (by decide) same
  | resyncGrainRead reads => exact execResyncGrainRead_keeps reads s (by decide) same
  | resyncSector grain sector st data poison crcBad =>
    exact execResyncSector_keeps grain sector st data poison crcBad s (by decide) same
  | resyncAck grain => exact execResyncAck_keeps grain s (by decide) same
  | resyncClear grain => exact execResyncClear_keeps grain s (by decide) same
  | bitmapUnit unit set => exact execBitmapUnit_keeps unit set s (by decide) same
  | heartbeatSend => exact execHeartbeatSend_keeps s (by decide) same
  | heartbeat m => exact execHeartbeat_keeps m s (by decide) same
  | hello m x => exact execHello_keeps m x s (by decide) same
  | standDown m => exact execStandDown_keeps m s (by decide) same
  | moduleStandDown cause => exact execModuleStandDown_keeps cause s (by decide) same
  | yokeDictionary msg => exact execYokeDictionary_keeps msg s (by decide) same
  | commitPrepare batch seg last recs => exact execCommitPrepare_keeps batch seg last recs s (by decide) same
  | commitVote batch code => exact execCommitVote_keeps batch code s (by decide) same
  | commitApply batch => exact execCommitApply_keeps batch s (by decide) same
  | commitDone batch => exact execCommitDone_keeps batch s (by decide) same
  | notice code keyId base length => exact execNotice_keeps code keyId base length s (by decide) same
  | grainChange grain st => exact execGrainChange_keeps grain st s (by decide) same
  | grainChangeAck grain => exact execGrainChangeAck_keeps grain s (by decide) same
  | yokeSilent => exact execYokeSilent_keeps s (by decide) same
  | aliveWireState serving => exact execAliveWireState_keeps serving s (by decide) same
  | aliveWireSilent => exact execAliveWireSilent_keeps s (by decide) same
  | pulseSend => exact execPulseSend_keeps s (by decide) same
  | pulse m => exact execPulse_keeps m s (by decide) same
  | pulseSilent => exact execPulseSilent_keeps s (by decide) same
  | suspectDecision => exact execSuspectDecision_keeps s (by decide) same
  | juniorFenceDelay => exact execJuniorFenceDelay_keeps s (by decide) same
  | seniorFenceWait => exact execSeniorFenceWait_keeps s (by decide) same
  | takeoverSilence => exact execTakeoverSilence_keeps s (by decide) same
  | join w => exact execJoin_keeps w s (by decide) same
  | prevail w => exact execPrevail_keeps w s (by decide) same
  | forceSole w => exact execForceSole_keeps w s (by decide) same
  | withdraw w => exact execWithdraw_keeps w s (by decide) same
  | leave w => exact execLeave_keeps w s (by decide) same
  | getEventRecords w log => exact execGetEventRecords_keeps w log s (by decide) same
  | clearEventRecords w log all handles => exact execClearEventRecords_keeps w log all handles s (by decide) same
  | getEventInterruptPolicy w => exact execGetEventInterruptPolicy_keeps w s (by decide) same
  | setEventInterruptPolicy w enables => exact execSetEventInterruptPolicy_keeps w enables s (by decide) same
  | getFwInfo w => exact execGetFwInfo_keeps w s (by decide) same
  | transferFw w offset data => exact execTransferFw_keeps w offset data s (by decide) same
  | activateFw w => exact execActivateFw_keeps w s (by decide) same
  | getTimestamp w => exact execGetTimestamp_keeps w s (by decide) same
  | setTimestamp w t => exact execSetTimestamp_keeps w t s (by decide) same
  | getSupportedLogs w => exact execGetSupportedLogs_keeps w s (by decide) same
  | getLog w log => exact execGetLog_keeps w log s (by decide) same
  | identifyMemoryDevice w => exact execIdentifyMemoryDevice_keeps w s (by decide) same
  | getPartitionInfo w => exact execGetPartitionInfo_keeps w s (by decide) same
  | getHealthInfo w => exact execGetHealthInfo_keeps w s (by decide) same
  | getAlertConfiguration w => exact execGetAlertConfiguration_keeps w s (by decide) same
  | setAlertConfiguration w life temperature volatileErr persistentErr =>
    exact execSetAlertConfiguration_keeps w life temperature volatileErr persistentErr s (by decide) same
  | getShutdownState w => exact execGetShutdownState_keeps w s (by decide) same
  | setShutdownState w st => exact execSetShutdownState_keeps w st s (by decide) same
  | getPoisonList w base length => exact execGetPoisonList_keeps w base length s (by decide) same
  | clearPoison w addr data => exact execClearPoison_keeps w addr data s (by decide) same
  | scanMediaCapabilities w base length => exact execScanMediaCapabilities_keeps w base length s (by decide) same
  | scanMedia w base length flags => exact execScanMedia_keeps w base length flags s (by decide) same
  | getScanMediaResults w => exact execGetScanMediaResults_keeps w s (by decide) same
  | sanitize w => exact execSanitize_keeps w s (by decide) same
  | secureErase w => exact execSecureErase_keeps w s (by decide) same
  | backgroundCommandDone => exact execBackgroundCommandDone_keeps s (by decide) same
  | dictionaryTransfer w payload => exact execDictionaryTransfer_keeps w payload s (by decide) same
  | unsupportedCommand w opcode => exact execUnsupportedCommand_keeps w opcode s (by decide) same
  | notifySend cond => exact execNotifySend_keeps cond s (by decide) same
  | notifyResend cond => exact execNotifyResend_keeps cond s (by decide) same
  | notifyAck cond seq => exact execNotifyAck_keeps cond seq s (by decide) same
  | i3cAddressAssigned addr => exact execI3cAddressAssigned_keeps addr s (by decide) same
  | setEndpointId route eid => exact execSetEndpointId_keeps route eid s (by decide) same
  | smbrstAssert => exact execSmbrstAssert_keeps s (by decide) same
  | dtpRead w tid index sub => exact execDtpRead_keeps w tid index sub s (by decide) same
  | dtpWrite w tid index sub data => exact execDtpWrite_keeps w tid index sub data s (by decide) same
  | dtpReadInitiate w tid index sub => exact execDtpReadInitiate_keeps w tid index sub s (by decide) same
  | dtpReadSegment w tid toggle => exact execDtpReadSegment_keeps w tid toggle s (by decide) same
  | dtpWriteInitiate w tid index sub total => exact execDtpWriteInitiate_keeps w tid index sub total s (by decide) same
  | dtpWriteSegment w tid toggle last data => exact execDtpWriteSegment_keeps w tid toggle last data s (by decide) same
  | dtpAbort w tid code => exact execDtpAbort_keeps w tid code s (by decide) same
  | segmentTimeout route => exact execSegmentTimeout_keeps route s (by decide) same
  | dictionaryWrite w index sub data => exact execDictionaryWrite_keeps w index sub data s (by decide) same
  | commitBatch w logFault => exact execCommitBatch_keeps w logFault s (by decide) same
  | discardBatch w => exact execDiscardBatch_keeps w s (by decide) same
  | passwordPresent w area kind pw => exact execPasswordPresent_keeps w area kind pw s (by decide) same
  | passwordLock w => exact execPasswordLock_keeps w s (by decide) same
  | presentationTimeout role => exact execPresentationTimeout_keeps role s (by decide) same
  | passwordLockoutEnd role => exact execPasswordLockoutEnd_keeps role s (by decide) same
  | setPassword w area kind pw => exact execSetPassword_keeps w area kind pw s (by decide) same
  | restoreDefaults w => exact execRestoreDefaults_keeps w s (by decide) same
  | areaDataWrite w data => exact execAreaDataWrite_keeps w data s (by decide) same
  | zeroRangeStart w => exact execZeroRangeStart_keeps w s (by decide) same
  | zeroRangeDone => exact execZeroRangeDone_keeps s (by decide) same
  | discardStart w => exact execDiscardStart_keeps w s (by decide) same
  | secureDiscardStart w => exact execSecureDiscardStart_keeps w s (by decide) same
  | secureDiscardDone => exact execSecureDiscardDone_keeps s (by decide) same
  | cryptoDiscardStart w => exact execCryptoDiscardStart_keeps w s (by decide) same
  | cryptoDiscardDone => exact execCryptoDiscardDone_keeps s (by decide) same
  | cryptoDiscardSweep => exact execCryptoDiscardSweep_keeps s (by decide) same
  | scrubStart w => exact execScrubStart_keeps w s (by decide) same
  | scrubCancel w => exact execScrubCancel_keeps w s (by decide) same
  | scrubPassDone errors => exact execScrubPassDone_keeps errors s (by decide) same
  | brineRelease w => exact execBrineRelease_keeps w s (by decide) same
  | rekey w => exact execRekey_keeps w s (by decide) same
  | prepareShutdownStart w => exact execPrepareShutdownStart_keeps w s (by decide) same
  | prepareShutdownCancel w => exact execPrepareShutdownCancel_keeps w s (by decide) same
  | shutdownPrepared => exact execShutdownPrepared_keeps s (by decide) same
  | identifyStart w => exact execIdentifyStart_keeps w s (by decide) same
  | identifyStop w => exact execIdentifyStop_keeps w s (by decide) same
  | identifyExpire => exact execIdentifyExpire_keeps s (by decide) same
  | keyGenerate w => exact execKeyGenerate_keeps w s (by decide) same
  | keyImport w v => exact execKeyImport_keeps w v s (by decide) same
  | keyRegenerate w => exact execKeyRegenerate_keeps w s (by decide) same
  | attestSign w => exact execAttestSign_keeps w s (by decide) same
  | attestSignDone => exact execAttestSignDone_keeps s (by decide) same
  | frontCacheDisable w => exact execFrontCacheDisable_keeps w s (by decide) same
  | frontCacheDrained => exact execFrontCacheDrained_keeps s (by decide) same
  | frontCacheEnable w => exact execFrontCacheEnable_keeps w s (by decide) same
  | rangeClean w found => exact execRangeClean_keeps w found s (by decide) same
  | rangeInvalidate w found => exact execRangeInvalidate_keeps w found s (by decide) same
  | lineLock w found => exact execLineLock_keeps w found s (by decide) same
  | lineZero w => exact execLineZero_keeps w s (by decide) same
  | maintenanceDone k => exact execMaintenanceDone_keeps k s (by decide) same
  | fwBegin w => exact execFwBegin_keeps w s (by decide) same
  | fwChunk w data => exact execFwChunk_keeps w data s (by decide) same
  | fwVerify w => exact execFwVerify_keeps w s (by decide) same
  | fwActivate w => exact execFwActivate_keeps w s (by decide) same
  | fwCancel w => exact execFwCancel_keeps w s (by decide) same
  | fwOperationDone v => exact execFwOperationDone_keeps v s (by decide) same
  | testStateEnter w => exact execTestStateEnter_keeps w s (by decide) same
  | testStateLeave w => exact execTestStateLeave_keeps w s (by decide) same
  | selfTestStart w => exact execSelfTestStart_keeps w s (by decide) same
  | selfTestCancel w => exact execSelfTestCancel_keeps w s (by decide) same
  | selfTestDone errors first badBlocks => exact execSelfTestDone_keeps errors first badBlocks s (by decide) same
  | readBackData w => exact execReadBackData_keeps w s (by decide) same
  | counterSnapshot w => exact execCounterSnapshot_keeps w s (by decide) same
  | counterSnapshotClear w => exact execCounterSnapshotClear_keeps w s (by decide) same
  | counterWrap block n addr partner => exact execCounterWrap_keeps block n addr partner s (by decide) same
  | overflowClear w block mask => exact execOverflowClear_keeps w block mask s (by decide) same
  | firkinPeriodClose => exact execFirkinPeriodClose_keeps s (by decide) same
  | firkinFreeze w => exact execFirkinFreeze_keeps w s (by decide) same
  | firkinThaw w => exact execFirkinThaw_keeps w s (by decide) same
  | firkinAutoThaw => exact execFirkinAutoThaw_keeps s (by decide) same
  | eventPailRead w => exact execEventPailRead_keeps w s (by decide) same
  | eventPailDropRemainder w => exact execEventPailDropRemainder_keeps w s (by decide) same
  | overrunRead w => exact execOverrunRead_keeps w s (by decide) same
  | powerBudgetWrite w mw => exact execPowerBudgetWrite_keeps w mw s (by decide) same
  | perstDeassert => exact execPerstDeassert_keeps s (by decide) same
  | auxPowerLoss => exact execAuxPowerLoss_keeps s (by decide) same
  | auxPowerArrive => exact execAuxPowerArrive_keeps s (by decide) same
  | criticalLatchClear => exact execCriticalLatchClear_keeps s (by decide) same
  | smbrstDeassert => exact execSmbrstDeassert_keeps s (by decide) same
  | i3cDynamicAddressReset => exact execI3cDynamicAddressReset_keeps s (by decide) same
  | counterSnapshotReady => exact execCounterSnapshotReady_keeps s (by decide) same
  | discardDone => exact execDiscardDone_keeps s (by decide) same
  | strainerDramLapEnd errors => exact execStrainerDramLapEnd_keeps errors s (by decide) same
  | keyUnwrapDone id => exact execKeyUnwrapDone_keeps id s (by decide) same
  | boundaryScanInstruction opcode => exact execBoundaryScanInstruction_keeps opcode s (by decide) same

/-- Settles O5: the frame of every command leaves out the identity and the queue; a command whose condition does not hold leaves the whole
state (log entry 9). -/
theorem everyCommandAnswers : Obligations.EveryCommandAnswers := by
  unfold Obligations.EveryCommandAnswers
  intro c s
  obtain ⟨t, runs, frame⟩ := exec_keeps c s
  exact ⟨t, runs, frame .ident (by decide), frame .pending (by decide)⟩

/-- Taking the front command off the queue changes nothing that time, identity and soundness speak of. -/
theorem State.evolves_upPending (f : List Instr → List Instr) (s : State) : s.Evolves (s.upPending f) :=
  ⟨Nat.le_refl _, rfl, id⟩

/-- Every step answers a state that the state may become. -/
theorem step_evolves (s : State) : AnswersE s (step s) := by
  unfold step
  split
  · exact answersE_next (State.elapse_evolves keeperCycle s (.rfl' s))
  next c rest _ =>
    obtain ⟨t, runs, evolves⟩ := exec_evolves c (s.upPending fun _ => rest)
    exact ⟨t, runs, (State.evolves_upPending _ s).trans evolves⟩

/-- The state a step answers is one the state may become. -/
theorem evolves_of_step {s t : State} (runs : step s = .next t) : s.Evolves t := by
  obtain ⟨u, answer, evolves⟩ := step_evolves s
  obtain rfl : u = t := Host.Outcome.next.inj (answer.symm.trans runs)
  exact evolves

/-- Settles O3: each command keeps the mode codes (R173, R236, R262, R310, R539), the sizes of the event stores (R76, R519,
  R520) and the
canonical form of the tables, so
every step does. -/
theorem soundnessIsKept : Obligations.SoundnessIsKept := by
  unfold Obligations.SoundnessIsKept
  intro s t sound runs
  obtain ⟨_, _, keepsSound⟩ := evolves_of_step runs
  exact keepsSound sound

/-- Settles O4: no command and no idle cycle turns the clock back or writes the identity. -/
theorem timeAndIdentity : Obligations.TimeAndIdentity := by
  unfold Obligations.TimeAndIdentity
  intro s t runs
  obtain ⟨forward, sameIdent, _⟩ := evolves_of_step runs
  exact ⟨forward, sameIdent⟩

/-- What the passing of time makes of the clocks (R565): they advance, the timestamps only while the keeper is powered. -/
theorem State.elapse_clk (dt : Nat) (s : State) : (s.elapse dt).clk = { s.clk with
    now := s.clk.now + dt
    stamp := if s.keeperOn then s.clk.stamp + dt else s.clk.stamp
    ripe := if s.keeperOn then s.clk.ripe + dt else s.clk.ripe } := by
  unfold State.elapse
  extract_lets on ticks cyc s1
  have counted : s1.keepsBut [.obs, .perf] (s.perf.select.foldl (fun t ks => t.countLevel ticks ks.1 ks.2) s1) :=
    keeps_foldl (fun t ks kept => State.countLevel_keeps ticks ks.1 ks.2 t (by decide) kept) (State.keepsBut_refl _ _)
  exact counted .clk (by decide)

/-- Settles O1: the step is by its definition the front command on the rest of the queue,
  or the passing of one keeper cycle (log entry 10),
whose frame the law of `State.elapse` gives. -/
theorem stepRunsTheFrontCommand : Obligations.StepRunsTheFrontCommand := by
  unfold Obligations.StepRunsTheFrontCommand
  refine ⟨fun c rest s queue => ?_, fun s queue => ⟨s.elapse keeperCycle, ?_, ?_, ?_⟩⟩
  · rw [step, queue]
    rfl
  · rw [step, queue]
  · rw [State.elapse_clk]
    rfl
  · exact State.elapse_keeps _ s (by decide) (State.keepsBut_refl _ s)

/-- Settles O2: the state delivered is the record of the defaults (log entries 5 to 7), and the tables are those of R109. -/
theorem resetState : Obligations.ResetState := by
  unfold Obligations.ResetState
  have otherRange : ∀ r, r ≠ 0 → (State.reset.range r).size = 0 := by
    intro r hr
    have : ¬ 0 = r := fun e => hr e.symm
    simp [State.range, State.reset, Tab.get, Tab.look, this]
  have otherPartner : ∀ n, 1 ≤ n → n ≤ 4094 → (State.reset.partner n).valid = false := by
    intro n low high
    have notFirst : ¬ 0 = n := by omega
    have notLast : ¬ n = 4095 := by omega
    simp [State.partner, State.reset, Tab.get, Tab.look, notFirst, notLast]
  refine ⟨⟨by unfold State.Legal; decide, ⟨by decide, by decide, fun kv m => ?_⟩, by unfold State.Canonical; decide⟩, rfl, rfl, rfl,
    rfl, rfl, rfl, rfl, rfl, rfl, rfl,
    otherRange, rfl, otherPartner, rfl, rfl⟩
  cases m

end Sys2Proof.Machine
end

