-- ==== Sys2Proof/Proofs/Frames.lean ====
section
/-!
PROOF. The frames of the operations that every family uses, as rules for `simp`: an event writes the event state alone, a count the counters
and the event state, the passing of time the clocks beside.
-/
namespace Sys2Proof.Machine

/-- Every group but the event state is as it was. -/
abbrev State.sameButObs (s t : State) : Prop :=
  t.ident = s.ident ∧ t.clk = s.clk ∧ t.pwr = s.pwr ∧ t.port = s.port ∧ t.reqs = s.reqs ∧ t.fc = s.fc ∧ t.tier = s.tier ∧
  t.slices = s.slices ∧ t.budget = s.budget ∧ t.media = s.media ∧ t.map = s.map ∧ t.care = s.care ∧ t.yoke = s.yoke ∧
  t.atom = s.atom ∧ t.keys = s.keys ∧ t.reg = s.reg ∧ t.therm = s.therm ∧ t.bank = s.bank ∧ t.dram = s.dram ∧
  t.gills = s.gills ∧ t.tabs = s.tabs ∧ t.dict = s.dict ∧ t.mbox = s.mbox ∧ t.perf = s.perf ∧ t.firkin = s.firkin ∧
  t.rstats = s.rstats ∧ t.fw = s.fw ∧ t.dump = s.dump ∧ t.cmds = s.cmds ∧ t.tap = s.tap ∧ t.pending = s.pending

/-- Every group but the event state and the counters is as it was. -/
abbrev State.sameButPerf (s t : State) : Prop :=
  t.ident = s.ident ∧ t.clk = s.clk ∧ t.pwr = s.pwr ∧ t.port = s.port ∧ t.reqs = s.reqs ∧ t.fc = s.fc ∧ t.tier = s.tier ∧
  t.slices = s.slices ∧ t.budget = s.budget ∧ t.media = s.media ∧ t.map = s.map ∧ t.care = s.care ∧ t.yoke = s.yoke ∧
  t.atom = s.atom ∧ t.keys = s.keys ∧ t.reg = s.reg ∧ t.therm = s.therm ∧ t.bank = s.bank ∧ t.dram = s.dram ∧
  t.gills = s.gills ∧ t.tabs = s.tabs ∧ t.dict = s.dict ∧ t.mbox = s.mbox ∧ t.firkin = s.firkin ∧ t.rstats = s.rstats ∧
  t.fw = s.fw ∧ t.dump = s.dump ∧ t.cmds = s.cmds ∧ t.tap = s.tap ∧ t.pending = s.pending

/-- Every group but the clocks, the event state and the counters is as it was. -/
abbrev State.sameButTime (s t : State) : Prop :=
  t.ident = s.ident ∧ t.pwr = s.pwr ∧ t.port = s.port ∧ t.reqs = s.reqs ∧ t.fc = s.fc ∧ t.tier = s.tier ∧
  t.slices = s.slices ∧ t.budget = s.budget ∧ t.media = s.media ∧ t.map = s.map ∧ t.care = s.care ∧ t.yoke = s.yoke ∧
  t.atom = s.atom ∧ t.keys = s.keys ∧ t.reg = s.reg ∧ t.therm = s.therm ∧ t.bank = s.bank ∧ t.dram = s.dram ∧
  t.gills = s.gills ∧ t.tabs = s.tabs ∧ t.dict = s.dict ∧ t.mbox = s.mbox ∧ t.firkin = s.firkin ∧ t.rstats = s.rstats ∧
  t.fw = s.fw ∧ t.dump = s.dump ∧ t.cmds = s.cmds ∧ t.tap = s.tap ∧ t.pending = s.pending

theorem State.sameButObs_of_keepsBut {s t : State} (h : s.keepsBut [.obs] t) : s.sameButObs t :=
  ⟨h .ident (by decide), h .clk (by decide), h .pwr (by decide), h .port (by decide), h .reqs (by decide), h .fc (by decide),
    h .tier (by decide), h .slices (by decide), h .budget (by decide), h .media (by decide), h .map (by decide),
    h .care (by decide), h .yoke (by decide), h .atom (by decide), h .keys (by decide), h .reg (by decide), h .therm (by decide),
    h .bank (by decide), h .dram (by decide), h .gills (by decide), h .tabs (by decide), h .dict (by decide), h .mbox (by decide),
    h .perf (by decide), h .firkin (by decide), h .rstats (by decide), h .fw (by decide), h .dump (by decide), h .cmds (by decide),
    h .tap (by decide), h .pending (by decide)⟩

theorem State.sameButPerf_of_keepsBut {s t : State} (h : s.keepsBut [.obs, .perf] t) : s.sameButPerf t :=
  ⟨h .ident (by decide), h .clk (by decide), h .pwr (by decide), h .port (by decide), h .reqs (by decide), h .fc (by decide),
    h .tier (by decide), h .slices (by decide), h .budget (by decide), h .media (by decide), h .map (by decide),
    h .care (by decide), h .yoke (by decide), h .atom (by decide), h .keys (by decide), h .reg (by decide), h .therm (by decide),
    h .bank (by decide), h .dram (by decide), h .gills (by decide), h .tabs (by decide), h .dict (by decide), h .mbox (by decide),
    h .firkin (by decide), h .rstats (by decide), h .fw (by decide), h .dump (by decide), h .cmds (by decide), h .tap (by decide),
    h .pending (by decide)⟩

theorem State.sameButTime_of_keepsBut {s t : State} (h : s.keepsBut [.clk, .obs, .perf] t) : s.sameButTime t :=
  ⟨h .ident (by decide), h .pwr (by decide), h .port (by decide), h .reqs (by decide), h .fc (by decide), h .tier (by decide),
    h .slices (by decide), h .budget (by decide), h .media (by decide), h .map (by decide), h .care (by decide),
    h .yoke (by decide), h .atom (by decide), h .keys (by decide), h .reg (by decide), h .therm (by decide), h .bank (by decide),
    h .dram (by decide), h .gills (by decide), h .tabs (by decide), h .dict (by decide), h .mbox (by decide), h .firkin (by decide),
    h .rstats (by decide), h .fw (by decide), h .dump (by decide), h .cmds (by decide), h .tap (by decide), h .pending (by decide)⟩

variable (s : State)

@[simp] theorem State.raise_frame (n : Nat) : s.sameButObs (s.raise n) :=
  State.sameButObs_of_keepsBut (State.raise_keeps n s (by decide) (State.keepsBut_refl _ s))

@[simp] theorem State.cxlRecords_frame (stamp trans code param : Nat) : s.sameButObs (s.cxlRecords stamp trans code param) :=
  State.sameButObs_of_keepsBut (State.cxlRecords_keeps stamp trans code param s (by decide) (State.keepsBut_refl _ s))

@[simp] theorem State.pailStore_frame (e : Event) : s.sameButObs (s.pailStore e) :=
  State.sameButObs_of_keepsBut (State.pailStore_keeps e s (by decide) (State.keepsBut_refl _ s))

@[simp] theorem State.settleOverrun_frame : s.sameButObs s.settleOverrun :=
  State.sameButObs_of_keepsBut (State.settleOverrun_keeps s (by decide) (State.keepsBut_refl _ s))

@[simp] theorem State.emitAt_frame (stamp trans entry code param : Nat) : s.sameButObs (s.emitAt stamp trans entry code param) :=
  State.sameButObs_of_keepsBut (State.emitAt_keeps stamp trans entry code param s (by decide) (State.keepsBut_refl _ s))

@[simp] theorem State.logBy_frame (trans entry code param : Nat) : s.sameButObs (s.logBy trans entry code param) :=
  State.sameButObs_of_keepsBut (State.logBy_keeps trans entry code param s (by decide) (State.keepsBut_refl _ s))

@[simp] theorem State.logFor_frame (entry code param : Nat) : s.sameButObs (s.logFor entry code param) :=
  State.sameButObs_of_keepsBut (State.logFor_keeps entry code param s (by decide) (State.keepsBut_refl _ s))

@[simp] theorem State.log_frame (code param : Nat) : s.sameButObs (s.log code param) :=
  State.sameButObs_of_keepsBut (State.log_keeps code param s (by decide) (State.keepsBut_refl _ s))

@[simp] theorem State.countAt_frame (block ev n addr partner : Nat) : s.sameButPerf (s.countAt block ev n addr partner) :=
  State.sameButPerf_of_keepsBut (State.countAt_keeps block ev n addr partner s (by decide) (State.keepsBut_refl _ s))

@[simp] theorem State.count_frame (block ev n : Nat) : s.sameButPerf (s.count block ev n) :=
  State.sameButPerf_of_keepsBut (State.count_keeps block ev n s (by decide) (State.keepsBut_refl _ s))

@[simp] theorem State.save_frame (n : Nat) : s.sameButPerf (s.save n) :=
  State.sameButPerf_of_keepsBut (State.save_keeps n s (by decide) (State.keepsBut_refl _ s))

@[simp] theorem State.elapse_frame (dt : Nat) : s.sameButTime (s.elapse dt) :=
  State.sameButTime_of_keepsBut (State.elapse_keeps dt s (by decide) (State.keepsBut_refl _ s))

@[simp] theorem State.elapseTo_frame (t : Nat) : s.sameButTime (s.elapseTo t) :=
  State.sameButTime_of_keepsBut (State.elapseTo_keeps t s (by decide) (State.keepsBut_refl _ s))

/-- The clock stands at the deadline, or later where it had passed (log entry 3). -/
@[simp] theorem State.elapseTo_now (t : Nat) : (s.elapseTo t).clk.now = max s.clk.now t := by
  rw [State.elapseTo, State.elapse_clk]
  simp only
  omega

/-- What a command does: its frame is that of its row, and what it answers is known. -/
theorem Does.of_frame {i : Instr} {s t : State} {ps : List Part} {post : State → Prop} (frame : Answers s ps (exec i s))
    (runs : exec i s = .next t) (holds : post t) : Does i s ps post := by
  obtain ⟨u, answers, keeps⟩ := frame
  obtain rfl : t = u := Host.Outcome.next.inj (runs.symm.trans answers)
  exact ⟨t, answers, keeps, holds⟩

end Sys2Proof.Machine
end

