-- ==== Sys2Proof/Proofs/EventStores.lean ====
section
/-!
PROOF. The event stores (R519, R520): what an event makes of the event pail while the fast domains run, and of the keeper's store while they
do not. The CXL records of an event (R77, R78) and the vectors it raises (R80) leave the stores as they are.
-/
namespace Sys2Proof.Machine

/-- The event pail, its counts and the keeper's store are as they were; logs, vectors and notifications may differ. -/
abbrev Obs.sameStores (o p : Obs) : Prop :=
  p.pail = o.pail ∧ p.held = o.held ∧ p.heldLost = o.heldLost ∧ p.overrun = o.overrun ∧ p.lost = o.lost ∧
    p.lostPending = o.lostPending ∧ p.nextSeq = o.nextSeq ∧ p.packet = o.packet

variable (s : State)

@[simp] theorem State.raise_stores (n : Nat) : s.obs.sameStores (s.raise n).obs := by
  simp only [State.raise, State.upObs, Obs.ring]
  split
  · exact ⟨rfl, rfl, rfl, rfl, rfl, rfl, rfl, rfl⟩
  · split <;> exact ⟨rfl, rfl, rfl, rfl, rfl, rfl, rfl, rfl⟩

/-- The CXL record of an event leaves the stores as they are. -/
@[simp] theorem State.cxlRecord_stores (stamp log kind code param trans : Nat) :
    s.obs.sameStores (s.cxlRecord stamp log kind code param trans).obs := by
  unfold State.cxlRecord
  extract_lets g full t
  split
  · exact ⟨rfl, rfl, rfl, rfl, rfl, rfl, rfl, rfl⟩
  · split
    · have raised := t.raise_stores (log + 1)
      exact raised
    · exact ⟨rfl, rfl, rfl, rfl, rfl, rfl, rfl, rfl⟩

theorem Obs.sameStores_trans {o p q : Obs} (h : o.sameStores p) (k : p.sameStores q) : o.sameStores q := by
  obtain ⟨h1, h2, h3, h4, h5, h6, h7, h8⟩ := h
  obtain ⟨k1, k2, k3, k4, k5, k6, k7, k8⟩ := k
  exact ⟨k1.trans h1, k2.trans h2, k3.trans h3, k4.trans h4, k5.trans h5, k6.trans h6, k7.trans h7, k8.trans h8⟩

@[simp] theorem State.cxlRecords_stores (stamp trans code param : Nat) :
    s.obs.sameStores (s.cxlRecords stamp trans code param).obs := by
  unfold State.cxlRecords
  induction recordKinds code generalizing s with
  | nil => exact ⟨rfl, rfl, rfl, rfl, rfl, rfl, rfl, rfl⟩
  | cons k ks ih => exact Obs.sameStores_trans (s.cxlRecord_stores stamp (severityOf code) k code param trans) (ih _)

/-- A vector raised stays raised when another condition occurs (R80). -/
theorem State.mem_msix_raise {n : Nat} (m : Nat) (h : n ∈ s.obs.msix) : n ∈ (s.raise m).obs.msix := by
  simp only [State.raise, State.upObs, Obs.ring]
  split
  · exact List.mem_append_left _ h
  · split <;> exact h

/-- In direct attachment a condition raises its vector (R80). -/
theorem State.raise_msix (n : Nat) (direct : s.port.attach = 1) : n ∈ (s.raise n).obs.msix := by
  simp [State.raise, State.upObs, Obs.ring, direct]

theorem State.mem_msix_cxlRecord {n : Nat} (stamp log kind code param trans : Nat) (h : n ∈ s.obs.msix) :
    n ∈ (s.cxlRecord stamp log kind code param trans).obs.msix := by
  unfold State.cxlRecord
  extract_lets g full t
  split
  · exact h
  · split
    · exact t.mem_msix_raise (log + 1) h
    · exact h

theorem State.mem_msix_cxlRecords {n : Nat} (stamp trans code param : Nat) (h : n ∈ s.obs.msix) :
    n ∈ (s.cxlRecords stamp trans code param).obs.msix := by
  unfold State.cxlRecords
  induction recordKinds code generalizing s with
  | nil => exact h
  | cons k ks ih => exact ih _ (s.mem_msix_cxlRecord stamp (severityOf code) k code param trans h)

variable {s}

/-- An event stored with room in the pail enters it last (R520). -/
theorem State.pailStore_of_room (e : Event) (room : s.obs.pail.length < 4096) :
    Obs.sameStores { s.obs with pail := s.obs.pail ++ [e] } (s.pailStore e).obs := by
  have notFull : ¬ 4096 ≤ s.obs.pail.length := by omega
  simp only [State.pailStore, if_neg notFull]
  split
  · exact State.raise_stores _ 5
  · exact ⟨rfl, rfl, rfl, rfl, rfl, rfl, rfl, rfl⟩

/-- An event that finds the pail full is counted as lost (R520). -/
theorem State.pailStore_of_full (e : Event) (full : 4096 ≤ s.obs.pail.length) :
    Obs.sameStores { s.obs with
      overrun := true
      lost := min (s.obs.lost + 1) 0xFFFFFFFF
      lostPending := s.obs.lostPending + 1 } (s.pailStore e).obs := by
  simp only [State.pailStore, if_pos full]
  exact State.raise_stores _ 5

theorem State.pailStore_msix_of_full (e : Event) (full : 4096 ≤ s.obs.pail.length) (direct : s.port.attach = 1) :
    5 ∈ (s.pailStore e).obs.msix := by
  unfold State.pailStore
  extract_lets t
  rw [if_pos full]
  exact State.raise_msix _ 5 direct

/-- An event logged with room in the pail takes the next sequence and enters it last (R519). -/
theorem State.emitAt_of_room (stamp trans entry code param : Nat) (room : s.obs.pail.length < 4096) :
    Obs.sameStores { s.obs with
      nextSeq := (s.obs.nextSeq + 1) % 2 ^ 32
      pail := s.obs.pail ++ [Event.mk code (severityOf code) entry s.obs.nextSeq stamp param] }
      (s.emitAt stamp trans entry code param).obs := by
  have numbered : (s.upObs fun o => { o with nextSeq := (o.nextSeq + 1) % 2 ^ 32 }).obs.pail.length < 4096 := room
  exact Obs.sameStores_trans (State.pailStore_of_room _ numbered) (State.cxlRecords_stores _ stamp trans code param)

/-- An event logged at a full pail uses up its sequence and is counted as lost (R520). -/
theorem State.emitAt_of_full (stamp trans entry code param : Nat) (full : 4096 ≤ s.obs.pail.length) :
    Obs.sameStores { s.obs with
      nextSeq := (s.obs.nextSeq + 1) % 2 ^ 32
      overrun := true
      lost := min (s.obs.lost + 1) 0xFFFFFFFF
      lostPending := s.obs.lostPending + 1 } (s.emitAt stamp trans entry code param).obs := by
  have numbered : 4096 ≤ (s.upObs fun o => { o with nextSeq := (o.nextSeq + 1) % 2 ^ 32 }).obs.pail.length := full
  exact Obs.sameStores_trans (State.pailStore_of_full _ numbered) (State.cxlRecords_stores _ stamp trans code param)

theorem State.emitAt_msix_of_full (stamp trans entry code param : Nat) (full : 4096 ≤ s.obs.pail.length)
    (direct : s.port.attach = 1) : 5 ∈ (s.emitAt stamp trans entry code param).obs.msix := by
  unfold State.emitAt
  extract_lets e
  exact State.mem_msix_cxlRecords _ stamp trans code param (State.pailStore_msix_of_full e full direct)

/-- With nothing lost to tell of, or no room to tell it, no 7101h goes before an event (R520). -/
theorem State.settleOverrun_eq_self (h : s.obs.lostPending = 0 ∨ 4096 ≤ s.obs.pail.length) : s.settleOverrun = s := by
  unfold State.settleOverrun
  rw [if_neg (by omega)]

/-- Events that were lost are told by 7101h as soon as there is room (R520). -/
theorem State.settleOverrun_of_lost (lost : s.obs.lostPending ≠ 0) (room : s.obs.pail.length < 4096) :
    Obs.sameStores { s.obs with
      lostPending := 0
      nextSeq := (s.obs.nextSeq + 1) % 2 ^ 32
      pail := s.obs.pail ++ [Event.mk 0x7101 1 0xFFFF s.obs.nextSeq s.clk.stamp s.obs.lostPending] }
      s.settleOverrun.obs := by
  unfold State.settleOverrun
  rw [if_pos ⟨lost, room⟩]
  exact State.emitAt_of_room s.clk.stamp (transOf 0x7101) 0xFFFF 0x7101 s.obs.lostPending
    (s := s.upObs fun o => { o with lostPending := 0 }) room

/-- While the fast domains run an event is stored in the pail, after what was lost before it. -/
theorem State.log_of_fastOn (code param : Nat) (on : s.fastOn = true) :
    s.log code param = s.settleOverrun.emitAt s.clk.stamp (transOf code) 0xFFFF code param := if_pos on

/-- An event with room in the pail and nothing lost to tell of (R519). -/
theorem State.log_of_room (code param : Nat) (on : s.fastOn = true) (room : s.obs.pail.length < 4096)
    (noneLost : s.obs.lostPending = 0) :
    Obs.sameStores { s.obs with
      nextSeq := (s.obs.nextSeq + 1) % 2 ^ 32
      pail := s.obs.pail ++ [Event.mk code (severityOf code) 0xFFFF s.obs.nextSeq s.clk.stamp param] }
      (s.log code param).obs := by
  rw [State.log_of_fastOn code param on, State.settleOverrun_eq_self (.inl noneLost)]
  exact State.emitAt_of_room s.clk.stamp (transOf code) 0xFFFF code param room

/-- An event at a full pail (R520). -/
theorem State.log_of_full (code param : Nat) (on : s.fastOn = true) (full : 4096 ≤ s.obs.pail.length) :
    Obs.sameStores { s.obs with
      nextSeq := (s.obs.nextSeq + 1) % 2 ^ 32
      overrun := true
      lost := min (s.obs.lost + 1) 0xFFFFFFFF
      lostPending := s.obs.lostPending + 1 } (s.log code param).obs := by
  rw [State.log_of_fastOn code param on, State.settleOverrun_eq_self (.inr full)]
  exact State.emitAt_of_full s.clk.stamp (transOf code) 0xFFFF code param full

/-- While the fast domains are off the keeper holds up to 64 events (R519). -/
theorem State.log_of_held (code param : Nat) (off : s.fastOn = false) (room : s.obs.held.length < 64) :
    s.log code param = s.upObs fun o => { o with
      held := o.held ++ [Event.mk code (severityOf code) 0xFFFF 0 s.clk.stamp param] } := by
  simp [State.log, State.logFor, State.logBy, off, room]

/-- An event the keeper has no room for is counted (R519). -/
theorem State.log_of_heldLost (code param : Nat) (off : s.fastOn = false) (full : 64 ≤ s.obs.held.length) :
    s.log code param = s.upObs fun o => { o with heldLost := o.heldLost + 1 } := by
  have noRoom : ¬ s.obs.held.length < 64 := by omega
  simp [State.log, State.logFor, State.logBy, off, noRoom]

/-- Settles O6, from what an event makes of each store; the stamp of a held event is its own and its sequence comes later (log entry 44). -/
theorem eventPail : Obligations.EventPail := by
  unfold Obligations.EventPail
  refine ⟨?room, ?full, ?lost, ?held, ?counted⟩
  case room =>
    intro s code param on room noneLost
    obtain ⟨pail, -, -, -, -, -, seq, -⟩ := State.log_of_room code param on room noneLost
    exact ⟨pail, seq, State.log_keeps code param s (by decide) (State.keepsBut_refl _ s)⟩
  case full =>
    intro s code param on full
    obtain ⟨pail, -, -, overrun, lost, pending, seq, -⟩ := State.log_of_full code param on full
    refine ⟨pail, overrun, lost, pending, seq, fun direct => ?_⟩
    rw [State.log_of_fastOn code param on, State.settleOverrun_eq_self (.inr full)]
    exact State.emitAt_msix_of_full _ _ _ _ _ full direct
  case lost =>
    intro s code param on room lost
    obtain ⟨pail, -, -, -, -, pending, seq, -⟩ := State.settleOverrun_of_lost lost (by omega)
    have stillRoom : s.settleOverrun.obs.pail.length < 4096 := by
      simp only [pail, List.length_append, List.length_singleton]
      omega
    obtain ⟨pail', -, -, -, -, pending', -, -⟩ :=
      State.emitAt_of_room s.clk.stamp (transOf code) 0xFFFF code param stillRoom
    rw [State.log_of_fastOn code param on]
    refine ⟨?_, pending'.trans pending⟩
    rw [pail', seq, pail]
    simp
  case held =>
    intro s code param off room
    rw [State.log_of_held code param off room]
    rfl
  case counted =>
    intro s code param off full
    rw [State.log_of_heldLost code param off full]
    rfl

end Sys2Proof.Machine
end

