-- ==== Sys2Proof/Proofs/FirmwareVerdict.lean ====
section
/-!
PROOF. The keeper's verdict on a firmware slot (R414, R449, R519, R531): what the start of the fast domains leaves in the power state, the
firmware and the Firkin, and the four verdicts.
-/
namespace Sys2Proof.Machine

variable {s : State}

/-- DRAM training leaves the boot phase and the reset's own events as they are (R379). -/
theorem State.trainDram_boot (bad : BitVec 8) (s : State) :
    (s.trainDram bad).pwr.boot = s.pwr.boot ∧ (s.trainDram bad).pwr.own = s.pwr.own := by
  unfold State.trainDram
  extract_lets all full warm s1 s2
  have stored : s2.pwr = s1.pwr := by
    unfold s2
    split
    · rfl
    · simp
  split <;> simp only [State.log_frame, stored] <;> exact ⟨rfl, rfl⟩

/-- A Firkin period runs once the fast domains have started (R512). -/
theorem State.startFirkin_running (s : State) : s.startFirkin.firkin.running = true := by
  unfold State.startFirkin
  split
  · assumption
  · rfl

/-- The fast domains start from the slot accepted: they run, the reset's own events are reported, a Firkin period runs and no attestation
is held (R414, R512, R519). -/
theorem State.startFast_runs (slot : Nat) (trainFail : BitVec 8) (badPages : List (Nat × Nat)) (s : State) :
    (s.startFast slot trainFail badPages).pwr.boot = .running ∧ (s.startFast slot trainFail badPages).fw.current = slot ∧
      (s.startFast slot trainFail badPages).firkin.running = true ∧ (s.startFast slot trainFail badPages).pwr.own = [] ∧
      (s.startFast slot trainFail badPages).keys.attest = 0 := by
  unfold State.startFast
  extract_lets cold s1 s2 s3 s4 s5
  have fwKept : s1.keepsBut [.pwr, .fc, .budget, .media, .map, .keys, .yoke, .dict, .obs, .perf, .rstats, .dump, .cmds] s2 := by
    unfold s2
    split
    · exact State.keeps_upFc _ (by decide) (State.restoreImage_keeps _ (by decide) (State.readImages_keeps _ _ (by decide)
        (State.resumeGen_keeps _ (by decide) (State.applyPowerUp_keeps _ (by decide) (State.keepsBut_refl _ s1)))))
    · exact State.boundStart_keeps _ (by decide) (keeps_ite (State.keepsBut_refl _ s1)
        (State.measure_keeps 1 s1 (by decide) (State.keepsBut_refl _ s1)))
  have pailKept : s3.keepsBut [.obs] (s3.startPail s3.pwr.own) :=
    State.startPail_keeps _ s3 (by decide) (State.keepsBut_refl _ s3)
  have running4 : s4.pwr.boot = .running := congrArg Pwr.boot (pailKept .pwr (by decide))
  have current4 : s4.fw.current = slot :=
    congrArg Fw.current ((pailKept .fw (by decide)).trans (fwKept .fw (by decide)))
  have state5 : s5.pwr.boot = s4.pwr.boot ∧ s5.pwr.own = [] ∧ s5.fw = s4.fw := by
    unfold s5
    split
    · obtain ⟨boot, own⟩ := State.trainDram_boot trainFail s4
      have fwTrained := State.trainDram_keeps (P := [.pwr, .dram, .obs, .perf]) trainFail s4 (by decide) (State.keepsBut_refl _ s4)
      exact ⟨boot, own, fwTrained .fw (by decide)⟩
    · exact ⟨rfl, rfl, rfl⟩
  obtain ⟨boot5, own5, fw5⟩ := state5
  have committed : s5.keepsBut [.dict, .obs] s5.replayCommit := State.replayCommit_keeps s5 (by decide) (State.keepsBut_refl _ s5)
  have started : s5.replayCommit.keepsBut [.firkin] s5.replayCommit.startFirkin :=
    State.startFirkin_keeps _ (by decide) (State.keepsBut_refl _ _)
  have member : s5.replayCommit.startFirkin.keepsBut [.yoke, .obs, .perf] (s5.replayCommit.startFirkin.restartMember cold) :=
    State.restartMember_keeps cold _ (by decide) (State.keepsBut_refl _ _)
  have samePwr := (member .pwr (by decide)).trans ((started .pwr (by decide)).trans (committed .pwr (by decide)))
  have sameFw := (member .fw (by decide)).trans ((started .fw (by decide)).trans (committed .fw (by decide)))
  exact ⟨(congrArg Pwr.boot samePwr).trans (boot5.trans running4),
    (congrArg Fw.current sameFw).trans ((congrArg Fw.current fw5).trans current4),
    (congrArg Firkin.running (member .firkin (by decide))).trans (State.startFirkin_running _),
    (congrArg Pwr.own samePwr).trans own5, rfl⟩

/-- What the verdict on the slot being verified comes to. -/
theorem exec_firmwareVerifyDone_of_verifying (v : FwVerdict) (bad : BitVec 8) (pages : List (Nat × Nat)) {slot : Nat} {second : Bool}
    (boot : s.pwr.boot = .verifying slot second) :
    exec (.firmwareVerifyDone v bad pages) s = .next (
      if s.fwReason slot v = 0 then
        if s.tooHot && !s.pwr.controllerStart then s.upPwr (fun p => { p with boot := .held }) else s.startFast slot bad pages
      else if second then ((s.log 0x4031 (slot * 256 + s.fwReason slot v)).log 0x4032 0).upPwr (fun p => { p with boot := .recovery })
      else (s.log 0x4031 (slot * 256 + s.fwReason slot v)).upPwr (fun p => { p with boot := .verifying (1 - slot) true })) := by
  show execFirmwareVerifyDone v bad pages s = _
  rw [execFirmwareVerifyDone, boot]

/-- Settles O13: the start of the fast domains gives the first verdict's effect, the other verdicts are one rewrite of the power state each,
after their events; with no slot being verified the row changes nothing (log entry 9). -/
theorem firmwareVerdict : Obligations.FirmwareVerdict := by
  unfold Obligations.FirmwareVerdict
  refine ⟨?accepted, ?tooHot, ?rejected, ?both, ?idle⟩
  case accepted =>
    intro s v bad pages slot second boot ok cool
    have notHeld : ¬ (s.tooHot && !s.pwr.controllerStart) = true := by
      rcases cool with cool | cool <;> simp [cool]
    refine ⟨s.startFast slot bad pages, ?_, ?_, State.startFast_runs slot bad pages s⟩
    · rw [exec_firmwareVerifyDone_of_verifying v bad pages boot, if_pos ok, if_neg notHeld]
    · exact State.startFast_keeps slot bad pages s (by decide) (State.keepsBut_refl _ s)
  case tooHot =>
    intro s v bad pages slot second boot ok hot cold
    refine ⟨s.upPwr (fun p => { p with boot := .held }), ?_, State.keepsBut_upPwr s _ (by decide), rfl⟩
    rw [exec_firmwareVerifyDone_of_verifying v bad pages boot, if_pos ok, if_pos (by simp [hot, cold])]
  case rejected =>
    intro s v bad pages slot boot why
    refine ⟨(s.log 0x4031 (slot * 256 + s.fwReason slot v)).upPwr (fun p => { p with boot := .verifying (1 - slot) true }), ?_,
      State.keeps_upPwr _ (by decide) (State.log_keeps _ _ s (by decide) (State.keepsBut_refl _ s)), ?_, rfl⟩
    · rw [exec_firmwareVerifyDone_of_verifying v bad pages boot, if_neg why]
      rfl
    · simp
  case both =>
    intro s v bad pages slot boot why
    refine ⟨((s.log 0x4031 (slot * 256 + s.fwReason slot v)).log 0x4032 0).upPwr (fun p => { p with boot := .recovery }), ?_,
      State.keeps_upPwr _ (by decide) (State.log_keeps _ _ _ (by decide) (State.log_keeps _ _ s (by decide)
        (State.keepsBut_refl _ s))), ?_, rfl⟩
    · rw [exec_firmwareVerifyDone_of_verifying v bad pages boot, if_neg why]
      rfl
    · simp
  case idle =>
    intro s v bad pages none
    show execFirmwareVerifyDone v bad pages s = _
    unfold execFirmwareVerifyDone
    split
    next slot second boot => exact absurd boot (none slot second)
    next => rfl

end Sys2Proof.Machine
end

