-- ==== Sys2Proof/Proofs/ProgramsAbandoned.lean ====
section
/-!
PROOF. Statements that claim the media pages to be as they were over a stop of the fast domains or a warm reset, of every state: an abandoned
program takes with it the page it had not finished (R30, R172, R195). Each is refuted by a module with one writeback's program under way.
-/
namespace Sys2Proof.Machine

/-- What a command does holds of the state it answers. -/
theorem Does.of_answer {i : Instr} {s u : State} {ps : List Part} {post : State → Prop} (h : Does i s ps post)
    (answer : exec i s = .next u) : s.keepsBut ps u ∧ post u := by
  obtain ⟨t, runs, frame, holds⟩ := h
  obtain rfl : u = t := Host.Outcome.next.inj (answer.symm.trans runs)
  exact ⟨frame, holds⟩

/-- A grain page that a program under way is writing. -/
def unfinishedPage : Page := ⟨1, 1, 0, 0, [], [], [], false⟩

/-- The serving module with the program of a writeback under way. -/
def programmingModule : State :=
  { servingModule with
    media :=
      { passes := [⟨0, 5, .writeback, 0, true, false, none, 0, 0⟩]
        pages := [(5, unfinishedPage)] } }

/-- Refutes O9: clause (1) excludes no program under way; the cold reset that main power begins abandons it, and its page is gone. -/
theorem not_suppliesArrive : ¬ Obligations.SuppliesArrive := by
  unfold Obligations.SuppliesArrive
  rintro ⟨mainArrives, -⟩
  let s : State := { programmingModule with pwr := { aux := true } }
  obtain ⟨-, -, -, -, -, -, -, -, -, -, -, -, -, pages, -⟩ :=
    (mainArrives s [] (by decide) (by decide) (by decide) (by decide)).of_answer rfl
  exact absurd pages (by decide)

/-- Refutes O11: clause (1); the dump that a power loss starts abandons the program under way, and its page is gone. -/
theorem not_powerLossDumps : ¬ Obligations.PowerLossDumps := by
  unfold Obligations.PowerLossDumps
  rintro ⟨mainFalls, -⟩
  obtain ⟨-, -, -, -, -, -, -, -, -, -, -, -, pages, -⟩ :=
    (mainFalls programmingModule (by decide) (by decide) (by decide)).of_answer rfl
  exact absurd pages (by decide)

/-- Refutes O12: clause (2) excludes no program under way; the fast domains that stop after the seal abandon it, and its page is gone. -/
theorem not_dumpTakesTheImage : ¬ Obligations.DumpTakesTheImage := by
  unfold Obligations.DumpTakesTheImage
  rintro ⟨-, sealed, -⟩
  let image : Image := ⟨1, 0, [], 0, 0, 1, false, [], 0, [], 0, false, false, false, 0⟩
  let s : State := { programmingModule with pwr := { arm := 5, holdUp := true, boot := .running }, dump := { writing := some image } }
  obtain ⟨-, -, -, -, -, -, -, -, -, -, -, -, pages⟩ :=
    (sealed s image (by decide) rfl (by decide) rfl).of_answer rfl
  exact absurd pages (by decide)

/-- Refutes O15: clause (1); a warm reset abandons the program under way, and its page is gone. -/
theorem not_resets : ¬ Obligations.Resets := by
  unfold Obligations.Resets
  rintro ⟨warm, -⟩
  obtain ⟨-, -, -, -, -, -, -, -, -, -, pages, -⟩ :=
    (warm programmingModule false (by decide) (by decide) (by decide) (.inl rfl)).of_answer rfl
  exact absurd pages (by decide)

/-- Refutes O17: clause (3); the dump that the loss of aux starts with PERST# asserted (log entry 20) abandons the program under way, and its
page is gone. -/
theorem not_sidebandPins : ¬ Obligations.SidebandPins := by
  unfold Obligations.SidebandPins
  rintro ⟨-, -, auxLost, -⟩
  let s : State := { programmingModule with pwr := { programmingModule.pwr with perst := true } }
  obtain ⟨-, -, -, -, -, -, -, pages⟩ :=
    (auxLost s (by decide) (by decide) (by decide) (by decide) (by decide)).of_answer rfl
  exact absurd pages (by decide)

/-- Refutes O20: clause (4); a prepared module that goes off abandons the program under way, and its page is gone. The sensor is that of
package 0, read at its critical 88 °C. -/
theorem not_criticalShutdown : ¬ Obligations.CriticalShutdown := by
  unfold Obligations.CriticalShutdown
  rintro ⟨-, -, -, prepared⟩
  let s : State := { programmingModule with pwr := { programmingModule.pwr with arm := 3, rechecks := [(0, 0)] } }
  obtain ⟨-, -, -, -, pages⟩ :=
    (prepared s 0 36115 0 0 (by decide) (by decide) (by decide) (by decide) (by decide) (by decide) (by decide)).of_answer rfl
  exact absurd pages (by decide)

end Sys2Proof.Machine
end

