-- ==== Sys2Proof/Proofs/LostRecords.lean ====
section
/-!
PROOF. A parameter-memory record both of whose copies are lost takes its fallback (R407, R488). The event and the count of the writes that
go with it change the event state and the counters alone.
-/
namespace Sys2Proof.Machine

variable (s : State)

/-- A counter that wraps changes neither the pail nor the events the keeper holds (R505). -/
@[simp] theorem State.wrap_stores (block n total addr partner : Nat) : s.obs.sameStores (s.wrap block n total addr partner).obs := by
  unfold State.wrap
  extract_lets k intr ov s1 old handles smp s2 soon
  have counted : s2.obs = s.obs := by
    unfold s2
    split <;> rfl
  split
  · rw [counted]
    exact ⟨rfl, rfl, rfl, rfl, rfl, rfl, rfl, rfl⟩
  · refine Obs.sameStores_trans (p := (s2.upObs fun o => { o with lastSix := some s.clk.now }).obs) ?_ (State.raise_stores _ 6)
    rw [State.upObs_obs, counted]
    exact ⟨rfl, rfl, rfl, rfl, rfl, rfl, rfl, rfl⟩

@[simp] theorem State.bump_stores (block c n addr partner : Nat) : s.obs.sameStores (s.bump block c n addr partner).obs := by
  unfold State.bump
  extract_lets v
  split
  · exact ⟨rfl, rfl, rfl, rfl, rfl, rfl, rfl, rfl⟩
  · exact s.wrap_stores block c v addr partner

@[simp] theorem State.countAt_stores (block ev n addr partner : Nat) : s.obs.sameStores (s.countAt block ev n addr partner).obs := by
  unfold State.countAt
  induction List.range 8 generalizing s with
  | nil => exact ⟨rfl, rfl, rfl, rfl, rfl, rfl, rfl, rfl⟩
  | cons c cs ih =>
    refine Obs.sameStores_trans ?_ (ih _)
    dsimp only
    split
    · exact s.bump_stores block c n addr partner
    · exact ⟨rfl, rfl, rfl, rfl, rfl, rfl, rfl, rfl⟩

@[simp] theorem State.count_stores (block ev n : Nat) : s.obs.sameStores (s.count block ev n).obs :=
  s.countAt_stores block ev n 0xFFFFFFFFFFFFFFFF 0xFFFF

variable {s}

/-- With room at the keeper of a module whose fast domains are off, an event is held last (R519). -/
theorem State.log_held (code param : Nat) (off : s.fastOn = false) (room : s.obs.held.length < 64) :
    (s.log code param).obs.held = s.obs.held ++ [⟨code, severityOf code, 0xFFFF, 0, s.clk.stamp, param⟩] := by
  rw [State.log_of_held code param off room]
  rfl

/-- Settles O10: each fallback is one rewrite of its record; what is held is the event that follows it. -/
theorem lostRecordsFallBack : Obligations.LostRecordsFallBack := by
  unfold Obligations.LostRecordsFallBack
  refine ⟨?range, ?partner, ?membership, ?latch, ?counter, ?marks, ?password, ?latchEvent, ?keyEvent⟩
  case range =>
    intro s r
    simp [State.loseTwin, State.fallback, State.range, Tab.get, Tab.look_erase]
  case partner =>
    intro s n ordinary
    simp only [State.loseTwin, State.fallback, State.partner, State.log_frame, State.count_frame, State.upTabs_tabs, if_neg ordinary]
    cases found : Tab.look s.tabs.partners n with
    | none => simp [Tab.get, found]
    | some p => simp [Tab.get_put]
  case membership =>
    intro s
    simp [State.loseTwin, State.fallback]
  case latch =>
    intro s
    simp [State.loseTwin, State.fallback]
  case counter =>
    intro s
    simp [State.loseTwin, State.fallback]
  case marks =>
    intro s
    simp [State.loseTwin, State.fallback]
  case password =>
    intro s a k
    simp [State.loseTwin, State.fallback]
  case latchEvent =>
    intro s off room
    have noted := State.log_held (s := (s.fallback .criticalLatch).count 60 6 4) 0x8002 (twinParam 4 6)
      (by simpa [State.fallback, State.fastOn] using off) (by simpa [State.fallback] using room)
    simpa [State.loseTwin, twinPlace, State.fallback, severityOf] using noted
  case keyEvent =>
    intro s id used off room
    have noted := State.log_held (s := s.fallback (.key id)) 0x4003 id
      (by simpa [State.fallback, State.fastOn] using off) (by simpa [State.fallback] using room)
    have lost : s.loseTwin (.key id) = (s.fallback (.key id)).log 0x4003 id := if_neg used
    rw [lost]
    refine ⟨by simpa [State.fallback, severityOf] using noted, ?_⟩
    simp only [State.keyRec, State.log_frame, State.fallback, State.upKeys_keys]
    cases found : Tab.look s.keys.recs id with
    | none => rfl
    | some r =>
      dsimp only
      rw [Tab.get_put, if_pos rfl, Tab.get, found]

end Sys2Proof.Machine
end

