-- ==== Sys2Proof/Proofs/HostLink.lean ====
section
/-!
PROOF. The host link (R44 to R49, R530): what a training that ends comes to at each width and speed, and the binding by the fabric manager.
-/
namespace Sys2Proof.Machine

variable {s : State}

/-- The width a training ends at (R45). -/
abbrev trainedWidth (offered failed : Nat) : Nat := min offered (lanesLeft failed)

/-- The state in which a training at a speed and width that the link has leaves the port (R44, R48). -/
def State.linkUp (speed width : Nat) (s : State) : State :=
  (s.upPort (fun p => { p with
    speed := speed
    width := width
    attach := if 5 ≤ speed then (if p.bound then 2 else 1) else 0
    degraded := if speed = 6 ∧ width = 16 then p.degraded else sat32 p.degraded })).upPwr (fun p => { p with selfRefresh := false })

/-- A module that may train: the fast domains run, PERST# is not asserted and no dump runs. -/
def State.trains (s : State) : Prop := s.fastOn = true ∧ s.pwr.perst = false ∧ s.pwr.arm ≠ 5

theorem State.trains_go (h : s.trains) : ¬ (!s.fastOn || s.pwr.perst || decide (s.pwr.arm = 5)) = true := by
  obtain ⟨on, perst, noDump⟩ := h
  simp [on, perst, noDump]

/-- A training that ends at a width and a speed of the link brings it up, with 5001h below the highest and 5002h without CXL. -/
theorem exec_linkTrainingDone_of_up {speed offered failed : Nat} (may : s.trains) (wide : trainedWidth offered failed ∈ [4, 8, 16])
    (low : 1 ≤ speed) (high : speed ≤ 6) :
    exec (.linkTrainingDone speed offered failed) s = .next (
      let width := trainedWidth offered failed
      let up := s.linkUp (max speed 4) width
      let told := if max speed 4 = 6 ∧ width = 16 then up else up.log 0x5001 (max speed 4 * 256 + width)
      if 5 ≤ max speed 4 then told else told.log 0x5002 (max speed 4 * 256 + width)) := by
  have works : ¬ (trainedWidth offered failed ≠ 4 ∧ trainedWidth offered failed ≠ 8 ∧ trainedWidth offered failed ≠ 16 ∨
      speed = 0 ∨ 6 < speed) := by
    simp only [List.mem_cons, List.not_mem_nil, or_false] at wide
    omega
  show execLinkTrainingDone speed offered failed s = _
  have attached (p : Port) : (if !decide (5 ≤ max speed 4) then 0 else if p.bound then 2 else 1) =
      if 5 ≤ max speed 4 then (if p.bound then 2 else 1) else 0 := by
    by_cases cxl : 5 ≤ max speed 4 <;> simp [cxl]
  simp only [execLinkTrainingDone, if_neg (State.trains_go may), if_neg works, attached, decide_eq_true_eq, State.linkUp]

/-- A training that ends at another width or speed leaves the link down (R46, log entry 147). -/
theorem exec_linkTrainingDone_of_down {speed offered failed : Nat} (may : s.trains)
    (fails : trainedWidth offered failed ∉ [4, 8, 16] ∨ speed = 0 ∨ 6 < speed) :
    exec (.linkTrainingDone speed offered failed) s = .next (if s.port.speed = 0 then s.linkDown else s.linkReset) := by
  have down : trainedWidth offered failed ≠ 4 ∧ trainedWidth offered failed ≠ 8 ∧ trainedWidth offered failed ≠ 16 ∨
      speed = 0 ∨ 6 < speed := by
    simpa [and_assoc] using fails
  show execLinkTrainingDone speed offered failed s = _
  simp only [execLinkTrainingDone, if_neg (State.trains_go may)]
  rw [if_pos down]

/-- A training that brings the link up changes the port, the power state and the events, and leaves the port at the width and speed it ended
at. -/
theorem does_linkTrainingDone_of_up {speed offered failed : Nat} (may : s.trains)
    (wide : trainedWidth offered failed ∈ [4, 8, 16]) (low : 1 ≤ speed) (high : speed ≤ 6) :
    Does (.linkTrainingDone speed offered failed) s [.pwr, .port, .obs] (fun t =>
      t.port.width = trainedWidth offered failed ∧ t.port.speed = max speed 4) := by
  refine ⟨_, exec_linkTrainingDone_of_up may wide low high, ?frame, ?port⟩
  case frame =>
    have up : s.keepsBut [.pwr, .port, .obs] (s.linkUp (max speed 4) (trainedWidth offered failed)) :=
      State.keeps_upPwr _ (by decide) (State.keeps_upPort _ (by decide) (State.keepsBut_refl _ s))
    have told := keeps_ite (c := max speed 4 = 6 ∧ trainedWidth offered failed = 16) up
      (State.log_keeps 0x5001 (max speed 4 * 256 + trainedWidth offered failed) _ (by decide) up)
    exact keeps_ite told (State.log_keeps _ _ _ (by decide) told)
  case port =>
    dsimp only
    split <;> split <;> simp [State.linkUp]

/-- Settles O16: a training comes to one of two effects, by its width and speed; of the codes below 16 GT/s LinkSpeed reads 04h (log entry
135), a training that leaves the link down is not counted (log entry 147), and where none can end the row changes nothing (log entry 9). -/
theorem hostLink : Obligations.HostLink := by
  unfold Obligations.HostLink
  refine ⟨?highest, ?degraded, ?endpoint, ?staysDown, ?goesDown, ?noLanes, ?lanes4, ?lanes8, ?held, ?bind, ?unbind, ?release⟩
  case highest =>
    intro s on perst noDump
    rw [exec_linkTrainingDone_of_up ⟨on, perst, noDump⟩ (by decide) (by decide) (by decide)]
    rfl
  case degraded =>
    intro s speed offered failed width on perst noDump ended wide cxl notBest
    subst ended
    have fast : speed = 5 ∨ speed = 6 := by simpa using cxl
    have high : max speed 4 = speed := by omega
    rw [exec_linkTrainingDone_of_up ⟨on, perst, noDump⟩ wide (by omega) (by omega)]
    have withCxl : 5 ≤ speed := by omega
    have below : ¬ (speed = 6 ∧ trainedWidth offered failed = 16) := notBest
    simp only [high, if_neg below, if_pos withCxl, State.linkUp]
    rfl
  case endpoint =>
    intro s speed offered failed width on perst noDump ended wide low slow
    subst ended
    have least : max speed 4 = 4 := by omega
    rw [exec_linkTrainingDone_of_up ⟨on, perst, noDump⟩ wide low (by omega)]
    simp [least, State.linkUp, trainedWidth, State.upPort, State.upPwr]
  case staysDown =>
    intro s speed offered failed on perst noDump fails wasDown
    rw [exec_linkTrainingDone_of_down ⟨on, perst, noDump⟩ fails, if_pos wasDown]
    rfl
  case goesDown =>
    intro s speed offered failed on perst noDump fails wasUp
    rw [exec_linkTrainingDone_of_down ⟨on, perst, noDump⟩ fails, if_neg wasUp]
    show _ = execWarmReset false s
    simp [execWarmReset, State.upPwr]
  case noLanes =>
    intro failed lost
    exact if_pos lost
  case lanes4 =>
    intro s speed offered failed on perst noDump low4 lost offers low high
    have width : trainedWidth offered failed = 4 := by
      rw [trainedWidth, lanesLeft, if_neg (fun h => h low4), if_pos lost]
      omega
    have up := does_linkTrainingDone_of_up (s := s) ⟨on, perst, noDump⟩ (offered := offered) (failed := failed) (by simp [width]) low high
    rwa [width] at up
  case lanes8 =>
    intro s speed offered failed on perst noDump low8 lost offers low high
    have low4 : failed % 16 = 0 := by omega
    have width : trainedWidth offered failed = 8 := by
      rw [trainedWidth, lanesLeft, if_neg (fun h => h low4), if_neg (fun h => h low8), if_pos lost]
      omega
    have up := does_linkTrainingDone_of_up (s := s) ⟨on, perst, noDump⟩ (offered := offered) (failed := failed) (by simp [width]) low high
    rwa [width] at up
  case held =>
    intro s speed offered failed blocked
    have stop : (!s.fastOn || s.pwr.perst || decide (s.pwr.arm = 5)) = true := by
      rcases blocked with h | h | h <;> simp [h]
    exact congrArg Host.Outcome.next (if_pos stop)
  case bind =>
    intro s eid direct
    exact congrArg Host.Outcome.next (if_pos direct)
  case unbind =>
    intro s bound
    exact congrArg Host.Outcome.next (if_pos bound)
  case release =>
    intro s
    rfl

end Sys2Proof.Machine
end

