-- ==== Sys2Proof/Proofs/ReadsForThePeer.lean ====
section
/-!
PROOF. Statements about the read path that leave out what a read forwarded by the peer (R136) or a second read of the same die needs: each is
refuted by a serving module in which one such read waits.
-/
namespace Sys2Proof.Machine

/-- A read of line 0 that the peer has forwarded, at a stage. -/
def forwardedRead (stage : Stage) : Req :=
  { newReq .read 0 internal 0x0106 0 0 0 0 0 false 0 with stage := stage }

/-- A demand read of line 0 whose codeword has failed step 4, its reconstruction still to be combined. -/
def exhaustedMiss : Miss :=
  { id := 0, line := 0, kind := .demand, cls := 0, ppa := 0, slot := 0, logged := false, step := 4, tgt := .failed, recon := true,
    direct := .none, hedged := false, keyWait := none, pageIn := false, policy := 0, fillTier := false, soft := true, decodeRecon := true,
    lastCrc := false, cell := 0, refs := [], since := 0, pastShare := false, peers := [], written := 0, parts := [], gathering := false,
    parent := none, ended := .reading }

/-- A demand read whose hard decode is read from the die of page 0. -/
def hardRead (id : Nat) : Miss :=
  { exhaustedMiss with id := id, line := id, step := 1, tgt := .reading, recon := false, soft := false, decodeRecon := false }

/-- A request of partner entry 0 that waits in slice 0's pail to read line 0. -/
def waitingRead : Req := newReq .read 0 0 0 0 0 0 0 0 false 0

/-- The serving module whose front cache holds line 0. -/
def cachingModule : State :=
  { servingModule with
    reqs := { list := [waitingRead] }
    fc := { lines := [(0, ⟨0, .unmodified, 0, 0, false, false, false⟩)] } }

/-- Refutes O24: the frame of clause (3) leaves out the yoke; a read that the peer forwarded is lost in the internal masters' pail and is
answered by ReadData with poison. -/
theorem not_gillsPailsAndDram : ¬ Obligations.GillsPailsAndDram := by
  unfold Obligations.GillsPailsAndDram
  rintro ⟨-, -, internalPail, -⟩
  let s : State := { servingModule with reqs := { list := [forwardedRead .pail] } }
  obtain ⟨frame, -⟩ := (internalPail s 0 (by decide) (by decide)).of_answer rfl
  have kept : _ = s.yoke := frame .yoke (by decide)
  exact absurd kept (by decide)

/-- Refutes O28: clause (1) excludes no dump, in which a slice serves no request (R33). -/
theorem not_readsProceed : ¬ Obligations.ReadsProceed := by
  unfold Obligations.ReadsProceed
  rintro ⟨hit, -⟩
  let s : State := { cachingModule with pwr := { cachingModule.pwr with arm := 5 } }
  have front : (s.nextReq 0).map Prod.fst = some waitingRead := rfl
  have idle : exec (.sliceLookup 0 .none 0 0 false) s = .next s := congrArg Host.Outcome.next (if_pos rfl)
  obtain ⟨⟨r, s1⟩, next, rfl⟩ := Option.map_eq_some_iff.1 front
  obtain ⟨-, answered, -⟩ := (hit s s1 0 0 0 false waitingRead ⟨0, .unmodified, 0, 0, false, false, false⟩ (by decide) next rfl
    (by decide) (by decide) (by decide) rfl (by decide) rfl (by decide)).of_answer idle
  exact absurd answered (by simp)

/-- Refutes O29: the 3,970 ns of clause (3) are those of one read (log entry 16); two reads queued for the die take twice as long. -/
theorem not_sleepAndSuspend : ¬ Obligations.SleepAndSuspend := by
  unfold Obligations.SleepAndSuspend
  rintro ⟨-, -, suspends, -⟩
  let o : DieOp := ⟨0, false, false, true, false, 0, 0, 0, [], 0⟩
  let s : State := { servingModule with
    slices := { misses := [hardRead 0, hardRead 1] }
    media := { ops := [(0, o)] } }
  obtain ⟨-, op, -⟩ := (suspends s 0 0 0 o (by decide) (by decide)).of_answer rfl
  exact absurd op (by decide)

/-- Refutes O30: the frame of clause (6) leaves out the yoke; the fetch that failed every step answers the read the peer forwarded by
ReadData with poison. -/
theorem not_decodeLadder : ¬ Obligations.DecodeLadder := by
  unfold Obligations.DecodeLadder
  rintro ⟨-, -, -, -, -, exhausted, -⟩
  let s : State := { servingModule with
    reqs := { list := [forwardedRead .attached] }
    slices := { misses := [exhaustedMiss] } }
  obtain ⟨frame, -⟩ := (exhausted s 0 .noConverge exhaustedMiss (by decide) (by decide) rfl (by decide) rfl (by decide)
    (by decide)).of_answer rfl
  have kept : _ = s.yoke := frame .yoke (by decide)
  exact absurd kept (by decide)

end Sys2Proof.Machine
end

