-- ==== Sys2Proof/Proofs/MediaRefuted.lean ====
section
/-!
PROOF. Statements about the media that leave out a case of the model: each is refuted by a serving module in that case.
-/
namespace Sys2Proof.Machine

/-- A module whose skimming is at its start level, and at its urgent level with one quad fewer free; its one victim holds the copy of
grain 0. -/
def nearUrgentModule : State :=
  { servingModule with
    dict := { cfg := [(0x220007, 100), (0x220008, 99)] }
    care := { reserveTaken := 33072 }
    map := { servingModule.map with
      entries := [(0, { st := .mapped, page := 163840 })]
      queue := [5] }
    media :=
      { groups := [(40, { st := .closed })]
        pages := [(163840, ⟨1, 1, 0, 0, [], [], [], true⟩)] } }

/-- Refutes O36: clause (1) takes the level of skimming before the quad of the copy's target is opened; that opening may bring the level to
the urgent one, and the leave has the highest priority. -/
theorem not_copyStreams : ¬ Obligations.CopyStreams := by
  unfold Obligations.CopyStreams
  rintro ⟨skims, -⟩
  let q : Pass := ⟨0, 20480, .skimming, 1, false, false, some 163840, 0, 0⟩
  let l : Leave := ⟨0, .skimming, 1, 3, 0⟩
  have moved : ((nearUrgentModule.skimLevel.movePage 163840 .skimming 1 (some 40)).map (fun u => u.media.passes)) = some [q] := by
    decide
  obtain ⟨u, moves, passes⟩ := Option.map_eq_some_iff.1 moved
  obtain ⟨-, -, -, -, prio⟩ := (skims nearUrgentModule u 40 163840 20480 ⟨1, 1, 0, 0, [], [], [], true⟩ q (by decide) (by decide) rfl
    (by decide) (by decide) (by decide) (by decide) (by decide) (by decide) rfl rfl moves
    (by rw [passes]; rfl) rfl).of_answer rfl
  exact absurd (prio l (by decide) rfl) (by decide)

/-- Refutes O31: clause (8) leaves out the reads that wait for the unit; the base of a Merging line, whose map segment is in DRAM, is looked
up as soon as another unit has come. -/
theorem not_fillsAndMerges : ¬ Obligations.FillsAndMerges := by
  unfold Obligations.FillsAndMerges
  rintro ⟨-, -, -, -, -, -, -, pagesIn, -⟩
  let m : Miss := { hardRead 0 with kind := .merge, pageIn := true }
  let s : State := { servingModule with
    slices := { misses := [m] }
    map := { paged := [(4294967296, true)] } }
  have kept := congrArg State.slices (Host.Outcome.next.inj (pagesIn s 2 0 rfl (by decide)))
  exact absurd kept (by decide)

/-- Refutes O33: clause (6) leaves out the programs of a dump, which are done in passes (R165, R184); the operation whose last pass ends
is over. -/
theorem not_writebackAndLeave : ¬ Obligations.WritebackAndLeave := by
  unfold Obligations.WritebackAndLeave
  rintro ⟨-, -, -, -, -, windowEnds⟩
  let o : DieOp := ⟨0, false, false, true, true, 0, 0, 0, [], 1⟩
  let s : State := { servingModule with media := { tokens := [(0, 0)], ops := [(0, o)] } }
  have ended := congrArg (fun t : State => t.media) (Host.Outcome.next.inj (windowEnds s 0 0 o rfl rfl))
  exact absurd ended (by decide)

/-- Refutes O34: the frame of clause (1) leaves out the gills; a codeword of the copy's source that converges with 30 corrected bits goes
to its gill (R395). -/
theorem not_programsAndResets : ¬ Obligations.ProgramsAndResets := by
  unfold Obligations.ProgramsAndResets
  rintro ⟨passDone, -⟩
  let p : Pass := ⟨0, 5, .skimming, 1, true, false, some 163840, 0, 0⟩
  let o : DieOp := ⟨0, false, false, true, false, 1, 0, 0, [], 0⟩
  let log : Page := ⟨1, 2, 0, 0, [], [(0, ⟨0, 0, 0, false⟩)], [], true⟩
  let s : State := { servingModule with
    map := { resident := true, entries := [(0, { st := .mapped, logged := true, page := 81920 })], overlay := [(0, ⟨0, 163840, 0⟩)] }
    media :=
      { passes := [p]
        ops := [(0, o)]
        pages := [(5, { log with verified := false }), (163840, log)] } }
  obtain ⟨frame, -⟩ := (passDone s 0 [⟨163840, 0, .converged 30⟩] p o rfl rfl rfl (by decide) rfl rfl rfl rfl (by decide)).of_answer rfl
  have kept : _ = s.gills := frame .gills (by decide)
  exact absurd kept (by decide)

/-- Refutes O35: clause (6) says that the map's entries stay; a zeroing that waited for the journal goes on when the lap is complete (R219),
and its grain is zero then. -/
theorem not_rebuildAndLaps : ¬ Obligations.RebuildAndLaps := by
  unfold Obligations.RebuildAndLaps
  rintro ⟨-, -, -, -, -, completes, -⟩
  let s : State := { servingModule with
    map := { resident := true, lapRunning := true, lapNext := { lap := 1, root := 1 } }
    cmds := { jobs := [(0x9030, { st := 3, acks := [0], held := true })] } }
  obtain ⟨-, -, -, -, -, -, -, entries⟩ := (completes s (by decide) (by decide)).of_answer rfl
  exact absurd entries (by decide)

end Sys2Proof.Machine
end

