-- ==== Sys2Proof/Proofs/YokeRefuted.lean ====
section
/-!
PROOF. Statements about the yoke that leave out a request or an answer that waits at the module: each is refuted by a module, its pair
enabled and its yoke trained, in which one waits.
-/
namespace Sys2Proof.Machine

/-- The serving module with its pair enabled (4100h.01) and its yoke trained, with a membership and the credits of its classes. -/
def yokedModule (member : Nat) (credits : Tab Nat) : State :=
  { servingModule with
    yoke := { member := member, speed := 6, width := 2, silent := false, credits := credits }
    dict := { cfg := [(0x410001, 1)], inForce := [(0x410001, 1)] } }

/-- A commit of the fabric role that the peer has been told to apply (R349). -/
def appliedCommit : PairCommit := { role := .fabric, route := .fabric, tid := 0, spec := 2, applied := true }

/-- Refutes O40: clause (9); a MirrorAck kept back for a line of the grain leaves before the answer (R321) and takes the class's one credit,
so the GrainChangeAck waits for another. -/
theorem not_yokeWrites : ¬ Obligations.YokeWrites := by
  unfold Obligations.YokeWrites
  rintro ⟨-, -, -, -, -, -, -, -, grainChanges, -⟩
  let s : State := { yokedModule 2 [(0, 1)] with
    yoke := { (yokedModule 2 [(0, 1)]).yoke with ackWait := [(0, 0, { ty := 4 })] } }
  obtain ⟨-, -, answered⟩ :=
    (grainChanges s 0 2 (by decide) (by decide) (by decide) (by decide) (by decide)).of_answer rfl
  exact absurd answered (by decide)

/-- Refutes O41: the frame of clause (3) leaves out the requests; a read that waits for its line goes on when the grain's lines are dropped. -/
theorem not_yokeResync : ¬ Obligations.YokeResync := by
  unfold Obligations.YokeResync
  rintro ⟨-, -, unmapped, -⟩
  let s : State := { yokedModule 7 [(2, 1)] with
    map := { resident := true, div := [(0, true)] }
    reqs := { list := [{ waitingRead with stage := .line }] } }
  obtain ⟨frame, -⟩ := (unmapped s 0 0 2 [] 0 0 (by decide) (by decide) (by decide) (by decide) (by decide)).of_answer rfl
  have kept : _ = s.reqs := frame .reqs (by decide)
  exact absurd (congrArg (fun q => q.list.map Req.stage) kept) (by decide +kernel)

/-- Refutes O42: the frame of clause (8) leaves out the requests; a controller reset drops the read that the peer had forwarded. -/
theorem not_yokeMembership : ¬ Obligations.YokeMembership := by
  unfold Obligations.YokeMembership
  rintro ⟨-, -, -, -, -, -, -, standsDown, -⟩
  let s : State := { yokedModule 2 [] with reqs := { list := [forwardedRead .pail] } }
  obtain ⟨frame, -⟩ :=
    (standsDown s .controllerReset (by decide) (by decide) (by decide) (by decide) (by decide)).of_answer rfl
  have kept : _ = s.reqs := frame .reqs (by decide)
  exact absurd (congrArg (fun q => q.list.length) kept) (by decide)

/-- Refutes O43: the frame of clause (5) leaves out the mailbox; a commit written by a Dictionary Transfer is answered as the output of that
command (R74). -/
theorem not_yokeCommits : ¬ Obligations.YokeCommits := by
  unfold Obligations.YokeCommits
  rintro ⟨-, -, -, -, done, -⟩
  let s : State := { yokedModule 2 [] with
    dict := { (yokedModule 2 []).dict with pair := some appliedCommit }
    mbox := { dictWait := [({ route := .fabric, key := 0 }, 0)] } }
  obtain ⟨frame, -⟩ := (done s appliedCommit (by decide) rfl rfl rfl).of_answer rfl
  have kept : _ = s.mbox := frame .mbox (by decide)
  exact absurd (congrArg (fun b => b.dictWait.length) kept) (by decide)

end Sys2Proof.Machine
end

