-- ==== Sys2Proof/Proofs/AnswersOwed.lean ====
section
/-!
PROOF. Statements about dictionary requests that leave out a Dictionary Transfer of the same route and TransferId whose response is still
owed: the next response of the route is that command's output (R74), so the mailbox changes and the route gets no response of its own. Each
is refuted by a serving module that owes one.
-/
namespace Sys2Proof.Machine

/-- A sender on the fabric manager's route. -/
def asker (key : Nat) : Who := { route := .fabric, key := key }

/-- The serving module that owes a sender of the fabric manager's route the response of TransferId 0. -/
def owingModule (key : Nat) : State := { servingModule with mbox := { dictWait := [(asker key, 0)] } }

/-- Whether a response of a Dictionary Transfer is owed after a command. -/
def owes : Host.Outcome State Fault Refusal → Bool
  | .next t => !t.mbox.dictWait.isEmpty
  | _ => true

/-- What a command does whose frame leaves out the mailbox, it cannot do and answer an owed response. -/
theorem Does.owes_eq {i : Instr} {s : State} {ps : List Part} {post : State → Prop} (h : Does i s ps post) (frame : Part.mbox ∉ ps) :
    owes (exec i s) = owes (.next s) := by
  obtain ⟨t, runs, keeps, -⟩ := h
  have kept : t.mbox = s.mbox := keeps .mbox frame
  rw [runs, owes, owes, kept]

/-- A read that answers no error answers a value. -/
theorem exists_ok_of_isOk {e : Except Nat Bytes} (h : e.isOk = true) : ∃ v, e = .ok v := by
  cases e with
  | error code => cases h
  | ok v => exact ⟨v, rfl⟩

/-- The request that reads the device type, 1000h.01. -/
def readDeviceType : Bytes := [1, 0, 0, 1, 0, 0x10, 0, 0]

/-- Refutes O47: clause (1), for a read of the device type. -/
theorem not_dtpTransfers : ¬ Obligations.DtpTransfers := by
  unfold Obligations.DtpTransfers
  rintro ⟨reads, -⟩
  obtain ⟨v, value⟩ : ∃ v, ((owingModule 0).asked (asker 0)).readOf (asker 0) 0x1000 1 true = .ok v :=
    exists_ok_of_isOk (by decide)
  exact absurd ((reads (owingModule 0) (asker 0) 0 0x1000 1 v (by decide) value (by decide)).owes_eq (by decide))
    (by decide)

/-- Refutes O48: clause (3). -/
theorem not_batches : ¬ Obligations.Batches := by
  unfold Obligations.Batches
  rintro ⟨-, -, discards⟩
  exact absurd ((discards (owingModule 0) (asker 0) (by decide) (by decide)).owes_eq (by decide)) (by decide)

/-- Refutes O49: clause (3). -/
theorem not_passwords : ¬ Obligations.Passwords := by
  unfold Obligations.Passwords
  rintro ⟨-, -, locks, -⟩
  exact absurd ((locks (owingModule 0) (asker 0) (by decide)).owes_eq (by decide)) (by decide)

/-- Refutes O50: clause (1), whose states that accept Join are log entry 100. -/
theorem not_pairCommands : ¬ Obligations.PairCommands := by
  unfold Obligations.PairCommands
  rintro ⟨joins, -⟩
  exact absurd ((joins (owingModule 0) (asker 0) (by decide) (by decide)).owes_eq (by decide)) (by decide)

/-- Refutes O51: clause (6), a discard of length 0 (log entry 58). -/
theorem not_spanCommands : ¬ Obligations.SpanCommands := by
  unfold Obligations.SpanCommands
  rintro ⟨-, -, -, -, -, discards, -⟩
  exact absurd ((discards (owingModule 0) (asker 0) (by decide) (by decide) (by decide)).owes_eq (by decide)) (by decide)

/-- Refutes O52: clause (6), for a scrub pass that runs. -/
theorem not_keyAndCareCommands : ¬ Obligations.KeyAndCareCommands := by
  unfold Obligations.KeyAndCareCommands
  rintro ⟨-, -, -, -, -, cancels, -⟩
  let s : State := { owingModule 0 with cmds := { ctl := [(0x9020, 1)] } }
  exact absurd ((cancels s (asker 0) (by decide) (by decide)).owes_eq (by decide)) (by decide)

/-- Refutes O53: clause (6). -/
theorem not_moduleCommands : ¬ Obligations.ModuleCommands := by
  unfold Obligations.ModuleCommands
  rintro ⟨-, -, -, -, -, stops, -⟩
  exact absurd ((stops (owingModule 0) (asker 0) (by decide)).owes_eq (by decide)) (by decide)

/-- Refutes O54: clause (5). -/
theorem not_keyCommands : ¬ Obligations.KeyCommands := by
  unfold Obligations.KeyCommands
  rintro ⟨-, -, -, -, signs, -⟩
  exact absurd ((signs (owingModule 0) (asker 0) (by decide) rfl).owes_eq (by decide)) (by decide)

/-- Refutes O55: clause (1). -/
theorem not_frontCacheCommands : ¬ Obligations.FrontCacheCommands := by
  unfold Obligations.FrontCacheCommands
  rintro ⟨disables, -⟩
  exact absurd ((disables (owingModule 0) (asker 0) (by decide) (by decide) (by decide) (by decide)).owes_eq (by decide))
    (by decide)

/-- Refutes O56: clause (5). -/
theorem not_firmwareAndTestCommands : ¬ Obligations.FirmwareAndTestCommands := by
  unfold Obligations.FirmwareAndTestCommands
  rintro ⟨-, -, -, -, cancels, -⟩
  exact absurd ((cancels (owingModule 0) (asker 0) (by decide)).owes_eq (by decide)) (by decide)

/-- Refutes O57: clause (4). -/
theorem not_counterAndPailCommands : ¬ Obligations.CounterAndPailCommands := by
  unfold Obligations.CounterAndPailCommands
  rintro ⟨-, -, -, freezes, -⟩
  exact absurd ((freezes (owingModule 0) (asker 0) (by decide) (by decide)).owes_eq (by decide)) (by decide)

/-- Refutes O46: clause (6); the response the command asks for answers the Dictionary Transfer of another sender of its route instead. The
request reads the device type. -/
theorem not_mailboxBackground : ¬ Obligations.MailboxBackground := by
  unfold Obligations.MailboxBackground
  rintro ⟨-, -, -, -, -, transfers, -⟩
  let s : State := { owingModule 1 with port := { attach := 2 } }
  obtain ⟨v, value⟩ : ∃ v, (s.asked (asker 0)).readOf (asker 0) (field readDeviceType 4 2) (field readDeviceType 3 1) true = .ok v :=
    exists_ok_of_isOk (by decide)
  obtain ⟨-, -, ⟨mbox, -⟩⟩ := (transfers s (asker 0) readDeviceType v (by decide) (by decide) rfl (by decide) (by decide)
    value (by decide) rfl).of_answer rfl
  have kept : _ = s.mbox.dictWait.length := congrArg (fun b => b.dictWait.length) mbox
  exact absurd kept (by decide)

end Sys2Proof.Machine
end

