-- ==== Sys2Proof/Proofs/CareFinds.lean ====
section
/-!
PROOF. What care finds (R253, R256 to R258, R263): each row is a deadline that passes and one rewrite of the care state.
-/
namespace Sys2Proof.Machine

variable {s : State}

@[simp] theorem State.senseWord_care (ppa : Nat) : (s.senseWord ppa).care = s.care := rfl

@[simp] theorem State.senseWord_cmds (ppa : Nat) : (s.senseWord ppa).cmds = s.cmds := rfl

/-- The place the strainer's lap has reached with a page, at its pace (R256). -/
def State.strainedTo (ppa : Nat) (s : State) : State :=
  (s.upCare (fun c => { c with lapPage := ppa + 1 })).elapseTo (s.care.lapStart + s.strained ppa * 1000 / max 1 (s.entry 0x2240 2))

theorem State.checkAt_of_strainer (ppa cw : Nat) (strainer : s.scrubs = false) : s.checkAt ppa cw = s.strainedTo ppa := by
  rw [State.checkAt, if_neg (by simp [strainer])]
  rfl

/-- A codeword the strainer reads that converges with at most 24 corrected bits and no more than RelocateBits is counted for its group, and
nothing else comes of it (R256 to R258). -/
theorem exec_strainerFinding_of_few {ppa cw c : Nat} (may : s.mayCheck ppa cw = true) (strainer : s.scrubs = false)
    (works : s.dieFailed? (ppaDie ppa) = false) (few : c ≤ 24) (below : c ≤ s.entry 0x2240 3) :
    exec (.strainerFinding ppa cw (.converged c)) s = .next ((s.strainedTo ppa).senseWord ppa) := by
  have alive : (s.strainedTo ppa).dieFailed? (ppaDie ppa) = false := by
    simpa [State.strainedTo, State.dieFailed?] using works
  have sensed : (s.strainedTo ppa).climb ppa (.converged c) = (s.strainedTo ppa).senseWord ppa := by
    simp [State.climb, alive, findingSamples, findingRebuilt, Nat.not_lt.mpr few]
  have lap : ((s.strainedTo ppa).senseWord ppa).scrubs = false := by
    have kept : (s.strainedTo ppa).cmds = s.cmds := by simp [State.strainedTo]
    rw [State.scrubs, State.ctl, State.senseWord_cmds, kept]
    exact strainer
  have fine : s.condemns (.converged c) = false := by simp [State.condemns, strainer, below]
  show execStrainerFinding ppa cw (.converged c) s = _
  simp [execStrainerFinding, may, State.checkAt_of_strainer ppa cw strainer, sensed, State.scrubTally, lap, fine]

/-- The state in which a cell may be updated: 10 s after its last update (R253). -/
def State.cellDue (c : Cell) (s : State) : State :=
  match c.lastNow with
  | some t => s.elapseTo (t + 10 * sec)
  | none => s

@[simp] theorem State.cellDue_frame (c : Cell) : s.sameButTime (s.cellDue c) := by
  unfold State.cellDue
  cases c.lastNow with
  | none => exact State.sameButTime_of_keepsBut (State.keepsBut_refl _ s)
  | some t => exact State.elapseTo_frame s (t + 10 * sec)

theorem State.cellDue_keeps (c : Cell) : s.keepsBut [.clk, .care, .obs, .perf] (s.cellDue c) := by
  unfold State.cellDue
  cases c.lastNow with
  | none => exact State.keepsBut_refl _ s
  | some t => exact State.elapseTo_keeps (t + 10 * sec) s (by decide) (State.keepsBut_refl _ s)

theorem State.cellDue_offsetsOf (c : Cell) (key : Nat) : (s.cellDue c).offsetsOf key = s.offsetsOf key := by
  simp [State.offsetsOf]

theorem State.cellDue_entry (c : Cell) (i sub : Nat) : (s.cellDue c).entry i sub = s.entry i sub := by
  simp [State.entry]

/-- Settles O37: of the cells only `learn` decides (the rounding of its gain is log entry 128); of a codeword, that it converged with few
bits. -/
theorem careFinds : Obligations.CareFinds := by
  unfold Obligations.CareFinds
  refine ⟨?cell, ?lap, ?dram, ?finding, ?brine⟩
  case cell =>
    intro s pkg cls band c found gathered enabled enough
    have goes : ¬ (s.entry 0x2210 6 = 0 ∨ c.gathered.length < s.entry 0x2210 7 ∨ c.gathered = []) := by
      simp [enabled, gathered, enough]
    have learns : exec (.ripeningCellUpdate pkg cls band) s = .next (((s.cellDue c).upCare (fun x => { x with
        cells := Tab.put x.cells (cellKey pkg cls band) { c with
          offsets := (List.range 15).map (fun k => learn ((s.cellDue c).entry 0x2210 8) ((s.cellDue c).entry 0x2210 9)
            (((s.cellDue c).offsetsOf (cellKey pkg cls band)).getD k 0) (c.gathered.map (fun m => m.getD k 0)))
          gathered := []
          lastUpdate := (s.cellDue c).clk.stamp
          lastNow := some (s.cellDue c).clk.now } })).save 32) := by
      show execRipeningCellUpdate pkg cls band s = _
      simp only [execRipeningCellUpdate, found, if_neg goes]
      rfl
    refine ⟨_, learns, ?_, ?_⟩
    · exact State.save_keeps 32 _ (by decide) (State.keeps_upCare _ (by decide) (State.cellDue_keeps c))
    · refine ⟨by simp [State.cellDue_offsetsOf, State.cellDue_entry], ?_⟩
      simp only [State.save_frame, State.upCare_clk, State.cellDue]
      cases c.lastNow with
      | none => rfl
      | some t => exact State.elapseTo_now s (t + 10 * sec)
  case lap =>
    intro s on may read
    show execStrainerLapEnd s = _
    simp only [execStrainerLapEnd, on, may, read, Bool.and_self, if_true]
    rfl
  case dram =>
    intro s on may
    have goes : (s.strains && s.checks) = true := by rw [on, may]; rfl
    refine ⟨_, congrArg Host.Outcome.next (if_pos goes), ?_, ?_⟩
    · dsimp only [State.sweepDram, List.foldl_nil]
      exact State.keeps_upCare _ (by decide) (State.elapseTo_keeps _ s (by decide) (State.keepsBut_refl _ s))
    · simp [State.sweepDram, sec]
  case finding =>
    intro s ppa cw c may strainer works few below
    refine ⟨_, exec_strainerFinding_of_few may strainer works few below, ?_, ?_⟩
    · exact State.senseWord_keeps ppa _ (by decide)
        (State.elapseTo_keeps _ _ (by decide) (State.keeps_upCare _ (by decide) (State.keepsBut_refl _ s)))
    · have read : (s.strainedTo ppa).care = { s.care with lapPage := ppa + 1 } := by simp [State.strainedTo]
      have media : (s.strainedTo ppa).media = s.media := by simp [State.strainedTo]
      refine ⟨?_, ?_, ?_, ?_, ?_⟩
      · rw [State.senseWord_care, read]
      · rw [State.senseWord_care, read]
      · show ((s.strainedTo ppa).codewordRead ppa).media.groups = _
        rw [State.codewordRead, State.upMedia_media, media]
      · show (s.strainedTo ppa).media.pages = _
        rw [media]
      · show (s.strainedTo ppa).media.relocQueue = _
        rw [media]
  case brine =>
    intro s dropped
    refine ⟨_, congrArg Host.Outcome.next (if_neg dropped), ?_, ?_⟩
    · exact State.log_keeps _ _ _ (by decide)
        (State.keeps_upCare _ (by decide) (State.elapseTo_keeps _ s (by decide) (State.keepsBut_refl _ s)))
    · simp [sec]

end Sys2Proof.Machine
end

