-- ==== Sys2Proof/Proofs/Regulation.lean ====
section
/-!
PROOF. Power regulation and shares (R433 to R436, R442): each row is a deadline that passes and one rewrite of the regulation state or the
port, with the event it tells.
-/
namespace Sys2Proof.Machine

variable (s : State)

/-- A counter that steps changes neither the pail nor the events the keeper holds (R505). -/
theorem State.countLevel_stores (ticks k sel : Nat) : s.obs.sameStores (s.countLevel ticks k sel).obs := by
  unfold State.countLevel
  extract_lets n
  cases s.level (k / 8) (bits sel 7 0) with
  | none => exact ⟨rfl, rfl, rfl, rfl, rfl, rfl, rfl, rfl⟩
  | some v =>
    dsimp only
    split
    · exact ⟨rfl, rfl, rfl, rfl, rfl, rfl, rfl, rfl⟩
    · exact State.bump_stores s _ _ _ _ _

/-- Time that passes changes neither the pail nor the events the keeper holds. -/
@[simp] theorem State.elapse_stores (dt : Nat) : s.obs.sameStores (s.elapse dt).obs := by
  unfold State.elapse
  extract_lets on ticks cyc s1
  have counted : ∀ (sel : Tab Nat) (t : State), t.obs.sameStores (sel.foldl (fun t ks => t.countLevel ticks ks.1 ks.2) t).obs := by
    intro sel
    induction sel with
    | nil => exact fun t => ⟨rfl, rfl, rfl, rfl, rfl, rfl, rfl, rfl⟩
    | cons ks sel ih => exact fun t => Obs.sameStores_trans (t.countLevel_stores ticks ks.1 ks.2) (ih _)
  exact counted s.perf.select s1

@[simp] theorem State.elapseTo_stores (t : Nat) : s.obs.sameStores (s.elapseTo t).obs := s.elapse_stores _

@[simp] theorem State.elapseTo_fastOn (t : Nat) : (s.elapseTo t).fastOn = s.fastOn := by
  simp [State.fastOn]

@[simp] theorem State.elapseTo_entry (t i sub : Nat) : (s.elapseTo t).entry i sub = s.entry i sub := by
  simp [State.entry]

variable {s}

/-- Settles O22: a measurement and a step each come to one branch of their row, by the base and the budget; steps of 10 percentage points,
never below 10, are log entry 73. -/
theorem powerRegulation : Obligations.PowerRegulation := by
  unfold Obligations.PowerRegulation
  refine ⟨?first, ?next, ?starts, ?falls, ?rises, ?stays⟩
  case first =>
    intro s mw on none
    show execBaseDrawMeasure mw s = _
    simp [execBaseDrawMeasure, on, none, State.upReg]
  case next =>
    intro s mw on some
    have runs : exec (.baseDrawMeasure mw) s = _ := congrArg Host.Outcome.next (if_neg (by simp [on]))
    refine Does.of_frame (execBaseDrawMeasure_keeps mw s (by decide) (State.keepsBut_refl _ s)) runs ?_
    simp [if_neg some, State.grantedQ, on]
  case starts =>
    intro s on less pacing
    show execPacingStep s = _
    simp [execPacingStep, on, less, pacing, State.upPort]
  case falls =>
    intro s on less pacing
    have runs : exec .pacingStep s = _ := congrArg Host.Outcome.next ((if_neg (by simp [on])).trans (if_pos less))
    refine Does.of_frame (execPacingStep_keeps s (by decide) (State.keepsBut_refl _ s)) runs ?_
    simp [pacing]
  case rises =>
    intro s on fits spare pacing
    have runs : exec .pacingStep s = _ := congrArg Host.Outcome.next
      ((if_neg (by simp [on])).trans ((if_neg (by simp [fits])).trans (if_pos (by simp [pacing, spare]))))
    refine Does.of_frame (execPacingStep_keeps s (by decide) (State.keepsBut_refl _ s)) runs ?_
    simp
  case stays =>
    intro s on fits still
    have stop : ¬ (s.port.pacing = true ∧ (!s.overBudget 2000) = true) := by
      rcases still with h | h <;> simp [h]
    show execPacingStep s = _
    simp only [execPacingStep, on, fits, Bool.not_true, Bool.false_eq_true, if_false, if_neg stop]

/-- The deliverable capacity computed anew from the settings and the throttle steps, and whether the guarantees exceed it (R434, R435). -/
theorem State.recompute_reg : s.recompute.reg.deliverRead = s.deliverReads ∧ s.recompute.reg.deliverWrite = s.deliverWrites ∧
    s.recompute.reg.oversub = (decide (s.deliverReads < s.shareSum 1) || decide (s.deliverWrites < s.shareSum 2)) := by
  unfold State.recompute
  extract_lets dr dw rs ws short s1
  split
  · split
    · exact ⟨rfl, rfl, rfl⟩
    · simp [s1, short, dr, dw, rs, ws]
  · split
    · simp [s1, short, dr, dw, rs, ws]
    · exact ⟨rfl, rfl, rfl⟩

theorem State.recompute_keeps_self : s.keepsBut [.reg, .obs] s.recompute :=
  State.recompute_keeps s (by decide) (State.keepsBut_refl _ s)

/-- What the capacity is computed from is not what it is written to. -/
theorem State.recompute_capacity : s.recompute.deliverReads = s.deliverReads ∧ s.recompute.deliverWrites = s.deliverWrites := by
  have kept := State.recompute_keeps_self (s := s)
  have ident : s.recompute.ident = s.ident := kept .ident (by decide)
  have clk : s.recompute.clk = s.clk := kept .clk (by decide)
  have therm : s.recompute.therm = s.therm := kept .therm (by decide)
  have care : s.recompute.care = s.care := kept .care (by decide)
  have dict : s.recompute.dict = s.dict := kept .dict (by decide)
  have step (k : Nat) : s.recompute.inStep 96 k = s.inStep 96 k := by
    rw [State.inStep, State.inStep, State.zoneSteps, State.zoneSteps, therm]
  have entry (i sub : Nat) : s.recompute.entry i sub = s.entry i sub := by simp only [State.entry, dict, ident]
  have amp : s.recompute.regAmp = s.regAmp := by simp only [State.regAmp, State.writeAmp, clk, care]
  exact ⟨by simp only [State.deliverReads, step], by simp only [State.deliverWrites, step, entry, ident, amp]⟩

/-- The second of a class's misses ends, and they are counted anew (R433). -/
def State.secondOver (k : Nat) (s : State) : State :=
  (s.elapseTo ((k / 16 + 1) * sec)).upReg (fun g => { g with missSecond := Tab.erase g.missSecond k })

/-- At the end of a second with misses the class reports them, where it asks for that and the guarantees can be met (R433, R435). -/
theorem exec_latencyMissReport_of_misses {cls k n : Nat} (misses : s.missesOf cls = some (k, n)) :
    exec (.latencyMissReport cls) s = .next (if s.entry (0x2300 + cls) 6 = 1 ∧ s.reg.oversub = false
      then ((s.secondOver k).log 0x2301 (cls * 2 ^ 32 + n)).raise 7 else s.secondOver k) := by
  have asks : (s.secondOver k).entry (0x2300 + cls) 6 = s.entry (0x2300 + cls) 6 := s.elapseTo_entry _ _ _
  have fits : (s.secondOver k).reg.oversub = s.reg.oversub := by simp [State.secondOver]
  show execLatencyMissReport cls s = _
  simp only [execLatencyMissReport, misses]
  change Host.Outcome.next (if (s.secondOver k).entry (0x2300 + cls) 6 = 1 ∧ (!(s.secondOver k).reg.oversub) = true then
    ((s.secondOver k).log 0x2301 (cls * 2 ^ 32 + n)).raise 7 else s.secondOver k) = _
  simp only [asks, fits, Bool.not_eq_true']

/-- Settles O23: the classes' misses are the regulation state's, and the event and its vector follow (R433). -/
theorem sharesAndLatency : Obligations.SharesAndLatency := by
  unfold Obligations.SharesAndLatency
  refine ⟨?capacity, ?anew, ?told, ?untold, ?none⟩
  case capacity =>
    intro s on before
    have runs : exec .deliverableRecompute s = _ := congrArg Host.Outcome.next (if_neg (by simp [on]))
    refine Does.of_frame (execDeliverableRecompute_keeps s (by decide) (State.keepsBut_refl _ s)) runs ?_
    simp only [if_neg before]
    let u : State := (s.elapseTo (s.reg.deliverAt + 10 * sec)).upReg (fun g => { g with
      deliverAt := (s.elapseTo (s.reg.deliverAt + 10 * sec)).clk.now })
    obtain ⟨reads, writes, oversub⟩ := State.recompute_reg (s := u)
    obtain ⟨sameReads, sameWrites⟩ := State.recompute_capacity (s := u)
    have clk : u.recompute.clk = u.clk := State.recompute_keeps_self .clk (by decide)
    have sums (sub : Nat) : u.shareSum sub = s.shareSum sub := by simp [State.shareSum, u, State.entry]
    refine ⟨reads.trans sameReads.symm, writes.trans sameWrites.symm, ?_, ?_⟩
    · rw [reads, writes, oversub, sums, sums]
    · rw [clk]
      exact s.elapseTo_now _
  case anew =>
    intro s cls k n misses
    refine Does.of_frame (execLatencyMissReport_keeps cls s (by decide) (State.keepsBut_refl _ s)) (exec_latencyMissReport_of_misses misses) ?_
    split <;> simp [State.secondOver, sec]
  case told =>
    intro s cls k n misses asks fits on room noneLost
    refine Does.of_frame (execLatencyMissReport_keeps cls s (by decide) (State.keepsBut_refl _ s)) (exec_latencyMissReport_of_misses misses) ?_
    rw [if_pos ⟨asks, fits⟩]
    obtain ⟨pail, -, -, -, -, pending, seq, -⟩ := s.elapseTo_stores ((k / 16 + 1) * sec)
    have logged := State.log_of_room (s := s.secondOver k) 0x2301 (cls * 2 ^ 32 + n) ((s.elapseTo_fastOn _).trans on)
      (by simpa [State.secondOver, pail] using room) (by simpa [State.secondOver, pending] using noneLost)
    obtain ⟨stored, -⟩ := logged
    obtain ⟨raised, -⟩ := State.raise_stores ((s.secondOver k).log 0x2301 (cls * 2 ^ 32 + n)) 7
    refine ⟨?_, fun direct => State.raise_msix _ 7 (by simpa [State.secondOver] using direct)⟩
    rw [raised, stored]
    simp [State.secondOver, severityOf]
  case untold =>
    intro s cls k n misses quiet
    refine Does.of_frame (execLatencyMissReport_keeps cls s (by decide) (State.keepsBut_refl _ s)) (exec_latencyMissReport_of_misses misses) ?_
    rw [if_neg (by rcases quiet with h | h <;> simp [h])]
    obtain ⟨pail, held, -⟩ := s.elapseTo_stores ((k / 16 + 1) * sec)
    exact ⟨pail, held⟩
  case none =>
    intro s cls none
    show execLatencyMissReport cls s = _
    simp only [execLatencyMissReport, none]

end Sys2Proof.Machine
end

