-- ==== Sys2Proof/Proofs/Thermal.lean ====
section
/-!
PROOF. The thermal state (R443 to R448): what a sensor's answer, a zone's round, a restored sensor and a rail come to.
-/
namespace Sys2Proof.Machine

variable {s : State}

/-- A zone that leaves a step keeps its sensors' states and readings. -/
@[simp] theorem State.leaveStep_sensors (z k : Nat) :
    (s.leaveStep z k).therm.faults = s.therm.faults ∧ (s.leaveStep z k).therm.readings = s.therm.readings := by
  simp [State.leaveStep]

/-- A zone that enters a step keeps its sensors' states and readings. -/
@[simp] theorem State.enterStep_sensors (z k : Nat) :
    (s.enterStep z k).therm.faults = s.therm.faults ∧ (s.enterStep z k).therm.readings = s.therm.readings := by
  simp [State.enterStep]

/-- A sensor with 60 good rounds leaves fault and reads its last answer (R444). -/
def State.restored (ch : Nat) (s : State) : State :=
  (s.upTherm (fun t => { t with
    faults := Tab.erase t.faults ch
    readings := Tab.put t.readings ch (Tab.get 0 t.raw ch) })).log 0x2026 ch

/-- The step a zone takes from the readings of its sensors once the last of them has left fault (R448). -/
def State.zoneAfter (chs : List Nat) (z : Nat) (s : State) : State :=
  if chs.any s.faulted then s
  else
    match s.hottest chs with
    | none => s
    | some t =>
      let u := if t < centiK (s.zoneLimits z).2.1 ∧ s.inStep z 2 then s.leaveStep z 2 else s
      if centiK (s.zoneLimits z).1 ≤ t ∧ !u.inStep z 1 then u.enterStep z 1 else u

theorem State.zoneAfter_sensors (chs : List Nat) (z : Nat) :
    (s.zoneAfter chs z).therm.faults = s.therm.faults ∧ (s.zoneAfter chs z).therm.readings = s.therm.readings := by
  unfold State.zoneAfter
  split
  · exact ⟨rfl, rfl⟩
  · cases s.hottest chs with
    | none => exact ⟨rfl, rfl⟩
    | some t =>
      dsimp only
      split <;> split <;> simp

theorem exec_sensorRestored_of_good {ch n : Nat} (fault : Tab.look s.therm.faults ch = some n) (good : 60 ≤ n) :
    exec (.sensorRestored ch) s = .next (match zoneOf s.ident.variant ch with
      | none => s.restored ch
      | some z => (s.restored ch).zoneAfter (zoneSensors s.ident.variant z) z) := by
  show execSensorRestored ch s = _
  simp only [execSensorRestored, fault, if_neg (Nat.not_lt.2 good)]
  rfl

/-- Settles O19: each row is a choice by the rounds counted. -/
theorem throttlingAndRails : Obligations.ThrottlingAndRails := by
  unfold Obligations.ThrottlingAndRails
  refine ⟨?leaves2, ?leaves1, ?held, ?restored, ?alone, ?early, ?rail, ?again⟩
  case leaves2 =>
    intro s z work step cool
    show execThrottleLeave z s = _
    simp only [execThrottleLeave, work, step, cool, Bool.false_eq_true, if_false, decide_true, Bool.and_self, if_true]
    rfl
  case leaves1 =>
    intro s z work notTwo step cool
    show execThrottleLeave z s = _
    simp only [execThrottleLeave, work, notTwo, step, cool, Bool.false_eq_true, if_false, decide_true, Bool.false_and, Bool.not_false,
      Bool.and_self, if_true]
    rfl
  case held =>
    intro s z fault
    exact congrArg Host.Outcome.next (if_pos fault)
  case restored =>
    intro s ch n fault good
    refine Does.of_frame (execSensorRestored_keeps ch s (by decide) (State.keepsBut_refl _ s)) (exec_sensorRestored_of_good fault good) ?_
    have alone : (s.restored ch).therm.faults = Tab.erase s.therm.faults ch ∧
        (s.restored ch).therm.readings = Tab.put s.therm.readings ch (Tab.get 0 s.therm.raw ch) := by simp [State.restored]
    cases zoneOf s.ident.variant ch with
    | none => simp [State.faulted, State.reading, alone, Tab.look_erase, Tab.get_put]
    | some z =>
      obtain ⟨faults, readings⟩ := State.zoneAfter_sensors (s := s.restored ch) (zoneSensors s.ident.variant z) z
      simp [State.faulted, State.reading, faults, readings, alone, Tab.look_erase, Tab.get_put]
  case alone =>
    intro s ch n fault good noZone
    rw [exec_sensorRestored_of_good fault good, noZone]
    rfl
  case early =>
    intro s ch n fault few
    show execSensorRestored ch s = _
    simp only [execSensorRestored, fault, if_pos few]
  case rail =>
    intro s ch bad fresh
    exact congrArg Host.Outcome.next (if_pos ⟨bad, fresh⟩)
  case again =>
    intro s ch told
    exact congrArg Host.Outcome.next (if_neg (by omega))

end Sys2Proof.Machine
end

