-- ==== Sys2Proof/Proofs/Housekeeping.lean ====
section
/-!
PROOF. The housekeeping round (R443, R444, R448): the round is counted and its time noted before the channels are read, and nothing of what
follows moves the clock or counts it again.
-/
namespace Sys2Proof.Machine

variable {s : State}

/-! ## An event does not depend on the thermal state -/

theorem State.cxlRecord_upTherm (f : Therm → Therm) (stamp log kind code param trans : Nat) :
    (s.upTherm f).cxlRecord stamp log kind code param trans = (s.cxlRecord stamp log kind code param trans).upTherm f := by
  unfold State.cxlRecord
  extract_lets g full t g' full' t'
  have same : g = g' := rfl
  rw [same]
  split
  · rfl
  · rw [apply_ite (fun t : State => t.upTherm f)]
    rfl

theorem State.cxlRecords_upTherm (f : Therm → Therm) (stamp trans code param : Nat) :
    (s.upTherm f).cxlRecords stamp trans code param = (s.cxlRecords stamp trans code param).upTherm f := by
  unfold State.cxlRecords
  induction recordKinds code generalizing s with
  | nil => rfl
  | cons k ks ih =>
    rw [List.foldl_cons, State.cxlRecord_upTherm, ih]
    rfl

theorem State.pailStore_upTherm (f : Therm → Therm) (e : Event) : (s.upTherm f).pailStore e = (s.pailStore e).upTherm f := by
  unfold State.pailStore
  rw [apply_ite (fun t : State => t.upTherm f)]
  dsimp only
  rw [apply_ite (fun t : State => t.upTherm f)]
  rfl

theorem State.emitAt_upTherm (f : Therm → Therm) (stamp trans entry code param : Nat) :
    (s.upTherm f).emitAt stamp trans entry code param = (s.emitAt stamp trans entry code param).upTherm f := by
  unfold State.emitAt
  dsimp only
  rw [← State.cxlRecords_upTherm, ← State.pailStore_upTherm]
  rfl

theorem State.log_upTherm (f : Therm → Therm) (code param : Nat) : (s.upTherm f).log code param = (s.log code param).upTherm f := by
  have settles : (s.upTherm f).settleOverrun = s.settleOverrun.upTherm f := by
    unfold State.settleOverrun State.emit
    rw [apply_ite (fun t : State => t.upTherm f), ← State.emitAt_upTherm]
    rfl
  unfold State.log State.logFor State.logBy
  rw [apply_ite (fun t : State => t.upTherm f), settles, State.emitAt_upTherm, apply_ite (fun t : State => t.upTherm f)]
  rfl

/-! ## What a round counts -/

/-- The clock and the round's own count and time are as they were. -/
def State.sameRound (s t : State) : Prop :=
  t.clk.now = s.clk.now ∧ t.therm.rounds = s.therm.rounds ∧ t.therm.lastAt = s.therm.lastAt

theorem State.sameRound_trans {t u : State} (h : s.sameRound t) (k : t.sameRound u) : s.sameRound u := by
  obtain ⟨now, rounds, last⟩ := h
  obtain ⟨now', rounds', last'⟩ := k
  exact ⟨now'.trans now, rounds'.trans rounds, last'.trans last⟩

theorem State.sameRound_foldl {α : Type} {f : State → α → State} (h : ∀ (t : State) (x : α), t.sameRound (f t x)) (xs : List α) (s : State) :
    s.sameRound (xs.foldl f s) := by
  induction xs generalizing s with
  | nil => exact ⟨rfl, rfl, rfl⟩
  | cons x xs ih => exact State.sameRound_trans (h s x) (ih _)

theorem State.sameRound_of_keepsBut {ps : List Part} {t : State} (h : s.keepsBut ps t) (clk : Part.clk ∉ ps) (therm : Part.therm ∉ ps) :
    s.sameRound t := by
  have clk : t.clk = s.clk := h .clk clk
  have therm : t.therm = s.therm := h .therm therm
  exact ⟨congrArg Clk.now clk, congrArg Therm.rounds therm, congrArg Therm.lastAt therm⟩

theorem State.log_sameRound (code param : Nat) : s.sameRound (s.log code param) :=
  State.sameRound_of_keepsBut (State.log_keeps (P := [.obs]) code param s (by decide) (State.keepsBut_refl _ s)) (by decide) (by decide)

theorem State.sense_sameRound (ch x : Nat) : s.sameRound (s.sense ch x) := by
  unfold State.sense
  split
  · exact ⟨rfl, rfl, rfl⟩
  · extract_lets good s1
    have read : s.sameRound s1 := ⟨rfl, rfl, rfl⟩
    split
    · exact State.sameRound_trans read (State.log_sameRound _ _)
    · exact read

theorem State.enterStep_sameRound (z k : Nat) : s.sameRound (s.enterStep z k) :=
  State.sameRound_trans (t := s.upTherm _) ⟨rfl, rfl, rfl⟩ (State.log_sameRound _ _)

/-- One step of a zone in a round (R447): entered at its threshold, its rounds below it counted. -/
def State.stepRound (hottest hysteresis z k thr : Nat) (s : State) : State :=
  (if centiK thr ≤ hottest ∧ !s.inStep z k then s.enterStep z k else s).upTherm (fun x => { x with
    below := Tab.set 0 x.below (z * 4 + k)
      (if hottest + 100 * hysteresis ≤ centiK thr then Tab.get 0 x.below (z * 4 + k) + 1 else 0) })

theorem State.stepRound_sameRound (hottest hysteresis z k thr : Nat) : s.sameRound (s.stepRound hottest hysteresis z k thr) := by
  unfold State.stepRound
  split
  · exact State.sameRound_trans (State.enterStep_sameRound z k) ⟨rfl, rfl, rfl⟩
  · exact ⟨rfl, rfl, rfl⟩

theorem State.zoneRound_sameRound (z : Nat) : s.sameRound (s.zoneRound z) := by
  unfold State.zoneRound
  extract_lets chs s1
  split
  · split
    · exact ⟨rfl, rfl, rfl⟩
    · exact State.sameRound_trans (t := s1) ⟨rfl, rfl, rfl⟩ (State.enterStep_sameRound z 2)
  · cases s.hottest chs with
    | none => exact ⟨rfl, rfl, rfl⟩
    | some t =>
      exact State.sameRound_trans (State.stepRound_sameRound t (s.entry 0x2020 10) z 1 _)
        (State.stepRound_sameRound t (s.entry 0x2020 10) z 2 _)

theorem State.railRound_sameRound : s.sameRound s.railRound := by
  refine State.sameRound_foldl (fun t r => ?_) _ s
  cases t.railLimits r with
  | none => exact ⟨rfl, rfl, rfl⟩
  | some limits => exact ⟨rfl, rfl, rfl⟩

theorem State.rowRate_sameRound : s.sameRound s.rowRate := by
  unfold State.rowRate
  extract_lets old n
  have drawn : s.sameRound (if n = 0 then s.draw else (0, s)).2 := by
    split <;> exact ⟨rfl, rfl, rfl⟩
  exact State.sameRound_trans drawn ⟨rfl, rfl, rfl⟩

/-- What a round does of a running controller's fast domains changes neither the clock nor the round's count. -/
theorem State.fastRound_sameRound :
    s.sameRound s.railRound.retrainRound.boundThermal.boundSoft.rowRate.firkinRound.hourly := by
  refine State.sameRound_trans State.railRound_sameRound ?_
  have bounds (t : State) : t.sameRound t.retrainRound.boundThermal.boundSoft :=
    State.sameRound_of_keepsBut (State.boundSoft_keeps (P := [.reg, .dram, .obs, .rstats]) _ (by decide) (State.boundThermal_keeps _ (by decide)
      (State.retrainRound_keeps t (by decide) (State.keepsBut_refl _ t)))) (by decide) (by decide)
  refine State.sameRound_trans (bounds _) (State.sameRound_trans State.rowRate_sameRound ?_)
  exact State.sameRound_of_keepsBut (State.hourly_keeps (P := [.care, .gills, .obs, .perf, .firkin]) _ (by decide)
    (State.firkinRound_keeps _ (by decide) (State.keepsBut_refl _ _))) (by decide) (by decide)

/-- The state in which a round reads its channels: a second after the last, counted, its time noted (R443). -/
def State.roundBegun (s : State) : State :=
  ((((if s.therm.rounds = 0 then s else s.elapseTo (s.therm.lastAt + sec)).upTherm (fun t => { t with
    rounds := t.rounds + 1 })).upTherm (fun t => { t with
    lastAt := (if s.therm.rounds = 0 then s else s.elapseTo (s.therm.lastAt + sec)).clk.now }))).count 60 1 1

theorem State.round_sameRound (readings : List Nat) (on : s.keeperOn = true) : s.roundBegun.sameRound (s.round readings) := by
  unfold State.round
  rw [if_neg (by simp [on])]
  extract_lets s1 s2 s3 s4 rail s5 s6 s7
  have sensed : s2.sameRound s3 := State.sameRound_foldl (fun _ _ => State.sense_sameRound _ _) _ s2
  have zoned : s3.sameRound s6 := by
    refine State.sameRound_trans (State.sameRound_foldl (fun t z => State.zoneRound_sameRound z) (zones s.ident.variant) s3) ?_
    exact State.sameRound_of_keepsBut (State.bankRound_keeps (P := [.care, .reg, .pwr, .budget, .bank, .obs, .perf]) _ (by decide)
      (State.critical_keeps _ (by decide) (State.keeps_upReg _ (by decide) (State.addDoses_keeps _ (by decide)
        (State.keepsBut_refl _ _))))) (by decide) (by decide)
  have fast : s6.sameRound s7 := by
    unfold s7
    split
    · exact State.fastRound_sameRound
    · exact ⟨rfl, rfl, rfl⟩
  have begun : s2.sameRound s7 := State.sameRound_trans sensed (State.sameRound_trans zoned fast)
  split
  · exact State.sameRound_trans begun (State.sameRound_of_keepsBut (State.beginVerify_keeps (P := [.pwr, .fw]) s7 (by decide)
      (State.keepsBut_refl _ s7)) (by decide) (by decide))
  · exact begun

theorem exec_housekeepingRound_sameRound (readings : List Nat) (on : s.keeperOn = true) :
    ∃ t, exec (.housekeepingRound readings) s = .next t ∧ s.roundBegun.sameRound t := by
  refine ⟨_, rfl, ?_⟩
  dsimp only
  split
  · exact State.sameRound_trans (State.round_sameRound readings on) (State.sameRound_of_keepsBut (State.checkAlerts_keeps (P := [.mbox, .obs])
      _ (by decide) (State.keepsBut_refl _ _)) (by decide) (by decide))
  · exact State.round_sameRound readings on

/-- A working sensor whose answer is not good enters fault with 2025h (R444). -/
theorem State.sense_of_bad {ch x : Nat} (sensor : isSensor s.ident.variant ch = true)
    (bad : goodReading (Tab.look s.therm.raw ch) x = false) (works : s.faulted ch = false) :
    s.sense ch x = (s.upTherm (fun t => { t with
      raw := Tab.put t.raw ch x
      readings := Tab.put t.readings ch 0xFFFF
      faults := Tab.put t.faults ch 0 })).log 0x2025 ch := by
  rw [State.sense, if_neg (by simp [sensor])]
  simp only [bad, works, Bool.not_false, Bool.and_self, if_true, Bool.false_and, Bool.false_eq_true, if_false]

/-- A working sensor whose answer is good reads it (R444). -/
theorem State.sense_of_good {ch x : Nat} (sensor : isSensor s.ident.variant ch = true)
    (good : goodReading (Tab.look s.therm.raw ch) x = true) (works : s.faulted ch = false) :
    s.sense ch x = s.upTherm (fun t => { t with
      raw := Tab.put t.raw ch x
      readings := Tab.put t.readings ch x }) := by
  have noFault : Tab.look s.therm.faults ch = none := by simpa [State.faulted] using works
  rw [State.sense, if_neg (by simp [sensor])]
  simp [good, works, noFault, State.upTherm]

/-- A zone with a sensor in fault that is not in throttle-2 enters it (R448). -/
theorem State.zoneRound_of_fault {z : Nat} (fault : (zoneSensors s.ident.variant z).any s.faulted = true) (low : s.zoneSteps z < 2) :
    s.zoneRound z = (s.upTherm (fun t => { t with
      steps := Tab.set 0 t.steps z (s.zoneSteps z + 2)
      below := Tab.erase (Tab.erase t.below (z * 4 + 1)) (z * 4 + 2) })).log 0x2023 (z * 256 + 2) := by
  have notTwo : (s.upTherm (fun t => { t with below := Tab.erase (Tab.erase t.below (z * 4 + 1)) (z * 4 + 2) })).inStep z 2 = false := by
    have steps : s.zoneSteps z / 2 = 0 := by omega
    show decide (s.zoneSteps z / 2 % 2 = 1) = false
    rw [steps]
    rfl
  rw [State.zoneRound]
  simp only [fault, notTwo, if_true, Bool.false_eq_true, if_false]
  rfl

/-- Settles O18. -/
theorem housekeepingRound : Obligations.HousekeepingRound := by
  unfold Obligations.HousekeepingRound
  refine ⟨?round, ?fails, ?reads, ?zone⟩
  case round =>
    intro s readings on before
    obtain ⟨t, runs, now, rounds, last⟩ := exec_housekeepingRound_sameRound readings on
    refine Does.of_frame (execHousekeepingRound_keeps readings s (by decide) (State.keepsBut_refl _ s)) runs ?_
    rw [now, rounds, last]
    simp [State.roundBegun, before, sec]
  case fails =>
    intro s ch x sensor bad works
    refine ⟨?_, ?_, ?_, State.sense_keeps ch x s (by decide) (State.keepsBut_refl _ s)⟩ <;> rw [State.sense_of_bad sensor bad works]
    · simp [State.faulted, Tab.look_put]
    · simp [State.reading, Tab.get_put]
    · rw [State.log_upTherm]
      rfl
  case reads =>
    intro s ch x sensor good works
    rw [State.sense_of_good sensor good works]
    exact ⟨works, by simp [State.reading, Tab.get_put], State.keeps_upTherm _ (by decide) (State.keepsBut_refl _ s)⟩
  case zone =>
    intro s z fault low
    refine ⟨?_, ?_, State.zoneRound_keeps z s (by decide) (State.keepsBut_refl _ s)⟩ <;> rw [State.zoneRound_of_fault fault low]
    · simp [State.zoneSteps, Tab.get_set]
    · rw [State.log_upTherm]
      rfl

end Sys2Proof.Machine
end

