-- ==== Sys2Proof/Proofs/Bank.lean ====
section
/-!
PROOF. The hold-up bank (R155, R157, R159, R552 to R554): what a measurement finds is written to the bank, and its energy and DerivedBudget are
computed anew from it.
-/
namespace Sys2Proof.Machine

variable {s : State}

theorem State.armCheck_budget : s.armCheck.budget = s.budget := by
  unfold State.armCheck
  split
  · split <;> simp
  · split <;> simp

/-- The energy and DerivedBudget computed anew from the bank (R155, R552). -/
theorem State.rederive_budget : s.rederive.budget.energy = s.bankEnergy ∧
    s.rederive.budget.derived = derive s.ident.variant s.bankEnergy (s.entry 0x2010 2) (s.entry 0x2010 1) := by
  unfold State.rederive
  extract_lets e b s1 s2
  have written : s2.budget.energy = e ∧ s2.budget.derived = b := by
    unfold s2
    cases s.budget.reference with
    | none => exact ⟨rfl, rfl⟩
    | some r =>
      dsimp only
      split
      · exact ⟨rfl, rfl⟩
      · split <;> simp [s1]
  rw [State.armCheck_budget]
  exact written

@[simp] theorem State.rederive_bank : s.rederive.bank = s.bank :=
  State.rederive_keeps (P := [.pwr, .budget, .obs]) s (by decide) (State.keepsBut_refl _ s) .bank (by decide)

/-- The energy and DerivedBudget are those of the bank as it is thereafter. -/
theorem State.rederive_anew : s.rederive.budget.energy = s.rederive.bankEnergy ∧
    s.rederive.budget.derived = derive s.ident.variant s.rederive.bankEnergy (s.entry 0x2010 2) (s.entry 0x2010 1) := by
  have same : s.rederive.bankEnergy = s.bankEnergy := by
    rw [State.bankEnergy, State.bankCap, State.bankVolts, State.rederive_bank]
    rfl
  rw [same]
  exact State.rederive_budget

/-- A bank without energy carries no dirty line (R155). -/
theorem derive_zero (v : Variant) (margin most : Nat) : derive v 0 margin most = 0 := by
  have empty : ((0 : Nat) : Int) = 0 := rfl
  simp only [derive, empty, Int.zero_mul]
  have none : ((4 * 31300 * (0 - 4 * (v.dumpPower : Int)) - 2 * v.dumpPower * 107374).fdiv (v.dumpPower * 107374)).toNat = 0 := by
    cases v <;> decide
  rw [none]
  exact Nat.min_zero most

theorem State.bankFault_faulty (why : Nat) : (s.bankFault why).bank.faulty = true := by
  unfold State.bankFault
  split
  · assumption
  · simp

/-- A bank at fault has no energy and no budget (R159). -/
theorem State.rederive_of_faulty (fault : s.bank.faulty = true) : s.rederive.budget.energy = 0 ∧ s.rederive.budget.derived = 0 := by
  obtain ⟨energy, derived⟩ := State.rederive_budget (s := s)
  have none : s.bankEnergy = 0 := if_pos fault
  rw [energy, derived, none]
  exact ⟨rfl, derive_zero _ _ _⟩

/-- Settles O21: a measurement is the first since the start, and what it finds decides; one without fault ends the bank's fault (log entry
74). -/
theorem holdUpBank : Obligations.HoldUpBank := by
  unfold Obligations.HoldUpBank
  refine ⟨?raise, ?good, ?stringA, ?stringB, ?path⟩
  case raise =>
    intro s low cool
    have runs : exec .chargeVoltageRaise s = _ := congrArg Host.Outcome.next (if_pos ⟨low, cool⟩)
    refine Does.of_frame (execChargeVoltageRaise_keeps s (by decide) (State.keepsBut_refl _ s)) runs ?_
    dsimp only
    rw [apply_ite State.bank, State.rederive_bank, ite_self]
    rfl
  case good =>
    intro s a b on main idle first stA stB
    have runs : exec (.capacitanceMeasure a b .none) s = .next (s.upBank (fun k => { k with
        measured := true
        measuredAt := s.clk.now
        capA := a
        capB := b
        faulty := false })).rederive := by
      show execCapacitanceMeasure a b .none s = _
      simp [execCapacitanceMeasure, on, main, idle, first, stA, stB, State.upBank]
    refine Does.of_frame (execCapacitanceMeasure_keeps a b .none s (by decide) (State.keepsBut_refl _ s)) runs ?_
    exact ⟨State.rederive_bank, State.rederive_anew⟩
  case stringA =>
    intro s a b short on main idle first stA stB
    have runs : exec (.capacitanceMeasure a b (if short then .stringShort 0 else .stringOpen 0)) s = _ :=
      congrArg Host.Outcome.next (if_neg (by simp [on, main, idle]))
    refine Does.of_frame (execCapacitanceMeasure_keeps a b _ s (by decide) (State.keepsBut_refl _ s)) runs ?_
    cases short <;> simp [first, stA, stB, State.bankCap]
  case stringB =>
    intro s a b short on main idle first stA stB
    have runs : exec (.capacitanceMeasure a b (if short then .stringShort 1 else .stringOpen 1)) s = _ :=
      congrArg Host.Outcome.next (if_neg (by simp [on, main, idle]))
    refine Does.of_frame (execCapacitanceMeasure_keeps a b _ s (by decide) (State.keepsBut_refl _ s)) runs ?_
    cases short <;> simp [first, stA, stB, State.bankCap]
  case path =>
    intro s a b f on main idle first path
    have runs : exec (.capacitanceMeasure a b f) s = _ := congrArg Host.Outcome.next (if_neg (by simp [on, main, idle]))
    refine Does.of_frame (execCapacitanceMeasure_keeps a b f s (by decide) (State.keepsBut_refl _ s)) runs ?_
    have atFault (why : Nat) (u : State) : (u.bankFault why).rederive.bank.faulty = true ∧ (u.bankFault why).rederive.budget.energy = 0 ∧
        (u.bankFault why).rederive.budget.derived = 0 :=
      ⟨by rw [State.rederive_bank, State.bankFault_faulty], State.rederive_of_faulty (State.bankFault_faulty why)⟩
    simp only [List.mem_cons, List.not_mem_nil, or_false] at path
    rcases path with rfl | rfl | rfl
    · exact atFault 1 _
    · exact atFault 2 _
    · exact atFault 3 _

end Sys2Proof.Machine
end

