-- ==== Sys2Proof/Proofs/Notify.lean ====
section
/-!
PROOF. Notify (R81, R477, R478): time that passes may count occurrences for the next Notify, but leaves the one that waits as it is.
-/
namespace Sys2Proof.Machine

variable {s : State}

/-- What a condition's Notify that waits was sent with, and what has been sent, are as they were; occurrences may have been counted. -/
def Obs.sameNotify (o p : Obs) : Prop :=
  p.notifyOut = o.notifyOut ∧ p.resends = o.resends ∧ ∀ c, ∃ count first,
    Tab.get {} p.notes c = { Tab.get ({} : Note) o.notes c with count := count, first := first }

theorem Obs.sameNotify_of_eq {o p : Obs} (out : p.notifyOut = o.notifyOut) (resends : p.resends = o.resends) (notes : p.notes = o.notes) :
    o.sameNotify p :=
  ⟨out, resends, fun c => ⟨(Tab.get {} o.notes c).count, (Tab.get {} o.notes c).first, by rw [notes]⟩⟩

theorem Obs.sameNotify_trans {o p q : Obs} (h : o.sameNotify p) (k : p.sameNotify q) : o.sameNotify q := by
  obtain ⟨out, resends, notes⟩ := h
  obtain ⟨out', resends', notes'⟩ := k
  refine ⟨out'.trans out, resends'.trans resends, fun c => ?_⟩
  obtain ⟨count, first, h⟩ := notes c
  obtain ⟨count', first', k⟩ := notes' c
  exact ⟨count', first', by rw [k, h]⟩

/-- A condition that occurs is counted for its next Notify (R81). -/
theorem Obs.ring_sameNotify (o : Obs) (n attach stamp : Nat) : o.sameNotify (o.ring n attach stamp) := by
  unfold Obs.ring
  extract_lets b
  split
  · exact Obs.sameNotify_of_eq rfl rfl rfl
  · split
    · refine ⟨rfl, rfl, fun c => ?_⟩
      rw [Tab.get_put]
      split
      · next same => exact ⟨_, _, by rw [← same]⟩
      · exact ⟨(Tab.get {} o.notes c).count, (Tab.get {} o.notes c).first, rfl⟩
    · exact Obs.sameNotify_of_eq rfl rfl rfl

theorem State.wrap_sameNotify (block n total addr partner : Nat) : s.obs.sameNotify (s.wrap block n total addr partner).obs := by
  unfold State.wrap
  extract_lets k intr ov s1 old handles smp s2 soon
  have counted : s2.obs = s.obs := by
    unfold s2
    split <;> rfl
  split
  · exact Obs.sameNotify_of_eq (by rw [counted]) (by rw [counted]) (by rw [counted])
  · exact Obs.sameNotify_trans (p := (s2.upObs (fun o => { o with lastSix := some s.clk.now })).obs)
      (Obs.sameNotify_of_eq (by rw [State.upObs_obs, counted]) (by rw [State.upObs_obs, counted]) (by rw [State.upObs_obs, counted]))
      (Obs.ring_sameNotify _ 6 _ _)

theorem State.countLevel_sameNotify (ticks k sel : Nat) : s.obs.sameNotify (s.countLevel ticks k sel).obs := by
  unfold State.countLevel
  extract_lets n
  cases s.level (k / 8) (bits sel 7 0) with
  | none => exact Obs.sameNotify_of_eq rfl rfl rfl
  | some v =>
    dsimp only
    split
    · exact Obs.sameNotify_of_eq rfl rfl rfl
    · unfold State.bump
      extract_lets total
      split
      · exact Obs.sameNotify_of_eq rfl rfl rfl
      · exact State.wrap_sameNotify _ _ _ _ _

/-- Time that passes counts occurrences at most. -/
theorem State.elapseTo_sameNotify (t : Nat) : s.obs.sameNotify (s.elapseTo t).obs := by
  unfold State.elapseTo State.elapse
  extract_lets on ticks cyc s1
  have counted : ∀ (sel : Tab Nat) (u : State), u.obs.sameNotify (sel.foldl (fun u ks => u.countLevel ticks ks.1 ks.2) u).obs := by
    intro sel
    induction sel with
    | nil => exact fun u => Obs.sameNotify_of_eq rfl rfl rfl
    | cons ks sel ih => exact fun u => Obs.sameNotify_trans (u.countLevel_sameNotify ticks ks.1 ks.2) (ih _)
  exact counted s.perf.select s1

theorem Tab.get_eq_of_ne {α : Type} {t : Tab α} {n : Nat} {d e : α} (h : Tab.get d t n ≠ d) : Tab.get e t n = Tab.get d t n := by
  unfold Tab.get at h ⊢
  cases found : Tab.look t n with
  | none => exact absurd (by rw [found]) h
  | some v => rfl

/-- Settles O25; the resend repeats the sequence it had (log entry 42). -/
theorem notifyProtocol : Obligations.NotifyProtocol := by
  unfold Obligations.NotifyProtocol
  refine ⟨?sent, ?again, ?acknowledged, ?other⟩
  case sent =>
    intro s c may some idle
    have runs : exec (.notifySend c) s = _ := congrArg Host.Outcome.next (if_pos (by simp [may, some, idle]))
    refine Does.of_frame (execNotifySend_keeps c s (by decide) (State.keepsBut_refl _ s)) runs ?_
    simp [State.putNotify, Tab.get_put]
  case again =>
    intro s c may waits
    have runs : exec (.notifyResend c) s = _ := congrArg Host.Outcome.next (if_pos (by simp [may, waits]))
    refine Does.of_frame (execNotifyResend_keeps c s (by decide) (State.keepsBut_refl _ s)) runs ?_
    have now := s.elapseTo_now ((Tab.get {} s.obs.notes c).sentAt + sec)
    have dest : (s.elapseTo ((Tab.get {} s.obs.notes c).sentAt + sec)).notifyDest = s.notifyDest := by
      rw [State.notifyDest, State.elapseTo_entry, (State.elapseTo_frame s _).2.2.1]
      rfl
    have same := s.elapseTo_sameNotify ((Tab.get {} s.obs.notes c).sentAt + sec)
    dsimp only
    generalize s.elapseTo ((Tab.get {} s.obs.notes c).sentAt + sec) = u at now dest same ⊢
    obtain ⟨out, resends, notes⟩ := same
    obtain ⟨count, first, kept⟩ := notes c
    have listed : Tab.get ({} : Note) u.obs.notes c ≠ {} := by
      intro none
      have lost : false = true := (congrArg Note.pending (none.symm.trans kept)).trans waits
      exact absurd lost (by decide)
    simp [State.putNotify, Tab.get_put, Tab.get_eq_of_ne listed, kept, waits, out, resends, dest, now, sec]
  case acknowledged =>
    intro s c may waits
    have runs : exec (.notifyAck c (Tab.get ({} : Note) s.obs.notes c).seq) s = _ :=
      congrArg Host.Outcome.next (if_pos (by simp [may, waits]))
    exact Does.of_frame (execNotifyAck_keeps c _ s (by decide) (State.keepsBut_refl _ s)) runs rfl
  case other =>
    intro s c q differs
    exact congrArg Host.Outcome.next (if_neg (by simp [differs]))

end Sys2Proof.Machine
end

