-- ==== Sys2Proof/Proofs/Counters.lean ====
section
/-!
PROOF. Counters and the Firkin's time (R80, R501, R505, R507, R512, R515): what a counter that wraps leaves, and a period that closes.
-/
namespace Sys2Proof.Machine

variable {s : State}

/-- A bit of the Overflow byte is set when it is set already or its weight is added to it (R505). -/
theorem overflow_bit_set (ov n : Nat) : (if ov / 2 ^ n % 2 = 1 then ov else ov + 2 ^ n) / 2 ^ n % 2 = 1 := by
  split
  · assumption
  · rw [Nat.add_div_right ov (Nat.two_pow_pos n)]
    omega

/-- The events of a counter that wraps (R80): vector 6, where none was yet. -/
theorem State.wrap_obs (block n total addr partner : Nat) : (s.wrap block n total addr partner).obs.pail = s.obs.pail ∧
    (s.obs.lastSix = none → s.port.attach = 1 → (s.wrap block n total addr partner).obs.msix = s.obs.msix ++ [6]) := by
  obtain ⟨pail, -⟩ := s.wrap_stores block n total addr partner
  refine ⟨pail, fun first direct => ?_⟩
  unfold State.wrap
  extract_lets k intr ov s1 old handles smp s2 soon
  have counted : s2.obs = s.obs ∧ s2.port = s.port := by
    unfold s2
    split <;> exact ⟨rfl, rfl⟩
  have notSoon : soon = false := by
    unfold soon
    rw [first]
  obtain ⟨obs, port⟩ := counted
  rw [notSoon, if_neg (by decide)]
  simp [State.raise, State.upObs, Obs.ring, obs, port, direct]

/-- The counters as a counter that wraps leaves them (R501, R505). -/
theorem State.wrap_perf (block n total addr partner : Nat) :
    Tab.get 0 (s.wrap block n total addr partner).perf.value (block * 8 + n) =
      wrapValue (decide (bits (Tab.get 0 s.perf.select (block * 8 + n)) 17 17 = 1)) (Tab.get 0 s.perf.reload (block * 8 + n)) total ∧
    Tab.get 0 (s.wrap block n total addr partner).perf.overflow block / 2 ^ n % 2 = 1 ∧
    (s.wrap block n total addr partner).perf.select = s.perf.select := by
  unfold State.wrap
  extract_lets k intr ov s1 old handles smp s2 soon
  have counted : s2.perf.value = s1.perf.value ∧ s2.perf.overflow = s1.perf.overflow ∧ s2.perf.select = s1.perf.select := by
    unfold s2
    split <;> exact ⟨rfl, rfl, rfl⟩
  obtain ⟨value, overflow, select⟩ := counted
  rw [apply_ite State.perf]
  simp only [State.raise, State.upObs_perf, ite_self, value, overflow, select]
  refine ⟨?_, ?_, rfl⟩
  · simp only [s1, State.upPerf_perf, Tab.get_set]
    exact if_pos rfl
  · simp only [s1, State.upPerf_perf, Tab.get_set, if_true]
    exact overflow_bit_set ov n

/-- A counter that wraps with Interrupt records a sample of the request named, in a block that handles requests; without it none (R505,
R506). -/
theorem State.wrap_samples (block n total addr partner : Nat) : (s.wrap block n total addr partner).perf.samples =
    if bits (Tab.get 0 s.perf.select (block * 8 + n)) 17 17 = 1 then
      let handles := block < 32 || (48 > block && 31 < block) || block = 56 || block = 57
      Tab.put s.perf.samples block
        { addr := if handles then addr else 0xFFFFFFFFFFFFFFFF
          entry := if handles then partner else 0xFFFF
          counter := n
          count := ((Tab.get ({} : Sample) s.perf.samples block).count + 1) % 2 ^ 32
          stamp := s.clk.stamp }
    else s.perf.samples := by
  unfold State.wrap
  extract_lets k intr ov s1 old handles smp s2 soon
  rw [apply_ite State.perf]
  simp only [State.raise, State.upObs_perf, ite_self, s2]
  by_cases sampled : bits (Tab.get 0 s.perf.select k) 17 17 = 1
  · rw [if_pos sampled, if_pos (decide_eq_true sampled)]
    rfl
  · rw [if_neg sampled, if_neg (by simpa [intr] using sampled)]
    rfl

/-- A period that closes is followed by the next, which starts now (R512). -/
theorem State.closePeriod_firkin (shortened : Bool) : (s.closePeriod shortened).firkin.period = s.firkin.period + 1 ∧
    (s.closePeriod shortened).firkin.opened = [] ∧ (s.closePeriod shortened).firkin.startNow = s.clk.now ∧
    (s.closePeriod shortened).firkin.running = s.firkin.running ∧ (s.closePeriod shortened).firkin.frozen = false := by
  unfold State.closePeriod
  extract_lets flags dur one kept
  have runsOn : ∀ (ks : List Nat) (f : Firkin), (ks.foldl (fun g i => one g (i + 1)) f).running = f.running := by
    intro ks
    induction ks with
    | nil => exact fun _ => rfl
    | cons k ks ih => exact fun f => ih (one f (k + 1))
  simp only [State.count_frame, State.upFirkin_firkin, runsOn, and_self]

theorem State.closePeriod_clk (shortened : Bool) : (s.closePeriod shortened).clk = s.clk :=
  State.closePeriod_keeps (P := [.obs, .perf, .firkin]) shortened s (by decide) (State.keepsBut_refl _ s) .clk (by decide)

theorem State.elapseTo_firkin (t : Nat) : (s.elapseTo t).firkin = s.firkin := by
  simp

/-- A period that closes is no event. -/
theorem State.closePeriod_stores (shortened : Bool) : s.obs.sameStores (s.closePeriod shortened).obs := by
  unfold State.closePeriod
  extract_lets flags dur one kept
  exact (s.upFirkin _).count_stores 60 6 _

/-- A Firkin that thaws closes the period that has ended, or runs on in it; neither is an event (R515). -/
theorem State.thaw_of_frozen (frozen : s.firkin.frozen = true) : s.thaw.firkin.frozen = false ∧ s.thaw.clk = s.clk ∧ s.thaw.pwr = s.pwr ∧
    s.obs.sameStores s.thaw.obs := by
  have kept := State.thaw_keeps (P := [.obs, .perf, .firkin]) s (by decide) (State.keepsBut_refl _ s)
  have melted : s.thaw.firkin.frozen = false ∧ s.obs.sameStores s.thaw.obs := by
    rw [State.thaw, if_neg (by simp [frozen])]
    split
    · obtain ⟨-, -, -, -, melted⟩ := State.closePeriod_firkin (s := s) false
      exact ⟨melted, State.closePeriod_stores false⟩
    · exact ⟨rfl, rfl, rfl, rfl, rfl, rfl, rfl, rfl, rfl⟩
  obtain ⟨melted, stores⟩ := melted
  exact ⟨melted, kept .clk (by decide), kept .pwr (by decide), stores⟩

/-- Settles O26: what a counter that wraps leaves, and a period that closes; vector 6 at an overflow without Interrupt is log entry 126. -/
theorem countersAndFirkin : Obligations.CountersAndFirkin := by
  unfold Obligations.CountersAndFirkin
  refine ⟨?ready, ?wraps, ?samples, ?closes, ?thaws⟩
  case ready =>
    intro s latched
    exact congrArg Host.Outcome.next (if_pos latched)
  case wraps =>
    intro s b n a p runs selects plain full
    have run : exec (.counterWrap b n a p) s = _ := congrArg Host.Outcome.next (if_pos ⟨runs, selects, full⟩)
    refine Does.of_frame (execCounterWrap_keeps b n a p s (by decide) (State.keepsBut_refl _ s)) run ?_
    obtain ⟨value, overflow, select⟩ := State.wrap_perf (s := s) b n (2 ^ 48) a p
    obtain ⟨pail, vector⟩ := State.wrap_obs (s := s) b n (2 ^ 48) a p
    refine ⟨?_, overflow, select, ?_, vector, pail⟩
    · rw [value, plain]
      rfl
    · rw [State.wrap_samples, plain]
      rfl
  case samples =>
    intro s b n a p runs selects interrupt full slice
    have run : exec (.counterWrap b n a p) s = _ := congrArg Host.Outcome.next (if_pos ⟨runs, selects, full⟩)
    refine Does.of_frame (execCounterWrap_keeps b n a p s (by decide) (State.keepsBut_refl _ s)) run ?_
    obtain ⟨value, overflow, -⟩ := State.wrap_perf (s := s) b n (2 ^ 48) a p
    obtain ⟨pail, vector⟩ := State.wrap_obs (s := s) b n (2 ^ 48) a p
    refine ⟨?_, overflow, ?_, vector, pail⟩
    · rw [value, interrupt]
      simp [wrapValue]
    · rw [State.wrap_samples, if_pos interrupt]
      simp [Tab.get_put, slice]
  case closes =>
    intro s running going
    have run : exec .firkinPeriodClose s = _ := congrArg Host.Outcome.next (if_pos (by simp [running, going]))
    refine Does.of_frame (execFirkinPeriodClose_keeps s (by decide) (State.keepsBut_refl _ s)) run ?_
    have clk := (s.elapseTo (s.firkin.startNow + s.entry 0x7000 1 * sec)).closePeriod_clk false
    obtain ⟨period, opened, start, runs, -⟩ := State.closePeriod_firkin (s := s.elapseTo (s.firkin.startNow + s.entry 0x7000 1 * sec)) false
    refine ⟨?_, opened, ?_, ?_, ?_⟩
    · rw [period, State.elapseTo_firkin]
    · rw [clk]
      exact s.elapseTo_now _
    · rw [start, clk]
    · rw [runs, State.elapseTo_firkin, running]
  case thaws =>
    intro s running frozen
    have run : exec .firkinAutoThaw s = _ := congrArg Host.Outcome.next (if_pos (by simp [running, frozen]))
    refine Does.of_frame (execFirkinAutoThaw_keeps s (by decide) (State.keepsBut_refl _ s)) run ?_
    have thawed := State.thaw_of_frozen (s := s.elapseTo (min s.firkin.thawAt (s.firkin.startNow + 65535 * sec)))
      (by rw [State.elapseTo_firkin, frozen])
    have now := s.elapseTo_now (min s.firkin.thawAt (s.firkin.startNow + 65535 * sec))
    have fast := s.elapseTo_fastOn (min s.firkin.thawAt (s.firkin.startNow + 65535 * sec))
    obtain ⟨pail, -, -, -, -, pending, seq, -⟩ := s.elapseTo_stores (min s.firkin.thawAt (s.firkin.startNow + 65535 * sec))
    dsimp only
    generalize s.elapseTo (min s.firkin.thawAt (s.firkin.startNow + 65535 * sec)) = u at thawed now fast pail pending seq ⊢
    obtain ⟨melted, clk, pwr, ⟨pail', -, -, -, -, pending', seq', -⟩⟩ := thawed
    refine ⟨by simp [melted], by simp [clk, now, sec], fun on room noneLost => ?_⟩
    obtain ⟨stored, -⟩ := State.log_of_room (s := u.thaw) 0x7001 ((u.clk.now - s.firkin.frozenAt) / sec)
      (by rw [State.fastOn, pwr]; exact fast.trans on) (by rw [pail', pail]; exact room) (by rw [pending', pending, noneLost])
    rw [stored]
    simp [pail', pail, seq', seq, clk, sec, severityOf]

end Sys2Proof.Machine
end

