-- ==== Sys2Proof/Proofs/MailboxCommands.lean ====
section
/-!
PROOF. Memory-device commands (R66, R73): one that its sender may send now is carried out and answered at once, and the answer changes the
mailbox, the sender's page and perhaps condition 0.
-/
namespace Sys2Proof.Machine

variable {s : State}

/-- A sender that may send a command now passes every check of its arrival (R57, R66, R73, R103). -/
theorem State.mboxGate_of_may {w : Who} {op : Nat} {input : Bytes} (may : s.mayCommand w op input = true) (run : State → State) :
    s.mboxGate w op input run = run s := by
  simp only [State.mayCommand, Bool.and_eq_true, Bool.not_eq_true', Bool.and_eq_false_iff, decide_eq_false_iff_not] at may
  obtain ⟨⟨⟨⟨reached, known⟩, free⟩, capable⟩, allowed⟩ := may
  have entered : ¬ (w.route = .page ∧ s.whoEntry w = none) := fun ⟨page, unknown⟩ => known.elim (· page) (· unknown)
  rw [State.mboxGate, if_neg (by simp [reached]), if_neg entered, if_neg (by simp [free]), if_neg (by simp [capable, allowed])]

/-- A command that only reads is answered from the state it found. -/
theorem State.mboxRead_of_may {w : Who} {op : Nat} {input : Bytes} (may : s.mayCommand w op input = true) (run : State → Nat × Bytes) :
    s.mboxRead w op run input = s.mboxRespond w op (run s).1 (run s).2 :=
  State.mboxGate_of_may may _

/-- Condition 0 occurs or not; the mailbox and the clocks stay. -/
theorem State.raiseWhen_frame (on : Bool) : s.sameButObs (s.raiseWhen on) := by
  cases on with
  | true => exact s.raise_frame 0
  | false => exact State.sameButObs_of_keepsBut (State.keepsBut_refl _ s)

theorem State.raise_logs (n : Nat) : (s.raise n).obs.logs = s.obs.logs ∧ (s.raise n).obs.policy = s.obs.policy := by
  simp only [State.raise, State.upObs, Obs.ring]
  split
  · exact ⟨rfl, rfl⟩
  · split <;> exact ⟨rfl, rfl⟩

theorem State.raiseWhen_logs (on : Bool) : (s.raiseWhen on).obs.logs = s.obs.logs ∧ (s.raiseWhen on).obs.policy = s.obs.policy := by
  cases on with
  | true => exact s.raise_logs 0
  | false => exact ⟨rfl, rfl⟩

/-- The answer of a command (R66). -/
theorem State.mboxRespond_replied (w : Who) (op code : Nat) (p : Bytes) : s.replied w op code p (s.mboxRespond w op code p) := by
  unfold State.mboxRespond
  extract_lets t
  split
  · have mbox : (t.raiseWhen (decide (w.intr % 2 = 1))).mbox = t.mbox := by simp [State.raiseWhen_frame]
    have clk : (t.raiseWhen (decide (w.intr % 2 = 1))).clk = t.clk := by simp [State.raiseWhen_frame]
    exact ⟨by rw [mbox]; rfl, by rw [clk]; rfl⟩
  · cases t.whoEntry w with
    | none => exact ⟨rfl, rfl⟩
    | some n => exact ⟨rfl, rfl⟩

/-- The answer of a command leaves the logs and the interrupt policy (R76, R80). -/
theorem State.mboxRespond_logs (w : Who) (op code : Nat) (p : Bytes) :
    (s.mboxRespond w op code p).obs.logs = s.obs.logs ∧ (s.mboxRespond w op code p).obs.policy = s.obs.policy := by
  unfold State.mboxRespond
  extract_lets t
  split
  · exact t.raiseWhen_logs _
  · cases t.whoEntry w with
    | none => exact ⟨rfl, rfl⟩
    | some n => exact ⟨rfl, rfl⟩

/-- A command that only reads, from a sender that may send it now, changes nothing but its answer. -/
theorem does_mboxRead {i : Instr} {w : Who} {op : Nat} {input : Bytes} {run : State → Nat × Bytes} {post : State → Prop}
    (row : exec i s = .next (s.mboxRead w op run input)) (may : s.mayCommand w op input = true)
    (holds : ∀ t, s.replied w op (run s).1 (run s).2 t → t.obs.logs = s.obs.logs → post t) : Does i s [.clk, .mbox, .obs] post := by
  rw [State.mboxRead_of_may may] at row
  obtain ⟨logs, -⟩ := s.mboxRespond_logs w op (run s).1 (run s).2
  exact ⟨_, row, State.mboxRespond_keeps _ _ _ _ s (by decide) (State.keepsBut_refl _ s),
    holds _ (s.mboxRespond_replied w op (run s).1 (run s).2) logs⟩

/-! ## Lengths of payload fields -/

@[simp] theorem natLe_length (n v : Nat) : (natLe n v).length = n := by
  induction n generalizing v with
  | zero => rfl
  | succ n ih => rw [natLe, List.length_cons, ih]

@[simp] theorem openBytes_length (op off n : Nat) : (openBytes op off n).length = n := by
  simp [openBytes]

@[simp] theorem uuidBytes_length (u : Nat) : (uuidBytes u).length = 16 := by
  simp [uuidBytes]

@[simp] theorem versionBytes_length (f : FwSlot) : f.versionBytes.length = 8 := natLe_length 8 _

theorem natLe_zero (n : Nat) : natLe n 0 = List.replicate n 0 := by
  induction n with
  | zero => rfl
  | succ n ih =>
    rw [natLe, Nat.zero_div, ih]
    rfl

/-- The fields of a payload before a place are left out (R66). -/
theorem drop_field {n : Nat} {a b : Bytes} (h : a.length ≤ n) : (a ++ b).drop n = b.drop (n - a.length) := by
  rw [List.drop_append, List.drop_of_length_le h, List.nil_append]

/-- The fields of a payload up to a place (R66). -/
theorem take_field {n : Nat} {a b : Bytes} (h : a.length ≤ n) : (a ++ b).take n = a ++ b.take (n - a.length) := by
  rw [List.take_append, List.take_of_length_le h]

/-- Settles O44: each row is one read, whose payload is that of its row; the payloads' layouts are log entry 39, and the cap of the poison
list log entry 125. -/
theorem mailboxReads : Obligations.MailboxReads := by
  unfold Obligations.MailboxReads
  refine ⟨?records, ?policy, ?firmware, ?time, ?supported, ?log, ?identity, ?partition, ?health, ?alerts, ?shutdown, ?poison, ?scan,
    ?results, ?noRecords, ?noLog, ?noScan⟩
  case records =>
    intro s w log may small
    refine does_mboxRead rfl may (fun t told logs => ⟨?_, logs⟩)
    simpa [Nat.not_lt.2 small, rcOk] using told
  case policy =>
    intro s w may
    exact does_mboxRead rfl may (fun t told _ => told)
  case firmware =>
    intro s w may
    refine does_mboxRead rfl may (fun t told _ => ?_)
    have rest (a : Bytes) : a ++ natLe 8 0 ++ natLe 32 0 = a ++ List.replicate 40 0 := List.append_assoc a _ _
    dsimp only at told
    rw [rest] at told
    by_cases staged : s.fw.pending = s.fw.current
    · rw [if_neg (fun h => h staged)] at told ⊢
      exact told
    · rw [if_pos staged] at told ⊢
      exact told
  case time =>
    intro s w may
    exact does_mboxRead rfl may (fun t told _ => told)
  case supported =>
    intro s w may
    exact does_mboxRead rfl may (fun t told _ => ⟨_, told, rfl, by simp [drop_field]⟩)
  case log =>
    intro s w may
    exact does_mboxRead rfl may (fun t told _ => told)
  case identity =>
    intro s w may
    exact does_mboxRead rfl may (fun t told _ => ⟨_, told, by simp [State.units, take_field]⟩)
  case partition =>
    intro s w may
    exact does_mboxRead rfl may (fun t told _ => told)
  case health =>
    intro s w may
    exact does_mboxRead rfl may (fun t told _ => told)
  case alerts =>
    intro s w may
    exact does_mboxRead rfl may (fun t told _ => ⟨_, told, by simp [drop_field], by simp [drop_field]⟩)
  case shutdown =>
    intro s w may
    exact does_mboxRead rfl may (fun t told _ => told)
  case poison =>
    intro s w base len may
    exact does_mboxRead rfl may (fun t told _ => ⟨_, told, by simp [bit, natLe_zero, take_field], by simp [drop_field]⟩)
  case scan =>
    intro s w base len may some fits
    refine does_mboxRead rfl may (fun t told _ => ⟨openBytes 0x4303 0 4, ?_, openBytes_length _ _ _⟩)
    simpa [some, fits, rcOk] using told
  case results =>
    intro s w may
    exact does_mboxRead rfl may (fun t told _ => ⟨_, told, by simp [drop_field], by simp [drop_field]⟩)
  case noRecords =>
    intro s w log may large
    refine does_mboxRead rfl may (fun t told _ => ?_)
    simpa [large, rcInvalid] using told
  case noLog =>
    intro s w log may other
    refine does_mboxRead rfl may (fun t told _ => ?_)
    simpa [other, rcInvalid] using told
  case noScan =>
    intro s w base len may bad
    refine does_mboxRead rfl may (fun t told _ => ?_)
    simpa [bad, rcInvalid] using told

end Sys2Proof.Machine
end

