-- ==== Sys2Proof/Proofs/MailboxChanges.lean ====
section
/-!
PROOF. The memory-device commands that change state (R66, R69, R76, R80, R537, R565): each is one change of the state it found, then its answer.
-/
namespace Sys2Proof.Machine

variable {s : State}

/-- A command that changes state and is answered at once with Success, from a sender that may send it now. -/
theorem does_mboxWrite {i : Instr} {w : Who} {op : Nat} {input : Bytes} {run : State → Nat × Bytes × State} {u : State} {ps : List Part}
    {post : State → Prop} (row : exec i s = .next (s.mbox? w op run input)) (may : s.mayCommand w op input = true)
    (ran : run s = (rcOk, [], u)) (frame : s.keepsBut ps u) (sub : ∀ p, p ∈ [.mbox, .obs] → p ∈ ps)
    (holds : post (u.mboxRespond w op 0 [])) : Does i s ps post := by
  have answered : s.mbox? w op run input = u.mboxRespond w op 0 [] := by
    rw [State.mbox?, State.mboxGate_of_may may, ran]
    rfl
  rw [answered] at row
  exact ⟨_, row, State.mboxRespond_keeps w op 0 [] u sub frame, holds⟩

/-- A change that leaves the mailbox and the clocks is answered as one of the state it found. -/
theorem State.mboxRespond_replied_of {u : State} (w : Who) (op code : Nat) (p : Bytes) (mbox : u.mbox = s.mbox) (clk : u.clk = s.clk) :
    s.replied w op code p (u.mboxRespond w op code p) := by
  have told := u.mboxRespond_replied w op code p
  rwa [State.replied, mbox, clk] at told

/-- The answer of a command changes the mailbox and the event state (R66, R80). -/
theorem State.mboxRespond_keeps_self (w : Who) (op code : Nat) (p : Bytes) : s.keepsBut [.mbox, .obs] (s.mboxRespond w op code p) :=
  State.mboxRespond_keeps w op code p s (by decide) (State.keepsBut_refl _ s)

/-- The alert thresholds are looked at; they and the answers stay (R66). -/
theorem State.checkAlerts_mbox : s.checkAlerts.mbox = { s.mbox with alertCrossed := s.alertsNow } := by
  have records : ∀ (ks : List Nat) (t : State), (ks.foldl (fun u k => if s.alertsNow.getLsbD k && !s.mbox.alertCrossed.getLsbD k
      then u.cxlRecord u.clk.stamp 1 2 0 k 0 else u) t).mbox = t.mbox := by
    intro ks
    induction ks with
    | nil => exact fun _ => rfl
    | cons k ks ih =>
      intro t
      rw [List.foldl_cons, ih]
      split
      · exact State.cxlRecord_keeps (P := [.obs]) _ _ _ _ _ _ t (by decide) (State.keepsBut_refl _ t) .mbox (by decide)
      · rfl
  rw [State.checkAlerts, State.upMbox_mbox, records]

/-- A log with these records left and no overflow figures (R76). -/
def State.logLeft (log : Nat) (left : List CxlRec) (s : State) : State :=
  s.upObs (fun o => { o with logs := Tab.set {} o.logs log ({ recs := left } : CxlLog) })

/-- A log's records are cleared and that is answered (R66, R76). -/
theorem State.logLeft_answered (w : Who) (log : Nat) (left : List CxlRec) :
    Tab.get ({} : CxlLog) ((s.logLeft log left).mboxRespond w 0x0101 0 []).obs.logs log = { recs := left } ∧
    (∀ k, k ≠ log → Tab.get ({} : CxlLog) ((s.logLeft log left).mboxRespond w 0x0101 0 []).obs.logs k = Tab.get {} s.obs.logs k) ∧
    s.replied w 0x0101 0 [] ((s.logLeft log left).mboxRespond w 0x0101 0 []) := by
  obtain ⟨logs, -⟩ := (s.logLeft log left).mboxRespond_logs w 0x0101 0 []
  rw [logs]
  refine ⟨by simp [State.logLeft, Tab.get_set], fun k other => ?_, State.mboxRespond_replied_of w 0x0101 0 [] rfl rfl⟩
  simp [State.logLeft, Tab.get_set, Ne.symm other]

theorem State.logLeft_keeps (log : Nat) (left : List CxlRec) : s.keepsBut [.clk, .mbox, .obs] (s.logLeft log left) :=
  State.keeps_upObs _ (by decide) (State.keepsBut_refl _ s)

/-- The bytes of a chunk are counted, and the image is unverified again (R536, R537). -/
theorem State.fwChunk_of_begun {off : Nat} {bs : Bytes} (idle : s.fw.ctl ≠ 1) (begun : s.fw.begun = true) (fits : off + bs.length ≤ 8388608) :
    ∃ u, s.fwChunk off bs = (0, u) ∧ u.fw.received = s.fw.received + bs.length ∧ u.fw.passed = false := by
  rw [State.fwChunk, if_neg idle, if_neg (by simp [begun]), if_neg (by omega)]
  have kept : ((s.putSlot (FwSlot.write off bs)).setEntry 0x9050 1 (natLe 4 (off + bs.length))).fw = (s.putSlot (FwSlot.write off bs)).fw :=
    State.setEntry_keeps (P := [.tabs, .dict]) _ _ _ _ (by decide) (State.keepsBut_refl _ _) .fw (by decide)
  refine ⟨_, rfl, ?_, rfl⟩
  rw [State.upFw_fw, kept, State.putSlot]
  dsimp only
  split <;> rfl

/-- A first timestamp after a power-up records the unpowered seconds, and the ripening time moves forward only (R565). -/
theorem State.setTimestamp_clk (v : Nat) : (s.setTimestamp v).clk = { s.clk with
    stamp := v
    stampSet := true
    unpowered := if s.clk.stampSet then s.clk.unpowered else (v - s.clk.stored) / 1000000000
    ripe := max s.clk.ripe v } := by
  have dosed : ∀ (ps : List Nat) (n : Nat) (t : State), (ps.foldl (fun t p => t.upCare (fun c => { c with
      doses := Tab.set 0 c.doses p (Tab.get 0 c.doses p + n) })) t).clk = t.clk := by
    intro ps n
    induction ps with
    | nil => exact fun _ => rfl
    | cons p ps ih => exact fun t => ih _
  have gap : (if s.clk.stampSet then s.clk.unpowered else (if s.clk.stampSet then 0 else v - s.clk.stored) / sec) =
      if s.clk.stampSet then s.clk.unpowered else (v - s.clk.stored) / 1000000000 := by
    cases s.clk.stampSet <;> rfl
  unfold State.setTimestamp
  extract_lets unpowered s1
  split
  · exact congrArg (fun n => { s.clk with stamp := v, stampSet := true, unpowered := n, ripe := max s.clk.ripe v }) gap
  · simp only [State.save_frame, dosed]
    exact congrArg (fun n => { s.clk with stamp := v, stampSet := true, unpowered := n, ripe := max s.clk.ripe v }) gap

/-- A command that is answered later sets its page's doorbell at most (R73). -/
theorem State.mboxHold_waits (w : Who) : (s.mboxHold w).mbox.clearing = s.mbox.clearing ∧ (s.mboxHold w).mbox.out = s.mbox.out ∧
    (s.mboxHold w).reqs = s.reqs := by
  unfold State.mboxHold
  split <;> exact ⟨rfl, rfl, rfl⟩

/-- Settles O45: each row is one change and its answer. Clearing all records clears the overflow (log entry 105), the fabric manager writes
every line of an enabled range (log entry 125), and the return codes are log entry 39. -/
theorem mailboxWrites : Obligations.MailboxWrites := by
  unfold Obligations.MailboxWrites
  refine ⟨?clearAll, ?clearSome, ?policy, ?transfer, ?activate, ?timestamp, ?alerts, ?shutdown, ?poison⟩
  case clearAll =>
    intro s w log handles may small
    refine does_mboxWrite rfl may (u := s.logLeft log []) ?_ (State.logLeft_keeps log []) (by decide) (State.logLeft_answered w log [])
    simp [State.clearRecords, Nat.not_lt.2 small, State.logLeft]
  case clearSome =>
    intro s w log handles may small there named
    have known : handles.all (fun h => (Tab.get ({} : CxlLog) s.obs.logs log).recs.any (fun r => decide (r.handle = h))) = true := by
      simpa using there
    obtain ⟨left, -, told⟩ := State.logLeft_answered (s := s) w log
      ((Tab.get ({} : CxlLog) s.obs.logs log).recs.filter (fun r => !handles.contains r.handle))
    refine does_mboxWrite rfl may ?_ (State.logLeft_keeps log _) (by decide) ⟨congrArg CxlLog.recs left, told⟩
    simp only [State.clearRecords, if_neg (Nat.not_lt.2 small), named, known]
    rfl
  case policy =>
    intro s w enables may
    refine does_mboxWrite rfl may rfl (State.keeps_upObs _ (by decide) (State.keepsBut_refl _ s)) (by decide) ?_
    obtain ⟨logs, policy⟩ := (s.upObs (fun o => { o with policy := enables })).mboxRespond_logs w 0x0103 0 []
    exact ⟨policy, logs, State.mboxRespond_replied_of w 0x0103 0 [] rfl rfl⟩
  case transfer =>
    intro s w off data may some aligned inside fits idle begun
    obtain ⟨u, chunk, received, passed⟩ := State.fwChunk_of_begun idle begun fits
    have kept {ps : List Part} (sub : ∀ p, p ∈ [.keys, .tabs, .dict, .fw] → p ∈ ps) : s.keepsBut ps u := by
      have frame := State.fwChunk_keeps off data s sub (State.keepsBut_refl _ s)
      rwa [chunk] at frame
    have mbox : u.mbox = s.mbox := kept (ps := [.keys, .tabs, .dict, .fw]) (by decide) .mbox (by decide)
    have clk : u.clk = s.clk := kept (ps := [.keys, .tabs, .dict, .fw]) (by decide) .clk (by decide)
    refine does_mboxWrite rfl may (u := u) ?_ (kept (by decide)) (by decide) ?_
    · simp [some, aligned, Nat.not_le.2 inside, chunk, rcFirmware]
    · have fw : (u.mboxRespond w 0x0201 0 []).fw = u.fw := u.mboxRespond_keeps_self w 0x0201 0 [] .fw (by decide)
      rw [fw]
      exact ⟨received, passed, State.mboxRespond_replied_of w 0x0201 0 [] mbox clk⟩
  case activate =>
    intro s w may idle verified slot
    have activated : s.fwActivate = (0, s.upFw (fun f => { f with
        pending := 1 - s.fw.current
        ctl := 2 })) := by
      simp [State.fwActivate, State.inactiveSlot, idle, verified, slot]
    refine does_mboxWrite rfl may (u := s.upFw (fun f => { f with
        pending := 1 - s.fw.current
        ctl := 2 })) (by rw [activated]; rfl) (State.keeps_upFw _ (by decide) (State.keepsBut_refl _ s)) (by decide) ?_
    rw [(s.upFw _).mboxRespond_keeps_self w 0x0202 0 [] .fw (by decide)]
    exact ⟨rfl, rfl, State.mboxRespond_replied_of w 0x0202 0 [] rfl rfl⟩
  case timestamp =>
    intro s w v may small
    refine does_mboxWrite rfl may (u := s.setTimestamp v) (by rw [Nat.mod_eq_of_lt small])
      (State.setTimestamp_keeps v s (by decide) (State.keepsBut_refl _ s)) (by decide) ?_
    obtain ⟨mbox, clk⟩ := (s.setTimestamp v).mboxRespond_replied w 0x0301 0 []
    have same : (s.setTimestamp v).mbox = s.mbox :=
      State.setTimestamp_keeps (P := [.clk, .care, .obs, .perf]) v s (by decide) (State.keepsBut_refl _ s) .mbox (by decide)
    rw [clk, mbox, same, State.setTimestamp_clk]
    exact ⟨rfl, rfl, rfl, rfl, rfl, rfl⟩
  case alerts =>
    intro s w life temp vol per may
    refine does_mboxWrite rfl may rfl (State.checkAlerts_keeps _ (by decide) (State.keeps_upMbox _ (by decide) (State.keepsBut_refl _ s)))
      (by decide) ?_
    obtain ⟨mbox, -⟩ := State.mboxRespond_replied (s := (s.upMbox (fun m => { m with
      alertLife := life
      alertTemp := temp
      alertVolatile := vol
      alertPersistent := per })).checkAlerts) w 0x4202 0 []
    rw [mbox, State.checkAlerts_mbox]
    exact ⟨rfl, rfl, rfl, rfl, rfl⟩
  case shutdown =>
    intro s w st may
    refine does_mboxWrite rfl may rfl (State.keeps_upPwr _ (by decide) (State.keepsBut_refl _ s)) (by decide) ?_
    exact ⟨(s.upPwr _).mboxRespond_keeps_self w 0x4204 0 [] .pwr (by decide), State.mboxRespond_replied_of w 0x4204 0 [] rfl rfl⟩
  case poison =>
    intro s w addr d r may accepts free range aligned right
    have refuses (right : Bool) (may : right = true) : ¬ (addr % 64 ≠ 0 ∨ (!right) = true) := by simp [aligned, may]
    have runs : exec (.clearPoison w addr d) s = .next (((s.upReqs (fun x => { x with
        next := x.next + 1
        list := x.list ++ [{ newReq .write 0 internal 0x4302 addr r.cls r.policy d fullMask false s.clk.now with id := s.reqs.next }] })).upMbox
          (fun m => { m with clearing := m.clearing ++ [(s.reqs.next, w)] })).mboxHold w) := by
      refine (congrArg Host.Outcome.next (State.mboxGate_of_may may _)).trans (congrArg Host.Outcome.next ?_)
      rw [State.clearPoison]
      simp only [accepts, free, range, Bool.not_true, Bool.false_eq_true, or_self, if_false]
      cases entry : s.whoEntry w with
      | none => exact if_neg (refuses true rfl)
      | some n => exact if_neg (refuses _ (right n entry))
    refine ⟨_, runs, State.mboxHold_keeps w _ (by decide) (State.keeps_upMbox _ (by decide) (State.keeps_upReqs _ (by decide)
      (State.keepsBut_refl _ s))), ?_⟩
    obtain ⟨clearing, out, reqs⟩ := State.mboxHold_waits (s := (s.upReqs (fun x => { x with
        next := x.next + 1
        list := x.list ++ [{ newReq .write 0 internal 0x4302 addr r.cls r.policy d fullMask false s.clk.now with id := s.reqs.next }] })).upMbox
          (fun m => { m with clearing := m.clearing ++ [(s.reqs.next, w)] })) w
    rw [clearing, out, reqs]
    exact ⟨rfl, rfl, _, rfl, rfl, rfl, rfl, rfl, rfl⟩

end Sys2Proof.Machine
end

