-- ==== Sys2Proof/Proofs/RequestsArrive.lean ====
section
/-!
PROOF. Requests at the port (R51 to R62): what the checks look at is as it was when the request came, so each request is queued, or answered
and discarded, as they say.
-/
namespace Sys2Proof.Machine

variable {s : State} {w : Bool} {key addr tag n : Nat} {d : Line} {be : Mask} {poison : Bool} {g : Range}

/-- The port has counted a request that it took (R504). -/
def State.arrived (w : Bool) (s : State) : State :=
  (s.upPort (fun p => { p with
    lastHostReq := s.clk.now
    flits := p.flits + 1 })).count 56 (if w then 2 else 1) 1

/-- The entry's right that a request of the kind needs (R102). -/
def State.mayDo (w : Bool) (n g : Nat) (s : State) : Bool := if w then s.mayWrite n g else s.mayRead n g

theorem State.arrived_keeps {ps : List Part} {r : State} (sub : ∀ p, p ∈ [.port, .obs, .perf] → p ∈ ps) (h : r.keepsBut ps s) :
    r.keepsBut ps (s.arrived w) :=
  State.count_keeps _ _ _ _ (part_sub sub (by decide)) (State.keeps_upPort _ (sub _ (by decide)) h)

theorem State.arrived_frame (s : State) (w : Bool) : s.keepsBut [.port, .obs, .perf] (s.arrived w) :=
  State.arrived_keeps (by decide) (State.keepsBut_refl _ s)

@[simp] theorem State.arrived_reqs : (s.arrived w).reqs = s.reqs := s.arrived_frame w .reqs (by decide)
@[simp] theorem State.arrived_clk : (s.arrived w).clk = s.clk := s.arrived_frame w .clk (by decide)
@[simp] theorem State.arrived_tabs : (s.arrived w).tabs = s.tabs := s.arrived_frame w .tabs (by decide)
@[simp] theorem State.arrived_ident : (s.arrived w).ident = s.ident := s.arrived_frame w .ident (by decide)
@[simp] theorem State.arrived_mbox : (s.arrived w).mbox = s.mbox := s.arrived_frame w .mbox (by decide)
@[simp] theorem State.arrived_yoke : (s.arrived w).yoke = s.yoke := s.arrived_frame w .yoke (by decide)
@[simp] theorem State.arrived_port : (s.arrived w).port = { s.port with
    lastHostReq := s.clk.now
    flits := s.port.flits + 1 } := by
  simp [State.arrived]

@[simp] theorem State.keyOf_arrived : (s.arrived w).keyOf key = s.keyOf key := by simp [State.keyOf]
@[simp] theorem State.selectEntry_arrived : (s.arrived w).selectEntry key = s.selectEntry key := by simp [State.selectEntry]
@[simp] theorem State.partner_arrived : (s.arrived w).partner n = s.partner n := by simp [State.partner]
@[simp] theorem State.rangeAt_arrived : (s.arrived w).rangeAt addr = s.rangeAt addr := by simp [State.rangeAt]
@[simp] theorem State.decodeDpa_arrived : (s.arrived w).decodeDpa addr = s.decodeDpa addr := by
  simp [State.decodeDpa, State.targetBase]
@[simp] theorem State.mayRead_arrived {k : Nat} : (s.arrived w).mayRead n k = s.mayRead n k := by
  simp [State.mayRead, State.grantsApply]
@[simp] theorem State.mayWrite_arrived {k : Nat} : (s.arrived w).mayWrite n k = s.mayWrite n k := by
  simp [State.mayWrite, State.grantsApply]
@[simp] theorem State.blocked_arrived : (s.arrived w).blocked = s.blocked := by
  simp [State.blocked, State.wiping, State.fenced]
@[simp] theorem State.pailCount_arrived {k : Nat} : (s.arrived w).pailCount k = s.pailCount k := by simp [State.pailCount]

/-! ## What the port does with a request -/

/-- The request as it is queued. -/
def State.requestOf (w : Bool) (key n tag addr : Nat) (g : Range) (d : Line) (be : Mask) (poison : Bool) (s : State) : Req :=
  newReq (if w then .write else .read) (s.keyOf key) n tag addr g.cls g.policy d be poison s.clk.now

theorem State.arrive_of_closed (h : s.accepts = false ∨ s.hasCredit w = false) : s.arrive w key addr tag d be poison = s :=
  if_pos (by simpa using h)

theorem State.arrive_of_unknown (open' : s.accepts = true) (credit : s.hasCredit w = true) (none' : s.selectEntry (s.keyOf key) = none) :
    s.arrive w key addr tag d be poison =
      ((s.arrived w).refuseUnknown (s.keyOf key)).respond (s.keyOf key) tag (deny w) := by
  simp only [State.arrive, open', credit, ← State.arrived.eq_1, State.keyOf_arrived, State.selectEntry_arrived, none']
  simp

theorem State.arrive_ordinary (open' : s.accepts = true) (credit : s.hasCredit w = true) (entry : s.selectEntry (s.keyOf key) = some n)
    (ordinary : s.decodeDpa addr = .ordinary g) : s.arrive w key addr tag d be poison =
      if s.mayDo w n g.group then
        if s.blocked then (s.arrived w).respond (s.keyOf key) tag (deny w)
        else (s.arrived w).enqueue (s.requestOf w key n tag addr g d be poison)
      else ((s.arrived w).refuseRight (if w then 0x3003 else 0x3002) n addr).respond (s.keyOf key) tag (deny w) := by
  simp only [State.arrive, open', credit, ← State.arrived.eq_1, State.keyOf_arrived, State.selectEntry_arrived, entry,
    State.decodeDpa_arrived, ordinary, State.mayRead_arrived, State.mayWrite_arrived, State.blocked_arrived]
  simp only [Bool.not_true, Bool.false_eq_true, or_self, if_false]
  rfl

/-! ## Answers and refusals -/

@[simp] theorem State.respond_port (k : RespKind) :
    (s.respond key tag k).port = { s.port with out := s.port.out ++ [⟨key, tag, k⟩] } := by
  unfold State.respond
  dsimp only
  split <;> simp

theorem State.refuseUnknown_port : ∃ last, (s.refuseUnknown key).port = { s.port with
    unknown := min (s.port.unknown + 1) 0xFFFFFFFF
    lastRefusal := last } := by
  unfold State.refuseUnknown
  extract_lets counted quiet
  split
  · exact ⟨s.port.lastRefusal, rfl⟩
  · exact ⟨_, (State.log_frame _ _ _).2.2.2.1⟩

theorem State.refuseRight_port (code : Nat) : ∃ last, (s.refuseRight code n addr).port = { s.port with
    rights := min (s.port.rights + 1) 0xFFFFFFFF
    lastRefusal := last } := by
  unfold State.refuseRight
  extract_lets key counted quiet
  split
  · exact ⟨s.port.lastRefusal, rfl⟩
  · exact ⟨_, (State.logFor_frame _ _ _ _).2.2.2.1⟩

/-- A requester without an entry is answered, its write discarded, and counted (R57). -/
theorem State.arrive_unknown (open' : s.accepts = true) (credit : s.hasCredit w = true) (none' : s.selectEntry (s.keyOf key) = none) :
    s.keepsBut [.port, .obs, .perf] (s.arrive w key addr tag d be poison) ∧
    (s.arrive w key addr tag d be poison).port.unknown = min (s.port.unknown + 1) 0xFFFFFFFF ∧
    (s.arrive w key addr tag d be poison).port.out = s.port.out ++ [⟨s.keyOf key, tag, deny w⟩] := by
  rw [State.arrive_of_unknown open' credit none']
  obtain ⟨last, port⟩ := State.refuseUnknown_port (s := s.arrived w) (key := s.keyOf key)
  refine ⟨?_, by simp [port], by simp [port]⟩
  exact State.respond_keeps _ _ _ _ (by decide) (State.refuseUnknown_keeps _ _ (by decide) (s.arrived_frame w))

/-- A request without the right is answered, a write discarded, and counted (R58). -/
theorem State.arrive_withoutRight (open' : s.accepts = true) (credit : s.hasCredit w = true)
    (entry : s.selectEntry (s.keyOf key) = some n) (ordinary : s.decodeDpa addr = .ordinary g) (may : s.mayDo w n g.group = false) :
    s.keepsBut [.port, .obs, .perf] (s.arrive w key addr tag d be poison) ∧
    (s.arrive w key addr tag d be poison).port.rights = min (s.port.rights + 1) 0xFFFFFFFF ∧
    (s.arrive w key addr tag d be poison).port.out = s.port.out ++ [⟨s.keyOf key, tag, deny w⟩] := by
  rw [State.arrive_ordinary open' credit entry ordinary, if_neg (by simp [may])]
  obtain ⟨last, port⟩ := State.refuseRight_port (s := s.arrived w) (n := n) (addr := addr) (if w then 0x3003 else 0x3002)
  refine ⟨?_, by simp [port], by simp [port]⟩
  exact State.respond_keeps _ _ _ _ (by decide) (State.refuseRight_keeps _ _ _ _ (by decide) (s.arrived_frame w))

/-- With a wipe running or the module fenced a request is answered and a write discarded (R58). -/
theorem State.arrive_blocked (open' : s.accepts = true) (credit : s.hasCredit w = true)
    (entry : s.selectEntry (s.keyOf key) = some n) (ordinary : s.decodeDpa addr = .ordinary g) (may : s.mayDo w n g.group = true)
    (blocked : s.blocked = true) :
    s.keepsBut [.port, .obs, .perf] (s.arrive w key addr tag d be poison) ∧
    (s.arrive w key addr tag d be poison).port.out = s.port.out ++ [⟨s.keyOf key, tag, deny w⟩] := by
  rw [State.arrive_ordinary open' credit entry ordinary, if_pos may, if_pos blocked]
  exact ⟨State.respond_keeps _ _ _ _ (by decide) (s.arrived_frame w), by simp⟩

/-! ## The queue -/

/-- The slice takes no more into its request pail (R20, R62). -/
def State.sliceFull (sl : Nat) (s : State) : Bool :=
  decide (2048 ≤ s.pailCount sl) || s.reqs.list.any (fun q => decide (q.stage = .ingress) && decide (q.slice = sl))

theorem State.enqueue_reqs (r : Req) : (s.enqueue r).reqs = { s.reqs with
    next := s.reqs.next + 1
    list := s.reqs.list ++ [{ r with
      id := s.reqs.next
      stage := if s.sliceFull r.slice then .ingress else .pail }] } := by
  unfold State.enqueue
  extract_lets sl full r1 s1 s2 s3 s4
  have queued : s4.reqs = s1.reqs := by simp [s4, s3, s2]
  split <;> simp [queued, s1, r1, full, sl, State.sliceFull]

/-- The credits of the port after a request is queued: one that waits in the ingress buffer holds its credit (R61). -/
theorem State.enqueue_port (r : Req) : (s.enqueue r).port.out = s.port.out ∧
    (s.enqueue r).port.creditsReq =
      (if s.sliceFull r.slice = true ∧ (r.kind = .read ∨ r.kind = .resRead) then s.port.creditsReq - 1 else s.port.creditsReq) ∧
    (s.enqueue r).port.creditsData =
      (if s.sliceFull r.slice = true ∧ (r.kind = .write ∨ r.kind = .condWrite) then s.port.creditsData - 1
        else s.port.creditsData) := by
  unfold State.enqueue
  extract_lets sl full r1 s1 s2 s3 s4
  have queued : s4.port = s2.port := by simp [s4, s3]
  split <;> simp [queued, s2, s1, full, sl, State.sliceFull]

@[simp] theorem State.sliceFull_arrived {sl : Nat} : (s.arrived w).sliceFull sl = s.sliceFull sl := by simp [State.sliceFull]

/-- A request that passes the checks is queued at its slice (R58). -/
theorem State.arrive_queued (open' : s.accepts = true) (credit : s.hasCredit w = true)
    (entry : s.selectEntry (s.keyOf key) = some n) (ordinary : s.decodeDpa addr = .ordinary g) (may : s.mayDo w n g.group = true)
    (free : s.blocked = false) :
    s.arrive w key addr tag d be poison = (s.arrived w).enqueue (s.requestOf w key n tag addr g d be poison) := by
  rw [State.arrive_ordinary open' credit entry ordinary, if_pos may, if_neg (by simp [free])]

theorem State.sliceFull_of_room {sl : Nat} (room : s.pailCount sl < 2048)
    (none' : s.reqs.list.any (fun q => decide (q.stage = .ingress) && decide (q.slice = sl)) = false) : s.sliceFull sl = false := by
  simp only [State.sliceFull, none', Bool.or_false, decide_eq_false_iff_not]
  omega

theorem State.sliceFull_of_full {sl : Nat} (full : 2048 ≤ s.pailCount sl) : s.sliceFull sl = true := by simp [State.sliceFull, full]

theorem State.enqueue_arrived_frame (r : Req) : s.keepsBut [.port, .reqs, .slices, .obs, .perf] ((s.arrived w).enqueue r) :=
  State.enqueue_keeps _ _ (by decide) (State.arrived_keeps (by decide) (State.keepsBut_refl _ s))

/-- A read that its slice takes. -/
theorem hostReadRequest_taken (open' : s.accepts = true) (credit : s.hasCredit false = true)
    (entry : s.selectEntry (s.keyOf key) = some n) (ordinary : s.decodeDpa addr = .ordinary g) (may : s.mayRead n g.group = true)
    (free : s.blocked = false) (b : Bool) (full : s.sliceFull (sliceOf addr) = b) :
    Does (.hostReadRequest key addr tag) s [.port, .reqs, .slices, .obs, .perf] (fun t => t.reqs = { s.reqs with
        next := s.reqs.next + 1
        list := s.reqs.list ++ [{ newReq .read (s.keyOf key) n tag addr g.cls g.policy 0 0 false s.clk.now with
          id := s.reqs.next
          stage := if b then .ingress else .pail }] } ∧ t.port.out = s.port.out ∧
      t.port.creditsReq = if b then s.port.creditsReq - 1 else s.port.creditsReq) := by
  have runs := State.arrive_queued (addr := addr) (tag := tag) (d := 0) (be := 0) (poison := false) open' credit entry ordinary may free
  refine ⟨_, congrArg Host.Outcome.next runs, State.enqueue_arrived_frame _, ?_, ?_⟩
  · simp [State.enqueue_reqs, State.requestOf, Req.slice, newReq, full]
  · obtain ⟨out, req, data⟩ := State.enqueue_port (s := s.arrived false) (s.requestOf false key n tag addr g 0 0 false)
    rw [out, req]
    simp [State.requestOf, Req.slice, newReq, full]

/-- A write that its slice takes. -/
theorem hostWriteRequest_taken (open' : s.accepts = true) (credit : s.hasCredit true = true)
    (entry : s.selectEntry (s.keyOf key) = some n) (ordinary : s.decodeDpa addr = .ordinary g) (may : s.mayWrite n g.group = true)
    (free : s.blocked = false) (b : Bool) (full : s.sliceFull (sliceOf addr) = b) :
    Does (.hostWriteRequest key addr tag d be poison) s [.port, .reqs, .slices, .obs, .perf] (fun t => t.reqs = { s.reqs with
        next := s.reqs.next + 1
        list := s.reqs.list ++ [{ newReq .write (s.keyOf key) n tag addr g.cls g.policy d be poison s.clk.now with
          id := s.reqs.next
          stage := if b then .ingress else .pail }] } ∧ t.port.out = s.port.out ∧
      t.port.creditsData = if b then s.port.creditsData - 1 else s.port.creditsData) := by
  have runs := State.arrive_queued (addr := addr) (tag := tag) (d := d) (be := be) (poison := poison) open' credit entry ordinary may free
  refine ⟨_, congrArg Host.Outcome.next runs, State.enqueue_arrived_frame _, ?_, ?_⟩
  · simp [State.enqueue_reqs, State.requestOf, Req.slice, newReq, full]
  · obtain ⟨out, req, data⟩ := State.enqueue_port (s := s.arrived true) (s.requestOf true key n tag addr g d be poison)
    rw [out, data]
    simp [State.requestOf, Req.slice, newReq, full]

/-! ## Ingress -/

/-- The first request of a slice's ingress buffer goes to its pail and returns its credit (R61, R62). -/
theorem ingressDispatch_moves {slice : Nat} {r : Req}
    (first : s.reqs.list.find? (fun q => decide (q.stage = .ingress) && decide (q.slice = slice)) = some r)
    (room : s.pailCount slice < 2048) :
    Does (.ingressDispatch slice) s [.port, .reqs, .obs, .perf] (fun t => t.reqs = { s.reqs with
        list := s.reqs.list.map (fun q => if q.id = r.id then { q with stage := .pail } else q) } ∧
      t.port = { s.port with
        creditsReq := if r.kind = .read ∨ r.kind = .resRead then s.port.creditsReq + 1 else s.port.creditsReq
        creditsData := if r.kind = .read ∨ r.kind = .resRead then s.port.creditsData else s.port.creditsData + 1 }) := by
  refine .of_frame (execIngressDispatch_keeps slice s (by decide) (State.keepsBut_refl _ s))
    (t := ((s.stageReq r.id .pail).upPort (fun p => { p with
        creditsReq := if r.kind = .read ∨ r.kind = .resRead then p.creditsReq + 1 else p.creditsReq
        creditsData := if r.kind = .read ∨ r.kind = .resRead then p.creditsData else p.creditsData + 1 })).count 56 5 1) ?_ ?_
  · show execIngressDispatch slice s = _
    rw [execIngressDispatch, State.dispatch, first]
    exact congrArg Host.Outcome.next (if_neg (by omega))
  · simp [State.stageReq]

/-- Settles O27: a request passes or fails each check as the state was when it came, since the port's count touches none of what the checks
look at. -/
theorem requestsArrive : Obligations.RequestsArrive := by
  refine ⟨?_, ?_, ?_, ?_, ?_, ?_, ?_, ?_, ?_, ?_, ?_, ?_, ?_, ?_⟩
  · intro s key addr tag n r open' credit entry ordinary may free room none'
    exact hostReadRequest_taken open' credit entry ordinary may free false (State.sliceFull_of_room room none')
  · intro s key addr tag n d be poison r open' credit entry ordinary may free room none'
    exact hostWriteRequest_taken open' credit entry ordinary may free false (State.sliceFull_of_room room none')
  · intro s key addr tag n r open' credit entry ordinary may free full
    exact hostReadRequest_taken open' credit entry ordinary may free true (State.sliceFull_of_full full)
  · intro s key addr tag n d be poison r open' credit entry ordinary may free full
    exact hostWriteRequest_taken open' credit entry ordinary may free true (State.sliceFull_of_full full)
  · intro s key addr tag open' credit none'
    exact ⟨_, rfl, State.arrive_unknown open' credit none'⟩
  · intro s key addr tag d be poison open' credit none'
    exact ⟨_, rfl, State.arrive_unknown open' credit none'⟩
  · intro s key addr tag n r open' credit entry ordinary may
    exact ⟨_, rfl, State.arrive_withoutRight open' credit entry ordinary may⟩
  · intro s key addr tag n d be poison r open' credit entry ordinary may
    exact ⟨_, rfl, State.arrive_withoutRight open' credit entry ordinary may⟩
  · intro s key addr tag n r open' credit entry ordinary may blocked
    exact ⟨_, rfl, State.arrive_blocked open' credit entry ordinary may blocked⟩
  · intro s key addr tag n d be poison r open' credit entry ordinary may blocked
    exact ⟨_, rfl, State.arrive_blocked open' credit entry ordinary may blocked⟩
  · intro s key addr tag closed
    exact congrArg Host.Outcome.next (State.arrive_of_closed closed)
  · intro s key addr tag d be poison closed
    exact congrArg Host.Outcome.next (State.arrive_of_closed closed)
  · intro s slice r first kind room
    have read : r.kind = .read ∨ r.kind = .resRead := by simpa using kind
    simpa only [if_pos read] using ingressDispatch_moves first room
  · intro s slice r first kind room
    have writes : r.kind = .write ∨ r.kind = .condWrite := by simpa using kind
    have write : ¬ (r.kind = .read ∨ r.kind = .resRead) := by
      rcases writes with h | h <;> simp [h]
    simpa only [if_neg write] using ingressDispatch_moves first room

end Sys2Proof.Machine
end

