-- ==== Sys2Proof/Proofs/YokeLink.lean ====
section
/-!
PROOF. The yoke's link (R315 to R327): what a message that leaves changes, and with it training, the frames and the messages sent on time.
-/
namespace Sys2Proof.Machine

variable {s : State} {m : YokeMsg}

/-! ## Frames and messages that leave -/

/-- A frame that leaves changes the frame stream and the credits it returns alone (R316, R317). -/
theorem Yoke.sendFrames_eq (now : Nat) (bs : List Bytes) (y : Yoke) :
    ∃ tx owed ack unacked sent, bs.foldl (fun z b => z.sendFrame now b) y = { y with
      txSeq := tx
      owed := owed
      ackAt := ack
      unacked := unacked
      sent := sent } := by
  induction bs generalizing y with
  | nil => exact ⟨_, _, _, _, _, rfl⟩
  | cons b bs ih =>
    obtain ⟨tx, owed, ack, unacked, sent, h⟩ := ih (y.sendFrame now b)
    exact ⟨tx, owed, ack, unacked, sent, h⟩

/-- A message that leaves is sent, with a credit of its class where its type needs one (R321). -/
theorem State.transmit_yoke : ∃ tx owed ack unacked sent, (s.transmit m).yoke = { s.yoke with
    out := s.yoke.out ++ [m]
    credits := if creditFree m.ty then s.yoke.credits
      else Tab.set 0 s.yoke.credits (creditClass m.ty) (Tab.get 0 s.yoke.credits (creditClass m.ty) - 1)
    txSeq := tx
    owed := owed
    ackAt := ack
    unacked := unacked
    sent := sent } := by
  obtain ⟨tx, owed, ack, unacked, sent, h⟩ := Yoke.sendFrames_eq s.clk.now m.streams { s.yoke with
    out := s.yoke.out ++ [m]
    credits := if creditFree m.ty then s.yoke.credits
      else Tab.set 0 s.yoke.credits (creditClass m.ty) (Tab.get 0 s.yoke.credits (creditClass m.ty) - 1) }
  exact ⟨tx, owed, ack, unacked, sent, (State.count_frame _ _ _ _).2.2.2.2.2.2.2.2.2.2.2.2.1.trans h⟩

/-- A message of one frame moves the sequence on by one (R316). -/
theorem State.transmit_txSeq {b : Bytes} (single : m.streams = [b]) : (s.transmit m).yoke.txSeq = (s.yoke.txSeq + 1) % 4096 := by
  simp [State.transmit, single, Yoke.sendFrame]

theorem State.send_passes (yoke : m.ty < 256) (plain : m.ty ∉ [1, 2, 6]) (pass : s.mayPass m.ty = true) : s.send m = s.transmit m := by
  have plain' : ¬ (m.ty = 1 ∨ m.ty = 2 ∨ m.ty = 6) := by simpa using plain
  simp only [State.send, if_neg plain', if_neg (Nat.not_le.mpr yoke), if_pos pass]

theorem State.send_waits (yoke : m.ty < 256) (plain : m.ty ∉ [1, 2, 6]) (hold : s.mayPass m.ty = false) :
    s.send m = s.upYoke (fun y => { y with outWait := y.outWait ++ [m] }) := by
  have plain' : ¬ (m.ty = 1 ∨ m.ty = 2 ∨ m.ty = 6) := by simpa using plain
  simp only [State.send, if_neg plain', if_neg (Nat.not_le.mpr yoke), hold, Bool.false_eq_true, if_false]

theorem State.send_frame : s.keepsBut [.yoke, .obs, .perf] (s.send m) :=
  State.send_keeps _ _ (by decide) (State.keepsBut_refl _ s)

theorem streams_of_short (short : m.bytes.length ≤ 236) (some' : 0 < m.bytes.length) : m.streams = [m.bytes] := by
  have one : (m.bytes.length + 235) / 236 = 1 := by omega
  rw [YokeMsg.streams, one]
  simp [List.take_of_length_le short]

theorem membershipBytes_length (p : Membership) : (membershipBytes p).length = 32 := by simp [membershipBytes]

/-- A message that carries a membership payload fits one frame (R318, R328). -/
theorem streams_membership {ty : Nat} (plain : ty ∉ [1, 2, 6]) (p : Membership) :
    ∃ b, ({ ty := ty, body := membershipBytes p } : YokeMsg).streams = [b] := by
  obtain ⟨h1, h2, h6⟩ : ty ≠ 1 ∧ ty ≠ 2 ∧ ty ≠ 6 := by simpa using plain
  have size : ({ ty := ty, body := membershipBytes p } : YokeMsg).bytes.length = 48 := by
    simp [YokeMsg.bytes, YokeMsg.payload, h1, h2, h6, membershipBytes_length]
  exact ⟨_, streams_of_short (by omega) (by omega)⟩

/-! ## The messages of a module on time -/

/-- A membership message that leaves (R325, R328). -/
theorem State.sendMember_yoke {ty : Nat} (yoke : ty < 256) (plain : ty ∉ [1, 2, 6]) (pass : s.mayPass ty = true) :
    ∃ owed ack unacked sent, (s.sendMember ty).yoke = { s.yoke with
      out := s.yoke.out ++ [{ ty := ty, body := membershipBytes (s.payload s.yoke.hbSeq) }]
      credits := if creditFree ty then s.yoke.credits
        else Tab.set 0 s.yoke.credits (creditClass ty) (Tab.get 0 s.yoke.credits (creditClass ty) - 1)
      hbSeq := (s.yoke.hbSeq + 1) % 256
      txSeq := (s.yoke.txSeq + 1) % 4096
      owed := owed
      ackAt := ack
      unacked := unacked
      sent := sent } := by
  obtain ⟨b, single⟩ := streams_membership plain (s.payload s.yoke.hbSeq)
  obtain ⟨tx, owed, ack, unacked, sent, h⟩ :=
    State.transmit_yoke (s := s) (m := { ty := ty, body := membershipBytes (s.payload s.yoke.hbSeq) })
  have seq := State.transmit_txSeq (s := s) single
  refine ⟨owed, ack, unacked, sent, ?_⟩
  rw [State.sendMember, State.send_passes yoke plain pass, State.upYoke_yoke, ← seq, h]

theorem State.sendMember_frame {ty : Nat} : s.keepsBut [.yoke, .obs, .perf] (s.sendMember ty) :=
  State.sendMember_keeps _ _ (by decide) (State.keepsBut_refl _ s)

theorem State.serveWaiting_of_none (none' : s.dict.waiting = []) : s.serveWaiting = s := by rw [State.serveWaiting, none', List.foldl_nil]

/-- The link as training leaves it: a new frame stream, with the credits the peer gives (R315, R321). -/
def State.linkTrained (speed width : Nat) (credits : List Nat) (s : State) : State :=
  s.upYoke (fun y => { y with
    speed := speed
    width := width
    cable := true
    silent := false
    lastYoke := s.clk.now
    txSeq := 0
    rxSeq := 0
    unacked := []
    outWait := []
    owed := []
    rxPart := []
    credits := (List.range 3).foldl (fun t c => Tab.set 0 t c (credits.getD c 0)) [] })

/-- The event of a link below its full rate (R315). -/
def State.rateNoted (speed width : Nat) (s : State) : State :=
  if speed = 6 ∧ width = 4 then s else s.log 0x410D (speed * 256 + width)

theorem State.rateNoted_yoke {speed width : Nat} : (s.rateNoted speed width).yoke = s.yoke := by
  unfold State.rateNoted
  split <;> simp

theorem trained_credits (credits : List Nat) : Tab.get 0 ((List.range 3).foldl (fun t c => Tab.set 0 t c (credits.getD c 0)) []) 2 =
    credits.getD 2 0 :=
  (Tab.get_set ..).trans (if_pos rfl)

/-- A link that trains below its full rate or outside a pair (R307, R315). -/
theorem yokeTrainingDone_hello {speed width : Nat} {credits : List Nat} (port : s.yokePort = true)
    (train : trainable speed width = true) (outside : s.yoke.member ∈ [0, 1, 4, 5]) (credit : credits.getD 2 0 ≠ 0) :
    Does (.yokeTrainingDone speed width credits) s [.yoke, .obs, .perf] (fun t => t.yoke.speed = speed ∧ t.yoke.width = width ∧
      t.yoke.silent = false ∧ t.yoke.out.map (fun m => m.ty) = s.yoke.out.map (fun m => m.ty) ++ [0x0C]) := by
  have runs : exec (.yokeTrainingDone speed width credits) s =
      .next (((s.linkTrained speed width credits).rateNoted speed width).sendMember 0x0C) := by
    show execYokeTrainingDone speed width credits s = _
    simp only [execYokeTrainingDone, port, train, Bool.not_true, Bool.false_eq_true, if_false, if_pos outside]
    rfl
  have frame : s.keepsBut [.yoke, .obs, .perf] ((s.linkTrained speed width credits).rateNoted speed width) := by
    have trained : s.keepsBut [.yoke, .obs, .perf] (s.linkTrained speed width credits) :=
      State.keeps_upYoke _ (by decide) (State.keepsBut_refl _ s)
    exact keeps_ite trained (State.log_keeps _ _ _ (by decide) trained)
  refine ⟨_, runs, State.sendMember_keeps _ _ (by decide) frame, ?_⟩
  have pass : ((s.linkTrained speed width credits).rateNoted speed width).mayPass 0x0C = true := by
    rw [State.mayPass, State.rateNoted_yoke]
    have there : Tab.get 0 (s.linkTrained speed width credits).yoke.credits (creditClass 0x0C) ≠ 0 :=
      fun none' => credit ((trained_credits credits).symm.trans none')
    have free : (s.linkTrained speed width credits).yoke.outWait = [] := rfl
    simp only [there, free, List.any_nil, Bool.not_false, ne_eq, not_false_eq_true, decide_true, Bool.and_self, Bool.or_true]
  obtain ⟨owed, ack, unacked, sent, h⟩ := State.sendMember_yoke (by decide) (by decide) pass
  dsimp only
  rw [h, State.rateNoted_yoke]
  simp [State.linkTrained]

/-! ## Frames -/

/-- The frame stream after a good frame of the sequence (R316, R317, R321). -/
def Yoke.took (frame : Bytes) (now : Nat) (y : Yoke) : Yoke :=
  { y.acked (frameField frame 19 8) now with
    rxSeq := frameField frame 31 20
    rxPart := (readStream (y.rxPart ++ (frame.drop 4).take 236).length (y.rxPart ++ (frame.drop 4).take 236)).2
    credits := Tab.set 0 y.credits (frameField frame 7 6) (Tab.get 0 y.credits (frameField frame 7 6) + frameField frame 5 0) }

theorem Yoke.acked_eq (ack now : Nat) (y : Yoke) : y.acked ack now = { y with
    unacked := match y.unacked.findIdx? (fun x => decide (x.seq = ack)) with
      | some k => y.unacked.drop (k + 1)
      | none => y.unacked
    ackAt := if y.unacked.any (fun x => decide (x.seq = ack)) then now else y.ackAt } := by
  unfold Yoke.acked
  cases h : y.unacked.findIdx? (fun x => decide (x.seq = ack)) with
  | none =>
    have none' : y.unacked.any (fun x => decide (x.seq = ack)) = false := by
      rw [List.findIdx?_eq_none_iff] at h
      exact List.any_eq_false.mpr (fun x hx => by simp [h x hx])
    simp [none']
  | some k =>
    have found : y.unacked.any (fun x => decide (x.seq = ack)) = true := by
      rw [← List.findIdx?_isSome, h]
      rfl
    simp [found]

/-- A frame that is the next of the stream, on a link that was not silent and holds no message back (R317). -/
theorem State.takeFrame_eq {frame : Bytes} (heard : s.yoke.silent = false) (free : s.yoke.outWait = [])
    (known : (readStream (s.yoke.rxPart ++ (frame.drop 4).take 236).length (s.yoke.rxPart ++ (frame.drop 4).take 236)).1.all yokeType
      = true) :
    ∃ u : State, s.keepsBut [.yoke, .obs, .perf] u ∧ u.yoke = s.yoke.took frame s.clk.now ∧
      s.takeFrame frame = (u.upYoke (fun y => { y with lastYoke := u.clk.now, silent := false })).upYoke
        (fun y => { y with outWait := [] }) := by
  let u := (s.upYoke (fun y => y.took frame s.clk.now)).count 57 2 1
  have yoke : u.yoke = s.yoke.took frame s.clk.now := by simp [u]
  have still : u.yoke.silent = false := by simp [yoke, Yoke.took, Yoke.acked_eq, heard]
  have none' : (u.upYoke (fun y => { y with lastYoke := u.clk.now, silent := false })).yoke.outWait = [] := by
    simp [yoke, Yoke.took, Yoke.acked_eq, free]
  have quiet : u.heard = u.upYoke (fun y => { y with lastYoke := u.clk.now, silent := false }) := by
    simp [State.heard, still]
  refine ⟨u, State.count_keeps _ _ _ _ (by decide) (State.keeps_upYoke _ (by decide) (State.keepsBut_refl _ s)), yoke, ?_⟩
  calc s.takeFrame frame = u.heard.sendWaiting := if_pos known
    _ = _ := by rw [quiet, State.sendWaiting, none', List.foldl_nil]

theorem yokeFrameReceive_next {frame b : Bytes} (ready : s.yokeReady = true) (good : frameGood frame = true)
    (next' : frameField frame 31 20 = (s.yoke.rxSeq + 1) % 4096) (stream : b = s.yoke.rxPart ++ (frame.drop 4).take 236)
    (known : (readStream b.length b).1.all yokeType = true) (free : s.yoke.outWait = []) :
    Does (.yokeFrameReceive frame) s [.yoke, .obs, .perf] (fun t => t.yoke = { s.yoke with
        rxSeq := frameField frame 31 20
        rxPart := (readStream b.length b).2
        unacked := match s.yoke.unacked.findIdx? (fun x => decide (x.seq = frameField frame 19 8)) with
          | some k => s.yoke.unacked.drop (k + 1)
          | none => s.yoke.unacked
        ackAt := if s.yoke.unacked.any (fun x => decide (x.seq = frameField frame 19 8)) then s.clk.now else s.yoke.ackAt
        credits := Tab.set 0 s.yoke.credits (frameField frame 7 6)
          (Tab.get 0 s.yoke.credits (frameField frame 7 6) + frameField frame 5 0)
        lastYoke := s.clk.now
        silent := false }) := by
  subst stream
  obtain ⟨trained, silent, waiting⟩ : s.yokeTrained = true ∧ s.yoke.silent = false ∧ s.dict.waiting = [] := by
    simpa [State.yokeReady, and_assoc] using ready
  obtain ⟨u, frame', yoke, took⟩ := State.takeFrame_eq silent free known
  have clk : u.clk = s.clk := frame' .clk (by decide)
  have dict : u.dict = s.dict := frame' .dict (by decide)
  have quiet : (s.takeFrame frame).serveWaiting = s.takeFrame frame := by
    refine State.serveWaiting_of_none ?_
    rw [took]
    exact (congrArg Dict.waiting dict).trans waiting
  refine ⟨s.takeFrame frame, ?_, ?_, ?_⟩
  · show execYokeFrameReceive frame s = _
    have takes : ¬ ((!s.yokeTrained) = true ∨ (!frameGood frame) = true ∨ frameField frame 31 20 ≠ (s.yoke.rxSeq + 1) % 4096) := by
      simp [trained, good, next']
    rw [execYokeFrameReceive, if_neg takes, quiet]
  · rw [took]
    exact State.keeps_upYoke _ (by decide) (State.keeps_upYoke _ (by decide) frame')
  · dsimp only
    rw [took, State.upYoke_yoke, State.upYoke_yoke, yoke, clk, ← free, Yoke.took, Yoke.acked_eq]

theorem yokeRetransmit_again (trained : s.yokeTrained = true) (kept : s.yoke.unacked ≠ []) :
    Does .yokeRetransmit s [.clk, .yoke, .obs, .perf] (fun t => t.yoke = { s.yoke with
        sent := s.yoke.sent ++ s.yoke.unacked.map (fun f => { f with ack := s.yoke.rxSeq })
        ackAt := t.clk.now
        frameReplays := min (s.yoke.frameReplays + s.yoke.unacked.length) 0xFFFFFFFF } ∧
      t.clk.now = max s.clk.now (s.yoke.ackAt + 2000)) := by
  have runs : ¬ ((!s.yokeTrained) = true ∨ s.yoke.unacked.isEmpty = true) := by simp [trained, kept]
  refine .of_frame (execYokeRetransmit_keeps s (by decide) (State.keepsBut_refl _ s)) (congrArg Host.Outcome.next (if_neg runs)) ?_
  constructor <;> simp

theorem heartbeatSend_sends (trained : s.yokeTrained = true) (none' : s.job 0x8006 = none) :
    Does .heartbeatSend s [.yoke, .obs, .perf] (fun t =>
      t.yoke.out = s.yoke.out ++ [{ ty := 0x0B, body := membershipBytes (s.payload s.yoke.hbSeq) }] ∧
      t.yoke.hbSeq = (s.yoke.hbSeq + 1) % 256 ∧ t.yoke.txSeq = (s.yoke.txSeq + 1) % 4096 ∧ t.yoke.credits = s.yoke.credits) := by
  have cmds : (s.sendMember 0x0B).cmds = s.cmds := State.sendMember_frame .cmds (by decide)
  have quiet : (s.sendMember 0x0B).answerRelease = s.sendMember 0x0B := by
    refine if_neg ?_
    rw [State.job, cmds, ← State.job, none']
    simp
  refine ⟨s.sendMember 0x0B, ?_, State.sendMember_frame, ?_⟩
  · show execHeartbeatSend s = _
    rw [execHeartbeatSend, if_pos trained, quiet]
  · obtain ⟨owed, ack, unacked, sent, h⟩ := State.sendMember_yoke (s := s) (ty := 0x0B) (by decide) (by decide) rfl
    rw [h]
    exact ⟨rfl, rfl, rfl, rfl⟩

theorem pulseSend_sends (keeper : s.keeperOn = true) (route : s.entry 0x4100 5 ≠ 0) : Does .pulseSend s [.yoke, .obs, .perf] (fun t =>
    t.yoke.out = s.yoke.out ++ [{ ty := pulseTy, aux := s.entry 0x4100 5, body := membershipBytes (s.payload s.yoke.pulseSeq) }] ∧
    t.yoke.pulseSeq = (s.yoke.pulseSeq + 1) % 256 ∧ t.yoke.txSeq = s.yoke.txSeq) := by
  refine .of_frame (execPulseSend_keeps s (by decide) (State.keepsBut_refl _ s))
    (congrArg Host.Outcome.next ((if_pos keeper).trans (if_neg route))) ?_
  exact ⟨rfl, rfl, rfl⟩

/-- Settles O39: a frame that leaves changes the frame stream and the credits it returns alone, so what a row sends says what it changes. -/
theorem yokeLink : Obligations.YokeLink := by
  refine ⟨?_, ?_, ?_, ?_, ?_, ?_, ?_, ?_, ?_, ?_⟩
  · intro s credits port pair
    show execYokeTrainingDone 6 4 credits s = _
    have train : trainable 6 4 = true := rfl
    simp only [execYokeTrainingDone, port, train, Bool.not_true, Bool.false_eq_true, if_false, if_neg pair]
    rfl
  · intro s speed width credits port train outside credit
    exact yokeTrainingDone_hello port train outside credit
  · intro s frame b ready good next' stream known free
    exact yokeFrameReceive_next ready good next' stream known free
  · intro s frame bad
    refine congrArg Host.Outcome.next (if_pos ?_)
    exact .inr (bad.imp (by simp) id)
  · intro s trained kept
    exact yokeRetransmit_again trained kept
  · intro s none'
    exact congrArg Host.Outcome.next (if_pos (.inr (by simp [none'])))
  · intro s trained none'
    exact heartbeatSend_sends trained none'
  · intro s keeper route
    exact pulseSend_sends keeper route
  · intro s m yoke plain pass
    rw [State.send_passes yoke plain pass]
    obtain ⟨tx, owed, ack, unacked, sent, h⟩ := State.transmit_yoke (s := s) (m := m)
    refine ⟨by rw [h], by rw [h], ?_, State.send_passes yoke plain pass ▸ State.send_frame⟩
    rw [h]
    dsimp only
    split
    · rfl
    · exact (Tab.get_set ..).trans (if_pos rfl)
  · intro s m yoke plain hold
    exact State.send_waits yoke plain hold

end Sys2Proof.Machine
end

