-- ==== Sys2Proof/Proofs/WritesLand.lean ====
section
/-!
PROOF. Writes at their completion point (R143 to R153, R360, R361, R374): a whole line written to one the front cache holds, the answer of a
request, and a Modified line that moves to the tier.
-/
namespace Sys2Proof.Machine

variable {s t : State} {r : Req} {x : FcLine} {y : Sector} {d : Line} {line : Nat}

/-! ## The answer of a host's request (R63, R143) -/

/-- The groups an answer to the host writes. -/
abbrev answerParts : List Part := [.port, .reqs, .slices, .care, .reg, .obs, .perf, .firkin, .rstats]

theorem State.answer_outside {k : RespKind} (host : r.entry ≠ internal) : s.answer r k =
    (((s.timed r).respond r.key r.tag k).dropReq r.id).upSlices (fun q => { q with
      lastWork := Tab.put q.lastWork r.slice s.clk.now }) := if_neg host

theorem State.timed_frame : s.keepsBut [.care, .reg, .firkin, .rstats] (s.timed r) :=
  State.timed_keeps _ _ (by decide) (State.keepsBut_refl _ s)

theorem State.answer_outside_keeps {ps : List Part} {k : RespKind} (host : r.entry ≠ internal)
    (sub : ∀ p, p ∈ answerParts → p ∈ ps) (h : t.keepsBut ps s) : t.keepsBut ps (s.answer r k) := by
  rw [State.answer_outside host]
  exact State.keeps_upSlices _ (sub _ (by decide)) (State.dropReq_keeps _ _ (part_sub sub (by decide))
    (State.respond_keeps _ _ _ _ (part_sub sub (by decide)) (State.timed_keeps _ _ (part_sub sub (by decide)) h)))

theorem State.answer_outside_port {k : RespKind} (host : r.entry ≠ internal) :
    (s.answer r k).port.out = s.port.out ++ [⟨r.key, r.tag, k⟩] := by
  have port : (s.timed r).port = s.port := State.timed_frame .port (by decide)
  simp only [State.answer_outside host, State.dropReq, State.upSlices_port, State.upReqs_port, State.respond_port, port]

theorem State.answer_outside_reqs {k : RespKind} (host : r.entry ≠ internal) :
    (s.answer r k).reqs = { s.reqs with list := s.reqs.list.filter (fun q => decide (q.id ≠ r.id)) } := by
  have reqs : ((s.timed r).respond r.key r.tag k).reqs = s.reqs :=
    State.respond_keeps (P := [.port, .obs, .perf, .care, .reg, .firkin, .rstats]) _ _ _ _ (by decide)
      (State.timed_keeps _ _ (by decide) (State.keepsBut_refl _ s)) .reqs (by decide)
  simp only [State.answer_outside host, State.dropReq, State.upSlices_reqs, State.upReqs_reqs, reqs]

/-! ## A whole line lands on a line the front cache holds (R360) -/

/-- The front-cache line with a whole line written to it. -/
def FcLine.full (x : FcLine) (d : Line) : FcLine := { x with
  st := .modified
  data := d
  mask := 0
  through := false }

/-- A whole line is written to one the front cache holds: what the tier and the fetches have of it is older, and no reservation on it is
left (R119, R147, R297). -/
def State.landFull (line : Nat) (d : Line) (x : FcLine) (s : State) : State :=
  ((((((s.fcPut line (x.full d)).fcTouch line).staleCopy line).cancelMerge line d).overwritten line).wakeLine line).intervene line

theorem State.landFull_keeps {ps : List Part} (sub : ∀ p, p ∈ [.fc, .tier, .slices, .reqs, .atom] → p ∈ ps) (h : t.keepsBut ps s) :
    t.keepsBut ps (s.landFull line d x) :=
  State.intervene_keeps _ _ (part_sub sub (by decide)) (State.wakeLine_keeps _ _ (part_sub sub (by decide))
    (State.overwritten_keeps _ _ (part_sub sub (by decide)) (State.cancelMerge_keeps _ _ _ (part_sub sub (by decide))
      (State.staleCopy_keeps _ _ (part_sub sub (by decide)) (State.fcTouch_keeps _ _ (part_sub sub (by decide))
        (State.fcPut_keeps _ _ _ (part_sub sub (by decide)) h))))))

theorem State.landFull_frame : s.keepsBut [.fc, .tier, .slices, .reqs, .atom] (s.landFull line d x) :=
  State.landFull_keeps (by decide) (State.keepsBut_refl _ s)

theorem State.fcTouch_lines : (s.fcTouch line).fc.lines = s.fc.lines := by
  unfold State.fcTouch
  split <;> rfl

theorem State.landFull_line : (s.landFull line d x).fcLine? line = some (x.full d) := by
  have fc : (s.landFull line d x).fc = ((s.fcPut line (x.full d)).fcTouch line).fc :=
    State.intervene_keeps (P := [.tier, .slices, .reqs, .atom]) _ _ (by decide) (State.wakeLine_keeps _ _ (by decide)
      (State.overwritten_keeps _ _ (by decide) (State.cancelMerge_keeps _ _ _ (by decide)
        (State.staleCopy_keeps _ _ (by decide) (State.keepsBut_refl _ _))))) .fc (by decide)
  rw [State.fcLine?, fc, State.fcTouch_lines]
  exact Tab.look_put.trans (if_pos rfl)

theorem State.landFull_atom : (s.landFull line d x).atom = (s.intervene line).atom := by
  have atom : ((((((s.fcPut line (x.full d)).fcTouch line).staleCopy line).cancelMerge line d).overwritten line).wakeLine line).atom =
      s.atom :=
    State.wakeLine_keeps (P := [.fc, .tier, .slices, .reqs]) _ _ (by decide)
      (State.overwritten_keeps _ _ (by decide) (State.cancelMerge_keeps _ _ _ (by decide)
        (State.staleCopy_keeps _ _ (by decide) (State.fcTouch_keeps _ _ (by decide) (State.fcPut_keeps _ _ _ (by decide)
          (State.keepsBut_refl _ s)))))) .atom (by decide)
  simp only [State.landFull, State.intervene, State.endRes, State.upAtom_atom, atom]

theorem State.landFull_res : (s.landFull line d x).atom.res = s.atom.res.filter (fun q => !decide (q.line = line)) :=
  congrArg Atom.res State.landFull_atom

theorem State.unpoison_of_clean (clean : s.poisoned line = false) : s.unpoison line = s := if_neg (by simp [clean])

theorem State.markSole_of_other {g : Nat} (other : s.sole = false) : s.markSole g = s := if_neg (by simp [other])

/-- A whole line written under policy 00h to a line held and not poisoned, by a module that is not Sole (R146, R360). -/
theorem State.applyWrite_held {policy : Nat} (own : s.policyNow policy = 0) (held : s.fcLine? line = some x)
    (clean : s.poisoned line = false) (other : s.sole = false) :
    s.applyWrite line d fullMask false policy = some (s.landFull line d x) := by
  let u := ((((s.fcPut line (x.full d)).fcTouch line).staleCopy line).cancelMerge line d).overwritten line
  have frame : s.keepsBut [.fc, .tier, .slices] u :=
    State.overwritten_keeps _ _ (by decide) (State.cancelMerge_keeps _ _ _ (by decide)
      (State.staleCopy_keeps _ _ (by decide) (State.fcTouch_keeps _ _ (by decide) (State.fcPut_keeps _ _ _ (by decide)
        (State.keepsBut_refl _ s)))))
  have frame' : s.keepsBut [.fc, .tier, .slices, .reqs] (u.wakeLine line) :=
    State.wakeLine_keeps _ _ (by decide) (State.keepsBut_mono frame (by decide))
  have clean' : u.poisoned line = false := by
    rw [State.poisoned, frame .map (by decide)]
    exact clean
  have other' : (u.wakeLine line).sole = false := by
    rw [State.sole, frame' .yoke (by decide)]
    exact other
  have wrote : s.writeFull line d policy = some ((((s.fcPut line (x.full d)).fcTouch line).staleCopy line).cancelMerge line d) := by
    simp only [State.writeFull, if_pos own, held]
    rfl
  simp only [State.applyWrite, if_true, wrote, Bool.false_eq_true, if_false]
  change some (((u.unpoison line).wakeLine line).markSole (grainOf line) |>.intervene line) = _
  rw [State.unpoison_of_clean clean', State.markSole_of_other other']
  rfl

/-! ## The write completes (R143, R153) -/

theorem State.chargeFor_frame : s.keepsBut [.pwr, .budget, .cmds] (s.chargeFor line) :=
  State.chargeFor_keeps _ _ (by decide) (State.keepsBut_refl _ s)

theorem State.chargeFor_armed : (s.chargeFor line).pwr.armed = s.pwr.armed := by
  unfold State.chargeFor State.charge State.leavePrepared State.setCtl
  repeat' split
  all_goals rfl

theorem State.chargeFor_charged (armed : s.pwr.armed = true) (clean : s.isDirty line = false) :
    (s.chargeFor line).isCharged line = true := by
  rw [State.chargeFor, if_neg (by simp [clean]), State.charge, if_neg (by simp [armed])]
  split
  · next charged => exact charged
  · simp only [State.isCharged, State.upBudget_budget, Tab.look_put, if_pos, Option.isSome_some]

/-- The state after a host's write of a whole line to one the front cache holds: charged, landed, counted and answered. -/
def State.storedHit (r : Req) (x : FcLine) (s : State) : State :=
  ((((s.chargeFor r.line).landFull r.line r.data x).noteAccess true r).answer r .complete).keepBefore r.id (s.lineBefore r.line)

/-- A whole line stored by an armed module alone, under policy 00h, to a line the front cache holds (R143, R153). -/
theorem State.storeWrite_held (whole : r.be = fullMask) (sound : r.poison = false) (brine : s.inBrine = false)
    (alone : s.yoke.member = 0) (armed : s.pwr.armed = true) (own : s.policyNow r.policy = 0) (held : s.fcLine? r.line = some x)
    (clean : s.poisoned r.line = false) : s.storeWrite r = s.storedHit r x := by
  let u := s.chargeFor r.line
  have frame : s.keepsBut [.pwr, .budget, .cmds] u := State.chargeFor_frame
  have fc : u.fc = s.fc := frame .fc (by decide)
  have held' : u.fcLine? r.line = some x := by rw [State.fcLine?, fc]; exact held
  have own' : u.policyNow r.policy = 0 := by rw [State.policyNow, State.fcOpen, fc]; exact own
  have clean' : u.poisoned r.line = false := by rw [State.poisoned, frame .map (by decide)]; exact clean
  have other : u.sole = false := by rw [State.sole, frame .yoke (by decide), alone]; rfl
  have ready : u.waitsSlot r = false := by simp [State.waitsSlot, whole]
  have hit : u.missWrite r = u := if_pos (by rw [held']; rfl)
  have lands : (u.missWrite r).applyWrite r.line r.data r.be r.poison r.policy = some (u.landFull r.line r.data x) := by
    rw [hit, whole, sound]
    exact State.applyWrite_held own' held' clean' other
  let v := (u.landFull r.line r.data x).noteAccess true r
  have same : u.keepsBut [.fc, .tier, .slices, .reqs, .atom, .obs, .perf] v :=
    State.noteAccess_keeps _ _ _ (by decide) (State.landFull_keeps (by decide) (State.keepsBut_refl _ u))
  have alone' : v.paired = false := by
    rw [State.paired, same .yoke (by decide), frame .yoke (by decide), alone]
    rfl
  have armed' : v.pwr.armed = true := by
    rw [same .pwr (by decide), State.chargeFor_armed]
    exact armed
  have completes : v.completeWrite r = v.answer r .complete := if_neg (by simp [armed'])
  calc s.storeWrite r
      = (if (((u.landFull r.line r.data x).notePoison r).noteAccess (u.fcLine? r.line).isSome r).paired
          then (((u.landFull r.line r.data x).notePoison r).noteAccess (u.fcLine? r.line).isSome r).mirrorOut r
          else (((u.landFull r.line r.data x).notePoison r).noteAccess (u.fcLine? r.line).isSome r).completeWrite r).keepBefore
            r.id (s.lineBefore r.line) := by
        simp only [State.storeWrite, brine, Bool.false_eq_true, if_false]
        rw [if_neg (by rw [ready]; simp)]
        change (match (u.missWrite r).applyWrite r.line r.data r.be r.poison r.policy with
          | none => _
          | some t => _) = _
        rw [lands]
    _ = _ := by
        have quiet : (u.landFull r.line r.data x).notePoison r = u.landFull r.line r.data x := if_neg (by simp [sound])
        rw [quiet, held', Option.isSome_some]
        change (if v.paired then v.mirrorOut r else v.completeWrite r).keepBefore r.id (s.lineBefore r.line) = _
        rw [if_neg (by simp [alone']), completes]
        rfl

theorem State.storedHit_keeps {ps : List Part} (host : r.entry ≠ internal)
    (sub : ∀ p, p ∈ [.pwr, .budget, .cmds, .fc, .tier, .atom] ++ answerParts → p ∈ ps) (h : t.keepsBut ps s) :
    t.keepsBut ps (s.storedHit r x) :=
  State.keepBefore_keeps _ _ _ (part_sub sub (by decide)) (State.answer_outside_keeps host (part_sub sub (by decide))
    (State.noteAccess_keeps _ _ _ (part_sub sub (by decide)) (State.landFull_keeps (part_sub sub (by decide))
      (State.chargeFor_keeps _ _ (part_sub sub (by decide)) h))))

/-- What an answered write leaves as it was landed. -/
theorem State.storedHit_same (host : r.entry ≠ internal) :
    ((s.chargeFor r.line).landFull r.line r.data x).keepsBut (.fc :: answerParts) (s.storedHit r x) :=
  State.keepBefore_keeps _ _ _ (by decide) (State.answer_outside_keeps host (by decide)
    (State.noteAccess_keeps _ _ _ (by decide) (State.keepsBut_refl _ _)))

theorem State.noteAccess_lines {hit : Bool} : (s.noteAccess hit r).fc.lines = s.fc.lines := by simp [State.noteAccess]

theorem State.storedHit_line (host : r.entry ≠ internal) : (s.storedHit r x).fcLine? r.line = some (x.full r.data) := by
  have fc : (s.storedHit r x).fc = (((s.chargeFor r.line).landFull r.line r.data x).noteAccess true r).fc :=
    State.keepBefore_keeps (P := answerParts) _ _ _ (by decide) (State.answer_outside_keeps host (by decide)
      (State.keepsBut_refl _ _)) .fc (by decide)
  rw [State.fcLine?, fc, State.noteAccess_lines]
  exact State.landFull_line

theorem State.storedHit_out (host : r.entry ≠ internal) :
    (s.storedHit r x).port.out = s.port.out ++ [⟨r.key, r.tag, .complete⟩] := by
  have port : (((s.chargeFor r.line).landFull r.line r.data x).noteAccess true r).port = s.port :=
    State.noteAccess_keeps (P := [.pwr, .budget, .cmds, .fc, .tier, .slices, .reqs, .atom, .obs, .perf]) _ _ _ (by decide)
      (State.landFull_keeps (by decide) (State.chargeFor_keeps _ _ (by decide) (State.keepsBut_refl _ s))) .port (by decide)
  simp only [State.storedHit, State.keepBefore, State.upReqs_port, State.answer_outside_port host, port]

theorem State.storedHit_atom (host : r.entry ≠ internal) :
    (s.storedHit r x).atom = ((s.chargeFor r.line).landFull r.line r.data x).atom := State.storedHit_same host .atom (by decide)

theorem State.storedHit_res (host : r.entry ≠ internal) :
    (s.storedHit r x).atom.res = s.atom.res.filter (fun q => !decide (q.line = r.line)) := by
  rw [State.storedHit_atom host, State.landFull_res, State.chargeFor_frame .atom (by decide)]

theorem State.storedHit_gone (host : r.entry ≠ internal) : ∀ q ∈ (s.storedHit r x).reqs.list, q.id ≠ r.id := by
  intro q hq
  simp only [State.storedHit, State.keepBefore, State.upReqs_reqs, State.answer_outside_reqs host, List.mem_map, List.mem_filter,
    decide_eq_true_eq] at hq
  obtain ⟨p, ⟨-, other⟩, rfl⟩ := hq
  rwa [if_neg other]

theorem State.storedHit_charged (host : r.entry ≠ internal) (armed : s.pwr.armed = true) (clean : s.isDirty r.line = false) :
    (s.storedHit r x).isCharged r.line = true := by
  have budget : (s.storedHit r x).budget = (s.chargeFor r.line).budget :=
    (State.storedHit_same host .budget (by decide)).trans (State.landFull_frame .budget (by decide))
  rw [State.isCharged, budget]
  exact State.chargeFor_charged armed clean

/-! ## A Modified line moves to the tier (R361, R374) -/

theorem Tab.look_map {α : Type} {t : Tab α} {n : Nat} (f : Nat → α → α) :
    Tab.look (t.map (fun kv => (kv.1, f kv.1 kv.2))) n = (Tab.look t n).map (f n) := by
  induction t with
  | nil => rfl
  | cons kv t ih =>
    rw [List.map_cons, Tab.look, Tab.look]
    split
    · next same => rw [← same]; rfl
    · exact ih

/-- A sector of the set of one of an age that becomes the most recent (R372). -/
def State.aged (s : State) (sec age k : Nat) (z : Sector) : Sector :=
  if k = sec then { z with age := 0 }
  else if tierSetKey s.ident.variant k = tierSetKey s.ident.variant sec ∧ z.age < age then { z with age := z.age + 1 }
  else z

theorem State.tierTouch_sectors {sec : Nat} (held : s.sector? sec = some y) :
    (s.tierTouch sec).tier.sectors = s.tier.sectors.map (fun kx => (kx.1, s.aged sec y.age kx.1 kx.2)) := by
  simp only [State.tierTouch, held, State.upTier_tier]
  refine List.map_congr_left fun kx _ => ?_
  unfold State.aged
  split
  · rfl
  · split <;> rfl

/-- A sector that is touched keeps its content. -/
theorem State.tierTouch_sector {sec : Nat} (held : s.sector? sec = some y) :
    (s.tierTouch sec).sector? sec = some { y with age := 0 } := by
  rw [State.sector?, State.tierTouch_sectors held, Tab.look_map, ← State.sector?, held, Option.map_some, State.aged, if_pos rfl]

theorem State.dramWrote_sectors {sec n : Nat} : (s.dramWrote sec n).tier = s.tier :=
  State.dramWrote_keeps (P := [.obs, .perf]) _ _ _ (by decide) (State.keepsBut_refl _ s) .tier (by decide)

/-- A Modified line whose sector the tier holds moves there and is Dirty with its data. -/
theorem State.moveToTier_modified (dirty : x.st = .modified) (there : s.sector? (sectorOf line) = some y) :
    ∃ t, s.moveToTier line x = some t ∧ s.keepsBut [.fc, .tier, .perf, .obs] t ∧ t.fcLine? line = none ∧
      ∃ z, t.sector? (sectorOf line) = some z ∧ z.lineSt (line % 32) = .dirty ∧ Tab.get 0 z.data (line % 32) = x.data := by
  let y1 : Sector := { y with
    present := y.present ||| ((1 : BitVec 32) <<< (line % 32))
    data := Tab.set 0 y.data (line % 32) x.data
    st := Tab.set .clean y.st (line % 32) .dirty
    masks := Tab.set 0 y.masks (line % 32) 0 }
  let u := ((s.putSector (sectorOf line) y1).tierTouch (sectorOf line)).dramWrote (sectorOf line) 1
  have writes : s.tierWrite line x.data .dirty 0 = some u := by
    simp only [State.tierWrite, there, reduceCtorEq, if_false]
    rfl
  have put : (s.putSector (sectorOf line) y1).sector? (sectorOf line) = some y1 := Tab.look_put.trans (if_pos rfl)
  have touched := State.tierTouch_sector put
  refine ⟨u.fcDrop line, ?_, ?_, Tab.look_erase.trans (if_pos rfl), { y1 with age := 0 }, ?_, ?_, ?_⟩
  · simp only [State.moveToTier, dirty, writes]
  · exact State.fcDrop_keeps _ _ (by decide) (State.dramWrote_keeps _ _ _ (by decide) (State.tierTouch_keeps _ _ (by decide)
      (State.putSector_keeps _ _ _ (by decide) (State.keepsBut_refl _ s))))
  · rw [← touched, State.sector?, State.sector?]
    exact congrArg (fun v => Tab.look v.sectors (sectorOf line)) State.dramWrote_sectors
  · show Tab.get .clean (Tab.set .clean y.st (line % 32) .dirty) (line % 32) = .dirty
    rw [Tab.get_set, if_pos rfl]
  · show Tab.get 0 (Tab.set 0 y.data (line % 32) x.data) (line % 32) = x.data
    rw [Tab.get_set, if_pos rfl]

theorem writeAdmit_lands (first : s.firstHeld = some r) (kind : r.kind = .write) (whole : r.be = fullMask) (sound : r.poison = false)
    (brine : s.inBrine = false) (alone : s.yoke.member = 0) (armed : s.pwr.armed = true) (runs : s.dumping = false)
    (fits : s.admits r.line = true) (own : s.policyNow r.policy = 0) (held : s.fcLine? r.line = some x)
    (clean : s.poisoned r.line = false) : exec .writeAdmit s = .next (s.storedHit r x) := by
  have serves : s.serveWrite r = s.storeWrite r := by
    have some' : ¬ r.be = 0 := by rw [whole]; decide
    have alone' : ¬ (s.paired = true ∧ (!s.home r.line) = true) := by simp [State.paired, alone]
    have serving : ¬ s.yoke.member = 3 := by rw [alone]; decide
    simp only [State.serveWrite, if_neg some', brine, Bool.false_eq_true, if_false, if_neg serving, if_neg alone', if_pos fits]
  have other : ¬ r.kind = .condWrite := by rw [kind]; decide
  show execWriteAdmit s = _
  simp only [execWriteAdmit, runs, Bool.false_eq_true, if_false, first, if_pos fits, if_neg other, serves]
  rw [State.storeWrite_held whole sound brine alone armed own held clean]

/-- Settles O32: a whole line admitted lands on the front-cache line in place, and a Modified line replaced takes its data to the tier. -/
theorem writesLand : Obligations.WritesLand := by
  refine ⟨?_, ?_, ?_, ?_, ?_⟩
  · intro s r x first kind whole sound host brine alone armed runs fits own held clean
    refine ⟨s.storedHit r x, writeAdmit_lands first kind whole sound brine alone armed runs fits own held clean,
      State.storedHit_keeps host (by decide) (State.keepsBut_refl _ s), State.storedHit_line host,
      State.storedHit_charged host armed, State.storedHit_out host, State.storedHit_gone host, ?_⟩
    intro q hq
    rw [State.storedHit_res host] at hq
    simpa using (List.mem_filter.mp hq).2
  · intro s r first
    refine .of_frame (execWritesHeld_keeps s (by decide) (State.keepsBut_refl _ s)) (t := ((s.elapseTo (r.arrival + 100000000)).upBudget
      (fun b => { b with heldLogged := b.heldLogged ++ [r.id] })).logFor r.entry 0x2005
        (s.elapseTo (r.arrival + 100000000)).heldReason) ?_ ?_
    · show execWritesHeld s = _
      rw [execWritesHeld, first]
    · constructor <;> simp
  · intro s slice set w line x fast runs way held clean
    show execFrontCacheEvict slice set .none s = _
    simp only [execFrontCacheEvict, fast, runs, way, State.checkFault, State.evict, held, State.moveToTier, clean]
    rfl
  · intro s slice set w line x y fast runs way held dirty there
    obtain ⟨t, moves, keeps, done⟩ := State.moveToTier_modified dirty there
    refine ⟨t, ?_, keeps, done⟩
    show execFrontCacheEvict slice set .none s = _
    simp only [execFrontCacheEvict, fast, runs, way, State.checkFault, State.evict, held, moves]
    rfl
  · intro s slice set line x y runs waits dirty there
    obtain ⟨t, moves, keeps, done⟩ := State.moveToTier_modified dirty there
    refine ⟨t, ?_, keeps, done⟩
    show execTierSectorFreed slice set s = _
    simp only [execTierSectorFreed, runs, waits, moves]
    rfl

end Sys2Proof.Machine
end

