-- ==== Sys2Proof/Proofs/AtomicsRefuted.lean ====
section
/-!
PROOF. The statement about atomics windows says of a refused access nothing of the requests in the module: it is refuted by a module that
holds a request under the number the next one would get, which the access's own row then serves.
-/
namespace Sys2Proof.Machine

/-- A serving module with a window over its first grain, whose partner entry 0 lacks the atomics capability; a write without bytes waits under
the next request's number, and such a refusal has been logged within the second. -/
def refusingModule : State :=
  { servingModule with
    port := { attach := 1, speed := 6, creditsReq := 1, lastRefusal := [(0x30020000, 0)] }
    tabs :=
      { ranges := [(0, { base := 0, size := 16384, kind := 1 })]
        partners := [(0, { valid := true })] }
    reqs := { list := [newReq .write 0 0 7 0 0 0 0 0 false 0] } }

/-- Refutes O38: clause (5) does not say that no request has the next number; one that has is served when the access is refused, and its
completion follows the access's poison. -/
theorem not_atomicsWork : ¬ Obligations.AtomicsWork := by
  unfold Obligations.AtomicsWork
  rintro ⟨-, -, -, -, refused, -⟩
  have answered : ((refusingModule.arrive false 0 0 0 0 0 false).serveNew 0 .none).port.out =
      [⟨0, 0, .poison⟩, ⟨0, 7, .complete⟩] := by decide
  obtain ⟨-, -, out⟩ := (refused refusingModule 0 0 0 0 0 .none { base := 0, size := 16384, kind := 1 } (by decide) (by decide)
    (by decide) (by decide) (.inl (by decide))).of_answer rfl
  exact absurd (answered.symm.trans out) (by decide)

end Sys2Proof.Machine
end
